-- ==== Sys2Proof/Word.lean ====
section
/-!
DEFINITION. The plain data types of the TD-8800 model: bytes, A48 accumulator codes, flag words and sparse tables.
Field extraction, byte order and number formats are in the files under `Machine/`.
-/

namespace Sys2Proof

/-- One byte of a memory, of a packet body or of an object value. -/
abbrev Byte := BitVec 8

/-- A 64-byte tensor descriptor as stored (R103), byte 0x00 in the low bits. -/
abbrev TensorDesc := BitVec 512

/-- A 128-byte work-tile descriptor as stored (R98), byte 0x00 in the low bits. -/
abbrev WorkDesc := BitVec 1024

/-- An A48 accumulator code, float view or integer view (R37). -/
abbrev A48 := BitVec 48

/-- The six format flags in the bit order of R50. -/
abbrev Flags := BitVec 6

/-- A 64-bit sync command word (R198). -/
abbrev Word64 := BitVec 64

/-- A sparse table: pairs of a key and an entry. Its canonical form has strictly rising keys and no entry
equal to the value an absent key reads as, so that equal tables are equal lists. -/
abbrev Tbl (α : Type) := List (Nat × α)

end Sys2Proof
end

