-- ==== Sys2Proof/Syntax.lean ====
section
/-!
DEFINITION. The commands that reach the module: one constructor of `Instr` for each row of spec/opcode_table.json, and
the operand types they carry (packets, management requests, raw flits).
-/

namespace Sys2Proof

/-- How a management message reached the caddy (R406): the tray bus, VC0 from device `src`, or mailbox `m` of BAR0. -/
inductive Transport
  | tray
  | vc0 (src : Nat)
  | mailbox (m : Nat)
deriving DecidableEq, Repr

/-- The header fields of a management request (R409) that its row needs: transport, MASTER class, SESSION, XID, EPOCH
and DEST (0x8000 names the receiving module). -/
structure Req where
  transport : Transport
  cls : Nat
  session : Nat
  xid : Nat
  epoch : Nat
  dest : Nat
deriving DecidableEq, Repr

/-- A packet (R158): virtual channel, dateline class, the routing header's fields and the bytes after that header. -/
structure Packet where
  vc : Nat
  dl : Bool
  dest : Nat
  src : Nat
  dir : Nat
  hops : Nat
  ctx : Nat
  rsv : Nat
  body : List Byte
deriving DecidableEq, Repr

/-- Issuer of a sync or urn command (R198, R321): the page of a context, or a management message for a context. -/
inductive CmdSrc
  | page (ctx : Nat)
  | mgmt (r : Req) (ctx : Nat)
deriving DecidableEq, Repr

/-- A vector that the host writes in an MSI-X table of BAR4 (R454): function (0 the PF, n VF n), vector, and the entry's 16
bytes as a number. -/
structure MsixWrite where
  fn : Nat
  vector : Nat
  entry : Nat
deriving DecidableEq, Repr

/-- A trained PCIe link: FLIT mode, and what the host then sets: the VFs that it enables, bit n for VF n + 1, the log2 of a new
BAR2 size where it resizes that BAR, and the MSI-X vectors that it writes (R453, R454). -/
structure PcieLink where
  flit : Bool
  vfs : Nat
  bar2 : Option Nat
  msix : List MsixWrite
deriving DecidableEq, Repr

/-- How a datagram came over the tray bus (R407): IPv6 destination address, UDP destination port, and whether a PLCA
beacon has been seen again since the last one. -/
structure Datagram where
  dst : Nat
  port : Nat
  beacon : Bool
deriving DecidableEq, Repr

/-- Idle cycles of one core since the last telemetry sample (R468), and the set of R468's conditions, bit n for the cause of
index n, that held in them beside those that the state shows. -/
structure IdleGroup where
  core : Nat
  conds : Nat
  cycles : Nat
deriving DecidableEq, Repr

/-- How a stage of the main sequence ends: passed, or failed at a row of R466, with the service flag of the unit concerned
where R403 gives it one. -/
inductive StageEnd
  | passed
  | failed (row : Nat) (flag : Option Nat)
deriving DecidableEq, Repr

/-- What the error checks of one granule found (R300, R301): nothing, a corrected error, an uncorrectable one of KIND 1
to 3 (R303), or, in the L2 through which its stack is reached, a corrected or an uncorrectable one (R292). -/
inductive MemErr
  | clean
  | corrected
  | uncorrectable (kind : Nat)
  | l2Corrected
  | l2Lost
deriving DecidableEq, Repr

/-- The errors that one access met, each with an address in the granule concerned. -/
abbrev MemErrs := List (Nat × MemErr)

/-- A request of a peer with the errors that its access to memory meets. -/
structure Access where
  pkt : Packet
  errs : MemErrs
deriving DecidableEq, Repr

/-- One error that a tile's accesses met: corrected in the core's local store or accumulator buffer (R87) or in the
exchange SRAM (R311); met at an address of device memory (R292, R300, R301); or uncorrectable, with the OPERAND read
(R123), in the local store, the accumulator buffer, or the exchange SRAM; or uncorrectable in the link that leads from a class's
free list (R317). -/
inductive SramErr
  | corrected
  | exchCorrected
  | mem (addr : Nat) (err : MemErr) (op : Nat)
  | localStore (op : Nat)
  | accumulator (op : Nat)
  | exchange (op : Nat)
  | link (cls : Nat)
deriving DecidableEq, Repr

/-- A host access window (R457): BAR2 of the PF, or the window of VF `n`. -/
inductive HostWin
  | pf
  | vf (n : Nat)
deriving DecidableEq, Repr

/-- Which input is lost (R395). -/
inductive PowerInput
  | p5v
  | p50v
deriving DecidableEq, Repr

/-- The supply of a compute die in mV as its droop detectors find it (R376). -/
structure Supply where
  die : Nat
  mv : Nat
deriving DecidableEq, Repr

/-- The regulator rails of R25. -/
inductive Rail
  | core (die : Nat)
  | hub
  | stack (n : Nat)
  | gddr7
  | standby
deriving DecidableEq, Repr

/-- Activity counts of 1 µs (R359): per die, of the shared units, and of the evaluation partition's cores (R477), one
count per event kind. -/
structure Activity where
  die0 : List Nat
  die1 : List Nat
  die2 : List Nat
  die3 : List Nat
  shared : List Nat
  eval0 : List Nat
  eval1 : List Nat
  eval2 : List Nat
  eval3 : List Nat
deriving DecidableEq, Repr

/-- The commands, one constructor per row of spec/opcode_table.json. -/
inductive Instr
  | mgmtSegmentReceive (dgram : Datagram) (bytes : List Byte)
  | mgmtMessageDiscard (cls xid : Nat)
  | mgmtVc0Receive (p : Packet)
  | mbxDoorbell (m len : Nat)
  | hello (r : Req)
  | claim (r : Req) (priority : Nat) (preempt : Bool) (tag : List Byte)
  | renew (r : Req)
  | release (r : Req)
  | handover (r : Req) (target : Nat)
  | close (r : Req)
  | read (r : Req) (id sub flags : Nat)
  | write (r : Req) (id sub : Nat) (val : List Byte)
  | describe (r : Req) (id : Nat)
  | mgmtPost (r : Req) (ctx target : Nat) (descs : List WorkDesc)
  | sessionLapse (cls : Nat)
  | leaseExpiry
  | handoverLapse
  | authLockExpiry (cls : Nat)
  | apply (r : Req) (area : Nat)
  | discard (r : Req) (area : Nat)
  | protDrainDone
  | fwImageBlockWrite (r : Req) (sub : Nat) (val : List Byte)
  | fwActivate (r : Req) (v : Nat)
  | bootVerifyDone
  | stepStart (r : Req) (ctx n : Nat)
  | ftSet (r : Req) (v : Nat)
  | permuteGo (r : Req) (ctx v : Nat)
  | kettleRestart (r : Req) (v : Nat)
  | replanCtrl (r : Req) (v : Nat)
  | serviceAck (r : Req) (v : Nat)
  | selfTest (r : Req) (v : Nat)
  | idleClear (r : Req) (v : Nat)
  | pruneExcessCountClear (r : Req) (ctx v : Nat)
  | rw1cFlagClear (r : Req) (id v : Nat)
  | moduleReset (src : Option Req)
  | mainReset (r : Req)
  | computeReset (r : Req)
  | contextReset (src : Option Req) (ctx : Nat)
  | hostReset
  | sqTailWrite (ctx v : Nat)
  | sqEntryTake (ctx : Nat) (readOk : Bool) (host : List Byte)
  | sqListFullRetry (ctx : Nat)
  | intStatusClear (ctx v : Nat)
  | intMaskWrite (ctx v : Nat)
  | hostRegisterWrite (off : Nat) (bytes : List Byte)
  | hostMemoryRead (win : HostWin) (off n : Nat) (err : MemErrs)
  | hostMemoryWrite (win : HostWin) (off : Nat) (bytes : List Byte) (err : MemErrs)
  | objectWindowWrite (off : Nat) (bytes : List Byte)
  | powerOn
  | caddyReady
  | mainSequenceStart
  | railsUp (e : StageEnd)
  | coreSelfTestDone (fails : List Nat) (e : StageEnd)
  | gddr7TrainingDone (rate : Option Nat) (e : StageEnd)
  | memoryZeroed (e : StageEnd)
  | mainReady (e : StageEnd)
  | refclkLoss
  | powerEstimate (a : Activity)
  | calibration (measured : Nat) (rails : List Nat)
  | phaseEnergyUpdate
  | controlTick
  | opChangeDone (die : Nat)
  | forcedIdleFrame
  | forcedIdleQuantumStart (core : Nat)
  | forcedIdleQuantumEnd (core : Nat)
  | paceProbeStart
  | paceProbeEnd
  | droopDetect (supply : Supply)
  | droopStretchEnd (supply : Supply) (cycles : Nat)
  | droopLimitExpiry (die : Nat)
  | thermalSample (temps : List Int)
  | powerBrakeAssert
  | powerBrakeDeassert
  | coolantOkLow
  | stackTempSample (stack : Nat) (t : Int)
  | gddrTempRead (temps : List Int)
  | gddr7Realign
  | gddr7DeviceLost
  | scrubRead (addr : Nat) (err : MemErr)
  | granuleRetireDone
  | journalWriteDone
  | coreFailureDetect (core : Nat)
  | watchdogExpiry (core : Nat)
  | spareCoreReady (die : Nat)
  | railPhaseLoss (rail : Rail)
  | mgmtTakeover
  | m1Failure
  | powerLoss (input : PowerInput)
  | ringOscSample (unit : Nat) (counts : List Nat)
  | criticalPathSample (unit : Nat) (vmin : List Nat)
  | laserBiasSample (link : Nat) (ratios : List Nat)
  | retentionTest (stack channel multiple : Nat)
  | poweredHourTick
  | lightArrival (link : Nat)
  | laneLockDone (link healthy : Nat)
  | ident (link : Nat) (raw : List Byte)
  | widthSet (link : Nat) (raw : List Byte)
  | widthAck (link : Nat) (raw : List Byte)
  | spareReq (link : Nat) (raw : List Byte)
  | spareAck (link : Nat) (raw : List Byte)
  | laneCtrlResend (link : Nat)
  | atRoundChange (link : Nat) (rx : Bool)
  | linkDown (link : Nat)
  | laneFailure (link lane : Nat)
  | wavelengthTimeout (link wave : Nat)
  | laserFailure (link source : Nat)
  | laserSpareLocked (link : Nat)
  | dataFlitReceive (link : Nat) (raw : List Byte) (fecOk : Bool)
  | idleFlitReceive (link : Nat) (raw : List Byte)
  | nak (link : Nat) (raw : List Byte)
  | resend (link : Nat) (raw : List Byte)
  | nakRepeat (link : Nat)
  | routerParityError (link : Nat)
  | flitTransmit (link : Nat)
  | packetRoute (port : Nat)
  | faultNotice (p : Packet)
  | timeExchangeStart (link : Nat)
  | timeFlitReceive (link : Nat) (raw : List Byte)
  | ftParentReselect
  | ftHoldoverEntry
  | signal (src : CmdSrc) (w : Word64)
  | takeNb (src : CmdSrc) (w : Word64)
  | syncRead (src : CmdSrc) (w : Word64)
  | set (src : CmdSrc) (w : Word64)
  | arrive (src : CmdSrc) (w : Word64)
  | barrierInit (src : CmdSrc) (w : Word64)
  | remoteSyncReceive (p : Packet)
  | coreSleep (core : Nat)
  | coreWake (core : Nat)
  | matmul (core : Nat)
  | vector (core : Nat)
  | copy (core : Nat)
  | emit (core : Nat)
  | update (core : Nat)
  | send (core : Nat)
  | post (core : Nat)
  | postRetry (core : Nat)
  | overflowMove (die : Nat)
  | chainMissing (die : Nat)
  | tileComputeDone (core idx : Nat) (err : List SramErr)
  | tileEpilogueDone (core idx : Nat) (err : List SramErr)
  | tileStoresDone (core idx : Nat)
  | ctxSliceExpiry (core : Nat) (stops : List Nat)
  | contextSwitchDone (core : Nat)
  | exchAdmit
  | dispatch
  | exchReturn
  | combine
  | openBwd
  | exchCount (p : Packet)
  | exchGrant (p : Packet)
  | exchAllot (p : Packet)
  | exchRow (p : Packet)
  | exchReturnRow (p : Packet)
  | exchDeadlineExpiry (ctx id dir : Nat)
  | stepVote (ctx : Nat)
  | vote (p : Packet)
  | commitDeadlineExpiry (ctx : Nat)
  | commit (p : Packet)
  | replay (p : Packet)
  | halt (p : Packet)
  | decisionTimeout (ctx : Nat)
  | normSummerDone (ctx : Nat)
  | emitChunkHandoff
  | redChunkReceive (p : Packet)
  | reduceDeadlineExpiry (ctx group tag : Nat)
  | permuteDrainRound (ctx : Nat)
  | countReq (p : Packet)
  | permuteCount (p : Packet)
  | phase1Go (p : Packet)
  | permutePhase1CopyDone (ctx : Nat)
  | phase1Done (p : Packet)
  | phase2Go (p : Packet)
  | permutePhase2StoresAcked (ctx : Nat)
  | phase2Done (p : Packet)
  | permuteDone (p : Packet)
  | permuteFailed (p : Packet)
  | entryInvalid (p : Packet)
  | permuteStageDeadline (ctx : Nat)
  | alloc (src : CmdSrc) (w : Word64)
  | free (src : CmdSrc) (w : Word64)
  | query (src : CmdSrc) (w : Word64)
  | creditReq (p : Packet)
  | urnRequestServe (ctx : Nat)
  | urnGrant (p : Packet)
  | urnData (p : Packet)
  | urnListRepairDone (cls : Nat)
  | fabRead (ctx : Nat)
  | fabWrite (ctx : Nat)
  | fabFlaggedWrite (ctx : Nat)
  | fabAtomic (ctx : Nat)
  | fabInvalidate (ctx : Nat)
  | flaggedWriteSend (ctx : Nat)
  | targetRead (p : Packet) (err : MemErrs)
  | targetWrite (p : Packet) (err : MemErrs)
  | targetFlaggedWrite (q : Access)
  | targetAtomic (q : Access)
  | atomicCombined (q : Access)
  | atomicAck (p : Packet)
  | targetInvalidate (p : Packet)
  | inv (p : Packet)
  | invAck (p : Packet)
  | readData (p : Packet)
  | writeAck (p : Packet)
  | atomicResp (p : Packet)
  | invDone (p : Packet)
  | atomicRetryTimeout (dest seq : Nat)
  | atomicBusyRetry (dest seq : Nat)
  | atomicAckTimer (dest : Nat)
  | atomicEntryExpiry
  | hotRateTick
  | fabTimeout (tag : Nat)
  | telemetrySample (idle : List IdleGroup) (phases : List Nat)
  | wavelengthRelock (link wave : Nat)
  | ftRefLoss
  | orefLoss
  | plcaBeaconTimeout
  | pcieLinkTrainingDone (gen width : Nat) (link : PcieLink)
  | holdUpExhausted
deriving DecidableEq, Repr

end Sys2Proof
end

