-- ==== Sys2Proof/Config.lean ====
section
/-!
DEFINITION. What the spec leaves open: uninterpreted constants with no body, so that no proof can depend on their
values. Each is named in a row of notes/assumptions.
-/

namespace Sys2Proof.Config

/-- Errors that accesses find at a moment of the model's clock, each with a core, or the token exchange engine, where it comes up
(R87, R292, R300, R301, R311, R317). Log 9. -/
opaque found : Nat → List (Nat × SramErr)

/-- A HOST reset is a Function Level Reset of the PF, which leaves the PCIe link trained (R463). Log 38. -/
opaque pfReset : Nat → Bool

/-- Choice among the F32 values inside a routine's stated error bound (R91), by routine ID and input code. Log 9. -/
opaque vuPick : Nat → Nat → Nat

/-- Result code of a routine whose value the spec does not state for an input (for instance RECIP of zero),
by routine ID and input code. Log 9. -/
opaque vuUnstated : Nat → Nat → Nat

/-- The y and z operands of ADD, MUL and FMA and the results of the routines that R91 lists without operands in a
descriptor: routine ID, which operand, TILE_ID, row and column. Log 9. -/
opaque vuOperand : Nat → Nat → Nat → Nat → Nat → Nat

/-- Measured interruption of a covered fault in ns (R392), one value per event; the record holds it within its class's
bound (R385). Log 27. -/
opaque interruption : Nat → Nat

/-- How much older than two cycles of its reader's clock a sample of fabric time is (R22), by clock time and the
reader's cycle in ps. Log 25. -/
opaque sampleAge : Nat → Nat → Nat

/-- The module carries 64 GiB of GDDR7 and not 48 GiB (R2). Log 46. -/
opaque gddr64 : Bool

/-- The module ends in pigtails and not in connectors (R2). Log 46. -/
opaque pigtails : Bool

/-- A byte of a peer's memory that a tile's READ without response asked for (R339): TAG, device and offset. Log 42. -/
opaque peerByte : Nat → Nat → Nat → Byte

/-- Way 0 to 3 in which a die's L2 allocates a reader-cached line (R345): die, device, line address and clock time.
Log 10. -/
opaque l2Way : Nat → Nat → Nat → Nat → Nat

/-- Set of a line in a die's L2, which has 32,768 (R292): device and line address. Log 10. -/
opaque l2Set : Nat → Nat → Nat

/-- A reader-cached line has not yet given way to a line of the die's own stack (R292, R345): die, device, line address
and clock time. Log 10. -/
opaque l2Kept : Nat → Nat → Nat → Nat → Bool

/-- The reader groups of an INV as a module of its tree learns them, by root device and INV_ID: R347 prunes the tree
by the root's directory entry and the INV packet does not carry it. Log 37. -/
opaque invGroups : Nat → Nat → Nat

/-- A byte or an accumulator entry that an uncorrectable SRAM error left undelivered (R87): which event, which place. Log 28. -/
opaque lost : Nat → Nat → Nat

/-- A combine weight w × x ÷ a that has no stated value: a finite non-zero dividend over 0, or infinity over infinity
(R45, R214). By source token, rank and weight. Log 21. -/
opaque gateWeight : Nat → Nat → Nat → Nat

/-- How far in ppm the fabric time servo moves the rate correction (R180), by the weighted sum of the offsets in ps, their
weights' sum, the correction in force and the time; the model holds it within the range of R176. Log 25. -/
opaque ftServo : Int → Nat → Int → Nat → Int

/-- Power in W that one event of a kind in 1 µs stands for (R359): part (0 for a die, 1 for the shared part), kind. Log 17. -/
opaque eventPower : Nat → Nat → Rat

/-- Rail, counted from the hub's, whose share of the shared part an event of a kind belongs to (R359, R360). Log 17. -/
opaque sharedRail : Nat → Nat

/-- Leakage in W (R359): die 0 to 3 or 4 for the shared part, voltage in mV, hottest junction in 0.25 °C. Log 17. -/
opaque leakage : Nat → Nat → Int → Rat

/-- Ratio of a measured power to an estimate of zero (R360), by the measured power. Log 17. -/
opaque ratioOfZero : Nat → Rat

/-- Current limit of a core rail in mA with every active phase working (R26, R365), by die. Log 17. -/
opaque coreLimit : Nat → Rat

/-- Cap in W that the limit of a rail other than a core rail stands for with every active phase working (R26), by rail.
Log 17. -/
opaque railCap : Nat → Rat

/-- Unit and temperature that STOP_CAUSE records of a COOLANT stop (R380), by event. Log 26. -/
opaque coolantPlace : Nat → Nat

/-- Level of COOLANT_OK when a command asks for it after a loss, by event (log 3). -/
opaque coolantLevel : Nat → Bool

/-- RECORD_ID of a journal record (R394, R396): the manual gives no numbers. By record. Log 27. -/
opaque recordId : Nat → Nat

/-- Bytes of a journal record's body (R394): the manual gives no layout. By event. Log 27. -/
opaque recordBody : Nat → List Byte

/-- Levels of the SLOT_ID straps when the module reads them (R486). By event. Log 3. -/
opaque slotPins : Nat → Nat

/-- SESSION number and CHALLENGE of the n-th one issued (R406, R418; log 7). -/
opaque sessionNum : Nat → Nat
opaque challenge : Nat → Nat

/-- Reply value of a sync or urn command whose unit has no main power (R17, R411), by free value drawn. Log 15. -/
opaque deadReply : Nat → Nat

/-- The SIGNATURE of a firmware header verifies under the vendor key held in ROM (R425, R426): header bytes 0x00 to
0x3F, then the signature. Log 31. -/
opaque signed : List Byte → List Byte → Bool

/-- Fused minimum SEC_VERSION at manufacture, and VERSION and SEC_VERSION of the image fitted there (R425, R426). Log 31. -/
opaque minSec : Nat
opaque factoryVersion : Nat
opaque factorySec : Nat

/-- Bytes of the image fitted at manufacture (R425), by offset. Log 31. -/
opaque factoryByte : Nat → Byte

/-- The module's MAC address, from which its link-local address is formed (R407). Log 15. -/
opaque mac : Nat

/-- Threshold shift in 0.1 mV that a ring-oscillator reading stands for, with the sensitivity recorded at manufacture
(R397): unit, pair, reading. Log 29. -/
opaque oscShift : Nat → Nat → Nat → Nat

/-- V_min in mV at manufacture (R402): unit, point. Log 33. -/
opaque vminMade : Nat → Nat → Nat

/-- Growth in mV over the next 1,000 h and FORECAST in hours where the fit of R402 has no value, because it has no
re-plan to rest on or a shift that is not positive: unit, powered hours. Log 29. -/
opaque growth : Nat → Nat → Nat
opaque forecast : Nat → Nat → Nat

/-- How long a re-plan stays in progress in ns, at most a second (R399), by event. Log 29. -/
opaque replanNs : Nat → Nat

end Sys2Proof.Config
end

