-- ==== Sys2Proof/Machine/Bits.lean ====
section
/-!
DEFINITION. Bit fields, byte order (R6), saturating counts, CRC-32C (R137, R409) and the sparse tables' operations.
-/

namespace Sys2Proof.Machine

/-- The field of `w` bits of `v` that begins at bit `lo` (R5: bit 0 is the least significant). -/
def bits (v lo w : Nat) : Nat := v / 2 ^ lo % 2 ^ w

/-- Bit `i` of `v`. -/
def bit (v i : Nat) : Bool := v / 2 ^ i % 2 == 1

/-- `v` with the field of `w` bits at `lo` replaced by the low bits of `x`. -/
def setBits (v lo w x : Nat) : Nat :=
  v - bits v lo w * 2 ^ lo + x % 2 ^ w * 2 ^ lo

/-- 1 for true and 0 for false, as a register bit. -/
def ofBool (b : Bool) : Nat := if b then 1 else 0

/-- A `w`-bit two's complement field read as an integer. -/
def sext (w v : Nat) : Int :=
  if v % 2 ^ w < 2 ^ (w - 1) then (v % 2 ^ w : Int) else (v % 2 ^ w : Int) - (2 ^ w : Nat)

/-- An integer as a `w`-bit two's complement field. -/
def ofInt (w : Nat) (i : Int) : Nat := (i % (2 ^ w : Nat)).toNat

/-- The number whose bytes, least significant first, are the list (R6). -/
def leNat : List Byte → Nat
  | [] => 0
  | b :: bs => b.toNat + 256 * leNat bs

/-- `n` bytes of `v`, least significant first (R6). -/
def toLE : Nat → Nat → List Byte
  | 0, _ => []
  | n + 1, v => BitVec.ofNat 8 v :: toLE n (v / 256)

/-- The field of `w` bits at bit `lo` of a little-endian byte list. -/
def bytesField (bs : List Byte) (lo w : Nat) : Nat := bits (leNat ((bs.drop (lo / 8)).take (w / 8 + 2))) (lo % 8) w

/-- A list padded with zero bytes to `n` bytes, or cut to them. -/
def padTo (n : Nat) (bs : List Byte) : List Byte := (bs ++ List.replicate (n - bs.length) 0).take n

/-- Sum of two counts that saturates at the largest `w`-bit value. -/
def satAdd (w a b : Nat) : Nat := min (a + b) (2 ^ w - 1)

/-- `x` rounded up to a multiple of `n`. -/
def alignUp (n x : Nat) : Nat := (x + n - 1) / n * n

/-- Smallest whole number at or above `a / b`. -/
def ceilDiv (a b : Nat) : Nat := (a + b - 1) / b

/-- One bit of the reflected CRC-32C (polynomial 0x1EDC_6F41, R137). -/
def crc32cBit (c : Nat) : Nat := if c % 2 = 1 then (c / 2) ^^^ 0x82F63B78 else c / 2

/-- CRC-32C of one more byte. -/
def crc32cByte (c : Nat) (b : Byte) : Nat :=
  crc32cBit (crc32cBit (crc32cBit (crc32cBit (crc32cBit (crc32cBit (crc32cBit (crc32cBit (c ^^^ b.toNat))))))))

/-- CRC-32C: initial value and final XOR 0xFFFF_FFFF (R137, R409). -/
def crc32c (bs : List Byte) : Nat := bs.foldl crc32cByte 0xFFFFFFFF ^^^ 0xFFFFFFFF

/-- The entry of a table at a key, `d` where the table lists none. -/
def tget {α : Type} (d : α) : Tbl α → Nat → α
  | [], _ => d
  | (k, v) :: t, i => if k = i then v else tget d t i

/-- The entry of a table at a key, if it is listed. -/
def tget? {α : Type} : Tbl α → Nat → Option α
  | [], _ => none
  | (k, v) :: t, i => if k = i then some v else tget? t i

/-- A table with its entry at `i` removed. -/
def terase {α : Type} : Tbl α → Nat → Tbl α
  | [], _ => []
  | (k, v) :: t, i => if k = i then t else if k < i then (k, v) :: terase t i else (k, v) :: t

/-- A table with `v` listed at `i`, in rising key order. -/
def tins {α : Type} : Tbl α → Nat → α → Tbl α
  | [], i, x => [(i, x)]
  | (k, v) :: t, i, x =>
    if k = i then (i, x) :: t else if k < i then (k, v) :: tins t i x else (i, x) :: (k, v) :: t

/-- Writes an entry and keeps the canonical form: the default value is not listed. -/
def tset {α : Type} [DecidableEq α] (d : α) (t : Tbl α) (i : Nat) (x : α) : Tbl α :=
  if x = d then terase t i else tins t i x

/-- A table with every listed entry changed, in canonical form. -/
def tmap {α : Type} [DecidableEq α] (d : α) (f : α → α) (t : Tbl α) : Tbl α :=
  (t.map (fun p => (p.1, f p.2))).filter (fun p => decide (p.2 ≠ d))

/-- The entries of a table written one after the other: the table in canonical form. -/
def tcanon {α : Type} [DecidableEq α] (d : α) (t : Tbl α) : Tbl α := t.foldl (fun u p => tset d u p.1 p.2) []

/-- Keys strictly above `lo` and rising. -/
def keysFrom {α : Type} : Option Nat → Tbl α → Bool
  | _, [] => true
  | none, (k, _) :: t => keysFrom (some k) t
  | some l, (k, _) :: t => decide (l < k) && keysFrom (some k) t

/-- The canonical form of a table: keys strictly rising, no entry equal to the default. -/
def twf {α : Type} [DecidableEq α] (d : α) (t : Tbl α) : Bool :=
  keysFrom none t && t.all (fun p => decide (p.2 ≠ d))

/-- Bytes of a byte table from address `a`, `n` of them, absent bytes reading as zero. -/
def tbytes (t : Tbl Byte) (a : Nat) : Nat → List Byte
  | 0 => []
  | n + 1 => tget 0 t a :: tbytes t (a + 1) n

/-- Stores a byte list at address `a` of a byte table. -/
def tstore (t : Tbl Byte) (a : Nat) : List Byte → Tbl Byte
  | [] => t
  | b :: bs => tstore (tset 0 t a b) (a + 1) bs

/-- Position of the first element that satisfies `p`. -/
def findIdx {α : Type} (p : α → Bool) : List α → Option Nat
  | [] => none
  | x :: xs => if p x then some 0 else (findIdx p xs).map (· + 1)

/-- The list without its first element that satisfies `p`. -/
def dropFirst {α : Type} (p : α → Bool) : List α → List α
  | [] => []
  | x :: xs => if p x then xs else x :: dropFirst p xs

end Sys2Proof.Machine
end

