-- ==== Sys2Proof/Machine/UnitsC.lean ====
section
/-!
DEFINITION. State of the pins, the power sequencing, the kettle, the fault log and flash, the ageing monitors, telemetry
and the evaluation partition. Each field's comment gives its name, width, the file and rule that names it, and its
value at reset.
-/

namespace Sys2Proof.Machine

/-- Input pins (R483, R486), as the last command that told of them left them. -/
structure Pins where
  /-- P5V_SB within range; 21 R483; reset true (POWER_ON is the standby supply coming within range) -/
  p5v : Bool
  /-- P50V within range; 21 R485; reset false (log 3) -/
  p50v : Bool
  /-- COOLANT_OK high; 21 R483; reset false (unconnected reads low) -/
  coolantOk : Bool
  /-- POWER_BRAKE# low; 21 R483; reset false (unconnected reads deasserted) -/
  brake : Bool
  /-- SLOT_ID[5:0] as read at the last POWER_ON or MODULE reset; 21 R486; reset 63 (open bits read 1; the first POWER_ON
  reads the straps) -/
  slotId : Nat
  /-- REFCLK present; 21 R488; reset DESIGN CHOICE true (log 3) -/
  refclk : Bool
  /-- OREF present; 21 R488; reset DESIGN CHOICE true (log 3) -/
  oref : Bool
deriving DecidableEq, Repr

/-- MAIN_STATE (R467). -/
inductive MainSt
  | off | sequencing | ready | stopped | failed
deriving DecidableEq, Repr

/-- STOP_CAUSE (R380): cause, unit, temperature and FT_NOW. -/
structure StopRec where
  cause : Nat
  unit : Nat
  temp : Nat
  time : Nat
deriving DecidableEq, Repr

/-- Power sequencing (R465, R466, R379, R395). -/
structure Power where
  /-- SELF_TEST_RESULT MAIN_STATE, 3 bits; 19 R467; reset OFF -/
  main : MainSt
  /-- SELF_TEST_RESULT FAILED_STEP, 4 bits; 19 R467; reset 0 -/
  failedStep : Nat
  /-- SELF_TEST_RESULT CORE_FAILS, 8 bits; 19 R467; reset 0 -/
  coreFails : Nat
  /-- SELF_TEST_RESULT READY_MS, 32 bits; 19 R467; reset 0 -/
  readyMs : Nat
  /-- clock time at which the main sequence began; 19 R466; reset 0 -/
  seqStart : Nat
  /-- rows of R466 completed in this sequence, 0 to 7; 19 R466; reset 0 -/
  seqRow : Nat
  /-- a core self-test that SELF_TEST asked for is in progress; 19 R467; reset false -/
  selfTest : Bool
  /-- the main rails are on; 19 R466; reset false -/
  rails : Bool
  /-- the standby domain is powered, from P5V_SB or from the hold-up store; 16 R395, 21 R486; reset true -/
  standby : Bool
  /-- no tile is accepted because of a stop or a power loss; 15 R379, 16 R395; reset false -/
  halted : Bool
  /-- the cause of the stop in force, if any; 15 R380; reset none -/
  stop : Option StopRec
  /-- stacks at or above 95 °C in their last sample; 15 R379; reset none -/
  hotStacks : List Nat
  /-- junction sensors at or above 115 °C in the last sample, numbered through the units; 15 R379; reset none -/
  hotSensors : List Nat
  /-- a power-loss sequence is in progress: inputs lost [0] main, [1] standby; 16 R395; reset 0 -/
  losing : Nat
  /-- FT_NOW at the detection of that loss; 16 R396; reset 0 -/
  lossTime : Nat
  /-- a RESET# that waits for the end of the power-loss sequence; 21 R487; reset false -/
  resetWaits : Bool
  /-- lost phases of each rail: cores 0 to 3, hub 4, stacks 5 to 8, GDDR7 9, standby 10, persistent; 01 R25, R27; reset 0 -/
  phases : Tbl Nat
deriving DecidableEq, Repr

/-- Engine-enable states (R75), least restrictive first. -/
inductive Eng
  | dual | single | denseOnly
deriving DecidableEq, Repr

/-- A thermal limit that the sensors of one unit impose on a die (R377). -/
structure Therm where
  /-- point; reset DESIGN CHOICE 15 (log 32) -/
  lim : Nat
  /-- engine request; reset DUAL -/
  eng : Eng
  /-- thermal q; reset 0 -/
  q : Nat
  /-- thermal q asked for at the next frame (R370); reset 0 -/
  qNext : Nat
  /-- clock time of the last step; reset 0 -/
  at_ : Nat
  /-- clock time since which the unit stands 3 °C below the threshold; reset none -/
  coolAt : Option Nat
deriving DecidableEq, Repr

/-- The kettle's state for one compute die. -/
structure Die where
  /-- OP_STATE POINT, 4 bits; 15 R383; reset 0 -/
  point : Nat
  /-- point of a change in progress; 15 R364; reset none -/
  target : Option Nat
  /-- point whose clock the PLL gives, which falls first and rises last in a change; 15 R364; reset 0 -/
  clock : Nat
  /-- voltage in force, mV, which rises first and falls last in a change; 15 R364; reset 620 (P0, R363) -/
  mv : Nat
  /-- OP_STATE ENGINES; 15 R383; reset DUAL -/
  eng : Eng
  /-- OP_STATE IDLE_Q, 3 bits; 15 R383; reset 0 -/
  q : Nat
  /-- OP_STATE LIMIT, 3 bits; 15 R383; reset 0 -/
  limit : Nat
  /-- budget limit, point; 15 R368; reset DESIGN CHOICE 15 (log 32) -/
  budget : Nat
  /-- budget's engine request; 15 R368; reset DUAL -/
  budEng : Eng
  /-- budget q; 15 R368; reset 0 -/
  budQ : Nat
  /-- budget q asked for at the next frame; 15 R368; reset 0 -/
  budQNext : Nat
  /-- thermal limit that the die's own sensors impose; 15 R377; reset as `Therm`'s lines say -/
  own : Therm
  /-- thermal limit that the hub's sensors impose; 15 R377; reset as `Therm`'s lines say -/
  hub : Therm
  /-- droop limit and the end of its 1 ms; 15 R376; reset none -/
  droop : Option (Nat × Nat)
  /-- clock time at which the stretch in progress began; 15 R376; reset none -/
  stretching : Option Nat
  /-- stretched cycles of the last 100 µs, as (clock time, cycles); 15 R376; reset none -/
  stretched : List (Nat × Nat)
  /-- matched point; 15 R374; reset none -/
  matched : Option Nat
  /-- BUDGET_STATE, 2 bits: 0 GREEN, 1 AMBER, 2 RED; 15 R366; reset 0 -/
  bstate : Nat
  /-- clock time at which the budget state was entered; 15 R366; reset 0 -/
  bstateAt : Nat
  /-- clock time of the last budget change; 15 R369; reset 0 -/
  changeAt : Nat
  /-- clock time since which the 100 µs mean stands below 0.90 B_d; 15 R369; reset none -/
  lowAt : Option Nat
  /-- estimates of the last 1,000 µs in W, newest first; 15 R359; reset none -/
  hist : List Rat
  /-- dynamic part of the estimates of this millisecond, in W; 15 R367; reset 0 -/
  dyn : List Rat
  /-- computing core cycles of this millisecond by phase tag; 15 R367; reset 0 -/
  cycles : Tbl Nat
deriving DecidableEq, Repr

/-- The kettle (R359 to R384). -/
structure Kettle where
  /-- dies 0 to 3; 15 R363; reset each field as its own line says -/
  dies : Tbl Die
  /-- estimates of the shared part of the last 1,000 µs in W, newest first; 15 R359; reset none -/
  shared : List Rat
  /-- caps that the loop held to when those estimates were formed, W, newest first; 15 R361; reset none -/
  caps : List Rat
  /-- uncorrected estimates of the eleven rails' shares since the last calibration; 15 R360; reset none -/
  raw : List (List Rat)
  /-- mean measured input power of the last calibration, W; 15 R383; reset 0 -/
  measured : Nat
  /-- gain k; 15 R360; reset DESIGN CHOICE 1 (log 32) -/
  gain : Rat
  /-- gains of the shares of rails 0 to 10; 15 R360; reset DESIGN CHOICE 1 each (log 32) -/
  railGain : Tbl Rat
  /-- consecutive calibrations out of range; 15 R360; reset 0 -/
  badCal : Nat
  /-- PWR_CAP in force for the loop, W; 15 R361; reset 2,400 -/
  cap : Nat
  /-- a lowering above 3,100 W is in progress; 15 R361; reset false -/
  lowering : Bool
  /-- CAP_UNREACHABLE; 15 R382; reset false -/
  unreach : Bool
  /-- UNREACH_COUNT, 16 bits; 15 R382; reset 0 -/
  unreachCount : Nat
  /-- clock time since which every die is at its floor; 15 R371; reset none -/
  floorAt : Option Nat
  /-- consecutive 1 ms means at or below the cap; 15 R371; reset 0 -/
  okMeans : Nat
  /-- CAL_RANGE; 15 R382; reset false -/
  calRange : Bool
  /-- DROOP_SEEN; 15 R382; reset false -/
  droopSeen : Bool
  /-- learned energies e_p in W per core, by tag; 15 R367; reset unset -/
  energy : Tbl Rat
  /-- PHASE_COST of each tag, 0 to 2; 15 R367; reset 1 (MID) -/
  cost : Tbl Nat
  /-- p_m; 15 R374; reset unset -/
  pm : Option Nat
  /-- a probe is in progress and when it began; 15 R374; reset none -/
  probe : Option Nat
  /-- lowest PACE received in the probe's last 50 µs; 15 R374; reset none -/
  probeMin : Option Nat
  /-- the brake holds; 15 R378; reset false -/
  brake : Bool
  /-- PWR_NOW power floor, W: the estimate of the braked state; 15 R378, R383; reset 0 (18 R440) -/
  floor : Nat
  /-- fabric time at which the frame in force began; 15 R370; reset 0 -/
  frameAt : Nat
  /-- evaluation partition's q_e; 20 R479; reset 0 -/
  evalQ : Nat
  /-- estimates of each die's partition cores of the last 100 µs, newest first; 20 R477; reset none -/
  evalHist : List (List Rat)
  /-- clock time since which that mean is below 0.90 EVAL_POWER; 20 R477; reset none -/
  evalLowAt : Option Nat
deriving DecidableEq, Repr

/-- A retired 64 KiB granule (R305). -/
structure Retired where
  addr : Nat
  spare : Nat
  memory : Nat
  cause : Nat
  hours : Nat
deriving DecidableEq, Repr

/-- Ageing monitors of one unit: CD0 to CD3 or the hub (R397, R398). -/
structure AgeUnit where
  /-- DV_MEAN, 16 bits, 0.1 mV, persistent; 16 R398; reset 0 -/
  dvMean : Nat
  /-- DV_MAX, 16 bits, 0.1 mV, persistent; 16 R398; reset 0 -/
  dvMax : Nat
  /-- samples of the powered hour in progress, by oscillator pair: sum of the shifts in 0.1 mV and their number; 16 R397; reset none -/
  samples : List (Nat × Nat)
  /-- latest V_min per point, mV, with the DV_MAX then in force, persistent; 16 R397, R400; reset DESIGN CHOICE none measured: the value at manufacture (log 33) -/
  vmin : Tbl (Nat × Nat)
  /-- points measured since the previous re-plan; 16 R400; reset none -/
  fresh : List Nat
  /-- voltage in force raised above R363, per point, mV, persistent; 16 R399, R400; reset R363 -/
  plan : Tbl Nat
  /-- planned voltages that the kettle has not yet applied, per point, mV; 16 R399; reset none -/
  raise : Option (Tbl Nat)
  /-- HOURS of the last re-plan, 32 bits, persistent; 16 R398; reset 0 -/
  hours : Nat
  /-- FORECAST, 32 bits, persistent; 16 R398; reset 0xFFFF_FFFF -/
  forecast : Nat
  /-- history of (hours, V_min(P13) shift in mV) at re-plans, persistent; 16 R402; reset none -/
  history : List (Nat × Nat)
deriving DecidableEq, Repr

/-- Ageing (R397 to R402). -/
structure Ageing where
  /-- units 0 to 4; 16 R397; reset each field as its own line says -/
  units : Tbl AgeUnit
  /-- LASER_BIAS ratios × 4,096 by link × 5 + source, persistent; 16 R398; reset 4,096 -/
  bias : Tbl Nat
  /-- bias samples of the powered hour in progress: sum and count; 16 R397; reset none -/
  biasSum : Tbl (Nat × Nat)
  /-- laser sources that met LASER_AGEING's condition in their last hour, as link × 5 + source, persistent; 16 R402, R404;
  reset none -/
  aged : List Nat
  /-- RETENTION_MARGIN word of each stack, persistent; 16 R398; reset 8 -/
  retention : Tbl Nat
  /-- POWERED_HOURS, 32 bits, persistent; 16 R398; reset 0 -/
  hours : Nat
  /-- clock time at which the re-plan in progress ends; 16 R399; reset 0 -/
  busyTo : Nat
deriving DecidableEq, Repr

/-- What a journal write records (R27, R394, R396, R430): a fault-log record, the core map, STOP_CAUSE, a spare of
another kind (1 receive lane, 2 laser source, 3 rail phase, 4 management core, 5 transmit lane; the unit it replaces; the
spare), POWER_LOSS_LOG with the RECORD_ID of the write completed before it, the service flags, the ageing history, the
voltage plan, the memory remap, the audit log, the firmware slots' markings, or a persistent object of the catalogue. -/
inductive JRec
  | fault (bytes : List Byte)
  | coreMap
  | stopCause (r : StopRec)
  | spare (kind unit by_ : Nat)
  | powerLog (id : Nat)
  | service
  | ageing
  | plan
  | remap
  | audit
  | boot
  | object (id : Nat)
deriving DecidableEq, Repr

/-- What a version of a journal record holds (R394, R396). -/
inductive JBody
  | none
  | log (recs : List (List Byte)) (total : Nat)
  | coreMap (pos : Tbl Nat) (offline dead : List Nat)
  | stopCause (r : StopRec)
  | spares (xs : List (Nat × Nat × Nat))
  | powerLog (v : Nat)
  | service (flags ack : Nat)
  | ageing (a : Ageing)
  | plan (xs : List (Tbl Nat))
  | remap (xs : List Retired)
  | audit (recs : List (List Byte)) (count : Nat)
  | boot (activeB pending : Bool)
  | object (val : Nat)
deriving DecidableEq, Repr

/-- One of the two slots of a journal record (R394): its 32-byte header, its body's bytes and what they hold. -/
structure JSlot where
  header : List Byte
  bytes : List Byte
  body : JBody
deriving DecidableEq, Repr

/-- Module flash, fault log and power-loss record (R392 to R396). -/
structure Flash where
  /-- journal writes waiting, the first in progress; 16 R392, R394; reset none -/
  queue : List JRec
  /-- the two slots of each record, by the record's number, persistent; 16 R394; reset erased -/
  recs : Tbl (JSlot × JSlot)
  /-- fault-log records written, newest first, 256 kept, persistent; 16 R392; reset none -/
  log : List (List Byte)
  /-- events since manufacture, 32 bits, persistent; 16 R392; reset 0 -/
  total : Nat
  /-- spares of the other kinds recorded as consumed: kind, unit replaced and spare, persistent; 01 R27; reset none -/
  spares : List (Nat × Nat × Nat)
  /-- STOP_CAUSE, 128 bits, persistent; 15 R380; reset 0 -/
  stopCause : StopRec
  /-- POWER_LOSS_LOG, 128 bits, persistent; 16 R396; reset 0 -/
  powerLog : Nat
  /-- SERVICE_FLAGS, 64 bits, persistent; 16 R403; reset 0 -/
  service : Nat
  /-- SERVICE_ACK, 64 bits, persistent; 16 R404; reset 0 -/
  ack : Nat
  /-- FAULT_NOTICEs sent within the last ms, as (SRC, SRC_CTX, clock time); 16 R388; reset none -/
  notices : List (Nat × Nat × Nat)
  /-- M1 failed while it was the only management core: every attempt fails; 16 R387; reset false -/
  code17 : Bool
deriving DecidableEq, Repr

/-- Run telemetry (R468, R469). -/
structure Telemetry where
  /-- idle core cycles of causes 0 to 11 counted so far; 20 R468; reset 0 -/
  idleNow : Tbl Nat
  /-- computing core cycles of tags 0 to 15 counted so far; 20 R469; reset 0 -/
  phaseNow : Tbl Nat
  /-- IDLE_CYCLES of causes 0 to 11, 64 bits, latest sample; 20 R468; reset 0 -/
  idle : Tbl Nat
  /-- PHASE_CYCLES of tags 0 to 15, 64 bits, latest sample; 20 R469; reset 0 -/
  phase : Tbl Nat
  /-- an IDLE_CLEAR waits for the next sample instant; 20 R469; reset false -/
  clear : Bool
  /-- EVAL_STATUS PARITY; 20 R479; reset 0 -/
  parity : Nat
deriving DecidableEq, Repr

end Sys2Proof.Machine
end

