-- ==== Sys2Proof/Machine/UnitsA.lean ====
section
/-!
DEFINITION. State of the fabric time unit, the links and router, the sync units, the memories, the urn and the memory
fabric. Each field's comment gives its name, width, the file and rule that names it, and its value at reset.
-/

namespace Sys2Proof.Machine

/-- Fabric time states (R179). -/
inductive FtSt
  | free | acquiring | locked | holdover | rootUnset | root
deriving DecidableEq, Repr

/-- What a neighbour's TIME flits last reported (R178), and the last offset measured to it. -/
structure NbrTime where
  state : Nat
  depth : Nat
  /-- none before an exchange with it is complete -/
  offset : Option Int
deriving DecidableEq, Repr

/-- A time exchange awaiting its reply (R178); T1 is taken when the request leaves. -/
structure TimeExch where
  seq : Nat
  t1 : Option Nat
deriving DecidableEq, Repr

/-- The fabric time unit. -/
structure FabTime where
  /-- FT_NOW, 64 bits; 07 R176; reset 0 -/
  now : Nat
  /-- the count runs, 1 bit (it stands with the main domain off); 07 R176, 19 R465; reset false -/
  running : Bool
  /-- FT_STATUS STATE, 3 bits; 07 R179; reset ROOT_UNSET (FT_ROOT = MY_COORD = 0: the module is the root) -/
  st : FtSt
  /-- FT_STATUS PARENT, link 0 to 5 or none; 07 R179; reset none -/
  parent : Option Nat
  /-- FT_STATUS DEPTH, 6 bits; 07 R179; reset 0 -/
  depth : Nat
  /-- FT_STATUS OFFSET in ps, 32 bits signed; 07 R179; reset 0 -/
  offset : Int
  /-- rate correction in ppm, −1,000 to 1,000; 07 R176; reset DESIGN CHOICE 0 (log 30) -/
  corr : Int
  /-- millionths of a ns gathered from the rate correction; 07 R176; reset 0 (log 1) -/
  frac : Int
  /-- consecutive exchanges within ±10 ns, 0 to 64; 07 R179; reset 0 -/
  inLock : Nat
  /-- in ACQUIRING, the parent's time has been reached; 07 R179; reset false -/
  moved : Bool
  /-- fabric time since which there is no parent, if there is none; 07 R179; reset none -/
  lostAt : Option Nat
  /-- FT_REF present, 1 bit; 07 R176; reset DESIGN CHOICE true (log 3) -/
  refOk : Bool
  /-- the neighbours' last TIME reports, one per link; 07 R178; reset none -/
  nbr : Tbl NbrTime
  /-- exchanges awaiting a reply, one per link; 07 R178; reset none -/
  exch : Tbl TimeExch
  /-- EXCH_SEQ of the next exchange, 16 bits; 07 R178; reset DESIGN CHOICE 0 (log 30) -/
  nextSeq : Nat
deriving DecidableEq, Repr

/-- Link states (R162), with the codes of LINK_STATUS (R441). -/
inductive LinkSt
  | down | training | active | degraded | miscabled
deriving DecidableEq, Repr

/-- The fields of a LANE_CTRL message (R164). -/
structure LaneMsg where
  msg : Nat
  seq : Nat
  device : Nat
  link : Nat
  cfgWidth : Nat
  width : Nat
  healthy : Nat
  lane : Nat
  spare : Nat
  atRound : Nat
deriving DecidableEq, Repr

/-- A DATA flit in a receive buffer or a retry buffer (R159, R160). -/
structure BufFlit where
  seq : Nat
  cls : Nat
  vc : Nat
  dl : Bool
  sop : Bool
  eop : Bool
  data : List Byte
deriving DecidableEq, Repr

/-- A packet in an output queue: how many of its flits have been sent, whether it is a combine entry, and the source and
context of every packet in it (R354). -/
structure OutPkt where
  pkt : Packet
  sent : Nat
  comb : Bool
  who : List (Nat × Nat)
deriving DecidableEq, Repr

/-- One optical link (R151 to R169). -/
structure Link where
  /-- LINK_STATUS state, 3 bits; 07 R162; reset DOWN -/
  st : LinkSt
  /-- LINK_STATUS width in force, 5 bits; 07 R162, 18 R441; reset 0 -/
  width : Nat
  /-- LINK_STATUS neighbour device ID, 16 bits; 07 R162, 18 R441; reset 0 -/
  nbr : Nat
  /-- the link transmits light, 1 bit; 19 R466; reset false -/
  txLight : Bool
  /-- light arrives, 1 bit; 07 R163; reset false -/
  rxLight : Bool
  /-- failed physical lanes of the receive direction, 20 bits; 07 R162; reset 0 -/
  failRx : Nat
  /-- failed physical lanes of the transmit direction, 20 bits; 07 R162; reset 0 -/
  failTx : Nat
  /-- receive lanes carried by a spare: failed lane and spare; 07 R168; reset none -/
  spareRx : List (Nat × Nat)
  /-- transmit lanes carried by a spare: failed lane and spare; 07 R168; reset none -/
  spareTx : List (Nat × Nat)
  /-- receive lanes that failed within the last µs, with their times; 07 R167; reset none -/
  recent : List (Nat × Nat)
  /-- wavelengths lost and treated as a laser failure at the peer, with the time; 07 R167; reset none -/
  lostWaves : List (Nat × Nat)
  /-- laser sources that have failed, sources 0 to 4; 07 R169; reset none -/
  lasersFailed : List Nat
  /-- source whose place the spare source is taking, until locked; 07 R169; reset none -/
  laserTuning : Option Nat
  /-- fabric time at which the failure of a lane, or of source k as 20 + k, was detected; 16 R392; reset 0 -/
  failAt : Tbl Nat
  /-- source whose place the spare source has taken; 07 R169; reset none -/
  laserSpare : Option Nat
  /-- healthy receive lanes found in training, 20 bits; 07 R163; reset 0 -/
  healthy : Nat
  /-- uncovered code 0x12 or 0x13 of the retrain in progress, 0 for none; 16 R388; reset 0 -/
  fault : Nat
  /-- IDENT received in this training; 07 R164; reset none -/
  peer : Option LaneMsg
  /-- width agreed and, once the message that names it has left, the AT_ROUND of the transmit direction's change;
  07 R164; reset none -/
  txChange : Option (Nat × Option Nat)
  /-- width agreed and the AT_ROUND of the receive direction's change; 07 R164; reset none -/
  rxChange : Option (Nat × Nat)
  /-- the transmit direction has changed to the agreed width, 1 bit; 07 R164; reset false -/
  txDone : Bool
  /-- the receive direction has changed to the agreed width, 1 bit; 07 R164; reset false -/
  rxDone : Bool
  /-- SPARE_ACKs formed and not yet applied: lane, spare and, once sent, AT_ROUND; 07 R168; reset none -/
  spareAckTx : List (Nat × Nat × Option Nat)
  /-- SPARE_ACKs received and not yet applied: lane, spare, AT_ROUND; 07 R168; reset none -/
  spareAckRx : List (Nat × Nat × Nat)
  /-- physical lane of each logical lane of the receive direction; 07 R152; reset none -/
  laneRx : List Nat
  /-- physical lane of each logical lane of the transmit direction; 07 R152; reset none -/
  laneTx : List Nat
  /-- 1 more than the codeword round, counted from clock 0, of the last flit sent; 07 R154, R178; reset 0 -/
  lastRound : Nat
  /-- MSG_SEQ of the next LANE_CTRL message, 8 bits; 07 R164; reset DESIGN CHOICE 0 (log 30) -/
  msgSeq : Nat
  /-- LANE_CTRL messages sent that expect an answer; 07 R164; reset none -/
  waiting : List LaneMsg
  /-- flits that travel ahead of DATA flits: LANE_CTRL, TIME, NAK, RESEND; 07 R160, R164; reset none -/
  ctl : List (List Byte)
  /-- codeword round of the transmit direction at clock 0, 10 bits; 07 R154; reset DESIGN CHOICE 0 (log 30) -/
  round : Nat
  /-- SEQ of the next DATA flit, 16 bits; 07 R156; reset DESIGN CHOICE 0 (log 30) -/
  txSeq : Nat
  /-- retry buffer, at most 4,096 flits; 07 R160; reset empty -/
  retry : List BufFlit
  /-- flits of the retry buffer waiting to be sent again; 07 R161; reset none -/
  again : List Nat
  /-- SEQ of the next DATA flit expected, 16 bits; 07 R161; reset DESIGN CHOICE 0 (log 30) -/
  rxSeq : Nat
  /-- a NAK is repeated until the expected flit arrives, 1 bit; 07 R161; reset false -/
  nakOpen : Bool
  /-- ACK release pointer, 16 bits; 07 R160; reset DESIGN CHOICE 0 (log 30) -/
  ackPtr : Nat
  /-- receive buffer, at most 4,096 flits; 07 R159; reset empty -/
  rx : List BufFlit
  /-- flit of the receive buffer that waits for its RESEND; 07 R161; reset none -/
  parity : Option Nat
  /-- transmit credits used, per credit class 0 to 24; 07 R159; reset none used -/
  used : Tbl Nat
  /-- credits consumed at the receiver and not yet returned, per class; 07 R159; reset none -/
  owed : Tbl Nat
  /-- output queues, packets in order; 07 R159; reset empty -/
  out : List OutPkt
  /-- virtual channel last served by the output arbiter; 07 R159; reset DESIGN CHOICE 11 (log 30) -/
  lastVc : Nat
  /-- flits sent on the wire, oldest first (an output of the model, log 12); reset none -/
  wire : List (List Byte)
deriving DecidableEq, Repr

/-- The hub router (R16, R18, R172). -/
structure Router where
  /-- packets waiting at the input ports 6 to 11, behind the hub-unit port one queue for each of its units (keys 16 to 21),
  and at a link port the whole packets received before its link went DOWN, in order; 01 R18; reset empty -/
  inj : Tbl (List Packet)
  /-- flits of the first packet of each hub unit that have passed the hub-unit port; 01 R18; reset 0 -/
  hubSent : Tbl Nat
  /-- hub unit last served at the hub-unit port; 01 R18; reset DESIGN CHOICE 5 (log 30) -/
  hubLast : Nat
  /-- output queues of ports 6 to 12; 07 R159, R172, 14 R354; reset empty -/
  outq : Tbl (List OutPkt)
  /-- virtual channel last served at each of those outputs; 07 R159; reset DESIGN CHOICE 11 (log 30) -/
  outLast : Tbl Nat
  /-- packets delivered to the local units and not yet taken by them; 07 R172; reset empty -/
  delivered : List Packet
  /-- requests of VC1 and VC2 that have arrived and are not yet applied, in order of arrival; 14 R343; reset none -/
  arrived : List Packet
deriving DecidableEq, Repr

/-- The four die sync units. -/
structure Sync where
  /-- 16,384 physical sync counters of 16 bits; 08 R181; reset 0 -/
  ctr : Tbl Nat
  /-- shadow copy of recorded counters, 32 KiB; 08 R196; reset 0 -/
  shadow : Tbl Nat
  /-- counters recorded, as (context, physical counter); 08 R196; reset none -/
  recorded : List (Nat × Nat)
  /-- changes of counters and barrier initialisations so far (the model's own); 08 R191; reset 0 -/
  changes : Nat
  /-- number of the last such change of each counter (the model's own); 08 R191; reset none -/
  changed : Tbl Nat
deriving DecidableEq, Repr

/-- GDDR7 states (R442). -/
inductive GddrSt
  | training | online | offline
deriving DecidableEq, Repr

/-- The stacked DRAM and the GDDR7. -/
structure Mem where
  /-- device memory bytes, 192 GiB and 48 or 64 GiB; 12 R286; reset 0 (R289) -/
  bytes : Tbl Byte
  /-- poison mark of each 64-byte granule; 12 R301; reset none -/
  poison : Tbl Bool
  /-- remap table of retired granules, oldest first, persistent; 12 R304, R305; reset none (from flash) -/
  retired : List Retired
  /-- granules of an accepted commit still to retire, in order: address and CAUSE; 12 R307; reset none -/
  retiring : List (Nat × Nat)
  /-- GDDR_STATUS state, 2 bits; 12 R299, 18 R442; reset TRAINING -/
  gddr : GddrSt
  /-- GDDR_STATUS rate, 0 to 2 for 32, 30 and 28 Gbit/s; 12 R296; reset 0 -/
  gddrRate : Nat
  /-- GDDR7 refresh interval halved above 85 °C, 1 bit; 12 R296; reset false -/
  gddrHot : Bool
  /-- throttle level of each stack, 0 to 2; 12 R309; reset 0 -/
  level : Tbl Nat
  /-- consecutive samples of each stack below its release temperature; 12 R309; reset 0 -/
  below : Tbl Nat
  /-- uncorrectable errors that the next access of a tile at its acceptance, in the TXE or by its stores finds (the model's own,
  log 9); reset none -/
  found : List SramErr
deriving DecidableEq, Repr

/-- One multi-size buffer of the urn (R312 to R318). -/
structure UrnBuf where
  held : Bool
  gen : Nat
  ctx : Nat
  charge : Nat
  persist : Bool
  reserve : Bool
deriving DecidableEq, Repr

/-- A buffer that is free and has never been allocated. -/
def UrnBuf.free : UrnBuf := ⟨false, 0, 0, 0, false, false⟩

/-- Free list of one class (R315): buffers freed since the last rebuild, head first, then the indices from `fresh`
upward. The links that this order stands for are `State.urnLink`. -/
structure UrnClass where
  freed : List Nat
  fresh : Nat
deriving DecidableEq, Repr

/-- A CREDIT_REQ queued at the receiver (R324). -/
structure UrnReq where
  src : Nat
  reqId : Nat
  bytes : Nat
  tag : Nat
deriving DecidableEq, Repr

/-- A grant outstanding at the receiver (R324): the buffer and the payload bytes still to come. -/
structure UrnGrantRec where
  ctx : Nat
  src : Nat
  reqId : Nat
  handle : Nat
  bytes : Nat
  left : Nat
  tag : Nat
deriving DecidableEq, Repr

/-- A SEND tile's request at the sender (R324): the entry's post sequence number, and the handle once granted. -/
structure SendRec where
  ctx : Nat
  seq : Nat
  reqId : Nat
  dest : Nat
  handle : Option Nat
deriving DecidableEq, Repr

/-- The urn (buffer pool manager). -/
structure Urn where
  /-- allocation bit, GEN, holder and charge of each multi-size buffer; 13 R312, R315, R318; reset all free, GEN DESIGN CHOICE 0 (log 30) -/
  bufs : Tbl UrnBuf
  /-- free lists of classes 0 to 7; 13 R315; reset ascending index order -/
  lists : Tbl UrnClass
  /-- NEXT words of free buffers that a store has changed, each 1 more than its 64 bits; 13 R315; reset none -/
  links : Tbl Nat
  /-- classes whose free list is being rebuilt; 13 R317; reset none -/
  repairing : List Nat
  /-- ALLOC commands of pages that wait for a rebuild, as (context, command), in order; 13 R317; reset none -/
  waiting : List (Nat × Nat)
  /-- exchange SRAM bytes of the multi-size buffers, by class, index and offset; 13 R310; reset DESIGN CHOICE 0 (log 4), and zero-filled by R316 -/
  bytes : Tbl Byte
  /-- reduction-pool buffers in use from reserves, by context and group; 13 R320; reset 0 -/
  redRes : Tbl Nat
  /-- reduction-pool buffers in use from the shared part, by context; 13 R320; reset 0 -/
  redShared : Tbl Nat
  /-- CREDIT_REQs queued, by context; 13 R324; reset none -/
  reqs : Tbl (List UrnReq)
  /-- grants outstanding; 13 R324; reset none -/
  grants : List UrnGrantRec
  /-- requests of local SEND tiles; 13 R324; reset none -/
  sends : List SendRec
  /-- REQ_ID of the next request, 16 bits; 13 R324; reset DESIGN CHOICE 0 (log 30) -/
  nextReq : Nat
  /-- inbox ring tail of each context; 13 R325; reset 0 -/
  inboxTail : Tbl Nat
  /-- inbox slots taken by outstanding grants of each context; 13 R324; reset 0 -/
  inboxTaken : Tbl Nat
deriving DecidableEq, Repr

/-- A fabric command in flight (R337). -/
structure FabCmd where
  tag : Nat
  ctx : Nat
  /-- address of its ring slot -/
  slot : Nat
  /-- its 64 bytes -/
  cmd : List Byte
  dest : Nat
  at_ : Nat
  /-- a request that waits to be sent, with its packet (R342, R343, R350) -/
  held : Option Packet
  /-- virtual channel of the request -/
  vc : Nat
  /-- a cached read (R345) -/
  cached : Bool
deriving DecidableEq, Repr

/-- A READ or WRITE of a tile at a peer (R108, R335), kept until its tile ends. -/
structure TileReq where
  tag : Nat
  core : Nat
  ctx : Nat
  seq : Nat
  /-- descriptor word concerned (R123) -/
  op : Nat
  dest : Nat
  addr : Nat
  len : Nat
  write : Bool
  cached : Bool
  at_ : Nat
  /-- bytes of the READ, or nothing for the WRITE, once it has been answered -/
  got : Option (List Byte)
  /-- cause met (R123), 0 for none -/
  cause : Nat
deriving DecidableEq, Repr

/-- A match decision of the lookaside cache (R333): context, device, offset, length, right and what was decided. -/
structure MatchDecision where
  ctx : Nat
  dev : Nat
  off : Nat
  len : Nat
  right : Nat
  ok : Bool
deriving DecidableEq, Repr

/-- An ATOMIC outstanding at its source (R350, R352). -/
structure AtomOut where
  dest : Nat
  seq : Nat
  tag : Nat
  pkt : Packet
  sentAt : Nat
  timeouts : Nat
  /-- BUSY retry interval in ns, 0 before a first BUSY response -/
  busy : Nat
  /-- a BUSY response awaits its retry -/
  waits : Bool
deriving DecidableEq, Repr

/-- An entry of the target's response cache (R351). -/
structure RespEntry where
  src : Nat
  seq : Nat
  /-- context of the atomic -/
  ctx : Nat
  status : Nat
  result : Nat
  at_ : Nat
deriving DecidableEq, Repr

/-- A destination of the source's hot list (R355). -/
structure HotDest where
  dest : Nat
  rate : Nat
  /-- a HOT was received in the µs in progress -/
  marked : Bool
  /-- VC2 requests sent to it in the µs in progress -/
  sent : Nat
deriving DecidableEq, Repr

/-- An INVALIDATE tree at this module (R347): at the root, the holder's request; elsewhere, the parent's link. -/
structure InvTree where
  id : Nat
  root : Nat
  ctx : Nat
  addr : Nat
  len : Nat
  /-- reader groups set in the directory entry (R346) -/
  groups : Nat
  /-- children whose INV_ACK is awaited -/
  children : Nat
  count : Nat
  /-- set-group modules expected (at the root) -/
  expect : Nat
  /-- holder device and TAG (at the root) -/
  holder : Nat
  tag : Nat
deriving DecidableEq, Repr

/-- A reader-cached line in a die's L2 (R292, R345): target device, line address, die, way 0 to 3 and data. -/
structure CachedLine where
  dest : Nat
  addr : Nat
  die : Nat
  way : Nat
  data : List Byte
deriving DecidableEq, Repr

/-- The memory-semantic fabric. -/
structure Fab where
  /-- next ring slot of each context's command ring; 14 R337; reset 0 -/
  slot : Tbl Nat
  /-- commands in flight, at most 1,024 per context; 14 R337; reset none -/
  cmds : List FabCmd
  /-- context that the fabric engine served last; 14 R337; reset DESIGN CHOICE 15 (log 30) -/
  turn : Nat
  /-- READs and WRITEs of tiles at peers; 14 R335; reset none -/
  tileReqs : List TileReq
  /-- lookaside cache, at most 512 decisions, newest first; 14 R333; reset empty -/
  look : List MatchDecision
  /-- TAG of the next request, 32 bits; 14 R340; reset DESIGN CHOICE 0 (log 30) -/
  nextTag : Nat
  /-- next SEQ to each target, 32 bits; 14 R350, R353; reset 0 -/
  nextSeq : Tbl Nat
  /-- atomics outstanding, at most 1,024 per target and 4,096 per module; 14 R350; reset none -/
  atoms : List AtomOut
  /-- ACK_SEQ last sent to each target, and when; 14 R350; reset 0 -/
  lastAck : Tbl (Nat × Nat)
  /-- response cache, at most 16,384 entries; 14 R351; reset empty -/
  resp : List RespEntry
  /-- watermark WM of each source plus 1, 0 while unset; 14 R351, R353; reset unset -/
  wm : Tbl Nat
  /-- reader directory, 4,096 entries of 64 bits; 14 R346; reset 0 -/
  dir : Tbl Nat
  /-- INVALIDATE trees in progress; 14 R347; reset none -/
  invs : List InvTree
  /-- INV_ID of the next tree, 16 bits; 14 R347; reset DESIGN CHOICE 0 (log 30) -/
  nextInv : Nat
  /-- reader-cached lines in the dies' L2; 14 R345; reset none -/
  lines : List CachedLine
  /-- lines of cached fills outstanding that an INV has dropped, as (TAG, line address); 14 R347; reset none -/
  noFill : List (Nat × Nat)
  /-- hot list, at most 64 destinations; 14 R355; reset empty -/
  hot : List HotDest
  /-- VC2 requests that wait for the rate of their hot destination, in order, with the router's input queue; 14 R355; reset none -/
  capped : List (Nat × Packet)
  /-- time at which the last update queued at each line is applied; 14 R354; reset none queued -/
  lineBusy : Tbl Nat
  /-- sources marked HOT per line, with the time; 14 R355; reset none -/
  hotMarks : List (Nat × Nat × Nat)
deriving DecidableEq, Repr

end Sys2Proof.Machine
end

