-- ==== Sys2Proof/Machine/UnitsB.lean ====
section
/-!
DEFINITION. State of the cores and the work lists, of a context's step and rings, of the caddy and of the host
interface. Each field's comment gives its name, width, the file and rule that names it, and its value at reset.
-/

namespace Sys2Proof.Machine

/-- States of an accumulator slot (R89). -/
inductive SlotSt
  | free | init | accumulating | held | draining
deriving DecidableEq, Repr

/-- One accumulator slot (R88, R89). -/
structure Slot where
  st : SlotSt
  ctx : Nat
  chain : Nat
  tile : Nat
  intView : Bool
  /-- chain-length count, 32 bits (R63) -/
  terms : Nat
  /-- 16,384 entries by row × 128 + column, +0 where none is listed (R37) -/
  entries : Tbl A48
deriving DecidableEq, Repr

/-- Stages of an accepted tile (R96), and the wait for the acknowledgements of its stores at peers (R108); loading passes
within a command. -/
inductive Stage
  | waiting | computing | stopped | epilogue | storing | acking | posting
deriving DecidableEq, Repr

/-- A tile that a core has accepted, or that it holds suspended for a context switched out (R96, R120). -/
structure Tile where
  desc : WorkDesc
  ctx : Nat
  seq : Nat
  die : Nat
  stage : Stage
  slot : Option Nat
  /-- engine it was accepted for, and engine it is on: true for the sparse engine (R79, R76) -/
  own : Bool
  sparse : Bool
  /-- first engine step, vector operation or transfer issued (R120) -/
  begun : Bool
  /-- K terms from K0 that every entry has rounded (R67, R97) -/
  kDone : Nat
  mEff : Nat
  nEff : Nat
  kEff : Nat
  /-- causes met so far, as (CAUSE, OPERAND) (R123) -/
  causes : List (Nat × Nat)
  flags : Flags
  longChain : Bool
  reissued : Bool
  substituted : Bool
  acceptTime : Nat
  /-- status other than OK and DEFECTIVE that is already decided (R122), 0 if none -/
  status : Nat
  /-- next row of a POST tile (R111) -/
  row : Nat
  /-- stored-tile inputs whose header was invalid at acceptance (R140), by operand index -/
  badHdr : List Nat
  /-- valid stored-tile headers as read at acceptance (R140), by operand index -/
  hdrs : Tbl Nat
  /-- bytes to store at the end of the tile, in order (R108): memory class, context, address, bytes, operand -/
  stores : List (Nat × Nat × Nat × List Byte × Nat)
  /-- urn handles freed at completion, with their descriptor words (R314) -/
  frees : List (Nat × Nat)
  /-- COMMITTED value of SOURCE recorded at the acceptance of an evaluation tile (R475) -/
  evalC : Option Nat
  /-- hyperparameter block of an UPDATE tile, read at acceptance (R241) -/
  latched : List Byte
  /-- ROUND_SEED that governs the tile (R49) -/
  seed : Nat
deriving DecidableEq, Repr

/-- One logical core (R71, R96). -/
structure Core where
  /-- context the core runs, 4 bits; 05 R119; reset DESIGN CHOICE 0 (log 6) -/
  ctx : Nat
  /-- fabric time at which the slice began; 05 R119; reset 0 -/
  sliceAt : Nat
  /-- accepted tiles in acceptance order, at most 4; 04 R96; reset none -/
  tiles : List Tile
  /-- tiles saved with their slots for contexts switched out; 05 R120; reset none -/
  suspended : List Tile
  /-- 16 accumulator slots; 04 R88; reset FREE, entries +0 -/
  slots : Tbl Slot
  /-- chains held in save areas of this core, as (context, slot, chain); 05 R101; reset none -/
  savedChains : List (Nat × Nat × Nat)
  /-- contexts whose last save on this logical core held a slot; 05 R120; reset none -/
  savedHeld : List Nat
  /-- local store, 12 MiB; 04 R82; reset 0 -/
  store : Tbl Byte
  /-- asleep, 1 bit; 08 R191; reset false -/
  asleep : Bool
  /-- wake wire raised by a quantum end, a slice end or a takeover, 1 bit; 08 R191; reset false -/
  wake : Bool
  /-- changes of counters and entries of the die's list when it fell asleep (the model's own); 08 R191; reset 0 -/
  sleptAt : Nat × Nat
  /-- clock time at which the core last held a tile; 08 R191; reset 0 -/
  idleFrom : Nat
  /-- in a forced-idle quantum, 1 bit; 05 R118; reset false -/
  idleQ : Bool
  /-- context a switch in progress brings in; 05 R120; reset none -/
  switchTo : Option Nat
  /-- fenced off during a takeover, 1 bit; 05 R125; reset false -/
  fenced : Bool
  /-- block-index match table, at most 1,024 entries: K-block index, block row and staging position; 06 R147; reset empty -/
  matchTab : List (Nat × Nat × Nat)
deriving DecidableEq, Repr

/-- An entry of a die list or of the overflow list (R110). -/
structure Entry where
  desc : WorkDesc
  ctx : Nat
  seq : Nat
  die : Nat
  /-- clock time at which it was first found ready (R112) -/
  readyAt : Option Nat
  /-- its TAKE counts are consumed (R120, R125) -/
  taken : Bool
  reissued : Bool
deriving DecidableEq, Repr

/-- An EXCHANGE tile that the TXE has claimed (R206). -/
structure TxeTile where
  desc : WorkDesc
  ctx : Nat
  seq : Nat
  acceptTime : Nat
  reissued : Bool
  /-- causes met so far, as (CAUSE, OPERAND) (R123) -/
  causes : List (Nat × Nat)
  flags : Flags
  /-- urn handles freed at completion, with their descriptor words (R314) -/
  frees : List (Nat × Nat)
  /-- COMMITTED value of SOURCE recorded at the acceptance of an evaluation tile (R475) -/
  evalC : Option Nat
  /-- effective M and N (R105) -/
  mEff : Nat
  nEff : Nat
  /-- the tile only waits for the acknowledgements of its WRITEs (R108) -/
  acking : Bool
deriving DecidableEq, Repr

/-- The four list controllers and the core map. -/
structure Sched where
  /-- die lists, 4,096 entries each; 05 R110; reset empty -/
  lists : Tbl (List Entry)
  /-- device overflow list, 65,536 entries; 05 R110; reset empty -/
  overflow : List Entry
  /-- entries put into each die list so far (the model's own); 08 R191; reset 0 -/
  posts : Tbl Nat
  /-- post sequence counter, 48 bits; 05 R110; reset DESIGN CHOICE 0 (log 30) -/
  nextSeq : Nat
  /-- physical position of each logical core, persistent; 01 R13; reset the manufacturing map -/
  pos : Tbl Nat
  /-- logical cores that are OFFLINE, persistent; 01 R13, R15; reset none -/
  offline : List Nat
  /-- positions that have failed or been consumed, as die × 68 + position, persistent; 01 R27; reset none -/
  dead : List Nat
  /-- takeovers in progress or waiting, oldest first, as logical cores; 05 R125, R126; reset none -/
  takeovers : List Nat
deriving DecidableEq, Repr

/-- STEP_STATUS STATE (R252). -/
inductive StepSt
  | idle | running | voted | replaying | halted
deriving DecidableEq, Repr

/-- A layer's gradient statistics in the current attempt (R235). -/
structure GradStat where
  emax : Option Int
  nz : Nat
  uf : Nat
deriving DecidableEq, Repr

/-- A layer's gradient level and last decision (R237, R238). -/
structure GfState where
  level : Nat
  hold : Nat
  emax : Option Int
  uf : Nat
  nz : Nat
  step : Nat
  /-- levels set by GF_CFG commits, newest first, each with the contexts that have since committed a step (R236) -/
  pending : List (Nat × Nat)
deriving DecidableEq, Repr

/-- A vote received (R255, R256): its source, COUNT, STEP, ATTEMPT, whether it is a FAIL vote with its REASON, and the
fabric time of its arrival. -/
structure VoteRec where
  src : Nat
  count : Nat
  step : Nat
  attempt : Nat
  fail : Bool
  reason : Nat
  at_ : Nat
deriving DecidableEq, Repr

/-- The step machinery of one context (R251 to R262). -/
structure StepCtx where
  /-- STEP_STATUS STATE, 3 bits; 10 R252; reset IDLE -/
  st : StepSt
  /-- STEP_STATUS NONDET; 10 R252; reset false -/
  nondet : Bool
  /-- STEP_STATUS ATTEMPT, 8 bits; 10 R252; reset 0 -/
  attempt : Nat
  /-- STEP_STATUS LAST_REASON, 8 bits; 10 R252; reset 0 -/
  reason : Nat
  /-- STEP_STATUS STEP, 32 bits; 10 R252; reset 0 -/
  step : Nat
  /-- STEP_STATUS COMMITTED, 32 bits; 10 R252; reset 0xFFFF_FFFF -/
  committed : Nat
  /-- STEP_STATUS REPLAYS, 32 bits; 10 R252; reset 0 -/
  replays : Nat
  /-- failure latch: REASON of the FAIL vote, none while clear; 10 R254; reset clear -/
  latch : Option Nat
  /-- a failure latched for the step after this one (R262); reset none -/
  latchNext : Option Nat
  /-- DONE_COUNT has been taken; 10 R254; reset false -/
  doneTaken : Bool
  /-- UPDATE tiles of the attempt completed OK; 10 R254; reset 0 -/
  updates : Nat
  /-- ROUND_SEED in force when the step began, 64 bits; 02 R49; reset DESIGN CHOICE 0 (log 47) -/
  seed : Nat
  /-- a FAIL vote of this attempt has been sent; 10 R254; reset false -/
  failSent : Bool
  /-- the module's own OK vote waits for the votes beyond it on its line; 10 R255; reset false -/
  voteHeld : Bool
  /-- votes received and not yet used; 10 R255, R257; reset none -/
  votes : List VoteRec
  /-- step at which the run began, 32 bits: steps from it on are decided up to STEP; 10 R253, R257; reset 0 -/
  begun : Nat
  /-- fabric time of the module's OK vote; 10 R260; reset 0 -/
  votedAt : Nat
  /-- at the home: fabric time at which the first vote of the attempt reached it; 10 R257; reset none -/
  firstVote : Option Nat
  /-- at the home: the attempt is decided; 10 R257; reset false -/
  decided : Bool
  /-- gradient statistics of the attempt, by layer; 10 R235; reset none -/
  stats : Tbl GradStat
  /-- norm slots written by the attempt's UPDATE tiles; 10 R247, R259; reset none -/
  norms : List Nat
  /-- norm slots whose partial norm a replay or a halt discarded; 10 R259; reset none -/
  normsLost : List Nat
  /-- the norm summer still runs for the committed step; 10 R247; reset false -/
  summing : Bool
  /-- the step whose norms are being summed, 32 bits; 10 R247, 20 R471; reset 0 -/
  sumStep : Nat
  /-- level and statistics of each layer emitted in that step; 20 R471; reset none -/
  summed : Tbl (Nat × GradStat)
  /-- norm ring tail index; 20 R472; reset 0 -/
  normTail : Nat
  /-- a norm record was lost since the last one written; 20 R472; reset false -/
  normGap : Bool
deriving DecidableEq, Repr

/-- The page and rings of one context (R458, R459, R121). -/
structure Page where
  /-- SQ_TAIL, 32 bits; 19 R458; reset 0 -/
  sqTail : Nat
  /-- SQ_HEAD, 32 bits; 19 R458; reset 0 -/
  sqHead : Nat
  /-- CPL_HEAD, 32 bits; 19 R458; reset 0 -/
  cplHead : Nat
  /-- CPL_TAIL, 32 bits; 19 R458; reset 0 -/
  cplTail : Nat
  /-- INT_STATUS, 32 bits; 19 R460; reset 0 -/
  intStatus : Nat
  /-- INT_MASK, 32 bits; 19 R458; reset 0 -/
  intMask : Nat
  /-- 0x018 LIST_FULL, SQ_ERROR and DOORBELL_ERR; 19 R458; reset 0 -/
  flags : Nat
  /-- SYNC_REPLY, 32 bits; 19 R458; reset 0 -/
  syncReply : Nat
  /-- URN_REPLY, 64 bits; 19 R458; reset 0 -/
  urnReply : Nat
  /-- the queue has stopped at an entry whose read failed; 19 R459; reset false -/
  sqStopped : Bool
  /-- an entry refused with LIST_FULL, offered again every 1 µs; 19 R459; reset none -/
  sqHeld : Option WorkDesc
  /-- writes that wait behind an ALLOC of the page, as offset and value; 13 R317, 19 R458; reset none -/
  later : List (Nat × Nat)
deriving DecidableEq, Repr

/-- A mailbox (R461). -/
structure Mailbox where
  /-- request buffer, 8 KiB; 19 R455; reset 0 -/
  request : Tbl Byte
  /-- reply buffer, 8 KiB; 19 R455; reset 0 -/
  reply : Tbl Byte
  /-- MBX_BUSY; 19 R456; reset false -/
  busy : Bool
  /-- MBX_READY; 19 R456; reset false -/
  ready : Bool
  /-- MBX_OVERRUN; 19 R456; reset false -/
  overrun : Bool
  /-- REPLY_LEN, 16 bits; 19 R456; reset 0 -/
  len : Nat
deriving DecidableEq, Repr

/-- The host interface. -/
structure HostIf where
  /-- pages of contexts 0 to 15; 19 R458; reset 0 -/
  pages : Tbl Page
  /-- mailboxes 0 and 1; 19 R461; reset empty -/
  mbx : Tbl Mailbox
  /-- BAR2_BASE, 64 bits; 19 R456; reset 0 -/
  bar2Base : Nat
  /-- log2 of the BAR2 size, 30 to 38; 19 R454, R457; reset 38 (BAR2_LOG2) -/
  bar2Log2 : Nat
  /-- VF_WIN_EN and VF_WIN_BASE of VF n + 1 as the register word; 19 R456; reset 0 -/
  vfWin : Tbl Nat
  /-- VFs enabled, bit n for VF n + 1; 19 R453, R460; reset 0 -/
  vfOn : Nat
  /-- 0x180 HOST_UNMAPPED, WINDOW_WRITE and NOT_READY; 19 R456; reset 0 -/
  err : Nat
  /-- FIRST_ADDR, 64 bits; 19 R456; reset 0 -/
  firstAddr : Nat
  /-- PCIE_STATUS generation, 3 bits; 19 R453, 18 R451; reset 0 -/
  gen : Nat
  /-- PCIE_STATUS width, 5 bits; 18 R451; reset 0 -/
  width : Nat
  /-- PCIE_STATUS FLIT mode; 18 R451; reset false -/
  flit : Bool
  /-- the PCIe link is up (training done); 19 R453; reset false -/
  up : Bool
  /-- MSI-X table entries of BAR4, 128 bits each, by function × 4,096 + vector; 19 R454; reset DESIGN CHOICE 0 (log 35) -/
  msix : Tbl Nat
  /-- pending-bit arrays of BAR4, by function × 4,096 + vector; 19 R454; reset DESIGN CHOICE 0 (log 35) -/
  pba : Tbl Nat
  /-- AER status of each function; 19 R453; reset DESIGN CHOICE 0 (log 35) -/
  aer : Tbl Nat
  /-- data of the last host memory read, and whether it was poisoned (an output of the model, log 12); reset none -/
  readOut : List Byte × Bool
deriving DecidableEq, Repr

/-- Operations of a management request (R411); `bad` is a reserved operation or a payload that its operation does not
have. -/
inductive MOp
  | hello
  | claim (priority : Nat) (preempt : Bool) (tag : List Byte)
  | renew
  | release
  | handover (target : Nat)
  | close
  | read (id sub flags : Nat)
  | write (id sub : Nat) (val : List Byte)
  | describe (id : Nat)
  | post (ctx target : Nat) (descs : List WorkDesc)
  | sync (ctx w : Nat)
  | urn (ctx w : Nat)
  | bad (op : Nat) (payload : List Byte)
deriving DecidableEq, Repr

/-- A message from the caddy: reply or event (R409, R414). -/
structure MgmtMsg where
  transport : Transport
  cls : Nat
  event : Bool
  op : Nat
  session : Nat
  xid : Nat
  epoch : Nat
  status : Nat
  payload : List Byte
deriving DecidableEq, Repr

/-- A session of a master class (R406, R412). -/
structure Session where
  num : Nat
  transport : Transport
  challenge : Nat
  /-- replies to the 16 most recent transactions, newest first -/
  cache : List (Nat × MgmtMsg)
  lastMsg : Nat
deriving DecidableEq, Repr

/-- The owner (R417, R419). -/
structure Owner where
  cls : Nat
  session : Nat
  priority : Nat
  leaseEnd : Nat
deriving DecidableEq, Repr

/-- A segmented message being received (R410). -/
structure Partial where
  cls : Nat
  xid : Nat
  count : Nat
  firstAt : Nat
  header : List Byte
  segs : Tbl (List Byte)
deriving DecidableEq, Repr

/-- An APPLY whose reply waits: for the drain of R423 (area 2 or 9), for granules to retire (area 5), for persistent values to
be journalled (R416); or an urn command that waits for a rebuild (13 R317). -/
structure Deferred where
  req : Req
  area : Nat
  gen : Nat
  switchTime : Nat
  switchClk : Nat
  changed : Nat
  /-- context and command of an ALLOC that waits for the rebuild of its class's free list (13 R317) -/
  alloc : Option (Nat × Nat)
  /-- journal records to be written before the reply (12 R307, 17 R416, R424) -/
  needs : List JRec
  /-- the drain, or the retirement, is complete (12 R307, 17 R423) -/
  worked : Bool
deriving DecidableEq, Repr

/-- A firmware slot (R425): empty or erased, the image fitted at manufacture, or written bytes, over that image where `kept`. -/
inductive FwSlot
  | empty
  | factory
  | image (kept : Bool) (bytes : Tbl Byte)
deriving DecidableEq, Repr

/-- The caddy (R405 to R430). -/
structure Caddy where
  /-- caddy ready; 19 R465; reset false -/
  ready : Bool
  /-- boot verification done; 17 R426, 19 R465; reset false -/
  booted : Bool
  /-- sessions by class 0 to 3; 17 R406; reset none -/
  sessions : Tbl Session
  /-- sessions opened so far, which numbers the next; 17 R406; reset 0 (log 7) -/
  opened : Nat
  /-- OWNER, owner's session, PRIORITY and lease end; 17 R421; reset none -/
  owner : Option Owner
  /-- owner EPOCH, 32 bits; 17 R417; reset 0 -/
  epoch : Nat
  /-- HANDOVER_TO class and the end of its 500 ms; 17 R420; reset none -/
  handover : Option (Nat × Nat)
  /-- AUTH_FAIL replies of the last 10 s, as (class, clock time); 17 R418; reset none -/
  authFails : List (Nat × Nat)
  /-- classes locked after four AUTH_FAILs, with the end of the lock; 17 R418; reset none -/
  authLocks : List (Nat × Nat)
  /-- segmented messages being received; 17 R410; reset none -/
  partials : List Partial
  /-- APPLYs whose reply waits; 17 R423, 12 R307; reset none -/
  deferred : List Deferred
  /-- requests that wait while an APPLY has not replied, in order, with the clock time of each arrival; 17 R405, R412;
  reset none -/
  queue : List (Nat × Req × MOp)
  /-- requests forwarded over VC0 whose replies are awaited: device, XID and the request's transport; 17 R408; reset none -/
  forwards : List (Nat × Nat × Transport)
  /-- management cores: M0 works, M1 works, M1 is the active one; 16 R386; reset true, true, false -/
  m0 : Bool
  m1 : Bool
  m1Active : Bool
  /-- firmware slots A (0) and B (1), persistent; 17 R425; reset A factory, B empty (log 31) -/
  slotA : FwSlot
  slotB : FwSlot
  /-- slot marked active in the boot record (true for B), persistent; 17 R426; reset A -/
  activeB : Bool
  /-- FW_STATUS RUN_SLOT; 17 R429; reset A -/
  runB : Bool
  /-- FW_STATUS RECOVERY; 17 R427; reset false -/
  recovery : Bool
  /-- FW_STATUS FALLBACK; 17 R426; reset false -/
  fallback : Bool
  /-- FW_STATUS PENDING; 17 R428; reset false -/
  fwPending : Bool
  /-- fused minimum SEC_VERSION raised beyond manufacture, persistent; 17 R426; reset none raised (log 31) -/
  minSecRaised : Nat
  /-- audit records, newest first, 256 kept, persistent; 17 R424; reset none -/
  audit : List (List Byte)
  /-- audit records written in all; 17 R424; reset 0 -/
  auditCount : Nat
  /-- UDP port in use for messages (MGMT_PORT of the last applied commit); 17 R407; reset 41900 -/
  port : Nat
  /-- the tray bus runs CSMA/CD because no PLCA beacon is seen; 17 R407; reset false -/
  csma : Bool
  /-- PLCA node ID, SLOT_ID + 1; 17 R407; reset 0 until the tray bus is joined -/
  plcaId : Nat
deriving DecidableEq, Repr

/-- What the module has sent out: the model's outputs (log 12). -/
structure Outputs where
  /-- UDP payloads sent on the tray bus, oldest first; 17 R410; reset none -/
  tray : List (List Byte)
  /-- reads of submission rings sent to the host, as (function, address), oldest first; 19 R454; reset none -/
  reads : List (Nat × Nat)
  /-- management replies and events, oldest first; 17 R409, R414; reset none -/
  mgmt : List MgmtMsg
  /-- MSI-X messages as (function, vector), oldest first; 19 R460; reset none -/
  msi : List (Nat × Nat)
  /-- FAULT# asserted; 21 R486; reset false -/
  faultPin : Bool
  /-- ALERT# asserted; 21 R486; reset false -/
  alertPin : Bool
deriving DecidableEq, Repr

end Sys2Proof.Machine
end

