-- ==== Sys2Proof/Machine/UnitsD.lean ====
section
/-!
DEFINITION. State of the token exchange engine, the reduction units, the permute collective and the object dictionary.
Each field's comment gives its name, width, the file and rule that names it, and its value at reset.
-/

namespace Sys2Proof.Machine

/-- The entries of one COUNT, GRANT or ALLOT message so far (R217): kind 0, 1 or 2, its round, and whether its last
packet has arrived. -/
structure ExchMsg where
  kind : Nat
  src : Nat
  round : Nat
  word2 : Nat
  last : Bool
  entries : List Nat
deriving DecidableEq, Repr

/-- What a source read of one token at ADMIT (R205, R206): gate record, sequence ID, skipped. -/
structure TokGate where
  gate : Nat
  seq : Nat
  skip : Bool
deriving DecidableEq, Repr

/-- An open exchange (R209): from the acceptance of its ADMIT or OPEN_BWD until both its signals are applied. -/
structure Exch where
  ctx : Nat
  id : Nat
  bwd : Bool
  layer : Nat
  /-- its ADMIT or OPEN_BWD tile -/
  tile : TxeTile
  /-- that tile has completed -/
  tileDone : Bool
  /-- the tile still waits for operands at a peer (the model's own, log 21) -/
  unread : Bool
  /-- fabric time of the acceptance -/
  openedAt : Nat
  /-- effective token count -/
  tokens : Nat
  /-- source, forward: what it read of its tokens -/
  toks : List TokGate
  /-- source: round in progress, 0 or 1, and 2 once the tags are final -/
  round : Nat
  /-- messages received: COUNT at a home, GRANT at a source, ALLOT at a replica -/
  msgs : List ExchMsg
  /-- home: rounds answered, 2 when no further round comes -/
  granted : Nat
  /-- replica: rows allotted, by section, and whether the final ALLOT is in -/
  allot : Tbl Nat
  allotFinal : Bool
  /-- replica: bytes arrived of each row, by section × 65,536 + DEST_SLOT -/
  rowBytes : Tbl Nat
  /-- source: rows expected back, once known -/
  expect : Option Nat
  /-- source: bytes returned of each row, by SRC_SLOT × 4 + RANK -/
  retBytes : Tbl Nat
  arriveDone : Bool
  returnDone : Bool
deriving DecidableEq, Repr

/-- The token exchange engine. -/
structure Txe where
  /-- open exchanges, at most 256 per context; 09 R209; reset none -/
  opens : List Exch
  /-- accepted tiles without an open exchange that wait for data or acknowledgements of peers; 05 R108; reset none -/
  busy : List TxeTile
  /-- EXCH_ERR_LOG, 96 bits; 09 R229; reset 0 -/
  errLog : Nat
deriving DecidableEq, Repr

/-- A reduction key held by a unit (R276, R277): its local contribution and its incoming partial. -/
structure RedKey where
  ctx : Nat
  group : Nat
  tag : Nat
  list : Nat
  owner : Nat
  /-- clock time at which the first of its inputs began to arrive -/
  firstAt : Nat
  /-- the local EMIT has begun to hand over -/
  local_ : Bool
  locLevel : Nat
  locEmpty : Bool
  /-- local chunks in wire format that wait for their partner -/
  loc : Tbl (List Byte)
  /-- an incoming EMPTY marker has arrived; its body stands as chunk 0 of `inc` -/
  incEmpty : Bool
  /-- incoming chunks that wait for their partner, as packet bodies -/
  inc : Tbl (List Byte)
  /-- contributions summed in the latest chunk that this module has added, its own included -/
  contribs : Nat
  /-- chunks whose buffer is charged to the shared part: n for local, 16 + n for incoming (R320) -/
  shared : List Nat
  /-- chunks added so far: forwarded, or at the owner summed -/
  done : List Nat
  /-- at the owner, the summed chunks as F32 codes -/
  sums : Tbl (List Byte)
  /-- at the owner, once its EMIT is accepted: DELIV_DESC (none where the urn's check failed), DELIV_REC,
  DELIVER_SIGNAL -/
  deliv : Option (Option TensorDesc × Nat × Nat)
deriving DecidableEq, Repr

/-- A reduction packet held (R276): until STEP_START (0), COMMIT (1) or REPLAY (2). -/
structure RedHeld where
  until_ : Nat
  pkt : Packet
  /-- its buffer is charged to the shared part (R320) -/
  shared : Bool
deriving DecidableEq, Repr

/-- An EMIT tile whose drain has chunks left to hand over (R268): its core and post sequence number. -/
structure RedDrain where
  core : Nat
  seq : Nat
  next : Nat
deriving DecidableEq, Repr

/-- Reduction state of one context (R280, R281). -/
structure RedCtx where
  /-- RED_STATUS SENT, 32 bits; 11 R280; reset 0 -/
  sent : Nat
  /-- RED_STATUS RECEIVED, 32 bits; 11 R280; reset 0 -/
  received : Nat
  /-- keys failed or completed in this attempt, as (group, RED_TAG); 11 R276; reset none -/
  closed : List (Nat × Nat)
  /-- layout epoch in force, 16 bits; 11 R281; reset 0 -/
  epoch : Nat
  /-- RED_GROUP descriptors in force, groups 0 to 3; 11 R281; reset 0 -/
  groups : Tbl Nat
  /-- member lists in force, 256 of 64 bytes; 11 R281; reset 0 -/
  lists : Tbl Nat
  /-- a committed layout set waits for STEP_START; 11 R281; reset false -/
  staged : Bool
deriving DecidableEq, Repr

/-- A combined permute reply received from beyond (R284): its source, KIND, ROUND, COUNT and the three sums. -/
structure PermReply where
  src : Nat
  kind : Nat
  round : Nat
  count : Nat
  pend : Nat
  sent : Nat
  recv : Nat
deriving DecidableEq, Repr

/-- Permute state of one context (R282 to R285). -/
structure Perm where
  /-- RED_STATUS PERM_STATE, 3 bits; 11 R280; reset NONE -/
  st : Nat
  /-- PERMUTE_CTRL, 256 bits with GO; 11 R282; reset 0 -/
  ctrl : Nat
  /-- post sequence number of the join; 11 R283; reset 0 -/
  joinSeq : Nat
  /-- a COUNT_REQ held until the module joins, its packet; 11 R284; reset none -/
  heldReq : Option Packet
  /-- this module has completed the stage in progress (answered, copied or stored); 11 R284; reset false -/
  own : Bool
  /-- drain round being answered, 16 bits; 11 R284; reset 0 -/
  round : Nat
  /-- replies received from the modules beyond; 11 R284; reset none -/
  replies : List PermReply
  /-- combined reply of the stage already sent onward; 11 R284; reset false -/
  told : Bool
  /-- home: sums of the previous complete round, if balanced; 11 R283; reset none -/
  lastSums : Option (Nat × Nat)
  /-- home: clock time at which the stage in progress began; 11 R285; reset 0 -/
  stageAt : Nat
  /-- home: clock time of the last COUNT_REQ of this drain, none before the first; 11 R283; reset none -/
  askedAt : Option Nat
  /-- home: FAILED is decided; 11 R285; reset false -/
  failed : Bool
  /-- TAGs of the phase 2 stores that await their acknowledgement; 11 R283; reset none -/
  acks : List Nat
deriving DecidableEq, Repr

/-- The four reduction units and the permute collective. -/
structure Red where
  /-- keys held; 11 R276; reset none -/
  keys : List RedKey
  /-- packets held; 11 R276; reset none -/
  held : List RedHeld
  /-- drains with chunks left; 11 R268; reset none -/
  drains : List RedDrain
  /-- counts and layouts in force of contexts 0 to 15; 11 R280, R281; reset 0 -/
  ctx : Tbl RedCtx
  /-- permutes of contexts 0 to 15; 11 R282; reset none -/
  perm : Tbl Perm
  /-- RED_ERR_LOG, 96 bits; 11 R279; reset 0 -/
  errLog : Nat
deriving DecidableEq, Repr

/-- Commit state of one area (R416). -/
structure AreaSt where
  pending : Bool
  commits : Nat
  lastStatus : Nat
  firstObj : Nat
  firstIndex : Nat
deriving DecidableEq, Repr

/-- The object dictionary (R415, R416, chapter 18). Values of composite read-only objects are formed at a READ from the
units' own state. -/
structure Objects where
  /-- values in force by object ID, where they differ from the catalogue's default; 18 R431 to R452; reset none -/
  vals : Tbl Nat
  /-- staged values by object ID, where written and not yet applied; 17 R416; reset none -/
  staged : Tbl Nat
  /-- commit objects of areas 0 to 15; 17 R416; reset 0 -/
  area : Tbl AreaSt
  /-- region table in force, 65,536 entries of 32 bytes; 14 R330; reset 0 -/
  region : Tbl Nat
  /-- staged region entries; 14 R330; reset none -/
  regionS : Tbl Nat
  /-- sync maps in force by context × 65,536 + sync ID, 8 bytes; 08 R186; reset INVALID (0) -/
  syncMap : Tbl Nat
  /-- staged sync map entries; 08 R186; reset none -/
  syncMapS : Tbl Nat
  /-- expert map tables in force by table × 4,096 + expert, 32 bytes; 09 R203; reset 0 -/
  expert : Tbl Nat
  /-- staged expert map entries; 09 R203; reset none -/
  expertS : Tbl Nat
  /-- member lists committed by context × 256 + list, 64 bytes; 11 R265; reset 0 -/
  redList : Tbl Nat
  /-- staged member lists; 11 R265; reset none -/
  redListS : Tbl Nat
  /-- staged retirement entries of 16 bytes, in order; 12 R306; reset none -/
  retireS : List Nat
  /-- GF_STATE of layers 0 to 4,095; 10 R238; reset level 1 (INIT MID), others 0 -/
  gf : Tbl GfState
deriving DecidableEq, Repr

end Sys2Proof.Machine
end

