-- ==== Sys2Proof/Machine/State.lean ====
section
/-!
DEFINITION. The state of the TD-8800 module, the ways in which a command can stop, and the state right after reset.
-/

namespace Sys2Proof.Machine

/-- Why a command stops with a fault. -/
inductive Fault
  /-- Raised by every command whose operand names a part that the module does not have (context 16, core 256, link 6).
  Safe: no such command can reach the module. -/
  | noSuchPart
deriving DecidableEq, Repr

/-- Why a command is refused by the model. -/
inductive Refusal
  /-- Raised by an arm of `exec` whose command has no meaning yet. Safe. -/
  | notModelled (mnemonic : String)
deriving DecidableEq, Repr

/-- The module. Registers stand in the structures of its units; an absent table entry reads as its default. -/
structure State where
  /-- ns since POWER_ON, the clock behind every interval (the model's own, log 1); reset 0 -/
  clk : Nat
  ft : FabTime
  pins : Pins
  power : Power
  kettle : Kettle
  /-- logical cores 0 to 255 -/
  cores : Tbl Core
  sched : Sched
  txe : Txe
  sync : Sync
  mem : Mem
  urn : Urn
  fab : Fab
  /-- links 0 to 5 -/
  links : Tbl Link
  router : Router
  caddy : Caddy
  host : HostIf
  /-- steps of contexts 0 to 15 -/
  steps : Tbl StepCtx
  red : Red
  obj : Objects
  flash : Flash
  ageing : Ageing
  tele : Telemetry
  out : Outputs
  /-- counter behind fresh free values (the model's own, log 7); reset DESIGN CHOICE 0 -/
  free : Nat
  /-- commands waiting, first in, first out (the model's own) -/
  pending : List Instr
deriving DecidableEq, Repr

/-- Link after reset (R162). -/
def Link.init : Link :=
  { st := .down, width := 0, nbr := 0, txLight := false, rxLight := false, failRx := 0, failTx := 0, spareRx := [],
    spareTx := [], recent := [], lostWaves := [], lasersFailed := [], laserTuning := none, failAt := [], laserSpare := none,
    healthy := 0, fault := 0, peer := none, txChange := none, rxChange := none, txDone := false, rxDone := false,
    spareAckTx := [], spareAckRx := [], laneRx := [], laneTx := [], lastRound := 0, msgSeq := 0, waiting := [], ctl := [],
      round := 0, txSeq := 0, retry := [],
    again := [], rxSeq := 0, nakOpen := false, ackPtr := 0, rx := [], parity := none, used := [], owed := [], out := [],
    lastVc := 11, wire := [] }

/-- Core after reset (R463). -/
def Core.init : Core :=
  { ctx := 0, sliceAt := 0, tiles := [], suspended := [], slots := [], savedChains := [], savedHeld := [], store := [],
    asleep := false, wake := false, sleptAt := (0, 0), idleFrom := 0, idleQ := false, switchTo := none, fenced := false,
    matchTab := [] }

/-- A FREE slot with every entry +0 (R89). -/
def Slot.free : Slot := ⟨.free, 0, 0, 0, false, 0, []⟩

/-- Steps of a context that has not started (R252). -/
def StepCtx.init : StepCtx :=
  { st := .idle, nondet := false, attempt := 0, reason := 0, step := 0, committed := 0xFFFFFFFF, replays := 0,
    latch := none, latchNext := none, doneTaken := false, updates := 0, seed := 0,
    failSent := false, voteHeld := false, votes := [], begun := 0, votedAt := 0, firstVote := none, decided := false,
      stats := [], norms := [], normsLost := [],
    summing := false, sumStep := 0, summed := [], normTail := 0,
    normGap := false }

/-- A page at reset (R458). -/
def Page.init : Page := ⟨0, 0, 0, 0, 0, 0, 0, 0, 0, false, none, []⟩

/-- An empty mailbox (R461). -/
def Mailbox.init : Mailbox := ⟨[], [], false, false, false, 0⟩

/-- The host interface after a HOST reset (R456, R463); the BAR2 size is BAR2_LOG2 as given. -/
def HostIf.init (log2 : Nat) : HostIf :=
  { pages := [], mbx := [], bar2Base := 0, bar2Log2 := log2, vfWin := [], vfOn := 0, err := 0, firstAddr := 0,
    gen := 0, width := 0, flit := false, up := false, msix := [], pba := [], aer := [], readOut := ([], false) }

/-- No thermal limit (R377). -/
def Therm.init : Therm := ⟨15, .dual, 0, 0, 0, none⟩

/-- A die of the kettle after reset. -/
def Die.init : Die :=
  { point := 0, target := none, clock := 0, mv := 620, eng := .dual, q := 0, limit := 0, budget := 15, budEng := .dual,
    budQ := 0, budQNext := 0, own := .init, hub := .init, droop := none, stretching := none, stretched := [],
    matched := none, bstate := 0, bstateAt := 0, changeAt := 0, lowAt := none, hist := [], dyn := [], cycles := [] }

/-- The kettle after reset. -/
def Kettle.init : Kettle :=
  { dies := [], shared := [], caps := [], raw := [], measured := 0, gain := 1, railGain := [], badCal := 0, cap := 2400,
    lowering := false, unreach := false, unreachCount := 0, floorAt := none, okMeans := 0, calRange := false,
    droopSeen := false, energy := [], cost := [], pm := none, probe := none, probeMin := none, brake := false, floor := 0,
    frameAt := 0, evalQ := 0, evalHist := [], evalLowAt := none }

/-- Reduction state of a context at reset (R280). -/
def RedCtx.init : RedCtx := ⟨0, 0, [], 0, [], [], false⟩

/-- No permute (R282). -/
def Perm.init : Perm := ⟨0, 0, 0, none, false, 0, [], false, none, 0, none, false, []⟩

/-- An area's commit object at reset (R416). -/
def AreaSt.init : AreaSt := ⟨false, 0, 0, 0, 0⟩

/-- Level state of a layer at reset (R236, R238): GF_CFG's default INIT is MID. -/
def GfState.init : GfState := ⟨1, 0, none, 0, 0, 0, []⟩

/-- Ageing monitors of a unit never sampled (R398). -/
def AgeUnit.init : AgeUnit :=
  { dvMean := 0, dvMax := 0, samples := [], vmin := [], fresh := [], plan := [], raise := none, hours := 0,
    forecast := 0xFFFFFFFF,
    history := [] }

/-- A list class with no buffer freed (R315). -/
def UrnClass.init : UrnClass := ⟨[], 0⟩

/-- Fabric time with the main domain off (R176, R179). -/
def FabTime.init : FabTime :=
  { now := 0, running := false, st := .rootUnset, parent := none, depth := 0, offset := 0, corr := 0, frac := 0,
    inLock := 0, moved := false, lostAt := none, refOk := true, nbr := [], exch := [], nextSeq := 0 }

/-- Power sequencing at power-on (R465, R467). -/
def Power.init : Power :=
  { main := .off, failedStep := 0, coreFails := 0, readyMs := 0, seqStart := 0, seqRow := 0, selfTest := false,
    rails := false, standby := true,
    halted := false, stop := none, hotStacks := [], hotSensors := [], losing := 0, lossTime := 0, resetWaits := false,
    phases := [] }

/-- The router with nothing in it. -/
def Router.init : Router :=
  { inj := [], hubSent := [], hubLast := 5, outq := [], outLast := [], delivered := [], arrived := [] }

/-- Work lists with nothing posted. -/
def Sched.init : Sched :=
  { lists := [], overflow := [], posts := [], nextSeq := 0, pos := [], offline := [], dead := [], takeovers := [] }

/-- Device memory with nothing written. -/
def Mem.init : Mem :=
  { bytes := [], poison := [], retired := [], retiring := [], gddr := .training, gddrRate := 0, gddrHot := false,
    level := [], below := [], found := [] }

/-- The urn with every buffer free. -/
def Urn.init : Urn :=
  { bufs := [], lists := [], links := [], repairing := [], waiting := [], bytes := [], redRes := [], redShared := [],
    reqs := [], grants := [], sends := [],
    nextReq := 0, inboxTail := [], inboxTaken := [] }

/-- The memory fabric with nothing in flight. -/
def Fab.init : Fab :=
  { slot := [], cmds := [], turn := 15, tileReqs := [], look := [], nextTag := 0, nextSeq := [], atoms := [],
    lastAck := [], resp := [], wm := [], dir := [], invs := [], nextInv := 0, lines := [], noFill := [], hot := [],
      capped := [], lineBusy := [], hotMarks := [] }

/-- The reduction units with nothing held. -/
def Red.init : Red := ⟨[], [], [], [], [], 0⟩

/-- The caddy before its boot verification. -/
def Caddy.init : Caddy :=
  { ready := false, booted := false, sessions := [], opened := 0, owner := none, epoch := 0, handover := none,
    authFails := [], authLocks := [], partials := [], deferred := [], queue := [], forwards := [], m0 := true, m1 := true,
      m1Active := false,
    slotA := .factory, slotB := .empty, activeB := false, runB := false, recovery := false, fallback := false,
    fwPending := false, minSecRaised := 0, audit := [], auditCount := 0, port := 41900, csma := false, plcaId := 0 }

/-- The module right after the 5 V standby input has come within range (R463, R465): every field at its reset value,
nothing stored, no command waiting. -/
def State.reset : State :=
  { clk := 0
    ft := .init
    pins := { p5v := true, p50v := false, coolantOk := false, brake := false, slotId := 63, refclk := true,
              oref := true }
    power := .init
    kettle := .init
    cores := []
    sched := .init
    txe := ⟨[], [], 0⟩
    sync := ⟨[], [], [], 0, []⟩
    mem := .init
    urn := .init
    fab := .init
    links := []
    router := .init
    caddy := .init
    host := .init 38
    steps := []
    red := .init
    obj := ⟨[], [], [], [], [], [], [], [], [], [], [], [], []⟩
    flash := { queue := [], recs := [], log := [], total := 0, spares := [], stopCause := ⟨0, 0, 0, 0⟩,
               powerLog := 0, service := 0, ack := 0, notices := [], code17 := false }
    ageing := { units := [], bias := [], biasSum := [], aged := [], retention := [], hours := 0, busyTo := 0 }
    tele := ⟨[], [], [], [], false, 0⟩
    out := ⟨[], [], [], [], false, false⟩
    free := 0
    pending := [] }

/-- The outcome of a step of this module. -/
abbrev Result := Host.Outcome State Fault Refusal

end Sys2Proof.Machine
end

