-- ==== Sys2Proof/Machine/Ops.lean ====
section
/-!
DEFINITION. Named reads and writes of the state's parts, the packets that leave the local hub, and the range check of a
command's operands.
-/

namespace Sys2Proof.Machine

/-- A command whose operand names no part of the module stops with a fault. -/
def need (ok : Bool) (r : Result) : Result := if ok then r else .fault .noSuchPart

/-- Runs `f` on the state where `c` holds; a command whose condition does not hold has not happened (log 2). -/
def when_ (c : Bool) (f : State → State) (s : State) : State := if c then f s else s

/-! Replacement of one unit of the state. -/

def State.setFt (s : State) (x : FabTime) : State := { s with ft := x }
def State.setPins (s : State) (x : Pins) : State := { s with pins := x }
def State.setPower (s : State) (x : Power) : State := { s with power := x }
def State.setKettle (s : State) (x : Kettle) : State := { s with kettle := x }
def State.setSched (s : State) (x : Sched) : State := { s with sched := x }
def State.setTxe (s : State) (x : Txe) : State := { s with txe := x }
def State.setSync (s : State) (x : Sync) : State := { s with sync := x }
def State.setMem (s : State) (x : Mem) : State := { s with mem := x }
def State.setUrn (s : State) (x : Urn) : State := { s with urn := x }
def State.setFab (s : State) (x : Fab) : State := { s with fab := x }
def State.setRouter (s : State) (x : Router) : State := { s with router := x }
def State.setCaddy (s : State) (x : Caddy) : State := { s with caddy := x }
def State.setHost (s : State) (x : HostIf) : State := { s with host := x }
def State.setRed (s : State) (x : Red) : State := { s with red := x }
def State.setObj (s : State) (x : Objects) : State := { s with obj := x }
def State.setFlash (s : State) (x : Flash) : State := { s with flash := x }
def State.setAgeing (s : State) (x : Ageing) : State := { s with ageing := x }
def State.setTele (s : State) (x : Telemetry) : State := { s with tele := x }
def State.setOut (s : State) (x : Outputs) : State := { s with out := x }

/-- A free value has been drawn (log 7). -/
def State.fresh (s : State) : State := { s with free := s.free + 1 }

/-- Logical core `n`. -/
def State.core (s : State) (n : Nat) : Core := tget .init s.cores n
def State.setCore (s : State) (n : Nat) (c : Core) : State := { s with cores := tset .init s.cores n c }
def State.modCore (s : State) (n : Nat) (f : Core → Core) : State := s.setCore n (f (s.core n))

/-- Link `l`. -/
def State.link (s : State) (l : Nat) : Link := tget .init s.links l
def State.setLink (s : State) (l : Nat) (x : Link) : State := { s with links := tset .init s.links l x }
def State.modLink (s : State) (l : Nat) (f : Link → Link) : State := s.setLink l (f (s.link l))

/-- Step machinery of context `c`. -/
def State.stp (s : State) (c : Nat) : StepCtx := tget .init s.steps c
def State.setStp (s : State) (c : Nat) (x : StepCtx) : State := { s with steps := tset .init s.steps c x }
def State.modStp (s : State) (c : Nat) (f : StepCtx → StepCtx) : State := s.setStp c (f (s.stp c))

/-- Page of context `c`. -/
def State.page (s : State) (c : Nat) : Page := tget .init s.host.pages c
def State.setPage (s : State) (c : Nat) (x : Page) : State :=
  { s with host := { s.host with pages := tset .init s.host.pages c x } }
def State.modPage (s : State) (c : Nat) (f : Page → Page) : State := s.setPage c (f (s.page c))

/-- Mailbox `m`. -/
def State.mailbox (s : State) (m : Nat) : Mailbox := tget .init s.host.mbx m
def State.setMailbox (s : State) (m : Nat) (x : Mailbox) : State :=
  { s with host := { s.host with mbx := tset .init s.host.mbx m x } }

/-- Die `d` of the kettle. -/
def State.die (s : State) (d : Nat) : Die := tget .init s.kettle.dies d
def State.setDie (s : State) (d : Nat) (x : Die) : State :=
  { s with kettle := { s.kettle with dies := tset .init s.kettle.dies d x } }
def State.modDie (s : State) (d : Nat) (f : Die → Die) : State := s.setDie d (f (s.die d))

/-- Reduction state of context `c`. -/
def State.redc (s : State) (c : Nat) : RedCtx := tget .init s.red.ctx c
def State.setRedc (s : State) (c : Nat) (x : RedCtx) : State :=
  { s with red := { s.red with ctx := tset .init s.red.ctx c x } }
def State.modRedc (s : State) (c : Nat) (f : RedCtx → RedCtx) : State := s.setRedc c (f (s.redc c))

/-- Permute of context `c`. -/
def State.perm (s : State) (c : Nat) : Perm := tget .init s.red.perm c
def State.setPerm (s : State) (c : Nat) (x : Perm) : State :=
  { s with red := { s.red with perm := tset .init s.red.perm c x } }
def State.modPerm (s : State) (c : Nat) (f : Perm → Perm) : State := s.setPerm c (f (s.perm c))

/-- Ageing monitors of unit `u`. -/
def State.age (s : State) (u : Nat) : AgeUnit := tget .init s.ageing.units u
def State.setAge (s : State) (u : Nat) (x : AgeUnit) : State :=
  { s with ageing := { s.ageing with units := tset .init s.ageing.units u x } }
def State.modAge (s : State) (u : Nat) (f : AgeUnit → AgeUnit) : State := s.setAge u (f (s.age u))

/-- Die list `d` in list order (R110). -/
def State.dieList (s : State) (d : Nat) : List Entry := tget [] s.sched.lists d
def State.setDieList (s : State) (d : Nat) (x : List Entry) : State :=
  { s with sched := { s.sched with lists := tset [] s.sched.lists d x } }

/-- Sync counter with physical index `i` (R181). -/
def State.ctr (s : State) (i : Nat) : Nat := tget 0 s.sync.ctr i

/-- A change of a counter is noted for the wake wires (R191). -/
def Sync.noted (x : Sync) (i : Nat) : Sync :=
  { x with changes := x.changes + 1, changed := tset 0 x.changed i (x.changes + 1) }

/-- A counter takes a value. -/
def State.setCtr (s : State) (i v : Nat) : State :=
  { s with sync := { (if s.ctr i = v then s.sync else s.sync.noted i) with ctr := tset 0 s.sync.ctr i v } }

/-- Level state of layer `l` (R237). -/
def State.gf (s : State) (l : Nat) : GfState := tget .init s.obj.gf l
def State.setGf (s : State) (l : Nat) (x : GfState) : State :=
  { s with obj := { s.obj with gf := tset .init s.obj.gf l x } }

/-- Cycle in ps of the hub's clock, of a link's transmit and receive clocks and of the management clock (R20). -/
def hubPs : Nat := 625
def linkPs : Nat := 571
def mgmtPs : Nat := 2500

/-- Fabric time as a unit whose clock has a cycle of `ps` picoseconds reads it: a sample 2 to 3 of its cycles old (R22). -/
def State.ftRead (s : State) (ps : Nat) : Nat :=
  s.ft.now - (2 * ps + Config.sampleAge s.clk ps % (ps + 1000)) / 1000

/-- All contexts, links, dies and logical cores of the module (R8, R11). -/
def allCtx : List Nat := List.range 16
def allLinks : List Nat := List.range 6
def allDies : List Nat := List.range 4
def allCores : List Nat := List.range 256

/-- Router ports of R18. -/
def portHost : Nat := 10
def portMgmt : Nat := 11
def portHub : Nat := 12
/-- Queues behind the hub-unit port, one for each unit that R18 names: the GDDR7 controllers, the urn, the token exchange
engine, the fabric engine and the norm summer; and one for what the router forms itself and no unit of R18 sends
(reduction chunks, notices, votes, decisions and permute messages; log 11). -/
def hubGddr : Nat := 16
def hubUrn : Nat := 17
def hubTxe : Nat := 18
def hubFabric : Nat := 19
def hubNorm : Nat := 20
def hubSelf : Nat := 21
/-- Router port of die `d`'s hub controller. -/
def portDie (d : Nat) : Nat := 6 + d

/-- What a unit of the main domain does: nothing while its rails are off (R17). -/
def powered (s t : State) : Result := .next (if s.power.rails then t else s)

/-- Die of a logical core. -/
def dieOf (core : Nat) : Nat := core / 64

/-- The number under which the token exchange engine stands where a core is named (the model's own, log 21). -/
def txeCore : Nat := 256

/-- The router port of a core, or of the token exchange engine. -/
def reqPort (core : Nat) : Nat := if core = txeCore then hubTxe else portDie (core / 64)

/-- The die whose L2 a core's cached reads use; the token exchange engine's use die 0's, as the fabric engine's do (log 10). -/
def l2Die (core : Nat) : Nat := if core = txeCore then 0 else core / 64

/-- Queues a packet at a router input port of the hub die (R172). -/
def State.inject (s : State) (port : Nat) (p : Packet) : State :=
  { s with router := { s.router with inj := tset [] s.router.inj port (tget [] s.router.inj port ++ [p]) } }

/-- A VC2 request to a destination of the hot list waits for its rate (R355). -/
def State.isCapped (s : State) (p : Packet) : Bool :=
  p.vc == 2 && s.fab.hot.any (fun x => x.dest == p.dest) &&
    (s.fab.capped.any (fun q => q.2.dest == p.dest) ||
      s.fab.hot.any (fun x => x.dest == p.dest && decide (x.rate ≤ x.sent)))

/-- A request enters the router, or waits for the rate of its hot destination (R355). -/
def State.capInject (s : State) (port : Nat) (p : Packet) : State :=
  if s.isCapped p then s.setFab { s.fab with capped := s.fab.capped ++ [(port, p)] }
  else
    (s.setFab { s.fab with
      hot := s.fab.hot.map (fun x => if x.dest = p.dest ∧ p.vc = 2 then { x with sent := x.sent + 1 } else x) }).inject port p

/-- Requests that waited for a rate leave as far as the rates in force allow, in order (R355). -/
def State.capFlow (s : State) : State :=
  s.fab.capped.foldl (fun s q => s.capInject q.1 q.2) (s.setFab { s.fab with capped := [] })

/-- A packet handled by its unit leaves the local hub's delivered queue (log 11). -/
def State.taken (s : State) (p : Packet) : State :=
  { s with router := { s.router with delivered := dropFirst (· == p) s.router.delivered } }

/-- Appends one entry to the model's list of MSI-X messages sent (log 12). -/
def State.msi (s : State) (fn vec : Nat) : State := { s with out := { s.out with msi := s.out.msi ++ [(fn, vec)] } }

/-- A body of `n` bytes from fields (bit, width, value). -/
def mkBody (n : Nat) (fs : List (Nat × Nat × Nat)) : List Byte :=
  toLE n (fs.foldl (fun v f => setBits v f.1 f.2.1 f.2.2) 0)

end Sys2Proof.Machine

namespace Sys2Proof

/-- The little-endian field of `w` bits at bit `lo` of a packet's body, bit 0 at payload offset 0x08. -/
def Packet.field (p : Packet) (lo w : Nat) : Nat := Machine.bytesField p.body lo w

end Sys2Proof
end

