-- ==== Sys2Proof/Machine/Catalogue.lean ====
section
/-!
DEFINITION. The object catalogue (R431 to R452): object IDs, types, access, staging, persistence, widths, units,
defaults and ranges.
-/

namespace Sys2Proof.Machine

/-- One row of the catalogue (R432). TYPE and ACCESS are the codes of R415, `width` is in bytes (per entry for BLOCK and
LIST), `unit` the code of R433. Values are accepted from `lo` to `hi`; with `lo` above `hi` the row sets no range. -/
structure ObjRow where
  base : Nat
  count : Nat
  type : Nat
  access : Nat
  staged : Bool
  persist : Bool
  width : Nat
  unit : Nat
  dflt : Nat
  lo : Int
  hi : Int
deriving DecidableEq, Repr

/-! Object IDs, area in bits [19:16] and number in [15:0] (R7); an instance is added to the base. -/

def orderCodeId : Nat := 0x00010
def fwStatusId : Nat := 0x00020
def fwImageBlockId : Nat := 0x00030
def fwActivateId : Nat := 0x00031
def ownerStateId : Nat := 0x10010
def masterKeyId : Nat := 0x10020
def mgmtPortId : Nat := 0x10030
def ctxCfgId : Nat := 0x20010
def regionBlockId : Nat := 0x20020
def protGenId : Nat := 0x20030
def protChangeCountId : Nat := 0x20031
def auditLogId : Nat := 0x20032
def pwrCapId : Nat := 0x30010
def opMaxId : Nat := 0x30011
def paceCfgId : Nat := 0x30012
def tjThrottleId : Nat := 0x30013
def droopMarginId : Nat := 0x30014
def budgetStateId : Nat := 0x30020
def phaseCostId : Nat := 0x30030
def opStateId : Nat := 0x30040
def kettleStatusId : Nat := 0x30050
def pwrNowId : Nat := 0x30060
def phaseEnergyId : Nat := 0x30070
def tempMaxId : Nat := 0x30080
def droopCountId : Nat := 0x30090
def stopCauseId : Nat := 0x300A0
def kettleRestartId : Nat := 0x300B0
def linkWidthId : Nat := 0x40010
def linkStatusId : Nat := 0x40020
def linkErrId : Nat := 0x40030
def torusDimId : Nat := 0x40040
def myCoordId : Nat := 0x40041
def jobBlockId : Nat := 0x40050
def routeErrCountId : Nat := 0x40060
def linkDropCountId : Nat := 0x40070
def scrubPeriodId : Nat := 0x50011
def gddrStatusId : Nat := 0x50024
def stackTempId : Nat := 0x50030
def gddrTempId : Nat := 0x50034
def stackThrottleId : Nat := 0x50040
def memCeCountId : Nat := 0x50050
def memErrLogId : Nat := 0x50058
def memUeCountId : Nat := 0x50059
def memRetireBlockId : Nat := 0x50060
def memRetireListId : Nat := 0x50062
def urnPartitionId : Nat := 0x50100
def urnQuotaId : Nat := 0x50110
def urnInboxId : Nat := 0x50120
def urnInboxHeadId : Nat := 0x50130
def urnStatusId : Nat := 0x50140
def urnFreeId : Nat := 0x50150
def fabQueueId : Nat := 0x50200
def atomicRetryId : Nat := 0x50210
def fabStatusId : Nat := 0x50211
def atomicDupId : Nat := 0x50212
def atomicCacheUsedId : Nat := 0x50213
def stealAgeId : Nat := 0x60011
def ctxSliceId : Nat := 0x60012
def redFloorId : Nat := 0x60013
def listFullCountId : Nat := 0x60014
def coreMapId : Nat := 0x60020
def accSaveBaseId : Nat := 0x60030
def lsResidentId : Nat := 0x60040
def cplRingBaseId : Nat := 0x60050
def cplRingEntriesId : Nat := 0x60060
def cplStatusId : Nat := 0x60070
def sparseCtrlId : Nat := 0x60080
def pruneExcessId : Nat := 0x60090
def sparseStatusId : Nat := 0x600A0
def sparseErrLogId : Nat := 0x600B0
def stepCfgId : Nat := 0x600C0
def stepStatusId : Nat := 0x600D0
def stepStartId : Nat := 0x600E0
def exchDeadlineId : Nat := 0x70010
def exchStaleId : Nat := 0x70011
def exchErrLogId : Nat := 0x70012
def expertMapBlockId : Nat := 0x70020
def layerCfgId : Nat := 0x71000
def reduceDeadlineId : Nat := 0x80010
def redStaleId : Nat := 0x80011
def redErrLogId : Nat := 0x80012
def formatFlagsId : Nat := 0x80040
def roundSeedId : Nat := 0x80050
def normCfgId : Nat := 0x80060
def layoutEpochId : Nat := 0x80070
def permuteCtrlId : Nat := 0x80090
def redStatusId : Nat := 0x800A0
def redGroupId : Nat := 0x80100
def redListBlockId : Nat := 0x80200
def gfCfgId : Nat := 0x81000
def gfStateId : Nat := 0x82000
def syncMapGenId : Nat := 0x90011
def syncMapBlockId : Nat := 0x90020
def syncStatusId : Nat := 0x90040
def faultLogId : Nat := 0xA0010
def faultStatusId : Nat := 0xA0011
def ceCountId : Nat := 0xA0020
def powerLossLogId : Nat := 0xA0030
def ageingStateId : Nat := 0xA0040
def laserBiasId : Nat := 0xA0050
def retentionMarginId : Nat := 0xA0058
def replanCtrlId : Nat := 0xA0060
def guardBandId : Nat := 0xA0061
def poweredHoursId : Nat := 0xA0070
def serviceFlagsId : Nat := 0xA0080
def serviceAckId : Nat := 0xA0081
def idleCyclesId : Nat := 0xB0010
def idleClearId : Nat := 0xB0020
def normRingId : Nat := 0xB0030
def normRingHeadId : Nat := 0xB0040
def phaseCyclesId : Nat := 0xB0050
def evalCfgId : Nat := 0xC0010
def evalMemId : Nat := 0xC0011
def evalPowerId : Nat := 0xC0012
def evalStatusId : Nat := 0xC0020
def ftNowId : Nat := 0xD0010
def ftRootId : Nat := 0xD0011
def ftSetId : Nat := 0xD0012
def ftStatusId : Nat := 0xD0013
def ftAsymId : Nat := 0xD0020
def pcieStatusId : Nat := 0xE0010
def pcieMaxGenId : Nat := 0xE0011
def bar2Log2Id : Nat := 0xE0012
def sqCfgId : Nat := 0xE0020
def msixVectorId : Nat := 0xE0030
def resetCtrlId : Nat := 0xE0040
def selfTestId : Nat := 0xF0010
def selfTestResultId : Nat := 0xF0011
def linkLoopbackId : Nat := 0xF0020

/-- Area 0 (R437). -/
def catArea0 : List ObjRow :=
  [⟨orderCodeId, 1, 3, 0, false, true, 16, 0, 0, 1, 0⟩,
   ⟨fwStatusId, 1, 1, 0, false, false, 16, 0, 0, 1, 0⟩,
   ⟨fwImageBlockId, 1, 4, 2, false, false, 16, 0, 0, 1, 0⟩,
   ⟨fwActivateId, 1, 7, 2, false, false, 4, 0, 0, 1, 1⟩]

/-- Area 1 (R438). -/
def catArea1 : List ObjRow :=
  [⟨ownerStateId, 1, 1, 0, false, false, 16, 0, 0, 1, 0⟩,
   ⟨masterKeyId, 4, 1, 2, true, true, 32, 0, 0, 1, 0⟩,
   ⟨mgmtPortId, 1, 1, 1, true, true, 2, 0, 41900, 1024, 65535⟩]

/-- Area 2 (R439). -/
def catArea2 : List ObjRow :=
  [⟨ctxCfgId, 16, 1, 1, true, false, 4, 0, 0, 1, 0⟩,
   ⟨regionBlockId, 1, 4, 1, true, false, 32, 0, 0, 1, 0⟩,
   ⟨protGenId, 1, 1, 0, false, false, 4, 1, 0, 1, 0⟩,
   ⟨protChangeCountId, 1, 1, 0, false, true, 4, 1, 0, 1, 0⟩,
   ⟨auditLogId, 1, 5, 0, false, true, 64, 0, 0, 1, 0⟩]

/-- Area 3 (R440). -/
def catArea3 : List ObjRow :=
  [⟨pwrCapId, 1, 1, 1, true, false, 2, 3, 2400, 800, 2800⟩,
   ⟨opMaxId, 1, 1, 1, true, false, 1, 15, 13, 0, 15⟩,
   ⟨paceCfgId, 1, 1, 1, true, false, 4, 9, 0x3e80001, 1, 0⟩,
   ⟨tjThrottleId, 1, 1, 1, true, false, 1, 6, 105, 85, 110⟩,
   ⟨droopMarginId, 1, 1, 1, true, false, 1, 5, 40, 20, 100⟩,
   ⟨budgetStateId, 4, 1, 0, false, false, 1, 0, 0, 1, 0⟩,
   ⟨phaseCostId, 16, 1, 0, false, false, 1, 0, 1, 1, 0⟩,
   ⟨opStateId, 4, 1, 0, false, false, 4, 0, 0, 1, 0⟩,
   ⟨kettleStatusId, 1, 1, 1, false, false, 4, 0, 0, 1, 0⟩,
   ⟨pwrNowId, 1, 1, 0, false, false, 8, 3, 0, 1, 0⟩,
   ⟨phaseEnergyId, 16, 1, 0, false, false, 4, 4, 0xffffffff, 1, 0⟩,
   ⟨tempMaxId, 5, 2, 0, false, false, 2, 7, 0, 1, 0⟩,
   ⟨droopCountId, 4, 1, 0, false, false, 4, 1, 0, 1, 0⟩,
   ⟨stopCauseId, 1, 1, 0, false, true, 16, 0, 0, 1, 0⟩,
   ⟨kettleRestartId, 1, 7, 2, false, false, 4, 0, 0, 1, 1⟩]

/-- Area 4 (R441). -/
def catArea4 : List ObjRow :=
  [⟨linkWidthId, 6, 1, 1, true, true, 1, 0, 16, 4, 16⟩,
   ⟨linkStatusId, 6, 1, 0, false, false, 16, 0, 0, 1, 0⟩,
   ⟨linkErrId, 6, 1, 0, false, false, 16, 1, 0, 1, 0⟩,
   ⟨torusDimId, 1, 1, 1, true, true, 4, 0, 0, 1, 0⟩,
   ⟨myCoordId, 1, 1, 1, true, true, 4, 0, 0, 1, 0⟩,
   ⟨jobBlockId, 16, 1, 1, true, false, 4, 0, 0, 1, 0⟩,
   ⟨routeErrCountId, 1, 1, 0, false, false, 4, 1, 0, 1, 0⟩,
   ⟨linkDropCountId, 6, 1, 0, false, false, 4, 1, 0, 1, 0⟩]

/-- Area 5 (R442). -/
def catArea5 : List ObjRow :=
  [⟨scrubPeriodId, 1, 1, 1, true, true, 1, 11, 24, 1, 168⟩,
   ⟨gddrStatusId, 1, 1, 0, false, false, 4, 0, 0, 1, 0⟩,
   ⟨stackTempId, 4, 2, 0, false, false, 2, 7, 0, 1, 0⟩,
   ⟨gddrTempId, 1, 2, 0, false, false, 2, 7, 0, 1, 0⟩,
   ⟨stackThrottleId, 4, 1, 1, true, true, 1, 6, 85, 60, 85⟩,
   ⟨memCeCountId, 5, 1, 0, false, false, 4, 1, 0, 1, 0⟩,
   ⟨memErrLogId, 1, 1, 3, false, false, 16, 0, 0, 1, 0⟩,
   ⟨memUeCountId, 5, 1, 0, false, false, 4, 1, 0, 1, 0⟩,
   ⟨memRetireBlockId, 1, 4, 2, true, false, 16, 0, 0, 1, 0⟩,
   ⟨memRetireListId, 1, 5, 0, false, true, 16, 0, 0, 1, 0⟩,
   ⟨urnPartitionId, 1, 1, 1, true, false, 36, 0, 0x1c000000000200000008000000200000020000000400000010000000200000004000, 1, 0⟩,
   ⟨urnQuotaId, 16, 1, 1, true, false, 16, 0, 0xffff10101010ffff004400440102, 1, 0⟩,
   ⟨urnInboxId, 16, 1, 1, true, false, 16, 0, 0, 1, 0⟩,
   ⟨urnInboxHeadId, 16, 1, 1, false, false, 4, 0, 0, 1, 0⟩,
   ⟨urnStatusId, 1, 1, 1, false, false, 8, 0, 0, 1, 0⟩,
   ⟨urnFreeId, 9, 1, 0, false, false, 4, 1, 0, 1, 0⟩,
   ⟨fabQueueId, 16, 1, 1, true, false, 16, 0, 0, 1, 0⟩,
   ⟨atomicRetryId, 1, 1, 1, true, false, 2, 9, 50, 10, 10000⟩,
   ⟨fabStatusId, 1, 1, 1, false, false, 4, 0, 0, 1, 0⟩,
   ⟨atomicDupId, 1, 1, 0, false, false, 4, 1, 0, 1, 0⟩,
   ⟨atomicCacheUsedId, 1, 1, 0, false, false, 2, 1, 0, 1, 0⟩]

/-- Area 6 (R443). -/
def catArea6 : List ObjRow :=
  [⟨stealAgeId, 1, 1, 1, true, false, 2, 8, 1000, 0, 65535⟩,
   ⟨ctxSliceId, 1, 1, 1, true, false, 4, 9, 1000, 10, 1000000⟩,
   ⟨redFloorId, 1, 1, 1, true, false, 1, 0, 12, 0, 16⟩,
   ⟨listFullCountId, 1, 1, 0, false, false, 4, 1, 0, 1, 0⟩,
   ⟨coreMapId, 1, 5, 0, false, true, 2, 0, 0, 1, 0⟩,
   ⟨accSaveBaseId, 16, 1, 1, true, false, 8, 2, 0, 1, 0⟩,
   ⟨lsResidentId, 16, 1, 1, true, false, 1, 14, 0, 1, 0⟩,
   ⟨cplRingBaseId, 16, 1, 1, true, false, 8, 2, 0, 1, 0⟩,
   ⟨cplRingEntriesId, 16, 1, 1, true, false, 4, 0, 4096, 256, 65536⟩,
   ⟨cplStatusId, 16, 1, 0, false, false, 8, 1, 0, 1, 0⟩,
   ⟨sparseCtrlId, 16, 1, 1, true, false, 4, 0, 0, 1, 0⟩,
   ⟨pruneExcessId, 16, 1, 1, false, false, 4, 1, 0, 1, 0⟩,
   ⟨sparseStatusId, 16, 1, 1, false, false, 4, 0, 0, 1, 0⟩,
   ⟨sparseErrLogId, 16, 1, 0, false, false, 16, 0, 0, 1, 0⟩,
   ⟨stepCfgId, 16, 1, 1, true, false, 16, 0, 0x6403000000000000000000000000, 1, 0⟩,
   ⟨stepStatusId, 16, 1, 0, false, false, 16, 0, 0, 1, 0⟩,
   ⟨stepStartId, 16, 7, 2, false, false, 4, 0, 0, 1, 0⟩]

/-- Area 7 (R444). -/
def catArea7 : List ObjRow :=
  [⟨exchDeadlineId, 1, 1, 1, true, false, 4, 9, 20000, 100, 1000000⟩,
   ⟨exchStaleId, 1, 1, 0, false, false, 4, 1, 0, 1, 0⟩,
   ⟨exchErrLogId, 1, 1, 3, false, false, 12, 0, 0, 1, 0⟩,
   ⟨expertMapBlockId, 64, 4, 1, true, false, 32, 0, 0, 1, 0⟩,
   ⟨layerCfgId, 4096, 1, 1, true, false, 16, 0, 0x3e0000000000000000, 1, 0⟩]

/-- Area 8 (R445). -/
def catArea8 : List ObjRow :=
  [⟨reduceDeadlineId, 1, 1, 1, true, false, 4, 9, 20000, 100, 1000000⟩,
   ⟨redStaleId, 1, 1, 0, false, false, 4, 1, 0, 1, 0⟩,
   ⟨redErrLogId, 1, 1, 3, false, false, 12, 0, 0, 1, 0⟩,
   ⟨formatFlagsId, 16, 1, 1, false, false, 4, 0, 0, 1, 0⟩,
   ⟨roundSeedId, 16, 1, 1, true, false, 8, 0, 0, 1, 0⟩,
   ⟨normCfgId, 16, 1, 1, true, false, 16, 0, 0, 1, 0⟩,
   ⟨layoutEpochId, 16, 1, 1, true, false, 2, 0, 0, 1, 0⟩,
   ⟨permuteCtrlId, 16, 1, 1, false, false, 32, 0, 0, 1, 0⟩,
   ⟨redStatusId, 16, 1, 0, false, false, 16, 0, 0, 1, 0⟩,
   ⟨redGroupId, 64, 1, 1, true, false, 4, 0, 0, 1, 0⟩,
   ⟨redListBlockId, 16, 4, 1, true, false, 64, 0, 0, 1, 0⟩,
   ⟨gfCfgId, 4096, 1, 1, true, false, 4, 0, 0x41ca64, 1, 0⟩,
   ⟨gfStateId, 4096, 1, 0, false, false, 16, 0, 0, 1, 0⟩]

/-- Area 9 (R446). -/
def catArea9 : List ObjRow :=
  [⟨syncMapGenId, 1, 1, 0, false, false, 4, 1, 0, 1, 0⟩,
   ⟨syncMapBlockId, 16, 4, 1, true, false, 8, 0, 0, 1, 0⟩,
   ⟨syncStatusId, 1, 1, 1, false, false, 4, 0, 0, 1, 0⟩]

/-- Area A (R447). -/
def catAreaA : List ObjRow :=
  [⟨faultLogId, 1, 5, 0, false, true, 16, 0, 0, 1, 0⟩,
   ⟨faultStatusId, 1, 1, 1, false, false, 4, 0, 0, 1, 0⟩,
   ⟨ceCountId, 5, 1, 0, false, false, 4, 1, 0, 1, 0⟩,
   ⟨powerLossLogId, 1, 1, 0, false, true, 16, 0, 0, 1, 0⟩,
   ⟨ageingStateId, 5, 1, 0, false, true, 16, 0, 0, 1, 0⟩,
   ⟨laserBiasId, 6, 1, 0, false, true, 16, 0, 0, 1, 0⟩,
   ⟨retentionMarginId, 4, 1, 0, false, true, 4, 0, 8, 1, 0⟩,
   ⟨replanCtrlId, 1, 7, 2, false, false, 4, 0, 0, 1, 1⟩,
   ⟨guardBandId, 1, 1, 1, true, true, 1, 5, 25, 15, 60⟩,
   ⟨poweredHoursId, 1, 1, 0, false, true, 4, 11, 0, 1, 0⟩,
   ⟨serviceFlagsId, 1, 1, 0, false, true, 8, 0, 0, 1, 0⟩,
   ⟨serviceAckId, 1, 1, 1, false, true, 8, 0, 0, 1, 0⟩]

/-- Area B (R448). -/
def catAreaB : List ObjRow :=
  [⟨idleCyclesId, 12, 1, 0, false, false, 8, 13, 0, 1, 0⟩,
   ⟨idleClearId, 1, 7, 2, false, false, 4, 0, 0, 1, 1⟩,
   ⟨normRingId, 16, 1, 1, true, false, 16, 0, 0, 1, 0⟩,
   ⟨normRingHeadId, 16, 1, 1, false, false, 4, 0, 0, 1, 0⟩,
   ⟨phaseCyclesId, 16, 1, 0, false, false, 8, 13, 0, 1, 0⟩]

/-- Area C (R449). -/
def catAreaC : List ObjRow :=
  [⟨evalCfgId, 1, 1, 1, true, false, 8, 0, 0, 1, 0⟩,
   ⟨evalMemId, 1, 1, 1, true, false, 16, 2, 0, 1, 0⟩,
   ⟨evalPowerId, 1, 1, 1, true, false, 2, 3, 0, 0, 800⟩,
   ⟨evalStatusId, 1, 1, 0, false, false, 4, 0, 0, 1, 0⟩]

/-- Area D (R450). -/
def catAreaD : List ObjRow :=
  [⟨ftNowId, 1, 1, 0, false, false, 8, 8, 0, 1, 0⟩,
   ⟨ftRootId, 1, 1, 1, true, true, 2, 0, 0, 1, 0⟩,
   ⟨ftSetId, 1, 7, 2, false, false, 8, 8, 0, 1, 0⟩,
   ⟨ftStatusId, 1, 1, 0, false, false, 8, 0, 0, 1, 0⟩,
   ⟨ftAsymId, 6, 2, 1, true, true, 4, 12, 0, (-1000000), 1000000⟩]

/-- Area E (R451). -/
def catAreaE : List ObjRow :=
  [⟨pcieStatusId, 1, 1, 0, false, false, 4, 0, 0, 1, 0⟩,
   ⟨pcieMaxGenId, 1, 1, 1, true, true, 1, 0, 6, 4, 6⟩,
   ⟨bar2Log2Id, 1, 1, 1, true, true, 1, 0, 38, 30, 38⟩,
   ⟨sqCfgId, 16, 1, 1, true, false, 16, 0, 0, 1, 0⟩,
   ⟨msixVectorId, 16, 1, 1, true, false, 2, 0, 0, 0, 2047⟩,
   ⟨resetCtrlId, 1, 7, 2, false, false, 4, 0, 0, 1, 0⟩]

/-- Area F (R452). -/
def catAreaF : List ObjRow :=
  [⟨selfTestId, 1, 7, 2, false, false, 4, 0, 0, 1, 1⟩,
   ⟨selfTestResultId, 1, 1, 0, false, false, 8, 0, 0, 1, 0⟩,
   ⟨linkLoopbackId, 6, 1, 1, true, false, 1, 0, 0, 0, 1⟩]

/-- The catalogue, by area. -/
def catArea : Nat → List ObjRow
  | 0 => catArea0
  | 1 => catArea1
  | 2 => catArea2
  | 3 => catArea3
  | 4 => catArea4
  | 5 => catArea5
  | 6 => catArea6
  | 7 => catArea7
  | 8 => catArea8
  | 9 => catArea9
  | 10 => catAreaA
  | 11 => catAreaB
  | 12 => catAreaC
  | 13 => catAreaD
  | 14 => catAreaE
  | 15 => catAreaF
  | _ => []

/-- The row of a commit object (R431). -/
def commitRow (area : Nat) : ObjRow := ⟨area * 65536 + 1, 1, 6, 1, false, false, 16, 0, 0, 1, 0⟩

/-- The row of a list that holds an object ID. -/
def rowIn (id : Nat) : List ObjRow → Option ObjRow
  | [] => none
  | r :: rs => if r.base ≤ id ∧ id < r.base + r.count then some r else rowIn id rs

/-- The catalogue row of an object ID, none where the dictionary holds no such object (R431). -/
def objRow (id : Nat) : Option ObjRow :=
  if 0x100000 ≤ id then none
  else if id % 65536 = 1 then some (commitRow (id / 65536))
  else rowIn id (catArea (id / 65536))

/-- Value after reset of an object: its row's default; MSIX_VECTOR takes its context number (R451). -/
def objDefault (id : Nat) : Nat :=
  if msixVectorId ≤ id ∧ id < msixVectorId + 16 then id - msixVectorId
  else match objRow id with
    | some r => r.dflt
    | none => 0

/-- A value lies in its row's range (R435); signed rows read it as two's complement. -/
def inRange (r : ObjRow) (v : Nat) : Bool :=
  if r.hi < r.lo then true
  else
    let x : Int := if r.type = 2 then sext (8 * r.width) v else v
    decide (r.lo ≤ x) && decide (x ≤ r.hi)

/-- The descriptor that DESCRIBE returns (R415). -/
def descriptor (id : Nat) (r : ObjRow) : List Byte :=
  toLE 4 id ++ toLE 2 (r.type + r.access * 16 + ofBool r.staged * 128 + ofBool r.persist * 256) ++ toLE 2 r.width ++
    toLE 2 r.unit ++ toLE 2 r.count ++ toLE 4 0

/-- Value in force of an object. -/
def State.ov (s : State) (id : Nat) : Nat := tget (objDefault id) s.obj.vals id

/-- Puts a value in force. -/
def State.setOv (s : State) (id v : Nat) : State :=
  s.setObj { s.obj with vals := tset (objDefault id) s.obj.vals id v }

/-- Changes a value in force. -/
def State.modOv (s : State) (id : Nat) (f : Nat → Nat) : State := s.setOv id (f (s.ov id))

/-- Adds to a 32-bit count that saturates. -/
def State.bump (s : State) (id : Nat) (n : Nat := 1) : State := s.modOv id (satAdd 32 n)

/-- Sets flag bits of a flag word. -/
def State.orOv (s : State) (id v : Nat) : State := s.modOv id (v ||| ·)

/-- Staged value of an object: the value in force unless one is staged (R416). -/
def State.sv (s : State) (id : Nat) : Nat := tget (s.ov id) s.obj.staged id

end Sys2Proof.Machine
end

