-- ==== Sys2Proof/Machine/Routing.lean ====
section
/-!
DEFINITION. Device IDs, job blocks, directions and the lines and trees of a block (R170 to R174, R188, R255).
-/

namespace Sys2Proof.Machine

/-- Coordinate of a device ID along axis 0 (X), 1 (Y) or 2 (Z) (R170). -/
def coord (id a : Nat) : Nat := bits id (5 * a) 5

/-- The device ID with the given coordinates. -/
def mkDev (x y z : Nat) : Nat := x + 32 * y + 1024 * z

/-- Axis size D (R170). -/
def State.dim (s : State) (a : Nat) : Nat := bits (s.ov torusDimId) (5 * a) 5 + 1

/-- The module's own device ID. -/
def State.me (s : State) : Nat := s.ov myCoordId % 65536

/-- JOB_BLOCK of a context (R174). -/
def State.block (s : State) (ctx : Nat) : Nat := s.ov (jobBlockId + ctx)

/-- The job block is VALID. -/
def State.blockOk (s : State) (ctx : Nat) : Bool := bit (s.block ctx) 31

/-- Extent of the block along an axis. -/
def State.ext (s : State) (ctx a : Nat) : Nat := bits (s.block ctx) (16 + 5 * a) 5 + 1

/-- Origin of the block along an axis. -/
def State.org (s : State) (ctx a : Nat) : Nat := bits (s.block ctx) (5 * a) 5

/-- Block offset of a device along an axis (R174). -/
def State.off (s : State) (ctx dev a : Nat) : Nat := (coord dev a + 32 * s.dim a - s.org ctx a) % s.dim a

/-- The device with the given block offsets. -/
def State.devAt (s : State) (ctx ox oy oz : Nat) : Nat :=
  mkDev ((s.org ctx 0 + ox) % s.dim 0) ((s.org ctx 1 + oy) % s.dim 1) ((s.org ctx 2 + oz) % s.dim 2)

/-- A device lies in the VALID job block of a context (R174). -/
def State.inBlock (s : State) (ctx dev : Nat) : Bool :=
  s.blockOk ctx && decide (dev < 32768) &&
    (List.range 3).all (fun a => decide (coord dev a < s.dim a) && decide (s.off ctx dev a < s.ext ctx a))

/-- Number of modules of the block. -/
def State.blockSize (s : State) (ctx : Nat) : Nat := s.ext ctx 0 * s.ext ctx 1 * s.ext ctx 2

/-- The block's home: the module at its origin (R255). -/
def State.home (s : State) (ctx : Nat) : Nat := s.devAt ctx 0 0 0

/-- Every device of the block. -/
def State.blockDevs (s : State) (ctx : Nat) : List Nat :=
  (List.range (s.ext ctx 2)).flatMap fun z => (List.range (s.ext ctx 1)).flatMap fun y =>
    (List.range (s.ext ctx 0)).map fun x => s.devAt ctx x y z

/-- Direction bit along one axis (R171); `inner` when both ends lie in the source context's block. -/
def State.dirBit (s : State) (ctx src dst a : Nat) (inner : Bool) : Nat :=
  let d := s.dim a
  let delta := (coord dst a + d - coord src a) % d
  if delta = 0 then 0
  else if inner ∧ s.ext ctx a < d then (if s.off ctx src a < s.off ctx dst a then 0 else 1)
  else if d - delta < delta then 1 else 0

/-- The DIR field (R171). -/
def State.dirOf (s : State) (vc ctx src dst : Nat) : Nat :=
  let inner := vc != 0 && ctx != 15 && s.inBlock ctx src && s.inBlock ctx dst
  s.dirBit ctx src dst 0 inner + 2 * s.dirBit ctx src dst 1 inner + 4 * s.dirBit ctx src dst 2 inner

/-- A packet formed by this module. -/
def State.packet (s : State) (vc ctx dst : Nat) (body : List Byte) : Packet :=
  { vc := vc, dl := false, dest := dst, src := s.me, dir := s.dirOf vc ctx s.me dst, hops := 0, ctx := ctx, rsv := 0,
    body := body }

/-- The device across link `l`: one step along axis l / 2, up for an even index (R151, R163). -/
def State.nbrDev (s : State) (l : Nat) : Nat :=
  let a := l / 2
  let d := s.dim a
  let c := (coord s.me a + (if l % 2 = 0 then 1 else d - 1)) % d
  setBits s.me (5 * a) 5 c

/-- Sends a packet from a unit: a router port, or a queue of the hub-unit port (R18). -/
def State.send (s : State) (port vc ctx dst : Nat) (body : List Byte) : State :=
  s.inject port (s.packet vc ctx dst body)

/-- Sends a packet along the multicast tree of a context's block, this module's own copy included (R188). -/
def State.treeSend (s : State) (port vc ctx : Nat) (body : List Byte) : State :=
  s.inject port { s.packet vc ctx s.me body with dir := 0 }

/-- Next module of this module's line toward the home, none at the home (R255). -/
def State.lineNext (s : State) (ctx : Nat) : Option Nat :=
  let x := s.off ctx s.me 0
  let y := s.off ctx s.me 1
  let z := s.off ctx s.me 2
  if 0 < z then some (s.devAt ctx x y (z - 1))
  else if 0 < y then some (s.devAt ctx x (y - 1) 0)
  else if 0 < x then some (s.devAt ctx (x - 1) 0 0)
  else none

/-- DIR of a packet to the next module of the line: the neighbour one offset lower along the line's axis, reached by the
link toward lower offsets, so that no wrap link inside the block is crossed (R255). DEDUCED (log 16): so also on an
axis of size 2, where R171's tie alone would give the other link. -/
def State.lineDir (s : State) (ctx : Nat) : Nat :=
  if 0 < s.off ctx s.me 2 then 4 else if 0 < s.off ctx s.me 1 then 2 else 1

/-- Sends a combined vote or reply to the next module of the line (R255, R284). -/
def State.lineSend (s : State) (ctx dst : Nat) (body : List Byte) : State :=
  s.inject hubSelf { s.packet 0 ctx dst body with dir := s.lineDir ctx }

/-- Modules whose combined replies this module awaits (R255). -/
def State.linePrev (s : State) (ctx : Nat) : List Nat :=
  let x := s.off ctx s.me 0
  let y := s.off ctx s.me 1
  let z := s.off ctx s.me 2
  (if z + 1 < s.ext ctx 2 then [s.devAt ctx x y (z + 1)] else []) ++
    (if z = 0 ∧ y + 1 < s.ext ctx 1 then [s.devAt ctx x (y + 1) 0] else []) ++
    (if z = 0 ∧ y = 0 ∧ x + 1 < s.ext ctx 0 then [s.devAt ctx (x + 1) 0 0] else [])

/-- Links by which the block's dimension-order tree leaves this module for a packet of source `src` (R188): the
neighbouring offsets away from the source, first along X, then Y, then Z. Link 2a is the + link of axis a. -/
def State.treeLinks (s : State) (ctx src : Nat) : List Nat :=
  let o := fun a => s.off ctx s.me a
  let p := fun a => s.off ctx src a
  let away := fun a =>
    (if p a ≤ o a ∧ o a + 1 < s.ext ctx a then [2 * a] else []) ++ (if o a ≤ p a ∧ 0 < o a then [2 * a + 1] else [])
  (if o 1 = p 1 ∧ o 2 = p 2 then away 0 else []) ++ (if o 2 = p 2 then away 1 else []) ++ away 2

end Sys2Proof.Machine
end

