-- ==== Sys2Proof/Machine/Journal.lean ====
section
/-!
DEFINITION. The flash journal (R394, R396): records, their two slots and headers, a write's start and end, the choice at
boot, and what a record holds and restores.
Choices and readings that the model fixes here: log 27.
-/

namespace Sys2Proof.Machine

/-- Number of a record: one for each kind, and one for each persistent object of the catalogue. -/
def JRec.key : JRec → Nat
  | .fault _ => 0
  | .coreMap => 1
  | .stopCause _ => 2
  | .spare _ _ _ => 3
  | .powerLog _ => 4
  | .service => 5
  | .ageing => 6
  | .plan => 7
  | .remap => 8
  | .audit => 9
  | .boot => 10
  | .object id => 16 + id

/-- RECORD_ID of a record; the manual gives no numbers. -/
def JRec.id (r : JRec) : Nat := Config.recordId r.key % 65535

/-- An erased slot. -/
def JSlot.erased : JSlot := ⟨List.replicate 32 0xFF, [], .none⟩

/-- The header of a version (R394), COMMITTED as given. -/
def jHeader (id seq committed : Nat) (bytes : List Byte) : List Byte :=
  let h := toLE 2 id ++ toLE 2 0xFFFF ++ toLE 4 seq ++ toLE 4 bytes.length ++ toLE 4 (crc32c bytes)
  h ++ toLE 4 (crc32c h) ++ toLE 1 committed ++ List.replicate 11 0xFF

/-- SEQ of a slot (R394). -/
def JSlot.seq (x : JSlot) : Nat := leNat ((x.header.drop 4).take 4)

/-- A slot whose COMMITTED byte is 0x00 and whose CRCs match (R394). -/
def JSlot.valid (x : JSlot) : Bool :=
  leNat ((x.header.drop 20).take 1) == 0 && leNat ((x.header.drop 12).take 4) == crc32c x.bytes &&
    leNat ((x.header.drop 16).take 4) == crc32c (x.header.take 16)

/-- `a` is later than `b` by serial arithmetic. -/
def serialLater (a b : Nat) : Bool := let d := (a + 2 ^ 32 - b % 2 ^ 32) % 2 ^ 32; decide (0 < d) && decide (d < 2 ^ 31)

/-- The two slots of a record. -/
def State.slots (s : State) (k : Nat) : JSlot × JSlot := tget (.erased, .erased) s.flash.recs k
def State.setSlots (s : State) (k : Nat) (p : JSlot × JSlot) : State :=
  s.setFlash { s.flash with recs := tset (.erased, .erased) s.flash.recs k p }

/-- The second slot holds the current version (R394). -/
def currentB (p : JSlot × JSlot) : Bool := p.2.valid && (!p.1.valid || serialLater p.2.seq p.1.seq)

/-- The current version of a record, none while neither slot is valid (R394). -/
def current (p : JSlot × JSlot) : Option JSlot :=
  if currentB p then some p.2 else if p.1.valid then some p.1 else none

/-- The pair with the slot that does not hold the current version replaced (R394). -/
def withOther (p : JSlot × JSlot) (x : JSlot) : JSlot × JSlot := if currentB p then (x, p.2) else (p.1, x)

/-- The write at the front of the queue begins: its slot is erased first, so that COMMITTED reads 0xFF until the write is
complete (R394). -/
def State.journalBegin (s : State) : State :=
  match s.flash.queue with
  | r :: _ => s.setSlots r.key (withOther (s.slots r.key) .erased)
  | [] => s

/-- Entry of the fault log (R392). -/
def JRec.isFault : JRec → Bool
  | .fault _ => true
  | _ => false

/-- POWER_LOSS_LOG (R395). -/
def JRec.isLoss : JRec → Bool
  | .powerLog _ => true
  | _ => false

/-- Queues a journal write behind those that wait (R394). In a power-loss sequence no other write starts (R395): a fault
record is then lost, any other waits until the sequence is over, and the hold-up's end drops it. -/
def State.journal (s : State) (r : JRec) : State :=
  if s.power.losing ≠ 0 ∧ r.isFault then s
  else
    let s' := s.setFlash { s.flash with queue := s.flash.queue ++ [r] }
    if s.flash.queue = [] ∧ s.power.losing = 0 then s'.journalBegin else s'

/-- Queues a journal write right after the one in progress (R379). -/
def State.journalNext (s : State) (r : JRec) : State :=
  if s.power.losing ≠ 0 then s.journal r
  else
    let q := s.flash.queue
    let s' := s.setFlash { s.flash with queue := q.take 1 ++ [r] ++ q.drop 1 }
    if q = [] then s'.journalBegin else s'

/-- The object is persistent (R432, R434). -/
def isPersistent (id : Nat) : Bool :=
  match objRow id with
  | some r => r.persist
  | none => false

/-- What a record's new version holds. -/
def State.jbody (s : State) : JRec → JBody
  | .fault _ => .log s.flash.log s.flash.total
  | .coreMap => .coreMap s.sched.pos s.sched.offline s.sched.dead
  | .stopCause _ => .stopCause s.flash.stopCause
  | .spare _ _ _ => .spares s.flash.spares
  | .powerLog _ => .powerLog s.flash.powerLog
  | .service => .service s.flash.service s.flash.ack
  | .ageing => .ageing { s.ageing with
      units := tmap .init (fun u => { u with
        plan := []
        raise := none }) s.ageing.units }
  | .plan => .plan ((List.range 5).map (fun u => (s.age u).raise.getD (s.age u).plan))
  | .remap => .remap s.mem.retired
  | .audit => .audit s.caddy.audit s.caddy.auditCount
  | .boot => .boot s.caddy.activeB s.caddy.fwPending
  | .object id => .object (s.ov id)

/-- A record's new version is committed in the slot that did not hold the current one, with the next SEQ (R394). The
manual gives no layout of a body, so its bytes are free. -/
def State.versionDone (s : State) (r : JRec) : State :=
  let p := s.slots r.key
  let seq := match current p with
    | some x => (x.seq + 1) % 2 ^ 32
    | none => 0
  let bytes := (Config.recordBody s.free).take 65536
  (s.setSlots r.key (withOther p ⟨jHeader r.id seq 0 bytes, bytes, s.jbody r⟩)).fresh

/-- What a record's contents restore at boot (R394, R396, R434). -/
def State.restore (s : State) (k : Nat) : JBody → State
  | .none => s
  | .log xs n => s.setFlash { s.flash with
      log := xs
      total := n }
  | .coreMap pos offline dead => s.setSched { s.sched with
      pos := pos
      offline := offline
      dead := dead }
  | .stopCause r => s.setFlash { s.flash with stopCause := r }
  | .spares xs => s.setFlash { s.flash with spares := xs }
  | .powerLog v => s.setFlash { s.flash with powerLog := v }
  | .service f a => s.setFlash { s.flash with
      service := f
      ack := a }
  | .ageing a => s.setAgeing { a with
      units := tmap .init (fun u => { u with samples := [] }) (tcanon .init a.units)
      retention := tcanon 8 a.retention
      biasSum := []
      busyTo := 0 }
  | .plan xs => xs.zipIdx.foldl (fun s p => s.modAge p.2 (fun a => { a with
      plan := p.1
      raise := none })) s
  | .remap xs => s.setMem { s.mem with retired := xs }
  | .audit xs n => s.setCaddy { s.caddy with
      audit := xs
      auditCount := n }
  | .boot b p => s.setCaddy { s.caddy with
      activeB := b
      fwPending := p }
  | .object v => s.setOv (k - 16) v

/-- The current version of every record is restored (R394). -/
def State.restoreAll (s : State) : State :=
  s.flash.recs.foldl (fun s p => match current p.2 with
    | some x => s.restore p.1 x.body
    | none => s) s

end Sys2Proof.Machine
end

