-- ==== Sys2Proof/Machine/Notify.lean ====
section
/-!
DEFINITION. Interrupts (R460), events to sessions (R414, R461), ALERT# (R404, R486), service flags, the fault log and
the failure latch of a step (R254, R262, R387, R390, R392, R403).
Choices and readings that the model fixes here: logs 12 and 27.
-/

namespace Sys2Proof.Machine

/-- The interrupt message of a context: to its VF where that is enabled, else to PF vector MSIX_VECTOR (R460). -/
def State.intSend (s : State) (ctx : Nat) : State :=
  if ctx < 15 ∧ bit s.host.vfOn ctx then s.msi (ctx + 1) 0 else s.msi 0 (s.ov (msixVectorId + ctx))

/-- INT_STATUS & ~INT_MASK of a page. -/
def Page.unmasked (p : Page) : Nat := p.intStatus &&& (0xFFFFFFFF - p.intMask)

/-- Sets INT_STATUS bits of a page and sends the message of R460 when the unmasked bits cease to be zero. -/
def State.interrupt (s : State) (ctx b : Nat) : State :=
  let p := s.page ctx
  let q : Page := { p with intStatus := p.intStatus ||| b }
  let s := s.setPage ctx q
  if p.unmasked = 0 ∧ q.unmasked ≠ 0 then s.intSend ctx else s

/-- Sets bits of the host control block's 0x180 word; the first event records its BAR offset (R456). -/
def State.hostErr (s : State) (b addr : Nat) : State :=
  let s := s.setHost { s.host with
    firstAddr := if s.host.err = 0 then addr else s.host.firstAddr, err := s.host.err ||| b }
  s.interrupt 15 16

/-- The 32 header bytes and the payload of a message (R409). -/
def MgmtMsg.bytes (m : MgmtMsg) : List Byte :=
  [1, BitVec.ofNat 8 m.op] ++ toLE 2 (m.cls + (if m.event then 32 else 16)) ++ toLE 4 m.session ++ toLE 4 m.xid ++
    toLE 4 m.epoch ++ toLE 2 m.payload.length ++ [0, 0] ++ toLE 2 m.status ++ toLE 2 0x8000 ++
    toLE 4 (crc32c m.payload) ++ toLE 4 0 ++ m.payload

/-- The header of segment `i` of `n` of a message (R410). -/
def segHeader (h : List Byte) (i n : Nat) : List Byte := h.take 18 ++ toLE 1 i ++ toLE 1 (n - 1) ++ h.drop 20

/-- The datagrams in which a message travels on the tray bus: segments of 1,200 payload bytes where it exceeds them (R410). -/
def MgmtMsg.datagrams (m : MgmtMsg) : List (List Byte) :=
  let h := m.bytes.take 32
  let n := max 1 (ceilDiv m.payload.length 1200)
  (List.range n).map (fun i => segHeader h i n ++ (m.payload.drop (1200 * i)).take 1200)

/-- Sends a message on the tray bus (R407, R410). -/
def State.trayOut (s : State) (m : MgmtMsg) : State := s.setOut { s.out with tray := s.out.tray ++ m.datagrams }

/-- Appends a message to the model's list of messages sent (log 12). -/
def State.emitMsg (s : State) (m : MgmtMsg) : State := s.setOut { s.out with mgmt := s.out.mgmt ++ [m] }

/-- A management packet on VC0 (R408): FOP 0x90 for a request, 0x91 for a message from this caddy. -/
def State.mgmtPacket (s : State) (fop dst : Nat) (bs : List Byte) : State :=
  s.inject portMgmt (s.packet 0 15 dst (toLE 8 fop ++ bs))

/-- Sends one event to one session; a mailbox session's event goes into the last 64 bytes of its reply buffer (R461). -/
def State.eventTo (s : State) (code arg : Nat) (cls : Nat) (x : Session) : State :=
  let m : MgmtMsg := ⟨x.transport, cls, true, 0x30, x.num, 0, 0, 0, toLE 4 code ++ toLE 4 arg⟩
  let s := s.emitMsg m
  match x.transport with
  | .mailbox k =>
    let b := s.mailbox k
    (s.setMailbox k { b with reply := tstore b.reply (8192 - 64) (padTo 64 m.bytes) }).interrupt 15 32
  | .vc0 src => s.mgmtPacket 0x91 src m.bytes
  | .tray => s.trayOut m

/-- Sends an event to every open session (R414). -/
def State.event (s : State) (code arg : Nat) : State :=
  s.caddy.sessions.foldl (fun s p => s.eventTo code arg p.1 p.2) s

/-- ALERT# is wanted: an unacknowledged service flag, CAP_UNREACHABLE, or a context in HALTED; it is driven from the
standby domain (R486). -/
def State.alertWanted (s : State) : Bool :=
  s.power.standby && ((s.flash.service &&& (0xFFFFFFFFFFFFFFFF - s.flash.ack)) != 0 || s.kettle.unreach ||
    s.steps.any (fun p => p.2.st == .halted))

/-- Brings ALERT# to its wanted level; a change sends an ALERT event, an assertion sets INT_STATUS [3] of page 15. -/
def State.alert (s : State) : State :=
  let w := s.alertWanted
  if w = s.out.alertPin then s
  else
    let s := (s.setOut { s.out with alertPin := w }).event 4 (ofBool w)
    if w then s.interrupt 15 8 else s

/-- An event of a service flag's kind, by bit number: the flag is set, its acknowledgement is cleared and the flags are
queued for the journal (R403, R404). -/
def State.service (s : State) (b : Nat) : State :=
  ((s.setFlash { s.flash with
    service := s.flash.service ||| 2 ^ b
    ack := s.flash.ack &&& (0xFFFFFFFFFFFFFFFF - 2 ^ b) }).journal .service).alert

/-- Fault-log records that await writing. -/
def State.logWaiting (s : State) : Nat :=
  (s.flash.queue.filter (fun r => match r with | .fault _ => true | _ => false)).length

/-- Counts an event detected at fabric time `t` and queues its fault-log record while fewer than 64 wait (R392). -/
def State.faultRec (s : State) (t code unit dur : Nat) : State :=
  let r := toLE 8 t ++ toLE 2 code ++ toLE 2 unit ++ toLE 4 dur
  let s := if s.logWaiting < 64 then s.journal (.fault r) else s
  s.setFlash { s.flash with total := satAdd 32 s.flash.total 1 }

/-- Longest interruption in ns of a covered fault by its CODE (R25, R385, R392): lane, laser, core, router parity,
management core, phase. -/
def coveredBound (code : Nat) : Nat := ([0, 12000, 20000, 20000, 2000, 20000, 0] : List Nat).getD code 0

/-- Records a covered fault detected at fabric time `t` (R385, R392, R393); its measured interruption is free within the
bound of its class. -/
def State.coveredAt (s : State) (t code unit : Nat) : State :=
  ((s.faultRec t code unit (Config.interruption s.free % (coveredBound code + 1))).orOv faultStatusId 1) |> fun s =>
    s.fresh

/-- Records a covered fault detected now. -/
def State.covered (s : State) (code unit : Nat) : State := s.coveredAt (s.ftRead mgmtPs) code unit

/-- Steps are enabled for a context (R251 ENABLE). -/
def State.stepsOn (s : State) (ctx : Nat) : Bool := bit (s.ov (stepCfgId + ctx)) 30

/-- Step number wherever the manual uses it: 0 with steps disabled (R251). -/
def State.stepNo (s : State) (ctx : Nat) : Nat := if s.stepsOn ctx then (s.stp ctx).step else 0

/-- Attempt wherever the manual uses it. -/
def State.attemptNo (s : State) (ctx : Nat) : Nat := if s.stepsOn ctx then (s.stp ctx).attempt else 0

/-- A VOTE or DECIDE body (R256). -/
def commitBody (fop kind ctx step attempt reason count : Nat) : List Byte :=
  mkBody 12 [(0, 8, fop), (8, 2, kind), (12, 4, ctx), (16, 32, step), (48, 8, attempt), (56, 8, reason), (64, 16, count)]

/-- Sends a FAIL vote straight to the home, once per attempt (R254, R255). -/
def State.failVote (s : State) (ctx reason : Nat) : State :=
  let x := s.stp ctx
  if x.failSent then s
  else
    (s.send hubSelf 0 ctx (s.home ctx) (commitBody 0x60 1 ctx x.step x.attempt reason 0)).modStp ctx ({ · with failSent := true })

/-- Latches failure for the current step of a context with the reason that its vote carries (R254, R262, R390): in
RUNNING it fails the attempt at once; in VOTED it also waits for the decision; elsewhere there is no step to fail. -/
def State.latch (s : State) (ctx reason : Nat) : State :=
  if s.stepsOn ctx then
    let x := s.stp ctx
    match x.st with
    | .running =>
      (s.modStp ctx ({ · with latch := some (x.latch.getD reason) })).failVote ctx (x.latch.getD reason)
    | .voted =>
      (s.modStp ctx ({ · with latchNext := some (x.latchNext.getD reason) })).failVote ctx (x.latchNext.getD reason)
    | .replaying => s.modStp ctx ({ · with latch := some (x.latch.getD reason) })
    | _ => s
  else s

/-- An uncovered fault (R387): logged, counted and latched against the contexts named. -/
def State.uncovered (s : State) (code unit : Nat) (ctxs : List Nat) : State :=
  let s := s.faultRec (s.ftRead mgmtPs) code unit 0xFFFFFFFF
  let s := s.modOv faultStatusId (fun v => setBits (v ||| 2) 16 16 (satAdd 16 (bits v 16 16) 1))
  ctxs.foldl (fun s c => s.latch c 2) s

/-- Faults that latch at the start of every attempt of a context: a lost module across a DOWN link (R389), and the loss
of the last management core (R387 code 0x17). -/
def State.attemptFaults (s : State) (ctx : Nat) : State :=
  let s := allLinks.foldl (fun s l =>
    if (s.link l).st = .down ∧ 1 < s.dim (l / 2) ∧ s.inBlock ctx (s.nbrDev l) then s.uncovered 0x14 l [ctx] else s) s
  if s.flash.code17 then s.uncovered 0x17 0 [ctx] else s

/-- Contexts with steps on this module (R387). -/
def State.stepCtxs (s : State) : List Nat := allCtx.filter s.stepsOn

/-- Contexts with an outstanding atomic to or from a peer that `p` selects: one sent and not answered, or one answered here
whose entry is not yet freed (R353, R387; DEDUCED, log 37: until then the answer is not known to have arrived). -/
def State.atomCtxs (s : State) (p : Nat → Bool) : List Nat :=
  allCtx.filter (fun c => s.fab.atoms.any (fun a => p a.dest && a.pkt.ctx == c) ||
    s.fab.resp.any (fun e => p e.src && e.ctx == c))

end Sys2Proof.Machine
end

