-- ==== Sys2Proof/Machine/Flits.lean ====
section
/-!
DEFINITION. The flit and its header (R156, R157), LANE_CTRL and TIME payloads (R164, R178), packets as flits (R158),
and what every received flit passes through: the checks of R157 and R161, the release pointer and the credits (R159,
R160).
Choices and readings that the model fixes here: log 24.
-/

namespace Sys2Proof.Machine

/-! Fields of a received flit. -/

def flType (raw : List Byte) : Nat := bytesField raw 0 4
def flVc (raw : List Byte) : Nat := bytesField raw 4 4
def flDl (raw : List Byte) : Bool := bytesField raw 8 1 == 1
def flSop (raw : List Byte) : Bool := bytesField raw 9 1 == 1
def flEop (raw : List Byte) : Bool := bytesField raw 10 1 == 1
def flValid (raw : List Byte) : Nat := bytesField raw 11 8
def flSeq (raw : List Byte) : Nat := bytesField raw 19 16
def flAck (raw : List Byte) : Nat := bytesField raw 35 16
def flCrClass (raw : List Byte) : Nat := bytesField raw 51 5
def flCrCount (raw : List Byte) : Nat := bytesField raw 56 6
def flPayload (raw : List Byte) : List Byte := (raw.drop 8).take 244

/-- The CRC of a flit covers bytes 0x00 to 0xFB (R156). -/
def flCrcOk (raw : List Byte) : Bool := raw.length == 256 && crc32c (raw.take 252) == leNat (raw.drop 252)

/-- A flit that R157 discards: a reserved FTYPE or VC, or EOP = 0 with a VALID that is not 244. -/
def flBad (raw : List Byte) : Bool :=
  decide (6 ≤ flType raw) || decide (12 ≤ flVc raw) || (!flEop raw && flValid raw != 244)

/-- A whole flit with its CRC (R156). -/
def flit (hdr : Nat) (payload : List Byte) : List Byte :=
  let b := toLE 8 hdr ++ padTo 244 payload
  b ++ toLE 4 (crc32c b)

/-- Header fields but ACK and the credits. -/
def flitHdr (ftype vc : Nat) (dl sop eop : Bool) (valid seq : Nat) : Nat :=
  ftype + vc * 16 + ofBool dl * 2 ^ 8 + ofBool sop * 2 ^ 9 + ofBool eop * 2 ^ 10 + valid * 2 ^ 11 + seq * 2 ^ 19

/-- Sends one flit on the wire with the release pointer and at most 63 credits of one class (R156, R159, R160). -/
def Link.put (x : Link) (hdr : Nat) (payload : List Byte) : Link :=
  match x.owed with
  | [] => { x with wire := x.wire ++ [flit (hdr + x.ackPtr * 2 ^ 35 + 31 * 2 ^ 51) payload] }
  | (c, n) :: _ =>
    { x with
      owed := tset 0 x.owed c (n - 63)
      wire := x.wire ++ [flit (hdr + x.ackPtr * 2 ^ 35 + c * 2 ^ 51 + min n 63 * 2 ^ 56) payload] }

/-- Queues a flit that travels ahead of DATA flits: its FTYPE and payload (R164). -/
def Link.queue (x : Link) (ftype : Nat) (payload : List Byte) : Link :=
  { x with ctl := x.ctl ++ [BitVec.ofNat 8 ftype :: payload] }

/-- `a` comes before `b` among sequence numbers modulo 65,536. -/
def seq16Before (a b : Nat) : Bool := decide (0 < (b + 65536 - a) % 65536) && decide ((b + 65536 - a) % 65536 < 32768)

/-! LANE_CTRL messages (R164). -/

/-- Payload of a LANE_CTRL message. -/
def LaneMsg.bytes (m : LaneMsg) : List Byte :=
  mkBody 16 [(0, 8, m.msg), (8, 8, m.seq), (16, 16, m.device), (32, 3, m.link), (40, 5, m.cfgWidth), (48, 5, m.width),
    (64, 20, m.healthy), (96, 5, m.lane), (101, 5, m.spare), (106, 10, m.atRound)]

/-- The message of a LANE_CTRL payload. -/
def LaneMsg.of (b : List Byte) : LaneMsg :=
  let f := bytesField b
  { msg := f 0 8
    seq := f 8 8
    device := f 16 16
    link := f 32 3
    cfgWidth := f 40 5
    width := f 48 5
    healthy := f 64 20
    lane := f 96 5
    spare := f 101 5
    atRound := f 106 10 }

/-! Packets as flits (R158). -/

/-- Routing header and the bytes that follow it. -/
def pktBytes (p : Packet) : List Byte :=
  let n := ceilDiv (8 + p.body.length) 244
  toLE 8 (p.dest + p.src * 2 ^ 16 + p.dir * 2 ^ 32 + p.hops * 2 ^ 35 + p.ctx * 2 ^ 42 + (n - 1) * 2 ^ 46 +
    p.rsv % 2 ^ 13 * 2 ^ 51) ++ p.body

/-- Flits of a packet. -/
def pktFlits (p : Packet) : Nat := ceilDiv (8 + p.body.length) 244

/-- The packet that a virtual channel, a dateline class and payload bytes spell. -/
def packetOf (vc : Nat) (dl : Bool) (b : List Byte) : Packet :=
  let f := bytesField b
  { vc := vc
    dl := dl
    dest := f 0 16
    src := f 16 16
    dir := f 32 3
    hops := f 35 7
    ctx := f 42 4
    rsv := f 51 13
    body := b.drop 8 }

/-- The flits of the first packet of a virtual channel in a receive buffer, once its last flit is there. -/
def vcPacket (rx : List BufFlit) (vc : Nat) : Option (List BufFlit) :=
  let fs := rx.filter (fun f => f.vc == vc)
  match findIdx (·.eop) fs with
  | some i => some (fs.take (i + 1))
  | none => none

/-- The packet that flits spell. -/
def packetFrom (fs : List BufFlit) : Packet :=
  match fs with
  | f :: _ => packetOf f.vc f.dl (fs.flatMap (·.data))
  | [] => packetOf 0 false []

/-- The first whole packet of a receive buffer, as its flits; one whose flit awaits its RESEND waits (R161). -/
def wholePacket (parity : Option Nat) (rx : List BufFlit) : Option (List BufFlit) :=
  (((rx.map (·.vc)).eraseDups).filterMap (vcPacket rx)).find? (fun fs => !fs.any (fun f => some f.seq == parity))

/-- Takes flits out of a receive buffer. -/
def dropFlits (rx fs : List BufFlit) : List BufFlit := rx.filter (fun f => !fs.any (fun g => g.seq == f.seq))

/-- The whole packets of a receive buffer, at most `n`. -/
def wholePackets (rx : List BufFlit) : Nat → List Packet
  | 0 => []
  | n + 1 =>
    match wholePacket none rx with
    | some fs => packetFrom fs :: wholePackets (dropFlits rx fs) n
    | none => []

/-! What every received flit passes through. -/

/-- Counts an event in one of the four counts of LINK_ERR (R441): 0 CRC failures, 1 uncorrectable codewords, 2 parity
RESENDs, 3 flits discarded. -/
def State.linkErr (s : State) (l k : Nat) : State :=
  s.modOv (linkErrId + l) (fun v => setBits v (32 * k) 32 (satAdd 32 (bits v (32 * k) 32) 1))

/-- A link that carries traffic (R162). -/
def Link.up (x : Link) : Bool := x.st == .active || x.st == .degraded

/-- NAK with the SEQ expected (R161). -/
def Link.nak (x : Link) : Link := { x with nakOpen := true }.queue 2 (toLE 2 x.rxSeq)

/-- A flit fails its CRC: NAK, unless one is open already (R161). -/
def Link.crcFail (x : Link) : Link := if x.up && !x.nakOpen then x.nak else x

/-- Credits in use after `n` of class `c` have come back: what a class does not hold is the shared pool's, because the
receiver attributes a flit without knowing which of its returns the sender had seen (log 24). -/
def creditBack (used : Tbl Nat) (c n : Nat) : Tbl Nat :=
  let own := min n (tget 0 used c)
  let t := tset 0 used c (tget 0 used c - own)
  tset 0 t 24 (tget 0 t 24 - (n - own))

/-- Release pointer and credits of a good flit, also while the link trains, because a retrain loses neither (R159, R160,
R165, R166). -/
def Link.header (x : Link) (raw : List Byte) : Link :=
  let keep := fun (q : Nat) => !seq16Before q (flAck raw)
  { x with
    retry := x.retry.filter (fun f => keep f.seq)
    again := x.again.filter keep
    used := if flCrClass raw ≤ 24 then creditBack x.used (flCrClass raw) (flCrCount raw) else x.used }

/-- The link is looped to itself (R467). -/
def State.looped (s : State) (l : Nat) : Bool := s.ov (linkLoopbackId + l) == 1

/-- A flit enters the receiver of link `l`. Faulty flits are counted and answered by R157 and R161; a good flit of FTYPE `want` has
the effect `f`; a good flit of another type is another command's. -/
def State.flitCore (l want : Nat) (raw : List Byte) (fecOk : Bool) (f : State → State) (s : State) : State :=
  let x := s.link l
  if x.st = .down ∨ x.st = .miscabled then s
  else if fecOk = false then (s.setLink l x.crcFail).linkErr l 1
  else if flCrcOk raw = false then (s.setLink l x.crcFail).linkErr l 0
  else if flBad raw then (s.setLink l x.crcFail).linkErr l 3
  else if flType raw = want then f (s.setLink l (x.header raw))
  else s

/-- A flit arrives from the fibre of link `l`; a looped link receives its own flits alone (R467). -/
def State.flitIn (l want : Nat) (raw : List Byte) (fecOk : Bool) (f : State → State) (s : State) : State :=
  if s.looped l then s else s.flitCore l want raw fecOk f

end Sys2Proof.Machine
end

