-- ==== Sys2Proof/WellFormed.lean ====
section
/-!
DEFINITION. Which operands name a part of the module: contexts 0 to 15 (R8), links 0 to 5, dies 0 to 3, logical cores
0 to 255 (R11, R12), stacks, laser sources, lanes, rails and packets whose fields fit their widths (R158); and the check
of a whole command.
-/

namespace Sys2Proof

/-- A context number (R8). -/
def ctxOk (n : Nat) : Bool := decide (n < 16)
/-- An optical link (R151). -/
def linkOk (n : Nat) : Bool := decide (n < 6)
/-- A compute die (R11). -/
def dieOk (n : Nat) : Bool := decide (n < 4)
/-- A logical core (R12). -/
def coreOk (n : Nat) : Bool := decide (n < 256)
/-- A thermal and ageing unit: CD0 to CD3 or the hub (R397). -/
def unitOk (n : Nat) : Bool := decide (n < 5)
/-- A router input port (R18). -/
def portOk (n : Nat) : Bool := decide (n < 13)
/-- An accepted tile of a core, by its place in acceptance order (R96). -/
def tileOk (n : Nat) : Bool := decide (n < 4)
/-- A buffer class of the urn (R310). -/
def classOk (n : Nat) : Bool := decide (n < 8)
/-- A master class (R406). -/
def masterOk (n : Nat) : Bool := decide (n < 4)
/-- A mailbox (R461). -/
def mbxOk (n : Nat) : Bool := decide (n < 2)
/-- A physical lane of a direction (R152). -/
def laneOk (n : Nat) : Bool := decide (n < 20)
/-- A wavelength (R152). -/
def waveOk (n : Nat) : Bool := decide (n < 4)
/-- A laser source: one per wavelength and the spare (R169). -/
def sourceOk (n : Nat) : Bool := decide (n < 5)

/-- The fields of a packet fit their widths (R158), its virtual channel exists (R16) and its body fits a packet of
32 flits. -/
def Packet.wf (p : Packet) : Bool :=
  decide (p.vc < 12) && decide (p.dest < 65536) && decide (p.src < 65536) && decide (p.dir < 8) &&
    decide (p.hops < 128) && ctxOk p.ctx && decide (p.rsv < 65536) && decide (p.body.length ≤ 7800)

/-- The packet of a peer's request is well-formed (R158). -/
def Access.wf (q : Access) : Bool := q.pkt.wf

/-- The header fields of a management request fit their widths (R409). -/
def Req.wf (r : Req) : Bool :=
  masterOk r.cls && decide (r.session < 2 ^ 32) && decide (r.xid < 2 ^ 32) && decide (r.epoch < 2 ^ 32) &&
    decide (r.dest < 65536) &&
    match r.transport with
    | .mailbox m => mbxOk m
    | .vc0 src => decide (src < 65536)
    | .tray => true

/-- The issuer of a sync or urn command names a context. -/
def CmdSrc.wf : CmdSrc → Bool
  | .page c => ctxOk c
  | .mgmt r c => r.wf && ctxOk c

/-- The rail of a loss exists (R25). -/
def Rail.wf : Rail → Bool
  | .core d => dieOk d
  | .stack n => dieOk n
  | _ => true

/-- There are 15 VFs, BAR2 has a size of 1 GiB to 256 GiB, and an MSI-X table holds 2,048 vectors of the PF or 1 of a VF
(R453, R454). -/
def PcieLink.wf (h : PcieLink) : Bool :=
  decide (h.vfs < 2 ^ 15) &&
    h.msix.all (fun v => decide (v.fn < 16) && decide (v.vector < (if v.fn = 0 then 2048 else 1)) &&
      decide (v.entry < 2 ^ 128)) &&
    match h.bar2 with
    | some b => decide (30 ≤ b) && decide (b ≤ 38)
    | none => true

/-- The rate is 64, 32 or 16 GT/s, 64 GT/s in FLIT mode only, and the width 16, 8 or 4 lanes (R453). -/
def pcieRateOk (gen width : Nat) (flit : Bool) : Bool :=
  (gen == 4 || gen == 5 || (gen == 6 && flit)) && (width == 16 || width == 8 || width == 4)

/-- A stage fails at one of the rows of R466 that its command ends, under a flag that SERVICE_FLAGS has (R403). -/
def StageEnd.within (lo hi : Nat) : StageEnd → Bool
  | .passed => true
  | .failed row flag => decide (lo ≤ row) && decide (row ≤ hi) && match flag with
    | some b => decide (b < 13)
    | none => true

/-- A host access window exists (R457). -/
def HostWin.wf : HostWin → Bool
  | .pf => true
  | .vf n => decide (0 < n) && decide (n < 16)

/-- A reset asked for by a request has its header in range; a reset by a pin or a host function carries none. -/
def optReqOk : Option Req → Bool
  | some r => r.wf
  | none => true

/-- The operands of a command name parts that the module has, within the widths of R8 to R18, R152, R158 and R409. -/
def Instr.wf : Instr → Bool
  | .mgmtSegmentReceive _ _ => true
  | .mgmtMessageDiscard _ _ => true
  | .mgmtVc0Receive p => p.wf
  | .mbxDoorbell m _ => mbxOk m
  | .hello r => r.wf
  | .claim r _ _ _ => r.wf
  | .renew r => r.wf
  | .release r => r.wf
  | .handover r _ => r.wf
  | .close r => r.wf
  | .read r _ _ _ => r.wf
  | .write r _ _ _ => r.wf
  | .describe r _ => r.wf
  | .mgmtPost r _ _ _ => r.wf
  | .sessionLapse cls => masterOk cls
  | .leaseExpiry => true
  | .handoverLapse => true
  | .authLockExpiry cls => masterOk cls
  | .apply r area => decide (area < 16) && r.wf
  | .discard r area => decide (area < 16) && r.wf
  | .protDrainDone => true
  | .fwImageBlockWrite r _ _ => r.wf
  | .fwActivate r _ => r.wf
  | .bootVerifyDone => true
  | .stepStart r ctx _ => ctxOk ctx && r.wf
  | .ftSet r _ => r.wf
  | .permuteGo r ctx _ => ctxOk ctx && r.wf
  | .kettleRestart r _ => r.wf
  | .replanCtrl r _ => r.wf
  | .serviceAck r _ => r.wf
  | .selfTest r _ => r.wf
  | .idleClear r _ => r.wf
  | .pruneExcessCountClear r ctx _ => ctxOk ctx && r.wf
  | .rw1cFlagClear r _ _ => r.wf
  | .moduleReset src => optReqOk src
  | .mainReset r => r.wf
  | .computeReset r => r.wf
  | .contextReset src ctx => ctxOk ctx && optReqOk src
  | .hostReset => true
  | .sqTailWrite ctx _ => ctxOk ctx
  | .sqEntryTake ctx _ _ => ctxOk ctx
  | .sqListFullRetry ctx => ctxOk ctx
  | .intStatusClear ctx _ => ctxOk ctx
  | .intMaskWrite ctx _ => ctxOk ctx
  | .hostRegisterWrite _ _ => true
  | .hostMemoryRead win _ n _ => win.wf && decide (n ≤ 4096)
  | .hostMemoryWrite win _ bytes _ => win.wf && decide (bytes.length ≤ 512)
  | .objectWindowWrite _ _ => true
  | .powerOn => true
  | .caddyReady => true
  | .mainSequenceStart => true
  | .railsUp e => e.within 2 2
  | .coreSelfTestDone _ e => e.within 3 4
  | .gddr7TrainingDone _ e => e.within 5 5
  | .memoryZeroed e => e.within 5 5
  | .mainReady e => e.within 6 7
  | .refclkLoss => true
  | .powerEstimate _ => true
  | .calibration _ _ => true
  | .phaseEnergyUpdate => true
  | .controlTick => true
  | .opChangeDone die => dieOk die
  | .forcedIdleFrame => true
  | .forcedIdleQuantumStart core => coreOk core
  | .forcedIdleQuantumEnd core => coreOk core
  | .paceProbeStart => true
  | .paceProbeEnd => true
  | .droopDetect supply => dieOk supply.die
  | .droopStretchEnd supply _ => dieOk supply.die
  | .droopLimitExpiry die => dieOk die
  | .thermalSample _ => true
  | .powerBrakeAssert => true
  | .powerBrakeDeassert => true
  | .coolantOkLow => true
  | .stackTempSample stack _ => dieOk stack
  | .gddrTempRead _ => true
  | .gddr7Realign => true
  | .gddr7DeviceLost => true
  | .scrubRead _ _ => true
  | .granuleRetireDone => true
  | .journalWriteDone => true
  | .coreFailureDetect core => coreOk core
  | .watchdogExpiry core => coreOk core
  | .spareCoreReady die => dieOk die
  | .railPhaseLoss rail => rail.wf
  | .mgmtTakeover => true
  | .m1Failure => true
  | .powerLoss _ => true
  | .ringOscSample unit counts => unitOk unit && decide (counts.length ≤ 48)
  | .criticalPathSample unit vmin => unitOk unit && decide (vmin.length ≤ 16)
  | .laserBiasSample link ratios => linkOk link && decide (ratios.length ≤ 5)
  | .retentionTest stack channel _ => dieOk stack && decide (channel < 64)
  | .poweredHourTick => true
  | .lightArrival link => linkOk link
  | .laneLockDone link _ => linkOk link
  | .ident link _ => linkOk link
  | .widthSet link _ => linkOk link
  | .widthAck link _ => linkOk link
  | .spareReq link _ => linkOk link
  | .spareAck link _ => linkOk link
  | .laneCtrlResend link => linkOk link
  | .atRoundChange link _ => linkOk link
  | .linkDown link => linkOk link
  | .laneFailure link lane => linkOk link && laneOk lane
  | .wavelengthTimeout link wave => linkOk link && waveOk wave
  | .laserFailure link source => linkOk link && sourceOk source
  | .laserSpareLocked link => linkOk link
  | .dataFlitReceive link _ _ => linkOk link
  | .idleFlitReceive link _ => linkOk link
  | .nak link _ => linkOk link
  | .resend link _ => linkOk link
  | .nakRepeat link => linkOk link
  | .routerParityError link => linkOk link
  | .flitTransmit link => linkOk link
  | .packetRoute port => portOk port
  | .faultNotice p => p.wf
  | .timeExchangeStart link => linkOk link
  | .timeFlitReceive link _ => linkOk link
  | .ftParentReselect => true
  | .ftHoldoverEntry => true
  | .signal src _ => src.wf
  | .takeNb src _ => src.wf
  | .syncRead src _ => src.wf
  | .set src _ => src.wf
  | .arrive src _ => src.wf
  | .barrierInit src _ => src.wf
  | .remoteSyncReceive p => p.wf
  | .coreSleep core => coreOk core
  | .coreWake core => coreOk core
  | .matmul core => coreOk core
  | .vector core => coreOk core
  | .copy core => coreOk core
  | .emit core => coreOk core
  | .update core => coreOk core
  | .send core => coreOk core
  | .post core => coreOk core
  | .postRetry core => coreOk core
  | .overflowMove die => dieOk die
  | .chainMissing die => dieOk die
  | .tileComputeDone core idx _ => coreOk core && tileOk idx
  | .tileEpilogueDone core idx _ => coreOk core && tileOk idx
  | .tileStoresDone core idx => coreOk core && tileOk idx
  | .ctxSliceExpiry core _ => coreOk core
  | .contextSwitchDone core => coreOk core
  | .exchAdmit => true
  | .dispatch => true
  | .exchReturn => true
  | .combine => true
  | .openBwd => true
  | .exchCount p => p.wf
  | .exchGrant p => p.wf
  | .exchAllot p => p.wf
  | .exchRow p => p.wf
  | .exchReturnRow p => p.wf
  | .exchDeadlineExpiry ctx _ _ => ctxOk ctx
  | .stepVote ctx => ctxOk ctx
  | .vote p => p.wf
  | .commitDeadlineExpiry ctx => ctxOk ctx
  | .commit p => p.wf
  | .replay p => p.wf
  | .halt p => p.wf
  | .decisionTimeout ctx => ctxOk ctx
  | .normSummerDone ctx => ctxOk ctx
  | .emitChunkHandoff => true
  | .redChunkReceive p => p.wf
  | .reduceDeadlineExpiry ctx _ _ => ctxOk ctx
  | .permuteDrainRound ctx => ctxOk ctx
  | .countReq p => p.wf
  | .permuteCount p => p.wf
  | .phase1Go p => p.wf
  | .permutePhase1CopyDone ctx => ctxOk ctx
  | .phase1Done p => p.wf
  | .phase2Go p => p.wf
  | .permutePhase2StoresAcked ctx => ctxOk ctx
  | .phase2Done p => p.wf
  | .permuteDone p => p.wf
  | .permuteFailed p => p.wf
  | .entryInvalid p => p.wf
  | .permuteStageDeadline ctx => ctxOk ctx
  | .alloc src _ => src.wf
  | .free src _ => src.wf
  | .query src _ => src.wf
  | .creditReq p => p.wf
  | .urnRequestServe ctx => ctxOk ctx
  | .urnGrant p => p.wf
  | .urnData p => p.wf
  | .urnListRepairDone cls => classOk cls
  | .fabRead ctx => ctxOk ctx
  | .fabWrite ctx => ctxOk ctx
  | .fabFlaggedWrite ctx => ctxOk ctx
  | .fabAtomic ctx => ctxOk ctx
  | .fabInvalidate ctx => ctxOk ctx
  | .flaggedWriteSend ctx => ctxOk ctx
  | .targetRead p _ => p.wf
  | .targetWrite p _ => p.wf
  | .targetFlaggedWrite p => p.wf
  | .targetAtomic p => p.wf
  | .atomicCombined p => p.wf
  | .atomicAck p => p.wf
  | .targetInvalidate p => p.wf
  | .inv p => p.wf
  | .invAck p => p.wf
  | .readData p => p.wf
  | .writeAck p => p.wf
  | .atomicResp p => p.wf
  | .invDone p => p.wf
  | .atomicRetryTimeout _ _ => true
  | .atomicBusyRetry _ _ => true
  | .atomicAckTimer _ => true
  | .atomicEntryExpiry => true
  | .hotRateTick => true
  | .fabTimeout _ => true
  | .telemetrySample idle phases => idle.all (fun g => decide (g.core < 256)) && decide (phases.length ≤ 16)
  | .wavelengthRelock link wave => linkOk link && waveOk wave
  | .ftRefLoss => true
  | .orefLoss => true
  | .plcaBeaconTimeout => true
  | .pcieLinkTrainingDone _ _ h => h.wf
  | .holdUpExhausted => true

end Sys2Proof
end

