-- ==== Sys2Proof/Machine/Links.lean ====
section
/-!
DEFINITION. Link states, training and width (R162 to R166), lane and laser sparing (R167 to R169), notices of a lost
path (R388), and the commands of links that change them.
Choices and readings that the model fixes here: log 24.
-/

namespace Sys2Proof.Machine

/-- Codeword rounds of a link's transmit direction, counted on from the one of clock 0 (R153): one lasts 5,440 bits at
224 Gbit/s. -/
def State.rounds (s : State) (l : Nat) : Nat := (s.link l).round + s.clk * 224 / 5440

/-- The link is enabled: its axis has a neighbour, the main sequence has reached the locking of lasers, and the transmit
PLLs have OREF (R162, R466, R488). -/
def State.linkEnabled (s : State) (l : Nat) : Bool :=
  decide (1 < s.dim (l / 2)) && s.power.rails && decide (5 ≤ s.power.seqRow) && s.pins.oref

/-- Configured width (R163). -/
def State.cfgWidth (s : State) (l : Nat) : Nat := s.ov (linkWidthId + l)

/-- Physical lanes of a mask of 20 bits. -/
def lanes (v : Nat) : List Nat := (List.range 20).filter (bit v)

/-- The other lanes of a mask. -/
def lanesNot (v : Nat) : Nat := 0xFFFFF - v % 0x100000

/-- Physical lane of each logical lane after training: healthy data lanes in ascending order, then spare lanes (R152). -/
def laneMap (healthy w : Nat) : List Nat :=
  ((lanes healthy).filter (· < 16) ++ (lanes healthy).filter (16 ≤ ·)).take w

/-- Spares of a link of one kind that have been consumed, recorded or with their record waiting: unit within the link and
its spare (R27). Kinds 1 and 5 are receive and transmit lanes. -/
def State.spareLanes (s : State) (kind l : Nat) : List (Nat × Nat) :=
  let per := if kind = 2 then 5 else 20
  ((s.flash.spares ++ s.flash.queue.filterMap (fun r => match r with
    | .spare k u b => some (k, u, b)
    | _ => none)).filter (fun x => x.1 == kind && x.2.1 / per == l)).map (fun x => (x.2.1 % per, x.2.2))

/-- A mask of lanes without those whose places spares have taken for good (R27). -/
def withoutSpared (healthy : Nat) (used : List (Nat × Nat)) : Nat :=
  used.foldl (fun h u => setBits h u.1 1 0) (healthy % 2 ^ 20)

/-- Largest of 16, 8 and 4 that is at most `n`, 0 below 4 (R163 step 5). -/
def widthOf (n : Nat) : Nat := if 16 ≤ n then 16 else if 8 ≤ n then 8 else if 4 ≤ n then 4 else 0

/-- The width that both ends compute from the two IDENTs (R163 step 5, R164). -/
def State.agreedWidth (s : State) (l : Nat) : Nat :=
  let x := s.link l
  match x.peer with
  | some m => widthOf (min (min (s.cfgWidth l) m.cfgWidth) (min (lanes x.healthy).length (lanes m.healthy).length))
  | none => 0

/-! Notices (R388). -/

/-- One FAULT_NOTICE to the source of a packet in each millisecond. -/
def State.notice388 (s : State) (code : Nat) (p : Packet) : State :=
  let old := s.flash.notices.filter (fun n => decide (s.clk < n.2.2 + 1000000))
  if old.any (fun n => n.1 == p.src && n.2.1 == p.ctx) then s
  else
    (s.setFlash { s.flash with notices := old ++ [(p.src, p.ctx, s.clk)] }).send hubSelf 0 p.ctx p.src
      (mkBody 8 [(0, 8, 0x68), (8, 8, code), (16, 4, p.ctx)])

/-- Discards a packet routed to a link that carries none, counts it and tells its source. -/
def State.linkDrop (s : State) (l : Nat) (p : Packet) : State := (s.bump (linkDropCountId + l)).notice388 0x14 p

/-- Each later millisecond a packet that still waits at a link retraining after a fault draws its source another notice. -/
def State.waitNotices (s : State) : State :=
  allLinks.foldl (fun s l =>
    let x := s.link l
    if x.st = .training ∧ x.fault ≠ 0 then x.out.foldl (fun s o => s.notice388 x.fault o.pkt) s else s) s

/-! Retraining and loss. -/

/-- A link begins a training: what the last one agreed is forgotten; packets, sequence numbers and credits stay. -/
def Link.retrain (x : Link) (fault : Nat) : Link :=
  { x with
    st := .training
    width := 0
    healthy := 0
    fault := fault
    peer := none
    txChange := none
    rxChange := none
    txDone := false
    rxDone := false
    spareRx := []
    spareTx := []
    spareAckTx := []
    spareAckRx := []
    laneRx := []
    laneTx := []
    recent := []
    lostWaves := []
    waiting := []
    ctl := [] }

/-- Retrain after an uncovered loss (R166, R387 codes 0x12 and 0x13); sources whose packets wait are told (R388). -/
def State.linkRetrain (s : State) (l code : Nat) : State :=
  let s := s.modLink l (·.retrain code)
  let s := s.uncovered code l s.stepCtxs
  (s.link l).out.foldl (fun s o => s.notice388 code o.pkt) s

/-- A link goes DOWN: what it held is lost, and the laser sources stay as they are, one that is being tuned too. -/
def Link.fall (x : Link) : Link :=
  { Link.init with
    lasersFailed := x.lasersFailed
    laserTuning := x.laserTuning
    laserSpare := x.laserSpare
    failAt := x.failAt
    round := x.round
    msgSeq := x.msgSeq
    lastVc := x.lastVc
    wire := x.wire }

/-- A link goes DOWN (R162); leaving ACTIVE or DEGRADED latches code 0x14 (R387), and the packets that wait for it are
discarded (R388). Whole packets already received are still routed, one with a flit that still waits for its RESEND too
(DESIGN CHOICE log 24: the spec does not say). -/
def State.linkFall (s : State) (l : Nat) : State :=
  let x := s.link l
  if x.st = .down then s
  else
    let s := (wholePackets x.rx x.rx.length).foldl (fun s p => s.inject l p) (s.setLink l x.fall)
    let s := if x.up then s.uncovered 0x14 l s.stepCtxs else s
    x.out.foldl (fun s o => s.linkDrop l o.pkt) s

/-! LANE_CTRL messages. -/

/-- A message of this end with the fields that every one carries (R164). -/
def State.laneMsg (s : State) (l msg : Nat) : LaneMsg :=
  let x := s.link l
  { msg := msg
    seq := x.msgSeq
    device := s.me
    link := l
    cfgWidth := s.cfgWidth l
    width := 0
    healthy := if x.st = .training then x.healthy else lanesNot x.failRx
    lane := 0
    spare := 0
    atRound := 0 }

/-- Sends a message; one that expects an answer is kept until it comes (R164). -/
def State.laneSend (s : State) (l : Nat) (m : LaneMsg) : State :=
  s.modLink l (fun x =>
    { x.queue 5 m.bytes with
      msgSeq := (x.msgSeq + 1) % 256
      waiting := if m.msg = 1 ∨ m.msg = 2 ∨ m.msg = 4 then x.waiting ++ [m] else x.waiting })

/-- Sends an answer, with the number of the message that it answers. -/
def State.laneAnswer (s : State) (l : Nat) (m : LaneMsg) : State := s.modLink l (·.queue 5 m.bytes)

/-- Messages still waiting but those that `p` names, which are not sent again either. -/
def Link.settle (x : Link) (p : LaneMsg → Bool) : Link :=
  { x with
    waiting := x.waiting.filter (fun m => !p m)
    ctl := x.ctl.filter (fun c => !(leNat (c.take 1) == 5 && p (LaneMsg.of (c.drop 1)))) }

/-- The message of a LANE_CTRL flit has its effect where it is message `msg`; reserved messages are discarded and counted
(R164). -/
def State.laneDo (l msg : Nat) (raw : List Byte) (f : LaneMsg → State → State) (s : State) : State :=
  let m := LaneMsg.of (flPayload raw)
  if m.msg = 0 ∨ 5 < m.msg then s.linkErr l 3 else if m.msg = msg then f m s else s

/-- A LANE_CTRL flit of message `msg` arrives. -/
def State.laneIn (l msg : Nat) (raw : List Byte) (f : LaneMsg → State → State) (s : State) : State :=
  s.flitIn l 5 raw true (State.laneDo l msg raw f)

/-! Training. -/

/-- A failed source whose place no spare has taken, and no record names, is found again when the link comes up (R27): the
spare source is tuned to it. -/
def Link.findLaser (x : Link) (now : Nat) : Link :=
  match x.lasersFailed with
  | w :: _ =>
    if w = 4 ∨ x.lasersFailed.contains 4 ∨ x.laserTuning.isSome ∨ x.laserSpare.isSome then x
    else { x with
      laserTuning := some w
      failAt := tset 0 x.failAt (20 + w) now }
  | [] => x

/-- LIGHT_ARRIVAL: training begins on an enabled link (R162, R163). -/
def State.lightArrival (l : Nat) (s : State) : State :=
  let x := s.link l
  if x.st = .down ∧ s.linkEnabled l then
    s.setLink l { (x.retrain 0).findLaser (s.ftRead mgmtPs) with
      txLight := true
      rxLight := true }
  else s

/-- LANE_LOCK_DONE: steps 1 and 2 of R163; with at least 4 lanes locked, the IDENT exchange begins at width 4. A lane
whose spare has been consumed does not come back (R27). -/
def State.laneLockDone (l healthy : Nat) (s : State) : State :=
  let x := s.link l
  if x.st ≠ .training then s
  else
    let healthy := withoutSpared healthy (s.spareLanes 1 l)
    let s := s.setLink l { x with
      healthy := healthy
      laneRx := laneMap healthy 4
      failRx := lanesNot healthy }
    if (lanes healthy).length < 4 then s
    else (s.modLink l ({ · with width := 4 })).laneSend l (s.laneMsg l 1)

/-- The other end retrains for a committed change of its LINK_WIDTH, which is no fault (R165, R388): its IDENT names
another width than its last one. -/
def Link.peerWidth (x : Link) (m : LaneMsg) : Bool :=
  match x.peer with
  | some p => p.cfgWidth != m.cfgWidth
  | none => false

/-- IDENT (R163 steps 3 to 5, R164); the end with the lower ID sets the width that the two IDENTs now give. In a link that
carries traffic it shows that the other end retrains: after a lane loss, unless its LINK_WIDTH has changed (R165, R166, R387). -/
def State.identIn (l : Nat) (m : LaneMsg) (s : State) : State :=
  let x := s.link l
  if x.up then if x.peerWidth m then s.setLink l (x.retrain 0) else s.linkRetrain l 0x12
  else if x.healthy = 0 then s
  else
    let loop := s.looped l
    let asked := x.waiting.any (fun w => w.msg == 1)
    let s := s.setLink l { x.settle (fun w => w.msg == 1) with
      peer := some m
      nbr := m.device
      laneTx := laneMap m.healthy 4
      failTx := lanesNot m.healthy }
    if loop = false ∧ (m.device ≠ s.nbrDev l ∨ m.link ≠ (if l % 2 = 0 then l + 1 else l - 1)) then
      s.modLink l (fun y => { y.settle (fun _ => true) with
        st := .miscabled
        width := 0
        ctl := [] })
    else
      let s := if asked then s else s.laneAnswer l { s.laneMsg l 1 with seq := m.seq }
      let w := s.agreedWidth l
      if (loop ∨ s.me < m.device) ∧ 0 < w ∧ (s.link l).txChange.map (·.1) ≠ some w then
        (s.modLink l (fun y => { y.settle (fun m => m.msg == 2) with
          txChange := some (w, none)
          rxChange := none
          txDone := false
          rxDone := false })).laneSend l { s.laneMsg l 2 with width := w }
      else s

/-- WIDTH_ACK, or in loopback the end's own WIDTH_SET: both ends agree (R164). -/
def State.widthAgreed (l : Nat) (m : LaneMsg) (s : State) : State :=
  let x := s.link l
  if x.st = .training ∧ x.waiting.any (fun w => w.msg == 2 && w.seq == m.seq && w.width == m.width) = true then
    s.setLink l { x.settle (fun w => w.msg == 2) with rxChange := some (m.width, m.atRound) }
  else s

/-- WIDTH_SET (R164); a repeated one shows that its WIDTH_ACK was lost, also once the link is up at that width. -/
def State.widthSetIn (l : Nat) (m : LaneMsg) (s : State) : State :=
  let x := s.link l
  if x.up ∧ m.width = x.width ∧ s.looped l = false then
    s.laneAnswer l { s.laneMsg l 3 with
      seq := m.seq
      width := m.width }
  else if x.st ≠ .training then s
  else if s.looped l then s.widthAgreed l m
  else if 0 < m.width ∧ m.width = s.agreedWidth l then
    (s.setLink l { x with
      txChange := some (m.width, none)
      rxChange := some (m.width, m.atRound) }).laneAnswer l
      { s.laneMsg l 3 with
        seq := m.seq
        width := m.width }
  else
    let s := s.linkErr l 3
    if x.healthy = 0 then s else s.laneSend l (s.laneMsg l 1)

/-- Lanes lost below a width and the spare lanes that take their places after training (R152). -/
def spareMap (healthy w : Nat) : List (Nat × Nat) :=
  let data := (lanes healthy).filter (· < 16)
  let lost := (List.range 16).filter (fun p => !bit healthy p)
  (lost.zip ((lanes healthy).filter (16 ≤ ·))).take (w - data.length)

/-- Records the spare lanes of a direction that training has brought into use and that no record names (R27). -/
def State.journalLanes (s : State) (kind l : Nat) (ps : List (Nat × Nat)) : State :=
  (ps.filter (fun p => !(s.spareLanes kind l).any (fun u => u.2 == p.2))).foldl
    (fun s p => s.journal (.spare kind (l * 20 + p.1) p.2)) s

/-- What a link sends again when it carries traffic once more: every flit not released, and the RESEND of a slot that
still waits, because nothing is lost by a retrain (R161, R165, R166). -/
def Link.takeUp (x : Link) : Link :=
  let x : Link := { x with again := x.retry.map (·.seq) }
  match x.parity with
  | some q => x.queue 3 (toLE 2 q)
  | none => x

/-- Both directions have changed: the link carries traffic (R152, R162, R164 to R166, R403). -/
def State.trained (s : State) (l w : Nat) : State :=
  let x := s.link l
  let cfg := s.cfgWidth l
  let peer := match x.peer with
    | some m => m.cfgWidth
    | none => cfg
  let rx := spareMap x.healthy w
  let tx := spareMap (lanesNot x.failTx) w
  let s := s.setLink l { x.takeUp with
    st := if w = cfg ∧ w = peer then .active else .degraded
    width := w
    fault := 0
    laneRx := laneMap x.healthy w
    laneTx := laneMap (lanesNot x.failTx) w
    spareRx := rx
    spareTx := tx
    waiting := [] }
  let s := (s.journalLanes 1 l rx).journalLanes 5 l tx
  if w < cfg then s.service 2 else s

/-- AT_ROUND_CHANGE in training: a direction changes to the agreed width (R164), the receive direction once the other
end has named its round, the transmit direction once this end has. -/
def State.widthChange (s : State) (l : Nat) (rx : Bool) : State :=
  let x := s.link l
  let x := if rx then (match x.rxChange with
      | some _ => { x with rxDone := true }
      | none => x)
    else (match x.txChange with
      | some (_, some _) => { x with txDone := true }
      | _ => x)
  match x.rxChange with
  | some (w, _) => if x.rxDone ∧ x.txDone then (s.setLink l x).trained l w else s.setLink l x
  | none => s.setLink l x

/-- A spare lane takes the logical lane of the lane that it replaces (R152). -/
def swapLane (ls : List Nat) (lane spare : Nat) : List Nat := ls.map (fun p => if p = lane then spare else p)

/-- AT_ROUND_CHANGE in operation: the spare carries the logical lane (R168). -/
def State.spareChange (s : State) (l : Nat) (rx : Bool) : State :=
  let x := s.link l
  if rx then
    match x.spareAckRx with
    | (lane, spare, _) :: rest => s.setLink l { x with
        spareAckRx := rest
        laneRx := swapLane x.laneRx lane spare
        spareRx := x.spareRx ++ [(lane, spare)] }
    | [] => s
  else
    match x.spareAckTx with
    | (lane, spare, some _) :: rest => s.setLink l { x with
        spareAckTx := rest
        laneTx := swapLane x.laneTx lane spare
        spareTx := x.spareTx ++ [(lane, spare)] }
    | _ => s

/-- AT_ROUND_CHANGE (R164, R168). -/
def State.atRound (l : Nat) (rx : Bool) (s : State) : State :=
  if (s.link l).st = .training then s.widthChange l rx
  else if (s.link l).up then s.spareChange l rx
  else s

/-! Lane sparing. -/

/-- A spare lane of a direction can take a failed lane of its wavelength: it is sound, and among the lanes and the spares
that stand for them, or soon will, it is not (R27, R151, R168). -/
def spareFree (fail : Nat) (used : List (Nat × Nat)) (lane : Nat) : Bool :=
  let sp := 16 + lane % 4
  !bit fail sp && !used.any (fun u => u.2 == sp)

/-- SPARE_REQ at the transmitter of the failed lane (R168). -/
def State.spareReqIn (l : Nat) (m : LaneMsg) (s : State) : State :=
  let x := s.link l
  if x.up = false ∨ 16 ≤ m.lane then s
  else
    let sp := 16 + m.lane % 4
    let pend := x.spareAckTx.map (fun q => (q.1, q.2.1))
    let fail := x.failTx ||| 2 ^ m.lane ||| lanesNot m.healthy
    let known := (x.spareTx ++ pend).any (fun u => u.1 == m.lane)
    let answer := fun (s : State) => s.laneAnswer l { s.laneMsg l 5 with
      seq := m.seq
      lane := m.lane
      spare := sp }
    if known then answer (s.setLink l { x with failTx := fail })
    else if spareFree fail (x.spareTx ++ pend ++ s.spareLanes 5 l) m.lane then
      answer ((s.setLink l { x with
        failTx := fail
        spareAckTx := x.spareAckTx ++ [(m.lane, sp, none)] }).journal (.spare 5 (l * 20 + m.lane) sp))
    else s.linkRetrain l 0x12

/-- SPARE_ACK at the receiver (R168): the substitution is recorded, with the time at which the lane failed (R27, R392). -/
def State.spareAckIn (l : Nat) (m : LaneMsg) (s : State) : State :=
  let x := s.link l
  if x.up ∧ x.waiting.any (fun w => w.msg == 4 && w.lane == m.lane) = true then
    ((s.setLink l { x.settle (fun w => w.msg == 4 && w.lane == m.lane) with
      spareAckRx := x.spareAckRx ++ [(m.lane, m.spare, m.atRound)]
      }).coveredAt (tget 0 x.failAt m.lane) 1 (l * 20 + m.lane)).journal
      (.spare 1 (l * 20 + m.lane) m.spare)
  else s

/-- Lanes of a receive direction that carried a logical lane, failed more than 1 µs ago and have neither a spare, nor a
request for one, nor a lost wavelength to account for them. -/
def State.unspared (s : State) (l : Nat) : List Nat :=
  let x := s.link l
  ((x.recent.filter (fun r => decide (r.2 + 1000 ≤ s.clk))).map (·.1)).filter (fun p =>
    decide (p < 16) && x.laneRx.contains p && !x.waiting.any (fun w => w.msg == 4 && w.lane == p) &&
      !x.lostWaves.any (fun w => w.1 == p % 4) && !x.spareAckRx.any (fun q => q.1 == p))

/-- LANE_CTRL_RESEND: unanswered messages are sent again (R164); a lane of a wavelength whose spare is taken, and whose
wavelength lost no third lane within 1 µs, cannot be spared (R167, R168). -/
def State.laneResend (l : Nat) (s : State) : State :=
  let x := s.link l
  if x.up ∧ s.unspared l ≠ [] then s.linkRetrain l 0x12
  else s.setLink l { x with ctl := x.ctl ++ x.waiting.map (fun m => 5 :: m.bytes) }

/-- LANE_FAILURE at the receiver (R167 to R169). A lane that carries no logical lane needs no spare (R152). -/
def State.laneFail (l lane : Nat) (s : State) : State :=
  let x := s.link l
  let w := lane % 4
  if x.up = false ∨ bit x.failRx lane then s
  else
    let lost := x.lostWaves.any (fun y => y.1 == w)
    let recent := x.recent.filter (fun r => decide (s.clk < r.2 + 1000) || x.lostWaves.any (fun y => y.1 == r.1 % 4) ||
      (s.unspared l).contains r.1) ++ [(lane, s.clk)]
    let x := { x with
      failRx := x.failRx ||| 2 ^ lane
      failAt := tset 0 x.failAt lane (s.ftRead mgmtPs)
      recent := recent }
    let near := recent.filter (fun r => r.1 % 4 == w && decide (s.clk < r.2 + 1000))
    if lost then s.setLink l x
    else if 3 ≤ near.length then
      s.setLink l { x.settle (fun m => m.msg == 4 && m.lane % 4 == w) with lostWaves := x.lostWaves ++ [(w, s.clk)] }
    else if x.lostWaves ≠ [] ∨ x.laserTuning ≠ none then (s.setLink l x).linkRetrain l 0x13
    else if x.laneRx.contains lane = false then s.setLink l x
    else if 16 ≤ lane then (s.setLink l x).linkRetrain l 0x12
    else if spareFree x.failRx (x.spareRx ++ x.spareAckRx.map (fun q => (q.1, q.2.1)) ++ s.spareLanes 1 l) lane ∧
        x.waiting.any (fun m => m.msg == 4 && m.lane % 4 == w) = false then
      let s := s.setLink l x
      s.laneSend l { s.laneMsg l 4 with lane := lane }
    else if 2 ≤ near.length then s.setLink l x
    else (s.setLink l x).linkRetrain l 0x12

/-! Lost wavelengths and laser sources. -/

/-- WAVELENGTH_TIMEOUT (R167). -/
def State.waveTimeout (l wave : Nat) (s : State) : State :=
  let x := s.link l
  if x.up ∧ x.lostWaves.any (fun y => y.1 == wave && decide (y.2 + 20000 ≤ s.clk)) = true then s.linkRetrain l 0x12 else s

/-- WAVELENGTH_RELOCK: the lanes of the wavelength are healthy again (R169). -/
def State.waveRelock (l wave : Nat) (s : State) : State :=
  let x := s.link l
  if x.up ∧ x.lostWaves.any (fun y => y.1 == wave) = true then
    let back := (x.recent.filter (fun r => r.1 % 4 == wave)).map (·.1)
    s.setLink l { x with
      lostWaves := x.lostWaves.filter (fun y => y.1 != wave)
      recent := x.recent.filter (fun r => r.1 % 4 != wave)
      failRx := back.foldl (fun v p => setBits v p 1 0) x.failRx }
  else s

/-- LASER_FAILURE at the transmitter (R169): source 4 is tuned to the lost wavelength, or a second loss retrains. -/
def State.laserFail (l source : Nat) (s : State) : State :=
  let x := s.link l
  if x.lasersFailed.contains source then s
  else
    let s := s.setLink l { x with
      lasersFailed := x.lasersFailed ++ [source]
      failAt := tset 0 x.failAt (20 + source) (s.ftRead mgmtPs) }
    let used := x.laserTuning.isSome || x.laserSpare.isSome
    if source = 4 then if used ∧ x.up then s.linkRetrain l 0x13 else s
    else if x.lasersFailed = [] ∧ used = false then s.modLink l ({ · with laserTuning := some source })
    else if x.up then s.linkRetrain l 0x13 else s

/-- LASER_SPARE_LOCKED: source 4 stands in the failed source's place (R169, R27, R403), also where the link has gone DOWN
meanwhile; the log record names the time of the failure (R392). -/
def State.laserLocked (l : Nat) (s : State) : State :=
  let x := s.link l
  match x.laserTuning with
  | some w =>
    (((s.setLink l { x with
      laserTuning := none
      laserSpare := some w }).coveredAt (tget 0 x.failAt (20 + w)) 2 (l * 5 + w)).journal (.spare 2 (l * 5 + w) 4)).service 3
  | none => s

/-! The commands. -/

/-- LIGHT_ARRIVAL (R163). -/
def execLightArrival (link : Nat) (s : State) : Result := need (linkOk link) (.next (s.lightArrival link))

/-- LANE_LOCK_DONE (R163). -/
def execLaneLockDone (link healthy : Nat) (s : State) : Result := need (linkOk link) (.next (s.laneLockDone link healthy))

/-- IDENT (R164). -/
def execIdent (link : Nat) (raw : List Byte) (s : State) : Result :=
  need (linkOk link) (.next (s.laneIn link 1 raw (State.identIn link)))

/-- WIDTH_SET (R164). -/
def execWidthSet (link : Nat) (raw : List Byte) (s : State) : Result :=
  need (linkOk link) (.next (s.laneIn link 2 raw (State.widthSetIn link)))

/-- WIDTH_ACK (R164). -/
def execWidthAck (link : Nat) (raw : List Byte) (s : State) : Result :=
  need (linkOk link) (.next (s.laneIn link 3 raw (State.widthAgreed link)))

/-- SPARE_REQ (R168). -/
def execSpareReq (link : Nat) (raw : List Byte) (s : State) : Result :=
  need (linkOk link) (.next (s.laneIn link 4 raw (State.spareReqIn link)))

/-- SPARE_ACK (R168). -/
def execSpareAck (link : Nat) (raw : List Byte) (s : State) : Result :=
  need (linkOk link) (.next (s.laneIn link 5 raw (State.spareAckIn link)))

/-- LANE_CTRL_RESEND (R164). -/
def execLaneCtrlResend (link : Nat) (s : State) : Result := need (linkOk link) (.next (s.laneResend link))

/-- AT_ROUND_CHANGE (R164, R168). -/
def execAtRoundChange (link : Nat) (rx : Bool) (s : State) : Result := need (linkOk link) (.next (s.atRound link rx))

/-- LINK_DOWN (R162, R387). -/
def execLinkDown (link : Nat) (s : State) : Result := need (linkOk link) (.next (s.linkFall link))

/-- LANE_FAILURE (R167). -/
def execLaneFailure (link lane : Nat) (s : State) : Result :=
  need (linkOk link && laneOk lane) (.next (s.laneFail link lane))

/-- WAVELENGTH_TIMEOUT (R167). -/
def execWavelengthTimeout (link wave : Nat) (s : State) : Result :=
  need (linkOk link && waveOk wave) (.next (s.waveTimeout link wave))

/-- WAVELENGTH_RELOCK (R169). -/
def execWavelengthRelock (link wave : Nat) (s : State) : Result :=
  need (linkOk link && waveOk wave) (.next (s.waveRelock link wave))

/-- LASER_FAILURE (R169). -/
def execLaserFailure (link source : Nat) (s : State) : Result :=
  need (linkOk link && sourceOk source) (.next (s.laserFail link source))

/-- LASER_SPARE_LOCKED (R169). -/
def execLaserSpareLocked (link : Nat) (s : State) : Result := need (linkOk link) (.next (s.laserLocked link))

end Sys2Proof.Machine
end

