-- ==== Sys2Proof/Machine/Num.lean ====
section
/-!
DEFINITION. Number formats (R28 to R50): format codes, decoding, the conversion steps of R42 and R43, block scales
(R39 to R41), stochastic rounding (R47, R48, R95) and exact arithmetic (R45).
-/

namespace Sys2Proof.Machine

/-- The formats of R28 that name a value; S8 scales have their own functions. -/
inductive Fmt
  | f32 | f16 | g16 | f8e5 | f8e4 | f4 | int8 | int4 | a48 | a48i
deriving DecidableEq, Repr

/-- Format of a 4-bit format code; S8 (0xA) and the reserved codes name none (R28, R29). -/
def fmtOf : Nat → Option Fmt
  | 0 => some .f32 | 1 => some .f16 | 2 => some .g16 | 3 => some .f8e5 | 4 => some .f8e4 | 5 => some .f4
  | 6 => some .int8 | 7 => some .int4 | 8 => some .a48 | 9 => some .a48i | _ => none

/-- The 4-bit code of a format (R28). -/
def fmtCode : Fmt → Nat
  | .f32 => 0 | .f16 => 1 | .g16 => 2 | .f8e5 => 3 | .f8e4 => 4 | .f4 => 5
  | .int8 => 6 | .int4 => 7 | .a48 => 8 | .a48i => 9

/-- Width in bits (R28). -/
def fmtWidth : Fmt → Nat
  | .f32 => 32 | .f16 => 16 | .g16 => 16 | .f8e5 => 8 | .f8e4 => 8 | .f4 => 4
  | .int8 => 8 | .int4 => 4 | .a48 => 48 | .a48i => 48

/-- Integer formats (R36). -/
def fmtIsInt : Fmt → Bool
  | .int8 => true | .int4 => true | .a48i => true | _ => false

/-- Formats that may carry S8 scales (R39). -/
def fmtScalable : Fmt → Bool
  | .f8e5 => true | .f8e4 => true | .f4 => true | .int8 => true | .int4 => true | _ => false

/-- Layout of a floating-point format (R31): exponent and mantissa widths, bias, whether subnormals are kept,
whether the format has infinities, and its largest finite value `maxSig * 2^(maxExp - man)`. -/
structure FloatSpec where
  exp : Nat
  man : Nat
  bias : Nat
  keepsSub : Bool
  hasInf : Bool
  maxExp : Int
  maxSig : Nat
deriving DecidableEq, Repr

/-- The table of R31; the integer formats take the A48 row, which nothing reads for them. -/
def floatSpec : Fmt → FloatSpec
  | .f32 => ⟨8, 23, 127, false, true, 127, 2 ^ 24 - 1⟩
  | .f16 => ⟨5, 10, 15, false, true, 15, 2 ^ 11 - 1⟩
  | .g16 => ⟨6, 9, 31, false, true, 31, 2 ^ 10 - 1⟩
  | .f8e5 => ⟨5, 2, 15, true, true, 15, 7⟩
  | .f8e4 => ⟨4, 3, 7, true, false, 8, 14⟩
  | .f4 => ⟨2, 1, 1, true, false, 2, 3⟩
  | _ => ⟨10, 37, 511, false, true, 511, 2 ^ 38 - 1⟩

/-- An exact value: NaN, a signed infinity, or the signed dyadic number `mag * 2^exp` (zeros keep a sign). -/
inductive Fv
  | nan
  | inf (neg : Bool)
  | fin (neg : Bool) (mag : Nat) (exp : Int)
deriving DecidableEq, Repr

/-- Positive zero. -/
def fvZero : Fv := .fin false 0 0

/-- The exact value of an integer. -/
def fvOfInt (i : Int) : Fv := .fin (decide (i < 0)) i.natAbs 0

def flagNone : Flags := 0
/-- FORMAT_FLAGS [0] (R50). -/
def flagInvalid : Flags := 1
/-- FORMAT_FLAGS [1]. -/
def flagOverflow : Flags := 2
/-- FORMAT_FLAGS [2]. -/
def flagSaturate : Flags := 4
/-- FORMAT_FLAGS [3]. -/
def flagUnderflow : Flags := 8
/-- FORMAT_FLAGS [4]. -/
def flagNanScale : Flags := 16
/-- FORMAT_FLAGS [5]. -/
def flagIntAccSat : Flags := 32

/-- Decoding of a floating-point code (R31, R32, R34, R38). -/
def decodeFloat (f : Fmt) (code : Nat) : Fv :=
  let sp := floatSpec f
  let m := code % 2 ^ sp.man
  let e := code / 2 ^ sp.man % 2 ^ sp.exp
  let s := bit code (sp.man + sp.exp)
  if f = .f4 ∧ code % 16 = 8 then .nan
  else if e = 0 then
    if m = 0 ∨ sp.keepsSub = false then .fin s 0 0 else .fin s m (1 - (sp.bias : Int) - sp.man)
  else if e = 2 ^ sp.exp - 1 ∧ sp.hasInf then if m = 0 then .inf s else .nan
  else if f = .f8e4 ∧ e = 15 ∧ m = 7 then .nan
  else .fin s (2 ^ sp.man + m) ((e : Int) - sp.bias - sp.man)

/-- Decoding of a code of any format of R28. -/
def decodeFmt (f : Fmt) (code : Nat) : Fv :=
  if fmtIsInt f then fvOfInt (sext (fmtWidth f) code) else decodeFloat f code

/-- The canonical NaN codes of R45. -/
def canonNan : Fmt → Nat
  | .f32 => 0x7FC00000 | .f16 => 0x7E00 | .g16 => 0x7F00 | .f8e5 => 0x7E | .f8e4 => 0x7F | .f4 => 0x8
  | _ => 0x7FF000000000

/-- A zero of the given sign; F4 has one zero (R33). -/
def zeroCode (f : Fmt) (neg : Bool) : Nat :=
  if neg ∧ f ≠ .f4 then 2 ^ (fmtWidth f - 1) else 0

/-- An infinity of the given sign. -/
def infCode (f : Fmt) (neg : Bool) : Nat :=
  let sp := floatSpec f
  (2 ^ sp.exp - 1) * 2 ^ sp.man + (if neg then 2 ^ (sp.man + sp.exp) else 0)

/-- The largest finite code of the given sign. -/
def maxCode (f : Fmt) (neg : Bool) : Nat :=
  let sp := floatSpec f
  ((sp.maxExp + sp.bias).toNat) * 2 ^ sp.man + (sp.maxSig - 2 ^ sp.man) + (if neg then 2 ^ (sp.man + sp.exp) else 0)

/-- Rounding modes: to nearest even, or stochastic with the 16-bit random value of R47. -/
inductive Rnd
  | rne
  | stoch (r : Nat)
deriving DecidableEq, Repr

/-- `m / 2^d` rounded to a whole number (R42 step 3, R48). -/
def roundShift (rnd : Rnd) (m d : Nat) : Nat :=
  let q := m / 2 ^ d
  let rem := m % 2 ^ d
  match rnd with
  | .rne => if 2 * rem > 2 ^ d ∨ (2 * rem = 2 ^ d ∧ q % 2 = 1) then q + 1 else q
  | .stoch r => if rem * 65536 / 2 ^ d + r ≥ 65536 then q + 1 else q

/-- `m * 2^e` in whole quanta of `2^q`, rounded. -/
def quanta (rnd : Rnd) (m : Nat) (e q : Int) : Nat :=
  if q ≤ e then m * 2 ^ (e - q).toNat else roundShift rnd m (q - e).toNat

/-- floor(log2) of the magnitude `m * 2^e`, for non-zero `m`. -/
def ilog (m : Nat) (e : Int) : Int := (Nat.log2 m : Int) + e

/-- Conversion to a float format by the steps of R42. -/
def toFloat (f : Fmt) (rnd : Rnd) (sat : Bool) : Fv → Nat × Flags
  | .nan => (canonNan f, flagNone)
  | .inf s =>
    if (floatSpec f).hasInf ∧ sat = false then (infCode f s, flagNone) else (maxCode f s, flagSaturate)
  | .fin s m e =>
    let sp := floatSpec f
    if m = 0 then (zeroCode f s, flagNone)
    else
      let emin : Int := 1 - sp.bias
      let x := ilog m e
      let q := (if sp.keepsSub ∧ x < emin then emin else x) - sp.man
      let n := quanta rnd m e q
      if n = 0 then (zeroCode f s, flagUnderflow)
      else
        let x' := ilog n q
        let big := decide (sp.maxExp < x') ||
          (decide (x' = sp.maxExp) && decide (n * 2 ^ sp.man > sp.maxSig * 2 ^ (Nat.log2 n)))
        if big then
          if sp.hasInf ∧ sat = false then (infCode f s, flagOverflow) else (maxCode f s, flagSaturate)
        else if sp.keepsSub = false ∧ x' < emin then (zeroCode f s, flagUnderflow)
        else
          let sbit := if s then 2 ^ (sp.man + sp.exp) else 0
          if x' < emin then (n + sbit, flagNone)
          else
            let man := n * 2 ^ sp.man / 2 ^ (Nat.log2 n) - 2 ^ sp.man
            ((x' + sp.bias).toNat * 2 ^ sp.man + man + sbit, flagNone)

/-- Nearest-even integer of an exact value. -/
def roundInt (s : Bool) (m : Nat) (e : Int) : Int :=
  let n := quanta .rne m e 0
  if s then -(n : Int) else n

/-- The nearest end of a `w`-bit two's complement range, with SATURATE when the value lies outside (R36). -/
def clampInt (w : Nat) (i : Int) : Int × Flags :=
  if i < -(2 ^ (w - 1) : Nat) then (-(2 ^ (w - 1) : Nat), flagSaturate)
  else if ((2 ^ (w - 1) : Nat) : Int) - 1 < i then ((2 ^ (w - 1) : Nat) - 1, flagSaturate)
  else (i, flagNone)

/-- Conversion to an integer format (R43). -/
def toInt (f : Fmt) : Fv → Nat × Flags
  | .nan => (0, flagInvalid)
  | .inf s => (ofInt (fmtWidth f) (if s then -(2 ^ (fmtWidth f - 1) : Nat) else (2 ^ (fmtWidth f - 1) : Nat) - 1), flagSaturate)
  | .fin s m e =>
    let p := clampInt (fmtWidth f) (roundInt s m e)
    (ofInt (fmtWidth f) p.1, p.2)

/-- The rounding a conversion mode selects (R46): stochastic only for F8E5, F8E4, F4 and G16. -/
def modeRnd (f : Fmt) (mode r : Nat) : Rnd :=
  if bit mode 0 ∧ (f = .f8e5 ∨ f = .f8e4 ∨ f = .f4 ∨ f = .g16) then .stoch r else .rne

/-- Conversion of one exact value to an unscaled target under a conversion mode (R42, R43, R46). -/
def convertTo (f : Fmt) (mode r : Nat) (v : Fv) : Nat × Flags :=
  if fmtIsInt f then toInt f v else toFloat f (modeRnd f mode r) (bit mode 1) v

/-- Multiplication of an exact value by `2^k`. -/
def scaleBy (k : Int) : Fv → Fv
  | .fin s m e => .fin s m (e + k)
  | v => v

/-- The value of a block-scaled element under the S8 scale code `k` (R40). -/
def scaled (k : Nat) (v : Fv) : Fv := if k = 255 then .nan else scaleBy ((k : Int) - 127) v

/-- The scale exponent T of R41. -/
def scaleT : Fmt → Int
  | .f8e5 => 15 | .f8e4 => 8 | .f4 => 2 | .int8 => 6 | .int4 => 2 | _ => 0

/-- Magnitude order of exact finite values: `a ≤ b`. -/
def magLe (ma : Nat) (ea : Int) (mb : Nat) (eb : Int) : Bool :=
  if ea ≤ eb then decide (ma ≤ mb * 2 ^ (eb - ea).toNat) else decide (ma * 2 ^ (ea - eb).toNat ≤ mb)

/-- floor(log2 a) for the largest finite magnitude `a` of a block; none when the block has no finite non-zero value. -/
def blockExp : List Fv → Option Int
  | [] => none
  | .fin _ m e :: vs =>
    if m = 0 then blockExp vs
    else match blockExp vs with
      | none => some (ilog m e)
      | some x => some (max x (ilog m e))
  | _ :: vs => blockExp vs

/-- The S8 scale chosen for a block (R41 steps 1 to 3 and 5). -/
def blockScale (f : Fmt) (vs : List Fv) : Nat :=
  if fmtIsInt f ∧ vs.any (· == .nan) then 255
  else match blockExp vs with
    | none => 127
    | some e => (max 0 (min 254 (127 + e - scaleT f))).toNat

/-- One element of a block-scaled result under its block's scale (R41 steps 4 and 5). -/
def scaledElem (f : Fmt) (mode r k : Nat) (v : Fv) : Nat × Flags :=
  if k = 255 then (0, flagNanScale)
  else if fmtIsInt f then toInt f (scaleBy (127 - (k : Int)) v)
  else toFloat f (modeRnd f mode r) true (scaleBy (127 - (k : Int)) v)

/-- The conversion mode asks for S8 scales and the target may carry them (R46 SCALED). -/
def modeScaled (f : Fmt) (mode : Nat) : Bool := bit mode 2 && fmtScalable f

/-- A zero code in the sense of R128. -/
def isZeroCode (f : Fmt) (code : Nat) : Bool :=
  match decodeFmt f code with
  | .fin _ 0 _ => true
  | _ => false

/-- One round of Philox4x32 (R95), on the counter words and the two key words. -/
def philoxRound (s : Nat × Nat × Nat × Nat × Nat × Nat) : Nat × Nat × Nat × Nat × Nat × Nat :=
  let (x0, x1, x2, x3, k0, k1) := s
  let p0 := 0xD2511F53 * x0
  let p1 := 0xCD9E8D57 * x2
  ((p1 / 2 ^ 32 ^^^ x1) ^^^ k0, p1 % 2 ^ 32, (p0 / 2 ^ 32 ^^^ x3) ^^^ k1, p0 % 2 ^ 32,
    (k0 + 0x9E3779B9) % 2 ^ 32, (k1 + 0xBB67AE85) % 2 ^ 32)

/-- The random value r of R47: the low 16 bits of the first Philox4x32-10 output word (R95). -/
def srng (seed step tile elem : Nat) : Nat :=
  (Nat.repeat philoxRound 10
    (step % 2 ^ 32, tile % 2 ^ 32, elem % 2 ^ 16, 0, seed % 2 ^ 32, seed / 2 ^ 32 % 2 ^ 32)).1 % 2 ^ 16

/-- The element key of R47: output index, row and column. -/
def elemKey (output row col : Nat) : Nat := output * 16384 + row * 128 + col

/-- Signed dyadic as an integer count of `2^e`, for `e` at or below its exponent. -/
def signedAt (s : Bool) (m : Nat) (x e : Int) : Int :=
  let n : Int := (m * 2 ^ (x - e).toNat : Nat)
  if s then -n else n

/-- Exact sum. A zero sum is +0, except that (-0) + (-0) is -0 where `ieee` says that R57 governs. -/
def fvAdd (ieee : Bool) : Fv → Fv → Fv × Flags
  | .nan, _ => (.nan, flagNone)
  | _, .nan => (.nan, flagNone)
  | .inf s, .inf t => if s = t then (.inf s, flagNone) else (.nan, flagInvalid)
  | .inf s, _ => (.inf s, flagNone)
  | _, .inf t => (.inf t, flagNone)
  | .fin s m x, .fin t n y =>
    if m = 0 ∧ n = 0 then (.fin (ieee && s && t) 0 0, flagNone)
    else
      let e := min x y
      let i := signedAt s m x e + signedAt t n y e
      (.fin (decide (i < 0)) i.natAbs e, flagNone)

/-- Exact product by R45; a zero product is +0 (R33). -/
def fvMul : Fv → Fv → Fv × Flags
  | .nan, _ => (.nan, flagNone)
  | _, .nan => (.nan, flagNone)
  | .inf s, .inf t => (.inf (s != t), flagNone)
  | .inf s, .fin t n _ => if n = 0 then (.nan, flagInvalid) else (.inf (s != t), flagNone)
  | .fin s m _, .inf t => if m = 0 then (.nan, flagInvalid) else (.inf (s != t), flagNone)
  | .fin s m x, .fin t n y =>
    if m = 0 ∨ n = 0 then (fvZero, flagNone) else (.fin (s != t) (m * n) (x + y), flagNone)

/-- Exact negation (R243). -/
def fvNeg : Fv → Fv
  | .nan => .nan
  | .inf s => .inf (!s)
  | .fin s m e => .fin (!s) m e

/-- Rounds an exact value to F32 (R45) and answers the value it then has. -/
def rF32 (v : Fv) : Fv × Flags :=
  let p := toFloat .f32 .rne false v
  (decodeFloat .f32 p.1, p.2)

/-- F32 addition, rounded once (R90). -/
def f32Add (a b : Fv) : Fv × Flags :=
  let p := fvAdd false a b
  let r := rF32 p.1
  (r.1, p.2 ||| r.2)

/-- F32 multiplication, rounded once (R90). -/
def f32Mul (a b : Fv) : Fv × Flags :=
  let p := fvMul a b
  let r := rF32 p.1
  (r.1, p.2 ||| r.2)

/-- Fused multiply-add: a * b + c exactly, rounded once (R90). -/
def f32Fma (a b c : Fv) : Fv × Flags :=
  if a = .nan ∨ b = .nan ∨ c = .nan then (.nan, flagNone)
  else
    let p := fvMul a b
    let q := fvAdd false p.1 c
    let r := rF32 q.1
    (r.1, (p.2 ||| q.2) ||| r.2)

/-- Order of non-NaN values: `a < b`; the two zeros are equal (R94). -/
def fvLt : Fv → Fv → Bool
  | .nan, _ => false
  | _, .nan => false
  | .inf s, .inf t => s && !t
  | .inf s, .fin _ _ _ => s
  | .fin _ _ _, .inf t => !t
  | .fin s m x, .fin t n y =>
    let e := min x y
    decide (signedAt s m x e < signedAt t n y e)

/-- Maximum of two values; a NaN operand gives NaN (R45). DEDUCED (log 13): of −0 and +0 it is +0, no rule giving it a sign (R33),
and of −0 and −0 it is −0, as both are. -/
def fvMax (a b : Fv) : Fv :=
  if a = .nan ∨ b = .nan then .nan
  else if fvLt a b then b
  else
    match a, b with
    | .fin s 0 x, .fin t 0 _ => .fin (s && t) 0 x
    | _, _ => a

end Sys2Proof.Machine
end

