-- ==== Sys2Proof/Machine/Dot.lean ====
section
/-!
DEFINITION. The dot product of the dense and the sparse engine (R52 to R64): operand classes, products, windowed group
sums, the single rounding into the A48 entry and integer accumulation.
-/

namespace Sys2Proof.Machine

/-- An operand element as the operand path delivers it: structurally absent (R54), or its unscaled value and its S8
scale code (127 where the operand has no scales). -/
inductive Elem
  | absent
  | val (raw : Fv) (scale : Nat)
deriving DecidableEq, Repr

/-- The exact operand value, S8 scale applied (R40). -/
def elemValue : Elem → Option Fv
  | .absent => none
  | .val v k => some (scaled k v)

/-- Group size G, window width W and whether both operands are integers (R52); none for a refused pair. -/
structure DotClass where
  g : Nat
  w : Nat
  ints : Bool
deriving DecidableEq, Repr

/-- Group size and window of one format (R52); none for the A48 views, which no pair may name. -/
def fmtClass : Fmt → Option DotClass
  | .f32 => some ⟨2, 48, false⟩
  | .f16 => some ⟨8, 24, false⟩ | .g16 => some ⟨8, 24, false⟩
  | .f8e5 => some ⟨16, 20, false⟩ | .f8e4 => some ⟨16, 20, false⟩
  | .f4 => some ⟨32, 8, false⟩
  | .int8 => some ⟨16, 0, true⟩ | .int4 => some ⟨32, 0, true⟩
  | _ => none

/-- The class of a pair: the smaller G and its W; mixed float and integer pairs and A48 are refused (R52). -/
def pairClass (a b : Fmt) : Option DotClass :=
  match fmtClass a, fmtClass b with
  | some x, some y => if x.ints ≠ y.ints then none else if x.g ≤ y.g then some x else some y
  | _, _ => none

/-- One product by the cases of R54; the flag is INVALID where a stored zero meets an infinity. -/
def product (a b : Elem) : Fv × Flags :=
  match elemValue a, elemValue b with
  | some x, some y => fvMul x y
  | _, _ => (fvZero, flagNone)

/-- Largest floor(log2 |p|) among non-zero finite products (R55 step 2). -/
def prodEmax : List Fv → Option Int := blockExp

/-- A product truncated towards zero to whole multiples of `2^q`, with its sign (R55 step 3). -/
def truncAt (q : Int) : Fv → Int
  | .fin s m e =>
    let n : Nat := if q ≤ e then m * 2 ^ (e - q).toNat else m / 2 ^ (q - e).toNat
    if s then -(n : Int) else (n : Int)
  | _ => 0

/-- The group sum of finite products: exact in the window below the largest product (R55 steps 1 to 3). -/
def windowSum (w : Nat) (ps : List Fv) : Fv :=
  match prodEmax ps with
  | none => fvZero
  | some e =>
    let i := (ps.map (truncAt (e - w))).sum
    if i = 0 then fvZero else .fin (decide (i < 0)) i.natAbs (e - w)

/-- The exact sum of finite products (R59, R60). -/
def exactSum (ps : List Fv) : Fv := ps.foldl (fun a p => (fvAdd false a p).1) fvZero

/-- The result of a group that holds a non-finite product (R58); none when all are finite. -/
def nonFinite (ps : List Fv) : Option (Fv × Flags) :=
  if ps.any (· == .nan) then some (.nan, flagNone)
  else if ps.any (· == .inf false) ∧ ps.any (· == .inf true) then some (.nan, flagInvalid)
  else if ps.any (· == .inf false) then some (.inf false, flagNone)
  else if ps.any (· == .inf true) then some (.inf true, flagNone)
  else none

/-- Rounds a group result into a float-view entry: acc + S, rounded once (R55 step 4, R57, R58). -/
def accumulate (acc : A48) (s : Fv) : A48 × Flags :=
  let p := fvAdd true (decodeFloat .a48 acc.toNat) s
  let r := toFloat .a48 .rne false p.1
  (BitVec.ofNat 48 r.1, p.2 ||| r.2)

/-- Adds a group sum into an integer-view entry, saturating (R60). -/
def accumulateInt (acc : A48) (s : Int) : A48 × Flags :=
  let p := clampInt 48 (acc.toInt + s)
  (BitVec.ofInt 48 p.1, if p.2 = flagNone then flagNone else flagIntAccSat)

/-- The integer of an exact whole value. -/
def wholeOf : Fv → Int
  | .fin s m e => signedAt s m e 0
  | _ => 0

/-- One group of products, both operands unscaled integers or not (R53 to R60). DESIGN CHOICE (log 47): a block-scaled
integer operand read with TRANS = 1 has several scales in a group; each product takes its own, and their sum is exact. -/
def groupStep (c : DotClass) (intView : Bool) (acc : A48) (as bs : List Elem) : A48 × Flags :=
  let pr := (as.zip bs).map (fun p => product p.1 p.2)
  let ps := pr.map (·.1)
  let fl := pr.foldl (fun f p => f ||| p.2) flagNone
  if intView then
    let r := accumulateInt acc (wholeOf (exactSum ps))
    (r.1, r.2 ||| fl)
  else
    match nonFinite ps with
    | some (v, f) =>
      let r := accumulate acc v
      (r.1, (r.2 ||| f) ||| fl)
    | none =>
      let r := accumulate acc (if c.ints then exactSum ps else windowSum c.w ps)
      (r.1, r.2 ||| fl)

/-- `n` groups of one entry in ascending K from group `j` (R53, R56): `a` and `b` give the operand elements by K index,
terms at or beyond `kEnd` are completed with +0 products. -/
def groupsFrom (c : DotClass) (intView : Bool) (a b : Nat → Elem) (k0 kEnd : Nat) : Nat → Nat → A48 → A48 × Flags
  | 0, _, acc => (acc, flagNone)
  | n + 1, j, acc =>
    let ks := (List.range c.g).map (fun i => k0 + c.g * j + i)
    let at' := fun (f : Nat → Elem) (k : Nat) => if k < kEnd then f k else Elem.absent
    let r := groupStep c intView acc (ks.map (at' a)) (ks.map (at' b))
    let q := groupsFrom c intView a b k0 kEnd n (j + 1) r.1
    (q.1, r.2 ||| q.2)

end Sys2Proof.Machine
end

