-- ==== Sys2Proof/Machine/SyncOps.lean ====
section
/-!
DEFINITION. Sync counters, the sync map, remote signals, barriers, and the record and restore of counters (R181 to R199).
Choices and readings that the model fixes here: log 28.
-/

namespace Sys2Proof.Machine

/-- Fields of a sync map entry (R185). -/
structure SyncEntry where
  kind : Nat
  remote : Bool
  multi : Bool
  sigOk : Bool
  waitOk : Bool
  restore : Bool
  phys : Nat
  device : Nat
  onComplete : Nat
deriving DecidableEq, Repr

/-- Reads the 64 bits of an entry. -/
def SyncEntry.of (v : Nat) : SyncEntry :=
  ⟨bits v 0 2, bit v 2, bit v 3, bit v 4, bit v 5, bit v 6, bits v 8 14, bits v 24 16, bits v 40 16⟩

/-- The entry in force for a virtual ID of a context (R184). -/
def State.syncEntry (s : State) (ctx id : Nat) : SyncEntry := .of (tget 0 s.obj.syncMap (ctx * 65536 + id))

/-- An entry that names no counter: KIND INVALID or reserved. -/
def SyncEntry.invalid (e : SyncEntry) : Bool := e.kind == 0 || e.kind == 3

/-- An entry whose counter is on this module alone. -/
def SyncEntry.local_ (e : SyncEntry) : Bool := !e.remote && !e.multi

/-- Sets a flag of SYNC_STATUS; the first flag event records its counter (R199). -/
def State.syncFlag (s : State) (b phys : Nat) : State :=
  s.modOv syncStatusId (fun v => let v := if bits v 0 4 = 0 then setBits v 16 14 phys else v; v ||| 2 ^ b)

/-- SIGNAL(k) on a counter (R183): saturating addition. -/
def State.ctrAdd (s : State) (p k : Nat) : State :=
  let x := s.ctr p + k
  if 0xFFFF < x then (s.setCtr p 0xFFFF).syncFlag 0 p else s.setCtr p x

/-- The round after `r` (R192). -/
def nextRound (r : Nat) : Nat := if r = 16383 then 1 else r + 1

/-- Fields of a barrier group at physical counter `p` (R192). -/
def State.barExpected (s : State) (p : Nat) : Nat := bits (s.ctr p) 0 14
def State.barRound (s : State) (p : Nat) : Nat := bits (s.ctr (p + 1)) 0 14
def State.barCur (s : State) (p : Nat) : Nat := bits (s.ctr (p + 1)) 14 1

/-- Distance of round `r` from the open round (R192). -/
def State.barDist (s : State) (p r : Nat) : Nat := (r + 16383 - s.barRound p % 16383) % 16383

/-- The body of a remote sync packet (R189). -/
def syncBody (arrive mcast : Bool) (phys count : Nat) : List Byte :=
  mkBody 8 [(0, 8, 0x40), (8, 1, ofBool arrive), (9, 1, ofBool mcast), (16, 14, phys), (32, 14, count)]

/-- Completes rounds of a group while the CUR slot holds EXPECTED arrivals (R194); `issue n` is the ON_COMPLETE
operation for round n. -/
def completeRounds (issue : Nat → State → State) (p : Nat) : Nat → State → State
  | 0, s => s
  | f + 1, s =>
    let n := s.barRound p
    let c := s.barCur p
    if s.barExpected p ≠ 0 ∧ n ≠ 0 ∧ s.ctr (p + 2 + c) = s.barExpected p then
      let s := (s.setCtr (p + 2 + c) 0).setCtr (p + 1) (nextRound n + (1 - c) * 2 ^ 14)
      completeRounds issue p f (issue n s)
    else s

/-- A refused arrival sets MISUSE and BARRIER_MISUSE (R193). -/
def State.misuse (s : State) (p : Nat) : State := (s.setCtr p (s.ctr p ||| 2 ^ 15)).syncFlag 2 p

/-- An arrival for round `r` at a local group (R193); false when it is refused. DESIGN CHOICE (log 47): a group with EXPECTED not 0
but ROUND 0 has no open round to give a distance, and refuses too. A slot of 16 bits that a COUNTER entry has
filled does not wrap (R183). -/
def arriveAt (issue : Nat → State → State) (fuel p r : Nat) (s : State) : State × Bool :=
  let e := s.barExpected p
  let d := s.barDist p r
  let c := s.barCur p
  if e = 0 ∨ s.barRound p = 0 then (s.misuse p, false)
  else if d = 0 then
    (completeRounds issue p fuel (s.setCtr (p + 2 + c) (min (s.ctr (p + 2 + c) + 1) 0xFFFF)), true)
  else if d = 1 ∧ s.ctr (p + 3 - c) < e then (s.setCtr (p + 3 - c) (s.ctr (p + 3 - c) + 1), true)
  else (s.misuse p, false)

/-- A signal that translates to no permitted entry: not applied, SYNC_MAP_FAULT, and the step of the issuing context
fails (R187). DESIGN CHOICE (log 47): where the entry is INVALID, and so names no counter, FIRST_PHYS is its PHYS field. -/
def State.mapFault (s : State) (ctx phys : Nat) : State := (s.syncFlag 3 phys).latch ctx 1

/-- Sends the packet of a REMOTE or MULTICAST signal or arrival (R189); a multicast without a VALID block is refused
(R188). One to a hot destination waits with the requests before it (R190, R355). -/
def State.syncSend (s : State) (ctx : Nat) (e : SyncEntry) (arrive : Bool) (k : Nat) : State :=
  if e.multi then
    if s.blockOk ctx then s.treeSend (portDie (e.phys / 4096)) 2 ctx (syncBody arrive true e.phys k)
    else s.mapFault ctx e.phys
  else s.capInject (portDie (e.phys / 4096)) (s.packet 2 ctx e.device (syncBody arrive false e.phys k))

/-- A signal of count `k` through a context's map: SIGNAL(k) on a COUNTER entry, an arrival for round k on a BARRIER
entry, here, on a peer or on the block (R183, R187 to R189, R193, R194). -/
def syncSignal : Nat → Nat → Nat → Nat → State → State
  | 0, _, _, _, s => s
  | f + 1, ctx, id, k, s =>
    let e := s.syncEntry ctx id
    if e.invalid ∨ e.sigOk = false then s.mapFault ctx e.phys
    else if e.kind = 1 then if e.local_ then s.ctrAdd e.phys k else s.syncSend ctx e false k
    else if e.local_ then
      (arriveAt (fun n s =>
        if e.onComplete = 0 then s
        else syncSignal f ctx e.onComplete (if (s.syncEntry ctx e.onComplete).kind = 2 then n else 1) s)
        (f + 1) e.phys k s).1
    else s.syncSend ctx e true k

/-- Chains of barrier completions cannot be longer than the number of groups. -/
def syncFuel : Nat := 4097

/-- Applies a signal through a context's map. -/
def State.signal (s : State) (ctx id k : Nat) : State := syncSignal syncFuel ctx id k s

/-- Applies a signal word in the layout of R106 ([15:0] SYNC_ID, [29:16] COUNT); COUNT 0 is no signal. -/
def State.signalWord (s : State) (ctx w : Nat) : State :=
  if bits w 16 14 = 0 then s else s.signal ctx (bits w 0 16) (bits w 16 14)

/-- SIGNAL(1) to an ID of STEP_CFG, none when it is 0. -/
def State.signalOpt (s : State) (ctx id : Nat) : State := if id = 0 then s else s.signal ctx id 1

/-- The local BARRIER entry of a context that names a group, with the lowest virtual ID (R194). -/
def State.barrierEntry (s : State) (ctx p : Nat) : Option SyncEntry :=
  (((s.obj.syncMap.filter (fun x => decide (x.1 / 65536 = ctx))).map (fun x => SyncEntry.of x.2)).filter
    (fun e => e.kind == 2 && e.local_ && e.phys == p)).head?

/-- A remote sync body applied without checking (R190, R194). -/
def State.remoteSync (s : State) (p : Packet) : State :=
  let phys := p.field 16 14
  let k := p.field 32 14
  if p.field 8 1 = 0 then s.ctrAdd phys k
  else
    (arriveAt (fun n s =>
      match s.barrierEntry p.ctx phys with
      | none => s
      | some e =>
        if e.onComplete = 0 then s
        else s.signal p.ctx e.onComplete (if (s.syncEntry p.ctx e.onComplete).kind = 2 then n else 1))
      syncFuel phys k s).1

/-- BARRIER_INIT(k) on a group (R192). -/
def State.barInit (s : State) (p k : Nat) : State :=
  let s := (((s.setCtr p (k % 2 ^ 14)).setCtr (p + 1) 1).setCtr (p + 2) 0).setCtr (p + 3) 0
  s.setSync (s.sync.noted (p + 1))

/-- A counter of a barrier group as READ gives it: the reserved bits read 0 (R192). -/
def State.barRead (s : State) (p k : Nat) : Nat :=
  let v := s.ctr (p + k)
  if k = 0 then setBits v 14 1 0 else if k = 1 then v % 2 ^ 15 else v

/-- Status codes of a sync command's reply (R188, R198). -/
def syncStatus (s : State) (ctx w : Nat) : Nat :=
  let op := bits w 0 4
  let e := s.syncEntry ctx (bits w 8 16)
  let k := bits w 24 14
  if 6 ≤ op ∨ bits w 4 4 ≠ 0 ∨ bits w 38 26 ≠ 0 ∨ (k = 0 ∧ op ≠ 2 ∧ op ≠ 3) ∨ (op = 2 ∧ e.kind = 2 ∧ 3 < k) then 3
  else if e.invalid ∨ (e.multi ∧ s.blockOk ctx = false ∧ (op = 0 ∨ op = 4)) then 1
  else if (e.kind = 2 ∧ (op = 0 ∨ op = 1 ∨ op = 3)) ∨ (e.kind = 1 ∧ (op = 4 ∨ op = 5)) then 5
  else if op = 0 ∨ op = 4 then if e.sigOk then 0 else 2
  else if e.waitOk ∧ e.local_ then 0 else 2

/-- Executes a sync command (R183, R192, R193, R198): the new state and the 32-bit reply. -/
def syncCmd (s : State) (ctx w : Nat) : State × Nat :=
  let st := syncStatus s ctx w
  let id := bits w 8 16
  let e := s.syncEntry ctx id
  let k := bits w 24 14
  if st ≠ 0 then (s, st)
  else match bits w 0 4 with
    | 0 => (s.signal ctx id k, 0)
    | 1 =>
      let v := s.ctr e.phys
      (if v < k then (s.setCtr e.phys 0).syncFlag 1 e.phys else s.setCtr e.phys (v - k), v * 65536)
    | 2 => (s, (if e.kind = 2 then s.barRead e.phys k else s.ctr e.phys) * 65536)
    | 3 => (s.setCtr e.phys k, 0)
    | 4 =>
      if e.local_ then
        let r := arriveAt (fun n s =>
          if e.onComplete = 0 then s
          else s.signal ctx e.onComplete (if (s.syncEntry ctx e.onComplete).kind = 2 then n else 1)) syncFuel e.phys k s
        (r.1, if r.2 then 0 else 4)
      else (s.syncSend ctx e true k, 0)
    | _ => (s.barInit e.phys k, 0)

/-- Physical counters that a context's REPLAY_RESTORE entries name on this module (R196). -/
def State.restoreSet (s : State) (ctx : Nat) : List Nat :=
  ((s.obj.syncMap.filter (fun x => decide (x.1 / 65536 = ctx))).map (fun x => SyncEntry.of x.2)).flatMap (fun e =>
    if e.restore && !e.remote then
      if e.kind = 1 then [e.phys] else if e.kind = 2 then [e.phys, e.phys + 1, e.phys + 2, e.phys + 3] else []
    else [])

/-- Records counters to the shadow copy (R196). -/
def State.recordSync (s : State) (ctx : Nat) : State :=
  let ps := s.restoreSet ctx
  s.setSync { s.sync with
    shadow := ps.foldl (fun t p => tset 0 t p (s.ctr p)) s.sync.shadow
    recorded := s.sync.recorded.filter (fun x => x.1 != ctx) ++ ps.map (fun p => (ctx, p)) }

/-- Sets every recorded counter of a context back (R197). -/
def State.restoreSync (s : State) (ctx : Nat) : State :=
  (s.sync.recorded.filter (fun x => x.1 == ctx)).foldl (fun s x => s.setCtr x.2 (tget 0 s.sync.shadow x.2)) s

/-- What a tile's wait finds (R107, R187, R195). -/
inductive WaitRes
  | met | unmet | mapInvalid | overrun
deriving DecidableEq, Repr

/-- Tests one wait of a tile: [15:0] SYNC_ID, [29:16] COUNT (0 is no wait), MODE in [31:30] (R106). -/
def State.waitTest (s : State) (ctx w : Nat) : WaitRes :=
  let k := bits w 16 14
  if k = 0 then .met
  else
    let e := s.syncEntry ctx (bits w 0 16)
    if e.invalid || !e.waitOk || !e.local_ then .mapInvalid
    else if e.kind = 1 then if k ≤ s.ctr e.phys then .met else .unmet
    else if s.barExpected e.phys = 0 ∨ s.barRound e.phys = 0 then .unmet
    else
      let d := s.barDist e.phys k
      if d ≤ 1 then .unmet else if d ≤ 8191 then .overrun else .met

end Sys2Proof.Machine
end

