-- ==== Sys2Proof/Machine/Memory.lean ====
section
/-!
DEFINITION. Device memory: the address map, granules and poison, errors, and the region table (R286 to R303, R330 to
R332).
Choices and readings that the model fixes here: log 28.
-/

namespace Sys2Proof.Machine

/-- Size of one stack: 48 GiB (R286). -/
def stackSize : Nat := 0xC00000000

/-- First GDDR7 address. -/
def gddrBase : Nat := 0x4000000000

/-- GDDR7 bytes fitted (R2, R286). -/
def gddrSize : Nat := if Config.gddr64 then 0x1000000000 else 0xC00000000

/-- Memory index of a device address, 0 to 3 for S0 to S3 and 4 for GDDR7 (R300); none where unpopulated. -/
def State.memOf (s : State) (a : Nat) : Option Nat :=
  if a < 4 * stackSize then some (a / stackSize)
  else if gddrBase ≤ a ∧ a < gddrBase + gddrSize ∧ s.mem.gddr ≠ .offline then some 4
  else none

/-- Start and size of a memory. -/
def memBase (m : Nat) : Nat := if m = 4 then gddrBase else m * stackSize
def memSize (m : Nat) : Nat := if m = 4 then gddrSize else stackSize

/-- Bytes at the top of each memory that are reserved to the device: spare pool and device area (R287). -/
def reservedTop : Nat := 0x8000000

/-- A byte that a tile, a command or the host may name (R288). -/
def State.mapped (s : State) (a : Nat) : Bool :=
  match s.memOf a with
  | none => false
  | some m => decide (a - memBase m + reservedTop < memSize m)

/-- The 64-byte granule of a byte is poisoned (R301). -/
def State.poisoned (s : State) (a : Nat) : Bool := tget false s.mem.poison (a / 64)

/-- One byte of device memory, remap included. -/
def State.memByte (s : State) (a : Nat) : Byte := tget 0 s.mem.bytes a

/-- `n` bytes from `a` as a tile or the host reads them: zero where unmapped or poisoned (R288, R301). -/
def State.loadDev (s : State) (a : Nat) : Nat → List Byte
  | 0 => []
  | n + 1 => (if s.mapped a && !s.poisoned a then s.memByte a else 0) :: s.loadDev (a + 1) n

/-- Some byte of a range is unmapped. -/
def State.anyUnmapped (s : State) (a n : Nat) : Bool := (List.range n).any (fun i => !s.mapped (a + i))

/-- Some byte of a range is mapped and poisoned. -/
def State.anyPoison (s : State) (a n : Nat) : Bool :=
  (List.range ((a + n + 63) / 64 - a / 64)).any (fun i => s.mapped ((a / 64 + i) * 64) && s.poisoned ((a / 64 + i) * 64))

/-- Writes one byte, unless it is unmapped. -/
def State.putByte (s : State) (a : Nat) (b : Byte) : State :=
  if s.mapped a then s.setMem { s.mem with bytes := tset 0 s.mem.bytes a b } else s

/-- Clears the poison of a granule. -/
def State.unpoison (s : State) (g : Nat) : State :=
  s.setMem { s.mem with poison := tset false s.mem.poison g false }

/-- Writes a run of bytes. -/
def State.putBytes (s : State) (a : Nat) : List Byte → State
  | [] => s
  | b :: bs => (s.putByte a b).putBytes (a + 1) bs

/-- One write of device memory: each mapped byte stored, the poison of every granule it covers whole cleared (R288,
R293, R301). -/
def State.storeDev (s : State) (a : Nat) (bs : List Byte) : State :=
  let s := s.putBytes a bs
  (List.range (bs.length / 64 + 1)).foldl (fun s i =>
    let g := (a + 63) / 64 + i
    if g * 64 + 64 ≤ a + bs.length ∧ s.mapped (g * 64) then s.unpoison g else s) s

/-- Channel, bank and row of a device address as MEM_ERR_LOG gives them (R291, R297, R303); GDDR7 has no bank and row
map, so both read 0. -/
def errPlace (m a : Nat) : Nat × Nat × Nat :=
  let o := a - memBase m
  if m = 4 then (bits o 8 4 ^^^ bits o 12 4, 0, 0) else (bits o 11 6 ^^^ bits o 17 6, bits o 17 4, bits o 21 15)

/-- Poisons a granule: counts, interrupts the driver and logs the first (R301, R303); no effect on one already
poisoned. -/
def State.poisonAt (s : State) (a kind : Nat) : State :=
  match s.memOf a with
  | none => s
  | some m =>
    if s.poisoned a then s
    else
      let g := a / 64
      let s := s.setMem { s.mem with poison := tset false s.mem.poison g true }
      let s := (s.bump (memUeCountId + m)).interrupt 15 4
      if bits (s.ov memErrLogId) 3 2 ≠ 0 then s
      else
        let p := errPlace m a
        s.setOv memErrLogId (m + kind * 2 ^ 3 + g * 64 * 2 ^ 16 + p.1 * 2 ^ 64 + p.2.1 * 2 ^ 70 + p.2.2 * 2 ^ 74 +
          bits (s.ftRead hubPs) 10 32 * 2 ^ 96)

/-- What an access's error checks found in the granule of an address (R292, R300, R301). -/
def State.memErr (s : State) (a : Nat) (e : MemErr) : State :=
  match e with
  | .clean => s
  | .corrected => match s.memOf a with
    | none => s
    | some m => s.bump (memCeCountId + m)
  | .uncorrectable k => s.poisonAt a k
  | .l2Corrected => match s.memOf a with
    | some 4 => s
    | none => s
    | some m => s.bump (ceCountId + m)
  | .l2Lost => s

/-- An address lies in a granule that `n` bytes from `a` touch. -/
def touches (a n x : Nat) : Bool := decide (0 < n) && decide (a / 64 ≤ x / 64) && decide (x / 64 ≤ (a + n - 1) / 64)

/-- The errors that an access of `n` bytes from `a` met, in order (R300, R301). -/
def State.memErrs (s : State) (a n : Nat) (es : MemErrs) : State :=
  es.foldl (fun s e => if touches a n e.1 then s.memErr e.1 e.2 else s) s

/-- A write of `n` bytes from `a` covers the granule of an address whole, and so does not read it. -/
def covers (a n x : Nat) : Bool := decide (a ≤ x / 64 * 64) && decide (x / 64 * 64 + 64 ≤ a + n)

/-- The errors that a write of `n` bytes from `a` met in the granules that it covers in part (log 28). -/
def State.storeErrs (s : State) (a n : Nat) (es : MemErrs) : State :=
  s.memErrs a n (es.filter (fun e => !covers a n e.1))

/-- An uncorrectable error of L2 kept part of an access's data from being delivered (R87, R292). -/
def l2LostIn (a n : Nat) (es : MemErrs) : Bool := es.any (fun e => touches a n e.1 && e.2 == .l2Lost)

/-- Fields of a region entry (R330). -/
structure Region where
  offset : Nat
  length : Nat
  device : Nat
  ctxMask : Nat
  valid : Bool
  block : Bool
  rd : Bool
  wr : Bool
  at_ : Bool
  cache : Bool
  holder : Bool
  dir : Nat
deriving DecidableEq, Repr

/-- Reads the 32 bytes of an entry. -/
def Region.of (v : Nat) : Region :=
  { offset := bits v 0 41, length := bits v 64 41, device := bits v 128 16, ctxMask := bits v 144 16,
    valid := bit v 160, block := bit v 161, rd := bit v 162, wr := bit v 163, at_ := bit v 164, cache := bit v 165,
    holder := bit v 166, dir := bits v 176 12 }

/-- An entry matches a request of context `c` for `n` bytes at (device, offset) (R332). -/
def State.regionMatch (s : State) (r : Region) (c n dev o : Nat) : Bool :=
  r.valid && bit r.ctxMask c && decide (r.offset ≤ o) && decide (o + n ≤ r.offset + r.length) &&
    (if r.block then s.inBlock c dev else dev == r.device)

/-- The deciding entry: the matching one with the lowest index. -/
def State.regionOf (s : State) (c n dev o : Nat) : Option Region :=
  ((s.obj.region.map (fun p => Region.of p.2)).filter (fun r => s.regionMatch r c n dev o)).head?

/-- The right an operation needs (R335). -/
inductive Right
  | read | write | atomic | invalidate
deriving DecidableEq, Repr

/-- An entry grants a right (R335). -/
def Region.grants (r : Region) : Right → Bool
  | .read => r.rd
  | .write => r.wr
  | .atomic => r.at_
  | .invalidate => r.wr && r.holder && r.cache

/-- A request is permitted at the source; context 15 is not checked (R332). -/
def State.permitted (s : State) (c n dev o : Nat) (k : Right) : Bool :=
  c == 15 || match s.regionOf c n dev o with
    | none => false
    | some r => r.grants k

/-- A right as the lookaside cache's entries name it. -/
def Right.code : Right → Nat
  | .read => 0
  | .write => 1
  | .atomic => 2
  | .invalidate => 3

/-- The lookaside cache takes the decision on a request in front, and keeps the 512 most recent ones (R333). -/
def State.lookNote (s : State) (c n dev o : Nat) (k : Right) : State :=
  let x : MatchDecision := ⟨c, dev, o, n, k.code, s.permitted c n dev o k⟩
  if c = 15 then s
  else s.setFab { s.fab with look := (x :: s.fab.look.filter (· != x)).take 512 }

/-- The deciding entry makes a READ a cached read (R345). -/
def State.cachedBy (s : State) (c n dev o : Nat) : Option Region :=
  match s.regionOf c n dev o with
  | some r => if r.cache && !r.holder then some r else none
  | none => none

/-- Sets a flag of FAB_STATUS; the first event records the peer device (R358). -/
def State.fabFlag (s : State) (b dev : Nat) : State :=
  s.modOv fabStatusId (fun v => (if bits v 0 6 = 0 then setBits v 16 16 dev else v) ||| 2 ^ b)

/-- Device and local offset of a global address (R329). -/
def gDev (a : Nat) : Nat := bits a 41 16
def gOff (a : Nat) : Nat := bits a 0 41

end Sys2Proof.Machine
end

