-- ==== Sys2Proof/Machine/UrnOps.lean ====
section
/-!
DEFINITION. The urn: handles, free lists, allocation, release and the reduction pool (R310 to R322, R326 to R328).
Choices and readings that the model fixes here: log 22.
-/

namespace Sys2Proof.Machine

/-- Buffer size of a class (R310). -/
def urnSize (c : Nat) : Nat := 256 * 4 ^ c

/-- Buffers of a class, or of the reduction pool as class 8 (R310). -/
def State.urnCount (s : State) (c : Nat) : Nat := bits (s.ov urnPartitionId) (32 * c) 32

/-- Key of a buffer. -/
def urnKey (cls idx : Nat) : Nat := cls * 2 ^ 20 + idx

def State.urnBuf (s : State) (k : Nat) : UrnBuf := tget .free s.urn.bufs k
def State.setUrnBuf (s : State) (k : Nat) (b : UrnBuf) : State :=
  s.setUrn { s.urn with bufs := tset .free s.urn.bufs k b }

def State.urnClass (s : State) (c : Nat) : UrnClass := tget .init s.urn.lists c
def State.setUrnClass (s : State) (c : Nat) (x : UrnClass) : State :=
  s.setUrn { s.urn with lists := tset .init s.urn.lists c x }

/-- Free buffers of a class, by the allocation bits (R328). -/
def State.urnFreeCount (s : State) (c : Nat) : Nat :=
  s.urnCount c - (s.urn.bufs.filter (fun x => x.2.held && x.1 / 2 ^ 20 == c)).length

/-- Head of a class's free list (R315). -/
def State.urnHead (s : State) (c : Nat) : Option Nat :=
  match (s.urnClass c).freed with
  | i :: _ => some i
  | [] => if (s.urnClass c).fresh < s.urnCount c then some (s.urnClass c).fresh else none

/-- The buffer that follows buffer `i` in the free list's order, 0xF_FFFF at its end (R315). -/
def State.urnAfter (s : State) (c i : Nat) : Nat :=
  let l := s.urnClass c
  let upward := fun (j : Nat) => if j < s.urnCount c then j else 0xFFFFF
  match l.freed.dropWhile (· != i) with
  | _ :: j :: _ => j
  | [_] => upward l.fresh
  | [] => upward (i + 1)

/-- The first 8 bytes of a free buffer: NEXT, or what a later store has put there (R315). -/
def State.urnLink (s : State) (c i : Nat) : Nat :=
  match tget 0 s.urn.links (urnKey c i) with
  | 0 => s.urnAfter c i
  | n + 1 => n

/-- The list cannot give its head: the class is being rebuilt, or the head's link names an index that is out of range or
that the allocation bits mark as held (R317). -/
def State.urnBroken (s : State) (c : Nat) : Bool :=
  s.urn.repairing.contains c ||
    match s.urnHead c with
    | none => false
    | some i =>
      let n := s.urnLink c i % 2 ^ 20
      n != 0xFFFFF && (decide (s.urnCount c ≤ n) || n == i || (s.urnBuf (urnKey c n)).held)

/-- Fields of a handle (R312). -/
def hClass (h : Nat) : Nat := bits h 0 4
def hIndex (h : Nat) : Nat := bits h 4 20
def hGen (h : Nat) : Nat := bits h 24 7
def hRelease (h : Nat) : Bool := bit h 31
def hKey (h : Nat) : Nat := urnKey (hClass h) (hIndex h)

/-- The handle of a buffer, RELEASE = 0. -/
def handleOf (cls idx gen : Nat) : Nat := cls + idx * 16 + gen * 2 ^ 24

/-- The tests of R313 on a handle alone, as status codes of R322: 0 OK, 2 URN_HANDLE, 3 the buffer is free. -/
def State.urnCheck (s : State) (ctx h : Nat) : Nat :=
  if 7 < hClass h ∨ s.urnCount (hClass h) ≤ hIndex h then 2
  else
    let b := s.urnBuf (hKey h)
    if b.held = false then 3
    else if b.gen ≠ hGen h ∨ (b.ctx ≠ ctx ∧ ctx ≠ 15) then 2
    else 0

/-- Sets a flag of URN_STATUS; the first event records its handle (R328). -/
def State.urnFlag (s : State) (b h : Nat) : State :=
  s.modOv urnStatusId (fun v => (if bits v 0 4 = 0 then setBits v 32 32 h else v) ||| 2 ^ b)

/-- Class and count of a context's reserve for a charge class 0 MEM, 1 TOKEN, 2 PIPE (R319). -/
def State.urnReserve (s : State) (ctx k : Nat) : Nat × Nat :=
  let q := s.ov (urnQuotaId + ctx)
  (bits q (16 * k) 3, bits q (16 * k + 4) 12)

/-- Buffers that satisfy a predicate. -/
def State.urnHeld (s : State) (p : Nat → UrnBuf → Bool) : Nat :=
  (s.urn.bufs.filter (fun x => x.2.held && p x.1 x.2)).length

/-- Reserve buffers a context holds under a charge class. -/
def State.urnResUsed (s : State) (ctx k : Nat) : Nat :=
  s.urnHeld (fun _ b => b.reserve && b.ctx == ctx && b.charge == k)

/-- Buffers of a class that reserves still hold back. -/
def State.urnHeldBack (s : State) (c : Nat) : Nat :=
  (allCtx.map (fun x => ((List.range 3).map (fun k =>
    if (s.urnReserve x k).1 = c then (s.urnReserve x k).2 - s.urnResUsed x k else 0)).sum)).sum

/-- Shared bytes in use by a context. -/
def State.urnSharedBytes (s : State) (ctx : Nat) : Nat :=
  ((s.urn.bufs.filter (fun x => x.2.held && !x.2.reserve && x.2.ctx == ctx)).map
    (fun x => urnSize (x.1 / 2 ^ 20))).sum

/-- Buffer `n` becomes the head of a class's free list (R315). -/
def State.urnHeadTo (s : State) (c n : Nat) : State :=
  let l := s.urnClass c
  s.setUrnClass c (
    if l.freed.contains n then { l with freed := l.freed.dropWhile (· != n) }
    else if n = 0xFFFFF then ⟨[], s.urnCount c⟩
    else if n < l.fresh then ⟨[n], l.fresh⟩
    else ⟨[], n⟩)

/-- Takes the head of a class's free list; its NEXT is the new head (R315). -/
def State.urnPop (s : State) (c : Nat) : Option (Nat × State) :=
  (s.urnHead c).map (fun i => (i, s.urnHeadTo c (s.urnLink c i % 2 ^ 20)))

/-- Allocates the head of a class: GEN increments, the buffer is zero-filled and charged (R316, R318). -/
def State.urnTake (s : State) (c ctx k : Nat) (persist reserve : Bool) : Option (Nat × State) :=
  match s.urnPop c with
  | none => none
  | some (i, s) =>
    let key := urnKey c i
    let gen := ((s.urnBuf key).gen + 1) % 128
    let s := s.setUrnBuf key ⟨true, gen, ctx, k, persist, reserve⟩
    some (handleOf c i gen,
      s.setUrn { s.urn with
        bytes := s.urn.bytes.filter (fun p => decide (p.1 / 2 ^ 22 ≠ key))
        links := tset 0 s.urn.links key 0 })

/-- A class has a buffer to give, now or once its list is rebuilt. -/
def State.urnHas (s : State) (c : Nat) : Bool := (s.urnHead c).isSome || s.urn.repairing.contains c

/-- The class that the shared step of R320 takes from, over the classes from the smallest that fits. -/
def State.urnShared (s : State) (ctx n : Nat) : List Nat → Option Nat
  | [] => none
  | c :: cs =>
    let cap := bits (s.ov (urnQuotaId + ctx)) 48 16
    if urnSize c < n ∨ s.urnFreeCount c ≤ s.urnHeldBack c ∨ s.urnHas c = false then s.urnShared ctx n cs
    else if cap ≠ 0xFFFF ∧ cap * 65536 < s.urnSharedBytes ctx + urnSize c then none
    else some c

/-- The class that an allocation takes its buffer from, and whether the reserve pays for it (R320). -/
def State.urnPick (s : State) (ctx k n : Nat) : Option (Nat × Bool) :=
  let r := s.urnReserve ctx k
  if n ≤ urnSize r.1 ∧ s.urnResUsed ctx k < r.2 ∧ s.urnHas r.1 then some (r.1, true)
  else (s.urnShared ctx n (List.range 8)).map (fun c => (c, false))

/-- The class whose rebuild an allocation has to wait for (R317). -/
def State.urnStall (s : State) (ctx k n : Nat) : Option Nat :=
  match s.urnPick ctx k n with
  | some (c, _) => if s.urnBroken c then some c else none
  | none => none

/-- The urn stops allocating from a class and rebuilds its list (R317). -/
def State.urnStop (s : State) (c : Nat) : State :=
  if s.urn.repairing.contains c then s else s.setUrn { s.urn with repairing := s.urn.repairing ++ [c] }

/-- Allocation of `n` bytes for a context and charge class (R320): the handle, or none when exhausted. -/
def State.urnAlloc (s : State) (ctx k n : Nat) (persist : Bool) : Option (Nat × State) :=
  match s.urnPick ctx k n with
  | some (c, r) => s.urnTake c ctx k persist r
  | none => none

/-- Frees a buffer by key (R315). -/
def State.urnRelease (s : State) (key : Nat) : State :=
  let b := s.urnBuf key
  let c := key / 2 ^ 20
  let s := s.setUrnBuf key ⟨false, b.gen, 0, 0, false, false⟩
  let s := s.setUrn { s.urn with links := tset 0 s.urn.links key 0 }
  s.setUrnClass c { s.urnClass c with freed := key % 2 ^ 20 :: (s.urnClass c).freed }

/-- Frees through a handle (R314, R316): the status of R322. -/
def State.urnFreeHandle (s : State) (ctx h : Nat) : State × Nat :=
  match s.urnCheck ctx h with
  | 0 => (s.urnRelease (hKey h), 0)
  | 3 => (s.urnFlag 1 h, 3)
  | c => (s.urnFlag 2 h, c)

/-- Every held buffer of a context that satisfies `p` is freed (R327, R464). -/
def State.urnFreeAll (s : State) (ctx : Nat) (p : UrnBuf → Bool) : State :=
  ((s.urn.bufs.filter (fun x => x.2.held && x.2.ctx == ctx && p x.2)).map (·.1)).foldl (fun s k => s.urnRelease k) s

/-- A context's queued requests and outstanding grants are discarded, at the receiver and at the sender (R327). -/
def State.urnDropReqs (s : State) (ctx : Nat) : State :=
  s.setUrn { s.urn with
    reqs := terase s.urn.reqs ctx
    grants := s.urn.grants.filter (fun g => g.ctx != ctx)
    sends := s.urn.sends.filter (fun g => g.ctx != ctx)
    inboxTaken := tset 0 s.urn.inboxTaken ctx 0 }

/-- An urn command (R321, R322): the new state and the 64-bit reply. -/
def urnCmd (s : State) (ctx w : Nat) : State × Nat :=
  let op := bits w 0 4
  let h := bits w 32 32
  let n := bits w 8 23
  if 3 ≤ op ∨ bits w 4 2 = 3 ∨ bit w 7 ∨ bit w 31 ∨ (op = 0 ∧ (n = 0 ∨ 4194304 < n)) then (s, 4)
  else if op = 0 then
    match s.urnAlloc ctx (bits w 4 2) n (bit w 6) with
    | some (h, s) => (s, h * 2 ^ 32)
    | none => (s.urnFlag 0 0, 1)
  else if op = 1 then s.urnFreeHandle ctx h
  else
    match s.urnCheck ctx h with
    | 0 =>
      let b := s.urnBuf (hKey h)
      (s, b.charge * 2 ^ 8 + ofBool b.persist * 2 ^ 10 + b.gen * 2 ^ 11)
    | _ => (s.urnFlag 2 h, 2)

/-- The class whose rebuild an ALLOC command waits for (R317). -/
def State.urnWaits (s : State) (ctx w : Nat) : Option Nat :=
  let n := bits w 8 23
  if bits w 0 4 ≠ 0 ∨ bits w 4 2 = 3 ∨ bit w 7 ∨ bit w 31 ∨ n = 0 ∨ 4194304 < n then none
  else s.urnStall ctx (bits w 4 2) n

/-- Bytes of a buffer; the first 8 of a free one are its link (R315). -/
def State.urnLoad (s : State) (key off n : Nat) : List Byte :=
  let bs := tbytes s.urn.bytes (key * 2 ^ 22 + off) n
  if (s.urnBuf key).held ∨ 8 ≤ off then bs
  else ((toLE 8 (s.urnLink (key / 2 ^ 20) (key % 2 ^ 20))).drop off).take n ++ bs.drop (8 - off)

/-- Stores bytes of a buffer; into the first 8 of a free one it changes the link that they hold (R315, R317). -/
def State.urnStore (s : State) (key off : Nat) (bs : List Byte) : State :=
  let links :=
    if (s.urnBuf key).held ∨ 8 ≤ off then s.urn.links
    else
      let old := toLE 8 (s.urnLink (key / 2 ^ 20) (key % 2 ^ 20))
      tset 0 s.urn.links key (leNat ((old.take off ++ bs ++ old.drop (off + bs.length)).take 8) + 1)
  s.setUrn { s.urn with
    bytes := tstore s.urn.bytes (key * 2 ^ 22 + off) bs
    links := links }

/-- Reduction-pool buffers in use in all. -/
def State.redUsed (s : State) : Nat :=
  (s.urn.redRes.map (·.2)).sum + (s.urn.redShared.map (·.2)).sum

/-- RED_RES of a group of a context (R319). -/
def State.redReserve (s : State) (ctx g : Nat) : Nat := bits (s.ov (urnQuotaId + ctx)) (64 + 8 * g) 8

/-- Reduction buffers that reserves still hold back. -/
def State.redHeldBack (s : State) : Nat :=
  (allCtx.map (fun x => ((List.range 4).map (fun g =>
    s.redReserve x g - tget 0 s.urn.redRes (x * 4 + g))).sum)).sum

/-- Takes a shared reduction buffer (R320). -/
def State.redTakeShared (s : State) (ctx : Nat) : Option State :=
  let cap := bits (s.ov (urnQuotaId + ctx)) 96 16
  let used := tget 0 s.urn.redShared ctx
  if s.urnCount 8 ≤ s.redUsed + s.redHeldBack ∨ (cap ≠ 0xFFFF ∧ cap ≤ used) then none
  else some (s.setUrn { s.urn with redShared := tset 0 s.urn.redShared ctx (used + 1) })

/-- Takes a reduction buffer; true when it is a shared one (R320). -/
def State.redTake (s : State) (ctx g : Nat) : Option (Bool × State) :=
  let used := tget 0 s.urn.redRes (ctx * 4 + g)
  if used < s.redReserve ctx g ∧ s.redUsed < s.urnCount 8 then
    some (false, s.setUrn { s.urn with redRes := tset 0 s.urn.redRes (ctx * 4 + g) (used + 1) })
  else (s.redTakeShared ctx).map (fun s => (true, s))

/-- Returns a reduction buffer to the charge it was taken from. -/
def State.redGive (s : State) (ctx g : Nat) (shared : Bool) : State :=
  if shared then
    s.setUrn { s.urn with redShared := tset 0 s.urn.redShared ctx (tget 0 s.urn.redShared ctx - 1) }
  else
    s.setUrn { s.urn with
      redRes := tset 0 s.urn.redRes (ctx * 4 + g) (tget 0 s.urn.redRes (ctx * 4 + g) - 1) }

/-- A class's list holds its free buffers in ascending index order again, each with its NEXT, and the class may allocate
(R315, R317). -/
def State.urnRebuild (s : State) (c : Nat) : State :=
  let l := s.urnClass c
  let s := s.setUrn { s.urn with
    links := s.urn.links.filter (fun x => x.1 / 2 ^ 20 != c)
    repairing := s.urn.repairing.filter (· != c) }
  s.setUrnClass c { l with freed := (List.range l.fresh).filter (fun i => !(s.urnBuf (urnKey c i)).held) }

end Sys2Proof.Machine
end

