-- ==== Sys2Proof/Machine/Vector.lean ====
section
/-!
DEFINITION. The vector unit's routines (R90 to R94) on rows of exact values that hold F32 numbers.
Choices and readings that the model fixes here: logs 9 and 13.
-/

namespace Sys2Proof.Machine

/-- Fraction bits of the fixed-point evaluation behind EXP and the routines built on it. -/
def fxP : Nat := 320

/-- `1 + u*(1 + u/2*(…))` in fixed point: the exponential series from term `n` outward. -/
def expSeries (u : Int) : Nat → Int → Int
  | 0, h => h
  | n + 1, h => expSeries u n (2 ^ fxP + u * h / ((n + 1 : Nat) * 2 ^ fxP))

/-- Repeated squaring in fixed point. -/
def sqFix : Nat → Int → Int
  | 0, h => h
  | n + 1, h => sqFix n (h * h / 2 ^ fxP)

/-- e^q for 0 ≤ q ≤ 300, to more than 200 significant bits. -/
def expPos (q : Rat) : Rat :=
  let t : Int := (q * (2 : Rat) ^ fxP).floor
  (sqFix 10 (expSeries (t / 1024) 44 (2 ^ fxP)) : Rat) / (2 : Rat) ^ fxP

/-- e^q; beyond ±300 a value outside the F32 range on the same side. -/
def expRat (q : Rat) : Rat :=
  if 300 < q then (2 : Rat) ^ 1024
  else if q < -300 then 1 / (2 : Rat) ^ 1024
  else if 0 ≤ q then expPos q else 1 / expPos (-q)

/-- The rational number of a finite exact value. -/
def ratOf (s : Bool) (m : Nat) (e : Int) : Rat :=
  let r : Rat := if 0 ≤ e then ((m * 2 ^ e.toNat : Nat) : Rat) else (m : Rat) / ((2 ^ (-e).toNat : Nat) : Rat)
  if s then -r else r

/-- A dyadic value that rounds to F32 as the rational does: 200 further bits and a sticky bit. -/
def fvOfRat (q : Rat) : Fv :=
  if q = 0 then fvZero
  else
    let k := 200 + Nat.log2 q.den
    let n := q.num.natAbs * 2 ^ k
    .fin (decide (q < 0)) (2 * (n / q.den) + (if n % q.den = 0 then 0 else 1)) (-((k : Int) + 1))

/-- 1 / √(m * 2^e), with a sticky bit. -/
def rsqrtFv (m : Nat) (e : Int) : Fv :=
  let e2 : Int := if e % 2 = 0 then e else e - 1
  let m2 := if e % 2 = 0 then m else 2 * m
  let k := 400 + Nat.log2 m2
  let n := 2 ^ (2 * k) / m2
  let r := Nat.sqrt n
  .fin false (2 * r + (if r * r = n ∧ 2 ^ (2 * k) % m2 = 0 then 0 else 1)) (-(k : Int) - 1 - e2 / 2)

/-- The magnitude of an exact value without its sign. -/
def fvAbs : Fv → Fv
  | .fin _ m e => .fin false m e
  | .inf _ => .inf false
  | .nan => .nan

/-- Steps of one unit in the last place of `lo`'s binade from the F32 magnitude code `lo` up to `m`. -/
def ulpsAbove (lo m : Nat) : Nat :=
  let top := (lo / 2 ^ 23 + 1) * 2 ^ 23
  if m ≤ top then m - lo else (top - lo) + 2 * (m - top)

/-- One of the F32 values at most `b` units in the last place from the exact result, where that is a normal F32; otherwise
the conversion of R42 (R91). -/
def withinUlp (id b inCode : Nat) (v : Fv) : Fv × Flags :=
  let p := toFloat .f32 .rne false v
  let mag := p.1 % 2 ^ 31
  if fvLt (fvAbs v) (decodeFloat .f32 0x00800000) = false ∧ fvLt (decodeFloat .f32 0x7F7FFFFF) (fvAbs v) = false then
    let r := decodeFloat .f32 mag
    let above := fvLt (fvAbs v) r
    let exact := !above && !(fvLt r (fvAbs v))
    let lo := if above then mag - 1 else mag
    let d := Config.vuPick id inCode
    let m := if exact then lo + d % (2 * b + 1) - b else lo + 1 + d % (2 * b) - b
    let m := max 0x00800000 (min 0x7F7FFFFF m)
    let m := if lo < m ∧ b < ulpsAbove lo m then mag else m
    (decodeFloat .f32 (m + p.1 / 2 ^ 31 * 2 ^ 31), p.2)
  else (decodeFloat .f32 p.1, p.2)

/-- A result that the spec does not state: a free F32 value, INVALID where it is a NaN (R50). -/
def unstated (id inCode : Nat) : Fv × Flags :=
  let v := decodeFloat .f32 (Config.vuUnstated id inCode)
  (v, if v = .nan then flagInvalid else flagNone)

/-- The F32 code of a value that is an F32 number. -/
def f32Code (v : Fv) : Nat := (toFloat .f32 .rne false v).1

/-- RECIP (R91): 1 ÷ x. -/
def vuRecip (x : Fv) : Fv × Flags :=
  match x with
  | .nan => (.nan, flagNone)
  | .inf _ => (fvZero, flagNone)
  | .fin s m e =>
    if m = 0 then unstated 0x08 (f32Code x) else withinUlp 0x08 1 (f32Code x) (fvOfRat (1 / ratOf s m e))

/-- RSQRT (R91): 1 ÷ √x. -/
def vuRsqrt (x : Fv) : Fv × Flags :=
  match x with
  | .nan => (.nan, flagNone)
  | .inf s => if s then unstated 0x09 (f32Code x) else (fvZero, flagNone)
  | .fin s m e => if m = 0 ∨ s then unstated 0x09 (f32Code x) else withinUlp 0x09 1 (f32Code x) (rsqrtFv m e)

/-- EXP (R91). -/
def vuExp (x : Fv) : Fv × Flags :=
  match x with
  | .nan => (.nan, flagNone)
  | .inf s => if s then (fvZero, flagNone) else (.inf false, flagNone)
  | .fin s m e => withinUlp 0x07 2 (f32Code x) (fvOfRat (expRat (ratOf s m e)))

/-- 1 ÷ (1 + e^−q). -/
def sigRat (q : Rat) : Rat := 1 / (1 + expRat (-q))

/-- SIGMOID (R91). -/
def vuSigmoid (x : Fv) : Fv × Flags :=
  match x with
  | .nan => (.nan, flagNone)
  | .inf s => (if s then fvZero else .fin false 1 0, flagNone)
  | .fin s m e => withinUlp 0x0A 3 (f32Code x) (fvOfRat (sigRat (ratOf s m e)))

/-- TANH (R91). -/
def vuTanh (x : Fv) : Fv × Flags :=
  match x with
  | .nan => (.nan, flagNone)
  | .inf s => (.fin s 1 0, flagNone)
  | .fin s m e =>
    let q := expRat (2 * ratOf s m e)
    withinUlp 0x0B 3 (f32Code x) (fvOfRat ((q - 1) / (q + 1)))

/-- SILU (R91): x × sigmoid(x); −infinity × 0 is invalid (R45). -/
def vuSilu (x : Fv) : Fv × Flags :=
  match x with
  | .nan => (.nan, flagNone)
  | .inf s => if s then (.nan, flagInvalid) else (.inf false, flagNone)
  | .fin s m e => withinUlp 0x0C 4 (f32Code x) (fvOfRat (ratOf s m e * sigRat (ratOf s m e)))

/-- GELU (R91): 0.5x(1 + tanh z) = x × sigmoid(2z); −infinity × 0 is invalid (R45). -/
def vuGelu (x : Fv) : Fv × Flags :=
  match x with
  | .nan => (.nan, flagNone)
  | .inf s => if s then (.nan, flagInvalid) else (.inf false, flagNone)
  | .fin s m e =>
    let q := ratOf s m e
    let z := (79788456 / 100000000 : Rat) * (q + (44715 / 1000000 : Rat) * q * q * q)
    withinUlp 0x0D 4 (f32Code x) (fvOfRat (q * sigRat (2 * z)))

/-- RELU (R91): max(x, +0), NaN stays NaN. -/
def vuRelu (x : Fv) : Fv := if x = .nan then .nan else if fvLt fvZero x then x else fvZero

/-- Applies a flag-raising operation to each element. -/
def mapF {α β : Type} (f : α → β × Flags) : List α → List β × Flags
  | [] => ([], flagNone)
  | x :: xs =>
    let p := f x
    let q := mapF f xs
    (p.1 :: q.1, p.2 ||| q.2)

/-- Elements of a lane: every 64th element from index `l` (R92). -/
def laneOf (l : Nat) (xs : List Fv) : List Fv :=
  ((List.range xs.length).zip xs).filterMap (fun p => if p.1 % 64 = l then some p.2 else none)

/-- A lane's total: it starts from its first element (R92). -/
def laneFold (first : Fv → Fv × Flags) (step : Fv → Fv → Fv × Flags) (empty : Fv) : List Fv → Fv × Flags
  | [] => (empty, flagNone)
  | x :: xs => xs.foldl (fun a y => let p := step a.1 y; (p.1, a.2 ||| p.2)) (first x)

/-- One level of the pairwise combination, lower operand on the left (R92). -/
def pairLevel (op : Fv → Fv → Fv × Flags) : List (Fv × Flags) → List (Fv × Flags)
  | a :: b :: t => (let p := op a.1 b.1; (p.1, (a.2 ||| b.2) ||| p.2)) :: pairLevel op t
  | t => t

/-- A row reduction in the fixed order of R92. -/
def rowReduce (first : Fv → Fv × Flags) (step op : Fv → Fv → Fv × Flags) (empty : Fv) (xs : List Fv) : Fv × Flags :=
  ((Nat.repeat (pairLevel op) 6 ((List.range 64).map (fun l => laneFold first step empty (laneOf l xs)))).head?).getD
    (empty, flagNone)

/-- ROW_SUM (R92). -/
def rowSum (xs : List Fv) : Fv × Flags := rowReduce (fun x => (x, flagNone)) f32Add f32Add fvZero xs

/-- ROW_MAX (R92). -/
def rowMax (xs : List Fv) : Fv × Flags :=
  rowReduce (fun x => (x, flagNone)) (fun a b => (fvMax a b, flagNone)) (fun a b => (fvMax a b, flagNone)) (.inf true) xs

/-- ROW_SUMSQ (R92). -/
def rowSumSq (xs : List Fv) : Fv × Flags := rowReduce (fun x => f32Mul x x) (fun a x => f32Fma x x a) f32Add fvZero xs

/-- SOFTMAX_ROW (R93). -/
def softmaxRow (xs : List Fv) : List Fv × Flags :=
  if xs.any (· == .nan) then (xs.map (fun _ => .nan), flagNone)
  else
    let m := rowMax xs
    if m.1 = .inf true then (xs.map (fun _ => fvZero), flagNone)
    else
      let es := mapF (fun x => let d := f32Add x (fvNeg m.1); let e := vuExp d.1; (e.1, d.2 ||| e.2)) xs
      let s := rowSum es.1
      let r := vuRecip s.1
      let ys := mapF (fun e => f32Mul e r.1) es.1
      (ys.1, (((m.2 ||| es.2) ||| s.2) ||| r.2) ||| ys.2)

/-- Applies an operation to each element of a row with its per-column element. -/
def zipF (f : Fv → Fv → Fv × Flags) (xs cs : List Fv) : List Fv × Flags := mapF (fun p => f p.1 p.2) (xs.zip cs)

/-- RMSNORM_ROW by the sequence of R91. -/
def rmsNormRow (xs g : List Fv) (eps : Fv) : List Fv × Flags :=
  let q := rowSumSq xs
  let n := vuRecip (fvOfInt xs.length)
  let a := f32Fma q.1 n.1 eps
  let r := vuRsqrt a.1
  let ys := zipF (fun x c => let t := f32Mul x r.1; let y := f32Mul t.1 c; (y.1, t.2 ||| y.2)) xs g
  (ys.1, (((q.2 ||| n.2) ||| a.2) ||| r.2) ||| ys.2)

/-- LAYERNORM_ROW by the sequence of R91. -/
def layerNormRow (xs b g : List Fv) (eps : Fv) : List Fv × Flags :=
  let n := vuRecip (fvOfInt xs.length)
  let s := rowSum xs
  let mean := f32Mul s.1 n.1
  let d := mapF (fun x => f32Add x (fvNeg mean.1)) xs
  let q := rowSumSq d.1
  let a := f32Fma q.1 n.1 eps
  let r := vuRsqrt a.1
  let ys := mapF (fun p => let t := f32Mul p.1 r.1; let y := f32Fma t.1 p.2.1 p.2.2; (y.1, t.2 ||| y.2))
    (d.1.zip (g.zip b))
  (ys.1, ((((((n.2 ||| s.2) ||| mean.2) ||| d.2) ||| q.2) ||| a.2) ||| r.2) ||| ys.2)

/-- A score ranks above another (R94): NaN lowest, equal scores to the lower index. -/
def rankAbove (a b : Nat × Fv) : Bool :=
  if a.2 = .nan then b.2 == .nan && decide (a.1 < b.1)
  else if b.2 = .nan then true
  else fvLt b.2 a.2 || (!(fvLt a.2 b.2) && decide (a.1 < b.1))

/-- The highest-ranked of indexed scores. -/
def bestOf : List (Nat × Fv) → Option (Nat × Fv)
  | [] => none
  | x :: xs => match bestOf xs with
    | none => some x
    | some y => if rankAbove x y then some x else some y

/-- First and second ranks of a row (R94); a single score is both. -/
def topkRank (xs : List Fv) : (Nat × Nat) × Flags :=
  let ix := (List.range xs.length).zip xs
  let fl := if xs.any (· == .nan) then flagInvalid else flagNone
  match bestOf ix with
  | none => ((0, 0), fl)
  | some a =>
    match bestOf (ix.filter (fun p => p.1 ≠ a.1)) with
    | none => ((a.1, a.1), fl)
    | some b => ((a.1, b.1), fl)

/-- Routine IDs that R91 defines. -/
def vuDefined (id : Nat) : Bool :=
  decide (id ≤ 0x0D) || (decide (0x10 ≤ id) && decide (id ≤ 0x15)) || id == 0x20 || id == 0x30 || id == 0x31 || id == 0x38

/-- Routines that read per-column vectors from AUX_DESC (R100). -/
def vuNeedsAux (id : Nat) : Bool := id == 0x05 || id == 0x14 || id == 0x15

/-- Routines that yield one result or record per row (R104). -/
def vuPerRow (id : Nat) : Bool := id == 0x10 || id == 0x11 || id == 0x12 || id == 0x20

/-- A routine over one row of F32 values `xs`: `s`, `b` and `g` are its per-column vectors, `eps` its SCALAR, `free`
the operands that no descriptor field names (R91, R100). -/
def vuRow (id : Nat) (xs s b g : List Fv) (eps : Fv) (free : Nat → Nat → Fv) : List Fv × Flags :=
  let ix := (List.range xs.length).zip xs
  match id with
  | 0x01 => (xs, flagNone)
  | 0x02 => mapF (fun p => f32Add p.2 (free 0 p.1)) ix
  | 0x03 => mapF (fun p => f32Mul p.2 (free 0 p.1)) ix
  | 0x04 => mapF (fun p => f32Fma p.2 (free 0 p.1) (free 1 p.1)) ix
  | 0x05 => mapF (fun p => f32Fma p.1 p.2.1 p.2.2) (xs.zip (s.zip b))
  | 0x06 => (xs.map vuRelu, flagNone)
  | 0x07 => mapF vuExp xs
  | 0x08 => mapF vuRecip xs
  | 0x09 => mapF vuRsqrt xs
  | 0x0A => mapF vuSigmoid xs
  | 0x0B => mapF vuTanh xs
  | 0x0C => mapF vuSilu xs
  | 0x0D => mapF vuGelu xs
  | 0x10 => let r := rowSum xs; ([r.1], r.2)
  | 0x11 => let r := rowMax xs; ([r.1], r.2)
  | 0x12 => let r := rowSumSq xs; ([r.1], r.2)
  | 0x13 => softmaxRow xs
  | 0x14 => rmsNormRow xs g eps
  | 0x15 => layerNormRow xs b g eps
  | _ => (xs.zipIdx.map (fun p => free 2 p.2), flagNone)

end Sys2Proof.Machine
end

