-- ==== Sys2Proof/Machine/Desc.lean ====
section
/-!
DEFINITION. Work-tile and tensor descriptors (R98, R99, R103, R127), the reading of a descriptor, and the checks of one
tensor descriptor in the order of R494.
-/

namespace Sys2Proof.Machine

/-! Status codes of R122. -/
def stOk : Nat := 0
def stEmpty : Nat := 1
def stDefective : Nat := 0x10
def stReserved : Nat := 0x20
def stType : Nat := 0x21
def stEngine : Nat := 0x22
def stFormat : Nat := 0x23
def stPair : Nat := 0x24
def stScale : Nat := 0x25
def stView : Nat := 0x26
def stRange : Nat := 0x27
def stRoutine : Nat := 0x28
def stAlign : Nat := 0x29
def stMissing : Nat := 0x2A
def stDup : Nat := 0x2B
def stSave : Nat := 0x30

/-- A field of a work-tile descriptor by byte offset, bit within it and width (R98). -/
def wf (d : WorkDesc) (byte lo w : Nat) : Nat := bits d.toNat (8 * byte + lo) w

def dTileId (d : WorkDesc) : Nat := wf d 0x00 0 32
def dType (d : WorkDesc) : Nat := wf d 0x04 0 4
def dPhase (d : WorkDesc) : Nat := wf d 0x04 4 4
def dPrio (d : WorkDesc) : Nat := wf d 0x04 8 4
def dEngine (d : WorkDesc) : Nat := wf d 0x04 12 2
def dAccMode (d : WorkDesc) : Nat := wf d 0x04 14 2
def dHold (d : WorkDesc) : Bool := wf d 0x04 16 1 == 1
def dNoSteal (d : WorkDesc) : Bool := wf d 0x04 17 1 == 1
def dShapeDyn (d : WorkDesc) : Bool := wf d 0x04 18 1 == 1
def dCplAlways (d : WorkDesc) : Bool := wf d 0x04 19 1 == 1
def dRoutine (d : WorkDesc) : Nat := wf d 0x04 24 8
def dChain (d : WorkDesc) : Nat := wf d 0x08 0 16
def dM (d : WorkDesc) : Nat := wf d 0x08 16 8
def dN (d : WorkDesc) : Nat := wf d 0x08 24 8
def dK (d : WorkDesc) : Nat := wf d 0x0C 0 32
def dRow0 (d : WorkDesc) : Nat := wf d 0x10 0 32
def dCol0 (d : WorkDesc) : Nat := wf d 0x14 0 32
def dK0 (d : WorkDesc) : Nat := wf d 0x18 0 32
def dShapeAddr (d : WorkDesc) : Nat := wf d 0x20 0 64
/-- Descriptor word `i` at 0x28 + 8 × i. -/
def dWord (d : WorkDesc) (i : Nat) : Nat := wf d (0x28 + 8 * i) 0 64
def dWait (d : WorkDesc) (i : Nat) : Nat := wf d (0x68 + 4 * i) 0 32
def dSignal (d : WorkDesc) (i : Nat) : Nat := wf d (0x70 + 4 * i) 0 32
def dScalar (d : WorkDesc) : Nat := wf d 0x78 0 32

/-- A descriptor from its 128 bytes. -/
def descOf (bs : List Byte) : WorkDesc := BitVec.ofNat 1024 (leNat (padTo 128 bs))

/-- Memory classes (R103). -/
inductive MemClass
  | device | local_ | exchange | global
deriving DecidableEq, Repr

/-- Fields of a tensor descriptor (R103). -/
structure Tens where
  base : Nat
  code : Nat
  conv : Nat
  trans : Bool
  cls : Nat
  sparse : Nat
  axis : Nat
  dim0 : Nat
  dim1 : Nat
  stride1 : Nat
  scaleBase : Nat
  scaleStride : Nat
  metaStride : Nat
  metaBase : Nat
  handle : Nat
  reserved : Bool
deriving DecidableEq, Repr

/-- Reads the 64 bytes of a tensor descriptor. -/
def Tens.of (v : Nat) : Tens :=
  { base := bits v 0 64, code := bits v 64 4, conv := bits v 68 3, trans := bit v 71, cls := bits v 72 3,
    sparse := bits v 75 2, axis := bits v 77 1, dim0 := bits v 96 32, dim1 := bits v 128 32, stride1 := bits v 160 32,
    scaleBase := bits v 192 64, scaleStride := bits v 256 32, metaStride := bits v 288 32, metaBase := bits v 320 64,
    handle := bits v 384 32, reserved := bits v 78 18 != 0 || bits v 416 96 != 0 }

/-- The tensor descriptor at a device address (R98, R288, R301). -/
def State.tensAt (s : State) (a : Nat) : Tens := .of (leNat (s.loadDev a 64))

/-- Element format; F32 where the code names none, which a tile that runs never shows. -/
def Tens.fmt (t : Tens) : Fmt := (fmtOf t.code).getD .f32

/-- Element width in bits. -/
def Tens.w (t : Tens) : Nat := fmtWidth t.fmt

/-- The tensor carries S8 scales (R46, R103). -/
def Tens.scaled (t : Tens) : Bool := modeScaled t.fmt t.conv

/-- Stored-tile form (R127). -/
def Tens.stored (t : Tens) : Bool := (t.sparse == 1 || t.sparse == 2) && t.metaBase == 0

/-- 2:4 array form (R127). -/
def Tens.array (t : Tens) : Bool := t.sparse == 1 && t.metaBase != 0

/-- Block-bitmap directory form (R127). -/
def Tens.directory (t : Tens) : Bool := t.sparse == 2 && t.metaBase != 0

/-- Bytes of `n` packed elements (R30). -/
def Tens.bytesOf (t : Tens) (n : Nat) : Nat := (n * t.w + 7) / 8

/-- Elements of one stored row (R131) for the forms that have a STRIDE1. -/
def Tens.rowElems (t : Tens) : Nat := if t.array && t.axis == 0 then 2 * ceilDiv t.dim0 4 else t.dim0

/-- Stored rows. -/
def Tens.rows (t : Tens) : Nat := if t.array && t.axis == 1 then 2 * ceilDiv t.dim1 4 else t.dim1

/-- Length of a stored tile's dense body (R138). -/
def Tens.denseBody (t : Tens) (scaled : Bool) : Nat :=
  alignUp 16 (t.bytesOf (t.dim0 * t.dim1)) + (if scaled then alignUp 16 (ceilDiv t.dim0 32 * t.dim1) else 0)

/-- Bytes of one stored block (R136). -/
def Tens.blockBytes (t : Tens) : Nat := t.bytesOf 1024

/-- Rows of `len` bytes that lie `stride` bytes apart from `at_`. -/
structure Strip where
  at_ : Nat
  stride : Nat
  len : Nat
  rows : Nat
deriving DecidableEq, Repr

/-- First byte beyond a part, 0 where it holds nothing. -/
def Strip.beyond (p : Strip) : Nat := if p.len = 0 ∨ p.rows = 0 then 0 else p.at_ + (p.rows - 1) * p.stride + p.len

/-- A part lies wholly in [lo, hi). -/
def Strip.within (p : Strip) (lo hi : Nat) : Bool := p.beyond == 0 || (decide (lo ≤ p.at_) && decide (p.beyond ≤ hi))

/-- The first row that ends beyond `lo`. -/
def Strip.rowPast (p : Strip) (lo : Nat) : Nat := if lo < p.at_ + p.len then 0 else (lo - p.at_ - p.len) / p.stride + 1

/-- Some byte of a part lies in [lo, hi). -/
def Strip.touches (p : Strip) (lo hi : Nat) : Bool :=
  p.beyond != 0 && decide (lo < hi) && decide (p.rowPast lo < p.rows) &&
    (p.stride != 0 || p.rowPast lo == 0) && decide (p.at_ + p.rowPast lo * p.stride < hi)

/-- What a tensor occupies: elements, scales and metadata; `h` is a directory's header (R86, R104, R131, R134 to R136,
R138). -/
def Tens.parts (t : Tens) (h : Nat) : List Strip :=
  if t.stored then [⟨t.base, 0, 16 + t.denseBody t.scaled, 1⟩]
  else if t.dim0 = 0 ∨ t.dim1 = 0 then []
  else if t.directory then
    [⟨t.metaBase, 0, 0x180, 1⟩, ⟨t.metaBase + bits h 192 32, 256, 256, bits h 96 32⟩,
      ⟨t.metaBase + bits h 224 32, 256, 256, bits h 128 32⟩, ⟨t.base, 0, bits h 160 32 * t.blockBytes, 1⟩] ++
      (if t.scaled then [⟨t.scaleBase, 0, 32 * bits h 160 32, 1⟩] else [])
  else
    [⟨t.base, t.stride1, t.bytesOf t.rowElems, t.rows⟩] ++
      (if t.scaled then [⟨t.scaleBase, t.scaleStride, ceilDiv t.dim0 32, t.dim1⟩] else []) ++
      (if t.array then
        [if t.axis = 0 then ⟨t.metaBase, t.metaStride, ceilDiv (ceilDiv t.dim0 4) 2, t.dim1⟩
         else ⟨t.metaBase, t.metaStride, ceilDiv t.dim0 2, ceilDiv t.dim1 4⟩]
       else [])

/-- First byte beyond a tensor in its class's space whose header, where it is a directory, holds `h` (R86, log 39). -/
def Tens.dirExtent (t : Tens) (h : Nat) : Nat := (t.parts h).foldl (fun m p => max m p.beyond) t.base

/-- First byte beyond a tensor, of a directory its header and root alone (R86). -/
def Tens.extent (t : Tens) : Nat := t.dirExtent 0

/-- Granules of the resident areas of contexts below `ctx`, and of `ctx` (R84). -/
def State.lsSize (s : State) (ctx : Nat) : Nat := s.ov (lsResidentId + ctx) * 65536
def State.lsStart (s : State) (ctx : Nat) : Nat := ((List.range ctx).map s.lsSize).sum

/-- First byte beyond a LOCAL tensor of a tile on a core (R86). -/
def State.lsExtent (s : State) (core ctx : Nat) (t : Tens) : Nat :=
  if t.directory ∧ t.extent ≤ s.lsSize ctx then
    t.dirExtent (leNat (tbytes (s.core core).store (s.lsStart ctx + t.metaBase) 128))
  else t.extent

/-- How a tile uses a tensor that it names: an input, an output of R104, one of `width` elements per row, or an output of
whole rows. -/
inductive Role
  | input
  | output
  | perRow (width : Nat)
  | rows
deriving DecidableEq, Repr

/-- The tensor is written. -/
def Role.isOutput : Role → Bool
  | .input => false
  | _ => true

/-- Reserved and out-of-range values of a tensor descriptor (R103, R127). -/
def Tens.bad (t : Tens) (output : Bool) : Bool :=
  t.reserved || decide (4 ≤ t.cls) || t.sparse == 3 ||
    (t.cls == 3 && t.base / 2 ^ 57 != 0) || (t.cls != 2 && t.handle != 0) ||
    (t.stored && (t.dim0 == 0 || decide (128 < t.dim0) || t.dim1 == 0 || decide (128 < t.dim1) || t.stride1 != 0 ||
      t.scaleBase != 0 || t.scaleStride != 0 || t.metaStride != 0)) ||
    (t.directory && (output || decide (1048576 < t.dim0) || decide (1048576 < t.dim1) || t.stride1 != 0 ||
      t.scaleStride != 0 || t.metaStride != 0))

/-- First position and static extent of an output along dim 0 and dim 1 (R104, R141). -/
def outPlace (d : WorkDesc) (t : Tens) (role : Role) : (Nat × Nat) × (Nat × Nat) :=
  let c := match role with
    | .perRow w => (0, w)
    | _ => (dCol0 d, dN d)
  let r := (dRow0 d, dM d)
  if t.stored then ((0, t.dim0), (0, t.dim1)) else if t.trans then (r, c) else (c, r)

/-- The scale-block rule of a block-scaled dense or array output (R103). -/
def scaleRule (t : Tens) (p : Nat × Nat) : Bool :=
  t.scaled && !t.stored && (p.1 % 32 != 0 || (p.2 % 32 != 0 && decide (p.1 + p.2 < t.dim0)))

/-- The rule of R132 for a 2:4 array-form output. -/
def arrayRule (t : Tens) (pl : (Nat × Nat) × (Nat × Nat)) : Bool :=
  t.array &&
    let p := if t.axis = 0 then pl.1 else pl.2
    let dim := if t.axis = 0 then t.dim0 else t.dim1
    (p.1 % 8 != 0 || (p.2 % 8 != 0 && decide (p.1 + p.2 < dim)))

/-- Misaligned fields of a tensor descriptor (R103, R127, R132). DESIGN CHOICE (log 47): META_BASE is held to its alignment
in a dense descriptor too. -/
def Tens.misaligned (t : Tens) (d : WorkDesc) (role : Role) : Bool :=
  t.base % 16 != 0 || t.scaleBase % 16 != 0 || t.metaBase % 16 != 0 || t.stride1 % 16 != 0 ||
    (t.array && t.metaStride % 16 != 0) ||
    (role.isOutput && !t.stored && (decide (t.stride1 < t.bytesOf t.rowElems) ||
      (role != .rows && (scaleRule t (outPlace d t role).1 || arrayRule t (outPlace d t role)))))

/-- Checks of one tensor descriptor at address `a` in the order of R494 item 5; 0 when it passes. -/
def State.tensCheck (s : State) (core ctx : Nat) (d : WorkDesc) (a : Nat) (role : Role) : Nat :=
  if a % 64 ≠ 0 then stAlign
  else
    let t := s.tensAt a
    if t.bad role.isOutput then stReserved
    else if fmtOf t.code = none then stFormat
    else if t.misaligned d role then stAlign
    else if t.cls = 1 ∧ s.lsSize ctx < s.lsExtent core ctx t then stRange
    else 0

/-- First failing check of the non-absent tensor descriptors among the given words, in ascending order. -/
def State.tensChecks (s : State) (core ctx : Nat) (d : WorkDesc) : List (Nat × Role) → Nat
  | [] => 0
  | (i, role) :: xs =>
    let r := if dWord d i = 0 then 0 else s.tensCheck core ctx d (dWord d i) role
    if r ≠ 0 then r else s.tensChecks core ctx d xs

/-- Elements per row of a routine that yields one result or one record per row (R104, R205). -/
def rowWidth (routine : Nat) : Nat := if routine = 0x20 then 16 else 1

/-- The words that name tensors, for MATMUL, VECTOR, COPY and POST. -/
def plainWords (d : WorkDesc) : List (Nat × Role) :=
  let out := if vuPerRow (dRoutine d) && (dType d == 0 || dType d == 1) then .perRow (rowWidth (dRoutine d)) else Role.output
  [(0, .input), (1, .input), (2, .input), (3, .input), (4, out), (5, out), (6, out), (7, out)]

/-- Reserved bits and value ranges common to every TYPE (R98, R106); M and N extents are checked with it. -/
def commonReserved (d : WorkDesc) : Bool :=
  wf d 0x04 20 4 != 0 || wf d 0x1C 24 8 != 0 || wf d 0x7C 0 32 != 0 || dAccMode d == 3 ||
    dM d == 0 || decide (128 < dM d) || dN d == 0 || decide (128 < dN d) ||
    decide (2 ≤ dWait d 0 / 2 ^ 30) || decide (2 ≤ dWait d 1 / 2 ^ 30) ||
    dSignal d 0 / 2 ^ 30 != 0 || dSignal d 1 / 2 ^ 30 != 0

/-- The operands that R100, R101 and R109 require of MATMUL, VECTOR, COPY and POST. DESIGN CHOICE (log 47): a POST tile
whose INIT_DESC has a reserved FORMAT breaks R109's own rule on it, and so item 3. -/
def State.plainReserved (s : State) (d : WorkDesc) : Bool :=
  let ty := dType d
  let routine := ty = 0 ∨ ty = 1
  ((dHold d || dAccMode d == 2) && dChain d == 0) ||
    (ty == 0 && (dWord d 0 == 0 || dWord d 1 == 0 || (dAccMode d == 1 && dWord d 2 == 0))) ||
    (decide routine && ((vuNeedsAux (dRoutine d) && dWord d 3 == 0) ||
      (vuDefined (dRoutine d) && dRoutine d != 0 && dWord d 4 == 0))) ||
    (ty == 1 && dRoutine d == 0x20 && (decide (512 < dK d) || dK0 d != 0)) ||
    (ty == 7 &&
      ((dCol0 d % 8 == 5 || dCol0 d % 8 == 6) || dWord d 2 == 0 ||
        let t := s.tensAt (dWord d 2)
        t.code != 6 || t.sparse != 0 || bit t.conv 2 || t.cls != 0 || t.trans || t.dim0 != 128 ||
          decide (t.dim1 < dRow0 d + dM d)))

end Sys2Proof.Machine
end

