-- ==== Sys2Proof/Machine/Experts.lean ====
section
/-!
DEFINITION. Routed layers, expert maps, sections and exchange groups (R201 to R204), and the fields of an EXCHANGE tile
(R208).
Choices and readings that the model fixes here: log 21.
-/

namespace Sys2Proof.Machine

/-! Fields of LAYER_CFG (R201). -/

def State.layerCfg (s : State) (l : Nat) : Nat := s.ov (layerCfgId + l)
def lyValid (v : Nat) : Bool := bit v 0
def lyTop2 (v : Nat) : Bool := bit v 1
def lyPolicy (v : Nat) : Nat := bits v 2 2
def lyShared (v : Nat) : Bool := bit v 4
def lyTable (v : Nat) : Nat := bits v 5 6
def lyExperts (v : Nat) : Nat := bits v 12 12 + 1
def lyCapacity (v : Nat) : Nat := bits v 24 16
def lyMargin (v : Nat) : Nat := bits v 40 16
def lyGain (v : Nat) : Nat := bits v 56 16
def lyGroup (v a : Nat) : Nat := bits v (72 + 5 * a) 5 + 1

/-! Expert maps (R203). -/

def mapP (v : Nat) : Nat := bits v 0 4
def mapDev (v r : Nat) : Nat := bits v (128 + 16 * r) 16
def mapDevs (v : Nat) : List Nat := (List.range (mapP v)).map (mapDev v)

/-- An entry that breaks R203. -/
def mapBad (v : Nat) : Bool :=
  decide (8 < mapP v) || bits v 4 124 != 0 || (mapDevs v).any (fun d => decide (0x8000 ≤ d)) ||
    decide ((mapDevs v).dedup.length ≠ (mapDevs v).length) ||
    (List.range 8).any (fun r => decide (mapP v ≤ r) && mapDev v r != 0)

/-- Map entry of an expert of a layer. -/
def State.expertMap (s : State) (cfg e : Nat) : Nat := tget 0 s.obj.expert (lyTable cfg * 4096 + e)

/-- Experts of a layer placed somewhere. -/
def State.placed (s : State) (cfg : Nat) : List Nat :=
  (List.range (lyExperts cfg)).filter (fun e => mapP (s.expertMap cfg e) != 0)

/-- Sections of this module, in ascending expert ID: expert and replica (R204). -/
def State.sections (s : State) (cfg : Nat) : List (Nat × Nat) :=
  (s.placed cfg).filterMap (fun e => (findIdx (· == s.me) (mapDevs (s.expertMap cfg e))).map (fun r => (e, r)))

/-- Home of an expert. -/
def State.expertHome (s : State) (cfg e : Nat) : Nat := mapDev (s.expertMap cfg e) 0

/-- Homes of a layer, each once. -/
def State.homes (s : State) (cfg : Nat) : List Nat := ((s.placed cfg).map (s.expertHome cfg)).dedup

/-- Members of the exchange group in ascending device ID, none where R204 finds the configuration invalid. -/
def State.exchGroup (s : State) (ctx cfg : Nat) : Option (List Nat) :=
  let g := lyGroup cfg
  if s.inBlock ctx s.me = false ∨ (List.range 3).any (fun a => s.ext ctx a % g a != 0) = true then none
  else
    let ms := (s.blockDevs ctx).filter (fun d => (List.range 3).all (fun a => s.off ctx d a / g a == s.off ctx s.me a / g a))
    if (s.placed cfg).all (fun e => (mapDevs (s.expertMap cfg e)).all ms.contains) then some (ms.mergeSort (· ≤ ·)) else none

/-- CFG_CHECK of a layer (R210). -/
def State.cfgCheck (s : State) (cfg : Nat) : Nat :=
  crc32c (toLE 16 cfg ++ (List.range (lyExperts cfg)).flatMap (fun e => toLE 32 (s.expertMap cfg e)))

/-! Fields of an EXCHANGE tile (R208). -/

def xCmd (d : WorkDesc) : Nat := bits (dScalar d) 0 4
def xBwd (d : WorkDesc) : Bool := bit (dScalar d) 4
def xLayer (d : WorkDesc) : Nat := bits (dScalar d) 8 12
def xId (d : WorkDesc) : Nat := bits (dScalar d) 20 12
def xArrive (d : WorkDesc) : Nat := bits (dWord d 7) 0 32
def xReturn (d : WorkDesc) : Nat := bits (dWord d 7) 32 32

/-- Input words, output words and words that may be absent, by CMD; word 7 holds signals. -/
def State.xWords (s : State) (d : WorkDesc) : List Nat × List Nat × List Nat :=
  match xCmd d with
  | 0 => ([0, 1, 2, 3], [4, 5, 6], [2, 3])
  | 1 => ([0, 1], [], [])
  | 2 => ([0, 1], [], [])
  | 3 => (if lyShared (s.layerCfg (xLayer d)) && !xBwd d then [0, 1, 2] else [0, 2], [4], [])
  | 4 => ([0, 1], [5, 6], [])
  | _ => ([], [], [])

/-- Words that name receive and return regions. -/
def xRegions (d : WorkDesc) : List Nat :=
  match xCmd d with
  | 0 => [5, 6]
  | 2 => [1]
  | 3 => [2]
  | 4 => [0, 5, 6]
  | _ => []

/-- Sequence IDs of ADMIT: INT8 with DIM0 = 2 (R208). -/
def Tens.seqIds (t : Tens) : Bool := t.code == 6 && t.dim0 == 2

/-- Class and alignment of a word of an EXCHANGE tile that R208 refuses. DEDUCED (log 21): the regions of its last sentence are the
receive and return regions, both for the class and for the alignment; any other word may be of class GLOBAL too, but not LOCAL,
since no core stands behind it. -/
def xPlaceBad (region : Bool) (t : Tens) : Bool := t.cls == 1 || (region && ((t.cls != 0 && t.cls != 2) || t.base % 256 != 0))

/-- Violations of R208. DESIGN CHOICE (log 47): a reserved FORMAT in ADMIT's sequence IDs breaks the INT8 that this table asks of
that word, so that it gives DESC_RESERVED and not FORMAT_RESERVED (R29). -/
def State.exchReserved (s : State) (d : WorkDesc) : Bool :=
  let w := s.xWords d
  let opens := xCmd d == 0 || xCmd d == 4
  decide (4 < xCmd d) || bits (dScalar d) 5 3 != 0 || (opens && xBwd d) || !(lyValid (s.layerCfg (xLayer d))) ||
    dK0 d != 0 || decide (65535 < dK d) || dM d != 1 || dN d != 1 ||
    (List.range 8).any (fun i =>
      if i = 7 then (if opens then xArrive d / 2 ^ 30 != 0 || xReturn d / 2 ^ 30 != 0 else dWord d 7 != 0)
      else if (w.1 ++ w.2.1).contains i then
        (dWord d i == 0 && !(w.2.2.contains i)) || (dWord d i != 0 &&
          let t := s.tensAt (dWord d i)
          (xPlaceBad ((xRegions d).contains i) t || (xCmd d == 0 && i == 1 && !t.seqIds)))
      else dWord d i != 0)

end Sys2Proof.Machine
end

