-- ==== Sys2Proof/Machine/Points.lean ====
section
/-!
DEFINITION. Operating points (R363), a module's own pace (R275), the limits of a die's point (R365) and pace matching
(R374).
Choices and readings that the model fixes here: log 17.
-/

namespace Sys2Proof.Machine

/-- Active and spare phases of a rail: cores 0 to 3, hub 4, stacks 5 to 8, GDDR7 9, standby 10 (R25). -/
def activePhases (r : Nat) : Nat := if r < 4 then 12 else if r = 4 then 7 else if r = 9 then 4 else 2
def sparePhases (r : Nat) : Nat := if r < 4 then 2 else 1

/-- Core clock of an operating point in MHz (R363). -/
def pointMHz (p : Nat) : Nat :=
  if p ≤ 10 then 800 + 100 * p
  else match p with
    | 11 => 1900
    | 12 => 1950
    | 13 => 2000
    | 14 => 2100
    | _ => 2200

/-- Voltage of an operating point at manufacture in mV (R363). -/
def pointMv (p : Nat) : Nat :=
  if p ≤ 10 then 620 + 20 * p
  else match p with
    | 11 => 835
    | 12 => 840
    | 13 => 850
    | 14 => 875
    | _ => 900

/-- Relative dynamic power of an operating point in thousandths, as R363 lists it. -/
def pointRel (p : Nat) : Nat :=
  ([213, 255, 301, 352, 407, 466, 531, 600, 674, 753, 838, 917, 952, 1000, 1113, 1233] : List Nat).getD p 1233

/-- Relative dynamic power as a number. -/
def rel (p : Nat) : Rat := (pointRel p : Rat) / 1000

/-- Voltage of a point on a unit as the kettle holds it (R363, R399), in mV. -/
def State.planMv (s : State) (u p : Nat) : Nat := tget (pointMv p) (s.age u).plan p

/-- Voltage of a point on a unit as planned, whether or not the kettle has applied the raise (R399, R400), in mV. -/
def State.planned (s : State) (u p : Nat) : Nat := tget (pointMv p) ((s.age u).raise.getD (s.age u).plan) p

/-- Relative dynamic power of a point on a die: after a re-plan by the formula of R363 from the voltages in force
(R399). -/
def State.rel (s : State) (d p : Nat) : Rat :=
  if (s.age d).history = [] then Sys2Proof.Machine.rel p
  else (pointMHz p : Rat) / 2000 * ((s.planMv d p : Rat) / 850) * ((s.planMv d p : Rat) / 850)

/-- OP_MAX, or the highest usable point below it where a plan has taken it above 0.950 V (R401). -/
def State.opMax (s : State) (d : Nat) : Nat :=
  ((List.range (s.ov opMaxId + 1)).filter (fun p => decide (s.planned d p ≤ 950))).foldl max 0

/-- Pace of an operating point with no forced idle (R363). -/
def pointPace (p : Nat) : Nat := pointMHz p / 10

/-- The smallest of some numbers. -/
def leastOf (d : Nat) (xs : List Nat) : Nat := xs.foldl min d

/-- Cycle in ps of a die's core clock (R20, R363, R364). -/
def State.diePs (s : State) (d : Nat) : Nat := 1000000 / pointMHz (s.die d).clock

/-- The module's own pace (R275). -/
def State.ownPace (s : State) : Nat :=
  let f := leastOf 2200 (allDies.map (fun d => pointMHz (s.die d).clock))
  let q := (allDies.map (fun d => (s.die d).q)).foldl max 0
  f * (8 - q) / 80

/-! The thermal limit of a die: the more restrictive of what its own sensors and the hub's impose (R377). -/

/-- The more restrictive of two engine-enable states (R368). -/
def Eng.worse : Eng → Eng → Eng
  | .denseOnly, _ => .denseOnly
  | _, .denseOnly => .denseOnly
  | .single, _ => .single
  | _, .single => .single
  | .dual, .dual => .dual

def Die.therm (x : Die) : Nat := min x.own.lim x.hub.lim
def Die.thermEng (x : Die) : Eng := x.own.eng.worse x.hub.eng
def Die.thermQ (x : Die) : Nat := max x.own.q x.hub.q
def Die.thermQNext (x : Die) : Nat := max x.own.qNext x.hub.qNext

/-- Fabric time, as the hub reads it, has reached a multiple of `n` ns: it stands at one, or one ns past one that the rate
correction skipped (R176, R362, R370, R374). -/
def State.onTick (s : State) (n : Nat) : Bool := decide (s.ftRead hubPs % n < 2)

/-- The droop limit of a die while its millisecond lasts (R376). -/
def State.droopLimit (s : State) (d : Nat) : Nat :=
  match (s.die d).droop with
  | some (p, _) => p
  | none => 15

/-- The point that the limits other than the matched point allow (R365). -/
def State.openPoint (s : State) (d : Nat) : Nat :=
  leastOf 15 [s.opMax d, (s.die d).budget, (s.die d).therm, s.droopLimit d]

/-- Lowest point whose pace is at least `p`. -/
def paceNeeds (p : Nat) : Nat := ((List.range 16).filter (fun i => decide (p ≤ pointPace i))).headD 15

/-- The matched point of a die: none in a probe, with PACE_MATCH 0, or where p_m does not lie below what the other
limits allow (R374). -/
def State.matchedPoint (s : State) (d : Nat) : Option Nat :=
  match s.kettle.probe, s.kettle.pm with
  | none, some p => if bit (s.ov paceCfgId) 0 ∧ p < pointPace (s.openPoint d) then some (paceNeeds p) else none
  | _, _ => none

/-- Brings every die's matched point in line with p_m. -/
def State.rematch (s : State) : State :=
  allDies.foldl (fun s d => s.modDie d (fun x => { x with matched := s.matchedPoint d })) s

/-- The lower of a stored pace and a received one. -/
def lowerPace (o : Option Nat) (p : Nat) : Option Nat :=
  match o with
  | some q => some (min q p)
  | none => some p

/-- A received PACE (R275, R374): in a probe only its last 50 µs count; outside one it lowers p_m at once. -/
def State.paceIn (s : State) (p : Nat) : State :=
  match s.kettle.probe with
  | some t =>
    if t + 50000 ≤ s.clk then s.setKettle { s.kettle with probeMin := lowerPace s.kettle.probeMin p } else s
  | none => (s.setKettle { s.kettle with pm := lowerPace s.kettle.pm p }).rematch

end Sys2Proof.Machine
end

