-- ==== Sys2Proof/Machine/RedOps.lean ====
section
/-!
DEFINITION. Parallel groups and their rings (R263 to R266).
Choices and readings that the model fixes here: log 18.
-/

namespace Sys2Proof.Machine

/-- A reduction ring as one member sees it: its members by rank, the ring order as ranks, and its own rank. -/
structure Ring where
  devs : List Nat
  order : List Nat
  rank : Nat
deriving DecidableEq, Repr

/-- Ring order of an AXIS group of `p` ranks (R264). -/
def axisOrder (p : Nat) (wrap : Bool) : List Nat :=
  if wrap then List.range p
  else (List.range p).filter (fun r => r % 2 == 0) ++ ((List.range p).filter (fun r => r % 2 == 1)).reverse

/-- Members of a member list (R265). -/
def listDevs (v : Nat) : List Nat := (List.range (bits v 0 5)).map (fun i => bits v (16 + 16 * i) 16)

/-- Position of a value in a list. -/
def posOf (x : Nat) (xs : List Nat) : Option Nat := findIdx (· == x) xs

/-- The ring of a group of a context, none where R266 finds it invalid. -/
def State.ring (s : State) (ctx g list : Nat) : Option Ring :=
  let v := tget 0 (s.redc ctx).groups g
  if bit v 0 = false ∨ s.blockOk ctx = false then none
  else if bit v 1 then
    let ds := listDevs (tget 0 (s.redc ctx).lists list)
    match posOf s.me ds with
    | some r => if (ds.filter (· == s.me)).length = 1 then some ⟨ds, List.range ds.length, r⟩ else none
    | none => none
  else
    let a := bits v 2 2
    let p := bits v 4 5 + 1
    if a = 3 ∨ s.ext ctx a % p ≠ 0 then none
    else
      let o := s.off ctx s.me a
      let at_ := fun (r : Nat) =>
        let x := fun b => if b = a then o / p * p + r else s.off ctx s.me b
        s.devAt ctx (x 0) (x 1) (x 2)
      some ⟨(List.range p).map at_, axisOrder p (p == s.dim a), o % p⟩

/-- A LIST group (R263). -/
def State.redIsList (s : State) (ctx g : Nat) : Bool := bit (tget 0 (s.redc ctx).groups g) 1

/-- The ring of an EMIT tile or packet whose OWNER is below P (R266). -/
def State.ringFor (s : State) (ctx g list owner : Nat) : Option Ring :=
  match s.ring ctx g list with
  | some r => if owner < r.devs.length then some r else none
  | none => none

/-- This module is the owner. -/
def Ring.isOwner (r : Ring) (owner : Nat) : Bool := r.rank == owner

/-- Device that follows this one in ring order. -/
def Ring.next (r : Ring) : Nat :=
  match posOf r.rank r.order with
  | some i => r.devs.getD (r.order.getD ((i + 1) % r.order.length) 0) 0
  | none => 0

/-- This member is the first of the chain for an owner: the one that follows the owner in ring order (R269). -/
def Ring.isFirst (r : Ring) (owner : Nat) : Bool :=
  match posOf owner r.order with
  | some i => r.order.getD ((i + 1) % r.order.length) 0 == r.rank
  | none => false

end Sys2Proof.Machine
end

