-- ==== Sys2Proof/Machine/Operands.lean ====
section
/-!
DEFINITION. Reading and writing a tile's operands in each memory class and each dense position (R86, R104, R288, R301,
R313, R332, R474, R475).
Choices and readings that the model fixes here: log 23.
-/

namespace Sys2Proof.Machine

/-- An event met while an operand is read or written: CAUSE of R123 and the position it concerns. -/
structure Ev where
  cause : Nat
  pos0 : Nat
  pos1 : Nat
deriving DecidableEq, Repr

/-- Reads `n` bytes at an address of an operand's class, with the causes met. -/
abbrev Rd := Nat → Nat → List Byte × List Nat

/-- Fields of EVAL_CFG (R473). -/
def State.evalOn (s : State) : Bool := bits (s.ov evalCfgId) 0 4 != 0
def State.evalCtx (s : State) : Nat := bits (s.ov evalCfgId) 4 4
def State.evalSrc (s : State) : Nat := bits (s.ov evalCfgId) 8 4

/-- A core of the evaluation partition (R473). -/
def State.evalCore (s : State) (core : Nat) : Bool :=
  s.evalOn && decide (64 - 2 * bits (s.ov evalCfgId) 0 4 ≤ core % 64)

/-- PAR_BASE and PAR_DELTA in bytes (R473). -/
def State.parBase (s : State) : Nat := bits (s.ov evalCfgId) 16 21 * 0x100000
def State.parDelta (s : State) : Nat := bits (s.ov evalCfgId) 37 21 * 0x100000

/-- Where parity redirection sends what occupies some parts of device memory: the distance added, none where they lie
partly in the window (R475). -/
def State.redirectParts (s : State) (ps : List Strip) : Option Nat :=
  let b := s.parBase
  let e := b + s.parDelta
  if ps.any (·.touches b e) then if ps.all (·.within b e) then some s.parDelta else none else some 0

/-- The tile reads its DEVICE inputs by parity redirection (R475). -/
def State.redirects (s : State) (c : Option Nat) : Bool :=
  match c with
  | none => false
  | some c => bit (s.ov evalCfgId) 12 && c != 0xFFFFFFFF && c % 2 != 0

/-- Where REDIRECT sends a DEVICE input of an evaluation tile accepted under `c` (R475): all that it occupies counts, of a
directory the nodes, blocks and scales that its header names where that lies. -/
def State.redirect (s : State) (c : Option Nat) (t : Tens) : Option Nat :=
  if t.cls ≠ 0 ∨ s.redirects c = false then some 0
  else
    let h := if t.directory then
        leNat (s.loadDev (t.metaBase + (s.redirectParts [⟨t.metaBase, 0, 0x180, 1⟩]).getD 0) 128)
      else 0
    s.redirectParts (t.parts h)

/-! Peers (R329, R335). -/

/-- A cause that stands for bytes of a peer that a tile has not fetched yet: global address and length. -/
def missCause (a n : Nat) : Nat := 0x10000 + (a * 4096 + n)
def isMiss (c : Nat) : Bool := decide (0x10000 ≤ c) && decide (c < 2 ^ 80)
def missAddr (c : Nat) : Nat := (c - 0x10000) / 4096
def missLen (c : Nat) : Nat := (c - 0x10000) % 4096

/-- A cause that stands for a read that the region table refuses: global address and length. -/
def refuseCause (a n : Nat) : Nat := 2 ^ 80 + (a * 4096 + n)
def isRefused (c : Nat) : Bool := decide (2 ^ 80 ≤ c)
def refusedAddr (c : Nat) : Nat := (c - 2 ^ 80) / 4096
def refusedLen (c : Nat) : Nat := (c - 2 ^ 80) % 4096

/-- The CAUSE of R123 that an event stands for. -/
def plainCause (c : Nat) : Nat := if isRefused c then 0x05 else c

/-- The pieces of `n` bytes from `o` within 2 KiB blocks, as address and length (R335). -/
def readPieces : Nat → Nat → Nat → List (Nat × Nat)
  | 0, _, _ => []
  | f + 1, o, n =>
    if n = 0 then []
    else
      let k := min n (2048 - o % 2048)
      (o, k) :: readPieces f (o + k) (n - k)

/-- The request of a tile that holds, or will hold, `n` bytes of a peer. -/
def State.tileGot (s : State) (core ctx seq dev o n : Nat) : Option TileReq :=
  let xs := s.fab.tileReqs.filter (fun r => !r.write && r.core == core && r.ctx == ctx && r.seq == seq && r.dest == dev &&
    decide (r.addr ≤ o) && decide (o + n ≤ r.addr + r.len))
  match xs.filter (fun r => r.got.isSome) with
  | r :: _ => some r
  | [] => xs.head?

/-- Bytes of one piece at a peer as a tile finds them: fetched, or still missing. -/
def State.peerPiece (s : State) (core ctx seq dev o n : Nat) : List Byte × List Nat :=
  match s.tileGot core ctx seq dev o n with
  | some r =>
    match r.got with
    | some d => (padTo n ((d.drop (o - r.addr)).take n), if r.cause = 0 then [] else [r.cause])
    | none => (List.replicate n 0, [missCause (dev * 2 ^ 41 + o) n])
  | none => (List.replicate n 0, [missCause (dev * 2 ^ 41 + o) n])

/-- One piece of a GLOBAL read: zero codes where the access is refused (R332). This module's own device ID goes the same way
as any other (R329). -/
def State.globalPiece (s : State) (core ctx seq : Nat) (p : Nat × Nat) : List Byte × List Nat :=
  let dev := bits p.1 41 16
  let o := bits p.1 0 41
  if s.permitted ctx p.2 dev o .read = false then (List.replicate p.2 0, [refuseCause (bits p.1 0 57) p.2])
  else s.peerPiece core ctx seq dev o p.2

/-- Reads bytes through a tensor descriptor of a tile (R103): zero codes where the access is refused, unmapped or
poisoned, with the causes of R123. `bad` holds where the urn's check failed at acceptance. -/
def State.source (s : State) (core ctx seq : Nat) (evalC : Option Nat) (bad : Bool) (t : Tens) : Rd := fun a n =>
  match t.cls with
  | 0 =>
    match s.redirect evalC t with
    | none => (s.loadDev a n, [0x0A])
    | some dl =>
      (s.loadDev (a + dl) n, (if s.anyUnmapped (a + dl) n then [0x03] else []) ++
        (if s.anyPoison (a + dl) n then [0x04] else []))
  | 1 => (tbytes (s.core core).store (s.lsStart ctx + a) n, [])
  | 2 => if bad then (List.replicate n 0, []) else (s.urnLoad (hKey t.handle) a n, [])
  | _ =>
    let rs := (readPieces (n / 2048 + 2) a n).map (s.globalPiece core ctx seq)
    (rs.flatMap (·.1), rs.flatMap (·.2))

/-- What a refused read sets: the match decision, and PROT_FAULT with the device of the access (R332, R333, R358). -/
def State.noteRefused (s : State) (ctx c : Nat) : State :=
  if isRefused c then
    let a := refusedAddr c
    (s.lookNote ctx (refusedLen c) (gDev a) (gOff a) .read).fabFlag 0 (gDev a)
  else s

/-- The urn's check of one EXCHANGE descriptor at acceptance (R313): 0, or CAUSE 0x08 or 0x09. -/
def State.urnTensCheck (s : State) (ctx : Nat) (t : Tens) (output : Bool) : Nat :=
  if t.cls ≠ 2 then 0
  else match s.urnCheck ctx t.handle with
    | 3 => 0x09
    | 0 =>
      let h := if t.directory then leNat (s.urnLoad (hKey t.handle) t.metaBase 128) else 0
      if urnSize (hClass t.handle) < t.dirExtent h ∨ (output ∧ hRelease t.handle) then 0x08 else 0
    | _ => 0x08

/-- One byte or run that a tile stores: class (0 to 3), 16 added for a low and 32 for a high nibble alone; buffer key
for EXCHANGE; address; bytes; operand (R108, R123). -/
abbrev Store := Nat × Nat × Nat × List Byte × Nat

/-- Stores of `codes`, elements of `w` bits from index `i` of a row at address `a`; a byte shared with a neighbour is
written by nibble (R30). -/
def runStores (cls key op w a i : Nat) (codes : List Nat) : List Store :=
  if w = 4 then
    let lead := if i % 2 = 1 then
        match codes with
        | c :: _ => [(cls + 32, key, a + i / 2, [BitVec.ofNat 8 (c * 16)], op)]
        | [] => []
      else []
    let rest := if i % 2 = 1 then codes.drop 1 else codes
    let start := a + (i + 1) / 2
    let n := rest.length / 2
    let mid := (List.range n).map (fun j => BitVec.ofNat 8 (rest.getD (2 * j) 0 + 16 * rest.getD (2 * j + 1) 0))
    let tail := if rest.length % 2 = 1 then [(cls + 16, key, start + n, [BitVec.ofNat 8 (rest.getD (2 * n) 0)], op)]
      else []
    lead ++ (if n = 0 then [] else [(cls, key, start, mid, op)]) ++ tail
  else if codes = [] then []
  else [(cls, key, a + i * (w / 8), codes.flatMap (fun c => toLE (w / 8) c), op)]

/-- Byte `b` merged into `old` by the nibble rule of a store. -/
def mergeNibble (cls : Nat) (old b : Byte) : Byte :=
  if cls / 16 = 1 then (old &&& 0xF0) ||| (b &&& 0x0F)
  else if cls / 16 = 2 then (old &&& 0x0F) ||| (b &&& 0xF0) else b

/-- EVAL_MEM forbids a DEVICE write (R474). -/
def State.evalForbids (s : State) (ctx a n : Nat) : Bool :=
  let v := s.ov evalMemId
  let b := bits v 0 41
  let e := b + bits v 64 41
  s.evalOn && (if ctx = s.evalCtx then decide (a < b) || decide (e < a + n) else decide (a < e) && decide (b < a + n))

/-- Fields of a fabric request header that differ from 0 (R340). -/
structure ReqHdr where
  fop : Nat
  pgen : Nat := 0
  first : Bool := false
  atop : Nat := 0
  aw : Bool := false
  fetch : Bool := false
  cache : Bool := false
  clear : Bool := false
  bytes : Nat := 0
  dir : Nat := 0
  addr : Nat := 0
  seq : Nat := 0
  ackSeq : Nat := 0
  sigPhys : Nat := 0
  sigCount : Nat := 0
  tag : Nat := 0
deriving DecidableEq, Repr

/-- The 32 bytes of a request header (R340). -/
def ReqHdr.body (h : ReqHdr) : List Byte :=
  mkBody 32 [(0, 8, h.fop), (8, 4, h.atop), (12, 1, ofBool h.aw), (13, 1, ofBool h.fetch), (14, 1, ofBool h.cache),
    (15, 1, ofBool h.clear), (16, 8, h.pgen), (24, 1, ofBool h.first), (32, 13, h.bytes), (48, 12, h.dir),
    (64, 41, h.addr), (128, 32, h.seq), (160, 32, h.ackSeq), (192, 14, h.sigPhys), (206, 14, h.sigCount),
    (224, 32, h.tag)]

/-- A cached line of a die's L2 that no other line has replaced (R345, log 10). -/
def State.cachedLine (s : State) (die dev line : Nat) : Option (List Byte) :=
  ((s.fab.lines.filter (fun x => x.die == die && x.dest == dev && x.addr == line &&
    Config.l2Kept die dev line s.clk)).map (·.data)).head?

/-- Lines of 128 bytes that a range touches. -/
def linesOf (a n : Nat) : List Nat := (List.range ((a + n + 127) / 128 - a / 128)).map (fun i => (a / 128 + i) * 128)

/-- Bytes of a range that lies wholly in cached lines of a die. -/
def State.cachedBytes (s : State) (die dev a n : Nat) : Option (List Byte) :=
  match (linesOf a n).mapM (s.cachedLine die dev) with
  | some ls => some ((ls.flatten.drop (a % 128)).take n)
  | none => none

/-- Installs a cached line in a die's L2: way 0 to 3 of its set, whose cached line it replaces (R345). -/
def State.l2Fill (s : State) (die dev line : Nat) (data : List Byte) : State :=
  let w := Config.l2Way die dev line s.clk % 4
  let set := fun (d a : Nat) => Config.l2Set d a % 32768
  s.setFab { s.fab with
    lines := s.fab.lines.filter (fun x => !(x.die == die && ((x.dest == dev && x.addr == line) ||
      (x.way == w && set x.dest x.addr == set dev line)))) ++ [⟨dev, line, die, w, data⟩] }

/-- Installs the lines of a cached read that no INV has dropped since (R345, R347). -/
def State.l2Install (s : State) (tag die dev a n : Nat) (data : List Byte) : State :=
  let s := (linesOf a n).zipIdx.foldl (fun s x =>
    if s.fab.noFill.contains (tag, x.1) then s else s.l2Fill die dev x.1 ((data.drop (128 * x.2)).take 128)) s
  s.setFab { s.fab with noFill := s.fab.noFill.filter (fun x => x.1 != tag) }

/-- The next TAG is used up. -/
def State.tagNext (s : State) : State := s.setFab { s.fab with nextTag := (s.fab.nextTag + 1) % 2 ^ 32 }

/-- Notes a request of a tile. -/
def State.tileReq (s : State) (r : TileReq) : State := s.setFab { s.fab with tileReqs := s.fab.tileReqs ++ [r] }

/-- The requests of a tile that is no longer on a core are forgotten. -/
def State.dropTileReqs (s : State) (core ctx seq : Nat) : State :=
  s.setFab { s.fab with
    tileReqs := s.fab.tileReqs.filter (fun r => !(r.core == core && r.ctx == ctx && r.seq == seq)) }

/-- A tile asks for a piece at a peer that it has not asked for yet: from the lines of its die's L2 where the deciding
entry makes it a cached read and they hold it, else by a READ (R335, R345). -/
def State.tileAsk (s : State) (core ctx seq op a n : Nat) : State :=
  let dev := bits a 41 16
  let o := bits a 0 41
  if (s.tileGot core ctx seq dev o n).isSome then s
  else
    let s := s.lookNote ctx n dev o .read
    let reg := s.cachedBy ctx n dev o
    let lo := if reg.isSome then o / 128 * 128 else o
    let len := if reg.isSome then alignUp 128 (o + n) - lo else n
    let r : TileReq :=
      { tag := s.fab.nextTag, core := core, ctx := ctx, seq := seq, op := op, dest := dev, addr := lo, len := len
        write := false, cached := reg.isSome, at_ := s.clk, got := none, cause := 0 }
    match (if reg.isSome then s.cachedBytes (l2Die core) dev lo len else none) with
    | some bs => s.tileReq { r with got := some bs }
    | none =>
      ((s.tileReq r).tagNext).capInject (reqPort core) (s.packet 2 ctx dev
        ({ fop := 0x10, pgen := s.ov protGenId % 256, cache := reg.isSome, dir := (reg.map (·.dir)).getD 0, bytes := len,
           addr := lo, tag := r.tag } : ReqHdr).body)

/-- Inserts a range by address. -/
def insertRange (x : Nat × Nat) : List (Nat × Nat) → List (Nat × Nat)
  | [] => [x]
  | y :: ys => if x.1 < y.1 then x :: y :: ys else y :: insertRange x ys

/-- Ranges in address order joined into runs that stay within 2 KiB blocks (R335). -/
def runsOf (rs : List (Nat × Nat)) : List (Nat × Nat) :=
  ((rs.foldr insertRange []).foldl (fun acc y =>
    match acc with
    | x :: xs =>
      if y.1 ≤ x.1 + x.2 ∧ y.1 / 2048 = x.1 / 2048 then (x.1, max x.2 (y.1 + y.2 - x.1)) :: xs else y :: acc
    | [] => [y]) []).reverse

/-- A tile asks for every piece that it misses; the misses stand among causes as (cause, operand). -/
def State.askPeer (s : State) (core ctx seq : Nat) (cs : List (Nat × Nat)) : State :=
  (List.range 8).foldl (fun s op =>
    (runsOf ((cs.filter (fun c => isMiss c.1 && c.2 == op)).map (fun c => (missAddr c.1, missLen c.1)))).foldl
      (fun s r => s.tileAsk core ctx seq op r.1 r.2) s) s

/-- The pieces of a store that R335 lets a WRITE carry: multiples of 16 bytes within a 4 KiB block where the address
allows it, else 8, 4, 2 or 1 bytes naturally aligned. -/
def writePieces : Nat → Nat → List Byte → List (Nat × List Byte)
  | 0, _, _ => []
  | f + 1, o, bs =>
    if bs = [] then []
    else
      let n := bs.length
      let k := if o % 16 = 0 ∧ 16 ≤ n then min (4096 - o % 4096) (n / 16 * 16)
        else if o % 8 = 0 ∧ 8 ≤ n then 8 else if o % 4 = 0 ∧ 4 ≤ n then 4 else if o % 2 = 0 ∧ 2 ≤ n then 2 else 1
      (o, bs.take k) :: writePieces f (o + k) (bs.drop k)

/-- One WRITE to a peer under the next TAG (R335, R340). -/
def State.peerWrite (s : State) (port ctx dev o : Nat) (bs : List Byte) : State :=
  s.tagNext.capInject port (s.packet 2 ctx dev
    (({ fop := 0x11, pgen := s.ov protGenId % 256, bytes := bs.length, addr := o, tag := s.fab.nextTag } : ReqHdr).body ++ bs))

/-- A WRITE of a tile, awaited (R108). -/
def State.tileWrite (s : State) (core ctx seq op dev o : Nat) (bs : List Byte) : State :=
  let r : TileReq :=
    { tag := s.fab.nextTag, core := core, ctx := ctx, seq := seq, op := op, dest := dev, addr := o, len := bs.length
      write := true, cached := false, at_ := s.clk, got := none, cause := 0 }
  (s.tileReq r).peerWrite (reqPort core) ctx dev o bs

/-- One WRITE of a tile's GLOBAL store at (device, offset): refused at the source, or sent, to this module's own device ID
too (R329, R332, R335). -/
def State.globalStore (s : State) (core ctx seq op dev cls : Nat) (p : Nat × List Byte) : State × List (Nat × Nat) :=
  let o := p.1
  let n := p.2.length
  let s := s.lookNote ctx n dev o .write
  if s.permitted ctx n dev o .write = false then (s.fabFlag 0 dev, [(0x05, op)])
  else if 16 ≤ cls then (s, [(0x06, op)])
  else (s.tileWrite core ctx seq op dev o p.2, [])

/-- Applies pieces in order. -/
def State.globalStores (core ctx seq op dev cls : Nat) : List (Nat × List Byte) → State → State × List (Nat × Nat)
  | [], s => (s, [])
  | p :: ps, s =>
    let r := s.globalStore core ctx seq op dev cls p
    let q := State.globalStores core ctx seq op dev cls ps r.1
    (q.1, r.2 ++ q.2)

/-- Applies one store of a tile: the new state and the causes met (R86, R288, R293, R332, R335, R474). -/
def State.applyStore (s : State) (core ctx seq : Nat) (x : Store) : State × List (Nat × Nat) :=
  let (cls, key, a, bs, op) := x
  let n := bs.length
  match cls % 16 with
  | 0 =>
    if s.evalForbids ctx a n then (s, [(0x0A, op)])
    else
      let bs := if cls < 16 then bs else bs.map (fun b => mergeNibble cls (s.memByte a) b)
      (s.storeDev a bs, if s.anyUnmapped a n then [(0x03, op)] else [])
  | 1 =>
    let p := s.lsStart ctx + a
    let c := s.core core
    let bs := if cls < 16 then bs else bs.map (fun b => mergeNibble cls (tget 0 c.store p) b)
    (s.setCore core { c with store := tstore c.store p bs }, [])
  | 2 =>
    let bs := if cls < 16 then bs else bs.map (fun b => mergeNibble cls ((s.urnLoad key a 1).getD 0 0) b)
    (s.urnStore key a bs, [])
  | _ => State.globalStores core ctx seq op (bits a 41 16) cls (writePieces n (bits a 0 41) bs) s

/-- Applies a tile's stores in order. -/
def State.applyStores (core ctx seq : Nat) : List Store → State → State × List (Nat × Nat)
  | [], s => (s, [])
  | x :: xs, s =>
    let r := s.applyStore core ctx seq x
    let q := State.applyStores core ctx seq xs r.1
    (q.1, r.2 ++ q.2)

end Sys2Proof.Machine
end

