-- ==== Sys2Proof/Machine/Sparse.lean ====
section
/-!
DEFINITION. The strainer (R127 to R148): reading an element of an operand in every storage form, and encoding an output
in every form, with the sparse events and counts.
Choices and readings that the model fixes here: log 39.
-/

namespace Sys2Proof.Machine

/-- The header of a stored tile (R137). -/
structure Hdr where
  code : Nat
  enc : Nat
  dense : Bool
  axis : Nat
  scaled : Bool
  map : Nat
  d0 : Nat
  d1 : Nat
  body : Nat
  check : Nat
  reserved : Bool
  /-- its 16 bytes as read at acceptance (R140) -/
  raw : Nat
deriving DecidableEq, Repr

/-- Reads the 16 bytes of a header. -/
def Hdr.of (v : Nat) : Hdr :=
  { code := bits v 0 4, enc := bits v 4 2, dense := bit v 6, axis := bits v 7 1, scaled := bit v 8, map := bits v 16 16,
    d0 := bits v 32 8 + 1, d1 := bits v 40 8 + 1, body := bits v 64 32, check := bits v 96 32,
    reserved := bits v 9 7 != 0 || bits v 48 16 != 0, raw := v }

/-- Number of 1 bits among the low `n` bits of `v`. -/
def popcount (v n : Nat) : Nat := ((List.range n).filter (fun i => bit v i)).length

/-- Length of each section of a stored tile's body, padded (R138): elements or values or blocks, metadata, scales. -/
def sections (t : Tens) (enc axis : Nat) (scaled : Bool) (map d0 d1 : Nat) : Nat × Nat × Nat :=
  let rows := if scaled then alignUp 16 (ceilDiv d0 32 * d1) else 0
  match enc with
  | 0 => (alignUp 16 (t.bytesOf (d0 * d1)), 0, rows)
  | 1 =>
    let g := if axis = 0 then ceilDiv d0 4 * d1 else ceilDiv d1 4 * d0
    (alignUp 16 (t.bytesOf (2 * g)), alignUp 16 (ceilDiv g 2), rows)
  | _ =>
    let n := popcount map 16
    (n * t.blockBytes, 0, if scaled then alignUp 16 (32 * n) else 0)

/-- Length of the body that R138 gives for a header. -/
def Hdr.length (h : Hdr) (t : Tens) : Nat :=
  let s := sections t h.enc h.axis h.scaled h.map h.d0 h.d1
  s.1 + s.2.1 + s.2.2

/-- A header violates R137 for the tensor that names it; `room` is the space from BASE (R86, R313). -/
def Hdr.bad (h : Hdr) (t : Tens) (room : Nat) : Bool :=
  h.reserved || h.code != t.code || h.enc == 3 || (h.dense && h.enc != 0) || (h.axis == 1 && h.enc != 1) ||
    (h.scaled && !fmtScalable t.fmt) || (h.enc != 2 && h.map != 0) || h.d0 != t.dim0 || h.d1 != t.dim1 ||
    h.body != h.length t || decide (room < 16 + h.body)

/-- What acceptance settled about an input: no header, a valid header, or an invalid one (R140). -/
inductive HdrSt
  | plain
  | ok (h : Hdr)
  | invalid
deriving DecidableEq, Repr

/-- Space that a stored tile may occupy from its BASE in its class. DESIGN CHOICE (log 47): a header whose body passes the end of
an urn buffer is a header error too, as R86 says of LOCAL. -/
def State.room (s : State) (ctx : Nat) (t : Tens) : Nat :=
  match t.cls with
  | 1 => s.lsSize ctx - t.base
  | 2 => urnSize (hClass t.handle) - t.base
  | _ => 2 ^ 64

/-- Reads and checks the header of a stored-tile input, with the causes met (R140). -/
def State.hdrSt (s : State) (core ctx seq : Nat) (evalC : Option Nat) (bad : Bool) (t : Tens) : HdrSt × List Nat :=
  if t.stored then
    let r := s.source core ctx seq evalC bad t t.base 16
    let h := Hdr.of (leNat r.1)
    (if h.bad t (s.room ctx t) then .invalid else .ok h, r.2)
  else (.plain, [])

/-- An element's code at element index `e` from address `a`. -/
def codeAt (rd : Rd) (w a e : Nat) : Nat × List Nat :=
  if w = 4 then
    let r := rd (a + e / 2) 1
    (leNat r.1 / 16 ^ (e % 2) % 16, r.2)
  else
    let r := rd (a + e * (w / 8)) (w / 8)
    (leNat r.1, r.2)

/-- An element read with its optional scale: NAN_SCALE is raised by a scale of 0xFF (R50). -/
def elemAt (rd : Rd) (f : Fmt) (a e : Nat) (scale : Option Nat) : Elem × List Nat × Flags :=
  let c := codeAt rd (fmtWidth f) a e
  match scale with
  | none => (.val (decodeFmt f c.1) 127, c.2, flagNone)
  | some sa =>
    let k := rd sa 1
    (.val (decodeFmt f c.1) (leNat k.1), c.2 ++ k.2, if leNat k.1 = 255 then flagNanScale else flagNone)

/-- An element is non-zero in the sense of R128, after scaling. -/
def Elem.nonZero (x : Elem) : Bool :=
  match elemValue x with
  | some (.fin _ 0 _) => false
  | some _ => true
  | none => false

/-- The result of looking one element up: the element, its events and the flags its scale raised. -/
abbrev Look := Elem × List Ev × Flags

/-- Causes met at an element as events. -/
def evs (cs : List Nat) (i0 i1 : Nat) : List Ev := cs.map (fun c => ⟨c, i0, i1⟩)

/-- Lookup in a 2:4 group (R129, R130): `slot j` reads value slot 0 or 1, `p` is the position in the group, `len` the
positions of the group that lie inside the dimension, `place` the coordinates of a position. A bad nibble is the group's
error, a value at an outside position that element's (R148). -/
def lookGroup (nib : Nat) (slot : Nat → Elem × List Nat × Flags) (place : Nat → Nat × Nat) (p len g0 g1 i0 i1 : Nat) :
    Look :=
  let a := nib % 4
  let b := nib / 4 % 4
  if a = b then (.absent, [⟨0x11, g0, g1⟩], flagNone)
  else
    let sa := slot 0
    let sb := slot 1
    let stray := (if len ≤ a ∧ sa.1.nonZero then [⟨0x10, (place a).1, (place a).2⟩] else ([] : List Ev)) ++
      (if len ≤ b ∧ sb.1.nonZero then [⟨0x10, (place b).1, (place b).2⟩] else [])
    if p = a then (sa.1, stray ++ evs sa.2.1 i0 i1, sa.2.2)
    else if p = b then (sb.1, stray ++ evs sb.2.1 i0 i1, sb.2.2)
    else (.absent, stray, flagNone)

/-- One element of an array-form tensor (R131). DESIGN CHOICE (log 47): with groups along dim 1 the scale of the row looked up
decides whether a slot that names a position at or beyond DIM1 holds a zero code. -/
def lookArray (t : Tens) (rd : Rd) (i0 i1 : Nat) : Look :=
  let sc := if t.scaled then some (t.scaleBase + i1 * t.scaleStride + i0 / 32) else none
  if t.axis = 0 then
    let g := i0 / 4
    let n := codeAt rd 4 (t.metaBase + i1 * t.metaStride) g
    let r := lookGroup n.1 (fun j => elemAt rd t.fmt (t.base + i1 * t.stride1) (2 * g + j) sc)
      (fun k => (4 * g + k, i1)) (i0 % 4)
      (min 4 (t.dim0 - 4 * g)) g i1 i0 i1
    (r.1, evs n.2 i0 i1 ++ r.2.1, r.2.2)
  else
    let g := i1 / 4
    let n := codeAt rd 4 (t.metaBase + g * t.metaStride) i0
    let r := lookGroup n.1 (fun j => elemAt rd t.fmt (t.base + (2 * g + j) * t.stride1) i0 sc)
      (fun k => (i0, 4 * g + k)) (i1 % 4)
      (min 4 (t.dim1 - 4 * g)) i0 g i0 i1
    (r.1, evs n.2 i0 i1 ++ r.2.1, r.2.2)

/-- One element of a stored tile (R138). -/
def lookStored (t : Tens) (h : Hdr) (rd : Rd) (i0 i1 : Nat) : Look :=
  let s := sections t h.enc h.axis h.scaled h.map h.d0 h.d1
  let b := t.base + 16
  let sb := b + s.1 + s.2.1
  let sc := if h.scaled then some (sb + i1 * ceilDiv h.d0 32 + i0 / 32) else none
  match h.enc with
  | 0 =>
    let r := elemAt rd t.fmt b (i1 * h.d0 + i0) sc
    (r.1, evs r.2.1 i0 i1, r.2.2)
  | 1 =>
    if h.axis = 0 then
      let gs := ceilDiv h.d0 4
      let g := i0 / 4
      let n := codeAt rd 4 (b + s.1) (i1 * gs + g)
      let r := lookGroup n.1 (fun j => elemAt rd t.fmt b (i1 * 2 * gs + 2 * g + j) sc)
        (fun k => (4 * g + k, i1)) (i0 % 4) (min 4 (h.d0 - 4 * g))
        g i1 i0 i1
      (r.1, evs n.2 i0 i1 ++ r.2.1, r.2.2)
    else
      let g := i1 / 4
      let n := codeAt rd 4 (b + s.1) (g * h.d0 + i0)
      let r := lookGroup n.1 (fun j => elemAt rd t.fmt b ((2 * g + j) * h.d0 + i0) sc)
        (fun k => (i0, 4 * g + k)) (i1 % 4) (min 4 (h.d1 - 4 * g))
        i0 g i0 i1
      (r.1, evs n.2 i0 i1 ++ r.2.1, r.2.2)
  | _ =>
    let bitNo := i1 / 32 * 4 + i0 / 32
    if bit h.map bitNo then
      let k := popcount h.map bitNo
      let r := elemAt rd t.fmt (b + k * t.blockBytes) (i1 % 32 * 32 + i0 % 32)
        (if h.scaled then some (sb + 32 * k + i1 % 32) else none)
      (r.1, evs r.2.1 i0 i1, r.2.2)
    else (.absent, [], flagNone)

/-- A directory's header or node as a number, with the causes met. -/
def rdNode (rd : Rd) (a n : Nat) : Nat × List Nat := (leNat (rd a n).1, (rd a n).2)

/-- The directory header violates R134. -/
def dirBad (t : Tens) (v : Nat) : Bool :=
  bits v 0 16 != 1 || bits v 16 4 != t.code || bits v 20 12 != 0 || bits v 32 32 != t.dim0 || bits v 64 32 != t.dim1 ||
    bits v 192 32 % 16 != 0 || bits v 224 32 % 16 != 0 || bits v 256 768 != 0

/-- Row `c1` of a node's bitmap (R135). -/
def nodeRow (node c1 : Nat) : Nat := bits node (32 * c1) 32

/-- One level of a directory (R135): the child index of (c0, c1) in a node, none where its bit is 0. -/
def dirChild (node c0 c1 : Nat) : Option Nat :=
  if bit (nodeRow node c1) c0 then
    some (bits node (8 * 0xC0) 32 + bits node (8 * 0x80 + 16 * c1) 16 + popcount (nodeRow node c1) c0)
  else none

/-- Set bits of a node whose block or region lies wholly outside the dimensions (R135): `o0`, `o1` are the node's first
child coordinates and `span` the elements a child covers along each dimension. -/
def dirStray (t : Tens) (node o0 o1 span : Nat) : List Ev :=
  (List.range 32).flatMap (fun c1 =>
    let row := nodeRow node c1
    if row = 0 then []
    else (List.range 32).flatMap (fun c0 =>
      if bit row c0 && (decide (t.dim0 ≤ (o0 + c0) * span) || decide (t.dim1 ≤ (o1 + c1) * span)) then
        [⟨0x10, o0 + c0, o1 + c1⟩] else []))

/-- One element of a directory-form tensor (R133 to R136). -/
def lookDir (t : Tens) (rd : Rd) (i0 i1 : Nat) : Look :=
  let hd := rdNode rd t.metaBase 128
  let h := hd.1
  let eh := evs hd.2 i0 i1
  if dirBad t h then (.absent, eh ++ [⟨0x12, 0, 0⟩], flagNone)
  else
    let b0 := i0 / 32
    let b1 := i1 / 32
    let root := rdNode rd (t.metaBase + 0x80) 256
    let e0 := eh ++ evs root.2 i0 i1 ++ dirStray t root.1 0 0 32768
    match dirChild root.1 (b0 / 1024) (b1 / 1024) with
    | none => (.absent, e0, flagNone)
    | some x1 =>
      if bits h 96 32 ≤ x1 then (.absent, e0 ++ [⟨0x10, b0 / 1024, b1 / 1024⟩], flagNone)
      else
        let n1 := rdNode rd (t.metaBase + bits h 192 32 + 256 * x1) 256
        let e1 := e0 ++ evs n1.2 i0 i1 ++ dirStray t n1.1 (b0 / 1024 * 32) (b1 / 1024 * 32) 1024
        match dirChild n1.1 (b0 / 32 % 32) (b1 / 32 % 32) with
        | none => (.absent, e1, flagNone)
        | some x0 =>
          if bits h 128 32 ≤ x0 then (.absent, e1 ++ [⟨0x10, b0 / 32, b1 / 32⟩], flagNone)
          else
            let n0 := rdNode rd (t.metaBase + bits h 224 32 + 256 * x0) 256
            let e2 := e1 ++ evs n0.2 i0 i1 ++ dirStray t n0.1 (b0 / 32 * 32) (b1 / 32 * 32) 32
            match dirChild n0.1 (b0 % 32) (b1 % 32) with
            | none => (.absent, e2, flagNone)
            | some k =>
              if bits h 160 32 ≤ k then (.absent, e2 ++ [⟨0x10, b0, b1⟩], flagNone)
              else
                let r := elemAt rd t.fmt (t.base + k * t.blockBytes) (i1 % 32 * 32 + i0 % 32)
                  (if t.scaled then some (t.scaleBase + 32 * k + i1 % 32) else none)
                (r.1, e2 ++ evs r.2.1 i0 i1, r.2.2)

/-- One element (i0, i1) of an input in whatever form (R104, R127). -/
def Tens.look (t : Tens) (h : HdrSt) (rd : Rd) (i0 i1 : Nat) : Look :=
  if t.dim0 ≤ i0 ∨ t.dim1 ≤ i1 then (.absent, [], flagNone)
  else match h with
    | .invalid => (.absent, [], flagNone)
    | .ok h => lookStored t h rd i0 i1
    | .plain =>
      if t.array then lookArray t rd i0 i1
      else if t.directory then lookDir t rd i0 i1
      else
        let r := elemAt rd t.fmt (t.base + i1 * t.stride1) i0
          (if t.scaled then some (t.scaleBase + i1 * t.scaleStride + i0 / 32) else none)
        (r.1, evs r.2.1 i0 i1, r.2.2)

/-- Events of a whole stored-tile input whose header is valid: a CHECK mismatch, an L0_MAP bit outside the tensor (R148). -/
def Tens.storedEvents (t : Tens) (h : HdrSt) (rd : Rd) : List Ev :=
  match h with
  | .plain => []
  | .invalid => []
  | .ok h =>
    let body := rd (t.base + 16) h.body
    evs body.2 0 0 ++ (if crc32c (toLE 12 h.raw ++ body.1) = h.check then [] else [⟨0x12, 0, 0⟩]) ++
      (List.range 16).flatMap (fun i =>
        if bit h.map i && (decide (t.dim0 ≤ i % 4 * 32) || decide (t.dim1 ≤ i / 4 * 32)) then [⟨0x10, i % 4, i / 4⟩]
        else [])

/-- The operand is 2:4, by header or descriptor, along dimension `axis` (R104, R140). -/
def Tens.twoFour (t : Tens) (h : HdrSt) (axis : Nat) : Bool :=
  match h with
  | .plain => t.array && t.axis == axis
  | .ok h => h.enc == 1 && h.axis == axis
  | .invalid => false

/-- The operand carries S8 scales as read (R137). -/
def Tens.readScaled (t : Tens) (h : HdrSt) : Bool :=
  match h with
  | .plain => t.scaled
  | .ok h => h.scaled
  | .invalid => false

/-! Outputs. -/

/-- One output element before conversion: its exact value and the random value of R47. -/
structure OutEl where
  v : Fv
  r : Nat
deriving DecidableEq, Repr

/-- Elements in runs of 32 (R39). -/
def blocks32 {α : Type} : Nat → List α → List (List α)
  | 0, _ => []
  | n + 1, xs => if xs.isEmpty then [] else xs.take 32 :: blocks32 n (xs.drop 32)

/-- Converts one dim-0 line whose first element begins a scale block: codes, scale bytes and flags (R41 to R46). -/
def convLine (f : Fmt) (mode : Nat) (xs : List OutEl) : List Nat × List Nat × Flags :=
  if modeScaled f mode then
    let bs := blocks32 xs.length xs
    let rs := bs.map (fun b =>
      let k := blockScale f (b.map (·.v))
      let cs := b.map (fun x => scaledElem f mode x.r k x.v)
      (cs.map (·.1), k, cs.foldl (fun fl c => fl ||| c.2) flagNone))
    (rs.flatMap (·.1), rs.map (·.2.1), rs.foldl (fun fl r => fl ||| r.2.2) flagNone)
  else
    let cs := xs.map (fun x => convertTo f mode x.r x.v)
    (cs.map (·.1), [], cs.foldl (fun fl c => fl ||| c.2) flagNone)

/-- Class of a converted element for R142: 3 NaN, 2 infinity, 1 finite, 0 zero. -/
def pruneClass : Fv → Nat
  | .nan => 3
  | .inf _ => 2
  | .fin _ m _ => if m = 0 then 0 else 1

/-- The rank of R142 of a converted element: class, magnitude, then the lower position. -/
def pruneAbove (a b : Nat × Fv) : Bool :=
  let ca := pruneClass a.2
  let cb := pruneClass b.2
  if ca ≠ cb then decide (cb < ca)
  else
    match a.2, b.2 with
    | .fin _ m x, .fin _ n y =>
      if ca = 1 ∧ magLe n y m x = false then false
      else if ca = 1 ∧ magLe m x n y = false then true
      else decide (a.1 < b.1)
    | _, _ => decide (a.1 < b.1)

/-- The best-ranked of some positions. -/
def pruneBest : List (Nat × Fv) → Option (Nat × Fv)
  | [] => none
  | x :: xs => match pruneBest xs with
    | none => some x
    | some y => if pruneAbove x y then some x else some y

/-- A pruned group (R142): its nibble, its two slot codes and its excess. `g` gives code and value of each position
inside the dimension, in order. -/
def pruneGroup (g : List (Nat × Fv)) : Nat × Nat × Nat × Nat :=
  let ix := g.zipIdx.map (fun x => (x.2, x.1.2))
  let keep := match pruneBest ix with
    | none => [0, 1]
    | some a => match pruneBest (ix.filter (fun p => p.1 ≠ a.1)) with
      | none => [a.1, g.length]
      | some b => [min a.1 b.1, max a.1 b.1]
  let lo := keep.getD 0 0
  let hi := keep.getD 1 1
  let nz := fun (v : Fv) => match v with
    | .fin _ 0 _ => false
    | _ => true
  let code := fun (i : Nat) => (g.getD i (0, fvZero)).1
  (lo + 4 * hi, code lo, code hi, (ix.filter (fun p => p.1 ≠ lo && p.1 ≠ hi && nz p.2)).length)

/-- Groups of four. -/
def groups4 {α : Type} : Nat → List α → List (List α)
  | 0, _ => []
  | n + 1, xs => if xs.isEmpty then [] else xs.take 4 :: groups4 n (xs.drop 4)

/-- A group with every position that it does not keep replaced by a zero code (R139, R142). -/
def prunedGroup (g : List (Nat × Fv)) : List (Nat × Fv) :=
  let n := (pruneGroup g).1
  g.zipIdx.map (fun x => if x.2 = n % 4 ∨ x.2 = n / 4 then x.1 else (0, fvZero))

/-- Packs codes of `w` bits into bytes (R30). -/
def packCodes (w : Nat) (cs : List Nat) : List Byte :=
  if w = 4 then
    (List.range (ceilDiv cs.length 2)).map (fun j => BitVec.ofNat 8 (cs.getD (2 * j) 0 + 16 * cs.getD (2 * j + 1) 0))
  else cs.flatMap (fun c => toLE (w / 8) c)

/-- A converted output: lines of codes with their decoded values after scaling, and lines of scale bytes. -/
structure Grid where
  codes : List (List (Nat × Fv))
  scales : List (List Nat)
  flags : Flags
deriving DecidableEq, Repr

/-- Converts the lines of an output. -/
def gridOf (f : Fmt) (mode : Nat) (lines : List (List OutEl)) : Grid :=
  let rs := lines.map (convLine f mode)
  { codes := rs.map (fun r => r.1.zipIdx.map (fun c =>
      (c.1, if modeScaled f mode then scaled (r.2.1.getD (c.2 / 32) 127) (decodeFmt f c.1) else decodeFmt f c.1)))
    scales := rs.map (·.2.1)
    flags := rs.foldl (fun fl r => fl ||| r.2.2) flagNone }

/-- What an encoded output comes to: its stores, the flags, the excess of R143 and whether R139 wrote it dense. -/
structure OutRes where
  stores : List Store
  flags : Flags
  excess : Nat
  storedDense : Bool
deriving DecidableEq, Repr

/-- Scale bytes of the lines of a dense or array output. -/
def scaleStores (t : Tens) (op p0 p1 : Nat) (g : Grid) : List Store :=
  if t.scaled then
    g.scales.zipIdx.map (fun x => (t.cls, hKey t.handle, t.scaleBase + (p1 + x.2) * t.scaleStride + p0 / 32,
      x.1.map (BitVec.ofNat 8), op))
  else []

/-- A dense output from position (p0, p1) (R104). -/
def outDense (t : Tens) (op p0 p1 : Nat) (g : Grid) : OutRes :=
  { stores := g.codes.zipIdx.flatMap (fun x => runStores t.cls (hKey t.handle) op t.w (t.base + (p1 + x.2) * t.stride1) p0
      (x.1.map (·.1))) ++ scaleStores t op p0 p1 g
    flags := g.flags, excess := 0, storedDense := false }

/-- A line of groups from dim-0 position `p0`: nibbles, slot codes and excess. -/
def pruneLine (xs : List (Nat × Fv)) : List (Nat × Nat × Nat × Nat) := (groups4 xs.length xs).map pruneGroup

/-- Nibbles from position `p` with the last byte made whole by the nibble of a group beyond the effective extent (R132). -/
def fillNibs (p : Nat) (ns : List Nat) : List Nat := if ns ≠ [] ∧ (p + ns.length) % 2 = 1 then ns ++ [4] else ns

/-- A 2:4 array-form output (R131, R132, R142). -/
def outArray (t : Tens) (op p0 p1 : Nat) (g : Grid) : OutRes :=
  let key := hKey t.handle
  if t.axis = 0 then
    let ps := g.codes.map pruneLine
    { stores := ps.zipIdx.flatMap (fun x =>
        let ns := fillNibs (p0 / 4) (x.1.map (·.1))
        runStores t.cls key op t.w (t.base + (p1 + x.2) * t.stride1) (2 * (p0 / 4))
          (x.1.flatMap (fun q => [q.2.1, q.2.2.1])) ++
        runStores t.cls key op 4 (t.metaBase + (p1 + x.2) * t.metaStride) (p0 / 4) ns) ++ scaleStores t op p0 p1 g
      flags := g.flags
      excess := (ps.flatMap (fun l => l.map (·.2.2.2))).sum
      storedDense := false }
  else
    let width := (g.codes.map (·.length)).foldl max 0
    let gs := (groups4 g.codes.length g.codes).map (fun rows =>
      (List.range width).map (fun c => pruneGroup (rows.map (fun r => r.getD c (0, fvZero)))))
    { stores := gs.zipIdx.flatMap (fun x =>
        let gi := p1 / 4 + x.2
        runStores t.cls key op t.w (t.base + 2 * gi * t.stride1) p0 (x.1.map (·.2.1)) ++
        runStores t.cls key op t.w (t.base + (2 * gi + 1) * t.stride1) p0 (x.1.map (·.2.2.1)) ++
        runStores t.cls key op 4 (t.metaBase + gi * t.metaStride) p0 (fillNibs p0 (x.1.map (·.1)))) ++
          scaleStores t op p0 p1 g
      flags := g.flags
      excess := (gs.flatMap (fun l => l.map (·.2.2.2))).sum
      storedDense := false }

/-- The header of a stored tile with its CHECK, followed by its body (R137). -/
def storedBytes (t : Tens) (enc : Nat) (dense : Bool) (scaled : Bool) (map : Nat) (body : List Byte) : List Byte :=
  let h := t.code + enc * 2 ^ 4 + ofBool dense * 2 ^ 6 + (if enc = 1 then t.axis else 0) * 2 ^ 7 + ofBool scaled * 2 ^ 8 +
    map * 2 ^ 16 + (t.dim0 - 1) * 2 ^ 32 + (t.dim1 - 1) * 2 ^ 40 + body.length * 2 ^ 64
  let head := toLE 12 h
  head ++ toLE 4 (crc32c (head ++ body)) ++ body

/-- Pads a section to 16 bytes. -/
def padSec (bs : List Byte) : List Byte := padTo (alignUp 16 bs.length) bs

/-- A stored-tile output (R138, R139, R141, R142, R144): `g` holds every position of DIM0 × DIM1. -/
def outStored (t : Tens) (op : Nat) (g : Grid) : OutRes :=
  let w := t.w
  let sc := if t.scaled then padSec (g.scales.flatMap (fun l => l.map (BitVec.ofNat 8))) else []
  let rows : List (List (Nat × Fv)) :=
    if t.sparse = 1 ∧ t.axis = 0 then g.codes.map (fun l => (groups4 l.length l).flatMap prunedGroup)
    else if t.sparse = 1 then (groups4 g.codes.length g.codes).flatMap (fun rows =>
      let cols := (List.range t.dim0).map (fun c => prunedGroup (rows.map (fun r => r.getD c (0, fvZero))))
      (List.range rows.length).map (fun j => cols.map (fun c => c.getD j (0, fvZero))))
    else g.codes
  let dense := padSec (packCodes w (rows.flatMap (fun l => l.map (·.1)))) ++ sc
  let enc : List Byte × Nat × Nat :=
    if t.sparse = 1 then
      if t.axis = 0 then
        let ps := g.codes.map pruneLine
        (padSec (packCodes w (ps.flatMap (fun l => l.flatMap (fun q => [q.2.1, q.2.2.1])))) ++
          padSec (packCodes 4 (ps.flatMap (fun l => l.map (·.1)))) ++ sc, 0, (ps.flatMap (fun l => l.map (·.2.2.2))).sum)
      else
        let gs := (groups4 g.codes.length g.codes).map (fun rows =>
          (List.range t.dim0).map (fun c => pruneGroup (rows.map (fun r => r.getD c (0, fvZero)))))
        (padSec (packCodes w (gs.flatMap (fun l => l.map (·.2.1) ++ l.map (·.2.2.1)))) ++
          padSec (packCodes 4 (gs.flatMap (fun l => l.map (·.1)))) ++ sc, 0, (gs.flatMap (fun l => l.map (·.2.2.2))).sum)
    else
      let at_ := fun (i0 i1 : Nat) => (g.codes.getD i1 []).getD i0 (0, fvZero)
      let nz := fun (v : Fv) => match v with
        | .fin _ 0 _ => false
        | _ => true
      let cells := fun (b : Nat) => (List.range 1024).map (fun e => (b % 4 * 32 + e % 32, b / 4 * 32 + e / 32))
      let keep := (List.range 16).filter (fun b => (cells b).any (fun p => nz (at_ p.1 p.2).2))
      (keep.flatMap (fun b => packCodes w ((cells b).map (fun p => (at_ p.1 p.2).1))) ++
        (if t.scaled then padSec (keep.flatMap (fun b => (List.range 32).map (fun j =>
          BitVec.ofNat 8 ((g.scales.getD (b / 4 * 32 + j) []).getD (b % 4) 0x7F)))) else []),
        (keep.map (fun b => 2 ^ b)).sum, 0)
  let asDense := decide (dense.length ≤ enc.1.length)
  let bs := if asDense then storedBytes t 0 true t.scaled 0 dense
    else storedBytes t t.sparse false t.scaled enc.2.1 enc.1
  { stores := [(t.cls, hKey t.handle, t.base, bs, op)], flags := g.flags
    excess := enc.2.2
    storedDense := asDense }

/-- Encodes an output (R104, R141): `pl` is its placement by `outPlace` with effective extents (n0, n1), and `el i0 i1`
gives the element at the tile's own place along dim 0 and dim 1. -/
def encodeOut (t : Tens) (op p0 p1 n0 n1 : Nat) (el : Nat → Nat → OutEl) : OutRes :=
  if t.stored then
    let zero : OutEl := ⟨fvZero, 0⟩
    outStored t op (gridOf t.fmt t.conv ((List.range t.dim1).map (fun i1 => (List.range t.dim0).map (fun i0 =>
      if i0 < n0 ∧ i1 < n1 then el i0 i1 else zero))))
  else
    let m0 := min n0 (t.dim0 - p0)
    let m1 := min n1 (t.dim1 - p1)
    let g := gridOf t.fmt t.conv ((List.range m1).map (fun i1 => (List.range m0).map (fun i0 => el i0 i1)))
    if t.array then outArray t op p0 p1 g else outDense t op p0 p1 g

end Sys2Proof.Machine
end

