-- ==== Sys2Proof/Machine/Lists.lean ====
section
/-!
DEFINITION. The common work lists: posting (R109 to R111), completion (R108, R121 to R124), waits (R107, R187, R195),
readiness and choice (R112 to R115), refusals (R494) and the claim of a tile by a core.
Choices and readings that the model fixes here: log 23.
-/

namespace Sys2Proof.Machine

/-! Errors that accesses find (R87, R292, R300, R301, R311, R317). -/

/-- The cause of an uncorrectable SRAM error, with the operand read (R87, R123, R292, R311). -/
def SramErr.cause : SramErr → Option (Nat × Nat)
  | .localStore op => some (0x01, op)
  | .exchange op => some (0x01, op)
  | .mem _ .l2Lost op => some (0x01, op)
  | .accumulator op => some (0x02, op)
  | _ => none

/-- The causes of a tile's uncorrectable SRAM errors. -/
def sramCauses (es : List SramErr) : List (Nat × Nat) := es.filterMap SramErr.cause

/-- Some of the errors kept data from the tile. -/
def sramLost (es : List SramErr) : Bool := !(sramCauses es).isEmpty

/-- One error of a tile's accesses: corrected ones count for the die or the hub, errors of device memory take their effect
(R87, R292, R300, R301, R311, R385); a class whose link is lost stops (R317). -/
def State.sramOne (core : Nat) (s : State) : SramErr → State
  | .corrected => s.bump (ceCountId + dieOf core)
  | .exchCorrected => s.bump (ceCountId + 4)
  | .mem a e _ => s.memErr a e
  | .link c => if c < 8 then s.urnStop c else s
  | _ => s

/-- The errors that a tile's accesses met. -/
def State.sram (s : State) (core : Nat) (es : List SramErr) : State := es.foldl (State.sramOne core) s

/-- An uncorrectable error takes a new free value, of which the data lost are made (log 9). -/
def State.lose (s : State) (err : List SramErr) : State := if sramLost err then s.fresh else s

/-- An error comes up at unit `f.1`, a core or txeCore: what keeps data from a tile waits for the next acceptance, EXCHANGE
work or store of one, and anything else takes its effect (DESIGN CHOICE, log 9). -/
def State.flaw (s : State) (f : Nat × SramErr) : State :=
  if (SramErr.cause f.2).isSome then s.setMem { s.mem with found := s.mem.found ++ [f.2] } else State.sramOne (f.1 % 257) s f.2

/-- The errors that accesses find at this moment, where the command that makes the access does not carry them: free values
(log 9). -/
def State.flaws (s : State) : State := if s.power.rails then (Config.found s.clk).foldl State.flaw s else s

/-- The free value of the data that waiting errors keep from a tile, if they do. -/
def State.lostNow (s : State) : Option Nat := if sramLost s.mem.found then some s.free else none

/-- A tile has met the waiting errors. -/
def State.foundDone (s : State) : State := (s.setMem { s.mem with found := [] }).lose s.mem.found

/-- Bytes that an error lost, where one did. -/
def lostBytes (ev : Option Nat) (bs : List Byte) : List Byte := match ev with
  | none => bs
  | some e => bs.zipIdx.map (fun b => BitVec.ofNat 8 (Config.lost e b.2))

/-! Posting. -/

/-- Inserts an entry in order of post sequence number. -/
def insertEntry (e : Entry) : List Entry → List Entry
  | [] => [e]
  | x :: xs => if e.seq < x.seq then e :: x :: xs else x :: insertEntry e xs

/-- An entry enters a die list, which raises the wake wires of its die's cores (R110, R191). -/
def State.enlist (s : State) (e : Entry) : State :=
  (s.setSched { s.sched with posts := tset 0 s.sched.posts e.die (tget 0 s.sched.posts e.die + 1) }).setDieList e.die
    (insertEntry e (s.dieList e.die))

/-- Die list with the most free entries, lowest number among equals (R109). -/
def State.anyDie (s : State) : Nat :=
  (List.range 4).foldl (fun b d => if (s.dieList d).length < (s.dieList b).length then d else b) 0

/-- Overflow entries of a context. -/
def State.overOf (s : State) (ctx : Nat) : Nat := (s.sched.overflow.filter (fun e => e.ctx == ctx)).length

/-- The overflow list has room for a further entry of a context: 2,048 reserved, 32,768 shared (R110, R111). -/
def State.overRoom (s : State) (ctx : Nat) : Bool :=
  decide (s.overOf ctx < 2048) || decide ((allCtx.map (fun c => s.overOf c - 2048)).sum < 32768)

/-- Posts a descriptor to a die (4 for ANY); none where no entry is free (R109 to R111). -/
def State.post (s : State) (ctx target : Nat) (d : WorkDesc) : Option State :=
  let die := if target = 4 then s.anyDie else target
  let e : Entry := ⟨d, ctx, s.sched.nextSeq, die, none, false, false⟩
  let s' := s.setSched { s.sched with nextSeq := (s.sched.nextSeq + 1) % 2 ^ 48 }
  if (s.dieList die).length < 4096 then some (s'.enlist e)
  else if s.overRoom ctx then some (s'.setSched { s'.sched with overflow := insertEntry e s.sched.overflow })
  else none

/-- Puts a withdrawn or returned entry back into its list with its post sequence number (R120, R125). DESIGN CHOICE
(log 47): it re-enters its die list even where that holds 4,096 entries. -/
def State.repost (s : State) (e : Entry) : State := s.enlist e

/-- Takes an entry out of its die list. -/
def State.unlist (s : State) (e : Entry) : State :=
  s.setDieList e.die ((s.dieList e.die).filter (fun x => x.seq != e.seq))

/-- OVERFLOW_MOVE: the oldest overflow entry of a die moves to its die list when that has room (R111). -/
def State.overflowMove (die : Nat) (s : State) : State :=
  match (s.sched.overflow.filter (fun e => e.die == die)).head? with
  | some e =>
    if (s.dieList die).length < 4096 then
      (s.setSched { s.sched with overflow := s.sched.overflow.filter (fun x => x.seq != e.seq) }).repost e
    else s
  | none => s

/-! Completion. -/

/-- What a completion record says (R121). -/
structure Cpl where
  desc : WorkDesc
  ctx : Nat
  core : Nat
  status : Nat
  detail : Nat
  sparse : Bool
  substituted : Bool
  longChain : Bool
  reissued : Bool
  flags : Flags
  m : Nat
  n : Nat
  accept : Nat
deriving DecidableEq, Repr

/-- The 32 bytes of a record. -/
def Cpl.bytes (c : Cpl) (now : Nat) : List Byte :=
  toLE 4 (dTileId c.desc) ++
    toLE 4 (c.status + c.core * 2 ^ 8 + c.ctx * 2 ^ 16 + ofBool c.sparse * 2 ^ 20 + ofBool c.substituted * 2 ^ 21 +
      ofBool c.longChain * 2 ^ 22 + ofBool c.reissued * 2 ^ 23 + c.flags.toNat * 2 ^ 24) ++
    toLE 4 c.detail ++ toLE 4 (c.m + c.n * 2 ^ 8) ++ toLE 8 c.accept ++ toLE 8 now

/-- Writes a record to the ring of its context, or counts it as lost (R121, R459). -/
def State.cplWrite (s : State) (ctx : Nat) (bs : List Byte) : State :=
  let p := s.page ctx
  let n := s.ov (cplRingEntriesId + ctx)
  let t := (p.cplTail + 1) % n
  if t = p.cplHead then
    s.modOv (cplStatusId + ctx) (fun v => satAdd 32 (bits v 0 32) 1 + 2 ^ 32)
  else
    let s := s.storeDev (s.ov (cplRingBaseId + ctx) + 32 * p.cplTail) bs
    let s := s.modPage ctx (fun q => { q with cplTail := t })
    if ctx < 15 then s.interrupt ctx 1 else s

/-- A status that fails the step (R124). -/
def failing (st : Nat) : Bool := st != stOk && st != stEmpty

/-- Steps 2 and 3 of R108: the record, the format flags, the failure latch, then SIGNAL0 and SIGNAL1. -/
def State.finish (s : State) (c : Cpl) : State :=
  let s := if c.status ≠ stOk ∨ dCplAlways c.desc then s.cplWrite c.ctx (c.bytes (s.ftRead hubPs)) else s
  let s := if c.flags = 0 then s else s.orOv (formatFlagsId + c.ctx) c.flags.toNat
  let s := if failing c.status then s.latch c.ctx 1 else s
  (s.signalWord c.ctx (dSignal c.desc 0)).signalWord c.ctx (dSignal c.desc 1)

/-- The cause of DETAIL: lowest CAUSE, then lowest OPERAND (R123). -/
def lowestCause : List (Nat × Nat) → Nat
  | [] => 0
  | x :: xs =>
    let r := lowestCause xs
    let v := x.1 * 256 + x.2
    let w := r % 256 * 256 + r / 256
    if xs.isEmpty ∨ v ≤ w then x.1 + x.2 * 256 else r

/-- Record of a tile that was never accepted. DESIGN CHOICE (log 47): its ACCEPT_TIME is `now`, the time of its refusal or
withdrawal. -/
def cplOf (e : Entry) (core status detail now : Nat) : Cpl :=
  { desc := e.desc, ctx := e.ctx, core := core, status := status, detail := detail, sparse := false,
    substituted := false, longChain := false, reissued := e.reissued, flags := 0, m := 0, n := 0, accept := now }

/-- A tile withdrawn from its list without acceptance completes DEFECTIVE (R187, R195). -/
def State.withdraw (s : State) (e : Entry) (core cause : Nat) : State :=
  (s.unlist e).finish (cplOf e core stDefective (cause + 9 * 256) (s.ftRead hubPs))

/-! Waits. -/

/-- A wait word names a counter: its physical index. -/
def State.waitPhys (s : State) (ctx w : Nat) : Nat := (s.syncEntry ctx (bits w 0 16)).phys

/-- Both waits of a tile name one counter (R107). -/
def State.oneCounter (s : State) (ctx : Nat) (d : WorkDesc) : Bool :=
  let e0 := s.syncEntry ctx (bits (dWait d 0) 0 16)
  let e1 := s.syncEntry ctx (bits (dWait d 1) 0 16)
  bits (dWait d 0) 16 14 != 0 && bits (dWait d 1) 16 14 != 0 && e0.kind == 1 && e1.kind == 1 && e0.phys == e1.phys

/-- What the waits of an entry find (R107, R187, R195): a translation failure before an overrun, both before unmet. -/
def State.waits (s : State) (e : Entry) : WaitRes :=
  if e.taken then .met
  else
    let a := s.waitTest e.ctx (dWait e.desc 0)
    let b := s.waitTest e.ctx (dWait e.desc 1)
    if a = .mapInvalid ∨ b = .mapInvalid then .mapInvalid
    else if a = .overrun ∨ b = .overrun then .overrun
    else if a = .unmet ∨ b = .unmet then .unmet
    else if s.oneCounter e.ctx e.desc ∧
        s.ctr (s.waitPhys e.ctx (dWait e.desc 0)) < bits (dWait e.desc 0) 16 14 + bits (dWait e.desc 1) 16 14 then .unmet
    else .met

/-- The conditional take of one met wait in mode TAKE on a counter (R107). -/
def State.takeWait (s : State) (ctx w : Nat) : State :=
  let e := s.syncEntry ctx (bits w 0 16)
  if bits w 16 14 = 0 ∨ bits w 30 2 ≠ 0 ∨ e.kind ≠ 1 then s
  else s.setCtr e.phys (s.ctr e.phys - bits w 16 14)

/-- Removes the TAKE counts of a tile whose waits are met. -/
def State.takeWaits (s : State) (e : Entry) : State :=
  if e.taken then s else (s.takeWait e.ctx (dWait e.desc 0)).takeWait e.ctx (dWait e.desc 1)

/-- Notes when each listed tile's waits are met (R112). DESIGN CHOICE (log 47): STEAL_AGE counts from this moment, whatever
the other tests of R113 find. -/
def State.markReady (s : State) : State :=
  s.setSched { s.sched with lists := tmap [] (fun l => l.map (fun e =>
    if s.waits e = .met then { e with readyAt := some (e.readyAt.getD s.clk) } else { e with readyAt := none })) s.sched.lists }

/-! Chains and slots. -/

/-- Slot `i` of a core. -/
def Core.slot (c : Core) (i : Nat) : Slot := tget .free c.slots i

/-- A core with one slot replaced. -/
def Core.setSlot (c : Core) (i : Nat) (x : Slot) : Core := { c with slots := tset .free c.slots i x }

/-- Lowest FREE slot (R89). -/
def Core.freeSlot (c : Core) : Option Nat := ((List.range 16).filter (fun i => (c.slot i).st == .free)).head?

/-- Slots in state HELD, and those that accepted HOLD tiles will leave so (R101). -/
def Core.heldSlots (c : Core) : Nat :=
  ((List.range 16).filter (fun i => (c.slot i).st == .held)).length +
    (c.tiles.filter (fun t => dHold t.desc && t.slot.isSome)).length

/-- The slot that holds a chain in state HELD. -/
def Core.chainSlot (c : Core) (ctx chain : Nat) : Option Nat :=
  ((List.range 16).filter (fun i => (c.slot i).st == .held && (c.slot i).ctx == ctx && (c.slot i).chain == chain)).head?

/-- A chain has a slot on a core in one of some states, or saved there (R101). -/
def Core.chainIn (c : Core) (states : List SlotSt) (ctx chain : Nat) : Bool :=
  (List.range 16).any (fun i => states.contains (c.slot i).st && (c.slot i).ctx == ctx && (c.slot i).chain == chain) ||
    c.savedChains.any (fun x => x.1 == ctx && x.2.2 == chain)

/-- A core holds a chain for CHAIN_MISSING: HELD or ACCUMULATING, or INIT on its way there (R89, R101; log 23). -/
def Core.chainOn (c : Core) (ctx chain : Nat) : Bool := c.chainIn [.held, .accumulating, .init] ctx chain

/-- Logical cores of a die (R12). -/
def dieCores (die : Nat) : List Nat := (List.range 64).map (fun i => 64 * die + i)

/-- A chain is held on a die (R101). -/
def State.chainHeld (s : State) (die ctx chain : Nat) : Bool :=
  (dieCores die).any (fun c => (s.core c).chainOn ctx chain)

/-- A chain's number is taken on a die for CHAIN_DUPLICATE: a slot that drains still counts (R101; log 23). -/
def State.chainTaken (s : State) (die ctx chain : Nat) : Bool :=
  (dieCores die).any (fun c => (s.core c).chainIn [.held, .accumulating, .init, .draining] ctx chain)

/-- A tile that ends or continues a chain. -/
def usesChain (d : WorkDesc) : Bool := dType d == 3 || (dType d == 0 && dAccMode d == 2)

/-- An earlier chain tile of the same chain remains in a list (R232). -/
def State.chainEarlier (s : State) (e : Entry) : Bool :=
  bit (s.ov (stepCfgId + e.ctx)) 31 == false &&
    (s.dieList e.die ++ s.sched.overflow.filter (fun x => x.die == e.die)).any (fun x =>
      x.ctx == e.ctx && usesChain x.desc && dChain x.desc == dChain e.desc && decide (x.seq < e.seq))

/-! Inputs of a tile. -/

/-- Inputs that a tile uses, by descriptor word. -/
def inputWords (d : WorkDesc) : List Nat :=
  match dType d with
  | 0 => [0, 1] ++ (if dAccMode d = 1 then [2] else []) ++ (if vuNeedsAux (dRoutine d) then [3] else [])
  | 1 => [2] ++ (if vuNeedsAux (dRoutine d) then [3] else [])
  | 2 => [0]
  | 4 => [1]
  | 5 => [0]
  | 7 => [2]
  | _ => []

/-- Value of COMMITTED recorded for a tile of the evaluation context (R475). -/
def State.evalAccept (s : State) (ctx : Nat) : Option Nat :=
  if s.evalOn ∧ ctx = s.evalCtx then some (s.stp s.evalSrc).committed else none

/-- EVAL_STATUS PARITY at the acceptance of an evaluation tile (R479). -/
def State.evalNote (s : State) (c : Option Nat) : State :=
  match c with
  | some v => s.setTele { s.tele with parity := v % 2 }
  | none => s

/-- Input descriptors of a tile, used or not, by descriptor word (R313, R314). -/
def namedInputs (d : WorkDesc) : List Nat :=
  match dType d with
  | 3 => []
  | 4 => [1]
  | 5 => [0]
  | _ => [0, 1, 2, 3]

/-- Header state of an input word of a tile on a core, with the causes its reading met (R140). -/
def State.inputHdrs (s : State) (core : Nat) (e : Entry) (i : Nat) : HdrSt × List Nat :=
  if dWord e.desc i = 0 then (.plain, [])
  else
    let t := s.tensAt (dWord e.desc i)
    s.hdrSt core e.ctx e.seq (s.evalAccept e.ctx) (s.urnTensCheck e.ctx t false != 0) t

/-- Header state of an input word of a tile on a core (R140). -/
def State.inputHdr (s : State) (core : Nat) (e : Entry) (i : Nat) : HdrSt := (s.inputHdrs core e i).1

/-- Causes met in reading the headers of a tile's inputs, and SPARSE_HEADER for each that is invalid (R140, R148). -/
def State.hdrCauses (s : State) (core : Nat) (e : Entry) : List (Nat × Nat) :=
  (inputWords e.desc).flatMap (fun i =>
    let h := s.inputHdrs core e i
    h.2.map (fun c => (c, i)) ++ (if h.1 = .invalid then [(0x12, i)] else []))

/-- Dimension of K for operand word 0 or 1 (R103). -/
def kAxis (t : Tens) : Nat := if t.trans then 1 else 0

/-- The sparse engine is chosen for a MATMUL tile on a die: an operand is 2:4 along K, and none across it (R79, R80). -/
def State.wantSparse (s : State) (core : Nat) (e : Entry) : Bool :=
  let d := e.desc
  let a := s.tensAt (dWord d 0)
  let b := s.tensAt (dWord d 1)
  dType d == 0 && dEngine d != 1 && (s.die (dieOf core)).eng != .denseOnly &&
    (a.twoFour (s.inputHdr core e 0) (kAxis a) || b.twoFour (s.inputHdr core e 1) (kAxis b)) &&
    !(a.twoFour (s.inputHdr core e 0) (1 - kAxis a)) && !(b.twoFour (s.inputHdr core e 1) (1 - kAxis b)) &&
    (match pairClass a.fmt b.fmt with
     | some c => c.g != 2
     | none => false)

/-- An engine of a core has no tile on it or waiting for it. -/
def Core.engineIdle (c : Core) (sparse : Bool) : Bool :=
  !(c.tiles.any (fun t => dType t.desc == 0 && t.sparse == sparse &&
    (t.stage == .waiting || t.stage == .computing || t.stage == .stopped)))

/-- A suspended tile whose context's switch has not saved its slot yet (R120). -/
def Core.unsaved (c : Core) (t : Tile) : Bool := c.switchTo.isSome && t.ctx == c.ctx

/-- The tiles whose work stands in a core alone: accepted ones, and suspended ones not saved yet. -/
def Core.onCore (c : Core) : List Tile := c.tiles ++ c.suspended.filter c.unsaved

/-! Refusals (R494). -/

/-- Violations of R239 that call for DESC_RESERVED. DESIGN CHOICE (log 47): a reserved FORMAT of GRAD_DESC is left to
FORMAT_RESERVED of item 5. -/
def State.updReserved (s : State) (ctx : Nat) (d : WorkDesc) : Bool :=
  let v := leNat (s.loadDev (dWord d 0) 128)
  let fmtF := fun (c : Nat) (ok : List Nat) => !(ok.contains c)
  let rt := dRoutine d
  let vb0 := bits v 256 64
  let vb1 := bits v 320 64
  let q0 := bits v 384 64
  let q1 := bits v 448 64
  let norm := s.ov (normCfgId + ctx)
  let g := s.tensAt (dWord d 1)
  (rt != 0x30 && rt != 0x31) || dEngine d != 0 || dAccMode d != 0 || dHold d || dChain d != 0 || dK d != 0 ||
    dK0 d != 0 || dWord d 4 != 0 || dWord d 5 != 0 || dWord d 6 != 0 || dWord d 7 != 0 || bits (dScalar d) 16 16 != 0 ||
    dWord d 0 == 0 || dWord d 1 == 0 || dWord d 3 == 0 ||
    decide (bits v 640 32 < dCol0 d + dN d) || decide (bits v 672 32 < dRow0 d + dM d) ||
    (rt == 0x30 && (vb0 != 0 || vb1 != 0)) || (rt == 0x31 && (vb0 == 0 || vb1 == 0)) ||
    ((q0 == 0) != (q1 == 0)) || fmtF (bits v 704 4) [0, 1, 2] || fmtF (bits v 712 4) [0, 2] ||
    (rt == 0x31 && fmtF (bits v 720 4) [0, 2]) || (q0 != 0 && fmtF (bits v 728 4) [4, 3, 5, 1, 2]) ||
    bit v 711 || bit v 719 || bit v 727 || bits v 748 4 != 0 || bits v 752 272 != 0 ||
    (bits norm 0 64 != 0 && decide (bits norm 64 16 < bits (dScalar d) 0 16)) ||
    (fmtOf g.code != none && (fmtIsInt g.fmt || g.fmt == .a48)) || (g.cls != 0 && g.cls != 2)

/-- Misaligned addresses of an UPDATE tile (R239, R240). -/
def State.updAlign (s : State) (d : WorkDesc) : Bool :=
  let v := leNat (s.loadDev (dWord d 0) 128)
  let q := (fmtOf (bits v 728 4)).getD .f32
  let need := bits v 384 64 != 0 && (modeScaled q (bits v 732 3) || q == .f4)
  dWord d 0 % 128 != 0 || dWord d 2 % 16 != 0 || dWord d 3 % 64 != 0 ||
    (List.range 4).any (fun i => bits v (512 + 32 * i) 32 % 16 != 0) ||
    (need && (dCol0 d % 32 != 0 || (dN d % 32 != 0 && decide (dCol0 d + dN d < bits v 640 32))))

/-- Fields of an EMIT tile (R267). -/
def emGroup (d : WorkDesc) : Nat := bits (dScalar d) 0 2
def emOwner (d : WorkDesc) : Nat := bits (dScalar d) 2 5
def emList (d : WorkDesc) : Nat := bits (dScalar d) 8 8
def emLayer (d : WorkDesc) : Nat := bits (dScalar d) 16 12
def emTag (d : WorkDesc) : Nat := bits (dWord d 0) 0 32

/-- Ring of an EMIT tile. -/
def State.emRing (s : State) (ctx : Nat) (d : WorkDesc) : Option Ring :=
  s.ringFor ctx (emGroup d) (emList d) (emOwner d)

/-- This module owns an EMIT tile's sum. -/
def State.emOwns (s : State) (ctx : Nat) (d : WorkDesc) : Bool :=
  match s.emRing ctx d with
  | some r => r.isOwner (emOwner d)
  | none => false

/-- Violations of R267. DESIGN CHOICE (log 47): a reserved FORMAT of DELIV_DESC is left to FORMAT_RESERVED of item 5. -/
def State.emitReserved (s : State) (ctx : Nat) (d : WorkDesc) : Bool :=
  let t := s.tensAt (dWord d 1)
  dChain d == 0 || dAccMode d != 0 || dHold d || dEngine d != 0 || dRoutine d != 0 || dK d != 0 || dK0 d != 0 ||
    bit (dScalar d) 7 || bits (dScalar d) 28 4 != 0 || bits (dWord d 0) 32 32 != 0 || bits (dWord d 3) 32 32 != 0 ||
    bits (dWord d 3) 30 2 != 0 || dWord d 4 != 0 || dWord d 5 != 0 || dWord d 6 != 0 || dWord d 7 != 0 ||
    (s.emOwns ctx d && (dWord d 1 == 0 || dWord d 2 == 0 || (t.cls != 0 && t.cls != 2) || t.sparse != 0 ||
      bit t.conv 2 || (fmtOf t.code != none && t.code != 0) || t.dim0 != 128 || t.dim1 != 128))

/-- Violations of R323. -/
def State.sendReserved (s : State) (ctx : Nat) (d : WorkDesc) : Bool :=
  let t := s.tensAt (dWord d 0)
  dWord d 0 == 0 || t.sparse != 0 || t.cls == 3 || dN d != 1 || bits (dWord d 1) 32 32 != 0 ||
    !(s.inBlock ctx (bits (dScalar d) 0 16)) || bits (dScalar d) 16 16 != 0 || dEngine d != 0 || dAccMode d != 0 ||
    dHold d || dChain d != 0 || dK d != 0 || dK0 d != 0 || dRoutine d != 0 ||
    (List.range 6).any (fun i => dWord d (i + 2) != 0) ||
    (fmtOf t.code != none && decide (4194304 < ({ t with dim1 := dM d } : Tens).denseBody t.scaled))

/-- DESC_RESERVED of item 3 (R494). -/
def State.itemReserved (s : State) (ctx : Nat) (d : WorkDesc) : Bool :=
  commonReserved d ||
    match dType d with
    | 3 => s.emitReserved ctx d
    | 4 => s.updReserved ctx d
    | 5 => s.sendReserved ctx d
    | 6 => s.exchReserved d
    | _ => s.plainReserved d

/-- DESC_ALIGN of item 3. -/
def State.itemAlign (s : State) (ctx : Nat) (d : WorkDesc) : Bool :=
  dShapeAddr d % 64 != 0 ||
    match dType d with
    | 3 => s.emOwns ctx d && dWord d 2 % 16 != 0
    | 4 => s.updAlign d
    | _ => false

/-- Words that name tensors, by TYPE, for item 5. -/
def State.tensWords (s : State) (ctx : Nat) (d : WorkDesc) : List (Nat × Role) :=
  match dType d with
  | 3 => if s.emOwns ctx d then [(1, .rows)] else []
  | 4 => [(1, .input)]
  | 5 => [(0, .input)]
  | 6 => (List.range 8).filterMap (fun i =>
      if (s.xWords d).1.contains i then some (i, .input) else if (s.xWords d).2.1.contains i then some (i, .rows) else none)
  | _ => plainWords d

/-- Integer view of a MATMUL tile: both operands unscaled integers (R59, R60). -/
def State.intTile (s : State) (core : Nat) (e : Entry) : Bool :=
  let d := e.desc
  let a := s.tensAt (dWord d 0)
  let b := s.tensAt (dWord d 1)
  fmtIsInt a.fmt && fmtIsInt b.fmt && !(a.readScaled (s.inputHdr core e 0)) && !(b.readScaled (s.inputHdr core e 1))

/-- Items 1 to 7 of R494; 0 where none fails. -/
def State.refusal17 (s : State) (core : Nat) (e : Entry) : Nat :=
  let d := e.desc
  let ctx := e.ctx
  if 8 ≤ dType d then stType
  else if dEngine d = 3 then stEngine
  else if s.itemReserved ctx d then stReserved
  else if s.itemAlign ctx d then stAlign
  else if vuDefined (dRoutine d) = false then stRoutine
  else
    let r := s.tensChecks core ctx d (s.tensWords ctx d)
    if r ≠ 0 then r
    else if dType d = 0 then
      let a := s.tensAt (dWord d 0)
      let b := s.tensAt (dWord d 1)
      if pairClass a.fmt b.fmt = none then stPair
      else if dK0 d % 32 ≠ 0 ∧ (a.readScaled (s.inputHdr core e 0) ∨ b.readScaled (s.inputHdr core e 1)) then
        stScale
      else 0
    else 0

/-- Every item of R494 for a tile claimed by a core. -/
def State.refusal (s : State) (core : Nat) (e : Entry) : Nat :=
  let d := e.desc
  let r := s.refusal17 core e
  if r ≠ 0 then r
  else if dType d = 0 ∧ dAccMode d ≠ 2 ∧ dChain d ≠ 0 ∧ s.chainTaken e.die e.ctx (dChain d) then stDup
  else if dType d = 0 ∧ dAccMode d = 2 then
    match (s.core core).chainSlot e.ctx (dChain d) with
    | some i => if ((s.core core).slot i).intView ≠ s.intTile core e then stView else 0
    | none => 0
  else 0

/-! Readiness and choice. -/

/-- Payload bytes of a SEND tile (R323). -/
def State.sendBytes (s : State) (d : WorkDesc) : Nat :=
  let t := s.tensAt (dWord d 0)
  ({ t with dim1 := dM d } : Tens).denseBody t.scaled

/-- Asks the receiver for credit for a SEND tile whose waits are met, once (R324); a request beyond the 256 that the receiver
queues waits here. -/
def State.askCredit (e : Entry) (s : State) : State :=
  let d := e.desc
  let asked := s.urn.sends.any (fun r => r.ctx == e.ctx && r.seq == e.seq)
  let open_ := (s.urn.sends.filter (fun r => r.ctx == e.ctx && r.dest == bits (dScalar d) 0 16 && r.handle.isNone)).length
  if dType d = 5 ∧ asked = false ∧ e.taken = false ∧ s.waits e = .met ∧ open_ < 256 then
    let id := s.urn.nextReq
    let dst := bits (dScalar d) 0 16
    let s := s.setUrn { s.urn with nextReq := (id + 1) % 65536, sends := s.urn.sends ++ [⟨e.ctx, e.seq, id, dst, none⟩] }
    s.send (portDie e.die) 0 e.ctx dst (mkBody 16
      [(0, 8, 0x80), (16, 16, id), (32, 32, s.sendBytes d), (96, 32, bits (dWord d 1) 0 32)])
  else s

/-- What a list controller does as waits are met: it notes the time (R112) and asks credit for SEND tiles (R324). -/
def State.notice (s : State) : State :=
  let s := s.markReady
  ((List.range 4).flatMap s.dieList).foldl (fun s e => s.askCredit e) s

/-- Penalty of R115. -/
def penalty (state cost : Nat) : Nat :=
  match state, cost with
  | 1, 1 => 1
  | 1, 2 => 3
  | 2, 1 => 3
  | 2, 2 => 6
  | _, _ => 0

/-- Cost class of a phase tag. -/
def State.costOf (s : State) (tag : Nat) : Nat := tget 1 s.kettle.cost tag

/-- Effective priority on a die (R115). -/
def State.effPrio (s : State) (die : Nat) (d : WorkDesc) : Nat :=
  dPrio d - penalty (s.die die).bstate (s.costOf (dPhase d))

/-- Budget eligibility (R115). -/
def State.eligible (s : State) (die : Nat) (d : WorkDesc) : Bool :=
  !((s.die die).bstate == 2 && s.costOf (dPhase d) == 2 && decide (dPrio d < s.ov redFloorId))

/-- Credit for a SEND tile has arrived (R113 test 6, R324). -/
def State.sendGranted (s : State) (e : Entry) : Bool :=
  s.urn.sends.any (fun r => r.ctx == e.ctx && r.seq == e.seq && r.handle.isSome)

/-- EXCHANGE tiles accepted and not ended (R209). -/
def State.txTiles (s : State) : List TxeTile := (s.txe.opens.filter (fun x => !x.tileDone)).map (·.tile) ++ s.txe.busy

/-- A tile of the evaluation context accepted under `c` holds the UPDATE tiles of step `c` + 2 (R476). -/
def State.evalPins (s : State) (ctx : Nat) (c : Option Nat) (src : Nat) : Bool :=
  match c with
  | some v => ctx == s.evalCtx && (v + 2) % 2 ^ 32 == s.stepNo src
  | none => false

/-- An UPDATE tile of SOURCE is held for evaluation (R476). -/
def State.updateHeld (s : State) (e : Entry) : Bool :=
  dType e.desc == 4 && s.evalOn && e.ctx == s.evalSrc &&
    (allCores.any (fun c => ((s.core c).tiles ++ (s.core c).suspended).any (fun t => s.evalPins t.ctx t.evalC e.ctx)) ||
      s.txTiles.any (fun x => s.evalPins x.ctx x.evalC e.ctx))

/-- The partition rule of R473 lets a core serve a context. -/
def State.evalServes (s : State) (core ctx : Nat) : Bool :=
  if s.evalOn then s.evalCore core == (ctx == s.evalCtx) else true

/-- An EMIT tile posted after the module joined a permute waits for its end (R283). -/
def State.emitHeld (s : State) (e : Entry) : Bool :=
  let p := s.perm e.ctx
  dType e.desc == 3 && decide (1 ≤ p.st) && decide (p.st ≤ 3) && decide (p.joinSeq < e.seq)

/-- Test 6 of R113; it counts as met for a tile that a switch has returned to its list (R120). -/
def State.hasCredit (s : State) (e : Entry) : Bool := dType e.desc != 5 || e.taken || s.sendGranted e

/-- Tests of R113 that concern neither the running context nor the core's own room: 2, 7, and 3 and 6 as given. -/
def State.readyBut (s : State) (core : Nat) (e : Entry) (met credit : Bool) : Bool :=
  let c := s.core core
  let d := e.desc
  dType d != 6 && !c.idleQ && !c.fenced && !s.power.halted && met && credit && s.eligible (dieOf core) d &&
    s.evalServes core e.ctx &&
    !s.updateHeld e && !s.emitHeld e && (s.stp e.ctx).st != .replaying && !(s.sched.offline.contains core)

/-- Tests 2, 3, 6 and 7 of R113. -/
def State.readyOutside (s : State) (core : Nat) (e : Entry) : Bool :=
  s.readyBut core e (s.waits e == .met) (s.hasCredit e)

/-- Test 5 of R113. -/
def State.readySlot (s : State) (core : Nat) (e : Entry) : Bool :=
  let c := s.core core
  let d := e.desc
  if usesChain d then (c.chainSlot e.ctx (dChain d)).isSome && !s.chainEarlier e
  else if dType d = 0 then c.freeSlot.isSome && (!dHold d || decide (c.heldSlots < 12))
  else true

/-- A tile is ready for a core (R113). -/
def State.ready (s : State) (core : Nat) (e : Entry) : Bool :=
  let c := s.core core
  e.ctx == c.ctx && c.switchTo.isNone && !c.asleep && decide (c.tiles.length < 4) && s.readyOutside core e &&
    s.readySlot core e

/-- A tile of another die's list is a candidate (R112). -/
def State.stealable (s : State) (core : Nat) (e : Entry) : Bool :=
  let age := s.ov stealAgeId
  !dNoSteal e.desc && !dHold e.desc && dAccMode e.desc != 2 && dType e.desc != 3 && age != 0xFFFF && !s.evalCore core &&
    match e.readyAt with
    | some t => decide (t + age ≤ s.clk)
    | none => false

/-- The order of R114: `a` is chosen before `b`. -/
def State.before (s : State) (core : Nat) (a b : Entry) : Bool :=
  let die := dieOf core
  let idle := fun (e : Entry) =>
    dType e.desc != 0 || (s.core core).engineIdle (s.wantSparse core e)
  let pa := s.effPrio die a.desc
  let pb := s.effPrio die b.desc
  if pa ≠ pb then decide (pb < pa)
  else if idle a ≠ idle b then idle a
  else if (a.die == die) ≠ (b.die == die) then a.die == die
  else decide (a.seq < b.seq)

/-- First of some entries under an order. -/
def pickBy (lt : Entry → Entry → Bool) : List Entry → Option Entry
  | [] => none
  | x :: xs => match pickBy lt xs with
    | none => some x
    | some y => if lt x y then some x else some y

/-- Candidates of a core: ready tiles of its own die's list and those it may steal. -/
def State.candidates (s : State) (core : Nat) : List Entry :=
  (List.range 4).flatMap (fun d => (s.dieList d).filter (fun e =>
    s.ready core e && (d == dieOf core || s.stealable core e)))

/-- The tile the scheduler chooses for a core (R114). -/
def State.choose (s : State) (core : Nat) : Option Entry := pickBy (s.before core) (s.candidates core)

/-! Claim and acceptance. -/

/-- One shape word (R105): the effective extent. -/
def State.shaped (s : State) (d : WorkDesc) (lo stat origin : Nat) : Nat :=
  let i := wf d 0x1C lo 8
  if dShapeDyn d ∧ i ≠ 0xFF then
    min stat (leNat (s.loadDev (dShapeAddr d + 4 * i) 4) - origin)
  else stat

/-- Causes met in reading the shape words. -/
def State.shapeCauses (s : State) (d : WorkDesc) : List (Nat × Nat) :=
  if dShapeDyn d then
    ([0, 8, 16] : List Nat).flatMap (fun lo =>
      let a := dShapeAddr d + 4 * wf d 0x1C lo 8
      if wf d 0x1C lo 8 = 0xFF then []
      else (if s.anyUnmapped a 4 then [(0x03, 8)] else []) ++ (if s.anyPoison a 4 then [(0x04, 8)] else []))
  else []

/-- What a tile reads through its descriptor words beside tensor data: word and length. -/
def State.readWords (s : State) (ctx : Nat) (d : WorkDesc) : List (Nat × Nat) :=
  match dType d with
  | 3 => if s.emOwns ctx d then [(1, 64)] else []
  | 4 => [(0, 128), (1, 64), (2, 16), (3, 64)]
  | 5 => [(0, 64)]
  | 6 => ((s.xWords d).1 ++ (s.xWords d).2.1).map (fun i => (i, 64))
  | _ => (List.range 8).map (fun i => (i, 64))

/-- Causes met in reading descriptors and records (R288, R301). -/
def State.descCauses (s : State) (ctx : Nat) (d : WorkDesc) : List (Nat × Nat) :=
  (s.readWords ctx d).flatMap (fun x =>
    if dWord d x.1 = 0 then []
    else (if s.anyUnmapped (dWord d x.1) x.2 then [(0x03, x.1)] else []) ++
      (if s.anyPoison (dWord d x.1) x.2 then [(0x04, x.1)] else []))

/-- Urn checks of a tile's EXCHANGE descriptors at acceptance: cause and operand (R313). -/
def State.urnCauses (s : State) (ctx : Nat) (d : WorkDesc) : List (Nat × Nat) :=
  let outs := if dType d = 0 ∨ dType d = 1 ∨ dType d = 2 ∨ dType d = 7 then [4, 5, 6, 7]
    else if dType d = 3 ∧ s.emOwns ctx d then [1]
    else if dType d = 6 then (s.xWords d).2.1 else []
  let ins := if dType d = 6 then (s.xWords d).1 else namedInputs d
  (ins.map (fun i => (i, false)) ++ outs.map (fun i => (i, true))).filterMap (fun x =>
    if dWord d x.1 = 0 then none
    else
      let c := s.urnTensCheck ctx (s.tensAt (dWord d x.1)) x.2
      if c = 0 then none else some (c, x.1))

/-- Flags of URN_STATUS raised by failed checks of tiles (R316, R328). -/
def State.urnTileFlags (s : State) (d : WorkDesc) (cs : List (Nat × Nat)) : State :=
  cs.foldl (fun s c => s.urnFlag (if c.1 = 9 then 1 else 2) (s.tensAt (dWord d c.2)).handle) s

/-- Handles a tile frees at its completion (R314). -/
def State.urnFrees (s : State) (d : WorkDesc) (bad : List (Nat × Nat)) : List (Nat × Nat) :=
  (if dType d = 6 then (s.xWords d).1 else namedInputs d).filterMap (fun i =>
    let t := s.tensAt (dWord d i)
    if dWord d i = 0 ∨ t.cls ≠ 2 ∨ bad.any (fun c => c.2 == i) then none
    else if hRelease t.handle ∨ dType d = 4 then some (t.handle, i) else none)

/-- The tile as accepted by a core (R96, R105, R140, R313, R475). DESIGN CHOICE (log 47): a tile of a context whose ENABLE
is 1 and in which no step has begun uses the seed of `StepCtx.init`, 0 (R49). -/
def State.newTile (s : State) (core : Nat) (e : Entry) (slot : Option Nat) : Tile :=
  let d := e.desc
  let m := s.shaped d 0 (dM d) (dRow0 d)
  let n := s.shaped d 8 (dN d) (dCol0 d)
  let k := s.shaped d 16 (dK d) (dK0 d)
  let bad := s.urnCauses e.ctx d
  let sp := s.wantSparse core e
  { desc := d, ctx := e.ctx, seq := e.seq, die := e.die
    stage := if dShapeDyn d ∧ (m = 0 ∨ n = 0) then .storing else if dType d = 0 then .waiting else .computing
    slot := slot, own := sp, sparse := sp, begun := false, kDone := 0, mEff := m, nEff := n, kEff := k
    causes := s.shapeCauses d ++ s.descCauses e.ctx d ++ bad ++ s.hdrCauses core e ++ sramCauses s.mem.found, flags := 0,
      longChain := false, reissued := e.reissued
    substituted := dType d == 0 && dEngine d == 2 && !sp
    acceptTime := s.ftRead (s.diePs (dieOf core)), status := if dShapeDyn d ∧ (m = 0 ∨ n = 0) then stEmpty else stOk, row := 0
    badHdr := (inputWords d).filter (fun i => s.inputHdr core e i == .invalid)
    hdrs := (inputWords d).filterMap (fun i => match s.inputHdr core e i with
      | .ok h => some (i, h.raw)
      | _ => none)
    stores := [], frees := s.urnFrees d bad, evalC := s.evalAccept e.ctx, latched := []
    seed := if s.stepsOn e.ctx then (s.stp e.ctx).seed else s.ov (roundSeedId + e.ctx) }

/-- Brings the tiles of a core in step with its engines and the die's engine-enable state (R75, R76): `own` engines
return where the sparse engine is enabled, surplus tiles stop, waiting and stopped tiles start in acceptance order. DESIGN
CHOICE (log 47): so also where an engine becomes free while a tile accepted earlier still waits unbegun and a later one
stands stopped. -/
def assignTiles (eng : Eng) (ts : List Tile) : List Tile :=
  let isM := fun (t : Tile) => dType t.desc == 0 && t.status == stOk
  let ts := ts.map (fun t =>
    if isM t then
      match eng with
      | .denseOnly =>
        if t.sparse ∧ t.stage = .computing then { t with sparse := false, stage := .stopped }
        else if t.stage = .waiting ∨ t.stage = .stopped then { t with sparse := false } else t
      | _ => if t.stage = .waiting ∨ t.stage = .stopped then { t with sparse := t.own } else t
    else t)
  let stop := fun (acc : List Tile) (t : Tile) =>
    if isM t ∧ t.stage = .computing ∧ eng ≠ .dual ∧ acc.any (fun u => isM u && u.stage == .computing) then
      acc ++ [{ t with stage := .stopped }] else acc ++ [t]
  let ts := ts.foldl stop []
  let start := fun (acc : List Tile × List Tile) (t : Tile) =>
    let all := acc.1 ++ t :: acc.2
    let busy := all.any (fun u => isM u && u.stage == .computing && (u.sparse == t.sparse || eng != .dual))
    if isM t ∧ (t.stage = .waiting ∨ t.stage = .stopped) ∧ busy = false then
      (acc.1 ++ [{ t with stage := .computing }], acc.2.drop 1)
    else (acc.1 ++ [t], acc.2.drop 1)
  (ts.foldl start ([], ts.drop 1)).1

/-- The slot of a tile that computes has left INIT (R89). -/
def Core.begin (c : Core) (x : Tile) : Core :=
  match x.slot with
  | some i => if x.stage = .computing ∧ (c.slot i).st = .init then c.setSlot i { c.slot i with st := .accumulating } else c
  | none => c

/-- Applies `assignTiles` to a core; the slots of the tiles that now compute are ACCUMULATING. -/
def State.assign (core : Nat) (s : State) : State :=
  s.modCore core (fun c =>
    let ts := assignTiles (s.die (dieOf core)).eng c.tiles
    ts.foldl Core.begin { c with tiles := ts })

/-- Sets the flag and the log of one sparse error (R149, R150). -/
def State.sparseErr (s : State) (ctx tile op cause p0 p1 : Nat) : State :=
  let s := if bits (s.ov (sparseStatusId + ctx)) 1 3 = 0 then
      s.setOv (sparseErrLogId + ctx) (tile + (cause - 0x0F) * 2 ^ 32 + op % 4 * 2 ^ 40 + p0 % 2 ^ 32 * 2 ^ 48 +
        p1 % 2 ^ 32 * 2 ^ 80)
    else s
  s.orOv (sparseStatusId + ctx) (2 ^ (cause - 0x0F))

/-- Notes what the reading of a tile's headers met at its acceptance: sparse errors and refused accesses (R148 to R150,
R332). -/
def State.hdrNote (s : State) (x : Tile) : State :=
  x.causes.foldl (fun s c =>
    if c.1 = 0x12 then s.sparseErr x.ctx (dTileId x.desc) c.2 0x12 0 0
    else s.noteRefused x.ctx c.1) s

/-- A tile with its causes as R123 numbers them. -/
def Tile.plain (x : Tile) : Tile := { x with causes := x.causes.map (fun c => (plainCause c.1, c.2)) }

/-- Adds an accepted tile to a core. -/
def State.addTile (s : State) (core : Nat) (t : Tile) : State :=
  (((s.hdrNote t).evalNote t.evalC).modCore core (fun c => { c with tiles := c.tiles ++ [t.plain] })).assign core

/-- Acceptance of a MATMUL tile (R89, R96, R101): its slot goes through INIT to ACCUMULATING, +0, unless the chain
continues. -/
def State.acceptMatmul (core : Nat) (e : Entry) (s : State) : State :=
  let d := e.desc
  let c := s.core core
  let slot := if dAccMode d = 2 then c.chainSlot e.ctx (dChain d) else c.freeSlot
  let t := s.newTile core e slot
  let i := slot.getD 0
  let old := c.slot i
  let x : Slot := if dAccMode d = 2 then { old with st := .accumulating, tile := dTileId d }
    else { st := .init, ctx := e.ctx, chain := dChain d, tile := dTileId d, intView := s.intTile core e, terms := 0,
           entries := [] }
  (s.setCore core (c.setSlot i x)).addTile core t

/-- Acceptance of a tile without a slot. -/
def State.acceptPlain (core : Nat) (e : Entry) (s : State) : State := s.addTile core (s.newTile core e none)

/-- A listed tile whose waits fail to translate or whose round is overrun, for the claim of TYPE `ty` by a core; a tile of a
reserved TYPE comes under every claim. -/
def State.badWait (s : State) (core ty : Nat) : Option (Entry × Nat) :=
  ((s.dieList (dieOf core)).filterMap (fun e =>
    if dType e.desc = ty ∨ 8 ≤ dType e.desc then
      match s.waits e with
      | .mapInvalid => some (e, 0x20)
      | .overrun => some (e, 0x21)
      | _ => none
    else none)).head?

/-- A core claims a tile of TYPE `ty` (R107, R114, R187, R494): a tile with an untranslatable wait is withdrawn; the
tile chosen is refused with its status, or accepted. Nothing happens when the tile chosen has another TYPE; a tile whose
header lies at a peer stays listed until that has come (R140). -/
def State.claim (core ty : Nat) (accept : Nat → Entry → State → State) (s : State) : State :=
  let s := s.notice
  match s.badWait core ty with
  | some (e, cause) => s.withdraw e core cause
  | none =>
    match s.choose core with
    | none => s
    | some e =>
      if dType e.desc ≠ ty ∧ dType e.desc < 8 then s
      else if (s.hdrCauses core e).any (fun c => isMiss c.1) then s.askPeer core e.ctx e.seq (s.hdrCauses core e)
      else
        let s := (s.unlist e).takeWaits e
        match s.refusal core e with
        | 0 => ((accept core e s).urnTileFlags e.desc (s.urnCauses e.ctx e.desc)).foundDone
        | st => (s.dropTileReqs core e.ctx e.seq).finish (cplOf e core st 0 (s.ftRead hubPs))

/-- The oldest chain tile of a die whose waits are met and whose chain no core of the die holds (R101). -/
def State.missing (s : State) (die : Nat) : Option Entry :=
  ((s.dieList die).filter (fun e => usesChain e.desc && s.waits e == .met &&
    !(s.chainHeld die e.ctx (dChain e.desc)))).head?

/-- CHAIN_MISSING: the list controller ends such a tile, after the conditional take and items 1 to 7 (R101, R494). -/
def State.chainMissing (die : Nat) (s : State) : State :=
  match s.missing die with
  | none => s
  | some e =>
    let s := (s.unlist e).takeWaits e
    let r := s.refusal17 (64 * die) e
    s.finish (cplOf e 0 (if r = 0 then stMissing else r) 0 (s.ftRead hubPs))

end Sys2Proof.Machine
end

