-- ==== Sys2Proof/Machine/Kettle.lean ====
section
/-!
DEFINITION. The kettle: estimates and calibration (R359 to R361), points and limits (R363 to R365), budget states
(R366), learned energies (R367), the control loop (R368 to R371), pace probes (R374), droop (R376), the thermal limit
(R377), the brake (R378) and forced idle (R118, R370, R477).
Choices and readings that the model fixes here: log 17.
-/

namespace Sys2Proof.Machine

/-! Means and powers. -/

/-- Mean of at most `n` of some numbers, 0 of none. -/
def meanOf (n : Nat) (xs : List Rat) : Rat :=
  let ys := xs.take n
  ys.sum / (max ys.length 1 : Nat)

/-- The number that `l` and `h` bound. -/
def clampRat (l h x : Rat) : Rat := max l (min h x)

/-- Hottest junction of a unit as TEMP_MAX holds it. -/
def State.hottest (s : State) (u : Nat) : Int := sext 16 (s.ov (tempMaxId + u))

/-- Dynamic power of activity counts (R359). -/
def dynPower (part : Nat) (counts : List Nat) : Rat :=
  ((counts.zipIdx).map (fun c => (c.1 : Rat) * Config.eventPower part c.2)).sum

/-- Leakage of a die at its voltage and temperature, or of the shared part. -/
def State.leak (s : State) (u : Nat) : Rat :=
  Config.leakage u (if u < 4 then (s.die u).mv else s.planMv 4 13) (s.hottest u)

/-- Uncorrected estimates of the eleven rails' shares (R359, R360): the dies, and the shared part by the rail that each of
its events draws on, its leakage on the hub's. -/
def State.shares (s : State) (dies : List Rat) (shared : List Nat) : List Rat :=
  (dies.zipIdx.map (fun x => x.1 + s.leak x.2)) ++ (List.range 7).map (fun r =>
    ((shared.zipIdx.filter (fun c => Config.sharedRail c.2 % 7 == r)).map (fun c =>
      (c.1 : Rat) * Config.eventPower 1 c.2)).sum + (if r = 0 then s.leak 4 else 0))

/-- Activity counts of a die, of the shared part (4) and of the partition cores of a die. -/
def actOf (a : Activity) : Nat → List Nat
  | 0 => a.die0
  | 1 => a.die1
  | 2 => a.die2
  | 3 => a.die3
  | _ => a.shared

def actEval (a : Activity) : Nat → List Nat
  | 0 => a.eval0
  | 1 => a.eval1
  | 2 => a.eval2
  | _ => a.eval3

/-- Gain of a rail's share (R360). -/
def State.railGain (s : State) (u : Nat) : Rat := tget 1 s.kettle.railGain u

/-- Factor by which the uncorrected share of a rail is corrected (R360): the module estimate by k, its division by the
rails' gains. -/
def State.correction (s : State) (raw : List Rat) (u : Nat) : Rat :=
  let w := (raw.zipIdx.map (fun x => x.1 * s.railGain x.2)).sum
  if w = 0 then s.kettle.gain else s.kettle.gain * s.railGain u * raw.sum / w

/-- Module estimates of the last 1,000 µs, newest first. -/
def State.moduleHist (s : State) : List Rat :=
  let h := fun d => (s.die d).hist
  s.kettle.shared.zipIdx.map (fun x => x.1 + (h 0).getD x.2 0 + (h 1).getD x.2 0 + (h 2).getD x.2 0 + (h 3).getD x.2 0)

/-- Estimates of a die as its budget sees them: without the partition cores where EVAL_POWER sets them apart (R477). -/
def State.budgetHist (s : State) (d : Nat) : List Rat :=
  if s.ov evalPowerId = 0 then (s.die d).hist
  else (s.die d).hist.zipIdx.map (fun x => x.1 - (s.kettle.evalHist.getD x.2 []).getD d 0)

/-! Reduced rails (R26). -/

/-- Phases that a rail has lost beyond its spares (R25, R26). -/
def State.railLost (s : State) (r : Nat) : Nat := tget 0 s.power.phases r - sparePhases r

/-- The part of a rail's current limit that its remaining phases leave it (R26). -/
def State.railShare (s : State) (r : Nat) : Rat := ((activePhases r - s.railLost r : Nat) : Rat) / (activePhases r : Nat)

/-- The cap that the loop holds to: PWR_CAP as it took effect, lowered by the reduced limit of every rail other than a
core rail (R26, R361). -/
def State.capNow (s : State) : Rat :=
  ((List.range 11).filter (fun r => decide (4 ≤ r) && decide (0 < s.railLost r))).foldl
    (fun c r => min c (Config.railCap r * s.railShare r)) (s.kettle.cap : Nat)

/-! The limits. -/

/-- The engine state that the requests ask for (R368, R378). -/
def State.wantEng (s : State) (d : Nat) : Eng :=
  if s.kettle.brake then .denseOnly else ((s.die d).budEng).worse (s.die d).thermEng

/-- Puts a die's engine state in force; its cores' engines stop or resume tiles (R76). -/
def State.setEng (s : State) (d : Nat) : State :=
  let e := s.wantEng d
  if e = (s.die d).eng then s
  else ((List.range 64).map (64 * d + ·)).foldl (fun s n => s.assign n) (s.modDie d ({ · with eng := e }))

/-- Limits of a die's point in the order of OP_STATE LIMIT's codes (R365, R383). -/
def State.limits (s : State) (d : Nat) : List Nat :=
  let x := s.die d
  [s.opMax d, x.budget, x.therm, s.droopLimit d, x.matched.getD 15]

/-- A die sets out for point `t` (R364): a lower clock comes at once and a higher one last, a higher voltage comes at once
and a lower one last. -/
def State.head (s : State) (d t : Nat) (x : Die) : Die :=
  let x := { x with
    clock := min x.clock t
    mv := max x.mv (s.planMv d t) }
  { x with target := if t = x.point ∧ x.clock = t ∧ x.mv = s.planMv d t then none else some t }

/-- Sets the point that a die goes to and the limit that decides (R365, R378, R381). -/
def State.retarget (s : State) (d : Nat) : State :=
  let ls := s.limits d
  let least := leastOf 15 ls
  let t := if s.kettle.brake then 0 else least
  let code := if s.kettle.brake then 5 else (findIdx (· == least) ls).getD 0
  (s.modDie d (fun x => { s.head d t x with limit := code })).setEng d

/-- Retargets every die. -/
def State.retargetAll (s : State) : State := allDies.foldl (fun s d => s.retarget d) s

/-- Every die is at its floor (R371). -/
def State.atFloor (s : State) : Bool := allDies.all (fun d => (s.die d).point == 0 && (s.die d).q == 7)

/-- Notes since when every die is at its floor. -/
def State.noteFloor (s : State) : State :=
  if s.atFloor then s.setKettle { s.kettle with floorAt := some (s.kettle.floorAt.getD s.clk) }
  else if s.kettle.unreach then s
  else s.setKettle { s.kettle with floorAt := none }

/-- Cap that the window of the past 1 ms is held to (R361): one that began before a cap was lowered keeps the cap in force
when it began. -/
def State.windowCap (s : State) : Rat := max s.capNow (s.kettle.caps.getD 999 s.capNow)

/-- CAP_UNREACHABLE: a whole millisecond at the floor with its mean above the cap (R371). The floor is then the budget's own
limit on every die, which no release of another limit lifts. -/
def State.checkFloor (s : State) : State :=
  match s.kettle.floorAt with
  | some t =>
    if s.kettle.unreach = false ∧ t + 1000000 ≤ s.clk ∧ s.windowCap < meanOf 1000 s.moduleHist then
      (allDies.foldl (fun s d => s.modDie d (fun x => { x with
        budget := 0
        budQ := 7
        budQNext := 7 })) (s.setKettle { s.kettle with
          unreach := true
          unreachCount := satAdd 16 s.kettle.unreachCount 1
          okMeans := 0 })).alert
    else s
  | none => s

/-! Estimates (R359 to R361). -/

/-- Tiles that compute on a core: none in a forced-idle quantum, a takeover or a context switch, or while the core sleeps
(R118, R120, R125, R191, R367). -/
def Core.computingTiles (c : Core) : List Tile :=
  if c.idleQ || c.fenced || c.asleep || c.switchTo.isSome then []
  else c.tiles.filter (fun x => x.stage == .computing || x.stage == .epilogue)

/-- Cycles of the microsecond in which tiles of each tag compute on a die (R367). -/
def State.tagCycles (s : State) (d : Nat) (t : Tbl Nat) : Tbl Nat :=
  let f := pointMHz (s.die d).clock
  let ts := (List.range 64).flatMap (fun i => (s.core (64 * d + i)).computingTiles)
  ts.foldl (fun t x => tset 0 t (dPhase x.desc) (tget 0 t (dPhase x.desc) + f)) t

/-- An estimate above 3,100 W lowers every die (R361). -/
def State.overpower (s : State) : State :=
  let k := s.kettle
  let low := k.lowering && allDies.any (fun d => (s.die d).target.isSome)
  let s := s.setKettle { k with lowering := low }
  if low = false ∧ 3100 < s.moduleHist.headD 0 then
    let s := s.setKettle { s.kettle with lowering := true }
    (allDies.foldl (fun s d => s.modDie d (fun x => { x with
      budEng := x.budEng.worse .single
      budget := x.point - 2
      changeAt := s.clk })) s).retargetAll
  else s

/-- Notes since when the partition's 100 µs mean stands below 0.90 EVAL_POWER (R477). -/
def State.noteEval (s : State) : State :=
  let m := meanOf 100 (s.kettle.evalHist.map (·.sum))
  s.setKettle { s.kettle with
    evalLowAt := if m < (9 / 10 : Rat) * s.ov evalPowerId then some (s.kettle.evalLowAt.getD s.clk) else none }

/-- Estimates of the dies' shares corrected, and the shared part as the sum of its rails' (R359, R360). -/
def State.corrected (s : State) (raw : List Rat) (u : Nat) : Rat :=
  if u < 4 then raw.getD u 0 * s.correction raw u
  else (raw.zipIdx.drop 4 |>.map (fun x => x.1 * s.correction raw x.2)).sum

/-- The estimate of the braked state stands as the power floor (R378). -/
def State.noteBraked (s : State) : State :=
  if s.kettle.brake ∧ s.atFloor then
    s.setKettle { s.kettle with floor := min (s.moduleHist.headD 0).floor.toNat 65535 }
  else s

/-- Notes since when a die's 100 µs mean stands below 0.90 B_d (R369). -/
def State.noteLow (s : State) (d : Nat) (b : Rat) : State :=
  s.modDie d (fun x => { x with
    lowAt := if meanOf 100 (s.budgetHist d) < (9 / 10 : Rat) * b then some (x.lowAt.getD s.clk) else none })

/-- Budget of a die (R365): of what the cap leaves when the partition's power is set apart (R477), and within what a
reduced core rail permits at the die's voltage (R26). -/
def State.dieBudget (s : State) (d : Nat) : Rat :=
  let b := (s.capNow - s.ov evalPowerId - meanOf 1000 s.kettle.shared) / 4
  if s.railLost d = 0 then b
  else min b (Config.coreLimit d * s.railShare d * ((s.die d).mv : Nat) / 1000000)

/-- POWER_ESTIMATE (R359, R361, R369, R371). -/
def State.powerEstimate (a : Activity) (s : State) : State :=
  if s.power.rails = false then s
  else
    let dyn := allDies.map (fun u => dynPower 0 (actOf a u))
    let raw := s.shares dyn a.shared
    let c := s.correction raw
    let s' := allDies.foldl (fun t d => t.modDie d (fun x => { x with
      hist := (s.corrected raw d :: x.hist).take 1000
      dyn := dyn.getD d 0 * c d :: x.dyn
      cycles := s.tagCycles d x.cycles })) s
    let s' := s'.setKettle { s'.kettle with
      shared := (s.corrected raw 4 :: s'.kettle.shared).take 1000
      caps := (s.capNow :: s'.kettle.caps).take 1000
      raw := raw :: s'.kettle.raw
      evalHist := (allDies.map (fun d => dynPower 0 (actEval a d) * c d) :: s'.kettle.evalHist).take 100 }
    let s' := allDies.foldl (fun t d => t.noteLow d (t.dieBudget d)) s'.noteEval.noteBraked
    (s'.overpower.noteFloor).checkFloor

/-- Moves a gain one eighth of the way toward a ratio, between 0.80 and 1.25 (R360). -/
def moveGain (g r : Rat) : Rat := clampRat (4 / 5) (5 / 4) (g + (r - g) / 8)

/-- Ratio of measured to estimated power. -/
def powerRatio (measured : Nat) (est : Rat) : Rat := if est = 0 then Config.ratioOfZero measured else measured / est

/-- CALIBRATION (R360, R371): the mean measured input power and the mean power of each rail over the past millisecond. -/
def State.calibrate (measured : Nat) (rails : List Nat) (s : State) : State :=
  if s.power.rails = false then s
  else
    let k := s.kettle
    let part := fun (u : Nat) => meanOf k.raw.length (k.raw.map (fun r => r.getD u 0))
    let r := powerRatio measured (meanOf k.raw.length (k.raw.map (·.sum)))
    let out := decide (r < 4 / 5) || decide (5 / 4 < r)
    let bad := if out then k.badCal + 1 else 0
    let ok := if s.windowCap < meanOf 1000 s.moduleHist then 0 else k.okMeans + 1
    let s := s.setKettle { k with
      gain := moveGain k.gain r
      railGain := (List.range 11).foldl (fun t u =>
        tset 1 t u (moveGain (tget 1 t u) (powerRatio (rails.getD u 0) (part u)))) k.railGain
      badCal := bad
      calRange := k.calRange || decide (16 ≤ bad)
      measured := measured
      raw := []
      okMeans := ok }
    if k.unreach ∧ 10 ≤ ok then
      (s.setKettle { s.kettle with
        unreach := false
        okMeans := 0
        floorAt := none }).alert
    else s.checkFloor

/-! Learned energies (R367). -/

/-- Cost class of a learned energy against the mean ē: a bound is crossed by 0.05 ē. -/
def costClass (old : Nat) (e m : Rat) : Nat :=
  let up := if (13 / 10 : Rat) * m < e then 2 else if (4 / 5 : Rat) * m < e then 1 else 0
  let down := if e ≤ (7 / 10 : Rat) * m then 0 else if e ≤ (6 / 5 : Rat) * m then 1 else 2
  if old < up then up else if down < old then down else old

/-- One die's millisecond moves the energies of the tags that computed on it. -/
def State.learnDie (s : State) (d : Nat) (en : Tbl Rat) : Tbl Rat :=
  let x := s.die d
  let cyc := (x.cycles.map (·.2)).sum
  if cyc = 0 then en
  else
    let perCore := meanOf x.dyn.length x.dyn * (pointMHz x.clock * 1000 : Nat) / cyc / s.rel d x.point
    x.cycles.foldl (fun en t =>
      tins en t.1 (match tget? en t.1 with
        | some e => e + (perCore - e) / 16
        | none => perCore)) en

/-- PHASE_ENERGY_UPDATE (R367). -/
def State.phaseEnergy (s : State) : State :=
  if s.power.rails = false then s
  else
    let en := allDies.foldl (fun en d => s.learnDie d en) s.kettle.energy
    let cyc := fun (p : Nat) => (allDies.map (fun d => tget 0 (s.die d).cycles p)).sum
    let tot := (en.map (fun e => cyc e.1)).sum
    let m : Rat := (en.map (fun e => e.2 * ((cyc e.1 : Nat) : Rat))).sum / ((max tot 1 : Nat) : Rat)
    let cost := if tot = 0 then s.kettle.cost
      else en.foldl (fun t e => tset 1 t e.1 (costClass (tget 1 t e.1) e.2 m)) s.kettle.cost
    let s := s.setKettle { s.kettle with
      energy := en
      cost := cost }
    allDies.foldl (fun s d => s.modDie d (fun x => { x with
      dyn := []
      cycles := [] })) s

/-! Droop (R376). -/

/-- Supply threshold of a die in mV: the voltage of the point in force minus DROOP_MARGIN. -/
def State.droopMv (s : State) (d : Nat) : Nat := s.planMv d (s.die d).point - s.ov droopMarginId

/-- Stretched cycles of a die in the 100 µs up to a time: those of the stretches that have ended, and those of the one in
progress, each as long as two. -/
def Die.stretchedNow (x : Die) (clk : Nat) : Nat :=
  ((x.stretched.filter (fun p => decide (clk < p.1 + 100000))).map (·.2)).sum +
    (match x.stretching with
      | some t => min (clk - t) 100000 * pointMHz x.clock / 2000
      | none => 0)

/-- Above 5 % of the cycles of 100 µs the droop limit is set for 1 ms. -/
def State.droopTest (s : State) (d : Nat) : State :=
  let x := s.die d
  let n := x.stretchedNow s.clk
  if pointMHz x.clock * 100 - n < 20 * n then s.setDie d { x with droop := some (x.point - 1, s.clk + 1000000) } else s

/-! The control loop. -/

/-- BUDGET_STATE of a die (R366). -/
def State.budgetState (s : State) (d : Nat) (e b : Rat) : State :=
  let x := s.die d
  let t := if b < e then 2 else if (9 / 10 : Rat) * b < e then 1 else 0
  let inside := decide (e ≤ (if t = 0 then (88 / 100 : Rat) else 98 / 100) * b)
  let inside1 := decide (e ≤ (98 / 100 : Rat) * b)
  let n := if s.kettle.brake then 2
    else if s.clk < x.bstateAt + 100000 then x.bstate
    else if x.bstate < t then t
    else if t < x.bstate then
      if inside then t else if x.bstate = 2 ∧ t = 0 ∧ inside1 then 1 else x.bstate
    else x.bstate
  if n = x.bstate then s
  else s.setDie d { x with
    bstate := n
    bstateAt := s.clk }

/-- Learned power of a tile's tag, an unset one counting as the largest set (R369). -/
def State.tagPower (s : State) (d : WorkDesc) : Rat :=
  let top := (s.kettle.energy.map (·.2)).foldl max 0
  match tget? s.kettle.energy (dPhase d) with
  | some e => e
  | none => top

/-- Power that the idle engines of a core would add (R369): of the tile that each would start. -/
def State.idlePower (s : State) (core : Nat) : Rat :=
  let c := s.core core
  ((([false, true] : List Bool).filter (fun sp => c.engineIdle sp)).map (fun sp =>
    match (c.tiles.filter (fun t => dType t.desc == 0 && t.own == sp && (t.stage == .waiting || t.stage == .stopped))).head? with
    | some t => s.tagPower t.desc
    | none =>
      match pickBy (s.before core) ((s.candidates core).filter (fun e =>
        dType e.desc == 0 && s.wantSparse core e == sp)) with
      | some e => s.tagPower e.desc
      | none => 0)).sum

/-- Predicted power of a die at DUAL (R369). -/
def State.predicted (s : State) (d : Nat) (e : Rat) : Rat :=
  e + s.rel d (s.die d).point * (((List.range 64).map (fun i => s.idlePower (64 * d + i))).sum)

/-- Release of one level (R369). -/
def State.releaseLevel (s : State) (d : Nat) (e b : Rat) : State :=
  let x := s.die d
  let low : Bool := match x.lowAt with
    | some t => decide (t + 100000 ≤ s.clk)
    | none => false
  if low ∧ e < (9 / 10 : Rat) * b ∧ x.changeAt + 100000 ≤ s.clk then
    let x' := { x with changeAt := s.clk }
    if 0 < x.budQ then if x.budQNext < x.budQ then s else s.setDie d { x' with budQNext := x.budQ - 1 }
    else if x.budget < s.opMax d then s.setDie d { x' with budget := x.budget + 1 }
    else if x.budEng ≠ .dual ∧ s.kettle.energy ≠ [] ∧ s.predicted d e ≤ (9 / 10 : Rat) * b then
      s.setDie d { x' with budEng := .dual }
    else s
  else s

/-- The highest point at or below `cur` that fits the budget (R368). -/
def State.fitPoint (s : State) (d cur : Nat) (e b : Rat) : Nat :=
  ((List.range (cur + 1)).filter (fun p => decide (e * s.rel d p / s.rel d cur ≤ b))).foldl max 0

/-- The table of R368 for one die. -/
def State.control (s : State) (d : Nat) (high : Bool) : State :=
  let x := s.die d
  let b := s.dieBudget d
  let e := meanOf 10 (s.budgetHist d)
  let cur := min x.budget x.point
  let x' := { x with changeAt := s.clk }
  let hi := decide ((11 / 10 : Rat) * b < e)
  if hi = false ∧ ¬ (b < e) ∧ high = false then s.releaseLevel d (meanOf 100 (s.budgetHist d)) b
  else if cur = 0 then
    if x.budEng ≠ .dual ∧ (x.budQ < x.budQNext ∨ x.budQ = 7) then s
    else s.setDie d { x' with
      budEng := x.budEng.worse .single
      budQNext := if x.budQ < x.budQNext then x.budQNext else min 7 (x.budQ + 1) }
  else if hi then
    s.setDie d { x' with
      budEng := x.budEng.worse .single
      budget := s.fitPoint d cur e b }
  else if x.eng = .dual then s.setDie d { x' with budEng := .single }
  else s.setDie d { x' with budget := cur - 1 }

/-- A plan that leaves P13 unusable on a unit waits until MARGIN_EXHAUSTED stands in the journal (R401). -/
def State.raiseWaits (s : State) : Bool :=
  allDies.any (fun u => decide (950 < s.planned u 13)) && s.flash.queue.contains .service

/-- The kettle applies the raises of a re-plan (R399). -/
def State.applyRaises (s : State) : State :=
  if s.raiseWaits then s
  else (List.range 5).foldl (fun s u => s.modAge u (fun a => { a with
    plan := a.raise.getD a.plan
    raise := none })) s

/-- CONTROL_TICK (R361, R362, R365, R366, R368, R369, R399): every 10 µs of fabric time. -/
def State.controlTick (s : State) : State :=
  if s.power.rails = false ∨ s.onTick 10000 = false then s
  else
    let s := s.applyRaises
    let s := s.setKettle { s.kettle with cap := s.ov pwrCapId }
    let cap := s.capNow
    let high := decide ((98 / 100 : Rat) * cap ≤ meanOf 1000 s.moduleHist) && decide (cap < meanOf 10 s.moduleHist)
    let hold := s.kettle.brake || s.kettle.unreach
    let s := allDies.foldl (fun s d =>
      let s := s.droopTest d
      let s := s.budgetState d (meanOf 100 (s.budgetHist d)) (s.dieBudget d)
      if hold then s else s.control d high) s
    (s.rematch.retargetAll).noteFloor

/-- OP_CHANGE_DONE: the die runs at its new point (R364). -/
def State.opChange (d : Nat) (s : State) : State :=
  let x := s.die d
  match x.target with
  | some p =>
    let s := s.setDie d { x with
      point := p
      target := none
      clock := p
      mv := s.planMv d p }
    (s.setKettle { s.kettle with
      lowering := s.kettle.lowering && allDies.any (fun d => (s.die d).target.isSome) }).noteFloor
  | none => s

/-! Forced idle (R118, R370, R477). -/

/-- The next q_e (R477). -/
def State.nextEvalQ (s : State) : Nat :=
  let k := s.kettle
  let p : Rat := (s.ov evalPowerId : Nat)
  if s.ov evalPowerId = 0 then 0
  else if p < meanOf 100 (k.evalHist.map (·.sum)) then min 7 (k.evalQ + 1)
  else
    match k.evalLowAt with
    | some t => if t + 100000 ≤ s.clk then k.evalQ - 1 else k.evalQ
    | none => k.evalQ

/-- FORCED_IDLE_FRAME: q and q_e take their new values (R370, R477). -/
def State.idleFrame (s : State) : State :=
  if s.power.rails = false ∨ s.kettle.brake ∨ s.onTick 80000 = false then s
  else
    let n := s.nextEvalQ
    let now := s.ftRead hubPs
    let s := s.setKettle { s.kettle with
      frameAt := now - now % 80000
      evalQ := n
      evalLowAt := if n < s.kettle.evalQ then none else s.kettle.evalLowAt }
    (allDies.foldl (fun s d => s.modDie d (fun x => { x with
      budQ := x.budQNext
      own := { x.own with q := x.own.qNext }
      hub := { x.hub with q := x.hub.qNext }
      q := max x.budQNext x.thermQNext
      changeAt := if x.budQNext = x.budQ then x.changeAt else s.clk })) s).noteFloor

/-- Eighths that a logical core idles (R365, R378, R477). -/
def State.coreQ (s : State) (core : Nat) : Nat :=
  let x := s.die (dieOf core)
  if s.kettle.brake then 7
  else if s.evalOn && s.evalCore core && s.ov evalPowerId != 0 then max x.thermQ s.kettle.evalQ
  else x.q

/-- The slot in progress is one in which the core idles (R370). -/
def State.idleSlot (s : State) (core : Nat) : Bool :=
  let j := (s.ftRead hubPs - s.kettle.frameAt) / 10000 % 8
  decide ((j + 8 - core % 8) % 8 < s.coreQ core)

/-- FORCED_IDLE_QUANTUM_START (R118, R370). -/
def State.quantumStart (core : Nat) (s : State) : State :=
  if s.idleSlot core then s.modCore core ({ · with idleQ := true }) else s

/-- FORCED_IDLE_QUANTUM_END (R118). -/
def State.quantumEnd (core : Nat) (s : State) : State := s.modCore core ({ · with idleQ := false, wake := true })

/-! Pace probes (R374). -/

/-- PACE_PROBE_START: at a multiple of PACE_PERIOD. -/
def State.probeStart (s : State) : State :=
  if s.power.rails ∧ s.onTick (bits (s.ov paceCfgId) 16 16 * 1000) then
    (s.setKettle { s.kettle with
      probe := some s.clk
      probeMin := none }).rematch
  else s

/-- PACE_PROBE_END: the probe has lasted 100 µs. -/
def State.probeEnd (s : State) : State :=
  match s.kettle.probe with
  | some t =>
    if t + 100000 ≤ s.clk then
      (s.setKettle { s.kettle with
        probe := none
        pm := s.kettle.probeMin
        probeMin := none }).rematch
    else s
  | none => s

/-- DROOP_DETECT: the die's supply has fallen below the voltage of the point in force minus DROOP_MARGIN. -/
def State.droopDetect (x : Supply) (s : State) : State :=
  if s.power.rails ∧ (s.die x.die).stretching = none ∧ x.mv < s.droopMv x.die then
    let s := s.modDie x.die ({ · with stretching := some s.clk })
    ((s.setKettle { s.kettle with droopSeen := true }).bump (droopCountId + x.die)).droopTest x.die
  else s

/-- DROOP_STRETCH_END after a number of stretched cycles, at least 32, with the supply 10 mV above the threshold. -/
def State.droopEnd (x : Supply) (cycles : Nat) (s : State) : State :=
  let y := s.die x.die
  if y.stretching.isSome ∧ 32 ≤ cycles ∧ s.droopMv x.die + 10 ≤ x.mv then
    (s.setDie x.die { y with
      stretching := none
      stretched := (y.stretched.filter (fun p => decide (s.clk < p.1 + 100000))) ++ [(s.clk, cycles)] }).droopTest x.die
  else s

/-- DROOP_LIMIT_EXPIRY: the limit's 1 ms is over; a stretch that goes on can set it again. -/
def State.droopExpiry (d : Nat) (s : State) : State :=
  match (s.die d).droop with
  | some (_, t) => if t ≤ s.clk then (s.modDie d ({ · with droop := none })).droopTest d else s
  | none => s

/-! The thermal limit (R377). -/

/-- The limit that one unit's sensors impose on a die, after a sample whose hottest sensor of that unit reads `hot`. -/
def Therm.sample (x : Therm) (point clk opMax : Nat) (thr hot : Int) : Therm :=
  if thr ≤ hot then
    let x := { x with
      coolAt := none
      eng := x.eng.worse .single }
    if 0 < point then
      if x.at_ + 100000 ≤ clk then { x with
          lim := min x.lim point - 1
          at_ := clk }
      else x
    else { x with qNext := if x.q < x.qNext then x.qNext else min 7 (x.q + 1) }
  else if hot ≤ thr - 12 then
    let since := x.coolAt.getD clk
    let x := { x with coolAt := some since }
    if since + 1000000 ≤ clk ∧ x.at_ + 1000000 ≤ clk then
      let y := { x with at_ := clk }
      if 0 < x.q then if x.qNext < x.q then x else { y with qNext := x.q - 1 }
      else if x.lim < 15 then { y with lim := if x.lim + 1 < opMax then x.lim + 1 else 15 }
      else if x.eng = .dual then x
      else { y with eng := .dual }
    else x
  else { x with coolAt := none }

/-- A thermal limit is in force (R382). -/
def Die.isThermal (x : Die) : Bool := decide (x.therm < 15) || decide (0 < x.thermQ) || x.thermEng != .dual

/-- The kettle as the main domain's going off leaves it (R382, R463): CAL_RANGE, DROOP_SEEN and UNREACH_COUNT stay. -/
def Kettle.off (k : Kettle) : Kettle :=
  { Kettle.init with
    calRange := k.calRange
    droopSeen := k.droopSeen
    unreachCount := k.unreachCount }

/-! The brake (R378). -/

/-- POWER_BRAKE_ASSERT. -/
def State.brakeOn (s : State) : State :=
  let s := s.setPins { s.pins with brake := true }
  if s.power.rails = false ∨ s.kettle.brake then s
  else
    let s := s.setKettle { s.kettle with
      brake := true
      frameAt := s.ftRead hubPs }
    let s := allDies.foldl (fun s d => s.modDie d (fun x => { x with
      q := 7
      bstate := 2
      bstateAt := if x.bstate = 2 then x.bstateAt else s.clk })) s
    s.retargetAll

/-- POWER_BRAKE_DEASSERT: every die releases from the floor by R369. -/
def State.brakeOff (s : State) : State :=
  let s := s.setPins { s.pins with brake := false }
  if s.kettle.brake then
    let s := s.setKettle { s.kettle with brake := false }
    let s := allDies.foldl (fun s d => s.modDie d (fun x => { x with
      budget := 0
      budEng := .denseOnly
      budQ := 7
      budQNext := 7
      changeAt := s.clk })) s
    s.retargetAll
  else s

/-! The commands. -/

/-- POWER_ESTIMATE (R359). -/
def execPowerEstimate (a : Activity) (s : State) : Result := .next (s.powerEstimate a)

/-- CALIBRATION (R360). -/
def execCalibration (measured : Nat) (rails : List Nat) (s : State) : Result := .next (s.calibrate measured rails)

/-- PHASE_ENERGY_UPDATE (R367). -/
def execPhaseEnergyUpdate (s : State) : Result := .next s.phaseEnergy

/-- CONTROL_TICK (R368). -/
def execControlTick (s : State) : Result := .next s.controlTick

/-- OP_CHANGE_DONE (R364). -/
def execOpChangeDone (die : Nat) (s : State) : Result := need (dieOk die) (.next (s.opChange die))

/-- FORCED_IDLE_FRAME (R370). -/
def execForcedIdleFrame (s : State) : Result := .next s.idleFrame

/-- FORCED_IDLE_QUANTUM_START (R118). -/
def execForcedIdleQuantumStart (core : Nat) (s : State) : Result := need (coreOk core) (powered s (s.quantumStart core))

/-- FORCED_IDLE_QUANTUM_END (R118). -/
def execForcedIdleQuantumEnd (core : Nat) (s : State) : Result := need (coreOk core) (powered s (s.quantumEnd core))

/-- PACE_PROBE_START (R374). -/
def execPaceProbeStart (s : State) : Result := .next s.probeStart

/-- PACE_PROBE_END (R374). -/
def execPaceProbeEnd (s : State) : Result := .next s.probeEnd

/-- DROOP_DETECT (R376). -/
def execDroopDetect (supply : Supply) (s : State) : Result := need (dieOk supply.die) (.next (s.droopDetect supply))

/-- DROOP_STRETCH_END (R376). -/
def execDroopStretchEnd (supply : Supply) (cycles : Nat) (s : State) : Result :=
  need (dieOk supply.die) (.next (s.droopEnd supply cycles))

/-- DROOP_LIMIT_EXPIRY (R376). -/
def execDroopLimitExpiry (die : Nat) (s : State) : Result := need (dieOk die) (.next (s.droopExpiry die))

/-- POWER_BRAKE_ASSERT (R378). -/
def execPowerBrakeAssert (s : State) : Result := .next s.brakeOn

/-- POWER_BRAKE_DEASSERT (R378). -/
def execPowerBrakeDeassert (s : State) : Result := .next s.brakeOff

end Sys2Proof.Machine
end

