-- ==== Sys2Proof/Machine/Telemetry.lean ====
section
/-!
DEFINITION. Run telemetry (R117, R375, R468, R469). The conditions of R468 that the state shows are computed from it
every microsecond; what a core's engines wait for in the middle of a tile is their own knowledge, so the command carries it
(log 36).
-/

namespace Sys2Proof.Machine

/-- Causes in the order of precedence of R468, by their index. -/
def causeOrder : List Nat := [11, 10, 7, 6, 8, 2, 1, 9, 3, 5, 4, 0]

/-- The paced peers of R375: p_m lies below the pace that this module's other limits allow. -/
def State.peerPaced (s : State) : Bool :=
  match s.kettle.pm with
  | some p => decide (p < leastOf 220 (allDies.map (fun d => pointPace (s.openPoint d))))
  | none => false

/-- The cause that a set of conditions counts against: the first that holds, PEER_PACE where REDUCTION_WAIT holds and
R375 applies, and NO_READY_TILE where none holds. -/
def State.causeOf (s : State) (conds : Nat) : Nat :=
  let holds (c : Nat) : Bool := if c = 9 then bit conds 3 && s.peerPaced else bit conds c
  (causeOrder.find? holds).getD 0

/-- A listed tile passes the tests of R113 with tests 3 and 6 as given. -/
def State.readyWith (s : State) (core : Nat) (e : Entry) (met credit : Bool) : Bool :=
  e.ctx == (s.core core).ctx && decide ((s.core core).tiles.length < 4) && s.readyBut core e met credit && s.readySlot core e

/-- The oldest SEND tile of the running context, in whichever die list, fails only test 6 (R117). -/
def State.downstreamFull (s : State) (core : Nat) : Bool :=
  match ((List.range 4).flatMap s.dieList).filter (fun e => e.ctx == (s.core core).ctx && dType e.desc == 5) with
  | [] => false
  | e :: es =>
    let o := es.foldl (fun o x => if x.seq < o.seq then x else o) e
    !s.hasCredit o && s.readyWith core o (s.waits o == .met) true

/-- A listed tile of the running context, in whichever die list, fails only test 3 (R117). -/
def State.syncWait (s : State) (core : Nat) : Bool :=
  ((List.range 4).flatMap s.dieList).any (fun e => s.waits e == .unmet && s.readyWith core e true (s.hasCredit e))

/-- The forced-idle quantum is thermal: its thermal q is at least the budget q (R370, R468). -/
def State.quantumThermal (s : State) (core : Nat) : Bool :=
  let x := s.die (dieOf core)
  let bud := if s.evalOn && s.evalCore core && s.ov evalPowerId != 0 then s.kettle.evalQ else x.budQ
  !s.kettle.brake && decide (0 < x.thermQ) && decide (bud ≤ x.thermQ)

/-- A tile that has computed nothing yet reads a stack above its throttle threshold (R309, R468). DEDUCED (log 36): it is this
stack's data that it waits for. -/
def State.stackWait (s : State) (x : Tile) : Bool :=
  !x.begun && (namedInputs x.desc).any (fun i =>
    let t := s.tensAt (dWord x.desc i)
    dWord x.desc i != 0 && t.cls == 0 && match s.memOf t.base with
      | some m => decide (m < 4) && decide (0 < tget 0 s.mem.level m)
      | none => false)

/-- A tile waits for the data of a peer, held back at a hot-spot cap or not (R355), or for a granule under retirement (R307). -/
def State.operandWait (s : State) (core : Nat) (x : Tile) : Bool :=
  s.fab.tileReqs.any (fun r => !r.write && r.core == core && r.ctx == x.ctx && r.seq == x.seq && r.got.isNone) ||
    (namedInputs x.desc).any (fun i =>
      let t := s.tensAt (dWord x.desc i)
      dWord x.desc i != 0 && t.cls == 0 && (s.mem.retiring.take 1).any (fun g =>
        decide (t.base < g.1 + 65536) && decide (g.1 < t.base + t.extent)))

/-- What an accepted tile waits for, by the indices of R468: STACK_THROTTLE, OPERAND_WAIT. -/
def State.tileWaits (s : State) (core : Nat) (x : Tile) : Nat :=
  if x.stage = .waiting ∨ x.stage = .computing ∨ x.stage = .stopped then
    ofBool (s.stackWait x) * 2 ^ 8 + ofBool (s.operandWait core x) * 2 ^ 1
  else 0

/-- The core holds no accepted tile, its context has an open exchange, and no listed tile of the context fails only test 3
or only test 6 of R113 (R468). -/
def State.tokenWait (s : State) (core : Nat) : Bool :=
  let c := s.core core
  c.tiles.isEmpty && s.txe.opens.any (fun x => x.ctx == c.ctx) && !s.syncWait core &&
    !(((List.range 4).flatMap s.dieList).any (fun e => e.ctx == c.ctx && !s.hasCredit e && s.readyWith core e (s.waits e == .met) true))

/-- The conditions of R468 that the state shows for a core. -/
def State.shown (s : State) (core : Nat) : Nat :=
  let c := s.core core
  let hot := s.quantumThermal core
  let w := c.tiles.map (s.tileWaits core)
  let has := fun (i : Nat) => w.any (fun m => bit m i)
  ofBool (c.fenced || (s.stp c.ctx).st == .replaying) * 2 ^ 11 + ofBool c.switchTo.isSome * 2 ^ 10 +
    ofBool (c.idleQ && hot) * 2 ^ 7 + ofBool (c.idleQ && !hot) * 2 ^ 6 + ofBool (has 8) * 2 ^ 8 +
    ofBool (s.tokenWait core) * 2 ^ 2 + ofBool (has 1) * 2 ^ 1 +
    ofBool (s.red.drains.any (fun d => d.core == core)) * 2 ^ 3 + ofBool (s.downstreamFull core) * 2 ^ 5 +
    ofBool (s.syncWait core) * 2 ^ 4

/-- The conditions that the engines of a core alone can know of in the middle of a tile: STACK_THROTTLE,
TOKEN_EXCHANGE_WAIT and OPERAND_WAIT, where an accepted tile computes. -/
def State.reported (s : State) (core : Nat) : Nat :=
  if (s.core core).computingTiles = [] then 0 else 2 ^ 1 + 2 ^ 2 + 2 ^ 8

/-- The cause of a group of idle cycles within a tile's computing (R468). -/
def State.groupCause (s : State) (g : IdleGroup) : Nat := s.causeOf ((g.conds &&& s.reported g.core) ||| s.shown g.core)

/-- Adds cycles to a 64-bit count. -/
def addCycles (t : Tbl Nat) (k n : Nat) : Tbl Nat := tset 0 t k (satAdd 64 (tget 0 t k) n)

/-- Tags of the tiles that compute on a core: none where each of them waits (R468, R469). -/
def State.tagsOn (s : State) (core : Nat) : List Nat :=
  (((s.core core).computingTiles.filter (fun x => s.tileWaits core x == 0)).map (fun x => dPhase x.desc)).eraseDups

/-- Counts the cycles of the past microsecond of every ACTIVE core, by what it does at its end: to the tags that compute there,
or to the cause for which it idles (R468, R469). No cycle is counted before READY. DESIGN CHOICE (log 36): the state's changes
within a microsecond are not resolved here. -/
def State.countCycles (s : State) : State :=
  if s.power.main ≠ .ready then s
  else s.setTele ((allCores.filter (fun n => !(s.sched.offline.contains n))).foldl (fun t n =>
    let f := pointMHz (s.die (dieOf n)).clock
    match s.tagsOn n with
    | [] => { t with idleNow := addCycles t.idleNow (s.causeOf (s.shown n)) f }
    | gs => { t with phaseNow := gs.foldl (fun u g => addCycles u g f) t.phaseNow }) s.tele)

/-- A sample, at a fabric time that is a multiple of 10 µs: every count so far becomes what a READ returns, with the cycles
that the cores report from within a microsecond; an IDLE_CLEAR sets every count to 0 here (R468, R469). -/
def State.sample (idle : List IdleGroup) (phases : List Nat) (s : State) : State :=
  if s.onTick 10000 = false then s
  else if s.tele.clear then s.setTele { s.tele with
    idleNow := []
    phaseNow := []
    idle := []
    phase := []
    clear := false }
  else if s.power.main = .ready then
    let i := (idle.filter (fun g => !(s.sched.offline.contains g.core))).foldl (fun t g =>
      addCycles t (s.groupCause g) g.cycles) s.tele.idleNow
    let p := (phases.take 16).zipIdx.foldl (fun t p => addCycles t p.2 p.1) s.tele.phaseNow
    s.setTele { s.tele with
      idleNow := i
      phaseNow := p
      idle := i
      phase := p }
  else s

/-- TELEMETRY_SAMPLE (R469). -/
def execTelemetrySample (idle : List IdleGroup) (phases : List Nat) (s : State) : Result :=
  need (idle.all (fun g => decide (g.core < 256)) && decide (phases.length ≤ 16)) (powered s (s.sample idle phases))

end Sys2Proof.Machine
end

