-- ==== Sys2Proof/Machine/Clock.lean ====
section
/-!
DEFINITION. The advance of time by one nanosecond (log 1): the model's clock, the fabric time count with its rate
correction (R176), and the list controllers.
-/

namespace Sys2Proof.Machine

/-- One nanosecond of the fabric time unit: the count advances by 1, and by one more or less when the gathered rate
correction reaches a whole nanosecond (R176). -/
def FabTime.tick (f : FabTime) : FabTime :=
  if f.running then
    let x := f.frac + f.corr
    if 1000000 ≤ x then { f with now := (f.now + 2) % 2 ^ 64, frac := x - 1000000 }
    else if x ≤ -1000000 then { f with frac := x + 1000000 }
    else { f with now := (f.now + 1) % 2 ^ 64, frac := x }
  else f

/-- What happens once in a microsecond of the model's clock: the cycles of telemetry are counted (R468), and packets that
wait at a link under retraining draw their notices (R388). -/
def State.microsecond (s : State) : State := if s.clk % 1000 = 0 then s.countCycles.waitNotices else s

/-- The empty queue: time advances by one nanosecond (log 1), and the list controllers take note of what has become
ready (R112, R324); accesses find errors (R87, R300, R317). -/
def State.idle (s : State) : State :=
  ({ s with
    clk := s.clk + 1
    ft := s.ft.tick } : State).notice.microsecond.flaws

end Sys2Proof.Machine
end

