-- ==== Sys2Proof/Machine/TileWork.lean ====
section
/-!
DEFINITION. What a MATMUL, VECTOR or COPY tile computes from its operands and produces for its outputs (R54 to R63, R90
to R94, R99, R100, R104, R105, R141 to R150, R205).
Choices and readings that the model fixes here: logs 8, 9, 13 and 23.
-/

namespace Sys2Proof.Machine

/-- An input operand as a tile reads it: descriptor, stored-tile header, bytes, descriptor word. -/
structure Opnd where
  t : Tens
  h : HdrSt
  rd : Rd
  op : Nat

/-- The urn refused a descriptor of a tile at its acceptance (R313). -/
def Tile.urnBad (x : Tile) (i : Nat) : Bool := x.causes.any (fun c => (c.1 == 8 || c.1 == 9) && c.2 == i)

/-- Input `i` of a tile. -/
def State.opnd (s : State) (core : Nat) (x : Tile) (i : Nat) : Opnd :=
  let t := s.tensAt (dWord x.desc i)
  { t := t
    h := if x.badHdr.contains i then .invalid
      else match tget? x.hdrs i with
        | some v => .ok (Hdr.of v)
        | none => .plain
    rd := s.source core x.ctx x.seq x.evalC (x.urnBad i) t
    op := i }

/-- The element at a position (dim 0, dim 1). -/
def Opnd.at_ (o : Opnd) (p : Nat × Nat) : Look := o.t.look o.h o.rd p.1 p.2

/-- Position of A at (row, k), B at (k, column), and of a row and column of an output-shaped operand (R103, R104). -/
def Opnd.aPos (o : Opnd) (m k : Nat) : Nat × Nat := if o.t.trans then (m, k) else (k, m)
def Opnd.bPos (o : Opnd) (k n : Nat) : Nat × Nat := if o.t.trans then (n, k) else (k, n)
def Opnd.rcPos (o : Opnd) (r c : Nat) : Nat × Nat := if o.t.trans then (r, c) else (c, r)

/-- Events met at some positions and in the tile's header, with the operand. -/
def Opnd.events (o : Opnd) (ps : List (Nat × Nat)) : List (Nat × Ev) :=
  (o.t.storedEvents o.h o.rd ++ ps.flatMap (fun p => (o.at_ p).2.1)).map (fun e => (o.op, e))

/-- Flags that the scales at some positions raise (R50). -/
def Opnd.flags (o : Opnd) (ps : List (Nat × Nat)) : Flags := ps.foldl (fun f p => f ||| (o.at_ p).2.2) flagNone

/-- Exact value of an element, +0 where it is structurally absent. -/
def Opnd.value (o : Opnd) (p : Nat × Nat) : Fv := (elemValue (o.at_ p).1).getD fvZero

/-- Every pair of a range of `n0` from `a` and a range of `n1` from `b`. -/
def gridPos (a n0 b n1 : Nat) : List (Nat × Nat) :=
  (List.range n1).flatMap (fun j => (List.range n0).map (fun i => (a + i, b + j)))

/-- Notes the events that a tile met: sparse flags and log, protection faults (R149, R150, R332). -/
def State.note (s : State) (x : Tile) (evs : List (Nat × Ev)) : State :=
  evs.foldl (fun s e =>
    if 0x10 ≤ e.2.cause ∧ e.2.cause ≤ 0x12 then
      s.sparseErr x.ctx (dTileId x.desc) e.1 e.2.cause e.2.pos0 e.2.pos1
    else s.noteRefused x.ctx e.2.cause) s

/-- A tile with its met events as causes. -/
def Tile.meet (x : Tile) (evs : List (Nat × Ev)) (fl : Flags) : Tile :=
  { x with causes := x.causes ++ evs.map (fun e => (plainCause e.2.cause, e.1)), flags := x.flags ||| fl }

/-! Outputs. -/

/-- Encodes output `i` of a tile in a role; `v r c` is its exact element. -/
def State.produce (s : State) (x : Tile) (i : Nat) (role : Role) (v : Nat → Nat → Fv) : OutRes :=
  let t := s.tensAt (dWord x.desc (4 + i))
  let pl := outPlace x.desc t role
  let n := match role with
    | .perRow w => w
    | _ => x.nEff
  let e := if t.trans then (x.mEff, n) else (n, x.mEff)
  encodeOut t (4 + i) pl.1.1 pl.2.1 e.1 e.2 (fun i0 i1 =>
    let p := if t.trans then (i0, i1) else (i1, i0)
    ⟨v p.1 p.2, srng x.seed (s.stepNo x.ctx) (dTileId x.desc) (elemKey i p.1 p.2)⟩)

/-- Takes an encoded output into a tile and the context's counts (R139, R143, R313). -/
def State.takeOut (s : State) (x : Tile) (i : Nat) (r : OutRes) : State × Tile :=
  let s := if r.excess = 0 then s else (s.bump (pruneExcessId + x.ctx) r.excess).orOv (sparseStatusId + x.ctx) 1
  let s := if r.storedDense then s.orOv (sparseStatusId + x.ctx) 16 else s
  let strict := bit (s.ov (sparseCtrlId + x.ctx)) 0 && r.excess != 0
  (s, { x with
    stores := x.stores ++ (if x.urnBad (4 + i) then [] else r.stores)
    flags := x.flags ||| r.flags
    causes := x.causes ++ (if strict then [(0x13, 4 + i)] else []) })

/-! The vector unit over a tile. -/

/-- A row of exact values as F32 values, with the flags of R42; CONVERT takes them as they are (R90). -/
def toRow (routine : Nat) (vs : List Fv) : List Fv × Flags := if routine = 1 then (vs, flagNone) else mapF rF32 vs

/-- One per-column vector of AUX_DESC: row `j`, columns from COL0, converted to F32 with the flags of R42 (R90, R100). -/
def auxVec (o : Opnd) (d : WorkDesc) (n j : Nat) : List Fv × Flags :=
  mapF rF32 ((List.range n).map (fun c => o.value (o.rcPos j (dCol0 d + c))))

/-- Rows of AUX_DESC that a routine uses (R100). -/
def auxRows (routine : Nat) : Nat :=
  match routine with
  | 0x05 => 2
  | 0x14 => 1
  | 0x15 => 2
  | _ => 0

/-- The gate record of one row of scores as 16 byte values (R205). -/
def gateRecord (xs : List Fv) : List Fv × Flags :=
  let r := topkRank xs
  let w0 := toFloat .g16 .rne false (xs.getD r.1.1 fvZero)
  let w1 := if xs.length ≤ 1 then (0, flagNone) else toFloat .g16 .rne false (xs.getD r.1.2 fvZero)
  let bs := toLE 2 r.1.1 ++ toLE 2 r.1.2 ++ toLE 4 0 ++ toLE 2 w0.1 ++ toLE 2 w1.1 ++ toLE 2 0xFE00 ++ toLE 2 0
  (bs.map (fun b => fvOfInt b.toInt), (r.2 ||| w0.2) ||| w1.2)

/-- The routine of a tile over its rows: result rows and flags (R91 to R94, R100). `aux` is its AUX operand. -/
def vuTile (d : WorkDesc) (aux : Opnd) (rows : List (List Fv)) : List (List Fv) × Flags :=
  let id := dRoutine d
  let n := ((rows.map (·.length)).foldl max 0)
  let u := if 0 < auxRows id then auxVec aux d n 0 else ([], flagNone)
  let w := if 1 < auxRows id then auxVec aux d n 1 else ([], flagNone)
  let a := u.1
  let b := w.1
  let eps := decodeFloat .f32 (dScalar d)
  let out := rows.zipIdx.map (fun x =>
    if id = 0x20 then gateRecord x.1
    else
      let free := fun (k c : Nat) => decodeFloat .f32 (Config.vuOperand id k (dTileId d) x.2 c)
      let g := if id = 0x15 then b else a
      vuRow id x.1 a (if id = 0x15 then a else b) g eps free)
  (out.map (·.1), out.foldl (fun f r => f ||| r.2) (u.2 ||| w.2))

/-- Runs the routine of a tile over rows of exact values into OUT_DESC0 (R100); NOP and an empty row write nothing. -/
def State.runRoutine (s : State) (core : Nat) (x : Tile) (rows : List (List Fv)) : State × Tile :=
  let d := x.desc
  let id := dRoutine d
  if id = 0 ∨ rows.all (·.isEmpty) then (s, x)
  else
    let conv := rows.map (toRow id)
    let fl := conv.foldl (fun f r => f ||| r.2) flagNone
    let aux := s.opnd core x 3
    let n := (rows.map (·.length)).foldl max 0
    let ps := (List.range (auxRows id)).flatMap (fun j => (List.range n).map (fun c => aux.rcPos j (dCol0 d + c)))
    let evs := if auxRows id = 0 then [] else aux.events ps
    let afl := if auxRows id = 0 then flagNone else aux.flags ps
    let r := vuTile d aux (conv.map (·.1))
    let s := s.note x evs
    let x := x.meet evs ((fl ||| afl) ||| r.2)
    if dWord d 4 = 0 then (s, x)
    else
      let o := s.produce x 0 (if vuPerRow id then .perRow (rowWidth id) else .output) (fun i j => (r.1.getD i []).getD j fvZero)
      s.takeOut x 0 o

/-- An undelivered word in what a tile stores (R87): every byte it leads to is free. -/
def garble (ev : Nat) (xs : List Store) : List Store :=
  xs.zipIdx.map (fun y => (y.1.1, y.1.2.1, y.1.2.2.1,
    y.1.2.2.2.1.zipIdx.map (fun b => BitVec.ofNat 8 (Config.lost ev (y.2 * 2 ^ 32 + b.2))), y.1.2.2.2.2))

/-- The stores of a tile whose data an error lost, where one did. -/
def lostStores (ev : Option Nat) (xs : List Store) : List Store := match ev with
  | none => xs
  | some n => garble n xs

/-- A tile still misses bytes of a peer (R335). -/
def Tile.misses (x : Tile) : Bool := x.causes.any (fun c => isMiss c.1)

/-! MATMUL. -/

/-- Format into which initial values are loaded. -/
def viewFmt (intView : Bool) : Fmt := if intView then .a48i else .a48

/-- Positions of entries within the effective extents. -/
def entryPos (x : Tile) : List (Nat × Nat) := gridPos 0 x.nEff 0 x.mEff

/-- Loads the initial values of a LOAD tile (R37, R43, R98, R104, R105): entries and flags. -/
def loadInit (x : Tile) (o : Opnd) (intView : Bool) : Tbl A48 × Flags :=
  (entryPos x).foldl (fun acc p =>
    let c := convertTo (viewFmt intView) 0 0 (o.value (o.rcPos (dRow0 x.desc + p.2) (dCol0 x.desc + p.1)))
    (tset 0 acc.1 (p.2 * 128 + p.1) (BitVec.ofNat 48 c.1), acc.2 ||| c.2)) ([], flagNone)

/-- Number of K terms before which a tile stops at a group boundary (R67). -/
def boundary (g kEff upto : Nat) : Nat := min kEff (alignUp g upto)

/-- Rounds the groups from `x.kDone` up to `upto` terms into every entry (R53 to R60). -/
def mmEntries (cls : DotClass) (x : Tile) (a b : Opnd) (intView : Bool) (upto : Nat) (es : Tbl A48) : Tbl A48 × Flags :=
  let d := x.desc
  (entryPos x).foldl (fun acc p =>
    let r := groupsFrom cls intView (fun k => (a.at_ (a.aPos (dRow0 d + p.2) k)).1)
      (fun k => (b.at_ (b.bPos k (dCol0 d + p.1))).1) (dK0 d) (dK0 d + x.kEff)
      (ceilDiv upto cls.g - ceilDiv x.kDone cls.g) (ceilDiv x.kDone cls.g) (tget 0 acc.1 (p.2 * 128 + p.1))
    (tset 0 acc.1 (p.2 * 128 + p.1) r.1, acc.2 ||| r.2)) (es, flagNone)

/-- Length along K of an operand that holds anything. -/
def kLimit (a : Opnd) : Nat := if kAxis a.t = 0 then a.t.dim0 else a.t.dim1

/-- Positions of A and of B that a range of K terms covers. -/
def aCover (x : Tile) (a : Opnd) (lo hi : Nat) : List (Nat × Nat) :=
  (gridPos lo (min hi (kLimit a) - lo) 0 x.mEff).map (fun p => a.aPos (dRow0 x.desc + p.2) p.1)
def bCover (x : Tile) (b : Opnd) (lo hi : Nat) : List (Nat × Nat) :=
  (gridPos lo (min hi (kLimit b) - lo) 0 x.nEff).map (fun p => b.bPos p.1 (dCol0 x.desc + p.2))

/-- Replaces tile `idx` of a core. -/
def Core.setTile (c : Core) (idx : Nat) (x : Tile) : Core := { c with tiles := c.tiles.set idx x }

/-- Computes a MATMUL tile up to `upto` K terms: initial values before its first step (R98), then its groups. -/
def State.mmRun (s : State) (core : Nat) (x : Tile) (sl : Slot) (upto : Nat) : State × Tile × Slot :=
  let d := x.desc
  let a := s.opnd core x 0
  let b := s.opnd core x 1
  let o := s.opnd core x 2
  let load := dAccMode d = 1 ∧ x.begun = false
  let ini := if load then loadInit x o sl.intView else (sl.entries, flagNone)
  let iPos := (entryPos x).map (fun p => o.rcPos (dRow0 d + p.2) (dCol0 d + p.1))
  let lo := dK0 d + x.kDone
  let hi := dK0 d + upto
  let evs := a.events (aCover x a lo hi) ++ b.events (bCover x b lo hi) ++ (if load then o.events iPos else [])
  let fl := (a.flags (aCover x a lo hi) ||| b.flags (bCover x b lo hi)) |||
    (if load then o.flags iPos ||| ini.2 else flagNone)
  let r := match pairClass a.t.fmt b.t.fmt with
    | some cls => mmEntries cls x a b sl.intView upto ini.1
    | none => (ini.1, flagNone)
  let terms := satAdd 32 sl.terms (upto - x.kDone)
  let y := { x.meet evs (fl ||| r.2) with
    begun := true
    kDone := upto
    longChain := x.longChain || (decide (65536 < terms) && decide (0 < x.mEff) && decide (0 < x.nEff)) }
  (s.note x evs, y, { sl with terms := terms, entries := r.1 })

/-- The operand is in a block-bitmap form (R127, R137). -/
def Opnd.bitmap (o : Opnd) : Bool :=
  match o.h with
  | .plain => o.t.directory
  | .ok h => h.enc == 2
  | .invalid => false

/-- A's stored blocks of a window of K terms as the match table is loaded with them (R147): K-block index, block row within
the tile and local staging position, here the order of loading. -/
def matchWindow (x : Tile) (a : Opnd) (lo hi : Nat) : List (Nat × Nat × Nat) :=
  let r0 := dRow0 x.desc / 32
  let cells := (List.range (ceilDiv hi 32 - lo / 32)).flatMap (fun j => (List.range 4).map (fun r => (lo / 32 + j, r)))
  ((cells.filter (fun c => (a.at_ (a.aPos (32 * (r0 + c.2)) (32 * c.1))).1 != .absent)).zipIdx.map
    (fun c => (c.1.1, c.1.2, c.2))).take 1024

/-- Pairs that the lookups of B's stored blocks find in the table, in ascending K-block order: B's K block and block column
with the entry of A (R147). -/
def matchPairs (x : Tile) (b : Opnd) (lo hi : Nat) (tab : List (Nat × Nat × Nat)) : List (Nat × Nat × Nat) :=
  let c0 := dCol0 x.desc / 32
  (List.range (ceilDiv hi 32 - lo / 32)).flatMap (fun j => (List.range 4).flatMap (fun n =>
    let k := lo / 32 + j
    if (b.at_ (b.bPos (32 * k) (32 * (c0 + n)))).1 = .absent then []
    else (tab.filter (fun e => e.1 == k)).map (fun e => (k, n, e.2.2))))

/-- The match table of a core once a tile has run up to `upto` K terms: what its last window of 8,192 terms loaded, where both
operands are in block-bitmap form (R147). -/
def State.matched (s : State) (core : Nat) (x : Tile) (upto : Nat) (c : Core) : Core :=
  let a := s.opnd core x 0
  if a.bitmap && (s.opnd core x 1).bitmap && decide (x.kDone < upto) then
    let lo := (upto - 1) / 8192 * 8192
    { c with matchTab := matchWindow x a (dK0 x.desc + lo) (dK0 x.desc + upto) }
  else c

/-- Group size of a MATMUL tile's operands. -/
def State.mmGroup (s : State) (x : Tile) : Nat :=
  match pairClass (s.tensAt (dWord x.desc 0)).fmt (s.tensAt (dWord x.desc 1)).fmt with
  | some c => c.g
  | none => 1

/-- Entries that an uncorrectable error left undelivered (R87): every entry is free. -/
def garbleSlot (ev : Nat) (sl : Slot) : Slot :=
  { sl with entries := (List.range 16384).filterMap (fun i =>
    let v : A48 := BitVec.ofNat 48 (Config.lost ev i)
    if v = 0 then none else some (i, v)) }

/-- A slot whose entries an error lost, where one did. -/
def lostSlot (ev : Option Nat) (sl : Slot) : Slot := match ev with
  | none => sl
  | some n => garbleSlot n sl

/-! VECTOR and COPY. -/

/-- Elements of one row of a VECTOR tile (R100). -/
def vecWidth (x : Tile) : Nat := if dRoutine x.desc = 0x20 ∧ dK x.desc ≠ 0 then x.kEff else x.nEff

/-- A VECTOR tile: its routine over INIT_DESC, +0 where that is absent (R99, R100). -/
def State.vecRun (s : State) (core : Nat) (x : Tile) : State × Tile :=
  let d := x.desc
  let o := s.opnd core x 2
  let n := vecWidth x
  let pos := fun (r c : Nat) => o.rcPos (dRow0 d + r) (dCol0 d + c)
  let ps := if dWord d 2 = 0 ∨ dRoutine d = 0 then []
    else (gridPos 0 n 0 x.mEff).map (fun p => pos p.2 p.1)
  let rows := (List.range x.mEff).map (fun r => (List.range n).map (fun c =>
    if dWord d 2 = 0 then fvZero else o.value (pos r c)))
  let evs := if ps = [] then [] else o.events ps
  (s.note x evs).runRoutine core (x.meet evs (o.flags ps)) rows

/-- A COPY tile: A_DESC to OUT_DESC0 (R99). -/
def State.copyRun (s : State) (core : Nat) (x : Tile) : State × Tile :=
  let d := x.desc
  let o := s.opnd core x 0
  let pos := fun (r c : Nat) => o.rcPos (dRow0 d + r) (dCol0 d + c)
  let ps := if dWord d 0 = 0 then [] else (gridPos 0 x.nEff 0 x.mEff).map (fun p => pos p.2 p.1)
  let evs := if ps = [] then [] else o.events ps
  let s := s.note x evs
  let x := x.meet evs (o.flags ps)
  if dWord d 4 = 0 then (s, x)
  else s.takeOut x 0 (s.produce x 0 .output (fun r c => if dWord d 0 = 0 then fvZero else o.value (pos r c)))

/-- The epilogue of a MATMUL tile over its slot (R90, R100). -/
def State.epiRun (s : State) (core : Nat) (x : Tile) (sl : Slot) : State × Tile :=
  s.runRoutine core x ((List.range x.mEff).map (fun r => (List.range x.nEff).map (fun c =>
    decodeFmt (viewFmt sl.intView) (tget 0 sl.entries (r * 128 + c)).toNat)))

end Sys2Proof.Machine
end

