-- ==== Sys2Proof/Machine/UpdateTile.lean ====
section
/-!
DEFINITION. The update tile (R239 to R248).
Choices and readings that the model fixes here: log 8.
-/

namespace Sys2Proof.Machine

/-- Fields of a shard record read as a number (R240); tensors 0 to 3 are W, M, V and Q. -/
def shBase (v i copy : Nat) : Nat := bits v (128 * i + 64 * copy) 64
def shStride (v i : Nat) : Nat := bits v (512 + 32 * i) 32
def shFmt (v i : Nat) : Fmt := (fmtOf (bits v (704 + 8 * i) 4)).getD .f32
def shConv (v i : Nat) : Nat := bits v (708 + 8 * i) 3
def shDim0 (v : Nat) : Nat := bits v 640 32
def shSkipEmpty (v : Nat) : Bool := bit v 735
def shLayer (v : Nat) : Nat := bits v 736 12

/-- The hyperparameter at byte `o` of a latched block (R241). -/
def hpAt (x : Tile) (o : Nat) : Fv := decodeFloat .f32 (leNat ((x.latched.drop o).take 4))

/-- What the update of one element yields (R243). -/
structure UpdOut where
  g : Fv
  w : Fv
  w1 : Fv
  m1 : Fv
  v1 : Fv
  flags : Flags
deriving DecidableEq, Repr

/-- The update of one element, by the sequence of R243; `g` is the scaled gradient. -/
def updElem (adaptive : Bool) (x : Tile) (g w m v : Fv) : UpdOut :=
  let lr := hpAt x 0
  let b1 := hpAt x 4
  let b2 := hpAt x 8
  let eps := hpAt x 12
  let wd := hpAt x 16
  let c1 := hpAt x 24
  let c2 := hpAt x 28
  let step := fun (u : Fv × Flags) (m1 v1 : Fv) =>
    let d := f32Fma wd w u.1
    let w1 := f32Fma (fvNeg lr) d.1 w
    (⟨g, w, w1.1, m1, v1, (u.2 ||| d.2) ||| w1.2⟩ : UpdOut)
  if adaptive then
    let dm := f32Add m (fvNeg g)
    let m1 := f32Fma b1 dm.1 g
    let q := f32Mul g g
    let dv := f32Add v (fvNeg q.1)
    let v1 := f32Fma b2 dv.1 q.1
    let vh := f32Mul v1.1 c2
    let isZ := match vh.1 with
      | .fin _ 0 _ => true
      | _ => false
    let r := if isZ then (fvZero, flagNone) else vuRsqrt vh.1
    let sq := if isZ then (fvZero, flagNone) else f32Mul vh.1 r.1
    let den := f32Add sq.1 eps
    let rc := vuRecip den.1
    let mc := f32Mul m1.1 c1
    let u := f32Mul mc.1 rc.1
    step (u.1, [dm.2, m1.2, q.2, dv.2, v1.2, vh.2, r.2, sq.2, den.2, rc.2, mc.2, u.2].foldl (· ||| ·) flagNone) m1.1 v1.1
  else
    let m1 := f32Fma b1 m g
    step m1 m1.1 v

/-- Codes of `n` elements of a tensor row from column `c`. -/
def State.rowCodes (s : State) (f : Fmt) (a c n : Nat) : List Nat :=
  (List.range n).map (fun i => (codeAt (fun a n => (s.loadDev a n, [])) (fmtWidth f) a (c + i)).1)

/-- Address of row `r` of the shard in a copy. -/
def shRow (v i copy r : Nat) : Nat := shBase v i copy + r * shStride v i

/-- Offset of the S8 scales within a row of Q (R208, R240). -/
def shScale (v : Nat) : Nat := alignUp 16 ((shDim0 v * fmtWidth (shFmt v 3) + 7) / 8)

/-- Tensors that an update tile writes, with their output index of R244. -/
def updTensors (v : Nat) (adaptive : Bool) : List Nat :=
  [0, 1] ++ (if adaptive then [2] else []) ++ (if shBase v 3 0 = 0 then [] else [3])

/-- Addresses and lengths of the shard bytes that the tile reads (R243, R245). -/
def updReads (v : Nat) (x : Tile) (rd : Nat) (ts : List Nat) : List (Nat × Nat) :=
  let d := x.desc
  ts.flatMap (fun i => (List.range x.mEff).map (fun r =>
    let w := fmtWidth (shFmt v i)
    let lo := dCol0 d * w / 8
    (shRow v i rd (dRow0 d + r) + lo, ((dCol0 d + x.nEff) * w + 7) / 8 - lo)))

/-- Addresses and lengths of the scale bytes of a tensor's rows that a tile copies (R208, R245). -/
def updScaleReads (v : Nat) (x : Tile) (rd i : Nat) : List (Nat × Nat) :=
  if modeScaled (shFmt v i) (shConv v i) then
    (List.range x.mEff).map (fun r =>
      let lo := shScale v + dCol0 x.desc / 32
      (shRow v i rd (dRow0 x.desc + r) + lo, shScale v + ceilDiv (dCol0 x.desc + x.nEff) 32 - lo))
  else []

/-- Causes of reads of device memory by a tile. -/
def State.readCauses (s : State) (op : Nat) (rs : List (Nat × Nat)) : List (Nat × Nat) :=
  rs.flatMap (fun r => (if s.anyUnmapped r.1 r.2 then [(0x03, op)] else []) ++
    (if s.anyPoison r.1 r.2 then [(0x04, op)] else []))

/-- Stores of one row of a written tensor: converted values (R244). -/
def updRowStores (x : Tile) (v step wr i r : Nat) (vals : List Fv) : List Store × Flags :=
  let d := x.desc
  let f := shFmt v i
  let a := shRow v i wr (dRow0 d + r)
  let l := convLine f (shConv v i) (vals.zipIdx.map (fun y =>
    ⟨y.1, srng x.seed step (dTileId d) (elemKey i r y.2)⟩))
  (runStores 0 0 0 (fmtWidth f) a (dCol0 d) l.1 ++
    (if l.2.1 = [] then [] else [(0, 0, a + shScale v + dCol0 d / 32, l.2.1.map (BitVec.ofNat 8), 0)]), l.2.2)

/-- Stores of one row of a tensor copied code for code (R245). DESIGN CHOICE (log 47): a scale 0xFF moved so raises no
NAN_SCALE. -/
def State.updRowCopy (s : State) (x : Tile) (v rd wr i r : Nat) : List Store :=
  let d := x.desc
  let f := shFmt v i
  let src := shRow v i rd (dRow0 d + r)
  let dst := shRow v i wr (dRow0 d + r)
  runStores 0 0 0 (fmtWidth f) dst (dCol0 d) (s.rowCodes f src (dCol0 d) x.nEff) ++
    (if modeScaled f (shConv v i) then
      let lo := shScale v + dCol0 d / 32
      [(0, 0, dst + lo, s.loadDev (src + lo) (shScale v + ceilDiv (dCol0 d + x.nEff) 32 - lo), 0)]
    else [])

/-- The partial-norm record (R247). -/
def normRecord (v step : Nat) (es : List UpdOut) : List Byte × Flags :=
  let sw := rowSumSq (es.map (·.w1))
  let sg := rowSumSq (es.map (·.g))
  let ds := mapF (fun (e : UpdOut) => f32Add e.w (fvNeg e.w1)) es
  let su := rowSumSq ds.1
  (toLE 4 (f32Code sw.1) ++ toLE 4 (f32Code sg.1) ++ toLE 4 (f32Code su.1) ++ toLE 2 (shLayer v) ++ toLE 2 step,
    ((sw.2 ||| sg.2) ||| ds.2) ||| su.2)

/-- The delivery record names another step or attempt than the context's (R242). -/
def State.updStale (s : State) (x : Tile) : Bool :=
  let r := leNat (s.loadDev (dWord x.desc 2) 16)
  dWord x.desc 2 != 0 &&
    (bits r 8 8 != s.attemptNo x.ctx % 256 || bits r 32 32 != s.stepNo x.ctx)

/-- The delivery record marks the slice EMPTY. -/
def State.updEmpty (s : State) (x : Tile) : Bool := dWord x.desc 2 != 0 && bit (leNat (s.loadDev (dWord x.desc 2) 1)) 0

/-- The work of an update tile: its outputs, causes and flags (R239 to R248). -/
def State.updRun (s : State) (core : Nat) (x : Tile) : State × Tile :=
  let d := x.desc
  if s.updStale x then (s, { x with causes := x.causes ++ [(0x40, 2)] })
  else
    let v := leNat (s.loadDev (dWord d 0) 128)
    let step := s.stepNo x.ctx
    let rd := (step + 1) % 2
    let wr := step % 2
    let adaptive := dRoutine d == 0x31
    let ts := updTensors v adaptive
    let empty := s.updEmpty x
    let skip := empty && shSkipEmpty v
    let o := s.opnd core x 1
    let ps := if empty then [] else (gridPos 0 x.nEff 0 x.mEff).map (fun p => o.rcPos p.2 p.1)
    let evs := if ps = [] then [] else o.events ps
    let row := fun (i r : Nat) =>
      (s.rowCodes (shFmt v i) (shRow v i rd (dRow0 d + r)) (dCol0 d) x.nEff).map (decodeFmt (shFmt v i))
    let elems := (List.range x.mEff).map (fun r =>
      let ws := row 0 r
      let ms := row 1 r
      let vs := row 2 r
      (List.range x.nEff).map (fun c =>
        let g := if empty then (fvZero, flagNone)
          else
            let e := rF32 (o.value (o.rcPos r c))
            let p := f32Mul e.1 (hpAt x 20)
            (p.1, e.2 ||| p.2)
        let w := ws.getD c fvZero
        if skip then (⟨g.1, w, w, fvZero, fvZero, flagNone⟩ : UpdOut)
        else
          let u := updElem adaptive x g.1 w (ms.getD c fvZero) (vs.getD c fvZero)
          { u with flags := u.flags ||| g.2 }))
    let outs := ts.flatMap (fun i => (List.range x.mEff).map (fun r =>
      if skip then (s.updRowCopy x v rd wr i r, flagNone)
      else
        let es := elems.getD r []
        updRowStores x v step wr i r (es.map (fun e =>
          match i with
          | 1 => e.m1
          | 2 => e.v1
          | _ => e.w1))))
    let norm := normRecord v step elems.flatten
    let base := bits (s.ov (normCfgId + x.ctx)) 0 64
    let nonfin := bit (s.ov (stepCfgId + x.ctx)) 100 && elems.flatten.any (fun e =>
      match e.g with
      | .fin _ _ _ => false
      | _ => true)
    let fl := (elems.flatten.foldl (fun f e => f ||| e.flags) flagNone |||
      outs.foldl (fun f r => f ||| r.2) flagNone) ||| (if base = 0 then flagNone else norm.2)
    let y := (x.meet evs (fl ||| o.flags ps))
    (s.note x evs,
      { y with
        stores := outs.flatMap (·.1) ++
          (if base = 0 then [] else [(0, 0, base + bits (dScalar d) 0 16 * 16, norm.1, 0xFF)])
        causes := y.causes ++ s.readCauses 0 (updReads v x rd (ts.filter (fun i => i != 3 || skip)) ++
          (if skip && ts.contains 3 then updScaleReads v x rd 3 else [])) ++ (if nonfin then [(0x41, 1)] else []) })

end Sys2Proof.Machine
end

