-- ==== Sys2Proof/Machine/Tiles.lean ====
section
/-!
DEFINITION. The commands of a core: claims, the stages of an accepted tile, posting, and context switches (R96 to R111,
R118 to R124, R67 to R70, R323).
Choices and readings that the model fixes here: log 23.
-/

namespace Sys2Proof.Machine

/-! SEND and POST. -/

/-- The payload of a SEND tile (DESIGN CHOICE, log 47: a scale 0xFF moved as a byte raises no NAN_SCALE): the dense body of
R138 over its rows, zero codes where a row is not the tensor's or not
within the effective extent. -/
def sendPayload (x : Tile) (o : Opnd) : List Byte × List (Nat × Nat) :=
  let d := x.desc
  let t := o.t
  let zero := toFloat t.fmt .rne false fvZero
  let rows := (List.range (dM d)).map (fun r => (List.range t.dim0).map (fun i =>
    if r < x.mEff ∧ dRow0 d + r < t.dim1 then codeAt o.rd t.w (t.base + (dRow0 d + r) * t.stride1) i
    else (if fmtIsInt t.fmt then 0 else zero.1, [])))
  let scs := if t.scaled then (List.range (dM d)).map (fun r => (List.range (ceilDiv t.dim0 32)).map (fun i =>
      if r < x.mEff ∧ dRow0 d + r < t.dim1 then
        let b := o.rd (t.scaleBase + (dRow0 d + r) * t.scaleStride + i) 1
        (leNat b.1, b.2)
      else (127, [])))
    else []
  (padSec (packCodes t.w (rows.flatten.map (·.1))) ++ padSec (scs.flatten.map (fun b => BitVec.ofNat 8 b.1)),
    ((rows.flatten ++ scs.flatten).flatMap (·.2)).map (fun c => (c, 0)))

/-- Sends a payload as DATA packets of at most 7,680 bytes on VC11 (R324). -/
def State.sendData (s : State) (core ctx : Nat) (r : SendRec) (tag : Nat) (bs : List Byte) : State :=
  (List.range (ceilDiv bs.length 7680)).foldl (fun s i =>
    s.send (portDie (core / 64)) 11 ctx r.dest (mkBody 16 [(0, 8, 0x82), (16, 16, r.reqId), (32, 32, 7680 * i), (64, 32, r.handle.getD 0),
      (96, 32, tag)] ++ (bs.drop (7680 * i)).take 7680)) s

/-- The work of a SEND tile (R323, R324). -/
def State.sendRun (s : State) (core : Nat) (x : Tile) (ev : Option Nat) : State × Tile :=
  let p := sendPayload x (s.opnd core x 0)
  let bs := match ev with
    | none => p.1
    | some e => p.1.zipIdx.map (fun b => BitVec.ofNat 8 (Config.lost e b.2))
  let x := { x with causes := x.causes ++ p.2 }
  match s.urn.sends.filter (fun r => r.ctx == x.ctx && r.seq == x.seq) with
  | r :: _ =>
    let s := s.sendData core x.ctx r (bits (dWord x.desc 1) 0 32) bs
    (s.setUrn { s.urn with sends := s.urn.sends.filter (fun r => !(r.ctx == x.ctx && r.seq == x.seq)) }, x)
  | [] => (s, x)

/-- Target of a POST tile (R109). -/
def postTarget (x : Tile) : Nat := if dCol0 x.desc % 8 = 7 then x.die else dCol0 x.desc % 8

/-- Posts the rows of a POST tile from its next one until none is left or no room is found (R109, R111). -/
def postRows : Nat → State → Tile → State × Tile
  | 0, s, x => (s, { x with stage := .storing })
  | n + 1, s, x =>
    if x.mEff ≤ x.row then (s, { x with stage := .storing })
    else
      let t := s.tensAt (dWord x.desc 2)
      let a := t.base + (dRow0 x.desc + x.row) * t.stride1
      let r := s.source 0 x.ctx x.seq x.evalC false t a 128
      match s.post x.ctx (postTarget x) (descOf (lostBytes s.lostNow r.1)) with
      | some s' => postRows n s' { x with row := x.row + 1, causes := x.causes ++ r.2.map (fun c => (c, 2)) }
      | none => (s, { x with stage := .posting })

/-! Acceptance of the types that no shared operation covers. -/

/-- Acceptance of an UPDATE tile: its hyperparameter block is read (R241). -/
def State.acceptUpdate (core : Nat) (e : Entry) (s : State) : State :=
  s.addTile core { s.newTile core e none with latched := lostBytes s.lostNow (s.loadDev (dWord e.desc 3) 64) }

/-- Acceptance of a POST tile: it posts its rows (R109). -/
def State.acceptPost (core : Nat) (e : Entry) (s : State) : State :=
  let x := s.newTile core e none
  if x.status = stEmpty then s.addTile core x
  else
    let r := postRows 129 s x
    r.1.addTile core r.2

/-- Acceptance of a MATMUL tile; one of empty shape holds its slot and runs no step (R105). -/
def execMatmul (core : Nat) (s : State) : Result :=
  need (coreOk core) (.next (s.claim core 0 State.acceptMatmul))

/-- VECTOR (R99). -/
def execVector (core : Nat) (s : State) : Result :=
  need (coreOk core) (.next (s.claim core 1 State.acceptPlain))

/-- COPY (R99). -/
def execCopy (core : Nat) (s : State) : Result :=
  need (coreOk core) (.next (s.claim core 2 State.acceptPlain))

/-- UPDATE (R243). -/
def execUpdate (core : Nat) (s : State) : Result :=
  need (coreOk core) (.next (s.claim core 4 State.acceptUpdate))

/-- SEND (R324). -/
def execSend (core : Nat) (s : State) : Result :=
  need (coreOk core) (.next (s.claim core 5 State.acceptPlain))

/-- POST (R109). -/
def execPost (core : Nat) (s : State) : Result :=
  need (coreOk core) (.next (s.claim core 7 State.acceptPost))

/-- POST_RETRY: every POST tile of a core that found no room retries its row, in acceptance order (R111); none does in a
forced-idle quantum (R118). -/
def State.postRetry (core : Nat) (s : State) : State :=
  if (s.core core).idleQ then s
  else (List.range (s.core core).tiles.length).foldl (fun s i =>
    match (s.core core).tiles[i]? with
    | none => s
    | some x =>
      if x.stage ≠ .posting then s
      else
        let r := postRows 129 s x
        r.1.modCore core (fun c => c.setTile i r.2)) s

/-- POST_RETRY (R111). -/
def execPostRetry (core : Nat) (s : State) : Result := need (coreOk core) (.next (s.postRetry core))

/-- OVERFLOW_MOVE (R111). -/
def execOverflowMove (die : Nat) (s : State) : Result := need (dieOk die) (.next (s.overflowMove die))

/-- CHAIN_MISSING (R101). -/
def execChainMissing (die : Nat) (s : State) : Result := need (dieOk die) (.next (s.chainMissing die))

/-! Stages. -/

/-- The stage after computing of a tile. -/
def Tile.computed (x : Tile) : Tile := { x with begun := true, stage := if dType x.desc = 0 then .epilogue else .storing }

/-- Tile `idx` of a core, as `x`, forms its results from the core's slots in `c`; `ev` is the free value of data that an
uncorrectable error lost. A tile that misses bytes of a peer asks for them and stays (R96, R335, log 23). -/
def State.compute (core idx : Nat) (ev : Option Nat) (c : Core) (x : Tile) (s : State) : State :=
  let i := x.slot.getD 0
  match dType x.desc with
  | 0 =>
    let r := s.mmRun core x (c.slot i) x.kEff
    if r.2.1.misses then (s.setCore core (c.setTile idx x)).askPeer core x.ctx x.seq r.2.1.causes
    else (r.1.setCore core (s.matched core x x.kEff
      ((c.setSlot i { lostSlot ev r.2.2 with st := .draining }).setTile idx r.2.1.computed))).assign core
  | 3 => s.setCore core ((if ev.isSome then c.setSlot i (lostSlot ev (c.slot i)) else c).setTile idx x)
  | 5 =>
    let r := s.sendRun core x ev
    r.1.setCore core (c.setTile idx r.2.computed)
  | ty =>
    let r := if ty = 1 then s.vecRun core x else if ty = 2 then s.copyRun core x else s.updRun core x
    let y := r.2.computed
    if y.misses then (s.setCore core (c.setTile idx x)).askPeer core x.ctx x.seq y.causes
    else r.1.setCore core (c.setTile idx { y with stores := lostStores ev y.stores })

/-- The computing of tile `idx` ends (R96): every remaining group of a MATMUL tile is rounded and its slot drains (R89), any
other tile has formed what it stores or sends. A tile that misses bytes of a peer asks for them and goes on computing
(R335, log 23). An EMIT tile only meets the errors of its slot here; it ends with its last chunk (R268). -/
def State.computeDone (core idx : Nat) (err : List SramErr) (s : State) : State :=
  match (s.core core).tiles[idx]? with
  | none => s
  | some x =>
    if x.stage ≠ .computing ∨ (s.core core).idleQ then s
    else ((s.sram core err).lose err).compute core idx (if sramLost err then some (s.sram core err).free else none)
      (s.core core) { x with causes := x.causes ++ sramCauses err }

/-- TILE_COMPUTE_DONE (R96). -/
def execTileComputeDone (core idx : Nat) (err : List SramErr) (s : State) : Result :=
  need (coreOk core && tileOk idx) (.next (s.computeDone core idx err))

/-- A slot whose epilogue has drained it: left HELD for its chain, or FREE (R89, R100). -/
def Slot.drained (sl : Slot) (d : WorkDesc) : Slot :=
  if dHold d then { sl with st := .held, chain := dChain d } else .free

/-- Tile `idx` of a core, as `x`, forms its outputs from its slot in `c` (R100, R335, log 23). -/
def State.epilogue (core idx : Nat) (ev : Option Nat) (c : Core) (x : Tile) (s : State) : State :=
  let i := x.slot.getD 0
  let r := s.epiRun core x (c.slot i)
  if r.2.misses then (s.setCore core (c.setTile idx x)).askPeer core x.ctx x.seq r.2.causes
  else r.1.setCore core ((c.setSlot i ((c.slot i).drained x.desc)).setTile idx
    { r.2 with stage := .storing, slot := none, stores := lostStores ev r.2.stores })

/-- The epilogue of tile `idx` ends (R96, R100): one at a time, in order of acceptance; its slot is drained. A tile that
misses bytes of a peer asks for them and stays (R335, log 23). -/
def State.epilogueDone (core idx : Nat) (err : List SramErr) (s : State) : State :=
  match (s.core core).tiles[idx]? with
  | none => s
  | some x =>
    if x.stage ≠ .epilogue ∨ (s.core core).idleQ ∨ ((s.core core).tiles.take idx).any (fun y => y.stage == .epilogue) then s
    else ((s.sram core err).lose err).epilogue core idx (if sramLost err then some (s.sram core err).free else none)
      (s.core core) { x with causes := x.causes ++ sramCauses err }

/-- TILE_EPILOGUE_DONE (R100). -/
def execTileEpilogueDone (core idx : Nat) (err : List SramErr) (s : State) : Result :=
  need (coreOk core && tileOk idx) (.next (s.epilogueDone core idx err))

/-- Output words whose DEVICE stores EVAL_MEM forbids (R474). -/
def State.forbidden (s : State) (x : Tile) : List Nat :=
  ([4, 5, 6, 7] : List Nat).filter (fun op => x.stores.any (fun y =>
    y.2.2.2.2 == op && y.1 % 16 == 0 && s.evalForbids x.ctx y.2.2.1 y.2.2.2.1.length))

/-- Frees the urn buffers of a completing tile: causes met (R314, R316). -/
def freeAll (ctx : Nat) : List (Nat × Nat) → State → State × List (Nat × Nat)
  | [], s => (s, [])
  | h :: hs, s =>
    let r := s.urnFreeHandle ctx h.1
    let q := freeAll ctx hs r.1
    (q.1, (if r.2 = 0 then [] else [(if r.2 = 3 then 0x09 else 0x08, h.2)]) ++ q.2)

/-- A tile leaves its core: a slot that it still has is freed, or left HELD for its chain (R89, R98, R105); the last tile's
departure is the moment from which the core is idle. -/
def State.release (s : State) (core : Nat) (x : Tile) : State :=
  let c := s.core core
  let c := match x.slot with
    | none => c
    | some i => c.setSlot i ((c.slot i).drained x.desc)
  let ts := c.tiles.filter (fun y => !(y.seq == x.seq && y.ctx == x.ctx))
  (s.setCore core { c with tiles := ts, idleFrom := if ts.isEmpty then s.clk else c.idleFrom }).assign core

/-- Status and DETAIL of a tile at its completion (R122, R123). -/
def Tile.result (x : Tile) : Nat × Nat :=
  if x.status = stSave then (stSave, 0)
  else if x.causes = [] then (x.status, 0) else (stDefective, lowestCause x.causes)

/-- The completion record of an accepted tile (R121). -/
def Tile.cpl (x : Tile) (core : Nat) : Cpl :=
  { desc := x.desc, ctx := x.ctx, core := core, status := x.result.1, detail := x.result.2
    sparse := dType x.desc == 0 && x.sparse, substituted := x.substituted, longChain := x.longChain
    reissued := x.reissued, flags := x.flags, m := x.mEff, n := x.nEff, accept := x.acceptTime }

/-- Steps 2 and 3 of R108 for an accepted tile, after its stores; an UPDATE tile that is OK counts (R254). -/
def State.complete (s : State) (core : Nat) (x : Tile) : State :=
  let s := (s.release core x).finish (x.cpl core)
  if dType x.desc = 4 ∧ x.result.1 = stOk then s.modStp x.ctx (fun p => { p with updates := p.updates + 1 }) else s

/-- The end of a tile whose stores are all applied and acknowledged: urn buffers freed, then the record and the signals
(R108, R314). -/
def State.tileEnd (core : Nat) (x : Tile) (s : State) : State :=
  let f := freeAll x.ctx x.frees s
  (f.1.dropTileReqs core x.ctx x.seq).complete core { x with causes := x.causes ++ f.2 }

/-- A WRITE of a tile awaits its acknowledgement (R108). -/
def State.writesOpen (s : State) (core ctx seq : Nat) : Bool :=
  s.fab.tileReqs.any (fun r => r.write && r.core == core && r.ctx == ctx && r.seq == seq && r.got.isNone)

/-- Causes that the acknowledgements of a tile's WRITEs brought (R339). -/
def State.writeCauses (s : State) (core ctx seq : Nat) : List (Nat × Nat) :=
  (s.fab.tileReqs.filter (fun r => r.write && r.core == core && r.ctx == ctx && r.seq == seq && r.cause != 0)).map
    (fun r => (r.cause, r.op))

/-- A WRITE of an accepted tile of a core awaits its acknowledgement. -/
def State.acksOpen (s : State) (core : Nat) (x : Tile) : Bool := s.writesOpen core x.ctx x.seq

/-- Causes that the acknowledgements of the WRITEs of an accepted tile of a core brought. -/
def State.ackCauses (s : State) (core : Nat) (x : Tile) : List (Nat × Nat) := s.writeCauses core x.ctx x.seq

/-! The end of a tile of the token exchange engine. -/

/-- The completion record of an EXCHANGE tile, of which `cs` are all the causes (R105, R121, R123); it has no core. -/
def TxeTile.cpl (x : TxeTile) (cs : List (Nat × Nat)) : Cpl :=
  { desc := x.desc
    ctx := x.ctx
    core := 0
    status := if cs = [] then (if x.mEff = 0 ∨ x.nEff = 0 then stEmpty else stOk) else stDefective
    detail := lowestCause cs
    sparse := false
    substituted := false
    longChain := false
    reissued := x.reissued
    flags := x.flags
    m := x.mEff
    n := x.nEff
    accept := x.acceptTime }

/-- What an EXCHANGE tile met, noted (R332), and its causes as R123 numbers them. -/
def State.metX (s : State) (ctx : Nat) (cs : List (Nat × Nat)) : State × List (Nat × Nat) :=
  (cs.foldl (fun s c => s.noteRefused ctx c.1) s, cs.map (fun c => (plainCause c.1, c.2)))

/-- The end of an EXCHANGE tile whose stores are all applied and acknowledged (R108, R121, R314). -/
def State.endX (s : State) (x : TxeTile) : State :=
  let f := freeAll x.ctx x.frees s
  let cs := x.causes ++ s.writeCauses txeCore x.ctx x.seq ++ f.2
  (f.1.dropTileReqs txeCore x.ctx x.seq).finish (x.cpl cs)

/-- An EXCHANGE tile has formed all its effects: it ends, or waits for the acknowledgements of its WRITEs (R108). -/
def State.finishX (s : State) (x : TxeTile) : State :=
  let m := s.metX x.ctx x.causes
  let x := { x with causes := m.2 }
  if m.1.writesOpen txeCore x.ctx x.seq then
    m.1.setTxe { m.1.txe with busy := m.1.txe.busy ++ [{ x with acking := true }] }
  else m.1.endX x

/-- The last WRITE of an EXCHANGE tile that only waits for acknowledgements is answered (R108). -/
def State.ackX (s : State) (ctx seq : Nat) : State :=
  let is := fun (x : TxeTile) => x.acking && x.ctx == ctx && x.seq == seq
  match (s.txe.busy.filter is).head? with
  | some x => if s.writesOpen txeCore ctx seq then s
    else (s.setTxe { s.txe with busy := s.txe.busy.filter (fun y => !(is y)) }).endX x
  | none => s

/-- A request of a tile is answered, or has timed out: its record takes what came; the last WRITE of a tile that only waits
for acknowledgements ends it (R108, R339). -/
def State.tileAnswer (r : TileReq) (bytes : List Byte) (cause : Nat) (s : State) : State :=
  let s := s.setFab { s.fab with
    tileReqs := s.fab.tileReqs.map (fun x => if x.tag = r.tag then { x with got := some bytes, cause := cause } else x) }
  match ((s.core r.core).tiles.filter (fun x => x.ctx == r.ctx && x.seq == r.seq && x.stage == .acking)).head? with
  | some x => if s.acksOpen r.core x then s
    else s.tileEnd r.core { x with causes := x.causes ++ s.ackCauses r.core x }
  | none => if r.core = txeCore then s.ackX r.ctx r.seq else s

/-- An UPDATE tile's partial norm is written: its slot holds a record of the attempt (R247, R259). -/
def State.noteNorm (s : State) (x : Tile) : State :=
  if dType x.desc = 4 ∧ x.stores.any (fun y => y.2.2.2.2 == 0xFF) then
    let i := bits (dScalar x.desc) 0 16
    s.modStp x.ctx (fun p => { p with norms := i :: p.norms.filter (· != i), normsLost := p.normsLost.filter (· != i) })
  else s

/-- TILE_STORES_DONE (R108): every store applied; the tile ends, or waits for the acknowledgements of its WRITEs. -/
def State.storesDone (core idx : Nat) (s : State) : State :=
  match (s.core core).tiles[idx]? with
  | none => s
  | some x =>
    if x.stage ≠ .storing then s
    else
      let s := s.noteNorm x
      let bad := s.forbidden x
      let met := sramCauses s.mem.found
      let s := s.foundDone
      let r := State.applyStores core x.ctx x.seq (x.stores.filter (fun y => !(bad.contains y.2.2.2.2))) s
      let y := { x with causes := x.causes ++ met ++ bad.map (fun op => (0x0A, op)) ++ r.2, stores := [] }
      if r.1.acksOpen core y then r.1.modCore core (fun c => c.setTile idx { y with stage := .acking })
      else r.1.tileEnd core y

/-- TILE_STORES_DONE (R108). -/
def execTileStoresDone (core idx : Nat) (s : State) : Result :=
  need (coreOk core && tileOk idx) (.next (s.storesDone core idx))

/-! Context switches. -/

/-- The list entry of an accepted tile that returns to its list (R120, R125). -/
def Tile.entry (x : Tile) (reissued : Bool) : Entry :=
  { desc := x.desc, ctx := x.ctx, seq := x.seq, die := x.die, readyAt := none, taken := true
    reissued := x.reissued || reissued }

/-- Contexts in ascending order from the one after `ctx`, wrapping at 15 (R119). -/
def ctxFrom (ctx : Nat) : List Nat := (List.range 15).map (fun i => (ctx + 1 + i) % 16)

/-- A tile of a context is ready for a core apart from tests 1, 4 and 5 of R113, or stands suspended on it where the core may serve it (R119, R473). -/
def State.ctxReady (s : State) (core ctx : Nat) : Bool :=
  (s.evalServes core ctx && (s.core core).suspended.any (fun x => x.ctx == ctx)) ||
    (List.range 4).any (fun d => (s.dieList d).any (fun e =>
      e.ctx == ctx && s.readyOutside core e && (d == dieOf core || s.stealable core e)))

/-- A MATMUL tile whose slot returns with it to its list: the slot of a CONTINUE tile is HELD again, any other FREE. DESIGN
CHOICE (log 47): the slot that is HELD again keeps this tile's TILE_ID for R69. -/
def Core.unclaim (c : Core) (x : Tile) : Core :=
  match x.slot with
  | none => c
  | some i => if dAccMode x.desc = 2 then c.setSlot i { c.slot i with st := .held } else c.setSlot i .free

/-- Steps 2 to 4 of R120 for one accepted tile: it stays to complete, returns to its list, or stops at a group boundary
at or after the terms it had reached, none beyond where bytes of a peer are missing, and stands suspended; a tile stopped
under R76 had reached the boundary that its number gives. -/
def State.switchOut (core : Nat) (p : Tile × Nat) (s : State) : State :=
  let x := p.1
  let c := s.core core
  let engine := x.stage = .waiting ∨ x.stage = .computing ∨ x.stage = .stopped
  let begun := x.begun ∨ (p.2 ≠ 0 ∧ (x.stage = .computing ∨ x.stage = .stopped))
  let drop := fun (c : Core) => { c with tiles := c.tiles.filter (fun y => !(y.seq == x.seq && y.ctx == x.ctx)) }
  if begun = false ∧ engine then
    (((s.setCore core (drop (c.unclaim x)))).dropTileReqs core x.ctx x.seq).repost (x.entry false)
  else if dType x.desc = 0 ∧ engine then
    let i := x.slot.getD 0
    let run := s.mmRun core x (c.slot i) (max x.kDone (boundary (s.mmGroup x) x.kEff p.2))
    let r := if run.2.1.misses then (s, x, c.slot i) else run
    let c := s.matched core x r.2.1.kDone (drop (c.setSlot i r.2.2))
    r.1.setCore core { c with suspended := c.suspended ++ [{ r.2.1 with stage := .stopped }] }
  else if begun then s.modCore core (fun c =>
    { c with tiles := c.tiles.map (fun y => if y.seq == x.seq && y.ctx == x.ctx then { y with begun := true } else y) })
  else s

/-- CTX_SLICE_EXPIRY (R119, R120): the slice restarts, or the core stops accepting and its tiles of the outgoing context
leave. -/
def State.sliceExpiry (core : Nat) (stops : List Nat) (s : State) : State :=
  let c := s.core core
  if s.ftRead (s.diePs (dieOf core)) < c.sliceAt + s.ov ctxSliceId * 1000 ∨ c.switchTo ≠ none then s
  else
    let s := (s.modCore core ({ · with wake := true })).notice
    match (ctxFrom c.ctx).filter (s.ctxReady core) with
    | [] => s.modCore core (fun c => { c with sliceAt := s.ftRead (s.diePs (dieOf core)) })
    | n :: _ =>
      let s := s.modCore core (fun c => { c with switchTo := some n })
      ((s.core core).tiles.zipIdx.map (fun x => (x.1, stops.getD x.2 0))).foldl (fun s p => s.switchOut core p) s

/-- CTX_SLICE_EXPIRY (R119). -/
def execCtxSliceExpiry (core : Nat) (stops : List Nat) (s : State) : Result :=
  need (coreOk core) (powered s (s.sliceExpiry core stops))

/-- Start of the save area of a logical core for a context (R68). -/
def State.saveArea (s : State) (ctx core : Nat) : Nat := s.ov (accSaveBaseId + ctx) + core * 0x181000

/-- The bytes of a slot image (R68). -/
def slotImage (x : Slot) : List Byte := (List.range 16384).flatMap (fun i => toLE 6 (tget 0 x.entries i).toNat)

/-- The save-area header (R69). DESIGN CHOICE (log 47): INT_VIEW, TILE_ID and CHAIN_TERMS of a slot whose VALID bit is 0 are
written as 0. -/
def saveHeader (c : Core) (core : Nat) (valid : List Nat) : List Byte :=
  toLE 2 1 ++ toLE 2 ((valid.map (fun i => 2 ^ i)).sum) ++
    toLE 2 (((valid.filter (fun i => (c.slot i).intView)).map (fun i => 2 ^ i)).sum) ++ toLE 2 c.ctx ++ toLE 2 core ++
    List.replicate 54 0 ++
    (List.range 16).flatMap (fun i => if valid.contains i then toLE 4 (c.slot i).tile ++ toLE 4 (c.slot i).terms
      else List.replicate 8 0) ++ List.replicate 64 0

/-- Saves the slots of the outgoing context and writes the header (R67 to R69, R120 step 5). -/
def State.saveSlots (s : State) (core : Nat) : State :=
  let c := s.core core
  let valid := (List.range 16).filter (fun i => (c.slot i).st == .accumulating || (c.slot i).st == .held)
  let a := s.saveArea c.ctx core
  let s := valid.foldl (fun s i => s.storeDev (a + 0x100 + i * 0x18000) (slotImage (c.slot i))) s
  let s := s.storeDev a (saveHeader c core valid)
  s.setCore core { c with
    slots := []
    savedChains := c.savedChains.filter (fun x => x.1 != c.ctx) ++
      (valid.filter (fun i => (c.slot i).chain != 0)).map (fun i => (c.ctx, i, (c.slot i).chain))
    savedHeld := c.savedHeld.filter (· != c.ctx) ++ (if valid = [] then [] else [c.ctx]) }

/-- One slot loaded from a save area (R67, R70): its state is ACCUMULATING where a suspended tile names it. -/
def State.loadSlot (s : State) (c : Core) (ctx a : Nat) (h : Nat) (i : Nat) : Slot :=
  let bs := s.loadDev (a + 0x100 + i * 0x18000) 0x18000
  let es : Tbl A48 := (List.range 16384).filterMap (fun j =>
    let v : A48 := BitVec.ofNat 48 (leNat ((bs.drop (6 * j)).take 6))
    if v = 0 then none else some (j, v))
  let run := (c.suspended.filter (fun x => x.ctx == ctx && x.slot == some i)).head?
  { st := if run.isSome then .accumulating else .held
    ctx := ctx
    chain := match (c.savedChains.filter (fun x => x.1 == ctx && x.2.1 == i)).head? with
      | some x => x.2.2
      | none => 0
    tile := bits h (0x40 * 8 + 64 * i) 32
    intView := bit h (32 + i)
    terms := bits h (0x44 * 8 + 64 * i) 32
    entries := es }

/-- Restores the incoming context (R70, R120 step 6); where the header fails its checks no slot is loaded, and the tiles
that held one complete SAVE_AREA_INVALID. -/
def State.restoreSlots (s : State) (core n : Nat) : State :=
  let c := s.core core
  let a := s.saveArea n core
  let back := c.suspended.filter (fun x => x.ctx == n)
  let rest := c.suspended.filter (fun x => x.ctx != n)
  let saved := c.savedChains.filter (fun x => x.1 != n)
  let base : Core := { c with ctx := n, sliceAt := s.ftRead (s.diePs (dieOf core)), switchTo := none, suspended := rest, savedChains := saved }
  if c.savedHeld.contains n = false then s.setCore core { base with tiles := back }
  else
    let h := leNat (s.loadDev a 256)
    if bits h 0 16 ≠ 1 ∨ bits h 48 8 ≠ n ∨ bits h 64 16 ≠ core then
      back.foldl (fun s x => s.tileEnd core { x with status := stSave, slot := none }) ((s.setCore core base).latch n 1)
    else
      let valid := (List.range 16).filter (fun i => bit h (16 + i))
      let slots : Tbl Slot := valid.foldl (fun t i => tset .free t i (s.loadSlot c n a h i)) []
      let tiles := back.map (fun x =>
        { x with causes := x.causes ++ s.readCauses 0xFF [(a + 0x100 + x.slot.getD 0 * 0x18000, 0x18000)] })
      (s.setCore core { base with tiles := tiles, slots := slots }).assign core

/-- CONTEXT_SWITCH_DONE (R120): once the tiles of the outgoing context are gone, its slots are saved and the incoming
context restored. -/
def State.switchDone (core : Nat) (s : State) : State :=
  match (s.core core).switchTo with
  | none => s
  | some n => if (s.core core).tiles = [] then (s.saveSlots core).restoreSlots core n else s

/-- CONTEXT_SWITCH_DONE (R120). -/
def execContextSwitchDone (core : Nat) (s : State) : Result := need (coreOk core) (.next (s.switchDone core))

end Sys2Proof.Machine
end

