-- ==== Sys2Proof/Machine/Fabric.lean ====
section
/-!
DEFINITION. The memory-semantic fabric (R329 to R358): commands of a context's ring, requests that arrive at this
module as a target, responses that arrive at it as a source, exactly-once atomics, invalidation and hot spots.
Choices and readings that the model fixes here: log 37.
-/

namespace Sys2Proof.Machine

/-! Fields of a fabric command (R337), read from its 64 bytes as a number. -/
def fcOp (v : Nat) : Nat := bits v 0 8
def fcAtop (v : Nat) : Nat := bits v 8 4
def fcWide (v : Nat) : Bool := bit v 12
def fcFetch (v : Nat) : Bool := bit v 13
def fcOrdered (v : Nat) : Bool := bit v 14
def fcLexch (v : Nat) : Bool := bit v 15
def fcBytes (v : Nat) : Nat := bits v 16 13
def fcDoneId (v : Nat) : Nat := bits v 32 16
def fcDoneCount (v : Nat) : Nat := bits v 48 14
def fcGaddr (v : Nat) : Nat := bits v 64 64
def fcLaddr (v : Nat) : Nat := bits v 128 64
def fcOperand (v : Nat) : Nat := bits v 192 64
def fcCompare (v : Nat) : Nat := bits v 256 64
def fcSigId (v : Nat) : Nat := bits v 320 16
def fcSigCount (v : Nat) : Nat := bits v 336 14

/-- Bytes of a 64-byte command as a number. -/
def FabCmd.word (c : FabCmd) : Nat := leNat c.cmd

/-- Width of an atomic in bytes. -/
def atomBytes (wide : Bool) : Nat := if wide then 8 else 4

/-- Right an operation needs (R335). -/
def fcRight (v : Nat) : Right :=
  match fcOp v with
  | 1 => .read
  | 4 => .atomic
  | 5 => .invalidate
  | _ => .write

/-- Length that the region check covers (R332). -/
def fcLen (v : Nat) : Nat := if fcOp v = 4 then atomBytes (fcWide v) else if fcOp v = 5 then fcOperand v else fcBytes v

/-- Size or alignment outside R335. -/
def fcSizeBad (v : Nat) : Bool :=
  let a := gOff (fcGaddr v)
  let n := fcBytes v
  match fcOp v with
  | 1 => n == 0 || decide (4096 < n) || decide (4096 < a % 4096 + n)
  | 4 => n != 0 || a % atomBytes (fcWide v) != 0
  | 5 => n != 0 || fcOperand v == 0 || fcOperand v % 128 != 0 || a % 128 != 0
  | _ =>
    !((n == 1 || n == 2 || n == 4 || n == 8) && a % n == 0 ||
      decide (16 ≤ n) && decide (n ≤ 4096) && n % 16 == 0 && a % 16 == 0) || decide (4096 < a % 4096 + n)

/-- The command has arguments that R339 calls FAB_ARGS. -/
def State.fcArgsBad (s : State) (ctx v : Nat) : Bool :=
  let e := s.syncEntry ctx (fcSigId v)
  let op := fcOp v
  op == 0 || decide (5 < op) || bits v 29 3 != 0 || bits v 62 2 != 0 || bits v 121 7 != 0 || bits v 350 34 != 0 ||
    (op == 4 && (decide (9 < fcAtop v) || (decide (8 ≤ fcAtop v) && !fcFetch v))) ||
    (decide (4 ≤ op) && fcLaddr v != 0) || fcSizeBad v ||
    (fcOrdered v && !((op == 2 || op == 3) && (ctx == 15 || bit (s.ov (ctxCfgId + ctx)) 0))) ||
    (op == 3 && fcSigCount v != 0 &&
      !(e.kind == 1 && e.remote && e.sigOk && e.device == gDev (fcGaddr v))) ||
    (op == 5 && !s.blockOk ctx)

/-- The LEXCH handle fails its check (R313, R337). -/
def State.fcHandleBad (s : State) (ctx v : Nat) : Bool :=
  fcLexch v && (s.urnCheck ctx (bits (fcLaddr v) 0 32) != 0 ||
    decide (urnSize (hClass (bits (fcLaddr v) 0 32)) < bits (fcLaddr v) 32 32 + fcBytes v))

/-- Status of a command at issue: 0, or the refusal of R338 and R339. -/
def State.fcStatus (s : State) (ctx v : Nat) : Nat :=
  if s.fcArgsBad ctx v then 2
  else if s.permitted ctx (fcLen v) (gDev (fcGaddr v)) (gOff (fcGaddr v)) (fcRight v) = false then 1
  else if (fcOp v ≤ 3) ∧ s.fcHandleBad ctx v then 7
  else if fcOp v ≤ 3 ∧ fcLexch v = false ∧ s.anyUnmapped (fcLaddr v) (fcBytes v) then 3
  else 0

/-- Local data of a write. -/
def State.fcSource (s : State) (v : Nat) : List Byte :=
  if fcLexch v then s.urnLoad (hKey (bits (fcLaddr v) 0 32)) (bits (fcLaddr v) 32 32) (fcBytes v)
  else s.loadDev (fcLaddr v) (fcBytes v)

/-- Stores a READ's data at LADDR. -/
def State.fcLand (s : State) (v : Nat) (bs : List Byte) : State :=
  if fcLexch v then s.urnStore (hKey (bits (fcLaddr v) 0 32)) (bits (fcLaddr v) 32 32) bs
  else s.storeDev (fcLaddr v) bs

/-- Ends a command: RESULT and STATUS, then DONE_COUNT to DONE_ID; a status other than OK latches failure (R338). -/
def State.fabEnd (s : State) (ctx slot v status result : Nat) : State :=
  let s := s.storeDev (slot + 0x30) (toLE 8 result ++ toLE 8 status)
  let s := if fcDoneCount v = 0 then s else s.signal ctx (fcDoneId v) (fcDoneCount v)
  if status = 0 then s else s.latch ctx 1

/-- Completes a command in flight. -/
def State.fabComplete (s : State) (c : FabCmd) (status result : Nat) : State :=
  ((s.setFab { s.fab with cmds := s.fab.cmds.filter (fun x => x.tag != c.tag) })).fabEnd c.ctx c.slot c.word
    status result

/-- Earliest SEQ to a target with no response yet (R350). -/
def State.ackSeq (s : State) (dest : Nat) : Nat :=
  match s.fab.atoms.filter (fun a => a.dest == dest) with
  | a :: _ => a.seq
  | [] => tget 0 s.fab.nextSeq dest % 2 ^ 32

/-- A further atomic to a target may be outstanding (R350). -/
def State.atomRoom (s : State) (dest : Nat) : Bool :=
  decide (s.fab.atoms.length < 4096) && decide ((s.fab.atoms.filter (fun a => a.dest == dest)).length < 1024)

/-- Sends the ATOMIC of a command: SEQ, ACK_SEQ and FIRST (R350, R353). -/
def State.atomSend (s : State) (c : FabCmd) : State :=
  let v := c.word
  let n := tget 0 s.fab.nextSeq c.dest
  let ack := if s.fab.atoms.any (fun a => a.dest == c.dest) then s.ackSeq c.dest else n % 2 ^ 32
  let y := if fcWide v then fcOperand v else fcOperand v % 2 ^ 32
  let h : ReqHdr := { fop := 0x13, pgen := s.ov protGenId % 256, first := n == 0, atop := fcAtop v, aw := fcWide v,
                      fetch := fcFetch v, addr := gOff (fcGaddr v), seq := n % 2 ^ 32, ackSeq := ack, tag := c.tag }
  let p := s.packet 2 c.ctx c.dest (h.body ++ toLE 8 y ++ toLE 8 (fcCompare v))
  ((s.setFab { s.fab with
      atoms := s.fab.atoms ++ [⟨c.dest, n % 2 ^ 32, c.tag, p, s.clk, 0, 0, false⟩]
      nextSeq := tset 0 s.fab.nextSeq c.dest (n % 2 ^ 32 + 1)
      lastAck := tset (0, 0) s.fab.lastAck c.dest (ack, s.clk) }) : State).capInject hubFabric p

/-- Marks a command as sent. -/
def State.fabSent (s : State) (tag : Nat) : State :=
  (s.setFab { s.fab with
    cmds := s.fab.cmds.map (fun c => if c.tag = tag then { c with held := none, at_ := s.clk } else c) })

/-- Commands of the same ring that were issued before a command, in issue order. -/
def earlierOf (c : FabCmd) : List FabCmd → List FabCmd
  | [] => []
  | x :: xs => if x.tag = c.tag then [] else if x.ctx = c.ctx then x :: earlierOf c xs else earlierOf c xs

/-- An earlier request of the ring in flight that a command waits for at the source: one that is held itself and goes the
same way (R342); for a FLAGGED_WRITE any but a READ to another destination, or that goes to the same one by another virtual
channel or is held (R343); for an INVALIDATE such a one to the same destination (R348). -/
def waitsFor (c x : FabCmd) : Bool :=
  (x.dest == c.dest && x.vc == c.vc && x.held.isSome) ||
    (fcOp x.word != 1 && (fcOp c.word == 3 || (fcOp c.word == 5 && x.dest == c.dest)) &&
      (x.dest != c.dest || x.vc != c.vc || x.held.isSome))

/-- Earlier requests of the command ring hold a command back at the source (R342, R343, R348). -/
def heldBack (c : FabCmd) (xs : List FabCmd) : Bool := (earlierOf c xs).any (waitsFor c)

/-- An atomic waits for room at the source, and so does every later one to its target (R350). -/
def State.atomWaits (s : State) (c : FabCmd) (xs : List FabCmd) : Bool :=
  !s.atomRoom c.dest || (xs.takeWhile (fun x => x.tag != c.tag)).any (fun x =>
    x.dest == c.dest && fcOp x.word == 4 && x.held.isSome)

/-- A held request leaves, an atomic with its SEQ (R350). -/
def State.fabGo (s : State) (c : FabCmd) : State :=
  if fcOp c.word = 4 then (s.atomSend c).fabSent c.tag
  else match c.held with
    | some p => (s.fabSent c.tag).capInject hubFabric p
    | none => s

/-- Held requests that nothing holds back any more leave in issue order; a FLAGGED_WRITE leaves by its own command (R342,
R343, R350). -/
def State.fabFlow (s : State) : State :=
  (s.fab.cmds.filter (fun c => c.held.isSome && fcOp c.word != 3)).foldl (fun s c =>
    if heldBack c s.fab.cmds || (fcOp c.word == 4 && s.atomWaits c s.fab.cmds) then s else s.fabGo c) s

/-- A command is cached by R345. -/
def State.fcCached (s : State) (ctx v : Nat) : Option Region :=
  s.cachedBy ctx (fcLen v) (gDev (fcGaddr v)) (gOff (fcGaddr v))

/-- The request of a READ, WRITE, FLAGGED_WRITE or INVALIDATE command as a packet (R335, R340, R344, R347). -/
def State.fcPacket (s : State) (ctx v tag : Nat) : Packet :=
  let dev := gDev (fcGaddr v)
  let a := gOff (fcGaddr v)
  let n := fcBytes v
  let gen := s.ov protGenId % 256
  let vc := if fcOrdered v then 1 else 2
  match fcOp v with
  | 1 =>
    match s.fcCached ctx v with
    | some r =>
      let lo := a / 128 * 128
      let h : ReqHdr := { fop := 0x10, pgen := gen, cache := true, dir := r.dir, bytes := alignUp 128 (a + n) - lo,
                          addr := lo, tag := tag }
      s.packet 2 ctx dev h.body
    | none =>
      let h : ReqHdr := { fop := 0x10, pgen := gen, bytes := n, addr := a, tag := tag }
      s.packet 2 ctx dev h.body
  | 2 =>
    let h : ReqHdr := { fop := 0x11, pgen := gen, bytes := n, addr := a, tag := tag }
    s.packet vc ctx dev (h.body ++ s.fcSource v)
  | 3 =>
    let h : ReqHdr := { fop := 0x12, pgen := gen, bytes := n, addr := a, tag := tag,
                        sigPhys := if fcSigCount v = 0 then 0 else (s.syncEntry ctx (fcSigId v)).phys,
                        sigCount := fcSigCount v }
    s.packet vc ctx dev (h.body ++ s.fcSource v)
  | _ =>
    let r := s.regionOf ctx (fcLen v) dev a
    let whole := match r with
      | some r => r.offset == a && r.length == fcOperand v
      | none => false
    let h : ReqHdr := { fop := 0x16, pgen := gen, clear := whole, dir := (r.map (·.dir)).getD 0, addr := a,
                        seq := fcOperand v % 2 ^ 32, ackSeq := fcOperand v / 2 ^ 32, tag := tag }
    s.packet 2 ctx dev h.body

/-- Issues a command that passed its checks: a cached READ whose lines the L2 of die 0 holds ends at once (R335, R342, R343,
R345, R348, R350). -/
def State.fabSend (s : State) (ctx slot v : Nat) (cmd : List Byte) : State :=
  let dev := gDev (fcGaddr v)
  let cached := fcOp v == 1 && (s.fcCached ctx v).isSome
  match (if cached then s.cachedBytes 0 dev (gOff (fcGaddr v)) (fcBytes v) else none) with
  | some bs => (s.fcLand v bs).fabEnd ctx slot v 0 0
  | none =>
    let tag := s.fab.nextTag
    let local_ := if (fcOp v = 2 ∨ fcOp v = 3) ∧ fcLexch v = false ∧ s.anyPoison (fcLaddr v) (fcBytes v) then 4 else 0
    let c : FabCmd :=
      { tag := tag
        ctx := ctx
        slot := slot
        cmd := cmd.take 0x38 ++ toLE 8 local_
        dest := dev
        at_ := s.clk
        held := none
        vc := if fcOrdered v then 1 else 2
        cached := cached }
    let s := s.tagNext
    let add := fun (c : FabCmd) (s : State) => (s.setFab { s.fab with cmds := s.fab.cmds ++ [c] })
    let wait := heldBack c (s.fab.cmds ++ [c])
    if fcOp v = 4 then
      if wait || s.atomWaits c s.fab.cmds then add { c with held := some (s.packet 2 ctx dev []) } s
      else (add c s).atomSend c
    else
      let p := s.fcPacket ctx v tag
      if wait then add { c with held := some p } s else (add c s).capInject hubFabric p

/-- The doorbell of a context's ring holds a count (R107, R337). -/
def State.bellReady (s : State) (ctx : Nat) : Bool :=
  let e := s.syncEntry ctx (bits (s.ov (fabQueueId + ctx)) 80 16)
  e.kind == 1 && e.local_ && e.waitOk && decide (1 ≤ s.ctr e.phys)

/-- Takes the doorbell's count and moves to the next slot (R337). -/
def State.bellTake (s : State) (ctx : Nat) : State :=
  let q := s.ov (fabQueueId + ctx)
  let e := s.syncEntry ctx (bits q 80 16)
  let s := s.setCtr e.phys (s.ctr e.phys - 1)
  (s.setFab { s.fab with slot := tset 0 s.fab.slot ctx ((tget 0 s.fab.slot ctx + 1) % 2 ^ (6 + bits q 64 4)) })

/-- Address of the next slot of a context's ring (R337). -/
def State.fabSlot (s : State) (ctx : Nat) : Nat :=
  bits (s.ov (fabQueueId + ctx)) 0 64 + 64 * tget 0 s.fab.slot ctx

/-- The fabric engine may take a command of a context (R337). -/
def State.fabServes (s : State) (ctx : Nat) : Bool :=
  s.bellReady ctx && decide ((s.fab.cmds.filter (fun c => c.ctx == ctx)).length < 1024)

/-- The context whose turn it is: the first with a command after the one served last (R337). -/
def State.fabTurn (s : State) : Option Nat :=
  ((List.range 16).map (fun i => (s.fab.turn + 1 + i) % 16)).find? s.fabServes

/-- The fabric engine's next command is one of this context and its OP is `op`, or one that R337 reserves. -/
def State.fabNext (s : State) (ctx op : Nat) : Bool :=
  let o := fcOp (leNat (s.loadDev (s.fabSlot ctx) 64))
  s.fabTurn == some ctx && (o == op || o == 0 || decide (5 < o))

/-- The LEXCH handle of a refused command sets the urn's flag (R313, R328). -/
def State.fcHandleFlag (s : State) (ctx v : Nat) : State :=
  let h := bits (fcLaddr v) 0 32
  s.urnFlag (if s.urnCheck ctx h = 3 then 1 else 2) h

/-- Executes the next command of a context's ring (R337 to R339). -/
def State.fabIssue (ctx op : Nat) (s : State) : State :=
  if s.fabNext ctx op then
    let slot := s.fabSlot ctx
    let cmd := s.loadDev slot 64
    let v := leNat cmd
    let s := s.bellTake ctx
    let s := s.setFab { s.fab with turn := ctx }
    let s := if s.fcArgsBad ctx v then s else s.lookNote ctx (fcLen v) (gDev (fcGaddr v)) (gOff (fcGaddr v)) (fcRight v)
    match s.fcStatus ctx v with
    | 0 => s.fabSend ctx slot v cmd
    | st =>
      (if st = 1 then s.fabFlag 0 (gDev (fcGaddr v)) else if st = 7 then s.fcHandleFlag ctx v else s).fabEnd ctx slot v st 0
  else s

/-- FAB_READ: the fabric engine takes a doorbell count and issues a READ (R337). -/
def execFabRead (ctx : Nat) (s : State) : Result := need (ctxOk ctx) (.next (s.fabIssue ctx 1))

/-- FAB_WRITE (R337). -/
def execFabWrite (ctx : Nat) (s : State) : Result := need (ctxOk ctx) (.next (s.fabIssue ctx 2))

/-- FAB_FLAGGED_WRITE (R337, R343). -/
def execFabFlaggedWrite (ctx : Nat) (s : State) : Result := need (ctxOk ctx) (.next (s.fabIssue ctx 3))

/-- FAB_ATOMIC (R337, R350). -/
def execFabAtomic (ctx : Nat) (s : State) : Result := need (ctxOk ctx) (.next (s.fabIssue ctx 4))

/-- FAB_INVALIDATE (R337, R347). -/
def execFabInvalidate (ctx : Nat) (s : State) : Result := need (ctxOk ctx) (.next (s.fabIssue ctx 5))

/-- A held FLAGGED_WRITE of a context whose earlier requests to other destinations are acknowledged (R343). -/
def State.flaggedReady (s : State) (ctx : Nat) : Option (FabCmd × Packet) :=
  (s.fab.cmds.filterMap (fun c =>
    match c.held with
    | some p => if c.ctx == ctx && fcOp c.word == 3 && !(heldBack c s.fab.cmds) then some (c, p) else none
    | none => none)).head?

/-- FLAGGED_WRITE_SEND: the held request leaves, and the requests that it held back follow (R342, R343). -/
def execFlaggedWriteSend (ctx : Nat) (s : State) : Result :=
  need (ctxOk ctx) (.next (match s.flaggedReady ctx with
    | some (c, p) => ((s.fabSent c.tag).capInject hubFabric p).fabFlow
    | none => s))

/-! Requests at the target. -/

def pFop (p : Packet) : Nat := p.field 0 8
def pBytes (p : Packet) : Nat := p.field 32 13
def pAddr (p : Packet) : Nat := p.field 64 41
def pTag (p : Packet) : Nat := p.field 224 32
def pData (p : Packet) : List Byte := (p.body.drop 32).take (pBytes p)

/-- Sends a response on VC3 (R341). -/
def State.respond (s : State) (p : Packet) (fop status : Nat) (hot : Bool) (tag result : Nat) (data : List Byte) : State :=
  s.send hubFabric 3 p.ctx p.src
    (mkBody 16 [(0, 8, fop), (8, 4, status), (12, 1, ofBool hot), (32, 32, tag), (64, 64, result)] ++ data)

/-- Reader group of a device (R346). -/
def groupOf (dev : Nat) : Nat := bits dev 9 6

/-- Bytes from `a` on with zero codes in the granules that an uncorrectable L2 error kept back (R292). -/
def l2Zeroed (a : Nat) (es : MemErrs) (bs : List Byte) : List Byte :=
  bs.zipIdx.map (fun x => if es.any (fun e => e.1 / 64 == (a + x.2) / 64 && e.2 == .l2Lost) then 0 else x.1)

/-- TARGET_READ: the data of a READ is returned; a cached read sets its group's directory bit (R288, R301, R341, R346). An
uncorrectable L2 error is answered like a poisoned granule (log 28). -/
def State.targetRead (p : Packet) (err : MemErrs) (s : State) : State :=
  let a := (pAddr p)
  let n := (pBytes p)
  let s := s.memErrs a n err
  let s := if p.field 14 1 = 1 then
      let d := p.field 48 12
      (s.setFab { s.fab with dir := tset 0 s.fab.dir d (tget 0 s.fab.dir d ||| 2 ^ groupOf p.src) })
    else s
  let st := if s.anyUnmapped a n then 1 else if s.anyPoison a n || l2LostIn a n err then 3 else 0
  (s.respond p 0x18 st false (pTag p) 0 (l2Zeroed a err (s.loadDev a n))).taken p

/-- TARGET_READ (R342). -/
def execTargetRead (p : Packet) (err : MemErrs) (s : State) : Result := need p.wf (powered s (s.targetRead p err))

/-- A source is marked at a line with the updates queued, unless it has been in the last 1 µs (R355). -/
def State.hotMark (s : State) (line src : Nat) : State × Bool :=
  let marks := s.fab.hotMarks.filter (fun m => decide (s.clk < m.2.2 + 1000))
  let hot := !(marks.any (fun m => m.1 == src && m.2.1 == line))
  (s.setFab { s.fab with hotMarks := if hot then (src, line, s.clk) :: marks else marks }, hot)

/-- One update of some sources queued at a line of 64 bytes (R354); those whose responses carry HOT (R355). -/
def State.hotLine (s : State) (line : Nat) (srcs : List Nat) : State × List Nat :=
  let b := max s.clk (tget 0 s.fab.lineBusy line)
  let t := s.setFab { s.fab with lineBusy := tset 0 s.fab.lineBusy line (b + 2) }
  if 32 ≤ ceilDiv (b - s.clk) 2 then
    srcs.foldl (fun q src =>
      let r := q.1.hotMark line src
      (r.1, if r.2 then q.2 ++ [src] else q.2)) (t, [])
  else (t, [])

/-- An update of `n` bytes queued at each line that it touches; the sources that any of them marks (R354, R355). -/
def State.hotUpdate (s : State) (a n : Nat) (srcs : List Nat) : State × List Nat :=
  (List.range ((a % 64 + n + 63) / 64)).foldl (fun q i =>
    let r := q.1.hotLine (a / 64 + i) srcs
    (r.1, q.2 ++ r.2)) (s, [])

/-- A request has been applied (R343). -/
def State.applied343 (s : State) (p : Packet) : State :=
  (s.setRouter { s.router with arrived := dropFirst (· == p) s.router.arrived }).taken p

/-- ATOMICs of a source that are applied, answered from the cache or no longer awaited leave the arrived ones (R343,
R351). -/
def State.atomsGone (s : State) (src : Nat) (gone : Nat → Bool) : State :=
  s.setRouter { s.router with
    arrived := s.router.arrived.filter (fun p => !(pFop p == 0x13 && p.src == src && gone (p.field 128 32))) }

/-- A FLAGGED_WRITE waits at the target for an earlier request of its SRC and SRC_CTX that is not applied (R343). -/
def State.flagWaits (s : State) (p : Packet) : Bool :=
  pFop p == 0x12 && (s.router.arrived.takeWhile (· != p)).any (fun q => q.src == p.src && q.ctx == p.ctx)

/-- A request that has arrived and is not applied yet (R343). -/
def State.noteArrived (s : State) (p : Packet) : State :=
  if s.router.arrived.contains p then s else s.setRouter { s.router with arrived := s.router.arrived ++ [p] }

/-- A request that waits at the target stands with the delivered ones. -/
def State.keepWaiting (s : State) (p : Packet) : State :=
  if s.router.delivered.contains p then s
  else (s.setRouter { s.router with delivered := s.router.delivered ++ [p] }).noteArrived p

/-- Applies a WRITE or FLAGGED_WRITE and acknowledges it; a FLAGGED_WRITE waits for the earlier requests of its source channel
(R288, R342, R343). -/
def State.targetStore (p : Packet) (err : MemErrs) (s : State) : State :=
  if s.flagWaits p then s.keepWaiting p
  else
    let a := (pAddr p)
    let s := s.storeErrs a (pBytes p) err
    let r := s.hotUpdate a (pBytes p) [p.src]
    let st := if r.1.anyUnmapped a (pBytes p) then 1 else 0
    let s := r.1.storeDev a (pData p)
    let s := if (pFop p) = 0x12 ∧ p.field 206 14 ≠ 0 then s.ctrAdd (p.field 192 14) (p.field 206 14) else s
    (s.respond p 0x19 st (r.2.contains p.src) (pTag p) 0 []).applied343 p

/-- TARGET_WRITE (R342). -/
def execTargetWrite (p : Packet) (err : MemErrs) (s : State) : Result := need p.wf (powered s (s.targetStore p err))

/-- TARGET_FLAGGED_WRITE (R343). -/
def execTargetFlaggedWrite (q : Access) (s : State) : Result := need q.pkt.wf (powered s (s.targetStore q.pkt q.errs))

/-- New value of an atomic (R336); reserved codes leave it. -/
def atomNew (atop : Nat) (wide : Bool) (x y cmp : Nat) : Nat :=
  let w := 8 * atomBytes wide
  match atop with
  | 0 => (x + y) % 2 ^ w
  | 1 => x ||| y
  | 2 => x &&& y
  | 3 => x ^^^ y
  | 4 => if sext w x < sext w y then y else x
  | 5 => if sext w y < sext w x then y else x
  | 6 => max x y
  | 7 => min x y
  | 8 => y
  | 9 => if x = cmp then y else x
  | _ => x

/-- `a` is before `b` in serial arithmetic (R350). -/
def seqBefore (a b : Nat) : Bool :=
  let d := (b + 2 ^ 32 - a % 2 ^ 32) % 2 ^ 32
  decide (0 < d) && decide (d < 2 ^ 31)

/-- Watermark of a source, if it is set (R351). -/
def State.wmOf (s : State) (src : Nat) : Option Nat :=
  match tget 0 s.fab.wm src with
  | 0 => none
  | n + 1 => some n

/-- ATOMIC_CACHE_USED follows from the cache (R351). -/
def State.setResp (s : State) (r : List RespEntry) : State := (s.setFab { s.fab with resp := r })

/-- An ACK_SEQ has arrived: the watermark moves and earlier entries are freed (R351). -/
def State.ackArrive (s : State) (src ack : Nat) : State :=
  let new := match s.wmOf src with
    | some w => if seqBefore w ack then ack else w
    | none => ack
  let s := (s.setFab { s.fab with wm := tset 0 s.fab.wm src (new + 1) })
  (s.setResp (s.fab.resp.filter (fun e => !(e.src == src && seqBefore e.seq new)))).atomsGone src (fun q => seqBefore q new)

/-- One atomic at the target by the first matching row of R351: the new state and (status, result) of its response, if
it gets one. -/
def State.atomApply (s : State) (src ctx seq atop : Nat) (wide fetch : Bool) (a y cmp : Nat) (err : MemErrs) :
    State × Option (Nat × Nat) :=
  let old := match s.wmOf src with
    | some w => seqBefore seq w
    | none => false
  if old then (s.bump atomicDupId, none)
  else
    match s.fab.resp.filter (fun e => e.src == src && e.seq == seq) with
    | e :: _ => (s, some (e.status, e.result))
    | [] =>
      if 16384 ≤ s.fab.resp.length then (s, some (2, 0))
      else
        let n := atomBytes wide
        let s := s.memErrs a n err
        let st := if s.anyUnmapped a n then 1 else if s.anyPoison a n || l2LostIn a n err then 3 else 0
        let x := leNat (s.loadDev a n)
        let s := if st = 0 then s.storeDev a (toLE n (atomNew atop wide x (y % 2 ^ (8 * n)) (cmp % 2 ^ (8 * n)))) else s
        let res := if fetch ∧ st = 0 then x else 0
        ((s.setResp (s.fab.resp ++ [⟨src, seq, ctx, st, res, s.clk⟩])).atomsGone src (· == seq), some (st, res))

/-- The packet answered as if it came from member `src` of a combined one. -/
def withSrc (p : Packet) (src : Nat) : Packet := { p with src := src }

/-- FIRST from a source already heard shows that the peer was reset (R353): with atomics outstanding between the two it is
an uncovered fault of the contexts with one outstanding (R387). -/
def State.peerReset (s : State) (src : Nat) : State :=
  let cs := s.atomCtxs (· == src)
  if (s.wmOf src).isSome ∧ cs ≠ [] then s.uncovered 0x16 0 cs else s

/-- The first ATOMIC of a source after its own reset: its entries are freed and its watermark is 0 (R353). -/
def State.atomFirst (s : State) (src : Nat) : State :=
  let s := s.peerReset src
  (s.setFab { s.fab with wm := tset 0 s.fab.wm src 1 }).setResp (s.fab.resp.filter (fun e => e.src != src))

/-- The ATOMIC leaves the arrived requests unless its response is BUSY, when nothing was applied (R343, R351). -/
def State.atomDone (s : State) (p : Packet) (r : Option (Nat × Nat)) : State :=
  if r.any (fun x => x.1 == 2) then (s.noteArrived p).taken p else s.applied343 p

/-- TARGET_ATOMIC (R336, R350, R351, R353). -/
def State.targetAtomic (p : Packet) (err : MemErrs) (s : State) : State :=
  let seq := p.field 128 32
  let s := if p.field 24 1 = 1 then s.atomFirst p.src else s
  let s := s.ackArrive p.src (p.field 160 32)
  let h := s.hotUpdate (pAddr p) 1 [p.src]
  let r := h.1.atomApply p.src p.ctx seq (p.field 8 4) (p.field 12 1 == 1) (p.field 13 1 == 1) (pAddr p) (p.field 256 64)
    (p.field 320 64) err
  (match r.2 with
    | some (st, res) => r.1.respond p 0x1A st (h.2.contains p.src) seq res []
    | none => r.1 : State).atomDone p r.2

/-- TARGET_ATOMIC (R351). -/
def execTargetAtomic (q : Access) (s : State) : Result := need q.pkt.wf (powered s (s.targetAtomic q.pkt q.errs))

/-- Members of an ATOMIC_COMBINED as numbers of 128 bits (R340). -/
def pMembers (p : Packet) : List Nat := (List.range (pBytes p)).map (fun i => p.field (256 + 128 * i) 128)

/-- The first atomic of a source sets its watermark: one that came combined has no ACK_SEQ, and its SEQ takes that place
(R350, R353; log 37). -/
def State.wmFirst (s : State) (src seq : Nat) : State :=
  match s.wmOf src with
  | some _ => s
  | none => s.setFab { s.fab with wm := tset 0 s.fab.wm src (seq + 1) }

/-- Source and SEQ of a member entry (R340). -/
def mSrc (m : Nat) : Nat := bits m 0 16
def mSeq (m : Nat) : Nat := bits m 32 32

/-- A member of a combined packet begins its source's numbers anew: FIRST and SEQ 0 (R353, log 37). -/
def State.memberFirst (s : State) (p : Packet) (m : Nat) : State :=
  if p.field 24 1 = 1 ∧ mSeq m = 0 then s.atomFirst (mSrc m) else s.wmFirst (mSrc m) (mSeq m)

/-- ATOMIC_COMBINED: the members pass R351 in order as one update of the line, whose errors count once; each is answered
separately, and each source is marked by itself (R354, R355). -/
def State.atomicCombined (p : Packet) (err : MemErrs) (s : State) : State :=
  let h := s.hotUpdate (pAddr p) 1 ((pMembers p).map mSrc)
  let s := h.1.memErrs (pAddr p) 64 err
  let lost := err.filter (fun e => e.2 == .l2Lost)
  ((pMembers p).foldl (fun s m =>
    let r := (s.memberFirst p m).atomApply (mSrc m) p.ctx (mSeq m) (p.field 8 4) (p.field 12 1 == 1) false
      ((pAddr p) / 64 * 64 + bits m 16 6) (bits m 64 64) 0 lost
    match r.2 with
    | some (st, res) => r.1.respond (withSrc p (mSrc m)) 0x1A st (h.2.contains (mSrc m)) (mSeq m) res []
    | none => r.1) s).applied343 p

/-- ATOMIC_COMBINED (R354). -/
def execAtomicCombined (q : Access) (s : State) : Result := need q.pkt.wf (powered s (s.atomicCombined q.pkt q.errs))

/-- ATOMIC_ACK: a cumulative acknowledgement arrives (R350, R351). -/
def execAtomicAck (p : Packet) (s : State) : Result :=
  need p.wf (powered s ((s.ackArrive p.src (p.field 160 32)).taken p))

/-! Invalidation (R347). -/

/-- Devices of the block that a tree rooted at `root` reaches from this module by a link (R188). -/
def State.beyond (s : State) (ctx link : Nat) : List Nat :=
  let a := link / 2
  let plus := link % 2 = 0
  (s.blockDevs ctx).filter (fun d =>
    (List.range a).all (fun b => s.off ctx d b == s.off ctx s.me b) &&
      (if plus then decide (s.off ctx s.me a < s.off ctx d a) else decide (s.off ctx d a < s.off ctx s.me a)))

/-- Tree links that lead to a module of a set group (R347). -/
def State.invLinks (s : State) (ctx root groups : Nat) : List Nat :=
  (s.treeLinks ctx root).filter (fun l => (s.beyond ctx l).any (fun d => bit groups (groupOf d)))

/-- Lines of a range that an outstanding cached read of `m` bytes from `o` fetches, under its TAG. -/
def dropped (tag o m a n : Nat) : List (Nat × Nat) :=
  ((linesOf o m).filter (fun l => decide (a ≤ l) && decide (l < a + n))).map (fun l => (tag, l))

/-- Drops every cached line of a range, and marks the lines of outstanding cached fills so that they are not installed
(R347). -/
def State.dropLines (s : State) (dev a n : Nat) : State :=
  (s.setFab { s.fab with
    lines := s.fab.lines.filter (fun x => !(x.dest == dev && decide (a ≤ x.addr) && decide (x.addr < a + n)))
    noFill := s.fab.noFill ++
      (s.fab.cmds.filter (fun c => c.cached && c.dest == dev)).flatMap (fun c =>
        dropped c.tag (gOff (fcGaddr c.word)) (fcBytes c.word) a n) ++
      (s.fab.tileReqs.filter (fun r => r.cached && r.dest == dev && r.got.isNone)).flatMap (fun r =>
        dropped r.tag r.addr r.len a n) })

/-- Body of INV (0x20) or INV_ACK (0x21). -/
def invBody (fop id count a n : Nat) : List Byte :=
  mkBody 24 [(0, 8, fop), (16, 16, id), (32, 16, count % 32768), (64, 41, a), (128, 64, n)]

/-- Neighbour one step toward the root of a dimension-order tree. -/
def State.treeParent (s : State) (ctx root : Nat) : Nat :=
  let o := fun a => s.off ctx s.me a
  let p := fun a => s.off ctx root a
  let toward := fun a => if p a < o a then o a - 1 else o a + 1
  if o 2 ≠ p 2 then s.devAt ctx (o 0) (o 1) (toward 2)
  else if o 1 ≠ p 1 then s.devAt ctx (o 0) (toward 1) (o 2)
  else s.devAt ctx (toward 0) (o 1) (o 2)

/-- INV_DONE to the holder (R347): its INVALIDATE is applied (R343). -/
def State.invDoneTo (s : State) (ctx holder tag : Nat) : State :=
  (s.setRouter { s.router with
    arrived := s.router.arrived.filter (fun q => !(pFop q == 0x16 && q.src == holder && pTag q == tag)) }).send hubFabric 3 ctx
      holder (mkBody 16 [(0, 8, 0x1B), (32, 32, tag)])

/-- TARGET_INVALIDATE (R347). -/
def State.targetInvalidate (p : Packet) (s : State) : State :=
  let d := p.field 48 12
  let a := (pAddr p)
  let n := p.field 128 64
  let groups := tget 0 s.fab.dir d
  let s := if p.field 15 1 = 1 then (s.setFab { s.fab with dir := tset 0 s.fab.dir d 0 }) else s
  let expect := ((s.blockDevs p.ctx).filter (fun x => bit groups (groupOf x))).length
  (if groups = 0 ∨ expect = 0 then s.invDoneTo p.ctx p.src (pTag p)
   else
     let own := bit groups (groupOf s.me)
     let s := if own then s.dropLines s.me a n else s
     let links := s.invLinks p.ctx s.me groups
     if links = [] then s.invDoneTo p.ctx p.src (pTag p)
     else
       let id := s.fab.nextInv
       let s := s.noteArrived p
       let s : State := (s.setFab { s.fab with
         nextInv := (id + 1) % 65536
         invs := s.fab.invs ++ [⟨id, s.me, p.ctx, a, n, groups, links.length, ofBool own, expect, p.src, (pTag p)⟩] })
       s.inject hubFabric { s.packet 4 p.ctx s.me (invBody 0x20 id 0 a n) with dir := 0 }).taken p

/-- TARGET_INVALIDATE (R347). -/
def execTargetInvalidate (p : Packet) (s : State) : Result := need p.wf (powered s (s.targetInvalidate p))

/-- Sends the INV_ACK of this module's part of a tree. -/
def State.invAckUp (s : State) (ctx root id count a n : Nat) : State :=
  s.send hubFabric 4 ctx (s.treeParent ctx root) (invBody 0x21 id count a n)

/-- INV: lines of the range are dropped where the module's group is set; the acknowledgement goes up once the children
have answered (R347). -/
def State.inv (p : Packet) (s : State) : State :=
  let id := p.field 16 16
  let a := (pAddr p)
  let n := p.field 128 64
  if p.src = s.me then s.taken p
  else
    let groups := Config.invGroups p.src id
    let own := bit groups (groupOf s.me)
    let s := if own then s.dropLines p.src a n else s
    let links := s.invLinks p.ctx p.src groups
    (if links = [] then s.invAckUp p.ctx p.src id (ofBool own) a n
     else (s.setFab { s.fab with
       invs := s.fab.invs ++ [⟨id, p.src, p.ctx, a, n, groups, links.length, ofBool own, 0, 0, 0⟩] })).taken p

/-- INV (R347). -/
def execInv (p : Packet) (s : State) : Result := need p.wf (powered s (s.inv p))

/-- INV_ACK: a child's count is added; the last one ends this module's part (R347). -/
def State.invAck (p : Packet) (s : State) : State :=
  let id := p.field 16 16
  let c := if p.field 32 16 = 0 then 32768 else p.field 32 16
  let same := fun (t : InvTree) => t.id == id && t.ctx == p.ctx && t.addr == (pAddr p) && t.len == p.field 128 64
  (match (s.fab.invs.filter same).head? with
    | none => s
    | some t =>
      let t' := { t with children := t.children - 1, count := t.count + c }
      let others := dropFirst same s.fab.invs
      if 0 < t'.children then (s.setFab { s.fab with invs := others ++ [t'] })
      else if t.root = s.me then
        if t'.count = t'.expect then ((s.setFab { s.fab with invs := others })).invDoneTo t.ctx t.holder t.tag
        else (s.setFab { s.fab with invs := others })
      else ((s.setFab { s.fab with invs := others })).invAckUp t.ctx t.root t.id t'.count t.addr t.len : State).taken p

/-- INV_ACK (R347). -/
def execInvAck (p : Packet) (s : State) : Result := need p.wf (powered s (s.invAck p))

/-! Responses at the source. -/

/-- A response's status as a command status (R339, R341). -/
def respStatus (st : Nat) : Nat := if st = 1 then 3 else if st = 3 then 4 else 0

/-- The command in flight that a response answers. -/
def State.fabFind (s : State) (dest tag : Nat) (ops : List Nat) : Option FabCmd :=
  (s.fab.cmds.filter (fun c => c.dest == dest && c.tag == tag && ops.contains (fcOp c.word))).head?

/-- The hot list after a HOT from a destination (R355). -/
def hotEnter (dest : Nat) (xs : List HotDest) : List HotDest :=
  if xs.any (fun x => x.dest == dest) then
    xs.map (fun x => if x.dest = dest then { x with rate := max 1 (x.rate / 2), marked := true } else x)
  else if xs.length < 64 then xs ++ [⟨dest, 512, true, 0⟩]
  else
    let top := xs.foldl (fun m x => max m x.rate) 0
    dropFirst (fun x => x.rate == top) xs ++ [⟨dest, 512, true, 0⟩]

/-- HOT in a response: HOT_MARKED and the hot list (R355, R358). -/
def State.hotResp (s : State) (p : Packet) : State :=
  if p.field 12 1 = 1 then
    ((s.setFab { s.fab with hot := hotEnter p.src s.fab.hot })).capFlow.fabFlag 3 p.src
  else s

/-- The request of a tile in flight that a response answers (R335). -/
def State.tileFind (s : State) (dest tag : Nat) (write : Bool) : Option TileReq :=
  (s.fab.tileReqs.filter (fun r => r.dest == dest && r.tag == tag && r.write == write && r.got.isNone)).head?

/-- READ_DATA: the data lands at LADDR, or with the tile that asked for it; a cached read's lines are installed, and the
command completes (R338, R339, R345). -/
def State.readData (p : Packet) (s : State) : State :=
  let data := p.body.drop 16
  let st := respStatus (p.field 8 4)
  (match s.fabFind p.src (p.field 32 32) [1], s.tileFind p.src (p.field 32 32) false with
    | some c, _ =>
      let a := gOff (fcGaddr c.word)
      if c.cached then
        let s := s.fcLand c.word ((data.drop (a % 128)).take (fcBytes c.word))
        (if st = 0 then s.l2Install c.tag 0 p.src a (fcBytes c.word) data else s).fabComplete c st 0
      else (s.fcLand c.word (data.take (fcBytes c.word))).fabComplete c st 0
    | none, some r =>
      (if r.cached ∧ st = 0 then s.l2Install r.tag (l2Die r.core) p.src r.addr r.len data else s).tileAnswer r
        (data.take r.len) st
    | none, none => s : State).taken p

/-- READ_DATA (R341). -/
def execReadData (p : Packet) (s : State) : Result := need p.wf (powered s (s.readData p))

/-- Status that a write command met at its source, kept in its STATUS byte. -/
def FabCmd.local_ (c : FabCmd) : Nat := bits c.word 448 8

/-- A store of a permute's phase 2 is acknowledged (R283). -/
def State.permAck (s : State) (tag : Nat) : State :=
  s.setRed { s.red with perm := tmap .init (fun p => { p with acks := p.acks.filter (· != tag) }) s.red.perm }

/-- WRITE_ACK: a write or flagged write completes, or a tile's WRITE is acknowledged (R108, R338, R339, R342). -/
def State.writeAck (p : Packet) (s : State) : State :=
  let s := (s.hotResp p).permAck (p.field 32 32)
  let st := respStatus (p.field 8 4)
  (match s.fabFind p.src (p.field 32 32) [2, 3], s.tileFind p.src (p.field 32 32) true with
    | some c, _ => (s.fabComplete c (if st = 0 then c.local_ else st) 0).fabFlow
    | none, some r => s.tileAnswer r [] st
    | none, none => s : State).taken p

/-- WRITE_ACK (R342). -/
def execWriteAck (p : Packet) (s : State) : Result := need p.wf (powered s (s.writeAck p))

/-- Ends an outstanding atomic: its command completes and a waiting one may be sent (R338, R350). -/
def State.atomEnd (s : State) (a : AtomOut) (st result : Nat) : State :=
  let s := (s.setFab { s.fab with atoms := s.fab.atoms.filter (fun x => !(x.dest == a.dest && x.seq == a.seq)) })
  let s := match s.fabFind a.dest a.tag [4] with
    | some c => s.fabComplete c st result
    | none => s
  s.fabFlow

/-- ATOMIC_RESP (R338, R341, R351, R352). -/
def State.atomicResp (p : Packet) (s : State) : State :=
  let s := s.hotResp p
  let seq := p.field 32 32
  (match (s.fab.atoms.filter (fun a => a.dest == p.src && a.seq == seq)).head? with
    | none => s
    | some a =>
      if p.field 8 4 = 2 then
        let b := { a with busy := if a.busy = 0 then 1000 else min 64000 (2 * a.busy), waits := true, sentAt := s.clk }
        ((s.setFab { s.fab with
          atoms := s.fab.atoms.map (fun x => if x.dest = a.dest ∧ x.seq = a.seq then b else x) })).fabFlag 1 p.src
      else s.atomEnd a (respStatus (p.field 8 4)) (p.field 64 64) : State).taken p

/-- ATOMIC_RESP (R350). -/
def execAtomicResp (p : Packet) (s : State) : Result := need p.wf (powered s (s.atomicResp p))

/-- INV_DONE: the holder's INVALIDATE completes OK (R347). -/
def State.invDone (p : Packet) (s : State) : State :=
  (match s.fabFind p.src (p.field 32 32) [5] with
    | none => s
    | some c => (s.fabComplete c 0 0).fabFlow : State).taken p

/-- INV_DONE (R347). -/
def execInvDone (p : Packet) (s : State) : Result := need p.wf (powered s (s.invDone p))

/-- An outstanding atomic. -/
def State.atomFind (s : State) (dest seq : Nat) : Option AtomOut :=
  (s.fab.atoms.filter (fun a => a.dest == dest && a.seq == seq)).head?

/-- An ATOMIC as it is sent again: the same SEQ, the ACK_SEQ of the moment, and FIRST = 0, so that the target keeps the
entry of an earlier copy (R350, R352; log 37). -/
def againPkt (p : Packet) (ack : Nat) : Packet :=
  { p with body := p.body.take 3 ++ [0] ++ (p.body.drop 4).take 16 ++ toLE 4 ack ++ p.body.drop 24 }

/-- Sends an outstanding atomic again. -/
def State.atomAgain (s : State) (a : AtomOut) : State :=
  let ack := s.ackSeq a.dest
  let b := { a with
    sentAt := s.clk
    pkt := againPkt a.pkt ack }
  ((s.setFab { s.fab with
    atoms := s.fab.atoms.map (fun x => if x.dest = a.dest ∧ x.seq = a.seq then b else x)
    lastAck := tset (0, 0) s.fab.lastAck a.dest (ack, s.clk) })).capInject hubFabric b.pkt

/-- ATOMIC_RETRY_TIMEOUT: sent again, or abandoned at the eighth timeout (R352). -/
def State.atomTimeout (dest seq : Nat) (s : State) : State :=
  match s.atomFind dest seq with
  | none => s
  | some a =>
    if a.waits ∨ s.clk < a.sentAt + 1000 * s.ov atomicRetryId then s
    else if 7 ≤ a.timeouts then (s.fabFlag 2 dest).atomEnd a 6 0
    else s.atomAgain { a with timeouts := a.timeouts + 1 }

/-- ATOMIC_RETRY_TIMEOUT (R352). -/
def execAtomicRetryTimeout (dest seq : Nat) (s : State) : Result := .next (s.atomTimeout dest seq)

/-- ATOMIC_BUSY_RETRY: a BUSY atomic is sent again after its interval (R352). -/
def State.atomBusyRetry (dest seq : Nat) (s : State) : State :=
  match s.atomFind dest seq with
  | none => s
  | some a => if a.waits ∧ a.sentAt + a.busy ≤ s.clk then s.atomAgain { a with waits := false } else s

/-- ATOMIC_BUSY_RETRY (R352). -/
def execAtomicBusyRetry (dest seq : Nat) (s : State) : Result := .next (s.atomBusyRetry dest seq)

/-- ATOMIC_ACK_TIMER: ACK_SEQ has advanced and nothing has carried it for 10 µs (R350). -/
def State.atomAckTimer (dest : Nat) (s : State) : State :=
  let l := tget (0, 0) s.fab.lastAck dest
  let ack := s.ackSeq dest
  if seqBefore l.1 ack ∧ l.2 + 10000 ≤ s.clk then
    ((s.setFab { s.fab with lastAck := tset (0, 0) s.fab.lastAck dest (ack, s.clk) })).capInject hubFabric (s.packet 2 0 dest
      (({ fop := 0x15, pgen := s.ov protGenId % 256, ackSeq := ack } : ReqHdr).body))
  else s

/-- ATOMIC_ACK_TIMER (R350). -/
def execAtomicAckTimer (dest : Nat) (s : State) : Result := .next (s.atomAckTimer dest)

/-- ATOMIC_ENTRY_EXPIRY: entries 100 ms old without acknowledgement are freed; WM passes an entry that is its source's
earliest (R352). -/
def State.atomExpiry (s : State) : State :=
  s.fab.resp.foldl (fun s e =>
    if e.at_ + 100000000 ≤ s.clk then
      let first := !(s.fab.resp.any (fun x => x.src == e.src && seqBefore x.seq e.seq))
      let s := s.setResp (s.fab.resp.filter (fun x => !(x.src == e.src && x.seq == e.seq)))
      let s := if first then (s.setFab { s.fab with wm := tset 0 s.fab.wm e.src ((e.seq + 1) % 2 ^ 32 + 1) }) else s
      s.fabFlag 4 e.src
    else s) s

/-- ATOMIC_ENTRY_EXPIRY (R352). -/
def execAtomicEntryExpiry (s : State) : Result := .next s.atomExpiry

/-- HOT_RATE_TICK: each destination without a HOT in the µs rises by 16 and leaves at 1,024; the requests of the next µs
begin, those that wait first (R355). -/
def State.hotTick (s : State) : State :=
  (s.setFab { s.fab with
    hot := (s.fab.hot.map (fun x => if x.marked then { x with marked := false, sent := 0 }
      else { x with rate := x.rate + 16, sent := 0 })).filter (fun x => decide (x.rate < 1024)) }).capFlow

/-- HOT_RATE_TICK (R355). -/
def execHotRateTick (s : State) : Result := .next s.hotTick

/-- FAB_TIMEOUT: a READ, WRITE, FLAGGED_WRITE or INVALIDATE of a command or a tile without a response for 8 ×
ATOMIC_RETRY_TIMEOUT; what a tile's READ then delivers is free (R339, log 42). -/
def State.fabTimeout (tag : Nat) (s : State) : State :=
  let late := fun (t : Nat) => decide (t + 8000 * s.ov atomicRetryId ≤ s.clk)
  match (s.fab.cmds.filter (fun c => c.tag == tag)).head?,
      (s.fab.tileReqs.filter (fun r => r.tag == tag && r.got.isNone)).head? with
  | some c, _ =>
    if fcOp c.word ≠ 4 ∧ c.held = none ∧ late c.at_ then ((s.fabFlag 5 c.dest).fabComplete c 5 0).fabFlow else s
  | none, some r =>
    if late r.at_ then
      (s.fabFlag 5 r.dest).tileAnswer r
        (if r.write then [] else (List.range r.len).map (fun i => Config.peerByte r.tag r.dest (r.addr + i))) 7
    else s
  | none, none => s

/-- FAB_TIMEOUT (R339). -/
def execFabTimeout (tag : Nat) (s : State) : Result := .next (s.fabTimeout tag)

end Sys2Proof.Machine
end

