-- ==== Sys2Proof/Machine/FabricTime.lean ====
section
/-!
DEFINITION. Fabric time (R176 to R180): time exchanges, the parent, the states of the unit and the loss of references.
Choices and readings that the model fixes here: log 25.
-/

namespace Sys2Proof.Machine

/-- STATE that a module's TIME flits send (R179). -/
def FtSt.sent : FtSt → Nat
  | .free => 0
  | .acquiring => 1
  | .locked => 2
  | .holdover => 3
  | .rootUnset => 0
  | .root => 2

/-- FT_ROOT names this module (R176). -/
def State.isTimeRoot (s : State) : Bool := s.ov ftRootId == s.me

/-- The link toward the root (R177): first differing axis of Z, Y, X, the shorter way, ties to the − link. -/
def State.rootLink (s : State) : Option Nat :=
  let r := s.ov ftRootId
  ([2, 1, 0].find? (fun a => coord s.me a != coord r a)).map (fun a =>
    let d := s.dim a
    let up := (coord r a + d - coord s.me a % d) % d
    if up < d - up then 2 * a else 2 * a + 1)

/-- The neighbour across a link can be a parent: the link carries traffic and the neighbour reports STATE 10b. What it
reported before the link last went down still counts until its next TIME flit (DESIGN CHOICE log 25: the spec does not
say). A looped link has no neighbour. -/
def State.canParent (s : State) (l : Nat) : Bool :=
  (s.link l).up && !s.looped l &&
    match tget? s.ft.nbr l with
    | some n => n.state == 2
    | none => false

/-- Depth that a neighbour's TIME flits report. -/
def State.nbrDepth (s : State) (l : Nat) : Nat :=
  match tget? s.ft.nbr l with
  | some n => n.depth
  | none => 0

/-- Takes a parent; a free module begins to acquire its time (R177, R179). -/
def State.takeParent (s : State) (l : Nat) : State :=
  let f := s.ft
  s.setFt { f with
    parent := some l
    depth := min (s.nbrDepth l + 1) 63
    lostAt := none
    st := if f.st = .free then .acquiring else f.st
    moved := if f.st = .free then false else f.moved
    inLock := 0 }

/-- The parent is lost (R177). -/
def State.dropParent (s : State) : State :=
  s.setFt { s.ft with
    parent := none
    depth := 0
    lostAt := some s.ft.now }

/-- The candidate with the smallest depth, ties to the lower link (R177). -/
def State.bestParent (s : State) : Option Nat :=
  (allLinks.filter s.canParent).foldl (fun o l =>
    match o with
    | some k => if s.nbrDepth l < s.nbrDepth k then some l else some k
    | none => some l) none

/-- Brings the parent up to date (R177): the link toward the root once its neighbour reports STATE 10b, and none where
the parent no longer qualifies. -/
def State.reparent (s : State) : State :=
  if s.isTimeRoot then s
  else
    match s.rootLink with
    | some l =>
      if s.canParent l then if s.ft.parent = some l then s.setFt { s.ft with depth := min (s.nbrDepth l + 1) 63 } else s.takeParent l
      else
        match s.ft.parent with
        | some k => if s.canParent k then s.setFt { s.ft with depth := min (s.nbrDepth k + 1) 63 } else s.dropParent
        | none => s
    | none => s

/-- FT_PARENT_RESELECT (R177). -/
def State.reselect (s : State) : State :=
  let s := s.reparent
  if s.isTimeRoot ∨ s.ft.parent ≠ none then s
  else
    match s.bestParent with
    | some l => s.takeParent l
    | none => s

/-- Payload of a TIME flit (R178). -/
def State.timeBody (s : State) (seq kind t1 t2 t3 : Nat) : List Byte :=
  mkBody 32 [(0, 16, seq), (16, 1, kind), (17, 2, s.ft.st.sent), (19, 6, s.ft.depth), (32, 16, s.ov ftRootId), (64, 64, t1),
    (128, 64, t2), (192, 64, t3)]

/-- A queued flit is the request of a time exchange. -/
def isTimeRequest (c : List Byte) : Bool := leNat (c.take 1) == 4 && bytesField (c.drop 1) 16 1 == 0

/-- TIME_EXCHANGE_START: a request is formed, and an exchange still open is dropped (R178). -/
def State.timeStart (l : Nat) (s : State) : State :=
  let f := s.ft
  if (s.link l).up then
    (s.setFt { f with
      exch := tins f.exch l ⟨f.nextSeq, none⟩
      nextSeq := (f.nextSeq + 1) % 65536 }).modLink l (fun x =>
        { x with ctl := x.ctl.filter (fun c => !isTimeRequest c) }.queue 4 (s.timeBody f.nextSeq 0 0 0 0))
  else s

/-- The request of an exchange has left at time `t`, which is its T1 (R178). -/
def State.timeLeft (s : State) (l seq t : Nat) : State :=
  match tget? s.ft.exch l with
  | some e => if e.seq = seq then s.setFt { s.ft with exch := tins s.ft.exch l ⟨seq, some t⟩ } else s
  | none => s

/-- Offset in ps from the four stamps in ns and FT_ASYM in ps (R178). -/
def timeOffset (t1 t2 t3 t4 : Nat) (asym : Int) : Int := ((((t2 : Int) - t1) - ((t4 : Int) - t3)) * 1000 - asym) / 2

/-- Saturation of FT_STATUS OFFSET (R179). -/
def satOffset (o : Int) : Int := max (-(2 ^ 31 - 1)) (min (2 ^ 31 - 1) o)

/-- Sum and number of the offsets that the servo takes the mean of: the parent's, counted twice, and those of its other
neighbours that report STATE 10b and with which an exchange is complete (R180). -/
def State.offsets (s : State) (o : Int) : Int × Nat :=
  let os := (allLinks.filter (fun l => s.canParent l && s.ft.parent != some l)).filterMap (fun l =>
    (tget? s.ft.nbr l).bind (·.offset))
  (2 * o + os.sum, os.length + 2)

/-- The rate that the servo sets (R176, R180): moved toward the mean of the offsets, up where the mean lies ahead and down
where it lies behind, within ±1,000 ppm. How far it moves is open. -/
def State.servo (s : State) (o : Int) : Int :=
  let m := s.offsets o
  let far := Config.ftServo m.1 m.2 s.ft.corr s.ft.now
  let c := s.ft.corr
  if 0 < m.1 then c + far % (1001 - c) else if m.1 < 0 then c - far % (1001 + c) else c

/-- An exchange with the parent is complete (R179, R180). -/
def State.steer (s : State) (o : Int) : State :=
  let f := s.ft
  let near := decide (-10000 ≤ o) && decide (o ≤ 10000)
  let f := { f with
    offset := satOffset o
    inLock := if near then min (f.inLock + 1) 64 else 0 }
  match f.st with
  | .acquiring =>
    let f :=
      if f.moved then { f with corr := s.servo o }
      else if o < 0 then { f with corr := -1000 }
      else { f with
        now := (f.now + o.toNat / 1000) % 2 ^ 64
        moved := true
        corr := s.servo 0 }
    s.setFt (if f.inLock = 64 then { f with st := .locked } else f)
  | .locked => s.setFt { f with corr := s.servo o }
  | .holdover =>
    if -1000000 ≤ o ∧ o ≤ 1000000 then s.setFt { f with
        st := .locked
        corr := s.servo o }
    else s.setFt { f with
        st := .acquiring
        moved := false }
  | _ => s.setFt f

/-- TIME_FLIT_RECEIVE: a request is answered with T2 and T3; a reply gives the offset (R178). -/
def State.timeIn (l : Nat) (b : List Byte) (s : State) : State :=
  let x := bytesField b
  if (s.link l).up = false then s
  else
    let old := (tget? s.ft.nbr l).bind (·.offset)
    let s := (s.setFt { s.ft with nbr := tins s.ft.nbr l ⟨x 17 2, x 19 6, old⟩ }).reparent
    if x 16 1 = 0 then s.modLink l (·.queue 4 (s.timeBody (x 0 16) 1 (x 64 64) (s.ftRead linkPs) 0))
    else
      match tget? s.ft.exch l with
      | some ⟨seq, some t1⟩ =>
        if seq = x 0 16 then
          let o := timeOffset t1 (x 128 64) (x 192 64) (s.ftRead linkPs) (sext 32 (s.ov (ftAsymId + l)))
          let s := s.setFt { s.ft with
            exch := terase s.ft.exch l
            nbr := tins s.ft.nbr l ⟨x 17 2, x 19 6, some o⟩ }
          if s.ft.parent = some l then s.steer o else s
        else s
      | _ => s

/-- FT_HOLDOVER_ENTRY: no parent for 1 ms (R179). -/
def State.holdover (s : State) : State :=
  let f := s.ft
  match f.lostAt with
  | some t =>
    if f.parent = none ∧ (f.st = .locked ∨ f.st = .acquiring) ∧ t + 1000000 ≤ f.now then
      s.setFt { f with
        st := .holdover
        inLock := 0 }
    else s
  | none => s

/-- State of the unit when FT_ROOT or the coordinates change, and where the main domain goes off or starts (R176, R179): the
count runs free of any correction. -/
def State.ftFresh (s : State) : State :=
  let f := s.ft
  s.setFt { f with
    st := if s.isTimeRoot then (if f.st = .root then .root else .rootUnset) else .free
    corr := 0
    parent := none
    depth := 0
    lostAt := none
    inLock := 0
    moved := false
    nbr := []
    exch := [] }

/-! The commands. -/

/-- TIME_EXCHANGE_START (R178). -/
def execTimeExchangeStart (link : Nat) (s : State) : Result := need (linkOk link) (.next (s.timeStart link))

/-- TIME_FLIT_RECEIVE (R178 to R180). -/
def execTimeFlitReceive (link : Nat) (raw : List Byte) (s : State) : Result :=
  need (linkOk link) (.next (s.flitIn link 4 raw true (State.timeIn link (flPayload raw))))

/-- FT_PARENT_RESELECT (R177). -/
def execFtParentReselect (s : State) : Result := .next s.reselect

/-- FT_HOLDOVER_ENTRY (R179). -/
def execFtHoldoverEntry (s : State) : Result := .next s.holdover

/-- FT_REF_LOSS: the PLL runs from the hub oscillator (R176). -/
def execFtRefLoss (s : State) : Result := .next (s.setFt { s.ft with refOk := false })

/-- OREF_LOSS: the links go DOWN, their lasers stay locked (R488). -/
def execOrefLoss (s : State) : Result :=
  .next (allLinks.foldl (fun s l => s.linkFall l) (s.setPins { s.pins with oref := false }))

end Sys2Proof.Machine
end

