-- ==== Sys2Proof/Machine/UrnMessages.lean ====
section
/-!
DEFINITION. Credit, grants and payloads of pipeline sends at the receiver and the sender, the inbox ring (R323 to R326),
the repair of a free list (R317), and the sleep of a core (R191).
Choices and readings that the model fixes here: log 22.
-/

namespace Sys2Proof.Machine

/-- Records of a context's inbox ring (R325). -/
def State.inboxSize (s : State) (ctx : Nat) : Nat := 256 * 2 ^ bits (s.ov (urnInboxId + ctx)) 64 4

/-- A slot of the inbox ring is free beside those that outstanding grants have taken (R324). -/
def State.inboxRoom (s : State) (ctx : Nat) : Bool :=
  let n := s.inboxSize ctx
  let t := tget 0 s.urn.inboxTail ctx
  decide ((t + n - s.ov (urnInboxHeadId + ctx) % n) % n + tget 0 s.urn.inboxTaken ctx + 1 < n)

/-- Header of an urn packet (R324). -/
def urnBody (fop id bytes handle tag : Nat) : List Byte :=
  mkBody 16 [(0, 8, fop), (16, 16, id), (32, 32, bytes), (64, 32, handle), (96, 32, tag)]

/-- Serves a context's requests in arrival order until one cannot be served, or has to wait for a rebuild (R317, R324). -/
def State.urnServe (ctx : Nat) : Nat → State → State
  | 0, s => s
  | f + 1, s =>
    match tget [] s.urn.reqs ctx with
    | [] => s
    | r :: rs =>
      if s.inboxRoom ctx = false then s
      else match s.urnStall ctx 2 r.bytes, s.urnAlloc ctx 2 r.bytes false with
        | some c, _ => s.urnStop c
        | none, none => s
        | none, some (h, s) =>
          let s := s.setUrn { s.urn with
            reqs := tset [] s.urn.reqs ctx rs
            grants := s.urn.grants ++ [⟨ctx, r.src, r.reqId, h, r.bytes, r.bytes, r.tag⟩]
            inboxTaken := tset 0 s.urn.inboxTaken ctx (tget 0 s.urn.inboxTaken ctx + 1) }
          State.urnServe ctx f (s.send hubUrn 0 ctx r.src (urnBody 0x81 r.reqId 0 h 0))

/-- URN_REQUEST_SERVE. -/
def State.urnRequestServe (ctx : Nat) (s : State) : State := State.urnServe ctx 256 s

/-- CREDIT_REQ: queued, at most 256 per context, and served in its turn (R324); a further one stays at the port. -/
def State.creditReq (p : Packet) (s : State) : State :=
  let q := tget [] s.urn.reqs p.ctx
  if 256 ≤ q.length then s
  else
    let r : UrnReq := ⟨p.src, p.field 16 16, p.field 32 32, p.field 96 32⟩
    ((s.taken p).setUrn { (s.taken p).urn with reqs := tset [] s.urn.reqs p.ctx (q ++ [r]) }).urnRequestServe p.ctx

/-- GRANT at the sender: the SEND tile has its credit (R113 test 6, R324). -/
def State.urnGranted (p : Packet) (s : State) : State :=
  let s := s.taken p
  s.setUrn { s.urn with sends := s.urn.sends.map (fun r =>
    if r.ctx = p.ctx ∧ r.reqId = p.field 16 16 ∧ r.dest = p.src then { r with handle := some (p.field 64 32) } else r) }

/-- DATA at the receiver: stored; after the last byte the inbox record and ARRIVE_SIGNAL (R324, R325). -/
def State.urnDataIn (p : Packet) (s : State) : State :=
  let s := s.taken p
  let h := p.field 64 32
  let is := fun (g : UrnGrantRec) => g.ctx == p.ctx && g.src == p.src && g.reqId == p.field 16 16 && g.handle == h
  match (s.urn.grants.filter is).head? with
  | none => s
  | some g =>
    let data := p.body.drop 16
    let s := s.urnStore (hKey h) (p.field 32 32) data
    if data.length < g.left then
      s.setUrn { s.urn with
        grants := s.urn.grants.map (fun x => if is x then { x with left := g.left - data.length } else x) }
    else
      let c := s.ov (urnInboxId + p.ctx)
      let t := tget 0 s.urn.inboxTail p.ctx
      let s := s.storeDev (bits c 0 64 + 16 * t)
        (mkBody 16 [(0, 32, h), (32, 32, g.bytes), (64, 16, g.src), (96, 32, g.tag)])
      let s := s.setUrn { s.urn with
        grants := s.urn.grants.filter (fun x => !(is x))
        inboxTail := tset 0 s.urn.inboxTail p.ctx ((t + 1) % s.inboxSize p.ctx)
        inboxTaken := tset 0 s.urn.inboxTaken p.ctx (tget 0 s.urn.inboxTaken p.ctx - 1) }
      s.signalWord p.ctx (bits c 80 32)

/-- CORE_SLEEP: no accepted tile for 64 core cycles and no ready tile (R191). -/
def State.coreSleep (core : Nat) (s : State) : State :=
  let s := s.notice
  let c := s.core core
  let mhz := pointMHz (s.die (dieOf core)).clock
  if c.asleep = false ∧ c.tiles = [] ∧ 64000 ≤ (s.clk - c.idleFrom) * mhz ∧ (s.candidates core).isEmpty then
    s.setCore core { c with asleep := true, wake := false, sleptAt := (s.sync.changes, tget 0 s.sched.posts (dieOf core)) }
  else s

/-- A wait word's counter, or its barrier's round, has changed since change number `n` (R191). -/
def State.waitMoved (s : State) (ctx n w : Nat) : Bool :=
  let e := s.syncEntry ctx (bits w 0 16)
  bits w 16 14 != 0 && !e.invalid && e.local_ &&
    decide (n < tget 0 s.sync.changed (if e.kind = 2 then e.phys + 1 else e.phys))

/-- The wake wire of a core that sleeps has risen since it fell asleep: a counter that an untaken wait of a tile listed for
its context names has changed, a barrier round that one names is complete or its group initialised, a tile was posted to
its die's list, or a quantum end, a slice end or a takeover raised it (R191). -/
def State.wakeRaised (s : State) (core : Nat) : Bool :=
  let c := s.core core
  c.wake || tget 0 s.sched.posts (dieOf core) != c.sleptAt.2 ||
    ((List.range 4).flatMap s.dieList).any (fun e => e.ctx == c.ctx && !e.taken &&
      (s.waitMoved e.ctx c.sleptAt.1 (dWait e.desc 0) || s.waitMoved e.ctx c.sleptAt.1 (dWait e.desc 1)))

/-- CORE_WAKE: the wake wire of a sleeping core has risen (R191). -/
def State.coreWake (core : Nat) (s : State) : State :=
  if (s.core core).asleep ∧ s.wakeRaised core then s.modCore core ({ · with asleep := false, wake := false }) else s

/-- REMOTE_SYNC_RECEIVE (R190). -/
def State.remoteSyncIn (p : Packet) (s : State) : State := (s.taken p).remoteSync p

/-- CREDIT_REQ (R324). -/
def execCreditReq (p : Packet) (s : State) : Result := need p.wf (powered s (s.creditReq p))

/-- URN_REQUEST_SERVE (R324). -/
def execUrnRequestServe (ctx : Nat) (s : State) : Result := need (ctxOk ctx) (.next (s.urnRequestServe ctx))

/-- URN_GRANT (R324). -/
def execUrnGrant (p : Packet) (s : State) : Result := need p.wf (powered s (s.urnGranted p))

/-- URN_DATA (R325). -/
def execUrnData (p : Packet) (s : State) : Result := need p.wf (powered s (s.urnDataIn p))

/-- REMOTE_SYNC_RECEIVE (R190). -/
def execRemoteSyncReceive (p : Packet) (s : State) : Result := need p.wf (powered s (s.remoteSyncIn p))

/-- CORE_SLEEP (R191). -/
def execCoreSleep (core : Nat) (s : State) : Result := need (coreOk core) (powered s (s.coreSleep core))

/-- CORE_WAKE (R191). -/
def execCoreWake (core : Nat) (s : State) : Result := need (coreOk core) (powered s (s.coreWake core))

end Sys2Proof.Machine
end

