-- ==== Sys2Proof/Machine/Sha2.lean ====
section
/-!
DEFINITION. The digests that the manual names: SHA-256 with HMAC (FIPS 198-1) for a claim's TAG (R418), and SHA-384 for a
firmware image (R425). Their constants are not tabled: FIPS 180-4 takes them from roots of the first primes, and so does
this file.
-/

namespace Sys2Proof.Machine

/-- What the two digests differ in: bytes of a word, rounds, the prime from which the initial value is taken, and the
amounts of the four mixing functions. -/
structure Sha where
  bytes : Nat
  rounds : Nat
  seedAt : Nat
  /-- rotations of the two functions of the working variables -/
  mixA : List Nat
  mixE : List Nat
  /-- rotations and shift of the two functions of the message schedule -/
  old : List Nat × Nat
  new : List Nat × Nat
deriving DecidableEq, Repr

/-- SHA-256. -/
def sha256Par : Sha := ⟨4, 64, 0, [2, 13, 22], [6, 11, 25], ([7, 18], 3), ([17, 19], 10)⟩

/-- SHA-384, on 64-bit words. -/
def sha384Par : Sha := ⟨8, 80, 8, [28, 34, 39], [14, 18, 41], ([1, 8], 7), ([19, 61], 6)⟩

/-- The primes below 410, 80 of them. -/
def smallPrimes : List Nat :=
  (List.range 410).filter (fun n => decide (2 ≤ n) && ((List.range 21).drop 2).all (fun d => n ≤ d || n % d != 0))

/-- Largest number whose `k`-th power is at most `n`, the bits above the `b` still to find being those of `r`. -/
def rootBits (k n : Nat) : Nat → Nat → Nat
  | 0, r => r
  | b + 1, r => rootBits k n b (if (r + 2 ^ b) ^ k ≤ n then r + 2 ^ b else r)

/-- The first `w` bits after the point of the `k`-th root of a prime below 512. -/
def rootFraction (k w p : Nat) : Nat := rootBits k (p * 2 ^ (k * w)) (w + 5) 0 % 2 ^ w

/-- Bits of a word. -/
def Sha.w (h : Sha) : Nat := 8 * h.bytes

/-- Round constants: cube roots. -/
def Sha.keys (h : Sha) : List Nat := (smallPrimes.take h.rounds).map (rootFraction 3 h.w)

/-- Initial value: square roots; the 64-bit digest of 384 bits begins at the ninth prime. -/
def Sha.init (h : Sha) : List Nat := ((smallPrimes.drop h.seedAt).take 8).map (rootFraction 2 h.w)

/-- Exclusive or of a word's rotations to the right. -/
def Sha.spin (h : Sha) (x : Nat) (rs : List Nat) : Nat :=
  rs.foldl (fun y n => y ^^^ (x / 2 ^ n + x % 2 ^ n * 2 ^ (h.w - n))) 0

/-- The number that bytes spell, most significant first. -/
def beNat (bs : List Byte) : Nat := leNat bs.reverse

/-- `n` bytes of a number, most significant first. -/
def toBE (n v : Nat) : List Byte := (toLE n v).reverse

/-- A byte list cut into `n` pieces of `k` bytes. -/
def pieces (k : Nat) : Nat → List Byte → List (List Byte)
  | 0, _ => []
  | n + 1, bs => bs.take k :: pieces k n (bs.drop k)

/-- `n` more words of the message schedule, from the words so far, newest first. -/
def Sha.extend (h : Sha) : Nat → List Nat → List Nat
  | 0, ws => ws
  | n + 1, ws =>
    let back := fun i => ws.getD (i - 1) 0
    let old := h.spin (back 15) h.old.1 ^^^ back 15 / 2 ^ h.old.2
    let new := h.spin (back 2) h.new.1 ^^^ back 2 / 2 ^ h.new.2
    h.extend n ((back 16 + old + back 7 + new) % 2 ^ h.w :: ws)

/-- One round on the eight working variables, with the sum of its constant and its word. -/
def Sha.round (h : Sha) (v : List Nat) (kw : Nat) : List Nat :=
  let x := fun i => v.getD i 0
  let chosen := x 6 ^^^ (x 4 &&& (x 5 ^^^ x 6))
  let majority := (x 0 &&& (x 1 ||| x 2)) ||| (x 1 &&& x 2)
  let t := x 7 + h.spin (x 4) h.mixE + chosen + kw
  let moved := (v.take 7).set 3 ((x 3 + t) % 2 ^ h.w)
  (t + h.spin (x 0) h.mixA + majority) % 2 ^ h.w :: moved

/-- One block of the message. -/
def Sha.block (h : Sha) (v : List Nat) (bs : List Byte) : List Nat :=
  let first := (pieces h.bytes 16 bs).map beNat
  let ws := (h.extend (h.rounds - 16) first.reverse).reverse
  let mixed := (List.zipWith (· + ·) h.keys ws).foldl h.round v
  List.zipWith (fun a b => (a + b) % 2 ^ h.w) v mixed

/-- The message with a 1 bit, zero bits and its length, in whole blocks of 16 words. -/
def Sha.pad (h : Sha) (bs : List Byte) : List Byte :=
  let n := alignUp (16 * h.bytes) (bs.length + 1 + 2 * h.bytes)
  padTo (n - 2 * h.bytes) (bs ++ [0x80]) ++ toBE (2 * h.bytes) (bs.length * 8)

/-- The digest's words, as bytes. -/
def Sha.digest (h : Sha) (bs : List Byte) : List Byte :=
  let p := h.pad bs
  ((pieces (16 * h.bytes) (p.length / (16 * h.bytes)) p).foldl h.block h.init).flatMap (toBE h.bytes)

/-- SHA-256 of some bytes. -/
def sha256 (bs : List Byte) : List Byte := sha256Par.digest bs

/-- SHA-384 of some bytes. -/
def sha384 (bs : List Byte) : List Byte := (sha384Par.digest bs).take 48

/-- HMAC-SHA-256 with a key of at most 64 bytes (FIPS 198-1). -/
def hmacSha256 (key msg : List Byte) : List Byte :=
  let k := padTo 64 key
  sha256 (k.map (· ^^^ 0x5C) ++ sha256 (k.map (· ^^^ 0x36) ++ msg))

end Sys2Proof.Machine
end

