-- ==== Sys2Proof/Machine/Firmware.lean ====
section
/-!
DEFINITION. Firmware slots, their verification, the boot and the activation of an image (R425 to R430).
Choices and readings that the model fixes here: log 31.
-/

namespace Sys2Proof.Machine

/-- The byte of a slot that nothing has programmed: 0xFF where it is erased (R394), else the image's of manufacture. -/
def slotBase (kept : Bool) (a : Nat) : Byte := if kept then Config.factoryByte a else 0xFF

/-- `n` bytes of a written slot; the table holds each as its difference from the byte that stood there before. -/
def slotBytes (kept : Bool) (t : Tbl Byte) (a n : Nat) : List Byte :=
  (tbytes t a n).zipIdx.map (fun x => x.1 ^^^ slotBase kept (a + x.2))

/-- Programs bytes into a slot. -/
def slotStore (kept : Bool) (t : Tbl Byte) (a : Nat) (bs : List Byte) : Tbl Byte :=
  tstore t a (bs.zipIdx.map (fun x => x.1 ^^^ slotBase kept (a + x.2)))

/-- A field of a slot's header: byte offset and bytes. -/
def slotField (kept : Bool) (t : Tbl Byte) (a n : Nat) : Nat := leNat (slotBytes kept t a n)

/-- VERSION of a slot's image (R425). -/
def FwSlot.version : FwSlot → Nat
  | .empty => 0
  | .factory => Config.factoryVersion % 2 ^ 32
  | .image o t => slotField o t 4 4

/-- SEC_VERSION of a slot's image (R425). -/
def FwSlot.sec : FwSlot → Nat
  | .empty => 0
  | .factory => Config.factorySec % 64
  | .image o t => slotField o t 8 2

/-- The header fields of a written image are as the map requires (R425). -/
def slotHeaderOk (o : Bool) (t : Tbl Byte) : Bool :=
  slotField o t 0 2 == 1 && slotField o t 2 2 == 1 && decide (slotField o t 8 2 ≤ 63) && slotField o t 10 2 == 0 &&
    decide (1 ≤ slotField o t 12 4) && decide (slotField o t 12 4 ≤ 8388608) && slotField o t 0xA0 0x60 == 0

/-- A slot is valid (R426); the image of manufacture is (log 31). -/
def FwSlot.valid (minSec raised : Nat) : FwSlot → Bool
  | .empty => false
  | .factory => decide (raised ≤ FwSlot.factory.sec)
  | .image o t =>
    slotHeaderOk o t && Config.signed (slotBytes o t 0 0x40) (slotBytes o t 0x40 0x60) &&
      sha384 (slotBytes o t 0x100 (slotField o t 12 4)) == slotBytes o t 0x10 48 &&
      decide (max minSec raised ≤ slotField o t 8 2)

/-- Slot A (false) or B (true). -/
def Caddy.slot (c : Caddy) (b : Bool) : FwSlot := if b then c.slotB else c.slotA

/-- Replaces a slot. -/
def Caddy.setSlot (c : Caddy) (b : Bool) (f : FwSlot) : Caddy := if b then { c with slotB := f } else { c with slotA := f }

/-- A slot passes R426. -/
def Caddy.slotValid (c : Caddy) (b : Bool) : Bool := (c.slot b).valid Config.minSec c.minSecRaised

/-- What the boot ROM boots: slot, FALLBACK, RECOVERY (R426, R427). -/
def Caddy.boot (c : Caddy) : Caddy :=
  if c.slotValid c.activeB then
    { c with
      booted := true
      runB := c.activeB
      fallback := false
      recovery := false
      fwPending := false }
  else if c.slotValid (!c.activeB) then
    { c with
      booted := true
      runB := !c.activeB
      fallback := true
      recovery := false
      fwPending := false }
  else
    { c with
      booted := true
      runB := c.activeB
      fallback := false
      recovery := true
      fwPending := false }

/-- BOOT_VERIFY_DONE (R426, R427). -/
def State.bootDone (s : State) : State := if s.caddy.booted ∨ s.pins.p5v = false then s else s.setCaddy s.caddy.boot

/-- The booted image has reached caddy ready: the fused minimum rises to its SEC_VERSION (R426). -/
def Caddy.raiseMin (c : Caddy) : Caddy :=
  if c.recovery then c else { c with minSecRaised := max c.minSecRaised (c.slot c.runB).sec }

/-- What a slot holds as bytes are programmed at an offset: SUB 0 erases it first (R428). -/
def FwSlot.before (f : FwSlot) (off : Nat) : Bool × Tbl Byte :=
  if off = 0 then (false, [])
  else match f with
    | .empty => (false, [])
    | .factory => (true, [])
    | .image o t => (o, t)

/-- FW_IMAGE_BLOCK: programs bytes into the slot not running, and a pending activation is cleared (R428). -/
def Caddy.program (c : Caddy) (off : Nat) (bs : List Byte) : Caddy :=
  let b := (c.slot (!c.runB)).before off
  { c.setSlot (!c.runB) (.image b.1 (slotStore b.1 b.2 off bs)) with
    activeB := if c.fwPending then c.runB else c.activeB
    fwPending := false }

/-- FW_ACTIVATE: verifies the slot not running and marks it active for the next reset; none where it is refused (R428,
R430). -/
def Caddy.activate (c : Caddy) : Option Caddy :=
  if c.slotValid (!c.runB) then
    some { c with
      activeB := !c.runB
      fwPending := true }
  else none

/-- FW_STATUS (R429). -/
def Caddy.fwStatus (c : Caddy) : Nat :=
  let run := c.slot c.runB
  let other := if c.slotValid (!c.runB) then (c.slot (!c.runB)).version else 0
  run.version + run.sec * 2 ^ 32 + ofBool c.runB * 2 ^ 48 + ofBool c.recovery * 2 ^ 49 + ofBool c.fallback * 2 ^ 50 +
    ofBool c.fwPending * 2 ^ 51 + other * 2 ^ 64 + max Config.minSec c.minSecRaised % 2 ^ 16 * 2 ^ 96

end Sys2Proof.Machine
end

