-- ==== Sys2Proof/Machine/LinkFlow.lean ====
section
/-!
DEFINITION. The flow of DATA flits: credits and buffers (R159, R160), retry (R161), and the output arbiter.
Choices and readings that the model fixes here: log 24.
-/

namespace Sys2Proof.Machine

/-! Credits (R159): classes 0 to 23 hold 32 flits each, class 24 is the shared pool of 3,328. -/

/-- Class whose credit a flit of class `c` uses, given the flits held per class. -/
def creditClass (used : Tbl Nat) (c : Nat) : Option Nat :=
  if tget 0 used c < 32 then some c else if tget 0 used 24 < 3328 then some 24 else none

/-- Receive buffer slots in use per class: flits held and credits not yet returned. -/
def Link.heldClass (x : Link) : Tbl Nat :=
  x.rx.foldl (fun t f => tset 0 t f.cls (tget 0 t f.cls + 1)) x.owed

/-! Receiving. -/

/-- The flit of a receive buffer slot. -/
def bufFlit (raw : List Byte) (cls : Nat) : BufFlit :=
  { seq := flSeq raw
    cls := cls
    vc := flVc raw
    dl := flDl raw
    sop := flSop raw
    eop := flEop raw
    data := (flPayload raw).take (flValid raw) }

/-- A good DATA flit (R161): in order it is accepted, a RESEND's answer takes its old slot, one already accepted is
discarded, and one that comes too early is discarded with a NAK. -/
def Link.dataIn (x : Link) (raw : List Byte) : Link :=
  let q := flSeq raw
  if x.up = false then x
  else if x.parity = some q then { x with parity := none }
  else if q = x.rxSeq then
    let c := flVc raw * 2 + ofBool (flDl raw)
    { x with
      rx := x.rx ++ [bufFlit raw ((creditClass x.heldClass c).getD 24)]
      rxSeq := (q + 1) % 65536
      nakOpen := false }
  else if seq16Before q x.rxSeq then x
  else x.crcFail

/-- DATA_FLIT_RECEIVE (R156, R157, R161). -/
def State.dataFlit (l : Nat) (raw : List Byte) (fecOk : Bool) (s : State) : State :=
  s.flitIn l 1 raw fecOk (fun s => s.modLink l (·.dataIn raw))

/-- NAK: everything from the SEQ it names is sent again in order, after the flits before it that a RESEND asked for and
that have not gone out (R161). -/
def Link.nakIn (x : Link) (n : Nat) : Link :=
  if x.up then { x with
    again := x.again.filter (fun q => seq16Before q n) ++
      (x.retry.filter (fun f => f.seq == n || seq16Before n f.seq)).map (·.seq) } else x

/-- RESEND: one flit is sent again (R161). -/
def Link.resendIn (x : Link) (n : Nat) : Link :=
  if x.up && x.retry.any (fun f => f.seq == n) then { x with again := n :: x.again.filter (· != n) } else x

/-- NAK_REPEAT (R161); the RESEND of a slot that still waits is repeated with it (log 24). -/
def Link.nakAgain (x : Link) : Link :=
  if x.up then
    let x := if x.nakOpen then x.nak else x
    match x.parity with
    | some q => x.queue 3 (toLE 2 q)
    | none => x
  else x

/-- ROUTER_PARITY_ERROR: the flit next to be read out keeps its slot, and RESEND asks for it; CE_COUNT of the hub covers
its router buffers (R161, R385). -/
def State.parityError (l : Nat) (s : State) : State :=
  let x := s.link l
  match x.rx, x.parity with
  | f :: _, none =>
    if x.up then
      (((s.setLink l ({ x with parity := some f.seq }.queue 3 (toLE 2 f.seq))).linkErr l 2).covered 4 l).bump (ceCountId + 4)
    else s
  | _, _ => s

/-- Takes a packet's flits out of the receive buffer: their credits are owed, and the release pointer moves up to the
first flit still held (R159, R160). -/
def Link.readOut (x : Link) (fs : List BufFlit) : Link :=
  let rx := dropFlits x.rx fs
  { x with
    rx := rx
    owed := fs.foldl (fun t f => tset 0 t f.cls (tget 0 t f.cls + 1)) x.owed
    ackPtr := match rx with
      | f :: _ => f.seq
      | [] => x.rxSeq }

/-! Sending. -/

/-- Sends a DATA flit (R156). -/
def Link.putData (x : Link) (f : BufFlit) : Link :=
  x.put (flitHdr 1 f.vc f.dl f.sop f.eop f.data.length f.seq) f.data

/-- The first packet of a virtual channel in the output queue, with the credit class its next flit would use. -/
def Link.head (x : Link) (vc : Nat) : Option (OutPkt × Nat) :=
  match x.out.find? (fun o => o.pkt.vc == vc) with
  | some o => (creditClass x.used (vc * 2 + ofBool o.pkt.dl)).map (fun c => (o, c))
  | none => none

/-- The packet whose flit goes next: VC0 first, then one per VC in turn (R159). -/
def Link.arbitrate (x : Link) : Option (OutPkt × Nat) :=
  let order := 0 :: (List.range 11).map (fun i => (x.lastVc + i) % 11 + 1)
  (order.filterMap x.head).head?

/-- Replaces a packet of the output queue by how far it has got, or removes it. -/
def advanceOut (o : OutPkt) : List OutPkt → List OutPkt
  | [] => []
  | y :: ys =>
    if y = o then
      if o.sent + 1 < pktFlits o.pkt then { o with sent := o.sent + 1 } :: ys else ys
    else y :: advanceOut o ys

/-- Sends the next flit of a packet and keeps it for retry (R158 to R160). -/
def Link.sendFlit (x : Link) (o : OutPkt) (cls : Nat) : Link :=
  let f : BufFlit :=
    { seq := x.txSeq
      cls := cls
      vc := o.pkt.vc
      dl := o.pkt.dl
      sop := o.sent == 0
      eop := o.sent + 1 == pktFlits o.pkt
      data := ((pktBytes o.pkt).drop (244 * o.sent)).take 244 }
  { x.putData f with
    txSeq := (x.txSeq + 1) % 65536
    retry := x.retry ++ [f]
    used := tset 0 x.used cls (tget 0 x.used cls + 1)
    out := advanceOut o x.out
    lastVc := if o.pkt.vc = 0 then x.lastVc else o.pkt.vc }

/-- A queued flit is a TIME flit. -/
def isTimeFlit (c : List Byte) : Bool := leNat (c.take 1) == 4

/-- The payload of a message as it leaves: WIDTH_SET, WIDTH_ACK and SPARE_ACK name a round four later than their own,
from which the change applies (R164). -/
def stampRound (round : Nat) (c : List Byte) : List Byte :=
  let m := LaneMsg.of (c.drop 1)
  if leNat (c.take 1) = 5 ∧ (m.msg = 2 ∨ m.msg = 3 ∨ m.msg = 5) then ({ m with atRound := (round + 4) % 1024 }).bytes
  else c.drop 1

/-- What a link notes of the message that leaves: the round that its change applies from. -/
def Link.noteRound (x : Link) (round : Nat) (c : List Byte) : Link :=
  let m := LaneMsg.of (c.drop 1)
  let at_ := some ((round + 4) % 1024)
  if leNat (c.take 1) ≠ 5 then x
  else if m.msg = 2 ∨ m.msg = 3 then { x with txChange := x.txChange.map (fun t => (t.1, at_)) }
  else if m.msg = 5 then { x with
    spareAckTx := x.spareAckTx.map (fun q => if q.1 = m.lane then (q.1, q.2.1, at_) else q) }
  else x

/-- Sends a flit that travels ahead of DATA flits. -/
def Link.putCtl (x : Link) (round : Nat) (c : List Byte) : Link :=
  ({ x with ctl := dropFirst (· == c) x.ctl }.noteRound round c).put
    (flitHdr (leNat (c.take 1)) 0 false false false 244 0) (stampRound round c)

/-- The next flit of a link in a codeword round, TIME flits aside: messages ahead of DATA flits, flits sent again, a flit
that holds a credit, and otherwise an IDLE flit with the release pointer and credits (R157, R159 to R161, R164). -/
def Link.transmit (x : Link) (carries : Bool) (round : Nat) : Link :=
  match x.ctl.find? (fun c => !isTimeFlit c) with
  | some c => x.putCtl round c
  | none =>
    if x.up = false then x
    else
      match x.again with
      | q :: qs =>
        if carries = false then x.put (flitHdr 0 0 false false false 244 0) []
        else match x.retry.find? (fun f => f.seq == q) with
        | some f => { x with again := qs }.putData f
        | none => { x with again := qs }.put (flitHdr 0 0 false false false 244 0) []
      | [] =>
        match (if carries && decide (x.retry.length < 4096) then x.arbitrate else none) with
        | some (o, c) => x.sendFlit o c
        | none => x.put (flitHdr 0 0 false false false 244 0) []

/-- A TIME flit leaves as the first of its round: its send stamp is taken now, T1 of a request or T3 of a reply (R178). -/
def State.timeSend (s : State) (l : Nat) (c : List Byte) : State :=
  let b := bytesField (c.drop 1)
  let t := s.ftRead linkPs
  let seq := b 0 16
  let body := if b 16 1 = 0 then s.timeBody seq 0 t 0 0 else s.timeBody seq 1 (b 64 64) (b 128 64) t
  let s := if b 16 1 = 0 then s.timeLeft l seq t else s
  s.modLink l (fun x => { x with ctl := dropFirst (· == c) x.ctl }.put (flitHdr 4 0 false false false 244 0) body)

/-- A looped link's own flit reaches its receiver (R164, R467). -/
def State.loopIn (l : Nat) (raw : List Byte) (s : State) : State :=
  let s := s.flitCore l 5 raw true (fun s =>
    let s := s.laneDo l 1 raw (State.identIn l)
    let s := s.laneDo l 2 raw (State.widthSetIn l)
    let s := s.laneDo l 4 raw (State.spareReqIn l)
    s.laneDo l 5 raw (State.spareAckIn l))
  s.flitCore l 4 raw true (State.timeIn l (flPayload raw)) |>.flitCore l 0 raw true id

/-- The flit that leaves a link: a TIME flit only in the first place of a codeword round (R178), and no traffic on a looped
link (R467). -/
def State.flitOut (l : Nat) (s : State) : State :=
  let x := s.link l
  let n := s.rounds l
  match (if x.lastRound = n + 1 then none else x.ctl.find? isTimeFlit) with
  | some c => (s.modLink l ({ · with lastRound := n + 1 })).timeSend l c
  | none => s.setLink l ({ x with lastRound := n + 1 }.transmit (!s.looped l) (n % 1024))

/-- FLIT_TRANSMIT: one flit leaves; a looped link receives it (R467). -/
def State.flitTransmit (l : Nat) (s : State) : State :=
  let n := (s.link l).wire.length
  let t := s.flitOut l
  if s.looped l then ((t.link l).wire.drop n).foldl (fun t raw => t.loopIn l raw) t else t

/-! The commands. -/

/-- DATA_FLIT_RECEIVE (R161). -/
def execDataFlitReceive (link : Nat) (raw : List Byte) (fecOk : Bool) (s : State) : Result :=
  need (linkOk link) (.next (s.dataFlit link raw fecOk))

/-- IDLE_FLIT_RECEIVE (R159, R160). -/
def execIdleFlitReceive (link : Nat) (raw : List Byte) (s : State) : Result :=
  need (linkOk link) (.next (s.flitIn link 0 raw true id))

/-- NAK (R161). -/
def execNak (link : Nat) (raw : List Byte) (s : State) : Result :=
  need (linkOk link)
    (.next (s.flitIn link 2 raw true (fun s => s.modLink link (·.nakIn (bytesField (flPayload raw) 0 16)))))

/-- RESEND (R161). -/
def execResend (link : Nat) (raw : List Byte) (s : State) : Result :=
  need (linkOk link)
    (.next (s.flitIn link 3 raw true (fun s => s.modLink link (·.resendIn (bytesField (flPayload raw) 0 16)))))

/-- NAK_REPEAT (R161). -/
def execNakRepeat (link : Nat) (s : State) : Result := need (linkOk link) (.next (s.modLink link (·.nakAgain)))

/-- ROUTER_PARITY_ERROR (R161). -/
def execRouterParityError (link : Nat) (s : State) : Result := need (linkOk link) (.next (s.parityError link))

/-- FLIT_TRANSMIT (R159). -/
def execFlitTransmit (link : Nat) (s : State) : Result := need (linkOk link) (.next (s.flitTransmit link))

end Sys2Proof.Machine
end

