-- ==== Sys2Proof/Machine/Reduction.lean ====
section
/-!
DEFINITION. The reduction units: wire formats and the arithmetic of a chain (R234, R269, R270), chunks and their buffers
(R268, R273, R274, R320, R326), delivery (R271, R278), arrival (R276) and the deadline (R277).
Choices and readings that the model fixes here: log 18.
-/

namespace Sys2Proof.Machine

/-! Wire formats (R234, R269, R274). -/

/-- Element format of a level. -/
def wireFmt : Nat → Fmt
  | 0 => .f8e5
  | 1 => .g16
  | _ => .f32

/-- Conversion mode of a level: NARROW is scaled, the others round to nearest even with SAT 0. -/
def wireMode : Nat → Nat
  | 0 => 4
  | _ => 0

/-- Body bytes of a chunk at a level. -/
def wireBytes : Nat → Nat
  | 0 => 1056
  | 1 => 2048
  | _ => 4096

/-- Eight rows in the wire format of a level. -/
def wireEnc (lv : Nat) (rows : List (List Fv)) : List Byte × Flags :=
  let rs := rows.map (fun r => convLine (wireFmt lv) (wireMode lv) (r.map (fun v => ⟨v, 0⟩)))
  (rs.flatMap (fun r => r.1.flatMap (toLE (fmtWidth (wireFmt lv) / 8))) ++
    rs.flatMap (fun r => r.2.1.map (fun k => BitVec.ofNat 8 k)), rs.foldl (fun f r => f ||| r.2.2) flagNone)

/-- One element of a chunk as F32. -/
def wireElem (lv : Nat) (bs : List Byte) (r c : Nat) : Fv × Flags :=
  let w := fmtWidth (wireFmt lv) / 8
  let v := decodeFloat (wireFmt lv) (leNat ((bs.drop ((r * 128 + c) * w)).take w))
  if lv = 0 then
    let k := leNat ((bs.drop (1024 + r * 4 + c / 32)).take 1)
    let x := rF32 (scaled k v)
    (x.1, x.2 ||| (if k = 255 then flagNanScale else flagNone))
  else rF32 v

/-- Eight rows of a chunk as F32. -/
def wireDec (lv : Nat) (bs : List Byte) : List (List Fv) × Flags :=
  let rs := (List.range 8).map (fun r => mapF (wireElem lv bs r) (List.range 128))
  (rs.map (·.1), rs.foldl (fun f r => f ||| r.2) flagNone)

/-- Sum of two chunks, the incoming one on the left (R269). -/
def rowsAdd (a b : List (List Fv)) : List (List Fv) × Flags :=
  let rs := (a.zip b).map (fun p => zipF f32Add p.1 p.2)
  (rs.map (·.1), rs.foldl (fun f r => f ||| r.2) flagNone)

/-- A chunk's value as it travels: level and bytes, none for EMPTY. -/
abbrev Wire := Option (Nat × List Byte)

/-- What an intermediate member sends on (R269, R270). -/
def wireJoin : Wire → Wire → Wire × Flags
  | none, x => (x, flagNone)
  | some x, none => (some x, flagNone)
  | some (l, bs), some (k, cs) =>
    let a := wireDec l bs
    let b := wireDec k cs
    let t := rowsAdd a.1 b.1
    let e := wireEnc (max l k) t.1
    (some (max l k, e.1), a.2 ||| b.2 ||| t.2 ||| e.2)

/-- What the owner sums (R269, R270): F32 rows, none for EMPTY. -/
def wireSum : Wire → Wire → Option (List (List Fv)) × Flags
  | none, none => (none, flagNone)
  | none, some (k, cs) => let b := wireDec k cs; (some b.1, b.2)
  | some (l, bs), none => let a := wireDec l bs; (some a.1, a.2)
  | some (l, bs), some (k, cs) =>
    let a := wireDec l bs
    let b := wireDec k cs
    let t := rowsAdd a.1 b.1
    (some t.1, a.2 ||| b.2 ||| t.2)

/-! Fields of a chunk's body (R273). -/

def rLevel (b : List Byte) : Nat := bytesField b 8 2
def rEmpty (b : List Byte) : Bool := bytesField b 10 1 == 1
def rGroup (b : List Byte) : Nat := bytesField b 11 2
def rChunk (b : List Byte) : Nat := bytesField b 16 4
def rPace (b : List Byte) : Nat := bytesField b 24 8
def rEpoch (b : List Byte) : Nat := bytesField b 32 16
def rAttempt (b : List Byte) : Nat := bytesField b 48 8
def rOwner (b : List Byte) : Nat := bytesField b 56 5
def rStep (b : List Byte) : Nat := bytesField b 64 32
def rTag (b : List Byte) : Nat := bytesField b 96 32
def rList (b : List Byte) : Nat := bytesField b 128 8
def rContribs (b : List Byte) : Nat := bytesField b 136 8
def rBytes (b : List Byte) : Nat := bytesField b 160 32

/-- The value a body carries. -/
def rWire (b : List Byte) : Wire := if rEmpty b then none else some (rLevel b, b.drop 24)

/-- A body that R276 calls a format error. -/
def rBad (b : List Byte) : Bool :=
  rLevel b == 3 || rBytes b != (if rEmpty b then 0 else wireBytes (rLevel b)) || decide (b.length < 24 + rBytes b)

/-- A failure of a reduction: the first since the log was read is logged, and the step fails (R276, R279). -/
def State.redErr (s : State) (ctx cause group dev tag epoch : Nat) : State :=
  let s := if s.red.errLog ≠ 0 then s
    else s.setRed { s.red with
      errLog := cause + ctx * 2 ^ 8 + group * 2 ^ 12 + dev * 2 ^ 16 + tag * 2 ^ 32 + epoch * 2 ^ 64 }
  s.latch ctx 1

/-- Raises format flags of a context (R50, R269). -/
def State.raise (s : State) (ctx : Nat) (f : Flags) : State :=
  if f = 0 then s else s.orOv (formatFlagsId + ctx) f.toNat

/-! Keys. -/

/-- Two keys are the same (R276). -/
def RedKey.is (k : RedKey) (ctx g tag : Nat) : Bool := k.ctx == ctx && k.group == g && k.tag == tag

/-- A key of the units. -/
def State.redKey (s : State) (ctx g tag : Nat) : Option RedKey := (s.red.keys.filter (·.is ctx g tag)).head?

/-- Removes a key. -/
def State.dropKey (s : State) (k : RedKey) : State :=
  s.setRed { s.red with keys := s.red.keys.filter (fun x => !(x.is k.ctx k.group k.tag)) }

/-- Puts a key in place, in the order in which keys began. -/
def State.putKey (s : State) (k : RedKey) : State :=
  if s.red.keys.any (·.is k.ctx k.group k.tag) then
    s.setRed { s.red with keys := s.red.keys.map (fun x => if x.is k.ctx k.group k.tag then k else x) }
  else s.setRed { s.red with keys := s.red.keys ++ [k] }

/-- A key that begins now. -/
def State.newKey (s : State) (ctx g tag list owner : Nat) : RedKey :=
  { ctx := ctx, group := g, tag := tag, list := list, owner := owner, firstAt := s.ftRead hubPs, local_ := false, locLevel := 0,
    locEmpty := false, loc := [], incEmpty := false, inc := [], contribs := 0, shared := [], done := [], sums := [],
    deliv := none }

/-- A key that has failed or completed in this attempt (R276). -/
def State.keyClosed (s : State) (ctx g tag : Nat) : Bool := (s.redc ctx).closed.contains (g, tag)

/-- Buffers that a key occupies, by index: n for local chunk n, 16 + n for incoming chunk n. -/
def RedKey.buffers (k : RedKey) : List Nat := k.loc.map (·.1) ++ (if k.incEmpty then [] else k.inc.map (fun p => 16 + p.1))

/-- Returns buffers of a key to the pool (R320). -/
def State.giveBufs (s : State) (k : RedKey) (bs : List Nat) : State :=
  bs.foldl (fun s b => s.redGive k.ctx k.group (k.shared.contains b)) s

/-- Ends a key: its buffers return and later packets of it are stale (R276). -/
def State.closeKey (s : State) (k : RedKey) : State :=
  ((s.giveBufs k k.buffers).dropKey k).modRedc k.ctx (fun c => { c with closed := (k.group, k.tag) :: c.closed })

/-- Incoming body that partners chunk `n`. -/
def RedKey.partner (k : RedKey) (n : Nat) : Option (List Byte) := if k.incEmpty then tget? k.inc 0 else tget? k.inc n

/-- Local value of chunk `n`, if it waits here. -/
def RedKey.local? (k : RedKey) (n : Nat) : Option Wire :=
  if k.local_ = false then none
  else if k.locEmpty then some none
  else (tget? k.loc n).map (fun b => some (k.locLevel, b))

/-! Forwarding and delivery. -/

/-- Sends one chunk to the next member (R273, R275). -/
def State.redSend (s : State) (k : RedKey) (r : Ring) (n : Nat) (w : Wire) (contribs pace : Nat) : State :=
  let data := match w with
    | none => []
    | some x => x.2
  let lv := match w with
    | none => 0
    | some x => x.1
  s.send hubSelf (5 + k.group) k.ctx r.next (mkBody 24 [(0, 8, 0x70), (8, 2, lv), (10, 1, ofBool w.isNone), (11, 2, k.group),
    (16, 4, n), (24, 8, pace), (32, 16, (s.redc k.ctx).epoch), (48, 8, s.attemptNo k.ctx), (56, 5, k.owner),
    (64, 32, s.stepNo k.ctx), (96, 32, k.tag), (128, 8, if s.redIsList k.ctx k.group then k.list else 0), (136, 8, contribs), (160, 32, data.length)] ++ data)

/-- Writes the sums to DELIV_DESC (R267, R271). -/
def State.storeSums (s : State) (k : RedKey) (t : Tens) : State :=
  let put := fun (a : Nat) (bs : List Byte) (s : State) =>
    if t.cls = 2 then s.urnStore (hKey t.handle) a bs else s.storeDev a bs
  (List.range 128).foldl (fun s r =>
    let row := ((tget [] k.sums (r / 8)).drop (512 * (r % 8))).take 512
    if t.trans then (List.range 128).foldl (fun s c => put (t.base + c * t.stride1 + 4 * r) ((row.drop (4 * c)).take 4) s) s
    else put (t.base + r * t.stride1) row s) s

/-- The EMIT tile of a key on a module meets causes of its delivery; after it has completed, its context's step fails (R124). -/
def State.emitMeets (s : State) (k : RedKey) (cs : List (Nat × Nat)) : State :=
  let is := fun (x : Tile) => dType x.desc == 3 && k.is x.ctx (emGroup x.desc) (emTag x.desc)
  if cs = [] then s
  else match allCores.filter (fun c => (s.core c).tiles.any is) with
    | c :: _ => s.modCore c (fun y => { y with
        tiles := y.tiles.map (fun x => if is x then { x with causes := x.causes ++ cs } else x) })
    | [] => s.latch k.ctx 1

/-- The sums go to DELIV_DESC: nowhere where EVAL_MEM forbids it, and not to unmapped bytes (R271, R288, R474). -/
def State.deliverTo (s : State) (k : RedKey) (t : Tens) : State :=
  let n := 127 * t.stride1 + 512
  if t.cls = 0 ∧ s.evalForbids k.ctx t.base n then s.emitMeets k [(0x0A, 1)]
  else (s.storeSums k t).emitMeets k (if t.cls = 0 ∧ s.anyUnmapped t.base n then [(0x03, 1)] else [])

/-- Delivery at the owner, in the order of R271, and the count check of R278. -/
def State.redDeliver (s : State) (k : RedKey) (p : Nat) : State :=
  match k.deliv with
  | none => s
  | some (d, rec, sig) =>
    let s := match d with
      | some d => if k.sums = [] then s else s.deliverTo k (Tens.of d.toNat)
      | none => s
    let s := s.emitMeets k (if s.anyUnmapped rec 16 then [(0x03, 2)] else [])
    let s := s.storeDev rec (mkBody 16 [(0, 1, ofBool (k.sums == [])), (8, 8, s.attemptNo k.ctx), (32, 32, s.stepNo k.ctx)])
    let s := if k.contribs = p then s else s.redErr k.ctx 4 k.group 0 k.tag 0
    s.signalWord k.ctx sig

/-- After a chunk: the key is kept, or all its chunks are added and it ends (R271, R280). -/
def State.redFinish (s : State) (k : RedKey) (r : Ring) : State :=
  if k.done.length < 16 then s.putKey k
  else
    let s := s.closeKey k
    if r.isOwner k.owner then s.redDeliver k r.devs.length
    else s.modRedc k.ctx (fun c => { c with sent := satAdd 32 c.sent 1 })

/-- Adds chunk `n` of a key: `i` is the incoming body, none at the first member; `l` is the local value; `held` are the
buffers that its inputs occupied (R268 to R270, R275). -/
def State.redJoin (s : State) (k : RedKey) (r : Ring) (n : Nat) (i : Option (List Byte)) (l : Wire) (held : List Nat) : State :=
  let s := s.giveBufs k held
  let inW := match i with
    | none => none
    | some b => rWire b
  let c := (match i with
    | none => 0
    | some b => rContribs b) + 1
  let pace := match i with
    | none => s.ownPace
    | some b => min (rPace b) s.ownPace
  let all := inW.isNone && l.isNone
  let k := { k with
    loc := terase k.loc n
    inc := if k.incEmpty then k.inc else terase k.inc n
    shared := k.shared.filter (fun b => !(held.contains b))
    contribs := c
    done := if all then List.range 16 else n :: k.done }
  if r.isOwner k.owner then
    let t := wireSum inW l
    let k := match t.1 with
      | none => k
      | some rows => { k with sums := tins k.sums n (rows.flatMap (fun row => row.flatMap (fun v => toLE 4 (f32Code v)))) }
    (s.raise k.ctx t.2).redFinish k r
  else
    let t := wireJoin inW l
    ((s.raise k.ctx t.2).redSend k r (if all then 0 else n) t.1 c pace).redFinish k r

/-- Adds chunk `n` of a key if both its inputs wait here. -/
def State.redTry (ctx g tag n : Nat) (s : State) : State :=
  match s.redKey ctx g tag with
  | none => s
  | some k =>
    match s.ringFor ctx g k.list k.owner, k.partner n, k.local? n with
    | some r, some b, some l =>
      if k.done.contains n then s
      else s.redJoin k r n (some b) l ((if k.locEmpty then [] else [n]) ++ (if k.incEmpty then [] else [16 + n]))
    | _, _, _ => s

/-! The drain of an EMIT tile (R268). -/

/-- Eight slot rows of a chunk as exact values, +0 outside the effective extents (R267). -/
def chunkRows (x : Tile) (sl : Slot) (n : Nat) : List (List Fv) :=
  (List.range 8).map (fun i => (List.range 128).map (fun c =>
    let r := 8 * n + i
    if r < x.mEff ∧ c < x.nEff then decodeFmt (viewFmt sl.intView) (tget 0 sl.entries (r * 128 + c)).toNat else fvZero))

/-- GRAD_STATS of a tile (R235). -/
def gradStats (x : Tile) (sl : Slot) : GradStat :=
  let rows := ((List.range 16).flatMap (chunkRows x sl)).take x.mEff
  let live := fun (v : Fv) => match v with
    | .fin _ m _ => m != 0
    | _ => false
  let uf := rows.map (fun r =>
    (((convLine .f8e5 4 (r.map (fun v => ⟨v, 0⟩))).1.zip r).filter (fun p => live p.2 && isZeroCode .f8e5 p.1)).length)
  ⟨blockExp rows.flatten, (rows.flatten.filter live).length, uf.sum⟩

/-- Statistics of a layer combined (R235). -/
def GradStat.join (a b : GradStat) : GradStat :=
  { emax := match a.emax, b.emax with
      | some x, some y => some (max x y)
      | none, y => y
      | x, none => x
    nz := a.nz + b.nz
    uf := a.uf + b.uf }

/-- No statistics. -/
def GradStat.zero : GradStat := ⟨none, 0, 0⟩

/-- An accepted EMIT tile of a core. -/
def State.emitTile (s : State) (core seq : Nat) : Option Tile :=
  ((s.core core).tiles.filter (fun x => dType x.desc == 3 && x.seq == seq)).head?

/-- Flags that the encoding of an EMIT tile's chunks raises stand in its completion record too (R50). -/
def State.tileFlags (s : State) (core seq : Nat) (f : Flags) : State :=
  if f = 0 then s
  else s.modCore core (fun c => { c with tiles := c.tiles.map (fun x =>
    if dType x.desc = 3 ∧ x.seq = seq then { x with flags := x.flags ||| f } else x) })

/-- Hands chunk `n` to the unit: added to its partner, passed on by the first member, or stored in a buffer; none where
no buffer is free. `arriving` is an incoming body that stands at the unit without a buffer (R268, R326). -/
def State.handOver (s : State) (core seq n : Nat) (arriving : Option (List Byte)) : Option State :=
  match s.emitTile core seq with
  | none => some s
  | some x =>
    match s.redKey x.ctx (emGroup x.desc) (emTag x.desc), s.emRing x.ctx x.desc with
    | some k, some r =>
      if k.done.contains n then some s
      else
        let e := if k.locEmpty then ([], flagNone)
          else wireEnc k.locLevel (chunkRows x ((s.core core).slot (x.slot.getD 0)) n)
        let w : Wire := if k.locEmpty then none else some (k.locLevel, e.1)
        let s' := (s.raise x.ctx e.2).tileFlags core seq e.2
        if r.isFirst k.owner then some (s'.redJoin k r n none w [])
        else match arriving with
          | some b => some (s'.redJoin k r n (some b) w [])
          | none => match k.partner n with
            | some b => some (s'.redJoin k r n (some b) w (if k.incEmpty then [] else [16 + n]))
            | none =>
              if k.locEmpty then some s
              else (s'.redTake k.ctx k.group).map (fun q =>
                q.2.putKey { k with loc := tins k.loc n e.1, shared := if q.1 then n :: k.shared else k.shared })
    | _, _ => some s

/-- The tile's chunks are all taken: it goes on to its completion (R268). -/
def State.drainEnd (s : State) (core seq : Nat) : State :=
  let s := s.setRed { s.red with drains := s.red.drains.filter (fun d => !(d.core == core && d.seq == seq)) }
  s.modCore core (fun c => { c with tiles := c.tiles.map (fun x =>
    if dType x.desc = 3 ∧ x.seq = seq then { x with stage := .storing } else x) })

/-- Hands over chunks from `n` on until one finds no buffer; the drain then waits at it. -/
def State.drainFrom (core seq : Nat) : Nat → Nat → State → State
  | 0, _, s => s.drainEnd core seq
  | f + 1, n, s =>
    match s.handOver core seq n none with
    | some s => drainFrom core seq f (n + 1) s
    | none =>
      s.setRed { s.red with
        drains := s.red.drains.filter (fun d => !(d.core == core && d.seq == seq)) ++ [⟨core, seq, n⟩] }

/-- Level at which a context emits a layer: a level set by GF_CFG holds from the context's next step commit (R236). -/
def State.levelOf (s : State) (ctx layer : Nat) : Nat :=
  match (s.gf layer).pending.find? (fun p => bit p.2 ctx) with
  | some p => p.1
  | none => (s.gf layer).level

/-- Acceptance of an EMIT tile (R232, R235, R266 to R268). -/
def State.acceptEmit (core : Nat) (e : Entry) (s : State) : State :=
  let d := e.desc
  let c := s.core core
  let i := (c.chainSlot e.ctx (dChain d)).getD 0
  let x := { s.newTile core e (some i) with begun := true }
  let sl := lostSlot s.lostNow (c.slot i)
  let s := s.setCore core (c.setSlot i { sl with st := .draining, tile := dTileId d })
  if x.status = stEmpty then s.addTile core x
  else match s.emRing e.ctx d with
    | none =>
      (s.redErr e.ctx 3 (emGroup d) 0 (emTag d) 0).addTile core
        { x with stage := .storing, causes := x.causes ++ [(0x50, 0x0A)] }
    | some r =>
      let s := s.modStp e.ctx (fun p => { p with
        stats := tins p.stats (emLayer d) ((tget .zero p.stats (emLayer d)).join (gradStats x sl)) })
      let s := s.addTile core x
      let own := r.isOwner (emOwner d)
      if s.keyClosed e.ctx (emGroup d) (emTag d) then
        let s := if own then s.signalWord e.ctx (dWord d 3) else s
        s.drainEnd core e.seq
      else
        let k := (s.redKey e.ctx (emGroup d) (emTag d)).getD (s.newKey e.ctx (emGroup d) (emTag d) 0 0)
        let k := { k with
          list := emList d
          owner := emOwner d
          local_ := true
          locLevel := s.levelOf e.ctx (emLayer d)
          locEmpty := sl.terms == 0
          deliv := if own then some (if x.urnBad 1 then none else some (BitVec.ofNat 512 (leNat (s.loadDev (dWord d 1) 64))),
            dWord d 2, dWord d 3) else none }
        (s.putKey k).drainFrom core e.seq 16 0

/-- EMIT_CHUNK_HANDOFF: the first waiting drain that finds a buffer or a partner goes on (R268, R326). -/
def State.handoff (s : State) : State :=
  match (s.red.drains.filter (fun d => (s.handOver d.core d.seq d.next none).isSome)).head? with
  | none => s
  | some d => s.drainFrom d.core d.seq (16 - d.next) d.next

/-! Arrival (R276). -/

/-- The drain that waits to hand over chunk `n` of a key. -/
def State.drainAt (s : State) (k : RedKey) (n : Nat) : Option RedDrain :=
  (s.red.drains.filter (fun d => d.next == n && match s.emitTile d.core d.seq with
    | some x => k.is x.ctx (emGroup x.desc) (emTag x.desc)
    | none => false)).head?

/-- Processes one chunk by R269 and R270; none where it finds neither partner nor buffer (R326). -/
def State.redProcess (s : State) (p : Packet) : Option State :=
  let b := p.body
  let n := rChunk b
  let k := (s.redKey p.ctx (rGroup b) (rTag b)).getD (s.newKey p.ctx (rGroup b) (rTag b) (rList b) (rOwner b))
  if k.incEmpty || (tget? k.inc n).isSome || k.done.contains n then some (s.bump redStaleId)
  else if rEmpty b then
    some ((List.range 16).foldl (fun s n => s.redTry p.ctx k.group k.tag n)
      (s.putKey { k with incEmpty := true, inc := [(0, b.take 24)] }))
  else
    match k.local? n, s.ringFor p.ctx k.group k.list k.owner with
    | some l, some r => some (s.redJoin k r n (some b) l (if k.locEmpty then [] else [n]))
    | _, _ => match s.drainAt k n with
      | some d => (s.handOver d.core d.seq n (some b)).map (fun s => s.drainFrom d.core d.seq (15 - n) (n + 1))
      | none => (s.redTake p.ctx k.group).map (fun q =>
          q.2.putKey { k with inc := tins k.inc n b, shared := if q.1 then (16 + n) :: k.shared else k.shared })

/-- Holds a packet in a shared buffer of the pool, or discards it where none is free (R276, R320, R326). -/
def State.redHold (s : State) (p : Packet) (until_ : Nat) : State :=
  match s.redTakeShared p.ctx with
  | some s => s.setRed { s.red with held := s.red.held ++ [⟨until_, p, true⟩] }
  | none => s.bump redStaleId

/-- A packet may be for the step that the receiver's next STEP_START begins, under the staged epoch that it puts in force (R276,
R280, R281). DEDUCED (log 18): that step is not known before its write; where the staged epoch is the one in force, the packet is
one of the run in progress unless no run is in progress. -/
def State.redNext (s : State) (p : Packet) : Bool :=
  let st := (s.stp p.ctx).st
  (s.redc p.ctx).staged && rEpoch p.body == s.ov (layoutEpochId + p.ctx) && rAttempt p.body == 0 &&
    (rEpoch p.body != (s.redc p.ctx).epoch || st == .idle || st == .halted)

/-- The treatment of R276; none where the chunk must stay in the receive buffer. -/
def State.redTreat (s : State) (p : Packet) : Option State :=
  let b := p.body
  let st := (s.stp p.ctx).st
  let step := s.stepNo p.ctx
  let att := s.attemptNo p.ctx
  if rBad b then some (s.redErr p.ctx 5 (rGroup b) p.src (rTag b) (rEpoch b))
  else if s.redNext p then some (s.redHold p 0)
  else if rEpoch b ≠ (s.redc p.ctx).epoch then some (s.redErr p.ctx 2 (rGroup b) p.src (rTag b) (rEpoch b))
  else if rStep b = (step + 1) % 2 ^ 32 ∧ rAttempt b = 0 ∧ st = .voted then some (s.redHold p 1)
  else if rStep b = step ∧ rAttempt b = (att + 1) % 256 then some (s.redHold p 2)
  else if rStep b ≠ step ∨ rAttempt b ≠ att % 256 ∨ s.keyClosed p.ctx (rGroup b) (rTag b) then some (s.bump redStaleId)
  else s.redProcess p

/-- Held packets whose wait has ended are treated again by R276, each with its buffer returned first. -/
def State.redResume (s : State) (ctx until_ : Nat) : State :=
  let hs := s.red.held.filter (fun h => h.pkt.ctx == ctx && h.until_ == until_)
  let s := s.setRed { s.red with held := s.red.held.filter (fun h => !(h.pkt.ctx == ctx && h.until_ == until_)) }
  hs.foldl (fun s h =>
    let s := s.redGive ctx (rGroup h.pkt.body) h.shared
    (s.redTreat h.pkt).getD (s.bump redStaleId)) s

/-- Held packets are discarded (R276). -/
def State.redDiscardHeld (s : State) (ctx until_ : Nat) : State :=
  let hs := s.red.held.filter (fun h => h.pkt.ctx == ctx && h.until_ == until_)
  let s := s.setRed { s.red with held := s.red.held.filter (fun h => !(h.pkt.ctx == ctx && h.until_ == until_)) }
  hs.foldl (fun s h => s.redGive ctx (rGroup h.pkt.body) h.shared) s

/-- The reductions of a context are abandoned: every key and drain goes with its buffers (R280). -/
def State.redAbandon (s : State) (ctx : Nat) : State :=
  let s := (s.red.keys.filter (fun k => k.ctx == ctx)).foldl (fun s k => s.closeKey k) s
  s.setRed { s.red with drains := s.red.drains.filter (fun d => match s.emitTile d.core d.seq with
    | some x => x.ctx != ctx
    | none => false) }

/-- No key counts as failed or completed: a new step, attempt or epoch begins. -/
def State.redFresh (s : State) (ctx : Nat) : State := s.modRedc ctx ({ · with closed := [] })

/-- PENDING: keys held, and keys of held packets (R280). -/
def State.redPending (s : State) (ctx : Nat) : Nat :=
  ((s.red.keys.filter (fun k => k.ctx == ctx)).map (fun k => (k.group, k.tag)) ++
    (s.red.held.filter (fun h => h.pkt.ctx == ctx)).map (fun h => (rGroup h.pkt.body, rTag h.pkt.body))).dedup.length

/-! The deadline (R277). -/

/-- REDUCE_DEADLINE_EXPIRY: the key fails, its buffers and its drain go, and the owner's signal is applied. -/
def State.redDeadline (ctx g tag : Nat) (s : State) : State :=
  match s.redKey ctx g tag with
  | none => s
  | some k =>
    if s.ftRead hubPs < k.firstAt + s.ov reduceDeadlineId * 1000 then s
    else
      let ds := s.red.drains.filter (fun d => match s.emitTile d.core d.seq with
        | some x => k.is x.ctx (emGroup x.desc) (emTag x.desc)
        | none => false)
      let s := (s.redErr ctx 1 g 0 tag 0).closeKey k
      let s := ds.foldl (fun s d => s.drainEnd d.core d.seq) s
      match k.deliv with
      | some (_, _, sig) => s.signalWord ctx sig
      | none => s

end Sys2Proof.Machine
end

