-- ==== Sys2Proof/Machine/Permute.lean ====
section
/-!
DEFINITION. The in-place permute collective (R282 to R285): its messages, the combination of replies along the block's
lines, its two phases and its ends.
Choices and readings that the model fixes here: log 19.
-/

namespace Sys2Proof.Machine

/-! Fields of PERMUTE_CTRL (R282). -/

def Perm.table (p : Perm) : Nat := bits p.ctrl 0 64
def Perm.stage (p : Perm) : Nat := bits p.ctrl 64 64
def Perm.entries (p : Perm) : Nat := bits p.ctrl 128 32
def Perm.epoch (p : Perm) : Nat := bits p.ctrl 160 16
def Perm.signal (p : Perm) : Nat := bits p.ctrl 192 32

/-- A permute is in progress. -/
def Perm.busy (p : Perm) : Bool := decide (1 ≤ p.st) && decide (p.st ≤ 3)

/-- Body of a permute message (R284); COUNT 32,768 is sent as 0. -/
def permBody (kind ctx round epoch count pend sent recv reason : Nat) : List Byte :=
  mkBody 40 [(0, 8, 0x64), (8, 4, kind), (12, 4, ctx), (16, 16, round), (32, 16, epoch), (48, 16, count % 32768),
    (64, 64, pend), (128, 64, sent), (192, 64, recv), (256, 8, reason)]

/-- The home sends a message down the tree. -/
def State.permDown (s : State) (ctx kind round reason : Nat) : State :=
  s.treeSend hubSelf 0 ctx (permBody kind ctx round (s.perm ctx).epoch 0 0 0 0 reason)

/-- Context that a message names (R284). -/
def pCtx (p : Packet) : Nat := p.field 12 4

/-- A message that this module takes: from the block, for the permute it has joined (R284). -/
def State.permOk (s : State) (p : Packet) (st : List Nat) : Bool :=
  let x := s.perm (pCtx p)
  s.inBlock (pCtx p) p.src && st.contains x.st && p.field 32 16 == x.epoch

/-- A message arrives for the command of one KIND: acted on, left to its own command, or, where reserved, discarded (R284). -/
def State.permMsg (kind : Nat) (act : Packet → State → State) (p : Packet) (s : State) : State :=
  let k := p.field 8 4
  if k = kind then act p s else if 9 ≤ k then s.taken p else s

/-! Replies. -/

/-- Adds a reply, in place of an earlier one of the same source. -/
def Perm.reply (p : Perm) (r : PermReply) : Perm := { p with replies := p.replies.filter (fun x => x.src != r.src) ++ [r] }

/-- KIND of the reply that a stage awaits: COUNT, PHASE1_DONE, PHASE2_DONE. -/
def Perm.awaits (p : Perm) : Nat := 2 * p.st - 1

/-- The home decides on complete replies (R283): balanced sums twice declare the block drained; complete phases go on, each
stage beginning at the home's message (R284, R285). -/
def State.permDecide (s : State) (ctx : Nat) (count pend sent recv : Nat) : State :=
  let p := s.perm ctx
  if count ≠ s.blockSize ctx ∨ p.failed then s
  else if p.st = 1 then
    if pend ≠ 0 ∨ sent ≠ recv then s.setPerm ctx { p with lastSums := none }
    else if p.lastSums = some (sent, recv) then (s.setPerm ctx { p with stageAt := s.ftRead hubPs }).permDown ctx 2 0 0
    else s.setPerm ctx { p with lastSums := some (sent, recv) }
  else (s.setPerm ctx { p with stageAt := s.ftRead hubPs }).permDown ctx (if p.st = 2 then 4 else 6) 0 0

/-- Sends the combined reply onward, or decides at the home, once this module's own reply and those from beyond are
here (R284). -/
def State.permCombine (s : State) (ctx : Nat) : State :=
  let p := s.perm ctx
  let rs := p.replies.filter (fun r => r.kind == p.awaits && r.round == (if p.st = 1 then p.round else 0))
  let have_ := rs.map (·.src)
  if p.told || !(p.own && (s.me :: s.linePrev ctx).all have_.contains) then s
  else
    let rs := rs.filter (fun r => (s.me :: s.linePrev ctx).contains r.src)
    let count := (rs.map (·.count)).sum
    let pend := (rs.map (·.pend)).sum
    let sent := (rs.map (·.sent)).sum
    let recv := (rs.map (·.recv)).sum
    let s := s.setPerm ctx { p with told := true }
    match s.lineNext ctx with
    | none => s.permDecide ctx count pend sent recv
    | some d => s.lineSend ctx d (permBody p.awaits ctx (if p.st = 1 then p.round else 0) p.epoch count pend sent recv 0)

/-- This module's own reply to the stage in progress. -/
def State.permOwn (s : State) (ctx : Nat) : State :=
  let p := s.perm ctx
  let c := s.redc ctx
  let r : PermReply := if p.st = 1 then ⟨s.me, 1, p.round, 1, s.redPending ctx, c.sent, c.received⟩
    else ⟨s.me, p.awaits, 0, 1, 0, 0, 0⟩
  (s.setPerm ctx ({ p with own := true }.reply r)).permCombine ctx

/-- A stage begins: replies to earlier ones no longer count. -/
def State.permStage (s : State) (ctx st : Nat) : State :=
  s.modPerm ctx (fun p => { p with
    st := st
    own := false
    told := false
    replies := p.replies.filter (fun r => r.kind == 2 * st - 1) })

/-- Answers a drain round (R283, R284). -/
def State.permAnswer (s : State) (ctx round : Nat) : State :=
  (s.modPerm ctx (fun p => { p with round := round, told := false, own := false })).permOwn ctx

/-- PERMUTE_CTRL with GO accepted: the module joins (R283) and answers a COUNT_REQ it has held (R284). -/
def State.permJoin (s : State) (ctx v : Nat) : State :=
  let old := s.perm ctx
  let n := s.sched.nextSeq
  let s := s.setSched { s.sched with nextSeq := (n + 1) % 2 ^ 48 }
  let s := s.setPerm ctx
    { st := 1
      ctrl := setBits v 176 1 1
      joinSeq := n
      heldReq := none
      own := false
      round := 0
      replies := old.replies
      told := false
      lastSums := none
      stageAt := s.ftRead hubPs
      askedAt := none
      failed := false
      acks := [] }
  match old.heldReq with
  | some q => if q.field 32 16 = (s.perm ctx).epoch then s.permAnswer ctx (q.field 16 16) else s
  | none => s

/-- PERMUTE_DRAIN_ROUND: every 10 µs the home asks for counts; a round left incomplete breaks the run of two (R283). -/
def State.permRound (ctx : Nat) (s : State) : State :=
  let p := s.perm ctx
  let due : Bool := match p.askedAt with
    | none => true
    | some t => decide (t + 10000 ≤ s.clk)
  if p.st = 1 ∧ s.lineNext ctx = none ∧ s.inBlock ctx s.me ∧ due = true then
    let n := (p.round + 1) % 65536
    (s.setPerm ctx { p with
      askedAt := some s.clk
      stageAt := if p.askedAt = none then s.ftRead hubPs else p.stageAt
      round := n
      own := false
      lastSums := if p.told then p.lastSums else none
      told := false }).permDown ctx 0 n 0
  else s

/-- COUNT_REQ: answered by a module that has joined, held by one that has not (R284). -/
def State.countReq (p : Packet) (s : State) : State :=
  let c := pCtx p
  let s := s.taken p
  if s.inBlock c p.src = false then s
  else if (s.perm c).busy then if s.permOk p [1] then s.permAnswer c (p.field 16 16) else s
  else s.modPerm c ({ · with heldReq := some p })

/-- A combined reply from beyond (R284). -/
def State.permReplied (p : Packet) (kind : Nat) (s : State) : State :=
  let c := pCtx p
  let s := s.taken p
  if s.permOk p [1, 2, 3] = false then s
  else
    let n := p.field 48 16
    let r : PermReply := ⟨p.src, kind, p.field 16 16, if n = 0 then 32768 else n, p.field 64 64, p.field 128 64, p.field 192 64⟩
    (s.modPerm c (·.reply r)).permCombine c

/-- One move entry (R282): SRC, DST, LENGTH and whether it is valid. -/
def State.moveEntry (s : State) (p : Perm) (i : Nat) : Nat × Nat × Nat × Bool :=
  let v := leNat (s.loadDev (p.table + 32 * i) 32)
  let a := bits v 0 64
  let d := bits v 64 64
  let n := bits v 128 32
  (a, bits d 0 57, n, a % 16 == 0 && d % 16 == 0 && n % 16 == 0 && decide (16 ≤ n) && decide (d < 2 ^ 57) && bits v 160 96 == 0)

/-- The move list. -/
def State.moves (s : State) (p : Perm) : List (Nat × Nat × Nat × Bool) := (List.range p.entries).map (s.moveEntry p)

/-- PHASE1_GO (R283). -/
def State.phase1Go (p : Packet) (s : State) : State :=
  let t := s.taken p
  if s.permOk p [1] then t.permStage (pCtx p) 2 else t

/-- PERMUTE_PHASE1_COPY_DONE: every entry checked, then each source range copied into STAGE, in order and packed (R283);
an invalid entry is reported straight to the home (R284, R285). -/
def State.phase1Copy (ctx : Nat) (s : State) : State :=
  let p := s.perm ctx
  if p.st ≠ 2 ∨ p.own then s
  else
    let ms := s.moves p
    if ms.all (fun m => m.2.2.2) then
      let r := ms.foldl (fun (q : State × Nat) m => (q.1.storeDev q.2 (q.1.loadDev m.1 m.2.2.1), q.2 + m.2.2.1)) (s, p.stage)
      r.1.permOwn ctx
    else
      (s.setPerm ctx { p with own := true, told := true }).send hubSelf 0 ctx (s.home ctx) (permBody 8 ctx 0 p.epoch 0 0 0 0 1)

/-- One WRITE of a permute's phase 2, if the region table permits it; what it refuses writes nothing and sets PROT_FAULT (R283,
R332, R333; log 19). -/
def State.permWrite (s : State) (ctx dev : Nat) (p : Nat × List Byte) : State :=
  let s := s.lookNote ctx p.2.length dev p.1 .write
  if s.permitted ctx p.2.length dev p.1 .write then
    (s.modPerm ctx (fun x => { x with acks := x.acks ++ [s.fab.nextTag] })).peerWrite hubFabric ctx dev p.1 p.2
  else s.fabFlag 0 dev

/-- Stores one staged range at its destination, on a peer or here, in WRITEs over VC2 (R283, R329, R335). -/
def State.permStore (s : State) (ctx a dst n : Nat) : State :=
  (writePieces n (gOff dst) (s.loadDev a n)).foldl (fun s p => s.permWrite ctx (gDev dst) p) s

/-- PHASE2_GO: STAGE is stored to the destination ranges (R283). -/
def State.phase2Go (p : Packet) (s : State) : State :=
  let t := s.taken p
  let c := pCtx p
  if s.permOk p [2] then
    let t := t.permStage c 3
    ((t.moves (t.perm c)).foldl (fun (q : State × Nat) m =>
      (q.1.permStore c q.2 m.2.1 m.2.2.1, q.2 + m.2.2.1)) (t, (t.perm c).stage)).1
  else t

/-- PERMUTE_PHASE2_STORES_ACKED: the routers' epoch becomes NEW_EPOCH and the module reports (R283). -/
def State.phase2Acked (ctx : Nat) (s : State) : State :=
  let p := s.perm ctx
  if p.st ≠ 3 ∨ p.own ∨ p.acks ≠ [] then s
  else (s.modRedc ctx ({ · with epoch := p.epoch })).permOwn ctx

/-- A new epoch takes effect: the three counts return to 0 (R280, R283). -/
def State.newEpoch (s : State) (ctx e : Nat) : State :=
  (s.modRedc ctx ({ · with epoch := e, sent := 0, received := 0, closed := [] })).setOv (layoutEpochId + ctx) e

/-- The end of a permute: GO clears and DONE_SIGNAL is applied (R283, R285). -/
def State.permEnd (s : State) (ctx st : Nat) : State :=
  let p := s.perm ctx
  (s.setPerm ctx { Perm.init with st := st, ctrl := setBits p.ctrl 176 1 0 }).signalWord ctx p.signal

/-- DONE (R283). -/
def State.permDone (p : Packet) (s : State) : State :=
  let t := s.taken p
  let c := pCtx p
  if s.permOk p [3] then (t.newEpoch c (t.perm c).epoch).permEnd c 4 else t

/-- FAILED (R285): a failure in phase 2 puts NEW_EPOCH in force. -/
def State.permFailed (p : Packet) (s : State) : State :=
  let t := s.taken p
  let c := pCtx p
  if s.permOk p [1, 2, 3] then (if (s.perm c).st = 3 then t.newEpoch c (t.perm c).epoch else t).permEnd c 5 else t

/-- The home decides FAILED, once (R285). -/
def State.permFail (s : State) (ctx reason : Nat) : State :=
  if (s.perm ctx).failed then s else (s.modPerm ctx ({ · with failed := true })).permDown ctx 7 0 reason

/-- ENTRY_INVALID at the home (R284, R285). -/
def State.entryInvalid (p : Packet) (s : State) : State :=
  let t := s.taken p
  if s.permOk p [1, 2, 3] ∧ s.lineNext (pCtx p) = none then t.permFail (pCtx p) (p.field 256 8) else t

/-- PERMUTE_STAGE_DEADLINE: at the home a stage has not completed within REDUCE_DEADLINE of its start, which is the home's
message that begins it: for the drain, its first COUNT_REQ (R283, R285). -/
def State.permDeadline (ctx : Nat) (s : State) : State :=
  let p := s.perm ctx
  if p.busy ∧ s.lineNext ctx = none ∧ (p.st ≠ 1 ∨ p.askedAt ≠ none) ∧
    p.stageAt + s.ov reduceDeadlineId * 1000 ≤ s.ftRead hubPs then s.permFail ctx 2
  else s

/-- A CONTEXT reset in a permute reports it to the home as an invalid entry (R284, R464). -/
def State.permReset (s : State) (ctx : Nat) : State :=
  let p := s.perm ctx
  if p.busy then s.send hubSelf 0 ctx (s.home ctx) (permBody 8 ctx 0 p.epoch 0 0 0 0 3) else s

end Sys2Proof.Machine
end

