-- ==== Sys2Proof/Machine/Discard.lean ====
section
/-!
DEFINITION. What a replay, a halt and a CONTEXT reset discard of a context (R259 steps 1 to 4, R280, R327, R464).
Choices and readings that the model fixes here: log 16.
-/

namespace Sys2Proof.Machine

/-- The context's tiles leave a core without records or signals, its slots and saved chains are freed (R259). -/
def Core.discard (c : Core) (ctx clk : Nat) : Core :=
  let ts := c.tiles.filter (fun x => x.ctx != ctx)
  { c with
    tiles := ts
    suspended := c.suspended.filter (fun x => x.ctx != ctx)
    slots := c.slots.filter (fun p => p.2.ctx != ctx)
    savedChains := c.savedChains.filter (fun x => x.1 != ctx)
    savedHeld := c.savedHeld.filter (· != ctx)
    idleFrom := if ts.isEmpty && !c.tiles.isEmpty then clk else c.idleFrom }

/-- Steps 2 to 4 of R259: accepted tiles, list entries, open exchanges and reductions go, with no record and no signal,
and the urn buffers that `p` selects are freed. -/
def State.discard (s : State) (ctx : Nat) (p : UrnBuf → Bool) : State :=
  let s := s.redAbandon ctx
  let s := allCores.foldl (fun s n => (s.modCore n (·.discard ctx s.clk)).assign n) s
  let s := s.setSched { s.sched with
    lists := tmap [] (fun l => l.filter (fun e => e.ctx != ctx)) s.sched.lists
    overflow := s.sched.overflow.filter (fun e => e.ctx != ctx) }
  let s := s.setFab { s.fab with tileReqs := s.fab.tileReqs.filter (fun r => r.ctx != ctx) }
  let s := s.setTxe { s.txe with
    opens := s.txe.opens.filter (fun x => x.ctx != ctx)
    busy := s.txe.busy.filter (fun x => x.ctx != ctx) }
  (s.urnFreeAll ctx p).urnDropReqs ctx

end Sys2Proof.Machine
end

