-- ==== Sys2Proof/Machine/Steps.lean ====
section
/-!
DEFINITION. Steps, the commit vote and its decisions (R251 to R262), gradient levels (R236, R237), the norm summer and
its ring (R247, R471, R472).
Choices and readings that the model fixes here: logs 16 and 20.
-/

namespace Sys2Proof.Machine

/-! Fields of STEP_CFG (R251). -/

def State.stepCfg (s : State) (ctx : Nat) : Nat := s.ov (stepCfgId + ctx)
def State.replayLimit (s : State) (ctx : Nat) : Nat := bits (s.stepCfg ctx) 96 4
def State.commitDeadline (s : State) (ctx : Nat) : Nat := bits (s.stepCfg ctx) 104 16 * 1000000

/-- This module is the home of a context's block. -/
def State.isHome (s : State) (ctx : Nat) : Bool := s.inBlock ctx s.me && s.lineNext ctx == none

/-! Votes and the home's decision. -/

/-- Votes of the current step and attempt. -/
def StepCtx.current (x : StepCtx) : List VoteRec := x.votes.filter (fun v => v.step == x.step && v.attempt == x.attempt)

/-- The home decides and tells the block (R255, R257). -/
def State.conclude (s : State) (ctx kind reason : Nat) : State :=
  let x := s.stp ctx
  (s.setStp ctx { x with decided := true }).treeSend hubSelf 0 ctx
    (commitBody 0x61 kind ctx x.step x.attempt reason 0)

/-- REPLAY, or HALT at the last permitted attempt (R257). -/
def State.decideFail (s : State) (ctx reason : Nat) : State :=
  s.conclude ctx (if (s.stp ctx).attempt + 1 = s.replayLimit ctx then 2 else 1) reason

/-- The home weighs the votes of the attempt in progress (R257); a FAIL vote with REASON NONE counts as LOCAL_FAIL. -/
def State.homeWeigh (s : State) (ctx : Nat) : State :=
  let x := s.stp ctx
  if s.isHome ctx = false ∨ x.decided ∨ (x.st ≠ .running ∧ x.st ≠ .voted) then s
  else
    let vs := x.current
    let first := ((vs.map (·.at_)) ++ [s.ftRead hubPs]).min?.getD (s.ftRead hubPs)
    let s := if vs = [] ∧ x.voteHeld = false then s else s.setStp ctx { x with firstVote := some (x.firstVote.getD first) }
    match (vs.filter (·.fail)).head? with
    | some v => s.decideFail ctx (if v.reason = 0 then 1 else v.reason)
    | none => if x.voteHeld ∧ 1 + (vs.map (·.count)).sum = s.blockSize ctx then s.conclude ctx 0 0 else s

/-- The module's own OK vote goes on once the combined votes from beyond are here (R255). -/
def State.voteCombine (s : State) (ctx : Nat) : State :=
  let x := s.stp ctx
  let vs := x.current
  match s.lineNext ctx with
  | none => s.homeWeigh ctx
  | some d =>
    if x.voteHeld ∧ (s.linePrev ctx).all (fun p => vs.any (fun v => v.src == p)) = true then
      let n := 1 + ((vs.filter (fun v => (s.linePrev ctx).contains v.src)).map (·.count)).sum
      (s.setStp ctx { x with voteHeld := false }).lineSend ctx d (commitBody 0x60 0 ctx x.step x.attempt 0 (n % 32768))
    else s

/-- Keeps a vote, in place of an earlier one of its source. -/
def StepCtx.keep (x : StepCtx) (v : VoteRec) : StepCtx :=
  { x with votes := x.votes.filter (fun y => !(y.src == v.src && y.fail == v.fail)) ++ [v] }

/-- STEP_VOTE: the take of DONE_COUNT, and the vote once the conditions of R254 hold. -/
def State.stepVote (ctx : Nat) (s : State) : State :=
  let x := s.stp ctx
  if s.stepsOn ctx = false ∨ x.st ≠ .running then s
  else
    let cfg := s.stepCfg ctx
    let e := s.syncEntry ctx (bits cfg 0 16)
    let n := bits cfg 16 14
    let take := !x.doneTaken && e.kind == 1 && e.waitOk && e.local_ && decide (n ≤ s.ctr e.phys)
    let s := if take then (s.setCtr e.phys (s.ctr e.phys - n)).setStp ctx { x with doneTaken := true } else s
    let x := s.stp ctx
    let busy := allCores.any (fun c => ((s.core c).tiles ++ (s.core c).suspended).any (fun t => t.ctx == ctx)) ||
      s.txe.opens.any (fun o => o.ctx == ctx) || s.txe.busy.any (fun o => o.ctx == ctx)
    if x.doneTaken = false ∨ busy ∨ s.redPending ctx ≠ 0 ∨ x.latch ≠ none ∨ x.failSent then s
    else if bits cfg 64 32 ≠ 0 ∧ bits cfg 64 32 ≠ x.updates then s.failVote ctx 3
    else (s.setStp ctx { x with st := .voted, voteHeld := true, votedAt := s.ftRead hubPs }).voteCombine ctx

/-- A vote at the home of an attempt already decided (R257): one of the current step, or one of a step that the run has
left behind since STEP_START. -/
def StepCtx.past (x : StepCtx) (v : VoteRec) : Bool :=
  (v.step == x.step && (decide (v.attempt < x.attempt) || (v.attempt == x.attempt && x.decided))) ||
    decide ((v.step + 2 ^ 32 - x.begun) % 2 ^ 32 < (x.step + 2 ^ 32 - x.begun) % 2 ^ 32)

/-- A vote that can only be of the attempt that follows a decision not yet applied here. -/
def StepCtx.next (x : StepCtx) (v : VoteRec) : Bool :=
  x.decided && ((v.step == x.step && v.attempt == x.attempt + 1) || (v.step == (x.step + 1) % 2 ^ 32 && v.attempt == 0))

/-- VOTE: combined along the line, or counted at the home (R255 to R257). -/
def State.vote (p : Packet) (s : State) : State :=
  let ctx := p.field 12 4
  let s := s.taken p
  let x := s.stp ctx
  let n := p.field 64 16
  let v : VoteRec := ⟨p.src, if n = 0 then 32768 else n, p.field 16 32, p.field 48 8, p.field 8 2 == 1, p.field 56 8,
    s.ftRead hubPs⟩
  if s.inBlock ctx p.src = false ∨ 1 < p.field 8 2 then s
  else if s.isHome ctx = false then if v.fail then s else (s.setStp ctx (x.keep v)).voteCombine ctx
  else if x.st ≠ .running ∧ x.st ≠ .voted then if v.fail then s else s.setStp ctx (x.keep v)
  else if x.past v then s
  else if x.decided then if x.next v then s.setStp ctx (x.keep v) else s
  else if v.step ≠ x.step then s.decideFail ctx 4
  else (s.setStp ctx (x.keep v)).homeWeigh ctx

/-- COMMIT_DEADLINE_EXPIRY at the home (R257). -/
def State.commitExpiry (ctx : Nat) (s : State) : State :=
  let x := s.stp ctx
  match x.firstVote with
  | some t =>
    if s.isHome ctx ∧ x.decided = false ∧ (x.st = .running ∨ x.st = .voted) ∧ t + s.commitDeadline ctx ≤ s.ftRead hubPs then
      s.decideFail ctx 5
    else s
  | none => s

/-! Gradient levels (R236, R237). -/

/-- The level for the next step and the hold count, from GF_CFG, the current level and hold count, and the statistics. -/
def nextLevel (cfg l hold : Nat) (g : GradStat) : Nat × Nat :=
  let eh := g.emax.getD 0 + (bits cfg 4 4 : Nat)
  let down := bits cfg 18 8
  if bits cfg 0 2 ≠ 0 then (bits cfg 0 2 - 1, 0)
  else if g.nz = 0 then (l, hold)
  else if 32 ≤ eh then (2, 0)
  else if g.nz < g.uf * 2 ^ bits cfg 8 5 ∧ l = 0 then (1, 0)
  else if (l = 2 ∧ eh ≤ 29) ∨ (l = 1 ∧ g.uf * 2 ^ bits cfg 13 5 ≤ g.nz) then
    if down ≤ hold + 1 then (l - 1, 0) else (l, hold + 1)
  else (l, 0)

/-- A layer at a step commit of a context: named in the committed attempt with statistics `g`, or not. -/
def GfState.commit (x : GfState) (cfg ctx step : Nat) (g : Option GradStat) : GfState :=
  match g with
  | none =>
    match x.pending with
    | (l, m) :: ps => { x with pending := (l, m ||| 2 ^ ctx) :: ps }
    | [] => x
  | some g =>
    let r := match x.pending with
      | (l, m) :: _ => if bit m ctx then nextLevel cfg l 0 g else (l, 0)
      | [] => nextLevel cfg x.level x.hold g
    { level := r.1, hold := r.2, emax := g.emax, uf := min g.uf 0xFFFFFFFF, nz := min g.nz 0xFFFFFFFF, step := step,
      pending := [] }

/-- Level decisions of a step commit (R237). -/
def State.decideLevels (s : State) (ctx : Nat) : State :=
  let x := s.stp ctx
  let layers := ((x.stats.map (·.1)) ++ (s.obj.gf.filter (fun p => p.2.pending != [])).map (·.1)).dedup
  layers.foldl (fun s l => s.setGf l ((s.gf l).commit (s.ov (gfCfgId + l)) ctx x.step (tget? x.stats l))) s

/-! Layouts (R281). -/

/-- Puts the context's committed layout set in force; a new epoch returns the counts to 0 (R280, R281). -/
def State.applyLayout (s : State) (ctx : Nat) : State :=
  let e := s.ov (layoutEpochId + ctx)
  s.modRedc ctx (fun c =>
    { c with
      sent := if e = c.epoch then c.sent else 0
      received := if e = c.epoch then c.received else 0
      epoch := e
      closed := if e = c.epoch then c.closed else []
      groups := ((List.range 4).map (fun g => (g, s.ov (redGroupId + 4 * ctx + g)))).filter (fun p => p.2 != 0)
      lists := (s.obj.redList.filter (fun p => p.1 / 256 == ctx)).map (fun p => (p.1 % 256, p.2))
      staged := false })

/-! The start of a step and the three decisions. -/

/-- STEP_START accepted (R253, R281): the run begins at step `n`. -/
def State.stepBegin (s : State) (ctx n : Nat) : State :=
  let s := s.recordSync ctx
  let s := if (s.redc ctx).staged then s.applyLayout ctx else s
  let s := s.modStp ctx (fun x => { x with
    st := .running
    attempt := 0
    step := n
    committed := (n + 2 ^ 32 - 1) % 2 ^ 32
    latch := none
    latchNext := none
    doneTaken := false
    updates := 0
    seed := s.ov (roundSeedId + ctx)
    failSent := false
    voteHeld := false
    votes := x.votes.filter (fun v => v.step == n && v.attempt == 0)
    begun := n
    firstVote := none
    decided := false
    stats := []
    norms := [] })
  ((((s.redFresh ctx).redResume ctx 0).alert).attemptFaults ctx).homeWeigh ctx

/-- A DECIDE that this module takes: of its block, and of its current step and attempt (R256, R262). -/
def State.decideOk (s : State) (p : Packet) (kind : Nat) : Bool :=
  let ctx := p.field 12 4
  let x := s.stp ctx
  s.inBlock ctx p.src && p.field 8 2 == kind && p.field 16 32 == x.step && p.field 48 8 == x.attempt &&
    (x.st == .running || x.st == .voted)

/-- What every attempt begins with. -/
def StepCtx.attemptBegins (x : StepCtx) : StepCtx :=
  { x with
    st := .running
    latch := none
    latchNext := none
    doneTaken := false
    updates := 0
    failSent := false
    voteHeld := false
    firstVote := none
    decided := false
    stats := []
    norms := [] }

/-- COMMIT (R258, R262); it waits for the norm summer of the step before (R247). -/
def State.commit (p : Packet) (s : State) : State :=
  let ctx := p.field 12 4
  let x := s.stp ctx
  if s.decideOk p 0 = false then s.taken p
  else if x.summing then s
  else
    let s := s.taken p
    let lv := s.levelOf ctx
    let s := (s.recordSync ctx).decideLevels ctx
    let sum := decide (bits (s.ov (normCfgId + ctx)) 0 64 ≠ 0)
    let s := s.setStp ctx { x.attemptBegins with
      step := (x.step + 1) % 2 ^ 32
      attempt := 0
      committed := x.step
      nondet := bit (s.stepCfg ctx) 31
      seed := s.ov (roundSeedId + ctx)
      votes := x.votes.filter (fun v => v.step == (x.step + 1) % 2 ^ 32 && v.attempt == 0)
      summing := sum
      sumStep := x.step
      summed := if sum then x.stats.map (fun q => (q.1, lv q.1, q.2)) else [] }
    let s := (s.redFresh ctx).redDiscardHeld ctx 2
    let s := s.signalOpt ctx (bits (s.stepCfg ctx) 32 16)
    let s := s.redResume ctx 1
    let s := match x.latchNext with
      | some r => s.latch ctx r
      | none => s
    (s.attemptFaults ctx).homeWeigh ctx

/-- The attempt's partial norms are discarded: the summer passes over their slots until another tile writes them (R247,
R259 step 6). -/
def StepCtx.loseNorms (x : StepCtx) : StepCtx :=
  { x with normsLost := x.normsLost ++ x.norms.filter (fun i => !x.normsLost.contains i), norms := [] }

/-- Steps 1 to 6 of R259 but for the counts. -/
def State.abandon (s : State) (ctx : Nat) : State :=
  (((s.discard ctx (fun b => !b.persist)).restoreSync ctx).redDiscardHeld ctx 1).modStp ctx StepCtx.loseNorms

/-- REPLAY (R259). -/
def State.replay (p : Packet) (s : State) : State :=
  let ctx := p.field 12 4
  let s' := s.taken p
  if s.decideOk p 1 = false then s'
  else
    let s := s'.abandon ctx
    let s := s.modStp ctx (fun x => { x.attemptBegins with
      attempt := x.attempt + 1
      replays := satAdd 32 x.replays 1
      reason := p.field 56 8
      votes := x.votes.filter (fun v => v.step == x.step && v.attempt == x.attempt + 1) })
    let s := s.redFresh ctx
    let s := s.signalOpt ctx (bits (s.stepCfg ctx) 48 16)
    let s := if ctx < 15 then s.interrupt ctx 2 else s
    ((s.redResume ctx 2).attemptFaults ctx).homeWeigh ctx

/-- HALT with a reason: R259's steps 1 to 6 but for ATTEMPT, so REPLAYS counts it (R260). -/
def State.halt (s : State) (ctx reason : Nat) : State :=
  let s := (s.abandon ctx).redDiscardHeld ctx 2
  let s := s.modStp ctx (fun x => { x.attemptBegins with
    st := .halted
    replays := satAdd 32 x.replays 1
    reason := reason
    votes := [] })
  let s := (s.redFresh ctx).alert
  if ctx < 15 then s.interrupt ctx 4 else s

/-- A HALT decision. -/
def State.haltRecv (p : Packet) (s : State) : State :=
  if s.decideOk p 2 then (s.taken p).halt (p.field 12 4) (p.field 56 8) else s.taken p

/-- DECISION_TIMEOUT: no decision within COMMIT_DEADLINE + 10 ms of the OK vote (R260). -/
def State.decisionTimeout (ctx : Nat) (s : State) : State :=
  let x := s.stp ctx
  if x.st = .voted ∧ x.votedAt + s.commitDeadline ctx + 10000000 ≤ s.ftRead hubPs then s.halt ctx 5 else s

/-! The norm summer (R247, R471, R472). -/

/-- One layer's totals: partial records summed, and the three sums. -/
structure NormSum where
  n : Nat
  sw : Fv
  sg : Fv
  su : Fv
  fl : Flags
deriving DecidableEq, Repr

/-- No record summed. -/
def NormSum.zero : NormSum := ⟨0, fvZero, fvZero, fvZero, flagNone⟩

/-- Adds one partial-norm record. -/
def NormSum.add (x : NormSum) (v : Nat) : NormSum :=
  let f := fun (lo : Nat) => decodeFloat .f32 (bits v lo 32)
  let a := f32Add x.sw (f 0)
  let b := f32Add x.sg (f 32)
  let c := f32Add x.su (f 64)
  ⟨x.n + 1, a.1, b.1, c.1, x.fl ||| a.2 ||| b.2 ||| c.2⟩

/-- Totals per layer of the records whose STEP matches, in slot order; a discarded partial norm is no record (R247, R259). -/
def State.normTotals (s : State) (ctx : Nat) : Tbl NormSum :=
  let cfg := s.ov (normCfgId + ctx)
  (List.range (bits cfg 64 16 + 1)).foldl (fun t i =>
    let v := leNat (s.loadDev (bits cfg 0 64 + 16 * i) 16)
    if bits v 112 16 = (s.stp ctx).sumStep % 65536 ∧ (s.stp ctx).normsLost.contains i = false then
      tins t (bits v 96 12) ((tget .zero t (bits v 96 12)).add v)
    else t) []

/-- One record of the norm ring (R471). -/
def normRecBytes (step layer : Nat) (gap : Bool) (e : Option (Nat × GradStat)) (x : NormSum) : List Byte :=
  let lv := match e with
    | some q => q.1
    | none => 3
  let g := match e with
    | some q => q.2
    | none => GradStat.zero
  let em := match g.emax with
    | some i => ofInt 16 i
    | none => 0x8000
  mkBody 32 [(0, 32, step), (32, 12, layer), (44, 2, lv), (46, 1, ofBool gap), (48, 16, min x.n 0xFFFF),
    (64, 32, f32Code x.sw), (96, 32, f32Code x.sg), (128, 32, f32Code x.su), (160, 16, em), (192, 32, min g.uf 0xFFFFFFFF),
    (224, 32, min g.nz 0xFFFFFFFF)]

/-- Writes one norm record, or counts it as lost (R472); the number written so far goes with the state. -/
def State.normWrite (ctx layer : Nat) (x : NormSum) (q : State × Nat) : State × Nat :=
  let s := q.1
  let r := s.ov (normRingId + ctx)
  let n := 256 * 2 ^ bits r 64 4
  let y := s.stp ctx
  let t := (y.normTail + 1) % n
  if t = s.ov (normRingHeadId + ctx) then (s.setStp ctx { y with normGap := true }, q.2)
  else
    ((s.storeDev (bits r 0 64 + 32 * y.normTail) (normRecBytes y.sumStep layer y.normGap (tget? y.summed layer) x)).setStp
      ctx { y with normTail := t, normGap := false }, q.2 + 1)

/-- NORM_SUMMER_DONE (R247, R471): totals published in ascending layer order, then SIGNAL(n). -/
def State.normDone (ctx : Nat) (s : State) : State :=
  if (s.stp ctx).summing = false then s
  else
    let ts := s.normTotals ctx
    let s := ts.foldl (fun s t => s.raise ctx t.2.fl) s
    let r := s.ov (normRingId + ctx)
    let q := if bits r 0 64 = 0 then (s, 0) else ts.foldl (fun q t => State.normWrite ctx t.1 t.2 q) (s, 0)
    let s := q.1.modStp ctx ({ · with summing := false, summed := [] })
    if q.2 = 0 then s else s.signal ctx (bits r 80 16) q.2

end Sys2Proof.Machine
end

