-- ==== Sys2Proof/Machine/Reset.lean ====
section
/-!
DEFINITION. The main domain off and on (R379, R395, R466), last-line stops (R379, R380), core positions and spares (R14,
R15), the resets (R463, R464), and what a power-on keeps (R434, R463).
Choices and readings that the model fixes here: log 26.
-/

namespace Sys2Proof.Machine

/-! Core positions (R12 to R15). -/

/-- Position of a logical core on its die: the map as substituted, else the manufacturing map, whose spares are the four
highest positions (log 5). -/
def State.posOf (s : State) (core : Nat) : Nat := tget (core % 64) s.sched.pos core

/-- A position by die and number. -/
def posKey (die p : Nat) : Nat := die * 68 + p

/-- Healthy spare positions of a die, lowest first (R14). -/
def State.spares (s : State) (die : Nat) : List Nat :=
  let used := ((List.range 64).map (fun i => s.posOf (64 * die + i)))
  (List.range 68).filter (fun p => !used.contains p && !s.sched.dead.contains (posKey die p))

/-- The logical number of a failed core passes to the lowest healthy spare, and the map is queued for the journal; with
none left it becomes OFFLINE (R14, R15, R27, R403). -/
def State.substitute (s : State) (core : Nat) : State :=
  let die := core / 64
  let old := posKey die (s.posOf core)
  match s.spares die with
  | p :: ps =>
    let s := s.setSched { s.sched with
      pos := tset (core % 64) s.sched.pos core p
      dead := s.sched.dead ++ [old] }
    let s := s.journal .coreMap
    if ps.length ≤ 1 then s.service 0 else s
  | [] =>
    ((s.setSched { s.sched with
      offline := s.sched.offline ++ [core]
      dead := s.sched.dead ++ [old] }).journal .coreMap).service 1

/-! The main domain. -/

/-- HOST reset (R463): the endpoint's configuration, the MSI-X tables, the control block, interrupts and queue pointers; the reader
directory is all 0 after it (R346). The PCIe link stays trained in a Function Level Reset alone, which is `flr`. -/
def State.hostReset (s : State) (flr : Bool) : State :=
  let h := s.host
  let s := s.setFab { s.fab with dir := [] }
  s.setHost { HostIf.init (s.ov bar2Log2Id) with
    up := h.up && flr
    gen := if flr then h.gen else 0
    width := if flr then h.width else 0
    flit := h.flit && flr
    pages := tmap .init (fun p => { p with
      sqTail := 0
      sqHead := 0
      cplHead := 0
      cplTail := 0
      sqHeld := none
      later := []
      intStatus := 0
      intMask := 0 }) h.pages
    mbx := tmap .init (fun m => { m with
      busy := false
      ready := false
      overrun := false
      len := 0 }) h.mbx
    readOut := h.readOut }

/-- What the main domain holds, beside the links and the host interface, is lost; the core map, the retired memory, the
error logs and the reference's presence stay (R463). -/
def State.mainLoss (s : State) : State :=
  { s with
    ft := { FabTime.init with refOk := s.ft.refOk }
    power := { s.power with
      main := .off
      rails := false
      seqRow := 0
      selfTest := false }
    kettle := s.kettle.off
    cores := []
    sched := { Sched.init with
      pos := s.sched.pos
      offline := s.sched.offline
      dead := s.sched.dead }
    txe := ⟨[], [], s.txe.errLog⟩
    sync := ⟨[], [], [], 0, []⟩
    mem := { Mem.init with
      retired := s.mem.retired
      retiring := s.mem.retiring }
    urn := .init
    fab := .init
    router := .init
    steps := []
    red := { Red.init with errLog := s.red.errLog } }

/-- The main rails go off: what the main domain holds is lost, the host interface with it, links go DOWN, the PCIe link goes
down, outstanding atomics are an uncovered fault (R289, R353, R379, R395, R463, R466). -/
def State.mainOff (s : State) : State :=
  let cs := s.atomCtxs (fun _ => true)
  let s := if cs = [] then s else s.uncovered 0x16 0 cs
  let s := allLinks.foldl (fun s l => s.linkFall l) s
  let s := s.setHost { HostIf.init (s.ov bar2Log2Id) with readOut := s.host.readOut }
  (allCtx.foldl (fun s c => s.applyLayout c) s.mainLoss.ftFresh).alert

/-- The cause of the stop in force is still present (R380). -/
def State.stopPresent (s : State) : Bool :=
  match s.power.stop with
  | some r =>
    if r.cause = 1 then !s.pins.coolantOk
    else if r.cause = 2 then s.power.hotSensors != []
    else s.power.hotStacks.contains r.unit
  | none => false

/-- Some last-line condition is present (R379, R466). -/
def State.lastLinePresent (s : State) : Bool :=
  !s.pins.coolantOk || s.power.hotSensors != [] || s.power.hotStacks != []

/-- A last-line condition stops the module; the write of STOP_CAUSE comes after at most the one in progress (R379, R380). -/
def State.lastLine (s : State) (cause unit temp : Nat) : State :=
  if s.power.rails = false then s
  else
    let r : StopRec := ⟨cause, unit, temp, s.ftRead hubPs⟩
    let s := s.mainOff
    let s := s.setPower { s.power with
      main := .stopped
      stop := some r
      halted := true }
    (s.setOut { s.out with faultPin := true }).journalNext (.stopCause r)

/-- A step of the main sequence fails (R466). -/
def State.seqFail (s : State) (row : Nat) : State :=
  (s.setPower { s.power with
    main := .failed
    failedStep := row }).setOut { s.out with faultPin := true }

/-- The main sequence begins where its conditions hold (R466, R485, R486, R488). -/
def State.mainBegin (s : State) : State :=
  if s.caddy.ready ∧ s.caddy.recovery = false ∧ s.pins.p5v ∧ s.pins.p50v ∧ s.lastLinePresent = false ∧
      s.power.main = .off ∧ s.power.losing = 0 then
    let s := s.setPower { s.power with
      main := .sequencing
      failedStep := 0
      seqStart := s.clk
      seqRow := 1
      stop := none
      halted := false }
    let s := s.setOut { s.out with faultPin := false }
    if s.pins.refclk then s else s.seqFail 1
  else s

/-- MAIN reset (R463): off and sequenced again. -/
def State.mainReset (s : State) : State := s.mainOff.mainBegin

/-! CONTEXT and COMPUTE (R463, R464). -/

/-- CONTEXT reset of a context (R464); the reader directory is all 0 after it (R346). -/
def State.ctxReset (s : State) (ctx : Nat) : State :=
  let x := s.stp ctx
  let s := s.permReset ctx
  let s := s.discard ctx (fun _ => true)
  let s := s.setStp ctx { StepCtx.init with
    replays := x.replays
    summing := x.summing
    sumStep := x.sumStep
    summed := x.summed
    normTail := x.normTail
    normGap := x.normGap }
  (s.setFab { s.fab with dir := [] }).alert

/-- Function Level Reset of a context's VF: its page and its configuration go too (R463). -/
def State.vfReset (s : State) (ctx : Nat) : State :=
  let t := (s.ctxReset ctx).setPage ctx .init
  t.setHost { t.host with
    msix := t.host.msix.filter (fun e => e.1 / 4096 != ctx + 1)
    pba := t.host.pba.filter (fun e => e.1 / 4096 != ctx + 1)
    aer := t.host.aer.filter (fun e => e.1 != ctx + 1) }

/-- Sync counters and the die lists' overflow are emptied (R463). -/
def State.clearSync (s : State) : State :=
  { s with
    sync := { s.sync with ctr := [] }
    sched := { s.sched with overflow := [] } }

/-- COMPUTE reset (R463). -/
def State.computeReset (s : State) : State :=
  let s := allCtx.foldl (fun s c => s.ctxReset c) s
  (allCores.foldl (fun s n => s.modCore n (fun c => { c with
    slots := []
    store := [] })) s).clearSync

/-! POWER_ON and MODULE (R463, R465). -/

/-- A link as a power-on leaves it: its failed laser sources are as they are. -/
def Link.cold (x : Link) : Link :=
  { Link.init with
    lasersFailed := x.lasersFailed
    laserSpare := x.laserSpare
    wire := x.wire }

/-- The state from which the standby sequence begins (R463, R465): everything at reset but the pins, the parts themselves,
flash and the model's own clock, outputs and queue. -/
def State.standbyCold (s : State) : State :=
  { State.reset with
    clk := s.clk
    ft := { FabTime.init with refOk := s.ft.refOk }
    pins := { s.pins with p5v := true }
    power := { Power.init with phases := s.power.phases }
    links := tmap .init Link.cold s.links
    caddy := { Caddy.init with
      m0 := s.caddy.m0
      m1 := s.caddy.m1
      m1Active := s.caddy.m1Active
      slotA := s.caddy.slotA
      slotB := s.caddy.slotB
      minSecRaised := s.caddy.minSecRaised }
    flash := { State.reset.flash with recs := s.flash.recs }
    out := { s.out with
      faultPin := false
      alertPin := false }
    free := s.free
    pending := s.pending }

/-- The SLOT_ID straps are read (R486). -/
def State.readSlot (s : State) : State := (s.setPins { s.pins with slotId := Config.slotPins s.free % 64 }).fresh

/-- A spare laser source stands in the place of another only where its record was complete (R27). -/
def State.recordedLasers (s : State) : State :=
  allLinks.foldl (fun s l => s.modLink l (fun x => { x with
    laserSpare := x.laserSpare.filter (fun w => s.flash.spares.contains (2, l * 5 + w, 4)) })) s

/-- BAR2 and fabric time stand as the restored objects say (R179, R454). -/
def State.afterRestore (s : State) : State := (s.setHost { s.host with bar2Log2 := s.ov bar2Log2Id }).ftFresh

/-- The standby sequence begins after a loss of power: what was persistent is what the journal's records hold (R394, R396,
R434). -/
def State.standbyOn (s : State) : State := s.standbyCold.restoreAll.recordedLasers.afterRestore

/-- What a reset that does not follow a loss of power keeps: every persistent record as it stands, also where its write
still waits (R13, R27, R434). -/
def State.keepJournal (s old : State) : State :=
  { s with
    sched := { s.sched with
      pos := old.sched.pos
      offline := old.sched.offline
      dead := old.sched.dead }
    mem := { s.mem with retired := old.mem.retired }
    caddy := { s.caddy with
      activeB := old.caddy.activeB
      fwPending := old.caddy.fwPending
      audit := old.caddy.audit
      auditCount := old.caddy.auditCount }
    obj := { s.obj with vals := old.obj.vals.filter (fun p => isPersistent p.1) }
    flash := { old.flash with
      notices := []
      code17 := false }
    ageing := { old.ageing with
      units := tmap .init (fun u => { u with samples := [] }) old.ageing.units
      biasSum := []
      busyTo := 0 } }

/-- MODULE reset (R463): links go DOWN and atomics are lost as in MAIN; the record of a stop keeps the main sequence
waiting for its cause to clear (R487), and FAULT# is released only when that sequence begins (R486). -/
def State.moduleReset (s : State) : State :=
  let old := s.mainOff
  let t := (old.standbyCold.keepJournal old).afterRestore.readSlot
  let t := t.setPower { t.power with
    stop := s.power.stop
    hotSensors := s.power.hotSensors
    hotStacks := s.power.hotStacks }
  t.setOut { t.out with faultPin := s.out.faultPin }

end Sys2Proof.Machine
end

