-- ==== Sys2Proof/Machine/Values.lean ====
section
/-!
DEFINITION. The value in force of every object as a READ returns it (R415, R437 to R452): objects whose fields stand in
the units' own state are formed here, every other one is its entry of the dictionary.
Choices and readings that the model fixes here: log 15.
-/

namespace Sys2Proof.Machine

/-- Bytes of text. -/
def ascii (cs : List Nat) : List Byte := cs.map (BitVec.ofNat 8)

/-- ORDER_CODE: TD-8800-48-M and its kin, padded with zero bytes (R2, R415). -/
def orderCode : List Byte :=
  padTo 16 (ascii ([84, 68, 45, 56, 56, 48, 48, 45] ++ (if Config.gddr64 then [54, 52] else [52, 56]) ++ [45] ++
    (if Config.pigtails then [80] else [77])))

/-- OWNER_STATE (R421). -/
def State.ownerState (s : State) : Nat :=
  let c := s.caddy
  let keys := ((List.range 4).map (fun k => ofBool (s.ov (masterKeyId + k) != 0) * 2 ^ k)).sum
  let hand := match c.handover with
    | some h => h.1
    | none => 15
  let o := match c.owner with
    | some o => o.cls + o.priority * 2 ^ 8 + (o.leaseEnd - s.clk) / 1000000 * 2 ^ 32 + o.session * 2 ^ 96
    | none => 15
  o + keys * 2 ^ 4 + hand * 2 ^ 16 + c.epoch * 2 ^ 64

/-- Code of a die's engine state (R383). -/
def Eng.code : Eng → Nat
  | .dual => 0
  | .single => 1
  | .denseOnly => 2

/-- OP_STATE (R383). -/
def State.opState (s : State) (d : Nat) : Nat :=
  let x := s.die d
  x.point + x.eng.code * 2 ^ 4 + x.q * 2 ^ 6 + x.limit * 2 ^ 9

/-- KETTLE_STATUS (R382). -/
def State.kettleStatus (s : State) : Nat :=
  let k := s.kettle
  ofBool k.unreach + ofBool k.brake * 2 + ofBool (allDies.any (fun d => (s.die d).isThermal)) * 4 +
    ofBool (allDies.any (fun d => (s.die d).matched.isSome)) * 8 + ofBool k.calRange * 16 + ofBool k.droopSeen * 32 +
    k.unreachCount * 2 ^ 16

/-- A power or an energy as a register field: whole units, at most the largest the field holds. -/
def fieldOf (w : Nat) (x : Rat) : Nat := min x.floor.toNat (2 ^ w - 1)

/-- PWR_NOW (R378, R383): the floor is the estimate of the braked state; 0 while the kettle has no power (R440). -/
def State.pwrNow (s : State) : Nat :=
  let k := s.kettle
  if s.power.rails then
    min k.measured 65535 + fieldOf 16 (meanOf 1000 s.moduleHist) * 2 ^ 16 + k.floor * 2 ^ 32 +
      fieldOf 16 (k.gain * 4096) * 2 ^ 48
  else 0

/-- PHASE_ENERGY of a tag in mW (R367). -/
def State.phaseEnergyMw (s : State) (p : Nat) : Nat :=
  match tget? s.kettle.energy p with
  | some e => fieldOf 32 (e * 1000)
  | none => 0xFFFFFFFF

/-- STOP_CAUSE (R380). -/
def StopRec.word (r : StopRec) : Nat := r.cause + r.unit * 2 ^ 8 + r.temp * 2 ^ 16 + r.time * 2 ^ 64

/-- Code of a link's state (R441). -/
def LinkSt.code : LinkSt → Nat
  | .down => 0
  | .training => 1
  | .active => 2
  | .degraded => 3
  | .miscabled => 4

/-- LINK_STATUS (R441). -/
def Link.status (x : Link) : Nat :=
  let spared := (x.spareRx ++ x.spareTx).foldl (fun v p => v ||| 2 ^ p.1) 0
  x.st.code + (if x.st = .down then 0 else x.width) * 2 ^ 3 + x.nbr * 2 ^ 16 + (x.failRx ||| x.failTx) * 2 ^ 32 +
    spared * 2 ^ 52

/-- GDDR_STATUS (R442). -/
def State.gddrStatus (s : State) : Nat :=
  (match s.mem.gddr with
    | .training => 0
    | .online => 1
    | .offline => 2) + s.mem.gddrRate * 2 ^ 8

/-- URN_FREE of a pool (R328). -/
def State.urnFreeNow (s : State) (pool : Nat) : Nat :=
  if pool < 8 then s.urnFreeCount pool else s.urnCount 8 - s.redUsed

/-- Code of a step's state (R252). -/
def StepSt.code : StepSt → Nat
  | .idle => 0
  | .running => 1
  | .voted => 2
  | .replaying => 3
  | .halted => 4

/-- STEP_STATUS (R252). -/
def StepCtx.status (x : StepCtx) : Nat :=
  x.st.code + ofBool x.nondet * 2 ^ 3 + x.attempt * 2 ^ 4 + x.reason * 2 ^ 16 + x.step * 2 ^ 32 + x.committed * 2 ^ 64 +
    x.replays * 2 ^ 96

/-- RED_STATUS (R280). -/
def State.redStatus (s : State) (c : Nat) : Nat :=
  let r := s.redc c
  let p := s.perm c
  (if p.st = 3 then s.ov (layoutEpochId + c) else r.epoch) + p.st * 2 ^ 16 + s.redPending c * 2 ^ 32 + r.sent * 2 ^ 64 +
    r.received * 2 ^ 96

/-- PERMUTE_CTRL: GO reads 1 until DONE or FAILED (R282). -/
def State.permuteCtrl (s : State) (c : Nat) : Nat := setBits (s.perm c).ctrl 176 1 (ofBool (s.perm c).busy)

/-- GF_STATE (R236, R238): a level that a GF_CFG commit has set shows once a context has committed a step since. -/
def GfState.word (g : GfState) : Nat :=
  let r := match g.pending.find? (fun p => p.2 != 0) with
    | some p => (p.1, 0)
    | none => (g.level, g.hold)
  let e := match g.emax with
    | some e => ofInt 16 e
    | none => 0x8000
  r.1 + r.2 * 2 ^ 2 + e * 2 ^ 16 + g.uf * 2 ^ 32 + g.nz * 2 ^ 64 + g.step * 2 ^ 96

/-- AGEING_STATE (R398). -/
def State.ageingState (s : State) (u : Nat) : Nat :=
  let a := s.age u
  let v := match tget? a.vmin 13 with
    | some x => x.1
    | none => Config.vminMade u 13
  a.dvMean + a.dvMax * 2 ^ 16 + v % 2 ^ 16 * 2 ^ 32 + a.hours * 2 ^ 64 + a.forecast * 2 ^ 96

/-- LASER_BIAS of a link (R398). -/
def State.laserBiasWord (s : State) (l : Nat) : Nat :=
  ((List.range 5).map (fun k => tget 4096 s.ageing.bias (l * 5 + k) * 2 ^ (16 * k))).sum

/-- EVAL_STATUS (R479). -/
def State.evalStatus (s : State) : Nat :=
  ofBool s.evalOn + s.tele.parity * 2 + ofBool (allDies.any (fun d => (s.dieList d).any s.updateHeld)) * 4 + s.kettle.evalQ * 2 ^ 8

/-- Code of a fabric time state (R179). -/
def FtSt.code : FtSt → Nat
  | .free => 0
  | .acquiring => 1
  | .locked => 2
  | .holdover => 3
  | .rootUnset => 4
  | .root => 5

/-- FT_STATUS (R179). -/
def FabTime.status (f : FabTime) : Nat :=
  f.st.code + f.parent.getD 7 * 2 ^ 3 + f.depth * 2 ^ 6 + ofInt 32 (max (-(2 ^ 31 - 1)) (min (2 ^ 31 - 1) f.offset)) * 2 ^ 32

/-- PCIE_STATUS (R451). -/
def HostIf.pcieStatus (h : HostIf) : Nat := h.gen + h.width * 2 ^ 3 + ofBool h.flit * 2 ^ 8

/-- MAIN_STATE (R467). -/
def MainSt.code : MainSt → Nat
  | .off => 0
  | .sequencing => 1
  | .ready => 2
  | .stopped => 3
  | .failed => 4

/-- SELF_TEST_RESULT (R467). -/
def Power.selfTestResult (p : Power) : Nat :=
  p.main.code + p.failedStep * 2 ^ 8 + p.coreFails * 2 ^ 16 + p.readyMs % 2 ^ 32 * 2 ^ 32

/-- A commit object's read-only fields (R416). -/
def AreaSt.word (a : AreaSt) : Nat :=
  a.lastStatus * 2 ^ 8 + ofBool a.pending * 2 ^ 16 + a.commits * 2 ^ 32 + a.firstObj * 2 ^ 64 + a.firstIndex * 2 ^ 96

/-- Commit state of an area. -/
def State.area (s : State) (a : Nat) : AreaSt := tget .init s.obj.area a
def State.setArea (s : State) (a : Nat) (x : AreaSt) : State :=
  s.setObj { s.obj with area := tset .init s.obj.area a x }

/-- Values of areas 0 to 3. -/
def State.valueLow (s : State) (id : Nat) : Nat :=
  if id = orderCodeId then leNat orderCode
  else if id = fwStatusId then s.caddy.fwStatus
  else if id = ownerStateId then s.ownerState
  else if budgetStateId ≤ id ∧ id < budgetStateId + 4 then (s.die (id - budgetStateId)).bstate
  else if phaseCostId ≤ id ∧ id < phaseCostId + 16 then tget 1 s.kettle.cost (id - phaseCostId)
  else if opStateId ≤ id ∧ id < opStateId + 4 then s.opState (id - opStateId)
  else if id = kettleStatusId then s.kettleStatus
  else if id = pwrNowId then s.pwrNow
  else if phaseEnergyId ≤ id ∧ id < phaseEnergyId + 16 then s.phaseEnergyMw (id - phaseEnergyId)
  else if id = stopCauseId then s.flash.stopCause.word
  else s.ov id

/-- Values of areas 4 to 8. -/
def State.valueMid (s : State) (id : Nat) : Nat :=
  if linkStatusId ≤ id ∧ id < linkStatusId + 6 then (s.link (id - linkStatusId)).status
  else if id = gddrStatusId then s.gddrStatus
  else if urnFreeId ≤ id ∧ id < urnFreeId + 9 then s.urnFreeNow (id - urnFreeId)
  else if id = atomicCacheUsedId then s.fab.resp.length
  else if stepStatusId ≤ id ∧ id < stepStatusId + 16 then (s.stp (id - stepStatusId)).status
  else if id = exchErrLogId then s.txe.errLog
  else if id = redErrLogId then s.red.errLog
  else if permuteCtrlId ≤ id ∧ id < permuteCtrlId + 16 then s.permuteCtrl (id - permuteCtrlId)
  else if redStatusId ≤ id ∧ id < redStatusId + 16 then s.redStatus (id - redStatusId)
  else if gfStateId ≤ id ∧ id < gfStateId + 4096 then (s.gf (id - gfStateId)).word
  else s.ov id

/-- Values of areas 9 to F. -/
def State.valueHigh (s : State) (id : Nat) : Nat :=
  if id = powerLossLogId then s.flash.powerLog
  else if ageingStateId ≤ id ∧ id < ageingStateId + 5 then s.ageingState (id - ageingStateId)
  else if laserBiasId ≤ id ∧ id < laserBiasId + 6 then s.laserBiasWord (id - laserBiasId)
  else if retentionMarginId ≤ id ∧ id < retentionMarginId + 4 then tget 8 s.ageing.retention (id - retentionMarginId)
  else if id = poweredHoursId then s.ageing.hours
  else if id = serviceFlagsId then s.flash.service
  else if id = serviceAckId then s.flash.ack
  else if idleCyclesId ≤ id ∧ id < idleCyclesId + 12 then tget 0 s.tele.idle (id - idleCyclesId)
  else if phaseCyclesId ≤ id ∧ id < phaseCyclesId + 16 then tget 0 s.tele.phase (id - phaseCyclesId)
  else if id = evalStatusId then s.evalStatus
  else if id = ftNowId then s.ftRead mgmtPs
  else if id = ftStatusId then s.ft.status
  else if id = pcieStatusId then s.host.pcieStatus
  else if id = selfTestResultId then s.power.selfTestResult
  else s.ov id

/-- Value in force of an object as a READ returns it. -/
def State.value (s : State) (id : Nat) : Nat :=
  if id % 65536 = 1 then (s.area (id / 65536)).word
  else if id < 0x40000 then s.valueLow id
  else if id < 0x90000 then s.valueMid id
  else s.valueHigh id

/-! BLOCK and LIST objects. -/

/-- Entries of a BLOCK object from an index, at most 4,096 bytes of them: of the staged table where `staged` (R415). -/
def blockRead (force staged : Tbl Nat) (useStaged : Bool) (base count width sub : Nat) : List Byte :=
  ((List.range (min (count - sub) (4096 / width))).map (fun i =>
    let k := base + sub + i
    let v := tget 0 force k
    toLE width (if useStaged then tget v staged k else v))).flatten

/-- A LIST READ: the count, then at most `most` of the entries from index `sub` on; a SUB at or beyond the last index returns
no entries (R415; log 15). -/
def listRead (count sub most : Nat) (entries : List (List Byte)) : List Byte :=
  toLE 4 count ++ (if entries.length ≤ sub + 1 then [] else ((entries.drop sub).take most).flatten)

/-- One entry of CORE_MAP (R443). -/
def State.coreMapEntry (s : State) (n : Nat) : List Byte :=
  toLE 2 (s.posOf n + ofBool (s.sched.offline.contains n) * 2 ^ 15)

/-- One entry of MEM_RETIRE_LIST (R305). -/
def Retired.bytes (r : Retired) : List Byte :=
  toLE 8 r.addr ++ toLE 2 (r.spare + r.memory * 2 ^ 10) ++ toLE 1 r.cause ++ toLE 1 0 ++ toLE 4 r.hours

/-- A READ of a BLOCK or LIST object, none where the ID names neither. -/
def State.tableRead (s : State) (id sub : Nat) (staged : Bool) : Option (List Byte) :=
  let o := s.obj
  if id = regionBlockId then some (blockRead o.region o.regionS staged 0 65536 32 sub)
  else if syncMapBlockId ≤ id ∧ id < syncMapBlockId + 16 then
    some (blockRead o.syncMap o.syncMapS staged ((id - syncMapBlockId) * 65536) 65536 8 sub)
  else if expertMapBlockId ≤ id ∧ id < expertMapBlockId + 64 then
    some (blockRead o.expert o.expertS staged ((id - expertMapBlockId) * 4096) 4096 32 sub)
  else if redListBlockId ≤ id ∧ id < redListBlockId + 16 then
    some (blockRead o.redList o.redListS staged ((id - redListBlockId) * 256) 256 64 sub)
  else if id = auditLogId then some (listRead s.caddy.auditCount sub 64 s.caddy.audit)
  else if id = memRetireListId then
    some (listRead s.mem.retired.length sub 64 (s.mem.retired.map Retired.bytes))
  else if id = coreMapId then some (listRead 256 sub 256 (allCores.map s.coreMapEntry))
  else if id = faultLogId then some (listRead s.flash.total sub 16 s.flash.log)
  else none

/-- Clears an RC object (R415, R436). -/
def State.clearRc (s : State) (id : Nat) : State :=
  if id = memErrLogId then s.setOv memErrLogId 0
  else if id = exchErrLogId then s.setTxe { s.txe with errLog := 0 }
  else if id = redErrLogId then s.setRed { s.red with errLog := 0 }
  else s

end Sys2Proof.Machine
end

