-- ==== Sys2Proof/Machine/Commit.lean ====
section
/-!
DEFINITION. What an APPLY checks of an area's staged set (R416, R435), area by area: the ranges of the catalogue and the
rules of the governing chapters.
Choices and readings that the model fixes here: log 15.
-/

namespace Sys2Proof.Machine

/-- A finding of a check: the reply's status, the object and the entry or instance. -/
abbrev Finding := Nat × Nat × Nat

/-- The finding COMMIT_REJECTED for an object and an index where `bad` holds. -/
def rejectIf (bad : Bool) (id idx : Nat) : List Finding := if bad then [(0x10, id, idx)] else []

/-- Staged scalar values of an area. -/
def State.stagedOf (s : State) (area : Nat) : List (Nat × Nat) := s.obj.staged.filter (fun p => p.1 / 65536 == area)

/-- The staged value differs from the value in force. -/
def State.differs (s : State) (id : Nat) : Bool := s.sv id != s.ov id

/-- A table with its staged entries put in. -/
def merge (force staged : Tbl Nat) : Tbl Nat := staged.foldl (fun t p => tset 0 t p.1 p.2) force

/-- Staged entries that differ from the table in force. -/
def changedIn (force staged : Tbl Nat) : List (Nat × Nat) := staged.filter (fun p => tget 0 force p.1 != p.2)

/-- Values outside the ranges of the catalogue (R435). -/
def State.rangeFaults (s : State) (area : Nat) : List Finding :=
  (s.stagedOf area).flatMap (fun p =>
    match objRow p.1 with
    | some r => rejectIf (!inRange r p.2) p.1 (p.1 - r.base)
    | none => [])

/-- Area 1 (R418): the owner's class may not be left without a key while another class has one. -/
def State.faults1 (s : State) : List Finding :=
  match s.caddy.owner with
  | some o => rejectIf (s.sv (masterKeyId + o.cls) == 0 && (List.range 4).any (fun c => s.sv (masterKeyId + c) != 0))
      (masterKeyId + o.cls) o.cls
  | none => []

/-- A region entry that R331 rejects. -/
def regionBad (v : Nat) : Bool :=
  let r := Region.of v
  r.valid && (bits v 41 23 != 0 || bits v 105 23 != 0 || bits v 167 9 != 0 || bits v 188 68 != 0 ||
    r.offset % 4096 != 0 || r.length % 4096 != 0 || r.length == 0 || decide (2 ^ 41 < r.offset + r.length) ||
    (!r.block && decide (0x8000 ≤ r.device)) || (r.cache && r.wr && !r.holder) || (r.cache && r.at_) ||
    (r.holder && !r.cache))

/-- Area 2 (R331, R344). -/
def State.faults2 (s : State) : List Finding :=
  allCtx.flatMap (fun c => rejectIf (decide (1 < s.sv (ctxCfgId + c))) (ctxCfgId + c) c) ++
    s.obj.regionS.flatMap (fun p => rejectIf (regionBad p.2) regionBlockId p.1)

/-- Area 3 (R384). -/
def State.faults3 (s : State) : List Finding :=
  let v := s.sv paceCfgId
  rejectIf (decide (bits v 16 16 < 200) || bits v 1 15 != 0) paceCfgId 0

/-- A VALID job block that breaks R175 under the staged dimensions and coordinates. -/
def State.blockBad (s : State) (c : Nat) : Bool :=
  let b := s.sv (jobBlockId + c)
  bit b 31 && (List.range 3).any (fun a =>
    let d := bits (s.sv torusDimId) (5 * a) 5 + 1
    let ext := bits b (16 + 5 * a) 5 + 1
    let x := bits (s.sv myCoordId) (5 * a) 5
    decide (d < ext) || decide (ext ≤ (x + 32 * d - bits b (5 * a) 5) % d))

/-- A step of the context is in progress (R175, R251). -/
def State.stepBusy (s : State) (c : Nat) : Bool :=
  let t := (s.stp c).st
  t == .running || t == .voted || t == .replaying

/-- Area 4 (R163, R170, R175). -/
def State.faults4 (s : State) : List Finding :=
  allLinks.flatMap (fun l =>
      let w := s.sv (linkWidthId + l)
      rejectIf (!(w == 4 || w == 8 || w == 16)) (linkWidthId + l) l) ++
    rejectIf (bit (s.sv myCoordId) 15 || (List.range 3).any (fun a =>
      decide (bits (s.sv torusDimId) (5 * a) 5 < bits (s.sv myCoordId) (5 * a) 5))) myCoordId 0 ++
    allCtx.flatMap (fun c => rejectIf (s.blockBad c || (s.differs (jobBlockId + c) && s.stepBusy c)) (jobBlockId + c) c)

/-! Area 5. -/

/-- Spare granules of a memory in use (R304). -/
def State.sparesUsed (s : State) (m : Nat) : List Nat :=
  (s.mem.retired.filter (fun r => r.memory == m)).map (·.spare)

/-- Address and CAUSE of a staged retirement. -/
def retAddr (v : Nat) : Nat := bits v 0 41
def retCause (v : Nat) : Nat := bits v 80 8

/-- A staged retirement that R306 rejects. -/
def State.retireBad (s : State) (v : Nat) : Bool :=
  bits v 41 23 != 0 || bits v 88 8 != 0 || retCause v == 0 || decide (4 < retCause v) || retAddr v % 65536 != 0 ||
    !s.mapped (retAddr v) || s.mem.retired.any (fun r => r.addr == retAddr v) ||
    decide (1 < (s.obj.retireS.filter (fun w => retAddr w == retAddr v)).length)

/-- Retirements (R306): RETIRE_INVALID, then RETIRE_POOL_FULL. -/
def State.retireFaults (s : State) : List Finding :=
  (s.obj.retireS.zipIdx.flatMap (fun p => if s.retireBad p.1 then [(0x11, memRetireBlockId, p.2)] else [])) ++
    (List.range 5).flatMap (fun m =>
      let n := (s.obj.retireS.filter (fun v => s.memOf (retAddr v) == some m)).length
      if 1024 < (s.sparesUsed m).length + n then [(0x12, memRetireBlockId, 0)] else [])

/-- Buffers that the staged quotas reserve in a class, 8 for the reduction pool (R319). -/
def State.reservedIn (s : State) (c : Nat) : Nat :=
  (allCtx.map (fun x =>
    let q := s.sv (urnQuotaId + x)
    if c = 8 then ((List.range 4).map (fun g => bits q (64 + 8 * g) 8)).sum
    else ((List.range 3).map (fun k => if bits q (16 * k) 3 = c then bits q (16 * k + 4) 12 else 0)).sum)).sum

/-- Staged count of a class. -/
def State.stagedCount (s : State) (c : Nat) : Nat := bits (s.sv urnPartitionId) (32 * c) 32

/-- Some buffer is allocated, granted or holds a chunk (R311). -/
def State.urnBusy (s : State) : Bool :=
  s.urn.bufs.any (fun p => p.2.held) || s.urn.grants != [] || decide (0 < s.redUsed)

/-- The partition (R311). -/
def State.partitionBad (s : State) : Bool :=
  decide (0x8000000 < ((List.range 8).map (fun c => s.stagedCount c * urnSize c)).sum + s.stagedCount 8 * 4096) ||
    (List.range 8).any (fun c => decide (1048575 < s.stagedCount c)) || decide (65535 < s.stagedCount 8) ||
    (s.differs urnPartitionId && s.urnBusy)

/-- A context's quota (R319). -/
def quotaBad (q : Nat) : Bool := bit q 3 || bit q 19 || bit q 35 || bits q 112 16 != 0

/-- A context's inbox (R325). -/
def State.inboxBad (s : State) (c : Nat) : Bool :=
  let v := s.sv (urnInboxId + c)
  bits v 0 12 != 0 || bits v 41 23 != 0 || decide (8 < bits v 64 4) || bits v 68 12 != 0 || bits v 110 18 != 0 ||
    (s.differs (urnInboxId + c) && s.urn.grants.any (fun g => g.ctx == c))

/-- A context's command ring (R337). -/
def State.fabQueueBad (s : State) (c : Nat) : Bool :=
  let v := s.sv (fabQueueId + c)
  bits v 0 12 != 0 || bits v 41 23 != 0 || decide (9 < bits v 64 4) || bits v 68 12 != 0 || bits v 96 32 != 0 ||
    (s.differs (fabQueueId + c) && s.fab.cmds.any (fun x => x.ctx == c))

/-- Area 5 (R306, R308, R311, R319, R325, R337). -/
def State.faults5 (s : State) : List Finding :=
  s.retireFaults ++
    rejectIf (s.partitionBad || (List.range 9).any (fun c => decide (s.stagedCount c < s.reservedIn c))) urnPartitionId 0 ++
    allCtx.flatMap (fun c =>
      rejectIf (quotaBad (s.sv (urnQuotaId + c))) (urnQuotaId + c) c ++
        rejectIf (s.inboxBad c) (urnInboxId + c) c ++ rejectIf (s.fabQueueBad c) (fabQueueId + c) c)

/-! Areas 6 to 8. -/

/-- A core holds an accepted tile (R85). DESIGN CHOICE (log 47): a tile suspended for a context switched out is one. -/
def State.anyTile (s : State) : Bool := s.cores.any (fun c => c.2.tiles != [] || c.2.suspended != [])

/-- A tile is accepted, by a core or by the TXE (R467). -/
def State.anyAccepted (s : State) : Bool := s.anyTile || s.txTiles != []

/-- A context's STEP_CFG (R251). -/
def State.stepCfgBad (s : State) (c : Nat) : Bool :=
  let v := s.sv (stepCfgId + c)
  bits v 101 3 != 0 || bits v 120 8 != 0 ||
    (bit v 30 && (bits v 16 14 == 0 || bits v 96 4 == 0 || bits v 104 16 == 0)) ||
    (s.differs (stepCfgId + c) && s.stepBusy c)

/-- A power of two from 256 to 65,536 (R121). -/
def ringEntriesOk (n : Nat) : Bool := (List.range 9).any (fun i => n == 256 * 2 ^ i)

/-- Area 6 (R68, R85, R121, R251). -/
def State.faults6 (s : State) : List Finding :=
  allCtx.flatMap (fun c =>
    rejectIf (s.sv (accSaveBaseId + c) % 4096 != 0) (accSaveBaseId + c) c ++
      rejectIf (s.differs (lsResidentId + c) && s.anyTile) (lsResidentId + c) c ++
      rejectIf (s.sv (cplRingBaseId + c) % 4096 != 0) (cplRingBaseId + c) c ++
      rejectIf (!ringEntriesOk (s.sv (cplRingEntriesId + c))) (cplRingEntriesId + c) c ++
      rejectIf (s.stepCfgBad c) (stepCfgId + c) c) ++
    rejectIf (decide (128 < (allCtx.map (fun c => s.sv (lsResidentId + c))).sum)) lsResidentId 0

/-- The staged map entry of an expert of a layer. -/
def State.stagedMap (s : State) (cfg e : Nat) : Nat :=
  let k := lyTable cfg * 4096 + e
  tget (tget 0 s.obj.expert k) s.obj.expertS k

/-- A VALID layer that R202 rejects for its own configuration or for its sections on this module. -/
def State.layerBad (s : State) (v : Nat) : Bool :=
  bit v 11 || bits v 87 41 != 0 || lyPolicy v == 3 || lyCapacity v == 0 || (lyPolicy v == 2 && !lyShared v) ||
    decide (64 < ((List.range (lyExperts v)).filter (fun e => (mapDevs (s.stagedMap v e)).contains s.me)).length)

/-- Area 7 (R202, R203): an invalid map entry is a finding of its expert map table. -/
def State.faults7 (s : State) : List Finding :=
  (List.range 4096).flatMap (fun l =>
    let v := s.sv (layerCfgId + l)
    if lyValid v then
      rejectIf (s.layerBad v) (layerCfgId + l) l ++
        (List.range (lyExperts v)).flatMap (fun e =>
          rejectIf (mapBad (s.stagedMap v e)) (expertMapBlockId + lyTable v) e)
    else [])

/-- A group descriptor that R263 rejects. -/
def redGroupBad (v : Nat) : Bool := bits v 9 23 != 0 || (bit v 0 && bits v 2 2 == 3)

/-- A member list that R265 rejects. -/
def redListBad (v : Nat) : Bool :=
  let n := bits v 0 5
  let devs := (List.range n).map (fun i => bits v (16 + 16 * i) 16)
  bits v 5 11 != 0 || devs.any (fun d => decide (0x8000 ≤ d)) || decide (devs.dedup.length ≠ devs.length) ||
    v / 2 ^ (16 + 16 * n) != 0

/-- A layer's level configuration that R236 rejects. -/
def gfCfgBad (v : Nat) : Bool :=
  bits v 26 6 != 0 || bits v 2 2 == 3 || bits v 18 8 == 0 || decide (bits v 13 5 < bits v 8 5)

/-- The staged layout set of a context differs from the one committed (R281). -/
def State.layoutDiffers (s : State) (c : Nat) : Bool :=
  s.differs (layoutEpochId + c) || (List.range 4).any (fun g => s.differs (redGroupId + 4 * c + g)) ||
    (changedIn s.obj.redList s.obj.redListS).any (fun p => p.1 / 256 == c)

/-- Area 8 (R236, R247, R263, R265, R281). -/
def State.faults8 (s : State) : List Finding :=
  allCtx.flatMap (fun c =>
    let v := s.sv (normCfgId + c)
    rejectIf (bits v 0 12 != 0 || bits v 80 48 != 0) (normCfgId + c) c ++
      rejectIf (s.layoutDiffers c && !s.stepsOn c && (decide (s.redPending c ≠ 0) || (s.perm c).busy)) (layoutEpochId + c) c) ++
    (s.stagedOf 8).flatMap (fun p =>
      if redGroupId ≤ p.1 ∧ p.1 < redGroupId + 64 then rejectIf (redGroupBad p.2) p.1 (p.1 - redGroupId)
      else if gfCfgId ≤ p.1 ∧ p.1 < gfCfgId + 4096 then rejectIf (gfCfgBad p.2) p.1 (p.1 - gfCfgId)
      else []) ++
    s.obj.redListS.flatMap (fun p => rejectIf (redListBad p.2) (redListBlockId + p.1 / 256) (p.1 % 256))

/-! Areas 9 to F. -/

/-- A sync map entry that R186 rejects by itself. -/
def syncEntryBad (v : Nat) : Bool :=
  let e := SyncEntry.of v
  e.kind == 3 || bit v 7 || bits v 22 2 != 0 || bits v 56 8 != 0 || (e.waitOk && (e.remote || e.multi)) ||
    (e.remote && e.multi) || (e.kind == 2 && e.phys % 4 != 0) || (e.onComplete != 0 && e.kind != 2)

/-- Area 9 (R186): each staged entry, and local counters that lie in a barrier group and are named as counters too. -/
def State.faults9 (s : State) : List Finding :=
  let all := merge s.obj.syncMap s.obj.syncMapS
  let groups := (all.filterMap (fun p =>
    let e := SyncEntry.of p.2
    if e.kind = 2 ∧ e.remote = false then some (e.phys / 4) else none)).dedup
  s.obj.syncMapS.flatMap (fun p => rejectIf (syncEntryBad p.2) (syncMapBlockId + p.1 / 65536) (p.1 % 65536)) ++
    all.flatMap (fun p =>
      let e := SyncEntry.of p.2
      rejectIf (e.kind == 1 && !e.remote && groups.contains (e.phys / 4)) (syncMapBlockId + p.1 / 65536) (p.1 % 65536))

/-- Area B (R470). -/
def State.faultsB (s : State) : List Finding :=
  allCtx.flatMap (fun c =>
    let v := s.sv (normRingId + c)
    rejectIf (bits v 0 12 != 0 || decide (8 < bits v 64 4) || bits v 68 12 != 0 || bits v 110 18 != 0) (normRingId + c) c)

/-- A range begins and ends in context-addressable memory (R287), in the stacks or in the GDDR7. DEDUCED (log 47): it may extend
over several stacks, as R480 has it; the parts reserved to the device between them stay out of reach by R288. -/
def State.rangeMapped (s : State) (a n : Nat) : Bool :=
  s.mapped a && s.mapped (a + n - 1) && (decide (a + n ≤ 4 * stackSize) || decide (gddrBase ≤ a))

/-- Logical core of the partition that an EVAL_CFG value sets up (R473). -/
def inPartition (v core : Nat) : Bool := decide (64 - 2 * bits v 0 4 ≤ core % 64)

/-- A change of CORES or CONTEXT finds tiles accepted (R478); a suspended one is accepted too (log 47). -/
def State.evalBusy (s : State) : Bool :=
  let old := s.ov evalCfgId
  let new := s.sv evalCfgId
  let own := fun (c : Nat) => c == bits old 4 4 || c == bits new 4 4
  bits old 0 8 != bits new 0 8 &&
    (s.cores.any (fun c => (c.2.tiles ++ c.2.suspended).any (fun t =>
      inPartition old c.1 || inPartition new c.1 || own t.ctx)) || s.txTiles.any (fun x => own x.ctx))

/-- Area C (R473, R474, R478). -/
def State.faultsC (s : State) : List Finding :=
  let v := s.sv evalCfgId
  let m := s.sv evalMemId
  let on := bits v 0 4 != 0
  let delta := bits v 37 21
  rejectIf (bits v 13 3 != 0 || bits v 58 6 != 0 || decide (8 < bits v 0 4) ||
      bits v 4 4 == bits v 8 4 || bits v 4 4 == 15 || bits v 8 4 == 15 || (bit v 12 && delta == 0) ||
      decide (2 ^ 21 < bits v 16 21 + 2 * delta) || s.evalBusy) evalCfgId 0 ++
    rejectIf (bits m 41 23 != 0 || bits m 105 23 != 0 || bits m 0 16 != 0 || bits m 64 16 != 0 ||
      (on && (bits m 64 41 == 0 || !s.rangeMapped (bits m 0 41) (bits m 64 41)))) evalMemId 0

/-- Area E (R459). -/
def State.faultsE (s : State) : List Finding :=
  allCtx.flatMap (fun c =>
    let v := s.sv (sqCfgId + c)
    rejectIf (bits v 73 55 != 0 || decide (9 < bits v 64 4) || decide (4 < bits v 69 3) || bits v 0 12 != 0) (sqCfgId + c) c)

/-- Findings of an area's whole staged set, the first of them first. -/
def State.areaFaults (s : State) (area : Nat) : List Finding :=
  s.rangeFaults area ++ match area with
    | 1 => s.faults1
    | 2 => s.faults2
    | 3 => s.faults3
    | 4 => s.faults4
    | 5 => s.faults5
    | 6 => s.faults6
    | 7 => s.faults7
    | 8 => s.faults8
    | 9 => s.faults9
    | 11 => s.faultsB
    | 12 => s.faultsC
    | 14 => s.faultsE
    | _ => []

end Sys2Proof.Machine
end

