-- ==== Sys2Proof/Machine/Apply.lean ====
section
/-!
DEFINITION. What an accepted APPLY and a DISCARD do (R416), the switch and the drain of protection tables (R422 to R424),
and the retirement of granules (R307).
Choices and readings that the model fixes here: log 15.
-/

namespace Sys2Proof.Machine

/-- The staged tables of an area are dropped. -/
def Objects.unstage (o : Objects) (area : Nat) : Objects :=
  { o with
    staged := o.staged.filter (fun p => p.1 / 65536 != area)
    regionS := if area = 2 then [] else o.regionS
    retireS := if area = 5 then [] else o.retireS
    expertS := if area = 7 then [] else o.expertS
    redListS := if area = 8 then [] else o.redListS
    syncMapS := if area = 9 then [] else o.syncMapS }

/-- Every staged value of an area enters force at once (R416). -/
def Objects.commit (o : Objects) (area : Nat) : Objects :=
  { o with
    vals := (o.staged.filter (fun p => p.1 / 65536 == area)).foldl (fun t p => tset (objDefault p.1) t p.1 p.2) o.vals
    region := if area = 2 then merge o.region o.regionS else o.region
    expert := if area = 7 then merge o.expert o.expertS else o.expert
    redList := if area = 8 then merge o.redList o.redListS else o.redList
    syncMap := if area = 9 then merge o.syncMap o.syncMapS else o.syncMap }

/-- DISCARD, and what a change of owner does to every area (R416, R417). -/
def State.discardArea (s : State) (area : Nat) : State :=
  (s.setObj (s.obj.unstage area)).setArea area { s.area area with pending := false }

/-- Every area's staged set is discarded (R417). -/
def State.discardAll (s : State) : State := (List.range 16).foldl (fun s a => s.discardArea a) s

/-! Effects by area; `o` is the state before the switch. -/

/-- A link trains again after a commit that concerns it; one whose axis has no neighbour goes DOWN (R162, R165). -/
def State.linkAgain (s : State) (l : Nat) : State :=
  if (s.link l).st = .down then s
  else if s.linkEnabled l then s.modLink l (·.retrain 0)
  else s.linkFall l

/-- Area 4: links train again, and a new place in the torus begins the search for a parent (R165, R170, R177). -/
def State.applied4 (s o : State) : State :=
  let moved := o.differs torusDimId || o.differs myCoordId
  let s := allLinks.foldl (fun s l => if moved || o.differs (linkWidthId + l) then s.linkAgain l else s) s
  if moved then s.ftFresh else s

/-- The retirement of granules begins (R307). -/
def State.retireBegin (s o : State) : State :=
  s.setMem { s.mem with retiring := s.mem.retiring ++ o.obj.retireS.map (fun v => (retAddr v, retCause v)) }

/-- Area 5: a new partition rebuilds every free list, a new command ring begins at slot 0, granules retire (R307, R311,
R337). -/
def State.applied5 (s o : State) : State :=
  let s := if o.differs urnPartitionId then s.setUrn { s.urn with lists := [], links := [] } else s
  let s := allCtx.foldl (fun s c =>
    if o.differs (fabQueueId + c) then s.setFab { s.fab with slot := tset 0 s.fab.slot c 0 } else s) s
  s.retireBegin o

/-- Fills a range of every core's local store with zero. -/
def State.zeroStores (s : State) (a n : Nat) : State :=
  s.cores.foldl (fun s c => s.modCore c.1 (fun k => { k with
    store := k.store.filter (fun p => !(decide (a ≤ p.1) && decide (p.1 < a + n))) })) s

/-- Area 6: each resident area whose start or size changes is filled with zero (R85). -/
def State.applied6 (s o : State) : State :=
  allCtx.foldl (fun s c =>
    if s.lsStart c = o.lsStart c ∧ s.lsSize c = o.lsSize c then s else s.zeroStores (s.lsStart c) (s.lsSize c)) s

/-- Area 8: a layer whose GF_CFG changes takes its level at the next step commits; a layout set takes effect at once or
at the next STEP_START (R236, R281). -/
def State.applied8 (s o : State) : State :=
  let s := (o.stagedOf 8).foldl (fun s p =>
    if gfCfgId ≤ p.1 ∧ p.1 < gfCfgId + 4096 ∧ o.differs p.1 then
      let l := p.1 - gfCfgId
      let level := if bits p.2 0 2 = 0 then bits p.2 2 2 else bits p.2 0 2 - 1
      s.setGf l { s.gf l with pending := (level, 0) :: (s.gf l).pending.filter (fun q => q.2 != 0) }
    else s) s
  allCtx.foldl (fun s c =>
    if o.layoutDiffers c then
      if s.stepsOn c then s.modRedc c ({ · with staged := true }) else s.applyLayout c
    else s) s

/-- Area B: a new ring begins with head and tail 0 (R470). -/
def State.appliedB (s o : State) : State :=
  allCtx.foldl (fun s c =>
    if o.differs (normRingId + c) then (s.setOv (normRingHeadId + c) 0).modStp c ({ · with normTail := 0 }) else s) s

/-- Area E: a changed queue begins again at 0, and a stopped one restarts (R459). -/
def State.appliedE (s o : State) : State :=
  allCtx.foldl (fun s c =>
    let s := s.modPage c ({ · with sqStopped := false })
    if o.differs (sqCfgId + c) then s.modPage c ({ · with sqHead := 0, sqTail := 0, sqHeld := none }) else s) s

/-- The effects that a commit of an area has beyond its values. -/
def State.applied (s o : State) (area : Nat) : State :=
  match area with
  | 4 => s.applied4 o
  | 5 => s.applied5 o
  | 6 => s.applied6 o
  | 8 => s.applied8 o
  | 11 => s.appliedB o
  | 13 => if o.differs ftRootId then s.ftFresh else s
  | 14 => s.appliedE o
  | 15 => allLinks.foldl (fun s l => if o.differs (linkLoopbackId + l) then s.linkAgain l else s) s
  | _ => s

/-- Values of a protection area that the staged set changes (R424). -/
def State.protChanged (s : State) (area : Nat) : Nat :=
  if area = 2 then
    (changedIn s.obj.region s.obj.regionS).length + (allCtx.filter (fun c => s.differs (ctxCfgId + c))).length
  else (changedIn s.obj.syncMap s.obj.syncMapS).length

/-- The object of a protection area's generation. -/
def genId (area : Nat) : Nat := if area = 2 then protGenId else syncMapGenId

/-- An accepted APPLY of a protection area increments its generation (R422). -/
def State.newGeneration (s : State) (area : Nat) : State :=
  let s := if area = 2 then s.setFab { s.fab with look := [] } else s
  if area = 2 ∨ area = 9 then s.modOv (genId area) (fun v => (v + 1) % 2 ^ 32) else s

/-- Puts an area's staged set in force and counts the commit (R416, R422). -/
def State.commitArea (s : State) (area : Nat) : State :=
  let n := ((s.setObj (s.obj.commit area)).setObj ((s.obj.commit area).unstage area)).applied s area
  n.newGeneration area

/-- Commit object after an accepted APPLY. -/
def State.countCommit (s : State) (area : Nat) : State :=
  let a := s.area area
  s.setArea area { a with
    pending := false
    commits := satAdd 16 a.commits 1
    lastStatus := 0 }

/-- What an APPLY comes to. -/
inductive ApplyRes
  | rejected (status : Nat)
  | applied
  /-- the reply waits for the drain, for granules, or for journal writes alone (`worked`) -/
  | waits (gen changed : Nat) (needs : List JRec) (worked : Bool)
deriving DecidableEq, Repr

/-- Journal records of the persistent values that an APPLY of an area changes (R416, R434). -/
def State.persistNeeds (s : State) (area : Nat) : List JRec :=
  ((s.stagedOf area).filter (fun p => isPersistent p.1 && s.differs p.1)).map (fun p => .object p.1)

/-- Queues journal writes. -/
def State.journalAll (s : State) (rs : List JRec) : State := rs.foldl (fun s r => s.journal r) s

/-- APPLY of an area (R416). With nothing pending it changes no value; an APPLY of a protection area is accepted all the
same, and begins a generation (R422). -/
def State.applyArea (s : State) (area : Nat) : State × ApplyRes :=
  let a := s.area area
  if a.pending = false then
    let n := (s.newGeneration area).countCommit area
    if area = 2 ∨ area = 9 then (n, .waits (n.ov (genId area)) 0 [] false) else (n.event 3 area, .applied)
  else match s.areaFaults area with
    | f :: _ =>
      let s := if f.1 = 0x12 then s.service 8 else s
      (s.setArea area { s.area area with
        lastStatus := f.1
        firstObj := f.2.1
        firstIndex := f.2.2 }, .rejected f.1)
    | [] =>
      let changed := s.protChanged area
      let needs := s.persistNeeds area
      let n := ((s.commitArea area).countCommit area).journalAll needs
      if area = 2 ∨ area = 9 then (n, .waits (n.ov (genId area)) changed needs false)
      else if area = 5 ∧ s.obj.retireS ≠ [] then (n, .waits 0 0 needs false)
      else if needs = [] then (n.event 3 area, .applied)
      else (n.event 3 area, .waits 0 0 needs true)

/-! The drain (R423). -/

/-- Body of a queued packet. -/
def Packet.fop (p : Packet) : Nat := Machine.bytesField p.body 0 8

/-- A command in flight is permitted under the table in force (R332). -/
def State.cmdPermitted (s : State) (c : FabCmd) : Bool :=
  s.permitted c.ctx (fcLen c.word) (gDev (fcGaddr c.word)) (gOff (fcGaddr c.word)) (fcRight c.word)

/-- Input queues of the router in which requests and sync packets of this module wait (R18, R423). -/
def ownPorts : List Nat := [portDie 0, portDie 1, portDie 2, portDie 3, hubTxe, hubFabric, hubSelf]

/-- A queued packet is a request of this module under a TAG to a destination (R340). -/
def State.isRequest (s : State) (tag dest : Nat) (p : Packet) : Bool :=
  decide (0x10 ≤ Packet.fop p) && decide (Packet.fop p ≤ 0x16) && Packet.fop p != 0x15 && p.src == s.me && p.dest == dest &&
    pTag p == tag

/-- Packets of this module that have not been routed. -/
def State.ownQueued (s : State) : List Packet := ownPorts.flatMap (fun o => tget [] s.router.inj o) ++ s.fab.capped.map (·.2)

/-- A request under a TAG leaves the queues of the module unsent. -/
def State.unsend (s : State) (tag dest : Nat) : State :=
  let s := ownPorts.foldl (fun s o => s.setRouter { s.router with
    inj := tset [] s.router.inj o ((tget [] s.router.inj o).filter (fun p => !s.isRequest tag dest p)) }) s
  s.setFab { s.fab with capped := s.fab.capped.filter (fun q => !s.isRequest tag dest q.2) }

/-- An ATOMIC of this module to a device whose SEQ stands after `q` moves down by one, and takes FIRST where it then stands in
place of one that carried it. -/
def renumber (me dest q : Nat) (first : Bool) (p : Packet) : Packet :=
  let n := p.field 128 32
  if Packet.fop p = 0x13 ∧ p.src = me ∧ p.dest = dest ∧ seqBefore q n then
    { p with
      body := p.body.take 3 ++ toLE 1 (if first ∧ n = q + 1 then 1 else p.field 24 8) ++ (p.body.drop 4).take 12 ++
        toLE 4 ((n + 2 ^ 32 - 1) % 2 ^ 32) ++ p.body.drop 20 }
  else p

/-- An ATOMIC that leaves the module's queues without ever having been sent has used no SEQ: those behind it, which are queued
still, take the numbers from its own on, so that the first to be sent carries FIRST (R350, R353, R423; DEDUCED, log 37). -/
def State.seqBack (s : State) (a : AtomOut) : State :=
  let first := a.pkt.field 24 1 == 1
  let mark := renumber s.me a.dest a.seq first
  let n := tget 0 s.fab.nextSeq a.dest
  let s := ownPorts.foldl (fun s o => s.setRouter { s.router with
    inj := tset [] s.router.inj o ((tget [] s.router.inj o).map mark) }) s
  s.setFab { s.fab with
    capped := s.fab.capped.map (fun q => (q.1, mark q.2))
    atoms := s.fab.atoms.map (fun b =>
      if b.dest = a.dest ∧ seqBefore a.seq b.seq then { b with seq := (b.seq + 2 ^ 32 - 1) % 2 ^ 32, pkt := mark b.pkt }
      else b)
    nextSeq := tset 0 s.fab.nextSeq a.dest (if n = 1 ∧ first = false then 2 ^ 32 else n - 1) }

/-- The outstanding ATOMIC of a command leaves with it, and its SEQ too where no copy was ever sent. -/
def State.atomDrop (s : State) (tag : Nat) : State :=
  let s' := s.setFab { s.fab with atoms := s.fab.atoms.filter (fun a => a.tag != tag) }
  match (s.fab.atoms.filter (fun a => a.tag == tag)).head? with
  | some a => if a.timeouts = 0 ∧ a.busy = 0 then s'.seqBack a else s'
  | none => s'

/-- A command whose request has not left the module is refused (R332, R423). -/
def State.cmdRefuse (s : State) (c : FabCmd) : State :=
  let s := (s.unsend c.tag c.dest).atomDrop c.tag
  ((s.fabFlag 0 c.dest).fabComplete c 1 0).fabFlow

/-- Commands whose requests still lie inside the module: held, or queued at the hub. -/
def State.cmdsInside (s : State) : List FabCmd :=
  s.fab.cmds.filter (fun c => c.held.isSome || s.ownQueued.any (s.isRequest c.tag c.dest))

/-- Requests of tiles that still lie inside the module. -/
def State.tilesInside (s : State) : List TileReq :=
  s.fab.tileReqs.filter (fun r => r.got.isNone && s.ownQueued.any (s.isRequest r.tag r.dest))

/-- A request of a tile is permitted under the table in force (R332). -/
def State.tilePermitted (s : State) (r : TileReq) : Bool :=
  s.permitted r.ctx r.len r.dest r.addr (if r.write then .write else .read)

/-- A request of a tile that has not left the module is refused: zero codes, or nothing written (R332, R423). -/
def State.tileRefuse (s : State) (r : TileReq) : State :=
  ((s.unsend r.tag r.dest).fabFlag 0 r.dest).tileAnswer r (if r.write then [] else List.replicate r.len 0) 5

/-- The lookaside cache takes note of a command's check under the new table (R333). -/
def State.cmdNote (s : State) (c : FabCmd) : State :=
  s.lookNote c.ctx (fcLen c.word) (gDev (fcGaddr c.word)) (gOff (fcGaddr c.word)) (fcRight c.word)

/-- The lookaside cache takes note of the check of a tile's request under the new table (R333). -/
def State.tileNote (s : State) (r : TileReq) : State :=
  s.lookNote r.ctx r.len r.dest r.addr (if r.write then .write else .read)

/-- A command inside the module under the new table (R423). -/
def State.recheckCmd (s : State) (c : FabCmd) : State := if s.cmdPermitted c then s else s.cmdRefuse c

/-- A tile's request inside the module under the new table (R423). -/
def State.recheckTile (s : State) (r : TileReq) : State := if s.tilePermitted r then s else s.tileRefuse r

/-- Queued WRITEs of a permute's phase 2, which no command and no tile holds (R283, R423). -/
def State.permInside (s : State) : List Packet :=
  s.ownQueued.filter (fun p => Packet.fop p == 0x11 && p.src == s.me && (s.perm p.ctx).acks.contains (pTag p))

/-- The lookaside cache takes note of the check of a permute's WRITE under the new table (R333). -/
def State.permNote (s : State) (p : Packet) : State := s.lookNote p.ctx (pBytes p) p.dest (pAddr p) .write

/-- A permute's WRITE inside the module under the new table: what it refuses is not sent and writes nothing (R332, R423). -/
def State.recheckPerm (s : State) (p : Packet) : State :=
  if s.permitted p.ctx (pBytes p) p.dest (pAddr p) .write then s
  else ((s.unsend (pTag p) p.dest).permAck (pTag p)).fabFlag 0 p.dest

/-- A request carries the generation under which it was checked last (R333). -/
def withGen (g : Nat) (p : Packet) : Packet := { p with body := p.body.take 2 ++ toLE 1 g ++ p.body.drop 3 }

/-- The requests that remain carry the new generation (R333, R423). -/
def State.regenerate (s : State) : State :=
  let g := s.ov protGenId % 256
  let mark := fun (p : Packet) =>
    if p.src = s.me ∧ 0x10 ≤ Packet.fop p ∧ Packet.fop p ≤ 0x16 ∧ (p.vc = 1 ∨ p.vc = 2) then withGen g p else p
  let s := ownPorts.foldl (fun s o => s.setRouter { s.router with
    inj := tset [] s.router.inj o ((tget [] s.router.inj o).map mark) }) s
  let inside := fun (a : AtomOut) => s.ownQueued.any (s.isRequest a.tag a.dest)
  s.setFab { s.fab with
    capped := s.fab.capped.map (fun q => (q.1, mark q.2))
    cmds := s.fab.cmds.map (fun c => { c with held := c.held.map mark })
    atoms := s.fab.atoms.map (fun a => if inside a then { a with pkt := mark a.pkt } else a) }

/-- A remote sync packet that the map in force still allows to its context (R187, R189, R423). DESIGN CHOICE (log 15): the packet
carries no sync ID, so it passes where any entry of its context with SIG_OK names the same target. -/
def State.syncAllowed (s : State) (p : Packet) : Bool :=
  let m := bit (Machine.bytesField p.body 0 32) 9
  (s.obj.syncMap.filter (fun x => x.1 / 65536 == p.ctx)).any (fun x =>
    let e := SyncEntry.of x.2
    !e.invalid && e.sigOk && e.phys == Machine.bytesField p.body 16 14 &&
      (if m then e.multi else e.remote && e.device == p.dest))

/-- Queued sync packets of this module under the map in force (R423). -/
def State.syncRecheck (s : State) : State :=
  ownPorts.foldl (fun s o =>
    let q := tget [] s.router.inj o
    let bad := q.filter (fun p => Packet.fop p == 0x40 && p.src == s.me && !s.syncAllowed p)
    let s := s.setRouter { s.router with inj := tset [] s.router.inj o (q.filter (fun p => !bad.contains p)) }
    bad.foldl (fun s p => s.mapFault p.ctx (Machine.bytesField p.body 16 14)) s) s

/-- Requests of the previous generation that lie inside the module are checked again (R423). -/
def State.recheck (s : State) (area : Nat) : State :=
  if area = 2 then
    let s := s.cmdsInside.foldl (fun s c => (s.cmdNote c).recheckCmd c) s
    let s := s.tilesInside.foldl (fun s r => (s.tileNote r).recheckTile r) s
    (s.permInside.foldl (fun s p => (s.permNote p).recheckPerm p) s).regenerate
  else s.syncRecheck

/-- Bytes over which TABLE_CRC is taken: entries in index order, then CTX_CFG, or the maps by context (R424). -/
def State.protBytes (s : State) (area : Nat) : List Byte :=
  if area = 2 then
    ((List.range 65536).map (fun i => toLE 32 (tget 0 s.obj.region i))).flatten ++
      (allCtx.map (fun c => toLE 4 (s.ov (ctxCfgId + c)))).flatten
  else ((List.range 1048576).map (fun i => toLE 8 (tget 0 s.obj.syncMap i))).flatten

/-- The audit record of a change of protection (R424). -/
def State.auditRec (s : State) (d : Deferred) : List Byte :=
  toLE 4 d.gen ++ toLE 1 (d.area + d.req.cls * 16) ++ toLE 3 0 ++ toLE 4 d.req.session ++ toLE 4 d.req.epoch ++
    toLE 8 d.switchTime ++ toLE 4 d.changed ++ toLE 4 (s.ov protChangeCountId) ++ toLE 4 (crc32c (s.protBytes d.area)) ++
    toLE 4 (s.clk - d.switchClk) ++ toLE 24 0

/-- Journal records of a protection change that changes a value: the count and the audit record (R424, R434). -/
def Deferred.audits (d : Deferred) : List JRec := if d.changed = 0 then [] else [.object protChangeCountId, .audit]

/-- The drain of a protection change ends: counted, audited and journalled where a value has changed (R423, R424). -/
def State.drained (s : State) (d : Deferred) : State :=
  let s := s.recheck d.area
  let s := if d.changed = 0 then s
    else
      let s := s.bump protChangeCountId
      (s.setCaddy { s.caddy with
        audit := (s.auditRec d :: s.caddy.audit).take 256
        auditCount := satAdd 32 s.caddy.auditCount 1 }).journalAll d.audits
  s.event 3 d.area

/-! Retirement (R307). -/

/-- Lowest free spare granule of a memory's pool. -/
def State.freeSpare (s : State) (m : Nat) : Option Nat :=
  (List.range 1024).find? (fun i => !(s.sparesUsed m).contains i)

/-- The next granule of a commit is copied to its spare, and the remap switched; its bytes and its poison keep their
addresses (R304, R307, R403). -/
def State.retireOne (s : State) : State :=
  match s.mem.retiring with
  | (a, c) :: rest =>
    match s.memOf a with
    | some m =>
      match s.freeSpare m with
      | some i =>
        let s := s.setMem { s.mem with
          retired := s.mem.retired ++ [⟨a, i, m, c, s.ageing.hours⟩]
          retiring := rest }
        if 1024 < (s.sparesUsed m).length + 64 then s.service 8 else s
      | none => s.setMem { s.mem with retiring := rest }
    | none => s.setMem { s.mem with retiring := rest }
  | [] => s

end Sys2Proof.Machine
end

