-- ==== Sys2Proof/Machine/Real.lean ====
section
/-!
DEFINITION. Logarithms and powers that the ageing forecast needs (R402), as whole numbers of 2^-128 of a unit.
Choices and readings that the model fixes here: log 29.
-/

namespace Sys2Proof.Machine

/-- One unit. -/
def fxOne : Int := 2 ^ 128

/-- Product and quotient of two such numbers, rounded down. -/
def fxMul (a b : Int) : Int := a * b / fxOne
def fxDiv (a b : Int) : Int := a * fxOne / b

/-- The odd powers y ^ (2 i + 1) / (2 i + 1), `n` of them from `i` on; `p` is the first power. -/
def fxAtanh (y2 : Int) : Nat → Nat → Int → Int
  | 0, _, _ => 0
  | n + 1, i, p => p / (2 * i + 1 : Nat) + fxAtanh y2 n (i + 1) (fxMul p y2)

/-- ln m for m from 1 to 2. -/
def fxLn1 (m : Int) : Int :=
  let y := fxDiv (m - fxOne) (m + fxOne)
  2 * fxAtanh (fxMul y y) 45 0 y

/-- ln 2. -/
def fxLn2 : Int := fxLn1 (2 * fxOne)

/-- ln of a positive whole number over a positive whole number. -/
def fxLn (a b : Nat) : Int :=
  let la := Nat.log2 a
  let lb := Nat.log2 b
  fxLn1 ((a : Int) * fxOne / (2 ^ la : Nat)) - fxLn1 ((b : Int) * fxOne / (2 ^ lb : Nat)) + ((la : Int) - lb) * fxLn2

/-- The terms r ^ i / i! from `i` on; `t` is the first. -/
def fxExpSum (r : Int) : Nat → Nat → Int → Int
  | 0, _, _ => 0
  | n + 1, i, t => t + fxExpSum r n (i + 1) (fxMul t r / (i + 1 : Nat))

/-- e ^ x for x below 64. -/
def fxExp (x : Int) : Int :=
  let k := x / fxLn2
  let e := fxExpSum (x - k * fxLn2) 36 0 fxOne
  if 0 ≤ k then e * (2 ^ k.toNat : Nat) else e / (2 ^ (-k).toNat : Nat)

end Sys2Proof.Machine
end

