-- ==== Sys2Proof/Machine/Ageing.lean ====
section
/-!
DEFINITION. Ageing monitors, their hourly means, and the re-plan of voltages with its forecast (R397 to R403).
Choices and readings that the model fixes here: log 29.
-/

namespace Sys2Proof.Machine

/-! Samples (R397). -/

/-- One more sample of each oscillator pair: sum of the shifts and their number. -/
def addSamples : List (Nat × Nat) → List Nat → List (Nat × Nat)
  | old, [] => old
  | [], x :: xs => (x, 1) :: addSamples [] xs
  | (a, n) :: old, x :: xs => (a + x, n + 1) :: addSamples old xs

/-- RING_OSC_SAMPLE: one reading for each pair of a unit. -/
def State.ringOsc (unit : Nat) (counts : List Nat) (s : State) : State :=
  let shifts := counts.zipIdx.map (fun c => Config.oscShift unit c.2 c.1 % 2 ^ 16)
  s.modAge unit (fun a => { a with samples := addSamples a.samples shifts })

/-- The point a unit holds: a die's own, and P13 for the hub, which has no point of its own (DESIGN CHOICE log 33). -/
def State.unitPoint (s : State) (unit : Nat) : Nat := if unit < 4 then (s.die unit).point else 13

/-- CRITICAL_PATH_SAMPLE: V_min at the point held is the highest that a replica needs; it is measured at the DV_MAX in
force. -/
def State.critPath (unit : Nat) (vmin : List Nat) (s : State) : State :=
  match vmin with
  | [] => s
  | v :: vs =>
    let p := s.unitPoint unit
    s.modAge unit (fun a => { a with
      vmin := tins a.vmin p (vs.foldl max v, a.dvMax)
      fresh := if a.fresh.contains p then a.fresh else a.fresh ++ [p] })

/-- LASER_BIAS_SAMPLE: ratios × 4,096 of a link's five sources join the hour's means. -/
def State.laserBias (link : Nat) (ratios : List Nat) (s : State) : State :=
  (ratios.take 5).zipIdx.foldl (fun s r =>
    let k := link * 5 + r.2
    let x := tget (0, 0) s.ageing.biasSum k
    s.setAgeing { s.ageing with biasSum := tset (0, 0) s.ageing.biasSum k (x.1 + r.1, x.2 + 1) }) s

/-- RETENTION_TEST of one free spare granule: its margin and worst channel enter RETENTION_MARGIN (R398); with no free
spare in the pool the value stands and STALE is set; a margin that falls below 4 raises the service flag (R402 to R404). -/
def State.retention (stack channel multiple : Nat) (s : State) : State :=
  let put (v : Nat) : State := s.setAgeing { s.ageing with retention := tset 8 s.ageing.retention stack v }
  if s.freeSpare stack = none then put (setBits (tget 8 s.ageing.retention stack) 4 1 1)
  else
    let m := min multiple 8
    let old := bits (tget 8 s.ageing.retention stack) 0 4
    let s := put (m + bits channel 0 6 * 2 ^ 8)
    if m < 4 ∧ 4 ≤ old then s.service 12 else s

/-! The fit of R402, in units of 2^-128: ln A and n. -/

/-- Least squares of ln ΔV over ln t; n is 0.25 for one point, clamped to 0.1 to 0.5 for more, and there is no fit
without a point, with a shift that is not positive, or with one powered time only among several. -/
def fitOf (pts : List (Nat × Nat)) : Option (Int × Int) :=
  if pts.isEmpty ∨ pts.any (fun p => p.2 == 0) then none
  else
    let xs := pts.map (fun p => fxLn p.1 1)
    let ys := pts.map (fun p => fxLn p.2 1)
    let k : Int := (pts.length : Nat)
    let sx := xs.sum
    let sy := ys.sum
    let sxx := (xs.map (fun x => fxMul x x)).sum
    let sxy := ((xs.zip ys).map (fun p => fxMul p.1 p.2)).sum
    let den := k * sxx - fxMul sx sx
    let lnA (n : Int) : Int := (sy - fxMul n sx) / k
    if pts.length = 1 then some (lnA (fxOne / 4), fxOne / 4)
    else if den ≤ fxOne / 2 ^ 64 then none
    else
      let n := max (fxOne / 10) (min (fxOne / 2) (fxDiv (k * sxy - fxMul sx sy) den))
      some (lnA n, n)

/-- Shift in mV that a fit predicts at a powered time. -/
def fitAt (f : Int × Int) (t : Nat) : Int := fxExp (f.1 + fxMul f.2 (fxLn t 1))

/-- ΔF: growth over the next 1,000 h, rounded up to a whole mV. -/
def fitGrowth (f : Int × Int) (t : Nat) : Nat := (-((fxOne / 2 ^ 40 - (fitAt f (t + 1000) - fitAt f t)) / fxOne)).toNat

/-- FORECAST of a fit: hours from `t` until the shift reaches `d` mV, saturating. -/
def fitForecast (f : Int × Int) (t : Nat) (d : Int) : Nat :=
  if d ≤ 0 then 0
  else
    let e := fxDiv (fxLn d.toNat 1 - f.1) f.2
    if 60 * fxOne ≤ e then 0xFFFFFFFF else min 0xFFFFFFFF (fxExp e / fxOne - t).toNat

/-- V_min of a point as a re-plan takes it (R400). -/
def AgeUnit.vminNow (a : AgeUnit) (u p : Nat) : Nat :=
  let m := (tget? a.vmin p).getD (Config.vminMade u p, 0)
  if a.fresh.contains p then m.1 else m.1 + ceilDiv (a.dvMax - m.2) 10 + 10

/-- ΔF and FORECAST of a unit at a re-plan. -/
def State.forecastOf (s : State) (u : Nat) : Nat × Nat :=
  let a := s.age u
  let t := s.ageing.hours
  match fitOf (a.history.filter (fun h => decide (1000 ≤ h.1))) with
  | some f =>
    let g := fitGrowth f t
    (g, fitForecast f t (950 - (s.ov guardBandId : Nat) - (g : Nat) - (Config.vminMade u 13 : Nat)))
  | none => (Config.growth u t, Config.forecast u t % 2 ^ 32)

/-- Voltage that a re-plan gives a point of a unit (R400); planned voltages never fall. -/
def State.nextMv (s : State) (u p : Nat) : Nat :=
  max (s.planned u p) ((s.age u).vminNow u p + s.ov guardBandId + (s.forecastOf u).1)

/-- The re-plan of one unit (R400, R402); the kettle applies its raises at the next control tick (R399). -/
def State.planUnit (s : State) (u : Nat) : State :=
  let a := s.age u
  let f := s.forecastOf u
  s.setAge u { a with
    raise := some ((List.range 16).foldl (fun t p => tset (pointMv p) t p (s.nextMv u p)) (a.raise.getD a.plan))
    fresh := []
    hours := s.ageing.hours
    forecast := f.2
    history := a.history ++ [(s.ageing.hours, a.vminNow u 13 - Config.vminMade u 13)] }

/-- The time that a re-plan takes begins; the spec gives a bound and no value (R399). -/
def State.setBusy (s : State) : State :=
  (s.setAgeing { s.ageing with busyTo := s.clk + Config.replanNs s.free % 1000000000 }).fresh

/-- A re-plan (R399 to R404): MARGIN_EXHAUSTED goes before the plan that leaves P13 unusable on one unit more. -/
def State.replan (s : State) : State :=
  let low (s : State) (u : Nat) : Bool := decide ((s.age u).forecast < 20000)
  let s' := when_ ((List.range 5).any (fun u => decide (s.planned u 13 ≤ 950) && decide (950 < s.nextMv u 13))) (·.service 10) s
  let s' := (List.range 5).foldl (fun s u => s.planUnit u) s'
  ((when_ ((List.range 5).any (fun u => !low s u && low s' u)) (·.service 9) s').journal .plan).setBusy

/-! The powered hour (R397). -/

/-- Hourly means of a unit's pairs: DV_MEAN and DV_MAX in 0.1 mV, rounded down. -/
def AgeUnit.hour (a : AgeUnit) : AgeUnit :=
  let ms : List Rat := a.samples.map (fun x => ((x.1 : Nat) : Rat) / ((x.2 : Nat) : Rat))
  if a.samples.isEmpty then a
  else
    { a with
      dvMean := min 65535 (ms.sum / ((ms.length : Nat) : Rat)).floor.toNat
      dvMax := min 65535 (ms.foldl max 0).floor.toNat
      samples := [] }

/-- A laser source that is in use (R169). -/
def Link.sourceInUse (x : Link) (k : Nat) : Bool :=
  if k = 4 then x.laserSpare.isSome else !x.lasersFailed.contains k && x.laserSpare != some k

/-- Hourly mean of a source's bias ratio, and LASER_AGEING (R402): 1.30 reached, or 1.50 within 5,000 h at the hour's
trend. A source that has come to it anew is a new event (R404). -/
def State.biasHour (s : State) (k : Nat) : State :=
  let x := tget (0, 0) s.ageing.biasSum k
  if x.2 = 0 then s
  else
    let new := min 65535 (x.1 / x.2)
    let old := tget 4096 s.ageing.bias k
    let s := s.setAgeing { s.ageing with
      bias := tset 4096 s.ageing.bias k new
      biasSum := terase s.ageing.biasSum k }
    let trend : Int := (new : Int) - old
    let aged := (s.link (k / 5)).sourceInUse (k % 5) && (decide (13 * 4096 ≤ 10 * new) || decide (6144 ≤ (new : Int) + 5000 * trend))
    let was := s.ageing.aged.contains k
    let s := s.setAgeing { s.ageing with
      aged := if aged then (if was then s.ageing.aged else s.ageing.aged ++ [k]) else s.ageing.aged.filter (· != k) }
    if aged && !was then s.service 11 else s

/-- POWERED_HOUR_TICK: an hour with 50 V present; every thousandth re-plans. -/
def State.hourTick (s : State) : State :=
  if s.pins.p50v then
    let s := s.setAgeing { s.ageing with hours := satAdd 32 s.ageing.hours 1 }
    let s := (List.range 5).foldl (fun s u => s.modAge u AgeUnit.hour) s
    let s := (List.range 30).foldl (fun s k => s.biasHour k) s
    let s := s.journal .ageing
    if s.ageing.hours % 1000 = 0 then s.replan else s
  else s

/-! Commands. -/

/-- RING_OSC_SAMPLE (R397). -/
def execRingOscSample (unit : Nat) (counts : List Nat) (s : State) : Result :=
  need (unitOk unit && decide (counts.length ≤ 48)) (powered s (s.ringOsc unit counts))

/-- CRITICAL_PATH_SAMPLE (R397). -/
def execCriticalPathSample (unit : Nat) (vmin : List Nat) (s : State) : Result :=
  need (unitOk unit && decide (vmin.length ≤ 16)) (powered s (s.critPath unit vmin))

/-- LASER_BIAS_SAMPLE (R397). -/
def execLaserBiasSample (link : Nat) (ratios : List Nat) (s : State) : Result :=
  need (linkOk link && decide (ratios.length ≤ 5)) (powered s (s.laserBias link ratios))

/-- RETENTION_TEST (R397). -/
def execRetentionTest (stack channel multiple : Nat) (s : State) : Result :=
  need (dieOk stack && decide (channel < 64)) (powered s (s.retention stack channel multiple))

/-- POWERED_HOUR_TICK (R397, R399). -/
def execPoweredHourTick (s : State) : Result := .next s.hourTick

end Sys2Proof.Machine
end

