-- ==== Sys2Proof/Machine/Mgmt.lean ====
section
/-!
DEFINITION. Management messages and their operations as bytes (R409, R411), who may reach the caddy (R406), replies
(R409, R461), ownership and its timers (R417 to R420), and the TAG of a CLAIM (R418).
Choices and readings that the model fixes here: log 15.
-/

namespace Sys2Proof.Machine

/-! Operations and their payloads (R411). -/

/-- OP of an operation. -/
def MOp.code : MOp → Nat
  | .hello => 0x01
  | .claim _ _ _ => 0x02
  | .renew => 0x03
  | .release => 0x04
  | .handover _ => 0x05
  | .close => 0x06
  | .read _ _ _ => 0x10
  | .write _ _ _ => 0x11
  | .describe _ => 0x12
  | .post _ _ _ => 0x20
  | .sync _ _ => 0x21
  | .urn _ _ => 0x22
  | .bad op _ => op

/-- Request payload of an operation. -/
def MOp.payload : MOp → List Byte
  | .hello => []
  | .claim p pre tag => toLE 4 (p + ofBool pre * 2 ^ 8) ++ tag
  | .renew => []
  | .release => []
  | .handover t => toLE 4 t
  | .close => []
  | .read id sub flags => toLE 4 id ++ toLE 4 sub ++ toLE 4 flags
  | .write id sub val => toLE 4 id ++ toLE 4 sub ++ val
  | .describe id => toLE 4 id
  | .post ctx target ds => toLE 4 (ctx + target * 2 ^ 4) ++ ds.flatMap (fun d => toLE 128 d.toNat)
  | .sync ctx w => toLE 4 ctx ++ toLE 8 w
  | .urn ctx w => toLE 4 ctx ++ toLE 8 w
  | .bad _ p => p

/-- The little-endian word of `n` bytes at a byte offset of a payload. -/
def wordAt (b : List Byte) (off n : Nat) : Nat := leNat ((b.drop off).take n)

/-- Descriptors of a POST payload. -/
def descsOf (b : List Byte) : Nat → List WorkDesc
  | 0 => []
  | n + 1 => BitVec.ofNat 1024 (leNat (b.take 128)) :: descsOf (b.drop 128) n

/-- The operation that an OP and a payload spell: reserved operations, payloads of a wrong length and non-zero reserved
bits have none (R411, R413). -/
def MOp.of (op : Nat) (b : List Byte) : MOp :=
  let n := b.length
  let w := wordAt b 0 4
  if 4352 < n then .bad op b
  else if op = 0x01 ∧ n = 0 then .hello
  else if op = 0x02 ∧ n = 20 ∧ bits w 9 23 = 0 then .claim (bits w 0 8) (bit w 8) (b.drop 4)
  else if op = 0x03 ∧ n = 0 then .renew
  else if op = 0x04 ∧ n = 0 then .release
  else if op = 0x05 ∧ n = 4 ∧ bits w 4 28 = 0 then .handover w
  else if op = 0x06 ∧ n = 0 then .close
  else if op = 0x10 ∧ n = 12 then .read w (wordAt b 4 4) (wordAt b 8 4)
  else if op = 0x11 ∧ 8 ≤ n then .write w (wordAt b 4 4) (b.drop 8)
  else if op = 0x12 ∧ n = 4 then .describe w
  else if op = 0x20 ∧ 132 ≤ n ∧ n ≤ 4100 ∧ n % 128 = 4 ∧ bits w 7 25 = 0 then
    .post (bits w 0 4) (bits w 4 3) (descsOf (b.drop 4) (n / 128))
  else if op = 0x21 ∧ n = 12 ∧ bits w 4 28 = 0 then .sync w (wordAt b 4 8)
  else if op = 0x22 ∧ n = 12 ∧ bits w 4 28 = 0 then .urn w (wordAt b 4 8)
  else .bad op b

/-- An operation as its message carries it: one whose operands do not fit their fields is a malformed message. -/
def MOp.norm (m : MOp) : MOp := if MOp.of m.code m.payload = m then m else .bad m.code m.payload

/-- Operations that only the owner may ask for (R411). -/
def ownerOp (op : Nat) : Bool := [0x03, 0x04, 0x05, 0x11, 0x20, 0x21, 0x22].contains op

/-- Owner-only operations that a pending handover refuses (R413, R420). -/
def handoverOp (op : Nat) : Bool := [0x05, 0x11, 0x20, 0x21, 0x22].contains op

/-- Operations served in recovery (R427). -/
def MOp.inRecovery : MOp → Bool
  | .hello => true
  | .claim _ _ _ => true
  | .renew => true
  | .release => true
  | .close => true
  | .read id _ _ => decide (id < 0x20000)
  | .describe id => decide (id < 0x20000)
  | .write id _ _ => id == fwImageBlockId || id == fwActivateId
  | _ => false

/-- The 32-byte header and payload of a request as it is forwarded over VC0 (R408, R409). -/
def requestBytes (r : Req) (m : MOp) : List Byte :=
  [1, BitVec.ofNat 8 m.code] ++ toLE 2 r.cls ++ toLE 4 r.session ++ toLE 4 r.xid ++ toLE 4 r.epoch ++
    toLE 2 m.payload.length ++ [0, 0] ++ toLE 2 0 ++ toLE 2 r.dest ++ toLE 4 (crc32c m.payload) ++ toLE 4 0 ++ m.payload

/-! The caddy's reach (R386, R406). -/

/-- A management core runs (R386). -/
def Caddy.alive (c : Caddy) : Bool := if c.m1Active then c.m1 else c.m0

/-- Messages of a transport are served: the caddy is ready, and the endpoint is up for a mailbox (R465). -/
def State.serves (s : State) (t : Transport) : Bool :=
  s.caddy.ready && s.caddy.alive && match t with
    | .mailbox _ => s.host.up
    | _ => true

/-- A class may use a transport (R406). -/
def classTransport (cls : Nat) : Transport → Bool
  | .mailbox _ => cls == 0 || cls == 3
  | .tray => cls == 1 || cls == 2 || cls == 3
  | .vc0 _ => cls == 2

/-- The session that a request names. -/
def State.sessionOf (s : State) (cls num : Nat) : Option Session :=
  match tget? s.caddy.sessions cls with
  | some x => if x.num = num then some x else none
  | none => none

/-- Replaces a class's session. -/
def State.setSession (s : State) (cls : Nat) (x : Session) : State :=
  s.setCaddy { s.caddy with sessions := tins s.caddy.sessions cls x }

/-- Ends a class's session. -/
def State.endSession (s : State) (cls : Nat) : State :=
  s.setCaddy { s.caddy with sessions := terase s.caddy.sessions cls }

/-- The request carries the current epoch and comes from the owner's session (R411, R421). -/
def State.fromOwner (s : State) (r : Req) : Bool :=
  match s.caddy.owner with
  | some o => o.cls == r.cls && o.session == r.session && r.epoch == s.caddy.epoch
  | none => false

/-! Replies. -/

/-- A message for a master leaves on the transport of its request (R408, R409, R461). -/
def State.sendReply (s : State) (m : MgmtMsg) : State :=
  let s := s.emitMsg m
  match m.transport with
  | .mailbox k =>
    let b := s.mailbox k
    (s.setMailbox k { b with
      reply := tstore b.reply 0 m.bytes
      busy := false
      ready := true
      len := m.bytes.length }).interrupt 15 (2 ^ k)
  | .vc0 src => s.mgmtPacket 0x91 src m.bytes
  | .tray => s.trayOut m

/-- The reply to a request. -/
def replyTo (r : Req) (op session epoch status : Nat) (payload : List Byte) : MgmtMsg :=
  { transport := r.transport
    cls := r.cls
    event := false
    op := op
    session := session
    xid := r.xid
    epoch := epoch
    status := status
    payload := payload }

/-- Puts a reply into its session's cache of 16 (R412). -/
def State.cacheReply (s : State) (m : MgmtMsg) : State :=
  match s.sessionOf m.cls m.session with
  | some x => s.setSession m.cls { x with cache := ((m.xid, m) :: x.cache).take 16 }
  | none => s

/-- A refusal that is no transaction: sent and not kept (R406, R412). -/
def State.refuse (s : State) (r : Req) (op status : Nat) : State :=
  s.sendReply (replyTo r op r.session r.epoch status [])

/-- The reply to a transaction: kept and sent. -/
def State.answer (s : State) (m : MgmtMsg) : State := (s.cacheReply m).sendReply m

/-! Ownership. -/

/-- Length of the lease and of a pending handover in ns (R419, R420). -/
def leaseNs : Nat := 500000000

/-- Ownership ends: no owner, every staged set is discarded, OWNER_CHANGED is sent (R417, R419). -/
def State.ownerGone (s : State) : State :=
  ((s.setCaddy { s.caddy with
    owner := none
    handover := none }).discardAll).event 1 0

/-- LEASE_EXPIRY: while a transaction has not ended, the ownership in force when it began stays (R405, R419, R421). -/
def State.leaseEnds (s : State) : State :=
  match s.caddy.owner with
  | some o => if o.leaseEnd ≤ s.clk ∧ s.caddy.deferred = [] then (s.ownerGone).event 2 0 else s
  | none => s

/-- HANDOVER_LAPSE (R420). -/
def State.handoverEnds (s : State) : State :=
  match s.caddy.handover with
  | some h => if h.2 ≤ s.clk then (s.setCaddy { s.caddy with handover := none }).event 6 0 else s
  | none => s

/-- SESSION_LAPSE: 10 s without a message (R406). -/
def State.sessionEnds (s : State) (cls : Nat) : State :=
  match tget? s.caddy.sessions cls with
  | some x => if x.lastMsg + 10000000000 ≤ s.clk then s.endSession cls else s
  | none => s

/-- AUTH_LOCK_EXPIRY (R418). -/
def State.lockEnds (s : State) (cls : Nat) : State :=
  s.setCaddy { s.caddy with
    authLocks := s.caddy.authLocks.filter (fun l => !(l.1 == cls && decide (l.2 ≤ s.clk))) }

/-- Times that have run out before a message is executed: a handover that lapses before the lease ends is told first. -/
def State.settle (s : State) : State :=
  let s := (List.range 4).foldl (fun s c => s.sessionEnds c) s
  match s.caddy.handover, s.caddy.owner with
  | some h, some o => if h.2 ≤ o.leaseEnd then s.handoverEnds.leaseEnds else s.leaseEnds
  | _, _ => s.leaseEnds

/-- The lease of an accepted request of the owner (R419). -/
def State.renewLease (s : State) : State :=
  match s.caddy.owner with
  | some o => s.setCaddy { s.caddy with owner := some { o with leaseEnd := s.clk + leaseNs } }
  | none => s

/-- A new master owns the module (R417). -/
def State.grant (s : State) (r : Req) (prio : Nat) : State :=
  let e := (s.caddy.epoch + 1) % 2 ^ 32
  ((s.setCaddy { s.caddy with
    owner := some ⟨r.cls, r.session, prio, s.clk + leaseNs⟩
    epoch := e
    handover := none }).discardAll).event 1 e

/-! CLAIM (R417, R418). -/

/-- MASTER_KEY of a class. -/
def State.keyOf (s : State) (cls : Nat) : Nat := s.ov (masterKeyId + cls)

/-- Every class's key is unset. -/
def State.noKeys (s : State) : Bool := (List.range 4).all (fun c => s.keyOf c == 0)

/-- TAG that a CLAIM must carry (R418). -/
def State.tagOf (s : State) (cls challenge prio : Nat) (pre : Bool) : List Byte :=
  (hmacSha256 (toLE 32 (s.keyOf cls)) (toLE 8 challenge ++ toLE 1 cls ++ toLE 1 prio ++ toLE 1 (ofBool pre) ++
    toLE 2 s.me)).take 16

/-- TAG passes: class 1 over the tray bus needs none while every key is unset (R418). -/
def State.tagOk (s : State) (r : Req) (challenge prio : Nat) (pre : Bool) (tag : List Byte) : Bool :=
  if s.noKeys then r.cls == 1 && r.transport == .tray
  else s.keyOf r.cls != 0 && tag == s.tagOf r.cls challenge prio pre

/-- A class's claims are locked. -/
def State.locked (s : State) (cls : Nat) : Bool := s.caddy.authLocks.any (fun l => l.1 == cls && decide (s.clk < l.2))

/-- Counts an AUTH_FAIL; the fourth within 10 s locks the class for 10 s (R418). -/
def State.authFail (s : State) (cls : Nat) : State :=
  let fails := s.caddy.authFails.filter (fun f => decide (s.clk < f.2 + 10000000000)) ++ [(cls, s.clk)]
  if 4 ≤ (fails.filter (fun f => f.1 == cls)).length then
    s.setCaddy { s.caddy with
      authFails := fails.filter (fun f => f.1 != cls)
      authLocks := s.caddy.authLocks.filter (fun l => l.1 != cls) ++ [(cls, s.clk + 10000000000)] }
  else s.setCaddy { s.caddy with authFails := fails }

/-- A session's next CHALLENGE (R418). -/
def State.nextChallenge (s : State) (cls : Nat) (x : Session) : State :=
  let c := Config.challenge s.free % 2 ^ 64
  s.fresh.setSession cls { x with challenge := c }

/-- The table of R417. -/
def State.claimRow (s : State) (r : Req) (prio : Nat) (pre : Bool) : State × Nat :=
  match s.caddy.owner with
  | none => (s.grant r prio, 0)
  | some o =>
    if o.cls = r.cls ∧ o.session = r.session then
      (s.setCaddy { s.caddy with owner := some { o with
        priority := prio
        leaseEnd := s.clk + leaseNs } }, 0)
    else if s.caddy.handover.any (fun h => h.1 == r.cls) ∨ (pre ∧ o.priority < prio) then (s.grant r prio, 0)
    else (s, 2)

/-- CLAIM: the new state and the status. -/
def State.claim_ (s : State) (r : Req) (x : Session) (prio : Nat) (pre : Bool) (tag : List Byte) : State × Nat :=
  let n := s.nextChallenge r.cls x
  if s.locked r.cls then (n, 4)
  else if s.tagOk r x.challenge prio pre tag then n.claimRow r prio pre
  else (n.authFail r.cls, 3)

/-- HANDOVER (R420). -/
def State.handTo (s : State) (target : Nat) : State × Nat :=
  if (tget? s.caddy.sessions target).isNone then (s, 7)
  else if (List.range 16).any (fun a => (s.area a).pending) then (s, 8)
  else (s.setCaddy { s.caddy with handover := some (target, s.clk + leaseNs) }, 0)

end Sys2Proof.Machine
end

