-- ==== Sys2Proof/Machine/Writes.lean ====
section
/-!
DEFINITION. READ and WRITE of objects (R411, R415, R416): values, staged values and tables, and the immediate objects:
actions, acknowledgements, flag words, counts and ring heads.
Choices and readings that the model fixes here: log 15.
-/

namespace Sys2Proof.Machine

/-- How an operation ends: with a reply, with a reply that waits (R412), or with a reply before a reset (R463). -/
inductive Ans
  | now (status : Nat) (payload : List Byte)
  | later
  | reset (kind : Nat)
deriving DecidableEq, Repr

/-- A refusal. -/
def no (s : State) (status : Nat) : State × Ans := (s, .now status [])

/-- An accepted write. -/
def ok (s : State) : State × Ans := (s, .now 0 [])

/-! Staged values and tables (R416). -/

/-- Marks an area as pending. -/
def State.pend (s : State) (area : Nat) : State := s.setArea area { s.area area with pending := true }

/-- Bits of a staged object that a write stores; the others read 0 and writes to them have no effect (R143, R170). -/
def writeMask (id v : Nat) : Nat :=
  if id = torusDimId then bits v 0 15
  else if id = myCoordId then bits v 0 16
  else if jobBlockId ≤ id ∧ id < jobBlockId + 16 then setBits v 15 1 0
  else if sparseCtrlId ≤ id ∧ id < sparseCtrlId + 16 then bits v 0 1
  else v

/-- A write to a staged object. -/
def State.stage (s : State) (id v : Nat) : State :=
  (s.setObj { s.obj with staged := tins s.obj.staged id (writeMask id v) }).pend (id / 65536)

/-- Entries of a written value after its leading word. -/
def entriesOf (w : Nat) (val : List Byte) : List Nat :=
  (List.range ((val.length - 4) / w)).map (fun i => leNat ((val.drop (4 + w * i)).take w))

/-- The value of a table write is a leading word and 1 to `most` entries of `w` bytes. -/
def entriesOk (w most : Nat) (val : List Byte) : Bool :=
  decide (4 + w ≤ val.length) && (val.length - 4) % w == 0 && decide ((val.length - 4) / w ≤ most)

/-- The leading index equals SUB, and the entries lie in the table (R411). -/
def indexOk (w most count sub : Nat) (val : List Byte) : Bool :=
  entriesOk w most val && wordAt val 0 4 == sub && decide (sub + (val.length - 4) / w ≤ count)

/-- Puts entries into a staged table from an index. -/
def stageAt (t : Tbl Nat) (k : Nat) (es : List Nat) : Tbl Nat := es.zipIdx.foldl (fun t e => tins t (k + e.2) e.1) t

/-- A write to REGION_BLOCK, SYNC_MAP_BLOCK, EXPERT_MAP_BLOCK, RED_LIST_BLOCK or MEM_RETIRE_BLOCK (R186, R203, R265,
R305, R330). -/
def State.writeTable (s : State) (id sub : Nat) (val : List Byte) : State × Ans :=
  let o := s.obj
  if id = regionBlockId then
    if indexOk 32 64 65536 sub val then
      ok ((s.setObj { o with regionS := stageAt o.regionS sub (entriesOf 32 val) }).pend 2)
    else no s 0x0C
  else if syncMapBlockId ≤ id ∧ id < syncMapBlockId + 16 then
    if indexOk 8 256 65536 sub val then
      ok ((s.setObj { o with
        syncMapS := stageAt o.syncMapS ((id - syncMapBlockId) * 65536 + sub) (entriesOf 8 val) }).pend 9)
    else no s 0x0C
  else if expertMapBlockId ≤ id ∧ id < expertMapBlockId + 64 then
    if indexOk 32 128 4096 sub val then
      ok ((s.setObj { o with
        expertS := stageAt o.expertS ((id - expertMapBlockId) * 4096 + sub) (entriesOf 32 val) }).pend 7)
    else no s 0x0C
  else if redListBlockId ≤ id ∧ id < redListBlockId + 16 then
    if indexOk 64 16 256 sub val then
      ok ((s.setObj { o with
        redListS := stageAt o.redListS ((id - redListBlockId) * 256 + sub) (entriesOf 64 val) }).pend 8)
    else no s 0x0C
  else
    if entriesOk 16 64 val ∧ sub = 0 ∧ wordAt val 0 4 = (val.length - 4) / 16 then
      ok ((s.setObj { o with retireS := o.retireS ++ entriesOf 16 val }).pend 5)
    else no s 0x0C

/-- FW_IMAGE_BLOCK: SUB is a byte offset, a multiple of 16 up to 8,388,352, and the bytes lie in the slot's header and body
(R411, R425, R428, R437); a pending activation that it clears is journalled (R430). -/
def State.writeImage (s : State) (sub : Nat) (val : List Byte) : State × Ans :=
  if sub % 16 = 0 ∧ sub ≤ 8388352 ∧ 16 ≤ val.length ∧ val.length ≤ 4096 ∧ val.length % 16 = 0 ∧
      sub + val.length ≤ 256 + 8388608 then
    let n := s.setCaddy (s.caddy.program sub val)
    ok (if s.caddy.fwPending then n.journal .boot else n)
  else no s 0x0C

/-! The commit object (R416). -/

/-- A write to an area's commit object. -/
def State.writeCommit (s : State) (r : Req) (area v : Nat) : State × Ans :=
  if bits v 2 6 ≠ 0 ∨ (bit v 0 ∧ bit v 1) then no s 0x0C
  else if bit v 1 then ok (s.discardArea area)
  else if bit v 0 then
    match s.applyArea area with
    | (n, .rejected st) => no n st
    | (n, .applied) => ok n
    | (n, .waits gen changed needs worked) =>
      (n.setCaddy { n.caddy with deferred := n.caddy.deferred ++
        [⟨r, area, gen, s.ftRead mgmtPs, s.clk, changed, none, needs, worked⟩] }, .later)
  else ok s

/-! Actions. -/

/-- An action of a unit that has no main power does nothing, and its status is free (R17; log 15). -/
def State.deadAnswer (s : State) : State × Ans := (s.fresh, .now (Config.deadReply s.free % 256) [])

/-- FT_SET (R176). -/
def State.ftSet (s : State) (v : Nat) : State × Ans :=
  if s.power.rails = false then s.deadAnswer
  else if s.isTimeRoot = false then no s 0x20
  else if s.ft.st = .rootUnset ∧ s.ft.now ≤ v then
    ok (s.setFt { s.ft with
      now := v
      st := .root })
  else no s 0x2A

/-- DONE_ID translates to a COUNTER entry with WAIT_OK (R253). -/
def State.doneOk (s : State) (ctx : Nat) : Bool :=
  let e := s.syncEntry ctx (bits (s.stepCfg ctx) 0 16)
  e.kind == 1 && e.waitOk

/-- STEP_START (R253). -/
def State.stepStart (s : State) (ctx n : Nat) : State × Ans :=
  if s.power.rails = false then s.deadAnswer
  else if s.stepBusy ctx then no s 0x21
  else if s.stepsOn ctx = false ∨ s.doneOk ctx = false ∨ s.blockOk ctx = false then no s 0x22
  else ok (s.stepBegin ctx n)

/-- RESET_CTRL (R463): CONTEXT and COMPUTE are complete before the reply, MAIN and MODULE begin after it. -/
def State.resetCtrl (s : State) (v : Nat) : State × Ans :=
  if bits v 12 20 ≠ 0 then no s 0x0C
  else match bits v 0 8 with
    | 1 => ok (s.ctxReset (bits v 8 4))
    | 2 => ok s.computeReset
    | 3 => (s, .reset 3)
    | 4 => (s, .reset 4)
    | _ => no s 0x0C

/-- COOLANT_OK as it stands when KETTLE_RESTART asks for it after a COOLANT stop (log 3). -/
def State.lookCoolant (s : State) : State :=
  match s.power.stop with
  | some r =>
    if r.cause = 1 then
      s.fresh.setPins { s.pins with coolantOk := Config.coolantLevel s.free }
    else s
  | none => s

/-- KETTLE_RESTART (R380): with nothing stopped it is a MAIN reset (R463). -/
def State.kettleRestart (s : State) : State × Ans :=
  if s.power.stop = none then (s, .reset 3)
  else
    let n := s.lookCoolant
    if n.stopPresent then no n 0x27 else ok (n.setPower { n.power with main := .off }).mainBegin

/-- SELF_TEST (R467). -/
def State.selfTest (s : State) : State × Ans :=
  if allCtx.all (fun c => !s.stepBusy c) ∧ s.anyAccepted = false then ok (s.setPower { s.power with selfTest := true })
  else no s 0x21

/-- FW_ACTIVATE (R428, R430). -/
def State.fwActivate (s : State) : State × Ans :=
  match s.caddy.activate with
  | some c => ok ((s.setCaddy c).journal .boot)
  | none => no s 0x29

/-- REPLAN_CTRL (R399). -/
def State.replanAsk (s : State) : State × Ans := if s.clk < s.ageing.busyTo then no s 0x28 else ok s.replan

/-- A write to an ACTION object (R415, R416). -/
def State.action (s : State) (id v : Nat) : State × Ans :=
  if id = ftSetId then s.ftSet v
  else if stepStartId ≤ id ∧ id < stepStartId + 16 then s.stepStart (id - stepStartId) v
  else if id = resetCtrlId then s.resetCtrl v
  else if v ≠ 1 then no s 0x0C
  else if id = fwActivateId then s.fwActivate
  else if id = kettleRestartId then s.kettleRestart
  else if id = replanCtrlId then s.replanAsk
  else if id = idleClearId then ok (s.setTele { s.tele with clear := true })
  else s.selfTest

/-! Other immediate objects. -/

/-- PERMUTE_CTRL (R106, R282): GO joins a permute or is refused, in the order of the rule's list. -/
def State.writePermute (s : State) (ctx v : Nat) : State × Ans :=
  let reserved := bits v 177 15 != 0 || bits v 222 2 != 0 || bits v 224 32 != 0
  if bit v 176 then
    if s.power.rails = false then s.deadAnswer
    else if s.stepsOn ctx then no s 0x23
    else if (s.perm ctx).busy then no s 0x24
    else if bits v 160 16 = (s.redc ctx).epoch then no s 0x25
    else if reserved ∨ bits v 0 64 % 64 ≠ 0 ∨ bits v 64 64 % 4096 ≠ 0 ∨ 65535 < bits v 128 32 ∨ s.blockOk ctx = false then
      no s 0x26
    else ok (s.permJoin ctx v)
  else if reserved then no s 0x0C
  else if (s.perm ctx).busy then ok s
  else ok (s.modPerm ctx (fun p => { p with ctrl := v }))

/-- SERVICE_ACK: bits written as 1 are acknowledged (R404). -/
def State.ackService (s : State) (v : Nat) : State :=
  ((s.setFlash { s.flash with ack := s.flash.ack ||| bits v 0 64 }).journal .service).alert

/-- Flag bits of the RW1C words (R51), none for any other object; KETTLE_STATUS's stand in the kettle. -/
def flagMask (id : Nat) : Option Nat :=
  if formatFlagsId ≤ id ∧ id < formatFlagsId + 16 then some 0x3F
  else if sparseStatusId ≤ id ∧ id < sparseStatusId + 16 then some 0x1F
  else if id = faultStatusId then some 3
  else if id = urnStatusId then some 0xF
  else if id = fabStatusId then some 0x3F
  else if id = syncStatusId then some 0xF
  else none

/-- Writing 1 to a flag clears it (R51); other fields are read-only. -/
def State.clearFlags (s : State) (id m v : Nat) : State := s.modOv id (fun w => w - (w &&& (m &&& v)))

/-- KETTLE_STATUS: CAL_RANGE and DROOP_SEEN (R382). -/
def State.clearKettle (s : State) (v : Nat) : State :=
  s.setKettle { s.kettle with
    calRange := s.kettle.calRange && !bit v 4
    droopSeen := s.kettle.droopSeen && !bit v 5 }

/-- A write to an immediate object that is neither an action nor a commit object. -/
def State.immediate (s : State) (id v : Nat) : State × Ans :=
  if permuteCtrlId ≤ id ∧ id < permuteCtrlId + 16 then s.writePermute (id - permuteCtrlId) v
  else if id = serviceAckId then ok (s.ackService v)
  else if id = kettleStatusId then ok (s.clearKettle v)
  else if pruneExcessId ≤ id ∧ id < pruneExcessId + 16 then if v = 0 then ok (s.setOv id 0) else no s 0x0C
  else match flagMask id with
    | some m => ok (s.clearFlags id m v)
    | none => ok (s.setOv id v)

/-! WRITE and READ (R411, R415, R416). -/

/-- A WRITE by the owner. -/
def State.write (s : State) (r : Req) (id sub : Nat) (val : List Byte) : State × Ans :=
  match objRow id with
  | none => no s 0x0D
  | some row =>
    if row.access = 0 ∨ row.access = 3 then no s 0x0E
    else if id = fwImageBlockId then s.writeImage sub val
    else if row.type = 4 then s.writeTable id sub val
    else if sub ≠ 0 ∨ val.length ≠ row.width then no s 0x0C
    else if row.type = 6 then s.writeCommit r (id / 65536) (leNat val)
    else if row.type = 7 then s.action id (leNat val)
    else if row.staged then ok (s.stage id (leNat val))
    else s.immediate id (leNat val)

/-- A READ: an RC object is cleared when the owner reads it. -/
def State.read (s : State) (r : Req) (id sub flags : Nat) : State × Ans :=
  match objRow id with
  | none => no s 0x0D
  | some row =>
    if row.access = 2 then no s 0x0E
    else if 1 < flags then no s 0x0C
    else match s.tableRead id sub (bit flags 0) with
      | some b => (s, .now 0 b)
      | none =>
        let v := if bit flags 0 ∧ row.staged then s.sv id else s.value id
        (if row.access = 3 ∧ s.fromOwner r then s.clearRc id else s, .now 0 (toLE row.width v))

/-- A DESCRIBE. -/
def State.describe (s : State) (id : Nat) : State × Ans :=
  match objRow id with
  | none => no s 0x0D
  | some row => (s, .now 0 (descriptor id row))

end Sys2Proof.Machine
end

