-- ==== Sys2Proof/Machine/Management.lean ====
section
/-!
DEFINITION. The caddy's transactions (R405 to R412): what a request passes through, the operations, the reply, requests
that wait behind an APPLY, and messages as they arrive on the tray bus, on VC0 and in a mailbox.
Choices and readings that the model fixes here: log 15.
-/

namespace Sys2Proof.Machine

/-! Operations. -/

/-- Posts descriptors in order up to the first that finds no room (R111, R411): the state and how many it posted. -/
def State.postAll (ctx target : Nat) : List WorkDesc → Nat → State → State × Nat
  | [], n, s => (s, n)
  | d :: ds, n, s =>
    match s.post ctx target d with
    | some s' => postAll ctx target ds (n + 1) s'
    | none => (s, n)

/-- POST (R411): a target of 5 to 7 refuses the whole message; before READY no list has room (R466). -/
def State.mgmtPost (s : State) (ctx target : Nat) (ds : List WorkDesc) : State × Ans :=
  if 4 < target then no s 0x0C
  else
    let r := if s.power.main = .ready then s.postAll ctx target ds 0 else (s, 0)
    if r.2 = ds.length then (r.1, .now 0 (toLE 4 r.2))
    else (r.1.bump listFullCountId, .now 0x13 (toLE 4 r.2))

/-- An operation other than HELLO and CLAIM. With the main domain off no sync unit and no urn acts (R17): the reply's value
is free (log 15). -/
def State.perform (s : State) (r : Req) : MOp → State × Ans
  | .hello => ok s
  | .claim _ _ _ => ok s
  | .renew => ok s
  | .release => ok s.ownerGone
  | .handover t =>
    let h := s.handTo t
    (h.1, .now h.2 [])
  | .close => ok (s.endSession r.cls)
  | .read id sub flags => s.read r id sub flags
  | .write id sub val => s.write r id sub val
  | .describe id => s.describe id
  | .post ctx target ds => s.mgmtPost ctx target ds
  | .sync ctx w =>
    if s.power.rails then
      let a := syncCmd s ctx w
      (a.1, .now 0 (toLE 4 a.2))
    else (s.fresh, .now 0 (toLE 4 (Config.deadReply s.free)))
  | .urn ctx w =>
    if s.power.rails then
      match s.urnWaits ctx w with
      | some c => ((s.urnStop c).setCaddy { s.caddy with
          deferred := s.caddy.deferred ++ [⟨r, 16, 0, 0, s.clk, 0, some (ctx, w), [], false⟩] }, .later)
      | none =>
        let a := urnCmd s ctx w
        (a.1, .now 0 (toLE 8 a.2))
    else (s.fresh, .now 0 (toLE 8 (Config.deadReply s.free)))
  | .bad _ _ => no s 0x0C

/-- HELLO: opens or replaces a session (R406, R411); its reply belongs to no session's transactions. -/
def State.hello (s : State) (r : Req) : State :=
  let num := Config.sessionNum s.caddy.opened % 2 ^ 32
  let ch := Config.challenge s.free % 2 ^ 64
  let owns : Bool := match s.caddy.owner, tget? s.caddy.sessions r.cls with
    | some o, some x => o.cls == r.cls && o.session == x.num
    | _, _ => false
  if owns then s.refuse r 0x01 0x05
  else
    let s := (s.fresh.setCaddy { s.caddy with opened := s.caddy.opened + 1 }).setSession r.cls
      { num := num
        transport := r.transport
        challenge := ch
        cache := []
        lastMsg := s.clk }
    let who := match s.caddy.owner with
      | some o => o.cls
      | none => 15
    s.sendReply (replyTo r 0x01 num r.epoch 0 (toLE 8 ch ++ toLE 2 s.me ++ toLE 1 who))

/-- CLAIM: a grant's reply carries the new epoch, every reply the next CHALLENGE (R411, R418). -/
def State.claimed (s : State) (r : Req) (x : Session) (prio : Nat) (pre : Bool) (tag : List Byte) : State :=
  let c := s.claim_ r x prio pre tag
  let ch := match c.1.sessionOf r.cls r.session with
    | some y => y.challenge
    | none => 0
  c.1.answer (replyTo r 0x02 r.session (if c.2 = 0 then c.1.caddy.epoch else r.epoch) c.2 (toLE 8 ch))

/-- A reset that an accepted request asked for begins (R463). -/
def State.resetNow (s : State) (kind : Nat) : State := if kind = 3 then s.mainReset else s.moduleReset

/-- An operation in a session: an accepted one of the owner renews its lease as it begins (R419, R421); its reply is kept
and sent. -/
def State.operate (s : State) (r : Req) (m : MOp) : State :=
  let a := (if s.fromOwner r then s.renewLease else s).perform r m
  match a.2 with
  | .now st p =>
    (if st = 0 then a.1 else (s.perform r m).1).answer (replyTo r m.code r.session r.epoch st p)
  | .later => a.1
  | .reset k => (a.1.answer (replyTo r m.code r.session r.epoch 0 [])).resetNow k

/-- A request that has passed its session's checks: recovery, ownership, a pending handover, then the operation (R420,
R421, R427). -/
def State.checked (s : State) (r : Req) (x : Session) (m : MOp) : State :=
  let deny (st : Nat) : State := s.answer (replyTo r m.code r.session r.epoch st [])
  if s.caddy.recovery && !m.inRecovery then deny 0x0F
  else match m with
    | .claim p pre tag => s.claimed r x p pre tag
    | _ =>
      if ownerOp m.code && !s.fromOwner r then deny 0x01
      else if handoverOp m.code && s.caddy.handover.isSome then deny 0x09
      else s.operate r m

/-- A request within a session: a cached reply is sent again, an XID before every cached one is refused (R412). -/
def State.inSession (s : State) (r : Req) (x : Session) (m : MOp) : State :=
  let x := { x with lastMsg := s.clk }
  let s := s.setSession r.cls x
  match x.cache.find? (fun c => c.1 == r.xid) with
  | some c => s.sendReply { c.2 with transport := r.transport }
  | none =>
    if x.cache ≠ [] ∧ x.cache.all (fun c => seqBefore r.xid c.1) then s.refuse r m.code 0x0B
    else s.checked r x m

/-- A request for another module leaves over VC0 (R408). -/
def State.forward (s : State) (r : Req) (m : MOp) : State :=
  (s.setCaddy { s.caddy with forwards := s.caddy.forwards ++ [(r.dest, r.xid, r.transport)] }).mgmtPacket 0x90 r.dest
    (requestBytes r m)

/-- A malformed request. -/
def MOp.isBad : MOp → Bool
  | .bad _ _ => true
  | _ => false

/-- A request that names another module: only class 2 may, a malformed one is refused, and recovery serves only what R427
lists (R408, R409, R427). -/
def State.passOn (s : State) (r : Req) (m : MOp) : State :=
  if r.cls ≠ 2 then s.refuse r m.code 0x06
  else if m.isBad then s.refuse r m.code 0x0C
  else if s.caddy.recovery && !m.inRecovery then s.refuse r m.code 0x0F
  else s.forward r m

/-- One transaction (R405): transport, destination, session, then the operation; a malformed HELLO needs no session to be
refused (R409, R413). -/
def State.transact (s : State) (r : Req) (m : MOp) : State :=
  if classTransport r.cls r.transport = false then s.refuse r m.code 0x06
  else if r.dest ≠ 0x8000 ∧ r.dest ≠ s.me then s.passOn r m
  else if m = .hello then s.hello r
  else if m.isBad ∧ m.code = 1 then s.refuse r 1 0x0C
  else match s.sessionOf r.cls r.session with
    | none => s.refuse r m.code 0x07
    | some x => s.inSession r x m

/-! Requests that wait (R405, R412). -/

/-- Place of a transport among messages that complete in one management cycle: mailbox, VC0, tray bus (R405). -/
def transportRank : Transport → Nat
  | .mailbox _ => 0
  | .vc0 _ => 1
  | .tray => 2

/-- Management cycle of a clock time. -/
def mgmtCycle (t : Nat) : Nat := t * 1000 / mgmtPs

/-- A waiting request in the order in which the caddy takes them (R405). -/
def queueIn (q : Nat × Req × MOp) : List (Nat × Req × MOp) → List (Nat × Req × MOp)
  | [] => [q]
  | x :: xs =>
    if mgmtCycle x.1 = mgmtCycle q.1 ∧ transportRank q.2.1.transport < transportRank x.2.1.transport then q :: x :: xs
    else x :: queueIn q xs

/-- A message has come from a session's master (R406). -/
def State.heard (s : State) (r : Req) : State :=
  match s.sessionOf r.cls r.session with
  | some x => s.setSession r.cls { x with lastMsg := s.clk }
  | none => s

/-- Two requests name one session. -/
def sameSession (r q : Req) : Bool := q.cls == r.cls && q.session == r.session

/-- A request that arrives while an APPLY has not replied: dropped where it repeats that APPLY's XID, refused where its
session already has 8 requests awaiting reply, and queued otherwise (R406, R412). -/
def State.enqueue (s : State) (r : Req) (m : MOp) : State :=
  let s := s.heard r
  let c := s.caddy
  if c.deferred.any (fun d => sameSession r d.req && d.req.xid == r.xid) then s
  else if 8 ≤ (c.deferred.filter (fun d => sameSession r d.req)).length + (c.queue.filter (fun q => sameSession r q.2.1)).length
    then s.refuse r m.code 0x0A
  else s.setCaddy { c with queue := queueIn (s.clk, r, m) c.queue }

/-- A request reaches the caddy. -/
def State.request (s : State) (r : Req) (m : MOp) : State :=
  if s.serves r.transport then
    if s.caddy.deferred = [] then s.settle.transact r m.norm else s.enqueue r m.norm
  else s

/-- The waiting requests are executed in order, up to one whose reply waits. -/
def State.runQueue : Nat → State → State
  | 0, s => s
  | n + 1, s =>
    match s.caddy.queue with
    | [] => s
    | q :: qs =>
      if s.caddy.deferred = [] ∧ s.caddy.ready then
        runQueue n ((s.setCaddy { s.caddy with queue := qs }).request q.2.1 q.2.2)
      else s

/-- The request that waits replies, an ownership whose lease has run out ends, and the requests behind it follow (R405,
R419). -/
def State.waiterReplies (s : State) (d : Deferred) (op : Nat) (payload : List Byte) : State :=
  let s := s.setCaddy { s.caddy with deferred := s.caddy.deferred.drop 1 }
  let s := (s.answer (replyTo d.req op d.req.session d.req.epoch 0 payload)).leaseEnds
  s.runQueue s.caddy.queue.length

/-- The APPLY that waits replies; a new MGMT_PORT holds for the messages after it (R407). -/
def State.applyReplies (s : State) (d : Deferred) : State :=
  (if d.area = 1 then s.setCaddy { s.caddy with port := s.ov mgmtPortId } else s).waiterReplies d 0x11 []

/-- The APPLY that waits replies once its work is done and every record that it has to journal is written (R307, R416,
R424). -/
def State.journalled (s : State) : State :=
  match s.caddy.deferred with
  | d :: _ =>
    if d.alloc = none ∧ d.worked ∧ d.needs.all (fun r => !s.flash.queue.contains r) then s.applyReplies d else s
  | [] => s

/-- The work of the APPLY that waits is done: further records are to be journalled before it replies. -/
def State.workDone (s : State) (more : List JRec) : State :=
  (s.setCaddy { s.caddy with
    deferred := match s.caddy.deferred with
      | d :: ds => { d with worked := true, needs := d.needs ++ more } :: ds
      | [] => [] }).journalled

/-- An ALLOC of a management message that waited for a rebuild is executed and replies (R317, R405). -/
def State.allocResumes (s : State) : State :=
  match s.caddy.deferred with
  | d :: _ =>
    match d.alloc with
    | some (ctx, w) =>
      if s.power.rails ∧ (s.urnWaits ctx w).isSome then s
      else
        let a := if s.power.rails then urnCmd s ctx w else (s.fresh, Config.deadReply s.free)
        a.1.waiterReplies d 0x22 (toLE 8 a.2)
    | none => s
  | [] => s

/-- PROT_DRAIN_DONE (R423, R424). -/
def State.drainDone (s : State) : State :=
  match s.caddy.deferred with
  | d :: _ => if (d.area = 2 ∨ d.area = 9) ∧ d.worked = false then (s.drained d).workDone d.audits else s
  | [] => s

/-- GRANULE_RETIRE_DONE: the next granule of a commit; after the last the new entries are journalled, and its APPLY replies
(R307). -/
def State.retireDone (s : State) : State :=
  let s := s.retireOne
  match s.caddy.deferred with
  | d :: _ =>
    if d.area = 5 ∧ d.worked = false ∧ s.mem.retiring = [] then ((s.event 3 5).journal .remap).workDone [.remap] else s
  | [] => s

/-! Messages as bytes (R409, R410). -/

/-- A field of a message header: first bit and width. -/
def hdrField (h : List Byte) (lo w : Nat) : Nat := bytesField h lo w

/-- The request header that a message's bytes hold. -/
def headerReq (t : Transport) (h : List Byte) : Req :=
  { transport := t
    cls := hdrField h 16 4
    session := hdrField h 32 32
    xid := hdrField h 64 32
    epoch := hdrField h 96 32
    dest := hdrField h 176 16 }

/-- The header's version, reserved bits and LENGTH are as R409 requires. -/
def headerOk (h payload : List Byte) : Bool :=
  hdrField h 0 8 == 1 && hdrField h 22 10 == 0 && hdrField h 224 32 == 0 && hdrField h 128 16 == payload.length &&
    decide (hdrField h 16 4 < 4)

/-- The operation that a message spells; a malformed header makes its arguments wrong. -/
def messageOp (h payload : List Byte) (whole : Bool) : MOp :=
  if headerOk h payload && whole then MOp.of (hdrField h 8 8) payload else .bad (hdrField h 8 8) payload

/-- A complete message: discarded where it is no request or its MSG_CRC fails (R410); a MASTER of 4 to 15 has no session
and is refused with MGMT_ARGS (R409). -/
def State.message (s : State) (t : Transport) (h payload : List Byte) (whole : Bool) : State :=
  if hdrField h 20 2 ≠ 0 ∨ crc32c payload ≠ hdrField h 192 32 then s
  else
    let r := headerReq t h
    if 4 ≤ r.cls then if s.serves t then s.refuse r (hdrField h 8 8) 0x0C else s
    else s.request r (messageOp h payload whole)

/-- A segment of a message joins the ones before it (R410). -/
def State.segment (s : State) (h payload : List Byte) : State :=
  let cls := hdrField h 16 4
  let xid := hdrField h 64 32
  let n := hdrField h 152 8 + 1
  let i := hdrField h 144 8
  let mine (p : Partial) : Bool := p.cls == cls && p.xid == xid && decide (s.clk < p.firstAt + 100000000)
  let old := (s.caddy.partials.filter mine).head?
  let rest := s.caddy.partials.filter (fun p => !(p.cls == cls && p.xid == xid))
  let base : Partial := old.getD ⟨cls, xid, n, s.clk, h, []⟩
  let p := { base with segs := tins base.segs i payload }
  if n ≤ i then s
  else if (List.range p.count).all (fun k => (tget? p.segs k).isSome) then
    (s.setCaddy { s.caddy with partials := rest }).message .tray p.header
      ((List.range p.count).flatMap (fun k => tget [] p.segs k)) true
  else s.setCaddy { s.caddy with partials := rest ++ [p] }

/-- The module's link-local address: fe80::/64 with the modified EUI-64 of its MAC address (R407). -/
def linkLocal : Nat :=
  let m := Config.mac % 2 ^ 48
  0xFE80 * 2 ^ 112 + (bits m 24 24 ^^^ 0x020000) * 2 ^ 40 + 0xFFFE * 2 ^ 24 + bits m 0 24

/-- The all-nodes address ff02::1 (R407). -/
def allNodes : Nat := 0xFF02 * 2 ^ 112 + 1

/-- A datagram is the caddy's: sent to MGMT_PORT, and to its own address or, a HELLO, to ff02::1 (R407). -/
def State.hears (s : State) (g : Datagram) (op : Nat) : Bool :=
  g.port == s.caddy.port && (g.dst == linkLocal || (g.dst == allNodes && op == 1))

/-- A PLCA beacon has been seen: the tray bus runs PLCA again (R407). -/
def State.beaconSeen (s : State) (seen : Bool) : State := if seen then s.setCaddy { s.caddy with csma := false } else s

/-- MGMT_SEGMENT_RECEIVE: a datagram on the tray bus (R407, R410). -/
def State.segmentIn (g : Datagram) (b : List Byte) (s : State) : State :=
  let s := s.beaconSeen g.beacon
  let h := b.take 32
  let payload := b.drop 32
  if s.serves .tray = false ∨ b.length < 32 then s
  else if s.hears g (hdrField h 8 8) = false then s
  else if hdrField h 152 8 = 0 then s.message .tray h payload (hdrField h 144 8 == 0)
  else s.segment h payload

/-- MGMT_MESSAGE_DISCARD: 100 ms after its first segment (R410). -/
def State.partialEnds (cls xid : Nat) (s : State) : State :=
  s.setCaddy { s.caddy with
    partials := s.caddy.partials.filter (fun p =>
      !(p.cls == cls && p.xid == xid && decide (p.firstAt + 100000000 ≤ s.clk))) }

/-- A reply that returns over VC0 goes on to the master whose request was forwarded; an event of the other module does
not (R408). -/
def State.replyBack (s : State) (src : Nat) (h payload : List Byte) : State :=
  match s.caddy.forwards.find? (fun f => f.1 == src && f.2.1 == hdrField h 64 32) with
  | some f =>
    if bit (hdrField h 16 8) 5 then s
    else
      (s.setCaddy { s.caddy with
        forwards := dropFirst (fun g => g.1 == src && g.2.1 == hdrField h 64 32) s.caddy.forwards }).sendReply
        { transport := f.2.2
          cls := hdrField h 16 4
          event := false
          op := hdrField h 8 8
          session := hdrField h 32 32
          xid := hdrField h 64 32
          epoch := hdrField h 96 32
          status := hdrField h 160 16
          payload := payload }
  | none => s

/-- MGMT_VC0_RECEIVE (R408): the message begins at body offset 8; a packet ends in whole flits, so LENGTH says where the
payload ends. -/
def State.vc0In (p : Packet) (s : State) : State :=
  let b := p.body.drop 8
  let h := b.take 32
  let payload := (b.drop 32).take (hdrField h 128 16)
  let s := s.taken p
  if s.serves (.vc0 p.src) = false ∨ b.length < 32 then s
  else if p.field 0 8 = 0x90 then s.message (.vc0 p.src) h payload (hdrField h 144 16 == 0)
  else if p.field 0 8 = 0x91 then s.replyBack p.src h payload
  else s

/-- MBX_DOORBELL (R456, R461): one that meets MBX_BUSY sets MBX_OVERRUN, a length outside 32 to 4,384 sends
nothing; a message that is discarded leaves MBX_BUSY set. -/
def State.doorbell (m len : Nat) (s : State) : State :=
  let b := s.mailbox m
  if s.serves (.mailbox m) = false then s
  else if b.busy then s.setMailbox m { b with overrun := true }
  else if len < 32 ∨ 4384 < len then s
  else
    let bytes := tbytes b.request 0 len
    (s.setMailbox m { b with busy := true }).message (.mailbox m) (bytes.take 32) (bytes.drop 32)
      (hdrField (bytes.take 32) 144 16 == 0)

end Sys2Proof.Machine
end

