-- ==== Sys2Proof/Machine/Events.lean ====
section
/-!
DEFINITION. Temperatures and last lines (R308, R309, R377, R379), the GDDR7 (R296 to R299), scrub (R302), power loss
(R395, R396), core and management-core failures (R125, R126, R386, R387), rail phases (R25, R26), the journal (R392,
R394), and the bring-up sequences (R465, R466).
Choices and readings that the model fixes here: logs 26, 27 and 28.
-/

namespace Sys2Proof.Machine

/-! Temperatures. -/

/-- Largest of some temperatures. -/
def maxOf (x : Int) (xs : List Int) : Int := xs.foldl max x

/-- Readings of a unit's junction sensors: 48 per die, then 16 of the hub (R377). -/
def unitTemps (temps : List Int) (u : Nat) : List Int := (temps.drop (48 * u)).take (if u < 4 then 48 else 16)

/-- TEMP_MAX of a unit after a sample (R377). -/
def State.tempMax (s : State) (temps : List Int) (u : Nat) : State :=
  match unitTemps temps u with
  | [] => s
  | t :: ts => s.setOv (tempMaxId + u) (ofInt 16 (maxOf t ts))

/-- THERMAL_SAMPLE (R377, R379): readings in 0.25 °C; a sensor at or above 115 °C twice running stops the module. -/
def State.thermalSample (temps : List Int) (s : State) : State :=
  let hot := ((temps.take 208).zipIdx.filter (fun t => decide (460 ≤ t.1))).map (·.2)
  let again := hot.filter s.power.hotSensors.contains
  let s := (List.range 5).foldl (fun s u => s.tempMax temps u) s
  let s := s.setPower { s.power with hotSensors := hot }
  let thr : Int := 4 * (s.ov tjThrottleId : Nat)
  let s := if s.power.rails then
      allDies.foldl (fun s d =>
        (s.modDie d (fun x => { x with
          own := x.own.sample x.point s.clk (s.opMax d) thr (s.hottest d)
          hub := x.hub.sample x.point s.clk (s.opMax d) thr (s.hottest 4) })).setEng d) s
    else s
  match again with
  | i :: _ => s.lastLine 2 (i / 48) (ofInt 16 (temps.getD i 0))
  | [] => s

/-- Throttle level of a stack and its count of cool samples after a sample (R309). -/
def stackLevel (lv below : Nat) (th t : Int) : Nat × Nat :=
  let want := if th + 12 < t then 2 else if th ≤ t then 1 else 0
  if lv < want then (want, 0)
  else
    let cool := if lv = 2 then decide (t < th + 4) else if lv = 1 then decide (t < th - 8) else false
    if cool then if below = 1 then (lv - 1, 0) else (lv, below + 1) else (lv, 0)

/-- STACK_TEMP_SAMPLE (R308, R309, R379): a reading in 0.25 °C. -/
def State.stackSample (k : Nat) (t : Int) (s : State) : State :=
  let s := s.setOv (stackTempId + k) (ofInt 16 t)
  let hot := s.power.hotStacks.filter (· != k)
  let s := s.setPower { s.power with hotStacks := if 380 ≤ t then hot ++ [k] else hot }
  let r := stackLevel (tget 0 s.mem.level k) (tget 0 s.mem.below k) (4 * (s.ov (stackThrottleId + k) : Nat)) t
  let s := if s.power.rails then
      s.setMem { s.mem with
        level := tset 0 s.mem.level k r.1
        below := tset 0 s.mem.below k r.2 }
    else s
  if 380 ≤ t then s.lastLine 3 k (ofInt 16 t) else s

/-- COOLANT_OK_LOW (R379): while the main rails are on it stops the module; the record names no unit (R380). -/
def State.coolantLow (s : State) : State :=
  let s := s.setPins { s.pins with coolantOk := false }
  let v := Config.coolantPlace s.free
  s.fresh.lastLine 1 (v % 256) (v / 256 % 65536)

/-! GDDR7 and scrub. -/

/-- GDDR_TEMP_READ (R296): the hottest device, and the halved refresh interval above 85 °C. -/
def State.gddrTemp (temps : List Int) (s : State) : State :=
  match temps with
  | [] => s
  | t :: ts =>
    let m := maxOf t ts
    (s.setOv gddrTempId (ofInt 16 m)).setMem { s.mem with gddrHot := decide (340 < m) }

/-- GDDR7_REALIGN holds a channel for at most 200 ns and changes nothing else (R298). -/
def State.gddrRealign (s : State) : State := s

/-- GDDR7_DEVICE_LOST in operation (R299, R387). -/
def State.gddrLost (s : State) : State :=
  if s.mem.gddr = .online then
    ((s.setMem { s.mem with gddr := .offline }).service 7).uncovered 0x15 0 allCtx
  else s

/-- SCRUB_READ of the granule that holds an address (R300, R302): a correctable error is counted; scrub neither creates nor
clears poison. -/
def State.scrub (addr : Nat) (err : MemErr) (s : State) : State :=
  match err with
  | .corrected => if s.power.rails then s.memErr (addr / 64 * 64) .corrected else s
  | _ => s

/-! The journal (R392, R394). -/

/-- What a completed journal write adds to what the caddy reads from flash. -/
def State.recordDone (s : State) (r : JRec) : State :=
  let f := s.flash
  match r with
  | .fault b => s.setFlash { f with log := (b :: f.log).take 256 }
  | .stopCause r => s.setFlash { f with stopCause := r }
  | .spare k u b => s.setFlash { f with spares := f.spares ++ [(k, u, b)] }
  | .powerLog n => s.setFlash { f with
      powerLog := s.power.lossTime % 2 ^ 64 + s.power.losing * 2 ^ 64 + n % 65536 * 2 ^ 80 }
  | _ => s

/-- The end of the power-loss sequence: a RESET# that waited takes effect (R395, R487). -/
def State.lossOver (s : State) : State :=
  let w := s.power.resetWaits
  let s := s.setPower { s.power with
    losing := 0
    resetWaits := false }
  if w then s.moduleReset else s

/-- JOURNAL_WRITE_DONE: the write in progress is committed and the next begins. -/
def State.journalDone (s : State) : State :=
  match s.flash.queue with
  | r :: rs =>
    let s := ((s.recordDone r).versionDone r)
    let s := s.setFlash { s.flash with queue := rs }
    (if s.power.losing ≠ 0 ∧ r.isLoss then s.lossOver.journalBegin
     else if s.power.losing = 0 ∨ rs.any JRec.isLoss then s.journalBegin
     else s).journalled
  | [] => s

/-! Power loss (R395, R396). -/

/-- The loss is detected: no tile is accepted, FAULT# is asserted, and behind the journal write in progress only
POWER_LOSS_LOG is still written, with that write's RECORD_ID (R395, R396). -/
def State.lossBegins (s : State) (b : Nat) : State :=
  let first := s.power.losing == 0
  let time := s.ftRead mgmtPs
  let now_ := s.flash.queue.take 1
  let n := match now_ with
    | r :: _ => r.id
    | [] => 0xFFFF
  let s := (s.setPower { s.power with
    halted := true
    losing := s.power.losing ||| b
    lossTime := if first then time else s.power.lossTime }).setOut { s.out with faultPin := true }
  if first then
    let later := (s.flash.queue.drop 1).filter (fun r => !r.isFault)
    let s := s.setFlash { s.flash with queue := now_ ++ [.powerLog n] ++ later }
    if now_ = [] then s.journalBegin else s
  else s

/-- POWER_LOSS: the write in progress completes, no other starts but POWER_LOSS_LOG; the main domain goes off (R395). With
the hold-up exhausted there is nothing left to lose (R486). A stopped module stays stopped (R380). -/
def State.powerLoss (i : PowerInput) (s : State) : State :=
  let s := s.setPins (match i with
    | .p50v => { s.pins with p50v := false }
    | .p5v => { s.pins with p5v := false })
  if s.power.standby = false then s
  else
    let on := s.power.rails || s.power.main == .sequencing
    let s := s.lossBegins (match i with
      | .p50v => 1
      | .p5v => 2)
    let stopped := s.power.main == .stopped
    let s := if on then s.mainOff else s
    s.setPower { s.power with main := if stopped then .stopped else .off }

/-- HOLD_UP_EXHAUSTED: the standby domain goes off; writes not complete are lost and both outputs are released (R395,
R396, R486). -/
def State.holdUpEnd (s : State) : State :=
  if s.pins.p5v = false then
    let s := s.standbyOn
    (s.setPins { s.pins with p5v := false }).setPower { s.power with standby := false }
  else s

/-! Core failures (R125, R126). -/

/-- A listed entry for a tile that a core had accepted (R125). -/
def Tile.relist (t : Tile) : Entry :=
  { desc := t.desc
    ctx := t.ctx
    seq := t.seq
    die := t.die
    readyAt := none
    taken := true
    reissued := true }

/-- The core's accepted tiles return to their lists (R125). -/
def State.withdrawTiles (s : State) (core : Nat) : State :=
  let s' := s.modCore core ({ · with tiles := [] })
  let s' := (s.core core).onCore.foldl (fun s t => s.repost t.relist) s'
  let s' := s'.setFab { s'.fab with tileReqs := s'.fab.tileReqs.filter (fun r => r.core != core) }
  s'.setRed { s'.red with drains := s'.red.drains.filter (fun d => d.core != core) }

/-- Contexts with a resident area (R126). -/
def State.residentCtxs (s : State) : List Nat := allCtx.filter (fun c => s.ov (lsResidentId + c) != 0)

/-- The failed core held stateful work (R126). -/
def State.stateful (s : State) (core : Nat) : Bool :=
  let c := s.core core
  c.slots.any (fun p => p.2.st == .held) ||
    c.onCore.any (fun t => dType t.desc == 3 || (dType t.desc == 0 && (dAccMode t.desc == 2 || dHold t.desc))) ||
    s.residentCtxs != []

/-- The contexts that a core failure latches (R387). -/
def State.failCtxs (s : State) (core : Nat) : List Nat := ((s.core core).ctx :: s.residentCtxs).dedup

/-- A core as its spare takes it over: suspended tiles and the running context stay, everything in the core is lost
(R125, R126). -/
def Core.taken (c : Core) (clk : Nat) : Core :=
  { Core.init with
    ctx := c.ctx
    sliceAt := c.sliceAt
    suspended := c.suspended.filter (fun t => !(c.unsaved t))
    savedChains := c.savedChains
    savedHeld := c.savedHeld
    idleFrom := clk
    idleQ := c.idleQ }

/-- A takeover that finds no spare: the core goes OFFLINE, an uncovered fault (R15, R387). -/
def State.coreLost (s : State) (core : Nat) (ctxs : List Nat) : State :=
  ((s.modCore core (fun c => { c.taken s.clk with fenced := true })).substitute core).uncovered 0x11 core ctxs

/-- CORE_FAILURE_DETECT (R125, R126): fenced, tiles withdrawn, and the takeover begins or waits. -/
def State.coreFail (core : Nat) (s : State) : State :=
  let c := s.core core
  if s.power.rails = false ∨ c.fenced ∨ s.sched.offline.contains core = true then s
  else
    let state := s.stateful core
    let ctxs := s.failCtxs core
    let waits := s.sched.takeovers.any (fun n => n / 64 == core / 64)
    let s := (s.withdrawTiles core).modCore core (fun c => { c.taken s.clk with fenced := true })
    if waits = false ∧ s.spares (core / 64) = [] then s.coreLost core ctxs
    else
      let s := s.setSched { s.sched with takeovers := s.sched.takeovers ++ [core] }
      if state then s.uncovered 0x10 core ctxs else s.covered 3 core

/-- WATCHDOG_EXPIRY: an accepted tile makes no progress outside forced idle and switching (R125). -/
def State.watchdog (core : Nat) (s : State) : State :=
  let c := s.core core
  if c.tiles ≠ [] ∧ c.idleQ = false ∧ c.switchTo = none then s.coreFail core else s

/-- Every takeover that still waits on a die whose spares are used up ends OFFLINE (R15, R126). -/
def State.nextTakeover (s : State) (die : Nat) : State :=
  if s.spares die = [] then
    (s.sched.takeovers.filter (fun n => n / 64 == die)).foldl (fun s n =>
      (s.setSched { s.sched with takeovers := s.sched.takeovers.filter (· != n) }).coreLost n (s.failCtxs n)) s
  else s

/-- SPARE_CORE_READY: the first takeover of a die ends on its spare (R14, R125). -/
def State.spareReady (die : Nat) (s : State) : State :=
  match (s.sched.takeovers.filter (fun n => n / 64 == die)).head? with
  | some n =>
    let s := s.setSched { s.sched with takeovers := s.sched.takeovers.filter (· != n) }
    ((s.modCore n (fun c => { c with fenced := false, wake := true })).substitute n).nextTakeover die
  | none => s

/-! Rails and management cores. -/

/-- Index of a rail in VR_PHASE records. -/
def Rail.index : Rail → Nat
  | .core d => d
  | .hub => 4
  | .stack n => 5 + n
  | .gddr7 => 9
  | .standby => 10

/-- RAIL_PHASE_LOSS (R25 to R27, R385, R403). -/
def State.phaseLoss (r : Rail) (s : State) : State :=
  let i := Rail.index r
  let n := tget 0 s.power.phases i + 1
  let s := s.setPower { s.power with phases := tset 0 s.power.phases i n }
  if n ≤ sparePhases i then ((s.covered 6 i).journal (.spare 3 i 0)).service 5 else s.service 4

/-- MGMT_TAKEOVER: M1 takes over from M0 (R386). -/
def State.takeover (s : State) : State :=
  let c := s.caddy
  if c.m0 ∧ c.m1 ∧ c.m1Active = false then
    ((((s.setCaddy { c with
      m0 := false
      m1Active := true }).covered 5 0).journal (.spare 4 0 1)).service 6).event 5 0
  else s

/-- M1_FAILURE: without a standby core every attempt fails until reset (R387 code 0x17); before a takeover it leaves M0
without its standby. -/
def State.m1Fail (s : State) : State :=
  let c := s.caddy
  if c.m1 = false then s
  else
    let s := s.setCaddy { c with m1 := false }
    if c.m1Active then (s.setFlash { s.flash with code17 := true }).uncovered 0x17 0 allCtx else s

/-! Bring-up (R465, R466). -/

/-- MAIN_SEQUENCE_START: its conditions hold, so 50 V is within range and COOLANT_OK is high (R466). -/
def State.mainStart (s : State) : State :=
  if s.caddy.ready ∧ s.caddy.recovery = false ∧ s.pins.p5v ∧ s.power.main = .off ∧ s.power.losing = 0 then
    (s.setPins { s.pins with
      p50v := true
      coolantOk := true }).mainBegin
  else s

/-- A row of the main sequence is complete. -/
def State.seqTo (s : State) (row : Nat) : State := s.setPower { s.power with seqRow := row }

/-- What follows a stage of the main sequence: nothing more when it passed; when it failed, the sequence stops there and the
service flag of the unit concerned is set (R466). -/
def State.stageEnd (e : StageEnd) (s : State) : State :=
  match e with
  | .passed => s
  | .failed row flag =>
    let s := s.seqFail row
    match flag with
    | some b => s.service b
    | none => s

/-- RAILS_UP: PLLs locked, fabric time counts, the kettle runs with the voltages of the plan; an ALLOC that was waiting for
the urn goes on (log 15). Where the stage fails, the rails that came on stay on (R466). -/
def State.railsUp (e : StageEnd) (s : State) : State :=
  if s.power.main = .sequencing ∧ s.power.seqRow = 1 then
    if e ≠ .passed then (s.setPower { s.power with rails := true }).stageEnd e
    else
    let s := s.setPower { s.power with
      rails := true
      seqRow := 2 }
    let s := (s.setFt { FabTime.init with
      running := true
      refOk := s.ft.refOk }).ftFresh
    let s := s.applyRaises
    let s := s.setKettle { s.kettle.off with cap := s.ov pwrCapId }
    let s := (allDies.foldl (fun s d => s.modDie d ({ · with mv := s.planMv d 0 })) s).retargetAll
    (if s.pins.brake then s.brakeOn else s).allocResumes
  else s

/-- CORE_SELF_TEST_DONE: positions that failed, by die × 68 + position; failed ACTIVE positions are substituted, and a
spare found failed leaves its die with one fewer (R396, R403, R466, R467). -/
def State.selfTested (fails : List Nat) (e : StageEnd) (s : State) : State :=
  let seq := s.power.main == .sequencing && s.power.seqRow == 2
  if seq || s.power.selfTest then
    let s := s.setPower { s.power with
      coreFails := min fails.length 255
      selfTest := false
      seqRow := if seq then 4 else s.power.seqRow }
    let active := allCores.filter (fun n => fails.contains (posKey (n / 64) (s.posOf n)) && !s.sched.offline.contains n)
    let used := active.map (fun n => posKey (n / 64) (s.posOf n))
    let found := fails.filter (fun f => !used.contains f && !s.sched.dead.contains f)
    let s := s.setSched { s.sched with dead := s.sched.dead ++ found }
    let s := (found.map (· / 68)).dedup.foldl (fun s d => if (s.spares d).length ≤ 1 then s.service 0 else s) s
    let s := active.foldl (fun s n => s.substitute n) s
    if seq then s.stageEnd e else s
  else s

/-- GDDR7_TRAINING_DONE: the rate code at which all devices pass, none where one fails at 28 Gbit/s (R296, R298, R299). -/
def State.gddrTrained (rate : Option Nat) (e : StageEnd) (s : State) : State :=
  if s.power.rails ∧ s.mem.gddr = .training then
    let s := match rate with
    | some r => s.setMem { s.mem with
        gddr := .online
        gddrRate := min r 2 }
    | none => (s.setMem { s.mem with
        gddr := .offline
        gddrRate := 0 }).service 7
    if s.power.main = .sequencing then s.stageEnd e else s
  else s

/-- MEMORY_ZEROED (R289, R466). -/
def State.zeroed (e : StageEnd) (s : State) : State :=
  if s.power.main = .sequencing ∧ s.power.seqRow = 4 ∧ s.mem.gddr ≠ .training then
    if e ≠ .passed then s.stageEnd e
    else (s.setMem { s.mem with
      bytes := []
      poison := [] }).seqTo 5
  else s

/-- MAIN_READY (R466, R467). -/
def State.mainReady (e : StageEnd) (s : State) : State :=
  if s.power.main = .sequencing ∧ s.power.seqRow = 5 then
    if e ≠ .passed then s.stageEnd e
    else s.setPower { s.power with
      main := .ready
      seqRow := 7
      readyMs := (s.clk - s.power.seqStart) / 1000000
      halted := false }
  else s

/-- CADDY_READY: the journal is restored and the tray bus has joined PLCA (R307, R434, R465). -/
def State.caddyReady (s : State) : State :=
  if s.caddy.booted ∧ s.pins.p5v ∧ s.caddy.ready = false then
    (s.setCaddy { s.caddy.raiseMin with
      ready := true
      plcaId := s.pins.slotId + 1
      port := s.ov mgmtPortId }).alert
  else s

/-- REFCLK_LOSS: the PCIe link goes down (HOST reset), every other unit continues (R488). -/
def State.refclkLost (s : State) : State := (s.setPins { s.pins with refclk := false }).hostReset false

/-- PCIE_LINK_TRAINING_DONE, and the configuration that the host then sets (R453, R454, R460; log 38). -/
def State.pcieUp (gen width : Nat) (link : PcieLink) (s : State) : State :=
  let g := min gen (s.ov pcieMaxGenId)
  if s.power.rails ∧ s.pins.refclk ∧ pcieRateOk g width link.flit then
    s.setHost { s.host with
      up := true
      gen := g
      width := width
      flit := link.flit
      vfOn := link.vfs
      msix := link.msix.foldl (fun t e => tset 0 t (e.fn * 4096 + e.vector) e.entry) s.host.msix
      bar2Log2 := link.bar2.getD s.host.bar2Log2 }
  else s

/-- PLCA_BEACON_TIMEOUT: the tray bus runs CSMA/CD (R407). -/
def State.plcaTimeout (s : State) : State := s.setCaddy { s.caddy with csma := true }

/-! The commands. -/

/-- THERMAL_SAMPLE (R377). -/
def execThermalSample (temps : List Int) (s : State) : Result := .next (s.thermalSample temps)

/-- STACK_TEMP_SAMPLE (R308, R309). -/
def execStackTempSample (stack : Nat) (t : Int) (s : State) : Result := need (dieOk stack) (.next (s.stackSample stack t))

/-- COOLANT_OK_LOW (R379). -/
def execCoolantOkLow (s : State) : Result := .next s.coolantLow

/-- GDDR_TEMP_READ (R296). -/
def execGddrTempRead (temps : List Int) (s : State) : Result := .next (s.gddrTemp temps)

/-- GDDR7_REALIGN (R298). -/
def execGddr7Realign (s : State) : Result := .next s.gddrRealign

/-- GDDR7_DEVICE_LOST (R299). -/
def execGddr7DeviceLost (s : State) : Result := .next s.gddrLost

/-- SCRUB_READ (R302). -/
def execScrubRead (addr : Nat) (err : MemErr) (s : State) : Result := .next (s.scrub addr err)

/-- JOURNAL_WRITE_DONE (R394). -/
def execJournalWriteDone (s : State) : Result := .next s.journalDone

/-- POWER_LOSS (R395). -/
def execPowerLoss (input : PowerInput) (s : State) : Result := .next (s.powerLoss input)

/-- HOLD_UP_EXHAUSTED (R395, R486). -/
def execHoldUpExhausted (s : State) : Result := .next s.holdUpEnd

/-- CORE_FAILURE_DETECT (R125). -/
def execCoreFailureDetect (core : Nat) (s : State) : Result := need (coreOk core) (.next (s.coreFail core))

/-- WATCHDOG_EXPIRY (R125). -/
def execWatchdogExpiry (core : Nat) (s : State) : Result := need (coreOk core) (.next (s.watchdog core))

/-- SPARE_CORE_READY (R125). -/
def execSpareCoreReady (die : Nat) (s : State) : Result := need (dieOk die) (.next (s.spareReady die))

/-- RAIL_PHASE_LOSS (R25, R26). -/
def execRailPhaseLoss (rail : Rail) (s : State) : Result := need rail.wf (.next (s.phaseLoss rail))

/-- MGMT_TAKEOVER (R386). -/
def execMgmtTakeover (s : State) : Result := .next s.takeover

/-- M1_FAILURE (R387). -/
def execM1Failure (s : State) : Result := .next s.m1Fail

/-- POWER_ON (R463, R465): the straps are read (R486). -/
def execPowerOn (s : State) : Result := .next s.standbyOn.readSlot

/-- CADDY_READY (R465). -/
def execCaddyReady (s : State) : Result := .next s.caddyReady

/-- MAIN_SEQUENCE_START (R466). -/
def execMainSequenceStart (s : State) : Result := .next s.mainStart

/-- RAILS_UP (R466). -/
def execRailsUp (e : StageEnd) (s : State) : Result := need (e.within 2 2) (.next (s.railsUp e))

/-- CORE_SELF_TEST_DONE (R466, R467). -/
def execCoreSelfTestDone (fails : List Nat) (e : StageEnd) (s : State) : Result :=
  need (e.within 3 4) (.next (s.selfTested fails e))

/-- GDDR7_TRAINING_DONE (R298). -/
def execGddr7TrainingDone (rate : Option Nat) (e : StageEnd) (s : State) : Result :=
  need (e.within 5 5) (.next (s.gddrTrained rate e))

/-- MEMORY_ZEROED (R289). -/
def execMemoryZeroed (e : StageEnd) (s : State) : Result := need (e.within 5 5) (.next (s.zeroed e))

/-- MAIN_READY (R466). -/
def execMainReady (e : StageEnd) (s : State) : Result := need (e.within 6 7) (.next (s.mainReady e))

/-- REFCLK_LOSS (R488). -/
def execRefclkLoss (s : State) : Result := .next s.refclkLost

/-- PCIE_LINK_TRAINING_DONE (R453). -/
def execPcieLinkTrainingDone (gen width : Nat) (link : PcieLink) (s : State) : Result :=
  need link.wf (.next (s.pcieUp gen width link))

/-- PLCA_BEACON_TIMEOUT (R407). -/
def execPlcaBeaconTimeout (s : State) : Result := .next s.plcaTimeout

/-- HOST_RESET (R463): the command does not tell which trigger it was, and only a Function Level Reset leaves the link trained: a
free value (log 38). -/
def execHostReset (s : State) : Result := .next (s.hostReset (Config.pfReset s.free)).fresh

end Sys2Proof.Machine
end

