-- ==== Sys2Proof/Machine/Exchange.lean ====
section
/-!
DEFINITION. The token exchange engine: claims (R208, R209), admission (R205 to R216), messages (R217, R218), dispatch,
return, combine and the backward pass (R219 to R223), deadlines and errors (R226 to R229).
Choices and readings that the model fixes here: log 21.
-/

namespace Sys2Proof.Machine

/-! Claims. -/

/-- CMD of an EXCHANGE tile; one with a reserved CMD is refused with the ADMIT tiles. -/
def xKind (d : WorkDesc) : Nat := if 4 < xCmd d then 0 else xCmd d

/-- Open exchanges of a context. -/
def State.openCount (s : State) (ctx : Nat) : Nat := (s.txe.opens.filter (fun x => x.ctx == ctx)).length

/-- The tags of an open exchange that a DISPATCH tile names are not final yet (R212). -/
def State.tagsOpen (s : State) (e : Entry) : Bool :=
  s.txe.opens.any (fun x => x.ctx == e.ctx && x.id == xId e.desc && x.bwd == xBwd e.desc && !x.tileDone &&
    (x.unread || x.round != 2))

/-- An EXCHANGE tile that the TXE may take (R107, R209). DESIGN CHOICE (log 21): an ADMIT ends only with its exchange, so that no
wait of a DISPATCH can name the moment at which its tags are final: the TXE takes it from that moment on. -/
def State.txeReady (s : State) (e : Entry) : Bool :=
  dType e.desc == 6 && s.waits e == .met && !s.power.halted && (s.stp e.ctx).st != .replaying &&
    !((xKind e.desc == 0 || xKind e.desc == 4) && decide (256 ≤ s.openCount e.ctx)) &&
    !(xKind e.desc == 1 && s.tagsOpen e)

/-- PRIORITY, then age (R209). -/
def xBefore (a b : Entry) : Bool :=
  if dPrio a.desc ≠ dPrio b.desc then decide (dPrio b.desc < dPrio a.desc) else decide (a.seq < b.seq)

/-- An EXCHANGE tile of a CMD whose waits fail to translate or whose round is overrun. -/
def State.badWaitX (s : State) (cmd : Nat) : Option (Entry × Nat) :=
  (((List.range 4).flatMap s.dieList).filterMap (fun e =>
    if dType e.desc = 6 ∧ xKind e.desc = cmd then
      match s.waits e with
      | .mapInvalid => some (e, 0x20)
      | .overrun => some (e, 0x21)
      | _ => none
    else none)).head?

/-- The tile as the TXE accepts it. -/
def State.newTxe (s : State) (e : Entry) : TxeTile :=
  let bad := s.urnCauses e.ctx e.desc
  { desc := e.desc
    ctx := e.ctx
    seq := e.seq
    acceptTime := s.ftRead hubPs
    reissued := e.reissued
    causes := s.shapeCauses e.desc ++ s.descCauses e.ctx e.desc ++ bad
    flags := 0
    frees := s.urnFrees e.desc bad
    evalC := s.evalAccept e.ctx
    mEff := s.shaped e.desc 0 1 (dRow0 e.desc)
    nEff := s.shaped e.desc 8 1 (dCol0 e.desc)
    acking := false }

/-! Data of peers (R329, R335). -/

/-- What an EXCHANGE tile does once it is accepted: the state with its effects, the causes that its reading met, and the state in
which it waits where some of those are bytes of a peer that have not come (log 21). -/
structure XDone where
  done : State
  causes : List (Nat × Nat)
  waiting : State

/-- A tile with the uncorrectable errors that its reading meets (R292, R311). -/
def TxeTile.finds (x : TxeTile) (s : State) : TxeTile := { x with causes := x.causes ++ sramCauses s.mem.found }

/-- A tile that waits for bytes of peers without an open exchange. -/
def State.holdX (s : State) (x : TxeTile) : State := s.setTxe { s.txe with busy := s.txe.busy ++ [x] }

/-- An accepted tile does its work, or asks peers for what it misses and waits. -/
def XDone.go (r : XDone) (x : TxeTile) : State :=
  if r.causes.any (fun c => isMiss c.1) then r.waiting.foundDone.askPeer txeCore x.ctx x.seq r.causes
  else r.done.foundDone

/-- A tile still awaits a READ of its own. -/
def State.readsOpen (s : State) (x : TxeTile) : Bool :=
  s.fab.tileReqs.any (fun r => !r.write && r.core == txeCore && r.ctx == x.ctx && r.seq == x.seq && r.got.isNone)

/-- A waiting tile of a CMD whose bytes have come. -/
def State.heldX (s : State) (cmd : Nat) : Option TxeTile :=
  (s.txe.busy.filter (fun x => !x.acking && xKind x.desc == cmd && !(s.readsOpen x))).head?

/-- An exchange whose tile, of a CMD, waited for operands of peers that have come. -/
def State.unreadX (s : State) (cmd : Nat) : Option Exch :=
  (s.txe.opens.filter (fun x => x.unread && !x.tileDone && xKind x.tile.desc == cmd && !(s.readsOpen x.tile))).head?

/-- A tile accepted earlier goes on, if one of the CMD can: one held without an exchange by `run`, one of an open exchange by
`read`. -/
def State.resumeX (s : State) (cmd : Nat) (run : TxeTile → State → XDone) (read : Exch → State → XDone) : Option State :=
  match s.heldX cmd, s.unreadX cmd with
  | some x, _ =>
    some ((run (x.finds s) (s.setTxe { s.txe with
      busy := s.txe.busy.filter (fun y => !(y.ctx == x.ctx && y.seq == x.seq)) })).go x)
  | none, some y => some ((read { y with tile := y.tile.finds s } s).go y.tile)
  | none, none => none

/-- The TXE goes on with a tile of the CMD given that waited for peers, or claims the next ready EXCHANGE tile if it is one of
that CMD (R107, R209, R494). -/
def State.claimX (cmd : Nat) (run : TxeTile → State → XDone) (read : Exch → State → XDone) (s : State) : State :=
  let s := s.notice
  match s.badWaitX cmd with
  | some (e, cause) => s.withdraw e 0 cause
  | none =>
    match s.resumeX cmd run read with
    | some t => t
    | none =>
      match pickBy xBefore (((List.range 4).flatMap s.dieList).filter s.txeReady) with
      | none => s
      | some e =>
        if xKind e.desc ≠ cmd then s
        else
          let s := (s.unlist e).takeWaits e
          match s.refusal17 0 e with
          | 0 =>
            let x := s.newTxe e
            let s := (s.urnTileFlags e.desc (s.urnCauses e.ctx e.desc)).evalNote x.evalC
            if x.mEff = 0 ∨ x.nEff = 0 then s.finishX x else (run (x.finds s) s).go x
          | st => s.finish (cplOf e 0 st 0 (s.ftRead hubPs))

/-- Effective token count of a tile (R105, R208). -/
def State.xTokens (s : State) (x : TxeTile) : Nat := s.shaped x.desc 16 (dK x.desc) 0

/-! Operands. -/

/-- Bytes of one row: its elements, and its scales at the next multiple of 16 (R208). -/
def rowLen (t : Tens) : Nat := if t.scaled then alignUp 16 (t.bytesOf t.dim0) + ceilDiv t.dim0 32 else t.bytesOf t.dim0

/-- Bytes of `n` rows of a tensor from its BASE (R208). -/
def rowsLen (t : Tens) (n : Nat) : Nat := if n = 0 then 0 else (n - 1) * t.stride1 + rowLen t

/-- Offset of the rows of a receive region with `n` sections of capacity `c` (R219). -/
def rowsAt (n c : Nat) : Nat := alignUp 256 (0x900 + n * c * 16)

/-- Descriptor and reader of one word of an EXCHANGE tile. -/
structure XOp where
  t : Tens
  rd : Rd
  op : Nat
  /-- bytes from BASE that the tile may write through the word -/
  len : Nat

/-- The urn refused a word of a tile (R313). -/
def TxeTile.bad (x : TxeTile) (i : Nat) : Bool := x.causes.any (fun c => (c.1 == 8 || c.1 == 9) && c.2 == i)

/-- Bytes that the output of a word takes from its BASE: a receive region, a return region, the tag table, or combined rows
(R207, R208, R219). -/
def State.xLen (s : State) (x : TxeTile) (i : Nat) : Nat :=
  let t := s.tensAt (dWord x.desc i)
  let cfg := s.layerCfg (xLayer x.desc)
  let n := (s.sections cfg).length
  match i with
  | 5 => max (rowsAt n (lyCapacity cfg)) (rowsAt n (lyCapacity cfg) + rowsLen t (n * lyCapacity cfg))
  | 6 => rowsLen t (3 * s.xTokens x)
  | _ => if xCmd x.desc = 0 then 48 * s.xTokens x else rowsLen t (s.xTokens x)

/-- Operand `i` of a tile. -/
def State.xOp (s : State) (x : TxeTile) (i : Nat) : XOp :=
  let t := s.tensAt (dWord x.desc i)
  let rd : Rd := fun a n =>
    let r := s.source txeCore x.ctx x.seq x.evalC (x.bad i) t a n
    (lostBytes s.lostNow r.1, r.2)
  ⟨t, rd, i, s.xLen x i⟩

/-- Writes through word `i` of a tile: the new state and the causes met; nothing where EVAL_MEM forbids any of the output
(R474). -/
def State.xPut (s : State) (x : TxeTile) (o : XOp) (off : Nat) (bs : List Byte) : State × List (Nat × Nat) :=
  if x.bad o.op then (s, [])
  else if o.t.cls = 0 ∧ s.evalForbids x.ctx o.t.base o.len then (s, [(0x0A, o.op)])
  else s.applyStore txeCore x.ctx x.seq (o.t.cls, hKey o.t.handle, o.t.base + off, bs, o.op)

/-- Reads at an offset of a word, with the causes met. -/
def XOp.get (o : XOp) (off n : Nat) : List Byte × List (Nat × Nat) :=
  let r := o.rd (o.t.base + off) n
  (r.1, r.2.map (fun c => (c, o.op)))

/-- Elements of the row at an offset as exact values, with the causes and flags met. -/
def XOp.row (o : XOp) (off : Nat) : List Fv × List (Nat × Nat) × Flags :=
  let a := o.t.base + off
  let es := (List.range o.t.dim0).map (fun c =>
    elemAt o.rd o.t.fmt a c (if o.t.scaled then some (a + alignUp 16 (o.t.bytesOf o.t.dim0) + c / 32) else none))
  (es.map (fun e => (elemValue e.1).getD fvZero), es.flatMap (fun e => e.2.1.map (fun k => (k, o.op))),
    es.foldl (fun f e => f ||| e.2.2) flagNone)

/-- A row in a tensor's format, rounded to nearest even with SAT and SCALED of its descriptor (R220, R222). -/
def rowBytesOf (t : Tens) (vs : List Fv) : List Byte × Flags :=
  let r := convLine t.fmt (t.conv - t.conv % 2) (vs.map (fun v => ⟨v, 0⟩))
  let b := packCodes t.w r.1
  (if t.scaled then padSec b ++ r.2.1.map (fun k => BitVec.ofNat 8 k) else b, r.2.2)

/-! Open exchanges, errors and signals. -/

/-- An open exchange. -/
def State.exch (s : State) (ctx id : Nat) (bwd : Bool) : Option Exch :=
  (s.txe.opens.filter (fun x => x.ctx == ctx && x.id == id && x.bwd == bwd)).head?

/-- Two records are of one exchange. -/
def Exch.same (x y : Exch) : Bool := x.ctx == y.ctx && x.id == y.id && x.bwd == y.bwd

/-- Replaces an open exchange. -/
def State.putExch (s : State) (x : Exch) : State :=
  s.setTxe { s.txe with opens := s.txe.opens.map (fun y => if x.same y then x else y) }

/-- Closes an exchange. -/
def State.dropExch (s : State) (x : Exch) : State :=
  s.setTxe { s.txe with opens := s.txe.opens.filter (fun y => !(x.same y)) }

/-- EXCH_ERR_LOG: the first error since it was read (R229). -/
def State.exchLog (s : State) (tile cause dev expert slot : Nat) : State :=
  if s.txe.errLog ≠ 0 then s
  else s.setTxe { s.txe with errLog := tile + cause * 2 ^ 32 + dev * 2 ^ 40 + expert * 2 ^ 56 + slot * 2 ^ 68 }

/-- The tile of an exchange meets causes (R123); one that has ended with a mismatch (R210) fails the step (R124). -/
def State.meetX (s : State) (x : Exch) (cs : List (Nat × Nat)) : State × Exch :=
  let m := s.metX x.ctx cs
  if cs = [] then (s, x)
  else if x.tileDone then (m.1.latch x.ctx 1, x)
  else (m.1, { x with tile := { x.tile with causes := x.tile.causes ++ m.2 } })

/-- An error of an open exchange: logged, and its tile meets the cause (R220, R228, R229). -/
def State.exchErr (s : State) (x : Exch) (log cause dev expert slot : Nat) : State :=
  let r := (s.exchLog (dTileId x.tile.desc) log dev expert slot).meetX x [(cause, 0x0A)]
  r.1.putExch r.2

/-- Writes through a word of an exchange's tile, which meets the causes (R288, R474). -/
def State.exchPut (q : State × Exch) (o : XOp) (off : Nat) (bs : List Byte) : State × Exch :=
  let r := q.1.xPut q.2.tile o off bs
  r.1.meetX q.2 r.2

/-- A tile that opens no exchange or ends without effect: DEFECTIVE with an exchange cause. -/
def State.exchRefuse (s : State) (x : TxeTile) (log cause : Nat) : State :=
  (s.exchLog (dTileId x.desc) log 0 0 0).finishX { x with causes := x.causes ++ [(cause, 0x0A)] }

/-- Rows of which every byte has arrived. -/
def wholeRows (t : Tbl Nat) (n : Nat) : Nat := (t.filter (fun p => decide (n ≤ p.2))).length

/-- Applies the signals whose condition holds (R208) and closes an exchange whose signals are both applied (R209); its ADMIT or
OPEN_BWD tile ends with it. DEDUCED (log 21): a row that fits nothing makes that tile DEFECTIVE (R220, R228), and the deadline
ends it where it is still outstanding (R226), so that it ends no sooner than the last row can come. -/
def State.exchGo (s : State) (ctx id : Nat) (bwd : Bool) : State :=
  match s.exch ctx id bwd with
  | none => s
  | some x =>
    let d := x.tile.desc
    let arr := !x.arriveDone && x.allotFinal &&
      wholeRows x.rowBytes (rowLen (s.tensAt (dWord d 5))) == (x.allot.map (·.2)).sum
    let ret := !x.returnDone && (match x.expect with
      | some n => wholeRows x.retBytes (rowLen (s.tensAt (dWord d 6))) == n
      | none => false)
    let x := { x with arriveDone := x.arriveDone || arr, returnDone := x.returnDone || ret }
    let s := if x.arriveDone && x.returnDone then s.dropExch x else s.putExch x
    let s := if arr then s.signalWord ctx (xArrive d) else s
    let s := if ret then s.signalWord ctx (xReturn d) else s
    if x.arriveDone && x.returnDone && !x.tileDone then s.finishX x.tile else s

/-! Messages (R217). -/

/-- Packet body of one exchange message. -/
def State.xBody (s : State) (ctx fop id layer : Nat) (bwd : Bool) (round : Nat) (more : Bool) (entries w2 w3 : Nat)
    (data : List Byte) : List Byte :=
  mkBody 16 [(0, 8, fop), (8, 1, ofBool bwd), (9, 1, round), (10, 1, s.stepNo ctx), (11, 1, s.attemptNo ctx),
    (12, 1, ofBool more), (16, 12, id), (32, 12, layer), (48, 16, entries), (64, 32, w2), (96, 32, w3)] ++ data

/-- Sends the entries of a COUNT, GRANT or ALLOT message, in packets of at most 7,680 bytes of them. -/
def State.xSend (s : State) (x : Exch) (vc fop round dst w2 size : Nat) (entries : List Nat) : State :=
  let per := 7680 / size
  let n := max 1 (ceilDiv entries.length per)
  (List.range n).foldl (fun s i =>
    let es := (entries.drop (per * i)).take per
    s.send hubTxe vc x.ctx dst (s.xBody x.ctx fop x.id x.layer false round (decide (i + 1 < n)) es.length w2 0
      (es.flatMap (toLE size)))) s

/-- Sends a row with its tag in chunks (R218). -/
def State.xRow (s : State) (ctx vc fop id layer : Nat) (bwd : Bool) (dst : Nat) (tag row : List Byte) : State :=
  (List.range (ceilDiv row.length 7680)).foldl (fun s i =>
    s.send hubTxe vc ctx dst (s.xBody ctx fop id layer bwd 0 (decide (7680 * (i + 1) < row.length)) 1 row.length (7680 * i)
      (tag ++ (row.drop (7680 * i)).take 7680))) s

/-- Keeps the entries of an arriving packet (R217). -/
def Exch.keep (x : Exch) (kind src round w2 : Nat) (more : Bool) (es : List Nat) : Exch :=
  let is := fun (m : ExchMsg) => m.kind == kind && m.src == src && m.round == round
  match (x.msgs.filter is).head? with
  | some m => { x with msgs := x.msgs.map (fun y => if is y then { m with last := !more, entries := m.entries ++ es } else y) }
  | none => { x with msgs := x.msgs ++ [⟨kind, src, round, w2, !more, es⟩] }

/-- The complete message of a kind, source and round. -/
def Exch.msg (x : Exch) (kind src round : Nat) : Option ExchMsg :=
  (x.msgs.filter (fun m => m.kind == kind && m.src == src && m.round == round && m.last)).head?

/-- Entries of a message for an expert; 0 where it lists none. -/
def entryOf (es : List Nat) (e : Nat) : Nat := ((es.filter (fun v => bits v 0 12 == e)).head?).getD 0

/-- The packet's exchange is open here, and its PARITY and ATTEMPT are current (R227). -/
def State.exchOf (s : State) (p : Packet) : Option Exch :=
  if p.field 10 1 = s.stepNo p.ctx % 2 ∧ p.field 11 1 = s.attemptNo p.ctx % 2 then
    s.exch p.ctx (p.field 16 12) (p.field 8 1 == 1)
  else none

/-- Entries of an arriving packet, `size` bytes each. -/
def xEntries (p : Packet) (size : Nat) : List Nat :=
  (List.range (p.field 48 16)).map (fun i => leNat (((p.body.drop (16 + size * i)).take size)))

/-! Admission (R210 to R214). -/

/-- Expert and weight of a gate record's rank (R205). -/
def gExp (g k : Nat) : Nat := bits g (16 * k) 12
def gW (g k : Nat) : Nat := bits g (64 + 16 * k) 16

/-- Ranks chosen: 0, and 1 in a top-2 layer. -/
def chosen (cfg : Nat) : List Nat := if lyTop2 cfg then [0, 1] else [0]

/-- Rank of the fallback choice (R205). -/
def fbRank (cfg : Nat) : Nat := if lyTop2 cfg then 2 else 1

/-- A token's rank-1 choice repeats its rank-0 choice: refused without being counted (R205, R210). -/
def TokGate.dup (x : TokGate) (k : Nat) : Bool := k == 1 && gExp x.gate 1 == gExp x.gate 0

/-- A choice that is considered: of a chosen rank, not skipped, not a repetition. -/
def TokGate.considers (cfg : Nat) (x : TokGate) (k : Nat) : Bool := !x.skip && (chosen cfg).contains k && !x.dup k

/-- A choice that requests capacity. -/
def TokGate.asks (cfg : Nat) (x : TokGate) (k : Nat) : Bool := x.considers cfg k && decide (gExp x.gate k < lyExperts cfg)

/-- Tokens, ascending, that satisfy `p` and name an expert at a rank. -/
def Exch.who (x : Exch) (p : TokGate → Nat → Bool) (k e : Nat) : List Nat :=
  (List.range x.toks.length).filter (fun t =>
    match x.toks[t]? with
    | some g => p g t && gExp g.gate k == e
    | none => false)

/-- Position granted to token `t` in a round, where `slot` is the field of GRANT entries and `who` its requesters (R211). -/
def State.posIn (s : State) (x : Exch) (round slot e t : Nat) (who : List Nat) : Option Nat :=
  match x.msg 1 (s.expertHome (s.layerCfg x.layer) e) round, findIdx (· == t) who with
  | some m, some i =>
    let v := entryOf m.entries e
    if i < bits v (16 + 16 * slot) 16 then some (bits v (64 + 16 * slot) 16 + i) else none
  | _, _ => none

/-- Position of a chosen rank of a token after round 1. -/
def State.pos1 (s : State) (x : Exch) (g : TokGate) (t k : Nat) : Option Nat :=
  let cfg := s.layerCfg x.layer
  if g.asks cfg k then s.posIn x 0 k (gExp g.gate k) t (x.who (fun g _ => g.asks cfg k) k (gExp g.gate k)) else none

/-- A token tries its fallback choice (R213). -/
def State.tries (s : State) (x : Exch) (g : TokGate) (t : Nat) : Bool :=
  let cfg := s.layerCfg x.layer
  let refused := (chosen cfg).filter (fun k => (s.pos1 x g t k).isNone)
  let f := fbRank cfg
  let wf := decodeFloat .g16 (gW g.gate f)
  match refused.getLast? with
  | none => false
  | some k =>
    let wr := (fvAdd false (decodeFloat .g16 (gW g.gate k)) (fvNeg (decodeFloat .g16 (lyMargin cfg)))).1
    lyPolicy cfg == 1 && !g.skip && (chosen cfg).all (fun k => gExp g.gate k != gExp g.gate f) &&
      wf != .nan && wr != .nan && wf != .inf true && !(fvLt wf wr)

/-- Position of the fallback choice of a token after round 2. -/
def State.pos2 (s : State) (x : Exch) (g : TokGate) (t : Nat) : Option Nat :=
  let cfg := s.layerCfg x.layer
  let f := fbRank cfg
  if s.tries x g t ∧ gExp g.gate f < lyExperts cfg then
    s.posIn x 1 2 (gExp g.gate f) t (x.who (fun g t => s.tries x g t) f (gExp g.gate f))
  else none

/-- COUNT messages of a round to every home (R210, R213). -/
def State.sendCounts (s : State) (x : Exch) (round : Nat) : State :=
  let cfg := s.layerCfg x.layer
  let n := fun (k e : Nat) =>
    if round = 1 then 0 else (x.who (fun g _ => g.asks cfg k) k e).length
  let nf := fun (e : Nat) => if round = 0 then 0 else (x.who (fun g t => s.tries x g t) (fbRank cfg) e).length
  (s.homes cfg).foldl (fun s h =>
    let es := ((s.placed cfg).filter (fun e => s.expertHome cfg e == h)).filterMap (fun e =>
      if n 0 e + n 1 e + nf e = 0 then none else some (e + n 0 e * 2 ^ 16 + n 1 e * 2 ^ 32 + nf e * 2 ^ 48))
    s.xSend x 9 0x50 round h (s.cfgCheck cfg) 8 es) s

/-- Exact sum of values, with INVALID where it arises (R45). -/
def fvSum (vs : List Fv) : Fv × Flags :=
  vs.foldl (fun (a : Fv × Flags) v => let r := fvAdd false a.1 v; (r.1, a.2 ||| r.2)) (fvZero, flagNone)

/-- Exact quotient for one rounding: NaN for a NaN and for 0 ÷ 0 (R45). A finite non-zero value over 0 and infinity over
infinity have no value in the spec: the code given, in G16 (log 21). -/
def exactDiv (open_ : Nat) (x y : Fv) : Fv × Flags :=
  match x, y with
  | .nan, _ => (.nan, flagNone)
  | _, .nan => (.nan, flagNone)
  | .fin s m e, .fin t n f =>
    if n = 0 then (if m = 0 then (.nan, flagInvalid) else (decodeFloat .g16 (open_ % 65536), flagNone))
    else (fvOfRat (ratOf s m e / ratOf t n f), flagNone)
  | .fin _ _ _, .inf _ => (fvZero, flagNone)
  | .inf s, .fin t _ _ => (.inf (s != t), flagNone)
  | .inf _, .inf _ => (decodeFloat .g16 (open_ % 65536), flagNone)

/-- Combine weight of rank `k` of a token and the flags of its rounding (R214): `adm` are its admitted ranks. -/
def combineWeight (cfg t : Nat) (g : TokGate) (adm : List Nat) (k : Nat) : Nat × Flags :=
  let base := (chosen cfg).filter (fun k => !g.dup k)
  let w := fun k => gW g.gate k
  if adm.contains k = false ∨ lyPolicy cfg = 2 ∨ base = adm then (w k, flagNone)
  else
    let v := fun (k : Nat) => decodeFloat .g16 (w k)
    let x := fvSum (base.map v)
    let a := fvSum (adm.map v)
    let p := fvMul (v k) x.1
    let r := exactDiv (Config.gateWeight t k (w k)) p.1 a.1
    let c := toFloat .g16 .rne false r.1
    (c.1, x.2 ||| a.2 ||| p.2 ||| r.2 ||| c.2)

/-- The 16 bytes of a token tag (R207). -/
def tagBytes (dev slot seq layer expert rank parity w dest rep : Nat) (adm r2 skip : Bool) (att : Nat) : List Byte :=
  mkBody 16 [(0, 16, dev), (16, 16, slot), (32, 16, seq), (48, 12, layer), (64, 12, expert), (76, 2, rank), (78, 1, parity),
    (80, 16, w), (96, 16, dest), (112, 3, rep), (115, 1, 1), (116, 1, ofBool adm), (117, 1, ofBool r2), (118, 1, ofBool skip),
    (119, 1, att)]

/-- The three tags of a token, the number admitted, and the flags (R207, R212, R214). -/
def State.tokenTags (s : State) (x : Exch) (g : TokGate) (t : Nat) : List Byte × Nat × Flags :=
  let cfg := s.layerCfg x.layer
  let f := fbRank cfg
  let pos := fun k => if k = f then s.pos2 x g t else s.pos1 x g t k
  let adm := ([0, 1, 2] : List Nat).filter (fun k => (pos k).isSome)
  let rs := ([0, 1, 2] : List Nat).map (fun k =>
    let e := gExp g.gate k
    let mk := fun (w : Nat) (j : Option Nat) (skip : Bool) =>
      let p := max 1 (mapP (s.expertMap cfg e))
      tagBytes s.me t g.seq x.layer e k (s.stepNo x.ctx) w ((j.getD 0) / p) ((j.getD 0) % p) j.isSome
        (j.isSome && k == f) skip (s.attemptNo x.ctx)
    if g.skip then (if k = 0 then mk (gW g.gate 0) none true else List.replicate 16 0, flagNone)
    else if g.considers cfg k ∨ (k = f ∧ s.tries x g t) then
      let w := combineWeight cfg t g adm k
      (mk w.1 (pos k) false, w.2)
    else (List.replicate 16 0, flagNone))
  (rs.flatMap (·.1), adm.length, rs.foldl (fun f r => f ||| r.2) flagNone)

/-- The tags are final: the tag table is written and the expected returns are known (R212, R214). -/
def State.admitDone (s : State) (x : Exch) : State :=
  let rs : List (List Byte × Nat × Flags) := x.toks.zipIdx.map (fun p => s.tokenTags x p.1 p.2)
  let n : Nat := (rs.map (fun q => q.2.1)).sum
  let fl : Flags := rs.foldl (fun f q => f ||| q.2.2) x.tile.flags
  let cfg := s.layerCfg x.layer
  let far := (x.toks.zipIdx.filter (fun p => s.tries x p.1 p.2 && decide (lyExperts cfg ≤ gExp p.1.gate (fbRank cfg)))).head?
  let s := match far with
    | some p => s.exchLog (dTileId x.tile.desc) 1 0 (gExp p.1.gate (fbRank cfg)) p.2
    | none => s
  let x := { x with
    tile := { x.tile with
      causes := x.tile.causes ++ (if far.isSome then [(0x10, 0)] else [])
      flags := fl }
    round := 2
    expect := some n }
  let r := State.exchPut (s, x) (s.xOp x.tile 4) 0 (rs.flatMap (·.1))
  (r.1.putExch r.2).exchGo x.ctx x.id x.bwd

/-- The source goes on once every home has granted a round (R211, R213). -/
def State.sourceGo (s : State) (x : Exch) : State :=
  let cfg := s.layerCfg x.layer
  if x.round = 2 ∨ (s.homes cfg).any (fun h => (x.msg 1 h x.round).isNone) = true then s.putExch x
  else if x.round = 0 ∧ lyPolicy cfg = 1 ∧ s.homes cfg ≠ [] then
    let x := { x with round := 1 }
    (s.putExch x).sendCounts x 1
  else (s.putExch x).admitDone x

/-- Reads a tile's tokens (R205, R206): what each asks, and the causes met. DESIGN CHOICE (log 47): the layer-skip list has as many
entries as its descriptor's rows hold, DIM1 rows at STRIDE1 of DIM0 elements' bytes ÷ 4 entries, and the skip mask lies flat at
BASE. -/
def State.readTokens (s : State) (x : TxeTile) (n : Nat) : List TokGate × List (Nat × Nat) :=
  let d := x.desc
  let g := s.xOp x 0
  let q := s.xOp x 1
  let m := s.xOp x 2
  let l := s.xOp x 3
  let per := l.t.bytesOf l.t.dim0 / 4
  let lst := if dWord d 3 = 0 then [] else
    ((List.range l.t.dim1).flatMap (fun j => (List.range per).map (fun i => l.get (j * l.t.stride1 + 4 * i) 4))).take 4096
  let rs := (List.range n).map (fun t =>
    let a := g.get (t * g.t.stride1) 16
    let b := q.get (t * q.t.stride1) 2
    let c := if dWord d 2 = 0 then ([0], []) else m.get (t / 8) 1
    let v := leNat a.1
    let sq := leNat b.1
    let inList := lst.any (fun e => bits (leNat e.1) 0 16 == sq && bits (leNat e.1) 16 12 == xLayer d)
    ((⟨v, sq, bit v 47 || bit (leNat c.1) (t % 8) || inList⟩ : TokGate), a.2 ++ b.2 ++ c.2))
  (rs.map (·.1), rs.flatMap (·.2) ++ lst.flatMap (·.2))

/-- An exchange as it opens, with nothing of its operands read. -/
def State.newExch (s : State) (x : TxeTile) (bwd : Bool) : Exch :=
  { ctx := x.ctx
    id := xId x.desc
    bwd := bwd
    layer := xLayer x.desc
    tile := x
    tileDone := false
    unread := true
    openedAt := s.ftRead hubPs
    tokens := s.xTokens x
    toks := []
    round := if bwd then 2 else 0
    msgs := []
    granted := 0
    allot := []
    allotFinal := false
    rowBytes := []
    expect := none
    retBytes := []
    arriveDone := false
    returnDone := false }

/-- Opens an exchange (R209). -/
def State.openX (s : State) (e : Exch) : State := s.setTxe { s.txe with opens := s.txe.opens ++ [e] }

/-- The tokens of an ADMIT are read: every home is asked (R205, R206, R210, R228). -/
def State.admitRead (e : Exch) (s : State) : XDone :=
  let x := e.tile
  let cfg := s.layerCfg e.layer
  let r := s.readTokens x e.tokens
  let far := r.1.zipIdx.filter (fun p => (chosen cfg).any (fun k => p.1.considers cfg k && !(p.1.asks cfg k)))
  let t := match far.head? with
    | some p => s.exchLog (dTileId x.desc) 1 0
        (gExp p.1.gate (((chosen cfg).filter (fun k => p.1.considers cfg k && !(p.1.asks cfg k))).headD 0)) p.2
    | none => s
  let m := t.meetX { e with unread := false, toks := r.1 } (r.2 ++ (if far = [] then [] else [(0x10, 0)]))
  let t := (m.1.putExch m.2).sendCounts m.2 0
  ⟨(t.sourceGo m.2).exchGo e.ctx e.id false, r.2, s⟩

/-- ADMIT (R204, R209, R210); of the two refusals the lower CAUSE comes first (R123). -/
def State.admitX (x : TxeTile) (s : State) : XDone :=
  let cfg := s.layerCfg (xLayer x.desc)
  if (s.exchGroup x.ctx cfg).isNone then ⟨s.exchRefuse x 4 0x30, [], s⟩
  else if (s.exch x.ctx (xId x.desc) false).isSome then ⟨s.exchRefuse x 6 0x34, [], s⟩
  else
    let e := { s.newExch x false with allotFinal := (s.sections cfg).isEmpty }
    State.admitRead e (s.openX e)

/-! The home (R210 to R213, R216). -/

/-- Grants of one expert in one round: (source, slot, granted, offset) in the order of R211. -/
def grantRun (slots srcs : List Nat) (req : Nat → Nat → Nat) (left pos : Nat) : List (Nat × Nat × Nat × Nat) :=
  ((slots.flatMap (fun k => srcs.map (fun i => (i, k)))).foldl
    (fun (q : List (Nat × Nat × Nat × Nat) × Nat × Nat) x =>
      let g := min (req x.1 x.2) q.2.1
      (q.1 ++ [(x.1, x.2, g, q.2.2)], q.2.1 - g, q.2.2 + g)) ([], left, pos)).1

/-- Requests of a source for an expert in a round, by COUNT slot. -/
def Exch.req (x : Exch) (round e src slot : Nat) : Nat :=
  match x.msg 0 src round with
  | some m => bits (entryOf m.entries e) (16 + 16 * slot) 16
  | none => 0

/-- Grants of a round for an expert. -/
def State.grants (s : State) (x : Exch) (srcs : List Nat) (round e : Nat) : List (Nat × Nat × Nat × Nat) :=
  let cfg := s.layerCfg x.layer
  let cap := mapP (s.expertMap cfg e) * lyCapacity cfg
  let r1 := grantRun (chosen cfg) srcs (x.req 0 e) cap 0
  if round = 0 then r1
  else
    let n := (r1.map (fun g => g.2.2.1)).sum
    grantRun [2] srcs (x.req 1 e) (cap - n) n

/-- Rows admitted for an expert up to a round. -/
def State.admittedTo (s : State) (x : Exch) (srcs : List Nat) (round e : Nat) : Nat :=
  ((List.range (round + 1)).map (fun r => ((s.grants x srcs r e).map (fun g => g.2.2.1)).sum)).sum

/-- GRANT and ALLOT messages of a round (R211, R212). DESIGN CHOICE (log 47): P × CAPACITY can exceed 65,535, which the O fields of
R218 do not hold: the low 16 bits of the offset are sent. -/
def State.sendGrants (s : State) (x : Exch) (srcs : List Nat) (round : Nat) : State :=
  let cfg := s.layerCfg x.layer
  let mine := (s.placed cfg).filter (fun e => s.expertHome cfg e == s.me)
  let s := srcs.foldl (fun s src =>
    let es := mine.filterMap (fun e =>
      match x.msg 0 src round with
      | some m =>
        if m.entries.any (fun v => bits v 0 12 == e) then
          some (((s.grants x srcs round e).filter (fun g => g.1 == src)).foldl (fun v g =>
            v + g.2.2.1 * 2 ^ (16 + 16 * g.2.1) + g.2.2.2 % 65536 * 2 ^ (64 + 16 * g.2.1)) e)
        else none
      | none => none)
    s.xSend x 10 0x51 round src 0 16 es) s
  let reps := (mine.flatMap (fun e => mapDevs (s.expertMap cfg e))).dedup
  reps.foldl (fun s dev =>
    let es := mine.filterMap (fun e =>
      (findIdx (· == dev) (mapDevs (s.expertMap cfg e))).map (fun r =>
        let p := mapP (s.expertMap cfg e)
        e + (s.admittedTo x srcs round e + p - 1 - r) / p * 2 ^ 16))
    s.xSend x 9 0x52 round dev 0 8 es) s

/-- Report entries of the home's sections (R216). -/
def State.reports (q : State × Exch) (srcs : List Nat) : State × Exch :=
  let s := q.1
  let x := q.2
  let cfg := s.layerCfg x.layer
  let o := s.xOp x.tile 5
  (s.sections cfg).zipIdx.foldl (fun q p =>
    let e := p.1.1
    if p.1.2 ≠ 0 then q
    else
      let reqs := fun (round slot : Nat) => (srcs.map (fun i => x.req round e i slot)).sum
      let adms := fun (round slot : Nat) => (((s.grants x srcs round e).filter (fun g => g.2.1 == slot)).map (fun g => g.2.2.1)).sum
      let at_ := fun (f : Nat → Nat → Nat) (k : Nat) =>
        if k = fbRank cfg then (if lyPolicy cfg = 1 then f 1 2 else 0) else if (chosen cfg).contains k then f 0 k else 0
      State.exchPut q o (0x100 + 32 * p.2) (mkBody 32 [(0, 12, e), (16, 16, mapP (s.expertMap cfg e)), (32, 32, at_ reqs 0),
        (64, 32, at_ reqs 1), (96, 32, at_ reqs 2), (128, 32, at_ adms 0), (160, 32, at_ adms 1), (192, 32, at_ adms 2)])) q

/-- The home answers a round once every member's COUNT is here; a differing CFG_CHECK ends it with no grants (R210). -/
def State.homeGo (s : State) (x : Exch) : State :=
  let cfg := s.layerCfg x.layer
  let srcs := (s.exchGroup x.ctx cfg).getD []
  if 2 ≤ x.granted then s.putExch x
  else if x.msgs.any (fun m => m.kind == 0 && m.word2 != s.cfgCheck cfg) then
    let x := { x with granted := 2 }
    srcs.foldl (fun s src => s.xSend x 10 0x51 0 src 1 16 []) (s.putExch x)
  else if srcs.all (fun i => (x.msg 0 i x.granted).isSome) then
    let round := x.granted
    let final := round = 1 ∨ lyPolicy cfg ≠ 1
    let x := { x with granted := if final then 2 else 1 }
    let s := s.sendGrants x srcs round
    let r := if final then State.reports (s, x) srcs else (s, x)
    r.1.putExch r.2
  else s.putExch x

/-- A packet of no open exchange, or of another parity or attempt, is counted and dropped (R227). -/
def State.exchStale (s : State) : State := s.bump exchStaleId

/-- EXCH_COUNT at a home. -/
def State.exchCount (p : Packet) (s : State) : State :=
  let s := s.taken p
  match s.exchOf p with
  | none => s.exchStale
  | some x =>
    let x := x.keep 0 p.src (p.field 9 1) (p.field 64 32) (p.field 12 1 == 1) (xEntries p 8)
    (s.homeGo x).exchGo x.ctx x.id x.bwd

/-- EXCH_GRANT at a source. -/
def State.exchGrant (p : Packet) (s : State) : State :=
  let s := s.taken p
  match s.exchOf p with
  | none => s.exchStale
  | some x =>
    if x.round = 2 then s
    else if p.field 64 32 = 1 then
      let tile := { x.tile with causes := x.tile.causes ++ [(0x31, 0x0A)] }
      ((s.exchLog (dTileId tile.desc) 3 p.src 0 0).putExch { x with tile := tile, tileDone := true, round := 2 }).finishX tile
    else s.sourceGo (x.keep 1 p.src (p.field 9 1) 0 (p.field 12 1 == 1) (xEntries p 16))

/-- Shape words of a receive region, and zero reports of sections that are not homed here (R216, R219). -/
def State.writeShapes (q : State × Exch) (counts : Nat → Nat) : State × Exch :=
  let o := q.1.xOp q.2.tile 5
  (q.1.sections (q.1.layerCfg q.2.layer)).zipIdx.foldl (fun q p =>
    let q := State.exchPut q o (4 * p.2) (toLE 4 (counts p.2))
    if p.1.2 = 0 ∨ q.2.bwd then q else State.exchPut q o (0x100 + 32 * p.2) (List.replicate 32 0)) q

/-- EXCH_ALLOT at a replica (R212, R219). -/
def State.exchAllot (p : Packet) (s : State) : State :=
  let s := s.taken p
  match s.exchOf p with
  | none => s.exchStale
  | some x =>
    let cfg := s.layerCfg x.layer
    let secs := s.sections cfg
    let x := x.keep 2 p.src (p.field 9 1) 0 (p.field 12 1 == 1) (xEntries p 8)
    let allot := (xEntries p 8).foldl (fun t v => match findIdx (fun (q : Nat × Nat) => q.1 == bits v 0 12) secs with
      | some i => tset 0 t i (bits v 16 16)
      | none => t) x.allot
    let last := if lyPolicy cfg = 1 then 1 else 0
    let final := !x.allotFinal && secs.all (fun q => (x.msg 2 (s.expertHome cfg q.1) last).isSome)
    let x := { x with allot := allot, allotFinal := x.allotFinal || final }
    let r := if final then State.writeShapes (s, x) (tget 0 x.allot) else (s, x)
    (r.1.putExch r.2).exchGo x.ctx x.id x.bwd

/-! Rows (R219 to R221). -/

/-- EXCH_ROW at a replica (R219, R220, R228). -/
def State.exchRow (p : Packet) (s : State) : State :=
  let s := s.taken p
  match s.exchOf p with
  | none => s.exchStale
  | some x =>
    let cfg := s.layerCfg x.layer
    let secs := s.sections cfg
    let c := lyCapacity cfg
    let tag := (p.body.drop 16).take 16
    let e := bits (leNat tag) 64 12
    let slot := bits (leNat tag) 96 16
    let o := s.xOp x.tile 5
    let n := p.field 64 32
    let data := p.body.drop 32
    match findIdx (fun (q : Nat × Nat) => q.1 == e) secs with
    | none => s.exchErr x 1 0x10 p.src e slot
    | some i =>
      if c ≤ slot then s.exchErr x 1 0x10 p.src e slot
      else if n ≠ rowLen o.t then s.exchErr x 5 0x32 p.src e slot
      else
        let r := State.exchPut (s, x) o (rowsAt secs.length c + (i * c + slot) * o.t.stride1 + p.field 96 32) data
        let r := State.exchPut r o (0x900 + (i * c + slot) * 16) tag
        let k := i * 65536 + slot
        (r.1.putExch { r.2 with rowBytes := tset 0 x.rowBytes k (tget 0 x.rowBytes k + data.length) }).exchGo x.ctx x.id x.bwd

/-- EXCH_RETURN_ROW at the source (R221, R228). -/
def State.exchReturnRow (p : Packet) (s : State) : State :=
  let s := s.taken p
  match s.exchOf p with
  | none => s.exchStale
  | some x =>
    let tag := leNat ((p.body.drop 16).take 16)
    let slot := bits tag 16 16
    let rank := bits tag 76 2
    let o := s.xOp x.tile 6
    let data := p.body.drop 32
    if x.tokens ≤ slot ∨ rank = 3 then s.exchErr x 1 0x10 p.src (bits tag 64 12) slot
    else if p.field 64 32 ≠ rowLen o.t then s.exchErr x 5 0x32 p.src (bits tag 64 12) slot
    else
      let r := State.exchPut (s, x) o ((slot * 3 + rank) * o.t.stride1 + p.field 96 32) data
      let k := slot * 4 + rank
      (r.1.putExch { r.2 with retBytes := tset 0 x.retBytes k (tget 0 x.retBytes k + data.length) }).exchGo x.ctx x.id x.bwd

/-- The tag of a token's rank as a number, with the causes met. -/
def XOp.tag (o : XOp) (t k : Nat) : Nat × List (Nat × Nat) :=
  let r := o.get ((t * 3 + k) * 16) 16
  (leNat r.1, r.2)

/-- A tag in use, and one in use and admitted (R207). -/
def tagValid (v : Nat) : Bool := bit v 115
def tagAdmitted (v : Nat) : Bool := bit v 115 && bit v 116

/-- DISPATCH (R220). DESIGN CHOICE (log 47): a forward row moves as bytes, and an S8 scale of 0xFF in it is not read (R40). -/
def State.dispatchRun (x : TxeTile) (s : State) : XDone :=
  let d := x.desc
  let cfg := s.layerCfg (xLayer d)
  if (s.exchGroup x.ctx cfg).isNone then ⟨s.exchRefuse x 4 0x30, [], s⟩
  else
    let o := s.xOp x 0
    let g := s.xOp x 1
    let r := ((List.range (s.xTokens x)).flatMap (fun t => ([0, 1, 2] : List Nat).map (fun k => (t, k)))).foldl
      (fun (q : State × TxeTile) tk =>
        let v := g.tag tk.1 tk.2
        let y := { q.2 with causes := q.2.causes ++ v.2 }
        let e := bits v.1 64 12
        if tagAdmitted v.1 = false ∨ mapP (s.expertMap cfg e) ≤ bits v.1 112 3 then (q.1, y)
        else
          let dst := mapDev (s.expertMap cfg e) (bits v.1 112 3)
          if xBwd d then
            let w := o.row (tk.1 * o.t.stride1)
            let m := mapF (fun a => fvMul a (decodeFloat .g16 (bits v.1 80 16))) w.1
            let b := rowBytesOf o.t m.1
            (q.1.xRow x.ctx 9 0x53 (xId d) (xLayer d) true dst (toLE 16 v.1) b.1,
              { y with causes := y.causes ++ w.2.1, flags := y.flags ||| w.2.2 ||| m.2 ||| b.2 })
          else
            let b := o.get (tk.1 * o.t.stride1) (rowLen o.t)
            (q.1.xRow x.ctx 9 0x53 (xId d) (xLayer d) false dst (toLE 16 v.1) b.1, { y with causes := y.causes ++ b.2 }))
      (s, x)
    ⟨r.1.finishX r.2, r.2.causes, s.holdX x⟩

/-- RETURN (R221). DESIGN CHOICE (log 47): the row moves as bytes, and an S8 scale of 0xFF in it is not read (R40). -/
def State.returnRun (x : TxeTile) (s : State) : XDone :=
  let d := x.desc
  let cfg := s.layerCfg (xLayer d)
  if (s.exchGroup x.ctx cfg).isNone then ⟨s.exchRefuse x 4 0x30, [], s⟩
  else
    let o := s.xOp x 0
    let g := s.xOp x 1
    let c := lyCapacity cfg
    let r := (List.range (s.sections cfg).length).foldl (fun (q : State × TxeTile) i =>
      let n := g.get (4 * i) 4
      (List.range (min (leNat n.1) c)).foldl (fun (q : State × TxeTile) t =>
        let tag := g.get (0x900 + (i * c + t) * 16) 16
        let b := o.get ((i * c + t) * o.t.stride1) (rowLen o.t)
        (q.1.xRow x.ctx 10 0x54 (xId d) (xLayer d) (xBwd d) (bits (leNat tag.1) 0 16) tag.1 b.1,
          { q.2 with causes := q.2.causes ++ tag.2 ++ b.2 })) (q.1, { q.2 with causes := q.2.causes ++ n.2 })) (s, x)
    ⟨r.1.finishX r.2, r.2.causes, s.holdX x⟩

/-- One row of COMBINE (R222): exact inputs in F32, the causes and flags met. -/
def State.combineRow (s : State) (x : TxeTile) (t : Nat) : List Fv × List (Nat × Nat) × Flags :=
  let d := x.desc
  let cfg := s.layerCfg (xLayer d)
  let g := s.xOp x 0
  let rt := s.xOp x 2
  let sh := s.xOp x 1
  let w := (s.xOp x 4).t.dim0
  let tags := ([0, 1, 2] : List Nat).map (fun k => (k, g.tag t k))
  let tc := tags.flatMap (fun q => q.2.2)
  let zero := List.replicate w fvZero
  if tags.any (fun q => tagValid q.2.1 && bit q.2.1 118) then (zero, tc, flagNone)
  else
    let step := fun (acc : List Fv × List (Nat × Nat) × Flags) (gain : Fv) (o : XOp) (off : Nat) =>
      let v := o.row off
      let f := mapF rF32 v.1
      let r := mapF (fun p => f32Fma gain p.2 p.1) (acc.1.zip f.1)
      (r.1, acc.2.1 ++ v.2.1, acc.2.2 ||| v.2.2 ||| f.2 ||| r.2)
    let acc := tags.foldl (fun acc q =>
      if tagAdmitted q.2.1 then
        step acc (if xBwd d then .fin false 1 0 else decodeFloat .g16 (bits q.2.1 80 16)) rt ((t * 3 + q.1) * rt.t.stride1)
      else acc) (zero, tc, flagNone)
    if xBwd d ∨ lyShared cfg = false then acc
    else
      let ws := if lyPolicy cfg = 2 then
          (tags.filter (fun q => tagValid q.2.1 && !(tagAdmitted q.2.1))).map (fun q => decodeFloat .g16 (bits q.2.1 80 16))
        else []
      let gain := fvSum (decodeFloat .g16 (lyGain cfg) :: ws)
      let r := rF32 gain.1
      step (acc.1, acc.2.1, acc.2.2 ||| gain.2 ||| r.2) r.1 sh (t * sh.t.stride1)

/-- COMBINE (R222). -/
def State.combineRun (x : TxeTile) (s : State) : XDone :=
  let cfg := s.layerCfg (xLayer x.desc)
  if (s.exchGroup x.ctx cfg).isNone then ⟨s.exchRefuse x 4 0x30, [], s⟩
  else
    let o := s.xOp x 4
    let r := (List.range (s.xTokens x)).foldl (fun (q : State × TxeTile) t =>
      let v := s.combineRow x t
      let b := rowBytesOf o.t v.1
      let p := q.1.xPut x o (t * o.t.stride1) b.1
      (p.1, { q.2 with causes := q.2.causes ++ v.2.1 ++ p.2, flags := q.2.flags ||| v.2.2 ||| b.2 })) (s, x)
    ⟨r.1.finishX r.2, r.2.causes, s.holdX x⟩

/-- OPEN_BWD (R223): counts and tags copied from the forward region, expected returns from the tag table. -/
def State.openBwdRead (e : Exch) (s : State) : XDone :=
  let x := e.tile
  let cfg := s.layerCfg e.layer
  let f := s.xOp x 0
  let g := s.xOp x 1
  let o := s.xOp x 5
  let n := (s.sections cfg).length
  let a := f.get 0 (4 * n)
  let b := f.get 0x900 (n * lyCapacity cfg * 16)
  let tags := (List.range (3 * e.tokens)).map (fun i => g.tag 0 i)
  let met := a.2 ++ b.2 ++ tags.flatMap (·.2)
  let e := { e with
    unread := false
    allot := ((List.range n).map (fun i => (i, leNat ((a.1.drop (4 * i)).take 4)))).filter (fun r => r.2 != 0)
    allotFinal := true
    expect := some (tags.filter (fun v => tagAdmitted v.1)).length }
  let r := State.exchPut (State.exchPut (s.meetX e met) o 0 a.1) o 0x900 b.1
  ⟨(r.1.putExch r.2).exchGo e.ctx e.id true, met, s⟩

/-- OPEN_BWD (R204, R209, R223); of the two refusals the lower CAUSE comes first (R123). -/
def State.openBwd (x : TxeTile) (s : State) : XDone :=
  if (s.exchGroup x.ctx (s.layerCfg (xLayer x.desc))).isNone then ⟨s.exchRefuse x 4 0x30, [], s⟩
  else if (s.exch x.ctx (xId x.desc) true).isSome then ⟨s.exchRefuse x 6 0x34, [], s⟩
  else
    let e := s.newExch x true
    State.openBwdRead e (s.openX e)

/-- Tiles of an exchange that wait for bytes of peers (R226). -/
def State.heldOf (s : State) (x : Exch) : List TxeTile :=
  s.txe.busy.filter (fun y => !y.acking && y.ctx == x.ctx && xId y.desc == x.id && xBwd y.desc == x.bwd)

/-- The outstanding tiles of an exchange whose deadline has passed end (R226). -/
def State.timeoutX (s : State) (x : Exch) : State :=
  let late := fun (y : TxeTile) => { y with causes := y.causes ++ [(0x33, 0x0A)] }
  let held := s.heldOf x
  let s := s.setTxe { s.txe with busy := s.txe.busy.filter (fun y => !(held.contains y)) }
  let s := if x.tileDone then s.latch x.ctx 1 else s.finishX (late x.tile)
  held.foldl (fun s y => s.finishX (late y)) s

/-- EXCH_DEADLINE_EXPIRY (R226): pending signals applied, outstanding tiles end DEFECTIVE, the step fails, and the shape
words report the rows that have arrived. -/
def State.exchDeadline (ctx id dir : Nat) (s : State) : State :=
  match s.exch ctx id (dir == 1) with
  | none => s
  | some x =>
    if s.ftRead hubPs < x.openedAt + s.ov exchDeadlineId * 1000 then s
    else
      let d := x.tile.desc
      let len := rowLen (s.tensAt (dWord d 5))
      let r := State.writeShapes (s, x) (fun i => wholeRows (x.rowBytes.filter (fun p => p.1 / 65536 == i)) len)
      let s := ((r.1.exchLog (dTileId d) 2 0 0 0).dropExch x).timeoutX r.2
      let s := if x.arriveDone then s else s.signalWord ctx (xArrive d)
      if x.returnDone then s else s.signalWord ctx (xReturn d)

/-! The commands. -/

/-- A tile that opens no exchange has none to read. -/
def State.noRead (_ : Exch) (s : State) : XDone := ⟨s, [], s⟩

/-- ADMIT (R210). -/
def execExchAdmit (s : State) : Result := .next (s.claimX 0 State.admitX State.admitRead)

/-- DISPATCH (R220). -/
def execDispatch (s : State) : Result := .next (s.claimX 1 State.dispatchRun State.noRead)

/-- RETURN (R221). -/
def execExchReturn (s : State) : Result := .next (s.claimX 2 State.returnRun State.noRead)

/-- COMBINE (R222). -/
def execCombine (s : State) : Result := .next (s.claimX 3 State.combineRun State.noRead)

/-- OPEN_BWD (R223). -/
def execOpenBwd (s : State) : Result := .next (s.claimX 4 State.openBwd State.openBwdRead)

/-- EXCH_COUNT (R211). -/
def execExchCount (p : Packet) (s : State) : Result := need p.wf (powered s (s.exchCount p))

/-- EXCH_GRANT (R212). -/
def execExchGrant (p : Packet) (s : State) : Result := need p.wf (powered s (s.exchGrant p))

/-- EXCH_ALLOT (R219). -/
def execExchAllot (p : Packet) (s : State) : Result := need p.wf (powered s (s.exchAllot p))

/-- EXCH_ROW (R220). -/
def execExchRow (p : Packet) (s : State) : Result := need p.wf (powered s (s.exchRow p))

/-- EXCH_RETURN_ROW (R221). -/
def execExchReturnRow (p : Packet) (s : State) : Result := need p.wf (powered s (s.exchReturnRow p))

/-- EXCH_DEADLINE_EXPIRY (R226). -/
def execExchDeadlineExpiry (ctx id dir : Nat) (s : State) : Result := need (ctxOk ctx) (.next (s.exchDeadline ctx id dir))

end Sys2Proof.Machine
end

