-- ==== Sys2Proof/Machine/SyncCommands.lean ====
section
/-!
DEFINITION. Page registers and the order of a page's writes (R458 to R460), and sync and urn commands from a page or a management
message (R198, R321, R411).
-/

namespace Sys2Proof.Machine

/-- SQ_CFG of a context (R459): ring address, entries, LOCATION, TARGET, ENABLE. -/
def State.sqCfg (s : State) (ctx : Nat) : Nat := s.ov (sqCfgId + ctx)
def sqBase (v : Nat) : Nat := bits v 0 64
def sqEntries (v : Nat) : Nat := 2 ^ (bits v 64 4 + 6)
def sqHost (v : Nat) : Bool := bit v 68
def sqTarget (v : Nat) : Nat := bits v 69 3
def sqOn (v : Nat) : Bool := bit v 72

/-- DOORBELL_ERR: the write is ignored. -/
def State.doorbellErr (s : State) (ctx : Nat) : State := s.modPage ctx (fun p => { p with flags := p.flags ||| 4 })

/-- A sync command of a page: its reply stands in SYNC_REPLY (R458). -/
def State.syncReply (s : State) (ctx w : Nat) : State :=
  let a := syncCmd s ctx w
  a.1.modPage ctx (fun p => { p with syncReply := a.2 })

/-- An urn command reaches the urn: its reply stands in URN_REPLY; an ALLOC that meets a class in repair waits for the
rebuild (R317). -/
def State.urnReply (s : State) (ctx w : Nat) : State :=
  match s.urnWaits ctx w with
  | some c => (s.urnStop c).setUrn { (s.urnStop c).urn with waiting := s.urn.waiting ++ [(ctx, w)] }
  | none =>
    let a := urnCmd s ctx w
    a.1.modPage ctx (fun p => { p with urnReply := a.2 })

/-- What a write of a page does (R458 to R460); page 15 holds INT_STATUS and INT_MASK alone. A clear of INT_STATUS that leaves
another unmasked bit set sends a further message. -/
def State.pageAct (s : State) (ctx off v : Nat) : State :=
  let p := s.page ctx
  if off = 0x10 then
    let q : Page := { p with intStatus := p.intStatus - (p.intStatus &&& v) }
    let n := s.setPage ctx q
    if q.intStatus ≠ p.intStatus ∧ q.unmasked ≠ 0 then n.intSend ctx else n
  else if off = 0x14 then
    let q : Page := { p with intMask := bits v 0 32 }
    let n := s.setPage ctx q
    if p.unmasked = 0 ∧ q.unmasked ≠ 0 then n.intSend ctx else n
  else if ctx = 15 then s
  else if off = 0 then
    if sqOn (s.sqCfg ctx) ∧ v < sqEntries (s.sqCfg ctx) then s.setPage ctx { p with sqTail := v } else s.doorbellErr ctx
  else if off = 8 then
    if v < s.ov (cplRingEntriesId + ctx) then s.setPage ctx { p with cplHead := v } else s.doorbellErr ctx
  else if off = 0x18 then s.setPage ctx { p with flags := p.flags - (p.flags &&& (7 &&& v)) }
  else if off = 0x100 then s.syncReply ctx v
  else s.urnReply ctx v

/-- An ALLOC of a page waits for the rebuild of a list (R317). -/
def State.pageWaits (s : State) (ctx : Nat) : Bool := s.urn.waiting.any (fun x => x.1 == ctx)

/-- A write to a page. One that arrives before READY, or with the PCIe link down, does not reach its unit; the first is discarded
and sets NOT_READY at its BAR offset (R456, R458). The writes of one page are executed in order, so that one behind an ALLOC
that waits does so too (R458). -/
def State.pageWrite (s : State) (ctx off v : Nat) : State :=
  if s.host.up = false then s
  else if s.power.main ≠ .ready then s.hostErr 4 (0x100000 + ctx * 0x10000 + off)
  else if s.pageWaits ctx then s.modPage ctx (fun p => { p with later := p.later ++ [(off, v)] })
  else s.pageAct ctx off v

/-- A sync command of a page. -/
def State.pageSync (s : State) (ctx w : Nat) : State := s.pageWrite ctx 0x100 w

/-- An urn command of a page. -/
def State.pageUrn (s : State) (ctx w : Nat) : State := s.pageWrite ctx 0x110 w

/-- Writes that waited behind an ALLOC of the page are executed until another waits. -/
def pageDrain (ctx : Nat) : List (Nat × Nat) → State → State
  | [], s => s
  | x :: xs, s =>
    if s.pageWaits ctx then s.modPage ctx (fun p => { p with later := x :: xs })
    else pageDrain ctx xs (s.pageAct ctx x.1 x.2)

/-- The writes that wait at a page go on. -/
def State.pageResume (s : State) (ctx : Nat) : State :=
  pageDrain ctx (s.page ctx).later (s.modPage ctx ({ · with later := [] }))

/-- URN_LIST_REPAIR_DONE: the class's list is rebuilt in ascending index order and the flag is set; the allocations that
wait follow, those of pages first, then the waiting management message, then the requests of pipeline sends (R317). A class that has
not stopped has no list to repair. -/
def State.urnRepair (cls : Nat) (s : State) : State :=
  if s.urn.repairing.contains cls = false then s
  else
    let s := (s.urnRebuild cls).urnFlag 3 0
    let waits := s.urn.waiting
    let s := waits.foldl (fun s x => s.urnReply x.1 x.2) (s.setUrn { s.urn with waiting := [] })
    let s := allCtx.foldl (fun s c => s.pageResume c) s
    allCtx.foldl (fun s c => s.urnRequestServe c) s.allocResumes

/-- URN_LIST_REPAIR_DONE (R317). -/
def execUrnListRepairDone (cls : Nat) (s : State) : Result := need (classOk cls) (.next (s.urnRepair cls))

/-- A sync command from its issuer. -/
def syncBy (src : CmdSrc) (w : Word64) (s : State) : State :=
  match src with
  | .page c => s.pageSync c w.toNat
  | .mgmt r c => s.request r (.sync c w.toNat)

/-- An urn command from its issuer. -/
def urnBy (src : CmdSrc) (w : Word64) (s : State) : State :=
  match src with
  | .page c => s.pageUrn c w.toNat
  | .mgmt r c => s.request r (.urn c w.toNat)

/-- The command word of a row: its OP is the row's, or a reserved one, which every row may carry (log 34). -/
def rowWord (op last : Nat) (w : Word64) : Bool := bits w.toNat 0 4 == op || decide (last < bits w.toNat 0 4)

/-- SIGNAL (R183). -/
def execSignal (src : CmdSrc) (w : Word64) (s : State) : Result :=
  need src.wf (.next (when_ (rowWord 0 5 w) (syncBy src w) s))

/-- TAKE_NB (R183). -/
def execTakeNb (src : CmdSrc) (w : Word64) (s : State) : Result :=
  need src.wf (.next (when_ (rowWord 1 5 w) (syncBy src w) s))

/-- READ of a counter (R198). -/
def execSyncRead (src : CmdSrc) (w : Word64) (s : State) : Result :=
  need src.wf (.next (when_ (rowWord 2 5 w) (syncBy src w) s))

/-- SET (R183). -/
def execSet (src : CmdSrc) (w : Word64) (s : State) : Result :=
  need src.wf (.next (when_ (rowWord 3 5 w) (syncBy src w) s))

/-- ARRIVE (R193). -/
def execArrive (src : CmdSrc) (w : Word64) (s : State) : Result :=
  need src.wf (.next (when_ (rowWord 4 5 w) (syncBy src w) s))

/-- BARRIER_INIT (R192). -/
def execBarrierInit (src : CmdSrc) (w : Word64) (s : State) : Result :=
  need src.wf (.next (when_ (rowWord 5 5 w) (syncBy src w) s))

/-- ALLOC (R320). -/
def execAlloc (src : CmdSrc) (w : Word64) (s : State) : Result :=
  need src.wf (.next (when_ (rowWord 0 2 w) (urnBy src w) s))

/-- FREE (R316). -/
def execFree (src : CmdSrc) (w : Word64) (s : State) : Result :=
  need src.wf (.next (when_ (rowWord 1 2 w) (urnBy src w) s))

/-- QUERY (R322). -/
def execQuery (src : CmdSrc) (w : Word64) (s : State) : Result :=
  need src.wf (.next (when_ (rowWord 2 2 w) (urnBy src w) s))

end Sys2Proof.Machine
end

