-- ==== Sys2Proof/Machine/Host.lean ====
section
/-!
DEFINITION. The host interface: pages and doorbells (R458), submission queues (R459), interrupts (R460), the control
block (R456), device memory windows (R457) and the object window (R462).
Choices and readings that the model fixes here: log 38.
-/

namespace Sys2Proof.Machine

/-! Page registers (R458). -/

/-- SQ_TAIL (R458, R459). -/
def State.sqTailWrite (ctx v : Nat) (s : State) : State := s.pageWrite ctx 0 v

/-- CPL_HEAD (R121, R458). -/
def State.cplHeadWrite (ctx v : Nat) (s : State) : State := s.pageWrite ctx 8 v

/-- INT_STATUS (R460). -/
def State.intClear (ctx v : Nat) (s : State) : State := s.pageWrite ctx 0x10 v

/-- INT_MASK (R460). -/
def State.maskWrite (ctx v : Nat) (s : State) : State := s.pageWrite ctx 0x14 v

/-- LIST_FULL, SQ_ERROR and DOORBELL_ERR, RW1C. -/
def State.pageFlagClear (ctx v : Nat) (s : State) : State := s.pageWrite ctx 0x18 v

/-! Submission queues (R459). -/

/-- SQ_ERROR: the queue stops at the entry. -/
def State.sqError (s : State) (ctx : Nat) : State :=
  (s.modPage ctx (fun p => { p with
    flags := p.flags ||| 2
    sqStopped := true })).interrupt ctx 8

/-- Offers an entry to its list: posted, or refused with LIST_FULL and kept for the next offer (R111). -/
def State.sqOffer (s : State) (ctx : Nat) (d : WorkDesc) : State :=
  match s.post ctx (sqTarget (s.sqCfg ctx)) d with
  | some s => s.modPage ctx (fun p => { p with
      sqHead := (p.sqHead + 1) % sqEntries (s.sqCfg ctx)
      sqHeld := none })
  | none =>
    ((s.modPage ctx (fun p => { p with
      flags := p.flags ||| 1
      sqHeld := some d })).bump listFullCountId).interrupt ctx 8

/-- The queue of a context is in use and runs. -/
def State.sqRuns (s : State) (ctx : Nat) : Bool :=
  s.power.main == .ready && decide (ctx < 15) && sqOn (s.sqCfg ctx) && !(s.page ctx).sqStopped &&
    (s.page ctx).sqHead != (s.page ctx).sqTail

/-- SQ_ENTRY_TAKE: reads the next entry, from device memory, or from the host under the requester ID of the context's VF (R454),
whose bytes and outcome the command carries. -/
def State.sqTake (ctx : Nat) (readOk : Bool) (host : List Byte) (s : State) : State :=
  let v := s.sqCfg ctx
  let a := sqBase v + 128 * (s.page ctx).sqHead
  if s.sqRuns ctx ∧ (s.page ctx).sqHeld = none then
    let s := if sqHost v then s.setOut { s.out with reads := s.out.reads ++ [(ctx + 1, a)] } else s
    if readOk = false ∨ (sqHost v = false ∧ s.anyPoison a 128) then s.sqError ctx
    else s.sqOffer ctx (BitVec.ofNat 1024 (leNat (if sqHost v then padTo 128 host else s.loadDev a 128)))
  else s

/-- SQ_LIST_FULL_RETRY: the refused entry is offered again. -/
def State.sqRetry (ctx : Nat) (s : State) : State :=
  match (s.page ctx).sqHeld with
  | some d => if s.sqRuns ctx then s.sqOffer ctx d else s
  | none => s

/-! The host control block (R456). -/

/-- BAR2_BASE. -/
def State.bar2Write (v : Nat) (s : State) : State := s.setHost { s.host with bar2Base := v }

/-- VF_WIN_EN and VF_WIN_BASE of VF n + 1. -/
def State.vfWinWrite (n v : Nat) (s : State) : State :=
  s.setHost { s.host with vfWin := tset 0 s.host.vfWin n (bits v 0 1 + bits v 30 11 * 2 ^ 30) }

/-- MBX_READY and MBX_OVERRUN, RW1C. -/
def State.mbxClear (m v : Nat) (s : State) : State :=
  let b := s.mailbox m
  s.setMailbox m { b with
    ready := b.ready && !bit v 1
    overrun := b.overrun && !bit v 2 }

/-- HOST_UNMAPPED, WINDOW_WRITE and NOT_READY, RW1C. -/
def State.errClear (v : Nat) (s : State) : State :=
  s.setHost { s.host with err := s.host.err - (s.host.err &&& (7 &&& v)) }

/-- Bytes of a write that fall into a mailbox's request buffer. -/
def State.mbxStore (m off : Nat) (b : List Byte) (s : State) : State :=
  let base := 0x4000 + 0x4000 * m
  b.zipIdx.foldl (fun s x =>
    let a := off + x.2
    if base ≤ a ∧ a < base + 0x2000 then
      let k := s.mailbox m
      s.setMailbox m { k with request := tset 0 k.request (a - base) x.1 }
    else s) s

/-- A register at a BAR0 offset: its bytes, the value with which a write of some of its bytes is filled up, none where such a
write does nothing, and what a write of a value does. -/
structure HostReg where
  off : Nat
  size : Nat
  rest : State → Option Nat
  act : Nat → State → State

/-- A register that only a write of all its bytes acts on: a command or a doorbell (DESIGN CHOICE, log 35). -/
def whole : State → Option Nat := fun _ => none

/-- A register of which a write changes the bytes that it carries: flags that a 1 clears. -/
def flagsOnly : State → Option Nat := fun _ => some 0

/-- Registers of the control block that a write acts on. -/
def controlRegs : List HostReg :=
  [⟨0x008, 8, fun s => some s.host.bar2Base, State.bar2Write⟩] ++
    (List.range 15).map (fun n => ⟨0x010 + 8 * n, 8, fun s => some (tget 0 s.host.vfWin n), State.vfWinWrite n⟩) ++
    (List.range 2).flatMap (fun m =>
      [⟨0x100 + 0x40 * m, 4, whole, fun v => State.doorbell m (bits v 0 13)⟩,
       ⟨0x108 + 0x40 * m, 4, flagsOnly, State.mbxClear m⟩]) ++
    [⟨0x180, 4, flagsOnly, State.errClear⟩]

/-- Registers of a context's page that a write acts on. -/
def pageRegs (c : Nat) : List HostReg :=
  [⟨0x000, 4, whole, State.sqTailWrite c⟩, ⟨0x008, 4, fun s => some (s.page c).cplHead, State.cplHeadWrite c⟩,
   ⟨0x010, 4, flagsOnly, State.intClear c⟩, ⟨0x014, 4, fun s => some (s.page c).intMask, State.maskWrite c⟩,
   ⟨0x018, 4, flagsOnly, State.pageFlagClear c⟩, ⟨0x100, 8, whole, fun v s => s.pageSync c v⟩,
   ⟨0x110, 8, whole, fun v s => s.pageUrn c v⟩]

/-- The value that a write of bytes `b` at `off` gives a register at `a` that holds `v`. -/
def mergedAt (a size v off : Nat) (b : List Byte) : Nat :=
  leNat ((List.range size).map (fun i =>
    if off ≤ a + i ∧ a + i < off + b.length then b.getD (a + i - off) 0 else BitVec.ofNat 8 (bits v (8 * i) 8)))

/-- A write acts on each register that its bytes cover, whole or in part (DESIGN CHOICE, log 35). -/
def writeRegs (base off : Nat) (b : List Byte) (rs : List HostReg) (s : State) : State :=
  rs.foldl (fun s r =>
    let a := base + r.off
    if off ≤ a ∧ a + r.size ≤ off + b.length then r.act (wordAt b (a - off) r.size) s
    else match r.rest s with
      | some v => if off < a + r.size ∧ a < off + b.length then r.act (mergedAt a r.size v off b) s else s
      | none => s) s

/-- A write to a page area: before READY discarded as a whole (R458). -/
def State.pageAreaWrite (c off : Nat) (b : List Byte) (s : State) : State :=
  if s.power.main ≠ .ready then s.hostErr 4 off else writeRegs (0x100000 + 0x10000 * c) off b (pageRegs c) s

/-- A write to the object window is discarded (R462). -/
def State.windowWrite (off : Nat) (s : State) : State := if s.host.up then s.hostErr 2 (0x1000000 + off) else s

/-- HOST_REGISTER_WRITE: a write at a BAR0 offset of the PF (R455, R456, R458). -/
def State.regWrite (off : Nat) (b : List Byte) (s : State) : State :=
  if s.host.up = false then s
  else if off < 0x1000 then writeRegs 0 off b controlRegs s
  else if off < 0x100000 then (s.mbxStore 0 off b).mbxStore 1 off b
  else if off < 0x200000 then s.pageAreaWrite ((off - 0x100000) / 0x10000) off b
  else if 0x1000000 ≤ off ∧ off < 0x2000000 then s.windowWrite (off - 0x1000000)
  else s

/-! Device memory windows (R457). -/

/-- Device address of a folded address. -/
def unfold_ (f : Nat) : Nat := if f < 0x3000000000 then f else f + 0x1000000000

/-- Bytes of a window. -/
def State.winSize (s : State) : HostWin → Nat
  | .pf => 2 ^ s.host.bar2Log2
  | .vf _ => 0x40000000

/-- Device address that an offset of a window reaches, none through a disabled VF window. -/
def State.winAddr (s : State) (w : HostWin) (off : Nat) : Option Nat :=
  match w with
  | .pf =>
    let b := s.host.bar2Log2
    some (unfold_ (bits s.host.bar2Base b (38 - b) * 2 ^ b + off))
  | .vf n =>
    let v := tget 0 s.host.vfWin (n - 1)
    if bit v 0 then some (bits v 30 11 * 0x40000000 + off) else none

/-- One byte as a window access finds it: address, if mapped. -/
def State.winByte (s : State) (w : HostWin) (off : Nat) : Option Nat :=
  match s.winAddr w off with
  | some a => if s.mapped a then some a else none
  | none => none

/-- HOST_UNMAPPED where a byte of an access is not mapped; the BAR offset is the access's. -/
def State.winCheck (s : State) (w : HostWin) (off n : Nat) : State :=
  if (List.range n).any (fun i => (s.winByte w (off + i)).isNone) then s.hostErr 1 off else s

/-- The errors of an access that lie in granules it touches. -/
def State.winMet (s : State) (w : HostWin) (off n : Nat) (errs : MemErrs) : MemErrs :=
  errs.filter (fun e => (List.range n).any (fun i => match s.winByte w (off + i) with
    | some a => a / 64 == e.1 / 64
    | none => false))

/-- What the error checks found in an access's granules (R292, R300, R301). -/
def State.winErr (s : State) (w : HostWin) (off n : Nat) (errs : MemErrs) : State :=
  (s.winMet w off n errs).foldl (fun s e => s.memErr e.1 e.2) s

/-- The access lies in its window and the link is up. -/
def State.winOk (s : State) (w : HostWin) (off n : Nat) : Bool := s.host.up && decide (off + n ≤ s.winSize w)

/-- HOST_MEMORY_READ: zero for bytes that are not mapped or poisoned, and the poisoned-TLP bit (R301, R457). -/
def State.hostRead (w : HostWin) (off n : Nat) (err : MemErrs) (s : State) : State :=
  if s.winOk w off n then
    let lost := s.winMet w off n (err.filter (fun e => e.2 == .l2Lost))
    let s := s.winErr w off n err
    let as_ := (List.range n).map (fun i => s.winByte w (off + i))
    let data := as_.map (fun a => match a with
      | some a => if s.poisoned a || lost.any (fun e => e.1 / 64 == a / 64) then 0 else s.memByte a
      | none => 0)
    let bad := !lost.isEmpty || as_.any (fun a => match a with
      | some a => s.poisoned a
      | none => false)
    (s.setHost { s.host with readOut := (data, bad) }).winCheck w off n
  else s

/-- Stores bytes through a window, split where its addresses are not consecutive. -/
def State.winStore (s : State) (w : HostWin) (off : Nat) (b : List Byte) : State :=
  match s.winAddr w off, s.winAddr w (off + (b.length - 1)) with
  | some a, some z =>
    if z = a + (b.length - 1) then s.storeDev a b
    else
      let k := 0x3000000000 - a
      (s.storeDev a (b.take k)).storeDev 0x4000000000 (b.drop k)
  | _, _ => s

/-- HOST_MEMORY_WRITE: applied per granule; bytes not mapped are discarded (R293, R457). -/
def State.hostWrite (w : HostWin) (off : Nat) (b : List Byte) (err : MemErrs) (s : State) : State :=
  if s.winOk w off b.length ∧ b ≠ [] then
    let part := err.filter (fun e => !(((List.range b.length).filter (fun i => match s.winByte w (off + i) with
      | some a => a / 64 == e.1 / 64
      | none => false)).length == 64))
    let s := s.winErr w off b.length part
    (s.winStore w off b).winCheck w off b.length
  else s

/-! Commands. -/

/-- SQ_TAIL_WRITE (R458, R459). -/
def execSqTailWrite (ctx v : Nat) (s : State) : Result := need (ctxOk ctx) (.next (s.sqTailWrite ctx v))

/-- SQ_ENTRY_TAKE (R459). -/
def execSqEntryTake (ctx : Nat) (readOk : Bool) (host : List Byte) (s : State) : Result :=
  need (ctxOk ctx) (.next (s.sqTake ctx readOk host))

/-- SQ_LIST_FULL_RETRY (R459). -/
def execSqListFullRetry (ctx : Nat) (s : State) : Result := need (ctxOk ctx) (.next (s.sqRetry ctx))

/-- INT_STATUS_CLEAR (R460). -/
def execIntStatusClear (ctx v : Nat) (s : State) : Result := need (ctxOk ctx) (.next (s.intClear ctx v))

/-- INT_MASK_WRITE (R460). -/
def execIntMaskWrite (ctx v : Nat) (s : State) : Result := need (ctxOk ctx) (.next (s.maskWrite ctx v))

/-- HOST_REGISTER_WRITE (R455 to R458). -/
def execHostRegisterWrite (off : Nat) (bytes : List Byte) (s : State) : Result := .next (s.regWrite off bytes)

/-- HOST_MEMORY_READ (R457). -/
def execHostMemoryRead (win : HostWin) (off n : Nat) (err : MemErrs) (s : State) : Result :=
  need (win.wf && decide (n ≤ 4096)) (.next (s.hostRead win off n err))

/-- HOST_MEMORY_WRITE (R453, R457). -/
def execHostMemoryWrite (win : HostWin) (off : Nat) (bytes : List Byte) (err : MemErrs) (s : State) : Result :=
  need (win.wf && decide (bytes.length ≤ 512)) (.next (s.hostWrite win off bytes err))

/-- OBJECT_WINDOW_WRITE (R462): an offset in the object window. -/
def execObjectWindowWrite (off : Nat) (bytes : List Byte) (s : State) : Result :=
  .next (if off < 0x1000000 ∧ bytes ≠ [] then s.windowWrite off else s)

end Sys2Proof.Machine
end

