-- ==== Sys2Proof/Machine/MgmtCommands.lean ====
section
/-!
DEFINITION. The commands of the caddy: messages as they arrive, the operations of R411, the writes that have a row of
their own, timers, firmware and resets.
Choices and readings that the model fixes here: log 15.
-/

namespace Sys2Proof.Machine

/-- A request with its header in range. -/
def asked (r : Req) (m : MOp) (s : State) : Result := need r.wf (.next (s.request r m))

/-- A WRITE of a value of `n` bytes to an object. -/
def wrote (r : Req) (id n v : Nat) (s : State) : Result := asked r (.write id 0 (toLE n v)) s

/-! Messages. -/

/-- MGMT_SEGMENT_RECEIVE (R410). -/
def execMgmtSegmentReceive (dgram : Datagram) (bytes : List Byte) (s : State) : Result := .next (s.segmentIn dgram bytes)

/-- MGMT_MESSAGE_DISCARD (R410). -/
def execMgmtMessageDiscard (cls xid : Nat) (s : State) : Result := .next (s.partialEnds cls xid)

/-- MGMT_VC0_RECEIVE (R408). -/
def execMgmtVc0Receive (p : Packet) (s : State) : Result := need p.wf (powered s (s.vc0In p))

/-- MBX_DOORBELL (R461). -/
def execMbxDoorbell (m len : Nat) (s : State) : Result := need (mbxOk m) (.next (s.doorbell m len))

/-! Operations (R411). -/

/-- HELLO (R406). -/
def execHello (r : Req) (s : State) : Result := asked r .hello s

/-- CLAIM (R417, R418). -/
def execClaim (r : Req) (priority : Nat) (preempt : Bool) (tag : List Byte) (s : State) : Result :=
  asked r (.claim priority preempt tag) s

/-- RENEW (R419). -/
def execRenew (r : Req) (s : State) : Result := asked r .renew s

/-- RELEASE (R419). -/
def execRelease (r : Req) (s : State) : Result := asked r .release s

/-- HANDOVER (R420). -/
def execHandover (r : Req) (target : Nat) (s : State) : Result := asked r (.handover target) s

/-- CLOSE (R406). -/
def execClose (r : Req) (s : State) : Result := asked r .close s

/-- READ (R415). -/
def execRead (r : Req) (id sub flags : Nat) (s : State) : Result := asked r (.read id sub flags) s

/-- WRITE (R415, R416). -/
def execWrite (r : Req) (id sub : Nat) (val : List Byte) (s : State) : Result := asked r (.write id sub val) s

/-- DESCRIBE (R415). -/
def execDescribe (r : Req) (id : Nat) (s : State) : Result := asked r (.describe id) s

/-- MGMT_POST (R411). -/
def execMgmtPost (r : Req) (ctx target : Nat) (descs : List WorkDesc) (s : State) : Result :=
  asked r (.post ctx target descs) s

/-! Timers. -/

/-- SESSION_LAPSE (R406). -/
def execSessionLapse (cls : Nat) (s : State) : Result := need (masterOk cls) (.next (s.sessionEnds cls))

/-- LEASE_EXPIRY (R419). -/
def execLeaseExpiry (s : State) : Result := .next s.leaseEnds

/-- HANDOVER_LAPSE (R420). -/
def execHandoverLapse (s : State) : Result := .next s.handoverEnds

/-- AUTH_LOCK_EXPIRY (R418). -/
def execAuthLockExpiry (cls : Nat) (s : State) : Result := need (masterOk cls) (.next (s.lockEnds cls))

/-! Commits. -/

/-- APPLY (R416). -/
def execApply (r : Req) (area : Nat) (s : State) : Result :=
  need (decide (area < 16)) (wrote r (area * 65536 + 1) 16 1 s)

/-- DISCARD (R416). -/
def execDiscard (r : Req) (area : Nat) (s : State) : Result :=
  need (decide (area < 16)) (wrote r (area * 65536 + 1) 16 2 s)

/-- PROT_DRAIN_DONE (R423, R424). -/
def execProtDrainDone (s : State) : Result := .next s.drainDone

/-- GRANULE_RETIRE_DONE (R307). -/
def execGranuleRetireDone (s : State) : Result := .next s.retireDone

/-! Firmware. -/

/-- FW_IMAGE_BLOCK_WRITE (R428). -/
def execFwImageBlockWrite (r : Req) (sub : Nat) (val : List Byte) (s : State) : Result :=
  asked r (.write fwImageBlockId sub val) s

/-- FW_ACTIVATE (R428, R430). -/
def execFwActivate (r : Req) (v : Nat) (s : State) : Result := wrote r fwActivateId 4 v s

/-- BOOT_VERIFY_DONE (R426, R427). -/
def execBootVerifyDone (s : State) : Result := .next s.bootDone

/-! Writes with a row of their own. -/

/-- STEP_START (R253). -/
def execStepStart (r : Req) (ctx n : Nat) (s : State) : Result := need (ctxOk ctx) (wrote r (stepStartId + ctx) 4 n s)

/-- FT_SET (R176). -/
def execFtSet (r : Req) (v : Nat) (s : State) : Result := wrote r ftSetId 8 v s

/-- PERMUTE_GO: PERMUTE_CTRL written with GO = 1 (R282). -/
def execPermuteGo (r : Req) (ctx v : Nat) (s : State) : Result :=
  need (ctxOk ctx) (wrote r (permuteCtrlId + ctx) 32 (setBits v 176 1 1) s)

/-- KETTLE_RESTART (R380). -/
def execKettleRestart (r : Req) (v : Nat) (s : State) : Result := wrote r kettleRestartId 4 v s

/-- REPLAN_CTRL (R399). -/
def execReplanCtrl (r : Req) (v : Nat) (s : State) : Result := wrote r replanCtrlId 4 v s

/-- SERVICE_ACK (R404). -/
def execServiceAck (r : Req) (v : Nat) (s : State) : Result := wrote r serviceAckId 8 v s

/-- SELF_TEST (R467). -/
def execSelfTest (r : Req) (v : Nat) (s : State) : Result := wrote r selfTestId 4 v s

/-- IDLE_CLEAR (R469). -/
def execIdleClear (r : Req) (v : Nat) (s : State) : Result := wrote r idleClearId 4 v s

/-- PRUNE_EXCESS_COUNT_CLEAR (R143). -/
def execPruneExcessCountClear (r : Req) (ctx v : Nat) (s : State) : Result :=
  need (ctxOk ctx) (wrote r (pruneExcessId + ctx) 4 v s)

/-- Bytes of an object's value. -/
def valueWidth (id : Nat) : Nat :=
  match objRow id with
  | some row => row.width
  | none => 0

/-- RW1C_FLAG_CLEAR (R51). -/
def execRw1cFlagClear (r : Req) (id v : Nat) (s : State) : Result := wrote r id (valueWidth id) v s

/-! Resets (R463). -/

/-- RESET# low waits for the end of a power-loss sequence (R487), and does nothing without standby power. -/
def State.resetPin (s : State) : State :=
  if s.power.losing ≠ 0 then s.setPower { s.power with resetWaits := true }
  else if s.pins.p5v then s.moduleReset
  else s

/-- MODULE_RESET: RESET#, or RESET_CTRL with KIND 0x04. -/
def execModuleReset (src : Option Req) (s : State) : Result :=
  match src with
  | some r => wrote r resetCtrlId 4 4 s
  | none => .next s.resetPin

/-- MAIN_RESET: RESET_CTRL with KIND 0x03. -/
def execMainReset (r : Req) (s : State) : Result := wrote r resetCtrlId 4 3 s

/-- COMPUTE_RESET: RESET_CTRL with KIND 0x02. -/
def execComputeReset (r : Req) (s : State) : Result := wrote r resetCtrlId 4 2 s

/-- CONTEXT_RESET: RESET_CTRL with KIND 0x01, or an FLR of the context's VF; context 15 has no VF (R454). -/
def execContextReset (src : Option Req) (ctx : Nat) (s : State) : Result :=
  need (ctxOk ctx) (match src with
    | some r => wrote r resetCtrlId 4 (1 + ctx * 256) s
    | none => .next (if ctx < 15 then s.vfReset ctx else s))

end Sys2Proof.Machine
end

