-- ==== Sys2Proof/Machine/RedCommands.lean ====
section
/-!
DEFINITION. The commands of the reduction units and of the permute collective.
-/

namespace Sys2Proof.Machine

/-- The link whose receive buffer holds a chunk, and its flits: a chunk leaves that buffer when the unit takes it (R326). -/
def State.chunkAt (s : State) (p : Packet) : Option (Nat × List BufFlit) :=
  allLinks.findSome? (fun l =>
    match vcPacket (s.link l).rx p.vc with
    | some fs => if packetFrom fs = p ∧ !fs.any (fun f => some f.seq == (s.link l).parity) then some (l, fs) else none
    | none => none)

/-- The unit takes a chunk from where it waits: the router, or the receive buffer of a link (R159, R326). -/
def State.redTaken (s : State) (p : Packet) : State :=
  if s.router.delivered.contains p then s.taken p
  else match s.chunkAt p with
    | some (l, fs) => s.modLink l (·.readOut fs)
    | none => s

/-- RED_CHUNK_RECEIVE: PACE goes to the kettle, the first chunk of a partial is counted, then R276 (R275, R280). A chunk
for which no buffer is free stays where it waits (R326). -/
def State.redReceive (p : Packet) (s : State) : State :=
  if p.body.length < 24 ∨ bytesField p.body 0 8 ≠ 0x70 then s
  else match s.redTreat p with
    | none => s
    | some t =>
      let t := if rChunk p.body = 0 then t.modRedc p.ctx (fun c => { c with received := satAdd 32 c.received 1 }) else t
      (t.paceIn (rPace p.body)).redTaken p

/-- EMIT (R267). -/
def execEmit (core : Nat) (s : State) : Result := need (coreOk core) (.next (s.claim core 3 State.acceptEmit))

/-- EMIT_CHUNK_HANDOFF (R268). -/
def execEmitChunkHandoff (s : State) : Result := .next s.handoff

/-- RED_CHUNK_RECEIVE (R276). -/
def execRedChunkReceive (p : Packet) (s : State) : Result := need p.wf (powered s (s.redReceive p))

/-- REDUCE_DEADLINE_EXPIRY (R277). -/
def execReduceDeadlineExpiry (ctx group tag : Nat) (s : State) : Result :=
  need (ctxOk ctx) (.next (s.redDeadline ctx group tag))

/-- PERMUTE_DRAIN_ROUND (R283). -/
def execPermuteDrainRound (ctx : Nat) (s : State) : Result := need (ctxOk ctx) (.next (s.permRound ctx))

/-- COUNT_REQ (R284). -/
def execCountReq (p : Packet) (s : State) : Result := need p.wf (powered s (State.permMsg 0 State.countReq p s))

/-- PERMUTE_COUNT (R284). -/
def execPermuteCount (p : Packet) (s : State) : Result := need p.wf (powered s (State.permMsg 1 (fun p => State.permReplied p 1) p s))

/-- PHASE1_GO (R283). -/
def execPhase1Go (p : Packet) (s : State) : Result := need p.wf (powered s (State.permMsg 2 State.phase1Go p s))

/-- PERMUTE_PHASE1_COPY_DONE (R283). -/
def execPermutePhase1CopyDone (ctx : Nat) (s : State) : Result := need (ctxOk ctx) (.next (s.phase1Copy ctx))

/-- PHASE1_DONE (R284). -/
def execPhase1Done (p : Packet) (s : State) : Result := need p.wf (powered s (State.permMsg 3 (fun p => State.permReplied p 3) p s))

/-- PHASE2_GO (R283). -/
def execPhase2Go (p : Packet) (s : State) : Result := need p.wf (powered s (State.permMsg 4 State.phase2Go p s))

/-- PERMUTE_PHASE2_STORES_ACKED (R283). -/
def execPermutePhase2StoresAcked (ctx : Nat) (s : State) : Result := need (ctxOk ctx) (.next (s.phase2Acked ctx))

/-- PHASE2_DONE (R284). -/
def execPhase2Done (p : Packet) (s : State) : Result := need p.wf (powered s (State.permMsg 5 (fun p => State.permReplied p 5) p s))

/-- PERMUTE_DONE (R283). -/
def execPermuteDone (p : Packet) (s : State) : Result := need p.wf (powered s (State.permMsg 6 State.permDone p s))

/-- PERMUTE_FAILED (R285). -/
def execPermuteFailed (p : Packet) (s : State) : Result := need p.wf (powered s (State.permMsg 7 State.permFailed p s))

/-- ENTRY_INVALID (R285). -/
def execEntryInvalid (p : Packet) (s : State) : Result := need p.wf (powered s (State.permMsg 8 State.entryInvalid p s))

/-- PERMUTE_STAGE_DEADLINE (R285). -/
def execPermuteStageDeadline (ctx : Nat) (s : State) : Result := need (ctxOk ctx) (.next (s.permDeadline ctx))

end Sys2Proof.Machine
end

