-- ==== Sys2Proof/Machine/Router.lean ====
section
/-!
DEFINITION. The hub router: dimension-order routing and the dateline (R172), replication along a block's tree (R188,
R256, R284, R347), the combining of atomics (R354), packets at a link that carries none (R388), and FAULT_NOTICE.
Choices and readings that the model fixes here: logs 11 and 24.
-/

namespace Sys2Proof.Machine

/-- Link on which a packet leaves, none where it has arrived (R172). -/
def State.exitLink (s : State) (p : Packet) : Option Nat :=
  let axis := (List.range 3).find? (fun a => coord p.dest a != coord s.me a)
  axis.map (fun a => 2 * a + bits p.dir a 1)

/-- A packet that the router discards and counts in ROUTE_ERR_COUNT (R172). -/
def State.routeBad (s : State) (p : Packet) : Bool :=
  p.rsv != 0 || bit p.dest 15 || (List.range 3).any (fun a => decide (s.dim a ≤ coord p.dest a)) || decide (96 < p.hops)

/-- The packet as it leaves on link `l`, having come in at `port`: HOPS, and DL by the dateline of the axis (R172). -/
def State.hop (s : State) (port l : Nat) (p : Packet) : Packet :=
  let a := l / 2
  let c := coord s.me a
  let crosses := if l % 2 = 0 then c + 1 == s.dim a else c == 0
  { p with
    hops := p.hops + 1
    dl := (decide (port < 6) && port / 2 == a && p.dl) || crosses }

/-! Combining (R354). -/

/-- An ATOMIC that may be combined: FETCH = 0 and a combinable ATOP (R336). -/
def combinable (p : Packet) : Bool :=
  p.vc == 2 && pFop p == 0x13 && p.field 13 1 == 0 && [0, 1, 4, 5, 6, 7].contains (p.field 8 4)

/-- Member entry of an ATOMIC (R340). -/
def memberOf (p : Packet) : Nat := p.src + pAddr p % 64 * 2 ^ 16 + p.field 128 32 * 2 ^ 32 + p.field 256 64 * 2 ^ 64

/-- The first ATOMIC of its source to its target (R353). -/
def isFirst (p : Packet) : Bool := p.field 24 1 == 1

/-- Member entries of an ATOMIC or a combine entry. -/
def members (p : Packet) : List Nat := if pFop p = 0x13 then [memberOf p] else pMembers p

/-- The combine entry of a packet with more members (R340). DEDUCED (log 37): FIRST holds where it held in some member, and
the target reads it for the members of SEQ 0. -/
def combined (p : Packet) (first : Bool) (ms : List Nat) : Packet :=
  let h : ReqHdr := { fop := 0x14, pgen := p.field 16 8, first := first, atop := p.field 8 4, aw := p.field 12 1 == 1, bytes := ms.length,
                      addr := pAddr p / 64 * 64, tag := pTag p }
  { p with body := h.body ++ ms.flatMap (toLE 16) }

/-- An ATOMIC `q` may join the queue entry `o`, the packets behind it being `rest` (R354). -/
def joins (q : Packet) (o : OutPkt) (rest : List OutPkt) : Bool :=
  o.sent == 0 && (o.comb || combinable o.pkt) && decide ((members o.pkt).length < 32) && o.pkt.dest == q.dest &&
    pAddr o.pkt / 64 == pAddr q / 64 && o.pkt.field 8 4 == q.field 8 4 && o.pkt.field 12 1 == q.field 12 1 &&
    !rest.any (fun y => y.pkt.vc == 2 && y.who.contains (q.src, q.ctx))

/-- Puts a packet into an output queue: an ATOMIC joins the first entry that takes it, anything else goes last. -/
def outEnqueue (q : Packet) : List OutPkt → List OutPkt
  | [] => [⟨q, 0, false, [(q.src, q.ctx)]⟩]
  | o :: os =>
    if combinable q && joins q o os then
      ⟨combined o.pkt (isFirst o.pkt || isFirst q) (members o.pkt ++ members q), 0, true, o.who ++ [(q.src, q.ctx)]⟩ :: os
    else o :: outEnqueue q os

/-! Routing. -/

/-- A packet leaves by a link: it waits there, or is discarded where the link is DOWN or MISCABLED (R388). -/
def State.leave (s : State) (port l : Nat) (p : Packet) : State :=
  let x := s.link l
  if x.st = .down ∨ x.st = .miscabled then s.linkDrop l p
  else
    let s := s.setLink l { x with out := outEnqueue (s.hop port l p) x.out }
    if x.st = .training ∧ x.fault ≠ 0 then s.notice388 x.fault p else s

/-- A packet of VC5 to VC8 that the reduction unit of this module takes inside the router, with no port of its own (R18,
R272). -/
def State.isChunk (s : State) (p : Packet) : Bool :=
  decide (5 ≤ p.vc) && decide (p.vc ≤ 8) && p.dest == s.me && !s.routeBad p

/-- Output port of a packet that has arrived (R18): a request for a stack and a sync packet go to their die, a management
message to the caddy, anything else to the units of the hub. -/
def outPort (p : Packet) : Nat :=
  let a := pAddr p
  if p.vc = 0 ∧ (pFop p = 0x90 ∨ pFop p = 0x91) then portMgmt
  else if pFop p = 0x40 then portDie (p.field 16 14 / 4096)
  else if (p.vc = 1 ∨ p.vc = 2) ∧ a < 4 * stackSize then portDie (a / stackSize)
  else portHub

/-- A WRITE, FLAGGED_WRITE, ATOMIC, ATOMIC_COMBINED or INVALIDATE (R340, R343). -/
def isUpdate (p : Packet) : Bool := (p.vc == 1 || p.vc == 2) && [0x11, 0x12, 0x13, 0x14, 0x16].contains (pFop p)

/-- Delivers a packet: it waits in its output queue, where an ATOMIC may combine (R354), a chunk for the reduction unit in the
router itself. A request that changes memory stands among the arrived ones until it is applied (R343). -/
def State.deliver (s : State) (p : Packet) : State :=
  if s.isChunk p then s.setRouter { s.router with delivered := s.router.delivered ++ [p] }
  else
    let o := outPort p
    s.setRouter { s.router with
      outq := tset [] s.router.outq o (outEnqueue p (tget [] s.router.outq o))
      arrived := if isUpdate p then s.router.arrived ++ [p] else s.router.arrived }

/-- A packet that the routers replicate along the tree of its block, rooted at its source: a multicast sync packet
(R188), DECIDE (R256), a permute message of the home (R284) or INV (R347). -/
def isTree (p : Packet) : Bool :=
  (p.vc == 2 && pFop p == 0x40 && p.field 9 1 == 1) || (p.vc == 0 && pFop p == 0x61) ||
    (p.vc == 0 && pFop p == 0x64 && [0, 2, 4, 6, 7].contains (p.field 8 4)) || (p.vc == 4 && pFop p == 0x20)

/-- Reader groups that prune the tree of an INV at this module (R347). -/
def State.groupsOf (s : State) (p : Packet) : Nat :=
  let id := p.field 16 16
  if p.src = s.me then
    match s.fab.invs.find? (fun t => t.id == id && t.root == s.me) with
    | some t => t.groups
    | none => 0
  else Config.invGroups p.src id

/-- Links of the tree at this module. -/
def State.branches (s : State) (p : Packet) : List Nat :=
  if s.inBlock p.ctx s.me = false then []
  else if pFop p = 0x20 ∧ p.vc = 4 then s.invLinks p.ctx p.src (s.groupsOf p)
  else s.treeLinks p.ctx p.src

/-- Routes one packet (R172, R188). -/
def State.route (s : State) (port : Nat) (p : Packet) : State :=
  if s.routeBad p then s.bump routeErrCountId
  else if isTree p then (s.branches p).foldl (fun s l => s.leave port l p) (s.deliver p)
  else
    match s.exitLink p with
    | some l => s.leave port l p
    | none => s.deliver p

/-! Ports. -/

/-- The next of the hub's units with traffic, in turn after the one last served (R18). -/
def Router.hubTurn (r : Router) : Option (Nat × Packet) :=
  ((List.range 6).map (fun i => (r.hubLast + 1 + i) % 6)).findSome? (fun u =>
    (tget [] r.inj (hubGddr + u)).head?.map (fun p => (u, p)))

/-- Flits pass the hub-unit port, one of each unit in turn, until the last flit of some packet has passed (R18); at most
`n` of them. -/
def Router.hubRun : Nat → Router → Router × Option Packet
  | 0, r => (r, none)
  | n + 1, r =>
    match r.hubTurn with
    | none => (r, none)
    | some (u, p) =>
      let sent := tget 0 r.hubSent u + 1
      if pktFlits p ≤ sent then
        ({ r with
          hubSent := tset 0 r.hubSent u 0
          hubLast := u
          inj := tset [] r.inj (hubGddr + u) ((tget [] r.inj (hubGddr + u)).drop 1) }, some p)
      else Router.hubRun n { r with
        hubSent := tset 0 r.hubSent u sent
        hubLast := u }

/-- Flits of the packets that stand first behind the hub-unit port. -/
def Router.hubFlits (r : Router) : Nat :=
  ((List.range 6).map (fun u => match tget [] r.inj (hubGddr + u) with
    | p :: _ => pktFlits p
    | [] => 0)).sum

/-- The packet that leaves output port `o` next: VC0 first, then the virtual channels in turn (R159). -/
def Router.outNext (r : Router) (o : Nat) : Option OutPkt :=
  let q := tget [] r.outq o
  (0 :: (List.range 11).map (fun i => (tget 11 r.outLast o + i) % 11 + 1)).findSome? (fun vc => q.find? (fun p => p.pkt.vc == vc))

/-- The next packet of an output port reaches its unit. -/
def State.outServe (s : State) (o : Nat) : State :=
  match s.router.outNext o with
  | some p => s.setRouter { s.router with
      outq := tset [] s.router.outq o (dropFirst (· == p) (tget [] s.router.outq o))
      outLast := if p.pkt.vc = 0 then s.router.outLast else tset 11 s.router.outLast o p.pkt.vc
      delivered := s.router.delivered ++ [p.pkt] }
  | none => s

/-- Whole packets of a link's receive buffer that the router takes out: a chunk stays there until the reduction unit has a
buffer for it (R326). -/
def State.readable (s : State) (l : Nat) : Option (List BufFlit) :=
  let x := s.link l
  wholePacket x.parity (x.rx.filter (fun f => match vcPacket x.rx f.vc with
    | some fs => !s.isChunk (packetFrom fs)
    | none => true))

/-- The first whole packet of an input port is taken and routed. -/
def State.inRoute (s : State) (port : Nat) : State :=
  if port = portHub then
    let r := s.router.hubRun s.router.hubFlits
    match r.2 with
    | some p => (s.setRouter r.1).route port p
    | none => s
  else
    match tget [] s.router.inj port with
    | p :: ps => (s.setRouter { s.router with inj := tset [] s.router.inj port ps }).route port p
    | [] =>
      if port < 6 then
        match s.readable port with
        | some fs => (s.modLink port (·.readOut fs)).route port (packetFrom fs)
        | none => s
      else s

/-- PACKET_ROUTE of a port: the next packet of its output queue reaches its unit, and the first whole packet of its input is
routed. The router stands still without main power (R17). -/
def State.packetRoute (port : Nat) (s : State) : State :=
  if s.power.rails = false then s else (s.outServe port).inRoute port

/-- PACKET_ROUTE (R172). -/
def execPacketRoute (port : Nat) (s : State) : Result := need (portOk port) (.next (s.packetRoute port))

/-- FAULT_NOTICE latches code 0x18 for the context that it names (R387, R388). -/
def State.faultNotice (p : Packet) (s : State) : State := (s.taken p).uncovered 0x18 0 [p.field 16 4]

/-- FAULT_NOTICE (R388). -/
def execFaultNotice (p : Packet) (s : State) : Result := need p.wf (powered s (s.faultNotice p))

end Sys2Proof.Machine
end

