-- ==== Sys2Proof/Machine/StepCommands.lean ====
section
/-!
DEFINITION. The commands of steps, votes and decisions.
-/

namespace Sys2Proof.Machine

/-- STEP_VOTE (R254). -/
def execStepVote (ctx : Nat) (s : State) : Result := need (ctxOk ctx) (.next (s.stepVote ctx))

/-- VOTE (R255). -/
def execVote (p : Packet) (s : State) : Result := need p.wf (powered s (s.vote p))

/-- COMMIT_DEADLINE_EXPIRY (R257). -/
def execCommitDeadlineExpiry (ctx : Nat) (s : State) : Result := need (ctxOk ctx) (.next (s.commitExpiry ctx))

/-- COMMIT (R258). -/
def execCommit (p : Packet) (s : State) : Result := need p.wf (powered s (s.commit p))

/-- REPLAY (R259). -/
def execReplay (p : Packet) (s : State) : Result := need p.wf (powered s (s.replay p))

/-- HALT (R260). -/
def execHalt (p : Packet) (s : State) : Result := need p.wf (powered s (s.haltRecv p))

/-- DECISION_TIMEOUT (R260). -/
def execDecisionTimeout (ctx : Nat) (s : State) : Result := need (ctxOk ctx) (.next (s.decisionTimeout ctx))

/-- NORM_SUMMER_DONE (R471). -/
def execNormSummerDone (ctx : Nat) (s : State) : Result := need (ctxOk ctx) (.next (s.normDone ctx))

end Sys2Proof.Machine
end

