-- ==== Sys2Proof/Machine/Dispatch.lean ====
section
/-!
DEFINITION. One arm per command: each calls the meaning of its row of the opcode table.
-/

namespace Sys2Proof.Machine

def exec (i : Instr) (s : State) : Host.Outcome State Fault Refusal :=
  match i with
  | .mgmtSegmentReceive dgram bytes => Sys2Proof.Machine.execMgmtSegmentReceive dgram bytes s
  | .mgmtMessageDiscard cls xid => Sys2Proof.Machine.execMgmtMessageDiscard cls xid s
  | .mgmtVc0Receive p => Sys2Proof.Machine.execMgmtVc0Receive p s
  | .mbxDoorbell m len => Sys2Proof.Machine.execMbxDoorbell m len s
  | .hello r => Sys2Proof.Machine.execHello r s
  | .claim r priority preempt tag => Sys2Proof.Machine.execClaim r priority preempt tag s
  | .renew r => Sys2Proof.Machine.execRenew r s
  | .release r => Sys2Proof.Machine.execRelease r s
  | .handover r target => Sys2Proof.Machine.execHandover r target s
  | .close r => Sys2Proof.Machine.execClose r s
  | .read r id sub flags => Sys2Proof.Machine.execRead r id sub flags s
  | .write r id sub val => Sys2Proof.Machine.execWrite r id sub val s
  | .describe r id => Sys2Proof.Machine.execDescribe r id s
  | .mgmtPost r ctx target descs => Sys2Proof.Machine.execMgmtPost r ctx target descs s
  | .sessionLapse cls => Sys2Proof.Machine.execSessionLapse cls s
  | .leaseExpiry => Sys2Proof.Machine.execLeaseExpiry s
  | .handoverLapse => Sys2Proof.Machine.execHandoverLapse s
  | .authLockExpiry cls => Sys2Proof.Machine.execAuthLockExpiry cls s
  | .apply r area => Sys2Proof.Machine.execApply r area s
  | .discard r area => Sys2Proof.Machine.execDiscard r area s
  | .protDrainDone => Sys2Proof.Machine.execProtDrainDone s
  | .fwImageBlockWrite r sub val => Sys2Proof.Machine.execFwImageBlockWrite r sub val s
  | .fwActivate r v => Sys2Proof.Machine.execFwActivate r v s
  | .bootVerifyDone => Sys2Proof.Machine.execBootVerifyDone s
  | .stepStart r ctx n => Sys2Proof.Machine.execStepStart r ctx n s
  | .ftSet r v => Sys2Proof.Machine.execFtSet r v s
  | .permuteGo r ctx v => Sys2Proof.Machine.execPermuteGo r ctx v s
  | .kettleRestart r v => Sys2Proof.Machine.execKettleRestart r v s
  | .replanCtrl r v => Sys2Proof.Machine.execReplanCtrl r v s
  | .serviceAck r v => Sys2Proof.Machine.execServiceAck r v s
  | .selfTest r v => Sys2Proof.Machine.execSelfTest r v s
  | .idleClear r v => Sys2Proof.Machine.execIdleClear r v s
  | .pruneExcessCountClear r ctx v => Sys2Proof.Machine.execPruneExcessCountClear r ctx v s
  | .rw1cFlagClear r id v => Sys2Proof.Machine.execRw1cFlagClear r id v s
  | .moduleReset src => Sys2Proof.Machine.execModuleReset src s
  | .mainReset r => Sys2Proof.Machine.execMainReset r s
  | .computeReset r => Sys2Proof.Machine.execComputeReset r s
  | .contextReset src ctx => Sys2Proof.Machine.execContextReset src ctx s
  | .hostReset => Sys2Proof.Machine.execHostReset s
  | .sqTailWrite ctx v => Sys2Proof.Machine.execSqTailWrite ctx v s
  | .sqEntryTake ctx readOk host => Sys2Proof.Machine.execSqEntryTake ctx readOk host s
  | .sqListFullRetry ctx => Sys2Proof.Machine.execSqListFullRetry ctx s
  | .intStatusClear ctx v => Sys2Proof.Machine.execIntStatusClear ctx v s
  | .intMaskWrite ctx v => Sys2Proof.Machine.execIntMaskWrite ctx v s
  | .hostRegisterWrite off bytes => Sys2Proof.Machine.execHostRegisterWrite off bytes s
  | .hostMemoryRead win off n err => Sys2Proof.Machine.execHostMemoryRead win off n err s
  | .hostMemoryWrite win off bytes err => Sys2Proof.Machine.execHostMemoryWrite win off bytes err s
  | .objectWindowWrite off bytes => Sys2Proof.Machine.execObjectWindowWrite off bytes s
  | .powerOn => Sys2Proof.Machine.execPowerOn s
  | .caddyReady => Sys2Proof.Machine.execCaddyReady s
  | .mainSequenceStart => Sys2Proof.Machine.execMainSequenceStart s
  | .railsUp e => Sys2Proof.Machine.execRailsUp e s
  | .coreSelfTestDone fails e => Sys2Proof.Machine.execCoreSelfTestDone fails e s
  | .gddr7TrainingDone rate e => Sys2Proof.Machine.execGddr7TrainingDone rate e s
  | .memoryZeroed e => Sys2Proof.Machine.execMemoryZeroed e s
  | .mainReady e => Sys2Proof.Machine.execMainReady e s
  | .refclkLoss => Sys2Proof.Machine.execRefclkLoss s
  | .powerEstimate a => Sys2Proof.Machine.execPowerEstimate a s
  | .calibration measured rails => Sys2Proof.Machine.execCalibration measured rails s
  | .phaseEnergyUpdate => Sys2Proof.Machine.execPhaseEnergyUpdate s
  | .controlTick => Sys2Proof.Machine.execControlTick s
  | .opChangeDone die => Sys2Proof.Machine.execOpChangeDone die s
  | .forcedIdleFrame => Sys2Proof.Machine.execForcedIdleFrame s
  | .forcedIdleQuantumStart core => Sys2Proof.Machine.execForcedIdleQuantumStart core s
  | .forcedIdleQuantumEnd core => Sys2Proof.Machine.execForcedIdleQuantumEnd core s
  | .paceProbeStart => Sys2Proof.Machine.execPaceProbeStart s
  | .paceProbeEnd => Sys2Proof.Machine.execPaceProbeEnd s
  | .droopDetect supply => Sys2Proof.Machine.execDroopDetect supply s
  | .droopStretchEnd supply cycles => Sys2Proof.Machine.execDroopStretchEnd supply cycles s
  | .droopLimitExpiry die => Sys2Proof.Machine.execDroopLimitExpiry die s
  | .thermalSample temps => Sys2Proof.Machine.execThermalSample temps s
  | .powerBrakeAssert => Sys2Proof.Machine.execPowerBrakeAssert s
  | .powerBrakeDeassert => Sys2Proof.Machine.execPowerBrakeDeassert s
  | .coolantOkLow => Sys2Proof.Machine.execCoolantOkLow s
  | .stackTempSample stack t => Sys2Proof.Machine.execStackTempSample stack t s
  | .gddrTempRead temps => Sys2Proof.Machine.execGddrTempRead temps s
  | .gddr7Realign => Sys2Proof.Machine.execGddr7Realign s
  | .gddr7DeviceLost => Sys2Proof.Machine.execGddr7DeviceLost s
  | .scrubRead addr err => Sys2Proof.Machine.execScrubRead addr err s
  | .granuleRetireDone => Sys2Proof.Machine.execGranuleRetireDone s
  | .journalWriteDone => Sys2Proof.Machine.execJournalWriteDone s
  | .coreFailureDetect core => Sys2Proof.Machine.execCoreFailureDetect core s
  | .watchdogExpiry core => Sys2Proof.Machine.execWatchdogExpiry core s
  | .spareCoreReady die => Sys2Proof.Machine.execSpareCoreReady die s
  | .railPhaseLoss rail => Sys2Proof.Machine.execRailPhaseLoss rail s
  | .mgmtTakeover => Sys2Proof.Machine.execMgmtTakeover s
  | .m1Failure => Sys2Proof.Machine.execM1Failure s
  | .powerLoss input => Sys2Proof.Machine.execPowerLoss input s
  | .ringOscSample unit counts => Sys2Proof.Machine.execRingOscSample unit counts s
  | .criticalPathSample unit vmin => Sys2Proof.Machine.execCriticalPathSample unit vmin s
  | .laserBiasSample link ratios => Sys2Proof.Machine.execLaserBiasSample link ratios s
  | .retentionTest stack channel multiple => Sys2Proof.Machine.execRetentionTest stack channel multiple s
  | .poweredHourTick => Sys2Proof.Machine.execPoweredHourTick s
  | .lightArrival link => Sys2Proof.Machine.execLightArrival link s
  | .laneLockDone link healthy => Sys2Proof.Machine.execLaneLockDone link healthy s
  | .ident link raw => Sys2Proof.Machine.execIdent link raw s
  | .widthSet link raw => Sys2Proof.Machine.execWidthSet link raw s
  | .widthAck link raw => Sys2Proof.Machine.execWidthAck link raw s
  | .spareReq link raw => Sys2Proof.Machine.execSpareReq link raw s
  | .spareAck link raw => Sys2Proof.Machine.execSpareAck link raw s
  | .laneCtrlResend link => Sys2Proof.Machine.execLaneCtrlResend link s
  | .atRoundChange link rx => Sys2Proof.Machine.execAtRoundChange link rx s
  | .linkDown link => Sys2Proof.Machine.execLinkDown link s
  | .laneFailure link lane => Sys2Proof.Machine.execLaneFailure link lane s
  | .wavelengthTimeout link wave => Sys2Proof.Machine.execWavelengthTimeout link wave s
  | .laserFailure link source => Sys2Proof.Machine.execLaserFailure link source s
  | .laserSpareLocked link => Sys2Proof.Machine.execLaserSpareLocked link s
  | .dataFlitReceive link raw fecOk => Sys2Proof.Machine.execDataFlitReceive link raw fecOk s
  | .idleFlitReceive link raw => Sys2Proof.Machine.execIdleFlitReceive link raw s
  | .nak link raw => Sys2Proof.Machine.execNak link raw s
  | .resend link raw => Sys2Proof.Machine.execResend link raw s
  | .nakRepeat link => Sys2Proof.Machine.execNakRepeat link s
  | .routerParityError link => Sys2Proof.Machine.execRouterParityError link s
  | .flitTransmit link => Sys2Proof.Machine.execFlitTransmit link s
  | .packetRoute port => Sys2Proof.Machine.execPacketRoute port s
  | .faultNotice p => Sys2Proof.Machine.execFaultNotice p s
  | .timeExchangeStart link => Sys2Proof.Machine.execTimeExchangeStart link s
  | .timeFlitReceive link raw => Sys2Proof.Machine.execTimeFlitReceive link raw s
  | .ftParentReselect => Sys2Proof.Machine.execFtParentReselect s
  | .ftHoldoverEntry => Sys2Proof.Machine.execFtHoldoverEntry s
  | .signal src w => Sys2Proof.Machine.execSignal src w s
  | .takeNb src w => Sys2Proof.Machine.execTakeNb src w s
  | .syncRead src w => Sys2Proof.Machine.execSyncRead src w s
  | .set src w => Sys2Proof.Machine.execSet src w s
  | .arrive src w => Sys2Proof.Machine.execArrive src w s
  | .barrierInit src w => Sys2Proof.Machine.execBarrierInit src w s
  | .remoteSyncReceive p => Sys2Proof.Machine.execRemoteSyncReceive p s
  | .coreSleep core => Sys2Proof.Machine.execCoreSleep core s
  | .coreWake core => Sys2Proof.Machine.execCoreWake core s
  | .matmul core => Sys2Proof.Machine.execMatmul core s
  | .vector core => Sys2Proof.Machine.execVector core s
  | .copy core => Sys2Proof.Machine.execCopy core s
  | .emit core => Sys2Proof.Machine.execEmit core s
  | .update core => Sys2Proof.Machine.execUpdate core s
  | .send core => Sys2Proof.Machine.execSend core s
  | .post core => Sys2Proof.Machine.execPost core s
  | .postRetry core => Sys2Proof.Machine.execPostRetry core s
  | .overflowMove die => Sys2Proof.Machine.execOverflowMove die s
  | .chainMissing die => Sys2Proof.Machine.execChainMissing die s
  | .tileComputeDone core idx err => Sys2Proof.Machine.execTileComputeDone core idx err s
  | .tileEpilogueDone core idx err => Sys2Proof.Machine.execTileEpilogueDone core idx err s
  | .tileStoresDone core idx => Sys2Proof.Machine.execTileStoresDone core idx s
  | .ctxSliceExpiry core stops => Sys2Proof.Machine.execCtxSliceExpiry core stops s
  | .contextSwitchDone core => Sys2Proof.Machine.execContextSwitchDone core s
  | .exchAdmit => Sys2Proof.Machine.execExchAdmit s
  | .dispatch => Sys2Proof.Machine.execDispatch s
  | .exchReturn => Sys2Proof.Machine.execExchReturn s
  | .combine => Sys2Proof.Machine.execCombine s
  | .openBwd => Sys2Proof.Machine.execOpenBwd s
  | .exchCount p => Sys2Proof.Machine.execExchCount p s
  | .exchGrant p => Sys2Proof.Machine.execExchGrant p s
  | .exchAllot p => Sys2Proof.Machine.execExchAllot p s
  | .exchRow p => Sys2Proof.Machine.execExchRow p s
  | .exchReturnRow p => Sys2Proof.Machine.execExchReturnRow p s
  | .exchDeadlineExpiry ctx id dir => Sys2Proof.Machine.execExchDeadlineExpiry ctx id dir s
  | .stepVote ctx => Sys2Proof.Machine.execStepVote ctx s
  | .vote p => Sys2Proof.Machine.execVote p s
  | .commitDeadlineExpiry ctx => Sys2Proof.Machine.execCommitDeadlineExpiry ctx s
  | .commit p => Sys2Proof.Machine.execCommit p s
  | .replay p => Sys2Proof.Machine.execReplay p s
  | .halt p => Sys2Proof.Machine.execHalt p s
  | .decisionTimeout ctx => Sys2Proof.Machine.execDecisionTimeout ctx s
  | .normSummerDone ctx => Sys2Proof.Machine.execNormSummerDone ctx s
  | .emitChunkHandoff => Sys2Proof.Machine.execEmitChunkHandoff s
  | .redChunkReceive p => Sys2Proof.Machine.execRedChunkReceive p s
  | .reduceDeadlineExpiry ctx group tag => Sys2Proof.Machine.execReduceDeadlineExpiry ctx group tag s
  | .permuteDrainRound ctx => Sys2Proof.Machine.execPermuteDrainRound ctx s
  | .countReq p => Sys2Proof.Machine.execCountReq p s
  | .permuteCount p => Sys2Proof.Machine.execPermuteCount p s
  | .phase1Go p => Sys2Proof.Machine.execPhase1Go p s
  | .permutePhase1CopyDone ctx => Sys2Proof.Machine.execPermutePhase1CopyDone ctx s
  | .phase1Done p => Sys2Proof.Machine.execPhase1Done p s
  | .phase2Go p => Sys2Proof.Machine.execPhase2Go p s
  | .permutePhase2StoresAcked ctx => Sys2Proof.Machine.execPermutePhase2StoresAcked ctx s
  | .phase2Done p => Sys2Proof.Machine.execPhase2Done p s
  | .permuteDone p => Sys2Proof.Machine.execPermuteDone p s
  | .permuteFailed p => Sys2Proof.Machine.execPermuteFailed p s
  | .entryInvalid p => Sys2Proof.Machine.execEntryInvalid p s
  | .permuteStageDeadline ctx => Sys2Proof.Machine.execPermuteStageDeadline ctx s
  | .alloc src w => Sys2Proof.Machine.execAlloc src w s
  | .free src w => Sys2Proof.Machine.execFree src w s
  | .query src w => Sys2Proof.Machine.execQuery src w s
  | .creditReq p => Sys2Proof.Machine.execCreditReq p s
  | .urnRequestServe ctx => Sys2Proof.Machine.execUrnRequestServe ctx s
  | .urnGrant p => Sys2Proof.Machine.execUrnGrant p s
  | .urnData p => Sys2Proof.Machine.execUrnData p s
  | .urnListRepairDone cls => Sys2Proof.Machine.execUrnListRepairDone cls s
  | .fabRead ctx => Sys2Proof.Machine.execFabRead ctx s
  | .fabWrite ctx => Sys2Proof.Machine.execFabWrite ctx s
  | .fabFlaggedWrite ctx => Sys2Proof.Machine.execFabFlaggedWrite ctx s
  | .fabAtomic ctx => Sys2Proof.Machine.execFabAtomic ctx s
  | .fabInvalidate ctx => Sys2Proof.Machine.execFabInvalidate ctx s
  | .flaggedWriteSend ctx => Sys2Proof.Machine.execFlaggedWriteSend ctx s
  | .targetRead p err => Sys2Proof.Machine.execTargetRead p err s
  | .targetWrite p err => Sys2Proof.Machine.execTargetWrite p err s
  | .targetFlaggedWrite q => Sys2Proof.Machine.execTargetFlaggedWrite q s
  | .targetAtomic q => Sys2Proof.Machine.execTargetAtomic q s
  | .atomicCombined q => Sys2Proof.Machine.execAtomicCombined q s
  | .atomicAck p => Sys2Proof.Machine.execAtomicAck p s
  | .targetInvalidate p => Sys2Proof.Machine.execTargetInvalidate p s
  | .inv p => Sys2Proof.Machine.execInv p s
  | .invAck p => Sys2Proof.Machine.execInvAck p s
  | .readData p => Sys2Proof.Machine.execReadData p s
  | .writeAck p => Sys2Proof.Machine.execWriteAck p s
  | .atomicResp p => Sys2Proof.Machine.execAtomicResp p s
  | .invDone p => Sys2Proof.Machine.execInvDone p s
  | .atomicRetryTimeout dest seq => Sys2Proof.Machine.execAtomicRetryTimeout dest seq s
  | .atomicBusyRetry dest seq => Sys2Proof.Machine.execAtomicBusyRetry dest seq s
  | .atomicAckTimer dest => Sys2Proof.Machine.execAtomicAckTimer dest s
  | .atomicEntryExpiry => Sys2Proof.Machine.execAtomicEntryExpiry s
  | .hotRateTick => Sys2Proof.Machine.execHotRateTick s
  | .fabTimeout tag => Sys2Proof.Machine.execFabTimeout tag s
  | .telemetrySample idle phases => Sys2Proof.Machine.execTelemetrySample idle phases s
  | .wavelengthRelock link wave => Sys2Proof.Machine.execWavelengthRelock link wave s
  | .ftRefLoss => Sys2Proof.Machine.execFtRefLoss s
  | .orefLoss => Sys2Proof.Machine.execOrefLoss s
  | .plcaBeaconTimeout => Sys2Proof.Machine.execPlcaBeaconTimeout s
  | .pcieLinkTrainingDone gen width link => Sys2Proof.Machine.execPcieLinkTrainingDone gen width link s
  | .holdUpExhausted => Sys2Proof.Machine.execHoldUpExhausted s

end Sys2Proof.Machine
end

