-- ==== Sys2Proof/Machine/Canon.lean ====
section
/-!
DEFINITION. The canonical form of the state's tables, so that equal contents are equal data: keys strictly rising, no
entry equal to what an unlisted key reads as; the width of the sync counters, which the model holds as
numbers; and the parts of the state by name, in which a command's frame is said.
-/

namespace Sys2Proof.Machine

/-- Device memory and its poison marks are in canonical form: an unlisted byte reads 0, an unlisted granule is sound. -/
def Mem.wf (m : Mem) : Bool := twf 0 m.bytes && twf false m.poison && twf 0 m.level && twf 0 m.below

/-- Every entry of a table of counts fits `w` bits. -/
def countsFit (w : Nat) (t : Tbl Nat) : Bool := t.all (fun p => decide (p.2 < 2 ^ w))

/-- Sync counters and their shadow are canonical and hold 16 bits each (R181, R196). -/
def Sync.wf (x : Sync) : Bool := twf 0 x.ctr && countsFit 16 x.ctr && twf 0 x.shadow && countsFit 16 x.shadow

/-- Tables of the other units. -/
def FabTime.wf (x : FabTime) : Bool := keysFrom none x.nbr && keysFrom none x.exch
def Power.wf (x : Power) : Bool := twf 0 x.phases
def Kettle.wf (x : Kettle) : Bool := twf .init x.dies
def Sched.wf (x : Sched) : Bool := twf [] x.lists
def Urn.wf (x : Urn) : Bool := twf .free x.bufs && twf .init x.lists
def Router.wf (x : Router) : Bool := twf [] x.inj && twf 0 x.hubSent && twf [] x.outq && twf 11 x.outLast
def Caddy.wf (x : Caddy) : Bool := keysFrom none x.sessions
def HostIf.wf (x : HostIf) : Bool := twf .init x.pages && twf .init x.mbx
def Red.wf (x : Red) : Bool := twf .init x.ctx && twf .init x.perm
def Objects.wf (x : Objects) : Bool := keysFrom none x.vals && twf .init x.area && twf .init x.gf
def Ageing.wf (x : Ageing) : Bool := twf .init x.units && twf 8 x.retention

/-- Every table of the module's parts is in canonical form and every sync counter fits its 16 bits. -/
def State.wf (s : State) : Bool :=
  s.ft.wf && s.power.wf && s.kettle.wf && twf .init s.cores && s.sched.wf && s.sync.wf && s.mem.wf && s.urn.wf &&
    twf .init s.links && s.router.wf && s.caddy.wf && s.host.wf && twf .init s.steps && s.red.wf && s.obj.wf &&
    s.ageing.wf

/-- The fields of the state, as names. -/
inductive Part
  | clk | ft | pins | power | kettle | cores | sched | txe | sync | mem | urn | fab | links | router | caddy | host
  | steps | red | obj | flash | ageing | tele | out | free
deriving DecidableEq, Repr

/-- A part reads the same in two states. -/
def Part.Same (s t : State) : Part → Prop
  | .clk => t.clk = s.clk
  | .ft => t.ft = s.ft
  | .pins => t.pins = s.pins
  | .power => t.power = s.power
  | .kettle => t.kettle = s.kettle
  | .cores => t.cores = s.cores
  | .sched => t.sched = s.sched
  | .txe => t.txe = s.txe
  | .sync => t.sync = s.sync
  | .mem => t.mem = s.mem
  | .urn => t.urn = s.urn
  | .fab => t.fab = s.fab
  | .links => t.links = s.links
  | .router => t.router = s.router
  | .caddy => t.caddy = s.caddy
  | .host => t.host = s.host
  | .steps => t.steps = s.steps
  | .red => t.red = s.red
  | .obj => t.obj = s.obj
  | .flash => t.flash = s.flash
  | .ageing => t.ageing = s.ageing
  | .tele => t.tele = s.tele
  | .out => t.out = s.out
  | .free => t.free = s.free

/-- What a command leaves alone: only the parts in `L` may differ, and the queue is as it was. -/
def Frame (L : List Part) (s t : State) : Prop := (∀ p, L.contains p = false → p.Same s t) ∧ t.pending = s.pending

end Sys2Proof.Machine
end

