-- ==== Sys2Proof/Safety.lean ====
section
/-!
DEFINITION. What a safe step of the module is: it answers a next state. And the conditions under which the caddy takes up
a request at once, in the terms the statements use.
-/

namespace Sys2Proof

/-- A step that neither faults nor is refused. -/
def Safe (s : Machine.State) : Prop := ∃ t, Machine.step s = .next t

namespace Machine

/-- A WRITE of a value of `n` bytes to an object, whole (R411). -/
def writeOf (id n v : Nat) : MOp := .write id 0 (toLE n v)

/-- A request reaches this caddy, which takes it up at once: its transport is served and its class may use it, the message
spells the operation, the module is addressed, no APPLY waits to reply, and no timer has run out (R405, R406, R409). -/
def State.Reaches (s : State) (r : Req) (m : MOp) : Prop :=
  r.wf = true ∧ m.norm = m ∧ s.serves r.transport = true ∧ classTransport r.cls r.transport = true ∧
    (r.dest = 0x8000 ∨ r.dest = s.me) ∧ s.caddy.deferred = [] ∧ s.settle = s

/-- A request in the open session `x` that is neither a repetition nor stale, and is not refused in recovery (R412, R427). -/
def State.Hears (s : State) (r : Req) (m : MOp) (x : Session) : Prop :=
  s.Reaches r m ∧ (s.caddy.recovery = true → m.inRecovery = true) ∧ s.sessionOf r.cls r.session = some x ∧
    x.cache.all (fun c => c.1 != r.xid) = true ∧ (x.cache = [] ∨ x.cache.any (fun c => !seqBefore r.xid c.1) = true)

/-- Such a request from the owner in the current epoch, with no handover pending where its operation minds one (R413,
R420, R421). -/
def State.Obeys (s : State) (r : Req) (m : MOp) (x : Session) : Prop :=
  s.Hears r m x ∧ s.fromOwner r = true ∧ (handoverOp m.code = true → s.caddy.handover = none)

/-- The state in which the operation of a request in session `x` is executed: the session has heard a message, and the
owner's lease is renewed (R406, R419). -/
def State.taking (s : State) (r : Req) (x : Session) : State :=
  let s := s.setSession r.cls { x with lastMsg := s.clk }
  if s.fromOwner r then s.renewLease else s

/-- The last message that left is the reply to a request, with a status and a payload (R409). -/
def State.Answers (t : State) (r : Req) (m : MOp) (status : Nat) (payload : List Byte) : Prop :=
  t.out.mgmt.getLast? = some (replyTo r m.code r.session r.epoch status payload)

/-- A flit that arrives whole and is not one that R157 discards, of an FTYPE (R156, R157). -/
def goodFlit (ftype : Nat) (raw : List Byte) : Prop := flCrcOk raw = true ∧ flBad raw = false ∧ flType raw = ftype

/-- The other links are as they were. -/
def OtherLinks (l : Nat) (s t : State) : Prop := ∀ k, k ≠ l → t.link k = s.link k

/-- Core `n` has taken the tile of list entry `e` as `x`: the last of its accepted tiles; the others and the other cores are
as they were, and the entry has left its list (R96, R112). -/
def State.Takes (s t : State) (n : Nat) (e : Entry) (x : Tile) : Prop :=
  (t.core n).tiles.getLast? = some x ∧
    (t.core n).tiles.map (fun y => (y.ctx, y.seq)) = (s.core n).tiles.map (fun y => (y.ctx, y.seq)) ++ [(e.ctx, e.seq)] ∧
    (∀ m, m ≠ n → t.core m = s.core m) ∧ ∀ y ∈ t.dieList e.die, y.seq ≠ e.seq

/-- A packet of this module waits to enter the router, at a port or in the queue of a unit behind the hub's, or before it for
the rate of its hot destination (R18, R172, R355). -/
def State.Waiting (t : State) (p : Packet) : Prop :=
  (∃ port, p ∈ tget [] t.router.inj port) ∨ p ∈ t.fab.capped.map (·.2)

/-- A packet waits to enter the router: its virtual channel, its destination and the operation its body names (R158, R217). -/
def State.Sent (t : State) (vc dest fop : Nat) : Prop :=
  ∃ p, t.Waiting p ∧ p.vc = vc ∧ p.dest = dest ∧ p.field 0 8 = fop

/-- A DECIDE for the step and attempt of a context in `s` waits at the hub (R256, R257). -/
def State.Decides (s t : State) (ctx kind reason : Nat) : Prop :=
  (t.stp ctx).decided = true ∧ ∃ p ∈ tget [] t.router.inj hubSelf, p.vc = 0 ∧ p.ctx = ctx ∧ p.field 0 8 = 0x61 ∧
    p.field 8 2 = kind ∧ p.field 12 4 = ctx ∧ p.field 16 32 = (s.stp ctx).step % 2 ^ 32 ∧
    p.field 48 8 = (s.stp ctx).attempt % 256 ∧ p.field 56 8 = reason

/-- A permute message of a KIND for a context waits at the hub, with its ROUND and REASON (R284). -/
def State.Permutes (t : State) (ctx kind round reason : Nat) : Prop :=
  ∃ p ∈ tget [] t.router.inj hubSelf, p.vc = 0 ∧ p.ctx = ctx ∧ p.field 0 8 = 0x64 ∧ p.field 8 4 = kind ∧
    p.field 12 4 = ctx ∧ p.field 16 16 = round ∧ p.field 32 16 = (t.perm ctx).epoch ∧ p.field 256 8 = reason

/-- A chunk that belongs to the step, attempt and epoch in progress, of a key that is not closed (R273, R276). -/
def State.chunkCurrent (s : State) (p : Packet) : Prop :=
  24 ≤ p.body.length ∧ p.field 0 8 = 0x70 ∧ rBad p.body = false ∧ (s.redc p.ctx).staged = false ∧
    rEpoch p.body = (s.redc p.ctx).epoch ∧ rStep p.body = s.stepNo p.ctx ∧
    rAttempt p.body = s.attemptNo p.ctx % 256

/-- The step of a context has failed in this attempt, if it was running (R254). -/
def State.Failed (s t : State) (ctx : Nat) : Prop :=
  s.stepsOn ctx = true → (s.stp ctx).st = .running → ∃ r, (t.stp ctx).latch = some r

/-- A command in flight has ended with a STATUS and a RESULT: it is no longer in flight, both stand in its ring slot, DONE_COUNT
has gone to DONE_ID, and a STATUS other than OK fails the step (R338). -/
def State.Completes (s t : State) (k : FabCmd) (status result : Nat) : Prop :=
  (∀ x ∈ t.fab.cmds, x.tag ≠ k.tag) ∧
    (s.anyUnmapped (k.slot + 0x30) 16 = false →
      ∀ i b, (toLE 8 result ++ toLE 8 status)[i]? = some b → t.memByte (k.slot + 0x30 + i) = b) ∧
    t.sync = (if fcDoneCount k.word = 0 then s else s.signal k.ctx (fcDoneId k.word) (fcDoneCount k.word)).sync ∧
    (status ≠ 0 → s.Failed t k.ctx)

/-- The other cores are as they were. -/
def OtherCores (n : Nat) (s t : State) : Prop := ∀ m, m ≠ n → t.core m = s.core m

end Machine

end Sys2Proof
end

