-- ==== Sys2Proof/Certificates/Slice0/Obligations.lean ====
section
/-!
DEFINITION. The statements for the provers, from the numbered rules of spec/.
-/

open Sys2Proof Sys2Proof.Machine

/-- A step takes the command at the front of the queue (the block's form, log 14) and answers what `exec` answers with the
queue's rest. -/
def Obligations.StepRunsTheFrontCommand : Prop :=
  ∀ (c : Instr) (cs : List Instr) (s : State), step { s with pending := c :: cs } = exec c { s with pending := cs }

/-- With no command waiting a step lets one nanosecond pass (the model's choice, log 1): the clock advances by one, and
fabric time by one while it runs uncorrected (07 R176) and not at all while it stands; while no whole microsecond ends and no
access finds an error (free values, log 9) nothing changes but what the list controllers take note of. -/
def Obligations.IdleStepPassesOneNanosecond : Prop :=
  ∀ s : State, s.pending = [] → ∃ t, step s = .next t ∧ t.clk = s.clk + 1 ∧
    (s.ft.running = false → t.ft = s.ft) ∧
    (s.ft.running = true → s.ft.corr = 0 → s.ft.frac = 0 → t.ft.now = (s.ft.now + 1) % 2 ^ 64) ∧
    Frame [.clk, .ft, .sched, .mem, .urn, .router, .host, .obj, .flash, .tele, .out] s t ∧
    ((s.clk + 1) % 1000 ≠ 0 → s.power.rails = false ∨ Config.found (s.clk + 1) = [] →
      Frame [.clk, .ft, .sched, .urn, .router] s t)

/-- Right after reset no command waits, the main domain is off, every link is DOWN, every sync counter is 0, every step
is IDLE with nothing committed, no class holds a session, there is no owner, EPOCH is 0, the fault log is empty, no pool
buffer is held, and every object has its catalogue default (01 R27, 07 R162, 08 R181, 10 R252, 13 R315, 17 R417, 18 R431,
19 R463 to R467). -/
def Obligations.ResetHoldsTheSpecsValues : Prop :=
  State.reset.pending = [] ∧ State.reset.power.main = .off ∧ State.reset.power.rails = false ∧
    (∀ l, (State.reset.link l).st = .down) ∧ (∀ i, State.reset.ctr i = 0) ∧
    (∀ c, (State.reset.stp c).st = .idle ∧ (State.reset.stp c).committed = 0xFFFFFFFF) ∧
    (∀ c, tget? State.reset.caddy.sessions c = none) ∧ State.reset.caddy.owner = none ∧ State.reset.caddy.epoch = 0 ∧
    State.reset.flash.log = [] ∧ (∀ k, tget .free State.reset.urn.bufs k = .free) ∧
    (∀ id, State.reset.ov id = objDefault id)

/-- The state right after reset is in canonical form (the model's own form of its tables). -/
def Obligations.ResetIsCanonical : Prop := State.reset.wf = true

/-- Every step keeps the canonical form: device memory and every other table stays sorted with no entry equal to its
default, and every sync counter stays within its 16 bits (08 R181). -/
def Obligations.StepKeepsTheCanonicalForm : Prop :=
  ∀ s t : State, s.wf = true → step s = .next t → t.wf = true

/-- A command whose operands name parts that the module has answers a next state; any other stops
with noSuchPart (the model's form, log 14). -/
def Obligations.CommandsStopOnlyOnAbsentParts : Prop :=
  ∀ (c : Instr) (s : State),
    (c.wf = true → ∃ t, exec c s = .next t) ∧ (c.wf = false → exec c s = .fault .noSuchPart)

/-- Every command leaves the queue behind it as it was, whatever its effect (the block's form, log 14). -/
def Obligations.CommandsLeaveTheQueue : Prop :=
  ∀ (c : Instr) (s t : State), exec c s = .next t → t.pending = s.pending

/-- From a queue of well-formed commands no run of steps ever stops: the queue empties in order
and time passes after (the model's choices, logs 1 and 14). -/
def Obligations.WellFormedQueuesNeverStop : Prop :=
  ∀ (n : Nat) (s : State), s.pending.all Instr.wf = true →
    ∃ t, core.run n s = .next t ∧ t.pending = s.pending.drop n

/-- The operating point of a die changes when its change is done, and droop stretches its clock: OP_CHANGE_DONE puts the
target's clock and voltage in force; DROOP_DETECT with the supply below the point's voltage less DROOP_MARGIN stretches, sets
DROOP_SEEN and counts, and above it does nothing; a stretch of at least 32 cycles ends with the supply 10 mV above that
threshold, and one that brings the stretched cycles above 5 % of the cycles of 100 µs limits the die to the point below for
1 ms; DROOP_LIMIT_EXPIRY ends that limit unless a stretch that goes on sets it again (15 R364, R376). -/
def Obligations.OperatingPointAndDroop : Prop :=
  ∀ (s : State) (d : Nat), s.wf = true → d < 4 →
    (∀ p, (s.die d).target = some p →
      ∃ t, exec (.opChangeDone d) s = .next t ∧ (t.die d).point = p ∧ (t.die d).target = none ∧
        (t.die d).clock = p ∧ (t.die d).mv = s.planMv d p ∧
        (∀ e, e ≠ d → t.die e = s.die e) ∧ Frame [.kettle] s t) ∧
    (∀ v, s.power.rails = true → (s.die d).stretching = none → v < s.planMv d (s.die d).point - s.ov droopMarginId →
      ∃ t, exec (.droopDetect ⟨d, v⟩) s = .next t ∧ (t.die d).stretching = some s.clk ∧
        ((s.die d).stretched = [] → t.die d = { s.die d with stretching := some s.clk }) ∧
        t.kettle.droopSeen = true ∧ t.ov (droopCountId + d) = min (s.ov (droopCountId + d) + 1) (2 ^ 32 - 1) ∧
        (∀ e, e ≠ d → t.die e = s.die e) ∧ Frame [.kettle, .obj] s t) ∧
    (∀ v, s.planMv d (s.die d).point - s.ov droopMarginId ≤ v → exec (.droopDetect ⟨d, v⟩) s = .next s) ∧
    (∀ v n, (s.die d).stretching.isSome = true → 32 ≤ n → s.planMv d (s.die d).point - s.ov droopMarginId + 10 ≤ v →
      ∃ t, exec (.droopStretchEnd ⟨d, v⟩ n) s = .next t ∧ (t.die d).stretching = none ∧
        (pointMHz (s.die d).clock * 100 < 21 * n →
          (t.die d).droop = some ((s.die d).point - 1, s.clk + 1000000)) ∧
        (21 * n ≤ pointMHz (s.die d).clock * 100 → (s.die d).stretched = [] → (t.die d).droop = (s.die d).droop) ∧
        (∀ e, e ≠ d → t.die e = s.die e) ∧ Frame [.kettle] s t) ∧
    (∀ v n, n < 32 ∨ v < s.planMv d (s.die d).point - s.ov droopMarginId + 10 →
      exec (.droopStretchEnd ⟨d, v⟩ n) s = .next s) ∧
    (∀ p a, (s.die d).droop = some (p, a) → a ≤ s.clk →
      ∃ t, exec (.droopLimitExpiry d) s = .next t ∧
        t.die d = { s.die d with
          droop := if pointMHz (s.die d).clock * 100 - (s.die d).stretchedNow s.clk < 20 * (s.die d).stretchedNow s.clk
            then some ((s.die d).point - 1, s.clk + 1000000) else none } ∧
        (∀ e, e ≠ d → t.die e = s.die e) ∧ Frame [.kettle] s t)

/-- The brake holds every die at the floor: POWER_BRAKE_ASSERT gives q 7, point 0 as target, DENSE_ONLY, RED and LIMIT 5
(BRAKE) to every die, whose clock falls to point 0 at once and whose point stands until its change is done;
POWER_BRAKE_DEASSERT ends the hold and leaves each die's point and q as they stand, with a budget limit of point 0, DENSE_ONLY
and q 7, from where it releases (15 R364, R378, R369; the state that release begins in is the model's reading, log 17). -/
def Obligations.PowerBrakeHoldsTheFloor : Prop :=
  ∀ s : State, s.wf = true →
    (s.power.rails = true → s.kettle.brake = false →
      ∃ t, exec .powerBrakeAssert s = .next t ∧ t.pins.brake = true ∧ t.kettle.brake = true ∧
        (∀ d, d < 4 → (t.die d).q = 7 ∧ (t.die d).bstate = 2 ∧ (t.die d).eng = .denseOnly ∧ (t.die d).limit = 5 ∧
          (t.die d).point = (s.die d).point ∧ (t.die d).clock = 0 ∧
          (t.die d).target = if (s.die d).point = 0 ∧ (s.die d).mv ≤ s.planMv d 0 then none else some 0) ∧
        Frame [.pins, .kettle, .cores] s t) ∧
    (s.kettle.brake = true →
      ∃ t, exec .powerBrakeDeassert s = .next t ∧ t.pins.brake = false ∧ t.kettle.brake = false ∧
        (∀ d, d < 4 → (t.die d).point = (s.die d).point ∧ (t.die d).budget = 0 ∧ (t.die d).budEng = .denseOnly ∧
          (t.die d).budQ = 7 ∧ (t.die d).q = (s.die d).q) ∧
        Frame [.pins, .kettle, .cores] s t)

/-- Forced idle and pace probes: a frame, at a fabric time that the hub reads as a multiple of 80 µs, puts each die's larger q
in force; a quantum begins for a core whose slot it is and ends; a probe, at a multiple of PACE_PERIOD, lifts the matched
points, and its end, 100 µs later, takes the lowest PACE of its last 50 µs as p_m (01 R22, 05 R118, 15 R365, R370, R374).
That a quantum's end raises the core's wake wire is the model's reading (log 28). -/
def Obligations.ForcedIdleAndProbes : Prop :=
  ∀ s : State, s.wf = true →
    (s.power.rails = true → s.kettle.brake = false → s.onTick 80000 = true →
      ∃ t, exec .forcedIdleFrame s = .next t ∧ t.kettle.frameAt = s.ftRead hubPs - s.ftRead hubPs % 80000 ∧
        (∀ d, d < 4 → (t.die d).q = max (s.die d).budQNext (s.die d).thermQNext ∧
          (t.die d).budQ = (s.die d).budQNext ∧ (t.die d).thermQ = (s.die d).thermQNext ∧
          (t.die d).point = (s.die d).point) ∧
        Frame [.kettle] s t) ∧
    (∀ n, n < 256 → s.power.rails = true → s.idleSlot n = true →
      ∃ t, exec (.forcedIdleQuantumStart n) s = .next t ∧ t.core n = { s.core n with idleQ := true } ∧
        (∀ m, m ≠ n → t.core m = s.core m) ∧ Frame [.cores] s t) ∧
    (∀ n, n < 256 → s.power.rails = true →
      ∃ t, exec (.forcedIdleQuantumEnd n) s = .next t ∧ t.core n = { s.core n with idleQ := false, wake := true } ∧
        (∀ m, m ≠ n → t.core m = s.core m) ∧ Frame [.cores] s t) ∧
    (s.power.rails = true → s.onTick (bits (s.ov paceCfgId) 16 16 * 1000) = true →
      ∃ t, exec .paceProbeStart s = .next t ∧ t.kettle.probe = some s.clk ∧
        (∀ d, d < 4 → (t.die d).matched = none ∧ (t.die d).point = (s.die d).point) ∧ Frame [.kettle] s t) ∧
    (∀ b, s.kettle.probe = some b → b + 100000 ≤ s.clk →
      ∃ t, exec .paceProbeEnd s = .next t ∧ t.kettle.probe = none ∧ t.kettle.pm = s.kettle.probeMin ∧
        (s.kettle.probeMin = none → ∀ d, d < 4 → (t.die d).matched = none) ∧ Frame [.kettle] s t)

/-- Estimates, gains and learned energies, each of which answers a next state whatever it is given: with the main rails on
POWER_ESTIMATE puts the corrected estimate of each die and of the shared part, made from the microsecond's activity, in front
of its history and leaves the points alone; CALIBRATION moves k, and each rail's gain, one eighth of the way toward measured
over estimated within 0.80 to 1.25 and begins a new millisecond; PHASE_ENERGY_UPDATE begins a new millisecond and leaves alone
a tag that did not compute; with the rails off all three change nothing, which is the model's reading (15 R359, R360, R367;
log 17). -/
def Obligations.EstimatesAndGains : Prop :=
  ∀ s : State,
    (∀ a, ∃ t, exec (.powerEstimate a) s = .next t ∧
      (s.power.rails = false → t = s) ∧
      (s.wf = true → s.power.rails = true →
        let raw := s.shares (allDies.map (fun u => dynPower 0 (actOf a u))) a.shared
        (∀ d, d < 4 → (t.die d).hist = (s.corrected raw d :: (s.die d).hist).take 1000 ∧
          (t.die d).point = (s.die d).point) ∧
        t.kettle.shared = (s.corrected raw 4 :: s.kettle.shared).take 1000 ∧
        t.kettle.raw = raw :: s.kettle.raw ∧
        Frame [.kettle, .cores, .router, .host, .out] s t)) ∧
    (∀ m rails, ∃ t, exec (.calibration m rails) s = .next t ∧
      (s.power.rails = false → t = s) ∧
      (s.power.rails = true → t.kettle.measured = m ∧ t.kettle.raw = [] ∧
        4 / 5 ≤ t.kettle.gain ∧ t.kettle.gain ≤ 5 / 4 ∧
        (s.kettle.railGain = [] → ∀ u, u < 11 → 4 / 5 ≤ t.railGain u ∧ t.railGain u ≤ 5 / 4) ∧
        (∀ e : Rat, e ≠ 0 → s.kettle.raw = [[e]] → 4 / 5 ≤ s.kettle.gain → s.kettle.gain ≤ 5 / 4 →
          4 / 5 ≤ (m : Rat) / e → (m : Rat) / e ≤ 5 / 4 →
          t.kettle.gain = s.kettle.gain + ((m : Rat) / e - s.kettle.gain) / 8) ∧
        Frame [.kettle, .router, .host, .out] s t)) ∧
    (∃ t, exec .phaseEnergyUpdate s = .next t ∧
      (s.power.rails = false → t = s) ∧
      (s.wf = true → s.power.rails = true →
        (∀ d, d < 4 → (t.die d).dyn = [] ∧ (t.die d).cycles = []) ∧
        ((∀ d, d < 4 → (s.die d).cycles = []) → t.kettle.energy = s.kettle.energy ∧ t.kettle.cost = s.kettle.cost) ∧
        Frame [.kettle] s t))

/-- After a CONTROL_TICK, at a fabric time that the hub reads as a multiple of 10 µs, the loop holds to PWR_CAP, and each die
not braked goes to the least of its limits, LIMIT naming the one that decides: its clock falls at once and its voltage rises at
once, and the point follows when the change is done (01 R22, 15 R361, R362, R364, R365, R381). -/
def Obligations.ControlTickTakesTheLeastLimit : Prop :=
  ∀ s : State, s.wf = true → s.power.rails = true → s.onTick 10000 = true →
    ∃ t, exec .controlTick s = .next t ∧ t.kettle.cap = s.ov pwrCapId ∧
      (∀ d, d < 4 → (t.die d).point = (s.die d).point ∧
        (s.kettle.brake = false →
          let p := leastOf 15 (t.limits d)
          (t.die d).clock = min (s.die d).clock p ∧ (t.die d).mv = max (s.die d).mv (t.planMv d p) ∧
            (t.die d).target =
              (if p = (t.die d).point ∧ (t.die d).clock = p ∧ (t.die d).mv = t.planMv d p then none else some p) ∧
            (p < 15 → (t.limits d).getD (t.die d).limit 16 = p))) ∧
      Frame [.kettle, .cores, .ageing] s t

/-- The last-line conditions stop the module while its main rails are on: COOLANT_OK low (cause 1), a stack at or above
95 °C in one sample (cause 3, UNIT its number), a junction sensor at or above 115 °C twice running (cause 2): MAIN_STATE reads
STOPPED, no tile is accepted, FAULT# asserts, and the record holds the cause and FT_NOW as the hub reads it (15 R379, R380,
01 R22). Below those temperatures STACK_TEMP and TEMP_MAX take the sample, and a stack's throttle level rises with it to the row
of R309 (12 R308, R309, 15 R377). -/
def Obligations.LastLineConditionsStop : Prop :=
  ∀ s : State, s.wf = true → s.power.rails = true →
    (∃ t r, exec .coolantOkLow s = .next t ∧ t.pins.coolantOk = false ∧ t.power.main = .stopped ∧
      t.power.rails = false ∧ t.power.halted = true ∧ t.out.faultPin = true ∧ t.power.stop = some r ∧ r.cause = 1 ∧
      r.time = s.ftRead hubPs) ∧
    (∀ k x, k < 4 → 380 ≤ x →
      ∃ t, exec (.stackTempSample k x) s = .next t ∧ t.power.main = .stopped ∧ t.power.rails = false ∧
        t.power.halted = true ∧ t.out.faultPin = true ∧ t.power.stop = some ⟨3, k, ofInt 16 x, s.ftRead hubPs⟩) ∧
    (∀ k x, k < 4 → x < 380 →
      ∃ t, exec (.stackTempSample k x) s = .next t ∧ t.ov (stackTempId + k) = ofInt 16 x ∧
        t.power.hotStacks.contains k = false ∧ t.power.main = s.power.main ∧
        (4 * (s.ov (stackThrottleId + k) : Nat) + 12 < x → tget 0 s.mem.level k ≤ 2 →
          tget 0 t.mem.level k = 2) ∧
        (4 * (s.ov (stackThrottleId + k) : Nat) ≤ x → x ≤ 4 * (s.ov (stackThrottleId + k) : Nat) + 12 →
          tget 0 s.mem.level k ≤ 1 → tget 0 t.mem.level k = 1) ∧
        Frame [.power, .mem, .obj] s t) ∧
    (∀ (temps : List Int) (i : Nat) (x : Int), i < 208 → temps[i]? = some x → 460 ≤ x →
      s.power.hotSensors.contains i = true →
      ∃ t r, exec (.thermalSample temps) s = .next t ∧ t.power.main = .stopped ∧ t.power.rails = false ∧
        t.power.halted = true ∧ t.out.faultPin = true ∧ t.power.stop = some r ∧ r.cause = 2 ∧ r.time = s.ftRead hubPs) ∧
    (∀ temps : List Int, (∀ x ∈ temps, x < 460) →
      ∃ t, exec (.thermalSample temps) s = .next t ∧ t.power.hotSensors = [] ∧ t.power.main = s.power.main ∧
        (∀ u x xs, u < 5 → unitTemps temps u = x :: xs → t.ov (tempMaxId + u) = ofInt 16 (maxOf x xs)) ∧
        Frame [.power, .kettle, .cores, .obj] s t)

/-- The GDDR7 and the scrub: a temperature read halves the refresh interval above 85 °C; a realignment changes nothing; a
device lost takes the GDDR7 OFFLINE, raises GDDR_OFFLINE and is an uncovered fault; training ends ONLINE at its rate, or
OFFLINE with the service flag; MEMORY_ZEROED clears every byte and poison mark; a scrub read counts a corrected error, changes
no byte and neither creates nor clears poison (12 R289, R296, R298 to R300, R302). -/
def Obligations.GddrAndScrub : Prop :=
  ∀ s : State, s.wf = true →
    (∀ x xs, ∃ t, exec (.gddrTempRead (x :: xs)) s = .next t ∧ t.ov gddrTempId = ofInt 16 (maxOf x xs) ∧
      t.mem = { s.mem with gddrHot := decide (340 < maxOf x xs) } ∧ Frame [.mem, .obj] s t) ∧
    exec .gddr7Realign s = .next s ∧
    (s.mem.gddr = .online →
      ∃ t, exec .gddr7DeviceLost s = .next t ∧ t.mem = { s.mem with gddr := .offline } ∧ bit t.flash.service 7 = true ∧
        bit (t.ov faultStatusId) 1 = true ∧ t.flash.total = min (s.flash.total + 1) (2 ^ 32 - 1)) ∧
    (∀ r, s.power.rails = true → s.mem.gddr = .training →
      ∃ t, exec (.gddr7TrainingDone (some r) .passed) s = .next t ∧
        t = { s with mem := { s.mem with gddr := .online, gddrRate := min r 2 } }) ∧
    (s.power.rails = true → s.mem.gddr = .training →
      ∃ t, exec (.gddr7TrainingDone none .passed) s = .next t ∧ t.mem = { s.mem with gddr := .offline, gddrRate := 0 } ∧
        bit t.flash.service 7 = true) ∧
    (s.power.main = .sequencing → s.power.seqRow = 4 → s.mem.gddr ≠ .training →
      ∃ t, exec (.memoryZeroed .passed) s = .next t ∧ (∀ a, t.memByte a = 0) ∧ (∀ a, t.poisoned a = false) ∧
        t.power = { s.power with seqRow := 5 } ∧ Frame [.power, .mem] s t) ∧
    (∀ a, exec (.scrubRead a .clean) s = .next s ∧ (∀ k, exec (.scrubRead a (.uncorrectable k)) s = .next s) ∧
      (∀ m, s.power.rails = true → s.memOf (a / 64 * 64) = some m →
        ∃ t, exec (.scrubRead a .corrected) s = .next t ∧
          t.ov (memCeCountId + m) = min (s.ov (memCeCountId + m) + 1) (2 ^ 32 - 1) ∧ Frame [.obj] s t))

/-- The journal and a loss of power: JOURNAL_WRITE_DONE commits the write in progress, a new version of its record in the slot
that did not hold the current one with the next SEQ, and the next write begins by erasing its slot; POWER_LOSS of the 50 V
input takes the main domain off, asserts FAULT# and puts POWER_LOSS_LOG right behind the write in progress, dropping every
fault record that waits; HOLD_UP_EXHAUSTED without standby power loses what was not written and releases both outputs, and the
log is then what its record holds (16 R392 to R396, 21 R486). -/
def Obligations.JournalAndPowerLoss : Prop :=
  ∀ s : State, s.wf = true →
    (∀ r rs, s.flash.queue = r :: rs → s.power.losing = 0 → s.caddy.deferred = [] →
      ∃ t, exec .journalWriteDone s = .next t ∧ Frame [.flash, .free] s t ∧ t.flash.queue = rs ∧
        (let bytes := (Config.recordBody s.free).take 65536
         let seq := match current (s.slots r.key) with
           | some x => (x.seq + 1) % 2 ^ 32
           | none => 0
         let u := tset (.erased, .erased) s.flash.recs r.key
           (withOther (s.slots r.key) ⟨jHeader r.id seq 0 bytes, bytes, t.jbody r⟩)
         (rs = [] → t.flash.recs = u) ∧
         (∀ q qs, rs = q :: qs → t.flash.recs =
           tset (.erased, .erased) u q.key (withOther (tget (.erased, .erased) u q.key) .erased))) ∧
        (∀ b, r = .fault b → t.flash.log = (b :: s.flash.log).take 256) ∧
        (∀ c, r = .stopCause c → t.flash.stopCause = c) ∧
        (∀ k u b, r = .spare k u b → t.flash.spares = s.flash.spares ++ [(k, u, b)])) ∧
    (s.power.rails = true → s.power.losing = 0 → s.power.standby = true → s.power.main ≠ .stopped →
      ∃ t n rest, exec (.powerLoss .p50v) s = .next t ∧ t.power.main = .off ∧ t.power.rails = false ∧
        t.power.halted = true ∧ t.power.losing = 1 ∧ t.power.lossTime = s.ftRead mgmtPs ∧ t.pins.p50v = false ∧
        t.out.faultPin = true ∧ t.flash.queue = s.flash.queue.take 1 ++ [.powerLog n] ++ rest ∧
        (∀ r ∈ rest, r.isFault = false) ∧ (s.flash.queue = [] → n = 0xFFFF) ∧
        (∀ r rs, s.flash.queue = r :: rs → n = r.id) ∧ (∀ a, t.memByte a = 0)) ∧
    (s.pins.p5v = false →
      ∃ t, exec .holdUpExhausted s = .next t ∧ t.flash.queue = [] ∧ t.flash.recs = s.flash.recs ∧
        (∀ q x l n, q ∈ s.flash.recs → current q.2 = some x → x.body = .log l n →
          (∀ p ∈ s.flash.recs, ∀ y, current p.2 = some y → (∃ m k, y.body = .log m k) → p = q) →
          t.flash.log = l ∧ t.flash.total = n) ∧
        t.out.faultPin = false ∧ t.out.alertPin = false ∧ t.power.main = .off ∧
        t.caddy.ready = false ∧ t.pins.p5v = false)

/-- Failures of cores, rails and management cores: a failed core without stateful work is fenced, its tiles go back to their
lists and its takeover begins or waits, a covered fault; the watchdog does for a core with accepted tiles what
CORE_FAILURE_DETECT does; SPARE_CORE_READY puts the number on the lowest healthy spare; a phase lost within a rail's spares is
a covered fault with its service flag, one beyond them raises VR_DERATED; M1 takes over from M0; M1's failure as the acting
core is an uncovered fault that lasts (01 R14, R25, R26, 05 R125, R126, 16 R385 to R387). -/
def Obligations.FailuresOfPartsWithSpares : Prop :=
  ∀ s : State, s.wf = true →
    (∀ n, n < 256 → s.power.rails = true → (s.core n).fenced = false → s.sched.offline.contains n = false →
      s.spares (n / 64) ≠ [] → s.stateful n = false →
      ∃ t, exec (.coreFailureDetect n) s = .next t ∧ (t.core n).fenced = true ∧ (t.core n).tiles = [] ∧
        t.sched.takeovers = s.sched.takeovers ++ [n] ∧ (∀ m, m ≠ n → t.core m = s.core m) ∧
        (∀ x ∈ (s.core n).tiles, ∃ e ∈ t.dieList x.die, e.desc = x.desc ∧ e.ctx = x.ctx ∧ e.seq = x.seq ∧
          e.taken = true ∧ e.reissued = true) ∧
        bit (t.ov faultStatusId) 0 = true ∧
        Frame [.cores, .sched, .fab, .router, .host, .steps, .red, .obj, .flash, .out, .free] s t) ∧
    (∀ n, n < 256 → s.power.rails = true → (s.core n).fenced = false → s.sched.offline.contains n = false →
      (s.core n).tiles ≠ [] → (s.core n).idleQ = false → (s.core n).switchTo = none →
      ∃ t, exec (.watchdogExpiry n) s = .next t ∧ exec (.coreFailureDetect n) s = .next t ∧
        (t.core n).fenced = true ∧ (t.core n).tiles = []) ∧
    (∀ d n p ps, d < 4 → s.sched.takeovers = [n] → n / 64 = d → s.spares d = p :: ps → p ≠ n % 64 →
      ∃ t, exec (.spareCoreReady d) s = .next t ∧ t.posOf n = p ∧ (t.core n).fenced = false ∧
        t.sched.takeovers = [] ∧ t.sched.offline = s.sched.offline) ∧
    (∀ r : Rail, r.wf = true → let n := tget 0 s.power.phases (Rail.index r)
      (n < sparePhases (Rail.index r) →
        ∃ t, exec (.railPhaseLoss r) s = .next t ∧ tget 0 t.power.phases (Rail.index r) = n + 1 ∧
          bit t.flash.service 5 = true ∧ bit (t.ov faultStatusId) 0 = true ∧
          Frame [.power, .router, .host, .obj, .flash, .out, .free] s t) ∧
      (sparePhases (Rail.index r) ≤ n →
        ∃ t, exec (.railPhaseLoss r) s = .next t ∧ tget 0 t.power.phases (Rail.index r) = n + 1 ∧
          bit t.flash.service 4 = true ∧ Frame [.power, .router, .host, .flash, .out] s t)) ∧
    (s.caddy.m0 = true → s.caddy.m1 = true → s.caddy.m1Active = false →
      ∃ t, exec .mgmtTakeover s = .next t ∧ t.caddy = { s.caddy with m0 := false, m1Active := true } ∧
        bit t.flash.service 6 = true ∧ bit (t.ov faultStatusId) 0 = true) ∧
    (s.caddy.m1 = true → s.caddy.m1Active = true →
      ∃ t, exec .m1Failure s = .next t ∧ t.caddy = { s.caddy with m1 := false } ∧ t.flash.code17 = true ∧
        bit (t.ov faultStatusId) 1 = true)

/-- Power-on and the sequences: POWER_ON keeps the journal, restores what its records hold and begins with the caddy not
ready; BOOT_VERIFY_DONE boots a valid active slot; CADDY_READY makes the caddy ready; the main sequence begins where its
conditions hold, RAILS_UP starts fabric time at 0 and the kettle with PWR_CAP, CORE_SELF_TEST_DONE records the number of
failures and moves a failed core to its spare, MAIN_READY reads READY with READY_MS; a stage that fails stops the sequence
with MAIN_STATE FAILED at its row, FAULT# asserted, the rails that came on still on, and the service flag that the command
names (16 R394, 17 R426, 19 R463, R465 to R467). -/
def Obligations.BringUpReachesReady : Prop :=
  ∀ s : State, s.wf = true →
    (∃ t, exec .powerOn s = .next t ∧ t.power.main = .off ∧ t.power.rails = false ∧ t.caddy.ready = false ∧
      t.caddy.booted = false ∧ t.caddy.sessions = [] ∧ t.caddy.owner = none ∧ t.flash.recs = s.flash.recs ∧
      (∀ q x l n, q ∈ s.flash.recs → current q.2 = some x → x.body = .log l n →
        (∀ p ∈ s.flash.recs, ∀ y, current p.2 = some y → (∃ m k, y.body = .log m k) → p = q) →
        t.flash.log = l ∧ t.flash.total = n) ∧
      (∀ q x f a, q ∈ s.flash.recs → current q.2 = some x → x.body = .service f a →
        (∀ p ∈ s.flash.recs, ∀ y, current p.2 = some y → (∃ g b, y.body = .service g b) → p = q) →
        t.flash.service = f ∧ t.flash.ack = a) ∧ (∀ c, (t.stp c).st = .idle) ∧
      (∀ l, (t.link l).st = .down) ∧ t.pending = s.pending) ∧
    (s.caddy.booted = false → s.pins.p5v = true → s.caddy.slotValid s.caddy.activeB = true →
      ∃ t, exec .bootVerifyDone s = .next t ∧ t = { s with caddy := { s.caddy with
        booted := true, runB := s.caddy.activeB, fallback := false, recovery := false, fwPending := false } }) ∧
    (s.caddy.booted = true → s.pins.p5v = true → s.caddy.ready = false →
      ∃ t, exec .caddyReady s = .next t ∧ t.caddy.ready = true ∧ t.caddy.port = s.ov mgmtPortId ∧
        t.caddy.plcaId = s.pins.slotId + 1 ∧
        Frame [.router, .caddy, .host, .out] s t) ∧
    (s.caddy.ready = true → s.caddy.recovery = false → s.power.main = .off → s.power.losing = 0 →
      s.pins.p5v = true → s.power.hotSensors = [] → s.power.hotStacks = [] → s.pins.refclk = true →
      ∃ t, exec .mainSequenceStart s = .next t ∧ t.power.main = .sequencing ∧ t.power.seqRow = 1 ∧
        t.power.seqStart = s.clk ∧ t.out.faultPin = false ∧ Frame [.pins, .power, .out] s t) ∧
    (s.power.main = .sequencing → s.power.seqRow = 1 → s.pins.brake = false → (∀ d ∈ s.caddy.deferred, d.alloc = none) →
      ∃ t, exec (.railsUp .passed) s = .next t ∧ t.power = { s.power with rails := true, seqRow := 2 } ∧ t.ft.now = 0 ∧
        t.ft.running = true ∧ t.kettle.cap = s.ov pwrCapId ∧ (∀ d, d < 4 → (t.die d).point = 0) ∧
        Frame [.ft, .pins, .power, .kettle, .cores, .ageing] s t) ∧
    (s.power.main = .sequencing → s.power.seqRow = 2 →
      ∃ t, exec (.coreSelfTestDone [] .passed) s = .next t ∧
        t = { s with power := { s.power with coreFails := 0, selfTest := false, seqRow := 4 } }) ∧
    (∀ n p ps, n < 256 → s.power.main = .sequencing → s.power.seqRow = 2 → s.sched.offline = [] →
      (∀ m, m < 256 → m ≠ n → posKey (m / 64) (s.posOf m) ≠ posKey (n / 64) (s.posOf n)) →
      s.spares (n / 64) = p :: ps → p ≠ n % 64 →
      ∃ t, exec (.coreSelfTestDone [posKey (n / 64) (s.posOf n)] .passed) s = .next t ∧ t.power.coreFails = 1 ∧
        t.posOf n = p) ∧
    (s.power.main = .sequencing → s.power.seqRow = 5 →
      ∃ t, exec (.mainReady .passed) s = .next t ∧ t = { s with power := { s.power with
        main := .ready, seqRow := 7, readyMs := (s.clk - s.power.seqStart) / 1000000, halted := false } }) ∧
    (∀ row b, b < 13 → s.power.main = .sequencing → ∀ flag ∈ [none, some b],
      let e := StageEnd.failed row flag
      ∀ p ∈ [(Instr.railsUp e, 1, 2, 2), (.coreSelfTestDone [] e, 2, 3, 4), (.memoryZeroed e, 4, 5, 5),
        (.mainReady e, 5, 6, 7)],
        s.power.seqRow = p.2.1 → (p.2.1 = 4 → s.mem.gddr ≠ .training) → p.2.2.1 ≤ row → row ≤ p.2.2.2 →
        ∃ t, exec p.1 s = .next t ∧ t.power.main = .failed ∧ t.power.failedStep = row ∧
          t.power.rails = (if p.2.1 = 1 then true else s.power.rails) ∧
          t.out.faultPin = true ∧ (flag = some b → bit t.flash.service b = true) ∧
          Frame [.power, .router, .host, .flash, .out] s t)

/-- Ageing monitors: a ring-oscillator reading joins its pair's samples; a critical-path reading sets the highest V_min at the
point held; laser bias ratios join their source's hour; a retention test stores its margin and channel, one that falls
below 4 with its service flag; a powered hour with 50 V present counts and is journalled (16 R394, R397, R398, R402 to R404). -/
def Obligations.AgeingMonitors : Prop :=
  ∀ s : State, s.wf = true →
    (∀ u c, u < 5 → s.power.rails = true → (s.age u).samples = [] →
      ∃ t, exec (.ringOscSample u [c]) s = .next t ∧
        t.age u = { s.age u with samples := [(Config.oscShift u 0 c % 2 ^ 16, 1)] } ∧
        (∀ v, v ≠ u → t.age v = s.age v) ∧ Frame [.ageing] s t) ∧
    (∀ u v vs, u < 4 → vs.length < 16 → s.power.rails = true →
      ∃ t, exec (.criticalPathSample u (v :: vs)) s = .next t ∧
        tget? (t.age u).vmin (s.die u).point = some (vs.foldl max v, (s.age u).dvMax) ∧
        (t.age u).fresh.contains (s.die u).point = true ∧ (∀ w, w ≠ u → t.age w = s.age w) ∧ Frame [.ageing] s t) ∧
    (∀ l r, l < 6 → s.power.rails = true →
      ∃ t, exec (.laserBiasSample l [r]) s = .next t ∧
        tget (0, 0) t.ageing.biasSum (l * 5) = ((tget (0, 0) s.ageing.biasSum (l * 5)).1 + r,
          (tget (0, 0) s.ageing.biasSum (l * 5)).2 + 1) ∧ Frame [.ageing] s t) ∧
    (∀ k c m, k < 4 → c < 64 → s.power.rails = true → s.freeSpare k ≠ none →
      ∃ t, exec (.retentionTest k c m) s = .next t ∧ tget 8 t.ageing.retention k = min m 8 + c * 2 ^ 8 ∧
        (m < 4 → 4 ≤ bits (tget 8 s.ageing.retention k) 0 4 → bit t.flash.service 12 = true) ∧
          Frame [.router, .host, .flash, .ageing, .out] s t) ∧
    (s.pins.p50v = true → (s.ageing.hours + 1) % 1000 ≠ 0 → s.ageing.hours < 2 ^ 32 - 1 →
      (∀ k, tget (0, 0) s.ageing.biasSum k = (0, 0)) → (∀ u, (s.age u).samples = []) →
      ∃ t, exec .poweredHourTick s = .next t ∧ t.ageing.hours = s.ageing.hours + 1 ∧
        (∀ u, t.age u = s.age u) ∧ t.flash.queue = s.flash.queue ++ [.ageing] ∧ t.flash.service = s.flash.service ∧
        Frame [.router, .host, .flash, .ageing, .out, .free] s t)

/-- Telemetry and clock inputs: a sample, at a fabric time that the hub reads as a multiple of 10 µs, makes every count so far
what a READ returns, with the idle and tag cycles that the command reports added, or sets every count to 0 where an IDLE_CLEAR
waits; REFCLK lost takes PCIe down and changes nothing but the host interface; FT_REF lost is noted; OREF lost takes every
link DOWN; no PLCA beacon means CSMA/CD; PCIe trains no further than PCIE_MAX_GEN, at a rate and width of R453, and takes the
VFs, the MSI-X entries and the BAR2 size that the host then sets (log 38); a HOST reset clears the reader directory and the
MSI-X tables, and the queue pointers and interrupts of every page, and takes PCIe down unless it is a Function Level Reset,
which the command does not tell (07 R152, R176, 17 R407, 19 R453, R463, 20 R468, R469, 21 R488). The cycles that a core's
engines alone know of, the command carries (the model's form, log 36). -/
def Obligations.TelemetryAndClockInputs : Prop :=
  ∀ s : State, s.wf = true →
    (∀ idle phases, (∀ g ∈ idle, g.core < 256) → phases.length ≤ 16 → s.tele.clear = true →
      s.power.rails = true → s.onTick 10000 = true →
      ∃ t, exec (.telemetrySample idle phases) s = .next t ∧
        t = { s with tele := { s.tele with idleNow := [], phaseNow := [], idle := [], phase := [], clear := false } }) ∧
    (∀ g phases, g.core < 256 → phases.length ≤ 16 → s.tele.clear = false → s.power.main = .ready →
      s.power.rails = true → s.onTick 10000 = true → s.sched.offline.contains g.core = false →
      ∃ t, exec (.telemetrySample [g] phases) s = .next t ∧
        (0 < g.cycles → tget 0 t.tele.idle (s.groupCause g) =
          min (tget 0 s.tele.idleNow (s.groupCause g) + g.cycles) (2 ^ 64 - 1)) ∧
        (∀ c, c ≠ s.groupCause g → tget 0 t.tele.idle c = tget 0 s.tele.idleNow c) ∧
        (∀ p n, phases[p]? = some n → 0 < n → tget 0 t.tele.phase p = min (tget 0 s.tele.phaseNow p + n) (2 ^ 64 - 1)) ∧
        (∀ p, phases.length ≤ p → tget 0 t.tele.phase p = tget 0 s.tele.phaseNow p) ∧ t.tele.clear = false ∧
        Frame [.tele] s t) ∧
    (∃ t, exec .refclkLoss s = .next t ∧ t.pins = { s.pins with refclk := false } ∧ t.host.up = false ∧
      t.fab.dir = [] ∧ Frame [.pins, .fab, .host] s t) ∧
    (∃ t, exec .ftRefLoss s = .next t ∧ t = { s with ft := { s.ft with refOk := false } }) ∧
    (∃ t, exec .orefLoss s = .next t ∧ t.pins = { s.pins with oref := false } ∧
      (∀ l, l < 6 → (t.link l).st = .down) ∧ Frame [.pins, .links, .router, .steps, .obj, .flash] s t) ∧
    (∃ t, exec .plcaBeaconTimeout s = .next t ∧ t = { s with caddy := { s.caddy with csma := true } }) ∧
    (∀ g w h, PcieLink.wf h = true → pcieRateOk (min g (s.ov pcieMaxGenId)) w h.flit = true → s.power.rails = true →
      s.pins.refclk = true →
      ∃ t, exec (.pcieLinkTrainingDone g w h) s = .next t ∧
        t = { s with host := { s.host with
          up := true, gen := min g (s.ov pcieMaxGenId), width := w, flit := h.flit, vfOn := h.vfs,
          msix := h.msix.foldl (fun m e => tset 0 m (e.fn * 4096 + e.vector) e.entry) s.host.msix,
          bar2Log2 := h.bar2.getD s.host.bar2Log2 } }) ∧
    (∃ t, exec .hostReset s = .next t ∧ t.host.up = (s.host.up && Config.pfReset s.free) ∧ t.host.err = 0 ∧
      t.fab.dir = [] ∧ t.host.msix = [] ∧
      (∀ c, c < 16 → (t.page c).sqTail = 0 ∧ (t.page c).sqHead = 0 ∧ (t.page c).cplHead = 0 ∧ (t.page c).cplTail = 0 ∧
        (t.page c).intStatus = 0 ∧ (t.page c).intMask = 0) ∧ Frame [.fab, .host, .free] s t)

/-- Sessions: HELLO opens one and tells its number and challenge, CLOSE ends it, ten silent seconds end it, an AUTH_LOCKED
class is free again when its time is over, and a message whose segments have not all come within 100 ms is dropped (17 R406,
R410, R411, R418). -/
def Obligations.SessionsOpenAndEnd : Prop :=
  ∀ s : State, s.wf = true →
    (∀ r, s.Reaches r .hello →
      (∀ o x, s.caddy.owner = some o → tget? s.caddy.sessions r.cls = some x → o.cls = r.cls → o.session ≠ x.num) →
      ∃ t x, exec (.hello r) s = .next t ∧ tget? t.caddy.sessions r.cls = some x ∧ x.transport = r.transport ∧
        x.cache = [] ∧ x.lastMsg = s.clk ∧
        t.out.mgmt.getLast? = some (replyTo r 1 x.num r.epoch 0 (toLE 8 x.challenge ++ toLE 2 s.me ++
          toLE 1 (match s.caddy.owner with | some o => o.cls | none => 15))) ∧
        (∀ c, c ≠ r.cls → tget? t.caddy.sessions c = tget? s.caddy.sessions c) ∧ t.caddy.owner = s.caddy.owner ∧
        Frame [.router, .caddy, .host, .out, .free] s t) ∧
    (∀ r x, s.Hears r .close x →
      ∃ t, exec (.close r) s = .next t ∧ tget? t.caddy.sessions r.cls = none ∧
        (∀ c, c ≠ r.cls → tget? t.caddy.sessions c = tget? s.caddy.sessions c) ∧ t.Answers r .close 0 [] ∧
        Frame [.router, .caddy, .host, .out] s t) ∧
    (∀ c x, c < 4 → tget? s.caddy.sessions c = some x → x.lastMsg + 10000000000 ≤ s.clk →
      ∃ t, exec (.sessionLapse c) s = .next t ∧ tget? t.caddy.sessions c = none ∧
        (∀ d, d ≠ c → tget? t.caddy.sessions d = tget? s.caddy.sessions d) ∧ t.caddy.owner = s.caddy.owner ∧
        Frame [.caddy] s t) ∧
    (∀ c, c < 4 →
      ∃ t, exec (.authLockExpiry c) s = .next t ∧
        (∀ l, l ∈ t.caddy.authLocks ↔ l ∈ s.caddy.authLocks ∧ ¬(l.1 = c ∧ l.2 ≤ s.clk)) ∧ Frame [.caddy] s t) ∧
    (∀ c i,
      ∃ t, exec (.mgmtMessageDiscard c i) s = .next t ∧
        (∀ p, p ∈ t.caddy.partials ↔ p ∈ s.caddy.partials ∧ ¬(p.cls = c ∧ p.xid = i ∧ p.firstAt + 100000000 ≤ s.clk)) ∧
        Frame [.caddy] s t)

/-- A request repeated with an XID still cached is answered with the cached reply and does nothing else (17 R412). -/
def Obligations.RepeatedRequestsDoNothing : Prop :=
  ∀ (s : State) (r : Req) (m : MOp) (x : Session) (q : MgmtMsg), s.wf = true → s.Reaches r m → m ≠ .hello →
    s.sessionOf r.cls r.session = some x → x.cache.find? (fun c => c.1 == r.xid) = some (r.xid, q) →
    let t := s.request r m
    t.out.mgmt = s.out.mgmt ++ [{ q with transport := r.transport }] ∧
      t.caddy = { s.caddy with sessions := tins s.caddy.sessions r.cls { x with lastMsg := s.clk } } ∧
      Frame [.router, .caddy, .host, .out] s t

/-- Ownership: CLAIM of an unowned module is granted with the next EPOCH and discards every staged set, a wrong TAG is
AUTH_FAIL, an owner of no lower priority keeps the module; RENEW sets the lease to 500 ms, RELEASE and the lease's end leave
no owner, HANDOVER waits 500 ms for its master and lapses after (17 R417 to R420). -/
def Obligations.OwnershipChangesHands : Prop :=
  ∀ s : State, s.wf = true →
    (∀ r p pre tag x, s.Hears r (.claim p pre tag) x → s.locked r.cls = false →
      (s.tagOk r x.challenge p pre tag = true → s.caddy.owner = none →
        ∃ t y, exec (.claim r p pre tag) s = .next t ∧ t.caddy.epoch = (s.caddy.epoch + 1) % 2 ^ 32 ∧
          t.caddy.owner = some ⟨r.cls, r.session, p, s.clk + 500000000⟩ ∧ t.sessionOf r.cls r.session = some y ∧
          t.out.mgmt.getLast? = some (replyTo r 2 r.session t.caddy.epoch 0 (toLE 8 y.challenge)) ∧
          (∀ a, a < 16 → (t.area a).pending = false) ∧ (∀ id, id < 0x100000 → tget? t.obj.staged id = none) ∧
          (∀ id, t.ov id = s.ov id) ∧ Frame [.router, .caddy, .host, .obj, .out, .free] s t) ∧
      (s.tagOk r x.challenge p pre tag = true →
        ∀ o, s.caddy.owner = some o → ¬(o.cls = r.cls ∧ o.session = r.session) → s.caddy.handover = none →
        ¬(pre = true ∧ o.priority < p) →
        ∃ t y, exec (.claim r p pre tag) s = .next t ∧ t.caddy.owner = some o ∧ t.caddy.epoch = s.caddy.epoch ∧
          t.sessionOf r.cls r.session = some y ∧
          t.out.mgmt.getLast? = some (replyTo r 2 r.session r.epoch 2 (toLE 8 y.challenge)) ∧
          Frame [.router, .caddy, .host, .out, .free] s t) ∧
      (s.tagOk r x.challenge p pre tag = false →
        ∃ t y, exec (.claim r p pre tag) s = .next t ∧ t.caddy.owner = s.caddy.owner ∧ t.caddy.epoch = s.caddy.epoch ∧
          t.sessionOf r.cls r.session = some y ∧
          t.out.mgmt.getLast? = some (replyTo r 2 r.session r.epoch 3 (toLE 8 y.challenge)) ∧
          Frame [.router, .caddy, .host, .out, .free] s t)) ∧
    (∀ r x o, s.Obeys r .renew x → s.caddy.owner = some o →
      ∃ t, exec (.renew r) s = .next t ∧ t.caddy.owner = some { o with leaseEnd := s.clk + 500000000 } ∧
        t.Answers r .renew 0 [] ∧ Frame [.router, .caddy, .host, .out] s t) ∧
    (∀ r x, s.Obeys r .release x →
      ∃ t, exec (.release r) s = .next t ∧ t.caddy.owner = none ∧ t.caddy.handover = none ∧
        t.caddy.epoch = s.caddy.epoch ∧ (∀ a, a < 16 → (t.area a).pending = false) ∧ t.Answers r .release 0 [] ∧
        Frame [.router, .caddy, .host, .obj, .out] s t) ∧
    (∀ r x c y, s.Obeys r (.handover c) x → tget? s.caddy.sessions c = some y → (∀ a, a < 16 → (s.area a).pending = false) →
      ∃ t, exec (.handover r c) s = .next t ∧ t.caddy.handover = some (c, s.clk + 500000000) ∧
        t.Answers r (.handover c) 0 [] ∧ Frame [.router, .caddy, .host, .out] s t) ∧
    (∀ o, s.caddy.owner = some o → o.leaseEnd ≤ s.clk → s.caddy.deferred = [] →
      ∃ t, exec .leaseExpiry s = .next t ∧ t.caddy = { s.caddy with owner := none, handover := none } ∧
        (∀ a, a < 16 → (t.area a).pending = false) ∧ (∀ id, t.ov id = s.ov id) ∧
        Frame [.router, .caddy, .host, .obj, .out] s t) ∧
    (∀ h, s.caddy.handover = some h → h.2 ≤ s.clk →
      ∃ t, exec .handoverLapse s = .next t ∧ t.caddy = { s.caddy with handover := none } ∧
        Frame [.router, .caddy, .host, .out] s t)

/-- READ answers an object's value, or its staged value, or a table's entries; a WRITE of a staged object changes only its
staged value and marks its area pending; DESCRIBE answers the catalogue's row; POST puts descriptors into a die's list; an ID
without an object is NO_OBJECT (17 R411, R415, R416, 05 R109). -/
def Obligations.ObjectsAreReadWrittenAndDescribed : Prop :=
  ∀ (s : State) (r : Req) (x : Session), s.wf = true →
    (∀ id sub fl row, s.Hears r (.read id sub fl) x → objRow id = some row → row.access ≠ 2 → row.access ≠ 3 → fl ≤ 1 →
      ∃ t, exec (.read r id sub fl) s = .next t ∧
        t.Answers r (.read id sub fl) 0 (match (s.taking r x).tableRead id sub (bit fl 0) with
          | some b => b
          | none => toLE row.width
              (if bit fl 0 = true ∧ row.staged = true then (s.taking r x).sv id else (s.taking r x).value id)) ∧
        Frame [.router, .caddy, .host, .out] s t) ∧
    (∀ sub fl, s.Hears r (.read exchErrLogId sub fl) x → fl ≤ 1 →
      ∃ t, exec (.read r exchErrLogId sub fl) s = .next t ∧
        t.Answers r (.read exchErrLogId sub fl) 0 (toLE 12 s.txe.errLog) ∧
        t.txe = (if s.fromOwner r then { s.txe with errLog := 0 } else s.txe) ∧
        Frame [.txe, .router, .caddy, .host, .out] s t) ∧
    (∀ id sub fl, s.Hears r (.read id sub fl) x → objRow id = none →
      ∃ t, exec (.read r id sub fl) s = .next t ∧ t.Answers r (.read id sub fl) 0x0D [] ∧
        Frame [.router, .caddy, .host, .out] s t) ∧
    (∀ id val row, s.Obeys r (.write id 0 val) x → objRow id = some row → row.access ≠ 0 → row.access ≠ 3 →
      row.staged = true → row.type ≠ 4 → row.type ≠ 6 → row.type ≠ 7 → val.length = row.width →
      ∃ t, exec (.write r id 0 val) s = .next t ∧ t.sv id = writeMask id (leNat val) ∧
        (t.area (id / 65536)).pending = true ∧ (∀ i, t.ov i = s.ov i) ∧ (∀ i, i ≠ id → t.sv i = s.sv i) ∧
        t.Answers r (.write id 0 val) 0 [] ∧ Frame [.router, .caddy, .host, .obj, .out] s t) ∧
    (∀ id row, s.Hears r (.describe id) x → objRow id = some row →
      ∃ t, exec (.describe r id) s = .next t ∧ t.Answers r (.describe id) 0 (descriptor id row) ∧
        Frame [.router, .caddy, .host, .out] s t) ∧
    (∀ ctx d w, s.Obeys r (.post ctx d [w]) x → s.power.main = .ready → d < 4 → (s.dieList d).length < 4096 →
      ∃ t, exec (.mgmtPost r ctx d [w]) s = .next t ∧
        t.dieList d = insertEntry ⟨w, ctx, s.sched.nextSeq, d, none, false, false⟩ (s.dieList d) ∧
        t.sched.nextSeq = (s.sched.nextSeq + 1) % 2 ^ 48 ∧ (∀ e, e ≠ d → t.dieList e = s.dieList e) ∧
        t.Answers r (.post ctx d [w]) 0 (toLE 4 1) ∧ Frame [.sched, .router, .caddy, .host, .out] s t)

/-- APPLY puts an area's staged values in force when nothing is wrong with them and otherwise changes none and says what is
wrong; where it changes a persistent value its reply waits until the journal holds it; DISCARD drops them; PROT_DRAIN_DONE lets
the waiting APPLY of a protection area reply; GRANULE_RETIRE_DONE gives one granule its spare, and after the last the remap is
journalled, whose completed write lets the APPLY reply (12 R307, 16 R394, 17 R416, R422 to R424). -/
def Obligations.StagedSetsAreAppliedWhole : Prop :=
  ∀ (s : State) (r : Req) (x : Session), s.wf = true →
    (∀ a id v row, a < 16 → a ≠ 2 → a ≠ 5 → a ≠ 9 → a ≠ 11 → s.Obeys r (writeOf (a * 65536 + 1) 16 1) x →
      (s.area a).pending = true → (s.taking r x).areaFaults a = [] → id / 65536 = a → objRow id = some row →
      row.staged = true → s.obj.staged.filter (fun p => p.1 == id) = [(id, v)] →
      ∃ t, exec (.apply r a) s = .next t ∧ t.ov id = v ∧ tget? t.obj.staged id = none ∧ (t.area a).pending = false ∧
        (t.area a).commits = min ((s.area a).commits + 1) 65535 ∧ (t.area a).lastStatus = 0 ∧
        ((s.taking r x).persistNeeds a = [] → t.Answers r (writeOf (a * 65536 + 1) 16 1) 0 []) ∧
        ((s.taking r x).persistNeeds a ≠ [] → ∃ d, t.caddy.deferred = [d] ∧ d.req = r ∧ d.area = a ∧ d.worked = true ∧
          d.needs = (s.taking r x).persistNeeds a ∧ ∃ qs, t.flash.queue = s.flash.queue ++ qs ++ d.needs) ∧
        Frame [.ft, .cores, .links, .router, .caddy, .host, .steps, .red, .obj, .flash, .out] s t) ∧
    (∀ a, a = 2 ∨ a = 9 → s.Obeys r (writeOf (a * 65536 + 1) 16 1) x → (s.area a).pending = true →
      (s.taking r x).areaFaults a = [] → tget? s.obj.staged (genId a) = none →
      ∃ t d, exec (.apply r a) s = .next t ∧ t.caddy.deferred = [d] ∧ d.req = r ∧ d.area = a ∧
        t.ov (genId a) = (s.ov (genId a) + 1) % 2 ^ 32 ∧ (a = 2 → t.obj.region = merge s.obj.region s.obj.regionS) ∧
        (a = 9 → t.obj.syncMap = merge s.obj.syncMap s.obj.syncMapS) ∧ t.out = s.out ∧
        d.worked = false ∧ Frame [.caddy, .obj, .fab, .flash] s t) ∧
    (∀ a f fs, a < 16 → s.Obeys r (writeOf (a * 65536 + 1) 16 1) x → (s.area a).pending = true →
      (s.taking r x).areaFaults a = f :: fs →
      ∃ t, exec (.apply r a) s = .next t ∧ (t.area a).lastStatus = f.1 ∧ (t.area a).firstObj = f.2.1 ∧
        (t.area a).firstIndex = f.2.2 ∧ (t.area a).pending = true ∧ (∀ id, t.ov id = s.ov id ∧ t.sv id = s.sv id) ∧
        t.Answers r (writeOf (a * 65536 + 1) 16 1) f.1 [] ∧ Frame [.router, .caddy, .host, .obj, .flash, .out] s t) ∧
    (∀ a, a < 16 → s.Obeys r (writeOf (a * 65536 + 1) 16 2) x →
      ∃ t, exec (.discard r a) s = .next t ∧ (t.area a).pending = false ∧
        (∀ id, id / 65536 = a → tget? t.obj.staged id = none) ∧ (∀ id, t.ov id = s.ov id) ∧
        t.Answers r (writeOf (a * 65536 + 1) 16 2) 0 [] ∧ Frame [.router, .caddy, .host, .obj, .out] s t) ∧
    (∀ d, s.caddy.deferred = [d] → s.caddy.queue = [] → d.area = 2 ∨ d.area = 9 → d.worked = false → d.alloc = none →
      d.changed = 0 → (∀ r ∈ d.needs, r ∉ s.flash.queue) → (∀ o, s.caddy.owner = some o → s.clk < o.leaseEnd) →
      s.fab.cmds = [] → s.fab.tileReqs = [] → s.router.inj = [] → s.fab.capped = [] →
      ∃ t, exec .protDrainDone s = .next t ∧ t.caddy.deferred = [] ∧ t.caddy.audit = s.caddy.audit ∧
        t.Answers d.req (writeOf (d.area * 65536 + 1) 16 1) 0 [] ∧
        Frame [.sync, .mem, .fab, .router, .caddy, .host, .steps, .obj, .out] s t) ∧
    (∀ a c rest m i, s.mem.retiring = (a, c) :: rest → s.memOf a = some m → s.freeSpare m = some i → rest ≠ [] →
      ∃ t, exec .granuleRetireDone s = .next t ∧
        t.mem = { s.mem with retired := s.mem.retired ++ [⟨a, i, m, c, s.ageing.hours⟩], retiring := rest } ∧
        Frame [.mem, .router, .host, .flash, .out] s t) ∧
    (∀ a c m i d, s.mem.retiring = [(a, c)] → s.memOf a = some m → s.freeSpare m = some i → s.caddy.deferred = [d] →
      d.area = 5 → d.alloc = none → d.worked = false →
      ∃ t, exec .granuleRetireDone s = .next t ∧ t.mem.retiring = [] ∧ t.mem.bytes = s.mem.bytes ∧
        t.caddy.deferred = [{ d with worked := true, needs := d.needs ++ [.remap] }] ∧
        t.flash.queue.getLast? = some .remap ∧ Frame [.mem, .router, .caddy, .host, .flash, .out] s t) ∧
    (∀ d q, s.caddy.deferred = [d] → s.caddy.queue = [] → d.alloc = none → d.worked = true → s.flash.queue = [q] →
      s.power.losing = 0 →
      ∃ t, exec .journalWriteDone s = .next t ∧ t.caddy.deferred = [] ∧
        replyTo d.req 0x11 d.req.session d.req.epoch 0 [] ∈ t.out.mgmt)

/-- Firmware: FW_IMAGE_BLOCK programs its bytes into the slot that does not run, a block at offset 0 into that slot erased,
and withdraws a pending activation, which is journalled; a block that is not a multiple of 16 bytes, at an offset that is none
or above 8,388,352, or past the slot is refused with MGMT_ARGS; FW_ACTIVATE with 1 marks that slot active, and journals it, if
it verifies and otherwise answers IMAGE_INVALID, and with another value MGMT_ARGS (17 R411, R416, R425, R426, R428, R430,
R437). An erased byte is 0xFF, and an empty slot is programmed as an erased one (the model's choices, log 31). -/
def Obligations.FirmwareGoesToTheOtherSlot : Prop :=
  ∀ (s : State) (r : Req) (x : Session), s.wf = true →
    (∀ sub val, s.Obeys r (.write fwImageBlockId sub val) x → sub % 16 = 0 → sub ≤ 8388352 → 16 ≤ val.length →
      val.length ≤ 4096 → val.length % 16 = 0 → sub + val.length ≤ 256 + 8388608 →
      ∃ t kept tbl, exec (.fwImageBlockWrite r sub val) s = .next t ∧ t.caddy.slot (!s.caddy.runB) = .image kept tbl ∧
        (∀ o old, s.caddy.slot (!s.caddy.runB) = .image o old → sub ≠ 0 → kept = o ∧ tbl = slotStore o old sub val) ∧
        (sub = 0 ∨ s.caddy.slot (!s.caddy.runB) = .empty → slotBytes kept tbl sub val.length = val ∧
          ∀ a, a < sub ∨ sub + val.length ≤ a → slotBytes kept tbl a 1 = [0xFF]) ∧
        (sub ≠ 0 → s.caddy.slot (!s.caddy.runB) = .factory → slotBytes kept tbl sub val.length = val ∧
          ∀ a, a < sub ∨ sub + val.length ≤ a → slotBytes kept tbl a 1 = [Config.factoryByte a]) ∧
        t.caddy.slot s.caddy.runB = s.caddy.slot s.caddy.runB ∧
        t.caddy.fwPending = false ∧ (s.caddy.fwPending = true → t.caddy.activeB = s.caddy.runB) ∧
        (s.caddy.fwPending = false → t.flash = s.flash) ∧
        (s.caddy.fwPending = true → t.flash.queue = s.flash.queue ++ [.boot]) ∧
        t.Answers r (.write fwImageBlockId sub val) 0 [] ∧ Frame [.router, .caddy, .host, .flash, .out] s t) ∧
    (∀ sub val, s.Obeys r (.write fwImageBlockId sub val) x →
      ¬(sub % 16 = 0 ∧ sub ≤ 8388352 ∧ 16 ≤ val.length ∧ val.length ≤ 4096 ∧ val.length % 16 = 0 ∧
        sub + val.length ≤ 256 + 8388608) →
      ∃ t, exec (.fwImageBlockWrite r sub val) s = .next t ∧ (∀ b, t.caddy.slot b = s.caddy.slot b) ∧
        t.caddy.fwPending = s.caddy.fwPending ∧ t.caddy.activeB = s.caddy.activeB ∧
        t.Answers r (.write fwImageBlockId sub val) 0x0C [] ∧ Frame [.router, .caddy, .host, .out] s t) ∧
    (∀ v, v < 2 ^ 32 → v ≠ 1 → s.Obeys r (writeOf fwActivateId 4 v) x →
      ∃ t, exec (.fwActivate r v) s = .next t ∧ t.caddy.activeB = s.caddy.activeB ∧ t.caddy.fwPending = s.caddy.fwPending ∧
        t.Answers r (writeOf fwActivateId 4 v) 0x0C [] ∧ Frame [.router, .caddy, .host, .out] s t) ∧
    (s.Obeys r (writeOf fwActivateId 4 1) x →
      ∃ t, exec (.fwActivate r 1) s = .next t ∧ t.caddy.runB = s.caddy.runB ∧
        (s.caddy.slotValid (!s.caddy.runB) = true → t.caddy.activeB = !s.caddy.runB ∧ t.caddy.fwPending = true ∧
          t.flash.queue = s.flash.queue ++ [.boot] ∧ t.Answers r (writeOf fwActivateId 4 1) 0 []) ∧
        (s.caddy.slotValid (!s.caddy.runB) = false → t.caddy.activeB = s.caddy.activeB ∧
          t.caddy.fwPending = s.caddy.fwPending ∧ t.flash = s.flash ∧ t.Answers r (writeOf fwActivateId 4 1) 0x29 []) ∧
        Frame [.router, .caddy, .host, .flash, .out] s t)

/-- The bytes of a request are read back as that request on each transport, every field and every operand of it: one
datagram on the tray bus, one VC0 packet, one mailbox message; a datagram to another port or
address is not the caddy's; a first segment of several waits for the others (17 R407 to
R411, 19 R461). -/
def Obligations.MessagesAreReadBack : Prop :=
  ∀ (s : State) (r : Req) (m : MOp), r.wf = true → MOp.of m.code m.payload = m → m.code < 256 → m.payload.length ≤ 4352 →
    (∀ g : Datagram, r.transport = .tray → s.serves .tray = true → s.hears g m.code = true → g.beacon = false →
      exec (.mgmtSegmentReceive g (requestBytes r m)) s = .next (s.request r m)) ∧
    (∀ g : Datagram, s.hears g m.code = false → g.beacon = false →
      exec (.mgmtSegmentReceive g (requestBytes r m)) s = .next s) ∧
    (∀ p : Packet, p.wf = true → r.transport = .vc0 p.src → s.serves (.vc0 p.src) = true → s.power.rails = true →
      (∃ pad, p.body = toLE 8 0x90 ++ requestBytes r m ++ pad) →
      exec (.mgmtVc0Receive p) s = .next ((s.taken p).request r m)) ∧
    (∀ k, k < 2 → r.transport = .mailbox k → s.serves (.mailbox k) = true → (s.mailbox k).busy = false →
      tbytes (s.mailbox k).request 0 (requestBytes r m).length = requestBytes r m →
      exec (.mbxDoorbell k (requestBytes r m).length) s =
        .next ((s.setMailbox k { s.mailbox k with busy := true }).request r m)) ∧
    (∀ (g : Datagram) (h payload : List Byte), h.length = 32 → s.serves .tray = true → s.hears g (hdrField h 8 8) = true →
      g.beacon = false → 0 < hdrField h 152 8 →
      hdrField h 144 8 ≤ hdrField h 152 8 →
      (∀ q ∈ s.caddy.partials, ¬(q.cls = hdrField h 16 4 ∧ q.xid = hdrField h 64 32)) →
      ∃ t, exec (.mgmtSegmentReceive g (h ++ payload)) s = .next t ∧
        t.caddy = { s.caddy with partials := s.caddy.partials ++ [{
          cls := hdrField h 16 4, xid := hdrField h 64 32, count := hdrField h 152 8 + 1, firstAt := s.clk, header := h,
          segs := [(hdrField h 144 8, payload)] }] } ∧ Frame [.caddy] s t)

/-- Actions of the owner: STEP_START begins a run at its step number, FT_SET gives the root its time, PERMUTE_CTRL's GO joins
a permute, KETTLE_RESTART after a stop sequences the main domain again once its cause is gone, or leaves it OFF while another
last-line condition holds, and with nothing stopped resets it, REPLAN_CTRL plans the voltages anew, for the next control tick,
and journals the plan. Refused are STEP_START in a step (0x21) and without steps, DONE_ID or block (0x22), FT_SET off the root
(0x20) and on a root whose time is set or later (0x2A), GO with steps enabled (0x23), in a permute (0x24), with the epoch in
force (0x25) and with a reserved, misaligned or excessive field (0x26), KETTLE_RESTART while the cause is present (0x27),
REPLAN_CTRL in a re-plan (0x28), and the last two with a value other than 1 (0x0C), each with no effect but its reply (07
R176, 10 R253, 11 R282, R283, 15 R380, 16 R399, R400, 17 R416, 19 R463). COOLANT_OK at a restart is a free value (log 3). -/
def Obligations.ActionsTakeEffect : Prop :=
  ∀ (s : State) (r : Req) (x : Session), s.wf = true →
    (∀ c n, c < 16 → n < 2 ^ 32 → s.Obeys r (writeOf (stepStartId + c) 4 n) x → s.stepBusy c = false →
      s.stepsOn c = true → s.doneOk c = true → s.blockOk c = true → s.power.rails = true →
      ∃ t, exec (.stepStart r c n) s = .next t ∧ (t.stp c).st = .running ∧ (t.stp c).step = n ∧ (t.stp c).attempt = 0 ∧
        (t.stp c).committed = (n + 2 ^ 32 - 1) % 2 ^ 32 ∧ (t.stp c).seed = s.ov (roundSeedId + c) ∧
        t.Answers r (writeOf (stepStartId + c) 4 n) 0 [] ∧
        Frame [.cores, .sync, .mem, .urn, .fab, .router, .caddy, .host, .steps, .red, .obj, .flash, .out] s t) ∧
    (∀ c n, c < 16 → n < 2 ^ 32 → s.Obeys r (writeOf (stepStartId + c) 4 n) x →
      s.stepBusy c = true ∨ s.stepsOn c = false ∨ s.doneOk c = false ∨ s.blockOk c = false → s.power.rails = true →
      ∃ t, exec (.stepStart r c n) s = .next t ∧
        t.Answers r (writeOf (stepStartId + c) 4 n) (if s.stepBusy c then 0x21 else 0x22) [] ∧
        Frame [.router, .caddy, .host, .out] s t) ∧
    (∀ v, v < 2 ^ 64 → s.Obeys r (writeOf ftSetId 8 v) x → s.power.rails = true →
      ∃ t, exec (.ftSet r v) s = .next t ∧
        (s.isTimeRoot = true → s.ft.st = .rootUnset → s.ft.now ≤ v → t.ft = { s.ft with now := v, st := .root } ∧
          t.Answers r (writeOf ftSetId 8 v) 0 []) ∧
        (s.isTimeRoot = false → t.ft = s.ft ∧ t.Answers r (writeOf ftSetId 8 v) 0x20 []) ∧
        (s.isTimeRoot = true → ¬(s.ft.st = .rootUnset ∧ s.ft.now ≤ v) → t.ft = s.ft ∧
          t.Answers r (writeOf ftSetId 8 v) 0x2A []) ∧
        Frame [.ft, .router, .caddy, .host, .out] s t) ∧
    (∀ c v w, c < 16 → w = setBits v 176 1 1 → w < 2 ^ 256 → bit w 176 = true →
      s.Obeys r (writeOf (permuteCtrlId + c) 32 w) x →
      s.stepsOn c = false → (s.perm c).busy = false → bits w 160 16 ≠ (s.redc c).epoch → bits w 177 15 = 0 →
      bits w 222 2 = 0 → bits w 224 32 = 0 → bits w 0 64 % 64 = 0 → bits w 64 64 % 4096 = 0 → bits w 128 32 ≤ 65535 →
        s.blockOk c = true →
      s.power.rails = true →
      ∃ t, exec (.permuteGo r c v) s = .next t ∧ (t.perm c).st = 1 ∧ (t.perm c).ctrl = setBits w 176 1 1 ∧
        (t.perm c).joinSeq = s.sched.nextSeq ∧ t.sched = { s.sched with nextSeq := (s.sched.nextSeq + 1) % 2 ^ 48 } ∧
        t.Answers r (writeOf (permuteCtrlId + c) 32 w) 0 [] ∧ Frame [.sched, .router, .caddy, .host, .red, .out] s t) ∧
    (∀ c v w, c < 16 → w = setBits v 176 1 1 → w < 2 ^ 256 → bit w 176 = true →
      s.Obeys r (writeOf (permuteCtrlId + c) 32 w) x →
      ∀ st, st = (if s.stepsOn c then 0x23 else if (s.perm c).busy then 0x24
        else if bits w 160 16 = (s.redc c).epoch then 0x25
        else if bits w 177 15 ≠ 0 ∨ bits w 222 2 ≠ 0 ∨ bits w 224 32 ≠ 0 ∨ bits w 0 64 % 64 ≠ 0 ∨ bits w 64 64 % 4096 ≠ 0 ∨
          65535 < bits w 128 32 ∨ s.blockOk c = false then 0x26 else 0) → st ≠ 0 → s.power.rails = true →
      ∃ t, exec (.permuteGo r c v) s = .next t ∧ t.perm c = s.perm c ∧ t.Answers r (writeOf (permuteCtrlId + c) 32 w) st [] ∧
        Frame [.router, .caddy, .host, .out] s t) ∧
    (s.Obeys r (writeOf kettleRestartId 4 1) x → s.power.stop = none →
      exec (.kettleRestart r 1) s = .next ((s.taking r x).answer
        (replyTo r 0x11 r.session r.epoch 0 [])).mainReset) ∧
    (∀ v, v < 2 ^ 32 → v ≠ 1 → s.Obeys r (writeOf kettleRestartId 4 v) x →
      ∃ t, exec (.kettleRestart r v) s = .next t ∧ t.Answers r (writeOf kettleRestartId 4 v) 0x0C [] ∧
        Frame [.router, .caddy, .host, .out] s t) ∧
    (∀ v, v < 2 ^ 32 → v ≠ 1 ∨ s.clk < s.ageing.busyTo → s.Obeys r (writeOf replanCtrlId 4 v) x →
      ∃ t, exec (.replanCtrl r v) s = .next t ∧
        t.Answers r (writeOf replanCtrlId 4 v) (if v = 1 then 0x28 else 0x0C) [] ∧
        Frame [.router, .caddy, .host, .out] s t) ∧
    (∀ q, s.Obeys r (writeOf kettleRestartId 4 1) x → s.power.stop = some q → s.caddy.recovery = false →
      s.pins.p5v = true → s.pins.p50v = true → s.pins.coolantOk = true → s.pins.refclk = true → s.power.losing = 0 →
      ∃ t, exec (.kettleRestart r 1) s = .next t ∧
        (q.cause ≠ 1 → s.lastLinePresent = false → t.power.main = .sequencing ∧ t.power.stop = none ∧
          t.out.faultPin = false ∧ t.Answers r (writeOf kettleRestartId 4 1) 0 []) ∧
        (q.cause ≠ 1 → s.stopPresent = false → s.lastLinePresent = true →
          t.power = { s.power with main := .off } ∧ t.Answers r (writeOf kettleRestartId 4 1) 0 []) ∧
        (q.cause ≠ 1 → s.stopPresent = true → t.power = s.power ∧ t.Answers r (writeOf kettleRestartId 4 1) 0x27 []) ∧
        (q.cause = 1 → Config.coolantLevel s.free = true → s.power.hotSensors = [] → s.power.hotStacks = [] →
          t.power.main = .sequencing ∧ t.power.stop = none ∧
          t.Answers r (writeOf kettleRestartId 4 1) 0 []) ∧
        (q.cause = 1 → Config.coolantLevel s.free = false → t.power = s.power ∧
          t.Answers r (writeOf kettleRestartId 4 1) 0x27 []) ∧
        Frame [.pins, .power, .router, .caddy, .host, .out, .free] s t) ∧
    (s.Obeys r (writeOf replanCtrlId 4 1) x → s.ageing.busyTo ≤ s.clk →
      ∃ t, exec (.replanCtrl r 1) s = .next t ∧ t.ageing.busyTo < s.clk + 1000000000 ∧
        (∀ u, u < 5 → (t.age u).hours = s.ageing.hours ∧ (t.age u).fresh = [] ∧
          (t.age u).history = (s.age u).history ++
            [(s.ageing.hours, (s.age u).vminNow u 13 - Config.vminMade u 13)] ∧
          (t.age u).plan = (s.age u).plan ∧ ∀ p, p < 16 → t.planned u p =
            max (s.planned u p) ((s.age u).vminNow u p + s.ov guardBandId + (s.forecastOf u).1)) ∧
        .plan ∈ t.flash.queue ∧
        t.Answers r (writeOf replanCtrlId 4 1) 0 [] ∧ Frame [.router, .caddy, .host, .flash, .ageing, .out, .free] s t)

/-- Immediate writes of the owner: SERVICE_ACK acknowledges, is journalled and settles ALERT#, SELF_TEST is scheduled with no
step and no tile running and refused with 0x21 otherwise, IDLE_CLEAR waits for the next sample, PRUNE_EXCESS_COUNT is cleared
by 0 and refuses any other value, and writing 1 to a sticky flag clears it and nothing else (02 R51, 06 R143, 15 R382, 16
R404, 19 R467, 20 R469, 21 R486). -/
def Obligations.ImmediateWritesTakeEffect : Prop :=
  ∀ (s : State) (r : Req) (x : Session), s.wf = true →
    (∀ v, v < 2 ^ 64 → s.Obeys r (writeOf serviceAckId 8 v) x →
      ∃ t, exec (.serviceAck r v) s = .next t ∧ t.flash.ack = s.flash.ack ||| v ∧
        t.flash.queue = s.flash.queue ++ [.service] ∧ t.flash.service = s.flash.service ∧
        t.out.alertPin = t.alertWanted ∧ t.Answers r (writeOf serviceAckId 8 v) 0 [] ∧
        Frame [.router, .caddy, .host, .flash, .out] s t) ∧
    (s.Obeys r (writeOf selfTestId 4 1) x → (∀ c, c < 16 → s.stepBusy c = false) → s.anyAccepted = false →
      ∃ t, exec (.selfTest r 1) s = .next t ∧ t.power = { s.power with selfTest := true } ∧
        t.Answers r (writeOf selfTestId 4 1) 0 [] ∧ Frame [.power, .router, .caddy, .host, .out] s t) ∧
    (s.Obeys r (writeOf selfTestId 4 1) x → ((∃ c, c < 16 ∧ s.stepBusy c = true) ∨ s.anyAccepted = true) →
      ∃ t, exec (.selfTest r 1) s = .next t ∧ t.Answers r (writeOf selfTestId 4 1) 0x21 [] ∧
        Frame [.router, .caddy, .host, .out] s t) ∧
    (s.Obeys r (writeOf idleClearId 4 1) x →
      ∃ t, exec (.idleClear r 1) s = .next t ∧ t.tele = { s.tele with clear := true } ∧
        t.Answers r (writeOf idleClearId 4 1) 0 [] ∧ Frame [.router, .caddy, .host, .tele, .out] s t) ∧
    (∀ c v, c < 16 → v < 2 ^ 32 → s.Obeys r (writeOf (pruneExcessId + c) 4 v) x →
      ∃ t, exec (.pruneExcessCountClear r c v) s = .next t ∧
        t.ov (pruneExcessId + c) = (if v = 0 then 0 else s.ov (pruneExcessId + c)) ∧
        (∀ id, id ≠ pruneExcessId + c → t.ov id = s.ov id) ∧
          t.Answers r (writeOf (pruneExcessId + c) 4 v) (if v = 0 then 0 else 0x0C) [] ∧
        Frame [.router, .caddy, .host, .obj, .out] s t) ∧
    (∀ id m v, flagMask id = some m → v < 2 ^ (8 * valueWidth id) → s.Obeys r (writeOf id (valueWidth id) v) x →
      ∃ t, exec (.rw1cFlagClear r id v) s = .next t ∧ t.ov id = s.ov id - (s.ov id &&& (m &&& v)) ∧
        (∀ i, i ≠ id → t.ov i = s.ov i) ∧ t.Answers r (writeOf id (valueWidth id) v) 0 [] ∧
        Frame [.router, .caddy, .host, .obj, .out] s t) ∧
    (∀ v, v < 2 ^ 32 → s.Obeys r (writeOf kettleStatusId 4 v) x →
      ∃ t, exec (.rw1cFlagClear r kettleStatusId v) s = .next t ∧
        t.kettle = { s.kettle with
          calRange := s.kettle.calRange && !bit v 4
          droopSeen := s.kettle.droopSeen && !bit v 5 } ∧
        t.Answers r (writeOf kettleStatusId 4 v) 0 [] ∧ Frame [.kettle, .router, .caddy, .host, .out] s t)

/-- The resets: CONTEXT ends one context's steps and work, an FLR its page too, COMPUTE every context's, the counters and the
accumulators, MAIN sequences the main domain again with its memory at 0, MODULE begins anew with the caddy not ready, no
session and no owner, SLOT_ID read, and the fault log and FAULT# kept; RESET# waits for the end of a power-loss sequence, and
does nothing without standby power (14 R346, 19 R463, R464, 21 R486, R487). -/
def Obligations.ResetsClearTheirScope : Prop :=
  ∀ (s : State) (r : Req) (x : Session), s.wf = true →
    (∀ c, c < 16 → s.Obeys r (writeOf resetCtrlId 4 (1 + c * 256)) x →
      ∃ t, exec (.contextReset (some r) c) s = .next t ∧ (t.stp c).st = .idle ∧ (t.stp c).committed = 0xFFFFFFFF ∧
        (t.stp c).replays = (s.stp c).replays ∧ (∀ n, n < 256 → ∀ y ∈ (t.core n).tiles, y.ctx ≠ c) ∧
        (∀ d, ∀ e ∈ t.dieList d, e.ctx ≠ c) ∧ (∀ i, t.ctr i = s.ctr i) ∧ t.fab.dir = [] ∧
        t.Answers r (writeOf resetCtrlId 4 (1 + c * 256)) 0 [] ∧
        Frame [.cores, .sched, .txe, .urn, .fab, .router, .caddy, .host, .steps, .red, .out] s t) ∧
    (∀ c, c < 15 →
      ∃ t, exec (.contextReset none c) s = .next t ∧ (t.stp c).st = .idle ∧ t.page c = .init ∧
        Frame [.cores, .sched, .txe, .urn, .fab, .router, .host, .steps, .red, .out] s t) ∧
    (s.Obeys r (writeOf resetCtrlId 4 2) x →
      ∃ t, exec (.computeReset r) s = .next t ∧ (∀ c, c < 16 → (t.stp c).st = .idle) ∧ (∀ i, t.ctr i = 0) ∧
        (∀ n, n < 256 → (t.core n).slots = [] ∧ (t.core n).store = []) ∧ t.sched.overflow = [] ∧
        t.Answers r (writeOf resetCtrlId 4 2) 0 [] ∧
        Frame [.cores, .sched, .txe, .sync, .urn, .fab, .router, .caddy, .host, .steps, .red, .out] s t) ∧
    (s.Obeys r (writeOf resetCtrlId 4 3) x → s.caddy.recovery = false → s.pins.p50v = true → s.pins.coolantOk = true →
      s.pins.refclk = true → s.pins.p5v = true → s.power.hotSensors = [] → s.power.hotStacks = [] → s.power.stop = none →
      s.power.losing = 0 →
      ∃ t, exec (.mainReset r) s = .next t ∧ t.power.main = .sequencing ∧ t.power.rails = false ∧ t.ft.now = 0 ∧
        (∀ a, t.memByte a = 0) ∧ (∀ i, t.ctr i = 0) ∧ (∀ l, l < 6 → (t.link l).st = .down) ∧
        (∀ c, (t.stp c).st = .idle) ∧ t.caddy.ready = true ∧
        replyTo r 0x11 r.session r.epoch 0 [] ∈ t.out.mgmt ∧
        Frame [.ft, .power, .kettle, .cores, .sched, .txe, .sync, .mem, .urn, .fab, .links, .router, .caddy, .host, .steps,
          .red, .obj, .flash, .out] s t) ∧
    (s.Obeys r (writeOf resetCtrlId 4 4) x →
      ∃ t, exec (.moduleReset (some r)) s = .next t ∧ t.caddy.ready = false ∧ t.caddy.sessions = [] ∧
        t.caddy.owner = none ∧ t.power.main = .off ∧ t.flash.log = s.flash.log ∧ (∀ c, (t.stp c).st = .idle) ∧
        replyTo r 0x11 r.session r.epoch 0 [] ∈ t.out.mgmt) ∧
    (s.power.losing = 0 → s.pins.p5v = true →
      ∃ t, exec (.moduleReset none) s = .next t ∧ t.caddy.ready = false ∧ t.caddy.sessions = [] ∧ t.caddy.owner = none ∧
        t.power.main = .off ∧ t.power.stop = s.power.stop ∧ t.flash.log = s.flash.log ∧ t.out.faultPin = s.out.faultPin ∧
        t.pins.slotId < 64) ∧
    (s.power.losing ≠ 0 →
      ∃ t, exec (.moduleReset none) s = .next t ∧ t = { s with power := { s.power with resetWaits := true } }) ∧
    (s.power.losing = 0 → s.pins.p5v = false → exec (.moduleReset none) s = .next s)

/-- Submission queues: SQ_TAIL is stored below the entries and refused with DOORBELL_ERR beyond them, or discarded with
NOT_READY before READY; the next entry is read from its ring and posted, a failed read stops the queue with SQ_ERROR, a full
list keeps the entry with LIST_FULL and a retry offers it again; a host ring is read under the requester ID of the context's VF
(05 R111, 19 R454, R458, R459). A write behind an ALLOC of its page that waits is kept for its turn. -/
def Obligations.SubmissionQueuesPostTheirEntries : Prop :=
  ∀ (s : State) (c : Nat), s.wf = true → c < 15 → s.host.up = true →
    (∀ v, s.power.main = .ready → s.pageWaits c = false → sqOn (s.sqCfg c) = true → v < sqEntries (s.sqCfg c) →
      ∃ t, exec (.sqTailWrite c v) s = .next t ∧ t.page c = { s.page c with sqTail := v } ∧
        (∀ d, d ≠ c → t.page d = s.page d) ∧ Frame [.host] s t) ∧
    (∀ v, s.power.main = .ready → s.pageWaits c = false → ¬(sqOn (s.sqCfg c) = true ∧ v < sqEntries (s.sqCfg c)) →
      ∃ t, exec (.sqTailWrite c v) s = .next t ∧ t.page c = { s.page c with flags := (s.page c).flags ||| 4 } ∧
        Frame [.host] s t) ∧
    (∀ v, s.power.main = .ready → s.pageWaits c = true →
      ∃ t, exec (.sqTailWrite c v) s = .next t ∧ t.page c = { s.page c with later := (s.page c).later ++ [(0, v)] } ∧
        (∀ d, d ≠ c → t.page d = s.page d) ∧ Frame [.host] s t) ∧
    (∀ v, s.power.main ≠ .ready →
      ∃ t, exec (.sqTailWrite c v) s = .next t ∧ (t.page c).sqTail = (s.page c).sqTail ∧ t.host.err = s.host.err ||| 4 ∧
        Frame [.host, .out] s t) ∧
    (∀ ok b, s.sqRuns c = true → (s.page c).sqHeld = none →
      let v := s.sqCfg c
      let a := sqBase v + 128 * (s.page c).sqHead
      let d : WorkDesc := BitVec.ofNat 1024 (leNat (if sqHost v then padTo 128 b else s.loadDev a 128))
      (¬(ok = false ∨ (sqHost v = false ∧ s.anyPoison a 128 = true)) →
        (∀ u, s.post c (sqTarget v) d = some u →
          ∃ t, exec (.sqEntryTake c ok b) s = .next t ∧ t.sched = u.sched ∧
            (t.page c).sqHead = ((s.page c).sqHead + 1) % sqEntries v ∧ (t.page c).sqHeld = none ∧
            t.out.reads = s.out.reads ++ (if sqHost v then [(c + 1, a)] else []) ∧ Frame [.sched, .host, .out] s t) ∧
        (s.post c (sqTarget v) d = none →
          ∃ t, exec (.sqEntryTake c ok b) s = .next t ∧ bit (t.page c).flags 0 = true ∧ (t.page c).sqHeld = some d ∧
            (t.page c).sqHead = (s.page c).sqHead ∧ bit (t.page c).intStatus 3 = true ∧
            t.ov listFullCountId = min (s.ov listFullCountId + 1) (2 ^ 32 - 1) ∧ Frame [.host, .obj, .out] s t)) ∧
      ((ok = false ∨ (sqHost v = false ∧ s.anyPoison a 128 = true)) →
        ∃ t, exec (.sqEntryTake c ok b) s = .next t ∧ bit (t.page c).flags 1 = true ∧ (t.page c).sqStopped = true ∧
          bit (t.page c).intStatus 3 = true ∧ Frame [.host, .out] s t)) ∧
    (∀ d u, s.sqRuns c = true → (s.page c).sqHeld = some d → s.post c (sqTarget (s.sqCfg c)) d = some u →
      ∃ t, exec (.sqListFullRetry c) s = .next t ∧ t.sched = u.sched ∧
        (t.page c).sqHead = ((s.page c).sqHead + 1) % sqEntries (s.sqCfg c) ∧ (t.page c).sqHeld = none ∧
        Frame [.sched, .host] s t)

/-- Host accesses: register writes reach BAR2_BASE, the RW1C error flags, CPL_HEAD and a mailbox's request buffer; a window
read answers the bytes of the device memory it maps, 0 for a byte it does not map, with HOST_UNMAPPED, and 0 with the poisoned
bit for a poisoned granule and for one that L2 lost (what its error checks find the command carries, log 28); a window write
changes exactly the bytes it maps and clears the poison of the granules it covers; a write to the object window is discarded
with WINDOW_WRITE. Interrupts: writing 1 to INT_STATUS bits clears them, and a further message goes out where an unmasked bit
stays set; INT_MASK takes its value, and unmasking a set bit sends a message (12 R292, R293, R301, 19 R453, R455 to R458,
R460, R462). -/
def Obligations.HostAccessesReachTheirTargets : Prop :=
  (∀ s : State, s.wf = true → s.host.up = true →
     (∀ b, b.length = 8 →
       ∃ t, exec (.hostRegisterWrite 8 b) s = .next t ∧ t = { s with host := { s.host with bar2Base := leNat b } }) ∧
     (∀ b, b.length = 4 →
       ∃ t, exec (.hostRegisterWrite 0x180 b) s = .next t ∧
         t = { s with host := { s.host with err := s.host.err - (s.host.err &&& (7 &&& leNat b)) } }) ∧
     (∀ c b, c < 15 → b.length = 4 → s.power.main = .ready → s.pageWaits c = false → leNat b < s.ov (cplRingEntriesId + c) →
       ∃ t, exec (.hostRegisterWrite (0x100008 + 0x10000 * c) b) s = .next t ∧
         t.page c = { s.page c with cplHead := leNat b } ∧ (∀ d, d ≠ c → t.page d = s.page d) ∧ Frame [.host] s t) ∧
     (∀ m o b, m < 2 → o + b.length ≤ 0x2000 →
       ∃ t, exec (.hostRegisterWrite (0x4000 + 0x4000 * m + o) b) s = .next t ∧
         (∀ i x, b[i]? = some x → x ≠ 0 → tget 0 (t.mailbox m).request (o + i) = x) ∧
         (twf 0 (s.mailbox m).request = true → ∀ i x, b[i]? = some x → tget 0 (t.mailbox m).request (o + i) = x) ∧
         (∀ k, k ≠ m → t.mailbox k = s.mailbox k) ∧
         (∀ j, j < o ∨ o + b.length ≤ j → tget 0 (t.mailbox m).request j = tget 0 (s.mailbox m).request j) ∧
         (t.mailbox m).reply = (s.mailbox m).reply ∧ (t.mailbox m).busy = (s.mailbox m).busy ∧ Frame [.host] s t) ∧
     (∀ w off n errs, w.wf = true → n ≤ 4096 → s.winOk w off n = true →
       let u := s.winErr w off n errs
       let lost := fun (a : Nat) => errs.any (fun e => e.2 == .l2Lost && e.1 / 64 == a / 64)
       ∃ t, exec (.hostMemoryRead w off n errs) s = .next t ∧
         t.host.readOut = ((List.range n).map (fun i => match s.winByte w (off + i) with
             | some a => if u.poisoned a || lost a then 0 else s.memByte a
             | none => 0),
           (List.range n).any (fun i => match s.winByte w (off + i) with
             | some a => u.poisoned a || lost a
             | none => false)) ∧
         ((∃ i, i < n ∧ s.winByte w (off + i) = none) → bit t.host.err 0 = true) ∧ (∀ a, t.memByte a = s.memByte a) ∧
         (errs = [] → Frame [.host, .out] s t) ∧ Frame [.mem, .host, .obj, .out] s t) ∧
     (∀ w off b a errs, w.wf = true → b.length ≤ 512 → b ≠ [] → s.winOk w off b.length = true →
       (∀ i, i < b.length → s.winByte w (off + i) = some (a + i)) →
       ∃ t, exec (.hostMemoryWrite w off b errs) s = .next t ∧ (∀ i x, b[i]? = some x → t.memByte (a + i) = x) ∧
         (∀ i, i < a ∨ a + b.length ≤ i → t.memByte i = s.memByte i) ∧
         (∀ g, a ≤ 64 * g → 64 * g + 64 ≤ a + b.length → t.poisoned (64 * g) = false) ∧
         (∀ g, ¬(a ≤ 64 * g ∧ 64 * g + 64 ≤ a + b.length) →
           t.poisoned (64 * g) = (s.winErr w off b.length errs).poisoned (64 * g)) ∧
         (errs = [] → Frame [.mem] s t) ∧ Frame [.mem, .host, .obj, .out] s t) ∧
     (∀ off b, off < 0x1000000 → b ≠ [] →
       ∃ t, exec (.objectWindowWrite off b) s = .next t ∧ bit t.host.err 1 = true ∧
         t.host.firstAddr = (if s.host.err = 0 then 0x1000000 + off else s.host.firstAddr) ∧ Frame [.host, .out] s t)) ∧
  (∀ (s : State) (c v : Nat), s.wf = true → c < 16 → s.host.up = true → s.power.main = .ready → s.pageWaits c = false →
     (let p := s.page c
      let q : Page := { p with intStatus := p.intStatus - (p.intStatus &&& v) }
      ∃ t, exec (.intStatusClear c v) s = .next t ∧ t.page c = q ∧ (∀ d, d ≠ c → t.page d = s.page d) ∧
        t.out.msi.length = s.out.msi.length + (if q.intStatus ≠ p.intStatus ∧ q.unmasked ≠ 0 then 1 else 0) ∧
        Frame [.host, .out] s t) ∧
     (let p := s.page c
      let q : Page := { p with intMask := v % 2 ^ 32 }
      ∃ t, exec (.intMaskWrite c v) s = .next t ∧ t.page c = q ∧ (∀ d, d ≠ c → t.page d = s.page d) ∧
        t.out.msi.length = s.out.msi.length + (if p.unmasked = 0 ∧ q.unmasked ≠ 0 then 1 else 0) ∧
        Frame [.host, .out] s t))

/-- Sync counters: SIGNAL adds and saturates at 0xFFFF with OVERFLOW, TAKE_NB subtracts and answers the value before, and sets
0 with UNDERFLOW where it held less, READ answers it, and a word of a barrier group without its reserved bits, SET replaces
it; a signal to a REMOTE entry changes no counter here and sends one packet, which waits for the rate of a hot destination; a
command with an error status changes no counter; the same command as a message gets the same reply (08 R183, R187, R189, R190,
R192, R198, R199, 14 R355, 17 R411). -/
def Obligations.SyncCommandsActOnCounters : Prop :=
  ∀ (s : State) (c : Nat) (w : Word64), s.wf = true → c < 15 → s.host.up = true → s.power.main = .ready → s.power.rails = true →
    s.pageWaits c = false →
    let id := bits w.toNat 8 16
    let k := bits w.toNat 24 14
    let e := s.syncEntry c id
    (bits w.toNat 0 4 = 0 → syncStatus s c w.toNat = 0 → e.kind = 1 → e.local_ = true →
      ∃ t, exec (.signal (.page c) w) s = .next t ∧ t.ctr e.phys = min (s.ctr e.phys + k) 0xFFFF ∧
        (∀ i, i ≠ e.phys → t.ctr i = s.ctr i) ∧ (0xFFFF < s.ctr e.phys + k → bit (t.ov syncStatusId) 0 = true) ∧
        (s.ctr e.phys + k ≤ 0xFFFF → t.obj = s.obj) ∧ (t.page c).syncReply = 0 ∧ Frame [.sync, .host, .obj] s t) ∧
    (bits w.toNat 0 4 = 0 → syncStatus s c w.toNat = 0 → e.kind = 1 → e.remote = true → e.multi = false →
      ∃ t, exec (.signal (.page c) w) s = .next t ∧
        (let u := s.capInject (portDie (e.phys / 4096)) (s.packet 2 c e.device (syncBody false false e.phys k))
         t.router = u.router ∧ t.fab = u.fab) ∧
        (s.fab.hot = [] → t.router = (s.send (portDie (e.phys / 4096)) 2 c e.device (syncBody false false e.phys k)).router) ∧
        (t.page c).syncReply = 0 ∧ Frame [.fab, .router, .host] s t) ∧
    (bits w.toNat 0 4 = 0 → syncStatus s c w.toNat ≠ 0 →
      ∃ t, exec (.signal (.page c) w) s = .next t ∧ (t.page c).syncReply = syncStatus s c w.toNat ∧ Frame [.host] s t) ∧
    (∀ r x, bits w.toNat 0 4 = 0 → s.Obeys r (.sync c w.toNat) x → syncStatus s c w.toNat = 0 → e.kind = 1 →
      e.local_ = true →
      ∃ t, exec (.signal (.mgmt r c) w) s = .next t ∧ t.ctr e.phys = min (s.ctr e.phys + k) 0xFFFF ∧
        t.Answers r (.sync c w.toNat) 0 (toLE 4 0) ∧ Frame [.sync, .router, .caddy, .host, .obj, .out] s t) ∧
    (bits w.toNat 0 4 = 1 → syncStatus s c w.toNat = 0 →
      ∃ t, exec (.takeNb (.page c) w) s = .next t ∧ t.ctr e.phys = s.ctr e.phys - k ∧
        (∀ i, i ≠ e.phys → t.ctr i = s.ctr i) ∧ (s.ctr e.phys < k → bit (t.ov syncStatusId) 1 = true) ∧
        (k ≤ s.ctr e.phys → t.obj = s.obj) ∧ (t.page c).syncReply = s.ctr e.phys * 65536 ∧
        Frame [.sync, .host, .obj] s t) ∧
    (bits w.toNat 0 4 = 2 → syncStatus s c w.toNat = 0 →
      ∃ t, exec (.syncRead (.page c) w) s = .next t ∧
        (t.page c).syncReply = (if e.kind = 2 then s.barRead e.phys k else s.ctr e.phys) * 65536 ∧
        (e.kind = 2 → (t.page c).syncReply / 65536 % 2 ^ 14 = s.ctr (e.phys + k) % 2 ^ 14) ∧ Frame [.host] s t) ∧
    (bits w.toNat 0 4 = 3 → syncStatus s c w.toNat = 0 →
      ∃ t, exec (.set (.page c) w) s = .next t ∧ t.ctr e.phys = k ∧ (∀ i, i ≠ e.phys → t.ctr i = s.ctr i) ∧
        (t.page c).syncReply = 0 ∧ Frame [.sync, .host] s t)

/-- Barriers: BARRIER_INIT opens round 1 with EXPECTED; an arrival for the open round counts in its slot, the last one
clears the slot and opens the next round in the other slot; an arrival for any round but the open one and the next is refused
with MISUSE (08 R192 to R194, R198). -/
def Obligations.BarriersCountRounds : Prop :=
  ∀ (s : State) (c : Nat) (w : Word64), s.wf = true → c < 15 → s.host.up = true → s.power.main = .ready →
    s.pageWaits c = false →
    syncStatus s c w.toNat = 0 →
    let k := bits w.toNat 24 14
    let e := s.syncEntry c (bits w.toNat 8 16)
    let p := e.phys
    let cur := s.barCur p
    (bits w.toNat 0 4 = 5 →
      ∃ t, exec (.barrierInit (.page c) w) s = .next t ∧ t.ctr p = k ∧ t.ctr (p + 1) = 1 ∧ t.ctr (p + 2) = 0 ∧
        t.ctr (p + 3) = 0 ∧ (∀ i, i < p ∨ p + 3 < i → t.ctr i = s.ctr i) ∧ (t.page c).syncReply = 0 ∧
        Frame [.sync, .host] s t) ∧
    (bits w.toNat 0 4 = 4 → e.local_ = true → s.barExpected p ≠ 0 → s.barRound p ≠ 0 →
      (s.barDist p k = 0 → s.ctr (p + 2 + cur) + 1 < s.barExpected p →
        ∃ t, exec (.arrive (.page c) w) s = .next t ∧ t.ctr (p + 2 + cur) = s.ctr (p + 2 + cur) + 1 ∧
          (∀ i, i ≠ p + 2 + cur → t.ctr i = s.ctr i) ∧ (t.page c).syncReply = 0 ∧ Frame [.sync, .host] s t) ∧
      (s.barDist p k = 0 → s.ctr (p + 2 + cur) + 1 = s.barExpected p → s.ctr (p + 3 - cur) ≠ s.barExpected p →
        e.onComplete = 0 →
        ∃ t, exec (.arrive (.page c) w) s = .next t ∧ t.ctr (p + 2 + cur) = 0 ∧
          t.barRound p = nextRound (s.barRound p) ∧ t.barCur p = 1 - cur ∧ t.ctr p = s.ctr p ∧
          t.ctr (p + 3 - cur) = s.ctr (p + 3 - cur) ∧ (t.page c).syncReply = 0 ∧ Frame [.sync, .host] s t) ∧
      (s.barDist p k = 1 → s.ctr (p + 3 - cur) < s.barExpected p →
        ∃ t, exec (.arrive (.page c) w) s = .next t ∧ t.ctr (p + 3 - cur) = s.ctr (p + 3 - cur) + 1 ∧
          (∀ i, i ≠ p + 3 - cur → t.ctr i = s.ctr i) ∧ (t.page c).syncReply = 0 ∧ Frame [.sync, .host] s t) ∧
      (1 < s.barDist p k →
        ∃ t, exec (.arrive (.page c) w) s = .next t ∧ bit (t.ctr p) 15 = true ∧ bit (t.ov syncStatusId) 2 = true ∧
          (∀ i, i ≠ p → t.ctr i = s.ctr i) ∧ (t.page c).syncReply = 4 ∧ Frame [.sync, .host, .obj] s t))

/-- A remote sync packet is applied to the physical counter or group that it names, without a check of the map here; a sleeping
core wakes when its wire has risen since it fell asleep, and by nothing else; a core falls asleep after 64 idle cycles with no
accepted tile and nothing to claim (08 R190, R191). -/
def Obligations.RemoteSyncAndSleep : Prop :=
  ∀ s : State, s.wf = true → s.power.rails = true →
    (∀ p : Packet, p.wf = true → p.field 8 1 = 0 →
      ∃ t, exec (.remoteSyncReceive p) s = .next t ∧
        t.ctr (p.field 16 14) = min (s.ctr (p.field 16 14) + p.field 32 14) 0xFFFF ∧
        (∀ i, i ≠ p.field 16 14 → t.ctr i = s.ctr i) ∧
        t.router = { s.router with delivered := dropFirst (· == p) s.router.delivered } ∧
        Frame [.sync, .router, .obj] s t) ∧
    (∀ p : Packet, p.wf = true → p.field 8 1 = 1 →
      let q := p.field 16 14
      let i := q + 2 + s.barCur q
      s.barExpected q ≠ 0 → s.barRound q ≠ 0 → s.barDist q (p.field 32 14) = 0 → s.ctr i + 1 < s.barExpected q →
      ∃ t, exec (.remoteSyncReceive p) s = .next t ∧ t.ctr i = s.ctr i + 1 ∧ (∀ j, j ≠ i → t.ctr j = s.ctr j) ∧
        t.router = { s.router with delivered := dropFirst (· == p) s.router.delivered } ∧ Frame [.sync, .router] s t) ∧
    (∀ n, n < 256 → (s.core n).asleep = true →
      (s.core n).wake = true ∨ tget 0 s.sched.posts (dieOf n) ≠ (s.core n).sleptAt.2 ∨
        (∃ d e, d < 4 ∧ e ∈ s.dieList d ∧ e.ctx = (s.core n).ctx ∧ e.taken = false ∧
          ∃ k, k < 2 ∧ s.waitMoved e.ctx (s.core n).sleptAt.1 (dWait e.desc k) = true) →
      ∃ t, exec (.coreWake n) s = .next t ∧ t.core n = { s.core n with asleep := false, wake := false } ∧
        (∀ m, m ≠ n → t.core m = s.core m) ∧ Frame [.cores] s t) ∧
    (∀ n, n < 256 → ((s.core n).asleep = false ∨ s.wakeRaised n = false) → exec (.coreWake n) s = .next s) ∧
    (∀ n, n < 256 → s.notice.candidates n = [] → (s.core n).asleep = false → (s.core n).tiles = [] →
      64000 ≤ (s.clk - (s.core n).idleFrom) * pointMHz (s.die (dieOf n)).clock →
      ∃ t, exec (.coreSleep n) s = .next t ∧ (t.core n).asleep = true ∧ (t.core n).wake = false ∧
        (t.core n).sleptAt = (s.sync.changes, tget 0 s.sched.posts (dieOf n)) ∧ (t.core n).store = (s.core n).store ∧
        (t.core n).slots = (s.core n).slots ∧ (t.core n).ctx = (s.core n).ctx ∧ (∀ m, m ≠ n → t.core m = s.core m) ∧
        (s.sched.lists = [] → Frame [.cores] s t) ∧ Frame [.cores, .sched, .urn, .router] s t)

/-- A link trains: light begins it; the lanes that lock, without those whose place a spare has taken for good, are its healthy
lanes, and four of them begin the IDENT exchange at width 4; a matching IDENT records the neighbour and the lower device ID
proposes the width of R163, a wrong one makes the link MISCABLED; WIDTH_SET and WIDTH_ACK agree, and when both directions have
changed the link is ACTIVE at the width configured at both ends and else DEGRADED, with its service flag below its own, and
sends again what was not released; an IDENT on a link that carries traffic retrains it, with code 0x12 where it names the width
that it named before; LINK_DOWN ends what the link held (01 R27, 07 R162 to R166, 16 R387). -/
def Obligations.LinksTrain : Prop :=
  ∀ (s : State) (l : Nat), s.wf = true → l < 6 →
    ((s.link l).st = .down → s.linkEnabled l = true →
      ∃ t, exec (.lightArrival l) s = .next t ∧ (t.link l).st = .training ∧ (t.link l).width = 0 ∧
        (t.link l).rxLight = true ∧ (t.link l).txLight = true ∧ OtherLinks l s t ∧ Frame [.links] s t) ∧
    (∀ h g, (s.link l).st = .training → g = withoutSpared h (s.spareLanes 1 l) →
      (4 ≤ (lanes g).length →
        ∃ t m, exec (.laneLockDone l h) s = .next t ∧ (t.link l).st = .training ∧ (t.link l).healthy = g ∧
          (t.link l).failRx = lanesNot g ∧ (t.link l).width = 4 ∧ (t.link l).laneRx = laneMap g 4 ∧
          (t.link l).waiting = (s.link l).waiting ++ [m] ∧ (t.link l).ctl = (s.link l).ctl ++ [5 :: m.bytes] ∧ m.msg = 1 ∧
          m.device = s.me ∧ m.link = l ∧ m.healthy = g ∧ m.cfgWidth = s.cfgWidth l ∧ OtherLinks l s t ∧
          Frame [.links] s t) ∧
      ((lanes g).length < 4 →
        ∃ t, exec (.laneLockDone l h) s = .next t ∧ (t.link l).st = .training ∧ (t.link l).width = (s.link l).width ∧
          (t.link l).healthy = g ∧ (t.link l).waiting = (s.link l).waiting ∧ OtherLinks l s t ∧ Frame [.links] s t)) ∧
    (∀ raw, let m := LaneMsg.of (flPayload raw)
      let right : Prop := m.device = s.nbrDev l ∧ m.link = (if l % 2 = 0 then l + 1 else l - 1)
      s.looped l = false → (s.link l).st = .training → (s.link l).healthy ≠ 0 → goodFlit 5 raw → m.msg = 1 →
      (right → ∃ t, exec (.ident l raw) s = .next t ∧ (t.link l).st = .training ∧ (t.link l).peer = some m ∧
        (t.link l).nbr = m.device ∧ (t.link l).failTx = lanesNot m.healthy ∧ (t.link l).laneTx = laneMap m.healthy 4 ∧
        (s.me < m.device → 0 < t.agreedWidth l → (s.link l).txChange.map (·.1) ≠ some (t.agreedWidth l) →
          ∃ q : LaneMsg, (t.link l).txChange = some (t.agreedWidth l, none) ∧ q ∈ (t.link l).waiting ∧ q.msg = 2 ∧
            q.width = t.agreedWidth l ∧ 5 :: q.bytes ∈ (t.link l).ctl) ∧
        ((s.link l).waiting.any (fun w => w.msg == 1) = false →
          ∃ q : LaneMsg, 5 :: q.bytes ∈ (t.link l).ctl ∧ q.msg = 1 ∧ q.seq = m.seq ∧ q.device = s.me ∧
            q.healthy = (s.link l).healthy) ∧
        OtherLinks l s t ∧ Frame [.links] s t) ∧
      (¬right → ∃ t, exec (.ident l raw) s = .next t ∧ (t.link l).st = .miscabled ∧ (t.link l).width = 0 ∧
        (t.link l).nbr = m.device ∧ OtherLinks l s t ∧ Frame [.links] s t)) ∧
    (∀ raw, s.looped l = false → (s.link l).up = true → goodFlit 5 raw → (LaneMsg.of (flPayload raw)).msg = 1 →
      ∃ t, exec (.ident l raw) s = .next t ∧ (t.link l).st = .training ∧ (t.link l).out = (s.link l).out ∧
        (t.link l).rx = (s.link l).rx ∧
        ((s.link l).peerWidth (LaneMsg.of (flPayload raw)) = true → (t.link l).fault = 0 ∧ Frame [.links] s t) ∧
        ((s.link l).peerWidth (LaneMsg.of (flPayload raw)) = false →
          (t.link l).fault = 0x12 ∧ bit (t.ov faultStatusId) 1 = true) ∧
        OtherLinks l s t ∧ Frame [.links, .router, .steps, .obj, .flash] s t) ∧
    (∀ raw, let m := LaneMsg.of (flPayload raw)
      (s.link l).st = .training → s.looped l = false → goodFlit 5 raw → m.msg = 2 →
      (0 < m.width → m.width = s.agreedWidth l →
        ∃ (t : State) (q : LaneMsg), exec (.widthSet l raw) s = .next t ∧ (t.link l).st = .training ∧
          (t.link l).rxChange = some (m.width, m.atRound) ∧ (t.link l).txChange = some (m.width, none) ∧
          (t.link l).ctl = (s.link l).ctl ++ [5 :: q.bytes] ∧ q.msg = 3 ∧ q.seq = m.seq ∧ q.width = m.width ∧
          OtherLinks l s t ∧ Frame [.links] s t) ∧
      (m.width ≠ s.agreedWidth l →
        ∃ t, exec (.widthSet l raw) s = .next t ∧ (t.link l).st = .training ∧
          (t.link l).rxChange = (s.link l).rxChange ∧ (t.link l).txChange = (s.link l).txChange ∧
          OtherLinks l s t ∧ Frame [.links, .obj] s t)) ∧
    (∀ raw, let m := LaneMsg.of (flPayload raw)
      (s.link l).up = true → s.looped l = false → goodFlit 5 raw → m.msg = 2 → m.width = (s.link l).width →
      ∃ (t : State) (q : LaneMsg), exec (.widthSet l raw) s = .next t ∧ (t.link l).st = (s.link l).st ∧
        (t.link l).ctl = (s.link l).ctl ++ [5 :: q.bytes] ∧ q.msg = 3 ∧ q.seq = m.seq ∧ q.width = m.width ∧
        OtherLinks l s t ∧ Frame [.links] s t) ∧
    (∀ raw, s.looped l = true → ∀ c ∈ [Instr.ident l raw, .widthSet l raw, .widthAck l raw, .spareReq l raw, .spareAck l raw,
      .idleFlitReceive l raw, .nak l raw, .resend l raw], exec c s = .next s) ∧
    (∀ raw, let m := LaneMsg.of (flPayload raw)
      (s.link l).st = .training → s.looped l = false → goodFlit 5 raw → m.msg = 3 →
      (s.link l).waiting.any (fun w => w.msg == 2 && w.seq == m.seq && w.width == m.width) = true →
      ∃ t, exec (.widthAck l raw) s = .next t ∧ (t.link l).rxChange = some (m.width, m.atRound) ∧
        (∀ w ∈ (t.link l).waiting, w.msg ≠ 2) ∧ (t.link l).txChange = (s.link l).txChange ∧ OtherLinks l s t ∧
        Frame [.links] s t) ∧
    (∀ w a v b rx, (s.link l).st = .training → (s.link l).rxChange = some (w, a) → (s.link l).txChange = some (v, some b) →
      ((if rx then (s.link l).txDone else (s.link l).rxDone) = false →
        ∃ t, exec (.atRoundChange l rx) s = .next t ∧ (t.link l).st = .training ∧
          (if rx then (t.link l).rxDone else (t.link l).txDone) = true ∧ OtherLinks l s t ∧ Frame [.links] s t) ∧
      ((if rx then (s.link l).txDone else (s.link l).rxDone) = true →
        ∃ t, exec (.atRoundChange l rx) s = .next t ∧ (t.link l).width = w ∧ (t.link l).fault = 0 ∧
          (t.link l).laneRx = laneMap (s.link l).healthy w ∧ (t.link l).again = (s.link l).retry.map (·.seq) ∧
          (∀ m, (s.link l).peer = some m → (w = s.cfgWidth l ∧ w = m.cfgWidth → (t.link l).st = .active) ∧
            (¬(w = s.cfgWidth l ∧ w = m.cfgWidth) → (t.link l).st = .degraded)) ∧
          (w < s.cfgWidth l → bit t.flash.service 2 = true) ∧
          OtherLinks l s t ∧ Frame [.links, .router, .host, .flash, .out] s t)) ∧
    ((s.link l).up = false ∨ s.unspared l = [] →
      ∃ t, exec (.laneCtrlResend l) s = .next t ∧
        (t.link l).ctl = (s.link l).ctl ++ (s.link l).waiting.map (fun m => 5 :: m.bytes) ∧
        (t.link l).waiting = (s.link l).waiting ∧ OtherLinks l s t ∧ Frame [.links] s t) ∧
    ((s.link l).st ≠ .down →
      ∃ t, exec (.linkDown l) s = .next t ∧ (t.link l).st = .down ∧ (t.link l).width = 0 ∧ (t.link l).rx = [] ∧
        (t.link l).retry = [] ∧ (t.link l).out = [] ∧ (t.link l).lasersFailed = (s.link l).lasersFailed ∧
        (t.link l).laserTuning = (s.link l).laserTuning ∧ (t.link l).laserSpare = (s.link l).laserSpare ∧
        ((s.link l).up = true → bit (t.ov faultStatusId) 1 = true) ∧ OtherLinks l s t ∧
        Frame [.links, .router, .steps, .obj, .flash] s t)

/-- Lane and laser sparing: a failed lane that carries traffic asks for its spare over SPARE_REQ and without one retrains with
code 0x12, and one that carries none needs no spare; SPARE_REQ at the transmitter and SPARE_ACK at the receiver record the
spare, and at the round that SPARE_ACK names it takes the lane's place; the third lane of a wavelength within 1 µs makes it
lost, which counts for 20 µs and ends with its relock; the spare source takes a failed one's place, and a second loss retrains
with 0x13 (01 R27, 07 R152, R164, R167 to R169, 16 R387). -/
def Obligations.SparesTakeTheirPlaces : Prop :=
  ∀ (s : State) (l : Nat), s.wf = true → l < 6 → (s.link l).up = true →
    (∀ p, p < 16 → bit (s.link l).failRx p = false → (s.link l).recent = [] → (s.link l).lostWaves = [] →
      (s.link l).laserTuning = none → (s.link l).waiting = [] → (s.link l).spareRx = [] → (s.link l).spareAckRx = [] →
      ((s.link l).laneRx.contains p = true → spareFree (s.link l).failRx (s.spareLanes 1 l) p = true →
        ∃ t m, exec (.laneFailure l p) s = .next t ∧ (t.link l).st = (s.link l).st ∧
          (t.link l).failRx = (s.link l).failRx ||| 2 ^ p ∧ (t.link l).waiting = [m] ∧ m.msg = 4 ∧ m.lane = p ∧
          (t.link l).ctl = (s.link l).ctl ++ [5 :: m.bytes] ∧ OtherLinks l s t ∧ Frame [.links] s t) ∧
      ((s.link l).laneRx.contains p = true → spareFree (s.link l).failRx (s.spareLanes 1 l) p = false →
        ∃ t, exec (.laneFailure l p) s = .next t ∧ (t.link l).st = .training ∧ (t.link l).fault = 0x12 ∧
          (t.link l).failRx = (s.link l).failRx ||| 2 ^ p ∧ bit (t.ov faultStatusId) 1 = true ∧ OtherLinks l s t ∧
          Frame [.links, .router, .steps, .obj, .flash] s t) ∧
      ((s.link l).laneRx.contains p = false →
        ∃ t, exec (.laneFailure l p) s = .next t ∧ (t.link l).st = (s.link l).st ∧ (t.link l).waiting = [] ∧
          (t.link l).failRx = (s.link l).failRx ||| 2 ^ p ∧ OtherLinks l s t ∧ Frame [.links] s t)) ∧
    (∀ p, p < 20 → bit (s.link l).failRx p = false → (∀ y ∈ (s.link l).lostWaves, y.1 ≠ p % 4) →
      2 ≤ ((s.link l).recent.filter (fun r => r.1 % 4 == p % 4 && decide (s.clk < r.2 + 1000))).length →
      ∃ t, exec (.laneFailure l p) s = .next t ∧ (t.link l).st = (s.link l).st ∧
        (t.link l).lostWaves = (s.link l).lostWaves ++ [(p % 4, s.clk)] ∧
        (∀ w ∈ (t.link l).waiting, ¬(w.msg = 4 ∧ w.lane % 4 = p % 4)) ∧ OtherLinks l s t ∧ Frame [.links] s t) ∧
    (s.unspared l ≠ [] →
      ∃ t, exec (.laneCtrlResend l) s = .next t ∧ (t.link l).st = .training ∧ (t.link l).fault = 0x12 ∧
        bit (t.ov faultStatusId) 1 = true ∧ OtherLinks l s t ∧ Frame [.links, .router, .steps, .obj, .flash] s t) ∧
    (∀ raw, let m := LaneMsg.of (flPayload raw)
      let used := (s.link l).spareTx ++ (s.link l).spareAckTx.map (fun q => (q.1, q.2.1))
      let fail := (s.link l).failTx ||| 2 ^ m.lane ||| lanesNot m.healthy
      s.looped l = false → goodFlit 5 raw → m.msg = 4 → m.lane < 16 → used.any (fun u => u.1 == m.lane) = false →
      (spareFree fail (used ++ s.spareLanes 5 l) m.lane = true →
        ∃ (t : State) (q : LaneMsg), exec (.spareReq l raw) s = .next t ∧
          (t.link l).spareAckTx = (s.link l).spareAckTx ++ [(m.lane, 16 + m.lane % 4, none)] ∧ (t.link l).failTx = fail ∧
          (t.link l).ctl = (s.link l).ctl ++ [5 :: q.bytes] ∧ q.msg = 5 ∧ q.seq = m.seq ∧ q.lane = m.lane ∧
          q.spare = 16 + m.lane % 4 ∧
          t.flash.queue = s.flash.queue ++ [.spare 5 (l * 20 + m.lane) (16 + m.lane % 4)] ∧ OtherLinks l s t ∧
          Frame [.links, .flash] s t) ∧
      (spareFree fail (used ++ s.spareLanes 5 l) m.lane = false →
        ∃ t, exec (.spareReq l raw) s = .next t ∧ (t.link l).st = .training ∧ (t.link l).fault = 0x12 ∧
          bit (t.ov faultStatusId) 1 = true ∧ OtherLinks l s t ∧
          Frame [.links, .router, .steps, .obj, .flash] s t)) ∧
    (∀ raw, let m := LaneMsg.of (flPayload raw)
      s.looped l = false → goodFlit 5 raw → m.msg = 5 →
        (s.link l).waiting.any (fun w => w.msg == 4 && w.lane == m.lane) = true →
      ∃ t, exec (.spareAck l raw) s = .next t ∧
        (t.link l).spareAckRx = (s.link l).spareAckRx ++ [(m.lane, m.spare, m.atRound)] ∧
        (∀ w ∈ (t.link l).waiting, ¬(w.msg = 4 ∧ w.lane = m.lane)) ∧ bit (t.ov faultStatusId) 0 = true ∧
        t.flash.queue.getLast? = some (.spare 1 (l * 20 + m.lane) m.spare) ∧ OtherLinks l s t ∧
        Frame [.links, .obj, .flash, .free] s t) ∧
    (∀ p q a rest, (s.link l).spareAckRx = (p, q, a) :: rest →
      ∃ t, exec (.atRoundChange l true) s = .next t ∧ (t.link l).spareRx = (s.link l).spareRx ++ [(p, q)] ∧
        (t.link l).laneRx = (s.link l).laneRx.map (fun x => if x = p then q else x) ∧
        (t.link l).spareAckRx = rest ∧ (t.link l).st = (s.link l).st ∧ OtherLinks l s t ∧ Frame [.links] s t) ∧
    (∀ p q a rest, (s.link l).spareAckTx = (p, q, some a) :: rest →
      ∃ t, exec (.atRoundChange l false) s = .next t ∧ (t.link l).spareTx = (s.link l).spareTx ++ [(p, q)] ∧
        (t.link l).laneTx = (s.link l).laneTx.map (fun x => if x = p then q else x) ∧
        (t.link l).spareAckTx = rest ∧ (t.link l).st = (s.link l).st ∧ OtherLinks l s t ∧ Frame [.links] s t) ∧
    (∀ w a, w < 4 → (w, a) ∈ (s.link l).lostWaves → a + 20000 ≤ s.clk →
      ∃ t, exec (.wavelengthTimeout l w) s = .next t ∧ (t.link l).st = .training ∧ (t.link l).fault = 0x12 ∧
        bit (t.ov faultStatusId) 1 = true ∧ OtherLinks l s t ∧ Frame [.links, .router, .steps, .obj, .flash] s t) ∧
    (∀ w a, w < 4 → (w, a) ∈ (s.link l).lostWaves →
      ∃ t, exec (.wavelengthRelock l w) s = .next t ∧ (t.link l).st = (s.link l).st ∧
        (∀ y, y ∈ (t.link l).lostWaves ↔ y ∈ (s.link l).lostWaves ∧ y.1 ≠ w) ∧ OtherLinks l s t ∧ Frame [.links] s t) ∧
    (∀ k, k < 4 → (s.link l).lasersFailed = [] → (s.link l).laserSpare = none → (s.link l).laserTuning = none →
      ∃ t, exec (.laserFailure l k) s = .next t ∧ (t.link l).st = (s.link l).st ∧ (t.link l).lasersFailed = [k] ∧
        (t.link l).laserTuning = some k ∧ OtherLinks l s t ∧ Frame [.links] s t) ∧
    (∀ k j, k < 4 → (s.link l).lasersFailed = [j] → k ≠ j →
      ∃ t, exec (.laserFailure l k) s = .next t ∧ (t.link l).st = .training ∧ (t.link l).fault = 0x13 ∧
        (t.link l).lasersFailed = [j, k] ∧ bit (t.ov faultStatusId) 1 = true ∧ OtherLinks l s t ∧
        Frame [.links, .router, .steps, .obj, .flash] s t) ∧
    (∀ k, (s.link l).laserTuning = some k →
      ∃ t, exec (.laserSpareLocked l) s = .next t ∧ (t.link l).laserTuning = none ∧ (t.link l).laserSpare = some k ∧
        (t.link l).st = (s.link l).st ∧ bit t.flash.service 3 = true ∧ bit (t.ov faultStatusId) 0 = true ∧
        OtherLinks l s t ∧ Frame [.links, .router, .host, .obj, .flash, .out, .free] s t)

/-- Flits: a DATA flit in order is buffered, one already accepted is dropped, one that answers a RESEND takes its old slot, a
gap, a failed CRC or a flit that R157 discards is answered with one NAK for the SEQ expected; every good flit releases retry
flits and returns credits; NAK and RESEND make the sender go back; a parity error asks for its flit again and counts;
FLIT_TRANSMIT sends one flit: a TIME flit first in its round, then control flits, flits sent again, and DATA; a looped link
sends no traffic and receives what it sends (07 R156 to R161, R178, 16 R385, 19 R467). -/
def Obligations.FlitsAreRetriedAndCredited : Prop :=
  ∀ (s : State) (l : Nat), s.wf = true → l < 6 → (s.link l).up = true →
    (∀ raw, s.looped l = false → goodFlit 1 raw →
      ((s.link l).parity = some (flSeq raw) →
        ∃ t, exec (.dataFlitReceive l raw true) s = .next t ∧ (t.link l).parity = none ∧ (t.link l).rx = (s.link l).rx ∧
          (t.link l).rxSeq = (s.link l).rxSeq ∧ (t.link l).ctl = (s.link l).ctl ∧ OtherLinks l s t ∧ Frame [.links] s t) ∧
      ((s.link l).parity ≠ some (flSeq raw) → flSeq raw = (s.link l).rxSeq →
        ∃ t c, exec (.dataFlitReceive l raw true) s = .next t ∧ (t.link l).rx = (s.link l).rx ++ [bufFlit raw c] ∧
          (t.link l).rxSeq = (flSeq raw + 1) % 65536 ∧ (t.link l).nakOpen = false ∧ (t.link l).ctl = (s.link l).ctl ∧
          OtherLinks l s t ∧ Frame [.links] s t) ∧
      ((s.link l).parity ≠ some (flSeq raw) → flSeq raw ≠ (s.link l).rxSeq →
        seq16Before (flSeq raw) (s.link l).rxSeq = true →
        ∃ t, exec (.dataFlitReceive l raw true) s = .next t ∧ (t.link l).rx = (s.link l).rx ∧
          (t.link l).rxSeq = (s.link l).rxSeq ∧ (t.link l).ctl = (s.link l).ctl ∧ OtherLinks l s t ∧
          Frame [.links] s t) ∧
      ((s.link l).parity ≠ some (flSeq raw) → flSeq raw ≠ (s.link l).rxSeq →
        seq16Before (flSeq raw) (s.link l).rxSeq = false → (s.link l).nakOpen = false →
        ∃ t, exec (.dataFlitReceive l raw true) s = .next t ∧ (t.link l).rx = (s.link l).rx ∧
          (t.link l).rxSeq = (s.link l).rxSeq ∧ (t.link l).nakOpen = true ∧
          (t.link l).ctl = (s.link l).ctl ++ [2 :: toLE 2 (s.link l).rxSeq] ∧ OtherLinks l s t ∧ Frame [.links] s t)) ∧
    (∀ raw k, s.looped l = false → (flCrcOk raw = false ∧ k = 0) ∨ (flCrcOk raw = true ∧ flBad raw = true ∧ k = 96) →
      ∃ t, exec (.dataFlitReceive l raw true) s = .next t ∧ (t.link l).rx = (s.link l).rx ∧ (t.link l).nakOpen = true ∧
        (t.link l).ctl = (if (s.link l).nakOpen then (s.link l).ctl
          else (s.link l).ctl ++ [2 :: toLE 2 (s.link l).rxSeq]) ∧
        bits (t.ov (linkErrId + l)) k 32 = min (bits (s.ov (linkErrId + l)) k 32 + 1) (2 ^ 32 - 1) ∧
        OtherLinks l s t ∧ Frame [.links, .obj] s t) ∧
    (∀ raw, s.looped l = false → goodFlit 0 raw →
      ∃ t, exec (.idleFlitReceive l raw) s = .next t ∧
        (∀ f, f ∈ (t.link l).retry ↔ f ∈ (s.link l).retry ∧ seq16Before f.seq (flAck raw) = false) ∧
        (t.link l).rx = (s.link l).rx ∧ (t.link l).rxSeq = (s.link l).rxSeq ∧ (t.link l).ctl = (s.link l).ctl ∧
        (31 = flCrClass raw → (t.link l).used = (s.link l).used) ∧
        (∀ n, flCrClass raw ≤ 24 → tget 0 (s.link l).used (flCrClass raw) = n → flCrCount raw < n →
          tget 0 (t.link l).used (flCrClass raw) = n - flCrCount raw) ∧ OtherLinks l s t ∧ Frame [.links] s t) ∧
    (∀ raw, s.looped l = false → goodFlit 2 raw → let n := bytesField (flPayload raw) 0 16
      ∃ t, exec (.nak l raw) s = .next t ∧
        (t.link l).again =
          ((s.link l).again.filter (fun q => !seq16Before q (flAck raw))).filter (fun q => seq16Before q n) ++
            ((t.link l).retry.filter (fun f => f.seq == n || seq16Before n f.seq)).map (·.seq) ∧
        (∀ f, f ∈ (t.link l).retry ↔ f ∈ (s.link l).retry ∧ seq16Before f.seq (flAck raw) = false) ∧
        (t.link l).rx = (s.link l).rx ∧ (t.link l).txSeq = (s.link l).txSeq ∧ OtherLinks l s t ∧ Frame [.links] s t) ∧
    (∀ raw f, s.looped l = false → goodFlit 3 raw → f ∈ (s.link l).retry → f.seq = bytesField (flPayload raw) 0 16 →
      seq16Before f.seq (flAck raw) = false →
      ∃ t, exec (.resend l raw) s = .next t ∧ (t.link l).again.head? = some f.seq ∧ f ∈ (t.link l).retry ∧
        OtherLinks l s t ∧ Frame [.links] s t) ∧
    ((s.link l).nakOpen = true →
      ∃ t, exec (.nakRepeat l) s = .next t ∧ (t.link l).nakOpen = true ∧
        (t.link l).ctl = (s.link l).ctl ++ [2 :: toLE 2 (s.link l).rxSeq] ++ (match (s.link l).parity with
          | some q => [3 :: toLE 2 q]
          | none => []) ∧
        (t.link l).rx = (s.link l).rx ∧ OtherLinks l s t ∧ Frame [.links] s t) ∧
    (∀ f fs, (s.link l).rx = f :: fs → (s.link l).parity = none →
      ∃ t, exec (.routerParityError l) s = .next t ∧ (t.link l).parity = some f.seq ∧ (t.link l).rx = (s.link l).rx ∧
        (t.link l).ctl = (s.link l).ctl ++ [3 :: toLE 2 f.seq] ∧ bit (t.ov faultStatusId) 0 = true ∧
        t.ov (ceCountId + 4) = min (s.ov (ceCountId + 4) + 1) (2 ^ 32 - 1) ∧ OtherLinks l s t ∧
        Frame [.links, .obj, .flash, .free] s t) ∧
    (let time := if (s.link l).lastRound = s.rounds l + 1 then none else (s.link l).ctl.find? isTimeFlit
      let msg := (s.link l).ctl.find? (fun c => !isTimeFlit c)
      (s.looped l = true → ∃ t raw, exec (.flitTransmit l) s = .next t ∧ t = (s.flitOut l).loopIn l raw ∧
        ((s.flitOut l).link l).wire = (s.link l).wire ++ [raw] ∧ ((s.flitOut l).link l).out = (s.link l).out ∧
        ((s.flitOut l).link l).retry = (s.link l).retry ∧ ((s.flitOut l).link l).again = (s.link l).again) ∧
      (s.looped l = false → ∃ t, exec (.flitTransmit l) s = .next t ∧ (t.link l).wire.length = (s.link l).wire.length + 1 ∧
      (∀ c, time = some c ∨ (time = none ∧ msg = some c) →
        (t.link l).ctl = dropFirst (fun d => d == c) (s.link l).ctl ∧ (t.link l).retry = (s.link l).retry ∧
        (t.link l).again = (s.link l).again ∧ (t.link l).out = (s.link l).out) ∧
      (time = none → msg = none → ∀ q qs, (s.link l).again = q :: qs →
        (t.link l).again = qs ∧ (t.link l).retry = (s.link l).retry ∧ (t.link l).out = (s.link l).out) ∧
      (∀ o c, time = none → msg = none → (s.link l).again = [] → (s.link l).retry.length < 4096 →
        (s.link l).arbitrate = some (o, c) →
        ∃ f, (t.link l).retry = (s.link l).retry ++ [f] ∧ f.seq = (s.link l).txSeq ∧ f.vc = o.pkt.vc ∧
          f.data = ((pktBytes o.pkt).drop (244 * o.sent)).take 244 ∧
          (t.link l).txSeq = ((s.link l).txSeq + 1) % 65536 ∧
          tget 0 (t.link l).used c = tget 0 (s.link l).used c + 1) ∧
      OtherLinks l s t ∧ Frame [.ft, .links] s t))

/-- Routing, while the main rails are up: the first packet of an input queue, at the hub port that of the unit whose turn it
is, is delivered where DEST is this module (a chunk to the reduction unit, any other packet to the queue of its output port),
joins the output queue of its next link in dimension order with HOPS and DL set, is discarded with ROUTE_ERR_COUNT where its
header is wrong, and with LINK_DROP_COUNT where the link is DOWN; a packet for a block's tree does both at every branch; whole
packets of a receive buffer go the same way, but for chunks; the next packet of the output port, VC0 first, reaches its unit;
a FAULT_NOTICE fails the step it names (01 R17, R18, 07 R159, R172, R188, 13 R326, 16 R387, R388); that a packet waits for its
own command there is the model's form (log 11). -/
def Obligations.PacketsAreRouted : Prop :=
  ∀ s : State, s.wf = true →
    (∀ port, port < 13 → s.power.rails = false → exec (.packetRoute port) s = .next s) ∧
    (∀ port key p ps, port < 13 → s.power.rails = true →
      (port ≠ portHub ∧ key = port) ∨ (∃ u, u < 6 ∧ port = portHub ∧ key = hubGddr + u ∧
        ((∀ v, v < 6 → v ≠ u → tget [] s.router.inj (hubGddr + v) = []) ∨
          (s.router.hubTurn = some (u, p) ∧ pktFlits p ≤ tget 0 s.router.hubSent u + 1))) →
      tget [] s.router.inj key = p :: ps →
      let out := s.router.delivered ++ ((s.router.outNext port).map (·.pkt)).toList
      (s.routeBad p = true →
        ∃ t, exec (.packetRoute port) s = .next t ∧ tget [] t.router.inj key = ps ∧ t.router.delivered = out ∧
          t.ov routeErrCountId = min (s.ov routeErrCountId + 1) (2 ^ 32 - 1) ∧ Frame [.router, .obj] s t) ∧
      (s.routeBad p = false → isTree p = false → s.exitLink p = none →
        ∃ t, exec (.packetRoute port) s = .next t ∧ tget [] t.router.inj key = ps ∧
          (s.isChunk p = true → t.router.delivered = out ++ [p]) ∧
          (s.isChunk p = false → t.router.delivered = out ∧
            tget [] t.router.outq (outPort p) = outEnqueue p (tget [] (s.outServe port).router.outq (outPort p)) ∧
            t.router.arrived = s.router.arrived ++ (if isUpdate p then [p] else [])) ∧ Frame [.router] s t) ∧
      (∀ l, s.routeBad p = false → isTree p = false → s.exitLink p = some l → (s.link l).up = true →
        ∃ t, exec (.packetRoute port) s = .next t ∧ tget [] t.router.inj key = ps ∧
          t.link l = { s.link l with out := outEnqueue (s.hop port l p) (s.link l).out } ∧ OtherLinks l s t ∧
          t.router.delivered = out ∧ Frame [.router, .links] s t) ∧
      (∀ l, s.routeBad p = false → isTree p = false → s.exitLink p = some l → (s.link l).st = .down →
        ∃ t, exec (.packetRoute port) s = .next t ∧ t.links = s.links ∧ t.router.delivered = out ∧
          t.ov (linkDropCountId + l) = min (s.ov (linkDropCountId + l) + 1) (2 ^ 32 - 1) ∧
          Frame [.router, .obj, .flash] s t) ∧
      (s.routeBad p = false → isTree p = true → (∀ l ∈ s.branches p, (s.link l).up = true) →
        ∃ t, exec (.packetRoute port) s = .next t ∧ tget [] t.router.inj key = ps ∧
          tget [] t.router.outq (outPort p) = outEnqueue p (tget [] (s.outServe port).router.outq (outPort p)) ∧
          (∀ l ∈ s.branches p, t.link l = { s.link l with out := outEnqueue (s.hop port l p) (s.link l).out }) ∧
          (∀ l, l ∉ s.branches p → t.link l = s.link l) ∧ Frame [.router, .links] s t)) ∧
    (∀ port, port < 13 → s.power.rails = true → ∀ p, s.router.outNext port = some p →
      ∃ t, exec (.packetRoute port) s = .next t ∧ p.pkt ∈ t.router.delivered ∧
        (p.pkt.vc = 0 ∨ ∀ q ∈ tget [] s.router.outq port, q.pkt.vc ≠ 0)) ∧
    (∀ l fs, l < 6 → s.power.rails = true → tget [] s.router.inj l = [] → s.readable l = some fs →
      s.routeBad (packetFrom fs) = false → isTree (packetFrom fs) = false → s.exitLink (packetFrom fs) = none →
      s.isChunk (packetFrom fs) = false →
      ∃ t, exec (.packetRoute l) s = .next t ∧
        tget [] t.router.outq (outPort (packetFrom fs)) =
          outEnqueue (packetFrom fs) (tget [] (s.outServe l).router.outq (outPort (packetFrom fs))) ∧
        (t.link l).rx = dropFlits (s.link l).rx fs ∧ OtherLinks l s t ∧ Frame [.router, .links] s t) ∧
    (∀ l, l < 6 → tget [] s.router.inj l = [] → s.readable l = none →
      ∃ t, exec (.packetRoute l) s = .next t ∧ t.links = s.links ∧ Frame [.router] s t) ∧
    (∀ p : Packet, p.wf = true → s.power.rails = true → s.stepsOn (p.field 16 4) = true → (s.stp (p.field 16 4)).st = .running →
      ∃ t, exec (.faultNotice p) s = .next t ∧
        (t.stp (p.field 16 4)).latch = some ((s.stp (p.field 16 4)).latch.getD 2) ∧
        (t.stp (p.field 16 4)).st = .running ∧ bit (t.ov faultStatusId) 1 = true ∧
        (∀ c, c ≠ p.field 16 4 → t.stp c = s.stp c) ∧ Frame [.router, .steps, .obj, .flash] s t)

/-- Fabric time: an exchange sends a request whose T1 is the reading of fabric time as it leaves, and is answered with T1 and
T2, T3 to follow as the reply leaves; a reply gives its link the offset of R178, and the 64th in a row within 10 ns of the
parent locks the unit; a module without a parent takes the link toward the root, or else the least deep neighbour that reports
STATE 10b, and holds over after 1 ms without one (01 R22, 07 R177 to R180). -/
def Obligations.FabricTimeFollowsItsParent : Prop :=
  ∀ s : State, s.wf = true →
    (∀ l, l < 6 → (s.link l).up = true →
      ∃ t, exec (.timeExchangeStart l) s = .next t ∧ tget? t.ft.exch l = some ⟨s.ft.nextSeq, none⟩ ∧
        t.ft.nextSeq = (s.ft.nextSeq + 1) % 65536 ∧ t.ft.now = s.ft.now ∧
        (t.link l).ctl = (s.link l).ctl.filter (fun c => !isTimeRequest c) ++ [4 :: s.timeBody s.ft.nextSeq 0 0 0 0] ∧
        OtherLinks l s t ∧ Frame [.ft, .links] s t) ∧
    (∀ l c, l < 6 → (s.link l).lastRound ≠ s.rounds l + 1 → (s.link l).ctl.find? isTimeFlit = some c → s.looped l = false →
      let b := bytesField (c.drop 1)
      (∀ e, b 16 1 = 0 → tget? s.ft.exch l = some e → e.seq = b 0 16 →
        ∃ (t : State) (raw : List Byte), exec (.flitTransmit l) s = .next t ∧
          tget? t.ft.exch l = some ⟨e.seq, some (s.ftRead linkPs)⟩ ∧
          (t.link l).wire = (s.link l).wire ++ [raw] ∧ flPayload raw = padTo 244 (s.timeBody (b 0 16) 0 (s.ftRead linkPs) 0 0) ∧
          OtherLinks l s t ∧ Frame [.ft, .links] s t) ∧
      (b 16 1 = 1 →
        ∃ (t : State) (raw : List Byte), exec (.flitTransmit l) s = .next t ∧ (t.link l).wire = (s.link l).wire ++ [raw] ∧
          flPayload raw = padTo 244 (s.timeBody (b 0 16) 1 (b 64 64) (b 128 64) (s.ftRead linkPs)) ∧
          OtherLinks l s t ∧ Frame [.links] s t)) ∧
    (∀ l raw, let x := bytesField (flPayload raw)
      l < 6 → (s.link l).up = true → s.looped l = false → goodFlit 4 raw →
      (x 16 1 = 0 →
        ∃ t, exec (.timeFlitReceive l raw) s = .next t ∧ t.ft.now = s.ft.now ∧
          (t.link l).ctl = (s.link l).ctl ++ [4 :: t.timeBody (x 0 16) 1 (x 64 64) (s.ftRead linkPs) 0] ∧
          (∃ n, tget? t.ft.nbr l = some n ∧ n.state = x 17 2 ∧ n.depth = x 19 6) ∧ OtherLinks l s t ∧
          Frame [.ft, .links] s t) ∧
      (∀ e t1, x 16 1 = 1 → tget? s.ft.exch l = some e → e.seq = x 0 16 → e.t1 = some t1 →
        let o := timeOffset t1 (x 128 64) (x 192 64) (s.ftRead linkPs) (sext 32 (s.ov (ftAsymId + l)))
        ∃ t, exec (.timeFlitReceive l raw) s = .next t ∧ tget? t.ft.exch l = none ∧
          tget? t.ft.nbr l = some ⟨x 17 2, x 19 6, some o⟩ ∧
          (s.ft.parent = some l → s.rootLink = some l → s.isTimeRoot = false → x 17 2 = 2 →
            t.ft.parent = some l ∧ t.ft.offset = satOffset o ∧
            (s.ft.st = .acquiring → s.ft.moved = true → s.ft.inLock = 63 → -10000 ≤ o → o ≤ 10000 →
              t.ft.st = .locked) ∧
            (s.ft.st = .acquiring → ¬(-10000 ≤ o ∧ o ≤ 10000) → t.ft.st = .acquiring ∧ t.ft.inLock = 0)) ∧
          Frame [.ft, .links] s t)) ∧
    (∀ l, s.isTimeRoot = false → s.ft.parent = none → s.bestParent = some l →
      (s.rootLink = none ∨ (∃ k, s.rootLink = some k ∧ s.canParent k = false)) →
      ∃ t, exec .ftParentReselect s = .next t ∧ t.ft.parent = some l ∧ t.ft.depth = min (s.nbrDepth l + 1) 63 ∧
        t.ft.st = (if s.ft.st = .free then .acquiring else s.ft.st) ∧ t.ft.now = s.ft.now ∧ Frame [.ft] s t) ∧
    (∀ l, s.isTimeRoot = false → s.ft.parent = none → s.rootLink = some l → s.canParent l = true →
      ∃ t, exec .ftParentReselect s = .next t ∧ t.ft.parent = some l ∧ t.ft.depth = min (s.nbrDepth l + 1) 63 ∧
        Frame [.ft] s t) ∧
    (∀ a, s.ft.parent = none → s.ft.lostAt = some a → s.ft.st = .locked ∨ s.ft.st = .acquiring →
      a + 1000000 ≤ s.ft.now →
      ∃ t, exec .ftHoldoverEntry s = .next t ∧ t = { s with ft := { s.ft with st := .holdover, inLock := 0 } })

/-- Acceptance: the tile that the scheduler chooses for a core leaves its list and its TAKE counts are taken; a tile that no
check refuses joins the core's accepted tiles: a MATMUL tile takes the lowest FREE slot, at +0 and ACCUMULATING once the tile
computes, or its chain's HELD slot with its entries, an UPDATE tile has its hyperparameters latched, a POST tile its rows
posted while there is room; a refused one, and one whose wait does not translate or whose round is overrun, leaves its list
without joining them and fails a running step, a refused one with its status in its record; a tile whose sparse header at a
peer has not come stays listed. No error of a memory waits to be met (log 9) (04 R89, R96, 05 R101, R107 to R111, R121, 06
R140, 08 R187, 10 R241, 05 R494). -/
def Obligations.TilesAreAccepted : Prop :=
  ∀ (s : State) (n : Nat) (e : Entry), s.wf = true → n < 256 → s.mem.found = [] →
    let types := [(Instr.matmul n, 0), (Instr.vector n, 1), (Instr.copy n, 2), (Instr.emit n, 3), (Instr.update n, 4),
      (Instr.send n, 5), (Instr.post n, 7)]
    let v := (s.notice.unlist e).takeWaits e
    let d := e.desc
    let parts := [Part.cores, .sched, .sync, .urn, .fab, .router, .obj, .tele]
    (s.notice.choose n = some e → (s.notice.hdrCauses n e).any (fun c => isMiss c.1) = false → v.refusal n e = 0 →
      (∀ p ∈ [(Instr.vector n, 1), (Instr.copy n, 2), (Instr.send n, 5)], dType d = p.2 →
        s.notice.badWait n p.2 = none →
        ∃ t x, exec p.1 s = .next t ∧ s.Takes t n e x ∧ x = (v.newTile n e none).plain ∧ t.sync = v.sync ∧ Frame parts s t) ∧
      (dType d = 4 → s.notice.badWait n 4 = none →
        ∃ t x, exec (.update n) s = .next t ∧ s.Takes t n e x ∧ x.latched = s.loadDev (dWord d 3) 64 ∧ x.desc = d ∧
          t.sync = v.sync ∧ Frame parts s t) ∧
      (dType d = 7 → s.notice.badWait n 7 = none → (v.newTile n e none).status = 0 → s.sched.nextSeq < 2 ^ 47 →
        ∃ t x, exec (.post n) s = .next t ∧ (t.core n).tiles.getLast? = some x ∧ x.desc = d ∧ x.row ≤ x.mEff ∧
          t.sched.nextSeq = s.sched.nextSeq + x.row ∧ (x.row = x.mEff → x.stage = .storing) ∧
          (x.row < x.mEff → x.stage = .posting ∧ t.post e.ctx (postTarget x)
            (descOf (v.source 0 e.ctx e.seq x.evalC false (s.tensAt (dWord d 2))
              ((s.tensAt (dWord d 2)).base + (dRow0 d + x.row) * (s.tensAt (dWord d 2)).stride1) 128).1) = none) ∧
          OtherCores n s t ∧ Frame parts s t) ∧
      (dType d = 0 → s.notice.badWait n 0 = none →
        (∀ i, dAccMode d ≠ 2 → (s.core n).freeSlot = some i →
          ∃ t x, exec (.matmul n) s = .next t ∧ s.Takes t n e x ∧ x.desc = d ∧ x.slot = some i ∧
            ((t.core n).slot i).st ∈ [SlotSt.init, .accumulating] ∧
            (x.stage = .computing → ((t.core n).slot i).st = .accumulating) ∧
            ((t.core n).slot i).entries = [] ∧ ((t.core n).slot i).terms = 0 ∧
            ((t.core n).slot i).ctx = e.ctx ∧ ((t.core n).slot i).chain = dChain d ∧ t.sync = v.sync ∧ Frame parts s t) ∧
        (∀ i, dAccMode d = 2 → (s.core n).chainSlot e.ctx (dChain d) = some i →
          ∃ t x, exec (.matmul n) s = .next t ∧ s.Takes t n e x ∧ x.desc = d ∧ x.slot = some i ∧
            (t.core n).slot i = { (s.core n).slot i with st := .accumulating, tile := dTileId d } ∧ t.sync = v.sync ∧
            Frame parts s t))) ∧
    (s.notice.choose n = some e → (s.notice.hdrCauses n e).any (fun c => isMiss c.1) = false → v.refusal n e ≠ 0 →
      ∀ p ∈ types, (dType d = p.2 ∨ 8 ≤ dType d) → s.notice.badWait n p.2 = none →
        let q := s.page e.ctx
        let a := s.ov (cplRingBaseId + e.ctx) + 32 * q.cplTail
        ∃ t, exec p.1 s = .next t ∧ t.cores = s.cores ∧ (∀ y ∈ t.dieList e.die, y.seq ≠ e.seq) ∧ s.Failed t e.ctx ∧
          ((q.cplTail + 1) % s.ov (cplRingEntriesId + e.ctx) ≠ q.cplHead → s.anyUnmapped a 32 = false →
            t.memByte (a + 4) = BitVec.ofNat 8 (v.refusal n e)) ∧
          Frame [.sched, .sync, .mem, .urn, .fab, .router, .host, .steps, .obj, .out] s t) ∧
    (∀ p ∈ types, ∀ c, s.notice.badWait n p.2 = some (e, c) →
      ∃ t, exec p.1 s = .next t ∧ t.cores = s.cores ∧ (∀ y ∈ t.dieList e.die, y.seq ≠ e.seq) ∧ s.Failed t e.ctx ∧
        Frame [.sched, .sync, .mem, .urn, .fab, .router, .host, .steps, .obj, .out] s t) ∧
    (s.notice.choose n = some e → (s.notice.hdrCauses n e).any (fun c => isMiss c.1) = true →
      ∀ p ∈ types, (dType d = p.2 ∨ 8 ≤ dType d) → s.notice.badWait n p.2 = none →
        ∃ t, exec p.1 s = .next t ∧ t.sched = s.notice.sched ∧ Frame [.sched, .urn, .fab, .router] s t)

/-- An accepted tile goes on: computing rounds every group of a MATMUL tile into its slot, which drains, and leaves it to its
epilogue, any other tile to its stores; the epilogue forms its outputs, leaves its slot HELD for its chain or FREE, and leaves
it to its stores; then the stores are applied, and the tile waits for the acknowledgements of its writes at peers, or leaves
its core with SIGNAL0 and SIGNAL1 applied, an UPDATE tile counted; a tile that misses bytes of a peer stays and asks for
them (04 R89, R96, R97, 05 R98 to R100, R108, 10 R254, 14 R335). -/
def Obligations.TilesProgressToTheirEnd : Prop :=
  ∀ (s : State) (n idx : Nat) (x : Tile), s.wf = true → n < 256 → idx < 4 → (s.core n).tiles[idx]? = some x →
    (x.stage = .computing → (s.core n).idleQ = false →
      (∀ i, dType x.desc = 0 → x.slot = some i →
        let r := s.mmRun n x ((s.core n).slot i) x.kEff
        (r.2.1.misses = false →
          ∃ t y, exec (.tileComputeDone n idx []) s = .next t ∧ (t.core n).tiles[idx]? = some y ∧ y = r.2.1.computed ∧
            y.stage = .epilogue ∧ y.kDone = x.kEff ∧ (t.core n).slot i = { r.2.2 with st := .draining } ∧
            OtherCores n s t ∧ Frame [.cores, .fab, .obj] s t) ∧
        (r.2.1.misses = true →
          ∃ t, exec (.tileComputeDone n idx []) s = .next t ∧ (t.core n).tiles[idx]? = some x ∧ OtherCores n s t ∧
            Frame [.cores, .fab, .router] s t)) ∧
      (∀ p ∈ [(1, s.vecRun n x), (2, s.copyRun n x), (4, s.updRun n x)], dType x.desc = p.1 →
        (p.2.2.misses = false →
          ∃ t y, exec (.tileComputeDone n idx []) s = .next t ∧ (t.core n).tiles[idx]? = some y ∧ y = p.2.2.computed ∧
            y.stage = .storing ∧ OtherCores n s t ∧ Frame [.cores, .fab, .obj] s t) ∧
        (p.2.2.misses = true →
          ∃ t, exec (.tileComputeDone n idx []) s = .next t ∧ (t.core n).tiles[idx]? = some x ∧ OtherCores n s t ∧
            Frame [.cores, .fab, .router] s t))) ∧
    (∀ i, x.stage = .epilogue → (s.core n).idleQ = false → x.slot = some i →
      ((s.core n).tiles.take idx).any (fun y => y.stage == .epilogue) = false →
      let r := s.epiRun n x ((s.core n).slot i)
      (r.2.misses = false → twf Slot.free (s.core n).slots = true →
        ∃ t, exec (.tileEpilogueDone n idx []) s = .next t ∧
          (t.core n).tiles[idx]? = some { r.2 with stage := .storing, slot := none } ∧
          (t.core n).slot i = (if dHold x.desc then { (s.core n).slot i with st := .held, chain := dChain x.desc } else .free) ∧
          OtherCores n s t ∧ Frame [.cores, .fab, .obj] s t) ∧
      (r.2.misses = true →
        ∃ t, exec (.tileEpilogueDone n idx []) s = .next t ∧ (t.core n).tiles[idx]? = some x ∧ OtherCores n s t ∧
          Frame [.cores, .fab, .router] s t)) ∧
    (let r := State.applyStores n x.ctx x.seq x.stores (s.noteNorm x)
     x.stage = .storing → s.forbidden x = [] → s.mem.found = [] →
      (r.1.acksOpen n x = true →
        ∃ t y, exec (.tileStoresDone n idx) s = .next t ∧ (t.core n).tiles[idx]? = some y ∧
          y = { x with causes := x.causes ++ r.2, stores := [], stage := .acking } ∧ t.sync = s.sync ∧ t.mem = r.1.mem ∧
          OtherCores n s t ∧ Frame [.cores, .mem, .urn, .fab, .router, .steps, .obj] s t) ∧
      (r.1.acksOpen n x = false → x.status = 0 → x.causes = [] → x.frees = [] → r.2 = [] → dCplAlways x.desc = false →
        x.flags = 0 → twf Slot.free (s.core n).slots = true →
        ∃ t, exec (.tileStoresDone n idx) s = .next t ∧ t.mem = r.1.mem ∧
          (∀ y ∈ (t.core n).tiles, ¬(y.seq = x.seq ∧ y.ctx = x.ctx)) ∧
          (∀ i, x.slot = some i → (t.core n).slot i = (if dHold x.desc
            then { (s.core n).slot i with st := .held, chain := dChain x.desc } else .free)) ∧
          t.sync = ((r.1.signalWord x.ctx (dSignal x.desc 0)).signalWord x.ctx (dSignal x.desc 1)).sync ∧
          (t.stp x.ctx).updates = (s.stp x.ctx).updates + (if dType x.desc = 4 then 1 else 0) ∧
          (∀ a b op, x.stores = [(0, 0, a, b, op)] → s.anyUnmapped a b.length = false →
            (∀ j c, b[j]? = some c → t.memByte (a + j) = c) ∧
            ∀ j, j < a ∨ a + b.length ≤ j → t.memByte j = s.memByte j) ∧
          OtherCores n s t ∧ Frame [.cores, .sync, .mem, .urn, .fab, .router, .steps, .obj] s t))

/-- The lists: a POST tile posts its waiting row when there is room and waits on else, and in a forced-idle quantum; the oldest
overflow entry of a die moves to its list when that has room; a chain tile whose chain no core of its die holds leaves its list
with CHAIN_MISSING, or the status of an earlier check, in its record, and fails a running step.
Context switches: where no other context is ready the slice restarts; else the core stops accepting, a tile that has
begun nothing returns to its list with its waits taken, and a MATMUL tile that computes stops at a group boundary and stands
suspended with its slot; once its tiles are gone the save-area header is written, and the incoming context runs with its
suspended tiles (03 R67 to R70, 05 R101, R109 to R111, R118 to R121). -/
def Obligations.ListsAndContextsMove : Prop :=
  (∀ s : State, s.wf = true →
     (∀ n x, n < 256 → (s.core n).tiles = [x] → x.stage = .posting → x.row < x.mEff →
       let w := s.tensAt (dWord x.desc 2)
       let a := w.base + (dRow0 x.desc + x.row) * w.stride1
       let d := descOf (lostBytes s.lostNow (s.source 0 x.ctx x.seq x.evalC false w a 128).1)
       ((s.core n).idleQ = true → exec (.postRetry n) s = .next s) ∧
       ((s.core n).idleQ = false → s.post x.ctx (postTarget x) d = none →
         ∃ t, exec (.postRetry n) s = .next t ∧ (t.core n).tiles = [x] ∧ OtherCores n s t ∧ Frame [.cores] s t) ∧
       (∀ u, (s.core n).idleQ = false → s.post x.ctx (postTarget x) d = some u →
         x.row + 1 = x.mEff →
         ∃ t y, exec (.postRetry n) s = .next t ∧ (t.core n).tiles = [y] ∧ y.row = x.mEff ∧ y.stage = .storing ∧
           y.desc = x.desc ∧ t.sched = u.sched ∧ OtherCores n s t ∧ Frame [.cores, .sched] s t)) ∧
     (∀ d e, d < 4 → (s.sched.overflow.filter (fun y => y.die == d)).head? = some e → (s.dieList d).length < 4096 →
       ∃ t, exec (.overflowMove d) s = .next t ∧ t.dieList d = insertEntry e (s.dieList d) ∧
         t.sched.overflow = s.sched.overflow.filter (fun y => y.seq != e.seq) ∧
         (∀ k, k ≠ d → t.dieList k = s.dieList k) ∧ Frame [.sched] s t) ∧
     (∀ d e, d < 4 → s.missing d = some e → e.die = d →
       let v := (s.unlist e).takeWaits e
       let st := if v.refusal17 (64 * d) e = 0 then stMissing else v.refusal17 (64 * d) e
       let q := s.page e.ctx
       let a := s.ov (cplRingBaseId + e.ctx) + 32 * q.cplTail
       let p := (q.cplTail + 1) % s.ov (cplRingEntriesId + e.ctx)
       ∃ t, exec (.chainMissing d) s = .next t ∧ (∀ y ∈ t.dieList d, y.seq ≠ e.seq) ∧
         (∀ k, k ≠ d → t.dieList k = s.dieList k) ∧ s.Failed t e.ctx ∧
         (p ≠ q.cplHead → (t.page e.ctx).cplTail = p ∧
           (s.anyUnmapped a 32 = false → t.memByte (a + 4) = BitVec.ofNat 8 st)) ∧
         Frame [.sched, .sync, .mem, .fab, .router, .host, .steps, .obj, .out] s t)) ∧
  (∀ (s : State) (n : Nat), s.wf = true → n < 256 →
     (∀ stops, s.power.rails = true → (s.core n).switchTo = none →
       (s.core n).sliceAt + s.ov ctxSliceId * 1000 ≤ s.ftRead (s.diePs (dieOf n)) →
       let v := (s.modCore n ({ · with wake := true })).notice
       let next := (ctxFrom (s.core n).ctx).filter (v.ctxReady n)
       (next = [] →
         ∃ t, exec (.ctxSliceExpiry n stops) s = .next t ∧
           t.core n = { s.core n with wake := true, sliceAt := s.ftRead (s.diePs (dieOf n)) } ∧
           OtherCores n s t ∧ Frame [.cores, .sched, .urn, .router] s t) ∧
       (∀ m, next.head? = some m → (s.core n).tiles = [] →
         ∃ t, exec (.ctxSliceExpiry n stops) s = .next t ∧ t.core n = { s.core n with wake := true, switchTo := some m } ∧
           OtherCores n s t ∧ Frame [.cores, .sched, .urn, .router] s t) ∧
       (∀ m x, next.head? = some m → (s.core n).tiles = [x] → x.begun = false → x.stage = .computing → x.slot = none →
         stops = [] →
         ∃ t e, exec (.ctxSliceExpiry n stops) s = .next t ∧
           t.core n = { s.core n with wake := true, switchTo := some m, tiles := [] } ∧ e ∈ t.dieList x.die ∧
           e.desc = x.desc ∧ e.ctx = x.ctx ∧ e.seq = x.seq ∧ e.taken = true ∧ OtherCores n s t ∧
           Frame [.cores, .sched, .urn, .fab, .router] s t) ∧
       (∀ m x i, next.head? = some m → (s.core n).tiles = [x] → dType x.desc = 0 → x.begun = true →
         x.stage = .computing → x.slot = some i → ((s.core n).slot i).st = .accumulating →
         let w := v.modCore n ({ · with switchTo := some m })
         let r := w.mmRun n x ((s.core n).slot i) (max x.kDone (boundary (w.mmGroup x) x.kEff (stops.getD 0 0)))
         r.2.1.misses = false →
         ∃ t, exec (.ctxSliceExpiry n stops) s = .next t ∧ (t.core n).tiles = [] ∧
           (t.core n).suspended = (s.core n).suspended ++ [{ r.2.1 with stage := .stopped }] ∧
           (t.core n).slot i = r.2.2 ∧ (t.core n).switchTo = some m ∧ OtherCores n s t ∧
           Frame [.cores, .sched, .urn, .fab, .router, .obj] s t) ∧
       (∀ m x i, next.head? = some m → (s.core n).tiles = [x] → dType x.desc = 0 → x.begun = false → x.stage = .stopped →
         x.slot = some i → ((s.core n).slot i).st = .accumulating → 0 < stops.getD 0 0 →
         let w := v.modCore n ({ · with switchTo := some m })
         let r := w.mmRun n x ((s.core n).slot i) (max x.kDone (boundary (w.mmGroup x) x.kEff (stops.getD 0 0)))
         r.2.1.misses = false →
         ∃ t, exec (.ctxSliceExpiry n stops) s = .next t ∧ (t.core n).tiles = [] ∧
           (t.core n).suspended = (s.core n).suspended ++ [{ r.2.1 with stage := .stopped }] ∧
           (t.core n).slot i = r.2.2 ∧ OtherCores n s t)) ∧
     (∀ m, let c := s.core n
       let a := s.saveArea c.ctx n
       c.switchTo = some m → c.tiles = [] → c.slots = [] → m ≠ c.ctx → c.savedHeld.contains m = false →
       ∃ t, exec (.contextSwitchDone n) s = .next t ∧ (t.core n).ctx = m ∧ (t.core n).switchTo = none ∧
         (t.core n).sliceAt = s.ftRead (s.diePs (dieOf n)) ∧ (t.core n).tiles = c.suspended.filter (fun x => x.ctx == m) ∧
         (t.core n).suspended = c.suspended.filter (fun x => x.ctx != m) ∧ (t.core n).slots = [] ∧
         (s.anyUnmapped a 256 = false → a % 64 = 0 → t.loadDev a 256 = saveHeader c n []) ∧ OtherCores n s t ∧
         Frame [.cores, .mem] s t))

/-- EXCHANGE tiles: the exchange engine first goes on with a tile that waited for bytes of peers, then claims by priority and
age; ADMIT opens its exchange with the tokens read and asks every home with COUNT; DISPATCH sends each admitted row to its
replica and RETURN each row to its source; COMBINE writes its rows; OPEN_BWD opens the backward exchange; a tile that misses
bytes of a peer waits for them; a tile of empty shape ends without effect; one refused by a check, without a valid group, or
whose exchange is already open ends and fails a running step, the last two with an entry in EXCH_ERR_LOG. That ADMIT and
OPEN_BWD tiles end with their exchange is the model's reading (log 21) (09 R204, R207 to R210, R220 to R223, R229). -/
def Obligations.ExchangeTilesRun : Prop :=
  ∀ (s : State) (e : Entry), s.wf = true →
    pickBy xBefore (((List.range 4).flatMap s.notice.dieList).filter s.notice.txeReady) = some e →
    let v := (s.notice.unlist e).takeWaits e
    let d := e.desc
    let x := v.newTxe e
    let u := (v.urnTileFlags d (v.urnCauses e.ctx d)).evalNote x.evalC
    let cfg := s.layerCfg (xLayer d)
    let o := fun i => u.xOp x i
    let gone := fun (t : State) => ∀ y ∈ t.dieList e.die, y.seq ≠ e.seq
    let empty : Prop := x.mEff = 0 ∨ x.nEff = 0
    let kinds := [(Instr.exchAdmit, 0), (.dispatch, 1), (.exchReturn, 2), (.combine, 3), (.openBwd, 4)]
    let reused : Prop := (xKind d = 0 ∨ xKind d = 4) ∧ (s.exch e.ctx (xId d) (xKind d == 4)).isSome = true
    let misses := fun (cs : List (Nat × Nat)) => cs.any (fun q => isMiss q.1)
    let kept := fun (t : State) => t.txe.opens = s.txe.opens ∧
      ∃ y ∈ t.txe.busy, y.ctx = e.ctx ∧ y.seq = e.seq ∧ y.acking = false
    s.notice.badWaitX (xKind d) = none → s.mem.found = [] → s.writesOpen txeCore e.ctx e.seq = false →
    (∀ p ∈ kinds, xKind d = p.2 → (s.notice.heldX p.2 ≠ none ∨ s.notice.unreadX p.2 ≠ none) →
      ∃ t, exec p.1 s = .next t ∧ t.sched = s.notice.sched) ∧
    (s.notice.heldX (xKind d) = none → s.notice.unreadX (xKind d) = none →
      (∀ p ∈ kinds, xKind d = p.2 → v.refusal17 0 e = 0 → empty →
        ∃ t, exec p.1 s = .next t ∧ gone t ∧ t.txe = s.txe ∧
          Frame [.sched, .sync, .mem, .urn, .fab, .router, .host, .steps, .obj, .tele, .out] s t) ∧
      (v.refusal17 0 e = 0 → ¬empty → (s.exchGroup e.ctx cfg).isSome = true →
        (xKind d = 0 → s.exch e.ctx (xId d) false = none →
          (misses (u.readTokens x (u.xTokens x)).2 = false → s.homes cfg ≠ [] →
            ∃ t y, exec .exchAdmit s = .next t ∧ y ∈ t.txe.opens ∧ y.ctx = e.ctx ∧ y.id = xId d ∧ y.bwd = false ∧
              y.layer = xLayer d ∧ y.toks.length = u.xTokens x ∧ y.round = 0 ∧ y.tileDone = false ∧ y.returnDone = false ∧
              y.unread = false ∧ (∀ h ∈ s.homes cfg, t.Sent 9 h 0x50) ∧ gone t ∧
              Frame [.sched, .txe, .sync, .urn, .fab, .router, .steps, .obj, .tele] s t) ∧
          (misses (u.readTokens x (u.xTokens x)).2 = true →
            ∃ t y, exec .exchAdmit s = .next t ∧ y ∈ t.txe.opens ∧ y.ctx = e.ctx ∧ y.id = xId d ∧ y.bwd = false ∧
              y.unread = true ∧ y.toks = [] ∧ y.msgs = [] ∧ gone t ∧
              Frame [.sched, .txe, .sync, .urn, .fab, .router, .obj, .tele] s t)) ∧
        (xKind d = 1 →
          (misses (State.dispatchRun x u).causes = false →
            ∃ t, exec .dispatch s = .next t ∧ gone t ∧ t.txe = s.txe ∧
              (v.urnCauses e.ctx d = [] → xBwd d = false → 0 < rowLen (s.tensAt (dWord d 0)) →
                ∀ i k, i < u.xTokens x → k < 3 → tagAdmitted ((o 1).tag i k).1 = true →
                  let m := s.expertMap cfg (bits ((o 1).tag i k).1 64 12)
                  bits ((o 1).tag i k).1 112 3 < mapP m →
                  t.Sent 9 (mapDev m (bits ((o 1).tag i k).1 112 3)) 0x53) ∧
              Frame [.sched, .sync, .mem, .urn, .fab, .router, .host, .steps, .obj, .tele, .out] s t) ∧
          (misses (State.dispatchRun x u).causes = true →
            ∃ t, exec .dispatch s = .next t ∧ gone t ∧ kept t ∧
              Frame [.sched, .txe, .sync, .urn, .fab, .router, .obj, .tele] s t)) ∧
        (xKind d = 2 →
          (misses (State.returnRun x u).causes = false →
            ∃ t, exec .exchReturn s = .next t ∧ gone t ∧ t.txe = s.txe ∧
              (v.urnCauses e.ctx d = [] → 0 < rowLen (s.tensAt (dWord d 0)) →
                ∀ i j, i < (s.sections cfg).length → j < leNat ((o 1).get (4 * i) 4).1 → j < lyCapacity cfg →
                  t.Sent 10 (bits (leNat ((o 1).get (0x900 + (i * lyCapacity cfg + j) * 16) 16).1) 0 16) 0x54) ∧
              Frame [.sched, .sync, .mem, .urn, .fab, .router, .host, .steps, .obj, .tele, .out] s t) ∧
          (misses (State.returnRun x u).causes = true →
            ∃ t, exec .exchReturn s = .next t ∧ gone t ∧ kept t ∧
              Frame [.sched, .txe, .sync, .urn, .fab, .router, .obj, .tele] s t)) ∧
        (xKind d = 3 →
          (misses (State.combineRun x u).causes = false →
            ∃ t, exec .combine s = .next t ∧ gone t ∧ t.txe.opens = s.txe.opens ∧
              ((s.tensAt (dWord d 4)).cls < 3 → t.txe = s.txe) ∧
              (v.urnCauses e.ctx d = [] → u.xTokens x = 1 → x.causes = [] → x.frees = [] → (u.combineRow x 0).2.1 = [] →
                dCplAlways d = false → (s.tensAt (dWord d 4)).cls = 0 → s.evalOn = false →
                ∀ i b, (rowBytesOf (s.tensAt (dWord d 4)) (u.combineRow x 0).1).1[i]? = some b →
                  s.anyUnmapped (s.tensAt (dWord d 4)).base
                    (rowBytesOf (s.tensAt (dWord d 4)) (u.combineRow x 0).1).1.length = false →
                  t.memByte ((s.tensAt (dWord d 4)).base + i) = b) ∧
              Frame [.cores, .sched, .txe, .sync, .mem, .urn, .fab, .router, .host, .steps, .obj, .tele, .out] s t) ∧
          (misses (State.combineRun x u).causes = true →
            ∃ t, exec .combine s = .next t ∧ gone t ∧ kept t ∧
              Frame [.sched, .txe, .sync, .urn, .fab, .router, .obj, .tele] s t)) ∧
        (xKind d = 4 → s.exch e.ctx (xId d) true = none → s.sections cfg ≠ [] →
          misses (State.openBwd x u).causes = false →
          leNat (((o 0).get 0 (4 * (s.sections cfg).length)).1.take 4) ≠ 0 →
          ∃ t y, exec .openBwd s = .next t ∧ y ∈ t.txe.opens ∧ y.ctx = e.ctx ∧ y.id = xId d ∧ y.bwd = true ∧
            y.layer = xLayer d ∧ y.tileDone = false ∧ y.round = 2 ∧ y.allotFinal = true ∧ y.arriveDone = false ∧
            y.unread = false ∧ gone t ∧
            Frame [.cores, .sched, .txe, .sync, .mem, .urn, .fab, .router, .steps, .obj, .tele] s t)) ∧
      (∀ p ∈ kinds, xKind d = p.2 →
        (v.refusal17 0 e ≠ 0 ∨ (¬empty ∧ (s.exchGroup e.ctx cfg = none ∨ reused))) →
        ∃ t, exec p.1 s = .next t ∧ gone t ∧ t.txe.opens = s.txe.opens ∧ s.Failed t e.ctx ∧
          (v.refusal17 0 e = 0 → t.txe.errLog ≠ 0) ∧
          Frame [.sched, .txe, .sync, .mem, .urn, .fab, .router, .host, .steps, .obj, .tele, .out] s t))

/-- Exchange messages: one of no open exchange, or of another parity or attempt, is counted and dropped; once every member's
COUNT is here, or one differs in CFG_CHECK, the home sends GRANT to each, in the second case with no grants; once every home
has granted, the source's tags are written and its expected returns are known; ALLOT sets the rows a section awaits; a row is
stored at its slot with its tag and counted; one out of range or of another length is an error that its tile meets; the
deadline closes the exchange. With the main rails off none acts (01 R17; 09 R210 to R214, R217 to R221, R226 to R229). -/
def Obligations.ExchangeMessagesAdmitAndMoveRows : Prop :=
  ∀ (s : State) (p : Packet), s.wf = true → p.wf = true →
    let cmds := [Instr.exchCount p, .exchGrant p, .exchAllot p, .exchRow p, .exchReturnRow p]
    (s.power.rails = false → ∀ c ∈ cmds, exec c s = .next s) ∧
    (s.power.rails = true → s.exchOf p = none →
      ∀ c ∈ cmds,
        ∃ t, exec c s = .next t ∧ t.ov exchStaleId = min (s.ov exchStaleId + 1) (2 ^ 32 - 1) ∧
          t.router = (s.taken p).router ∧ Frame [.router, .obj] s t) ∧
    (∀ x, s.power.rails = true → s.exchOf p = some x →
      let cfg := s.layerCfg x.layer
      let secs := s.sections cfg
      let c := lyCapacity cfg
      let data := p.body.drop 32
      let tag := (p.body.drop 16).take 16
      let now := fun (t : State) => t.exch p.ctx (p.field 16 12) (p.field 8 1 == 1)
      let flawed := fun (cmd : Instr) (cause : Nat) => ∃ t, exec cmd s = .next t ∧ t.txe.errLog ≠ 0 ∧
        (x.tileDone = false → ∀ z, now t = some z → (cause, 0x0A) ∈ z.tile.causes) ∧
        (x.tileDone = true → s.Failed t p.ctx) ∧ Frame [.txe, .fab, .router, .steps, .obj] s t
      (let y := x.keep 0 p.src (p.field 9 1) (p.field 64 32) (p.field 12 1 == 1) (xEntries p 8)
        let srcs := (s.exchGroup x.ctx cfg).getD []
        x.granted = 0 → y.msgs.any (fun m => m.kind == 0 && m.word2 != s.cfgCheck cfg) = false →
        srcs.all (fun i => (y.msg 0 i 0).isSome) = true →
        ∃ t, exec (.exchCount p) s = .next t ∧ (∀ i ∈ srcs, t.Sent 10 i 0x51) ∧
          (∀ z, now t = some z → z.granted = (if lyPolicy cfg = 1 then 1 else 2)) ∧
          Frame [.cores, .txe, .sync, .mem, .urn, .fab, .router, .host, .steps, .obj, .out] s t) ∧
      (let y := x.keep 0 p.src (p.field 9 1) (p.field 64 32) (p.field 12 1 == 1) (xEntries p 8)
        let srcs := (s.exchGroup x.ctx cfg).getD []
        x.granted < 2 → y.msgs.any (fun m => m.kind == 0 && m.word2 != s.cfgCheck cfg) = true →
        ∃ t, exec (.exchCount p) s = .next t ∧ (∀ i ∈ srcs, t.Sent 10 i 0x51) ∧ (∀ z, now t = some z → z.granted = 2) ∧
          Frame [.txe, .sync, .mem, .urn, .fab, .router, .host, .steps, .obj, .out] s t) ∧
      (x.round ≠ 2 → p.field 64 32 = 1 →
        ∃ t, exec (.exchGrant p) s = .next t ∧ (∀ z, now t = some z → z.round = 2 ∧ z.tileDone = true) ∧
          t.txe.errLog ≠ 0 ∧ (s.writesOpen txeCore x.tile.ctx x.tile.seq = false → s.Failed t x.tile.ctx) ∧
          Frame [.txe, .sync, .mem, .urn, .fab, .router, .host, .steps, .obj, .out] s t) ∧
      (let y := x.keep 1 p.src (p.field 9 1) 0 (p.field 12 1 == 1) (xEntries p 16)
        let rs := y.toks.zipIdx.map (fun q => s.tokenTags y q.1 q.2)
        let w := s.xPut x.tile (s.xOp x.tile 4) 0 (rs.flatMap (·.1))
        x.round = 0 → p.field 64 32 ≠ 1 → (s.homes cfg).all (fun h => (y.msg 1 h 0).isSome) = true →
        (lyPolicy cfg ≠ 1 →
          ∃ t, exec (.exchGrant p) s = .next t ∧
            (∀ z, now t = some z → z.round = 2 ∧ z.tileDone = x.tileDone ∧ z.expect = some (rs.map (·.2.1)).sum ∧
              t.mem = w.1.mem) ∧
            Frame [.cores, .txe, .sync, .mem, .urn, .fab, .router, .host, .steps, .obj, .out] s t) ∧
        (lyPolicy cfg = 1 → s.homes cfg ≠ [] →
          ∃ t, exec (.exchGrant p) s = .next t ∧ (∀ z, now t = some z → z.round = 1) ∧
            (∀ h ∈ s.homes cfg, t.Sent 9 h 0x50) ∧ Frame [.txe, .router] s t)) ∧
      (∀ e i, xEntries p 8 = [e] → findIdx (fun (q : Nat × Nat) => q.1 == bits e 0 12) secs = some i →
        bits e 16 16 ≠ 0 →
        ∃ t, exec (.exchAllot p) s = .next t ∧ (∀ z, now t = some z → tget 0 z.allot i = bits e 16 16) ∧
          Frame [.cores, .txe, .sync, .mem, .urn, .fab, .router, .host, .steps, .obj, .out] s t) ∧
      (let e := bits (leNat tag) 64 12
        let slot := bits (leNat tag) 96 16
        let o := s.xOp x.tile 5
        (∀ i, findIdx (fun (q : Nat × Nat) => q.1 == e) secs = some i → slot < c → p.field 64 32 = rowLen o.t →
          data ≠ [] →
          let w := ((s.xPut x.tile o (rowsAt secs.length c + (i * c + slot) * o.t.stride1 + p.field 96 32) data).1.xPut
            x.tile o (0x900 + (i * c + slot) * 16) tag).1
          ∃ t, exec (.exchRow p) s = .next t ∧
            (∀ z, now t = some z → t.mem = w.mem ∧ t.urn = w.urn ∧
              tget 0 z.rowBytes (i * 65536 + slot) = tget 0 x.rowBytes (i * 65536 + slot) + data.length) ∧
            Frame [.cores, .txe, .sync, .mem, .urn, .fab, .router, .host, .steps, .obj, .out] s t) ∧
        ((∀ i, findIdx (fun (q : Nat × Nat) => q.1 == e) secs = some i → c ≤ slot) → flawed (.exchRow p) 0x10) ∧
        (∀ i, findIdx (fun (q : Nat × Nat) => q.1 == e) secs = some i → slot < c → p.field 64 32 ≠ rowLen o.t →
          flawed (.exchRow p) 0x32)) ∧
      (let n := leNat tag
        let slot := bits n 16 16
        let rank := bits n 76 2
        let o := s.xOp x.tile 6
        (slot < x.tokens → rank ≠ 3 → p.field 64 32 = rowLen o.t → data ≠ [] →
          let w := (s.xPut x.tile o ((slot * 3 + rank) * o.t.stride1 + p.field 96 32) data).1
          ∃ t, exec (.exchReturnRow p) s = .next t ∧
            (∀ z, now t = some z → t.mem = w.mem ∧ t.urn = w.urn ∧
              tget 0 z.retBytes (slot * 4 + rank) = tget 0 x.retBytes (slot * 4 + rank) + data.length) ∧
            Frame [.cores, .txe, .sync, .mem, .urn, .fab, .router, .host, .steps, .obj, .out] s t) ∧
        (x.tokens ≤ slot ∨ rank = 3 → flawed (.exchReturnRow p) 0x10) ∧
        (slot < x.tokens → rank ≠ 3 → p.field 64 32 ≠ rowLen o.t → flawed (.exchReturnRow p) 0x32))) ∧
    (∀ c id dir x, c < 16 → s.exch c id (dir == 1) = some x → x.tile.ctx = c →
      x.openedAt + s.ov exchDeadlineId * 1000 ≤ s.ftRead hubPs →
      ∃ t, exec (.exchDeadlineExpiry c id dir) s = .next t ∧ t.exch c id (dir == 1) = none ∧ t.txe.errLog ≠ 0 ∧
        (x.tileDone = true ∨
            (s.writesOpen txeCore c x.tile.seq = false ∧ (s.tensAt (dWord x.tile.desc 5)).cls < 3) → s.Failed t c) ∧
        Frame [.cores, .txe, .sync, .mem, .urn, .fab, .router, .host, .steps, .obj, .out] s t)

/-- The vote: with DONE_COUNT there and nothing of the context left, the count is taken and the step is VOTED; an
UPDATE_COUNT that differs sends FAIL; OK votes are combined along the line; the home decides COMMIT when every module has
voted OK, REPLAY at the first FAIL or vote of another step and HALT instead at the last attempt, ignores a vote of a step
that the run has left behind, and decides REPLAY or HALT at COMMIT_DEADLINE, which runs from the first vote's arrival; a
vote does nothing with the main rails off (10 R254 to R257, 00 R8, 01 R17). -/
def Obligations.StepsVoteAndAreDecided : Prop :=
  ∀ (s : State) (c : Nat), s.wf = true → c < 16 →
    let x := s.stp c
    let cfg := s.stepCfg c
    let e := s.syncEntry c (bits cfg 0 16)
    let k := bits cfg 16 14
    let fate := if x.attempt + 1 = s.replayLimit c then 2 else 1
    (s.stepsOn c = true → x.st = .running → x.doneTaken = false → x.latch = none → x.failSent = false → e.kind = 1 →
      e.waitOk = true → e.local_ = true → k ≤ s.ctr e.phys →
      (∀ n, n < 256 → ∀ y ∈ (s.core n).tiles ++ (s.core n).suspended, y.ctx ≠ c) → (∀ y ∈ s.txe.opens, y.ctx ≠ c) →
      (∀ y ∈ s.txe.busy, y.ctx ≠ c) →
      s.redPending c = 0 →
      (bits cfg 64 32 = 0 ∨ bits cfg 64 32 = x.updates →
        ∃ t, exec (.stepVote c) s = .next t ∧ (t.stp c).st = .voted ∧ (t.stp c).votedAt = s.ftRead hubPs ∧
          t.ctr e.phys = s.ctr e.phys - k ∧ (∀ i, i ≠ e.phys → t.ctr i = s.ctr i) ∧
          (∀ d, d ≠ c → t.stp d = s.stp d) ∧
          (∀ d, s.lineNext c = some d → s.linePrev c = [] → t.Sent 0 d 0x60 ∧ (t.stp c).voteHeld = false) ∧
          (s.isHome c = true → s.blockSize c = 1 → x.votes = [] → x.decided = false → s.Decides t c 0 0) ∧
          Frame [.sync, .router, .steps] s t) ∧
      (bits cfg 64 32 ≠ 0 → bits cfg 64 32 ≠ x.updates →
        ∃ t, exec (.stepVote c) s = .next t ∧ (t.stp c).st = .running ∧ (t.stp c).failSent = true ∧
          t.Sent 0 (s.home c) 0x60 ∧ Frame [.sync, .router, .steps] s t)) ∧
    (∀ p : Packet, p.wf = true → s.power.rails = false → exec (.vote p) s = .next s) ∧
    (∀ (p : Packet) d, s.power.rails = true → p.wf = true → p.field 12 4 = c → s.inBlock c p.src = true → p.field 8 2 = 0 →
      s.isHome c = false → s.lineNext c = some d → s.linePrev c = [p.src] → x.voteHeld = true →
      p.field 16 32 = x.step → p.field 48 8 = x.attempt →
      ∃ t, exec (.vote p) s = .next t ∧ t.Sent 0 d 0x60 ∧ (t.stp c).voteHeld = false ∧ (t.stp c).st = x.st ∧
        t.router.delivered = dropFirst (· == p) s.router.delivered ∧ Frame [.router, .steps] s t) ∧
    (∀ p : Packet, s.power.rails = true → p.wf = true → p.field 12 4 = c → s.inBlock c p.src = true → s.isHome c = true →
      (x.st = .running ∨ x.st = .voted) → x.decided = false → p.field 16 32 = x.step → p.field 48 8 = x.attempt →
      x.votes = [] →
      (p.field 8 2 = 1 →
        ∃ t, exec (.vote p) s = .next t ∧
          s.Decides t c fate (if p.field 56 8 = 0 then 1 else p.field 56 8) ∧ (t.stp c).st = x.st ∧
          Frame [.router, .steps] s t) ∧
      (p.field 8 2 = 0 → x.voteHeld = true → p.field 64 16 ≠ 0 → 1 + p.field 64 16 = s.blockSize c →
        ∃ t, exec (.vote p) s = .next t ∧ s.Decides t c 0 0 ∧ Frame [.router, .steps] s t) ∧
      (p.field 8 2 = 0 → x.voteHeld = false →
        ∃ t, exec (.vote p) s = .next t ∧ (t.stp c).decided = false ∧
          (t.stp c).firstVote = some (x.firstVote.getD (s.ftRead hubPs)) ∧
          t.router = (s.taken p).router ∧ Frame [.router, .steps] s t)) ∧
    (∀ p : Packet, s.power.rails = true → p.wf = true → p.field 12 4 = c → s.inBlock c p.src = true → s.isHome c = true →
      (x.st = .running ∨ x.st = .voted) → x.decided = false → p.field 16 32 ≠ x.step → p.field 8 2 < 2 →
      let behind := fun (n : Nat) => (n + 2 ^ 32 - x.begun) % 2 ^ 32
      (behind (p.field 16 32) < behind x.step → exec (.vote p) s = .next (s.taken p)) ∧
      (behind x.step ≤ behind (p.field 16 32) →
        ∃ t, exec (.vote p) s = .next t ∧ s.Decides t c fate 4 ∧ (t.stp c).st = x.st ∧ Frame [.router, .steps] s t)) ∧
    (∀ a, x.firstVote = some a → s.isHome c = true → x.decided = false → (x.st = .running ∨ x.st = .voted) →
      a + s.commitDeadline c ≤ s.ftRead hubPs →
      ∃ t, exec (.commitDeadlineExpiry c) s = .next t ∧ s.Decides t c fate 5 ∧ (t.stp c).st = x.st ∧
        Frame [.router, .steps] s t)

/-- COMMIT advances the step and begins attempt 0 with the counters recorded and the levels decided; it waits for the norm
summer of the step before, and does nothing with the main rails off (01 R17; 10 R237, R247, R258, R262). That the packet stays
at the port while the summer works is the model's reading (log 16). -/
def Obligations.CommitAdvancesTheStep : Prop :=
  ∀ (s : State) (p : Packet), s.wf = true → p.wf = true →
    let c := p.field 12 4
    let x := s.stp c
    (s.power.rails = false → exec (.commit p) s = .next s) ∧
    (s.power.rails = true → s.decideOk p 0 = true → x.summing = false →
      ∃ t, exec (.commit p) s = .next t ∧ (t.stp c).st = .running ∧ (t.stp c).step = (x.step + 1) % 2 ^ 32 ∧
        (t.stp c).attempt = 0 ∧ (t.stp c).committed = x.step ∧ (t.stp c).doneTaken = false ∧ (t.stp c).updates = 0 ∧
        (t.stp c).replays = x.replays ∧ (t.stp c).seed = s.ov (roundSeedId + c) ∧
        ((t.stp c).summing = true ↔ bits (s.ov (normCfgId + c)) 0 64 ≠ 0) ∧
        (∀ i ∈ s.restoreSet c, tget 0 t.sync.shadow i = s.ctr i ∧ (c, i) ∈ t.sync.recorded) ∧
        (∀ l g, tget? x.stats l = some g →
          t.gf l = (s.gf l).commit (s.ov (gfCfgId + l)) c x.step (some g)) ∧
        (∀ d, d ≠ c → (t.stp d).step = (s.stp d).step) ∧
        Frame [.cores, .sync, .mem, .urn, .fab, .router, .steps, .red, .obj, .flash] s t) ∧
    (s.power.rails = true → s.decideOk p 0 = true → x.summing = true → exec (.commit p) s = .next s) ∧
    (s.power.rails = true → s.decideOk p 0 = false → exec (.commit p) s = .next (s.taken p))

/-- REPLAY abandons the attempt: the context's tiles, list entries, exchanges and reductions go, the recorded counters are set
back, the attempt's partial norms are discarded, the attempt and REPLAYS count up and the step stays; HALT, and a decision
that does not come in time, do so but for the attempt, and leave the context HALTED with ALERT# asserted; the packets do
nothing with the main rails off (01 R17; 10 R259, R260, R262, 21 R486, 00 R8). -/
def Obligations.ReplayAndHaltAbandonTheAttempt : Prop :=
  ∀ s : State, s.wf = true →
    (let bare := fun (t : State) (c : Nat) =>
      (∀ n, n < 256 → ∀ y ∈ (t.core n).tiles ++ (t.core n).suspended, y.ctx ≠ c) ∧
        (∀ d, ∀ y ∈ t.dieList d, y.ctx ≠ c) ∧ (∀ y ∈ t.sched.overflow, y.ctx ≠ c) ∧ (∀ y ∈ t.txe.opens, y.ctx ≠ c) ∧
        (∀ y ∈ t.txe.busy, y.ctx ≠ c) ∧
        (t.stp c).norms = [] ∧ ∀ i ∈ (s.stp c).norms, i ∈ (t.stp c).normsLost
    let set := fun (t : State) (c : Nat) =>
      (∀ i, (c, i) ∈ s.sync.recorded → t.ctr i = tget 0 s.sync.shadow i) ∧
        (∀ i, (c, i) ∉ s.sync.recorded → t.ctr i = s.ctr i)
    (∀ p : Packet, p.wf = true → s.power.rails = false →
      exec (.replay p) s = .next s ∧ exec (.halt p) s = .next s) ∧
    (∀ p : Packet, p.wf = true → s.power.rails = true →
      let c := p.field 12 4
      let x := s.stp c
      (s.decideOk p 1 = true →
        ∃ t, exec (.replay p) s = .next t ∧ (t.stp c).st = .running ∧ (t.stp c).step = x.step ∧
          (t.stp c).attempt = x.attempt + 1 ∧ (t.stp c).replays = min (x.replays + 1) (2 ^ 32 - 1) ∧
          (t.stp c).reason = p.field 56 8 ∧ (t.stp c).committed = x.committed ∧ bare t c ∧
          (s.red.held = [] → ∀ y ∈ t.red.keys, y.ctx ≠ c) ∧
          (s.red.held = [] → bits (s.stepCfg c) 48 16 = 0 → set t c) ∧
          (c < 15 → bit (t.page c).intStatus 1 = true) ∧
          Frame [.cores, .sched, .txe, .sync, .mem, .urn, .fab, .router, .host, .steps, .red, .obj, .flash, .out] s t) ∧
      (s.decideOk p 2 = true →
        ∃ t, exec (.halt p) s = .next t ∧ (t.stp c).st = .halted ∧ (t.stp c).reason = p.field 56 8 ∧
          (t.stp c).step = x.step ∧ (t.stp c).attempt = x.attempt ∧
          (t.stp c).replays = min (x.replays + 1) (2 ^ 32 - 1) ∧ bare t c ∧ (∀ y ∈ t.red.keys, y.ctx ≠ c) ∧ set t c ∧
          t.out.alertPin = true ∧ (c < 15 → bit (t.page c).intStatus 2 = true) ∧
          Frame [.cores, .sched, .txe, .sync, .urn, .fab, .router, .host, .steps, .red, .out] s t) ∧
      (s.decideOk p 1 = false → exec (.replay p) s = .next (s.taken p)) ∧
      (s.decideOk p 2 = false → exec (.halt p) s = .next (s.taken p))) ∧
    (∀ c, c < 16 → (s.stp c).st = .voted → (s.stp c).votedAt + s.commitDeadline c + 10000000 ≤ s.ftRead hubPs →
      ∃ t, exec (.decisionTimeout c) s = .next t ∧ (t.stp c).st = .halted ∧ (t.stp c).reason = 5 ∧ bare t c ∧ set t c ∧
        (t.stp c).attempt = (s.stp c).attempt ∧ (t.stp c).replays = min ((s.stp c).replays + 1) (2 ^ 32 - 1) ∧
        (∀ y ∈ t.red.keys, y.ctx ≠ c) ∧
        t.out.alertPin = true ∧ Frame [.cores, .sched, .txe, .sync, .urn, .fab, .router, .host, .steps, .red, .out] s t))

/-- R472. A norm record is written only when (tail + 1) mod records differs from head: there it stands at the tail with GAP as
the loss before it left it, and the tail advances; otherwise it is lost, memory and tail stand, and GAP is due in the next
one. NORM_SUMMER_DONE writes the layers' records so, and signals the number written. Losing a record fails no step. -/
def Obligations.NormRecordsAreWrittenOnlyWithRoom : Prop :=
  ∀ (s : State) (c : Nat), s.wf = true → c < 16 →
    let r := s.ov (normRingId + c)
    let n := 256 * 2 ^ bits r 64 4
    (∀ l (z : NormSum) k,
      let x := s.stp c
      let a := bits r 0 64 + 32 * x.normTail
      let e := normRecBytes x.sumStep l x.normGap (tget? x.summed l) z
      let q := State.normWrite c l z (s, k)
      (q.1.stp c).latch = x.latch ∧ (q.1.stp c).latchNext = x.latchNext ∧ (q.1.stp c).failSent = x.failSent ∧
      ((x.normTail + 1) % n ≠ s.ov (normRingHeadId + c) → q.2 = k + 1 ∧ (q.1.stp c).normTail = (x.normTail + 1) % n ∧
        (q.1.stp c).normGap = false ∧ bit (leNat e) 46 = x.normGap ∧
        (s.anyUnmapped a 32 = false → (∀ i b, e[i]? = some b → q.1.memByte (a + i) = b) ∧
          ∀ i, i < a ∨ a + 32 ≤ i → q.1.memByte i = s.memByte i) ∧ Frame [.mem, .steps] s q.1) ∧
      ((x.normTail + 1) % n = s.ov (normRingHeadId + c) → q.2 = k ∧ (q.1.stp c).normTail = x.normTail ∧
        (q.1.stp c).normGap = true ∧ Frame [.steps] s q.1)) ∧
    ((s.stp c).summing = true →
      let z := s.normTotals c
      let w := z.foldl (fun q y => State.normWrite c y.1 y.2 q) (z.foldl (fun u y => u.raise c y.2.fl) s, 0)
      (bits r 0 64 = 0 →
        ∃ t, exec (.normSummerDone c) s = .next t ∧ (t.stp c).summing = false ∧ (t.stp c).normTail = (s.stp c).normTail ∧
          Frame [.steps, .obj] s t) ∧
      (bits r 0 64 ≠ 0 →
        ∃ t, exec (.normSummerDone c) s = .next t ∧ (t.stp c).summing = false ∧ t.mem = w.1.mem ∧
          (t.stp c).normTail = (w.1.stp c).normTail ∧ (t.stp c).normGap = (w.1.stp c).normGap ∧
          (w.2 ≠ 0 → t.sync = (w.1.signal c (bits r 80 16) w.2).sync) ∧
          (w.2 = 0 → t.sync = s.sync ∧ t.router = s.router ∧ (t.stp c).latch = (s.stp c).latch) ∧
          Frame [.sync, .mem, .fab, .router, .steps, .obj] s t))

/-- EMIT and the units: an EMIT tile takes its chain's slot to DRAINING; the first member sends its chunks on and its tile
goes on to its completion; a chunk that finds no partner waits in a buffer, or where none is free in the link's receive
buffer, one that finds its partner is added and sent on, or summed at the owner; a closed key's chunk is stale, one of the
next attempt is held in a shared buffer, one of another epoch or badly formed fails the step; a waiting drain goes on when it
can; the deadline fails its key; packets do nothing with the main rails off. No error of a memory waits to be met (log 9) (01
R17, 10 R232, 11 R266 to R271, R273 to R280, 13 R320, R326; readings of the model in log 18). -/
def Obligations.ChunksAreReduced : Prop :=
  ∀ s : State, s.wf = true →
    (∀ n e i r, n < 256 → s.mem.found = [] → s.notice.badWait n 3 = none → s.notice.choose n = some e → dType e.desc = 3 →
      (s.notice.hdrCauses n e).any (fun c => isMiss c.1) = false →
      let v := (s.notice.unlist e).takeWaits e
      let d := e.desc
      v.refusal n e = 0 → (s.core n).chainSlot e.ctx (dChain d) = some i → (v.newTile n e (some i)).status = 0 →
      (∀ y ∈ (s.core n).tiles, y.seq ≠ e.seq) → s.emRing e.ctx d = some r →
      s.keyClosed e.ctx (emGroup d) (emTag d) = false → s.redKey e.ctx (emGroup d) (emTag d) = none →
      r.isFirst (emOwner d) = true → r.isOwner (emOwner d) = false →
      ∃ t x, exec (.emit n) s = .next t ∧ s.Takes t n e x ∧ x.desc = d ∧ x.slot = some i ∧ x.stage = .storing ∧
        ((t.core n).slot i).st = .draining ∧ t.Sent (5 + emGroup d) r.next 0x70 ∧
        t.redKey e.ctx (emGroup d) (emTag d) = none ∧ t.keyClosed e.ctx (emGroup d) (emTag d) = true ∧
        (t.redc e.ctx).sent = min ((s.redc e.ctx).sent + 1) (2 ^ 32 - 1) ∧ t.sync = v.sync ∧
        Frame [.cores, .sched, .sync, .urn, .fab, .router, .steps, .red, .obj, .tele] s t) ∧
    (∀ d x u, s.red.drains = [d] → d.core < 256 → d.next = 15 → s.emitTile d.core d.seq = some x →
      s.handOver d.core d.seq 15 none = some u →
      ∃ t y, exec .emitChunkHandoff s = .next t ∧ t.red.drains = [] ∧ t.emitTile d.core d.seq = some y ∧
        y.stage = .storing ∧ y.desc = x.desc ∧ t.red.keys = u.red.keys ∧ t.router = u.router ∧
        Frame [.cores, .sync, .mem, .urn, .fab, .router, .steps, .red, .obj] s t) ∧
    (∀ p : Packet, p.wf = true → s.power.rails = false → exec (.redChunkReceive p) s = .next s) ∧
    (∀ p : Packet, s.power.rails = true → p.wf = true → s.chunkCurrent p →
      let b := p.body
      let g := rGroup b
      let tag := rTag b
      let n := rChunk b
      (s.keyClosed p.ctx g tag = true →
        ∃ t, exec (.redChunkReceive p) s = .next t ∧ t.ov redStaleId = min (s.ov redStaleId + 1) (2 ^ 32 - 1) ∧
          t.red.keys = s.red.keys ∧ t.router = (s.taken p).router ∧ Frame [.kettle, .links, .router, .red, .obj] s t) ∧
      (s.keyClosed p.ctx g tag = false → s.redKey p.ctx g tag = none → s.red.drains = [] → rEmpty b = false →
        s.redTake p.ctx g = none → exec (.redChunkReceive p) s = .next s) ∧
      (∀ q, s.keyClosed p.ctx g tag = false → s.redKey p.ctx g tag = none → s.red.drains = [] → rEmpty b = false →
        s.redTake p.ctx g = some q →
        ∃ t k, exec (.redChunkReceive p) s = .next t ∧ t.redKey p.ctx g tag = some k ∧ tget? k.inc n = some b ∧
          k.local_ = false ∧ k.firstAt = s.ftRead hubPs ∧ t.urn = q.2.urn ∧ t.router = (s.taken p).router ∧
          Frame [.kettle, .urn, .links, .router, .red] s t) ∧
      (∀ k r l, s.keyClosed p.ctx g tag = false → s.redKey p.ctx g tag = some k → k.incEmpty = false →
        tget? k.inc n = none → n ∉ k.done → rEmpty b = false → k.local? n = some l →
        s.ringFor p.ctx g k.list k.owner = some r → k.done.length < 15 →
        ∃ t k', exec (.redChunkReceive p) s = .next t ∧ t.redKey p.ctx g tag = some k' ∧ k'.done = n :: k.done ∧
          k'.contribs = rContribs b + 1 ∧
          (r.isOwner k.owner = false → t.Sent (5 + g) r.next 0x70) ∧
          (r.isOwner k.owner = true → ∀ rows, (wireSum (rWire b) l).1 = some rows →
            tget? k'.sums n = some (rows.flatMap (fun row => row.flatMap (fun v => toLE 4 (f32Code v))))) ∧
          Frame [.kettle, .urn, .links, .router, .red, .obj] s t)) ∧
    (∀ (p : Packet) u, s.power.rails = true → p.wf = true → 24 ≤ p.body.length → p.field 0 8 = 0x70 → rBad p.body = false →
      (s.redc p.ctx).staged = false → rEpoch p.body = (s.redc p.ctx).epoch → rStep p.body = s.stepNo p.ctx →
      rAttempt p.body = (s.attemptNo p.ctx + 1) % 256 → s.redTakeShared p.ctx = some u →
      ∃ t, exec (.redChunkReceive p) s = .next t ∧ t.red.held = s.red.held ++ [⟨2, p, true⟩] ∧ t.urn = u.urn ∧
        t.red.keys = s.red.keys ∧ Frame [.kettle, .urn, .links, .router, .red] s t) ∧
    (∀ p : Packet, s.power.rails = true → p.wf = true → 24 ≤ p.body.length → p.field 0 8 = 0x70 →
      (rBad p.body = true ∨ ((s.redc p.ctx).staged = false ∧ rEpoch p.body ≠ (s.redc p.ctx).epoch)) →
      ∃ t, exec (.redChunkReceive p) s = .next t ∧ t.red.errLog ≠ 0 ∧ s.Failed t p.ctx ∧ t.red.keys = s.red.keys ∧
        Frame [.kettle, .links, .router, .steps, .red] s t) ∧
    (∀ c g tag k, c < 16 → s.redKey c g tag = some k → k.firstAt + s.ov reduceDeadlineId * 1000 ≤ s.ftRead hubPs →
      ∃ t, exec (.reduceDeadlineExpiry c g tag) s = .next t ∧ t.redKey c g tag = none ∧ t.keyClosed c g tag = true ∧
        t.red.errLog ≠ 0 ∧ s.Failed t c ∧ Frame [.cores, .sync, .urn, .fab, .router, .steps, .red, .obj] s t)

/-- The permute: the home asks for counts every 10 µs; a joined module answers, one that has not joined holds the request;
replies are combined along the line and complete ones move the home on; phase 1 copies the ranges into STAGE, phase 2 stores
them in WRITEs that the region table permits, a refused one writing nothing and setting PROT_FAULT (log 18), DONE puts the new
epoch in force with its counts at 0, a failure, or a stage that has not ended within REDUCE_DEADLINE of the home's message
that began it, ends it everywhere; a message of a reserved KIND is discarded, one of another KIND is left to its own command,
and none acts with the main rails off (01 R17, 11 R282 to R285, 14 R332, R358). -/
def Obligations.PermutesRunInTwoPhases : Prop :=
  ∀ (s : State) (c : Nat), s.wf = true → c < 16 →
    let x := s.perm c
    let last := s.linePrev c = []
    (x.st = 1 → s.lineNext c = none → s.inBlock c s.me = true → (∀ a, x.askedAt = some a → a + 10000 ≤ s.clk) →
      ∃ t, exec (.permuteDrainRound c) s = .next t ∧ t.Permutes c 0 ((x.round + 1) % 65536) 0 ∧
        (t.perm c).round = (x.round + 1) % 65536 ∧ (t.perm c).askedAt = some s.clk ∧ Frame [.router, .red] s t) ∧
    (∀ p : Packet, p.wf = true → ∀ q ∈ [(Instr.countReq p, 0), (.permuteCount p, 1), (.phase1Go p, 2), (.phase1Done p, 3),
        (.phase2Go p, 4), (.phase2Done p, 5), (.permuteDone p, 6), (.permuteFailed p, 7), (.entryInvalid p, 8)],
      (s.power.rails = false → exec q.1 s = .next s) ∧
      (s.power.rails = true → 9 ≤ p.field 8 4 → exec q.1 s = .next (s.taken p)) ∧
      (p.field 8 4 < 9 → p.field 8 4 ≠ q.2 → exec q.1 s = .next s)) ∧
    (∀ p : Packet, s.power.rails = true → p.wf = true → pCtx p = c →
      (∀ d, p.field 8 4 = 0 → s.permOk p [1] = true → last → s.lineNext c = some d →
        ∃ t, exec (.countReq p) s = .next t ∧ t.Permutes c 1 (p.field 16 16) 0 ∧ t.Sent 0 d 0x64 ∧
          Frame [.router, .red] s t) ∧
      (p.field 8 4 = 0 → s.inBlock c p.src = true → x.busy = false →
        ∃ t, exec (.countReq p) s = .next t ∧ t.perm c = { x with heldReq := some p } ∧
          t.router = (s.taken p).router ∧ Frame [.router, .red] s t) ∧
      (∀ q ∈ [(Instr.permuteCount p, 1), (.phase1Done p, 2), (.phase2Done p, 3)], ∀ r0,
        p.field 8 4 + 1 = 2 * q.2 → s.permOk p [q.2] = true → x.own = true → x.told = false → x.replies = [r0] →
          r0.src = s.me → r0.kind = x.awaits →
        r0.round = p.field 16 16 → p.field 16 16 = (if q.2 = 1 then x.round else 0) → p.src ≠ s.me →
        s.linePrev c = [p.src] → 0 < p.field 48 16 →
        (∀ d, s.lineNext c = some d →
          ∃ t, exec q.1 s = .next t ∧ t.Permutes c x.awaits (p.field 16 16) 0 ∧ t.Sent 0 d 0x64 ∧
            (t.perm c).told = true ∧ Frame [.router, .red] s t) ∧
        (s.lineNext c = none → r0.count + p.field 48 16 = s.blockSize c → x.failed = false →
          (q.2 = 1 → r0.pend + p.field 64 64 = 0 ∧ r0.sent + p.field 128 64 = r0.recv + p.field 192 64 ∧
            x.lastSums = some (r0.sent + p.field 128 64, r0.recv + p.field 192 64)) →
          ∃ t, exec q.1 s = .next t ∧ t.Permutes c (2 * q.2) 0 0 ∧ (t.perm c).told = true ∧ Frame [.router, .red] s t)) ∧
      (p.field 8 4 = 2 → s.permOk p [1] = true →
        ∃ t, exec (.phase1Go p) s = .next t ∧ (t.perm c).st = 2 ∧ (t.perm c).own = false ∧
          t.router = (s.taken p).router ∧ Frame [.router, .red] s t) ∧
      (∀ src dst n, p.field 8 4 = 4 → s.permOk p [2] = true → s.moves x = [(src, dst, n, true)] →
        gOff dst % 4096 + n ≤ 4096 → x.acks = [] →
        (s.permitted c n (gDev dst) (gOff dst) .write = true →
          ∃ t, exec (.phase2Go p) s = .next t ∧ (t.perm c).st = 3 ∧ (t.perm c).own = false ∧
            (t.perm c).acks = [s.fab.nextTag] ∧ t.Sent 2 (gDev dst) 0x11 ∧ Frame [.fab, .router, .red] s t) ∧
        (s.permitted c n (gDev dst) (gOff dst) .write = false →
          ∃ t, exec (.phase2Go p) s = .next t ∧ (t.perm c).st = 3 ∧ (t.perm c).own = false ∧ (t.perm c).acks = [] ∧
            bit (t.ov fabStatusId) 0 = true ∧ t.router = (s.taken p).router ∧ Frame [.fab, .router, .red, .obj] s t)) ∧
      (p.field 8 4 = 6 → s.permOk p [3] = true →
        ∃ t, exec (.permuteDone p) s = .next t ∧ (t.perm c).st = 4 ∧ bits (t.perm c).ctrl 176 1 = 0 ∧
          (t.redc c).epoch = x.epoch ∧ (t.redc c).sent = 0 ∧ (t.redc c).received = 0 ∧
          t.ov (layoutEpochId + c) = x.epoch ∧ t.sync = (s.signalWord c x.signal).sync ∧
          Frame [.sync, .fab, .router, .steps, .red, .obj] s t) ∧
      (p.field 8 4 = 7 → s.permOk p [1, 2, 3] = true →
        ∃ t, exec (.permuteFailed p) s = .next t ∧ (t.perm c).st = 5 ∧
          (t.redc c).epoch = (if x.st = 3 then x.epoch else (s.redc c).epoch) ∧
          t.sync = (s.signalWord c x.signal).sync ∧ Frame [.sync, .fab, .router, .steps, .red, .obj] s t) ∧
      (p.field 8 4 = 8 → s.permOk p [1, 2, 3] = true → s.lineNext c = none → x.failed = false →
        ∃ t, exec (.entryInvalid p) s = .next t ∧ t.Permutes c 7 0 (p.field 256 8) ∧ (t.perm c).failed = true ∧
          Frame [.router, .red] s t)) ∧
    (∀ src dst n, x.st = 2 → x.own = false → s.moves x = [(src, dst, n, true)] →
      ∃ t, exec (.permutePhase1CopyDone c) s = .next t ∧ (t.perm c).own = true ∧
        (s.anyUnmapped x.stage n = false → ∀ i b, (s.loadDev src n)[i]? = some b → t.memByte (x.stage + i) = b) ∧
        (∀ d, last → s.lineNext c = some d → x.told = false → t.Permutes c 3 0 0 ∧ t.Sent 0 d 0x64) ∧
        Frame [.mem, .router, .red] s t) ∧
    (x.st = 2 → x.own = false → (s.moves x).any (fun m => !m.2.2.2) = true →
      ∃ t, exec (.permutePhase1CopyDone c) s = .next t ∧ t.Permutes c 8 0 1 ∧ t.Sent 0 (s.home c) 0x64 ∧
        Frame [.router, .red] s t) ∧
    (x.st = 3 → x.own = false → x.acks = [] →
      ∃ t, exec (.permutePhase2StoresAcked c) s = .next t ∧ (t.redc c).epoch = x.epoch ∧ (t.perm c).own = true ∧
        (∀ d, last → s.lineNext c = some d → x.told = false → t.Permutes c 5 0 0 ∧ t.Sent 0 d 0x64) ∧
        Frame [.router, .red] s t) ∧
    (x.busy = true → s.lineNext c = none → x.failed = false → (x.st = 1 → x.askedAt ≠ none) →
      x.stageAt + s.ov reduceDeadlineId * 1000 ≤ s.ftRead hubPs →
      ∃ t, exec (.permuteStageDeadline c) s = .next t ∧ t.Permutes c 7 0 2 ∧ (t.perm c).failed = true ∧
        Frame [.router, .red] s t)

/-- Urn commands: ALLOC takes the head of its reserve's class with GEN advanced and its bytes +0, or what R320 finds, or
answers EXHAUSTED, or waits where the class's list is broken and has to be rebuilt; FREE returns the buffer to the head of its
list, its link the head before; QUERY answers its charge and GEN; a failed check answers its code and sets URN_STATUS; one
behind a waiting ALLOC of its page waits too (13 R312 to R318, R320 to R322, R328, 19 R458). -/
def Obligations.UrnCommandsAllocateAndFree : Prop :=
  ∀ (s : State) (c : Nat) (w : Word64), s.wf = true → c < 15 → s.host.up = true → s.power.main = .ready →
    let v := w.toNat
    let n := bits v 8 23
    let ch := bits v 4 2
    let h := bits v 32 32
    (s.pageWaits c = true →
      ∀ q ∈ [(Instr.alloc (.page c) w, 0), (.free (.page c) w, 1), (.query (.page c) w, 2)], bits v 0 4 = q.2 →
        ∃ t, exec q.1 s = .next t ∧ (t.page c).later = (s.page c).later ++ [(0x110, v)] ∧
          (t.page c).urnReply = (s.page c).urnReply ∧ Frame [.host] s t) ∧
    (s.pageWaits c = false → ch ≠ 3 → bit v 7 = false → bit v 31 = false →
    (bits v 0 4 = 0 → 0 < n → n ≤ 4194304 →
      (∀ k, s.urnWaits c v = some k →
        ∃ t, exec (.alloc (.page c) w) s = .next t ∧ t.urn.waiting = s.urn.waiting ++ [(c, v)] ∧ k ∈ t.urn.repairing ∧
          t.urn.bufs = s.urn.bufs ∧ Frame [.urn] s t) ∧
      (∀ k a i is, s.urnReserve c ch = (k, a) → n ≤ urnSize k → s.urnResUsed c ch < a → s.urnWaits c v = none →
        (s.urnClass k).freed = i :: is → tget 0 s.urn.links (urnKey k i) = 0 → s.urnCount k < 2 ^ 20 →
        (∀ j ∈ i :: is, j < s.urnCount k) →
        let g := ((s.urnBuf (urnKey k i)).gen + 1) % 128
        ∃ t, exec (.alloc (.page c) w) s = .next t ∧ t.urnBuf (urnKey k i) = ⟨true, g, c, ch, bit v 6, true⟩ ∧
          (∀ j, j ≠ urnKey k i → t.urnBuf j = s.urnBuf j) ∧ (t.urnClass k).freed = is ∧
          (∀ o, o < 2 ^ 22 → tget 0 t.urn.bytes (urnKey k i * 2 ^ 22 + o) = 0) ∧
          (t.page c).urnReply = handleOf k i g * 2 ^ 32 ∧ Frame [.urn, .host] s t) ∧
      (∀ r u, s.urnWaits c v = none → s.urnAlloc c ch n (bit v 6) = some (r, u) →
        ∃ t, exec (.alloc (.page c) w) s = .next t ∧ t.urn = u.urn ∧ (t.page c).urnReply = r * 2 ^ 32 ∧
          Frame [.urn, .host] s t) ∧
      (s.urnWaits c v = none → s.urnAlloc c ch n (bit v 6) = none →
        ∃ t, exec (.alloc (.page c) w) s = .next t ∧ (t.page c).urnReply = 1 ∧ bit (t.ov urnStatusId) 0 = true ∧
          Frame [.host, .obj] s t)) ∧
    (bits v 0 4 = 1 →
      (s.urnCheck c h = 0 →
        ∃ t, exec (.free (.page c) w) s = .next t ∧ (t.urnBuf (hKey h)).held = false ∧
          (t.urnBuf (hKey h)).gen = hGen h ∧ (t.urnClass (hClass h)).freed = hIndex h :: (s.urnClass (hClass h)).freed ∧
          (∀ j is, (s.urnClass (hClass h)).freed = j :: is → t.urnLink (hClass h) (hIndex h) = j) ∧
          (∀ j, j ≠ hKey h → t.urnBuf j = s.urnBuf j) ∧ (t.page c).urnReply = 0 ∧ Frame [.urn, .host] s t) ∧
      (s.urnCheck c h ≠ 0 →
        ∃ t, exec (.free (.page c) w) s = .next t ∧ (t.page c).urnReply = s.urnCheck c h ∧
          bit (t.ov urnStatusId) (if s.urnCheck c h = 3 then 1 else 2) = true ∧ Frame [.host, .obj] s t)) ∧
    (bits v 0 4 = 2 →
      (s.urnCheck c h = 0 →
        let b := s.urnBuf (hKey h)
        ∃ t, exec (.query (.page c) w) s = .next t ∧
          (t.page c).urnReply = b.charge * 2 ^ 8 + (if b.persist then 1 else 0) * 2 ^ 10 + b.gen * 2 ^ 11 ∧
          Frame [.host] s t) ∧
      (s.urnCheck c h ≠ 0 →
        ∃ t, exec (.query (.page c) w) s = .next t ∧ (t.page c).urnReply = 2 ∧ bit (t.ov urnStatusId) 2 = true ∧
          Frame [.host, .obj] s t)))

/-- Pipeline sends: a CREDIT_REQ is queued and served while the inbox has room and the urn a buffer, with a GRANT; a GRANT
gives the SEND tile its handle; one more than 256 queued stays at the port, and one that meets a broken list waits; DATA is
stored, and the last of it writes the inbox record, moves the tail and applies ARRIVE_SIGNAL; a repaired list holds its class's
free buffers in ascending order, and the ALLOC that waited is answered; one of a class that has not stopped does nothing, nor
does a packet with the main rails off (01 R17, 13 R317, R324, R325). -/
def Obligations.SendsAreGrantedAndArrive : Prop :=
  ∀ s : State, s.wf = true →
    (∀ p : Packet, p.wf = true → s.power.rails = false →
      ∀ c ∈ [Instr.creditReq p, .urnGrant p, .urnData p], exec c s = .next s) ∧
    (∀ p : Packet, s.power.rails = true → p.wf = true → s.urn.reqs = [] →
      let r : UrnReq := ⟨p.src, p.field 16 16, p.field 32 32, p.field 96 32⟩
      (∀ k, s.inboxRoom p.ctx = true → s.urnStall p.ctx 2 r.bytes = some k →
        ∃ t, exec (.creditReq p) s = .next t ∧ t.urn.reqs = [(p.ctx, [r])] ∧ k ∈ t.urn.repairing ∧
          t.urn.grants = s.urn.grants ∧ t.router = (s.taken p).router ∧ Frame [.urn, .router] s t) ∧
      (∀ h u, s.inboxRoom p.ctx = true → s.urnStall p.ctx 2 r.bytes = none →
        s.urnAlloc p.ctx 2 r.bytes false = some (h, u) →
        ∃ t, exec (.creditReq p) s = .next t ∧ t.Sent 0 p.src 0x81 ∧ t.urn.reqs = [] ∧ t.urn.bufs = u.urn.bufs ∧
          t.urn.grants = s.urn.grants ++ [⟨p.ctx, p.src, r.reqId, h, r.bytes, r.bytes, r.tag⟩] ∧
          Frame [.urn, .router] s t) ∧
      (s.inboxRoom p.ctx = false →
        ∃ t, exec (.creditReq p) s = .next t ∧ t.urn.reqs = [(p.ctx, [r])] ∧ t.urn.grants = s.urn.grants ∧
          t.router = (s.taken p).router ∧ Frame [.urn, .router] s t)) ∧
    (∀ p : Packet, s.power.rails = true → p.wf = true → 256 ≤ (tget [] s.urn.reqs p.ctx).length →
      exec (.creditReq p) s = .next s) ∧
    (∀ c r h u, c < 16 → s.urn.reqs = [(c, [r])] → s.inboxRoom c = true → s.urnStall c 2 r.bytes = none →
      s.urnAlloc c 2 r.bytes false = some (h, u) →
      ∃ t, exec (.urnRequestServe c) s = .next t ∧ t.Sent 0 r.src 0x81 ∧ t.urn.reqs = [] ∧ t.urn.bufs = u.urn.bufs ∧
        t.urn.grants = s.urn.grants ++ [⟨c, r.src, r.reqId, h, r.bytes, r.bytes, r.tag⟩] ∧ Frame [.urn, .router] s t) ∧
    (∀ p : Packet, s.power.rails = true → p.wf = true →
      ∃ t, exec (.urnGrant p) s = .next t ∧
        (∀ r ∈ s.urn.sends, r.ctx = p.ctx → r.reqId = p.field 16 16 → r.dest = p.src →
          { r with handle := some (p.field 64 32) } ∈ t.urn.sends) ∧
        (∀ r ∈ s.urn.sends, ¬(r.ctx = p.ctx ∧ r.reqId = p.field 16 16 ∧ r.dest = p.src) → r ∈ t.urn.sends) ∧
        t.urn.sends.length = s.urn.sends.length ∧ Frame [.urn, .router] s t) ∧
    (∀ (p : Packet) (g : UrnGrantRec), s.power.rails = true → p.wf = true → s.urn.grants = [g] → g.ctx = p.ctx → g.src = p.src →
      g.reqId = p.field 16 16 → g.handle = p.field 64 32 →
      let data := p.body.drop 16
      let q := s.ov (urnInboxId + p.ctx)
      let tail := tget 0 s.urn.inboxTail p.ctx
      let a := bits q 0 64 + 16 * tail
      let stored := (s.urnStore (hKey g.handle) (p.field 32 32) data).urn.bytes
      (data.length < g.left →
        ∃ t, exec (.urnData p) s = .next t ∧ t.urn.bytes = stored ∧
          t.urn.grants = [{ g with left := g.left - data.length }] ∧ Frame [.urn, .router] s t) ∧
      (g.left ≤ data.length →
        ∃ t, exec (.urnData p) s = .next t ∧ t.urn.bytes = stored ∧ t.urn.grants = [] ∧
          (s.anyUnmapped a 16 = false → ∀ i b,
            (mkBody 16 [(0, 32, g.handle), (32, 32, g.bytes), (64, 16, g.src), (96, 32, g.tag)])[i]? = some b →
            t.memByte (a + i) = b) ∧
          (tail + 1 < s.inboxSize p.ctx → tget 0 t.urn.inboxTail p.ctx = tail + 1) ∧
          t.sync = (s.signalWord p.ctx (bits q 80 32)).sync ∧ Frame [.sync, .mem, .urn, .fab, .router, .steps, .obj] s t)) ∧
    (∀ k, k < 8 → k ∉ s.urn.repairing → exec (.urnListRepairDone k) s = .next s) ∧
    (∀ k, k < 8 → k ∈ s.urn.repairing → s.urn.reqs = [] → s.caddy.deferred = [] → (∀ j, (s.page j).later = []) →
      (s.urn.waiting = [] →
        ∃ t, exec (.urnListRepairDone k) s = .next t ∧
          (t.urnClass k).freed = (List.range (s.urnClass k).fresh).filter (fun i => !(s.urnBuf (urnKey k i)).held) ∧
          (t.urnClass k).fresh = (s.urnClass k).fresh ∧ t.urn.bufs = s.urn.bufs ∧ k ∉ t.urn.repairing ∧
          bit (t.ov urnStatusId) 3 = true ∧ (∀ j, t.page j = s.page j) ∧ Frame [.urn, .host, .obj] s t) ∧
      (∀ c w h u, s.urn.waiting = [(c, w)] → bits w 0 4 = 0 → bits w 4 2 ≠ 3 → bit w 7 = false → bit w 31 = false →
        0 < bits w 8 23 → bits w 8 23 ≤ 4194304 →
        ((s.urnRebuild k).urnFlag 3 0).urnWaits c w = none →
        ((s.urnRebuild k).urnFlag 3 0).urnAlloc c (bits w 4 2) (bits w 8 23) (bit w 6) = some (h, u) →
        ∃ t, exec (.urnListRepairDone k) s = .next t ∧ t.urn.waiting = [] ∧ t.urn.bufs = u.urn.bufs ∧
          (t.page c).urnReply = h * 2 ^ 32 ∧ Frame [.urn, .host, .obj] s t))

/-- Fabric commands: the engine serves the contexts in turn; it takes one doorbell count and the next slot of the ring; a
command that fails a check ends at once with its STATUS and fails the step; a READ, WRITE, FLAGGED_WRITE, ATOMIC or INVALIDATE
leaves as one request and stays in flight under the next TAG, or is held while an earlier request of its ring has to go before
it, an ATOMIC also while its target has no room; a cached READ whose lines the L2 holds ends at once; a held FLAGGED_WRITE
leaves once nothing holds it (14 R335, R337 to R339, R342, R343, R345, R347, R348, R350). -/
def Obligations.FabricCommandsAreIssued : Prop :=
  ∀ (s : State) (c : Nat), s.wf = true → c < 16 →
    let slot := s.fabSlot c
    let v := leNat (s.loadDev slot 64)
    let dev := gDev (fcGaddr v)
    let bell := (s.syncEntry c (bits (s.ov (fabQueueId + c)) 80 16)).phys
    let parts : List Part := [.sync, .fab, .router]
    let rows := [(Instr.fabRead c, 1), (.fabWrite c, 2), (.fabFlaggedWrite c, 3), (.fabAtomic c, 4), (.fabInvalidate c, 5)]
    let vc := if fcOrdered v then 1 else 2
    let takes := fun (t : State) (k : FabCmd) => t.fab.cmds = s.fab.cmds ++ [k] ∧ k.tag = s.fab.nextTag ∧ k.ctx = c ∧
      k.slot = slot ∧ k.dest = dev ∧ fcOp k.word = fcOp v ∧ t.fab.nextTag = (s.fab.nextTag + 1) % 2 ^ 32 ∧
      t.fab.turn = c ∧ t.ctr bell = s.ctr bell - 1 ∧ ∀ i, i ≠ bell → t.ctr i = s.ctr i
    let hit := if (s.fcCached c v).isSome then s.cachedBytes 0 dev (gOff (fcGaddr v)) (fcBytes v) else none
    (s.fabTurn ≠ some c → ∀ p ∈ rows, exec p.1 s = .next s) ∧
    (s.fabTurn = some c →
      (s.fcStatus c v ≠ 0 →
        ∀ p ∈ rows, (fcOp v = p.2 ∨ fcOp v = 0 ∨ 5 < fcOp v) →
          ∃ t, exec p.1 s = .next t ∧ t.fab.cmds = s.fab.cmds ∧ t.fab.turn = c ∧ s.Failed t c ∧
            (s.anyUnmapped (slot + 0x30) 16 = false →
              t.memByte (slot + 0x38) = BitVec.ofNat 8 (s.fcStatus c v)) ∧
            (fcDoneCount v = 0 → t.ctr bell = s.ctr bell - 1) ∧
            Frame [.sync, .mem, .fab, .router, .steps, .obj] s t) ∧
      (s.fcStatus c v = 0 →
        (∀ b, fcOp v = 1 → hit = some b →
          ∃ t, exec (.fabRead c) s = .next t ∧ t.fab.cmds = s.fab.cmds ∧
            (s.anyUnmapped (slot + 0x30) 16 = false → t.memByte (slot + 0x38) = 0) ∧
            (fcLexch v = true → t.urn = (s.fcLand v b).urn) ∧
            (fcLexch v = false → s.anyUnmapped (fcLaddr v) b.length = false →
              (fcLaddr v + b.length ≤ slot + 0x30 ∨ slot + 0x40 ≤ fcLaddr v) →
              ∀ i y, b[i]? = some y → t.memByte (fcLaddr v + i) = y) ∧
            Frame [.sync, .mem, .urn, .fab, .router, .steps, .obj] s t) ∧
        (∀ q ∈ [(Instr.fabRead c, 1, 2, 0x10), (.fabWrite c, 2, vc, 0x11), (.fabFlaggedWrite c, 3, vc, 0x12),
            (.fabInvalidate c, 5, 2, 0x16)], fcOp v = q.2.1 → (q.2.1 = 1 → hit = none) →
          ∃ t k, exec q.1 s = .next t ∧ takes t k ∧
            (heldBack k t.fab.cmds = false → k.held = none ∧ t.Sent q.2.2.1 dev q.2.2.2) ∧
            (heldBack k t.fab.cmds = true → k.held ≠ none ∧ t.router = s.router) ∧ Frame parts s t) ∧
        (fcOp v = 4 →
          ∃ t k, exec (.fabAtomic c) s = .next t ∧ takes t k ∧
            (heldBack k t.fab.cmds = false → s.atomWaits k s.fab.cmds = false →
              t.Sent 2 dev 0x13 ∧ t.fab.atoms.length = s.fab.atoms.length + 1 ∧ k.held = none) ∧
            ((heldBack k t.fab.cmds = true ∨ s.atomWaits k s.fab.cmds = true) →
              k.held ≠ none ∧ t.fab.atoms = s.fab.atoms ∧ t.router = s.router) ∧ Frame parts s t))) ∧
    (∀ k p, s.flaggedReady c = some (k, p) →
      ∃ t, exec (.flaggedWriteSend c) s = .next t ∧ t.Waiting p ∧
        (∀ x ∈ t.fab.cmds, x.tag = k.tag → x.held = none) ∧ t.fab.cmds.length = s.fab.cmds.length ∧
        Frame [.fab, .router] s t)

/-- Requests at the target: a READ is answered with its bytes and a cached one sets its group's directory bit; a WRITE stores
exactly its bytes, a FLAGGED_WRITE then signals its counter, and waits while an earlier request of its source channel is not
applied; an ATOMIC of a new SEQ updates its operand and answers the value before where FETCH is set, one answered already gets
the same answer and one before the watermark none; FIRST clears what is kept of its source, and fails the steps of the
contexts with atomics outstanding with it; each member of a combined ATOMIC updates its operand and is answered; ATOMIC_ACK
frees entries; with the main rails off none acts (01 R17, 14 R335, R336, R341 to R343, R345, R346, R350, R351, R353, R354, 16
R387). -/
def Obligations.FabricRequestsAreServed : Prop :=
  ∀ (s : State) (p : Packet), s.wf = true → p.wf = true →
    let a := pAddr p
    let n := pBytes p
    let answers := fun (t : State) (dest fop status tag result : Nat) (data : List Byte) =>
      ∃ q ∈ tget [] t.router.inj hubFabric, q.vc = 3 ∧ q.dest = dest ∧ q.field 0 8 = fop ∧ q.field 8 4 = status ∧
        q.field 32 32 = tag ∧ q.field 64 64 = result ∧ q.body.drop 16 = data
    (s.power.rails = false →
      ∀ c ∈ [Instr.targetRead p [], .targetWrite p [], .targetFlaggedWrite ⟨p, []⟩, .targetAtomic ⟨p, []⟩,
        .atomicCombined ⟨p, []⟩, .atomicAck p], exec c s = .next s) ∧
    (s.power.rails = true →
    (∃ t, exec (.targetRead p []) s = .next t ∧
      answers t p.src 0x18 (if s.anyUnmapped a n then 1 else if s.anyPoison a n then 3 else 0) (pTag p) 0 (s.loadDev a n) ∧
      (p.field 14 1 = 1 → bit (tget 0 t.fab.dir (p.field 48 12)) (groupOf p.src) = true) ∧ Frame [.fab, .router] s t) ∧
    (∀ q ∈ [(Instr.targetWrite p [], 0x11), (.targetFlaggedWrite ⟨p, []⟩, 0x12)], pFop p = q.2 → s.flagWaits p = false →
      s.anyUnmapped a (max n (pData p).length) = false →
      ∃ t, exec q.1 s = .next t ∧ (∀ i b, (pData p)[i]? = some b → t.memByte (a + i) = b) ∧
        (∀ i, i < a ∨ a + (pData p).length ≤ i → t.memByte i = s.memByte i) ∧
        (t.Sent 3 p.src 0x19) ∧
        (∀ i, t.ctr i = (if q.2 = 0x12 ∧ i = p.field 192 14 ∧ p.field 206 14 ≠ 0
          then min (s.ctr i + p.field 206 14) 0xFFFF else s.ctr i)) ∧
        Frame [.sync, .mem, .fab, .router, .obj] s t) ∧
    (s.flagWaits p = true →
      ∃ t, exec (.targetFlaggedWrite ⟨p, []⟩) s = .next t ∧ p ∈ t.router.delivered ∧ t.router.inj = s.router.inj ∧
        Frame [.router] s t) ∧
    (let seq := p.field 128 32
      let wide := p.field 12 1 == 1
      let w := atomBytes wide
      let fresh := p.field 24 1 = 1
      let known : Prop := (s.wmOf p.src).isSome = true ∧ s.atomCtxs (· == p.src) ≠ []
      let z := if fresh then (s.setFab { s.fab with wm := tset 0 s.fab.wm p.src 1 }).setResp
        (s.fab.resp.filter (fun y => y.src != p.src)) else s
      let u := z.ackArrive p.src (p.field 160 32)
      let x := leNat (s.loadDev a w)
      let new := atomNew (p.field 8 4) wide x (p.field 256 64 % 2 ^ (8 * w)) (p.field 320 64 % 2 ^ (8 * w))
      ((fresh → ¬known) →
        ((∀ m, u.wmOf p.src = some m → seqBefore seq m = false) → (∀ e ∈ u.fab.resp, ¬(e.src = p.src ∧ e.seq = seq)) →
          u.fab.resp.length < 16384 → s.anyUnmapped a w = false → s.anyPoison a w = false →
          ∃ t, exec (.targetAtomic ⟨p, []⟩) s = .next t ∧ (∀ i b, (toLE w new)[i]? = some b → t.memByte (a + i) = b) ∧
            (∀ i, i < a ∨ a + w ≤ i → t.memByte i = s.memByte i) ∧
            answers t p.src 0x1A 0 seq (if p.field 13 1 = 1 then x else 0) [] ∧
            t.fab.resp.getLast? = some ⟨p.src, seq, p.ctx, 0, if p.field 13 1 = 1 then x else 0, s.clk⟩ ∧
            Frame [.mem, .fab, .router] s t) ∧
        (∀ e, (∀ m, u.wmOf p.src = some m → seqBefore seq m = false) → e ∈ u.fab.resp → e.src = p.src → e.seq = seq →
          (∀ y ∈ u.fab.resp, y.src = p.src → y.seq = seq → y = e) → e.status < 16 → e.result < 2 ^ 64 →
          ∃ t, exec (.targetAtomic ⟨p, []⟩) s = .next t ∧ answers t p.src 0x1A e.status seq e.result [] ∧
            t.fab.resp = u.fab.resp ∧ Frame [.fab, .router] s t) ∧
        (∀ m, u.wmOf p.src = some m → seqBefore seq m = true →
          ∃ t, exec (.targetAtomic ⟨p, []⟩) s = .next t ∧ t.router.inj = s.router.inj ∧
            t.router.delivered = (s.taken p).router.delivered ∧
            t.ov atomicDupId = min (s.ov atomicDupId + 1) (2 ^ 32 - 1) ∧ Frame [.fab, .router, .obj] s t)) ∧
      (fresh → known →
        ∃ t, exec (.targetAtomic ⟨p, []⟩) s = .next t ∧ (∀ c ∈ s.atomCtxs (· == p.src), s.Failed t c) ∧
          (∀ e ∈ t.fab.resp, e.src = p.src → e.seq = seq) ∧ Frame [.mem, .fab, .router, .steps, .obj, .flash] s t)) ∧
    (∀ m, pMembers p = [m] →
      let wide := p.field 12 1 == 1
      let w := atomBytes wide
      let b := a / 64 * 64 + bits m 16 6
      let x := leNat (s.loadDev b w)
      let first : Prop := p.field 24 1 = 1 ∧ mSeq m = 0
      (first → ¬((s.wmOf (mSrc m)).isSome = true ∧ s.atomCtxs (· == mSrc m) ≠ [])) →
      (¬first → ∀ k, s.wmOf (mSrc m) = some k → seqBefore (mSeq m) k = false) →
      (∀ e ∈ s.fab.resp, ¬(e.src = mSrc m ∧ e.seq = mSeq m)) → s.fab.resp.length < 16384 →
      s.anyUnmapped b w = false → s.anyPoison b w = false →
      ∃ t, exec (.atomicCombined ⟨p, []⟩) s = .next t ∧
        (∀ i y, (toLE w (atomNew (p.field 8 4) wide x (bits m 64 64 % 2 ^ (8 * w)) 0))[i]? = some y →
          t.memByte (b + i) = y) ∧
        (∀ i, i < b ∨ b + w ≤ i → t.memByte i = s.memByte i) ∧ answers t (mSrc m) 0x1A 0 (mSeq m) 0 [] ∧
        (first → t.wmOf (mSrc m) = some 0) ∧ (¬first → s.wmOf (mSrc m) = none → t.wmOf (mSrc m) = some (mSeq m)) ∧
        Frame [.mem, .fab, .router] s t) ∧
    (let ack := p.field 160 32
      let new := match s.wmOf p.src with
        | some m => if seqBefore m ack then ack else m
        | none => ack
      ∃ t, exec (.atomicAck p) s = .next t ∧ t.wmOf p.src = some new ∧
        (∀ e, e ∈ t.fab.resp ↔ e ∈ s.fab.resp ∧ ¬(e.src = p.src ∧ seqBefore e.seq new = true)) ∧
        t.router.inj = s.router.inj ∧ t.router.delivered = (s.taken p).router.delivered ∧ Frame [.fab, .router] s t))

/-- Invalidation: where no module beyond this one reads the range the holder is answered at once, else INV goes down the tree;
a leaf drops the lines of its group and acknowledges upward; the last INV_ACK ends a tree: at the root with the expected count
the holder gets INV_DONE, elsewhere the sum goes up; with the main rails off none acts (01 R17, 14 R346, R347). -/
def Obligations.InvalidationsReachEveryReader : Prop :=
  ∀ (s : State) (p : Packet), s.wf = true → p.wf = true →
    let groups := tget 0 s.fab.dir (p.field 48 12)
    let reads := (s.blockDevs p.ctx).any (fun d => bit groups (groupOf d))
    (s.power.rails = false → ∀ c ∈ [Instr.targetInvalidate p, .inv p, .invAck p], exec c s = .next s) ∧
    (s.power.rails = true →
    (groups = 0 ∨ reads = false ∨ s.invLinks p.ctx s.me groups = [] →
      ∃ t, exec (.targetInvalidate p) s = .next t ∧ t.Sent 3 p.src 0x1B ∧ t.fab.invs = s.fab.invs ∧
        (groups = 0 → t.fab.lines = s.fab.lines) ∧ Frame [.fab, .router] s t) ∧
    (groups ≠ 0 → reads = true → s.invLinks p.ctx s.me groups ≠ [] →
      ∃ t y, exec (.targetInvalidate p) s = .next t ∧ t.fab.invs = s.fab.invs ++ [y] ∧ y.id = s.fab.nextInv ∧
        y.root = s.me ∧ y.children = (s.invLinks p.ctx s.me groups).length ∧ y.holder = p.src ∧ y.tag = pTag p ∧
        t.Sent 4 s.me 0x20 ∧
        (bit groups (groupOf s.me) = true → ∀ l ∈ t.fab.lines,
          ¬(l.dest = s.me ∧ pAddr p ≤ l.addr ∧ l.addr < pAddr p + p.field 128 64)) ∧
        (p.field 15 1 = 1 → twf 0 s.fab.dir = true → tget 0 t.fab.dir (p.field 48 12) = 0) ∧ Frame [.fab, .router] s t) ∧
    (p.src ≠ s.me → s.treeLinks p.ctx p.src = [] →
      ∃ t, exec (.inv p) s = .next t ∧ t.Sent 4 (s.treeParent p.ctx p.src) 0x21 ∧ t.fab.invs = s.fab.invs ∧
        (bit (Config.invGroups p.src (p.field 16 16)) (groupOf s.me) = true → ∀ l ∈ t.fab.lines,
          ¬(l.dest = p.src ∧ pAddr p ≤ l.addr ∧ l.addr < pAddr p + p.field 128 64)) ∧ Frame [.fab, .router] s t) ∧
    (∀ y, s.fab.invs = [y] → y.id = p.field 16 16 → y.ctx = p.ctx → y.addr = pAddr p → y.len = p.field 128 64 →
      0 < p.field 32 16 →
      (1 < y.children →
        ∃ t, exec (.invAck p) s = .next t ∧
          t.fab.invs = [{ y with children := y.children - 1, count := y.count + p.field 32 16 }] ∧
          t.router = (s.taken p).router ∧ Frame [.fab, .router] s t) ∧
      (y.children = 1 → y.root = s.me → y.count + p.field 32 16 = y.expect →
        ∃ t, exec (.invAck p) s = .next t ∧ t.fab.invs = [] ∧ t.Sent 3 y.holder 0x1B ∧ Frame [.fab, .router] s t) ∧
      (y.children = 1 → y.root ≠ s.me →
        ∃ t, exec (.invAck p) s = .next t ∧ t.fab.invs = [] ∧ t.Sent 4 (s.treeParent y.ctx y.root) 0x21 ∧
          Frame [.fab, .router] s t)))

/-- Responses end their command: READ_DATA lands its bytes, WRITE_ACK, ATOMIC_RESP and INV_DONE give the STATUS; READ_DATA of
a tile's request is kept for it, and the WRITE_ACK of a tile's last open request ends it; a BUSY atomic waits for its retry;
an atomic without a response is sent again with the ACK_SEQ of the moment, and abandoned at the eighth timeout; any other
command, and a tile's request, times out; a response does nothing with the main rails off (01 R17, 05 R108, 14 R335, R338,
R339, R341, R345, R350, R352). -/
def Obligations.ResponsesEndTheirCommands : Prop :=
  ∀ s : State, s.wf = true →
    (∀ p : Packet, p.wf = true → s.power.rails = false →
      ∀ c ∈ [Instr.readData p, .writeAck p, .invDone p, .atomicResp p], exec c s = .next s) ∧
    (∀ (p : Packet) k, s.power.rails = true → p.wf = true →
      let st := respStatus (p.field 8 4)
      let v := k.word
      (s.fabFind p.src (p.field 32 32) [1] = some k →
        let data := ((p.body.drop 16).drop (if k.cached then gOff (fcGaddr v) % 128 else 0)).take (fcBytes v)
        ∃ t, exec (.readData p) s = .next t ∧ s.Completes t k st 0 ∧
          (fcLexch v = false → s.anyUnmapped (fcLaddr v) (fcBytes v) = false →
            (fcLaddr v + fcBytes v ≤ k.slot + 0x30 ∨ k.slot + 0x40 ≤ fcLaddr v) →
            ∀ i b, data[i]? = some b → t.memByte (fcLaddr v + i) = b) ∧
          Frame [.sync, .mem, .urn, .fab, .router, .steps, .obj] s t) ∧
      (s.fabFind p.src (p.field 32 32) [2, 3] = some k →
        ∃ t, exec (.writeAck p) s = .next t ∧ s.Completes t k (if st = 0 then k.local_ else st) 0 ∧
          Frame [.sync, .mem, .fab, .router, .steps, .red, .obj] s t) ∧
      (s.fabFind p.src (p.field 32 32) [5] = some k →
        ∃ t, exec (.invDone p) s = .next t ∧ s.Completes t k 0 0 ∧
          Frame [.sync, .mem, .fab, .router, .steps, .obj] s t) ∧
      (∀ a, s.atomFind p.src (p.field 32 32) = some a → p.field 8 4 ≠ 2 → s.fabFind a.dest a.tag [4] = some k →
        ∃ t, exec (.atomicResp p) s = .next t ∧ s.Completes t k st (p.field 64 64) ∧
          Frame [.sync, .mem, .fab, .router, .steps, .obj] s t)) ∧
    (∀ (p : Packet) r, s.power.rails = true → p.wf = true → s.fab.tileReqs = [r] →
      let st := respStatus (p.field 8 4)
      (s.fabFind p.src (p.field 32 32) [1] = none → s.tileFind p.src (p.field 32 32) false = some r →
        (∀ x ∈ (s.core r.core).tiles, x.stage ≠ .acking) → (∀ x ∈ s.txe.busy, x.acking = false) →
        ∃ t, exec (.readData p) s = .next t ∧
          t.fab.tileReqs = [{ r with got := some ((p.body.drop 16).take r.len), cause := st }] ∧ t.cores = s.cores ∧
          Frame [.fab, .router] s t) ∧
      (∀ x, s.fabFind p.src (p.field 32 32) [2, 3] = none → s.tileFind p.src (p.field 32 32) true = some r →
        r.core < 256 → (s.core r.core).tiles = [x] → x.stage = .acking → x.ctx = r.ctx → x.seq = r.seq → x.status = 0 →
        x.causes = [] → x.frees = [] → x.flags = 0 → dCplAlways x.desc = false → st = 0 →
        ∃ t, exec (.writeAck p) s = .next t ∧ (t.core r.core).tiles = [] ∧ t.fab.tileReqs = [] ∧
          t.sync = ((s.signalWord x.ctx (dSignal x.desc 0)).signalWord x.ctx (dSignal x.desc 1)).sync ∧
          OtherCores r.core s t ∧ Frame [.cores, .sync, .fab, .router, .steps, .red, .obj] s t)) ∧
    (∀ (p : Packet) a, s.power.rails = true → p.wf = true → s.fab.atoms = [a] → a.dest = p.src → a.seq = p.field 32 32 →
      p.field 8 4 = 2 →
      ∃ t, exec (.atomicResp p) s = .next t ∧
        t.fab.atoms = [⟨a.dest, a.seq, a.tag, a.pkt, s.clk, a.timeouts,
          if a.busy = 0 then 1000 else min 64000 (2 * a.busy), true⟩] ∧
        t.fab.cmds = s.fab.cmds ∧ bit (t.ov fabStatusId) 1 = true ∧ Frame [.fab, .router, .obj] s t) ∧
    (∀ a, s.fab.atoms = [a] →
      let q := againPkt a.pkt a.seq
      (a.waits = false → a.timeouts < 7 → a.sentAt + 1000 * s.ov atomicRetryId ≤ s.clk →
        ∃ t, exec (.atomicRetryTimeout a.dest a.seq) s = .next t ∧
          t.fab.atoms = [{ a with timeouts := a.timeouts + 1, sentAt := s.clk, pkt := q }] ∧
          t.Waiting q ∧ Frame [.fab, .router] s t) ∧
      (∀ k, a.waits = false → 7 ≤ a.timeouts → a.sentAt + 1000 * s.ov atomicRetryId ≤ s.clk →
        s.fabFind a.dest a.tag [4] = some k →
        ∃ t, exec (.atomicRetryTimeout a.dest a.seq) s = .next t ∧ s.Completes t k 6 0 ∧
          bit (t.ov fabStatusId) 2 = true ∧ Frame [.sync, .mem, .fab, .router, .steps, .obj] s t) ∧
      (a.waits = true → a.sentAt + a.busy ≤ s.clk →
        ∃ t, exec (.atomicBusyRetry a.dest a.seq) s = .next t ∧
          t.fab.atoms = [{ a with waits := false, sentAt := s.clk, pkt := q }] ∧
          t.Waiting q ∧ Frame [.fab, .router] s t)) ∧
    (∀ tag k, (s.fab.cmds.filter (fun x => x.tag == tag)).head? = some k → fcOp k.word ≠ 4 → k.held = none →
      k.at_ + 8000 * s.ov atomicRetryId ≤ s.clk →
      ∃ t, exec (.fabTimeout tag) s = .next t ∧ s.Completes t k 5 0 ∧ bit (t.ov fabStatusId) 5 = true ∧
        Frame [.sync, .mem, .fab, .router, .steps, .obj] s t) ∧
    (∀ tag r, (s.fab.cmds.filter (fun x => x.tag == tag)) = [] → s.fab.tileReqs = [r] → r.tag = tag → r.got = none →
      r.at_ + 8000 * s.ov atomicRetryId ≤ s.clk → (∀ x ∈ (s.core r.core).tiles, x.stage ≠ .acking) →
      (∀ x ∈ s.txe.busy, x.acking = false) →
      ∃ (t : State) (bs : List Byte), exec (.fabTimeout tag) s = .next t ∧
        t.fab.tileReqs = [{ r with got := some bs, cause := 7 }] ∧
        bit (t.ov fabStatusId) 5 = true ∧ Frame [.fab, .obj] s t)

/-- The fabric's timers: ACK_SEQ that nothing has carried for 10 µs goes in an ATOMIC_ACK; a response entry 100 ms old is freed
and the watermark passes it; a destination of the hot list without a HOT in the µs rises by 16 and leaves at 1,024, and a
request that waited for its rate leaves as the next µs begins (14 R350, R352, R355); an expiry with nothing due changes nothing
(the model's choice, log 2). -/
def Obligations.FabricTimersAct : Prop :=
  ∀ s : State, s.wf = true →
    (∀ d, let l := tget (0, 0) s.fab.lastAck d
      seqBefore l.1 (s.ackSeq d) = true → l.2 + 10000 ≤ s.clk →
      ∃ t, exec (.atomicAckTimer d) s = .next t ∧ t.Sent 2 d 0x15 ∧ tget (0, 0) t.fab.lastAck d = (s.ackSeq d, s.clk) ∧
        Frame [.fab, .router] s t) ∧
    (∀ e, s.fab.resp = [e] → e.at_ + 100000000 ≤ s.clk →
      ∃ t, exec .atomicEntryExpiry s = .next t ∧ t.fab.resp = [] ∧ t.wmOf e.src = some ((e.seq + 1) % 2 ^ 32) ∧
        bit (t.ov fabStatusId) 4 = true ∧ Frame [.fab, .obj] s t) ∧
    ((∀ e ∈ s.fab.resp, s.clk < e.at_ + 100000000) → exec .atomicEntryExpiry s = .next s) ∧
    (∃ t, exec .hotRateTick s = .next t ∧
      t.fab.hot.map (fun x => (x.dest, x.rate, x.marked)) =
        (s.fab.hot.map (fun y => (y.dest, if y.marked then y.rate else y.rate + 16, false))).filter
          (fun x => decide (x.2.1 < 1024)) ∧
      (∀ q, s.fab.capped = [q] → (∀ y ∈ s.fab.hot, y.dest = q.2.dest → 0 < y.rate) →
        t.fab.capped = [] ∧ q.2 ∈ tget [] t.router.inj q.1) ∧
      Frame [.fab, .router] s t)

/-- R43. Conversion to an integer format rounds the value to the nearest integer, to the even one of two, in every
conversion mode; beyond the range it saturates; an infinity gives the range end of its sign with SATURATE, NaN gives 0 with
INVALID. An integer converts to a float as the exact integer that it is. -/
def Obligations.FloatToIntegerRoundsAndSaturates : Prop :=
  ∀ (f : Fmt) (mode r : Nat), fmtIsInt f = true →
    let w := fmtWidth f
    let lo : Int := -(2 ^ (w - 1) : Nat)
    let hi : Int := (2 ^ (w - 1) : Nat) - 1
    convertTo f mode r .nan = (0, flagInvalid) ∧
    convertTo f mode r (.inf true) = (ofInt w lo, flagSaturate) ∧
    convertTo f mode r (.inf false) = (ofInt w hi, flagSaturate) ∧
    (∀ neg (m : Nat) (e : Int),
      let v : ℚ := (if neg then -1 else 1) * (m : ℚ) * (2 : ℚ) ^ e
      ∃ i : Int, |v - (i : ℚ)| ≤ 1 / 2 ∧ (|v - (i : ℚ)| = 1 / 2 → i % 2 = 0) ∧
        (lo ≤ i → i ≤ hi → convertTo f mode r (.fin neg m e) = (ofInt w i, flagNone)) ∧
        (i < lo → convertTo f mode r (.fin neg m e) = (ofInt w lo, flagSaturate)) ∧
        (hi < i → convertTo f mode r (.fin neg m e) = (ofInt w hi, flagSaturate))) ∧
    (∀ g code, fmtIsInt g = false →
      convertTo g mode r (decodeFmt f code) = toFloat g (modeRnd g mode r) (bit mode 1) (fvOfInt (sext w code)))

/-- R40. A block-scaled element is its code's value times 2 to the power of the scale code less 127, exactly; under the scale
code 0xFF it is NaN whatever its code, and the reading unit sets NAN_SCALE. -/
def Obligations.BlockScaledValuesAreExact : Prop :=
  ∀ (rd : Rd) (f : Fmt) (a i sa : Nat),
    let k := leNat (rd sa 1).1
    let c := (codeAt rd (fmtWidth f) a i).1
    let x := elemAt rd f a i (some sa)
    (k = 0xFF → elemValue x.1 = some .nan ∧ x.2.2 = flagNanScale) ∧
    (k ≠ 0xFF → x.2.2 = flagNone ∧
      (decodeFmt f c = .nan → elemValue x.1 = some .nan) ∧
      (∀ neg, decodeFmt f c = .inf neg → elemValue x.1 = some (.inf neg)) ∧
      ∀ neg (m : Nat) (e : Int), decodeFmt f c = .fin neg m e → ∃ (neg' : Bool) (m' : Nat) (e' : Int),
          elemValue x.1 = some (.fin neg' m' e') ∧
        (if neg' then -1 else 1) * (m' : ℚ) * (2 : ℚ) ^ e' =
          (if neg then -1 else 1) * (m : ℚ) * (2 : ℚ) ^ e * (2 : ℚ) ^ ((k : Int) - 127))
end

