-- ==== Sys2Proof/Laws/Tables.lean ====
section
/-!
SUPPORT. Laws of the sparse tables: what a read answers after a write, and that every write keeps the canonical form.
-/

namespace Sys2Proof.Machine

variable {α : Type}

@[simp] theorem tget_nil (d : α) (i : Nat) : tget d [] i = d := rfl

theorem tget_tins_self (d : α) (t : Tbl α) (i : Nat) (x : α) : tget d (tins t i x) i = x := by
  induction t with
  | nil => simp [tins, tget]
  | cons p t ih =>
    obtain ⟨k, v⟩ := p
    unfold tins
    split
    · simp [tget]
    · split
      · rename_i h _
        simp [tget, h, ih]
      · simp [tget]

theorem tget_tins_of_ne (d : α) (t : Tbl α) {i j : Nat} (x : α) (h : i ≠ j) :
    tget d (tins t i x) j = tget d t j := by
  induction t with
  | nil => simp [tins, tget, h]
  | cons p t ih =>
    obtain ⟨k, v⟩ := p
    unfold tins
    split
    · rename_i hk
      subst hk
      simp [tget, h]
    · split
      · simp [tget, ih]
      · simp [tget, h]

theorem tget_terase_of_ne (d : α) (t : Tbl α) {i j : Nat} (h : i ≠ j) : tget d (terase t i) j = tget d t j := by
  induction t with
  | nil => rfl
  | cons p t ih =>
    obtain ⟨k, v⟩ := p
    unfold terase
    split
    · rename_i hk
      subst hk
      simp [tget, h]
    · split
      · simp [tget, ih]
      · rfl

/-- A write to one entry leaves every other entry as it reads. -/
theorem tget_tset_of_ne [DecidableEq α] (d : α) (t : Tbl α) {i j : Nat} (x : α) (h : i ≠ j) :
    tget d (tset d t i x) j = tget d t j := by
  unfold tset
  split
  · exact tget_terase_of_ne d t h
  · exact tget_tins_of_ne d t x h

/-- The keys of a table are all above `lo`. -/
theorem keysFrom_weaken {t : Tbl α} {lo : Nat} (h : keysFrom (some lo) t = true) : keysFrom none t = true := by
  cases t with
  | nil => rfl
  | cons p t =>
    obtain ⟨k, v⟩ := p
    simp only [keysFrom, Bool.and_eq_true] at h
    exact h.2

theorem keysFrom_mono {t : Tbl α} {a b : Nat} (hab : a ≤ b) (h : keysFrom (some b) t = true) :
    keysFrom (some a) t = true := by
  cases t with
  | nil => rfl
  | cons p t =>
    obtain ⟨k, v⟩ := p
    simp only [keysFrom, Bool.and_eq_true, decide_eq_true_eq] at h ⊢
    exact ⟨by omega, h.2⟩

theorem tget_of_keysFrom (d : α) {t : Tbl α} {lo j : Nat} (h : keysFrom (some lo) t = true) (hj : j ≤ lo) :
    tget d t j = d := by
  induction t generalizing lo with
  | nil => rfl
  | cons p t ih =>
    obtain ⟨k, v⟩ := p
    simp only [keysFrom, Bool.and_eq_true, decide_eq_true_eq] at h
    have : k ≠ j := by omega
    simp [tget, this, ih h.2 (by omega)]

theorem tget_terase_self (d : α) {t : Tbl α} {i : Nat} (h : keysFrom none t = true) : tget d (terase t i) i = d := by
  induction t with
  | nil => rfl
  | cons p t ih =>
    obtain ⟨k, v⟩ := p
    simp only [keysFrom] at h
    unfold terase
    split
    · rename_i hk
      subst hk
      exact tget_of_keysFrom d h (Nat.le_refl _)
    · rename_i hk
      split
      · simp [tget, hk, ih (keysFrom_weaken h)]
      · have : i ≤ k := by omega
        simp [tget, hk, tget_of_keysFrom d h this]

/-- A table in canonical form reads back what was written. -/
theorem tget_tset_self [DecidableEq α] (d : α) {t : Tbl α} (h : twf d t = true) (i : Nat) (x : α) :
    tget d (tset d t i x) i = x := by
  unfold tset
  split
  · rename_i hx
    subst hx
    simp only [twf, Bool.and_eq_true] at h
    exact tget_terase_self x h.1
  · exact tget_tins_self d t i x

/-- A value other than the default reads back whatever the table. -/
theorem tget_tset_self_of_ne [DecidableEq α] (d : α) (t : Tbl α) (i : Nat) {x : α} (h : x ≠ d) :
    tget d (tset d t i x) i = x := by
  simp [tset, h, tget_tins_self]

/-! Canonical form. -/

theorem keysFrom_terase {t : Tbl α} {lo : Option Nat} (i : Nat) (h : keysFrom lo t = true) :
    keysFrom lo (terase t i) = true := by
  induction t generalizing lo with
  | nil => exact h
  | cons p t ih =>
    obtain ⟨k, v⟩ := p
    unfold terase
    cases lo with
    | none =>
      simp only [keysFrom] at h
      split
      · exact keysFrom_weaken h
      · split
        · simpa [keysFrom] using ih h
        · exact h
    | some lo =>
      simp only [keysFrom, Bool.and_eq_true, decide_eq_true_eq] at h
      split
      · exact keysFrom_mono (by omega) h.2
      · split
        · simpa [keysFrom, h.1] using ih h.2
        · simpa [keysFrom, h.1] using h.2

theorem keysFrom_tins {t : Tbl α} {lo : Option Nat} {i : Nat} (x : α) (h : keysFrom lo t = true)
    (hi : ∀ l, lo = some l → l < i) : keysFrom lo (tins t i x) = true := by
  induction t generalizing lo with
  | nil =>
    cases lo with
    | none => rfl
    | some l => simpa [tins, keysFrom] using hi l rfl
  | cons p t ih =>
    obtain ⟨k, v⟩ := p
    unfold tins
    cases lo with
    | none =>
      simp only [keysFrom] at h
      split
      · rename_i hk
        subst hk
        exact h
      · split
        · simpa [keysFrom] using ih h (by simpa using ‹k < i›)
        · simp [keysFrom, h]
          omega
    | some lo =>
      simp only [keysFrom, Bool.and_eq_true, decide_eq_true_eq] at h
      have hl := hi lo rfl
      split
      · rename_i hk
        subst hk
        simp [keysFrom, hl, h.2]
      · split
        · simpa [keysFrom, h.1] using ih h.2 (by simpa using ‹k < i›)
        · simp [keysFrom, hl, h.2]
          omega

theorem all_terase {t : Tbl α} {p : Nat × α → Bool} (i : Nat) (h : t.all p = true) : (terase t i).all p = true := by
  induction t with
  | nil => rfl
  | cons q t ih =>
    obtain ⟨k, v⟩ := q
    simp only [List.all_cons, Bool.and_eq_true] at h
    unfold terase
    split
    · exact h.2
    · split
      · simp [h.1, ih h.2]
      · simp [h.1, h.2]

theorem all_tins {t : Tbl α} {p : Nat × α → Bool} {i : Nat} {x : α} (h : t.all p = true) (hx : p (i, x) = true) :
    (tins t i x).all p = true := by
  induction t with
  | nil => simpa [tins] using hx
  | cons q t ih =>
    obtain ⟨k, v⟩ := q
    simp only [List.all_cons, Bool.and_eq_true] at h
    unfold tins
    split
    · simp [hx, h.2]
    · split
      · simp [h.1, ih h.2]
      · simp [hx, h.1, h.2]

/-- Every write keeps the canonical form. -/
theorem twf_tset [DecidableEq α] (d : α) {t : Tbl α} (i : Nat) (x : α) (h : twf d t = true) :
    twf d (tset d t i x) = true := by
  simp only [twf, Bool.and_eq_true] at h ⊢
  unfold tset
  split
  · exact ⟨keysFrom_terase i h.1, all_terase i h.2⟩
  · exact ⟨keysFrom_tins x h.1 (by simp), all_tins h.2 (by simpa using ‹_›)⟩

theorem twf_tcanon [DecidableEq α] (d : α) (t : Tbl α) : twf d (tcanon d t) = true := by
  suffices h : ∀ u : Tbl α, twf d u = true → twf d (t.foldl (fun u p => tset d u p.1 p.2) u) = true from h [] rfl
  induction t with
  | nil => exact fun _ h => h
  | cons p t ih => exact fun u h => ih _ (twf_tset d p.1 p.2 h)

theorem keysFrom_tset [DecidableEq α] (d : α) {t : Tbl α} (i : Nat) (x : α) (h : keysFrom none t = true) :
    keysFrom none (tset d t i x) = true := by
  unfold tset
  split
  · exact keysFrom_terase i h
  · exact keysFrom_tins x h (by simp)

/-- Keeping some entries keeps the order of keys. -/
theorem keysFrom_filter {t : Tbl α} {lo : Option Nat} (p : Nat × α → Bool) (h : keysFrom lo t = true) :
    keysFrom lo (t.filter p) = true := by
  induction t generalizing lo with
  | nil => exact h
  | cons q t ih =>
    obtain ⟨k, v⟩ := q
    cases lo with
    | none =>
      simp only [keysFrom] at h
      simp only [List.filter_cons]
      split
      · exact ih h
      · exact keysFrom_weaken (ih h)
    | some lo =>
      simp only [keysFrom, Bool.and_eq_true, decide_eq_true_eq] at h
      simp only [List.filter_cons]
      split
      · simp [keysFrom, h.1, ih h.2]
      · exact keysFrom_mono (by omega) (ih h.2)

/-- Changing the values keeps the order of keys. -/
theorem keysFrom_map {β : Type} {t : Tbl α} {lo : Option Nat} (f : α → β) (h : keysFrom lo t = true) :
    keysFrom lo (t.map (fun p => (p.1, f p.2))) = true := by
  induction t generalizing lo with
  | nil => cases lo <;> rfl
  | cons q t ih =>
    obtain ⟨k, v⟩ := q
    cases lo with
    | none =>
      simp only [keysFrom] at h
      simpa [keysFrom] using ih h
    | some lo =>
      simp only [keysFrom, Bool.and_eq_true, decide_eq_true_eq] at h
      simpa [keysFrom, h.1] using ih h.2

/-- A table with every entry changed is canonical. -/
theorem twf_tmap [DecidableEq α] (d : α) (f : α → α) {t : Tbl α} (h : keysFrom none t = true) :
    twf d (tmap d f t) = true := by
  simp only [twf, tmap, Bool.and_eq_true]
  refine ⟨keysFrom_filter _ (keysFrom_map f h), ?_⟩
  simp [List.all_eq_true]

theorem twf_keys [DecidableEq α] {d : α} {t : Tbl α} (h : twf d t = true) : keysFrom none t = true := by
  simp only [twf, Bool.and_eq_true] at h
  exact h.1

theorem twf_nil [DecidableEq α] (d : α) : twf d [] = true := rfl

/-- Storing a list of bytes keeps the canonical form. -/
theorem twf_tstore (t : Tbl Byte) (a : Nat) (bs : List Byte) (h : twf 0 t = true) : twf 0 (tstore t a bs) = true := by
  induction bs generalizing t a with
  | nil => exact h
  | cons b bs ih => exact ih _ _ (twf_tset 0 a b h)

/-- Storing a list of bytes leaves every byte outside its range as it reads. -/
theorem tget_tstore_of_outside (t : Tbl Byte) (a : Nat) (bs : List Byte) {i : Nat} (h : i < a ∨ a + bs.length ≤ i) :
    tget 0 (tstore t a bs) i = tget 0 t i := by
  induction bs generalizing t a with
  | nil => rfl
  | cons b bs ih =>
    simp only [List.length_cons] at h
    simp only [tstore]
    rw [ih _ _ (by omega), tget_tset_of_ne 0 t b (by omega)]

/-- What a store leaves at each byte of its range. -/
theorem tget_tstore_inside (t : Tbl Byte) (a : Nat) (bs : List Byte) (hw : twf 0 t = true) {i : Nat} (h : i < bs.length) :
    tget 0 (tstore t a bs) (a + i) = bs[i] := by
  induction bs generalizing t a i with
  | nil => simp at h
  | cons b bs ih =>
    simp only [tstore]
    cases i with
    | zero =>
      rw [tget_tstore_of_outside _ _ _ (by omega)]
      exact tget_tset_self 0 hw a b
    | succ i =>
      have := ih (tset 0 t a b) (a + 1) (twf_tset 0 a b hw) (i := i) (by simpa using h)
      rw [show a + (i + 1) = a + 1 + i by omega]
      simpa using this

end Sys2Proof.Machine
end

