-- ==== Sys2Proof/Laws/Runs.lean ====
section
/-!
SUPPORT. The relation in which every operation's law is stated: which parts of the state an operation may change, and
that it keeps the tables' canonical form; with its rules of composition.
-/

namespace Sys2Proof.Machine

/-- Going from `s` to `t` changes only the parts in `L`, leaves the queue as it is, and keeps the canonical form. -/
structure Runs (L : List Part) (s t : State) : Prop where
  same : ∀ p, L.contains p = false → p.Same s t
  queue : t.pending = s.pending
  wf : s.wf = true → t.wf = true

/-- One list of parts lies within another. -/
def within (a b : List Part) : Bool := a.all b.contains

theorem within_trans {a b c : List Part} (h : within a b = true) (k : within b c = true) : within a c = true := by
  simp only [within, List.all_eq_true, List.contains_iff_mem] at h k ⊢
  exact fun x hx => k x (h x hx)

theorem within_refl (a : List Part) : within a a = true := by
  simp only [within, List.all_eq_true, List.contains_iff_mem]
  exact fun _ h => h

theorem Part.Same.refl (s : State) (p : Part) : p.Same s s := by cases p <;> rfl

theorem Part.Same.trans {s t u : State} {p : Part} (h : p.Same s t) (k : p.Same t u) : p.Same s u := by
  cases p <;> (simp only [Part.Same] at h k ⊢; exact k.trans h)

theorem Runs.refl {L : List Part} (s : State) : Runs L s s := ⟨fun p _ => Part.Same.refl s p, rfl, id⟩

theorem Runs.mono {a b : List Part} {s t : State} (h : Runs a s t) (hab : within a b = true) : Runs b s t := by
  refine ⟨fun p hp => h.same p ?_, h.queue, h.wf⟩
  cases hc : a.contains p with
  | false => rfl
  | true =>
    have := List.all_eq_true.mp hab p (List.contains_iff_mem.mp hc)
    rw [this] at hp
    cases hp

theorem Runs.trans {L : List Part} {s t u : State} (h : Runs L s t) (k : Runs L t u) : Runs L s u :=
  ⟨fun p hp => (h.same p hp).trans (k.same p hp), k.queue.trans h.queue, fun w => k.wf (h.wf w)⟩

theorem Runs.frame {L : List Part} {s t : State} (h : Runs L s t) : Frame L s t := ⟨h.same, h.queue⟩

/-- An operation after what came before it. -/
theorem Runs.comp {a L : List Part} {s t u : State} (k : Runs a t u) (hab : within a L = true) (h : Runs L s t) :
    Runs L s u := h.trans (k.mono hab)

theorem Runs.ite {L : List Part} {c : Prop} [Decidable c] {s t u : State} (h : c → Runs L s t) (k : ¬c → Runs L s u) :
    Runs L s (if c then t else u) := by
  split
  · exact h ‹_›
  · exact k ‹_›

theorem Runs.foldl {α : Type} {L : List Part} {f : State → α → State} (hf : ∀ t x, Runs L t (f t x)) (xs : List α)
    {s₀ s : State} (h : Runs L s₀ s) : Runs L s₀ (xs.foldl f s) := by
  induction xs generalizing s with
  | nil => exact h
  | cons x xs ih => exact ih (h.trans (hf s x))

/-- A fold that carries a value beside the state. -/
theorem Runs.foldl_fst {α β : Type} {L : List Part} {f : State × β → α → State × β}
    (hf : ∀ t b x, Runs L t (f (t, b) x).1) (xs : List α) {s₀ : State} {r : State × β} (h : Runs L s₀ r.1) :
    Runs L s₀ (xs.foldl f r).1 := by
  induction xs generalizing r with
  | nil => exact h
  | cons x xs ih => exact ih (h.trans (hf r.1 r.2 x))

/-- The state of a pair that an operation answered. -/
theorem Runs.of_pair {β : Type} {L : List Part} {s t : State} {b : β} {r : State × β} (h : Runs L s r.1) (e : r = (t, b)) :
    Runs L s t := by
  rw [e] at h
  exact h

/-- Two parts that agree in all but the parts of `L`: the usual proof for a record update. -/
theorem Runs.mk' {L : List Part} {s t : State} (h : ∀ p, p.Same s t ∨ L.contains p = true) (hq : t.pending = s.pending)
    (hw : s.wf = true → t.wf = true) : Runs L s t := by
  refine ⟨fun p hp => ?_, hq, hw⟩
  rcases h p with h | h
  · exact h
  · rw [hp] at h
    cases h

/-- Where a command answers a next state, it has run within the parts of `L`. -/
def RunsTo (L : List Part) (s : State) (r : Result) : Prop := ∀ t, r = .next t → Runs L s t

theorem RunsTo.next {L : List Part} {s t : State} (h : Runs L s t) : RunsTo L s (.next t) := by
  intro u hu
  cases hu
  exact h

theorem RunsTo.need {L : List Part} {s : State} {ok : Bool} {r : Result} (h : RunsTo L s r) :
    RunsTo L s (need ok r) := by
  intro u hu
  cases ok with
  | true => exact h u hu
  | false => cases hu

/-! Replacing one part of the state. -/

theorem Runs.clk (s : State) (x : Nat) : Runs [.clk] s { s with clk := x } := by
  refine .mk' (fun p => ?_) rfl id
  cases p <;> first | exact .inl rfl | exact .inr rfl

theorem Runs.ft (s : State) (x : FabTime) (h : s.ft.wf = true → x.wf = true) :
    Runs [.ft] s { s with ft := x } := by
  refine .mk' (fun p => ?_) rfl (fun w => ?_)
  · cases p <;> first | exact .inl rfl | exact .inr rfl
  · simp_all [State.wf]

theorem Runs.pins (s : State) (x : Pins) : Runs [.pins] s { s with pins := x } := by
  refine .mk' (fun p => ?_) rfl id
  cases p <;> first | exact .inl rfl | exact .inr rfl

theorem Runs.power (s : State) (x : Power) (h : s.power.wf = true → x.wf = true) :
    Runs [.power] s { s with power := x } := by
  refine .mk' (fun p => ?_) rfl (fun w => ?_)
  · cases p <;> first | exact .inl rfl | exact .inr rfl
  · simp_all [State.wf]

theorem Runs.kettle (s : State) (x : Kettle) (h : s.kettle.wf = true → x.wf = true) :
    Runs [.kettle] s { s with kettle := x } := by
  refine .mk' (fun p => ?_) rfl (fun w => ?_)
  · cases p <;> first | exact .inl rfl | exact .inr rfl
  · simp_all [State.wf]

theorem Runs.cores (s : State) (x : Tbl Core) (h : twf .init s.cores = true → twf .init x = true) :
    Runs [.cores] s { s with cores := x } := by
  refine .mk' (fun p => ?_) rfl (fun w => ?_)
  · cases p <;> first | exact .inl rfl | exact .inr rfl
  · simp_all [State.wf]

theorem Runs.sched (s : State) (x : Sched) (h : s.sched.wf = true → x.wf = true) :
    Runs [.sched] s { s with sched := x } := by
  refine .mk' (fun p => ?_) rfl (fun w => ?_)
  · cases p <;> first | exact .inl rfl | exact .inr rfl
  · simp_all [State.wf]

theorem Runs.txe (s : State) (x : Txe) : Runs [.txe] s { s with txe := x } := by
  refine .mk' (fun p => ?_) rfl id
  cases p <;> first | exact .inl rfl | exact .inr rfl

theorem Runs.sync (s : State) (x : Sync) (h : s.sync.wf = true → x.wf = true) :
    Runs [.sync] s { s with sync := x } := by
  refine .mk' (fun p => ?_) rfl (fun w => ?_)
  · cases p <;> first | exact .inl rfl | exact .inr rfl
  · simp_all [State.wf]

theorem Runs.mem (s : State) (x : Mem) (h : s.mem.wf = true → x.wf = true) :
    Runs [.mem] s { s with mem := x } := by
  refine .mk' (fun p => ?_) rfl (fun w => ?_)
  · cases p <;> first | exact .inl rfl | exact .inr rfl
  · simp_all [State.wf]

theorem Runs.urn (s : State) (x : Urn) (h : s.urn.wf = true → x.wf = true) :
    Runs [.urn] s { s with urn := x } := by
  refine .mk' (fun p => ?_) rfl (fun w => ?_)
  · cases p <;> first | exact .inl rfl | exact .inr rfl
  · simp_all [State.wf]

theorem Runs.fab (s : State) (x : Fab) : Runs [.fab] s { s with fab := x } := by
  refine .mk' (fun p => ?_) rfl id
  cases p <;> first | exact .inl rfl | exact .inr rfl

theorem Runs.links (s : State) (x : Tbl Link) (h : twf .init s.links = true → twf .init x = true) :
    Runs [.links] s { s with links := x } := by
  refine .mk' (fun p => ?_) rfl (fun w => ?_)
  · cases p <;> first | exact .inl rfl | exact .inr rfl
  · simp_all [State.wf]

theorem Runs.router (s : State) (x : Router) (h : s.router.wf = true → x.wf = true) :
    Runs [.router] s { s with router := x } := by
  refine .mk' (fun p => ?_) rfl (fun w => ?_)
  · cases p <;> first | exact .inl rfl | exact .inr rfl
  · simp_all [State.wf]

theorem Runs.caddy (s : State) (x : Caddy) (h : s.caddy.wf = true → x.wf = true) :
    Runs [.caddy] s { s with caddy := x } := by
  refine .mk' (fun p => ?_) rfl (fun w => ?_)
  · cases p <;> first | exact .inl rfl | exact .inr rfl
  · simp_all [State.wf]

theorem Runs.host (s : State) (x : HostIf) (h : s.host.wf = true → x.wf = true) :
    Runs [.host] s { s with host := x } := by
  refine .mk' (fun p => ?_) rfl (fun w => ?_)
  · cases p <;> first | exact .inl rfl | exact .inr rfl
  · simp_all [State.wf]

theorem Runs.steps (s : State) (x : Tbl StepCtx) (h : twf .init s.steps = true → twf .init x = true) :
    Runs [.steps] s { s with steps := x } := by
  refine .mk' (fun p => ?_) rfl (fun w => ?_)
  · cases p <;> first | exact .inl rfl | exact .inr rfl
  · simp_all [State.wf]

theorem Runs.red (s : State) (x : Red) (h : s.red.wf = true → x.wf = true) :
    Runs [.red] s { s with red := x } := by
  refine .mk' (fun p => ?_) rfl (fun w => ?_)
  · cases p <;> first | exact .inl rfl | exact .inr rfl
  · simp_all [State.wf]

theorem Runs.obj (s : State) (x : Objects) (h : s.obj.wf = true → x.wf = true) :
    Runs [.obj] s { s with obj := x } := by
  refine .mk' (fun p => ?_) rfl (fun w => ?_)
  · cases p <;> first | exact .inl rfl | exact .inr rfl
  · simp_all [State.wf]

theorem Runs.flash (s : State) (x : Flash) : Runs [.flash] s { s with flash := x } := by
  refine .mk' (fun p => ?_) rfl id
  cases p <;> first | exact .inl rfl | exact .inr rfl

theorem Runs.ageing (s : State) (x : Ageing) (h : s.ageing.wf = true → x.wf = true) :
    Runs [.ageing] s { s with ageing := x } := by
  refine .mk' (fun p => ?_) rfl (fun w => ?_)
  · cases p <;> first | exact .inl rfl | exact .inr rfl
  · simp_all [State.wf]

theorem Runs.tele (s : State) (x : Telemetry) : Runs [.tele] s { s with tele := x } := by
  refine .mk' (fun p => ?_) rfl id
  cases p <;> first | exact .inl rfl | exact .inr rfl

theorem Runs.out (s : State) (x : Outputs) : Runs [.out] s { s with out := x } := by
  refine .mk' (fun p => ?_) rfl id
  cases p <;> first | exact .inl rfl | exact .inr rfl

theorem Runs.free (s : State) (x : Nat) : Runs [.free] s { s with free := x } := by
  refine .mk' (fun p => ?_) rfl id
  cases p <;> first | exact .inl rfl | exact .inr rfl

end Sys2Proof.Machine
end

