-- ==== Sys2Proof/Laws/OpsRuns.lean ====
section
/-!
SUPPORT. What the operations of Machine/Ops.lean may change, and that they keep the canonical form.
-/

namespace Sys2Proof.Machine

theorem Router.wf_iff (x : Router) : x.wf = true ↔
    twf [] x.inj = true ∧ twf 0 x.hubSent = true ∧ twf [] x.outq = true ∧ twf 11 x.outLast = true := by
  simp [Router.wf, and_assoc]

theorem Router.wf_inj {x : Router} (port : Nat) (ps : List Packet) (h : x.wf = true) :
    ({ x with inj := tset [] x.inj port ps } : Router).wf = true := by
  rw [Router.wf_iff] at h ⊢
  exact ⟨twf_tset _ _ _ h.1, h.2⟩

theorem Router.wf_outq {x : Router} (o : Nat) (ps : List OutPkt) (h : x.wf = true) :
    ({ x with outq := tset [] x.outq o ps } : Router).wf = true := by
  rw [Router.wf_iff] at h ⊢
  exact ⟨h.1, h.2.1, twf_tset _ _ _ h.2.2.1, h.2.2.2⟩

theorem when_runs {L : List Part} {f : State → State} (hf : ∀ t, Runs L t (f t)) (c : Bool) (s : State) :
    Runs L s (when_ c f s) := by
  unfold when_
  exact Runs.ite (fun _ => hf s) (fun _ => Runs.refl s)

theorem State.setFt_runs (s : State) (x : FabTime) (h : s.ft.wf = true → x.wf = true) :
    Runs [.ft] s (s.setFt x) := Runs.ft s x h

theorem State.setPins_runs (s : State) (x : Pins) : Runs [.pins] s (s.setPins x) := Runs.pins s x

theorem State.setPower_runs (s : State) (x : Power) (h : s.power.wf = true → x.wf = true) :
    Runs [.power] s (s.setPower x) := Runs.power s x h

theorem State.setKettle_runs (s : State) (x : Kettle) (h : s.kettle.wf = true → x.wf = true) :
    Runs [.kettle] s (s.setKettle x) := Runs.kettle s x h

theorem State.setSched_runs (s : State) (x : Sched) (h : s.sched.wf = true → x.wf = true) :
    Runs [.sched] s (s.setSched x) := Runs.sched s x h

theorem State.setTxe_runs (s : State) (x : Txe) : Runs [.txe] s (s.setTxe x) := Runs.txe s x

theorem State.setSync_runs (s : State) (x : Sync) (h : s.sync.wf = true → x.wf = true) :
    Runs [.sync] s (s.setSync x) := Runs.sync s x h

theorem State.setMem_runs (s : State) (x : Mem) (h : s.mem.wf = true → x.wf = true) :
    Runs [.mem] s (s.setMem x) := Runs.mem s x h

theorem State.setUrn_runs (s : State) (x : Urn) (h : s.urn.wf = true → x.wf = true) :
    Runs [.urn] s (s.setUrn x) := Runs.urn s x h

theorem State.setFab_runs (s : State) (x : Fab) : Runs [.fab] s (s.setFab x) := Runs.fab s x

theorem State.setRouter_runs (s : State) (x : Router) (h : s.router.wf = true → x.wf = true) :
    Runs [.router] s (s.setRouter x) := Runs.router s x h

theorem State.setCaddy_runs (s : State) (x : Caddy) (h : s.caddy.wf = true → x.wf = true) :
    Runs [.caddy] s (s.setCaddy x) := Runs.caddy s x h

theorem State.setHost_runs (s : State) (x : HostIf) (h : s.host.wf = true → x.wf = true) :
    Runs [.host] s (s.setHost x) := Runs.host s x h

theorem State.setRed_runs (s : State) (x : Red) (h : s.red.wf = true → x.wf = true) :
    Runs [.red] s (s.setRed x) := Runs.red s x h

theorem State.setObj_runs (s : State) (x : Objects) (h : s.obj.wf = true → x.wf = true) :
    Runs [.obj] s (s.setObj x) := Runs.obj s x h

theorem State.setFlash_runs (s : State) (x : Flash) : Runs [.flash] s (s.setFlash x) := Runs.flash s x

theorem State.setAgeing_runs (s : State) (x : Ageing) (h : s.ageing.wf = true → x.wf = true) :
    Runs [.ageing] s (s.setAgeing x) := Runs.ageing s x h

theorem State.setTele_runs (s : State) (x : Telemetry) : Runs [.tele] s (s.setTele x) := Runs.tele s x

theorem State.setOut_runs (s : State) (x : Outputs) : Runs [.out] s (s.setOut x) := Runs.out s x

theorem State.fresh_runs (s : State) : Runs [.free] s s.fresh := Runs.free s _

theorem State.setCore_runs (s : State) (n : Nat) (c : Core) : Runs [.cores] s (s.setCore n c) :=
  Runs.cores s _ (fun h => twf_tset _ n c h)

theorem State.modCore_runs (s : State) (n : Nat) (f : Core → Core) :
    Runs [.cores] s (State.modCore s n f) := by
  unfold State.modCore
  repeat' (first
    | with_reducible exact Runs.refl _
    | with_reducible assumption
    | exact Eq.refl true
    | exact fun h => h
    | dsimp only
    | with_reducible apply Runs.comp (State.setCore_runs ..))

theorem State.setLink_runs (s : State) (n : Nat) (c : Link) : Runs [.links] s (s.setLink n c) :=
  Runs.links s _ (fun h => twf_tset _ n c h)

theorem State.modLink_runs (s : State) (l : Nat) (f : Link → Link) :
    Runs [.links] s (State.modLink s l f) := by
  unfold State.modLink
  repeat' (first
    | with_reducible exact Runs.refl _
    | with_reducible assumption
    | exact Eq.refl true
    | exact fun h => h
    | dsimp only
    | with_reducible apply Runs.comp (State.setLink_runs ..))

theorem State.setStp_runs (s : State) (n : Nat) (c : StepCtx) : Runs [.steps] s (s.setStp n c) :=
  Runs.steps s _ (fun h => twf_tset _ n c h)

theorem State.modStp_runs (s : State) (c : Nat) (f : StepCtx → StepCtx) :
    Runs [.steps] s (State.modStp s c f) := by
  unfold State.modStp
  repeat' (first
    | with_reducible exact Runs.refl _
    | with_reducible assumption
    | exact Eq.refl true
    | exact fun h => h
    | dsimp only
    | with_reducible apply Runs.comp (State.setStp_runs ..))

theorem State.setPage_runs (s : State) (n : Nat) (x : Page) : Runs [.host] s (s.setPage n x) := by
  refine Runs.host s _ (fun h => ?_)
  simp only [HostIf.wf, Bool.and_eq_true] at h ⊢
  exact ⟨twf_tset _ n x h.1, h.2⟩

theorem State.modPage_runs (s : State) (c : Nat) (f : Page → Page) :
    Runs [.host] s (State.modPage s c f) := by
  unfold State.modPage
  repeat' (first
    | with_reducible exact Runs.refl _
    | with_reducible assumption
    | exact Eq.refl true
    | exact fun h => h
    | dsimp only
    | with_reducible apply Runs.comp (State.setPage_runs ..))

theorem State.setMailbox_runs (s : State) (n : Nat) (x : Mailbox) : Runs [.host] s (s.setMailbox n x) := by
  refine Runs.host s _ (fun h => ?_)
  simp only [HostIf.wf, Bool.and_eq_true] at h ⊢
  exact ⟨h.1, twf_tset _ n x h.2⟩

theorem State.setDie_runs (s : State) (n : Nat) (x : Die) : Runs [.kettle] s (s.setDie n x) := by
  refine Runs.kettle s _ (fun h => ?_)
  simp only [Kettle.wf, Bool.and_eq_true] at h ⊢
  exact twf_tset _ n x h

theorem State.modDie_runs (s : State) (d : Nat) (f : Die → Die) :
    Runs [.kettle] s (State.modDie s d f) := by
  unfold State.modDie
  repeat' (first
    | with_reducible exact Runs.refl _
    | with_reducible assumption
    | exact Eq.refl true
    | exact fun h => h
    | dsimp only
    | with_reducible apply Runs.comp (State.setDie_runs ..))

theorem State.setRedc_runs (s : State) (n : Nat) (x : RedCtx) : Runs [.red] s (s.setRedc n x) := by
  refine Runs.red s _ (fun h => ?_)
  simp only [Red.wf, Bool.and_eq_true] at h ⊢
  exact ⟨twf_tset _ n x h.1, h.2⟩

theorem State.modRedc_runs (s : State) (c : Nat) (f : RedCtx → RedCtx) :
    Runs [.red] s (State.modRedc s c f) := by
  unfold State.modRedc
  repeat' (first
    | with_reducible exact Runs.refl _
    | with_reducible assumption
    | exact Eq.refl true
    | exact fun h => h
    | dsimp only
    | with_reducible apply Runs.comp (State.setRedc_runs ..))

theorem State.setPerm_runs (s : State) (n : Nat) (x : Perm) : Runs [.red] s (s.setPerm n x) := by
  refine Runs.red s _ (fun h => ?_)
  simp only [Red.wf, Bool.and_eq_true] at h ⊢
  exact ⟨h.1, twf_tset _ n x h.2⟩

theorem State.modPerm_runs (s : State) (c : Nat) (f : Perm → Perm) :
    Runs [.red] s (State.modPerm s c f) := by
  unfold State.modPerm
  repeat' (first
    | with_reducible exact Runs.refl _
    | with_reducible assumption
    | exact Eq.refl true
    | exact fun h => h
    | dsimp only
    | with_reducible apply Runs.comp (State.setPerm_runs ..))

theorem State.setAge_runs (s : State) (n : Nat) (x : AgeUnit) : Runs [.ageing] s (s.setAge n x) := by
  refine Runs.ageing s _ (fun h => ?_)
  simp only [Ageing.wf, Bool.and_eq_true] at h ⊢
  exact ⟨twf_tset _ n x h.1, h.2⟩

theorem State.modAge_runs (s : State) (u : Nat) (f : AgeUnit → AgeUnit) :
    Runs [.ageing] s (State.modAge s u f) := by
  unfold State.modAge
  repeat' (first
    | with_reducible exact Runs.refl _
    | with_reducible assumption
    | exact Eq.refl true
    | exact fun h => h
    | dsimp only
    | with_reducible apply Runs.comp (State.setAge_runs ..))

theorem State.setDieList_runs (s : State) (n : Nat) (x : List Entry) : Runs [.sched] s (s.setDieList n x) := by
  refine Runs.sched s _ (fun h => ?_)
  simp only [Sched.wf, Bool.and_eq_true] at h ⊢
  exact twf_tset _ n x h

theorem countsFit_tset {w : Nat} {t : Tbl Nat} {i v : Nat} (h : countsFit w t = true) (hv : v < 2 ^ w) :
    countsFit w (tset 0 t i v) = true := by
  unfold tset
  split
  · exact all_terase i h
  · exact all_tins h (by simpa using hv)

/-- Noting a change of a counter leaves the copy that a replay restores (R196). -/
theorem Sync.noted_shadow (x : Sync) (c : Prop) [Decidable c] (i : Nat) :
    (if c then x else x.noted i).shadow = x.shadow := by
  split <;> rfl

theorem State.setCtr_runs (s : State) (n x : Nat) (hx : s.sync.wf = true → x < 2 ^ 16) :
    Runs [.sync] s (s.setCtr n x) := by
  refine Runs.sync s _ (fun h => ?_)
  have hx := hx h
  simp only [Sync.wf, Bool.and_eq_true, Sync.noted_shadow] at h ⊢
  exact ⟨⟨⟨twf_tset _ n x h.1.1.1, countsFit_tset h.1.1.2 hx⟩, h.1.2⟩, h.2⟩

theorem State.setGf_runs (s : State) (n : Nat) (x : GfState) : Runs [.obj] s (s.setGf n x) := by
  refine Runs.obj s _ (fun h => ?_)
  simp only [Objects.wf, Bool.and_eq_true] at h ⊢
  exact ⟨h.1, twf_tset _ n x h.2⟩

theorem powered_runs {L : List Part} {s t : State} (h : Runs L s t) : RunsTo L s (powered s t) := by
  unfold powered
  split
  · exact RunsTo.next h
  · exact RunsTo.next (Runs.refl s)

theorem State.inject_runs (s : State) (port : Nat) (p : Packet) : Runs [.router] s (s.inject port p) :=
  Runs.router s _ (Router.wf_inj port _)

theorem State.capInject_runs (s : State) (port : Nat) (p : Packet) :
    Runs [.fab, .router] s (State.capInject s port p) := by
  unfold State.capInject
  repeat' (first
    | with_reducible exact Runs.refl _
    | with_reducible assumption
    | exact Eq.refl true
    | exact fun h => h
    | dsimp only
    | with_reducible apply Runs.comp (State.setFab_runs ..)
    | with_reducible apply Runs.comp (State.inject_runs ..)
    | with_reducible apply Runs.foldl
    | with_reducible apply Runs.foldl_fst
    | intro _
    | split)

theorem State.capFlow_runs (s : State) :
    Runs [.fab, .router] s (State.capFlow s) := by
  unfold State.capFlow
  repeat' (first
    | with_reducible exact Runs.refl _
    | with_reducible assumption
    | exact Eq.refl true
    | exact fun h => h
    | dsimp only
    | with_reducible apply Runs.comp (State.capInject_runs ..)
    | with_reducible apply Runs.comp (State.setFab_runs ..)
    | with_reducible apply Runs.foldl
    | with_reducible apply Runs.foldl_fst
    | intro _)

theorem State.taken_runs (s : State) (p : Packet) : Runs [.router] s (s.taken p) := Runs.router s _ (fun h => h)

theorem State.msi_runs (s : State) (fn vec : Nat) : Runs [.out] s (s.msi fn vec) := Runs.out s _

end Sys2Proof.Machine
end

