-- ==== Sys2Proof/Laws/CatalogueRuns.lean ====
section
/-!
SUPPORT. What the operations of Machine/Catalogue.lean may change, and that they keep the canonical form.
-/

namespace Sys2Proof.Machine

theorem State.setOv_runs (s : State) (id v : Nat) : Runs [.obj] s (s.setOv id v) := by
  refine Runs.obj s _ (fun h => ?_)
  simp only [Objects.wf, Bool.and_eq_true] at h ⊢
  exact ⟨⟨keysFrom_tset _ id v h.1.1, h.1.2⟩, h.2⟩

theorem State.modOv_runs (s : State) (id : Nat) (f : Nat → Nat) :
    Runs [.obj] s (State.modOv s id f) := by
  unfold State.modOv
  repeat' (first
    | with_reducible exact Runs.refl _
    | with_reducible assumption
    | exact Eq.refl true
    | exact fun h => h
    | dsimp only
    | with_reducible apply Runs.comp (State.setOv_runs ..))

theorem State.bump_runs (s : State) (id : Nat) (n : Nat) :
    Runs [.obj] s (State.bump s id n) := by
  unfold State.bump
  repeat' (first
    | with_reducible exact Runs.refl _
    | with_reducible assumption
    | exact Eq.refl true
    | exact fun h => h
    | dsimp only
    | with_reducible apply Runs.comp (State.modOv_runs ..))

theorem State.orOv_runs (s : State) (id : Nat) (v : Nat) :
    Runs [.obj] s (State.orOv s id v) := by
  unfold State.orOv
  repeat' (first
    | with_reducible exact Runs.refl _
    | with_reducible assumption
    | exact Eq.refl true
    | exact fun h => h
    | dsimp only
    | with_reducible apply Runs.comp (State.modOv_runs ..))

end Sys2Proof.Machine
end

