-- ==== Sys2Proof/Laws/RoutingRuns.lean ====
section
/-!
SUPPORT. What the operations of Machine/Routing.lean may change, and that they keep the canonical form.
-/

namespace Sys2Proof.Machine

theorem State.send_runs (s : State) (port : Nat) (vc : Nat) (ctx : Nat) (dst : Nat) (body : List Byte) :
    Runs [.router] s (State.send s port vc ctx dst body) := by
  unfold State.send
  repeat' (first
    | with_reducible exact Runs.refl _
    | with_reducible assumption
    | exact Eq.refl true
    | exact fun h => h
    | dsimp only
    | with_reducible apply Runs.comp (State.inject_runs ..))

theorem State.treeSend_runs (s : State) (port : Nat) (vc : Nat) (ctx : Nat) (body : List Byte) :
    Runs [.router] s (State.treeSend s port vc ctx body) := by
  unfold State.treeSend
  repeat' (first
    | with_reducible exact Runs.refl _
    | with_reducible assumption
    | exact Eq.refl true
    | exact fun h => h
    | dsimp only
    | with_reducible apply Runs.comp (State.inject_runs ..))

theorem State.lineSend_runs (s : State) (ctx : Nat) (dst : Nat) (body : List Byte) :
    Runs [.router] s (State.lineSend s ctx dst body) := by
  unfold State.lineSend
  repeat' (first
    | with_reducible exact Runs.refl _
    | with_reducible assumption
    | exact Eq.refl true
    | exact fun h => h
    | dsimp only
    | with_reducible apply Runs.comp (State.inject_runs ..))

end Sys2Proof.Machine
end

