-- ==== Sys2Proof/Laws/JournalRuns.lean ====
section
/-!
SUPPORT. What the operations of Machine/Journal.lean may change, and that they keep the canonical form.
-/

namespace Sys2Proof.Machine

theorem Ageing.wf_of {x : Ageing} (hu : twf .init x.units = true) (hr : twf 8 x.retention = true) : x.wf = true := by
  simp only [Ageing.wf, Bool.and_eq_true]
  exact ⟨hu, hr⟩

theorem State.setSlots_runs (s : State) (k : Nat) (p : JSlot × JSlot) :
    Runs [.flash] s (State.setSlots s k p) := by
  unfold State.setSlots
  repeat' (first
    | with_reducible exact Runs.refl _
    | with_reducible assumption
    | exact Eq.refl true
    | exact fun h => h
    | dsimp only
    | with_reducible apply Runs.comp (State.setFlash_runs ..))

theorem State.journalBegin_runs (s : State) :
    Runs [.flash] s (State.journalBegin s) := by
  unfold State.journalBegin
  repeat' (first
    | with_reducible exact Runs.refl _
    | with_reducible assumption
    | exact Eq.refl true
    | exact fun h => h
    | dsimp only
    | with_reducible apply Runs.comp (State.setSlots_runs ..)
    | with_reducible apply Runs.foldl
    | with_reducible apply Runs.foldl_fst
    | intro _
    | split)

theorem State.journal_runs (s : State) (r : JRec) :
    Runs [.flash] s (State.journal s r) := by
  unfold State.journal
  repeat' (first
    | with_reducible exact Runs.refl _
    | with_reducible assumption
    | exact Eq.refl true
    | exact fun h => h
    | dsimp only
    | with_reducible apply Runs.comp (State.setFlash_runs ..)
    | with_reducible apply Runs.comp (State.journalBegin_runs ..)
    | with_reducible apply Runs.foldl
    | with_reducible apply Runs.foldl_fst
    | intro _
    | split)

theorem State.journalNext_runs (s : State) (r : JRec) :
    Runs [.flash] s (State.journalNext s r) := by
  unfold State.journalNext
  repeat' (first
    | with_reducible exact Runs.refl _
    | with_reducible assumption
    | exact Eq.refl true
    | exact fun h => h
    | dsimp only
    | with_reducible apply Runs.comp (State.journal_runs ..)
    | with_reducible apply Runs.comp (State.setFlash_runs ..)
    | with_reducible apply Runs.comp (State.journalBegin_runs ..)
    | with_reducible apply Runs.foldl
    | with_reducible apply Runs.foldl_fst
    | intro _
    | split)

theorem State.versionDone_runs (s : State) (r : JRec) :
    Runs [.flash, .free] s (State.versionDone s r) := by
  unfold State.versionDone
  repeat' (first
    | with_reducible exact Runs.refl _
    | with_reducible assumption
    | exact Eq.refl true
    | exact fun h => h
    | dsimp only
    | with_reducible apply Runs.comp (State.fresh_runs ..)
    | with_reducible apply Runs.comp (State.setSlots_runs ..))

theorem State.restore_runs (s : State) (k : Nat) (x1 : JBody) :
    Runs [.sched, .mem, .caddy, .obj, .flash, .ageing] s (State.restore s k x1) := by
  unfold State.restore
  repeat' (first
    | with_reducible exact Runs.refl _
    | with_reducible assumption
    | exact Eq.refl true
    | exact fun h => h
    | (refine Ageing.wf_of ?_ ?_
       · dsimp only
         exact twf_tmap _ _ (twf_keys (twf_tcanon _ _))
       · exact twf_tcanon _ _)
    | dsimp only
    | with_reducible apply Runs.comp (State.setFlash_runs ..)
    | with_reducible apply Runs.comp (State.setSched_runs ..)
    | with_reducible apply Runs.comp (State.setAgeing_runs ..)
    | with_reducible apply Runs.comp (State.modAge_runs ..)
    | with_reducible apply Runs.comp (State.setMem_runs ..)
    | with_reducible apply Runs.comp (State.setCaddy_runs ..)
    | with_reducible apply Runs.comp (State.setOv_runs ..)
    | with_reducible apply Runs.foldl
    | with_reducible apply Runs.foldl_fst
    | intro _
    | split)

theorem State.restoreAll_runs (s : State) :
    Runs [.sched, .mem, .caddy, .obj, .flash, .ageing] s (State.restoreAll s) := by
  unfold State.restoreAll
  repeat' (first
    | with_reducible exact Runs.refl _
    | with_reducible assumption
    | exact Eq.refl true
    | exact fun h => h
    | dsimp only
    | with_reducible apply Runs.comp (State.restore_runs ..)
    | with_reducible apply Runs.foldl
    | with_reducible apply Runs.foldl_fst
    | intro _
    | split)

end Sys2Proof.Machine
end

