-- ==== Sys2Proof/Laws/NotifyRuns.lean ====
section
/-!
SUPPORT. What the operations of Machine/Notify.lean may change, and that they keep the canonical form.
-/

namespace Sys2Proof.Machine

theorem State.intSend_runs (s : State) (ctx : Nat) :
    Runs [.out] s (State.intSend s ctx) := by
  unfold State.intSend
  repeat' (first
    | with_reducible exact Runs.refl _
    | with_reducible assumption
    | exact Eq.refl true
    | exact fun h => h
    | dsimp only
    | with_reducible apply Runs.comp (State.msi_runs ..)
    | with_reducible apply Runs.foldl
    | with_reducible apply Runs.foldl_fst
    | intro _
    | split)

theorem State.interrupt_runs (s : State) (ctx : Nat) (b : Nat) :
    Runs [.host, .out] s (State.interrupt s ctx b) := by
  unfold State.interrupt
  repeat' (first
    | with_reducible exact Runs.refl _
    | with_reducible assumption
    | exact Eq.refl true
    | exact fun h => h
    | dsimp only
    | with_reducible apply Runs.comp (State.setPage_runs ..)
    | with_reducible apply Runs.comp (State.intSend_runs ..)
    | with_reducible apply Runs.foldl
    | with_reducible apply Runs.foldl_fst
    | intro _
    | split)

theorem State.hostErr_runs (s : State) (b : Nat) (addr : Nat) :
    Runs [.host, .out] s (State.hostErr s b addr) := by
  unfold State.hostErr
  repeat' (first
    | with_reducible exact Runs.refl _
    | with_reducible assumption
    | exact Eq.refl true
    | exact fun h => h
    | dsimp only
    | with_reducible apply Runs.comp (State.setHost_runs ..)
    | with_reducible apply Runs.comp (State.interrupt_runs ..))

theorem State.trayOut_runs (s : State) (m : MgmtMsg) :
    Runs [.out] s (State.trayOut s m) := by
  unfold State.trayOut
  repeat' (first
    | with_reducible exact Runs.refl _
    | with_reducible assumption
    | exact Eq.refl true
    | exact fun h => h
    | dsimp only
    | with_reducible apply Runs.comp (State.setOut_runs ..))

theorem State.emitMsg_runs (s : State) (m : MgmtMsg) :
    Runs [.out] s (State.emitMsg s m) := by
  unfold State.emitMsg
  repeat' (first
    | with_reducible exact Runs.refl _
    | with_reducible assumption
    | exact Eq.refl true
    | exact fun h => h
    | dsimp only
    | with_reducible apply Runs.comp (State.setOut_runs ..))

theorem State.mgmtPacket_runs (s : State) (fop : Nat) (dst : Nat) (bs : List Byte) :
    Runs [.router] s (State.mgmtPacket s fop dst bs) := by
  unfold State.mgmtPacket
  repeat' (first
    | with_reducible exact Runs.refl _
    | with_reducible assumption
    | exact Eq.refl true
    | exact fun h => h
    | dsimp only
    | with_reducible apply Runs.comp (State.inject_runs ..))

theorem State.eventTo_runs (s : State) (code : Nat) (arg : Nat) (cls : Nat) (x : Session) :
    Runs [.router, .host, .out] s (State.eventTo s code arg cls x) := by
  unfold State.eventTo
  repeat' (first
    | with_reducible exact Runs.refl _
    | with_reducible assumption
    | exact Eq.refl true
    | exact fun h => h
    | dsimp only
    | with_reducible apply Runs.comp (State.emitMsg_runs ..)
    | with_reducible apply Runs.comp (State.interrupt_runs ..)
    | with_reducible apply Runs.comp (State.setMailbox_runs ..)
    | with_reducible apply Runs.comp (State.mgmtPacket_runs ..)
    | with_reducible apply Runs.comp (State.trayOut_runs ..)
    | with_reducible apply Runs.foldl
    | with_reducible apply Runs.foldl_fst
    | intro _
    | split)

theorem State.event_runs (s : State) (code : Nat) (arg : Nat) :
    Runs [.router, .host, .out] s (State.event s code arg) := by
  unfold State.event
  repeat' (first
    | with_reducible exact Runs.refl _
    | with_reducible assumption
    | exact Eq.refl true
    | exact fun h => h
    | dsimp only
    | with_reducible apply Runs.comp (State.eventTo_runs ..)
    | with_reducible apply Runs.foldl
    | with_reducible apply Runs.foldl_fst
    | intro _)

theorem State.alert_runs (s : State) :
    Runs [.router, .host, .out] s (State.alert s) := by
  unfold State.alert
  repeat' (first
    | with_reducible exact Runs.refl _
    | with_reducible assumption
    | exact Eq.refl true
    | exact fun h => h
    | dsimp only
    | with_reducible apply Runs.comp (State.event_runs ..)
    | with_reducible apply Runs.comp (State.setOut_runs ..)
    | with_reducible apply Runs.comp (State.interrupt_runs ..)
    | with_reducible apply Runs.foldl
    | with_reducible apply Runs.foldl_fst
    | intro _
    | split)

theorem State.service_runs (s : State) (b : Nat) :
    Runs [.router, .host, .flash, .out] s (State.service s b) := by
  unfold State.service
  repeat' (first
    | with_reducible exact Runs.refl _
    | with_reducible assumption
    | exact Eq.refl true
    | exact fun h => h
    | dsimp only
    | with_reducible apply Runs.comp (State.alert_runs ..)
    | with_reducible apply Runs.comp (State.journal_runs ..)
    | with_reducible apply Runs.comp (State.setFlash_runs ..))

theorem State.faultRec_runs (s : State) (t : Nat) (code : Nat) (unit : Nat) (dur : Nat) :
    Runs [.flash] s (State.faultRec s t code unit dur) := by
  unfold State.faultRec
  repeat' (first
    | with_reducible exact Runs.refl _
    | with_reducible assumption
    | exact Eq.refl true
    | exact fun h => h
    | dsimp only
    | with_reducible apply Runs.comp (State.journal_runs ..)
    | with_reducible apply Runs.comp (State.setFlash_runs ..)
    | with_reducible apply Runs.foldl
    | with_reducible apply Runs.foldl_fst
    | intro _
    | split)

theorem State.coveredAt_runs (s : State) (t : Nat) (code : Nat) (unit : Nat) :
    Runs [.obj, .flash, .free] s (State.coveredAt s t code unit) := by
  unfold State.coveredAt
  repeat' (first
    | with_reducible exact Runs.refl _
    | with_reducible assumption
    | exact Eq.refl true
    | exact fun h => h
    | dsimp only
    | with_reducible apply Runs.comp (State.fresh_runs ..)
    | with_reducible apply Runs.comp (State.orOv_runs ..)
    | with_reducible apply Runs.comp (State.faultRec_runs ..))

theorem State.covered_runs (s : State) (code : Nat) (unit : Nat) :
    Runs [.obj, .flash, .free] s (State.covered s code unit) := by
  unfold State.covered
  repeat' (first
    | with_reducible exact Runs.refl _
    | with_reducible assumption
    | exact Eq.refl true
    | exact fun h => h
    | dsimp only
    | with_reducible apply Runs.comp (State.coveredAt_runs ..))

theorem State.failVote_runs (s : State) (ctx : Nat) (reason : Nat) :
    Runs [.router, .steps] s (State.failVote s ctx reason) := by
  unfold State.failVote
  repeat' (first
    | with_reducible exact Runs.refl _
    | with_reducible assumption
    | exact Eq.refl true
    | exact fun h => h
    | dsimp only
    | with_reducible apply Runs.comp (State.modStp_runs ..)
    | with_reducible apply Runs.comp (State.send_runs ..)
    | with_reducible apply Runs.foldl
    | with_reducible apply Runs.foldl_fst
    | intro _
    | split)

theorem State.latch_runs (s : State) (ctx : Nat) (reason : Nat) :
    Runs [.router, .steps] s (State.latch s ctx reason) := by
  unfold State.latch
  repeat' (first
    | with_reducible exact Runs.refl _
    | with_reducible assumption
    | exact Eq.refl true
    | exact fun h => h
    | dsimp only
    | with_reducible apply Runs.comp (State.failVote_runs ..)
    | with_reducible apply Runs.comp (State.modStp_runs ..)
    | with_reducible apply Runs.foldl
    | with_reducible apply Runs.foldl_fst
    | intro _
    | split)

theorem State.uncovered_runs (s : State) (code : Nat) (unit : Nat) (ctxs : List Nat) :
    Runs [.router, .steps, .obj, .flash] s (State.uncovered s code unit ctxs) := by
  unfold State.uncovered
  repeat' (first
    | with_reducible exact Runs.refl _
    | with_reducible assumption
    | exact Eq.refl true
    | exact fun h => h
    | dsimp only
    | with_reducible apply Runs.comp (State.faultRec_runs ..)
    | with_reducible apply Runs.comp (State.modOv_runs ..)
    | with_reducible apply Runs.comp (State.latch_runs ..)
    | with_reducible apply Runs.foldl
    | with_reducible apply Runs.foldl_fst
    | intro _)

theorem State.attemptFaults_runs (s : State) (ctx : Nat) :
    Runs [.router, .steps, .obj, .flash] s (State.attemptFaults s ctx) := by
  unfold State.attemptFaults
  repeat' (first
    | with_reducible exact Runs.refl _
    | with_reducible assumption
    | exact Eq.refl true
    | exact fun h => h
    | dsimp only
    | with_reducible apply Runs.comp (State.uncovered_runs ..)
    | with_reducible apply Runs.foldl
    | with_reducible apply Runs.foldl_fst
    | intro _
    | split)

end Sys2Proof.Machine
end

