-- ==== Sys2Proof/Laws/SyncOpsRuns.lean ====
section
/-!
SUPPORT. What the operations of Machine/SyncOps.lean may change, and that they keep the canonical form.
-/

namespace Sys2Proof.Machine

/-- A counter of a well-formed unit holds 16 bits. -/
theorem countsFit_tget {w : Nat} {t : Tbl Nat} (h : countsFit w t = true) (i : Nat) : tget 0 t i < 2 ^ w := by
  induction t with
  | nil => exact Nat.two_pow_pos w
  | cons p t ih =>
    obtain ⟨k, v⟩ := p
    simp only [countsFit, List.all_cons, Bool.and_eq_true, decide_eq_true_eq] at h
    unfold tget
    split
    · exact h.1
    · exact ih h.2

theorem State.ctr_lt {s : State} (h : s.sync.wf = true) (i : Nat) : s.ctr i < 2 ^ 16 := by
  simp only [Sync.wf, Bool.and_eq_true] at h
  exact countsFit_tget h.1.1.2 i

theorem bits_lt (v lo w : Nat) : bits v lo w < 2 ^ w := Nat.mod_lt _ (Nat.two_pow_pos w)

theorem countsFit_foldl_tset {w : Nat} {f : Nat → Nat} (hf : ∀ i, f i < 2 ^ w) (xs : List Nat) {t : Tbl Nat}
    (h : twf 0 t = true ∧ countsFit w t = true) :
    twf 0 (xs.foldl (fun t i => tset 0 t i (f i)) t) = true ∧
      countsFit w (xs.foldl (fun t i => tset 0 t i (f i)) t) = true := by
  induction xs generalizing t with
  | nil => exact h
  | cons i xs ih => exact ih ⟨twf_tset _ i _ h.1, countsFit_tset h.2 (hf i)⟩

theorem State.syncFlag_runs (s : State) (b : Nat) (phys : Nat) :
    Runs [.obj] s (State.syncFlag s b phys) := by
  unfold State.syncFlag
  repeat' (first
    | with_reducible exact Runs.refl _
    | with_reducible assumption
    | exact Eq.refl true
    | exact fun h => h
    | dsimp only
    | with_reducible apply Runs.comp (State.modOv_runs ..))

theorem State.ctrAdd_runs (s : State) (p k : Nat) : Runs [.sync, .obj] s (s.ctrAdd p k) := by
  unfold State.ctrAdd
  dsimp only
  split
  · exact Runs.comp (State.syncFlag_runs ..) rfl ((State.setCtr_runs s p 0xFFFF (fun _ => by decide)).mono rfl)
  · exact (State.setCtr_runs s p _ (fun _ => by omega)).mono rfl

theorem completeRounds_runs {L : List Part} {issue : Nat → State → State} (hi : ∀ n t, Runs L t (issue n t))
    (hL : within [.sync] L = true) (p : Nat) (fuel : Nat) (s : State) : Runs L s (completeRounds issue p fuel s) := by
  induction fuel generalizing s with
  | zero => exact Runs.refl s
  | succ f ih =>
    unfold completeRounds
    dsimp only
    split
    · refine (Runs.trans ?_ (hi _ _)).trans (ih _)
      refine Runs.comp (State.setCtr_runs _ _ _ (fun _ => ?_)) hL
        ((State.setCtr_runs s _ 0 (fun _ => by decide)).mono hL)
      have h1 : s.barRound p < 2 ^ 14 := bits_lt _ _ _
      unfold nextRound
      split <;> omega
    · exact Runs.refl s

theorem State.misuse_runs (s : State) (p : Nat) : Runs [.sync, .obj] s (s.misuse p) := by
  unfold State.misuse
  refine Runs.comp (State.syncFlag_runs ..) rfl ((State.setCtr_runs s p _ (fun h => ?_)).mono rfl)
  exact Nat.or_lt_two_pow (State.ctr_lt h p) (by decide)

theorem arriveAt_runs {L : List Part} {issue : Nat → State → State} (hi : ∀ n t, Runs L t (issue n t))
    (hL : within [.sync, .obj] L = true) (fuel p r : Nat) (s : State) : Runs L s (arriveAt issue fuel p r s).1 := by
  have hs : within [.sync] L = true := by
    simp only [within, List.all_cons, Bool.and_eq_true] at hL ⊢
    exact ⟨hL.1, rfl⟩
  unfold arriveAt
  dsimp only
  split
  · exact (State.misuse_runs s p).mono hL
  · split
    · exact (((State.setCtr_runs s _ _ (fun _ => by omega)).mono hs).trans (completeRounds_runs hi hs _ _ _))
    · split
      · rename_i h
        have : s.barExpected p < 2 ^ 14 := bits_lt _ _ _
        exact (State.setCtr_runs s _ _ (fun _ => by omega)).mono hs
      · exact (State.misuse_runs s p).mono hL

theorem State.mapFault_runs (s : State) (ctx : Nat) (phys : Nat) :
    Runs [.router, .steps, .obj] s (State.mapFault s ctx phys) := by
  unfold State.mapFault
  repeat' (first
    | with_reducible exact Runs.refl _
    | with_reducible assumption
    | exact Eq.refl true
    | exact fun h => h
    | dsimp only
    | with_reducible apply Runs.comp (State.latch_runs ..)
    | with_reducible apply Runs.comp (State.syncFlag_runs ..))

theorem State.syncSend_runs (s : State) (ctx : Nat) (e : SyncEntry) (arrive : Bool) (k : Nat) :
    Runs [.fab, .router, .steps, .obj] s (State.syncSend s ctx e arrive k) := by
  unfold State.syncSend
  repeat' (first
    | with_reducible exact Runs.refl _
    | with_reducible assumption
    | exact Eq.refl true
    | exact fun h => h
    | dsimp only
    | with_reducible apply Runs.comp (State.treeSend_runs ..)
    | with_reducible apply Runs.comp (State.mapFault_runs ..)
    | with_reducible apply Runs.comp (State.capInject_runs ..)
    | with_reducible apply Runs.foldl
    | with_reducible apply Runs.foldl_fst
    | intro _
    | split)

theorem syncSignal_runs (fuel ctx id k : Nat) (s : State) : Runs [.sync, .fab, .router, .steps, .obj] s (syncSignal fuel ctx id k s) := by
  induction fuel generalizing ctx id k s with
  | zero => exact Runs.refl s
  | succ f ih =>
    unfold syncSignal
    dsimp only
    split
    · exact (State.mapFault_runs ..).mono rfl
    · split
      · split
        · exact (State.ctrAdd_runs ..).mono rfl
        · exact (State.syncSend_runs ..).mono rfl
      · split
        · refine arriveAt_runs (fun n t => ?_) rfl _ _ _ _
          split
          · exact Runs.refl t
          · exact ih ..
        · exact (State.syncSend_runs ..).mono rfl

theorem State.signal_runs (s : State) (ctx : Nat) (id : Nat) (k : Nat) :
    Runs [.sync, .fab, .router, .steps, .obj] s (State.signal s ctx id k) := by
  unfold State.signal
  repeat' (first
    | with_reducible exact Runs.refl _
    | with_reducible assumption
    | exact Eq.refl true
    | exact fun h => h
    | dsimp only
    | with_reducible apply Runs.comp (syncSignal_runs ..))

theorem State.signalWord_runs (s : State) (ctx : Nat) (w : Nat) :
    Runs [.sync, .fab, .router, .steps, .obj] s (State.signalWord s ctx w) := by
  unfold State.signalWord
  repeat' (first
    | with_reducible exact Runs.refl _
    | with_reducible assumption
    | exact Eq.refl true
    | exact fun h => h
    | dsimp only
    | with_reducible apply Runs.comp (State.signal_runs ..)
    | with_reducible apply Runs.foldl
    | with_reducible apply Runs.foldl_fst
    | intro _
    | split)

theorem State.signalOpt_runs (s : State) (ctx : Nat) (id : Nat) :
    Runs [.sync, .fab, .router, .steps, .obj] s (State.signalOpt s ctx id) := by
  unfold State.signalOpt
  repeat' (first
    | with_reducible exact Runs.refl _
    | with_reducible assumption
    | exact Eq.refl true
    | exact fun h => h
    | dsimp only
    | with_reducible apply Runs.comp (State.signal_runs ..)
    | with_reducible apply Runs.foldl
    | with_reducible apply Runs.foldl_fst
    | intro _
    | split)

theorem State.remoteSync_runs (s : State) (p : Packet) : Runs [.sync, .fab, .router, .steps, .obj] s (s.remoteSync p) := by
  unfold State.remoteSync
  dsimp only
  split
  · exact (State.ctrAdd_runs ..).mono rfl
  · refine arriveAt_runs (fun n t => ?_) rfl _ _ _ _
    repeat' split
    · exact Runs.refl t
    · exact Runs.refl t
    · exact (State.signal_runs ..).mono rfl
    · exact (State.signal_runs ..).mono rfl

theorem State.setCtr_four_runs (s : State) (p : Nat) {a b c d : Nat} (ha : a < 2 ^ 16) (hb : b < 2 ^ 16) (hc : c < 2 ^ 16)
    (hd : d < 2 ^ 16) : Runs [.sync] s ((((s.setCtr p a).setCtr (p + 1) b).setCtr (p + 2) c).setCtr (p + 3) d) :=
  (((State.setCtr_runs s _ _ (fun _ => ha)).trans (State.setCtr_runs _ _ _ (fun _ => hb))).trans
    (State.setCtr_runs _ _ _ (fun _ => hc))).trans (State.setCtr_runs _ _ _ (fun _ => hd))

theorem State.barInit_runs (s : State) (p k : Nat) : Runs [.sync] s (s.barInit p k) := by
  unfold State.barInit
  exact Runs.trans (State.setCtr_four_runs s p (by omega) (by decide) (by decide) (by decide))
    (State.setSync_runs _ _ (fun h => h))

theorem syncCmd_runs (s : State) (ctx w : Nat) : Runs [.sync, .fab, .router, .steps, .obj] s (syncCmd s ctx w).1 := by
  unfold syncCmd
  dsimp only
  split
  · exact Runs.refl s
  · split
    · exact (State.signal_runs ..).mono rfl
    · dsimp only
      split
      · exact Runs.comp (State.syncFlag_runs ..) rfl ((State.setCtr_runs s _ _ (fun _ => by decide)).mono rfl)
      · refine (State.setCtr_runs s _ _ (fun h => ?_)).mono rfl
        have := State.ctr_lt h (s.syncEntry ctx (bits w 8 16)).phys
        omega
    · exact Runs.refl s
    · refine (State.setCtr_runs s _ _ (fun h => ?_)).mono rfl
      have := bits_lt w 24 14
      omega
    · split
      · dsimp only
        refine arriveAt_runs (fun n t => ?_) rfl _ _ _ _
        split
        · exact Runs.refl t
        · exact (State.signal_runs ..).mono rfl
      · exact (State.syncSend_runs ..).mono rfl
    · exact (State.barInit_runs ..).mono rfl

theorem State.recordSync_runs (s : State) (ctx : Nat) : Runs [.sync] s (s.recordSync ctx) := by
  refine State.setSync_runs s _ (fun h => ?_)
  have hf := State.ctr_lt h
  simp only [Sync.wf, Bool.and_eq_true] at h ⊢
  have k := countsFit_foldl_tset (w := 16) (f := s.ctr) hf (s.restoreSet ctx) ⟨h.1.2, h.2⟩
  exact ⟨⟨h.1.1, k.1⟩, k.2⟩

theorem State.setCtr_shadow (s : State) (i v : Nat) : (s.setCtr i v).sync.shadow = s.sync.shadow :=
  Sync.noted_shadow ..

theorem State.restoreSync_runs (s : State) (ctx : Nat) : Runs [.sync] s (s.restoreSync ctx) := by
  unfold State.restoreSync
  refine Runs.foldl (fun u (x : Nat × Nat) => State.setCtr_runs u x.2 _ (fun h => ?_)) _ (Runs.refl s)
  simp only [Sync.wf, Bool.and_eq_true] at h
  exact countsFit_tget h.2 x.2

end Sys2Proof.Machine
end

