-- ==== Sys2Proof/Laws/MemoryRuns.lean ====
section
/-!
SUPPORT. What the operations of Machine/Memory.lean may change, and that they keep the canonical form.
-/

namespace Sys2Proof.Machine

theorem Mem.wf_iff (x : Mem) : x.wf = true ↔
    twf 0 x.bytes = true ∧ twf false x.poison = true ∧ twf 0 x.level = true ∧ twf 0 x.below = true := by
  simp [Mem.wf, and_assoc]

theorem State.setPoison_runs (s : State) (g : Nat) (b : Bool) :
    Runs [.mem] s (s.setMem { s.mem with poison := tset false s.mem.poison g b }) := by
  refine State.setMem_runs s _ (fun h => ?_)
  rw [Mem.wf_iff] at h ⊢
  exact ⟨h.1, twf_tset _ g b h.2.1, h.2.2⟩

theorem State.putByte_runs (s : State) (a : Nat) (b : Byte) : Runs [.mem] s (s.putByte a b) := by
  unfold State.putByte
  split
  · refine State.setMem_runs s _ (fun h => ?_)
    rw [Mem.wf_iff] at h ⊢
    exact ⟨twf_tset _ a b h.1, h.2⟩
  · exact Runs.refl s

theorem State.unpoison_runs (s : State) (g : Nat) : Runs [.mem] s (s.unpoison g) := State.setPoison_runs s g false

theorem State.putBytes_runs (s : State) (a : Nat) (bs : List Byte) : Runs [.mem] s (s.putBytes a bs) := by
  induction bs generalizing s a with
  | nil => exact Runs.refl s
  | cons b bs ih => exact (State.putByte_runs s a b).trans (ih _ _)

theorem State.storeDev_runs (s : State) (a : Nat) (bs : List Byte) :
    Runs [.mem] s (State.storeDev s a bs) := by
  unfold State.storeDev
  repeat' (first
    | with_reducible exact Runs.refl _
    | with_reducible assumption
    | exact Eq.refl true
    | exact fun h => h
    | dsimp only
    | with_reducible apply Runs.comp (State.putBytes_runs ..)
    | with_reducible apply Runs.comp (State.unpoison_runs ..)
    | with_reducible apply Runs.foldl
    | with_reducible apply Runs.foldl_fst
    | intro _
    | split)

theorem State.poisonAt_runs (s : State) (a kind : Nat) : Runs [.mem, .host, .obj, .out] s (s.poisonAt a kind) := by
  unfold State.poisonAt
  split
  · exact Runs.refl s
  · split
    · exact Runs.refl s
    · rename_i m _ _
      dsimp only
      have k := Runs.comp (L := [.mem, .host, .obj, .out]) (State.interrupt_runs _ 15 4) rfl
        (Runs.comp (State.bump_runs _ (memUeCountId + m) 1) rfl ((State.setPoison_runs s (a / 64) true).mono rfl))
      split
      · exact k
      · exact Runs.comp (State.setOv_runs ..) rfl k

theorem State.memErr_runs (s : State) (a : Nat) (e : MemErr) :
    Runs [.mem, .host, .obj, .out] s (State.memErr s a e) := by
  unfold State.memErr
  repeat' (first
    | with_reducible exact Runs.refl _
    | with_reducible assumption
    | exact Eq.refl true
    | exact fun h => h
    | dsimp only
    | with_reducible apply Runs.comp (State.bump_runs ..)
    | with_reducible apply Runs.comp (State.poisonAt_runs ..)
    | with_reducible apply Runs.foldl
    | with_reducible apply Runs.foldl_fst
    | intro _
    | split)

theorem State.memErrs_runs (s : State) (a : Nat) (n : Nat) (es : MemErrs) :
    Runs [.mem, .host, .obj, .out] s (State.memErrs s a n es) := by
  unfold State.memErrs
  repeat' (first
    | with_reducible exact Runs.refl _
    | with_reducible assumption
    | exact Eq.refl true
    | exact fun h => h
    | dsimp only
    | with_reducible apply Runs.comp (State.memErr_runs ..)
    | with_reducible apply Runs.foldl
    | with_reducible apply Runs.foldl_fst
    | intro _
    | split)

theorem State.storeErrs_runs (s : State) (a : Nat) (n : Nat) (es : MemErrs) :
    Runs [.mem, .host, .obj, .out] s (State.storeErrs s a n es) := by
  unfold State.storeErrs
  repeat' (first
    | with_reducible exact Runs.refl _
    | with_reducible assumption
    | exact Eq.refl true
    | exact fun h => h
    | dsimp only
    | with_reducible apply Runs.comp (State.memErrs_runs ..))

theorem State.lookNote_runs (s : State) (c : Nat) (n : Nat) (dev : Nat) (o : Nat) (k : Right) :
    Runs [.fab] s (State.lookNote s c n dev o k) := by
  unfold State.lookNote
  repeat' (first
    | with_reducible exact Runs.refl _
    | with_reducible assumption
    | exact Eq.refl true
    | exact fun h => h
    | dsimp only
    | with_reducible apply Runs.comp (State.setFab_runs ..)
    | with_reducible apply Runs.foldl
    | with_reducible apply Runs.foldl_fst
    | intro _
    | split)

theorem State.fabFlag_runs (s : State) (b : Nat) (dev : Nat) :
    Runs [.obj] s (State.fabFlag s b dev) := by
  unfold State.fabFlag
  repeat' (first
    | with_reducible exact Runs.refl _
    | with_reducible assumption
    | exact Eq.refl true
    | exact fun h => h
    | dsimp only
    | with_reducible apply Runs.comp (State.modOv_runs ..))

end Sys2Proof.Machine
end

