-- ==== Sys2Proof/Laws/UrnOpsRuns.lean ====
section
/-!
SUPPORT. What the operations of Machine/UrnOps.lean may change, and that they keep the canonical form.
-/

namespace Sys2Proof.Machine

theorem Urn.wf_iff (x : Urn) : x.wf = true ↔ twf .free x.bufs = true ∧ twf .init x.lists = true := by
  simp [Urn.wf]

theorem State.setUrnBuf_runs (s : State) (k : Nat) (b : UrnBuf) : Runs [.urn] s (s.setUrnBuf k b) := by
  refine State.setUrn_runs s _ (fun h => ?_)
  rw [Urn.wf_iff] at h ⊢
  exact ⟨twf_tset _ k b h.1, h.2⟩

theorem State.setUrnClass_runs (s : State) (c : Nat) (x : UrnClass) : Runs [.urn] s (s.setUrnClass c x) := by
  refine State.setUrn_runs s _ (fun h => ?_)
  rw [Urn.wf_iff] at h ⊢
  exact ⟨h.1, twf_tset _ c x h.2⟩

theorem State.urnFlag_runs (s : State) (b : Nat) (h : Nat) :
    Runs [.obj] s (State.urnFlag s b h) := by
  unfold State.urnFlag
  repeat' (first
    | with_reducible exact Runs.refl _
    | with_reducible assumption
    | exact Eq.refl true
    | exact fun h => h
    | dsimp only
    | with_reducible apply Runs.comp (State.modOv_runs ..))

theorem State.urnHeadTo_runs (s : State) (c : Nat) (n : Nat) :
    Runs [.urn] s (State.urnHeadTo s c n) := by
  unfold State.urnHeadTo
  repeat' (first
    | with_reducible exact Runs.refl _
    | with_reducible assumption
    | exact Eq.refl true
    | exact fun h => h
    | dsimp only
    | with_reducible apply Runs.comp (State.setUrnClass_runs ..))

theorem State.urnPop_runs {s : State} {c : Nat} {r : Nat × State} (h : s.urnPop c = some r) : Runs [.urn] s r.2 := by
  obtain ⟨i, -, rfl⟩ := Option.map_eq_some_iff.mp h
  exact State.urnHeadTo_runs ..

theorem State.urnTake_runs {s : State} {c ctx k : Nat} {a b : Bool} {r : Nat × State}
    (h : s.urnTake c ctx k a b = some r) : Runs [.urn] s r.2 := by
  unfold State.urnTake at h
  split at h
  · cases h
  · rename_i i t e
    cases h
    refine (State.urnPop_runs e).trans ((State.setUrnBuf_runs t _ _).trans (State.setUrn_runs _ _ (fun h => h)))

theorem State.urnStop_runs (s : State) (c : Nat) :
    Runs [.urn] s (State.urnStop s c) := by
  unfold State.urnStop
  repeat' (first
    | with_reducible exact Runs.refl _
    | with_reducible assumption
    | exact Eq.refl true
    | exact fun h => h
    | dsimp only
    | with_reducible apply Runs.comp (State.setUrn_runs ..)
    | with_reducible apply Runs.foldl
    | with_reducible apply Runs.foldl_fst
    | intro _
    | split)

theorem State.urnAlloc_runs {s : State} {ctx k n : Nat} {a : Bool} {r : Nat × State}
    (h : s.urnAlloc ctx k n a = some r) : Runs [.urn] s r.2 := by
  unfold State.urnAlloc at h
  split at h
  · exact State.urnTake_runs h
  · cases h

theorem State.urnRelease_runs (s : State) (key : Nat) :
    Runs [.urn] s (State.urnRelease s key) := by
  unfold State.urnRelease
  repeat' (first
    | with_reducible exact Runs.refl _
    | with_reducible assumption
    | exact Eq.refl true
    | exact fun h => h
    | dsimp only
    | with_reducible apply Runs.comp (State.setUrnBuf_runs ..)
    | with_reducible apply Runs.comp (State.setUrn_runs ..)
    | with_reducible apply Runs.comp (State.setUrnClass_runs ..))

theorem State.urnFreeHandle_runs (s : State) (ctx : Nat) (h : Nat) :
    Runs [.urn, .obj] s (State.urnFreeHandle s ctx h).1 := by
  unfold State.urnFreeHandle
  repeat' (first
    | with_reducible exact Runs.refl _
    | with_reducible assumption
    | exact Eq.refl true
    | exact fun h => h
    | dsimp only
    | with_reducible apply Runs.comp (State.urnRelease_runs ..)
    | with_reducible apply Runs.comp (State.urnFlag_runs ..)
    | with_reducible apply Runs.foldl
    | with_reducible apply Runs.foldl_fst
    | intro _
    | split)

theorem State.urnFreeAll_runs (s : State) (ctx : Nat) (p : UrnBuf → Bool) :
    Runs [.urn] s (State.urnFreeAll s ctx p) := by
  unfold State.urnFreeAll
  repeat' (first
    | with_reducible exact Runs.refl _
    | with_reducible assumption
    | exact Eq.refl true
    | exact fun h => h
    | dsimp only
    | with_reducible apply Runs.comp (State.urnRelease_runs ..)
    | with_reducible apply Runs.foldl
    | with_reducible apply Runs.foldl_fst
    | intro _)

theorem State.urnDropReqs_runs (s : State) (ctx : Nat) :
    Runs [.urn] s (State.urnDropReqs s ctx) := by
  unfold State.urnDropReqs
  repeat' (first
    | with_reducible exact Runs.refl _
    | with_reducible assumption
    | exact Eq.refl true
    | exact fun h => h
    | dsimp only
    | with_reducible apply Runs.comp (State.setUrn_runs ..))

theorem urnCmd_runs (s : State) (ctx : Nat) (w : Nat) :
    Runs [.urn, .obj] s (urnCmd s ctx w).1 := by
  unfold urnCmd
  repeat' (first
    | with_reducible exact Runs.refl _
    | with_reducible assumption
    | exact Eq.refl true
    | exact fun h => h
    | dsimp only
    | refine Runs.comp (State.urnAlloc_runs (r := (_, _)) (by assumption)) rfl ?_
    | with_reducible apply Runs.comp (State.urnFlag_runs ..)
    | with_reducible apply Runs.comp (State.urnFreeHandle_runs ..)
    | refine Runs.of_pair (Runs.comp (State.urnFreeHandle_runs ..) rfl ?_) (by assumption)
    | with_reducible apply Runs.foldl
    | with_reducible apply Runs.foldl_fst
    | intro _
    | split)

theorem State.urnStore_runs (s : State) (key : Nat) (off : Nat) (bs : List Byte) :
    Runs [.urn] s (State.urnStore s key off bs) := by
  unfold State.urnStore
  repeat' (first
    | with_reducible exact Runs.refl _
    | with_reducible assumption
    | exact Eq.refl true
    | exact fun h => h
    | dsimp only
    | with_reducible apply Runs.comp (State.setUrn_runs ..))

theorem State.redTakeShared_runs {s t : State} {ctx : Nat} (h : s.redTakeShared ctx = some t) : Runs [.urn] s t := by
  unfold State.redTakeShared at h
  dsimp only at h
  split at h
  · cases h
  · cases h
    exact State.setUrn_runs _ _ (fun h => h)

theorem State.redTake_runs {s : State} {ctx g : Nat} {r : Bool × State} (h : s.redTake ctx g = some r) :
    Runs [.urn] s r.2 := by
  unfold State.redTake at h
  dsimp only at h
  split at h
  · cases h
    exact State.setUrn_runs _ _ (fun h => h)
  · cases e : s.redTakeShared ctx with
    | none => rw [e] at h; cases h
    | some t =>
      rw [e] at h
      cases h
      exact State.redTakeShared_runs e

theorem State.redGive_runs (s : State) (ctx : Nat) (g : Nat) (shared : Bool) :
    Runs [.urn] s (State.redGive s ctx g shared) := by
  unfold State.redGive
  repeat' (first
    | with_reducible exact Runs.refl _
    | with_reducible assumption
    | exact Eq.refl true
    | exact fun h => h
    | dsimp only
    | with_reducible apply Runs.comp (State.setUrn_runs ..)
    | with_reducible apply Runs.foldl
    | with_reducible apply Runs.foldl_fst
    | intro _
    | split)

theorem State.urnRebuild_runs (s : State) (c : Nat) :
    Runs [.urn] s (State.urnRebuild s c) := by
  unfold State.urnRebuild
  repeat' (first
    | with_reducible exact Runs.refl _
    | with_reducible assumption
    | exact Eq.refl true
    | exact fun h => h
    | dsimp only
    | with_reducible apply Runs.comp (State.setUrn_runs ..)
    | with_reducible apply Runs.comp (State.setUrnClass_runs ..))

end Sys2Proof.Machine
end

