-- ==== Sys2Proof/Laws/OperandsRuns.lean ====
section
/-!
SUPPORT. What the operations of Machine/Operands.lean may change, and that they keep the canonical form.
-/

namespace Sys2Proof.Machine

theorem State.noteRefused_runs (s : State) (ctx : Nat) (c : Nat) :
    Runs [.fab, .obj] s (State.noteRefused s ctx c) := by
  unfold State.noteRefused
  repeat' (first
    | with_reducible exact Runs.refl _
    | with_reducible assumption
    | exact Eq.refl true
    | exact fun h => h
    | dsimp only
    | with_reducible apply Runs.comp (State.fabFlag_runs ..)
    | with_reducible apply Runs.comp (State.lookNote_runs ..)
    | with_reducible apply Runs.foldl
    | with_reducible apply Runs.foldl_fst
    | intro _
    | split)

theorem State.l2Fill_runs (s : State) (die : Nat) (dev : Nat) (line : Nat) (data : List Byte) :
    Runs [.fab] s (State.l2Fill s die dev line data) := by
  unfold State.l2Fill
  repeat' (first
    | with_reducible exact Runs.refl _
    | with_reducible assumption
    | exact Eq.refl true
    | exact fun h => h
    | dsimp only
    | with_reducible apply Runs.comp (State.setFab_runs ..))

theorem State.l2Install_runs (s : State) (tag : Nat) (die : Nat) (dev : Nat) (a : Nat) (n : Nat) (data : List Byte) :
    Runs [.fab] s (State.l2Install s tag die dev a n data) := by
  unfold State.l2Install
  repeat' (first
    | with_reducible exact Runs.refl _
    | with_reducible assumption
    | exact Eq.refl true
    | exact fun h => h
    | dsimp only
    | with_reducible apply Runs.comp (State.l2Fill_runs ..)
    | with_reducible apply Runs.comp (State.setFab_runs ..)
    | with_reducible apply Runs.foldl
    | with_reducible apply Runs.foldl_fst
    | intro _
    | split)

theorem State.tagNext_runs (s : State) :
    Runs [.fab] s (State.tagNext s) := by
  unfold State.tagNext
  repeat' (first
    | with_reducible exact Runs.refl _
    | with_reducible assumption
    | exact Eq.refl true
    | exact fun h => h
    | dsimp only
    | with_reducible apply Runs.comp (State.setFab_runs ..))

theorem State.tileReq_runs (s : State) (r : TileReq) :
    Runs [.fab] s (State.tileReq s r) := by
  unfold State.tileReq
  repeat' (first
    | with_reducible exact Runs.refl _
    | with_reducible assumption
    | exact Eq.refl true
    | exact fun h => h
    | dsimp only
    | with_reducible apply Runs.comp (State.setFab_runs ..))

theorem State.dropTileReqs_runs (s : State) (core : Nat) (ctx : Nat) (seq : Nat) :
    Runs [.fab] s (State.dropTileReqs s core ctx seq) := by
  unfold State.dropTileReqs
  repeat' (first
    | with_reducible exact Runs.refl _
    | with_reducible assumption
    | exact Eq.refl true
    | exact fun h => h
    | dsimp only
    | with_reducible apply Runs.comp (State.setFab_runs ..))

theorem State.tileAsk_runs (s : State) (core : Nat) (ctx : Nat) (seq : Nat) (op : Nat) (a : Nat) (n : Nat) :
    Runs [.fab, .router] s (State.tileAsk s core ctx seq op a n) := by
  unfold State.tileAsk
  repeat' (first
    | with_reducible exact Runs.refl _
    | with_reducible assumption
    | exact Eq.refl true
    | exact fun h => h
    | dsimp only
    | with_reducible apply Runs.comp (State.lookNote_runs ..)
    | with_reducible apply Runs.comp (State.tileReq_runs ..)
    | with_reducible apply Runs.comp (State.capInject_runs ..)
    | with_reducible apply Runs.comp (State.tagNext_runs ..)
    | with_reducible apply Runs.foldl
    | with_reducible apply Runs.foldl_fst
    | intro _
    | split)

theorem State.askPeer_runs (s : State) (core : Nat) (ctx : Nat) (seq : Nat) (cs : List (Nat × Nat)) :
    Runs [.fab, .router] s (State.askPeer s core ctx seq cs) := by
  unfold State.askPeer
  repeat' (first
    | with_reducible exact Runs.refl _
    | with_reducible assumption
    | exact Eq.refl true
    | exact fun h => h
    | dsimp only
    | with_reducible apply Runs.comp (State.tileAsk_runs ..)
    | with_reducible apply Runs.foldl
    | with_reducible apply Runs.foldl_fst
    | intro _)

theorem State.peerWrite_runs (s : State) (port : Nat) (ctx : Nat) (dev : Nat) (o : Nat) (bs : List Byte) :
    Runs [.fab, .router] s (State.peerWrite s port ctx dev o bs) := by
  unfold State.peerWrite
  repeat' (first
    | with_reducible exact Runs.refl _
    | with_reducible assumption
    | exact Eq.refl true
    | exact fun h => h
    | dsimp only
    | with_reducible apply Runs.comp (State.capInject_runs ..)
    | with_reducible apply Runs.comp (State.tagNext_runs ..))

theorem State.tileWrite_runs (s : State) (core : Nat) (ctx : Nat) (seq : Nat) (op : Nat) (dev : Nat) (o : Nat) (bs : List Byte) :
    Runs [.fab, .router] s (State.tileWrite s core ctx seq op dev o bs) := by
  unfold State.tileWrite
  repeat' (first
    | with_reducible exact Runs.refl _
    | with_reducible assumption
    | exact Eq.refl true
    | exact fun h => h
    | dsimp only
    | with_reducible apply Runs.comp (State.peerWrite_runs ..)
    | with_reducible apply Runs.comp (State.tileReq_runs ..))

theorem State.globalStore_runs (s : State) (core : Nat) (ctx : Nat) (seq : Nat) (op : Nat) (dev : Nat) (cls : Nat) (p : Nat × List Byte) :
    Runs [.fab, .router, .obj] s (State.globalStore s core ctx seq op dev cls p).1 := by
  unfold State.globalStore
  repeat' (first
    | with_reducible exact Runs.refl _
    | with_reducible assumption
    | exact Eq.refl true
    | exact fun h => h
    | dsimp only
    | with_reducible apply Runs.comp (State.lookNote_runs ..)
    | with_reducible apply Runs.comp (State.fabFlag_runs ..)
    | with_reducible apply Runs.comp (State.tileWrite_runs ..)
    | with_reducible apply Runs.foldl
    | with_reducible apply Runs.foldl_fst
    | intro _
    | split)

theorem State.globalStores_runs (core ctx seq op dev cls : Nat) (ps : List (Nat × List Byte)) (s : State) :
    Runs [.fab, .router, .obj] s (State.globalStores core ctx seq op dev cls ps s).1 := by
  induction ps generalizing s with
  | nil => exact Runs.refl s
  | cons p ps ih =>
    unfold State.globalStores
    exact Runs.trans (State.globalStore_runs s core ctx seq op dev cls p) (ih _)

theorem State.applyStore_runs (s : State) (core : Nat) (ctx : Nat) (seq : Nat) (x : Store) :
    Runs [.cores, .mem, .urn, .fab, .router, .obj] s (State.applyStore s core ctx seq x).1 := by
  unfold State.applyStore
  repeat' (first
    | with_reducible exact Runs.refl _
    | with_reducible assumption
    | exact Eq.refl true
    | exact fun h => h
    | dsimp only
    | with_reducible apply Runs.comp (State.storeDev_runs ..)
    | with_reducible apply Runs.comp (State.setCore_runs ..)
    | with_reducible apply Runs.comp (State.urnStore_runs ..)
    | with_reducible apply Runs.comp (State.globalStores_runs ..)
    | refine Runs.of_pair (Runs.comp (State.globalStores_runs ..) rfl ?_) (by assumption)
    | with_reducible apply Runs.foldl
    | with_reducible apply Runs.foldl_fst
    | intro _
    | split)

theorem State.applyStores_runs (core ctx seq : Nat) (xs : List Store) (s : State) :
    Runs [.cores, .mem, .urn, .fab, .router, .obj] s (State.applyStores core ctx seq xs s).1 := by
  induction xs generalizing s with
  | nil => exact Runs.refl s
  | cons x xs ih =>
    unfold State.applyStores
    exact Runs.trans (State.applyStore_runs s core ctx seq x) (ih _)

end Sys2Proof.Machine
end

