-- ==== Sys2Proof/Laws/PointsRuns.lean ====
section
/-!
SUPPORT. What the operations of Machine/Points.lean may change, and that they keep the canonical form.
-/

namespace Sys2Proof.Machine

theorem State.rematch_runs (s : State) :
    Runs [.kettle] s (State.rematch s) := by
  unfold State.rematch
  repeat' (first
    | with_reducible exact Runs.refl _
    | with_reducible assumption
    | exact Eq.refl true
    | exact fun h => h
    | dsimp only
    | with_reducible apply Runs.comp (State.modDie_runs ..)
    | with_reducible apply Runs.foldl
    | with_reducible apply Runs.foldl_fst
    | intro _)

theorem State.paceIn_runs (s : State) (p : Nat) :
    Runs [.kettle] s (State.paceIn s p) := by
  unfold State.paceIn
  repeat' (first
    | with_reducible exact Runs.refl _
    | with_reducible assumption
    | exact Eq.refl true
    | exact fun h => h
    | dsimp only
    | with_reducible apply Runs.comp (State.setKettle_runs ..)
    | with_reducible apply Runs.comp (State.rematch_runs ..)
    | with_reducible apply Runs.foldl
    | with_reducible apply Runs.foldl_fst
    | intro _
    | split)

end Sys2Proof.Machine
end

