-- ==== Sys2Proof/Laws/ListsRuns.lean ====
section
/-!
SUPPORT. What the operations of Machine/Lists.lean may change, and that they keep the canonical form.
-/

namespace Sys2Proof.Machine

theorem State.sramOne_runs (core : Nat) (s : State) (x1 : SramErr) :
    Runs [.mem, .urn, .host, .obj, .out] s (State.sramOne core s x1) := by
  unfold State.sramOne
  repeat' (first
    | with_reducible exact Runs.refl _
    | with_reducible assumption
    | exact Eq.refl true
    | exact fun h => h
    | dsimp only
    | with_reducible apply Runs.comp (State.bump_runs ..)
    | with_reducible apply Runs.comp (State.memErr_runs ..)
    | with_reducible apply Runs.comp (State.urnStop_runs ..)
    | with_reducible apply Runs.foldl
    | with_reducible apply Runs.foldl_fst
    | intro _
    | split)

theorem State.sram_runs (s : State) (core : Nat) (es : List SramErr) :
    Runs [.mem, .urn, .host, .obj, .out] s (State.sram s core es) := by
  unfold State.sram
  repeat' (first
    | with_reducible exact Runs.refl _
    | with_reducible assumption
    | exact Eq.refl true
    | exact fun h => h
    | dsimp only
    | with_reducible apply Runs.comp (State.sramOne_runs ..)
    | with_reducible apply Runs.foldl
    | with_reducible apply Runs.foldl_fst
    | intro _)

theorem State.lose_runs (s : State) (err : List SramErr) :
    Runs [.free] s (State.lose s err) := by
  unfold State.lose
  repeat' (first
    | with_reducible exact Runs.refl _
    | with_reducible assumption
    | exact Eq.refl true
    | exact fun h => h
    | dsimp only
    | with_reducible apply Runs.comp (State.fresh_runs ..)
    | with_reducible apply Runs.foldl
    | with_reducible apply Runs.foldl_fst
    | intro _
    | split)

theorem State.flaw_runs (s : State) (f : Nat × SramErr) :
    Runs [.mem, .urn, .host, .obj, .out] s (State.flaw s f) := by
  unfold State.flaw
  repeat' (first
    | with_reducible exact Runs.refl _
    | with_reducible assumption
    | exact Eq.refl true
    | exact fun h => h
    | dsimp only
    | with_reducible apply Runs.comp (State.setMem_runs ..)
    | with_reducible apply Runs.comp (State.sramOne_runs ..)
    | with_reducible apply Runs.foldl
    | with_reducible apply Runs.foldl_fst
    | intro _
    | split)

theorem State.flaws_runs (s : State) :
    Runs [.mem, .urn, .host, .obj, .out] s (State.flaws s) := by
  unfold State.flaws
  repeat' (first
    | with_reducible exact Runs.refl _
    | with_reducible assumption
    | exact Eq.refl true
    | exact fun h => h
    | dsimp only
    | with_reducible apply Runs.comp (State.flaw_runs ..)
    | with_reducible apply Runs.foldl
    | with_reducible apply Runs.foldl_fst
    | intro _
    | split)

theorem State.foundDone_runs (s : State) :
    Runs [.mem, .free] s (State.foundDone s) := by
  unfold State.foundDone
  repeat' (first
    | with_reducible exact Runs.refl _
    | with_reducible assumption
    | exact Eq.refl true
    | exact fun h => h
    | dsimp only
    | with_reducible apply Runs.comp (State.lose_runs ..)
    | with_reducible apply Runs.comp (State.setMem_runs ..))

theorem State.enlist_runs (s : State) (e : Entry) :
    Runs [.sched] s (State.enlist s e) := by
  unfold State.enlist
  repeat' (first
    | with_reducible exact Runs.refl _
    | with_reducible assumption
    | exact Eq.refl true
    | exact fun h => h
    | dsimp only
    | with_reducible apply Runs.comp (State.setDieList_runs ..)
    | with_reducible apply Runs.comp (State.setSched_runs ..))

theorem State.post_runs {s t : State} {ctx target : Nat} {d : WorkDesc} (h : s.post ctx target d = some t) :
    Runs [.sched] s t := by
  unfold State.post at h
  dsimp only at h
  repeat' split at h
  all_goals
    cases h <;>
    repeat' (first
      | with_reducible apply Runs.comp (State.enlist_runs ..)
      | with_reducible apply Runs.comp (State.setSched_runs ..)
      | exact Eq.refl true
      | exact fun h => h
      | exact Runs.refl _)

theorem State.repost_runs (s : State) (e : Entry) :
    Runs [.sched] s (State.repost s e) := by
  unfold State.repost
  repeat' (first
    | with_reducible exact Runs.refl _
    | with_reducible assumption
    | exact Eq.refl true
    | exact fun h => h
    | dsimp only
    | with_reducible apply Runs.comp (State.enlist_runs ..))

theorem State.unlist_runs (s : State) (e : Entry) :
    Runs [.sched] s (State.unlist s e) := by
  unfold State.unlist
  repeat' (first
    | with_reducible exact Runs.refl _
    | with_reducible assumption
    | exact Eq.refl true
    | exact fun h => h
    | dsimp only
    | with_reducible apply Runs.comp (State.setDieList_runs ..))

theorem State.overflowMove_runs (die : Nat) (s : State) :
    Runs [.sched] s (State.overflowMove die s) := by
  unfold State.overflowMove
  repeat' (first
    | with_reducible exact Runs.refl _
    | with_reducible assumption
    | exact Eq.refl true
    | exact fun h => h
    | dsimp only
    | with_reducible apply Runs.comp (State.repost_runs ..)
    | with_reducible apply Runs.comp (State.setSched_runs ..)
    | with_reducible apply Runs.foldl
    | with_reducible apply Runs.foldl_fst
    | intro _
    | split)

theorem State.cplWrite_runs (s : State) (ctx : Nat) (bs : List Byte) :
    Runs [.mem, .host, .obj, .out] s (State.cplWrite s ctx bs) := by
  unfold State.cplWrite
  repeat' (first
    | with_reducible exact Runs.refl _
    | with_reducible assumption
    | exact Eq.refl true
    | exact fun h => h
    | dsimp only
    | with_reducible apply Runs.comp (State.modOv_runs ..)
    | with_reducible apply Runs.comp (State.storeDev_runs ..)
    | with_reducible apply Runs.comp (State.modPage_runs ..)
    | with_reducible apply Runs.comp (State.interrupt_runs ..)
    | with_reducible apply Runs.foldl
    | with_reducible apply Runs.foldl_fst
    | intro _
    | split)

theorem State.finish_runs (s : State) (c : Cpl) :
    Runs [.sync, .mem, .fab, .router, .host, .steps, .obj, .out] s (State.finish s c) := by
  unfold State.finish
  repeat' (first
    | with_reducible exact Runs.refl _
    | with_reducible assumption
    | exact Eq.refl true
    | exact fun h => h
    | dsimp only
    | with_reducible apply Runs.comp (State.cplWrite_runs ..)
    | with_reducible apply Runs.comp (State.orOv_runs ..)
    | with_reducible apply Runs.comp (State.latch_runs ..)
    | with_reducible apply Runs.comp (State.signalWord_runs ..)
    | with_reducible apply Runs.foldl
    | with_reducible apply Runs.foldl_fst
    | intro _
    | split)

theorem State.withdraw_runs (s : State) (e : Entry) (core : Nat) (cause : Nat) :
    Runs [.sched, .sync, .mem, .fab, .router, .host, .steps, .obj, .out] s (State.withdraw s e core cause) := by
  unfold State.withdraw
  repeat' (first
    | with_reducible exact Runs.refl _
    | with_reducible assumption
    | exact Eq.refl true
    | exact fun h => h
    | dsimp only
    | with_reducible apply Runs.comp (State.finish_runs ..)
    | with_reducible apply Runs.comp (State.unlist_runs ..))

theorem State.takeWait_runs (s : State) (ctx w : Nat) : Runs [.sync] s (s.takeWait ctx w) := by
  unfold State.takeWait
  dsimp only
  split
  · exact Runs.refl s
  · refine State.setCtr_runs s _ _ (fun h => ?_)
    exact Nat.lt_of_le_of_lt (Nat.sub_le _ _) (State.ctr_lt h _)

theorem State.takeWaits_runs (s : State) (e : Entry) :
    Runs [.sync] s (State.takeWaits s e) := by
  unfold State.takeWaits
  repeat' (first
    | with_reducible exact Runs.refl _
    | with_reducible assumption
    | exact Eq.refl true
    | exact fun h => h
    | dsimp only
    | with_reducible apply Runs.comp (State.takeWait_runs ..)
    | with_reducible apply Runs.foldl
    | with_reducible apply Runs.foldl_fst
    | intro _
    | split)

theorem State.markReady_runs (s : State) :
    Runs [.sched] s (State.markReady s) := by
  unfold State.markReady
  repeat' (first
    | with_reducible exact Runs.refl _
    | with_reducible assumption
    | exact Eq.refl true
    | exact fun h => h
    | exact twf_tmap [] _ (twf_keys (by assumption))
    | dsimp only
    | with_reducible apply Runs.comp (State.setSched_runs ..)
    | with_reducible apply Runs.foldl
    | with_reducible apply Runs.foldl_fst
    | intro _)

theorem State.evalNote_runs (s : State) (c : Option Nat) :
    Runs [.tele] s (State.evalNote s c) := by
  unfold State.evalNote
  repeat' (first
    | with_reducible exact Runs.refl _
    | with_reducible assumption
    | exact Eq.refl true
    | exact fun h => h
    | dsimp only
    | with_reducible apply Runs.comp (State.setTele_runs ..)
    | with_reducible apply Runs.foldl
    | with_reducible apply Runs.foldl_fst
    | intro _
    | split)

theorem State.askCredit_runs (e : Entry) (s : State) :
    Runs [.urn, .router] s (State.askCredit e s) := by
  unfold State.askCredit
  repeat' (first
    | with_reducible exact Runs.refl _
    | with_reducible assumption
    | exact Eq.refl true
    | exact fun h => h
    | dsimp only
    | with_reducible apply Runs.comp (State.setUrn_runs ..)
    | with_reducible apply Runs.comp (State.send_runs ..)
    | with_reducible apply Runs.foldl
    | with_reducible apply Runs.foldl_fst
    | intro _
    | split)

theorem State.notice_runs (s : State) :
    Runs [.sched, .urn, .router] s (State.notice s) := by
  unfold State.notice
  repeat' (first
    | with_reducible exact Runs.refl _
    | with_reducible assumption
    | exact Eq.refl true
    | exact fun h => h
    | dsimp only
    | with_reducible apply Runs.comp (State.markReady_runs ..)
    | with_reducible apply Runs.comp (State.askCredit_runs ..)
    | with_reducible apply Runs.foldl
    | with_reducible apply Runs.foldl_fst
    | intro _)

theorem State.urnTileFlags_runs (s : State) (d : WorkDesc) (cs : List (Nat × Nat)) :
    Runs [.obj] s (State.urnTileFlags s d cs) := by
  unfold State.urnTileFlags
  repeat' (first
    | with_reducible exact Runs.refl _
    | with_reducible assumption
    | exact Eq.refl true
    | exact fun h => h
    | dsimp only
    | with_reducible apply Runs.comp (State.urnFlag_runs ..)
    | with_reducible apply Runs.foldl
    | with_reducible apply Runs.foldl_fst
    | intro _)

theorem State.assign_runs (core : Nat) (s : State) :
    Runs [.cores] s (State.assign core s) := by
  unfold State.assign
  repeat' (first
    | with_reducible exact Runs.refl _
    | with_reducible assumption
    | exact Eq.refl true
    | exact fun h => h
    | dsimp only
    | with_reducible apply Runs.comp (State.modCore_runs ..))

theorem State.sparseErr_runs (s : State) (ctx : Nat) (tile : Nat) (op : Nat) (cause : Nat) (p0 : Nat) (p1 : Nat) :
    Runs [.obj] s (State.sparseErr s ctx tile op cause p0 p1) := by
  unfold State.sparseErr
  repeat' (first
    | with_reducible exact Runs.refl _
    | with_reducible assumption
    | exact Eq.refl true
    | exact fun h => h
    | dsimp only
    | with_reducible apply Runs.comp (State.setOv_runs ..)
    | with_reducible apply Runs.comp (State.orOv_runs ..)
    | with_reducible apply Runs.foldl
    | with_reducible apply Runs.foldl_fst
    | intro _
    | split)

theorem State.hdrNote_runs (s : State) (x : Tile) :
    Runs [.fab, .obj] s (State.hdrNote s x) := by
  unfold State.hdrNote
  repeat' (first
    | with_reducible exact Runs.refl _
    | with_reducible assumption
    | exact Eq.refl true
    | exact fun h => h
    | dsimp only
    | with_reducible apply Runs.comp (State.sparseErr_runs ..)
    | with_reducible apply Runs.comp (State.noteRefused_runs ..)
    | with_reducible apply Runs.foldl
    | with_reducible apply Runs.foldl_fst
    | intro _
    | split)

theorem State.addTile_runs (s : State) (core : Nat) (t : Tile) :
    Runs [.cores, .fab, .obj, .tele] s (State.addTile s core t) := by
  unfold State.addTile
  repeat' (first
    | with_reducible exact Runs.refl _
    | with_reducible assumption
    | exact Eq.refl true
    | exact fun h => h
    | dsimp only
    | with_reducible apply Runs.comp (State.assign_runs ..)
    | with_reducible apply Runs.comp (State.modCore_runs ..)
    | with_reducible apply Runs.comp (State.evalNote_runs ..)
    | with_reducible apply Runs.comp (State.hdrNote_runs ..))

theorem State.acceptMatmul_runs (core : Nat) (e : Entry) (s : State) :
    Runs [.cores, .fab, .obj, .tele] s (State.acceptMatmul core e s) := by
  unfold State.acceptMatmul
  repeat' (first
    | with_reducible exact Runs.refl _
    | with_reducible assumption
    | exact Eq.refl true
    | exact fun h => h
    | dsimp only
    | with_reducible apply Runs.comp (State.addTile_runs ..)
    | with_reducible apply Runs.comp (State.setCore_runs ..))

theorem State.acceptPlain_runs (core : Nat) (e : Entry) (s : State) :
    Runs [.cores, .fab, .obj, .tele] s (State.acceptPlain core e s) := by
  unfold State.acceptPlain
  repeat' (first
    | with_reducible exact Runs.refl _
    | with_reducible assumption
    | exact Eq.refl true
    | exact fun h => h
    | dsimp only
    | with_reducible apply Runs.comp (State.addTile_runs ..))

theorem State.claim_runs {L : List Part} (core : Nat) (ty : Nat) (accept : Nat → Entry → State → State) (s : State) (hf : ∀ n e t, Runs L t (accept n e t)) (hL : within [.sched, .sync, .mem, .urn, .fab, .router, .host, .steps, .obj, .out, .free] L = true) :
    Runs L s (State.claim core ty accept s) := by
  unfold State.claim
  repeat' (first
    | with_reducible refine Runs.trans ?_ (hf ..)
    | exact hL
    | with_reducible exact Runs.refl _
    | with_reducible assumption
    | exact Eq.refl true
    | exact within_trans rfl hL
    | exact fun h => h
    | dsimp only
    | with_reducible apply Runs.comp (State.notice_runs ..)
    | with_reducible apply Runs.comp (State.withdraw_runs ..)
    | with_reducible apply Runs.comp (State.askPeer_runs ..)
    | with_reducible apply Runs.comp (State.takeWaits_runs ..)
    | with_reducible apply Runs.comp (State.unlist_runs ..)
    | with_reducible apply Runs.comp (State.foundDone_runs ..)
    | with_reducible apply Runs.comp (State.urnTileFlags_runs ..)
    | with_reducible apply Runs.comp (State.finish_runs ..)
    | with_reducible apply Runs.comp (State.dropTileReqs_runs ..)
    | with_reducible apply Runs.foldl
    | with_reducible apply Runs.foldl_fst
    | intro _
    | split)

theorem State.chainMissing_runs (die : Nat) (s : State) :
    Runs [.sched, .sync, .mem, .fab, .router, .host, .steps, .obj, .out] s (State.chainMissing die s) := by
  unfold State.chainMissing
  repeat' (first
    | with_reducible exact Runs.refl _
    | with_reducible assumption
    | exact Eq.refl true
    | exact fun h => h
    | dsimp only
    | with_reducible apply Runs.comp (State.takeWaits_runs ..)
    | with_reducible apply Runs.comp (State.unlist_runs ..)
    | with_reducible apply Runs.comp (State.finish_runs ..)
    | with_reducible apply Runs.foldl
    | with_reducible apply Runs.foldl_fst
    | intro _
    | split)

end Sys2Proof.Machine
end

