-- ==== Sys2Proof/Laws/TileWorkRuns.lean ====
section
/-!
SUPPORT. What the operations of Machine/TileWork.lean may change, and that they keep the canonical form.
-/

namespace Sys2Proof.Machine

theorem State.note_runs (s : State) (x : Tile) (evs : List (Nat × Ev)) :
    Runs [.fab, .obj] s (State.note s x evs) := by
  unfold State.note
  repeat' (first
    | with_reducible exact Runs.refl _
    | with_reducible assumption
    | exact Eq.refl true
    | exact fun h => h
    | dsimp only
    | with_reducible apply Runs.comp (State.sparseErr_runs ..)
    | with_reducible apply Runs.comp (State.noteRefused_runs ..)
    | with_reducible apply Runs.foldl
    | with_reducible apply Runs.foldl_fst
    | intro _
    | split)

theorem State.takeOut_runs (s : State) (x : Tile) (i : Nat) (r : OutRes) :
    Runs [.obj] s (State.takeOut s x i r).1 := by
  unfold State.takeOut
  repeat' (first
    | with_reducible exact Runs.refl _
    | with_reducible assumption
    | exact Eq.refl true
    | exact fun h => h
    | dsimp only
    | with_reducible apply Runs.comp (State.orOv_runs ..)
    | with_reducible apply Runs.comp (State.bump_runs ..)
    | with_reducible apply Runs.foldl
    | with_reducible apply Runs.foldl_fst
    | intro _
    | split)

theorem State.runRoutine_runs (s : State) (core : Nat) (x : Tile) (rows : List (List Fv)) :
    Runs [.fab, .obj] s (State.runRoutine s core x rows).1 := by
  unfold State.runRoutine
  repeat' (first
    | with_reducible exact Runs.refl _
    | with_reducible assumption
    | exact Eq.refl true
    | exact fun h => h
    | dsimp only
    | with_reducible apply Runs.comp (State.note_runs ..)
    | with_reducible apply Runs.comp (State.takeOut_runs ..)
    | refine Runs.of_pair (Runs.comp (State.takeOut_runs ..) rfl ?_) (by assumption)
    | with_reducible apply Runs.foldl
    | with_reducible apply Runs.foldl_fst
    | intro _
    | split)

theorem State.mmRun_runs (s : State) (core : Nat) (x : Tile) (sl : Slot) (upto : Nat) :
    Runs [.fab, .obj] s (State.mmRun s core x sl upto).1 := by
  unfold State.mmRun
  repeat' (first
    | with_reducible exact Runs.refl _
    | with_reducible assumption
    | exact Eq.refl true
    | exact fun h => h
    | dsimp only
    | with_reducible apply Runs.comp (State.note_runs ..))

theorem State.vecRun_runs (s : State) (core : Nat) (x : Tile) :
    Runs [.fab, .obj] s (State.vecRun s core x).1 := by
  unfold State.vecRun
  repeat' (first
    | with_reducible exact Runs.refl _
    | with_reducible assumption
    | exact Eq.refl true
    | exact fun h => h
    | dsimp only
    | with_reducible apply Runs.comp (State.runRoutine_runs ..)
    | refine Runs.of_pair (Runs.comp (State.runRoutine_runs ..) rfl ?_) (by assumption)
    | with_reducible apply Runs.comp (State.note_runs ..))

theorem State.copyRun_runs (s : State) (core : Nat) (x : Tile) :
    Runs [.fab, .obj] s (State.copyRun s core x).1 := by
  unfold State.copyRun
  repeat' (first
    | with_reducible exact Runs.refl _
    | with_reducible assumption
    | exact Eq.refl true
    | exact fun h => h
    | dsimp only
    | with_reducible apply Runs.comp (State.note_runs ..)
    | with_reducible apply Runs.comp (State.takeOut_runs ..)
    | refine Runs.of_pair (Runs.comp (State.takeOut_runs ..) rfl ?_) (by assumption)
    | with_reducible apply Runs.foldl
    | with_reducible apply Runs.foldl_fst
    | intro _
    | split)

theorem State.epiRun_runs (s : State) (core : Nat) (x : Tile) (sl : Slot) :
    Runs [.fab, .obj] s (State.epiRun s core x sl).1 := by
  unfold State.epiRun
  repeat' (first
    | with_reducible exact Runs.refl _
    | with_reducible assumption
    | exact Eq.refl true
    | exact fun h => h
    | dsimp only
    | with_reducible apply Runs.comp (State.runRoutine_runs ..))

end Sys2Proof.Machine
end

