-- ==== Sys2Proof/Laws/UpdateTileRuns.lean ====
section
/-!
SUPPORT. What the operations of Machine/UpdateTile.lean may change, and that they keep the canonical form.
-/

namespace Sys2Proof.Machine

theorem State.updRun_runs (s : State) (core : Nat) (x : Tile) :
    Runs [.fab, .obj] s (State.updRun s core x).1 := by
  unfold State.updRun
  repeat' (first
    | with_reducible exact Runs.refl _
    | with_reducible assumption
    | exact Eq.refl true
    | exact fun h => h
    | dsimp only
    | with_reducible apply Runs.comp (State.note_runs ..)
    | with_reducible apply Runs.foldl
    | with_reducible apply Runs.foldl_fst
    | intro _
    | split)

end Sys2Proof.Machine
end

