-- ==== Sys2Proof/Laws/TilesRuns.lean ====
section
/-!
SUPPORT. What the operations of Machine/Tiles.lean may change, and that they keep the canonical form.
-/

namespace Sys2Proof.Machine

theorem State.sendData_runs (s : State) (core : Nat) (ctx : Nat) (r : SendRec) (tag : Nat) (bs : List Byte) :
    Runs [.router] s (State.sendData s core ctx r tag bs) := by
  unfold State.sendData
  repeat' (first
    | with_reducible exact Runs.refl _
    | with_reducible assumption
    | exact Eq.refl true
    | exact fun h => h
    | dsimp only
    | with_reducible apply Runs.comp (State.send_runs ..)
    | with_reducible apply Runs.foldl
    | with_reducible apply Runs.foldl_fst
    | intro _)

theorem State.sendRun_runs (s : State) (core : Nat) (x : Tile) (ev : Option Nat) :
    Runs [.urn, .router] s (State.sendRun s core x ev).1 := by
  unfold State.sendRun
  repeat' (first
    | with_reducible exact Runs.refl _
    | with_reducible assumption
    | exact Eq.refl true
    | exact fun h => h
    | dsimp only
    | with_reducible apply Runs.comp (State.sendData_runs ..)
    | with_reducible apply Runs.comp (State.setUrn_runs ..)
    | with_reducible apply Runs.foldl
    | with_reducible apply Runs.foldl_fst
    | intro _
    | split)

theorem postRows_runs (n : Nat) (s : State) (x : Tile) : Runs [.sched] s (postRows n s x).1 := by
  induction n generalizing s x with
  | zero => exact Runs.refl s
  | succ n ih =>
    unfold postRows
    dsimp only
    split
    · exact Runs.refl s
    · split
      · rename_i e
        exact Runs.trans (State.post_runs e) (ih _ _)
      · exact Runs.refl s

theorem State.acceptUpdate_runs (core : Nat) (e : Entry) (s : State) :
    Runs [.cores, .fab, .obj, .tele] s (State.acceptUpdate core e s) := by
  unfold State.acceptUpdate
  repeat' (first
    | with_reducible exact Runs.refl _
    | with_reducible assumption
    | exact Eq.refl true
    | exact fun h => h
    | dsimp only
    | with_reducible apply Runs.comp (State.addTile_runs ..))

theorem State.acceptPost_runs (core : Nat) (e : Entry) (s : State) :
    Runs [.cores, .sched, .fab, .obj, .tele] s (State.acceptPost core e s) := by
  unfold State.acceptPost
  repeat' (first
    | with_reducible exact Runs.refl _
    | with_reducible assumption
    | exact Eq.refl true
    | exact fun h => h
    | dsimp only
    | with_reducible apply Runs.comp (State.addTile_runs ..)
    | with_reducible apply Runs.comp (postRows_runs ..)
    | refine Runs.of_pair (Runs.comp (postRows_runs ..) rfl ?_) (by assumption)
    | with_reducible apply Runs.foldl
    | with_reducible apply Runs.foldl_fst
    | intro _
    | split)

theorem execMatmul_runs (core : Nat) (s : State) :
    RunsTo [.cores, .sched, .sync, .mem, .urn, .fab, .router, .host, .steps, .obj, .tele, .out, .free] s (execMatmul core s) := by
  unfold execMatmul
  repeat' (first
    | with_reducible refine RunsTo.need ?_
    | with_reducible refine RunsTo.next ?_
    | with_reducible exact Runs.refl _
    | with_reducible assumption
    | exact Eq.refl true
    | exact fun h => h
    | dsimp only
    | with_reducible apply State.claim_runs
    | with_reducible apply Runs.comp (State.acceptMatmul_runs ..)
    | with_reducible apply Runs.foldl
    | with_reducible apply Runs.foldl_fst
    | intro _)

theorem execVector_runs (core : Nat) (s : State) :
    RunsTo [.cores, .sched, .sync, .mem, .urn, .fab, .router, .host, .steps, .obj, .tele, .out, .free] s (execVector core s) := by
  unfold execVector
  repeat' (first
    | with_reducible refine RunsTo.need ?_
    | with_reducible refine RunsTo.next ?_
    | with_reducible exact Runs.refl _
    | with_reducible assumption
    | exact Eq.refl true
    | exact fun h => h
    | dsimp only
    | with_reducible apply State.claim_runs
    | with_reducible apply Runs.comp (State.acceptPlain_runs ..)
    | with_reducible apply Runs.foldl
    | with_reducible apply Runs.foldl_fst
    | intro _)

theorem execCopy_runs (core : Nat) (s : State) :
    RunsTo [.cores, .sched, .sync, .mem, .urn, .fab, .router, .host, .steps, .obj, .tele, .out, .free] s (execCopy core s) := by
  unfold execCopy
  repeat' (first
    | with_reducible refine RunsTo.need ?_
    | with_reducible refine RunsTo.next ?_
    | with_reducible exact Runs.refl _
    | with_reducible assumption
    | exact Eq.refl true
    | exact fun h => h
    | dsimp only
    | with_reducible apply State.claim_runs
    | with_reducible apply Runs.comp (State.acceptPlain_runs ..)
    | with_reducible apply Runs.foldl
    | with_reducible apply Runs.foldl_fst
    | intro _)

theorem execUpdate_runs (core : Nat) (s : State) :
    RunsTo [.cores, .sched, .sync, .mem, .urn, .fab, .router, .host, .steps, .obj, .tele, .out, .free] s (execUpdate core s) := by
  unfold execUpdate
  repeat' (first
    | with_reducible refine RunsTo.need ?_
    | with_reducible refine RunsTo.next ?_
    | with_reducible exact Runs.refl _
    | with_reducible assumption
    | exact Eq.refl true
    | exact fun h => h
    | dsimp only
    | with_reducible apply State.claim_runs
    | with_reducible apply Runs.comp (State.acceptUpdate_runs ..)
    | with_reducible apply Runs.foldl
    | with_reducible apply Runs.foldl_fst
    | intro _)

theorem execSend_runs (core : Nat) (s : State) :
    RunsTo [.cores, .sched, .sync, .mem, .urn, .fab, .router, .host, .steps, .obj, .tele, .out, .free] s (execSend core s) := by
  unfold execSend
  repeat' (first
    | with_reducible refine RunsTo.need ?_
    | with_reducible refine RunsTo.next ?_
    | with_reducible exact Runs.refl _
    | with_reducible assumption
    | exact Eq.refl true
    | exact fun h => h
    | dsimp only
    | with_reducible apply State.claim_runs
    | with_reducible apply Runs.comp (State.acceptPlain_runs ..)
    | with_reducible apply Runs.foldl
    | with_reducible apply Runs.foldl_fst
    | intro _)

theorem execPost_runs (core : Nat) (s : State) :
    RunsTo [.cores, .sched, .sync, .mem, .urn, .fab, .router, .host, .steps, .obj, .tele, .out, .free] s (execPost core s) := by
  unfold execPost
  repeat' (first
    | with_reducible refine RunsTo.need ?_
    | with_reducible refine RunsTo.next ?_
    | with_reducible exact Runs.refl _
    | with_reducible assumption
    | exact Eq.refl true
    | exact fun h => h
    | dsimp only
    | with_reducible apply State.claim_runs
    | with_reducible apply Runs.comp (State.acceptPost_runs ..)
    | with_reducible apply Runs.foldl
    | with_reducible apply Runs.foldl_fst
    | intro _)

theorem State.postRetry_runs (core : Nat) (s : State) :
    Runs [.cores, .sched] s (State.postRetry core s) := by
  unfold State.postRetry
  repeat' (first
    | with_reducible exact Runs.refl _
    | with_reducible assumption
    | exact Eq.refl true
    | exact fun h => h
    | dsimp only
    | with_reducible apply Runs.comp (postRows_runs ..)
    | refine Runs.of_pair (Runs.comp (postRows_runs ..) rfl ?_) (by assumption)
    | with_reducible apply Runs.comp (State.modCore_runs ..)
    | with_reducible apply Runs.foldl
    | with_reducible apply Runs.foldl_fst
    | intro _
    | split)

theorem execPostRetry_runs (core : Nat) (s : State) :
    RunsTo [.cores, .sched] s (execPostRetry core s) := by
  unfold execPostRetry
  repeat' (first
    | with_reducible refine RunsTo.need ?_
    | with_reducible refine RunsTo.next ?_
    | with_reducible exact Runs.refl _
    | with_reducible assumption
    | exact Eq.refl true
    | exact fun h => h
    | dsimp only
    | with_reducible apply Runs.comp (State.postRetry_runs ..))

theorem execOverflowMove_runs (die : Nat) (s : State) :
    RunsTo [.sched] s (execOverflowMove die s) := by
  unfold execOverflowMove
  repeat' (first
    | with_reducible refine RunsTo.need ?_
    | with_reducible refine RunsTo.next ?_
    | with_reducible exact Runs.refl _
    | with_reducible assumption
    | exact Eq.refl true
    | exact fun h => h
    | dsimp only
    | with_reducible apply Runs.comp (State.overflowMove_runs ..))

theorem execChainMissing_runs (die : Nat) (s : State) :
    RunsTo [.sched, .sync, .mem, .fab, .router, .host, .steps, .obj, .out] s (execChainMissing die s) := by
  unfold execChainMissing
  repeat' (first
    | with_reducible refine RunsTo.need ?_
    | with_reducible refine RunsTo.next ?_
    | with_reducible exact Runs.refl _
    | with_reducible assumption
    | exact Eq.refl true
    | exact fun h => h
    | dsimp only
    | with_reducible apply Runs.comp (State.chainMissing_runs ..))

theorem State.compute_runs (core : Nat) (idx : Nat) (ev : Option Nat) (c : Core) (x : Tile) (s : State) :
    Runs [.cores, .urn, .fab, .router, .obj] s (State.compute core idx ev c x s) := by
  unfold State.compute
  repeat' (first
    | with_reducible exact Runs.refl _
    | with_reducible assumption
    | exact Eq.refl true
    | exact fun h => h
    | dsimp only
    | with_reducible apply Runs.comp (State.mmRun_runs ..)
    | refine Runs.of_pair (Runs.comp (State.mmRun_runs ..) rfl ?_) (by assumption)
    | with_reducible apply Runs.comp (State.askPeer_runs ..)
    | with_reducible apply Runs.comp (State.setCore_runs ..)
    | with_reducible apply Runs.comp (State.assign_runs ..)
    | with_reducible apply Runs.comp (State.sendRun_runs ..)
    | refine Runs.of_pair (Runs.comp (State.sendRun_runs ..) rfl ?_) (by assumption)
    | with_reducible apply Runs.comp (State.vecRun_runs ..)
    | refine Runs.of_pair (Runs.comp (State.vecRun_runs ..) rfl ?_) (by assumption)
    | with_reducible apply Runs.comp (State.copyRun_runs ..)
    | refine Runs.of_pair (Runs.comp (State.copyRun_runs ..) rfl ?_) (by assumption)
    | with_reducible apply Runs.comp (State.updRun_runs ..)
    | refine Runs.of_pair (Runs.comp (State.updRun_runs ..) rfl ?_) (by assumption)
    | with_reducible apply Runs.foldl
    | with_reducible apply Runs.foldl_fst
    | intro _
    | split)

theorem State.computeDone_runs (core : Nat) (idx : Nat) (err : List SramErr) (s : State) :
    Runs [.cores, .mem, .urn, .fab, .router, .host, .obj, .out, .free] s (State.computeDone core idx err s) := by
  unfold State.computeDone
  repeat' (first
    | with_reducible exact Runs.refl _
    | with_reducible assumption
    | exact Eq.refl true
    | exact fun h => h
    | dsimp only
    | with_reducible apply Runs.comp (State.compute_runs ..)
    | with_reducible apply Runs.comp (State.sram_runs ..)
    | with_reducible apply Runs.comp (State.lose_runs ..)
    | with_reducible apply Runs.foldl
    | with_reducible apply Runs.foldl_fst
    | intro _
    | split)

theorem execTileComputeDone_runs (core : Nat) (idx : Nat) (err : List SramErr) (s : State) :
    RunsTo [.cores, .mem, .urn, .fab, .router, .host, .obj, .out, .free] s (execTileComputeDone core idx err s) := by
  unfold execTileComputeDone
  repeat' (first
    | with_reducible refine RunsTo.need ?_
    | with_reducible refine RunsTo.next ?_
    | with_reducible exact Runs.refl _
    | with_reducible assumption
    | exact Eq.refl true
    | exact fun h => h
    | dsimp only
    | with_reducible apply Runs.comp (State.computeDone_runs ..))

theorem State.epilogue_runs (core : Nat) (idx : Nat) (ev : Option Nat) (c : Core) (x : Tile) (s : State) :
    Runs [.cores, .fab, .router, .obj] s (State.epilogue core idx ev c x s) := by
  unfold State.epilogue
  repeat' (first
    | with_reducible exact Runs.refl _
    | with_reducible assumption
    | exact Eq.refl true
    | exact fun h => h
    | dsimp only
    | with_reducible apply Runs.comp (State.epiRun_runs ..)
    | refine Runs.of_pair (Runs.comp (State.epiRun_runs ..) rfl ?_) (by assumption)
    | with_reducible apply Runs.comp (State.askPeer_runs ..)
    | with_reducible apply Runs.comp (State.setCore_runs ..)
    | with_reducible apply Runs.foldl
    | with_reducible apply Runs.foldl_fst
    | intro _
    | split)

theorem State.epilogueDone_runs (core : Nat) (idx : Nat) (err : List SramErr) (s : State) :
    Runs [.cores, .mem, .urn, .fab, .router, .host, .obj, .out, .free] s (State.epilogueDone core idx err s) := by
  unfold State.epilogueDone
  repeat' (first
    | with_reducible exact Runs.refl _
    | with_reducible assumption
    | exact Eq.refl true
    | exact fun h => h
    | dsimp only
    | with_reducible apply Runs.comp (State.epilogue_runs ..)
    | with_reducible apply Runs.comp (State.sram_runs ..)
    | with_reducible apply Runs.comp (State.lose_runs ..)
    | with_reducible apply Runs.foldl
    | with_reducible apply Runs.foldl_fst
    | intro _
    | split)

theorem execTileEpilogueDone_runs (core : Nat) (idx : Nat) (err : List SramErr) (s : State) :
    RunsTo [.cores, .mem, .urn, .fab, .router, .host, .obj, .out, .free] s (execTileEpilogueDone core idx err s) := by
  unfold execTileEpilogueDone
  repeat' (first
    | with_reducible refine RunsTo.need ?_
    | with_reducible refine RunsTo.next ?_
    | with_reducible exact Runs.refl _
    | with_reducible assumption
    | exact Eq.refl true
    | exact fun h => h
    | dsimp only
    | with_reducible apply Runs.comp (State.epilogueDone_runs ..))

theorem freeAll_runs (ctx : Nat) (hs : List (Nat × Nat)) (s : State) : Runs [.urn, .obj] s (freeAll ctx hs s).1 := by
  induction hs generalizing s with
  | nil => exact Runs.refl s
  | cons h hs ih =>
    unfold freeAll
    exact Runs.trans (State.urnFreeHandle_runs s ctx h.1) (ih _)

theorem State.release_runs (s : State) (core : Nat) (x : Tile) :
    Runs [.cores] s (State.release s core x) := by
  unfold State.release
  repeat' (first
    | with_reducible exact Runs.refl _
    | with_reducible assumption
    | exact Eq.refl true
    | exact fun h => h
    | dsimp only
    | with_reducible apply Runs.comp (State.assign_runs ..)
    | with_reducible apply Runs.comp (State.setCore_runs ..))

theorem State.complete_runs (s : State) (core : Nat) (x : Tile) :
    Runs [.cores, .sync, .mem, .fab, .router, .host, .steps, .obj, .out] s (State.complete s core x) := by
  unfold State.complete
  repeat' (first
    | with_reducible exact Runs.refl _
    | with_reducible assumption
    | exact Eq.refl true
    | exact fun h => h
    | dsimp only
    | with_reducible apply Runs.comp (State.finish_runs ..)
    | with_reducible apply Runs.comp (State.release_runs ..)
    | with_reducible apply Runs.comp (State.modStp_runs ..)
    | with_reducible apply Runs.foldl
    | with_reducible apply Runs.foldl_fst
    | intro _
    | split)

theorem State.tileEnd_runs (core : Nat) (x : Tile) (s : State) :
    Runs [.cores, .sync, .mem, .urn, .fab, .router, .host, .steps, .obj, .out] s (State.tileEnd core x s) := by
  unfold State.tileEnd
  repeat' (first
    | with_reducible exact Runs.refl _
    | with_reducible assumption
    | exact Eq.refl true
    | exact fun h => h
    | dsimp only
    | with_reducible apply Runs.comp (freeAll_runs ..)
    | refine Runs.of_pair (Runs.comp (freeAll_runs ..) rfl ?_) (by assumption)
    | with_reducible apply Runs.comp (State.complete_runs ..)
    | with_reducible apply Runs.comp (State.dropTileReqs_runs ..))

theorem State.metX_runs (s : State) (ctx : Nat) (cs : List (Nat × Nat)) :
    Runs [.fab, .obj] s (State.metX s ctx cs).1 := by
  unfold State.metX
  repeat' (first
    | with_reducible exact Runs.refl _
    | with_reducible assumption
    | exact Eq.refl true
    | exact fun h => h
    | dsimp only
    | with_reducible apply Runs.comp (State.noteRefused_runs ..)
    | with_reducible apply Runs.foldl
    | with_reducible apply Runs.foldl_fst
    | intro _)

theorem State.endX_runs (s : State) (x : TxeTile) :
    Runs [.sync, .mem, .urn, .fab, .router, .host, .steps, .obj, .out] s (State.endX s x) := by
  unfold State.endX
  repeat' (first
    | with_reducible exact Runs.refl _
    | with_reducible assumption
    | exact Eq.refl true
    | exact fun h => h
    | dsimp only
    | with_reducible apply Runs.comp (freeAll_runs ..)
    | refine Runs.of_pair (Runs.comp (freeAll_runs ..) rfl ?_) (by assumption)
    | with_reducible apply Runs.comp (State.finish_runs ..)
    | with_reducible apply Runs.comp (State.dropTileReqs_runs ..))

theorem State.finishX_runs (s : State) (x : TxeTile) :
    Runs [.txe, .sync, .mem, .urn, .fab, .router, .host, .steps, .obj, .out] s (State.finishX s x) := by
  unfold State.finishX
  repeat' (first
    | with_reducible exact Runs.refl _
    | with_reducible assumption
    | exact Eq.refl true
    | exact fun h => h
    | dsimp only
    | with_reducible apply Runs.comp (State.metX_runs ..)
    | refine Runs.of_pair (Runs.comp (State.metX_runs ..) rfl ?_) (by assumption)
    | with_reducible apply Runs.comp (State.setTxe_runs ..)
    | with_reducible apply Runs.comp (State.endX_runs ..)
    | with_reducible apply Runs.foldl
    | with_reducible apply Runs.foldl_fst
    | intro _
    | split)

theorem State.ackX_runs (s : State) (ctx : Nat) (seq : Nat) :
    Runs [.txe, .sync, .mem, .urn, .fab, .router, .host, .steps, .obj, .out] s (State.ackX s ctx seq) := by
  unfold State.ackX
  repeat' (first
    | with_reducible exact Runs.refl _
    | with_reducible assumption
    | exact Eq.refl true
    | exact fun h => h
    | dsimp only
    | with_reducible apply Runs.comp (State.endX_runs ..)
    | with_reducible apply Runs.comp (State.setTxe_runs ..)
    | with_reducible apply Runs.foldl
    | with_reducible apply Runs.foldl_fst
    | intro _
    | split)

theorem State.tileAnswer_runs (r : TileReq) (bytes : List Byte) (cause : Nat) (s : State) :
    Runs [.cores, .txe, .sync, .mem, .urn, .fab, .router, .host, .steps, .obj, .out] s (State.tileAnswer r bytes cause s) := by
  unfold State.tileAnswer
  repeat' (first
    | with_reducible exact Runs.refl _
    | with_reducible assumption
    | exact Eq.refl true
    | exact fun h => h
    | dsimp only
    | with_reducible apply Runs.comp (State.setFab_runs ..)
    | with_reducible apply Runs.comp (State.tileEnd_runs ..)
    | with_reducible apply Runs.comp (State.ackX_runs ..)
    | with_reducible apply Runs.foldl
    | with_reducible apply Runs.foldl_fst
    | intro _
    | split)

theorem State.noteNorm_runs (s : State) (x : Tile) :
    Runs [.steps] s (State.noteNorm s x) := by
  unfold State.noteNorm
  repeat' (first
    | with_reducible exact Runs.refl _
    | with_reducible assumption
    | exact Eq.refl true
    | exact fun h => h
    | dsimp only
    | with_reducible apply Runs.comp (State.modStp_runs ..)
    | with_reducible apply Runs.foldl
    | with_reducible apply Runs.foldl_fst
    | intro _
    | split)

theorem State.storesDone_runs (core : Nat) (idx : Nat) (s : State) :
    Runs [.cores, .sync, .mem, .urn, .fab, .router, .host, .steps, .obj, .out, .free] s (State.storesDone core idx s) := by
  unfold State.storesDone
  repeat' (first
    | with_reducible exact Runs.refl _
    | with_reducible assumption
    | exact Eq.refl true
    | exact fun h => h
    | dsimp only
    | with_reducible apply Runs.comp (State.noteNorm_runs ..)
    | with_reducible apply Runs.comp (State.foundDone_runs ..)
    | with_reducible apply Runs.comp (State.applyStores_runs ..)
    | refine Runs.of_pair (Runs.comp (State.applyStores_runs ..) rfl ?_) (by assumption)
    | with_reducible apply Runs.comp (State.modCore_runs ..)
    | with_reducible apply Runs.comp (State.tileEnd_runs ..)
    | with_reducible apply Runs.foldl
    | with_reducible apply Runs.foldl_fst
    | intro _
    | split)

theorem execTileStoresDone_runs (core : Nat) (idx : Nat) (s : State) :
    RunsTo [.cores, .sync, .mem, .urn, .fab, .router, .host, .steps, .obj, .out, .free] s (execTileStoresDone core idx s) := by
  unfold execTileStoresDone
  repeat' (first
    | with_reducible refine RunsTo.need ?_
    | with_reducible refine RunsTo.next ?_
    | with_reducible exact Runs.refl _
    | with_reducible assumption
    | exact Eq.refl true
    | exact fun h => h
    | dsimp only
    | with_reducible apply Runs.comp (State.storesDone_runs ..))

theorem State.switchOut_runs (core : Nat) (p : Tile × Nat) (s : State) :
    Runs [.cores, .sched, .fab, .obj] s (State.switchOut core p s) := by
  unfold State.switchOut
  repeat' (first
    | with_reducible exact Runs.refl _
    | with_reducible assumption
    | exact Eq.refl true
    | exact fun h => h
    | dsimp only
    | with_reducible apply Runs.comp (State.repost_runs ..)
    | with_reducible apply Runs.comp (State.dropTileReqs_runs ..)
    | with_reducible apply Runs.comp (State.setCore_runs ..)
    | with_reducible apply Runs.comp (State.mmRun_runs ..)
    | refine Runs.of_pair (Runs.comp (State.mmRun_runs ..) rfl ?_) (by assumption)
    | with_reducible apply Runs.comp (State.modCore_runs ..)
    | with_reducible apply Runs.foldl
    | with_reducible apply Runs.foldl_fst
    | intro _
    | split)

theorem State.sliceExpiry_runs (core : Nat) (stops : List Nat) (s : State) :
    Runs [.cores, .sched, .urn, .fab, .router, .obj] s (State.sliceExpiry core stops s) := by
  unfold State.sliceExpiry
  repeat' (first
    | with_reducible exact Runs.refl _
    | with_reducible assumption
    | exact Eq.refl true
    | exact fun h => h
    | dsimp only
    | with_reducible apply Runs.comp (State.notice_runs ..)
    | with_reducible apply Runs.comp (State.modCore_runs ..)
    | with_reducible apply Runs.comp (State.switchOut_runs ..)
    | with_reducible apply Runs.foldl
    | with_reducible apply Runs.foldl_fst
    | intro _
    | split)

theorem execCtxSliceExpiry_runs (core : Nat) (stops : List Nat) (s : State) :
    RunsTo [.cores, .sched, .urn, .fab, .router, .obj] s (execCtxSliceExpiry core stops s) := by
  unfold execCtxSliceExpiry
  repeat' (first
    | with_reducible refine RunsTo.need ?_
    | with_reducible refine RunsTo.next ?_
    | with_reducible exact Runs.refl _
    | with_reducible assumption
    | exact Eq.refl true
    | exact fun h => h
    | dsimp only
    | with_reducible apply powered_runs
    | with_reducible apply Runs.comp (State.sliceExpiry_runs ..))

theorem State.saveSlots_runs (s : State) (core : Nat) :
    Runs [.cores, .mem] s (State.saveSlots s core) := by
  unfold State.saveSlots
  repeat' (first
    | with_reducible exact Runs.refl _
    | with_reducible assumption
    | exact Eq.refl true
    | exact fun h => h
    | dsimp only
    | with_reducible apply Runs.comp (State.storeDev_runs ..)
    | with_reducible apply Runs.comp (State.setCore_runs ..)
    | with_reducible apply Runs.foldl
    | with_reducible apply Runs.foldl_fst
    | intro _)

theorem State.restoreSlots_runs (s : State) (core : Nat) (n : Nat) :
    Runs [.cores, .sync, .mem, .urn, .fab, .router, .host, .steps, .obj, .out] s (State.restoreSlots s core n) := by
  unfold State.restoreSlots
  repeat' (first
    | with_reducible exact Runs.refl _
    | with_reducible assumption
    | exact Eq.refl true
    | exact fun h => h
    | dsimp only
    | with_reducible apply Runs.comp (State.setCore_runs ..)
    | with_reducible apply Runs.comp (State.tileEnd_runs ..)
    | with_reducible apply Runs.comp (State.latch_runs ..)
    | with_reducible apply Runs.comp (State.assign_runs ..)
    | with_reducible apply Runs.foldl
    | with_reducible apply Runs.foldl_fst
    | intro _
    | split)

theorem State.switchDone_runs (core : Nat) (s : State) :
    Runs [.cores, .sync, .mem, .urn, .fab, .router, .host, .steps, .obj, .out] s (State.switchDone core s) := by
  unfold State.switchDone
  repeat' (first
    | with_reducible exact Runs.refl _
    | with_reducible assumption
    | exact Eq.refl true
    | exact fun h => h
    | dsimp only
    | with_reducible apply Runs.comp (State.restoreSlots_runs ..)
    | with_reducible apply Runs.comp (State.saveSlots_runs ..)
    | with_reducible apply Runs.foldl
    | with_reducible apply Runs.foldl_fst
    | intro _
    | split)

theorem execContextSwitchDone_runs (core : Nat) (s : State) :
    RunsTo [.cores, .sync, .mem, .urn, .fab, .router, .host, .steps, .obj, .out] s (execContextSwitchDone core s) := by
  unfold execContextSwitchDone
  repeat' (first
    | with_reducible refine RunsTo.need ?_
    | with_reducible refine RunsTo.next ?_
    | with_reducible exact Runs.refl _
    | with_reducible assumption
    | exact Eq.refl true
    | exact fun h => h
    | dsimp only
    | with_reducible apply Runs.comp (State.switchDone_runs ..))

end Sys2Proof.Machine
end

