-- ==== Sys2Proof/Laws/FabricRuns.lean ====
section
/-!
SUPPORT. What the operations of Machine/Fabric.lean may change, and that they keep the canonical form.
-/

namespace Sys2Proof.Machine

theorem Red.wf_perm {x y : Red} (h : x.wf = true) (hc : y.ctx = x.ctx) (hp : twf .init x.perm = true → twf .init y.perm = true) :
    y.wf = true := by
  simp only [Red.wf, Bool.and_eq_true] at h ⊢
  rw [hc]
  exact ⟨h.1, hp h.2⟩

theorem State.fcLand_runs (s : State) (v : Nat) (bs : List Byte) :
    Runs [.mem, .urn] s (State.fcLand s v bs) := by
  unfold State.fcLand
  repeat' (first
    | with_reducible exact Runs.refl _
    | with_reducible assumption
    | exact Eq.refl true
    | exact fun h => h
    | dsimp only
    | with_reducible apply Runs.comp (State.urnStore_runs ..)
    | with_reducible apply Runs.comp (State.storeDev_runs ..)
    | with_reducible apply Runs.foldl
    | with_reducible apply Runs.foldl_fst
    | intro _
    | split)

theorem State.fabEnd_runs (s : State) (ctx : Nat) (slot : Nat) (v : Nat) (status : Nat) (result : Nat) :
    Runs [.sync, .mem, .fab, .router, .steps, .obj] s (State.fabEnd s ctx slot v status result) := by
  unfold State.fabEnd
  repeat' (first
    | with_reducible exact Runs.refl _
    | with_reducible assumption
    | exact Eq.refl true
    | exact fun h => h
    | dsimp only
    | with_reducible apply Runs.comp (State.storeDev_runs ..)
    | with_reducible apply Runs.comp (State.signal_runs ..)
    | with_reducible apply Runs.comp (State.latch_runs ..)
    | with_reducible apply Runs.foldl
    | with_reducible apply Runs.foldl_fst
    | intro _
    | split)

theorem State.fabComplete_runs (s : State) (c : FabCmd) (status : Nat) (result : Nat) :
    Runs [.sync, .mem, .fab, .router, .steps, .obj] s (State.fabComplete s c status result) := by
  unfold State.fabComplete
  repeat' (first
    | with_reducible exact Runs.refl _
    | with_reducible assumption
    | exact Eq.refl true
    | exact fun h => h
    | dsimp only
    | with_reducible apply Runs.comp (State.fabEnd_runs ..)
    | with_reducible apply Runs.comp (State.setFab_runs ..))

theorem State.atomSend_runs (s : State) (c : FabCmd) :
    Runs [.fab, .router] s (State.atomSend s c) := by
  unfold State.atomSend
  repeat' (first
    | with_reducible exact Runs.refl _
    | with_reducible assumption
    | exact Eq.refl true
    | exact fun h => h
    | dsimp only
    | with_reducible apply Runs.comp (State.capInject_runs ..)
    | with_reducible apply Runs.comp (State.setFab_runs ..))

theorem State.fabSent_runs (s : State) (tag : Nat) :
    Runs [.fab] s (State.fabSent s tag) := by
  unfold State.fabSent
  repeat' (first
    | with_reducible exact Runs.refl _
    | with_reducible assumption
    | exact Eq.refl true
    | exact fun h => h
    | dsimp only
    | with_reducible apply Runs.comp (State.setFab_runs ..))

theorem State.fabGo_runs (s : State) (c : FabCmd) :
    Runs [.fab, .router] s (State.fabGo s c) := by
  unfold State.fabGo
  repeat' (first
    | with_reducible exact Runs.refl _
    | with_reducible assumption
    | exact Eq.refl true
    | exact fun h => h
    | dsimp only
    | with_reducible apply Runs.comp (State.fabSent_runs ..)
    | with_reducible apply Runs.comp (State.atomSend_runs ..)
    | with_reducible apply Runs.comp (State.capInject_runs ..)
    | with_reducible apply Runs.foldl
    | with_reducible apply Runs.foldl_fst
    | intro _
    | split)

theorem State.fabFlow_runs (s : State) :
    Runs [.fab, .router] s (State.fabFlow s) := by
  unfold State.fabFlow
  repeat' (first
    | with_reducible exact Runs.refl _
    | with_reducible assumption
    | exact Eq.refl true
    | exact fun h => h
    | dsimp only
    | with_reducible apply Runs.comp (State.fabGo_runs ..)
    | with_reducible apply Runs.foldl
    | with_reducible apply Runs.foldl_fst
    | intro _
    | split)

theorem State.fabSend_runs (s : State) (ctx : Nat) (slot : Nat) (v : Nat) (cmd : List Byte) :
    Runs [.sync, .mem, .urn, .fab, .router, .steps, .obj] s (State.fabSend s ctx slot v cmd) := by
  unfold State.fabSend
  repeat' (first
    | with_reducible exact Runs.refl _
    | with_reducible assumption
    | exact Eq.refl true
    | exact fun h => h
    | dsimp only
    | with_reducible apply Runs.comp (State.fabEnd_runs ..)
    | with_reducible apply Runs.comp (State.fcLand_runs ..)
    | with_reducible apply Runs.comp (State.tagNext_runs ..)
    | with_reducible apply Runs.comp (State.setFab_runs ..)
    | with_reducible apply Runs.comp (State.atomSend_runs ..)
    | with_reducible apply Runs.comp (State.capInject_runs ..)
    | with_reducible apply Runs.foldl
    | with_reducible apply Runs.foldl_fst
    | intro _
    | split)

theorem State.bellTake_runs (s : State) (ctx : Nat) :
    Runs [.sync, .fab] s (State.bellTake s ctx) := by
  unfold State.bellTake
  repeat' (first
    | with_reducible exact Runs.refl _
    | with_reducible assumption
    | exact Eq.refl true
    | exact fun h => h
    | exact Nat.lt_of_le_of_lt (Nat.sub_le _ _) (State.ctr_lt (by assumption) _)
    | dsimp only
    | with_reducible apply Runs.comp (State.setCtr_runs ..)
    | with_reducible apply Runs.comp (State.setFab_runs ..)
    | with_reducible apply Runs.foldl
    | with_reducible apply Runs.foldl_fst
    | intro _)

theorem State.fcHandleFlag_runs (s : State) (ctx : Nat) (v : Nat) :
    Runs [.obj] s (State.fcHandleFlag s ctx v) := by
  unfold State.fcHandleFlag
  repeat' (first
    | with_reducible exact Runs.refl _
    | with_reducible assumption
    | exact Eq.refl true
    | exact fun h => h
    | dsimp only
    | with_reducible apply Runs.comp (State.urnFlag_runs ..))

theorem State.fabIssue_runs (ctx : Nat) (op : Nat) (s : State) :
    Runs [.sync, .mem, .urn, .fab, .router, .steps, .obj] s (State.fabIssue ctx op s) := by
  unfold State.fabIssue
  repeat' (first
    | with_reducible exact Runs.refl _
    | with_reducible assumption
    | exact Eq.refl true
    | exact fun h => h
    | dsimp only
    | with_reducible apply Runs.comp (State.bellTake_runs ..)
    | with_reducible apply Runs.comp (State.setFab_runs ..)
    | with_reducible apply Runs.comp (State.lookNote_runs ..)
    | with_reducible apply Runs.comp (State.fabSend_runs ..)
    | with_reducible apply Runs.comp (State.fabEnd_runs ..)
    | with_reducible apply Runs.comp (State.fabFlag_runs ..)
    | with_reducible apply Runs.comp (State.fcHandleFlag_runs ..)
    | with_reducible apply Runs.foldl
    | with_reducible apply Runs.foldl_fst
    | intro _
    | split)

theorem execFabRead_runs (ctx : Nat) (s : State) :
    RunsTo [.sync, .mem, .urn, .fab, .router, .steps, .obj] s (execFabRead ctx s) := by
  unfold execFabRead
  repeat' (first
    | with_reducible refine RunsTo.need ?_
    | with_reducible refine RunsTo.next ?_
    | with_reducible exact Runs.refl _
    | with_reducible assumption
    | exact Eq.refl true
    | exact fun h => h
    | dsimp only
    | with_reducible apply Runs.comp (State.fabIssue_runs ..))

theorem execFabWrite_runs (ctx : Nat) (s : State) :
    RunsTo [.sync, .mem, .urn, .fab, .router, .steps, .obj] s (execFabWrite ctx s) := by
  unfold execFabWrite
  repeat' (first
    | with_reducible refine RunsTo.need ?_
    | with_reducible refine RunsTo.next ?_
    | with_reducible exact Runs.refl _
    | with_reducible assumption
    | exact Eq.refl true
    | exact fun h => h
    | dsimp only
    | with_reducible apply Runs.comp (State.fabIssue_runs ..))

theorem execFabFlaggedWrite_runs (ctx : Nat) (s : State) :
    RunsTo [.sync, .mem, .urn, .fab, .router, .steps, .obj] s (execFabFlaggedWrite ctx s) := by
  unfold execFabFlaggedWrite
  repeat' (first
    | with_reducible refine RunsTo.need ?_
    | with_reducible refine RunsTo.next ?_
    | with_reducible exact Runs.refl _
    | with_reducible assumption
    | exact Eq.refl true
    | exact fun h => h
    | dsimp only
    | with_reducible apply Runs.comp (State.fabIssue_runs ..))

theorem execFabAtomic_runs (ctx : Nat) (s : State) :
    RunsTo [.sync, .mem, .urn, .fab, .router, .steps, .obj] s (execFabAtomic ctx s) := by
  unfold execFabAtomic
  repeat' (first
    | with_reducible refine RunsTo.need ?_
    | with_reducible refine RunsTo.next ?_
    | with_reducible exact Runs.refl _
    | with_reducible assumption
    | exact Eq.refl true
    | exact fun h => h
    | dsimp only
    | with_reducible apply Runs.comp (State.fabIssue_runs ..))

theorem execFabInvalidate_runs (ctx : Nat) (s : State) :
    RunsTo [.sync, .mem, .urn, .fab, .router, .steps, .obj] s (execFabInvalidate ctx s) := by
  unfold execFabInvalidate
  repeat' (first
    | with_reducible refine RunsTo.need ?_
    | with_reducible refine RunsTo.next ?_
    | with_reducible exact Runs.refl _
    | with_reducible assumption
    | exact Eq.refl true
    | exact fun h => h
    | dsimp only
    | with_reducible apply Runs.comp (State.fabIssue_runs ..))

theorem execFlaggedWriteSend_runs (ctx : Nat) (s : State) :
    RunsTo [.fab, .router] s (execFlaggedWriteSend ctx s) := by
  unfold execFlaggedWriteSend
  repeat' (first
    | with_reducible refine RunsTo.need ?_
    | with_reducible refine RunsTo.next ?_
    | with_reducible exact Runs.refl _
    | with_reducible assumption
    | exact Eq.refl true
    | exact fun h => h
    | dsimp only
    | with_reducible apply Runs.comp (State.fabFlow_runs ..)
    | with_reducible apply Runs.comp (State.capInject_runs ..)
    | with_reducible apply Runs.comp (State.fabSent_runs ..)
    | with_reducible apply Runs.foldl
    | with_reducible apply Runs.foldl_fst
    | intro _
    | split)

theorem State.respond_runs (s : State) (p : Packet) (fop : Nat) (status : Nat) (hot : Bool) (tag : Nat) (result : Nat) (data : List Byte) :
    Runs [.router] s (State.respond s p fop status hot tag result data) := by
  unfold State.respond
  repeat' (first
    | with_reducible exact Runs.refl _
    | with_reducible assumption
    | exact Eq.refl true
    | exact fun h => h
    | dsimp only
    | with_reducible apply Runs.comp (State.send_runs ..))

theorem State.targetRead_runs (p : Packet) (err : MemErrs) (s : State) :
    Runs [.mem, .fab, .router, .host, .obj, .out] s (State.targetRead p err s) := by
  unfold State.targetRead
  repeat' (first
    | with_reducible exact Runs.refl _
    | with_reducible assumption
    | exact Eq.refl true
    | exact fun h => h
    | dsimp only
    | with_reducible apply Runs.comp (State.memErrs_runs ..)
    | with_reducible apply Runs.comp (State.setFab_runs ..)
    | with_reducible apply Runs.comp (State.taken_runs ..)
    | with_reducible apply Runs.comp (State.respond_runs ..)
    | with_reducible apply Runs.foldl
    | with_reducible apply Runs.foldl_fst
    | intro _
    | split)

theorem execTargetRead_runs (p : Packet) (err : MemErrs) (s : State) :
    RunsTo [.mem, .fab, .router, .host, .obj, .out] s (execTargetRead p err s) := by
  unfold execTargetRead
  repeat' (first
    | with_reducible refine RunsTo.need ?_
    | with_reducible refine RunsTo.next ?_
    | with_reducible exact Runs.refl _
    | with_reducible assumption
    | exact Eq.refl true
    | exact fun h => h
    | dsimp only
    | with_reducible apply powered_runs
    | with_reducible apply Runs.comp (State.targetRead_runs ..))

theorem State.hotMark_runs (s : State) (line : Nat) (src : Nat) :
    Runs [.fab] s (State.hotMark s line src).1 := by
  unfold State.hotMark
  repeat' (first
    | with_reducible exact Runs.refl _
    | with_reducible assumption
    | exact Eq.refl true
    | exact fun h => h
    | dsimp only
    | with_reducible apply Runs.comp (State.setFab_runs ..))

theorem State.hotLine_runs (s : State) (line : Nat) (srcs : List Nat) :
    Runs [.fab] s (State.hotLine s line srcs).1 := by
  unfold State.hotLine
  repeat' (first
    | with_reducible exact Runs.refl _
    | with_reducible assumption
    | exact Eq.refl true
    | exact fun h => h
    | dsimp only
    | with_reducible apply Runs.comp (State.setFab_runs ..)
    | with_reducible apply Runs.comp (State.hotMark_runs ..)
    | refine Runs.of_pair (Runs.comp (State.hotMark_runs ..) rfl ?_) (by assumption)
    | with_reducible apply Runs.foldl
    | with_reducible apply Runs.foldl_fst
    | intro _
    | split)

theorem State.hotUpdate_runs (s : State) (a : Nat) (n : Nat) (srcs : List Nat) :
    Runs [.fab] s (State.hotUpdate s a n srcs).1 := by
  unfold State.hotUpdate
  repeat' (first
    | with_reducible exact Runs.refl _
    | with_reducible assumption
    | exact Eq.refl true
    | exact fun h => h
    | dsimp only
    | with_reducible apply Runs.comp (State.hotLine_runs ..)
    | refine Runs.of_pair (Runs.comp (State.hotLine_runs ..) rfl ?_) (by assumption)
    | with_reducible apply Runs.foldl
    | with_reducible apply Runs.foldl_fst
    | intro _)

theorem State.applied343_runs (s : State) (p : Packet) :
    Runs [.router] s (State.applied343 s p) := by
  unfold State.applied343
  repeat' (first
    | with_reducible exact Runs.refl _
    | with_reducible assumption
    | exact Eq.refl true
    | exact fun h => h
    | dsimp only
    | with_reducible apply Runs.comp (State.taken_runs ..)
    | with_reducible apply Runs.comp (State.setRouter_runs ..))

theorem State.atomsGone_runs (s : State) (src : Nat) (gone : Nat → Bool) :
    Runs [.router] s (State.atomsGone s src gone) := by
  unfold State.atomsGone
  repeat' (first
    | with_reducible exact Runs.refl _
    | with_reducible assumption
    | exact Eq.refl true
    | exact fun h => h
    | dsimp only
    | with_reducible apply Runs.comp (State.setRouter_runs ..))

theorem State.noteArrived_runs (s : State) (p : Packet) :
    Runs [.router] s (State.noteArrived s p) := by
  unfold State.noteArrived
  repeat' (first
    | with_reducible exact Runs.refl _
    | with_reducible assumption
    | exact Eq.refl true
    | exact fun h => h
    | dsimp only
    | with_reducible apply Runs.comp (State.setRouter_runs ..)
    | with_reducible apply Runs.foldl
    | with_reducible apply Runs.foldl_fst
    | intro _
    | split)

theorem State.keepWaiting_runs (s : State) (p : Packet) :
    Runs [.router] s (State.keepWaiting s p) := by
  unfold State.keepWaiting
  repeat' (first
    | with_reducible exact Runs.refl _
    | with_reducible assumption
    | exact Eq.refl true
    | exact fun h => h
    | dsimp only
    | with_reducible apply Runs.comp (State.noteArrived_runs ..)
    | with_reducible apply Runs.comp (State.setRouter_runs ..)
    | with_reducible apply Runs.foldl
    | with_reducible apply Runs.foldl_fst
    | intro _
    | split)

theorem State.targetStore_runs (p : Packet) (err : MemErrs) (s : State) :
    Runs [.sync, .mem, .fab, .router, .host, .obj, .out] s (State.targetStore p err s) := by
  unfold State.targetStore
  repeat' (first
    | with_reducible exact Runs.refl _
    | with_reducible assumption
    | exact Eq.refl true
    | exact fun h => h
    | dsimp only
    | with_reducible apply Runs.comp (State.keepWaiting_runs ..)
    | with_reducible apply Runs.comp (State.storeErrs_runs ..)
    | with_reducible apply Runs.comp (State.hotUpdate_runs ..)
    | refine Runs.of_pair (Runs.comp (State.hotUpdate_runs ..) rfl ?_) (by assumption)
    | with_reducible apply Runs.comp (State.storeDev_runs ..)
    | with_reducible apply Runs.comp (State.ctrAdd_runs ..)
    | with_reducible apply Runs.comp (State.applied343_runs ..)
    | with_reducible apply Runs.comp (State.respond_runs ..)
    | with_reducible apply Runs.foldl
    | with_reducible apply Runs.foldl_fst
    | intro _
    | split)

theorem execTargetWrite_runs (p : Packet) (err : MemErrs) (s : State) :
    RunsTo [.sync, .mem, .fab, .router, .host, .obj, .out] s (execTargetWrite p err s) := by
  unfold execTargetWrite
  repeat' (first
    | with_reducible refine RunsTo.need ?_
    | with_reducible refine RunsTo.next ?_
    | with_reducible exact Runs.refl _
    | with_reducible assumption
    | exact Eq.refl true
    | exact fun h => h
    | dsimp only
    | with_reducible apply powered_runs
    | with_reducible apply Runs.comp (State.targetStore_runs ..))

theorem execTargetFlaggedWrite_runs (q : Access) (s : State) :
    RunsTo [.sync, .mem, .fab, .router, .host, .obj, .out] s (execTargetFlaggedWrite q s) := by
  unfold execTargetFlaggedWrite
  repeat' (first
    | with_reducible refine RunsTo.need ?_
    | with_reducible refine RunsTo.next ?_
    | with_reducible exact Runs.refl _
    | with_reducible assumption
    | exact Eq.refl true
    | exact fun h => h
    | dsimp only
    | with_reducible apply powered_runs
    | with_reducible apply Runs.comp (State.targetStore_runs ..))

theorem State.setResp_runs (s : State) (r : List RespEntry) :
    Runs [.fab] s (State.setResp s r) := by
  unfold State.setResp
  repeat' (first
    | with_reducible exact Runs.refl _
    | with_reducible assumption
    | exact Eq.refl true
    | exact fun h => h
    | dsimp only
    | with_reducible apply Runs.comp (State.setFab_runs ..))

theorem State.ackArrive_runs (s : State) (src : Nat) (ack : Nat) :
    Runs [.fab, .router] s (State.ackArrive s src ack) := by
  unfold State.ackArrive
  repeat' (first
    | with_reducible exact Runs.refl _
    | with_reducible assumption
    | exact Eq.refl true
    | exact fun h => h
    | dsimp only
    | with_reducible apply Runs.comp (State.setFab_runs ..)
    | with_reducible apply Runs.comp (State.atomsGone_runs ..)
    | with_reducible apply Runs.comp (State.setResp_runs ..))

theorem State.atomApply_runs (s : State) (src : Nat) (ctx : Nat) (seq : Nat) (atop : Nat) (wide : Bool) (fetch : Bool) (a : Nat) (y : Nat) (cmp : Nat) (err : MemErrs) :
    Runs [.mem, .fab, .router, .host, .obj, .out] s (State.atomApply s src ctx seq atop wide fetch a y cmp err).1 := by
  unfold State.atomApply
  repeat' (first
    | with_reducible exact Runs.refl _
    | with_reducible assumption
    | exact Eq.refl true
    | exact fun h => h
    | dsimp only
    | with_reducible apply Runs.comp (State.bump_runs ..)
    | with_reducible apply Runs.comp (State.memErrs_runs ..)
    | with_reducible apply Runs.comp (State.storeDev_runs ..)
    | with_reducible apply Runs.comp (State.atomsGone_runs ..)
    | with_reducible apply Runs.comp (State.setResp_runs ..)
    | with_reducible apply Runs.foldl
    | with_reducible apply Runs.foldl_fst
    | intro _
    | split)

theorem State.peerReset_runs (s : State) (src : Nat) :
    Runs [.router, .steps, .obj, .flash] s (State.peerReset s src) := by
  unfold State.peerReset
  repeat' (first
    | with_reducible exact Runs.refl _
    | with_reducible assumption
    | exact Eq.refl true
    | exact fun h => h
    | dsimp only
    | with_reducible apply Runs.comp (State.uncovered_runs ..)
    | with_reducible apply Runs.foldl
    | with_reducible apply Runs.foldl_fst
    | intro _
    | split)

theorem State.atomFirst_runs (s : State) (src : Nat) :
    Runs [.fab, .router, .steps, .obj, .flash] s (State.atomFirst s src) := by
  unfold State.atomFirst
  repeat' (first
    | with_reducible exact Runs.refl _
    | with_reducible assumption
    | exact Eq.refl true
    | exact fun h => h
    | dsimp only
    | with_reducible apply Runs.comp (State.peerReset_runs ..)
    | with_reducible apply Runs.comp (State.setResp_runs ..)
    | with_reducible apply Runs.comp (State.setFab_runs ..))

theorem State.atomDone_runs (s : State) (p : Packet) (r : Option (Nat × Nat)) :
    Runs [.router] s (State.atomDone s p r) := by
  unfold State.atomDone
  repeat' (first
    | with_reducible exact Runs.refl _
    | with_reducible assumption
    | exact Eq.refl true
    | exact fun h => h
    | dsimp only
    | with_reducible apply Runs.comp (State.taken_runs ..)
    | with_reducible apply Runs.comp (State.noteArrived_runs ..)
    | with_reducible apply Runs.comp (State.applied343_runs ..)
    | with_reducible apply Runs.foldl
    | with_reducible apply Runs.foldl_fst
    | intro _
    | split)

theorem State.targetAtomic_runs (p : Packet) (err : MemErrs) (s : State) :
    Runs [.mem, .fab, .router, .host, .steps, .obj, .flash, .out] s (State.targetAtomic p err s) := by
  unfold State.targetAtomic
  repeat' (first
    | with_reducible exact Runs.refl _
    | with_reducible assumption
    | exact Eq.refl true
    | exact fun h => h
    | dsimp only
    | with_reducible apply Runs.comp (State.atomFirst_runs ..)
    | with_reducible apply Runs.comp (State.ackArrive_runs ..)
    | with_reducible apply Runs.comp (State.hotUpdate_runs ..)
    | refine Runs.of_pair (Runs.comp (State.hotUpdate_runs ..) rfl ?_) (by assumption)
    | with_reducible apply Runs.comp (State.atomApply_runs ..)
    | refine Runs.of_pair (Runs.comp (State.atomApply_runs ..) rfl ?_) (by assumption)
    | with_reducible apply Runs.comp (State.atomDone_runs ..)
    | with_reducible apply Runs.comp (State.respond_runs ..)
    | with_reducible apply Runs.foldl
    | with_reducible apply Runs.foldl_fst
    | intro _
    | split)

theorem execTargetAtomic_runs (q : Access) (s : State) :
    RunsTo [.mem, .fab, .router, .host, .steps, .obj, .flash, .out] s (execTargetAtomic q s) := by
  unfold execTargetAtomic
  repeat' (first
    | with_reducible refine RunsTo.need ?_
    | with_reducible refine RunsTo.next ?_
    | with_reducible exact Runs.refl _
    | with_reducible assumption
    | exact Eq.refl true
    | exact fun h => h
    | dsimp only
    | with_reducible apply powered_runs
    | with_reducible apply Runs.comp (State.targetAtomic_runs ..))

theorem State.wmFirst_runs (s : State) (src : Nat) (seq : Nat) :
    Runs [.fab] s (State.wmFirst s src seq) := by
  unfold State.wmFirst
  repeat' (first
    | with_reducible exact Runs.refl _
    | with_reducible assumption
    | exact Eq.refl true
    | exact fun h => h
    | dsimp only
    | with_reducible apply Runs.comp (State.setFab_runs ..)
    | with_reducible apply Runs.foldl
    | with_reducible apply Runs.foldl_fst
    | intro _
    | split)

theorem State.memberFirst_runs (s : State) (p : Packet) (m : Nat) :
    Runs [.fab, .router, .steps, .obj, .flash] s (State.memberFirst s p m) := by
  unfold State.memberFirst
  repeat' (first
    | with_reducible exact Runs.refl _
    | with_reducible assumption
    | exact Eq.refl true
    | exact fun h => h
    | dsimp only
    | with_reducible apply Runs.comp (State.atomFirst_runs ..)
    | with_reducible apply Runs.comp (State.wmFirst_runs ..)
    | with_reducible apply Runs.foldl
    | with_reducible apply Runs.foldl_fst
    | intro _
    | split)

theorem State.atomicCombined_runs (p : Packet) (err : MemErrs) (s : State) :
    Runs [.mem, .fab, .router, .host, .steps, .obj, .flash, .out] s (State.atomicCombined p err s) := by
  unfold State.atomicCombined
  repeat' (first
    | with_reducible exact Runs.refl _
    | with_reducible assumption
    | exact Eq.refl true
    | exact fun h => h
    | dsimp only
    | with_reducible apply Runs.comp (State.hotUpdate_runs ..)
    | refine Runs.of_pair (Runs.comp (State.hotUpdate_runs ..) rfl ?_) (by assumption)
    | with_reducible apply Runs.comp (State.memErrs_runs ..)
    | with_reducible apply Runs.comp (State.applied343_runs ..)
    | with_reducible apply Runs.comp (State.atomApply_runs ..)
    | refine Runs.of_pair (Runs.comp (State.atomApply_runs ..) rfl ?_) (by assumption)
    | with_reducible apply Runs.comp (State.memberFirst_runs ..)
    | with_reducible apply Runs.comp (State.respond_runs ..)
    | with_reducible apply Runs.foldl
    | with_reducible apply Runs.foldl_fst
    | intro _
    | split)

theorem execAtomicCombined_runs (q : Access) (s : State) :
    RunsTo [.mem, .fab, .router, .host, .steps, .obj, .flash, .out] s (execAtomicCombined q s) := by
  unfold execAtomicCombined
  repeat' (first
    | with_reducible refine RunsTo.need ?_
    | with_reducible refine RunsTo.next ?_
    | with_reducible exact Runs.refl _
    | with_reducible assumption
    | exact Eq.refl true
    | exact fun h => h
    | dsimp only
    | with_reducible apply powered_runs
    | with_reducible apply Runs.comp (State.atomicCombined_runs ..))

theorem execAtomicAck_runs (p : Packet) (s : State) :
    RunsTo [.fab, .router] s (execAtomicAck p s) := by
  unfold execAtomicAck
  repeat' (first
    | with_reducible refine RunsTo.need ?_
    | with_reducible refine RunsTo.next ?_
    | with_reducible exact Runs.refl _
    | with_reducible assumption
    | exact Eq.refl true
    | exact fun h => h
    | dsimp only
    | with_reducible apply powered_runs
    | with_reducible apply Runs.comp (State.taken_runs ..)
    | with_reducible apply Runs.comp (State.ackArrive_runs ..))

theorem State.dropLines_runs (s : State) (dev : Nat) (a : Nat) (n : Nat) :
    Runs [.fab] s (State.dropLines s dev a n) := by
  unfold State.dropLines
  repeat' (first
    | with_reducible exact Runs.refl _
    | with_reducible assumption
    | exact Eq.refl true
    | exact fun h => h
    | dsimp only
    | with_reducible apply Runs.comp (State.setFab_runs ..))

theorem State.invDoneTo_runs (s : State) (ctx : Nat) (holder : Nat) (tag : Nat) :
    Runs [.router] s (State.invDoneTo s ctx holder tag) := by
  unfold State.invDoneTo
  repeat' (first
    | with_reducible exact Runs.refl _
    | with_reducible assumption
    | exact Eq.refl true
    | exact fun h => h
    | dsimp only
    | with_reducible apply Runs.comp (State.send_runs ..)
    | with_reducible apply Runs.comp (State.setRouter_runs ..))

theorem State.targetInvalidate_runs (p : Packet) (s : State) :
    Runs [.fab, .router] s (State.targetInvalidate p s) := by
  unfold State.targetInvalidate
  repeat' (first
    | with_reducible exact Runs.refl _
    | with_reducible assumption
    | exact Eq.refl true
    | exact fun h => h
    | dsimp only
    | with_reducible apply Runs.comp (State.setFab_runs ..)
    | with_reducible apply Runs.comp (State.taken_runs ..)
    | with_reducible apply Runs.comp (State.invDoneTo_runs ..)
    | with_reducible apply Runs.comp (State.dropLines_runs ..)
    | with_reducible apply Runs.comp (State.noteArrived_runs ..)
    | with_reducible apply Runs.comp (State.inject_runs ..)
    | with_reducible apply Runs.foldl
    | with_reducible apply Runs.foldl_fst
    | intro _
    | split)

theorem execTargetInvalidate_runs (p : Packet) (s : State) :
    RunsTo [.fab, .router] s (execTargetInvalidate p s) := by
  unfold execTargetInvalidate
  repeat' (first
    | with_reducible refine RunsTo.need ?_
    | with_reducible refine RunsTo.next ?_
    | with_reducible exact Runs.refl _
    | with_reducible assumption
    | exact Eq.refl true
    | exact fun h => h
    | dsimp only
    | with_reducible apply powered_runs
    | with_reducible apply Runs.comp (State.targetInvalidate_runs ..))

theorem State.invAckUp_runs (s : State) (ctx : Nat) (root : Nat) (id : Nat) (count : Nat) (a : Nat) (n : Nat) :
    Runs [.router] s (State.invAckUp s ctx root id count a n) := by
  unfold State.invAckUp
  repeat' (first
    | with_reducible exact Runs.refl _
    | with_reducible assumption
    | exact Eq.refl true
    | exact fun h => h
    | dsimp only
    | with_reducible apply Runs.comp (State.send_runs ..))

theorem State.inv_runs (p : Packet) (s : State) :
    Runs [.fab, .router] s (State.inv p s) := by
  unfold State.inv
  repeat' (first
    | with_reducible exact Runs.refl _
    | with_reducible assumption
    | exact Eq.refl true
    | exact fun h => h
    | dsimp only
    | with_reducible apply Runs.comp (State.taken_runs ..)
    | with_reducible apply Runs.comp (State.dropLines_runs ..)
    | with_reducible apply Runs.comp (State.invAckUp_runs ..)
    | with_reducible apply Runs.comp (State.setFab_runs ..)
    | with_reducible apply Runs.foldl
    | with_reducible apply Runs.foldl_fst
    | intro _
    | split)

theorem execInv_runs (p : Packet) (s : State) :
    RunsTo [.fab, .router] s (execInv p s) := by
  unfold execInv
  repeat' (first
    | with_reducible refine RunsTo.need ?_
    | with_reducible refine RunsTo.next ?_
    | with_reducible exact Runs.refl _
    | with_reducible assumption
    | exact Eq.refl true
    | exact fun h => h
    | dsimp only
    | with_reducible apply powered_runs
    | with_reducible apply Runs.comp (State.inv_runs ..))

theorem State.invAck_runs (p : Packet) (s : State) :
    Runs [.fab, .router] s (State.invAck p s) := by
  unfold State.invAck
  repeat' (first
    | with_reducible exact Runs.refl _
    | with_reducible assumption
    | exact Eq.refl true
    | exact fun h => h
    | dsimp only
    | with_reducible apply Runs.comp (State.taken_runs ..)
    | with_reducible apply Runs.comp (State.setFab_runs ..)
    | with_reducible apply Runs.comp (State.invDoneTo_runs ..)
    | with_reducible apply Runs.comp (State.invAckUp_runs ..)
    | with_reducible apply Runs.foldl
    | with_reducible apply Runs.foldl_fst
    | intro _
    | split)

theorem execInvAck_runs (p : Packet) (s : State) :
    RunsTo [.fab, .router] s (execInvAck p s) := by
  unfold execInvAck
  repeat' (first
    | with_reducible refine RunsTo.need ?_
    | with_reducible refine RunsTo.next ?_
    | with_reducible exact Runs.refl _
    | with_reducible assumption
    | exact Eq.refl true
    | exact fun h => h
    | dsimp only
    | with_reducible apply powered_runs
    | with_reducible apply Runs.comp (State.invAck_runs ..))

theorem State.hotResp_runs (s : State) (p : Packet) :
    Runs [.fab, .router, .obj] s (State.hotResp s p) := by
  unfold State.hotResp
  repeat' (first
    | with_reducible exact Runs.refl _
    | with_reducible assumption
    | exact Eq.refl true
    | exact fun h => h
    | dsimp only
    | with_reducible apply Runs.comp (State.fabFlag_runs ..)
    | with_reducible apply Runs.comp (State.capFlow_runs ..)
    | with_reducible apply Runs.comp (State.setFab_runs ..)
    | with_reducible apply Runs.foldl
    | with_reducible apply Runs.foldl_fst
    | intro _
    | split)

theorem State.readData_runs (p : Packet) (s : State) :
    Runs [.cores, .txe, .sync, .mem, .urn, .fab, .router, .host, .steps, .obj, .out] s (State.readData p s) := by
  unfold State.readData
  repeat' (first
    | with_reducible exact Runs.refl _
    | with_reducible assumption
    | exact Eq.refl true
    | exact fun h => h
    | dsimp only
    | with_reducible apply Runs.comp (State.taken_runs ..)
    | with_reducible apply Runs.comp (State.fcLand_runs ..)
    | with_reducible apply Runs.comp (State.fabComplete_runs ..)
    | with_reducible apply Runs.comp (State.l2Install_runs ..)
    | with_reducible apply Runs.comp (State.tileAnswer_runs ..)
    | with_reducible apply Runs.foldl
    | with_reducible apply Runs.foldl_fst
    | intro _
    | split)

theorem execReadData_runs (p : Packet) (s : State) :
    RunsTo [.cores, .txe, .sync, .mem, .urn, .fab, .router, .host, .steps, .obj, .out] s (execReadData p s) := by
  unfold execReadData
  repeat' (first
    | with_reducible refine RunsTo.need ?_
    | with_reducible refine RunsTo.next ?_
    | with_reducible exact Runs.refl _
    | with_reducible assumption
    | exact Eq.refl true
    | exact fun h => h
    | dsimp only
    | with_reducible apply powered_runs
    | with_reducible apply Runs.comp (State.readData_runs ..))

theorem State.permAck_runs (s : State) (tag : Nat) : Runs [.red] s (s.permAck tag) := by
  refine State.setRed_runs _ _ (fun h => ?_)
  refine Red.wf_perm (x := s.red) h rfl (fun h => ?_)
  dsimp only
  have k := twf_tmap Perm.init (fun p => { p with acks := p.acks.filter (· != tag) }) (twf_keys h)
  exact k

theorem State.writeAck_runs (p : Packet) (s : State) :
    Runs [.cores, .txe, .sync, .mem, .urn, .fab, .router, .host, .steps, .red, .obj, .out] s (State.writeAck p s) := by
  unfold State.writeAck
  repeat' (first
    | with_reducible exact Runs.refl _
    | with_reducible assumption
    | exact Eq.refl true
    | exact fun h => h
    | dsimp only
    | with_reducible apply Runs.comp (State.permAck_runs ..)
    | with_reducible apply Runs.comp (State.hotResp_runs ..)
    | with_reducible apply Runs.comp (State.taken_runs ..)
    | with_reducible apply Runs.comp (State.fabFlow_runs ..)
    | with_reducible apply Runs.comp (State.fabComplete_runs ..)
    | with_reducible apply Runs.comp (State.tileAnswer_runs ..)
    | with_reducible apply Runs.foldl
    | with_reducible apply Runs.foldl_fst
    | intro _
    | split)

theorem execWriteAck_runs (p : Packet) (s : State) :
    RunsTo [.cores, .txe, .sync, .mem, .urn, .fab, .router, .host, .steps, .red, .obj, .out] s (execWriteAck p s) := by
  unfold execWriteAck
  repeat' (first
    | with_reducible refine RunsTo.need ?_
    | with_reducible refine RunsTo.next ?_
    | with_reducible exact Runs.refl _
    | with_reducible assumption
    | exact Eq.refl true
    | exact fun h => h
    | dsimp only
    | with_reducible apply powered_runs
    | with_reducible apply Runs.comp (State.writeAck_runs ..))

theorem State.atomEnd_runs (s : State) (a : AtomOut) (st : Nat) (result : Nat) :
    Runs [.sync, .mem, .fab, .router, .steps, .obj] s (State.atomEnd s a st result) := by
  unfold State.atomEnd
  repeat' (first
    | with_reducible exact Runs.refl _
    | with_reducible assumption
    | exact Eq.refl true
    | exact fun h => h
    | dsimp only
    | with_reducible apply Runs.comp (State.setFab_runs ..)
    | with_reducible apply Runs.comp (State.fabComplete_runs ..)
    | with_reducible apply Runs.comp (State.fabFlow_runs ..)
    | with_reducible apply Runs.foldl
    | with_reducible apply Runs.foldl_fst
    | intro _
    | split)

theorem State.atomicResp_runs (p : Packet) (s : State) :
    Runs [.sync, .mem, .fab, .router, .steps, .obj] s (State.atomicResp p s) := by
  unfold State.atomicResp
  repeat' (first
    | with_reducible exact Runs.refl _
    | with_reducible assumption
    | exact Eq.refl true
    | exact fun h => h
    | dsimp only
    | with_reducible apply Runs.comp (State.hotResp_runs ..)
    | with_reducible apply Runs.comp (State.taken_runs ..)
    | with_reducible apply Runs.comp (State.fabFlag_runs ..)
    | with_reducible apply Runs.comp (State.setFab_runs ..)
    | with_reducible apply Runs.comp (State.atomEnd_runs ..)
    | with_reducible apply Runs.foldl
    | with_reducible apply Runs.foldl_fst
    | intro _
    | split)

theorem execAtomicResp_runs (p : Packet) (s : State) :
    RunsTo [.sync, .mem, .fab, .router, .steps, .obj] s (execAtomicResp p s) := by
  unfold execAtomicResp
  repeat' (first
    | with_reducible refine RunsTo.need ?_
    | with_reducible refine RunsTo.next ?_
    | with_reducible exact Runs.refl _
    | with_reducible assumption
    | exact Eq.refl true
    | exact fun h => h
    | dsimp only
    | with_reducible apply powered_runs
    | with_reducible apply Runs.comp (State.atomicResp_runs ..))

theorem State.invDone_runs (p : Packet) (s : State) :
    Runs [.sync, .mem, .fab, .router, .steps, .obj] s (State.invDone p s) := by
  unfold State.invDone
  repeat' (first
    | with_reducible exact Runs.refl _
    | with_reducible assumption
    | exact Eq.refl true
    | exact fun h => h
    | dsimp only
    | with_reducible apply Runs.comp (State.taken_runs ..)
    | with_reducible apply Runs.comp (State.fabFlow_runs ..)
    | with_reducible apply Runs.comp (State.fabComplete_runs ..)
    | with_reducible apply Runs.foldl
    | with_reducible apply Runs.foldl_fst
    | intro _
    | split)

theorem execInvDone_runs (p : Packet) (s : State) :
    RunsTo [.sync, .mem, .fab, .router, .steps, .obj] s (execInvDone p s) := by
  unfold execInvDone
  repeat' (first
    | with_reducible refine RunsTo.need ?_
    | with_reducible refine RunsTo.next ?_
    | with_reducible exact Runs.refl _
    | with_reducible assumption
    | exact Eq.refl true
    | exact fun h => h
    | dsimp only
    | with_reducible apply powered_runs
    | with_reducible apply Runs.comp (State.invDone_runs ..))

theorem State.atomAgain_runs (s : State) (a : AtomOut) :
    Runs [.fab, .router] s (State.atomAgain s a) := by
  unfold State.atomAgain
  repeat' (first
    | with_reducible exact Runs.refl _
    | with_reducible assumption
    | exact Eq.refl true
    | exact fun h => h
    | dsimp only
    | with_reducible apply Runs.comp (State.capInject_runs ..)
    | with_reducible apply Runs.comp (State.setFab_runs ..))

theorem State.atomTimeout_runs (dest : Nat) (seq : Nat) (s : State) :
    Runs [.sync, .mem, .fab, .router, .steps, .obj] s (State.atomTimeout dest seq s) := by
  unfold State.atomTimeout
  repeat' (first
    | with_reducible exact Runs.refl _
    | with_reducible assumption
    | exact Eq.refl true
    | exact fun h => h
    | dsimp only
    | with_reducible apply Runs.comp (State.atomEnd_runs ..)
    | with_reducible apply Runs.comp (State.fabFlag_runs ..)
    | with_reducible apply Runs.comp (State.atomAgain_runs ..)
    | with_reducible apply Runs.foldl
    | with_reducible apply Runs.foldl_fst
    | intro _
    | split)

theorem execAtomicRetryTimeout_runs (dest : Nat) (seq : Nat) (s : State) :
    RunsTo [.sync, .mem, .fab, .router, .steps, .obj] s (execAtomicRetryTimeout dest seq s) := by
  unfold execAtomicRetryTimeout
  repeat' (first
    | with_reducible refine RunsTo.need ?_
    | with_reducible refine RunsTo.next ?_
    | with_reducible exact Runs.refl _
    | with_reducible assumption
    | exact Eq.refl true
    | exact fun h => h
    | dsimp only
    | with_reducible apply Runs.comp (State.atomTimeout_runs ..))

theorem State.atomBusyRetry_runs (dest : Nat) (seq : Nat) (s : State) :
    Runs [.fab, .router] s (State.atomBusyRetry dest seq s) := by
  unfold State.atomBusyRetry
  repeat' (first
    | with_reducible exact Runs.refl _
    | with_reducible assumption
    | exact Eq.refl true
    | exact fun h => h
    | dsimp only
    | with_reducible apply Runs.comp (State.atomAgain_runs ..)
    | with_reducible apply Runs.foldl
    | with_reducible apply Runs.foldl_fst
    | intro _
    | split)

theorem execAtomicBusyRetry_runs (dest : Nat) (seq : Nat) (s : State) :
    RunsTo [.fab, .router] s (execAtomicBusyRetry dest seq s) := by
  unfold execAtomicBusyRetry
  repeat' (first
    | with_reducible refine RunsTo.need ?_
    | with_reducible refine RunsTo.next ?_
    | with_reducible exact Runs.refl _
    | with_reducible assumption
    | exact Eq.refl true
    | exact fun h => h
    | dsimp only
    | with_reducible apply Runs.comp (State.atomBusyRetry_runs ..))

theorem State.atomAckTimer_runs (dest : Nat) (s : State) :
    Runs [.fab, .router] s (State.atomAckTimer dest s) := by
  unfold State.atomAckTimer
  repeat' (first
    | with_reducible exact Runs.refl _
    | with_reducible assumption
    | exact Eq.refl true
    | exact fun h => h
    | dsimp only
    | with_reducible apply Runs.comp (State.capInject_runs ..)
    | with_reducible apply Runs.comp (State.setFab_runs ..)
    | with_reducible apply Runs.foldl
    | with_reducible apply Runs.foldl_fst
    | intro _
    | split)

theorem execAtomicAckTimer_runs (dest : Nat) (s : State) :
    RunsTo [.fab, .router] s (execAtomicAckTimer dest s) := by
  unfold execAtomicAckTimer
  repeat' (first
    | with_reducible refine RunsTo.need ?_
    | with_reducible refine RunsTo.next ?_
    | with_reducible exact Runs.refl _
    | with_reducible assumption
    | exact Eq.refl true
    | exact fun h => h
    | dsimp only
    | with_reducible apply Runs.comp (State.atomAckTimer_runs ..))

theorem State.atomExpiry_runs (s : State) :
    Runs [.fab, .obj] s (State.atomExpiry s) := by
  unfold State.atomExpiry
  repeat' (first
    | with_reducible exact Runs.refl _
    | with_reducible assumption
    | exact Eq.refl true
    | exact fun h => h
    | dsimp only
    | with_reducible apply Runs.comp (State.setResp_runs ..)
    | with_reducible apply Runs.comp (State.setFab_runs ..)
    | with_reducible apply Runs.comp (State.fabFlag_runs ..)
    | with_reducible apply Runs.foldl
    | with_reducible apply Runs.foldl_fst
    | intro _
    | split)

theorem execAtomicEntryExpiry_runs (s : State) :
    RunsTo [.fab, .obj] s (execAtomicEntryExpiry s) := by
  unfold execAtomicEntryExpiry
  repeat' (first
    | with_reducible refine RunsTo.need ?_
    | with_reducible refine RunsTo.next ?_
    | with_reducible exact Runs.refl _
    | with_reducible assumption
    | exact Eq.refl true
    | exact fun h => h
    | dsimp only
    | with_reducible apply Runs.comp (State.atomExpiry_runs ..))

theorem State.hotTick_runs (s : State) :
    Runs [.fab, .router] s (State.hotTick s) := by
  unfold State.hotTick
  repeat' (first
    | with_reducible exact Runs.refl _
    | with_reducible assumption
    | exact Eq.refl true
    | exact fun h => h
    | dsimp only
    | with_reducible apply Runs.comp (State.capFlow_runs ..)
    | with_reducible apply Runs.comp (State.setFab_runs ..))

theorem execHotRateTick_runs (s : State) :
    RunsTo [.fab, .router] s (execHotRateTick s) := by
  unfold execHotRateTick
  repeat' (first
    | with_reducible refine RunsTo.need ?_
    | with_reducible refine RunsTo.next ?_
    | with_reducible exact Runs.refl _
    | with_reducible assumption
    | exact Eq.refl true
    | exact fun h => h
    | dsimp only
    | with_reducible apply Runs.comp (State.hotTick_runs ..))

theorem State.fabTimeout_runs (tag : Nat) (s : State) :
    Runs [.cores, .txe, .sync, .mem, .urn, .fab, .router, .host, .steps, .obj, .out] s (State.fabTimeout tag s) := by
  unfold State.fabTimeout
  repeat' (first
    | with_reducible exact Runs.refl _
    | with_reducible assumption
    | exact Eq.refl true
    | exact fun h => h
    | dsimp only
    | with_reducible apply Runs.comp (State.fabFlow_runs ..)
    | with_reducible apply Runs.comp (State.fabComplete_runs ..)
    | with_reducible apply Runs.comp (State.fabFlag_runs ..)
    | with_reducible apply Runs.comp (State.tileAnswer_runs ..)
    | with_reducible apply Runs.foldl
    | with_reducible apply Runs.foldl_fst
    | intro _
    | split)

theorem execFabTimeout_runs (tag : Nat) (s : State) :
    RunsTo [.cores, .txe, .sync, .mem, .urn, .fab, .router, .host, .steps, .obj, .out] s (execFabTimeout tag s) := by
  unfold execFabTimeout
  repeat' (first
    | with_reducible refine RunsTo.need ?_
    | with_reducible refine RunsTo.next ?_
    | with_reducible exact Runs.refl _
    | with_reducible assumption
    | exact Eq.refl true
    | exact fun h => h
    | dsimp only
    | with_reducible apply Runs.comp (State.fabTimeout_runs ..))

end Sys2Proof.Machine
end

