-- ==== Sys2Proof/Laws/FlitsRuns.lean ====
section
/-!
SUPPORT. What the operations of Machine/Flits.lean may change, and that they keep the canonical form.
-/

namespace Sys2Proof.Machine

theorem State.linkErr_runs (s : State) (l : Nat) (k : Nat) :
    Runs [.obj] s (State.linkErr s l k) := by
  unfold State.linkErr
  repeat' (first
    | with_reducible exact Runs.refl _
    | with_reducible assumption
    | exact Eq.refl true
    | exact fun h => h
    | dsimp only
    | with_reducible apply Runs.comp (State.modOv_runs ..))

theorem State.flitCore_runs {L : List Part} (l : Nat) (want : Nat) (raw : List Byte) (fecOk : Bool) (f : State → State) (s : State) (hf : ∀ t, Runs L t (f t)) (hL : within [.links, .obj] L = true) :
    Runs L s (State.flitCore l want raw fecOk f s) := by
  unfold State.flitCore
  repeat' (first
    | with_reducible refine Runs.trans ?_ (hf ..)
    | exact hL
    | with_reducible exact Runs.refl _
    | with_reducible assumption
    | exact Eq.refl true
    | exact within_trans rfl hL
    | exact fun h => h
    | dsimp only
    | with_reducible apply Runs.comp (State.linkErr_runs ..)
    | with_reducible apply Runs.comp (State.setLink_runs ..)
    | with_reducible apply Runs.foldl
    | with_reducible apply Runs.foldl_fst
    | intro _
    | split)

theorem State.flitIn_runs {L : List Part} (l : Nat) (want : Nat) (raw : List Byte) (fecOk : Bool) (f : State → State) (s : State) (hf : ∀ t, Runs L t (f t)) (hL : within [.links, .obj] L = true) :
    Runs L s (State.flitIn l want raw fecOk f s) := by
  unfold State.flitIn
  repeat' (first
    | with_reducible refine Runs.trans ?_ (hf ..)
    | exact hL
    | with_reducible exact Runs.refl _
    | with_reducible assumption
    | exact Eq.refl true
    | exact within_trans rfl hL
    | exact fun h => h
    | dsimp only
    | with_reducible apply State.flitCore_runs
    | with_reducible apply Runs.foldl
    | with_reducible apply Runs.foldl_fst
    | intro _
    | split)

end Sys2Proof.Machine
end

