-- ==== Sys2Proof/Laws/LinksRuns.lean ====
section
/-!
SUPPORT. What the operations of Machine/Links.lean may change, and that they keep the canonical form.
-/

namespace Sys2Proof.Machine

theorem State.notice388_runs (s : State) (code : Nat) (p : Packet) :
    Runs [.router, .flash] s (State.notice388 s code p) := by
  unfold State.notice388
  repeat' (first
    | with_reducible exact Runs.refl _
    | with_reducible assumption
    | exact Eq.refl true
    | exact fun h => h
    | dsimp only
    | with_reducible apply Runs.comp (State.send_runs ..)
    | with_reducible apply Runs.comp (State.setFlash_runs ..)
    | with_reducible apply Runs.foldl
    | with_reducible apply Runs.foldl_fst
    | intro _
    | split)

theorem State.linkDrop_runs (s : State) (l : Nat) (p : Packet) :
    Runs [.router, .obj, .flash] s (State.linkDrop s l p) := by
  unfold State.linkDrop
  repeat' (first
    | with_reducible exact Runs.refl _
    | with_reducible assumption
    | exact Eq.refl true
    | exact fun h => h
    | dsimp only
    | with_reducible apply Runs.comp (State.notice388_runs ..)
    | with_reducible apply Runs.comp (State.bump_runs ..))

theorem State.waitNotices_runs (s : State) :
    Runs [.router, .flash] s (State.waitNotices s) := by
  unfold State.waitNotices
  repeat' (first
    | with_reducible exact Runs.refl _
    | with_reducible assumption
    | exact Eq.refl true
    | exact fun h => h
    | dsimp only
    | with_reducible apply Runs.comp (State.notice388_runs ..)
    | with_reducible apply Runs.foldl
    | with_reducible apply Runs.foldl_fst
    | intro _
    | split)

theorem State.linkRetrain_runs (s : State) (l : Nat) (code : Nat) :
    Runs [.links, .router, .steps, .obj, .flash] s (State.linkRetrain s l code) := by
  unfold State.linkRetrain
  repeat' (first
    | with_reducible exact Runs.refl _
    | with_reducible assumption
    | exact Eq.refl true
    | exact fun h => h
    | dsimp only
    | with_reducible apply Runs.comp (State.modLink_runs ..)
    | with_reducible apply Runs.comp (State.uncovered_runs ..)
    | with_reducible apply Runs.comp (State.notice388_runs ..)
    | with_reducible apply Runs.foldl
    | with_reducible apply Runs.foldl_fst
    | intro _)

theorem State.linkFall_runs (s : State) (l : Nat) :
    Runs [.links, .router, .steps, .obj, .flash] s (State.linkFall s l) := by
  unfold State.linkFall
  repeat' (first
    | with_reducible exact Runs.refl _
    | with_reducible assumption
    | exact Eq.refl true
    | exact fun h => h
    | dsimp only
    | with_reducible apply Runs.comp (State.inject_runs ..)
    | with_reducible apply Runs.comp (State.setLink_runs ..)
    | with_reducible apply Runs.comp (State.uncovered_runs ..)
    | with_reducible apply Runs.comp (State.linkDrop_runs ..)
    | with_reducible apply Runs.foldl
    | with_reducible apply Runs.foldl_fst
    | intro _
    | split)

theorem State.laneSend_runs (s : State) (l : Nat) (m : LaneMsg) :
    Runs [.links] s (State.laneSend s l m) := by
  unfold State.laneSend
  repeat' (first
    | with_reducible exact Runs.refl _
    | with_reducible assumption
    | exact Eq.refl true
    | exact fun h => h
    | dsimp only
    | with_reducible apply Runs.comp (State.modLink_runs ..))

theorem State.laneAnswer_runs (s : State) (l : Nat) (m : LaneMsg) :
    Runs [.links] s (State.laneAnswer s l m) := by
  unfold State.laneAnswer
  repeat' (first
    | with_reducible exact Runs.refl _
    | with_reducible assumption
    | exact Eq.refl true
    | exact fun h => h
    | dsimp only
    | with_reducible apply Runs.comp (State.modLink_runs ..))

theorem State.laneDo_runs {L : List Part} (l : Nat) (msg : Nat) (raw : List Byte) (f : LaneMsg → State → State) (s : State) (hf : ∀ m t, Runs L t (f m t)) (hL : within [.obj] L = true) :
    Runs L s (State.laneDo l msg raw f s) := by
  unfold State.laneDo
  repeat' (first
    | with_reducible refine Runs.trans ?_ (hf ..)
    | exact hL
    | with_reducible exact Runs.refl _
    | with_reducible assumption
    | exact Eq.refl true
    | exact within_trans rfl hL
    | exact fun h => h
    | dsimp only
    | with_reducible apply Runs.comp (State.linkErr_runs ..)
    | with_reducible apply Runs.foldl
    | with_reducible apply Runs.foldl_fst
    | intro _
    | split)

theorem State.laneIn_runs {L : List Part} (l : Nat) (msg : Nat) (raw : List Byte) (f : LaneMsg → State → State) (s : State) (hf : ∀ m t, Runs L t (f m t)) (hL : within [.links, .obj] L = true) :
    Runs L s (State.laneIn l msg raw f s) := by
  unfold State.laneIn
  repeat' (first
    | with_reducible refine Runs.trans ?_ (hf ..)
    | exact hL
    | with_reducible exact Runs.refl _
    | with_reducible assumption
    | exact Eq.refl true
    | exact within_trans rfl hL
    | exact fun h => h
    | dsimp only
    | with_reducible apply State.flitIn_runs
    | with_reducible apply State.laneDo_runs
    | with_reducible apply Runs.foldl
    | with_reducible apply Runs.foldl_fst
    | intro _)

theorem State.lightArrival_runs (l : Nat) (s : State) :
    Runs [.links] s (State.lightArrival l s) := by
  unfold State.lightArrival
  repeat' (first
    | with_reducible exact Runs.refl _
    | with_reducible assumption
    | exact Eq.refl true
    | exact fun h => h
    | dsimp only
    | with_reducible apply Runs.comp (State.setLink_runs ..)
    | with_reducible apply Runs.foldl
    | with_reducible apply Runs.foldl_fst
    | intro _
    | split)

theorem State.laneLockDone_runs (l : Nat) (healthy : Nat) (s : State) :
    Runs [.links] s (State.laneLockDone l healthy s) := by
  unfold State.laneLockDone
  repeat' (first
    | with_reducible exact Runs.refl _
    | with_reducible assumption
    | exact Eq.refl true
    | exact fun h => h
    | dsimp only
    | with_reducible apply Runs.comp (State.setLink_runs ..)
    | with_reducible apply Runs.comp (State.laneSend_runs ..)
    | with_reducible apply Runs.comp (State.modLink_runs ..)
    | with_reducible apply Runs.foldl
    | with_reducible apply Runs.foldl_fst
    | intro _
    | split)

theorem State.identIn_runs (l : Nat) (m : LaneMsg) (s : State) :
    Runs [.links, .router, .steps, .obj, .flash] s (State.identIn l m s) := by
  unfold State.identIn
  repeat' (first
    | with_reducible exact Runs.refl _
    | with_reducible assumption
    | exact Eq.refl true
    | exact fun h => h
    | dsimp only
    | with_reducible apply Runs.comp (State.setLink_runs ..)
    | with_reducible apply Runs.comp (State.linkRetrain_runs ..)
    | with_reducible apply Runs.comp (State.modLink_runs ..)
    | with_reducible apply Runs.comp (State.laneAnswer_runs ..)
    | with_reducible apply Runs.comp (State.laneSend_runs ..)
    | with_reducible apply Runs.foldl
    | with_reducible apply Runs.foldl_fst
    | intro _
    | split)

theorem State.widthAgreed_runs (l : Nat) (m : LaneMsg) (s : State) :
    Runs [.links] s (State.widthAgreed l m s) := by
  unfold State.widthAgreed
  repeat' (first
    | with_reducible exact Runs.refl _
    | with_reducible assumption
    | exact Eq.refl true
    | exact fun h => h
    | dsimp only
    | with_reducible apply Runs.comp (State.setLink_runs ..)
    | with_reducible apply Runs.foldl
    | with_reducible apply Runs.foldl_fst
    | intro _
    | split)

theorem State.widthSetIn_runs (l : Nat) (m : LaneMsg) (s : State) :
    Runs [.links, .obj] s (State.widthSetIn l m s) := by
  unfold State.widthSetIn
  repeat' (first
    | with_reducible exact Runs.refl _
    | with_reducible assumption
    | exact Eq.refl true
    | exact fun h => h
    | dsimp only
    | with_reducible apply Runs.comp (State.laneAnswer_runs ..)
    | with_reducible apply Runs.comp (State.widthAgreed_runs ..)
    | with_reducible apply Runs.comp (State.setLink_runs ..)
    | with_reducible apply Runs.comp (State.linkErr_runs ..)
    | with_reducible apply Runs.comp (State.laneSend_runs ..)
    | with_reducible apply Runs.foldl
    | with_reducible apply Runs.foldl_fst
    | intro _
    | split)

theorem State.journalLanes_runs (s : State) (kind : Nat) (l : Nat) (ps : List (Nat × Nat)) :
    Runs [.flash] s (State.journalLanes s kind l ps) := by
  unfold State.journalLanes
  repeat' (first
    | with_reducible exact Runs.refl _
    | with_reducible assumption
    | exact Eq.refl true
    | exact fun h => h
    | dsimp only
    | with_reducible apply Runs.comp (State.journal_runs ..)
    | with_reducible apply Runs.foldl
    | with_reducible apply Runs.foldl_fst
    | intro _)

theorem State.trained_runs (s : State) (l : Nat) (w : Nat) :
    Runs [.links, .router, .host, .flash, .out] s (State.trained s l w) := by
  unfold State.trained
  repeat' (first
    | with_reducible exact Runs.refl _
    | with_reducible assumption
    | exact Eq.refl true
    | exact fun h => h
    | dsimp only
    | with_reducible apply Runs.comp (State.setLink_runs ..)
    | with_reducible apply Runs.comp (State.journalLanes_runs ..)
    | with_reducible apply Runs.comp (State.service_runs ..)
    | with_reducible apply Runs.foldl
    | with_reducible apply Runs.foldl_fst
    | intro _
    | split)

theorem State.widthChange_runs (s : State) (l : Nat) (rx : Bool) :
    Runs [.links, .router, .host, .flash, .out] s (State.widthChange s l rx) := by
  unfold State.widthChange
  repeat' (first
    | with_reducible exact Runs.refl _
    | with_reducible assumption
    | exact Eq.refl true
    | exact fun h => h
    | dsimp only
    | with_reducible apply Runs.comp (State.trained_runs ..)
    | with_reducible apply Runs.comp (State.setLink_runs ..)
    | with_reducible apply Runs.foldl
    | with_reducible apply Runs.foldl_fst
    | intro _
    | split)

theorem State.spareChange_runs (s : State) (l : Nat) (rx : Bool) :
    Runs [.links] s (State.spareChange s l rx) := by
  unfold State.spareChange
  repeat' (first
    | with_reducible exact Runs.refl _
    | with_reducible assumption
    | exact Eq.refl true
    | exact fun h => h
    | dsimp only
    | with_reducible apply Runs.comp (State.setLink_runs ..)
    | with_reducible apply Runs.foldl
    | with_reducible apply Runs.foldl_fst
    | intro _
    | split)

theorem State.atRound_runs (l : Nat) (rx : Bool) (s : State) :
    Runs [.links, .router, .host, .flash, .out] s (State.atRound l rx s) := by
  unfold State.atRound
  repeat' (first
    | with_reducible exact Runs.refl _
    | with_reducible assumption
    | exact Eq.refl true
    | exact fun h => h
    | dsimp only
    | with_reducible apply Runs.comp (State.widthChange_runs ..)
    | with_reducible apply Runs.comp (State.spareChange_runs ..)
    | with_reducible apply Runs.foldl
    | with_reducible apply Runs.foldl_fst
    | intro _
    | split)

theorem State.spareReqIn_runs (l : Nat) (m : LaneMsg) (s : State) :
    Runs [.links, .router, .steps, .obj, .flash] s (State.spareReqIn l m s) := by
  unfold State.spareReqIn
  repeat' (first
    | with_reducible exact Runs.refl _
    | with_reducible assumption
    | exact Eq.refl true
    | exact fun h => h
    | dsimp only
    | with_reducible apply Runs.comp (State.laneAnswer_runs ..)
    | with_reducible apply Runs.comp (State.setLink_runs ..)
    | with_reducible apply Runs.comp (State.journal_runs ..)
    | with_reducible apply Runs.comp (State.linkRetrain_runs ..)
    | with_reducible apply Runs.foldl
    | with_reducible apply Runs.foldl_fst
    | intro _
    | split)

theorem State.spareAckIn_runs (l : Nat) (m : LaneMsg) (s : State) :
    Runs [.links, .obj, .flash, .free] s (State.spareAckIn l m s) := by
  unfold State.spareAckIn
  repeat' (first
    | with_reducible exact Runs.refl _
    | with_reducible assumption
    | exact Eq.refl true
    | exact fun h => h
    | dsimp only
    | with_reducible apply Runs.comp (State.journal_runs ..)
    | with_reducible apply Runs.comp (State.coveredAt_runs ..)
    | with_reducible apply Runs.comp (State.setLink_runs ..)
    | with_reducible apply Runs.foldl
    | with_reducible apply Runs.foldl_fst
    | intro _
    | split)

theorem State.laneResend_runs (l : Nat) (s : State) :
    Runs [.links, .router, .steps, .obj, .flash] s (State.laneResend l s) := by
  unfold State.laneResend
  repeat' (first
    | with_reducible exact Runs.refl _
    | with_reducible assumption
    | exact Eq.refl true
    | exact fun h => h
    | dsimp only
    | with_reducible apply Runs.comp (State.linkRetrain_runs ..)
    | with_reducible apply Runs.comp (State.setLink_runs ..)
    | with_reducible apply Runs.foldl
    | with_reducible apply Runs.foldl_fst
    | intro _
    | split)

theorem State.laneFail_runs (l : Nat) (lane : Nat) (s : State) : Runs [.links, .router, .steps, .obj, .flash] s (State.laneFail l lane s) := by
  have hs : ∀ x, Runs [.links, .router, .steps, .obj, .flash] s (s.setLink l x) := fun x => (State.setLink_runs s l x).mono rfl
  have hr : ∀ x c, Runs [.links, .router, .steps, .obj, .flash] s ((s.setLink l x).linkRetrain l c) := fun x c =>
    (hs x).trans ((State.linkRetrain_runs ..).mono rfl)
  unfold State.laneFail
  refine Runs.ite (fun _ => Runs.refl s) (fun _ => ?_)
  refine Runs.ite (fun _ => hs _) (fun _ => ?_)
  refine Runs.ite (fun _ => hs _) (fun _ => ?_)
  refine Runs.ite (fun _ => hr _ _) (fun _ => ?_)
  refine Runs.ite (fun _ => hs _) (fun _ => ?_)
  refine Runs.ite (fun _ => hr _ _) (fun _ => ?_)
  refine Runs.ite (fun _ => (hs _).trans ((State.laneSend_runs ..).mono rfl)) (fun _ => ?_)
  exact Runs.ite (fun _ => hs _) (fun _ => hr _ _)

theorem State.waveTimeout_runs (l : Nat) (wave : Nat) (s : State) :
    Runs [.links, .router, .steps, .obj, .flash] s (State.waveTimeout l wave s) := by
  unfold State.waveTimeout
  repeat' (first
    | with_reducible exact Runs.refl _
    | with_reducible assumption
    | exact Eq.refl true
    | exact fun h => h
    | dsimp only
    | with_reducible apply Runs.comp (State.linkRetrain_runs ..)
    | with_reducible apply Runs.foldl
    | with_reducible apply Runs.foldl_fst
    | intro _
    | split)

theorem State.waveRelock_runs (l : Nat) (wave : Nat) (s : State) :
    Runs [.links] s (State.waveRelock l wave s) := by
  unfold State.waveRelock
  repeat' (first
    | with_reducible exact Runs.refl _
    | with_reducible assumption
    | exact Eq.refl true
    | exact fun h => h
    | dsimp only
    | with_reducible apply Runs.comp (State.setLink_runs ..)
    | with_reducible apply Runs.foldl
    | with_reducible apply Runs.foldl_fst
    | intro _
    | split)

theorem State.laserFail_runs (l : Nat) (source : Nat) (s : State) :
    Runs [.links, .router, .steps, .obj, .flash] s (State.laserFail l source s) := by
  unfold State.laserFail
  repeat' (first
    | with_reducible exact Runs.refl _
    | with_reducible assumption
    | exact Eq.refl true
    | exact fun h => h
    | dsimp only
    | with_reducible apply Runs.comp (State.setLink_runs ..)
    | with_reducible apply Runs.comp (State.linkRetrain_runs ..)
    | with_reducible apply Runs.comp (State.modLink_runs ..)
    | with_reducible apply Runs.foldl
    | with_reducible apply Runs.foldl_fst
    | intro _
    | split)

theorem State.laserLocked_runs (l : Nat) (s : State) :
    Runs [.links, .router, .host, .obj, .flash, .out, .free] s (State.laserLocked l s) := by
  unfold State.laserLocked
  repeat' (first
    | with_reducible exact Runs.refl _
    | with_reducible assumption
    | exact Eq.refl true
    | exact fun h => h
    | dsimp only
    | with_reducible apply Runs.comp (State.service_runs ..)
    | with_reducible apply Runs.comp (State.journal_runs ..)
    | with_reducible apply Runs.comp (State.coveredAt_runs ..)
    | with_reducible apply Runs.comp (State.setLink_runs ..)
    | with_reducible apply Runs.foldl
    | with_reducible apply Runs.foldl_fst
    | intro _
    | split)

theorem execLightArrival_runs (link : Nat) (s : State) :
    RunsTo [.links] s (execLightArrival link s) := by
  unfold execLightArrival
  repeat' (first
    | with_reducible refine RunsTo.need ?_
    | with_reducible refine RunsTo.next ?_
    | with_reducible exact Runs.refl _
    | with_reducible assumption
    | exact Eq.refl true
    | exact fun h => h
    | dsimp only
    | with_reducible apply Runs.comp (State.lightArrival_runs ..))

theorem execLaneLockDone_runs (link : Nat) (healthy : Nat) (s : State) :
    RunsTo [.links] s (execLaneLockDone link healthy s) := by
  unfold execLaneLockDone
  repeat' (first
    | with_reducible refine RunsTo.need ?_
    | with_reducible refine RunsTo.next ?_
    | with_reducible exact Runs.refl _
    | with_reducible assumption
    | exact Eq.refl true
    | exact fun h => h
    | dsimp only
    | with_reducible apply Runs.comp (State.laneLockDone_runs ..))

theorem execIdent_runs (link : Nat) (raw : List Byte) (s : State) :
    RunsTo [.links, .router, .steps, .obj, .flash] s (execIdent link raw s) := by
  unfold execIdent
  repeat' (first
    | with_reducible refine RunsTo.need ?_
    | with_reducible refine RunsTo.next ?_
    | with_reducible exact Runs.refl _
    | with_reducible assumption
    | exact Eq.refl true
    | exact fun h => h
    | dsimp only
    | with_reducible apply State.laneIn_runs
    | with_reducible apply Runs.comp (State.identIn_runs ..)
    | with_reducible apply Runs.foldl
    | with_reducible apply Runs.foldl_fst
    | intro _)

theorem execWidthSet_runs (link : Nat) (raw : List Byte) (s : State) :
    RunsTo [.links, .obj] s (execWidthSet link raw s) := by
  unfold execWidthSet
  repeat' (first
    | with_reducible refine RunsTo.need ?_
    | with_reducible refine RunsTo.next ?_
    | with_reducible exact Runs.refl _
    | with_reducible assumption
    | exact Eq.refl true
    | exact fun h => h
    | dsimp only
    | with_reducible apply State.laneIn_runs
    | with_reducible apply Runs.comp (State.widthSetIn_runs ..)
    | with_reducible apply Runs.foldl
    | with_reducible apply Runs.foldl_fst
    | intro _)

theorem execWidthAck_runs (link : Nat) (raw : List Byte) (s : State) :
    RunsTo [.links, .obj] s (execWidthAck link raw s) := by
  unfold execWidthAck
  repeat' (first
    | with_reducible refine RunsTo.need ?_
    | with_reducible refine RunsTo.next ?_
    | with_reducible exact Runs.refl _
    | with_reducible assumption
    | exact Eq.refl true
    | exact fun h => h
    | dsimp only
    | with_reducible apply State.laneIn_runs
    | with_reducible apply Runs.comp (State.widthAgreed_runs ..)
    | with_reducible apply Runs.foldl
    | with_reducible apply Runs.foldl_fst
    | intro _)

theorem execSpareReq_runs (link : Nat) (raw : List Byte) (s : State) :
    RunsTo [.links, .router, .steps, .obj, .flash] s (execSpareReq link raw s) := by
  unfold execSpareReq
  repeat' (first
    | with_reducible refine RunsTo.need ?_
    | with_reducible refine RunsTo.next ?_
    | with_reducible exact Runs.refl _
    | with_reducible assumption
    | exact Eq.refl true
    | exact fun h => h
    | dsimp only
    | with_reducible apply State.laneIn_runs
    | with_reducible apply Runs.comp (State.spareReqIn_runs ..)
    | with_reducible apply Runs.foldl
    | with_reducible apply Runs.foldl_fst
    | intro _)

theorem execSpareAck_runs (link : Nat) (raw : List Byte) (s : State) :
    RunsTo [.links, .obj, .flash, .free] s (execSpareAck link raw s) := by
  unfold execSpareAck
  repeat' (first
    | with_reducible refine RunsTo.need ?_
    | with_reducible refine RunsTo.next ?_
    | with_reducible exact Runs.refl _
    | with_reducible assumption
    | exact Eq.refl true
    | exact fun h => h
    | dsimp only
    | with_reducible apply State.laneIn_runs
    | with_reducible apply Runs.comp (State.spareAckIn_runs ..)
    | with_reducible apply Runs.foldl
    | with_reducible apply Runs.foldl_fst
    | intro _)

theorem execLaneCtrlResend_runs (link : Nat) (s : State) :
    RunsTo [.links, .router, .steps, .obj, .flash] s (execLaneCtrlResend link s) := by
  unfold execLaneCtrlResend
  repeat' (first
    | with_reducible refine RunsTo.need ?_
    | with_reducible refine RunsTo.next ?_
    | with_reducible exact Runs.refl _
    | with_reducible assumption
    | exact Eq.refl true
    | exact fun h => h
    | dsimp only
    | with_reducible apply Runs.comp (State.laneResend_runs ..))

theorem execAtRoundChange_runs (link : Nat) (rx : Bool) (s : State) :
    RunsTo [.links, .router, .host, .flash, .out] s (execAtRoundChange link rx s) := by
  unfold execAtRoundChange
  repeat' (first
    | with_reducible refine RunsTo.need ?_
    | with_reducible refine RunsTo.next ?_
    | with_reducible exact Runs.refl _
    | with_reducible assumption
    | exact Eq.refl true
    | exact fun h => h
    | dsimp only
    | with_reducible apply Runs.comp (State.atRound_runs ..))

theorem execLinkDown_runs (link : Nat) (s : State) :
    RunsTo [.links, .router, .steps, .obj, .flash] s (execLinkDown link s) := by
  unfold execLinkDown
  repeat' (first
    | with_reducible refine RunsTo.need ?_
    | with_reducible refine RunsTo.next ?_
    | with_reducible exact Runs.refl _
    | with_reducible assumption
    | exact Eq.refl true
    | exact fun h => h
    | dsimp only
    | with_reducible apply Runs.comp (State.linkFall_runs ..))

theorem execLaneFailure_runs (link : Nat) (lane : Nat) (s : State) :
    RunsTo [.links, .router, .steps, .obj, .flash] s (execLaneFailure link lane s) := by
  unfold execLaneFailure
  repeat' (first
    | with_reducible refine RunsTo.need ?_
    | with_reducible refine RunsTo.next ?_
    | with_reducible exact Runs.refl _
    | with_reducible assumption
    | exact Eq.refl true
    | exact fun h => h
    | dsimp only
    | with_reducible apply Runs.comp (State.laneFail_runs ..))

theorem execWavelengthTimeout_runs (link : Nat) (wave : Nat) (s : State) :
    RunsTo [.links, .router, .steps, .obj, .flash] s (execWavelengthTimeout link wave s) := by
  unfold execWavelengthTimeout
  repeat' (first
    | with_reducible refine RunsTo.need ?_
    | with_reducible refine RunsTo.next ?_
    | with_reducible exact Runs.refl _
    | with_reducible assumption
    | exact Eq.refl true
    | exact fun h => h
    | dsimp only
    | with_reducible apply Runs.comp (State.waveTimeout_runs ..))

theorem execWavelengthRelock_runs (link : Nat) (wave : Nat) (s : State) :
    RunsTo [.links] s (execWavelengthRelock link wave s) := by
  unfold execWavelengthRelock
  repeat' (first
    | with_reducible refine RunsTo.need ?_
    | with_reducible refine RunsTo.next ?_
    | with_reducible exact Runs.refl _
    | with_reducible assumption
    | exact Eq.refl true
    | exact fun h => h
    | dsimp only
    | with_reducible apply Runs.comp (State.waveRelock_runs ..))

theorem execLaserFailure_runs (link : Nat) (source : Nat) (s : State) :
    RunsTo [.links, .router, .steps, .obj, .flash] s (execLaserFailure link source s) := by
  unfold execLaserFailure
  repeat' (first
    | with_reducible refine RunsTo.need ?_
    | with_reducible refine RunsTo.next ?_
    | with_reducible exact Runs.refl _
    | with_reducible assumption
    | exact Eq.refl true
    | exact fun h => h
    | dsimp only
    | with_reducible apply Runs.comp (State.laserFail_runs ..))

theorem execLaserSpareLocked_runs (link : Nat) (s : State) :
    RunsTo [.links, .router, .host, .obj, .flash, .out, .free] s (execLaserSpareLocked link s) := by
  unfold execLaserSpareLocked
  repeat' (first
    | with_reducible refine RunsTo.need ?_
    | with_reducible refine RunsTo.next ?_
    | with_reducible exact Runs.refl _
    | with_reducible assumption
    | exact Eq.refl true
    | exact fun h => h
    | dsimp only
    | with_reducible apply Runs.comp (State.laserLocked_runs ..))

end Sys2Proof.Machine
end

