-- ==== Sys2Proof/Laws/FabricTimeRuns.lean ====
section
/-!
SUPPORT. What the operations of Machine/FabricTime.lean may change, and that they keep the canonical form.
-/

namespace Sys2Proof.Machine

theorem FabTime.wf_of {f g : FabTime} (h : f.wf = true) (hn : keysFrom none f.nbr = true → keysFrom none g.nbr = true)
    (he : keysFrom none f.exch = true → keysFrom none g.exch = true) : g.wf = true := by
  simp only [FabTime.wf, Bool.and_eq_true] at h ⊢
  exact ⟨hn h.1, he h.2⟩

theorem keysFrom_tins_none {α : Type} {t : Tbl α} (i : Nat) (x : α) (h : keysFrom none t = true) :
    keysFrom none (tins t i x) = true := keysFrom_tins x h (by simp)

theorem State.takeParent_runs (s : State) (l : Nat) :
    Runs [.ft] s (State.takeParent s l) := by
  unfold State.takeParent
  repeat' (first
    | with_reducible exact Runs.refl _
    | with_reducible assumption
    | exact Eq.refl true
    | exact fun h => h
    | dsimp only
    | with_reducible apply Runs.comp (State.setFt_runs ..))

theorem State.dropParent_runs (s : State) :
    Runs [.ft] s (State.dropParent s) := by
  unfold State.dropParent
  repeat' (first
    | with_reducible exact Runs.refl _
    | with_reducible assumption
    | exact Eq.refl true
    | exact fun h => h
    | dsimp only
    | with_reducible apply Runs.comp (State.setFt_runs ..))

theorem State.reparent_runs (s : State) :
    Runs [.ft] s (State.reparent s) := by
  unfold State.reparent
  repeat' (first
    | with_reducible exact Runs.refl _
    | with_reducible assumption
    | exact Eq.refl true
    | exact fun h => h
    | dsimp only
    | with_reducible apply Runs.comp (State.setFt_runs ..)
    | with_reducible apply Runs.comp (State.takeParent_runs ..)
    | with_reducible apply Runs.comp (State.dropParent_runs ..)
    | with_reducible apply Runs.foldl
    | with_reducible apply Runs.foldl_fst
    | intro _
    | split)

theorem State.reselect_runs (s : State) :
    Runs [.ft] s (State.reselect s) := by
  unfold State.reselect
  repeat' (first
    | with_reducible exact Runs.refl _
    | with_reducible assumption
    | exact Eq.refl true
    | exact fun h => h
    | dsimp only
    | with_reducible apply Runs.comp (State.reparent_runs ..)
    | with_reducible apply Runs.comp (State.takeParent_runs ..)
    | with_reducible apply Runs.foldl
    | with_reducible apply Runs.foldl_fst
    | intro _
    | split)

theorem State.timeStart_runs (l : Nat) (s : State) :
    Runs [.ft, .links] s (State.timeStart l s) := by
  unfold State.timeStart
  repeat' (first
    | with_reducible exact Runs.refl _
    | with_reducible assumption
    | exact Eq.refl true
    | exact fun h => h
    | exact FabTime.wf_of (f := s.ft) (by assumption) (fun h => h) (keysFrom_tins_none _ _)
    | dsimp only
    | with_reducible apply Runs.comp (State.modLink_runs ..)
    | with_reducible apply Runs.comp (State.setFt_runs ..)
    | with_reducible apply Runs.foldl
    | with_reducible apply Runs.foldl_fst
    | intro _
    | split)

theorem State.timeLeft_runs (s : State) (l : Nat) (seq : Nat) (t : Nat) :
    Runs [.ft] s (State.timeLeft s l seq t) := by
  unfold State.timeLeft
  repeat' (first
    | with_reducible exact Runs.refl _
    | with_reducible assumption
    | exact Eq.refl true
    | exact fun h => h
    | exact FabTime.wf_of (f := s.ft) (by assumption) (fun h => h) (keysFrom_tins_none _ _)
    | dsimp only
    | with_reducible apply Runs.comp (State.setFt_runs ..)
    | with_reducible apply Runs.foldl
    | with_reducible apply Runs.foldl_fst
    | intro _
    | split)

theorem State.steer_runs (s : State) (o : Int) :
    Runs [.ft] s (State.steer s o) := by
  unfold State.steer
  repeat' (first
    | with_reducible exact Runs.refl _
    | with_reducible assumption
    | exact Eq.refl true
    | exact fun h => h
    | dsimp only
    | with_reducible apply Runs.comp (State.setFt_runs ..)
    | with_reducible apply Runs.foldl
    | with_reducible apply Runs.foldl_fst
    | intro _
    | split
    | assumption)

theorem State.timeIn_runs (l : Nat) (b : List Byte) (s : State) :
    Runs [.ft, .links] s (State.timeIn l b s) := by
  unfold State.timeIn
  repeat' (first
    | with_reducible exact Runs.refl _
    | with_reducible assumption
    | exact Eq.refl true
    | exact fun h => h
    | exact FabTime.wf_of (by assumption) (keysFrom_tins_none _ _) (fun h => h)
    | exact FabTime.wf_of (by assumption) (keysFrom_tins_none _ _) (keysFrom_terase _)
    | dsimp only
    | with_reducible apply Runs.comp (State.reparent_runs ..)
    | with_reducible apply Runs.comp (State.setFt_runs ..)
    | with_reducible apply Runs.comp (State.modLink_runs ..)
    | with_reducible apply Runs.comp (State.steer_runs ..)
    | with_reducible apply Runs.foldl
    | with_reducible apply Runs.foldl_fst
    | intro _
    | split)

theorem State.holdover_runs (s : State) :
    Runs [.ft] s (State.holdover s) := by
  unfold State.holdover
  repeat' (first
    | with_reducible exact Runs.refl _
    | with_reducible assumption
    | exact Eq.refl true
    | exact fun h => h
    | dsimp only
    | with_reducible apply Runs.comp (State.setFt_runs ..)
    | with_reducible apply Runs.foldl
    | with_reducible apply Runs.foldl_fst
    | intro _
    | split)

theorem State.ftFresh_runs (s : State) :
    Runs [.ft] s (State.ftFresh s) := by
  unfold State.ftFresh
  repeat' (first
    | with_reducible exact Runs.refl _
    | with_reducible assumption
    | exact Eq.refl true
    | exact fun h => h
    | exact FabTime.wf_of (by assumption) (fun _ => rfl) (fun _ => rfl)
    | dsimp only
    | with_reducible apply Runs.comp (State.setFt_runs ..)
    | with_reducible apply Runs.foldl
    | with_reducible apply Runs.foldl_fst
    | intro _)

theorem execTimeExchangeStart_runs (link : Nat) (s : State) :
    RunsTo [.ft, .links] s (execTimeExchangeStart link s) := by
  unfold execTimeExchangeStart
  repeat' (first
    | with_reducible refine RunsTo.need ?_
    | with_reducible refine RunsTo.next ?_
    | with_reducible exact Runs.refl _
    | with_reducible assumption
    | exact Eq.refl true
    | exact fun h => h
    | dsimp only
    | with_reducible apply Runs.comp (State.timeStart_runs ..))

theorem execTimeFlitReceive_runs (link : Nat) (raw : List Byte) (s : State) :
    RunsTo [.ft, .links, .obj] s (execTimeFlitReceive link raw s) := by
  unfold execTimeFlitReceive
  repeat' (first
    | with_reducible refine RunsTo.need ?_
    | with_reducible refine RunsTo.next ?_
    | with_reducible exact Runs.refl _
    | with_reducible assumption
    | exact Eq.refl true
    | exact fun h => h
    | dsimp only
    | with_reducible apply State.flitIn_runs
    | with_reducible apply Runs.comp (State.timeIn_runs ..)
    | with_reducible apply Runs.foldl
    | with_reducible apply Runs.foldl_fst
    | intro _)

theorem execFtParentReselect_runs (s : State) :
    RunsTo [.ft] s (execFtParentReselect s) := by
  unfold execFtParentReselect
  repeat' (first
    | with_reducible refine RunsTo.need ?_
    | with_reducible refine RunsTo.next ?_
    | with_reducible exact Runs.refl _
    | with_reducible assumption
    | exact Eq.refl true
    | exact fun h => h
    | dsimp only
    | with_reducible apply Runs.comp (State.reselect_runs ..))

theorem execFtHoldoverEntry_runs (s : State) :
    RunsTo [.ft] s (execFtHoldoverEntry s) := by
  unfold execFtHoldoverEntry
  repeat' (first
    | with_reducible refine RunsTo.need ?_
    | with_reducible refine RunsTo.next ?_
    | with_reducible exact Runs.refl _
    | with_reducible assumption
    | exact Eq.refl true
    | exact fun h => h
    | dsimp only
    | with_reducible apply Runs.comp (State.holdover_runs ..))

theorem execFtRefLoss_runs (s : State) :
    RunsTo [.ft] s (execFtRefLoss s) := by
  unfold execFtRefLoss
  repeat' (first
    | with_reducible refine RunsTo.need ?_
    | with_reducible refine RunsTo.next ?_
    | with_reducible exact Runs.refl _
    | with_reducible assumption
    | exact Eq.refl true
    | exact fun h => h
    | dsimp only
    | with_reducible apply Runs.comp (State.setFt_runs ..))

theorem execOrefLoss_runs (s : State) :
    RunsTo [.pins, .links, .router, .steps, .obj, .flash] s (execOrefLoss s) := by
  unfold execOrefLoss
  repeat' (first
    | with_reducible refine RunsTo.need ?_
    | with_reducible refine RunsTo.next ?_
    | with_reducible exact Runs.refl _
    | with_reducible assumption
    | exact Eq.refl true
    | exact fun h => h
    | dsimp only
    | with_reducible apply Runs.comp (State.linkFall_runs ..)
    | with_reducible apply Runs.comp (State.setPins_runs ..)
    | with_reducible apply Runs.foldl
    | with_reducible apply Runs.foldl_fst
    | intro _)

end Sys2Proof.Machine
end

