-- ==== Sys2Proof/Laws/UrnMessagesRuns.lean ====
section
/-!
SUPPORT. What the operations of Machine/UrnMessages.lean may change, and that they keep the canonical form.
-/

namespace Sys2Proof.Machine

theorem State.urnServe_runs (ctx fuel : Nat) (s : State) : Runs [.urn, .router] s (State.urnServe ctx fuel s) := by
  induction fuel generalizing s with
  | zero => exact Runs.refl s
  | succ f ih =>
    unfold State.urnServe
    split
    · exact Runs.refl s
    · split
      · exact Runs.refl s
      · split
        · exact (State.urnStop_runs ..).mono rfl
        · exact Runs.refl s
        · rename_i e
          refine Runs.trans ?_ (ih _)
          refine Runs.comp (State.send_runs ..) rfl (Runs.comp (State.setUrn_runs _ _ (fun h => h)) rfl ?_)
          exact (State.urnAlloc_runs e).mono rfl

theorem State.urnRequestServe_runs (ctx : Nat) (s : State) :
    Runs [.urn, .router] s (State.urnRequestServe ctx s) := by
  unfold State.urnRequestServe
  repeat' (first
    | with_reducible exact Runs.refl _
    | with_reducible assumption
    | exact Eq.refl true
    | exact fun h => h
    | dsimp only
    | with_reducible apply Runs.comp (State.urnServe_runs ..))

theorem State.creditReq_runs (p : Packet) (s : State) :
    Runs [.urn, .router] s (State.creditReq p s) := by
  unfold State.creditReq
  repeat' (first
    | with_reducible exact Runs.refl _
    | with_reducible assumption
    | exact Eq.refl true
    | exact fun h => h
    | dsimp only
    | with_reducible apply Runs.comp (State.urnRequestServe_runs ..)
    | with_reducible apply Runs.comp (State.setUrn_runs ..)
    | with_reducible apply Runs.comp (State.taken_runs ..)
    | with_reducible apply Runs.foldl
    | with_reducible apply Runs.foldl_fst
    | intro _
    | split)

theorem State.urnGranted_runs (p : Packet) (s : State) :
    Runs [.urn, .router] s (State.urnGranted p s) := by
  unfold State.urnGranted
  repeat' (first
    | with_reducible exact Runs.refl _
    | with_reducible assumption
    | exact Eq.refl true
    | exact fun h => h
    | dsimp only
    | with_reducible apply Runs.comp (State.taken_runs ..)
    | with_reducible apply Runs.comp (State.setUrn_runs ..))

theorem State.urnDataIn_runs (p : Packet) (s : State) :
    Runs [.sync, .mem, .urn, .fab, .router, .steps, .obj] s (State.urnDataIn p s) := by
  unfold State.urnDataIn
  repeat' (first
    | with_reducible exact Runs.refl _
    | with_reducible assumption
    | exact Eq.refl true
    | exact fun h => h
    | dsimp only
    | with_reducible apply Runs.comp (State.taken_runs ..)
    | with_reducible apply Runs.comp (State.urnStore_runs ..)
    | with_reducible apply Runs.comp (State.setUrn_runs ..)
    | with_reducible apply Runs.comp (State.storeDev_runs ..)
    | with_reducible apply Runs.comp (State.signalWord_runs ..)
    | with_reducible apply Runs.foldl
    | with_reducible apply Runs.foldl_fst
    | intro _
    | split)

theorem State.coreSleep_runs (core : Nat) (s : State) :
    Runs [.cores, .sched, .urn, .router] s (State.coreSleep core s) := by
  unfold State.coreSleep
  repeat' (first
    | with_reducible exact Runs.refl _
    | with_reducible assumption
    | exact Eq.refl true
    | exact fun h => h
    | dsimp only
    | with_reducible apply Runs.comp (State.notice_runs ..)
    | with_reducible apply Runs.comp (State.setCore_runs ..)
    | with_reducible apply Runs.foldl
    | with_reducible apply Runs.foldl_fst
    | intro _
    | split)

theorem State.coreWake_runs (core : Nat) (s : State) :
    Runs [.cores] s (State.coreWake core s) := by
  unfold State.coreWake
  repeat' (first
    | with_reducible exact Runs.refl _
    | with_reducible assumption
    | exact Eq.refl true
    | exact fun h => h
    | dsimp only
    | with_reducible apply Runs.comp (State.modCore_runs ..)
    | with_reducible apply Runs.foldl
    | with_reducible apply Runs.foldl_fst
    | intro _
    | split)

theorem State.remoteSyncIn_runs (p : Packet) (s : State) :
    Runs [.sync, .fab, .router, .steps, .obj] s (State.remoteSyncIn p s) := by
  unfold State.remoteSyncIn
  repeat' (first
    | with_reducible exact Runs.refl _
    | with_reducible assumption
    | exact Eq.refl true
    | exact fun h => h
    | dsimp only
    | with_reducible apply Runs.comp (State.remoteSync_runs ..)
    | with_reducible apply Runs.comp (State.taken_runs ..))

theorem execCreditReq_runs (p : Packet) (s : State) :
    RunsTo [.urn, .router] s (execCreditReq p s) := by
  unfold execCreditReq
  repeat' (first
    | with_reducible refine RunsTo.need ?_
    | with_reducible refine RunsTo.next ?_
    | with_reducible exact Runs.refl _
    | with_reducible assumption
    | exact Eq.refl true
    | exact fun h => h
    | dsimp only
    | with_reducible apply powered_runs
    | with_reducible apply Runs.comp (State.creditReq_runs ..))

theorem execUrnRequestServe_runs (ctx : Nat) (s : State) :
    RunsTo [.urn, .router] s (execUrnRequestServe ctx s) := by
  unfold execUrnRequestServe
  repeat' (first
    | with_reducible refine RunsTo.need ?_
    | with_reducible refine RunsTo.next ?_
    | with_reducible exact Runs.refl _
    | with_reducible assumption
    | exact Eq.refl true
    | exact fun h => h
    | dsimp only
    | with_reducible apply Runs.comp (State.urnRequestServe_runs ..))

theorem execUrnGrant_runs (p : Packet) (s : State) :
    RunsTo [.urn, .router] s (execUrnGrant p s) := by
  unfold execUrnGrant
  repeat' (first
    | with_reducible refine RunsTo.need ?_
    | with_reducible refine RunsTo.next ?_
    | with_reducible exact Runs.refl _
    | with_reducible assumption
    | exact Eq.refl true
    | exact fun h => h
    | dsimp only
    | with_reducible apply powered_runs
    | with_reducible apply Runs.comp (State.urnGranted_runs ..))

theorem execUrnData_runs (p : Packet) (s : State) :
    RunsTo [.sync, .mem, .urn, .fab, .router, .steps, .obj] s (execUrnData p s) := by
  unfold execUrnData
  repeat' (first
    | with_reducible refine RunsTo.need ?_
    | with_reducible refine RunsTo.next ?_
    | with_reducible exact Runs.refl _
    | with_reducible assumption
    | exact Eq.refl true
    | exact fun h => h
    | dsimp only
    | with_reducible apply powered_runs
    | with_reducible apply Runs.comp (State.urnDataIn_runs ..))

theorem execRemoteSyncReceive_runs (p : Packet) (s : State) :
    RunsTo [.sync, .fab, .router, .steps, .obj] s (execRemoteSyncReceive p s) := by
  unfold execRemoteSyncReceive
  repeat' (first
    | with_reducible refine RunsTo.need ?_
    | with_reducible refine RunsTo.next ?_
    | with_reducible exact Runs.refl _
    | with_reducible assumption
    | exact Eq.refl true
    | exact fun h => h
    | dsimp only
    | with_reducible apply powered_runs
    | with_reducible apply Runs.comp (State.remoteSyncIn_runs ..))

theorem execCoreSleep_runs (core : Nat) (s : State) :
    RunsTo [.cores, .sched, .urn, .router] s (execCoreSleep core s) := by
  unfold execCoreSleep
  repeat' (first
    | with_reducible refine RunsTo.need ?_
    | with_reducible refine RunsTo.next ?_
    | with_reducible exact Runs.refl _
    | with_reducible assumption
    | exact Eq.refl true
    | exact fun h => h
    | dsimp only
    | with_reducible apply powered_runs
    | with_reducible apply Runs.comp (State.coreSleep_runs ..))

theorem execCoreWake_runs (core : Nat) (s : State) :
    RunsTo [.cores] s (execCoreWake core s) := by
  unfold execCoreWake
  repeat' (first
    | with_reducible refine RunsTo.need ?_
    | with_reducible refine RunsTo.next ?_
    | with_reducible exact Runs.refl _
    | with_reducible assumption
    | exact Eq.refl true
    | exact fun h => h
    | dsimp only
    | with_reducible apply powered_runs
    | with_reducible apply Runs.comp (State.coreWake_runs ..))

end Sys2Proof.Machine
end

