-- ==== Sys2Proof/Laws/FirmwareRuns.lean ====
section
/-!
SUPPORT. What the operations of Machine/Firmware.lean may change, and that they keep the canonical form.
-/

namespace Sys2Proof.Machine

theorem Caddy.boot_wf (c : Caddy) (h : c.wf = true) : c.boot.wf = true := by
  unfold Caddy.boot
  repeat' split
  all_goals exact h

theorem Caddy.raiseMin_sessions (c : Caddy) : c.raiseMin.sessions = c.sessions := by
  unfold Caddy.raiseMin
  split <;> rfl

theorem Caddy.wf_sessions {x y : Caddy} (h : x.wf = true) (e : y.sessions = x.sessions) : y.wf = true := by
  unfold Caddy.wf at h ⊢
  rw [e]
  exact h

theorem State.bootDone_runs (s : State) :
    Runs [.caddy] s (State.bootDone s) := by
  unfold State.bootDone
  repeat' (first
    | with_reducible exact Runs.refl _
    | with_reducible assumption
    | exact Eq.refl true
    | exact fun h => h
    | exact Caddy.boot_wf _
    | dsimp only
    | with_reducible apply Runs.comp (State.setCaddy_runs ..)
    | with_reducible apply Runs.foldl
    | with_reducible apply Runs.foldl_fst
    | intro _
    | split)

end Sys2Proof.Machine
end

