-- ==== Sys2Proof/Laws/KettleRuns.lean ====
section
/-!
SUPPORT. What the operations of Machine/Kettle.lean may change, and that they keep the canonical form.
-/

namespace Sys2Proof.Machine

theorem State.setEng_runs (s : State) (d : Nat) :
    Runs [.kettle, .cores] s (State.setEng s d) := by
  unfold State.setEng
  repeat' (first
    | with_reducible exact Runs.refl _
    | with_reducible assumption
    | exact Eq.refl true
    | exact fun h => h
    | dsimp only
    | with_reducible apply Runs.comp (State.assign_runs ..)
    | with_reducible apply Runs.comp (State.modDie_runs ..)
    | with_reducible apply Runs.foldl
    | with_reducible apply Runs.foldl_fst
    | intro _
    | split)

theorem State.retarget_runs (s : State) (d : Nat) :
    Runs [.kettle, .cores] s (State.retarget s d) := by
  unfold State.retarget
  repeat' (first
    | with_reducible exact Runs.refl _
    | with_reducible assumption
    | exact Eq.refl true
    | exact fun h => h
    | dsimp only
    | with_reducible apply Runs.comp (State.setEng_runs ..)
    | with_reducible apply Runs.comp (State.modDie_runs ..))

theorem State.retargetAll_runs (s : State) :
    Runs [.kettle, .cores] s (State.retargetAll s) := by
  unfold State.retargetAll
  repeat' (first
    | with_reducible exact Runs.refl _
    | with_reducible assumption
    | exact Eq.refl true
    | exact fun h => h
    | dsimp only
    | with_reducible apply Runs.comp (State.retarget_runs ..)
    | with_reducible apply Runs.foldl
    | with_reducible apply Runs.foldl_fst
    | intro _)

theorem State.noteFloor_runs (s : State) :
    Runs [.kettle] s (State.noteFloor s) := by
  unfold State.noteFloor
  repeat' (first
    | with_reducible exact Runs.refl _
    | with_reducible assumption
    | exact Eq.refl true
    | exact fun h => h
    | dsimp only
    | with_reducible apply Runs.comp (State.setKettle_runs ..)
    | with_reducible apply Runs.foldl
    | with_reducible apply Runs.foldl_fst
    | intro _
    | split)

theorem State.checkFloor_runs (s : State) :
    Runs [.kettle, .router, .host, .out] s (State.checkFloor s) := by
  unfold State.checkFloor
  repeat' (first
    | with_reducible exact Runs.refl _
    | with_reducible assumption
    | exact Eq.refl true
    | exact fun h => h
    | dsimp only
    | with_reducible apply Runs.comp (State.alert_runs ..)
    | with_reducible apply Runs.comp (State.modDie_runs ..)
    | with_reducible apply Runs.comp (State.setKettle_runs ..)
    | with_reducible apply Runs.foldl
    | with_reducible apply Runs.foldl_fst
    | intro _
    | split)

theorem State.overpower_runs (s : State) :
    Runs [.kettle, .cores] s (State.overpower s) := by
  unfold State.overpower
  repeat' (first
    | with_reducible exact Runs.refl _
    | with_reducible assumption
    | exact Eq.refl true
    | exact fun h => h
    | dsimp only
    | with_reducible apply Runs.comp (State.setKettle_runs ..)
    | with_reducible apply Runs.comp (State.retargetAll_runs ..)
    | with_reducible apply Runs.comp (State.modDie_runs ..)
    | with_reducible apply Runs.foldl
    | with_reducible apply Runs.foldl_fst
    | intro _
    | split)

theorem State.noteEval_runs (s : State) :
    Runs [.kettle] s (State.noteEval s) := by
  unfold State.noteEval
  repeat' (first
    | with_reducible exact Runs.refl _
    | with_reducible assumption
    | exact Eq.refl true
    | exact fun h => h
    | dsimp only
    | with_reducible apply Runs.comp (State.setKettle_runs ..))

theorem State.noteBraked_runs (s : State) :
    Runs [.kettle] s (State.noteBraked s) := by
  unfold State.noteBraked
  repeat' (first
    | with_reducible exact Runs.refl _
    | with_reducible assumption
    | exact Eq.refl true
    | exact fun h => h
    | dsimp only
    | with_reducible apply Runs.comp (State.setKettle_runs ..)
    | with_reducible apply Runs.foldl
    | with_reducible apply Runs.foldl_fst
    | intro _
    | split)

theorem State.noteLow_runs (s : State) (d : Nat) (b : ℚ) :
    Runs [.kettle] s (State.noteLow s d b) := by
  unfold State.noteLow
  repeat' (first
    | with_reducible exact Runs.refl _
    | with_reducible assumption
    | exact Eq.refl true
    | exact fun h => h
    | dsimp only
    | with_reducible apply Runs.comp (State.modDie_runs ..))

theorem State.powerEstimate_runs (a : Activity) (s : State) :
    Runs [.kettle, .cores, .router, .host, .out] s (State.powerEstimate a s) := by
  unfold State.powerEstimate
  repeat' (first
    | with_reducible exact Runs.refl _
    | with_reducible assumption
    | exact Eq.refl true
    | exact fun h => h
    | dsimp only
    | with_reducible apply Runs.comp (State.modDie_runs ..)
    | with_reducible apply Runs.comp (State.setKettle_runs ..)
    | with_reducible apply Runs.comp (State.noteLow_runs ..)
    | with_reducible apply Runs.comp (State.noteBraked_runs ..)
    | with_reducible apply Runs.comp (State.noteEval_runs ..)
    | with_reducible apply Runs.comp (State.checkFloor_runs ..)
    | with_reducible apply Runs.comp (State.noteFloor_runs ..)
    | with_reducible apply Runs.comp (State.overpower_runs ..)
    | with_reducible apply Runs.foldl
    | with_reducible apply Runs.foldl_fst
    | intro _
    | split)

theorem State.calibrate_runs (measured : Nat) (rails : List Nat) (s : State) :
    Runs [.kettle, .router, .host, .out] s (State.calibrate measured rails s) := by
  unfold State.calibrate
  repeat' (first
    | with_reducible exact Runs.refl _
    | with_reducible assumption
    | exact Eq.refl true
    | exact fun h => h
    | dsimp only
    | with_reducible apply Runs.comp (State.setKettle_runs ..)
    | with_reducible apply Runs.comp (State.alert_runs ..)
    | with_reducible apply Runs.comp (State.checkFloor_runs ..)
    | with_reducible apply Runs.foldl
    | with_reducible apply Runs.foldl_fst
    | intro _
    | split)

theorem State.phaseEnergy_runs (s : State) :
    Runs [.kettle] s (State.phaseEnergy s) := by
  unfold State.phaseEnergy
  repeat' (first
    | with_reducible exact Runs.refl _
    | with_reducible assumption
    | exact Eq.refl true
    | exact fun h => h
    | dsimp only
    | with_reducible apply Runs.comp (State.setKettle_runs ..)
    | with_reducible apply Runs.comp (State.modDie_runs ..)
    | with_reducible apply Runs.foldl
    | with_reducible apply Runs.foldl_fst
    | intro _
    | split)

theorem State.droopTest_runs (s : State) (d : Nat) :
    Runs [.kettle] s (State.droopTest s d) := by
  unfold State.droopTest
  repeat' (first
    | with_reducible exact Runs.refl _
    | with_reducible assumption
    | exact Eq.refl true
    | exact fun h => h
    | dsimp only
    | with_reducible apply Runs.comp (State.setDie_runs ..)
    | with_reducible apply Runs.foldl
    | with_reducible apply Runs.foldl_fst
    | intro _
    | split)

theorem State.budgetState_runs (s : State) (d : Nat) (e : ℚ) (b : ℚ) :
    Runs [.kettle] s (State.budgetState s d e b) := by
  unfold State.budgetState
  repeat' (first
    | with_reducible exact Runs.refl _
    | with_reducible assumption
    | exact Eq.refl true
    | exact fun h => h
    | dsimp only
    | with_reducible apply Runs.comp (State.setDie_runs ..)
    | with_reducible apply Runs.foldl
    | with_reducible apply Runs.foldl_fst
    | intro _
    | split)

theorem State.releaseLevel_runs (s : State) (d : Nat) (e : ℚ) (b : ℚ) :
    Runs [.kettle] s (State.releaseLevel s d e b) := by
  unfold State.releaseLevel
  repeat' (first
    | with_reducible exact Runs.refl _
    | with_reducible assumption
    | exact Eq.refl true
    | exact fun h => h
    | dsimp only
    | with_reducible apply Runs.comp (State.setDie_runs ..)
    | with_reducible apply Runs.foldl
    | with_reducible apply Runs.foldl_fst
    | intro _
    | split)

theorem State.control_runs (s : State) (d : Nat) (high : Bool) :
    Runs [.kettle] s (State.control s d high) := by
  unfold State.control
  repeat' (first
    | with_reducible exact Runs.refl _
    | with_reducible assumption
    | exact Eq.refl true
    | exact fun h => h
    | dsimp only
    | with_reducible apply Runs.comp (State.releaseLevel_runs ..)
    | with_reducible apply Runs.comp (State.setDie_runs ..)
    | with_reducible apply Runs.foldl
    | with_reducible apply Runs.foldl_fst
    | intro _
    | split)

theorem State.applyRaises_runs (s : State) :
    Runs [.ageing] s (State.applyRaises s) := by
  unfold State.applyRaises
  repeat' (first
    | with_reducible exact Runs.refl _
    | with_reducible assumption
    | exact Eq.refl true
    | exact fun h => h
    | dsimp only
    | with_reducible apply Runs.comp (State.modAge_runs ..)
    | with_reducible apply Runs.foldl
    | with_reducible apply Runs.foldl_fst
    | intro _
    | split)

theorem State.controlTick_runs (s : State) :
    Runs [.kettle, .cores, .ageing] s (State.controlTick s) := by
  unfold State.controlTick
  repeat' (first
    | with_reducible exact Runs.refl _
    | with_reducible assumption
    | exact Eq.refl true
    | exact fun h => h
    | dsimp only
    | with_reducible apply Runs.comp (State.applyRaises_runs ..)
    | with_reducible apply Runs.comp (State.setKettle_runs ..)
    | with_reducible apply Runs.comp (State.droopTest_runs ..)
    | with_reducible apply Runs.comp (State.budgetState_runs ..)
    | with_reducible apply Runs.comp (State.control_runs ..)
    | with_reducible apply Runs.comp (State.noteFloor_runs ..)
    | with_reducible apply Runs.comp (State.retargetAll_runs ..)
    | with_reducible apply Runs.comp (State.rematch_runs ..)
    | with_reducible apply Runs.foldl
    | with_reducible apply Runs.foldl_fst
    | intro _
    | split)

theorem State.opChange_runs (d : Nat) (s : State) :
    Runs [.kettle] s (State.opChange d s) := by
  unfold State.opChange
  repeat' (first
    | with_reducible exact Runs.refl _
    | with_reducible assumption
    | exact Eq.refl true
    | exact fun h => h
    | dsimp only
    | with_reducible apply Runs.comp (State.setDie_runs ..)
    | with_reducible apply Runs.comp (State.noteFloor_runs ..)
    | with_reducible apply Runs.comp (State.setKettle_runs ..)
    | with_reducible apply Runs.foldl
    | with_reducible apply Runs.foldl_fst
    | intro _
    | split)

theorem State.idleFrame_runs (s : State) :
    Runs [.kettle] s (State.idleFrame s) := by
  unfold State.idleFrame
  repeat' (first
    | with_reducible exact Runs.refl _
    | with_reducible assumption
    | exact Eq.refl true
    | exact fun h => h
    | dsimp only
    | with_reducible apply Runs.comp (State.setKettle_runs ..)
    | with_reducible apply Runs.comp (State.noteFloor_runs ..)
    | with_reducible apply Runs.comp (State.modDie_runs ..)
    | with_reducible apply Runs.foldl
    | with_reducible apply Runs.foldl_fst
    | intro _
    | split)

theorem State.quantumStart_runs (core : Nat) (s : State) :
    Runs [.cores] s (State.quantumStart core s) := by
  unfold State.quantumStart
  repeat' (first
    | with_reducible exact Runs.refl _
    | with_reducible assumption
    | exact Eq.refl true
    | exact fun h => h
    | dsimp only
    | with_reducible apply Runs.comp (State.modCore_runs ..)
    | with_reducible apply Runs.foldl
    | with_reducible apply Runs.foldl_fst
    | intro _
    | split)

theorem State.quantumEnd_runs (core : Nat) (s : State) :
    Runs [.cores] s (State.quantumEnd core s) := by
  unfold State.quantumEnd
  repeat' (first
    | with_reducible exact Runs.refl _
    | with_reducible assumption
    | exact Eq.refl true
    | exact fun h => h
    | dsimp only
    | with_reducible apply Runs.comp (State.modCore_runs ..))

theorem State.probeStart_runs (s : State) :
    Runs [.kettle] s (State.probeStart s) := by
  unfold State.probeStart
  repeat' (first
    | with_reducible exact Runs.refl _
    | with_reducible assumption
    | exact Eq.refl true
    | exact fun h => h
    | dsimp only
    | with_reducible apply Runs.comp (State.rematch_runs ..)
    | with_reducible apply Runs.comp (State.setKettle_runs ..)
    | with_reducible apply Runs.foldl
    | with_reducible apply Runs.foldl_fst
    | intro _
    | split)

theorem State.probeEnd_runs (s : State) :
    Runs [.kettle] s (State.probeEnd s) := by
  unfold State.probeEnd
  repeat' (first
    | with_reducible exact Runs.refl _
    | with_reducible assumption
    | exact Eq.refl true
    | exact fun h => h
    | dsimp only
    | with_reducible apply Runs.comp (State.rematch_runs ..)
    | with_reducible apply Runs.comp (State.setKettle_runs ..)
    | with_reducible apply Runs.foldl
    | with_reducible apply Runs.foldl_fst
    | intro _
    | split)

theorem State.droopDetect_runs (x : Supply) (s : State) :
    Runs [.kettle, .obj] s (State.droopDetect x s) := by
  unfold State.droopDetect
  repeat' (first
    | with_reducible exact Runs.refl _
    | with_reducible assumption
    | exact Eq.refl true
    | exact fun h => h
    | dsimp only
    | with_reducible apply Runs.comp (State.modDie_runs ..)
    | with_reducible apply Runs.comp (State.droopTest_runs ..)
    | with_reducible apply Runs.comp (State.bump_runs ..)
    | with_reducible apply Runs.comp (State.setKettle_runs ..)
    | with_reducible apply Runs.foldl
    | with_reducible apply Runs.foldl_fst
    | intro _
    | split)

theorem State.droopEnd_runs (x : Supply) (cycles : Nat) (s : State) :
    Runs [.kettle] s (State.droopEnd x cycles s) := by
  unfold State.droopEnd
  repeat' (first
    | with_reducible exact Runs.refl _
    | with_reducible assumption
    | exact Eq.refl true
    | exact fun h => h
    | dsimp only
    | with_reducible apply Runs.comp (State.droopTest_runs ..)
    | with_reducible apply Runs.comp (State.setDie_runs ..)
    | with_reducible apply Runs.foldl
    | with_reducible apply Runs.foldl_fst
    | intro _
    | split)

theorem State.droopExpiry_runs (d : Nat) (s : State) :
    Runs [.kettle] s (State.droopExpiry d s) := by
  unfold State.droopExpiry
  repeat' (first
    | with_reducible exact Runs.refl _
    | with_reducible assumption
    | exact Eq.refl true
    | exact fun h => h
    | dsimp only
    | with_reducible apply Runs.comp (State.droopTest_runs ..)
    | with_reducible apply Runs.comp (State.modDie_runs ..)
    | with_reducible apply Runs.foldl
    | with_reducible apply Runs.foldl_fst
    | intro _
    | split)

theorem State.brakeOn_runs (s : State) :
    Runs [.pins, .kettle, .cores] s (State.brakeOn s) := by
  unfold State.brakeOn
  repeat' (first
    | with_reducible exact Runs.refl _
    | with_reducible assumption
    | exact Eq.refl true
    | exact fun h => h
    | dsimp only
    | with_reducible apply Runs.comp (State.setPins_runs ..)
    | with_reducible apply Runs.comp (State.setKettle_runs ..)
    | with_reducible apply Runs.comp (State.modDie_runs ..)
    | with_reducible apply Runs.comp (State.retargetAll_runs ..)
    | with_reducible apply Runs.foldl
    | with_reducible apply Runs.foldl_fst
    | intro _
    | split)

theorem State.brakeOff_runs (s : State) :
    Runs [.pins, .kettle, .cores] s (State.brakeOff s) := by
  unfold State.brakeOff
  repeat' (first
    | with_reducible exact Runs.refl _
    | with_reducible assumption
    | exact Eq.refl true
    | exact fun h => h
    | dsimp only
    | with_reducible apply Runs.comp (State.setPins_runs ..)
    | with_reducible apply Runs.comp (State.setKettle_runs ..)
    | with_reducible apply Runs.comp (State.modDie_runs ..)
    | with_reducible apply Runs.comp (State.retargetAll_runs ..)
    | with_reducible apply Runs.foldl
    | with_reducible apply Runs.foldl_fst
    | intro _
    | split)

theorem execPowerEstimate_runs (a : Activity) (s : State) :
    RunsTo [.kettle, .cores, .router, .host, .out] s (execPowerEstimate a s) := by
  unfold execPowerEstimate
  repeat' (first
    | with_reducible refine RunsTo.need ?_
    | with_reducible refine RunsTo.next ?_
    | with_reducible exact Runs.refl _
    | with_reducible assumption
    | exact Eq.refl true
    | exact fun h => h
    | dsimp only
    | with_reducible apply Runs.comp (State.powerEstimate_runs ..))

theorem execCalibration_runs (measured : Nat) (rails : List Nat) (s : State) :
    RunsTo [.kettle, .router, .host, .out] s (execCalibration measured rails s) := by
  unfold execCalibration
  repeat' (first
    | with_reducible refine RunsTo.need ?_
    | with_reducible refine RunsTo.next ?_
    | with_reducible exact Runs.refl _
    | with_reducible assumption
    | exact Eq.refl true
    | exact fun h => h
    | dsimp only
    | with_reducible apply Runs.comp (State.calibrate_runs ..))

theorem execPhaseEnergyUpdate_runs (s : State) :
    RunsTo [.kettle] s (execPhaseEnergyUpdate s) := by
  unfold execPhaseEnergyUpdate
  repeat' (first
    | with_reducible refine RunsTo.need ?_
    | with_reducible refine RunsTo.next ?_
    | with_reducible exact Runs.refl _
    | with_reducible assumption
    | exact Eq.refl true
    | exact fun h => h
    | dsimp only
    | with_reducible apply Runs.comp (State.phaseEnergy_runs ..))

theorem execControlTick_runs (s : State) :
    RunsTo [.kettle, .cores, .ageing] s (execControlTick s) := by
  unfold execControlTick
  repeat' (first
    | with_reducible refine RunsTo.need ?_
    | with_reducible refine RunsTo.next ?_
    | with_reducible exact Runs.refl _
    | with_reducible assumption
    | exact Eq.refl true
    | exact fun h => h
    | dsimp only
    | with_reducible apply Runs.comp (State.controlTick_runs ..))

theorem execOpChangeDone_runs (die : Nat) (s : State) :
    RunsTo [.kettle] s (execOpChangeDone die s) := by
  unfold execOpChangeDone
  repeat' (first
    | with_reducible refine RunsTo.need ?_
    | with_reducible refine RunsTo.next ?_
    | with_reducible exact Runs.refl _
    | with_reducible assumption
    | exact Eq.refl true
    | exact fun h => h
    | dsimp only
    | with_reducible apply Runs.comp (State.opChange_runs ..))

theorem execForcedIdleFrame_runs (s : State) :
    RunsTo [.kettle] s (execForcedIdleFrame s) := by
  unfold execForcedIdleFrame
  repeat' (first
    | with_reducible refine RunsTo.need ?_
    | with_reducible refine RunsTo.next ?_
    | with_reducible exact Runs.refl _
    | with_reducible assumption
    | exact Eq.refl true
    | exact fun h => h
    | dsimp only
    | with_reducible apply Runs.comp (State.idleFrame_runs ..))

theorem execForcedIdleQuantumStart_runs (core : Nat) (s : State) :
    RunsTo [.cores] s (execForcedIdleQuantumStart core s) := by
  unfold execForcedIdleQuantumStart
  repeat' (first
    | with_reducible refine RunsTo.need ?_
    | with_reducible refine RunsTo.next ?_
    | with_reducible exact Runs.refl _
    | with_reducible assumption
    | exact Eq.refl true
    | exact fun h => h
    | dsimp only
    | with_reducible apply powered_runs
    | with_reducible apply Runs.comp (State.quantumStart_runs ..))

theorem execForcedIdleQuantumEnd_runs (core : Nat) (s : State) :
    RunsTo [.cores] s (execForcedIdleQuantumEnd core s) := by
  unfold execForcedIdleQuantumEnd
  repeat' (first
    | with_reducible refine RunsTo.need ?_
    | with_reducible refine RunsTo.next ?_
    | with_reducible exact Runs.refl _
    | with_reducible assumption
    | exact Eq.refl true
    | exact fun h => h
    | dsimp only
    | with_reducible apply powered_runs
    | with_reducible apply Runs.comp (State.quantumEnd_runs ..))

theorem execPaceProbeStart_runs (s : State) :
    RunsTo [.kettle] s (execPaceProbeStart s) := by
  unfold execPaceProbeStart
  repeat' (first
    | with_reducible refine RunsTo.need ?_
    | with_reducible refine RunsTo.next ?_
    | with_reducible exact Runs.refl _
    | with_reducible assumption
    | exact Eq.refl true
    | exact fun h => h
    | dsimp only
    | with_reducible apply Runs.comp (State.probeStart_runs ..))

theorem execPaceProbeEnd_runs (s : State) :
    RunsTo [.kettle] s (execPaceProbeEnd s) := by
  unfold execPaceProbeEnd
  repeat' (first
    | with_reducible refine RunsTo.need ?_
    | with_reducible refine RunsTo.next ?_
    | with_reducible exact Runs.refl _
    | with_reducible assumption
    | exact Eq.refl true
    | exact fun h => h
    | dsimp only
    | with_reducible apply Runs.comp (State.probeEnd_runs ..))

theorem execDroopDetect_runs (supply : Supply) (s : State) :
    RunsTo [.kettle, .obj] s (execDroopDetect supply s) := by
  unfold execDroopDetect
  repeat' (first
    | with_reducible refine RunsTo.need ?_
    | with_reducible refine RunsTo.next ?_
    | with_reducible exact Runs.refl _
    | with_reducible assumption
    | exact Eq.refl true
    | exact fun h => h
    | dsimp only
    | with_reducible apply Runs.comp (State.droopDetect_runs ..))

theorem execDroopStretchEnd_runs (supply : Supply) (cycles : Nat) (s : State) :
    RunsTo [.kettle] s (execDroopStretchEnd supply cycles s) := by
  unfold execDroopStretchEnd
  repeat' (first
    | with_reducible refine RunsTo.need ?_
    | with_reducible refine RunsTo.next ?_
    | with_reducible exact Runs.refl _
    | with_reducible assumption
    | exact Eq.refl true
    | exact fun h => h
    | dsimp only
    | with_reducible apply Runs.comp (State.droopEnd_runs ..))

theorem execDroopLimitExpiry_runs (die : Nat) (s : State) :
    RunsTo [.kettle] s (execDroopLimitExpiry die s) := by
  unfold execDroopLimitExpiry
  repeat' (first
    | with_reducible refine RunsTo.need ?_
    | with_reducible refine RunsTo.next ?_
    | with_reducible exact Runs.refl _
    | with_reducible assumption
    | exact Eq.refl true
    | exact fun h => h
    | dsimp only
    | with_reducible apply Runs.comp (State.droopExpiry_runs ..))

theorem execPowerBrakeAssert_runs (s : State) :
    RunsTo [.pins, .kettle, .cores] s (execPowerBrakeAssert s) := by
  unfold execPowerBrakeAssert
  repeat' (first
    | with_reducible refine RunsTo.need ?_
    | with_reducible refine RunsTo.next ?_
    | with_reducible exact Runs.refl _
    | with_reducible assumption
    | exact Eq.refl true
    | exact fun h => h
    | dsimp only
    | with_reducible apply Runs.comp (State.brakeOn_runs ..))

theorem execPowerBrakeDeassert_runs (s : State) :
    RunsTo [.pins, .kettle, .cores] s (execPowerBrakeDeassert s) := by
  unfold execPowerBrakeDeassert
  repeat' (first
    | with_reducible refine RunsTo.need ?_
    | with_reducible refine RunsTo.next ?_
    | with_reducible exact Runs.refl _
    | with_reducible assumption
    | exact Eq.refl true
    | exact fun h => h
    | dsimp only
    | with_reducible apply Runs.comp (State.brakeOff_runs ..))

end Sys2Proof.Machine
end

