-- ==== Sys2Proof/Laws/LinkFlowRuns.lean ====
section
/-!
SUPPORT. What the operations of Machine/LinkFlow.lean may change, and that they keep the canonical form.
-/

namespace Sys2Proof.Machine

theorem State.dataFlit_runs (l : Nat) (raw : List Byte) (fecOk : Bool) (s : State) :
    Runs [.links, .obj] s (State.dataFlit l raw fecOk s) := by
  unfold State.dataFlit
  repeat' (first
    | with_reducible exact Runs.refl _
    | with_reducible assumption
    | exact Eq.refl true
    | exact fun h => h
    | dsimp only
    | with_reducible apply State.flitIn_runs
    | with_reducible apply Runs.comp (State.modLink_runs ..)
    | with_reducible apply Runs.foldl
    | with_reducible apply Runs.foldl_fst
    | intro _)

theorem State.parityError_runs (l : Nat) (s : State) :
    Runs [.links, .obj, .flash, .free] s (State.parityError l s) := by
  unfold State.parityError
  repeat' (first
    | with_reducible exact Runs.refl _
    | with_reducible assumption
    | exact Eq.refl true
    | exact fun h => h
    | dsimp only
    | with_reducible apply Runs.comp (State.bump_runs ..)
    | with_reducible apply Runs.comp (State.covered_runs ..)
    | with_reducible apply Runs.comp (State.linkErr_runs ..)
    | with_reducible apply Runs.comp (State.setLink_runs ..)
    | with_reducible apply Runs.foldl
    | with_reducible apply Runs.foldl_fst
    | intro _
    | split)

theorem State.timeSend_runs (s : State) (l : Nat) (c : List Byte) :
    Runs [.ft, .links] s (State.timeSend s l c) := by
  unfold State.timeSend
  repeat' (first
    | with_reducible exact Runs.refl _
    | with_reducible assumption
    | exact Eq.refl true
    | exact fun h => h
    | dsimp only
    | with_reducible apply Runs.comp (State.timeLeft_runs ..)
    | with_reducible apply Runs.comp (State.modLink_runs ..)
    | with_reducible apply Runs.foldl
    | with_reducible apply Runs.foldl_fst
    | intro _
    | split)

theorem State.loopIn_runs (l : Nat) (raw : List Byte) (s : State) :
    Runs [.ft, .links, .router, .steps, .obj, .flash, .free] s (State.loopIn l raw s) := by
  unfold State.loopIn
  repeat' (first
    | with_reducible exact Runs.refl _
    | with_reducible assumption
    | exact Eq.refl true
    | exact fun h => h
    | exact Runs.refl _
    | refine Runs.trans ?_ (State.flitCore_runs _ _ _ _ _ _ ?_ rfl)
    | refine Runs.trans ?_ (State.laneDo_runs _ _ _ _ _ ?_ rfl)
    | dsimp only
    | with_reducible apply State.flitCore_runs
    | with_reducible apply State.laneDo_runs
    | with_reducible apply Runs.comp (State.identIn_runs ..)
    | with_reducible apply Runs.comp (State.widthSetIn_runs ..)
    | with_reducible apply Runs.comp (State.spareReqIn_runs ..)
    | with_reducible apply Runs.comp (State.spareAckIn_runs ..)
    | with_reducible apply Runs.comp (State.timeIn_runs ..)
    | with_reducible apply Runs.foldl
    | with_reducible apply Runs.foldl_fst
    | intro _)

theorem State.flitOut_runs (l : Nat) (s : State) :
    Runs [.ft, .links] s (State.flitOut l s) := by
  unfold State.flitOut
  repeat' (first
    | with_reducible exact Runs.refl _
    | with_reducible assumption
    | exact Eq.refl true
    | exact fun h => h
    | dsimp only
    | with_reducible apply Runs.comp (State.timeSend_runs ..)
    | with_reducible apply Runs.comp (State.modLink_runs ..)
    | with_reducible apply Runs.comp (State.setLink_runs ..)
    | with_reducible apply Runs.foldl
    | with_reducible apply Runs.foldl_fst
    | intro _
    | split)

theorem State.flitTransmit_runs (l : Nat) (s : State) :
    Runs [.ft, .links, .router, .steps, .obj, .flash, .free] s (State.flitTransmit l s) := by
  unfold State.flitTransmit
  repeat' (first
    | with_reducible exact Runs.refl _
    | with_reducible assumption
    | exact Eq.refl true
    | exact fun h => h
    | dsimp only
    | with_reducible apply Runs.comp (State.flitOut_runs ..)
    | with_reducible apply Runs.comp (State.loopIn_runs ..)
    | with_reducible apply Runs.foldl
    | with_reducible apply Runs.foldl_fst
    | intro _
    | split)

theorem execDataFlitReceive_runs (link : Nat) (raw : List Byte) (fecOk : Bool) (s : State) :
    RunsTo [.links, .obj] s (execDataFlitReceive link raw fecOk s) := by
  unfold execDataFlitReceive
  repeat' (first
    | with_reducible refine RunsTo.need ?_
    | with_reducible refine RunsTo.next ?_
    | with_reducible exact Runs.refl _
    | with_reducible assumption
    | exact Eq.refl true
    | exact fun h => h
    | dsimp only
    | with_reducible apply Runs.comp (State.dataFlit_runs ..))

theorem execIdleFlitReceive_runs (link : Nat) (raw : List Byte) (s : State) :
    RunsTo [.links, .obj] s (execIdleFlitReceive link raw s) := by
  unfold execIdleFlitReceive
  repeat' (first
    | with_reducible refine RunsTo.need ?_
    | with_reducible refine RunsTo.next ?_
    | with_reducible exact Runs.refl _
    | with_reducible assumption
    | exact Eq.refl true
    | exact fun h => h
    | exact Runs.refl _
    | dsimp only
    | with_reducible apply State.flitIn_runs
    | with_reducible apply Runs.foldl
    | with_reducible apply Runs.foldl_fst
    | intro _)

theorem execNak_runs (link : Nat) (raw : List Byte) (s : State) :
    RunsTo [.links, .obj] s (execNak link raw s) := by
  unfold execNak
  repeat' (first
    | with_reducible refine RunsTo.need ?_
    | with_reducible refine RunsTo.next ?_
    | with_reducible exact Runs.refl _
    | with_reducible assumption
    | exact Eq.refl true
    | exact fun h => h
    | dsimp only
    | with_reducible apply State.flitIn_runs
    | with_reducible apply Runs.comp (State.modLink_runs ..)
    | with_reducible apply Runs.foldl
    | with_reducible apply Runs.foldl_fst
    | intro _)

theorem execResend_runs (link : Nat) (raw : List Byte) (s : State) :
    RunsTo [.links, .obj] s (execResend link raw s) := by
  unfold execResend
  repeat' (first
    | with_reducible refine RunsTo.need ?_
    | with_reducible refine RunsTo.next ?_
    | with_reducible exact Runs.refl _
    | with_reducible assumption
    | exact Eq.refl true
    | exact fun h => h
    | dsimp only
    | with_reducible apply State.flitIn_runs
    | with_reducible apply Runs.comp (State.modLink_runs ..)
    | with_reducible apply Runs.foldl
    | with_reducible apply Runs.foldl_fst
    | intro _)

theorem execNakRepeat_runs (link : Nat) (s : State) :
    RunsTo [.links] s (execNakRepeat link s) := by
  unfold execNakRepeat
  repeat' (first
    | with_reducible refine RunsTo.need ?_
    | with_reducible refine RunsTo.next ?_
    | with_reducible exact Runs.refl _
    | with_reducible assumption
    | exact Eq.refl true
    | exact fun h => h
    | dsimp only
    | with_reducible apply Runs.comp (State.modLink_runs ..))

theorem execRouterParityError_runs (link : Nat) (s : State) :
    RunsTo [.links, .obj, .flash, .free] s (execRouterParityError link s) := by
  unfold execRouterParityError
  repeat' (first
    | with_reducible refine RunsTo.need ?_
    | with_reducible refine RunsTo.next ?_
    | with_reducible exact Runs.refl _
    | with_reducible assumption
    | exact Eq.refl true
    | exact fun h => h
    | dsimp only
    | with_reducible apply Runs.comp (State.parityError_runs ..))

theorem execFlitTransmit_runs (link : Nat) (s : State) :
    RunsTo [.ft, .links, .router, .steps, .obj, .flash, .free] s (execFlitTransmit link s) := by
  unfold execFlitTransmit
  repeat' (first
    | with_reducible refine RunsTo.need ?_
    | with_reducible refine RunsTo.next ?_
    | with_reducible exact Runs.refl _
    | with_reducible assumption
    | exact Eq.refl true
    | exact fun h => h
    | dsimp only
    | with_reducible apply Runs.comp (State.flitTransmit_runs ..))

end Sys2Proof.Machine
end

