-- ==== Sys2Proof/Laws/ReductionRuns.lean ====
section
/-!
SUPPORT. What the operations of Machine/Reduction.lean may change, and that they keep the canonical form.
-/

namespace Sys2Proof.Machine

theorem some_runs {L : List Part} {s t : State} (h : some s = some t) : Runs L s t := by
  rw [Option.some.inj h]
  exact Runs.refl t

theorem State.redErr_runs' (s : State) (v : Nat) :
    Runs [.router, .steps, .red] s (if s.red.errLog ≠ 0 then s else s.setRed { s.red with errLog := v }) := by
  split
  · exact Runs.refl s
  · exact Runs.comp (State.setRed_runs s _ (fun h => h)) rfl (Runs.refl s)

theorem State.redErr_runs (s : State) (ctx cause group dev tag epoch : Nat) :
    Runs [.router, .steps, .red] s (s.redErr ctx cause group dev tag epoch) := by
  unfold State.redErr
  with_reducible exact Runs.comp (State.latch_runs ..) rfl (State.redErr_runs' s _)

theorem State.raise_runs (s : State) (ctx : Nat) (f : Flags) :
    Runs [.obj] s (State.raise s ctx f) := by
  unfold State.raise
  repeat' (first
    | with_reducible exact Runs.refl _
    | with_reducible assumption
    | exact Eq.refl true
    | exact fun h => h
    | dsimp only
    | with_reducible apply Runs.comp (State.orOv_runs ..)
    | with_reducible apply Runs.foldl
    | with_reducible apply Runs.foldl_fst
    | intro _
    | split)

theorem State.dropKey_runs (s : State) (k : RedKey) :
    Runs [.red] s (State.dropKey s k) := by
  unfold State.dropKey
  repeat' (first
    | with_reducible exact Runs.refl _
    | with_reducible assumption
    | exact Eq.refl true
    | exact fun h => h
    | dsimp only
    | with_reducible apply Runs.comp (State.setRed_runs ..))

theorem State.putKey_runs (s : State) (k : RedKey) :
    Runs [.red] s (State.putKey s k) := by
  unfold State.putKey
  repeat' (first
    | with_reducible exact Runs.refl _
    | with_reducible assumption
    | exact Eq.refl true
    | exact fun h => h
    | dsimp only
    | with_reducible apply Runs.comp (State.setRed_runs ..)
    | with_reducible apply Runs.foldl
    | with_reducible apply Runs.foldl_fst
    | intro _
    | split)

theorem State.giveBufs_runs (s : State) (k : RedKey) (bs : List Nat) :
    Runs [.urn] s (State.giveBufs s k bs) := by
  unfold State.giveBufs
  repeat' (first
    | with_reducible exact Runs.refl _
    | with_reducible assumption
    | exact Eq.refl true
    | exact fun h => h
    | dsimp only
    | with_reducible apply Runs.comp (State.redGive_runs ..)
    | with_reducible apply Runs.foldl
    | with_reducible apply Runs.foldl_fst
    | intro _)

theorem State.closeKey_runs (s : State) (k : RedKey) :
    Runs [.urn, .red] s (State.closeKey s k) := by
  unfold State.closeKey
  repeat' (first
    | with_reducible exact Runs.refl _
    | with_reducible assumption
    | exact Eq.refl true
    | exact fun h => h
    | dsimp only
    | with_reducible apply Runs.comp (State.modRedc_runs ..)
    | with_reducible apply Runs.comp (State.dropKey_runs ..)
    | with_reducible apply Runs.comp (State.giveBufs_runs ..))

theorem State.redSend_runs (s : State) (k : RedKey) (r : Ring) (n : Nat) (w : Wire) (contribs : Nat) (pace : Nat) :
    Runs [.router] s (State.redSend s k r n w contribs pace) := by
  unfold State.redSend
  repeat' (first
    | with_reducible exact Runs.refl _
    | with_reducible assumption
    | exact Eq.refl true
    | exact fun h => h
    | dsimp only
    | with_reducible apply Runs.comp (State.send_runs ..))

theorem State.storeSums_runs (s : State) (k : RedKey) (t : Tens) :
    Runs [.mem, .urn] s (State.storeSums s k t) := by
  unfold State.storeSums
  repeat' (first
    | with_reducible exact Runs.refl _
    | with_reducible assumption
    | exact Eq.refl true
    | exact fun h => h
    | dsimp only
    | with_reducible apply Runs.comp (State.urnStore_runs ..)
    | with_reducible apply Runs.comp (State.storeDev_runs ..)
    | with_reducible apply Runs.foldl
    | with_reducible apply Runs.foldl_fst
    | intro _
    | split)

theorem State.emitMeets_runs (s : State) (k : RedKey) (cs : List (Nat × Nat)) :
    Runs [.cores, .router, .steps] s (State.emitMeets s k cs) := by
  unfold State.emitMeets
  repeat' (first
    | with_reducible exact Runs.refl _
    | with_reducible assumption
    | exact Eq.refl true
    | exact fun h => h
    | dsimp only
    | with_reducible apply Runs.comp (State.modCore_runs ..)
    | with_reducible apply Runs.comp (State.latch_runs ..)
    | with_reducible apply Runs.foldl
    | with_reducible apply Runs.foldl_fst
    | intro _
    | split)

theorem State.deliverTo_runs (s : State) (k : RedKey) (t : Tens) :
    Runs [.cores, .mem, .urn, .router, .steps] s (State.deliverTo s k t) := by
  unfold State.deliverTo
  repeat' (first
    | with_reducible exact Runs.refl _
    | with_reducible assumption
    | exact Eq.refl true
    | exact fun h => h
    | dsimp only
    | with_reducible apply Runs.comp (State.emitMeets_runs ..)
    | with_reducible apply Runs.comp (State.storeSums_runs ..)
    | with_reducible apply Runs.foldl
    | with_reducible apply Runs.foldl_fst
    | intro _
    | split)

theorem State.redDeliver_runs (s : State) (k : RedKey) (p : Nat) :
    Runs [.cores, .sync, .mem, .urn, .fab, .router, .steps, .red, .obj] s (State.redDeliver s k p) := by
  unfold State.redDeliver
  repeat' (first
    | with_reducible exact Runs.refl _
    | with_reducible assumption
    | exact Eq.refl true
    | exact fun h => h
    | dsimp only
    | with_reducible apply Runs.comp (State.deliverTo_runs ..)
    | with_reducible apply Runs.comp (State.emitMeets_runs ..)
    | with_reducible apply Runs.comp (State.storeDev_runs ..)
    | with_reducible apply Runs.comp (State.redErr_runs ..)
    | with_reducible apply Runs.comp (State.signalWord_runs ..)
    | with_reducible apply Runs.foldl
    | with_reducible apply Runs.foldl_fst
    | intro _
    | split)

theorem State.redFinish_runs (s : State) (k : RedKey) (r : Ring) :
    Runs [.cores, .sync, .mem, .urn, .fab, .router, .steps, .red, .obj] s (State.redFinish s k r) := by
  unfold State.redFinish
  repeat' (first
    | with_reducible exact Runs.refl _
    | with_reducible assumption
    | exact Eq.refl true
    | exact fun h => h
    | dsimp only
    | with_reducible apply Runs.comp (State.putKey_runs ..)
    | with_reducible apply Runs.comp (State.closeKey_runs ..)
    | with_reducible apply Runs.comp (State.redDeliver_runs ..)
    | with_reducible apply Runs.comp (State.modRedc_runs ..)
    | with_reducible apply Runs.foldl
    | with_reducible apply Runs.foldl_fst
    | intro _
    | split)

theorem State.redJoin_runs (s : State) (k : RedKey) (r : Ring) (n : Nat) (i : Option (List Byte)) (l : Wire) (held : List Nat) :
    Runs [.cores, .sync, .mem, .urn, .fab, .router, .steps, .red, .obj] s (State.redJoin s k r n i l held) := by
  unfold State.redJoin
  repeat' (first
    | with_reducible exact Runs.refl _
    | with_reducible assumption
    | exact Eq.refl true
    | exact fun h => h
    | dsimp only
    | with_reducible apply Runs.comp (State.giveBufs_runs ..)
    | with_reducible apply Runs.comp (State.redFinish_runs ..)
    | with_reducible apply Runs.comp (State.raise_runs ..)
    | with_reducible apply Runs.comp (State.redSend_runs ..)
    | with_reducible apply Runs.foldl
    | with_reducible apply Runs.foldl_fst
    | intro _
    | split)

theorem State.redTry_runs (ctx : Nat) (g : Nat) (tag : Nat) (n : Nat) (s : State) :
    Runs [.cores, .sync, .mem, .urn, .fab, .router, .steps, .red, .obj] s (State.redTry ctx g tag n s) := by
  unfold State.redTry
  repeat' (first
    | with_reducible exact Runs.refl _
    | with_reducible assumption
    | exact Eq.refl true
    | exact fun h => h
    | dsimp only
    | with_reducible apply Runs.comp (State.redJoin_runs ..)
    | with_reducible apply Runs.foldl
    | with_reducible apply Runs.foldl_fst
    | intro _
    | split)

theorem State.tileFlags_runs (s : State) (core : Nat) (seq : Nat) (f : Flags) :
    Runs [.cores] s (State.tileFlags s core seq f) := by
  unfold State.tileFlags
  repeat' (first
    | with_reducible exact Runs.refl _
    | with_reducible assumption
    | exact Eq.refl true
    | exact fun h => h
    | dsimp only
    | with_reducible apply Runs.comp (State.modCore_runs ..)
    | with_reducible apply Runs.foldl
    | with_reducible apply Runs.foldl_fst
    | intro _
    | split)

theorem State.handOver_runs {s t : State} {core seq n : Nat} {a : Option (List Byte)}
    (h : s.handOver core seq n a = some t) : Runs [.cores, .sync, .mem, .urn, .fab, .router, .steps, .red, .obj] s t := by
  have flags : ∀ m f, Runs [.cores, .sync, .mem, .urn, .fab, .router, .steps, .red, .obj] s ((s.raise m f).tileFlags core seq f) := fun m f =>
    Runs.comp (State.tileFlags_runs ..) rfl ((State.raise_runs ..).mono rfl)
  have join : ∀ m f k r x y z, Runs [.cores, .sync, .mem, .urn, .fab, .router, .steps, .red, .obj] s (((s.raise m f).tileFlags core seq f).redJoin k r n x y z) :=
    fun m f k r x y z => Runs.comp (State.redJoin_runs ..) rfl (flags m f)
  unfold State.handOver at h
  dsimp only at h
  split at h
  · exact some_runs h
  · split at h
    · split at h
      · exact some_runs h
      · split at h
        · rw [← Option.some.inj h]
          exact join ..
        · split at h
          · rw [← Option.some.inj h]
            exact join ..
          · split at h
            · rw [← Option.some.inj h]
              exact join ..
            · split at h
              · exact some_runs h
              · obtain ⟨q, e, h⟩ := Option.map_eq_some_iff.mp h
                rw [← h]
                exact Runs.comp (State.putKey_runs ..) rfl (Runs.comp (State.redTake_runs e) rfl (flags _ _))
    · exact some_runs h

theorem State.drainEnd_runs (s : State) (core : Nat) (seq : Nat) :
    Runs [.cores, .red] s (State.drainEnd s core seq) := by
  unfold State.drainEnd
  repeat' (first
    | with_reducible exact Runs.refl _
    | with_reducible assumption
    | exact Eq.refl true
    | exact fun h => h
    | dsimp only
    | with_reducible apply Runs.comp (State.setRed_runs ..)
    | with_reducible apply Runs.comp (State.modCore_runs ..))

theorem State.drainFrom_runs (core seq fuel n : Nat) (s : State) :
    Runs [.cores, .sync, .mem, .urn, .fab, .router, .steps, .red, .obj] s (State.drainFrom core seq fuel n s) := by
  induction fuel generalizing n s with
  | zero => exact (State.drainEnd_runs ..).mono rfl
  | succ f ih =>
    unfold State.drainFrom
    split
    · rename_i e
      exact Runs.trans ((State.handOver_runs e).mono rfl) (ih _ _)
    · exact Runs.comp (State.setRed_runs _ _ (fun h => h)) rfl (Runs.refl _)

theorem State.acceptEmit_runs (core : Nat) (e : Entry) (s : State) :
    Runs [.cores, .sync, .mem, .urn, .fab, .router, .steps, .red, .obj, .tele] s (State.acceptEmit core e s) := by
  unfold State.acceptEmit
  repeat' (first
    | with_reducible exact Runs.refl _
    | with_reducible assumption
    | exact Eq.refl true
    | exact fun h => h
    | dsimp only
    | with_reducible apply Runs.comp (State.setCore_runs ..)
    | with_reducible apply Runs.comp (State.addTile_runs ..)
    | with_reducible apply Runs.comp (State.redErr_runs ..)
    | with_reducible apply Runs.comp (State.modStp_runs ..)
    | with_reducible apply Runs.comp (State.signalWord_runs ..)
    | with_reducible apply Runs.comp (State.drainEnd_runs ..)
    | with_reducible apply Runs.comp (State.drainFrom_runs ..)
    | with_reducible apply Runs.comp (State.putKey_runs ..)
    | with_reducible apply Runs.foldl
    | with_reducible apply Runs.foldl_fst
    | intro _
    | split)

theorem State.handoff_runs (s : State) :
    Runs [.cores, .sync, .mem, .urn, .fab, .router, .steps, .red, .obj] s (State.handoff s) := by
  unfold State.handoff
  repeat' (first
    | with_reducible exact Runs.refl _
    | with_reducible assumption
    | exact Eq.refl true
    | exact fun h => h
    | dsimp only
    | refine Runs.comp (State.handOver_runs (by assumption)) rfl ?_
    | with_reducible apply Runs.comp (State.drainFrom_runs ..)
    | with_reducible apply Runs.foldl
    | with_reducible apply Runs.foldl_fst
    | intro _
    | split)

theorem State.redProcess_runs {s t : State} {p : Packet} (h : s.redProcess p = some t) : Runs [.cores, .sync, .mem, .urn, .fab, .router, .steps, .red, .obj] s t := by
  unfold State.redProcess at h
  dsimp only at h
  split at h
  · rw [← Option.some.inj h]
    exact (State.bump_runs ..).mono rfl
  · split at h
    · rw [← Option.some.inj h]
      exact Runs.foldl (fun _ _ => (State.redTry_runs ..).mono rfl) _ ((State.putKey_runs ..).mono rfl)
    · split at h
      · rw [← Option.some.inj h]
        exact (State.redJoin_runs ..).mono rfl
      · split at h
        · obtain ⟨u, e, h⟩ := Option.map_eq_some_iff.mp h
          rw [← h]
          exact Runs.comp (State.drainFrom_runs ..) rfl ((State.handOver_runs e).mono rfl)
        · obtain ⟨q, e, h⟩ := Option.map_eq_some_iff.mp h
          rw [← h]
          exact Runs.comp (State.putKey_runs ..) rfl ((State.redTake_runs e).mono rfl)

theorem State.redHold_runs (s : State) (p : Packet) (until_ : Nat) :
    Runs [.urn, .red, .obj] s (State.redHold s p until_) := by
  unfold State.redHold
  repeat' (first
    | with_reducible exact Runs.refl _
    | with_reducible assumption
    | exact Eq.refl true
    | exact fun h => h
    | dsimp only
    | refine Runs.comp (State.redTakeShared_runs (by assumption)) rfl ?_
    | with_reducible apply Runs.comp (State.setRed_runs ..)
    | with_reducible apply Runs.comp (State.bump_runs ..)
    | with_reducible apply Runs.foldl
    | with_reducible apply Runs.foldl_fst
    | intro _
    | split)

theorem State.redTreat_runs {s t : State} {p : Packet} (h : s.redTreat p = some t) : Runs [.cores, .sync, .mem, .urn, .fab, .router, .steps, .red, .obj] s t := by
  unfold State.redTreat at h
  dsimp only at h
  repeat' split at h
  all_goals
    first
      | exact (State.redProcess_runs h).mono rfl
      | (rw [← Option.some.inj h]
         first
          | with_reducible exact Runs.comp (State.redErr_runs ..) rfl (Runs.refl _)
          | with_reducible exact Runs.comp (State.redHold_runs ..) rfl (Runs.refl _)
          | with_reducible exact Runs.comp (State.bump_runs ..) rfl (Runs.refl _))

theorem State.redTreat_getD_runs (s : State) (p : Packet) (n : Nat) :
    Runs [.cores, .sync, .mem, .urn, .fab, .router, .steps, .red, .obj] s ((s.redTreat p).getD (s.bump n)) := by
  cases e : s.redTreat p with
  | none => exact (State.bump_runs ..).mono rfl
  | some t => exact State.redTreat_runs e

theorem State.redResume_runs (s : State) (ctx until_ : Nat) : Runs [.cores, .sync, .mem, .urn, .fab, .router, .steps, .red, .obj] s (s.redResume ctx until_) := by
  unfold State.redResume
  dsimp only
  refine Runs.foldl (fun t h => ?_) _ (Runs.comp (State.setRed_runs _ _ (fun h => h)) rfl (Runs.refl _))
  exact Runs.comp (State.redTreat_getD_runs ..) rfl ((State.redGive_runs ..).mono rfl)

theorem State.redDiscardHeld_runs (s : State) (ctx : Nat) (until_ : Nat) :
    Runs [.urn, .red] s (State.redDiscardHeld s ctx until_) := by
  unfold State.redDiscardHeld
  repeat' (first
    | with_reducible exact Runs.refl _
    | with_reducible assumption
    | exact Eq.refl true
    | exact fun h => h
    | dsimp only
    | with_reducible apply Runs.comp (State.setRed_runs ..)
    | with_reducible apply Runs.comp (State.redGive_runs ..)
    | with_reducible apply Runs.foldl
    | with_reducible apply Runs.foldl_fst
    | intro _)

theorem State.redAbandon_runs (s : State) (ctx : Nat) :
    Runs [.urn, .red] s (State.redAbandon s ctx) := by
  unfold State.redAbandon
  repeat' (first
    | with_reducible exact Runs.refl _
    | with_reducible assumption
    | exact Eq.refl true
    | exact fun h => h
    | dsimp only
    | with_reducible apply Runs.comp (State.closeKey_runs ..)
    | with_reducible apply Runs.comp (State.setRed_runs ..)
    | with_reducible apply Runs.foldl
    | with_reducible apply Runs.foldl_fst
    | intro _)

theorem State.redFresh_runs (s : State) (ctx : Nat) :
    Runs [.red] s (State.redFresh s ctx) := by
  unfold State.redFresh
  repeat' (first
    | with_reducible exact Runs.refl _
    | with_reducible assumption
    | exact Eq.refl true
    | exact fun h => h
    | dsimp only
    | with_reducible apply Runs.comp (State.modRedc_runs ..))

theorem State.redDeadline_runs (ctx : Nat) (g : Nat) (tag : Nat) (s : State) :
    Runs [.cores, .sync, .urn, .fab, .router, .steps, .red, .obj] s (State.redDeadline ctx g tag s) := by
  unfold State.redDeadline
  repeat' (first
    | with_reducible exact Runs.refl _
    | with_reducible assumption
    | exact Eq.refl true
    | exact fun h => h
    | dsimp only
    | with_reducible apply Runs.comp (State.closeKey_runs ..)
    | with_reducible apply Runs.comp (State.redErr_runs ..)
    | with_reducible apply Runs.comp (State.drainEnd_runs ..)
    | with_reducible apply Runs.comp (State.signalWord_runs ..)
    | with_reducible apply Runs.foldl
    | with_reducible apply Runs.foldl_fst
    | intro _
    | split)

end Sys2Proof.Machine
end

