-- ==== Sys2Proof/Laws/PermuteRuns.lean ====
section
/-!
SUPPORT. What the operations of Machine/Permute.lean may change, and that they keep the canonical form.
-/

namespace Sys2Proof.Machine

theorem State.permDown_runs (s : State) (ctx : Nat) (kind : Nat) (round : Nat) (reason : Nat) :
    Runs [.router] s (State.permDown s ctx kind round reason) := by
  unfold State.permDown
  repeat' (first
    | with_reducible exact Runs.refl _
    | with_reducible assumption
    | exact Eq.refl true
    | exact fun h => h
    | dsimp only
    | with_reducible apply Runs.comp (State.treeSend_runs ..))

theorem State.permMsg_runs {L : List Part} (kind : Nat) (act : Packet → State → State) (p : Packet) (s : State) (hf : ∀ p t, Runs L t (act p t)) (hL : within [.router] L = true) :
    Runs L s (State.permMsg kind act p s) := by
  unfold State.permMsg
  repeat' (first
    | with_reducible refine Runs.trans ?_ (hf ..)
    | exact hL
    | with_reducible exact Runs.refl _
    | with_reducible assumption
    | exact Eq.refl true
    | exact within_trans rfl hL
    | exact fun h => h
    | dsimp only
    | with_reducible apply Runs.comp (State.taken_runs ..)
    | with_reducible apply Runs.foldl
    | with_reducible apply Runs.foldl_fst
    | intro _
    | split)

theorem State.permDecide_runs (s : State) (ctx : Nat) (count : Nat) (pend : Nat) (sent : Nat) (recv : Nat) :
    Runs [.router, .red] s (State.permDecide s ctx count pend sent recv) := by
  unfold State.permDecide
  repeat' (first
    | with_reducible exact Runs.refl _
    | with_reducible assumption
    | exact Eq.refl true
    | exact fun h => h
    | dsimp only
    | with_reducible apply Runs.comp (State.setPerm_runs ..)
    | with_reducible apply Runs.comp (State.permDown_runs ..)
    | with_reducible apply Runs.foldl
    | with_reducible apply Runs.foldl_fst
    | intro _
    | split)

theorem State.permCombine_runs (s : State) (ctx : Nat) :
    Runs [.router, .red] s (State.permCombine s ctx) := by
  unfold State.permCombine
  repeat' (first
    | with_reducible exact Runs.refl _
    | with_reducible assumption
    | exact Eq.refl true
    | exact fun h => h
    | dsimp only
    | with_reducible apply Runs.comp (State.setPerm_runs ..)
    | with_reducible apply Runs.comp (State.permDecide_runs ..)
    | with_reducible apply Runs.comp (State.lineSend_runs ..)
    | with_reducible apply Runs.foldl
    | with_reducible apply Runs.foldl_fst
    | intro _
    | split)

theorem State.permOwn_runs (s : State) (ctx : Nat) :
    Runs [.router, .red] s (State.permOwn s ctx) := by
  unfold State.permOwn
  repeat' (first
    | with_reducible exact Runs.refl _
    | with_reducible assumption
    | exact Eq.refl true
    | exact fun h => h
    | dsimp only
    | with_reducible apply Runs.comp (State.permCombine_runs ..)
    | with_reducible apply Runs.comp (State.setPerm_runs ..))

theorem State.permStage_runs (s : State) (ctx : Nat) (st : Nat) :
    Runs [.red] s (State.permStage s ctx st) := by
  unfold State.permStage
  repeat' (first
    | with_reducible exact Runs.refl _
    | with_reducible assumption
    | exact Eq.refl true
    | exact fun h => h
    | dsimp only
    | with_reducible apply Runs.comp (State.modPerm_runs ..))

theorem State.permAnswer_runs (s : State) (ctx : Nat) (round : Nat) :
    Runs [.router, .red] s (State.permAnswer s ctx round) := by
  unfold State.permAnswer
  repeat' (first
    | with_reducible exact Runs.refl _
    | with_reducible assumption
    | exact Eq.refl true
    | exact fun h => h
    | dsimp only
    | with_reducible apply Runs.comp (State.permOwn_runs ..)
    | with_reducible apply Runs.comp (State.modPerm_runs ..))

theorem State.permJoin_runs (s : State) (ctx : Nat) (v : Nat) :
    Runs [.sched, .router, .red] s (State.permJoin s ctx v) := by
  unfold State.permJoin
  repeat' (first
    | with_reducible exact Runs.refl _
    | with_reducible assumption
    | exact Eq.refl true
    | exact fun h => h
    | dsimp only
    | with_reducible apply Runs.comp (State.setSched_runs ..)
    | with_reducible apply Runs.comp (State.setPerm_runs ..)
    | with_reducible apply Runs.comp (State.permAnswer_runs ..)
    | with_reducible apply Runs.foldl
    | with_reducible apply Runs.foldl_fst
    | intro _
    | split)

theorem State.permRound_runs (ctx : Nat) (s : State) :
    Runs [.router, .red] s (State.permRound ctx s) := by
  unfold State.permRound
  repeat' (first
    | with_reducible exact Runs.refl _
    | with_reducible assumption
    | exact Eq.refl true
    | exact fun h => h
    | dsimp only
    | with_reducible apply Runs.comp (State.permDown_runs ..)
    | with_reducible apply Runs.comp (State.setPerm_runs ..)
    | with_reducible apply Runs.foldl
    | with_reducible apply Runs.foldl_fst
    | intro _
    | split)

theorem State.countReq_runs (p : Packet) (s : State) :
    Runs [.router, .red] s (State.countReq p s) := by
  unfold State.countReq
  repeat' (first
    | with_reducible exact Runs.refl _
    | with_reducible assumption
    | exact Eq.refl true
    | exact fun h => h
    | dsimp only
    | with_reducible apply Runs.comp (State.taken_runs ..)
    | with_reducible apply Runs.comp (State.permAnswer_runs ..)
    | with_reducible apply Runs.comp (State.modPerm_runs ..)
    | with_reducible apply Runs.foldl
    | with_reducible apply Runs.foldl_fst
    | intro _
    | split)

theorem State.permReplied_runs (p : Packet) (kind : Nat) (s : State) :
    Runs [.router, .red] s (State.permReplied p kind s) := by
  unfold State.permReplied
  repeat' (first
    | with_reducible exact Runs.refl _
    | with_reducible assumption
    | exact Eq.refl true
    | exact fun h => h
    | dsimp only
    | with_reducible apply Runs.comp (State.taken_runs ..)
    | with_reducible apply Runs.comp (State.permCombine_runs ..)
    | with_reducible apply Runs.comp (State.modPerm_runs ..)
    | with_reducible apply Runs.foldl
    | with_reducible apply Runs.foldl_fst
    | intro _
    | split)

theorem State.phase1Go_runs (p : Packet) (s : State) :
    Runs [.router, .red] s (State.phase1Go p s) := by
  unfold State.phase1Go
  repeat' (first
    | with_reducible exact Runs.refl _
    | with_reducible assumption
    | exact Eq.refl true
    | exact fun h => h
    | dsimp only
    | with_reducible apply Runs.comp (State.taken_runs ..)
    | with_reducible apply Runs.comp (State.permStage_runs ..)
    | with_reducible apply Runs.foldl
    | with_reducible apply Runs.foldl_fst
    | intro _
    | split)

theorem State.phase1Copy_runs (ctx : Nat) (s : State) :
    Runs [.mem, .router, .red] s (State.phase1Copy ctx s) := by
  unfold State.phase1Copy
  repeat' (first
    | with_reducible exact Runs.refl _
    | with_reducible assumption
    | exact Eq.refl true
    | exact fun h => h
    | dsimp only
    | with_reducible apply Runs.comp (State.storeDev_runs ..)
    | with_reducible apply Runs.comp (State.permOwn_runs ..)
    | with_reducible apply Runs.comp (State.send_runs ..)
    | with_reducible apply Runs.comp (State.setPerm_runs ..)
    | with_reducible apply Runs.foldl
    | with_reducible apply Runs.foldl_fst
    | intro _
    | split)

theorem State.permWrite_runs (s : State) (ctx : Nat) (dev : Nat) (p : Nat × List Byte) :
    Runs [.fab, .router, .red, .obj] s (State.permWrite s ctx dev p) := by
  unfold State.permWrite
  repeat' (first
    | with_reducible exact Runs.refl _
    | with_reducible assumption
    | exact Eq.refl true
    | exact fun h => h
    | dsimp only
    | with_reducible apply Runs.comp (State.lookNote_runs ..)
    | with_reducible apply Runs.comp (State.peerWrite_runs ..)
    | with_reducible apply Runs.comp (State.modPerm_runs ..)
    | with_reducible apply Runs.comp (State.fabFlag_runs ..)
    | with_reducible apply Runs.foldl
    | with_reducible apply Runs.foldl_fst
    | intro _
    | split)

theorem State.permStore_runs (s : State) (ctx : Nat) (a : Nat) (dst : Nat) (n : Nat) :
    Runs [.fab, .router, .red, .obj] s (State.permStore s ctx a dst n) := by
  unfold State.permStore
  repeat' (first
    | with_reducible exact Runs.refl _
    | with_reducible assumption
    | exact Eq.refl true
    | exact fun h => h
    | dsimp only
    | with_reducible apply Runs.comp (State.permWrite_runs ..)
    | with_reducible apply Runs.foldl
    | with_reducible apply Runs.foldl_fst
    | intro _)

theorem State.phase2Go_runs (p : Packet) (s : State) :
    Runs [.fab, .router, .red, .obj] s (State.phase2Go p s) := by
  unfold State.phase2Go
  repeat' (first
    | with_reducible exact Runs.refl _
    | with_reducible assumption
    | exact Eq.refl true
    | exact fun h => h
    | dsimp only
    | with_reducible apply Runs.comp (State.taken_runs ..)
    | with_reducible apply Runs.comp (State.permStage_runs ..)
    | with_reducible apply Runs.comp (State.permStore_runs ..)
    | with_reducible apply Runs.foldl
    | with_reducible apply Runs.foldl_fst
    | intro _
    | split)

theorem State.phase2Acked_runs (ctx : Nat) (s : State) :
    Runs [.router, .red] s (State.phase2Acked ctx s) := by
  unfold State.phase2Acked
  repeat' (first
    | with_reducible exact Runs.refl _
    | with_reducible assumption
    | exact Eq.refl true
    | exact fun h => h
    | dsimp only
    | with_reducible apply Runs.comp (State.permOwn_runs ..)
    | with_reducible apply Runs.comp (State.modRedc_runs ..)
    | with_reducible apply Runs.foldl
    | with_reducible apply Runs.foldl_fst
    | intro _
    | split)

theorem State.newEpoch_runs (s : State) (ctx : Nat) (e : Nat) :
    Runs [.red, .obj] s (State.newEpoch s ctx e) := by
  unfold State.newEpoch
  repeat' (first
    | with_reducible exact Runs.refl _
    | with_reducible assumption
    | exact Eq.refl true
    | exact fun h => h
    | dsimp only
    | with_reducible apply Runs.comp (State.setOv_runs ..)
    | with_reducible apply Runs.comp (State.modRedc_runs ..))

theorem State.permEnd_runs (s : State) (ctx : Nat) (st : Nat) :
    Runs [.sync, .fab, .router, .steps, .red, .obj] s (State.permEnd s ctx st) := by
  unfold State.permEnd
  repeat' (first
    | with_reducible exact Runs.refl _
    | with_reducible assumption
    | exact Eq.refl true
    | exact fun h => h
    | dsimp only
    | with_reducible apply Runs.comp (State.signalWord_runs ..)
    | with_reducible apply Runs.comp (State.setPerm_runs ..))

theorem State.permDone_runs (p : Packet) (s : State) :
    Runs [.sync, .fab, .router, .steps, .red, .obj] s (State.permDone p s) := by
  unfold State.permDone
  repeat' (first
    | with_reducible exact Runs.refl _
    | with_reducible assumption
    | exact Eq.refl true
    | exact fun h => h
    | dsimp only
    | with_reducible apply Runs.comp (State.taken_runs ..)
    | with_reducible apply Runs.comp (State.permEnd_runs ..)
    | with_reducible apply Runs.comp (State.newEpoch_runs ..)
    | with_reducible apply Runs.foldl
    | with_reducible apply Runs.foldl_fst
    | intro _
    | split)

theorem State.permFailed_runs (p : Packet) (s : State) :
    Runs [.sync, .fab, .router, .steps, .red, .obj] s (State.permFailed p s) := by
  unfold State.permFailed
  repeat' (first
    | with_reducible exact Runs.refl _
    | with_reducible assumption
    | exact Eq.refl true
    | exact fun h => h
    | dsimp only
    | with_reducible apply Runs.comp (State.taken_runs ..)
    | with_reducible apply Runs.comp (State.permEnd_runs ..)
    | with_reducible apply Runs.comp (State.newEpoch_runs ..)
    | with_reducible apply Runs.foldl
    | with_reducible apply Runs.foldl_fst
    | intro _
    | split)

theorem State.permFail_runs (s : State) (ctx : Nat) (reason : Nat) :
    Runs [.router, .red] s (State.permFail s ctx reason) := by
  unfold State.permFail
  repeat' (first
    | with_reducible exact Runs.refl _
    | with_reducible assumption
    | exact Eq.refl true
    | exact fun h => h
    | dsimp only
    | with_reducible apply Runs.comp (State.permDown_runs ..)
    | with_reducible apply Runs.comp (State.modPerm_runs ..)
    | with_reducible apply Runs.foldl
    | with_reducible apply Runs.foldl_fst
    | intro _
    | split)

theorem State.entryInvalid_runs (p : Packet) (s : State) :
    Runs [.router, .red] s (State.entryInvalid p s) := by
  unfold State.entryInvalid
  repeat' (first
    | with_reducible exact Runs.refl _
    | with_reducible assumption
    | exact Eq.refl true
    | exact fun h => h
    | dsimp only
    | with_reducible apply Runs.comp (State.taken_runs ..)
    | with_reducible apply Runs.comp (State.permFail_runs ..)
    | with_reducible apply Runs.foldl
    | with_reducible apply Runs.foldl_fst
    | intro _
    | split)

theorem State.permDeadline_runs (ctx : Nat) (s : State) :
    Runs [.router, .red] s (State.permDeadline ctx s) := by
  unfold State.permDeadline
  repeat' (first
    | with_reducible exact Runs.refl _
    | with_reducible assumption
    | exact Eq.refl true
    | exact fun h => h
    | dsimp only
    | with_reducible apply Runs.comp (State.permFail_runs ..)
    | with_reducible apply Runs.foldl
    | with_reducible apply Runs.foldl_fst
    | intro _
    | split)

theorem State.permReset_runs (s : State) (ctx : Nat) :
    Runs [.router] s (State.permReset s ctx) := by
  unfold State.permReset
  repeat' (first
    | with_reducible exact Runs.refl _
    | with_reducible assumption
    | exact Eq.refl true
    | exact fun h => h
    | dsimp only
    | with_reducible apply Runs.comp (State.send_runs ..)
    | with_reducible apply Runs.foldl
    | with_reducible apply Runs.foldl_fst
    | intro _
    | split)

end Sys2Proof.Machine
end

