-- ==== Sys2Proof/Laws/DiscardRuns.lean ====
section
/-!
SUPPORT. What the operations of Machine/Discard.lean may change, and that they keep the canonical form.
-/

namespace Sys2Proof.Machine

theorem State.discardLists_runs (s : State) (ctx : Nat) : Runs [.sched] s (s.setSched { s.sched with
    lists := tmap [] (fun l => l.filter (fun e => e.ctx != ctx)) s.sched.lists
    overflow := s.sched.overflow.filter (fun e => e.ctx != ctx) }) :=
  State.setSched_runs _ _ (fun h => twf_tmap [] _ (twf_keys h))

theorem State.discard_runs (s : State) (ctx : Nat) (p : UrnBuf → Bool) : Runs [.cores, .sched, .txe, .urn, .fab, .red] s (s.discard ctx p) := by
  have step : ∀ (t : State) (n : Nat), Runs [.cores, .sched, .txe, .urn, .fab, .red] t ((t.modCore n (·.discard ctx t.clk)).assign n) := fun t n =>
    Runs.comp (State.assign_runs ..) rfl ((State.modCore_runs ..).mono rfl)
  have base := Runs.foldl step allCores ((State.redAbandon_runs s ctx).mono (b := [.cores, .sched, .txe, .urn, .fab, .red]) rfl)
  unfold State.discard
  exact Runs.comp (State.urnDropReqs_runs ..) rfl (Runs.comp (State.urnFreeAll_runs ..) rfl
    (Runs.comp (State.setTxe_runs ..) rfl (Runs.comp (State.setFab_runs ..) rfl
      (Runs.comp (State.discardLists_runs ..) rfl base))))

end Sys2Proof.Machine
end

