-- ==== Sys2Proof/Laws/StepsRuns.lean ====
section
/-!
SUPPORT. What the operations of Machine/Steps.lean may change, and that they keep the canonical form.
-/

namespace Sys2Proof.Machine

theorem State.conclude_runs (s : State) (ctx : Nat) (kind : Nat) (reason : Nat) :
    Runs [.router, .steps] s (State.conclude s ctx kind reason) := by
  unfold State.conclude
  repeat' (first
    | with_reducible exact Runs.refl _
    | with_reducible assumption
    | exact Eq.refl true
    | exact fun h => h
    | dsimp only
    | with_reducible apply Runs.comp (State.treeSend_runs ..)
    | with_reducible apply Runs.comp (State.setStp_runs ..))

theorem State.decideFail_runs (s : State) (ctx : Nat) (reason : Nat) :
    Runs [.router, .steps] s (State.decideFail s ctx reason) := by
  unfold State.decideFail
  repeat' (first
    | with_reducible exact Runs.refl _
    | with_reducible assumption
    | exact Eq.refl true
    | exact fun h => h
    | dsimp only
    | with_reducible apply Runs.comp (State.conclude_runs ..))

theorem State.homeWeigh_runs (s : State) (ctx : Nat) :
    Runs [.router, .steps] s (State.homeWeigh s ctx) := by
  unfold State.homeWeigh
  repeat' (first
    | with_reducible exact Runs.refl _
    | with_reducible assumption
    | exact Eq.refl true
    | exact fun h => h
    | dsimp only
    | with_reducible apply Runs.comp (State.setStp_runs ..)
    | with_reducible apply Runs.comp (State.decideFail_runs ..)
    | with_reducible apply Runs.comp (State.conclude_runs ..)
    | with_reducible apply Runs.foldl
    | with_reducible apply Runs.foldl_fst
    | intro _
    | split)

theorem State.voteCombine_runs (s : State) (ctx : Nat) :
    Runs [.router, .steps] s (State.voteCombine s ctx) := by
  unfold State.voteCombine
  repeat' (first
    | with_reducible exact Runs.refl _
    | with_reducible assumption
    | exact Eq.refl true
    | exact fun h => h
    | dsimp only
    | with_reducible apply Runs.comp (State.homeWeigh_runs ..)
    | with_reducible apply Runs.comp (State.lineSend_runs ..)
    | with_reducible apply Runs.comp (State.setStp_runs ..)
    | with_reducible apply Runs.foldl
    | with_reducible apply Runs.foldl_fst
    | intro _
    | split)

theorem State.stepVote_runs (ctx : Nat) (s : State) :
    Runs [.sync, .router, .steps] s (State.stepVote ctx s) := by
  unfold State.stepVote
  repeat' (first
    | with_reducible exact Runs.refl _
    | with_reducible assumption
    | exact Eq.refl true
    | exact fun h => h
    | exact Nat.lt_of_le_of_lt (Nat.sub_le _ _) (State.ctr_lt (by assumption) _)
    | dsimp only
    | with_reducible apply Runs.comp (State.setStp_runs ..)
    | with_reducible apply Runs.comp (State.setCtr_runs ..)
    | with_reducible apply Runs.comp (State.failVote_runs ..)
    | with_reducible apply Runs.comp (State.voteCombine_runs ..)
    | with_reducible apply Runs.foldl
    | with_reducible apply Runs.foldl_fst
    | intro _
    | split)

theorem State.vote_runs (p : Packet) (s : State) :
    Runs [.router, .steps] s (State.vote p s) := by
  unfold State.vote
  repeat' (first
    | with_reducible exact Runs.refl _
    | with_reducible assumption
    | exact Eq.refl true
    | exact fun h => h
    | dsimp only
    | with_reducible apply Runs.comp (State.taken_runs ..)
    | with_reducible apply Runs.comp (State.voteCombine_runs ..)
    | with_reducible apply Runs.comp (State.setStp_runs ..)
    | with_reducible apply Runs.comp (State.decideFail_runs ..)
    | with_reducible apply Runs.comp (State.homeWeigh_runs ..)
    | with_reducible apply Runs.foldl
    | with_reducible apply Runs.foldl_fst
    | intro _
    | split)

theorem State.commitExpiry_runs (ctx : Nat) (s : State) :
    Runs [.router, .steps] s (State.commitExpiry ctx s) := by
  unfold State.commitExpiry
  repeat' (first
    | with_reducible exact Runs.refl _
    | with_reducible assumption
    | exact Eq.refl true
    | exact fun h => h
    | dsimp only
    | with_reducible apply Runs.comp (State.decideFail_runs ..)
    | with_reducible apply Runs.foldl
    | with_reducible apply Runs.foldl_fst
    | intro _
    | split)

theorem State.decideLevels_runs (s : State) (ctx : Nat) :
    Runs [.obj] s (State.decideLevels s ctx) := by
  unfold State.decideLevels
  repeat' (first
    | with_reducible exact Runs.refl _
    | with_reducible assumption
    | exact Eq.refl true
    | exact fun h => h
    | dsimp only
    | with_reducible apply Runs.comp (State.setGf_runs ..)
    | with_reducible apply Runs.foldl
    | with_reducible apply Runs.foldl_fst
    | intro _)

theorem State.applyLayout_runs (s : State) (ctx : Nat) :
    Runs [.red] s (State.applyLayout s ctx) := by
  unfold State.applyLayout
  repeat' (first
    | with_reducible exact Runs.refl _
    | with_reducible assumption
    | exact Eq.refl true
    | exact fun h => h
    | dsimp only
    | with_reducible apply Runs.comp (State.modRedc_runs ..))

theorem State.stepBegin_runs (s : State) (ctx : Nat) (n : Nat) :
    Runs [.cores, .sync, .mem, .urn, .fab, .router, .host, .steps, .red, .obj, .flash, .out] s (State.stepBegin s ctx n) := by
  unfold State.stepBegin
  repeat' (first
    | with_reducible exact Runs.refl _
    | with_reducible assumption
    | exact Eq.refl true
    | exact fun h => h
    | dsimp only
    | with_reducible apply Runs.comp (State.recordSync_runs ..)
    | with_reducible apply Runs.comp (State.applyLayout_runs ..)
    | with_reducible apply Runs.comp (State.modStp_runs ..)
    | with_reducible apply Runs.comp (State.homeWeigh_runs ..)
    | with_reducible apply Runs.comp (State.attemptFaults_runs ..)
    | with_reducible apply Runs.comp (State.alert_runs ..)
    | with_reducible apply Runs.comp (State.redResume_runs ..)
    | with_reducible apply Runs.comp (State.redFresh_runs ..)
    | with_reducible apply Runs.foldl
    | with_reducible apply Runs.foldl_fst
    | intro _
    | split)

theorem State.commit_runs (p : Packet) (s : State) :
    Runs [.cores, .sync, .mem, .urn, .fab, .router, .steps, .red, .obj, .flash] s (State.commit p s) := by
  unfold State.commit
  repeat' (first
    | with_reducible exact Runs.refl _
    | with_reducible assumption
    | exact Eq.refl true
    | exact fun h => h
    | dsimp only
    | with_reducible apply Runs.comp (State.taken_runs ..)
    | with_reducible apply Runs.comp (State.decideLevels_runs ..)
    | with_reducible apply Runs.comp (State.recordSync_runs ..)
    | with_reducible apply Runs.comp (State.setStp_runs ..)
    | with_reducible apply Runs.comp (State.redDiscardHeld_runs ..)
    | with_reducible apply Runs.comp (State.redFresh_runs ..)
    | with_reducible apply Runs.comp (State.signalOpt_runs ..)
    | with_reducible apply Runs.comp (State.redResume_runs ..)
    | with_reducible apply Runs.comp (State.latch_runs ..)
    | with_reducible apply Runs.comp (State.homeWeigh_runs ..)
    | with_reducible apply Runs.comp (State.attemptFaults_runs ..)
    | with_reducible apply Runs.foldl
    | with_reducible apply Runs.foldl_fst
    | intro _
    | split)

theorem State.abandon_runs (s : State) (ctx : Nat) :
    Runs [.cores, .sched, .txe, .sync, .urn, .fab, .steps, .red] s (State.abandon s ctx) := by
  unfold State.abandon
  repeat' (first
    | with_reducible exact Runs.refl _
    | with_reducible assumption
    | exact Eq.refl true
    | exact fun h => h
    | dsimp only
    | with_reducible apply Runs.comp (State.modStp_runs ..)
    | with_reducible apply Runs.comp (State.redDiscardHeld_runs ..)
    | with_reducible apply Runs.comp (State.restoreSync_runs ..)
    | with_reducible apply Runs.comp (State.discard_runs ..))

theorem State.replay_runs (p : Packet) (s : State) :
    Runs [.cores, .sched, .txe, .sync, .mem, .urn, .fab, .router, .host, .steps, .red, .obj, .flash, .out] s (State.replay p s) := by
  unfold State.replay
  repeat' (first
    | with_reducible exact Runs.refl _
    | with_reducible assumption
    | exact Eq.refl true
    | exact fun h => h
    | dsimp only
    | with_reducible apply Runs.comp (State.taken_runs ..)
    | with_reducible apply Runs.comp (State.abandon_runs ..)
    | with_reducible apply Runs.comp (State.modStp_runs ..)
    | with_reducible apply Runs.comp (State.redFresh_runs ..)
    | with_reducible apply Runs.comp (State.signalOpt_runs ..)
    | with_reducible apply Runs.comp (State.interrupt_runs ..)
    | with_reducible apply Runs.comp (State.homeWeigh_runs ..)
    | with_reducible apply Runs.comp (State.attemptFaults_runs ..)
    | with_reducible apply Runs.comp (State.redResume_runs ..)
    | with_reducible apply Runs.foldl
    | with_reducible apply Runs.foldl_fst
    | intro _
    | split)

theorem State.halt_runs (s : State) (ctx : Nat) (reason : Nat) :
    Runs [.cores, .sched, .txe, .sync, .urn, .fab, .router, .host, .steps, .red, .out] s (State.halt s ctx reason) := by
  unfold State.halt
  repeat' (first
    | with_reducible exact Runs.refl _
    | with_reducible assumption
    | exact Eq.refl true
    | exact fun h => h
    | dsimp only
    | with_reducible apply Runs.comp (State.redDiscardHeld_runs ..)
    | with_reducible apply Runs.comp (State.abandon_runs ..)
    | with_reducible apply Runs.comp (State.modStp_runs ..)
    | with_reducible apply Runs.comp (State.alert_runs ..)
    | with_reducible apply Runs.comp (State.redFresh_runs ..)
    | with_reducible apply Runs.comp (State.interrupt_runs ..)
    | with_reducible apply Runs.foldl
    | with_reducible apply Runs.foldl_fst
    | intro _
    | split)

theorem State.haltRecv_runs (p : Packet) (s : State) :
    Runs [.cores, .sched, .txe, .sync, .urn, .fab, .router, .host, .steps, .red, .out] s (State.haltRecv p s) := by
  unfold State.haltRecv
  repeat' (first
    | with_reducible exact Runs.refl _
    | with_reducible assumption
    | exact Eq.refl true
    | exact fun h => h
    | dsimp only
    | with_reducible apply Runs.comp (State.halt_runs ..)
    | with_reducible apply Runs.comp (State.taken_runs ..)
    | with_reducible apply Runs.foldl
    | with_reducible apply Runs.foldl_fst
    | intro _
    | split)

theorem State.decisionTimeout_runs (ctx : Nat) (s : State) :
    Runs [.cores, .sched, .txe, .sync, .urn, .fab, .router, .host, .steps, .red, .out] s (State.decisionTimeout ctx s) := by
  unfold State.decisionTimeout
  repeat' (first
    | with_reducible exact Runs.refl _
    | with_reducible assumption
    | exact Eq.refl true
    | exact fun h => h
    | dsimp only
    | with_reducible apply Runs.comp (State.halt_runs ..)
    | with_reducible apply Runs.foldl
    | with_reducible apply Runs.foldl_fst
    | intro _
    | split)

theorem State.normWrite_runs (ctx layer : Nat) (x : NormSum) (q : State × Nat) :
    Runs [.mem, .steps] q.1 (State.normWrite ctx layer x q).1 := by
  unfold State.normWrite
  dsimp only
  split
  · exact (State.setStp_runs ..).mono rfl
  · exact Runs.comp (State.setStp_runs ..) rfl ((State.storeDev_runs ..).mono rfl)

theorem State.normDone_runs (ctx : Nat) (s : State) :
    Runs [.sync, .mem, .fab, .router, .steps, .obj] s (State.normDone ctx s) := by
  unfold State.normDone
  repeat' (first
    | with_reducible exact Runs.refl _
    | with_reducible assumption
    | exact Eq.refl true
    | exact fun h => h
    | with_reducible apply Runs.foldl_fst (fun _ _ _ => (State.normWrite_runs ..).mono rfl)
    | dsimp only
    | with_reducible apply Runs.comp (State.raise_runs ..)
    | with_reducible apply Runs.comp (State.normWrite_runs ..)
    | refine Runs.of_pair (Runs.comp (State.normWrite_runs ..) rfl ?_) (by assumption)
    | with_reducible apply Runs.comp (State.modStp_runs ..)
    | with_reducible apply Runs.comp (State.signal_runs ..)
    | with_reducible apply Runs.foldl
    | with_reducible apply Runs.foldl_fst
    | intro _
    | split)

end Sys2Proof.Machine
end

