-- ==== Sys2Proof/Laws/ResetRuns.lean ====
section
/-!
SUPPORT. What the operations of Machine/Reset.lean may change, and that they keep the canonical form.
-/

namespace Sys2Proof.Machine

theorem HostIf.wf_iff (x : HostIf) : x.wf = true ↔ twf .init x.pages = true ∧ twf .init x.mbx = true := by
  simp [HostIf.wf]

theorem Objects.wf_iff (x : Objects) :
    x.wf = true ↔ keysFrom none x.vals = true ∧ twf .init x.area = true ∧ twf .init x.gf = true := by
  simp [Objects.wf, and_assoc]

theorem State.wf_iff (s : State) : s.wf = true ↔
    s.ft.wf = true ∧ s.power.wf = true ∧ s.kettle.wf = true ∧ twf .init s.cores = true ∧ s.sched.wf = true ∧
      s.sync.wf = true ∧ s.mem.wf = true ∧ s.urn.wf = true ∧ twf .init s.links = true ∧ s.router.wf = true ∧
      s.caddy.wf = true ∧ s.host.wf = true ∧ twf .init s.steps = true ∧ s.red.wf = true ∧ s.obj.wf = true ∧
      s.ageing.wf = true := by
  simp [State.wf, and_assoc]

theorem Power.wf_same {x y : Power} (h : x.wf = true) (e : y.phases = x.phases) : y.wf = true := by
  unfold Power.wf at h ⊢
  rw [e]
  exact h

theorem State.substitute_runs (s : State) (core : Nat) :
    Runs [.sched, .router, .host, .flash, .out] s (State.substitute s core) := by
  unfold State.substitute
  repeat' (first
    | with_reducible exact Runs.refl _
    | with_reducible assumption
    | exact Eq.refl true
    | exact fun h => h
    | dsimp only
    | with_reducible apply Runs.comp (State.setSched_runs ..)
    | with_reducible apply Runs.comp (State.journal_runs ..)
    | with_reducible apply Runs.comp (State.service_runs ..)
    | with_reducible apply Runs.foldl
    | with_reducible apply Runs.foldl_fst
    | intro _
    | split)

theorem State.hostReset_runs (s : State) (flr : Bool) : Runs [.fab, .host] s (s.hostReset flr) := by
  unfold State.hostReset
  dsimp only
  refine Runs.comp (State.setHost_runs _ _ (fun h => ?_)) rfl ((State.setFab_runs s _).mono rfl)
  have k : s.host.wf = true := h
  rw [HostIf.wf_iff] at k ⊢
  dsimp only
  exact ⟨twf_tmap _ _ (twf_keys k.1), twf_tmap _ _ (twf_keys k.2)⟩

theorem State.mainLoss_runs (s : State) :
    Runs [.ft, .power, .kettle, .cores, .sched, .txe, .sync, .mem, .urn, .fab, .router, .steps, .red] s s.mainLoss := by
  refine .mk' (fun p => ?_) rfl (fun w => ?_)
  · cases p <;> first | exact .inl rfl | exact .inr rfl
  · rw [State.wf_iff] at w ⊢
    exact ⟨rfl, w.2.1, rfl, rfl, rfl, rfl, rfl, rfl, w.2.2.2.2.2.2.2.2.1, rfl, w.2.2.2.2.2.2.2.2.2.2.1,
      w.2.2.2.2.2.2.2.2.2.2.2.1, rfl, rfl, w.2.2.2.2.2.2.2.2.2.2.2.2.2.2⟩

theorem State.hostOff_runs (s : State) (n : Nat) (b : List Byte × Bool) :
    Runs [.host] s (s.setHost { HostIf.init n with readOut := b }) := State.setHost_runs s _ (fun _ => rfl)

theorem State.mainOff_runs (s : State) : Runs [.ft, .power, .kettle, .cores, .sched, .txe, .sync, .mem, .urn, .fab, .links, .router, .host, .steps, .red, .obj, .flash, .out] s s.mainOff := by
  have hu : ∀ cs : List Nat, Runs [.ft, .power, .kettle, .cores, .sched, .txe, .sync, .mem, .urn, .fab, .links, .router, .host, .steps, .red, .obj, .flash, .out] s (if cs = [] then s else s.uncovered 0x16 0 cs) := fun cs =>
    Runs.ite (fun _ => Runs.refl s) (fun _ => (State.uncovered_runs ..).mono rfl)
  have hl := fun cs => Runs.foldl (fun t (l : Nat) => (State.linkFall_runs t l).mono (b := [.ft, .power, .kettle, .cores, .sched, .txe, .sync, .mem, .urn, .fab, .links, .router, .host, .steps, .red, .obj, .flash, .out]) rfl) allLinks (hu cs)
  have hm := fun cs n b => Runs.comp (State.ftFresh_runs ..) rfl (Runs.comp (State.mainLoss_runs ..) rfl
    (Runs.comp (State.hostOff_runs _ n b) rfl (hl cs)))
  unfold State.mainOff
  exact Runs.comp (State.alert_runs ..) rfl
    (Runs.foldl (fun t (c : Nat) => (State.applyLayout_runs t c).mono (b := [.ft, .power, .kettle, .cores, .sched, .txe, .sync, .mem, .urn, .fab, .links, .router, .host, .steps, .red, .obj, .flash, .out]) rfl) allCtx (hm _ _ _))

theorem State.lastLine_runs (s : State) (cause : Nat) (unit : Nat) (temp : Nat) :
    Runs [.ft, .power, .kettle, .cores, .sched, .txe, .sync, .mem, .urn, .fab, .links, .router, .host, .steps, .red, .obj, .flash, .out] s (State.lastLine s cause unit temp) := by
  have hm := State.mainOff_runs s
  unfold State.lastLine
  generalize s.mainOff = u at *
  repeat' (first
    | with_reducible exact Runs.refl _
    | with_reducible assumption
    | exact Eq.refl true
    | exact fun h => h
    | exact hm.mono rfl
    | dsimp only
    | with_reducible apply Runs.comp (State.mainOff_runs ..)
    | with_reducible apply Runs.comp (State.setPower_runs ..)
    | with_reducible apply Runs.comp (State.journalNext_runs ..)
    | with_reducible apply Runs.comp (State.setOut_runs ..)
    | with_reducible apply Runs.foldl
    | with_reducible apply Runs.foldl_fst
    | intro _
    | split)

theorem State.seqFail_runs (s : State) (row : Nat) :
    Runs [.power, .out] s (State.seqFail s row) := by
  unfold State.seqFail
  repeat' (first
    | with_reducible exact Runs.refl _
    | with_reducible assumption
    | exact Eq.refl true
    | exact fun h => h
    | dsimp only
    | with_reducible apply Runs.comp (State.setOut_runs ..)
    | with_reducible apply Runs.comp (State.setPower_runs ..))

theorem State.mainBegin_runs (s : State) :
    Runs [.power, .out] s (State.mainBegin s) := by
  unfold State.mainBegin
  repeat' (first
    | with_reducible exact Runs.refl _
    | with_reducible assumption
    | exact Eq.refl true
    | exact fun h => h
    | dsimp only
    | with_reducible apply Runs.comp (State.setPower_runs ..)
    | with_reducible apply Runs.comp (State.setOut_runs ..)
    | with_reducible apply Runs.comp (State.seqFail_runs ..)
    | with_reducible apply Runs.foldl
    | with_reducible apply Runs.foldl_fst
    | intro _
    | split)

theorem State.mainReset_runs (s : State) :
    Runs [.ft, .power, .kettle, .cores, .sched, .txe, .sync, .mem, .urn, .fab, .links, .router, .host, .steps, .red, .obj, .flash, .out] s (State.mainReset s) := by
  unfold State.mainReset
  repeat' (first
    | with_reducible exact Runs.refl _
    | with_reducible assumption
    | exact Eq.refl true
    | exact fun h => h
    | dsimp only
    | with_reducible apply Runs.comp (State.mainBegin_runs ..)
    | with_reducible apply Runs.comp (State.mainOff_runs ..))

theorem State.ctxReset_runs (s : State) (ctx : Nat) :
    Runs [.cores, .sched, .txe, .urn, .fab, .router, .host, .steps, .red, .out] s (State.ctxReset s ctx) := by
  unfold State.ctxReset
  repeat' (first
    | with_reducible exact Runs.refl _
    | with_reducible assumption
    | exact Eq.refl true
    | exact fun h => h
    | dsimp only
    | with_reducible apply Runs.comp (State.permReset_runs ..)
    | with_reducible apply Runs.comp (State.discard_runs ..)
    | with_reducible apply Runs.comp (State.setStp_runs ..)
    | with_reducible apply Runs.comp (State.alert_runs ..)
    | with_reducible apply Runs.comp (State.setFab_runs ..))

theorem State.vfReset_runs (s : State) (ctx : Nat) : Runs [.cores, .sched, .txe, .urn, .fab, .router, .host, .steps, .red, .out] s (s.vfReset ctx) := by
  have hc : ∀ t : State, Runs [.cores, .sched, .txe, .urn, .fab, .router, .host, .steps, .red, .out] t (t.setHost { t.host with
      msix := t.host.msix.filter (fun e => e.1 / 4096 != ctx + 1)
      pba := t.host.pba.filter (fun e => e.1 / 4096 != ctx + 1)
      aer := t.host.aer.filter (fun e => e.1 != ctx + 1) }) := fun t => by
    refine (State.setHost_runs t _ (fun h => ?_)).mono rfl
    exact h
  exact Runs.trans (Runs.comp (State.setPage_runs ..) rfl ((State.ctxReset_runs s ctx).mono rfl)) (hc _)

theorem State.clearSync_runs (s : State) : Runs [.sync, .sched] s s.clearSync := by
  refine .mk' (fun p => ?_) rfl (fun w => ?_)
  · cases p <;> first | exact .inl rfl | exact .inr rfl
  · rw [State.wf_iff] at w ⊢
    have h := w.2.2.2.2.2.1
    simp only [Sync.wf, Bool.and_eq_true] at h
    refine ⟨w.1, w.2.1, w.2.2.1, w.2.2.2.1, w.2.2.2.2.1, ?_, w.2.2.2.2.2.2⟩
    simp only [State.clearSync, Sync.wf, Bool.and_eq_true]
    exact ⟨⟨⟨rfl, rfl⟩, h.1.2⟩, h.2⟩

theorem State.computeReset_runs (s : State) : Runs [.cores, .sched, .txe, .sync, .urn, .fab, .router, .host, .steps, .red, .out] s s.computeReset := by
  unfold State.computeReset
  dsimp only
  with_reducible apply Runs.comp (State.clearSync_runs ..) rfl
  with_reducible apply Runs.foldl
  · intro _ _
    with_reducible exact Runs.comp (State.modCore_runs ..) rfl (Runs.refl _)
  · with_reducible apply Runs.foldl
    · intro _ _
      with_reducible exact Runs.comp (State.ctxReset_runs ..) rfl (Runs.refl _)
    · with_reducible exact Runs.refl _

theorem State.standbyCold_runs (s : State) : Runs [.clk, .ft, .pins, .power, .kettle, .cores, .sched, .txe, .sync, .mem, .urn, .fab, .links, .router, .caddy, .host, .steps, .red, .obj, .flash, .ageing, .tele, .out, .free] s s.standbyCold := by
  refine .mk' (fun p => ?_) rfl (fun w => ?_)
  · cases p <;> exact .inr rfl
  · rw [State.wf_iff] at w ⊢
    exact ⟨rfl, w.2.1, rfl, rfl, rfl, rfl, rfl, rfl, twf_tmap _ _ (twf_keys w.2.2.2.2.2.2.2.2.1), rfl, rfl, rfl, rfl, rfl,
      rfl, rfl⟩

theorem State.readSlot_runs (s : State) :
    Runs [.pins, .free] s (State.readSlot s) := by
  unfold State.readSlot
  repeat' (first
    | with_reducible exact Runs.refl _
    | with_reducible assumption
    | exact Eq.refl true
    | exact fun h => h
    | dsimp only
    | with_reducible apply Runs.comp (State.fresh_runs ..)
    | with_reducible apply Runs.comp (State.setPins_runs ..))

theorem State.recordedLasers_runs (s : State) :
    Runs [.links] s (State.recordedLasers s) := by
  unfold State.recordedLasers
  repeat' (first
    | with_reducible exact Runs.refl _
    | with_reducible assumption
    | exact Eq.refl true
    | exact fun h => h
    | dsimp only
    | with_reducible apply Runs.comp (State.modLink_runs ..)
    | with_reducible apply Runs.foldl
    | with_reducible apply Runs.foldl_fst
    | intro _)

theorem State.afterRestore_runs (s : State) :
    Runs [.ft, .host] s (State.afterRestore s) := by
  unfold State.afterRestore
  repeat' (first
    | with_reducible exact Runs.refl _
    | with_reducible assumption
    | exact Eq.refl true
    | exact fun h => h
    | dsimp only
    | with_reducible apply Runs.comp (State.ftFresh_runs ..)
    | with_reducible apply Runs.comp (State.setHost_runs ..))

theorem State.standbyOn_runs (s : State) :
    Runs [.clk, .ft, .pins, .power, .kettle, .cores, .sched, .txe, .sync, .mem, .urn, .fab, .links, .router, .caddy, .host, .steps, .red, .obj, .flash, .ageing, .tele, .out, .free] s (State.standbyOn s) := by
  unfold State.standbyOn
  repeat' (first
    | with_reducible exact Runs.refl _
    | with_reducible assumption
    | exact Eq.refl true
    | exact fun h => h
    | dsimp only
    | with_reducible apply Runs.comp (State.afterRestore_runs ..)
    | with_reducible apply Runs.comp (State.recordedLasers_runs ..)
    | with_reducible apply Runs.comp (State.restoreAll_runs ..)
    | with_reducible apply Runs.comp (State.standbyCold_runs ..))

theorem State.keepJournal_runs (s old : State) (ho : s.wf = true → old.wf = true) :
    Runs [.sched, .mem, .caddy, .obj, .flash, .ageing] s (s.keepJournal old) := by
  refine .mk' (fun p => ?_) rfl (fun w => ?_)
  · cases p <;> first | exact .inl rfl | exact .inr rfl
  · have o := ho w
    rw [State.wf_iff] at w o ⊢
    have hv := o.2.2.2.2.2.2.2.2.2.2.2.2.2.2.1
    have ha := o.2.2.2.2.2.2.2.2.2.2.2.2.2.2.2
    have hs := w.2.2.2.2.2.2.2.2.2.2.2.2.2.2.1
    rw [Objects.wf_iff] at hv hs
    simp only [Ageing.wf, Bool.and_eq_true] at ha
    refine ⟨w.1, w.2.1, w.2.2.1, w.2.2.2.1, w.2.2.2.2.1, w.2.2.2.2.2.1, w.2.2.2.2.2.2.1, w.2.2.2.2.2.2.2.1,
      w.2.2.2.2.2.2.2.2.1, w.2.2.2.2.2.2.2.2.2.1, w.2.2.2.2.2.2.2.2.2.2.1, w.2.2.2.2.2.2.2.2.2.2.2.1,
      w.2.2.2.2.2.2.2.2.2.2.2.2.1, w.2.2.2.2.2.2.2.2.2.2.2.2.2.1, ?_, ?_⟩
    · rw [Objects.wf_iff]
      exact ⟨keysFrom_filter _ hv.1, hs.2⟩
    · simp only [State.keepJournal, Ageing.wf, Bool.and_eq_true]
      exact ⟨twf_tmap _ _ (twf_keys ha.1), ha.2⟩

theorem State.afterModule_runs (t : State) (p : Power) (f : Bool) (hp : t.power.wf = true → p.wf = true) :
    Runs [.power, .out] t ((t.setPower p).setOut { (t.setPower p).out with faultPin := f }) :=
  Runs.comp (State.setOut_runs ..) rfl ((State.setPower_runs t p hp).mono rfl)

theorem State.moduleReset_runs (s : State) : Runs [.clk, .ft, .pins, .power, .kettle, .cores, .sched, .txe, .sync, .mem, .urn, .fab, .links, .router, .caddy, .host, .steps, .red, .obj, .flash, .ageing, .tele, .out, .free] s s.moduleReset := by
  have ho : Runs [.clk, .ft, .pins, .power, .kettle, .cores, .sched, .txe, .sync, .mem, .urn, .fab, .links, .router, .caddy, .host, .steps, .red, .obj, .flash, .ageing, .tele, .out, .free] s s.mainOff := (State.mainOff_runs s).mono rfl
  unfold State.moduleReset
  generalize s.mainOff = u at *
  have hk : Runs [.clk, .ft, .pins, .power, .kettle, .cores, .sched, .txe, .sync, .mem, .urn, .fab, .links, .router, .caddy, .host, .steps, .red, .obj, .flash, .ageing, .tele, .out, .free] s (u.standbyCold.keepJournal u) := by
    refine .mk' (fun p => by cases p <;> exact .inr rfl) ho.queue (fun w => ?_)
    exact (State.keepJournal_runs _ _ (fun _ => ho.wf w)).wf ((State.standbyCold_runs _).wf (ho.wf w))
  have ha := Runs.comp (L := [.clk, .ft, .pins, .power, .kettle, .cores, .sched, .txe, .sync, .mem, .urn, .fab, .links, .router, .caddy, .host, .steps, .red, .obj, .flash, .ageing, .tele, .out, .free]) (State.readSlot_runs ..) rfl (Runs.comp (State.afterRestore_runs ..) rfl hk)
  dsimp only
  generalize (u.standbyCold.keepJournal u).afterRestore.readSlot = t at *
  refine ha.trans (Runs.mono (a := [.power, .out]) (State.afterModule_runs t _ _ ?_) rfl)
  exact fun h => Power.wf_same h rfl

end Sys2Proof.Machine
end

