-- ==== Sys2Proof/Laws/ValuesRuns.lean ====
section
/-!
SUPPORT. What the operations of Machine/Values.lean may change, and that they keep the canonical form.
-/

namespace Sys2Proof.Machine

theorem State.setArea_runs (s : State) (a : Nat) (x : AreaSt) : Runs [.obj] s (s.setArea a x) := by
  refine Runs.obj s _ (fun h => ?_)
  simp only [Objects.wf, Bool.and_eq_true] at h ⊢
  exact ⟨⟨h.1.1, twf_tset _ a x h.1.2⟩, h.2⟩

theorem State.clearRc_runs (s : State) (id : Nat) :
    Runs [.txe, .red, .obj] s (State.clearRc s id) := by
  unfold State.clearRc
  repeat' (first
    | with_reducible exact Runs.refl _
    | with_reducible assumption
    | exact Eq.refl true
    | exact fun h => h
    | dsimp only
    | with_reducible apply Runs.comp (State.setOv_runs ..)
    | with_reducible apply Runs.comp (State.setTxe_runs ..)
    | with_reducible apply Runs.comp (State.setRed_runs ..)
    | with_reducible apply Runs.foldl
    | with_reducible apply Runs.foldl_fst
    | intro _
    | split)

end Sys2Proof.Machine
end

