-- ==== Sys2Proof/Laws/ApplyRuns.lean ====
section
/-!
SUPPORT. What the operations of Machine/Apply.lean may change, and that they keep the canonical form.
-/

namespace Sys2Proof.Machine

theorem Urn.wf_lists {x y : Urn} (h : x.wf = true) (hb : y.bufs = x.bufs) (hl : y.lists = []) : y.wf = true := by
  rw [Urn.wf_iff] at h ⊢
  rw [hb, hl]
  exact ⟨h.1, rfl⟩

theorem keysFrom_foldl_tset {f : Nat → Nat} (xs : List (Nat × Nat)) {t : Tbl Nat} (h : keysFrom none t = true) :
    keysFrom none (xs.foldl (fun t p => tset (f p.1) t p.1 p.2) t) = true := by
  induction xs generalizing t with
  | nil => exact h
  | cons p xs ih => exact ih (keysFrom_tset _ _ _ h)

theorem Objects.commit_wf {o : Objects} (area : Nat) (h : o.wf = true) : (o.commit area).wf = true := by
  rw [Objects.wf_iff] at h ⊢
  exact ⟨keysFrom_foldl_tset _ h.1, h.2⟩

theorem State.discardArea_runs (s : State) (area : Nat) :
    Runs [.obj] s (State.discardArea s area) := by
  unfold State.discardArea
  repeat' (first
    | with_reducible exact Runs.refl _
    | with_reducible assumption
    | exact Eq.refl true
    | exact fun h => h
    | dsimp only
    | with_reducible apply Runs.comp (State.setArea_runs ..)
    | with_reducible apply Runs.comp (State.setObj_runs ..))

theorem State.discardAll_runs (s : State) :
    Runs [.obj] s (State.discardAll s) := by
  unfold State.discardAll
  repeat' (first
    | with_reducible exact Runs.refl _
    | with_reducible assumption
    | exact Eq.refl true
    | exact fun h => h
    | dsimp only
    | with_reducible apply Runs.comp (State.discardArea_runs ..)
    | with_reducible apply Runs.foldl
    | with_reducible apply Runs.foldl_fst
    | intro _)

theorem State.linkAgain_runs (s : State) (l : Nat) :
    Runs [.links, .router, .steps, .obj, .flash] s (State.linkAgain s l) := by
  unfold State.linkAgain
  repeat' (first
    | with_reducible exact Runs.refl _
    | with_reducible assumption
    | exact Eq.refl true
    | exact fun h => h
    | dsimp only
    | with_reducible apply Runs.comp (State.modLink_runs ..)
    | with_reducible apply Runs.comp (State.linkFall_runs ..)
    | with_reducible apply Runs.foldl
    | with_reducible apply Runs.foldl_fst
    | intro _
    | split)

theorem State.applied4_runs (s : State) (o : State) :
    Runs [.ft, .links, .router, .steps, .obj, .flash] s (State.applied4 s o) := by
  unfold State.applied4
  repeat' (first
    | with_reducible exact Runs.refl _
    | with_reducible assumption
    | exact Eq.refl true
    | exact fun h => h
    | dsimp only
    | with_reducible apply Runs.comp (State.linkAgain_runs ..)
    | with_reducible apply Runs.comp (State.ftFresh_runs ..)
    | with_reducible apply Runs.foldl
    | with_reducible apply Runs.foldl_fst
    | intro _
    | split)

theorem State.retireBegin_runs (s : State) (o : State) :
    Runs [.mem] s (State.retireBegin s o) := by
  unfold State.retireBegin
  repeat' (first
    | with_reducible exact Runs.refl _
    | with_reducible assumption
    | exact Eq.refl true
    | exact fun h => h
    | dsimp only
    | with_reducible apply Runs.comp (State.setMem_runs ..))

theorem State.applied5_runs (s : State) (o : State) :
    Runs [.mem, .urn, .fab] s (State.applied5 s o) := by
  unfold State.applied5
  repeat' (first
    | with_reducible exact Runs.refl _
    | with_reducible assumption
    | exact Eq.refl true
    | exact fun h => h
    | exact Urn.wf_lists (x := s.urn) (by assumption) rfl rfl
    | dsimp only
    | with_reducible apply Runs.comp (State.setUrn_runs ..)
    | with_reducible apply Runs.comp (State.setFab_runs ..)
    | with_reducible apply Runs.comp (State.retireBegin_runs ..)
    | with_reducible apply Runs.foldl
    | with_reducible apply Runs.foldl_fst
    | intro _
    | split)

theorem State.zeroStores_runs (s : State) (a : Nat) (n : Nat) :
    Runs [.cores] s (State.zeroStores s a n) := by
  unfold State.zeroStores
  repeat' (first
    | with_reducible exact Runs.refl _
    | with_reducible assumption
    | exact Eq.refl true
    | exact fun h => h
    | dsimp only
    | with_reducible apply Runs.comp (State.modCore_runs ..)
    | with_reducible apply Runs.foldl
    | with_reducible apply Runs.foldl_fst
    | intro _)

theorem State.applied6_runs (s : State) (o : State) :
    Runs [.cores] s (State.applied6 s o) := by
  unfold State.applied6
  repeat' (first
    | with_reducible exact Runs.refl _
    | with_reducible assumption
    | exact Eq.refl true
    | exact fun h => h
    | dsimp only
    | with_reducible apply Runs.comp (State.zeroStores_runs ..)
    | with_reducible apply Runs.foldl
    | with_reducible apply Runs.foldl_fst
    | intro _
    | split)

theorem State.applied8_runs (s : State) (o : State) :
    Runs [.red, .obj] s (State.applied8 s o) := by
  unfold State.applied8
  repeat' (first
    | with_reducible exact Runs.refl _
    | with_reducible assumption
    | exact Eq.refl true
    | exact fun h => h
    | dsimp only
    | with_reducible apply Runs.comp (State.setGf_runs ..)
    | with_reducible apply Runs.comp (State.modRedc_runs ..)
    | with_reducible apply Runs.comp (State.applyLayout_runs ..)
    | with_reducible apply Runs.foldl
    | with_reducible apply Runs.foldl_fst
    | intro _
    | split)

theorem State.appliedB_runs (s : State) (o : State) :
    Runs [.steps, .obj] s (State.appliedB s o) := by
  unfold State.appliedB
  repeat' (first
    | with_reducible exact Runs.refl _
    | with_reducible assumption
    | exact Eq.refl true
    | exact fun h => h
    | dsimp only
    | with_reducible apply Runs.comp (State.modStp_runs ..)
    | with_reducible apply Runs.comp (State.setOv_runs ..)
    | with_reducible apply Runs.foldl
    | with_reducible apply Runs.foldl_fst
    | intro _
    | split)

theorem State.appliedE_runs (s : State) (o : State) :
    Runs [.host] s (State.appliedE s o) := by
  unfold State.appliedE
  repeat' (first
    | with_reducible exact Runs.refl _
    | with_reducible assumption
    | exact Eq.refl true
    | exact fun h => h
    | dsimp only
    | with_reducible apply Runs.comp (State.modPage_runs ..)
    | with_reducible apply Runs.foldl
    | with_reducible apply Runs.foldl_fst
    | intro _
    | split)

theorem State.applied_runs (s : State) (o : State) (area : Nat) :
    Runs [.ft, .cores, .mem, .urn, .fab, .links, .router, .host, .steps, .red, .obj, .flash] s (State.applied s o area) := by
  unfold State.applied
  repeat' (first
    | with_reducible exact Runs.refl _
    | with_reducible assumption
    | exact Eq.refl true
    | exact fun h => h
    | dsimp only
    | with_reducible apply Runs.comp (State.applied4_runs ..)
    | with_reducible apply Runs.comp (State.applied5_runs ..)
    | with_reducible apply Runs.comp (State.applied6_runs ..)
    | with_reducible apply Runs.comp (State.applied8_runs ..)
    | with_reducible apply Runs.comp (State.appliedB_runs ..)
    | with_reducible apply Runs.comp (State.ftFresh_runs ..)
    | with_reducible apply Runs.comp (State.appliedE_runs ..)
    | with_reducible apply Runs.comp (State.linkAgain_runs ..)
    | with_reducible apply Runs.foldl
    | with_reducible apply Runs.foldl_fst
    | intro _
    | split)

theorem State.newGeneration_runs (s : State) (area : Nat) :
    Runs [.fab, .obj] s (State.newGeneration s area) := by
  unfold State.newGeneration
  repeat' (first
    | with_reducible exact Runs.refl _
    | with_reducible assumption
    | exact Eq.refl true
    | exact fun h => h
    | dsimp only
    | with_reducible apply Runs.comp (State.setFab_runs ..)
    | with_reducible apply Runs.comp (State.modOv_runs ..)
    | with_reducible apply Runs.foldl
    | with_reducible apply Runs.foldl_fst
    | intro _
    | split)

theorem State.commitArea_runs (s : State) (area : Nat) :
    Runs [.ft, .cores, .mem, .urn, .fab, .links, .router, .host, .steps, .red, .obj, .flash] s (State.commitArea s area) := by
  unfold State.commitArea
  repeat' (first
    | with_reducible exact Runs.refl _
    | with_reducible assumption
    | exact Eq.refl true
    | exact fun h => h
    | exact Objects.commit_wf _ (by assumption)
    | dsimp only
    | with_reducible apply Runs.comp (State.applied_runs ..)
    | with_reducible apply Runs.comp (State.setObj_runs ..)
    | with_reducible apply Runs.comp (State.newGeneration_runs ..)
    | with_reducible apply Runs.foldl
    | with_reducible apply Runs.foldl_fst
    | intro _)

theorem State.countCommit_runs (s : State) (area : Nat) :
    Runs [.obj] s (State.countCommit s area) := by
  unfold State.countCommit
  repeat' (first
    | with_reducible exact Runs.refl _
    | with_reducible assumption
    | exact Eq.refl true
    | exact fun h => h
    | dsimp only
    | with_reducible apply Runs.comp (State.setArea_runs ..))

theorem State.journalAll_runs (s : State) (rs : List JRec) :
    Runs [.flash] s (State.journalAll s rs) := by
  unfold State.journalAll
  repeat' (first
    | with_reducible exact Runs.refl _
    | with_reducible assumption
    | exact Eq.refl true
    | exact fun h => h
    | dsimp only
    | with_reducible apply Runs.comp (State.journal_runs ..)
    | with_reducible apply Runs.foldl
    | with_reducible apply Runs.foldl_fst
    | intro _)

theorem State.applyArea_runs (s : State) (area : Nat) :
    Runs [.ft, .cores, .mem, .urn, .fab, .links, .router, .host, .steps, .red, .obj, .flash, .out] s (State.applyArea s area).1 := by
  unfold State.applyArea
  repeat' (first
    | with_reducible exact Runs.refl _
    | with_reducible assumption
    | exact Eq.refl true
    | exact fun h => h
    | dsimp only
    | with_reducible apply Runs.comp (State.countCommit_runs ..)
    | with_reducible apply Runs.comp (State.newGeneration_runs ..)
    | with_reducible apply Runs.comp (State.event_runs ..)
    | with_reducible apply Runs.comp (State.service_runs ..)
    | with_reducible apply Runs.comp (State.setArea_runs ..)
    | with_reducible apply Runs.comp (State.journalAll_runs ..)
    | with_reducible apply Runs.comp (State.commitArea_runs ..)
    | with_reducible apply Runs.foldl
    | with_reducible apply Runs.foldl_fst
    | intro _
    | split)

theorem State.unsend_runs (s : State) (tag : Nat) (dest : Nat) :
    Runs [.fab, .router] s (State.unsend s tag dest) := by
  unfold State.unsend
  repeat' (first
    | with_reducible exact Runs.refl _
    | with_reducible assumption
    | exact Eq.refl true
    | exact fun h => h
    | exact Router.wf_inj _ _
    | dsimp only
    | with_reducible apply Runs.comp (State.setRouter_runs ..)
    | with_reducible apply Runs.comp (State.setFab_runs ..)
    | with_reducible apply Runs.foldl
    | with_reducible apply Runs.foldl_fst
    | intro _)

theorem State.seqBack_runs (s : State) (a : AtomOut) :
    Runs [.fab, .router] s (State.seqBack s a) := by
  unfold State.seqBack
  repeat' (first
    | with_reducible exact Runs.refl _
    | with_reducible assumption
    | exact Eq.refl true
    | exact fun h => h
    | exact Router.wf_inj _ _
    | dsimp only
    | with_reducible apply Runs.comp (State.setRouter_runs ..)
    | with_reducible apply Runs.comp (State.setFab_runs ..)
    | with_reducible apply Runs.foldl
    | with_reducible apply Runs.foldl_fst
    | intro _)

theorem State.atomDrop_runs (s : State) (tag : Nat) :
    Runs [.fab, .router] s (State.atomDrop s tag) := by
  unfold State.atomDrop
  repeat' (first
    | with_reducible exact Runs.refl _
    | with_reducible assumption
    | exact Eq.refl true
    | exact fun h => h
    | dsimp only
    | with_reducible apply Runs.comp (State.setFab_runs ..)
    | with_reducible apply Runs.comp (State.seqBack_runs ..)
    | with_reducible apply Runs.foldl
    | with_reducible apply Runs.foldl_fst
    | intro _
    | split)

theorem State.cmdRefuse_runs (s : State) (c : FabCmd) :
    Runs [.sync, .mem, .fab, .router, .steps, .obj] s (State.cmdRefuse s c) := by
  unfold State.cmdRefuse
  repeat' (first
    | with_reducible exact Runs.refl _
    | with_reducible assumption
    | exact Eq.refl true
    | exact fun h => h
    | dsimp only
    | with_reducible apply Runs.comp (State.atomDrop_runs ..)
    | with_reducible apply Runs.comp (State.unsend_runs ..)
    | with_reducible apply Runs.comp (State.fabFlow_runs ..)
    | with_reducible apply Runs.comp (State.fabComplete_runs ..)
    | with_reducible apply Runs.comp (State.fabFlag_runs ..))

theorem State.tileRefuse_runs (s : State) (r : TileReq) :
    Runs [.cores, .txe, .sync, .mem, .urn, .fab, .router, .host, .steps, .obj, .out] s (State.tileRefuse s r) := by
  unfold State.tileRefuse
  repeat' (first
    | with_reducible exact Runs.refl _
    | with_reducible assumption
    | exact Eq.refl true
    | exact fun h => h
    | dsimp only
    | with_reducible apply Runs.comp (State.tileAnswer_runs ..)
    | with_reducible apply Runs.comp (State.fabFlag_runs ..)
    | with_reducible apply Runs.comp (State.unsend_runs ..))

theorem State.cmdNote_runs (s : State) (c : FabCmd) :
    Runs [.fab] s (State.cmdNote s c) := by
  unfold State.cmdNote
  repeat' (first
    | with_reducible exact Runs.refl _
    | with_reducible assumption
    | exact Eq.refl true
    | exact fun h => h
    | dsimp only
    | with_reducible apply Runs.comp (State.lookNote_runs ..))

theorem State.tileNote_runs (s : State) (r : TileReq) :
    Runs [.fab] s (State.tileNote s r) := by
  unfold State.tileNote
  repeat' (first
    | with_reducible exact Runs.refl _
    | with_reducible assumption
    | exact Eq.refl true
    | exact fun h => h
    | dsimp only
    | with_reducible apply Runs.comp (State.lookNote_runs ..))

theorem State.recheckCmd_runs (s : State) (c : FabCmd) :
    Runs [.sync, .mem, .fab, .router, .steps, .obj] s (State.recheckCmd s c) := by
  unfold State.recheckCmd
  repeat' (first
    | with_reducible exact Runs.refl _
    | with_reducible assumption
    | exact Eq.refl true
    | exact fun h => h
    | dsimp only
    | with_reducible apply Runs.comp (State.cmdRefuse_runs ..)
    | with_reducible apply Runs.foldl
    | with_reducible apply Runs.foldl_fst
    | intro _
    | split)

theorem State.recheckTile_runs (s : State) (r : TileReq) :
    Runs [.cores, .txe, .sync, .mem, .urn, .fab, .router, .host, .steps, .obj, .out] s (State.recheckTile s r) := by
  unfold State.recheckTile
  repeat' (first
    | with_reducible exact Runs.refl _
    | with_reducible assumption
    | exact Eq.refl true
    | exact fun h => h
    | dsimp only
    | with_reducible apply Runs.comp (State.tileRefuse_runs ..)
    | with_reducible apply Runs.foldl
    | with_reducible apply Runs.foldl_fst
    | intro _
    | split)

theorem State.permNote_runs (s : State) (p : Packet) :
    Runs [.fab] s (State.permNote s p) := by
  unfold State.permNote
  repeat' (first
    | with_reducible exact Runs.refl _
    | with_reducible assumption
    | exact Eq.refl true
    | exact fun h => h
    | dsimp only
    | with_reducible apply Runs.comp (State.lookNote_runs ..))

theorem State.recheckPerm_runs (s : State) (p : Packet) :
    Runs [.fab, .router, .red, .obj] s (State.recheckPerm s p) := by
  unfold State.recheckPerm
  repeat' (first
    | with_reducible exact Runs.refl _
    | with_reducible assumption
    | exact Eq.refl true
    | exact fun h => h
    | dsimp only
    | with_reducible apply Runs.comp (State.fabFlag_runs ..)
    | with_reducible apply Runs.comp (State.permAck_runs ..)
    | with_reducible apply Runs.comp (State.unsend_runs ..)
    | with_reducible apply Runs.foldl
    | with_reducible apply Runs.foldl_fst
    | intro _
    | split)

theorem State.regenerate_runs (s : State) :
    Runs [.fab, .router] s (State.regenerate s) := by
  unfold State.regenerate
  repeat' (first
    | with_reducible exact Runs.refl _
    | with_reducible assumption
    | exact Eq.refl true
    | exact fun h => h
    | exact Router.wf_inj _ _
    | dsimp only
    | with_reducible apply Runs.comp (State.setRouter_runs ..)
    | with_reducible apply Runs.comp (State.setFab_runs ..)
    | with_reducible apply Runs.foldl
    | with_reducible apply Runs.foldl_fst
    | intro _)

theorem State.syncRecheck_runs (s : State) :
    Runs [.router, .steps, .obj] s (State.syncRecheck s) := by
  unfold State.syncRecheck
  repeat' (first
    | with_reducible exact Runs.refl _
    | with_reducible assumption
    | exact Eq.refl true
    | exact fun h => h
    | exact Router.wf_inj _ _
    | dsimp only
    | with_reducible apply Runs.comp (State.setRouter_runs ..)
    | with_reducible apply Runs.comp (State.mapFault_runs ..)
    | with_reducible apply Runs.foldl
    | with_reducible apply Runs.foldl_fst
    | intro _)

theorem State.recheck_runs (s : State) (area : Nat) :
    Runs [.cores, .txe, .sync, .mem, .urn, .fab, .router, .host, .steps, .red, .obj, .out] s (State.recheck s area) := by
  unfold State.recheck
  repeat' (first
    | with_reducible exact Runs.refl _
    | with_reducible assumption
    | exact Eq.refl true
    | exact fun h => h
    | dsimp only
    | with_reducible apply Runs.comp (State.recheckCmd_runs ..)
    | with_reducible apply Runs.comp (State.cmdNote_runs ..)
    | with_reducible apply Runs.comp (State.recheckTile_runs ..)
    | with_reducible apply Runs.comp (State.tileNote_runs ..)
    | with_reducible apply Runs.comp (State.regenerate_runs ..)
    | with_reducible apply Runs.comp (State.recheckPerm_runs ..)
    | with_reducible apply Runs.comp (State.permNote_runs ..)
    | with_reducible apply Runs.comp (State.syncRecheck_runs ..)
    | with_reducible apply Runs.foldl
    | with_reducible apply Runs.foldl_fst
    | intro _
    | split)

theorem State.drained_runs (s : State) (d : Deferred) :
    Runs [.cores, .txe, .sync, .mem, .urn, .fab, .router, .caddy, .host, .steps, .red, .obj, .flash, .out] s (State.drained s d) := by
  unfold State.drained
  repeat' (first
    | with_reducible exact Runs.refl _
    | with_reducible assumption
    | exact Eq.refl true
    | exact fun h => h
    | dsimp only
    | with_reducible apply Runs.comp (State.recheck_runs ..)
    | with_reducible apply Runs.comp (State.bump_runs ..)
    | with_reducible apply Runs.comp (State.journalAll_runs ..)
    | with_reducible apply Runs.comp (State.setCaddy_runs ..)
    | with_reducible apply Runs.comp (State.event_runs ..)
    | with_reducible apply Runs.foldl
    | with_reducible apply Runs.foldl_fst
    | intro _
    | split)

theorem State.retireOne_runs (s : State) :
    Runs [.mem, .router, .host, .flash, .out] s (State.retireOne s) := by
  unfold State.retireOne
  repeat' (first
    | with_reducible exact Runs.refl _
    | with_reducible assumption
    | exact Eq.refl true
    | exact fun h => h
    | dsimp only
    | with_reducible apply Runs.comp (State.setMem_runs ..)
    | with_reducible apply Runs.comp (State.service_runs ..)
    | with_reducible apply Runs.foldl
    | with_reducible apply Runs.foldl_fst
    | intro _
    | split)

end Sys2Proof.Machine
end

