-- ==== Sys2Proof/Laws/AgeingRuns.lean ====
section
/-!
SUPPORT. What the operations of Machine/Ageing.lean may change, and that they keep the canonical form.
-/

namespace Sys2Proof.Machine

theorem Ageing.wf_retention {x y : Ageing} (h : x.wf = true) (k v : Nat) (hu : y.units = x.units)
    (e : y.retention = tset 8 x.retention k v) : y.wf = true := by
  simp only [Ageing.wf, Bool.and_eq_true] at h ⊢
  rw [hu, e]
  exact ⟨h.1, twf_tset _ _ _ h.2⟩

theorem State.ringOsc_runs (unit : Nat) (counts : List Nat) (s : State) :
    Runs [.ageing] s (State.ringOsc unit counts s) := by
  unfold State.ringOsc
  repeat' (first
    | with_reducible exact Runs.refl _
    | with_reducible assumption
    | exact Eq.refl true
    | exact fun h => h
    | dsimp only
    | with_reducible apply Runs.comp (State.modAge_runs ..))

theorem State.critPath_runs (unit : Nat) (vmin : List Nat) (s : State) :
    Runs [.ageing] s (State.critPath unit vmin s) := by
  unfold State.critPath
  repeat' (first
    | with_reducible exact Runs.refl _
    | with_reducible assumption
    | exact Eq.refl true
    | exact fun h => h
    | dsimp only
    | with_reducible apply Runs.comp (State.modAge_runs ..)
    | with_reducible apply Runs.foldl
    | with_reducible apply Runs.foldl_fst
    | intro _
    | split)

theorem State.laserBias_runs (link : Nat) (ratios : List Nat) (s : State) :
    Runs [.ageing] s (State.laserBias link ratios s) := by
  unfold State.laserBias
  repeat' (first
    | with_reducible exact Runs.refl _
    | with_reducible assumption
    | exact Eq.refl true
    | exact fun h => h
    | dsimp only
    | with_reducible apply Runs.comp (State.setAgeing_runs ..)
    | with_reducible apply Runs.foldl
    | with_reducible apply Runs.foldl_fst
    | intro _)

theorem State.putRetention_runs (s : State) (k v : Nat) :
    Runs [.ageing] s (s.setAgeing { s.ageing with retention := tset 8 s.ageing.retention k v }) :=
  State.setAgeing_runs _ _ (fun h => Ageing.wf_retention h k v rfl rfl)

theorem State.retention_runs (stack channel multiple : Nat) (s : State) :
    Runs [.router, .host, .flash, .ageing, .out] s (s.retention stack channel multiple) := by
  unfold State.retention
  dsimp only
  split
  · with_reducible exact Runs.comp (State.putRetention_runs ..) rfl (Runs.refl _)
  · split
    · with_reducible apply Runs.comp (State.service_runs ..) rfl
      with_reducible exact Runs.comp (State.putRetention_runs ..) rfl (Runs.refl _)
    · with_reducible exact Runs.comp (State.putRetention_runs ..) rfl (Runs.refl _)

theorem State.planUnit_runs (s : State) (u : Nat) : Runs [.ageing] s (s.planUnit u) := by
  unfold State.planUnit
  dsimp only
  with_reducible exact Runs.comp (State.setAge_runs ..) rfl (Runs.refl _)

theorem State.setBusy_runs (s : State) : Runs [.ageing, .free] s s.setBusy :=
  Runs.comp (State.fresh_runs ..) rfl (Runs.comp (State.setAgeing_runs s _ (fun h => h)) rfl (Runs.refl s))

theorem State.replan_runs (s : State) : Runs [.router, .host, .flash, .ageing, .out, .free] s s.replan := by
  have hs : ∀ (b : Nat) (c : Bool) (t : State), Runs [.router, .host, .flash, .ageing, .out, .free] t (when_ c (·.service b) t) := fun b c t =>
    when_runs (fun t => (State.service_runs t b).mono rfl) c t
  have hp : ∀ t : State, Runs [.router, .host, .flash, .ageing, .out, .free] t ((List.range 5).foldl (fun s u => s.planUnit u) t) := fun t =>
    Runs.foldl (fun t u => (State.planUnit_runs t u).mono rfl) _ (Runs.refl t)
  have hb : ∀ t : State, Runs [.router, .host, .flash, .ageing, .out, .free] t (t.journal .plan).setBusy := fun t =>
    Runs.comp (State.setBusy_runs ..) rfl ((State.journal_runs ..).mono rfl)
  exact (((hs 10 _ s).trans (hp _)).trans (hs 9 _ _)).trans (hb _)

theorem State.biasHour_runs (s : State) (k : Nat) :
    Runs [.router, .host, .flash, .ageing, .out] s (State.biasHour s k) := by
  unfold State.biasHour
  repeat' (first
    | with_reducible exact Runs.refl _
    | with_reducible assumption
    | exact Eq.refl true
    | exact fun h => h
    | dsimp only
    | with_reducible apply Runs.comp (State.setAgeing_runs ..)
    | with_reducible apply Runs.comp (State.service_runs ..)
    | with_reducible apply Runs.foldl
    | with_reducible apply Runs.foldl_fst
    | intro _
    | split)

theorem State.hourTick_runs (s : State) :
    Runs [.router, .host, .flash, .ageing, .out, .free] s (State.hourTick s) := by
  unfold State.hourTick
  repeat' (first
    | with_reducible exact Runs.refl _
    | with_reducible assumption
    | exact Eq.refl true
    | exact fun h => h
    | dsimp only
    | with_reducible apply Runs.comp (State.setAgeing_runs ..)
    | with_reducible apply Runs.comp (State.modAge_runs ..)
    | with_reducible apply Runs.comp (State.biasHour_runs ..)
    | with_reducible apply Runs.comp (State.journal_runs ..)
    | with_reducible apply Runs.comp (State.replan_runs ..)
    | with_reducible apply Runs.foldl
    | with_reducible apply Runs.foldl_fst
    | intro _
    | split)

theorem execRingOscSample_runs (unit : Nat) (counts : List Nat) (s : State) :
    RunsTo [.ageing] s (execRingOscSample unit counts s) := by
  unfold execRingOscSample
  repeat' (first
    | with_reducible refine RunsTo.need ?_
    | with_reducible refine RunsTo.next ?_
    | with_reducible exact Runs.refl _
    | with_reducible assumption
    | exact Eq.refl true
    | exact fun h => h
    | dsimp only
    | with_reducible apply powered_runs
    | with_reducible apply Runs.comp (State.ringOsc_runs ..))

theorem execCriticalPathSample_runs (unit : Nat) (vmin : List Nat) (s : State) :
    RunsTo [.ageing] s (execCriticalPathSample unit vmin s) := by
  unfold execCriticalPathSample
  repeat' (first
    | with_reducible refine RunsTo.need ?_
    | with_reducible refine RunsTo.next ?_
    | with_reducible exact Runs.refl _
    | with_reducible assumption
    | exact Eq.refl true
    | exact fun h => h
    | dsimp only
    | with_reducible apply powered_runs
    | with_reducible apply Runs.comp (State.critPath_runs ..))

theorem execLaserBiasSample_runs (link : Nat) (ratios : List Nat) (s : State) :
    RunsTo [.ageing] s (execLaserBiasSample link ratios s) := by
  unfold execLaserBiasSample
  repeat' (first
    | with_reducible refine RunsTo.need ?_
    | with_reducible refine RunsTo.next ?_
    | with_reducible exact Runs.refl _
    | with_reducible assumption
    | exact Eq.refl true
    | exact fun h => h
    | dsimp only
    | with_reducible apply powered_runs
    | with_reducible apply Runs.comp (State.laserBias_runs ..))

theorem execRetentionTest_runs (stack : Nat) (channel : Nat) (multiple : Nat) (s : State) :
    RunsTo [.router, .host, .flash, .ageing, .out] s (execRetentionTest stack channel multiple s) := by
  unfold execRetentionTest
  repeat' (first
    | with_reducible refine RunsTo.need ?_
    | with_reducible refine RunsTo.next ?_
    | with_reducible exact Runs.refl _
    | with_reducible assumption
    | exact Eq.refl true
    | exact fun h => h
    | dsimp only
    | with_reducible apply powered_runs
    | with_reducible apply Runs.comp (State.retention_runs ..))

theorem execPoweredHourTick_runs (s : State) :
    RunsTo [.router, .host, .flash, .ageing, .out, .free] s (execPoweredHourTick s) := by
  unfold execPoweredHourTick
  repeat' (first
    | with_reducible refine RunsTo.need ?_
    | with_reducible refine RunsTo.next ?_
    | with_reducible exact Runs.refl _
    | with_reducible assumption
    | exact Eq.refl true
    | exact fun h => h
    | dsimp only
    | with_reducible apply Runs.comp (State.hourTick_runs ..))

end Sys2Proof.Machine
end

