-- ==== Sys2Proof/Laws/TelemetryRuns.lean ====
section
/-!
SUPPORT. What the operations of Machine/Telemetry.lean may change, and that they keep the canonical form.
-/

namespace Sys2Proof.Machine

theorem State.countCycles_runs (s : State) :
    Runs [.tele] s (State.countCycles s) := by
  unfold State.countCycles
  repeat' (first
    | with_reducible exact Runs.refl _
    | with_reducible assumption
    | exact Eq.refl true
    | exact fun h => h
    | dsimp only
    | with_reducible apply Runs.comp (State.setTele_runs ..)
    | with_reducible apply Runs.foldl
    | with_reducible apply Runs.foldl_fst
    | intro _
    | split)

theorem State.sample_runs (idle : List IdleGroup) (phases : List Nat) (s : State) :
    Runs [.tele] s (State.sample idle phases s) := by
  unfold State.sample
  repeat' (first
    | with_reducible exact Runs.refl _
    | with_reducible assumption
    | exact Eq.refl true
    | exact fun h => h
    | dsimp only
    | with_reducible apply Runs.comp (State.setTele_runs ..)
    | with_reducible apply Runs.foldl
    | with_reducible apply Runs.foldl_fst
    | intro _
    | split)

theorem execTelemetrySample_runs (idle : List IdleGroup) (phases : List Nat) (s : State) :
    RunsTo [.tele] s (execTelemetrySample idle phases s) := by
  unfold execTelemetrySample
  repeat' (first
    | with_reducible refine RunsTo.need ?_
    | with_reducible refine RunsTo.next ?_
    | with_reducible exact Runs.refl _
    | with_reducible assumption
    | exact Eq.refl true
    | exact fun h => h
    | dsimp only
    | with_reducible apply powered_runs
    | with_reducible apply Runs.comp (State.sample_runs ..))

end Sys2Proof.Machine
end

