-- ==== Sys2Proof/Laws/ClockRuns.lean ====
section
/-!
SUPPORT. What the operations of Machine/Clock.lean may change, and that they keep the canonical form.
-/

namespace Sys2Proof.Machine

theorem State.microsecond_runs (s : State) :
    Runs [.router, .flash, .tele] s (State.microsecond s) := by
  unfold State.microsecond
  repeat' (first
    | with_reducible exact Runs.refl _
    | with_reducible assumption
    | exact Eq.refl true
    | exact fun h => h
    | dsimp only
    | with_reducible apply Runs.comp (State.waitNotices_runs ..)
    | with_reducible apply Runs.comp (State.countCycles_runs ..)
    | with_reducible apply Runs.foldl
    | with_reducible apply Runs.foldl_fst
    | intro _
    | split)

theorem FabTime.tick_wf {f : FabTime} (h : f.wf = true) : f.tick.wf = true := by
  unfold FabTime.tick
  dsimp only
  repeat' split
  all_goals exact h

theorem State.idle_runs (s : State) : Runs [.clk, .ft, .sched, .mem, .urn, .router, .host, .obj, .flash, .tele, .out] s s.idle := by
  unfold State.idle
  refine Runs.comp (State.flaws_runs _) rfl (Runs.comp (State.microsecond_runs _) rfl
    (Runs.comp (State.notice_runs _) rfl ?_))
  exact Runs.trans ((Runs.clk s (s.clk + 1)).mono rfl)
    ((Runs.ft { s with clk := s.clk + 1 } s.ft.tick (fun h => FabTime.tick_wf h)).mono rfl)

end Sys2Proof.Machine
end

