-- ==== Sys2Proof/Laws/DescRuns.lean ====
section
/-!
SUPPORT. What the operations of Machine/Desc.lean may change, and that they keep the canonical form.
-/

namespace Sys2Proof.Machine

end Sys2Proof.Machine
end

