-- ==== Sys2Proof/Laws/MgmtRuns.lean ====
section
/-!
SUPPORT. What the operations of Machine/Mgmt.lean may change, and that they keep the canonical form.
-/

namespace Sys2Proof.Machine

theorem Caddy.wf_session {x y : Caddy} (h : x.wf = true) (k : Nat) (v : Session) (e : y.sessions = tins x.sessions k v) :
    y.wf = true := by
  unfold Caddy.wf at h ⊢
  rw [e]
  exact keysFrom_tins _ h (by simp)

theorem Caddy.wf_erase {x y : Caddy} (h : x.wf = true) (k : Nat) (e : y.sessions = terase x.sessions k) : y.wf = true := by
  unfold Caddy.wf at h ⊢
  rw [e]
  exact keysFrom_terase _ h

theorem State.setSession_runs (s : State) (cls : Nat) (x : Session) :
    Runs [.caddy] s (State.setSession s cls x) := by
  unfold State.setSession
  repeat' (first
    | with_reducible exact Runs.refl _
    | with_reducible assumption
    | exact Eq.refl true
    | exact fun h => h
    | exact Caddy.wf_session (x := s.caddy) (by assumption) _ _ rfl
    | dsimp only
    | with_reducible apply Runs.comp (State.setCaddy_runs ..)
    | with_reducible apply Runs.foldl
    | with_reducible apply Runs.foldl_fst
    | intro _)

theorem State.endSession_runs (s : State) (cls : Nat) :
    Runs [.caddy] s (State.endSession s cls) := by
  unfold State.endSession
  repeat' (first
    | with_reducible exact Runs.refl _
    | with_reducible assumption
    | exact Eq.refl true
    | exact fun h => h
    | exact Caddy.wf_erase (x := s.caddy) (by assumption) _ rfl
    | dsimp only
    | with_reducible apply Runs.comp (State.setCaddy_runs ..)
    | with_reducible apply Runs.foldl
    | with_reducible apply Runs.foldl_fst
    | intro _)

theorem State.sendReply_runs (s : State) (m : MgmtMsg) :
    Runs [.router, .host, .out] s (State.sendReply s m) := by
  unfold State.sendReply
  repeat' (first
    | with_reducible exact Runs.refl _
    | with_reducible assumption
    | exact Eq.refl true
    | exact fun h => h
    | dsimp only
    | with_reducible apply Runs.comp (State.emitMsg_runs ..)
    | with_reducible apply Runs.comp (State.interrupt_runs ..)
    | with_reducible apply Runs.comp (State.setMailbox_runs ..)
    | with_reducible apply Runs.comp (State.mgmtPacket_runs ..)
    | with_reducible apply Runs.comp (State.trayOut_runs ..)
    | with_reducible apply Runs.foldl
    | with_reducible apply Runs.foldl_fst
    | intro _
    | split)

theorem State.cacheReply_runs (s : State) (m : MgmtMsg) :
    Runs [.caddy] s (State.cacheReply s m) := by
  unfold State.cacheReply
  repeat' (first
    | with_reducible exact Runs.refl _
    | with_reducible assumption
    | exact Eq.refl true
    | exact fun h => h
    | dsimp only
    | with_reducible apply Runs.comp (State.setSession_runs ..)
    | with_reducible apply Runs.foldl
    | with_reducible apply Runs.foldl_fst
    | intro _
    | split)

theorem State.refuse_runs (s : State) (r : Req) (op : Nat) (status : Nat) :
    Runs [.router, .host, .out] s (State.refuse s r op status) := by
  unfold State.refuse
  repeat' (first
    | with_reducible exact Runs.refl _
    | with_reducible assumption
    | exact Eq.refl true
    | exact fun h => h
    | dsimp only
    | with_reducible apply Runs.comp (State.sendReply_runs ..))

theorem State.answer_runs (s : State) (m : MgmtMsg) :
    Runs [.router, .caddy, .host, .out] s (State.answer s m) := by
  unfold State.answer
  repeat' (first
    | with_reducible exact Runs.refl _
    | with_reducible assumption
    | exact Eq.refl true
    | exact fun h => h
    | dsimp only
    | with_reducible apply Runs.comp (State.sendReply_runs ..)
    | with_reducible apply Runs.comp (State.cacheReply_runs ..))

theorem State.ownerGone_runs (s : State) :
    Runs [.router, .caddy, .host, .obj, .out] s (State.ownerGone s) := by
  unfold State.ownerGone
  repeat' (first
    | with_reducible exact Runs.refl _
    | with_reducible assumption
    | exact Eq.refl true
    | exact fun h => h
    | dsimp only
    | with_reducible apply Runs.comp (State.event_runs ..)
    | with_reducible apply Runs.comp (State.discardAll_runs ..)
    | with_reducible apply Runs.comp (State.setCaddy_runs ..))

theorem State.leaseEnds_runs (s : State) :
    Runs [.router, .caddy, .host, .obj, .out] s (State.leaseEnds s) := by
  unfold State.leaseEnds
  repeat' (first
    | with_reducible exact Runs.refl _
    | with_reducible assumption
    | exact Eq.refl true
    | exact fun h => h
    | dsimp only
    | with_reducible apply Runs.comp (State.event_runs ..)
    | with_reducible apply Runs.comp (State.ownerGone_runs ..)
    | with_reducible apply Runs.foldl
    | with_reducible apply Runs.foldl_fst
    | intro _
    | split)

theorem State.handoverEnds_runs (s : State) :
    Runs [.router, .caddy, .host, .out] s (State.handoverEnds s) := by
  unfold State.handoverEnds
  repeat' (first
    | with_reducible exact Runs.refl _
    | with_reducible assumption
    | exact Eq.refl true
    | exact fun h => h
    | dsimp only
    | with_reducible apply Runs.comp (State.event_runs ..)
    | with_reducible apply Runs.comp (State.setCaddy_runs ..)
    | with_reducible apply Runs.foldl
    | with_reducible apply Runs.foldl_fst
    | intro _
    | split)

theorem State.sessionEnds_runs (s : State) (cls : Nat) :
    Runs [.caddy] s (State.sessionEnds s cls) := by
  unfold State.sessionEnds
  repeat' (first
    | with_reducible exact Runs.refl _
    | with_reducible assumption
    | exact Eq.refl true
    | exact fun h => h
    | dsimp only
    | with_reducible apply Runs.comp (State.endSession_runs ..)
    | with_reducible apply Runs.foldl
    | with_reducible apply Runs.foldl_fst
    | intro _
    | split)

theorem State.lockEnds_runs (s : State) (cls : Nat) :
    Runs [.caddy] s (State.lockEnds s cls) := by
  unfold State.lockEnds
  repeat' (first
    | with_reducible exact Runs.refl _
    | with_reducible assumption
    | exact Eq.refl true
    | exact fun h => h
    | dsimp only
    | with_reducible apply Runs.comp (State.setCaddy_runs ..))

theorem State.settle_runs (s : State) :
    Runs [.router, .caddy, .host, .obj, .out] s (State.settle s) := by
  unfold State.settle
  repeat' (first
    | with_reducible exact Runs.refl _
    | with_reducible assumption
    | exact Eq.refl true
    | exact fun h => h
    | dsimp only
    | with_reducible apply Runs.comp (State.sessionEnds_runs ..)
    | with_reducible apply Runs.comp (State.leaseEnds_runs ..)
    | with_reducible apply Runs.comp (State.handoverEnds_runs ..)
    | with_reducible apply Runs.foldl
    | with_reducible apply Runs.foldl_fst
    | intro _
    | split)

theorem State.renewLease_runs (s : State) :
    Runs [.caddy] s (State.renewLease s) := by
  unfold State.renewLease
  repeat' (first
    | with_reducible exact Runs.refl _
    | with_reducible assumption
    | exact Eq.refl true
    | exact fun h => h
    | dsimp only
    | with_reducible apply Runs.comp (State.setCaddy_runs ..)
    | with_reducible apply Runs.foldl
    | with_reducible apply Runs.foldl_fst
    | intro _
    | split)

theorem State.grant_runs (s : State) (r : Req) (prio : Nat) :
    Runs [.router, .caddy, .host, .obj, .out] s (State.grant s r prio) := by
  unfold State.grant
  repeat' (first
    | with_reducible exact Runs.refl _
    | with_reducible assumption
    | exact Eq.refl true
    | exact fun h => h
    | dsimp only
    | with_reducible apply Runs.comp (State.event_runs ..)
    | with_reducible apply Runs.comp (State.discardAll_runs ..)
    | with_reducible apply Runs.comp (State.setCaddy_runs ..))

theorem State.authFail_runs (s : State) (cls : Nat) :
    Runs [.caddy] s (State.authFail s cls) := by
  unfold State.authFail
  repeat' (first
    | with_reducible exact Runs.refl _
    | with_reducible assumption
    | exact Eq.refl true
    | exact fun h => h
    | dsimp only
    | with_reducible apply Runs.comp (State.setCaddy_runs ..)
    | with_reducible apply Runs.foldl
    | with_reducible apply Runs.foldl_fst
    | intro _
    | split)

theorem State.nextChallenge_runs (s : State) (cls : Nat) (x : Session) :
    Runs [.caddy, .free] s (State.nextChallenge s cls x) := by
  unfold State.nextChallenge
  repeat' (first
    | with_reducible exact Runs.refl _
    | with_reducible assumption
    | exact Eq.refl true
    | exact fun h => h
    | dsimp only
    | with_reducible apply Runs.comp (State.setSession_runs ..)
    | with_reducible apply Runs.comp (State.fresh_runs ..))

theorem State.claimRow_runs (s : State) (r : Req) (prio : Nat) (pre : Bool) :
    Runs [.router, .caddy, .host, .obj, .out] s (State.claimRow s r prio pre).1 := by
  unfold State.claimRow
  repeat' (first
    | with_reducible exact Runs.refl _
    | with_reducible assumption
    | exact Eq.refl true
    | exact fun h => h
    | dsimp only
    | with_reducible apply Runs.comp (State.grant_runs ..)
    | with_reducible apply Runs.comp (State.setCaddy_runs ..)
    | with_reducible apply Runs.foldl
    | with_reducible apply Runs.foldl_fst
    | intro _
    | split)

theorem State.claimOwner_runs (s : State) (r : Req) (x : Session) (prio : Nat) (pre : Bool) (tag : List Byte) :
    Runs [.router, .caddy, .host, .obj, .out, .free] s (State.claim_ s r x prio pre tag).1 := by
  unfold State.claim_
  repeat' (first
    | with_reducible exact Runs.refl _
    | with_reducible assumption
    | exact Eq.refl true
    | exact fun h => h
    | dsimp only
    | with_reducible apply Runs.comp (State.nextChallenge_runs ..)
    | with_reducible apply Runs.comp (State.claimRow_runs ..)
    | refine Runs.of_pair (Runs.comp (State.claimRow_runs ..) rfl ?_) (by assumption)
    | with_reducible apply Runs.comp (State.authFail_runs ..)
    | with_reducible apply Runs.foldl
    | with_reducible apply Runs.foldl_fst
    | intro _
    | split)

theorem State.handTo_runs (s : State) (target : Nat) :
    Runs [.caddy] s (State.handTo s target).1 := by
  unfold State.handTo
  repeat' (first
    | with_reducible exact Runs.refl _
    | with_reducible assumption
    | exact Eq.refl true
    | exact fun h => h
    | dsimp only
    | with_reducible apply Runs.comp (State.setCaddy_runs ..)
    | with_reducible apply Runs.foldl
    | with_reducible apply Runs.foldl_fst
    | intro _
    | split)

end Sys2Proof.Machine
end

