-- ==== Sys2Proof/Laws/WritesRuns.lean ====
section
/-!
SUPPORT. What the operations of Machine/Writes.lean may change, and that they keep the canonical form.
-/

namespace Sys2Proof.Machine

theorem Caddy.program_wf (c : Caddy) (off : Nat) (bs : List Byte) (h : c.wf = true) : (c.program off bs).wf = true := by
  refine Caddy.wf_sessions h ?_
  unfold Caddy.program Caddy.setSlot
  dsimp only
  cases c.runB <;> rfl

theorem Caddy.activate_wf {c d : Caddy} (e : c.activate = some d) (h : c.wf = true) : d.wf = true := by
  refine Caddy.wf_sessions h ?_
  unfold Caddy.activate at e
  repeat' split at e
  all_goals cases e
  all_goals rfl

theorem no_runs (s : State) (status : Nat) :
    Runs [] s (no s status).1 := by
  unfold no
  repeat' (first
    | with_reducible exact Runs.refl _)

theorem ok_runs (s : State) :
    Runs [] s (ok s).1 := by
  unfold ok
  repeat' (first
    | with_reducible exact Runs.refl _)

theorem State.pend_runs (s : State) (area : Nat) :
    Runs [.obj] s (State.pend s area) := by
  unfold State.pend
  repeat' (first
    | with_reducible exact Runs.refl _
    | with_reducible assumption
    | exact Eq.refl true
    | exact fun h => h
    | dsimp only
    | with_reducible apply Runs.comp (State.setArea_runs ..))

theorem State.stage_runs (s : State) (id : Nat) (v : Nat) :
    Runs [.obj] s (State.stage s id v) := by
  unfold State.stage
  repeat' (first
    | with_reducible exact Runs.refl _
    | with_reducible assumption
    | exact Eq.refl true
    | exact fun h => h
    | dsimp only
    | with_reducible apply Runs.comp (State.pend_runs ..)
    | with_reducible apply Runs.comp (State.setObj_runs ..))

theorem State.writeTable_runs (s : State) (id : Nat) (sub : Nat) (val : List Byte) :
    Runs [.obj] s (State.writeTable s id sub val).1 := by
  unfold State.writeTable
  repeat' (first
    | with_reducible exact Runs.refl _
    | with_reducible assumption
    | exact Eq.refl true
    | exact fun h => h
    | dsimp only
    | with_reducible apply Runs.comp (ok_runs ..)
    | refine Runs.of_pair (Runs.comp (ok_runs ..) rfl ?_) (by assumption)
    | with_reducible apply Runs.comp (State.pend_runs ..)
    | with_reducible apply Runs.comp (State.setObj_runs ..)
    | with_reducible apply Runs.comp (no_runs ..)
    | refine Runs.of_pair (Runs.comp (no_runs ..) rfl ?_) (by assumption)
    | with_reducible apply Runs.foldl
    | with_reducible apply Runs.foldl_fst
    | intro _
    | split)

theorem State.writeImage_runs (s : State) (sub : Nat) (val : List Byte) :
    Runs [.caddy, .flash] s (State.writeImage s sub val).1 := by
  unfold State.writeImage
  repeat' (first
    | with_reducible exact Runs.refl _
    | with_reducible assumption
    | exact Eq.refl true
    | exact fun h => h
    | exact Caddy.program_wf _ _ _ (by assumption)
    | dsimp only
    | with_reducible apply Runs.comp (State.setCaddy_runs ..)
    | with_reducible apply Runs.comp (ok_runs ..)
    | refine Runs.of_pair (Runs.comp (ok_runs ..) rfl ?_) (by assumption)
    | with_reducible apply Runs.comp (State.journal_runs ..)
    | with_reducible apply Runs.comp (no_runs ..)
    | refine Runs.of_pair (Runs.comp (no_runs ..) rfl ?_) (by assumption)
    | with_reducible apply Runs.foldl
    | with_reducible apply Runs.foldl_fst
    | intro _
    | split)

theorem State.writeCommit_runs (s : State) (r : Req) (area : Nat) (v : Nat) :
    Runs [.ft, .cores, .mem, .urn, .fab, .links, .router, .caddy, .host, .steps, .red, .obj, .flash, .out] s (State.writeCommit s r area v).1 := by
  unfold State.writeCommit
  repeat' (first
    | with_reducible exact Runs.refl _
    | with_reducible assumption
    | exact Eq.refl true
    | exact fun h => h
    | dsimp only
    | with_reducible apply Runs.comp (no_runs ..)
    | refine Runs.of_pair (Runs.comp (no_runs ..) rfl ?_) (by assumption)
    | with_reducible apply Runs.comp (ok_runs ..)
    | refine Runs.of_pair (Runs.comp (ok_runs ..) rfl ?_) (by assumption)
    | with_reducible apply Runs.comp (State.discardArea_runs ..)
    | with_reducible apply Runs.comp (State.applyArea_runs ..)
    | refine Runs.of_pair (Runs.comp (State.applyArea_runs ..) rfl ?_) (by assumption)
    | with_reducible apply Runs.comp (State.setCaddy_runs ..)
    | with_reducible apply Runs.foldl
    | with_reducible apply Runs.foldl_fst
    | intro _
    | split)

theorem State.deadAnswer_runs (s : State) :
    Runs [.free] s (State.deadAnswer s).1 := by
  unfold State.deadAnswer
  repeat' (first
    | with_reducible exact Runs.refl _
    | with_reducible assumption
    | exact Eq.refl true
    | exact fun h => h
    | dsimp only
    | with_reducible apply Runs.comp (State.fresh_runs ..))

theorem State.ftSet_runs (s : State) (v : Nat) :
    Runs [.ft, .free] s (State.ftSet s v).1 := by
  unfold State.ftSet
  repeat' (first
    | with_reducible exact Runs.refl _
    | with_reducible assumption
    | exact Eq.refl true
    | exact fun h => h
    | dsimp only
    | with_reducible apply Runs.comp (State.deadAnswer_runs ..)
    | refine Runs.of_pair (Runs.comp (State.deadAnswer_runs ..) rfl ?_) (by assumption)
    | with_reducible apply Runs.comp (no_runs ..)
    | refine Runs.of_pair (Runs.comp (no_runs ..) rfl ?_) (by assumption)
    | with_reducible apply Runs.comp (ok_runs ..)
    | refine Runs.of_pair (Runs.comp (ok_runs ..) rfl ?_) (by assumption)
    | with_reducible apply Runs.comp (State.setFt_runs ..)
    | with_reducible apply Runs.foldl
    | with_reducible apply Runs.foldl_fst
    | intro _
    | split)

theorem State.stepStart_runs (s : State) (ctx : Nat) (n : Nat) :
    Runs [.cores, .sync, .mem, .urn, .fab, .router, .host, .steps, .red, .obj, .flash, .out, .free] s (State.stepStart s ctx n).1 := by
  unfold State.stepStart
  repeat' (first
    | with_reducible exact Runs.refl _
    | with_reducible assumption
    | exact Eq.refl true
    | exact fun h => h
    | dsimp only
    | with_reducible apply Runs.comp (State.deadAnswer_runs ..)
    | refine Runs.of_pair (Runs.comp (State.deadAnswer_runs ..) rfl ?_) (by assumption)
    | with_reducible apply Runs.comp (no_runs ..)
    | refine Runs.of_pair (Runs.comp (no_runs ..) rfl ?_) (by assumption)
    | with_reducible apply Runs.comp (ok_runs ..)
    | refine Runs.of_pair (Runs.comp (ok_runs ..) rfl ?_) (by assumption)
    | with_reducible apply Runs.comp (State.stepBegin_runs ..)
    | with_reducible apply Runs.foldl
    | with_reducible apply Runs.foldl_fst
    | intro _
    | split)

theorem State.resetCtrl_runs (s : State) (v : Nat) :
    Runs [.cores, .sched, .txe, .sync, .urn, .fab, .router, .host, .steps, .red, .out] s (State.resetCtrl s v).1 := by
  unfold State.resetCtrl
  repeat' (first
    | with_reducible exact Runs.refl _
    | with_reducible assumption
    | exact Eq.refl true
    | exact fun h => h
    | dsimp only
    | with_reducible apply Runs.comp (no_runs ..)
    | refine Runs.of_pair (Runs.comp (no_runs ..) rfl ?_) (by assumption)
    | with_reducible apply Runs.comp (ok_runs ..)
    | refine Runs.of_pair (Runs.comp (ok_runs ..) rfl ?_) (by assumption)
    | with_reducible apply Runs.comp (State.ctxReset_runs ..)
    | with_reducible apply Runs.comp (State.computeReset_runs ..)
    | with_reducible apply Runs.foldl
    | with_reducible apply Runs.foldl_fst
    | intro _
    | split)

theorem State.lookCoolant_runs (s : State) :
    Runs [.pins, .free] s (State.lookCoolant s) := by
  unfold State.lookCoolant
  repeat' (first
    | with_reducible exact Runs.refl _
    | with_reducible assumption
    | exact Eq.refl true
    | exact fun h => h
    | dsimp only
    | with_reducible apply Runs.comp (State.setPins_runs ..)
    | with_reducible apply Runs.comp (State.fresh_runs ..)
    | with_reducible apply Runs.foldl
    | with_reducible apply Runs.foldl_fst
    | intro _
    | split)

theorem State.kettleRestart_runs (s : State) :
    Runs [.pins, .power, .out, .free] s (State.kettleRestart s).1 := by
  unfold State.kettleRestart
  repeat' (first
    | with_reducible exact Runs.refl _
    | with_reducible assumption
    | exact Eq.refl true
    | exact fun h => h
    | dsimp only
    | with_reducible apply Runs.comp (State.lookCoolant_runs ..)
    | with_reducible apply Runs.comp (no_runs ..)
    | refine Runs.of_pair (Runs.comp (no_runs ..) rfl ?_) (by assumption)
    | with_reducible apply Runs.comp (ok_runs ..)
    | refine Runs.of_pair (Runs.comp (ok_runs ..) rfl ?_) (by assumption)
    | with_reducible apply Runs.comp (State.mainBegin_runs ..)
    | with_reducible apply Runs.comp (State.setPower_runs ..)
    | with_reducible apply Runs.foldl
    | with_reducible apply Runs.foldl_fst
    | intro _
    | split)

theorem State.selfTest_runs (s : State) :
    Runs [.power] s (State.selfTest s).1 := by
  unfold State.selfTest
  repeat' (first
    | with_reducible exact Runs.refl _
    | with_reducible assumption
    | exact Eq.refl true
    | exact fun h => h
    | dsimp only
    | with_reducible apply Runs.comp (ok_runs ..)
    | refine Runs.of_pair (Runs.comp (ok_runs ..) rfl ?_) (by assumption)
    | with_reducible apply Runs.comp (State.setPower_runs ..)
    | with_reducible apply Runs.comp (no_runs ..)
    | refine Runs.of_pair (Runs.comp (no_runs ..) rfl ?_) (by assumption)
    | with_reducible apply Runs.foldl
    | with_reducible apply Runs.foldl_fst
    | intro _
    | split)

theorem State.fwActivate_runs (s : State) :
    Runs [.caddy, .flash] s (State.fwActivate s).1 := by
  unfold State.fwActivate
  repeat' (first
    | with_reducible exact Runs.refl _
    | with_reducible assumption
    | exact Eq.refl true
    | exact fun h => h
    | exact Caddy.activate_wf (by assumption) (by assumption)
    | dsimp only
    | with_reducible apply Runs.comp (ok_runs ..)
    | refine Runs.of_pair (Runs.comp (ok_runs ..) rfl ?_) (by assumption)
    | with_reducible apply Runs.comp (State.journal_runs ..)
    | with_reducible apply Runs.comp (State.setCaddy_runs ..)
    | with_reducible apply Runs.comp (no_runs ..)
    | refine Runs.of_pair (Runs.comp (no_runs ..) rfl ?_) (by assumption)
    | with_reducible apply Runs.foldl
    | with_reducible apply Runs.foldl_fst
    | intro _
    | split)

theorem State.replanAsk_runs (s : State) :
    Runs [.router, .host, .flash, .ageing, .out, .free] s (State.replanAsk s).1 := by
  unfold State.replanAsk
  repeat' (first
    | with_reducible exact Runs.refl _
    | with_reducible assumption
    | exact Eq.refl true
    | exact fun h => h
    | dsimp only
    | with_reducible apply Runs.comp (no_runs ..)
    | refine Runs.of_pair (Runs.comp (no_runs ..) rfl ?_) (by assumption)
    | with_reducible apply Runs.comp (ok_runs ..)
    | refine Runs.of_pair (Runs.comp (ok_runs ..) rfl ?_) (by assumption)
    | with_reducible apply Runs.comp (State.replan_runs ..)
    | with_reducible apply Runs.foldl
    | with_reducible apply Runs.foldl_fst
    | intro _
    | split)

theorem State.action_runs (s : State) (id : Nat) (v : Nat) :
    Runs [.ft, .pins, .power, .cores, .sched, .txe, .sync, .mem, .urn, .fab, .router, .caddy, .host, .steps, .red, .obj, .flash, .ageing, .tele, .out, .free] s (State.action s id v).1 := by
  unfold State.action
  repeat' (first
    | with_reducible exact Runs.refl _
    | with_reducible assumption
    | exact Eq.refl true
    | exact fun h => h
    | dsimp only
    | with_reducible apply Runs.comp (State.ftSet_runs ..)
    | refine Runs.of_pair (Runs.comp (State.ftSet_runs ..) rfl ?_) (by assumption)
    | with_reducible apply Runs.comp (State.stepStart_runs ..)
    | refine Runs.of_pair (Runs.comp (State.stepStart_runs ..) rfl ?_) (by assumption)
    | with_reducible apply Runs.comp (State.resetCtrl_runs ..)
    | refine Runs.of_pair (Runs.comp (State.resetCtrl_runs ..) rfl ?_) (by assumption)
    | with_reducible apply Runs.comp (no_runs ..)
    | refine Runs.of_pair (Runs.comp (no_runs ..) rfl ?_) (by assumption)
    | with_reducible apply Runs.comp (State.fwActivate_runs ..)
    | refine Runs.of_pair (Runs.comp (State.fwActivate_runs ..) rfl ?_) (by assumption)
    | with_reducible apply Runs.comp (State.kettleRestart_runs ..)
    | refine Runs.of_pair (Runs.comp (State.kettleRestart_runs ..) rfl ?_) (by assumption)
    | with_reducible apply Runs.comp (State.replanAsk_runs ..)
    | refine Runs.of_pair (Runs.comp (State.replanAsk_runs ..) rfl ?_) (by assumption)
    | with_reducible apply Runs.comp (ok_runs ..)
    | refine Runs.of_pair (Runs.comp (ok_runs ..) rfl ?_) (by assumption)
    | with_reducible apply Runs.comp (State.setTele_runs ..)
    | with_reducible apply Runs.comp (State.selfTest_runs ..)
    | refine Runs.of_pair (Runs.comp (State.selfTest_runs ..) rfl ?_) (by assumption)
    | with_reducible apply Runs.foldl
    | with_reducible apply Runs.foldl_fst
    | intro _
    | split)

theorem State.writePermute_runs (s : State) (ctx : Nat) (v : Nat) :
    Runs [.sched, .router, .red, .free] s (State.writePermute s ctx v).1 := by
  unfold State.writePermute
  repeat' (first
    | with_reducible exact Runs.refl _
    | with_reducible assumption
    | exact Eq.refl true
    | exact fun h => h
    | dsimp only
    | with_reducible apply Runs.comp (State.deadAnswer_runs ..)
    | refine Runs.of_pair (Runs.comp (State.deadAnswer_runs ..) rfl ?_) (by assumption)
    | with_reducible apply Runs.comp (no_runs ..)
    | refine Runs.of_pair (Runs.comp (no_runs ..) rfl ?_) (by assumption)
    | with_reducible apply Runs.comp (ok_runs ..)
    | refine Runs.of_pair (Runs.comp (ok_runs ..) rfl ?_) (by assumption)
    | with_reducible apply Runs.comp (State.permJoin_runs ..)
    | with_reducible apply Runs.comp (State.modPerm_runs ..)
    | with_reducible apply Runs.foldl
    | with_reducible apply Runs.foldl_fst
    | intro _
    | split)

theorem State.ackService_runs (s : State) (v : Nat) :
    Runs [.router, .host, .flash, .out] s (State.ackService s v) := by
  unfold State.ackService
  repeat' (first
    | with_reducible exact Runs.refl _
    | with_reducible assumption
    | exact Eq.refl true
    | exact fun h => h
    | dsimp only
    | with_reducible apply Runs.comp (State.alert_runs ..)
    | with_reducible apply Runs.comp (State.journal_runs ..)
    | with_reducible apply Runs.comp (State.setFlash_runs ..))

theorem State.clearFlags_runs (s : State) (id : Nat) (m : Nat) (v : Nat) :
    Runs [.obj] s (State.clearFlags s id m v) := by
  unfold State.clearFlags
  repeat' (first
    | with_reducible exact Runs.refl _
    | with_reducible assumption
    | exact Eq.refl true
    | exact fun h => h
    | dsimp only
    | with_reducible apply Runs.comp (State.modOv_runs ..))

theorem State.clearKettle_runs (s : State) (v : Nat) :
    Runs [.kettle] s (State.clearKettle s v) := by
  unfold State.clearKettle
  repeat' (first
    | with_reducible exact Runs.refl _
    | with_reducible assumption
    | exact Eq.refl true
    | exact fun h => h
    | dsimp only
    | with_reducible apply Runs.comp (State.setKettle_runs ..))

theorem State.immediate_runs (s : State) (id : Nat) (v : Nat) :
    Runs [.kettle, .sched, .router, .host, .red, .obj, .flash, .out, .free] s (State.immediate s id v).1 := by
  unfold State.immediate
  repeat' (first
    | with_reducible exact Runs.refl _
    | with_reducible assumption
    | exact Eq.refl true
    | exact fun h => h
    | dsimp only
    | with_reducible apply Runs.comp (State.writePermute_runs ..)
    | refine Runs.of_pair (Runs.comp (State.writePermute_runs ..) rfl ?_) (by assumption)
    | with_reducible apply Runs.comp (ok_runs ..)
    | refine Runs.of_pair (Runs.comp (ok_runs ..) rfl ?_) (by assumption)
    | with_reducible apply Runs.comp (State.ackService_runs ..)
    | with_reducible apply Runs.comp (State.clearKettle_runs ..)
    | with_reducible apply Runs.comp (State.setOv_runs ..)
    | with_reducible apply Runs.comp (no_runs ..)
    | refine Runs.of_pair (Runs.comp (no_runs ..) rfl ?_) (by assumption)
    | with_reducible apply Runs.comp (State.clearFlags_runs ..)
    | with_reducible apply Runs.foldl
    | with_reducible apply Runs.foldl_fst
    | intro _
    | split)

theorem State.write_runs (s : State) (r : Req) (id : Nat) (sub : Nat) (val : List Byte) :
    Runs [.ft, .pins, .power, .kettle, .cores, .sched, .txe, .sync, .mem, .urn, .fab, .links, .router, .caddy, .host, .steps, .red, .obj, .flash, .ageing, .tele, .out, .free] s (State.write s r id sub val).1 := by
  unfold State.write
  repeat' (first
    | with_reducible exact Runs.refl _
    | with_reducible assumption
    | exact Eq.refl true
    | exact fun h => h
    | dsimp only
    | with_reducible apply Runs.comp (no_runs ..)
    | refine Runs.of_pair (Runs.comp (no_runs ..) rfl ?_) (by assumption)
    | with_reducible apply Runs.comp (State.writeImage_runs ..)
    | refine Runs.of_pair (Runs.comp (State.writeImage_runs ..) rfl ?_) (by assumption)
    | with_reducible apply Runs.comp (State.writeTable_runs ..)
    | refine Runs.of_pair (Runs.comp (State.writeTable_runs ..) rfl ?_) (by assumption)
    | with_reducible apply Runs.comp (State.writeCommit_runs ..)
    | refine Runs.of_pair (Runs.comp (State.writeCommit_runs ..) rfl ?_) (by assumption)
    | with_reducible apply Runs.comp (State.action_runs ..)
    | refine Runs.of_pair (Runs.comp (State.action_runs ..) rfl ?_) (by assumption)
    | with_reducible apply Runs.comp (ok_runs ..)
    | refine Runs.of_pair (Runs.comp (ok_runs ..) rfl ?_) (by assumption)
    | with_reducible apply Runs.comp (State.stage_runs ..)
    | with_reducible apply Runs.comp (State.immediate_runs ..)
    | refine Runs.of_pair (Runs.comp (State.immediate_runs ..) rfl ?_) (by assumption)
    | with_reducible apply Runs.foldl
    | with_reducible apply Runs.foldl_fst
    | intro _
    | split)

theorem State.read_runs (s : State) (r : Req) (id : Nat) (sub : Nat) (flags : Nat) :
    Runs [.txe, .red, .obj] s (State.read s r id sub flags).1 := by
  unfold State.read
  repeat' (first
    | with_reducible exact Runs.refl _
    | with_reducible assumption
    | exact Eq.refl true
    | exact fun h => h
    | dsimp only
    | with_reducible apply Runs.comp (no_runs ..)
    | refine Runs.of_pair (Runs.comp (no_runs ..) rfl ?_) (by assumption)
    | with_reducible apply Runs.comp (State.clearRc_runs ..)
    | with_reducible apply Runs.foldl
    | with_reducible apply Runs.foldl_fst
    | intro _
    | split)

theorem State.describe_runs (s : State) (id : Nat) :
    Runs [] s (State.describe s id).1 := by
  unfold State.describe
  repeat' (first
    | with_reducible exact Runs.refl _
    | with_reducible assumption
    | exact Eq.refl true
    | exact fun h => h
    | dsimp only
    | with_reducible apply Runs.comp (no_runs ..)
    | refine Runs.of_pair (Runs.comp (no_runs ..) rfl ?_) (by assumption)
    | with_reducible apply Runs.foldl
    | with_reducible apply Runs.foldl_fst
    | intro _
    | split)

end Sys2Proof.Machine
end

