-- ==== Sys2Proof/Laws/ManagementRuns.lean ====
section
/-!
SUPPORT. What the operations of Machine/Management.lean may change, and that they keep the canonical form.
-/

namespace Sys2Proof.Machine

theorem State.urnStop_caddy (s : State) (c : Nat) : (s.urnStop c).caddy = s.caddy :=
  (State.urnStop_runs s c).same .caddy rfl

theorem State.postAll_runs (ctx target : Nat) (ds : List WorkDesc) (n : Nat) (s : State) :
    Runs [.sched] s (State.postAll ctx target ds n s).1 := by
  induction ds generalizing n s with
  | nil => exact Runs.refl s
  | cons d ds ih =>
    unfold State.postAll
    split
    · rename_i e
      exact Runs.trans (State.post_runs e) (ih _ _)
    · exact Runs.refl s

theorem State.mgmtPost_runs (s : State) (ctx : Nat) (target : Nat) (ds : List WorkDesc) :
    Runs [.sched, .obj] s (State.mgmtPost s ctx target ds).1 := by
  unfold State.mgmtPost
  repeat' (first
    | with_reducible exact Runs.refl _
    | with_reducible assumption
    | exact Eq.refl true
    | exact fun h => h
    | exact Runs.comp (State.postAll_runs ..) rfl (Runs.refl _)
    | dsimp only
    | with_reducible apply Runs.comp (no_runs ..)
    | refine Runs.of_pair (Runs.comp (no_runs ..) rfl ?_) (by assumption)
    | with_reducible apply Runs.comp (State.postAll_runs ..)
    | refine Runs.of_pair (Runs.comp (State.postAll_runs ..) rfl ?_) (by assumption)
    | with_reducible apply Runs.comp (State.bump_runs ..)
    | with_reducible apply Runs.foldl
    | with_reducible apply Runs.foldl_fst
    | intro _
    | split)

theorem State.perform_runs (s : State) (r : Req) (x1 : MOp) :
    Runs [.ft, .pins, .power, .kettle, .cores, .sched, .txe, .sync, .mem, .urn, .fab, .links, .router, .caddy, .host, .steps, .red, .obj, .flash, .ageing, .tele, .out, .free] s (State.perform s r x1).1 := by
  unfold State.perform
  repeat' (first
    | with_reducible exact Runs.refl _
    | with_reducible assumption
    | exact Eq.refl true
    | exact fun h => h
    | exact Caddy.wf_sessions (by assumption) (congrArg Caddy.sessions (State.urnStop_caddy s _)).symm
    | dsimp only
    | with_reducible apply Runs.comp (ok_runs ..)
    | refine Runs.of_pair (Runs.comp (ok_runs ..) rfl ?_) (by assumption)
    | with_reducible apply Runs.comp (State.ownerGone_runs ..)
    | with_reducible apply Runs.comp (State.handTo_runs ..)
    | refine Runs.of_pair (Runs.comp (State.handTo_runs ..) rfl ?_) (by assumption)
    | with_reducible apply Runs.comp (State.endSession_runs ..)
    | with_reducible apply Runs.comp (State.read_runs ..)
    | refine Runs.of_pair (Runs.comp (State.read_runs ..) rfl ?_) (by assumption)
    | with_reducible apply Runs.comp (State.write_runs ..)
    | refine Runs.of_pair (Runs.comp (State.write_runs ..) rfl ?_) (by assumption)
    | with_reducible apply Runs.comp (State.describe_runs ..)
    | refine Runs.of_pair (Runs.comp (State.describe_runs ..) rfl ?_) (by assumption)
    | with_reducible apply Runs.comp (State.mgmtPost_runs ..)
    | refine Runs.of_pair (Runs.comp (State.mgmtPost_runs ..) rfl ?_) (by assumption)
    | with_reducible apply Runs.comp (syncCmd_runs ..)
    | refine Runs.of_pair (Runs.comp (syncCmd_runs ..) rfl ?_) (by assumption)
    | with_reducible apply Runs.comp (State.fresh_runs ..)
    | with_reducible apply Runs.comp (State.setCaddy_runs ..)
    | with_reducible apply Runs.comp (State.urnStop_runs ..)
    | with_reducible apply Runs.comp (urnCmd_runs ..)
    | refine Runs.of_pair (Runs.comp (urnCmd_runs ..) rfl ?_) (by assumption)
    | with_reducible apply Runs.comp (no_runs ..)
    | refine Runs.of_pair (Runs.comp (no_runs ..) rfl ?_) (by assumption)
    | with_reducible apply Runs.foldl
    | with_reducible apply Runs.foldl_fst
    | intro _
    | split)

theorem State.hello_runs (s : State) (r : Req) :
    Runs [.router, .caddy, .host, .out, .free] s (State.hello s r) := by
  unfold State.hello
  repeat' (first
    | with_reducible exact Runs.refl _
    | with_reducible assumption
    | exact Eq.refl true
    | exact fun h => h
    | dsimp only
    | with_reducible apply Runs.comp (State.refuse_runs ..)
    | with_reducible apply Runs.comp (State.setSession_runs ..)
    | with_reducible apply Runs.comp (State.setCaddy_runs ..)
    | with_reducible apply Runs.comp (State.fresh_runs ..)
    | with_reducible apply Runs.comp (State.sendReply_runs ..)
    | with_reducible apply Runs.foldl
    | with_reducible apply Runs.foldl_fst
    | intro _
    | split)

theorem State.claimed_runs (s : State) (r : Req) (x : Session) (prio : Nat) (pre : Bool) (tag : List Byte) :
    Runs [.router, .caddy, .host, .obj, .out, .free] s (State.claimed s r x prio pre tag) := by
  unfold State.claimed
  repeat' (first
    | with_reducible exact Runs.refl _
    | with_reducible assumption
    | exact Eq.refl true
    | exact fun h => h
    | dsimp only
    | with_reducible apply Runs.comp (State.claimOwner_runs ..)
    | refine Runs.of_pair (Runs.comp (State.claimOwner_runs ..) rfl ?_) (by assumption)
    | with_reducible apply Runs.comp (State.answer_runs ..))

theorem State.resetNow_runs (s : State) (kind : Nat) :
    Runs [.clk, .ft, .pins, .power, .kettle, .cores, .sched, .txe, .sync, .mem, .urn, .fab, .links, .router, .caddy, .host, .steps, .red, .obj, .flash, .ageing, .tele, .out, .free] s (State.resetNow s kind) := by
  unfold State.resetNow
  repeat' (first
    | with_reducible exact Runs.refl _
    | with_reducible assumption
    | exact Eq.refl true
    | exact fun h => h
    | dsimp only
    | with_reducible apply Runs.comp (State.mainReset_runs ..)
    | with_reducible apply Runs.comp (State.moduleReset_runs ..)
    | with_reducible apply Runs.foldl
    | with_reducible apply Runs.foldl_fst
    | intro _
    | split)

theorem State.operate_runs (s : State) (r : Req) (m : MOp) :
    Runs [.clk, .ft, .pins, .power, .kettle, .cores, .sched, .txe, .sync, .mem, .urn, .fab, .links, .router, .caddy, .host, .steps, .red, .obj, .flash, .ageing, .tele, .out, .free] s (State.operate s r m) := by
  unfold State.operate
  repeat' (first
    | with_reducible exact Runs.refl _
    | with_reducible assumption
    | exact Eq.refl true
    | exact fun h => h
    | dsimp only
    | with_reducible apply Runs.comp (State.perform_runs ..)
    | refine Runs.of_pair (Runs.comp (State.perform_runs ..) rfl ?_) (by assumption)
    | with_reducible apply Runs.comp (State.renewLease_runs ..)
    | with_reducible apply Runs.comp (State.answer_runs ..)
    | with_reducible apply Runs.comp (State.resetNow_runs ..)
    | with_reducible apply Runs.foldl
    | with_reducible apply Runs.foldl_fst
    | intro _
    | split)

theorem State.checked_runs (s : State) (r : Req) (x : Session) (m : MOp) :
    Runs [.clk, .ft, .pins, .power, .kettle, .cores, .sched, .txe, .sync, .mem, .urn, .fab, .links, .router, .caddy, .host, .steps, .red, .obj, .flash, .ageing, .tele, .out, .free] s (State.checked s r x m) := by
  unfold State.checked
  repeat' (first
    | with_reducible exact Runs.refl _
    | with_reducible assumption
    | exact Eq.refl true
    | exact fun h => h
    | dsimp only
    | with_reducible apply Runs.comp (State.answer_runs ..)
    | with_reducible apply Runs.comp (State.claimed_runs ..)
    | with_reducible apply Runs.comp (State.operate_runs ..)
    | with_reducible apply Runs.foldl
    | with_reducible apply Runs.foldl_fst
    | intro _
    | split)

theorem State.inSession_runs (s : State) (r : Req) (x : Session) (m : MOp) :
    Runs [.clk, .ft, .pins, .power, .kettle, .cores, .sched, .txe, .sync, .mem, .urn, .fab, .links, .router, .caddy, .host, .steps, .red, .obj, .flash, .ageing, .tele, .out, .free] s (State.inSession s r x m) := by
  unfold State.inSession
  repeat' (first
    | with_reducible exact Runs.refl _
    | with_reducible assumption
    | exact Eq.refl true
    | exact fun h => h
    | dsimp only
    | with_reducible apply Runs.comp (State.setSession_runs ..)
    | with_reducible apply Runs.comp (State.sendReply_runs ..)
    | with_reducible apply Runs.comp (State.refuse_runs ..)
    | with_reducible apply Runs.comp (State.checked_runs ..)
    | with_reducible apply Runs.foldl
    | with_reducible apply Runs.foldl_fst
    | intro _
    | split)

theorem State.forward_runs (s : State) (r : Req) (m : MOp) :
    Runs [.router, .caddy] s (State.forward s r m) := by
  unfold State.forward
  repeat' (first
    | with_reducible exact Runs.refl _
    | with_reducible assumption
    | exact Eq.refl true
    | exact fun h => h
    | dsimp only
    | with_reducible apply Runs.comp (State.mgmtPacket_runs ..)
    | with_reducible apply Runs.comp (State.setCaddy_runs ..))

theorem State.passOn_runs (s : State) (r : Req) (m : MOp) :
    Runs [.router, .caddy, .host, .out] s (State.passOn s r m) := by
  unfold State.passOn
  repeat' (first
    | with_reducible exact Runs.refl _
    | with_reducible assumption
    | exact Eq.refl true
    | exact fun h => h
    | dsimp only
    | with_reducible apply Runs.comp (State.refuse_runs ..)
    | with_reducible apply Runs.comp (State.forward_runs ..)
    | with_reducible apply Runs.foldl
    | with_reducible apply Runs.foldl_fst
    | intro _
    | split)

theorem State.transact_runs (s : State) (r : Req) (m : MOp) :
    Runs [.clk, .ft, .pins, .power, .kettle, .cores, .sched, .txe, .sync, .mem, .urn, .fab, .links, .router, .caddy, .host, .steps, .red, .obj, .flash, .ageing, .tele, .out, .free] s (State.transact s r m) := by
  unfold State.transact
  repeat' (first
    | with_reducible exact Runs.refl _
    | with_reducible assumption
    | exact Eq.refl true
    | exact fun h => h
    | dsimp only
    | with_reducible apply Runs.comp (State.refuse_runs ..)
    | with_reducible apply Runs.comp (State.passOn_runs ..)
    | with_reducible apply Runs.comp (State.hello_runs ..)
    | with_reducible apply Runs.comp (State.inSession_runs ..)
    | with_reducible apply Runs.foldl
    | with_reducible apply Runs.foldl_fst
    | intro _
    | split)

theorem State.heard_runs (s : State) (r : Req) :
    Runs [.caddy] s (State.heard s r) := by
  unfold State.heard
  repeat' (first
    | with_reducible exact Runs.refl _
    | with_reducible assumption
    | exact Eq.refl true
    | exact fun h => h
    | dsimp only
    | with_reducible apply Runs.comp (State.setSession_runs ..)
    | with_reducible apply Runs.foldl
    | with_reducible apply Runs.foldl_fst
    | intro _
    | split)

theorem State.enqueue_runs (s : State) (r : Req) (m : MOp) :
    Runs [.router, .caddy, .host, .out] s (State.enqueue s r m) := by
  unfold State.enqueue
  repeat' (first
    | with_reducible exact Runs.refl _
    | with_reducible assumption
    | exact Eq.refl true
    | exact fun h => h
    | dsimp only
    | with_reducible apply Runs.comp (State.heard_runs ..)
    | with_reducible apply Runs.comp (State.refuse_runs ..)
    | with_reducible apply Runs.comp (State.setCaddy_runs ..)
    | with_reducible apply Runs.foldl
    | with_reducible apply Runs.foldl_fst
    | intro _
    | split)

theorem State.request_runs (s : State) (r : Req) (m : MOp) :
    Runs [.clk, .ft, .pins, .power, .kettle, .cores, .sched, .txe, .sync, .mem, .urn, .fab, .links, .router, .caddy, .host, .steps, .red, .obj, .flash, .ageing, .tele, .out, .free] s (State.request s r m) := by
  unfold State.request
  repeat' (first
    | with_reducible exact Runs.refl _
    | with_reducible assumption
    | exact Eq.refl true
    | exact fun h => h
    | dsimp only
    | with_reducible apply Runs.comp (State.transact_runs ..)
    | with_reducible apply Runs.comp (State.settle_runs ..)
    | with_reducible apply Runs.comp (State.enqueue_runs ..)
    | with_reducible apply Runs.foldl
    | with_reducible apply Runs.foldl_fst
    | intro _
    | split)

theorem State.runQueue_runs (n : Nat) (s : State) : Runs [.clk, .ft, .pins, .power, .kettle, .cores, .sched, .txe, .sync, .mem, .urn, .fab, .links, .router, .caddy, .host, .steps, .red, .obj, .flash, .ageing, .tele, .out, .free] s (State.runQueue n s) := by
  induction n generalizing s with
  | zero => exact Runs.refl s
  | succ n ih =>
    unfold State.runQueue
    split
    · exact Runs.refl s
    · split
      · refine Runs.trans ?_ (ih _)
        exact Runs.comp (State.request_runs ..) rfl (Runs.comp (State.setCaddy_runs _ _ (fun h => h)) rfl (Runs.refl s))
      · exact Runs.refl s

theorem State.waiterReplies_runs (s : State) (d : Deferred) (op : Nat) (payload : List Byte) :
    Runs [.clk, .ft, .pins, .power, .kettle, .cores, .sched, .txe, .sync, .mem, .urn, .fab, .links, .router, .caddy, .host, .steps, .red, .obj, .flash, .ageing, .tele, .out, .free] s (State.waiterReplies s d op payload) := by
  unfold State.waiterReplies
  repeat' (first
    | with_reducible exact Runs.refl _
    | with_reducible assumption
    | exact Eq.refl true
    | exact fun h => h
    | dsimp only
    | with_reducible apply Runs.comp (State.setCaddy_runs ..)
    | with_reducible apply Runs.comp (State.leaseEnds_runs ..)
    | with_reducible apply Runs.comp (State.answer_runs ..)
    | with_reducible apply Runs.comp (State.runQueue_runs ..))

theorem State.applyReplies_runs (s : State) (d : Deferred) :
    Runs [.clk, .ft, .pins, .power, .kettle, .cores, .sched, .txe, .sync, .mem, .urn, .fab, .links, .router, .caddy, .host, .steps, .red, .obj, .flash, .ageing, .tele, .out, .free] s (State.applyReplies s d) := by
  unfold State.applyReplies
  repeat' (first
    | with_reducible exact Runs.refl _
    | with_reducible assumption
    | exact Eq.refl true
    | exact fun h => h
    | dsimp only
    | with_reducible apply Runs.comp (State.waiterReplies_runs ..)
    | with_reducible apply Runs.comp (State.setCaddy_runs ..)
    | with_reducible apply Runs.foldl
    | with_reducible apply Runs.foldl_fst
    | intro _
    | split)

theorem State.journalled_runs (s : State) :
    Runs [.clk, .ft, .pins, .power, .kettle, .cores, .sched, .txe, .sync, .mem, .urn, .fab, .links, .router, .caddy, .host, .steps, .red, .obj, .flash, .ageing, .tele, .out, .free] s (State.journalled s) := by
  unfold State.journalled
  repeat' (first
    | with_reducible exact Runs.refl _
    | with_reducible assumption
    | exact Eq.refl true
    | exact fun h => h
    | dsimp only
    | with_reducible apply Runs.comp (State.applyReplies_runs ..)
    | with_reducible apply Runs.foldl
    | with_reducible apply Runs.foldl_fst
    | intro _
    | split)

theorem State.workDone_runs (s : State) (more : List JRec) :
    Runs [.clk, .ft, .pins, .power, .kettle, .cores, .sched, .txe, .sync, .mem, .urn, .fab, .links, .router, .caddy, .host, .steps, .red, .obj, .flash, .ageing, .tele, .out, .free] s (State.workDone s more) := by
  unfold State.workDone
  repeat' (first
    | with_reducible exact Runs.refl _
    | with_reducible assumption
    | exact Eq.refl true
    | exact fun h => h
    | dsimp only
    | with_reducible apply Runs.comp (State.journalled_runs ..)
    | with_reducible apply Runs.comp (State.setCaddy_runs ..))

theorem State.allocResumes_runs (s : State) :
    Runs [.clk, .ft, .pins, .power, .kettle, .cores, .sched, .txe, .sync, .mem, .urn, .fab, .links, .router, .caddy, .host, .steps, .red, .obj, .flash, .ageing, .tele, .out, .free] s (State.allocResumes s) := by
  unfold State.allocResumes
  repeat' (first
    | with_reducible exact Runs.refl _
    | with_reducible assumption
    | exact Eq.refl true
    | exact fun h => h
    | dsimp only
    | with_reducible apply Runs.comp (urnCmd_runs ..)
    | refine Runs.of_pair (Runs.comp (urnCmd_runs ..) rfl ?_) (by assumption)
    | with_reducible apply Runs.comp (State.fresh_runs ..)
    | with_reducible apply Runs.comp (State.waiterReplies_runs ..)
    | with_reducible apply Runs.foldl
    | with_reducible apply Runs.foldl_fst
    | intro _
    | split)

theorem State.drainDone_runs (s : State) :
    Runs [.clk, .ft, .pins, .power, .kettle, .cores, .sched, .txe, .sync, .mem, .urn, .fab, .links, .router, .caddy, .host, .steps, .red, .obj, .flash, .ageing, .tele, .out, .free] s (State.drainDone s) := by
  unfold State.drainDone
  repeat' (first
    | with_reducible exact Runs.refl _
    | with_reducible assumption
    | exact Eq.refl true
    | exact fun h => h
    | dsimp only
    | with_reducible apply Runs.comp (State.workDone_runs ..)
    | with_reducible apply Runs.comp (State.drained_runs ..)
    | with_reducible apply Runs.foldl
    | with_reducible apply Runs.foldl_fst
    | intro _
    | split)

theorem State.retireDone_runs (s : State) :
    Runs [.clk, .ft, .pins, .power, .kettle, .cores, .sched, .txe, .sync, .mem, .urn, .fab, .links, .router, .caddy, .host, .steps, .red, .obj, .flash, .ageing, .tele, .out, .free] s (State.retireDone s) := by
  unfold State.retireDone
  repeat' (first
    | with_reducible exact Runs.refl _
    | with_reducible assumption
    | exact Eq.refl true
    | exact fun h => h
    | dsimp only
    | with_reducible apply Runs.comp (State.retireOne_runs ..)
    | with_reducible apply Runs.comp (State.workDone_runs ..)
    | with_reducible apply Runs.comp (State.journal_runs ..)
    | with_reducible apply Runs.comp (State.event_runs ..)
    | with_reducible apply Runs.foldl
    | with_reducible apply Runs.foldl_fst
    | intro _
    | split)

theorem State.message_runs (s : State) (t : Transport) (h : List Byte) (payload : List Byte) (whole : Bool) :
    Runs [.clk, .ft, .pins, .power, .kettle, .cores, .sched, .txe, .sync, .mem, .urn, .fab, .links, .router, .caddy, .host, .steps, .red, .obj, .flash, .ageing, .tele, .out, .free] s (State.message s t h payload whole) := by
  unfold State.message
  repeat' (first
    | with_reducible exact Runs.refl _
    | with_reducible assumption
    | exact Eq.refl true
    | exact fun h => h
    | dsimp only
    | with_reducible apply Runs.comp (State.refuse_runs ..)
    | with_reducible apply Runs.comp (State.request_runs ..)
    | with_reducible apply Runs.foldl
    | with_reducible apply Runs.foldl_fst
    | intro _
    | split)

theorem State.segment_runs (s : State) (h : List Byte) (payload : List Byte) :
    Runs [.clk, .ft, .pins, .power, .kettle, .cores, .sched, .txe, .sync, .mem, .urn, .fab, .links, .router, .caddy, .host, .steps, .red, .obj, .flash, .ageing, .tele, .out, .free] s (State.segment s h payload) := by
  unfold State.segment
  repeat' (first
    | with_reducible exact Runs.refl _
    | with_reducible assumption
    | exact Eq.refl true
    | exact fun h => h
    | dsimp only
    | with_reducible apply Runs.comp (State.message_runs ..)
    | with_reducible apply Runs.comp (State.setCaddy_runs ..)
    | with_reducible apply Runs.foldl
    | with_reducible apply Runs.foldl_fst
    | intro _
    | split)

theorem State.beaconSeen_runs (s : State) (seen : Bool) :
    Runs [.caddy] s (State.beaconSeen s seen) := by
  unfold State.beaconSeen
  repeat' (first
    | with_reducible exact Runs.refl _
    | with_reducible assumption
    | exact Eq.refl true
    | exact fun h => h
    | dsimp only
    | with_reducible apply Runs.comp (State.setCaddy_runs ..)
    | with_reducible apply Runs.foldl
    | with_reducible apply Runs.foldl_fst
    | intro _
    | split)

theorem State.segmentIn_runs (g : Datagram) (b : List Byte) (s : State) :
    Runs [.clk, .ft, .pins, .power, .kettle, .cores, .sched, .txe, .sync, .mem, .urn, .fab, .links, .router, .caddy, .host, .steps, .red, .obj, .flash, .ageing, .tele, .out, .free] s (State.segmentIn g b s) := by
  unfold State.segmentIn
  repeat' (first
    | with_reducible exact Runs.refl _
    | with_reducible assumption
    | exact Eq.refl true
    | exact fun h => h
    | dsimp only
    | with_reducible apply Runs.comp (State.beaconSeen_runs ..)
    | with_reducible apply Runs.comp (State.message_runs ..)
    | with_reducible apply Runs.comp (State.segment_runs ..)
    | with_reducible apply Runs.foldl
    | with_reducible apply Runs.foldl_fst
    | intro _
    | split)

theorem State.partialEnds_runs (cls : Nat) (xid : Nat) (s : State) :
    Runs [.caddy] s (State.partialEnds cls xid s) := by
  unfold State.partialEnds
  repeat' (first
    | with_reducible exact Runs.refl _
    | with_reducible assumption
    | exact Eq.refl true
    | exact fun h => h
    | dsimp only
    | with_reducible apply Runs.comp (State.setCaddy_runs ..))

theorem State.replyBack_runs (s : State) (src : Nat) (h : List Byte) (payload : List Byte) :
    Runs [.router, .caddy, .host, .out] s (State.replyBack s src h payload) := by
  unfold State.replyBack
  repeat' (first
    | with_reducible exact Runs.refl _
    | with_reducible assumption
    | exact Eq.refl true
    | exact fun h => h
    | dsimp only
    | with_reducible apply Runs.comp (State.sendReply_runs ..)
    | with_reducible apply Runs.comp (State.setCaddy_runs ..)
    | with_reducible apply Runs.foldl
    | with_reducible apply Runs.foldl_fst
    | intro _
    | split)

theorem State.vc0In_runs (p : Packet) (s : State) :
    Runs [.clk, .ft, .pins, .power, .kettle, .cores, .sched, .txe, .sync, .mem, .urn, .fab, .links, .router, .caddy, .host, .steps, .red, .obj, .flash, .ageing, .tele, .out, .free] s (State.vc0In p s) := by
  unfold State.vc0In
  repeat' (first
    | with_reducible exact Runs.refl _
    | with_reducible assumption
    | exact Eq.refl true
    | exact fun h => h
    | dsimp only
    | with_reducible apply Runs.comp (State.taken_runs ..)
    | with_reducible apply Runs.comp (State.message_runs ..)
    | with_reducible apply Runs.comp (State.replyBack_runs ..)
    | with_reducible apply Runs.foldl
    | with_reducible apply Runs.foldl_fst
    | intro _
    | split)

theorem State.doorbell_runs (m : Nat) (len : Nat) (s : State) :
    Runs [.clk, .ft, .pins, .power, .kettle, .cores, .sched, .txe, .sync, .mem, .urn, .fab, .links, .router, .caddy, .host, .steps, .red, .obj, .flash, .ageing, .tele, .out, .free] s (State.doorbell m len s) := by
  unfold State.doorbell
  repeat' (first
    | with_reducible exact Runs.refl _
    | with_reducible assumption
    | exact Eq.refl true
    | exact fun h => h
    | dsimp only
    | with_reducible apply Runs.comp (State.setMailbox_runs ..)
    | with_reducible apply Runs.comp (State.message_runs ..)
    | with_reducible apply Runs.foldl
    | with_reducible apply Runs.foldl_fst
    | intro _
    | split)

end Sys2Proof.Machine
end

