-- ==== Sys2Proof/Laws/EventsRuns.lean ====
section
/-!
SUPPORT. What the operations of Machine/Events.lean may change, and that they keep the canonical form.
-/

namespace Sys2Proof.Machine

theorem Mem.wf_levels {x : Mem} (k a b : Nat) (h : x.wf = true) :
    ({ x with level := tset 0 x.level k a, below := tset 0 x.below k b } : Mem).wf = true := by
  rw [Mem.wf_iff] at h ⊢
  exact ⟨h.1, h.2.1, twf_tset _ _ _ h.2.2.1, twf_tset _ _ _ h.2.2.2⟩

theorem Mem.wf_zeroed {x y : Mem} (h : x.wf = true) (hb : y.bytes = []) (hp : y.poison = []) (hl : y.level = x.level)
    (hk : y.below = x.below) : y.wf = true := by
  rw [Mem.wf_iff] at h ⊢
  rw [hb, hp, hl, hk]
  exact ⟨rfl, rfl, h.2.2⟩

theorem Power.wf_phase {x y : Power} (h : x.wf = true) (r v : Nat) (e : y.phases = tset 0 x.phases r v) : y.wf = true := by
  unfold Power.wf at h ⊢
  rw [e]
  exact twf_tset _ _ _ h

theorem State.tempMax_runs (s : State) (temps : List Int) (u : Nat) :
    Runs [.obj] s (State.tempMax s temps u) := by
  unfold State.tempMax
  repeat' (first
    | with_reducible exact Runs.refl _
    | with_reducible assumption
    | exact Eq.refl true
    | exact fun h => h
    | dsimp only
    | with_reducible apply Runs.comp (State.setOv_runs ..)
    | with_reducible apply Runs.foldl
    | with_reducible apply Runs.foldl_fst
    | intro _
    | split)

theorem State.thermalSample_runs (temps : List Int) (s : State) :
    Runs [.ft, .power, .kettle, .cores, .sched, .txe, .sync, .mem, .urn, .fab, .links, .router, .host, .steps, .red, .obj, .flash, .out] s (State.thermalSample temps s) := by
  unfold State.thermalSample
  repeat' (first
    | with_reducible exact Runs.refl _
    | with_reducible assumption
    | exact Eq.refl true
    | exact fun h => h
    | dsimp only
    | with_reducible apply Runs.comp (State.tempMax_runs ..)
    | with_reducible apply Runs.comp (State.setPower_runs ..)
    | with_reducible apply Runs.comp (State.setEng_runs ..)
    | with_reducible apply Runs.comp (State.modDie_runs ..)
    | with_reducible apply Runs.comp (State.lastLine_runs ..)
    | with_reducible apply Runs.foldl
    | with_reducible apply Runs.foldl_fst
    | intro _
    | split)

theorem State.stackSample_runs (k : Nat) (t : Int) (s : State) :
    Runs [.ft, .power, .kettle, .cores, .sched, .txe, .sync, .mem, .urn, .fab, .links, .router, .host, .steps, .red, .obj, .flash, .out] s (State.stackSample k t s) := by
  unfold State.stackSample
  repeat' (first
    | with_reducible exact Runs.refl _
    | with_reducible assumption
    | exact Eq.refl true
    | exact fun h => h
    | exact Mem.wf_levels _ _ _ (by assumption)
    | dsimp only
    | with_reducible apply Runs.comp (State.setOv_runs ..)
    | with_reducible apply Runs.comp (State.setPower_runs ..)
    | with_reducible apply Runs.comp (State.setMem_runs ..)
    | with_reducible apply Runs.comp (State.lastLine_runs ..)
    | with_reducible apply Runs.foldl
    | with_reducible apply Runs.foldl_fst
    | intro _
    | split)

theorem State.coolantLow_runs (s : State) :
    Runs [.ft, .pins, .power, .kettle, .cores, .sched, .txe, .sync, .mem, .urn, .fab, .links, .router, .host, .steps, .red, .obj, .flash, .out, .free] s (State.coolantLow s) := by
  unfold State.coolantLow
  repeat' (first
    | with_reducible exact Runs.refl _
    | with_reducible assumption
    | exact Eq.refl true
    | exact fun h => h
    | dsimp only
    | with_reducible apply Runs.comp (State.setPins_runs ..)
    | with_reducible apply Runs.comp (State.lastLine_runs ..)
    | with_reducible apply Runs.comp (State.fresh_runs ..))

theorem State.gddrTemp_runs (temps : List Int) (s : State) :
    Runs [.mem, .obj] s (State.gddrTemp temps s) := by
  unfold State.gddrTemp
  repeat' (first
    | with_reducible exact Runs.refl _
    | with_reducible assumption
    | exact Eq.refl true
    | exact fun h => h
    | dsimp only
    | with_reducible apply Runs.comp (State.setMem_runs ..)
    | with_reducible apply Runs.comp (State.setOv_runs ..)
    | with_reducible apply Runs.foldl
    | with_reducible apply Runs.foldl_fst
    | intro _
    | split)

theorem State.gddrRealign_runs (s : State) :
    Runs [] s (State.gddrRealign s) := by
  unfold State.gddrRealign
  repeat' (first
    | with_reducible exact Runs.refl _)

theorem State.gddrLost_runs (s : State) :
    Runs [.mem, .router, .host, .steps, .obj, .flash, .out] s (State.gddrLost s) := by
  unfold State.gddrLost
  repeat' (first
    | with_reducible exact Runs.refl _
    | with_reducible assumption
    | exact Eq.refl true
    | exact fun h => h
    | dsimp only
    | with_reducible apply Runs.comp (State.uncovered_runs ..)
    | with_reducible apply Runs.comp (State.service_runs ..)
    | with_reducible apply Runs.comp (State.setMem_runs ..)
    | with_reducible apply Runs.foldl
    | with_reducible apply Runs.foldl_fst
    | intro _
    | split)

theorem State.scrub_runs (addr : Nat) (err : MemErr) (s : State) :
    Runs [.mem, .host, .obj, .out] s (State.scrub addr err s) := by
  unfold State.scrub
  repeat' (first
    | with_reducible exact Runs.refl _
    | with_reducible assumption
    | exact Eq.refl true
    | exact fun h => h
    | dsimp only
    | with_reducible apply Runs.comp (State.memErr_runs ..)
    | with_reducible apply Runs.foldl
    | with_reducible apply Runs.foldl_fst
    | intro _
    | split)

theorem State.recordDone_runs (s : State) (r : JRec) :
    Runs [.flash] s (State.recordDone s r) := by
  unfold State.recordDone
  repeat' (first
    | with_reducible exact Runs.refl _
    | with_reducible assumption
    | exact Eq.refl true
    | exact fun h => h
    | dsimp only
    | with_reducible apply Runs.comp (State.setFlash_runs ..)
    | with_reducible apply Runs.foldl
    | with_reducible apply Runs.foldl_fst
    | intro _
    | split)

theorem State.lossOver_runs (s : State) :
    Runs [.clk, .ft, .pins, .power, .kettle, .cores, .sched, .txe, .sync, .mem, .urn, .fab, .links, .router, .caddy, .host, .steps, .red, .obj, .flash, .ageing, .tele, .out, .free] s (State.lossOver s) := by
  unfold State.lossOver
  repeat' (first
    | with_reducible exact Runs.refl _
    | with_reducible assumption
    | exact Eq.refl true
    | exact fun h => h
    | dsimp only
    | with_reducible apply Runs.comp (State.setPower_runs ..)
    | with_reducible apply Runs.comp (State.moduleReset_runs ..)
    | with_reducible apply Runs.foldl
    | with_reducible apply Runs.foldl_fst
    | intro _
    | split)

theorem State.journalDone_runs (s : State) :
    Runs [.clk, .ft, .pins, .power, .kettle, .cores, .sched, .txe, .sync, .mem, .urn, .fab, .links, .router, .caddy, .host, .steps, .red, .obj, .flash, .ageing, .tele, .out, .free] s (State.journalDone s) := by
  unfold State.journalDone
  repeat' (first
    | with_reducible exact Runs.refl _
    | with_reducible assumption
    | exact Eq.refl true
    | exact fun h => h
    | dsimp only
    | with_reducible apply Runs.comp (State.versionDone_runs ..)
    | with_reducible apply Runs.comp (State.recordDone_runs ..)
    | with_reducible apply Runs.comp (State.setFlash_runs ..)
    | with_reducible apply Runs.comp (State.journalled_runs ..)
    | with_reducible apply Runs.comp (State.journalBegin_runs ..)
    | with_reducible apply Runs.comp (State.lossOver_runs ..)
    | with_reducible apply Runs.foldl
    | with_reducible apply Runs.foldl_fst
    | intro _
    | split)

theorem State.lossBegins_runs (s : State) (b : Nat) :
    Runs [.power, .flash, .out] s (State.lossBegins s b) := by
  unfold State.lossBegins
  repeat' (first
    | with_reducible exact Runs.refl _
    | with_reducible assumption
    | exact Eq.refl true
    | exact fun h => h
    | dsimp only
    | with_reducible apply Runs.comp (State.setOut_runs ..)
    | with_reducible apply Runs.comp (State.setPower_runs ..)
    | with_reducible apply Runs.comp (State.setFlash_runs ..)
    | with_reducible apply Runs.comp (State.journalBegin_runs ..)
    | with_reducible apply Runs.foldl
    | with_reducible apply Runs.foldl_fst
    | intro _
    | split)

theorem State.powerLoss_runs (i : PowerInput) (s : State) :
    Runs [.ft, .pins, .power, .kettle, .cores, .sched, .txe, .sync, .mem, .urn, .fab, .links, .router, .host, .steps, .red, .obj, .flash, .out] s (State.powerLoss i s) := by
  unfold State.powerLoss
  repeat' (first
    | with_reducible exact Runs.refl _
    | with_reducible assumption
    | exact Eq.refl true
    | exact fun h => h
    | dsimp only
    | with_reducible apply Runs.comp (State.setPins_runs ..)
    | with_reducible apply Runs.comp (State.lossBegins_runs ..)
    | with_reducible apply Runs.comp (State.mainOff_runs ..)
    | with_reducible apply Runs.comp (State.setPower_runs ..)
    | with_reducible apply Runs.foldl
    | with_reducible apply Runs.foldl_fst
    | intro _
    | split)

theorem State.holdUpEnd_runs (s : State) :
    Runs [.clk, .ft, .pins, .power, .kettle, .cores, .sched, .txe, .sync, .mem, .urn, .fab, .links, .router, .caddy, .host, .steps, .red, .obj, .flash, .ageing, .tele, .out, .free] s (State.holdUpEnd s) := by
  unfold State.holdUpEnd
  repeat' (first
    | with_reducible exact Runs.refl _
    | with_reducible assumption
    | exact Eq.refl true
    | exact fun h => h
    | dsimp only
    | with_reducible apply Runs.comp (State.standbyOn_runs ..)
    | with_reducible apply Runs.comp (State.setPower_runs ..)
    | with_reducible apply Runs.comp (State.setPins_runs ..)
    | with_reducible apply Runs.foldl
    | with_reducible apply Runs.foldl_fst
    | intro _
    | split)

theorem State.withdrawTiles_runs (s : State) (core : Nat) :
    Runs [.cores, .sched, .fab, .red] s (State.withdrawTiles s core) := by
  unfold State.withdrawTiles
  repeat' (first
    | with_reducible exact Runs.refl _
    | with_reducible assumption
    | exact Eq.refl true
    | exact fun h => h
    | dsimp only
    | with_reducible apply Runs.comp (State.modCore_runs ..)
    | with_reducible apply Runs.comp (State.repost_runs ..)
    | with_reducible apply Runs.comp (State.setFab_runs ..)
    | with_reducible apply Runs.comp (State.setRed_runs ..)
    | with_reducible apply Runs.foldl
    | with_reducible apply Runs.foldl_fst
    | intro _)

theorem State.coreLost_runs (s : State) (core : Nat) (ctxs : List Nat) :
    Runs [.cores, .sched, .router, .host, .steps, .obj, .flash, .out] s (State.coreLost s core ctxs) := by
  unfold State.coreLost
  repeat' (first
    | with_reducible exact Runs.refl _
    | with_reducible assumption
    | exact Eq.refl true
    | exact fun h => h
    | dsimp only
    | with_reducible apply Runs.comp (State.uncovered_runs ..)
    | with_reducible apply Runs.comp (State.substitute_runs ..)
    | with_reducible apply Runs.comp (State.modCore_runs ..))

theorem State.coreFail_runs (core : Nat) (s : State) :
    Runs [.cores, .sched, .fab, .router, .host, .steps, .red, .obj, .flash, .out, .free] s (State.coreFail core s) := by
  unfold State.coreFail
  repeat' (first
    | with_reducible exact Runs.refl _
    | with_reducible assumption
    | exact Eq.refl true
    | exact fun h => h
    | dsimp only
    | with_reducible apply Runs.comp (State.modCore_runs ..)
    | with_reducible apply Runs.comp (State.withdrawTiles_runs ..)
    | with_reducible apply Runs.comp (State.coreLost_runs ..)
    | with_reducible apply Runs.comp (State.setSched_runs ..)
    | with_reducible apply Runs.comp (State.uncovered_runs ..)
    | with_reducible apply Runs.comp (State.covered_runs ..)
    | with_reducible apply Runs.foldl
    | with_reducible apply Runs.foldl_fst
    | intro _
    | split)

theorem State.watchdog_runs (core : Nat) (s : State) :
    Runs [.cores, .sched, .fab, .router, .host, .steps, .red, .obj, .flash, .out, .free] s (State.watchdog core s) := by
  unfold State.watchdog
  repeat' (first
    | with_reducible exact Runs.refl _
    | with_reducible assumption
    | exact Eq.refl true
    | exact fun h => h
    | dsimp only
    | with_reducible apply Runs.comp (State.coreFail_runs ..)
    | with_reducible apply Runs.foldl
    | with_reducible apply Runs.foldl_fst
    | intro _
    | split)

theorem State.nextTakeover_runs (s : State) (die : Nat) :
    Runs [.cores, .sched, .router, .host, .steps, .obj, .flash, .out] s (State.nextTakeover s die) := by
  unfold State.nextTakeover
  repeat' (first
    | with_reducible exact Runs.refl _
    | with_reducible assumption
    | exact Eq.refl true
    | exact fun h => h
    | dsimp only
    | with_reducible apply Runs.comp (State.coreLost_runs ..)
    | with_reducible apply Runs.comp (State.setSched_runs ..)
    | with_reducible apply Runs.foldl
    | with_reducible apply Runs.foldl_fst
    | intro _
    | split)

theorem State.spareReady_runs (die : Nat) (s : State) :
    Runs [.cores, .sched, .router, .host, .steps, .obj, .flash, .out] s (State.spareReady die s) := by
  unfold State.spareReady
  repeat' (first
    | with_reducible exact Runs.refl _
    | with_reducible assumption
    | exact Eq.refl true
    | exact fun h => h
    | dsimp only
    | with_reducible apply Runs.comp (State.setSched_runs ..)
    | with_reducible apply Runs.comp (State.nextTakeover_runs ..)
    | with_reducible apply Runs.comp (State.substitute_runs ..)
    | with_reducible apply Runs.comp (State.modCore_runs ..)
    | with_reducible apply Runs.foldl
    | with_reducible apply Runs.foldl_fst
    | intro _
    | split)

theorem State.phaseLoss_runs (r : Rail) (s : State) :
    Runs [.power, .router, .host, .obj, .flash, .out, .free] s (State.phaseLoss r s) := by
  unfold State.phaseLoss
  repeat' (first
    | with_reducible exact Runs.refl _
    | with_reducible assumption
    | exact Eq.refl true
    | exact fun h => h
    | exact Power.wf_phase (x := s.power) (by assumption) (Rail.index r) (tget 0 s.power.phases (Rail.index r) + 1) rfl
    | dsimp only
    | with_reducible apply Runs.comp (State.setPower_runs ..)
    | with_reducible apply Runs.comp (State.service_runs ..)
    | with_reducible apply Runs.comp (State.journal_runs ..)
    | with_reducible apply Runs.comp (State.covered_runs ..)
    | with_reducible apply Runs.foldl
    | with_reducible apply Runs.foldl_fst
    | intro _
    | split)

theorem State.takeover_runs (s : State) :
    Runs [.router, .caddy, .host, .obj, .flash, .out, .free] s (State.takeover s) := by
  unfold State.takeover
  repeat' (first
    | with_reducible exact Runs.refl _
    | with_reducible assumption
    | exact Eq.refl true
    | exact fun h => h
    | dsimp only
    | with_reducible apply Runs.comp (State.event_runs ..)
    | with_reducible apply Runs.comp (State.service_runs ..)
    | with_reducible apply Runs.comp (State.journal_runs ..)
    | with_reducible apply Runs.comp (State.covered_runs ..)
    | with_reducible apply Runs.comp (State.setCaddy_runs ..)
    | with_reducible apply Runs.foldl
    | with_reducible apply Runs.foldl_fst
    | intro _
    | split)

theorem State.m1Fail_runs (s : State) :
    Runs [.router, .caddy, .steps, .obj, .flash] s (State.m1Fail s) := by
  unfold State.m1Fail
  repeat' (first
    | with_reducible exact Runs.refl _
    | with_reducible assumption
    | exact Eq.refl true
    | exact fun h => h
    | dsimp only
    | with_reducible apply Runs.comp (State.setCaddy_runs ..)
    | with_reducible apply Runs.comp (State.uncovered_runs ..)
    | with_reducible apply Runs.comp (State.setFlash_runs ..)
    | with_reducible apply Runs.foldl
    | with_reducible apply Runs.foldl_fst
    | intro _
    | split)

theorem State.mainStart_runs (s : State) :
    Runs [.pins, .power, .out] s (State.mainStart s) := by
  unfold State.mainStart
  repeat' (first
    | with_reducible exact Runs.refl _
    | with_reducible assumption
    | exact Eq.refl true
    | exact fun h => h
    | dsimp only
    | with_reducible apply Runs.comp (State.mainBegin_runs ..)
    | with_reducible apply Runs.comp (State.setPins_runs ..)
    | with_reducible apply Runs.foldl
    | with_reducible apply Runs.foldl_fst
    | intro _
    | split)

theorem State.seqTo_runs (s : State) (row : Nat) :
    Runs [.power] s (State.seqTo s row) := by
  unfold State.seqTo
  repeat' (first
    | with_reducible exact Runs.refl _
    | with_reducible assumption
    | exact Eq.refl true
    | exact fun h => h
    | dsimp only
    | with_reducible apply Runs.comp (State.setPower_runs ..))

theorem State.stageEnd_runs (e : StageEnd) (s : State) :
    Runs [.power, .router, .host, .flash, .out] s (State.stageEnd e s) := by
  unfold State.stageEnd
  repeat' (first
    | with_reducible exact Runs.refl _
    | with_reducible assumption
    | exact Eq.refl true
    | exact fun h => h
    | dsimp only
    | with_reducible apply Runs.comp (State.seqFail_runs ..)
    | with_reducible apply Runs.comp (State.service_runs ..)
    | with_reducible apply Runs.foldl
    | with_reducible apply Runs.foldl_fst
    | intro _
    | split)

theorem State.railsUp_runs (e : StageEnd) (s : State) :
    Runs [.clk, .ft, .pins, .power, .kettle, .cores, .sched, .txe, .sync, .mem, .urn, .fab, .links, .router, .caddy, .host, .steps, .red, .obj, .flash, .ageing, .tele, .out, .free] s (State.railsUp e s) := by
  unfold State.railsUp
  repeat' (first
    | with_reducible exact Runs.refl _
    | with_reducible assumption
    | exact Eq.refl true
    | exact fun h => h
    | dsimp only
    | with_reducible apply Runs.comp (State.stageEnd_runs ..)
    | with_reducible apply Runs.comp (State.setPower_runs ..)
    | with_reducible apply Runs.comp (State.ftFresh_runs ..)
    | with_reducible apply Runs.comp (State.setFt_runs ..)
    | with_reducible apply Runs.comp (State.applyRaises_runs ..)
    | with_reducible apply Runs.comp (State.setKettle_runs ..)
    | with_reducible apply Runs.comp (State.retargetAll_runs ..)
    | with_reducible apply Runs.comp (State.modDie_runs ..)
    | with_reducible apply Runs.comp (State.allocResumes_runs ..)
    | with_reducible apply Runs.comp (State.brakeOn_runs ..)
    | with_reducible apply Runs.foldl
    | with_reducible apply Runs.foldl_fst
    | intro _
    | split)

theorem State.selfTested_runs (fails : List Nat) (e : StageEnd) (s : State) :
    Runs [.power, .sched, .router, .host, .flash, .out] s (State.selfTested fails e s) := by
  unfold State.selfTested
  repeat' (first
    | with_reducible exact Runs.refl _
    | with_reducible assumption
    | exact Eq.refl true
    | exact fun h => h
    | dsimp only
    | with_reducible apply Runs.comp (State.setPower_runs ..)
    | with_reducible apply Runs.comp (State.setSched_runs ..)
    | with_reducible apply Runs.comp (State.service_runs ..)
    | with_reducible apply Runs.comp (State.substitute_runs ..)
    | with_reducible apply Runs.comp (State.stageEnd_runs ..)
    | with_reducible apply Runs.foldl
    | with_reducible apply Runs.foldl_fst
    | intro _
    | split)

theorem State.gddrTrained_runs (rate : Option Nat) (e : StageEnd) (s : State) :
    Runs [.power, .mem, .router, .host, .flash, .out] s (State.gddrTrained rate e s) := by
  unfold State.gddrTrained
  repeat' (first
    | with_reducible exact Runs.refl _
    | with_reducible assumption
    | exact Eq.refl true
    | exact fun h => h
    | dsimp only
    | with_reducible apply Runs.comp (State.setMem_runs ..)
    | with_reducible apply Runs.comp (State.service_runs ..)
    | with_reducible apply Runs.comp (State.stageEnd_runs ..)
    | with_reducible apply Runs.foldl
    | with_reducible apply Runs.foldl_fst
    | intro _
    | split)

theorem State.zeroed_runs (e : StageEnd) (s : State) :
    Runs [.power, .mem, .router, .host, .flash, .out] s (State.zeroed e s) := by
  unfold State.zeroed
  repeat' (first
    | with_reducible exact Runs.refl _
    | with_reducible assumption
    | exact Eq.refl true
    | exact fun h => h
    | exact Mem.wf_zeroed (x := s.mem) (by assumption) rfl rfl rfl rfl
    | dsimp only
    | with_reducible apply Runs.comp (State.stageEnd_runs ..)
    | with_reducible apply Runs.comp (State.seqTo_runs ..)
    | with_reducible apply Runs.comp (State.setMem_runs ..)
    | with_reducible apply Runs.foldl
    | with_reducible apply Runs.foldl_fst
    | intro _
    | split)

theorem State.mainReady_runs (e : StageEnd) (s : State) :
    Runs [.power, .router, .host, .flash, .out] s (State.mainReady e s) := by
  unfold State.mainReady
  repeat' (first
    | with_reducible exact Runs.refl _
    | with_reducible assumption
    | exact Eq.refl true
    | exact fun h => h
    | dsimp only
    | with_reducible apply Runs.comp (State.stageEnd_runs ..)
    | with_reducible apply Runs.comp (State.setPower_runs ..)
    | with_reducible apply Runs.foldl
    | with_reducible apply Runs.foldl_fst
    | intro _
    | split)

theorem State.caddyReady_runs (s : State) :
    Runs [.router, .caddy, .host, .out] s (State.caddyReady s) := by
  unfold State.caddyReady
  repeat' (first
    | with_reducible exact Runs.refl _
    | with_reducible assumption
    | exact Eq.refl true
    | exact fun h => h
    | exact Caddy.wf_sessions (by assumption) (Caddy.raiseMin_sessions _)
    | dsimp only
    | with_reducible apply Runs.comp (State.alert_runs ..)
    | with_reducible apply Runs.comp (State.setCaddy_runs ..)
    | with_reducible apply Runs.foldl
    | with_reducible apply Runs.foldl_fst
    | intro _
    | split)

theorem State.refclkLost_runs (s : State) :
    Runs [.pins, .fab, .host] s (State.refclkLost s) := by
  unfold State.refclkLost
  repeat' (first
    | with_reducible exact Runs.refl _
    | with_reducible assumption
    | exact Eq.refl true
    | exact fun h => h
    | dsimp only
    | with_reducible apply Runs.comp (State.hostReset_runs ..)
    | with_reducible apply Runs.comp (State.setPins_runs ..))

theorem State.pcieUp_runs (gen : Nat) (width : Nat) (link : PcieLink) (s : State) :
    Runs [.host] s (State.pcieUp gen width link s) := by
  unfold State.pcieUp
  repeat' (first
    | with_reducible exact Runs.refl _
    | with_reducible assumption
    | exact Eq.refl true
    | exact fun h => h
    | dsimp only
    | with_reducible apply Runs.comp (State.setHost_runs ..)
    | with_reducible apply Runs.foldl
    | with_reducible apply Runs.foldl_fst
    | intro _
    | split)

theorem State.plcaTimeout_runs (s : State) :
    Runs [.caddy] s (State.plcaTimeout s) := by
  unfold State.plcaTimeout
  repeat' (first
    | with_reducible exact Runs.refl _
    | with_reducible assumption
    | exact Eq.refl true
    | exact fun h => h
    | dsimp only
    | with_reducible apply Runs.comp (State.setCaddy_runs ..))

theorem execThermalSample_runs (temps : List Int) (s : State) :
    RunsTo [.ft, .power, .kettle, .cores, .sched, .txe, .sync, .mem, .urn, .fab, .links, .router, .host, .steps, .red, .obj, .flash, .out] s (execThermalSample temps s) := by
  unfold execThermalSample
  repeat' (first
    | with_reducible refine RunsTo.need ?_
    | with_reducible refine RunsTo.next ?_
    | with_reducible exact Runs.refl _
    | with_reducible assumption
    | exact Eq.refl true
    | exact fun h => h
    | dsimp only
    | with_reducible apply Runs.comp (State.thermalSample_runs ..))

theorem execStackTempSample_runs (stack : Nat) (t : Int) (s : State) :
    RunsTo [.ft, .power, .kettle, .cores, .sched, .txe, .sync, .mem, .urn, .fab, .links, .router, .host, .steps, .red, .obj, .flash, .out] s (execStackTempSample stack t s) := by
  unfold execStackTempSample
  repeat' (first
    | with_reducible refine RunsTo.need ?_
    | with_reducible refine RunsTo.next ?_
    | with_reducible exact Runs.refl _
    | with_reducible assumption
    | exact Eq.refl true
    | exact fun h => h
    | dsimp only
    | with_reducible apply Runs.comp (State.stackSample_runs ..))

theorem execCoolantOkLow_runs (s : State) :
    RunsTo [.ft, .pins, .power, .kettle, .cores, .sched, .txe, .sync, .mem, .urn, .fab, .links, .router, .host, .steps, .red, .obj, .flash, .out, .free] s (execCoolantOkLow s) := by
  unfold execCoolantOkLow
  repeat' (first
    | with_reducible refine RunsTo.need ?_
    | with_reducible refine RunsTo.next ?_
    | with_reducible exact Runs.refl _
    | with_reducible assumption
    | exact Eq.refl true
    | exact fun h => h
    | dsimp only
    | with_reducible apply Runs.comp (State.coolantLow_runs ..))

theorem execGddrTempRead_runs (temps : List Int) (s : State) :
    RunsTo [.mem, .obj] s (execGddrTempRead temps s) := by
  unfold execGddrTempRead
  repeat' (first
    | with_reducible refine RunsTo.need ?_
    | with_reducible refine RunsTo.next ?_
    | with_reducible exact Runs.refl _
    | with_reducible assumption
    | exact Eq.refl true
    | exact fun h => h
    | dsimp only
    | with_reducible apply Runs.comp (State.gddrTemp_runs ..))

theorem execGddr7Realign_runs (s : State) :
    RunsTo [] s (execGddr7Realign s) := by
  unfold execGddr7Realign
  repeat' (first
    | with_reducible refine RunsTo.need ?_
    | with_reducible refine RunsTo.next ?_
    | with_reducible exact Runs.refl _
    | with_reducible assumption
    | exact Eq.refl true
    | exact fun h => h
    | dsimp only
    | with_reducible apply Runs.comp (State.gddrRealign_runs ..))

theorem execGddr7DeviceLost_runs (s : State) :
    RunsTo [.mem, .router, .host, .steps, .obj, .flash, .out] s (execGddr7DeviceLost s) := by
  unfold execGddr7DeviceLost
  repeat' (first
    | with_reducible refine RunsTo.need ?_
    | with_reducible refine RunsTo.next ?_
    | with_reducible exact Runs.refl _
    | with_reducible assumption
    | exact Eq.refl true
    | exact fun h => h
    | dsimp only
    | with_reducible apply Runs.comp (State.gddrLost_runs ..))

theorem execScrubRead_runs (addr : Nat) (err : MemErr) (s : State) :
    RunsTo [.mem, .host, .obj, .out] s (execScrubRead addr err s) := by
  unfold execScrubRead
  repeat' (first
    | with_reducible refine RunsTo.need ?_
    | with_reducible refine RunsTo.next ?_
    | with_reducible exact Runs.refl _
    | with_reducible assumption
    | exact Eq.refl true
    | exact fun h => h
    | dsimp only
    | with_reducible apply Runs.comp (State.scrub_runs ..))

theorem execJournalWriteDone_runs (s : State) :
    RunsTo [.clk, .ft, .pins, .power, .kettle, .cores, .sched, .txe, .sync, .mem, .urn, .fab, .links, .router, .caddy, .host, .steps, .red, .obj, .flash, .ageing, .tele, .out, .free] s (execJournalWriteDone s) := by
  unfold execJournalWriteDone
  repeat' (first
    | with_reducible refine RunsTo.need ?_
    | with_reducible refine RunsTo.next ?_
    | with_reducible exact Runs.refl _
    | with_reducible assumption
    | exact Eq.refl true
    | exact fun h => h
    | dsimp only
    | with_reducible apply Runs.comp (State.journalDone_runs ..))

theorem execPowerLoss_runs (input : PowerInput) (s : State) :
    RunsTo [.ft, .pins, .power, .kettle, .cores, .sched, .txe, .sync, .mem, .urn, .fab, .links, .router, .host, .steps, .red, .obj, .flash, .out] s (execPowerLoss input s) := by
  unfold execPowerLoss
  repeat' (first
    | with_reducible refine RunsTo.need ?_
    | with_reducible refine RunsTo.next ?_
    | with_reducible exact Runs.refl _
    | with_reducible assumption
    | exact Eq.refl true
    | exact fun h => h
    | dsimp only
    | with_reducible apply Runs.comp (State.powerLoss_runs ..))

theorem execHoldUpExhausted_runs (s : State) :
    RunsTo [.clk, .ft, .pins, .power, .kettle, .cores, .sched, .txe, .sync, .mem, .urn, .fab, .links, .router, .caddy, .host, .steps, .red, .obj, .flash, .ageing, .tele, .out, .free] s (execHoldUpExhausted s) := by
  unfold execHoldUpExhausted
  repeat' (first
    | with_reducible refine RunsTo.need ?_
    | with_reducible refine RunsTo.next ?_
    | with_reducible exact Runs.refl _
    | with_reducible assumption
    | exact Eq.refl true
    | exact fun h => h
    | dsimp only
    | with_reducible apply Runs.comp (State.holdUpEnd_runs ..))

theorem execCoreFailureDetect_runs (core : Nat) (s : State) :
    RunsTo [.cores, .sched, .fab, .router, .host, .steps, .red, .obj, .flash, .out, .free] s (execCoreFailureDetect core s) := by
  unfold execCoreFailureDetect
  repeat' (first
    | with_reducible refine RunsTo.need ?_
    | with_reducible refine RunsTo.next ?_
    | with_reducible exact Runs.refl _
    | with_reducible assumption
    | exact Eq.refl true
    | exact fun h => h
    | dsimp only
    | with_reducible apply Runs.comp (State.coreFail_runs ..))

theorem execWatchdogExpiry_runs (core : Nat) (s : State) :
    RunsTo [.cores, .sched, .fab, .router, .host, .steps, .red, .obj, .flash, .out, .free] s (execWatchdogExpiry core s) := by
  unfold execWatchdogExpiry
  repeat' (first
    | with_reducible refine RunsTo.need ?_
    | with_reducible refine RunsTo.next ?_
    | with_reducible exact Runs.refl _
    | with_reducible assumption
    | exact Eq.refl true
    | exact fun h => h
    | dsimp only
    | with_reducible apply Runs.comp (State.watchdog_runs ..))

theorem execSpareCoreReady_runs (die : Nat) (s : State) :
    RunsTo [.cores, .sched, .router, .host, .steps, .obj, .flash, .out] s (execSpareCoreReady die s) := by
  unfold execSpareCoreReady
  repeat' (first
    | with_reducible refine RunsTo.need ?_
    | with_reducible refine RunsTo.next ?_
    | with_reducible exact Runs.refl _
    | with_reducible assumption
    | exact Eq.refl true
    | exact fun h => h
    | dsimp only
    | with_reducible apply Runs.comp (State.spareReady_runs ..))

theorem execRailPhaseLoss_runs (rail : Rail) (s : State) :
    RunsTo [.power, .router, .host, .obj, .flash, .out, .free] s (execRailPhaseLoss rail s) := by
  unfold execRailPhaseLoss
  repeat' (first
    | with_reducible refine RunsTo.need ?_
    | with_reducible refine RunsTo.next ?_
    | with_reducible exact Runs.refl _
    | with_reducible assumption
    | exact Eq.refl true
    | exact fun h => h
    | dsimp only
    | with_reducible apply Runs.comp (State.phaseLoss_runs ..))

theorem execMgmtTakeover_runs (s : State) :
    RunsTo [.router, .caddy, .host, .obj, .flash, .out, .free] s (execMgmtTakeover s) := by
  unfold execMgmtTakeover
  repeat' (first
    | with_reducible refine RunsTo.need ?_
    | with_reducible refine RunsTo.next ?_
    | with_reducible exact Runs.refl _
    | with_reducible assumption
    | exact Eq.refl true
    | exact fun h => h
    | dsimp only
    | with_reducible apply Runs.comp (State.takeover_runs ..))

theorem execM1Failure_runs (s : State) :
    RunsTo [.router, .caddy, .steps, .obj, .flash] s (execM1Failure s) := by
  unfold execM1Failure
  repeat' (first
    | with_reducible refine RunsTo.need ?_
    | with_reducible refine RunsTo.next ?_
    | with_reducible exact Runs.refl _
    | with_reducible assumption
    | exact Eq.refl true
    | exact fun h => h
    | dsimp only
    | with_reducible apply Runs.comp (State.m1Fail_runs ..))

theorem execPowerOn_runs (s : State) :
    RunsTo [.clk, .ft, .pins, .power, .kettle, .cores, .sched, .txe, .sync, .mem, .urn, .fab, .links, .router, .caddy, .host, .steps, .red, .obj, .flash, .ageing, .tele, .out, .free] s (execPowerOn s) := by
  unfold execPowerOn
  repeat' (first
    | with_reducible refine RunsTo.need ?_
    | with_reducible refine RunsTo.next ?_
    | with_reducible exact Runs.refl _
    | with_reducible assumption
    | exact Eq.refl true
    | exact fun h => h
    | dsimp only
    | with_reducible apply Runs.comp (State.readSlot_runs ..)
    | with_reducible apply Runs.comp (State.standbyOn_runs ..))

theorem execCaddyReady_runs (s : State) :
    RunsTo [.router, .caddy, .host, .out] s (execCaddyReady s) := by
  unfold execCaddyReady
  repeat' (first
    | with_reducible refine RunsTo.need ?_
    | with_reducible refine RunsTo.next ?_
    | with_reducible exact Runs.refl _
    | with_reducible assumption
    | exact Eq.refl true
    | exact fun h => h
    | dsimp only
    | with_reducible apply Runs.comp (State.caddyReady_runs ..))

theorem execMainSequenceStart_runs (s : State) :
    RunsTo [.pins, .power, .out] s (execMainSequenceStart s) := by
  unfold execMainSequenceStart
  repeat' (first
    | with_reducible refine RunsTo.need ?_
    | with_reducible refine RunsTo.next ?_
    | with_reducible exact Runs.refl _
    | with_reducible assumption
    | exact Eq.refl true
    | exact fun h => h
    | dsimp only
    | with_reducible apply Runs.comp (State.mainStart_runs ..))

theorem execRailsUp_runs (e : StageEnd) (s : State) :
    RunsTo [.clk, .ft, .pins, .power, .kettle, .cores, .sched, .txe, .sync, .mem, .urn, .fab, .links, .router, .caddy, .host, .steps, .red, .obj, .flash, .ageing, .tele, .out, .free] s (execRailsUp e s) := by
  unfold execRailsUp
  repeat' (first
    | with_reducible refine RunsTo.need ?_
    | with_reducible refine RunsTo.next ?_
    | with_reducible exact Runs.refl _
    | with_reducible assumption
    | exact Eq.refl true
    | exact fun h => h
    | dsimp only
    | with_reducible apply Runs.comp (State.railsUp_runs ..))

theorem execCoreSelfTestDone_runs (fails : List Nat) (e : StageEnd) (s : State) :
    RunsTo [.power, .sched, .router, .host, .flash, .out] s (execCoreSelfTestDone fails e s) := by
  unfold execCoreSelfTestDone
  repeat' (first
    | with_reducible refine RunsTo.need ?_
    | with_reducible refine RunsTo.next ?_
    | with_reducible exact Runs.refl _
    | with_reducible assumption
    | exact Eq.refl true
    | exact fun h => h
    | dsimp only
    | with_reducible apply Runs.comp (State.selfTested_runs ..))

theorem execGddr7TrainingDone_runs (rate : Option Nat) (e : StageEnd) (s : State) :
    RunsTo [.power, .mem, .router, .host, .flash, .out] s (execGddr7TrainingDone rate e s) := by
  unfold execGddr7TrainingDone
  repeat' (first
    | with_reducible refine RunsTo.need ?_
    | with_reducible refine RunsTo.next ?_
    | with_reducible exact Runs.refl _
    | with_reducible assumption
    | exact Eq.refl true
    | exact fun h => h
    | dsimp only
    | with_reducible apply Runs.comp (State.gddrTrained_runs ..))

theorem execMemoryZeroed_runs (e : StageEnd) (s : State) :
    RunsTo [.power, .mem, .router, .host, .flash, .out] s (execMemoryZeroed e s) := by
  unfold execMemoryZeroed
  repeat' (first
    | with_reducible refine RunsTo.need ?_
    | with_reducible refine RunsTo.next ?_
    | with_reducible exact Runs.refl _
    | with_reducible assumption
    | exact Eq.refl true
    | exact fun h => h
    | dsimp only
    | with_reducible apply Runs.comp (State.zeroed_runs ..))

theorem execMainReady_runs (e : StageEnd) (s : State) :
    RunsTo [.power, .router, .host, .flash, .out] s (execMainReady e s) := by
  unfold execMainReady
  repeat' (first
    | with_reducible refine RunsTo.need ?_
    | with_reducible refine RunsTo.next ?_
    | with_reducible exact Runs.refl _
    | with_reducible assumption
    | exact Eq.refl true
    | exact fun h => h
    | dsimp only
    | with_reducible apply Runs.comp (State.mainReady_runs ..))

theorem execRefclkLoss_runs (s : State) :
    RunsTo [.pins, .fab, .host] s (execRefclkLoss s) := by
  unfold execRefclkLoss
  repeat' (first
    | with_reducible refine RunsTo.need ?_
    | with_reducible refine RunsTo.next ?_
    | with_reducible exact Runs.refl _
    | with_reducible assumption
    | exact Eq.refl true
    | exact fun h => h
    | dsimp only
    | with_reducible apply Runs.comp (State.refclkLost_runs ..))

theorem execPcieLinkTrainingDone_runs (gen : Nat) (width : Nat) (link : PcieLink) (s : State) :
    RunsTo [.host] s (execPcieLinkTrainingDone gen width link s) := by
  unfold execPcieLinkTrainingDone
  repeat' (first
    | with_reducible refine RunsTo.need ?_
    | with_reducible refine RunsTo.next ?_
    | with_reducible exact Runs.refl _
    | with_reducible assumption
    | exact Eq.refl true
    | exact fun h => h
    | dsimp only
    | with_reducible apply Runs.comp (State.pcieUp_runs ..))

theorem execPlcaBeaconTimeout_runs (s : State) :
    RunsTo [.caddy] s (execPlcaBeaconTimeout s) := by
  unfold execPlcaBeaconTimeout
  repeat' (first
    | with_reducible refine RunsTo.need ?_
    | with_reducible refine RunsTo.next ?_
    | with_reducible exact Runs.refl _
    | with_reducible assumption
    | exact Eq.refl true
    | exact fun h => h
    | dsimp only
    | with_reducible apply Runs.comp (State.plcaTimeout_runs ..))

theorem execHostReset_runs (s : State) :
    RunsTo [.fab, .host, .free] s (execHostReset s) := by
  unfold execHostReset
  repeat' (first
    | with_reducible refine RunsTo.need ?_
    | with_reducible refine RunsTo.next ?_
    | with_reducible exact Runs.refl _
    | with_reducible assumption
    | exact Eq.refl true
    | exact fun h => h
    | dsimp only
    | with_reducible apply Runs.comp (State.fresh_runs ..)
    | with_reducible apply Runs.comp (State.hostReset_runs ..))

end Sys2Proof.Machine
end

