-- ==== Sys2Proof/Laws/ExchangeRuns.lean ====
section
/-!
SUPPORT. What the operations of Machine/Exchange.lean may change, and that they keep the canonical form.
-/

namespace Sys2Proof.Machine

/-- What a tile does and what it does while it waits both run within the parts of `L`. -/
structure RunsX (L : List Part) (s : State) (r : XDone) : Prop where
  done : Runs L s r.done
  waiting : Runs L s r.waiting

theorem RunsX.mono {a b : List Part} {s : State} {r : XDone} (h : RunsX a s r) (hab : within a b = true) : RunsX b s r :=
  ⟨h.done.mono hab, h.waiting.mono hab⟩

theorem RunsX.comp {a L : List Part} {s t : State} {r : XDone} (k : RunsX a t r) (hab : within a L = true) (h : Runs L s t) :
    RunsX L s r := ⟨k.done.comp hab h, k.waiting.comp hab h⟩

theorem RunsX.ite {L : List Part} {c : Prop} [Decidable c] {s : State} {q r : XDone} (h : c → RunsX L s q)
    (k : ¬c → RunsX L s r) : RunsX L s (if c then q else r) := by
  split
  · exact h ‹_›
  · exact k ‹_›

theorem State.holdX_runs (s : State) (x : TxeTile) :
    Runs [.txe] s (State.holdX s x) := by
  unfold State.holdX
  repeat' (first
    | with_reducible exact Runs.refl _
    | with_reducible assumption
    | exact Eq.refl true
    | exact fun h => h
    | dsimp only
    | with_reducible apply Runs.comp (State.setTxe_runs ..))

theorem XDone.go_runs {L : List Part} {s : State} {r : XDone} (h : RunsX L s r) (x : TxeTile)
    (hL : within [.mem, .fab, .router, .free] L = true) : Runs L s (r.go x) := by
  unfold XDone.go
  refine Runs.ite (fun _ => ?_) (fun _ => ?_)
  · exact Runs.comp (State.askPeer_runs ..) (within_trans rfl hL)
      (Runs.comp (State.foundDone_runs ..) (within_trans rfl hL) h.waiting)
  · exact Runs.comp (State.foundDone_runs ..) (within_trans rfl hL) h.done

theorem State.resumeX_runs {L : List Part} {run : TxeTile → State → XDone} {read : Exch → State → XDone} (hr : ∀ x t, RunsX L t (run x t)) (hd : ∀ e t, RunsX L t (read e t)) (hL : within [.txe, .mem, .fab, .router, .free] L = true)
    {s t : State} {cmd : Nat} (h : s.resumeX cmd run read = some t) : Runs L s t := by
  unfold State.resumeX at h
  split at h
  · rw [← Option.some.inj h]
    exact XDone.go_runs (RunsX.comp (hr _ _) (within_refl L) ((State.setTxe_runs ..).mono (within_trans rfl hL))) _
      (within_trans rfl hL)
  · rw [← Option.some.inj h]
    exact XDone.go_runs (hd _ _) _ (within_trans rfl hL)
  · cases h

theorem State.claimX_runs {L : List Part} {run : TxeTile → State → XDone} {read : Exch → State → XDone} (s : State) (cmd : Nat)
    (hr : ∀ x t, RunsX L t (run x t)) (hd : ∀ e t, RunsX L t (read e t)) (hL : within [.sched, .txe, .sync, .mem, .urn, .fab, .router, .host, .steps, .obj, .tele, .out, .free] L = true) :
    Runs L s (s.claimX cmd run read) := by
  have hn := (State.notice_runs s).mono (b := L) (within_trans rfl hL)
  unfold State.claimX
  dsimp only
  split
  · exact hn.trans ((State.withdraw_runs ..).mono (within_trans rfl hL))
  · split
    · rename_i e
      exact hn.trans (State.resumeX_runs hr hd (within_trans rfl hL) e)
    · split
      · exact hn
      · rename_i e _
        refine Runs.ite (fun _ => hn) (fun _ => ?_)
        have ht := Runs.comp (State.takeWaits_runs (s.notice.unlist e) e) (within_trans rfl hL)
          (Runs.comp (State.unlist_runs ..) (within_trans rfl hL) hn)
        split
        · have hu := fun cs v => Runs.comp (State.evalNote_runs _ v) (within_trans rfl hL)
            (Runs.comp (State.urnTileFlags_runs _ e.desc cs) (within_trans rfl hL) ht)
          refine Runs.ite (fun _ => (hu _ _).trans ((State.finishX_runs ..).mono (within_trans rfl hL))) (fun _ => ?_)
          exact XDone.go_runs (RunsX.comp (hr _ _) (within_refl L) (hu _ _)) _ (within_trans rfl hL)
        · exact ht.trans ((State.finish_runs ..).mono (within_trans rfl hL))

theorem State.xPut_runs (s : State) (x : TxeTile) (o : XOp) (off : Nat) (bs : List Byte) :
    Runs [.cores, .mem, .urn, .fab, .router, .obj] s (State.xPut s x o off bs).1 := by
  unfold State.xPut
  repeat' (first
    | with_reducible exact Runs.refl _
    | with_reducible assumption
    | exact Eq.refl true
    | exact fun h => h
    | dsimp only
    | with_reducible apply Runs.comp (State.applyStore_runs ..)
    | refine Runs.of_pair (Runs.comp (State.applyStore_runs ..) rfl ?_) (by assumption)
    | with_reducible apply Runs.foldl
    | with_reducible apply Runs.foldl_fst
    | intro _
    | split)

theorem State.putExch_runs (s : State) (x : Exch) :
    Runs [.txe] s (State.putExch s x) := by
  unfold State.putExch
  repeat' (first
    | with_reducible exact Runs.refl _
    | with_reducible assumption
    | exact Eq.refl true
    | exact fun h => h
    | dsimp only
    | with_reducible apply Runs.comp (State.setTxe_runs ..))

theorem State.dropExch_runs (s : State) (x : Exch) :
    Runs [.txe] s (State.dropExch s x) := by
  unfold State.dropExch
  repeat' (first
    | with_reducible exact Runs.refl _
    | with_reducible assumption
    | exact Eq.refl true
    | exact fun h => h
    | dsimp only
    | with_reducible apply Runs.comp (State.setTxe_runs ..))

theorem State.exchLog_runs (s : State) (tile : Nat) (cause : Nat) (dev : Nat) (expert : Nat) (slot : Nat) :
    Runs [.txe] s (State.exchLog s tile cause dev expert slot) := by
  unfold State.exchLog
  repeat' (first
    | with_reducible exact Runs.refl _
    | with_reducible assumption
    | exact Eq.refl true
    | exact fun h => h
    | dsimp only
    | with_reducible apply Runs.comp (State.setTxe_runs ..)
    | with_reducible apply Runs.foldl
    | with_reducible apply Runs.foldl_fst
    | intro _
    | split)

theorem State.meetX_runs (s : State) (x : Exch) (cs : List (Nat × Nat)) :
    Runs [.fab, .router, .steps, .obj] s (State.meetX s x cs).1 := by
  unfold State.meetX
  repeat' (first
    | with_reducible exact Runs.refl _
    | with_reducible assumption
    | exact Eq.refl true
    | exact fun h => h
    | dsimp only
    | with_reducible apply Runs.comp (State.metX_runs ..)
    | refine Runs.of_pair (Runs.comp (State.metX_runs ..) rfl ?_) (by assumption)
    | with_reducible apply Runs.comp (State.latch_runs ..)
    | with_reducible apply Runs.foldl
    | with_reducible apply Runs.foldl_fst
    | intro _
    | split)

theorem State.exchErr_runs (s : State) (x : Exch) (log : Nat) (cause : Nat) (dev : Nat) (expert : Nat) (slot : Nat) :
    Runs [.txe, .fab, .router, .steps, .obj] s (State.exchErr s x log cause dev expert slot) := by
  unfold State.exchErr
  repeat' (first
    | with_reducible exact Runs.refl _
    | with_reducible assumption
    | exact Eq.refl true
    | exact fun h => h
    | dsimp only
    | with_reducible apply Runs.comp (State.meetX_runs ..)
    | refine Runs.of_pair (Runs.comp (State.meetX_runs ..) rfl ?_) (by assumption)
    | with_reducible apply Runs.comp (State.exchLog_runs ..)
    | with_reducible apply Runs.comp (State.putExch_runs ..))

theorem State.exchPut_runs (q : State × Exch) (o : XOp) (off : Nat) (bs : List Byte) :
    Runs [.cores, .mem, .urn, .fab, .router, .steps, .obj] q.1 (State.exchPut q o off bs).1 := by
  unfold State.exchPut
  repeat' (first
    | with_reducible exact Runs.refl _
    | with_reducible assumption
    | exact Eq.refl true
    | exact fun h => h
    | dsimp only
    | with_reducible apply Runs.comp (State.xPut_runs ..)
    | refine Runs.of_pair (Runs.comp (State.xPut_runs ..) rfl ?_) (by assumption)
    | with_reducible apply Runs.comp (State.meetX_runs ..))

theorem State.exchRefuse_runs (s : State) (x : TxeTile) (log : Nat) (cause : Nat) :
    Runs [.txe, .sync, .mem, .urn, .fab, .router, .host, .steps, .obj, .out] s (State.exchRefuse s x log cause) := by
  unfold State.exchRefuse
  repeat' (first
    | with_reducible exact Runs.refl _
    | with_reducible assumption
    | exact Eq.refl true
    | exact fun h => h
    | dsimp only
    | with_reducible apply Runs.comp (State.finishX_runs ..)
    | with_reducible apply Runs.comp (State.exchLog_runs ..))

theorem State.exchGo_runs (s : State) (ctx : Nat) (id : Nat) (bwd : Bool) :
    Runs [.txe, .sync, .mem, .urn, .fab, .router, .host, .steps, .obj, .out] s (State.exchGo s ctx id bwd) := by
  unfold State.exchGo
  repeat' (first
    | with_reducible exact Runs.refl _
    | with_reducible assumption
    | exact Eq.refl true
    | exact fun h => h
    | dsimp only
    | with_reducible apply Runs.comp (State.dropExch_runs ..)
    | with_reducible apply Runs.comp (State.putExch_runs ..)
    | with_reducible apply Runs.comp (State.signalWord_runs ..)
    | with_reducible apply Runs.comp (State.finishX_runs ..)
    | with_reducible apply Runs.foldl
    | with_reducible apply Runs.foldl_fst
    | intro _
    | split)

theorem State.xSend_runs (s : State) (x : Exch) (vc : Nat) (fop : Nat) (round : Nat) (dst : Nat) (w2 : Nat) (size : Nat) (entries : List Nat) :
    Runs [.router] s (State.xSend s x vc fop round dst w2 size entries) := by
  unfold State.xSend
  repeat' (first
    | with_reducible exact Runs.refl _
    | with_reducible assumption
    | exact Eq.refl true
    | exact fun h => h
    | dsimp only
    | with_reducible apply Runs.comp (State.send_runs ..)
    | with_reducible apply Runs.foldl
    | with_reducible apply Runs.foldl_fst
    | intro _)

theorem State.xRow_runs (s : State) (ctx : Nat) (vc : Nat) (fop : Nat) (id : Nat) (layer : Nat) (bwd : Bool) (dst : Nat) (tag : List Byte) (row : List Byte) :
    Runs [.router] s (State.xRow s ctx vc fop id layer bwd dst tag row) := by
  unfold State.xRow
  repeat' (first
    | with_reducible exact Runs.refl _
    | with_reducible assumption
    | exact Eq.refl true
    | exact fun h => h
    | dsimp only
    | with_reducible apply Runs.comp (State.send_runs ..)
    | with_reducible apply Runs.foldl
    | with_reducible apply Runs.foldl_fst
    | intro _)

theorem State.sendCounts_runs (s : State) (x : Exch) (round : Nat) :
    Runs [.router] s (State.sendCounts s x round) := by
  unfold State.sendCounts
  repeat' (first
    | with_reducible exact Runs.refl _
    | with_reducible assumption
    | exact Eq.refl true
    | exact fun h => h
    | dsimp only
    | with_reducible apply Runs.comp (State.xSend_runs ..)
    | with_reducible apply Runs.foldl
    | with_reducible apply Runs.foldl_fst
    | intro _)

theorem State.admitDone_runs (s : State) (x : Exch) :
    Runs [.cores, .txe, .sync, .mem, .urn, .fab, .router, .host, .steps, .obj, .out] s (State.admitDone s x) := by
  unfold State.admitDone
  repeat' (first
    | with_reducible exact Runs.refl _
    | with_reducible assumption
    | exact Eq.refl true
    | exact fun h => h
    | dsimp only
    | with_reducible apply Runs.comp (State.exchLog_runs ..)
    | with_reducible apply Runs.comp (State.exchPut_runs ..)
    | refine Runs.of_pair (Runs.comp (State.exchPut_runs ..) rfl ?_) (by assumption)
    | with_reducible apply Runs.comp (State.exchGo_runs ..)
    | with_reducible apply Runs.comp (State.putExch_runs ..)
    | with_reducible apply Runs.foldl
    | with_reducible apply Runs.foldl_fst
    | intro _
    | split)

theorem State.sourceGo_runs (s : State) (x : Exch) :
    Runs [.cores, .txe, .sync, .mem, .urn, .fab, .router, .host, .steps, .obj, .out] s (State.sourceGo s x) := by
  unfold State.sourceGo
  repeat' (first
    | with_reducible exact Runs.refl _
    | with_reducible assumption
    | exact Eq.refl true
    | exact fun h => h
    | dsimp only
    | with_reducible apply Runs.comp (State.putExch_runs ..)
    | with_reducible apply Runs.comp (State.sendCounts_runs ..)
    | with_reducible apply Runs.comp (State.admitDone_runs ..)
    | with_reducible apply Runs.foldl
    | with_reducible apply Runs.foldl_fst
    | intro _
    | split)

theorem State.openX_runs (s : State) (e : Exch) :
    Runs [.txe] s (State.openX s e) := by
  unfold State.openX
  repeat' (first
    | with_reducible exact Runs.refl _
    | with_reducible assumption
    | exact Eq.refl true
    | exact fun h => h
    | dsimp only
    | with_reducible apply Runs.comp (State.setTxe_runs ..))

theorem State.admitRead_runs (e : Exch) (s : State) :
    RunsX [.cores, .txe, .sync, .mem, .urn, .fab, .router, .host, .steps, .obj, .out] s (State.admitRead e s) := by
  unfold State.admitRead
  repeat' (first
    | with_reducible apply RunsX.ite
    | with_reducible exact Runs.refl _
    | with_reducible assumption
    | exact Eq.refl true
    | exact fun h => h
    | dsimp only
    | with_reducible apply Runs.comp (State.exchLog_runs ..)
    | with_reducible apply Runs.comp (State.meetX_runs ..)
    | refine Runs.of_pair (Runs.comp (State.meetX_runs ..) rfl ?_) (by assumption)
    | with_reducible apply Runs.comp (State.sendCounts_runs ..)
    | with_reducible apply Runs.comp (State.putExch_runs ..)
    | with_reducible apply Runs.comp (State.exchGo_runs ..)
    | with_reducible apply Runs.comp (State.sourceGo_runs ..)
    | with_reducible refine RunsX.mk ?_ ?_
    | with_reducible apply Runs.foldl
    | with_reducible apply Runs.foldl_fst
    | intro _
    | split)

theorem State.admitX_runs (x : TxeTile) (s : State) : RunsX [.cores, .txe, .sync, .mem, .urn, .fab, .router, .host, .steps, .obj, .out] s (State.admitX x s) := by
  have refused : ∀ a b, RunsX [.cores, .txe, .sync, .mem, .urn, .fab, .router, .host, .steps, .obj, .out] s ⟨s.exchRefuse x a b, [], s⟩ := fun a b =>
    ⟨(State.exchRefuse_runs ..).mono rfl, Runs.refl s⟩
  unfold State.admitX
  dsimp only
  refine RunsX.ite (fun _ => refused _ _) (fun _ => RunsX.ite (fun _ => refused _ _) (fun _ => ?_))
  exact RunsX.comp (State.admitRead_runs ..) rfl ((State.openX_runs ..).mono rfl)

theorem State.sendGrants_runs (s : State) (x : Exch) (srcs : List Nat) (round : Nat) :
    Runs [.router] s (State.sendGrants s x srcs round) := by
  unfold State.sendGrants
  repeat' (first
    | with_reducible exact Runs.refl _
    | with_reducible assumption
    | exact Eq.refl true
    | exact fun h => h
    | dsimp only
    | with_reducible apply Runs.comp (State.xSend_runs ..)
    | with_reducible apply Runs.foldl
    | with_reducible apply Runs.foldl_fst
    | intro _)

theorem State.reports_runs (q : State × Exch) (srcs : List Nat) :
    Runs [.cores, .mem, .urn, .fab, .router, .steps, .obj] q.1 (State.reports q srcs).1 := by
  unfold State.reports
  repeat' (first
    | with_reducible exact Runs.refl _
    | with_reducible assumption
    | exact Eq.refl true
    | exact fun h => h
    | dsimp only
    | with_reducible apply Runs.comp (State.exchPut_runs ..)
    | refine Runs.of_pair (Runs.comp (State.exchPut_runs ..) rfl ?_) (by assumption)
    | with_reducible apply Runs.foldl
    | with_reducible apply Runs.foldl_fst
    | intro _
    | split)

theorem State.homeGo_runs (s : State) (x : Exch) :
    Runs [.cores, .txe, .mem, .urn, .fab, .router, .steps, .obj] s (State.homeGo s x) := by
  unfold State.homeGo
  repeat' (first
    | with_reducible exact Runs.refl _
    | with_reducible assumption
    | exact Eq.refl true
    | exact fun h => h
    | dsimp only
    | with_reducible apply Runs.comp (State.putExch_runs ..)
    | with_reducible apply Runs.comp (State.xSend_runs ..)
    | with_reducible apply Runs.comp (State.sendGrants_runs ..)
    | with_reducible apply Runs.comp (State.reports_runs ..)
    | refine Runs.of_pair (Runs.comp (State.reports_runs ..) rfl ?_) (by assumption)
    | with_reducible apply Runs.foldl
    | with_reducible apply Runs.foldl_fst
    | intro _
    | split)

theorem State.exchStale_runs (s : State) :
    Runs [.obj] s (State.exchStale s) := by
  unfold State.exchStale
  repeat' (first
    | with_reducible exact Runs.refl _
    | with_reducible assumption
    | exact Eq.refl true
    | exact fun h => h
    | dsimp only
    | with_reducible apply Runs.comp (State.bump_runs ..))

theorem State.exchCount_runs (p : Packet) (s : State) :
    Runs [.cores, .txe, .sync, .mem, .urn, .fab, .router, .host, .steps, .obj, .out] s (State.exchCount p s) := by
  unfold State.exchCount
  repeat' (first
    | with_reducible exact Runs.refl _
    | with_reducible assumption
    | exact Eq.refl true
    | exact fun h => h
    | dsimp only
    | with_reducible apply Runs.comp (State.taken_runs ..)
    | with_reducible apply Runs.comp (State.exchStale_runs ..)
    | with_reducible apply Runs.comp (State.exchGo_runs ..)
    | with_reducible apply Runs.comp (State.homeGo_runs ..)
    | with_reducible apply Runs.foldl
    | with_reducible apply Runs.foldl_fst
    | intro _
    | split)

theorem State.exchGrant_runs (p : Packet) (s : State) :
    Runs [.cores, .txe, .sync, .mem, .urn, .fab, .router, .host, .steps, .obj, .out] s (State.exchGrant p s) := by
  unfold State.exchGrant
  repeat' (first
    | with_reducible exact Runs.refl _
    | with_reducible assumption
    | exact Eq.refl true
    | exact fun h => h
    | dsimp only
    | with_reducible apply Runs.comp (State.taken_runs ..)
    | with_reducible apply Runs.comp (State.exchStale_runs ..)
    | with_reducible apply Runs.comp (State.finishX_runs ..)
    | with_reducible apply Runs.comp (State.putExch_runs ..)
    | with_reducible apply Runs.comp (State.exchLog_runs ..)
    | with_reducible apply Runs.comp (State.sourceGo_runs ..)
    | with_reducible apply Runs.foldl
    | with_reducible apply Runs.foldl_fst
    | intro _
    | split)

theorem State.writeShapes_runs (q : State × Exch) (counts : Nat → Nat) :
    Runs [.cores, .mem, .urn, .fab, .router, .steps, .obj] q.1 (State.writeShapes q counts).1 := by
  unfold State.writeShapes
  repeat' (first
    | with_reducible exact Runs.refl _
    | with_reducible assumption
    | exact Eq.refl true
    | exact fun h => h
    | dsimp only
    | with_reducible apply Runs.comp (State.exchPut_runs ..)
    | refine Runs.of_pair (Runs.comp (State.exchPut_runs ..) rfl ?_) (by assumption)
    | with_reducible apply Runs.foldl
    | with_reducible apply Runs.foldl_fst
    | intro _
    | split)

theorem State.exchAllot_runs (p : Packet) (s : State) :
    Runs [.cores, .txe, .sync, .mem, .urn, .fab, .router, .host, .steps, .obj, .out] s (State.exchAllot p s) := by
  unfold State.exchAllot
  repeat' (first
    | with_reducible exact Runs.refl _
    | with_reducible assumption
    | exact Eq.refl true
    | exact fun h => h
    | dsimp only
    | with_reducible apply Runs.comp (State.taken_runs ..)
    | with_reducible apply Runs.comp (State.exchStale_runs ..)
    | with_reducible apply Runs.comp (State.writeShapes_runs ..)
    | refine Runs.of_pair (Runs.comp (State.writeShapes_runs ..) rfl ?_) (by assumption)
    | with_reducible apply Runs.comp (State.exchGo_runs ..)
    | with_reducible apply Runs.comp (State.putExch_runs ..)
    | with_reducible apply Runs.foldl
    | with_reducible apply Runs.foldl_fst
    | intro _
    | split)

theorem State.exchRow_runs (p : Packet) (s : State) :
    Runs [.cores, .txe, .sync, .mem, .urn, .fab, .router, .host, .steps, .obj, .out] s (State.exchRow p s) := by
  unfold State.exchRow
  repeat' (first
    | with_reducible exact Runs.refl _
    | with_reducible assumption
    | exact Eq.refl true
    | exact fun h => h
    | dsimp only
    | with_reducible apply Runs.comp (State.taken_runs ..)
    | with_reducible apply Runs.comp (State.exchStale_runs ..)
    | with_reducible apply Runs.comp (State.exchErr_runs ..)
    | with_reducible apply Runs.comp (State.exchPut_runs ..)
    | refine Runs.of_pair (Runs.comp (State.exchPut_runs ..) rfl ?_) (by assumption)
    | with_reducible apply Runs.comp (State.exchGo_runs ..)
    | with_reducible apply Runs.comp (State.putExch_runs ..)
    | with_reducible apply Runs.foldl
    | with_reducible apply Runs.foldl_fst
    | intro _
    | split)

theorem State.exchReturnRow_runs (p : Packet) (s : State) :
    Runs [.cores, .txe, .sync, .mem, .urn, .fab, .router, .host, .steps, .obj, .out] s (State.exchReturnRow p s) := by
  unfold State.exchReturnRow
  repeat' (first
    | with_reducible exact Runs.refl _
    | with_reducible assumption
    | exact Eq.refl true
    | exact fun h => h
    | dsimp only
    | with_reducible apply Runs.comp (State.taken_runs ..)
    | with_reducible apply Runs.comp (State.exchStale_runs ..)
    | with_reducible apply Runs.comp (State.exchErr_runs ..)
    | with_reducible apply Runs.comp (State.exchPut_runs ..)
    | refine Runs.of_pair (Runs.comp (State.exchPut_runs ..) rfl ?_) (by assumption)
    | with_reducible apply Runs.comp (State.exchGo_runs ..)
    | with_reducible apply Runs.comp (State.putExch_runs ..)
    | with_reducible apply Runs.foldl
    | with_reducible apply Runs.foldl_fst
    | intro _
    | split)

theorem State.dispatchRun_runs (x : TxeTile) (s : State) :
    RunsX [.txe, .sync, .mem, .urn, .fab, .router, .host, .steps, .obj, .out] s (State.dispatchRun x s) := by
  unfold State.dispatchRun
  repeat' (first
    | with_reducible apply RunsX.ite
    | with_reducible exact Runs.refl _
    | with_reducible assumption
    | exact Eq.refl true
    | exact fun h => h
    | dsimp only
    | with_reducible apply Runs.comp (State.exchRefuse_runs ..)
    | with_reducible apply Runs.comp (State.xRow_runs ..)
    | with_reducible apply Runs.comp (State.finishX_runs ..)
    | with_reducible apply Runs.comp (State.holdX_runs ..)
    | with_reducible refine RunsX.mk ?_ ?_
    | with_reducible apply Runs.foldl
    | with_reducible apply Runs.foldl_fst
    | intro _
    | split)

theorem State.returnRun_runs (x : TxeTile) (s : State) :
    RunsX [.txe, .sync, .mem, .urn, .fab, .router, .host, .steps, .obj, .out] s (State.returnRun x s) := by
  unfold State.returnRun
  repeat' (first
    | with_reducible apply RunsX.ite
    | with_reducible exact Runs.refl _
    | with_reducible assumption
    | exact Eq.refl true
    | exact fun h => h
    | dsimp only
    | with_reducible apply Runs.comp (State.exchRefuse_runs ..)
    | with_reducible apply Runs.comp (State.xRow_runs ..)
    | with_reducible apply Runs.comp (State.finishX_runs ..)
    | with_reducible apply Runs.comp (State.holdX_runs ..)
    | with_reducible refine RunsX.mk ?_ ?_
    | with_reducible apply Runs.foldl
    | with_reducible apply Runs.foldl_fst
    | intro _)

theorem State.combineRun_runs (x : TxeTile) (s : State) :
    RunsX [.cores, .txe, .sync, .mem, .urn, .fab, .router, .host, .steps, .obj, .out] s (State.combineRun x s) := by
  unfold State.combineRun
  repeat' (first
    | with_reducible apply RunsX.ite
    | with_reducible exact Runs.refl _
    | with_reducible assumption
    | exact Eq.refl true
    | exact fun h => h
    | dsimp only
    | with_reducible apply Runs.comp (State.exchRefuse_runs ..)
    | with_reducible apply Runs.comp (State.xPut_runs ..)
    | refine Runs.of_pair (Runs.comp (State.xPut_runs ..) rfl ?_) (by assumption)
    | with_reducible apply Runs.comp (State.finishX_runs ..)
    | with_reducible apply Runs.comp (State.holdX_runs ..)
    | with_reducible refine RunsX.mk ?_ ?_
    | with_reducible apply Runs.foldl
    | with_reducible apply Runs.foldl_fst
    | intro _)

theorem State.openBwdRead_runs (e : Exch) (s : State) :
    RunsX [.cores, .txe, .sync, .mem, .urn, .fab, .router, .host, .steps, .obj, .out] s (State.openBwdRead e s) := by
  unfold State.openBwdRead
  repeat' (first
    | with_reducible apply RunsX.ite
    | with_reducible exact Runs.refl _
    | with_reducible assumption
    | exact Eq.refl true
    | exact fun h => h
    | dsimp only
    | with_reducible apply Runs.comp (State.exchPut_runs ..)
    | refine Runs.of_pair (Runs.comp (State.exchPut_runs ..) rfl ?_) (by assumption)
    | with_reducible apply Runs.comp (State.meetX_runs ..)
    | refine Runs.of_pair (Runs.comp (State.meetX_runs ..) rfl ?_) (by assumption)
    | with_reducible apply Runs.comp (State.exchGo_runs ..)
    | with_reducible apply Runs.comp (State.putExch_runs ..)
    | with_reducible refine RunsX.mk ?_ ?_)

theorem State.openBwd_runs (x : TxeTile) (s : State) : RunsX [.cores, .txe, .sync, .mem, .urn, .fab, .router, .host, .steps, .obj, .out] s (State.openBwd x s) := by
  have refused : ∀ a b, RunsX [.cores, .txe, .sync, .mem, .urn, .fab, .router, .host, .steps, .obj, .out] s ⟨s.exchRefuse x a b, [], s⟩ := fun a b =>
    ⟨(State.exchRefuse_runs ..).mono rfl, Runs.refl s⟩
  unfold State.openBwd
  dsimp only
  refine RunsX.ite (fun _ => refused _ _) (fun _ => RunsX.ite (fun _ => refused _ _) (fun _ => ?_))
  exact RunsX.comp (State.openBwdRead_runs ..) rfl ((State.openX_runs ..).mono rfl)

theorem State.timeoutX_runs (s : State) (x : Exch) :
    Runs [.txe, .sync, .mem, .urn, .fab, .router, .host, .steps, .obj, .out] s (State.timeoutX s x) := by
  unfold State.timeoutX
  repeat' (first
    | with_reducible exact Runs.refl _
    | with_reducible assumption
    | exact Eq.refl true
    | exact fun h => h
    | dsimp only
    | with_reducible apply Runs.comp (State.setTxe_runs ..)
    | with_reducible apply Runs.comp (State.latch_runs ..)
    | with_reducible apply Runs.comp (State.finishX_runs ..)
    | with_reducible apply Runs.foldl
    | with_reducible apply Runs.foldl_fst
    | intro _
    | split)

theorem State.exchDeadline_runs (ctx : Nat) (id : Nat) (dir : Nat) (s : State) :
    Runs [.cores, .txe, .sync, .mem, .urn, .fab, .router, .host, .steps, .obj, .out] s (State.exchDeadline ctx id dir s) := by
  unfold State.exchDeadline
  repeat' (first
    | with_reducible exact Runs.refl _
    | with_reducible assumption
    | exact Eq.refl true
    | exact fun h => h
    | dsimp only
    | with_reducible apply Runs.comp (State.writeShapes_runs ..)
    | refine Runs.of_pair (Runs.comp (State.writeShapes_runs ..) rfl ?_) (by assumption)
    | with_reducible apply Runs.comp (State.timeoutX_runs ..)
    | with_reducible apply Runs.comp (State.dropExch_runs ..)
    | with_reducible apply Runs.comp (State.exchLog_runs ..)
    | with_reducible apply Runs.comp (State.signalWord_runs ..)
    | with_reducible apply Runs.foldl
    | with_reducible apply Runs.foldl_fst
    | intro _
    | split)

theorem State.noRead_runs (x1 : Exch) (s : State) :
    RunsX [] s (State.noRead x1 s) := by
  unfold State.noRead
  repeat' (first
    | with_reducible apply RunsX.ite
    | with_reducible exact Runs.refl _
    | with_reducible assumption
    | exact Eq.refl true
    | exact fun h => h
    | dsimp only
    | with_reducible refine RunsX.mk ?_ ?_)

theorem execExchAdmit_runs (s : State) :
    RunsTo [.cores, .sched, .txe, .sync, .mem, .urn, .fab, .router, .host, .steps, .obj, .tele, .out, .free] s (execExchAdmit s) := by
  unfold execExchAdmit
  repeat' (first
    | with_reducible refine RunsTo.need ?_
    | with_reducible refine RunsTo.next ?_
    | with_reducible exact Runs.refl _
    | with_reducible assumption
    | exact Eq.refl true
    | exact fun h => h
    | dsimp only
    | with_reducible apply State.claimX_runs
    | with_reducible exact RunsX.mono (State.admitX_runs ..) rfl
    | with_reducible apply RunsX.comp (State.admitX_runs ..)
    | with_reducible exact RunsX.mono (State.admitRead_runs ..) rfl
    | with_reducible apply RunsX.comp (State.admitRead_runs ..)
    | with_reducible apply Runs.foldl
    | with_reducible apply Runs.foldl_fst
    | intro _)

theorem execDispatch_runs (s : State) :
    RunsTo [.sched, .txe, .sync, .mem, .urn, .fab, .router, .host, .steps, .obj, .tele, .out, .free] s (execDispatch s) := by
  unfold execDispatch
  repeat' (first
    | with_reducible refine RunsTo.need ?_
    | with_reducible refine RunsTo.next ?_
    | with_reducible exact Runs.refl _
    | with_reducible assumption
    | exact Eq.refl true
    | exact fun h => h
    | dsimp only
    | with_reducible apply State.claimX_runs
    | with_reducible exact RunsX.mono (State.dispatchRun_runs ..) rfl
    | with_reducible apply RunsX.comp (State.dispatchRun_runs ..)
    | with_reducible exact RunsX.mono (State.noRead_runs ..) rfl
    | with_reducible apply RunsX.comp (State.noRead_runs ..)
    | with_reducible apply Runs.foldl
    | with_reducible apply Runs.foldl_fst
    | intro _)

theorem execExchReturn_runs (s : State) :
    RunsTo [.sched, .txe, .sync, .mem, .urn, .fab, .router, .host, .steps, .obj, .tele, .out, .free] s (execExchReturn s) := by
  unfold execExchReturn
  repeat' (first
    | with_reducible refine RunsTo.need ?_
    | with_reducible refine RunsTo.next ?_
    | with_reducible exact Runs.refl _
    | with_reducible assumption
    | exact Eq.refl true
    | exact fun h => h
    | dsimp only
    | with_reducible apply State.claimX_runs
    | with_reducible exact RunsX.mono (State.returnRun_runs ..) rfl
    | with_reducible apply RunsX.comp (State.returnRun_runs ..)
    | with_reducible exact RunsX.mono (State.noRead_runs ..) rfl
    | with_reducible apply RunsX.comp (State.noRead_runs ..)
    | with_reducible apply Runs.foldl
    | with_reducible apply Runs.foldl_fst
    | intro _)

theorem execCombine_runs (s : State) :
    RunsTo [.cores, .sched, .txe, .sync, .mem, .urn, .fab, .router, .host, .steps, .obj, .tele, .out, .free] s (execCombine s) := by
  unfold execCombine
  repeat' (first
    | with_reducible refine RunsTo.need ?_
    | with_reducible refine RunsTo.next ?_
    | with_reducible exact Runs.refl _
    | with_reducible assumption
    | exact Eq.refl true
    | exact fun h => h
    | dsimp only
    | with_reducible apply State.claimX_runs
    | with_reducible exact RunsX.mono (State.combineRun_runs ..) rfl
    | with_reducible apply RunsX.comp (State.combineRun_runs ..)
    | with_reducible exact RunsX.mono (State.noRead_runs ..) rfl
    | with_reducible apply RunsX.comp (State.noRead_runs ..)
    | with_reducible apply Runs.foldl
    | with_reducible apply Runs.foldl_fst
    | intro _)

theorem execOpenBwd_runs (s : State) :
    RunsTo [.cores, .sched, .txe, .sync, .mem, .urn, .fab, .router, .host, .steps, .obj, .tele, .out, .free] s (execOpenBwd s) := by
  unfold execOpenBwd
  repeat' (first
    | with_reducible refine RunsTo.need ?_
    | with_reducible refine RunsTo.next ?_
    | with_reducible exact Runs.refl _
    | with_reducible assumption
    | exact Eq.refl true
    | exact fun h => h
    | dsimp only
    | with_reducible apply State.claimX_runs
    | with_reducible exact RunsX.mono (State.openBwd_runs ..) rfl
    | with_reducible apply RunsX.comp (State.openBwd_runs ..)
    | with_reducible exact RunsX.mono (State.openBwdRead_runs ..) rfl
    | with_reducible apply RunsX.comp (State.openBwdRead_runs ..)
    | with_reducible apply Runs.foldl
    | with_reducible apply Runs.foldl_fst
    | intro _)

theorem execExchCount_runs (p : Packet) (s : State) :
    RunsTo [.cores, .txe, .sync, .mem, .urn, .fab, .router, .host, .steps, .obj, .out] s (execExchCount p s) := by
  unfold execExchCount
  repeat' (first
    | with_reducible refine RunsTo.need ?_
    | with_reducible refine RunsTo.next ?_
    | with_reducible exact Runs.refl _
    | with_reducible assumption
    | exact Eq.refl true
    | exact fun h => h
    | dsimp only
    | with_reducible apply powered_runs
    | with_reducible apply Runs.comp (State.exchCount_runs ..))

theorem execExchGrant_runs (p : Packet) (s : State) :
    RunsTo [.cores, .txe, .sync, .mem, .urn, .fab, .router, .host, .steps, .obj, .out] s (execExchGrant p s) := by
  unfold execExchGrant
  repeat' (first
    | with_reducible refine RunsTo.need ?_
    | with_reducible refine RunsTo.next ?_
    | with_reducible exact Runs.refl _
    | with_reducible assumption
    | exact Eq.refl true
    | exact fun h => h
    | dsimp only
    | with_reducible apply powered_runs
    | with_reducible apply Runs.comp (State.exchGrant_runs ..))

theorem execExchAllot_runs (p : Packet) (s : State) :
    RunsTo [.cores, .txe, .sync, .mem, .urn, .fab, .router, .host, .steps, .obj, .out] s (execExchAllot p s) := by
  unfold execExchAllot
  repeat' (first
    | with_reducible refine RunsTo.need ?_
    | with_reducible refine RunsTo.next ?_
    | with_reducible exact Runs.refl _
    | with_reducible assumption
    | exact Eq.refl true
    | exact fun h => h
    | dsimp only
    | with_reducible apply powered_runs
    | with_reducible apply Runs.comp (State.exchAllot_runs ..))

theorem execExchRow_runs (p : Packet) (s : State) :
    RunsTo [.cores, .txe, .sync, .mem, .urn, .fab, .router, .host, .steps, .obj, .out] s (execExchRow p s) := by
  unfold execExchRow
  repeat' (first
    | with_reducible refine RunsTo.need ?_
    | with_reducible refine RunsTo.next ?_
    | with_reducible exact Runs.refl _
    | with_reducible assumption
    | exact Eq.refl true
    | exact fun h => h
    | dsimp only
    | with_reducible apply powered_runs
    | with_reducible apply Runs.comp (State.exchRow_runs ..))

theorem execExchReturnRow_runs (p : Packet) (s : State) :
    RunsTo [.cores, .txe, .sync, .mem, .urn, .fab, .router, .host, .steps, .obj, .out] s (execExchReturnRow p s) := by
  unfold execExchReturnRow
  repeat' (first
    | with_reducible refine RunsTo.need ?_
    | with_reducible refine RunsTo.next ?_
    | with_reducible exact Runs.refl _
    | with_reducible assumption
    | exact Eq.refl true
    | exact fun h => h
    | dsimp only
    | with_reducible apply powered_runs
    | with_reducible apply Runs.comp (State.exchReturnRow_runs ..))

theorem execExchDeadlineExpiry_runs (ctx : Nat) (id : Nat) (dir : Nat) (s : State) :
    RunsTo [.cores, .txe, .sync, .mem, .urn, .fab, .router, .host, .steps, .obj, .out] s (execExchDeadlineExpiry ctx id dir s) := by
  unfold execExchDeadlineExpiry
  repeat' (first
    | with_reducible refine RunsTo.need ?_
    | with_reducible refine RunsTo.next ?_
    | with_reducible exact Runs.refl _
    | with_reducible assumption
    | exact Eq.refl true
    | exact fun h => h
    | dsimp only
    | with_reducible apply Runs.comp (State.exchDeadline_runs ..))

end Sys2Proof.Machine
end

