-- ==== Sys2Proof/Laws/SyncCommandsRuns.lean ====
section
/-!
SUPPORT. What the operations of Machine/SyncCommands.lean may change, and that they keep the canonical form.
-/

namespace Sys2Proof.Machine

theorem State.doorbellErr_runs (s : State) (ctx : Nat) :
    Runs [.host] s (State.doorbellErr s ctx) := by
  unfold State.doorbellErr
  repeat' (first
    | with_reducible exact Runs.refl _
    | with_reducible assumption
    | exact Eq.refl true
    | exact fun h => h
    | dsimp only
    | with_reducible apply Runs.comp (State.modPage_runs ..))

theorem State.syncReply_runs (s : State) (ctx : Nat) (w : Nat) :
    Runs [.sync, .fab, .router, .host, .steps, .obj] s (State.syncReply s ctx w) := by
  unfold State.syncReply
  repeat' (first
    | with_reducible exact Runs.refl _
    | with_reducible assumption
    | exact Eq.refl true
    | exact fun h => h
    | dsimp only
    | with_reducible apply Runs.comp (syncCmd_runs ..)
    | refine Runs.of_pair (Runs.comp (syncCmd_runs ..) rfl ?_) (by assumption)
    | with_reducible apply Runs.comp (State.modPage_runs ..))

theorem State.urnReply_runs (s : State) (ctx : Nat) (w : Nat) :
    Runs [.urn, .host, .obj] s (State.urnReply s ctx w) := by
  unfold State.urnReply
  repeat' (first
    | with_reducible exact Runs.refl _
    | with_reducible assumption
    | exact Eq.refl true
    | exact fun h => h
    | dsimp only
    | with_reducible apply Runs.comp (State.setUrn_runs ..)
    | with_reducible apply Runs.comp (State.urnStop_runs ..)
    | with_reducible apply Runs.comp (urnCmd_runs ..)
    | refine Runs.of_pair (Runs.comp (urnCmd_runs ..) rfl ?_) (by assumption)
    | with_reducible apply Runs.comp (State.modPage_runs ..)
    | with_reducible apply Runs.foldl
    | with_reducible apply Runs.foldl_fst
    | intro _
    | split)

theorem State.pageAct_runs (s : State) (ctx : Nat) (off : Nat) (v : Nat) :
    Runs [.sync, .urn, .fab, .router, .host, .steps, .obj, .out] s (State.pageAct s ctx off v) := by
  unfold State.pageAct
  repeat' (first
    | with_reducible exact Runs.refl _
    | with_reducible assumption
    | exact Eq.refl true
    | exact fun h => h
    | dsimp only
    | with_reducible apply Runs.comp (State.setPage_runs ..)
    | with_reducible apply Runs.comp (State.intSend_runs ..)
    | with_reducible apply Runs.comp (State.doorbellErr_runs ..)
    | with_reducible apply Runs.comp (State.syncReply_runs ..)
    | with_reducible apply Runs.comp (State.urnReply_runs ..)
    | with_reducible apply Runs.foldl
    | with_reducible apply Runs.foldl_fst
    | intro _
    | split)

theorem State.pageWrite_runs (s : State) (ctx : Nat) (off : Nat) (v : Nat) :
    Runs [.sync, .urn, .fab, .router, .host, .steps, .obj, .out] s (State.pageWrite s ctx off v) := by
  unfold State.pageWrite
  repeat' (first
    | with_reducible exact Runs.refl _
    | with_reducible assumption
    | exact Eq.refl true
    | exact fun h => h
    | dsimp only
    | with_reducible apply Runs.comp (State.hostErr_runs ..)
    | with_reducible apply Runs.comp (State.modPage_runs ..)
    | with_reducible apply Runs.comp (State.pageAct_runs ..)
    | with_reducible apply Runs.foldl
    | with_reducible apply Runs.foldl_fst
    | intro _
    | split)

theorem State.pageSync_runs (s : State) (ctx : Nat) (w : Nat) :
    Runs [.sync, .urn, .fab, .router, .host, .steps, .obj, .out] s (State.pageSync s ctx w) := by
  unfold State.pageSync
  repeat' (first
    | with_reducible exact Runs.refl _
    | with_reducible assumption
    | exact Eq.refl true
    | exact fun h => h
    | dsimp only
    | with_reducible apply Runs.comp (State.pageWrite_runs ..))

theorem State.pageUrn_runs (s : State) (ctx : Nat) (w : Nat) :
    Runs [.sync, .urn, .fab, .router, .host, .steps, .obj, .out] s (State.pageUrn s ctx w) := by
  unfold State.pageUrn
  repeat' (first
    | with_reducible exact Runs.refl _
    | with_reducible assumption
    | exact Eq.refl true
    | exact fun h => h
    | dsimp only
    | with_reducible apply Runs.comp (State.pageWrite_runs ..))

theorem pageDrain_runs (ctx : Nat) (xs : List (Nat × Nat)) (s : State) : Runs [.sync, .urn, .fab, .router, .host, .steps, .obj, .out] s (pageDrain ctx xs s) := by
  induction xs generalizing s with
  | nil => exact Runs.refl s
  | cons x xs ih =>
    unfold pageDrain
    refine Runs.ite (fun _ => ?_) (fun _ => ?_)
    · exact (State.modPage_runs ..).mono rfl
    · exact Runs.trans ((State.pageAct_runs ..).mono rfl) (ih _)

theorem State.pageResume_runs (s : State) (ctx : Nat) :
    Runs [.sync, .urn, .fab, .router, .host, .steps, .obj, .out] s (State.pageResume s ctx) := by
  unfold State.pageResume
  repeat' (first
    | with_reducible exact Runs.refl _
    | with_reducible assumption
    | exact Eq.refl true
    | exact fun h => h
    | dsimp only
    | with_reducible apply Runs.comp (pageDrain_runs ..)
    | with_reducible apply Runs.comp (State.modPage_runs ..))

theorem State.urnRepair_runs (cls : Nat) (s : State) :
    Runs [.clk, .ft, .pins, .power, .kettle, .cores, .sched, .txe, .sync, .mem, .urn, .fab, .links, .router, .caddy, .host, .steps, .red, .obj, .flash, .ageing, .tele, .out, .free] s (State.urnRepair cls s) := by
  unfold State.urnRepair
  repeat' (first
    | with_reducible exact Runs.refl _
    | with_reducible assumption
    | exact Eq.refl true
    | exact fun h => h
    | dsimp only
    | with_reducible apply Runs.comp (State.urnFlag_runs ..)
    | with_reducible apply Runs.comp (State.urnRebuild_runs ..)
    | with_reducible apply Runs.comp (State.urnReply_runs ..)
    | with_reducible apply Runs.comp (State.setUrn_runs ..)
    | with_reducible apply Runs.comp (State.pageResume_runs ..)
    | with_reducible apply Runs.comp (State.urnRequestServe_runs ..)
    | with_reducible apply Runs.comp (State.allocResumes_runs ..)
    | with_reducible apply Runs.foldl
    | with_reducible apply Runs.foldl_fst
    | intro _
    | split)

theorem execUrnListRepairDone_runs (cls : Nat) (s : State) :
    RunsTo [.clk, .ft, .pins, .power, .kettle, .cores, .sched, .txe, .sync, .mem, .urn, .fab, .links, .router, .caddy, .host, .steps, .red, .obj, .flash, .ageing, .tele, .out, .free] s (execUrnListRepairDone cls s) := by
  unfold execUrnListRepairDone
  repeat' (first
    | with_reducible refine RunsTo.need ?_
    | with_reducible refine RunsTo.next ?_
    | with_reducible exact Runs.refl _
    | with_reducible assumption
    | exact Eq.refl true
    | exact fun h => h
    | dsimp only
    | with_reducible apply Runs.comp (State.urnRepair_runs ..))

theorem syncBy_runs (src : CmdSrc) (w : Word64) (s : State) :
    Runs [.clk, .ft, .pins, .power, .kettle, .cores, .sched, .txe, .sync, .mem, .urn, .fab, .links, .router, .caddy, .host, .steps, .red, .obj, .flash, .ageing, .tele, .out, .free] s (syncBy src w s) := by
  unfold syncBy
  repeat' (first
    | with_reducible exact Runs.refl _
    | with_reducible assumption
    | exact Eq.refl true
    | exact fun h => h
    | dsimp only
    | with_reducible apply Runs.comp (State.pageSync_runs ..)
    | with_reducible apply Runs.comp (State.request_runs ..)
    | with_reducible apply Runs.foldl
    | with_reducible apply Runs.foldl_fst
    | intro _
    | split)

theorem urnBy_runs (src : CmdSrc) (w : Word64) (s : State) :
    Runs [.clk, .ft, .pins, .power, .kettle, .cores, .sched, .txe, .sync, .mem, .urn, .fab, .links, .router, .caddy, .host, .steps, .red, .obj, .flash, .ageing, .tele, .out, .free] s (urnBy src w s) := by
  unfold urnBy
  repeat' (first
    | with_reducible exact Runs.refl _
    | with_reducible assumption
    | exact Eq.refl true
    | exact fun h => h
    | dsimp only
    | with_reducible apply Runs.comp (State.pageUrn_runs ..)
    | with_reducible apply Runs.comp (State.request_runs ..)
    | with_reducible apply Runs.foldl
    | with_reducible apply Runs.foldl_fst
    | intro _
    | split)

theorem execSignal_runs (src : CmdSrc) (w : Word64) (s : State) :
    RunsTo [.clk, .ft, .pins, .power, .kettle, .cores, .sched, .txe, .sync, .mem, .urn, .fab, .links, .router, .caddy, .host, .steps, .red, .obj, .flash, .ageing, .tele, .out, .free] s (execSignal src w s) := by
  unfold execSignal
  repeat' (first
    | with_reducible refine RunsTo.need ?_
    | with_reducible refine RunsTo.next ?_
    | with_reducible exact Runs.refl _
    | with_reducible assumption
    | exact Eq.refl true
    | exact fun h => h
    | exact when_runs (fun t => syncBy_runs src w t) _ _)

theorem execTakeNb_runs (src : CmdSrc) (w : Word64) (s : State) :
    RunsTo [.clk, .ft, .pins, .power, .kettle, .cores, .sched, .txe, .sync, .mem, .urn, .fab, .links, .router, .caddy, .host, .steps, .red, .obj, .flash, .ageing, .tele, .out, .free] s (execTakeNb src w s) := by
  unfold execTakeNb
  repeat' (first
    | with_reducible refine RunsTo.need ?_
    | with_reducible refine RunsTo.next ?_
    | with_reducible exact Runs.refl _
    | with_reducible assumption
    | exact Eq.refl true
    | exact fun h => h
    | exact when_runs (fun t => syncBy_runs src w t) _ _)

theorem execSyncRead_runs (src : CmdSrc) (w : Word64) (s : State) :
    RunsTo [.clk, .ft, .pins, .power, .kettle, .cores, .sched, .txe, .sync, .mem, .urn, .fab, .links, .router, .caddy, .host, .steps, .red, .obj, .flash, .ageing, .tele, .out, .free] s (execSyncRead src w s) := by
  unfold execSyncRead
  repeat' (first
    | with_reducible refine RunsTo.need ?_
    | with_reducible refine RunsTo.next ?_
    | with_reducible exact Runs.refl _
    | with_reducible assumption
    | exact Eq.refl true
    | exact fun h => h
    | exact when_runs (fun t => syncBy_runs src w t) _ _)

theorem execSet_runs (src : CmdSrc) (w : Word64) (s : State) :
    RunsTo [.clk, .ft, .pins, .power, .kettle, .cores, .sched, .txe, .sync, .mem, .urn, .fab, .links, .router, .caddy, .host, .steps, .red, .obj, .flash, .ageing, .tele, .out, .free] s (execSet src w s) := by
  unfold execSet
  repeat' (first
    | with_reducible refine RunsTo.need ?_
    | with_reducible refine RunsTo.next ?_
    | with_reducible exact Runs.refl _
    | with_reducible assumption
    | exact Eq.refl true
    | exact fun h => h
    | exact when_runs (fun t => syncBy_runs src w t) _ _)

theorem execArrive_runs (src : CmdSrc) (w : Word64) (s : State) :
    RunsTo [.clk, .ft, .pins, .power, .kettle, .cores, .sched, .txe, .sync, .mem, .urn, .fab, .links, .router, .caddy, .host, .steps, .red, .obj, .flash, .ageing, .tele, .out, .free] s (execArrive src w s) := by
  unfold execArrive
  repeat' (first
    | with_reducible refine RunsTo.need ?_
    | with_reducible refine RunsTo.next ?_
    | with_reducible exact Runs.refl _
    | with_reducible assumption
    | exact Eq.refl true
    | exact fun h => h
    | exact when_runs (fun t => syncBy_runs src w t) _ _)

theorem execBarrierInit_runs (src : CmdSrc) (w : Word64) (s : State) :
    RunsTo [.clk, .ft, .pins, .power, .kettle, .cores, .sched, .txe, .sync, .mem, .urn, .fab, .links, .router, .caddy, .host, .steps, .red, .obj, .flash, .ageing, .tele, .out, .free] s (execBarrierInit src w s) := by
  unfold execBarrierInit
  repeat' (first
    | with_reducible refine RunsTo.need ?_
    | with_reducible refine RunsTo.next ?_
    | with_reducible exact Runs.refl _
    | with_reducible assumption
    | exact Eq.refl true
    | exact fun h => h
    | exact when_runs (fun t => syncBy_runs src w t) _ _)

theorem execAlloc_runs (src : CmdSrc) (w : Word64) (s : State) :
    RunsTo [.clk, .ft, .pins, .power, .kettle, .cores, .sched, .txe, .sync, .mem, .urn, .fab, .links, .router, .caddy, .host, .steps, .red, .obj, .flash, .ageing, .tele, .out, .free] s (execAlloc src w s) := by
  unfold execAlloc
  repeat' (first
    | with_reducible refine RunsTo.need ?_
    | with_reducible refine RunsTo.next ?_
    | with_reducible exact Runs.refl _
    | with_reducible assumption
    | exact Eq.refl true
    | exact fun h => h
    | exact when_runs (fun t => urnBy_runs src w t) _ _)

theorem execFree_runs (src : CmdSrc) (w : Word64) (s : State) :
    RunsTo [.clk, .ft, .pins, .power, .kettle, .cores, .sched, .txe, .sync, .mem, .urn, .fab, .links, .router, .caddy, .host, .steps, .red, .obj, .flash, .ageing, .tele, .out, .free] s (execFree src w s) := by
  unfold execFree
  repeat' (first
    | with_reducible refine RunsTo.need ?_
    | with_reducible refine RunsTo.next ?_
    | with_reducible exact Runs.refl _
    | with_reducible assumption
    | exact Eq.refl true
    | exact fun h => h
    | exact when_runs (fun t => urnBy_runs src w t) _ _)

theorem execQuery_runs (src : CmdSrc) (w : Word64) (s : State) :
    RunsTo [.clk, .ft, .pins, .power, .kettle, .cores, .sched, .txe, .sync, .mem, .urn, .fab, .links, .router, .caddy, .host, .steps, .red, .obj, .flash, .ageing, .tele, .out, .free] s (execQuery src w s) := by
  unfold execQuery
  repeat' (first
    | with_reducible refine RunsTo.need ?_
    | with_reducible refine RunsTo.next ?_
    | with_reducible exact Runs.refl _
    | with_reducible assumption
    | exact Eq.refl true
    | exact fun h => h
    | exact when_runs (fun t => urnBy_runs src w t) _ _)

end Sys2Proof.Machine
end

