-- ==== Sys2Proof/Laws/HostRuns.lean ====
section
/-!
SUPPORT. What the operations of Machine/Host.lean may change, and that they keep the canonical form.
-/

namespace Sys2Proof.Machine

theorem writeRegs_runs {L : List Part} {rs : List HostReg} (h : ∀ r ∈ rs, ∀ v t, Runs L t (r.act v t)) (base off : Nat)
    (b : List Byte) (s : State) : Runs L s (writeRegs base off b rs s) := by
  unfold writeRegs
  induction rs generalizing s with
  | nil => exact Runs.refl s
  | cons r rs ih =>
    refine Runs.trans ?_ (ih (fun x hx => h x (List.mem_cons_of_mem _ hx)) _)
    dsimp only
    refine Runs.ite (fun _ => h r List.mem_cons_self _ _) (fun _ => ?_)
    split
    · exact Runs.ite (fun _ => h r List.mem_cons_self _ _) (fun _ => Runs.refl s)
    · exact Runs.refl s

theorem State.sqTailWrite_runs (ctx : Nat) (v : Nat) (s : State) :
    Runs [.sync, .urn, .fab, .router, .host, .steps, .obj, .out] s (State.sqTailWrite ctx v s) := by
  unfold State.sqTailWrite
  repeat' (first
    | with_reducible exact Runs.refl _
    | with_reducible assumption
    | exact Eq.refl true
    | exact fun h => h
    | dsimp only
    | with_reducible apply Runs.comp (State.pageWrite_runs ..))

theorem State.cplHeadWrite_runs (ctx : Nat) (v : Nat) (s : State) :
    Runs [.sync, .urn, .fab, .router, .host, .steps, .obj, .out] s (State.cplHeadWrite ctx v s) := by
  unfold State.cplHeadWrite
  repeat' (first
    | with_reducible exact Runs.refl _
    | with_reducible assumption
    | exact Eq.refl true
    | exact fun h => h
    | dsimp only
    | with_reducible apply Runs.comp (State.pageWrite_runs ..))

theorem State.intClear_runs (ctx : Nat) (v : Nat) (s : State) :
    Runs [.sync, .urn, .fab, .router, .host, .steps, .obj, .out] s (State.intClear ctx v s) := by
  unfold State.intClear
  repeat' (first
    | with_reducible exact Runs.refl _
    | with_reducible assumption
    | exact Eq.refl true
    | exact fun h => h
    | dsimp only
    | with_reducible apply Runs.comp (State.pageWrite_runs ..))

theorem State.maskWrite_runs (ctx : Nat) (v : Nat) (s : State) :
    Runs [.sync, .urn, .fab, .router, .host, .steps, .obj, .out] s (State.maskWrite ctx v s) := by
  unfold State.maskWrite
  repeat' (first
    | with_reducible exact Runs.refl _
    | with_reducible assumption
    | exact Eq.refl true
    | exact fun h => h
    | dsimp only
    | with_reducible apply Runs.comp (State.pageWrite_runs ..))

theorem State.pageFlagClear_runs (ctx : Nat) (v : Nat) (s : State) :
    Runs [.sync, .urn, .fab, .router, .host, .steps, .obj, .out] s (State.pageFlagClear ctx v s) := by
  unfold State.pageFlagClear
  repeat' (first
    | with_reducible exact Runs.refl _
    | with_reducible assumption
    | exact Eq.refl true
    | exact fun h => h
    | dsimp only
    | with_reducible apply Runs.comp (State.pageWrite_runs ..))

theorem State.sqError_runs (s : State) (ctx : Nat) :
    Runs [.host, .out] s (State.sqError s ctx) := by
  unfold State.sqError
  repeat' (first
    | with_reducible exact Runs.refl _
    | with_reducible assumption
    | exact Eq.refl true
    | exact fun h => h
    | dsimp only
    | with_reducible apply Runs.comp (State.interrupt_runs ..)
    | with_reducible apply Runs.comp (State.modPage_runs ..))

theorem State.sqOffer_runs (s : State) (ctx : Nat) (d : WorkDesc) :
    Runs [.sched, .host, .obj, .out] s (State.sqOffer s ctx d) := by
  unfold State.sqOffer
  repeat' (first
    | with_reducible exact Runs.refl _
    | with_reducible assumption
    | exact Eq.refl true
    | exact fun h => h
    | dsimp only
    | refine Runs.comp (State.post_runs (by assumption)) rfl ?_
    | with_reducible apply Runs.comp (State.modPage_runs ..)
    | with_reducible apply Runs.comp (State.interrupt_runs ..)
    | with_reducible apply Runs.comp (State.bump_runs ..)
    | with_reducible apply Runs.foldl
    | with_reducible apply Runs.foldl_fst
    | intro _
    | split)

theorem State.sqTake_runs (ctx : Nat) (readOk : Bool) (host : List Byte) (s : State) :
    Runs [.sched, .host, .obj, .out] s (State.sqTake ctx readOk host s) := by
  unfold State.sqTake
  repeat' (first
    | with_reducible exact Runs.refl _
    | with_reducible assumption
    | exact Eq.refl true
    | exact fun h => h
    | dsimp only
    | with_reducible apply Runs.comp (State.setOut_runs ..)
    | with_reducible apply Runs.comp (State.sqError_runs ..)
    | with_reducible apply Runs.comp (State.sqOffer_runs ..)
    | with_reducible apply Runs.foldl
    | with_reducible apply Runs.foldl_fst
    | intro _
    | split)

theorem State.sqRetry_runs (ctx : Nat) (s : State) :
    Runs [.sched, .host, .obj, .out] s (State.sqRetry ctx s) := by
  unfold State.sqRetry
  repeat' (first
    | with_reducible exact Runs.refl _
    | with_reducible assumption
    | exact Eq.refl true
    | exact fun h => h
    | dsimp only
    | with_reducible apply Runs.comp (State.sqOffer_runs ..)
    | with_reducible apply Runs.foldl
    | with_reducible apply Runs.foldl_fst
    | intro _
    | split)

theorem State.bar2Write_runs (v : Nat) (s : State) :
    Runs [.host] s (State.bar2Write v s) := by
  unfold State.bar2Write
  repeat' (first
    | with_reducible exact Runs.refl _
    | with_reducible assumption
    | exact Eq.refl true
    | exact fun h => h
    | dsimp only
    | with_reducible apply Runs.comp (State.setHost_runs ..))

theorem State.setVfWin_runs (s : State) (n w : Nat) :
    Runs [.host] s (s.setHost { s.host with vfWin := tset 0 s.host.vfWin n w }) := State.setHost_runs s _ (fun h => h)

theorem State.vfWinWrite_runs (n v : Nat) (s : State) : Runs [.host] s (State.vfWinWrite n v s) := by
  unfold State.vfWinWrite
  exact State.setVfWin_runs s n _

theorem State.mbxClear_runs (m : Nat) (v : Nat) (s : State) :
    Runs [.host] s (State.mbxClear m v s) := by
  unfold State.mbxClear
  repeat' (first
    | with_reducible exact Runs.refl _
    | with_reducible assumption
    | exact Eq.refl true
    | exact fun h => h
    | dsimp only
    | with_reducible apply Runs.comp (State.setMailbox_runs ..))

theorem State.errClear_runs (v : Nat) (s : State) :
    Runs [.host] s (State.errClear v s) := by
  unfold State.errClear
  repeat' (first
    | with_reducible exact Runs.refl _
    | with_reducible assumption
    | exact Eq.refl true
    | exact fun h => h
    | dsimp only
    | with_reducible apply Runs.comp (State.setHost_runs ..))

theorem State.mbxStore_runs (m : Nat) (off : Nat) (b : List Byte) (s : State) :
    Runs [.host] s (State.mbxStore m off b s) := by
  unfold State.mbxStore
  repeat' (first
    | with_reducible exact Runs.refl _
    | with_reducible assumption
    | exact Eq.refl true
    | exact fun h => h
    | dsimp only
    | with_reducible apply Runs.comp (State.setMailbox_runs ..)
    | with_reducible apply Runs.foldl
    | with_reducible apply Runs.foldl_fst
    | intro _
    | split)

theorem State.pageAreaWrite_runs (c off : Nat) (b : List Byte) (s : State) :
    Runs [.sync, .urn, .fab, .router, .host, .steps, .obj, .out] s (State.pageAreaWrite c off b s) := by
  unfold State.pageAreaWrite
  split
  · exact (State.hostErr_runs ..).mono rfl
  · refine writeRegs_runs (fun r hr v t => ?_) _ _ _ _
    simp only [pageRegs, List.mem_cons, List.not_mem_nil, or_false] at hr
    rcases hr with rfl | rfl | rfl | rfl | rfl | rfl | rfl
    · exact (State.sqTailWrite_runs ..).mono rfl
    · exact (State.cplHeadWrite_runs ..).mono rfl
    · exact (State.intClear_runs ..).mono rfl
    · exact (State.maskWrite_runs ..).mono rfl
    · exact (State.pageFlagClear_runs ..).mono rfl
    · exact (State.pageSync_runs ..).mono rfl
    · exact (State.pageUrn_runs ..).mono rfl

theorem State.windowWrite_runs (off : Nat) (s : State) :
    Runs [.host, .out] s (State.windowWrite off s) := by
  unfold State.windowWrite
  repeat' (first
    | with_reducible exact Runs.refl _
    | with_reducible assumption
    | exact Eq.refl true
    | exact fun h => h
    | dsimp only
    | with_reducible apply Runs.comp (State.hostErr_runs ..)
    | with_reducible apply Runs.foldl
    | with_reducible apply Runs.foldl_fst
    | intro _
    | split)

theorem State.regWrite_runs (s : State) (off : Nat) (b : List Byte) : Runs [.clk, .ft, .pins, .power, .kettle, .cores, .sched, .txe, .sync, .mem, .urn, .fab, .links, .router, .caddy, .host, .steps, .red, .obj, .flash, .ageing, .tele, .out, .free] s (s.regWrite off b) := by
  unfold State.regWrite
  split
  · exact Runs.refl s
  · split
    · refine writeRegs_runs (fun r hr v t => ?_) _ _ _ _
      simp only [controlRegs, List.mem_append, List.mem_map, List.mem_flatMap, List.mem_cons, List.not_mem_nil,
        or_false] at hr
      obtain ((rfl | ⟨n, -, rfl⟩) | ⟨m, -, rfl | rfl⟩) | rfl := hr
      · exact (State.bar2Write_runs ..).mono rfl
      · exact (State.vfWinWrite_runs ..).mono rfl
      · exact (State.doorbell_runs ..).mono rfl
      · exact (State.mbxClear_runs ..).mono rfl
      · exact (State.errClear_runs ..).mono rfl
    · split
      · exact Runs.comp (State.mbxStore_runs ..) rfl ((State.mbxStore_runs ..).mono rfl)
      · split
        · exact (State.pageAreaWrite_runs ..).mono rfl
        · split
          · exact (State.windowWrite_runs ..).mono rfl
          · exact Runs.refl s

theorem State.winCheck_runs (s : State) (w : HostWin) (off : Nat) (n : Nat) :
    Runs [.host, .out] s (State.winCheck s w off n) := by
  unfold State.winCheck
  repeat' (first
    | with_reducible exact Runs.refl _
    | with_reducible assumption
    | exact Eq.refl true
    | exact fun h => h
    | dsimp only
    | with_reducible apply Runs.comp (State.hostErr_runs ..)
    | with_reducible apply Runs.foldl
    | with_reducible apply Runs.foldl_fst
    | intro _
    | split)

theorem State.winErr_runs (s : State) (w : HostWin) (off : Nat) (n : Nat) (errs : MemErrs) :
    Runs [.mem, .host, .obj, .out] s (State.winErr s w off n errs) := by
  unfold State.winErr
  repeat' (first
    | with_reducible exact Runs.refl _
    | with_reducible assumption
    | exact Eq.refl true
    | exact fun h => h
    | dsimp only
    | with_reducible apply Runs.comp (State.memErr_runs ..)
    | with_reducible apply Runs.foldl
    | with_reducible apply Runs.foldl_fst
    | intro _)

theorem State.hostRead_runs (w : HostWin) (off : Nat) (n : Nat) (err : MemErrs) (s : State) :
    Runs [.mem, .host, .obj, .out] s (State.hostRead w off n err s) := by
  unfold State.hostRead
  repeat' (first
    | with_reducible exact Runs.refl _
    | with_reducible assumption
    | exact Eq.refl true
    | exact fun h => h
    | dsimp only
    | with_reducible apply Runs.comp (State.winErr_runs ..)
    | with_reducible apply Runs.comp (State.winCheck_runs ..)
    | with_reducible apply Runs.comp (State.setHost_runs ..)
    | with_reducible apply Runs.foldl
    | with_reducible apply Runs.foldl_fst
    | intro _
    | split)

theorem State.winStore_runs (s : State) (w : HostWin) (off : Nat) (b : List Byte) :
    Runs [.mem] s (State.winStore s w off b) := by
  unfold State.winStore
  repeat' (first
    | with_reducible exact Runs.refl _
    | with_reducible assumption
    | exact Eq.refl true
    | exact fun h => h
    | dsimp only
    | with_reducible apply Runs.comp (State.storeDev_runs ..)
    | with_reducible apply Runs.foldl
    | with_reducible apply Runs.foldl_fst
    | intro _
    | split)

theorem State.hostWrite_runs (w : HostWin) (off : Nat) (b : List Byte) (err : MemErrs) (s : State) :
    Runs [.mem, .host, .obj, .out] s (State.hostWrite w off b err s) := by
  unfold State.hostWrite
  repeat' (first
    | with_reducible exact Runs.refl _
    | with_reducible assumption
    | exact Eq.refl true
    | exact fun h => h
    | dsimp only
    | with_reducible apply Runs.comp (State.winErr_runs ..)
    | with_reducible apply Runs.comp (State.winCheck_runs ..)
    | with_reducible apply Runs.comp (State.winStore_runs ..)
    | with_reducible apply Runs.foldl
    | with_reducible apply Runs.foldl_fst
    | intro _
    | split)

theorem execSqTailWrite_runs (ctx : Nat) (v : Nat) (s : State) :
    RunsTo [.sync, .urn, .fab, .router, .host, .steps, .obj, .out] s (execSqTailWrite ctx v s) := by
  unfold execSqTailWrite
  repeat' (first
    | with_reducible refine RunsTo.need ?_
    | with_reducible refine RunsTo.next ?_
    | with_reducible exact Runs.refl _
    | with_reducible assumption
    | exact Eq.refl true
    | exact fun h => h
    | dsimp only
    | with_reducible apply Runs.comp (State.sqTailWrite_runs ..))

theorem execSqEntryTake_runs (ctx : Nat) (readOk : Bool) (host : List Byte) (s : State) :
    RunsTo [.sched, .host, .obj, .out] s (execSqEntryTake ctx readOk host s) := by
  unfold execSqEntryTake
  repeat' (first
    | with_reducible refine RunsTo.need ?_
    | with_reducible refine RunsTo.next ?_
    | with_reducible exact Runs.refl _
    | with_reducible assumption
    | exact Eq.refl true
    | exact fun h => h
    | dsimp only
    | with_reducible apply Runs.comp (State.sqTake_runs ..))

theorem execSqListFullRetry_runs (ctx : Nat) (s : State) :
    RunsTo [.sched, .host, .obj, .out] s (execSqListFullRetry ctx s) := by
  unfold execSqListFullRetry
  repeat' (first
    | with_reducible refine RunsTo.need ?_
    | with_reducible refine RunsTo.next ?_
    | with_reducible exact Runs.refl _
    | with_reducible assumption
    | exact Eq.refl true
    | exact fun h => h
    | dsimp only
    | with_reducible apply Runs.comp (State.sqRetry_runs ..))

theorem execIntStatusClear_runs (ctx : Nat) (v : Nat) (s : State) :
    RunsTo [.sync, .urn, .fab, .router, .host, .steps, .obj, .out] s (execIntStatusClear ctx v s) := by
  unfold execIntStatusClear
  repeat' (first
    | with_reducible refine RunsTo.need ?_
    | with_reducible refine RunsTo.next ?_
    | with_reducible exact Runs.refl _
    | with_reducible assumption
    | exact Eq.refl true
    | exact fun h => h
    | dsimp only
    | with_reducible apply Runs.comp (State.intClear_runs ..))

theorem execIntMaskWrite_runs (ctx : Nat) (v : Nat) (s : State) :
    RunsTo [.sync, .urn, .fab, .router, .host, .steps, .obj, .out] s (execIntMaskWrite ctx v s) := by
  unfold execIntMaskWrite
  repeat' (first
    | with_reducible refine RunsTo.need ?_
    | with_reducible refine RunsTo.next ?_
    | with_reducible exact Runs.refl _
    | with_reducible assumption
    | exact Eq.refl true
    | exact fun h => h
    | dsimp only
    | with_reducible apply Runs.comp (State.maskWrite_runs ..))

theorem execHostRegisterWrite_runs (off : Nat) (bytes : List Byte) (s : State) :
    RunsTo [.clk, .ft, .pins, .power, .kettle, .cores, .sched, .txe, .sync, .mem, .urn, .fab, .links, .router, .caddy, .host, .steps, .red, .obj, .flash, .ageing, .tele, .out, .free] s (execHostRegisterWrite off bytes s) := by
  unfold execHostRegisterWrite
  repeat' (first
    | with_reducible refine RunsTo.need ?_
    | with_reducible refine RunsTo.next ?_
    | with_reducible exact Runs.refl _
    | with_reducible assumption
    | exact Eq.refl true
    | exact fun h => h
    | dsimp only
    | with_reducible apply Runs.comp (State.regWrite_runs ..))

theorem execHostMemoryRead_runs (win : HostWin) (off : Nat) (n : Nat) (err : MemErrs) (s : State) :
    RunsTo [.mem, .host, .obj, .out] s (execHostMemoryRead win off n err s) := by
  unfold execHostMemoryRead
  repeat' (first
    | with_reducible refine RunsTo.need ?_
    | with_reducible refine RunsTo.next ?_
    | with_reducible exact Runs.refl _
    | with_reducible assumption
    | exact Eq.refl true
    | exact fun h => h
    | dsimp only
    | with_reducible apply Runs.comp (State.hostRead_runs ..))

theorem execHostMemoryWrite_runs (win : HostWin) (off : Nat) (bytes : List Byte) (err : MemErrs) (s : State) :
    RunsTo [.mem, .host, .obj, .out] s (execHostMemoryWrite win off bytes err s) := by
  unfold execHostMemoryWrite
  repeat' (first
    | with_reducible refine RunsTo.need ?_
    | with_reducible refine RunsTo.next ?_
    | with_reducible exact Runs.refl _
    | with_reducible assumption
    | exact Eq.refl true
    | exact fun h => h
    | dsimp only
    | with_reducible apply Runs.comp (State.hostWrite_runs ..))

theorem execObjectWindowWrite_runs (off : Nat) (bytes : List Byte) (s : State) :
    RunsTo [.host, .out] s (execObjectWindowWrite off bytes s) := by
  unfold execObjectWindowWrite
  repeat' (first
    | with_reducible refine RunsTo.need ?_
    | with_reducible refine RunsTo.next ?_
    | with_reducible exact Runs.refl _
    | with_reducible assumption
    | exact Eq.refl true
    | exact fun h => h
    | dsimp only
    | with_reducible apply Runs.comp (State.windowWrite_runs ..)
    | with_reducible apply Runs.foldl
    | with_reducible apply Runs.foldl_fst
    | intro _
    | split)

end Sys2Proof.Machine
end

