-- ==== Sys2Proof/Laws/RedCommandsRuns.lean ====
section
/-!
SUPPORT. What the operations of Machine/RedCommands.lean may change, and that they keep the canonical form.
-/

namespace Sys2Proof.Machine

theorem State.redTaken_runs (s : State) (p : Packet) :
    Runs [.links, .router] s (State.redTaken s p) := by
  unfold State.redTaken
  repeat' (first
    | with_reducible exact Runs.refl _
    | with_reducible assumption
    | exact Eq.refl true
    | exact fun h => h
    | dsimp only
    | with_reducible apply Runs.comp (State.taken_runs ..)
    | with_reducible apply Runs.comp (State.modLink_runs ..)
    | with_reducible apply Runs.foldl
    | with_reducible apply Runs.foldl_fst
    | intro _
    | split)

theorem State.redReceive_runs (p : Packet) (s : State) :
    Runs [.kettle, .cores, .sync, .mem, .urn, .fab, .links, .router, .steps, .red, .obj] s (State.redReceive p s) := by
  unfold State.redReceive
  repeat' (first
    | with_reducible exact Runs.refl _
    | with_reducible assumption
    | exact Eq.refl true
    | exact fun h => h
    | (refine Runs.comp (State.redTreat_runs (by assumption)) rfl ?_)
    | dsimp only
    | refine Runs.comp (State.redTreat_runs (by assumption)) rfl ?_
    | with_reducible apply Runs.comp (State.modRedc_runs ..)
    | with_reducible apply Runs.comp (State.redTaken_runs ..)
    | with_reducible apply Runs.comp (State.paceIn_runs ..)
    | with_reducible apply Runs.foldl
    | with_reducible apply Runs.foldl_fst
    | intro _
    | split)

theorem execEmit_runs (core : Nat) (s : State) :
    RunsTo [.cores, .sched, .sync, .mem, .urn, .fab, .router, .host, .steps, .red, .obj, .tele, .out, .free] s (execEmit core s) := by
  unfold execEmit
  repeat' (first
    | with_reducible refine RunsTo.need ?_
    | with_reducible refine RunsTo.next ?_
    | with_reducible exact Runs.refl _
    | with_reducible assumption
    | exact Eq.refl true
    | exact fun h => h
    | dsimp only
    | with_reducible apply State.claim_runs
    | with_reducible apply Runs.comp (State.acceptEmit_runs ..)
    | with_reducible apply Runs.foldl
    | with_reducible apply Runs.foldl_fst
    | intro _)

theorem execEmitChunkHandoff_runs (s : State) :
    RunsTo [.cores, .sync, .mem, .urn, .fab, .router, .steps, .red, .obj] s (execEmitChunkHandoff s) := by
  unfold execEmitChunkHandoff
  repeat' (first
    | with_reducible refine RunsTo.need ?_
    | with_reducible refine RunsTo.next ?_
    | with_reducible exact Runs.refl _
    | with_reducible assumption
    | exact Eq.refl true
    | exact fun h => h
    | dsimp only
    | with_reducible apply Runs.comp (State.handoff_runs ..))

theorem execRedChunkReceive_runs (p : Packet) (s : State) :
    RunsTo [.kettle, .cores, .sync, .mem, .urn, .fab, .links, .router, .steps, .red, .obj] s (execRedChunkReceive p s) := by
  unfold execRedChunkReceive
  repeat' (first
    | with_reducible refine RunsTo.need ?_
    | with_reducible refine RunsTo.next ?_
    | with_reducible exact Runs.refl _
    | with_reducible assumption
    | exact Eq.refl true
    | exact fun h => h
    | dsimp only
    | with_reducible apply powered_runs
    | with_reducible apply Runs.comp (State.redReceive_runs ..))

theorem execReduceDeadlineExpiry_runs (ctx : Nat) (group : Nat) (tag : Nat) (s : State) :
    RunsTo [.cores, .sync, .urn, .fab, .router, .steps, .red, .obj] s (execReduceDeadlineExpiry ctx group tag s) := by
  unfold execReduceDeadlineExpiry
  repeat' (first
    | with_reducible refine RunsTo.need ?_
    | with_reducible refine RunsTo.next ?_
    | with_reducible exact Runs.refl _
    | with_reducible assumption
    | exact Eq.refl true
    | exact fun h => h
    | dsimp only
    | with_reducible apply Runs.comp (State.redDeadline_runs ..))

theorem execPermuteDrainRound_runs (ctx : Nat) (s : State) :
    RunsTo [.router, .red] s (execPermuteDrainRound ctx s) := by
  unfold execPermuteDrainRound
  repeat' (first
    | with_reducible refine RunsTo.need ?_
    | with_reducible refine RunsTo.next ?_
    | with_reducible exact Runs.refl _
    | with_reducible assumption
    | exact Eq.refl true
    | exact fun h => h
    | dsimp only
    | with_reducible apply Runs.comp (State.permRound_runs ..))

theorem execCountReq_runs (p : Packet) (s : State) :
    RunsTo [.router, .red] s (execCountReq p s) := by
  unfold execCountReq
  repeat' (first
    | with_reducible refine RunsTo.need ?_
    | with_reducible refine RunsTo.next ?_
    | with_reducible exact Runs.refl _
    | with_reducible assumption
    | exact Eq.refl true
    | exact fun h => h
    | dsimp only
    | with_reducible apply powered_runs
    | with_reducible apply State.permMsg_runs
    | with_reducible apply Runs.comp (State.countReq_runs ..)
    | with_reducible apply Runs.foldl
    | with_reducible apply Runs.foldl_fst
    | intro _)

theorem execPermuteCount_runs (p : Packet) (s : State) :
    RunsTo [.router, .red] s (execPermuteCount p s) := by
  unfold execPermuteCount
  repeat' (first
    | with_reducible refine RunsTo.need ?_
    | with_reducible refine RunsTo.next ?_
    | with_reducible exact Runs.refl _
    | with_reducible assumption
    | exact Eq.refl true
    | exact fun h => h
    | dsimp only
    | with_reducible apply powered_runs
    | with_reducible apply State.permMsg_runs
    | with_reducible apply Runs.comp (State.permReplied_runs ..)
    | with_reducible apply Runs.foldl
    | with_reducible apply Runs.foldl_fst
    | intro _)

theorem execPhase1Go_runs (p : Packet) (s : State) :
    RunsTo [.router, .red] s (execPhase1Go p s) := by
  unfold execPhase1Go
  repeat' (first
    | with_reducible refine RunsTo.need ?_
    | with_reducible refine RunsTo.next ?_
    | with_reducible exact Runs.refl _
    | with_reducible assumption
    | exact Eq.refl true
    | exact fun h => h
    | dsimp only
    | with_reducible apply powered_runs
    | with_reducible apply State.permMsg_runs
    | with_reducible apply Runs.comp (State.phase1Go_runs ..)
    | with_reducible apply Runs.foldl
    | with_reducible apply Runs.foldl_fst
    | intro _)

theorem execPermutePhase1CopyDone_runs (ctx : Nat) (s : State) :
    RunsTo [.mem, .router, .red] s (execPermutePhase1CopyDone ctx s) := by
  unfold execPermutePhase1CopyDone
  repeat' (first
    | with_reducible refine RunsTo.need ?_
    | with_reducible refine RunsTo.next ?_
    | with_reducible exact Runs.refl _
    | with_reducible assumption
    | exact Eq.refl true
    | exact fun h => h
    | dsimp only
    | with_reducible apply Runs.comp (State.phase1Copy_runs ..))

theorem execPhase1Done_runs (p : Packet) (s : State) :
    RunsTo [.router, .red] s (execPhase1Done p s) := by
  unfold execPhase1Done
  repeat' (first
    | with_reducible refine RunsTo.need ?_
    | with_reducible refine RunsTo.next ?_
    | with_reducible exact Runs.refl _
    | with_reducible assumption
    | exact Eq.refl true
    | exact fun h => h
    | dsimp only
    | with_reducible apply powered_runs
    | with_reducible apply State.permMsg_runs
    | with_reducible apply Runs.comp (State.permReplied_runs ..)
    | with_reducible apply Runs.foldl
    | with_reducible apply Runs.foldl_fst
    | intro _)

theorem execPhase2Go_runs (p : Packet) (s : State) :
    RunsTo [.fab, .router, .red, .obj] s (execPhase2Go p s) := by
  unfold execPhase2Go
  repeat' (first
    | with_reducible refine RunsTo.need ?_
    | with_reducible refine RunsTo.next ?_
    | with_reducible exact Runs.refl _
    | with_reducible assumption
    | exact Eq.refl true
    | exact fun h => h
    | dsimp only
    | with_reducible apply powered_runs
    | with_reducible apply State.permMsg_runs
    | with_reducible apply Runs.comp (State.phase2Go_runs ..)
    | with_reducible apply Runs.foldl
    | with_reducible apply Runs.foldl_fst
    | intro _)

theorem execPermutePhase2StoresAcked_runs (ctx : Nat) (s : State) :
    RunsTo [.router, .red] s (execPermutePhase2StoresAcked ctx s) := by
  unfold execPermutePhase2StoresAcked
  repeat' (first
    | with_reducible refine RunsTo.need ?_
    | with_reducible refine RunsTo.next ?_
    | with_reducible exact Runs.refl _
    | with_reducible assumption
    | exact Eq.refl true
    | exact fun h => h
    | dsimp only
    | with_reducible apply Runs.comp (State.phase2Acked_runs ..))

theorem execPhase2Done_runs (p : Packet) (s : State) :
    RunsTo [.router, .red] s (execPhase2Done p s) := by
  unfold execPhase2Done
  repeat' (first
    | with_reducible refine RunsTo.need ?_
    | with_reducible refine RunsTo.next ?_
    | with_reducible exact Runs.refl _
    | with_reducible assumption
    | exact Eq.refl true
    | exact fun h => h
    | dsimp only
    | with_reducible apply powered_runs
    | with_reducible apply State.permMsg_runs
    | with_reducible apply Runs.comp (State.permReplied_runs ..)
    | with_reducible apply Runs.foldl
    | with_reducible apply Runs.foldl_fst
    | intro _)

theorem execPermuteDone_runs (p : Packet) (s : State) :
    RunsTo [.sync, .fab, .router, .steps, .red, .obj] s (execPermuteDone p s) := by
  unfold execPermuteDone
  repeat' (first
    | with_reducible refine RunsTo.need ?_
    | with_reducible refine RunsTo.next ?_
    | with_reducible exact Runs.refl _
    | with_reducible assumption
    | exact Eq.refl true
    | exact fun h => h
    | dsimp only
    | with_reducible apply powered_runs
    | with_reducible apply State.permMsg_runs
    | with_reducible apply Runs.comp (State.permDone_runs ..)
    | with_reducible apply Runs.foldl
    | with_reducible apply Runs.foldl_fst
    | intro _)

theorem execPermuteFailed_runs (p : Packet) (s : State) :
    RunsTo [.sync, .fab, .router, .steps, .red, .obj] s (execPermuteFailed p s) := by
  unfold execPermuteFailed
  repeat' (first
    | with_reducible refine RunsTo.need ?_
    | with_reducible refine RunsTo.next ?_
    | with_reducible exact Runs.refl _
    | with_reducible assumption
    | exact Eq.refl true
    | exact fun h => h
    | dsimp only
    | with_reducible apply powered_runs
    | with_reducible apply State.permMsg_runs
    | with_reducible apply Runs.comp (State.permFailed_runs ..)
    | with_reducible apply Runs.foldl
    | with_reducible apply Runs.foldl_fst
    | intro _)

theorem execEntryInvalid_runs (p : Packet) (s : State) :
    RunsTo [.router, .red] s (execEntryInvalid p s) := by
  unfold execEntryInvalid
  repeat' (first
    | with_reducible refine RunsTo.need ?_
    | with_reducible refine RunsTo.next ?_
    | with_reducible exact Runs.refl _
    | with_reducible assumption
    | exact Eq.refl true
    | exact fun h => h
    | dsimp only
    | with_reducible apply powered_runs
    | with_reducible apply State.permMsg_runs
    | with_reducible apply Runs.comp (State.entryInvalid_runs ..)
    | with_reducible apply Runs.foldl
    | with_reducible apply Runs.foldl_fst
    | intro _)

theorem execPermuteStageDeadline_runs (ctx : Nat) (s : State) :
    RunsTo [.router, .red] s (execPermuteStageDeadline ctx s) := by
  unfold execPermuteStageDeadline
  repeat' (first
    | with_reducible refine RunsTo.need ?_
    | with_reducible refine RunsTo.next ?_
    | with_reducible exact Runs.refl _
    | with_reducible assumption
    | exact Eq.refl true
    | exact fun h => h
    | dsimp only
    | with_reducible apply Runs.comp (State.permDeadline_runs ..))

end Sys2Proof.Machine
end

