-- ==== Sys2Proof/Laws/RouterRuns.lean ====
section
/-!
SUPPORT. What the operations of Machine/Router.lean may change, and that they keep the canonical form.
-/

namespace Sys2Proof.Machine

theorem Router.wf_out {x : Router} (o : Nat) (ps : List OutPkt) (ds : List Packet) (c : Bool) (v : Nat) (h : x.wf = true) :
    ({ x with outq := tset [] x.outq o ps, outLast := if c then x.outLast else tset 11 x.outLast o v, delivered := ds } :
      Router).wf = true := by
  rw [Router.wf_iff] at h ⊢
  refine ⟨h.1, h.2.1, twf_tset _ _ _ h.2.2.1, ?_⟩
  cases c
  · exact twf_tset _ _ _ h.2.2.2
  · exact h.2.2.2

theorem Router.hubRun_wf (n : Nat) {x : Router} (h : x.wf = true) : (Router.hubRun n x).1.wf = true := by
  induction n generalizing x with
  | zero => exact h
  | succ n ih =>
    unfold Router.hubRun
    split
    · exact h
    · rw [Router.wf_iff] at h
      dsimp only
      split
      · rename_i u _ _ _
        rw [Router.wf_iff]
        exact ⟨twf_tset _ _ _ h.1, twf_tset 0 u 0 h.2.1, h.2.2⟩
      · rename_i u _ _ _
        refine ih ?_
        rw [Router.wf_iff]
        exact ⟨h.1, twf_tset 0 u (tget 0 x.hubSent u + 1) h.2.1, h.2.2⟩

theorem State.leave_runs (s : State) (port : Nat) (l : Nat) (p : Packet) :
    Runs [.links, .router, .obj, .flash] s (State.leave s port l p) := by
  unfold State.leave
  repeat' (first
    | with_reducible exact Runs.refl _
    | with_reducible assumption
    | exact Eq.refl true
    | exact fun h => h
    | dsimp only
    | with_reducible apply Runs.comp (State.linkDrop_runs ..)
    | with_reducible apply Runs.comp (State.setLink_runs ..)
    | with_reducible apply Runs.comp (State.notice388_runs ..)
    | with_reducible apply Runs.foldl
    | with_reducible apply Runs.foldl_fst
    | intro _
    | split)

theorem State.deliver_runs (s : State) (p : Packet) :
    Runs [.router] s (State.deliver s p) := by
  unfold State.deliver
  repeat' (first
    | with_reducible exact Runs.refl _
    | with_reducible assumption
    | exact Eq.refl true
    | exact fun h => h
    | exact Router.wf_outq _ _
    | dsimp only
    | with_reducible apply Runs.comp (State.setRouter_runs ..)
    | with_reducible apply Runs.foldl
    | with_reducible apply Runs.foldl_fst
    | intro _
    | split)

theorem State.route_runs (s : State) (port : Nat) (p : Packet) :
    Runs [.links, .router, .obj, .flash] s (State.route s port p) := by
  unfold State.route
  repeat' (first
    | with_reducible exact Runs.refl _
    | with_reducible assumption
    | exact Eq.refl true
    | exact fun h => h
    | dsimp only
    | with_reducible apply Runs.comp (State.bump_runs ..)
    | with_reducible apply Runs.comp (State.leave_runs ..)
    | with_reducible apply Runs.comp (State.deliver_runs ..)
    | with_reducible apply Runs.foldl
    | with_reducible apply Runs.foldl_fst
    | intro _
    | split)

theorem State.outServe_runs (s : State) (o : Nat) : Runs [.router] s (s.outServe o) := by
  unfold State.outServe
  split
  · rename_i p _
    refine State.setRouter_runs s _ (fun h => ?_)
    have k := Router.wf_out o (dropFirst (· == p) (tget [] s.router.outq o)) (s.router.delivered ++ [p.pkt]) (decide (p.pkt.vc = 0))
      p.pkt.vc h
    simpa only [decide_eq_true_eq] using k
  · exact Runs.refl s

theorem State.inRoute_runs (s : State) (port : Nat) :
    Runs [.links, .router, .obj, .flash] s (State.inRoute s port) := by
  unfold State.inRoute
  repeat' (first
    | with_reducible exact Runs.refl _
    | with_reducible assumption
    | exact Eq.refl true
    | exact fun h => h
    | exact Router.hubRun_wf _
    | exact Router.wf_inj _ _
    | dsimp only
    | with_reducible apply Runs.comp (State.route_runs ..)
    | with_reducible apply Runs.comp (State.setRouter_runs ..)
    | with_reducible apply Runs.comp (State.modLink_runs ..)
    | with_reducible apply Runs.foldl
    | with_reducible apply Runs.foldl_fst
    | intro _
    | split)

theorem State.packetRoute_runs (port : Nat) (s : State) :
    Runs [.links, .router, .obj, .flash] s (State.packetRoute port s) := by
  unfold State.packetRoute
  repeat' (first
    | with_reducible exact Runs.refl _
    | with_reducible assumption
    | exact Eq.refl true
    | exact fun h => h
    | exact Router.hubRun_wf _
    | exact Router.wf_inj _ _
    | dsimp only
    | with_reducible apply Runs.comp (State.inRoute_runs ..)
    | with_reducible apply Runs.comp (State.outServe_runs ..)
    | with_reducible apply Runs.foldl
    | with_reducible apply Runs.foldl_fst
    | intro _
    | split)

theorem execPacketRoute_runs (port : Nat) (s : State) :
    RunsTo [.links, .router, .obj, .flash] s (execPacketRoute port s) := by
  unfold execPacketRoute
  repeat' (first
    | with_reducible refine RunsTo.need ?_
    | with_reducible refine RunsTo.next ?_
    | with_reducible exact Runs.refl _
    | with_reducible assumption
    | exact Eq.refl true
    | exact fun h => h
    | dsimp only
    | with_reducible apply Runs.comp (State.packetRoute_runs ..))

theorem State.faultNotice_runs (p : Packet) (s : State) :
    Runs [.router, .steps, .obj, .flash] s (State.faultNotice p s) := by
  unfold State.faultNotice
  repeat' (first
    | with_reducible exact Runs.refl _
    | with_reducible assumption
    | exact Eq.refl true
    | exact fun h => h
    | dsimp only
    | with_reducible apply Runs.comp (State.uncovered_runs ..)
    | with_reducible apply Runs.comp (State.taken_runs ..))

theorem execFaultNotice_runs (p : Packet) (s : State) :
    RunsTo [.router, .steps, .obj, .flash] s (execFaultNotice p s) := by
  unfold execFaultNotice
  repeat' (first
    | with_reducible refine RunsTo.need ?_
    | with_reducible refine RunsTo.next ?_
    | with_reducible exact Runs.refl _
    | with_reducible assumption
    | exact Eq.refl true
    | exact fun h => h
    | dsimp only
    | with_reducible apply powered_runs
    | with_reducible apply Runs.comp (State.faultNotice_runs ..))

end Sys2Proof.Machine
end

