-- ==== Sys2Proof/Laws/State.lean ====
section
/-!
SUPPORT. What each field reads after each update of the state: one lemma per field per update.
-/

namespace Sys2Proof.Machine

@[simp] theorem State.setFt_clk (s : State) (x : FabTime) : (s.setFt x).clk = s.clk := rfl
@[simp] theorem State.setFt_ft (s : State) (x : FabTime) : (s.setFt x).ft = x := rfl
@[simp] theorem State.setFt_pins (s : State) (x : FabTime) : (s.setFt x).pins = s.pins := rfl
@[simp] theorem State.setFt_power (s : State) (x : FabTime) : (s.setFt x).power = s.power := rfl
@[simp] theorem State.setFt_kettle (s : State) (x : FabTime) : (s.setFt x).kettle = s.kettle := rfl
@[simp] theorem State.setFt_cores (s : State) (x : FabTime) : (s.setFt x).cores = s.cores := rfl
@[simp] theorem State.setFt_sched (s : State) (x : FabTime) : (s.setFt x).sched = s.sched := rfl
@[simp] theorem State.setFt_txe (s : State) (x : FabTime) : (s.setFt x).txe = s.txe := rfl
@[simp] theorem State.setFt_sync (s : State) (x : FabTime) : (s.setFt x).sync = s.sync := rfl
@[simp] theorem State.setFt_mem (s : State) (x : FabTime) : (s.setFt x).mem = s.mem := rfl
@[simp] theorem State.setFt_urn (s : State) (x : FabTime) : (s.setFt x).urn = s.urn := rfl
@[simp] theorem State.setFt_fab (s : State) (x : FabTime) : (s.setFt x).fab = s.fab := rfl
@[simp] theorem State.setFt_links (s : State) (x : FabTime) : (s.setFt x).links = s.links := rfl
@[simp] theorem State.setFt_router (s : State) (x : FabTime) : (s.setFt x).router = s.router := rfl
@[simp] theorem State.setFt_caddy (s : State) (x : FabTime) : (s.setFt x).caddy = s.caddy := rfl
@[simp] theorem State.setFt_host (s : State) (x : FabTime) : (s.setFt x).host = s.host := rfl
@[simp] theorem State.setFt_steps (s : State) (x : FabTime) : (s.setFt x).steps = s.steps := rfl
@[simp] theorem State.setFt_red (s : State) (x : FabTime) : (s.setFt x).red = s.red := rfl
@[simp] theorem State.setFt_obj (s : State) (x : FabTime) : (s.setFt x).obj = s.obj := rfl
@[simp] theorem State.setFt_flash (s : State) (x : FabTime) : (s.setFt x).flash = s.flash := rfl
@[simp] theorem State.setFt_ageing (s : State) (x : FabTime) : (s.setFt x).ageing = s.ageing := rfl
@[simp] theorem State.setFt_tele (s : State) (x : FabTime) : (s.setFt x).tele = s.tele := rfl
@[simp] theorem State.setFt_out (s : State) (x : FabTime) : (s.setFt x).out = s.out := rfl
@[simp] theorem State.setFt_free (s : State) (x : FabTime) : (s.setFt x).free = s.free := rfl
@[simp] theorem State.setFt_pending (s : State) (x : FabTime) : (s.setFt x).pending = s.pending := rfl

@[simp] theorem State.setPins_clk (s : State) (x : Pins) : (s.setPins x).clk = s.clk := rfl
@[simp] theorem State.setPins_ft (s : State) (x : Pins) : (s.setPins x).ft = s.ft := rfl
@[simp] theorem State.setPins_pins (s : State) (x : Pins) : (s.setPins x).pins = x := rfl
@[simp] theorem State.setPins_power (s : State) (x : Pins) : (s.setPins x).power = s.power := rfl
@[simp] theorem State.setPins_kettle (s : State) (x : Pins) : (s.setPins x).kettle = s.kettle := rfl
@[simp] theorem State.setPins_cores (s : State) (x : Pins) : (s.setPins x).cores = s.cores := rfl
@[simp] theorem State.setPins_sched (s : State) (x : Pins) : (s.setPins x).sched = s.sched := rfl
@[simp] theorem State.setPins_txe (s : State) (x : Pins) : (s.setPins x).txe = s.txe := rfl
@[simp] theorem State.setPins_sync (s : State) (x : Pins) : (s.setPins x).sync = s.sync := rfl
@[simp] theorem State.setPins_mem (s : State) (x : Pins) : (s.setPins x).mem = s.mem := rfl
@[simp] theorem State.setPins_urn (s : State) (x : Pins) : (s.setPins x).urn = s.urn := rfl
@[simp] theorem State.setPins_fab (s : State) (x : Pins) : (s.setPins x).fab = s.fab := rfl
@[simp] theorem State.setPins_links (s : State) (x : Pins) : (s.setPins x).links = s.links := rfl
@[simp] theorem State.setPins_router (s : State) (x : Pins) : (s.setPins x).router = s.router := rfl
@[simp] theorem State.setPins_caddy (s : State) (x : Pins) : (s.setPins x).caddy = s.caddy := rfl
@[simp] theorem State.setPins_host (s : State) (x : Pins) : (s.setPins x).host = s.host := rfl
@[simp] theorem State.setPins_steps (s : State) (x : Pins) : (s.setPins x).steps = s.steps := rfl
@[simp] theorem State.setPins_red (s : State) (x : Pins) : (s.setPins x).red = s.red := rfl
@[simp] theorem State.setPins_obj (s : State) (x : Pins) : (s.setPins x).obj = s.obj := rfl
@[simp] theorem State.setPins_flash (s : State) (x : Pins) : (s.setPins x).flash = s.flash := rfl
@[simp] theorem State.setPins_ageing (s : State) (x : Pins) : (s.setPins x).ageing = s.ageing := rfl
@[simp] theorem State.setPins_tele (s : State) (x : Pins) : (s.setPins x).tele = s.tele := rfl
@[simp] theorem State.setPins_out (s : State) (x : Pins) : (s.setPins x).out = s.out := rfl
@[simp] theorem State.setPins_free (s : State) (x : Pins) : (s.setPins x).free = s.free := rfl
@[simp] theorem State.setPins_pending (s : State) (x : Pins) : (s.setPins x).pending = s.pending := rfl

@[simp] theorem State.setPower_clk (s : State) (x : Power) : (s.setPower x).clk = s.clk := rfl
@[simp] theorem State.setPower_ft (s : State) (x : Power) : (s.setPower x).ft = s.ft := rfl
@[simp] theorem State.setPower_pins (s : State) (x : Power) : (s.setPower x).pins = s.pins := rfl
@[simp] theorem State.setPower_power (s : State) (x : Power) : (s.setPower x).power = x := rfl
@[simp] theorem State.setPower_kettle (s : State) (x : Power) : (s.setPower x).kettle = s.kettle := rfl
@[simp] theorem State.setPower_cores (s : State) (x : Power) : (s.setPower x).cores = s.cores := rfl
@[simp] theorem State.setPower_sched (s : State) (x : Power) : (s.setPower x).sched = s.sched := rfl
@[simp] theorem State.setPower_txe (s : State) (x : Power) : (s.setPower x).txe = s.txe := rfl
@[simp] theorem State.setPower_sync (s : State) (x : Power) : (s.setPower x).sync = s.sync := rfl
@[simp] theorem State.setPower_mem (s : State) (x : Power) : (s.setPower x).mem = s.mem := rfl
@[simp] theorem State.setPower_urn (s : State) (x : Power) : (s.setPower x).urn = s.urn := rfl
@[simp] theorem State.setPower_fab (s : State) (x : Power) : (s.setPower x).fab = s.fab := rfl
@[simp] theorem State.setPower_links (s : State) (x : Power) : (s.setPower x).links = s.links := rfl
@[simp] theorem State.setPower_router (s : State) (x : Power) : (s.setPower x).router = s.router := rfl
@[simp] theorem State.setPower_caddy (s : State) (x : Power) : (s.setPower x).caddy = s.caddy := rfl
@[simp] theorem State.setPower_host (s : State) (x : Power) : (s.setPower x).host = s.host := rfl
@[simp] theorem State.setPower_steps (s : State) (x : Power) : (s.setPower x).steps = s.steps := rfl
@[simp] theorem State.setPower_red (s : State) (x : Power) : (s.setPower x).red = s.red := rfl
@[simp] theorem State.setPower_obj (s : State) (x : Power) : (s.setPower x).obj = s.obj := rfl
@[simp] theorem State.setPower_flash (s : State) (x : Power) : (s.setPower x).flash = s.flash := rfl
@[simp] theorem State.setPower_ageing (s : State) (x : Power) : (s.setPower x).ageing = s.ageing := rfl
@[simp] theorem State.setPower_tele (s : State) (x : Power) : (s.setPower x).tele = s.tele := rfl
@[simp] theorem State.setPower_out (s : State) (x : Power) : (s.setPower x).out = s.out := rfl
@[simp] theorem State.setPower_free (s : State) (x : Power) : (s.setPower x).free = s.free := rfl
@[simp] theorem State.setPower_pending (s : State) (x : Power) : (s.setPower x).pending = s.pending := rfl

@[simp] theorem State.setKettle_clk (s : State) (x : Kettle) : (s.setKettle x).clk = s.clk := rfl
@[simp] theorem State.setKettle_ft (s : State) (x : Kettle) : (s.setKettle x).ft = s.ft := rfl
@[simp] theorem State.setKettle_pins (s : State) (x : Kettle) : (s.setKettle x).pins = s.pins := rfl
@[simp] theorem State.setKettle_power (s : State) (x : Kettle) : (s.setKettle x).power = s.power := rfl
@[simp] theorem State.setKettle_kettle (s : State) (x : Kettle) : (s.setKettle x).kettle = x := rfl
@[simp] theorem State.setKettle_cores (s : State) (x : Kettle) : (s.setKettle x).cores = s.cores := rfl
@[simp] theorem State.setKettle_sched (s : State) (x : Kettle) : (s.setKettle x).sched = s.sched := rfl
@[simp] theorem State.setKettle_txe (s : State) (x : Kettle) : (s.setKettle x).txe = s.txe := rfl
@[simp] theorem State.setKettle_sync (s : State) (x : Kettle) : (s.setKettle x).sync = s.sync := rfl
@[simp] theorem State.setKettle_mem (s : State) (x : Kettle) : (s.setKettle x).mem = s.mem := rfl
@[simp] theorem State.setKettle_urn (s : State) (x : Kettle) : (s.setKettle x).urn = s.urn := rfl
@[simp] theorem State.setKettle_fab (s : State) (x : Kettle) : (s.setKettle x).fab = s.fab := rfl
@[simp] theorem State.setKettle_links (s : State) (x : Kettle) : (s.setKettle x).links = s.links := rfl
@[simp] theorem State.setKettle_router (s : State) (x : Kettle) : (s.setKettle x).router = s.router := rfl
@[simp] theorem State.setKettle_caddy (s : State) (x : Kettle) : (s.setKettle x).caddy = s.caddy := rfl
@[simp] theorem State.setKettle_host (s : State) (x : Kettle) : (s.setKettle x).host = s.host := rfl
@[simp] theorem State.setKettle_steps (s : State) (x : Kettle) : (s.setKettle x).steps = s.steps := rfl
@[simp] theorem State.setKettle_red (s : State) (x : Kettle) : (s.setKettle x).red = s.red := rfl
@[simp] theorem State.setKettle_obj (s : State) (x : Kettle) : (s.setKettle x).obj = s.obj := rfl
@[simp] theorem State.setKettle_flash (s : State) (x : Kettle) : (s.setKettle x).flash = s.flash := rfl
@[simp] theorem State.setKettle_ageing (s : State) (x : Kettle) : (s.setKettle x).ageing = s.ageing := rfl
@[simp] theorem State.setKettle_tele (s : State) (x : Kettle) : (s.setKettle x).tele = s.tele := rfl
@[simp] theorem State.setKettle_out (s : State) (x : Kettle) : (s.setKettle x).out = s.out := rfl
@[simp] theorem State.setKettle_free (s : State) (x : Kettle) : (s.setKettle x).free = s.free := rfl
@[simp] theorem State.setKettle_pending (s : State) (x : Kettle) : (s.setKettle x).pending = s.pending := rfl

@[simp] theorem State.setSched_clk (s : State) (x : Sched) : (s.setSched x).clk = s.clk := rfl
@[simp] theorem State.setSched_ft (s : State) (x : Sched) : (s.setSched x).ft = s.ft := rfl
@[simp] theorem State.setSched_pins (s : State) (x : Sched) : (s.setSched x).pins = s.pins := rfl
@[simp] theorem State.setSched_power (s : State) (x : Sched) : (s.setSched x).power = s.power := rfl
@[simp] theorem State.setSched_kettle (s : State) (x : Sched) : (s.setSched x).kettle = s.kettle := rfl
@[simp] theorem State.setSched_cores (s : State) (x : Sched) : (s.setSched x).cores = s.cores := rfl
@[simp] theorem State.setSched_sched (s : State) (x : Sched) : (s.setSched x).sched = x := rfl
@[simp] theorem State.setSched_txe (s : State) (x : Sched) : (s.setSched x).txe = s.txe := rfl
@[simp] theorem State.setSched_sync (s : State) (x : Sched) : (s.setSched x).sync = s.sync := rfl
@[simp] theorem State.setSched_mem (s : State) (x : Sched) : (s.setSched x).mem = s.mem := rfl
@[simp] theorem State.setSched_urn (s : State) (x : Sched) : (s.setSched x).urn = s.urn := rfl
@[simp] theorem State.setSched_fab (s : State) (x : Sched) : (s.setSched x).fab = s.fab := rfl
@[simp] theorem State.setSched_links (s : State) (x : Sched) : (s.setSched x).links = s.links := rfl
@[simp] theorem State.setSched_router (s : State) (x : Sched) : (s.setSched x).router = s.router := rfl
@[simp] theorem State.setSched_caddy (s : State) (x : Sched) : (s.setSched x).caddy = s.caddy := rfl
@[simp] theorem State.setSched_host (s : State) (x : Sched) : (s.setSched x).host = s.host := rfl
@[simp] theorem State.setSched_steps (s : State) (x : Sched) : (s.setSched x).steps = s.steps := rfl
@[simp] theorem State.setSched_red (s : State) (x : Sched) : (s.setSched x).red = s.red := rfl
@[simp] theorem State.setSched_obj (s : State) (x : Sched) : (s.setSched x).obj = s.obj := rfl
@[simp] theorem State.setSched_flash (s : State) (x : Sched) : (s.setSched x).flash = s.flash := rfl
@[simp] theorem State.setSched_ageing (s : State) (x : Sched) : (s.setSched x).ageing = s.ageing := rfl
@[simp] theorem State.setSched_tele (s : State) (x : Sched) : (s.setSched x).tele = s.tele := rfl
@[simp] theorem State.setSched_out (s : State) (x : Sched) : (s.setSched x).out = s.out := rfl
@[simp] theorem State.setSched_free (s : State) (x : Sched) : (s.setSched x).free = s.free := rfl
@[simp] theorem State.setSched_pending (s : State) (x : Sched) : (s.setSched x).pending = s.pending := rfl

@[simp] theorem State.setTxe_clk (s : State) (x : Txe) : (s.setTxe x).clk = s.clk := rfl
@[simp] theorem State.setTxe_ft (s : State) (x : Txe) : (s.setTxe x).ft = s.ft := rfl
@[simp] theorem State.setTxe_pins (s : State) (x : Txe) : (s.setTxe x).pins = s.pins := rfl
@[simp] theorem State.setTxe_power (s : State) (x : Txe) : (s.setTxe x).power = s.power := rfl
@[simp] theorem State.setTxe_kettle (s : State) (x : Txe) : (s.setTxe x).kettle = s.kettle := rfl
@[simp] theorem State.setTxe_cores (s : State) (x : Txe) : (s.setTxe x).cores = s.cores := rfl
@[simp] theorem State.setTxe_sched (s : State) (x : Txe) : (s.setTxe x).sched = s.sched := rfl
@[simp] theorem State.setTxe_txe (s : State) (x : Txe) : (s.setTxe x).txe = x := rfl
@[simp] theorem State.setTxe_sync (s : State) (x : Txe) : (s.setTxe x).sync = s.sync := rfl
@[simp] theorem State.setTxe_mem (s : State) (x : Txe) : (s.setTxe x).mem = s.mem := rfl
@[simp] theorem State.setTxe_urn (s : State) (x : Txe) : (s.setTxe x).urn = s.urn := rfl
@[simp] theorem State.setTxe_fab (s : State) (x : Txe) : (s.setTxe x).fab = s.fab := rfl
@[simp] theorem State.setTxe_links (s : State) (x : Txe) : (s.setTxe x).links = s.links := rfl
@[simp] theorem State.setTxe_router (s : State) (x : Txe) : (s.setTxe x).router = s.router := rfl
@[simp] theorem State.setTxe_caddy (s : State) (x : Txe) : (s.setTxe x).caddy = s.caddy := rfl
@[simp] theorem State.setTxe_host (s : State) (x : Txe) : (s.setTxe x).host = s.host := rfl
@[simp] theorem State.setTxe_steps (s : State) (x : Txe) : (s.setTxe x).steps = s.steps := rfl
@[simp] theorem State.setTxe_red (s : State) (x : Txe) : (s.setTxe x).red = s.red := rfl
@[simp] theorem State.setTxe_obj (s : State) (x : Txe) : (s.setTxe x).obj = s.obj := rfl
@[simp] theorem State.setTxe_flash (s : State) (x : Txe) : (s.setTxe x).flash = s.flash := rfl
@[simp] theorem State.setTxe_ageing (s : State) (x : Txe) : (s.setTxe x).ageing = s.ageing := rfl
@[simp] theorem State.setTxe_tele (s : State) (x : Txe) : (s.setTxe x).tele = s.tele := rfl
@[simp] theorem State.setTxe_out (s : State) (x : Txe) : (s.setTxe x).out = s.out := rfl
@[simp] theorem State.setTxe_free (s : State) (x : Txe) : (s.setTxe x).free = s.free := rfl
@[simp] theorem State.setTxe_pending (s : State) (x : Txe) : (s.setTxe x).pending = s.pending := rfl

@[simp] theorem State.setSync_clk (s : State) (x : Sync) : (s.setSync x).clk = s.clk := rfl
@[simp] theorem State.setSync_ft (s : State) (x : Sync) : (s.setSync x).ft = s.ft := rfl
@[simp] theorem State.setSync_pins (s : State) (x : Sync) : (s.setSync x).pins = s.pins := rfl
@[simp] theorem State.setSync_power (s : State) (x : Sync) : (s.setSync x).power = s.power := rfl
@[simp] theorem State.setSync_kettle (s : State) (x : Sync) : (s.setSync x).kettle = s.kettle := rfl
@[simp] theorem State.setSync_cores (s : State) (x : Sync) : (s.setSync x).cores = s.cores := rfl
@[simp] theorem State.setSync_sched (s : State) (x : Sync) : (s.setSync x).sched = s.sched := rfl
@[simp] theorem State.setSync_txe (s : State) (x : Sync) : (s.setSync x).txe = s.txe := rfl
@[simp] theorem State.setSync_sync (s : State) (x : Sync) : (s.setSync x).sync = x := rfl
@[simp] theorem State.setSync_mem (s : State) (x : Sync) : (s.setSync x).mem = s.mem := rfl
@[simp] theorem State.setSync_urn (s : State) (x : Sync) : (s.setSync x).urn = s.urn := rfl
@[simp] theorem State.setSync_fab (s : State) (x : Sync) : (s.setSync x).fab = s.fab := rfl
@[simp] theorem State.setSync_links (s : State) (x : Sync) : (s.setSync x).links = s.links := rfl
@[simp] theorem State.setSync_router (s : State) (x : Sync) : (s.setSync x).router = s.router := rfl
@[simp] theorem State.setSync_caddy (s : State) (x : Sync) : (s.setSync x).caddy = s.caddy := rfl
@[simp] theorem State.setSync_host (s : State) (x : Sync) : (s.setSync x).host = s.host := rfl
@[simp] theorem State.setSync_steps (s : State) (x : Sync) : (s.setSync x).steps = s.steps := rfl
@[simp] theorem State.setSync_red (s : State) (x : Sync) : (s.setSync x).red = s.red := rfl
@[simp] theorem State.setSync_obj (s : State) (x : Sync) : (s.setSync x).obj = s.obj := rfl
@[simp] theorem State.setSync_flash (s : State) (x : Sync) : (s.setSync x).flash = s.flash := rfl
@[simp] theorem State.setSync_ageing (s : State) (x : Sync) : (s.setSync x).ageing = s.ageing := rfl
@[simp] theorem State.setSync_tele (s : State) (x : Sync) : (s.setSync x).tele = s.tele := rfl
@[simp] theorem State.setSync_out (s : State) (x : Sync) : (s.setSync x).out = s.out := rfl
@[simp] theorem State.setSync_free (s : State) (x : Sync) : (s.setSync x).free = s.free := rfl
@[simp] theorem State.setSync_pending (s : State) (x : Sync) : (s.setSync x).pending = s.pending := rfl

@[simp] theorem State.setMem_clk (s : State) (x : Mem) : (s.setMem x).clk = s.clk := rfl
@[simp] theorem State.setMem_ft (s : State) (x : Mem) : (s.setMem x).ft = s.ft := rfl
@[simp] theorem State.setMem_pins (s : State) (x : Mem) : (s.setMem x).pins = s.pins := rfl
@[simp] theorem State.setMem_power (s : State) (x : Mem) : (s.setMem x).power = s.power := rfl
@[simp] theorem State.setMem_kettle (s : State) (x : Mem) : (s.setMem x).kettle = s.kettle := rfl
@[simp] theorem State.setMem_cores (s : State) (x : Mem) : (s.setMem x).cores = s.cores := rfl
@[simp] theorem State.setMem_sched (s : State) (x : Mem) : (s.setMem x).sched = s.sched := rfl
@[simp] theorem State.setMem_txe (s : State) (x : Mem) : (s.setMem x).txe = s.txe := rfl
@[simp] theorem State.setMem_sync (s : State) (x : Mem) : (s.setMem x).sync = s.sync := rfl
@[simp] theorem State.setMem_mem (s : State) (x : Mem) : (s.setMem x).mem = x := rfl
@[simp] theorem State.setMem_urn (s : State) (x : Mem) : (s.setMem x).urn = s.urn := rfl
@[simp] theorem State.setMem_fab (s : State) (x : Mem) : (s.setMem x).fab = s.fab := rfl
@[simp] theorem State.setMem_links (s : State) (x : Mem) : (s.setMem x).links = s.links := rfl
@[simp] theorem State.setMem_router (s : State) (x : Mem) : (s.setMem x).router = s.router := rfl
@[simp] theorem State.setMem_caddy (s : State) (x : Mem) : (s.setMem x).caddy = s.caddy := rfl
@[simp] theorem State.setMem_host (s : State) (x : Mem) : (s.setMem x).host = s.host := rfl
@[simp] theorem State.setMem_steps (s : State) (x : Mem) : (s.setMem x).steps = s.steps := rfl
@[simp] theorem State.setMem_red (s : State) (x : Mem) : (s.setMem x).red = s.red := rfl
@[simp] theorem State.setMem_obj (s : State) (x : Mem) : (s.setMem x).obj = s.obj := rfl
@[simp] theorem State.setMem_flash (s : State) (x : Mem) : (s.setMem x).flash = s.flash := rfl
@[simp] theorem State.setMem_ageing (s : State) (x : Mem) : (s.setMem x).ageing = s.ageing := rfl
@[simp] theorem State.setMem_tele (s : State) (x : Mem) : (s.setMem x).tele = s.tele := rfl
@[simp] theorem State.setMem_out (s : State) (x : Mem) : (s.setMem x).out = s.out := rfl
@[simp] theorem State.setMem_free (s : State) (x : Mem) : (s.setMem x).free = s.free := rfl
@[simp] theorem State.setMem_pending (s : State) (x : Mem) : (s.setMem x).pending = s.pending := rfl

@[simp] theorem State.setUrn_clk (s : State) (x : Urn) : (s.setUrn x).clk = s.clk := rfl
@[simp] theorem State.setUrn_ft (s : State) (x : Urn) : (s.setUrn x).ft = s.ft := rfl
@[simp] theorem State.setUrn_pins (s : State) (x : Urn) : (s.setUrn x).pins = s.pins := rfl
@[simp] theorem State.setUrn_power (s : State) (x : Urn) : (s.setUrn x).power = s.power := rfl
@[simp] theorem State.setUrn_kettle (s : State) (x : Urn) : (s.setUrn x).kettle = s.kettle := rfl
@[simp] theorem State.setUrn_cores (s : State) (x : Urn) : (s.setUrn x).cores = s.cores := rfl
@[simp] theorem State.setUrn_sched (s : State) (x : Urn) : (s.setUrn x).sched = s.sched := rfl
@[simp] theorem State.setUrn_txe (s : State) (x : Urn) : (s.setUrn x).txe = s.txe := rfl
@[simp] theorem State.setUrn_sync (s : State) (x : Urn) : (s.setUrn x).sync = s.sync := rfl
@[simp] theorem State.setUrn_mem (s : State) (x : Urn) : (s.setUrn x).mem = s.mem := rfl
@[simp] theorem State.setUrn_urn (s : State) (x : Urn) : (s.setUrn x).urn = x := rfl
@[simp] theorem State.setUrn_fab (s : State) (x : Urn) : (s.setUrn x).fab = s.fab := rfl
@[simp] theorem State.setUrn_links (s : State) (x : Urn) : (s.setUrn x).links = s.links := rfl
@[simp] theorem State.setUrn_router (s : State) (x : Urn) : (s.setUrn x).router = s.router := rfl
@[simp] theorem State.setUrn_caddy (s : State) (x : Urn) : (s.setUrn x).caddy = s.caddy := rfl
@[simp] theorem State.setUrn_host (s : State) (x : Urn) : (s.setUrn x).host = s.host := rfl
@[simp] theorem State.setUrn_steps (s : State) (x : Urn) : (s.setUrn x).steps = s.steps := rfl
@[simp] theorem State.setUrn_red (s : State) (x : Urn) : (s.setUrn x).red = s.red := rfl
@[simp] theorem State.setUrn_obj (s : State) (x : Urn) : (s.setUrn x).obj = s.obj := rfl
@[simp] theorem State.setUrn_flash (s : State) (x : Urn) : (s.setUrn x).flash = s.flash := rfl
@[simp] theorem State.setUrn_ageing (s : State) (x : Urn) : (s.setUrn x).ageing = s.ageing := rfl
@[simp] theorem State.setUrn_tele (s : State) (x : Urn) : (s.setUrn x).tele = s.tele := rfl
@[simp] theorem State.setUrn_out (s : State) (x : Urn) : (s.setUrn x).out = s.out := rfl
@[simp] theorem State.setUrn_free (s : State) (x : Urn) : (s.setUrn x).free = s.free := rfl
@[simp] theorem State.setUrn_pending (s : State) (x : Urn) : (s.setUrn x).pending = s.pending := rfl

@[simp] theorem State.setFab_clk (s : State) (x : Fab) : (s.setFab x).clk = s.clk := rfl
@[simp] theorem State.setFab_ft (s : State) (x : Fab) : (s.setFab x).ft = s.ft := rfl
@[simp] theorem State.setFab_pins (s : State) (x : Fab) : (s.setFab x).pins = s.pins := rfl
@[simp] theorem State.setFab_power (s : State) (x : Fab) : (s.setFab x).power = s.power := rfl
@[simp] theorem State.setFab_kettle (s : State) (x : Fab) : (s.setFab x).kettle = s.kettle := rfl
@[simp] theorem State.setFab_cores (s : State) (x : Fab) : (s.setFab x).cores = s.cores := rfl
@[simp] theorem State.setFab_sched (s : State) (x : Fab) : (s.setFab x).sched = s.sched := rfl
@[simp] theorem State.setFab_txe (s : State) (x : Fab) : (s.setFab x).txe = s.txe := rfl
@[simp] theorem State.setFab_sync (s : State) (x : Fab) : (s.setFab x).sync = s.sync := rfl
@[simp] theorem State.setFab_mem (s : State) (x : Fab) : (s.setFab x).mem = s.mem := rfl
@[simp] theorem State.setFab_urn (s : State) (x : Fab) : (s.setFab x).urn = s.urn := rfl
@[simp] theorem State.setFab_fab (s : State) (x : Fab) : (s.setFab x).fab = x := rfl
@[simp] theorem State.setFab_links (s : State) (x : Fab) : (s.setFab x).links = s.links := rfl
@[simp] theorem State.setFab_router (s : State) (x : Fab) : (s.setFab x).router = s.router := rfl
@[simp] theorem State.setFab_caddy (s : State) (x : Fab) : (s.setFab x).caddy = s.caddy := rfl
@[simp] theorem State.setFab_host (s : State) (x : Fab) : (s.setFab x).host = s.host := rfl
@[simp] theorem State.setFab_steps (s : State) (x : Fab) : (s.setFab x).steps = s.steps := rfl
@[simp] theorem State.setFab_red (s : State) (x : Fab) : (s.setFab x).red = s.red := rfl
@[simp] theorem State.setFab_obj (s : State) (x : Fab) : (s.setFab x).obj = s.obj := rfl
@[simp] theorem State.setFab_flash (s : State) (x : Fab) : (s.setFab x).flash = s.flash := rfl
@[simp] theorem State.setFab_ageing (s : State) (x : Fab) : (s.setFab x).ageing = s.ageing := rfl
@[simp] theorem State.setFab_tele (s : State) (x : Fab) : (s.setFab x).tele = s.tele := rfl
@[simp] theorem State.setFab_out (s : State) (x : Fab) : (s.setFab x).out = s.out := rfl
@[simp] theorem State.setFab_free (s : State) (x : Fab) : (s.setFab x).free = s.free := rfl
@[simp] theorem State.setFab_pending (s : State) (x : Fab) : (s.setFab x).pending = s.pending := rfl

@[simp] theorem State.setRouter_clk (s : State) (x : Router) : (s.setRouter x).clk = s.clk := rfl
@[simp] theorem State.setRouter_ft (s : State) (x : Router) : (s.setRouter x).ft = s.ft := rfl
@[simp] theorem State.setRouter_pins (s : State) (x : Router) : (s.setRouter x).pins = s.pins := rfl
@[simp] theorem State.setRouter_power (s : State) (x : Router) : (s.setRouter x).power = s.power := rfl
@[simp] theorem State.setRouter_kettle (s : State) (x : Router) : (s.setRouter x).kettle = s.kettle := rfl
@[simp] theorem State.setRouter_cores (s : State) (x : Router) : (s.setRouter x).cores = s.cores := rfl
@[simp] theorem State.setRouter_sched (s : State) (x : Router) : (s.setRouter x).sched = s.sched := rfl
@[simp] theorem State.setRouter_txe (s : State) (x : Router) : (s.setRouter x).txe = s.txe := rfl
@[simp] theorem State.setRouter_sync (s : State) (x : Router) : (s.setRouter x).sync = s.sync := rfl
@[simp] theorem State.setRouter_mem (s : State) (x : Router) : (s.setRouter x).mem = s.mem := rfl
@[simp] theorem State.setRouter_urn (s : State) (x : Router) : (s.setRouter x).urn = s.urn := rfl
@[simp] theorem State.setRouter_fab (s : State) (x : Router) : (s.setRouter x).fab = s.fab := rfl
@[simp] theorem State.setRouter_links (s : State) (x : Router) : (s.setRouter x).links = s.links := rfl
@[simp] theorem State.setRouter_router (s : State) (x : Router) : (s.setRouter x).router = x := rfl
@[simp] theorem State.setRouter_caddy (s : State) (x : Router) : (s.setRouter x).caddy = s.caddy := rfl
@[simp] theorem State.setRouter_host (s : State) (x : Router) : (s.setRouter x).host = s.host := rfl
@[simp] theorem State.setRouter_steps (s : State) (x : Router) : (s.setRouter x).steps = s.steps := rfl
@[simp] theorem State.setRouter_red (s : State) (x : Router) : (s.setRouter x).red = s.red := rfl
@[simp] theorem State.setRouter_obj (s : State) (x : Router) : (s.setRouter x).obj = s.obj := rfl
@[simp] theorem State.setRouter_flash (s : State) (x : Router) : (s.setRouter x).flash = s.flash := rfl
@[simp] theorem State.setRouter_ageing (s : State) (x : Router) : (s.setRouter x).ageing = s.ageing := rfl
@[simp] theorem State.setRouter_tele (s : State) (x : Router) : (s.setRouter x).tele = s.tele := rfl
@[simp] theorem State.setRouter_out (s : State) (x : Router) : (s.setRouter x).out = s.out := rfl
@[simp] theorem State.setRouter_free (s : State) (x : Router) : (s.setRouter x).free = s.free := rfl
@[simp] theorem State.setRouter_pending (s : State) (x : Router) : (s.setRouter x).pending = s.pending := rfl

@[simp] theorem State.setCaddy_clk (s : State) (x : Caddy) : (s.setCaddy x).clk = s.clk := rfl
@[simp] theorem State.setCaddy_ft (s : State) (x : Caddy) : (s.setCaddy x).ft = s.ft := rfl
@[simp] theorem State.setCaddy_pins (s : State) (x : Caddy) : (s.setCaddy x).pins = s.pins := rfl
@[simp] theorem State.setCaddy_power (s : State) (x : Caddy) : (s.setCaddy x).power = s.power := rfl
@[simp] theorem State.setCaddy_kettle (s : State) (x : Caddy) : (s.setCaddy x).kettle = s.kettle := rfl
@[simp] theorem State.setCaddy_cores (s : State) (x : Caddy) : (s.setCaddy x).cores = s.cores := rfl
@[simp] theorem State.setCaddy_sched (s : State) (x : Caddy) : (s.setCaddy x).sched = s.sched := rfl
@[simp] theorem State.setCaddy_txe (s : State) (x : Caddy) : (s.setCaddy x).txe = s.txe := rfl
@[simp] theorem State.setCaddy_sync (s : State) (x : Caddy) : (s.setCaddy x).sync = s.sync := rfl
@[simp] theorem State.setCaddy_mem (s : State) (x : Caddy) : (s.setCaddy x).mem = s.mem := rfl
@[simp] theorem State.setCaddy_urn (s : State) (x : Caddy) : (s.setCaddy x).urn = s.urn := rfl
@[simp] theorem State.setCaddy_fab (s : State) (x : Caddy) : (s.setCaddy x).fab = s.fab := rfl
@[simp] theorem State.setCaddy_links (s : State) (x : Caddy) : (s.setCaddy x).links = s.links := rfl
@[simp] theorem State.setCaddy_router (s : State) (x : Caddy) : (s.setCaddy x).router = s.router := rfl
@[simp] theorem State.setCaddy_caddy (s : State) (x : Caddy) : (s.setCaddy x).caddy = x := rfl
@[simp] theorem State.setCaddy_host (s : State) (x : Caddy) : (s.setCaddy x).host = s.host := rfl
@[simp] theorem State.setCaddy_steps (s : State) (x : Caddy) : (s.setCaddy x).steps = s.steps := rfl
@[simp] theorem State.setCaddy_red (s : State) (x : Caddy) : (s.setCaddy x).red = s.red := rfl
@[simp] theorem State.setCaddy_obj (s : State) (x : Caddy) : (s.setCaddy x).obj = s.obj := rfl
@[simp] theorem State.setCaddy_flash (s : State) (x : Caddy) : (s.setCaddy x).flash = s.flash := rfl
@[simp] theorem State.setCaddy_ageing (s : State) (x : Caddy) : (s.setCaddy x).ageing = s.ageing := rfl
@[simp] theorem State.setCaddy_tele (s : State) (x : Caddy) : (s.setCaddy x).tele = s.tele := rfl
@[simp] theorem State.setCaddy_out (s : State) (x : Caddy) : (s.setCaddy x).out = s.out := rfl
@[simp] theorem State.setCaddy_free (s : State) (x : Caddy) : (s.setCaddy x).free = s.free := rfl
@[simp] theorem State.setCaddy_pending (s : State) (x : Caddy) : (s.setCaddy x).pending = s.pending := rfl

@[simp] theorem State.setHost_clk (s : State) (x : HostIf) : (s.setHost x).clk = s.clk := rfl
@[simp] theorem State.setHost_ft (s : State) (x : HostIf) : (s.setHost x).ft = s.ft := rfl
@[simp] theorem State.setHost_pins (s : State) (x : HostIf) : (s.setHost x).pins = s.pins := rfl
@[simp] theorem State.setHost_power (s : State) (x : HostIf) : (s.setHost x).power = s.power := rfl
@[simp] theorem State.setHost_kettle (s : State) (x : HostIf) : (s.setHost x).kettle = s.kettle := rfl
@[simp] theorem State.setHost_cores (s : State) (x : HostIf) : (s.setHost x).cores = s.cores := rfl
@[simp] theorem State.setHost_sched (s : State) (x : HostIf) : (s.setHost x).sched = s.sched := rfl
@[simp] theorem State.setHost_txe (s : State) (x : HostIf) : (s.setHost x).txe = s.txe := rfl
@[simp] theorem State.setHost_sync (s : State) (x : HostIf) : (s.setHost x).sync = s.sync := rfl
@[simp] theorem State.setHost_mem (s : State) (x : HostIf) : (s.setHost x).mem = s.mem := rfl
@[simp] theorem State.setHost_urn (s : State) (x : HostIf) : (s.setHost x).urn = s.urn := rfl
@[simp] theorem State.setHost_fab (s : State) (x : HostIf) : (s.setHost x).fab = s.fab := rfl
@[simp] theorem State.setHost_links (s : State) (x : HostIf) : (s.setHost x).links = s.links := rfl
@[simp] theorem State.setHost_router (s : State) (x : HostIf) : (s.setHost x).router = s.router := rfl
@[simp] theorem State.setHost_caddy (s : State) (x : HostIf) : (s.setHost x).caddy = s.caddy := rfl
@[simp] theorem State.setHost_host (s : State) (x : HostIf) : (s.setHost x).host = x := rfl
@[simp] theorem State.setHost_steps (s : State) (x : HostIf) : (s.setHost x).steps = s.steps := rfl
@[simp] theorem State.setHost_red (s : State) (x : HostIf) : (s.setHost x).red = s.red := rfl
@[simp] theorem State.setHost_obj (s : State) (x : HostIf) : (s.setHost x).obj = s.obj := rfl
@[simp] theorem State.setHost_flash (s : State) (x : HostIf) : (s.setHost x).flash = s.flash := rfl
@[simp] theorem State.setHost_ageing (s : State) (x : HostIf) : (s.setHost x).ageing = s.ageing := rfl
@[simp] theorem State.setHost_tele (s : State) (x : HostIf) : (s.setHost x).tele = s.tele := rfl
@[simp] theorem State.setHost_out (s : State) (x : HostIf) : (s.setHost x).out = s.out := rfl
@[simp] theorem State.setHost_free (s : State) (x : HostIf) : (s.setHost x).free = s.free := rfl
@[simp] theorem State.setHost_pending (s : State) (x : HostIf) : (s.setHost x).pending = s.pending := rfl

@[simp] theorem State.setRed_clk (s : State) (x : Red) : (s.setRed x).clk = s.clk := rfl
@[simp] theorem State.setRed_ft (s : State) (x : Red) : (s.setRed x).ft = s.ft := rfl
@[simp] theorem State.setRed_pins (s : State) (x : Red) : (s.setRed x).pins = s.pins := rfl
@[simp] theorem State.setRed_power (s : State) (x : Red) : (s.setRed x).power = s.power := rfl
@[simp] theorem State.setRed_kettle (s : State) (x : Red) : (s.setRed x).kettle = s.kettle := rfl
@[simp] theorem State.setRed_cores (s : State) (x : Red) : (s.setRed x).cores = s.cores := rfl
@[simp] theorem State.setRed_sched (s : State) (x : Red) : (s.setRed x).sched = s.sched := rfl
@[simp] theorem State.setRed_txe (s : State) (x : Red) : (s.setRed x).txe = s.txe := rfl
@[simp] theorem State.setRed_sync (s : State) (x : Red) : (s.setRed x).sync = s.sync := rfl
@[simp] theorem State.setRed_mem (s : State) (x : Red) : (s.setRed x).mem = s.mem := rfl
@[simp] theorem State.setRed_urn (s : State) (x : Red) : (s.setRed x).urn = s.urn := rfl
@[simp] theorem State.setRed_fab (s : State) (x : Red) : (s.setRed x).fab = s.fab := rfl
@[simp] theorem State.setRed_links (s : State) (x : Red) : (s.setRed x).links = s.links := rfl
@[simp] theorem State.setRed_router (s : State) (x : Red) : (s.setRed x).router = s.router := rfl
@[simp] theorem State.setRed_caddy (s : State) (x : Red) : (s.setRed x).caddy = s.caddy := rfl
@[simp] theorem State.setRed_host (s : State) (x : Red) : (s.setRed x).host = s.host := rfl
@[simp] theorem State.setRed_steps (s : State) (x : Red) : (s.setRed x).steps = s.steps := rfl
@[simp] theorem State.setRed_red (s : State) (x : Red) : (s.setRed x).red = x := rfl
@[simp] theorem State.setRed_obj (s : State) (x : Red) : (s.setRed x).obj = s.obj := rfl
@[simp] theorem State.setRed_flash (s : State) (x : Red) : (s.setRed x).flash = s.flash := rfl
@[simp] theorem State.setRed_ageing (s : State) (x : Red) : (s.setRed x).ageing = s.ageing := rfl
@[simp] theorem State.setRed_tele (s : State) (x : Red) : (s.setRed x).tele = s.tele := rfl
@[simp] theorem State.setRed_out (s : State) (x : Red) : (s.setRed x).out = s.out := rfl
@[simp] theorem State.setRed_free (s : State) (x : Red) : (s.setRed x).free = s.free := rfl
@[simp] theorem State.setRed_pending (s : State) (x : Red) : (s.setRed x).pending = s.pending := rfl

@[simp] theorem State.setObj_clk (s : State) (x : Objects) : (s.setObj x).clk = s.clk := rfl
@[simp] theorem State.setObj_ft (s : State) (x : Objects) : (s.setObj x).ft = s.ft := rfl
@[simp] theorem State.setObj_pins (s : State) (x : Objects) : (s.setObj x).pins = s.pins := rfl
@[simp] theorem State.setObj_power (s : State) (x : Objects) : (s.setObj x).power = s.power := rfl
@[simp] theorem State.setObj_kettle (s : State) (x : Objects) : (s.setObj x).kettle = s.kettle := rfl
@[simp] theorem State.setObj_cores (s : State) (x : Objects) : (s.setObj x).cores = s.cores := rfl
@[simp] theorem State.setObj_sched (s : State) (x : Objects) : (s.setObj x).sched = s.sched := rfl
@[simp] theorem State.setObj_txe (s : State) (x : Objects) : (s.setObj x).txe = s.txe := rfl
@[simp] theorem State.setObj_sync (s : State) (x : Objects) : (s.setObj x).sync = s.sync := rfl
@[simp] theorem State.setObj_mem (s : State) (x : Objects) : (s.setObj x).mem = s.mem := rfl
@[simp] theorem State.setObj_urn (s : State) (x : Objects) : (s.setObj x).urn = s.urn := rfl
@[simp] theorem State.setObj_fab (s : State) (x : Objects) : (s.setObj x).fab = s.fab := rfl
@[simp] theorem State.setObj_links (s : State) (x : Objects) : (s.setObj x).links = s.links := rfl
@[simp] theorem State.setObj_router (s : State) (x : Objects) : (s.setObj x).router = s.router := rfl
@[simp] theorem State.setObj_caddy (s : State) (x : Objects) : (s.setObj x).caddy = s.caddy := rfl
@[simp] theorem State.setObj_host (s : State) (x : Objects) : (s.setObj x).host = s.host := rfl
@[simp] theorem State.setObj_steps (s : State) (x : Objects) : (s.setObj x).steps = s.steps := rfl
@[simp] theorem State.setObj_red (s : State) (x : Objects) : (s.setObj x).red = s.red := rfl
@[simp] theorem State.setObj_obj (s : State) (x : Objects) : (s.setObj x).obj = x := rfl
@[simp] theorem State.setObj_flash (s : State) (x : Objects) : (s.setObj x).flash = s.flash := rfl
@[simp] theorem State.setObj_ageing (s : State) (x : Objects) : (s.setObj x).ageing = s.ageing := rfl
@[simp] theorem State.setObj_tele (s : State) (x : Objects) : (s.setObj x).tele = s.tele := rfl
@[simp] theorem State.setObj_out (s : State) (x : Objects) : (s.setObj x).out = s.out := rfl
@[simp] theorem State.setObj_free (s : State) (x : Objects) : (s.setObj x).free = s.free := rfl
@[simp] theorem State.setObj_pending (s : State) (x : Objects) : (s.setObj x).pending = s.pending := rfl

@[simp] theorem State.setFlash_clk (s : State) (x : Flash) : (s.setFlash x).clk = s.clk := rfl
@[simp] theorem State.setFlash_ft (s : State) (x : Flash) : (s.setFlash x).ft = s.ft := rfl
@[simp] theorem State.setFlash_pins (s : State) (x : Flash) : (s.setFlash x).pins = s.pins := rfl
@[simp] theorem State.setFlash_power (s : State) (x : Flash) : (s.setFlash x).power = s.power := rfl
@[simp] theorem State.setFlash_kettle (s : State) (x : Flash) : (s.setFlash x).kettle = s.kettle := rfl
@[simp] theorem State.setFlash_cores (s : State) (x : Flash) : (s.setFlash x).cores = s.cores := rfl
@[simp] theorem State.setFlash_sched (s : State) (x : Flash) : (s.setFlash x).sched = s.sched := rfl
@[simp] theorem State.setFlash_txe (s : State) (x : Flash) : (s.setFlash x).txe = s.txe := rfl
@[simp] theorem State.setFlash_sync (s : State) (x : Flash) : (s.setFlash x).sync = s.sync := rfl
@[simp] theorem State.setFlash_mem (s : State) (x : Flash) : (s.setFlash x).mem = s.mem := rfl
@[simp] theorem State.setFlash_urn (s : State) (x : Flash) : (s.setFlash x).urn = s.urn := rfl
@[simp] theorem State.setFlash_fab (s : State) (x : Flash) : (s.setFlash x).fab = s.fab := rfl
@[simp] theorem State.setFlash_links (s : State) (x : Flash) : (s.setFlash x).links = s.links := rfl
@[simp] theorem State.setFlash_router (s : State) (x : Flash) : (s.setFlash x).router = s.router := rfl
@[simp] theorem State.setFlash_caddy (s : State) (x : Flash) : (s.setFlash x).caddy = s.caddy := rfl
@[simp] theorem State.setFlash_host (s : State) (x : Flash) : (s.setFlash x).host = s.host := rfl
@[simp] theorem State.setFlash_steps (s : State) (x : Flash) : (s.setFlash x).steps = s.steps := rfl
@[simp] theorem State.setFlash_red (s : State) (x : Flash) : (s.setFlash x).red = s.red := rfl
@[simp] theorem State.setFlash_obj (s : State) (x : Flash) : (s.setFlash x).obj = s.obj := rfl
@[simp] theorem State.setFlash_flash (s : State) (x : Flash) : (s.setFlash x).flash = x := rfl
@[simp] theorem State.setFlash_ageing (s : State) (x : Flash) : (s.setFlash x).ageing = s.ageing := rfl
@[simp] theorem State.setFlash_tele (s : State) (x : Flash) : (s.setFlash x).tele = s.tele := rfl
@[simp] theorem State.setFlash_out (s : State) (x : Flash) : (s.setFlash x).out = s.out := rfl
@[simp] theorem State.setFlash_free (s : State) (x : Flash) : (s.setFlash x).free = s.free := rfl
@[simp] theorem State.setFlash_pending (s : State) (x : Flash) : (s.setFlash x).pending = s.pending := rfl

@[simp] theorem State.setAgeing_clk (s : State) (x : Ageing) : (s.setAgeing x).clk = s.clk := rfl
@[simp] theorem State.setAgeing_ft (s : State) (x : Ageing) : (s.setAgeing x).ft = s.ft := rfl
@[simp] theorem State.setAgeing_pins (s : State) (x : Ageing) : (s.setAgeing x).pins = s.pins := rfl
@[simp] theorem State.setAgeing_power (s : State) (x : Ageing) : (s.setAgeing x).power = s.power := rfl
@[simp] theorem State.setAgeing_kettle (s : State) (x : Ageing) : (s.setAgeing x).kettle = s.kettle := rfl
@[simp] theorem State.setAgeing_cores (s : State) (x : Ageing) : (s.setAgeing x).cores = s.cores := rfl
@[simp] theorem State.setAgeing_sched (s : State) (x : Ageing) : (s.setAgeing x).sched = s.sched := rfl
@[simp] theorem State.setAgeing_txe (s : State) (x : Ageing) : (s.setAgeing x).txe = s.txe := rfl
@[simp] theorem State.setAgeing_sync (s : State) (x : Ageing) : (s.setAgeing x).sync = s.sync := rfl
@[simp] theorem State.setAgeing_mem (s : State) (x : Ageing) : (s.setAgeing x).mem = s.mem := rfl
@[simp] theorem State.setAgeing_urn (s : State) (x : Ageing) : (s.setAgeing x).urn = s.urn := rfl
@[simp] theorem State.setAgeing_fab (s : State) (x : Ageing) : (s.setAgeing x).fab = s.fab := rfl
@[simp] theorem State.setAgeing_links (s : State) (x : Ageing) : (s.setAgeing x).links = s.links := rfl
@[simp] theorem State.setAgeing_router (s : State) (x : Ageing) : (s.setAgeing x).router = s.router := rfl
@[simp] theorem State.setAgeing_caddy (s : State) (x : Ageing) : (s.setAgeing x).caddy = s.caddy := rfl
@[simp] theorem State.setAgeing_host (s : State) (x : Ageing) : (s.setAgeing x).host = s.host := rfl
@[simp] theorem State.setAgeing_steps (s : State) (x : Ageing) : (s.setAgeing x).steps = s.steps := rfl
@[simp] theorem State.setAgeing_red (s : State) (x : Ageing) : (s.setAgeing x).red = s.red := rfl
@[simp] theorem State.setAgeing_obj (s : State) (x : Ageing) : (s.setAgeing x).obj = s.obj := rfl
@[simp] theorem State.setAgeing_flash (s : State) (x : Ageing) : (s.setAgeing x).flash = s.flash := rfl
@[simp] theorem State.setAgeing_ageing (s : State) (x : Ageing) : (s.setAgeing x).ageing = x := rfl
@[simp] theorem State.setAgeing_tele (s : State) (x : Ageing) : (s.setAgeing x).tele = s.tele := rfl
@[simp] theorem State.setAgeing_out (s : State) (x : Ageing) : (s.setAgeing x).out = s.out := rfl
@[simp] theorem State.setAgeing_free (s : State) (x : Ageing) : (s.setAgeing x).free = s.free := rfl
@[simp] theorem State.setAgeing_pending (s : State) (x : Ageing) : (s.setAgeing x).pending = s.pending := rfl

@[simp] theorem State.setTele_clk (s : State) (x : Telemetry) : (s.setTele x).clk = s.clk := rfl
@[simp] theorem State.setTele_ft (s : State) (x : Telemetry) : (s.setTele x).ft = s.ft := rfl
@[simp] theorem State.setTele_pins (s : State) (x : Telemetry) : (s.setTele x).pins = s.pins := rfl
@[simp] theorem State.setTele_power (s : State) (x : Telemetry) : (s.setTele x).power = s.power := rfl
@[simp] theorem State.setTele_kettle (s : State) (x : Telemetry) : (s.setTele x).kettle = s.kettle := rfl
@[simp] theorem State.setTele_cores (s : State) (x : Telemetry) : (s.setTele x).cores = s.cores := rfl
@[simp] theorem State.setTele_sched (s : State) (x : Telemetry) : (s.setTele x).sched = s.sched := rfl
@[simp] theorem State.setTele_txe (s : State) (x : Telemetry) : (s.setTele x).txe = s.txe := rfl
@[simp] theorem State.setTele_sync (s : State) (x : Telemetry) : (s.setTele x).sync = s.sync := rfl
@[simp] theorem State.setTele_mem (s : State) (x : Telemetry) : (s.setTele x).mem = s.mem := rfl
@[simp] theorem State.setTele_urn (s : State) (x : Telemetry) : (s.setTele x).urn = s.urn := rfl
@[simp] theorem State.setTele_fab (s : State) (x : Telemetry) : (s.setTele x).fab = s.fab := rfl
@[simp] theorem State.setTele_links (s : State) (x : Telemetry) : (s.setTele x).links = s.links := rfl
@[simp] theorem State.setTele_router (s : State) (x : Telemetry) : (s.setTele x).router = s.router := rfl
@[simp] theorem State.setTele_caddy (s : State) (x : Telemetry) : (s.setTele x).caddy = s.caddy := rfl
@[simp] theorem State.setTele_host (s : State) (x : Telemetry) : (s.setTele x).host = s.host := rfl
@[simp] theorem State.setTele_steps (s : State) (x : Telemetry) : (s.setTele x).steps = s.steps := rfl
@[simp] theorem State.setTele_red (s : State) (x : Telemetry) : (s.setTele x).red = s.red := rfl
@[simp] theorem State.setTele_obj (s : State) (x : Telemetry) : (s.setTele x).obj = s.obj := rfl
@[simp] theorem State.setTele_flash (s : State) (x : Telemetry) : (s.setTele x).flash = s.flash := rfl
@[simp] theorem State.setTele_ageing (s : State) (x : Telemetry) : (s.setTele x).ageing = s.ageing := rfl
@[simp] theorem State.setTele_tele (s : State) (x : Telemetry) : (s.setTele x).tele = x := rfl
@[simp] theorem State.setTele_out (s : State) (x : Telemetry) : (s.setTele x).out = s.out := rfl
@[simp] theorem State.setTele_free (s : State) (x : Telemetry) : (s.setTele x).free = s.free := rfl
@[simp] theorem State.setTele_pending (s : State) (x : Telemetry) : (s.setTele x).pending = s.pending := rfl

@[simp] theorem State.setOut_clk (s : State) (x : Outputs) : (s.setOut x).clk = s.clk := rfl
@[simp] theorem State.setOut_ft (s : State) (x : Outputs) : (s.setOut x).ft = s.ft := rfl
@[simp] theorem State.setOut_pins (s : State) (x : Outputs) : (s.setOut x).pins = s.pins := rfl
@[simp] theorem State.setOut_power (s : State) (x : Outputs) : (s.setOut x).power = s.power := rfl
@[simp] theorem State.setOut_kettle (s : State) (x : Outputs) : (s.setOut x).kettle = s.kettle := rfl
@[simp] theorem State.setOut_cores (s : State) (x : Outputs) : (s.setOut x).cores = s.cores := rfl
@[simp] theorem State.setOut_sched (s : State) (x : Outputs) : (s.setOut x).sched = s.sched := rfl
@[simp] theorem State.setOut_txe (s : State) (x : Outputs) : (s.setOut x).txe = s.txe := rfl
@[simp] theorem State.setOut_sync (s : State) (x : Outputs) : (s.setOut x).sync = s.sync := rfl
@[simp] theorem State.setOut_mem (s : State) (x : Outputs) : (s.setOut x).mem = s.mem := rfl
@[simp] theorem State.setOut_urn (s : State) (x : Outputs) : (s.setOut x).urn = s.urn := rfl
@[simp] theorem State.setOut_fab (s : State) (x : Outputs) : (s.setOut x).fab = s.fab := rfl
@[simp] theorem State.setOut_links (s : State) (x : Outputs) : (s.setOut x).links = s.links := rfl
@[simp] theorem State.setOut_router (s : State) (x : Outputs) : (s.setOut x).router = s.router := rfl
@[simp] theorem State.setOut_caddy (s : State) (x : Outputs) : (s.setOut x).caddy = s.caddy := rfl
@[simp] theorem State.setOut_host (s : State) (x : Outputs) : (s.setOut x).host = s.host := rfl
@[simp] theorem State.setOut_steps (s : State) (x : Outputs) : (s.setOut x).steps = s.steps := rfl
@[simp] theorem State.setOut_red (s : State) (x : Outputs) : (s.setOut x).red = s.red := rfl
@[simp] theorem State.setOut_obj (s : State) (x : Outputs) : (s.setOut x).obj = s.obj := rfl
@[simp] theorem State.setOut_flash (s : State) (x : Outputs) : (s.setOut x).flash = s.flash := rfl
@[simp] theorem State.setOut_ageing (s : State) (x : Outputs) : (s.setOut x).ageing = s.ageing := rfl
@[simp] theorem State.setOut_tele (s : State) (x : Outputs) : (s.setOut x).tele = s.tele := rfl
@[simp] theorem State.setOut_out (s : State) (x : Outputs) : (s.setOut x).out = x := rfl
@[simp] theorem State.setOut_free (s : State) (x : Outputs) : (s.setOut x).free = s.free := rfl
@[simp] theorem State.setOut_pending (s : State) (x : Outputs) : (s.setOut x).pending = s.pending := rfl

@[simp] theorem State.setCore_clk (s : State) (n : Nat) (x : Core) : (s.setCore n x).clk = s.clk := rfl
@[simp] theorem State.setCore_ft (s : State) (n : Nat) (x : Core) : (s.setCore n x).ft = s.ft := rfl
@[simp] theorem State.setCore_pins (s : State) (n : Nat) (x : Core) : (s.setCore n x).pins = s.pins := rfl
@[simp] theorem State.setCore_power (s : State) (n : Nat) (x : Core) : (s.setCore n x).power = s.power := rfl
@[simp] theorem State.setCore_kettle (s : State) (n : Nat) (x : Core) : (s.setCore n x).kettle = s.kettle := rfl
@[simp] theorem State.setCore_cores (s : State) (n : Nat) (x : Core) :
    (s.setCore n x).cores = tset .init s.cores n x := rfl
@[simp] theorem State.setCore_sched (s : State) (n : Nat) (x : Core) : (s.setCore n x).sched = s.sched := rfl
@[simp] theorem State.setCore_txe (s : State) (n : Nat) (x : Core) : (s.setCore n x).txe = s.txe := rfl
@[simp] theorem State.setCore_sync (s : State) (n : Nat) (x : Core) : (s.setCore n x).sync = s.sync := rfl
@[simp] theorem State.setCore_mem (s : State) (n : Nat) (x : Core) : (s.setCore n x).mem = s.mem := rfl
@[simp] theorem State.setCore_urn (s : State) (n : Nat) (x : Core) : (s.setCore n x).urn = s.urn := rfl
@[simp] theorem State.setCore_fab (s : State) (n : Nat) (x : Core) : (s.setCore n x).fab = s.fab := rfl
@[simp] theorem State.setCore_links (s : State) (n : Nat) (x : Core) : (s.setCore n x).links = s.links := rfl
@[simp] theorem State.setCore_router (s : State) (n : Nat) (x : Core) : (s.setCore n x).router = s.router := rfl
@[simp] theorem State.setCore_caddy (s : State) (n : Nat) (x : Core) : (s.setCore n x).caddy = s.caddy := rfl
@[simp] theorem State.setCore_host (s : State) (n : Nat) (x : Core) : (s.setCore n x).host = s.host := rfl
@[simp] theorem State.setCore_steps (s : State) (n : Nat) (x : Core) : (s.setCore n x).steps = s.steps := rfl
@[simp] theorem State.setCore_red (s : State) (n : Nat) (x : Core) : (s.setCore n x).red = s.red := rfl
@[simp] theorem State.setCore_obj (s : State) (n : Nat) (x : Core) : (s.setCore n x).obj = s.obj := rfl
@[simp] theorem State.setCore_flash (s : State) (n : Nat) (x : Core) : (s.setCore n x).flash = s.flash := rfl
@[simp] theorem State.setCore_ageing (s : State) (n : Nat) (x : Core) : (s.setCore n x).ageing = s.ageing := rfl
@[simp] theorem State.setCore_tele (s : State) (n : Nat) (x : Core) : (s.setCore n x).tele = s.tele := rfl
@[simp] theorem State.setCore_out (s : State) (n : Nat) (x : Core) : (s.setCore n x).out = s.out := rfl
@[simp] theorem State.setCore_free (s : State) (n : Nat) (x : Core) : (s.setCore n x).free = s.free := rfl
@[simp] theorem State.setCore_pending (s : State) (n : Nat) (x : Core) : (s.setCore n x).pending = s.pending := rfl

@[simp] theorem State.setLink_clk (s : State) (n : Nat) (x : Link) : (s.setLink n x).clk = s.clk := rfl
@[simp] theorem State.setLink_ft (s : State) (n : Nat) (x : Link) : (s.setLink n x).ft = s.ft := rfl
@[simp] theorem State.setLink_pins (s : State) (n : Nat) (x : Link) : (s.setLink n x).pins = s.pins := rfl
@[simp] theorem State.setLink_power (s : State) (n : Nat) (x : Link) : (s.setLink n x).power = s.power := rfl
@[simp] theorem State.setLink_kettle (s : State) (n : Nat) (x : Link) : (s.setLink n x).kettle = s.kettle := rfl
@[simp] theorem State.setLink_cores (s : State) (n : Nat) (x : Link) : (s.setLink n x).cores = s.cores := rfl
@[simp] theorem State.setLink_sched (s : State) (n : Nat) (x : Link) : (s.setLink n x).sched = s.sched := rfl
@[simp] theorem State.setLink_txe (s : State) (n : Nat) (x : Link) : (s.setLink n x).txe = s.txe := rfl
@[simp] theorem State.setLink_sync (s : State) (n : Nat) (x : Link) : (s.setLink n x).sync = s.sync := rfl
@[simp] theorem State.setLink_mem (s : State) (n : Nat) (x : Link) : (s.setLink n x).mem = s.mem := rfl
@[simp] theorem State.setLink_urn (s : State) (n : Nat) (x : Link) : (s.setLink n x).urn = s.urn := rfl
@[simp] theorem State.setLink_fab (s : State) (n : Nat) (x : Link) : (s.setLink n x).fab = s.fab := rfl
@[simp] theorem State.setLink_links (s : State) (n : Nat) (x : Link) :
    (s.setLink n x).links = tset .init s.links n x := rfl
@[simp] theorem State.setLink_router (s : State) (n : Nat) (x : Link) : (s.setLink n x).router = s.router := rfl
@[simp] theorem State.setLink_caddy (s : State) (n : Nat) (x : Link) : (s.setLink n x).caddy = s.caddy := rfl
@[simp] theorem State.setLink_host (s : State) (n : Nat) (x : Link) : (s.setLink n x).host = s.host := rfl
@[simp] theorem State.setLink_steps (s : State) (n : Nat) (x : Link) : (s.setLink n x).steps = s.steps := rfl
@[simp] theorem State.setLink_red (s : State) (n : Nat) (x : Link) : (s.setLink n x).red = s.red := rfl
@[simp] theorem State.setLink_obj (s : State) (n : Nat) (x : Link) : (s.setLink n x).obj = s.obj := rfl
@[simp] theorem State.setLink_flash (s : State) (n : Nat) (x : Link) : (s.setLink n x).flash = s.flash := rfl
@[simp] theorem State.setLink_ageing (s : State) (n : Nat) (x : Link) : (s.setLink n x).ageing = s.ageing := rfl
@[simp] theorem State.setLink_tele (s : State) (n : Nat) (x : Link) : (s.setLink n x).tele = s.tele := rfl
@[simp] theorem State.setLink_out (s : State) (n : Nat) (x : Link) : (s.setLink n x).out = s.out := rfl
@[simp] theorem State.setLink_free (s : State) (n : Nat) (x : Link) : (s.setLink n x).free = s.free := rfl
@[simp] theorem State.setLink_pending (s : State) (n : Nat) (x : Link) : (s.setLink n x).pending = s.pending := rfl

@[simp] theorem State.setStp_clk (s : State) (n : Nat) (x : StepCtx) : (s.setStp n x).clk = s.clk := rfl
@[simp] theorem State.setStp_ft (s : State) (n : Nat) (x : StepCtx) : (s.setStp n x).ft = s.ft := rfl
@[simp] theorem State.setStp_pins (s : State) (n : Nat) (x : StepCtx) : (s.setStp n x).pins = s.pins := rfl
@[simp] theorem State.setStp_power (s : State) (n : Nat) (x : StepCtx) : (s.setStp n x).power = s.power := rfl
@[simp] theorem State.setStp_kettle (s : State) (n : Nat) (x : StepCtx) : (s.setStp n x).kettle = s.kettle := rfl
@[simp] theorem State.setStp_cores (s : State) (n : Nat) (x : StepCtx) : (s.setStp n x).cores = s.cores := rfl
@[simp] theorem State.setStp_sched (s : State) (n : Nat) (x : StepCtx) : (s.setStp n x).sched = s.sched := rfl
@[simp] theorem State.setStp_txe (s : State) (n : Nat) (x : StepCtx) : (s.setStp n x).txe = s.txe := rfl
@[simp] theorem State.setStp_sync (s : State) (n : Nat) (x : StepCtx) : (s.setStp n x).sync = s.sync := rfl
@[simp] theorem State.setStp_mem (s : State) (n : Nat) (x : StepCtx) : (s.setStp n x).mem = s.mem := rfl
@[simp] theorem State.setStp_urn (s : State) (n : Nat) (x : StepCtx) : (s.setStp n x).urn = s.urn := rfl
@[simp] theorem State.setStp_fab (s : State) (n : Nat) (x : StepCtx) : (s.setStp n x).fab = s.fab := rfl
@[simp] theorem State.setStp_links (s : State) (n : Nat) (x : StepCtx) : (s.setStp n x).links = s.links := rfl
@[simp] theorem State.setStp_router (s : State) (n : Nat) (x : StepCtx) : (s.setStp n x).router = s.router := rfl
@[simp] theorem State.setStp_caddy (s : State) (n : Nat) (x : StepCtx) : (s.setStp n x).caddy = s.caddy := rfl
@[simp] theorem State.setStp_host (s : State) (n : Nat) (x : StepCtx) : (s.setStp n x).host = s.host := rfl
@[simp] theorem State.setStp_steps (s : State) (n : Nat) (x : StepCtx) :
    (s.setStp n x).steps = tset .init s.steps n x := rfl
@[simp] theorem State.setStp_red (s : State) (n : Nat) (x : StepCtx) : (s.setStp n x).red = s.red := rfl
@[simp] theorem State.setStp_obj (s : State) (n : Nat) (x : StepCtx) : (s.setStp n x).obj = s.obj := rfl
@[simp] theorem State.setStp_flash (s : State) (n : Nat) (x : StepCtx) : (s.setStp n x).flash = s.flash := rfl
@[simp] theorem State.setStp_ageing (s : State) (n : Nat) (x : StepCtx) : (s.setStp n x).ageing = s.ageing := rfl
@[simp] theorem State.setStp_tele (s : State) (n : Nat) (x : StepCtx) : (s.setStp n x).tele = s.tele := rfl
@[simp] theorem State.setStp_out (s : State) (n : Nat) (x : StepCtx) : (s.setStp n x).out = s.out := rfl
@[simp] theorem State.setStp_free (s : State) (n : Nat) (x : StepCtx) : (s.setStp n x).free = s.free := rfl
@[simp] theorem State.setStp_pending (s : State) (n : Nat) (x : StepCtx) : (s.setStp n x).pending = s.pending := rfl

@[simp] theorem State.setPage_clk (s : State) (n : Nat) (x : Page) : (s.setPage n x).clk = s.clk := rfl
@[simp] theorem State.setPage_ft (s : State) (n : Nat) (x : Page) : (s.setPage n x).ft = s.ft := rfl
@[simp] theorem State.setPage_pins (s : State) (n : Nat) (x : Page) : (s.setPage n x).pins = s.pins := rfl
@[simp] theorem State.setPage_power (s : State) (n : Nat) (x : Page) : (s.setPage n x).power = s.power := rfl
@[simp] theorem State.setPage_kettle (s : State) (n : Nat) (x : Page) : (s.setPage n x).kettle = s.kettle := rfl
@[simp] theorem State.setPage_cores (s : State) (n : Nat) (x : Page) : (s.setPage n x).cores = s.cores := rfl
@[simp] theorem State.setPage_sched (s : State) (n : Nat) (x : Page) : (s.setPage n x).sched = s.sched := rfl
@[simp] theorem State.setPage_txe (s : State) (n : Nat) (x : Page) : (s.setPage n x).txe = s.txe := rfl
@[simp] theorem State.setPage_sync (s : State) (n : Nat) (x : Page) : (s.setPage n x).sync = s.sync := rfl
@[simp] theorem State.setPage_mem (s : State) (n : Nat) (x : Page) : (s.setPage n x).mem = s.mem := rfl
@[simp] theorem State.setPage_urn (s : State) (n : Nat) (x : Page) : (s.setPage n x).urn = s.urn := rfl
@[simp] theorem State.setPage_fab (s : State) (n : Nat) (x : Page) : (s.setPage n x).fab = s.fab := rfl
@[simp] theorem State.setPage_links (s : State) (n : Nat) (x : Page) : (s.setPage n x).links = s.links := rfl
@[simp] theorem State.setPage_router (s : State) (n : Nat) (x : Page) : (s.setPage n x).router = s.router := rfl
@[simp] theorem State.setPage_caddy (s : State) (n : Nat) (x : Page) : (s.setPage n x).caddy = s.caddy := rfl
@[simp] theorem State.setPage_host (s : State) (n : Nat) (x : Page) :
    (s.setPage n x).host = { s.host with pages := tset .init s.host.pages n x } := rfl
@[simp] theorem State.setPage_steps (s : State) (n : Nat) (x : Page) : (s.setPage n x).steps = s.steps := rfl
@[simp] theorem State.setPage_red (s : State) (n : Nat) (x : Page) : (s.setPage n x).red = s.red := rfl
@[simp] theorem State.setPage_obj (s : State) (n : Nat) (x : Page) : (s.setPage n x).obj = s.obj := rfl
@[simp] theorem State.setPage_flash (s : State) (n : Nat) (x : Page) : (s.setPage n x).flash = s.flash := rfl
@[simp] theorem State.setPage_ageing (s : State) (n : Nat) (x : Page) : (s.setPage n x).ageing = s.ageing := rfl
@[simp] theorem State.setPage_tele (s : State) (n : Nat) (x : Page) : (s.setPage n x).tele = s.tele := rfl
@[simp] theorem State.setPage_out (s : State) (n : Nat) (x : Page) : (s.setPage n x).out = s.out := rfl
@[simp] theorem State.setPage_free (s : State) (n : Nat) (x : Page) : (s.setPage n x).free = s.free := rfl
@[simp] theorem State.setPage_pending (s : State) (n : Nat) (x : Page) : (s.setPage n x).pending = s.pending := rfl

@[simp] theorem State.setMailbox_clk (s : State) (n : Nat) (x : Mailbox) : (s.setMailbox n x).clk = s.clk := rfl
@[simp] theorem State.setMailbox_ft (s : State) (n : Nat) (x : Mailbox) : (s.setMailbox n x).ft = s.ft := rfl
@[simp] theorem State.setMailbox_pins (s : State) (n : Nat) (x : Mailbox) : (s.setMailbox n x).pins = s.pins := rfl
@[simp] theorem State.setMailbox_power (s : State) (n : Nat) (x : Mailbox) : (s.setMailbox n x).power = s.power := rfl
@[simp] theorem State.setMailbox_kettle (s : State) (n : Nat) (x : Mailbox) : (s.setMailbox n x).kettle = s.kettle := rfl
@[simp] theorem State.setMailbox_cores (s : State) (n : Nat) (x : Mailbox) : (s.setMailbox n x).cores = s.cores := rfl
@[simp] theorem State.setMailbox_sched (s : State) (n : Nat) (x : Mailbox) : (s.setMailbox n x).sched = s.sched := rfl
@[simp] theorem State.setMailbox_txe (s : State) (n : Nat) (x : Mailbox) : (s.setMailbox n x).txe = s.txe := rfl
@[simp] theorem State.setMailbox_sync (s : State) (n : Nat) (x : Mailbox) : (s.setMailbox n x).sync = s.sync := rfl
@[simp] theorem State.setMailbox_mem (s : State) (n : Nat) (x : Mailbox) : (s.setMailbox n x).mem = s.mem := rfl
@[simp] theorem State.setMailbox_urn (s : State) (n : Nat) (x : Mailbox) : (s.setMailbox n x).urn = s.urn := rfl
@[simp] theorem State.setMailbox_fab (s : State) (n : Nat) (x : Mailbox) : (s.setMailbox n x).fab = s.fab := rfl
@[simp] theorem State.setMailbox_links (s : State) (n : Nat) (x : Mailbox) : (s.setMailbox n x).links = s.links := rfl
@[simp] theorem State.setMailbox_router (s : State) (n : Nat) (x : Mailbox) : (s.setMailbox n x).router = s.router := rfl
@[simp] theorem State.setMailbox_caddy (s : State) (n : Nat) (x : Mailbox) : (s.setMailbox n x).caddy = s.caddy := rfl
@[simp] theorem State.setMailbox_host (s : State) (n : Nat) (x : Mailbox) :
    (s.setMailbox n x).host = { s.host with mbx := tset .init s.host.mbx n x } := rfl
@[simp] theorem State.setMailbox_steps (s : State) (n : Nat) (x : Mailbox) : (s.setMailbox n x).steps = s.steps := rfl
@[simp] theorem State.setMailbox_red (s : State) (n : Nat) (x : Mailbox) : (s.setMailbox n x).red = s.red := rfl
@[simp] theorem State.setMailbox_obj (s : State) (n : Nat) (x : Mailbox) : (s.setMailbox n x).obj = s.obj := rfl
@[simp] theorem State.setMailbox_flash (s : State) (n : Nat) (x : Mailbox) : (s.setMailbox n x).flash = s.flash := rfl
@[simp] theorem State.setMailbox_ageing (s : State) (n : Nat) (x : Mailbox) : (s.setMailbox n x).ageing = s.ageing := rfl
@[simp] theorem State.setMailbox_tele (s : State) (n : Nat) (x : Mailbox) : (s.setMailbox n x).tele = s.tele := rfl
@[simp] theorem State.setMailbox_out (s : State) (n : Nat) (x : Mailbox) : (s.setMailbox n x).out = s.out := rfl
@[simp] theorem State.setMailbox_free (s : State) (n : Nat) (x : Mailbox) : (s.setMailbox n x).free = s.free := rfl
@[simp] theorem State.setMailbox_pending (s : State) (n : Nat) (x : Mailbox) : (s.setMailbox n x).pending = s.pending := rfl

@[simp] theorem State.setDie_clk (s : State) (n : Nat) (x : Die) : (s.setDie n x).clk = s.clk := rfl
@[simp] theorem State.setDie_ft (s : State) (n : Nat) (x : Die) : (s.setDie n x).ft = s.ft := rfl
@[simp] theorem State.setDie_pins (s : State) (n : Nat) (x : Die) : (s.setDie n x).pins = s.pins := rfl
@[simp] theorem State.setDie_power (s : State) (n : Nat) (x : Die) : (s.setDie n x).power = s.power := rfl
@[simp] theorem State.setDie_kettle (s : State) (n : Nat) (x : Die) :
    (s.setDie n x).kettle = { s.kettle with dies := tset .init s.kettle.dies n x } := rfl
@[simp] theorem State.setDie_cores (s : State) (n : Nat) (x : Die) : (s.setDie n x).cores = s.cores := rfl
@[simp] theorem State.setDie_sched (s : State) (n : Nat) (x : Die) : (s.setDie n x).sched = s.sched := rfl
@[simp] theorem State.setDie_txe (s : State) (n : Nat) (x : Die) : (s.setDie n x).txe = s.txe := rfl
@[simp] theorem State.setDie_sync (s : State) (n : Nat) (x : Die) : (s.setDie n x).sync = s.sync := rfl
@[simp] theorem State.setDie_mem (s : State) (n : Nat) (x : Die) : (s.setDie n x).mem = s.mem := rfl
@[simp] theorem State.setDie_urn (s : State) (n : Nat) (x : Die) : (s.setDie n x).urn = s.urn := rfl
@[simp] theorem State.setDie_fab (s : State) (n : Nat) (x : Die) : (s.setDie n x).fab = s.fab := rfl
@[simp] theorem State.setDie_links (s : State) (n : Nat) (x : Die) : (s.setDie n x).links = s.links := rfl
@[simp] theorem State.setDie_router (s : State) (n : Nat) (x : Die) : (s.setDie n x).router = s.router := rfl
@[simp] theorem State.setDie_caddy (s : State) (n : Nat) (x : Die) : (s.setDie n x).caddy = s.caddy := rfl
@[simp] theorem State.setDie_host (s : State) (n : Nat) (x : Die) : (s.setDie n x).host = s.host := rfl
@[simp] theorem State.setDie_steps (s : State) (n : Nat) (x : Die) : (s.setDie n x).steps = s.steps := rfl
@[simp] theorem State.setDie_red (s : State) (n : Nat) (x : Die) : (s.setDie n x).red = s.red := rfl
@[simp] theorem State.setDie_obj (s : State) (n : Nat) (x : Die) : (s.setDie n x).obj = s.obj := rfl
@[simp] theorem State.setDie_flash (s : State) (n : Nat) (x : Die) : (s.setDie n x).flash = s.flash := rfl
@[simp] theorem State.setDie_ageing (s : State) (n : Nat) (x : Die) : (s.setDie n x).ageing = s.ageing := rfl
@[simp] theorem State.setDie_tele (s : State) (n : Nat) (x : Die) : (s.setDie n x).tele = s.tele := rfl
@[simp] theorem State.setDie_out (s : State) (n : Nat) (x : Die) : (s.setDie n x).out = s.out := rfl
@[simp] theorem State.setDie_free (s : State) (n : Nat) (x : Die) : (s.setDie n x).free = s.free := rfl
@[simp] theorem State.setDie_pending (s : State) (n : Nat) (x : Die) : (s.setDie n x).pending = s.pending := rfl

@[simp] theorem State.setRedc_clk (s : State) (n : Nat) (x : RedCtx) : (s.setRedc n x).clk = s.clk := rfl
@[simp] theorem State.setRedc_ft (s : State) (n : Nat) (x : RedCtx) : (s.setRedc n x).ft = s.ft := rfl
@[simp] theorem State.setRedc_pins (s : State) (n : Nat) (x : RedCtx) : (s.setRedc n x).pins = s.pins := rfl
@[simp] theorem State.setRedc_power (s : State) (n : Nat) (x : RedCtx) : (s.setRedc n x).power = s.power := rfl
@[simp] theorem State.setRedc_kettle (s : State) (n : Nat) (x : RedCtx) : (s.setRedc n x).kettle = s.kettle := rfl
@[simp] theorem State.setRedc_cores (s : State) (n : Nat) (x : RedCtx) : (s.setRedc n x).cores = s.cores := rfl
@[simp] theorem State.setRedc_sched (s : State) (n : Nat) (x : RedCtx) : (s.setRedc n x).sched = s.sched := rfl
@[simp] theorem State.setRedc_txe (s : State) (n : Nat) (x : RedCtx) : (s.setRedc n x).txe = s.txe := rfl
@[simp] theorem State.setRedc_sync (s : State) (n : Nat) (x : RedCtx) : (s.setRedc n x).sync = s.sync := rfl
@[simp] theorem State.setRedc_mem (s : State) (n : Nat) (x : RedCtx) : (s.setRedc n x).mem = s.mem := rfl
@[simp] theorem State.setRedc_urn (s : State) (n : Nat) (x : RedCtx) : (s.setRedc n x).urn = s.urn := rfl
@[simp] theorem State.setRedc_fab (s : State) (n : Nat) (x : RedCtx) : (s.setRedc n x).fab = s.fab := rfl
@[simp] theorem State.setRedc_links (s : State) (n : Nat) (x : RedCtx) : (s.setRedc n x).links = s.links := rfl
@[simp] theorem State.setRedc_router (s : State) (n : Nat) (x : RedCtx) : (s.setRedc n x).router = s.router := rfl
@[simp] theorem State.setRedc_caddy (s : State) (n : Nat) (x : RedCtx) : (s.setRedc n x).caddy = s.caddy := rfl
@[simp] theorem State.setRedc_host (s : State) (n : Nat) (x : RedCtx) : (s.setRedc n x).host = s.host := rfl
@[simp] theorem State.setRedc_steps (s : State) (n : Nat) (x : RedCtx) : (s.setRedc n x).steps = s.steps := rfl
@[simp] theorem State.setRedc_red (s : State) (n : Nat) (x : RedCtx) :
    (s.setRedc n x).red = { s.red with ctx := tset .init s.red.ctx n x } := rfl
@[simp] theorem State.setRedc_obj (s : State) (n : Nat) (x : RedCtx) : (s.setRedc n x).obj = s.obj := rfl
@[simp] theorem State.setRedc_flash (s : State) (n : Nat) (x : RedCtx) : (s.setRedc n x).flash = s.flash := rfl
@[simp] theorem State.setRedc_ageing (s : State) (n : Nat) (x : RedCtx) : (s.setRedc n x).ageing = s.ageing := rfl
@[simp] theorem State.setRedc_tele (s : State) (n : Nat) (x : RedCtx) : (s.setRedc n x).tele = s.tele := rfl
@[simp] theorem State.setRedc_out (s : State) (n : Nat) (x : RedCtx) : (s.setRedc n x).out = s.out := rfl
@[simp] theorem State.setRedc_free (s : State) (n : Nat) (x : RedCtx) : (s.setRedc n x).free = s.free := rfl
@[simp] theorem State.setRedc_pending (s : State) (n : Nat) (x : RedCtx) : (s.setRedc n x).pending = s.pending := rfl

@[simp] theorem State.setPerm_clk (s : State) (n : Nat) (x : Perm) : (s.setPerm n x).clk = s.clk := rfl
@[simp] theorem State.setPerm_ft (s : State) (n : Nat) (x : Perm) : (s.setPerm n x).ft = s.ft := rfl
@[simp] theorem State.setPerm_pins (s : State) (n : Nat) (x : Perm) : (s.setPerm n x).pins = s.pins := rfl
@[simp] theorem State.setPerm_power (s : State) (n : Nat) (x : Perm) : (s.setPerm n x).power = s.power := rfl
@[simp] theorem State.setPerm_kettle (s : State) (n : Nat) (x : Perm) : (s.setPerm n x).kettle = s.kettle := rfl
@[simp] theorem State.setPerm_cores (s : State) (n : Nat) (x : Perm) : (s.setPerm n x).cores = s.cores := rfl
@[simp] theorem State.setPerm_sched (s : State) (n : Nat) (x : Perm) : (s.setPerm n x).sched = s.sched := rfl
@[simp] theorem State.setPerm_txe (s : State) (n : Nat) (x : Perm) : (s.setPerm n x).txe = s.txe := rfl
@[simp] theorem State.setPerm_sync (s : State) (n : Nat) (x : Perm) : (s.setPerm n x).sync = s.sync := rfl
@[simp] theorem State.setPerm_mem (s : State) (n : Nat) (x : Perm) : (s.setPerm n x).mem = s.mem := rfl
@[simp] theorem State.setPerm_urn (s : State) (n : Nat) (x : Perm) : (s.setPerm n x).urn = s.urn := rfl
@[simp] theorem State.setPerm_fab (s : State) (n : Nat) (x : Perm) : (s.setPerm n x).fab = s.fab := rfl
@[simp] theorem State.setPerm_links (s : State) (n : Nat) (x : Perm) : (s.setPerm n x).links = s.links := rfl
@[simp] theorem State.setPerm_router (s : State) (n : Nat) (x : Perm) : (s.setPerm n x).router = s.router := rfl
@[simp] theorem State.setPerm_caddy (s : State) (n : Nat) (x : Perm) : (s.setPerm n x).caddy = s.caddy := rfl
@[simp] theorem State.setPerm_host (s : State) (n : Nat) (x : Perm) : (s.setPerm n x).host = s.host := rfl
@[simp] theorem State.setPerm_steps (s : State) (n : Nat) (x : Perm) : (s.setPerm n x).steps = s.steps := rfl
@[simp] theorem State.setPerm_red (s : State) (n : Nat) (x : Perm) :
    (s.setPerm n x).red = { s.red with perm := tset .init s.red.perm n x } := rfl
@[simp] theorem State.setPerm_obj (s : State) (n : Nat) (x : Perm) : (s.setPerm n x).obj = s.obj := rfl
@[simp] theorem State.setPerm_flash (s : State) (n : Nat) (x : Perm) : (s.setPerm n x).flash = s.flash := rfl
@[simp] theorem State.setPerm_ageing (s : State) (n : Nat) (x : Perm) : (s.setPerm n x).ageing = s.ageing := rfl
@[simp] theorem State.setPerm_tele (s : State) (n : Nat) (x : Perm) : (s.setPerm n x).tele = s.tele := rfl
@[simp] theorem State.setPerm_out (s : State) (n : Nat) (x : Perm) : (s.setPerm n x).out = s.out := rfl
@[simp] theorem State.setPerm_free (s : State) (n : Nat) (x : Perm) : (s.setPerm n x).free = s.free := rfl
@[simp] theorem State.setPerm_pending (s : State) (n : Nat) (x : Perm) : (s.setPerm n x).pending = s.pending := rfl

@[simp] theorem State.setAge_clk (s : State) (n : Nat) (x : AgeUnit) : (s.setAge n x).clk = s.clk := rfl
@[simp] theorem State.setAge_ft (s : State) (n : Nat) (x : AgeUnit) : (s.setAge n x).ft = s.ft := rfl
@[simp] theorem State.setAge_pins (s : State) (n : Nat) (x : AgeUnit) : (s.setAge n x).pins = s.pins := rfl
@[simp] theorem State.setAge_power (s : State) (n : Nat) (x : AgeUnit) : (s.setAge n x).power = s.power := rfl
@[simp] theorem State.setAge_kettle (s : State) (n : Nat) (x : AgeUnit) : (s.setAge n x).kettle = s.kettle := rfl
@[simp] theorem State.setAge_cores (s : State) (n : Nat) (x : AgeUnit) : (s.setAge n x).cores = s.cores := rfl
@[simp] theorem State.setAge_sched (s : State) (n : Nat) (x : AgeUnit) : (s.setAge n x).sched = s.sched := rfl
@[simp] theorem State.setAge_txe (s : State) (n : Nat) (x : AgeUnit) : (s.setAge n x).txe = s.txe := rfl
@[simp] theorem State.setAge_sync (s : State) (n : Nat) (x : AgeUnit) : (s.setAge n x).sync = s.sync := rfl
@[simp] theorem State.setAge_mem (s : State) (n : Nat) (x : AgeUnit) : (s.setAge n x).mem = s.mem := rfl
@[simp] theorem State.setAge_urn (s : State) (n : Nat) (x : AgeUnit) : (s.setAge n x).urn = s.urn := rfl
@[simp] theorem State.setAge_fab (s : State) (n : Nat) (x : AgeUnit) : (s.setAge n x).fab = s.fab := rfl
@[simp] theorem State.setAge_links (s : State) (n : Nat) (x : AgeUnit) : (s.setAge n x).links = s.links := rfl
@[simp] theorem State.setAge_router (s : State) (n : Nat) (x : AgeUnit) : (s.setAge n x).router = s.router := rfl
@[simp] theorem State.setAge_caddy (s : State) (n : Nat) (x : AgeUnit) : (s.setAge n x).caddy = s.caddy := rfl
@[simp] theorem State.setAge_host (s : State) (n : Nat) (x : AgeUnit) : (s.setAge n x).host = s.host := rfl
@[simp] theorem State.setAge_steps (s : State) (n : Nat) (x : AgeUnit) : (s.setAge n x).steps = s.steps := rfl
@[simp] theorem State.setAge_red (s : State) (n : Nat) (x : AgeUnit) : (s.setAge n x).red = s.red := rfl
@[simp] theorem State.setAge_obj (s : State) (n : Nat) (x : AgeUnit) : (s.setAge n x).obj = s.obj := rfl
@[simp] theorem State.setAge_flash (s : State) (n : Nat) (x : AgeUnit) : (s.setAge n x).flash = s.flash := rfl
@[simp] theorem State.setAge_ageing (s : State) (n : Nat) (x : AgeUnit) :
    (s.setAge n x).ageing = { s.ageing with units := tset .init s.ageing.units n x } := rfl
@[simp] theorem State.setAge_tele (s : State) (n : Nat) (x : AgeUnit) : (s.setAge n x).tele = s.tele := rfl
@[simp] theorem State.setAge_out (s : State) (n : Nat) (x : AgeUnit) : (s.setAge n x).out = s.out := rfl
@[simp] theorem State.setAge_free (s : State) (n : Nat) (x : AgeUnit) : (s.setAge n x).free = s.free := rfl
@[simp] theorem State.setAge_pending (s : State) (n : Nat) (x : AgeUnit) : (s.setAge n x).pending = s.pending := rfl

@[simp] theorem State.setDieList_clk (s : State) (n : Nat) (x : List Entry) : (s.setDieList n x).clk = s.clk := rfl
@[simp] theorem State.setDieList_ft (s : State) (n : Nat) (x : List Entry) : (s.setDieList n x).ft = s.ft := rfl
@[simp] theorem State.setDieList_pins (s : State) (n : Nat) (x : List Entry) : (s.setDieList n x).pins = s.pins := rfl
@[simp] theorem State.setDieList_power (s : State) (n : Nat) (x : List Entry) : (s.setDieList n x).power = s.power := rfl
@[simp] theorem State.setDieList_kettle (s : State) (n : Nat) (x : List Entry) : (s.setDieList n x).kettle = s.kettle := rfl
@[simp] theorem State.setDieList_cores (s : State) (n : Nat) (x : List Entry) : (s.setDieList n x).cores = s.cores := rfl
@[simp] theorem State.setDieList_sched (s : State) (n : Nat) (x : List Entry) :
    (s.setDieList n x).sched = { s.sched with lists := tset [] s.sched.lists n x } := rfl
@[simp] theorem State.setDieList_txe (s : State) (n : Nat) (x : List Entry) : (s.setDieList n x).txe = s.txe := rfl
@[simp] theorem State.setDieList_sync (s : State) (n : Nat) (x : List Entry) : (s.setDieList n x).sync = s.sync := rfl
@[simp] theorem State.setDieList_mem (s : State) (n : Nat) (x : List Entry) : (s.setDieList n x).mem = s.mem := rfl
@[simp] theorem State.setDieList_urn (s : State) (n : Nat) (x : List Entry) : (s.setDieList n x).urn = s.urn := rfl
@[simp] theorem State.setDieList_fab (s : State) (n : Nat) (x : List Entry) : (s.setDieList n x).fab = s.fab := rfl
@[simp] theorem State.setDieList_links (s : State) (n : Nat) (x : List Entry) : (s.setDieList n x).links = s.links := rfl
@[simp] theorem State.setDieList_router (s : State) (n : Nat) (x : List Entry) : (s.setDieList n x).router = s.router := rfl
@[simp] theorem State.setDieList_caddy (s : State) (n : Nat) (x : List Entry) : (s.setDieList n x).caddy = s.caddy := rfl
@[simp] theorem State.setDieList_host (s : State) (n : Nat) (x : List Entry) : (s.setDieList n x).host = s.host := rfl
@[simp] theorem State.setDieList_steps (s : State) (n : Nat) (x : List Entry) : (s.setDieList n x).steps = s.steps := rfl
@[simp] theorem State.setDieList_red (s : State) (n : Nat) (x : List Entry) : (s.setDieList n x).red = s.red := rfl
@[simp] theorem State.setDieList_obj (s : State) (n : Nat) (x : List Entry) : (s.setDieList n x).obj = s.obj := rfl
@[simp] theorem State.setDieList_flash (s : State) (n : Nat) (x : List Entry) : (s.setDieList n x).flash = s.flash := rfl
@[simp] theorem State.setDieList_ageing (s : State) (n : Nat) (x : List Entry) : (s.setDieList n x).ageing = s.ageing := rfl
@[simp] theorem State.setDieList_tele (s : State) (n : Nat) (x : List Entry) : (s.setDieList n x).tele = s.tele := rfl
@[simp] theorem State.setDieList_out (s : State) (n : Nat) (x : List Entry) : (s.setDieList n x).out = s.out := rfl
@[simp] theorem State.setDieList_free (s : State) (n : Nat) (x : List Entry) : (s.setDieList n x).free = s.free := rfl
@[simp] theorem State.setDieList_pending (s : State) (n : Nat) (x : List Entry) : (s.setDieList n x).pending = s.pending := rfl

@[simp] theorem State.setCtr_clk (s : State) (n : Nat) (x : Nat) : (s.setCtr n x).clk = s.clk := rfl
@[simp] theorem State.setCtr_ft (s : State) (n : Nat) (x : Nat) : (s.setCtr n x).ft = s.ft := rfl
@[simp] theorem State.setCtr_pins (s : State) (n : Nat) (x : Nat) : (s.setCtr n x).pins = s.pins := rfl
@[simp] theorem State.setCtr_power (s : State) (n : Nat) (x : Nat) : (s.setCtr n x).power = s.power := rfl
@[simp] theorem State.setCtr_kettle (s : State) (n : Nat) (x : Nat) : (s.setCtr n x).kettle = s.kettle := rfl
@[simp] theorem State.setCtr_cores (s : State) (n : Nat) (x : Nat) : (s.setCtr n x).cores = s.cores := rfl
@[simp] theorem State.setCtr_sched (s : State) (n : Nat) (x : Nat) : (s.setCtr n x).sched = s.sched := rfl
@[simp] theorem State.setCtr_txe (s : State) (n : Nat) (x : Nat) : (s.setCtr n x).txe = s.txe := rfl
@[simp] theorem State.setCtr_sync (s : State) (n : Nat) (x : Nat) :
    (s.setCtr n x).sync = { (if s.ctr n = x then s.sync else s.sync.noted n) with ctr := tset 0 s.sync.ctr n x } := rfl
@[simp] theorem State.setCtr_mem (s : State) (n : Nat) (x : Nat) : (s.setCtr n x).mem = s.mem := rfl
@[simp] theorem State.setCtr_urn (s : State) (n : Nat) (x : Nat) : (s.setCtr n x).urn = s.urn := rfl
@[simp] theorem State.setCtr_fab (s : State) (n : Nat) (x : Nat) : (s.setCtr n x).fab = s.fab := rfl
@[simp] theorem State.setCtr_links (s : State) (n : Nat) (x : Nat) : (s.setCtr n x).links = s.links := rfl
@[simp] theorem State.setCtr_router (s : State) (n : Nat) (x : Nat) : (s.setCtr n x).router = s.router := rfl
@[simp] theorem State.setCtr_caddy (s : State) (n : Nat) (x : Nat) : (s.setCtr n x).caddy = s.caddy := rfl
@[simp] theorem State.setCtr_host (s : State) (n : Nat) (x : Nat) : (s.setCtr n x).host = s.host := rfl
@[simp] theorem State.setCtr_steps (s : State) (n : Nat) (x : Nat) : (s.setCtr n x).steps = s.steps := rfl
@[simp] theorem State.setCtr_red (s : State) (n : Nat) (x : Nat) : (s.setCtr n x).red = s.red := rfl
@[simp] theorem State.setCtr_obj (s : State) (n : Nat) (x : Nat) : (s.setCtr n x).obj = s.obj := rfl
@[simp] theorem State.setCtr_flash (s : State) (n : Nat) (x : Nat) : (s.setCtr n x).flash = s.flash := rfl
@[simp] theorem State.setCtr_ageing (s : State) (n : Nat) (x : Nat) : (s.setCtr n x).ageing = s.ageing := rfl
@[simp] theorem State.setCtr_tele (s : State) (n : Nat) (x : Nat) : (s.setCtr n x).tele = s.tele := rfl
@[simp] theorem State.setCtr_out (s : State) (n : Nat) (x : Nat) : (s.setCtr n x).out = s.out := rfl
@[simp] theorem State.setCtr_free (s : State) (n : Nat) (x : Nat) : (s.setCtr n x).free = s.free := rfl
@[simp] theorem State.setCtr_pending (s : State) (n : Nat) (x : Nat) : (s.setCtr n x).pending = s.pending := rfl

@[simp] theorem State.setGf_clk (s : State) (n : Nat) (x : GfState) : (s.setGf n x).clk = s.clk := rfl
@[simp] theorem State.setGf_ft (s : State) (n : Nat) (x : GfState) : (s.setGf n x).ft = s.ft := rfl
@[simp] theorem State.setGf_pins (s : State) (n : Nat) (x : GfState) : (s.setGf n x).pins = s.pins := rfl
@[simp] theorem State.setGf_power (s : State) (n : Nat) (x : GfState) : (s.setGf n x).power = s.power := rfl
@[simp] theorem State.setGf_kettle (s : State) (n : Nat) (x : GfState) : (s.setGf n x).kettle = s.kettle := rfl
@[simp] theorem State.setGf_cores (s : State) (n : Nat) (x : GfState) : (s.setGf n x).cores = s.cores := rfl
@[simp] theorem State.setGf_sched (s : State) (n : Nat) (x : GfState) : (s.setGf n x).sched = s.sched := rfl
@[simp] theorem State.setGf_txe (s : State) (n : Nat) (x : GfState) : (s.setGf n x).txe = s.txe := rfl
@[simp] theorem State.setGf_sync (s : State) (n : Nat) (x : GfState) : (s.setGf n x).sync = s.sync := rfl
@[simp] theorem State.setGf_mem (s : State) (n : Nat) (x : GfState) : (s.setGf n x).mem = s.mem := rfl
@[simp] theorem State.setGf_urn (s : State) (n : Nat) (x : GfState) : (s.setGf n x).urn = s.urn := rfl
@[simp] theorem State.setGf_fab (s : State) (n : Nat) (x : GfState) : (s.setGf n x).fab = s.fab := rfl
@[simp] theorem State.setGf_links (s : State) (n : Nat) (x : GfState) : (s.setGf n x).links = s.links := rfl
@[simp] theorem State.setGf_router (s : State) (n : Nat) (x : GfState) : (s.setGf n x).router = s.router := rfl
@[simp] theorem State.setGf_caddy (s : State) (n : Nat) (x : GfState) : (s.setGf n x).caddy = s.caddy := rfl
@[simp] theorem State.setGf_host (s : State) (n : Nat) (x : GfState) : (s.setGf n x).host = s.host := rfl
@[simp] theorem State.setGf_steps (s : State) (n : Nat) (x : GfState) : (s.setGf n x).steps = s.steps := rfl
@[simp] theorem State.setGf_red (s : State) (n : Nat) (x : GfState) : (s.setGf n x).red = s.red := rfl
@[simp] theorem State.setGf_obj (s : State) (n : Nat) (x : GfState) :
    (s.setGf n x).obj = { s.obj with gf := tset .init s.obj.gf n x } := rfl
@[simp] theorem State.setGf_flash (s : State) (n : Nat) (x : GfState) : (s.setGf n x).flash = s.flash := rfl
@[simp] theorem State.setGf_ageing (s : State) (n : Nat) (x : GfState) : (s.setGf n x).ageing = s.ageing := rfl
@[simp] theorem State.setGf_tele (s : State) (n : Nat) (x : GfState) : (s.setGf n x).tele = s.tele := rfl
@[simp] theorem State.setGf_out (s : State) (n : Nat) (x : GfState) : (s.setGf n x).out = s.out := rfl
@[simp] theorem State.setGf_free (s : State) (n : Nat) (x : GfState) : (s.setGf n x).free = s.free := rfl
@[simp] theorem State.setGf_pending (s : State) (n : Nat) (x : GfState) : (s.setGf n x).pending = s.pending := rfl

@[simp] theorem State.inject_clk (s : State) (n : Nat) (x : Packet) : (s.inject n x).clk = s.clk := rfl
@[simp] theorem State.inject_ft (s : State) (n : Nat) (x : Packet) : (s.inject n x).ft = s.ft := rfl
@[simp] theorem State.inject_pins (s : State) (n : Nat) (x : Packet) : (s.inject n x).pins = s.pins := rfl
@[simp] theorem State.inject_power (s : State) (n : Nat) (x : Packet) : (s.inject n x).power = s.power := rfl
@[simp] theorem State.inject_kettle (s : State) (n : Nat) (x : Packet) : (s.inject n x).kettle = s.kettle := rfl
@[simp] theorem State.inject_cores (s : State) (n : Nat) (x : Packet) : (s.inject n x).cores = s.cores := rfl
@[simp] theorem State.inject_sched (s : State) (n : Nat) (x : Packet) : (s.inject n x).sched = s.sched := rfl
@[simp] theorem State.inject_txe (s : State) (n : Nat) (x : Packet) : (s.inject n x).txe = s.txe := rfl
@[simp] theorem State.inject_sync (s : State) (n : Nat) (x : Packet) : (s.inject n x).sync = s.sync := rfl
@[simp] theorem State.inject_mem (s : State) (n : Nat) (x : Packet) : (s.inject n x).mem = s.mem := rfl
@[simp] theorem State.inject_urn (s : State) (n : Nat) (x : Packet) : (s.inject n x).urn = s.urn := rfl
@[simp] theorem State.inject_fab (s : State) (n : Nat) (x : Packet) : (s.inject n x).fab = s.fab := rfl
@[simp] theorem State.inject_links (s : State) (n : Nat) (x : Packet) : (s.inject n x).links = s.links := rfl
@[simp] theorem State.inject_router (s : State) (n : Nat) (x : Packet) :
    (s.inject n x).router = { s.router with inj := tset [] s.router.inj n (tget [] s.router.inj n ++ [x]) } := rfl
@[simp] theorem State.inject_caddy (s : State) (n : Nat) (x : Packet) : (s.inject n x).caddy = s.caddy := rfl
@[simp] theorem State.inject_host (s : State) (n : Nat) (x : Packet) : (s.inject n x).host = s.host := rfl
@[simp] theorem State.inject_steps (s : State) (n : Nat) (x : Packet) : (s.inject n x).steps = s.steps := rfl
@[simp] theorem State.inject_red (s : State) (n : Nat) (x : Packet) : (s.inject n x).red = s.red := rfl
@[simp] theorem State.inject_obj (s : State) (n : Nat) (x : Packet) : (s.inject n x).obj = s.obj := rfl
@[simp] theorem State.inject_flash (s : State) (n : Nat) (x : Packet) : (s.inject n x).flash = s.flash := rfl
@[simp] theorem State.inject_ageing (s : State) (n : Nat) (x : Packet) : (s.inject n x).ageing = s.ageing := rfl
@[simp] theorem State.inject_tele (s : State) (n : Nat) (x : Packet) : (s.inject n x).tele = s.tele := rfl
@[simp] theorem State.inject_out (s : State) (n : Nat) (x : Packet) : (s.inject n x).out = s.out := rfl
@[simp] theorem State.inject_free (s : State) (n : Nat) (x : Packet) : (s.inject n x).free = s.free := rfl
@[simp] theorem State.inject_pending (s : State) (n : Nat) (x : Packet) : (s.inject n x).pending = s.pending := rfl

@[simp] theorem State.taken_clk (s : State) (p : Packet) : (s.taken p).clk = s.clk := rfl
@[simp] theorem State.taken_ft (s : State) (p : Packet) : (s.taken p).ft = s.ft := rfl
@[simp] theorem State.taken_pins (s : State) (p : Packet) : (s.taken p).pins = s.pins := rfl
@[simp] theorem State.taken_power (s : State) (p : Packet) : (s.taken p).power = s.power := rfl
@[simp] theorem State.taken_kettle (s : State) (p : Packet) : (s.taken p).kettle = s.kettle := rfl
@[simp] theorem State.taken_cores (s : State) (p : Packet) : (s.taken p).cores = s.cores := rfl
@[simp] theorem State.taken_sched (s : State) (p : Packet) : (s.taken p).sched = s.sched := rfl
@[simp] theorem State.taken_txe (s : State) (p : Packet) : (s.taken p).txe = s.txe := rfl
@[simp] theorem State.taken_sync (s : State) (p : Packet) : (s.taken p).sync = s.sync := rfl
@[simp] theorem State.taken_mem (s : State) (p : Packet) : (s.taken p).mem = s.mem := rfl
@[simp] theorem State.taken_urn (s : State) (p : Packet) : (s.taken p).urn = s.urn := rfl
@[simp] theorem State.taken_fab (s : State) (p : Packet) : (s.taken p).fab = s.fab := rfl
@[simp] theorem State.taken_links (s : State) (p : Packet) : (s.taken p).links = s.links := rfl
@[simp] theorem State.taken_router (s : State) (p : Packet) :
    (s.taken p).router = { s.router with delivered := dropFirst (· == p) s.router.delivered } := rfl
@[simp] theorem State.taken_caddy (s : State) (p : Packet) : (s.taken p).caddy = s.caddy := rfl
@[simp] theorem State.taken_host (s : State) (p : Packet) : (s.taken p).host = s.host := rfl
@[simp] theorem State.taken_steps (s : State) (p : Packet) : (s.taken p).steps = s.steps := rfl
@[simp] theorem State.taken_red (s : State) (p : Packet) : (s.taken p).red = s.red := rfl
@[simp] theorem State.taken_obj (s : State) (p : Packet) : (s.taken p).obj = s.obj := rfl
@[simp] theorem State.taken_flash (s : State) (p : Packet) : (s.taken p).flash = s.flash := rfl
@[simp] theorem State.taken_ageing (s : State) (p : Packet) : (s.taken p).ageing = s.ageing := rfl
@[simp] theorem State.taken_tele (s : State) (p : Packet) : (s.taken p).tele = s.tele := rfl
@[simp] theorem State.taken_out (s : State) (p : Packet) : (s.taken p).out = s.out := rfl
@[simp] theorem State.taken_free (s : State) (p : Packet) : (s.taken p).free = s.free := rfl
@[simp] theorem State.taken_pending (s : State) (p : Packet) : (s.taken p).pending = s.pending := rfl

@[simp] theorem State.msi_clk (s : State) (fn vec : Nat) : (s.msi fn vec).clk = s.clk := rfl
@[simp] theorem State.msi_ft (s : State) (fn vec : Nat) : (s.msi fn vec).ft = s.ft := rfl
@[simp] theorem State.msi_pins (s : State) (fn vec : Nat) : (s.msi fn vec).pins = s.pins := rfl
@[simp] theorem State.msi_power (s : State) (fn vec : Nat) : (s.msi fn vec).power = s.power := rfl
@[simp] theorem State.msi_kettle (s : State) (fn vec : Nat) : (s.msi fn vec).kettle = s.kettle := rfl
@[simp] theorem State.msi_cores (s : State) (fn vec : Nat) : (s.msi fn vec).cores = s.cores := rfl
@[simp] theorem State.msi_sched (s : State) (fn vec : Nat) : (s.msi fn vec).sched = s.sched := rfl
@[simp] theorem State.msi_txe (s : State) (fn vec : Nat) : (s.msi fn vec).txe = s.txe := rfl
@[simp] theorem State.msi_sync (s : State) (fn vec : Nat) : (s.msi fn vec).sync = s.sync := rfl
@[simp] theorem State.msi_mem (s : State) (fn vec : Nat) : (s.msi fn vec).mem = s.mem := rfl
@[simp] theorem State.msi_urn (s : State) (fn vec : Nat) : (s.msi fn vec).urn = s.urn := rfl
@[simp] theorem State.msi_fab (s : State) (fn vec : Nat) : (s.msi fn vec).fab = s.fab := rfl
@[simp] theorem State.msi_links (s : State) (fn vec : Nat) : (s.msi fn vec).links = s.links := rfl
@[simp] theorem State.msi_router (s : State) (fn vec : Nat) : (s.msi fn vec).router = s.router := rfl
@[simp] theorem State.msi_caddy (s : State) (fn vec : Nat) : (s.msi fn vec).caddy = s.caddy := rfl
@[simp] theorem State.msi_host (s : State) (fn vec : Nat) : (s.msi fn vec).host = s.host := rfl
@[simp] theorem State.msi_steps (s : State) (fn vec : Nat) : (s.msi fn vec).steps = s.steps := rfl
@[simp] theorem State.msi_red (s : State) (fn vec : Nat) : (s.msi fn vec).red = s.red := rfl
@[simp] theorem State.msi_obj (s : State) (fn vec : Nat) : (s.msi fn vec).obj = s.obj := rfl
@[simp] theorem State.msi_flash (s : State) (fn vec : Nat) : (s.msi fn vec).flash = s.flash := rfl
@[simp] theorem State.msi_ageing (s : State) (fn vec : Nat) : (s.msi fn vec).ageing = s.ageing := rfl
@[simp] theorem State.msi_tele (s : State) (fn vec : Nat) : (s.msi fn vec).tele = s.tele := rfl
@[simp] theorem State.msi_out (s : State) (fn vec : Nat) : (s.msi fn vec).out = { s.out with msi := s.out.msi ++ [(fn, vec)] } := rfl
@[simp] theorem State.msi_free (s : State) (fn vec : Nat) : (s.msi fn vec).free = s.free := rfl
@[simp] theorem State.msi_pending (s : State) (fn vec : Nat) : (s.msi fn vec).pending = s.pending := rfl

/-! An update of one unit in terms of its replacement. -/

@[simp] theorem State.modCore_eq (s : State) (n : Nat) (f : Core → Core) : s.modCore n f = s.setCore n (f (s.core n)) := rfl
@[simp] theorem State.modLink_eq (s : State) (n : Nat) (f : Link → Link) : s.modLink n f = s.setLink n (f (s.link n)) := rfl
@[simp] theorem State.modStp_eq (s : State) (n : Nat) (f : StepCtx → StepCtx) : s.modStp n f = s.setStp n (f (s.stp n)) := rfl
@[simp] theorem State.modPage_eq (s : State) (n : Nat) (f : Page → Page) : s.modPage n f = s.setPage n (f (s.page n)) := rfl
@[simp] theorem State.modDie_eq (s : State) (n : Nat) (f : Die → Die) : s.modDie n f = s.setDie n (f (s.die n)) := rfl
@[simp] theorem State.modRedc_eq (s : State) (n : Nat) (f : RedCtx → RedCtx) : s.modRedc n f = s.setRedc n (f (s.redc n)) := rfl
@[simp] theorem State.modPerm_eq (s : State) (n : Nat) (f : Perm → Perm) : s.modPerm n f = s.setPerm n (f (s.perm n)) := rfl
@[simp] theorem State.modAge_eq (s : State) (n : Nat) (f : AgeUnit → AgeUnit) : s.modAge n f = s.setAge n (f (s.age n)) := rfl

end Sys2Proof.Machine
end

