-- ==== Sys2Proof/Laws/StepCommandsRuns.lean ====
section
/-!
SUPPORT. What the operations of Machine/StepCommands.lean may change, and that they keep the canonical form.
-/

namespace Sys2Proof.Machine

theorem execStepVote_runs (ctx : Nat) (s : State) :
    RunsTo [.sync, .router, .steps] s (execStepVote ctx s) := by
  unfold execStepVote
  repeat' (first
    | with_reducible refine RunsTo.need ?_
    | with_reducible refine RunsTo.next ?_
    | with_reducible exact Runs.refl _
    | with_reducible assumption
    | exact Eq.refl true
    | exact fun h => h
    | dsimp only
    | with_reducible apply Runs.comp (State.stepVote_runs ..))

theorem execVote_runs (p : Packet) (s : State) :
    RunsTo [.router, .steps] s (execVote p s) := by
  unfold execVote
  repeat' (first
    | with_reducible refine RunsTo.need ?_
    | with_reducible refine RunsTo.next ?_
    | with_reducible exact Runs.refl _
    | with_reducible assumption
    | exact Eq.refl true
    | exact fun h => h
    | dsimp only
    | with_reducible apply powered_runs
    | with_reducible apply Runs.comp (State.vote_runs ..))

theorem execCommitDeadlineExpiry_runs (ctx : Nat) (s : State) :
    RunsTo [.router, .steps] s (execCommitDeadlineExpiry ctx s) := by
  unfold execCommitDeadlineExpiry
  repeat' (first
    | with_reducible refine RunsTo.need ?_
    | with_reducible refine RunsTo.next ?_
    | with_reducible exact Runs.refl _
    | with_reducible assumption
    | exact Eq.refl true
    | exact fun h => h
    | dsimp only
    | with_reducible apply Runs.comp (State.commitExpiry_runs ..))

theorem execCommit_runs (p : Packet) (s : State) :
    RunsTo [.cores, .sync, .mem, .urn, .fab, .router, .steps, .red, .obj, .flash] s (execCommit p s) := by
  unfold execCommit
  repeat' (first
    | with_reducible refine RunsTo.need ?_
    | with_reducible refine RunsTo.next ?_
    | with_reducible exact Runs.refl _
    | with_reducible assumption
    | exact Eq.refl true
    | exact fun h => h
    | dsimp only
    | with_reducible apply powered_runs
    | with_reducible apply Runs.comp (State.commit_runs ..))

theorem execReplay_runs (p : Packet) (s : State) :
    RunsTo [.cores, .sched, .txe, .sync, .mem, .urn, .fab, .router, .host, .steps, .red, .obj, .flash, .out] s (execReplay p s) := by
  unfold execReplay
  repeat' (first
    | with_reducible refine RunsTo.need ?_
    | with_reducible refine RunsTo.next ?_
    | with_reducible exact Runs.refl _
    | with_reducible assumption
    | exact Eq.refl true
    | exact fun h => h
    | dsimp only
    | with_reducible apply powered_runs
    | with_reducible apply Runs.comp (State.replay_runs ..))

theorem execHalt_runs (p : Packet) (s : State) :
    RunsTo [.cores, .sched, .txe, .sync, .urn, .fab, .router, .host, .steps, .red, .out] s (execHalt p s) := by
  unfold execHalt
  repeat' (first
    | with_reducible refine RunsTo.need ?_
    | with_reducible refine RunsTo.next ?_
    | with_reducible exact Runs.refl _
    | with_reducible assumption
    | exact Eq.refl true
    | exact fun h => h
    | dsimp only
    | with_reducible apply powered_runs
    | with_reducible apply Runs.comp (State.haltRecv_runs ..))

theorem execDecisionTimeout_runs (ctx : Nat) (s : State) :
    RunsTo [.cores, .sched, .txe, .sync, .urn, .fab, .router, .host, .steps, .red, .out] s (execDecisionTimeout ctx s) := by
  unfold execDecisionTimeout
  repeat' (first
    | with_reducible refine RunsTo.need ?_
    | with_reducible refine RunsTo.next ?_
    | with_reducible exact Runs.refl _
    | with_reducible assumption
    | exact Eq.refl true
    | exact fun h => h
    | dsimp only
    | with_reducible apply Runs.comp (State.decisionTimeout_runs ..))

theorem execNormSummerDone_runs (ctx : Nat) (s : State) :
    RunsTo [.sync, .mem, .fab, .router, .steps, .obj] s (execNormSummerDone ctx s) := by
  unfold execNormSummerDone
  repeat' (first
    | with_reducible refine RunsTo.need ?_
    | with_reducible refine RunsTo.next ?_
    | with_reducible exact Runs.refl _
    | with_reducible assumption
    | exact Eq.refl true
    | exact fun h => h
    | dsimp only
    | with_reducible apply Runs.comp (State.normDone_runs ..))

end Sys2Proof.Machine
end

