-- ==== Sys2Proof/Machine/HostReads.lean ====
section
/-!
DEFINITION. What a read of BAR0 returns (R455, R456, R458, R462). The opcode table has no command for such a read, and none
changes anything: these are the values that the host sees of the state.
Choices and readings that the model fixes here: log 38.
-/

namespace Sys2Proof.Machine

/-- The host control block in words of 8 bytes (R456); write-only fields and what it does not name read 0. -/
def State.controlWord (s : State) (off : Nat) : Nat :=
  let mbx := fun (m : Nat) =>
    let b := s.mailbox m
    ofBool b.busy + ofBool b.ready * 2 + ofBool b.overrun * 4 + b.len * 2 ^ 16
  if off = 0x000 then s.me + s.power.main.code * 2 ^ 16
  else if off = 0x008 then s.host.bar2Base
  else if 0x010 ≤ off ∧ off < 0x088 then tget 0 s.host.vfWin ((off - 0x010) / 8)
  else if off = 0x108 then mbx 0
  else if off = 0x148 then mbx 1
  else if off = 0x180 then s.host.err
  else if off = 0x188 then s.host.firstAddr
  else 0

/-- The page of a context in words of 8 bytes (R458); page 15 holds INT_STATUS and INT_MASK alone. -/
def State.pageWord (s : State) (c off : Nat) : Nat :=
  let p := s.page c
  if off = 0x010 then p.intStatus + p.intMask * 2 ^ 32
  else if c = 15 then 0
  else if off = 0x000 then p.sqHead * 2 ^ 32
  else if off = 0x008 then p.cplHead + p.cplTail * 2 ^ 32
  else if off = 0x018 then p.flags
  else if off = 0x108 then p.syncReply
  else if off = 0x118 then p.urnReply
  else 0

/-- The object window at an object (R462): a readable UINT or SINT no wider than 128 bits, and 0 for every other. -/
def State.windowValue (s : State) (id : Nat) : Nat :=
  match objRow id with
  | some r => if (r.type = 1 ∨ r.type = 2) ∧ r.width ≤ 16 ∧ r.access ≠ 2 then s.value id else 0
  | none => 0

/-- Byte `i` of a word. -/
def byteAt (w i : Nat) : Byte := BitVec.ofNat 8 (bits w (8 * i) 8)

/-- A byte of the PF's BAR0 (R455): reserved ranges read 0. -/
def State.bar0Byte (s : State) (off : Nat) : Byte :=
  if off < 0x1000 then byteAt (s.controlWord (off / 8 * 8)) (off % 8)
  else if 0x4000 ≤ off ∧ off < 0xC000 then
    let b := s.mailbox ((off - 0x4000) / 0x4000)
    tget 0 (if off % 0x4000 < 0x2000 then b.request else b.reply) (off % 0x2000)
  else if 0x100000 ≤ off ∧ off < 0x200000 then
    byteAt (s.pageWord ((off - 0x100000) / 0x10000) (off % 0x10000 / 8 * 8)) (off % 8)
  else if 0x1000000 ≤ off ∧ off < 0x2000000 then
    byteAt (s.windowValue ((off - 0x1000000) / 0x100000 * 0x10000 + off % 0x100000 / 16)) (off % 16)
  else 0

/-- A byte of the BAR0 of VF `n`: the page of context n − 1 (R454). -/
def State.vfBar0Byte (s : State) (n off : Nat) : Byte := byteAt (s.pageWord (n - 1) (off / 8 * 8)) (off % 8)

end Sys2Proof.Machine
end

