-- ==== Sys2Proof/Tests/Slice0.lean ====
section
/-!
SUPPORT. Small tests: ill-formed operands are refused, and for every statement with hypotheses a named theorem that shows
states and operands that meet them, clause by clause.
-/

namespace Sys2Proof.Tests

open Sys2Proof.Machine

set_option Elab.async false

/-! Small states that the witnesses share. -/

/-- The module READY, with PCIe up. -/
def on : State :=
  { State.reset with
    clk := 5000000
    power := { State.reset.power with main := .ready, rails := true, seqRow := 7 }
    pins := { State.reset.pins with p50v := true, coolantOk := true }
    host := { State.reset.host with up := true }
    caddy := { State.reset.caddy with ready := true, booted := true } }

/-- The module at a row of the main sequence. -/
def seqAt (row : Nat) : State := on.setPower { on.power with main := .sequencing, seqRow := row }

/-- At fabric time 0 every unit reads 0, whatever the age of its sample (R22). -/
theorem ftRead_start (s : State) (ps : Nat) (h : s.ft.now = 0) : s.ftRead ps = 0 := by simp [State.ftRead, h]

/-- A sample is at most 3 cycles and 1 ns old, so that a unit reads at least what was due before (R22). -/
theorem ftRead_late (s : State) (ps k : Nat) (h : k + (3 * ps + 1999) / 1000 ≤ s.ft.now) : k ≤ s.ftRead ps := by
  have := Nat.mod_lt (Config.sampleAge s.clk ps) (y := ps + 1000) (by omega)
  simp only [State.ftRead]
  omega

/-- A state in which every deadline is over. -/
def late (s : State) : State := s.setFt { s.ft with now := 2 ^ 40 }

theorem late_reads (s : State) (ps k : Nat) (h : k + (3 * ps + 1999) / 1000 ≤ 2 ^ 40) : k ≤ (late s).ftRead ps :=
  ftRead_late _ _ _ h

/-- At fabric time 0 every period of the hub begins. -/
theorem onTick_start (s : State) (n : Nat) (h : s.ft.now = 0) : s.onTick n = true := by
  simp [State.onTick, ftRead_start s hubPs h]

/-- The queue: witnesses for the statements about whole steps. -/
theorem test_queue : State.reset.pending = [] ∧ State.reset.wf = true ∧
    [Instr.coreSleep 3, .signal (.page 0) 0].all Instr.wf = true ∧
    (Instr.coreSleep 255).wf = true ∧ (Instr.coreSleep 256).wf = false ∧
    (match exec (.coreSleep 255) State.reset with | .next t => t.pending == [] | _ => false) = true := by
  decide +kernel

theorem test_idleStep : State.reset.ft.running = false ∧
    ((State.reset.clk + 1) % 1000 ≠ 0 ∧ State.reset.power.rails = false) ∧
    (let s := State.reset.setFt { State.reset.ft with running := true }
     s.pending = [] ∧ s.ft.running = true ∧ s.ft.corr = 0 ∧ s.ft.frac = 0) := by
  decide +kernel

theorem test_operatingPointAndDroop :
    (let s := on.modDie 3 ({ · with target := some 5 })
     s.wf = true ∧ (s.die 3).target = some 5) ∧
    (on.wf = true ∧ on.power.rails = true ∧ (on.die 0).stretching = none ∧ (on.die 0).stretched = [] ∧
      0 < on.planMv 0 (on.die 0).point - on.ov droopMarginId) ∧
    on.planMv 3 (on.die 3).point - on.ov droopMarginId ≤ 2000 ∧
    (let s := on.modDie 3 ({ · with stretching := some 4990000, point := 4, clock := 4 })
     s.wf = true ∧ (s.die 3).stretching.isSome = true ∧ (s.die 3).stretched = [] ∧
       s.planMv 3 (s.die 3).point - s.ov droopMarginId + 10 ≤ 2000 ∧
       pointMHz (s.die 3).clock * 100 < 21 * 20000 ∧ 21 * 32 ≤ pointMHz (s.die 3).clock * 100) ∧
    (let s := on.modDie 0 ({ · with droop := some (3, 5000000) })
     s.wf = true ∧ (s.die 0).droop = some (3, 5000000) ∧ 5000000 ≤ s.clk) := by
  decide +kernel

theorem test_powerBrake : on.wf = true ∧ on.power.rails = true ∧ on.kettle.brake = false ∧
    (let s := on.setKettle { on.kettle with brake := true }
     s.wf = true ∧ s.kettle.brake = true) := by
  decide +kernel

/-- Core 0 in an idle quantum: the first slots of a frame are its die's forced-idle setting. -/
theorem test_forcedIdleAndProbes : (on.wf = true ∧ on.power.rails = true ∧ on.kettle.brake = false) ∧
    on.onTick 80000 = true ∧ on.onTick (bits (on.ov paceCfgId) 16 16 * 1000) = true ∧ on.onTick 10000 = true ∧
    (let s := on.modDie 0 ({ · with q := 7 })
     s.wf = true ∧ s.power.rails = true ∧ s.idleSlot 0 = true) ∧
    (let s := on.setKettle { on.kettle with probe := some 4900000, probeMin := none }
     s.wf = true ∧ s.kettle.probe = some 4900000 ∧ 4900000 + 100000 ≤ s.clk ∧ s.kettle.probeMin = none) := by
  refine ⟨by decide +kernel, onTick_start _ _ rfl, onTick_start _ _ rfl, onTick_start _ _ rfl,
    ⟨by decide +kernel, by decide +kernel, ?_⟩, by decide +kernel⟩
  simp only [State.idleSlot, ftRead_start (on.modDie 0 ({ · with q := 7 })) hubPs rfl]
  decide +kernel

theorem test_estimatesAndGains : on.wf = true ∧ on.power.rails = true ∧ State.reset.power.rails = false ∧
    (let s := on.setKettle { on.kettle with raw := [[1000]] }
     s.wf = true ∧ s.kettle.raw = [[(1000 : Rat)]] ∧ (1000 : Rat) ≠ 0 ∧ 4 / 5 ≤ s.kettle.gain ∧ s.kettle.gain ≤ 5 / 4 ∧
       4 / 5 ≤ ((800 : Nat) : Rat) / 1000 ∧ ((800 : Nat) : Rat) / 1000 ≤ 5 / 4) ∧
    on.kettle.railGain = [] ∧ (∀ d, d < 4 → (on.die d).cycles = []) := by
  decide +kernel

theorem test_lastLineConditions : on.wf = true ∧ on.power.rails = true ∧ (380 : Int) ≤ 380 ∧
    (4 * (on.ov (stackThrottleId + 3) : Nat) + 12 < (379 : Int) ∧ tget 0 on.mem.level 3 ≤ 2) ∧
    (4 * (on.ov stackThrottleId : Nat) ≤ (340 : Int) ∧ (340 : Int) ≤ 4 * (on.ov stackThrottleId : Nat) + 12 ∧
      tget 0 on.mem.level 0 ≤ 1) ∧
    (let s := on.setPower { on.power with hotSensors := [207] }
     let temps : List Int := List.replicate 207 200 ++ [460]
     s.wf = true ∧ s.power.rails = true ∧ temps[207]? = some 460 ∧ s.power.hotSensors.contains 207 = true) ∧
    (∀ x ∈ ([459, 100] : List Int), x < 460) ∧ unitTemps [459, 100] 0 = 459 :: [100] := by
  decide +kernel

theorem test_gddrAndScrub : on.wf = true ∧
    (let s := on.setMem { on.mem with gddr := .online }
     s.wf = true ∧ s.mem.gddr = .online) ∧
    (on.power.rails = true ∧ on.mem.gddr = .training) ∧
    (let s := (seqAt 4).setMem { on.mem with gddr := .offline }
     s.wf = true ∧ s.power.main = .sequencing ∧ s.power.seqRow = 4 ∧ s.mem.gddr ≠ .training) ∧
    (on.memOf 0 = some 0 ∧ on.memOf (2 ^ 37 / 64 * 64) ≠ none ∧ on.poisoned 0 = false) := by
  decide +kernel

/-- The two slots of the fault log's record: the first erased, the second current, with an empty body. -/
def logRec : JSlot × JSlot := (.erased, ⟨jHeader 0 0 0 [], [], .log [[1]] 1⟩)

theorem test_journalAndPowerLoss :
    (let s := on.setFlash { on.flash with queue := [.fault [1], .coreMap] }
     s.wf = true ∧ s.flash.queue = .fault [1] :: [.coreMap] ∧ s.power.losing = 0 ∧ s.caddy.deferred = []) ∧
    (let s := on.setFlash { on.flash with queue := [.coreMap] }
     s.wf = true ∧ s.flash.queue = .coreMap :: [] ∧ s.power.losing = 0 ∧ s.caddy.deferred = []) ∧
    (∀ r ∈ [JRec.stopCause ⟨2, 0, 0, 0⟩, .spare 0 5 19], let s := on.setFlash { on.flash with queue := [r] }
     s.wf = true ∧ s.flash.queue = r :: [] ∧ s.power.losing = 0 ∧ s.caddy.deferred = []) ∧
    (on.wf = true ∧ on.power.rails = true ∧ on.power.losing = 0 ∧ on.power.standby = true ∧ on.power.main ≠ .stopped) ∧
    (let s := (on.setPins { on.pins with p5v := false }).setFlash { on.flash with recs := [((JRec.fault []).key, logRec)] }
     s.wf = true ∧ s.pins.p5v = false ∧ s.flash.recs = [((JRec.fault []).key, logRec)] ∧ current logRec = some logRec.2 ∧
       logRec.2.body = .log [[1]] 1) := by
  decide +kernel

/-- A tile of context 3 in a core. -/
def tileAt (seq : Nat) (stage : Stage) (desc : WorkDesc) : Tile :=
  { desc := desc, ctx := 3, seq := seq, die := 3, stage := stage, slot := none, own := false, sparse := false,
    begun := false, kDone := 0, mEff := 1, nEff := 1, kEff := 1, causes := [], flags := 0, longChain := false,
    reissued := false, substituted := false, acceptTime := 0, status := 0, row := 0, badHdr := [], hdrs := [],
    stores := [], frees := [], evalC := none, latched := [], seed := 0 }

theorem test_failuresOfParts :
    (on.wf = true ∧ on.power.rails = true ∧ (on.core 255).fenced = false ∧ on.sched.offline.contains 255 = false ∧
      on.spares (255 / 64) ≠ [] ∧ on.stateful 255 = false) ∧
    (let s := on.modCore 255 ({ · with tiles := [tileAt 0 .computing 1] })
     s.wf = true ∧ s.power.rails = true ∧ (s.core 255).fenced = false ∧ s.sched.offline.contains 255 = false ∧
       (s.core 255).tiles ≠ [] ∧ (s.core 255).idleQ = false ∧ (s.core 255).switchTo = none) ∧
    (let s := on.setSched { on.sched with takeovers := [255] }
     s.wf = true ∧ s.sched.takeovers = [255] ∧ 255 / 64 = 3 ∧ s.spares 3 = 64 :: (s.spares 3).tail ∧ 64 ≠ 255 % 64) ∧
    (Rail.core 3).wf = true ∧ tget 0 on.power.phases (Rail.index (.core 3)) < sparePhases (Rail.index (.core 3)) ∧
    (let s := on.setPower { on.power with phases := [(Rail.index .hub, sparePhases (Rail.index .hub))] }
     s.wf = true ∧ Rail.wf .hub = true ∧ sparePhases (Rail.index .hub) ≤ tget 0 s.power.phases (Rail.index .hub)) ∧
    (on.caddy.m0 = true ∧ on.caddy.m1 = true ∧ on.caddy.m1Active = false) ∧
    (let s := on.setCaddy { on.caddy with m1Active := true }
     s.wf = true ∧ s.caddy.m1 = true ∧ s.caddy.m1Active = true) := by
  decide +kernel

theorem test_bringUp : State.reset.wf = true ∧
    (State.reset.caddy.booted = false ∧ State.reset.pins.p5v = true) ∧
    (let s := State.reset.setCaddy { State.reset.caddy with booted := true }
     s.wf = true ∧ s.caddy.booted = true ∧ s.pins.p5v = true ∧ s.caddy.ready = false) ∧
    (let s := State.reset.setCaddy { State.reset.caddy with booted := true, ready := true }
     s.wf = true ∧ s.caddy.ready = true ∧ s.caddy.recovery = false ∧ s.power.main = .off ∧ s.power.losing = 0 ∧
       s.pins.p5v = true ∧ s.power.hotSensors = [] ∧ s.power.hotStacks = [] ∧ s.pins.refclk = true) ∧
    ((seqAt 1).wf = true ∧ (seqAt 1).power.main = .sequencing ∧ (seqAt 1).power.seqRow = 1 ∧
      (seqAt 1).pins.brake = false ∧ (seqAt 1).caddy.deferred = []) ∧
    (let x : JSlot := ⟨jHeader 1 0 0 [], [], .service 3 1⟩
     let s := State.reset.setFlash { State.reset.flash with recs := [(1, (.erased, x))] }
     s.wf = true ∧ current (.erased, x) = some x ∧ x.body = .service 3 1) ∧
    ((seqAt 2).wf = true ∧ (seqAt 2).power.seqRow = 2 ∧ (seqAt 2).sched.offline = [] ∧
      (seqAt 2).spares (255 / 64) = 64 :: ((seqAt 2).spares 3).tail ∧ 64 ≠ 255 % 64) ∧
    (∀ m, m < 256 → m ≠ 255 → posKey (m / 64) ((seqAt 2).posOf m) ≠ posKey (255 / 64) ((seqAt 2).posOf 255)) ∧
    ((seqAt 5).wf = true ∧ (seqAt 5).power.seqRow = 5) ∧
    ([1, 2, 4, 5].all (fun r => (seqAt r).wf && (seqAt r).power.main == .sequencing && (seqAt r).power.seqRow == r)) = true ∧
    (((seqAt 4).setMem { (seqAt 4).mem with gddr := .online }).wf = true ∧
      ((seqAt 4).setMem { (seqAt 4).mem with gddr := .online }).mem.gddr ≠ .training) ∧
    (StageEnd.failed 2 (some 12)).within 2 2 = true ∧ (StageEnd.failed 3 none).within 3 4 = true ∧
    (StageEnd.failed 5 none).within 5 5 = true ∧ (StageEnd.failed 7 none).within 6 7 = true := by
  decide +kernel

/-- The factory image verifies where the raised minimum does not exceed its SEC_VERSION, which is so at 0. -/
theorem test_bootSlotValid : State.reset.caddy.slotValid State.reset.caddy.activeB = true := by
  simp [State.reset, Caddy.init, Caddy.slotValid, Caddy.slot, FwSlot.valid]

theorem test_ageing : on.wf = true ∧ on.power.rails = true ∧ (on.age 4).samples = [] ∧ ([] : List Nat).length < 16 ∧
    on.freeSpare 3 ≠ none ∧ 4 ≤ bits (tget 8 on.ageing.retention 3) 0 4 ∧
    on.pins.p50v = true ∧ (on.ageing.hours + 1) % 1000 ≠ 0 ∧ on.ageing.hours < 2 ^ 32 - 1 ∧ on.ageing.biasSum = [] ∧
    on.ageing.units = [] := by
  decide +kernel

theorem test_telemetry : on.onTick 10000 = true ∧
    (let s := on.setTele { on.tele with clear := true }
     s.wf = true ∧ ([] : List (Nat × Nat)).length ≤ 16 ∧ s.tele.clear = true ∧ s.power.rails = true ∧ s.onTick 10000 = true) ∧
    (on.wf = true ∧ on.tele.clear = false ∧ on.power.main = .ready ∧ on.tele.idle = [] ∧ 0 < 1 ∧ 1 < 2 ^ 64 ∧
      on.sched.offline.contains 255 = false) ∧
    on.power.rails = true ∧ on.pins.refclk = true ∧ PcieLink.wf ⟨true, 3, some 38, [⟨15, 0, 1⟩]⟩ = true ∧
    pcieRateOk (min 9 (on.ov pcieMaxGenId)) 4 true = true := by
  refine ⟨onTick_start _ _ rfl, ⟨by decide +kernel, by decide +kernel, by decide +kernel, by decide +kernel,
    onTick_start _ _ rfl⟩, by decide +kernel⟩

/-- A request of class 1 on the tray bus in session 7. -/
def req : Req := { transport := .tray, cls := 1, session := 7, xid := 9, epoch := 3, dest := 0x8000 }

/-- Its session. -/
def ses : Session := { num := 7, transport := .tray, challenge := 1, cache := [], lastMsg := 5000000 }

/-- The module with that session open and no owner. -/
def heard : State := on.setCaddy { on.caddy with sessions := [(1, ses)], epoch := 3 }

/-- The module owned in that session. -/
def owned : State :=
  heard.setCaddy { heard.caddy with owner := some { cls := 1, session := 7, priority := 2, leaseEnd := 400000000 } }

/-- The conditions of `Reaches`, `Hears` and `Obeys`, to be evaluated. -/
def reachesB (s : State) (r : Req) (m : MOp) : Bool :=
  r.wf && decide (m.norm = m) && s.serves r.transport && classTransport r.cls r.transport &&
    decide (r.dest = 0x8000 ∨ r.dest = s.me) && decide (s.caddy.deferred = []) && decide (s.settle = s)

def hearsB (s : State) (r : Req) (m : MOp) (x : Session) : Bool :=
  reachesB s r m && decide (s.caddy.recovery = true → m.inRecovery = true) &&
    decide (s.sessionOf r.cls r.session = some x) && x.cache.all (fun c => c.1 != r.xid) &&
    decide (x.cache = [] ∨ x.cache.any (fun c => !seqBefore r.xid c.1) = true)

def obeysB (s : State) (r : Req) (m : MOp) (x : Session) : Bool :=
  hearsB s r m x && s.fromOwner r && decide (handoverOp m.code = true → s.caddy.handover = none)

theorem reaches_iff (s : State) (r : Req) (m : MOp) : s.Reaches r m ↔ reachesB s r m = true := by
  simp only [State.Reaches, reachesB, Bool.and_eq_true, decide_eq_true_eq, and_assoc]

theorem hears_iff (s : State) (r : Req) (m : MOp) (x : Session) : s.Hears r m x ↔ hearsB s r m x = true := by
  simp only [State.Hears, hearsB, Bool.and_eq_true, decide_eq_true_eq, reaches_iff, and_assoc]

theorem obeys_iff (s : State) (r : Req) (m : MOp) (x : Session) : s.Obeys r m x ↔ obeysB s r m x = true := by
  simp only [State.Obeys, obeysB, Bool.and_eq_true, decide_eq_true_eq, hears_iff, and_assoc]

theorem test_sessions :
    (on.wf = true ∧ on.Reaches req .hello ∧ on.caddy.owner = none) ∧
    (heard.wf = true ∧ heard.Hears req .close ses) ∧
    (let s := { heard with clk := 10005000000 }
     s.wf = true ∧ tget? s.caddy.sessions 1 = some ses ∧ ses.lastMsg + 10000000000 ≤ s.clk) := by
  simp only [hears_iff, reaches_iff]
  decide +kernel

theorem test_repeatedRequest :
    let q := replyTo req 3 7 3 0 []
    let x := { ses with cache := [(9, q)] }
    let s := heard.setCaddy { heard.caddy with sessions := [(1, x)] }
    s.wf = true ∧ s.Reaches req .renew ∧ MOp.renew ≠ .hello ∧ s.sessionOf 1 7 = some x ∧
      x.cache.find? (fun c => c.1 == req.xid) = some (req.xid, q) := by
  simp only [reaches_iff]
  decide +kernel

theorem test_ownership :
    (let c := MOp.claim 5 true (List.replicate 16 0)
     heard.wf = true ∧ heard.Hears req c ses ∧ heard.locked 1 = false ∧
       heard.tagOk req ses.challenge 5 true (List.replicate 16 0) = true ∧ heard.caddy.owner = none ∧
     (let o : Owner := { cls := 2, session := 4, priority := 5, leaseEnd := 400000000 }
      let s := heard.setCaddy { heard.caddy with owner := some o }
      s.wf = true ∧ s.Hears req c ses ∧ s.locked 1 = false ∧ s.tagOk req ses.challenge 5 true (List.replicate 16 0) = true ∧
        ¬(o.cls = req.cls ∧ o.session = req.session) ∧ s.caddy.handover = none ∧ ¬(true = true ∧ o.priority < 5))) ∧
    (let r := { req with cls := 2 }
     let s := heard.setCaddy { heard.caddy with sessions := [(2, ses)] }
     s.wf = true ∧ s.Hears r (.claim 255 false (List.replicate 16 0)) ses ∧ s.locked 2 = false ∧
       s.tagOk r ses.challenge 255 false (List.replicate 16 0) = false) ∧
    (owned.wf = true ∧ owned.Obeys req .renew ses ∧ owned.caddy.owner ≠ none ∧ owned.Obeys req .release ses) ∧
    (let s := owned.setCaddy { owned.caddy with sessions := [(1, ses), (3, ses)] }
     s.wf = true ∧ s.Obeys req (.handover 3) ses ∧ tget? s.caddy.sessions 3 = some ses ∧
       ∀ a, a < 16 → (s.area a).pending = false) ∧
    (let s := { owned with clk := 400000000 }
     s.wf = true ∧ s.caddy.owner ≠ none ∧ s.caddy.deferred = [] ∧ ∀ o, s.caddy.owner = some o → o.leaseEnd ≤ s.clk) ∧
    (let s := owned.setCaddy { owned.caddy with handover := some (3, 5000000) }
     s.wf = true ∧ s.caddy.handover = some (3, 5000000) ∧ 5000000 ≤ s.clk) := by
  simp only [obeys_iff, hears_iff]
  refine ⟨?_, ?_, ?_, ?_, ?_, ?_⟩
  · decide +kernel
  · decide +kernel
  · decide +kernel
  · decide +kernel
  · refine ⟨by decide +kernel, by decide +kernel, by decide +kernel, ?_⟩
    intro o h
    cases h
    decide
  · decide +kernel

theorem test_objects :
    (heard.wf = true ∧ heard.Hears req (.read pwrCapId 0 1) ses ∧
      (match objRow pwrCapId with | some w => w.access != 2 && w.access != 3 && w.staged | none => false) = true) ∧
    (heard.Hears req (.read exchErrLogId 0 0) ses ∧ owned.Obeys req (.read exchErrLogId 0 0) ses) ∧
    (heard.Hears req (.read 0x100000 0 0) ses ∧ objRow 0x100000 = none) ∧
    (owned.wf = true ∧ owned.Obeys req (.write pwrCapId 0 (toLE 2 2300)) ses ∧
      (match objRow pwrCapId with
        | some w => w.access != 0 && w.access != 3 && w.staged && w.type != 4 && w.type != 6 && w.type != 7 &&
            (toLE 2 2300).length == w.width
        | none => false) = true) ∧
    (heard.Hears req (.describe pwrCapId) ses ∧ objRow pwrCapId ≠ none) ∧
    (owned.Obeys req (.post 3 3 [1]) ses ∧ owned.power.main = .ready ∧ (owned.dieList 3).length < 4096) := by
  simp only [obeys_iff, hears_iff]
  decide +kernel

/-- Area 3 with a PWR_CAP of 2,300 W staged. -/
def staged3 (v : Nat) : State :=
  (owned.setObj { owned.obj with staged := [(pwrCapId, v)] }).setArea 3 { (owned.area 3) with pending := true }

/-- Area 1 with a persistent object staged. -/
def staged1 (v : Nat) : State :=
  (owned.setObj { owned.obj with staged := [(mgmtPortId, v)] }).setArea 1 { (owned.area 1) with pending := true }

/-- An APPLY of an area that waits for its work (`false`), or for the journal. -/
def waiting (a : Nat) (worked : Bool) : Deferred :=
  { req := req, area := a, gen := 1, switchTime := 0, switchClk := 0, changed := 0, alloc := none,
    needs := if worked then [.remap] else [], worked := worked }

theorem test_staged :
    (let s := staged3 2300
     s.wf = true ∧ s.Obeys req (writeOf (3 * 65536 + 1) 16 1) ses ∧ (s.area 3).pending = true ∧
       (s.taking req ses).areaFaults 3 = [] ∧ pwrCapId / 65536 = 3 ∧
       s.obj.staged.filter (fun p => p.1 == pwrCapId) = [(pwrCapId, 2300)] ∧ (s.taking req ses).persistNeeds 3 = []) ∧
    (let s := staged1 50000
     s.wf = true ∧ s.Obeys req (writeOf (1 * 65536 + 1) 16 1) ses ∧ (s.area 1).pending = true ∧
       (s.taking req ses).areaFaults 1 = [] ∧ s.obj.staged.filter (fun p => p.1 == mgmtPortId) = [(mgmtPortId, 50000)] ∧
       (s.taking req ses).persistNeeds 1 = [.object mgmtPortId]) ∧
    (∀ a ∈ [2, 9], let s := owned.setArea a { (owned.area a) with pending := true }
     s.wf = true ∧ s.Obeys req (writeOf (a * 65536 + 1) 16 1) ses ∧ (s.area a).pending = true ∧
       (s.taking req ses).areaFaults a = [] ∧ tget? s.obj.staged (genId a) = none) ∧
    (let s := staged3 0
     s.wf = true ∧ s.Obeys req (writeOf (3 * 65536 + 1) 16 1) ses ∧ (s.area 3).pending = true ∧
       (s.taking req ses).areaFaults 3 ≠ []) ∧
    (owned.wf = true ∧ owned.Obeys req (writeOf (15 * 65536 + 1) 16 2) ses) ∧
    (∀ a ∈ [2, 9], let d := waiting a false
     let s := owned.setCaddy { owned.caddy with deferred := [d] }
     s.wf = true ∧ s.caddy.deferred = [d] ∧ s.caddy.queue = [] ∧ d.area = a ∧ d.worked = false ∧ d.alloc = none ∧
       d.changed = 0 ∧ (∀ r ∈ d.needs, r ∉ s.flash.queue) ∧
       s.caddy.owner = some { cls := 1, session := 7, priority := 2, leaseEnd := 400000000 } ∧ s.clk < 400000000 ∧
       s.fab.cmds = [] ∧ s.fab.tileReqs = [] ∧ s.router.inj = [] ∧ s.fab.capped = []) ∧
    (let s := owned.setMem { owned.mem with retiring := [(0, 1), (65536, 1)] }
     s.wf = true ∧ s.mem.retiring = (0, 1) :: [(65536, 1)] ∧ s.memOf 0 = some 0 ∧ s.freeSpare 0 = some 0) ∧
    (let d := waiting 5 false
     let s := (owned.setMem { owned.mem with retiring := [(0, 1)] }).setCaddy { owned.caddy with deferred := [d] }
     s.wf = true ∧ s.mem.retiring = [(0, 1)] ∧ s.memOf 0 = some 0 ∧ s.freeSpare 0 = some 0 ∧ s.caddy.deferred = [d] ∧
       d.area = 5 ∧ d.alloc = none ∧ d.worked = false) ∧
    (let d := waiting 5 true
     let s := (owned.setFlash { owned.flash with queue := [.remap] }).setCaddy { owned.caddy with deferred := [d] }
     s.wf = true ∧ s.caddy.deferred = [d] ∧ s.caddy.queue = [] ∧ d.alloc = none ∧ d.worked = true ∧
       s.flash.queue = [.remap] ∧ s.power.losing = 0) := by
  simp only [obeys_iff]
  refine ⟨?_, ?_, ?_, ?_, ?_, ?_, ?_, ?_, ?_⟩ <;> decide +kernel

theorem test_firmware :
    (let b := List.replicate 16 (7 : Byte)
     owned.wf = true ∧ owned.Obeys req (.write fwImageBlockId 0 b) ses ∧ 0 % 16 = 0 ∧ b.length = 16 ∧
       (0 : Nat) ≤ 8388352 ∧ owned.caddy.slot (!owned.caddy.runB) ≠ .factory ∧
       owned.Obeys req (.write fwImageBlockId 8388352 b) ses ∧
       (∀ sub ∈ [8, 8388368, 256 + 8388608], owned.Obeys req (.write fwImageBlockId sub b) ses) ∧
       owned.Obeys req (.write fwImageBlockId 0 (b.drop 1)) ses) ∧
    (let s := owned.setCaddy (owned.caddy.setSlot (!owned.caddy.runB) (.image false []))
     s.wf = true ∧ s.Obeys req (.write fwImageBlockId 16 (List.replicate 16 7)) ses ∧
       s.caddy.slot (!s.caddy.runB) = .image false []) ∧
    (let s := owned.setCaddy { (owned.caddy.setSlot (!owned.caddy.runB) .factory) with fwPending := true }
     s.wf = true ∧ s.Obeys req (.write fwImageBlockId 16 (List.replicate 16 7)) ses ∧
       s.caddy.slot (!s.caddy.runB) = .factory ∧ s.caddy.fwPending = true) ∧
    (∀ v ∈ [0, 1, 2], owned.Obeys req (writeOf fwActivateId 4 v) ses) := by
  simp only [obeys_iff]
  decide +kernel

theorem test_messages :
    ((on.wf = true ∧ req.wf = true ∧ MOp.of (MOp.read 1 2 3).code (MOp.read 1 2 3).payload = .read 1 2 3 ∧
      (MOp.read 1 2 3).code < 256 ∧ (MOp.read 1 2 3).payload.length ≤ 4352 ∧ on.serves .tray = true) ∧
     on.hears ⟨allNodes, on.caddy.port, false⟩ MOp.hello.code = true ∧
     on.hears ⟨linkLocal, on.caddy.port + 1, false⟩ (MOp.read 1 2 3).code = false) ∧
    on.hears ⟨linkLocal, on.caddy.port, false⟩ (MOp.read 1 2 3).code = true ∧
    (let r := { req with cls := 2, transport := .vc0 5 }
     let p : Packet := { vc := 0, dl := false, dest := 0, src := 5, dir := 0, hops := 0, ctx := 0, rsv := 0,
                         body := toLE 8 0x90 ++ requestBytes r .hello }
     r.wf = true ∧ p.wf = true ∧ r.transport = .vc0 p.src ∧ on.serves (.vc0 5) = true ∧ on.power.rails = true) ∧
    (let r := { req with cls := 0, transport := .mailbox 1 }
     let b := requestBytes r .hello
     let s := on.setMailbox 1 { on.mailbox 1 with request := tstore [] 0 b }
     s.wf = true ∧ r.wf = true ∧ s.serves (.mailbox 1) = true ∧ (s.mailbox 1).busy = false ∧
       tbytes (s.mailbox 1).request 0 b.length = b) ∧
    (let h : List Byte := [0, 1] ++ List.replicate 17 0 ++ [1] ++ List.replicate 12 0
     h.length = 32 ∧ 0 < hdrField h 152 8 ∧ hdrField h 144 8 ≤ hdrField h 152 8 ∧ on.caddy.partials = [] ∧
       on.hears ⟨allNodes, on.caddy.port, false⟩ (hdrField h 8 8) = true) := by
  have h : on.hears ⟨linkLocal, on.caddy.port, false⟩ (MOp.read 1 2 3).code = true := by simp [State.hears]
  have g : on.hears ⟨linkLocal, on.caddy.port + 1, false⟩ (MOp.read 1 2 3).code = false := by simp [State.hears]
  have a : ∀ op, op = 1 → on.hears ⟨allNodes, on.caddy.port, false⟩ op = true := by
    intro op h
    simp [State.hears, h]
  exact ⟨⟨by decide +kernel, a _ rfl, g⟩, h, by decide +kernel, by decide +kernel, by decide +kernel, by decide +kernel,
    by decide +kernel, by decide +kernel, a _ (by decide +kernel)⟩

/-- Steps of context 3 enabled: DONE_ID 5, DONE_COUNT 2, RESTORE and a 1 × 1 × 1 block of the module itself. -/
def stepsOf (s : State) : State :=
  (((s.setOv (stepCfgId + 3) (5 + 2 * 2 ^ 16 + 2 ^ 30 + 3 * 2 ^ 96 + 1000 * 2 ^ 104)).setOv (jobBlockId + 3) (2 ^ 31))).setObj
    { ((s.setOv (stepCfgId + 3) (5 + 2 * 2 ^ 16 + 2 ^ 30 + 3 * 2 ^ 96 + 1000 * 2 ^ 104)).setOv (jobBlockId + 3)
        (2 ^ 31)).obj with syncMap := [(3 * 65536 + 5, 1 + 16 + 32 + 64 + 9 * 256)] }

/-- Stopped for a last-line condition, with other conditions present. -/
def stoppedBy (q : StopRec) (hot hotStacks : List Nat) : State :=
  owned.setPower { owned.power with main := .stopped, stop := some q, hotSensors := hot, hotStacks := hotStacks }

theorem test_actions :
    (let s := stepsOf owned
     s.wf = true ∧ s.Obeys req (writeOf (stepStartId + 3) 4 (2 ^ 32 - 1)) ses ∧ s.stepBusy 3 = false ∧
       s.stepsOn 3 = true ∧ s.doneOk 3 = true ∧ s.blockOk 3 = true ∧ s.power.rails = true) ∧
    (let s := owned.modStp 15 ({ · with st := .voted })
     s.wf = true ∧ s.Obeys req (writeOf (stepStartId + 15) 4 0) ses ∧ s.stepBusy 15 = true) ∧
    (owned.wf = true ∧ owned.Obeys req (writeOf ftSetId 8 (2 ^ 64 - 1)) ses ∧ owned.isTimeRoot = true ∧
      owned.ft.st = .rootUnset ∧ owned.ft.now ≤ 2 ^ 64 - 1) ∧
    (let s := owned.setOv ftRootId 77
     s.wf = true ∧ s.Obeys req (writeOf ftSetId 8 0) ses ∧ s.isTimeRoot = false) ∧
    (let s := owned.setFt { owned.ft with st := .root }
     s.wf = true ∧ s.isTimeRoot = true ∧ ¬(s.ft.st = .rootUnset ∧ s.ft.now ≤ 0)) ∧
    (let w := setBits (1 * 2 ^ 160) 176 1 1
     let s := owned.setOv (jobBlockId + 3) (2 ^ 31)
     s.wf = true ∧ w < 2 ^ 256 ∧ bit w 176 = true ∧ s.Obeys req (writeOf (permuteCtrlId + 3) 32 w) ses ∧
       s.stepsOn 3 = false ∧ (s.perm 3).busy = false ∧ bits w 160 16 ≠ (s.redc 3).epoch ∧ bits w 177 15 = 0 ∧
       bits w 222 2 = 0 ∧ bits w 224 32 = 0 ∧ bits w 0 64 % 64 = 0 ∧ bits w 64 64 % 4096 = 0 ∧ bits w 128 32 ≤ 65535 ∧
       s.blockOk 3 = true ∧ s.power.rails = true) ∧
    (∀ q ∈ [(⟨1, 0, 0, 0⟩ : StopRec), ⟨2, 0, 0, 0⟩, ⟨3, 0, 0, 0⟩], let s := stoppedBy q [] []
     s.wf = true ∧ s.Obeys req (writeOf kettleRestartId 4 1) ses ∧ s.power.stop = some q ∧ s.caddy.recovery = false ∧
       s.pins.p5v = true ∧ s.pins.p50v = true ∧ s.pins.coolantOk = true ∧ s.pins.refclk = true ∧ s.power.losing = 0 ∧
       s.lastLinePresent = false ∧ (q.cause ≠ 1 → s.stopPresent = false) ∧ s.power.hotSensors = [] ∧
       s.power.hotStacks = []) ∧
    (let s := stoppedBy ⟨2, 0, 0, 0⟩ [] [1]
     s.wf = true ∧ s.Obeys req (writeOf kettleRestartId 4 1) ses ∧ s.stopPresent = false ∧ s.lastLinePresent = true) ∧
    (let s := stoppedBy ⟨2, 0, 0, 0⟩ [207] []
     s.wf = true ∧ s.Obeys req (writeOf kettleRestartId 4 1) ses ∧ s.stopPresent = true) ∧
    (owned.Obeys req (writeOf kettleRestartId 4 1) ses ∧ owned.power.stop = none ∧
      owned.Obeys req (writeOf kettleRestartId 4 2) ses ∧ owned.Obeys req (writeOf replanCtrlId 4 0) ses) ∧
    (let s := owned.setAgeing { owned.ageing with busyTo := owned.clk + 1 }
     s.wf = true ∧ s.Obeys req (writeOf replanCtrlId 4 1) ses ∧ s.clk < s.ageing.busyTo) ∧
    (owned.Obeys req (writeOf replanCtrlId 4 1) ses ∧ owned.ageing.busyTo ≤ owned.clk ∧ ∀ u, u < 5 → (owned.age u).plan = []) := by
  simp only [obeys_iff]
  refine ⟨?_, ?_, ?_, ?_, ?_, ?_, ?_, ?_, ?_, ?_, ?_, ?_⟩ <;> decide +kernel

/-- One state or word for each refusal of STEP_START and of GO. -/
theorem test_actionsRefused :
    (owned.wf = true ∧ owned.Obeys req (writeOf (stepStartId + 3) 4 0) ses ∧ owned.stepsOn 3 = false) ∧
    (let s := (stepsOf owned).setObj { (stepsOf owned).obj with syncMap := [] }
     s.wf = true ∧ s.Obeys req (writeOf (stepStartId + 3) 4 0) ses ∧ s.doneOk 3 = false) ∧
    (let s := (stepsOf owned).setOv (jobBlockId + 3) 0
     s.wf = true ∧ s.Obeys req (writeOf (stepStartId + 3) 4 0) ses ∧ s.blockOk 3 = false) ∧
    (∀ w ∈ [2 ^ 160 + 2 ^ 176 + 2 ^ 177, 2 ^ 160 + 2 ^ 176 + 2 ^ 222, 2 ^ 160 + 2 ^ 176 + 2 ^ 224, 2 ^ 160 + 2 ^ 176 + 32,
        2 ^ 160 + 2 ^ 176 + 2 ^ 75, 2 ^ 160 + 2 ^ 176 + 2 ^ 144, 2 ^ 160 + 2 ^ 176],
      owned.Obeys req (writeOf (permuteCtrlId + 3) 32 w) ses ∧ bit w 176 = true ∧ owned.stepsOn 3 = false ∧
        (owned.perm 3).busy = false ∧ bits w 160 16 ≠ (owned.redc 3).epoch ∧
        (bits w 177 15 ≠ 0 ∨ bits w 222 2 ≠ 0 ∨ bits w 224 32 ≠ 0 ∨ bits w 0 64 % 64 ≠ 0 ∨ bits w 64 64 % 4096 ≠ 0 ∨
          65535 < bits w 128 32 ∨ owned.blockOk 3 = false)) ∧
    (let w := 2 ^ 176
     owned.Obeys req (writeOf (permuteCtrlId + 3) 32 w) ses ∧ bits w 160 16 = (owned.redc 3).epoch ∧
       (stepsOf owned).Obeys req (writeOf (permuteCtrlId + 3) 32 w) ses ∧ (stepsOf owned).stepsOn 3 = true) ∧
    (let s := owned.modPerm 3 ({ · with st := 1 })
     s.wf = true ∧ s.Obeys req (writeOf (permuteCtrlId + 3) 32 (2 ^ 160 + 2 ^ 176)) ses ∧ (s.perm 3).busy = true) := by
  simp only [obeys_iff]
  decide +kernel

theorem test_immediateWrites : owned.wf = true ∧
    owned.Obeys req (writeOf serviceAckId 8 (2 ^ 64 - 1)) ses ∧
    (owned.Obeys req (writeOf selfTestId 4 1) ses ∧ (∀ c, c < 16 → owned.stepBusy c = false) ∧ owned.anyAccepted = false) ∧
    (let s := owned.modStp 15 ({ · with st := .running })
     s.wf = true ∧ s.Obeys req (writeOf selfTestId 4 1) ses ∧ s.stepBusy 15 = true) ∧
    (let s := owned.modCore 255 ({ · with tiles := [tileAt 0 .computing 1] })
     s.wf = true ∧ s.Obeys req (writeOf selfTestId 4 1) ses ∧ s.anyAccepted = true) ∧
    owned.Obeys req (writeOf idleClearId 4 1) ses ∧
    owned.Obeys req (writeOf (pruneExcessId + 15) 4 0) ses ∧ owned.Obeys req (writeOf (pruneExcessId + 15) 4 1) ses ∧
    (∀ p ∈ [(formatFlagsId + 15, 0x3F), (sparseStatusId, 0x1F), (faultStatusId, 3), (urnStatusId, 0xF),
        (fabStatusId, 0x3F), (syncStatusId, 0xF)],
      flagMask p.1 = some p.2 ∧ 1 < 2 ^ (8 * valueWidth p.1) ∧ owned.Obeys req (writeOf p.1 (valueWidth p.1) 1) ses) ∧
    owned.Obeys req (writeOf kettleStatusId 4 0x30) ses := by
  simp only [obeys_iff]
  decide +kernel

theorem test_resets : owned.wf = true ∧
    owned.Obeys req (writeOf resetCtrlId 4 (1 + 15 * 256)) ses ∧
    owned.Obeys req (writeOf resetCtrlId 4 2) ses ∧
    (owned.Obeys req (writeOf resetCtrlId 4 3) ses ∧ owned.caddy.recovery = false ∧ owned.pins.p50v = true ∧
      owned.pins.coolantOk = true ∧ owned.pins.refclk = true ∧ owned.pins.p5v = true ∧ owned.power.hotSensors = [] ∧
      owned.power.hotStacks = [] ∧ owned.power.stop = none ∧ owned.power.losing = 0) ∧
    owned.Obeys req (writeOf resetCtrlId 4 4) ses ∧ owned.pins.p5v = true ∧
    (let s := owned.setPower { owned.power with losing := 1 }
     s.wf = true ∧ s.power.losing ≠ 0) ∧
    (let s := owned.setPins { owned.pins with p5v := false }
     s.wf = true ∧ s.power.losing = 0 ∧ s.pins.p5v = false) := by
  simp only [obeys_iff]
  decide +kernel

/-- A submission queue of 64 entries in device memory for context 14, posting to die 3. -/
def sqState : State :=
  (on.setOv (sqCfgId + 14) (0x1000 + 3 * 2 ^ 69 + 2 ^ 72)).modPage 14 ({ · with sqTail := 1 })

theorem test_submissionQueues :
    (sqState.wf = true ∧ sqState.host.up = true ∧ sqState.power.main = .ready ∧ sqState.pageWaits 14 = false ∧ sqOn (sqState.sqCfg 14) = true ∧
      63 < sqEntries (sqState.sqCfg 14) ∧ ¬(sqOn (sqState.sqCfg 14) = true ∧ 64 < sqEntries (sqState.sqCfg 14))) ∧
    (let s := sqState.setUrn { sqState.urn with waiting := [(14, 0)] }
     s.wf = true ∧ s.host.up = true ∧ s.power.main = .ready ∧ s.pageWaits 14 = true) ∧
    ((seqAt 5).wf = true ∧ (seqAt 5).host.up = true ∧ (seqAt 5).power.main ≠ .ready) ∧
    (sqState.sqRuns 14 = true ∧ (sqState.page 14).sqHeld = none ∧ sqState.anyPoison 0x1000 128 = false ∧
      sqState.post 14 (sqTarget (sqState.sqCfg 14)) 1 ≠ none) ∧
    (let s := sqState.modPage 14 ({ · with sqHeld := some 1 })
     s.wf = true ∧ s.sqRuns 14 = true ∧ (s.page 14).sqHeld = some 1 ∧ s.post 14 (sqTarget (s.sqCfg 14)) 1 ≠ none) := by
  decide +kernel

theorem test_hostAccesses :
    (on.wf = true ∧ on.host.up = true ∧ on.power.main = .ready ∧ 0 + 0x2000 ≤ 0x2000) ∧
    (let s := on.setOv (cplRingEntriesId + 14) 1024
     s.wf = true ∧ s.pageWaits 14 = false ∧ 1023 < s.ov (cplRingEntriesId + 14)) ∧
    (HostWin.pf.wf = true ∧ on.winOk .pf 0 4096 = true ∧ on.winByte .pf 0 = some 0 ∧ on.winByte .pf 63 = some 63 ∧
      (HostWin.vf 15).wf = true) ∧
    (on.winOk (.vf 15) 0 1 = true ∧ on.winByte (.vf 15) 0 = none) ∧
    (0xFFFFFF < 0x1000000 ∧ (List.replicate 64 (0 : Byte)).length ≤ 512 ∧ [(0 : Byte)] ≠ []) := by
  decide +kernel

/-- Context 3 with virtual IDs 1 (local counter 16383), 2 (remote counter 7 of device 9) and 4 (a local barrier at 20). -/
def synced : State :=
  on.setObj { on.obj with syncMap := [(3 * 65536 + 1, 1 + 16 + 32 + 16383 * 256), (3 * 65536 + 2, 1 + 4 + 16 + 7 * 256 + 9 * 2 ^ 24),
    (3 * 65536 + 4, 2 + 16 + 32 + 20 * 256)] }

/-- A command word: OP, ID and COUNT. -/
def cw (op id k : Nat) : Word64 := BitVec.ofNat 64 (op + id * 256 + k * 2 ^ 24)

theorem test_syncCommands :
    (synced.wf = true ∧ synced.host.up = true ∧ synced.power.main = .ready ∧ synced.power.rails = true ∧
      synced.pageWaits 3 = false ∧ synced.fab.hot = [] ∧
      (∀ k ∈ [1, 16383], bits (cw 0 1 k).toNat 0 4 = 0 ∧ syncStatus synced 3 (cw 0 1 k).toNat = 0) ∧
      (synced.syncEntry 3 1).kind = 1 ∧ (synced.syncEntry 3 1).local_ = true) ∧
    (let s := synced.setCtr 16383 0xFFFF
     s.wf = true ∧ 0xFFFF < s.ctr 16383 + 1 ∧ synced.ctr 16383 + 1 ≤ 0xFFFF) ∧
    (bits (cw 0 2 1).toNat 0 4 = 0 ∧ syncStatus synced 3 (cw 0 2 1).toNat = 0 ∧ (synced.syncEntry 3 2).kind = 1 ∧
      (synced.syncEntry 3 2).remote = true ∧ (synced.syncEntry 3 2).multi = false) ∧
    (bits (cw 0 9 1).toNat 0 4 = 0 ∧ syncStatus synced 3 (cw 0 9 1).toNat ≠ 0) ∧
    (bits (cw 1 1 5).toNat 0 4 = 1 ∧ syncStatus synced 3 (cw 1 1 5).toNat = 0 ∧ synced.ctr 16383 < 5) ∧
    (bits (cw 2 1 0).toNat 0 4 = 2 ∧ syncStatus synced 3 (cw 2 1 0).toNat = 0 ∧
      bits (cw 2 4 3).toNat 0 4 = 2 ∧ syncStatus synced 3 (cw 2 4 3).toNat = 0) ∧
    (bits (cw 3 1 0).toNat 0 4 = 3 ∧ syncStatus synced 3 (cw 3 1 0).toNat = 0) := by
  decide +kernel

theorem test_syncMessage :
    let s := owned.setObj synced.obj
    s.wf = true ∧ s.Obeys req (.sync 3 (cw 0 1 1).toNat) ses ∧ syncStatus s 3 (cw 0 1 1).toNat = 0 := by
  simp only [obeys_iff]
  decide +kernel

/-- The barrier at 20: EXPECTED 2, round 1, and both slots as given. -/
def barrierAt (a b : Nat) : State := (((synced.setCtr 20 2).setCtr 21 1).setCtr 22 a).setCtr 23 b

theorem test_barriers :
    (bits (cw 5 4 2).toNat 0 4 = 5 ∧ syncStatus synced 3 (cw 5 4 2).toNat = 0) ∧
    (let s := barrierAt 0 0
     s.wf = true ∧ s.pageWaits 3 = false ∧ bits (cw 4 4 1).toNat 0 4 = 4 ∧ syncStatus s 3 (cw 4 4 1).toNat = 0 ∧ (s.syncEntry 3 4).local_ = true ∧
       s.barExpected 20 ≠ 0 ∧ s.barRound 20 ≠ 0 ∧ s.barDist 20 1 = 0 ∧ s.ctr (22 + s.barCur 20) + 1 < s.barExpected 20 ∧
       s.barDist 20 2 = 1 ∧ s.ctr (23 - s.barCur 20) < s.barExpected 20 ∧ 1 < s.barDist 20 3 ∧
       syncStatus s 3 (cw 4 4 2).toNat = 0 ∧ syncStatus s 3 (cw 4 4 3).toNat = 0) ∧
    (let s := barrierAt 1 0
     s.wf = true ∧ s.barDist 20 1 = 0 ∧ s.ctr (22 + s.barCur 20) + 1 = s.barExpected 20 ∧
       s.ctr (23 - s.barCur 20) ≠ s.barExpected 20 ∧ (s.syncEntry 3 4).onComplete = 0) := by
  decide +kernel

/-- A packet for this module that carries `body`. -/
def pkt (vc src : Nat) (body : List Byte) : Packet :=
  { vc := vc, dl := false, dest := 0, src := src, dir := 0, hops := 0, ctx := 3, rsv := 0, body := body }

theorem test_remoteSyncAndSleep :
    (let p := pkt 2 9 (syncBody false false 16383 16383)
     on.power.rails = true ∧ p.wf = true ∧ p.field 8 1 = 0) ∧
    (let p := pkt 2 9 (syncBody true false 20 1)
     let s := barrierAt 0 0
     s.wf = true ∧ s.power.rails = true ∧ p.wf = true ∧ p.field 8 1 = 1 ∧ s.barExpected (p.field 16 14) ≠ 0 ∧ s.barRound (p.field 16 14) ≠ 0 ∧
       s.barDist (p.field 16 14) (p.field 32 14) = 0 ∧
       s.ctr (p.field 16 14 + 2 + s.barCur (p.field 16 14)) + 1 < s.barExpected (p.field 16 14)) ∧
    (∀ w ∈ [true, false], let s := on.modCore 255 ({ · with asleep := true, wake := w, sleptAt := (0, 0) })
     s.wf = true ∧ (s.core 255).asleep = true ∧ (s.core 255).wake = w ∧ (w = false → s.wakeRaised 255 = false)) ∧
    (let u := on.modCore 255 ({ · with asleep := true, sleptAt := (0, 0) })
     let s := u.setSched { u.sched with posts := [(3, 1)] }
     s.wf = true ∧ tget 0 s.sched.posts (dieOf 255) ≠ (s.core 255).sleptAt.2) ∧
    (let e : Entry := ⟨BitVec.ofNat 1024 ((1 + 2 ^ 16) * 2 ^ (8 * 0x68)), 3, 0, 3, none, false, false⟩
     let u := ((synced.setCtr 16383 1).modCore 255 ({ · with asleep := true, ctx := 3, sleptAt := (0, 0) })).setDieList 3 [e]
     u.wf = true ∧ e ∈ u.dieList 3 ∧ e.ctx = (u.core 255).ctx ∧ e.taken = false ∧
       u.waitMoved e.ctx (u.core 255).sleptAt.1 (dWait e.desc 0) = true) ∧
    (on.wf = true ∧ on.sched.lists = [] ∧ (on.core 255).asleep = false ∧ (on.core 255).tiles = [] ∧
      64000 ≤ (on.clk - (on.core 255).idleFrom) * pointMHz (on.die (dieOf 255)).clock ∧
      on.notice.candidates 255 = []) := by
  decide +kernel

/-- A flit: FTYPE, further header bits, and a payload; one that is no DATA flit has VALID 244. -/
def fl (ftype hdr : Nat) (payload : List Byte) : List Byte :=
  flit (ftype + hdr + if ftype = 1 then 0 else 244 * 2 ^ 11) payload

/-- A LANE_CTRL message that reports device 1 on its link 1. -/
def lmsg (msg : Nat) : LaneMsg :=
  { msg := msg, seq := 0, device := 1, link := 1, cfgWidth := 16, width := 16, healthy := 0xFFFFF, lane := 15, spare := 19,
    atRound := 700 }

/-- The module in a torus of 4 × 4 × 4. -/
def torus : State := on.setOv torusDimId (3 + 3 * 32 + 3 * 1024)

/-- Link 0 in TRAINING with all lanes healthy, both IDENTs known. -/
def training : State :=
  torus.modLink 0 ({ · with st := .training, healthy := 0xFFFFF, width := 4, peer := some (lmsg 1), nbr := 1 })

/-- Link 0 ACTIVE. -/
def active : State :=
  torus.modLink 0 ({ · with
    st := .active, healthy := 0xFFFFF, width := 16, peer := some (lmsg 1), nbr := 1
    laneRx := List.range 16, laneTx := List.range 16 })

theorem test_linksTrain :
    (torus.wf = true ∧ (torus.link 5).st = .down ∧ torus.linkEnabled 5 = true) ∧
    (training.wf = true ∧ (training.link 0).st = .training ∧
      4 ≤ (lanes (withoutSpared 0xF (training.spareLanes 1 0))).length ∧
      (lanes (withoutSpared 7 (training.spareLanes 1 0))).length < 4) ∧
    (let raw := fl 5 0 (lmsg 1).bytes
     let m := LaneMsg.of (flPayload raw)
     training.looped 0 = false ∧ (training.link 0).healthy ≠ 0 ∧ goodFlit 5 raw ∧ m.msg = 1 ∧ m.device = training.nbrDev 0 ∧ m.link = 1 ∧
       training.me < m.device ∧ (training.link 0).txChange = none ∧ 0 < training.agreedWidth 0 ∧
       (training.link 0).waiting.any (fun w => w.msg == 1) = false) ∧
    (let raw := fl 5 0 ({ lmsg 1 with device := 2 }).bytes
     let m := LaneMsg.of (flPayload raw)
     goodFlit 5 raw ∧ m.msg = 1 ∧ training.looped 0 = false ∧ m.device ≠ training.nbrDev 0) ∧
    (active.wf = true ∧ (active.link 0).up = true ∧ active.looped 0 = false ∧
      ∀ p ∈ [(16, false), (8, true)], let raw := fl 5 0 ({ lmsg 1 with cfgWidth := p.1 }).bytes
        goodFlit 5 raw ∧ (LaneMsg.of (flPayload raw)).msg = 1 ∧ (active.link 0).peerWidth (LaneMsg.of (flPayload raw)) = p.2) ∧
    (let raw := fl 5 0 (lmsg 2).bytes
     let m := LaneMsg.of (flPayload raw)
     training.looped 0 = false ∧ goodFlit 5 raw ∧ m.msg = 2 ∧ 0 < m.width ∧ m.width = training.agreedWidth 0) ∧
    (let raw := fl 5 0 ({ lmsg 2 with width := 8 }).bytes
     let m := LaneMsg.of (flPayload raw)
     goodFlit 5 raw ∧ m.msg = 2 ∧ m.width ≠ training.agreedWidth 0) ∧
    (let raw := fl 5 0 (lmsg 3).bytes
     let m := LaneMsg.of (flPayload raw)
     let s := training.modLink 0 ({ · with waiting := [lmsg 2] })
     s.wf = true ∧ s.looped 0 = false ∧ goodFlit 5 raw ∧ m.msg = 3 ∧
       (s.link 0).waiting.any (fun w => w.msg == 2 && w.seq == m.seq && w.width == m.width) = true) ∧
    (let raw := fl 5 0 (lmsg 2).bytes
     let m := LaneMsg.of (flPayload raw)
     goodFlit 5 raw ∧ m.msg = 2 ∧ m.width = (active.link 0).width) ∧
    (let s := active.setOv linkLoopbackId 1
     s.wf = true ∧ s.looped 0 = true) ∧
    (let s := training.modLink 0 ({ · with rxChange := some (16, 700), txChange := some (16, some 700) })
     s.wf = true ∧ (s.link 0).rxDone = false ∧ (s.link 0).txDone = false ∧ 16 = s.cfgWidth 0 ∧ 16 = (lmsg 1).cfgWidth) ∧
    (let s := training.modLink 0 ({ · with rxChange := some (8, 700), txChange := some (8, some 700), txDone := true, rxDone := true })
     s.wf = true ∧ (s.link 0).rxDone = true ∧ (s.link 0).txDone = true ∧ ¬(8 = s.cfgWidth 0) ∧ 8 < min (s.cfgWidth 0) 16) ∧
    (training.link 0).up = false ∧ active.unspared 0 = [] ∧ (active.link 0).st ≠ .down := by
  unfold goodFlit
  refine ⟨?_, ?_, ?_, ?_, ?_, ?_, ?_, ?_, ?_, ?_, ?_⟩ <;> decide +kernel

theorem test_spares :
    ((active.link 0).up = true ∧ active.looped 0 = false ∧ bit (active.link 0).failRx 15 = false ∧ (active.link 0).recent = [] ∧
      (active.link 0).lostWaves = [] ∧ (active.link 0).laserTuning = none ∧ (active.link 0).waiting = [] ∧
      (active.link 0).spareRx = [] ∧ (active.link 0).spareAckRx = [] ∧ (active.link 0).laneRx.contains 15 = true ∧
      spareFree (active.link 0).failRx (active.spareLanes 1 0) 15 = true) ∧
    (let s := active.modLink 0 ({ · with failRx := 2 ^ 19 })
     s.wf = true ∧ spareFree (s.link 0).failRx (s.spareLanes 1 0) 15 = false) ∧
    (let s := active.modLink 0 ({ · with width := 8, laneRx := List.range 8 })
     s.wf = true ∧ (s.link 0).up = true ∧ (s.link 0).laneRx.contains 15 = false) ∧
    (let s := active.modLink 0 ({ · with recent := [(3, 4999001), (7, 5000000)] })
     s.wf = true ∧ bit (s.link 0).failRx 19 = false ∧ (s.link 0).lostWaves = [] ∧
       2 ≤ ((s.link 0).recent.filter (fun r => r.1 % 4 == 19 % 4 && decide (s.clk < r.2 + 1000))).length) ∧
    (let s := active.modLink 0 ({ · with recent := [(15, 4999000)] })
     s.wf = true ∧ (s.link 0).up = true ∧ s.unspared 0 ≠ []) ∧
    (let raw := fl 5 0 (lmsg 4).bytes
     let m := LaneMsg.of (flPayload raw)
     goodFlit 5 raw ∧ m.msg = 4 ∧ m.lane < 16 ∧ (active.link 0).spareAckTx = [] ∧ (active.link 0).spareTx = [] ∧
       (∀ p ∈ [(active, true), (active.modLink 0 ({ · with failTx := 2 ^ 19 }), false)],
         p.1.wf = true ∧ (p.1.link 0).up = true ∧
           spareFree ((p.1.link 0).failTx ||| 2 ^ m.lane ||| lanesNot m.healthy) (p.1.spareLanes 5 0) m.lane = p.2)) ∧
    (let raw := fl 5 0 (lmsg 5).bytes
     let m := LaneMsg.of (flPayload raw)
     let s := active.modLink 0 ({ · with waiting := [lmsg 4] })
     s.wf = true ∧ goodFlit 5 raw ∧ m.msg = 5 ∧ (s.link 0).waiting.any (fun w => w.msg == 4 && w.lane == m.lane) = true) ∧
    (let s := active.modLink 0 ({ · with spareAckRx := [(15, 19, 700)], spareAckTx := [(15, 19, some 700)] })
     s.wf = true ∧ (s.link 0).up = true) ∧
    (let s := active.modLink 0 ({ · with lostWaves := [(3, 4980000)] })
     s.wf = true ∧ (3, 4980000) ∈ (s.link 0).lostWaves ∧ 4980000 + 20000 ≤ s.clk) ∧
    ((active.link 0).lasersFailed = [] ∧ (active.link 0).laserSpare = none ∧ (active.link 0).laserTuning = none) ∧
    (let s := active.modLink 0 ({ · with lasersFailed := [0], laserTuning := some 0 })
     s.wf = true ∧ (s.link 0).lasersFailed = [0] ∧ 3 ≠ 0 ∧ (s.link 0).laserTuning = some 0) := by
  unfold goodFlit
  decide +kernel

/-- A DATA flit that is a whole packet, with its SEQ. -/
def dataFl (seq : Nat) : List Byte := fl 1 (2 ^ 9 + 2 ^ 10 + 16 * 2 ^ 11 + seq * 2 ^ 19 + 31 * 2 ^ 51) (toLE 16 0)

/-- A TIME request queued on a link. -/
def timeReq : List Byte := 4 :: toLE 8 5

theorem test_flits :
    (active.wf = true ∧ active.looped 0 = false ∧ goodFlit 1 (dataFl 0) ∧ (active.link 0).parity ≠ some (flSeq (dataFl 0)) ∧
      flSeq (dataFl 0) = (active.link 0).rxSeq) ∧
    (goodFlit 1 (dataFl 65535) ∧ flSeq (dataFl 65535) ≠ (active.link 0).rxSeq ∧
      seq16Before (flSeq (dataFl 65535)) (active.link 0).rxSeq = true) ∧
    (goodFlit 1 (dataFl 1) ∧ flSeq (dataFl 1) ≠ (active.link 0).rxSeq ∧
      seq16Before (flSeq (dataFl 1)) (active.link 0).rxSeq = false ∧ (active.link 0).nakOpen = false) ∧
    (let s := active.modLink 0 ({ · with parity := some 0 })
     s.wf = true ∧ (s.link 0).parity = some (flSeq (dataFl 0))) ∧
    (let s := active.setOv linkLoopbackId 1
     s.wf = true ∧ (s.link 0).up = true ∧ s.looped 0 = true) ∧
    flCrcOk (List.replicate 256 1) = false ∧
    (let raw := flit 0 []
     flCrcOk raw = true ∧ flBad raw = true) ∧
    (goodFlit 0 (fl 0 (31 * 2 ^ 51) []) ∧ 31 = flCrClass (fl 0 (31 * 2 ^ 51) [])) ∧
    (let raw := fl 0 (24 * 2 ^ 51 + 2 * 2 ^ 56) []
     let s := active.modLink 0 ({ · with used := [(24, 5)] })
     s.wf = true ∧ goodFlit 0 raw ∧ flCrClass raw ≤ 24 ∧ tget 0 (s.link 0).used (flCrClass raw) = 5 ∧ flCrCount raw < 5) ∧
    goodFlit 2 (fl 2 0 (toLE 2 7)) ∧
    (let f : BufFlit := bufFlit (dataFl 7) 1
     let raw := fl 3 0 (toLE 2 7)
     let s := active.modLink 0 ({ · with retry := [f] })
     s.wf = true ∧ goodFlit 3 raw ∧ f ∈ (s.link 0).retry ∧ f.seq = bytesField (flPayload raw) 0 16 ∧
       seq16Before f.seq (flAck raw) = false) ∧
    (let s := active.modLink 0 ({ · with nakOpen := true, rx := [bufFlit (dataFl 7) 1], ctl := [[2, 0, 0]] })
     s.wf = true ∧ (s.link 0).nakOpen = true ∧ (s.link 0).parity = none) ∧
    (let s := active.modLink 0 ({ · with ctl := [[2, 0, 0], timeReq] })
     s.wf = true ∧ (s.link 0).lastRound ≠ s.rounds 0 + 1 ∧ (s.link 0).ctl.find? isTimeFlit = some timeReq ∧
       (s.link 0).ctl.find? (fun c => !isTimeFlit c) = some [2, 0, 0]) ∧
    (let s := active.modLink 0 ({ · with ctl := [timeReq, [2, 0, 0]], lastRound := active.rounds 0 + 1 })
     s.wf = true ∧ (s.link 0).lastRound = s.rounds 0 + 1 ∧ (s.link 0).ctl.find? (fun c => !isTimeFlit c) = some [2, 0, 0]) ∧
    (let s := active.modLink 0 ({ · with again := [7], retry := [bufFlit (dataFl 7) 1] })
     s.wf = true ∧ (s.link 0).ctl.find? isTimeFlit = none ∧ (s.link 0).ctl.find? (fun c => !isTimeFlit c) = none ∧
       (s.link 0).again = 7 :: []) ∧
    (let s := active.modLink 0 ({ · with out := [⟨pkt 0 9 [0], 0, false, []⟩] })
     s.wf = true ∧ (s.link 0).ctl.find? isTimeFlit = none ∧ (s.link 0).ctl.find? (fun c => !isTimeFlit c) = none ∧
       (s.link 0).again = [] ∧ s.looped 0 = false ∧ (s.link 0).retry.length < 4096 ∧
       (s.link 0).arbitrate ≠ none) := by
  unfold goodFlit
  refine ⟨?_, ?_, ?_, ?_, ?_, ?_, ?_, ?_⟩ <;> decide +kernel

/-- The last of the hub's units has a packet waiting, or another port. -/
def injected (s : State) (key : Nat) (p : Packet) : State := s.setRouter { s.router with inj := [(key, [p])] }

theorem test_routing :
    (State.reset.wf = true ∧ State.reset.power.rails = false) ∧
    (∀ k ∈ [12, hubSelf], let s := injected torus k { pkt 2 9 [0x40] with rsv := 1 }
     s.wf = true ∧ s.power.rails = true ∧ tget [] s.router.inj k = { pkt 2 9 [0x40] with rsv := 1 } :: [] ∧
       (∀ v, v < 6 → v ≠ 5 → tget [] s.router.inj (hubGddr + v) = []) ∧
       s.routeBad { pkt 2 9 [0x40] with rsv := 1 } = true) ∧
    (let s := (injected torus hubSelf (pkt 2 9 [0x40])).setRouter
       { torus.router with inj := [(hubUrn, [pkt 2 9 [0x41]]), (hubSelf, [pkt 2 9 [0x40]])], hubLast := 4 }
     s.wf = true ∧ s.router.hubTurn = some (5, pkt 2 9 [0x40]) ∧ pktFlits (pkt 2 9 [0x40]) ≤ tget 0 s.router.hubSent 5 + 1) ∧
    (∀ q ∈ [(pkt 2 9 [0x40], false), (pkt 5 9 [0x70], true)], let s := injected torus hubSelf q.1
     s.wf = true ∧ s.routeBad q.1 = false ∧ isTree q.1 = false ∧ s.exitLink q.1 = none ∧ s.isChunk q.1 = q.2) ∧
    (let p := { pkt 2 0 [0x40] with dest := 1 }
     let s := injected active 0 p
     s.wf = true ∧ s.routeBad p = false ∧ isTree p = false ∧ s.exitLink p = some 0 ∧ (s.link 0).up = true ∧
       (torus.link 0).st = .down ∧ torus.exitLink p = some 0) ∧
    (let p := pkt 2 0 (toLE 8 (0x40 + 2 ^ 9))
     let s := injected (active.setOv (jobBlockId + 3) (2 ^ 31 + 2 ^ 16)) 12 p
     s.wf = true ∧ s.routeBad p = false ∧ isTree p = true ∧ s.branches p = [0] ∧ (s.link 0).up = true) ∧
    (let s := on.setRouter { on.router with outq := [(12, [⟨pkt 11 9 [0x40], 0, false, []⟩])] }
     s.wf = true ∧ s.power.rails = true ∧ s.router.outNext 12 = some ⟨pkt 11 9 [0x40], 0, false, []⟩) ∧
    (let f := bufFlit (dataFl 7) 1
     let s := active.modLink 0 ({ · with rx := [f] })
     s.wf = true ∧ s.power.rails = true ∧ tget [] s.router.inj 0 = [] ∧ s.readable 0 = some [f] ∧
       s.routeBad (packetFrom [f]) = false ∧ isTree (packetFrom [f]) = false ∧ s.exitLink (packetFrom [f]) = none ∧
       s.isChunk (packetFrom [f]) = false) ∧
    (tget [] active.router.inj 0 = [] ∧ active.readable 0 = none) ∧
    (let p := pkt 0 9 (toLE 8 (0x92 + 3 * 2 ^ 16))
     let s := (stepsOf on).modStp 3 ({ · with st := .running })
     s.wf = true ∧ p.wf = true ∧ s.power.rails = true ∧ s.stepsOn (p.field 16 4) = true ∧ (s.stp (p.field 16 4)).st = .running) := by
  refine ⟨?_, ?_, ?_, ?_, ?_, ?_, ?_, ?_, ?_, ?_⟩ <;> decide +kernel

/-- TIME flits: a request, and a reply with T1, T2 and T3 and STATE 10b. -/
def timeFl (kind t1 t2 t3 : Nat) : List Byte :=
  fl 4 0 (toLE 8 (5 + kind * 2 ^ 16 + 2 * 2 ^ 17 + 3 * 2 ^ 19) ++ toLE 8 t1 ++ toLE 8 t2 ++ toLE 8 t3)

/-- Link 0 ACTIVE in a torus whose root is device 1. -/
def child : State := (active.setOv ftRootId 1).setFt { active.ft with running := true, st := .acquiring, now := 1000 }

/-- The reading of fabric time at a link is 1 to 3 ns old (R22). -/
theorem ftRead_link (s : State) : s.ft.now - 3 ≤ s.ftRead linkPs ∧ s.ftRead linkPs + 1 ≤ max 1 s.ft.now := by
  have h := Nat.mod_lt (Config.sampleAge s.clk 571) (show 0 < 571 + 1000 by decide)
  simp only [State.ftRead, linkPs]
  omega

/-- An exchange whose request has left at 800. -/
def exchanging (s : State) : State := s.setFt { s.ft with parent := some 0, exch := [(0, ⟨5, some 800⟩)] }

theorem test_fabricTime :
    ((active.link 0).up = true ∧ child.looped 0 = false) ∧
    (∀ k ∈ [0, 1], let s := child.modLink 0 ({ · with ctl := [4 :: child.timeBody 5 k 0 0 0] })
     let s := s.setFt { s.ft with exch := [(0, ⟨5, none⟩)] }
     let b := bytesField ((4 :: child.timeBody 5 k 0 0 0).drop 1)
     s.wf = true ∧ (s.link 0).lastRound ≠ s.rounds 0 + 1 ∧
       (s.link 0).ctl.find? isTimeFlit = some (4 :: child.timeBody 5 k 0 0 0) ∧ b 16 1 = k ∧
       tget? s.ft.exch 0 = some ⟨5, none⟩ ∧ 5 = b 0 16) ∧
    (let raw := timeFl 0 0 900 0
     child.wf = true ∧ (child.link 0).up = true ∧ goodFlit 4 raw ∧ bytesField (flPayload raw) 16 1 = 0) ∧
    (∀ x ∈ [900, 5000], let raw := timeFl 1 800 x x
     let s := (exchanging child).setFt { (exchanging child).ft with moved := true, inLock := 63 }
     s.wf = true ∧ goodFlit 4 raw ∧ bytesField (flPayload raw) 16 1 = 1 ∧
       tget? s.ft.exch 0 = some ⟨5, some 800⟩ ∧ 5 = bytesField (flPayload raw) 0 16 ∧ s.ft.parent = some 0 ∧
       s.rootLink = some 0 ∧ s.isTimeRoot = false ∧ bytesField (flPayload raw) 17 2 = 2 ∧ s.ft.st = .acquiring ∧
       bytesField (flPayload raw) 128 64 = x ∧ bytesField (flPayload raw) 192 64 = x ∧ sext 32 (s.ov ftAsymId) = 0) ∧
    (let s := child.setFt { child.ft with nbr := [(0, ⟨2, 3, some 0⟩)] }
     s.wf = true ∧ s.isTimeRoot = false ∧ s.ft.parent = none ∧ s.rootLink = some 0 ∧ s.canParent 0 = true) ∧
    (let s := ((child.setOv ftRootId 32).setFt { child.ft with nbr := [(0, ⟨2, 3, some 0⟩)] })
     s.wf = true ∧ s.isTimeRoot = false ∧ s.bestParent = some 0 ∧ s.rootLink = some 2 ∧ s.canParent 2 = false) ∧
    (∀ st ∈ [FtSt.acquiring, .locked], let s := child.setFt { child.ft with now := 1000000, lostAt := some 0, st := st }
     s.wf = true ∧ s.ft.parent = none ∧ s.ft.lostAt = some 0 ∧ s.ft.st = st ∧ 0 + 1000000 ≤ s.ft.now) := by
  unfold goodFlit
  refine ⟨?_, ?_, ?_, ?_, ?_, ?_, ?_⟩ <;> decide +kernel

/-- The offset is within 10 ns where T2 = T3 = 900, and outside where they are 5000. -/
theorem test_fabricTimeOffset (s : State) (h : s.ft.now = 1000) :
    (-10000 ≤ timeOffset 800 900 900 (s.ftRead linkPs) 0 ∧ timeOffset 800 900 900 (s.ftRead linkPs) 0 ≤ 10000) ∧
    ¬(-10000 ≤ timeOffset 800 5000 5000 (s.ftRead linkPs) 0 ∧ timeOffset 800 5000 5000 (s.ftRead linkPs) 0 ≤ 10000) := by
  have := ftRead_link s
  simp only [timeOffset]
  omega

/-- A work descriptor from (bit, width, value) fields over the smallest valid shape, 1 × 1. -/
def wd (fs : List (Nat × Nat × Nat)) : WorkDesc :=
  BitVec.ofNat 1024 (fs.foldl (fun v f => setBits v f.1 f.2.1 f.2.2) (setBits (setBits 0 80 8 1) 88 8 1))

/-- Bit position of the descriptor word `i`. -/
def wordBit (i : Nat) : Nat := 8 * (0x28 + 8 * i)

/-- Device memory with an F32 tensor of 128 × 128 at 0x40, INT8 ones of 128 × 128 at 0x80 and of 128 rows of 2 at 0x140, and an
UPDATE block at 0x1000. -/
def stocked : State :=
  (((on.storeDev 0x40 (toLE 64 (0x10000 + 128 * 2 ^ 96 + 128 * 2 ^ 128 + 512 * 2 ^ 160))).storeDev 0x80
    (toLE 64 (0x20000 + 6 * 2 ^ 64 + 128 * 2 ^ 96 + 128 * 2 ^ 128 + 128 * 2 ^ 160))).storeDev 0x140
    (toLE 64 (0x30000 + 6 * 2 ^ 64 + 2 * 2 ^ 96 + 128 * 2 ^ 128 + 128 * 2 ^ 160))).storeDev 0x1000
    (toLE 128 (128 * 2 ^ 640 + 128 * 2 ^ 672))

/-- A tile of context 0 in the list of die 3. -/
def entry (d : WorkDesc) : Entry :=
  { desc := d, ctx := 0, seq := 7, die := 3, readyAt := none, taken := false, reissued := false }

/-- That tile is listed, and the context may send to the module itself. -/
def listed (d : WorkDesc) : State := (stocked.setOv jobBlockId (2 ^ 31)).setDieList 3 [entry d]

/-- One tile of each TYPE that a core accepts without a chain. -/
def dMatmul : WorkDesc := wd [(wordBit 0, 64, 0x40), (wordBit 1, 64, 0x40)]
def dVector : WorkDesc := wd [(32, 4, 1)]
def dCopy : WorkDesc := wd [(32, 4, 2)]
def dUpdate : WorkDesc := wd [(32, 4, 4), (56, 8, 0x30), (wordBit 0, 64, 0x1000), (wordBit 1, 64, 0x40), (wordBit 3, 64, 0x2000)]
def dPost : WorkDesc := wd [(32, 4, 7), (wordBit 2, 64, 0x80), (8 * 0x14, 32, 3)]
def dSend : WorkDesc := wd [(32, 4, 5), (wordBit 0, 64, 0x80), (8 * 0x78, 32, 0)]
def dChained : WorkDesc := wd [(46, 2, 2), (64, 16, 5), (wordBit 0, 64, 0x40), (wordBit 1, 64, 0x40)]

theorem test_tilesAccepted :
    (∀ p ∈ [(dVector, 1), (dCopy, 2), (dUpdate, 4), (dPost, 7), (dMatmul, 0)], let s := listed p.1
     s.wf = true ∧ s.mem.found = [] ∧ s.notice.choose 255 = some { entry p.1 with readyAt := some 5000000 } ∧ dType p.1 = p.2 ∧
       ((s.notice.unlist (entry p.1)).takeWaits (entry p.1)).refusal 255 (entry p.1) = 0 ∧ s.notice.badWait 255 p.2 = none ∧
       s.notice.hdrCauses 255 { entry p.1 with readyAt := some 5000000 } = []) ∧
    (let s := listed dPost
     (((s.notice.unlist (entry dPost)).takeWaits (entry dPost)).newTile 255 (entry dPost) none).status = 0 ∧
       s.sched.nextSeq < 2 ^ 47) ∧
    (dAccMode dMatmul ≠ 2 ∧ ((listed dMatmul).core 255).freeSlot = some 0) := by
  decide +kernel

theorem test_sendAndChainAccepted :
    (let u := listed dSend
     let s := u.setUrn { u.urn with sends := [⟨0, 7, 0, 0, some 1⟩] }
     s.wf = true ∧ s.mem.found = [] ∧ s.notice.choose 255 = some { entry dSend with readyAt := some 5000000 } ∧ dType dSend = 5 ∧
       ((s.notice.unlist (entry dSend)).takeWaits (entry dSend)).refusal 255 (entry dSend) = 0 ∧
       s.notice.badWait 255 5 = none) ∧
    (let s := (listed dChained).modCore 255 (fun c => c.setSlot 15 { Slot.free with st := .held, ctx := 0, chain := 5 })
     s.wf = true ∧ s.mem.found = [] ∧ s.notice.choose 255 = some { entry dChained with readyAt := some 5000000 } ∧ dType dChained = 0 ∧
       dAccMode dChained = 2 ∧ (s.core 255).chainSlot 0 (dChain dChained) = some 15 ∧
       ((s.notice.unlist (entry dChained)).takeWaits (entry dChained)).refusal 255 (entry dChained) = 0) := by
  decide +kernel

/-- `stocked` with an F32 tensor of device 9 at 0xC0 and one in stored-tile form at 0x100, and a region of device 9 that
grants everything to context 0. -/
def peered : State :=
  let s := (stocked.storeDev 0xC0 (toLE 64 (9 * 2 ^ 41 + 3 * 2 ^ 72 + 128 * 2 ^ 96 + 128 * 2 ^ 128 + 512 * 2 ^ 160))).storeDev 0x100
    (toLE 64 (9 * 2 ^ 41 + 3 * 2 ^ 72 + 2 * 2 ^ 75 + 128 * 2 ^ 96 + 128 * 2 ^ 128))
  s.setObj { s.obj with region := [(0, 2 ^ 40 * 2 ^ 64 + 9 * 2 ^ 128 + 2 ^ 144 + 2 ^ 160 + 2 ^ 162 + 2 ^ 163 + 2 ^ 164)] }

/-- A stored-tile header at a peer has not come; and a wait on an ID without an entry. -/
theorem test_tilesWithdrawnOrWaiting :
    (let d := wd [(32, 4, 2), (wordBit 0, 64, 0x100)]
     let s := peered.setDieList 3 [entry d]
     s.wf = true ∧ s.notice.choose 255 = some { entry d with readyAt := some 5000000 } ∧ dType d = 2 ∧
       (s.notice.hdrCauses 255 { entry d with readyAt := some 5000000 }).any (fun c => isMiss c.1) = true ∧
       s.notice.badWait 255 2 = none) ∧
    (∀ ty ∈ [0, 1, 2, 3, 4, 5, 7], let d := wd [(32, 4, ty), (8 * 0x68, 32, 9 + 2 ^ 16)]
     let s := listed d
     s.wf = true ∧ s.notice.badWait 255 ty = some (entry d, 0x20)) ∧
    (let d := wd [(32, 4, 15), (8 * 0x68, 32, 9 + 2 ^ 16)]
     (listed d).wf = true ∧ (listed d).notice.badWait 255 0 = some (entry d, 0x20)) := by
  decide +kernel

/-- Engine selector 3 is reserved, and so is TYPE 8. A SEND tile that will be refused waits for its credit like another. -/
theorem test_tilesRefused :
    ∀ ty ∈ [0, 1, 2, 4, 5, 7, 8], let d := wd [(32, 4, ty), (44, 2, 3)]
      let u := listed d
      let s := u.setUrn { u.urn with sends := [⟨0, 7, 0, 0, some 1⟩] }
      s.wf = true ∧ s.mem.found = [] ∧ s.notice.choose 255 = some { entry d with readyAt := some 5000000 } ∧ dType d = ty ∧
        ((s.notice.unlist (entry d)).takeWaits (entry d)).refusal 255 (entry d) ≠ 0 ∧ s.notice.badWait 255 ty = none ∧
        s.notice.hdrCauses 255 { entry d with readyAt := some 5000000 } = [] := by
  decide +kernel

/-- An EMIT tile that will be refused waits for its chain like another. -/
theorem test_emitRefused :
    let d := wd [(32, 4, 3), (44, 2, 3), (64, 16, 5)]
    let s := (listed d).modCore 255 (fun c => c.setSlot 0 { Slot.free with st := .held, ctx := 0, chain := 5 })
    s.wf = true ∧ s.notice.choose 255 = some { entry d with readyAt := some 5000000 } ∧ dType d = 3 ∧
      ((s.notice.unlist (entry d)).takeWaits (entry d)).refusal 255 (entry d) ≠ 0 ∧ s.notice.badWait 255 3 = none := by
  decide +kernel

theorem test_tilesProgress :
    (let x := { tileAt 7 .computing dMatmul with slot := some 0 }
     let s := stocked.modCore 255 (fun c => { c.setSlot 0 { Slot.free with st := .accumulating } with tiles := [x] })
     s.wf = true ∧ (s.core 255).tiles[0]? = some x ∧ x.stage = .computing ∧ (s.core 255).idleQ = false ∧
       dType x.desc = 0 ∧ x.slot = some 0 ∧ (s.mmRun 255 x ((s.core 255).slot 0) x.kEff).2.1.misses = false) ∧
    (∀ p ∈ [(dVector, 1), (dCopy, 2), (dUpdate, 4)], let x := { tileAt 7 .computing p.1 with ctx := 0 }
     let s := stocked.modCore 255 ({ · with tiles := [tileAt 1 .storing 0, tileAt 2 .storing 0, tileAt 3 .storing 0, x] })
     s.wf = true ∧ (s.core 255).tiles[3]? = some x ∧ dType x.desc = p.2 ∧ (s.core 255).idleQ = false ∧
       (p.2 = 1 → (s.vecRun 255 x).2.misses = false) ∧ (p.2 = 2 → (s.copyRun 255 x).2.misses = false) ∧
       (p.2 = 4 → (s.updRun 255 x).2.misses = false)) ∧
    (let x := { tileAt 7 .epilogue dMatmul with slot := some 15 }
     let s := stocked.modCore 255 ({ · with tiles := [tileAt 1 .storing 0, x] })
     s.wf = true ∧ (s.core 255).tiles[1]? = some x ∧ (s.core 255).idleQ = false ∧ x.slot = some 15 ∧
       ((s.core 255).tiles.take 1).any (fun y => y.stage == .epilogue) = false ∧
       (s.epiRun 255 x ((s.core 255).slot 15)).2.misses = false ∧ twf Slot.free (s.core 255).slots = true) ∧
    (let x := { tileAt 7 .storing dVector with ctx := 0, stores := [(0, 0, 0x3000, [1, 2], 4)] }
     let s := stocked.modCore 255 ({ · with tiles := [x] })
     let r := State.applyStores 255 x.ctx x.seq x.stores (s.noteNorm x)
     s.wf = true ∧ (s.core 255).tiles[0]? = some x ∧ x.status = 0 ∧ x.causes = [] ∧ s.forbidden x = [] ∧ s.mem.found = [] ∧ x.frees = [] ∧
       r.1.acksOpen 255 x = false ∧ r.2 = [] ∧ dCplAlways x.desc = false ∧ x.flags = 0 ∧
       twf Slot.free (s.core 255).slots = true ∧ s.anyUnmapped 0x3000 [(1 : Byte), 2].length = false) := by
  decide +kernel

/-- Tiles whose operands lie at device 9, and one that stores there. -/
theorem test_tilesAtPeers :
    (let x := { tileAt 7 .computing (wd [(wordBit 0, 64, 0xC0), (wordBit 1, 64, 0x40)]) with ctx := 0, slot := some 0 }
     let s := peered.modCore 255 ({ · with tiles := [x] })
     s.wf = true ∧ (s.core 255).tiles[0]? = some x ∧ dType x.desc = 0 ∧
       (s.mmRun 255 x ((s.core 255).slot 0) x.kEff).2.1.misses = true) ∧
    (let x := { tileAt 7 .computing (wd [(32, 4, 1), (56, 8, 1), (wordBit 2, 64, 0xC0)]) with ctx := 0 }
     dType x.desc = 1 ∧ (peered.vecRun 255 x).2.misses = true) ∧
    (let x := { tileAt 7 .computing (wd [(32, 4, 2), (wordBit 0, 64, 0xC0)]) with ctx := 0 }
     dType x.desc = 2 ∧ (peered.copyRun 255 x).2.misses = true) ∧
    (let x := { tileAt 7 .computing (wd [(32, 4, 4), (56, 8, 0x30), (wordBit 0, 64, 0x1000), (wordBit 1, 64, 0xC0)]) with ctx := 0 }
     dType x.desc = 4 ∧ (peered.updRun 255 x).2.misses = true) ∧
    (let x := { tileAt 7 .epilogue (wd [(56, 8, 0x14), (wordBit 3, 64, 0xC0)]) with ctx := 0, slot := some 15 }
     (peered.epiRun 255 x Slot.free).2.misses = true) ∧
    (let x := { tileAt 7 .storing dVector with ctx := 0, stores := [(3, 0, 9 * 2 ^ 41, [1, 2], 4)] }
     let s := peered.modCore 255 ({ · with tiles := [x] })
     s.wf = true ∧ (s.core 255).tiles[0]? = some x ∧ s.forbidden x = [] ∧ s.mem.found = [] ∧
       (State.applyStores 255 x.ctx x.seq x.stores (s.noteNorm x)).1.acksOpen 255 x = true) := by
  decide +kernel

/-- A tile whose chain no core holds and whose engine selector is reserved. -/
def dMissing : WorkDesc := wd [(46, 2, 2), (44, 2, 3), (64, 16, 5)]

theorem test_lists :
    (let x := { tileAt 7 .posting dPost with ctx := 0 }
     let s := stocked.modCore 255 ({ · with tiles := [x] })
     let w := s.tensAt (dWord x.desc 2)
     let a := w.base + (dRow0 x.desc + x.row) * w.stride1
     s.wf = true ∧ (s.core 255).tiles = [x] ∧ x.stage = .posting ∧ x.row < x.mEff ∧ x.row + 1 = x.mEff ∧
       (s.core 255).idleQ = false ∧ ((s.modCore 255 ({ · with idleQ := true })).core 255).idleQ = true ∧
       (s.post x.ctx (postTarget x) 
         (descOf (lostBytes s.lostNow (s.source 0 x.ctx x.seq x.evalC false w a 128).1))).isSome = true) ∧
    (let s := stocked.setSched { stocked.sched with overflow := [entry 1] }
     s.wf = true ∧ (s.sched.overflow.filter (fun y => y.die == 3)).head? = some (entry 1) ∧ (s.dieList 3).length < 4096) ∧
    (∀ p ∈ [(dChained, 1), (dMissing, 0)], let s := listed p.1
     s.wf = true ∧ s.missing 3 = some (entry p.1) ∧ (entry p.1).die = 3 ∧
       (((s.unlist (entry p.1)).takeWaits (entry p.1)).refusal17 192 (entry p.1) == 0) = (p.2 == 1)) := by
  refine ⟨?_, ?_, ?_⟩ <;> decide +kernel

/-- A die list of 4,096 entries, and overflow entries of context 14 that take its own and all the shared space. -/
theorem post_full (u : State) (a b : List Entry) (d : WorkDesc) (hb : b.length = 4096)
    (ha : ∀ c, (a.filter (fun e => e.ctx == c)).length = if c = 14 then 34816 else 0) :
    (u.setSched { u.sched with lists := [(3, b)], overflow := a }).post 14 3 d = none := by
  simp [State.post, State.dieList, State.overRoom, State.overOf, State.setSched, tget, allCtx, ha, hb, List.range,
    List.range.loop]

theorem filter_replicate_ctx (n c : Nat) (e : Entry) (h : e.ctx = 14) :
    ((List.replicate n e).filter (fun e => e.ctx == c)).length = if c = 14 then n else 0 := by
  by_cases hc : c = 14
  · simp [h, hc]
  · simp [h, hc, Ne.symm hc]

/-- A core with a POST tile that waits for room. -/
def posting : State := stocked.modCore 255 ({ · with tiles := [{ tileAt 7 .posting dPost with ctx := 14 }] })

theorem posting_core : (posting.core 255).tiles = [{ tileAt 7 .posting dPost with ctx := 14 }] := by decide +kernel

theorem core_setSched (u : State) (y : Sched) (n : Nat) : (u.setSched y).core n = u.core n := rfl

/-- A POST tile that finds no room. -/
theorem test_postWaits (d : WorkDesc) : ∃ s : State,
    (s.core 255).tiles = [{ tileAt 7 .posting dPost with ctx := 14 }] ∧ s.post 14 3 d = none := by
  refine ⟨posting.setSched { posting.sched with
    lists := [(3, List.replicate 4096 (entry 1))]
    overflow := List.replicate 34816 { entry 1 with ctx := 14 } }, ?_, ?_⟩
  · rw [core_setSched, posting_core]
  · exact post_full _ _ _ d List.length_replicate (fun c => filter_replicate_ctx _ c _ rfl)

/-- The submission queue of context 14 runs, and its target list has no room. -/
theorem test_submissionQueueFull (d : WorkDesc) : ∃ s : State,
    s.sqRuns 14 = true ∧ (s.page 14).sqHeld = none ∧ s.post 14 (sqTarget (s.sqCfg 14)) d = none := by
  have ht : sqTarget (sqState.sqCfg 14) = 3 := by decide +kernel
  refine ⟨sqState.setSched { sqState.sched with
    lists := [(3, List.replicate 4096 (entry 1))]
    overflow := List.replicate 34816 { entry 1 with ctx := 14 } }, ?_, ?_, ?_⟩
  · exact (by decide +kernel : sqState.sqRuns 14 = true)
  · exact (by decide +kernel : (sqState.page 14).sqHeld = none)
  · have h := post_full sqState (List.replicate 34816 { entry 1 with ctx := 14 }) (List.replicate 4096 (entry 1)) d
      List.length_replicate (fun c => filter_replicate_ctx _ c _ rfl)
    rw [← ht] at h
    exact h

/-- The slice of core 255 is over, by a reading of fabric time of its die. -/
theorem late_slice (s : State) (h : (s.core 255).sliceAt + s.ov ctxSliceId * 1000 + 10 ≤ 2 ^ 40) (hp : s.diePs 3 ≤ 2000) :
    ((late s).core 255).sliceAt + (late s).ov ctxSliceId * 1000 ≤ (late s).ftRead ((late s).diePs (dieOf 255)) :=
  late_reads _ _ _ (by
    show (s.core 255).sliceAt + s.ov ctxSliceId * 1000 + (3 * s.diePs 3 + 1999) / 1000 ≤ 2 ^ 40
    omega)

theorem test_contexts :
    (let s := late on
     let v := (s.modCore 255 ({ · with wake := true })).notice
     s.wf = true ∧ s.power.rails = true ∧ (s.core 255).switchTo = none ∧
       (ctxFrom (s.core 255).ctx).filter (v.ctxReady 255) = []) ∧
    (let s := late (stocked.setDieList 3 [{ entry dVector with ctx := 3 }])
     let x := { tileAt 8 .computing dVector with ctx := 0 }
     let y := { tileAt 8 .computing dMatmul with ctx := 0, begun := true, slot := some 15, kDone := 1 }
     let y' := { tileAt 8 .stopped dMatmul with ctx := 0, begun := false, slot := some 15 }
     let w := (s.modCore 255 ({ · with tiles := [x] }))
     let z := s.modCore 255 (fun c => { c.setSlot 15 { Slot.free with st := .accumulating } with tiles := [y] })
     let z' := s.modCore 255 (fun c => { c.setSlot 15 { Slot.free with st := .accumulating } with tiles := [y'] })
     (∀ q ∈ [s, w, z, z'], let v := (q.modCore 255 ({ · with wake := true })).notice
       q.wf = true ∧ q.power.rails = true ∧ (q.core 255).switchTo = none ∧
         ((ctxFrom (q.core 255).ctx).filter (v.ctxReady 255)).head? = some 3 ∧
         (q.core 255).sliceAt + q.ov ctxSliceId * 1000 + 10 ≤ 2 ^ 40 ∧ q.diePs 3 ≤ 2000 ∧ q.ft.now = 2 ^ 40) ∧
       (s.core 255).tiles = [] ∧ (w.core 255).tiles = [x] ∧ x.begun = false ∧ x.stage = .computing ∧ x.slot = none ∧
       (z.core 255).tiles = [y] ∧ dType y.desc = 0 ∧ y.begun = true ∧ y.stage = .computing ∧ y.slot = some 15 ∧
       ((z.core 255).slot 15).st = .accumulating ∧
       (z'.core 255).tiles = [y'] ∧ dType y'.desc = 0 ∧ y'.begun = false ∧ y'.stage = .stopped ∧ y'.slot = some 15 ∧
       ((z'.core 255).slot 15).st = .accumulating ∧ 0 < [1].getD 0 0 ∧
       (let u := (z.modCore 255 ({ · with wake := true })).notice.modCore 255 ({ · with switchTo := some 3 })
        (u.mmRun 255 y ((z.core 255).slot 15) (max y.kDone (boundary (u.mmGroup y) y.kEff 0))).2.1.misses = false) ∧
       (let u := (z'.modCore 255 ({ · with wake := true })).notice.modCore 255 ({ · with switchTo := some 3 })
        (u.mmRun 255 y' ((z'.core 255).slot 15) (max y'.kDone (boundary (u.mmGroup y') y'.kEff 1))).2.1.misses = false)) ∧
    (let s := (on.setOv accSaveBaseId 0x100000).modCore 255 ({ · with switchTo := some 3 })
     let c := s.core 255
     s.wf = true ∧ c.switchTo = some 3 ∧ c.tiles = [] ∧ c.slots = [] ∧ 3 ≠ c.ctx ∧ c.savedHeld.contains 3 = false ∧
       s.anyUnmapped (s.saveArea c.ctx 255) 256 = false ∧ s.saveArea c.ctx 255 % 64 = 0) := by
  refine ⟨?_, ?_, ?_⟩ <;> decide +kernel

/-- A LAYER_CFG: TOP-1, a policy, one expert, capacity 4, and a group of this module alone. -/
def layer (policy : Nat) : Nat := 1 + policy * 4 + 4 * 2 ^ 24

/-- Context 0 in a block of this module, layer 0, its only expert placed here. -/
def moe (policy : Nat) : State :=
  let s := (stocked.setOv jobBlockId (2 ^ 31)).setOv layerCfgId (layer policy)
  s.setObj { s.obj with expert := [(0, 1)] }

/-- An EXCHANGE tile of layer 0: CMD, tokens, and its words, each the F32 tensor, but ADMIT's sequence IDs. -/
def dExch (cmd tokens : Nat) (words : List Nat) : WorkDesc :=
  wd ([(32, 4, 6), (96, 32, tokens), (8 * 0x78, 32, cmd + 9 * 2 ^ 20)] ++
    words.map (fun i => (wordBit i, 64, if cmd = 0 ∧ i = 1 then 0x140 else 0x40)))

def dAdmit : WorkDesc := dExch 0 1 [0, 1, 4, 5, 6]
def dDispatch : WorkDesc := dExch 1 1 [0, 1]
def dReturn : WorkDesc := dExch 2 1 [0, 1]
def dCombine : WorkDesc := dExch 3 1 [0, 2, 4]
def dOpenBwd : WorkDesc := dExch 4 1 [0, 1, 5, 6]

/-- Such a tile listed on die 0; where the tensor begins stand a receive count of 1, and an admitted tag. -/
def xListed (d : WorkDesc) : State :=
  (((moe 0).storeDev 0x10000 (toLE 16 (1 + 2 ^ 115 + 2 ^ 116))).storeDev 0x10900 (toLE 16 (2 ^ 115 + 2 ^ 116))).setDieList 0
    [{ entry d with die := 0 }]

/-- What the exchange engine finds first. -/
def xFirst (s : State) : Option Entry :=
  pickBy xBefore (((List.range 4).flatMap s.notice.dieList).filter s.notice.txeReady)

/-- The list entry of such a tile, and the state in which the engine has taken it up. -/
def xEntry (d : WorkDesc) : Entry := { entry d with die := 0, readyAt := some 5000000 }
def xTaken (d : WorkDesc) : State := ((xListed d).notice.unlist (xEntry d)).takeWaits (xEntry d)

/-- What the engine would find in reading each kind of tile. -/
def xCauses (d : WorkDesc) (v : State) : List (Nat × Nat) :=
  let x := v.newTxe (xEntry d)
  let u := (v.urnTileFlags d (v.urnCauses 0 d)).evalNote x.evalC
  match xKind d with
  | 0 => (u.readTokens x (u.xTokens x)).2
  | 1 => (State.dispatchRun x u).causes
  | 2 => (State.returnRun x u).causes
  | 3 => (State.combineRun x u).causes
  | _ => (State.openBwd x u).causes

theorem test_exchangeTiles :
    ∀ p ∈ [(dAdmit, 0), (dDispatch, 1), (dReturn, 2), (dCombine, 3), (dOpenBwd, 4)],
      let s := xListed p.1
      let cfg := s.layerCfg (xLayer p.1)
      let x := (xTaken p.1).newTxe (xEntry p.1)
      s.wf = true ∧ xFirst s = some (xEntry p.1) ∧ s.mem.found = [] ∧ s.writesOpen txeCore 0 7 = false ∧
        s.notice.badWaitX (xKind p.1) = none ∧ s.notice.heldX p.2 = none ∧ s.notice.unreadX p.2 = none ∧
        (xTaken p.1).refusal17 0 (xEntry p.1) = 0 ∧ x.mEff ≠ 0 ∧ x.nEff ≠ 0 ∧ (s.exchGroup 0 cfg).isSome = true ∧
        xKind p.1 = p.2 ∧ s.exch 0 (xId p.1) false = none ∧ s.exch 0 (xId p.1) true = none ∧ s.homes cfg ≠ [] ∧
        s.sections cfg ≠ [] ∧ (xTaken p.1).urnCauses 0 p.1 = [] ∧
        (xCauses p.1 (xTaken p.1)).any (fun q => isMiss q.1) = false := by
  decide +kernel

/-- A tile accepted earlier can go on; or it is the one of an open exchange. -/
theorem test_exchangeHeld :
    ∀ p ∈ [(dAdmit, 0), (dDispatch, 1), (dReturn, 2), (dCombine, 3), (dOpenBwd, 4)],
      let s := xListed p.1
      let x := { (xTaken p.1).newTxe (xEntry p.1) with seq := 3, acceptTime := 0 }
      (let u := s.setTxe { s.txe with busy := [x] }
       u.wf = true ∧ xFirst u = some (xEntry p.1) ∧ u.notice.badWaitX (xKind p.1) = none ∧ xKind p.1 = p.2 ∧
         u.notice.heldX p.2 ≠ none) ∧
      (p.2 = 0 ∨ p.2 = 4 →
        let u := s.setTxe { s.txe with opens := [{ s.newExch x (p.2 == 4) with openedAt := 0 }] }
        u.wf = true ∧ xFirst u = some (xEntry p.1) ∧ u.notice.badWaitX (xKind p.1) = none ∧ u.notice.unreadX p.2 ≠ none) := by
  decide +kernel

/-- The same tiles where one of their tensors stands at device 9, in a region that grants everything to context 0. -/
def xPeer (d : WorkDesc) : State :=
  let s := (xListed d).storeDev 0xC0
    (toLE 64 (9 * 2 ^ 41 + 3 * 2 ^ 72 + 128 * 2 ^ 96 + 128 * 2 ^ 128 + 512 * 2 ^ 160))
  s.setObj { s.obj with region := [(0, 2 ^ 40 * 2 ^ 64 + 9 * 2 ^ 128 + 2 ^ 144 + 2 ^ 160 + 2 ^ 162 + 2 ^ 163 + 2 ^ 164)] }

/-- A tile with another descriptor in one word. -/
def atPeer (d : WorkDesc) (i : Nat) : WorkDesc := BitVec.ofNat 1024 (setBits d.toNat (wordBit i) 64 0xC0)

theorem test_exchangeMisses :
    ∀ p ∈ [(dAdmit, 0, 0), (dDispatch, 0, 1), (dReturn, 0, 2), (dCombine, 0, 3)], let d := atPeer p.1 p.2.1
      let s := xPeer d
      let v := (s.notice.unlist (xEntry d)).takeWaits (xEntry d)
      s.wf = true ∧ xFirst s = some (xEntry d) ∧ xKind d = p.2.2 ∧ s.mem.found = [] ∧ v.refusal17 0 (xEntry d) = 0 ∧
        s.exch 0 (xId d) false = none ∧ (xCauses d v).any (fun q => isMiss q.1) = true := by
  decide +kernel

/-- The tile with its extents limited by the shape block at 0xC00, whose words are 0. -/
def dynamic (d : WorkDesc) : WorkDesc :=
  BitVec.ofNat 1024 (setBits (setBits (setBits d.toNat 50 1 1) (8 * 0x1C) 24 0xFFFF00) 256 64 0xC00)

theorem test_exchangeEmpty :
    ∀ p ∈ [(dAdmit, 0), (dDispatch, 1), (dReturn, 2), (dCombine, 3), (dOpenBwd, 4)], let d := dynamic p.1
      xFirst (xListed d) = some (xEntry d) ∧ xKind d = p.2 ∧ (xListed d).notice.badWaitX p.2 = none ∧
        (xTaken d).refusal17 0 (xEntry d) = 0 ∧ dShapeDyn d = true ∧ ((xTaken d).newTxe (xEntry d)).mEff = 0 := by
  decide +kernel

theorem test_exchangeRows :
    (let v := xTaken dDispatch
     let x := v.newTxe (xEntry dDispatch)
     let o := v.xOp x 1
     0 < rowLen ((xListed dDispatch).tensAt (dWord dDispatch 0)) ∧ 0 < v.xTokens x ∧ xBwd dDispatch = false ∧
       tagAdmitted (o.tag 0 0).1 = true ∧
       bits (o.tag 0 0).1 112 3 < mapP (v.expertMap (v.layerCfg 0) (bits (o.tag 0 0).1 64 12))) ∧
    (let v := xTaken dReturn
     let o := v.xOp (v.newTxe (xEntry dReturn)) 1
     0 < (v.sections (v.layerCfg 0)).length ∧ 0 < leNat (o.get 0 4).1 ∧ 0 < lyCapacity (v.layerCfg 0)) ∧
    (let v := xTaken dOpenBwd
     let o := v.xOp (v.newTxe (xEntry dOpenBwd)) 0
     leNat ((o.get 0 (4 * (v.sections (v.layerCfg 0)).length)).1.take 4) ≠ 0) := by
  decide +kernel

theorem test_exchangeCombine :
    let v := xTaken dCombine
    let x := v.newTxe (xEntry dCombine)
    v.xTokens x = 1 ∧ x.causes = [] ∧ x.frees = [] ∧ (v.combineRow x 0).2.1 = [] ∧ dCplAlways dCombine = false ∧
      (v.tensAt (dWord dCombine 4)).cls = 0 ∧ v.evalOn = false ∧
      v.anyUnmapped (v.tensAt (dWord dCombine 4)).base
        (rowBytesOf (v.tensAt (dWord dCombine 4)) (v.combineRow x 0).1).1.length = false := by
  decide +kernel

theorem test_exchangeRefused :
    (∀ c ∈ [0, 1, 2, 3, 4], let d := wd [(32, 4, 6), (44, 2, 3), (8 * 0x78, 32, c)]
     let s := xListed d
     s.wf = true ∧ xFirst s = some (xEntry d) ∧ s.notice.badWaitX (xKind d) = none ∧ xKind d = c ∧
       (xTaken d).refusal17 0 (xEntry d) ≠ 0) ∧
    (let s := (xListed dAdmit).setOv jobBlockId 0
     s.wf = true ∧ xFirst s = some (xEntry dAdmit) ∧ dShapeDyn dAdmit = false ∧
       ((s.notice.unlist (xEntry dAdmit)).takeWaits (xEntry dAdmit)).refusal17 0 (xEntry dAdmit) = 0 ∧
       s.exchGroup 0 (s.layerCfg 0) = none) := by
  decide +kernel

/-- The exchange of `dAdmit` as open, in some round. -/
def openX (policy : Nat) : Exch :=
  { (moe policy).newExch { (moe policy).newTxe (xEntry dAdmit) with acceptTime := 0 } false with openedAt := 0 }

def opened (policy : Nat) : State := (moe policy).setTxe { (moe policy).txe with opens := [openX policy] }

/-- A message of that exchange: number of entries, word 2, and what follows the 16 bytes of its header. -/
def xmsg (n w2 : Nat) (rest : List Byte) : Packet :=
  { pkt 9 0 (toLE 16 (0x50 + 9 * 2 ^ 16 + n * 2 ^ 48 + w2 * 2 ^ 64) ++ rest) with ctx := 0 }

/-- The exchange that the tile at the front of its list would open is open already. -/
theorem test_exchangeReused :
    ∀ b ∈ [false, true], let d := if b then dOpenBwd else dAdmit
      let s := (xListed d).setTxe { (xListed d).txe with opens := [{ openX 0 with bwd := b }] }
      s.wf = true ∧ xFirst s = some (xEntry d) ∧ (xKind d = 0 ∨ xKind d = 4) ∧ s.notice.badWaitX (xKind d) = none ∧
        ((s.notice.unlist (xEntry d)).takeWaits (xEntry d)).refusal17 0 (xEntry d) = 0 ∧
        (s.exch 0 (xId d) (xKind d == 4)).isSome = true := by
  decide +kernel

theorem test_exchangeMessages :
    (let p := xmsg 0 0 []
     on.wf = true ∧ p.wf = true ∧ on.power.rails = true ∧ State.reset.power.rails = false ∧ on.exchOf p = none) ∧
    (let s := opened 0
     let x := openX 0
     let cfg := s.layerCfg x.layer
     let p := xmsg 0 (s.cfgCheck cfg) []
     let y := x.keep 0 p.src (p.field 9 1) (p.field 64 32) (p.field 12 1 == 1) (xEntries p 8)
     s.wf = true ∧ p.wf = true ∧ s.exchOf p = some x ∧ x.granted = 0 ∧
       y.msgs.any (fun m => m.kind == 0 && m.word2 != s.cfgCheck cfg) = false ∧
       ((s.exchGroup x.ctx cfg).getD []).all (fun i => (y.msg 0 i 0).isSome) = true) ∧
    (let s := opened 0
     let x := openX 0
     let cfg := s.layerCfg x.layer
     let p := xmsg 0 (s.cfgCheck cfg + 1) []
     let y := x.keep 0 p.src (p.field 9 1) (p.field 64 32) (p.field 12 1 == 1) (xEntries p 8)
     p.wf = true ∧ s.exchOf p = some x ∧ x.granted < 2 ∧
       y.msgs.any (fun m => m.kind == 0 && m.word2 != s.cfgCheck cfg) = true) ∧
    (let s := opened 0
     let p := xmsg 0 1 []
     s.power.rails = true ∧ s.exchOf p = some (openX 0) ∧ (openX 0).round ≠ 2 ∧ p.field 64 32 = 1 ∧
       s.writesOpen txeCore (openX 0).tile.ctx (openX 0).tile.seq = false) ∧
    (∀ k ∈ [0, 1], let s := opened k
     let x := openX k
     let cfg := s.layerCfg x.layer
     let p := xmsg 0 0 []
     let y := x.keep 1 p.src (p.field 9 1) 0 (p.field 12 1 == 1) (xEntries p 16)
     s.wf = true ∧ s.exchOf p = some x ∧ x.round = 0 ∧ p.field 64 32 ≠ 1 ∧
       (s.homes cfg).all (fun h => (y.msg 1 h 0).isSome) = true ∧ lyPolicy cfg = k ∧ s.homes cfg ≠ []) ∧
    (let s := opened 0
     let p := xmsg 1 0 (toLE 8 (3 * 2 ^ 16))
     s.exchOf p = some (openX 0) ∧ xEntries p 8 = [3 * 2 ^ 16] ∧
       findIdx (fun (q : Nat × Nat) => q.1 == bits (3 * 2 ^ 16) 0 12) (s.sections (s.layerCfg 0)) = some 0 ∧
       bits (3 * 2 ^ 16) 16 16 ≠ 0) := by
  decide +kernel

theorem test_exchangeRowMessages :
    (∀ q ∈ [(3, 512), (4, 512), (3, 511)], let s := opened 0
     let x := openX 0
     let p := xmsg 0 q.2 (toLE 16 (q.1 * 2 ^ 96) ++ [1, 2])
     let tag := (p.body.drop 16).take 16
     s.power.rails = true ∧ s.exchOf p = some x ∧ bits (leNat tag) 96 16 = q.1 ∧ lyCapacity (s.layerCfg 0) = 4 ∧
       findIdx (fun (q : Nat × Nat) => q.1 == bits (leNat tag) 64 12) (s.sections (s.layerCfg 0)) = some 0 ∧
       p.field 64 32 = q.2 ∧ rowLen (s.xOp x.tile 5).t = 512 ∧ p.body.drop 32 ≠ [] ∧ x.tileDone = false) ∧
    (∀ q ∈ [(0, 2, 512), (1, 2, 512), (0, 3, 512), (0, 2, 511)], let s := opened 0
     let x := openX 0
     let p := xmsg 0 q.2.2 (toLE 16 (q.1 * 2 ^ 16 + q.2.1 * 2 ^ 76) ++ [1, 2])
     let n := leNat ((p.body.drop 16).take 16)
     s.exchOf p = some x ∧ bits n 16 16 = q.1 ∧ bits n 76 2 = q.2.1 ∧ x.tokens = 1 ∧ p.field 64 32 = q.2.2 ∧
       rowLen (s.xOp x.tile 6).t = 512 ∧ p.body.drop 32 ≠ []) ∧
    (let x := { openX 0 with tileDone := true }
     let s := (opened 0).setTxe { (opened 0).txe with opens := [x] }
     let p := xmsg 0 512 (toLE 16 (4 * 2 ^ 96) ++ [1, 2])
     s.wf = true ∧ s.power.rails = true ∧ s.exchOf p = some x ∧ x.tileDone = true) := by
  decide +kernel

theorem test_exchangeDeadline :
    (let s := late (opened 0)
     s.wf = true ∧ s.exch 0 9 (0 == 1) = some (openX 0) ∧ (openX 0).tile.ctx = 0 ∧ (openX 0).openedAt = 0 ∧
       s.writesOpen txeCore 0 (openX 0).tile.seq = false ∧ (s.tensAt (dWord (openX 0).tile.desc 5)).cls < 3) ∧
    0 + (late (opened 0)).ov exchDeadlineId * 1000 ≤ (late (opened 0)).ftRead hubPs :=
  ⟨by decide +kernel, late_reads (opened 0) hubPs _ (by decide +kernel)⟩

/-- Context 3 with its steps enabled in a line of `n` modules along X, this module at offset `me`. -/
def line (n me : Nat) : State := (((stepsOf on).setOv torusDimId (3 + 3 * 32 + 3 * 1024)).setOv myCoordId me).setOv
  (jobBlockId + 3) (2 ^ 31 + (n - 1) * 2 ^ 16)

/-- Its step RUNNING with the DONE count there. -/
def runs (n me : Nat) : State := ((line n me).setCtr 9 2).modStp 3 ({ · with st := .running })

/-- A VOTE or DECIDE: KIND, source, COUNT, for step 0 and attempt 0 of context 3. -/
def vote (fop kind src count : Nat) : Packet := pkt 0 src (toLE 16 (fop + kind * 2 ^ 8 + 3 * 2 ^ 12 + count * 2 ^ 64))

theorem test_stepVote :
    (∀ p ∈ [runs 1 0, runs 2 1, (runs 1 0).modOv (stepCfgId + 3) (· + 4 * 2 ^ 64)],
      let x := p.stp 3
      p.wf = true ∧ p.stepsOn 3 = true ∧ x.st = .running ∧ x.doneTaken = false ∧ x.latch = none ∧ x.failSent = false ∧
        (p.syncEntry 3 5).kind = 1 ∧ (p.syncEntry 3 5).waitOk = true ∧ (p.syncEntry 3 5).local_ = true ∧
        bits (p.stepCfg 3) 16 14 ≤ p.ctr (p.syncEntry 3 (bits (p.stepCfg 3) 0 16)).phys ∧ p.cores = [] ∧ p.txe.opens = [] ∧ p.txe.busy = [] ∧
        p.redPending 3 = 0 ∧ x.votes = [] ∧ x.decided = false) ∧
    ((runs 1 0).isHome 3 = true ∧ (runs 1 0).blockSize 3 = 1 ∧ bits ((runs 1 0).stepCfg 3) 64 32 = 0) ∧
    ((runs 2 1).lineNext 3 = some 0 ∧ (runs 2 1).linePrev 3 = []) ∧
    (let s := (runs 1 0).modOv (stepCfgId + 3) (· + 4 * 2 ^ 64)
     bits (s.stepCfg 3) 64 32 ≠ 0 ∧ bits (s.stepCfg 3) 64 32 ≠ (s.stp 3).updates) := by
  decide +kernel

/-- The home has heard a vote at 5. -/
def voteHeard : State := (runs 2 0).modStp 3 ({ · with firstVote := some 5 })

theorem test_votes :
    (let p := vote 0x60 0 2 1
     let s := (runs 3 1).modStp 3 ({ · with st := .voted, voteHeld := true })
     s.wf = true ∧ s.power.rails = true ∧ State.reset.power.rails = false ∧ p.wf = true ∧ p.field 12 4 = 3 ∧ s.inBlock 3 p.src = true ∧ p.field 8 2 = 0 ∧ s.isHome 3 = false ∧
       s.lineNext 3 = some 0 ∧ s.linePrev 3 = [p.src] ∧ (s.stp 3).voteHeld = true ∧ p.field 16 32 = (s.stp 3).step ∧
       p.field 48 8 = (s.stp 3).attempt) ∧
    (∀ k ∈ [0, 1], let p := vote 0x60 k 1 1
     let s := runs 2 0
     let x := s.stp 3
     s.wf = true ∧ s.power.rails = true ∧ p.wf = true ∧ s.inBlock 3 p.src = true ∧ s.isHome 3 = true ∧ x.st = .running ∧ x.decided = false ∧
       p.field 16 32 = x.step ∧ p.field 48 8 = x.attempt ∧ x.votes = [] ∧ p.field 8 2 = k ∧
       x.voteHeld = false ∧ p.field 64 16 ≠ 0 ∧ 1 + p.field 64 16 = s.blockSize 3) ∧
    (((runs 2 0).modStp 3 ({ · with voteHeld := true })).stp 3).voteHeld = true ∧
    (∀ p ∈ [(7, true), (8, false)], let s := (runs 2 0).modStp 3 ({ · with st := .voted, step := 8, begun := 7 + ofBool (!p.2) })
     let q := pkt 0 1 (toLE 16 (0x60 + 3 * 2 ^ 12 + (if p.2 then 7 else 9) * 2 ^ 16))
     let x := s.stp 3
     s.wf = true ∧ s.power.rails = true ∧ q.wf = true ∧ q.field 12 4 = 3 ∧ s.inBlock 3 q.src = true ∧ s.isHome 3 = true ∧ x.st = .voted ∧
       x.decided = false ∧ q.field 16 32 ≠ x.step ∧ q.field 8 2 < 2 ∧
       decide ((q.field 16 32 + 2 ^ 32 - x.begun) % 2 ^ 32 < (x.step + 2 ^ 32 - x.begun) % 2 ^ 32) = p.2) ∧
    (let s := late voteHeard
     s.wf = true ∧ (s.stp 3).firstVote = some 5 ∧ s.isHome 3 = true ∧ (s.stp 3).decided = false ∧ (s.stp 3).st = .running) ∧
    5 + (late voteHeard).commitDeadline 3 ≤ (late voteHeard).ftRead hubPs := by
  refine ⟨?_, ?_, ?_, ?_, ?_, late_reads voteHeard hubPs _ (by decide +kernel)⟩ <;> decide +kernel

/-- A module that has voted at 0. -/
def hasVoted : State := (runs 2 1).modStp 3 ({ · with st := .voted, votedAt := 0 })

theorem test_decisions :
    (let p := vote 0x61 0 0 0
     (runs 1 0).wf = true ∧ (runs 1 0).power.rails = true ∧ State.reset.power.rails = false ∧ p.wf = true ∧ p.field 12 4 = 3 ∧ (runs 1 0).decideOk p 0 = true ∧
       ((runs 1 0).stp 3).summing = false ∧ on.decideOk p 0 = false ∧
       (((runs 1 0).modStp 3 ({ · with summing := true })).stp 3).summing = true ∧
       ((runs 1 0).modStp 3 ({ · with summing := true })).decideOk p 0 = true) ∧
    ((runs 1 0).decideOk (vote 0x61 1 0 0) 1 = true ∧ (runs 1 0).red.held = [] ∧ bits ((runs 1 0).stepCfg 3) 48 16 = 0 ∧
      on.decideOk (vote 0x61 1 0 0) 1 = false) ∧
    ((runs 1 0).decideOk (vote 0x61 2 0 0) 2 = true ∧ on.decideOk (vote 0x61 2 0 0) 2 = false) ∧
    (let s := late hasVoted
     s.wf = true ∧ (s.stp 3).st = .voted) ∧
    ((late hasVoted).stp 3).votedAt + (late hasVoted).commitDeadline 3 + 10000000 ≤ (late hasVoted).ftRead hubPs := by
  refine ⟨?_, ?_, ?_, ?_, late_reads hasVoted hubPs _ (by decide +kernel)⟩ <;> decide +kernel

/-- Context 3 with a norm ring of 256 records at 0x100000, its summer at work, the tail at `t`. -/
def normState (t head : Nat) : State :=
  ((on.setOv (normRingId + 3) 0x100000).setOv (normRingHeadId + 3) head).modStp 3
    ({ · with summing := true, normTail := t, normGap := true })

theorem test_normRing :
    (let s := normState 255 1
     let r := s.ov (normRingId + 3)
     s.wf = true ∧ (s.stp 3).summing = true ∧ bits r 0 64 ≠ 0 ∧
       ((s.stp 3).normTail + 1) % (256 * 2 ^ bits r 64 4) ≠ s.ov (normRingHeadId + 3) ∧
       s.anyUnmapped (bits r 0 64 + 32 * (s.stp 3).normTail) 32 = false) ∧
    (let s := normState 255 0
     s.wf = true ∧ ((s.stp 3).normTail + 1) % (256 * 2 ^ bits (s.ov (normRingId + 3)) 64 4) = s.ov (normRingHeadId + 3)) ∧
    (let s := on.modStp 3 ({ · with summing := true })
     s.wf = true ∧ (s.stp 3).summing = true ∧ bits (s.ov (normRingId + 3)) 0 64 = 0) := by
  decide +kernel

/-- Context 0 in a pair of modules along X, this one at offset 0, with reduction group 1 over both. -/
def ringed : State :=
  (((stocked.setOv torusDimId (3 + 3 * 32 + 3 * 1024)).setOv jobBlockId (2 ^ 31 + 2 ^ 16)).modRedc 0
    ({ · with groups := [(1, 1 + 16)] }))

/-- An EMIT tile of chain 5 to group 1, owner 1, key 6. -/
def dEmit : WorkDesc := wd [(32, 4, 3), (64, 16, 5), (wordBit 0, 64, 6), (8 * 0x78, 32, 1 + 4)]

theorem test_emit :
    let s := (ringed.setDieList 3 [entry dEmit]).modCore 255
      (fun c => c.setSlot 15 { Slot.free with st := .held, ctx := 0, chain := 5 })
    let e := { entry dEmit with readyAt := some 5000000 }
    let v := (s.notice.unlist e).takeWaits e
    s.wf = true ∧ s.mem.found = [] ∧ s.notice.hdrCauses 255 e = [] ∧ s.notice.badWait 255 3 = none ∧ s.notice.choose 255 = some e ∧ dType dEmit = 3 ∧ v.refusal 255 e = 0 ∧
      (s.core 255).chainSlot 0 (dChain dEmit) = some 15 ∧ (v.newTile 255 e (some 15)).status = 0 ∧
      (s.core 255).tiles = [] ∧
      (match s.emRing 0 dEmit with
        | some r => r.isFirst (emOwner dEmit) && !(r.isOwner (emOwner dEmit))
        | none => false) = true ∧
      s.keyClosed 0 (emGroup dEmit) (emTag dEmit) = false ∧ s.redKey 0 (emGroup dEmit) (emTag dEmit) = none := by
  decide +kernel

/-- A REDUCE_CHUNK of group 1, key 6, chunk 15, level 0, for owner 1. -/
def chunkAt (epoch attempt : Nat) : Packet :=
  { pkt 6 1 (toLE 24 (0x70 + 1 * 2 ^ 11 + 15 * 2 ^ 16 + epoch * 2 ^ 32 + attempt * 2 ^ 48 + 1 * 2 ^ 56 + 6 * 2 ^ 96 + 1056 * 2 ^ 160) ++
      List.replicate 1056 0) with ctx := 0 }

/-- Such a chunk of attempt 0. -/
def chunk (epoch : Nat) : Packet := chunkAt epoch 0

/-- The key in progress, its tile's contribution here and EMPTY. -/
def keyed : State := ringed.putKey { ringed.newKey 0 1 6 0 1 with firstAt := 0, local_ := true, locEmpty := true }

theorem test_chunks :
    (let p := chunk 0
     ringed.wf = true ∧ ringed.power.rails = true ∧ State.reset.power.rails = false ∧ p.wf = true ∧ ringed.chunkCurrent p ∧ rEmpty p.body = false ∧ ringed.red.drains = [] ∧
       ringed.keyClosed 0 1 6 = false ∧ ringed.redKey 0 1 6 = none ∧ (ringed.redTake 0 1).isSome = true) ∧
    (let s := ringed.setOv urnPartitionId 0
     s.wf = true ∧ s.chunkCurrent (chunk 0) ∧ s.redKey 0 1 6 = none ∧ s.keyClosed 0 1 6 = false ∧ s.redTake 0 1 = none) ∧
    (let p := chunkAt 0 1
     p.wf = true ∧ 24 ≤ p.body.length ∧ p.field 0 8 = 0x70 ∧ rBad p.body = false ∧ (ringed.redc 0).staged = false ∧
       rEpoch p.body = (ringed.redc 0).epoch ∧ rStep p.body = ringed.stepNo 0 ∧
       rAttempt p.body = (ringed.attemptNo 0 + 1) % 256 ∧ (ringed.redTakeShared 0).isSome = true) ∧
    (let p := { pkt 6 1 (toLE 24 (0x70 + 3 * 2 ^ 8) ++ List.replicate 8 0) with ctx := 0 }
     p.wf = true ∧ 24 ≤ p.body.length ∧ p.field 0 8 = 0x70 ∧ rBad p.body = true) ∧
    (let s := ringed.modRedc 0 (fun c => { c with closed := [(1, 6)] })
     s.wf = true ∧ s.chunkCurrent (chunk 0) ∧ s.keyClosed 0 1 6 = true) ∧
    (let p := chunk 0
     let k := { ringed.newKey 0 1 6 0 1 with firstAt := 0, local_ := true, locEmpty := true }
     keyed.wf = true ∧ keyed.chunkCurrent p ∧ keyed.redKey 0 1 6 = some k ∧ k.incEmpty = false ∧ tget? k.inc 15 = none ∧
       15 ∉ k.done ∧ k.local? 15 = some none ∧ (keyed.ringFor 0 1 k.list k.owner).isSome = true ∧ k.done.length < 15) ∧
    (let p := chunk 65535
     p.wf = true ∧ 24 ≤ p.body.length ∧ p.field 0 8 = 0x70 ∧ rBad p.body = false ∧ (ringed.redc 0).staged = false ∧
       rEpoch p.body ≠ (ringed.redc 0).epoch) := by
  unfold State.chunkCurrent
  refine ⟨?_, ?_, ?_, ?_, ?_, ?_, ?_⟩ <;> decide +kernel

theorem test_drainAndDeadline :
    (let x := { tileAt 7 .waiting dEmit with ctx := 0 }
     let u := keyed.modCore 255 ({ · with tiles := [x] })
     let s := u.setRed { u.red with drains := [⟨255, 7, 15⟩] }
     s.wf = true ∧ s.red.drains = [⟨255, 7, 15⟩] ∧ s.emitTile 255 7 = some x ∧ (s.handOver 255 7 15 none).isSome = true) ∧
    ((late keyed).wf = true ∧ (late keyed).redKey 0 1 6 ≠ none) ∧
    0 + (late keyed).ov reduceDeadlineId * 1000 ≤ (late keyed).ftRead hubPs ∧ ∀ k ∈ (late keyed).red.keys, k.firstAt = 0 :=
  ⟨by decide +kernel, by decide +kernel, late_reads keyed hubPs _ (by decide +kernel), by decide +kernel⟩

/-- A permute of context 3 in state `st` with epoch 8 in a line of `n` modules, its table at 0x2000 and STAGE at 0x4000. -/
def permuting (n me st : Nat) : State :=
  (line n me).modPerm 3 ({ · with st := st, ctrl := 0x2000 + 0x4000 * 2 ^ 64 + 1 * 2 ^ 128 + 8 * 2 ^ 160 })

/-- A permute message: KIND, source, COUNT. -/
def perm (kind src count : Nat) : Packet :=
  pkt 0 src (toLE 40 (0x64 + kind * 2 ^ 8 + 3 * 2 ^ 12 + 8 * 2 ^ 32 + count * 2 ^ 48))

theorem test_permuteMessages :
    (let s := permuting 2 0 1
     s.wf = true ∧ (s.perm 3).st = 1 ∧ s.lineNext 3 = none ∧ s.inBlock 3 s.me = true ∧ (s.perm 3).askedAt = none) ∧
    (let s := permuting 2 1 1
     let p := perm 0 0 0
     s.wf = true ∧ p.wf = true ∧ pCtx p = 3 ∧ s.permOk p [1] = true ∧ s.linePrev 3 = [] ∧ s.lineNext 3 = some 0) ∧
    (let p := { perm 15 0 0 with src := 9 }
     let q := perm 8 0 0
     p.wf = true ∧ q.wf = true ∧ 9 ≤ p.field 8 4 ∧ q.field 8 4 < 9 ∧ (line 2 1).power.rails = true ∧
       State.reset.power.rails = false ∧ ∀ k ∈ [0, 1, 2, 3, 4, 5, 6, 7, 8], (perm k 0 0).field 8 4 = k) ∧
    ((line 2 1).wf = true ∧ (line 2 1).inBlock 3 0 = true ∧ ((line 2 1).perm 3).busy = false) ∧
    (∀ k ∈ [1, 2, 3],
      let r : PermReply := ⟨1, 2 * k - 1, 0, 1, 0, 0, 0⟩
      let s := (permuting 3 1 k).modPerm 3 ({ · with own := true, replies := [r] })
      let p := perm (2 * k - 1) 2 1
      s.wf = true ∧ p.wf = true ∧ pCtx p = 3 ∧ s.permOk p [k] = true ∧ (s.perm 3).own = true ∧ (s.perm 3).told = false ∧
        (s.perm 3).replies = [r] ∧ r.src = s.me ∧ r.kind = (s.perm 3).awaits ∧ r.round = p.field 16 16 ∧
        p.field 16 16 = (if k = 1 then (s.perm 3).round else 0) ∧ p.src ≠ s.me ∧ s.linePrev 3 = [p.src] ∧
        0 < p.field 48 16 ∧ s.lineNext 3 = some 0) ∧
    (∀ k ∈ [1, 2, 3],
      let r : PermReply := ⟨0, 2 * k - 1, 0, 1, 0, 0, 0⟩
      let s := (permuting 2 0 k).modPerm 3 ({ · with own := true, replies := [r], lastSums := some (0, 0) })
      let p := perm (2 * k - 1) 1 1
      s.wf = true ∧ s.permOk p [k] = true ∧ (s.perm 3).replies = [r] ∧ r.src = s.me ∧ r.kind = (s.perm 3).awaits ∧
        s.linePrev 3 = [p.src] ∧ s.lineNext 3 = none ∧ r.count + p.field 48 16 = s.blockSize 3 ∧ (s.perm 3).failed = false ∧
        r.pend + p.field 64 64 = 0 ∧ r.sent + p.field 128 64 = r.recv + p.field 192 64 ∧
        (s.perm 3).lastSums = some (r.sent + p.field 128 64, r.recv + p.field 192 64)) ∧
    ((permuting 2 1 1).permOk (perm 2 0 0) [1] = true ∧ (permuting 2 1 3).permOk (perm 6 0 0) [3] = true ∧
      (permuting 2 1 3).permOk (perm 7 0 0) [1, 2, 3] = true ∧ (permuting 2 0 2).permOk (perm 8 1 0) [1, 2, 3] = true ∧
      (permuting 2 0 2).lineNext 3 = none) := by
  decide +kernel

/-- The move list: 16 bytes from 0x3000 to 0x5000 of a device. -/
def moved (st dev : Nat) : State :=
  (permuting 2 1 st).storeDev 0x2000 (toLE 32 (0x3000 + (0x5000 + dev * 2 ^ 41) * 2 ^ 64 + 16 * 2 ^ 128))

/-- The home of a permute that has asked for counts. -/
def asked (st : Nat) : State := (permuting 2 0 st).modPerm 3 ({ · with askedAt := some 0 })

theorem test_permutePhases :
    (let s := moved 2 1
     s.wf = true ∧ s.moves (s.perm 3) = [(0x3000, 0x5000 + 1 * 2 ^ 41, 16, true)] ∧ (s.perm 3).st = 2 ∧
       (s.perm 3).own = false ∧ s.anyUnmapped (s.perm 3).stage 16 = false ∧ s.linePrev 3 = [] ∧ s.lineNext 3 = some 0 ∧
       (s.perm 3).told = false) ∧
    (∀ dev ∈ [0, 1], ∀ r ∈ [true, false], let u := moved 2 dev
     let s := if r then u.setObj { u.obj with region := [(0, 2 ^ 40 * 2 ^ 64 + dev * 2 ^ 128 + 8 * 2 ^ 144 + 2 ^ 160 + 2 ^ 162 +
       2 ^ 163 + 2 ^ 164)] } else u
     let d := 0x5000 + dev * 2 ^ 41
     s.wf = true ∧ s.power.rails = true ∧ s.permOk (perm 4 0 0) [2] = true ∧ s.moves (s.perm 3) = [(0x3000, d, 16, true)] ∧
       gDev d = dev ∧ gOff d % 4096 + 16 ≤ 4096 ∧ (s.perm 3).acks = [] ∧ s.permitted 3 16 (gDev d) (gOff d) .write = r) ∧
    (let s := permuting 2 1 2
     s.wf = true ∧ (s.perm 3).st = 2 ∧ (s.perm 3).own = false ∧ (s.moves (s.perm 3)).any (fun m => !m.2.2.2) = true) ∧
    (let s := permuting 2 1 3
     s.wf = true ∧ (s.perm 3).st = 3 ∧ (s.perm 3).own = false ∧ (s.perm 3).acks = []) ∧
    (∀ st ∈ [1, 3], let s := late (asked st)
     s.wf = true ∧ (s.perm 3).busy = true ∧ s.lineNext 3 = none ∧ (s.perm 3).failed = false ∧ (s.perm 3).askedAt ≠ none) ∧
    (∀ st ∈ [1, 3], ((late (asked st)).perm 3).stageAt + (late (asked st)).ov reduceDeadlineId * 1000 ≤
      (late (asked st)).ftRead hubPs) := by
  refine ⟨by decide +kernel, by decide +kernel, by decide +kernel, by decide +kernel, by decide +kernel, ?_⟩
  intro st hst
  refine late_reads (asked st) hubPs _ ?_
  revert st
  decide +kernel

/-- Context 3 with an urn of four buffers of class 0 and two of class 7, a reserve of two of class 0, buffer 3 freed and
buffer 2 held at GEN 127. -/
def urned : State :=
  let s := ((on.setOv urnPartitionId (4 + 2 * 2 ^ 224)).setOv (urnQuotaId + 3) (2 * 16 + 0xFFFF * 2 ^ 48)).setUrnClass 0 ⟨[3], 4⟩
  (((s.setUrnBuf 2 ⟨true, 127, 3, 1, false, false⟩).setUrnBuf 0 ⟨true, 1, 3, 2, true, false⟩).setUrnBuf 1
    ⟨true, 1, 4, 2, true, false⟩)

/-- The same with a link beyond the class at the heads of the lists of classes 0 and 7. -/
def broken : State := urned.setUrn { urned.urn with links := [(urnKey 0 3, 6), (urnKey 7 0, 6)] }

/-- An urn command word: OP, CHARGE, BYTES, HANDLE. -/
def uw (op ch n h : Nat) : Word64 := BitVec.ofNat 64 (op + ch * 16 + n * 256 + h * 2 ^ 32)

theorem test_urnCommands :
    (urned.wf = true ∧ on.wf = true ∧ urned.host.up = true ∧ urned.power.main = .ready ∧ urned.pageWaits 3 = false ∧
      (let s := urned.setUrn { urned.urn with waiting := [(3, 0)] }
       s.wf = true ∧ s.host.up = true ∧ s.power.main = .ready ∧ s.pageWaits 3 = true) ∧
      (let s := broken.setUrn { broken.urn with repairing := [] }
       s.wf = true ∧ s.pageWaits 3 = false ∧ s.urnWaits 3 (uw 0 2 256 0).toNat ≠ none)) ∧
    (∀ n ∈ [1, 256], urned.urnWaits 3 (uw 0 0 n 0).toNat = none ∧ urned.urnCount 0 = 4 ∧ tget 0 urned.urn.links (urnKey 0 3) = 0) ∧
    (∀ op ∈ [0, 1, 2], bits (uw op 0 1 0).toNat 0 4 = op) ∧
    (∀ n ∈ [1, 256], bits (uw 0 0 n 0).toNat 0 4 = 0 ∧ bits (uw 0 0 n 0).toNat 8 23 = n ∧ bits (uw 0 0 n 0).toNat 4 2 ≠ 3 ∧
      bit (uw 0 0 n 0).toNat 7 = false ∧ bit (uw 0 0 n 0).toNat 31 = false ∧ urned.urnReserve 3 0 = (0, 2) ∧
      n ≤ urnSize 0 ∧ urned.urnResUsed 3 0 < 2 ∧ (urned.urnClass 0).freed = [3]) ∧
    ((urned.urnAlloc 3 1 4194304 false).isSome = true ∧ (on.setOv urnPartitionId 0).wf = true ∧
      ((on.setOv urnPartitionId 0).urnAlloc 3 0 1 false).isSome = false ∧
      bits (uw 0 1 4194304 0).toNat 8 23 = 4194304) ∧
    (∀ op ∈ [1, 2], let v := fun h => (uw op 0 0 h).toNat
     (∀ h ∈ [handleOf 0 2 127, handleOf 0 0 1], bits (v h) 0 4 = op ∧ bits (v h) 32 32 = h ∧ urned.urnCheck 3 h = 0) ∧
       urned.urnCheck 3 (handleOf 0 3 0) = 3 ∧ urned.urnCheck 3 (handleOf 0 1 1) = 2 ∧ urned.urnCheck 3 (handleOf 8 0 0) = 2) := by
  decide +kernel

/-- A CREDIT_REQ, GRANT or DATA of context 3 from device 9. -/
def upkt (fop id bytes h : Nat) (data : List Byte) : Packet := pkt 0 9 (urnBody fop id bytes h 77 ++ data)

theorem test_sends :
    (let p := upkt 0x80 65535 100 0 []
     urned.wf = true ∧ urned.power.rails = true ∧ State.reset.power.rails = false ∧ p.wf = true ∧ urned.urn.reqs = [] ∧ urned.inboxRoom p.ctx = true ∧
       urned.urnStall p.ctx 2 (p.field 32 32) = none ∧ broken.urn.reqs = [] ∧ broken.inboxRoom p.ctx = true ∧
       broken.urnStall p.ctx 2 (p.field 32 32) = some 7 ∧
       (urned.urnAlloc p.ctx 2 (p.field 32 32) false).isSome = true) ∧
    (let s := urned.setUrn { urned.urn with inboxTail := [(3, 255)] }
     s.wf = true ∧ s.urn.reqs = [] ∧ s.inboxRoom 3 = false) ∧
    (let r : UrnReq := ⟨9, 65535, 100, 77⟩
     let s := urned.setUrn { urned.urn with reqs := [(3, [r])] }
     s.wf = true ∧ s.urn.reqs = [(3, [r])] ∧ s.inboxRoom 3 = true ∧ s.urnStall 3 2 r.bytes = none ∧
       (s.urnAlloc 3 2 r.bytes false).isSome = true ∧
       256 ≤ (tget [] (urned.setUrn { urned.urn with reqs := [(3, List.replicate 256 r)] }).urn.reqs 3).length) ∧
    (urned.urn.repairing = [] ∧
      (let s := broken.setUrn { broken.urn with repairing := [0] }
       s.wf = true ∧ 0 ∈ s.urn.repairing ∧ s.urn.reqs = [] ∧ s.caddy.deferred = [] ∧ s.urn.waiting = [] ∧
         s.host.pages.all (fun q => q.2.later == []) = true) ∧
      (let w := (uw 0 0 256 0).toNat
       let s := broken.setUrn { broken.urn with waiting := [(3, w)], repairing := [0] }
       s.wf = true ∧ 0 ∈ s.urn.repairing ∧ s.host.pages.all (fun q => q.2.later == []) = true ∧ s.urn.reqs = [] ∧
         s.caddy.deferred = [] ∧ s.urn.waiting = [(3, w)] ∧ bits w 0 4 = 0 ∧
         bits w 4 2 ≠ 3 ∧ bit w 7 = false ∧ bit w 31 = false ∧ 0 < bits w 8 23 ∧ bits w 8 23 ≤ 4194304 ∧
         ((s.urnRebuild 0).urnFlag 3 0).urnWaits 3 w = none ∧
         (((s.urnRebuild 0).urnFlag 3 0).urnAlloc 3 (bits w 4 2) (bits w 8 23) (bit w 6)).isSome = true)) ∧
    (let p := upkt 0x81 65535 0 (handleOf 0 2 127) []
     let s := urned.setUrn { urned.urn with sends := [⟨3, 5, 65535, 9, none⟩, ⟨3, 6, 65534, 9, none⟩] }
     s.wf = true ∧ p.wf = true ∧ (∃ r ∈ s.urn.sends, r.ctx = p.ctx ∧ r.reqId = p.field 16 16 ∧ r.dest = p.src) ∧
       (∃ r ∈ s.urn.sends, ¬(r.ctx = p.ctx ∧ r.reqId = p.field 16 16 ∧ r.dest = p.src))) ∧
    (∀ n ∈ [15, 16],
      let p := upkt 0x82 65535 0 (handleOf 0 2 127) (List.replicate n 5)
      let g : UrnGrantRec := ⟨3, 9, 65535, handleOf 0 2 127, 16, 16, 77⟩
      let s := urned.setUrn { urned.urn with grants := [g] }
      s.wf = true ∧ p.wf = true ∧ s.urn.grants = [g] ∧ g.ctx = p.ctx ∧ g.src = p.src ∧ g.reqId = p.field 16 16 ∧
        g.handle = p.field 64 32 ∧ (n = 15 → (p.body.drop 16).length < g.left) ∧
        (n = 16 → g.left ≤ (p.body.drop 16).length ∧ tget 0 s.urn.inboxTail p.ctx + 1 < s.inboxSize p.ctx ∧
          s.anyUnmapped (bits (s.ov (urnInboxId + p.ctx)) 0 64 + 16 * tget 0 s.urn.inboxTail p.ctx) 16 = false)) := by
  refine ⟨?_, ?_, ?_, ?_, ?_, ?_⟩ <;> decide +kernel

/-- Context 3 with a command ring at 0x100 whose doorbell holds one count, the command there and a region of device 9 that
grants everything to context 3, cached when `k` is 1. -/
def fabric (k : Nat) (cmd : Nat) : State :=
  let s := ((stepsOf on).setOv (fabQueueId + 3) (0x100 + 5 * 2 ^ 80)).setCtr 9 1
  let s := s.setOv (jobBlockId + 3) (2 ^ 31 + 2 ^ 16)
  let s := s.setOv torusDimId (3 + 3 * 32 + 3 * 1024)
  (s.setObj { s.obj with region := [(0, 2 ^ 40 * 2 ^ 64 + 9 * 2 ^ 128 + 8 * 2 ^ 144 + 2 ^ 160 + 2 ^ 162 + 2 ^ 163 + 2 ^ 164 +
    k * (2 ^ 165 + 2 ^ 166))] }).storeDev 0x100 (toLE 64 cmd)

/-- A command: OP and its further low bits, BYTES, offset in device 9, LADDR, OPERAND. -/
def fcmd (op bytes off laddr operand : Nat) : Nat :=
  op + bytes * 2 ^ 16 + (9 * 2 ^ 41 + off) * 2 ^ 64 + laddr * 2 ^ 128 + operand * 2 ^ 192

/-- An earlier and a later command of that ring in flight to device 9. -/
def flight (tag cmd : Nat) (held : Option Packet) : FabCmd := ⟨tag, 3, 0x100, toLE 64 cmd, 9, 0, held, 2, false⟩

/-- A READ of a line that die 0's L2 holds. -/
def lined : State :=
  let u := fabric 0 (fcmd 1 128 128 0x1000 0)
  (u.setObj { u.obj with region := u.obj.region.map (fun p => (p.1, p.2 + 2 ^ 165)) }).setFab
    { u.fab with lines := [⟨9, 128, 0, 3, List.replicate 128 1⟩] }

/-- It is a hit where the L2 has kept the line, which is a free value (log 10). -/
theorem test_fabHit (h : Config.l2Kept 0 9 128 lined.clk = true) :
    lined.cachedBytes 0 9 128 128 = some (List.replicate 128 1) := by
  have hl : lined.fab.lines = [⟨9, 128, 0, 3, List.replicate 128 1⟩] := rfl
  have hr : linesOf 128 128 = [128] := by decide +kernel
  have hc : lined.cachedLine 0 9 128 = some (List.replicate 128 1) := by simp [State.cachedLine, hl, h]
  simp [State.cachedBytes, hr, hc]

theorem test_fabIssue :
    (on.wf = true ∧ on.fabTurn ≠ some 3) ∧
    (∀ p ∈ [(0, fcmd 1 4096 0 0x1000 0), (0, fcmd 2 4096 4096 0x1000 0), (0, fcmd 3 1 4095 0x1000 0),
        (0, fcmd (4 + 9 * 256 + 2 ^ 13) 0 60 0 7), (1, fcmd 5 0 128 0 128)],
      let s := fabric p.1 p.2
      let v := leNat (s.loadDev (s.fabSlot 3) 64)
      s.wf = true ∧ s.fabTurn = some 3 ∧ v = p.2 ∧ s.fcStatus 3 v = 0 ∧ (fcOp v = 1 → s.fcCached 3 v = none) ∧
        (fcOp v = 4 → s.atomWaits (flight 8 v none) s.fab.cmds = false)) ∧
    (∀ p ∈ [(fcmd 1 0 0 0x1000 0, 2), (fcmd 2 3 0 0x1000 0, 2), (fcmd 3 8 (2 ^ 40) 0x1000 0, 1), (fcmd 4 0 2 0 7, 2),
        (fcmd 5 0 128 0 0, 2), (fcmd 0 0 0 0 0, 2)],
      let s := fabric 0 p.1
      s.wf = true ∧ s.fabTurn = some 3 ∧ s.fcStatus 3 p.1 = p.2 ∧ s.anyUnmapped (s.fabSlot 3 + 0x30) 16 = false ∧
        fcDoneCount p.1 = 0) ∧
    (let v := fcmd 1 128 128 0x1000 0
     lined.wf = true ∧ lined.fabTurn = some 3 ∧ lined.fcStatus 3 v = 0 ∧ (lined.fcCached 3 v).isSome = true ∧
       lined.fab.lines = [⟨9, 128, 0, 3, List.replicate 128 1⟩] ∧ linesOf 128 128 = [128]) ∧
    (let p := pkt 2 0 (toLE 32 0x12)
     let a := flight 7 (fcmd 4 8 0 0 0) (some p)
     let b := flight 8 (fcmd 3 8 0 0 0) (some p)
     heldBack b [a, b] = true ∧ heldBack b [b] = false ∧ on.atomWaits b [a] = true ∧
       (on.setFab { on.fab with cmds := [b] }).wf = true ∧
       (on.setFab { on.fab with cmds := [b] }).flaggedReady 3 = some (b, p)) := by
  decide +kernel

/-- A request of device 9 for `n` bytes at `a`, with further header bits and data. -/
def rq (fop n a hdr : Nat) (data : List Byte) : Packet := pkt 2 9 (toLE 32 (fop + n * 2 ^ 32 + a * 2 ^ 64 + hdr) ++ data)

/-- An entry of the response cache for device 9. -/
def kept : State := on.setFab { on.fab with resp := [⟨9, 5, 3, 0, 77, 0⟩], wm := [(9, 6)] }

theorem test_targets :
    (on.power.rails = true ∧ State.reset.power.rails = false ∧
      (let p := rq 0x12 8 0x1000 (16383 * 2 ^ 192 + 2 ^ 206) (toLE 8 1)
       let q := { p with src := 8 }
       let r := rq 0x11 8 0x1000 0 (toLE 8 1)
       (on.setRouter { on.router with arrived := [q, p, r] }).flagWaits p = false ∧
         (on.setRouter { on.router with arrived := [q, r, p] }).flagWaits p = true ∧
         (on.setRouter { on.router with arrived := [q, r, p] }).wf = true)) ∧
    (on.wf = true ∧ (rq 0x10 128 0x80 (2 ^ 14 + 4095 * 2 ^ 48) []).wf = true) ∧
    (∀ q ∈ [0x11, 0x12], let p := rq q 8 0x1000 (16383 * 2 ^ 192 + 2 ^ 206) (toLE 8 1)
     p.wf = true ∧ pFop p = q ∧ on.flagWaits p = false ∧ on.anyUnmapped (pAddr p) (max (pBytes p) (pData p).length) = false) ∧
    (∀ w ∈ [0, 1], ∀ f ∈ [0, 1],
      let p := rq 0x13 0 0x1000 (w * 2 ^ 12 + 2 ^ 13 + f * 2 ^ 24 + 5 * 2 ^ 128 + 5 * 2 ^ 160) (toLE 16 7)
      let z := if f = 1 then (on.setFab { on.fab with wm := tset 0 on.fab.wm p.src 1 }).setResp [] else on
      let u := z.ackArrive p.src (p.field 160 32)
      p.wf = true ∧ p.field 24 1 = f ∧ on.wmOf p.src = none ∧
        (match u.wmOf p.src with | some m => seqBefore 5 m | none => false) = false ∧ u.fab.resp = [] ∧
        on.anyUnmapped (pAddr p) 8 = false ∧ on.anyPoison (pAddr p) 8 = false) ∧
    (let p := rq 0x13 0 0x1000 (5 * 2 ^ 128 + 5 * 2 ^ 160) (toLE 16 7)
     let u := kept.ackArrive p.src (p.field 160 32)
     kept.wf = true ∧ p.field 24 1 = 0 ∧ u.wmOf p.src = some 5 ∧ seqBefore 5 5 = false ∧ u.fab.resp = [⟨9, 5, 3, 0, 77, 0⟩]) ∧
    (let p := rq 0x13 0 0x1000 (4 * 2 ^ 128 + 5 * 2 ^ 160) (toLE 16 7)
     (kept.ackArrive p.src (p.field 160 32)).wmOf p.src = some 5 ∧ seqBefore 4 5 = true) ∧
    (let p := rq 0x13 0 0x1000 (2 ^ 24 + 5 * 2 ^ 160) (toLE 16 7)
     p.wf = true ∧ p.field 24 1 = 1 ∧ (kept.wmOf p.src).isSome = true ∧ kept.atomCtxs (· == p.src) = [3] ∧
       on.atomCtxs (· == p.src) = []) ∧
    (let p := rq 0x14 1 0x1000 (2 ^ 12) (toLE 16 (9 + 56 * 2 ^ 16 + 5 * 2 ^ 32 + 7 * 2 ^ 64))
     p.wf = true ∧ pMembers p = [9 + 56 * 2 ^ 16 + 5 * 2 ^ 32 + 7 * 2 ^ 64] ∧ on.wmOf 9 = none ∧ on.fab.resp = [] ∧
       on.anyUnmapped (pAddr p / 64 * 64 + 56) 8 = false ∧ on.anyPoison (pAddr p / 64 * 64 + 56) 8 = false) := by
  decide +kernel

theorem test_invalidate :
    (let p := rq 0x16 0 0x1000 (4095 * 2 ^ 48 + 128 * 2 ^ 128) []
     on.wf = true ∧ on.power.rails = true ∧ State.reset.power.rails = false ∧ p.wf = true ∧ tget 0 on.fab.dir (p.field 48 12) = 0 ∧
       (let s := on.setFab { on.fab with dir := [(4095, 2)] }
        s.wf = true ∧ (s.blockDevs p.ctx).any (fun d => bit (tget 0 s.fab.dir (p.field 48 12)) (groupOf d)) = false) ∧
       (line 2 1).invLinks 3 0 1 = []) ∧
    (let p := rq 0x16 0 0x1000 (2 ^ 15 + 4095 * 2 ^ 48 + 128 * 2 ^ 128) []
     let s := (line 2 0).setFab { (line 2 0).fab with dir := [(4095, 1)] }
     s.wf = true ∧ p.wf = true ∧ tget 0 s.fab.dir (p.field 48 12) = 1 ∧ p.field 15 1 = 1 ∧ twf 0 s.fab.dir = true ∧
       bit 1 (groupOf s.me) = true ∧
       (s.blockDevs p.ctx).any (fun d => bit 1 (groupOf d)) = true ∧ s.invLinks p.ctx s.me 1 ≠ []) ∧
    (let s := line 2 1
     s.wf = true ∧ s.power.rails = true ∧ (0 : Nat) ≠ s.me ∧ s.treeLinks 3 0 = []) ∧
    (let p := rq 0x21 1 0x1000 (5 * 2 ^ 16 + 128 * 2 ^ 128) []
     ∀ q ∈ [((2 : Nat), (0 : Nat), (1 : Nat)), (1, 0, 2), (1, 9, 0)],
       let y : InvTree := ⟨5, q.2.1, 3, 0x1000, 128, 1, q.1, 1, q.2.2, 0, 8⟩
       let s := (line 2 0).setFab { (line 2 0).fab with invs := [y] }
       s.wf = true ∧ p.wf = true ∧ s.fab.invs = [y] ∧ y.id = p.field 16 16 ∧ y.ctx = p.ctx ∧ y.addr = pAddr p ∧
         y.len = p.field 128 64 ∧ p.field 32 16 = 1 ∧
         ((1 < y.children) ∨ (y.children = 1 ∧ y.root = s.me ∧ y.count + 1 = y.expect) ∨ (y.children = 1 ∧ y.root ≠ s.me))) := by
  decide +kernel

/-- One command in flight to device 9 under TAG 8. -/
def flying (cmd : Nat) : State :=
  on.setFab { on.fab with cmds := [⟨8, 3, 0x100, toLE 64 cmd, 9, 0, none, 2, false⟩], atoms := [⟨9, 5, 8, pkt 2 0 [], 0, 0, 0, false⟩] }

/-- The response of device 9 with a status. -/
def reply (fop st : Nat) (tag : Nat) : Packet := pkt 3 9 (toLE 16 (fop + st * 256 + tag * 2 ^ 32) ++ List.replicate 8 1)

theorem test_responses :
    (∀ p ∈ [(fcmd 1 8 0 0x1000 0, [1]), (fcmd 2 8 0 0x1000 0, [2, 3]), (fcmd 3 8 0 0x1000 0, [2, 3]), (fcmd 5 0 0 0 128, [5])],
      let s := flying p.1
      let k := flight 8 p.1 none
      s.wf = true ∧ s.power.rails = true ∧ State.reset.power.rails = false ∧ (reply 0x18 0 8).wf = true ∧ (reply 0x18 0 8).src = 9 ∧ (reply 0x18 0 8).field 32 32 = 8 ∧
        s.fabFind 9 8 p.2 = some k ∧ fcLexch k.word = false ∧ s.anyUnmapped (fcLaddr k.word) (fcBytes k.word) = false ∧
        (fcLaddr k.word + fcBytes k.word ≤ k.slot + 0x30 ∨ k.slot + 0x40 ≤ fcLaddr k.word)) ∧
    (let s := flying (fcmd 4 0 0 0 7)
     let a : AtomOut := ⟨9, 5, 8, pkt 2 0 [], 0, 0, 0, false⟩
     s.wf = true ∧ s.atomFind 9 ((reply 0x1A 0 5).field 32 32) = some a ∧ (reply 0x1A 0 5).field 8 4 ≠ 2 ∧
       (s.fabFind a.dest a.tag [4]).isSome = true ∧ s.fab.atoms = [a] ∧ a.dest = (reply 0x1A 2 5).src ∧
       a.seq = (reply 0x1A 2 5).field 32 32 ∧ (reply 0x1A 2 5).field 8 4 = 2) ∧
    (∀ n ∈ [6, 7], ∀ w ∈ [true, false], let a : AtomOut := ⟨9, 5, 8, pkt 2 0 [], 0, n, 64000, w⟩
     let s := (flying (fcmd 4 0 0 0 7)).setFab { (flying (fcmd 4 0 0 0 7)).fab with atoms := [a] }
     s.wf = true ∧ s.fab.atoms = [a] ∧ a.sentAt + 1000 * s.ov atomicRetryId ≤ s.clk ∧ a.sentAt + a.busy ≤ s.clk ∧
       (s.fabFind a.dest a.tag [4]).isSome = true) ∧
    (let s := flying (fcmd 2 8 0 0 0)
     ((s.fab.cmds.filter (fun x => x.tag == 8)).head?).isSome = true ∧
       ∀ k ∈ s.fab.cmds, fcOp k.word ≠ 4 ∧ k.held = none ∧ k.at_ + 8000 * s.ov atomicRetryId ≤ s.clk) := by
  decide +kernel

/-- A tile of core 255 that waits for a READ or for the acknowledgement of a WRITE at device 9. -/
theorem test_tileResponses :
    (∀ w ∈ [false, true], let r : TileReq := ⟨8, 255, 0, 7, 0, 9, 0x1000, 8, w, false, 0, none, 0⟩
     let x := { tileAt 7 .acking dVector with ctx := 0 }
     let s := (if w then on.modCore 255 ({ · with tiles := [x] }) else on).setFab { on.fab with tileReqs := [r] }
     s.wf = true ∧ s.power.rails = true ∧ s.txe.busy = [] ∧ s.fab.tileReqs = [r] ∧ s.fabFind 9 8 [1] = none ∧ s.fabFind 9 8 [2, 3] = none ∧
       s.tileFind 9 8 w = some r ∧ (w = false → (s.core r.core).tiles = []) ∧ r.core < 256 ∧
       (w = true → (s.core r.core).tiles = [x]) ∧ x.stage = .acking ∧ x.ctx = r.ctx ∧ x.seq = r.seq ∧ x.status = 0 ∧
       x.causes = [] ∧ x.frees = [] ∧ x.flags = 0 ∧ dCplAlways x.desc = false ∧
       respStatus ((reply 0x19 0 8).field 8 4) = 0 ∧ s.fab.cmds.filter (fun y => y.tag == 8) = [] ∧ r.got = none ∧
       r.at_ + 8000 * s.ov atomicRetryId ≤ s.clk) := by
  decide +kernel

theorem test_fabricTimers :
    (let s := on.setFab { on.fab with nextSeq := [(9, 6)], lastAck := [(9, (5, 0))] }
     s.wf = true ∧ seqBefore (tget (0, 0) s.fab.lastAck 9).1 (s.ackSeq 9) = true ∧
       (tget (0, 0) s.fab.lastAck 9).2 + 10000 ≤ s.clk) ∧
    (let s := { kept with clk := 100000000 }
     s.wf = true ∧ s.fab.resp = [⟨9, 5, 3, 0, 77, 0⟩] ∧ 0 + 100000000 ≤ s.clk) ∧
    (kept.wf = true ∧ ∀ e ∈ kept.fab.resp, kept.clk < e.at_ + 100000000) ∧
    (let q := (hubFabric, { pkt 2 0 [0x11] with dest := 9 })
     let s := on.setFab { on.fab with hot := [⟨9, 1, false, 1⟩], capped := [q] }
     s.wf = true ∧ s.fab.capped = [q] ∧ s.fab.hot.all (fun y => y.dest != q.2.dest || decide (0 < y.rate)) = true) := by
  decide +kernel

/-! Ill-formed operands, one for each check of WellFormed.lean, beside the last operand that it accepts. -/

theorem test_wf_numbers :
    ctxOk 15 = true ∧ ctxOk 16 = false ∧ linkOk 5 = true ∧ linkOk 6 = false ∧ dieOk 3 = true ∧ dieOk 4 = false ∧
    coreOk 255 = true ∧ coreOk 256 = false ∧ unitOk 4 = true ∧ unitOk 5 = false ∧ portOk 12 = true ∧ portOk 13 = false ∧
    tileOk 3 = true ∧ tileOk 4 = false ∧ classOk 7 = true ∧ classOk 8 = false ∧ masterOk 3 = true ∧ masterOk 4 = false ∧
    mbxOk 1 = true ∧ mbxOk 2 = false ∧ laneOk 19 = true ∧ laneOk 20 = false ∧ waveOk 3 = true ∧ waveOk 4 = false ∧
    sourceOk 4 = true ∧ sourceOk 5 = false := by
  decide +kernel

/-- The largest packet. -/
def bigPkt : Packet :=
  { vc := 11, dl := true, dest := 65535, src := 65535, dir := 7, hops := 127, ctx := 15, rsv := 65535,
    body := List.replicate 7800 0 }

theorem test_wf_packet : bigPkt.wf = true ∧ { bigPkt with vc := 12 }.wf = false ∧ { bigPkt with dest := 65536 }.wf = false ∧
    { bigPkt with src := 65536 }.wf = false ∧ { bigPkt with dir := 8 }.wf = false ∧ { bigPkt with hops := 128 }.wf = false ∧
    { bigPkt with ctx := 16 }.wf = false ∧ { bigPkt with rsv := 65536 }.wf = false ∧
    { bigPkt with body := List.replicate 7801 0 }.wf = false := by
  decide +kernel

theorem test_wf_request : req.wf = true ∧ { req with cls := 4 }.wf = false ∧ { req with session := 2 ^ 32 }.wf = false ∧
    { req with xid := 2 ^ 32 }.wf = false ∧ { req with epoch := 2 ^ 32 }.wf = false ∧ { req with dest := 65536 }.wf = false ∧
    { req with transport := .mailbox 2 }.wf = false ∧ { req with transport := .vc0 65536 }.wf = false ∧
    optReqOk none = true ∧ optReqOk (some { req with cls := 4 }) = false ∧ (CmdSrc.page 16).wf = false ∧
    (CmdSrc.mgmt req 16).wf = false ∧ (CmdSrc.mgmt { req with cls := 4 } 0).wf = false := by
  decide +kernel

theorem test_wf_places : (PcieLink.mk true 0x7FFF (some 38) [⟨0, 2047, 2 ^ 128 - 1⟩, ⟨15, 0, 0⟩]).wf = true ∧ (PcieLink.mk true 0x8000 none []).wf = false ∧
    (PcieLink.mk true 0 (some 29) []).wf = false ∧ (PcieLink.mk true 0 (some 39) []).wf = false ∧
    (PcieLink.mk true 0 none [⟨0, 2048, 0⟩]).wf = false ∧ (PcieLink.mk true 0 none [⟨1, 1, 0⟩]).wf = false ∧
    pcieRateOk 6 16 false = false ∧ pcieRateOk 6 16 true = true ∧ pcieRateOk 3 16 true = false ∧ pcieRateOk 5 5 false = false ∧
    (StageEnd.failed 2 none).within 2 2 = true ∧ (StageEnd.failed 1 none).within 2 2 = false ∧
    (StageEnd.failed 8 none).within 6 7 = false ∧ (StageEnd.failed 7 (some 13)).within 6 7 = false ∧
    (Rail.core 4).wf = false ∧ (Rail.stack 4).wf = false ∧ Rail.hub.wf = true ∧
    (HostWin.vf 0).wf = false ∧ (HostWin.vf 15).wf = true ∧ (HostWin.vf 16).wf = false ∧ HostWin.pf.wf = true := by
  decide +kernel

theorem test_wf_commands :
    (Instr.hostMemoryRead .pf 0 4096 []).wf = true ∧ (Instr.hostMemoryRead .pf 0 4097 []).wf = false ∧
    (Instr.hostMemoryWrite .pf 0 (List.replicate 4097 0) []).wf = false ∧ (Instr.apply req 15).wf = true ∧
    (Instr.apply req 16).wf = false ∧ (Instr.discard req 16).wf = false ∧ (Instr.retentionTest 3 64 0).wf = false ∧
    (Instr.ringOscSample 0 (List.replicate 49 0)).wf = false ∧ (Instr.criticalPathSample 0 (List.replicate 17 0)).wf = false ∧
    (Instr.laserBiasSample 0 (List.replicate 6 0)).wf = false := by
  decide +kernel

/-- A command with an absent part stops under its own name. -/
theorem test_noSuchPart : exec (.coreSleep 256) on = .fault .noSuchPart ∧ (Instr.coreSleep 256).wf = false :=
  ⟨rfl, rfl⟩

/-- The opcode table gives no row bits. -/
theorem test_decodeTableWord : Sys2Proof.decodeTableWord 32 0 = none ∧ State.reset.withFetchWord 32 0 = State.reset := by
  decide +kernel

theorem test_formats :
    fmtIsInt .int8 = true ∧ fmtIsInt .f8e5 = false ∧
    convertTo .int8 3 0xFFFF (.fin false 255 (-1)) = (0x7F, flagSaturate) ∧
    convertTo .int8 3 0xFFFF (.fin true 257 (-1)) = (0x80, flagNone) ∧
    convertTo .int8 3 0xFFFF (.fin true 259 (-1)) = (0x80, flagSaturate) ∧
    convertTo .int8 3 0xFFFF (.fin false 5 (-1)) = (2, flagNone) := by
  decide +kernel

/-- Reads of a block whose element is `c` and whose scale code is `k`. -/
def block (c k : Byte) : Rd := fun a _ => ([if a = 0 then c else k], [])

/-- The scale codes 0xFF, 0xFE and 0, and each kind of element: NaN, an infinity, 1 and the smallest subnormal. -/
theorem test_blockScaled :
    leNat ((block 0 0xFF) 1 1).1 = 0xFF ∧ leNat ((block 0 0xFE) 1 1).1 ≠ 0xFF ∧ leNat ((block 0 0) 1 1).1 ≠ 0xFF ∧
    (∀ c ∈ [0x7F, 0x7E], decodeFmt .f8e5 (codeAt (block (BitVec.ofNat 8 c) 0) 8 0 0).1 = .nan) ∧
    decodeFmt .f8e5 (codeAt (block 0xFC 0) 8 0 0).1 = .inf true ∧
    decodeFmt .f8e5 (codeAt (block 1 0) 8 0 0).1 = .fin false 1 (-16) ∧
    (∃ m e, decodeFmt .f8e5 (codeAt (block 0x3C 0) 8 0 0).1 = .fin false m e) := by
  refine ⟨by decide +kernel, by decide +kernel, by decide +kernel, by decide +kernel, by decide +kernel,
    by decide +kernel, _, _, rfl⟩

end Sys2Proof.Tests
end

