-- ==== Sys2Proof/Proofs/NumberFormats.lean ====
section
/-!
PROOF. The conversions to integer formats (R36, R43) and the block-scaled elements (R39, R40): what the roundings of
Num.lean answer, as facts about rational values, and the two statements of chapter 02.
-/

namespace Sys2Proof.Machine

/-! Rounding to the nearest integer, to the even one of two. -/

/-- `i` is an integer nearest to `v`, and the even one where two are equally near (R43). -/
def NearestEven (v : ℚ) (i : Int) : Prop := |v - i| ≤ 1 / 2 ∧ (|v - i| = 1 / 2 → i % 2 = 0)

theorem NearestEven.neg {v : ℚ} {i : Int} (h : NearestEven v i) : NearestEven (-v) (-i) := by
  obtain ⟨hnear, heven⟩ := h
  have habs : |-v - ((-i : Int) : ℚ)| = |v - i| := by
    rw [← abs_neg]
    push_cast
    ring_nf
  refine ⟨habs.trans_le hnear, fun htie => ?_⟩
  have := heven (habs.symm.trans htie)
  omega

theorem nearestEven_intCast (i : Int) : NearestEven i i := by simp [NearestEven]

/-- Nearness of a whole number to a fraction, in natural numbers. -/
theorem nearestEven_div {m d n : Nat} (hd : 0 < d) (hlo : 2 * (n * d) ≤ 2 * m + d) (hhi : 2 * m ≤ 2 * (n * d) + d)
    (htie : 2 * m = 2 * (n * d) + d ∨ 2 * m + d = 2 * (n * d) → n % 2 = 0) :
    NearestEven ((m : ℚ) / d) (n : Nat) := by
  have hd' : (0 : ℚ) < 2 * d := by positivity
  have hdiff : (m : ℚ) / d - ((n : Int) : ℚ) = (2 * m - 2 * (n * d)) / (2 * d) := by
    push_cast
    field_simp
  have habs : |(m : ℚ) / d - ((n : Int) : ℚ)| = |(2 * m - 2 * (n * d) : ℚ)| / (2 * d) := by
    rw [hdiff, abs_div, abs_of_pos hd']
  have hlo' : (2 * (n * d) : ℚ) ≤ 2 * m + d := by exact_mod_cast hlo
  have hhi' : (2 * m : ℚ) ≤ 2 * (n * d) + d := by exact_mod_cast hhi
  refine ⟨?_, fun h => ?_⟩
  · rw [habs, div_le_iff₀ hd', abs_le]
    constructor <;> linarith
  · rw [habs, div_eq_iff hd'.ne'] at h
    have heven : n % 2 = 0 := by
      apply htie
      rcases eq_or_eq_neg_of_abs_eq h with h | h
      · left
        have : (2 * m : ℚ) = 2 * (n * d) + d := by linarith
        exact_mod_cast this
      · right
        have : (2 * m + d : ℚ) = 2 * (n * d) := by linarith
        exact_mod_cast this
    omega

/-- `roundShift` to nearest even: the quotient, or the next number where the remainder is above half of `2^d`, or half of it
and the quotient odd. -/
theorem roundShift_rne_nearestEven (m d : Nat) : NearestEven ((m : ℚ) / 2 ^ d) (roundShift .rne m d : Nat) := by
  have hpos : 0 < 2 ^ d := by positivity
  have hdiv : m / 2 ^ d * 2 ^ d + m % 2 ^ d = m := Nat.div_add_mod' m (2 ^ d)
  have hrem : m % 2 ^ d < 2 ^ d := Nat.mod_lt m hpos
  have hnear : NearestEven ((m : ℚ) / (2 ^ d : Nat)) (roundShift .rne m d : Nat) := by
    simp only [roundShift]
    split
    case isTrue hup =>
      have hsucc : (m / 2 ^ d + 1) * 2 ^ d = m / 2 ^ d * 2 ^ d + 2 ^ d := Nat.succ_mul ..
      apply nearestEven_div hpos <;> omega
    case isFalse hdown =>
      apply nearestEven_div hpos <;> omega
  exact_mod_cast hnear

theorem quanta_rne_nearestEven (m : Nat) (e : Int) : NearestEven ((m : ℚ) * 2 ^ e) (quanta .rne m e 0 : Nat) := by
  unfold quanta
  split
  case isTrue he =>
    lift e to Nat using he
    simpa using nearestEven_intCast (m * 2 ^ e : Nat)
  case isFalse he =>
    obtain ⟨d, rfl⟩ : ∃ d : Nat, e = -d := ⟨(-e).toNat, by omega⟩
    simpa [div_eq_mul_inv] using roundShift_rne_nearestEven m d

theorem roundInt_nearestEven (s : Bool) (m : Nat) (e : Int) :
    NearestEven ((if s then -1 else 1) * (m : ℚ) * (2 : ℚ) ^ e) (roundInt s m e) := by
  have h := quanta_rne_nearestEven m e
  cases s with
  | false => simpa [roundInt] using h
  | true => simpa [roundInt] using h.neg

/-! Saturation at the ends of a two's complement range (R36). -/

theorem clampInt_of_mem {w : Nat} {i : Int} (hlo : -(2 ^ (w - 1) : Nat) ≤ i) (hhi : i ≤ (2 ^ (w - 1) : Nat) - 1) :
    clampInt w i = (i, flagNone) := by
  rw [clampInt, if_neg (by omega), if_neg (by omega)]

theorem clampInt_of_lt {w : Nat} {i : Int} (h : i < -(2 ^ (w - 1) : Nat)) :
    clampInt w i = (-((2 ^ (w - 1) : Nat) : Int), flagSaturate) := by
  rw [clampInt, if_pos h]

theorem clampInt_of_gt {w : Nat} {i : Int} (h : ((2 ^ (w - 1) : Nat) : Int) - 1 < i) :
    clampInt w i = (((2 ^ (w - 1) : Nat) : Int) - 1, flagSaturate) := by
  have hpos : 0 < 2 ^ (w - 1) := Nat.two_pow_pos _
  rw [clampInt, if_neg (by omega), if_pos h]

/-! Which conversion a target selects: the conversion mode has no part in the integer one (R43). -/

theorem convertTo_of_isInt {f : Fmt} (h : fmtIsInt f = true) (mode r : Nat) (v : Fv) : convertTo f mode r v = toInt f v := by
  simp [convertTo, h]

theorem convertTo_of_isFloat {f : Fmt} (h : fmtIsInt f = false) (mode r : Nat) (v : Fv) :
    convertTo f mode r v = toFloat f (modeRnd f mode r) (bit mode 1) v := by
  simp [convertTo, h]

theorem decodeFmt_of_isInt {f : Fmt} (h : fmtIsInt f = true) (code : Nat) :
    decodeFmt f code = fvOfInt (sext (fmtWidth f) code) := by
  simp [decodeFmt, h]

theorem toInt_fin (f : Fmt) (s : Bool) (m : Nat) (e : Int) :
    toInt f (.fin s m e) =
      (ofInt (fmtWidth f) (clampInt (fmtWidth f) (roundInt s m e)).1, (clampInt (fmtWidth f) (roundInt s m e)).2) := rfl

/-! The value of an element under its scale code (R40). -/

@[simp] theorem scaled_nanScale (v : Fv) : scaled 255 v = .nan := rfl

@[simp] theorem scaled_nan (k : Nat) : scaled k .nan = .nan := by simp [scaled, scaleBy]

theorem scaled_inf {k : Nat} (h : k ≠ 255) (neg : Bool) : scaled k (.inf neg) = .inf neg := by simp [scaled, scaleBy, h]

theorem scaled_fin {k : Nat} (h : k ≠ 255) (neg : Bool) (m : Nat) (e : Int) :
    scaled k (.fin neg m e) = .fin neg m (e + ((k : Int) - 127)) := by
  simp [scaled, scaleBy, h]

theorem elemValue_elemAt_some (rd : Rd) (f : Fmt) (a i sa : Nat) :
    elemValue (elemAt rd f a i (some sa)).1 =
      some (scaled (leNat (rd sa 1).1) (decodeFmt f (codeAt rd (fmtWidth f) a i).1)) := rfl

theorem flags_elemAt_some (rd : Rd) (f : Fmt) (a i sa : Nat) :
    (elemAt rd f a i (some sa)).2.2 = if leNat (rd sa 1).1 = 255 then flagNanScale else flagNone := rfl

/-- Settles O59: `roundInt` answers the integer nearest to the value, and `clampInt` splits on its place in the range. -/
theorem floatToIntegerRoundsAndSaturates : Obligations.FloatToIntegerRoundsAndSaturates := by
  intro f mode r hf w lo hi
  simp only [convertTo_of_isInt hf]
  refine ⟨rfl, rfl, rfl, fun neg m e => ?_, fun g code hg => ?_⟩
  · obtain ⟨hnear, heven⟩ := roundInt_nearestEven neg m e
    refine ⟨roundInt neg m e, hnear, heven, fun hlo hhi => ?_, fun hlt => ?_, fun hgt => ?_⟩
    · rw [toInt_fin, clampInt_of_mem hlo hhi]
    · rw [toInt_fin, clampInt_of_lt hlt]
    · rw [toInt_fin, clampInt_of_gt hgt]
  · rw [decodeFmt_of_isInt hf, convertTo_of_isFloat hg]

/-- Settles O60: a scale code other than 0xFF adds k − 127 to the exponent and keeps the sign and the magnitude. -/
theorem blockScaledValuesAreExact : Obligations.BlockScaledValuesAreExact := by
  intro rd f a i sa k c x
  have hx : elemValue x.1 = some (scaled k (decodeFmt f c)) := elemValue_elemAt_some rd f a i sa
  have hflags : x.2.2 = if k = 255 then flagNanScale else flagNone := flags_elemAt_some rd f a i sa
  rw [hx, hflags]
  refine ⟨fun hk => ?_, fun hk => ⟨if_neg hk, fun hc => ?_, fun neg hc => ?_, fun neg m e hc => ?_⟩⟩
  · simp [hk]
  · rw [hc, scaled_nan]
  · rw [hc, scaled_inf hk]
  · refine ⟨neg, m, e + ((k : Int) - 127), by rw [hc, scaled_fin hk], ?_⟩
    rw [zpow_add₀ two_ne_zero, mul_assoc _ ((2 : ℚ) ^ e)]

end Sys2Proof.Machine
end

