-- ==== Sys2Proof/Proofs/NormRing.lean ====
section
/-!
PROOF. The norm ring (R470 to R472, R247): rules for the fields of a body, for a store to mapped memory, for the step record
of a context and for a signal, and from them the statement about the records that NORM_SUMMER_DONE writes.
-/

namespace Sys2Proof.Machine

/-! The fields of a body: what one bit reads after a field is set, and after the body is laid out in bytes (R6). -/

theorem bit_eq_testBit (v i : Nat) : bit v i = v.testBit i := by
  rw [bit, Nat.testBit_eq_decide_div_mod_eq]
  exact Bool.beq_eq_decide_eq _ _

/-- A number in three parts: what a field of `w` bits at `lo` has below it, in it and above it. -/
theorem eq_below_add_field_add_above (v lo w : Nat) :
    v = 2 ^ lo * (2 ^ w * (v / 2 ^ lo / 2 ^ w) + bits v lo w) + v % 2 ^ lo := by
  rw [bits, Nat.div_add_mod, Nat.div_add_mod]

theorem setBits_eq (v lo w x : Nat) :
    setBits v lo w x = 2 ^ lo * (2 ^ w * (v / 2 ^ lo / 2 ^ w) + x % 2 ^ w) + v % 2 ^ lo := by
  have hparts := eq_below_add_field_add_above v lo w
  rw [Nat.mul_add] at hparts ⊢
  rw [setBits, Nat.mul_comm (bits v lo w), Nat.mul_comm (x % 2 ^ w)]
  omega

/-- A field leaves every bit outside it. -/
theorem bit_setBits_of_outside (v x : Nat) {lo w i : Nat} (h : i < lo ∨ lo + w ≤ i) : bit (setBits v lo w x) i = bit v i := by
  have hlow : v % 2 ^ lo < 2 ^ lo := Nat.mod_lt _ (Nat.two_pow_pos lo)
  simp only [bit_eq_testBit]
  rw [setBits_eq, Nat.testBit_two_pow_mul_add _ hlow]
  rcases h with h | h
  · simp [h]
  · rw [if_neg (by omega), Nat.testBit_two_pow_mul_add _ (Nat.mod_lt _ (Nat.two_pow_pos w)), if_neg (by omega)]
    simp only [Nat.testBit_div_two_pow]
    congr 1
    omega

/-- A field of one bit reads back the truth value it was given. -/
theorem bit_setBits_ofBool (v i : Nat) (b : Bool) : bit (setBits v i 1 (ofBool b)) i = b := by
  have hlow : v % 2 ^ i < 2 ^ i := Nat.mod_lt _ (Nat.two_pow_pos i)
  rw [bit_eq_testBit, setBits_eq, Nat.testBit_two_pow_mul_add _ hlow, if_neg (Nat.lt_irrefl i), Nat.sub_self]
  cases b <;> simp [ofBool, Nat.testBit_zero, Nat.add_mod]

theorem length_toLE (n v : Nat) : (toLE n v).length = n := by
  induction n generalizing v with
  | zero => rfl
  | succ n ih => simp [toLE, ih]

theorem leNat_toLE (n v : Nat) : leNat (toLE n v) = v % 2 ^ (8 * n) := by
  induction n generalizing v with
  | zero => simp [toLE, leNat, Nat.mod_one]
  | succ n ih =>
    rw [toLE, leNat, ih, BitVec.toNat_ofNat, Nat.mul_succ, Nat.pow_add, Nat.mul_comm (2 ^ (8 * n)), Nat.mod_mul]

theorem bit_leNat_toLE (v : Nat) {n i : Nat} (h : i < 8 * n) : bit (leNat (toLE n v)) i = bit v i := by
  simp [bit_eq_testBit, leNat_toLE, Nat.testBit_mod_two_pow, h]

/-- A body reads at each bit what its fields put there. -/
theorem bit_mkBody (fs : List (Nat × Nat × Nat)) {n i : Nat} (h : i < 8 * n) :
    bit (leNat (mkBody n fs)) i = bit (fs.foldl (fun v f => setBits v f.1 f.2.1 f.2.2) 0) i := bit_leNat_toLE _ h

/-- Fields that lie above a bit leave it. -/
theorem bit_foldl_setBits_above {fs : List (Nat × Nat × Nat)} {i : Nat} (h : fs.all (fun f => decide (i < f.1)) = true)
    (v : Nat) : bit (fs.foldl (fun v f => setBits v f.1 f.2.1 f.2.2) v) i = bit v i := by
  induction fs generalizing v with
  | nil => rfl
  | cons f fs ih =>
    simp only [List.all_cons, Bool.and_eq_true, decide_eq_true_eq] at h
    rw [List.foldl_cons, ih h.2, bit_setBits_of_outside _ _ (.inl h.1)]

/-- The bit of a field of one bit, where the fields after it lie above it. -/
theorem bit_mkBody_ofBool (fs gs : List (Nat × Nat × Nat)) {n i : Nat} (b : Bool) (h : i < 8 * n)
    (hgs : gs.all (fun f => decide (i < f.1)) = true) : bit (leNat (mkBody n (fs ++ (i, 1, ofBool b) :: gs))) i = b := by
  rw [bit_mkBody _ h, List.foldl_append, List.foldl_cons, bit_foldl_setBits_above hgs, bit_setBits_ofBool]

/-! A store to mapped memory (R288): the bytes of its range, and no others. -/

theorem State.mapped_putByte (s : State) (a i : Nat) (b : Byte) : (s.putByte a b).mapped i = s.mapped i := by
  unfold State.putByte
  split <;> rfl

theorem State.bytes_putByte {s : State} {a : Nat} (b : Byte) (h : s.mapped a = true) :
    (s.putByte a b).mem.bytes = tset 0 s.mem.bytes a b := by
  rw [State.putByte, if_pos h]
  rfl

theorem State.bytes_putBytes {s : State} {a : Nat} (bs : List Byte) (h : ∀ i, i < bs.length → s.mapped (a + i) = true) :
    (s.putBytes a bs).mem.bytes = tstore s.mem.bytes a bs := by
  induction bs generalizing s a with
  | nil => rfl
  | cons b bs ih =>
    have hhead : s.mapped a = true := h 0 (by simp)
    have htail : ∀ i, i < bs.length → (s.putByte a b).mapped (a + 1 + i) = true := fun i hi => by
      rw [State.mapped_putByte, Nat.add_right_comm]
      exact h (i + 1) (by simpa using hi)
    rw [State.putBytes, ih htail, State.bytes_putByte b hhead, tstore]

theorem State.bytes_storeDev_eq_putBytes (s : State) (a : Nat) (bs : List Byte) :
    (s.storeDev a bs).mem.bytes = (s.putBytes a bs).mem.bytes := by
  unfold State.storeDev
  induction List.range (bs.length / 64 + 1) using List.reverseRecOn with
  | nil => rfl
  | append_singleton gs g ih =>
    rw [List.foldl_append, List.foldl_cons, List.foldl_nil]
    dsimp only
    split <;> exact ih

theorem State.mapped_of_not_anyUnmapped {s : State} {a n i : Nat} (h : s.anyUnmapped a n = false) (hi : i < n) :
    s.mapped (a + i) = true := by
  simp only [State.anyUnmapped, List.any_eq_false, List.mem_range] at h
  simpa using h i hi

theorem State.bytes_storeDev {s : State} {a : Nat} {bs : List Byte} (h : s.anyUnmapped a bs.length = false) :
    (s.storeDev a bs).mem.bytes = tstore s.mem.bytes a bs := by
  rw [State.bytes_storeDev_eq_putBytes, State.bytes_putBytes bs (fun _ => State.mapped_of_not_anyUnmapped h)]

theorem State.memByte_storeDev_inside {s : State} {a i : Nat} {bs : List Byte} {b : Byte} (hw : s.wf = true)
    (h : s.anyUnmapped a bs.length = false) (hb : bs[i]? = some b) : (s.storeDev a bs).memByte (a + i) = b := by
  obtain ⟨hi, rfl⟩ := List.getElem?_eq_some_iff.mp hb
  have hbytes : twf 0 s.mem.bytes = true := by
    simp only [State.wf, Bool.and_eq_true, Mem.wf_iff] at hw
    tauto
  rw [State.memByte, State.bytes_storeDev h, tget_tstore_inside _ _ _ hbytes hi]

theorem State.memByte_storeDev_outside {s : State} {a i : Nat} {bs : List Byte} (h : s.anyUnmapped a bs.length = false)
    (hi : i < a ∨ a + bs.length ≤ i) : (s.storeDev a bs).memByte i = s.memByte i := by
  rw [State.memByte, State.bytes_storeDev h, tget_tstore_of_outside _ _ _ hi, State.memByte]

/-! The step record of a context, and what an operation keeps of every context's. -/

theorem State.twf_steps {s : State} (hw : s.wf = true) : twf .init s.steps = true := by
  simp only [State.wf, Bool.and_eq_true] at hw
  tauto

theorem State.stp_setStp_self {s : State} (hw : twf .init s.steps = true) (c : Nat) (x : StepCtx) :
    (s.setStp c x).stp c = x := tget_tset_self _ hw c x

theorem State.stp_setStp_of_ne (s : State) {c d : Nat} (x : StepCtx) (h : c ≠ d) : (s.setStp c x).stp d = s.stp d :=
  tget_tset_of_ne _ _ x h

theorem State.stp_congr {s t : State} (h : t.steps = s.steps) (c : Nat) : t.stp c = s.stp c := by
  rw [State.stp, h, State.stp]

/-- Where the table of step records is canonical, an operation keeps it so, and what `f` reads of a context's step record is as
it was, in every context. -/
structure StpKept {β : Type} (f : StepCtx → β) (s t : State) : Prop where
  canonical : twf .init s.steps = true → twf .init t.steps = true
  same : twf .init s.steps = true → ∀ c, f (t.stp c) = f (s.stp c)

section
variable {β : Type} {f : StepCtx → β}

theorem StpKept.refl (s : State) : StpKept f s s := ⟨id, fun _ _ => rfl⟩

/-- An operation after what came before it. -/
theorem StpKept.comp {s t u : State} (k : StpKept f t u) (h : StpKept f s t) : StpKept f s u :=
  ⟨fun w => k.canonical (h.canonical w), fun w c => (k.same (h.canonical w) c).trans (h.same w c)⟩

/-- An operation that leaves the step records alone. -/
theorem StpKept.of_steps {s t : State} (h : t.steps = s.steps) : StpKept f s t :=
  ⟨fun w => by rwa [h], fun _ c => congrArg f (State.stp_congr h c)⟩

theorem StpKept.setStp {s : State} {c : Nat} {x : StepCtx} (h : f x = f (s.stp c)) : StpKept f s (s.setStp c x) := by
  refine ⟨twf_tset _ c x, fun w d => ?_⟩
  by_cases hd : c = d
  · subst hd
    rw [State.stp_setStp_self w, h]
  · rw [State.stp_setStp_of_ne s x hd]

theorem StpKept.modStp {s : State} {c : Nat} {g : StepCtx → StepCtx} (h : ∀ x, f (g x) = f x) :
    StpKept f s (s.modStp c g) := .setStp (h _)

/-- A fold that carries a value beside the state. -/
theorem StpKept.foldl_fst {α γ : Type} {g : State × γ → α → State × γ} (hg : ∀ q x, StpKept f q.1 (g q x).1) (xs : List α)
    (q : State × γ) : StpKept f q.1 (xs.foldl g q).1 := by
  induction xs generalizing q with
  | nil => exact .refl _
  | cons x xs ih => exact .comp (ih _) (hg q x)

end

/-! A signal and the norm ring's part of the step records: a signal can latch a failure (R187), which is another part. -/

/-- What the norm summer keeps of a context for its ring: whether it runs, the tail and GAP (R247, R472). -/
def StepCtx.ring (x : StepCtx) : Bool × Nat × Bool := (x.summing, x.normTail, x.normGap)

theorem State.failVote_keeps_ring (s : State) (ctx reason : Nat) : StpKept StepCtx.ring s (s.failVote ctx reason) := by
  unfold State.failVote
  dsimp only
  split
  case isTrue => exact .refl s
  case isFalse => exact .comp (.modStp fun _ => rfl) (.of_steps rfl)

theorem State.latch_keeps_ring (s : State) (ctx reason : Nat) : StpKept StepCtx.ring s (s.latch ctx reason) := by
  unfold State.latch
  dsimp only
  split
  case isFalse => exact .refl s
  case isTrue =>
    split
    · exact .comp (State.failVote_keeps_ring ..) (.modStp fun _ => rfl)
    · exact .comp (State.failVote_keeps_ring ..) (.modStp fun _ => rfl)
    · exact .modStp fun _ => rfl
    · exact .refl s

theorem State.mapFault_keeps_ring (s : State) (ctx phys : Nat) : StpKept StepCtx.ring s (s.mapFault ctx phys) :=
  .comp (State.latch_keeps_ring (s.syncFlag 3 phys) ctx 1) (.of_steps rfl)

theorem State.steps_capInject (s : State) (port : Nat) (p : Packet) : (s.capInject port p).steps = s.steps :=
  (State.capInject_runs s port p).same .steps rfl

theorem State.syncSend_keeps_ring (s : State) (ctx : Nat) (e : SyncEntry) (arrive : Bool) (k : Nat) :
    StpKept StepCtx.ring s (s.syncSend ctx e arrive k) := by
  unfold State.syncSend
  split
  case isFalse => exact .of_steps (State.steps_capInject ..)
  case isTrue =>
    split
    · exact .of_steps rfl
    · exact State.mapFault_keeps_ring ..

section
variable {β : Type} {f : StepCtx → β} {issue : Nat → State → State} (hissue : ∀ n t, StpKept f t (issue n t))
include hissue

/-- Completing rounds keeps what the ON_COMPLETE operations keep (R194). -/
theorem completeRounds_keeps (p fuel : Nat) (s : State) : StpKept f s (completeRounds issue p fuel s) := by
  induction fuel generalizing s with
  | zero => exact .refl s
  | succ n ih =>
    unfold completeRounds
    dsimp only
    split
    case isTrue => exact .comp (ih _) (.comp (hissue ..) (.of_steps rfl))
    case isFalse => exact .refl s

theorem arriveAt_keeps (fuel p r : Nat) (s : State) : StpKept f s (arriveAt issue fuel p r s).1 := by
  unfold arriveAt
  dsimp only
  split
  · exact .of_steps rfl
  · split
    · exact .comp (completeRounds_keeps hissue p fuel _) (.of_steps rfl)
    · split <;> exact .of_steps rfl

end

theorem State.ctrAdd_steps (s : State) (p k : Nat) : (s.ctrAdd p k).steps = s.steps :=
  (State.ctrAdd_runs s p k).same .steps rfl

theorem syncSignal_keeps_ring (fuel ctx id k : Nat) (s : State) : StpKept StepCtx.ring s (syncSignal fuel ctx id k s) := by
  induction fuel generalizing ctx id k s with
  | zero => exact .refl s
  | succ n ih =>
    unfold syncSignal
    dsimp only
    split
    · exact State.mapFault_keeps_ring ..
    · split
      · split
        · exact .of_steps (State.ctrAdd_steps ..)
        · exact State.syncSend_keeps_ring ..
      · split
        · refine arriveAt_keeps (fun n t => ?_) _ _ _ s
          split
          · exact .refl t
          · exact ih ..
        · exact State.syncSend_keeps_ring ..

/-! What a signal does to the counters and the objects rests on them alone: not on the step records, the router or the fabric. -/

/-- Two states with the same counters and the same objects. -/
def SyncAgree (s t : State) : Prop := s.sync = t.sync ∧ s.obj = t.obj

/-- Operations that leave counters and objects alone. -/
theorem SyncAgree.of_runs {L K : List Part} {s s' t t' : State} (h : SyncAgree s t) (hs : Runs L s s') (ht : Runs K t t')
    (hL : L.contains .sync = false ∧ L.contains .obj = false) (hK : K.contains .sync = false ∧ K.contains .obj = false) :
    SyncAgree s' t' :=
  ⟨Eq.trans (Eq.trans (hs.same .sync hL.1) h.1) (Eq.symm (ht.same .sync hK.1)),
    Eq.trans (Eq.trans (hs.same .obj hL.2) h.2) (Eq.symm (ht.same .obj hK.2))⟩

section
variable {s t : State} (h : SyncAgree s t)
include h

theorem SyncAgree.ctr (i : Nat) : s.ctr i = t.ctr i := by rw [State.ctr, h.1, State.ctr]

theorem SyncAgree.syncEntry (ctx id : Nat) : s.syncEntry ctx id = t.syncEntry ctx id := by
  rw [State.syncEntry, h.2, State.syncEntry]

theorem SyncAgree.ov (id : Nat) : s.ov id = t.ov id := by rw [State.ov, h.2, State.ov]

theorem SyncAgree.barExpected (p : Nat) : s.barExpected p = t.barExpected p := by
  rw [State.barExpected, h.ctr, State.barExpected]

theorem SyncAgree.barRound (p : Nat) : s.barRound p = t.barRound p := by rw [State.barRound, h.ctr, State.barRound]

theorem SyncAgree.barCur (p : Nat) : s.barCur p = t.barCur p := by rw [State.barCur, h.ctr, State.barCur]

theorem SyncAgree.barDist (p r : Nat) : s.barDist p r = t.barDist p r := by rw [State.barDist, h.barRound, State.barDist]

theorem SyncAgree.setCtr (i v : Nat) : SyncAgree (s.setCtr i v) (t.setCtr i v) := by
  refine ⟨?_, h.2⟩
  rw [State.setCtr_sync, State.setCtr_sync, h.ctr, h.1]

theorem SyncAgree.syncFlag (b phys : Nat) : SyncAgree (s.syncFlag b phys) (t.syncFlag b phys) := by
  refine ⟨h.1, ?_⟩
  simp only [State.syncFlag, State.modOv, State.setOv, State.setObj_obj, h.ov, h.2]

theorem SyncAgree.misuse (p : Nat) : SyncAgree (s.misuse p) (t.misuse p) := by
  rw [State.misuse, State.misuse, h.ctr]
  exact (h.setCtr _ _).syncFlag _ _

theorem SyncAgree.ctrAdd (p k : Nat) : SyncAgree (s.ctrAdd p k) (t.ctrAdd p k) := by
  unfold State.ctrAdd
  rw [h.ctr]
  dsimp only
  split
  · exact (h.setCtr _ _).syncFlag _ _
  · exact h.setCtr _ _

theorem SyncAgree.mapFault (ctx phys : Nat) : SyncAgree (s.mapFault ctx phys) (t.mapFault ctx phys) :=
  (h.syncFlag 3 phys).of_runs (State.latch_runs ..) (State.latch_runs ..) ⟨rfl, rfl⟩ ⟨rfl, rfl⟩

theorem SyncAgree.blockOk (ctx : Nat) : s.blockOk ctx = t.blockOk ctx := by
  rw [State.blockOk, State.block, h.ov, State.blockOk, State.block]

theorem SyncAgree.syncSend (ctx : Nat) (e : SyncEntry) (arrive : Bool) (k : Nat) :
    SyncAgree (s.syncSend ctx e arrive k) (t.syncSend ctx e arrive k) := by
  unfold State.syncSend
  rw [h.blockOk]
  split
  case isFalse => exact h.of_runs (State.capInject_runs ..) (State.capInject_runs ..) ⟨rfl, rfl⟩ ⟨rfl, rfl⟩
  case isTrue =>
    split
    · exact h
    · exact h.mapFault ctx e.phys

end

section
variable {issue issue' : Nat → State → State} {s t : State}
  (hissue : ∀ n s t, SyncAgree s t → SyncAgree (issue n s) (issue' n t)) (h : SyncAgree s t)
include hissue h

theorem SyncAgree.completeRounds (p fuel : Nat) :
    SyncAgree (completeRounds issue p fuel s) (completeRounds issue' p fuel t) := by
  induction fuel generalizing s t with
  | zero => exact h
  | succ n ih =>
    unfold Machine.completeRounds
    dsimp only
    rw [h.barRound, h.barCur, h.barExpected, h.ctr]
    split
    · exact ih (hissue _ _ _ ((h.setCtr _ _).setCtr _ _))
    · exact h

theorem SyncAgree.arriveAt (fuel p r : Nat) : SyncAgree (arriveAt issue fuel p r s).1 (arriveAt issue' fuel p r t).1 := by
  unfold Machine.arriveAt
  dsimp only
  rw [h.barDist, h.barRound, h.barCur, h.barExpected, h.ctr, h.ctr]
  split
  · exact h.misuse p
  · split
    · exact SyncAgree.completeRounds hissue (h.setCtr _ _) p fuel
    · split
      · exact h.setCtr _ _
      · exact h.misuse p

end

theorem SyncAgree.syncSignal {s t : State} (h : SyncAgree s t) (fuel ctx id k : Nat) :
    SyncAgree (syncSignal fuel ctx id k s) (syncSignal fuel ctx id k t) := by
  induction fuel generalizing ctx id k s t with
  | zero => exact h
  | succ n ih =>
    unfold Machine.syncSignal
    rw [h.syncEntry]
    dsimp only
    split
    · exact h.mapFault ctx _
    · split
      · split
        · exact h.ctrAdd _ k
        · exact h.syncSend ctx _ false k
      · split
        · refine SyncAgree.arriveAt (fun m u v huv => ?_) h _ _ k
          split
          · exact huv
          · rw [huv.syncEntry]
            exact ih huv ..
        · exact h.syncSend ctx _ true k

/-- The counters after a signal are the same from states that agree. -/
theorem State.sync_signal_congr {s t : State} (hsync : s.sync = t.sync) (hobj : s.obj = t.obj) (ctx id k : Nat) :
    (s.signal ctx id k).sync = (t.signal ctx id k).sync :=
  (SyncAgree.syncSignal ⟨hsync, hobj⟩ syncFuel ctx id k).1

/-! What the norm summer's flags leave of the values in force (R50). -/

theorem State.ov_setOv_of_ne (s : State) {id j : Nat} (v : Nat) (h : id ≠ j) : (s.setOv id v).ov j = s.ov j := by
  have hfind : ∀ d t, tget d (tset (objDefault id) t id v) j = tget d t j := fun d t => by
    unfold tset
    split
    · exact tget_terase_of_ne d t h
    · exact tget_tins_of_ne d t v h
  exact hfind ..

theorem State.ov_raise_of_ne (s : State) (f : Flags) {c id : Nat} (h : formatFlagsId + c ≠ id) :
    (s.raise c f).ov id = s.ov id := by
  unfold State.raise
  split
  case isTrue => rfl
  case isFalse => exact State.ov_setOv_of_ne s _ h

/-- The state in which the norm summer of a context writes its records: the flags of the totals are raised. -/
def State.normRaised (s : State) (c : Nat) : State := (s.normTotals c).foldl (fun u y => u.raise c y.2.fl) s

theorem State.normRaised_runs (s : State) (c : Nat) : Runs [.obj] s (s.normRaised c) :=
  Runs.foldl (fun _ _ => State.raise_runs ..) _ (Runs.refl s)

theorem State.stp_normRaised (s : State) (c d : Nat) : (s.normRaised c).stp d = s.stp d :=
  State.stp_congr ((s.normRaised_runs c).same .steps rfl) d

theorem State.ov_normRaised_of_ne (s : State) {c id : Nat} (h : formatFlagsId + c ≠ id) :
    (s.normRaised c).ov id = s.ov id := by
  unfold State.normRaised
  induction s.normTotals c using List.reverseRecOn with
  | nil => rfl
  | append_singleton ys y ih => rw [List.foldl_append, List.foldl_cons, List.foldl_nil, State.ov_raise_of_ne _ _ h, ih]

/-- FORMAT_FLAGS is no object of the norm ring. -/
theorem formatFlagsId_add_ne_normRingId_add {c d : Nat} (hc : c < 16) : formatFlagsId + c ≠ normRingId + d := by
  simp only [formatFlagsId, normRingId]
  omega

/-! One record (R471, R472). -/

/-- The place after the tail of a context's norm ring; there is room where it is not the head (R472). -/
def State.normNext (s : State) (c : Nat) : Nat :=
  ((s.stp c).normTail + 1) % (256 * 2 ^ bits (s.ov (normRingId + c)) 64 4)

/-- Where the next record of a context stands (R472). -/
def State.normPlace (s : State) (c : Nat) : Nat := bits (s.ov (normRingId + c)) 0 64 + 32 * (s.stp c).normTail

/-- The record of a layer's totals, with GAP as the records before it left it (R471, R472). -/
def State.normRec (s : State) (c l : Nat) (z : NormSum) : List Byte :=
  normRecBytes (s.stp c).sumStep l (s.stp c).normGap (tget? (s.stp c).summed l) z

/-- A record is written: the tail is at `next`, and no loss is due any more. -/
def StepCtx.recordWritten (x : StepCtx) (next : Nat) : StepCtx := { x with normTail := next, normGap := false }

/-- A record is lost: the next one has GAP set. -/
def StepCtx.recordLost (x : StepCtx) : StepCtx := { x with normGap := true }

theorem length_normRec (s : State) (c l : Nat) (z : NormSum) : (s.normRec c l z).length = 32 := length_toLE ..

/-- GAP stands at bit 46 of a record: the fields set after it lie above it (R471). -/
theorem bit_gap_normRecBytes (step layer : Nat) (gap : Bool) (e : Option (Nat × GradStat)) (x : NormSum) :
    bit (leNat (normRecBytes step layer gap e x)) 46 = gap :=
  bit_mkBody_ofBool [(0, 32, step), (32, 12, layer), (44, 2, _)] _ gap (by decide) rfl

section
variable {s : State} {c : Nat} (l : Nat) (z : NormSum) (k : Nat)

theorem State.normWrite_of_full (h : s.normNext c = s.ov (normRingHeadId + c)) :
    State.normWrite c l z (s, k) = (s.setStp c (s.stp c).recordLost, k) := if_pos h

theorem State.normWrite_of_room (h : s.normNext c ≠ s.ov (normRingHeadId + c)) :
    State.normWrite c l z (s, k) =
      ((s.storeDev (s.normPlace c) (s.normRec c l z)).setStp c ((s.stp c).recordWritten (s.normNext c)), k + 1) := if_neg h

/-- Writing a record, or losing it, fails no step: what latches a failure is as it was (R472). -/
theorem State.normWrite_keeps_latch (q : State × Nat) :
    StpKept (fun x => (x.latch, x.latchNext, x.failSent)) q.1 (State.normWrite c l z q).1 := by
  obtain ⟨s, k⟩ := q
  by_cases h : s.normNext c = s.ov (normRingHeadId + c)
  · rw [State.normWrite_of_full l z k h]
    exact .setStp rfl
  · have hstore := (State.storeDev_runs s (s.normPlace c) (s.normRec c l z)).same .steps rfl
    rw [State.normWrite_of_room l z k h]
    exact .comp (.setStp (by rw [State.stp_congr hstore]; rfl)) (.of_steps hstore)

/-- With room, the record stands at the tail, the tail advances, and no loss is due any more (R472). -/
theorem State.normWrite_room (hw : s.wf = true) (h : s.normNext c ≠ s.ov (normRingHeadId + c)) :
    let q := State.normWrite c l z (s, k)
    q.2 = k + 1 ∧ (q.1.stp c).normTail = s.normNext c ∧ (q.1.stp c).normGap = false ∧
      bit (leNat (s.normRec c l z)) 46 = (s.stp c).normGap ∧
      (s.anyUnmapped (s.normPlace c) 32 = false →
        (∀ i b, (s.normRec c l z)[i]? = some b → q.1.memByte (s.normPlace c + i) = b) ∧
        ∀ i, i < s.normPlace c ∨ s.normPlace c + 32 ≤ i → q.1.memByte i = s.memByte i) ∧
      Frame [.mem, .steps] s q.1 := by
  have hstore : twf .init (s.storeDev (s.normPlace c) (s.normRec c l z)).steps = true :=
    State.twf_steps ((State.storeDev_runs ..).wf hw)
  have hframe := (State.normWrite_runs c l z (s, k)).frame
  rw [State.normWrite_of_room l z k h] at hframe ⊢
  dsimp only
  rw [State.stp_setStp_self hstore]
  refine ⟨rfl, rfl, rfl, bit_gap_normRecBytes .., fun hmap => ?_, hframe⟩
  rw [← length_normRec s c l z] at hmap ⊢
  exact ⟨fun _ _ hb => State.memByte_storeDev_inside hw hmap hb, fun _ hi => State.memByte_storeDev_outside hmap hi⟩

/-- Without room, only the step record differs: a loss is due in the next record (R472). -/
theorem State.normWrite_full (hw : s.wf = true) (h : s.normNext c = s.ov (normRingHeadId + c)) :
    let q := State.normWrite c l z (s, k)
    q.2 = k ∧ (q.1.stp c).normTail = (s.stp c).normTail ∧ (q.1.stp c).normGap = true ∧ Frame [.steps] s q.1 := by
  rw [State.normWrite_of_full l z k h]
  dsimp only
  rw [State.stp_setStp_self (State.twf_steps hw)]
  exact ⟨rfl, rfl, rfl, (State.setStp_runs ..).frame⟩

end

/-! NORM_SUMMER_DONE (R247, R471, R472). -/

/-- The records written, or lost, one for each layer in ascending order, and the number written. -/
def State.normWritten (s : State) (c : Nat) : State × Nat :=
  (s.normTotals c).foldl (fun q y => State.normWrite c y.1 y.2 q) (s.normRaised c, 0)

theorem State.normWritten_runs (s : State) (c : Nat) : Runs [.mem, .steps] (s.normRaised c) (s.normWritten c).1 :=
  Runs.foldl_fst (fun t k _ => State.normWrite_runs _ _ _ (t, k)) _ (Runs.refl _)

theorem State.normWritten_keeps_latch (s : State) (c : Nat) :
    StpKept (fun x => (x.latch, x.latchNext, x.failSent)) s (s.normWritten c).1 :=
  .comp (StpKept.foldl_fst (fun q _ => State.normWrite_keeps_latch _ _ q) _ (s.normRaised c, 0))
    (.of_steps ((s.normRaised_runs c).same .steps rfl))

/-- The norm summer has ended its work on a step. -/
def StepCtx.normEnded (x : StepCtx) : StepCtx := { x with summing := false, summed := [] }

/-- The summer's end once its records are written: it signals their number where there are any (R471). -/
def State.normFinish (c id : Nat) (w : State × Nat) : State :=
  if w.2 = 0 then w.1.modStp c StepCtx.normEnded else (w.1.modStp c StepCtx.normEnded).signal c id w.2

section
variable {s : State} {c : Nat}

theorem State.normDone_of_no_ring (hc : c < 16) (hs : (s.stp c).summing = true)
    (hb : bits (s.ov (normRingId + c)) 0 64 = 0) : s.normDone c = (s.normRaised c).modStp c StepCtx.normEnded := by
  have hr : (s.normRaised c).ov (normRingId + c) = s.ov (normRingId + c) :=
    State.ov_normRaised_of_ne s (formatFlagsId_add_ne_normRingId_add hc)
  unfold State.normRaised at hr
  unfold State.normDone State.normRaised
  rw [if_neg (by simp [hs])]
  simp only [hr, if_pos hb, if_true]
  rfl

theorem State.normDone_of_ring (hc : c < 16) (hs : (s.stp c).summing = true)
    (hb : bits (s.ov (normRingId + c)) 0 64 ≠ 0) :
    s.normDone c = State.normFinish c (bits (s.ov (normRingId + c)) 80 16) (s.normWritten c) := by
  have hr : (s.normRaised c).ov (normRingId + c) = s.ov (normRingId + c) :=
    State.ov_normRaised_of_ne s (formatFlagsId_add_ne_normRingId_add hc)
  unfold State.normRaised at hr
  unfold State.normDone State.normFinish State.normWritten State.normRaised
  rw [if_neg (by simp [hs])]
  simp only [hr, if_neg hb]
  rfl

/-- The end of the summer's work leaves memory and the ring; its signal is that of the state in which the records stand. -/
theorem State.normFinish_spec {w : State × Nat} (hw : twf .init w.1.steps = true) (id : Nat) :
    let t := State.normFinish c id w
    (t.stp c).summing = false ∧ t.mem = w.1.mem ∧ (t.stp c).normTail = (w.1.stp c).normTail ∧
      (t.stp c).normGap = (w.1.stp c).normGap ∧ (w.2 ≠ 0 → t.sync = (w.1.signal c id w.2).sync) ∧
      (w.2 = 0 → t.sync = w.1.sync ∧ t.router = w.1.router ∧ (t.stp c).latch = (w.1.stp c).latch) := by
  obtain ⟨v, k⟩ := w
  have hended : (v.modStp c StepCtx.normEnded).stp c = (v.stp c).normEnded := State.stp_setStp_self hw c _
  unfold State.normFinish
  dsimp only
  split
  case isTrue hk =>
    rw [hended]
    exact ⟨rfl, rfl, rfl, rfl, fun h => absurd hk h, fun _ => ⟨rfl, rfl, rfl⟩⟩
  case isFalse hk =>
    have hring : (((v.modStp c StepCtx.normEnded).signal c id k).stp c).ring = (v.stp c).normEnded.ring := by
      rw [← hended]
      exact (syncSignal_keeps_ring ..).same (twf_tset _ _ _ hw) c
    simp only [StepCtx.ring, StepCtx.normEnded, Prod.mk.injEq] at hring
    obtain ⟨hsumming, htail, hgap⟩ := hring
    have hmem : ((v.modStp c StepCtx.normEnded).signal c id k).mem = v.mem := (State.signal_runs ..).same .mem rfl
    have hsync : ((v.modStp c StepCtx.normEnded).signal c id k).sync = (v.signal c id k).sync :=
      State.sync_signal_congr (State.setStp_sync ..) (State.setStp_obj ..) c id k
    exact ⟨hsumming, hmem, htail, hgap, fun _ => hsync, fun h => absurd h hk⟩

variable (hw : s.wf = true) (hc : c < 16) (hs : (s.stp c).summing = true)
include hw hc hs

/-- The summer's end without a ring: nothing is written. -/
theorem State.normDone_no_ring (hb : bits (s.ov (normRingId + c)) 0 64 = 0) :
    ((s.normDone c).stp c).summing = false ∧ ((s.normDone c).stp c).normTail = (s.stp c).normTail ∧
      Frame [.steps, .obj] s (s.normDone c) := by
  have hraised := s.normRaised_runs c
  rw [State.normDone_of_no_ring hc hs hb]
  have hstp : ((s.normRaised c).modStp c StepCtx.normEnded).stp c = (s.stp c).normEnded := by
    rw [State.modStp_eq, State.stp_setStp_self (State.twf_steps (hraised.wf hw)), State.stp_normRaised]
  rw [hstp]
  exact ⟨rfl, rfl, (Runs.comp (State.modStp_runs ..) rfl (hraised.mono rfl)).frame⟩

/-- The summer's end with a ring: the records as written, and a signal that counts them where there are any. -/
theorem State.normDone_ring (hb : bits (s.ov (normRingId + c)) 0 64 ≠ 0) :
    let w := s.normWritten c
    let t := s.normDone c
    (t.stp c).summing = false ∧ t.mem = w.1.mem ∧ (t.stp c).normTail = (w.1.stp c).normTail ∧
      (t.stp c).normGap = (w.1.stp c).normGap ∧
      (w.2 ≠ 0 → t.sync = (w.1.signal c (bits (s.ov (normRingId + c)) 80 16) w.2).sync) ∧
      (w.2 = 0 → t.sync = s.sync ∧ t.router = s.router ∧ (t.stp c).latch = (s.stp c).latch) := by
  have hwritten : Runs [.mem, .steps, .obj] s (s.normWritten c).1 :=
    Runs.comp (s.normWritten_runs c) rfl ((s.normRaised_runs c).mono rfl)
  have hlatch : ((s.normWritten c).1.stp c).latch = (s.stp c).latch :=
    congrArg Prod.fst ((s.normWritten_keeps_latch c).same (State.twf_steps hw) c)
  rw [State.normDone_of_ring hc hs hb]
  obtain ⟨hsumming, hmem, htail, hgap, hsome, hnone⟩ :=
    State.normFinish_spec (c := c) (State.twf_steps (hwritten.wf hw)) (bits (s.ov (normRingId + c)) 80 16)
  refine ⟨hsumming, hmem, htail, hgap, hsome, fun h => ?_⟩
  obtain ⟨hsync, hrouter, hkept⟩ := hnone h
  exact ⟨hsync.trans (hwritten.same .sync rfl), hrouter.trans (hwritten.same .router rfl), hkept.trans hlatch⟩

end

theorem exec_normSummerDone {s : State} {c : Nat} (hc : c < 16) : exec (.normSummerDone c) s = .next (s.normDone c) := by
  simp [exec, execNormSummerDone, need, ctxOk, hc]

/-- Settles O49: one record by the two branches of `normWrite`, and NORM_SUMMER_DONE by the fold of it over the layers; the
signal afterwards leaves memory and the ring, and what it does to the counters rests on the counters and the objects alone. -/
theorem normRecordsAreWrittenOnlyWithRoom : Obligations.NormRecordsAreWrittenOnlyWithRoom := by
  intro s c hw hc r n
  refine ⟨fun l z k => ?_, fun hs => ⟨fun hb => ?_, fun hb => ?_⟩⟩
  · have hkept := (State.normWrite_keeps_latch (c := c) l z (s, k)).same (State.twf_steps hw) c
    simp only [Prod.mk.injEq] at hkept
    obtain ⟨hlatch, hnext, hfail⟩ := hkept
    exact ⟨hlatch, hnext, hfail, State.normWrite_room l z k hw, State.normWrite_full l z k hw⟩
  · exact ⟨_, exec_normSummerDone hc, State.normDone_no_ring hw hc hs hb⟩
  · obtain ⟨hsumming, hmem, htail, hgap, hsome, hnone⟩ := State.normDone_ring hw hc hs hb
    exact ⟨_, exec_normSummerDone hc, hsumming, hmem, htail, hgap, hsome, hnone, (State.normDone_runs c s).frame⟩

end Sys2Proof.Machine
end

