-- ==== Sys2Proof/Proofs/Dispatch.lean ====
section
/-!
PROOF. What holds of every command alike: it answers a next state exactly when its operands name parts that the module has, and
its step keeps the canonical form and leaves the queue; a run over a queue of such commands; the idle step; and reset.
-/

namespace Sys2Proof.Machine

/-! Every command is one check of its operands before one next state. -/

theorem need_need (a b : Bool) (r : Result) : need a (need b r) = need (a && b) r := by
  cases a <;> rfl

theorem exec_eq_need (c : Instr) (s : State) : ∃ t, exec c s = need c.wf (.next t) := by
  cases c with
  | apply r area => exact ⟨_, need_need ..⟩
  | discard r area => exact ⟨_, need_need ..⟩
  | stepStart r ctx n => exact ⟨_, need_need ..⟩
  | permuteGo r ctx v => exact ⟨_, need_need ..⟩
  | pruneExcessCountClear r ctx v => exact ⟨_, need_need ..⟩
  | moduleReset src => cases src <;> exact ⟨_, rfl⟩
  | contextReset src ctx =>
    cases src with
    | none => exact ⟨_, by rw [Instr.wf, optReqOk, Bool.and_true]; rfl⟩
    | some r => exact ⟨_, need_need ..⟩
  | _ => exact ⟨_, rfl⟩

theorem exec_of_wf {c : Instr} (h : c.wf = true) (s : State) : ∃ t, exec c s = .next t := by
  obtain ⟨t, ht⟩ := exec_eq_need c s
  exact ⟨t, by rw [ht, h]; rfl⟩

theorem exec_of_not_wf {c : Instr} (h : c.wf = false) (s : State) : exec c s = .fault .noSuchPart := by
  obtain ⟨t, ht⟩ := exec_eq_need c s
  rw [ht, h]
  rfl

/-! What every command keeps, whatever parts it changes. -/

/-- Where a command answers a next state, the queue is as it was and the canonical form is kept. -/
def Kept (s : State) (r : Result) : Prop := ∀ t, r = .next t → t.pending = s.pending ∧ (s.wf = true → t.wf = true)

theorem Kept.of_runs {L : List Part} {s : State} {r : Result} (h : RunsTo L s r) : Kept s r :=
  fun t ht => ⟨(h t ht).queue, (h t ht).wf⟩

theorem exec_kept (c : Instr) (s : State) : Kept s (exec c s) := by
  cases c with
  | mgmtSegmentReceive dgram bytes => exact .of_runs (execMgmtSegmentReceive_runs dgram bytes s)
  | mgmtMessageDiscard cls xid => exact .of_runs (execMgmtMessageDiscard_runs cls xid s)
  | mgmtVc0Receive p => exact .of_runs (execMgmtVc0Receive_runs p s)
  | mbxDoorbell m len => exact .of_runs (execMbxDoorbell_runs m len s)
  | hello r => exact .of_runs (execHello_runs r s)
  | claim r priority preempt tag => exact .of_runs (execClaim_runs r priority preempt tag s)
  | renew r => exact .of_runs (execRenew_runs r s)
  | release r => exact .of_runs (execRelease_runs r s)
  | handover r target => exact .of_runs (execHandover_runs r target s)
  | close r => exact .of_runs (execClose_runs r s)
  | read r id sub flags => exact .of_runs (execRead_runs r id sub flags s)
  | write r id sub val => exact .of_runs (execWrite_runs r id sub val s)
  | describe r id => exact .of_runs (execDescribe_runs r id s)
  | mgmtPost r ctx target descs => exact .of_runs (execMgmtPost_runs r ctx target descs s)
  | sessionLapse cls => exact .of_runs (execSessionLapse_runs cls s)
  | leaseExpiry => exact .of_runs (execLeaseExpiry_runs s)
  | handoverLapse => exact .of_runs (execHandoverLapse_runs s)
  | authLockExpiry cls => exact .of_runs (execAuthLockExpiry_runs cls s)
  | apply r area => exact .of_runs (execApply_runs r area s)
  | discard r area => exact .of_runs (execDiscard_runs r area s)
  | protDrainDone => exact .of_runs (execProtDrainDone_runs s)
  | fwImageBlockWrite r sub val => exact .of_runs (execFwImageBlockWrite_runs r sub val s)
  | fwActivate r v => exact .of_runs (execFwActivate_runs r v s)
  | bootVerifyDone => exact .of_runs (execBootVerifyDone_runs s)
  | stepStart r ctx n => exact .of_runs (execStepStart_runs r ctx n s)
  | ftSet r v => exact .of_runs (execFtSet_runs r v s)
  | permuteGo r ctx v => exact .of_runs (execPermuteGo_runs r ctx v s)
  | kettleRestart r v => exact .of_runs (execKettleRestart_runs r v s)
  | replanCtrl r v => exact .of_runs (execReplanCtrl_runs r v s)
  | serviceAck r v => exact .of_runs (execServiceAck_runs r v s)
  | selfTest r v => exact .of_runs (execSelfTest_runs r v s)
  | idleClear r v => exact .of_runs (execIdleClear_runs r v s)
  | pruneExcessCountClear r ctx v => exact .of_runs (execPruneExcessCountClear_runs r ctx v s)
  | rw1cFlagClear r id v => exact .of_runs (execRw1cFlagClear_runs r id v s)
  | moduleReset src => exact .of_runs (execModuleReset_runs src s)
  | mainReset r => exact .of_runs (execMainReset_runs r s)
  | computeReset r => exact .of_runs (execComputeReset_runs r s)
  | contextReset src ctx => exact .of_runs (execContextReset_runs src ctx s)
  | hostReset => exact .of_runs (execHostReset_runs s)
  | sqTailWrite ctx v => exact .of_runs (execSqTailWrite_runs ctx v s)
  | sqEntryTake ctx readOk host => exact .of_runs (execSqEntryTake_runs ctx readOk host s)
  | sqListFullRetry ctx => exact .of_runs (execSqListFullRetry_runs ctx s)
  | intStatusClear ctx v => exact .of_runs (execIntStatusClear_runs ctx v s)
  | intMaskWrite ctx v => exact .of_runs (execIntMaskWrite_runs ctx v s)
  | hostRegisterWrite off bytes => exact .of_runs (execHostRegisterWrite_runs off bytes s)
  | hostMemoryRead win off n err => exact .of_runs (execHostMemoryRead_runs win off n err s)
  | hostMemoryWrite win off bytes err => exact .of_runs (execHostMemoryWrite_runs win off bytes err s)
  | objectWindowWrite off bytes => exact .of_runs (execObjectWindowWrite_runs off bytes s)
  | powerOn => exact .of_runs (execPowerOn_runs s)
  | caddyReady => exact .of_runs (execCaddyReady_runs s)
  | mainSequenceStart => exact .of_runs (execMainSequenceStart_runs s)
  | railsUp e => exact .of_runs (execRailsUp_runs e s)
  | coreSelfTestDone fails e => exact .of_runs (execCoreSelfTestDone_runs fails e s)
  | gddr7TrainingDone rate e => exact .of_runs (execGddr7TrainingDone_runs rate e s)
  | memoryZeroed e => exact .of_runs (execMemoryZeroed_runs e s)
  | mainReady e => exact .of_runs (execMainReady_runs e s)
  | refclkLoss => exact .of_runs (execRefclkLoss_runs s)
  | powerEstimate a => exact .of_runs (execPowerEstimate_runs a s)
  | calibration measured rails => exact .of_runs (execCalibration_runs measured rails s)
  | phaseEnergyUpdate => exact .of_runs (execPhaseEnergyUpdate_runs s)
  | controlTick => exact .of_runs (execControlTick_runs s)
  | opChangeDone die => exact .of_runs (execOpChangeDone_runs die s)
  | forcedIdleFrame => exact .of_runs (execForcedIdleFrame_runs s)
  | forcedIdleQuantumStart core => exact .of_runs (execForcedIdleQuantumStart_runs core s)
  | forcedIdleQuantumEnd core => exact .of_runs (execForcedIdleQuantumEnd_runs core s)
  | paceProbeStart => exact .of_runs (execPaceProbeStart_runs s)
  | paceProbeEnd => exact .of_runs (execPaceProbeEnd_runs s)
  | droopDetect supply => exact .of_runs (execDroopDetect_runs supply s)
  | droopStretchEnd supply cycles => exact .of_runs (execDroopStretchEnd_runs supply cycles s)
  | droopLimitExpiry die => exact .of_runs (execDroopLimitExpiry_runs die s)
  | thermalSample temps => exact .of_runs (execThermalSample_runs temps s)
  | powerBrakeAssert => exact .of_runs (execPowerBrakeAssert_runs s)
  | powerBrakeDeassert => exact .of_runs (execPowerBrakeDeassert_runs s)
  | coolantOkLow => exact .of_runs (execCoolantOkLow_runs s)
  | stackTempSample stack t => exact .of_runs (execStackTempSample_runs stack t s)
  | gddrTempRead temps => exact .of_runs (execGddrTempRead_runs temps s)
  | gddr7Realign => exact .of_runs (execGddr7Realign_runs s)
  | gddr7DeviceLost => exact .of_runs (execGddr7DeviceLost_runs s)
  | scrubRead addr err => exact .of_runs (execScrubRead_runs addr err s)
  | granuleRetireDone => exact .of_runs (execGranuleRetireDone_runs s)
  | journalWriteDone => exact .of_runs (execJournalWriteDone_runs s)
  | coreFailureDetect core => exact .of_runs (execCoreFailureDetect_runs core s)
  | watchdogExpiry core => exact .of_runs (execWatchdogExpiry_runs core s)
  | spareCoreReady die => exact .of_runs (execSpareCoreReady_runs die s)
  | railPhaseLoss rail => exact .of_runs (execRailPhaseLoss_runs rail s)
  | mgmtTakeover => exact .of_runs (execMgmtTakeover_runs s)
  | m1Failure => exact .of_runs (execM1Failure_runs s)
  | powerLoss input => exact .of_runs (execPowerLoss_runs input s)
  | ringOscSample unit counts => exact .of_runs (execRingOscSample_runs unit counts s)
  | criticalPathSample unit vmin => exact .of_runs (execCriticalPathSample_runs unit vmin s)
  | laserBiasSample link ratios => exact .of_runs (execLaserBiasSample_runs link ratios s)
  | retentionTest stack channel multiple => exact .of_runs (execRetentionTest_runs stack channel multiple s)
  | poweredHourTick => exact .of_runs (execPoweredHourTick_runs s)
  | lightArrival link => exact .of_runs (execLightArrival_runs link s)
  | laneLockDone link healthy => exact .of_runs (execLaneLockDone_runs link healthy s)
  | ident link raw => exact .of_runs (execIdent_runs link raw s)
  | widthSet link raw => exact .of_runs (execWidthSet_runs link raw s)
  | widthAck link raw => exact .of_runs (execWidthAck_runs link raw s)
  | spareReq link raw => exact .of_runs (execSpareReq_runs link raw s)
  | spareAck link raw => exact .of_runs (execSpareAck_runs link raw s)
  | laneCtrlResend link => exact .of_runs (execLaneCtrlResend_runs link s)
  | atRoundChange link rx => exact .of_runs (execAtRoundChange_runs link rx s)
  | linkDown link => exact .of_runs (execLinkDown_runs link s)
  | laneFailure link lane => exact .of_runs (execLaneFailure_runs link lane s)
  | wavelengthTimeout link wave => exact .of_runs (execWavelengthTimeout_runs link wave s)
  | laserFailure link source => exact .of_runs (execLaserFailure_runs link source s)
  | laserSpareLocked link => exact .of_runs (execLaserSpareLocked_runs link s)
  | dataFlitReceive link raw fecOk => exact .of_runs (execDataFlitReceive_runs link raw fecOk s)
  | idleFlitReceive link raw => exact .of_runs (execIdleFlitReceive_runs link raw s)
  | nak link raw => exact .of_runs (execNak_runs link raw s)
  | resend link raw => exact .of_runs (execResend_runs link raw s)
  | nakRepeat link => exact .of_runs (execNakRepeat_runs link s)
  | routerParityError link => exact .of_runs (execRouterParityError_runs link s)
  | flitTransmit link => exact .of_runs (execFlitTransmit_runs link s)
  | packetRoute port => exact .of_runs (execPacketRoute_runs port s)
  | faultNotice p => exact .of_runs (execFaultNotice_runs p s)
  | timeExchangeStart link => exact .of_runs (execTimeExchangeStart_runs link s)
  | timeFlitReceive link raw => exact .of_runs (execTimeFlitReceive_runs link raw s)
  | ftParentReselect => exact .of_runs (execFtParentReselect_runs s)
  | ftHoldoverEntry => exact .of_runs (execFtHoldoverEntry_runs s)
  | signal src w => exact .of_runs (execSignal_runs src w s)
  | takeNb src w => exact .of_runs (execTakeNb_runs src w s)
  | syncRead src w => exact .of_runs (execSyncRead_runs src w s)
  | set src w => exact .of_runs (execSet_runs src w s)
  | arrive src w => exact .of_runs (execArrive_runs src w s)
  | barrierInit src w => exact .of_runs (execBarrierInit_runs src w s)
  | remoteSyncReceive p => exact .of_runs (execRemoteSyncReceive_runs p s)
  | coreSleep core => exact .of_runs (execCoreSleep_runs core s)
  | coreWake core => exact .of_runs (execCoreWake_runs core s)
  | matmul core => exact .of_runs (execMatmul_runs core s)
  | vector core => exact .of_runs (execVector_runs core s)
  | copy core => exact .of_runs (execCopy_runs core s)
  | emit core => exact .of_runs (execEmit_runs core s)
  | update core => exact .of_runs (execUpdate_runs core s)
  | send core => exact .of_runs (execSend_runs core s)
  | post core => exact .of_runs (execPost_runs core s)
  | postRetry core => exact .of_runs (execPostRetry_runs core s)
  | overflowMove die => exact .of_runs (execOverflowMove_runs die s)
  | chainMissing die => exact .of_runs (execChainMissing_runs die s)
  | tileComputeDone core idx err => exact .of_runs (execTileComputeDone_runs core idx err s)
  | tileEpilogueDone core idx err => exact .of_runs (execTileEpilogueDone_runs core idx err s)
  | tileStoresDone core idx => exact .of_runs (execTileStoresDone_runs core idx s)
  | ctxSliceExpiry core stops => exact .of_runs (execCtxSliceExpiry_runs core stops s)
  | contextSwitchDone core => exact .of_runs (execContextSwitchDone_runs core s)
  | exchAdmit => exact .of_runs (execExchAdmit_runs s)
  | dispatch => exact .of_runs (execDispatch_runs s)
  | exchReturn => exact .of_runs (execExchReturn_runs s)
  | combine => exact .of_runs (execCombine_runs s)
  | openBwd => exact .of_runs (execOpenBwd_runs s)
  | exchCount p => exact .of_runs (execExchCount_runs p s)
  | exchGrant p => exact .of_runs (execExchGrant_runs p s)
  | exchAllot p => exact .of_runs (execExchAllot_runs p s)
  | exchRow p => exact .of_runs (execExchRow_runs p s)
  | exchReturnRow p => exact .of_runs (execExchReturnRow_runs p s)
  | exchDeadlineExpiry ctx id dir => exact .of_runs (execExchDeadlineExpiry_runs ctx id dir s)
  | stepVote ctx => exact .of_runs (execStepVote_runs ctx s)
  | vote p => exact .of_runs (execVote_runs p s)
  | commitDeadlineExpiry ctx => exact .of_runs (execCommitDeadlineExpiry_runs ctx s)
  | commit p => exact .of_runs (execCommit_runs p s)
  | replay p => exact .of_runs (execReplay_runs p s)
  | halt p => exact .of_runs (execHalt_runs p s)
  | decisionTimeout ctx => exact .of_runs (execDecisionTimeout_runs ctx s)
  | normSummerDone ctx => exact .of_runs (execNormSummerDone_runs ctx s)
  | emitChunkHandoff => exact .of_runs (execEmitChunkHandoff_runs s)
  | redChunkReceive p => exact .of_runs (execRedChunkReceive_runs p s)
  | reduceDeadlineExpiry ctx group tag => exact .of_runs (execReduceDeadlineExpiry_runs ctx group tag s)
  | permuteDrainRound ctx => exact .of_runs (execPermuteDrainRound_runs ctx s)
  | countReq p => exact .of_runs (execCountReq_runs p s)
  | permuteCount p => exact .of_runs (execPermuteCount_runs p s)
  | phase1Go p => exact .of_runs (execPhase1Go_runs p s)
  | permutePhase1CopyDone ctx => exact .of_runs (execPermutePhase1CopyDone_runs ctx s)
  | phase1Done p => exact .of_runs (execPhase1Done_runs p s)
  | phase2Go p => exact .of_runs (execPhase2Go_runs p s)
  | permutePhase2StoresAcked ctx => exact .of_runs (execPermutePhase2StoresAcked_runs ctx s)
  | phase2Done p => exact .of_runs (execPhase2Done_runs p s)
  | permuteDone p => exact .of_runs (execPermuteDone_runs p s)
  | permuteFailed p => exact .of_runs (execPermuteFailed_runs p s)
  | entryInvalid p => exact .of_runs (execEntryInvalid_runs p s)
  | permuteStageDeadline ctx => exact .of_runs (execPermuteStageDeadline_runs ctx s)
  | alloc src w => exact .of_runs (execAlloc_runs src w s)
  | free src w => exact .of_runs (execFree_runs src w s)
  | query src w => exact .of_runs (execQuery_runs src w s)
  | creditReq p => exact .of_runs (execCreditReq_runs p s)
  | urnRequestServe ctx => exact .of_runs (execUrnRequestServe_runs ctx s)
  | urnGrant p => exact .of_runs (execUrnGrant_runs p s)
  | urnData p => exact .of_runs (execUrnData_runs p s)
  | urnListRepairDone cls => exact .of_runs (execUrnListRepairDone_runs cls s)
  | fabRead ctx => exact .of_runs (execFabRead_runs ctx s)
  | fabWrite ctx => exact .of_runs (execFabWrite_runs ctx s)
  | fabFlaggedWrite ctx => exact .of_runs (execFabFlaggedWrite_runs ctx s)
  | fabAtomic ctx => exact .of_runs (execFabAtomic_runs ctx s)
  | fabInvalidate ctx => exact .of_runs (execFabInvalidate_runs ctx s)
  | flaggedWriteSend ctx => exact .of_runs (execFlaggedWriteSend_runs ctx s)
  | targetRead p err => exact .of_runs (execTargetRead_runs p err s)
  | targetWrite p err => exact .of_runs (execTargetWrite_runs p err s)
  | targetFlaggedWrite q => exact .of_runs (execTargetFlaggedWrite_runs q s)
  | targetAtomic q => exact .of_runs (execTargetAtomic_runs q s)
  | atomicCombined q => exact .of_runs (execAtomicCombined_runs q s)
  | atomicAck p => exact .of_runs (execAtomicAck_runs p s)
  | targetInvalidate p => exact .of_runs (execTargetInvalidate_runs p s)
  | inv p => exact .of_runs (execInv_runs p s)
  | invAck p => exact .of_runs (execInvAck_runs p s)
  | readData p => exact .of_runs (execReadData_runs p s)
  | writeAck p => exact .of_runs (execWriteAck_runs p s)
  | atomicResp p => exact .of_runs (execAtomicResp_runs p s)
  | invDone p => exact .of_runs (execInvDone_runs p s)
  | atomicRetryTimeout dest seq => exact .of_runs (execAtomicRetryTimeout_runs dest seq s)
  | atomicBusyRetry dest seq => exact .of_runs (execAtomicBusyRetry_runs dest seq s)
  | atomicAckTimer dest => exact .of_runs (execAtomicAckTimer_runs dest s)
  | atomicEntryExpiry => exact .of_runs (execAtomicEntryExpiry_runs s)
  | hotRateTick => exact .of_runs (execHotRateTick_runs s)
  | fabTimeout tag => exact .of_runs (execFabTimeout_runs tag s)
  | telemetrySample idle phases => exact .of_runs (execTelemetrySample_runs idle phases s)
  | wavelengthRelock link wave => exact .of_runs (execWavelengthRelock_runs link wave s)
  | ftRefLoss => exact .of_runs (execFtRefLoss_runs s)
  | orefLoss => exact .of_runs (execOrefLoss_runs s)
  | plcaBeaconTimeout => exact .of_runs (execPlcaBeaconTimeout_runs s)
  | pcieLinkTrainingDone gen width link => exact .of_runs (execPcieLinkTrainingDone_runs gen width link s)
  | holdUpExhausted => exact .of_runs (execHoldUpExhausted_runs s)

/-! Runs. -/

theorem step_of_idle {s : State} (h : s.pending = []) : step s = .next s.idle := by
  rw [step, h]

theorem step_of_command {c : Instr} {cs : List Instr} {s : State} (h : s.pending = c :: cs) :
    step s = exec c { s with pending := cs } := by
  rw [step, h]

/-- A step from a queue of well-formed commands answers a next state, with the queue's rest. -/
theorem step_of_wf_queue {s : State} (h : s.pending.all Instr.wf = true) :
    ∃ t, step s = .next t ∧ t.pending = s.pending.drop 1 := by
  cases hq : s.pending with
  | nil => exact ⟨_, step_of_idle hq, (State.idle_runs s).queue.trans hq⟩
  | cons c cs =>
    rw [hq, List.all_cons, Bool.and_eq_true] at h
    obtain ⟨t, ht⟩ := exec_of_wf h.1 { s with pending := cs }
    exact ⟨t, (step_of_command hq).trans ht, (exec_kept _ _ t ht).1⟩

/-! The idle step. -/

theorem State.idle_clk (s : State) : s.idle.clk = s.clk + 1 := by
  unfold State.idle
  rw [(State.flaws_runs _).same .clk rfl, (State.microsecond_runs _).same .clk rfl, (State.notice_runs _).same .clk rfl]

theorem State.idle_ft (s : State) : s.idle.ft = s.ft.tick := by
  unfold State.idle
  rw [(State.flaws_runs _).same .ft rfl, (State.microsecond_runs _).same .ft rfl, (State.notice_runs _).same .ft rfl]

theorem FabTime.tick_of_standing {f : FabTime} (h : f.running = false) : f.tick = f := by simp [FabTime.tick, h]

theorem FabTime.tick_of_uncorrected {f : FabTime} (h : f.running = true) (hc : f.corr = 0) (hf : f.frac = 0) :
    f.tick = { f with now := (f.now + 1) % 2 ^ 64, frac := f.frac + f.corr } := by
  simp [FabTime.tick, h, hc, hf]

theorem State.microsecond_of_within {s : State} (h : s.clk % 1000 ≠ 0) : s.microsecond = s := if_neg h

theorem State.flaws_of_none {s : State} (h : s.power.rails = false ∨ Config.found s.clk = []) : s.flaws = s := by
  rcases h with h | h <;> simp [State.flaws, h]

/-- Within a microsecond and without an error found, only the list controllers act beside the clock. -/
theorem State.idle_runs_within {s : State} (h : (s.clk + 1) % 1000 ≠ 0)
    (hf : s.power.rails = false ∨ Config.found (s.clk + 1) = []) : Runs [.clk, .ft, .sched, .urn, .router] s s.idle := by
  unfold State.idle
  have hnotice := State.notice_runs { s with clk := s.clk + 1, ft := s.ft.tick }
  rw [State.microsecond_of_within (by rw [hnotice.same .clk rfl]; exact h), State.flaws_of_none]
  · exact Runs.comp hnotice rfl (Runs.trans ((Runs.clk s (s.clk + 1)).mono rfl)
      ((Runs.ft { s with clk := s.clk + 1 } s.ft.tick FabTime.tick_wf).mono rfl))
  · rw [hnotice.same .clk rfl, hnotice.same .power rfl]
    exact hf

/-- Settles O1. -/
theorem stepRunsTheFrontCommand : Obligations.StepRunsTheFrontCommand := fun _ _ _ => step_of_command rfl

/-- Settles O2: the idle step is the clock's tick and then three operations with frames of their own. -/
theorem idleStepPassesOneNanosecond : Obligations.IdleStepPassesOneNanosecond := by
  intro s hq
  refine ⟨s.idle, step_of_idle hq, s.idle_clk, fun h => ?_, fun h hc hf => ?_, s.idle_runs.frame,
    fun h hf => (State.idle_runs_within h hf).frame⟩
  · rw [s.idle_ft, FabTime.tick_of_standing h]
  · rw [s.idle_ft, FabTime.tick_of_uncorrected h hc hf]

/-- Settles O3: each value as the reset state names it, and every table empty. -/
theorem resetHoldsTheSpecsValues : Obligations.ResetHoldsTheSpecsValues :=
  ⟨rfl, rfl, rfl, fun _ => rfl, fun _ => rfl, fun _ => ⟨rfl, rfl⟩, fun _ => rfl, rfl, rfl, rfl, fun _ => rfl, fun _ => rfl⟩

/-- Settles O4: every table is empty at reset. -/
theorem resetIsCanonical : Obligations.ResetIsCanonical := by
  unfold Obligations.ResetIsCanonical
  decide

/-- Settles O5: a step is the idle step or one command, and each keeps the canonical form. -/
theorem stepKeepsTheCanonicalForm : Obligations.StepKeepsTheCanonicalForm := by
  intro s t hw h
  cases hq : s.pending with
  | nil =>
    rw [step_of_idle hq] at h
    cases h
    exact s.idle_runs.wf hw
  | cons c cs =>
    rw [step_of_command hq] at h
    exact (exec_kept c _ t h).2 hw

/-- Settles O6, by the one check of operands before each command's effect. -/
theorem commandsStopOnlyOnAbsentParts : Obligations.CommandsStopOnlyOnAbsentParts :=
  fun _ s => ⟨fun h => exec_of_wf h s, fun h => exec_of_not_wf h s⟩

/-- Settles O7. -/
theorem commandsLeaveTheQueue : Obligations.CommandsLeaveTheQueue := fun c s t h => (exec_kept c s t h).1

/-- Settles O8, by induction on the number of steps: the rest of a queue of well-formed commands is one. -/
theorem wellFormedQueuesNeverStop : Obligations.WellFormedQueuesNeverStop := by
  intro n
  induction n with
  | zero => exact fun s _ => ⟨s, rfl, rfl⟩
  | succ n ih =>
    intro s h
    obtain ⟨u, hu, hq⟩ := step_of_wf_queue h
    have hall : u.pending.all Instr.wf = true := by
      rw [hq]
      exact List.all_eq_true.mpr fun c hc => List.all_eq_true.mp h c (List.mem_of_mem_drop hc)
    obtain ⟨t, ht, hd⟩ := ih u hall
    refine ⟨t, ?_, by rw [hd, hq, List.drop_drop, Nat.add_comm]⟩
    have hstep : core.step s = .next u := hu
    simp only [Host.Core.run, hstep, ht]

end Sys2Proof.Machine
end

