-- ==== Sys2Proof/Proofs/Records.lean ====
section
/-!
PROOF. Rules for the records that the state holds in tables: what a record reads after it or another was written, where the
table is canonical; what an operation on one record after the other leaves; and which parts of the state a record rests on.
-/

namespace Sys2Proof.Machine

theorem need_of {ok : Bool} (h : ok = true) (r : Result) : need ok r = r := if_pos h

theorem powered_of {s : State} (h : s.power.rails = true) (t : State) : powered s t = .next t := congrArg _ (if_pos h)

/-- A read after a write, in a table with rising keys. -/
theorem tget_tset {α : Type} [DecidableEq α] {d : α} {t : Tbl α} (h : keysFrom none t = true) (i j : Nat) (x : α) :
    tget d (tset d t i x) j = if j = i then x else tget d t j := by
  split
  case isTrue hj =>
    subst hj
    unfold tset
    split
    case isTrue hx => rw [hx, tget_terase_self d h]
    case isFalse => exact tget_tins_self ..
  case isFalse hj => exact tget_tset_of_ne d t x (Ne.symm hj)

/-- What holds of the default and of every entry listed holds of every entry read. -/
theorem tget_of_forall {α : Type} {P : α → Prop} {d : α} {t : Tbl α} (hd : P d) (h : ∀ p ∈ t, P p.2) (i : Nat) :
    P (tget d t i) := by
  induction t with
  | nil => exact hd
  | cons p t ih =>
    rw [tget]
    split
    · exact h p (List.mem_cons_self ..)
    · exact ih fun q hq => h q (List.mem_cons_of_mem p hq)

theorem tget_tmap_of_forall {α : Type} [DecidableEq α] {P : α → Prop} {d : α} {f : α → α} (hd : P d) (hf : ∀ x, P (f x))
    (t : Tbl α) (i : Nat) : P (tget d (tmap d f t) i) := by
  refine tget_of_forall hd (fun p hp => ?_) i
  obtain ⟨q, -, rfl⟩ := List.mem_map.mp (List.mem_filter.mp hp).1
  exact hf q.2

/-! The tables of a canonical state. -/

section
variable {s : State} (hw : s.wf = true)
include hw

theorem State.twf_dies : twf .init s.kettle.dies = true := ((State.wf_iff s).mp hw).2.2.1

theorem State.twf_cores : twf .init s.cores = true := ((State.wf_iff s).mp hw).2.2.2.1

theorem State.twf_lists : twf [] s.sched.lists = true := ((State.wf_iff s).mp hw).2.2.2.2.1

theorem State.twf_links : twf .init s.links = true := by
  simp only [State.wf, Bool.and_eq_true] at hw
  tauto

theorem State.wf_mem : s.mem.wf = true := by
  simp only [State.wf, Bool.and_eq_true] at hw
  tauto

theorem State.wf_sync : s.sync.wf = true := by
  simp only [State.wf, Bool.and_eq_true] at hw
  tauto

theorem State.wf_host : s.host.wf = true := by
  simp only [State.wf, Bool.and_eq_true] at hw
  tauto

theorem State.wf_red : s.red.wf = true := by
  simp only [State.wf, Bool.and_eq_true] at hw
  tauto

theorem State.wf_obj : s.obj.wf = true := by
  simp only [State.wf, Bool.and_eq_true] at hw
  tauto

theorem State.wf_urn : s.urn.wf = true := by
  simp only [State.wf, Bool.and_eq_true] at hw
  tauto

theorem State.wf_router : s.router.wf = true := by
  simp only [State.wf, Bool.and_eq_true] at hw
  tauto

theorem State.wf_ageing : s.ageing.wf = true := by
  simp only [State.wf, Bool.and_eq_true] at hw
  tauto

theorem State.twf_phases : twf 0 s.power.phases = true := ((State.wf_iff s).mp hw).2.1

theorem State.keysFrom_sessions : keysFrom none s.caddy.sessions = true := by
  simp only [State.wf, Bool.and_eq_true] at hw
  tauto

theorem State.twf_pages : twf .init s.host.pages = true := ((HostIf.wf_iff _).mp (State.wf_host hw)).1

theorem State.twf_mbx : twf .init s.host.mbx = true := ((HostIf.wf_iff _).mp (State.wf_host hw)).2

theorem State.keysFrom_vals : keysFrom none s.obj.vals = true := ((Objects.wf_iff _).mp (State.wf_obj hw)).1

theorem State.twf_area : twf .init s.obj.area = true := ((Objects.wf_iff _).mp (State.wf_obj hw)).2.1

theorem State.twf_gf : twf .init s.obj.gf = true := ((Objects.wf_iff _).mp (State.wf_obj hw)).2.2

theorem State.twf_redc : twf .init s.red.ctx = true := by
  have := State.wf_red hw
  simp only [Red.wf, Bool.and_eq_true] at this
  exact this.1

theorem State.twf_perm : twf .init s.red.perm = true := by
  have := State.wf_red hw
  simp only [Red.wf, Bool.and_eq_true] at this
  exact this.2

theorem State.twf_age : twf .init s.ageing.units = true := by
  have := State.wf_ageing hw
  simp only [Ageing.wf, Bool.and_eq_true] at this
  exact this.1

theorem State.twf_retention : twf 8 s.ageing.retention = true := by
  have := State.wf_ageing hw
  simp only [Ageing.wf, Bool.and_eq_true] at this
  exact this.2

theorem State.twf_ctr : twf 0 s.sync.ctr = true := by
  have := State.wf_sync hw
  simp only [Sync.wf, Bool.and_eq_true] at this
  tauto

theorem State.twf_poison : twf false s.mem.poison = true := by
  have := State.wf_mem hw
  simp only [Mem.wf, Bool.and_eq_true] at this
  tauto

theorem State.twf_level : twf 0 s.mem.level = true := by
  have := State.wf_mem hw
  simp only [Mem.wf, Bool.and_eq_true] at this
  tauto

theorem State.twf_inj : twf [] s.router.inj = true := by
  have := State.wf_router hw
  simp only [Router.wf, Bool.and_eq_true] at this
  tauto

theorem State.twf_urnLists : twf .init s.urn.lists = true := by
  have := State.wf_urn hw
  simp only [Urn.wf, Bool.and_eq_true] at this
  tauto

end

/-! A record after it, or another, was written. -/

section
variable {s : State}

theorem State.die_setDie (h : twf .init s.kettle.dies = true) (d e : Nat) (x : Die) :
    (s.setDie d x).die e = if e = d then x else s.die e := tget_tset (twf_keys h) d e x

theorem State.core_setCore (h : twf .init s.cores = true) (n m : Nat) (x : Core) :
    (s.setCore n x).core m = if m = n then x else s.core m := tget_tset (twf_keys h) n m x

theorem State.link_setLink (h : twf .init s.links = true) (l k : Nat) (x : Link) :
    (s.setLink l x).link k = if k = l then x else s.link k := tget_tset (twf_keys h) l k x

theorem State.stp_setStp (h : twf .init s.steps = true) (c d : Nat) (x : StepCtx) :
    (s.setStp c x).stp d = if d = c then x else s.stp d := tget_tset (twf_keys h) c d x

theorem State.page_setPage (h : twf .init s.host.pages = true) (c d : Nat) (x : Page) :
    (s.setPage c x).page d = if d = c then x else s.page d := tget_tset (twf_keys h) c d x

theorem State.mailbox_setMailbox (h : twf .init s.host.mbx = true) (m n : Nat) (x : Mailbox) :
    (s.setMailbox m x).mailbox n = if n = m then x else s.mailbox n := tget_tset (twf_keys h) m n x

theorem State.redc_setRedc (h : twf .init s.red.ctx = true) (c d : Nat) (x : RedCtx) :
    (s.setRedc c x).redc d = if d = c then x else s.redc d := tget_tset (twf_keys h) c d x

theorem State.perm_setPerm (h : twf .init s.red.perm = true) (c d : Nat) (x : Perm) :
    (s.setPerm c x).perm d = if d = c then x else s.perm d := tget_tset (twf_keys h) c d x

theorem State.age_setAge (h : twf .init s.ageing.units = true) (u v : Nat) (x : AgeUnit) :
    (s.setAge u x).age v = if v = u then x else s.age v := tget_tset (twf_keys h) u v x

theorem State.dieList_setDieList (h : twf [] s.sched.lists = true) (d e : Nat) (x : List Entry) :
    (s.setDieList d x).dieList e = if e = d then x else s.dieList e := tget_tset (twf_keys h) d e x

theorem State.ctr_setCtr (h : twf 0 s.sync.ctr = true) (i j v : Nat) :
    (s.setCtr i v).ctr j = if j = i then v else s.ctr j := tget_tset (twf_keys h) i j v

theorem State.gf_setGf (h : twf .init s.obj.gf = true) (l k : Nat) (x : GfState) :
    (s.setGf l x).gf k = if k = l then x else s.gf k := tget_tset (twf_keys h) l k x

theorem State.area_setArea (h : twf .init s.obj.area = true) (a b : Nat) (x : AreaSt) :
    (s.setArea a x).area b = if b = a then x else s.area b := tget_tset (twf_keys h) a b x

theorem State.ov_setOv (h : keysFrom none s.obj.vals = true) (id j v : Nat) :
    (s.setOv id v).ov j = if j = id then v else s.ov j := by
  split
  case isTrue hj => rw [hj]; exact (tget_tset h id id v).trans (if_pos rfl)
  case isFalse hj => exact State.ov_setOv_of_ne s v (Ne.symm hj)

theorem State.ov_modOv (h : keysFrom none s.obj.vals = true) (id j : Nat) (f : Nat → Nat) :
    (s.modOv id f).ov j = if j = id then f (s.ov id) else s.ov j := State.ov_setOv h id j _

theorem State.ov_bump (h : keysFrom none s.obj.vals = true) (id j n : Nat) :
    (s.bump id n).ov j = if j = id then satAdd 32 n (s.ov id) else s.ov j := State.ov_setOv h id j _

end

/-! A record rests on its table alone. -/

section
variable {s t : State}

theorem State.die_congr (h : t.kettle = s.kettle) (d : Nat) : t.die d = s.die d := by rw [State.die, h, State.die]

theorem State.core_congr (h : t.cores = s.cores) (n : Nat) : t.core n = s.core n := by rw [State.core, h, State.core]

theorem State.link_congr (h : t.links = s.links) (l : Nat) : t.link l = s.link l := by rw [State.link, h, State.link]

theorem State.ov_congr (h : t.obj = s.obj) (id : Nat) : t.ov id = s.ov id := by rw [State.ov, h, State.ov]

theorem State.age_congr (h : t.ageing = s.ageing) (u : Nat) : t.age u = s.age u := by rw [State.age, h, State.age]

theorem State.page_congr (h : t.host = s.host) (c : Nat) : t.page c = s.page c := by rw [State.page, h, State.page]

theorem State.dieList_congr (h : t.sched = s.sched) (d : Nat) : t.dieList d = s.dieList d := by
  rw [State.dieList, h, State.dieList]

theorem State.planMv_congr (h : t.ageing = s.ageing) (u p : Nat) : t.planMv u p = s.planMv u p := by
  rw [State.planMv, State.age_congr h, State.planMv]

end

/-! Operations on one record after the other. -/

/-- An operation that acts on the record of one number alone: what it makes of that record rests on no other record. `get` reads
a record and `ok` says that their table is canonical. -/
structure Recordwise {α : Type} (ok : State → Prop) (get : State → Nat → α) (op : State → Nat → State)
    (new : State → Nat → α) : Prop where
  keeps : ∀ {s} d, ok s → ok (op s d)
  self : ∀ {s} d, ok s → get (op s d) d = new s d
  other : ∀ {s d e}, ok s → e ≠ d → get (op s d) e = get s e
  stable : ∀ {s d e}, ok s → e ≠ d → new (op s d) e = new s e

section
variable {α : Type} {ok : State → Prop} {get : State → Nat → α} {op : State → Nat → State} {new : State → Nat → α}
  (h : Recordwise ok get op new) (ds : List Nat)
include h

theorem Recordwise.ok_foldl {s : State} (hs : ok s) : ok (ds.foldl op s) := by
  induction ds generalizing s with
  | nil => exact hs
  | cons d ds ih => exact ih (h.keeps d hs)

theorem Recordwise.get_foldl_of_not_mem {s : State} (hs : ok s) {e : Nat} (he : e ∉ ds) : get (ds.foldl op s) e = get s e := by
  induction ds generalizing s with
  | nil => rfl
  | cons d ds ih =>
    rw [List.mem_cons, not_or] at he
    exact (ih (h.keeps d hs) he.2).trans (h.other hs he.1)

/-- A fold over some numbers, each at most once, acts on each of their records as on the records at the start. -/
theorem Recordwise.get_foldl {s : State} (hs : ok s) (hds : ds.Nodup) {e : Nat} (he : e ∈ ds) :
    get (ds.foldl op s) e = new s e := by
  induction ds generalizing s with
  | nil => cases he
  | cons d ds ih =>
    rw [List.nodup_cons] at hds
    by_cases hed : e = d
    · subst hed
      exact (h.get_foldl_of_not_mem ds (h.keeps e hs) hds.1).trans (h.self e hs)
    · exact (ih (h.keeps d hs) hds.2 ((List.mem_cons.mp he).resolve_left hed)).trans (h.stable hs hed)

end

/-- The dies of a state whose table of dies is canonical. -/
def DiesOk (s : State) : Prop := twf .init s.kettle.dies = true

theorem mem_allDies {d : Nat} : d ∈ allDies ↔ d < 4 := List.mem_range

theorem nodup_allDies : allDies.Nodup := List.nodup_range

/-- A change of each die by itself, which rests on no other die. -/
theorem Recordwise.modDie {f : State → Nat → Die → Die}
    (hf : ∀ {s d e} x, DiesOk s → e ≠ d → f (s.setDie d x) e = f s e) :
    Recordwise DiesOk State.die (fun s d => s.modDie d (f s d)) (fun s d => f s d (s.die d)) where
  keeps _ h := twf_tset _ _ _ h
  self d h := by rw [State.modDie_eq, State.die_setDie h, if_pos rfl]
  other h he := by rw [State.modDie_eq, State.die_setDie h, if_neg he]
  stable h he := by rw [State.modDie_eq, State.die_setDie h, if_neg he, hf _ h he]

end Sys2Proof.Machine
end

