-- ==== Sys2Proof/Proofs/OperatingPoints.lean ====
section
/-!
PROOF. Operating points and droop (R364, R376): what the operations of the kettle on one die's record leave of it.
-/

namespace Sys2Proof.Machine

/-! What reads a die's record is kept by what notes the kettle's other fields. -/

theorem State.die_noteFloor (s : State) (d : Nat) : s.noteFloor.die d = s.die d := by
  unfold State.noteFloor
  split
  · rfl
  · split <;> rfl

/-! A change of point (R364). -/

/-- A die runs at point `p` with its voltage. -/
def Die.arrived (x : Die) (p mv : Nat) : Die := { x with point := p, target := none, clock := p, mv := mv }

theorem State.die_opChange {s : State} (h : DiesOk s) {d p : Nat} (ht : (s.die d).target = some p) (e : Nat) :
    (s.opChange d).die e = if e = d then (s.die d).arrived p (s.planMv d p) else s.die e := by
  unfold State.opChange
  simp only [ht]
  rw [State.die_noteFloor]
  exact State.die_setDie h d e _

/-! The droop limit (R376). -/

/-- Above 5 % of the cycles of 100 µs stretched, a die has the droop limit. -/
def Die.droopTested (x : Die) (clk : Nat) : Die :=
  if pointMHz x.clock * 100 - x.stretchedNow clk < 20 * x.stretchedNow clk then
    { x with droop := some (x.point - 1, clk + 1000000) } else x

theorem Die.stretching_droopTested (x : Die) (clk : Nat) : (x.droopTested clk).stretching = x.stretching := by
  unfold Die.droopTested
  split <;> rfl

theorem State.die_droopTest {s : State} (h : DiesOk s) (d e : Nat) :
    (s.droopTest d).die e = if e = d then (s.die d).droopTested s.clk else s.die e := by
  unfold State.droopTest Die.droopTested
  dsimp only
  split
  · exact State.die_setDie h d e _
  · split
    case isTrue he => rw [he]
    case isFalse => rfl

theorem State.droopSeen_droopTest (s : State) (d : Nat) : (s.droopTest d).kettle.droopSeen = s.kettle.droopSeen := by
  unfold State.droopTest
  dsimp only
  split <;> rfl

/-- A stretch begins. -/
def Die.stretchBegun (x : Die) (clk : Nat) : Die := { x with stretching := some clk }

/-- A stretch that begins now has stretched no cycle. -/
theorem Die.droopTested_stretchBegun {x : Die} (h : x.stretched = []) (clk : Nat) :
    (x.stretchBegun clk).droopTested clk = x.stretchBegun clk := by
  have hn : (x.stretchBegun clk).stretchedNow clk = 0 := by simp [Die.stretchedNow, Die.stretchBegun, h]
  rw [Die.droopTested, hn, if_neg (Nat.not_lt_zero _)]

/-- No droop limit is in force. -/
def Die.droopEnded (x : Die) : Die := { x with droop := none }

theorem Die.droopTested_droopEnded (x : Die) (clk : Nat) :
    x.droopEnded.droopTested clk =
      { x with
        droop := if pointMHz x.clock * 100 - x.stretchedNow clk < 20 * x.stretchedNow clk
          then some (x.point - 1, clk + 1000000) else none } := by
  unfold Die.droopTested
  split
  case isTrue h => exact congrArg (fun o => { x with droop := o }) (if_pos h).symm
  case isFalse h => exact congrArg (fun o => { x with droop := o }) (if_neg h).symm

/-- The die's record once a stretch of `n` cycles has ended. -/
def Die.stretchEnded (x : Die) (clk n : Nat) : Die :=
  { x with
    stretching := none
    stretched := (x.stretched.filter (fun p => decide (clk < p.1 + 100000))) ++ [(clk, n)] }

theorem Die.le_stretchedNow_stretchEnded (x : Die) (clk n : Nat) : n ≤ (x.stretchEnded clk n).stretchedNow clk := by
  simp [Die.stretchedNow, Die.stretchEnded]

theorem Die.stretchedNow_stretchEnded {x : Die} (h : x.stretched = []) (clk n : Nat) :
    (x.stretchEnded clk n).stretchedNow clk = n := by
  simp [Die.stretchedNow, Die.stretchEnded, h]

theorem Die.droop_stretchEnded_of_above {x : Die} {clk n : Nat} (h : pointMHz x.clock * 100 < 21 * n) :
    ((x.stretchEnded clk n).droopTested clk).droop = some (x.point - 1, clk + 1000000) := by
  have hn := x.le_stretchedNow_stretchEnded clk n
  have hc : (x.stretchEnded clk n).clock = x.clock := rfl
  rw [Die.droopTested, if_pos (by rw [hc]; omega)]
  rfl

theorem Die.droop_stretchEnded_of_below {x : Die} {clk n : Nat} (h : 21 * n ≤ pointMHz x.clock * 100)
    (hs : x.stretched = []) : ((x.stretchEnded clk n).droopTested clk).droop = x.droop := by
  have hc : (x.stretchEnded clk n).clock = x.clock := rfl
  rw [Die.droopTested, if_neg (by rw [Die.stretchedNow_stretchEnded hs, hc]; omega)]
  rfl

/-! The droop commands. -/

/-- The state in which DROOP_DETECT makes its test. -/
def State.stretchBegun (s : State) (d : Nat) : State :=
  let s := s.setDie d ((s.die d).stretchBegun s.clk)
  (s.setKettle { s.kettle with droopSeen := true }).bump (droopCountId + d)

theorem State.die_stretchBegun {s : State} (h : DiesOk s) (d e : Nat) :
    (s.stretchBegun d).die e = if e = d then (s.die d).stretchBegun s.clk else s.die e :=
  State.die_setDie h d e _

theorem State.droopCount_stretchBegun {s : State} (h : keysFrom none s.obj.vals = true) (d : Nat) :
    (s.stretchBegun d).ov (droopCountId + d) = min (s.ov (droopCountId + d) + 1) (2 ^ 32 - 1) := by
  rw [Nat.add_comm (s.ov _) 1]
  exact (State.ov_setOv h _ _ _).trans (if_pos rfl)

section
variable {s : State} {d v : Nat}

theorem exec_droopDetect_below (hd : d < 4) (hr : s.power.rails = true) (hs : (s.die d).stretching = none)
    (hv : v < s.planMv d (s.die d).point - s.ov droopMarginId) :
    exec (.droopDetect ⟨d, v⟩) s = .next ((s.stretchBegun d).droopTest d) :=
  (need_of (decide_eq_true hd) _).trans (congrArg _ (if_pos ⟨hr, hs, hv⟩))

theorem exec_droopDetect_above (hd : d < 4) (hv : s.planMv d (s.die d).point - s.ov droopMarginId ≤ v) :
    exec (.droopDetect ⟨d, v⟩) s = .next s :=
  (need_of (decide_eq_true hd) _).trans (congrArg _ (if_neg fun h => absurd h.2.2 (Nat.not_lt.mpr hv)))

theorem exec_droopStretchEnd_ends {n : Nat} (hd : d < 4) (hs : (s.die d).stretching.isSome = true) (hn : 32 ≤ n)
    (hv : s.planMv d (s.die d).point - s.ov droopMarginId + 10 ≤ v) :
    exec (.droopStretchEnd ⟨d, v⟩ n) s = .next ((s.setDie d ((s.die d).stretchEnded s.clk n)).droopTest d) :=
  (need_of (decide_eq_true hd) _).trans (congrArg _ (if_pos ⟨hs, hn, hv⟩))

theorem exec_droopStretchEnd_goes_on {n : Nat} (hd : d < 4)
    (h : n < 32 ∨ v < s.planMv d (s.die d).point - s.ov droopMarginId + 10) :
    exec (.droopStretchEnd ⟨d, v⟩ n) s = .next s :=
  (need_of (decide_eq_true hd) _).trans (congrArg _ (if_neg fun ⟨_, hn, hv⟩ =>
    h.elim (Nat.not_lt.mpr hn) (Nat.not_lt.mpr hv)))

theorem exec_droopLimitExpiry_due {p a : Nat} (hd : d < 4) (hp : (s.die d).droop = some (p, a)) (ha : a ≤ s.clk) :
    exec (.droopLimitExpiry d) s = .next ((s.setDie d (s.die d).droopEnded).droopTest d) := by
  refine (need_of (decide_eq_true hd) _).trans (congrArg _ ?_)
  rw [State.droopExpiry, hp]
  exact if_pos ha

end

/-- Settles O9: each command writes the record of one die, and the droop test writes it again where it sets the limit. -/
theorem operatingPointAndDroop : Obligations.OperatingPointAndDroop := by
  intro s d hw hd
  have hdies : DiesOk s := State.twf_dies hw
  have hobj := State.keysFrom_vals hw
  refine ⟨fun p hp => ?_, fun v hr hs hv => ?_, fun v hv => exec_droopDetect_above hd hv, fun v n hs hn hv => ?_,
    fun v n h => exec_droopStretchEnd_goes_on hd h, fun p a hp ha => ?_⟩
  · have hdie := State.die_opChange hdies hp
    have hexec : exec (.opChangeDone d) s = .next (s.opChange d) := need_of (decide_eq_true hd) _
    refine ⟨_, hexec, ?_, ?_, ?_, ?_, fun e he => ?_, (State.opChange_runs ..).frame⟩
    · rw [hdie, if_pos rfl]; rfl
    · rw [hdie, if_pos rfl]; rfl
    · rw [hdie, if_pos rfl]; rfl
    · rw [hdie, if_pos rfl]; rfl
    · rw [hdie, if_neg he]
  · have hbegun := State.die_stretchBegun hdies d
    have hok : DiesOk (s.stretchBegun d) := twf_tset _ _ _ hdies
    have hexec := exec_droopDetect_below hd hr hs hv
    refine ⟨_, hexec, ?_, fun hst => ?_, State.droopSeen_droopTest .., ?_, fun e he => ?_,
      (execDroopDetect_runs _ s _ hexec).frame⟩
    · rw [State.die_droopTest hok, if_pos rfl, Die.stretching_droopTested, hbegun, if_pos rfl]
      rfl
    · rw [State.die_droopTest hok, if_pos rfl, hbegun, if_pos rfl]
      exact Die.droopTested_stretchBegun hst s.clk
    · rw [State.ov_congr ((State.droopTest_runs ..).same .obj rfl), State.droopCount_stretchBegun hobj]
    · rw [State.die_droopTest hok, if_neg he, hbegun, if_neg he]
  · have hok : DiesOk (s.setDie d ((s.die d).stretchEnded s.clk n)) := twf_tset _ _ _ hdies
    have hended := State.die_setDie hdies d
    have hexec := exec_droopStretchEnd_ends hd hs hn hv
    refine ⟨_, hexec, ?_, fun h => ?_, fun h hst => ?_, fun e he => ?_, (execDroopStretchEnd_runs _ _ s _ hexec).frame⟩
    · rw [State.die_droopTest hok, if_pos rfl, Die.stretching_droopTested, hended, if_pos rfl]
      rfl
    · rw [State.die_droopTest hok, if_pos rfl, hended, if_pos rfl]
      exact Die.droop_stretchEnded_of_above h
    · rw [State.die_droopTest hok, if_pos rfl, hended, if_pos rfl]
      exact Die.droop_stretchEnded_of_below h hst
    · rw [State.die_droopTest hok, if_neg he, hended, if_neg he]
  · have hok : DiesOk (s.setDie d (s.die d).droopEnded) := twf_tset _ _ _ hdies
    have hexec := exec_droopLimitExpiry_due hd hp ha
    refine ⟨_, hexec, ?_, fun e he => ?_, (execDroopLimitExpiry_runs _ s _ hexec).frame⟩
    · rw [State.die_droopTest hok, if_pos rfl, State.die_setDie hdies, if_pos rfl]
      exact Die.droopTested_droopEnded ..
    · rw [State.die_droopTest hok, if_neg he, State.die_setDie hdies, if_neg he]

end Sys2Proof.Machine
end

