-- ==== Sys2Proof/Proofs/KettleLoop.lean ====
section
/-!
PROOF. The kettle's control (R361 to R381): what retargeting makes of a die's record, the brake, forced idle, pace probes and the
control tick.
-/

namespace Sys2Proof.Machine

/-! What an operation keeps of the dies' records, and of the kettle's other fields. -/

/-- Where the table of dies is canonical, an operation keeps it so, and what `f` reads of a die's record is as it was; and what
`g` reads of the kettle is as it was. -/
structure KettleKept {β γ : Type} (f : Die → β) (g : Kettle → γ) (s t : State) : Prop where
  canonical : DiesOk s → DiesOk t
  die : DiesOk s → ∀ d, f (t.die d) = f (s.die d)
  rest : g t.kettle = g s.kettle

/-- Nothing of a record or of the kettle is read. -/
def unread {α : Type} (_ : α) : Unit := ()

section
variable {β γ : Type} {f : Die → β} {g : Kettle → γ}

theorem KettleKept.refl (s : State) : KettleKept f g s s := ⟨id, fun _ _ => rfl, rfl⟩

/-- An operation after what came before it. -/
theorem KettleKept.comp {s t u : State} (k : KettleKept f g t u) (h : KettleKept f g s t) : KettleKept f g s u :=
  ⟨fun w => k.canonical (h.canonical w), fun w d => (k.die (h.canonical w) d).trans (h.die w d), k.rest.trans h.rest⟩

theorem KettleKept.ite {c : Prop} [Decidable c] {s t u : State} (h : c → KettleKept f g s t) (k : ¬c → KettleKept f g s u) :
    KettleKept f g s (if c then t else u) := by
  split
  · exact h ‹_›
  · exact k ‹_›

/-- An operation that leaves the kettle alone. -/
theorem KettleKept.of_kettle {s t : State} (h : t.kettle = s.kettle) : KettleKept f g s t :=
  ⟨fun w => by rwa [DiesOk, h], fun _ d => by rw [State.die_congr h], congrArg g h⟩

theorem KettleKept.setKettle {s : State} {k : Kettle} (h : k.dies = s.kettle.dies) (hg : g k = g s.kettle) :
    KettleKept f g s (s.setKettle k) :=
  ⟨fun w => by rwa [DiesOk, State.setKettle_kettle, h], fun _ d => by rw [State.die, State.setKettle_kettle, h, State.die], hg⟩

theorem KettleKept.setDie {s : State} {d : Nat} {x : Die} (h : f x = f (s.die d))
    (hg : ∀ k t, g { k with dies := t } = g k) : KettleKept f g s (s.setDie d x) := by
  refine ⟨twf_tset _ d x, fun w e => ?_, hg s.kettle _⟩
  rw [State.die_setDie w]
  split
  case isTrue he => rw [he, h]
  case isFalse => rfl

theorem KettleKept.modDie {s : State} {d : Nat} {m : Die → Die} (h : ∀ x, f (m x) = f x)
    (hg : ∀ k t, g { k with dies := t } = g k) : KettleKept f g s (s.modDie d m) := .setDie (h _) hg

theorem KettleKept.foldl {α : Type} {m : State → α → State} (hm : ∀ s x, KettleKept f g s (m s x)) (xs : List α) (s : State) :
    KettleKept f g s (xs.foldl m s) := by
  induction xs generalizing s with
  | nil => exact .refl s
  | cons x xs ih => exact .comp (ih _) (hm s x)

theorem KettleKept.noteFloor (hg : ∀ k x, g { k with floorAt := x } = g k) (s : State) : KettleKept f g s s.noteFloor := by
  unfold State.noteFloor
  exact .ite (fun _ => .setKettle rfl (hg ..)) fun _ => .ite (fun _ => .refl s) fun _ => .setKettle rfl (hg ..)

end

/-! Retargeting (R364, R365, R368, R378). -/

/-- The point that a die goes to: the floor under the brake, else the least of its limits. -/
def State.goal (s : State) (d : Nat) : Nat := if s.kettle.brake then 0 else leastOf 15 (s.limits d)

/-- The code of the limit that decides. -/
def State.decider (s : State) (d : Nat) : Nat :=
  if s.kettle.brake then 5 else (findIdx (· == leastOf 15 (s.limits d)) (s.limits d)).getD 0

/-- A die's record with the limit that decides and its engine state. -/
def Die.decided (x : Die) (limit : Nat) (eng : Eng) : Die := { x with limit := limit, eng := eng }

/-- What retargeting makes of a die's record. -/
def State.retargeted (s : State) (d : Nat) : Die := (s.head d (s.goal d) (s.die d)).decided (s.decider d) (s.wantEng d)

theorem State.kettle_assign (s : State) (n : Nat) : (s.assign n).kettle = s.kettle := (State.assign_runs n s).same .kettle rfl

theorem State.dies_assigned (s : State) (ns : List Nat) : (ns.foldl (fun s n => s.assign n) s).kettle = s.kettle := by
  induction ns generalizing s with
  | nil => rfl
  | cons n ns ih => exact (ih _).trans (State.kettle_assign s n)

/-- A die's record with its engine state. -/
def Die.running (x : Die) (eng : Eng) : Die := { x with eng := eng }

theorem State.kettle_setEng (s : State) (d : Nat) :
    (s.setEng d).kettle = (s.setDie d ((s.die d).running (s.wantEng d))).kettle ∨
      (s.setEng d).kettle = s.kettle ∧ s.wantEng d = (s.die d).eng := by
  unfold State.setEng
  dsimp only
  split
  case isTrue h => exact .inr ⟨rfl, h⟩
  case isFalse => exact .inl (State.dies_assigned ..)

theorem State.die_setEng {s : State} (h : DiesOk s) (d e : Nat) :
    (s.setEng d).die e = if e = d then (s.die d).running (s.wantEng d) else s.die e := by
  rcases s.kettle_setEng d with hk | ⟨hk, heng⟩
  · rw [State.die_congr hk, State.die_setDie h]
  · rw [State.die_congr hk]
    split
    case isTrue he => rw [he, heng]; rfl
    case isFalse => rfl

theorem State.diesOk_setEng {s : State} (h : DiesOk s) (d : Nat) : DiesOk (s.setEng d) := by
  rcases s.kettle_setEng d with hk | ⟨hk, -⟩
  · rw [DiesOk, hk]; exact twf_tset _ _ _ h
  · rwa [DiesOk, hk]

theorem State.rest_setEng {γ : Type} {g : Kettle → γ} (hg : ∀ k t, g { k with dies := t } = g k) (s : State) (d : Nat) :
    g (s.setEng d).kettle = g s.kettle := by
  rcases s.kettle_setEng d with hk | ⟨hk, -⟩
  · exact (congrArg g hk).trans (hg _ _)
  · exact congrArg g hk

/-- A die's record with the limit that decides. -/
def Die.limited (x : Die) (limit : Nat) : Die := { x with limit := limit }

/-- The state in which retargeting sets the engine state. -/
def State.headed (s : State) (d : Nat) : State := s.setDie d ((s.head d (s.goal d) (s.die d)).limited (s.decider d))

theorem State.retarget_eq (s : State) (d : Nat) : s.retarget d = (s.headed d).setEng d := rfl

theorem State.die_headed {s : State} (h : DiesOk s) (d e : Nat) :
    (s.headed d).die e = if e = d then (s.head d (s.goal d) (s.die d)).limited (s.decider d) else s.die e :=
  State.die_setDie h d e _

theorem State.wantEng_headed {s : State} (h : DiesOk s) (d : Nat) : (s.headed d).wantEng d = s.wantEng d := by
  rw [State.wantEng, State.die_headed h, if_pos rfl, State.wantEng]
  rfl

theorem State.die_retarget {s : State} (h : DiesOk s) (d e : Nat) :
    (s.retarget d).die e = if e = d then s.retargeted d else s.die e := by
  have hok : DiesOk (s.headed d) := twf_tset _ _ _ h
  rw [State.retarget_eq, State.die_setEng hok, State.wantEng_headed h]
  split
  case isTrue he => rw [State.die_headed h, if_pos rfl]; rfl
  case isFalse he => rw [State.die_headed h, if_neg he]

theorem State.diesOk_retarget {s : State} (h : DiesOk s) (d : Nat) : DiesOk (s.retarget d) :=
  State.diesOk_setEng (s := s.headed d) (twf_tset _ _ _ h) d

theorem KettleKept.retarget {β γ : Type} {f : Die → β} {g : Kettle → γ}
    (hf : ∀ (s : State) d t x limit eng, f ((s.head d t x).decided limit eng) = f x)
    (hg : ∀ k t, g { k with dies := t } = g k) (s : State) (d : Nat) : KettleKept f g s (s.retarget d) where
  canonical h := State.diesOk_retarget h d
  die h e := by
    rw [State.die_retarget h]
    split
    case isTrue he => rw [he, State.retargeted, hf]
    case isFalse => rfl
  rest := (State.rest_setEng hg (s.headed d) d).trans (hg s.kettle _)

/-! What the limits of a die rest on. -/

section
variable {s t : State} {d : Nat} (hage : t.ageing = s.ageing) (hobj : t.obj = s.obj)
include hage hobj

theorem State.opMax_congr : t.opMax d = s.opMax d := by
  have hplanned : t.planned d = s.planned d := by
    funext p
    rw [State.planned, State.age_congr hage, State.planned]
  rw [State.opMax, hplanned, State.ov_congr hobj, State.opMax]

theorem State.limits_congr (hdie : t.die d = s.die d) : t.limits d = s.limits d := by
  rw [State.limits, State.droopLimit, State.opMax_congr hage hobj, hdie, State.limits, State.droopLimit]

theorem State.retargeted_congr (hdie : t.die d = s.die d) (hb : t.kettle.brake = s.kettle.brake) :
    t.retargeted d = s.retargeted d := by
  have hgoal : t.goal d = s.goal d := by rw [State.goal, State.limits_congr hage hobj hdie, hb, State.goal]
  have hdecider : t.decider d = s.decider d := by
    rw [State.decider, State.limits_congr hage hobj hdie, hb, State.decider]
  have heng : t.wantEng d = s.wantEng d := by rw [State.wantEng, hdie, hb, State.wantEng]
  have hhead : ∀ p x, t.head d p x = s.head d p x := fun p x => by
    unfold State.head
    rw [State.planMv_congr hage]
  rw [State.retargeted, hgoal, hdecider, heng, hhead, hdie, State.retargeted]

end

theorem State.brake_retarget (s : State) (d : Nat) : (s.retarget d).kettle.brake = s.kettle.brake :=
  (KettleKept.retarget (f := unread) (g := (·.brake)) (fun _ _ _ _ _ _ => rfl) (fun _ _ => rfl) s d).rest

theorem Recordwise.retarget : Recordwise DiesOk State.die State.retarget State.retargeted where
  keeps d h := State.diesOk_retarget h d
  self d h := (State.die_retarget h d d).trans (if_pos rfl)
  other h he := (State.die_retarget h _ _).trans (if_neg he)
  stable {s d e} h he :=
    State.retargeted_congr ((State.retarget_runs s d).same .ageing rfl) ((State.retarget_runs s d).same .obj rfl)
      ((State.die_retarget h d e).trans (if_neg he)) (State.brake_retarget s d)

theorem State.die_retargetAll {s : State} (h : DiesOk s) {d : Nat} (hd : d < 4) : s.retargetAll.die d = s.retargeted d :=
  Recordwise.retarget.get_foldl allDies h nodup_allDies (mem_allDies.mpr hd)

theorem KettleKept.retargetAll {β γ : Type} {f : Die → β} {g : Kettle → γ}
    (hf : ∀ (s : State) d t x limit eng, f ((s.head d t x).decided limit eng) = f x)
    (hg : ∀ k t, g { k with dies := t } = g k) (s : State) : KettleKept f g s s.retargetAll :=
  .foldl (KettleKept.retarget hf hg) allDies s

theorem State.brake_retargetAll (s : State) : s.retargetAll.kettle.brake = s.kettle.brake :=
  (KettleKept.retargetAll (f := unread) (g := (·.brake)) (fun _ _ _ _ _ _ => rfl) (fun _ _ => rfl) s).rest

/-! What a die that sets out for a point keeps and changes (R364). -/

section
variable (s : State) (d t : Nat) (x : Die) (limit : Nat) (eng : Eng)

@[simp] theorem State.point_decided : ((s.head d t x).decided limit eng).point = x.point := rfl
@[simp] theorem State.q_decided : ((s.head d t x).decided limit eng).q = x.q := rfl
@[simp] theorem State.bstate_decided : ((s.head d t x).decided limit eng).bstate = x.bstate := rfl
@[simp] theorem State.budget_decided : ((s.head d t x).decided limit eng).budget = x.budget := rfl
@[simp] theorem State.budEng_decided : ((s.head d t x).decided limit eng).budEng = x.budEng := rfl
@[simp] theorem State.budQ_decided : ((s.head d t x).decided limit eng).budQ = x.budQ := rfl
@[simp] theorem State.eng_decided : ((s.head d t x).decided limit eng).eng = eng := rfl
@[simp] theorem State.limit_decided : ((s.head d t x).decided limit eng).limit = limit := rfl
@[simp] theorem State.clock_decided : ((s.head d t x).decided limit eng).clock = min x.clock t := rfl
@[simp] theorem State.mv_decided : ((s.head d t x).decided limit eng).mv = max x.mv (s.planMv d t) := rfl
@[simp] theorem State.target_decided : ((s.head d t x).decided limit eng).target =
    if t = x.point ∧ min x.clock t = t ∧ max x.mv (s.planMv d t) = s.planMv d t then none else some t := rfl

end

/-! The brake (R378). -/

/-- A die's record as the brake puts it at the floor. -/
def Die.braked (x : Die) (clk : Nat) : Die :=
  { x with q := 7, bstate := 2, bstateAt := if x.bstate = 2 then x.bstateAt else clk }

/-- A die's record as the release of the brake leaves its budget limit. -/
def Die.released (x : Die) (clk : Nat) : Die :=
  { x with budget := 0, budEng := .denseOnly, budQ := 7, budQNext := 7, changeAt := clk }

/-- The brake's pin and hold, and the fabric time at which its frame begins. -/
def State.brakeSet (s : State) (hold : Bool) (frameAt : Nat) : State :=
  (s.setPins { s.pins with brake := hold }).setKettle { s.kettle with brake := hold, frameAt := frameAt }

theorem Recordwise.braked :
    Recordwise DiesOk State.die (fun s d => s.modDie d (·.braked s.clk)) (fun s d => (s.die d).braked s.clk) :=
  .modDie (f := fun s _ x => x.braked s.clk) fun _ _ _ => rfl

theorem Recordwise.released :
    Recordwise DiesOk State.die (fun s d => s.modDie d (·.released s.clk)) (fun s d => (s.die d).released s.clk) :=
  .modDie (f := fun s _ x => x.released s.clk) fun _ _ _ => rfl

/-- The state in which POWER_BRAKE_ASSERT retargets the dies. -/
def State.braking (s : State) : State :=
  allDies.foldl (fun s d => s.modDie d (·.braked s.clk)) (s.brakeSet true (s.ftRead hubPs))

/-- The state in which POWER_BRAKE_DEASSERT retargets the dies. -/
def State.releasing (s : State) : State :=
  allDies.foldl (fun s d => s.modDie d (·.released s.clk)) (s.brakeSet false s.kettle.frameAt)

theorem State.brakeOn_eq {s : State} (hr : s.power.rails = true) (hb : s.kettle.brake = false) :
    s.brakeOn = s.braking.retargetAll := by
  unfold State.brakeOn
  exact if_neg (by simp [hr, hb])

theorem State.brakeOff_eq {s : State} (hb : s.kettle.brake = true) : s.brakeOff = s.releasing.retargetAll := by
  unfold State.brakeOff
  exact if_pos hb

section
variable {s : State} (h : DiesOk s)
include h

theorem State.die_braking {d : Nat} (hd : d < 4) : s.braking.die d = (s.die d).braked s.clk :=
  Recordwise.braked.get_foldl (s := s.brakeSet true _) allDies h nodup_allDies (mem_allDies.mpr hd)

theorem State.diesOk_braking : DiesOk s.braking := Recordwise.braked.ok_foldl (s := s.brakeSet true _) allDies h

theorem State.die_releasing {d : Nat} (hd : d < 4) : s.releasing.die d = (s.die d).released s.clk :=
  Recordwise.released.get_foldl (s := s.brakeSet false _) allDies h nodup_allDies (mem_allDies.mpr hd)

theorem State.diesOk_releasing : DiesOk s.releasing := Recordwise.released.ok_foldl (s := s.brakeSet false _) allDies h

end

theorem State.braking_runs (s : State) : Runs [.pins, .kettle] s s.braking :=
  .foldl (fun _ _ => (State.modDie_runs ..).mono rfl) _
    (.comp (State.setKettle_runs _ _ fun h => h) rfl ((State.setPins_runs ..).mono rfl))

theorem State.releasing_runs (s : State) : Runs [.pins, .kettle] s s.releasing :=
  .foldl (fun _ _ => (State.modDie_runs ..).mono rfl) _
    (.comp (State.setKettle_runs _ _ fun h => h) rfl ((State.setPins_runs ..).mono rfl))

section
variable {γ : Type} {g : Kettle → γ} (hg : ∀ k t, g { k with dies := t } = g k) (s : State)
include hg

theorem KettleKept.braking : KettleKept unread g (s.brakeSet true (s.ftRead hubPs)) s.braking := by
  unfold State.braking
  refine .foldl (fun s d => ?_) _ _
  exact .modDie (fun _ => rfl) hg

theorem KettleKept.releasing : KettleKept unread g (s.brakeSet false s.kettle.frameAt) s.releasing := by
  unfold State.releasing
  refine .foldl (fun s d => ?_) _ _
  exact .modDie (fun _ => rfl) hg

end

theorem State.brake_braking (s : State) : s.braking.kettle.brake = true :=
  (KettleKept.braking (g := (·.brake)) (fun _ _ => rfl) s).rest

theorem State.brake_releasing (s : State) : s.releasing.kettle.brake = false :=
  (KettleKept.releasing (g := (·.brake)) (fun _ _ => rfl) s).rest

/-- Under the brake a die heads for point 0 at its voltage there. -/
theorem State.retargeted_of_brake {s : State} (hb : s.kettle.brake = true) (d : Nat) :
    s.retargeted d = (s.head d 0 (s.die d)).decided 5 .denseOnly := by
  rw [State.retargeted, State.goal, State.decider, State.wantEng, if_pos hb, if_pos hb, if_pos hb]

theorem State.pins_braking (s : State) : s.braking.pins.brake = true :=
  congrArg Pins.brake ((Runs.foldl (L := [.kettle]) (fun _ _ => State.modDie_runs ..) _ (.refl (s.brakeSet true _))).same .pins rfl)

theorem State.pins_releasing (s : State) : s.releasing.pins.brake = false :=
  congrArg Pins.brake ((Runs.foldl (L := [.kettle]) (fun _ _ => State.modDie_runs ..) _ (.refl (s.brakeSet false _))).same .pins rfl)

theorem State.pins_retargetAll (s : State) : s.retargetAll.pins = s.pins := (State.retargetAll_runs s).same .pins rfl

theorem exec_powerBrakeAssert (s : State) : exec .powerBrakeAssert s = .next s.brakeOn := rfl

theorem exec_powerBrakeDeassert (s : State) : exec .powerBrakeDeassert s = .next s.brakeOff := rfl

/-- Settles O10: the dies' records before the retargeting, and what it makes of them with the brake held and released. -/
theorem powerBrakeHoldsTheFloor : Obligations.PowerBrakeHoldsTheFloor := by
  intro s hw
  have hdies : DiesOk s := State.twf_dies hw
  refine ⟨fun hr hb => ⟨s.braking.retargetAll, ?_, ?_, ?_, fun d hd => ?_, ?_⟩,
    fun hb => ⟨s.releasing.retargetAll, ?_, ?_, ?_, fun d hd => ?_, ?_⟩⟩
  · rw [exec_powerBrakeAssert, State.brakeOn_eq hr hb]
  · rw [State.pins_retargetAll, State.pins_braking]
  · rw [State.brake_retargetAll, State.brake_braking]
  · have hplan : s.braking.planMv d 0 = s.planMv d 0 := State.planMv_congr (s.braking_runs.same .ageing rfl) d 0
    rw [State.die_retargetAll (State.diesOk_braking hdies) hd, State.retargeted_of_brake s.brake_braking,
      State.die_braking hdies hd]
    simp [Die.braked, hplan, eq_comm (a := 0)]
  · exact (Runs.comp (State.retargetAll_runs _) rfl (s.braking_runs.mono rfl)).frame
  · rw [exec_powerBrakeDeassert, State.brakeOff_eq hb]
  · rw [State.pins_retargetAll, State.pins_releasing]
  · rw [State.brake_retargetAll, State.brake_releasing]
  · rw [State.die_retargetAll (State.diesOk_releasing hdies) hd, State.retargeted, State.die_releasing hdies hd]
    simp [Die.released]
  · exact (Runs.comp (State.retargetAll_runs _) rfl (s.releasing_runs.mono rfl)).frame

end Sys2Proof.Machine
end

