-- ==== Sys2Proof/Proofs/ForcedIdle.lean ====
section
/-!
PROOF. Forced idle and pace probes (R118, R370, R374), and the control tick (R361 to R365, R381).
-/

namespace Sys2Proof.Machine

/-! Forced idle (R118, R370). -/

/-- A die's record as a frame leaves it. -/
def Die.framed (x : Die) (clk : Nat) : Die :=
  { x with
    budQ := x.budQNext
    own := { x.own with q := x.own.qNext }
    hub := { x.hub with q := x.hub.qNext }
    q := max x.budQNext x.thermQNext
    changeAt := if x.budQNext = x.budQ then x.changeAt else clk }

theorem Recordwise.framed :
    Recordwise DiesOk State.die (fun s d => s.modDie d (·.framed s.clk)) (fun s d => (s.die d).framed s.clk) :=
  .modDie (f := fun s _ x => x.framed s.clk) fun _ _ _ => rfl

/-- The kettle as a frame begins: the partition's q is in force, and the frame's time is noted. -/
def State.frameBegun (s : State) : State :=
  let now := s.ftRead hubPs
  s.setKettle { s.kettle with
    frameAt := now - now % 80000
    evalQ := s.nextEvalQ
    evalLowAt := if s.nextEvalQ < s.kettle.evalQ then none else s.kettle.evalLowAt }

theorem KettleKept.framed {γ : Type} {g : Kettle → γ} (hg : ∀ k t, g { k with dies := t } = g k)
    (hf : ∀ k x, g { k with floorAt := x } = g k) (s : State) :
    KettleKept unread g s.frameBegun (allDies.foldl (fun s d => s.modDie d (·.framed s.clk)) s.frameBegun).noteFloor := by
  refine .comp (.noteFloor hf _) (.foldl (fun s d => ?_) _ _)
  exact .modDie (fun _ => rfl) hg

theorem State.idleFrame_eq {s : State} (hr : s.power.rails = true) (hb : s.kettle.brake = false) (ht : s.onTick 80000 = true) :
    s.idleFrame = (allDies.foldl (fun s d => s.modDie d (·.framed s.clk)) s.frameBegun).noteFloor :=
  if_neg (by simp [hr, hb, ht])

section
variable {s : State} {n : Nat} (hn : n < 256) (hr : s.power.rails = true)
include hn hr

theorem exec_forcedIdleQuantumStart (hi : s.idleSlot n = true) :
    exec (.forcedIdleQuantumStart n) s = .next (s.setCore n { s.core n with idleQ := true }) :=
  (need_of (decide_eq_true hn) _).trans ((powered_of hr _).trans (congrArg _ (if_pos hi)))

theorem exec_forcedIdleQuantumEnd :
    exec (.forcedIdleQuantumEnd n) s = .next (s.setCore n { s.core n with idleQ := false, wake := true }) :=
  (need_of (decide_eq_true hn) _).trans (powered_of hr _)

end

/-! Pace probes (R374). -/

/-- A die's record with its matched point. -/
def Die.paced (x : Die) (p : Option Nat) : Die := { x with matched := p }

theorem State.openPoint_setDie {s : State} (h : DiesOk s) {d e : Nat} (x : Die) (he : e ≠ d) :
    (s.setDie d x).openPoint e = s.openPoint e := by
  have hdie : (s.setDie d x).die e = s.die e := (State.die_setDie h d e x).trans (if_neg he)
  rw [State.openPoint, State.opMax_congr (State.setDie_ageing ..) (State.setDie_obj ..), State.droopLimit, hdie,
    State.openPoint, State.droopLimit]

theorem State.matchedPoint_setDie {s : State} (h : DiesOk s) {d e : Nat} (x : Die) (he : e ≠ d) :
    (s.setDie d x).matchedPoint e = s.matchedPoint e := by
  rw [State.matchedPoint, State.openPoint_setDie h x he]
  rfl

theorem Recordwise.rematched :
    Recordwise DiesOk State.die (fun s d => s.modDie d (·.paced (s.matchedPoint d)))
      (fun s d => (s.die d).paced (s.matchedPoint d)) :=
  .modDie (f := fun s d x => x.paced (s.matchedPoint d)) fun x h he => by rw [State.matchedPoint_setDie h x he]

theorem State.die_rematch {s : State} (h : DiesOk s) {d : Nat} (hd : d < 4) :
    s.rematch.die d = (s.die d).paced (s.matchedPoint d) :=
  Recordwise.rematched.get_foldl allDies h nodup_allDies (mem_allDies.mpr hd)

theorem KettleKept.rematch {β γ : Type} {f : Die → β} {g : Kettle → γ} (hf : ∀ x p, f (x.paced p) = f x)
    (hg : ∀ k t, g { k with dies := t } = g k) (s : State) : KettleKept f g s s.rematch := by
  unfold State.rematch
  refine .foldl (fun s d => ?_) _ _
  exact .modDie (fun x => hf x (s.matchedPoint d)) hg

theorem State.matchedPoint_of_probe {s : State} {b : Nat} (h : s.kettle.probe = some b) (d : Nat) : s.matchedPoint d = none := by
  rw [State.matchedPoint, h]

theorem State.matchedPoint_of_no_pace {s : State} (h : s.kettle.pm = none) (d : Nat) : s.matchedPoint d = none := by
  unfold State.matchedPoint
  rw [h]
  split
  case h_1 hpm => cases hpm
  case h_2 => rfl

/-- The kettle as a probe begins, and as one ends. -/
def State.probing (s : State) : State := s.setKettle { s.kettle with probe := some s.clk, probeMin := none }
def State.probed (s : State) : State :=
  s.setKettle { s.kettle with probe := none, pm := s.kettle.probeMin, probeMin := none }

theorem State.probeStart_eq {s : State} (hr : s.power.rails = true)
    (ht : s.onTick (bits (s.ov paceCfgId) 16 16 * 1000) = true) : s.probeStart = s.probing.rematch := if_pos ⟨hr, ht⟩

theorem State.probeEnd_eq {s : State} {b : Nat} (hb : s.kettle.probe = some b) (ht : b + 100000 ≤ s.clk) :
    s.probeEnd = s.probed.rematch := by
  unfold State.probeEnd
  rw [hb]
  exact if_pos ht

/-- Settles O11: a frame by the fold of `framed` over the dies, a quantum by one core's record, a probe by `rematch`. -/
theorem forcedIdleAndProbes : Obligations.ForcedIdleAndProbes := by
  intro s hw
  have hdies : DiesOk s := State.twf_dies hw
  have hcores := State.twf_cores hw
  refine ⟨fun hr hb ht => ?_, fun n hn hr hi => ?_, fun n hn hr => ?_, fun hr ht => ?_, fun b hb ht => ?_⟩
  · refine ⟨s.idleFrame, rfl, ?_, fun d hd => ?_, (State.idleFrame_runs s).frame⟩ <;> rw [State.idleFrame_eq hr hb ht]
    · exact (KettleKept.framed (g := (·.frameAt)) (fun _ _ => rfl) (fun _ _ => rfl) s).rest
    · rw [State.die_noteFloor,
        Recordwise.framed.get_foldl (s := s.frameBegun) allDies hdies nodup_allDies (mem_allDies.mpr hd)]
      exact ⟨rfl, rfl, rfl, rfl⟩
  · have hexec := exec_forcedIdleQuantumStart hn hr hi
    refine ⟨_, hexec, ?_, fun m hm => ?_, (State.setCore_runs ..).frame⟩
    · rw [State.core_setCore hcores, if_pos rfl]
    · rw [State.core_setCore hcores, if_neg hm]
  · have hexec := exec_forcedIdleQuantumEnd hn hr
    refine ⟨_, hexec, ?_, fun m hm => ?_, (State.setCore_runs ..).frame⟩
    · rw [State.core_setCore hcores, if_pos rfl]
    · rw [State.core_setCore hcores, if_neg hm]
  · refine ⟨s.probeStart, rfl, ?_, fun d hd => ?_, (State.probeStart_runs s).frame⟩ <;> rw [State.probeStart_eq hr ht]
    · exact (KettleKept.rematch (f := unread) (g := (·.probe)) (fun _ _ => rfl) (fun _ _ => rfl) s.probing).rest
    · rw [State.die_rematch (s := s.probing) hdies hd, State.matchedPoint_of_probe (s := s.probing) rfl]
      exact ⟨rfl, rfl⟩
  · refine ⟨s.probeEnd, rfl, ?_, ?_, fun hm d hd => ?_, (State.probeEnd_runs s).frame⟩ <;> rw [State.probeEnd_eq hb ht]
    · exact (KettleKept.rematch (f := unread) (g := (·.probe)) (fun _ _ => rfl) (fun _ _ => rfl) s.probed).rest
    · exact (KettleKept.rematch (f := unread) (g := (·.pm)) (fun _ _ => rfl) (fun _ _ => rfl) s.probed).rest
    · rw [State.die_rematch (s := s.probed) hdies hd, State.matchedPoint_of_no_pace (s := s.probed) hm]
      rfl

/-! The control tick (R361 to R365, R381). -/

/-- What retargeting reads of a die's course: its point, clock and voltage. -/
def Die.course (x : Die) : Nat × Nat × Nat := (x.point, x.clock, x.mv)

section
variable {γ : Type} {g : Kettle → γ} (hg : ∀ k t, g { k with dies := t } = g k) (s : State) (d : Nat)
include hg

theorem KettleKept.droopTest : KettleKept Die.course g s (s.droopTest d) := by
  unfold State.droopTest
  exact .ite (fun _ => .setDie rfl hg) fun _ => .refl s

theorem KettleKept.budgetState (e b : Rat) : KettleKept Die.course g s (s.budgetState d e b) := by
  unfold State.budgetState
  exact .ite (fun _ => .refl s) fun _ => .setDie rfl hg

theorem KettleKept.releaseLevel (e b : Rat) : KettleKept Die.course g s (s.releaseLevel d e b) := by
  unfold State.releaseLevel
  exact .ite
    (fun _ => .ite (fun _ => .ite (fun _ => .refl s) fun _ => .setDie rfl hg)
      fun _ => .ite (fun _ => .setDie rfl hg) fun _ => .ite (fun _ => .setDie rfl hg) fun _ => .refl s)
    fun _ => .refl s

theorem KettleKept.control (high : Bool) : KettleKept Die.course g s (s.control d high) := by
  unfold State.control
  exact .ite (fun _ => .releaseLevel hg ..)
    fun _ => .ite (fun _ => .ite (fun _ => .refl s) fun _ => .setDie rfl hg)
      fun _ => .ite (fun _ => .setDie rfl hg) fun _ => .ite (fun _ => .setDie rfl hg) fun _ => .setDie rfl hg

end

theorem KettleKept.applyRaises {β γ : Type} {f : Die → β} {g : Kettle → γ} (s : State) : KettleKept f g s s.applyRaises :=
  .of_kettle ((State.applyRaises_runs s).same .kettle rfl)

/-- The state in which a control tick looks at the dies: raises are applied, and the loop holds to PWR_CAP. -/
def State.tickBegun (s : State) : State :=
  let s := s.applyRaises
  s.setKettle { s.kettle with cap := s.ov pwrCapId }

/-- What a control tick does for one die before it is retargeted (R365, R366, R368). -/
def State.tickDie (hold high : Bool) (s : State) (d : Nat) : State :=
  let s := s.droopTest d
  let s := s.budgetState d (meanOf 100 (s.budgetHist d)) (s.dieBudget d)
  if hold then s else s.control d high

/-- The state in which a control tick retargets the dies. -/
def State.tickDies (s : State) : State :=
  let s := s.tickBegun
  let high := decide ((98 / 100 : Rat) * s.capNow ≤ meanOf 1000 s.moduleHist) && decide (s.capNow < meanOf 10 s.moduleHist)
  (allDies.foldl (State.tickDie (s.kettle.brake || s.kettle.unreach) high) s).rematch

theorem State.controlTick_eq {s : State} (hr : s.power.rails = true) (ht : s.onTick 10000 = true) :
    s.controlTick = s.tickDies.retargetAll.noteFloor := if_neg (by simp [hr, ht])

theorem KettleKept.tickDie {γ : Type} {g : Kettle → γ} (hg : ∀ k t, g { k with dies := t } = g k) (hold high : Bool)
    (s : State) (d : Nat) : KettleKept Die.course g s (State.tickDie hold high s d) := by
  have hbudget := (KettleKept.budgetState hg (s.droopTest d) d (meanOf 100 ((s.droopTest d).budgetHist d))
    ((s.droopTest d).dieBudget d)).comp (.droopTest hg s d)
  unfold State.tickDie
  exact .ite (fun _ => hbudget) fun _ => (KettleKept.control hg _ d high).comp hbudget

theorem KettleKept.tickDies {γ : Type} {g : Kettle → γ} (hg : ∀ k t, g { k with dies := t } = g k) (s : State) :
    KettleKept Die.course g s.tickBegun s.tickDies := by
  unfold State.tickDies
  exact .comp (.rematch (fun _ _ => rfl) hg _) (.foldl (KettleKept.tickDie hg _ _) _ _)

theorem KettleKept.tickBegun {γ : Type} {g : Kettle → γ} (hg : ∀ k x, g { k with cap := x } = g k) (s : State) :
    KettleKept Die.course g s s.tickBegun := by
  unfold State.tickBegun
  exact .comp (.setKettle rfl (hg _ _)) (.applyRaises s)

theorem State.brake_tickDies (s : State) : s.tickDies.kettle.brake = s.kettle.brake :=
  ((KettleKept.tickDies (g := (·.brake)) (fun _ _ => rfl) s).comp (.tickBegun (fun _ _ => rfl) s)).rest

theorem State.cap_controlTick {s : State} (hr : s.power.rails = true) (ht : s.onTick 10000 = true) :
    s.controlTick.kettle.cap = s.ov pwrCapId := by
  have hbegun : s.tickBegun.kettle.cap = s.ov pwrCapId := State.ov_congr ((State.applyRaises_runs s).same .obj rfl) _
  have hkept : KettleKept unread (·.cap) s.tickDies s.tickDies.retargetAll.noteFloor :=
    .comp (.noteFloor (fun _ _ => rfl) _) (.retargetAll (fun _ _ _ _ _ _ => rfl) (fun _ _ => rfl) _)
  rw [State.controlTick_eq hr ht]
  exact hkept.rest.trans ((KettleKept.tickDies (g := (·.cap)) (fun _ _ => rfl) s).rest.trans hbegun)

/-! The least of some limits, and the one that decides. -/

theorem leastOf_eq_or_mem (d : Nat) (xs : List Nat) : leastOf d xs = d ∨ leastOf d xs ∈ xs := by
  induction xs generalizing d with
  | nil => exact .inl rfl
  | cons x xs ih =>
    rcases ih (min d x) with h | h
    · rcases min_choice d x with hm | hm
      · exact .inl (h.trans hm)
      · exact .inr (List.mem_cons.mpr (.inl (h.trans hm)))
    · exact .inr (List.mem_cons_of_mem x h)

theorem findIdx_of_mem {x : Nat} {xs : List Nat} (h : x ∈ xs) (d : Nat) :
    ∃ i, findIdx (· == x) xs = some i ∧ xs.getD i d = x := by
  induction xs with
  | nil => cases h
  | cons y ys ih =>
    by_cases hy : y = x
    · exact ⟨0, by simp [findIdx, hy], hy⟩
    · obtain ⟨i, hi, hget⟩ := ih ((List.mem_cons.mp h).resolve_left (Ne.symm hy))
      exact ⟨i + 1, by simp [findIdx, hy, hi], by simpa using hget⟩

/-- A limit below the highest point is that of the code that decides (R381). -/
theorem State.getD_decider {s : State} {d : Nat} (hb : s.kettle.brake = false) (h : leastOf 15 (s.limits d) < 15) :
    (s.limits d).getD (s.decider d) 16 = leastOf 15 (s.limits d) := by
  obtain ⟨i, hi, hget⟩ := findIdx_of_mem ((leastOf_eq_or_mem 15 (s.limits d)).resolve_left h.ne) 16
  rw [State.decider, if_neg (by simp [hb]), hi]
  exact hget

/-- The limits of a die's point rest on no field that retargeting writes. -/
theorem State.limits_of_retargeted {s t : State} {d : Nat} (hage : t.ageing = s.ageing) (hobj : t.obj = s.obj)
    (hdie : t.die d = s.retargeted d) : t.limits d = s.limits d := by
  rw [State.limits, State.opMax_congr hage hobj, State.droopLimit, hdie]
  rfl

/-- Settles O13: what the tick does for each die keeps its point, clock and voltage, until it is retargeted. -/
theorem controlTickTakesTheLeastLimit : Obligations.ControlTickTakesTheLeastLimit := by
  intro s hw hr ht
  have hkept := (KettleKept.tickDies (g := unread) (fun _ _ => rfl) s).comp (.tickBegun (fun _ _ => rfl) s)
  have hdies : DiesOk s := State.twf_dies hw
  have hdie : ∀ d, d < 4 → s.controlTick.die d = s.tickDies.retargeted d := fun d hd => by
    rw [State.controlTick_eq hr ht, State.die_noteFloor, State.die_retargetAll (hkept.canonical hdies) hd]
  have hrun : Runs [.kettle, .cores] s.tickDies s.controlTick := by
    rw [State.controlTick_eq hr ht]
    exact .comp (State.noteFloor_runs _) rfl (State.retargetAll_runs _)
  have hage := hrun.same .ageing rfl
  refine ⟨s.controlTick, rfl, State.cap_controlTick hr ht, fun d hd => ?_, (State.controlTick_runs s).frame⟩
  have hcourse := hkept.die hdies d
  simp only [Die.course, Prod.mk.injEq] at hcourse
  obtain ⟨hpoint, hclock, hmv⟩ := hcourse
  have hplan : s.controlTick.planMv d = s.tickDies.planMv d := funext (State.planMv_congr hage d)
  rw [State.limits_of_retargeted hage (hrun.same .obj rfl) (hdie d hd), hplan, hdie d hd]
  rw [State.retargeted]
  refine ⟨(State.point_decided ..).trans hpoint, fun hb => ?_⟩
  have hbrake := s.brake_tickDies.trans hb
  have hgoal : s.tickDies.goal d = leastOf 15 (s.tickDies.limits d) := if_neg (by simp [hbrake])
  simp only [hgoal, State.point_decided, State.clock_decided, State.mv_decided, State.target_decided, State.limit_decided,
    hpoint, hclock, hmv]
  exact ⟨trivial, trivial, trivial, State.getD_decider hbrake⟩

end Sys2Proof.Machine
end

