-- ==== Sys2Proof/Proofs/Estimates.lean ====
section
/-!
PROOF. Power estimates, calibration and learned energies (R359, R360, R367).
-/

namespace Sys2Proof.Machine

/-- A die's record with its budget at the floor. -/
def Die.floored (x : Die) : Die := { x with budget := 0, budQ := 7, budQNext := 7 }

theorem KettleKept.checkFloor {β γ : Type} {f : Die → β} {g : Kettle → γ} (hf : ∀ x : Die, f x.floored = f x)
    (hg : ∀ k t, g { k with dies := t } = g k)
    (hu : ∀ k a b c, g { k with unreach := a, unreachCount := b, okMeans := c } = g k) (s : State) :
    KettleKept f g s s.checkFloor := by
  unfold State.checkFloor
  split
  · refine .ite (fun _ => .comp (.of_kettle ((State.alert_runs _).same .kettle rfl)) (.comp (.foldl (fun t d => ?_) _ _)
      (.setKettle rfl (hu ..)))) fun _ => .refl s
    exact .modDie hf hg
  · exact .refl s

/-! POWER_ESTIMATE: its history, which nothing that follows writes. -/

/-- What POWER_ESTIMATE puts in front of a die's record. -/
def Die.estimated (x : Die) (e dyn : Rat) (cycles : Tbl Nat) : Die :=
  { x with hist := (e :: x.hist).take 1000, dyn := dyn :: x.dyn, cycles := cycles }

/-- What the history and the point of a die are, and the kettle's own history. -/
def Die.history (x : Die) : List Rat × Nat := (x.hist, x.point)
def Kettle.history (k : Kettle) : List Rat × List (List Rat) := (k.shared, k.raw)

theorem Kettle.history_dies (k : Kettle) (t : Tbl Die) : Kettle.history { k with dies := t } = k.history := rfl

theorem Kettle.history_floorAt (k : Kettle) (x : Option Nat) : Kettle.history { k with floorAt := x } = k.history := rfl

/-- An operation that leaves histories and points. -/
abbrev HistoryKept (s t : State) : Prop := KettleKept Die.history Kettle.history s t

theorem HistoryKept.noteEval (s : State) : HistoryKept s s.noteEval := .setKettle rfl rfl

theorem HistoryKept.noteBraked (s : State) : HistoryKept s s.noteBraked :=
  .ite (fun _ => .setKettle rfl rfl) fun _ => .refl s

theorem HistoryKept.noteLow (s : State) (d : Nat) (b : Rat) : HistoryKept s (s.noteLow d b) := by
  refine .modDie (fun x => ?_) Kettle.history_dies
  rfl

theorem HistoryKept.retargetAll (s : State) : HistoryKept s s.retargetAll :=
  KettleKept.retargetAll (fun _ _ _ _ _ _ => rfl) Kettle.history_dies s

theorem HistoryKept.overpower (s : State) : HistoryKept s s.overpower := by
  unfold State.overpower
  refine .ite (fun _ => .comp (HistoryKept.retargetAll _) (.comp (.foldl (fun t d => ?_) _ _)
    (.comp (.setKettle rfl rfl) (.setKettle rfl rfl)))) fun _ => .setKettle rfl rfl
  refine .modDie (fun x => ?_) Kettle.history_dies
  rfl

theorem HistoryKept.checkFloor (s : State) : HistoryKept s s.checkFloor :=
  KettleKept.checkFloor (fun _ => rfl) Kettle.history_dies (fun _ _ _ _ => rfl) s

/-- The uncorrected shares that POWER_ESTIMATE forms. -/
def State.rawShares (s : State) (a : Activity) : List Rat := s.shares (allDies.map (fun u => dynPower 0 (actOf a u))) a.shared

/-- The record of a die with its estimate in front. -/
def State.dieEstimated (s : State) (a : Activity) (d : Nat) (x : Die) : Die :=
  x.estimated (s.corrected (s.rawShares a) d)
    ((allDies.map (fun u => dynPower 0 (actOf a u))).getD d 0 * s.correction (s.rawShares a) d) (s.tagCycles d x.cycles)

/-- The dies with their estimates in front, and then the kettle. -/
def State.diesEstimated (s : State) (a : Activity) : State :=
  allDies.foldl (fun t d => t.modDie d (s.dieEstimated a d)) s
def State.estimated (s : State) (a : Activity) : State :=
  let t := s.diesEstimated a
  t.setKettle { t.kettle with
    shared := (s.corrected (s.rawShares a) 4 :: t.kettle.shared).take 1000
    caps := (s.capNow :: t.kettle.caps).take 1000
    raw := s.rawShares a :: t.kettle.raw
    evalHist := (allDies.map (fun d => dynPower 0 (actEval a d) * s.correction (s.rawShares a) d) ::
      t.kettle.evalHist).take 100 }

theorem State.powerEstimate_eq {s : State} (a : Activity) (hr : s.power.rails = true) :
    s.powerEstimate a = ((allDies.foldl (fun t d => t.noteLow d (t.dieBudget d))
      (s.estimated a).noteEval.noteBraked).overpower.noteFloor).checkFloor := if_neg (by simp [hr])

theorem State.powerEstimate_off {s : State} (a : Activity) (hr : s.power.rails = false) : s.powerEstimate a = s := if_pos hr

theorem HistoryKept.powerEstimate {s : State} (a : Activity) (hr : s.power.rails = true) :
    HistoryKept (s.estimated a) (s.powerEstimate a) := by
  rw [State.powerEstimate_eq a hr]
  exact .comp (HistoryKept.checkFloor _) (.comp (.noteFloor Kettle.history_floorAt _) (.comp (HistoryKept.overpower _)
    (.comp (.foldl (fun t d => HistoryKept.noteLow t d _) _ _)
      (.comp (HistoryKept.noteBraked _) (HistoryKept.noteEval _)))))

theorem State.dies_estimated (s : State) (a : Activity) : (s.estimated a).kettle.dies = (s.diesEstimated a).kettle.dies := rfl

theorem State.die_estimated {s : State} (h : DiesOk s) (a : Activity) {d : Nat} (hd : d < 4) :
    (s.estimated a).die d = s.dieEstimated a d (s.die d) := by
  have hdie : (s.estimated a).die d = (s.diesEstimated a).die d := by rw [State.die, State.dies_estimated, State.die]
  rw [hdie]
  exact (Recordwise.modDie (f := fun _ => s.dieEstimated a) fun _ _ _ => rfl).get_foldl allDies h nodup_allDies
    (mem_allDies.mpr hd)

theorem State.diesOk_estimated {s : State} (h : DiesOk s) (a : Activity) : DiesOk (s.estimated a) := by
  have hdies : DiesOk (s.diesEstimated a) :=
    (Recordwise.modDie (f := fun _ => s.dieEstimated a) fun _ _ _ => rfl).ok_foldl allDies h
  rwa [DiesOk, ← s.dies_estimated a] at hdies

theorem State.history_diesEstimated (s : State) (a : Activity) : (s.diesEstimated a).kettle.history = s.kettle.history := by
  refine KettleKept.rest (f := unread) (g := Kettle.history) (.foldl (fun t d => ?_) _ _)
  refine .modDie (fun _ => ?_) Kettle.history_dies
  rfl

theorem State.history_estimated (s : State) (a : Activity) : (s.estimated a).kettle.history =
    ((s.corrected (s.rawShares a) 4 :: s.kettle.shared).take 1000, s.rawShares a :: s.kettle.raw) := by
  have h := s.history_diesEstimated a
  simp only [Kettle.history, Prod.mk.injEq] at h
  simp only [Kettle.history, State.estimated, State.setKettle_kettle, h.1, h.2]

/-! CALIBRATION (R360). -/

theorem clampRat_bounds {l h : Rat} (hlh : l ≤ h) (x : Rat) : l ≤ clampRat l h x ∧ clampRat l h x ≤ h :=
  ⟨le_max_left .., max_le hlh (min_le_left ..)⟩

theorem moveGain_bounds (g r : Rat) : 4 / 5 ≤ moveGain g r ∧ moveGain g r ≤ 5 / 4 := clampRat_bounds (by norm_num) _

/-- Between its bounds, a gain moves by one eighth of the way. -/
theorem moveGain_of_inside {g r : Rat} (hg : 4 / 5 ≤ g) (hg' : g ≤ 5 / 4) (hr : 4 / 5 ≤ r) (hr' : r ≤ 5 / 4) :
    moveGain g r = g + (r - g) / 8 := by
  rw [moveGain, clampRat, min_eq_right (by linarith), max_eq_right (by linarith)]

/-- The rails' gains as a calibration moves them. -/
def movedGains (t : Tbl Rat) (ratio : Nat → Rat) (us : List Nat) : Tbl Rat :=
  us.foldl (fun t u => tset 1 t u (moveGain (tget 1 t u) (ratio u))) t

theorem movedGains_append (t : Tbl Rat) (ratio : Nat → Rat) (us : List Nat) (u : Nat) :
    movedGains t ratio (us ++ [u]) =
      tset 1 (movedGains t ratio us) u (moveGain (tget 1 (movedGains t ratio us) u) (ratio u)) := by
  simp [movedGains, List.foldl_append]

theorem twf_movedGains {t : Tbl Rat} (h : twf 1 t = true) (ratio : Nat → Rat) (us : List Nat) :
    twf 1 (movedGains t ratio us) = true := by
  induction us using List.reverseRecOn with
  | nil => exact h
  | append_singleton us u ih => rw [movedGains_append]; exact twf_tset _ _ _ ih

theorem movedGains_bounds {t : Tbl Rat} (h : twf 1 t = true) (ratio : Nat → Rat) {us : List Nat} {u : Nat} (hu : u ∈ us) :
    4 / 5 ≤ tget 1 (movedGains t ratio us) u ∧ tget 1 (movedGains t ratio us) u ≤ 5 / 4 := by
  induction us using List.reverseRecOn with
  | nil => cases hu
  | append_singleton us v ih =>
    rw [movedGains_append, tget_tset (twf_keys (twf_movedGains h ratio us))]
    split
    case isTrue => exact moveGain_bounds ..
    case isFalse hv => exact ih (by simpa [hv] using hu)

/-- Measured over estimated power of the module since the last calibration, and of each rail. -/
def Kettle.ratio (k : Kettle) (measured : Nat) : Rat := powerRatio measured (meanOf k.raw.length (k.raw.map (·.sum)))
def Kettle.railRatio (k : Kettle) (rails : List Nat) (u : Nat) : Rat :=
  powerRatio (rails.getD u 0) (meanOf k.raw.length (k.raw.map (fun r => r.getD u 0)))

/-- What a calibration sets and nothing after it writes. -/
def Kettle.calibrated (k : Kettle) : Rat × Tbl Rat × Nat × List (List Rat) := (k.gain, k.railGain, k.measured, k.raw)

/-- The kettle with its gains moved. -/
def State.gainsMoved (s : State) (m : Nat) (rails : List Nat) : State :=
  let out := decide (s.kettle.ratio m < 4 / 5) || decide (5 / 4 < s.kettle.ratio m)
  let bad := if out then s.kettle.badCal + 1 else 0
  s.setKettle { s.kettle with
    gain := moveGain s.kettle.gain (s.kettle.ratio m)
    railGain := movedGains s.kettle.railGain (s.kettle.railRatio rails) (List.range 11)
    badCal := bad
    calRange := s.kettle.calRange || decide (16 ≤ bad)
    measured := m
    raw := []
    okMeans := if s.windowCap < meanOf 1000 s.moduleHist then 0 else s.kettle.okMeans + 1 }

theorem State.calibrate_off {s : State} (m : Nat) (rails : List Nat) (hr : s.power.rails = false) :
    s.calibrate m rails = s := if_pos hr

theorem State.calibrated_calibrate {s : State} (m : Nat) (rails : List Nat) (hr : s.power.rails = true) :
    (s.calibrate m rails).kettle.calibrated = (moveGain s.kettle.gain (s.kettle.ratio m),
      movedGains s.kettle.railGain (s.kettle.railRatio rails) (List.range 11), m, []) := by
  refine (KettleKept.rest (f := unread) (g := Kettle.calibrated) (s := s.gainsMoved m rails) ?_).trans rfl
  unfold State.calibrate
  rw [if_neg (by simp [hr])]
  refine .ite (fun _ => ?_) fun _ => ?_
  · exact .comp (.of_kettle ((State.alert_runs _).same .kettle rfl)) (.setKettle rfl rfl)
  · exact .checkFloor (fun _ => rfl) (fun _ _ => rfl) (fun _ _ _ _ => rfl) _

theorem meanOf_one (e : Rat) : meanOf 1 [e] = e := by simp [meanOf]

/-- With one estimate since the last calibration, the gain moves toward measured over estimated. -/
theorem Kettle.ratio_of_one {k : Kettle} {e : Rat} (he : e ≠ 0) (h : k.raw = [[e]]) (m : Nat) : k.ratio m = (m : Rat) / e := by
  have hmean : meanOf k.raw.length (k.raw.map (·.sum)) = e := by simp [h, meanOf_one]
  rw [Kettle.ratio, hmean, powerRatio, if_neg he]

/-! PHASE_ENERGY_UPDATE (R367). -/

/-- A die's record as a new millisecond begins. -/
def Die.cleared (x : Die) : Die := { x with dyn := [], cycles := [] }

/-- The energies as the dies' millisecond moves them, and the costs that follow from them. -/
def State.learned (s : State) : Tbl Rat := allDies.foldl (fun en d => s.learnDie d en) s.kettle.energy
def State.learnedCost (s : State) : Tbl Nat :=
  let en := s.learned
  let cyc := fun (p : Nat) => (allDies.map (fun d => tget 0 (s.die d).cycles p)).sum
  let tot := (en.map (fun e => cyc e.1)).sum
  let m : Rat := (en.map (fun e => e.2 * ((cyc e.1 : Nat) : Rat))).sum / ((max tot 1 : Nat) : Rat)
  if tot = 0 then s.kettle.cost else en.foldl (fun t e => tset 1 t e.1 (costClass (tget 1 t e.1) e.2 m)) s.kettle.cost

/-- The kettle with its energies learned. -/
def State.energyLearned (s : State) : State :=
  s.setKettle { s.kettle with energy := s.learned, cost := s.learnedCost }

theorem State.phaseEnergy_eq {s : State} (hr : s.power.rails = true) :
    s.phaseEnergy = allDies.foldl (fun s d => s.modDie d Die.cleared) s.energyLearned := if_neg (by simp [hr])

theorem State.phaseEnergy_off {s : State} (hr : s.power.rails = false) : s.phaseEnergy = s := if_pos hr

/-- A die on which nothing computed moves no energy. -/
theorem State.learnDie_of_idle {s : State} {d : Nat} (h : (s.die d).cycles = []) (en : Tbl Rat) : s.learnDie d en = en := by
  simp [State.learnDie, h]

section
variable {s : State} (h : ∀ d, d < 4 → (s.die d).cycles = [])
include h

theorem State.learned_of_idle : s.learned = s.kettle.energy := by
  have hdie : ∀ d ∈ allDies, ∀ en, s.learnDie d en = en := fun d hd => State.learnDie_of_idle (h d (mem_allDies.mp hd))
  unfold State.learned
  generalize s.kettle.energy = en
  revert hdie
  induction allDies generalizing en with
  | nil => exact fun _ => rfl
  | cons d ds ih =>
    intro hdie
    rw [List.foldl_cons, hdie d (List.mem_cons_self ..)]
    exact ih en fun e he => hdie e (List.mem_cons_of_mem d he)

theorem State.learnedCost_of_idle : s.learnedCost = s.kettle.cost := by
  have hcyc : ∀ p, (allDies.map (fun d => tget 0 (s.die d).cycles p)).sum = 0 := fun p =>
    List.sum_eq_zero fun x hx => by
      obtain ⟨d, hd, rfl⟩ := List.mem_map.mp hx
      rw [h d (mem_allDies.mp hd), tget_nil]
  unfold State.learnedCost
  simp only [hcyc]
  exact if_pos (List.sum_eq_zero fun x hx => by
    obtain ⟨e, -, rfl⟩ := List.mem_map.mp hx
    rfl)

end

/-- What an update of the energies sets. -/
def Kettle.energies (k : Kettle) : Tbl Rat × Tbl Nat := (k.energy, k.cost)

theorem State.energies_phaseEnergy {s : State} (hr : s.power.rails = true) :
    s.phaseEnergy.kettle.energies = (s.learned, s.learnedCost) := by
  rw [State.phaseEnergy_eq hr]
  refine KettleKept.rest (f := unread) (g := Kettle.energies) (.foldl (fun s d => ?_) _ s.energyLearned)
  exact .modDie (fun _ => rfl) fun _ _ => rfl

theorem State.die_phaseEnergy {s : State} (h : DiesOk s) (hr : s.power.rails = true) {d : Nat} (hd : d < 4) :
    s.phaseEnergy.die d = (s.die d).cleared := by
  rw [State.phaseEnergy_eq hr]
  exact (Recordwise.modDie (f := fun _ _ => Die.cleared) fun _ _ _ => rfl).get_foldl (s := s.energyLearned) allDies h
    nodup_allDies (mem_allDies.mpr hd)

/-- Settles O12: each of the three commands sets what it names and is followed only by what leaves it. -/
theorem estimatesAndGains : Obligations.EstimatesAndGains := by
  intro s
  refine ⟨fun a => ⟨s.powerEstimate a, rfl, State.powerEstimate_off a, fun hw hr => ?_⟩,
    fun m rails => ⟨s.calibrate m rails, rfl, State.calibrate_off m rails, fun hr => ?_⟩,
    ⟨s.phaseEnergy, rfl, State.phaseEnergy_off, fun hw hr => ⟨fun d hd => ?_, fun h => ?_, (State.phaseEnergy_runs s).frame⟩⟩⟩
  · have hdies : DiesOk s := State.twf_dies hw
    have hkept := HistoryKept.powerEstimate a hr
    have hhist := hkept.rest.trans (s.history_estimated a)
    simp only [Kettle.history, Prod.mk.injEq] at hhist
    refine ⟨fun d hd => ?_, hhist.1, hhist.2, (State.powerEstimate_runs a s).frame⟩
    have hdie := hkept.die (State.diesOk_estimated hdies a) d
    rw [State.die_estimated hdies a hd] at hdie
    simp only [Die.history, Prod.mk.injEq] at hdie
    exact hdie
  · have hcal := State.calibrated_calibrate m rails hr
    simp only [Kettle.calibrated, Prod.mk.injEq] at hcal
    obtain ⟨hgain, hrail, hmeasured, hraw⟩ := hcal
    have hbounds := moveGain_bounds s.kettle.gain (s.kettle.ratio m)
    rw [← hgain] at hbounds
    refine ⟨hmeasured, hraw, hbounds.1, hbounds.2, fun hnil u hu => ?_, fun e he hone hg hg' hr hr' => ?_,
      (State.calibrate_runs m rails s).frame⟩
    · rw [State.railGain, hrail, hnil]
      exact movedGains_bounds rfl _ (List.mem_range.mpr hu)
    · rw [hgain, Kettle.ratio_of_one he hone, moveGain_of_inside hg hg' hr hr']
  · rw [State.die_phaseEnergy (State.twf_dies hw) hr hd]
    exact ⟨rfl, rfl⟩
  · have hen := State.energies_phaseEnergy hr
    simp only [Kettle.energies, Prod.mk.injEq, State.learned_of_idle h, State.learnedCost_of_idle h] at hen
    exact hen

end Sys2Proof.Machine
end

