-- ==== Sys2Proof/Proofs/MainOff.lean ====
section
/-!
PROOF. The main domain going off and the last-line conditions (R309, R377, R379, R380).
-/

namespace Sys2Proof.Machine

/-! The main rails go off. -/

/-- Power as the main domain's going off leaves it. -/
def Power.mainGone (x : Power) : Power := { x with main := .off, rails := false, seqRow := 0, selfTest := false }

/-- The state in which the main domain is lost: what was outstanding is a fault, the links are DOWN. -/
def State.mainFalls (s : State) : State :=
  let cs := s.atomCtxs (fun _ => true)
  let s := allLinks.foldl (fun s l => s.linkFall l) (if cs = [] then s else s.uncovered 0x16 0 cs)
  s.setHost { HostIf.init (s.ov bar2Log2Id) with readOut := s.host.readOut }

theorem State.mainFalls_runs (s : State) : Runs [.links, .router, .host, .steps, .obj, .flash] s s.mainFalls := by
  refine .comp (State.hostOff_runs _ _ _) rfl (.foldl (fun _ _ => (State.linkFall_runs ..).mono rfl) _ ?_)
  exact .ite (fun _ => .refl s) fun _ => (State.uncovered_runs ..).mono rfl

theorem State.mainOff_eq (s : State) :
    s.mainOff = (allCtx.foldl (fun s c => s.applyLayout c) s.mainFalls.mainLoss.ftFresh).alert := rfl

/-- What follows the loss of the main domain's contents. -/
theorem State.mainOff_runs_after_loss (s : State) : Runs [.ft, .router, .host, .red, .out] s.mainFalls.mainLoss s.mainOff := by
  rw [State.mainOff_eq]
  exact .comp (State.alert_runs _) rfl (.foldl (fun _ _ => (State.applyLayout_runs ..).mono rfl) _
    ((State.ftFresh_runs _).mono rfl))

theorem State.power_mainOff (s : State) : s.mainOff.power = s.power.mainGone := by
  have hloss : s.mainOff.power = s.mainFalls.mainLoss.power := s.mainOff_runs_after_loss.same .power rfl
  have hfalls : s.mainFalls.power = s.power := s.mainFalls_runs.same .power rfl
  rw [hloss, ← hfalls]
  rfl

/-! The last line (R379, R380). -/

/-- What a last-line stop leaves of the power sequence, and FAULT#. -/
def State.StoppedFor (t : State) (r : StopRec) : Prop :=
  t.power.main = .stopped ∧ t.power.rails = false ∧ t.power.halted = true ∧ t.out.faultPin = true ∧ t.power.stop = some r

/-- The stopped module, FAULT# asserted, before its record is queued. -/
def State.stopping (s : State) (r : StopRec) : State :=
  let s := s.setPower { s.power with main := .stopped, stop := some r, halted := true }
  s.setOut { s.out with faultPin := true }

theorem State.stopping_stops {s : State} (h : s.power.rails = false) (r : StopRec) : (s.stopping r).StoppedFor r :=
  ⟨rfl, h, rfl, rfl, rfl⟩

theorem State.StoppedFor.congr {s t : State} {r : StopRec} (h : s.StoppedFor r) (hp : t.power = s.power)
    (ho : t.out = s.out) : t.StoppedFor r := by
  rwa [State.StoppedFor, hp, ho]

theorem State.lastLine_eq {s : State} (hr : s.power.rails = true) (cause unit temp : Nat) :
    let r : StopRec := ⟨cause, unit, temp, s.ftRead hubPs⟩
    s.lastLine cause unit temp = (s.mainOff.stopping r).journalNext (.stopCause r) := by
  unfold State.lastLine
  rw [if_neg (by simp [hr])]
  rfl

theorem State.lastLine_stops {s : State} (hr : s.power.rails = true) (cause unit temp : Nat) :
    (s.lastLine cause unit temp).StoppedFor ⟨cause, unit, temp, s.ftRead hubPs⟩ := by
  have hrails : s.mainOff.power.rails = false := by rw [State.power_mainOff]; rfl
  rw [State.lastLine_eq hr]
  have hj := State.journalNext_runs (s.mainOff.stopping ⟨cause, unit, temp, s.ftRead hubPs⟩)
    (.stopCause ⟨cause, unit, temp, s.ftRead hubPs⟩)
  exact (State.stopping_stops hrails _).congr (hj.same .power rfl) (hj.same .out rfl)

/-- A stop of a state that has the rails and the fabric time of `s`. -/
theorem State.lastLine_stops_of {s t : State} (hr : t.power.rails = true) (ht : t.ftRead hubPs = s.ftRead hubPs)
    (cause unit temp : Nat) : (t.lastLine cause unit temp).StoppedFor ⟨cause, unit, temp, s.ftRead hubPs⟩ :=
  ht ▸ State.lastLine_stops hr cause unit temp

theorem State.ftRead_congr {s t : State} (hc : t.clk = s.clk) (hf : t.ft = s.ft) (ps : Nat) : t.ftRead ps = s.ftRead ps := by
  rw [State.ftRead, hc, hf, State.ftRead]

/-! STACK_TEMP_SAMPLE (R308, R309). -/

/-- The throttle level of a stack after a sample, and its count of cool samples. -/
def State.levelAfter (s : State) (k : Nat) (x : Int) : Nat × Nat :=
  stackLevel (tget 0 s.mem.level k) (tget 0 s.mem.below k) (4 * (s.ov (stackThrottleId + k) : Nat)) x

/-- A stack's sample is taken; the list of stacks at the last line is as it was but for this one. -/
def State.stackTaken (s : State) (k : Nat) (x : Int) : State :=
  let s := s.setOv (stackTempId + k) (ofInt 16 x)
  let hot := s.power.hotStacks.filter (· != k)
  s.setPower { s.power with hotStacks := if 380 ≤ x then hot ++ [k] else hot }

/-- A stack's throttle level and count. -/
def State.setLevel (s : State) (k : Nat) (r : Nat × Nat) : State :=
  s.setMem { s.mem with level := tset 0 s.mem.level k r.1, below := tset 0 s.mem.below k r.2 }

theorem State.stackSample_eq {s : State} (hr : s.power.rails = true) (k : Nat) (x : Int) :
    s.stackSample k x =
      if 380 ≤ x then ((s.stackTaken k x).setLevel k ((s.stackTaken k x).levelAfter k x)).lastLine 3 k (ofInt 16 x)
      else (s.stackTaken k x).setLevel k ((s.stackTaken k x).levelAfter k x) := by
  have hr' : (s.stackTaken k x).power.rails = true := hr
  unfold State.stackSample
  dsimp only
  rw [if_pos (c := ((s.setOv (stackTempId + k) (ofInt 16 x)).setPower _).power.rails = true) hr']
  rfl

theorem State.stackTaken_runs (s : State) (k : Nat) (x : Int) : Runs [.power, .obj] s (s.stackTaken k x) :=
  .comp (State.setPower_runs _ _ fun h => h) rfl ((State.setOv_runs ..).mono rfl)

theorem State.setLevel_runs (s : State) (k : Nat) (r : Nat × Nat) : Runs [.mem] s (s.setLevel k r) := by
  refine State.setMem_runs _ _ fun h => ?_
  simp only [Mem.wf, Bool.and_eq_true] at h ⊢
  obtain ⟨⟨⟨hbytes, hpoison⟩, hlevel⟩, hbelow⟩ := h
  exact ⟨⟨⟨hbytes, hpoison⟩, twf_tset _ _ _ hlevel⟩, twf_tset _ _ _ hbelow⟩

theorem State.stackSample_stops {s : State} (hr : s.power.rails = true) (k : Nat) {x : Int} (hx : 380 ≤ x) :
    (s.stackSample k x).StoppedFor ⟨3, k, ofInt 16 x, s.ftRead hubPs⟩ := by
  rw [State.stackSample_eq hr, if_pos hx]
  generalize State.levelAfter _ k x = r
  exact State.lastLine_stops_of (s := s) (t := (s.stackTaken k x).setLevel k r) hr rfl 3 k (ofInt 16 x)

theorem State.levelAfter_stackTaken {s : State} (h : keysFrom none s.obj.vals = true) (k : Nat) (x : Int) :
    (s.stackTaken k x).levelAfter k x = s.levelAfter k x := by
  have hth : (s.stackTaken k x).ov (stackThrottleId + k) = s.ov (stackThrottleId + k) :=
    (State.ov_setOv h _ _ _).trans (if_neg (by simp only [stackThrottleId, stackTempId]; omega))
  rw [State.levelAfter, hth]
  rfl

theorem stackLevel_hot {lv below : Nat} {th t : Int} (h : th + 12 < t) (hl : lv ≤ 2) : (stackLevel lv below th t).1 = 2 := by
  simp only [stackLevel, if_pos h]
  split
  · rfl
  · have : lv = 2 := by omega
    subst this
    rw [if_pos rfl, if_neg (by simp; omega)]

theorem stackLevel_warm {lv below : Nat} {th t : Int} (h : th ≤ t) (ht : t ≤ th + 12) (hl : lv ≤ 1) :
    (stackLevel lv below th t).1 = 1 := by
  simp only [stackLevel, if_neg (show ¬ th + 12 < t by omega), if_pos h]
  split
  · rfl
  · have : lv = 1 := by omega
    subst this
    rw [if_neg (by simp; omega)]

/-! THERMAL_SAMPLE (R377). -/

/-- Numbers of the junction sensors at or above 115 °C. -/
def hotAt (temps : List Int) : List Nat :=
  ((temps.take 208).zipIdx.filter (fun t => decide (460 ≤ t.1))).map (·.2)

theorem mem_hotAt {temps : List Int} {i : Nat} {x : Int} (hi : i < 208) (hx : temps[i]? = some x) (h : 460 ≤ x) :
    i ∈ hotAt temps := by
  refine List.mem_map.mpr ⟨(x, i), List.mem_filter.mpr ⟨?_, decide_eq_true h⟩, rfl⟩
  rw [List.mem_zipIdx_iff_getElem?, List.getElem?_take_of_lt hi, hx]

theorem hotAt_of_cool {temps : List Int} (h : ∀ x ∈ temps, x < 460) : hotAt temps = [] := by
  rw [hotAt, List.map_eq_nil_iff, List.filter_eq_nil_iff]
  intro t ht
  have := h t.1 (List.mem_of_mem_take (List.fst_mem_of_mem_zipIdx ht))
  simpa using this

/-- The dies' thermal limits after a sample, and the engine states that follow. -/
def State.thermalDie (thr : Int) (s : State) (d : Nat) : State :=
  (s.modDie d (fun x => { x with
    own := x.own.sample x.point s.clk (s.opMax d) thr (s.hottest d)
    hub := x.hub.sample x.point s.clk (s.opMax d) thr (s.hottest 4) })).setEng d

/-- The sensors' sample is taken, and the sensors at or above 115 °C are noted. -/
def State.sensorsTaken (s : State) (temps : List Int) : State :=
  let s := (List.range 5).foldl (fun s u => s.tempMax temps u) s
  s.setPower { s.power with hotSensors := hotAt temps }

def State.thermalDies (s : State) : State :=
  if s.power.rails then allDies.foldl (State.thermalDie (4 * (s.ov tjThrottleId : Nat))) s else s

theorem State.thermalSample_eq (s : State) (temps : List Int) :
    s.thermalSample temps = match (hotAt temps).filter s.power.hotSensors.contains with
      | i :: _ => (s.sensorsTaken temps).thermalDies.lastLine 2 (i / 48) (ofInt 16 (temps.getD i 0))
      | [] => (s.sensorsTaken temps).thermalDies := rfl

theorem State.sensorsTaken_runs (s : State) (temps : List Int) : Runs [.power, .obj] s (s.sensorsTaken temps) :=
  .comp (State.setPower_runs _ _ fun h => h) rfl (.foldl (fun _ _ => (State.tempMax_runs ..).mono rfl) _ (.refl s))

theorem State.power_sensorsTaken (s : State) (temps : List Int) :
    (s.sensorsTaken temps).power = { s.power with hotSensors := hotAt temps } := by
  have hruns : Runs [.obj] s ((List.range 5).foldl (fun s u => s.tempMax temps u) s) :=
    .foldl (fun _ _ => State.tempMax_runs ..) _ (.refl s)
  have hpower := hruns.same .power rfl
  rw [State.sensorsTaken]
  exact congrArg (fun p : Power => { p with hotSensors := hotAt temps }) hpower

theorem State.thermalDies_runs (s : State) : Runs [.kettle, .cores] s s.thermalDies :=
  .ite (fun _ => .foldl (fun _ _ => .comp (State.setEng_runs ..) rfl ((State.modDie_runs ..).mono rfl)) _ (.refl s))
    fun _ => .refl s

/-- TEMP_MAX of a unit after a sample. -/
def State.tempMaxAfter (temps : List Int) (s : State) (u : Nat) : Nat :=
  match unitTemps temps u with
  | [] => s.ov (tempMaxId + u)
  | x :: xs => ofInt 16 (maxOf x xs)

/-- The table of object values is canonical. -/
def ValsOk (s : State) : Prop := keysFrom none s.obj.vals = true

theorem State.ov_tempMax {s : State} (h : ValsOk s) (temps : List Int) (u v : Nat) :
    (s.tempMax temps u).ov (tempMaxId + v) = if v = u then s.tempMaxAfter temps u else s.ov (tempMaxId + v) := by
  rw [State.tempMax, State.tempMaxAfter]
  cases unitTemps temps u with
  | nil =>
    dsimp only
    split_ifs with hv
    · rw [hv]
    · rfl
  | cons x xs =>
    refine (State.ov_setOv h _ _ _).trans ?_
    simp only [Nat.add_left_cancel_iff]

theorem Recordwise.tempMax (temps : List Int) :
    Recordwise ValsOk (fun s u => s.ov (tempMaxId + u)) (fun s u => s.tempMax temps u) (State.tempMaxAfter temps) where
  keeps u h := by
    unfold State.tempMax
    split
    · exact h
    · exact keysFrom_tset _ _ _ h
  self u h := (State.ov_tempMax h temps u u).trans (if_pos rfl)
  other h he := (State.ov_tempMax h temps _ _).trans (if_neg he)
  stable h he := by
    unfold State.tempMaxAfter
    split
    · exact (State.ov_tempMax h temps _ _).trans (if_neg he)
    · rfl

theorem State.tempMax_sensorsTaken {s : State} (h : ValsOk s) (temps : List Int) {u : Nat} (hu : u < 5) :
    (s.sensorsTaken temps).ov (tempMaxId + u) = s.tempMaxAfter temps u :=
  (Recordwise.tempMax temps).get_foldl (List.range 5) h List.nodup_range (List.mem_range.mpr hu)

/-- COOLANT_OK is low, and the hub reads fabric time anew. -/
def State.coolantGone (s : State) : State := (s.setPins { s.pins with coolantOk := false }).fresh

theorem exec_coolantOkLow (s : State) : exec .coolantOkLow s = .next (s.coolantGone.lastLine 1
    (Config.coolantPlace s.free % 256) (Config.coolantPlace s.free / 256 % 65536)) := rfl

theorem State.coolantOk_lastLine (s : State) (cause unit temp : Nat) :
    (s.lastLine cause unit temp).pins.coolantOk = s.pins.coolantOk :=
  congrArg Pins.coolantOk ((State.lastLine_runs ..).same .pins rfl)

/-- Settles O14: the stops by what `lastLine` leaves, the samples below by the writes before it. -/
theorem lastLineConditionsStop : Obligations.LastLineConditionsStop := by
  intro s hw hr
  have hvals : ValsOk s := State.keysFrom_vals hw
  have hlevel := State.twf_level hw
  refine ⟨?_, fun k x hk hx => ?_, fun k x hk hx => ?_, fun temps i x hi hx h hs => ?_, fun temps h => ?_⟩
  · obtain ⟨hmain, hrails, hhalted, hpin, hstop⟩ := State.lastLine_stops_of (s := s) (t := s.coolantGone) hr rfl 1
      (Config.coolantPlace s.free % 256) (Config.coolantPlace s.free / 256 % 65536)
    have hpins := State.coolantOk_lastLine s.coolantGone 1
      (Config.coolantPlace s.free % 256) (Config.coolantPlace s.free / 256 % 65536)
    exact ⟨_, _, exec_coolantOkLow s, hpins, hmain, hrails, hhalted, hpin, hstop, rfl, rfl⟩
  · have hexec : exec (.stackTempSample k x) s = .next (s.stackSample k x) := need_of (decide_eq_true hk) _
    obtain ⟨hmain, hrails, hhalted, hpin, hstop⟩ := State.stackSample_stops hr k hx
    exact ⟨_, hexec, hmain, hrails, hhalted, hpin, hstop⟩
  · have hexec : exec (.stackTempSample k x) s = .next (s.stackSample k x) := need_of (decide_eq_true hk) _
    have hnew : tget 0 ((s.stackTaken k x).setLevel k (s.levelAfter k x)).mem.level k = (s.levelAfter k x).1 :=
      tget_tset_self 0 hlevel k _
    refine ⟨_, hexec, ?_⟩
    rw [State.stackSample_eq hr, if_neg (by omega), State.levelAfter_stackTaken hvals]
    refine ⟨(State.ov_setOv hvals _ _ _).trans (if_pos rfl), ?_, rfl, fun h hl => ?_, fun h h' hl => ?_,
      (Runs.comp (State.setLevel_runs ..) rfl ((State.stackTaken_runs ..).mono rfl)).frame⟩
    · have hpower : ((s.stackTaken k x).setLevel k (s.levelAfter k x)).power.hotStacks = s.power.hotStacks.filter (· != k) :=
        if_neg (by omega)
      rw [hpower]
      simp
    · rw [hnew]
      exact stackLevel_hot h hl
    · rw [hnew]
      exact stackLevel_warm h h' hl
  · have hmem : i ∈ (hotAt temps).filter s.power.hotSensors.contains := List.mem_filter.mpr ⟨mem_hotAt hi hx h, hs⟩
    obtain ⟨j, js, hj⟩ := List.exists_cons_of_ne_nil (List.ne_nil_of_mem hmem)
    have hruns := (State.thermalDies_runs (s.sensorsTaken temps))
    have htaken := State.sensorsTaken_runs s temps
    have hpower : (s.sensorsTaken temps).thermalDies.power.rails = true := by
      rw [hruns.same .power rfl, State.power_sensorsTaken]
      exact hr
    have hall : Runs [.power, .obj, .kettle, .cores] s (s.sensorsTaken temps).thermalDies :=
      .comp hruns rfl (htaken.mono rfl)
    have hft := State.ftRead_congr (hall.same .clk rfl) (hall.same .ft rfl) hubPs
    obtain ⟨hmain, hrails, hhalted, hpin, hstop⟩ :=
      State.lastLine_stops_of hpower hft 2 (j / 48) (ofInt 16 (temps.getD j 0))
    have heq : s.thermalSample temps
        = (s.sensorsTaken temps).thermalDies.lastLine 2 (j / 48) (ofInt 16 (temps.getD j 0)) := by
      rw [State.thermalSample_eq, hj]
    exact ⟨_, _, congrArg Host.Outcome.next heq, hmain, hrails, hhalted, hpin, hstop, rfl, rfl⟩
  · have heq : s.thermalSample temps = (s.sensorsTaken temps).thermalDies := by
      rw [State.thermalSample_eq, hotAt_of_cool h]
      rfl
    have hdies := State.thermalDies_runs (s.sensorsTaken temps)
    have hpower : (s.sensorsTaken temps).thermalDies.power = { s.power with hotSensors := [] } := by
      rw [hdies.same .power rfl, State.power_sensorsTaken, hotAt_of_cool h]
    refine ⟨_, congrArg Host.Outcome.next heq, congrArg Power.hotSensors hpower, (congrArg Power.main hpower).trans rfl, fun u x xs hu hx => ?_,
      (Runs.comp hdies rfl ((State.sensorsTaken_runs s temps).mono rfl)).frame⟩
    rw [State.ov_congr (hdies.same .obj rfl), State.tempMax_sensorsTaken hvals temps hu, State.tempMaxAfter, hx]

end Sys2Proof.Machine
end

