-- ==== Sys2Proof/Proofs/FaultRecords.lean ====
section
/-!
PROOF. What queueing a journal write leaves of the caddy's flash, and what a service flag, a covered and an uncovered fault set
(R385, R387, R392, R394, R403).
-/

namespace Sys2Proof.Machine

/-- What the caddy reads of its flash without its journal: no queued write changes it. -/
def Flash.facts (f : Flash) : Flash := { f with queue := [], recs := [] }

/-- The flags with one more set, and not acknowledged (R403, R404). -/
def Flash.flagged (f : Flash) (b : Nat) : Flash :=
  { f with service := f.service ||| 2 ^ b, ack := f.ack &&& (0xFFFFFFFFFFFFFFFF - 2 ^ b) }

/-- One more event counted (R392). -/
def Flash.counted (f : Flash) : Flash := { f with total := satAdd 32 f.total 1 }

theorem Flash.bit_flagged (f : Flash) (b : Nat) : bit (f.flagged b).service b = true := by
  rw [bit_eq_testBit]
  simp [Flash.flagged, Nat.testBit_or, Nat.testBit_two_pow_self]

theorem Flash.service_of_facts {f g : Flash} (h : f.facts = g) : f.service = g.service := h ▸ rfl

theorem Flash.log_of_facts {f g : Flash} (h : f.facts = g) : f.log = g.log := h ▸ rfl

theorem Flash.stopCause_of_facts {f g : Flash} (h : f.facts = g) : f.stopCause = g.stopCause := h ▸ rfl

theorem Flash.spares_of_facts {f g : Flash} (h : f.facts = g) : f.spares = g.spares := h ▸ rfl

theorem Flash.total_of_facts {f g : Flash} (h : f.facts = g) : f.total = g.total := h ▸ rfl

theorem State.facts_journalBegin (s : State) : s.journalBegin.flash.facts = s.flash.facts := by
  unfold State.journalBegin
  split <;> rfl

theorem State.facts_journal (s : State) (r : JRec) : (s.journal r).flash.facts = s.flash.facts := by
  unfold State.journal
  split
  · rfl
  · dsimp only
    split
    · rw [State.facts_journalBegin]; rfl
    · rfl

theorem State.facts_service (s : State) (b : Nat) : (s.service b).flash.facts = s.flash.facts.flagged b := by
  have hflash : ∀ t : State, t.alert.flash = t.flash := fun t => (State.alert_runs t).same .flash rfl
  rw [State.service, hflash, State.facts_journal]
  rfl

theorem State.bit_service (s : State) (b : Nat) : bit (s.service b).flash.service b = true := by
  rw [Flash.service_of_facts (s.facts_service b)]
  exact Flash.bit_flagged ..

theorem State.facts_faultRec (s : State) (t code unit dur : Nat) :
    (s.faultRec t code unit dur).flash.facts = s.flash.facts.counted := by
  have hcount : ∀ u : State, u.flash.facts = s.flash.facts →
      (u.setFlash { u.flash with total := satAdd 32 u.flash.total 1 }).flash.facts = s.flash.facts.counted := fun u h => by
    rw [← h]; rfl
  unfold State.faultRec
  refine hcount _ ?_
  split
  · exact s.facts_journal _
  · rfl

theorem State.flash_modOv (s : State) (id : Nat) (f : Nat → Nat) : (s.modOv id f).flash = s.flash := rfl

theorem State.covered_eq (s : State) (code unit : Nat) : s.covered code unit =
    ((s.faultRec (s.ftRead mgmtPs) code unit (Config.interruption s.free % (coveredBound code + 1))).modOv faultStatusId
      (1 ||| ·)).fresh := by
  unfold State.covered State.coveredAt State.orOv
  rfl

/-- FAULT_STATUS with an uncovered fault in it. -/
def uncoveredStatus (v : Nat) : Nat := setBits (v ||| 2) 16 16 (satAdd 16 (bits v 16 16) 1)

theorem bit_uncoveredStatus (v : Nat) : bit (uncoveredStatus v) 1 = true := by
  rw [uncoveredStatus, bit_setBits_of_outside _ _ (.inl (by decide)), bit_eq_testBit, Nat.testBit_or,
    show Nat.testBit 2 1 = true from rfl, Bool.or_true]

/-- The steps of some contexts are latched; the journal and the objects are not touched. -/
theorem State.latchAll_runs (s : State) (ctxs : List Nat) (reason : Nat) :
    Runs [.router, .steps] s (ctxs.foldl (fun s c => s.latch c reason) s) :=
  .foldl (fun _ _ => State.latch_runs ..) _ (.refl s)

theorem State.facts_uncovered (s : State) (code unit : Nat) (ctxs : List Nat) :
    (s.uncovered code unit ctxs).flash.facts = s.flash.facts.counted := by
  have hlatch : ∀ t : State, (ctxs.foldl (fun s c => s.latch c 2) t).flash = t.flash := fun t =>
    (t.latchAll_runs ctxs 2).same .flash rfl
  rw [State.uncovered, hlatch, State.flash_modOv, State.facts_faultRec]

/-- An operation before which the objects are those of `s`: what it makes of one of their values. -/
theorem State.ov_modOv_of_obj {s t : State} (hs : keysFrom none s.obj.vals = true) (h : t.obj = s.obj) (id j : Nat)
    (f : Nat → Nat) : (t.modOv id f).ov j = if j = id then f (s.ov id) else s.ov j := by
  rw [State.ov_modOv (by rwa [h]), State.ov_congr h, State.ov_congr h]

section
variable {s : State} (h : keysFrom none s.obj.vals = true)
include h

theorem State.ov_uncovered (code unit : Nat) (ctxs : List Nat) (j : Nat) :
    (s.uncovered code unit ctxs).ov j = if j = faultStatusId then uncoveredStatus (s.ov faultStatusId) else s.ov j := by
  have hlatch : ∀ t : State, (ctxs.foldl (fun s c => s.latch c 2) t).obj = t.obj := fun t =>
    (t.latchAll_runs ctxs 2).same .obj rfl
  rw [State.uncovered, State.ov_congr (hlatch _)]
  exact State.ov_modOv_of_obj h ((State.faultRec_runs ..).same .obj rfl) ..

theorem State.ov_covered (code unit j : Nat) :
    (s.covered code unit).ov j = if j = faultStatusId then 1 ||| s.ov faultStatusId else s.ov j := by
  have hfresh : ∀ t : State, t.fresh.ov j = t.ov j := fun _ => rfl
  rw [State.covered_eq, hfresh]
  exact State.ov_modOv_of_obj h ((State.faultRec_runs ..).same .obj rfl) ..

end

/-! FAULT# while notices go out: no message drives it. -/

/-- What every step of a fold leaves as it is. -/
theorem foldl_keeps {σ α β : Type} {g : σ → β} {f : σ → α → σ} (hf : ∀ s x, g (f s x) = g s) (xs : List α) (s : σ) :
    g (xs.foldl f s) = g s := by
  induction xs generalizing s with
  | nil => rfl
  | cons x xs ih => exact (ih _).trans (hf s x)

theorem State.faultPin_msi (s : State) (fn vector : Nat) : (s.msi fn vector).out.faultPin = s.out.faultPin := rfl

theorem State.faultPin_intSend (s : State) (ctx : Nat) : (s.intSend ctx).out.faultPin = s.out.faultPin := by
  unfold State.intSend
  split <;> exact State.faultPin_msi ..

theorem State.faultPin_interrupt (s : State) (ctx b : Nat) : (s.interrupt ctx b).out.faultPin = s.out.faultPin := by
  unfold State.interrupt
  dsimp only
  split
  · exact State.faultPin_intSend ..
  · rfl

theorem State.faultPin_eventTo (s : State) (code arg cls : Nat) (x : Session) :
    (s.eventTo code arg cls x).out.faultPin = s.out.faultPin := by
  unfold State.eventTo
  dsimp only
  split
  · exact State.faultPin_interrupt ..
  · rfl
  · rfl

theorem State.faultPin_alert (s : State) : s.alert.out.faultPin = s.out.faultPin := by
  have hevent : ∀ t : State, ∀ arg, (t.event 4 arg).out.faultPin = t.out.faultPin := fun t arg =>
    foldl_keeps (g := fun s : State => s.out.faultPin) (fun s (p : Nat × Session) => s.faultPin_eventTo 4 arg p.1 p.2) _ t
  unfold State.alert
  dsimp only
  split
  · rfl
  · split
    · rw [State.faultPin_interrupt, hevent]; rfl
    · rw [hevent]; rfl

theorem State.faultPin_service (s : State) (b : Nat) : (s.service b).out.faultPin = s.out.faultPin := by
  have hjournal : ∀ t : State, (t.journal .service).out = t.out := fun t => (t.journal_runs .service).same .out rfl
  rw [State.service, State.faultPin_alert, hjournal]
  rfl

theorem State.faultPin_mainOff (s : State) : s.mainOff.out.faultPin = s.out.faultPin := by
  have hlayout : Runs [.ft, .red] s.mainFalls.mainLoss
      (allCtx.foldl (fun s c => s.applyLayout c) s.mainFalls.mainLoss.ftFresh) :=
    .foldl (fun _ _ => (State.applyLayout_runs ..).mono rfl) _ ((State.ftFresh_runs _).mono rfl)
  have hout : (allCtx.foldl (fun s c => s.applyLayout c) s.mainFalls.mainLoss.ftFresh).out = s.mainFalls.mainLoss.out :=
    hlayout.same .out rfl
  have hloss : ∀ t : State, t.mainLoss.out = t.out := fun _ => rfl
  have hfalls : s.mainFalls.out = s.out := s.mainFalls_runs.same .out rfl
  rw [State.mainOff_eq, State.faultPin_alert, hout, hloss, hfalls]

end Sys2Proof.Machine
end

