-- ==== Sys2Proof/Proofs/MemoryDies.lean ====
section
/-!
PROOF. The GDDR7, the zeroing of the memory and the scrub (R289, R296, R298 to R300, R302).
-/

namespace Sys2Proof.Machine

/-- Memory with its GDDR7 OFFLINE. -/
def Mem.lost (m : Mem) : Mem := { m with gddr := .offline }

/-- Memory as a training leaves it: at a rate, or without one (R296, R298, R299). -/
def Mem.trained (m : Mem) (r : Nat) : Mem := { m with gddr := .online, gddrRate := min r 2 }
def Mem.untrained (m : Mem) : Mem := { m with gddr := .offline, gddrRate := 0 }

/-- Memory with every byte 0 and nothing poisoned. -/
def Mem.zeroed (m : Mem) : Mem := { m with bytes := [], poison := [] }

theorem State.gddrLost_eq {s : State} (h : s.mem.gddr = .online) :
    s.gddrLost = ((s.setMem s.mem.lost).service 7).uncovered 0x15 0 allCtx := if_pos h

/-- A service flag after the memory was set, and an uncovered fault after that. -/
theorem State.lostFault_runs (s : State) (m : Mem) :
    Runs [.router, .host, .flash, .out, .steps, .obj] (s.setMem m) (((s.setMem m).service 7).uncovered 0x15 0 allCtx) :=
  .comp (State.uncovered_runs ..) rfl ((State.service_runs ..).mono rfl)

theorem State.facts_gddrLost {s : State} (h : s.mem.gddr = .online) :
    s.gddrLost.flash.facts = (s.flash.facts.flagged 7).counted := by
  rw [State.gddrLost_eq h, State.facts_uncovered, State.facts_service]
  rfl

theorem State.ov_gddrLost {s : State} (hv : keysFrom none s.obj.vals = true) (h : s.mem.gddr = .online) :
    s.gddrLost.ov faultStatusId = uncoveredStatus (s.ov faultStatusId) := by
  have hobj : ((s.setMem s.mem.lost).service 7).obj = s.obj := (State.service_runs ..).same .obj rfl
  rw [State.gddrLost_eq h, State.ov_uncovered (by rwa [hobj]), if_pos rfl, State.ov_congr hobj]

theorem State.stageEnd_passed (s : State) : s.stageEnd .passed = s := rfl

theorem State.gddrTrained_eq {s : State} (hr : s.power.rails = true) (h : s.mem.gddr = .training) (rate : Option Nat) :
    s.gddrTrained rate .passed = match rate with
      | some r => s.setMem (s.mem.trained r)
      | none => (s.setMem s.mem.untrained).service 7 := by
  unfold State.gddrTrained
  rw [if_pos ⟨hr, h⟩]
  simp only [State.stageEnd_passed, ite_self]
  cases rate <;> rfl

theorem State.scrub_corrected {s : State} {a m : Nat} (hr : s.power.rails = true) (hm : s.memOf (a / 64 * 64) = some m) :
    s.scrub a .corrected = s.bump (memCeCountId + m) := by
  simp only [State.scrub, if_pos hr, State.memErr, hm]

/-- Settles O15: each of the commands is the write that it names. -/
theorem gddrAndScrub : Obligations.GddrAndScrub := by
  intro s hw
  have hvals := State.keysFrom_vals hw
  refine ⟨fun x xs => ?_, rfl, fun h => ?_, fun r hr h => ?_, fun hr h => ?_, fun hm hrow h => ?_,
    fun a => ⟨rfl, fun _ => rfl, fun m hr hm => ?_⟩⟩
  · refine ⟨_, rfl, (State.ov_setOv hvals _ _ _).trans (if_pos rfl), rfl, Runs.frame (.comp (State.setMem_runs _ _ id) rfl
      ((State.setOv_runs ..).mono rfl))⟩
  · have hfacts := State.facts_gddrLost h
    have hmem : s.gddrLost.mem = s.mem.lost := by
      rw [State.gddrLost_eq h]
      exact (s.lostFault_runs _).same .mem rfl
    refine ⟨_, rfl, hmem, ?_, ?_, Flash.total_of_facts hfacts⟩
    · rw [Flash.service_of_facts hfacts]
      exact Flash.bit_flagged ..
    · rw [State.ov_gddrLost hvals h]
      exact bit_uncoveredStatus _
  · exact ⟨_, need_of rfl _, State.gddrTrained_eq hr h (some r)⟩
  · refine ⟨_, need_of rfl _, ?_, ?_⟩
    · rw [State.gddrTrained_eq hr h]
      exact (State.service_runs ..).same .mem rfl
    · rw [State.gddrTrained_eq hr h]
      exact State.bit_service ..
  · have heq : s.zeroed .passed = (s.setMem s.mem.zeroed).seqTo 5 := if_pos ⟨hm, hrow, h⟩
    refine ⟨_, need_of rfl _, ?_⟩
    rw [heq]
    exact ⟨fun _ => rfl, fun _ => rfl, rfl,
      Runs.frame (.comp (State.setPower_runs _ _ id) rfl ((State.setMem_runs s s.mem.zeroed fun h => Mem.wf_zeroed h rfl rfl rfl rfl).mono rfl))⟩
  · refine ⟨_, congrArg Host.Outcome.next (State.scrub_corrected hr hm), ?_, (State.setOv_runs ..).frame⟩
    rw [State.ov_bump hvals, if_pos rfl, satAdd, Nat.add_comm]

end Sys2Proof.Machine
end

