-- ==== Sys2Proof/Proofs/JournalWrites.lean ====
section
/-!
PROOF. JOURNAL_WRITE_DONE, POWER_LOSS and HOLD_UP_EXHAUSTED (R392 to R396, R486).
-/

namespace Sys2Proof.Machine

/-! The write in progress is committed and the next begins (R394). -/

theorem State.journalBegin_queue (s : State) : s.journalBegin.flash.queue = s.flash.queue := by
  unfold State.journalBegin
  split <;> rfl

theorem State.facts_versionDone (s : State) (r : JRec) : (s.versionDone r).flash.facts = s.flash.facts := rfl

/-- The contents of a record rest on what they name; the journal's queue and versions are not among it. -/
theorem State.jbody_congr {s t : State} (r : JRec) (hf : t.flash.facts = s.flash.facts) (hsched : t.sched = s.sched)
    (hmem : t.mem = s.mem) (hcaddy : t.caddy = s.caddy) (hobj : t.obj = s.obj) (hage : t.ageing = s.ageing) :
    t.jbody r = s.jbody r := by
  simp only [Flash.facts, Flash.mk.injEq] at hf
  obtain ⟨-, -, hlog, htotal, hspares, hstop, hpower, hservice, hack, -⟩ := hf
  cases r <;>
    simp only [State.jbody, State.ov, State.age, hsched, hmem, hcaddy, hobj, hage, hlog, htotal, hspares, hstop, hpower,
      hservice, hack]

/-- The versions of the records once one's new version is committed, which holds `body`. -/
def State.committed (s : State) (r : JRec) (body : JBody) : Tbl (JSlot × JSlot) :=
  let bytes := (Config.recordBody s.free).take 65536
  let seq := match current (s.slots r.key) with
    | some x => (x.seq + 1) % 2 ^ 32
    | none => 0
  tset (.erased, .erased) s.flash.recs r.key (withOther (s.slots r.key) ⟨jHeader r.id seq 0 bytes, bytes, body⟩)

/-- Flash with a POWER_LOSS_LOG. -/
def Flash.withPowerLog (f : Flash) (v : Nat) : Flash := { f with powerLog := v }

theorem Flash.recs_withPowerLog (f : Flash) (v : Nat) : (f.withPowerLog v).recs = f.recs := rfl

theorem State.recordDone_powerLog (s : State) (n : Nat) : s.recordDone (.powerLog n) = s.setFlash (s.flash.withPowerLog
    (s.power.lossTime % 2 ^ 64 + s.power.losing * 2 ^ 64 + n % 65536 * 2 ^ 80)) := rfl

theorem State.recs_recordDone (s : State) (r : JRec) : (s.recordDone r).flash.recs = s.flash.recs := by
  cases r with
  | powerLog n =>
    rw [State.recordDone_powerLog]
    exact Flash.recs_withPowerLog ..
  | _ => rfl

theorem State.recs_versionDone (s : State) (r : JRec) : (s.versionDone r).flash.recs = s.committed r (s.jbody r) := rfl

theorem State.committed_recordDone (s : State) (r : JRec) (body : JBody) :
    (s.recordDone r).committed r body = s.committed r body := by
  have hrecs := s.recs_recordDone r
  have hfree : (s.recordDone r).free = s.free := (s.recordDone_runs r).same .free rfl
  simp only [State.committed, State.slots, hrecs, hfree]

/-- The queue of journal writes is set. -/
def State.setQueue (s : State) (rs : List JRec) : State := s.setFlash { s.flash with queue := rs }

theorem State.facts_setQueue (s : State) (rs : List JRec) : (s.setQueue rs).flash.facts = s.flash.facts := rfl

theorem State.recs_setQueue (s : State) (rs : List JRec) : (s.setQueue rs).flash.recs = s.flash.recs := rfl

theorem State.queue_setQueue (s : State) (rs : List JRec) : (s.setQueue rs).flash.queue = rs := rfl

/-- The write in progress is done and leaves the queue. -/
def State.writeDone (s : State) (r : JRec) (rs : List JRec) : State := ((s.recordDone r).versionDone r).setQueue rs

theorem State.writeDone_runs (s : State) (r : JRec) (rs : List JRec) : Runs [.flash, .free] s (s.writeDone r rs) :=
  .comp (State.setFlash_runs ..) rfl (.comp (State.versionDone_runs ..) rfl ((State.recordDone_runs ..).mono rfl))

theorem State.facts_writeDone (s : State) (r : JRec) (rs : List JRec) :
    (s.writeDone r rs).flash.facts = (s.recordDone r).flash.facts :=
  (State.facts_setQueue ..).trans (State.facts_versionDone ..)

theorem State.recs_writeDone (s : State) (r : JRec) (rs : List JRec) :
    (s.writeDone r rs).flash.recs = s.committed r ((s.recordDone r).jbody r) :=
  (State.recs_setQueue ..).trans (((s.recordDone r).recs_versionDone r).trans (s.committed_recordDone r _))

theorem State.journalled_of_none {s : State} (h : s.caddy.deferred = []) : s.journalled = s := by
  rw [State.journalled, h]

theorem State.journalDone_eq {s : State} {r : JRec} {rs : List JRec} (hq : s.flash.queue = r :: rs)
    (hl : s.power.losing = 0) (hd : s.caddy.deferred = []) : s.journalDone = (s.writeDone r rs).journalBegin := by
  have hruns := s.writeDone_runs r rs
  have hpower : (s.writeDone r rs).power = s.power := hruns.same .power rfl
  have hcaddy : (s.writeDone r rs).caddy = s.caddy := hruns.same .caddy rfl
  have hbegun : (s.writeDone r rs).journalBegin.caddy = (s.writeDone r rs).caddy := (State.journalBegin_runs _).same .caddy rfl
  have hlosing : (s.writeDone r rs).power.losing = 0 := by rw [hpower, hl]
  have hdeferred : (s.writeDone r rs).journalBegin.caddy.deferred = [] := by rw [hbegun, hcaddy, hd]
  have hdone : s.journalDone = (if (s.writeDone r rs).power.losing ≠ 0 ∧ r.isLoss
      then (s.writeDone r rs).lossOver.journalBegin
      else if (s.writeDone r rs).power.losing = 0 ∨ rs.any JRec.isLoss then (s.writeDone r rs).journalBegin
      else s.writeDone r rs).journalled := by
    rw [State.journalDone, hq]
    rfl
  rw [hdone, if_neg (fun h => h.1 hlosing), if_pos (.inl hlosing), State.journalled_of_none hdeferred]

theorem State.recs_journalBegin_of_empty {s : State} (h : s.flash.queue = []) : s.journalBegin.flash.recs = s.flash.recs := by
  rw [State.journalBegin, h]

theorem State.recs_journalBegin_of_cons {s : State} {q : JRec} {qs : List JRec} (h : s.flash.queue = q :: qs) :
    s.journalBegin.flash.recs =
      tset (.erased, .erased) s.flash.recs q.key (withOther (tget (.erased, .erased) s.flash.recs q.key) .erased) := by
  rw [State.journalBegin, h]
  rfl

/-! What follows from a committed write, by the record written. -/

/-! A loss of power drops the fault records, and no other write starts (R395). -/

/-- An operation that leaves power alone and, in a power-loss sequence, the journal's queue too. -/
structure LossKept (s t : State) : Prop where
  power : t.power = s.power
  queue : s.power.losing ≠ 0 → t.flash.queue = s.flash.queue

theorem LossKept.refl (s : State) : LossKept s s := ⟨rfl, fun _ => rfl⟩

theorem LossKept.comp {s t u : State} (k : LossKept t u) (h : LossKept s t) : LossKept s u :=
  ⟨k.power.trans h.power, fun hl => (k.queue (by rwa [h.power])).trans (h.queue hl)⟩

theorem LossKept.foldl {α : Type} {f : State → α → State} (hf : ∀ s x, LossKept s (f s x)) (xs : List α) (s : State) :
    LossKept s (xs.foldl f s) := by
  induction xs generalizing s with
  | nil => exact .refl s
  | cons x xs ih => exact .comp (ih _) (hf s x)

theorem LossKept.ite {c : Prop} [Decidable c] {s t u : State} (h : LossKept s t) (k : LossKept s u) :
    LossKept s (if c then t else u) := by
  split
  · exact h
  · exact k

theorem LossKept.of_same {s t : State} (hp : t.power = s.power) (hf : t.flash = s.flash) : LossKept s t :=
  ⟨hp, fun _ => by rw [hf]⟩

theorem LossKept.of_runs {L : List Part} {s t : State} (h : Runs L s t) (hp : L.contains .power = false)
    (hf : L.contains .flash = false) : LossKept s t := .of_same (h.same .power hp) (h.same .flash hf)

theorem LossKept.modOv (s : State) (id : Nat) (f : Nat → Nat) : LossKept s (s.modOv id f) := .of_same rfl rfl

theorem LossKept.setHost (s : State) (x : HostIf) : LossKept s (s.setHost x) := .of_same rfl rfl

theorem LossKept.faultRec (s : State) (t code unit dur : Nat) : LossKept s (s.faultRec t code unit dur) := by
  refine ⟨(State.faultRec_runs ..).same .power rfl, fun hl => ?_⟩
  have hjournal : ∀ r : JRec, r.isFault = true → s.journal r = s := fun r hr => if_pos ⟨hl, hr⟩
  unfold State.faultRec
  simp only [hjournal (.fault _) rfl, ite_self]
  rfl

theorem LossKept.uncovered (s : State) (code unit : Nat) (ctxs : List Nat) : LossKept s (s.uncovered code unit ctxs) :=
  .comp (.of_runs (State.latchAll_runs _ ctxs 2) rfl rfl) (.comp (.modOv ..) (.faultRec ..))

theorem LossKept.notice388 (s : State) (code : Nat) (p : Packet) : LossKept s (s.notice388 code p) := by
  unfold State.notice388
  exact .ite (.refl s) (.comp (.of_runs (State.send_runs ..) rfl rfl) ⟨rfl, fun _ => rfl⟩)

theorem LossKept.linkDrop (s : State) (l : Nat) (p : Packet) : LossKept s (s.linkDrop l p) :=
  .comp (.notice388 ..) (.modOv ..)

theorem LossKept.linkFall (s : State) (l : Nat) : LossKept s (s.linkFall l) := by
  unfold State.linkFall
  refine .ite (.refl s) (.comp (.foldl (fun s (o : OutPkt) => .linkDrop s l o.pkt) _ _) ?_)
  have hwhole : LossKept s ((wholePackets (s.link l).rx (s.link l).rx.length).foldl (fun s p => s.inject l p)
      (s.setLink l (s.link l).fall)) :=
    .comp (.foldl (fun s p => .of_runs (State.inject_runs s l p) rfl rfl) _ _) (.of_same rfl rfl)
  exact .ite (.comp (.uncovered ..) hwhole) hwhole

theorem LossKept.mainFalls (s : State) : LossKept s s.mainFalls :=
  .comp (.setHost ..) (.comp (.foldl (fun s l => .linkFall s l) _ _) (.ite (.refl s) (.uncovered ..)))

theorem State.queue_mainOff {s : State} (h : s.power.losing ≠ 0) : s.mainOff.flash.queue = s.flash.queue := by
  have hflash : s.mainOff.flash = s.mainFalls.mainLoss.flash := s.mainOff_runs_after_loss.same .flash rfl
  have hloss : ∀ t : State, t.mainLoss.flash = t.flash := fun _ => rfl
  rw [hflash, hloss, (LossKept.mainFalls s).queue h]

theorem State.memByte_mainOff (s : State) (a : Nat) : s.mainOff.memByte a = 0 := by
  have hmem : s.mainOff.mem = s.mainFalls.mainLoss.mem := s.mainOff_runs_after_loss.same .mem rfl
  have hloss : ∀ t : State, t.mainLoss.mem.bytes = [] := fun _ => rfl
  rw [State.memByte, hmem, hloss, tget_nil]

/-! The sequence of a loss of power (R395). -/

/-- Power as a loss is detected. -/
def Power.losingFrom (x : Power) (b time : Nat) : Power := { x with halted := true, losing := x.losing ||| b, lossTime := time }

/-- RECORD_ID of the write in progress, as POWER_LOSS_LOG gives it. -/
def lossId : List JRec → Nat
  | r :: _ => r.id
  | [] => 0xFFFF

/-- What the journal still writes: the write in progress, POWER_LOSS_LOG, and later what is no fault record. -/
def lossQueue (q : List JRec) : List JRec :=
  q.take 1 ++ [.powerLog (lossId (q.take 1))] ++ (q.drop 1).filter (fun r => !r.isFault)

/-- The loss is noted: no tile is accepted and FAULT# is asserted. -/
def State.lossNoted (s : State) (b : Nat) : State :=
  let s := s.setPower (s.power.losingFrom b (s.ftRead mgmtPs))
  s.setOut { s.out with faultPin := true }

theorem State.lossBegins_eq {s : State} (h : s.power.losing = 0) (b : Nat) :
    s.lossBegins b = if s.flash.queue.take 1 = [] then ((s.lossNoted b).setQueue (lossQueue s.flash.queue)).journalBegin
      else (s.lossNoted b).setQueue (lossQueue s.flash.queue) := by
  have hfirst : (s.power.losing == 0) = true := by rw [h]; rfl
  unfold State.lossBegins
  rw [hfirst]
  rfl

theorem State.queue_lossBegins {s : State} (h : s.power.losing = 0) (b : Nat) :
    (s.lossBegins b).flash.queue = lossQueue s.flash.queue := by
  rw [State.lossBegins_eq h]
  split
  · rw [State.journalBegin_queue, State.queue_setQueue]
  · rw [State.queue_setQueue]

/-- After the loss is noted only the journal is touched. -/
theorem State.lossBegins_runs_after {s : State} (h : s.power.losing = 0) (b : Nat) :
    Runs [.flash] (s.lossNoted b) (s.lossBegins b) := by
  rw [State.lossBegins_eq h]
  exact .ite (fun _ => .comp (State.journalBegin_runs _) rfl (State.setFlash_runs ..)) fun _ => State.setFlash_runs ..

theorem State.power_lossBegins {s : State} (h : s.power.losing = 0) (b : Nat) :
    (s.lossBegins b).power = s.power.losingFrom b (s.ftRead mgmtPs) := (State.lossBegins_runs_after h b).same .power rfl

theorem State.faultPin_lossBegins {s : State} (h : s.power.losing = 0) (b : Nat) : (s.lossBegins b).out.faultPin = true := by
  have hout : (s.lossBegins b).out = (s.lossNoted b).out := (State.lossBegins_runs_after h b).same .out rfl
  rw [hout]
  rfl

/-- 50 V is gone. -/
def State.p50vGone (s : State) : State := s.setPins { s.pins with p50v := false }

/-- The main domain is switched off. -/
def Power.switchedOff (x : Power) : Power := { x with main := .off }
def State.switchOff (s : State) : State := s.setPower s.power.switchedOff

theorem State.power_switchOff (s : State) : s.switchOff.power = s.power.switchedOff := rfl

theorem State.switchOff_runs (s : State) : Runs [.power] s s.switchOff := State.setPower_runs _ _ id

theorem Power.switchedOff_mainGone (x : Power) : x.mainGone.switchedOff = x.mainGone := rfl

theorem State.powerLoss_eq {s : State} (hr : s.power.rails = true) (hl : s.power.losing = 0) (hs : s.power.standby = true)
    (hm : s.power.main ≠ .stopped) : s.powerLoss .p50v = (s.p50vGone.lossBegins 1).mainOff.switchOff := by
  have hpower : (s.p50vGone.lossBegins 1).power.main ≠ .stopped := by
    rw [State.power_lossBegins (s := s.p50vGone) hl]
    exact hm
  have hstopped : ((s.p50vGone.lossBegins 1).power.main == .stopped) = false := beq_eq_false_iff_ne.mpr hpower
  have hon : (s.power.rails || s.power.main == .sequencing) = true := by rw [hr]; rfl
  have hloss : s.powerLoss .p50v = if s.power.standby = false then s.p50vGone else
      (if (s.power.rails || s.power.main == .sequencing) = true then (s.p50vGone.lossBegins 1).mainOff
        else s.p50vGone.lossBegins 1).setPower { (if (s.power.rails || s.power.main == .sequencing) = true
          then (s.p50vGone.lossBegins 1).mainOff else s.p50vGone.lossBegins 1).power with
        main := if ((s.p50vGone.lossBegins 1).power.main == .stopped) = true then .stopped else .off } := rfl
  rw [hloss, if_neg (by simp [hs]), if_pos hon, hstopped]
  rfl

/-- The module once the loss of its 50 V has switched the main domain off. -/
theorem State.switchOff_of_loss {s : State} (hl : s.power.losing = 0) :
    let t := (s.p50vGone.lossBegins 1).mainOff.switchOff
    t.power = (s.power.losingFrom 1 (s.ftRead mgmtPs)).mainGone ∧ t.flash.queue = lossQueue s.flash.queue ∧
      t.out.faultPin = true ∧ (∀ a, t.memByte a = 0) ∧ t.pins.p50v = false := by
  have hgone : s.p50vGone.power.losing = 0 := hl
  have hpower := State.power_lossBegins hgone 1
  have hlosing : (s.p50vGone.lossBegins 1).power.losing ≠ 0 := by
    rw [hpower]
    exact (congrArg (· ||| 1) hl).trans_ne (by decide)
  generalize hu : s.p50vGone.lossBegins 1 = u at hpower hlosing
  have hpins : u.pins = s.p50vGone.pins := by
    rw [← hu]
    exact (State.lossBegins_runs _ 1).same .pins rfl
  have hpin : u.out.faultPin = true := by
    rw [← hu]
    exact State.faultPin_lossBegins hgone 1
  have hqueue : u.flash.queue = lossQueue s.flash.queue := by
    rw [← hu]
    exact State.queue_lossBegins hgone 1
  have hoff : u.mainOff.pins = u.pins := (State.mainOff_runs u).same .pins rfl
  have hswitch : Runs [.power] u.mainOff u.mainOff.switchOff := u.mainOff.switchOff_runs
  refine ⟨?_, ?_, ?_, fun a => ?_, ?_⟩
  · rw [State.power_switchOff, State.power_mainOff, hpower, Power.switchedOff_mainGone]
    rfl
  · rw [show State.flash _ = _ from hswitch.same .flash rfl, State.queue_mainOff hlosing, hqueue]
  · rw [show State.out _ = _ from hswitch.same .out rfl, State.faultPin_mainOff, hpin]
  · rw [State.memByte, show State.mem _ = _ from hswitch.same .mem rfl]
    exact u.memByte_mainOff a
  · rw [show State.pins _ = _ from hswitch.same .pins rfl, hoff, hpins]
    rfl

/-! HOLD_UP_EXHAUSTED: the standby domain starts again from what the records hold (R394 to R396, R486). -/

/-- What of the caddy no record holds: whether it is ready and has booted, its sessions and its owner. -/
def Caddy.standing (x : Caddy) : Bool × Bool × Tbl Session × Option Owner := (x.ready, x.booted, x.sessions, x.owner)

/-- The journal itself, and the caddy's standing. -/
def State.journalOf (s : State) : List JRec × Tbl (JSlot × JSlot) × Bool × Bool × Tbl Session × Option Owner :=
  (s.flash.queue, s.flash.recs, s.caddy.standing)

/-- The fault log and its count. -/
def State.faultLog (s : State) : List (List Byte) × Nat := (s.flash.log, s.flash.total)

/-- The service flags and their acknowledgements. -/
def State.flags (s : State) : Nat × Nat := (s.flash.service, s.flash.ack)

/-- What a record's contents hold of the fault log, and of the service flags. -/
def JBody.logOf : JBody → Option (List (List Byte) × Nat)
  | .log l n => some (l, n)
  | _ => Option.none
def JBody.flagsOf : JBody → Option (Nat × Nat)
  | .service f a => some (f, a)
  | _ => Option.none

/-- One unit's plan is restored. -/
def State.restorePlan (s : State) (p : Tbl Nat × Nat) : State :=
  s.modAge p.2 (fun a => { a with plan := p.1, raise := none })

theorem State.journalOf_restore (s : State) (k : Nat) (b : JBody) : (s.restore k b).journalOf = s.journalOf := by
  cases b with
  | plan xs => exact foldl_keeps (g := State.journalOf) (f := State.restorePlan) (fun _ _ => rfl) xs.zipIdx s
  | _ => rfl

/-- One record is restored. -/
def State.restoreRec (s : State) (p : Nat × JSlot × JSlot) : State :=
  match current p.2 with
  | some x => s.restore p.1 x.body
  | none => s

theorem State.restoreAll_eq (s : State) : s.restoreAll = s.flash.recs.foldl State.restoreRec s := rfl

theorem State.journalOf_restoreRec (s : State) (p : Nat × JSlot × JSlot) : (s.restoreRec p).journalOf = s.journalOf := by
  unfold State.restoreRec
  split
  · exact s.journalOf_restore ..
  · rfl

/-- What `g` reads is restored from the records whose contents `sel` selects, and from no other. -/
structure Restores {β : Type} (g : State → β) (sel : JBody → Option β) : Prop where
  hit : ∀ (s : State) k b v, sel b = some v → g (s.restore k b) = v
  miss : ∀ (s : State) k b, sel b = none → g (s.restore k b) = g s

theorem Restores.faultLog : Restores State.faultLog JBody.logOf where
  hit s k b v h := by
    cases b with
    | log l n => exact Option.some.inj h
    | _ => cases h
  miss s k b h := by
    cases b with
    | log l n => cases h
    | plan xs => exact foldl_keeps (g := State.faultLog) (f := State.restorePlan) (fun _ _ => rfl) xs.zipIdx s
    | _ => rfl

theorem Restores.flags : Restores State.flags JBody.flagsOf where
  hit s k b v h := by
    cases b with
    | service f a => exact Option.some.inj h
    | _ => cases h
  miss s k b h := by
    cases b with
    | service f a => cases h
    | plan xs => exact foldl_keeps (g := State.flags) (f := State.restorePlan) (fun _ _ => rfl) xs.zipIdx s
    | _ => rfl

section
variable {β : Type} {g : State → β} {sel : JBody → Option β} (h : Restores g sel) {v : β}

/-- Every record that is selected holds this value. -/
def OnlyHolds (sel : JBody → Option β) (v : β) (ps : List (Nat × JSlot × JSlot)) : Prop :=
  ∀ p ∈ ps, ∀ x, current p.2 = some x → ∀ w, sel x.body = some w → w = v

theorem OnlyHolds.tail {p : Nat × JSlot × JSlot} {ps : List (Nat × JSlot × JSlot)} (hv : OnlyHolds sel v (p :: ps)) :
    OnlyHolds sel v ps := fun q hq => hv q (List.mem_cons_of_mem p hq)

include h

theorem Restores.restoreRec {p : Nat × JSlot × JSlot} (hv : ∀ x, current p.2 = some x → ∀ w, sel x.body = some w → w = v)
    {s : State} (hs : g s = v) : g (s.restoreRec p) = v := by
  unfold State.restoreRec
  split
  case h_1 x hx =>
    cases hb : sel x.body with
    | some w => rw [h.hit s _ _ w hb, hv x hx w hb]
    | none => rw [h.miss s _ _ hb, hs]
  case h_2 => exact hs

theorem Restores.foldl {ps : List (Nat × JSlot × JSlot)} (hv : OnlyHolds sel v ps) {s : State} (hs : g s = v) :
    g (ps.foldl State.restoreRec s) = v := by
  induction ps generalizing s with
  | nil => exact hs
  | cons p ps ih => exact ih hv.tail (h.restoreRec (hv p (List.mem_cons_self ..)) hs)

theorem Restores.of_mem {ps : List (Nat × JSlot × JSlot)} (hv : OnlyHolds sel v ps) {q : Nat × JSlot × JSlot} (hq : q ∈ ps)
    {x : JSlot} (hx : current q.2 = some x) (hb : sel x.body = some v) (s : State) :
    g (ps.foldl State.restoreRec s) = v := by
  induction ps generalizing s with
  | nil => cases hq
  | cons p ps ih =>
    rcases List.mem_cons.mp hq with rfl | hq
    · refine h.foldl hv.tail ?_
      simp only [State.restoreRec, hx]
      exact h.hit _ _ _ _ hb
    · exact ih hv.tail hq _

end

theorem State.standbyOn_runs_after (s : State) :
    Runs [.sched, .mem, .caddy, .obj, .flash, .ageing, .links, .ft, .host] s.standbyCold s.standbyOn :=
  .comp (State.afterRestore_runs _) rfl (.comp (State.recordedLasers_runs _) rfl ((State.restoreAll_runs _).mono rfl))

/-- After the records are restored the flash and the caddy are not touched. -/
theorem State.standbyOn_runs_after_restore (s : State) : Runs [.links, .ft, .host] s.standbyCold.restoreAll s.standbyOn :=
  .comp (State.afterRestore_runs _) rfl ((State.recordedLasers_runs _).mono rfl)

theorem State.flash_standbyOn (s : State) : s.standbyOn.flash = (s.flash.recs.foldl State.restoreRec s.standbyCold).flash := by
  have hflash : s.standbyOn.flash = s.standbyCold.restoreAll.flash := s.standbyOn_runs_after_restore.same .flash rfl
  have hrecs : s.standbyCold.flash.recs = s.flash.recs := rfl
  rw [hflash, State.restoreAll_eq, hrecs]

theorem State.journalOf_standbyOn (s : State) : s.standbyOn.journalOf = ([], s.flash.recs, false, false, [], none) := by
  have hflash := s.flash_standbyOn
  have hcaddy : s.standbyOn.caddy = s.standbyCold.restoreAll.caddy := s.standbyOn_runs_after_restore.same .caddy rfl
  have hcold : s.standbyCold.journalOf = ([], s.flash.recs, false, false, [], none) := rfl
  have hrest : (s.flash.recs.foldl State.restoreRec s.standbyCold).journalOf = s.standbyCold.journalOf :=
    foldl_keeps (g := State.journalOf) State.journalOf_restoreRec _ _
  have hrecs : s.standbyCold.flash.recs = s.flash.recs := rfl
  rw [State.journalOf, hflash, hcaddy, State.restoreAll_eq, hrecs]
  exact hrest.trans hcold

/-- Where one record alone holds a fault log, the log after the start of the standby domain is that one. -/
theorem State.faultLog_standbyOn {s : State} {q : Nat × JSlot × JSlot} {x : JSlot} {l : List (List Byte)} {n : Nat}
    (hq : q ∈ s.flash.recs) (hx : current q.2 = some x) (hb : x.body = .log l n)
    (hone : ∀ p ∈ s.flash.recs, ∀ y, current p.2 = some y → (∃ m k, y.body = .log m k) → p = q) :
    s.standbyOn.flash.log = l ∧ s.standbyOn.flash.total = n := by
  have hv : OnlyHolds JBody.logOf (l, n) s.flash.recs := fun p hp y hy w hw => by
    cases hy' : y.body with
    | log m k =>
      cases hone p hp y hy ⟨m, k, hy'⟩
      cases hx.symm.trans hy
      rw [hb] at hw
      exact (Option.some.inj hw).symm
    | _ => rw [hy'] at hw; cases hw
  have hfound := Restores.faultLog.of_mem hv hq hx (by rw [hb]; rfl) s.standbyCold
  simp only [State.faultLog, Prod.mk.injEq] at hfound
  rwa [s.flash_standbyOn]

/-- Where one record alone holds service flags, they are those after the start of the standby domain. -/
theorem State.flags_standbyOn {s : State} {q : Nat × JSlot × JSlot} {x : JSlot} {f a : Nat}
    (hq : q ∈ s.flash.recs) (hx : current q.2 = some x) (hb : x.body = .service f a)
    (hone : ∀ p ∈ s.flash.recs, ∀ y, current p.2 = some y → (∃ g b, y.body = .service g b) → p = q) :
    s.standbyOn.flash.service = f ∧ s.standbyOn.flash.ack = a := by
  have hv : OnlyHolds JBody.flagsOf (f, a) s.flash.recs := fun p hp y hy w hw => by
    cases hy' : y.body with
    | service m k =>
      cases hone p hp y hy ⟨m, k, hy'⟩
      cases hx.symm.trans hy
      rw [hb] at hw
      exact (Option.some.inj hw).symm
    | _ => rw [hy'] at hw; cases hw
  have hfound := Restores.flags.of_mem hv hq hx (by rw [hb]; rfl) s.standbyCold
  simp only [State.flags, Prod.mk.injEq] at hfound
  rwa [s.flash_standbyOn]

/-- 5 V is gone, and the standby domain with it. -/
def State.starved (s : State) : State :=
  (s.setPins { s.pins with p5v := false }).setPower { s.power with standby := false }

theorem State.holdUpEnd_eq {s : State} (h : s.pins.p5v = false) : s.holdUpEnd = s.standbyOn.starved := if_pos h

theorem State.starved_runs (s : State) : Runs [.pins, .power] s s.starved :=
  .comp (State.setPower_runs _ _ id) rfl ((State.setPins_runs ..).mono rfl)

theorem State.main_starved (s : State) : s.starved.power.main = s.power.main := rfl

theorem State.p5v_starved (s : State) : s.starved.pins.p5v = false := rfl

/-- Settles O16. -/
theorem journalAndPowerLoss : Obligations.JournalAndPowerLoss := by
  intro s hw
  refine ⟨fun r rs hq hl hd => ?_, fun hr hl hs hm => ?_, fun h => ?_⟩
  · have hruns : Runs [.flash, .free] s (s.writeDone r rs).journalBegin :=
      .comp (State.journalBegin_runs _) rfl (s.writeDone_runs r rs)
    have hfacts : (s.writeDone r rs).journalBegin.flash.facts = (s.recordDone r).flash.facts :=
      (State.facts_journalBegin _).trans (s.facts_writeDone r rs)
    have hrecord := s.recordDone_runs r
    have hbody : (s.writeDone r rs).journalBegin.jbody r = (s.recordDone r).jbody r := by
      have hafter : Runs [.flash, .free] (s.recordDone r) (s.writeDone r rs).journalBegin :=
        .comp (State.journalBegin_runs _) rfl (.comp (State.setFlash_runs ..) rfl (State.versionDone_runs ..))
      exact State.jbody_congr r hfacts (hafter.same .sched rfl) (hafter.same .mem rfl) (hafter.same .caddy rfl)
        (hafter.same .obj rfl) (hafter.same .ageing rfl)
    have hqueue : (s.writeDone r rs).flash.queue = rs := State.queue_setQueue ..
    refine ⟨_, congrArg Host.Outcome.next (State.journalDone_eq hq hl hd), hruns.frame, ?_, ⟨fun h => ?_, fun q qs h => ?_⟩,
      ?_, ?_, ?_⟩
    · rw [State.journalBegin_queue, hqueue]
    · rw [State.recs_journalBegin_of_empty (hqueue.trans h), State.recs_writeDone, ← hbody]
      rfl
    · rw [State.recs_journalBegin_of_cons (hqueue.trans h), State.recs_writeDone, ← hbody]
      rfl
    · rintro b rfl
      exact Flash.log_of_facts hfacts
    · rintro c rfl
      exact Flash.stopCause_of_facts hfacts
    · rintro k u b rfl
      exact Flash.spares_of_facts hfacts
  · obtain ⟨hpower, hqueue, hpin, hbytes, hpins⟩ := State.switchOff_of_loss hl
    refine ⟨_, lossId (s.flash.queue.take 1), (s.flash.queue.drop 1).filter (fun r => !r.isFault),
      congrArg Host.Outcome.next (State.powerLoss_eq hr hl hs hm), ?_, ?_, ?_, ?_, ?_, hpins, hpin, hqueue, fun r hr => ?_,
      fun h => ?_, fun r rs h => ?_, hbytes⟩
    · rw [hpower]; rfl
    · rw [hpower]; rfl
    · rw [hpower]; rfl
    · rw [hpower]
      exact (congrArg (· ||| 1) hl).trans rfl
    · rw [hpower]; rfl
    · simpa using (List.mem_filter.mp hr).2
    · rw [h]; rfl
    · rw [h]; rfl
  · have hjournal := s.journalOf_standbyOn
    simp only [State.journalOf, Caddy.standing, Prod.mk.injEq] at hjournal
    obtain ⟨hqueue, hrecs, hready, -⟩ := hjournal
    have hafter := s.standbyOn_runs_after
    have hstarved := s.standbyOn.starved_runs
    have hflash : s.standbyOn.starved.flash = s.standbyOn.flash := hstarved.same .flash rfl
    have hcaddy : s.standbyOn.starved.caddy = s.standbyOn.caddy := hstarved.same .caddy rfl
    have hlast : s.standbyOn.starved.out = s.standbyOn.out := hstarved.same .out rfl
    have hout : s.standbyOn.starved.out = s.standbyCold.out := hlast.trans (hafter.same .out rfl)
    have hpower : s.standbyOn.power = s.standbyCold.power := hafter.same .power rfl
    refine ⟨_, congrArg Host.Outcome.next (State.holdUpEnd_eq h), ?_, ?_, fun q x l n hq hx hb hone => ?_,
      ?_, ?_, ?_, ?_, s.standbyOn.p5v_starved⟩
    · rw [hflash, hqueue]
    · rw [hflash, hrecs]
    · rw [hflash]
      exact State.faultLog_standbyOn hq hx hb hone
    · rw [hout]
      rfl
    · rw [hout]
      rfl
    · rw [State.main_starved, hpower]
      rfl
    · rw [hcaddy, hready]

end Sys2Proof.Machine
end

