-- ==== Sys2Proof/Proofs/PartFailures.lean ====
section
/-!
PROOF. Failures of cores, rail phases and management cores (R14, R25, R26, R125, R126, R385 to R387).
-/

namespace Sys2Proof.Machine

/-! A core's accepted tiles return to their lists (R125). -/

theorem mem_insertEntry {e x : Entry} {xs : List Entry} : x ∈ insertEntry e xs ↔ x = e ∨ x ∈ xs := by
  induction xs with
  | nil => simp [insertEntry]
  | cons y ys ih =>
    rw [insertEntry]
    split
    · exact List.mem_cons
    · simp only [List.mem_cons, ih]
      tauto

theorem State.twf_lists_enlist {s : State} (h : twf [] s.sched.lists = true) (e : Entry) :
    twf [] (s.enlist e).sched.lists = true := twf_tset _ _ _ h

theorem State.dieList_enlist {s : State} (h : twf [] s.sched.lists = true) (e : Entry) (d : Nat) :
    (s.enlist e).dieList d = if d = e.die then insertEntry e (s.dieList e.die) else s.dieList d :=
  State.dieList_setDieList (s := s.setSched _) h _ _ _

/-- The tiles return to their lists. -/
def State.relistAll (s : State) (ts : List Tile) : State := ts.foldl (fun s t => s.repost t.relist) s

theorem State.relistAll_runs (s : State) (ts : List Tile) : Runs [.sched] s (s.relistAll ts) :=
  .foldl (fun _ _ => State.repost_runs ..) _ (.refl s)

theorem State.mem_dieList_relistAll {s : State} (h : twf [] s.sched.lists = true) (ts : List Tile) :
    (∀ d, ∀ e ∈ s.dieList d, e ∈ (s.relistAll ts).dieList d) ∧ ∀ x ∈ ts, x.relist ∈ (s.relistAll ts).dieList x.die := by
  induction ts generalizing s with
  | nil => exact ⟨fun _ _ he => he, fun _ hx => absurd hx List.not_mem_nil⟩
  | cons t ts ih =>
    obtain ⟨hkept, hlisted⟩ := ih (s := s.enlist t.relist) (s.twf_lists_enlist h _)
    refine ⟨fun d e he => hkept d e ?_, fun x hx => ?_⟩
    · rw [State.dieList_enlist h]
      split
      case isTrue hd => exact mem_insertEntry.mpr (.inr (hd ▸ he))
      case isFalse => exact he
    · rcases List.mem_cons.mp hx with rfl | hx
      · refine hkept _ _ ?_
        rw [State.dieList_enlist h, if_pos (show x.die = x.relist.die from rfl)]
        exact mem_insertEntry.mpr (.inl rfl)
      · exact hlisted x hx

/-- The core map, the spares that are used up and the takeovers that wait. -/
def Sched.places (x : Sched) : Tbl Nat × List Nat × List Nat × List Nat := (x.pos, x.offline, x.dead, x.takeovers)

theorem State.places_relistAll (s : State) (ts : List Tile) : (s.relistAll ts).sched.places = s.sched.places :=
  foldl_keeps (g := fun s : State => s.sched.places) (f := fun s (t : Tile) => s.repost t.relist) (fun _ _ => rfl) ts s

theorem State.spares_congr {s t : State} (h : t.sched.places = s.sched.places) (d : Nat) : t.spares d = s.spares d := by
  simp only [Sched.places, Prod.mk.injEq] at h
  obtain ⟨hpos, -, hdead, -⟩ := h
  simp only [State.spares, State.posOf, hpos, hdead]

/-- A core without the tiles that it had accepted. -/
def Core.emptied (c : Core) : Core := { c with tiles := [] }

/-- A failed core: what is in it is lost, and it is fenced. -/
def Core.failed (c : Core) (clk : Nat) : Core := { c.taken clk with fenced := true }

/-- The core's tiles have returned to their lists. -/
def State.withdrawn (s : State) (n : Nat) : State := (s.setCore n (s.core n).emptied).relistAll (s.core n).onCore

/-- What else the fabric and the reduction units held for the core is forgotten. -/
theorem State.withdrawTiles_runs_after (s : State) (n : Nat) : Runs [.fab, .red] (s.withdrawn n) (s.withdrawTiles n) :=
  .comp (State.setRed_runs _ _ id) rfl ((State.setFab_runs ..).mono rfl)

theorem State.places_withdrawTiles (s : State) (n : Nat) : (s.withdrawTiles n).sched.places = s.sched.places := by
  have hsched : (s.withdrawTiles n).sched = (s.withdrawn n).sched := (s.withdrawTiles_runs_after n).same .sched rfl
  rw [hsched, State.withdrawn, State.places_relistAll]
  rfl

theorem State.cores_withdrawTiles (s : State) (n : Nat) :
    (s.withdrawTiles n).cores = (s.setCore n (s.core n).emptied).cores := by
  have hafter : (s.withdrawTiles n).cores = (s.withdrawn n).cores := (s.withdrawTiles_runs_after n).same .cores rfl
  have hlists : (s.withdrawn n).cores = (s.setCore n (s.core n).emptied).cores := (State.relistAll_runs ..).same .cores rfl
  rw [hafter, hlists]

/-- The core is fenced once its tiles have returned to their lists. -/
def State.fencedCore (s : State) (n : Nat) : State :=
  (s.withdrawTiles n).setCore n (((s.withdrawTiles n).core n).failed s.clk)

theorem State.core_fencedCore {s : State} (h : twf .init s.cores = true) (n m : Nat) :
    (s.fencedCore n).core m = if m = n then (s.core n).emptied.failed s.clk else s.core m := by
  have hcores := s.cores_withdrawTiles n
  have hset : twf .init (s.withdrawTiles n).cores = true := by
    rw [hcores]
    exact twf_tset _ _ _ h
  rw [State.fencedCore, State.core_setCore hset, State.core_congr hcores, State.core_congr hcores, State.core_setCore h,
    State.core_setCore h, if_pos rfl]
  split_ifs <;> rfl

theorem State.mem_dieList_fencedCore {s : State} (h : twf [] s.sched.lists = true) {n : Nat} {x : Tile}
    (hx : x ∈ (s.core n).tiles) : x.relist ∈ (s.fencedCore n).dieList x.die := by
  have hsched : (s.fencedCore n).sched = (s.withdrawn n).sched := (s.withdrawTiles_runs_after n).same .sched rfl
  rw [State.dieList_congr hsched]
  exact (State.mem_dieList_relistAll (s := s.setCore n (s.core n).emptied) h _).2 x (List.mem_append_left _ hx)

theorem State.places_fencedCore (s : State) (n : Nat) : (s.fencedCore n).sched.places = s.sched.places :=
  s.places_withdrawTiles n

/-- A takeover more waits. -/
def Sched.awaiting (x : Sched) (n : Nat) : Sched := { x with takeovers := x.takeovers ++ [n] }

theorem State.coreFail_eq {s : State} {n : Nat} (hr : s.power.rails = true) (hf : (s.core n).fenced = false)
    (ho : s.sched.offline.contains n = false) :
    s.coreFail n =
      if s.sched.takeovers.any (fun m => m / 64 == n / 64) = false ∧ (s.fencedCore n).spares (n / 64) = [] then
        (s.fencedCore n).coreLost n (s.failCtxs n)
      else if s.stateful n then
        ((s.fencedCore n).setSched ((s.fencedCore n).sched.awaiting n)).uncovered 0x10 n (s.failCtxs n)
      else ((s.fencedCore n).setSched ((s.fencedCore n).sched.awaiting n)).covered 3 n :=
  if_neg (not_or.mpr ⟨by rw [hr]; decide, not_or.mpr ⟨by rw [hf]; decide, by rw [ho]; decide⟩⟩)

/-- A failed core is fenced and holds no tile. -/
theorem State.core_coreFail {s : State} (h : twf .init s.cores = true) {n : Nat} (hr : s.power.rails = true)
    (hf : (s.core n).fenced = false) (ho : s.sched.offline.contains n = false) :
    ((s.coreFail n).core n).fenced = true ∧ ((s.coreFail n).core n).tiles = [] := by
  have hcore : (s.fencedCore n).core n = (s.core n).emptied.failed s.clk := (State.core_fencedCore h n n).trans (if_pos rfl)
  rw [State.coreFail_eq hr hf ho]
  split_ifs
  · have hlost : ((s.fencedCore n).coreLost n (s.failCtxs n)).cores =
        ((s.fencedCore n).setCore n (((s.fencedCore n).core n).failed (s.fencedCore n).clk)).cores :=
      (Runs.comp (State.uncovered_runs ..) rfl ((State.substitute_runs ..).mono rfl) :
        Runs [.sched, .router, .host, .flash, .out, .steps, .obj] _ ((s.fencedCore n).coreLost n (s.failCtxs n))).same .cores rfl
    have hset : twf .init (s.fencedCore n).cores = true := by
      have hcores := s.cores_withdrawTiles n
      refine twf_tset _ _ _ ?_
      rw [hcores]
      exact twf_tset _ _ _ h
    rw [State.core_congr hlost, State.core_setCore hset, if_pos rfl]
    exact ⟨rfl, rfl⟩
  · rw [State.core_congr ((State.uncovered_runs ..).same .cores rfl)]
    exact hcore ▸ ⟨rfl, rfl⟩
  · rw [State.core_congr ((State.covered_runs ..).same .cores rfl)]
    exact hcore ▸ ⟨rfl, rfl⟩

theorem bit_one_or (v : Nat) : bit (1 ||| v) 0 = true := by
  rw [bit_eq_testBit, Nat.testBit_or, show Nat.testBit 1 0 = true from rfl, Bool.true_or]

/-! A takeover ends on the lowest healthy spare (R14, R125). -/

/-- A core number stands at a spare position, and its old position is used up. -/
def Sched.spared (x : Sched) (n p old : Nat) : Sched := { x with pos := tset (n % 64) x.pos n p, dead := x.dead ++ [old] }

theorem State.sched_substitute {s : State} {n p : Nat} {ps : List Nat} (h : s.spares (n / 64) = p :: ps) :
    (s.substitute n).sched = s.sched.spared n p (posKey (n / 64) (s.posOf n)) := by
  have hnotes : ∀ t : State, (if ps.length ≤ 1 then (t.journal .coreMap).service 0 else t.journal .coreMap).sched = t.sched :=
    fun t => (Runs.ite (fun _ => .comp (State.service_runs ..) rfl ((State.journal_runs ..).mono rfl))
      (fun _ => (State.journal_runs ..).mono rfl) : Runs [.router, .host, .flash, .out] t _).same .sched rfl
  unfold State.substitute
  dsimp only
  rw [h]
  exact hnotes _

theorem State.posOf_substitute {s : State} {n p : Nat} {ps : List Nat} (h : s.spares (n / 64) = p :: ps) (hp : p ≠ n % 64) :
    (s.substitute n).posOf n = p := by
  rw [State.posOf, State.sched_substitute h]
  exact (congrArg (fun t => tget (n % 64) t n) (if_neg hp)).trans (tget_tins_self ..)

/-- The takeover that was first on a die no longer waits. -/
def Sched.resolved (x : Sched) (n : Nat) : Sched := { x with takeovers := x.takeovers.filter (· != n) }

/-- A core that works again. -/
def Core.woken (c : Core) : Core := { c with fenced := false, wake := true }

/-- The first takeover of a die ends on its spare. -/
def State.takenOver (s : State) (n : Nat) : State := ((s.setSched (s.sched.resolved n)).modCore n Core.woken).substitute n

theorem State.spareReady_eq {s : State} {d n : Nat} (h : s.sched.takeovers = [n]) (hn : n / 64 = d) :
    s.spareReady d = (s.takenOver n).nextTakeover d := by
  have hfirst : (s.sched.takeovers.filter (fun n => n / 64 == d)).head? = some n := by simp [h, hn]
  rw [State.spareReady, hfirst]
  rfl

theorem State.nextTakeover_of_none {s : State} (h : s.sched.takeovers = []) (d : Nat) : s.nextTakeover d = s := by
  unfold State.nextTakeover
  rw [h]
  exact ite_self _

theorem State.fenced_takenOver {s : State} (h : twf .init s.cores = true) (n : Nat) :
    ((s.takenOver n).core n).fenced = false := by
  have hcores : (s.takenOver n).cores = ((s.setSched (s.sched.resolved n)).modCore n Core.woken).cores :=
    (State.substitute_runs ..).same .cores rfl
  rw [State.core_congr hcores, State.modCore_eq, State.core_setCore (s := s.setSched (s.sched.resolved n)) h,
    if_pos rfl]
  rfl

/-! Rail phases and the management cores (R25, R26, R386, R387). -/

/-- A phase of a rail is lost. -/
def Power.phaseLost (x : Power) (i : Nat) : Power := { x with phases := tset 0 x.phases i (tget 0 x.phases i + 1) }

theorem Power.wf_phaseLost {x : Power} (h : x.wf = true) (i : Nat) : (x.phaseLost i).wf = true := by
  exact twf_tset 0 i (tget 0 x.phases i + 1) h

theorem State.phaseLoss_eq (s : State) (r : Rail) : s.phaseLoss r =
    if tget 0 s.power.phases (Rail.index r) + 1 ≤ sparePhases (Rail.index r) then
      (((s.setPower (s.power.phaseLost (Rail.index r))).covered 6 (Rail.index r)).journal (.spare 3 (Rail.index r) 0)).service 5
    else (s.setPower (s.power.phaseLost (Rail.index r))).service 4 := rfl

theorem State.setPhaseLost_runs (s : State) (i : Nat) : Runs [.power] s (s.setPower (s.power.phaseLost i)) :=
  State.setPower_runs _ _ fun h => Power.wf_phaseLost h i

/-- M1 acts in the place of M0. -/
def Caddy.takenOver (x : Caddy) : Caddy := { x with m0 := false, m1Active := true }

theorem State.takeover_eq {s : State} (h0 : s.caddy.m0 = true) (h1 : s.caddy.m1 = true) (ha : s.caddy.m1Active = false) :
    s.takeover = ((((s.setCaddy s.caddy.takenOver).covered 5 0).journal (.spare 4 0 1)).service 6).event 5 0 :=
  if_pos ⟨h0, h1, ha⟩

/-- A covered fault, then a journal write and a service flag. -/
theorem State.coveredFlag {s : State} (hv : keysFrom none s.obj.vals = true) (code unit b : Nat) (r : JRec) :
    bit ((((s.covered code unit).journal r).service b).flash.service) b = true ∧
      bit ((((s.covered code unit).journal r).service b).ov faultStatusId) 0 = true ∧
      Runs [.router, .host, .obj, .flash, .out, .free] s (((s.covered code unit).journal r).service b) := by
  have hobj : (((s.covered code unit).journal r).service b).obj = (s.covered code unit).obj :=
    (Runs.comp (State.service_runs ..) rfl ((State.journal_runs ..).mono rfl) :
      Runs [.router, .host, .flash, .out] (s.covered code unit) _).same .obj rfl
  refine ⟨State.bit_service .., ?_, .comp (State.service_runs ..) rfl (.comp (State.journal_runs ..) rfl
    ((State.covered_runs ..).mono rfl))⟩
  rw [State.ov_congr hobj, State.ov_covered hv, if_pos rfl]
  exact bit_one_or _

/-- Both management cores are lost. -/
def Caddy.m1Lost (x : Caddy) : Caddy := { x with m1 := false }
def Flash.managed (f : Flash) : Flash := { f with code17 := true }

theorem State.m1Fail_eq {s : State} (h1 : s.caddy.m1 = true) (ha : s.caddy.m1Active = true) :
    s.m1Fail = ((s.setCaddy s.caddy.m1Lost).setFlash s.flash.managed).uncovered 0x17 0 allCtx := by
  unfold State.m1Fail
  dsimp only
  rw [if_neg (by simp [h1])]
  exact if_pos ha

theorem Flash.code17_of_facts {f g : Flash} (h : f.facts = g) : f.code17 = g.code17 := h ▸ rfl

/-- Settles O17. -/
theorem failuresOfPartsWithSpares : Obligations.FailuresOfPartsWithSpares := by
  intro s hw
  have hcores := State.twf_cores hw
  have hvals := State.keysFrom_vals hw
  have hphases := State.twf_phases hw
  refine ⟨fun n hn hr hf ho hsp hst => ?_, fun n hn hr hf ho ht hq hsw => ?_, fun d n p ps hd ht hn hsp hp => ?_,
    fun r hr => ⟨fun h => ?_, fun h => ?_⟩, fun h0 h1 ha => ?_, fun h1 ha => ?_⟩
  · have hplaces := s.places_fencedCore n
    have hfail : s.coreFail n = ((s.fencedCore n).setSched ((s.fencedCore n).sched.awaiting n)).covered 3 n := by
      have hspares : ¬ (s.fencedCore n).spares (n / 64) = [] := by rwa [State.spares_congr hplaces]
      rw [State.coreFail_eq hr hf ho, if_neg (fun h => hspares h.2), if_neg (by simp [hst])]
    obtain ⟨hfenced, hnone⟩ := State.core_coreFail hcores hr hf ho
    have hruns := State.coreFail_runs n s
    have hafter := State.covered_runs ((s.fencedCore n).setSched ((s.fencedCore n).sched.awaiting n)) 3 n
    rw [← hfail] at hafter
    have hsched : (s.coreFail n).sched = (s.fencedCore n).sched.awaiting n := hafter.same .sched rfl
    refine ⟨_, need_of (decide_eq_true hn) _, hfenced, hnone, ?_, fun m hm => ?_, fun x hx => ⟨x.relist, ?_, rfl, rfl, rfl, rfl, rfl⟩,
      ?_, hruns.frame⟩
    · rw [hsched]
      simp only [Sched.places, Prod.mk.injEq] at hplaces
      exact congrArg (· ++ [n]) hplaces.2.2.2
    · rw [State.core_congr (hafter.same .cores rfl)]
      exact (State.core_fencedCore hcores n m).trans (if_neg hm)
    · have hlist : (s.coreFail n).dieList x.die = (s.fencedCore n).dieList x.die := by
        rw [State.dieList, hsched]
        rfl
      rw [hlist]
      exact State.mem_dieList_fencedCore (State.twf_lists hw) hx
    · have hfence : Runs [.cores, .sched, .fab, .red] s (s.fencedCore n) :=
        .comp (State.modCore_runs _ n (·.failed s.clk)) rfl ((State.withdrawTiles_runs s n).mono rfl)
      have hobj : (s.fencedCore n).obj = s.obj := hfence.same .obj rfl
      rw [hfail, State.ov_covered (s := State.setSched _ _) (hobj ▸ hvals), if_pos rfl]
      exact bit_one_or _
  · have hwatch : s.watchdog n = s.coreFail n := if_pos ⟨ht, hq, hsw⟩
    exact ⟨_, (need_of (decide_eq_true hn) _).trans (congrArg _ hwatch), need_of (decide_eq_true hn) _,
      State.core_coreFail hcores hr hf ho⟩
  · have hspares : ((s.setSched (s.sched.resolved n)).modCore n Core.woken).spares (n / 64) = p :: ps := hn ▸ hsp
    have hsched : (s.takenOver n).sched = _ := State.sched_substitute hspares
    have hnone : (s.takenOver n).sched.takeovers = [] := by
      rw [hsched]
      simp [Sched.spared, Sched.resolved, ht]
    refine ⟨_, (need_of (decide_eq_true hd) _).trans (congrArg _ ((State.spareReady_eq ht hn).trans
      (State.nextTakeover_of_none hnone d))), State.posOf_substitute hspares hp, State.fenced_takenOver hcores n, hnone, ?_⟩
    rw [hsched]
    rfl
  · obtain ⟨hflag, hstatus, hruns⟩ :=
      State.coveredFlag (s := s.setPower (s.power.phaseLost (Rail.index r))) hvals 6 (Rail.index r) 5 (.spare 3 (Rail.index r) 0)
    have heq := (s.phaseLoss_eq r).trans (if_pos h)
    refine ⟨_, (need_of hr _).trans (congrArg _ heq), ?_, hflag, hstatus,
      (Runs.comp hruns rfl ((State.setPhaseLost_runs s (Rail.index r)).mono rfl)).frame⟩
    rw [show State.power _ = _ from hruns.same .power rfl]
    exact tget_tset_self 0 hphases (Rail.index r) (tget 0 s.power.phases (Rail.index r) + 1)
  · have heq := (s.phaseLoss_eq r).trans (if_neg (Nat.not_le.mpr (Nat.lt_succ_of_le h)))
    have hruns := State.service_runs (s.setPower (s.power.phaseLost (Rail.index r))) 4
    refine ⟨_, (need_of hr _).trans (congrArg _ heq), ?_, State.bit_service ..,
      (Runs.comp hruns rfl ((State.setPhaseLost_runs s (Rail.index r)).mono rfl)).frame⟩
    rw [show State.power _ = _ from hruns.same .power rfl]
    exact tget_tset_self 0 hphases (Rail.index r) (tget 0 s.power.phases (Rail.index r) + 1)
  · obtain ⟨hflag, hstatus, hruns⟩ := State.coveredFlag (s := s.setCaddy s.caddy.takenOver) hvals 5 0 6 (.spare 4 0 1)
    have hevent := State.event_runs ((((s.setCaddy s.caddy.takenOver).covered 5 0).journal (.spare 4 0 1)).service 6) 5 0
    refine ⟨_, congrArg Host.Outcome.next (State.takeover_eq h0 h1 ha), ?_, ?_, ?_⟩
    · exact (Runs.comp hevent rfl hruns).same .caddy rfl
    · rw [show State.flash _ = _ from hevent.same .flash rfl]
      exact hflag
    · rw [State.ov_congr (hevent.same .obj rfl)]
      exact hstatus
  · have hruns := State.uncovered_runs ((s.setCaddy s.caddy.m1Lost).setFlash s.flash.managed) 0x17 0 allCtx
    have hstatus := State.ov_uncovered (s := (s.setCaddy s.caddy.m1Lost).setFlash s.flash.managed) hvals 0x17 0 allCtx faultStatusId
    refine ⟨_, congrArg Host.Outcome.next (State.m1Fail_eq h1 ha), hruns.same .caddy rfl,
      Flash.code17_of_facts (State.facts_uncovered ..), ?_⟩
    rw [hstatus, if_pos rfl]
    exact bit_uncoveredStatus _

end Sys2Proof.Machine
end

