-- ==== Sys2Proof/Proofs/BringUp.lean ====
section
/-!
PROOF. POWER_ON and the standby and main sequences (R394, R426, R463, R465 to R467).
-/

namespace Sys2Proof.Machine

/-! POWER_ON: no link is up. -/

/-- Every link that the table lists is DOWN. -/
def linksDown (t : Tbl Link) : Bool := t.all (fun p => p.2.st == .down)

theorem link_of_linksDown {s : State} (h : linksDown s.links = true) (l : Nat) : (s.link l).st = .down :=
  tget_of_forall (P := fun x : Link => x.st = .down) rfl (fun p hp => by simpa using List.all_eq_true.mp h p hp) l

theorem linksDown_tset {t : Tbl Link} (h : linksDown t = true) (l : Nat) {x : Link} (hx : x.st = .down) :
    linksDown (tset .init t l x) = true := by
  unfold tset
  split
  · exact all_terase l h
  · exact all_tins h (by simp [hx])

theorem linksDown_standbyCold (s : State) : linksDown s.standbyCold.links = true := by
  have hlinks : s.standbyCold.links = tmap .init Link.cold s.links := rfl
  simp only [linksDown, hlinks, tmap, List.all_eq_true, List.mem_filter, List.mem_map]
  rintro _ ⟨⟨p, -, rfl⟩, -⟩
  rfl

theorem linksDown_recordedLasers {s : State} (h : linksDown s.links = true) : linksDown s.recordedLasers.links = true := by
  unfold State.recordedLasers
  induction allLinks generalizing s with
  | nil => exact h
  | cons l ls ih => exact ih (linksDown_tset h l (link_of_linksDown h l))

theorem linksDown_standbyOn (s : State) : linksDown s.standbyOn.links = true := by
  have hafter : s.standbyOn.links = s.standbyCold.restoreAll.recordedLasers.links := (State.afterRestore_runs _).same .links rfl
  have hrestored : s.standbyCold.restoreAll.links = s.standbyCold.links := (State.restoreAll_runs _).same .links rfl
  rw [hafter]
  refine linksDown_recordedLasers ?_
  rw [hrestored]
  exact linksDown_standbyCold s

/-! The main sequence (R466). -/

/-- The rails are on, and fabric time begins. -/
def State.railsOn (s : State) : State :=
  let s := s.setPower { s.power with rails := true, seqRow := 2 }
  (s.setFt { FabTime.init with running := true, refOk := s.ft.refOk }).ftFresh

/-- The kettle begins with PWR_CAP. -/
def State.kettleOn (s : State) : State := s.setKettle { s.kettle.off with cap := s.ov pwrCapId }

/-- The dies begin with the voltage of point 0. -/
def State.diesOn (s : State) : State := (allDies.foldl (fun s d => s.modDie d ({ · with mv := s.planMv d 0 })) s).retargetAll

/-- The rails, the kettle and the dies are on. -/
def State.allOn (s : State) : State := s.railsOn.applyRaises.kettleOn.diesOn

theorem State.railsUp_passed {s : State} (hm : s.power.main = .sequencing) (hrow : s.power.seqRow = 1) :
    s.railsUp .passed = (if s.allOn.pins.brake then s.allOn.brakeOn else s.allOn).allocResumes := by
  unfold State.railsUp
  rw [if_pos ⟨hm, hrow⟩, if_neg (fun h => h rfl)]
  extract_lets power s1 time s2 s3 kettle s4 s5
  have hrails : s2 = s.railsOn := rfl
  have hkettle : s4 = s3.kettleOn := rfl
  have hdies : s5 = s4.diesOn := rfl
  have hraises : s3 = s2.applyRaises := rfl
  have hall : s5 = s.allOn := by rw [hdies, hkettle, hraises, hrails, State.allOn]
  rw [hall]

theorem State.allocResumes_of_none {s : State} (h : ∀ d ∈ s.caddy.deferred, d.alloc = none) : s.allocResumes = s := by
  unfold State.allocResumes
  split
  case h_1 d ds hd =>
    rw [h d (hd ▸ List.mem_cons_self ..)]
  case h_2 => rfl

theorem State.diesOn_runs (s : State) : Runs [.kettle, .cores] s s.diesOn :=
  .comp (State.retargetAll_runs _) rfl (.foldl (fun _ _ => (State.modDie_runs ..).mono rfl) _ (.refl s))

theorem State.kettleOn_runs (s : State) : Runs [.kettle] s s.kettleOn := State.setKettle_runs _ _ fun _ => rfl

/-- The rails are on and fabric time counts from 0. -/
def Power.railed (x : Power) : Power := { x with rails := true, seqRow := 2 }
def FabTime.begun (refOk : Bool) : FabTime := { FabTime.init with running := true, refOk := refOk }

theorem State.railsOn_eq (s : State) :
    s.railsOn = ((s.setPower s.power.railed).setFt (.begun s.ft.refOk)).ftFresh := rfl

theorem State.railsOn_runs (s : State) : Runs [.power, .ft] s s.railsOn := by
  rw [State.railsOn_eq]
  refine .comp (State.ftFresh_runs _) rfl (.comp (State.setFt_runs _ _ fun _ => rfl) rfl ?_)
  exact (State.setPower_runs s s.power.railed id).mono rfl

theorem State.power_railsOn (s : State) : s.railsOn.power = s.power.railed := by
  rw [State.railsOn_eq]
  exact (State.ftFresh_runs _).same .power rfl

theorem State.allOn_runs_after (s : State) : Runs [.ageing, .kettle, .cores] s.railsOn s.allOn :=
  .comp (State.diesOn_runs _) rfl (.comp (State.kettleOn_runs _) rfl ((State.applyRaises_runs _).mono rfl))

theorem State.allOn_runs (s : State) : Runs [.power, .ft, .ageing, .kettle, .cores] s s.allOn :=
  .comp s.allOn_runs_after rfl (s.railsOn_runs.mono rfl)

theorem KettleKept.diesOn (s : State) : KettleKept Die.point Kettle.cap s s.diesOn := by
  refine .comp (.retargetAll (fun _ _ _ _ _ _ => rfl) (fun _ _ => rfl) _) (.foldl (fun s d => ?_) _ s)
  exact .modDie (fun _ => rfl) fun _ _ => rfl

theorem State.railsUp_eq {s : State} (hm : s.power.main = .sequencing) (hrow : s.power.seqRow = 1)
    (hb : s.pins.brake = false) (hd : ∀ d ∈ s.caddy.deferred, d.alloc = none) : s.railsUp .passed = s.allOn := by
  have hpins : s.allOn.pins = s.pins := s.allOn_runs.same .pins rfl
  have hcaddy : s.allOn.caddy = s.caddy := s.allOn_runs.same .caddy rfl
  have hbrake : ¬ s.allOn.pins.brake = true := by rw [hpins, hb]; decide
  rw [State.railsUp_passed hm hrow, if_neg hbrake]
  exact State.allocResumes_of_none (by rwa [hcaddy])

theorem State.power_allOn (s : State) : s.allOn.power = s.power.railed := by
  have hafter : s.allOn.power = s.railsOn.power := s.allOn_runs_after.same .power rfl
  rw [hafter, State.power_railsOn]

theorem State.clock_railsOn (s : State) : s.railsOn.ft.now = 0 ∧ s.railsOn.ft.running = true := ⟨rfl, rfl⟩

theorem State.clock_allOn (s : State) : s.allOn.ft.now = 0 ∧ s.allOn.ft.running = true := by
  have hft : s.allOn.ft = s.railsOn.ft := s.allOn_runs_after.same .ft rfl
  rw [hft]
  exact s.clock_railsOn

theorem State.die_kettleOn (s : State) (d : Nat) : s.kettleOn.die d = .init := rfl

theorem State.diesOk_kettleOn (s : State) : DiesOk s.kettleOn := rfl

theorem State.point_allOn (s : State) (d : Nat) : (s.allOn.die d).point = 0 := by
  have hpoint := (KettleKept.diesOn s.railsOn.applyRaises.kettleOn).die (State.diesOk_kettleOn _) d
  rw [State.die_kettleOn] at hpoint
  exact hpoint

theorem State.cap_allOn (s : State) : s.allOn.kettle.cap = s.ov pwrCapId := by
  have hcap := (KettleKept.diesOn s.railsOn.applyRaises.kettleOn).rest
  have hset : ∀ t : State, t.kettleOn.kettle.cap = t.ov pwrCapId := fun _ => rfl
  have hraised : s.railsOn.applyRaises.obj = s.railsOn.obj := (State.applyRaises_runs _).same .obj rfl
  have hrails : s.railsOn.obj = s.obj := s.railsOn_runs.same .obj rfl
  rw [State.allOn, hcap, hset, State.ov_congr hraised, State.ov_congr hrails]

/-! A core that fails its self-test (R466, R467). -/

/-- The self-test found this many cores failed. -/
def Power.tested (x : Power) (fails : Nat) : Power := { x with coreFails := min fails 255, selfTest := false, seqRow := 4 }

theorem filter_range_eq_singleton {N n : Nat} {p : Nat → Bool} (hn : n < N) (hp : p n = true)
    (ho : ∀ m, m < N → m ≠ n → p m = false) : (List.range N).filter p = [n] := by
  have hsame : (List.range N).filter p = (List.range N).filter (· == n) := List.filter_congr fun m hm => by
    by_cases he : m = n
    · rw [he, hp, beq_self_eq_true]
    · rw [ho m (List.mem_range.mp hm) he, beq_false_of_ne he]
  rw [hsame, List.filter_beq, List.count_eq_one_of_mem List.nodup_range (List.mem_range.mpr hn)]
  rfl

/-- The numbers whose positions failed. -/
def State.failedCores (s : State) (fails : List Nat) : List Nat :=
  allCores.filter (fun n => fails.contains (posKey (n / 64) (s.posOf n)) && !s.sched.offline.contains n)

theorem State.failedCores_single {s : State} {n : Nat} (hn : n < 256) (ho : s.sched.offline = [])
    (hone : ∀ m, m < 256 → m ≠ n → posKey (m / 64) (s.posOf m) ≠ posKey (n / 64) (s.posOf n)) :
    s.failedCores [posKey (n / 64) (s.posOf n)] = [n] :=
  filter_range_eq_singleton hn (by simp [ho]) fun m hm hne => by simp [hone m hm hne]

/-- What the self-test found beside numbered cores. -/
def State.failedSpares (s : State) (fails : List Nat) : List Nat :=
  let used := (s.failedCores fails).map (fun n => posKey (n / 64) (s.posOf n))
  fails.filter (fun f => !used.contains f && !s.sched.dead.contains f)

/-- More spares are used up. -/
def Sched.usedUp (x : Sched) (found : List Nat) : Sched := { x with dead := x.dead ++ found }

theorem Sched.usedUp_nil (x : Sched) : x.usedUp [] = x := by rw [Sched.usedUp, List.append_nil]

/-- In the sequence, with no spare found failed, the self-test substitutes each number whose position failed. -/
theorem State.selfTested_eq {s : State} (hm : s.power.main = .sequencing) (hrow : s.power.seqRow = 2) {fails : List Nat}
    (hspares : s.failedSpares fails = []) (e : StageEnd) :
    s.selfTested fails e =
      ((s.failedCores fails).foldl (fun s n => s.substitute n) (s.setPower (s.power.tested fails.length))).stageEnd e := by
  unfold State.selfTested
  extract_lets seq power s1 active used found sched s2 s3 s4
  have hseq : seq = true := by simp [seq, hm, hrow]
  have hfound : found = [] := hspares
  have htested : s1 = s.setPower (s.power.tested fails.length) := by
    simp only [s1, if_pos hseq]
    rfl
  have hused : s2 = s1 := by
    have h : s2 = s1.setSched (s1.sched.usedUp found) := rfl
    rw [h, hfound, Sched.usedUp_nil]
    rfl
  have hspare : s3 = s2 := by simp only [s3, hfound, List.map_nil, List.dedup_nil, List.foldl_nil]
  have hcores : s4 = (s.failedCores fails).foldl (fun s n => s.substitute n) s3 := rfl
  rw [if_pos (by rw [hseq]; rfl), if_pos hseq, hcores, hspare, hused, htested]

theorem State.failedCores_nil (s : State) : s.failedCores [] = [] := List.filter_eq_nil_iff.mpr fun _ _ => by simp

/-! A stage that fails (R466). -/

/-- A stage of the main sequence has failed. -/
def Power.failedAt (x : Power) (row : Nat) : Power := { x with main := .failed, failedStep := row }

theorem State.faultPin_seqFail (s : State) (row : Nat) : (s.seqFail row).out.faultPin = true := rfl

theorem State.stageEnd_failed_runs (s : State) (row : Nat) (flag : Option Nat) :
    Runs [.router, .host, .flash, .out] (s.seqFail row) (s.stageEnd (.failed row flag)) := by
  cases flag with
  | none => exact .refl _
  | some b => exact (State.service_runs ..).mono rfl

theorem State.power_stageEnd (s : State) (row : Nat) (flag : Option Nat) :
    (s.stageEnd (.failed row flag)).power = s.power.failedAt row :=
  ((s.stageEnd_failed_runs row flag).same .power rfl : _ = (s.seqFail row).power)

theorem State.faultPin_stageEnd (s : State) (row : Nat) (flag : Option Nat) :
    (s.stageEnd (.failed row flag)).out.faultPin = true := by
  cases flag with
  | none => exact s.faultPin_seqFail row
  | some b => exact (State.faultPin_service _ b).trans (s.faultPin_seqFail row)

theorem State.bit_stageEnd (s : State) (row : Nat) {flag : Option Nat} {b : Nat} (h : flag = some b) :
    bit (s.stageEnd (.failed row flag)).flash.service b = true := by
  subst h
  exact State.bit_service ..

/-- The rails that came on stay on. -/
def Power.stuckOn (x : Power) : Power := { x with rails := true }

/-- What a failed stage leaves: MAIN_STATE FAILED at its row, the rails as they stood in `x`, FAULT# and the flag named. -/
def State.FailedAt (x s t : State) (row : Nat) (flag : Option Nat) (b : Nat) : Prop :=
  t.power.main = .failed ∧ t.power.failedStep = row ∧ t.power.rails = x.power.rails ∧ t.out.faultPin = true ∧
    (flag = some b → bit t.flash.service b = true) ∧ Frame [.power, .router, .host, .flash, .out] s t

theorem State.failedAt_stageEnd {s x : State} (hx : Runs [.power] s x) (row : Nat) (flag : Option Nat) (b : Nat) :
    x.FailedAt s (x.stageEnd (.failed row flag)) row flag b := by
  have hpower := x.power_stageEnd row flag
  have hruns : Runs [.power, .router, .host, .flash, .out] s (x.stageEnd (.failed row flag)) :=
    .comp (x.stageEnd_failed_runs row flag) rfl (.comp (State.seqFail_runs x row) rfl (hx.mono rfl))
  exact ⟨congrArg Power.main hpower, congrArg Power.failedStep hpower, (congrArg Power.rails hpower).trans rfl,
    x.faultPin_stageEnd row flag, x.bit_stageEnd row, hruns.frame⟩

/-! The rows of the sequences that pass. -/

/-- A caddy that has booted its active slot. -/
def Caddy.bootedActive (x : Caddy) : Caddy :=
  { x with booted := true, runB := x.activeB, fallback := false, recovery := false, fwPending := false }

/-- A caddy that is ready. -/
def Caddy.readied (x : Caddy) (slot port : Nat) : Caddy := { x.raiseMin with ready := true, plcaId := slot + 1, port := port }

/-- Power as the main sequence begins, and as the module is ready. -/
def Power.sequenced (x : Power) (clk : Nat) : Power :=
  { x with main := .sequencing, failedStep := 0, seqStart := clk, seqRow := 1, stop := none, halted := false }
def Power.readied (x : Power) (clk : Nat) : Power :=
  { x with main := .ready, seqRow := 7, readyMs := (clk - x.seqStart) / 1000000, halted := false }

/-- The main sequence begins. -/
def State.sequencing (s : State) : State :=
  let s := s.setPins { s.pins with p50v := true, coolantOk := true }
  let s := s.setPower (s.power.sequenced s.clk)
  s.setOut { s.out with faultPin := false }

theorem State.mainStart_eq {s : State} (hr : s.caddy.ready = true) (hrec : s.caddy.recovery = false) (hm : s.power.main = .off)
    (hl : s.power.losing = 0) (h5 : s.pins.p5v = true) (hsens : s.power.hotSensors = []) (hstk : s.power.hotStacks = [])
    (hclk : s.pins.refclk = true) : s.mainStart = s.sequencing := by
  have hlast : (s.setPins { s.pins with p50v := true, coolantOk := true }).lastLinePresent = false := by
    simp [State.lastLinePresent, hsens, hstk]
  unfold State.mainStart
  rw [if_pos ⟨hr, hrec, h5, hm, hl⟩]
  unfold State.mainBegin
  rw [if_pos ⟨hr, hrec, h5, rfl, hlast, hm, hl⟩]
  exact if_pos hclk

/-- Settles O18. -/
theorem bringUpReachesReady : Obligations.BringUpReachesReady := by
  intro s hw
  refine ⟨?_, fun hb h5 hv => ?_, fun hb h5 hr => ?_, fun hr hrec hm hl h5 hsens hstk hclk => ?_, fun hm hrow hb hd => ?_,
    fun hm hrow => ?_, fun n p ps hn hm hrow ho hone hsp hp => ?_, fun hm hrow => ?_, fun row b hb hm flag hflag => ?_⟩
  · have hread := s.standbyOn.readSlot_runs
    have hafter := s.standbyOn_runs_after
    have hpower : s.standbyOn.readSlot.power = s.standbyCold.power := by
      rw [show State.power _ = _ from hread.same .power rfl, show State.power _ = _ from hafter.same .power rfl]
    have hjournal := s.journalOf_standbyOn
    simp only [State.journalOf, Caddy.standing, Prod.mk.injEq] at hjournal
    obtain ⟨-, hrecs, hready, hbooted, hsessions, howner⟩ := hjournal
    have hflash : s.standbyOn.readSlot.flash = s.standbyOn.flash := hread.same .flash rfl
    have hcaddy : s.standbyOn.readSlot.caddy = s.standbyOn.caddy := hread.same .caddy rfl
    have hlinks : s.standbyOn.readSlot.links = s.standbyOn.links := hread.same .links rfl
    have hsteps : s.standbyOn.readSlot.steps = s.standbyCold.steps := by
      rw [show State.steps _ = _ from hread.same .steps rfl, show State.steps _ = _ from hafter.same .steps rfl]
    refine ⟨_, rfl, ?_, ?_, ?_, ?_, ?_, ?_, ?_, fun q x l n hq hx hb hone => ?_, fun q x f a hq hx hb hone => ?_, fun c => ?_,
      fun l => ?_, ?_⟩
    · rw [hpower]; rfl
    · rw [hpower]; rfl
    · rw [hcaddy, hready]
    · rw [hcaddy, hbooted]
    · rw [hcaddy, hsessions]
    · rw [hcaddy, howner]
    · rw [hflash, hrecs]
    · rw [hflash]
      exact State.faultLog_standbyOn hq hx hb hone
    · rw [hflash]
      exact State.flags_standbyOn hq hx hb hone
    · rw [State.stp_congr hsteps]
      rfl
    · rw [State.link_congr hlinks]
      exact link_of_linksDown (linksDown_standbyOn s) l
    · rw [hread.queue, hafter.queue]
      rfl
  · have hboot : s.bootDone = s.setCaddy s.caddy.bootedActive := by
      unfold State.bootDone
      rw [if_neg (by simp [hb, h5]), Caddy.boot, if_pos hv]
      rfl
    exact ⟨_, congrArg Host.Outcome.next hboot, rfl⟩
  · have hready : s.caddyReady = (s.setCaddy (s.caddy.readied s.pins.slotId (s.ov mgmtPortId))).alert := if_pos ⟨hb, h5, hr⟩
    have hcaddy := (State.alert_runs (s.setCaddy (s.caddy.readied s.pins.slotId (s.ov mgmtPortId)))).same .caddy rfl
    rw [← hready] at hcaddy
    exact ⟨_, rfl, congrArg Caddy.ready hcaddy, congrArg Caddy.port hcaddy, congrArg Caddy.plcaId hcaddy,
      (State.caddyReady_runs s).frame⟩
  · have hstart : s.mainStart = s.sequencing := State.mainStart_eq hr hrec hm hl h5 hsens hstk hclk
    have hframe := (State.mainStart_runs s).frame
    rw [hstart] at hframe
    exact ⟨_, congrArg Host.Outcome.next hstart, rfl, rfl, rfl, rfl, hframe⟩
  · have hexec : exec (.railsUp .passed) s = .next (s.railsUp .passed) := need_of rfl _
    exact ⟨_, hexec.trans (congrArg Host.Outcome.next (State.railsUp_eq hm hrow hb hd)), s.power_allOn, s.clock_allOn.1,
      s.clock_allOn.2, s.cap_allOn, fun d _ => s.point_allOn d, (s.allOn_runs.mono rfl).frame⟩
  · have hexec : exec (.coreSelfTestDone [] .passed) s = .next (s.selfTested [] .passed) := need_of rfl _
    have htest := State.selfTested_eq hm hrow (fails := []) rfl .passed
    rw [State.failedCores_nil] at htest
    exact ⟨_, hexec.trans (congrArg Host.Outcome.next htest), rfl⟩
  · have hexec : exec (.coreSelfTestDone [posKey (n / 64) (s.posOf n)] .passed) s =
        .next (s.selfTested [posKey (n / 64) (s.posOf n)] .passed) := need_of rfl _
    have hcores := State.failedCores_single hn ho hone
    have hspares : s.failedSpares [posKey (n / 64) (s.posOf n)] = [] := by simp [State.failedSpares, hcores]
    have htest := State.selfTested_eq hm hrow hspares .passed
    rw [hcores] at htest
    refine ⟨_, hexec.trans (congrArg Host.Outcome.next htest), ?_, ?_⟩
    · exact congrArg Power.coreFails ((State.substitute_runs (s.setPower (s.power.tested 1)) n).same .power rfl)
    · exact State.posOf_substitute (s := s.setPower (s.power.tested 1)) hsp hp
  · have hexec : exec (.mainReady .passed) s = .next (s.mainReady .passed) := need_of rfl _
    have hready : s.mainReady .passed = s.setPower (s.power.readied s.clk) := by
      unfold State.mainReady
      rw [if_pos ⟨hm, hrow⟩, if_neg fun h => h rfl]
      rfl
    exact ⟨_, hexec.trans (congrArg Host.Outcome.next hready), rfl⟩
  · intro e p hp hrow htrain hlo hhi
    have hwithin : ∀ lo hi, lo ≤ row → row ≤ hi → e.within lo hi = true := fun lo hi hlo hhi => by
      simp only [List.mem_cons, List.not_mem_nil, or_false] at hflag
      rcases hflag with rfl | rfl <;> simp [e, StageEnd.within, hlo, hhi, hb]
    have hfails : ∀ x : State, Runs [.power] s x → x.FailedAt s (x.stageEnd e) row flag b := fun x hx =>
      State.failedAt_stageEnd hx row flag b
    simp only [List.mem_cons, List.not_mem_nil, or_false] at hp
    rcases hp with rfl | rfl | rfl | rfl
    · have hexec : exec (.railsUp e) s = .next (s.railsUp e) := need_of (hwithin 2 2 hlo hhi) _
      have hstage : s.railsUp e = (s.setPower s.power.stuckOn).stageEnd e := (if_pos ⟨hm, hrow⟩).trans (if_pos nofun)
      exact ⟨_, hexec.trans (congrArg Host.Outcome.next hstage), hfails _ (State.setPower_runs _ _ id)⟩
    · have hexec : exec (.coreSelfTestDone [] e) s = .next (s.selfTested [] e) := need_of (hwithin 3 4 hlo hhi) _
      have hstage := State.selfTested_eq hm hrow (fails := []) rfl e
      rw [State.failedCores_nil] at hstage
      exact ⟨_, hexec.trans (congrArg Host.Outcome.next hstage), hfails _ (State.setPower_runs _ _ id)⟩
    · have hexec : exec (.memoryZeroed e) s = .next (s.zeroed e) := need_of (hwithin 5 5 hlo hhi) _
      have hstage : s.zeroed e = s.stageEnd e := (if_pos ⟨hm, hrow, htrain rfl⟩).trans (if_pos nofun)
      exact ⟨_, hexec.trans (congrArg Host.Outcome.next hstage), hfails s (.refl s)⟩
    · have hexec : exec (.mainReady e) s = .next (s.mainReady e) := need_of (hwithin 6 7 hlo hhi) _
      have hstage : s.mainReady e = s.stageEnd e := (if_pos ⟨hm, hrow⟩).trans (if_pos nofun)
      exact ⟨_, hexec.trans (congrArg Host.Outcome.next hstage), hfails s (.refl s)⟩

end Sys2Proof.Machine
end

