-- ==== Sys2Proof/Proofs/AgeingSamples.lean ====
section
/-!
PROOF. The ageing monitors' samples and the powered hour (R397, R398, R402 to R404).
-/

namespace Sys2Proof.Machine

theorem tget?_tins_self {α : Type} (t : Tbl α) (i : Nat) (x : α) : tget? (tins t i x) i = some x := by
  induction t with
  | nil => simp [tins, tget?]
  | cons p t ih =>
    obtain ⟨k, v⟩ := p
    rw [tins]
    split_ifs with hk hlt
    · simp [tget?]
    · rw [tget?, if_neg hk, ih]
    · simp [tget?]

/-- A unit's record with samples taken, and with the V_min of a point measured. -/
def AgeUnit.sampled (a : AgeUnit) (xs : List Nat) : AgeUnit := { a with samples := addSamples a.samples xs }
def AgeUnit.measured (a : AgeUnit) (p v : Nat) : AgeUnit :=
  { a with vmin := tins a.vmin p (v, a.dvMax), fresh := if a.fresh.contains p then a.fresh else a.fresh ++ [p] }

theorem AgeUnit.fresh_measured (a : AgeUnit) (p v : Nat) : (a.measured p v).fresh.contains p = true := by
  rw [AgeUnit.measured]
  split_ifs with h
  · exact h
  · simp

theorem State.age_modAge {s : State} (h : twf .init s.ageing.units = true) (u v : Nat) (f : AgeUnit → AgeUnit) :
    (s.modAge u f).age v = if v = u then f (s.age u) else s.age v := State.age_setAge h u v _

/-- The bias ratio of a link's first source joins its hour. -/
def Ageing.biased (x : Ageing) (k r : Nat) : Ageing :=
  { x with biasSum := tset (0, 0) x.biasSum k ((tget (0, 0) x.biasSum k).1 + r, (tget (0, 0) x.biasSum k).2 + 1) }

theorem State.laserBias_one (s : State) (l r : Nat) : s.laserBias l [r] = s.setAgeing (s.ageing.biased (l * 5) r) := rfl

theorem Ageing.biasSum_biased (x : Ageing) (k r : Nat) :
    tget (0, 0) (x.biased k r).biasSum k = ((tget (0, 0) x.biasSum k).1 + r, (tget (0, 0) x.biasSum k).2 + 1) :=
  tget_tset_self_of_ne _ _ _ (by simp)

/-- A retention test's margin and channel. -/
def Ageing.retained (x : Ageing) (k v : Nat) : Ageing := { x with retention := tset 8 x.retention k v }

theorem State.retention_eq {s : State} {k c : Nat} (m : Nat) (hc : c < 64) (h : s.freeSpare k ≠ none) :
    s.retention k c m = if m < 4 ∧ 4 ≤ bits (tget 8 s.ageing.retention k) 0 4 then
        (s.setAgeing (s.ageing.retained k (min m 8 + c * 2 ^ 8))).service 12
      else s.setAgeing (s.ageing.retained k (min m 8 + c * 2 ^ 8)) := by
  have hbits : bits c 0 6 = c := by simp [bits, Nat.mod_eq_of_lt hc]
  have hm : min m 8 < 4 ↔ m < 4 := by omega
  unfold State.retention
  simp only [if_neg h, hbits, hm]
  rfl

/-! The powered hour (R397). -/

/-- An hour more. -/
def Ageing.older (x : Ageing) : Ageing := { x with hours := satAdd 32 x.hours 1 }

theorem AgeUnit.hour_of_none {a : AgeUnit} (h : a.samples = []) : a.hour = a := by
  unfold AgeUnit.hour
  rw [h]
  rfl

/-- The units' hour. -/
def State.unitsHour (s : State) : State := (List.range 5).foldl (fun s u => s.modAge u AgeUnit.hour) s

/-- The hours and the bias ratios stand beside the units' records. -/
def Ageing.beside (x : Ageing) : Nat × Tbl (Nat × Nat) := (x.hours, x.biasSum)

theorem State.beside_unitsHour (s : State) : s.unitsHour.ageing.beside = s.ageing.beside :=
  foldl_keeps (g := fun s : State => s.ageing.beside) (f := fun s u => s.modAge u AgeUnit.hour) (fun _ _ => rfl) _ s

theorem State.age_unitsHour {s : State} (h : twf .init s.ageing.units = true) (hn : ∀ u, (s.age u).samples = []) (u : Nat) :
    s.unitsHour.age u = s.age u := by
  unfold State.unitsHour
  induction List.range 5 generalizing s with
  | nil => rfl
  | cons v vs ih =>
    have hsame : ∀ w, (s.modAge v AgeUnit.hour).age w = s.age w := fun w => by
      rw [State.age_modAge h]
      split_ifs with hw
      · rw [AgeUnit.hour_of_none (hn v), hw]
      · rfl
    rw [List.foldl_cons, ih (twf_tset _ _ _ h) (fun w => by rw [hsame, hn]), hsame]

theorem State.biasHour_of_none {s : State} {k : Nat} (h : tget (0, 0) s.ageing.biasSum k = (0, 0)) : s.biasHour k = s := by
  unfold State.biasHour
  exact if_pos (by rw [h])

theorem State.biasHours_of_none {s : State} (h : ∀ k, tget (0, 0) s.ageing.biasSum k = (0, 0)) (ks : List Nat) :
    ks.foldl (fun s k => s.biasHour k) s = s := by
  induction ks with
  | nil => rfl
  | cons k ks ih => rw [List.foldl_cons, State.biasHour_of_none (h k), ih]

theorem State.queue_journal {s : State} {r : JRec} (h : r.isFault = false) :
    (s.journal r).flash.queue = s.flash.queue ++ [r] := by
  unfold State.journal
  rw [if_neg (by simp [h])]
  dsimp only
  split
  · exact State.journalBegin_queue _
  · rfl

theorem State.hourTick_eq {s : State} (hp : s.pins.p50v = true) (hh : (s.ageing.hours + 1) % 1000 ≠ 0)
    (hl : s.ageing.hours < 2 ^ 32 - 1) (hb : ∀ k, tget (0, 0) s.ageing.biasSum k = (0, 0)) :
    s.hourTick = (s.setAgeing s.ageing.older).unitsHour.journal .ageing := by
  have hbeside := (s.setAgeing s.ageing.older).beside_unitsHour
  simp only [Ageing.beside, Prod.mk.injEq] at hbeside
  obtain ⟨hhours, hsum⟩ := hbeside
  have hbias := State.biasHours_of_none (s := (s.setAgeing s.ageing.older).unitsHour) (fun k => by rw [hsum]; exact hb k)
    (List.range 30)
  have hage : ((s.setAgeing s.ageing.older).unitsHour.journal .ageing).ageing.hours = s.ageing.hours + 1 := by
    rw [show State.ageing _ = _ from (State.journal_runs ..).same .ageing rfl, hhours]
    exact min_eq_left (by omega)
  unfold State.hourTick
  rw [if_pos hp]
  extract_lets older s1 s2 s3 s4
  have hunits : s2 = (s.setAgeing s.ageing.older).unitsHour := rfl
  have hsources : s3 = s2 := hbias
  have hjournal : s4 = s3.journal .ageing := rfl
  rw [hjournal, hsources, hunits, hage, if_neg hh]

/-- Settles O19: each sample is the write that it names, and an hour with nothing sampled counts itself alone. -/
theorem ageingMonitors : Obligations.AgeingMonitors := by
  intro s hw
  have hage := State.twf_age hw
  refine ⟨fun u c hu hr hn => ?_, fun u v vs hu hl hr => ?_, fun l r hl hr => ?_, fun k c m hk hc hr hf => ?_,
    fun hp hh hl hb hn => ?_⟩
  · have hexec : exec (.ringOscSample u [c]) s = .next (s.ringOsc u [c]) :=
      (need_of (by simp [unitOk, hu]) _).trans (powered_of hr _)
    refine ⟨_, hexec, ?_, fun v hv => (State.age_modAge hage u v _).trans (if_neg hv), (State.ringOsc_runs ..).frame⟩
    refine (State.age_modAge hage u u (·.sampled [Config.oscShift u 0 c % 2 ^ 16])).trans ((if_pos rfl).trans ?_)
    rw [AgeUnit.sampled, hn]
    rfl
  · have hpoint : s.unitPoint u = (s.die u).point := if_pos hu
    have hexec : exec (.criticalPathSample u (v :: vs)) s = .next (s.critPath u (v :: vs)) :=
      (need_of (by simp [unitOk]; omega) _).trans (powered_of hr _)
    have hu' : (s.critPath u (v :: vs)).age u = (s.age u).measured (s.die u).point (vs.foldl max v) := by
      rw [← hpoint]
      exact (State.age_modAge hage u u (·.measured (s.unitPoint u) (vs.foldl max v))).trans (if_pos rfl)
    refine ⟨_, hexec, ?_, ?_, fun w hv => (State.age_modAge hage u w _).trans (if_neg hv), (State.critPath_runs ..).frame⟩
    · rw [hu']
      exact tget?_tins_self ..
    · rw [hu']
      exact AgeUnit.fresh_measured ..
  · have hexec : exec (.laserBiasSample l [r]) s = .next (s.laserBias l [r]) :=
      (need_of (by simp [linkOk, hl]) _).trans (powered_of hr _)
    refine ⟨_, hexec, ?_, (State.laserBias_runs ..).frame⟩
    rw [State.laserBias_one]
    exact Ageing.biasSum_biased ..
  · have hexec : exec (.retentionTest k c m) s = .next (s.retention k c m) :=
      (need_of (by simp [dieOk, hk, hc]) _).trans (powered_of hr _)
    have hput : tget 8 (s.ageing.retained k (min m 8 + c * 2 ^ 8)).retention k = min m 8 + c * 2 ^ 8 :=
      tget_tset_self 8 (State.twf_retention hw) k _
    refine ⟨_, hexec, ?_, fun hm hold => ?_, (State.retention_runs ..).frame⟩
    · rw [State.retention_eq m hc hf]
      split_ifs
      · rw [show State.ageing _ = _ from (State.service_runs ..).same .ageing rfl]
        exact hput
      · exact hput
    · rw [State.retention_eq m hc hf, if_pos ⟨hm, hold⟩]
      exact State.bit_service ..
  · have heq := State.hourTick_eq hp hh hl hb
    have hjournal := State.journal_runs (s.setAgeing s.ageing.older).unitsHour .ageing
    have hbeside := (s.setAgeing s.ageing.older).beside_unitsHour
    simp only [Ageing.beside, Prod.mk.injEq] at hbeside
    have hunits : (s.setAgeing s.ageing.older).unitsHour.flash = s.flash :=
      (Runs.foldl (L := [.ageing]) (fun _ _ => State.modAge_runs ..) (List.range 5) (.refl (s.setAgeing s.ageing.older))).same
        .flash rfl
    have hframe := (State.hourTick_runs s).frame
    rw [heq] at hframe
    refine ⟨_, congrArg Host.Outcome.next heq, ?_, fun u => ?_, ?_, ?_, hframe⟩
    · rw [show State.ageing _ = _ from hjournal.same .ageing rfl, hbeside.1]
      exact min_eq_left (by omega)
    · rw [State.age_congr (hjournal.same .ageing rfl)]
      exact State.age_unitsHour (s := s.setAgeing s.ageing.older) hage hn u
    · rw [State.queue_journal rfl, hunits]
    · rw [Flash.service_of_facts (State.facts_journal ..), hunits]
      rfl

end Sys2Proof.Machine
end

