-- ==== Sys2Proof/Proofs/ClockInputs.lean ====
section
/-!
PROOF. Telemetry samples, the clock inputs, PCIe training and the HOST reset (R453, R463, R468, R469, R488).
-/

namespace Sys2Proof.Machine

/-! Counted cycles. -/

theorem tget_addCycles_of_ne (t : Tbl Nat) {k j : Nat} (n : Nat) (h : k ≠ j) : tget 0 (addCycles t k n) j = tget 0 t j :=
  tget_tset_of_ne 0 t _ h

theorem tget_addCycles_self (t : Tbl Nat) (k : Nat) {n : Nat} (h : 0 < n) :
    tget 0 (addCycles t k n) k = min (tget 0 t k + n) (2 ^ 64 - 1) :=
  tget_tset_self_of_ne 0 t k (show satAdd 64 (tget 0 t k) n ≠ 0 by unfold satAdd; omega)

/-- Cycles of some tags in a row are counted, from tag `k` on. -/
def addRow (t : Tbl Nat) (xs : List Nat) (k : Nat) : Tbl Nat := (xs.zipIdx k).foldl (fun t p => addCycles t p.2 p.1) t

theorem tget_addRow_of_outside (xs : List Nat) (t : Tbl Nat) {k j : Nat} (h : j < k ∨ k + xs.length ≤ j) :
    tget 0 (addRow t xs k) j = tget 0 t j := by
  induction xs generalizing t k with
  | nil => rfl
  | cons x xs ih =>
    rw [List.length_cons] at h
    exact (ih (addCycles t k x) (k := k + 1) (by omega)).trans (tget_addCycles_of_ne t x (by omega))

theorem tget_addRow_inside {xs : List Nat} (t : Tbl Nat) (k : Nat) {i n : Nat} (h : xs[i]? = some n) (hn : 0 < n) :
    tget 0 (addRow t xs k) (k + i) = min (tget 0 t (k + i) + n) (2 ^ 64 - 1) := by
  induction xs generalizing t k i with
  | nil => cases h
  | cons x xs ih =>
    cases i with
    | zero =>
      cases h
      exact (tget_addRow_of_outside xs (addCycles t k n) (k := k + 1) (by omega)).trans (tget_addCycles_self t k hn)
    | succ i =>
      have hnext := ih (addCycles t k x) (k + 1) h
      rw [Nat.add_assoc, Nat.add_comm 1 i, tget_addCycles_of_ne t x (by omega)] at hnext
      exact hnext

/-- A sample without an IDLE_CLEAR makes these counts what a READ returns. -/
def Telemetry.sampled (x : Telemetry) (i p : Tbl Nat) : Telemetry := { x with idleNow := i, phaseNow := p, idle := i, phase := p }

theorem State.sample_eq {s : State} (ht : s.onTick 10000 = true) (hc : s.tele.clear = false) (hm : s.power.main = .ready)
    {g : IdleGroup} (ho : s.sched.offline.contains g.core = false) {phases : List Nat} (hp : phases.length ≤ 16) :
    s.sample [g] phases = s.setTele (s.tele.sampled (addCycles s.tele.idleNow (s.groupCause g) g.cycles)
      (addRow s.tele.phaseNow phases 0)) := by
  have hgroups : [g].filter (fun g => !(s.sched.offline.contains g.core)) = [g] := List.filter_eq_self.mpr fun x hx => by
    rw [List.mem_singleton.mp hx, ho]
    rfl
  have htags : phases.take 16 = phases := List.take_of_length_le hp
  unfold State.sample
  rw [if_neg (by rw [ht]; decide), if_neg (by rw [hc]; decide), if_pos hm, hgroups, htags]
  rfl

/-! OREF lost: every link goes DOWN (R162, R488). -/

/-- The links' table is canonical. -/
def LinksOk (s : State) : Prop := twf .init s.links = true

theorem State.linkFall_links (s : State) (l : Nat) :
    (s.linkFall l).links = if (s.link l).st = .down then s.links else (s.setLink l (s.link l).fall).links := by
  have hwhole : ∀ t : State, ((wholePackets (s.link l).rx (s.link l).rx.length).foldl (fun s p => s.inject l p) t).links = t.links :=
    fun t => foldl_keeps (g := State.links) (f := fun s p => s.inject l p) (fun _ _ => rfl) _ t
  have hfault : ∀ t : State, (if (s.link l).up then t.uncovered 0x14 l t.stepCtxs else t).links = t.links := fun t => by
    split_ifs
    · exact (State.uncovered_runs ..).same .links rfl
    · rfl
  have hdrop : ∀ t : State, ((s.link l).out.foldl (fun s (o : OutPkt) => s.linkDrop l o.pkt) t).links = t.links := fun t =>
    foldl_keeps (g := State.links) (fun t (o : OutPkt) => (t.linkDrop_runs l o.pkt).same .links rfl) _ t
  unfold State.linkFall
  dsimp only
  split_ifs with hd hu
  · rfl
  · rw [hdrop, show State.links (State.uncovered _ _ _ _) = _ from (State.uncovered_runs ..).same .links rfl, hwhole]
  · rw [hdrop, hwhole]

theorem Recordwise.linkFall :
    Recordwise LinksOk (fun s l => (s.link l).st) (fun s l => s.linkFall l) (fun _ _ => .down) where
  keeps l h := by
    rw [LinksOk, State.linkFall_links]
    split_ifs
    · exact h
    · exact twf_tset _ _ _ h
  self {s} l h := by
    have hlinks := s.linkFall_links l
    split_ifs at hlinks with hd
    · rw [State.link_congr hlinks, hd]
    · rw [State.link_congr hlinks, State.link_setLink h, if_pos rfl]
      rfl
  other {s l e} h he := by
    have hlinks := s.linkFall_links l
    split_ifs at hlinks with hd
    · rw [State.link_congr hlinks]
    · rw [State.link_congr hlinks, State.link_setLink h, if_neg he]
  stable _ _ := rfl

/-! A HOST reset clears the pages' queues and interrupts (R463). -/

/-- A page with its queue pointers and interrupts cleared. -/
def Page.Cleared (p : Page) : Prop :=
  p.sqTail = 0 ∧ p.sqHead = 0 ∧ p.cplHead = 0 ∧ p.cplTail = 0 ∧ p.intStatus = 0 ∧ p.intMask = 0

/-- What a HOST reset makes of a page. -/
def Page.cleared (p : Page) : Page :=
  { p with
    sqTail := 0, sqHead := 0, cplHead := 0, cplTail := 0, sqHeld := none, later := [], intStatus := 0, intMask := 0 }

theorem State.pages_hostReset (s : State) (flr : Bool) :
    (s.hostReset flr).host.pages = tmap .init Page.cleared s.host.pages := rfl

theorem State.cleared_hostReset (s : State) (flr : Bool) (c : Nat) : ((s.hostReset flr).page c).Cleared := by
  rw [State.page, State.pages_hostReset]
  exact tget_tmap_of_forall (P := Page.Cleared) ⟨rfl, rfl, rfl, rfl, rfl, rfl⟩ (fun _ => ⟨rfl, rfl, rfl, rfl, rfl, rfl⟩) _ c

/-- Settles O20. -/
theorem telemetryAndClockInputs : Obligations.TelemetryAndClockInputs := by
  intro s hw
  refine ⟨fun idle phases hg hp hc hr ht => ?_, fun g phases hg hp hc hm hr ht ho => ?_, ?_, ⟨_, rfl, rfl⟩, ?_, ⟨_, rfl, rfl⟩,
    fun g w h hh hrate hr hclk => ?_, ?_⟩
  · have hneed : (idle.all (fun g => decide (g.core < 256)) && decide (phases.length ≤ 16)) = true := by
      simpa [hp] using hg
    have hclear : s.sample idle phases = s.setTele { s.tele with
        idleNow := [], phaseNow := [], idle := [], phase := [], clear := false } :=
      (if_neg (by rw [ht]; decide)).trans (if_pos hc)
    exact ⟨_, (need_of hneed _).trans ((powered_of hr _).trans (congrArg Host.Outcome.next hclear)), rfl⟩
  · have hneed : ([g].all (fun g => decide (g.core < 256)) && decide (phases.length ≤ 16)) = true := by simp [hp, hg]
    have heq := State.sample_eq ht hc hm ho hp
    refine ⟨_, (need_of hneed _).trans ((powered_of hr _).trans (congrArg Host.Outcome.next heq)),
      fun hn => tget_addCycles_self _ _ hn, fun c hne => tget_addCycles_of_ne _ _ (Ne.symm hne), fun p n hpn hn => ?_,
      fun p hlen => ?_, hc, (State.setTele_runs ..).frame⟩
    · have hrow := tget_addRow_inside s.tele.phaseNow 0 hpn hn
      rwa [Nat.zero_add] at hrow
    · exact tget_addRow_of_outside phases s.tele.phaseNow (k := 0) (by omega)
  · refine ⟨_, rfl, rfl, Bool.and_false _, rfl, ?_⟩
    exact (Runs.comp (State.hostReset_runs _ false) rfl ((State.setPins_runs ..).mono rfl) :
      Runs [.pins, .fab, .host] s s.refclkLost).frame
  · have hruns : Runs [.links, .router, .steps, .obj, .flash] (s.setPins { s.pins with oref := false })
        (allLinks.foldl (fun s l => s.linkFall l) (s.setPins { s.pins with oref := false })) :=
      .foldl (fun _ _ => State.linkFall_runs ..) _ (.refl _)
    refine ⟨_, rfl, hruns.same .pins rfl, fun l hl => ?_, (Runs.comp hruns rfl ((State.setPins_runs ..).mono rfl)).frame⟩
    exact Recordwise.linkFall.get_foldl allLinks (s := s.setPins { s.pins with oref := false }) (State.twf_links hw)
      List.nodup_range (List.mem_range.mpr hl)
  · have hup : s.pcieUp g w h = _ := if_pos ⟨hr, hclk, hrate⟩
    exact ⟨_, (need_of hh _).trans (congrArg Host.Outcome.next hup), rfl⟩
  · exact ⟨_, rfl, rfl, rfl, rfl, rfl, fun c _ => s.cleared_hostReset (Config.pfReset s.free) c,
      (Runs.comp (State.fresh_runs _) rfl ((State.hostReset_runs ..).mono rfl)).frame⟩

end Sys2Proof.Machine
end


-- ==== Sys2Proof/Proofs/MgmtRequests.lean ====
section
/-!
PROOF. What a request that reaches the caddy runs into (R405 to R412): the lookups of the session table, the reply that
leaves, and the operation's place between the two. It settles what a repeated request does.
-/

namespace Sys2Proof.Machine

/-! Lookups of a table whose entries have no default. -/

theorem tget?_tins_ne {α : Type} (t : Tbl α) {i j : Nat} (hj : j ≠ i) (x : α) : tget? (tins t i x) j = tget? t j := by
  induction t with
  | nil => exact if_neg hj.symm
  | cons p t ih =>
    obtain ⟨k, v⟩ := p
    rw [tins]
    split_ifs with hk hlt
    · rw [tget?, tget?, if_neg hj.symm, if_neg (hk ▸ hj.symm)]
    · rw [tget?, tget?, ih]
    · rw [tget?, if_neg hj.symm]

theorem tget?_terase_ne {α : Type} (t : Tbl α) {i j : Nat} (hj : j ≠ i) : tget? (terase t i) j = tget? t j := by
  induction t with
  | nil => rfl
  | cons p t ih =>
    obtain ⟨k, v⟩ := p
    rw [terase]
    split_ifs with hk hlt
    · rw [tget?, if_neg (hk ▸ hj.symm)]
    · rw [tget?, tget?, ih]
    · rfl

theorem tget?_of_keysFrom {α : Type} {t : Tbl α} {lo j : Nat} (h : keysFrom (some lo) t = true) (hj : j ≤ lo) :
    tget? t j = none := by
  induction t generalizing lo with
  | nil => rfl
  | cons p t ih =>
    obtain ⟨k, v⟩ := p
    obtain ⟨hk, ht⟩ : lo < k ∧ keysFrom (some k) t = true := by simpa [keysFrom] using h
    rw [tget?, if_neg (by omega), ih ht (by omega)]

theorem tget?_terase_self {α : Type} {t : Tbl α} (h : keysFrom none t = true) (i : Nat) : tget? (terase t i) i = none := by
  induction t with
  | nil => rfl
  | cons p t ih =>
    obtain ⟨k, v⟩ := p
    have ht : keysFrom (some k) t = true := h
    rw [terase]
    split_ifs with hk hlt
    · exact tget?_of_keysFrom ht (by omega)
    · rw [tget?, if_neg hk, ih (keysFrom_weaken ht)]
    · rw [tget?, if_neg hk, tget?_of_keysFrom ht (by omega)]

/-! The messages that have left. An interrupt and a packet add none, a reply adds itself. -/

theorem State.mgmt_msi (s : State) (fn vector : Nat) : (s.msi fn vector).out.mgmt = s.out.mgmt := rfl

theorem State.mgmt_interrupt (s : State) (ctx b : Nat) : (s.interrupt ctx b).out.mgmt = s.out.mgmt := by
  unfold State.interrupt State.intSend
  dsimp only
  split_ifs
  · exact State.mgmt_msi ..
  · exact State.mgmt_msi ..
  · rfl

theorem State.mgmt_sendReply (s : State) (m : MgmtMsg) : (s.sendReply m).out.mgmt = s.out.mgmt ++ [m] := by
  unfold State.sendReply
  dsimp only
  split
  · exact State.mgmt_interrupt ..
  · exact congrArg Outputs.mgmt ((State.mgmtPacket_runs _ _ _ _).same .out rfl)
  · rfl

theorem State.caddy_sendReply (s : State) (m : MgmtMsg) : (s.sendReply m).caddy = s.caddy :=
  (State.sendReply_runs s m).same .caddy rfl

theorem State.mgmt_answer (s : State) (m : MgmtMsg) : (s.answer m).out.mgmt = s.out.mgmt ++ [m] := by
  have hout : (s.cacheReply m).out = s.out := (State.cacheReply_runs s m).same .out rfl
  rw [State.answer, State.mgmt_sendReply, hout]

theorem State.answers_answer (s : State) (r : Req) (m : MOp) (st : Nat) (p : List Byte) :
    (s.answer (replyTo r m.code r.session r.epoch st p)).Answers r m st p := by
  rw [State.Answers, State.mgmt_answer, List.getLast?_concat]

/-! What a reply's cache leaves of the caddy's state. -/

/-- The caddy's state without its session table. -/
def Caddy.apart (c : Caddy) : Caddy := { c with sessions := [] }

theorem State.apart_answer (s : State) (m : MgmtMsg) : (s.answer m).caddy.apart = s.caddy.apart := by
  rw [State.answer, State.caddy_sendReply, State.cacheReply]
  split
  · rfl
  · rfl

theorem Caddy.owner_of_apart {c d : Caddy} (h : c.apart = d.apart) : c.owner = d.owner :=
  (congrArg Caddy.owner h : c.apart.owner = d.apart.owner)

theorem Caddy.epoch_of_apart {c d : Caddy} (h : c.apart = d.apart) : c.epoch = d.epoch :=
  (congrArg Caddy.epoch h : c.apart.epoch = d.apart.epoch)

theorem Caddy.handover_of_apart {c d : Caddy} (h : c.apart = d.apart) : c.handover = d.handover :=
  (congrArg Caddy.handover h : c.apart.handover = d.apart.handover)

theorem State.sessionOf_eq_some {s : State} {cls num : Nat} {x : Session} :
    s.sessionOf cls num = some x ↔ tget? s.caddy.sessions cls = some x ∧ x.num = num := by
  unfold State.sessionOf
  cases tget? s.caddy.sessions cls with
  | none => simp
  | some y => simp only [Option.ite_none_right_eq_some, Option.some.injEq]; grind

theorem State.sessions_answer_ne (s : State) (m : MgmtMsg) {c : Nat} (hc : c ≠ m.cls) :
    tget? (s.answer m).caddy.sessions c = tget? s.caddy.sessions c := by
  rw [State.answer, State.caddy_sendReply, State.cacheReply]
  split
  · exact tget?_tins_ne _ hc _
  · rfl

/-- A session with a reply in its cache. -/
def Session.cached (x : Session) (m : MgmtMsg) : Session := { x with cache := ((m.xid, m) :: x.cache).take 16 }

theorem State.sessionOf_setSession (s : State) (cls : Nat) (x : Session) : (s.setSession cls x).sessionOf cls x.num = some x :=
  State.sessionOf_eq_some.mpr ⟨tget?_tins_self _ _ _, rfl⟩

theorem State.sessionOf_answer {s : State} {m : MgmtMsg} {x : Session} (h : s.sessionOf m.cls m.session = some x) :
    (s.answer m).sessionOf m.cls m.session = some (x.cached m) := by
  obtain ⟨-, hn⟩ := State.sessionOf_eq_some.mp h
  refine State.sessionOf_eq_some.mpr ⟨?_, hn⟩
  rw [State.answer, State.caddy_sendReply, State.cacheReply, h]
  exact tget?_tins_self _ _ _

theorem State.sessions_answer_none {s : State} {m : MgmtMsg} (h : tget? s.caddy.sessions m.cls = none) :
    tget? (s.answer m).caddy.sessions m.cls = none := by
  have hs : s.sessionOf m.cls m.session = none := by rw [State.sessionOf, h]
  rw [State.answer, State.caddy_sendReply, State.cacheReply, hs]
  exact h

/-! The way of a request to its operation. -/

section
variable {s : State} {r : Req} {m : MOp} {x : Session}

/-- The session of a request has heard a message. -/
def Session.at (x : Session) (clk : Nat) : Session := { x with lastMsg := clk }
def State.hearing (s : State) (r : Req) (x : Session) : State := s.setSession r.cls (x.at s.clk)

theorem State.request_of_reaches (h : s.Reaches r m) : s.request r m = s.transact r m := by
  obtain ⟨-, hnorm, hserves, -, -, hdef, hsettle⟩ := h
  rw [State.request, if_pos hserves, if_pos hdef, hsettle, hnorm]

theorem State.asked_of_reaches (h : s.Reaches r m) : asked r m s = .next (s.transact r m) :=
  (need_of h.1 _).trans (congrArg _ (State.request_of_reaches h))

theorem State.transact_of_reaches (h : s.Reaches r m) (hm : m ≠ .hello) (hb : m.isBad = false)
    (hx : s.sessionOf r.cls r.session = some x) : s.transact r m = s.inSession r x m := by
  obtain ⟨-, -, -, hcls, hdest, -, -⟩ := h
  have hbad : ¬(m.isBad = true ∧ m.code = 1) := fun e => by simp [hb] at e
  rw [State.transact, if_neg (by simp [hcls]), if_neg (fun e => hdest.elim e.1 e.2), if_neg hm, if_neg hbad, hx]

theorem State.transact_hello (h : s.Reaches r .hello) : s.transact r .hello = s.hello r := by
  obtain ⟨-, -, -, hcls, hdest, -, -⟩ := h
  rw [State.transact, if_neg (by simp [hcls]), if_neg (fun e => hdest.elim e.1 e.2), if_pos rfl]

theorem find?_xid_eq_none {cache : List (Nat × MgmtMsg)} {xid : Nat} (h : cache.all (fun c => c.1 != xid) = true) :
    cache.find? (fun c => c.1 == xid) = none := by
  rw [List.find?_eq_none]
  intro c hc
  simpa using List.all_eq_true.mp h c hc

theorem State.transact_of_hears (h : s.Hears r m x) (hm : m ≠ .hello) (hb : m.isBad = false) :
    s.transact r m = (s.hearing r x).checked r (x.at s.clk) m := by
  obtain ⟨hreach, -, hx, hcache, horder⟩ := h
  rw [State.transact_of_reaches hreach hm hb hx, State.inSession]
  dsimp only
  rw [find?_xid_eq_none hcache]
  dsimp only
  rw [if_neg]
  · rfl
  · rintro ⟨hne, hall⟩
    obtain he | hany := horder
    · exact hne he
    · obtain ⟨c, hc, hlt⟩ := List.any_eq_true.mp hany
      have := List.all_eq_true.mp hall c hc
      simp [this] at hlt

theorem State.notInRecovery_of_hears (h : s.Hears r m x) : (s.caddy.recovery && !m.inRecovery) = false := by
  have := h.2.1
  cases hr : s.caddy.recovery with
  | false => rfl
  | true => simp [this hr]

/-- An operation of R411 that passes through a session's ordinary checks. -/
def MOp.plain : MOp → Bool
  | .hello => false
  | .claim _ _ _ => false
  | .bad _ _ => false
  | _ => true

theorem MOp.ne_hello_of_plain (h : m.plain = true) : m ≠ .hello := by
  rintro rfl
  exact Bool.noConfusion h

theorem MOp.isBad_of_plain (h : m.plain = true) : m.isBad = false := by
  cases m with
  | bad op p => exact Bool.noConfusion h
  | _ => rfl

theorem State.checked_of_plain (h : m.plain = true) (hrec : (s.caddy.recovery && !m.inRecovery) = false)
    (ho : (ownerOp m.code && !s.fromOwner r) = false) (hh : (handoverOp m.code && s.caddy.handover.isSome) = false) :
    s.checked r x m = s.operate r m := by
  have he : s.checked r x m = if s.caddy.recovery && !m.inRecovery then s.answer (replyTo r m.code r.session r.epoch 0x0F [])
      else if ownerOp m.code && !s.fromOwner r then s.answer (replyTo r m.code r.session r.epoch 0x01 [])
      else if handoverOp m.code && s.caddy.handover.isSome then s.answer (replyTo r m.code r.session r.epoch 0x09 [])
      else s.operate r m := by
    cases m with
    | claim p pre tag => exact Bool.noConfusion h
    | _ => rfl
  rw [he, hrec, ho, hh]
  rfl

theorem State.transact_of_allowed (h : s.Hears r m x) (hp : m.plain = true)
    (ho : ownerOp m.code = true → s.fromOwner r = true) (hh : handoverOp m.code = true → s.caddy.handover = none) :
    s.transact r m = (s.hearing r x).operate r m := by
  rw [State.transact_of_hears h (MOp.ne_hello_of_plain hp) (MOp.isBad_of_plain hp)]
  refine State.checked_of_plain hp (show (s.caddy.recovery && !m.inRecovery) = false from State.notInRecovery_of_hears h) ?_ ?_
  · change (ownerOp m.code && !s.fromOwner r) = false
    cases hc : ownerOp m.code with
    | false => rfl
    | true => rw [ho hc]; rfl
  · change (handoverOp m.code && s.caddy.handover.isSome) = false
    cases hc : handoverOp m.code with
    | false => rfl
    | true => rw [hh hc]; rfl

/-- A request whose operation is executed as soon as it arrives. -/
def State.Operates (s : State) (r : Req) (m : MOp) (x : Session) : Prop :=
  asked r m s = .next ((s.hearing r x).operate r m)

theorem State.operates_of_obeys (h : s.Obeys r m x) (hp : m.plain = true) : s.Operates r m x :=
  (State.asked_of_reaches h.1.1).trans
    (congrArg _ (State.transact_of_allowed h.1 hp (fun _ => h.2.1) h.2.2))

theorem State.operates_of_hears (h : s.Hears r m x) (hp : m.plain = true) (ho : ownerOp m.code = false) : s.Operates r m x := by
  have hh : handoverOp m.code = false := by
    cases hc : handoverOp m.code with
    | false => rfl
    | true =>
      have : ownerOp m.code = true := by
        simp only [handoverOp, ownerOp, List.contains_iff_mem, List.mem_cons] at hc ⊢
        grind
      exact Bool.noConfusion (ho.symm.trans this)
  exact (State.asked_of_reaches h.1).trans (congrArg _ (State.transact_of_allowed h hp (by simp [ho]) (by simp [hh])))

/-- The reply to an operation. -/
def State.replies (t : State) (r : Req) (m : MOp) (st : Nat) (p : List Byte) : State :=
  t.answer (replyTo r m.code r.session r.epoch st p)

theorem State.replies_runs (t : State) (r : Req) (m : MOp) (st : Nat) (p : List Byte) :
    Runs [.router, .caddy, .host, .out] t (t.replies r m st p) := State.answer_runs t _

theorem State.answers_replies (t : State) (r : Req) (m : MOp) (st : Nat) (p : List Byte) :
    (t.replies r m st p).Answers r m st p := State.answers_answer t r m st p

theorem State.operate_eq (s : State) (r : Req) (m : MOp) (x : Session) : (s.hearing r x).operate r m =
    match ((s.taking r x).perform r m).2 with
    | .now st p => (if st = 0 then ((s.taking r x).perform r m).1 else ((s.hearing r x).perform r m).1).replies r m st p
    | .later => ((s.taking r x).perform r m).1
    | .reset k => (((s.taking r x).perform r m).1.replies r m 0 []).resetNow k := by
  change (s.hearing r x).operate r m =
    match ((if (s.hearing r x).fromOwner r then (s.hearing r x).renewLease else s.hearing r x).perform r m).2 with
    | .now st p => (if st = 0
        then ((if (s.hearing r x).fromOwner r then (s.hearing r x).renewLease else s.hearing r x).perform r m).1
        else ((s.hearing r x).perform r m).1).replies r m st p
    | .later => ((if (s.hearing r x).fromOwner r then (s.hearing r x).renewLease else s.hearing r x).perform r m).1
    | .reset k => (((if (s.hearing r x).fromOwner r then (s.hearing r x).renewLease
        else s.hearing r x).perform r m).1.replies r m 0 []).resetNow k
  rw [State.operate]
  rfl

theorem State.Operates.accepted {t : State} {p : List Byte} (h : s.Operates r m x)
    (hp : (s.taking r x).perform r m = (t, .now 0 p)) : asked r m s = .next (t.replies r m 0 p) := by
  rw [show asked r m s = _ from h, State.operate_eq, hp]
  rfl

theorem State.Operates.refused {t u : State} {st : Nat} {p q : List Byte} (h : s.Operates r m x)
    (hp : (s.taking r x).perform r m = (t, .now st p)) (hst : st ≠ 0) (hu : (s.hearing r x).perform r m = (u, .now st q)) :
    asked r m s = .next (u.replies r m st p) := by
  rw [show asked r m s = _ from h, State.operate_eq, hp, hu]
  exact congrArg (fun v : State => Host.Outcome.next (v.replies r m st p)) (if_neg hst)

theorem State.Operates.later {t : State} (h : s.Operates r m x) (hp : (s.taking r x).perform r m = (t, .later)) :
    asked r m s = .next t := by
  rw [show asked r m s = _ from h, State.operate_eq, hp]

theorem State.Operates.reset {t : State} {k : Nat} (h : s.Operates r m x)
    (hp : (s.taking r x).perform r m = (t, .reset k)) : asked r m s = .next ((t.replies r m 0 []).resetNow k) := by
  rw [show asked r m s = _ from h, State.operate_eq, hp]

/-! What taking a request up changes: its session, and the owner's lease. -/

theorem State.hearing_runs (s : State) (r : Req) (x : Session) : Runs [.caddy] s (s.hearing r x) :=
  State.setSession_runs s r.cls _

theorem State.taking_runs (s : State) (r : Req) (x : Session) : Runs [.caddy] s (s.taking r x) := by
  have h : s.taking r x = if (s.hearing r x).fromOwner r then (s.hearing r x).renewLease else s.hearing r x := rfl
  rw [h]
  exact .ite (fun _ => Runs.comp (State.renewLease_runs _) rfl (State.hearing_runs s r x)) fun _ => State.hearing_runs s r x

end

theorem State.sessions_renewLease (s : State) : s.renewLease.caddy.sessions = s.caddy.sessions := by
  unfold State.renewLease
  split <;> rfl

theorem State.sessions_taking (s : State) (r : Req) (x : Session) :
    (s.taking r x).caddy.sessions = tins s.caddy.sessions r.cls (x.at s.clk) := by
  have h : s.taking r x = if (s.hearing r x).fromOwner r then (s.hearing r x).renewLease else s.hearing r x := rfl
  rw [h]
  split
  · exact State.sessions_renewLease _
  · rfl

theorem State.epoch_taking (s : State) (r : Req) (x : Session) : (s.taking r x).caddy.epoch = s.caddy.epoch := by
  unfold State.taking State.renewLease
  dsimp only
  split
  · split <;> rfl
  · rfl

theorem State.sessions_taking_ne (s : State) (r : Req) (x : Session) {c : Nat} (hc : c ≠ r.cls) :
    tget? (s.taking r x).caddy.sessions c = tget? s.caddy.sessions c := by
  rw [State.sessions_taking, tget?_tins_ne _ hc]

/-! A repeated request. -/

theorem State.transact_malformedHello {s : State} {r : Req} {p : List Byte} (h : s.Reaches r (.bad 1 p)) :
    s.transact r (.bad 1 p) = s.refuse r 1 0x0C := by
  obtain ⟨-, -, -, hcls, hdest, -, -⟩ := h
  rw [State.transact, if_neg (by simp [hcls]), if_neg (fun e => hdest.elim e.1 e.2), if_neg nofun, if_pos ⟨rfl, rfl⟩]

namespace Repeated

open Tests

/-- The reply that session 7 keeps for XID 9, its session, and the module with it. -/
def kept : MgmtMsg := replyTo req 3 7 3 0 []
def session : Session := { ses with cache := [(9, kept)] }
def module : State := heard.setCaddy { heard.caddy with sessions := [(1, session)] }

/-- A HELLO with a payload, which R413 refuses. -/
def longHello : MOp := .bad 1 [0]

end Repeated

/-- Refutes O22: a malformed HELLO needs no session to be refused, so with an XID that the session still caches it gets a
new refusal and not the cached reply. -/
theorem not_repeatedRequestsDoNothing : ¬ Obligations.RepeatedRequestsDoNothing := by
  unfold Obligations.RepeatedRequestsDoNothing
  intro h
  have hreach : Repeated.module.Reaches Tests.req Repeated.longHello := (Tests.reaches_iff _ _ _).mpr (by decide +kernel)
  have hout := (h Repeated.module Tests.req Repeated.longHello Repeated.session Repeated.kept (by decide +kernel)
    hreach nofun (by decide +kernel) (by decide +kernel)).1
  have hrefused : (Repeated.module.request Tests.req Repeated.longHello).out.mgmt =
      Repeated.module.out.mgmt ++ [replyTo Tests.req 1 7 3 0x0C []] := by
    rw [State.request_of_reaches hreach, Repeated.longHello, State.transact_malformedHello hreach]
    exact State.mgmt_sendReply Repeated.module _
  rw [hout] at hrefused
  have hlast := List.append_cancel_left hrefused
  exact absurd hlast (by decide +kernel)

end Sys2Proof.Machine
end


-- ==== Sys2Proof/Proofs/Sessions.lean ====
section
/-!
PROOF. How sessions open and end (R406, R410, R411, R418).
-/

namespace Sys2Proof.Machine

/-! HELLO. -/

/-- The session that a HELLO opens. -/
def State.opened (s : State) (r : Req) : Session where
  num := Config.sessionNum s.caddy.opened % 2 ^ 32
  transport := r.transport
  challenge := Config.challenge s.free % 2 ^ 64
  cache := []
  lastMsg := s.clk

/-- The module with that session open. -/
def State.opens (s : State) (r : Req) : State :=
  (s.fresh.setCaddy { s.caddy with opened := s.caddy.opened + 1 }).setSession r.cls (s.opened r)

/-- The class that HELLO's reply names as the owner's. -/
def State.ownerClass (s : State) : Nat :=
  match s.caddy.owner with
  | some o => o.cls
  | none => 15

/-- The class's session is the owner's (R411). -/
def State.ownsSession (s : State) (r : Req) : Bool :=
  match s.caddy.owner, tget? s.caddy.sessions r.cls with
  | some o, some x => o.cls == r.cls && o.session == x.num
  | _, _ => false

theorem State.hello_eq (s : State) (r : Req) : s.hello r =
    if s.ownsSession r then s.refuse r 0x01 0x05
    else (s.opens r).sendReply (replyTo r 0x01 (s.opened r).num r.epoch 0
      (toLE 8 (s.opened r).challenge ++ toLE 2 s.me ++ toLE 1 s.ownerClass)) := rfl

theorem State.ownsSession_eq_false {s : State} {r : Req} (h : ∀ o x, s.caddy.owner = some o →
    tget? s.caddy.sessions r.cls = some x → o.cls = r.cls → o.session ≠ x.num) : s.ownsSession r = false := by
  unfold State.ownsSession
  split
  · next o x ho hx =>
    cases hc : o.cls == r.cls with
    | false => rfl
    | true => simpa using h o x ho hx (by simpa using hc)
  · rfl

theorem State.opens_runs (s : State) (r : Req) : Runs [.caddy, .free] s (s.opens r) := by
  refine .comp (State.setSession_runs _ _ _) rfl (.comp (State.setCaddy_runs _ _ ?_) rfl ((State.fresh_runs s).mono rfl))
  exact id

/-- O21's clause for HELLO. -/
theorem exec_hello_opens {s : State} {r : Req} (h : s.Reaches r .hello) (hown : s.ownsSession r = false) :
    ∃ t x, exec (.hello r) s = .next t ∧ tget? t.caddy.sessions r.cls = some x ∧ x.transport = r.transport ∧
      x.cache = [] ∧ x.lastMsg = s.clk ∧
      t.out.mgmt.getLast? = some (replyTo r 1 x.num r.epoch 0 (toLE 8 x.challenge ++ toLE 2 s.me ++ toLE 1 s.ownerClass)) ∧
      (∀ c, c ≠ r.cls → tget? t.caddy.sessions c = tget? s.caddy.sessions c) ∧ t.caddy.owner = s.caddy.owner ∧
      Frame [.router, .caddy, .host, .out, .free] s t := by
  let m := replyTo r 0x01 (s.opened r).num r.epoch 0 (toLE 8 (s.opened r).challenge ++ toLE 2 s.me ++ toLE 1 s.ownerClass)
  have hcaddy := State.caddy_sendReply (s.opens r) m
  refine ⟨(s.opens r).sendReply m, s.opened r, ?_, ?_, rfl, rfl, rfl, ?_, fun c hc => ?_, ?_, ?_⟩
  · have ht : s.transact r .hello = (s.opens r).sendReply m := by
      rw [State.transact_hello h, State.hello_eq, hown]
      rfl
    exact (State.asked_of_reaches h).trans (congrArg _ ht)
  · rw [hcaddy]
    exact tget?_tins_self _ _ _
  · rw [State.mgmt_sendReply, List.getLast?_concat]
  · rw [hcaddy]
    exact tget?_tins_ne _ hc _
  · rw [hcaddy]
    rfl
  · exact (Runs.comp (State.sendReply_runs _ m) rfl ((State.opens_runs s r).mono rfl)).frame

/-! The ends of a session. -/

theorem State.session_endSession {s : State} (hw : s.wf = true) (c : Nat) :
    tget? (s.endSession c).caddy.sessions c = none := tget?_terase_self (State.keysFrom_sessions hw) c

/-- O21's clause for CLOSE. -/
theorem exec_close_ends {s : State} {r : Req} {x : Session} (hw : s.wf = true) (h : s.Hears r .close x) :
    ∃ t, exec (.close r) s = .next t ∧ tget? t.caddy.sessions r.cls = none ∧
      (∀ c, c ≠ r.cls → tget? t.caddy.sessions c = tget? s.caddy.sessions c) ∧ t.Answers r .close 0 [] ∧
      Frame [.router, .caddy, .host, .out] s t := by
  have hruns := State.taking_runs s r x
  refine ⟨((s.taking r x).endSession r.cls).replies r .close 0 [], ?_, ?_, fun c hc => ?_, State.answers_replies .., ?_⟩
  · exact (State.operates_of_hears h rfl (by decide)).accepted rfl
  · exact State.sessions_answer_none (State.session_endSession (hruns.wf hw) r.cls)
  · calc tget? (((s.taking r x).endSession r.cls).replies r .close 0 []).caddy.sessions c
        = tget? ((s.taking r x).endSession r.cls).caddy.sessions c := State.sessions_answer_ne _ _ hc
      _ = tget? (s.taking r x).caddy.sessions c := tget?_terase_ne _ hc
      _ = tget? s.caddy.sessions c := State.sessions_taking_ne s r x hc
  · exact (Runs.comp (State.replies_runs ..) rfl
      (Runs.comp (State.endSession_runs _ _) rfl (hruns.mono rfl))).frame

/-- Settles O21: HELLO opens the class's session, and CLOSE and the three timers drop exactly what their rules name. -/
theorem sessionsOpenAndEnd : Obligations.SessionsOpenAndEnd := by
  unfold Obligations.SessionsOpenAndEnd
  intro s hw
  refine ⟨fun r h hown => exec_hello_opens h (State.ownsSession_eq_false hown), fun r x h => exec_close_ends hw h,
    fun c x hc hx hlapse => ?_, fun c hc => ?_, fun c i => ?_⟩
  · have ht : s.sessionEnds c = s.endSession c := by rw [State.sessionEnds, hx]; exact if_pos hlapse
    exact ⟨s.endSession c, (need_of (decide_eq_true hc) _).trans (congrArg _ ht), State.session_endSession hw c,
      fun d hd => tget?_terase_ne _ hd, rfl, (State.endSession_runs s c).frame⟩
  · refine ⟨s.lockEnds c, need_of (decide_eq_true hc) _, fun l => ?_, (State.lockEnds_runs s c).frame⟩
    simp only [State.lockEnds, State.setCaddy, List.mem_filter, Bool.not_eq_true', Bool.and_eq_false_iff, beq_eq_false_iff_ne,
      decide_eq_false_iff_not, not_and_or, ne_eq]
  · refine ⟨s.partialEnds c i, rfl, fun p => ?_, (State.partialEnds_runs c i s).frame⟩
    simp only [State.partialEnds, State.setCaddy, List.mem_filter, Bool.not_eq_true', Bool.and_eq_false_iff,
      beq_eq_false_iff_ne, decide_eq_false_iff_not, not_and_or, or_assoc, ne_eq]

end Sys2Proof.Machine
end


-- ==== Sys2Proof/Proofs/StagedSets.lean ====
section
/-!
PROOF. What a DISCARD drops and what it leaves (R416, R417).
-/

namespace Sys2Proof.Machine

theorem tget?_filter_key {α : Type} (q : Nat → Bool) (t : Tbl α) (i : Nat) :
    tget? (t.filter (fun p => q p.1)) i = if q i then tget? t i else none := by
  induction t with
  | nil => exact (ite_self none).symm
  | cons p t ih =>
    obtain ⟨k, v⟩ := p
    rw [List.filter_cons]
    by_cases hk : k = i
    · subst hk
      cases hq : q k with
      | true => simp [tget?]
      | false => simpa [hq] using ih
    · cases hq : q k with
      | true => simp only [if_true, tget?, if_neg hk, ih]
      | false => simp only [Bool.false_eq_true, if_false, tget?, if_neg hk, ih]

/-- An area's staged set is dropped. -/
def AreaSt.dropped (a : AreaSt) : AreaSt := { a with pending := false }

/-- The commit states of a state are in canonical form. -/
def AreasOk (s : State) : Prop := twf .init s.obj.area = true

theorem State.area_congr {s t : State} (h : t.obj = s.obj) (a : Nat) : t.area a = s.area a := by
  rw [State.area, h, State.area]

theorem State.ov_discardArea (s : State) (a id : Nat) : (s.discardArea a).ov id = s.ov id := rfl

theorem State.area_discardArea {s : State} (h : AreasOk s) (a b : Nat) :
    (s.discardArea a).area b = if b = a then (s.area a).dropped else s.area b := State.area_setArea h a b _

theorem State.staged_discardArea (s : State) (a id : Nat) :
    tget? (s.discardArea a).obj.staged id = if id / 65536 = a then none else tget? s.obj.staged id := by
  change tget? (s.obj.staged.filter (fun p => p.1 / 65536 != a)) id = _
  rw [tget?_filter_key (fun k => k / 65536 != a)]
  by_cases h : id / 65536 = a
  · simp [h]
  · simp [h]

theorem Recordwise.discardArea : Recordwise AreasOk State.area (fun s a => s.discardArea a) (fun s a => (s.area a).dropped) where
  keeps a h := twf_tset _ _ _ h
  self a h := by rw [State.area_discardArea h, if_pos rfl]
  other h hne := by rw [State.area_discardArea h, if_neg hne]
  stable h hne := by rw [State.area_discardArea h, if_neg hne]

theorem State.ov_discardAll (s : State) (id : Nat) : s.discardAll.ov id = s.ov id :=
  foldl_keeps (g := fun s : State => s.ov id) (f := fun s a => s.discardArea a) (fun s a => State.ov_discardArea s a id) _ s

theorem State.pending_discardAll {s : State} (h : AreasOk s) {a : Nat} (ha : a < 16) : (s.discardAll.area a).pending = false :=
  congrArg AreaSt.pending (Recordwise.discardArea.get_foldl _ h List.nodup_range (List.mem_range.mpr ha))

theorem State.staged_foldl_discardArea (as : List Nat) (s : State) (id : Nat) :
    tget? (as.foldl (fun s a => s.discardArea a) s).obj.staged id = if id / 65536 ∈ as then none else tget? s.obj.staged id := by
  induction as generalizing s with
  | nil => rfl
  | cons a as ih =>
    rw [List.foldl_cons, ih, State.staged_discardArea]
    by_cases h : id / 65536 = a
    · simp [h]
    · simp [h]

theorem State.staged_discardAll (s : State) {id : Nat} (h : id < 0x100000) : tget? s.discardAll.obj.staged id = none := by
  rw [State.discardAll, State.staged_foldl_discardArea, if_pos (List.mem_range.mpr (by omega))]

end Sys2Proof.Machine
end


-- ==== Sys2Proof/Proofs/Ownership.lean ====
section
/-!
PROOF. Ownership is claimed, renewed, released, handed over and lost (R417 to R421).
-/

namespace Sys2Proof.Machine

/-! Ownership in the caddy's state. -/

def Caddy.ownedBy (c : Caddy) (o : Owner) (epoch : Nat) : Caddy := { c with owner := some o, epoch := epoch, handover := none }
def Caddy.unowned (c : Caddy) : Caddy := { c with owner := none, handover := none }
def Caddy.handing (c : Caddy) (h : Option (Nat × Nat)) : Caddy := { c with handover := h }

theorem State.area_event (s : State) (code arg a : Nat) : (s.event code arg).area a = s.area a :=
  State.area_congr ((State.event_runs s code arg).same .obj rfl) a

/-- A change of owner drops every staged set and tells every session (R417, R419). -/
def State.changesHands (s : State) (c : Caddy) (arg : Nat) : State := (s.setCaddy c).discardAll.event 1 arg

section
variable {s : State} (c : Caddy) (arg : Nat)

theorem State.caddy_changesHands : (s.changesHands c arg).caddy = c := by
  have hevent : (s.changesHands c arg).caddy = (s.setCaddy c).discardAll.caddy := (State.event_runs _ 1 arg).same .caddy rfl
  have hdiscard : (s.setCaddy c).discardAll.caddy = c := (State.discardAll_runs _).same .caddy rfl
  rw [hevent, hdiscard]

theorem State.obj_changesHands : (s.changesHands c arg).obj = (s.setCaddy c).discardAll.obj :=
  (State.event_runs _ 1 arg).same .obj rfl

theorem State.ov_changesHands (id : Nat) : (s.changesHands c arg).ov id = s.ov id :=
  (State.ov_congr (State.obj_changesHands c arg) id).trans (State.ov_discardAll _ id)

theorem State.pending_changesHands (h : AreasOk s) {a : Nat} (ha : a < 16) :
    ((s.changesHands c arg).area a).pending = false := by
  rw [State.changesHands, State.area_event]
  exact State.pending_discardAll h ha

theorem State.staged_changesHands {id : Nat} (hid : id < 0x100000) : tget? (s.changesHands c arg).obj.staged id = none := by
  rw [State.obj_changesHands]
  exact State.staged_discardAll _ hid

end

theorem State.grant_eq (s : State) (r : Req) (prio : Nat) : s.grant r prio =
    s.changesHands (s.caddy.ownedBy ⟨r.cls, r.session, prio, s.clk + leaseNs⟩ ((s.caddy.epoch + 1) % 2 ^ 32))
      ((s.caddy.epoch + 1) % 2 ^ 32) := rfl

theorem State.ownerGone_eq (s : State) : s.ownerGone = s.changesHands s.caddy.unowned 0 := rfl


/-! CLAIM. -/

section
variable {s : State} {r : Req} {x : Session} {p : Nat} {pre : Bool} {tag : List Byte}

/-- The module once a CLAIM's session has its next challenge, and that session. -/
def State.challenged (s : State) (r : Req) (x : Session) : State := (s.hearing r x).nextChallenge r.cls (x.at s.clk)
def Session.next (x : Session) (clk free : Nat) : Session :=
  { x.at clk with challenge := Config.challenge free % 2 ^ 64 }

theorem State.challenged_runs (s : State) (r : Req) (x : Session) : Runs [.caddy, .free] s (s.challenged r x) :=
  .comp (State.nextChallenge_runs _ _ _) rfl ((State.hearing_runs s r x).mono rfl)

theorem State.sessionOf_challenged (s : State) (r : Req) (x : Session) :
    (s.challenged r x).sessionOf r.cls x.num = some (x.next s.clk s.free) := State.sessionOf_setSession _ r.cls (x.next s.clk s.free)

theorem State.sessionOf_congr {s t : State} (h : t.caddy.sessions = s.caddy.sessions) (c n : Nat) :
    t.sessionOf c n = s.sessionOf c n := by rw [State.sessionOf, h, State.sessionOf]

/-- The reply to a CLAIM whose new state is `n` with status `st`. -/
def claimReply (r : Req) (n : State) (st : Nat) (y : Session) : MgmtMsg :=
  replyTo r 0x02 r.session (if st = 0 then n.caddy.epoch else r.epoch) st (toLE 8 y.challenge)

theorem State.transact_claim (h : s.Hears r (.claim p pre tag) x) : s.transact r (.claim p pre tag) =
    (s.hearing r x).claimed r (x.at s.clk) p pre tag := by
  have hrec : ((s.hearing r x).caddy.recovery && !(MOp.claim p pre tag).inRecovery) = false := Bool.and_false _
  rw [State.transact_of_hears h nofun rfl, State.checked]
  dsimp only
  rw [if_neg (by simp [hrec])]

/-- A CLAIM that passes its session's checks ends with its reply in the state that its row of R417 gives. -/
theorem exec_claim_of (h : s.Hears r (.claim p pre tag) x) {n : State} {st : Nat} {y : Session}
    (hn : (s.hearing r x).claim_ r (x.at s.clk) p pre tag = (n, st)) (hy : n.sessionOf r.cls r.session = some y) :
    exec (.claim r p pre tag) s = .next (n.answer (claimReply r n st y)) := by
  have hclaimed : (s.hearing r x).claimed r (x.at s.clk) p pre tag = n.answer (claimReply r n st y) := by
    rw [State.claimed, hn]
    dsimp only
    rw [hy]
    rfl
  exact (State.asked_of_reaches h.1).trans (congrArg _ ((State.transact_claim h).trans hclaimed))

/-- What a CLAIM leaves: its session with the challenge that the reply tells, and the caddy's state as its row makes it. -/
theorem exec_claim_answers (h : s.Hears r (.claim p pre tag) x) {n : State} {st : Nat} {y : Session}
    (hn : (s.hearing r x).claim_ r (x.at s.clk) p pre tag = (n, st)) (hy : n.sessionOf r.cls r.session = some y) :
    ∃ t z, exec (.claim r p pre tag) s = .next t ∧ t.caddy.apart = n.caddy.apart ∧ t.sessionOf r.cls r.session = some z ∧
      t.out.mgmt.getLast? = some (replyTo r 2 r.session (if st = 0 then t.caddy.epoch else r.epoch) st (toLE 8 z.challenge)) ∧
      Runs [.router, .caddy, .host, .out] n t := by
  have hapart := State.apart_answer n (claimReply r n st y)
  refine ⟨_, y.cached (claimReply r n st y), exec_claim_of h hn hy, hapart,
    State.sessionOf_answer (m := claimReply r n st y) hy, ?_, State.answer_runs _ _⟩
  rw [State.mgmt_answer, List.getLast?_concat, Caddy.epoch_of_apart hapart]
  rfl

theorem State.claim_eq (hlock : s.locked r.cls = false) : (s.hearing r x).claim_ r (x.at s.clk) p pre tag =
    if s.tagOk r x.challenge p pre tag then (s.challenged r x).claimRow r p pre else ((s.challenged r x).authFail r.cls, 3) := by
  have hl : (s.hearing r x).locked r.cls = false := hlock
  rw [State.claim_, hl]
  rfl

theorem State.claimRow_of_unowned (h : s.caddy.owner = none) : s.claimRow r p pre = (s.grant r p, 0) := by
  rw [State.claimRow, h]

theorem State.claimRow_of_kept {o : Owner} (ho : s.caddy.owner = some o) (hne : ¬(o.cls = r.cls ∧ o.session = r.session))
    (hh : s.caddy.handover = none) (hp : ¬(pre = true ∧ o.priority < p)) : s.claimRow r p pre = (s, 2) := by
  rw [State.claimRow, ho]
  dsimp only
  rw [if_neg hne, if_neg]
  rw [hh]
  exact fun e => e.elim (by simp) hp

theorem State.authFail_keeps (s : State) (c : Nat) : (s.authFail c).caddy.owner = s.caddy.owner ∧
    (s.authFail c).caddy.epoch = s.caddy.epoch ∧ (s.authFail c).caddy.sessions = s.caddy.sessions := by
  unfold State.authFail
  dsimp only
  split <;> exact ⟨rfl, rfl, rfl⟩

end

section
variable {s : State} {r : Req} {x : Session} {c : Nat}

/-- O23's clause for a CLAIM of a module without an owner. -/
theorem exec_claim_grants {p : Nat} {pre : Bool} {tag : List Byte} (hw : s.wf = true) (h : s.Hears r (.claim p pre tag) x)
    (hlock : s.locked r.cls = false) (htag : s.tagOk r x.challenge p pre tag = true) (ho : s.caddy.owner = none) :
    ∃ t y, exec (.claim r p pre tag) s = .next t ∧ t.caddy.epoch = (s.caddy.epoch + 1) % 2 ^ 32 ∧
      t.caddy.owner = some ⟨r.cls, r.session, p, s.clk + 500000000⟩ ∧ t.sessionOf r.cls r.session = some y ∧
      t.out.mgmt.getLast? = some (replyTo r 2 r.session t.caddy.epoch 0 (toLE 8 y.challenge)) ∧
      (∀ a, a < 16 → (t.area a).pending = false) ∧ (∀ id, id < 0x100000 → tget? t.obj.staged id = none) ∧
      (∀ id, t.ov id = s.ov id) ∧ Frame [.router, .caddy, .host, .obj, .out, .free] s t := by
  have hnum : x.num = r.session := (State.sessionOf_eq_some.mp h.2.2.1).2
  have howner : (s.challenged r x).caddy.owner = none := ho
  have hrow := (State.claim_eq (x := x) (p := p) (pre := pre) (tag := tag) hlock).trans
    ((if_pos htag).trans (State.claimRow_of_unowned howner))
  have hgrant := State.grant_runs (s.challenged r x) r p
  rw [State.grant_eq] at hrow hgrant
  obtain ⟨c, hc⟩ : ∃ c, c = (s.challenged r x).caddy.ownedBy ⟨r.cls, r.session, p, (s.challenged r x).clk + leaseNs⟩
      (((s.challenged r x).caddy.epoch + 1) % 2 ^ 32) := ⟨_, rfl⟩
  rw [← hc] at hrow hgrant
  have hcaddy := State.caddy_changesHands (s := s.challenged r x) c (((s.challenged r x).caddy.epoch + 1) % 2 ^ 32)
  have hsession : c.sessions = (s.challenged r x).caddy.sessions := by rw [hc]; rfl
  have hy := (State.sessionOf_congr ((congrArg Caddy.sessions hcaddy).trans hsession) r.cls r.session).trans
    (hnum ▸ State.sessionOf_challenged s r x)
  obtain ⟨t, z, hexec, hapart, hz, hlast, hruns⟩ := exec_claim_answers h hrow hy
  rw [hcaddy] at hapart
  have hobj := hruns.same .obj rfl
  have hchallenged := State.challenged_runs s r x
  refine ⟨t, z, hexec, ?_, ?_, hz, hlast, fun a ha => ?_, fun id hid => ?_, fun id => ?_, ?_⟩
  · rw [Caddy.epoch_of_apart hapart, hc]
    rfl
  · rw [Caddy.owner_of_apart hapart, hc]
    rfl
  · rw [State.area_congr hobj]
    exact State.pending_changesHands c _ (State.twf_area (hchallenged.wf hw)) ha
  · rw [show t.obj = _ from hobj]
    exact State.staged_changesHands c _ hid
  · rw [State.ov_congr hobj, State.ov_changesHands]
    exact State.ov_congr (hchallenged.same .obj rfl) id
  · exact (Runs.comp hruns rfl (.comp hgrant rfl (hchallenged.mono rfl))).frame

/-- O23's clause for a CLAIM that an owner of no lower priority withstands. -/
theorem exec_claim_withstood {p : Nat} {pre : Bool} {tag : List Byte} (h : s.Hears r (.claim p pre tag) x)
    (hlock : s.locked r.cls = false) (htag : s.tagOk r x.challenge p pre tag = true) {o : Owner}
    (ho : s.caddy.owner = some o) (hne : ¬(o.cls = r.cls ∧ o.session = r.session)) (hh : s.caddy.handover = none)
    (hp : ¬(pre = true ∧ o.priority < p)) :
    ∃ t y, exec (.claim r p pre tag) s = .next t ∧ t.caddy.owner = some o ∧ t.caddy.epoch = s.caddy.epoch ∧
      t.sessionOf r.cls r.session = some y ∧
      t.out.mgmt.getLast? = some (replyTo r 2 r.session r.epoch 2 (toLE 8 y.challenge)) ∧
      Frame [.router, .caddy, .host, .out, .free] s t := by
  have hnum : x.num = r.session := (State.sessionOf_eq_some.mp h.2.2.1).2
  have hrow := (State.claim_eq (x := x) (p := p) (pre := pre) (tag := tag) hlock).trans
    ((if_pos htag).trans (State.claimRow_of_kept (s := s.challenged r x) ho hne hh hp))
  obtain ⟨t, z, hexec, hapart, hz, hlast, hruns⟩ := exec_claim_answers h hrow (hnum ▸ State.sessionOf_challenged s r x)
  exact ⟨t, z, hexec, (Caddy.owner_of_apart hapart).trans ho, Caddy.epoch_of_apart hapart, hz, hlast,
    (Runs.comp hruns rfl ((State.challenged_runs s r x).mono rfl)).frame⟩

/-- O23's clause for a CLAIM with a wrong TAG. -/
theorem exec_claim_wrongTag {p : Nat} {pre : Bool} {tag : List Byte} (h : s.Hears r (.claim p pre tag) x)
    (hlock : s.locked r.cls = false) (htag : s.tagOk r x.challenge p pre tag = false) :
    ∃ t y, exec (.claim r p pre tag) s = .next t ∧ t.caddy.owner = s.caddy.owner ∧ t.caddy.epoch = s.caddy.epoch ∧
      t.sessionOf r.cls r.session = some y ∧
      t.out.mgmt.getLast? = some (replyTo r 2 r.session r.epoch 3 (toLE 8 y.challenge)) ∧
      Frame [.router, .caddy, .host, .out, .free] s t := by
  have hnum : x.num = r.session := (State.sessionOf_eq_some.mp h.2.2.1).2
  have hrow := (State.claim_eq (x := x) (p := p) (pre := pre) (tag := tag) hlock).trans (if_neg (by simp [htag]))
  obtain ⟨howner, hepoch, hsessions⟩ := State.authFail_keeps (s.challenged r x) r.cls
  obtain ⟨t, z, hexec, hapart, hz, hlast, hruns⟩ := exec_claim_answers h hrow
    ((State.sessionOf_congr hsessions r.cls r.session).trans (hnum ▸ State.sessionOf_challenged s r x))
  exact ⟨t, z, hexec, (Caddy.owner_of_apart hapart).trans howner, (Caddy.epoch_of_apart hapart).trans hepoch, hz, hlast,
    (Runs.comp hruns rfl (.comp (State.authFail_runs _ _) rfl ((State.challenged_runs s r x).mono rfl))).frame⟩

/-! RENEW, RELEASE and HANDOVER. -/

theorem State.fromOwner_owner (h : s.fromOwner r = true) : ∃ o, s.caddy.owner = some o := by
  unfold State.fromOwner at h
  split at h
  · next o ho => exact ⟨o, ho⟩
  · cases h

theorem State.taking_of_owner (h : s.fromOwner r = true) : s.taking r x = (s.hearing r x).renewLease :=
  (if_pos h : (if (s.hearing r x).fromOwner r then (s.hearing r x).renewLease else s.hearing r x) = _)

theorem State.owner_taking (h : s.fromOwner r = true) {o : Owner} (ho : s.caddy.owner = some o) :
    (s.taking r x).caddy.owner = some { o with leaseEnd := s.clk + 500000000 } := by
  have ho' : (s.hearing r x).caddy.owner = some o := ho
  rw [State.taking_of_owner h, State.renewLease, ho']
  rfl

theorem State.handTo_of_open {c : Nat} {y : Session} (hy : tget? s.caddy.sessions c = some y)
    (ha : ∀ a, a < 16 → (s.area a).pending = false) :
    s.handTo c = (s.setCaddy (s.caddy.handing (some (c, s.clk + leaseNs))), 0) := by
  have hany : ¬((List.range 16).any (fun a => (s.area a).pending) = true) := by
    rw [List.any_eq_true]
    rintro ⟨a, hmem, hp⟩
    exact Bool.noConfusion (hp.symm.trans (ha a (List.mem_range.mp hmem)))
  rw [State.handTo, hy, if_neg (by simp), if_neg hany]
  rfl

/-- O23's clause for RENEW. -/
theorem exec_renew_extends (h : s.Obeys r .renew x) {o : Owner} (ho : s.caddy.owner = some o) :
    ∃ t, exec (.renew r) s = .next t ∧ t.caddy.owner = some { o with leaseEnd := s.clk + 500000000 } ∧
      t.Answers r .renew 0 [] ∧ Frame [.router, .caddy, .host, .out] s t := by
  refine ⟨(s.taking r x).replies r .renew 0 [], (State.operates_of_obeys h rfl).accepted rfl, ?_, State.answers_replies .., ?_⟩
  · exact (Caddy.owner_of_apart (State.apart_answer _ _)).trans (State.owner_taking h.2.1 ho)
  · exact (Runs.comp (State.replies_runs ..) rfl ((State.taking_runs s r x).mono rfl)).frame

/-- O23's clause for RELEASE. -/
theorem exec_release_ends (hw : s.wf = true) (h : s.Obeys r .release x) :
    ∃ t, exec (.release r) s = .next t ∧ t.caddy.owner = none ∧ t.caddy.handover = none ∧
      t.caddy.epoch = s.caddy.epoch ∧ (∀ a, a < 16 → (t.area a).pending = false) ∧ t.Answers r .release 0 [] ∧
      Frame [.router, .caddy, .host, .obj, .out] s t := by
  have hapart := State.apart_answer (s.taking r x).ownerGone (replyTo r 0x04 r.session r.epoch 0 [])
  have hcaddy : (s.taking r x).ownerGone.caddy = (s.taking r x).caddy.unowned := State.caddy_changesHands _ _
  have hruns := State.replies_runs (s.taking r x).ownerGone r .release 0 []
  have htaking := State.taking_runs s r x
  rw [hcaddy] at hapart
  refine ⟨(s.taking r x).ownerGone.replies r .release 0 [], (State.operates_of_obeys h rfl).accepted rfl,
    Caddy.owner_of_apart hapart, Caddy.handover_of_apart hapart, ?_, fun a ha => ?_, State.answers_replies .., ?_⟩
  · exact (Caddy.epoch_of_apart hapart).trans (State.epoch_taking s r x)
  · rw [State.area_congr (hruns.same .obj rfl)]
    exact State.pending_changesHands _ _ (State.twf_area (htaking.wf hw)) ha
  · exact (Runs.comp hruns rfl (.comp (State.ownerGone_runs _) rfl (htaking.mono rfl))).frame

/-- O23's clause for HANDOVER. -/
theorem exec_handover_waits (h : s.Obeys r (.handover c) x) {y : Session} (hy : tget? s.caddy.sessions c = some y)
    (ha : ∀ a, a < 16 → (s.area a).pending = false) :
    ∃ t, exec (.handover r c) s = .next t ∧ t.caddy.handover = some (c, s.clk + 500000000) ∧
      t.Answers r (.handover c) 0 [] ∧ Frame [.router, .caddy, .host, .out] s t := by
  have htaking := State.taking_runs s r x
  obtain ⟨z, hz⟩ : ∃ z, tget? (s.taking r x).caddy.sessions c = some z := by
    rw [State.sessions_taking]
    by_cases hc : c = r.cls
    · rw [hc]
      exact ⟨_, tget?_tins_self _ _ _⟩
    · exact ⟨y, (tget?_tins_ne _ hc _).trans hy⟩
  have hclk : (s.taking r x).clk = s.clk := htaking.same .clk rfl
  have hto := State.handTo_of_open hz fun a h16 => (congrArg AreaSt.pending
    (State.area_congr (htaking.same .obj rfl) a)).trans (ha a h16)
  rw [hclk] at hto
  have hper : (s.taking r x).perform r (.handover c) =
      ((s.taking r x).setCaddy ((s.taking r x).caddy.handing (some (c, s.clk + leaseNs))), .now 0 []) :=
    congrArg (fun q : State × Nat => (q.1, Ans.now q.2 [])) hto
  refine ⟨_, (State.operates_of_obeys h rfl).accepted hper, Caddy.handover_of_apart (State.apart_answer _ _),
    State.answers_replies .., ?_⟩
  have hset := State.setCaddy_runs (s.taking r x) ((s.taking r x).caddy.handing (some (c, s.clk + leaseNs))) id
  exact (Runs.comp (State.replies_runs ..) rfl (.comp hset rfl (htaking.mono rfl))).frame

end

/-- Settles O23: who owns the module is decided by the caddy's state alone, which a reply leaves but for the sessions, and every
change of owner drops the staged sets on its way. -/
theorem ownershipChangesHands : Obligations.OwnershipChangesHands := by
  unfold Obligations.OwnershipChangesHands
  intro s hw
  refine ⟨fun r p pre tag x h hlock => ⟨exec_claim_grants hw h hlock, fun htag o ho hne hh hp =>
      exec_claim_withstood h hlock htag ho hne hh hp, exec_claim_wrongTag h hlock⟩,
    fun r x o h ho => exec_renew_extends h ho, fun r x h => exec_release_ends hw h,
    fun r x c y h hy ha => exec_handover_waits h hy ha, fun o ho hend hdef => ?_, fun h hh hend => ?_⟩
  · have ht : s.leaseEnds = s.ownerGone.event 2 0 := by rw [State.leaseEnds, ho]; exact if_pos ⟨hend, hdef⟩
    have hobj : (s.ownerGone.event 2 0).obj = s.ownerGone.obj := (State.event_runs _ _ _).same .obj rfl
    have hcaddy : (s.ownerGone.event 2 0).caddy = s.ownerGone.caddy := (State.event_runs _ _ _).same .caddy rfl
    refine ⟨s.ownerGone.event 2 0, congrArg Host.Outcome.next ht, hcaddy.trans (State.caddy_changesHands _ _),
      fun a ha => ?_, fun id => (State.ov_congr hobj id).trans (State.ov_changesHands _ _ id), ?_⟩
    · rw [State.area_event]
      exact State.pending_changesHands _ _ (State.twf_area hw) ha
    · exact (Runs.comp (State.event_runs ..) rfl (State.ownerGone_runs s)).frame
  · have ht : s.handoverEnds = (s.setCaddy (s.caddy.handing none)).event 6 0 := by
      rw [State.handoverEnds, hh]; exact if_pos hend
    refine ⟨(s.setCaddy (s.caddy.handing none)).event 6 0, congrArg Host.Outcome.next ht, ?_, ?_⟩
    · exact (State.event_runs _ _ _).same .caddy rfl
    · have hset : Runs [.router, .caddy, .host, .out] s (s.setCaddy (s.caddy.handing none)) :=
        (State.setCaddy_runs s (s.caddy.handing none) id).mono rfl
      exact (Runs.comp (State.event_runs ..) rfl hset).frame

end Sys2Proof.Machine
end


-- ==== Sys2Proof/Proofs/ObjectAccess.lean ====
section
/-!
PROOF. READ, WRITE and DESCRIBE of objects and POST (R411, R415, R416).
-/

namespace Sys2Proof.Machine

/-! The kinds of WRITE, by the object's catalogue row. -/

section
variable {s : State} {r : Req} {id : Nat} {row : ObjRow} {val : List Byte}

/-- A WRITE of a whole value to an object that is no BLOCK. -/
theorem State.write_whole (hrow : objRow id = some row) (h0 : row.access ≠ 0) (h3 : row.access ≠ 3) (h4 : row.type ≠ 4)
    (hlen : val.length = row.width) : s.write r id 0 val =
      if row.type = 6 then s.writeCommit r (id / 65536) (leNat val)
      else if row.type = 7 then s.action id (leNat val)
      else if row.staged then ok (s.stage id (leNat val))
      else s.immediate id (leNat val) := by
  have hfw : id ≠ fwImageBlockId := by
    rintro rfl
    have : row = ⟨fwImageBlockId, 1, 4, 2, false, false, 16, 0, 0, 1, 0⟩ := Option.some.inj (hrow.symm.trans (by decide +kernel))
    exact h4 (congrArg ObjRow.type this)
  rw [State.write, hrow]
  dsimp only
  rw [if_neg (fun e => e.elim h0 h3), if_neg hfw, if_neg h4, if_neg (by simp [hlen])]

theorem State.write_staged (hrow : objRow id = some row) (h0 : row.access ≠ 0) (h3 : row.access ≠ 3) (hst : row.staged = true)
    (h4 : row.type ≠ 4) (h6 : row.type ≠ 6) (h7 : row.type ≠ 7) (hlen : val.length = row.width) :
    s.write r id 0 val = ok (s.stage id (leNat val)) := by
  rw [State.write_whole hrow h0 h3 h4 hlen, if_neg h6, if_neg h7, if_pos hst]

end

/-- The caddy's state without its sessions and its owner. -/
def Caddy.beyond (c : Caddy) : Caddy := { c with sessions := [], owner := none }

/-- A state that has taken a request up differs in the caddy's sessions and its owner's lease alone. -/
theorem State.taking_eq (s : State) (r : Req) (x : Session) : ∃ c, s.taking r x = s.setCaddy c ∧ c.beyond = s.caddy.beyond := by
  unfold State.taking State.renewLease
  dsimp only
  split
  · split
    · exact ⟨_, rfl, rfl⟩
    · exact ⟨_, rfl, rfl⟩
  · exact ⟨_, rfl, rfl⟩

theorem State.sv_congr {s t : State} (h : t.obj = s.obj) (id : Nat) : t.sv id = s.sv id := by
  rw [State.sv, State.ov_congr h, h, State.sv]

theorem State.fromOwner_taking (s : State) (r : Req) (x : Session) : (s.taking r x).fromOwner r = s.fromOwner r := by
  by_cases h : s.fromOwner r = true
  · obtain ⟨o, ho⟩ := State.fromOwner_owner h
    have ho' := State.owner_taking (x := x) h ho
    rw [State.fromOwner, ho', State.epoch_taking, State.fromOwner, ho]
  · have ht : s.taking r x = s.hearing r x :=
      (if_neg h : (if (s.hearing r x).fromOwner r then (s.hearing r x).renewLease else s.hearing r x) = s.hearing r x)
    rw [ht]
    rfl

section
variable {s : State} {r : Req} {x : Session}

/-- An operation that leaves the module as it is: the reply is all that comes of it. -/
theorem State.Operates.answered {m : MOp} {p : List Byte} (h : s.Operates r m x)
    (hp : (s.taking r x).perform r m = (s.taking r x, .now 0 p)) :
    ∃ t, asked r m s = .next t ∧ t.Answers r m 0 p ∧ Frame [.router, .caddy, .host, .out] s t :=
  ⟨_, h.accepted hp, State.answers_replies .., (Runs.comp (State.replies_runs ..) rfl ((State.taking_runs s r x).mono rfl)).frame⟩

/-- An operation that is refused, whatever the caddy's sessions and owner. -/
theorem State.Operates.denied {m : MOp} {st : Nat} (h : s.Operates r m x) (hst : st ≠ 0)
    (hp : ∀ c, c.beyond = s.caddy.beyond → (s.setCaddy c).perform r m = no (s.setCaddy c) st) :
    ∃ t, asked r m s = .next t ∧ t.Answers r m st [] ∧ t.caddy.apart = s.caddy.apart ∧
      Frame [.router, .caddy, .host, .out] s t := by
  obtain ⟨c, hc, hbeyond⟩ := State.taking_eq s r x
  refine ⟨_, h.refused (hc ▸ hp c hbeyond : (s.taking r x).perform r m = no (s.taking r x) st) hst (hp _ rfl),
    State.answers_replies .., State.apart_answer _ _, ?_⟩
  exact (Runs.comp (State.replies_runs ..) rfl ((State.hearing_runs s r x).mono rfl)).frame

/-! READ. -/

theorem State.read_of_row {id sub fl : Nat} {row : ObjRow} (hrow : objRow id = some row) (h2 : row.access ≠ 2) (hfl : fl ≤ 1) :
    s.read r id sub fl = match s.tableRead id sub (bit fl 0) with
      | some b => (s, .now 0 b)
      | none => (if row.access = 3 ∧ s.fromOwner r then s.clearRc id else s, .now 0 (toLE row.width
          (if bit fl 0 ∧ row.staged then s.sv id else s.value id))) := by
  rw [State.read, hrow]
  dsimp only
  rw [if_neg h2, if_neg (by omega)] <;> rfl

theorem State.read_ordinary {id sub fl : Nat} {row : ObjRow} (hrow : objRow id = some row) (h2 : row.access ≠ 2)
    (h3 : row.access ≠ 3) (hfl : fl ≤ 1) : s.read r id sub fl = (s, .now 0 (match s.tableRead id sub (bit fl 0) with
      | some b => b
      | none => toLE row.width (if bit fl 0 = true ∧ row.staged = true then s.sv id else s.value id))) := by
  rw [State.read_of_row hrow h2 hfl]
  split
  · rfl
  · rw [if_neg (fun e => h3 e.1)]

/-- The row of EXCH_ERR_LOG. -/
theorem objRow_exchErrLog : ∃ row, objRow exchErrLogId = some row ∧ row.access = 3 ∧ row.staged = false ∧ row.width = 12 :=
  ⟨_, rfl, rfl, rfl, rfl⟩

theorem State.tableRead_exchErrLog (sub : Nat) (staged : Bool) : s.tableRead exchErrLogId sub staged = none := rfl

theorem State.read_exchErrLog {sub fl : Nat} (hfl : fl ≤ 1) : s.read r exchErrLogId sub fl =
    (if s.fromOwner r then s.setTxe { s.txe with errLog := 0 } else s, .now 0 (toLE 12 s.txe.errLog)) := by
  obtain ⟨row, hrow, h3, hst, hwidth⟩ := objRow_exchErrLog
  have hvalue : (if bit fl 0 = true ∧ row.staged = true then s.sv exchErrLogId else s.value exchErrLogId) = s.txe.errLog :=
    if_neg (by simp [hst])
  have hclear : (row.access = 3 ∧ s.fromOwner r = true) = (s.fromOwner r = true) := by simp [h3]
  rw [State.read_of_row hrow (by omega) hfl, State.tableRead_exchErrLog, hwidth]
  dsimp only
  rw [hvalue]
  simp only [hclear]
  rfl

/-- O24's clause for a READ that clears nothing. -/
theorem exec_read_answers {id sub fl : Nat} {row : ObjRow} (h : s.Hears r (.read id sub fl) x) (hrow : objRow id = some row)
    (h2 : row.access ≠ 2) (h3 : row.access ≠ 3) (hfl : fl ≤ 1) :
    ∃ t, exec (.read r id sub fl) s = .next t ∧
      t.Answers r (.read id sub fl) 0 (match (s.taking r x).tableRead id sub (bit fl 0) with
        | some b => b
        | none => toLE row.width
            (if bit fl 0 = true ∧ row.staged = true then (s.taking r x).sv id else (s.taking r x).value id)) ∧
      Frame [.router, .caddy, .host, .out] s t :=
  (State.operates_of_hears h rfl rfl).answered (State.read_ordinary hrow h2 h3 hfl)

/-- O24's clause for a READ of EXCH_ERR_LOG. -/
theorem exec_read_exchErrLog {sub fl : Nat} (h : s.Hears r (.read exchErrLogId sub fl) x) (hfl : fl ≤ 1) :
    ∃ t, exec (.read r exchErrLogId sub fl) s = .next t ∧
      t.Answers r (.read exchErrLogId sub fl) 0 (toLE 12 s.txe.errLog) ∧
      t.txe = (if s.fromOwner r then { s.txe with errLog := 0 } else s.txe) ∧
      Frame [.txe, .router, .caddy, .host, .out] s t := by
  obtain ⟨u, hu⟩ : ∃ u, u = if (s.taking r x).fromOwner r then (s.taking r x).setTxe { s.txe with errLog := 0 }
    else s.taking r x := ⟨_, rfl⟩
  have htxe : (s.taking r x).txe = s.txe := (State.taking_runs s r x).same .txe rfl
  have hper : (s.taking r x).perform r (.read exchErrLogId sub fl) = (u, .now 0 (toLE 12 s.txe.errLog)) := by
    have hread := State.read_exchErrLog (s := s.taking r x) (r := r) (sub := sub) hfl
    rw [htxe, ← hu] at hread
    exact hread
  have hrun : Runs [.txe] (s.taking r x) u := by
    rw [hu]
    exact .ite (fun _ => State.setTxe_runs ..) fun _ => .refl _
  refine ⟨_, (State.operates_of_hears h rfl rfl).accepted hper, State.answers_replies .., ?_, ?_⟩
  · have hsame : (u.replies r (.read exchErrLogId sub fl) 0 (toLE 12 s.txe.errLog)).txe = u.txe :=
      (State.replies_runs ..).same .txe rfl
    rw [hsame, hu, State.fromOwner_taking]
    split
    · rfl
    · exact htxe
  · exact (Runs.comp (State.replies_runs ..) rfl (.comp hrun rfl ((State.taking_runs s r x).mono rfl))).frame

/-- O24's clause for an ID without an object. -/
theorem exec_read_noObject {id sub fl : Nat} (h : s.Hears r (.read id sub fl) x) (hrow : objRow id = none) :
    ∃ t, exec (.read r id sub fl) s = .next t ∧ t.Answers r (.read id sub fl) 0x0D [] ∧
      Frame [.router, .caddy, .host, .out] s t := by
  obtain ⟨t, hexec, hans, -, hframe⟩ := (State.operates_of_hears h rfl rfl).denied (st := 0x0D) (by decide)
    fun c _ => (by rw [State.perform, State.read, hrow] : (s.setCaddy c).perform r (.read id sub fl) = no (s.setCaddy c) 0x0D)
  exact ⟨t, hexec, hans, hframe⟩

/-! WRITE of a staged object. -/

theorem State.sv_stage (s : State) (id v i : Nat) : (s.stage id v).sv i = if i = id then writeMask id v else s.sv i := by
  have h : (s.stage id v).sv i = tget (s.ov i) (tins s.obj.staged id (writeMask id v)) i := rfl
  rw [h]
  split
  · next he => rw [he, tget_tins_self]
  · next hne => exact tget_tins_of_ne _ _ _ (Ne.symm hne)

theorem State.pending_stage (hw : s.wf = true) (id v : Nat) : ((s.stage id v).area (id / 65536)).pending = true := by
  rw [State.stage, State.pend, State.area_setArea, if_pos rfl]
  exact State.twf_area hw

/-- O24's clause for a WRITE of a staged object. -/
theorem exec_write_stages {id : Nat} {val : List Byte} {row : ObjRow} (hw : s.wf = true) (h : s.Obeys r (.write id 0 val) x)
    (hrow : objRow id = some row) (h0 : row.access ≠ 0) (h3 : row.access ≠ 3) (hst : row.staged = true) (h4 : row.type ≠ 4)
    (h6 : row.type ≠ 6) (h7 : row.type ≠ 7) (hlen : val.length = row.width) :
    ∃ t, exec (.write r id 0 val) s = .next t ∧ t.sv id = writeMask id (leNat val) ∧
      (t.area (id / 65536)).pending = true ∧ (∀ i, t.ov i = s.ov i) ∧ (∀ i, i ≠ id → t.sv i = s.sv i) ∧
      t.Answers r (.write id 0 val) 0 [] ∧ Frame [.router, .caddy, .host, .obj, .out] s t := by
  have htaking := State.taking_runs s r x
  have hobj : (s.taking r x).obj = s.obj := htaking.same .obj rfl
  have hreply : (((s.taking r x).stage id (leNat val)).replies r (.write id 0 val) 0 []).obj =
    ((s.taking r x).stage id (leNat val)).obj := (State.replies_runs ..).same .obj rfl
  refine ⟨_, (State.operates_of_obeys h rfl).accepted (State.write_staged hrow h0 h3 hst h4 h6 h7 hlen), ?_, ?_, fun i => ?_,
    fun i hi => ?_, State.answers_replies .., ?_⟩
  · rw [State.sv_congr hreply, State.sv_stage, if_pos rfl]
  · rw [State.area_congr hreply]
    exact State.pending_stage (htaking.wf hw) id _
  · exact (State.ov_congr hreply i).trans (State.ov_congr hobj i)
  · rw [State.sv_congr hreply, State.sv_stage, if_neg hi, State.sv_congr hobj]
  · exact (Runs.comp (State.replies_runs ..) rfl (.comp (State.stage_runs ..) rfl (htaking.mono rfl))).frame

/-! POST of one descriptor. -/

theorem State.mgmtPost_one {ctx d : Nat} {w : WorkDesc} (hready : s.power.main = .ready) (hd : d < 4)
    (hroom : (s.dieList d).length < 4096) : s.mgmtPost ctx d [w] =
      ((s.setSched { s.sched with nextSeq := (s.sched.nextSeq + 1) % 2 ^ 48 }).enlist
        ⟨w, ctx, s.sched.nextSeq, d, none, false, false⟩, .now 0 (toLE 4 1)) := by
  have hpost : s.post ctx d w = some ((s.setSched { s.sched with nextSeq := (s.sched.nextSeq + 1) % 2 ^ 48 }).enlist
      ⟨w, ctx, s.sched.nextSeq, d, none, false, false⟩) := by
    rw [State.post]
    dsimp only
    rw [if_neg (show ¬d = 4 by omega), if_pos hroom]
  rw [State.mgmtPost, if_neg (by omega), if_pos hready]
  simp only [State.postAll, hpost]
  rfl

/-- O24's clause for POST. -/
theorem exec_mgmtPost_one {ctx d : Nat} {w : WorkDesc} (hw : s.wf = true) (h : s.Obeys r (.post ctx d [w]) x)
    (hready : s.power.main = .ready) (hd : d < 4) (hroom : (s.dieList d).length < 4096) :
    ∃ t, exec (.mgmtPost r ctx d [w]) s = .next t ∧
      t.dieList d = insertEntry ⟨w, ctx, s.sched.nextSeq, d, none, false, false⟩ (s.dieList d) ∧
      t.sched.nextSeq = (s.sched.nextSeq + 1) % 2 ^ 48 ∧ (∀ e, e ≠ d → t.dieList e = s.dieList e) ∧
      t.Answers r (.post ctx d [w]) 0 (toLE 4 1) ∧ Frame [.sched, .router, .caddy, .host, .out] s t := by
  have htaking := State.taking_runs s r x
  obtain ⟨c, hc, -⟩ := State.taking_eq s r x
  obtain ⟨e, he⟩ : ∃ e : Entry, e = ⟨w, ctx, s.sched.nextSeq, d, none, false, false⟩ := ⟨_, rfl⟩
  obtain ⟨u, hu⟩ : ∃ u, u = (s.setCaddy c).setSched { s.sched with nextSeq := (s.sched.nextSeq + 1) % 2 ^ 48 } := ⟨_, rfl⟩
  have hper : (s.taking r x).perform r (.post ctx d [w]) = (u.enlist e, .now 0 (toLE 4 1)) := by
    rw [hc, hu, he]
    exact State.mgmtPost_one (s := s.setCaddy c) hready hd hroom
  have hsched : ((u.enlist e).replies r (.post ctx d [w]) 0 (toLE 4 1)).sched = (u.enlist e).sched :=
    (State.replies_runs ..).same .sched rfl
  have hlists : twf [] u.sched.lists = true := by rw [hu]; exact (State.twf_lists hw : twf [] s.sched.lists = true)
  have hlist (k : Nat) : u.dieList k = s.dieList k := by rw [hu]; rfl
  have hdie : e.die = d := by rw [he]
  refine ⟨_, (State.operates_of_obeys h rfl).accepted hper, ?_, ?_, fun k hk => ?_, State.answers_replies .., ?_⟩
  · rw [State.dieList_congr hsched, State.dieList_enlist hlists, hdie, if_pos rfl, hlist, he]
  · rw [show State.sched _ = _ from hsched, hu]
    rfl
  · rw [State.dieList_congr hsched, State.dieList_enlist hlists, hdie, if_neg hk, hlist]
  · have hset : Runs [.sched] (s.taking r x) u := by rw [hu, hc]; exact State.setSched_runs _ _ id
    exact (Runs.comp (State.replies_runs ..) rfl (.comp (State.enlist_runs ..) rfl (.comp hset rfl (htaking.mono rfl)))).frame

end

/-- Settles O24, clause by clause: each operation's value is that of the state that has taken the request up. -/
theorem objectsAreReadWrittenAndDescribed : Obligations.ObjectsAreReadWrittenAndDescribed := by
  unfold Obligations.ObjectsAreReadWrittenAndDescribed
  intro s r x hw
  refine ⟨fun id sub fl row => exec_read_answers, fun sub fl => exec_read_exchErrLog, fun id sub fl => exec_read_noObject,
    fun id val row => exec_write_stages hw, fun id row h hrow => ?_, fun ctx d w => exec_mgmtPost_one hw⟩
  have hper : (s.taking r x).perform r (.describe id) = (s.taking r x, .now 0 (descriptor id row)) := by
    rw [State.perform, State.describe, hrow]
  exact (State.operates_of_hears h rfl rfl).answered hper

end Sys2Proof.Machine
end


-- ==== Sys2Proof/Proofs/ImmediateWrites.lean ====
section
/-!
PROOF. Writes of the owner to immediate objects (R51, R143, R382, R404, R467, R469).
-/

namespace Sys2Proof.Machine

/-! The two output pins: no message drives them. -/

/-- FAULT# and ALERT#. -/
def Outputs.pins (o : Outputs) : Bool × Bool := (o.faultPin, o.alertPin)

theorem State.pins_msi (s : State) (fn vector : Nat) : (s.msi fn vector).out.pins = s.out.pins := rfl

theorem State.pins_interrupt (s : State) (ctx b : Nat) : (s.interrupt ctx b).out.pins = s.out.pins := by
  unfold State.interrupt State.intSend
  dsimp only
  split_ifs
  · exact State.pins_msi ..
  · exact State.pins_msi ..
  · rfl

theorem State.pins_eventTo (s : State) (code arg cls : Nat) (x : Session) :
    (s.eventTo code arg cls x).out.pins = s.out.pins := by
  unfold State.eventTo
  dsimp only
  split
  · exact State.pins_interrupt ..
  · rfl
  · rfl

theorem State.pins_event (s : State) (code arg : Nat) : (s.event code arg).out.pins = s.out.pins :=
  foldl_keeps (g := fun s : State => s.out.pins) (f := fun s (p : Nat × Session) => s.eventTo code arg p.1 p.2)
    (fun s p => s.pins_eventTo code arg p.1 p.2) _ s

theorem State.pins_sendReply (s : State) (m : MgmtMsg) : (s.sendReply m).out.pins = s.out.pins := by
  unfold State.sendReply
  dsimp only
  split
  · exact State.pins_interrupt ..
  · next src hsrc =>
    have hout : ((s.emitMsg m).mgmtPacket 0x91 src m.bytes).out = (s.emitMsg m).out := (State.mgmtPacket_runs ..).same .out rfl
    exact (congrArg Outputs.pins hout : _ = (s.emitMsg m).out.pins)
  · rfl

theorem State.pins_replies (s : State) (r : Req) (m : MOp) (st : Nat) (p : List Byte) :
    (s.replies r m st p).out.pins = s.out.pins := by
  have hcache : (s.cacheReply (replyTo r m.code r.session r.epoch st p)).out = s.out :=
    (State.cacheReply_runs ..).same .out rfl
  rw [State.replies, State.answer, State.pins_sendReply, hcache]

theorem State.alertPin_alert (s : State) : s.alert.out.alertPin = s.alertWanted := by
  have hset (t : State) (w : Bool) : ((t.setOut { t.out with alertPin := w }).event 4 (ofBool w)).out.alertPin = w :=
    congrArg Prod.snd (State.pins_event _ _ _)
  unfold State.alert
  dsimp only
  split
  · next h => exact h.symm
  · split
    · exact (congrArg Prod.snd (State.pins_interrupt _ _ _)).trans (hset _ _)
    · exact hset _ _

theorem State.alertWanted_congr {s t : State} (hp : t.power = s.power) (hf : t.flash = s.flash) (hk : t.kettle = s.kettle)
    (hs : t.steps = s.steps) : t.alertWanted = s.alertWanted := by
  rw [State.alertWanted, hp, hf, hk, hs, State.alertWanted]

/-! WRITEs of a whole number. -/

/-- An object that takes one number of `n` bytes at a WRITE: an ACTION, or an immediate object. -/
def isAction (n id : Nat) : Bool :=
  (objRow id).any fun row => row.access == 2 && row.type == 7 && row.width == n
def isImmediate (n id : Nat) : Bool :=
  (objRow id).any fun row => row.access == 1 && (row.type == 1 || row.type == 2) && !row.staged && row.width == n

section
variable {s : State} {r : Req} {id n v : Nat}

theorem State.write_action (h : isAction n id = true) (hv : v < 2 ^ (8 * n)) :
    s.perform r (writeOf id n v) = s.action id v := by
  change s.write r id 0 (toLE n v) = s.action id v
  unfold isAction at h
  cases hrow : objRow id with
  | none => rw [hrow] at h; cases h
  | some row =>
    obtain ⟨⟨ha, h7⟩, hwidth⟩ : (row.access = 2 ∧ row.type = 7) ∧ row.width = n := by simpa [hrow] using h
    rw [State.write_whole hrow (by omega) (by omega) (by omega) ((length_toLE n v).trans hwidth.symm), if_neg (by omega),
      if_pos h7, leNat_toLE, Nat.mod_eq_of_lt hv]

theorem State.write_immediate (h : isImmediate n id = true) (hv : v < 2 ^ (8 * n)) :
    s.perform r (writeOf id n v) = s.immediate id v := by
  change s.write r id 0 (toLE n v) = s.immediate id v
  unfold isImmediate at h
  cases hrow : objRow id with
  | none => rw [hrow] at h; cases h
  | some row =>
    obtain ⟨⟨⟨ha, hty⟩, hst⟩, hwidth⟩ : ((row.access = 1 ∧ (row.type = 1 ∨ row.type = 2)) ∧ row.staged = false) ∧ row.width = n := by
      simpa [hrow] using h
    rw [State.write_whole hrow (by omega) (by omega) (by omega) ((length_toLE n v).trans hwidth.symm), if_neg (by omega),
      if_neg (by omega), if_neg (by simp [hst]), leNat_toLE, Nat.mod_eq_of_lt hv]

end

/-! What is left of an operation when its reply has gone. -/

section
variable {s : State} {r : Req} {x : Session} {m : MOp}

/-- `t` is `u` once a reply has gone: what no message touches stands. -/
structure State.AfterReply (u t : State) : Prop where
  runs : Runs [.router, .caddy, .host, .out] u t
  pins : t.out.pins = u.out.pins
  apart : t.caddy.apart = u.caddy.apart

theorem State.afterReply (u : State) (r : Req) (m : MOp) (st : Nat) (p : List Byte) : u.AfterReply (u.replies r m st p) :=
  ⟨State.replies_runs .., State.pins_replies .., State.apart_answer ..⟩

/-- An operation that is accepted and turns the state into `f` of it, whatever the caddy's sessions and owner. -/
theorem State.Operates.acceptedAs {L : List Part} {p : List Byte} (f : State → State) (h : s.Operates r m x)
    (hp : ∀ c, c.beyond = s.caddy.beyond → (s.setCaddy c).perform r m = (f (s.setCaddy c), .now 0 p))
    (hf : ∀ t, Runs L t (f t)) (hL : within [.router, .caddy, .host, .out] L = true) (hC : within [.caddy] L = true) :
    ∃ c t, c.beyond = s.caddy.beyond ∧ (s.wf = true → (s.setCaddy c).wf = true) ∧ asked r m s = .next t ∧
      t.Answers r m 0 p ∧ (f (s.setCaddy c)).AfterReply t ∧ Frame L s t := by
  obtain ⟨c, hc, hbeyond⟩ := State.taking_eq s r x
  have hafter := State.afterReply (f (s.setCaddy c)) r m 0 p
  have htaking := State.taking_runs s r x
  rw [hc] at htaking
  exact ⟨c, _, hbeyond, htaking.wf, h.accepted (hc ▸ hp c hbeyond), State.answers_replies .., hafter,
    ((htaking.mono hC).trans ((hf _).trans (hafter.runs.mono hL))).frame⟩

end

theorem Frame.mono {a b : List Part} {s t : State} (h : Frame a s t) (hab : within a b = true) : Frame b s t := by
  refine ⟨fun p hp => h.1 p ?_, h.2⟩
  cases hc : a.contains p with
  | false => rfl
  | true =>
    have := List.all_eq_true.mp hab p (List.contains_iff_mem.mp hc)
    exact absurd (this.symm.trans hp) nofun

/-! The immediate objects, one by one. -/

section
variable {s : State} {r : Req} {x : Session}

/-- The immediate objects that have a meaning of their own, apart from which a WRITE is a flag word's or a plain value's. -/
theorem State.immediate_of_other {id v : Nat} (hp : ¬(permuteCtrlId ≤ id ∧ id < permuteCtrlId + 16)) (ha : id ≠ serviceAckId)
    (hk : id ≠ kettleStatusId) (he : ¬(pruneExcessId ≤ id ∧ id < pruneExcessId + 16)) : s.immediate id v =
      match flagMask id with
      | some m => ok (s.clearFlags id m v)
      | none => ok (s.setOv id v) := by
  rw [State.immediate, if_neg hp, if_neg ha, if_neg hk, if_neg he] <;> rfl

/-- Flags acknowledged (R404). -/
def Flash.acked (f : Flash) (v : Nat) : Flash := { f with ack := f.ack ||| v }

/-- O29's clause for SERVICE_ACK. -/
theorem exec_serviceAck_acknowledges {v : Nat} (hv : v < 2 ^ 64) (h : s.Obeys r (writeOf serviceAckId 8 v) x) :
    ∃ t, exec (.serviceAck r v) s = .next t ∧ t.flash.ack = s.flash.ack ||| v ∧
      t.flash.queue = s.flash.queue ++ [.service] ∧ t.flash.service = s.flash.service ∧
      t.out.alertPin = t.alertWanted ∧ t.Answers r (writeOf serviceAckId 8 v) 0 [] ∧
      Frame [.router, .caddy, .host, .flash, .out] s t := by
  have hbits : bits v 0 64 = v := by rw [bits, Nat.pow_zero, Nat.div_one, Nat.mod_eq_of_lt hv]
  have hp (c : Caddy) : (s.setCaddy c).perform r (writeOf serviceAckId 8 v) = ok ((s.setCaddy c).ackService v) :=
    (State.write_immediate (by decide +kernel) hv).trans rfl
  obtain ⟨c, t, -, -, hexec, hans, ⟨hruns, hpins, -⟩, hframe⟩ := (State.operates_of_obeys h rfl).acceptedAs
    (L := [.router, .caddy, .host, .flash, .out]) (fun t => t.ackService v) (fun c _ => hp c)
    (fun t => (State.ackService_runs t v).mono rfl) rfl rfl
  obtain ⟨u, hu⟩ : ∃ u, u = (s.setCaddy c).setFlash (s.flash.acked v) := ⟨_, rfl⟩
  have hack : (s.setCaddy c).ackService v = (u.journal .service).alert := by
    rw [hu, Flash.acked, State.ackService, hbits]
    rfl
  rw [hack] at hruns hpins
  have hafter : Runs [.router, .caddy, .host, .out] (u.journal .service) t :=
    ((State.alert_runs _).mono rfl).trans hruns
  have hflash : t.flash = (u.journal .service).flash := hafter.same .flash rfl
  have hfacts : t.flash.facts = (s.flash.acked v).facts := by rw [hflash, State.facts_journal, hu]; rfl
  refine ⟨t, hexec, (congrArg Flash.ack hfacts : t.flash.facts.ack = _), ?_,
    (congrArg Flash.service hfacts : t.flash.facts.service = _), ?_, hans, hframe⟩
  · rw [hflash, State.queue_journal rfl, hu]
    rfl
  · have halert := (congrArg Prod.snd hpins).trans (State.alertPin_alert (u.journal .service))
    exact halert.trans (State.alertWanted_congr (hafter.same .power rfl) hflash (hafter.same .kettle rfl)
      (hafter.same .steps rfl)).symm

theorem all_allCtx {p : Nat → Bool} : allCtx.all p = true ↔ ∀ c, c < 16 → p c = true := by
  simp [allCtx]

/-- O29's clause for SELF_TEST with nothing running. -/
theorem exec_selfTest_schedules (h : s.Obeys r (writeOf selfTestId 4 1) x) (hsteps : ∀ c, c < 16 → s.stepBusy c = false)
    (htiles : s.anyAccepted = false) :
    ∃ t, exec (.selfTest r 1) s = .next t ∧ t.power = { s.power with selfTest := true } ∧
      t.Answers r (writeOf selfTestId 4 1) 0 [] ∧ Frame [.power, .router, .caddy, .host, .out] s t := by
  have hidle : allCtx.all (fun c => !s.stepBusy c) = true ∧ s.anyAccepted = false :=
    ⟨all_allCtx.mpr fun c hc => by rw [hsteps c hc]; rfl, htiles⟩
  have hp (c : Caddy) : (s.setCaddy c).perform r (writeOf selfTestId 4 1) =
      ok ((s.setCaddy c).setPower { s.power with selfTest := true }) := by
    refine (State.write_action (by decide +kernel) (by decide)).trans ((rfl : _ = (s.setCaddy c).selfTest).trans ?_)
    exact if_pos hidle
  obtain ⟨c, t, -, -, hexec, hans, ⟨hruns, -, -⟩, hframe⟩ := (State.operates_of_obeys h rfl).acceptedAs
    (L := [.power, .router, .caddy, .host, .out]) (fun t => t.setPower { t.power with selfTest := true }) (fun c _ => hp c)
    (fun t => (State.setPower_runs t { t.power with selfTest := true } fun h => h).mono rfl) rfl rfl
  exact ⟨t, hexec, hruns.same .power rfl, hans, hframe⟩

/-- O29's clause for SELF_TEST with a step or a tile. -/
theorem exec_selfTest_refused (h : s.Obeys r (writeOf selfTestId 4 1) x)
    (hbusy : (∃ c, c < 16 ∧ s.stepBusy c = true) ∨ s.anyAccepted = true) :
    ∃ t, exec (.selfTest r 1) s = .next t ∧ t.Answers r (writeOf selfTestId 4 1) 0x21 [] ∧
      Frame [.router, .caddy, .host, .out] s t := by
  have hbusy' : ¬(allCtx.all (fun c => !s.stepBusy c) = true ∧ s.anyAccepted = false) := by
    rintro ⟨hsteps, htiles⟩
    obtain ⟨c, hc, hb⟩ | ht := hbusy
    · have := all_allCtx.mp hsteps c hc
      rw [hb] at this
      cases this
    · exact Bool.noConfusion (ht.symm.trans htiles)
  have hp (c : Caddy) : (s.setCaddy c).perform r (writeOf selfTestId 4 1) = no (s.setCaddy c) 0x21 := by
    refine (State.write_action (by decide +kernel) (by decide)).trans ((rfl : _ = (s.setCaddy c).selfTest).trans ?_)
    exact if_neg hbusy'
  obtain ⟨t, hexec, hans, -, hframe⟩ := (State.operates_of_obeys h rfl).denied (by decide) fun c _ => hp c
  exact ⟨t, hexec, hans, hframe⟩

/-- O29's clause for IDLE_CLEAR. -/
theorem exec_idleClear_waits (h : s.Obeys r (writeOf idleClearId 4 1) x) :
    ∃ t, exec (.idleClear r 1) s = .next t ∧ t.tele = { s.tele with clear := true } ∧
      t.Answers r (writeOf idleClearId 4 1) 0 [] ∧ Frame [.router, .caddy, .host, .tele, .out] s t := by
  have hp (c : Caddy) : (s.setCaddy c).perform r (writeOf idleClearId 4 1) =
      ok ((s.setCaddy c).setTele { s.tele with clear := true }) :=
    (State.write_action (by decide +kernel) (by decide)).trans rfl
  obtain ⟨c, t, -, -, hexec, hans, ⟨hruns, -, -⟩, hframe⟩ := (State.operates_of_obeys h rfl).acceptedAs
    (L := [.router, .caddy, .host, .tele, .out]) (fun t => t.setTele { t.tele with clear := true }) (fun c _ => hp c)
    (fun t => (State.setTele_runs t _).mono rfl) rfl rfl
  exact ⟨t, hexec, hruns.same .tele rfl, hans, hframe⟩

/-- O29's clause for PRUNE_EXCESS_COUNT. -/
theorem exec_pruneExcessCountClear {c v : Nat} (hw : s.wf = true) (hc : c < 16) (hv : v < 2 ^ 32)
    (h : s.Obeys r (writeOf (pruneExcessId + c) 4 v) x) :
    ∃ t, exec (.pruneExcessCountClear r c v) s = .next t ∧
      t.ov (pruneExcessId + c) = (if v = 0 then 0 else s.ov (pruneExcessId + c)) ∧
      (∀ id, id ≠ pruneExcessId + c → t.ov id = s.ov id) ∧
        t.Answers r (writeOf (pruneExcessId + c) 4 v) (if v = 0 then 0 else 0x0C) [] ∧
      Frame [.router, .caddy, .host, .obj, .out] s t := by
  have hwritten (k : Caddy) : (s.setCaddy k).perform r (writeOf (pruneExcessId + c) 4 v) =
      if v = 0 then ok ((s.setCaddy k).setOv (pruneExcessId + c) 0) else no (s.setCaddy k) 0x0C := by
    have himm : isImmediate 4 (pruneExcessId + c) = true :=
      (by decide +kernel : ∀ c < 16, isImmediate 4 (pruneExcessId + c) = true) c hc
    obtain ⟨hp, ha, hk⟩ := (by decide +kernel : ∀ c < 16, ¬(permuteCtrlId ≤ pruneExcessId + c ∧
      pruneExcessId + c < permuteCtrlId + 16) ∧ pruneExcessId + c ≠ serviceAckId ∧ pruneExcessId + c ≠ kettleStatusId) c hc
    rw [State.write_immediate himm hv, State.immediate, if_neg hp, if_neg ha, if_neg hk, if_pos (by omega)]
  have hneed : exec (.pruneExcessCountClear r c v) s = asked r (writeOf (pruneExcessId + c) 4 v) s :=
    need_of (decide_eq_true hc) _
  by_cases hv0 : v = 0
  · simp only [if_pos hv0] at hwritten ⊢
    obtain ⟨k, t, -, hwf, hexec, hans, ⟨hruns, -, -⟩, hframe⟩ := (State.operates_of_obeys h rfl).acceptedAs
      (L := [.router, .caddy, .host, .obj, .out]) (fun t => t.setOv (pruneExcessId + c) 0) (fun c _ => hwritten c)
      (fun t => (State.setOv_runs ..).mono rfl) rfl rfl
    have hov (id : Nat) : t.ov id = if id = pruneExcessId + c then 0 else s.ov id :=
      (State.ov_congr (hruns.same .obj rfl) id).trans (State.ov_setOv (State.keysFrom_vals (hwf hw)) _ id 0)
    exact ⟨t, hneed.trans hexec, (hov _).trans (if_pos rfl), fun id hid => (hov id).trans (if_neg hid), hans, hframe⟩
  · simp only [if_neg hv0] at hwritten ⊢
    obtain ⟨t, hexec, hans, -, hframe⟩ := (State.operates_of_obeys h rfl).denied (by decide) fun c _ => hwritten c
    have hov (id : Nat) : t.ov id = s.ov id := State.ov_congr (hframe.1 .obj rfl) id
    exact ⟨t, hneed.trans hexec, hov _, fun id _ => hov id, hans, hframe.mono rfl⟩

/-! Flag words. -/

/-- The flag words of R51 are immediate objects without a meaning of their own. -/
theorem plain_of_flagMask {id m : Nat} (h : flagMask id = some m) : isImmediate (valueWidth id) id = true ∧
    ¬(permuteCtrlId ≤ id ∧ id < permuteCtrlId + 16) ∧ id ≠ serviceAckId ∧ id ≠ kettleStatusId ∧
    ¬(pruneExcessId ≤ id ∧ id < pruneExcessId + 16) := by
  have hwords : ∀ id ∈ (List.range 16).map (formatFlagsId + ·) ++ (List.range 16).map (sparseStatusId + ·) ++
      [faultStatusId, urnStatusId, fabStatusId, syncStatusId], isImmediate (valueWidth id) id = true ∧
      ¬(permuteCtrlId ≤ id ∧ id < permuteCtrlId + 16) ∧ id ≠ serviceAckId ∧ id ≠ kettleStatusId ∧
      ¬(pruneExcessId ≤ id ∧ id < pruneExcessId + 16) := by decide +kernel
  refine hwords id ?_
  have hin {base : Nat} (hb : base ≤ id ∧ id < base + 16) : id ∈ (List.range 16).map (base + ·) :=
    List.mem_map.mpr ⟨id - base, List.mem_range.mpr (by omega), by omega⟩
  simp only [List.mem_append, List.mem_cons]
  unfold flagMask at h
  split at h
  · next hf => exact .inl (.inl (hin hf))
  · split at h
    · next hs => exact .inl (.inr (hin hs))
    · refine .inr ?_
      grind

/-- O29's clause for a flag word. -/
theorem exec_rw1cFlagClear_clears {id m v : Nat} (hw : s.wf = true) (hm : flagMask id = some m)
    (hv : v < 2 ^ (8 * valueWidth id)) (h : s.Obeys r (writeOf id (valueWidth id) v) x) :
    ∃ t, exec (.rw1cFlagClear r id v) s = .next t ∧ t.ov id = s.ov id - (s.ov id &&& (m &&& v)) ∧
      (∀ i, i ≠ id → t.ov i = s.ov i) ∧ t.Answers r (writeOf id (valueWidth id) v) 0 [] ∧
      Frame [.router, .caddy, .host, .obj, .out] s t := by
  obtain ⟨himm, hp, ha, hk, he⟩ := plain_of_flagMask hm
  have hwritten (c : Caddy) : (s.setCaddy c).perform r (writeOf id (valueWidth id) v) = ok ((s.setCaddy c).clearFlags id m v) := by
    rw [State.write_immediate himm hv, State.immediate_of_other hp ha hk he, hm]
  obtain ⟨c, t, -, hwf, hexec, hans, ⟨hruns, -, -⟩, hframe⟩ := (State.operates_of_obeys h rfl).acceptedAs
    (L := [.router, .caddy, .host, .obj, .out]) (fun t => t.clearFlags id m v) (fun c _ => hwritten c)
    (fun t => (State.clearFlags_runs ..).mono rfl) rfl rfl
  have hov (i : Nat) : t.ov i = if i = id then s.ov id - (s.ov id &&& (m &&& v)) else s.ov i :=
    (State.ov_congr (hruns.same .obj rfl) i).trans (State.ov_modOv (State.keysFrom_vals (hwf hw)) id i _)
  exact ⟨t, hexec, (hov id).trans (if_pos rfl), fun i hi => (hov i).trans (if_neg hi), hans, hframe⟩

/-- O29's clause for KETTLE_STATUS. -/
theorem exec_rw1cFlagClear_kettle {v : Nat} (hv : v < 2 ^ 32) (h : s.Obeys r (writeOf kettleStatusId 4 v) x) :
    ∃ t, exec (.rw1cFlagClear r kettleStatusId v) s = .next t ∧
      t.kettle = { s.kettle with
        calRange := s.kettle.calRange && !bit v 4
        droopSeen := s.kettle.droopSeen && !bit v 5 } ∧
      t.Answers r (writeOf kettleStatusId 4 v) 0 [] ∧ Frame [.kettle, .router, .caddy, .host, .out] s t := by
  have hwritten (c : Caddy) : (s.setCaddy c).perform r (writeOf kettleStatusId 4 v) = ok ((s.setCaddy c).clearKettle v) :=
    (State.write_immediate (by decide +kernel) hv).trans rfl
  have hwidth : valueWidth kettleStatusId = 4 := by decide +kernel
  obtain ⟨c, t, -, -, hexec, hans, ⟨hruns, -, -⟩, hframe⟩ := (State.operates_of_obeys h rfl).acceptedAs
    (L := [.kettle, .router, .caddy, .host, .out]) (fun t => t.clearKettle v) (fun c _ => hwritten c)
    (fun t => (State.clearKettle_runs ..).mono rfl) rfl rfl
  have hneed : exec (.rw1cFlagClear r kettleStatusId v) s = asked r (writeOf kettleStatusId 4 v) s :=
    congrArg (fun n => asked r (writeOf kettleStatusId n v) s) hwidth
  exact ⟨t, hneed.trans hexec, hruns.same .kettle rfl, hans, hframe⟩

end

/-- Settles O29, object by object: each immediate write is one change of the state that has taken the request up. -/
theorem immediateWritesTakeEffect : Obligations.ImmediateWritesTakeEffect := by
  unfold Obligations.ImmediateWritesTakeEffect
  intro s r x hw
  exact ⟨fun v => exec_serviceAck_acknowledges, exec_selfTest_schedules, exec_selfTest_refused, exec_idleClear_waits,
    fun c v => exec_pruneExcessCountClear hw, fun id m v => exec_rw1cFlagClear_clears hw,
    fun v => exec_rw1cFlagClear_kettle⟩

end Sys2Proof.Machine
end


-- ==== Sys2Proof/Proofs/Firmware.lean ====
section
/-!
PROOF. Firmware is written to the slot that does not run, and activated when it verifies (R425, R428, R430).
-/

namespace Sys2Proof.Machine

/-! The bytes of a slot. -/

theorem tbytes_eq_map (t : Tbl Byte) (a n : Nat) : tbytes t a n = (List.range n).map (fun i => tget 0 t (a + i)) := by
  induction n generalizing a with
  | zero => rfl
  | succ n ih =>
    rw [tbytes, ih, List.range_succ_eq_map, List.map_cons, List.map_map]
    simp only [Nat.add_zero, List.cons.injEq, true_and]
    exact List.map_congr_left fun i _ => congrArg (tget 0 t) (by simp; omega)

theorem getElem_slotBytes (kept : Bool) (t : Tbl Byte) (a n i : Nat) (hi : i < (slotBytes kept t a n).length) :
    (slotBytes kept t a n)[i] = tget 0 t (a + i) ^^^ slotBase kept (a + i) := by
  simp [slotBytes, tbytes_eq_map]

theorem length_slotBytes (kept : Bool) (t : Tbl Byte) (a n : Nat) : (slotBytes kept t a n).length = n := by
  simp [slotBytes, tbytes_eq_map]

/-- The differences that programming bytes at an offset stores. -/
def slotDiffs (kept : Bool) (a : Nat) (bs : List Byte) : List Byte := bs.zipIdx.map (fun x => x.1 ^^^ slotBase kept (a + x.2))

theorem slotStore_eq (kept : Bool) (t : Tbl Byte) (a : Nat) (bs : List Byte) :
    slotStore kept t a bs = tstore t a (slotDiffs kept a bs) := rfl

theorem length_slotDiffs (kept : Bool) (a : Nat) (bs : List Byte) : (slotDiffs kept a bs).length = bs.length := by
  simp [slotDiffs]

/-- Bytes read back as they were programmed. -/
theorem slotBytes_slotStore (kept : Bool) (a : Nat) (bs : List Byte) :
    slotBytes kept (slotStore kept [] a bs) a bs.length = bs := by
  refine List.ext_getElem (length_slotBytes ..) fun i hi hb => ?_
  rw [getElem_slotBytes, slotStore_eq, tget_tstore_inside [] a _ rfl (by rw [length_slotDiffs]; exact hb)]
  simp [slotDiffs]

/-- A byte that nothing has programmed is what stood there before. -/
theorem slotBytes_outside (kept : Bool) (a : Nat) (bs : List Byte) {i : Nat} (hi : i < a ∨ a + bs.length ≤ i) :
    slotBytes kept (slotStore kept [] a bs) i 1 = [slotBase kept i] := by
  refine List.ext_getElem (length_slotBytes ..) fun j hj hk => ?_
  obtain rfl : j = 0 := by simpa using hk
  rw [getElem_slotBytes, slotStore_eq, tget_tstore_of_outside _ _ _ (by rw [length_slotDiffs]; simpa using hi)]
  simp [tget]

/-! The caddy's firmware. -/

theorem FwSlot.before_of_erased {f : FwSlot} {off : Nat} (h : off = 0 ∨ f = .empty) : f.before off = (false, []) := by
  unfold FwSlot.before
  split
  · rfl
  · rw [h.resolve_left (by assumption)]

theorem FwSlot.before_factory {off : Nat} (h : off ≠ 0) : FwSlot.factory.before off = (true, []) := if_neg h

theorem FwSlot.before_image {off : Nat} (h : off ≠ 0) (o : Bool) (t : Tbl Byte) : (FwSlot.image o t).before off = (o, t) := if_neg h

theorem Caddy.slot_program (c : Caddy) (off : Nat) (bs : List Byte) (b : Bool) : (c.program off bs).slot b =
    if b = !c.runB then .image ((c.slot (!c.runB)).before off).1
      (slotStore ((c.slot (!c.runB)).before off).1 ((c.slot (!c.runB)).before off).2 off bs) else c.slot b := by
  unfold Caddy.program Caddy.setSlot
  cases b <;> cases hr : c.runB <;> simp [Caddy.slot]

theorem Caddy.slot_of_beyond {c d : Caddy} (h : c.beyond = d.beyond) (b : Bool) : c.slot b = d.slot b :=
  (congrArg (fun e : Caddy => e.slot b) h : c.beyond.slot b = d.beyond.slot b)

theorem Caddy.slot_of_apart {c d : Caddy} (h : c.apart = d.apart) (b : Bool) : c.slot b = d.slot b :=
  (congrArg (fun e : Caddy => e.slot b) h : c.apart.slot b = d.apart.slot b)

/-- The slot that runs, the slot marked active, and whether that mark waits for a reset. -/
def Caddy.marks (c : Caddy) : Bool × Bool × Bool := (c.runB, c.activeB, c.fwPending)

theorem Caddy.marks_of_beyond {c d : Caddy} (h : c.beyond = d.beyond) : c.marks = d.marks :=
  (congrArg Caddy.marks h : c.beyond.marks = d.beyond.marks)

theorem Caddy.marks_of_apart {c d : Caddy} (h : c.apart = d.apart) : c.marks = d.marks :=
  (congrArg Caddy.marks h : c.apart.marks = d.apart.marks)

theorem Caddy.marks_program (c : Caddy) (off : Nat) (bs : List Byte) :
    (c.program off bs).marks = (c.runB, if c.fwPending then c.runB else c.activeB, false) := by
  unfold Caddy.program Caddy.setSlot
  split <;> rfl

/-! FW_IMAGE_BLOCK. -/

/-- What R428 asks of a block of an image. -/
def imageBlockOk (sub : Nat) (val : List Byte) : Prop :=
  sub % 16 = 0 ∧ sub ≤ 8388352 ∧ 16 ≤ val.length ∧ val.length ≤ 4096 ∧ val.length % 16 = 0 ∧ sub + val.length ≤ 256 + 8388608

/-- The block is programmed, and a withdrawn activation is journalled. -/
def State.programs (s : State) (sub : Nat) (val : List Byte) : State :=
  if s.caddy.fwPending then (s.setCaddy (s.caddy.program sub val)).journal .boot else s.setCaddy (s.caddy.program sub val)

section
variable {s : State} {r : Req} {x : Session} {sub : Nat} {val : List Byte}

theorem State.writeImage_of_ok (h : imageBlockOk sub val) : s.writeImage sub val = ok (s.programs sub val) := if_pos h

theorem State.writeImage_of_not_ok (h : ¬imageBlockOk sub val) : s.writeImage sub val = no s 0x0C := if_neg h

theorem State.programs_runs (h : imageBlockOk sub val) (s : State) : Runs [.caddy, .flash] s (s.programs sub val) := by
  have := State.writeImage_runs s sub val
  rw [State.writeImage_of_ok h] at this
  exact this.mono rfl

theorem State.caddy_programs : (s.programs sub val).caddy = s.caddy.program sub val := by
  unfold State.programs
  split
  · exact (State.journal_runs _ _).same .caddy rfl
  · rfl

theorem State.queue_programs (h : s.caddy.fwPending = true) :
    (s.programs sub val).flash.queue = s.flash.queue ++ [.boot] := by
  rw [State.programs, if_pos h, State.queue_journal rfl]
  rfl

theorem State.flash_programs (h : s.caddy.fwPending = false) : (s.programs sub val).flash = s.flash := by
  rw [State.programs, if_neg (by simp [h])]
  rfl

/-- O26's clause for a block that is programmed. -/
theorem exec_fwImageBlockWrite_programs (h : s.Obeys r (.write fwImageBlockId sub val) x) (hok : imageBlockOk sub val) :
    ∃ t kept tbl, exec (.fwImageBlockWrite r sub val) s = .next t ∧ t.caddy.slot (!s.caddy.runB) = .image kept tbl ∧
      (∀ o old, s.caddy.slot (!s.caddy.runB) = .image o old → sub ≠ 0 → kept = o ∧ tbl = slotStore o old sub val) ∧
      (sub = 0 ∨ s.caddy.slot (!s.caddy.runB) = .empty → slotBytes kept tbl sub val.length = val ∧
        ∀ a, a < sub ∨ sub + val.length ≤ a → slotBytes kept tbl a 1 = [0xFF]) ∧
      (sub ≠ 0 → s.caddy.slot (!s.caddy.runB) = .factory → slotBytes kept tbl sub val.length = val ∧
        ∀ a, a < sub ∨ sub + val.length ≤ a → slotBytes kept tbl a 1 = [Config.factoryByte a]) ∧
      t.caddy.slot s.caddy.runB = s.caddy.slot s.caddy.runB ∧
      t.caddy.fwPending = false ∧ (s.caddy.fwPending = true → t.caddy.activeB = s.caddy.runB) ∧
      (s.caddy.fwPending = false → t.flash = s.flash) ∧
      (s.caddy.fwPending = true → t.flash.queue = s.flash.queue ++ [.boot]) ∧
      t.Answers r (.write fwImageBlockId sub val) 0 [] ∧ Frame [.router, .caddy, .host, .flash, .out] s t := by
  obtain ⟨c, t, hc, -, hexec, hans, hafter, hframe⟩ := (State.operates_of_obeys h rfl).acceptedAs
    (L := [.router, .caddy, .host, .flash, .out]) (fun t => t.programs sub val) (fun c _ => State.writeImage_of_ok hok)
    (fun t => (State.programs_runs hok t).mono rfl) rfl rfl
  have hapart := hafter.apart
  rw [State.caddy_programs] at hapart
  have hmarks := (Caddy.marks_of_apart hapart).trans (Caddy.marks_program ..)
  have hcmarks := Caddy.marks_of_beyond hc
  obtain ⟨hrun, hactive, hpend⟩ : c.runB = s.caddy.runB ∧ c.activeB = s.caddy.activeB ∧ c.fwPending = s.caddy.fwPending := by
    simpa [Caddy.marks] using hcmarks
  obtain ⟨-, htactive, htpend⟩ : t.caddy.runB = s.caddy.runB ∧
      t.caddy.activeB = (if s.caddy.fwPending then s.caddy.runB else s.caddy.activeB) ∧ t.caddy.fwPending = false := by
    simpa [Caddy.marks, hrun, hactive, hpend] using hmarks
  have hslot (b : Bool) : t.caddy.slot b = if b = !s.caddy.runB then
      .image ((s.caddy.slot (!s.caddy.runB)).before sub).1 (slotStore ((s.caddy.slot (!s.caddy.runB)).before sub).1
        ((s.caddy.slot (!s.caddy.runB)).before sub).2 sub val) else s.caddy.slot b := by
    have hset : (s.setCaddy c).caddy = c := rfl
    rw [Caddy.slot_of_apart hapart, Caddy.slot_program, hset]
    simp only [Caddy.slot_of_beyond hc, hrun]
  have hflash : t.flash = ((s.setCaddy c).programs sub val).flash := hafter.runs.same .flash rfl
  refine ⟨t, _, _, hexec, (hslot _).trans (if_pos rfl), fun o old ho h0 => ?_, fun he => ?_, fun h0 hf => ?_,
    (hslot _).trans (if_neg (by simp)), htpend, fun hp => htactive.trans (if_pos hp), fun hp => hflash.trans ?_, fun hp => ?_,
    hans, hframe⟩
  · rw [ho, FwSlot.before_image h0]
    exact ⟨rfl, rfl⟩
  · rw [FwSlot.before_of_erased he]
    exact ⟨slotBytes_slotStore .., fun a ha => slotBytes_outside false sub val ha⟩
  · rw [hf, FwSlot.before_factory h0]
    exact ⟨slotBytes_slotStore .., fun a ha => slotBytes_outside true sub val ha⟩
  · exact State.flash_programs (s := s.setCaddy c) (hpend.trans hp)
  · rw [hflash]
    exact State.queue_programs (s := s.setCaddy c) (hpend.trans hp)

/-- O26's clause for a block that R428 refuses. -/
theorem exec_fwImageBlockWrite_refused (h : s.Obeys r (.write fwImageBlockId sub val) x) (hno : ¬imageBlockOk sub val) :
    ∃ t, exec (.fwImageBlockWrite r sub val) s = .next t ∧ (∀ b, t.caddy.slot b = s.caddy.slot b) ∧
      t.caddy.fwPending = s.caddy.fwPending ∧ t.caddy.activeB = s.caddy.activeB ∧
      t.Answers r (.write fwImageBlockId sub val) 0x0C [] ∧ Frame [.router, .caddy, .host, .out] s t := by
  obtain ⟨t, hexec, hans, hapart, hframe⟩ := (State.operates_of_obeys h rfl).denied (st := 0x0C) (by decide)
    fun c _ => State.writeImage_of_not_ok (s := s.setCaddy c) hno
  have hmarks := congrArg Prod.snd (Caddy.marks_of_apart hapart)
  exact ⟨t, hexec, Caddy.slot_of_apart hapart, congrArg Prod.snd hmarks, congrArg Prod.fst hmarks, hans, hframe⟩

/-! FW_ACTIVATE. -/

/-- An ACTION that takes 1 alone refuses any other number (R416). -/
theorem State.action_not_one {id v : Nat} (hft : id ≠ ftSetId) (hstep : ¬(stepStartId ≤ id ∧ id < stepStartId + 16))
    (hreset : id ≠ resetCtrlId) (hv : v ≠ 1) : s.action id v = no s 0x0C := by
  rw [State.action, if_neg hft, if_neg hstep, if_neg hreset, if_pos hv]

/-- O26's clause for FW_ACTIVATE with another number than 1. -/
theorem exec_fwActivate_refused {v : Nat} (hv : v < 2 ^ 32) (h1 : v ≠ 1) (h : s.Obeys r (writeOf fwActivateId 4 v) x) :
    ∃ t, exec (.fwActivate r v) s = .next t ∧ t.caddy.activeB = s.caddy.activeB ∧ t.caddy.fwPending = s.caddy.fwPending ∧
      t.Answers r (writeOf fwActivateId 4 v) 0x0C [] ∧ Frame [.router, .caddy, .host, .out] s t := by
  obtain ⟨t, hexec, hans, hapart, hframe⟩ := (State.operates_of_obeys h rfl).denied (st := 0x0C) (by decide)
    fun c _ => (State.write_action (by decide +kernel) hv).trans
      (State.action_not_one (s := s.setCaddy c) (by decide) (by decide) (by decide) h1)
  have hmarks := congrArg Prod.snd (Caddy.marks_of_apart hapart)
  exact ⟨t, hexec, congrArg Prod.fst hmarks, congrArg Prod.snd hmarks, hans, hframe⟩

/-- The caddy with the slot that does not run marked active. -/
def Caddy.activated (c : Caddy) : Caddy := { c with activeB := !c.runB, fwPending := true }

theorem State.activate_one : s.perform r (writeOf fwActivateId 4 1) = s.fwActivate :=
  (State.write_action (by decide +kernel) (by decide)).trans rfl

theorem State.fwActivate_of_valid (h : s.caddy.slotValid (!s.caddy.runB) = true) :
    s.fwActivate = ok ((s.setCaddy s.caddy.activated).journal .boot) := by
  have ha : s.caddy.activate = some s.caddy.activated := if_pos h
  rw [State.fwActivate, ha]

theorem State.fwActivate_of_invalid (h : s.caddy.slotValid (!s.caddy.runB) = false) : s.fwActivate = no s 0x29 := by
  have ha : s.caddy.activate = none := if_neg (by simp [h])
  rw [State.fwActivate, ha]

theorem Caddy.slotValid_of_beyond {c d : Caddy} (h : c.beyond = d.beyond) : c.slotValid (!c.runB) = d.slotValid (!d.runB) :=
  (congrArg (fun e : Caddy => e.slotValid (!e.runB)) h : c.beyond.slotValid (!c.beyond.runB) = d.beyond.slotValid (!d.beyond.runB))

/-- O26's clause for FW_ACTIVATE. -/
theorem exec_fwActivate_marks (h : s.Obeys r (writeOf fwActivateId 4 1) x) :
    ∃ t, exec (.fwActivate r 1) s = .next t ∧ t.caddy.runB = s.caddy.runB ∧
      (s.caddy.slotValid (!s.caddy.runB) = true → t.caddy.activeB = !s.caddy.runB ∧ t.caddy.fwPending = true ∧
        t.flash.queue = s.flash.queue ++ [.boot] ∧ t.Answers r (writeOf fwActivateId 4 1) 0 []) ∧
      (s.caddy.slotValid (!s.caddy.runB) = false → t.caddy.activeB = s.caddy.activeB ∧
        t.caddy.fwPending = s.caddy.fwPending ∧ t.flash = s.flash ∧ t.Answers r (writeOf fwActivateId 4 1) 0x29 []) ∧
      Frame [.router, .caddy, .host, .flash, .out] s t := by
  cases hvalid : s.caddy.slotValid (!s.caddy.runB) with
  | true =>
    obtain ⟨c, t, hc, -, hexec, hans, hafter, hframe⟩ := (State.operates_of_obeys h rfl).acceptedAs
      (L := [.router, .caddy, .host, .flash, .out]) (fun t => (t.setCaddy t.caddy.activated).journal .boot)
      (fun c hc => State.activate_one.trans
        (State.fwActivate_of_valid (s := s.setCaddy c) ((Caddy.slotValid_of_beyond hc).trans hvalid)))
      (fun t => .comp (State.journal_runs ..) rfl ((State.setCaddy_runs t t.caddy.activated fun h => h).mono rfl)) rfl rfl
    have hcaddy : (((s.setCaddy c).setCaddy c.activated).journal .boot).caddy = c.activated :=
      (State.journal_runs _ _).same .caddy rfl
    have hmarks := (Caddy.marks_of_apart hafter.apart).trans (congrArg Caddy.marks hcaddy)
    have hrun : c.runB = s.caddy.runB := congrArg Prod.fst (Caddy.marks_of_beyond hc)
    have htail := congrArg Prod.snd hmarks
    have hflash : t.flash = (((s.setCaddy c).setCaddy c.activated).journal .boot).flash := hafter.runs.same .flash rfl
    refine ⟨t, hexec, (congrArg Prod.fst hmarks).trans hrun, fun _ => ⟨?_, congrArg Prod.snd htail, ?_, hans⟩, nofun, hframe⟩
    · exact (congrArg Prod.fst htail).trans (congrArg Bool.not hrun)
    · rw [hflash, State.queue_journal rfl]
      rfl
  | false =>
    obtain ⟨t, hexec, hans, hapart, hframe⟩ := (State.operates_of_obeys h rfl).denied (st := 0x29) (by decide)
      fun c hc => State.activate_one.trans
        (State.fwActivate_of_invalid (s := s.setCaddy c) ((Caddy.slotValid_of_beyond hc).trans hvalid))
    have hmarks := Caddy.marks_of_apart hapart
    have htail := congrArg Prod.snd hmarks
    exact ⟨t, hexec, congrArg Prod.fst hmarks, nofun,
      fun _ => ⟨congrArg Prod.fst htail, congrArg Prod.snd htail, hframe.1 .flash rfl, hans⟩, hframe.mono rfl⟩

end

/-- Settles O26: what is programmed reads back by the slot's byte table, and the slot marked active changes only where R428
says so. -/
theorem firmwareGoesToTheOtherSlot : Obligations.FirmwareGoesToTheOtherSlot := by
  unfold Obligations.FirmwareGoesToTheOtherSlot
  intro s r x _
  exact ⟨fun sub val h h1 h2 h3 h4 h5 h6 => exec_fwImageBlockWrite_programs h ⟨h1, h2, h3, h4, h5, h6⟩,
    fun sub val h hno => exec_fwImageBlockWrite_refused h hno, fun v hv h1 h => exec_fwActivate_refused hv h1 h,
    exec_fwActivate_marks⟩

end Sys2Proof.Machine
end


-- ==== Sys2Proof/Proofs/Replan.lean ====
section
/-!
PROOF. What a re-plan makes of a unit's table of voltages, and why it does not always plan what R400 asks: `State.wf` says nothing
about the tables of a unit's record, and one that lists a point twice keeps its second entry when the first is dropped.
-/

namespace Sys2Proof.Machine

/-! The re-plan of the units. -/

/-- The units of a state are in canonical form. -/
def UnitsOk (s : State) : Prop := twf .init s.ageing.units = true

/-- A unit's raised voltages, and its record, after a re-plan. -/
def State.raised (s : State) (u : Nat) : Tbl Nat :=
  (List.range 16).foldl (fun t p => tset (pointMv p) t p (s.nextMv u p)) ((s.age u).raise.getD (s.age u).plan)
def State.replanned (s : State) (u : Nat) : AgeUnit :=
  { s.age u with
    raise := some (s.raised u)
    fresh := []
    hours := s.ageing.hours
    forecast := (s.forecastOf u).2
    history := (s.age u).history ++ [(s.ageing.hours, (s.age u).vminNow u 13 - Config.vminMade u 13)] }

theorem State.planUnit_eq (s : State) (u : Nat) : s.planUnit u = s.setAge u (s.replanned u) := rfl

theorem State.forecastOf_congr {s t : State} {u : Nat} (ha : t.age u = s.age u) (hh : t.ageing.hours = s.ageing.hours)
    (ho : t.obj = s.obj) : t.forecastOf u = s.forecastOf u := by
  rw [State.forecastOf, ha, hh, State.ov_congr ho, State.forecastOf]

theorem State.nextMv_congr {s t : State} {u : Nat} (ha : t.age u = s.age u) (hh : t.ageing.hours = s.ageing.hours)
    (ho : t.obj = s.obj) (p : Nat) : t.nextMv u p = s.nextMv u p := by
  rw [State.nextMv, State.planned, ha, State.ov_congr ho, State.forecastOf_congr ha hh ho, State.nextMv, State.planned]

theorem State.replanned_congr {s t : State} {u : Nat} (ha : t.age u = s.age u) (hh : t.ageing.hours = s.ageing.hours)
    (ho : t.obj = s.obj) : t.replanned u = s.replanned u := by
  have hraised : t.raised u = s.raised u := by
    rw [State.raised, ha, State.raised]
    simp only [State.nextMv_congr ha hh ho]
  rw [State.replanned, ha, hh, hraised, State.forecastOf_congr ha hh ho, State.replanned]

theorem Recordwise.planUnit : Recordwise UnitsOk State.age (fun s u => s.planUnit u) State.replanned where
  keeps u h := twf_tset _ _ _ h
  self u h := by rw [State.planUnit_eq, State.age_setAge h, if_pos rfl]
  other h hne := by rw [State.planUnit_eq, State.age_setAge h, if_neg hne]
  stable h hne := by
    rw [State.planUnit_eq]
    exact State.replanned_congr ((State.age_setAge h _ _ _).trans (if_neg hne)) rfl rfl

theorem State.age_setBusy (s : State) (u : Nat) : s.setBusy.age u = s.age u := rfl

theorem State.age_replan {s : State} (h : UnitsOk s) {u : Nat} (hu : u < 5) : s.replan.age u = s.replanned u := by
  have hservice (t : State) (c : Bool) (b : Nat) : Runs [.router, .host, .flash, .out] t (when_ c (·.service b) t) :=
    when_runs (fun t => State.service_runs t b) c t
  obtain ⟨c, hc⟩ : ∃ c, c = (List.range 5).any (fun u => decide (s.planned u 13 ≤ 950) && decide (950 < s.nextMv u 13)) := ⟨_, rfl⟩
  obtain ⟨v, hv⟩ : ∃ v, v = when_ c (·.service 10) s := ⟨_, rfl⟩
  obtain ⟨d, hd⟩ : ∃ d, s.replan = ((when_ d (·.service 9) ((List.range 5).foldl (fun s u => s.planUnit u) v)).journal .plan).setBusy := by
    rw [hv, hc]
    exact ⟨_, rfl⟩
  have hfirst := hservice s c 10
  rw [← hv] at hfirst
  have hage : v.ageing = s.ageing := hfirst.same .ageing rfl
  have hunits : UnitsOk v := by
    rw [UnitsOk, hage]
    exact h
  have hlast (t : State) : ((when_ d (·.service 9) t).journal .plan).ageing = t.ageing := by
    have hj : ((when_ d (·.service 9) t).journal .plan).ageing = (when_ d (·.service 9) t).ageing :=
      (State.journal_runs _ _).same .ageing rfl
    rw [hj]
    exact (hservice t d 9).same .ageing rfl
  rw [hd, State.age_setBusy, State.age_congr (hlast _),
    Recordwise.planUnit.get_foldl _ hunits List.nodup_range (List.mem_range.mpr hu)]
  exact State.replanned_congr (State.age_congr hage u) (congrArg Ageing.hours hage) (hfirst.same .obj rfl)

theorem State.replanAsk_of_idle {s : State} {r : Req} (h : s.ageing.busyTo ≤ s.clk) :
    s.perform r (writeOf replanCtrlId 4 1) = ok s.replan :=
  (State.write_action (by decide +kernel) (by decide)).trans ((rfl : _ = s.replanAsk).trans (if_neg (Nat.not_lt.mpr h)))

/-- A re-plan that is asked for, and what it makes of each unit's record. -/
theorem exec_replanCtrl_age {s : State} {r : Req} {x : Session} (hw : s.wf = true) (h : s.Obeys r (writeOf replanCtrlId 4 1) x)
    (hidle : s.ageing.busyTo ≤ s.clk) :
    ∃ t, exec (.replanCtrl r 1) s = .next t ∧ ∀ u, u < 5 → t.age u = s.replanned u := by
  obtain ⟨c, t, -, -, hexec, -, ⟨hruns, -, -⟩, -⟩ := (State.operates_of_obeys h rfl).acceptedAs
    (L := [.router, .caddy, .host, .flash, .ageing, .out, .free]) State.replan
    (fun c _ => State.replanAsk_of_idle (s := s.setCaddy c) hidle) (fun t => (State.replan_runs t).mono rfl) rfl rfl
  exact ⟨t, hexec, fun u hu => (State.age_congr (hruns.same .ageing rfl) u).trans
    (State.age_replan (s := s.setCaddy c) (State.twf_age hw : twf .init s.ageing.units = true) hu)⟩

/-- A write leaves the other entries, whichever default either has. -/
theorem tget_tset_ne_default {α : Type} [DecidableEq α] (d e : α) (t : Tbl α) {i j : Nat} (x : α) (h : i ≠ j) :
    tget e (tset d t i x) j = tget e t j := by
  unfold tset
  split
  · exact tget_terase_of_ne e t h
  · exact tget_tins_of_ne e t x h

/-! A table that lists point 0 twice. -/

namespace TwicePlanned

open Tests

/-- A unit whose raised voltages list point 0 at its own voltage and again at 5 mV, with a V_min of 0 measured there. -/
def unit : AgeUnit :=
  { AgeUnit.init with
    vmin := [(0, (0, 0))]
    fresh := [0]
    raise := some [(0, 620), (0, 5)]
    history := [(1000, 1)] }

/-- The owned module with that record as unit 0's. -/
def module : State := owned.setAge 0 unit

theorem nextMv_zero : module.nextMv 0 0 = 620 := by decide +kernel

theorem foldl_raise_keeps_zero (next : Nat → Nat) (ps : List Nat) (hps : 0 ∉ ps) (t : Tbl Nat) :
    tget 620 (ps.foldl (fun t p => tset (pointMv p) t p (next p)) t) 0 = tget 620 t 0 := by
  induction ps generalizing t with
  | nil => rfl
  | cons p ps ih =>
    rw [List.mem_cons, not_or] at hps
    rw [List.foldl_cons, ih hps.2]
    exact tget_tset_ne_default _ 620 t _ (Ne.symm hps.1)

/-- The re-plan drops the first entry, and the second is left to be read. -/
theorem raised_zero : tget 620 (module.raised 0) 0 = 5 := by
  have hcons : List.range 16 = 0 :: (List.range 15).map (· + 1) := by decide
  have hfirst : tset (pointMv 0) ((module.age 0).raise.getD (module.age 0).plan) 0 (module.nextMv 0 0) = [(0, 5)] := by
    rw [nextMv_zero]
    decide +kernel
  rw [State.raised, hcons, List.foldl_cons, hfirst, foldl_raise_keeps_zero _ _ (by decide)]
  rfl

end TwicePlanned

/-- Refutes O28 at its last clause: `State.wf` does not ask that the voltages of a unit be listed once, and a re-plan of a unit
that lists point 0 twice plans 5 mV for it, below the voltage it had. -/
theorem not_actionsTakeEffect : ¬ Obligations.ActionsTakeEffect := by
  unfold Obligations.ActionsTakeEffect
  intro h
  have hwf : TwicePlanned.module.wf = true := by decide +kernel
  have hobeys : TwicePlanned.module.Obeys Tests.req (writeOf replanCtrlId 4 1) Tests.ses :=
    (Tests.obeys_iff _ _ _ _).mpr (by decide +kernel)
  have hidle : TwicePlanned.module.ageing.busyTo ≤ TwicePlanned.module.clk := by decide +kernel
  obtain ⟨-, -, -, -, -, -, -, -, -, hreplan⟩ := h TwicePlanned.module Tests.req Tests.ses hwf
  obtain ⟨t, hexec, -, hunits, -⟩ := hreplan hobeys hidle
  have hplanned := (hunits 0 (by decide)).2.2.2.2 0 (by decide)
  obtain ⟨u, hexec', hage⟩ := exec_replanCtrl_age hwf hobeys hidle
  obtain rfl : t = u := Host.Outcome.next.inj (hexec.symm.trans hexec')
  have hread : t.planned 0 0 = 5 := by
    rw [State.planned, hage 0 (by decide)]
    exact TwicePlanned.raised_zero
  have hbefore : TwicePlanned.module.planned 0 0 = 620 := by decide +kernel
  have hfell : 620 ≤ t.planned 0 0 := hbefore ▸ hplanned ▸ le_max_left ..
  omega

end Sys2Proof.Machine
end


-- ==== Sys2Proof/Proofs/MessageBytes.lean ====
section
/-!
PROOF. A management message's bytes are read back as the request that they were formed from (R409, R410).
-/

namespace Sys2Proof.Machine

/-! Fields of byte lists. -/

theorem leNat_append (a b : List Byte) : leNat (a ++ b) = leNat a + 2 ^ (8 * a.length) * leNat b := by
  induction a with
  | nil => simp [leNat]
  | cons x a ih =>
    rw [List.cons_append, leNat, leNat, ih, List.length_cons, Nat.mul_succ, Nat.pow_add]
    ring

theorem leNat_lt (a : List Byte) : leNat a < 2 ^ (8 * a.length) := by
  induction a with
  | nil => exact Nat.one_pos
  | cons x a ih =>
    have hx : x.toNat < 256 := x.isLt
    rw [leNat, List.length_cons, Nat.mul_succ, Nat.pow_add]
    omega

theorem leNat_drop (bs : List Byte) (k : Nat) : leNat (bs.drop k) = leNat bs / 2 ^ (8 * k) := by
  by_cases hk : k ≤ bs.length
  · have hlen : (bs.take k).length = k := List.length_take_of_le hk
    have hlt := leNat_lt (bs.take k)
    conv_rhs => rw [← List.take_append_drop k bs, leNat_append]
    rw [hlen] at hlt ⊢
    rw [Nat.add_mul_div_left _ _ (Nat.two_pow_pos _), Nat.div_eq_of_lt hlt, Nat.zero_add]
  · have hlt := leNat_lt bs
    have hle : 2 ^ (8 * bs.length) ≤ 2 ^ (8 * k) := Nat.pow_le_pow_right (by decide) (by omega)
    rw [List.drop_of_length_le (by omega), Nat.div_eq_of_lt (by omega), leNat]

theorem leNat_take (bs : List Byte) (k : Nat) : leNat (bs.take k) = leNat bs % 2 ^ (8 * k) := by
  by_cases hk : k ≤ bs.length
  · have hlen : (bs.take k).length = k := List.length_take_of_le hk
    have hlt := leNat_lt (bs.take k)
    conv_rhs => rw [← List.take_append_drop k bs, leNat_append]
    rw [hlen] at hlt ⊢
    rw [Nat.add_mul_mod_self_left, Nat.mod_eq_of_lt hlt]
  · have hlt := leNat_lt bs
    have hle : 2 ^ (8 * bs.length) ≤ 2 ^ (8 * k) := Nat.pow_le_pow_right (by decide) (by omega)
    rw [List.take_of_length_le (by omega), Nat.mod_eq_of_lt (by omega)]

theorem bits_eq (v lo w : Nat) : bits v lo w = v / 2 ^ lo % 2 ^ w := rfl

/-- A field of a byte list is that of its number. -/
theorem bytesField_eq (bs : List Byte) (lo w : Nat) : bytesField bs lo w = leNat bs / 2 ^ lo % 2 ^ w := by
  have hlo : 8 * (lo / 8) + lo % 8 = lo := by omega
  have hw : 2 ^ (8 * (w / 8 + 2)) = 2 ^ (lo % 8) * 2 ^ (8 * (w / 8 + 2) - lo % 8) := by
    rw [← Nat.pow_add]; congr 1; omega
  have hdvd : 2 ^ w ∣ 2 ^ (8 * (w / 8 + 2) - lo % 8) := pow_dvd_pow 2 (by omega)
  rw [bytesField, bits_eq, leNat_take, leNat_drop, hw, Nat.mod_mul_right_div_self, Nat.mod_mod_of_dvd _ hdvd, Nat.div_div_eq_div_mul,
    ← Nat.pow_add, hlo]

/-- A field of some bytes within a list. -/
theorem bytesField_of_append {bs pre mid post : List Byte} (h : bs = pre ++ (mid ++ post)) {lo k w : Nat} (hlo : lo = 8 * pre.length + k)
    (hw : k + w ≤ 8 * mid.length) : bytesField bs lo w = bits (leNat mid) k w := by
  have hpre := leNat_lt pre
  rw [bytesField_eq, h, leNat_append, leNat_append, hlo, Nat.pow_add, ← Nat.div_div_eq_div_mul,
    Nat.add_mul_div_left _ _ (Nat.two_pow_pos _), Nat.div_eq_of_lt hpre, Nat.zero_add, bits_eq]
  have hsplit : 2 ^ (8 * mid.length) = 2 ^ k * (2 ^ w * 2 ^ (8 * mid.length - k - w)) := by
    rw [← Nat.pow_add, ← Nat.pow_add]; congr 1; omega
  rw [hsplit, Nat.mul_assoc, Nat.add_mul_div_left _ _ (Nat.two_pow_pos _), Nat.mul_assoc, Nat.add_mul_mod_self_left]

theorem crc32cBit_lt {c : Nat} (h : c < 2 ^ 32) : crc32cBit c < 2 ^ 32 := by
  unfold crc32cBit
  split
  · exact Nat.xor_lt_two_pow (by omega) (by decide)
  · omega

theorem crc32cByte_lt {c : Nat} (b : Byte) (h : c < 2 ^ 32) : crc32cByte c b < 2 ^ 32 := by
  have hb : b.toNat < 2 ^ 32 := by have := b.isLt; omega
  exact crc32cBit_lt (crc32cBit_lt (crc32cBit_lt (crc32cBit_lt (crc32cBit_lt (crc32cBit_lt (crc32cBit_lt (crc32cBit_lt
    (Nat.xor_lt_two_pow h hb))))))))

theorem crc32c_lt (bs : List Byte) : crc32c bs < 2 ^ 32 := by
  have hfold : ∀ c, c < 2 ^ 32 → bs.foldl crc32cByte c < 2 ^ 32 := by
    induction bs with
    | nil => exact fun _ h => h
    | cons b bs ih => exact fun c h => ih _ (crc32cByte_lt b h)
  exact Nat.xor_lt_two_pow (hfold _ (by decide)) (by decide)

/-! Numbers one after another. -/

/-- The bytes of some numbers, each with its width in bytes. -/
def wordBytes (ws : List (Nat × Nat)) : List Byte := ws.flatMap (fun w => toLE w.1 w.2)

theorem length_wordBytes (ws : List (Nat × Nat)) : (wordBytes ws).length = (ws.map Prod.fst).sum := by
  simp [wordBytes, List.length_flatMap, length_toLE]

theorem bits_zero_of_lt {v w : Nat} (h : v < 2 ^ w) : bits v 0 w = v := by
  rw [bits_eq, Nat.pow_zero, Nat.div_one, Nat.mod_eq_of_lt h]

theorem bits_of_lt {v lo w : Nat} (h : v < 2 ^ lo) : bits v lo w = 0 := by
  rw [bits_eq, Nat.div_eq_of_lt h, Nat.zero_mod]

/-- A field within the number of index `i`. -/
theorem hdrField_wordBytes (ws : List (Nat × Nat)) (i : Nat) {n v lo k w : Nat} (hi : ws[i]? = some (n, v))
    (hlo : lo = 8 * ((ws.take i).map Prod.fst).sum + k) (hw : k + w ≤ 8 * n) (hv : v < 2 ^ (8 * n)) :
    hdrField (wordBytes ws) lo w = bits v k w := by
  obtain ⟨hlt, hget⟩ := List.getElem?_eq_some_iff.mp hi
  have hsplit : wordBytes ws = wordBytes (ws.take i) ++ (toLE n v ++ wordBytes (ws.drop (i + 1))) := by
    conv_lhs => rw [← List.take_append_drop i ws, List.drop_eq_getElem_cons hlt, hget]
    simp [wordBytes]
  rw [hdrField, bytesField_of_append hsplit (by rw [length_wordBytes]; exact hlo) (by rw [length_toLE]; exact hw), leNat_toLE,
    Nat.mod_eq_of_lt hv]

/-! The header of a request. -/

/-- The numbers of a request's 32-byte header (R409). -/
def headerWords (r : Req) (m : MOp) : List (Nat × Nat) :=
  [(1, 1), (1, m.code), (2, r.cls), (4, r.session), (4, r.xid), (4, r.epoch), (2, m.payload.length), (2, 0), (2, 0), (2, r.dest),
    (4, crc32c m.payload), (4, 0)]

/-- The 32 bytes before the payload. -/
def requestHeader (r : Req) (m : MOp) : List Byte := wordBytes (headerWords r m)

theorem length_requestHeader (r : Req) (m : MOp) : (requestHeader r m).length = 32 := length_wordBytes _

theorem requestBytes_eq (r : Req) (m : MOp) : requestBytes r m = requestHeader r m ++ m.payload := by
  simp [requestBytes, requestHeader, headerWords, wordBytes, toLE]

theorem length_requestBytes (r : Req) (m : MOp) : (requestBytes r m).length = 32 + m.payload.length := by
  rw [requestBytes_eq, List.length_append, length_requestHeader]

section
variable {r : Req} {m : MOp}

theorem hdr_op (h : m.code < 256) : hdrField (requestHeader r m) 8 8 = m.code :=
  (hdrField_wordBytes (headerWords r m) 1 (k := 0) rfl rfl (by decide) h).trans (bits_zero_of_lt h)

theorem hdr_segments : hdrField (requestHeader r m) 152 8 = 0 ∧ hdrField (requestHeader r m) 144 8 = 0 ∧
    hdrField (requestHeader r m) 144 16 = 0 :=
  ⟨hdrField_wordBytes (headerWords r m) 7 (k := 8) rfl rfl (by decide) (by decide),
    hdrField_wordBytes (headerWords r m) 7 (k := 0) rfl rfl (by decide) (by decide),
    hdrField_wordBytes (headerWords r m) 7 (k := 0) rfl rfl (by decide) (by decide)⟩

theorem hdr_length (h : m.payload.length ≤ 4352) : hdrField (requestHeader r m) 128 16 = m.payload.length :=
  (hdrField_wordBytes (headerWords r m) 6 (k := 0) rfl rfl (by decide) (show m.payload.length < 2 ^ 16 by omega)).trans
    (bits_zero_of_lt (by omega))

theorem hdr_crc : hdrField (requestHeader r m) 192 32 = crc32c m.payload :=
  (hdrField_wordBytes (headerWords r m) 10 (k := 0) rfl rfl (by decide) (crc32c_lt _)).trans (bits_zero_of_lt (crc32c_lt _))

theorem hdr_cls (h : r.cls < 4) : hdrField (requestHeader r m) 16 4 = r.cls ∧ hdrField (requestHeader r m) 20 2 = 0 ∧
    hdrField (requestHeader r m) 22 10 = 0 := by
  have hword (k w : Nat) (hw : k + w ≤ 16) : hdrField (requestHeader r m) (16 + k) w = bits r.cls k w :=
    hdrField_wordBytes (headerWords r m) 2 rfl rfl hw (show r.cls < 2 ^ 16 by omega)
  exact ⟨(hword 0 4 (by decide)).trans (bits_zero_of_lt (by omega)), (hword 4 2 (by decide)).trans (bits_of_lt (by omega)),
    (hword 6 10 (by decide)).trans (bits_of_lt (by omega))⟩

/-- The header gives back the request. -/
theorem headerReq_requestHeader (hr : r.wf = true) : headerReq r.transport (requestHeader r m) = r := by
  simp only [Req.wf, masterOk, Bool.and_eq_true, decide_eq_true_eq] at hr
  obtain ⟨⟨⟨⟨⟨hcls, hsession⟩, hxid⟩, hepoch⟩, hdest⟩, -⟩ := hr
  have h3 : hdrField (requestHeader r m) 32 32 = r.session :=
    (hdrField_wordBytes (headerWords r m) 3 (k := 0) rfl rfl (by decide) hsession).trans (bits_zero_of_lt hsession)
  have h4 : hdrField (requestHeader r m) 64 32 = r.xid :=
    (hdrField_wordBytes (headerWords r m) 4 (k := 0) rfl rfl (by decide) hxid).trans (bits_zero_of_lt hxid)
  have h5 : hdrField (requestHeader r m) 96 32 = r.epoch :=
    (hdrField_wordBytes (headerWords r m) 5 (k := 0) rfl rfl (by decide) hepoch).trans (bits_zero_of_lt hepoch)
  have h9 : hdrField (requestHeader r m) 176 16 = r.dest :=
    (hdrField_wordBytes (headerWords r m) 9 (k := 0) rfl rfl (by decide) hdest).trans (bits_zero_of_lt hdest)
  rw [headerReq, (hdr_cls hcls).1, h3, h4, h5, h9]

theorem cls_lt (hr : r.wf = true) : r.cls < 4 := by
  simp only [Req.wf, masterOk, Bool.and_eq_true, decide_eq_true_eq] at hr
  exact hr.1.1.1.1.1

/-- The header is as R409 requires. -/
theorem headerOk_requestHeader (hr : r.wf = true) (hlen : m.payload.length ≤ 4352) :
    headerOk (requestHeader r m) m.payload = true := by
  have hver : hdrField (requestHeader r m) 0 8 = 1 :=
    hdrField_wordBytes (headerWords r m) 0 (k := 0) rfl rfl (by decide) (by decide)
  have hlast : hdrField (requestHeader r m) 224 32 = 0 :=
    hdrField_wordBytes (headerWords r m) 11 (k := 0) rfl rfl (by decide) (by decide)
  obtain ⟨hcls, -, hres⟩ := hdr_cls (m := m) (cls_lt hr)
  rw [headerOk, hver, hres, hlast, hdr_length hlen, hcls]
  simpa using cls_lt hr

end

/-! Messages that are one request. -/

section
variable {s : State} {r : Req} {m : MOp}

/-- The bytes of a request are one complete message of it. -/
theorem State.message_requestBytes (hr : r.wf = true) (hm : MOp.of m.code m.payload = m) (hcode : m.code < 256)
    (hlen : m.payload.length ≤ 4352) : s.message r.transport (requestHeader r m) m.payload true = s.request r m := by
  obtain ⟨-, hevent, -⟩ := hdr_cls (m := m) (cls_lt hr)
  have hop : messageOp (requestHeader r m) m.payload true = m := by
    rw [messageOp, headerOk_requestHeader hr hlen, hdr_op hcode, hm]
    rfl
  rw [State.message, if_neg (by simp [hevent, hdr_crc]), headerReq_requestHeader hr, hop]
  dsimp only
  rw [if_neg (by have := cls_lt hr; omega)]

theorem take_requestBytes : (requestBytes r m).take 32 = requestHeader r m := by
  rw [requestBytes_eq, List.take_left' (length_requestHeader r m)]

theorem drop_requestBytes : (requestBytes r m).drop 32 = m.payload := by
  rw [requestBytes_eq, List.drop_left' (length_requestHeader r m)]

/-- One datagram on the tray bus. -/
theorem State.segmentIn_requestBytes {g : Datagram} (hr : r.wf = true) (hm : MOp.of m.code m.payload = m) (hcode : m.code < 256)
    (hlen : m.payload.length ≤ 4352) (ht : r.transport = .tray) (hs : s.serves .tray = true) (hg : s.hears g m.code = true)
    (hb : g.beacon = false) : s.segmentIn g (requestBytes r m) = s.request r m := by
  have hbeacon : s.beaconSeen g.beacon = s := by rw [hb]; rfl
  obtain ⟨hcount, hindex, -⟩ := hdr_segments (r := r) (m := m)
  have hlong : ¬(s.serves .tray = false ∨ (requestBytes r m).length < 32) := by
    rw [hs, length_requestBytes]; simp
  rw [State.segmentIn, hbeacon, take_requestBytes, drop_requestBytes, hcount, hindex, hdr_op hcode]
  rw [if_neg hlong, if_neg (by simp [hg]), if_pos rfl, ← ht]
  exact State.message_requestBytes hr hm hcode hlen

/-- A datagram that is not the caddy's. -/
theorem State.segmentIn_not_heard {g : Datagram} (hcode : m.code < 256) (hg : s.hears g m.code = false) (hb : g.beacon = false) :
    s.segmentIn g (requestBytes r m) = s := by
  have hbeacon : s.beaconSeen g.beacon = s := by rw [hb]; rfl
  rw [State.segmentIn, hbeacon, take_requestBytes, hdr_op hcode, if_pos hg, ite_self]

/-- One VC0 packet. -/
theorem State.vc0In_requestBytes {p : Packet} (hr : r.wf = true) (hm : MOp.of m.code m.payload = m) (hcode : m.code < 256)
    (hlen : m.payload.length ≤ 4352) (ht : r.transport = .vc0 p.src) (hs : s.serves (.vc0 p.src) = true)
    (hp : ∃ pad, p.body = toLE 8 0x90 ++ requestBytes r m ++ pad) : s.vc0In p = (s.taken p).request r m := by
  obtain ⟨pad, hbody⟩ := hp
  have hdrop : p.body.drop 8 = requestBytes r m ++ pad := by
    rw [hbody, List.append_assoc, List.drop_left' (length_toLE 8 0x90)]
  have hh : (requestBytes r m ++ pad).take 32 = requestHeader r m := by
    rw [List.take_append_of_le_length (by rw [length_requestBytes]; omega), take_requestBytes]
  have hpay : ((requestBytes r m ++ pad).drop 32).take m.payload.length = m.payload := by
    rw [List.drop_append_of_le_length (by rw [length_requestBytes]; omega), drop_requestBytes, List.take_left' rfl]
  have hfop : p.field 0 8 = 0x90 := by
    have hsplit : p.body = [] ++ (toLE 8 0x90 ++ (requestBytes r m ++ pad)) := by rw [hbody, List.append_assoc]; rfl
    exact (bytesField_of_append hsplit (k := 0) rfl (by decide)).trans (by decide)
  have hlong : ¬((s.taken p).serves (.vc0 p.src) = false ∨ (requestBytes r m ++ pad).length < 32) := by
    rw [show (s.taken p).serves (.vc0 p.src) = true from hs, List.length_append, length_requestBytes]
    simp; omega
  obtain ⟨-, -, hindex⟩ := hdr_segments (r := r) (m := m)
  rw [State.vc0In, hdrop, hh, hdr_length hlen, hpay, hindex, hfop]
  rw [if_neg hlong, if_pos rfl, ← ht]
  exact State.message_requestBytes hr hm hcode hlen

/-- One mailbox message. -/
theorem State.doorbell_requestBytes {k : Nat} (hr : r.wf = true) (hm : MOp.of m.code m.payload = m) (hcode : m.code < 256)
    (hlen : m.payload.length ≤ 4352) (ht : r.transport = .mailbox k) (hs : s.serves (.mailbox k) = true)
    (hbusy : (s.mailbox k).busy = false)
    (hbytes : tbytes (s.mailbox k).request 0 (requestBytes r m).length = requestBytes r m) :
    s.doorbell k (requestBytes r m).length = (s.setMailbox k { s.mailbox k with busy := true }).request r m := by
  have hlong : ¬((requestBytes r m).length < 32 ∨ 4384 < (requestBytes r m).length) := by rw [length_requestBytes]; omega
  obtain ⟨-, -, hindex⟩ := hdr_segments (r := r) (m := m)
  rw [State.doorbell]
  dsimp only
  rw [if_neg (by simp [hs]), if_neg (by simp [hbusy]), if_neg hlong, hbytes, take_requestBytes, drop_requestBytes, hindex, ← ht]
  exact State.message_requestBytes hr hm hcode hlen

/-- The first segment of several begins a message that waits for the others. -/
def State.segmentBegun (s : State) (h payload : List Byte) : Partial where
  cls := hdrField h 16 4
  xid := hdrField h 64 32
  count := hdrField h 152 8 + 1
  firstAt := s.clk
  header := h
  segs := [(hdrField h 144 8, payload)]

/-- A caddy with one more message of which segments are missing. -/
def Caddy.awaiting (c : Caddy) (p : Partial) : Caddy := { c with partials := c.partials ++ [p] }

theorem State.segment_first {h payload : List Byte} (hn : 0 < hdrField h 152 8) (hi : hdrField h 144 8 ≤ hdrField h 152 8)
    (hnew : ∀ q ∈ s.caddy.partials, ¬(q.cls = hdrField h 16 4 ∧ q.xid = hdrField h 64 32)) :
    s.segment h payload = s.setCaddy (s.caddy.awaiting (s.segmentBegun h payload)) := by
  have hmine : s.caddy.partials.filter (fun p => p.cls == hdrField h 16 4 && p.xid == hdrField h 64 32 &&
      decide (s.clk < p.firstAt + 100000000)) = [] := by
    rw [List.filter_eq_nil_iff]
    intro q hq hmatch
    exact hnew q hq (by simp at hmatch; exact hmatch.1)
  have hrest : s.caddy.partials.filter (fun p => !(p.cls == hdrField h 16 4 && p.xid == hdrField h 64 32)) = s.caddy.partials := by
    rw [List.filter_eq_self]
    intro q hq
    rw [Bool.not_eq_true', ← Bool.not_eq_true, Bool.and_eq_true, beq_iff_eq, beq_iff_eq]
    exact hnew q hq
  have hopen : ¬((List.range (hdrField h 152 8 + 1)).all
      (fun k => (tget? [(hdrField h 144 8, payload)] k).isSome) = true) := by
    intro hall
    have hat (k : Nat) (hk : k < hdrField h 152 8 + 1) : hdrField h 144 8 = k := by
      have := List.all_eq_true.mp hall k (List.mem_range.mpr hk)
      by_contra hne
      simp [tget?, hne] at this
    have h0 := hat 0 (by omega)
    have h1 := hat 1 (by omega)
    omega
  rw [State.segment, hmine, hrest]
  dsimp only [List.head?_nil, Option.getD_none, tins]
  rw [if_neg (by omega)]
  exact if_neg hopen

end

/-- Settles O27: a request's header is twelve numbers one after another, and each field is read back within its number. -/
theorem messagesAreReadBack : Obligations.MessagesAreReadBack := by
  unfold Obligations.MessagesAreReadBack
  intro s r m hr hm hcode hlen
  refine ⟨fun g ht hs hg hb => congrArg Host.Outcome.next (State.segmentIn_requestBytes hr hm hcode hlen ht hs hg hb),
    fun g hg hb => congrArg Host.Outcome.next (State.segmentIn_not_heard hcode hg hb), fun p hp ht hs hrails hbody => ?_,
    fun k hk ht hs hbusy hbytes => ?_, fun g h payload hh hs hg hb hn hi hnew => ?_⟩
  · exact (need_of hp _).trans ((powered_of hrails _).trans (congrArg Host.Outcome.next
      (State.vc0In_requestBytes hr hm hcode hlen ht hs hbody)))
  · exact (need_of (decide_eq_true hk) _).trans (congrArg Host.Outcome.next
      (State.doorbell_requestBytes hr hm hcode hlen ht hs hbusy hbytes))
  · have hseg : s.segmentIn g (h ++ payload) =
        s.setCaddy (s.caddy.awaiting (s.segmentBegun h payload)) := by
      have hbeacon : s.beaconSeen g.beacon = s := by rw [hb]; rfl
      have hlong : ¬(s.serves .tray = false ∨ (h ++ payload).length < 32) := by
        rw [hs, List.length_append]; simp; omega
      rw [State.segmentIn, hbeacon, List.take_left' hh, List.drop_left' hh, if_neg hlong, if_neg (by simp [hg]), if_neg (by omega)]
      exact State.segment_first hn hi hnew
    refine ⟨_, congrArg Host.Outcome.next hseg, rfl, (State.setCaddy_runs s (s.caddy.awaiting (s.segmentBegun h payload)) fun h => h).frame⟩

end Sys2Proof.Machine
end


-- ==== Sys2Proof/Proofs/StagedApply.lean ====
section
/-!
PROOF. An APPLY that is rejected changes no value, and a DISCARD drops the staged set (R416).
-/

namespace Sys2Proof.Machine

/-! The commit objects. -/

theorem objRow_commit {a : Nat} (ha : a < 16) : objRow (a * 65536 + 1) = some (commitRow a) := by
  rw [objRow, if_neg (by omega), if_pos (by omega), show (a * 65536 + 1) / 65536 = a by omega]

section
variable {s : State} {r : Req} {a : Nat}

theorem State.write_commit {v : Nat} (ha : a < 16) (hv : v < 2 ^ 128) :
    s.perform r (writeOf (a * 65536 + 1) 16 v) = s.writeCommit r a v := by
  change s.write r (a * 65536 + 1) 0 (toLE 16 v) = s.writeCommit r a v
  have h16 : (commitRow a).access = 1 ∧ (commitRow a).type = 6 := ⟨rfl, rfl⟩
  rw [State.write_whole (objRow_commit ha) (by omega) (by omega) (by omega) (length_toLE 16 v), if_pos h16.2, leNat_toLE,
    Nat.mod_eq_of_lt hv, show (a * 65536 + 1) / 65536 = a by omega]

/-- What an APPLY's result comes to for its request. -/
def State.applyAnswer (s : State) (r : Req) (a : Nat) : State × ApplyRes → State × Ans
  | (n, .rejected st) => no n st
  | (n, .applied) => ok n
  | (n, .waits gen changed needs worked) =>
    (n.setCaddy { n.caddy with deferred := n.caddy.deferred ++
      [⟨r, a, gen, s.ftRead mgmtPs, s.clk, changed, none, needs, worked⟩] }, .later)

theorem State.perform_apply (ha : a < 16) : s.perform r (writeOf (a * 65536 + 1) 16 1) =
    s.applyAnswer r a (s.applyArea a) := by
  rw [State.write_commit ha (by decide), State.writeCommit, if_neg (by decide), if_neg (by decide), if_pos (by decide)]
  generalize s.applyArea a = q
  obtain ⟨n, res⟩ := q
  cases res with
  | rejected st => rfl
  | applied => rfl
  | waits gen changed needs worked => rfl

theorem State.perform_discard (ha : a < 16) : s.perform r (writeOf (a * 65536 + 1) 16 2) = ok (s.discardArea a) :=
  (State.write_commit ha (by decide)).trans rfl

/-- Who owns the module is all that a commit's checks ask of the caddy's state. -/
theorem State.areaFaults_setCaddy {c : Caddy} (ho : c.owner.map Owner.cls = s.caddy.owner.map Owner.cls) :
    (s.setCaddy c).areaFaults a = s.areaFaults a := by
  have h1 : (s.setCaddy c).faults1 = s.faults1 := by
    have hset : (s.setCaddy c).caddy = c := rfl
    unfold State.faults1
    rw [hset]
    cases hc : c.owner with
    | none =>
      cases hs : s.caddy.owner with
      | none => rfl
      | some o => rw [hc, hs] at ho; cases ho
    | some o =>
      cases hs : s.caddy.owner with
      | none => rw [hc, hs] at ho; cases ho
      | some q =>
        have hcls : o.cls = q.cls := by rw [hc, hs] at ho; exact Option.some.inj ho
        simp only [hcls]
        rfl
  unfold State.areaFaults
  split
  · rw [h1]; rfl
  all_goals rfl

end

/-! A rejected APPLY. -/

/-- The commit object of a rejected APPLY (R416). -/
def AreaSt.rejects (x : AreaSt) (f : Finding) : AreaSt := { x with lastStatus := f.1, firstObj := f.2.1, firstIndex := f.2.2 }

/-- A rejected APPLY, with the service flag that a value beyond its range raises. -/
def State.flags12 (s : State) (f : Finding) : State := if f.1 = 0x12 then s.service 8 else s
def State.rejects (s : State) (a : Nat) (f : Finding) : State :=
  (s.flags12 f).setArea a (((s.flags12 f).area a).rejects f)

section
variable {s : State} {a : Nat} {f : Finding} {fs : List Finding}

theorem State.applyArea_rejected (hp : (s.area a).pending = true) (hf : s.areaFaults a = f :: fs) :
    s.applyArea a = (s.rejects a f, .rejected f.1) := by
  rw [State.applyArea]
  dsimp only
  rw [if_neg (by simp [hp]), hf]
  rfl

theorem State.flags12_runs (s : State) (f : Finding) : Runs [.router, .host, .flash, .out] s (s.flags12 f) :=
  .ite (fun _ => State.service_runs ..) fun _ => .refl _

theorem State.rejects_runs (s : State) (a : Nat) (f : Finding) : Runs [.router, .host, .obj, .flash, .out] s (s.rejects a f) :=
  .comp (State.setArea_runs ..) rfl ((State.flags12_runs s f).mono rfl)

theorem State.area_rejects (hw : s.wf = true) : (s.rejects a f).area a = (s.area a).rejects f := by
  have hruns := State.flags12_runs s f
  rw [State.rejects, State.area_setArea (State.twf_area (hruns.wf hw)), if_pos rfl, State.area_congr (hruns.same .obj rfl)]

theorem State.ov_rejects (id : Nat) : (s.rejects a f).ov id = s.ov id ∧ (s.rejects a f).sv id = s.sv id := by
  have hobj : (s.flags12 f).obj = s.obj := (State.flags12_runs s f).same .obj rfl
  exact ⟨State.ov_congr hobj id, State.sv_congr hobj id⟩

end

section
variable {s : State} {r : Req} {x : Session}

/-- Taking a request up keeps the class of the owner. -/
theorem State.ownerCls_taking (s : State) (r : Req) (x : Session) :
    (s.taking r x).caddy.owner.map Owner.cls = s.caddy.owner.map Owner.cls := by
  unfold State.taking State.renewLease
  dsimp only
  split
  · split
    · next o ho =>
      have ho' : s.caddy.owner = some o := ho
      rw [ho']
      rfl
    · rfl
  · rfl

theorem State.taking_eq_owner (s : State) (r : Req) (x : Session) :
    ∃ c, s.taking r x = s.setCaddy c ∧ c.owner.map Owner.cls = s.caddy.owner.map Owner.cls := by
  obtain ⟨c, hc, -⟩ := State.taking_eq s r x
  exact ⟨c, hc, (congrArg (fun t : State => t.caddy.owner.map Owner.cls) hc).symm.trans (State.ownerCls_taking s r x)⟩

/-- O25's clause for an APPLY that is rejected. -/
theorem exec_apply_rejects {a : Nat} {f : Finding} {fs : List Finding} (hw : s.wf = true) (ha : a < 16)
    (h : s.Obeys r (writeOf (a * 65536 + 1) 16 1) x) (hp : (s.area a).pending = true)
    (hf : (s.taking r x).areaFaults a = f :: fs) :
    ∃ t, exec (.apply r a) s = .next t ∧ (t.area a).lastStatus = f.1 ∧ (t.area a).firstObj = f.2.1 ∧
      (t.area a).firstIndex = f.2.2 ∧ (t.area a).pending = true ∧ (∀ id, t.ov id = s.ov id ∧ t.sv id = s.sv id) ∧
      t.Answers r (writeOf (a * 65536 + 1) 16 1) f.1 [] ∧ Frame [.router, .caddy, .host, .obj, .flash, .out] s t := by
  obtain ⟨c, hc, howner⟩ := State.taking_eq_owner s r x
  have hfaults : s.areaFaults a = f :: fs := by
    rw [← State.areaFaults_setCaddy howner, ← hc]
    exact hf
  have hper (k : Caddy) (hk : k.owner.map Owner.cls = s.caddy.owner.map Owner.cls) :
      (s.setCaddy k).perform r (writeOf (a * 65536 + 1) 16 1) = ((s.setCaddy k).rejects a f, .now f.1 []) := by
    rw [State.perform_apply ha, State.applyArea_rejected (s := s.setCaddy k) hp ((State.areaFaults_setCaddy hk).trans hfaults)]
    rfl
  have hneed : exec (.apply r a) s = asked r (writeOf (a * 65536 + 1) 16 1) s := need_of (decide_eq_true ha) _
  obtain ⟨k, hk, hexec⟩ : ∃ k, Runs [.caddy] s (s.setCaddy k) ∧ asked r (writeOf (a * 65536 + 1) 16 1) s =
      .next (((s.setCaddy k).rejects a f).replies r (writeOf (a * 65536 + 1) 16 1) f.1 []) := by
    by_cases h0 : f.1 = 0
    · refine ⟨c, hc ▸ State.taking_runs s r x, ?_⟩
      have htaken := hper c howner
      rw [h0, ← hc] at htaken
      rw [h0, ← hc]
      exact (State.operates_of_obeys h rfl).accepted htaken
    · have htaken := hper c howner
      rw [← hc] at htaken
      exact ⟨_, State.hearing_runs s r x, (State.operates_of_obeys h rfl).refused htaken h0 (hper _ rfl)⟩
  have hreplies := State.replies_runs ((s.setCaddy k).rejects a f) r (writeOf (a * 65536 + 1) 16 1) f.1 []
  have hobj := hreplies.same .obj rfl
  have harea := (State.area_congr hobj a).trans (State.area_rejects (hk.wf hw))
  refine ⟨_, hneed.trans hexec, congrArg AreaSt.lastStatus harea, congrArg AreaSt.firstObj harea, congrArg AreaSt.firstIndex harea,
    (congrArg AreaSt.pending harea).trans hp, fun id => ?_, State.answers_replies .., ?_⟩
  · obtain ⟨hov, hsv⟩ := State.ov_rejects (s := s.setCaddy k) (a := a) (f := f) id
    exact ⟨(State.ov_congr hobj id).trans hov, (State.sv_congr hobj id).trans hsv⟩
  · exact (Runs.comp hreplies rfl (.comp (State.rejects_runs ..) rfl (hk.mono rfl))).frame

/-- O25's clause for DISCARD. -/
theorem exec_discard_drops {a : Nat} (hw : s.wf = true) (ha : a < 16) (h : s.Obeys r (writeOf (a * 65536 + 1) 16 2) x) :
    ∃ t, exec (.discard r a) s = .next t ∧ (t.area a).pending = false ∧
      (∀ id, id / 65536 = a → tget? t.obj.staged id = none) ∧ (∀ id, t.ov id = s.ov id) ∧
      t.Answers r (writeOf (a * 65536 + 1) 16 2) 0 [] ∧ Frame [.router, .caddy, .host, .obj, .out] s t := by
  obtain ⟨c, t, -, hwf, hexec, hans, ⟨hruns, -, -⟩, hframe⟩ := (State.operates_of_obeys h rfl).acceptedAs
    (L := [.router, .caddy, .host, .obj, .out]) (fun t => t.discardArea a) (fun c _ => State.perform_discard ha)
    (fun t => (State.discardArea_runs ..).mono rfl) rfl rfl
  have hobj := hruns.same .obj rfl
  refine ⟨t, (need_of (decide_eq_true ha) _).trans hexec, ?_, fun id hid => ?_, fun id => State.ov_congr hobj id, hans, hframe⟩
  · rw [State.area_congr hobj, State.area_discardArea (State.twf_area (hwf hw)), if_pos rfl]
    rfl
  · rw [show t.obj = _ from hobj, State.staged_discardArea, if_pos hid]

end

end Sys2Proof.Machine
end


-- ==== Sys2Proof/Proofs/StagedCommit.lean ====
section
/-!
PROOF. An APPLY that finds nothing wrong puts every staged value of its area in force at once (R416, R422).
-/

namespace Sys2Proof.Machine

/-! Values put in force together. -/

/-- Staged values put into the values in force. -/
def putAll (vals : Tbl Nat) (ps : List (Nat × Nat)) : Tbl Nat := ps.foldl (fun t p => tset (objDefault p.1) t p.1 p.2) vals

theorem tget_putAll_of_none {ps : List (Nat × Nat)} {id : Nat} (h : ∀ p ∈ ps, p.1 ≠ id) (vals : Tbl Nat) :
    tget (objDefault id) (putAll vals ps) id = tget (objDefault id) vals id := by
  induction ps generalizing vals with
  | nil => rfl
  | cons p ps ih =>
    have hp : p.1 ≠ id := h p (List.mem_cons_self ..)
    exact (ih (fun q hq => h q (List.mem_cons_of_mem _ hq)) _).trans (tget_tset_ne_default _ _ _ _ hp)

theorem tget_putAll {ps : List (Nat × Nat)} {id v : Nat} (h : ps.filter (fun p => p.1 == id) = [(id, v)]) {vals : Tbl Nat}
    (hv : keysFrom none vals = true) : tget (objDefault id) (putAll vals ps) id = v := by
  induction ps generalizing vals with
  | nil => cases h
  | cons p ps ih =>
    rw [List.filter_cons] at h
    by_cases hp : p.1 = id
    · rw [if_pos (by simpa using hp), List.cons.injEq] at h
      obtain ⟨hpv, hrest⟩ := h
      rw [List.filter_eq_nil_iff] at hrest
      refine (tget_putAll_of_none (ps := ps) (fun q hq he => hrest q hq (by simpa using he)) _).trans ?_
      rw [hpv, tget_tset hv, if_pos rfl]
    · rw [if_neg (by simpa using hp)] at h
      exact ih h (keysFrom_tset _ _ _ hv)

/-- What every step of a fold over a list leaves as it is. -/
theorem foldl_keeps_mem {σ α β : Type} {g : σ → β} {f : σ → α → σ} {xs : List α} (hf : ∀ s, ∀ x ∈ xs, g (f s x) = g s) (s : σ) :
    g (xs.foldl f s) = g s := by
  induction xs generalizing s with
  | nil => rfl
  | cons x xs ih =>
    exact (ih (fun t y hy => hf t y (List.mem_cons_of_mem _ hy)) _).trans (hf s x (List.mem_cons_self ..))

/-! What the effects of a commit leave of the object dictionary. -/

/-- The value in force of an object, the staged values and the areas' commit states. -/
def Objects.pick (o : Objects) (id : Nat) : Nat × Tbl Nat × Tbl AreaSt := (tget (objDefault id) o.vals id, o.staged, o.area)

theorem State.pick_modOv (s : State) {j id : Nat} (h : j ≠ id) (f : Nat → Nat) : (s.modOv j f).obj.pick id = s.obj.pick id := by
  have hget : tget (objDefault id) (tset (objDefault j) s.obj.vals j (f (s.ov j))) id = tget (objDefault id) s.obj.vals id :=
    tget_tset_ne_default _ _ _ _ h
  exact congrArg (fun v => (v, s.obj.staged, s.obj.area)) hget

/-- An object whose WRITE is staged (R416). -/
def isStaged (id : Nat) : Bool := (objRow id).any (fun row => row.staged)

theorem ne_of_isStaged {j id : Nat} (h : isStaged id = true) (hj : isStaged j = false) : j ≠ id := by
  rintro rfl
  exact Bool.noConfusion (hj.symm.trans h)

section
variable {id : Nat} (hid : isStaged id = true)
include hid

theorem State.pick_uncovered (s : State) (code unit : Nat) (ctxs : List Nat) :
    (s.uncovered code unit ctxs).obj.pick id = s.obj.pick id := by
  have hlatch (t : State) : (ctxs.foldl (fun s c => s.latch c 2) t).obj = t.obj := (State.latchAll_runs t ctxs 2).same .obj rfl
  have hrec (t : State) (n : Nat) : (t.faultRec n code unit 0xFFFFFFFF).obj = t.obj := (State.faultRec_runs ..).same .obj rfl
  rw [State.uncovered, hlatch, State.pick_modOv _ (ne_of_isStaged hid (by decide +kernel)), hrec]

theorem State.pick_linkDrop (s : State) {l : Nat} (hl : l < 6) (p : Packet) : (s.linkDrop l p).obj.pick id = s.obj.pick id := by
  have hnotice (t : State) : (t.notice388 0x14 p).obj = t.obj := (State.notice388_runs ..).same .obj rfl
  have hcount : isStaged (linkDropCountId + l) = false := (by decide +kernel : ∀ l < 6, isStaged (linkDropCountId + l) = false) l hl
  rw [State.linkDrop, hnotice]
  exact State.pick_modOv _ (ne_of_isStaged hid hcount) _

theorem State.pick_linkFall (s : State) {l : Nat} (hl : l < 6) : (s.linkFall l).obj.pick id = s.obj.pick id := by
  unfold State.linkFall
  dsimp only
  split
  · rfl
  · rw [foldl_keeps (g := fun t : State => t.obj.pick id) (f := fun t (o : OutPkt) => t.linkDrop l o.pkt)
      fun t o => State.pick_linkDrop hid t hl o.pkt]
    have hinject : ((wholePackets (s.link l).rx (s.link l).rx.length).foldl (fun s p => s.inject l p)
        (s.setLink l (s.link l).fall)).obj = s.obj :=
      (Runs.foldl (L := [.links, .router]) (fun t p => (State.inject_runs t l p).mono rfl) _
        ((State.setLink_runs ..).mono rfl)).same .obj rfl
    split
    · rw [State.pick_uncovered hid, hinject]
    · rw [hinject]

theorem State.pick_linkAgain (s : State) {l : Nat} (hl : l < 6) : (s.linkAgain l).obj.pick id = s.obj.pick id := by
  unfold State.linkAgain
  split
  · rfl
  · split
    · rfl
    · exact State.pick_linkFall hid s hl

theorem State.pick_applied4 (s o : State) : (s.applied4 o).obj.pick id = s.obj.pick id := by
  have hfold (moved : Bool) : (allLinks.foldl (fun s l => if moved || o.differs (linkWidthId + l) then s.linkAgain l else s)
      s).obj.pick id = s.obj.pick id :=
    foldl_keeps_mem (g := fun t : State => t.obj.pick id) (fun t l hl => by
      split
      · exact State.pick_linkAgain hid t (List.mem_range.mp hl)
      · rfl) s
  unfold State.applied4
  dsimp only
  split
  · have hfresh (t : State) : t.ftFresh.obj = t.obj := (State.ftFresh_runs t).same .obj rfl
    rw [hfresh, hfold]
  · exact hfold _

theorem State.pick_applied15 (s o : State) : (s.applied o 15).obj.pick id = s.obj.pick id :=
  foldl_keeps_mem (g := fun t : State => t.obj.pick id) (fun t l hl => by
    split
    · exact State.pick_linkAgain hid t (List.mem_range.mp hl)
    · rfl) s

omit hid in
theorem State.pick_applied8 (s o : State) : (s.applied8 o).obj.pick id = s.obj.pick id := by
  have hlevels : ((o.stagedOf 8).foldl (fun s p =>
      if gfCfgId ≤ p.1 ∧ p.1 < gfCfgId + 4096 ∧ o.differs p.1 then
        let l := p.1 - gfCfgId
        let level := if bits p.2 0 2 = 0 then bits p.2 2 2 else bits p.2 0 2 - 1
        s.setGf l { s.gf l with pending := (level, 0) :: (s.gf l).pending.filter (fun q => q.2 != 0) }
      else s) s).obj.pick id = s.obj.pick id :=
    foldl_keeps (g := fun t : State => t.obj.pick id) (fun t p => by split <;> rfl) _ s
  unfold State.applied8
  refine (foldl_keeps (g := fun t : State => t.obj.pick id) (fun t c => ?_) _ _).trans hlevels
  split
  · split
    · rfl
    · exact congrArg (fun o : Objects => o.pick id) ((State.applyLayout_runs ..).same .obj rfl)
  · rfl

/-- The areas whose commit does no more than put values in force, and has effects on links, stores, queues and layouts. -/
theorem State.pick_applied (s o : State) {a : Nat} (ha : a ≠ 11) : (s.applied o a).obj.pick id = s.obj.pick id := by
  unfold State.applied
  split
  · exact State.pick_applied4 hid s o
  · exact congrArg (fun o : Objects => o.pick id) ((State.applied5_runs s o).same .obj rfl)
  · exact congrArg (fun o : Objects => o.pick id) ((State.applied6_runs s o).same .obj rfl)
  · exact State.pick_applied8 s o
  · exact absurd rfl ha
  · split
    · exact congrArg (fun o : Objects => o.pick id) ((State.ftFresh_runs s).same .obj rfl)
    · rfl
  · exact congrArg (fun o : Objects => o.pick id) ((State.appliedE_runs s o).same .obj rfl)
  · exact State.pick_applied15 hid s o
  · rfl

end

/-! What the effects of a commit add to the journal's queue. -/

/-- Journal writes join the queue behind those that wait. -/
def State.Queues (s t : State) : Prop := ∃ qs, t.flash.queue = s.flash.queue ++ qs

theorem State.Queues.refl (s : State) : s.Queues s := ⟨[], (List.append_nil _).symm⟩

theorem State.Queues.trans {s t u : State} (h : s.Queues t) (k : t.Queues u) : s.Queues u := by
  obtain ⟨ps, hp⟩ := h
  obtain ⟨qs, hq⟩ := k
  exact ⟨ps ++ qs, by rw [hq, hp, List.append_assoc]⟩

theorem State.Queues.of_flash {s t : State} (h : t.flash = s.flash) : s.Queues t := ⟨[], by rw [h, List.append_nil]⟩

theorem State.Queues.foldl {α : Type} {f : State → α → State} (hf : ∀ (t : State) (x : α), t.Queues (f t x)) (xs : List α) (s : State) :
    s.Queues (xs.foldl f s) := by
  induction xs generalizing s with
  | nil => exact .refl s
  | cons x xs ih => exact (hf s x).trans (ih _)

theorem State.queues_journal (s : State) (r : JRec) : s.Queues (s.journal r) := by
  unfold State.journal
  split
  · exact .refl s
  · dsimp only
    split
    · exact ⟨[r], State.journalBegin_queue _⟩
    · exact ⟨[r], rfl⟩

theorem State.queues_uncovered (s : State) (code unit : Nat) (ctxs : List Nat) : s.Queues (s.uncovered code unit ctxs) := by
  have hrec : s.Queues (s.faultRec (s.ftRead mgmtPs) code unit 0xFFFFFFFF) := by
    unfold State.faultRec
    dsimp only
    split
    · exact State.queues_journal s _
    · exact .refl s
  exact hrec.trans (.of_flash (((State.latchAll_runs _ ctxs 2).same .flash rfl)))

theorem State.queues_linkDrop (s : State) (l : Nat) (p : Packet) : s.Queues (s.linkDrop l p) := by
  unfold State.linkDrop State.notice388
  dsimp only
  split
  · exact .refl s
  · obtain ⟨u, hu⟩ : ∃ u, u = (s.bump (linkDropCountId + l)).setFlash { (s.bump (linkDropCountId + l)).flash with
        notices := (s.bump (linkDropCountId + l)).flash.notices.filter
          (fun n => decide ((s.bump (linkDropCountId + l)).clk < n.2.2 + 1000000)) ++
            [(p.src, p.ctx, (s.bump (linkDropCountId + l)).clk)] } := ⟨_, rfl⟩
    have hq : s.Queues u := ⟨[], by rw [hu, List.append_nil]; rfl⟩
    rw [← hu]
    exact hq.trans (.of_flash ((State.send_runs ..).same .flash rfl))

theorem State.queues_linkFall (s : State) (l : Nat) : s.Queues (s.linkFall l) := by
  unfold State.linkFall
  dsimp only
  split
  · exact .refl s
  · refine State.Queues.trans ?_ (.foldl (fun t o => State.queues_linkDrop t l _) _ _)
    have hinject : s.Queues ((wholePackets (s.link l).rx (s.link l).rx.length).foldl (fun s p => s.inject l p)
        (s.setLink l (s.link l).fall)) :=
      .of_flash ((Runs.foldl (L := [.links, .router]) (fun t p => (State.inject_runs t l p).mono rfl) _
        ((State.setLink_runs ..).mono rfl)).same .flash rfl)
    split
    · exact hinject.trans (State.queues_uncovered ..)
    · exact hinject

theorem State.queues_linkAgain (s : State) (l : Nat) : s.Queues (s.linkAgain l) := by
  unfold State.linkAgain
  split
  · exact .refl s
  · split
    · exact .refl s
    · exact State.queues_linkFall s l

theorem State.queues_applied (s o : State) (a : Nat) : s.Queues (s.applied o a) := by
  have hagain (c : Nat → Bool) : s.Queues (allLinks.foldl (fun s l => if c l then s.linkAgain l else s) s) :=
    .foldl (f := fun s l => if c l then s.linkAgain l else s) (fun t l => by
      split
      · exact State.queues_linkAgain t l
      · exact .refl t) _ _
  unfold State.applied
  split
  · unfold State.applied4
    dsimp only
    split
    · exact (hagain _).trans (.of_flash ((State.ftFresh_runs _).same .flash rfl))
    · exact hagain _
  · exact .of_flash ((State.applied5_runs s o).same .flash rfl)
  · exact .of_flash ((State.applied6_runs s o).same .flash rfl)
  · exact .of_flash ((State.applied8_runs s o).same .flash rfl)
  · exact .of_flash ((State.appliedB_runs s o).same .flash rfl)
  · split
    · exact .of_flash ((State.ftFresh_runs _).same .flash rfl)
    · exact .refl s
  · exact .of_flash ((State.appliedE_runs s o).same .flash rfl)
  · exact hagain _
  · exact .refl s

theorem State.queue_journalAll {rs : List JRec} (h : ∀ r ∈ rs, r.isFault = false) (s : State) :
    (s.journalAll rs).flash.queue = s.flash.queue ++ rs := by
  induction rs generalizing s with
  | nil => exact (List.append_nil _).symm
  | cons r rs ih =>
    refine (ih (fun q hq => h q (List.mem_cons_of_mem _ hq)) (s.journal r)).trans ?_
    rw [State.queue_journal (h r (List.mem_cons_self ..)), List.append_assoc, List.singleton_append]

/-! An accepted APPLY of an area. -/

/-- The object dictionary with an area's staged set in force. -/
def Objects.switched (o : Objects) (a : Nat) : Objects := (o.commit a).unstage a

/-- An area's commit state after an accepted APPLY (R416). -/
def AreaSt.counted (x : AreaSt) : AreaSt := { x with pending := false, commits := satAdd 16 x.commits 1, lastStatus := 0 }

/-- An accepted APPLY: the values in force, the commit counted, and the persistent values that it changes queued. -/
def State.commits (s : State) (a : Nat) : State := ((s.commitArea a).countCommit a).journalAll (s.persistNeeds a)

section
variable {s : State} {a : Nat}

theorem State.newGeneration_of_other (h2 : a ≠ 2) (h9 : a ≠ 9) : s.newGeneration a = s := by
  rw [State.newGeneration, if_neg h2, if_neg (by omega)]

theorem State.commitArea_of_other (h2 : a ≠ 2) (h9 : a ≠ 9) :
    s.commitArea a = (s.setObj (s.obj.switched a)).applied s a := State.newGeneration_of_other h2 h9

theorem State.applied_runs_of_ne (t o : State) (h5 : a ≠ 5) :
    Runs [.ft, .cores, .links, .router, .host, .steps, .red, .obj, .flash] t (t.applied o a) := by
  have hagain (c : Nat → Bool) (t : State) : Runs [.links, .router, .steps, .obj, .flash] t
      (allLinks.foldl (fun s l => if c l then s.linkAgain l else s) t) :=
    .foldl (fun t l => .ite (fun _ => State.linkAgain_runs t l) fun _ => .refl t) _ (.refl t)
  unfold State.applied
  split
  · exact (State.applied4_runs t o).mono rfl
  · exact absurd rfl h5
  · exact (State.applied6_runs t o).mono rfl
  · exact (State.applied8_runs t o).mono rfl
  · exact (State.appliedB_runs t o).mono rfl
  · exact .ite (fun _ => (State.ftFresh_runs t).mono rfl) fun _ => .refl t
  · exact (State.appliedE_runs t o).mono rfl
  · exact (hagain _ t).mono rfl
  · exact .refl t

theorem State.persistNeeds_not_fault : ∀ r ∈ s.persistNeeds a, r.isFault = false := by
  intro r hr
  obtain ⟨p, -, rfl⟩ := List.mem_map.mp hr
  rfl

theorem Objects.wf_switched {o : Objects} (h : o.wf = true) (a : Nat) : (o.switched a).wf = true := by
  obtain ⟨hvals, harea, hgf⟩ := (Objects.wf_iff _).mp h
  have hput (ps : List (Nat × Nat)) : ∀ vals, keysFrom none vals = true → keysFrom none (putAll vals ps) = true := by
    induction ps with
    | nil => exact fun _ h => h
    | cons p ps ih => exact fun vals hv => ih _ (keysFrom_tset _ _ _ hv)
  exact (Objects.wf_iff _).mpr ⟨hput _ _ hvals, harea, hgf⟩

theorem State.commits_runs (h2 : a ≠ 2) (h5 : a ≠ 5) (h9 : a ≠ 9) :
    Runs [.ft, .cores, .links, .router, .host, .steps, .red, .obj, .flash] s (s.commits a) := by
  have hset : Runs [.obj] s (s.setObj (s.obj.switched a)) := State.setObj_runs s _ fun h => Objects.wf_switched h a
  refine .comp (State.journalAll_runs ..) rfl (.comp (State.countCommit_runs ..) rfl ?_)
  rw [State.commitArea_of_other h2 h9]
  exact (hset.mono rfl).trans (State.applied_runs_of_ne _ s h5)

theorem State.obj_commits : (s.commits a).obj = ((s.commitArea a).countCommit a).obj := (State.journalAll_runs ..).same .obj rfl

/-- What an accepted APPLY leaves in the object dictionary. -/
theorem State.pick_commitArea {id : Nat} (hid : isStaged id = true) (h2 : a ≠ 2) (h9 : a ≠ 9) (h11 : a ≠ 11) :
    (s.commitArea a).obj.pick id = (s.obj.switched a).pick id := by
  rw [State.commitArea_of_other h2 h9, State.pick_applied hid _ _ h11]
  rfl

theorem State.ov_commits {id v : Nat} (hw : s.wf = true) (hid : isStaged id = true) (h2 : a ≠ 2) (h9 : a ≠ 9) (h11 : a ≠ 11)
    (ha : id / 65536 = a) (hv : s.obj.staged.filter (fun p => p.1 == id) = [(id, v)]) : (s.commits a).ov id = v := by
  have hpick : (s.commits a).ov id = tget (objDefault id) (putAll s.obj.vals (s.obj.staged.filter (fun p => p.1 / 65536 == a))) id :=
    (State.ov_congr State.obj_commits id).trans (congrArg Prod.fst (State.pick_commitArea hid h2 h9 h11))
  rw [hpick]
  refine tget_putAll ?_ (State.keysFrom_vals hw)
  rw [List.filter_filter, ← hv]
  refine List.filter_congr fun p _ => ?_
  cases hp : p.1 == id with
  | false => rfl
  | true => simp [beq_iff_eq.mp hp, ha]

theorem State.staged_commits {id : Nat} (hid : isStaged id = true) (h2 : a ≠ 2) (h9 : a ≠ 9) (h11 : a ≠ 11) (ha : id / 65536 = a) :
    tget? (s.commits a).obj.staged id = none := by
  have hpick : (s.commits a).obj.staged = s.obj.staged.filter (fun p => p.1 / 65536 != a) :=
    (congrArg Objects.staged State.obj_commits).trans
      (congrArg (fun q : Nat × Tbl Nat × Tbl AreaSt => q.2.1) (State.pick_commitArea hid h2 h9 h11))
  rw [hpick, tget?_filter_key (fun k => k / 65536 != a), if_neg (by simp [ha])]

theorem State.area_commits (hw : s.wf = true) {id : Nat} (hid : isStaged id = true) (h2 : a ≠ 2) (h5 : a ≠ 5) (h9 : a ≠ 9)
    (h11 : a ≠ 11) : (s.commits a).area a = (s.area a).counted := by
  have hset : Runs [.obj] s (s.setObj (s.obj.switched a)) := State.setObj_runs s _ fun h => Objects.wf_switched h a
  have hwf : (s.commitArea a).wf = true := by
    rw [State.commitArea_of_other h2 h9]
    exact (State.applied_runs_of_ne _ s h5).wf (hset.wf hw)
  have harea : (s.commitArea a).area a = s.area a :=
    congrArg (fun q : Nat × Tbl Nat × Tbl AreaSt => tget AreaSt.init q.2.2 a) (State.pick_commitArea hid h2 h9 h11)
  rw [State.area_congr State.obj_commits, State.countCommit, State.area_setArea (State.twf_area hwf), if_pos rfl, harea]
  rfl

theorem State.queue_commits (h2 : a ≠ 2) (h9 : a ≠ 9) :
    ∃ qs, (s.commits a).flash.queue = s.flash.queue ++ qs ++ s.persistNeeds a := by
  obtain ⟨qs, hqs⟩ := State.queues_applied (s.setObj (s.obj.switched a)) s a
  have hcount : ((s.commitArea a).countCommit a).flash = (s.commitArea a).flash := (State.countCommit_runs ..).same .flash rfl
  refine ⟨qs, ?_⟩
  rw [State.commits, State.queue_journalAll State.persistNeeds_not_fault, hcount, State.commitArea_of_other h2 h9, hqs]
  rfl

theorem State.applyArea_accepted (hp : (s.area a).pending = true) (hf : s.areaFaults a = []) (h2 : a ≠ 2) (h5 : a ≠ 5) (h9 : a ≠ 9) :
    s.applyArea a = if s.persistNeeds a = [] then ((s.commits a).event 3 a, .applied)
      else ((s.commits a).event 3 a, .waits 0 0 (s.persistNeeds a) true) := by
  rw [State.applyArea]
  dsimp only
  rw [if_neg (by simp [hp]), hf]
  dsimp only
  rw [if_neg (by omega), if_neg (fun e => h5 e.1)]
  rfl

end

/-- A caddy with one more request that waits to be answered. -/
def Caddy.deferring (c : Caddy) (d : Deferred) : Caddy := { c with deferred := c.deferred ++ [d] }

section
variable {s : State} {r : Req} {x : Session} {a : Nat}

theorem State.deferred_taking {m : MOp} (h : s.Obeys r m x) : (s.taking r x).caddy.deferred = [] := by
  obtain ⟨c, hc, hbeyond⟩ := State.taking_eq s r x
  rw [hc]
  exact (congrArg Caddy.deferred hbeyond : c.beyond.deferred = s.caddy.beyond.deferred).trans h.1.1.2.2.2.2.2.1

/-- O25's clause for an APPLY that finds nothing wrong. -/
theorem exec_apply_commits {id v : Nat} {row : ObjRow} (hw : s.wf = true) (ha : a < 16) (h2 : a ≠ 2) (h5 : a ≠ 5) (h9 : a ≠ 9)
    (h11 : a ≠ 11) (h : s.Obeys r (writeOf (a * 65536 + 1) 16 1) x) (hp : (s.area a).pending = true)
    (hf : (s.taking r x).areaFaults a = []) (hida : id / 65536 = a) (hrow : objRow id = some row) (hst : row.staged = true)
    (hv : s.obj.staged.filter (fun p => p.1 == id) = [(id, v)]) :
    ∃ t, exec (.apply r a) s = .next t ∧ t.ov id = v ∧ tget? t.obj.staged id = none ∧ (t.area a).pending = false ∧
      (t.area a).commits = min ((s.area a).commits + 1) 65535 ∧ (t.area a).lastStatus = 0 ∧
      ((s.taking r x).persistNeeds a = [] → t.Answers r (writeOf (a * 65536 + 1) 16 1) 0 []) ∧
      ((s.taking r x).persistNeeds a ≠ [] → ∃ d, t.caddy.deferred = [d] ∧ d.req = r ∧ d.area = a ∧ d.worked = true ∧
        d.needs = (s.taking r x).persistNeeds a ∧ ∃ qs, t.flash.queue = s.flash.queue ++ qs ++ d.needs) ∧
      Frame [.ft, .cores, .links, .router, .caddy, .host, .steps, .red, .obj, .flash, .out] s t := by
  have htaking := State.taking_runs s r x
  have hdef := State.deferred_taking h
  obtain ⟨u, hu⟩ : ∃ u, u = s.taking r x := ⟨_, rfl⟩
  rw [← hu] at htaking hdef hf ⊢
  have hobj : u.obj = s.obj := htaking.same .obj rfl
  have hid : isStaged id = true := by rw [isStaged, hrow]; exact hst
  have hwu := htaking.wf hw
  have hcommits := State.commits_runs (s := u) h2 h5 h9
  obtain ⟨n, hn⟩ : ∃ n, n = (u.commits a).event 3 a := ⟨_, rfl⟩
  have hevent : Runs [.router, .host, .out] (u.commits a) n := hn ▸ State.event_runs ..
  have hfull : Runs [.ft, .cores, .links, .router, .caddy, .host, .steps, .red, .obj, .flash, .out] s n :=
    .comp hevent rfl (.comp hcommits rfl (htaking.mono rfl))
  have hneed : exec (.apply r a) s = asked r (writeOf (a * 65536 + 1) 16 1) s := need_of (decide_eq_true ha) _
  have hpu : (u.area a).pending = true := by rw [State.area_congr hobj]; exact hp
  have hanswer : u.perform r (writeOf (a * 65536 + 1) 16 1) = u.applyAnswer r a (if u.persistNeeds a = [] then (n, .applied)
      else (n, .waits 0 0 (u.persistNeeds a) true)) := by
    rw [State.perform_apply ha, State.applyArea_accepted hpu hf h2 h5 h9, hn]
  -- What holds of any state that has the dictionary of `n`.
  have hdict (t : State) (ht : t.obj = n.obj) : t.ov id = v ∧ tget? t.obj.staged id = none ∧ (t.area a).pending = false ∧
      (t.area a).commits = min ((s.area a).commits + 1) 65535 ∧ (t.area a).lastStatus = 0 := by
    have hto : t.obj = (u.commits a).obj := ht.trans (hevent.same .obj rfl)
    have harea : t.area a = (s.area a).counted := by
      rw [State.area_congr hto, State.area_commits hwu hid h2 h5 h9 h11, State.area_congr hobj]
    refine ⟨?_, ?_, ?_, ?_, ?_⟩
    · rw [State.ov_congr hto]
      exact State.ov_commits hwu hid h2 h9 h11 hida (hobj ▸ hv)
    · rw [hto]
      exact State.staged_commits hid h2 h9 h11 hida
    all_goals rw [harea]; rfl
  by_cases hneeds : u.persistNeeds a = []
  · rw [if_pos hneeds] at hanswer
    have hreplies := State.replies_runs n r (writeOf (a * 65536 + 1) 16 1) 0 []
    obtain ⟨h1, h3, h4, h6, h7⟩ := hdict _ (hreplies.same .obj rfl)
    exact ⟨_, hneed.trans ((State.operates_of_obeys h rfl).accepted (hu ▸ hanswer)), h1, h3, h4, h6, h7,
      fun _ => State.answers_replies .., fun hne => absurd hneeds hne, (Runs.comp hreplies rfl hfull).frame⟩
  · rw [if_neg hneeds] at hanswer
    obtain ⟨d, hd⟩ : ∃ d : Deferred, d = ⟨r, a, 0, u.ftRead mgmtPs, u.clk, 0, none, u.persistNeeds a, true⟩ := ⟨_, rfl⟩
    have hset : Runs [.caddy] n (n.setCaddy (n.caddy.deferring d)) := State.setCaddy_runs _ _ fun h => h
    obtain ⟨h1, h3, h4, h6, h7⟩ := hdict (n.setCaddy (n.caddy.deferring d)) rfl
    have hlater : u.perform r (writeOf (a * 65536 + 1) 16 1) = (n.setCaddy (n.caddy.deferring d), .later) := by
      rw [hanswer, hd]
      rfl
    refine ⟨_, hneed.trans ((State.operates_of_obeys h rfl).later (hu ▸ hlater)), h1, h3, h4, h6, h7,
      fun he => absurd he hneeds, fun _ => ⟨d, ?_, by rw [hd], by rw [hd], by rw [hd], by rw [hd], ?_⟩,
      (Runs.comp hset rfl hfull).frame⟩
    · have hcaddy : n.caddy = u.caddy := by
        rw [show n.caddy = (u.commits a).caddy from hevent.same .caddy rfl]
        exact hcommits.same .caddy rfl
      change n.caddy.deferred ++ [d] = [d]
      rw [hcaddy, hdef]
      rfl
    · obtain ⟨qs, hqs⟩ := State.queue_commits (s := u) h2 h9
      have hflash : n.flash = (u.commits a).flash := hevent.same .flash rfl
      have huflash : u.flash = s.flash := htaking.same .flash rfl
      exact ⟨qs, by rw [show (n.setCaddy (n.caddy.deferring d)).flash = (u.commits a).flash from hflash, hqs, huflash, hd]⟩

end

end Sys2Proof.Machine
end


-- ==== Sys2Proof/Proofs/StagedProtection.lean ====
section
/-!
PROOF. The APPLY of a protection area and its drain (R422 to R424), the retirement of granules (R307), and the replies that wait for
the journal (R416).
-/

namespace Sys2Proof.Machine

/-! The APPLY of a protection area. -/

section
variable {s : State} {r : Req} {x : Session} {a : Nat}

theorem ne_of_tget?_none {α : Type} {t : Tbl α} {i : Nat} (h : tget? t i = none) : ∀ p ∈ t, p.1 ≠ i := by
  induction t with
  | nil => exact nofun
  | cons q t ih =>
    obtain ⟨k, v⟩ := q
    rw [tget?] at h
    split at h
    · cases h
    · next hk =>
      intro p hp
      obtain rfl | hp := List.mem_cons.mp hp
      · exact hk
      · exact ih h p hp

theorem State.applied_of_protection (t o : State) (ha : a = 2 ∨ a = 9) : t.applied o a = t := by
  obtain rfl | rfl := ha <;> rfl

/-- A generation begins, and the lookaside cache forgets what it noted of the last (R422, R333). -/
def State.nextLook (s : State) (a : Nat) : State := if a = 2 then s.setFab { s.fab with look := [] } else s

theorem State.nextLook_runs (s : State) (a : Nat) : Runs [.fab] s (s.nextLook a) :=
  .ite (fun _ => State.setFab_runs s _) fun _ => .refl s

theorem State.newGeneration_eq (s : State) (ha : a = 2 ∨ a = 9) :
    s.newGeneration a = (s.nextLook a).modOv (genId a) (fun v => (v + 1) % 2 ^ 32) := by
  rw [State.newGeneration, if_pos ha]
  rfl

theorem State.commitArea_of_protection (ha : a = 2 ∨ a = 9) : s.commitArea a =
    ((s.setObj (s.obj.switched a)).nextLook a).modOv (genId a) (fun v => (v + 1) % 2 ^ 32) := by
  rw [← State.newGeneration_eq _ ha, ← State.applied_of_protection (s.setObj (s.obj.switched a)) s ha]
  rfl

theorem State.applyArea_of_protection (hp : (s.area a).pending = true) (hf : s.areaFaults a = []) (ha : a = 2 ∨ a = 9) :
    s.applyArea a = (s.commits a, .waits ((s.commits a).ov (genId a)) (s.protChanged a) (s.persistNeeds a) false) := by
  rw [State.applyArea]
  dsimp only
  rw [if_neg (by simp [hp]), hf]
  dsimp only
  rw [if_pos ha]
  rfl

theorem State.commits_runs_of_protection (ha : a = 2 ∨ a = 9) : Runs [.obj, .fab, .flash] s (s.commits a) := by
  have hset : Runs [.obj] s (s.setObj (s.obj.switched a)) := State.setObj_runs s _ fun h => Objects.wf_switched h a
  refine .comp (State.journalAll_runs ..) rfl (.comp (State.countCommit_runs ..) rfl ?_)
  rw [State.commitArea_of_protection ha]
  exact .comp (State.modOv_runs ..) rfl (.comp (State.nextLook_runs ..) rfl (hset.mono rfl))

theorem State.ov_commits_generation (hw : s.wf = true) (ha : a = 2 ∨ a = 9) (hg : tget? s.obj.staged (genId a) = none) :
    (s.commits a).ov (genId a) = (s.ov (genId a) + 1) % 2 ^ 32 := by
  have hset : Runs [.obj] s (s.setObj (s.obj.switched a)) := State.setObj_runs s _ fun h => Objects.wf_switched h a
  have hlook := State.nextLook_runs (s.setObj (s.obj.switched a)) a
  have hvals := State.keysFrom_vals (hlook.wf (hset.wf hw))
  have hov : ((s.setObj (s.obj.switched a)).nextLook a).ov (genId a) = s.ov (genId a) := by
    rw [State.ov_congr (hlook.same .obj rfl)]
    refine tget_putAll_of_none (ps := s.obj.staged.filter (fun p => p.1 / 65536 == a)) (fun p hp => ?_) _
    exact ne_of_tget?_none hg p (List.mem_of_mem_filter hp)
  have hcount : ((s.commitArea a).countCommit a).ov (genId a) = (s.commitArea a).ov (genId a) := rfl
  rw [State.ov_congr State.obj_commits, hcount, State.commitArea_of_protection ha, State.ov_modOv hvals, if_pos rfl, hov]

theorem State.tables_commits (ha : a = 2 ∨ a = 9) : (a = 2 → (s.commits a).obj.region = merge s.obj.region s.obj.regionS) ∧
    (a = 9 → (s.commits a).obj.syncMap = merge s.obj.syncMap s.obj.syncMapS) := by
  have hlook : ((s.setObj (s.obj.switched a)).nextLook a).obj = s.obj.switched a :=
    (State.nextLook_runs (s.setObj (s.obj.switched a)) a).same .obj rfl
  obtain ⟨u, hu⟩ : ∃ u, u = (s.setObj (s.obj.switched a)).nextLook a := ⟨_, rfl⟩
  rw [← hu] at hlook
  have hobj : (s.commits a).obj = ((u.modOv (genId a) (fun v => (v + 1) % 2 ^ 32)).countCommit a).obj := by
    rw [State.obj_commits, State.commitArea_of_protection ha, ← hu]
  have hregion : (s.commits a).obj.region = (s.obj.switched a).region := by
    rw [hobj, ← hlook]
    rfl
  have hsync : (s.commits a).obj.syncMap = (s.obj.switched a).syncMap := by
    rw [hobj, ← hlook]
    rfl
  exact ⟨fun h2 => hregion.trans (if_pos h2), fun h9 => hsync.trans (if_pos h9)⟩

/-- O25's clause for the APPLY of a protection area. -/
theorem exec_apply_protects (hw : s.wf = true) (ha : a = 2 ∨ a = 9) (h : s.Obeys r (writeOf (a * 65536 + 1) 16 1) x)
    (hp : (s.area a).pending = true) (hf : (s.taking r x).areaFaults a = []) (hg : tget? s.obj.staged (genId a) = none) :
    ∃ t d, exec (.apply r a) s = .next t ∧ t.caddy.deferred = [d] ∧ d.req = r ∧ d.area = a ∧
      t.ov (genId a) = (s.ov (genId a) + 1) % 2 ^ 32 ∧ (a = 2 → t.obj.region = merge s.obj.region s.obj.regionS) ∧
      (a = 9 → t.obj.syncMap = merge s.obj.syncMap s.obj.syncMapS) ∧ t.out = s.out ∧
      d.worked = false ∧ Frame [.caddy, .obj, .fab, .flash] s t := by
  have ha16 : a < 16 := by omega
  have htaking := State.taking_runs s r x
  have hdef := State.deferred_taking h
  obtain ⟨u, hu⟩ : ∃ u, u = s.taking r x := ⟨_, rfl⟩
  rw [← hu] at htaking hdef hf
  have hobj : u.obj = s.obj := htaking.same .obj rfl
  have hpu : (u.area a).pending = true := by rw [State.area_congr hobj]; exact hp
  have hcommits := State.commits_runs_of_protection (s := u) ha
  obtain ⟨d, hd⟩ : ∃ d : Deferred, d = ⟨r, a, (u.commits a).ov (genId a), u.ftRead mgmtPs, u.clk, u.protChanged a, none,
    u.persistNeeds a, false⟩ := ⟨_, rfl⟩
  obtain ⟨n, hn⟩ : ∃ n, n = u.commits a := ⟨_, rfl⟩
  have hlater : u.perform r (writeOf (a * 65536 + 1) 16 1) = (n.setCaddy (n.caddy.deferring d), .later) := by
    rw [State.perform_apply ha16, State.applyArea_of_protection hpu hf ha, hd, hn]
    rfl
  have hset : Runs [.caddy] n (n.setCaddy (n.caddy.deferring d)) := State.setCaddy_runs _ _ fun h => h
  have hframe : Runs [.caddy, .obj, .fab, .flash] s (n.setCaddy (n.caddy.deferring d)) :=
    .comp hset rfl (.comp (hn ▸ hcommits) rfl (htaking.mono rfl))
  obtain ⟨h2, h9⟩ := State.tables_commits (s := u) ha
  refine ⟨_, d, (need_of (decide_eq_true ha16) _).trans ((State.operates_of_obeys h rfl).later (hu ▸ hlater)), ?_, by rw [hd],
    by rw [hd], ?_, fun he => ?_, fun he => ?_, hframe.same .out rfl, by rw [hd], hframe.frame⟩
  · have hcaddy : n.caddy = u.caddy := by rw [hn]; exact hcommits.same .caddy rfl
    change n.caddy.deferred ++ [d] = [d]
    rw [hcaddy, hdef]
    rfl
  · have hov : (n.setCaddy (n.caddy.deferring d)).ov (genId a) = n.ov (genId a) := rfl
    rw [hov, hn, State.ov_commits_generation (htaking.wf hw) ha (hobj ▸ hg), State.ov_congr hobj]
  · exact (congrArg (fun k : State => k.obj.region) hn).trans ((h2 he).trans (by rw [hobj]))
  · exact (congrArg (fun k : State => k.obj.syncMap) hn).trans ((h9 he).trans (by rw [hobj]))

end

/-! The reply of a request that waited. -/

/-- A caddy whose first waiting request is about to be answered. -/
def Caddy.popped (c : Caddy) : Caddy := { c with deferred := c.deferred.drop 1 }

/-- The requests that wait, for an answer and for their turn. -/
def Caddy.waits (c : Caddy) : List Deferred × List (Nat × Req × MOp) := (c.deferred, c.queue)

section
variable {s : State}

theorem State.waits_leaseEnds : s.leaseEnds.caddy.waits = s.caddy.waits := by
  unfold State.leaseEnds
  split
  · split
    · have hevent : (s.ownerGone.event 2 0).caddy = s.ownerGone.caddy := (State.event_runs _ _ _).same .caddy rfl
      rw [hevent, State.ownerGone_eq, State.caddy_changesHands]
      rfl
    · rfl
  · rfl

theorem State.leaseEnds_of_lease (h : ∀ o, s.caddy.owner = some o → s.clk < o.leaseEnd) : s.leaseEnds = s := by
  unfold State.leaseEnds
  split
  · next o ho => exact if_neg fun e => absurd e.1 (Nat.not_le.mpr (h o ho))
  · rfl

theorem Caddy.waits_of_apart {c d : Caddy} (h : c.apart = d.apart) : c.waits = d.waits :=
  (congrArg Caddy.waits h : c.apart.waits = d.apart.waits)

/-- With no request behind it, the request that waited is answered, and the lease is looked at. -/
theorem State.waiterReplies_of_idle (hq : s.caddy.queue = []) (d : Deferred) (op : Nat) (p : List Byte) : s.waiterReplies d op p =
    ((s.setCaddy s.caddy.popped).answer (replyTo d.req op d.req.session d.req.epoch 0 p)).leaseEnds := by
  have hwaits := (State.waits_leaseEnds (s := (s.setCaddy s.caddy.popped).answer
    (replyTo d.req op d.req.session d.req.epoch 0 p))).trans (Caddy.waits_of_apart (State.apart_answer _ _))
  have hqueue := (congrArg Prod.snd hwaits).trans hq
  have hturn : ∀ t : State, t.caddy.queue = [] → t.runQueue t.caddy.queue.length = t := by
    intro t ht
    rw [ht]
    rfl
  exact hturn _ hqueue

theorem State.applyReplies_of_idle {d : Deferred} (ha : d.area ≠ 1) (hq : s.caddy.queue = []) : s.applyReplies d =
    ((s.setCaddy s.caddy.popped).answer (replyTo d.req 0x11 d.req.session d.req.epoch 0 [])).leaseEnds := by
  rw [State.applyReplies, if_neg ha, State.waiterReplies_of_idle hq]

theorem State.journalled_of_ready {d : Deferred} {ds : List Deferred} (h : s.caddy.deferred = d :: ds) (hal : d.alloc = none)
    (hwo : d.worked = true) (hne : ∀ r ∈ d.needs, r ∉ s.flash.queue) : s.journalled = s.applyReplies d := by
  have hall : d.needs.all (fun r => !s.flash.queue.contains r) = true := by
    rw [List.all_eq_true]
    intro r hr
    simpa using hne r hr
  rw [State.journalled, h]
  exact if_pos ⟨hal, hwo, hall⟩

theorem State.journalled_of_needed {d : Deferred} {ds : List Deferred} (h : s.caddy.deferred = d :: ds) {r : JRec} (hr : r ∈ d.needs)
    (hq : r ∈ s.flash.queue) : s.journalled = s := by
  rw [State.journalled, h]
  refine if_neg fun e => ?_
  have := List.all_eq_true.mp e.2.2 r hr
  simp [hq] at this

end

/-- A caddy whose one waiting request has its work done. -/
def Deferred.done (d : Deferred) (more : List JRec) : Deferred := { d with worked := true, needs := d.needs ++ more }
def Caddy.working (c : Caddy) (d : Deferred) : Caddy := { c with deferred := [d] }

theorem State.workDone_of_one {s : State} {d : Deferred} (h : s.caddy.deferred = [d]) (more : List JRec) :
    s.workDone more = (s.setCaddy (s.caddy.working (d.done more))).journalled := by
  rw [State.workDone, h]
  rfl

/-! The drain of a protection area, with nothing of this module inside it. -/

section
variable {s : State} {d : Deferred}

theorem State.recheck_of_empty (ha : d.area = 2 ∨ d.area = 9) (hc : s.fab.cmds = []) (ht : s.fab.tileReqs = [])
    (hi : s.router.inj = []) (hp : s.fab.capped = []) : Runs [.fab, .router, .steps, .obj] s (s.recheck d.area) := by
  obtain h2 | h9 := ha
  · have hinside : s.cmdsInside = [] := by rw [State.cmdsInside, hc]; rfl
    have htiles : s.tilesInside = [] := by rw [State.tilesInside, ht]; rfl
    have hown : s.ownQueued = [] := by rw [State.ownQueued, hi, hp]; rfl
    have hperm : s.permInside = [] := by rw [State.permInside, hown]; rfl
    have hre : s.recheck d.area = s.regenerate := by
      rw [State.recheck, if_pos h2, hinside]
      dsimp only [List.foldl_nil]
      rw [htiles]
      dsimp only [List.foldl_nil]
      rw [hperm]
      rfl
    rw [hre]
    exact (State.regenerate_runs s).mono rfl
  · have hre : s.recheck d.area = s.syncRecheck := by rw [State.recheck, if_neg (by omega)]
    rw [hre]
    exact (State.syncRecheck_runs s).mono rfl

/-- O25's clause for the end of a protection area's drain. -/
theorem exec_protDrainDone_replies (hd : s.caddy.deferred = [d]) (hq : s.caddy.queue = []) (ha : d.area = 2 ∨ d.area = 9)
    (hwo : d.worked = false) (hal : d.alloc = none) (hch : d.changed = 0) (hne : ∀ r ∈ d.needs, r ∉ s.flash.queue)
    (hlease : ∀ o, s.caddy.owner = some o → s.clk < o.leaseEnd) (hc : s.fab.cmds = []) (ht : s.fab.tileReqs = [])
    (hi : s.router.inj = []) (hp : s.fab.capped = []) :
    ∃ t, exec .protDrainDone s = .next t ∧ t.caddy.deferred = [] ∧ t.caddy.audit = s.caddy.audit ∧
      t.Answers d.req (writeOf (d.area * 65536 + 1) 16 1) 0 [] ∧
      Frame [.sync, .mem, .fab, .router, .caddy, .host, .steps, .obj, .out] s t := by
  obtain ⟨u, hu⟩ : ∃ u, u = s.drained d := ⟨_, rfl⟩
  have hdrained : Runs [.fab, .router, .steps, .obj, .host, .out] s u := by
    have heq : s.drained d = (s.recheck d.area).event 3 d.area := by rw [State.drained, if_pos hch]
    rw [hu, heq]
    exact .comp (State.event_runs ..) rfl ((State.recheck_of_empty ha hc ht hi hp).mono rfl)
  have hcaddy : u.caddy = s.caddy := hdrained.same .caddy rfl
  have haudits : d.audits = [] := if_pos hch
  obtain ⟨v, hv⟩ : ∃ v, v = u.setCaddy (u.caddy.working (d.done [])) := ⟨_, rfl⟩
  have hvcaddy : v.caddy = s.caddy.working (d.done []) := by rw [hv, ← hcaddy]; rfl
  have hvflash : v.flash = s.flash := by rw [hv]; exact hdrained.same .flash rfl
  have hneeds : (d.done []).needs = d.needs := List.append_nil _
  have hdone : s.drainDone = v.applyReplies (d.done []) := by
    have hstart : s.drainDone = u.workDone [] := by
      rw [State.drainDone, hd, hu]
      exact (if_pos ⟨ha, hwo⟩).trans (by rw [haudits])
    rw [hstart, State.workDone_of_one (hcaddy ▸ hd), ← hv]
    refine State.journalled_of_ready (ds := []) (by rw [hvcaddy]; rfl) hal rfl fun r hr => ?_
    rw [hvflash]
    exact hne r (hneeds ▸ hr)
  obtain ⟨w, hw⟩ : ∃ w, w = (v.setCaddy v.caddy.popped).answer (replyTo d.req 0x11 d.req.session d.req.epoch 0 []) := ⟨_, rfl⟩
  have hanswer : Runs [.router, .caddy, .host, .out] (v.setCaddy v.caddy.popped) w := hw ▸ State.answer_runs ..
  have hapart : w.caddy.apart = (v.setCaddy v.caddy.popped).caddy.apart := hw ▸ State.apart_answer ..
  have hvset : Runs [.caddy] u v := by rw [hv]; exact State.setCaddy_runs _ _ fun h => h
  have hpop : Runs [.caddy] v (v.setCaddy v.caddy.popped) := State.setCaddy_runs _ _ fun h => h
  have hall : Runs [.sync, .mem, .fab, .router, .caddy, .host, .steps, .obj, .out] s w :=
    .comp hanswer rfl (.comp hpop rfl (.comp hvset rfl (hdrained.mono rfl)))
  have hpopped : (v.setCaddy v.caddy.popped).caddy = (s.caddy.working (d.done [])).popped := by rw [← hvcaddy]; rfl
  rw [hpopped] at hapart
  have hleased : w.leaseEnds = w := by
    refine State.leaseEnds_of_lease fun o ho => ?_
    rw [show w.clk = s.clk from hall.same .clk rfl]
    exact hlease o ((Caddy.owner_of_apart hapart).symm.trans ho)
  have hreplied : s.drainDone = w := by
    rw [hdone, State.applyReplies_of_idle (d := d.done []) (show d.area ≠ 1 by omega) (by rw [hvcaddy]; exact hq), ← hleased, hw]
    rfl
  refine ⟨w, congrArg Host.Outcome.next hreplied, congrArg Prod.fst (Caddy.waits_of_apart hapart),
    (congrArg Caddy.audit hapart : w.caddy.apart.audit = _), ?_, hall.frame⟩
  rw [hw]
  exact State.answers_answer _ d.req (writeOf (d.area * 65536 + 1) 16 1) 0 []

/-! Granules. -/

/-- The memory with the next granule retired. -/
def Mem.retires (x : Mem) (q : Retired) (rest : List (Nat × Nat)) : Mem := { x with retired := x.retired ++ [q], retiring := rest }

theorem State.mem_retireOne {a c m i : Nat} {rest : List (Nat × Nat)} (hr : s.mem.retiring = (a, c) :: rest)
    (hm : s.memOf a = some m) (hi : s.freeSpare m = some i) :
    s.retireOne.mem = s.mem.retires ⟨a, i, m, c, s.ageing.hours⟩ rest := by
  have heq : s.retireOne = (let t := s.setMem (s.mem.retires ⟨a, i, m, c, s.ageing.hours⟩ rest)
      if 1024 < (t.sparesUsed m).length + 64 then t.service 8 else t) := by
    rw [State.retireOne, hr]
    dsimp only
    rw [hm]
    dsimp only
    rw [hi]
    rfl
  rw [heq]
  dsimp only
  split
  · exact (State.service_runs ..).same .mem rfl
  · rfl

/-- O25's clause for a granule with others behind it. -/
theorem exec_granuleRetireDone_next {a c m i : Nat} {rest : List (Nat × Nat)} (hr : s.mem.retiring = (a, c) :: rest)
    (hm : s.memOf a = some m) (hi : s.freeSpare m = some i) (hrest : rest ≠ []) :
    ∃ t, exec .granuleRetireDone s = .next t ∧
      t.mem = { s.mem with retired := s.mem.retired ++ [⟨a, i, m, c, s.ageing.hours⟩], retiring := rest } ∧
      Frame [.mem, .router, .host, .flash, .out] s t := by
  have hmem := State.mem_retireOne hr hm hi
  have hdone : s.retireDone = s.retireOne := by
    rw [State.retireDone]
    split
    · exact if_neg fun e => hrest ((congrArg Mem.retiring hmem).symm.trans e.2.2)
    · rfl
  exact ⟨s.retireOne, congrArg Host.Outcome.next hdone, hmem, (State.retireOne_runs s).frame⟩

/-- O25's clause for the last granule. -/
theorem exec_granuleRetireDone_last {a c m i : Nat} (hr : s.mem.retiring = [(a, c)]) (hm : s.memOf a = some m)
    (hi : s.freeSpare m = some i) (hd : s.caddy.deferred = [d]) (ha : d.area = 5) (hwo : d.worked = false) :
    ∃ t, exec .granuleRetireDone s = .next t ∧ t.mem.retiring = [] ∧ t.mem.bytes = s.mem.bytes ∧
      t.caddy.deferred = [{ d with worked := true, needs := d.needs ++ [.remap] }] ∧
      t.flash.queue.getLast? = some .remap ∧ Frame [.mem, .router, .caddy, .host, .flash, .out] s t := by
  have hmem := State.mem_retireOne hr hm hi
  have hone := State.retireOne_runs s
  have hcaddy : s.retireOne.caddy = s.caddy := hone.same .caddy rfl
  obtain ⟨u, hu⟩ : ∃ u, u = (s.retireOne.event 3 5).journal .remap := ⟨_, rfl⟩
  have htold : Runs [.router, .host, .flash, .out] s.retireOne u :=
    hu ▸ .comp (State.journal_runs ..) rfl ((State.event_runs ..).mono rfl)
  have hucaddy : u.caddy = s.caddy := by rw [← hcaddy]; exact htold.same .caddy rfl
  have hlast : u.flash.queue.getLast? = some .remap := by rw [hu, State.queue_journal rfl, List.getLast?_concat]
  have hdone : s.retireDone = u.setCaddy (u.caddy.working (d.done [.remap])) := by
    have hstart : s.retireDone = u.workDone [.remap] := by
      rw [State.retireDone, hcaddy, hd, hu]
      exact if_pos ⟨ha, hwo, congrArg Mem.retiring hmem⟩
    rw [hstart, State.workDone_of_one (hucaddy ▸ hd)]
    exact State.journalled_of_needed (ds := []) rfl (List.mem_append_right _ (List.mem_cons_self ..))
      (List.mem_of_getLast? hlast)
  have hset : Runs [.caddy] u (u.setCaddy (u.caddy.working (d.done [.remap]))) := State.setCaddy_runs _ _ fun h => h
  have humem : u.mem = s.mem.retires ⟨a, i, m, c, s.ageing.hours⟩ [] := by rw [← hmem]; exact htold.same .mem rfl
  exact ⟨_, congrArg Host.Outcome.next hdone, (congrArg Mem.retiring humem : u.mem.retiring = _),
    (congrArg Mem.bytes humem : u.mem.bytes = _), rfl, hlast,
    (Runs.comp hset rfl (.comp htold rfl (hone.mono rfl))).frame⟩

/-! The journal's last write. -/

theorem State.mem_mgmt_eventTo {m : MgmtMsg} (h : m ∈ s.out.mgmt) (code arg cls : Nat) (x : Session) :
    m ∈ (s.eventTo code arg cls x).out.mgmt := by
  obtain ⟨e, he⟩ : ∃ e, (s.eventTo code arg cls x).out.mgmt = s.out.mgmt ++ [e] := by
    unfold State.eventTo
    dsimp only
    split
    · exact ⟨_, State.mgmt_interrupt ..⟩
    · exact ⟨_, congrArg Outputs.mgmt ((State.mgmtPacket_runs ..).same .out rfl :
        ((s.emitMsg _).mgmtPacket 0x91 _ _).out = (s.emitMsg _).out)⟩
    · exact ⟨_, rfl⟩
  rw [he]
  exact List.mem_append_left _ h

theorem State.mem_mgmt_event {m : MgmtMsg} (h : m ∈ s.out.mgmt) (code arg : Nat) : m ∈ (s.event code arg).out.mgmt := by
  unfold State.event
  induction s.caddy.sessions generalizing s with
  | nil => exact h
  | cons p ps ih => exact ih (State.mem_mgmt_eventTo h ..)

theorem State.mem_mgmt_leaseEnds {m : MgmtMsg} (h : m ∈ s.out.mgmt) : m ∈ s.leaseEnds.out.mgmt := by
  unfold State.leaseEnds
  split
  · split
    · refine State.mem_mgmt_event ?_ ..
      rw [State.ownerGone_eq]
      refine State.mem_mgmt_event ?_ ..
      have hout : (s.setCaddy s.caddy.unowned).discardAll.out = s.out := (State.discardAll_runs ..).same .out rfl
      rw [hout]
      exact h
    · exact h
  · exact h

/-- O25's clause for the write that an APPLY's reply waits for. -/
theorem exec_journalWriteDone_replies {q : JRec} (hd : s.caddy.deferred = [d]) (hq : s.caddy.queue = []) (hal : d.alloc = none)
    (hwo : d.worked = true) (hj : s.flash.queue = [q]) (hl : s.power.losing = 0) :
    ∃ t, exec .journalWriteDone s = .next t ∧ t.caddy.deferred = [] ∧
      replyTo d.req 0x11 d.req.session d.req.epoch 0 [] ∈ t.out.mgmt := by
  obtain ⟨u, hu⟩ : ∃ u, u = (s.writeDone q []).journalBegin := ⟨_, rfl⟩
  have hwrite := State.writeDone_runs s q []
  have hrun : Runs [.flash, .free] s u := hu ▸ .comp (State.journalBegin_runs ..) rfl hwrite
  have hcaddy : u.caddy = s.caddy := hrun.same .caddy rfl
  have hqueue : u.flash.queue = [] := by rw [hu, State.journalBegin_queue]; rfl
  have hlosing : (s.writeDone q []).power.losing = 0 := by
    rw [show (s.writeDone q []).power = s.power from hwrite.same .power rfl]
    exact hl
  have hdone : s.journalDone = u.applyReplies d := by
    have hstart : s.journalDone = u.journalled := by
      rw [State.journalDone, hj, hu]
      exact congrArg State.journalled ((if_neg fun e => e.1 hlosing).trans (if_pos (.inl hlosing)))
    rw [hstart]
    exact State.journalled_of_ready (ds := []) (hcaddy ▸ hd) hal hwo fun r _ => by rw [hqueue]; exact List.not_mem_nil
  obtain ⟨v, hv⟩ : ∃ v, v = if d.area = 1 then u.setCaddy { u.caddy with port := u.ov mgmtPortId } else u := ⟨_, rfl⟩
  have hwaits : v.caddy.waits = ([d], []) := by
    have : v.caddy.waits = u.caddy.waits := by
      rw [hv]
      split <;> rfl
    rw [this, hcaddy, Caddy.waits, hd, hq]
  have hreplied : u.applyReplies d = ((v.setCaddy v.caddy.popped).answer
      (replyTo d.req 0x11 d.req.session d.req.epoch 0 [])).leaseEnds := by
    rw [State.applyReplies, ← hv]
    exact State.waiterReplies_of_idle (congrArg Prod.snd hwaits) d 0x11 []
  refine ⟨_, congrArg Host.Outcome.next (hdone.trans hreplied), ?_, State.mem_mgmt_leaseEnds ?_⟩
  · have hend := State.waits_leaseEnds.trans (Caddy.waits_of_apart (State.apart_answer (v.setCaddy v.caddy.popped)
      (replyTo d.req 0x11 d.req.session d.req.epoch 0 [])))
    have hone : v.caddy.deferred = [d] := congrArg Prod.fst hwaits
    refine (congrArg Prod.fst hend).trans ?_
    change v.caddy.deferred.drop 1 = []
    rw [hone]
    rfl
  · rw [State.mgmt_answer]
    exact List.mem_append_right _ (List.mem_cons_self ..)

end

/-- Settles O25: an accepted APPLY's effects touch no staged object's value, so what was staged is in force at once; a reply that
waits is sent when its work and its journal writes are done. -/
theorem stagedSetsAreAppliedWhole : Obligations.StagedSetsAreAppliedWhole := by
  unfold Obligations.StagedSetsAreAppliedWhole
  intro s r x hw
  exact ⟨fun a id v row ha h2 h5 h9 h11 h hp hf hida hrow hst hv =>
      exec_apply_commits hw ha h2 h5 h9 h11 h hp hf hida hrow hst hv,
    fun a ha h hp hf hg => exec_apply_protects hw ha h hp hf hg,
    fun a f fs ha h hp hf => exec_apply_rejects hw ha h hp hf, fun a ha h => exec_discard_drops hw ha h,
    fun d hd hq ha hwo hal hch hne hlease hc ht hi hp =>
      exec_protDrainDone_replies hd hq ha hwo hal hch hne hlease hc ht hi hp,
    fun a c rest m i hr hm hi hrest => exec_granuleRetireDone_next hr hm hi hrest,
    fun a c m i d hr hm hi hd ha _ hwo => exec_granuleRetireDone_last hr hm hi hd ha hwo,
    fun d q hd hq hal hwo hj hl => exec_journalWriteDone_replies hd hq hal hwo hj hl⟩

end Sys2Proof.Machine
end

