-- ==== Sys2Proof/Proofs/ContextResets.lean ====
section
/-!
PROOF. What a CONTEXT reset leaves of a context, and what a COMPUTE reset leaves of them all (R463, R464).
-/

namespace Sys2Proof.Machine

/-! A core's tiles when its engines are assigned anew: the same tiles, each of its context. -/

/-- Contexts of the tiles of a list, in order. -/
def tileCtxs (ts : List Tile) : List Nat := ts.map (·.ctx)

theorem tileCtxs_foldl {α : Type} {tiles : α → List Tile} {f : α → Tile → α}
    (h : ∀ a t, tileCtxs (tiles (f a t)) = tileCtxs (tiles a) ++ [t.ctx]) (ts : List Tile) (a : α) :
    tileCtxs (tiles (ts.foldl f a)) = tileCtxs (tiles a) ++ tileCtxs ts := by
  induction ts generalizing a with
  | nil => exact (List.append_nil _).symm
  | cons t ts ih => rw [List.foldl_cons, ih, h, List.append_assoc]; rfl

theorem tileCtxs_append (xs ys : List Tile) : tileCtxs (xs ++ ys) = tileCtxs xs ++ tileCtxs ys := List.map_append ..

theorem tileCtxs_assignTiles (eng : Eng) (ts : List Tile) : tileCtxs (assignTiles eng ts) = tileCtxs ts := by
  unfold assignTiles
  refine (tileCtxs_foldl (tiles := Prod.fst) (fun a t => ?_) _ _).trans
    ((List.nil_append _).trans ((tileCtxs_foldl (tiles := id) (fun a t => ?_) _ _).trans ((List.nil_append _).trans ?_)))
  · dsimp only
    split <;> exact tileCtxs_append ..
  · dsimp only [id]
    split <;> exact tileCtxs_append ..
  · rw [tileCtxs, List.map_map]
    refine List.map_congr_left fun t _ => ?_
    dsimp only [Function.comp]
    split
    · cases eng <;> dsimp only <;> repeat' split
      all_goals rfl
    · rfl

theorem Core.tiles_begin (c : Core) (x : Tile) : (c.begin x).tiles = c.tiles := by
  unfold Core.begin
  split
  · split <;> rfl
  · rfl

/-- What `State.assign` makes of a core. -/
def Core.assigned (eng : Eng) (c : Core) : Core := (assignTiles eng c.tiles).foldl Core.begin { c with tiles := assignTiles eng c.tiles }

theorem Core.tiles_assigned (eng : Eng) (c : Core) : (c.assigned eng).tiles = assignTiles eng c.tiles := by
  have hfold : ∀ (ts : List Tile) (c : Core), (ts.foldl Core.begin c).tiles = c.tiles := fun ts => by
    induction ts with
    | nil => exact fun _ => rfl
    | cons x xs ih => exact fun c => (ih _).trans (c.tiles_begin x)
  exact hfold _ _

/-! The tiles and the list entries of a context go. -/

/-- A core without the tiles of a context, its engines assigned anew. -/
def State.coreRid (s : State) (ctx n : Nat) : Core := ((s.core n).discard ctx s.clk).assigned (s.die (dieOf n)).eng

theorem State.ctx_of_mem_coreRid {s : State} {ctx n : Nat} {y : Tile} (h : y ∈ (s.coreRid ctx n).tiles) : y.ctx ≠ ctx := by
  have hmem : y.ctx ∈ tileCtxs (s.coreRid ctx n).tiles := List.mem_map_of_mem h
  rw [State.coreRid, Core.tiles_assigned, tileCtxs_assignTiles] at hmem
  obtain ⟨z, hz, hzy⟩ := List.mem_map.mp hmem
  have : (z.ctx != ctx) = true := (List.mem_filter.mp hz).2
  rw [← hzy]
  exact bne_iff_ne.mp this

/-- The table of cores is canonical. -/
def CoresOk (s : State) : Prop := twf .init s.cores = true

theorem CoresOk.setCore {s : State} (h : CoresOk s) (n : Nat) (c : Core) : CoresOk (s.setCore n c) := twf_tset _ _ _ h

/-- A core of which the tiles of a context have left, and the engines have been assigned anew. -/
theorem State.core_rid {s : State} (h : CoresOk s) (ctx n m : Nat) :
    ((s.modCore n (·.discard ctx s.clk)).assign n).core m = if m = n then s.coreRid ctx n else s.core m := by
  have hset (k : Nat) := State.core_setCore h n k ((s.core n).discard ctx s.clk)
  refine (State.core_setCore (h.setCore n _) n m _).trans ?_
  split
  · rw [State.modCore_eq, hset, if_pos rfl]
    rfl
  · next hm => exact (hset m).trans (if_neg hm)

theorem Recordwise.discard (ctx : Nat) :
    Recordwise CoresOk State.core (fun s n => (s.modCore n (·.discard ctx s.clk)).assign n) (State.coreRid · ctx) where
  keeps n h := (h.setCore n _).setCore n _
  self {s} n h := (State.core_rid h ctx n n).trans (if_pos rfl)
  other {s n m} h hm := (State.core_rid h ctx n m).trans (if_neg hm)
  stable {s n m} h hm := by
    have hcore := (State.core_rid h ctx n m).trans (if_neg hm)
    rw [State.coreRid, hcore]
    rfl

/-- The context's tiles leave some cores. -/
def State.ridOf (s : State) (ns : List Nat) (ctx : Nat) : State :=
  ns.foldl (fun s n => (s.modCore n (·.discard ctx s.clk)).assign n) s

theorem mem_allCores {n : Nat} : n ∈ allCores ↔ n < 256 := List.mem_range

/-- The entries of a context leave the lists (R259). -/
def Sched.rid (x : Sched) (ctx : Nat) : Sched :=
  { x with
    lists := tmap [] (fun l => l.filter (fun e => e.ctx != ctx)) x.lists
    overflow := x.overflow.filter (fun e => e.ctx != ctx) }

/-- The entries, the requests of tiles and the exchanges of a context go. -/
def State.entriesGone (s : State) (ctx : Nat) : State :=
  let s := s.setSched (s.sched.rid ctx)
  let s := s.setFab { s.fab with tileReqs := s.fab.tileReqs.filter (fun r => r.ctx != ctx) }
  s.setTxe { s.txe with
    opens := s.txe.opens.filter (fun x => x.ctx != ctx)
    busy := s.txe.busy.filter (fun x => x.ctx != ctx) }

/-- `State.discard` over some of the cores. -/
def State.discardOn (ns : List Nat) (s : State) (ctx : Nat) (p : UrnBuf → Bool) : State :=
  ((((s.redAbandon ctx).ridOf ns ctx).entriesGone ctx).urnFreeAll ctx p).urnDropReqs ctx

theorem State.discard_eq (s : State) (ctx : Nat) (p : UrnBuf → Bool) : s.discard ctx p = s.discardOn allCores ctx p := rfl

section
variable (ns : List Nat) (s : State) (ctx : Nat) (p : UrnBuf → Bool)

theorem State.discardOn_runs_after :
    Runs [.urn] (((s.redAbandon ctx).ridOf ns ctx).entriesGone ctx) (s.discardOn ns ctx p) :=
  .comp (State.urnDropReqs_runs ..) rfl (State.urnFreeAll_runs ..)

theorem State.cores_discardOn : (s.discardOn ns ctx p).cores = ((s.redAbandon ctx).ridOf ns ctx).cores :=
  ((State.discardOn_runs_after ns s ctx p).same .cores rfl : State.cores _ = _)

theorem State.sched_discardOn : (s.discardOn ns ctx p).sched = ((s.redAbandon ctx).ridOf ns ctx).sched.rid ctx :=
  ((State.discardOn_runs_after ns s ctx p).same .sched rfl : State.sched _ = _)

end

theorem State.core_discardOn {s : State} (h : CoresOk s) {ns : List Nat} (hns : ns.Nodup) (ctx : Nat) (p : UrnBuf → Bool)
    {n : Nat} (hn : n ∈ ns) : (s.discardOn ns ctx p).core n = (s.redAbandon ctx).coreRid ctx n := by
  have hab : (s.redAbandon ctx).cores = s.cores := (State.redAbandon_runs ..).same .cores rfl
  exact (State.core_congr (State.cores_discardOn ns s ctx p) n).trans
    ((Recordwise.discard ctx).get_foldl ns (show CoresOk (s.redAbandon ctx) by rwa [CoresOk, hab]) hns hn)

theorem State.ctx_of_mem_dieList_discardOn {s : State} {ns : List Nat} {ctx d : Nat} {p : UrnBuf → Bool} {e : Entry}
    (he : e ∈ (s.discardOn ns ctx p).dieList d) : e.ctx ≠ ctx := by
  have hlists : (s.discardOn ns ctx p).sched.lists =
      tmap [] (fun l => l.filter (fun e => e.ctx != ctx)) ((s.redAbandon ctx).ridOf ns ctx).sched.lists :=
    congrArg Sched.lists (State.sched_discardOn ns s ctx p)
  have hall : ∀ e ∈ tget [] (s.discardOn ns ctx p).sched.lists d, e.ctx ≠ ctx := by
    rw [hlists]
    refine tget_tmap_of_forall (P := fun l : List Entry => ∀ e ∈ l, e.ctx ≠ ctx) (List.forall_mem_nil _) (fun l e h => ?_) _ d
    have : (e.ctx != ctx) = true := (List.mem_filter.mp h).2
    exact bne_iff_ne.mp this
  exact hall e he

/-! The CONTEXT reset. -/

/-- A context's steps as its reset leaves them: what the norm summer holds, and REPLAYS, stand (R464). -/
def StepCtx.fresh (x : StepCtx) : StepCtx :=
  { StepCtx.init with
    replays := x.replays
    summing := x.summing
    sumStep := x.sumStep
    summed := x.summed
    normTail := x.normTail
    normGap := x.normGap }

/-- The context's steps begin anew, the reader directory is empty, and ALERT# follows. -/
def State.anew (s : State) (ctx : Nat) (x : StepCtx) : State :=
  let s := s.setStp ctx x
  (s.setFab { s.fab with dir := [] }).alert

section
variable (s : State) (ctx : Nat) (x : StepCtx)

theorem State.dir_anew : (s.anew ctx x).fab.dir = [] :=
  congrArg Fab.dir ((State.alert_runs _).same .fab rfl : State.fab _ = _)

theorem State.steps_anew : (s.anew ctx x).steps = (s.setStp ctx x).steps :=
  ((State.alert_runs _).same .steps rfl : State.steps _ = _)

theorem State.cores_anew : (s.anew ctx x).cores = s.cores := ((State.alert_runs _).same .cores rfl : State.cores _ = _)

theorem State.sched_anew : (s.anew ctx x).sched = s.sched := ((State.alert_runs _).same .sched rfl : State.sched _ = _)

theorem State.steps_anew_of_steps {s t : State} (h : t.steps = s.steps) :
    (t.anew ctx x).steps = (s.setStp ctx x).steps := by
  rw [State.steps_anew]
  change tset .init t.steps ctx x = _
  rw [h]
  rfl

theorem State.ctxReset_eq : s.ctxReset ctx =
    ((s.permReset ctx).discard ctx (fun _ => true)).anew ctx (s.stp ctx).fresh := rfl

end

/-- The table of steps is canonical. -/
def StepsOk (s : State) : Prop := twf .init s.steps = true

theorem State.steps_ctxReset (s : State) (ctx : Nat) :
    (s.ctxReset ctx).steps = (s.setStp ctx (s.stp ctx).fresh).steps := by
  have hsteps : ((s.permReset ctx).discard ctx (fun _ => true)).steps = (s.permReset ctx).steps :=
    (State.discard_runs ..).same .steps rfl
  have hperm : (s.permReset ctx).steps = s.steps := (State.permReset_runs ..).same .steps rfl
  rw [State.ctxReset_eq]
  exact State.steps_anew_of_steps ctx _ (hsteps.trans hperm)

theorem State.stp_ctxReset {s : State} (h : StepsOk s) (ctx c : Nat) :
    (s.ctxReset ctx).stp c = if c = ctx then (s.stp ctx).fresh else s.stp c :=
  (State.stp_congr (State.steps_ctxReset s ctx) c).trans (State.stp_setStp h ctx c _)

theorem State.ctx_of_mem_ctxReset {s : State} (h : CoresOk s) {ctx n : Nat} (hn : n < 256) {y : Tile}
    (hy : y ∈ ((s.ctxReset ctx).core n).tiles) : y.ctx ≠ ctx := by
  have hperm : (s.permReset ctx).cores = s.cores := (State.permReset_runs ..).same .cores rfl
  have hok : CoresOk (s.permReset ctx) := by rwa [CoresOk, hperm]
  rw [State.ctxReset_eq, State.core_congr (State.cores_anew ..), State.discard_eq,
    State.core_discardOn (ns := allCores) hok List.nodup_range ctx _ (mem_allCores.mpr hn)] at hy
  exact State.ctx_of_mem_coreRid hy

theorem State.ctx_of_mem_dieList_ctxReset {s : State} {ctx d : Nat} {e : Entry} (he : e ∈ (s.ctxReset ctx).dieList d) :
    e.ctx ≠ ctx := by
  rw [State.ctxReset_eq, State.dieList_congr (State.sched_anew ..), State.discard_eq] at he
  exact State.ctx_of_mem_dieList_discardOn he

/-- A context's page and its VF's configuration go (R463). -/
def State.pageGone (s : State) (ctx : Nat) : State :=
  let t := s.setPage ctx .init
  t.setHost { t.host with
    msix := t.host.msix.filter (fun e => e.1 / 4096 != ctx + 1)
    pba := t.host.pba.filter (fun e => e.1 / 4096 != ctx + 1)
    aer := t.host.aer.filter (fun e => e.1 != ctx + 1) }

theorem State.vfReset_eq (s : State) (ctx : Nat) : s.vfReset ctx = (s.ctxReset ctx).pageGone ctx := rfl

theorem State.page_pageGone {s : State} (h : twf .init s.host.pages = true) (ctx : Nat) : (s.pageGone ctx).page ctx = .init :=
  (State.page_setPage h ctx ctx .init).trans (if_pos rfl)

theorem State.steps_pageGone (s : State) (ctx : Nat) : (s.pageGone ctx).steps = s.steps := rfl

/-! The COMPUTE reset. -/

theorem Recordwise.ctxReset : Recordwise StepsOk (fun s c => (s.stp c).st) (fun s c => s.ctxReset c) (fun _ _ => .idle) where
  keeps {s} c h := by
    rw [StepsOk, State.steps_ctxReset]
    exact twf_tset _ _ _ h
  self c h := by rw [State.stp_ctxReset h, if_pos rfl]; rfl
  other h he := by rw [State.stp_ctxReset h, if_neg he]
  stable _ _ := rfl

/-- A core without accumulators. -/
def Core.cleared (c : Core) : Core := { c with slots := [], store := [] }

theorem Recordwise.cleared :
    Recordwise CoresOk State.core (fun s n => s.modCore n Core.cleared) (fun s n => (s.core n).cleared) where
  keeps n h := h.setCore n _
  self n h := (State.core_setCore h n n _).trans (if_pos rfl)
  other h he := (State.core_setCore h _ _ _).trans (if_neg he)
  stable h he := congrArg Core.cleared ((State.core_setCore h _ _ _).trans (if_neg he))

/-- Some contexts are reset. -/
def State.contextsReset (s : State) (cs : List Nat) : State := cs.foldl (fun s c => s.ctxReset c) s

theorem State.contextsReset_runs (s : State) (cs : List Nat) :
    Runs [.cores, .sched, .txe, .urn, .fab, .router, .host, .steps, .red, .out] s (s.contextsReset cs) :=
  .foldl (fun _ _ => State.ctxReset_runs ..) _ (.refl s)

/-- The accumulators of some cores are emptied, and the counters and the overflow. -/
def State.accumulatorsCleared (s : State) (ns : List Nat) : State := (ns.foldl (fun s n => s.modCore n Core.cleared) s).clearSync

theorem State.computeReset_eq (s : State) : s.computeReset = (s.contextsReset allCtx).accumulatorsCleared allCores := rfl

theorem State.steps_accumulatorsCleared (s : State) (ns : List Nat) : (s.accumulatorsCleared ns).steps = s.steps :=
  ((Runs.foldl (fun _ _ => State.modCore_runs ..) ns (.refl s) :
    Runs [.cores] s (ns.foldl (fun s n => s.modCore n Core.cleared) s)).same .steps rfl : State.steps _ = _)

theorem State.core_accumulatorsCleared {s : State} (h : CoresOk s) {ns : List Nat} (hns : ns.Nodup) {n : Nat} (hn : n ∈ ns) :
    (s.accumulatorsCleared ns).core n = (s.core n).cleared :=
  Recordwise.cleared.get_foldl ns h hns hn

theorem State.emptied_accumulatorsCleared (s : State) (ns : List Nat) :
    (s.accumulatorsCleared ns).sync.ctr = [] ∧ (s.accumulatorsCleared ns).sched.overflow = [] := ⟨rfl, rfl⟩

theorem State.st_computeReset {s : State} (h : StepsOk s) {c : Nat} (hc : c < 16) : (s.computeReset.stp c).st = .idle := by
  rw [State.computeReset_eq, State.stp_congr (State.steps_accumulatorsCleared ..)]
  exact Recordwise.ctxReset.get_foldl allCtx h List.nodup_range (List.mem_range.mpr hc)

theorem State.core_computeReset {s : State} (hw : s.wf = true) {n : Nat} (hn : n < 256) :
    s.computeReset.core n = ((s.contextsReset allCtx).core n).cleared := by
  rw [State.computeReset_eq]
  exact State.core_accumulatorsCleared (State.twf_cores ((s.contextsReset_runs allCtx).wf hw)) List.nodup_range
    (mem_allCores.mpr hn)

/-! RESET_CTRL (R463). -/

theorem State.resetCtrl_context (s : State) {c : Nat} (hc : c < 16) : s.resetCtrl (1 + c * 256) = ok (s.ctxReset c) := by
  have hnone : bits (1 + c * 256) 12 20 = 0 := by simp only [bits]; omega
  have hkind : bits (1 + c * 256) 0 8 = 1 := by simp only [bits]; omega
  have hctx : bits (1 + c * 256) 8 4 = c := by simp only [bits]; omega
  rw [State.resetCtrl, if_neg (by simp [hnone]), hkind, hctx]
  rfl

theorem State.resetCtrl_compute (s : State) : s.resetCtrl 2 = ok s.computeReset := if_neg (by decide)


theorem State.perform_resetCtrl (s : State) (r : Req) {v : Nat} (hv : v < 2 ^ 32) :
    s.perform r (writeOf resetCtrlId 4 v) = s.resetCtrl v :=
  (State.write_action (by decide +kernel) hv).trans rfl

section
variable {s : State} {r : Req} {x : Session}

/-- O30's clause for a CONTEXT reset. -/
theorem exec_contextReset_request (hw : s.wf = true) {c : Nat} (hc : c < 16)
    (h : s.Obeys r (writeOf resetCtrlId 4 (1 + c * 256)) x) :
    ∃ t, exec (.contextReset (some r) c) s = .next t ∧ (t.stp c).st = .idle ∧ (t.stp c).committed = 0xFFFFFFFF ∧
      (t.stp c).replays = (s.stp c).replays ∧ (∀ n, n < 256 → ∀ y ∈ (t.core n).tiles, y.ctx ≠ c) ∧
      (∀ d, ∀ e ∈ t.dieList d, e.ctx ≠ c) ∧ (∀ i, t.ctr i = s.ctr i) ∧ t.fab.dir = [] ∧
      t.Answers r (writeOf resetCtrlId 4 (1 + c * 256)) 0 [] ∧
      Frame [.cores, .sched, .txe, .urn, .fab, .router, .caddy, .host, .steps, .red, .out] s t := by
  obtain ⟨k, t, -, hwf, hexec, hans, ⟨hruns, -, -⟩, hframe⟩ := (State.operates_of_obeys h rfl).acceptedAs
    (L := [.cores, .sched, .txe, .urn, .fab, .router, .caddy, .host, .steps, .red, .out]) (State.ctxReset · c)
    (fun k _ => (State.perform_resetCtrl _ r (by omega)).trans (State.resetCtrl_context _ hc))
    (fun t => (State.ctxReset_runs t c).mono rfl) rfl rfl
  have hw' := hwf hw
  have hstp : t.stp c = (s.stp c).fresh := (State.stp_congr (hruns.same .steps rfl) c).trans
    ((State.stp_ctxReset (State.twf_steps hw') c c).trans (if_pos rfl))
  have hsync : t.sync = s.sync := hframe.1 .sync rfl
  have hfab : t.fab = ((s.setCaddy k).ctxReset c).fab := hruns.same .fab rfl
  refine ⟨t, (need_of (decide_eq_true hc) _).trans hexec, by rw [hstp]; rfl, by rw [hstp]; rfl, by rw [hstp]; rfl,
    fun n hn y hy => ?_, fun d e he => ?_, fun i => ?_, ?_, hans, hframe⟩
  · rw [State.core_congr (hruns.same .cores rfl)] at hy
    exact State.ctx_of_mem_ctxReset (State.twf_cores hw') hn hy
  · rw [State.dieList_congr (hruns.same .sched rfl)] at he
    exact State.ctx_of_mem_dieList_ctxReset he
  · rw [State.ctr, hsync, State.ctr]
  · rw [hfab, State.ctxReset_eq, State.dir_anew]

/-- O30's clause for a Function Level Reset. -/
theorem exec_contextReset_flr (hw : s.wf = true) {c : Nat} (hc : c < 15) :
    ∃ t, exec (.contextReset none c) s = .next t ∧ (t.stp c).st = .idle ∧ t.page c = .init ∧
      Frame [.cores, .sched, .txe, .urn, .fab, .router, .host, .steps, .red, .out] s t := by
  have hexec : exec (.contextReset none c) s = .next (s.vfReset c) :=
    (need_of (decide_eq_true (show c < 16 by omega)) _).trans (congrArg Host.Outcome.next (if_pos hc))
  have hpages : twf .init (s.ctxReset c).host.pages = true := State.twf_pages ((State.ctxReset_runs s c).wf hw)
  have hstp : (s.vfReset c).stp c = (s.stp c).fresh := by
    rw [State.vfReset_eq, State.stp_congr (State.steps_pageGone ..), State.stp_ctxReset (State.twf_steps hw), if_pos rfl]
  refine ⟨_, hexec, by rw [hstp]; rfl, ?_, (State.vfReset_runs s c).frame⟩
  rw [State.vfReset_eq, State.page_pageGone hpages]

/-- O30's clause for a COMPUTE reset. -/
theorem exec_computeReset_clears (hw : s.wf = true) (h : s.Obeys r (writeOf resetCtrlId 4 2) x) :
    ∃ t, exec (.computeReset r) s = .next t ∧ (∀ c, c < 16 → (t.stp c).st = .idle) ∧ (∀ i, t.ctr i = 0) ∧
      (∀ n, n < 256 → (t.core n).slots = [] ∧ (t.core n).store = []) ∧ t.sched.overflow = [] ∧
      t.Answers r (writeOf resetCtrlId 4 2) 0 [] ∧
      Frame [.cores, .sched, .txe, .sync, .urn, .fab, .router, .caddy, .host, .steps, .red, .out] s t := by
  obtain ⟨k, t, -, hwf, hexec, hans, ⟨hruns, -, -⟩, hframe⟩ := (State.operates_of_obeys h rfl).acceptedAs
    (L := [.cores, .sched, .txe, .sync, .urn, .fab, .router, .caddy, .host, .steps, .red, .out]) State.computeReset
    (fun k _ => (State.perform_resetCtrl _ r (by decide)).trans (State.resetCtrl_compute _))
    (fun t => (State.computeReset_runs t).mono rfl) rfl rfl
  have hw' := hwf hw
  have hsync : t.sync = (s.setCaddy k).computeReset.sync := hruns.same .sync rfl
  have hsched : t.sched = (s.setCaddy k).computeReset.sched := hruns.same .sched rfl
  refine ⟨t, hexec, fun c hc => ?_, fun i => ?_, fun n hn => ?_, ?_, hans, hframe⟩
  · rw [State.stp_congr (hruns.same .steps rfl)]
    exact State.st_computeReset (State.twf_steps hw') hc
  · rw [State.ctr, hsync, State.computeReset_eq, (State.emptied_accumulatorsCleared ..).1, tget_nil]
  · rw [State.core_congr (hruns.same .cores rfl), State.core_computeReset hw' hn]
    exact ⟨rfl, rfl⟩
  · rw [hsched, State.computeReset_eq, (State.emptied_accumulatorsCleared ..).2]

end

end Sys2Proof.Machine
end

