-- ==== Sys2Proof/Proofs/Resets.lean ====
section
/-!
PROOF. The resets (R463, R464, R487).
-/

namespace Sys2Proof.Machine

/-! What the main domain's going off leaves: the log, the messages under way, and nothing of its own. -/

theorem State.log_uncovered (s : State) (code unit : Nat) (ctxs : List Nat) :
    (s.uncovered code unit ctxs).flash.log = s.flash.log := 
  (congrArg Flash.log (s.facts_uncovered code unit ctxs) : Flash.log (Flash.facts _) = _)

theorem State.log_linkDrop (s : State) (l : Nat) (p : Packet) : (s.linkDrop l p).flash.log = s.flash.log := by
  rw [State.linkDrop, State.notice388]
  dsimp only
  split <;> rfl

theorem State.log_linkFall (s : State) (l : Nat) : (s.linkFall l).flash.log = s.flash.log := by
  have hwhole : ∀ t : State, ((wholePackets (s.link l).rx (s.link l).rx.length).foldl (fun s p => s.inject l p) t).flash = t.flash :=
    fun t => foldl_keeps (g := State.flash) (f := fun s p => s.inject l p) (fun _ _ => rfl) _ t
  have hdrop : ∀ t : State, ((s.link l).out.foldl (fun s (o : OutPkt) => s.linkDrop l o.pkt) t).flash.log = t.flash.log := fun t =>
    foldl_keeps (g := fun s : State => s.flash.log) (fun t (o : OutPkt) => t.log_linkDrop l o.pkt) _ t
  unfold State.linkFall
  dsimp only
  split_ifs with hd hu
  · rfl
  · rw [hdrop, State.log_uncovered, hwhole]
    rfl
  · rw [hdrop, hwhole]
    rfl

section
variable (s : State)

/-- What was outstanding as the main domain goes off is a fault (R353). -/
def State.outstandingFails : State :=
  let cs := s.atomCtxs (fun _ => true)
  if cs = [] then s else s.uncovered 0x16 0 cs

theorem State.log_outstandingFails : s.outstandingFails.flash.log = s.flash.log := by
  unfold State.outstandingFails
  dsimp only
  split
  · rfl
  · exact State.log_uncovered ..

theorem State.links_outstandingFails : s.outstandingFails.links = s.links := by
  unfold State.outstandingFails
  dsimp only
  split
  · rfl
  · exact (State.uncovered_runs ..).same .links rfl

/-- Some links fall, and the host interface goes. -/
def State.linksFall (ls : List Nat) : State :=
  let s := ls.foldl (fun s l => s.linkFall l) s
  s.setHost { HostIf.init (s.ov bar2Log2Id) with readOut := s.host.readOut }

/-- `State.mainFalls` over some of the links. -/
def State.fallsOver (ls : List Nat) : State :=
  let cs := s.atomCtxs (fun _ => true)
  let s := ls.foldl (fun s l => s.linkFall l) (if cs = [] then s else s.uncovered 0x16 0 cs)
  s.setHost { HostIf.init (s.ov bar2Log2Id) with readOut := s.host.readOut }

theorem State.mainFalls_eq_fallsOver : s.mainFalls = s.fallsOver allLinks := rfl

theorem State.fallsOver_eq (ls : List Nat) : s.fallsOver ls = s.outstandingFails.linksFall ls := rfl

theorem State.mainFalls_eq : s.mainFalls = s.outstandingFails.linksFall allLinks := by
  rw [State.mainFalls_eq_fallsOver, State.fallsOver_eq]

theorem State.log_linksFall (ls : List Nat) : (s.linksFall ls).flash.log = s.flash.log :=
  foldl_keeps (g := fun s : State => s.flash.log) (f := fun s l => s.linkFall l) (fun t l => t.log_linkFall l) ls s

theorem State.st_linksFall {s : State} (h : LinksOk s) {ls : List Nat} (hls : ls.Nodup) {l : Nat} (hl : l ∈ ls) :
    ((s.linksFall ls).link l).st = .down := Recordwise.linkFall.get_foldl ls h hls hl

theorem State.log_mainFalls : s.mainFalls.flash.log = s.flash.log := by
  rw [State.mainFalls_eq, State.log_linksFall, State.log_outstandingFails]

theorem State.log_mainOff : s.mainOff.flash.log = s.flash.log := by
  have hflash : s.mainOff.flash = s.mainFalls.mainLoss.flash := s.mainOff_runs_after_loss.same .flash rfl
  have hloss : ∀ t : State, t.mainLoss.flash = t.flash := fun _ => rfl
  rw [hflash, hloss, s.log_mainFalls]

theorem State.st_mainFalls {s : State} (h : LinksOk s) {l : Nat} (hl : l < 6) : (s.mainFalls.link l).st = .down := by
  have hok : LinksOk s.outstandingFails := by rwa [LinksOk, State.links_outstandingFails]
  rw [State.mainFalls_eq]
  exact State.st_linksFall hok (ls := allLinks) List.nodup_range (List.mem_range.mpr hl)

theorem State.st_mainOff {s : State} (h : LinksOk s) {l : Nat} (hl : l < 6) : (s.mainOff.link l).st = .down := by
  have hlinks : s.mainOff.links = s.mainFalls.mainLoss.links := s.mainOff_runs_after_loss.same .links rfl
  have hloss : ∀ t : State, t.mainLoss.links = t.links := fun _ => rfl
  rw [State.link_congr (hlinks.trans (hloss _))]
  exact State.st_mainFalls h hl

theorem State.ctr_mainOff (i : Nat) : s.mainOff.ctr i = 0 := by
  have hsync : s.mainOff.sync = s.mainFalls.mainLoss.sync := s.mainOff_runs_after_loss.same .sync rfl
  have hloss : ∀ t : State, t.mainLoss.sync.ctr = [] := fun _ => rfl
  rw [State.ctr, hsync, hloss, tget_nil]

theorem State.stp_mainOff (c : Nat) : s.mainOff.stp c = .init := by
  have hsteps : s.mainOff.steps = s.mainFalls.mainLoss.steps := s.mainOff_runs_after_loss.same .steps rfl
  have hloss : ∀ t : State, t.mainLoss.steps = [] := fun _ => rfl
  rw [State.stp, hsteps, hloss, tget_nil]

/-- The main domain without its contents, the reduction units' regions placed anew for some contexts. -/
def State.laidOut (cs : List Nat) : State := cs.foldl (fun s c => s.applyLayout c) s.mainLoss.ftFresh

theorem State.laidOut_runs_after (cs : List Nat) : Runs [.red] s.mainLoss.ftFresh (s.laidOut cs) :=
  .foldl (fun _ _ => State.applyLayout_runs ..) _ (.refl _)

theorem State.mainOff_eq_alert : s.mainOff = (s.mainFalls.laidOut allCtx).alert := rfl

theorem State.now_laidOut (cs : List Nat) : (s.laidOut cs).ft.now = 0 :=
  (congrArg FabTime.now ((s.laidOut_runs_after cs).same .ft rfl : State.ft _ = _)).trans rfl

theorem State.out_laidOut (cs : List Nat) : (s.laidOut cs).out = s.out := (s.laidOut_runs_after cs).same .out rfl

theorem State.now_mainOff : s.mainOff.ft.now = 0 := by
  rw [State.mainOff_eq_alert, show State.ft _ = _ from (State.alert_runs _).same .ft rfl, State.now_laidOut]

theorem State.mem_mgmt_alert {s : State} {m : MgmtMsg} (h : m ∈ s.out.mgmt) : m ∈ s.alert.out.mgmt := by
  have hevent := State.mem_mgmt_event (s := s.setOut { s.out with alertPin := s.alertWanted }) h 4 (ofBool s.alertWanted)
  unfold State.alert
  dsimp only
  split
  · exact h
  · split
    · rwa [State.mgmt_interrupt]
    · exact hevent

theorem State.mem_mgmt_mainOff {s : State} {m : MgmtMsg} (h : m ∈ s.out.mgmt) : m ∈ s.mainOff.out.mgmt := by
  rw [State.mainOff_eq_alert]
  refine State.mem_mgmt_alert ?_
  have hfalls : s.mainFalls.out = s.out := s.mainFalls_runs.same .out rfl
  rwa [State.out_laidOut, hfalls]

end

/-! The main sequence begins again. -/

/-- The state in which the main sequence has begun. -/
def State.begun (s : State) : State :=
  let s := s.setPower (s.power.sequenced s.clk)
  s.setOut { s.out with faultPin := false }

theorem State.mainBegin_eq {s : State} (hr : s.caddy.ready = true) (hrec : s.caddy.recovery = false) (h5 : s.pins.p5v = true)
    (h50 : s.pins.p50v = true) (hlast : s.lastLinePresent = false) (hm : s.power.main = .off) (hl : s.power.losing = 0)
    (hclk : s.pins.refclk = true) : s.mainBegin = s.begun := by
  unfold State.mainBegin
  rw [if_pos ⟨hr, hrec, h5, h50, hlast, hm, hl⟩]
  exact if_pos hclk

theorem State.lastLinePresent_congr {s t : State} (hpins : t.pins = s.pins) (hsens : t.power.hotSensors = s.power.hotSensors)
    (hstk : t.power.hotStacks = s.power.hotStacks) : t.lastLinePresent = s.lastLinePresent := by
  rw [State.lastLinePresent, hpins, hsens, hstk, State.lastLinePresent]

theorem State.mainReset_eq {s : State} (hr : s.caddy.ready = true) (hrec : s.caddy.recovery = false) (h5 : s.pins.p5v = true)
    (h50 : s.pins.p50v = true) (hlast : s.lastLinePresent = false) (hl : s.power.losing = 0)
    (hclk : s.pins.refclk = true) : s.mainReset = s.mainOff.begun := by
  have hoff := State.mainOff_runs s
  have hpins : s.mainOff.pins = s.pins := hoff.same .pins rfl
  have hcaddy : s.mainOff.caddy = s.caddy := hoff.same .caddy rfl
  have hpower : s.mainOff.power = s.power.mainGone := s.power_mainOff
  rw [State.mainReset]
  generalize s.mainOff = v at *
  refine State.mainBegin_eq (by rw [hcaddy, hr]) (by rw [hcaddy, hrec]) (by rw [hpins, h5]) (by rw [hpins, h50]) ?_
    (by rw [hpower]; rfl) (by rw [hpower]; exact hl) (by rw [hpins, hclk])
  rw [State.lastLinePresent_congr hpins (by rw [hpower]; rfl) (by rw [hpower]; rfl), hlast]

theorem State.mainOff_clears (s : State) (h : LinksOk s) :
    s.mainOff.power.rails = false ∧ s.mainOff.ft.now = 0 ∧ (∀ a, s.mainOff.memByte a = 0) ∧ (∀ i, s.mainOff.ctr i = 0) ∧
      (∀ l, l < 6 → (s.mainOff.link l).st = .down) ∧ (∀ c, (s.mainOff.stp c).st = .idle) ∧ s.mainOff.caddy = s.caddy := by
  refine ⟨?_, s.now_mainOff, s.memByte_mainOff, s.ctr_mainOff, fun l => State.st_mainOff h, fun c => ?_,
    (State.mainOff_runs s).same .caddy rfl⟩
  · rw [s.power_mainOff]
    rfl
  · rw [s.stp_mainOff]
    rfl

/-! The MODULE reset. -/

/-- The standby domain as a MODULE reset leaves it. -/
def State.moduleCold (s : State) : State := (s.standbyCold.keepJournal s).afterRestore.readSlot

/-- The record of a stop and FAULT# stand as they are in another state (R486, R487). -/
def State.stoppedAs (s old : State) : State :=
  let t := s.setPower { s.power with
    stop := old.power.stop
    hotSensors := old.power.hotSensors
    hotStacks := old.power.hotStacks }
  t.setOut { t.out with faultPin := old.out.faultPin }

theorem State.moduleReset_eq (s : State) : s.moduleReset = s.mainOff.moduleCold.stoppedAs s := rfl

/-- What of the caddy a MODULE reset begins anew: it is not ready, and has no session and no owner. -/
def Caddy.Anew (c : Caddy) : Prop := c.ready = false ∧ c.sessions = [] ∧ c.owner = none

section
variable (s old : State)

theorem State.anew_moduleCold : (s.moduleCold.stoppedAs old).caddy.Anew := ⟨rfl, rfl, rfl⟩

theorem State.power_moduleCold : (s.moduleCold.stoppedAs old).power.main = .off ∧
    (s.moduleCold.stoppedAs old).power.stop = old.power.stop := ⟨rfl, rfl⟩

theorem State.log_moduleCold : (s.moduleCold.stoppedAs old).flash.log = s.flash.log := rfl

theorem State.stp_moduleCold (c : Nat) : (s.moduleCold.stoppedAs old).stp c = .init := tget_nil ..

theorem State.out_moduleCold : (s.moduleCold.stoppedAs old).out.mgmt = s.out.mgmt ∧
    (s.moduleCold.stoppedAs old).out.faultPin = old.out.faultPin := ⟨rfl, rfl⟩

theorem State.slotId_moduleCold : (s.moduleCold.stoppedAs old).pins.slotId < 64 := Nat.mod_lt _ (by decide)

end

/-- What a MODULE reset leaves, of any state. -/
theorem State.moduleReset_leaves (s : State) :
    s.moduleReset.caddy.Anew ∧ s.moduleReset.power.main = .off ∧ s.moduleReset.power.stop = s.power.stop ∧
      s.moduleReset.flash.log = s.flash.log ∧ s.moduleReset.out.faultPin = s.out.faultPin ∧
      (∀ c, (s.moduleReset.stp c).st = .idle) ∧ s.moduleReset.pins.slotId < 64 := by
  rw [State.moduleReset_eq]
  obtain ⟨hmain, hstop⟩ := s.mainOff.power_moduleCold s
  refine ⟨s.mainOff.anew_moduleCold s, hmain, hstop, ?_, (s.mainOff.out_moduleCold s).2, fun c => ?_, s.mainOff.slotId_moduleCold s⟩
  · rw [State.log_moduleCold, State.log_mainOff]
  · rw [State.stp_moduleCold]
    rfl

theorem State.mem_mgmt_moduleReset {s : State} {m : MgmtMsg} (h : m ∈ s.out.mgmt) : m ∈ s.moduleReset.out.mgmt := by
  rw [State.moduleReset_eq]
  rw [(State.out_moduleCold ..).1]
  exact State.mem_mgmt_mainOff h

/-! RESET_CTRL with KIND 3 and 4: the reply leaves first. -/

section
variable {s : State} {r : Req} {x : Session}

/-- The state that a reset meets when its reply has left: the caddy's sessions and the owner's lease apart, and what a message
touches, it is the state of the request. -/
theorem State.Operates.resets {v k : Nat} (h : s.Operates r (writeOf resetCtrlId 4 v) x) (hv : v < 2 ^ 32)
    (hk : ∀ u : State, u.resetCtrl v = (u, .reset k)) :
    ∃ u, asked r (writeOf resetCtrlId 4 v) s = .next (u.resetNow k) ∧ Runs [.router, .caddy, .host, .out] s u ∧
      u.caddy.ready = s.caddy.ready ∧ u.caddy.recovery = s.caddy.recovery ∧
      replyTo r 0x11 r.session r.epoch 0 [] ∈ u.out.mgmt := by
  obtain ⟨c, hc, hbeyond⟩ := State.taking_eq s r x
  have happart : ((s.taking r x).replies r (writeOf resetCtrlId 4 v) 0 []).caddy.apart = (s.taking r x).caddy.apart :=
    State.apart_answer ..
  have htaken : (s.taking r x).caddy.beyond = s.caddy.beyond := by rw [hc]; exact hbeyond
  have hready := (congrArg Caddy.ready happart : Caddy.ready (Caddy.apart _) = _)
  have hrecovery := (congrArg Caddy.recovery happart : Caddy.recovery (Caddy.apart _) = _)
  exact ⟨_, h.reset ((State.perform_resetCtrl _ r hv).trans (hk _)),
    ((State.taking_runs s r x).mono rfl).trans (State.replies_runs ..),
    hready.trans (congrArg Caddy.ready htaken : Caddy.ready (Caddy.beyond _) = _),
    hrecovery.trans (congrArg Caddy.recovery htaken : Caddy.recovery (Caddy.beyond _) = _),
    List.mem_of_getLast? (State.answers_replies (s.taking r x) r (writeOf resetCtrlId 4 v) 0 [])⟩

/-- O30's clause for a MAIN reset. -/
theorem exec_mainReset_sequences (hw : s.wf = true) (h : s.Obeys r (writeOf resetCtrlId 4 3) x)
    (hrec : s.caddy.recovery = false) (h50 : s.pins.p50v = true) (hcool : s.pins.coolantOk = true) (hclk : s.pins.refclk = true)
    (h5 : s.pins.p5v = true) (hsens : s.power.hotSensors = []) (hstk : s.power.hotStacks = []) (hl : s.power.losing = 0) :
    ∃ t, exec (.mainReset r) s = .next t ∧ t.power.main = .sequencing ∧ t.power.rails = false ∧ t.ft.now = 0 ∧
      (∀ a, t.memByte a = 0) ∧ (∀ i, t.ctr i = 0) ∧ (∀ l, l < 6 → (t.link l).st = .down) ∧
      (∀ c, (t.stp c).st = .idle) ∧ t.caddy.ready = true ∧
      replyTo r 0x11 r.session r.epoch 0 [] ∈ t.out.mgmt ∧
      Frame [.ft, .power, .kettle, .cores, .sched, .txe, .sync, .mem, .urn, .fab, .links, .router, .caddy, .host, .steps,
        .red, .obj, .flash, .out] s t := by
  obtain ⟨u, hexec, hruns, hready, hrecu, hmem⟩ := (State.operates_of_obeys h rfl).resets (k := 3) (by decide) fun _ => rfl
  obtain ⟨⟨⟨-, -, hserves, -⟩, -⟩, -⟩ := h
  have hr : s.caddy.ready = true := by
    simp only [State.serves, Bool.and_eq_true] at hserves
    exact hserves.1.1
  have hpower : u.power = s.power := hruns.same .power rfl
  have hpins : u.pins = s.pins := hruns.same .pins rfl
  have hlast : u.lastLinePresent = false := by
    simp [State.lastLinePresent, hpins, hpower, hcool, hsens, hstk]
  have hreset : u.mainReset = u.mainOff.begun := State.mainReset_eq (hready.trans hr) (hrecu.trans hrec) (by rw [hpins, h5])
    (by rw [hpins, h50]) hlast (by rw [hpower, hl]) (by rw [hpins, hclk])
  have hnext : exec (.mainReset r) s = .next u.mainReset := hexec.trans (congrArg Host.Outcome.next (if_pos rfl))
  have hframe : Frame [.ft, .power, .kettle, .cores, .sched, .txe, .sync, .mem, .urn, .fab, .links, .router, .caddy, .host, .steps,
      .red, .obj, .flash, .out] s u.mainReset := ((hruns.mono rfl).trans ((State.mainReset_runs u).mono rfl)).frame
  obtain ⟨hrails, hnow, hmemory, hctr, hlinks, hstp, hcaddy⟩ := u.mainOff_clears (State.twf_links (hruns.wf hw))
  have hmgmt := State.mem_mgmt_mainOff hmem
  rw [hreset] at hnext hframe
  clear hreset
  generalize u.mainOff = v at *
  exact ⟨v.begun, hnext, rfl, hrails, hnow, hmemory, hctr, hlinks, hstp,
    (congrArg Caddy.ready hcaddy).trans (hready.trans hr), hmgmt, hframe⟩

/-- O30's clause for a MODULE reset at the owner's request. -/
theorem exec_moduleReset_request (h : s.Obeys r (writeOf resetCtrlId 4 4) x) :
    ∃ t, exec (.moduleReset (some r)) s = .next t ∧ t.caddy.ready = false ∧ t.caddy.sessions = [] ∧
      t.caddy.owner = none ∧ t.power.main = .off ∧ t.flash.log = s.flash.log ∧ (∀ c, (t.stp c).st = .idle) ∧
      replyTo r 0x11 r.session r.epoch 0 [] ∈ t.out.mgmt := by
  obtain ⟨u, hexec, hruns, -, -, hmem⟩ := (State.operates_of_obeys h rfl).resets (k := 4) (by decide) fun _ => rfl
  obtain ⟨⟨hready, hsessions, howner⟩, hmain, -, hlog, -, hst, -⟩ := u.moduleReset_leaves
  have hflash : u.flash = s.flash := hruns.same .flash rfl
  exact ⟨u.moduleReset, hexec, hready, hsessions, howner, hmain, hlog.trans (congrArg Flash.log hflash), hst,
    State.mem_mgmt_moduleReset hmem⟩

end

/-- Settles O30: what each scope clears is what the main domain's going off, a context's discard and the cold start leave. -/
theorem resetsClearTheirScope : Obligations.ResetsClearTheirScope := by
  intro s r x hw
  refine ⟨fun c hc h => exec_contextReset_request hw hc h, fun c hc => exec_contextReset_flr hw hc,
    fun h => exec_computeReset_clears hw h, fun h hrec h50 hcool hclk h5 hsens hstk _ hl =>
      exec_mainReset_sequences hw h hrec h50 hcool hclk h5 hsens hstk hl,
    fun h => exec_moduleReset_request h, fun hl h5 => ?_, fun hl => ?_, fun hl h5 => ?_⟩
  · have hpin : s.resetPin = s.moduleReset := (if_neg (by simp [hl])).trans (if_pos h5)
    obtain ⟨⟨hready, hsessions, howner⟩, hmain, hstop, hlog, hfault, -, hslot⟩ := s.moduleReset_leaves
    exact ⟨s.moduleReset, congrArg Host.Outcome.next hpin, hready, hsessions, howner, hmain, hstop, hlog, hfault, hslot⟩
  · exact ⟨_, congrArg Host.Outcome.next (if_pos hl), rfl⟩
  · exact congrArg Host.Outcome.next ((if_neg (by simp [hl])).trans (if_neg (by simp [h5])))

end Sys2Proof.Machine
end

