-- ==== Sys2Proof/Proofs/HostPages.lean ====
section
/-!
PROOF. The pages of the host interface: their registers, interrupts and submission queues (R458 to R460).
-/

namespace Sys2Proof.Machine

/-! Pages and their interrupts. -/

/-- The table of pages is canonical. -/
def PagesOk (s : State) : Prop := twf .init s.host.pages = true

theorem PagesOk.setPage {s : State} (h : PagesOk s) (c : Nat) (x : Page) : PagesOk (s.setPage c x) := twf_tset _ _ _ h

theorem State.host_intSend (s : State) (c : Nat) : (s.intSend c).host = s.host := by
  unfold State.intSend
  split <;> rfl

/-- A page with bits of INT_STATUS set. -/
def Page.raised (p : Page) (b : Nat) : Page := { p with intStatus := p.intStatus ||| b }

theorem State.host_interrupt (s : State) (c b : Nat) : (s.interrupt c b).host = (s.setPage c ((s.page c).raised b)).host := by
  unfold State.interrupt
  dsimp only
  split
  · exact State.host_intSend ..
  · rfl

section
variable {s : State} (h : PagesOk s)
include h

theorem State.page_interrupt (c b d : Nat) : (s.interrupt c b).page d = if d = c then (s.page c).raised b else s.page d :=
  (State.page_congr (State.host_interrupt s c b) d).trans (State.page_setPage h c d _)

theorem State.page_modPage (c d : Nat) (f : Page → Page) : (s.modPage c f).page d = if d = c then f (s.page c) else s.page d :=
  State.page_setPage h c d _

theorem State.page_hostErr (b addr : Nat) {c : Nat} (hc : c ≠ 15) : (s.hostErr b addr).page c = s.page c :=
  (State.page_interrupt (s := s.setHost { s.host with
    firstAddr := if s.host.err = 0 then addr else s.host.firstAddr, err := s.host.err ||| b }) h 15 16 c).trans (if_neg hc)

end

/-- The host control block's errors after one more. -/
theorem State.err_hostErr (s : State) (b addr : Nat) : (s.hostErr b addr).host.err = s.host.err ||| b ∧
    (s.hostErr b addr).host.firstAddr = if s.host.err = 0 then addr else s.host.firstAddr := by
  unfold State.hostErr
  dsimp only
  rw [State.host_interrupt]
  exact ⟨rfl, rfl⟩

/-! Writes of a page (R458). -/

section
variable {s : State} {c off v : Nat}

theorem State.pageWrite_acts (hup : s.host.up = true) (hm : s.power.main = .ready) (hw : s.pageWaits c = false) :
    s.pageWrite c off v = s.pageAct c off v := by
  rw [State.pageWrite, if_neg (by simp [hup]), if_neg (by simp [hm]), if_neg (by simp [hw])]

theorem State.pageWrite_waits (hup : s.host.up = true) (hm : s.power.main = .ready) (hw : s.pageWaits c = true) :
    s.pageWrite c off v = s.modPage c (fun p => { p with later := p.later ++ [(off, v)] }) := by
  rw [State.pageWrite, if_neg (by simp [hup]), if_neg (by simp [hm]), if_pos hw]

theorem State.pageWrite_early (hup : s.host.up = true) (hm : s.power.main ≠ .ready) :
    s.pageWrite c off v = s.hostErr 4 (0x100000 + c * 0x10000 + off) := by
  rw [State.pageWrite, if_neg (by simp [hup]), if_pos hm]

theorem State.pageAct_sqTail (hc : c < 15) : s.pageAct c 0 v =
    if sqOn (s.sqCfg c) ∧ v < sqEntries (s.sqCfg c) then s.setPage c { s.page c with sqTail := v } else s.doorbellErr c := by
  unfold State.pageAct
  dsimp only
  rw [if_neg (by decide), if_neg (by decide), if_neg (by omega), if_pos rfl]

theorem State.pageAct_cplHead (hc : c < 15) : s.pageAct c 8 v =
    if v < s.ov (cplRingEntriesId + c) then s.setPage c { s.page c with cplHead := v } else s.doorbellErr c := by
  unfold State.pageAct
  dsimp only
  rw [if_neg (by decide), if_neg (by decide), if_neg (by omega), if_neg (by decide), if_pos rfl]

end

/-! Submission queues (R459). -/

/-- An entry has left its queue. -/
def Page.took (p : Page) (n : Nat) : Page := { p with sqHead := (p.sqHead + 1) % n, sqHeld := none }

/-- An entry that found its list full, kept. -/
def Page.kept (p : Page) (d : WorkDesc) : Page := { p with flags := p.flags ||| 1, sqHeld := some d }

/-- A queue that stopped at an entry. -/
def Page.stopped (p : Page) : Page := { p with flags := p.flags ||| 2, sqStopped := true }

theorem State.post_setOut (s : State) (o : Outputs) (c target : Nat) (d : WorkDesc) :
    (s.setOut o).post c target d = (s.post c target d).map (·.setOut o) := by
  by_cases hlist : (s.dieList (if target = 4 then s.anyDie else target)).length < 4096
  · rw [show s.post c target d = some _ from if_pos hlist]
    exact if_pos hlist
  · by_cases hover : s.overRoom c = true
    · rw [show s.post c target d = some _ from (if_neg hlist).trans (if_pos hover)]
      exact (if_neg hlist).trans (if_pos hover)
    · rw [show s.post c target d = none from (if_neg hlist).trans (if_neg hover)]
      exact (if_neg hlist).trans (if_neg hover)

section
variable {s : State} {c : Nat} {d : WorkDesc}

theorem State.sqOffer_posted {u : State} (h : s.post c (sqTarget (s.sqCfg c)) d = some u) :
    s.sqOffer c d = u.modPage c (·.took (sqEntries (s.sqCfg c))) := by
  rw [State.sqOffer, h]
  change u.modPage c (·.took (sqEntries (u.sqCfg c))) = _
  rw [State.sqCfg, State.ov_congr ((State.post_runs h).same .obj rfl), State.sqCfg]

theorem State.sqOffer_full (h : s.post c (sqTarget (s.sqCfg c)) d = none) :
    s.sqOffer c d = ((s.modPage c (·.kept d)).bump listFullCountId).interrupt c 8 := by
  rw [State.sqOffer, h]
  rfl

/-- The queue's host reads so far, with one more where its ring is in the host. -/
def Outputs.queueRead (o : Outputs) (host : Bool) (c a : Nat) : Outputs :=
  { o with reads := o.reads ++ if host then [(c + 1, a)] else [] }

/-- Device address of the entry at the head of a context's queue. -/
def State.sqAt (s : State) (c : Nat) : Nat := sqBase (s.sqCfg c) + 128 * (s.page c).sqHead

/-- The entry at the head of a context's queue. -/
def State.sqEntry (s : State) (c : Nat) (b : List Byte) : WorkDesc :=
  BitVec.ofNat 1024 (leNat (if sqHost (s.sqCfg c) then padTo 128 b else s.loadDev (s.sqAt c) 128))

/-- The entry at the head of a context's queue is read. -/
def State.sqRead (s : State) (c : Nat) : State := s.setOut (s.out.queueRead (sqHost (s.sqCfg c)) c (s.sqAt c))

theorem State.sqRead_eq (s : State) (c : Nat) : s.sqRead c =
    if sqHost (s.sqCfg c) then s.setOut { s.out with reads := s.out.reads ++ [(c + 1, s.sqAt c)] } else s := by
  rw [State.sqRead, Outputs.queueRead]
  split
  · rfl
  · rw [List.append_nil]
    rfl

theorem State.sqTake_eq {ok : Bool} {b : List Byte} (hr : s.sqRuns c = true) (hh : (s.page c).sqHeld = none) :
    s.sqTake c ok b = if ok = false ∨ (sqHost (s.sqCfg c) = false ∧ s.anyPoison (s.sqAt c) 128 = true) then (s.sqRead c).sqError c
      else (s.sqRead c).sqOffer c (s.sqEntry c b) := by
  unfold State.sqTake
  dsimp only
  rw [if_pos ⟨hr, hh⟩, ← State.sqAt, ← State.sqRead_eq]
  rfl

end

/-- A context's page once its queue's entry has been read as posted, refused or not at all. -/
theorem State.page_sqOffer_full {s : State} (h : PagesOk s) {c : Nat} {d : WorkDesc}
    (hpost : s.post c (sqTarget (s.sqCfg c)) d = none) : (s.sqOffer c d).page c = ((s.page c).kept d).raised 8 := by
  have hset : ((s.modPage c (·.kept d)).bump listFullCountId).page c = (s.page c).kept d :=
    (State.page_modPage h c c (·.kept d)).trans (if_pos rfl)
  rw [State.sqOffer_full hpost, State.page_interrupt (s := (s.modPage c (·.kept d)).bump listFullCountId) (h.setPage c _),
    if_pos rfl, hset]

theorem State.page_sqError {s : State} (h : PagesOk s) (c : Nat) : (s.sqError c).page c = (s.page c).stopped.raised 8 := by
  have hset : (s.modPage c Page.stopped).page c = (s.page c).stopped := (State.page_modPage h c c _).trans (if_pos rfl)
  rw [State.sqError]
  exact (State.page_interrupt (s := s.modPage c Page.stopped) (h.setPage c _) c 8 c).trans
    ((if_pos rfl).trans (congrArg (Page.raised · 8) hset))

theorem bit_or_pow (v b : Nat) : bit (v ||| 2 ^ b) b = true := by
  rw [bit_eq_testBit]
  simp [Nat.testBit_or, Nat.testBit_two_pow_self]

/-- Settles O31: a write of SQ_TAIL by the page's state, an entry by what `post` answers for it. -/
theorem submissionQueuesPostTheirEntries : Obligations.SubmissionQueuesPostTheirEntries := by
  intro s c hw hc hup
  have hpages : PagesOk s := State.twf_pages hw
  have hctx : ctxOk c = true := decide_eq_true (show c < 16 by omega)
  have htail (v : Nat) : exec (.sqTailWrite c v) s = .next (s.pageWrite c 0 v) := need_of hctx _
  refine ⟨fun v hm hwait hon hlt => ?_, fun v hm hwait hbad => ?_, fun v hm hwait => ?_, fun v hm => ?_,
    fun ok b hr hh => ⟨fun hread => ⟨fun u hpost => ?_, fun hpost => ?_⟩, fun hread => ?_⟩, fun d u hr hh hpost => ?_⟩
  · have hact : s.pageWrite c 0 v = s.setPage c { s.page c with sqTail := v } :=
      (State.pageWrite_acts hup hm hwait).trans ((State.pageAct_sqTail hc).trans (if_pos ⟨hon, hlt⟩))
    exact ⟨_, (htail v).trans (congrArg _ hact), (State.page_setPage hpages c c _).trans (if_pos rfl),
      fun d hd => (State.page_setPage hpages c d _).trans (if_neg hd), (State.setPage_runs ..).frame⟩
  · have hact : s.pageWrite c 0 v = s.doorbellErr c :=
      (State.pageWrite_acts hup hm hwait).trans ((State.pageAct_sqTail hc).trans (if_neg hbad))
    exact ⟨_, (htail v).trans (congrArg _ hact), (State.page_modPage hpages c c _).trans (if_pos rfl),
      (State.modPage_runs ..).frame⟩
  · exact ⟨_, (htail v).trans (congrArg _ (State.pageWrite_waits hup hm hwait)),
      (State.page_modPage hpages c c _).trans (if_pos rfl), fun d hd => (State.page_modPage hpages c d _).trans (if_neg hd),
      (State.modPage_runs ..).frame⟩
  · refine ⟨_, (htail v).trans (congrArg _ (State.pageWrite_early hup hm)), ?_, (State.err_hostErr ..).1, (State.hostErr_runs ..).frame⟩
    rw [State.page_hostErr hpages 4 _ (by omega)]
  · have heq : s.sqTake c ok b = (u.setOut (s.out.queueRead (sqHost (s.sqCfg c)) c (s.sqAt c))).modPage c
        (·.took (sqEntries (s.sqCfg c))) := by
      refine (State.sqTake_eq hr hh).trans ((if_neg hread).trans (State.sqOffer_posted ?_))
      exact (State.post_setOut ..).trans (congrArg (Option.map _) hpost)
    have hruns := State.post_runs hpost
    have hpage : u.page c = s.page c := State.page_congr (hruns.same .host rfl) c
    have hpages' : PagesOk u := State.twf_pages (hruns.wf hw)
    have htook := (State.page_modPage (s := u.setOut (s.out.queueRead (sqHost (s.sqCfg c)) c (s.sqAt c))) hpages' c c
      (·.took (sqEntries (s.sqCfg c)))).trans (if_pos rfl)
    refine ⟨_, (need_of hctx _).trans (congrArg _ heq), rfl, ?_, ?_, rfl, ?_⟩
    · rw [htook]
      exact congrArg (fun p : Page => (p.sqHead + 1) % sqEntries (s.sqCfg c)) hpage
    · rw [htook]
      rfl
    · exact (Runs.comp (State.modPage_runs ..) rfl (.comp (State.setOut_runs ..) rfl (hruns.mono rfl))).frame
  · have heq : s.sqTake c ok b = (s.sqRead c).sqOffer c (s.sqEntry c b) := (State.sqTake_eq hr hh).trans (if_neg hread)
    have hnone : (s.sqRead c).post c (sqTarget ((s.sqRead c).sqCfg c)) (s.sqEntry c b) = none :=
      (State.post_setOut ..).trans (congrArg (Option.map _) hpost)
    have hpage := State.page_sqOffer_full (s := s.sqRead c) hpages hnone
    have hov : ((s.sqRead c).sqOffer c (s.sqEntry c b)).ov listFullCountId = satAdd 32 1 (s.ov listFullCountId) := by
      rw [State.sqOffer_full hnone, State.ov_congr ((State.interrupt_runs ..).same .obj rfl),
        State.ov_bump (s := (s.sqRead c).modPage c (·.kept (s.sqEntry c b))) (State.keysFrom_vals (s := s) hw :), if_pos rfl]
      rfl
    have hframe : Frame [.host, .obj, .out] s ((s.sqRead c).sqOffer c (s.sqEntry c b)) := by
      rw [State.sqOffer_full hnone]
      exact (Runs.comp (State.interrupt_runs ..) rfl (.comp (State.bump_runs ..) rfl (.comp (State.modPage_runs ..) rfl
        ((State.setOut_runs ..).mono rfl)))).frame
    refine ⟨_, (need_of hctx _).trans (congrArg _ heq), ?_, ?_, ?_, ?_, ?_, hframe⟩
    · rw [hpage]
      exact bit_or_pow _ 0
    · rw [hpage]
      rfl
    · rw [hpage]
      rfl
    · rw [hpage]
      exact bit_or_pow _ 3
    · rw [hov, satAdd, Nat.add_comm]
  · have heq : s.sqTake c ok b = (s.sqRead c).sqError c := (State.sqTake_eq hr hh).trans (if_pos hread)
    have hpage := State.page_sqError (s := s.sqRead c) hpages c
    refine ⟨_, (need_of hctx _).trans (congrArg _ heq), ?_, ?_, ?_, ?_⟩
    · rw [hpage]
      exact bit_or_pow _ 1
    · rw [hpage]
      rfl
    · rw [hpage]
      exact bit_or_pow _ 3
    · exact (Runs.comp (State.sqError_runs ..) rfl ((State.setOut_runs ..).mono rfl)).frame
  · have heq : s.sqRetry c = u.modPage c (·.took (sqEntries (s.sqCfg c))) := by
      rw [State.sqRetry, hh]
      exact (if_pos hr).trans (State.sqOffer_posted hpost)
    have hruns := State.post_runs hpost
    have hpage : u.page c = s.page c := State.page_congr (hruns.same .host rfl) c
    have htook := (State.page_modPage (s := u) (State.twf_pages (hruns.wf hw)) c c
      (·.took (sqEntries (s.sqCfg c)))).trans (if_pos rfl)
    refine ⟨_, (need_of hctx _).trans (congrArg _ heq), rfl, ?_, ?_, (Runs.comp (State.modPage_runs ..) rfl (hruns.mono rfl)).frame⟩
    · rw [htook]
      exact congrArg (fun p : Page => (p.sqHead + 1) % sqEntries (s.sqCfg c)) hpage
    · rw [htook]
      rfl

end Sys2Proof.Machine
end

