-- ==== Sys2Proof/Proofs/HostRegisters.lean ====
section
/-!
PROOF. Writes of the host's registers, of a mailbox's request buffer and of a page's interrupts (R456, R458, R460, R462).
-/

namespace Sys2Proof.Machine

/-! A write acts on the registers that its bytes cover (R456, R458). -/

/-- A register lies beside the `n` bytes of a write at `off`. -/
def HostReg.beside (base off n : Nat) (r : HostReg) : Bool :=
  decide (0 < r.size) && (decide (base + r.off + r.size ≤ off) || decide (off + n ≤ base + r.off))

theorem writeRegs_beside {base off : Nat} {b : List Byte} {rs : List HostReg}
    (h : rs.all (HostReg.beside base off b.length) = true) (s : State) : writeRegs base off b rs s = s := by
  induction rs generalizing s with
  | nil => rfl
  | cons r rs ih =>
    simp only [List.all_cons, Bool.and_eq_true, HostReg.beside, Bool.or_eq_true, decide_eq_true_eq] at h
    obtain ⟨⟨hsize, hbeside⟩, hrest⟩ := h
    have hone : writeRegs base off b (r :: rs) s = writeRegs base off b rs s := by
      rw [writeRegs, List.foldl_cons]
      dsimp only
      rw [if_neg (by omega)]
      cases r.rest s with
      | none => rfl
      | some v =>
        dsimp only
        rw [if_neg (by omega)]
        rfl
    rw [hone]
    exact ih (by simpa only [HostReg.beside] using hrest) s

/-- A write that covers exactly one register. -/
theorem writeRegs_one {base off : Nat} {b : List Byte} {pre post : List HostReg} {r : HostReg}
    (hpre : pre.all (HostReg.beside base off b.length) = true) (hpost : post.all (HostReg.beside base off b.length) = true)
    (hoff : off = base + r.off) (hlen : b.length = r.size) (s : State) :
    writeRegs base off b (pre ++ r :: post) s = r.act (leNat b) s := by
  have hsplit : writeRegs base off b (pre ++ r :: post) s = writeRegs base off b post
      (writeRegs base off b [r] (writeRegs base off b pre s)) := by
    simp only [writeRegs, List.foldl_append, List.foldl_cons, List.foldl_nil]
  have hword : wordAt b (base + r.off - off) r.size = leNat b := by
    rw [wordAt, hoff, Nat.sub_self, List.drop_zero, ← hlen, List.take_length]
  rw [hsplit, writeRegs_beside hpre, writeRegs_beside hpost]
  exact (if_pos (by omega)).trans (congrArg (fun v => r.act v s) hword)

section
variable {s : State}

theorem State.regWrite_control (hup : s.host.up = true) {off : Nat} (h : off < 0x1000) (b : List Byte) :
    s.regWrite off b = writeRegs 0 off b controlRegs s := by
  rw [State.regWrite, if_neg (by simp [hup]), if_pos h]

theorem State.regWrite_mailbox (hup : s.host.up = true) {off : Nat} (h : 0x1000 ≤ off) (h' : off < 0x100000) (b : List Byte) :
    s.regWrite off b = (s.mbxStore 0 off b).mbxStore 1 off b := by
  rw [State.regWrite, if_neg (by simp [hup]), if_neg (by omega), if_pos h']

theorem State.regWrite_page (hup : s.host.up = true) (hm : s.power.main = .ready) {c o : Nat} (hc : c < 15) (ho : o < 0x10000)
    (b : List Byte) :
    s.regWrite (0x100000 + 0x10000 * c + o) b = writeRegs (0x100000 + 0x10000 * c) (0x100000 + 0x10000 * c + o) b (pageRegs c) s := by
  have hpage : (0x100000 + 0x10000 * c + o - 0x100000) / 0x10000 = c := by omega
  rw [State.regWrite, if_neg (by simp [hup]), if_neg (by omega), if_neg (by omega), if_pos (by omega), hpage, State.pageAreaWrite,
    if_neg (by simp [hm])]

theorem State.regWrite_bar2Base (hup : s.host.up = true) {b : List Byte} (hb : b.length = 8) :
    s.regWrite 8 b = s.bar2Write (leNat b) := by
  rw [State.regWrite_control hup (by decide)]
  refine writeRegs_one (r := ⟨8, 8, fun s => some s.host.bar2Base, State.bar2Write⟩) (pre := []) (post := controlRegs.tail) rfl ?_ rfl hb s
  rw [hb]
  decide

theorem State.regWrite_err (hup : s.host.up = true) {b : List Byte} (hb : b.length = 4) :
    s.regWrite 0x180 b = s.errClear (leNat b) := by
  rw [State.regWrite_control hup (by decide)]
  refine writeRegs_one (r := ⟨0x180, 4, flagsOnly, State.errClear⟩) (pre := controlRegs.dropLast) (post := []) ?_ rfl rfl hb s
  rw [hb]
  decide

theorem State.regWrite_cplHead (hup : s.host.up = true) (hm : s.power.main = .ready) {c : Nat} (hc : c < 15) {b : List Byte}
    (hb : b.length = 4) : s.regWrite (0x100008 + 0x10000 * c) b = s.cplHeadWrite c (leNat b) := by
  have hoff : 0x100008 + 0x10000 * c = 0x100000 + 0x10000 * c + 8 := by omega
  rw [hoff, State.regWrite_page hup hm hc (by decide)]
  refine writeRegs_one (r := ⟨8, 4, fun s => some (s.page c).cplHead, State.cplHeadWrite c⟩) (pre := (pageRegs c).take 1) (post := (pageRegs c).drop 2) ?_ ?_ rfl hb s
  all_goals simp [pageRegs, HostReg.beside, hb]; try omega

end

/-! Bytes of a mailbox's request buffer (R456). -/

/-- Stored bytes other than 0 are read back whatever the table. -/
theorem tget_tstore_of_ne_zero (t : Tbl Byte) (a : Nat) {bs : List Byte} {i : Nat} {x : Byte} (h : bs[i]? = some x) (hx : x ≠ 0) :
    tget 0 (tstore t a bs) (a + i) = x := by
  induction bs generalizing t a i with
  | nil => cases h
  | cons b bs ih =>
    rw [tstore]
    cases i with
    | zero =>
      cases h
      rw [tget_tstore_of_outside _ _ _ (by omega)]
      exact tget_tset_self_of_ne 0 t a hx
    | succ i =>
      have := ih (tset 0 t a b) (a + 1) h
      rwa [Nat.add_assoc, Nat.add_comm 1 i] at this

/-- The table of mailboxes is canonical. -/
def MbxOk (s : State) : Prop := twf .init s.host.mbx = true

/-- A mailbox with bytes of a write in its request buffer. -/
def Mailbox.stored (k : Mailbox) (a : Nat) (b : List Byte) : Mailbox := { k with request := tstore k.request a b }

/-- One byte of a write at `off`, the byte's number with it, is stored in a mailbox's request buffer where it falls there. -/
def State.mbxByte (s : State) (m off : Nat) (x : Byte × Nat) : State :=
  let base := 0x4000 + 0x4000 * m
  let a := off + x.2
  if base ≤ a ∧ a < base + 0x2000 then
    let k := s.mailbox m
    s.setMailbox m { k with request := tset 0 k.request (a - base) x.1 }
  else s

theorem State.mbxStore_eq (m off : Nat) (b : List Byte) (s : State) :
    s.mbxStore m off b = b.zipIdx.foldl (fun s x => s.mbxByte m off x) s := rfl

theorem State.mbxBytes_beside {m off : Nat} {b : List Byte} {k : Nat}
    (h : off + k + b.length ≤ 0x4000 + 0x4000 * m ∨ 0x6000 + 0x4000 * m ≤ off + k) (s : State) :
    (b.zipIdx k).foldl (fun s x => s.mbxByte m off x) s = s := by
  induction b generalizing k with
  | nil => rfl
  | cons x xs ih =>
    rw [List.length_cons] at h
    have hone : s.mbxByte m off (x, k) = s := if_neg (by dsimp only; omega)
    rw [List.zipIdx_cons, List.foldl_cons, hone]
    exact ih (by omega)

theorem State.mailbox_mbxBytes {m off : Nat} {b : List Byte} {k : Nat} {s : State} (hs : MbxOk s)
    (h : 0x4000 + 0x4000 * m ≤ off + k) (h' : off + k + b.length ≤ 0x6000 + 0x4000 * m) (n : Nat) :
    ((b.zipIdx k).foldl (fun s x => s.mbxByte m off x) s).mailbox n =
      if n = m then (s.mailbox m).stored (off + k - (0x4000 + 0x4000 * m)) b else s.mailbox n := by
  induction b generalizing k s with
  | nil =>
    split
    case isTrue hn => rw [hn]; rfl
    case isFalse => rfl
  | cons x xs ih =>
    rw [List.length_cons] at h'
    obtain ⟨y, hy⟩ : ∃ y, y = (s.mailbox m).stored (off + k - (0x4000 + 0x4000 * m)) [x] := ⟨_, rfl⟩
    have hone : s.mbxByte m off (x, k) = s.setMailbox m y := by
      rw [hy]
      exact if_pos (by dsimp only; omega)
    have hset (j : Nat) : (s.setMailbox m y).mailbox j = if j = m then y else s.mailbox j := State.mailbox_setMailbox hs m j y
    have hself : (s.setMailbox m y).mailbox m = y := (hset m).trans (if_pos rfl)
    have hnext : off + (k + 1) - (0x4000 + 0x4000 * m) = off + k - (0x4000 + 0x4000 * m) + 1 := by omega
    rw [List.zipIdx_cons, List.foldl_cons, hone, ih (s := s.setMailbox m y) (twf_tset _ _ _ hs) (by omega) (by omega), hself, hnext]
    split
    · rw [hy]
      rfl
    · next hn => exact (hset n).trans (if_neg hn)

/-- A write inside one mailbox's request buffer. -/
theorem State.regWrite_request {s : State} (hup : s.host.up = true) (hs : MbxOk s) {m o : Nat} {b : List Byte} (hm : m < 2)
    (ho : o + b.length ≤ 0x2000) (n : Nat) :
    (s.regWrite (0x4000 + 0x4000 * m + o) b).mailbox n = if n = m then (s.mailbox m).stored o b else s.mailbox n := by
  have hat : 0x4000 + 0x4000 * m + o + 0 - (0x4000 + 0x4000 * m) = o := by omega
  have hinside (t : State) (ht : MbxOk t) := State.mailbox_mbxBytes (k := 0) ht (show 0x4000 + 0x4000 * m ≤ 0x4000 + 0x4000 * m + o + 0 by omega)
    (show 0x4000 + 0x4000 * m + o + 0 + b.length ≤ 0x6000 + 0x4000 * m by omega) n
  rw [hat] at hinside
  rw [State.regWrite_mailbox hup (by omega) (by omega), State.mbxStore_eq, State.mbxStore_eq]
  obtain rfl | rfl : m = 0 ∨ m = 1 := by omega
  · rw [State.mbxBytes_beside (k := 0) (by omega)]
    exact hinside s hs
  · rw [State.mbxBytes_beside (m := 0) (k := 0) (by omega)]
    exact hinside s hs

theorem State.regWrite_mailbox_runs {s : State} (hup : s.host.up = true) {off : Nat} (h : 0x1000 ≤ off) (h' : off < 0x100000)
    (b : List Byte) : Runs [.host] s (s.regWrite off b) := by
  rw [State.regWrite_mailbox hup h h']
  exact .comp (State.mbxStore_runs ..) rfl (State.mbxStore_runs ..)

/-! The interrupts of a page (R460). -/

theorem State.msi_intSend (s : State) (c : Nat) : (s.intSend c).out.msi.length = s.out.msi.length + 1 := by
  unfold State.intSend
  split <;> exact List.length_append

/-- A page after a write of INT_STATUS or INT_MASK, which sends a message where `p` says so. -/
def State.pageSent (s : State) (c : Nat) (x : Page) (p : Prop) [Decidable p] : State :=
  if p then (s.setPage c x).intSend c else s.setPage c x

section
variable {s : State} {c : Nat} {x : Page} {p : Prop} [Decidable p]

theorem State.host_pageSent : (s.pageSent c x p).host = (s.setPage c x).host := by
  unfold State.pageSent
  split
  · exact State.host_intSend ..
  · rfl

theorem State.page_pageSent (h : PagesOk s) (d : Nat) : (s.pageSent c x p).page d = if d = c then x else s.page d :=
  (State.page_congr State.host_pageSent d).trans (State.page_setPage h c d x)

theorem State.msi_pageSent : (s.pageSent c x p).out.msi.length = s.out.msi.length + if p then 1 else 0 := by
  unfold State.pageSent
  split
  · exact State.msi_intSend ..
  · rfl

theorem State.pageSent_runs : Runs [.host, .out] s (s.pageSent c x p) :=
  .ite (fun _ => .comp (State.intSend_runs ..) rfl ((State.setPage_runs ..).mono rfl)) fun _ => (State.setPage_runs ..).mono rfl

end

/-- A page of which a write cleared bits of INT_STATUS. -/
def Page.intCleared (p : Page) (v : Nat) : Page := { p with intStatus := p.intStatus - (p.intStatus &&& v) }

/-- A page with another INT_MASK. -/
def Page.masked (p : Page) (v : Nat) : Page := { p with intMask := v % 2 ^ 32 }

theorem State.pageAct_intStatus (s : State) (c v : Nat) : s.pageAct c 0x10 v = s.pageSent c ((s.page c).intCleared v)
    (((s.page c).intCleared v).intStatus ≠ (s.page c).intStatus ∧ ((s.page c).intCleared v).unmasked ≠ 0) := by
  unfold State.pageAct
  dsimp only
  rw [if_pos rfl]
  rfl

theorem State.pageAct_intMask (s : State) (c v : Nat) : s.pageAct c 0x14 v = s.pageSent c ((s.page c).masked v)
    ((s.page c).unmasked = 0 ∧ ((s.page c).masked v).unmasked ≠ 0) := by
  have hbits : bits v 0 32 = v % 2 ^ 32 := by rw [bits, Nat.pow_zero, Nat.div_one]
  unfold State.pageAct
  dsimp only
  rw [if_neg (by decide), if_pos rfl, hbits]
  rfl

end Sys2Proof.Machine
end

