-- ==== Sys2Proof/Proofs/HostWindows.lean ====
section
/-!
PROOF. The windows into device memory, and the host's accesses as a whole (R288, R293, R301, R457, R462).
-/

namespace Sys2Proof.Machine

/-! What the error checks of an access change: the poison of the granules in which they found an uncorrectable error. -/

/-- The host interface without its pages. -/
def HostIf.beyond (h : HostIf) : HostIf := { h with pages := [] }

/-- What no error check changes: the host interface but its pages, the GDDR7 and the bytes. -/
def State.reach (s : State) : HostIf × GddrSt × Tbl Byte := (s.host.beyond, s.mem.gddr, s.mem.bytes)

theorem State.reach_interrupt (s : State) (c b : Nat) : (s.interrupt c b).reach = s.reach := by
  have hmem : (s.interrupt c b).mem = s.mem := (State.interrupt_runs ..).same .mem rfl
  rw [State.reach, State.host_interrupt, hmem]
  rfl

theorem State.memOf_congr {s t : State} (h : t.mem.gddr = s.mem.gddr) (a : Nat) : t.memOf a = s.memOf a := by
  rw [State.memOf, h, State.memOf]

theorem State.mapped_congr {s t : State} (h : t.mem.gddr = s.mem.gddr) (a : Nat) : t.mapped a = s.mapped a := by
  rw [State.mapped, State.memOf_congr h]
  rfl

/-- An error whose granule becomes poisoned (R301). -/
def poisonsGranule (e : MemErr) : Bool :=
  match e with
  | .uncorrectable _ => true
  | _ => false

theorem State.reach_setOv (s : State) (id v : Nat) : (s.setOv id v).reach = s.reach ∧ (s.setOv id v).mem = s.mem := ⟨rfl, rfl⟩

theorem State.reach_bump (s : State) (id : Nat) : (s.bump id).reach = s.reach ∧ (s.bump id).mem = s.mem := ⟨rfl, rfl⟩

/-- A granule becomes poisoned. -/
def State.poisonSet (s : State) (g : Nat) : State := s.setMem { s.mem with poison := tset false s.mem.poison g true }

theorem State.reach_poisonSet (s : State) (g : Nat) : (s.poisonSet g).reach = s.reach := rfl

/-- What `poisonAt` does beyond the granule's poison: an object's count, an interrupt, and the log of the first error. -/
theorem State.poisonAt_eq {s : State} {a m : Nat} (hm : s.memOf a = some m) (hp : s.poisoned a = false) (k : Nat) :
    ∃ v, s.poisonAt a k = ((s.poisonSet (a / 64)).bump (memUeCountId + m)).interrupt 15 4 ∨
      s.poisonAt a k = (((s.poisonSet (a / 64)).bump (memUeCountId + m)).interrupt 15 4).setOv memErrLogId v := by
  unfold State.poisonAt
  rw [hm]
  dsimp only
  rw [if_neg (by simp [hp])]
  split
  · exact ⟨0, .inl rfl⟩
  · exact ⟨_, .inr rfl⟩

theorem State.poisonAt_of_none {s : State} {a : Nat} (h : ¬((s.memOf a).isSome = true ∧ s.poisoned a = false)) (k : Nat) :
    s.poisonAt a k = s := by
  unfold State.poisonAt
  split
  · rfl
  · next m hm =>
    have hp : s.poisoned a = true := by simpa [hm] using h
    exact if_pos hp

theorem State.mem_interrupt (s : State) (c b : Nat) : (s.interrupt c b).mem = s.mem := (State.interrupt_runs ..).same .mem rfl

theorem State.reach_poisonAt (s : State) (a k : Nat) : (s.poisonAt a k).reach = s.reach := by
  by_cases h : (s.memOf a).isSome = true ∧ s.poisoned a = false
  · obtain ⟨m, hm⟩ := Option.isSome_iff_exists.mp h.1
    obtain ⟨v, heq | heq⟩ := State.poisonAt_eq hm h.2 k
    · rw [heq, State.reach_interrupt, (State.reach_bump ..).1, State.reach_poisonSet]
    · rw [heq, (State.reach_setOv ..).1, State.reach_interrupt, (State.reach_bump ..).1, State.reach_poisonSet]
  · rw [State.poisonAt_of_none h]

theorem State.poison_poisonAt (s : State) (a k : Nat) : (s.poisonAt a k).mem.poison =
    if (s.memOf a).isSome = true ∧ s.poisoned a = false then tset false s.mem.poison (a / 64) true else s.mem.poison := by
  split
  case isTrue h =>
    obtain ⟨m, hm⟩ := Option.isSome_iff_exists.mp h.1
    obtain ⟨v, heq | heq⟩ := State.poisonAt_eq hm h.2 k
    · rw [heq, State.mem_interrupt, (State.reach_bump ..).2]
      rfl
    · rw [heq, (State.reach_setOv ..).2, State.mem_interrupt, (State.reach_bump ..).2]
      rfl
  case isFalse h => rw [State.poisonAt_of_none h]

theorem State.poisoned_poisonAt (s : State) (a k x : Nat) :
    (s.poisonAt a k).poisoned x = (s.poisoned x || ((s.memOf a).isSome && a / 64 == x / 64)) := by
  rw [State.poisoned, State.poison_poisonAt]
  split
  case isTrue h =>
    obtain ⟨hmem, -⟩ := h
    rw [hmem, Bool.true_and]
    by_cases hx : a / 64 = x / 64
    · rw [hx, tget_tset_self_of_ne _ _ _ (by decide)]
      simp
    · rw [tget_tset_of_ne _ _ _ hx, beq_eq_false_iff_ne.mpr hx, Bool.or_false]
      rfl
  case isFalse h =>
    change s.poisoned x = _
    by_cases hx : a / 64 = x / 64
    · have hsame : s.poisoned a = s.poisoned x := by rw [State.poisoned, hx, State.poisoned]
      cases hm : (s.memOf a).isSome with
      | false => simp
      | true =>
        have : s.poisoned x = true := by simpa [hm, hsame] using h
        simp [this]
    · simp [hx]

section
variable (s : State)

theorem State.reach_memErr (a : Nat) (e : MemErr) : (s.memErr a e).reach = s.reach := by
  unfold State.memErr
  cases e with
  | clean => rfl
  | corrected => dsimp only; split <;> rfl
  | uncorrectable k => exact s.reach_poisonAt a k
  | l2Corrected => dsimp only; split <;> rfl
  | l2Lost => rfl

theorem State.poisoned_memErr (a : Nat) (e : MemErr) (x : Nat) :
    (s.memErr a e).poisoned x = (s.poisoned x || (poisonsGranule e && (s.memOf a).isSome && a / 64 == x / 64)) := by
  unfold State.memErr
  cases e with
  | clean => exact (Bool.or_false _).symm
  | corrected => dsimp only; split <;> exact (Bool.or_false _).symm
  | uncorrectable k => exact s.poisoned_poisonAt a k x
  | l2Corrected => dsimp only; split <;> exact (Bool.or_false _).symm
  | l2Lost => exact (Bool.or_false _).symm

/-- The errors that an access's checks found, one by one. -/
def State.memErrAll (es : MemErrs) : State := es.foldl (fun s e => s.memErr e.1 e.2) s

theorem State.reach_memErrAll (es : MemErrs) : (s.memErrAll es).reach = s.reach :=
  foldl_keeps (g := State.reach) (f := fun s (e : Nat × MemErr) => s.memErr e.1 e.2) (fun t e => t.reach_memErr e.1 e.2) es s

theorem State.gddr_of_reach {s t : State} (h : t.reach = s.reach) : t.mem.gddr = s.mem.gddr :=
  congrArg (fun r : HostIf × GddrSt × Tbl Byte => r.2.1) h

theorem State.poisoned_memErrAll (es : MemErrs) (x : Nat) : (s.memErrAll es).poisoned x =
    (s.poisoned x || es.any (fun e => poisonsGranule e.2 && (s.memOf e.1).isSome && e.1 / 64 == x / 64)) := by
  induction es generalizing s with
  | nil => exact (Bool.or_false _).symm
  | cons e es ih =>
    have hmem (a : Nat) := State.memOf_congr (State.gddr_of_reach (s.reach_memErr e.1 e.2)) a
    rw [State.memErrAll, List.foldl_cons, ← State.memErrAll, ih, State.poisoned_memErr, List.any_cons, Bool.or_assoc]
    simp only [hmem]

/-! The bytes that an access through a window reaches (R457). -/

theorem State.winByte_congr_of {s t : State} (hhost : t.host.beyond = s.host.beyond) (hgddr : t.mem.gddr = s.mem.gddr)
    (w : HostWin) (off : Nat) : t.winByte w off = s.winByte w off := by
  have haddr : t.winAddr w off = s.winAddr w off := by
    cases w with
    | pf =>
      have hbase : t.host.bar2Base = s.host.bar2Base := (congrArg HostIf.bar2Base hhost : t.host.beyond.bar2Base = _)
      have hlog : t.host.bar2Log2 = s.host.bar2Log2 := (congrArg HostIf.bar2Log2 hhost : t.host.beyond.bar2Log2 = _)
      rw [State.winAddr, hbase, hlog, State.winAddr]
    | vf n =>
      have hwin : t.host.vfWin = s.host.vfWin := (congrArg HostIf.vfWin hhost : t.host.beyond.vfWin = _)
      rw [State.winAddr, hwin, State.winAddr]
  rw [State.winByte, haddr, State.winByte]
  simp only [State.mapped_congr hgddr]

theorem State.winByte_congr {s t : State} (h : t.reach = s.reach) (w : HostWin) (off : Nat) : t.winByte w off = s.winByte w off :=
  State.winByte_congr_of (congrArg Prod.fst h) (State.gddr_of_reach h) w off

/-- An error lies in a granule of a byte that an access reaches. -/
def State.winTouches (w : HostWin) (off n : Nat) (a : Nat) : Bool :=
  (List.range n).any (fun i => match s.winByte w (off + i) with
    | some b => b / 64 == a / 64
    | none => false)

theorem State.winMet_eq (w : HostWin) (off n : Nat) (errs : MemErrs) :
    s.winMet w off n errs = errs.filter (fun e => s.winTouches w off n e.1) := rfl

theorem State.winErr_eq (w : HostWin) (off n : Nat) (errs : MemErrs) :
    s.winErr w off n errs = s.memErrAll (s.winMet w off n errs) := rfl

theorem State.winTouches_iff {s : State} {w : HostWin} {off n a : Nat} :
    s.winTouches w off n a = true ↔ ∃ i, i < n ∧ ∃ b, s.winByte w (off + i) = some b ∧ b / 64 = a / 64 := by
  rw [State.winTouches, List.any_eq_true]
  constructor
  · rintro ⟨i, hi, h⟩
    cases hb : s.winByte w (off + i) with
    | none => rw [hb] at h; cases h
    | some b => exact ⟨i, List.mem_range.mp hi, b, hb, by rw [hb] at h; exact beq_iff_eq.mp h⟩
  · rintro ⟨i, hi, b, hb, h⟩
    refine ⟨i, List.mem_range.mpr hi, ?_⟩
    rw [hb]
    exact beq_iff_eq.mpr h

theorem State.reach_winErr (w : HostWin) (off n : Nat) (errs : MemErrs) : (s.winErr w off n errs).reach = s.reach :=
  s.reach_memErrAll _

end

/-! A read through a window. -/

theorem any_or_any {α : Type} (xs : List α) (p q : α → Bool) : (xs.any p || xs.any q) = xs.any (fun x => p x || q x) := by
  induction xs with
  | nil => rfl
  | cons x xs ih =>
    simp only [List.any_cons, ← ih]
    cases p x <;> cases q x <;> simp

/-- The L2 lost part of the granule of an address (R292). -/
def lostAt (errs : MemErrs) (a : Nat) : Bool := errs.any (fun e => e.2 == .l2Lost && e.1 / 64 == a / 64)

section
variable {s : State} {w : HostWin} {off n : Nat} {errs : MemErrs}

/-- The granules of which the L2 lost a part, of an access. -/
def State.winLost (s : State) (w : HostWin) (off n : Nat) (errs : MemErrs) : MemErrs :=
  s.winMet w off n (errs.filter (fun e => e.2 == .l2Lost))

theorem State.any_winLost {i a : Nat} (hi : i < n) (ha : s.winByte w (off + i) = some a) :
    (s.winLost w off n errs).any (fun e => e.1 / 64 == a / 64) = lostAt errs a := by
  rw [State.winLost, State.winMet_eq, List.any_filter, List.any_filter, lostAt]
  congr 1
  funext e
  by_cases h : e.1 / 64 = a / 64
  · have htouch : s.winTouches w off n e.1 = true := State.winTouches_iff.mpr ⟨i, hi, a, ha, h.symm⟩
    rw [htouch, Bool.true_and]
  · rw [beq_eq_false_iff_ne.mpr h, Bool.and_false, Bool.and_false]

theorem State.winLost_isEmpty : (!(s.winLost w off n errs).isEmpty) = (List.range n).any (fun i => match s.winByte w (off + i) with
    | some a => lostAt errs a
    | none => false) := by
  rw [Bool.eq_iff_iff, Bool.not_eq_true', List.isEmpty_eq_false_iff_exists_mem, List.any_eq_true]
  constructor
  · rintro ⟨e, he⟩
    rw [State.winLost, State.winMet_eq, List.mem_filter, List.mem_filter] at he
    obtain ⟨⟨hmem, hlost⟩, htouch⟩ := he
    obtain ⟨i, hi, a, ha, hea⟩ := State.winTouches_iff.mp htouch
    refine ⟨i, List.mem_range.mpr hi, ?_⟩
    rw [ha]
    exact List.any_eq_true.mpr ⟨e, hmem, by rw [hlost, hea, beq_self_eq_true]; rfl⟩
  · rintro ⟨i, hi, h⟩
    cases ha : s.winByte w (off + i) with
    | none => rw [ha] at h; cases h
    | some a =>
      rw [ha] at h
      have hany : (s.winLost w off n errs).any (fun e => e.1 / 64 == a / 64) = true :=
        (State.any_winLost (List.mem_range.mp hi) ha).trans h
      obtain ⟨e, he, -⟩ := List.any_eq_true.mp hany
      exact ⟨e, he⟩

/-- What a read through a window gives: the bytes, and the poisoned-TLP bit (R301, R457). -/
def State.winRead (s u : State) (w : HostWin) (off n : Nat) (errs : MemErrs) : List Byte × Bool :=
  ((List.range n).map (fun i => match s.winByte w (off + i) with
      | some a => if u.poisoned a || lostAt errs a then 0 else s.memByte a
      | none => 0),
    (List.range n).any (fun i => match s.winByte w (off + i) with
      | some a => u.poisoned a || lostAt errs a
      | none => false))

/-- The host interface once a read has given its bytes. -/
def HostIf.read (h : HostIf) (r : List Byte × Bool) : HostIf := { h with readOut := r }

theorem State.setRead_runs (s : State) (r : List Byte × Bool) : Runs [.host] s (s.setHost (s.host.read r)) :=
  State.setHost_runs s _ fun h => h

theorem State.hostRead_eq (h : s.winOk w off n = true) : s.hostRead w off n errs =
    ((s.winErr w off n errs).setHost ((s.winErr w off n errs).host.read (s.winRead (s.winErr w off n errs) w off n errs))).winCheck w off n := by
  have hreach := s.reach_winErr w off n errs
  have hbyte (a : Nat) : (s.winErr w off n errs).memByte a = s.memByte a :=
    congrArg (fun r : HostIf × GddrSt × Tbl Byte => tget 0 r.2.2 a) hreach
  refine (if_pos h).trans ?_
  refine congrArg (fun r => ((s.winErr w off n errs).setHost ((s.winErr w off n errs).host.read r)).winCheck w off n)
    (Prod.ext ?_ ?_)
  · dsimp only
    rw [List.map_map]
    refine List.map_congr_left fun i hi => ?_
    rw [Function.comp, State.winByte_congr hreach]
    cases ha : s.winByte w (off + i) with
    | none => rfl
    | some a =>
      dsimp only
      rw [← State.winLost, State.any_winLost (List.mem_range.mp hi) ha, hbyte]
  · dsimp only
    rw [← State.winLost, State.winLost_isEmpty, List.any_map, any_or_any]
    congr 1
    funext i
    rw [Function.comp, State.winByte_congr hreach]
    cases s.winByte w (off + i) with
    | none => rfl
    | some a => exact Bool.or_comm ..

theorem State.winCheck_of_mapped (h : ∀ i, i < n → (s.winByte w (off + i)).isSome = true) : s.winCheck w off n = s := by
  refine if_neg ?_
  rw [List.any_eq_true]
  rintro ⟨i, hi, hnone⟩
  have := h i (List.mem_range.mp hi)
  rw [Option.isNone_iff_eq_none.mp hnone] at this
  cases this

theorem State.err_winCheck {i : Nat} (hi : i < n) (h : s.winByte w (off + i) = none) : bit (s.winCheck w off n).host.err 0 = true := by
  have hany : (List.range n).any (fun i => (s.winByte w (off + i)).isNone) = true :=
    List.any_eq_true.mpr ⟨i, List.mem_range.mpr hi, by rw [h]; rfl⟩
  rw [State.winCheck, if_pos hany, (State.err_hostErr ..).1]
  exact bit_or_pow _ 0

theorem State.readOut_winCheck : (s.winCheck w off n).host.readOut = s.host.readOut := by
  unfold State.winCheck
  split
  · rw [State.hostErr]
    dsimp only
    rw [State.host_interrupt]
    rfl
  · rfl

theorem State.bytes_winCheck (a : Nat) : (s.winCheck w off n).memByte a = s.memByte a := by
  have hmem : (s.winCheck w off n).mem = s.mem := (State.winCheck_runs ..).same .mem rfl
  rw [State.memByte, hmem, State.memByte]

/-- O32's clause for a read through a window. -/
theorem exec_hostMemoryRead_reads (hwin : w.wf = true) (hn : n ≤ 4096) (h : s.winOk w off n = true) :
    ∃ t, exec (.hostMemoryRead w off n errs) s = .next t ∧
      t.host.readOut = s.winRead (s.winErr w off n errs) w off n errs ∧
      ((∃ i, i < n ∧ s.winByte w (off + i) = none) → bit t.host.err 0 = true) ∧ (∀ a, t.memByte a = s.memByte a) ∧
      (errs = [] → Frame [.host, .out] s t) ∧ Frame [.mem, .host, .obj, .out] s t := by
  have hexec : exec (.hostMemoryRead w off n errs) s = .next (s.hostRead w off n errs) :=
    need_of (by rw [hwin, decide_eq_true hn]; rfl) _
  have hreach := s.reach_winErr w off n errs
  have hmem (r : List Byte × Bool) : ((s.winErr w off n errs).setHost ((s.winErr w off n errs).host.read r)).mem =
      (s.winErr w off n errs).mem := rfl
  refine ⟨_, hexec, ?_, ?_, fun a => ?_, fun herr => ?_, (State.hostRead_runs ..).frame⟩
  · rw [State.hostRead_eq h, State.readOut_winCheck]
    rfl
  · rintro ⟨i, hi, hnone⟩
    rw [State.hostRead_eq h]
    refine State.err_winCheck hi ?_
    exact (State.winByte_congr hreach w (off + i)).trans hnone
  · rw [State.hostRead_eq h, State.bytes_winCheck, State.memByte, hmem]
    exact congrArg (fun r : HostIf × GddrSt × Tbl Byte => tget 0 r.2.2 a) hreach
  · subst herr
    rw [State.hostRead_eq h]
    exact (Runs.comp (State.winCheck_runs ..) rfl ((State.setRead_runs s _).mono rfl)).frame

end

/-! A write through a window. -/

theorem State.poison_putBytes (s : State) (a : Nat) (bs : List Byte) :
    (s.putBytes a bs).mem.poison = s.mem.poison ∧ (s.putBytes a bs).mem.gddr = s.mem.gddr := by
  induction bs generalizing s a with
  | nil => exact ⟨rfl, rfl⟩
  | cons b bs ih =>
    have hone : (s.putByte a b).mem.poison = s.mem.poison ∧ (s.putByte a b).mem.gddr = s.mem.gddr := by
      unfold State.putByte
      split <;> exact ⟨rfl, rfl⟩
    obtain ⟨hpoison, hgddr⟩ := ih (s.putByte a b) (a + 1)
    exact ⟨hpoison.trans hone.1, hgddr.trans hone.2⟩

/-- The granules from `g` on, by number, which a write ending at `z` covers lose their poison. -/
def State.unpoisonAll (s : State) (g z : Nat) (is : List Nat) : State :=
  is.foldl (fun s i => if (g + i) * 64 + 64 ≤ z ∧ s.mapped ((g + i) * 64) then s.unpoison (g + i) else s) s

theorem State.storeDev_eq (s : State) (a : Nat) (bs : List Byte) : s.storeDev a bs =
    (s.putBytes a bs).unpoisonAll ((a + 63) / 64) (a + bs.length) (List.range (bs.length / 64 + 1)) := rfl

theorem State.poison_unpoisonAll {s : State} (h : twf false s.mem.poison = true) (g z : Nat) (is : List Nat) (k : Nat) :
    tget false (s.unpoisonAll g z is).mem.poison k =
      (tget false s.mem.poison k && !is.any (fun i => g + i == k && (decide (k * 64 + 64 ≤ z) && s.mapped (k * 64)))) := by
  induction is generalizing s with
  | nil => exact (Bool.and_true _).symm
  | cons i is ih =>
    rw [State.unpoisonAll, List.foldl_cons, ← State.unpoisonAll, List.any_cons]
    split
    case isTrue hc =>
      obtain ⟨hz, hmap⟩ := hc
      have hmapped (x : Nat) : (s.unpoison (g + i)).mapped x = s.mapped x := State.mapped_congr rfl x
      have hset : tget false (s.unpoison (g + i)).mem.poison k = if k = g + i then false else tget false s.mem.poison k :=
        tget_tset (twf_keys h) (g + i) k false
      have hok : twf false (s.unpoison (g + i)).mem.poison = true := twf_tset _ (g + i) false h
      rw [ih hok, hset]
      simp only [hmapped]
      by_cases hk : k = g + i
      · subst hk
        simp [hz, hmap]
      · simp [hk, beq_eq_false_iff_ne.mpr (Ne.symm hk)]
    case isFalse hc =>
      rw [ih h]
      by_cases hk : k = g + i
      · subst hk
        have : (decide ((g + i) * 64 + 64 ≤ z) && s.mapped ((g + i) * 64)) = false := by
          simpa using hc
        simp [this]
      · simp [beq_eq_false_iff_ne.mpr (Ne.symm hk)]

/-- A store to mapped memory clears the poison of the granules that it covers whole, and of no other (R301). -/
theorem State.poisoned_storeDev {s : State} (h : twf false s.mem.poison = true) {a : Nat} {bs : List Byte}
    (hmap : s.anyUnmapped a bs.length = false) (g : Nat) : (s.storeDev a bs).poisoned (64 * g) =
      (s.poisoned (64 * g) && !decide (a ≤ 64 * g ∧ 64 * g + 64 ≤ a + bs.length)) := by
  obtain ⟨hpoison, hgddr⟩ := s.poison_putBytes a bs
  have hat : 64 * g / 64 = g := Nat.mul_div_cancel_left g (by decide)
  rw [State.poisoned, State.poisoned, hat, State.storeDev_eq, State.poison_unpoisonAll (by rwa [hpoison]), hpoison]
  congr 2
  rw [Bool.eq_iff_iff, List.any_eq_true, decide_eq_true_eq]
  simp only [Bool.and_eq_true, beq_iff_eq, decide_eq_true_eq, List.mem_range, State.mapped_congr hgddr]
  constructor
  · rintro ⟨i, hi, hgi, hz, -⟩
    omega
  · rintro ⟨ha, hz⟩
    refine ⟨g - (a + 63) / 64, by omega, by omega, by omega, ?_⟩
    have hin : g * 64 = a + (g * 64 - a) := by omega
    rw [hin]
    exact State.mapped_of_not_anyUnmapped hmap (by omega)

theorem State.gddr_storeDev (s : State) (a : Nat) (bs : List Byte) : (s.storeDev a bs).mem.gddr = s.mem.gddr := by
  rw [State.storeDev_eq, ← (s.poison_putBytes a bs).2]
  refine foldl_keeps (g := fun s : State => s.mem.gddr) (fun t i => ?_) _ _
  split <;> rfl

section
variable {s : State} {w : HostWin} {off a : Nat} {b : List Byte} {errs : MemErrs}

/-- The errors of a write's granules that it does not cover whole. -/
def State.winPart (s : State) (w : HostWin) (off n : Nat) (errs : MemErrs) : MemErrs :=
  errs.filter (fun e => !(((List.range n).filter (fun i => match s.winByte w (off + i) with
    | some a => a / 64 == e.1 / 64
    | none => false)).length == 64))

/-- Numbers in a row that lie in a granule: fewer than 64 where the row does not hold the granule whole. -/
theorem length_filter_granule_lt {a n g : Nat} (h : ¬(a ≤ 64 * g ∧ 64 * g + 64 ≤ a + n)) :
    ((List.range n).filter (fun i => (a + i) / 64 == g)).length < 64 := by
  have hnodup : ((List.range n).filter (fun i => (a + i) / 64 == g)).Nodup := List.nodup_range.filter _
  have hsub : (List.range n).filter (fun i => (a + i) / 64 == g) ⊆
      List.range' (64 * g - a) (min n (64 * g + 64 - a) - (64 * g - a)) := fun i hi => by
    simp only [List.mem_filter, List.mem_range, beq_iff_eq] at hi
    simp only [List.mem_range'_1]
    omega
  have := (hnodup.subperm hsub).length_le
  rw [List.length_range'] at this
  omega

theorem State.poisoned_winPart (hbytes : ∀ i, i < b.length → s.winByte w (off + i) = some (a + i)) {g : Nat}
    (hg : ¬(a ≤ 64 * g ∧ 64 * g + 64 ≤ a + b.length)) :
    (s.winErr w off b.length (s.winPart w off b.length errs)).poisoned (64 * g) =
      (s.winErr w off b.length errs).poisoned (64 * g) := by
  rw [State.winErr_eq, State.winErr_eq, State.poisoned_memErrAll, State.poisoned_memErrAll, State.winMet_eq, State.winMet_eq,
    State.winPart, List.any_filter, List.any_filter, List.any_filter]
  congr 2
  funext e
  by_cases he : e.1 / 64 = 64 * g / 64
  · have hcount : (List.range b.length).filter (fun i => match s.winByte w (off + i) with
        | some a => a / 64 == e.1 / 64
        | none => false) = (List.range b.length).filter (fun i => (a + i) / 64 == g) := by
      refine List.filter_congr fun i hi => ?_
      rw [hbytes i (List.mem_range.mp hi), he, Nat.mul_div_cancel_left g (by decide)]
    have hlt := length_filter_granule_lt hg
    rw [hcount, beq_eq_false_iff_ne.mpr (by omega), Bool.not_false, Bool.true_and]
  · rw [beq_eq_false_iff_ne.mpr he]
    simp only [Bool.and_false]

theorem State.winAddr_of_winByte {x : Nat} (h : s.winByte w off = some x) : s.winAddr w off = some x ∧ s.mapped x = true := by
  unfold State.winByte at h
  cases haddr : s.winAddr w off with
  | none => rw [haddr] at h; cases h
  | some y =>
    rw [haddr] at h
    dsimp only at h
    split at h
    · next hmap =>
      cases h
      exact ⟨rfl, hmap⟩
    · cases h

/-- A write through a window whose addresses are in a row and mapped is one store. -/
theorem State.winStore_eq (hb : b ≠ []) (hbytes : ∀ i, i < b.length → s.winByte w (off + i) = some (a + i)) :
    s.winStore w off b = s.storeDev a b ∧ s.anyUnmapped a b.length = false := by
  have hlen : 0 < b.length := List.length_pos_of_ne_nil hb
  obtain ⟨hfirst, -⟩ := State.winAddr_of_winByte (hbytes 0 hlen)
  obtain ⟨hlast, -⟩ := State.winAddr_of_winByte (hbytes (b.length - 1) (by omega))
  constructor
  · unfold State.winStore
    rw [Nat.add_zero] at hfirst
    rw [hfirst, hlast]
    exact if_pos rfl
  · rw [State.anyUnmapped, List.any_eq_false]
    intro i hi
    simp [(State.winAddr_of_winByte (hbytes i (List.mem_range.mp hi))).2]

theorem State.hostWrite_eq (h : s.winOk w off b.length = true) (hb : b ≠ [])
    (hbytes : ∀ i, i < b.length → s.winByte w (off + i) = some (a + i)) :
    s.hostWrite w off b errs = (s.winErr w off b.length (s.winPart w off b.length errs)).storeDev a b ∧
      (s.winErr w off b.length (s.winPart w off b.length errs)).anyUnmapped a b.length = false := by
  obtain ⟨u, hu⟩ : ∃ u, u = s.winErr w off b.length (s.winPart w off b.length errs) := ⟨_, rfl⟩
  have hreach : u.reach = s.reach := hu ▸ s.reach_winErr w off b.length _
  have hbytes' (i : Nat) (hi : i < b.length) : u.winByte w (off + i) = some (a + i) :=
    (State.winByte_congr hreach w (off + i)).trans (hbytes i hi)
  obtain ⟨hstore, hmap⟩ := State.winStore_eq hb hbytes'
  have hhost : (u.storeDev a b).host = u.host := (State.storeDev_runs ..).same .host rfl
  have heq : s.hostWrite w off b errs = (u.winStore w off b).winCheck w off b.length := by
    rw [hu]
    exact if_pos ⟨h, hb⟩
  rw [← hu, heq, hstore]
  refine ⟨State.winCheck_of_mapped fun i hi => ?_, hmap⟩
  rw [State.winByte_congr_of (congrArg HostIf.beyond hhost) (u.gddr_storeDev a b), hbytes' i hi]
  rfl

/-- O32's clause for a write through a window. -/
theorem exec_hostMemoryWrite_writes (hw : s.wf = true) (hwin : w.wf = true) (hn : b.length ≤ 512) (hb : b ≠ [])
    (h : s.winOk w off b.length = true) (hbytes : ∀ i, i < b.length → s.winByte w (off + i) = some (a + i)) :
    ∃ t, exec (.hostMemoryWrite w off b errs) s = .next t ∧ (∀ i x, b[i]? = some x → t.memByte (a + i) = x) ∧
      (∀ i, i < a ∨ a + b.length ≤ i → t.memByte i = s.memByte i) ∧
      (∀ g, a ≤ 64 * g → 64 * g + 64 ≤ a + b.length → t.poisoned (64 * g) = false) ∧
      (∀ g, ¬(a ≤ 64 * g ∧ 64 * g + 64 ≤ a + b.length) →
        t.poisoned (64 * g) = (s.winErr w off b.length errs).poisoned (64 * g)) ∧
      (errs = [] → Frame [.mem] s t) ∧ Frame [.mem, .host, .obj, .out] s t := by
  have hexec : exec (.hostMemoryWrite w off b errs) s = .next (s.hostWrite w off b errs) :=
    need_of (by rw [hwin, decide_eq_true hn]; rfl) _
  obtain ⟨heq, hmap⟩ := State.hostWrite_eq (errs := errs) h hb hbytes
  have hruns := State.winErr_runs s w off b.length (s.winPart w off b.length errs)
  have hbyte (i : Nat) : (s.winErr w off b.length (s.winPart w off b.length errs)).memByte i = s.memByte i :=
    congrArg (fun r : HostIf × GddrSt × Tbl Byte => tget 0 r.2.2 i) (s.reach_winErr w off b.length _)
  have hpoison (g : Nat) := State.poisoned_storeDev (State.twf_poison (hruns.wf hw)) hmap g
  refine ⟨_, hexec, fun i x hx => ?_, fun i hi => ?_, fun g ha hz => ?_, fun g hg => ?_, fun herr => ?_,
    (State.hostWrite_runs ..).frame⟩
  · rw [heq]
    exact State.memByte_storeDev_inside (hruns.wf hw) hmap hx
  · rw [heq, State.memByte_storeDev_outside hmap hi, hbyte]
  · rw [heq, hpoison, decide_eq_true ⟨ha, hz⟩, Bool.not_true, Bool.and_false]
  · rw [heq, hpoison, decide_eq_false hg, Bool.not_false, Bool.and_true, State.poisoned_winPart hbytes hg]
  · subst herr
    rw [heq]
    exact (State.storeDev_runs s a b).frame

end

/-- Settles O32: a register write by the registers that it covers, an access through a window by the bytes that it reaches. -/
theorem hostAccessesReachTheirTargets : Obligations.HostAccessesReachTheirTargets := by
  refine ⟨fun s hw hup => ⟨fun b hb => ?_, fun b hb => ?_, fun c b hc hb hm hwait hlt => ?_, fun m o b hm ho => ?_,
    fun w off n errs hwin hn h => exec_hostMemoryRead_reads hwin hn h,
    fun w off b a errs hwin hn hb h hbytes => exec_hostMemoryWrite_writes hw hwin hn hb h hbytes,
    fun off b ho hb => ?_⟩, fun s c v hw hc hup hm hwait => ⟨?_, ?_⟩⟩
  · exact ⟨_, congrArg Host.Outcome.next (State.regWrite_bar2Base hup hb), rfl⟩
  · exact ⟨_, congrArg Host.Outcome.next (State.regWrite_err hup hb), rfl⟩
  · have hact : s.regWrite (0x100008 + 0x10000 * c) b = s.setPage c { s.page c with cplHead := leNat b } :=
      (State.regWrite_cplHead hup hm hc hb).trans ((State.pageWrite_acts hup hm hwait).trans
        ((State.pageAct_cplHead hc).trans (if_pos hlt)))
    have hpage := State.page_setPage (State.twf_pages hw) c
    exact ⟨_, congrArg Host.Outcome.next hact, (hpage c _).trans (if_pos rfl), fun d hd => (hpage d _).trans (if_neg hd),
      (State.setPage_runs ..).frame⟩
  · have hmbx := State.regWrite_request hup (State.twf_mbx hw) hm ho
    have hself : (s.regWrite (0x4000 + 0x4000 * m + o) b).mailbox m = (s.mailbox m).stored o b := (hmbx m).trans (if_pos rfl)
    refine ⟨_, rfl, fun i x hx hne => ?_, fun hreq i x hx => ?_, fun k hk => (hmbx k).trans (if_neg hk), fun j hj => ?_, ?_, ?_,
      (State.regWrite_mailbox_runs hup (by omega) (by omega) b).frame⟩
    · rw [hself]
      exact tget_tstore_of_ne_zero _ o hx hne
    · obtain ⟨hi, rfl⟩ := List.getElem?_eq_some_iff.mp hx
      rw [hself]
      exact tget_tstore_inside _ o b hreq hi
    · rw [hself]
      exact tget_tstore_of_outside _ o b hj
    · rw [hself]
      rfl
    · rw [hself]
      rfl
  · have hact : exec (.objectWindowWrite off b) s = .next (s.hostErr 2 (0x1000000 + off)) :=
      congrArg Host.Outcome.next ((if_pos ⟨ho, hb⟩).trans (if_pos hup))
    obtain ⟨herr, hfirst⟩ := s.err_hostErr 2 (0x1000000 + off)
    refine ⟨_, hact, ?_, hfirst, (State.hostErr_runs ..).frame⟩
    rw [herr]
    exact bit_or_pow _ 1
  · have hact : exec (.intStatusClear c v) s = .next _ :=
      (need_of (decide_eq_true hc) _).trans (congrArg _ ((State.pageWrite_acts hup hm hwait).trans (s.pageAct_intStatus c v)))
    have hpage := State.page_pageSent (c := c) (x := (s.page c).intCleared v)
      (p := ((s.page c).intCleared v).intStatus ≠ (s.page c).intStatus ∧ ((s.page c).intCleared v).unmasked ≠ 0) (State.twf_pages hw)
    exact ⟨_, hact, (hpage c).trans (if_pos rfl), fun d hd => (hpage d).trans (if_neg hd), State.msi_pageSent, State.pageSent_runs.frame⟩
  · have hact : exec (.intMaskWrite c v) s = .next _ :=
      (need_of (decide_eq_true hc) _).trans (congrArg _ ((State.pageWrite_acts hup hm hwait).trans (s.pageAct_intMask c v)))
    have hpage := State.page_pageSent (c := c) (x := (s.page c).masked v)
      (p := (s.page c).unmasked = 0 ∧ ((s.page c).masked v).unmasked ≠ 0) (State.twf_pages hw)
    exact ⟨_, hact, (hpage c).trans (if_pos rfl), fun d hd => (hpage d).trans (if_neg hd), State.msi_pageSent, State.pageSent_runs.frame⟩

end Sys2Proof.Machine
end

