-- ==== Sys2Proof/Proofs/SyncCounters.lean ====
section
/-!
PROOF. Sync commands on counters, from a page and from a management message (R183 to R189, R198).
-/

namespace Sys2Proof.Machine

/-! Counters after an operation. -/

/-- The table of counters is canonical. -/
def CtrOk (s : State) : Prop := twf 0 s.sync.ctr = true

theorem CtrOk.setCtr {s : State} (h : CtrOk s) (i v : Nat) : CtrOk (s.setCtr i v) := twf_tset _ _ _ h

theorem State.ctr_syncFlag (s : State) (b p i : Nat) : (s.syncFlag b p).ctr i = s.ctr i := rfl

theorem State.bit_syncFlag {s : State} (h : ValsOk s) (b p : Nat) : bit ((s.syncFlag b p).ov syncStatusId) b = true := by
  rw [State.syncFlag, State.ov_modOv h, if_pos rfl]
  exact bit_or_pow _ b

section
variable {s : State} (h : CtrOk s)
include h

theorem State.ctr_ctrAdd (p k i : Nat) : (s.ctrAdd p k).ctr i = if i = p then min (s.ctr p + k) 0xFFFF else s.ctr i := by
  unfold State.ctrAdd
  dsimp only
  split_ifs with hbig hi hi
  · rw [State.ctr_syncFlag, State.ctr_setCtr h, if_pos hi]
    omega
  · rw [State.ctr_syncFlag, State.ctr_setCtr h, if_neg hi]
  · rw [State.ctr_setCtr h, if_pos hi]
    omega
  · rw [State.ctr_setCtr h, if_neg hi]

end

theorem State.bit_ctrAdd {s : State} (h : ValsOk s) {p k : Nat} (hbig : 0xFFFF < s.ctr p + k) :
    bit ((s.ctrAdd p k).ov syncStatusId) 0 = true := by
  have heq : s.ctrAdd p k = (s.setCtr p 0xFFFF).syncFlag 0 p := if_pos hbig
  rw [heq]
  exact State.bit_syncFlag (s := s.setCtr p 0xFFFF) h 0 p

theorem State.obj_ctrAdd {s : State} {p k : Nat} (hsmall : s.ctr p + k ≤ 0xFFFF) : (s.ctrAdd p k).obj = s.obj := by
  have heq : s.ctrAdd p k = s.setCtr p (s.ctr p + k) := if_neg (by omega)
  rw [heq]
  rfl

/-! A sync command from a page (R198, R458). -/

/-- A page with the reply of a sync command. -/
def Page.synced (p : Page) (v : Nat) : Page := { p with syncReply := v }

theorem State.pageAct_sync (s : State) {c : Nat} (hc : c < 15) (w : Nat) : s.pageAct c 0x100 w = s.syncReply c w := by
  unfold State.pageAct
  dsimp only
  rw [if_neg (by decide), if_neg (by decide), if_neg (by omega), if_neg (by decide), if_neg (by decide), if_neg (by decide),
    if_pos rfl]

/-- A state in which a page's writes act at once. -/
def State.PageActs (s : State) (c : Nat) : Prop :=
  c < 15 ∧ s.host.up = true ∧ s.power.main = .ready ∧ s.pageWaits c = false

section
variable {s u : State} {c op v : Nat} {w : Word64}

theorem need_sync_page (h : s.PageActs c) (hop : bits w.toNat 0 4 = op) (hcmd : syncCmd s c w.toNat = (u, v)) :
    need (CmdSrc.page c).wf (.next (when_ (rowWord op 5 w) (syncBy (.page c) w) s)) = .next (u.modPage c (·.synced v)) := by
  obtain ⟨hc, hup, hm, hwait⟩ := h
  have hrow : rowWord op 5 w = true := by
    rw [rowWord, hop, beq_self_eq_true, Bool.true_or]
  have hact : s.pageSync c w.toNat = u.modPage c (·.synced v) := by
    rw [State.pageSync, State.pageWrite_acts hup hm hwait, State.pageAct_sync s hc, State.syncReply, hcmd]
    rfl
  refine (need_of (decide_eq_true (show c < 16 by omega)) _).trans (congrArg _ ?_)
  rw [when_, hrow]
  exact hact

theorem State.syncReply_synced (hw : s.wf = true) (hhost : u.host = s.host) (c v : Nat) :
    ((u.modPage c (·.synced v)).page c).syncReply = v := by
  have hpages : PagesOk u := by
    rw [PagesOk, hhost]
    exact State.twf_pages hw
  rw [State.page_modPage hpages, if_pos rfl]
  rfl

theorem State.synced_runs {L : List Part} (h : Runs L s u) (hL : within [.host] L = true) (c v : Nat) :
    Frame L s (u.modPage c (·.synced v)) := (h.trans ((State.modPage_runs ..).mono hL)).frame

end

/-! What each command does once its word has passed the checks (R188, R198). -/

section
variable {s : State} {c w : Nat}

theorem syncCmd_refused (hst : syncStatus s c w ≠ 0) : syncCmd s c w = (s, syncStatus s c w) := if_pos hst

theorem syncCmd_signal (hst : syncStatus s c w = 0) (hop : bits w 0 4 = 0) :
    syncCmd s c w = (s.signal c (bits w 8 16) (bits w 24 14), 0) := by
  unfold syncCmd
  dsimp only
  rw [if_neg (by simp [hst]), hop]
  rfl

/-- What TAKE_NB of `k` makes of a counter (R183). -/
def State.takeNb (s : State) (p k : Nat) : State :=
  if s.ctr p < k then (s.setCtr p 0).syncFlag 1 p else s.setCtr p (s.ctr p - k)

theorem syncCmd_takeNb (hst : syncStatus s c w = 0) (hop : bits w 0 4 = 1) : syncCmd s c w =
    (s.takeNb (s.syncEntry c (bits w 8 16)).phys (bits w 24 14), s.ctr (s.syncEntry c (bits w 8 16)).phys * 65536) := by
  unfold syncCmd
  dsimp only
  rw [if_neg (by simp [hst]), hop]
  rfl

/-- What READ answers of an entry (R192, R198). -/
def State.syncValue (s : State) (e : SyncEntry) (k : Nat) : Nat := if e.kind = 2 then s.barRead e.phys k else s.ctr e.phys

theorem syncCmd_read (hst : syncStatus s c w = 0) (hop : bits w 0 4 = 2) :
    syncCmd s c w = (s, s.syncValue (s.syncEntry c (bits w 8 16)) (bits w 24 14) * 65536) := by
  unfold syncCmd
  dsimp only
  rw [if_neg (by simp [hst]), hop]
  rfl

theorem syncCmd_set (hst : syncStatus s c w = 0) (hop : bits w 0 4 = 3) :
    syncCmd s c w = (s.setCtr (s.syncEntry c (bits w 8 16)).phys (bits w 24 14), 0) := by
  unfold syncCmd
  dsimp only
  rw [if_neg (by simp [hst]), hop]
  rfl

/-- A SIGNAL or ARRIVE that passes the checks names an entry that permits it. -/
theorem signals_of_status (hst : syncStatus s c w = 0) (hop : bits w 0 4 = 0 ∨ bits w 0 4 = 4) :
    (s.syncEntry c (bits w 8 16)).invalid = false ∧ (s.syncEntry c (bits w 8 16)).sigOk = true := by
  unfold syncStatus at hst
  dsimp only at hst
  split at hst
  · cases hst
  · split at hst
    · cases hst
    · next hinv =>
      split at hst
      · cases hst
      · split at hst
        · next hsig =>
          rw [not_or] at hinv
          exact ⟨by simpa using hinv.1, hsig⟩
        · cases hst

end

section
variable {s : State} {c id k : Nat}

theorem State.signal_counter (hinv : (s.syncEntry c id).invalid = false) (hsig : (s.syncEntry c id).sigOk = true)
    (hk : (s.syncEntry c id).kind = 1) : s.signal c id k =
      if (s.syncEntry c id).local_ then s.ctrAdd (s.syncEntry c id).phys k else s.syncSend c (s.syncEntry c id) false k := by
  change syncSignal (4096 + 1) c id k s = _
  rw [syncSignal]
  rw [if_neg (by simp [hinv, hsig]), if_pos hk]

theorem State.syncSend_remote {e : SyncEntry} (hm : e.multi = false) (arrive : Bool) :
    s.syncSend c e arrive k = s.capInject (portDie (e.phys / 4096)) (s.packet 2 c e.device (syncBody arrive false e.phys k)) := by
  rw [State.syncSend, hm]
  rfl

theorem State.capInject_cold (h : s.fab.hot = []) (port : Nat) (p : Packet) : s.capInject port p = s.inject port p := by
  have hcap : s.isCapped p = false := by simp [State.isCapped, h]
  rw [State.capInject, hcap, h]
  change (s.setFab { s.fab with hot := [] }).inject port p = _
  rw [← h]
  rfl

theorem State.ctr_takeNb (h : CtrOk s) (p k i : Nat) : (s.takeNb p k).ctr i = if i = p then s.ctr p - k else s.ctr i := by
  unfold State.takeNb
  split_ifs with hlt hi hi
  · rw [State.ctr_syncFlag, State.ctr_setCtr h, if_pos hi]
    omega
  · rw [State.ctr_syncFlag, State.ctr_setCtr h, if_neg hi]
  · rw [State.ctr_setCtr h, if_pos hi]
  · rw [State.ctr_setCtr h, if_neg hi]

theorem State.takeNb_runs (s : State) (p k : Nat) : Runs [.sync, .obj] s (s.takeNb p k) := by
  refine .ite (fun _ => .comp (State.syncFlag_runs ..) rfl ((State.setCtr_runs s p 0 fun _ => by decide).mono rfl)) fun _ => ?_
  refine (State.setCtr_runs s p _ fun h => ?_).mono rfl
  have := State.ctr_lt h p
  omega

/-- What a READ of a counter of a barrier group answers has the counter's low 14 bits (R192). -/
theorem State.barRead_mod (s : State) (p k : Nat) : s.barRead p k % 2 ^ 14 = s.ctr (p + k) % 2 ^ 14 := by
  unfold State.barRead
  dsimp only
  split_ifs with h0 h1
  · rw [setBits_eq]
    omega
  · omega
  · rfl

theorem State.perform_sync (hr : s.power.rails = true) (r : Req) (w : Nat) :
    s.perform r (.sync c w) = ((syncCmd s c w).1, .now 0 (toLE 4 (syncCmd s c w).2)) := if_pos hr

end

/-- Settles O33: a command's reply and its effect, as `syncCmd` gives them for its OP. -/
theorem syncCommandsActOnCounters : Obligations.SyncCommandsActOnCounters := by
  intro s c w hw hc hup hm hr hwait id k e
  have hacts : s.PageActs c := ⟨hc, hup, hm, hwait⟩
  have hctr : CtrOk s := State.twf_ctr hw
  have hvals : ValsOk s := State.keysFrom_vals hw
  refine ⟨fun hop hst hk hl => ?_, fun hop hst hk hrem hmul => ?_, fun hop hst => ?_, fun r x hop h hst hk hl => ?_,
    fun hop hst => ?_, fun hop hst => ?_, fun hop hst => ?_⟩
  · obtain ⟨hinv, hsig⟩ := signals_of_status hst (.inl hop)
    have hcmd : syncCmd s c w.toNat = (s.ctrAdd e.phys k, 0) := by
      rw [syncCmd_signal hst hop, State.signal_counter hinv hsig hk, if_pos hl]
    have hruns := State.ctrAdd_runs s e.phys k
    exact ⟨_, need_sync_page hacts hop hcmd, (State.ctr_ctrAdd hctr e.phys k e.phys).trans (if_pos rfl),
      fun i hi => (State.ctr_ctrAdd hctr e.phys k i).trans (if_neg hi), fun hbig => State.bit_ctrAdd hvals hbig,
      fun hsmall => State.obj_ctrAdd hsmall, State.syncReply_synced hw (hruns.same .host rfl) c 0,
      State.synced_runs (hruns.mono rfl) rfl c 0⟩
  · obtain ⟨hinv, hsig⟩ := signals_of_status hst (.inl hop)
    have hl : ¬(s.syncEntry c (bits w.toNat 8 16)).local_ = true := by
      rw [SyncEntry.local_, show (s.syncEntry c (bits w.toNat 8 16)).remote = true from hrem]
      exact Bool.false_ne_true
    have hcmd : syncCmd s c w.toNat =
        (s.capInject (portDie (e.phys / 4096)) (s.packet 2 c e.device (syncBody false false e.phys k)), 0) := by
      rw [syncCmd_signal hst hop, State.signal_counter hinv hsig hk, if_neg hl, State.syncSend_remote hmul]
    have hruns := State.capInject_runs s (portDie (e.phys / 4096)) (s.packet 2 c e.device (syncBody false false e.phys k))
    refine ⟨_, need_sync_page hacts hop hcmd, ⟨rfl, rfl⟩, fun hhot => ?_, State.syncReply_synced hw (hruns.same .host rfl) c 0,
      State.synced_runs (hruns.mono rfl) rfl c 0⟩
    rw [State.capInject_cold hhot]
    rfl
  · exact ⟨_, need_sync_page hacts hop (syncCmd_refused hst), State.syncReply_synced hw rfl c _, State.synced_runs (.refl s) rfl c _⟩
  · obtain ⟨hinv, hsig⟩ := signals_of_status hst (.inl hop)
    have hcmd (b : Caddy) : syncCmd (s.setCaddy b) c w.toNat = ((s.setCaddy b).ctrAdd e.phys k, 0) := by
      rw [syncCmd_signal (s := s.setCaddy b) hst hop, State.signal_counter (s := s.setCaddy b) hinv hsig hk, if_pos (by exact hl)]
      rfl
    obtain ⟨b, t, -, hwf, hexec, hans, ⟨hruns, -, -⟩, hframe⟩ := (State.operates_of_obeys h rfl).acceptedAs
      (L := [.sync, .router, .caddy, .host, .obj, .out]) (p := toLE 4 0) (fun t => t.ctrAdd e.phys k)
      (fun b _ => by rw [State.perform_sync (s := s.setCaddy b) hr, hcmd])
      (fun t => (State.ctrAdd_runs t e.phys k).mono rfl) rfl rfl
    have hsync : t.sync = ((s.setCaddy b).ctrAdd e.phys k).sync := hruns.same .sync rfl
    have hadd : ((s.setCaddy b).ctrAdd e.phys k).ctr e.phys = min (s.ctr e.phys + k) 0xFFFF :=
      (State.ctr_ctrAdd (s := s.setCaddy b) hctr e.phys k e.phys).trans (if_pos rfl)
    obtain ⟨⟨⟨hreq, -⟩, -⟩, -⟩ := h
    have hsrc : (CmdSrc.mgmt r c).wf = true := by
      rw [CmdSrc.wf, hreq, ctxOk, decide_eq_true (show c < 16 by omega)]
      rfl
    have hrow : rowWord 0 5 w = true := by rw [rowWord, hop]; rfl
    refine ⟨t, (need_of hsrc _).trans ?_, ?_, hans, hframe⟩
    · rw [when_, hrow]
      exact (need_of hreq _).symm.trans hexec
    · rw [State.ctr, hsync]
      exact hadd
  · have hruns := State.takeNb_runs s e.phys k
    refine ⟨_, need_sync_page hacts hop (syncCmd_takeNb hst hop), (State.ctr_takeNb hctr e.phys k e.phys).trans (if_pos rfl),
      fun i hi => (State.ctr_takeNb hctr e.phys k i).trans (if_neg hi), fun hlt => ?_, fun hle => ?_,
      State.syncReply_synced hw (hruns.same .host rfl) c _, State.synced_runs (hruns.mono rfl) rfl c _⟩
    · have heq : s.takeNb e.phys k = (s.setCtr e.phys 0).syncFlag 1 e.phys := if_pos hlt
      change bit ((s.takeNb e.phys k).ov syncStatusId) 1 = true
      rw [heq]
      exact State.bit_syncFlag (s := s.setCtr e.phys 0) hvals 1 e.phys
    · have heq : s.takeNb e.phys k = s.setCtr e.phys (s.ctr e.phys - k) := if_neg (by omega)
      change (s.takeNb e.phys k).obj = s.obj
      rw [heq]
      rfl
  · refine ⟨_, need_sync_page hacts hop (syncCmd_read hst hop), State.syncReply_synced hw rfl c _, fun hk => ?_,
      State.synced_runs (.refl s) rfl c _⟩
    rw [State.syncReply_synced hw rfl c, Nat.mul_div_cancel _ (by decide), State.syncValue, if_pos hk]
    exact State.barRead_mod ..
  · have hlt : k < 2 ^ 16 := (bits_lt ..).trans (by decide)
    have hruns := State.setCtr_runs s e.phys k fun _ => hlt
    exact ⟨_, need_sync_page hacts hop (syncCmd_set hst hop), (State.ctr_setCtr hctr e.phys e.phys k).trans (if_pos rfl),
      fun i hi => (State.ctr_setCtr hctr e.phys i k).trans (if_neg hi), State.syncReply_synced hw (hruns.same .host rfl) c _,
      State.synced_runs (hruns.mono rfl) rfl c _⟩

end Sys2Proof.Machine
end

