-- ==== Sys2Proof/Proofs/Barriers.lean ====
section
/-!
PROOF. Barrier groups: initialisation, arrivals and rounds (R192 to R194).
-/

namespace Sys2Proof.Machine

/-! The fields of a group, by the counters that hold them. -/

section
variable {s t : State} {p : Nat}

theorem State.barExpected_congr (h : t.ctr p = s.ctr p) : t.barExpected p = s.barExpected p := by
  rw [State.barExpected, h, State.barExpected]

theorem State.barRound_congr (h : t.ctr (p + 1) = s.ctr (p + 1)) : t.barRound p = s.barRound p := by
  rw [State.barRound, h, State.barRound]

theorem State.barCur_congr (h : t.ctr (p + 1) = s.ctr (p + 1)) : t.barCur p = s.barCur p := by
  rw [State.barCur, h, State.barCur]

theorem State.barCur_le (s : State) (p : Nat) : s.barCur p ≤ 1 := Nat.le_of_lt_succ (bits_lt ..)

theorem nextRound_lt {n : Nat} (h : n < 2 ^ 14) : nextRound n < 2 ^ 14 := by
  unfold nextRound
  split <;> omega

end

/-! BARRIER_INIT (R192). -/

/-- The four counters of a group as BARRIER_INIT leaves them. -/
def State.groupSet (s : State) (p k : Nat) : State :=
  (((s.setCtr p (k % 2 ^ 14)).setCtr (p + 1) 1).setCtr (p + 2) 0).setCtr (p + 3) 0

theorem State.ctr_groupSet {s : State} (h : CtrOk s) (p k i : Nat) : (s.groupSet p k).ctr i =
    if i = p + 3 then 0 else if i = p + 2 then 0 else if i = p + 1 then 1 else if i = p then k % 2 ^ 14 else s.ctr i := by
  unfold State.groupSet
  rw [State.ctr_setCtr (((h.setCtr _ _).setCtr _ _).setCtr _ _), State.ctr_setCtr ((h.setCtr _ _).setCtr _ _),
    State.ctr_setCtr (h.setCtr _ _), State.ctr_setCtr h]

theorem State.ctr_barInit (s : State) (p k i : Nat) : (s.barInit p k).ctr i = (s.groupSet p k).ctr i := rfl

theorem syncCmd_barInit {s : State} {c w : Nat} (hst : syncStatus s c w = 0) (hop : bits w 0 4 = 5) :
    syncCmd s c w = (s.barInit (s.syncEntry c (bits w 8 16)).phys (bits w 24 14), 0) := by
  unfold syncCmd
  dsimp only
  rw [if_neg (by simp [hst]), hop]
  rfl

/-! Rounds complete while the open slot holds what the group expects (R194). -/

/-- The arrivals of the open slot. -/
def State.barSlot (s : State) (p : Nat) : Nat := p + 2 + s.barCur p

/-- The slot that the next round counts in. -/
def State.barOther (s : State) (p : Nat) : Nat := p + 3 - s.barCur p

/-- A group's round is complete: its slot is empty and the other one open. -/
def State.roundDone (s : State) (p : Nat) : State :=
  (s.setCtr (s.barSlot p) 0).setCtr (p + 1) (nextRound (s.barRound p) + (1 - s.barCur p) * 2 ^ 14)

section
variable {issue : Nat → State → State} {s : State} {p f r : Nat}

theorem completeRounds_stop (h : s.ctr (s.barSlot p) ≠ s.barExpected p) : completeRounds issue p f s = s := by
  cases f with
  | zero => rfl
  | succ f => exact if_neg fun hall => h hall.2.2

theorem completeRounds_step (he : s.barExpected p ≠ 0) (hr : s.barRound p ≠ 0) (h : s.ctr (s.barSlot p) = s.barExpected p) :
    completeRounds issue p (f + 1) s = completeRounds issue p f (issue (s.barRound p) (s.roundDone p)) := if_pos ⟨he, hr, h⟩

theorem State.bar_setSlot (hs : CtrOk s) {i : Nat} (hi : p + 1 < i) (v : Nat) :
    (s.setCtr i v).barExpected p = s.barExpected p ∧ (s.setCtr i v).barRound p = s.barRound p ∧
      (s.setCtr i v).barCur p = s.barCur p :=
  have hexp : (s.setCtr i v).ctr p = s.ctr p := (State.ctr_setCtr hs i p v).trans (if_neg (by omega))
  have hround : (s.setCtr i v).ctr (p + 1) = s.ctr (p + 1) := (State.ctr_setCtr hs i (p + 1) v).trans (if_neg (by omega))
  ⟨State.barExpected_congr hexp, State.barRound_congr hround, State.barCur_congr hround⟩

theorem State.ctr_roundDone (hs : CtrOk s) (p i : Nat) : (s.roundDone p).ctr i =
    if i = p + 1 then nextRound (s.barRound p) + (1 - s.barCur p) * 2 ^ 14 else if i = s.barSlot p then 0 else s.ctr i := by
  rw [State.roundDone, State.ctr_setCtr (hs.setCtr _ _), State.ctr_setCtr hs]

/-- The round and the slot of a group whose round is complete. -/
theorem State.bar_roundDone (hs : CtrOk s) (p : Nat) : (s.roundDone p).barExpected p = s.barExpected p ∧
    (s.roundDone p).barRound p = nextRound (s.barRound p) ∧ (s.roundDone p).barCur p = 1 - s.barCur p := by
  have hround : nextRound (s.barRound p) < 2 ^ 14 := nextRound_lt (bits_lt ..)
  have hcur := s.barCur_le p
  have hexp : (s.roundDone p).ctr p = s.ctr p := by
    rw [State.ctr_roundDone hs, if_neg (by omega), if_neg (by simp only [State.barSlot]; omega)]
  have hword : (s.roundDone p).ctr (p + 1) = nextRound (s.barRound p) + (1 - s.barCur p) * 2 ^ 14 := by
    rw [State.ctr_roundDone hs, if_pos rfl]
  refine ⟨State.barExpected_congr hexp, ?_, ?_⟩
  · rw [State.barRound, hword, bits]
    omega
  · rw [State.barCur, hword, bits]
    omega

/-! An arrival (R193). -/

theorem arriveAt_open (he : s.barExpected p ≠ 0) (hr : s.barRound p ≠ 0) (hd : s.barDist p r = 0) :
    arriveAt issue f p r s = (completeRounds issue p f (s.setCtr (s.barSlot p) (min (s.ctr (s.barSlot p) + 1) 0xFFFF)), true) := by
  unfold arriveAt
  dsimp only
  rw [if_neg (by simp [he, hr]), if_pos hd]
  rfl

/-- An arrival that does not complete its round. -/
theorem arriveAt_counts (hs : CtrOk s) (he : s.barExpected p ≠ 0) (hr : s.barRound p ≠ 0) (hd : s.barDist p r = 0)
    (hlt : s.ctr (s.barSlot p) + 1 < s.barExpected p) :
    arriveAt issue f p r s = (s.setCtr (s.barSlot p) (s.ctr (s.barSlot p) + 1), true) := by
  have hexp : s.barExpected p < 2 ^ 14 := bits_lt ..
  have hmin : min (s.ctr (s.barSlot p) + 1) 0xFFFF = s.ctr (s.barSlot p) + 1 := by omega
  obtain ⟨hexpected, -, hcur⟩ := State.bar_setSlot hs (show p + 1 < s.barSlot p by simp only [State.barSlot]; omega)
    (s.ctr (s.barSlot p) + 1)
  have hslot : (s.setCtr (s.barSlot p) (s.ctr (s.barSlot p) + 1)).ctr (s.barSlot p) = s.ctr (s.barSlot p) + 1 :=
    (State.ctr_setCtr hs _ _ _).trans (if_pos rfl)
  rw [arriveAt_open he hr hd, hmin, completeRounds_stop]
  have hat : (s.setCtr (s.barSlot p) (s.ctr (s.barSlot p) + 1)).barSlot p = s.barSlot p := congrArg (p + 2 + ·) hcur
  rw [hat, hslot, hexpected]
  omega

/-- The last arrival of a round, where the next round is not complete already and nothing is issued. -/
theorem arriveAt_completes (hs : CtrOk s) (he : s.barExpected p ≠ 0) (hr : s.barRound p ≠ 0) (hd : s.barDist p r = 0)
    (hlast : s.ctr (s.barSlot p) + 1 = s.barExpected p) (hother : s.ctr (s.barOther p) ≠ s.barExpected p)
    (hissue : ∀ n t, issue n t = t) :
    arriveAt issue (f + 1) p r s = ((s.setCtr (s.barSlot p) (s.barExpected p)).roundDone p, true) := by
  have hexp : s.barExpected p < 2 ^ 14 := bits_lt ..
  have hcur := s.barCur_le p
  have hmin : min (s.ctr (s.barSlot p) + 1) 0xFFFF = s.barExpected p := by omega
  obtain ⟨u, hu⟩ : ∃ u, u = s.setCtr (s.barSlot p) (s.barExpected p) := ⟨_, rfl⟩
  have hok : CtrOk u := hu ▸ hs.setCtr _ _
  have hctr (i : Nat) : u.ctr i = if i = s.barSlot p then s.barExpected p else s.ctr i := by
    rw [hu, State.ctr_setCtr hs]
  obtain ⟨hexpected, hround, hcurs⟩ := hu ▸ State.bar_setSlot hs (show p + 1 < s.barSlot p by simp only [State.barSlot]; omega)
    (s.barExpected p)
  have hslot : u.barSlot p = s.barSlot p := by rw [State.barSlot, hcurs, State.barSlot]
  obtain ⟨hexpected', -, hcurs'⟩ := State.bar_roundDone hok p
  have hnext : (u.roundDone p).barSlot p = s.barOther p := by
    rw [State.barSlot, hcurs', hcurs, State.barOther]
    omega
  have hne : (u.roundDone p).ctr (s.barOther p) = s.ctr (s.barOther p) := by
    have hapart : s.barOther p ≠ p + 1 ∧ s.barOther p ≠ s.barSlot p := by
      simp only [State.barOther, State.barSlot]
      omega
    rw [State.ctr_roundDone hok, hctr, hslot, if_neg hapart.1, if_neg hapart.2, if_neg hapart.2]
  rw [arriveAt_open he hr hd, hmin, ← hu, completeRounds_step (by rwa [hexpected]) (by rwa [hround])
    (by rw [hslot, hctr, if_pos rfl, hexpected]), hissue, completeRounds_stop]
  rw [hnext, hne, hexpected', hexpected]
  exact hother

/-- An arrival for the next round. -/
theorem arriveAt_next (he : s.barExpected p ≠ 0) (hr : s.barRound p ≠ 0) (hd : s.barDist p r = 1)
    (hlt : s.ctr (s.barOther p) < s.barExpected p) :
    arriveAt issue f p r s = (s.setCtr (s.barOther p) (s.ctr (s.barOther p) + 1), true) := by
  unfold arriveAt
  dsimp only
  rw [if_neg (by simp [he, hr]), if_neg (by omega), if_pos ⟨hd, hlt⟩]
  rfl

/-- An arrival for any other round. -/
theorem arriveAt_misused (he : s.barExpected p ≠ 0) (hr : s.barRound p ≠ 0) (hd : 1 < s.barDist p r) :
    arriveAt issue f p r s = (s.misuse p, false) := by
  unfold arriveAt
  dsimp only
  rw [if_neg (by simp [he, hr]), if_neg (by omega), if_neg (by omega)]

end

theorem State.ctr_misuse {s : State} (h : CtrOk s) (p i : Nat) :
    (s.misuse p).ctr i = if i = p then s.ctr p ||| 2 ^ 15 else s.ctr i :=
  (State.ctr_syncFlag (s.setCtr p (s.ctr p ||| 2 ^ 15)) 2 p i).trans (State.ctr_setCtr h p i _)

theorem State.bit_misuse {s : State} (h : ValsOk s) (p : Nat) : bit ((s.misuse p).ov syncStatusId) 2 = true :=
  State.bit_syncFlag (s := s.setCtr p (s.ctr p ||| 2 ^ 15)) h 2 p

/-- A group of which the last arrival of a round has come. -/
structure State.Opened (s t : State) (p : Nat) : Prop where
  emptied : t.ctr (s.barSlot p) = 0
  round : t.barRound p = nextRound (s.barRound p)
  cur : t.barCur p = 1 - s.barCur p
  word : t.ctr p = s.ctr p
  other : t.ctr (s.barOther p) = s.ctr (s.barOther p)

theorem State.opened_roundDone {s : State} (hs : CtrOk s) (p v : Nat) :
    s.Opened ((s.setCtr (s.barSlot p) v).roundDone p) p := by
  have hcur := s.barCur_le p
  obtain ⟨u, hu⟩ : ∃ u, u = s.setCtr (s.barSlot p) v := ⟨_, rfl⟩
  have hok : CtrOk u := hu ▸ hs.setCtr _ _
  have hctr (i : Nat) : u.ctr i = if i = s.barSlot p then v else s.ctr i := by rw [hu, State.ctr_setCtr hs]
  obtain ⟨-, hround, hcurs⟩ := hu ▸ State.bar_setSlot hs (show p + 1 < s.barSlot p by simp only [State.barSlot]; omega) v
  have hslot : u.barSlot p = s.barSlot p := congrArg (p + 2 + ·) hcurs
  have hapart : s.barSlot p ≠ p + 1 ∧ p ≠ s.barSlot p ∧ s.barOther p ≠ p + 1 ∧ s.barOther p ≠ s.barSlot p := by
    simp only [State.barOther, State.barSlot]
    omega
  obtain ⟨hone, hzero, hnext, hne⟩ := hapart
  obtain ⟨-, hround', hcurs'⟩ := State.bar_roundDone hok p
  rw [← hu]
  refine ⟨?_, hround'.trans (congrArg nextRound hround), hcurs'.trans (congrArg (1 - ·) hcurs), ?_, ?_⟩
  · rw [State.ctr_roundDone hok, hslot, if_neg hone, if_pos rfl]
  · rw [State.ctr_roundDone hok, hslot, if_neg (by omega), if_neg hzero, hctr, if_neg hzero]
  · rw [State.ctr_roundDone hok, hslot, if_neg hnext, if_neg hne, hctr, if_neg hne]

theorem State.roundDone_runs (s : State) (p : Nat) : Runs [.sync] s (s.roundDone p) := by
  have hround : nextRound (s.barRound p) < 2 ^ 14 := nextRound_lt (bits_lt ..)
  have hcur := s.barCur_le p
  exact (State.setCtr_runs s (s.barSlot p) 0 fun _ => by decide).trans
    (State.setCtr_runs _ (p + 1) _ fun _ => by omega)

/-- What the end of a round issues here (R194). -/
def State.issues (c : Nat) (e : SyncEntry) (n : Nat) (s : State) : State :=
  if e.onComplete = 0 then s else s.signal c e.onComplete (if (s.syncEntry c e.onComplete).kind = 2 then n else 1)

theorem syncCmd_arrive {s u : State} {c w : Nat} {ok : Bool} (hst : syncStatus s c w = 0) (hop : bits w 0 4 = 4)
    (hl : (s.syncEntry c (bits w 8 16)).local_ = true)
    (h : arriveAt (State.issues c (s.syncEntry c (bits w 8 16))) (4096 + 1) (s.syncEntry c (bits w 8 16)).phys (bits w 24 14) s =
      (u, ok)) : syncCmd s c w = (u, if ok then 0 else 4) := by
  unfold syncCmd
  dsimp only
  rw [if_neg (by simp [hst]), hop]
  refine (if_pos hl).trans ?_
  exact congrArg (fun r : State × Bool => (r.1, if r.2 then 0 else 4)) h

/-! The commands, one by one. -/

section
variable {s : State} {c : Nat} {w : Word64}

theorem State.ctr_synced (u : State) (c v i : Nat) : (u.modPage c (·.synced v)).ctr i = u.ctr i := rfl

/-- O34's clause for BARRIER_INIT. -/
theorem exec_barrierInit_opens (hw : s.wf = true) (hacts : s.PageActs c) (hst : syncStatus s c w.toNat = 0)
    (hop : bits w.toNat 0 4 = 5) {p k : Nat} (hp : (s.syncEntry c (bits w.toNat 8 16)).phys = p) (hk : bits w.toNat 24 14 = k) :
    ∃ t, exec (.barrierInit (.page c) w) s = .next t ∧ t.ctr p = k ∧ t.ctr (p + 1) = 1 ∧ t.ctr (p + 2) = 0 ∧
      t.ctr (p + 3) = 0 ∧ (∀ i, i < p ∨ p + 3 < i → t.ctr i = s.ctr i) ∧ (t.page c).syncReply = 0 ∧
      Frame [.sync, .host] s t := by
  have hlt : k < 2 ^ 14 := hk ▸ bits_lt ..
  have hcmd : syncCmd s c w.toNat = (s.barInit p k, 0) := by rw [syncCmd_barInit hst hop, hp, hk]
  have hruns := State.barInit_runs s p k
  have hgroup (i : Nat) := State.ctr_groupSet (State.twf_ctr hw) p k i
  refine ⟨_, need_sync_page hacts hop hcmd, ?_, ?_, ?_, ?_, fun i hi => ?_,
    State.syncReply_synced hw (hruns.same .host rfl) c 0, State.synced_runs (hruns.mono rfl) rfl c 0⟩
  all_goals rw [State.ctr_synced, State.ctr_barInit, hgroup]
  · rw [if_neg (by omega), if_neg (by omega), if_neg (by omega), if_pos rfl, Nat.mod_eq_of_lt hlt]
  · rw [if_neg (by omega), if_neg (by omega), if_pos rfl]
  · rw [if_neg (by omega), if_pos rfl]
  · rw [if_pos rfl]
  · rw [if_neg (by omega), if_neg (by omega), if_neg (by omega), if_neg (by omega)]

/-- An arrival whose effect on the group is `u`. -/
theorem exec_arrive_answers {u : State} {ok : Bool} {L : List Part} (hw : s.wf = true) (hacts : s.PageActs c)
    (hst : syncStatus s c w.toNat = 0) (hop : bits w.toNat 0 4 = 4) (hl : (s.syncEntry c (bits w.toNat 8 16)).local_ = true)
    (h : arriveAt (State.issues c (s.syncEntry c (bits w.toNat 8 16))) (4096 + 1) (s.syncEntry c (bits w.toNat 8 16)).phys
      (bits w.toNat 24 14) s = (u, ok)) (hruns : Runs L s u) (hL : within [.host] L = true) (hhost : u.host = s.host) :
    ∃ t, exec (.arrive (.page c) w) s = .next t ∧ (∀ i, t.ctr i = u.ctr i) ∧ t.obj = u.obj ∧
      (t.page c).syncReply = (if ok then 0 else 4) ∧ Frame L s t :=
  ⟨_, need_sync_page hacts hop (syncCmd_arrive hst hop hl h), fun _ => rfl, rfl, State.syncReply_synced hw hhost c _,
    State.synced_runs hruns hL c _⟩

end

/-- Settles O34: each arrival by what `arriveAt` does with it. -/
theorem barriersCountRounds : Obligations.BarriersCountRounds := by
  intro s c w hw hc hup hm hwait hst k e p cur
  have hacts : s.PageActs c := ⟨hc, hup, hm, hwait⟩
  have hctr : CtrOk s := State.twf_ctr hw
  have hexp : s.barExpected p < 2 ^ 14 := bits_lt ..
  refine ⟨fun hop => exec_barrierInit_opens hw hacts hst hop rfl rfl, fun hop hl he hr =>
    ⟨fun hd hlt => ?_, fun hd hlast hother hon => ?_, fun hd hlt => ?_, fun hd => ?_⟩⟩
  · have hruns := State.setCtr_runs s (s.barSlot p) (s.ctr (s.barSlot p) + 1) fun _ => by
      have : s.ctr (s.barSlot p) + 1 < s.barExpected p := hlt
      omega
    obtain ⟨t, hexec, ht, -, hreply, hframe⟩ := exec_arrive_answers (L := [.sync, .host]) hw hacts hst hop hl
      (arriveAt_counts hctr he hr hd hlt) (hruns.mono rfl) rfl (hruns.same .host rfl)
    have hset (i : Nat) := (ht i).trans (State.ctr_setCtr hctr (s.barSlot p) i _)
    exact ⟨t, hexec, (hset _).trans (if_pos rfl), fun i hi => (hset i).trans (if_neg hi), hreply, hframe⟩
  · have hruns := (State.setCtr_runs s (s.barSlot p) (s.barExpected p) fun _ => by omega).trans (State.roundDone_runs _ p)
    obtain ⟨t, hexec, ht, -, hreply, hframe⟩ := exec_arrive_answers (L := [.sync, .host]) hw hacts hst hop hl
      (arriveAt_completes hctr he hr hd hlast hother fun n t => if_pos hon) (hruns.mono rfl) rfl (hruns.same .host rfl)
    have hopened := State.opened_roundDone hctr p (s.barExpected p)
    exact ⟨t, hexec, (ht _).trans hopened.emptied, (State.barRound_congr (ht (p + 1))).trans hopened.round,
      (State.barCur_congr (ht (p + 1))).trans hopened.cur, (ht p).trans hopened.word, (ht _).trans hopened.other, hreply, hframe⟩
  · have hruns := State.setCtr_runs s (s.barOther p) (s.ctr (s.barOther p) + 1) fun _ => by
      have : s.ctr (s.barOther p) < s.barExpected p := hlt
      omega
    obtain ⟨t, hexec, ht, -, hreply, hframe⟩ := exec_arrive_answers (L := [.sync, .host]) hw hacts hst hop hl
      (arriveAt_next he hr hd hlt) (hruns.mono rfl) rfl (hruns.same .host rfl)
    have hset (i : Nat) := (ht i).trans (State.ctr_setCtr hctr (s.barOther p) i _)
    exact ⟨t, hexec, (hset _).trans (if_pos rfl), fun i hi => (hset i).trans (if_neg hi), hreply, hframe⟩
  · have hruns := State.misuse_runs s p
    obtain ⟨t, hexec, ht, hobj, hreply, hframe⟩ := exec_arrive_answers (L := [.sync, .host, .obj]) hw hacts hst hop hl
      (arriveAt_misused he hr hd) (hruns.mono rfl) rfl (hruns.same .host rfl)
    have hset (i : Nat) := (ht i).trans (State.ctr_misuse hctr p i)
    refine ⟨t, hexec, ?_, ?_, fun i hi => (hset i).trans (if_neg hi), hreply, hframe⟩
    · rw [(hset p).trans (if_pos rfl)]
      exact bit_or_pow _ 15
    · rw [State.ov_congr hobj]
      exact State.bit_misuse (State.keysFrom_vals hw) p

end Sys2Proof.Machine
end

