-- ==== Sys2Proof/Proofs/CoreSleep.lean ====
section
/-!
PROOF. Remote sync packets, and the sleep and wake of cores (R190, R191).
-/

namespace Sys2Proof.Machine

/-! A remote sync packet (R190). -/

theorem State.remoteSync_signal {s : State} {p : Packet} (h : p.field 8 1 = 0) :
    s.remoteSync p = s.ctrAdd (p.field 16 14) (p.field 32 14) := if_pos h

/-- An arrival from a peer that does not complete its round. -/
theorem State.remoteSync_arrival {s : State} {p : Packet} (h : p.field 8 1 = 1) {q : Nat} (hq : p.field 16 14 = q) (hs : CtrOk s)
    (he : s.barExpected q ≠ 0) (hr : s.barRound q ≠ 0) (hd : s.barDist q (p.field 32 14) = 0)
    (hlt : s.ctr (s.barSlot q) + 1 < s.barExpected q) :
    s.remoteSync p = s.setCtr (s.barSlot q) (s.ctr (s.barSlot q) + 1) := by
  unfold State.remoteSync
  dsimp only
  rw [if_neg (by omega), hq, arriveAt_counts hs he hr hd hlt]

/-! CORE_WAKE (R191). -/

theorem State.wakeRaised_iff {s : State} {n : Nat} : s.wakeRaised n = true ↔
    (s.core n).wake = true ∨ tget 0 s.sched.posts (dieOf n) ≠ (s.core n).sleptAt.2 ∨
      ∃ d e, d < 4 ∧ e ∈ s.dieList d ∧ e.ctx = (s.core n).ctx ∧ e.taken = false ∧
        ∃ k, k < 2 ∧ s.waitMoved e.ctx (s.core n).sleptAt.1 (dWait e.desc k) = true := by
  have hwaits (e : Entry) : (s.waitMoved e.ctx (s.core n).sleptAt.1 (dWait e.desc 0) = true ∨
      s.waitMoved e.ctx (s.core n).sleptAt.1 (dWait e.desc 1) = true) ↔
      ∃ k, k < 2 ∧ s.waitMoved e.ctx (s.core n).sleptAt.1 (dWait e.desc k) = true := by
    constructor
    · rintro (h | h)
      · exact ⟨0, by decide, h⟩
      · exact ⟨1, by decide, h⟩
    · rintro ⟨k, hk, h⟩
      obtain rfl | rfl : k = 0 ∨ k = 1 := by omega
      · exact .inl h
      · exact .inr h
  simp only [State.wakeRaised, Bool.or_eq_true, bne_iff_ne, List.any_eq_true, List.mem_flatMap, List.mem_range, Bool.and_eq_true,
    beq_iff_eq, Bool.not_eq_true', hwaits]
  constructor
  · rintro ((h | h) | ⟨e, ⟨d, hd, he⟩, ⟨hc, ht⟩, hk⟩)
    · exact .inl h
    · exact .inr (.inl h)
    · exact .inr (.inr ⟨d, e, hd, he, hc, ht, hk⟩)
  · rintro (h | h | ⟨d, e, hd, he, hc, ht, hk⟩)
    · exact .inl (.inl h)
    · exact .inl (.inr h)
    · exact .inr ⟨e, ⟨d, hd, he⟩, ⟨hc, ht⟩, hk⟩

/-! CORE_SLEEP (R191). -/

/-- A core asleep. -/
def Core.sleeping (c : Core) (at_ : Nat × Nat) : Core := { c with asleep := true, wake := false, sleptAt := at_ }

theorem State.posts_notice (s : State) : s.notice.sched.posts = s.sched.posts := by
  have hasked : ∀ (es : List Entry) (t : State), (es.foldl (fun s e => s.askCredit e) t).sched = t.sched := fun es t =>
    foldl_keeps (g := State.sched) (f := fun s (e : Entry) => s.askCredit e) (fun t e => (State.askCredit_runs e t).same .sched rfl) es t
  rw [State.notice, hasked]
  rfl

theorem State.notice_of_none {s : State} (h : s.sched.lists = []) : s.notice = s := by
  have hmark : s.markReady = s := by
    rw [State.markReady, h]
    change s.setSched { s.sched with lists := [] } = s
    rw [← h]
    rfl
  have hlists : (List.range 4).flatMap s.dieList = [] :=
    List.flatMap_eq_nil_iff.mpr fun d _ => by rw [State.dieList, h, tget_nil]
  rw [State.notice, hmark, hlists]
  rfl

theorem State.coreSleep_sleeps {s : State} {n : Nat} (hc : s.notice.candidates n = []) (ha : (s.core n).asleep = false)
    (ht : (s.core n).tiles = []) (hi : 64000 ≤ (s.clk - (s.core n).idleFrom) * pointMHz (s.die (dieOf n)).clock) :
    s.coreSleep n = s.notice.setCore n ((s.core n).sleeping (s.sync.changes, tget 0 s.sched.posts (dieOf n))) := by
  have hruns := State.notice_runs s
  have hcore : s.notice.core n = s.core n := State.core_congr (hruns.same .cores rfl) n
  have hdie : s.notice.die (dieOf n) = s.die (dieOf n) := State.die_congr (hruns.same .kettle rfl) _
  have hclk : s.notice.clk = s.clk := hruns.same .clk rfl
  have hsync : s.notice.sync = s.sync := hruns.same .sync rfl
  rw [State.coreSleep]
  rw [hcore, hdie, hclk, hsync, State.posts_notice, hc, if_pos ⟨ha, ht, hi, rfl⟩]
  rfl

/-- Settles O35: a packet by the counter or group that it names, a core by its wire and by what it may claim. -/
theorem remoteSyncAndSleep : Obligations.RemoteSyncAndSleep := by
  intro s hw hr
  have hctr : CtrOk s := State.twf_ctr hw
  have hcores : CoresOk s := State.twf_cores hw
  refine ⟨fun p hp h => ?_, fun p hp h => ?_, fun n hn ha hraised => ?_, fun n hn h => ?_,
    fun n hn hc ha ht hi => ?_⟩
  · have hexec : exec (.remoteSyncReceive p) s = .next ((s.taken p).ctrAdd (p.field 16 14) (p.field 32 14)) :=
      (need_of hp _).trans ((powered_of hr _).trans (congrArg _ (State.remoteSync_signal h)))
    have hadd (i : Nat) := State.ctr_ctrAdd (s := s.taken p) hctr (p.field 16 14) (p.field 32 14) i
    have hruns := State.ctrAdd_runs (s.taken p) (p.field 16 14) (p.field 32 14)
    exact ⟨_, hexec, (hadd _).trans (if_pos rfl), fun i hi => (hadd i).trans (if_neg hi),
      (hruns.same .router rfl : State.router _ = _).trans rfl,
      (Runs.comp hruns rfl ((State.taken_runs s p).mono rfl)).frame⟩
  · intro q i he hround hd hlt
    have heq := State.remoteSync_arrival (s := s.taken p) h (q := q) rfl hctr he hround hd hlt
    have hexec : exec (.remoteSyncReceive p) s = .next ((s.taken p).setCtr i (s.ctr i + 1)) :=
      (need_of hp _).trans ((powered_of hr _).trans (congrArg _ heq))
    have hset (j : Nat) := State.ctr_setCtr (s := s.taken p) hctr i j (s.ctr i + 1)
    have hexp : s.barExpected q < 2 ^ 14 := bits_lt ..
    have hruns := State.setCtr_runs (s.taken p) i (s.ctr i + 1) fun _ => by omega
    exact ⟨_, hexec, (hset _).trans (if_pos rfl), fun j hj => (hset j).trans (if_neg hj), rfl,
      (Runs.comp hruns rfl ((State.taken_runs s p).mono rfl)).frame⟩
  · have heq : s.coreWake n = s.modCore n ({ · with asleep := false, wake := false }) :=
      if_pos ⟨ha, State.wakeRaised_iff.mpr hraised⟩
    have hset (m : Nat) := State.core_setCore hcores n m { s.core n with asleep := false, wake := false }
    exact ⟨_, (need_of (decide_eq_true hn) _).trans ((powered_of hr _).trans (congrArg _ heq)), (hset n).trans (if_pos rfl),
      fun m hm => (hset m).trans (if_neg hm), (State.modCore_runs ..).frame⟩
  · have heq : s.coreWake n = s := if_neg (by rcases h with h | h <;> simp [h])
    exact (need_of (decide_eq_true hn) _).trans ((powered_of hr _).trans (congrArg _ heq))
  · have heq := State.coreSleep_sleeps hc ha ht hi
    have hruns := State.notice_runs s
    have hcores' : s.notice.cores = s.cores := hruns.same .cores rfl
    have hset (m : Nat) : (s.notice.setCore n ((s.core n).sleeping (s.sync.changes, tget 0 s.sched.posts (dieOf n)))).core m =
        if m = n then (s.core n).sleeping (s.sync.changes, tget 0 s.sched.posts (dieOf n)) else s.notice.core m :=
      State.core_setCore (by rwa [hcores']) n m _
    have hself := (hset n).trans (if_pos rfl)
    refine ⟨_, (need_of (decide_eq_true hn) _).trans ((powered_of hr _).trans (congrArg _ heq)), ?_, ?_, ?_, ?_, ?_, ?_,
      fun m hm => ((hset m).trans (if_neg hm)).trans (State.core_congr hcores' m), fun hnone => ?_,
      (Runs.comp (State.setCore_runs ..) rfl (hruns.mono rfl)).frame⟩
    · rw [hself]
      rfl
    · rw [hself]
      rfl
    · rw [hself]
      rfl
    · rw [hself]
      rfl
    · rw [hself]
      rfl
    · rw [hself]
      rfl
    · rw [State.notice_of_none hnone]
      exact (State.setCore_runs ..).frame

end Sys2Proof.Machine
end

