-- ==== Sys2Proof/Proofs/LinkRecords.lean ====
section
/-!
PROOF. What an operation makes of one link's record, and how a received flit reaches its effect (R156, R157, R161, R166, R387).
-/

namespace Sys2Proof.Machine

/-! One link's record changes, the other links' stand. -/

/-- From `s` to `t` link `l` has become `x`, the other links are as they were, and nothing beyond the parts `L` has changed. -/
structure State.LinkTo (L : List Part) (s t : State) (l : Nat) (x : Link) : Prop where
  link : t.link l = x
  others : OtherLinks l s t
  ok : LinksOk t
  runs : Runs L s t

section
variable {L K : List Part} {s t u : State} {l : Nat} {x : Link}

theorem State.linkTo_set (h : LinksOk s) (l : Nat) (x : Link) : State.LinkTo [.links] s (s.setLink l x) l x where
  link := (State.link_setLink h l l x).trans (if_pos rfl)
  others k hk := (State.link_setLink h l k x).trans (if_neg hk)
  ok := twf_tset _ _ _ h
  runs := State.setLink_runs ..

theorem State.LinkTo.refl (h : LinksOk s) (l : Nat) : State.LinkTo [] s s l (s.link l) where
  link := rfl
  others _ _ := rfl
  ok := h
  runs := .refl s

theorem State.LinkTo.mono (h : State.LinkTo L s t l x) (hL : within L K = true) : State.LinkTo K s t l x where
  link := h.link
  others := h.others
  ok := h.ok
  runs := h.runs.mono hL

theorem State.LinkTo.set (h : State.LinkTo L s t l x) (hL : within [.links] L = true) (y : Link) :
    State.LinkTo L s (t.setLink l y) l y where
  link := (State.linkTo_set h.ok l y).link
  others k hk := ((State.linkTo_set h.ok l y).others k hk).trans (h.others k hk)
  ok := (State.linkTo_set h.ok l y).ok
  runs := h.runs.trans ((State.setLink_runs ..).mono hL)

theorem State.LinkTo.mod (h : State.LinkTo L s t l x) (hL : within [.links] L = true) (f : Link → Link) :
    State.LinkTo L s (t.modLink l f) l (f x) := h.link ▸ h.set hL (f (t.link l))

/-- An operation that touches no link. -/
theorem State.LinkTo.beside (h : State.LinkTo L s t l x) (hr : Runs K t u) (hK : within K L = true) (hlinks : u.links = t.links) :
    State.LinkTo L s u l x where
  link := (State.link_congr hlinks l).trans h.link
  others k hk := (State.link_congr hlinks k).trans (h.others k hk)
  ok := by
    rw [LinksOk, hlinks]
    exact h.ok
  runs := h.runs.trans (hr.mono hK)

theorem State.LinkTo.frame (h : State.LinkTo L s t l x) : Frame L s t := h.runs.frame

/-- Two steps on the same link. -/
theorem State.LinkTo.trans {y : Link} (h : State.LinkTo L s t l x) (k : State.LinkTo L t u l y) : State.LinkTo L s u l y where
  link := k.link
  others i hi := (k.others i hi).trans (h.others i hi)
  ok := k.ok
  runs := h.runs.trans k.runs

end

/-! Retraining after a loss (R166, R387). -/

/-- What a link's loss leaves of FAULT_STATUS: an uncovered fault (R385). -/
def State.FaultSeen (t : State) : Prop := bit (t.ov faultStatusId) 1 = true

theorem State.faultSeen_uncovered {s : State} (h : ValsOk s) (code unit : Nat) (ctxs : List Nat) :
    (s.uncovered code unit ctxs).FaultSeen := by
  rw [State.FaultSeen, State.ov_uncovered h, if_pos rfl]
  exact bit_uncoveredStatus _

theorem State.linkTo_linkRetrain {L : List Part} {s t : State} {l : Nat} {x : Link} (h : State.LinkTo L s t l x)
    (hL : within [.links, .router, .steps, .obj, .flash] L = true) (hv : ValsOk t) (code : Nat) :
    State.LinkTo L s (t.linkRetrain l code) l (x.retrain code) ∧ (t.linkRetrain l code).FaultSeen := by
  have hmono (K : List Part) (hK : within K [.links, .router, .steps, .obj, .flash] = true) : within K L = true :=
    within_trans hK hL
  obtain ⟨u, hu⟩ : ∃ u, u = (t.modLink l (·.retrain code)).uncovered code l (t.modLink l (·.retrain code)).stepCtxs := ⟨_, rfl⟩
  have huncovered : Runs [.router, .steps, .obj, .flash] (t.modLink l (·.retrain code)) u := hu ▸ State.uncovered_runs ..
  have hto : State.LinkTo L s u l (x.retrain code) :=
    (h.mod (hmono _ rfl) (·.retrain code)).beside huncovered (hmono _ rfl) (huncovered.same .links rfl)
  have hnotices : Runs [.router, .flash] u ((u.link l).out.foldl (fun s o => s.notice388 code o.pkt) u) :=
    .foldl (fun _ _ => State.notice388_runs ..) _ (.refl u)
  have hseen : u.FaultSeen := hu ▸ State.faultSeen_uncovered (s := t.modLink l (·.retrain code)) hv ..
  have heq : t.linkRetrain l code = (u.link l).out.foldl (fun s o => s.notice388 code o.pkt) u := by rw [hu]; rfl
  rw [heq]
  refine ⟨hto.beside hnotices (hmono _ rfl) (hnotices.same .links rfl), ?_⟩
  rw [State.FaultSeen, State.ov_congr (hnotices.same .obj rfl)]
  exact hseen

/-! A received flit (R156, R157, R161). -/

section
variable {s : State} {l want : Nat} {raw : List Byte} {f : State → State}

/-- A link that receives: it is neither DOWN nor MISCABLED. -/
def Link.hears (x : Link) : Prop := x.st ≠ .down ∧ x.st ≠ .miscabled

theorem Link.hears_of_up {x : Link} (h : x.up = true) : x.hears := by
  constructor <;> intro hst <;> rw [Link.up, hst] at h <;> exact Bool.noConfusion h

theorem Link.hears_of_training {x : Link} (h : x.st = .training) : x.hears := by
  constructor <;> rw [h] <;> decide

theorem State.flitIn_looped (h : s.looped l = true) (fecOk : Bool) : s.flitIn l want raw fecOk f = s := if_pos h

/-- A good flit of the type that a command is about has its effect, once its release pointer and credits are taken. -/
theorem State.flitIn_good (hloop : s.looped l = false) (hears : (s.link l).hears) (h : goodFlit want raw) :
    s.flitIn l want raw true f = f (s.setLink l ((s.link l).header raw)) := by
  obtain ⟨hcrc, hbad, htype⟩ := h
  rw [State.flitIn, if_neg (by simp [hloop]), State.flitCore]
  rw [if_neg (by simp [hears.1, hears.2]), if_neg (by decide), if_neg (by simp [hcrc]), if_neg (by simp [hbad]), if_pos htype]

/-- A LANE_CTRL flit that carries message `msg`. -/
theorem State.laneIn_good {msg : Nat} {g : LaneMsg → State → State} (hloop : s.looped l = false) (hears : (s.link l).hears)
    (h : goodFlit 5 raw) (hm : (LaneMsg.of (flPayload raw)).msg = msg) (h1 : 0 < msg) (h5 : msg ≤ 5) :
    s.laneIn l msg raw g = g (LaneMsg.of (flPayload raw)) (s.setLink l ((s.link l).header raw)) := by
  rw [State.laneIn, State.flitIn_good hloop hears h, State.laneDo]
  rw [hm, if_neg (by omega), if_pos rfl]

end

/-! What a flit's header leaves of a link. -/

section
variable (x : Link) (raw : List Byte)

/-- A link without its retry buffer and its credits. -/
def Link.beyond (x : Link) : Link := { x with retry := [], again := [], used := [] }

end

/-! Messages sent, and kept until they are answered (R164). -/

section
variable {L : List Part} {s t : State} {l : Nat} {x : Link}

/-- A link with an answer queued. -/
def Link.answering (x : Link) (m : LaneMsg) : Link := x.queue 5 m.bytes

/-- A link with a message queued and kept. -/
def Link.asking (x : Link) (m : LaneMsg) : Link :=
  { x.queue 5 m.bytes with msgSeq := (x.msgSeq + 1) % 256, waiting := x.waiting ++ [m] }

theorem State.LinkTo.laneAnswer (h : State.LinkTo L s t l x) (hL : within [.links] L = true) (m : LaneMsg) :
    State.LinkTo L s (t.laneAnswer l m) l (x.answering m) := h.mod hL (·.queue 5 m.bytes)

theorem State.LinkTo.laneSend (h : State.LinkTo L s t l x) (hL : within [.links] L = true) {m : LaneMsg}
    (hm : m.msg = 1 ∨ m.msg = 2 ∨ m.msg = 4) : State.LinkTo L s (t.laneSend l m) l (x.asking m) := by
  have hto := h.mod hL (fun x => { x.queue 5 m.bytes with
    msgSeq := (x.msgSeq + 1) % 256
    waiting := if m.msg = 1 ∨ m.msg = 2 ∨ m.msg = 4 then x.waiting ++ [m] else x.waiting })
  rw [if_pos hm] at hto
  exact hto

end

end Sys2Proof.Machine
end

