-- ==== Sys2Proof/Proofs/Training.lean ====
section
/-!
PROOF. A link trains (R162 to R166): light, lanes that lock, IDENT, WIDTH_SET and WIDTH_ACK, and the round of the change.
-/

namespace Sys2Proof.Machine

/-! The number of a LANE_CTRL message is the lowest field of its payload (R164). -/

theorem setBits_mod_of_le (v w x : Nat) {k lo : Nat} (h : k ≤ lo) : setBits v lo w x % 2 ^ k = v % 2 ^ k := by
  obtain ⟨d, rfl⟩ := Nat.exists_eq_add_of_le h
  rw [setBits_eq, Nat.pow_add, Nat.mul_assoc, Nat.mul_add_mod, ← Nat.pow_add,
    Nat.mod_mod_of_dvd _ (Nat.pow_dvd_pow 2 (Nat.le_add_right k d))]

theorem foldl_setBits_mod_of_le {k : Nat} {fs : List (Nat × Nat × Nat)} (h : fs.all (fun f => decide (k ≤ f.1)) = true) (v : Nat) :
    fs.foldl (fun v f => setBits v f.1 f.2.1 f.2.2) v % 2 ^ k = v % 2 ^ k := by
  induction fs generalizing v with
  | nil => rfl
  | cons f fs ih =>
    obtain ⟨hf, hfs⟩ := Bool.and_eq_true_iff.mp h
    exact (ih hfs _).trans (setBits_mod_of_le _ _ _ (of_decide_eq_true hf))

theorem LaneMsg.msg_eq (b : List Byte) : (LaneMsg.of b).msg = leNat b % 2 ^ 8 := by
  have h : (LaneMsg.of b).msg = bytesField b 0 8 := rfl
  rw [h, bytesField_eq, Nat.pow_zero, Nat.div_one]

theorem LaneMsg.msg_of_bytes (m : LaneMsg) : (LaneMsg.of m.bytes).msg = m.msg % 2 ^ 8 := by
  have hlow : setBits 0 0 8 m.msg = m.msg % 2 ^ 8 := by
    rw [setBits_eq, Nat.zero_div, Nat.zero_div, Nat.mul_zero, Nat.zero_add, Nat.pow_zero, Nat.one_mul, Nat.mod_one, Nat.add_zero]
  rw [LaneMsg.msg_eq, LaneMsg.bytes, mkBody, leNat_toLE, Nat.mod_mod_of_dvd _ (Nat.pow_dvd_pow 2 (by decide)), List.foldl_cons,
    foldl_setBits_mod_of_le rfl, hlow, Nat.mod_mod]

/-- A message whose number the filter does not name stays queued and waiting. -/
theorem Link.mem_ctl_settle {x : Link} {m : LaneMsg} {p : LaneMsg → Bool} (h : 5 :: m.bytes ∈ x.ctl)
    (hp : p (LaneMsg.of m.bytes) = false) : 5 :: m.bytes ∈ (x.settle p).ctl :=
  List.mem_filter.mpr ⟨h, by
    rw [List.drop_succ_cons, List.drop_zero, hp, Bool.and_false]
    rfl⟩

/-! Light and lanes (R162, R163 steps 1 and 2). -/

theorem Link.findLaser_keeps (x : Link) (now : Nat) :
    (x.findLaser now).st = x.st ∧ (x.findLaser now).width = x.width := by
  unfold Link.findLaser
  split
  · split <;> exact ⟨rfl, rfl⟩
  · exact ⟨rfl, rfl⟩

section
variable {s : State} {l : Nat}

theorem State.lightArrival_trains (hv : LinksOk s) (hdown : (s.link l).st = .down) (hen : s.linkEnabled l = true) :
    ∃ t, s.lightArrival l = t ∧ (t.link l).st = .training ∧ (t.link l).width = 0 ∧
      (t.link l).rxLight = true ∧ (t.link l).txLight = true ∧ OtherLinks l s t ∧ Frame [.links] s t := by
  obtain ⟨hst, hwidth⟩ := ((s.link l).retrain 0).findLaser_keeps (s.ftRead mgmtPs)
  have hto := State.linkTo_set hv l { ((s.link l).retrain 0).findLaser (s.ftRead mgmtPs) with
    txLight := true
    rxLight := true }
  refine ⟨_, if_pos ⟨hdown, hen⟩, ?_, ?_, ?_, ?_, hto.others, hto.frame⟩ <;> rw [hto.link]
  · exact hst
  · exact hwidth

/-- A link whose lanes have locked. -/
def Link.locked (x : Link) (g : Nat) : Link :=
  { x with
    healthy := g
    laneRx := laneMap g 4
    failRx := lanesNot g }

variable {h g : Nat}

theorem State.laneLockDone_few (hv : LinksOk s) (htrain : (s.link l).st = .training)
    (hg : g = withoutSpared h (s.spareLanes 1 l)) (hfew : (lanes g).length < 4) :
    State.LinkTo [.links] s (s.laneLockDone l h) l ((s.link l).locked g) := by
  subst hg
  have heq : s.laneLockDone l h = s.setLink l ((s.link l).locked (withoutSpared h (s.spareLanes 1 l))) := by
    rw [State.laneLockDone]
    exact (if_neg (by simp [htrain])).trans (if_pos hfew)
  exact heq ▸ State.linkTo_set hv l _

theorem State.laneLockDone_enough (hv : LinksOk s) (htrain : (s.link l).st = .training)
    (hg : g = withoutSpared h (s.spareLanes 1 l)) (henough : 4 ≤ (lanes g).length) :
    State.LinkTo [.links] s (s.laneLockDone l h) l
      (Link.asking { (s.link l).locked g with width := 4 } ((s.setLink l ((s.link l).locked g)).laneMsg l 1)) := by
  subst hg
  have heq : s.laneLockDone l h =
      ((s.setLink l ((s.link l).locked (withoutSpared h (s.spareLanes 1 l)))).modLink l ({ · with width := 4 })).laneSend l
        ((s.setLink l ((s.link l).locked (withoutSpared h (s.spareLanes 1 l)))).laneMsg l 1) := by
    rw [State.laneLockDone]
    exact (if_neg (by simp [htrain])).trans (if_neg (Nat.not_lt.mpr henough))
  exact heq ▸ ((State.linkTo_set hv l _).mod rfl ({ · with width := 4 })).laneSend rfl (.inl rfl)

/-- A message of this end names its module, its link and its configured width. -/
theorem State.laneMsg_of_linkTo {t : State} {x : Link} (hto : State.LinkTo [.links] s t l x) (msg : Nat) :
    (t.laneMsg l msg).device = s.me ∧ (t.laneMsg l msg).cfgWidth = s.cfgWidth l ∧
      (t.laneMsg l msg).healthy = if x.st = .training then x.healthy else lanesNot x.failRx := by
  refine ⟨?_, State.ov_congr (hto.runs.same .obj rfl) _, ?_⟩
  · exact congrArg (· % 65536) (State.ov_congr (hto.runs.same .obj rfl) myCoordId)
  · rw [State.laneMsg, hto.link]

theorem State.me_of_linkTo {t : State} {x : Link} (hto : State.LinkTo [.links] s t l x) : t.me = s.me :=
  congrArg (· % 65536) (State.ov_congr (hto.runs.same .obj rfl) myCoordId)

end

/-! IDENT in training (R163 steps 3 to 5, R164). -/

/-- A link that takes note of its neighbour's IDENT. -/
def Link.identified (x : Link) (m : LaneMsg) : Link :=
  { x.settle (fun w => w.msg == 1) with
    peer := some m
    nbr := m.device
    laneTx := laneMap m.healthy 4
    failTx := lanesNot m.healthy }

/-- A link before it proposes a width. -/
def Link.proposing (x : Link) (w : Nat) : Link :=
  { x.settle (fun m => m.msg == 2) with
    txChange := some (w, none)
    rxChange := none
    txDone := false
    rxDone := false }

/-- The IDENT is that of the neighbour that the wiring names (R162). -/
def State.rightPeer (s : State) (l : Nat) (m : LaneMsg) : Prop :=
  m.device = s.nbrDev l ∧ m.link = (if l % 2 = 0 then l + 1 else l - 1)

section
variable {s : State} {l : Nat} {m : LaneMsg}

theorem State.identIn_miscabled (hv : LinksOk s) (hup : (s.link l).up = false) (hhealthy : (s.link l).healthy ≠ 0)
    (hloop : s.looped l = false) (hright : ¬s.rightPeer l m) :
    State.LinkTo [.links] s (s.identIn l m) l
      { ((s.link l).identified m).settle (fun _ => true) with
        st := .miscabled
        width := 0
        ctl := [] } := by
  have hwrong : m.device ≠ s.nbrDev l ∨ m.link ≠ (if l % 2 = 0 then l + 1 else l - 1) := not_and_or.mp hright
  have heq : s.identIn l m = (s.setLink l ((s.link l).identified m)).modLink l (fun y => { y.settle (fun _ => true) with
      st := .miscabled
      width := 0
      ctl := [] }) := by
    rw [State.identIn]
    exact (if_neg (by simp [hup])).trans ((if_neg hhealthy).trans (if_pos ⟨hloop, hwrong⟩))
  exact heq ▸ (State.linkTo_set hv l _).mod rfl (fun y : Link => { y.settle (fun _ => true) with
      st := .miscabled
      width := 0
      ctl := [] })

/-- The IDENT that answers one which came unasked. -/
def State.identAnswer (s : State) (l : Nat) (m : LaneMsg) : LaneMsg := { s.laneMsg l 1 with seq := m.seq }

/-- A link once the right neighbour's IDENT is taken note of and answered. -/
def State.met (s : State) (l : Nat) (m : LaneMsg) : State :=
  let t := s.setLink l ((s.link l).identified m)
  if (s.link l).waiting.any (fun w => w.msg == 1) then t else t.laneAnswer l (t.identAnswer l m)

/-- The WIDTH_SET with the width that both ends compute. -/
def State.proposal (s : State) (l : Nat) : LaneMsg := { s.laneMsg l 2 with width := s.agreedWidth l }

/-- A link that proposes the width that both ends compute. -/
def State.proposed (s : State) (l : Nat) : State :=
  (s.modLink l (·.proposing (s.agreedWidth l))).laneSend l (s.proposal l)

theorem State.identIn_right (hup : (s.link l).up = false) (hhealthy : (s.link l).healthy ≠ 0)
    (hloop : s.looped l = false) (hright : s.rightPeer l m) :
    s.identIn l m = if (s.met l m).me < m.device ∧ 0 < (s.met l m).agreedWidth l ∧
      ((s.met l m).link l).txChange.map (·.1) ≠ some ((s.met l m).agreedWidth l) then (s.met l m).proposed l else s.met l m := by
  have hnot : ¬(s.looped l = false ∧ (m.device ≠ s.nbrDev l ∨ m.link ≠ (if l % 2 = 0 then l + 1 else l - 1))) :=
    fun h => (not_and_or.mpr h.2) hright
  have hor (p : Prop) : (s.looped l = true ∨ p) = p := by simp [hloop]
  rw [State.identIn]
  refine (if_neg (by simp [hup])).trans ((if_neg hhealthy).trans ((if_neg hnot).trans ?_))
  simp only [hor]
  rfl

/-- What a link has noted of the neighbour's IDENT `m`, from what it was before. -/
structure Link.Knows (x y : Link) (m : LaneMsg) : Prop where
  st : y.st = x.st
  healthy : y.healthy = x.healthy
  peer : y.peer = some m
  nbr : y.nbr = m.device
  failTx : y.failTx = lanesNot m.healthy
  laneTx : y.laneTx = laneMap m.healthy 4

theorem Link.Knows.of_same {x y z : Link} (h : x.Knows y m) (hst : z.st = y.st) (hhealthy : z.healthy = y.healthy)
    (hpeer : z.peer = y.peer) (hnbr : z.nbr = y.nbr) (hfail : z.failTx = y.failTx) (hlane : z.laneTx = y.laneTx) : x.Knows z m where
  st := hst.trans h.st
  healthy := hhealthy.trans h.healthy
  peer := hpeer.trans h.peer
  nbr := hnbr.trans h.nbr
  failTx := hfail.trans h.failTx
  laneTx := hlane.trans h.laneTx

section
variable (y : Link) (w : Nat) (q : LaneMsg)

theorem Link.proposed_st : ((y.proposing w).asking q).st = y.st := rfl
theorem Link.proposed_healthy : ((y.proposing w).asking q).healthy = y.healthy := rfl
theorem Link.proposed_peer : ((y.proposing w).asking q).peer = y.peer := rfl
theorem Link.proposed_nbr : ((y.proposing w).asking q).nbr = y.nbr := rfl
theorem Link.proposed_failTx : ((y.proposing w).asking q).failTx = y.failTx := rfl
theorem Link.proposed_laneTx : ((y.proposing w).asking q).laneTx = y.laneTx := rfl

end

theorem State.linkTo_met (hv : LinksOk s) : ∃ y, State.LinkTo [.links] s (s.met l m) l y ∧ (s.link l).Knows y m ∧
    y.txChange = (s.link l).txChange ∧
    ((s.link l).waiting.any (fun w => w.msg == 1) = false →
      5 :: ((s.setLink l ((s.link l).identified m)).identAnswer l m).bytes ∈ y.ctl) := by
  have hto := State.linkTo_set hv l ((s.link l).identified m)
  rw [State.met]
  split
  next h => exact ⟨_, hto, ⟨rfl, rfl, rfl, rfl, rfl, rfl⟩, rfl, fun h' => Bool.noConfusion (h'.symm.trans h)⟩
  · exact ⟨_, hto.laneAnswer rfl _, ⟨rfl, rfl, rfl, rfl, rfl, rfl⟩, rfl, fun _ => List.mem_append_right _ (List.mem_singleton.mpr rfl)⟩

/-- The width that two IDENTs give depends on what the link knows of both ends. -/
theorem State.agreedWidth_congr {t : State} {x : Link} (hs : x.Knows (s.link l) m) (ht : x.Knows (t.link l) m)
    (hobj : t.obj = s.obj) : t.agreedWidth l = s.agreedWidth l := by
  have hcfg : t.cfgWidth l = s.cfgWidth l := State.ov_congr hobj _
  rw [State.agreedWidth, State.agreedWidth, hcfg, hs.peer, hs.healthy, ht.peer, ht.healthy]

/-- The right neighbour's IDENT in training is noted and answered, and the lower device ID proposes the width. -/
theorem State.identIn_training (hv : LinksOk s) (hup : (s.link l).up = false) (hhealthy : (s.link l).healthy ≠ 0)
    (hloop : s.looped l = false) (hright : s.rightPeer l m) :
    ∃ t y, s.identIn l m = t ∧ State.LinkTo [.links] s t l y ∧ (s.link l).Knows y m ∧
      (s.me < m.device → 0 < t.agreedWidth l → (s.link l).txChange.map (·.1) ≠ some (t.agreedWidth l) →
        ∃ q : LaneMsg, y.txChange = some (t.agreedWidth l, none) ∧ q ∈ y.waiting ∧ q.msg = 2 ∧
          q.width = t.agreedWidth l ∧ 5 :: q.bytes ∈ y.ctl) ∧
      ((s.link l).waiting.any (fun w => w.msg == 1) = false →
        ∃ q : LaneMsg, 5 :: q.bytes ∈ y.ctl ∧ q.msg = 1 ∧ q.seq = m.seq ∧ q.device = s.me ∧
          q.healthy = if (s.link l).st = .training then (s.link l).healthy else lanesNot (s.link l).failRx) := by
  obtain ⟨y, hto, hknows, htx, hctl⟩ := State.linkTo_met (m := m) (l := l) hv
  obtain ⟨q, hq⟩ : ∃ q, q = (s.setLink l ((s.link l).identified m)).identAnswer l m := ⟨_, rfl⟩
  rw [← hq] at hctl
  have hfields : q.msg = 1 ∧ q.seq = m.seq ∧ q.device = s.me ∧
      q.healthy = if (s.link l).st = .training then (s.link l).healthy else lanesNot (s.link l).failRx := by
    obtain ⟨hdev, -, hheal⟩ := State.laneMsg_of_linkTo (State.linkTo_set hv l ((s.link l).identified m)) 1
    rw [hq]
    exact ⟨rfl, rfl, hdev, hheal⟩
  have hme : (s.met l m).me = s.me := State.me_of_linkTo hto
  rw [State.identIn_right hup hhealthy hloop hright]
  generalize s.met l m = u at *
  obtain ⟨w, hw⟩ : ∃ w, w = u.agreedWidth l := ⟨_, rfl⟩
  rw [hto.link, htx, hme, ← hw]
  split
  case isTrue hlower =>
    obtain ⟨hp2, hpw⟩ : (u.proposal l).msg = 2 ∧ (u.proposal l).width = w := ⟨rfl, hw.symm⟩
    have hto' : State.LinkTo [.links] s (u.proposed l) l ((y.proposing w).asking (u.proposal l)) := by
      rw [hw]
      exact (hto.mod rfl (·.proposing (u.agreedWidth l))).laneSend rfl (.inr (.inl hp2))
    have hknows' := hknows.of_same (y.proposed_st w (u.proposal l)) (y.proposed_healthy w _) (y.proposed_peer w _)
      (y.proposed_nbr w _) (y.proposed_failTx w _) (y.proposed_laneTx w _)
    generalize u.proposal l = p at *
    have hobj' : (u.proposed l).obj = s.obj := hto'.runs.same .obj rfl
    have hobj : u.obj = s.obj := hto.runs.same .obj rfl
    have hwidth : (u.proposed l).agreedWidth l = w :=
      (State.agreedWidth_congr (hto.link.symm ▸ hknows) (hto'.link.symm ▸ hknows') (hobj'.trans hobj.symm)).trans hw.symm
    refine ⟨_, _, rfl, hto', hknows', fun _ _ _ => ?_, fun hnot => ?_⟩
    · rw [hwidth]
      exact ⟨p, rfl, List.mem_append_right _ (List.mem_singleton.mpr rfl), hp2, hpw,
        List.mem_append_right _ (List.mem_singleton.mpr rfl)⟩
    · have hkept : 5 :: q.bytes ∈ (y.settle (fun m => m.msg == 2)).ctl := by
        refine Link.mem_ctl_settle (hctl hnot) ?_
        rw [LaneMsg.msg_of_bytes, hfields.1]
        rfl
      exact ⟨q, List.mem_append_left _ hkept, hfields⟩
  case isFalse hnot =>
    exact ⟨u, y, rfl, hto, hknows, fun h0 h1 h2 => (hnot ⟨h0, hw ▸ h1, hw ▸ h2⟩).elim, fun h => ⟨q, hctl h, hfields⟩⟩

end

/-! IDENT on a link that carries traffic: the other end retrains (R165, R166). -/

section
variable {s : State} {l : Nat} {m : LaneMsg}

theorem State.identIn_up (hv : LinksOk s) (ho : ValsOk s) (hup : (s.link l).up = true) :
    ((s.link l).peerWidth m = true → State.LinkTo [.links] s (s.identIn l m) l ((s.link l).retrain 0)) ∧
      ((s.link l).peerWidth m = false →
        State.LinkTo [.links, .router, .steps, .obj, .flash] s (s.identIn l m) l ((s.link l).retrain 0x12) ∧
          (s.identIn l m).FaultSeen) := by
  have heq : s.identIn l m = if (s.link l).peerWidth m then s.setLink l ((s.link l).retrain 0) else s.linkRetrain l 0x12 := by
    rw [State.identIn]
    exact if_pos hup
  refine ⟨fun h => ?_, fun h => ?_⟩ <;> rw [heq, h]
  · exact State.linkTo_set hv l _
  · exact State.linkTo_linkRetrain ((State.LinkTo.refl hv l).mono rfl) rfl ho 0x12

/-! WIDTH_SET and WIDTH_ACK (R164). -/

/-- The WIDTH_ACK of a WIDTH_SET. -/
def State.widthReply (s : State) (l : Nat) (m : LaneMsg) : LaneMsg :=
  { s.laneMsg l 3 with
    seq := m.seq
    width := m.width }

theorem State.widthReply_fields (s : State) (l : Nat) (m : LaneMsg) :
    (s.widthReply l m).msg = 3 ∧ (s.widthReply l m).seq = m.seq ∧ (s.widthReply l m).width = m.width := ⟨rfl, rfl, rfl⟩

theorem State.widthSetIn_repeated (hup : (s.link l).up = true) (hw : m.width = (s.link l).width) (hloop : s.looped l = false) :
    s.widthSetIn l m = s.laneAnswer l (s.widthReply l m) := if_pos ⟨hup, hw, hloop⟩

variable (hup : (s.link l).up = false) (htrain : (s.link l).st = .training) (hloop : s.looped l = false)
include hup htrain hloop

theorem State.widthSetIn_training : s.widthSetIn l m =
    if 0 < m.width ∧ m.width = s.agreedWidth l then
      (s.setLink l { s.link l with
        txChange := some (m.width, none)
        rxChange := some (m.width, m.atRound) }).laneAnswer l (s.widthReply l m)
    else if (s.link l).healthy = 0 then s.linkErr l 3
    else (s.linkErr l 3).laneSend l ((s.linkErr l 3).laneMsg l 1) := by
  have hrepeat : ¬((s.link l).up = true ∧ m.width = (s.link l).width ∧ s.looped l = false) := by simp [hup]
  rw [State.widthSetIn]
  exact (if_neg hrepeat).trans ((if_neg (by simp [htrain])).trans (if_neg (by simp [hloop])))

theorem State.widthSetIn_agreed (hv : LinksOk s) (hpos : 0 < m.width) (hw : m.width = s.agreedWidth l) :
    State.LinkTo [.links] s (s.widthSetIn l m) l
      (Link.answering { s.link l with
        txChange := some (m.width, none)
        rxChange := some (m.width, m.atRound) } (s.widthReply l m)) := by
  rw [State.widthSetIn_training hup htrain hloop, if_pos ⟨hpos, hw⟩]
  exact (State.linkTo_set hv l _).laneAnswer rfl _

theorem State.widthSetIn_refused (hv : LinksOk s) (hw : m.width ≠ s.agreedWidth l) :
    ∃ y, State.LinkTo [.links, .obj] s (s.widthSetIn l m) l y ∧ y.st = .training ∧ y.rxChange = (s.link l).rxChange ∧
      y.txChange = (s.link l).txChange := by
  have herr : State.LinkTo [.links, .obj] s (s.linkErr l 3) l (s.link l) :=
    ((State.LinkTo.refl hv l).mono rfl).beside (State.linkErr_runs ..) rfl ((State.linkErr_runs ..).same .links rfl)
  rw [State.widthSetIn_training hup htrain hloop, if_neg (fun h => hw h.2)]
  split
  · exact ⟨_, herr, htrain, rfl, rfl⟩
  · exact ⟨_, herr.laneSend rfl (.inl rfl), htrain, rfl, rfl⟩

end

section
variable {s : State} {l : Nat} {m : LaneMsg}

theorem State.widthAgreed_acknowledged (hv : LinksOk s) (htrain : (s.link l).st = .training)
    (hasked : (s.link l).waiting.any (fun w => w.msg == 2 && w.seq == m.seq && w.width == m.width) = true) :
    State.LinkTo [.links] s (s.widthAgreed l m) l
      { (s.link l).settle (fun w => w.msg == 2) with rxChange := some (m.width, m.atRound) } := by
  have heq : s.widthAgreed l m =
      s.setLink l { (s.link l).settle (fun w => w.msg == 2) with rxChange := some (m.width, m.atRound) } := if_pos ⟨htrain, hasked⟩
  exact heq ▸ State.linkTo_set hv l _

/-- The message settled waits no longer. -/
theorem Link.msg_of_mem_settle {x : Link} {k : Nat} {w : LaneMsg} (h : w ∈ (x.settle (fun w => w.msg == k)).waiting) : w.msg ≠ k := by
  have hk := (List.mem_filter.mp h).2
  intro hw
  simp [hw] at hk

end

/-! The round of the change (R152, R162, R164 to R166, R403). -/

/-- A link of which one direction has changed. -/
def Link.changed (x : Link) (rx : Bool) : Link := if rx then { x with rxDone := true } else { x with txDone := true }

/-- A link that has trained to width `w` of the configured `cfg`. -/
def Link.trained (x : Link) (w cfg : Nat) : Link :=
  { x.takeUp with
    st := if w = cfg ∧ w = (match x.peer with
      | some m => m.cfgWidth
      | none => cfg) then .active else .degraded
    width := w
    fault := 0
    laneRx := laneMap x.healthy w
    laneTx := laneMap (lanesNot x.failTx) w
    spareRx := spareMap x.healthy w
    spareTx := spareMap (lanesNot x.failTx) w
    waiting := [] }

theorem Link.again_takeUp (x : Link) : x.takeUp.again = x.retry.map (·.seq) := by
  rw [Link.takeUp]
  dsimp only
  split <;> rfl

section
variable {s t : State} {l w : Nat} {x : Link}

theorem State.LinkTo.trained (h : State.LinkTo [.links] s t l x) (w : Nat) :
    State.LinkTo [.links, .router, .host, .flash, .out] s (t.trained l w) l (x.trained w (t.cfgWidth l)) ∧
      (w < t.cfgWidth l → bit (t.trained l w).flash.service 2 = true) := by
  obtain ⟨u, hu⟩ : ∃ u, u = ((t.setLink l ((t.link l).trained w (t.cfgWidth l))).journalLanes 1 l (spareMap (t.link l).healthy w)).journalLanes
      5 l (spareMap (lanesNot (t.link l).failTx) w) := ⟨_, rfl⟩
  have heq : t.trained l w = if w < t.cfgWidth l then u.service 2 else u := by rw [hu]; rfl
  have hjournal : Runs [.flash] (t.setLink l ((t.link l).trained w (t.cfgWidth l))) u :=
    hu ▸ .comp (State.journalLanes_runs ..) rfl (State.journalLanes_runs ..)
  have hto : State.LinkTo [.links, .router, .host, .flash, .out] s u l (x.trained w (t.cfgWidth l)) := by
    rw [← h.link]
    exact (((h.set rfl _).mono rfl).beside hjournal rfl (hjournal.same .links rfl))
  rw [heq]
  split
  · exact ⟨hto.beside (State.service_runs ..) rfl ((State.service_runs ..).same .links rfl), fun _ => State.bit_service ..⟩
  next h => exact ⟨hto, fun h' => absurd h' h⟩

variable {a v b : Nat} {rx : Bool} (htrain : (s.link l).st = .training) (hrx : (s.link l).rxChange = some (w, a))
  (htx : (s.link l).txChange = some (v, some b))
include htrain hrx htx

theorem State.atRound_training : s.atRound l rx =
    if ((s.link l).changed rx).rxDone ∧ ((s.link l).changed rx).txDone then (s.setLink l ((s.link l).changed rx)).trained l w
    else s.setLink l ((s.link l).changed rx) := by
  have heq : s.atRound l rx = s.widthChange l rx := if_pos htrain
  rw [heq, State.widthChange]
  cases rx <;> simp only [hrx, htx, Link.changed] <;> rfl

end

/-! LINK_DOWN (R162, R387). -/

theorem State.ov_linkDrop (s : State) {l id : Nat} (h : id ≠ linkDropCountId + l) (p : Packet) : (s.linkDrop l p).ov id = s.ov id := by
  have hnotice : (s.linkDrop l p).obj = (s.bump (linkDropCountId + l)).obj := (State.notice388_runs ..).same .obj rfl
  exact (State.ov_congr hnotice id).trans (State.ov_setOv_of_ne _ _ (Ne.symm h))

section
variable {s : State} {l : Nat}

theorem State.linkTo_linkFall (hv : LinksOk s) (hst : (s.link l).st ≠ .down) :
    State.LinkTo [.links, .router, .steps, .obj, .flash] s (s.linkFall l) l (s.link l).fall := by
  have hlinks : (s.linkFall l).links = (s.setLink l (s.link l).fall).links := (s.linkFall_links l).trans (if_neg hst)
  have hto := State.linkTo_set hv l (s.link l).fall
  exact {
    link := (State.link_congr hlinks l).trans hto.link
    others := fun k hk => (State.link_congr hlinks k).trans (hto.others k hk)
    ok := Recordwise.linkFall.keeps l hv
    runs := State.linkFall_runs .. }

theorem State.faultSeen_linkFall (ho : ValsOk s) (hl : l < 6) (hup : (s.link l).up = true) : (s.linkFall l).FaultSeen := by
  have hst : (s.link l).st ≠ .down := (Link.hears_of_up hup).1
  obtain ⟨u, hu⟩ : ∃ u, u = (wholePackets (s.link l).rx (s.link l).rx.length).foldl (fun s p => s.inject l p)
      (s.setLink l (s.link l).fall) := ⟨_, rfl⟩
  have hobj : u.obj = s.obj := hu ▸ foldl_keeps (g := State.obj) (f := fun s p => s.inject l p) (fun _ _ => rfl) _ _
  have hvals : ValsOk u := by
    rw [ValsOk, hobj]
    exact ho
  have heq : s.linkFall l = (s.link l).out.foldl (fun s o => s.linkDrop l o.pkt) (u.uncovered 0x14 l u.stepCtxs) := by
    rw [hu, State.linkFall]
    dsimp only
    rw [if_neg hst, if_pos hup]
  have hid : faultStatusId ≠ linkDropCountId + l := by
    have h1 : faultStatusId = 0xA0011 := rfl
    have h2 : linkDropCountId = 0x40070 := rfl
    omega
  rw [State.FaultSeen, heq,
    foldl_keeps (g := fun s : State => s.ov faultStatusId) (fun s (o : OutPkt) => s.ov_linkDrop hid o.pkt)]
  exact State.faultSeen_uncovered hvals ..

/-- A looped link receives nothing from the fibre (R467). -/
theorem exec_looped (hl : linkOk l = true) (raw : List Byte) (hloop : s.looped l = true) {c : Instr}
    (hc : c ∈ [Instr.ident l raw, .widthSet l raw, .widthAck l raw, .spareReq l raw, .spareAck l raw, .idleFlitReceive l raw,
      .nak l raw, .resend l raw]) : exec c s = .next s := by
  have hin (want : Nat) (f : State → State) : need (linkOk l) (.next (s.flitIn l want raw true f)) = .next s := by
    rw [State.flitIn_looped hloop]
    exact need_of hl _
  simp only [List.mem_cons, List.not_mem_nil, or_false] at hc
  rcases hc with rfl | rfl | rfl | rfl | rfl | rfl | rfl | rfl <;> exact hin ..

theorem State.laneResend_resends (hv : LinksOk s) (h : (s.link l).up = false ∨ s.unspared l = []) :
    State.LinkTo [.links] s (s.laneResend l) l
      { s.link l with ctl := (s.link l).ctl ++ (s.link l).waiting.map (fun m => 5 :: m.bytes) } := by
  have hnot : ¬((s.link l).up = true ∧ s.unspared l ≠ []) := by
    rcases h with h | h <;> simp [h]
  have heq : s.laneResend l = s.setLink l
      { s.link l with ctl := (s.link l).ctl ++ (s.link l).waiting.map (fun m => 5 :: m.bytes) } := if_neg hnot
  exact heq ▸ State.linkTo_set hv l _

end

/-! The commands. -/

section
variable {s : State} {l : Nat} {raw : List Byte}

/-- A LANE_CTRL flit's header leaves the state at its link's record, whose other fields stand. -/
theorem State.linkTo_header (hv : LinksOk s) (raw : List Byte) :
    State.LinkTo [.links] s (s.setLink l ((s.link l).header raw)) l ((s.link l).header raw) := State.linkTo_set hv l _

theorem Link.header_training {x : Link} (h : x.st = .training) : (x.header raw).st = .training ∧ (x.header raw).up = false := by
  have hst : (x.header raw).st = .training := h
  refine ⟨hst, ?_⟩
  rw [Link.up, hst]
  rfl

theorem Link.header_healthy (x : Link) (raw : List Byte) : (x.header raw).healthy = x.healthy := rfl
theorem Link.header_waiting (x : Link) (raw : List Byte) : (x.header raw).waiting = x.waiting := rfl
theorem Link.header_txChange (x : Link) (raw : List Byte) : (x.header raw).txChange = x.txChange := rfl
theorem Link.header_rxChange (x : Link) (raw : List Byte) : (x.header raw).rxChange = x.rxChange := rfl
theorem Link.header_up (x : Link) (raw : List Byte) : (x.header raw).up = x.up := rfl
theorem Link.header_width (x : Link) (raw : List Byte) : (x.header raw).width = x.width := rfl
theorem Link.header_ctl (x : Link) (raw : List Byte) : (x.header raw).ctl = x.ctl := rfl

theorem State.agreedWidth_header (hv : LinksOk s) : (s.setLink l ((s.link l).header raw)).agreedWidth l = s.agreedWidth l := by
  have hlink := (State.linkTo_header (l := l) hv raw).link
  generalize ht : s.setLink l ((s.link l).header raw) = t at hlink
  have hcfg : t.cfgWidth l = s.cfgWidth l := ht ▸ rfl
  rw [State.agreedWidth, State.agreedWidth, hlink, hcfg]
  rfl

variable (hl : linkOk l = true) (hloop : s.looped l = false) (hgood : goodFlit 5 raw)
include hl hloop hgood

theorem exec_ident_eq (hears : (s.link l).hears) (hm : (LaneMsg.of (flPayload raw)).msg = 1) :
    exec (.ident l raw) s =
      .next ((s.setLink l ((s.link l).header raw)).identIn l (LaneMsg.of (flPayload raw))) :=
  (need_of hl _).trans (congrArg _ (State.laneIn_good hloop hears hgood hm (by decide) (by decide)))

theorem exec_widthSet_eq (hears : (s.link l).hears) (hm : (LaneMsg.of (flPayload raw)).msg = 2) :
    exec (.widthSet l raw) s =
      .next ((s.setLink l ((s.link l).header raw)).widthSetIn l (LaneMsg.of (flPayload raw))) :=
  (need_of hl _).trans (congrArg _ (State.laneIn_good hloop hears hgood hm (by decide) (by decide)))

theorem exec_widthAck_eq (hears : (s.link l).hears) (hm : (LaneMsg.of (flPayload raw)).msg = 3) :
    exec (.widthAck l raw) s =
      .next ((s.setLink l ((s.link l).header raw)).widthAgreed l (LaneMsg.of (flPayload raw))) :=
  (need_of hl _).trans (congrArg _ (State.laneIn_good hloop hears hgood hm (by decide) (by decide)))

variable (hv : LinksOk s)
include hv

theorem exec_ident_training (htrain : (s.link l).st = .training) (hhealthy : (s.link l).healthy ≠ 0)
    (hm : (LaneMsg.of (flPayload raw)).msg = 1) :
    (s.rightPeer l (LaneMsg.of (flPayload raw)) → ∃ t, exec (.ident l raw) s = .next t ∧ (t.link l).st = .training ∧
        (t.link l).peer = some (LaneMsg.of (flPayload raw)) ∧ (t.link l).nbr = (LaneMsg.of (flPayload raw)).device ∧
        (t.link l).failTx = lanesNot (LaneMsg.of (flPayload raw)).healthy ∧
        (t.link l).laneTx = laneMap (LaneMsg.of (flPayload raw)).healthy 4 ∧
        (s.me < (LaneMsg.of (flPayload raw)).device → 0 < t.agreedWidth l →
          (s.link l).txChange.map (·.1) ≠ some (t.agreedWidth l) →
          ∃ q : LaneMsg, (t.link l).txChange = some (t.agreedWidth l, none) ∧ q ∈ (t.link l).waiting ∧ q.msg = 2 ∧
            q.width = t.agreedWidth l ∧ 5 :: q.bytes ∈ (t.link l).ctl) ∧
        ((s.link l).waiting.any (fun w => w.msg == 1) = false →
          ∃ q : LaneMsg, 5 :: q.bytes ∈ (t.link l).ctl ∧ q.msg = 1 ∧ q.seq = (LaneMsg.of (flPayload raw)).seq ∧
            q.device = s.me ∧ q.healthy = (s.link l).healthy) ∧
        OtherLinks l s t ∧ Frame [.links] s t) ∧
      (¬s.rightPeer l (LaneMsg.of (flPayload raw)) → ∃ t, exec (.ident l raw) s = .next t ∧ (t.link l).st = .miscabled ∧
        (t.link l).width = 0 ∧ (t.link l).nbr = (LaneMsg.of (flPayload raw)).device ∧ OtherLinks l s t ∧ Frame [.links] s t) := by
  rw [exec_ident_eq hl hloop hgood (Link.hears_of_training htrain) hm]
  have hto := State.linkTo_header (l := l) hv raw
  obtain ⟨hst, hup⟩ := Link.header_training (raw := raw) htrain
  have hwait := (s.link l).header_waiting raw
  have htx := (s.link l).header_txChange raw
  have hheal := (s.link l).header_healthy raw
  have hme := State.me_of_linkTo hto
  generalize hu : s.setLink l ((s.link l).header raw) = u at hto hme ⊢
  generalize LaneMsg.of (flPayload raw) = m at *
  generalize (s.link l).header raw = x at *
  rw [← hto.link] at hst hup hwait htx hheal
  have hlooped : u.looped l = false := hu ▸ hloop
  have hright : u.rightPeer l m ↔ s.rightPeer l m := hu ▸ Iff.rfl
  refine ⟨fun h => ?_, fun h => ?_⟩
  · obtain ⟨t, y, ht, hto', hknows, hset, hanswer⟩ :=
      State.identIn_training hto.ok hup (hheal.symm ▸ hhealthy) hlooped (hright.mpr h)
    rw [hme, htx] at hset
    rw [hwait, hme, if_pos hst, hheal] at hanswer
    have hto'' := hto.trans hto'
    refine ⟨t, congrArg _ ht, ?_⟩
    rw [hto'.link]
    exact ⟨hknows.st.trans hst, hknows.peer, hknows.nbr, hknows.failTx, hknows.laneTx, hset, hanswer, hto''.others, hto''.frame⟩
  · have hto' := hto.trans (State.identIn_miscabled hto.ok hup (hheal.symm ▸ hhealthy) hlooped (fun h' => h (hright.mp h')))
    refine ⟨_, rfl, ?_⟩
    rw [hto'.link]
    exact ⟨rfl, rfl, rfl, hto'.others, hto'.frame⟩

theorem exec_ident_up (ho : ValsOk s) (hup : (s.link l).up = true) (hm : (LaneMsg.of (flPayload raw)).msg = 1) :
    ∃ t, exec (.ident l raw) s = .next t ∧ (t.link l).st = .training ∧ (t.link l).out = (s.link l).out ∧
      (t.link l).rx = (s.link l).rx ∧
      ((s.link l).peerWidth (LaneMsg.of (flPayload raw)) = true → (t.link l).fault = 0 ∧ Frame [.links] s t) ∧
      ((s.link l).peerWidth (LaneMsg.of (flPayload raw)) = false →
        (t.link l).fault = 0x12 ∧ bit (t.ov faultStatusId) 1 = true) ∧
      OtherLinks l s t ∧ Frame [.links, .router, .steps, .obj, .flash] s t := by
  rw [exec_ident_eq hl hloop hgood (Link.hears_of_up hup) hm]
  have hto := State.linkTo_header (l := l) hv raw
  have hup' := ((s.link l).header_up raw).trans hup
  have hpeer : ((s.link l).header raw).peerWidth (LaneMsg.of (flPayload raw)) = (s.link l).peerWidth (LaneMsg.of (flPayload raw)) := rfl
  have hkeeps : ((s.link l).header raw).out = (s.link l).out ∧ ((s.link l).header raw).rx = (s.link l).rx := ⟨rfl, rfl⟩
  generalize hu : s.setLink l ((s.link l).header raw) = u at hto ⊢
  have hvals : ValsOk u := hu ▸ ho
  generalize LaneMsg.of (flPayload raw) = m at *
  generalize (s.link l).header raw = x at *
  rw [← hto.link] at hup' hpeer hkeeps
  obtain ⟨hwidth, hloss⟩ := State.identIn_up (m := m) hto.ok hvals hup'
  refine ⟨_, rfl, ?_⟩
  cases hpw : (s.link l).peerWidth m with
  | true =>
    have hto' := hto.trans (hwidth (hpeer.trans hpw))
    rw [hto'.link]
    exact ⟨rfl, hkeeps.1, hkeeps.2, fun _ => ⟨rfl, hto'.frame⟩, fun h => Bool.noConfusion h, hto'.others, hto'.frame.mono rfl⟩
  | false =>
    obtain ⟨hre, hseen⟩ := hloss (hpeer.trans hpw)
    have hto' := (hto.mono rfl).trans hre
    rw [hto'.link]
    exact ⟨rfl, hkeeps.1, hkeeps.2, fun h => Bool.noConfusion h, fun _ => ⟨rfl, hseen⟩, hto'.others, hto'.frame⟩

theorem exec_widthSet_training (htrain : (s.link l).st = .training) (hm : (LaneMsg.of (flPayload raw)).msg = 2) :
    (0 < (LaneMsg.of (flPayload raw)).width → (LaneMsg.of (flPayload raw)).width = s.agreedWidth l →
        ∃ (t : State) (q : LaneMsg), exec (.widthSet l raw) s = .next t ∧ (t.link l).st = .training ∧
          (t.link l).rxChange = some ((LaneMsg.of (flPayload raw)).width, (LaneMsg.of (flPayload raw)).atRound) ∧
          (t.link l).txChange = some ((LaneMsg.of (flPayload raw)).width, none) ∧
          (t.link l).ctl = (s.link l).ctl ++ [5 :: q.bytes] ∧ q.msg = 3 ∧ q.seq = (LaneMsg.of (flPayload raw)).seq ∧
          q.width = (LaneMsg.of (flPayload raw)).width ∧ OtherLinks l s t ∧ Frame [.links] s t) ∧
      ((LaneMsg.of (flPayload raw)).width ≠ s.agreedWidth l →
        ∃ t, exec (.widthSet l raw) s = .next t ∧ (t.link l).st = .training ∧
          (t.link l).rxChange = (s.link l).rxChange ∧ (t.link l).txChange = (s.link l).txChange ∧
          OtherLinks l s t ∧ Frame [.links, .obj] s t) := by
  rw [exec_widthSet_eq hl hloop hgood (Link.hears_of_training htrain) hm]
  have hto := State.linkTo_header (l := l) hv raw
  obtain ⟨hst, hup⟩ := Link.header_training (raw := raw) htrain
  have hrx := (s.link l).header_rxChange raw
  have htx := (s.link l).header_txChange raw
  have hctl := (s.link l).header_ctl raw
  have hagreed := State.agreedWidth_header (l := l) (raw := raw) hv
  generalize hu : s.setLink l ((s.link l).header raw) = u at hto hagreed ⊢
  generalize LaneMsg.of (flPayload raw) = m at *
  generalize (s.link l).header raw = x at *
  rw [← hto.link] at hst hup hrx htx hctl
  have hlooped : u.looped l = false := hu ▸ hloop
  refine ⟨fun hpos hw => ?_, fun hw => ?_⟩
  · obtain ⟨hq3, hqs, hqw⟩ := u.widthReply_fields l m
    have hto' := hto.trans (State.widthSetIn_agreed hup hst hlooped hto.ok hpos (hw.trans hagreed.symm))
    generalize u.widthReply l m = q at *
    refine ⟨_, q, rfl, ?_⟩
    rw [hto'.link, ← hctl]
    exact ⟨hst, rfl, rfl, rfl, hq3, hqs, hqw, hto'.others, hto'.frame⟩
  · obtain ⟨y, hy, hyst, hyrx, hytx⟩ := State.widthSetIn_refused hup hst hlooped hto.ok (fun h => hw (h.trans hagreed))
    have hto' := (hto.mono rfl).trans hy
    refine ⟨_, rfl, ?_⟩
    rw [hto'.link]
    exact ⟨hyst, hyrx.trans hrx, hytx.trans htx, hto'.others, hto'.frame⟩

theorem exec_widthSet_repeated (hup : (s.link l).up = true) (hm : (LaneMsg.of (flPayload raw)).msg = 2)
    (hw : (LaneMsg.of (flPayload raw)).width = (s.link l).width) :
    ∃ (t : State) (q : LaneMsg), exec (.widthSet l raw) s = .next t ∧ (t.link l).st = (s.link l).st ∧
      (t.link l).ctl = (s.link l).ctl ++ [5 :: q.bytes] ∧ q.msg = 3 ∧ q.seq = (LaneMsg.of (flPayload raw)).seq ∧
      q.width = (LaneMsg.of (flPayload raw)).width ∧ OtherLinks l s t ∧ Frame [.links] s t := by
  rw [exec_widthSet_eq hl hloop hgood (Link.hears_of_up hup) hm]
  have hto := State.linkTo_header (l := l) hv raw
  have hup' := ((s.link l).header_up raw).trans hup
  have hw' := hw.trans ((s.link l).header_width raw).symm
  have hctl := (s.link l).header_ctl raw
  have hst : ((s.link l).header raw).st = (s.link l).st := rfl
  generalize hu : s.setLink l ((s.link l).header raw) = u at hto ⊢
  generalize LaneMsg.of (flPayload raw) = m at *
  generalize (s.link l).header raw = x at *
  rw [← hto.link] at hup' hw'
  have hlooped : u.looped l = false := hu ▸ hloop
  obtain ⟨hq3, hqs, hqw⟩ := u.widthReply_fields l m
  rw [State.widthSetIn_repeated hup' hw' hlooped]
  generalize u.widthReply l m = q at *
  have hto' := hto.laneAnswer rfl q
  refine ⟨_, q, rfl, ?_⟩
  rw [hto'.link, ← hctl]
  exact ⟨hst, rfl, hq3, hqs, hqw, hto'.others, hto'.frame⟩

theorem exec_widthAck_acknowledged (htrain : (s.link l).st = .training) (hm : (LaneMsg.of (flPayload raw)).msg = 3)
    (hasked : (s.link l).waiting.any (fun w => w.msg == 2 && w.seq == (LaneMsg.of (flPayload raw)).seq &&
      w.width == (LaneMsg.of (flPayload raw)).width) = true) :
    ∃ t, exec (.widthAck l raw) s = .next t ∧
      (t.link l).rxChange = some ((LaneMsg.of (flPayload raw)).width, (LaneMsg.of (flPayload raw)).atRound) ∧
      (∀ w ∈ (t.link l).waiting, w.msg ≠ 2) ∧ (t.link l).txChange = (s.link l).txChange ∧ OtherLinks l s t ∧
      Frame [.links] s t := by
  rw [exec_widthAck_eq hl hloop hgood (Link.hears_of_training htrain) hm]
  have hto := State.linkTo_header (l := l) hv raw
  obtain ⟨hst, -⟩ := Link.header_training (raw := raw) htrain
  have hwait := (s.link l).header_waiting raw
  have htx := (s.link l).header_txChange raw
  generalize s.setLink l ((s.link l).header raw) = u at hto ⊢
  generalize LaneMsg.of (flPayload raw) = m at *
  generalize (s.link l).header raw = x at *
  rw [← hto.link] at hst hwait htx
  have hto' := hto.trans (State.widthAgreed_acknowledged (m := m) hto.ok hst (hwait.symm ▸ hasked))
  refine ⟨_, rfl, ?_⟩
  rw [hto'.link]
  exact ⟨rfl, fun w hw => Link.msg_of_mem_settle (x := u.link l) hw, htx, hto'.others, hto'.frame⟩

end

section
variable {s : State} {l : Nat}

theorem exec_atRoundChange_training (hl : linkOk l = true) (hv : LinksOk s) {w a v b : Nat} {rx : Bool}
    (htrain : (s.link l).st = .training) (hrx : (s.link l).rxChange = some (w, a)) (htx : (s.link l).txChange = some (v, some b)) :
    ((if rx then (s.link l).txDone else (s.link l).rxDone) = false →
        ∃ t, exec (.atRoundChange l rx) s = .next t ∧ (t.link l).st = .training ∧
          (if rx then (t.link l).rxDone else (t.link l).txDone) = true ∧ OtherLinks l s t ∧ Frame [.links] s t) ∧
      ((if rx then (s.link l).txDone else (s.link l).rxDone) = true →
        ∃ t, exec (.atRoundChange l rx) s = .next t ∧ (t.link l).width = w ∧ (t.link l).fault = 0 ∧
          (t.link l).laneRx = laneMap (s.link l).healthy w ∧ (t.link l).again = (s.link l).retry.map (·.seq) ∧
          (∀ m, (s.link l).peer = some m → (w = s.cfgWidth l ∧ w = m.cfgWidth → (t.link l).st = .active) ∧
            (¬(w = s.cfgWidth l ∧ w = m.cfgWidth) → (t.link l).st = .degraded)) ∧
          (w < s.cfgWidth l → bit t.flash.service 2 = true) ∧
          OtherLinks l s t ∧ Frame [.links, .router, .host, .flash, .out] s t) := by
  have hexec : exec (.atRoundChange l rx) s = .next (s.atRound l rx) := need_of hl _
  rw [hexec, State.atRound_training htrain hrx htx]
  have hto := State.linkTo_set hv l ((s.link l).changed rx)
  have hdone : ((s.link l).changed rx).rxDone = true ∧ ((s.link l).changed rx).txDone = true ↔
      (if rx then (s.link l).txDone else (s.link l).rxDone) = true := by
    cases rx <;> simp [Link.changed]
  refine ⟨fun h => ?_, fun h => ?_⟩
  · rw [if_neg (fun h' => Bool.noConfusion (h.symm.trans (hdone.mp h')))]
    refine ⟨_, rfl, ?_⟩
    rw [hto.link]
    refine ⟨?_, ?_, hto.others, hto.frame⟩ <;> cases rx
    · exact htrain
    · exact htrain
    · rfl
    · rfl
  · rw [if_pos (hdone.mpr h)]
    obtain ⟨hto', hservice⟩ := hto.trained w
    have hcfg : (s.setLink l ((s.link l).changed rx)).cfgWidth l = s.cfgWidth l := rfl
    rw [hcfg] at hto' hservice
    have hsame : ((s.link l).changed rx).healthy = (s.link l).healthy ∧ ((s.link l).changed rx).retry = (s.link l).retry ∧
        ((s.link l).changed rx).peer = (s.link l).peer := by cases rx <;> exact ⟨rfl, rfl, rfl⟩
    obtain ⟨hhealthy, hretry, hpeer⟩ := hsame
    generalize (s.link l).changed rx = x at *
    refine ⟨_, rfl, ?_⟩
    rw [hto'.link, ← hhealthy, ← hretry, ← hpeer]
    refine ⟨rfl, rfl, rfl, x.again_takeUp, fun m hm => ?_, hservice, hto'.others, hto'.frame⟩
    have hst : (x.trained w (s.cfgWidth l)).st = if w = s.cfgWidth l ∧ w = m.cfgWidth then .active else .degraded := by
      rw [Link.trained, hm]
    rw [hst]
    exact ⟨fun h => if_pos h, fun h => if_neg h⟩

end

/-- Settles O36: a link trains to ACTIVE or DEGRADED, or is MISCABLED. -/
theorem linksTrain : Obligations.LinksTrain := by
  intro s l hw hlt
  have hl : linkOk l = true := decide_eq_true hlt
  have hv : LinksOk s := State.twf_links hw
  have ho : ValsOk s := State.keysFrom_vals hw
  refine ⟨fun hdown hen => ?_, fun h g htrain hg => ⟨fun henough => ?_, fun hfew => ?_⟩, ?_, ?_, ?_, ?_, ?_, ?_, ?_, fun hnone => ?_, fun hst => ?_⟩
  · obtain ⟨t, rfl, ht⟩ := State.lightArrival_trains hv hdown hen
    exact ⟨_, need_of hl _, ht⟩
  · have hto := State.laneLockDone_enough hv htrain hg henough
    obtain ⟨hdev, hcfg, hheal⟩ := State.laneMsg_of_linkTo (State.linkTo_set hv l ((s.link l).locked g)) 1
    have hfields : ((s.setLink l ((s.link l).locked g)).laneMsg l 1).msg = 1 ∧
        ((s.setLink l ((s.link l).locked g)).laneMsg l 1).link = l := ⟨rfl, rfl⟩
    rw [if_pos (show ((s.link l).locked g).st = .training from htrain)] at hheal
    generalize (s.setLink l ((s.link l).locked g)).laneMsg l 1 = m at *
    refine ⟨_, m, need_of hl _, ?_⟩
    rw [hto.link]
    exact ⟨htrain, rfl, rfl, rfl, rfl, rfl, rfl, hfields.1, hdev, hfields.2, hheal, hcfg, hto.others, hto.frame⟩
  · have hto := State.laneLockDone_few hv htrain hg hfew
    refine ⟨_, need_of hl _, ?_⟩
    rw [hto.link]
    exact ⟨htrain, rfl, rfl, rfl, hto.others, hto.frame⟩
  · exact fun raw hloop htrain hhealthy hgood hm => exec_ident_training hl hloop hgood hv htrain hhealthy hm
  · exact fun raw hloop hup hgood hm => exec_ident_up hl hloop hgood hv ho hup hm
  · exact fun raw htrain hloop hgood hm => exec_widthSet_training hl hloop hgood hv htrain hm
  · exact fun raw hup hloop hgood hm hw => exec_widthSet_repeated hl hloop hgood hv hup hm hw
  · exact fun raw hloop c hc => exec_looped hl raw hloop hc
  · exact fun raw htrain hloop hgood hm hasked => exec_widthAck_acknowledged hl hloop hgood hv htrain hm hasked
  · exact fun w a v b rx htrain hrx htx => exec_atRoundChange_training hl hv htrain hrx htx
  · have hto := State.laneResend_resends hv hnone
    refine ⟨_, need_of hl _, ?_⟩
    rw [hto.link]
    exact ⟨rfl, rfl, hto.others, hto.frame⟩
  · have hto := State.linkTo_linkFall hv hst
    refine ⟨_, need_of hl _, ?_⟩
    rw [hto.link]
    exact ⟨rfl, rfl, rfl, rfl, rfl, rfl, rfl, rfl, State.faultSeen_linkFall ho hlt, hto.others, hto.frame⟩

end Sys2Proof.Machine
end

