-- ==== Sys2Proof/Proofs/LaneSparing.lean ====
section
/-!
PROOF. Spare lanes and the spare laser source take the places of failed ones (R167 to R169, R27).
-/

namespace Sys2Proof.Machine

theorem Link.not_training_of_up {x : Link} (h : x.up = true) : x.st ≠ .training := by
  intro hst
  rw [Link.up, hst] at h
  exact Bool.noConfusion h

/-! LANE_FAILURE at the receiver (R167, R168). -/

/-- The failed lanes that a link still counts at `s`, lane `lane` the last of them. -/
def State.recentLosses (s : State) (l lane : Nat) : List (Nat × Nat) :=
  (s.link l).recent.filter (fun r => decide (s.clk < r.2 + 1000) || (s.link l).lostWaves.any (fun y => y.1 == r.1 % 4) ||
    (s.unspared l).contains r.1) ++ [(lane, s.clk)]

/-- The link with its lane `lane` failed. -/
def State.laneLost (s : State) (l lane : Nat) : Link :=
  { s.link l with
    failRx := (s.link l).failRx ||| 2 ^ lane
    failAt := tset 0 (s.link l).failAt lane (s.ftRead mgmtPs)
    recent := s.recentLosses l lane }

/-- The lanes of the wavelength of `lane` that failed within 1 µs, itself among them. -/
def State.nearLosses (s : State) (l lane : Nat) : List (Nat × Nat) :=
  (s.recentLosses l lane).filter (fun r => r.1 % 4 == lane % 4 && decide (s.clk < r.2 + 1000))

theorem State.length_nearLosses (s : State) (l lane : Nat) : (s.nearLosses l lane).length =
    ((s.link l).recent.filter (fun r => r.1 % 4 == lane % 4 && decide (s.clk < r.2 + 1000))).length + 1 := by
  have hkept (r : Nat × Nat) : ((r.1 % 4 == lane % 4 && decide (s.clk < r.2 + 1000)) &&
      (decide (s.clk < r.2 + 1000) || (s.link l).lostWaves.any (fun y => y.1 == r.1 % 4) || (s.unspared l).contains r.1)) =
      (r.1 % 4 == lane % 4 && decide (s.clk < r.2 + 1000)) := by
    cases decide (s.clk < r.2 + 1000) <;> simp
  rw [State.nearLosses, State.recentLosses, List.filter_append, List.filter_filter, List.length_append]
  simp only [hkept]
  simp

section
variable {s : State} {l lane : Nat} (hup : (s.link l).up = true) (hbit : bit (s.link l).failRx lane = false)
include hup hbit

/-- What a lane's failure does: a third of its wavelength within 1 µs loses the wavelength; otherwise a lane that carries traffic
wants its spare, and without one the link retrains. -/
theorem State.laneFail_eq (hlost : (s.link l).lostWaves.any (fun y => y.1 == lane % 4) = false) : s.laneFail l lane =
    if 3 ≤ (s.nearLosses l lane).length then
      s.setLink l { (s.laneLost l lane).settle (fun m => m.msg == 4 && m.lane % 4 == lane % 4) with
        lostWaves := (s.laneLost l lane).lostWaves ++ [(lane % 4, s.clk)] }
    else if (s.link l).lostWaves ≠ [] ∨ (s.link l).laserTuning ≠ none then (s.setLink l (s.laneLost l lane)).linkRetrain l 0x13
    else if (s.link l).laneRx.contains lane = false then s.setLink l (s.laneLost l lane)
    else if 16 ≤ lane then (s.setLink l (s.laneLost l lane)).linkRetrain l 0x12
    else if spareFree ((s.link l).failRx ||| 2 ^ lane) ((s.link l).spareRx ++ (s.link l).spareAckRx.map (fun q => (q.1, q.2.1)) ++
        s.spareLanes 1 l) lane ∧ (s.link l).waiting.any (fun m => m.msg == 4 && m.lane % 4 == lane % 4) = false then
      (s.setLink l (s.laneLost l lane)).laneSend l { (s.setLink l (s.laneLost l lane)).laneMsg l 4 with lane := lane }
    else if 2 ≤ (s.nearLosses l lane).length then s.setLink l (s.laneLost l lane)
    else (s.setLink l (s.laneLost l lane)).linkRetrain l 0x12 := by
  have hrun : ¬((s.link l).up = false ∨ bit (s.link l).failRx lane = true) := by simp [hup, hbit]
  rw [State.laneFail]
  exact (if_neg hrun).trans (if_neg (by simp [hlost]))

theorem State.laneFail_losesWave (hv : LinksOk s) (hlost : ∀ y ∈ (s.link l).lostWaves, y.1 ≠ lane % 4)
    (hnear : 2 ≤ ((s.link l).recent.filter (fun r => r.1 % 4 == lane % 4 && decide (s.clk < r.2 + 1000))).length) :
    State.LinkTo [.links] s (s.laneFail l lane) l { (s.laneLost l lane).settle (fun m => m.msg == 4 && m.lane % 4 == lane % 4) with
        lostWaves := (s.laneLost l lane).lostWaves ++ [(lane % 4, s.clk)] } := by
  have hnone : (s.link l).lostWaves.any (fun y => y.1 == lane % 4) = false :=
    List.any_eq_false.mpr fun y hy => by simp [hlost y hy]
  rw [State.laneFail_eq hup hbit hnone, if_pos (by rw [s.length_nearLosses]; omega)]
  exact State.linkTo_set hv l _

/-- The first lane to fail on a link that has lost nothing. -/
theorem State.laneFail_first (hlane : lane < 16) (hrecent : (s.link l).recent = []) (hwaves : (s.link l).lostWaves = [])
    (htune : (s.link l).laserTuning = none) (hwait : (s.link l).waiting = []) (hspare : (s.link l).spareRx = [])
    (hack : (s.link l).spareAckRx = []) : s.laneFail l lane =
    if (s.link l).laneRx.contains lane = false then s.setLink l (s.laneLost l lane)
    else if spareFree (s.link l).failRx (s.spareLanes 1 l) lane then
      (s.setLink l (s.laneLost l lane)).laneSend l { (s.setLink l (s.laneLost l lane)).laneMsg l 4 with lane := lane }
    else (s.setLink l (s.laneLost l lane)).linkRetrain l 0x12 := by
  have hnear : (s.nearLosses l lane).length = 1 := by
    rw [s.length_nearLosses, hrecent]
    rfl
  have hfree : spareFree ((s.link l).failRx ||| 2 ^ lane) (s.spareLanes 1 l) lane = spareFree (s.link l).failRx (s.spareLanes 1 l) lane := by
    have hbits : bit ((s.link l).failRx ||| 2 ^ lane) (16 + lane % 4) = bit (s.link l).failRx (16 + lane % 4) := by
      rw [bit_eq_testBit, bit_eq_testBit, Nat.testBit_or, Nat.testBit_two_pow_of_ne (by omega), Bool.or_false]
    rw [spareFree, spareFree, hbits]
  rw [State.laneFail_eq hup hbit (by rw [hwaves]; rfl), if_neg (by omega), if_neg (by simp [hwaves, htune]), hspare, hack, hwait,
    if_neg (Nat.not_le.mpr hlane)]
  have hand (c : Bool) : (c = true ∧ ([] : List LaneMsg).any (fun m => m.msg == 4 && m.lane % 4 == lane % 4) = false) = (c = true) := by
    simp
  simp only [List.map_nil, List.nil_append, hand, hfree]
  rw [if_neg (c := 2 ≤ (s.nearLosses l lane).length) (by omega)]

end

/-! SPARE_REQ at the transmitter, SPARE_ACK at the receiver (R168). -/

/-- A covered fault of any time sets its flag (R385). -/
theorem State.ov_coveredAt {s : State} (h : ValsOk s) (t code unit j : Nat) :
    (s.coveredAt t code unit).ov j = if j = faultStatusId then 1 ||| s.ov faultStatusId else s.ov j := by
  have heq : s.coveredAt t code unit =
      ((s.faultRec t code unit (Config.interruption s.free % (coveredBound code + 1))).modOv faultStatusId (1 ||| ·)).fresh := rfl
  have hfresh : ∀ t : State, t.fresh.ov j = t.ov j := fun _ => rfl
  rw [heq, hfresh]
  exact State.ov_modOv_of_obj h ((State.faultRec_runs ..).same .obj rfl) ..

section
variable {s : State} {l : Nat} {m : LaneMsg}

/-- The substitutions of the transmit direction, made and to come. -/
def Link.sparedTx (x : Link) : List (Nat × Nat) := x.spareTx ++ x.spareAckTx.map (fun q => (q.1, q.2.1))

/-- The transmit lanes that cannot carry traffic once `m` has come. -/
def Link.failedTx (x : Link) (m : LaneMsg) : Nat := x.failTx ||| 2 ^ m.lane ||| lanesNot m.healthy

/-- The SPARE_ACK of a SPARE_REQ. -/
def State.spareReply (s : State) (l : Nat) (m : LaneMsg) : LaneMsg :=
  { s.laneMsg l 5 with
    seq := m.seq
    lane := m.lane
    spare := 16 + m.lane % 4 }

theorem State.spareReply_fields (s : State) (l : Nat) (m : LaneMsg) : (s.spareReply l m).msg = 5 ∧ (s.spareReply l m).seq = m.seq ∧
    (s.spareReply l m).lane = m.lane ∧ (s.spareReply l m).spare = 16 + m.lane % 4 := ⟨rfl, rfl, rfl, rfl⟩

/-- The link with the spare of lane `m.lane` promised. -/
def Link.promises (x : Link) (m : LaneMsg) : Link :=
  { x with
    failTx := x.failedTx m
    spareAckTx := x.spareAckTx ++ [(m.lane, 16 + m.lane % 4, none)] }

/-- The state in which a spare is promised and its record waits. -/
def State.promised (s : State) (l : Nat) (m : LaneMsg) : State :=
  (s.setLink l ((s.link l).promises m)).journal (.spare 5 (l * 20 + m.lane) (16 + m.lane % 4))

theorem State.spareReqIn_eq (hup : (s.link l).up = true) (hlane : m.lane < 16)
    (hnew : (s.link l).sparedTx.any (fun u => u.1 == m.lane) = false) : s.spareReqIn l m =
    if spareFree ((s.link l).failedTx m) ((s.link l).sparedTx ++ s.spareLanes 5 l) m.lane then
      (s.promised l m).laneAnswer l ((s.promised l m).spareReply l m)
    else s.linkRetrain l 0x12 := by
  have hrun : ¬((s.link l).up = false ∨ 16 ≤ m.lane) := by simp [hup, hlane]
  rw [State.spareReqIn]
  exact (if_neg hrun).trans (if_neg (fun h => Bool.noConfusion (hnew.symm.trans h)))

theorem State.linkTo_promised (hv : LinksOk s) :
    State.LinkTo [.links, .flash] s (s.promised l m) l ((s.link l).promises m) ∧
      (s.promised l m).flash.queue = s.flash.queue ++ [.spare 5 (l * 20 + m.lane) (16 + m.lane % 4)] := by
  refine ⟨((State.linkTo_set hv l _).mono rfl).beside (State.journal_runs ..) rfl ((State.journal_runs ..).same .links rfl), ?_⟩
  rw [State.promised, State.queue_journal rfl]
  rfl

theorem State.spareAckIn_records (hv : LinksOk s) (ho : ValsOk s) (hup : (s.link l).up = true)
    (hasked : (s.link l).waiting.any (fun w => w.msg == 4 && w.lane == m.lane) = true) :
    State.LinkTo [.links, .obj, .flash, .free] s (s.spareAckIn l m) l
        { (s.link l).settle (fun w => w.msg == 4 && w.lane == m.lane) with
          spareAckRx := (s.link l).spareAckRx ++ [(m.lane, m.spare, m.atRound)] } ∧
      bit ((s.spareAckIn l m).ov faultStatusId) 0 = true ∧
      (s.spareAckIn l m).flash.queue.getLast? = some (.spare 1 (l * 20 + m.lane) m.spare) := by
  have hto := State.linkTo_set hv l { (s.link l).settle (fun w => w.msg == 4 && w.lane == m.lane) with
    spareAckRx := (s.link l).spareAckRx ++ [(m.lane, m.spare, m.atRound)] }
  have hvals : ValsOk (s.setLink l { (s.link l).settle (fun w => w.msg == 4 && w.lane == m.lane) with
    spareAckRx := (s.link l).spareAckRx ++ [(m.lane, m.spare, m.atRound)] }) := ho
  have heq : s.spareAckIn l m = ((s.setLink l { (s.link l).settle (fun w => w.msg == 4 && w.lane == m.lane) with
      spareAckRx := (s.link l).spareAckRx ++ [(m.lane, m.spare, m.atRound)]
      }).coveredAt (tget 0 (s.link l).failAt m.lane) 1 (l * 20 + m.lane)).journal
      (.spare 1 (l * 20 + m.lane) m.spare) := if_pos ⟨hup, hasked⟩
  rw [heq]
  generalize s.setLink l _ = u at hto hvals ⊢
  have hcovered := (hto.mono rfl).beside (L := [.links, .obj, .flash, .free])
    (u.coveredAt_runs (tget 0 (s.link l).failAt m.lane) 1 (l * 20 + m.lane)) rfl ((State.coveredAt_runs ..).same .links rfl)
  refine ⟨hcovered.beside (State.journal_runs ..) rfl ((State.journal_runs ..).same .links rfl), ?_, ?_⟩
  · rw [State.ov_congr ((State.journal_runs ..).same .obj rfl), State.ov_coveredAt hvals, if_pos rfl]
    exact bit_one_or _
  · rw [State.queue_journal rfl, List.getLast?_concat]

/-- No message that was settled waits. -/
theorem Link.not_mem_waiting_settle {x : Link} {p : LaneMsg → Bool} {w : LaneMsg} (h : w ∈ (x.settle p).waiting) : p w = false := by
  simpa using (List.mem_filter.mp h).2

/-! AT_ROUND_CHANGE in operation (R168). -/

theorem State.atRound_up (hup : (s.link l).up = true) (rx : Bool) : s.atRound l rx = s.spareChange l rx := by
  rw [State.atRound, if_neg (Link.not_training_of_up hup), if_pos hup]

theorem State.spareChange_rx {p q a : Nat} {rest : List (Nat × Nat × Nat)} (h : (s.link l).spareAckRx = (p, q, a) :: rest) :
    s.spareChange l true = s.setLink l { s.link l with
      spareAckRx := rest
      laneRx := swapLane (s.link l).laneRx p q
      spareRx := (s.link l).spareRx ++ [(p, q)] } := by
  rw [State.spareChange]
  dsimp only
  rw [if_pos rfl, h]

theorem State.spareChange_tx {p q a : Nat} {rest : List (Nat × Nat × Option Nat)} (h : (s.link l).spareAckTx = (p, q, some a) :: rest) :
    s.spareChange l false = s.setLink l { s.link l with
      spareAckTx := rest
      laneTx := swapLane (s.link l).laneTx p q
      spareTx := (s.link l).spareTx ++ [(p, q)] } := by
  rw [State.spareChange]
  dsimp only
  rw [if_neg (by decide), h]

/-! Lost wavelengths (R167, R169). -/

theorem State.waveRelock_eq {w a : Nat} (hup : (s.link l).up = true) (h : (w, a) ∈ (s.link l).lostWaves) :
    s.waveRelock l w = s.setLink l { s.link l with
      lostWaves := (s.link l).lostWaves.filter (fun y => y.1 != w)
      recent := (s.link l).recent.filter (fun r => r.1 % 4 != w)
      failRx := (((s.link l).recent.filter (fun r => r.1 % 4 == w)).map (·.1)).foldl (fun v p => setBits v p 1 0)
        (s.link l).failRx } :=
  if_pos ⟨hup, List.any_eq_true.mpr ⟨_, h, beq_self_eq_true w⟩⟩

/-! Laser sources (R169, R27, R403). -/

/-- The link with its source `k` failed. -/
def State.laserLost (s : State) (l k : Nat) : Link :=
  { s.link l with
    lasersFailed := (s.link l).lasersFailed ++ [k]
    failAt := tset 0 (s.link l).failAt (20 + k) (s.ftRead mgmtPs) }

theorem State.laserFail_first {k : Nat} (hk : k < 4) (hnone : (s.link l).lasersFailed = []) (hspare : (s.link l).laserSpare = none)
    (htune : (s.link l).laserTuning = none) :
    s.laserFail l k = (s.setLink l (s.laserLost l k)).modLink l ({ · with laserTuning := some k }) := by
  have hnew : ¬(s.link l).lasersFailed.contains k = true := by simp [hnone]
  have hfree : (s.link l).lasersFailed = [] ∧ ((s.link l).laserTuning.isSome || (s.link l).laserSpare.isSome) = false := by
    simp [hnone, hspare, htune]
  rw [State.laserFail]
  exact (if_neg hnew).trans ((if_neg (by omega)).trans (if_pos hfree))

theorem State.laserFail_second {k j : Nat} (hup : (s.link l).up = true) (hk : k < 4) (hone : (s.link l).lasersFailed = [j]) (hkj : k ≠ j) :
    s.laserFail l k = (s.setLink l (s.laserLost l k)).linkRetrain l 0x13 := by
  have hnew : ¬(s.link l).lasersFailed.contains k = true := by simp [hone, hkj]
  have hused : ¬((s.link l).lasersFailed = [] ∧ ((s.link l).laserTuning.isSome || (s.link l).laserSpare.isSome) = false) := by
    simp [hone]
  rw [State.laserFail]
  exact (if_neg hnew).trans ((if_neg (by omega)).trans ((if_neg hused).trans (if_pos hup)))

theorem State.laserLocked_stands (hv : LinksOk s) (ho : ValsOk s) {k : Nat} (htune : (s.link l).laserTuning = some k) :
    State.LinkTo [.links, .router, .host, .obj, .flash, .out, .free] s (s.laserLocked l) l
        { s.link l with
          laserTuning := none
          laserSpare := some k } ∧
      bit (s.laserLocked l).flash.service 3 = true ∧ bit ((s.laserLocked l).ov faultStatusId) 0 = true := by
  have hto := State.linkTo_set hv l { s.link l with
    laserTuning := none
    laserSpare := some k }
  have hvals : ValsOk (s.setLink l { s.link l with
    laserTuning := none
    laserSpare := some k }) := ho
  have heq : s.laserLocked l = (((s.setLink l { s.link l with
      laserTuning := none
      laserSpare := some k }).coveredAt (tget 0 (s.link l).failAt (20 + k)) 2 (l * 5 + k)).journal
        (.spare 2 (l * 5 + k) 4)).service 3 := by
    rw [State.laserLocked]
    dsimp only
    rw [htune]
  rw [heq]
  generalize s.setLink l _ = u at hto hvals ⊢
  have hcovered := (hto.mono rfl).beside (L := [.links, .router, .host, .obj, .flash, .out, .free])
    (u.coveredAt_runs (tget 0 (s.link l).failAt (20 + k)) 2 (l * 5 + k)) rfl ((State.coveredAt_runs ..).same .links rfl)
  have hjournal := hcovered.beside (State.journal_runs _ (.spare 2 (l * 5 + k) 4)) rfl ((State.journal_runs ..).same .links rfl)
  refine ⟨hjournal.beside (State.service_runs ..) rfl ((State.service_runs ..).same .links rfl), State.bit_service .., ?_⟩
  rw [State.ov_congr ((State.service_runs ..).same .obj rfl), State.ov_congr ((State.journal_runs ..).same .obj rfl),
    State.ov_coveredAt hvals, if_pos rfl]
  exact bit_one_or _

end

/-! The commands. -/

section
variable {s : State} {l : Nat}

/-- The link retrains: what remains of it, and the fault that it leaves. -/
theorem retrains {u : State} {x : Link} {code : Nat} (hto : State.LinkTo [.links] s u l x) (ho : ValsOk u) {r : Result}
    (hr : r = .next (u.linkRetrain l code)) :
    ∃ t, r = .next t ∧ t.link l = x.retrain code ∧ bit (t.ov faultStatusId) 1 = true ∧ OtherLinks l s t ∧
      Frame [.links, .router, .steps, .obj, .flash] s t := by
  have hto' : State.LinkTo [.links, .router, .steps, .obj, .flash] s u l x := hto.mono rfl
  obtain ⟨hto', hseen⟩ := State.linkTo_linkRetrain hto' rfl ho code
  exact ⟨_, hr, hto'.link, hseen, hto'.others, hto'.frame⟩

theorem exec_laneFailure_first (hw : s.wf = true) (hl : linkOk l = true) (hup : (s.link l).up = true) {p : Nat} (hp : p < 16)
    (hbit : bit (s.link l).failRx p = false) (hrecent : (s.link l).recent = []) (hwaves : (s.link l).lostWaves = [])
    (htune : (s.link l).laserTuning = none) (hwait : (s.link l).waiting = []) (hspare : (s.link l).spareRx = [])
    (hack : (s.link l).spareAckRx = []) :
    ((s.link l).laneRx.contains p = true → spareFree (s.link l).failRx (s.spareLanes 1 l) p = true →
        ∃ t m, exec (.laneFailure l p) s = .next t ∧ (t.link l).st = (s.link l).st ∧
          (t.link l).failRx = (s.link l).failRx ||| 2 ^ p ∧ (t.link l).waiting = [m] ∧ m.msg = 4 ∧ m.lane = p ∧
          (t.link l).ctl = (s.link l).ctl ++ [5 :: m.bytes] ∧ OtherLinks l s t ∧ Frame [.links] s t) ∧
      ((s.link l).laneRx.contains p = true → spareFree (s.link l).failRx (s.spareLanes 1 l) p = false →
        ∃ t, exec (.laneFailure l p) s = .next t ∧ (t.link l).st = .training ∧ (t.link l).fault = 0x12 ∧
          (t.link l).failRx = (s.link l).failRx ||| 2 ^ p ∧ bit (t.ov faultStatusId) 1 = true ∧ OtherLinks l s t ∧
          Frame [.links, .router, .steps, .obj, .flash] s t) ∧
      ((s.link l).laneRx.contains p = false →
        ∃ t, exec (.laneFailure l p) s = .next t ∧ (t.link l).st = (s.link l).st ∧ (t.link l).waiting = [] ∧
          (t.link l).failRx = (s.link l).failRx ||| 2 ^ p ∧ OtherLinks l s t ∧ Frame [.links] s t) := by
  have hok : (linkOk l && laneOk p) = true := by
    rw [hl, laneOk, decide_eq_true (Nat.lt_trans hp (by decide))]
    rfl
  have hexec : exec (.laneFailure l p) s = .next (s.laneFail l p) := need_of hok _
  have hto := State.linkTo_set (State.twf_links hw) l (s.laneLost l p)
  have hvals : ValsOk (s.setLink l (s.laneLost l p)) := (State.keysFrom_vals hw : ValsOk s)
  rw [hexec, State.laneFail_first hup hbit hp hrecent hwaves htune hwait hspare hack]
  refine ⟨fun hcarries hfree => ?_, fun hcarries hfree => ?_, fun hidle => ?_⟩
  · obtain ⟨m, hm⟩ : ∃ m : LaneMsg, m = { (s.setLink l (s.laneLost l p)).laneMsg l 4 with lane := p } := ⟨_, rfl⟩
    have hm4 : m.msg = 4 ∧ m.lane = p := hm ▸ ⟨rfl, rfl⟩
    rw [if_neg (fun h => Bool.noConfusion (hcarries.symm.trans h)), if_pos hfree, ← hm]
    have hto' := hto.laneSend rfl (.inr (.inr hm4.1))
    have hwaiting : (s.laneLost l p).waiting = [] := hwait
    refine ⟨_, m, rfl, ?_⟩
    rw [hto'.link]
    refine ⟨rfl, rfl, ?_, hm4.1, hm4.2, rfl, hto'.others, hto'.frame⟩
    rw [Link.asking, hwaiting, List.nil_append]
  · rw [if_neg (fun h => Bool.noConfusion (hcarries.symm.trans h)), if_neg (by simp [hfree])]
    obtain ⟨t, ht, hlink, hseen, hothers, hframe⟩ := retrains hto hvals rfl
    refine ⟨t, ht, ?_⟩
    rw [hlink]
    exact ⟨rfl, rfl, rfl, hseen, hothers, hframe⟩
  · rw [if_pos hidle]
    refine ⟨_, rfl, ?_⟩
    rw [hto.link]
    exact ⟨rfl, hwait, rfl, hto.others, hto.frame⟩

variable {raw : List Byte}

theorem exec_spareReq_asked (hw : s.wf = true) (hl : linkOk l = true) (hup : (s.link l).up = true) (hloop : s.looped l = false)
    (hgood : goodFlit 5 raw) {m : LaneMsg} (hm : m = LaneMsg.of (flPayload raw)) (hmsg : m.msg = 4) (hlane : m.lane < 16)
    (hnew : (s.link l).sparedTx.any (fun u => u.1 == m.lane) = false) :
    (spareFree ((s.link l).failedTx m) ((s.link l).sparedTx ++ s.spareLanes 5 l) m.lane = true →
        ∃ (t : State) (q : LaneMsg), exec (.spareReq l raw) s = .next t ∧
          (t.link l).spareAckTx = (s.link l).spareAckTx ++ [(m.lane, 16 + m.lane % 4, none)] ∧
          (t.link l).failTx = (s.link l).failedTx m ∧
          (t.link l).ctl = (s.link l).ctl ++ [5 :: q.bytes] ∧ q.msg = 5 ∧ q.seq = m.seq ∧ q.lane = m.lane ∧
          q.spare = 16 + m.lane % 4 ∧
          t.flash.queue = s.flash.queue ++ [.spare 5 (l * 20 + m.lane) (16 + m.lane % 4)] ∧ OtherLinks l s t ∧
          Frame [.links, .flash] s t) ∧
      (spareFree ((s.link l).failedTx m) ((s.link l).sparedTx ++ s.spareLanes 5 l) m.lane = false →
        ∃ t, exec (.spareReq l raw) s = .next t ∧ (t.link l).st = .training ∧ (t.link l).fault = 0x12 ∧
          bit (t.ov faultStatusId) 1 = true ∧ OtherLinks l s t ∧
          Frame [.links, .router, .steps, .obj, .flash] s t) := by
  have hexec : exec (.spareReq l raw) s = .next ((s.setLink l ((s.link l).header raw)).spareReqIn l m) := by
    rw [hm] at hmsg ⊢
    exact (need_of hl _).trans
      (congrArg _ (State.laneIn_good hloop (Link.hears_of_up hup) hgood hmsg (by decide) (by decide)))
  have hto := State.linkTo_header (l := l) (State.twf_links hw) raw
  have hup' := ((s.link l).header_up raw).trans hup
  have hspared : ((s.link l).header raw).sparedTx = (s.link l).sparedTx ∧
      ((s.link l).header raw).spareAckTx = (s.link l).spareAckTx ∧
      ((s.link l).header raw).failedTx m = (s.link l).failedTx m ∧ ((s.link l).header raw).ctl = (s.link l).ctl := ⟨rfl, rfl, rfl, rfl⟩
  obtain ⟨hsparedTx, hacks, hfailed, hctl⟩ := hspared
  have hlanes : (s.setLink l ((s.link l).header raw)).spareLanes 5 l = s.spareLanes 5 l := rfl
  have hvals : ValsOk (s.setLink l ((s.link l).header raw)) := (State.keysFrom_vals hw : ValsOk s)
  have hqueue : (s.setLink l ((s.link l).header raw)).flash.queue = s.flash.queue := rfl
  rw [hexec]
  generalize s.setLink l ((s.link l).header raw) = u at *
  generalize (s.link l).header raw = x at *
  rw [← hto.link] at hup' hsparedTx hfailed
  rw [State.spareReqIn_eq hup' hlane (hsparedTx.symm ▸ hnew), hsparedTx, hfailed, hlanes]
  refine ⟨fun hfree => ?_, fun hfree => ?_⟩
  · rw [if_pos hfree]
    obtain ⟨hpromised, hrecord⟩ := State.linkTo_promised (m := m) (l := l) hto.ok
    obtain ⟨hq5, hqs, hql, hqsp⟩ := (u.promised l m).spareReply_fields l m
    generalize (u.promised l m).spareReply l m = q at *
    have hto' := ((hto.mono rfl).trans hpromised).laneAnswer rfl q
    have hflash : ((u.promised l m).laneAnswer l q).flash = (u.promised l m).flash := rfl
    refine ⟨_, q, rfl, ?_⟩
    rw [hto'.link, hflash, ← hfailed, hto.link, ← hacks, ← hctl, ← hqueue]
    exact ⟨rfl, rfl, rfl, hq5, hqs, hql, hqsp, hrecord, hto'.others, hto'.frame⟩
  · rw [if_neg (by simp [hfree])]
    obtain ⟨t, ht, hlink, hseen, hothers, hframe⟩ := retrains hto hvals rfl
    refine ⟨t, ht, ?_⟩
    rw [hlink]
    exact ⟨rfl, rfl, hseen, hothers, hframe⟩

theorem exec_spareAck_records (hw : s.wf = true) (hl : linkOk l = true) (hup : (s.link l).up = true) (hloop : s.looped l = false)
    (hgood : goodFlit 5 raw) {m : LaneMsg} (hm : m = LaneMsg.of (flPayload raw)) (hmsg : m.msg = 5)
    (hasked : (s.link l).waiting.any (fun w => w.msg == 4 && w.lane == m.lane) = true) :
    ∃ t, exec (.spareAck l raw) s = .next t ∧
        (t.link l).spareAckRx = (s.link l).spareAckRx ++ [(m.lane, m.spare, m.atRound)] ∧
        (∀ w ∈ (t.link l).waiting, ¬(w.msg = 4 ∧ w.lane = m.lane)) ∧ bit (t.ov faultStatusId) 0 = true ∧
        t.flash.queue.getLast? = some (.spare 1 (l * 20 + m.lane) m.spare) ∧ OtherLinks l s t ∧
        Frame [.links, .obj, .flash, .free] s t := by
  have hexec : exec (.spareAck l raw) s = .next ((s.setLink l ((s.link l).header raw)).spareAckIn l m) := by
    rw [hm] at hmsg ⊢
    exact (need_of hl _).trans
      (congrArg _ (State.laneIn_good hloop (Link.hears_of_up hup) hgood hmsg (by decide) (by decide)))
  have hto := State.linkTo_header (l := l) (State.twf_links hw) raw
  have hup' := ((s.link l).header_up raw).trans hup
  have hwait := (s.link l).header_waiting raw
  have hacks : ((s.link l).header raw).spareAckRx = (s.link l).spareAckRx := rfl
  have hvals : ValsOk (s.setLink l ((s.link l).header raw)) := (State.keysFrom_vals hw : ValsOk s)
  rw [hexec]
  generalize s.setLink l ((s.link l).header raw) = u at *
  generalize (s.link l).header raw = x at *
  rw [← hto.link] at hup' hwait hacks
  obtain ⟨hrecords, hseen, hrecord⟩ := State.spareAckIn_records (m := m) hto.ok hvals hup' (hwait.symm ▸ hasked)
  have hto' := (hto.mono rfl).trans hrecords
  refine ⟨_, rfl, ?_⟩
  rw [hto'.link, ← hacks]
  refine ⟨rfl, fun w hw h => ?_, hseen, hrecord, hto'.others, hto'.frame⟩
  have hkept := Link.not_mem_waiting_settle (x := u.link l) hw
  simp [h.1, h.2] at hkept

end

/-- Settles O37: a spare lane or the spare source takes the place of a failed one, and the link retrains where there is none. -/
theorem sparesTakeTheirPlaces : Obligations.SparesTakeTheirPlaces := by
  intro s l hw hlt hup
  have hl : linkOk l = true := decide_eq_true hlt
  have hv : LinksOk s := State.twf_links hw
  have ho : ValsOk s := State.keysFrom_vals hw
  have hself : State.LinkTo [.links] s s l (s.link l) := (State.LinkTo.refl hv l).mono rfl
  have hwave {w : Nat} (hlw : w < 4) : (linkOk l && waveOk w) = true := by
    rw [hl, waveOk, decide_eq_true hlw]
    rfl
  have hsource {k : Nat} (hk : k < 4) : (linkOk l && sourceOk k) = true := by
    rw [hl, sourceOk, decide_eq_true (Nat.lt_trans hk (by decide))]
    rfl
  refine ⟨fun p hp hbit hrecent hwaves htune hwait hspare hack =>
      exec_laneFailure_first hw hl hup hp hbit hrecent hwaves htune hwait hspare hack,
    fun p hp hbit hlost hnear => ?_, fun hun => ?_,
    fun raw hloop hgood hmsg hlane hnew => exec_spareReq_asked hw hl hup hloop hgood rfl hmsg hlane hnew,
    fun raw hloop hgood hmsg hasked => exec_spareAck_records hw hl hup hloop hgood rfl hmsg hasked,
    fun p q a rest h => ?_, fun p q a rest h => ?_, fun w a hlw hmem hlong => ?_, fun w a hlw hmem => ?_,
    fun k hk hnone hspare htune => ?_, fun k j hk hone hkj => ?_, fun k htune => ?_⟩
  · have hok : (linkOk l && laneOk p) = true := by
      rw [hl, laneOk, decide_eq_true hp]
      rfl
    have hto := State.laneFail_losesWave hup hbit hv hlost hnear
    refine ⟨_, need_of hok _, ?_⟩
    rw [hto.link]
    refine ⟨rfl, rfl, fun w hw h => ?_, hto.others, hto.frame⟩
    have hkept := Link.not_mem_waiting_settle (x := s.laneLost l p) hw
    simp [h.1, h.2] at hkept
  · have heq : s.laneResend l = s.linkRetrain l 0x12 := if_pos ⟨hup, hun⟩
    obtain ⟨t, ht, hlink, hseen, hothers, hframe⟩ := retrains hself ho ((need_of hl _).trans (congrArg _ heq) :
      exec (.laneCtrlResend l) s = _)
    refine ⟨t, ht, ?_⟩
    rw [hlink]
    exact ⟨rfl, rfl, hseen, hothers, hframe⟩
  · have heq : s.atRound l true = _ := (State.atRound_up hup true).trans (State.spareChange_rx h)
    have hto := State.linkTo_set hv l { s.link l with
      spareAckRx := rest
      laneRx := swapLane (s.link l).laneRx p q
      spareRx := (s.link l).spareRx ++ [(p, q)] }
    refine ⟨_, (need_of hl _).trans (congrArg _ heq), ?_⟩
    rw [hto.link]
    exact ⟨rfl, rfl, rfl, rfl, hto.others, hto.frame⟩
  · have heq : s.atRound l false = _ := (State.atRound_up hup false).trans (State.spareChange_tx h)
    have hto := State.linkTo_set hv l { s.link l with
      spareAckTx := rest
      laneTx := swapLane (s.link l).laneTx p q
      spareTx := (s.link l).spareTx ++ [(p, q)] }
    refine ⟨_, (need_of hl _).trans (congrArg _ heq), ?_⟩
    rw [hto.link]
    exact ⟨rfl, rfl, rfl, rfl, hto.others, hto.frame⟩
  · have hlong' : (s.link l).lostWaves.any (fun y => y.1 == w && decide (y.2 + 20000 ≤ s.clk)) = true :=
      List.any_eq_true.mpr ⟨_, hmem, by simp [hlong]⟩
    have heq : s.waveTimeout l w = s.linkRetrain l 0x12 := if_pos ⟨hup, hlong'⟩
    obtain ⟨t, ht, hlink, hseen, hothers, hframe⟩ := retrains hself ho ((need_of (hwave hlw) _).trans (congrArg _ heq) :
      exec (.wavelengthTimeout l w) s = _)
    refine ⟨t, ht, ?_⟩
    rw [hlink]
    exact ⟨rfl, rfl, hseen, hothers, hframe⟩
  · have hto := State.linkTo_set hv l { s.link l with
      lostWaves := (s.link l).lostWaves.filter (fun y => y.1 != w)
      recent := (s.link l).recent.filter (fun r => r.1 % 4 != w)
      failRx := (((s.link l).recent.filter (fun r => r.1 % 4 == w)).map (·.1)).foldl (fun v p => setBits v p 1 0)
        (s.link l).failRx }
    refine ⟨_, (need_of (hwave hlw) _).trans (congrArg _ (State.waveRelock_eq hup hmem)), ?_⟩
    rw [hto.link]
    exact ⟨rfl, fun y => by simp [List.mem_filter], hto.others, hto.frame⟩
  · have hto := (State.linkTo_set hv l (s.laserLost l k)).mod rfl ({ · with laserTuning := some k })
    refine ⟨_, (need_of (hsource hk) _).trans (congrArg _ (State.laserFail_first hk hnone hspare htune)), ?_⟩
    have hfailed : (s.laserLost l k).lasersFailed = [k] := by rw [State.laserLost, hnone, List.nil_append]
    rw [hto.link]
    exact ⟨rfl, hfailed, rfl, hto.others, hto.frame⟩
  · obtain ⟨t, ht, hlink, hseen, hothers, hframe⟩ := retrains (State.linkTo_set hv l (s.laserLost l k)) ho
      ((need_of (hsource hk) _).trans (congrArg _ (State.laserFail_second hup hk hone hkj)) : exec (.laserFailure l k) s = _)
    have hfailed : (s.laserLost l k).lasersFailed = [j, k] := by
      rw [State.laserLost, hone]
      rfl
    refine ⟨t, ht, ?_⟩
    rw [hlink]
    exact ⟨rfl, rfl, hfailed, hseen, hothers, hframe⟩
  · obtain ⟨hto, hservice, hseen⟩ := State.laserLocked_stands hv ho htune
    refine ⟨_, need_of hl _, ?_⟩
    rw [hto.link]
    exact ⟨rfl, rfl, rfl, hservice, hseen, hto.others, hto.frame⟩

end Sys2Proof.Machine
end

