-- ==== Sys2Proof/Proofs/FlitFlow.lean ====
section
/-!
PROOF. Flits are retried in order and credits are returned (R156 to R161, R178, R467).
-/

namespace Sys2Proof.Machine

/-! Receiving (R157, R159 to R161). -/

theorem bits_setBits_self (v lo w x : Nat) : bits (setBits v lo w x) lo w = x % 2 ^ w := by
  have hlow : v % 2 ^ lo / 2 ^ lo = 0 := Nat.div_eq_of_lt (Nat.mod_lt _ (Nat.two_pow_pos lo))
  rw [bits, setBits_eq, Nat.mul_add_div (Nat.two_pow_pos lo), hlow, Nat.add_zero, Nat.mul_add_mod, Nat.mod_mod]

/-- A count of LINK_ERR goes up by one, until it is full (R441). -/
theorem State.bits_linkErr {s : State} (h : ValsOk s) (l k : Nat) : bits ((s.linkErr l k).ov (linkErrId + l)) (32 * k) 32 =
    min (bits (s.ov (linkErrId + l)) (32 * k) 32 + 1) (2 ^ 32 - 1) := by
  rw [State.linkErr, State.ov_modOv h, if_pos rfl, bits_setBits_self, satAdd]
  exact Nat.mod_eq_of_lt (by omega)

section
variable {x : Link} {raw : List Byte}

theorem Link.crcFail_ctl (hup : x.up = true) : x.crcFail.nakOpen = true ∧ x.crcFail.rx = x.rx ∧ x.crcFail.rxSeq = x.rxSeq ∧
    x.crcFail.ctl = if x.nakOpen then x.ctl else x.ctl ++ [2 :: toLE 2 x.rxSeq] := by
  rw [Link.crcFail, hup, Bool.true_and]
  cases hnak : x.nakOpen
  · exact ⟨rfl, rfl, rfl, rfl⟩
  · exact ⟨hnak, rfl, rfl, rfl⟩

variable (hup : x.up = true)
include hup

theorem Link.dataIn_resent (hp : x.parity = some (flSeq raw)) : x.dataIn raw = { x with parity := none } := by
  rw [Link.dataIn]
  exact (if_neg (by simp [hup])).trans (if_pos hp)

variable (hp : x.parity ≠ some (flSeq raw))
include hp

theorem Link.dataIn_inOrder (hq : flSeq raw = x.rxSeq) : x.dataIn raw =
    { x with
      rx := x.rx ++ [bufFlit raw ((creditClass x.heldClass (flVc raw * 2 + ofBool (flDl raw))).getD 24)]
      rxSeq := (flSeq raw + 1) % 65536
      nakOpen := false } := by
  rw [Link.dataIn]
  exact (if_neg (by simp [hup])).trans ((if_neg hp).trans (if_pos hq))

theorem Link.dataIn_repeated (hq : flSeq raw ≠ x.rxSeq) (hbefore : seq16Before (flSeq raw) x.rxSeq = true) : x.dataIn raw = x := by
  rw [Link.dataIn]
  exact (if_neg (by simp [hup])).trans ((if_neg hp).trans ((if_neg hq).trans (if_pos hbefore)))

theorem Link.dataIn_gap (hq : flSeq raw ≠ x.rxSeq) (hbefore : seq16Before (flSeq raw) x.rxSeq = false) :
    x.dataIn raw = x.crcFail := by
  rw [Link.dataIn]
  exact (if_neg (by simp [hup])).trans ((if_neg hp).trans ((if_neg hq).trans (if_neg (by simp [hbefore]))))

end

/-- Credits of a class come back (R159). -/
theorem tget_creditBack {used : Tbl Nat} {c n k : Nat} (h : tget 0 used c = n) (hk : k < n) :
    tget 0 (creditBack used c k) c = n - k := by
  subst h
  have hown : min k (tget 0 used c) = k := Nat.min_eq_left (Nat.le_of_lt hk)
  have hback : tget 0 (tset 0 used c (tget 0 used c - k)) c = tget 0 used c - k := tget_tset_self_of_ne 0 used c (by omega)
  rw [creditBack]
  simp only [hown, Nat.sub_self, Nat.sub_zero]
  by_cases hc : 24 = c
  · rw [hc, hback]
    exact tget_tset_self_of_ne 0 _ c (by omega)
  · rw [tget_tset_of_ne 0 _ _ hc, hback]

theorem Link.mem_retry_header (x : Link) (raw : List Byte) (f : BufFlit) :
    f ∈ (x.header raw).retry ↔ f ∈ x.retry ∧ seq16Before f.seq (flAck raw) = false := by
  rw [Link.header]
  dsimp only
  rw [List.mem_filter, Bool.not_eq_true']

/-! Going back (R161). -/

section
variable {x : Link}

theorem Link.nakIn_up (hup : x.up = true) (n : Nat) : x.nakIn n = { x with
    again := x.again.filter (fun q => seq16Before q n) ++
      (x.retry.filter (fun f => f.seq == n || seq16Before n f.seq)).map (·.seq) } := if_pos hup

theorem Link.resendIn_up (hup : x.up = true) {f : BufFlit} (hf : f ∈ x.retry) :
    x.resendIn f.seq = { x with again := f.seq :: x.again.filter (· != f.seq) } := by
  have hany : x.retry.any (fun g => g.seq == f.seq) = true := List.any_eq_true.mpr ⟨f, hf, beq_self_eq_true _⟩
  exact if_pos (by rw [hup, hany]; rfl)

theorem Link.nakAgain_up (hup : x.up = true) (hnak : x.nakOpen = true) : x.nakAgain.nakOpen = true ∧ x.nakAgain.rx = x.rx ∧
    x.nakAgain.ctl = x.ctl ++ [2 :: toLE 2 x.rxSeq] ++ (match x.parity with
      | some q => [3 :: toLE 2 q]
      | none => []) := by
  have hparity : x.nak.parity = x.parity := rfl
  rw [Link.nakAgain, if_pos hup]
  dsimp only
  rw [if_pos hnak, hparity]
  cases x.parity with
  | none => exact ⟨rfl, rfl, (List.append_nil _).symm⟩
  | some q => exact ⟨rfl, rfl, rfl⟩

end

/-! Sending (R157 to R161, R164, R178). -/

theorem Link.put_eq (x : Link) (hdr : Nat) (payload : List Byte) :
    ∃ owed raw, x.put hdr payload = { x with
      owed := owed
      wire := x.wire ++ [raw] } := by
  rw [Link.put]
  split
  · exact ⟨x.owed, _, rfl⟩
  · exact ⟨_, _, rfl⟩

/-- What one flit that leaves link `x` does to what it keeps for its traffic. -/
structure Link.Sends (x y : Link) : Prop where
  wire : ∃ raw, y.wire = x.wire ++ [raw]
  retry : y.retry = x.retry
  again : y.again = x.again
  out : y.out = x.out

theorem Link.sends_put (x : Link) (hdr : Nat) (payload : List Byte) : x.Sends (x.put hdr payload) := by
  obtain ⟨owed, raw, h⟩ := x.put_eq hdr payload
  rw [h]
  exact ⟨⟨raw, rfl⟩, rfl, rfl, rfl⟩

theorem Link.ctl_put (x : Link) (hdr : Nat) (payload : List Byte) : (x.put hdr payload).ctl = x.ctl := by
  obtain ⟨owed, raw, h⟩ := x.put_eq hdr payload
  rw [h]

theorem Link.noteRound_keeps (x : Link) (round : Nat) (c : List Byte) : (x.noteRound round c).wire = x.wire ∧
    (x.noteRound round c).retry = x.retry ∧ (x.noteRound round c).again = x.again ∧ (x.noteRound round c).out = x.out ∧
    (x.noteRound round c).ctl = x.ctl := by
  rw [Link.noteRound]
  split_ifs <;> exact ⟨rfl, rfl, rfl, rfl, rfl⟩

theorem Link.putCtl_sends (x : Link) (round : Nat) (c : List Byte) :
    x.Sends (x.putCtl round c) ∧ (x.putCtl round c).ctl = dropFirst (· == c) x.ctl := by
  rw [Link.putCtl]
  obtain ⟨hwire, hretry, hagain, hout, hctl⟩ := Link.noteRound_keeps { x with ctl := dropFirst (· == c) x.ctl } round c
  generalize Link.noteRound { x with ctl := dropFirst (· == c) x.ctl } round c = y at *
  have hs := y.sends_put (flitHdr (leNat (c.take 1)) 0 false false false 244 0) (stampRound round c)
  refine ⟨⟨hwire ▸ hs.wire, hs.retry.trans hretry, hs.again.trans hagain, hs.out.trans hout⟩, ?_⟩
  rw [Link.ctl_put, hctl]

/-- The flit that a packet sends next, and the link after it. -/
theorem Link.sendFlit_sends (x : Link) (o : OutPkt) (c : Nat) : ∃ f raw, (x.sendFlit o c).wire = x.wire ++ [raw] ∧
    (x.sendFlit o c).retry = x.retry ++ [f] ∧ f.seq = x.txSeq ∧ f.vc = o.pkt.vc ∧
    f.data = ((pktBytes o.pkt).drop (244 * o.sent)).take 244 ∧ (x.sendFlit o c).txSeq = (x.txSeq + 1) % 65536 ∧
    tget 0 (x.sendFlit o c).used c = tget 0 x.used c + 1 := by
  obtain ⟨f, hf⟩ : ∃ f : BufFlit, f =
      { seq := x.txSeq
        cls := c
        vc := o.pkt.vc
        dl := o.pkt.dl
        sop := o.sent == 0
        eop := o.sent + 1 == pktFlits o.pkt
        data := ((pktBytes o.pkt).drop (244 * o.sent)).take 244 } := ⟨_, rfl⟩
  have heq : x.sendFlit o c = { x.putData f with
      txSeq := (x.txSeq + 1) % 65536
      retry := x.retry ++ [f]
      used := tset 0 x.used c (tget 0 x.used c + 1)
      out := advanceOut o x.out
      lastVc := if o.pkt.vc = 0 then x.lastVc else o.pkt.vc } := by
    rw [hf]
    rfl
  obtain ⟨raw, hraw⟩ := (x.sends_put (flitHdr 1 f.vc f.dl f.sop f.eop f.data.length f.seq) f.data).wire
  rw [heq]
  refine ⟨f, raw, hraw, rfl, hf ▸ rfl, hf ▸ rfl, hf ▸ rfl, rfl, ?_⟩
  exact tget_tset_self_of_ne 0 x.used c (Nat.succ_ne_zero _)

section
variable {x : Link} {carries : Bool} {round : Nat}

theorem Link.transmit_msg {c : List Byte} (h : x.ctl.find? (fun c => !isTimeFlit c) = some c) :
    x.transmit carries round = x.putCtl round c := by rw [Link.transmit, h]

variable (hup : x.up = true) (hmsg : x.ctl.find? (fun c => !isTimeFlit c) = none)
include hup hmsg

theorem Link.transmit_again {q : Nat} {qs : List Nat} (h : x.again = q :: qs) :
    (∃ raw, (x.transmit true round).wire = x.wire ++ [raw]) ∧ (x.transmit true round).again = qs ∧
      (x.transmit true round).retry = x.retry ∧ (x.transmit true round).out = x.out := by
  have heq : x.transmit true round = match x.retry.find? (fun f => f.seq == q) with
      | some f => Link.putData { x with again := qs } f
      | none => Link.put { x with again := qs } (flitHdr 0 0 false false false 244 0) [] := by
    rw [Link.transmit, hmsg]
    dsimp only
    rw [if_neg (by simp [hup]), h]
    rfl
  rw [heq]
  split
  next f _ =>
    have hs := Link.sends_put { x with again := qs } (flitHdr 1 f.vc f.dl f.sop f.eop f.data.length f.seq) f.data
    exact ⟨hs.wire, hs.again, hs.retry, hs.out⟩
  · have hs := Link.sends_put { x with again := qs } (flitHdr 0 0 false false false 244 0) []
    exact ⟨hs.wire, hs.again, hs.retry, hs.out⟩

theorem Link.transmit_quiet : x.Sends (x.transmit false round) := by
  have heq : x.transmit false round = x.put (flitHdr 0 0 false false false 244 0) [] := by
    rw [Link.transmit, hmsg]
    dsimp only
    rw [if_neg (by simp [hup])]
    cases x.again <;> rfl
  exact heq ▸ x.sends_put _ _

theorem Link.transmit_data (hagain : x.again = []) (hroom : x.retry.length < 4096) {o : OutPkt} {c : Nat}
    (harb : x.arbitrate = some (o, c)) : x.transmit true round = x.sendFlit o c := by
  rw [Link.transmit, hmsg]
  dsimp only
  rw [if_neg (by simp [hup]), hagain]
  dsimp only
  rw [if_pos (by simp [hroom]), harb]

/-- With nothing to send ahead or again, one flit leaves: DATA, or IDLE. -/
theorem Link.transmit_wire (hagain : x.again = []) : ∃ raw, (x.transmit true round).wire = x.wire ++ [raw] := by
  rw [Link.transmit, hmsg]
  dsimp only
  rw [if_neg (by simp [hup]), hagain]
  dsimp only
  split
  next o c _ =>
    obtain ⟨f, raw, hwire, -⟩ := x.sendFlit_sends o c
    exact ⟨raw, hwire⟩
  · exact (x.sends_put _ _).wire

end

/-- A TIME flit leaves (R178). -/
theorem State.LinkTo.timeSend {s t : State} {l : Nat} {x : Link} (h : State.LinkTo [.ft, .links] s t l x) (c : List Byte) :
    ∃ body, State.LinkTo [.ft, .links] s (t.timeSend l c) l
      (Link.put { x with ctl := dropFirst (· == c) x.ctl } (flitHdr 4 0 false false false 244 0) body) := by
  obtain ⟨u, body, hu, heq⟩ : ∃ u body, Runs [.ft] t u ∧ t.timeSend l c =
      u.modLink l (fun x => Link.put { x with ctl := dropFirst (· == c) x.ctl } (flitHdr 4 0 false false false 244 0) body) := by
    rw [State.timeSend]
    split
    · exact ⟨_, _, State.timeLeft_runs .., rfl⟩
    · exact ⟨t, _, .refl t, rfl⟩
  rw [heq]
  exact ⟨body, (h.beside hu rfl (hu.same .links rfl)).mod rfl _⟩

section
variable {s : State} {l : Nat}

/-- The TIME flit that a link sends now, if it sends one. -/
def State.timeNow (s : State) (l : Nat) : Option (List Byte) :=
  if (s.link l).lastRound = s.rounds l + 1 then none else (s.link l).ctl.find? isTimeFlit

/-- A link in the round of the flit that it sends. -/
def State.inRound (s : State) (l : Nat) : Link := { s.link l with lastRound := s.rounds l + 1 }

theorem State.flitOut_none (h : s.timeNow l = none) :
    s.flitOut l = s.setLink l ((s.inRound l).transmit (!s.looped l) (s.rounds l % 1024)) := by
  have heq : s.flitOut l = match s.timeNow l with
      | some c => (s.modLink l ({ · with lastRound := s.rounds l + 1 })).timeSend l c
      | none => s.setLink l ((s.inRound l).transmit (!s.looped l) (s.rounds l % 1024)) := by
    rw [State.flitOut]
    rfl
  rw [heq, h]

theorem State.flitOut_some {c : List Byte} (h : s.timeNow l = some c) :
    s.flitOut l = (s.setLink l (s.inRound l)).timeSend l c := by
  have heq : s.flitOut l = match s.timeNow l with
      | some c => (s.setLink l (s.inRound l)).timeSend l c
      | none => s.setLink l ((s.inRound l).transmit (!s.looped l) (s.rounds l % 1024)) := by
    rw [State.flitOut]
    rfl
  rw [heq, h]

variable (hv : LinksOk s)
include hv

/-- A TIME flit, or with none due a message, leaves ahead of the traffic. -/
theorem State.flitOut_ahead {c : List Byte}
    (h : s.timeNow l = some c ∨ (s.timeNow l = none ∧ (s.link l).ctl.find? (fun c => !isTimeFlit c) = some c)) :
    ∃ y, State.LinkTo [.ft, .links] s (s.flitOut l) l y ∧ (s.link l).Sends y ∧ y.ctl = dropFirst (fun d => d == c) (s.link l).ctl := by
  rcases h with h | ⟨h, hmsg⟩
  · rw [State.flitOut_some h]
    obtain ⟨body, hto⟩ := ((State.linkTo_set hv l (s.inRound l)).mono rfl).timeSend c
    obtain ⟨hwire, hretry, hagain, hout⟩ := Link.sends_put { s.inRound l with ctl := dropFirst (· == c) (s.inRound l).ctl }
      (flitHdr 4 0 false false false 244 0) body
    exact ⟨_, hto, ⟨hwire, hretry, hagain, hout⟩, Link.ctl_put _ _ _⟩
  · have htransmit : (s.inRound l).transmit (!s.looped l) (s.rounds l % 1024) = (s.inRound l).putCtl (s.rounds l % 1024) c :=
      Link.transmit_msg (x := s.inRound l) hmsg
    rw [State.flitOut_none h, htransmit]
    obtain ⟨⟨hwire, hretry, hagain, hout⟩, hctl⟩ := (s.inRound l).putCtl_sends (s.rounds l % 1024) c
    exact ⟨_, (State.linkTo_set hv l _).mono rfl, ⟨hwire, hretry, hagain, hout⟩, hctl⟩

variable (hup : (s.link l).up = true)
include hup

/-- On a looped link no traffic leaves (R467). -/
theorem State.flitOut_looped (hloop : s.looped l = true) :
    ∃ y, State.LinkTo [.ft, .links] s (s.flitOut l) l y ∧ (s.link l).Sends y := by
  cases htime : s.timeNow l with
  | some c =>
    obtain ⟨y, hto, hs, -⟩ := State.flitOut_ahead hv (.inl htime)
    exact ⟨y, hto, hs⟩
  | none =>
    cases hmsg : (s.link l).ctl.find? (fun c => !isTimeFlit c) with
    | some c =>
      obtain ⟨y, hto, hs, -⟩ := State.flitOut_ahead hv (.inr ⟨htime, hmsg⟩)
      exact ⟨y, hto, hs⟩
    | none =>
      rw [State.flitOut_none htime, hloop]
      obtain ⟨hwire, hretry, hagain, hout⟩ := Link.transmit_quiet (x := s.inRound l) (round := s.rounds l % 1024) hup hmsg
      exact ⟨_, (State.linkTo_set hv l _).mono rfl, ⟨hwire, hretry, hagain, hout⟩⟩

/-- What one flit that leaves an unlooped link in traffic does. -/
theorem State.flitOut_sends (hloop : s.looped l = false) :
    ∃ y, State.LinkTo [.ft, .links] s (s.flitOut l) l y ∧ (∃ raw, y.wire = (s.link l).wire ++ [raw]) ∧
      (∀ c, s.timeNow l = some c ∨ (s.timeNow l = none ∧ (s.link l).ctl.find? (fun c => !isTimeFlit c) = some c) →
        y.ctl = dropFirst (fun d => d == c) (s.link l).ctl ∧ y.retry = (s.link l).retry ∧
        y.again = (s.link l).again ∧ y.out = (s.link l).out) ∧
      (s.timeNow l = none → (s.link l).ctl.find? (fun c => !isTimeFlit c) = none → ∀ q qs, (s.link l).again = q :: qs →
        y.again = qs ∧ y.retry = (s.link l).retry ∧ y.out = (s.link l).out) ∧
      (∀ o c, s.timeNow l = none → (s.link l).ctl.find? (fun c => !isTimeFlit c) = none → (s.link l).again = [] →
        (s.link l).retry.length < 4096 → (s.link l).arbitrate = some (o, c) →
        ∃ f, y.retry = (s.link l).retry ++ [f] ∧ f.seq = (s.link l).txSeq ∧ f.vc = o.pkt.vc ∧
          f.data = ((pktBytes o.pkt).drop (244 * o.sent)).take 244 ∧
          y.txSeq = ((s.link l).txSeq + 1) % 65536 ∧ tget 0 y.used c = tget 0 (s.link l).used c + 1) := by
  by_cases hahead : ∃ c, s.timeNow l = some c ∨ (s.timeNow l = none ∧ (s.link l).ctl.find? (fun c => !isTimeFlit c) = some c)
  · obtain ⟨c, hc⟩ := hahead
    obtain ⟨y, hto, hs, hctl⟩ := State.flitOut_ahead hv hc
    have hnot (h : s.timeNow l = none) (hmsg : (s.link l).ctl.find? (fun c => !isTimeFlit c) = none) : False := by
      rw [h, hmsg] at hc
      simp at hc
    refine ⟨y, hto, hs.wire, fun d hd => ?_, fun h hmsg => (hnot h hmsg).elim, fun _ _ h hmsg => (hnot h hmsg).elim⟩
    have hdc : d = c := by
      rcases hc with hc | ⟨hc, hc'⟩ <;> rcases hd with hd | ⟨hd, hd'⟩
      · exact Option.some.inj (hd.symm.trans hc)
      · exact nomatch hd.symm.trans hc
      · exact nomatch hc.symm.trans hd
      · exact Option.some.inj (hd'.symm.trans hc')
    rw [hdc]
    exact ⟨hctl, hs.retry, hs.again, hs.out⟩
  · have htime : s.timeNow l = none := by
      cases h : s.timeNow l with
      | none => rfl
      | some c => exact (hahead ⟨c, .inl h⟩).elim
    have hmsg : (s.link l).ctl.find? (fun c => !isTimeFlit c) = none := by
      cases h : (s.link l).ctl.find? (fun c => !isTimeFlit c) with
      | none => rfl
      | some c => exact (hahead ⟨c, .inr ⟨htime, h⟩⟩).elim
    have hto := State.linkTo_set hv l ((s.inRound l).transmit true (s.rounds l % 1024))
    rw [State.flitOut_none htime, hloop]
    cases hagain : (s.link l).again with
    | cons q qs =>
      obtain ⟨hwire, hqs, hretry, hout⟩ := Link.transmit_again (x := s.inRound l) (round := s.rounds l % 1024) hup hmsg hagain
      refine ⟨_, hto.mono rfl, hwire, fun c hc => (hahead ⟨c, hc⟩).elim, fun _ _ q' qs' h => ?_, fun _ _ _ _ h => ?_⟩
      · exact ⟨hqs.trans (List.cons.inj h).2, hretry, hout⟩
      · exact (List.cons_ne_nil _ _ h).elim
    | nil =>
      refine ⟨_, hto.mono rfl, Link.transmit_wire (x := s.inRound l) hup hmsg hagain, fun c hc => (hahead ⟨c, hc⟩).elim,
        fun _ _ q' qs' h => (List.cons_ne_nil _ _ h.symm).elim, fun o c _ _ _ hroom harb => ?_⟩
      obtain ⟨f, raw, -, hf⟩ := (s.inRound l).sendFlit_sends o c
      rw [Link.transmit_data (x := s.inRound l) hup hmsg hagain hroom harb]
      exact ⟨f, hf⟩

end

theorem valsOk_covered {s : State} (h : ValsOk s) (code unit : Nat) : ValsOk (s.covered code unit) := by
  have hobj : (s.faultRec (s.ftRead mgmtPs) code unit (Config.interruption s.free % (coveredBound code + 1))).obj = s.obj :=
    (State.faultRec_runs ..).same .obj rfl
  have hvals : ValsOk (s.faultRec (s.ftRead mgmtPs) code unit (Config.interruption s.free % (coveredBound code + 1))) := by
    rw [ValsOk, hobj]
    exact h
  rw [ValsOk, State.covered_eq]
  exact keysFrom_tset _ _ _ hvals

/-! The commands. -/

section
variable {s : State} {l : Nat} {raw : List Byte}

/-- The next flit to read out fails its parity (R161, R385). -/
theorem State.parityError_asks (hv : LinksOk s) (ho : ValsOk s) (hl : l < 6) (hup : (s.link l).up = true) {f : BufFlit}
    {fs : List BufFlit} (hrx : (s.link l).rx = f :: fs) (hparity : (s.link l).parity = none) :
    State.LinkTo [.links, .obj, .flash, .free] s (s.parityError l) l ({ s.link l with parity := some f.seq }.queue 3 (toLE 2 f.seq)) ∧
      bit ((s.parityError l).ov faultStatusId) 0 = true ∧
      (s.parityError l).ov (ceCountId + 4) = min (s.ov (ceCountId + 4) + 1) (2 ^ 32 - 1) := by
  have heq : s.parityError l = (((s.setLink l ({ s.link l with parity := some f.seq }.queue 3 (toLE 2 f.seq))).linkErr l 2).covered
      4 l).bump (ceCountId + 4) := by
    unfold State.parityError
    dsimp only
    split
    next g gs hg hnone =>
      rw [hrx] at hg
      obtain ⟨rfl, rfl⟩ := List.cons.inj hg
      exact if_pos hup
    next h => exact (h f fs hrx hparity).elim
  have hto := State.linkTo_set hv l ({ s.link l with parity := some f.seq }.queue 3 (toLE 2 f.seq))
  have hids : faultStatusId = 0xA0011 ∧ ceCountId = 0xA0020 ∧ linkErrId = 0x40030 := ⟨rfl, rfl, rfl⟩
  obtain ⟨hstatus, hce, herr⟩ := hids
  have hcount : s.ov (ceCountId + 4) = (s.setLink l ({ s.link l with parity := some f.seq }.queue 3 (toLE 2 f.seq))).ov (ceCountId + 4) := rfl
  rw [heq, hcount]
  clear heq hcount
  generalize hu : s.setLink l _ = u at hto ⊢
  have hvals : ValsOk u := hu ▸ ho
  have hvals' : ValsOk (u.linkErr l 2) := keysFrom_tset _ _ _ hvals
  obtain ⟨v, hv⟩ : ∃ v, v = (u.linkErr l 2).covered 4 l := ⟨_, rfl⟩
  have hcovered (j : Nat) : v.ov j = if j = faultStatusId then 1 ||| (u.linkErr l 2).ov faultStatusId else (u.linkErr l 2).ov j :=
    hv ▸ State.ov_covered hvals' 4 l j
  have hvl : State.LinkTo [.links, .obj, .flash, .free] s v l ({ s.link l with parity := some f.seq }.queue 3 (toLE 2 f.seq)) :=
    hv ▸ ((hto.mono rfl).beside (State.linkErr_runs u l 2) rfl ((State.linkErr_runs ..).same .links rfl)).beside
      (State.covered_runs ..) rfl ((State.covered_runs ..).same .links rfl)
  rw [← hv]
  refine ⟨hvl.beside (State.bump_runs ..) rfl ((State.bump_runs ..).same .links rfl), ?_, ?_⟩
  · have hother : (v.bump (ceCountId + 4)).ov faultStatusId = v.ov faultStatusId := State.ov_setOv_of_ne _ _ (by omega)
    rw [hother, hcovered, if_pos rfl]
    exact bit_one_or _
  · have hplus : (v.bump (ceCountId + 4)).ov (ceCountId + 4) = satAdd 32 1 (v.ov (ceCountId + 4)) :=
      (State.ov_bump (hv ▸ valsOk_covered hvals' 4 l) _ _ _).trans (if_pos rfl)
    have herr' : (u.linkErr l 2).ov (ceCountId + 4) = u.ov (ceCountId + 4) := State.ov_setOv_of_ne _ _ (by omega)
    rw [hplus, hcovered, if_neg (by omega), herr', satAdd, Nat.add_comm]

variable (hl : linkOk l = true) (hv : LinksOk s) (hup : (s.link l).up = true) (hloop : s.looped l = false)
include hl hv hup hloop

/-- A good DATA flit reaches the link's receiver. -/
theorem exec_dataFlit_good (hgood : goodFlit 1 raw) :
    ∃ t, exec (.dataFlitReceive l raw true) s = .next t ∧
      State.LinkTo [.links] s t l (((s.link l).header raw).dataIn raw) := by
  have hto := State.linkTo_header (l := l) hv raw
  exact ⟨_, (need_of hl _).trans (congrArg _ (State.flitIn_good hloop (Link.hears_of_up hup) hgood)), hto.mod rfl (·.dataIn raw)⟩

theorem exec_dataFlit_inTraffic (hgood : goodFlit 1 raw) :
    ((s.link l).parity = some (flSeq raw) →
        ∃ t, exec (.dataFlitReceive l raw true) s = .next t ∧ (t.link l).parity = none ∧ (t.link l).rx = (s.link l).rx ∧
          (t.link l).rxSeq = (s.link l).rxSeq ∧ (t.link l).ctl = (s.link l).ctl ∧ OtherLinks l s t ∧ Frame [.links] s t) ∧
      ((s.link l).parity ≠ some (flSeq raw) → flSeq raw = (s.link l).rxSeq →
        ∃ t c, exec (.dataFlitReceive l raw true) s = .next t ∧ (t.link l).rx = (s.link l).rx ++ [bufFlit raw c] ∧
          (t.link l).rxSeq = (flSeq raw + 1) % 65536 ∧ (t.link l).nakOpen = false ∧ (t.link l).ctl = (s.link l).ctl ∧
          OtherLinks l s t ∧ Frame [.links] s t) ∧
      ((s.link l).parity ≠ some (flSeq raw) → flSeq raw ≠ (s.link l).rxSeq →
        seq16Before (flSeq raw) (s.link l).rxSeq = true →
        ∃ t, exec (.dataFlitReceive l raw true) s = .next t ∧ (t.link l).rx = (s.link l).rx ∧
          (t.link l).rxSeq = (s.link l).rxSeq ∧ (t.link l).ctl = (s.link l).ctl ∧ OtherLinks l s t ∧
          Frame [.links] s t) ∧
      ((s.link l).parity ≠ some (flSeq raw) → flSeq raw ≠ (s.link l).rxSeq →
        seq16Before (flSeq raw) (s.link l).rxSeq = false → (s.link l).nakOpen = false →
        ∃ t, exec (.dataFlitReceive l raw true) s = .next t ∧ (t.link l).rx = (s.link l).rx ∧
          (t.link l).rxSeq = (s.link l).rxSeq ∧ (t.link l).nakOpen = true ∧
          (t.link l).ctl = (s.link l).ctl ++ [2 :: toLE 2 (s.link l).rxSeq] ∧ OtherLinks l s t ∧ Frame [.links] s t) := by
  obtain ⟨t, ht, hto⟩ := exec_dataFlit_good hl hv hup hloop hgood
  have hup' := ((s.link l).header_up raw).trans hup
  have hlink := hto.link
  refine ⟨fun hp => ⟨t, ht, ?_⟩, fun hp hq => ?_, fun hp hq hb => ⟨t, ht, ?_⟩, fun hp hq hb hnak => ⟨t, ht, ?_⟩⟩
  · rw [hlink, Link.dataIn_resent hup' hp]
    exact ⟨rfl, rfl, rfl, rfl, hto.others, hto.frame⟩
  · rw [Link.dataIn_inOrder hup' hp hq] at hlink
    refine ⟨t, _, ht, congrArg Link.rx hlink, ?_⟩
    rw [hlink]
    exact ⟨rfl, rfl, rfl, hto.others, hto.frame⟩
  · rw [hlink, Link.dataIn_repeated hup' hp hq hb]
    exact ⟨rfl, rfl, rfl, hto.others, hto.frame⟩
  · obtain ⟨hopen, hrx, hseq, hctl⟩ := Link.crcFail_ctl hup'
    rw [hlink, Link.dataIn_gap hup' hp hq hb]
    rw [if_neg (by rw [show ((s.link l).header raw).nakOpen = (s.link l).nakOpen from rfl, hnak]; decide)] at hctl
    exact ⟨hrx, hseq, hopen, hctl, hto.others, hto.frame⟩

theorem exec_dataFlit_faulty (ho : ValsOk s) {k : Nat}
    (hbad : (flCrcOk raw = false ∧ k = 0) ∨ (flCrcOk raw = true ∧ flBad raw = true ∧ k = 96)) :
    ∃ t, exec (.dataFlitReceive l raw true) s = .next t ∧ (t.link l).rx = (s.link l).rx ∧ (t.link l).nakOpen = true ∧
        (t.link l).ctl = (if (s.link l).nakOpen then (s.link l).ctl
          else (s.link l).ctl ++ [2 :: toLE 2 (s.link l).rxSeq]) ∧
        bits (t.ov (linkErrId + l)) k 32 = min (bits (s.ov (linkErrId + l)) k 32 + 1) (2 ^ 32 - 1) ∧
        OtherLinks l s t ∧ Frame [.links, .obj] s t := by
  have hto := State.linkTo_set hv l (s.link l).crcFail
  have hvals : ValsOk (s.setLink l (s.link l).crcFail) := ho
  have hov : (s.setLink l (s.link l).crcFail).ov (linkErrId + l) = s.ov (linkErrId + l) := rfl
  obtain ⟨hopen, hrx, -, hctl⟩ := Link.crcFail_ctl hup
  obtain ⟨hdown, hmis⟩ := Link.hears_of_up hup
  have hin (f : State → State) : ∃ j, k = 32 * j ∧ s.flitIn l 1 raw true f = (s.setLink l (s.link l).crcFail).linkErr l j := by
    rw [State.flitIn, if_neg (by simp [hloop]), State.flitCore]
    rw [if_neg (by simp [hdown, hmis]), if_neg (by decide)]
    rcases hbad with ⟨hcrc, rfl⟩ | ⟨hcrc, hbad, rfl⟩
    · exact ⟨0, rfl, if_pos hcrc⟩
    · exact ⟨3, rfl, (if_neg (by simp [hcrc])).trans (if_pos hbad)⟩
  obtain ⟨j, rfl, hj⟩ := hin (fun s => s.modLink l (·.dataIn raw))
  have hexec : exec (.dataFlitReceive l raw true) s = .next ((s.setLink l (s.link l).crcFail).linkErr l j) :=
    (need_of hl _).trans (congrArg _ hj)
  have hto' : State.LinkTo [.links, .obj] s ((s.setLink l (s.link l).crcFail).linkErr l j) l (s.link l).crcFail :=
    (hto.mono rfl).beside (State.linkErr_runs ..) rfl ((State.linkErr_runs ..).same .links rfl)
  refine ⟨_, hexec, ?_⟩
  rw [hto'.link, State.bits_linkErr hvals, hov]
  exact ⟨hrx, hopen, hctl, rfl, hto'.others, hto'.frame⟩

theorem exec_idleFlit_good (hgood : goodFlit 0 raw) :
    ∃ t, exec (.idleFlitReceive l raw) s = .next t ∧
        (∀ f, f ∈ (t.link l).retry ↔ f ∈ (s.link l).retry ∧ seq16Before f.seq (flAck raw) = false) ∧
        (t.link l).rx = (s.link l).rx ∧ (t.link l).rxSeq = (s.link l).rxSeq ∧ (t.link l).ctl = (s.link l).ctl ∧
        (31 = flCrClass raw → (t.link l).used = (s.link l).used) ∧
        (∀ n, flCrClass raw ≤ 24 → tget 0 (s.link l).used (flCrClass raw) = n → flCrCount raw < n →
          tget 0 (t.link l).used (flCrClass raw) = n - flCrCount raw) ∧ OtherLinks l s t ∧ Frame [.links] s t := by
  have hto := State.linkTo_header (l := l) hv raw
  have hexec : exec (.idleFlitReceive l raw) s = .next (s.setLink l ((s.link l).header raw)) :=
    (need_of hl _).trans (congrArg _ (State.flitIn_good hloop (Link.hears_of_up hup) hgood))
  have hused : ((s.link l).header raw).used = if flCrClass raw ≤ 24 then
      creditBack (s.link l).used (flCrClass raw) (flCrCount raw) else (s.link l).used := rfl
  refine ⟨_, hexec, ?_⟩
  rw [hto.link]
  refine ⟨(s.link l).mem_retry_header raw, rfl, rfl, rfl, fun h => ?_, fun n hc hn hk => ?_, hto.others, hto.frame⟩
  · rw [hused, if_neg (by omega)]
  · rw [hused, if_pos hc, tget_creditBack hn hk]

theorem exec_nak_good (hgood : goodFlit 2 raw) {n : Nat} (hn : n = bytesField (flPayload raw) 0 16) :
    ∃ t, exec (.nak l raw) s = .next t ∧
        (t.link l).again =
          ((s.link l).again.filter (fun q => !seq16Before q (flAck raw))).filter (fun q => seq16Before q n) ++
            ((t.link l).retry.filter (fun f => f.seq == n || seq16Before n f.seq)).map (·.seq) ∧
        (∀ f, f ∈ (t.link l).retry ↔ f ∈ (s.link l).retry ∧ seq16Before f.seq (flAck raw) = false) ∧
        (t.link l).rx = (s.link l).rx ∧ (t.link l).txSeq = (s.link l).txSeq ∧ OtherLinks l s t ∧ Frame [.links] s t := by
  have hto := (State.linkTo_header (l := l) hv raw).mod rfl (·.nakIn n)
  have hexec : exec (.nak l raw) s = .next ((s.setLink l ((s.link l).header raw)).modLink l (·.nakIn n)) := by
    rw [hn]
    exact (need_of hl _).trans (congrArg _ (State.flitIn_good hloop (Link.hears_of_up hup) hgood))
  refine ⟨_, hexec, ?_⟩
  rw [hto.link, Link.nakIn_up (((s.link l).header_up raw).trans hup)]
  exact ⟨rfl, (s.link l).mem_retry_header raw, rfl, rfl, hto.others, hto.frame⟩

theorem exec_resend_good (hgood : goodFlit 3 raw) {f : BufFlit} (hf : f ∈ (s.link l).retry)
    (hseq : f.seq = bytesField (flPayload raw) 0 16) (hack : seq16Before f.seq (flAck raw) = false) :
    ∃ t, exec (.resend l raw) s = .next t ∧ (t.link l).again.head? = some f.seq ∧ f ∈ (t.link l).retry ∧
        OtherLinks l s t ∧ Frame [.links] s t := by
  have hto := (State.linkTo_header (l := l) hv raw).mod rfl (·.resendIn f.seq)
  have hexec : exec (.resend l raw) s = .next ((s.setLink l ((s.link l).header raw)).modLink l (·.resendIn f.seq)) := by
    rw [hseq]
    exact (need_of hl _).trans (congrArg _ (State.flitIn_good hloop (Link.hears_of_up hup) hgood))
  have hmem := ((s.link l).mem_retry_header raw f).mpr ⟨hf, hack⟩
  refine ⟨_, hexec, ?_⟩
  rw [hto.link, Link.resendIn_up (((s.link l).header_up raw).trans hup) hmem]
  exact ⟨rfl, hmem, hto.others, hto.frame⟩

end

/-- A looped link receives the one flit that it sends (R467). -/
theorem State.flitTransmit_looped {s : State} {l : Nat} {raw : List Byte} (hloop : s.looped l = true)
    (hwire : ((s.flitOut l).link l).wire = (s.link l).wire ++ [raw]) : s.flitTransmit l = (s.flitOut l).loopIn l raw := by
  rw [State.flitTransmit, if_pos hloop, hwire, List.drop_left]
  rfl

/-- Settles O38: flits are retried in order, and each one returns credits and releases what came before. -/
theorem flitsAreRetriedAndCredited : Obligations.FlitsAreRetriedAndCredited := by
  intro s l hw hlt hup
  have hl : linkOk l = true := decide_eq_true hlt
  have hv : LinksOk s := State.twf_links hw
  have ho : ValsOk s := State.keysFrom_vals hw
  refine ⟨fun raw hloop hgood => exec_dataFlit_inTraffic hl hv hup hloop hgood,
    fun raw k hloop hbad => exec_dataFlit_faulty hl hv hup hloop ho hbad,
    fun raw hloop hgood => exec_idleFlit_good hl hv hup hloop hgood,
    fun raw hloop hgood => exec_nak_good hl hv hup hloop hgood rfl,
    fun raw f hloop hgood hf hseq hack => exec_resend_good hl hv hup hloop hgood hf hseq hack,
    fun hnak => ?_, fun f fs hrx hparity => ?_, ?_⟩
  · obtain ⟨hopen, hrx, hctl⟩ := Link.nakAgain_up hup hnak
    have hto := ((State.LinkTo.refl hv l).mono (K := [.links]) rfl).mod rfl (·.nakAgain)
    refine ⟨_, need_of hl _, ?_⟩
    rw [hto.link]
    exact ⟨hopen, hctl, hrx, hto.others, hto.frame⟩
  · obtain ⟨hto, hstatus, hce⟩ := State.parityError_asks hv ho hlt hup hrx hparity
    refine ⟨_, need_of hl _, ?_⟩
    rw [hto.link]
    exact ⟨rfl, rfl, rfl, hstatus, hce, hto.others, hto.frame⟩
  · refine ⟨fun hloop => ?_, fun hloop => ?_⟩
    · obtain ⟨y, hto, ⟨raw, hwire⟩, hretry, hagain, hout⟩ := State.flitOut_looped hv hup hloop
      rw [← hto.link] at hwire hretry hagain hout
      exact ⟨_, raw, need_of hl _, State.flitTransmit_looped hloop hwire, hwire, hout, hretry, hagain⟩
    · obtain ⟨y, hto, ⟨raw, hwire⟩, hahead, hagain, hdata⟩ := State.flitOut_sends hv hup hloop
      have heq : s.flitTransmit l = s.flitOut l := if_neg (by simp [hloop])
      rw [← hto.link] at hwire hahead hagain hdata
      refine ⟨_, (need_of hl _).trans (congrArg _ heq), ?_, hahead, hagain, hdata, hto.others, hto.frame⟩
      rw [hwire, List.length_append]
      rfl

end Sys2Proof.Machine
end

