-- ==== Sys2Proof/Proofs/FabricTime.lean ====
section
/-!
PROOF. Fabric time follows its parent, locks, and holds over (R176 to R180).
-/

namespace Sys2Proof.Machine

theorem length_padTo (n : Nat) (bs : List Byte) : (padTo n bs).length = n := by
  rw [padTo, List.length_take, List.length_append, List.length_replicate]
  omega

/-- The payload of a flit is what it was formed with (R156). -/
theorem flPayload_flit (hdr : Nat) (payload : List Byte) : flPayload (flit hdr payload) = padTo 244 payload := by
  have hlen : (toLE 8 hdr).length = 8 := length_toLE ..
  rw [flPayload, flit, List.append_assoc, List.drop_left' hlen, List.take_left' (length_padTo ..)]

theorem Link.put_payload (x : Link) (hdr : Nat) (payload : List Byte) :
    ∃ raw, (x.put hdr payload).wire = x.wire ++ [raw] ∧ flPayload raw = padTo 244 payload := by
  rw [Link.put]
  split <;> exact ⟨_, rfl, flPayload_flit ..⟩

theorem State.ftRead_of_now {s t : State} (hc : t.clk = s.clk) (hn : t.ft.now = s.ft.now) (ps : Nat) : t.ftRead ps = s.ftRead ps := by
  rw [State.ftRead, State.ftRead, hc, hn]

theorem State.timeBody_congr {s t : State} (hf : t.ft = s.ft) (ho : t.obj = s.obj) (seq kind t1 t2 t3 : Nat) :
    t.timeBody seq kind t1 t2 t3 = s.timeBody seq kind t1 t2 t3 := by
  rw [State.timeBody, State.timeBody, hf, State.ov_congr ho]

theorem State.keysFrom_exch {s : State} (hw : s.wf = true) : keysFrom none s.ft.exch = true := by
  have hft : s.ft.wf = true := by
    simp only [State.wf, Bool.and_eq_true] at hw
    tauto
  exact (Bool.and_eq_true_iff.mp hft).2

/-! A TIME flit leaves (R178). -/

section
variable {s t : State} {l : Nat} {x : Link} {c : List Byte}

/-- The link once the TIME flit `c` has left it with the payload `body`. -/
def Link.timeSent (x : Link) (c body : List Byte) : Link :=
  Link.put { x with ctl := dropFirst (· == c) x.ctl } (flitHdr 4 0 false false false 244 0) body

theorem State.exch_timeLeft {e : TimeExch} (hexch : tget? t.ft.exch l = some e) (n : Nat) :
    tget? (t.timeLeft l e.seq n).ft.exch l = some ⟨e.seq, some n⟩ := by
  rw [State.timeLeft, hexch]
  dsimp only
  rw [if_pos rfl]
  exact tget?_tins_self ..

theorem State.timeSend_request (hkind : bytesField (c.drop 1) 16 1 = 0) : t.timeSend l c =
      (t.timeLeft l (bytesField (c.drop 1) 0 16) (t.ftRead linkPs)).modLink l
        (·.timeSent c (t.timeBody (bytesField (c.drop 1) 0 16) 0 (t.ftRead linkPs) 0 0)) := by
  rw [State.timeSend]
  simp only [if_pos hkind]
  rfl

theorem State.timeSend_reply (hkind : bytesField (c.drop 1) 16 1 = 1) : t.timeSend l c =
    t.modLink l (·.timeSent c (t.timeBody (bytesField (c.drop 1) 0 16) 1 (bytesField (c.drop 1) 64 64)
      (bytesField (c.drop 1) 128 64) (t.ftRead linkPs))) := by
  have hnot : bytesField (c.drop 1) 16 1 ≠ 0 := by omega
  rw [State.timeSend]
  simp only [if_neg hnot]
  rfl

theorem State.flitTransmit_time (hloop : s.looped l = false) (h : s.timeNow l = some c) :
    s.flitTransmit l = (s.setLink l (s.inRound l)).timeSend l c :=
  (if_neg (by simp [hloop]) : s.flitTransmit l = s.flitOut l).trans (State.flitOut_some h)

/-- The TIME flit of link `l` in its place of the round. -/
theorem State.timeNow_of_find (hround : (s.link l).lastRound ≠ s.rounds l + 1) (h : (s.link l).ctl.find? isTimeFlit = some c) :
    s.timeNow l = some c := (if_neg hround).trans h

theorem exec_flitTransmit_request (hl : linkOk l = true) (hv : LinksOk s) (hloop : s.looped l = false) (h : s.timeNow l = some c)
    {e : TimeExch} (hkind : bytesField (c.drop 1) 16 1 = 0) (hexch : tget? s.ft.exch l = some e)
    (hseq : e.seq = bytesField (c.drop 1) 0 16) :
    ∃ (t : State) (raw : List Byte), exec (.flitTransmit l) s = .next t ∧
      tget? t.ft.exch l = some ⟨e.seq, some (s.ftRead linkPs)⟩ ∧
      (t.link l).wire = (s.link l).wire ++ [raw] ∧
      flPayload raw = padTo 244 (s.timeBody (bytesField (c.drop 1) 0 16) 0 (s.ftRead linkPs) 0 0) ∧
      OtherLinks l s t ∧ Frame [.ft, .links] s t := by
  have hto := State.linkTo_set hv l (s.inRound l)
  have hft : (s.setLink l (s.inRound l)).ft = s.ft := rfl
  have hbody := State.timeBody_congr hft rfl (bytesField (c.drop 1) 0 16) 0 (s.ftRead linkPs) 0 0
  have hread := State.ftRead_congr (s := s) (t := s.setLink l (s.inRound l)) rfl hft linkPs
  have heq := State.flitTransmit_time hloop h
  have hwire : (s.inRound l).wire = (s.link l).wire := rfl
  rw [State.timeSend_request hkind, hread, hbody, ← hseq] at heq
  rw [← hseq] at hbody ⊢
  generalize s.setLink l (s.inRound l) = u at hto hft heq
  have hto' := ((hto.mono rfl).beside (L := [.ft, .links]) (State.timeLeft_runs u l e.seq (s.ftRead linkPs)) rfl
    ((State.timeLeft_runs ..).same .links rfl)).mod rfl (·.timeSent c (s.timeBody e.seq 0 (s.ftRead linkPs) 0 0))
  obtain ⟨raw, hraw, hpayload⟩ := Link.put_payload { s.inRound l with ctl := dropFirst (· == c) (s.inRound l).ctl }
    (flitHdr 4 0 false false false 244 0) (s.timeBody e.seq 0 (s.ftRead linkPs) 0 0)
  refine ⟨_, raw, (need_of hl _).trans (congrArg _ heq), State.exch_timeLeft (hft ▸ hexch) _, ?_, hpayload, hto'.others, hto'.frame⟩
  rw [hto'.link, ← hwire]
  exact hraw

theorem exec_flitTransmit_reply (hl : linkOk l = true) (hv : LinksOk s) (hloop : s.looped l = false) (h : s.timeNow l = some c)
    (hkind : bytesField (c.drop 1) 16 1 = 1) :
    ∃ (t : State) (raw : List Byte), exec (.flitTransmit l) s = .next t ∧ (t.link l).wire = (s.link l).wire ++ [raw] ∧
      flPayload raw = padTo 244 (s.timeBody (bytesField (c.drop 1) 0 16) 1 (bytesField (c.drop 1) 64 64)
        (bytesField (c.drop 1) 128 64) (s.ftRead linkPs)) ∧
      OtherLinks l s t ∧ Frame [.links] s t := by
  obtain ⟨body, hb⟩ : ∃ body, body = s.timeBody (bytesField (c.drop 1) 0 16) 1 (bytesField (c.drop 1) 64 64)
    (bytesField (c.drop 1) 128 64) (s.ftRead linkPs) := ⟨_, rfl⟩
  have hto := (State.linkTo_set hv l (s.inRound l)).mod rfl (·.timeSent c body)
  have hft : (s.setLink l (s.inRound l)).ft = s.ft := rfl
  have hbody := State.timeBody_congr hft rfl (bytesField (c.drop 1) 0 16) 1 (bytesField (c.drop 1) 64 64)
    (bytesField (c.drop 1) 128 64) (s.ftRead linkPs)
  have hread := State.ftRead_congr (s := s) (t := s.setLink l (s.inRound l)) rfl hft linkPs
  have heq := State.flitTransmit_time hloop h
  rw [State.timeSend_reply hkind, hread, hbody, ← hb] at heq
  obtain ⟨raw, hraw, hpayload⟩ := Link.put_payload { s.inRound l with ctl := dropFirst (· == c) (s.inRound l).ctl }
    (flitHdr 4 0 false false false 244 0) body
  rw [← hb]
  refine ⟨_, raw, (need_of hl _).trans (congrArg _ heq), ?_, hpayload, hto.others, hto.frame⟩
  rw [hto.link]
  exact hraw

end

/-! The parent (R177). -/

section
variable {s : State} {l : Nat}

/-- What a new parent leaves of the unit: its count, its neighbours and its exchanges. -/
theorem State.reparent_keeps (s : State) : s.reparent.ft.now = s.ft.now ∧ s.reparent.ft.nbr = s.ft.nbr ∧
    s.reparent.ft.exch = s.ft.exch := by
  unfold State.reparent
  repeat' split
  all_goals exact ⟨rfl, rfl, rfl⟩

theorem State.reparent_none (hroot : s.isTimeRoot = false) (hparent : s.ft.parent = none)
    (hno : s.rootLink = none ∨ ∃ k, s.rootLink = some k ∧ s.canParent k = false) : s.reparent = s := by
  rw [State.reparent, if_neg (by simp [hroot])]
  rcases hno with h | ⟨k, h, hk⟩
  · rw [h]
  · rw [h]
    dsimp only
    rw [if_neg (by simp [hk]), hparent]

theorem State.reparent_rootLink (hroot : s.isTimeRoot = false) (hlink : s.rootLink = some l) (hcan : s.canParent l = true) :
    s.reparent = if s.ft.parent = some l then s.setFt { s.ft with depth := min (s.nbrDepth l + 1) 63 } else s.takeParent l := by
  rw [State.reparent, if_neg (by simp [hroot]), hlink]
  exact if_pos hcan

theorem State.reselect_parent (h : s.reparent.ft.parent ≠ none) : s.reselect = s.reparent := if_pos (.inr h)

theorem State.reselect_best (hroot : s.isTimeRoot = false) (hparent : s.ft.parent = none) (hbest : s.bestParent = some l)
    (hno : s.rootLink = none ∨ ∃ k, s.rootLink = some k ∧ s.canParent k = false) : s.reselect = s.takeParent l := by
  rw [State.reselect, State.reparent_none hroot hparent hno]
  rw [if_neg (by simp [hroot, hparent]), hbest]

end

/-! A TIME flit arrives (R178 to R180). -/

section
variable {s : State} {l : Nat} {b : List Byte}

/-- The unit once it has noted what its neighbour reports. -/
def State.heardTime (s : State) (l : Nat) (b : List Byte) : State :=
  s.setFt { s.ft with nbr := tins s.ft.nbr l ⟨bytesField b 17 2, bytesField b 19 6, (tget? s.ft.nbr l).bind (·.offset)⟩ }

theorem State.heardTime_runs (s : State) (l : Nat) (b : List Byte) : Runs [.ft] s (s.heardTime l b) :=
  State.setFt_runs _ _ fun h => FabTime.wf_of (f := s.ft) h (keysFrom_tins_none _ _) (fun h => h)

/-- A link whose neighbour's flit has just reported STATE 10b can be its parent. -/
theorem State.canParent_heardTime {u : State} (hup : (u.link l).up = true) (hloop : u.looped l = false)
    (hstate : bytesField b 17 2 = 2) : (u.heardTime l b).canParent l = true := by
  have hlink : (u.heardTime l b).link l = u.link l := rfl
  have hlooped : (u.heardTime l b).looped l = u.looped l := rfl
  have hnbr : tget? (u.heardTime l b).ft.nbr l =
      some ⟨bytesField b 17 2, bytesField b 19 6, (tget? u.ft.nbr l).bind (·.offset)⟩ := tget?_tins_self ..
  rw [State.canParent, hlink, hlooped, hup, hloop, hnbr, hstate]
  rfl

theorem State.timeIn_request (hup : (s.link l).up = true) (hkind : bytesField b 16 1 = 0) : s.timeIn l b =
    (s.heardTime l b).reparent.modLink l (·.queue 4 ((s.heardTime l b).reparent.timeBody (bytesField b 0 16) 1 (bytesField b 64 64)
      ((s.heardTime l b).reparent.ftRead linkPs) 0)) := by
  rw [State.timeIn]
  exact (if_neg (by simp [hup])).trans (if_pos hkind)

/-- The unit at the end of an exchange whose offset is `o`. -/
def State.exchanged (s : State) (l : Nat) (b : List Byte) (o : Int) : State :=
  s.setFt { s.ft with
    exch := terase s.ft.exch l
    nbr := tins s.ft.nbr l ⟨bytesField b 17 2, bytesField b 19 6, some o⟩ }

theorem State.exchanged_runs (s : State) (l : Nat) (b : List Byte) (o : Int) : Runs [.ft] s (s.exchanged l b o) :=
  State.setFt_runs _ _ fun h => FabTime.wf_of (f := s.ft) h (keysFrom_tins_none _ _) (keysFrom_terase _)

/-- The offset that a reply gives to the exchange whose request left at `t1`. -/
def State.replyOffset (s : State) (l : Nat) (b : List Byte) (t1 : Nat) : Int :=
  timeOffset t1 (bytesField b 128 64) (bytesField b 192 64) (s.ftRead linkPs) (sext 32 (s.ov (ftAsymId + l)))

theorem State.timeIn_reply (hup : (s.link l).up = true) (hkind : bytesField b 16 1 = 1) {e : TimeExch} {t1 : Nat}
    (hexch : tget? s.ft.exch l = some e) (hseq : e.seq = bytesField b 0 16) (ht1 : e.t1 = some t1) : s.timeIn l b =
    if ((s.heardTime l b).reparent.exchanged l b (s.replyOffset l b t1)).ft.parent = some l then
      ((s.heardTime l b).reparent.exchanged l b (s.replyOffset l b t1)).steer (s.replyOffset l b t1)
    else (s.heardTime l b).reparent.exchanged l b (s.replyOffset l b t1) := by
  obtain ⟨hnow, -, hexch'⟩ := (s.heardTime l b).reparent_keeps
  have hruns := (s.heardTime l b).reparent_runs
  have hoff : (s.heardTime l b).reparent.replyOffset l b t1 = s.replyOffset l b t1 := by
    have hread : (s.heardTime l b).reparent.ftRead linkPs = s.ftRead linkPs := State.ftRead_of_now (hruns.same .clk rfl) hnow linkPs
    rw [State.replyOffset, State.replyOffset, hread, State.ov_congr (hruns.same .obj rfl)]
    rfl
  obtain ⟨seq, o⟩ := e
  subst ht1 hseq
  have hheard : tget? (s.heardTime l b).reparent.ft.exch l = some ⟨bytesField b 0 16, some t1⟩ := by
    rw [hexch']
    exact hexch
  rw [State.timeIn]
  refine (if_neg (by simp [hup])).trans ((if_neg (by omega)).trans ?_)
  change (match tget? (s.heardTime l b).reparent.ft.exch l with
    | some ⟨seq, some t1⟩ =>
      if seq = bytesField b 0 16 then
        if ((s.heardTime l b).reparent.exchanged l b ((s.heardTime l b).reparent.replyOffset l b t1)).ft.parent = some l then
          ((s.heardTime l b).reparent.exchanged l b ((s.heardTime l b).reparent.replyOffset l b t1)).steer
            ((s.heardTime l b).reparent.replyOffset l b t1)
        else (s.heardTime l b).reparent.exchanged l b ((s.heardTime l b).reparent.replyOffset l b t1)
      else (s.heardTime l b).reparent
    | _ => (s.heardTime l b).reparent) = _
  rw [hheard]
  dsimp only
  rw [if_pos rfl, hoff]

/-- What a completed exchange with the parent leaves of the unit: its parent, its neighbours and its exchanges. -/
theorem State.steer_keeps (s : State) (o : Int) : (s.steer o).ft.parent = s.ft.parent ∧ (s.steer o).ft.nbr = s.ft.nbr ∧
    (s.steer o).ft.exch = s.ft.exch ∧ (s.steer o).ft.offset = satOffset o := by
  unfold State.steer
  cases s.ft.st <;> dsimp only
  all_goals repeat' split
  all_goals exact ⟨rfl, rfl, rfl, rfl⟩

theorem State.steer_locks (hst : s.ft.st = .acquiring) (hmoved : s.ft.moved = true) (hlock : s.ft.inLock = 63) {o : Int}
    (hlow : -10000 ≤ o) (hhigh : o ≤ 10000) : (s.steer o).ft.st = .locked := by
  simp [State.steer, hst, hmoved, hlock, hlow, hhigh, State.setFt]

theorem State.steer_far (hst : s.ft.st = .acquiring) {o : Int} (hfar : ¬(-10000 ≤ o ∧ o ≤ 10000)) :
    (s.steer o).ft.st = .acquiring ∧ (s.steer o).ft.inLock = 0 := by
  have hnear : (decide (-10000 ≤ o) && decide (o ≤ 10000)) = false := by
    rw [← Bool.decide_and]
    exact decide_eq_false hfar
  simp only [State.steer, hst, hnear]
  split_ifs <;> simp_all [State.setFt]

end

/-! The commands. -/

section
variable {s : State} {l : Nat} {raw : List Byte}

/-- The unit with an exchange open on link `l`. -/
def State.exchangeOpen (s : State) (l : Nat) : State :=
  s.setFt { s.ft with
    exch := tins s.ft.exch l ⟨s.ft.nextSeq, none⟩
    nextSeq := (s.ft.nextSeq + 1) % 65536 }

theorem State.exchangeOpen_runs (s : State) (l : Nat) : Runs [.ft] s (s.exchangeOpen l) :=
  State.setFt_runs _ _ fun h => FabTime.wf_of (f := s.ft) h (fun h => h) (keysFrom_tins_none _ _)

/-- A link that asks for the time in place of any request that waits. -/
def Link.askingTime (x : Link) (body : List Byte) : Link := { x with ctl := x.ctl.filter (fun c => !isTimeRequest c) }.queue 4 body

theorem exec_timeExchangeStart_up (hl : linkOk l = true) (hv : LinksOk s) (hup : (s.link l).up = true) :
    ∃ t, exec (.timeExchangeStart l) s = .next t ∧ tget? t.ft.exch l = some ⟨s.ft.nextSeq, none⟩ ∧
      t.ft.nextSeq = (s.ft.nextSeq + 1) % 65536 ∧ t.ft.now = s.ft.now ∧
      (t.link l).ctl = (s.link l).ctl.filter (fun c => !isTimeRequest c) ++ [4 :: s.timeBody s.ft.nextSeq 0 0 0 0] ∧
      OtherLinks l s t ∧ Frame [.ft, .links] s t := by
  have heq : s.timeStart l = (s.exchangeOpen l).modLink l (·.askingTime (s.timeBody s.ft.nextSeq 0 0 0 0)) := if_pos hup
  have hto := (((State.LinkTo.refl hv l).mono (K := [.ft, .links]) rfl).beside (s.exchangeOpen_runs l) rfl rfl).mod rfl
    (·.askingTime (s.timeBody s.ft.nextSeq 0 0 0 0))
  refine ⟨_, (need_of hl _).trans (congrArg _ heq), tget?_tins_self .., rfl, rfl, ?_, hto.others, hto.frame⟩
  rw [hto.link]
  rfl

variable (hl : linkOk l = true) (hup : (s.link l).up = true) (hloop : s.looped l = false)
include hl hup hloop

/-- A good TIME flit reaches the time unit. -/
theorem exec_timeFlit_good (hgood : goodFlit 4 raw) : exec (.timeFlitReceive l raw) s =
    .next ((s.setLink l ((s.link l).header raw)).timeIn l (flPayload raw)) :=
  (need_of hl _).trans (congrArg _ (State.flitIn_good hloop (Link.hears_of_up hup) hgood))

variable (hv : LinksOk s)
include hv

theorem exec_timeFlit_request (hgood : goodFlit 4 raw) (hkind : bytesField (flPayload raw) 16 1 = 0) :
    ∃ t, exec (.timeFlitReceive l raw) s = .next t ∧ t.ft.now = s.ft.now ∧
      (t.link l).ctl = (s.link l).ctl ++ [4 :: t.timeBody (bytesField (flPayload raw) 0 16) 1 (bytesField (flPayload raw) 64 64)
        (s.ftRead linkPs) 0] ∧
      (∃ n, tget? t.ft.nbr l = some n ∧ n.state = bytesField (flPayload raw) 17 2 ∧ n.depth = bytesField (flPayload raw) 19 6) ∧
      OtherLinks l s t ∧ Frame [.ft, .links] s t := by
  have hto := State.linkTo_header (l := l) hv raw
  have hctl := (s.link l).header_ctl raw
  have hup' := ((s.link l).header_up raw).trans hup
  rw [exec_timeFlit_good hl hup hloop hgood]
  have hnow : (s.setLink l ((s.link l).header raw)).ft.now = s.ft.now := rfl
  have hclk : (s.setLink l ((s.link l).header raw)).clk = s.clk := rfl
  generalize flPayload raw = b at *
  generalize s.setLink l ((s.link l).header raw) = u at *
  generalize (s.link l).header raw = x at *
  rw [← hto.link] at hup'
  obtain ⟨hnow', hnbr, -⟩ := (u.heardTime l b).reparent_keeps
  have hnow' : (u.heardTime l b).reparent.ft.now = u.ft.now := hnow'
  have hheard : Runs [.ft] u (u.heardTime l b).reparent := (u.heardTime_runs l b).trans (State.reparent_runs _)
  have hread : (u.heardTime l b).reparent.ftRead linkPs = s.ftRead linkPs :=
    State.ftRead_of_now (hclk ▸ (hheard.same .clk rfl : (u.heardTime l b).reparent.clk = u.clk)) (hnow'.trans hnow) linkPs
  have hmet : tget? (u.heardTime l b).reparent.ft.nbr l =
      some ⟨bytesField b 17 2, bytesField b 19 6, (tget? u.ft.nbr l).bind (·.offset)⟩ := by
    rw [hnbr]
    exact tget?_tins_self ..
  rw [State.timeIn_request hup' hkind, hread]
  generalize (u.heardTime l b).reparent = v at *
  have hto' := ((hto.mono (K := [.ft, .links]) rfl).beside hheard rfl (hheard.same .links rfl)).mod rfl
    (·.queue 4 (v.timeBody (bytesField b 0 16) 1 (bytesField b 64 64) (s.ftRead linkPs) 0))
  refine ⟨_, rfl, hnow'.trans hnow, ?_, ⟨_, hmet, rfl, rfl⟩, hto'.others, hto'.frame⟩
  rw [hto'.link, ← hctl]
  rfl

theorem exec_timeFlit_reply (hw : s.wf = true) (hgood : goodFlit 4 raw) {b : List Byte} (hb : b = flPayload raw) {e : TimeExch} {t1 : Nat}
    (hkind : bytesField b 16 1 = 1) (hexch : tget? s.ft.exch l = some e) (hseq : e.seq = bytesField b 0 16) (ht1 : e.t1 = some t1) :
    ∃ t, exec (.timeFlitReceive l raw) s = .next t ∧ tget? t.ft.exch l = none ∧
      tget? t.ft.nbr l = some ⟨bytesField b 17 2, bytesField b 19 6, some (s.replyOffset l b t1)⟩ ∧
      (s.ft.parent = some l → s.rootLink = some l → s.isTimeRoot = false → bytesField b 17 2 = 2 →
        t.ft.parent = some l ∧ t.ft.offset = satOffset (s.replyOffset l b t1) ∧
        (s.ft.st = .acquiring → s.ft.moved = true → s.ft.inLock = 63 → -10000 ≤ s.replyOffset l b t1 →
          s.replyOffset l b t1 ≤ 10000 → t.ft.st = .locked) ∧
        (s.ft.st = .acquiring → ¬(-10000 ≤ s.replyOffset l b t1 ∧ s.replyOffset l b t1 ≤ 10000) →
          t.ft.st = .acquiring ∧ t.ft.inLock = 0)) ∧
      Frame [.ft, .links] s t := by
  have hto := State.linkTo_header (l := l) hv raw
  have hup' := ((s.link l).header_up raw).trans hup
  have hft : (s.setLink l ((s.link l).header raw)).ft = s.ft := rfl
  have hroot : (s.setLink l ((s.link l).header raw)).isTimeRoot = s.isTimeRoot ∧
      (s.setLink l ((s.link l).header raw)).rootLink = s.rootLink ∧ (s.setLink l ((s.link l).header raw)).looped l = s.looped l ∧
      (s.setLink l ((s.link l).header raw)).replyOffset l b t1 = s.replyOffset l b t1 := ⟨rfl, rfl, rfl, rfl⟩
  obtain ⟨hisRoot, hrootLink, hlooped, hoff⟩ := hroot
  rw [exec_timeFlit_good hl hup hloop hgood, ← hb]
  generalize s.setLink l ((s.link l).header raw) = u at *
  generalize (s.link l).header raw = x at *
  rw [← hto.link] at hup'
  rw [State.timeIn_reply hup' hkind (hft ▸ hexch) hseq ht1, hoff]
  generalize s.replyOffset l b t1 = o
  obtain ⟨-, -, hexch'⟩ := (u.heardTime l b).reparent_keeps
  have hruns : Runs [.ft, .links] s (u.heardTime l b).reparent :=
    hto.runs.mono rfl |>.trans (((u.heardTime_runs l b).trans (State.reparent_runs _)).mono rfl)
  have hkeys : keysFrom none (u.heardTime l b).reparent.ft.exch = true := by
    have hu : (u.heardTime l b).ft.exch = s.ft.exch := (rfl : _ = u.ft.exch).trans (congrArg FabTime.exch hft)
    rw [hexch', hu]
    exact State.keysFrom_exch hw
  have hparent : s.ft.parent = some l → s.rootLink = some l → s.isTimeRoot = false → bytesField b 17 2 = 2 →
      (u.heardTime l b).reparent.ft.parent = some l ∧ (u.heardTime l b).reparent.ft.st = s.ft.st ∧
        (u.heardTime l b).reparent.ft.moved = s.ft.moved ∧ (u.heardTime l b).reparent.ft.inLock = s.ft.inLock := by
    intro hp hr hnot hstate
    have hpu : (u.heardTime l b).ft.parent = some l := (congrArg FabTime.parent hft).trans hp
    have hroot' : (u.heardTime l b).isTimeRoot = false := hisRoot.trans hnot
    have hlink' : (u.heardTime l b).rootLink = some l := hrootLink.trans hr
    rw [State.reparent_rootLink hroot' hlink' (State.canParent_heardTime hup' (hlooped.trans hloop) hstate), if_pos hpu]
    have hst : u.ft.st = s.ft.st := congrArg FabTime.st hft
    have hmoved : u.ft.moved = s.ft.moved := congrArg FabTime.moved hft
    have hlock : u.ft.inLock = s.ft.inLock := congrArg FabTime.inLock hft
    exact ⟨hpu, hst, hmoved, hlock⟩
  generalize (u.heardTime l b).reparent = v at *
  have hw' : tget? (v.exchanged l b o).ft.exch l = none := tget?_terase_self hkeys l
  have hnbr : tget? (v.exchanged l b o).ft.nbr l = some ⟨bytesField b 17 2, bytesField b 19 6, some o⟩ := tget?_tins_self ..
  have hruns' : Runs [.ft, .links] s (v.exchanged l b o) := hruns.trans ((v.exchanged_runs l b o).mono rfl)
  have hsame : (v.exchanged l b o).ft.parent = v.ft.parent ∧ (v.exchanged l b o).ft.st = v.ft.st ∧
      (v.exchanged l b o).ft.moved = v.ft.moved ∧ (v.exchanged l b o).ft.inLock = v.ft.inLock := ⟨rfl, rfl, rfl, rfl⟩
  obtain ⟨hpar, hst, hmoved, hlock⟩ := hsame
  generalize v.exchanged l b o = w at *
  obtain ⟨hsp, hsn, hse, hso⟩ := w.steer_keeps o
  by_cases hpl : w.ft.parent = some l
  · rw [if_pos hpl]
    refine ⟨_, rfl, hse ▸ hw', hsn ▸ hnbr, fun hp hr hnot hstate => ?_, (hruns'.trans ((w.steer_runs o).mono rfl)).frame⟩
    obtain ⟨-, hvst, hvmoved, hvlock⟩ := hparent hp hr hnot hstate
    exact ⟨hsp.trans hpl, hso, fun h1 h2 h3 h4 h5 => State.steer_locks ((hst.trans hvst).trans h1) ((hmoved.trans hvmoved).trans h2)
      ((hlock.trans hvlock).trans h3) h4 h5, fun h1 h2 => State.steer_far ((hst.trans hvst).trans h1) h2⟩
  · rw [if_neg hpl]
    exact ⟨_, rfl, hw', hnbr, fun hp hr hnot hstate => (hpl (hpar.trans (hparent hp hr hnot hstate).1)).elim, hruns'.frame⟩

end

theorem State.holdover_enters {s : State} {a : Nat} (hparent : s.ft.parent = none) (hlost : s.ft.lostAt = some a)
    (hst : s.ft.st = .locked ∨ s.ft.st = .acquiring) (hlong : a + 1000000 ≤ s.ft.now) :
    s.holdover = { s with ft := { s.ft with st := .holdover, inLock := 0 } } := by
  rw [State.holdover]
  dsimp only
  rw [hlost]
  exact if_pos ⟨hparent, hst, hlong⟩

/-- Settles O40: fabric time follows its parent, locks, and holds over. -/
theorem fabricTimeFollowsItsParent : Obligations.FabricTimeFollowsItsParent := by
  intro s hw
  have hv : LinksOk s := State.twf_links hw
  refine ⟨fun l hlt hup => exec_timeExchangeStart_up (decide_eq_true hlt) hv hup, fun l c hlt hround hfind hloop => ?_,
    fun l raw hlt hup hloop hgood => ?_, fun l hnot hparent hbest hno => ?_, fun l hnot hparent hlink hcan => ?_,
    fun a hparent hlost hst hlong => ⟨_, congrArg Host.Outcome.next (State.holdover_enters hparent hlost hst hlong), rfl⟩⟩
  · have hnow := State.timeNow_of_find hround hfind
    exact ⟨fun e hkind hexch hseq => exec_flitTransmit_request (decide_eq_true hlt) hv hloop hnow hkind hexch hseq,
      fun hkind => exec_flitTransmit_reply (decide_eq_true hlt) hv hloop hnow hkind⟩
  · exact ⟨fun hkind => exec_timeFlit_request (decide_eq_true hlt) hup hloop hv hgood hkind,
      fun e t1 hkind hexch hseq ht1 => exec_timeFlit_reply (decide_eq_true hlt) hup hloop hv hw hgood rfl hkind hexch hseq ht1⟩
  · exact ⟨_, congrArg Host.Outcome.next (State.reselect_best hnot hparent hbest hno), rfl, rfl, rfl, rfl, (State.takeParent_runs ..).frame⟩
  · have heq : s.reparent = s.takeParent l := by
      rw [State.reparent_rootLink hnot hlink hcan, hparent]
      exact if_neg nofun
    have hsel : s.reselect = s.takeParent l := by
      rw [State.reselect_parent (by rw [heq]; exact nofun), heq]
    exact ⟨_, congrArg Host.Outcome.next hsel, rfl, rfl, (State.takeParent_runs ..).frame⟩

end Sys2Proof.Machine
end

