-- ==== Sys2Proof/Proofs/StepLatches.lean ====
section
/-!
PROOF. A step is failed: its latch, and its FAIL vote (R254, R390).
-/

namespace Sys2Proof.Machine

section
variable {s : State} {c : Nat} (hs : StepsOk s)
include hs

theorem State.stp_failVote (c r : Nat) : (∃ b, (s.failVote c r).stp c = { s.stp c with failSent := b }) ∧
    ∀ d, d ≠ c → (s.failVote c r).stp d = s.stp d := by
  rw [State.failVote]
  split
  · exact ⟨⟨(s.stp c).failSent, rfl⟩, fun _ _ => rfl⟩
  · obtain ⟨u, hu⟩ : ∃ u, u = s.send hubSelf 0 c (s.home c) (commitBody 0x60 1 c (s.stp c).step (s.stp c).attempt r 0) := ⟨_, rfl⟩
    have hsteps : u.steps = s.steps := hu ▸ rfl
    have hstp (d : Nat) : u.stp d = s.stp d := State.stp_congr hsteps d
    have hok : StepsOk u := by
      rw [StepsOk, hsteps]
      exact hs
    rw [← hu]
    refine ⟨⟨true, (State.stp_setStp hok ..).trans ((if_pos rfl).trans ?_)⟩, fun d hd => (State.stp_setStp hok ..).trans ((if_neg hd).trans (hstp d))⟩
    rw [hstp]

/-- What a failed step keeps beside its latch. -/
theorem State.stp_latch (hon : s.stepsOn c = true) (hrun : (s.stp c).st = .running) (r : Nat) :
    (∃ b, (s.latch c r).stp c = { s.stp c with
        latch := some ((s.stp c).latch.getD r)
        failSent := b }) ∧
      ∀ d, d ≠ c → (s.latch c r).stp d = s.stp d := by
  have heq : s.latch c r = (s.modStp c ({ · with latch := some ((s.stp c).latch.getD r) })).failVote c ((s.stp c).latch.getD r) := by
    rw [State.latch, if_pos hon]
    dsimp only
    rw [hrun]
  have hok : StepsOk (s.modStp c ({ · with latch := some ((s.stp c).latch.getD r) })) := twf_tset _ _ _ hs
  obtain ⟨⟨b, hb⟩, hothers⟩ := State.stp_failVote hok c ((s.stp c).latch.getD r)
  rw [heq]
  refine ⟨⟨b, hb.trans ?_⟩, fun d hd => (hothers d hd).trans ((State.stp_setStp hs ..).trans (if_neg hd))⟩
  rw [show (s.modStp c _).stp c = _ from (State.stp_setStp hs ..).trans (if_pos rfl)]

/-- An uncovered fault of one context fails its running step with reason 2 (R387). -/
theorem State.stp_uncovered_one (ho : ValsOk s) (hc : c < 16) (hon : s.stepsOn c = true) (hrun : (s.stp c).st = .running)
    (code unit : Nat) :
    (∃ b, (s.uncovered code unit [c]).stp c = { s.stp c with
        latch := some ((s.stp c).latch.getD 2)
        failSent := b }) ∧
      ∀ d, d ≠ c → (s.uncovered code unit [c]).stp d = s.stp d := by
  obtain ⟨u, hu⟩ : ∃ u, u = (s.faultRec (s.ftRead mgmtPs) code unit 0xFFFFFFFF).modOv faultStatusId
      (fun v => setBits (v ||| 2) 16 16 (satAdd 16 (bits v 16 16) 1)) := ⟨_, rfl⟩
  have heq : s.uncovered code unit [c] = u.latch c 2 := by rw [hu]; rfl
  have hobj : (s.faultRec (s.ftRead mgmtPs) code unit 0xFFFFFFFF).obj = s.obj := (State.faultRec_runs ..).same .obj rfl
  have hsteps : u.steps = s.steps := by
    rw [hu]
    exact ((State.faultRec_runs ..).same .steps rfl : (s.faultRec (s.ftRead mgmtPs) code unit 0xFFFFFFFF).steps = s.steps)
  have hstp (d : Nat) : u.stp d = s.stp d := State.stp_congr hsteps d
  have hok : StepsOk u := by
    rw [StepsOk, hsteps]
    exact hs
  have hon' : u.stepsOn c = true := by
    have hid : stepCfgId + c ≠ faultStatusId := by
      have h1 : stepCfgId = 0x600C0 := rfl
      have h2 : faultStatusId = 0xA0011 := rfl
      omega
    rw [State.stepsOn, hu, State.ov_modOv_of_obj ho hobj, if_neg hid]
    exact hon
  obtain ⟨hself, hothers⟩ := State.stp_latch hok hon' (by rw [hstp]; exact hrun) 2
  rw [heq]
  rw [hstp] at hself
  exact ⟨hself, fun d hd => (hothers d hd).trans (hstp d)⟩

end

end Sys2Proof.Machine
end

