-- ==== Sys2Proof/Proofs/PacketRouting.lean ====
section
/-!
PROOF. The hub router takes, routes and delivers packets (R18, R172, R188, R388).
-/

namespace Sys2Proof.Machine

/-! The hub-unit port: one flit of each unit in turn (R18). -/

theorem findSome?_of_forall {α β : Type} {f : α → Option β} {y : β} {xs : List α} (h : ∀ x ∈ xs, f x = none ∨ f x = some y)
    (hex : ∃ x ∈ xs, f x = some y) : xs.findSome? f = some y := by
  cases hf : xs.findSome? f with
  | none =>
    obtain ⟨x, hx, hy⟩ := hex
    exact nomatch ((List.findSome?_eq_none_iff.mp hf) x hx).symm.trans hy
  | some z =>
    obtain ⟨x, hx, hz⟩ := List.exists_of_findSome?_eq_some hf
    rcases h x hx with hn | hy
    · exact nomatch hn.symm.trans hz
    · exact hz.symm.trans hy

section
variable {r : Router} {u : Nat} {p : Packet} {ps : List Packet}

/-- Only unit `u` of the hub has traffic, packet `p` first. -/
def Router.onlyUnit (r : Router) (u : Nat) (p : Packet) (ps : List Packet) : Prop :=
  tget [] r.inj (hubGddr + u) = p :: ps ∧ ∀ v, v < 6 → v ≠ u → tget [] r.inj (hubGddr + v) = []

theorem Router.hubTurn_of_only (hu : u < 6) (h : r.onlyUnit u p ps) : r.hubTurn = some (u, p) := by
  obtain ⟨hhead, hothers⟩ := h
  refine findSome?_of_forall (fun v hv => ?_) ⟨u, ?_, by rw [hhead]; rfl⟩
  · obtain ⟨i, -, rfl⟩ := List.mem_map.mp hv
    by_cases hvu : (r.hubLast + 1 + i) % 6 = u
    · rw [hvu, hhead]
      exact .inr rfl
    · rw [hothers _ (Nat.mod_lt _ (by decide)) hvu]
      exact .inl rfl
  · exact List.mem_map.mpr ⟨(u + 6 * (r.hubLast + 1) - (r.hubLast + 1)) % 6, List.mem_range.mpr (Nat.mod_lt _ (by decide)), by omega⟩

/-- The unit's first packet has passed the port. -/
def Router.hubPassed (r : Router) (u : Nat) (sent : Tbl Nat) : Router :=
  { r with
    hubSent := sent
    hubLast := u
    inj := tset [] r.inj (hubGddr + u) ((tget [] r.inj (hubGddr + u)).drop 1) }

theorem Router.hubRun_last {n : Nat} (hturn : r.hubTurn = some (u, p)) (hlast : pktFlits p ≤ tget 0 r.hubSent u + 1) :
    r.hubRun (n + 1) = (r.hubPassed u (tset 0 r.hubSent u 0), some p) := by
  rw [Router.hubRun, hturn]
  exact if_pos hlast

theorem Router.hubRun_of_only (hu : u < 6) (n : Nat) (h : r.onlyUnit u p ps) (hn : pktFlits p ≤ tget 0 r.hubSent u + (n + 1)) :
    ∃ sent, r.hubRun (n + 1) = (r.hubPassed u sent, some p) := by
  induction n generalizing r with
  | zero => exact ⟨_, Router.hubRun_last (Router.hubTurn_of_only hu h) hn⟩
  | succ n ih =>
    by_cases hlast : pktFlits p ≤ tget 0 r.hubSent u + 1
    · exact ⟨_, Router.hubRun_last (Router.hubTurn_of_only hu h) hlast⟩
    · obtain ⟨sent, hsent⟩ := ih (r := { r with
          hubSent := tset 0 r.hubSent u (tget 0 r.hubSent u + 1)
          hubLast := u }) h (by
        dsimp only
        rw [tget_tset_self_of_ne 0 _ u (Nat.succ_ne_zero _)]
        omega)
      refine ⟨sent, Eq.trans ?_ hsent⟩
      rw [Router.hubRun, Router.hubTurn_of_only hu h]
      exact if_neg hlast

theorem pktFlits_pos (p : Packet) : 0 < pktFlits p := by
  rw [pktFlits, ceilDiv]
  omega

theorem Router.pktFlits_le_hubFlits (hu : u < 6) (h : tget [] r.inj (hubGddr + u) = p :: ps) : pktFlits p ≤ r.hubFlits := by
  refine List.le_sum_of_mem (List.mem_map.mpr ⟨u, List.mem_range.mpr hu, ?_⟩)
  rw [h]

/-- A packet whose turn it is, or which no other unit's traffic holds back, passes the hub-unit port. -/
theorem Router.hubRun_passes (hu : u < 6) (hhead : tget [] r.inj (hubGddr + u) = p :: ps)
    (h : (∀ v, v < 6 → v ≠ u → tget [] r.inj (hubGddr + v) = []) ∨
      (r.hubTurn = some (u, p) ∧ pktFlits p ≤ tget 0 r.hubSent u + 1)) :
    ∃ sent, r.hubRun r.hubFlits = (r.hubPassed u sent, some p) := by
  have hle := Router.pktFlits_le_hubFlits hu hhead
  obtain ⟨n, hn⟩ := Nat.exists_eq_succ_of_ne_zero (Nat.ne_of_gt (Nat.lt_of_lt_of_le (pktFlits_pos p) hle))
  rw [hn] at hle ⊢
  rcases h with honly | ⟨hturn, hlast⟩
  · exact Router.hubRun_of_only hu n ⟨hhead, honly⟩ (by omega)
  · exact ⟨_, Router.hubRun_last hturn hlast⟩

end

/-! The packet that a port takes. -/

/-- The router that has served an output port, and from whose input `key` the first packet has been taken. -/
structure Router.Took (s : State) (port key : Nat) (ps : List Packet) (r : Router) : Prop where
  inj : tget [] r.inj key = ps
  delivered : r.delivered = s.router.delivered ++ ((s.router.outNext port).map (·.pkt)).toList
  outq : r.outq = (s.outServe port).router.outq
  arrived : r.arrived = s.router.arrived

section
variable {s : State} {port : Nat}

/-- What serving an output port changes: its queue, and what has reached its unit. -/
theorem State.outServe_eq (s : State) (port : Nat) : ∃ r : Router, s.outServe port = s.setRouter r ∧
    r.delivered = s.router.delivered ++ ((s.router.outNext port).map (·.pkt)).toList ∧ r.inj = s.router.inj ∧
    r.hubSent = s.router.hubSent ∧ r.hubLast = s.router.hubLast ∧ r.arrived = s.router.arrived := by
  rw [State.outServe]
  cases s.router.outNext port with
  | none => exact ⟨s.router, rfl, (List.append_nil _).symm, rfl, rfl, rfl, rfl⟩
  | some p => exact ⟨_, rfl, rfl, rfl, rfl, rfl, rfl⟩

variable {key : Nat} {p : Packet} {ps : List Packet}

/-- The first packet of a port's input is routed once the port's output is served. -/
theorem State.packetRoute_takes (hw : s.wf = true) (hrails : s.power.rails = true)
    (hport : (port ≠ portHub ∧ key = port) ∨ (∃ u, u < 6 ∧ port = portHub ∧ key = hubGddr + u ∧
        ((∀ v, v < 6 → v ≠ u → tget [] s.router.inj (hubGddr + v) = []) ∨
          (s.router.hubTurn = some (u, p) ∧ pktFlits p ≤ tget 0 s.router.hubSent u + 1))))
    (hhead : tget [] s.router.inj key = p :: ps) :
    ∃ r, s.packetRoute port = (s.setRouter r).route port p ∧ Router.Took s port key ps r := by
  obtain ⟨r, hr, hdelivered, hinj, hsent, hlast, harrived⟩ := s.outServe_eq port
  have hkeys : keysFrom none r.inj = true := by
    rw [hinj]
    exact twf_keys (State.twf_inj hw)
  have houtq : r.outq = (s.outServe port).router.outq := by rw [hr]; rfl
  have heq : s.packetRoute port = (s.setRouter r).inRoute port := by
    rw [← hr]
    exact if_neg (by simp [hrails])
  rw [← hinj] at hhead
  rcases hport with ⟨hne, rfl⟩ | ⟨u, hu, rfl, rfl, hpass⟩
  · refine ⟨{ r with inj := tset [] r.inj key ps }, ?_, (tget_tset hkeys ..).trans (if_pos rfl), hdelivered, houtq, harrived⟩
    have hhead' : tget [] (s.setRouter r).router.inj key = p :: ps := hhead
    rw [heq, State.inRoute, if_neg hne, hhead']
    rfl
  · have hturn : r.hubTurn = s.router.hubTurn := by rw [Router.hubTurn, Router.hubTurn, hinj, hlast]
    rw [← hinj, ← hturn, ← hsent] at hpass
    obtain ⟨sent, hrun⟩ := Router.hubRun_passes hu hhead hpass
    have hrun' : (s.setRouter r).router.hubRun (s.setRouter r).router.hubFlits = (r.hubPassed u sent, some p) := hrun
    refine ⟨r.hubPassed u sent, ?_, (tget_tset hkeys ..).trans ((if_pos rfl).trans (by rw [hhead]; rfl)), hdelivered, houtq, harrived⟩
    rw [heq, State.inRoute, if_pos rfl]
    dsimp only
    rw [hrun']
    rfl

end

/-! Where the packet goes. -/

section
variable {s : State} {port : Nat} {p : Packet}

theorem State.route_bad (h : s.routeBad p = true) : s.route port p = s.bump routeErrCountId := if_pos h

theorem State.route_exit {l : Nat} (hbad : s.routeBad p = false) (htree : isTree p = false) (hexit : s.exitLink p = some l) :
    s.route port p = s.leave port l p := by
  rw [State.route, if_neg (by simp [hbad]), if_neg (by simp [htree]), hexit]

theorem State.route_here (hbad : s.routeBad p = false) (htree : isTree p = false) (hexit : s.exitLink p = none) :
    s.route port p = s.deliver p := by
  rw [State.route, if_neg (by simp [hbad]), if_neg (by simp [htree]), hexit]

theorem State.route_tree (hbad : s.routeBad p = false) (htree : isTree p = true) :
    s.route port p = (s.branches p).foldl (fun s l => s.leave port l p) (s.deliver p) := by
  rw [State.route, if_neg (by simp [hbad]), if_pos htree]

theorem State.deliver_chunk (h : s.isChunk p = true) :
    s.deliver p = s.setRouter { s.router with delivered := s.router.delivered ++ [p] } := if_pos h

/-- The router with a packet in its output queue. -/
def Router.queued (r : Router) (p : Packet) : Router :=
  { r with
    outq := tset [] r.outq (outPort p) (outEnqueue p (tget [] r.outq (outPort p)))
    arrived := if isUpdate p then r.arrived ++ [p] else r.arrived }

theorem State.deliver_queued (h : s.isChunk p = false) : s.deliver p = s.setRouter (s.router.queued p) := if_neg (by simp [h])

theorem outEnqueue_ne_nil (p : Packet) (q : List OutPkt) : outEnqueue p q ≠ [] := by
  cases q with
  | nil => exact List.cons_ne_nil _ _
  | cons o os =>
    rw [outEnqueue]
    split <;> exact List.cons_ne_nil _ _

theorem Router.outq_queued (r : Router) (p : Packet) :
    tget [] (r.queued p).outq (outPort p) = outEnqueue p (tget [] r.outq (outPort p)) :=
  tget_tset_self_of_ne [] r.outq (outPort p) (outEnqueue_ne_nil _ _)

theorem Router.arrived_queued (r : Router) (p : Packet) : (r.queued p).arrived = r.arrived ++ (if isUpdate p then [p] else []) := by
  rw [Router.queued]
  cases isUpdate p
  · exact (List.append_nil _).symm
  · rfl

/-- A link that a packet waits at. -/
def State.outgoing (s : State) (port l : Nat) (p : Packet) : Link :=
  { s.link l with out := outEnqueue (s.hop port l p) (s.link l).out }

theorem State.leave_up {l : Nat} (hup : (s.link l).up = true) : s.leave port l p = s.setLink l (s.outgoing port l p) := by
  obtain ⟨hdown, hmis⟩ := Link.hears_of_up hup
  have hst := Link.not_training_of_up hup
  rw [State.leave]
  exact (if_neg (by simp [hdown, hmis])).trans (if_neg (fun h => hst h.1))

theorem State.leave_down {l : Nat} (hdown : (s.link l).st = .down) : s.leave port l p = s.linkDrop l p := by
  rw [State.leave]
  exact if_pos (.inl hdown)

/-- A packet leaves by several links that carry traffic. -/
theorem State.foldl_leave_up {u : State} (hv : LinksOk u) (hobj : u.obj = s.obj) (ls : List Nat) (hnodup : ls.Nodup)
    (hlink : ∀ l ∈ ls, u.link l = s.link l ∧ (s.link l).up = true) :
    Runs [.links] u (ls.foldl (fun s l => s.leave port l p) u) ∧
      (∀ l ∈ ls, (ls.foldl (fun s l => s.leave port l p) u).link l = s.outgoing port l p) ∧
      (∀ l, l ∉ ls → (ls.foldl (fun s l => s.leave port l p) u).link l = u.link l) := by
  induction ls generalizing u with
  | nil => exact ⟨.refl u, fun l hl => (List.not_mem_nil hl).elim, fun _ _ => rfl⟩
  | cons k ls ih =>
    obtain ⟨hk, hnodup⟩ := List.nodup_cons.mp hnodup
    obtain ⟨hself, hup⟩ := hlink k List.mem_cons_self
    have hto := State.linkTo_set hv k (u.outgoing port k p)
    have hhop : u.hop port k p = s.hop port k p := by
      have hme : u.me = s.me := congrArg (· % 65536) (State.ov_congr hobj myCoordId)
      have hdim : u.dim (k / 2) = s.dim (k / 2) := by rw [State.dim, State.dim, State.ov_congr hobj]
      rw [State.hop, State.hop, hme, hdim]
    have hout : u.outgoing port k p = s.outgoing port k p := by rw [State.outgoing, State.outgoing, hself, hhop]
    obtain ⟨hruns, hin, hnot⟩ := ih (u := u.setLink k (u.outgoing port k p)) hto.ok hobj hnodup fun l hl => by
      have hlk : l ≠ k := fun h => hk (h ▸ hl)
      exact ⟨(hto.others l hlk).trans (hlink l (List.mem_cons_of_mem _ hl)).1, (hlink l (List.mem_cons_of_mem _ hl)).2⟩
    rw [List.foldl_cons, State.leave_up (hself ▸ hup)]
    refine ⟨hto.runs.trans hruns, fun l hl => ?_, fun l hl => ?_⟩
    · rcases List.mem_cons.mp hl with rfl | hl
      · exact (hnot l hk).trans (hto.link.trans hout)
      · exact hin l hl
    · obtain ⟨hlk, hl⟩ := not_or.mp (fun h => hl (List.mem_cons.mpr h))
      exact (hnot l hl).trans (hto.others l hlk)

theorem sublist_ite {α : Type} {c : Prop} [Decidable c] {xs ys : List α} (h : xs.Sublist ys) : (if c then xs else []).Sublist ys := by
  split
  · exact h
  · exact List.nil_sublist ys

/-- The links of a block's tree are different ones. -/
theorem State.nodup_treeLinks (s : State) (ctx src : Nat) : (s.treeLinks ctx src).Nodup := by
  have hsub : (s.treeLinks ctx src).Sublist (([0] ++ [1]) ++ ([2] ++ [3]) ++ ([4] ++ [5])) := by
    rw [State.treeLinks]
    exact (List.Sublist.append
      (List.Sublist.append (sublist_ite (List.Sublist.append (sublist_ite (.refl _)) (sublist_ite (.refl _))))
        (sublist_ite (List.Sublist.append (sublist_ite (.refl _)) (sublist_ite (.refl _)))))
      (List.Sublist.append (sublist_ite (.refl _)) (sublist_ite (.refl _))))
  exact hsub.nodup (by decide)

theorem State.nodup_branches (s : State) (p : Packet) : (s.branches p).Nodup := by
  rw [State.branches]
  split
  · exact List.nodup_nil
  · split
    · exact (s.nodup_treeLinks _ _).filter _
    · exact s.nodup_treeLinks _ _

theorem isChunk_of_isTree (h : isTree p = true) : s.isChunk p = false := by
  have hvc : p.vc ≤ 4 := by
    simp only [isTree, Bool.or_eq_true, Bool.and_eq_true, beq_iff_eq] at h
    omega
  simp [State.isChunk, Nat.not_le.mpr (Nat.lt_succ_of_le hvc)]

end

/-! What has reached a unit stays there until it is handled (log 11). -/

section
variable {s : State} {q : Packet}

theorem State.delivered_notice388 (s : State) (code : Nat) (p : Packet) : (s.notice388 code p).router.delivered = s.router.delivered := by
  rw [State.notice388]
  dsimp only
  split <;> rfl

theorem State.mem_delivered_leave (h : q ∈ s.router.delivered) (port l : Nat) (p : Packet) :
    q ∈ (s.leave port l p).router.delivered := by
  rw [State.leave]
  dsimp only
  split
  · rw [State.linkDrop, State.delivered_notice388]
    exact h
  · split
    · rw [State.delivered_notice388]
      exact h
    · exact h

theorem State.mem_delivered_deliver (h : q ∈ s.router.delivered) (p : Packet) : q ∈ (s.deliver p).router.delivered := by
  rw [State.deliver]
  split
  · exact List.mem_append_left _ h
  · exact h

theorem State.mem_delivered_route (h : q ∈ s.router.delivered) (port : Nat) (p : Packet) :
    q ∈ (s.route port p).router.delivered := by
  rw [State.route]
  split
  · exact h
  · split
    · exact List.foldlRecOn (motive := fun t : State => q ∈ t.router.delivered) _ _ (State.mem_delivered_deliver h p)
        fun t ht l _ => State.mem_delivered_leave ht port l p
    · split
      · exact State.mem_delivered_leave h ..
      · exact State.mem_delivered_deliver h p

theorem Router.delivered_hubRun (n : Nat) (r : Router) : (r.hubRun n).1.delivered = r.delivered := by
  induction n generalizing r with
  | zero => rfl
  | succ n ih =>
    rw [Router.hubRun]
    split
    · rfl
    · dsimp only
      split
      · rfl
      · exact ih _

theorem State.mem_delivered_inRoute (h : q ∈ s.router.delivered) (port : Nat) : q ∈ (s.inRoute port).router.delivered := by
  rw [State.inRoute]
  split
  · dsimp only
    split
    · exact State.mem_delivered_route (by rw [State.setRouter, Router.delivered_hubRun]; exact h) port _
    · exact h
  · split
    · refine State.mem_delivered_route ?_ port _
      exact h
    · split
      · split
        · refine State.mem_delivered_route ?_ port _
          exact h
        · exact h
      · exact h

end

/-! The next packet of an output port: VC0 first (R159). -/

theorem Router.vc_of_outNext {r : Router} {o : Nat} {p : OutPkt} (h : r.outNext o = some p) :
    p.pkt.vc = 0 ∨ ∀ q ∈ tget [] r.outq o, q.pkt.vc ≠ 0 := by
  rw [Router.outNext] at h
  rw [List.findSome?_cons] at h
  cases hz : (tget [] r.outq o).find? (fun p => p.pkt.vc == 0) with
  | some q =>
    rw [hz] at h
    rw [← Option.some.inj h]
    exact .inl (beq_iff_eq.mp (List.find?_some (p := fun p : OutPkt => p.pkt.vc == 0) hz))
  | none =>
    exact .inr fun q hq => by simpa using List.find?_eq_none.mp hz q hq

theorem State.mem_delivered_outServe {s : State} {o : Nat} {p : OutPkt} (h : s.router.outNext o = some p) :
    p.pkt ∈ (s.outServe o).router.delivered := by
  rw [State.outServe, h]
  exact List.mem_append_right _ (List.mem_singleton.mpr rfl)

/-! The commands. -/

theorem State.frame_setRouter (s : State) (r : Router) : Frame [.router] s (s.setRouter r) := by
  refine ⟨fun p hp => ?_, rfl⟩
  cases p
  case router => exact absurd hp (by decide)
  all_goals rfl

theorem Frame.trans {L : List Part} {s t u : State} (h : Frame L s t) (k : Frame L t u) : Frame L s u :=
  ⟨fun p hp => (h.1 p hp).trans (k.1 p hp), k.2.trans h.2⟩

section
variable {s : State} {port key : Nat} {p : Packet} {ps : List Packet} {r : Router}
variable (hw : s.wf = true) (hport : portOk port = true) (heq : s.packetRoute port = (s.setRouter r).route port p)
  (htook : Router.Took s port key ps r)
include hport heq htook

theorem exec_packetRoute_here (hbad : s.routeBad p = false) (htree : isTree p = false) (hexit : s.exitLink p = none) :
    ∃ t, exec (.packetRoute port) s = .next t ∧ tget [] t.router.inj key = ps ∧
      (s.isChunk p = true → t.router.delivered =
        s.router.delivered ++ ((s.router.outNext port).map (·.pkt)).toList ++ [p]) ∧
      (s.isChunk p = false → t.router.delivered = s.router.delivered ++ ((s.router.outNext port).map (·.pkt)).toList ∧
        tget [] t.router.outq (outPort p) = outEnqueue p (tget [] (s.outServe port).router.outq (outPort p)) ∧
        t.router.arrived = s.router.arrived ++ (if isUpdate p then [p] else [])) ∧ Frame [.router] s t := by
  have hhere := (State.route_here (s := s.setRouter r) (port := port) hbad htree hexit)
  have hexec : exec (.packetRoute port) s = .next ((s.setRouter r).deliver p) :=
    (need_of hport _).trans (congrArg _ (heq.trans hhere))
  refine ⟨_, hexec, ?_⟩
  cases hchunk : s.isChunk p with
  | true =>
    rw [State.deliver_chunk (s := s.setRouter r) hchunk]
    refine ⟨htook.inj, fun _ => congrArg (· ++ [p]) htook.delivered, fun h => Bool.noConfusion h, State.frame_setRouter ..⟩
  | false =>
    rw [State.deliver_queued (s := s.setRouter r) hchunk]
    refine ⟨htook.inj, fun h => Bool.noConfusion h, fun _ => ⟨htook.delivered, ?_, ?_⟩, State.frame_setRouter ..⟩
    · rw [← htook.outq]
      exact r.outq_queued p
    · rw [← htook.arrived]
      exact r.arrived_queued p

include hw

theorem exec_packetRoute_bad (hbad : s.routeBad p = true) :
    ∃ t, exec (.packetRoute port) s = .next t ∧ tget [] t.router.inj key = ps ∧
      t.router.delivered = s.router.delivered ++ ((s.router.outNext port).map (·.pkt)).toList ∧
      t.ov routeErrCountId = min (s.ov routeErrCountId + 1) (2 ^ 32 - 1) ∧ Frame [.router, .obj] s t := by
  have hexec : exec (.packetRoute port) s = .next ((s.setRouter r).bump routeErrCountId) :=
    (need_of hport _).trans (congrArg _ (heq.trans (State.route_bad (s := s.setRouter r) hbad)))
  refine ⟨_, hexec, htook.inj, htook.delivered, ?_, ((s.frame_setRouter r).mono rfl).trans ((State.bump_runs ..).frame.mono rfl)⟩
  rw [State.ov_bump (s := s.setRouter r) (State.keysFrom_vals (s := s) hw), if_pos rfl, satAdd, Nat.add_comm]
  rfl

theorem exec_packetRoute_leaves {l : Nat} (hbad : s.routeBad p = false) (htree : isTree p = false) (hexit : s.exitLink p = some l)
    (hup : (s.link l).up = true) :
    ∃ t, exec (.packetRoute port) s = .next t ∧ tget [] t.router.inj key = ps ∧
      t.link l = { s.link l with out := outEnqueue (s.hop port l p) (s.link l).out } ∧ OtherLinks l s t ∧
      t.router.delivered = s.router.delivered ++ ((s.router.outNext port).map (·.pkt)).toList ∧ Frame [.router, .links] s t := by
  have hleave := (State.route_exit (s := s.setRouter r) (port := port) hbad htree hexit).trans (State.leave_up (s := s.setRouter r) hup)
  have hexec : exec (.packetRoute port) s = .next ((s.setRouter r).setLink l ((s.setRouter r).outgoing port l p)) :=
    (need_of hport _).trans (congrArg _ (heq.trans hleave))
  have hto := State.linkTo_set (s := s.setRouter r) (State.twf_links (s := s) hw) l ((s.setRouter r).outgoing port l p)
  exact ⟨_, hexec, htook.inj, hto.link, hto.others, htook.delivered, ((s.frame_setRouter r).mono rfl).trans (hto.frame.mono rfl)⟩

theorem exec_packetRoute_drops {l : Nat} (hbad : s.routeBad p = false) (htree : isTree p = false) (hexit : s.exitLink p = some l)
    (hdown : (s.link l).st = .down) :
    ∃ t, exec (.packetRoute port) s = .next t ∧ t.links = s.links ∧
      t.router.delivered = s.router.delivered ++ ((s.router.outNext port).map (·.pkt)).toList ∧
      t.ov (linkDropCountId + l) = min (s.ov (linkDropCountId + l) + 1) (2 ^ 32 - 1) ∧ Frame [.router, .obj, .flash] s t := by
  have hleave := (State.route_exit (s := s.setRouter r) (port := port) hbad htree hexit).trans
    (State.leave_down (s := s.setRouter r) hdown)
  have hexec : exec (.packetRoute port) s = .next ((s.setRouter r).linkDrop l p) :=
    (need_of hport _).trans (congrArg _ (heq.trans hleave))
  have hruns := (s.setRouter r).linkDrop_runs l p
  have hov : ((s.setRouter r).linkDrop l p).ov (linkDropCountId + l) = ((s.setRouter r).bump (linkDropCountId + l)).ov (linkDropCountId + l) :=
    State.ov_congr ((State.notice388_runs ..).same .obj rfl) _
  refine ⟨_, hexec, hruns.same .links rfl, (State.delivered_notice388 ..).trans htook.delivered, ?_,
    ((s.frame_setRouter r).mono rfl).trans hruns.frame⟩
  rw [hov, State.ov_bump (s := s.setRouter r) (State.keysFrom_vals (s := s) hw), if_pos rfl, satAdd, Nat.add_comm]
  rfl

theorem exec_packetRoute_tree (hbad : s.routeBad p = false) (htree : isTree p = true) (hup : ∀ l ∈ s.branches p, (s.link l).up = true) :
    ∃ t, exec (.packetRoute port) s = .next t ∧ tget [] t.router.inj key = ps ∧
      tget [] t.router.outq (outPort p) = outEnqueue p (tget [] (s.outServe port).router.outq (outPort p)) ∧
      (∀ l ∈ s.branches p, t.link l = { s.link l with out := outEnqueue (s.hop port l p) (s.link l).out }) ∧
      (∀ l, l ∉ s.branches p → t.link l = s.link l) ∧ Frame [.router, .links] s t := by
  have hbranches : (s.setRouter r).branches p = s.branches p := rfl
  have hroute : (s.setRouter r).route port p =
      (s.branches p).foldl (fun s l => s.leave port l p) (s.setRouter (r.queued p)) := by
    rw [State.route_tree (s := s.setRouter r) hbad htree, hbranches,
      State.deliver_queued (s := s.setRouter r) (isChunk_of_isTree (s := s.setRouter r) htree)]
    rfl
  obtain ⟨hruns, hin, hnot⟩ := State.foldl_leave_up (s := s) (port := port) (p := p) (u := s.setRouter (r.queued p))
    (State.twf_links (s := s) hw) rfl (s.branches p) (s.nodup_branches p) fun l hl => ⟨rfl, hup l hl⟩
  have hexec : exec (.packetRoute port) s =
      .next ((s.branches p).foldl (fun s l => s.leave port l p) (s.setRouter (r.queued p))) :=
    (need_of hport _).trans (congrArg _ (heq.trans hroute))
  have hrouter : ((s.branches p).foldl (fun s l => s.leave port l p) (s.setRouter (r.queued p))).router = r.queued p :=
    hruns.same .router rfl
  refine ⟨_, hexec, ?_, ?_, hin, hnot, ((s.frame_setRouter _).mono rfl).trans (hruns.frame.mono rfl)⟩
  · rw [hrouter]
    exact htook.inj
  · rw [hrouter, ← htook.outq]
    exact r.outq_queued p

end

section
variable {s : State} {port : Nat}

theorem State.packetRoute_off (h : s.power.rails = false) : s.packetRoute port = s := if_pos h

theorem State.packetRoute_on (h : s.power.rails = true) : s.packetRoute port = (s.outServe port).inRoute port :=
  if_neg (by simp [h])

/-- A link's port with no packet of the module's own waiting there reads its receive buffer. -/
theorem State.packetRoute_link {l : Nat} (hl : l < 6) (hrails : s.power.rails = true) (hinj : tget [] s.router.inj l = []) :
    s.packetRoute l = match s.readable l with
      | some fs => ((s.outServe l).modLink l (·.readOut fs)).route l (packetFrom fs)
      | none => s.outServe l := by
  obtain ⟨r, hr, -, hrinj, -⟩ := s.outServe_eq l
  have hne : l ≠ portHub := Nat.ne_of_lt (Nat.lt_trans hl (by decide))
  have hinj' : tget [] (s.setRouter r).router.inj l = [] := hrinj ▸ hinj
  have hread : (s.setRouter r).readable l = s.readable l := rfl
  rw [State.packetRoute_on hrails, hr, State.inRoute, if_neg hne, hinj']
  dsimp only
  rw [if_pos hl, hread] <;> cases s.readable l <;> rfl

theorem exec_packetRoute_reads (hw : s.wf = true) {l : Nat} (hl : l < 6) (hport : portOk l = true) (hrails : s.power.rails = true)
    (hinj : tget [] s.router.inj l = []) {fs : List BufFlit} (hread : s.readable l = some fs)
    (hbad : s.routeBad (packetFrom fs) = false) (htree : isTree (packetFrom fs) = false)
    (hexit : s.exitLink (packetFrom fs) = none) (hchunk : s.isChunk (packetFrom fs) = false) :
    ∃ t, exec (.packetRoute l) s = .next t ∧
      tget [] t.router.outq (outPort (packetFrom fs)) =
        outEnqueue (packetFrom fs) (tget [] (s.outServe l).router.outq (outPort (packetFrom fs))) ∧
      (t.link l).rx = dropFlits (s.link l).rx fs ∧ OtherLinks l s t ∧ Frame [.router, .links] s t := by
  have heq := State.packetRoute_link hl hrails hinj
  rw [hread] at heq
  dsimp only at heq
  obtain ⟨r, hr, -⟩ := s.outServe_eq l
  rw [hr] at heq ⊢
  generalize packetFrom fs = p at *
  have hto := (State.LinkTo.refl (s := s.setRouter r) (State.twf_links (s := s) hw) l).mono (K := [.links]) rfl |>.mod rfl (·.readOut fs)
  have hroute : ((s.setRouter r).modLink l (·.readOut fs)).route l p =
      ((s.setRouter r).modLink l (·.readOut fs)).setRouter (r.queued p) :=
    (State.route_here (s := (s.setRouter r).modLink l (·.readOut fs)) hbad htree hexit).trans
      (State.deliver_queued (s := (s.setRouter r).modLink l (·.readOut fs)) hchunk)
  refine ⟨_, (need_of hport _).trans (congrArg _ (heq.trans hroute)), r.outq_queued p, congrArg Link.rx hto.link, hto.others,
    ((s.frame_setRouter r).mono rfl).trans ((hto.frame.mono rfl).trans ((State.frame_setRouter ..).mono rfl))⟩

/-- FAULT_NOTICE (R387, R388). -/
theorem exec_faultNotice_latches {p : Packet} (hw : s.wf = true) (hp : p.wf = true) (hrails : s.power.rails = true)
    (hon : s.stepsOn (p.field 16 4) = true) (hrun : (s.stp (p.field 16 4)).st = .running) :
    ∃ t, exec (.faultNotice p) s = .next t ∧
      (t.stp (p.field 16 4)).latch = some ((s.stp (p.field 16 4)).latch.getD 2) ∧
      (t.stp (p.field 16 4)).st = .running ∧ bit (t.ov faultStatusId) 1 = true ∧
      (∀ c, c ≠ p.field 16 4 → t.stp c = s.stp c) ∧ Frame [.router, .steps, .obj, .flash] s t := by
  have hc : p.field 16 4 < 16 := bits_lt ..
  have hvals : ValsOk (s.taken p) := (State.keysFrom_vals hw : ValsOk s)
  obtain ⟨⟨b, hself⟩, hothers⟩ := State.stp_uncovered_one (s := s.taken p) (State.twf_steps hw) hvals hc hon hrun 0x18 0
  have hexec : exec (.faultNotice p) s = .next ((s.taken p).uncovered 0x18 0 [p.field 16 4]) :=
    (need_of hp _).trans (powered_of hrails _)
  refine ⟨_, hexec, ?_⟩
  generalize p.field 16 4 = c at *
  have hstp (d : Nat) : (s.taken p).stp d = s.stp d := rfl
  have hframe : Frame [.router, .steps, .obj, .flash] s ((s.taken p).uncovered 0x18 0 [c]) :=
    (((s.taken_runs p).mono rfl).trans (State.uncovered_runs ..)).frame
  rw [hself, hstp]
  exact ⟨rfl, hrun, State.faultSeen_uncovered hvals .., hothers, hframe⟩

end

/-- Settles O39: the router delivers a packet, forwards it in dimension order, or discards it. -/
theorem packetsAreRouted : Obligations.PacketsAreRouted := by
  intro s hw
  refine ⟨fun port hlt hoff => (need_of (decide_eq_true hlt) _).trans (congrArg _ (State.packetRoute_off hoff)),
    fun port key p ps hlt hrails hport hhead => ?_, fun port hlt hrails p hnext => ?_,
    fun l fs hlt hrails hinj hread hbad htree hexit hchunk => ?_, fun l hlt hinj hread => ?_,
    fun p hp hrails hon hrun => exec_faultNotice_latches hw hp hrails hon hrun⟩
  · obtain ⟨r, heq, htook⟩ := State.packetRoute_takes hw hrails hport hhead
    have hok : portOk port = true := decide_eq_true hlt
    exact ⟨fun hbad => exec_packetRoute_bad hw hok heq htook hbad,
      fun hbad htree hexit => exec_packetRoute_here hok heq htook hbad htree hexit,
      fun l hbad htree hexit hup => exec_packetRoute_leaves hw hok heq htook hbad htree hexit hup,
      fun l hbad htree hexit hdown => exec_packetRoute_drops hw hok heq htook hbad htree hexit hdown,
      fun hbad htree hup => exec_packetRoute_tree hw hok heq htook hbad htree hup⟩
  · refine ⟨_, need_of (decide_eq_true hlt) _, ?_, Router.vc_of_outNext hnext⟩
    rw [State.packetRoute_on hrails]
    exact State.mem_delivered_inRoute (State.mem_delivered_outServe hnext) port
  · exact exec_packetRoute_reads hw hlt (decide_eq_true (Nat.lt_trans hlt (by decide))) hrails hinj hread hbad htree hexit hchunk
  · have hport : portOk l = true := decide_eq_true (Nat.lt_trans hlt (by decide))
    cases hrails : s.power.rails with
    | false =>
      exact ⟨s, (need_of hport _).trans (congrArg _ (State.packetRoute_off hrails)), rfl, (Runs.refl s).frame⟩
    | true =>
      have heq := State.packetRoute_link hlt hrails hinj
      rw [hread] at heq
      exact ⟨_, (need_of hport _).trans (congrArg _ heq), (State.outServe_runs ..).same .links rfl, (State.outServe_runs ..).frame⟩

end Sys2Proof.Machine
end

