-- ==== Sys2Proof/Proofs/BodyFields.lean ====
section
/-!
PROOF. A field of a packet's body reads what the body was formed with (R158, R217).
-/

namespace Sys2Proof.Machine

theorem testBit_bits (v lo w i : Nat) : (bits v lo w).testBit i = (decide (i < w) && v.testBit (lo + i)) := by
  rw [bits, Nat.testBit_mod_two_pow, Nat.testBit_div_two_pow, Nat.add_comm i lo]

/-- A field that another one does not touch. -/
def apartFrom (lo w : Nat) (f : Nat × Nat × Nat) : Bool := decide (lo + w ≤ f.1) || decide (f.1 + f.2.1 ≤ lo)

theorem bits_setBits_of_apart (v x : Nat) {lo w lo' w' : Nat} (h : lo' + w' ≤ lo ∨ lo + w ≤ lo') :
    bits (setBits v lo w x) lo' w' = bits v lo' w' := by
  refine Nat.eq_of_testBit_eq fun i => ?_
  rw [testBit_bits, testBit_bits]
  by_cases hi : i < w'
  · rw [← bit_eq_testBit, ← bit_eq_testBit, bit_setBits_of_outside v x (by omega)]
  · rw [decide_eq_false hi, Bool.false_and, Bool.false_and]

theorem bits_foldl_setBits_of_apart {lo w : Nat} {fs : List (Nat × Nat × Nat)} (h : fs.all (apartFrom lo w) = true) (v : Nat) :
    bits (fs.foldl (fun v f => setBits v f.1 f.2.1 f.2.2) v) lo w = bits v lo w := by
  induction fs generalizing v with
  | nil => rfl
  | cons f fs ih =>
    obtain ⟨hf, hfs⟩ := Bool.and_eq_true_iff.mp h
    refine (ih hfs _).trans (bits_setBits_of_apart _ _ ?_)
    simpa [apartFrom] using hf

theorem bytesField_toLE (v : Nat) {n lo w : Nat} (h : lo + w ≤ 8 * n) : bytesField (toLE n v) lo w = bits v lo w := by
  rw [bytesField_eq, leNat_toLE]
  refine Nat.eq_of_testBit_eq fun i => ?_
  rw [testBit_bits, Nat.testBit_mod_two_pow, Nat.testBit_div_two_pow, Nat.testBit_mod_two_pow, Nat.add_comm i lo]
  by_cases hi : i < w
  · rw [decide_eq_true hi, decide_eq_true (by omega : lo + i < 8 * n), Bool.true_and, Bool.true_and]
  · rw [decide_eq_false hi, Bool.false_and, Bool.false_and]

/-- The field of a body that no later field overwrites. -/
theorem bytesField_mkBody (pre post : List (Nat × Nat × Nat)) (x : Nat) {n lo w : Nat} (hpost : post.all (apartFrom lo w) = true)
    (hn : lo + w ≤ 8 * n) : bytesField (mkBody n (pre ++ (lo, w, x) :: post)) lo w = x % 2 ^ w := by
  rw [mkBody, bytesField_toLE _ hn, List.foldl_append, List.foldl_cons, bits_foldl_setBits_of_apart hpost, bits_setBits_self]

/-! The messages of the vote and of the decision (R255, R256). -/

section
variable (fop kind ctx step attempt reason count : Nat)

theorem commitBody_fop : bytesField (commitBody fop kind ctx step attempt reason count) 0 8 = fop % 2 ^ 8 :=
  bytesField_mkBody [] _ fop rfl (by decide)

theorem commitBody_kind : bytesField (commitBody fop kind ctx step attempt reason count) 8 2 = kind % 2 ^ 2 :=
  bytesField_mkBody [(0, 8, fop)] _ kind rfl (by decide)

theorem commitBody_ctx : bytesField (commitBody fop kind ctx step attempt reason count) 12 4 = ctx % 2 ^ 4 :=
  bytesField_mkBody [(0, 8, fop), (8, 2, kind)] _ ctx rfl (by decide)

theorem commitBody_step : bytesField (commitBody fop kind ctx step attempt reason count) 16 32 = step % 2 ^ 32 :=
  bytesField_mkBody [(0, 8, fop), (8, 2, kind), (12, 4, ctx)] _ step rfl (by decide)

theorem commitBody_attempt : bytesField (commitBody fop kind ctx step attempt reason count) 48 8 = attempt % 2 ^ 8 :=
  bytesField_mkBody [(0, 8, fop), (8, 2, kind), (12, 4, ctx), (16, 32, step)] _ attempt rfl (by decide)

theorem commitBody_reason : bytesField (commitBody fop kind ctx step attempt reason count) 56 8 = reason % 2 ^ 8 :=
  bytesField_mkBody [(0, 8, fop), (8, 2, kind), (12, 4, ctx), (16, 32, step), (48, 8, attempt)] _ reason rfl (by decide)

end

/-! Packets sent (R172). -/

theorem State.mem_inject (s : State) (port : Nat) (p : Packet) : p ∈ tget [] (s.inject port p).router.inj port := by
  have hself : tget [] (s.inject port p).router.inj port = tget [] s.router.inj port ++ [p] :=
    tget_tset_self_of_ne [] _ _ (List.append_ne_nil_of_right_ne_nil _ (List.cons_ne_nil _ _))
  rw [hself]
  exact List.mem_append_right _ (List.mem_singleton.mpr rfl)

theorem State.sent_inject (s : State) (port : Nat) (p : Packet) : (s.inject port p).Sent p.vc p.dest (p.field 0 8) :=
  ⟨p, .inl ⟨port, s.mem_inject port p⟩, rfl, rfl, rfl⟩

end Sys2Proof.Machine
end

