-- ==== Sys2Proof/Proofs/Votes.lean ====
section
/-!
PROOF. A step votes, and the home decides (R254 to R257).
-/

namespace Sys2Proof.Machine

/-! A step's record is written, the other steps' stand. -/

/-- From `s` to `t` the step of context `c` has become `x`, the other steps are as they were, and nothing beyond the parts `L` has
changed. -/
structure State.StepTo (L : List Part) (s t : State) (c : Nat) (x : StepCtx) : Prop where
  stp : t.stp c = x
  others : ∀ d, d ≠ c → t.stp d = s.stp d
  ok : StepsOk t
  runs : Runs L s t

section
variable {L K : List Part} {s t u : State} {c : Nat} {x : StepCtx}

theorem State.StepTo.refl (h : StepsOk s) (c : Nat) : State.StepTo [] s s c (s.stp c) where
  stp := rfl
  others _ _ := rfl
  ok := h
  runs := .refl s

theorem State.StepTo.mono (h : State.StepTo L s t c x) (hL : within L K = true) : State.StepTo K s t c x where
  stp := h.stp
  others := h.others
  ok := h.ok
  runs := h.runs.mono hL

theorem State.StepTo.set (h : State.StepTo L s t c x) (hL : within [.steps] L = true) (y : StepCtx) :
    State.StepTo L s (t.setStp c y) c y where
  stp := (State.stp_setStp h.ok ..).trans (if_pos rfl)
  others d hd := ((State.stp_setStp h.ok ..).trans (if_neg hd)).trans (h.others d hd)
  ok := twf_tset _ _ _ h.ok
  runs := h.runs.trans ((State.setStp_runs ..).mono hL)

theorem State.StepTo.mod (h : State.StepTo L s t c x) (hL : within [.steps] L = true) (f : StepCtx → StepCtx) :
    State.StepTo L s (t.modStp c f) c (f x) := h.stp ▸ h.set hL (f (t.stp c))

/-- An operation that touches no step. -/
theorem State.StepTo.beside (h : State.StepTo L s t c x) (hr : Runs K t u) (hK : within K L = true) (hsteps : u.steps = t.steps) :
    State.StepTo L s u c x where
  stp := (State.stp_congr hsteps c).trans h.stp
  others d hd := (State.stp_congr hsteps d).trans (h.others d hd)
  ok := by
    rw [StepsOk, hsteps]
    exact h.ok
  runs := h.runs.trans (hr.mono hK)

theorem State.StepTo.trans {y : StepCtx} (h : State.StepTo L s t c x) (k : State.StepTo L t u c y) : State.StepTo L s u c y where
  stp := k.stp
  others d hd := (k.others d hd).trans (h.others d hd)
  ok := k.ok
  runs := h.runs.trans k.runs

theorem State.StepTo.frame (h : State.StepTo L s t c x) : Frame L s t := h.runs.frame

end

/-! The home decides (R255, R257). -/

/-- What the home makes of a failed attempt: REPLAY, or HALT at the last (R257). -/
def State.fate (s : State) (c : Nat) : Nat := if (s.stp c).attempt + 1 = s.replayLimit c then 2 else 1

/-- The attempt of a step, by its number. -/
def StepCtx.sameAttempt (x y : StepCtx) : Prop := x.step = y.step ∧ x.attempt = y.attempt

section
variable {L : List Part} (hL : within [.router, .steps] L = true) {s u : State} {c kind reason : Nat} {x : StepCtx} (hc : c < 16)
include hL hc

omit hc in
theorem State.StepTo.concluded (h : State.StepTo L s u c x) (kind reason : Nat) :
    State.StepTo L s (u.conclude c kind reason) c { x with decided := true } := by
  have hto : State.StepTo L s (u.setStp c { u.stp c with decided := true }) c { x with decided := true } :=
    h.stp ▸ h.set (within_trans (b := [.router, .steps]) rfl hL) _
  exact hto.beside (State.treeSend_runs ..) (within_trans (b := [.router, .steps]) rfl hL) rfl

/-- The home's decision of a step: it is on its way through the block, and the step is decided. -/
theorem State.StepTo.conclude (h : State.StepTo L s u c x) (hsame : x.sameAttempt (s.stp c)) (hkind : kind < 4)
    (hreason : reason < 256) :
    State.StepTo L s (u.conclude c kind reason) c { x with decided := true } ∧
      s.Decides (u.conclude c kind reason) c kind reason := by
  obtain ⟨v, hv⟩ : ∃ v, v = u.setStp c { x with decided := true } := ⟨_, rfl⟩
  have heq : u.conclude c kind reason = v.treeSend hubSelf 0 c (commitBody 0x61 kind c x.step x.attempt reason 0) := by
    rw [hv, ← h.stp]
    rfl
  have hto : State.StepTo L s v c { x with decided := true } := hv ▸ h.set (within_trans (b := [.router, .steps]) rfl hL) _
  have hsend := hto.beside (State.treeSend_runs v hubSelf 0 c (commitBody 0x61 kind c x.step x.attempt reason 0))
    (within_trans (b := [.router, .steps]) rfl hL) rfl
  rw [heq]
  refine ⟨hsend, congrArg StepCtx.decided hsend.stp, _, State.mem_inject v hubSelf _, rfl, rfl, commitBody_fop .., ?_, ?_, ?_, ?_, ?_⟩
  · exact (commitBody_kind ..).trans (Nat.mod_eq_of_lt hkind)
  · exact (commitBody_ctx ..).trans (Nat.mod_eq_of_lt hc)
  · exact (commitBody_step ..).trans (congrArg (· % 2 ^ 32) hsame.1)
  · exact (commitBody_attempt ..).trans (congrArg (· % 2 ^ 8) hsame.2)
  · exact (commitBody_reason ..).trans (Nat.mod_eq_of_lt hreason)

theorem State.StepTo.decideFail (h : State.StepTo L s u c x) (hobj : u.obj = s.obj) (hsame : x.sameAttempt (s.stp c))
    (hreason : reason < 256) :
    State.StepTo L s (u.decideFail c reason) c { x with decided := true } ∧
      s.Decides (u.decideFail c reason) c (s.fate c) reason := by
  have hlimit : u.replayLimit c = s.replayLimit c := by
    rw [State.replayLimit, State.stepCfg, State.ov_congr hobj]
    rfl
  have hfate : s.fate c < 4 := by
    rw [State.fate]
    split <;> decide
  have heq : u.decideFail c reason = u.conclude c (s.fate c) reason := by
    rw [State.decideFail, State.fate, h.stp, hsame.2, hlimit]
  rw [heq]
  exact h.conclude hL hc hsame hfate hreason

end

/-- A step's record once the home has weighed its votes: COMMIT_DEADLINE runs from the first. -/
def StepCtx.weighed (x : StepCtx) (now : Nat) : StepCtx :=
  if x.current = [] ∧ x.voteHeld = false then x
  else { x with firstVote := some (x.firstVote.getD (((x.current.map (·.at_)) ++ [now]).min?.getD now)) }

/-- An attempt in progress, not decided. -/
def StepCtx.open_ (x : StepCtx) : Prop := x.decided = false ∧ (x.st = .running ∨ x.st = .voted)

theorem StepCtx.weighed_keeps (x : StepCtx) (now : Nat) : (x.weighed now).step = x.step ∧ (x.weighed now).attempt = x.attempt ∧
    (x.weighed now).st = x.st ∧ (x.weighed now).decided = x.decided ∧ (x.weighed now).votedAt = x.votedAt := by
  rw [StepCtx.weighed]
  split <;> exact ⟨rfl, rfl, rfl, rfl, rfl⟩

/-- The home that has weighed the votes of a step. -/
def State.weighed (s : State) (c : Nat) (x : StepCtx) : State :=
  if x.current = [] ∧ x.voteHeld = false then s
  else s.setStp c
    { x with firstVote := some (x.firstVote.getD (((x.current.map (·.at_)) ++ [s.ftRead hubPs]).min?.getD (s.ftRead hubPs))) }

theorem State.homeWeigh_eq {s : State} {c : Nat} {x : StepCtx} (hx : s.stp c = x) (hhome : s.isHome c = true) (hopen : x.open_) :
    s.homeWeigh c = match (x.current.filter (·.fail)).head? with
      | some v => (s.weighed c x).decideFail c (if v.reason = 0 then 1 else v.reason)
      | none =>
        if x.voteHeld ∧ 1 + (x.current.map (·.count)).sum = (s.weighed c x).blockSize c then (s.weighed c x).conclude c 0 0
        else s.weighed c x := by
  obtain ⟨hdec, hst⟩ := hopen
  have hrun : ¬(s.isHome c = false ∨ x.decided = true ∨ (x.st ≠ .running ∧ x.st ≠ .voted)) := by
    rw [hhome, hdec]
    rcases hst with hst | hst <;> simp [hst]
  subst hx
  rw [State.homeWeigh]
  exact if_neg hrun

/-! What the block of a context is depends on the objects alone (R174, R255). -/

section
variable {s t : State} (h : t.obj = s.obj) (c : Nat)
include h

theorem State.isHome_congr : t.isHome c = s.isHome c := by
  have hread : t.isHome c = State.isHome { s with obj := t.obj } c := rfl
  rw [hread, h]

theorem State.lineNext_congr : t.lineNext c = s.lineNext c := by
  have hread : t.lineNext c = State.lineNext { s with obj := t.obj } c := rfl
  rw [hread, h]

theorem State.linePrev_congr : t.linePrev c = s.linePrev c := by
  have hread : t.linePrev c = State.linePrev { s with obj := t.obj } c := rfl
  rw [hread, h]

theorem State.blockSize_congr : t.blockSize c = s.blockSize c := by
  have hread : t.blockSize c = State.blockSize { s with obj := t.obj } c := rfl
  rw [hread, h]

theorem State.inBlock_congr (d : Nat) : t.inBlock c d = s.inBlock c d := by
  have hread : t.inBlock c d = State.inBlock { s with obj := t.obj } c d := rfl
  rw [hread, h]

theorem State.home_congr : t.home c = s.home c := by
  have hread : t.home c = State.home { s with obj := t.obj } c := rfl
  rw [hread, h]

end

theorem State.lineNext_of_isHome {s : State} {c : Nat} (h : s.isHome c = true) : s.lineNext c = none :=
  beq_iff_eq.mp (Bool.and_eq_true_iff.mp h).2

theorem State.weighed_beside (u : State) (c : Nat) (x : StepCtx) : (u.weighed c x).obj = u.obj ∧ (u.weighed c x).router = u.router := by
  rw [State.weighed]
  split <;> exact ⟨rfl, rfl⟩

section
variable {L : List Part} (hL : within [.router, .steps] L = true) {s u : State} {c : Nat} {x : StepCtx}
  (h : State.StepTo L s u c x)
include hL h

theorem State.StepTo.weighed : State.StepTo L s (u.weighed c x) c (x.weighed (u.ftRead hubPs)) := by
  rw [State.weighed, StepCtx.weighed]
  split
  · exact h
  · exact h.set (within_trans (b := [.router, .steps]) rfl hL) _

variable (hobj : u.obj = s.obj) (hhome : s.isHome c = true) (hopen : x.open_) (hsame : x.sameAttempt (s.stp c)) (hc : c < 16)
include hobj hhome hopen hsame hc

/-- The home weighs a FAIL vote. -/
theorem State.StepTo.homeWeigh_fail {v : VoteRec} (hv : (x.current.filter (·.fail)).head? = some v)
    (hreason : (if v.reason = 0 then 1 else v.reason) < 256) :
    State.StepTo L s (u.homeWeigh c) c { x.weighed (u.ftRead hubPs) with decided := true } ∧
      s.Decides (u.homeWeigh c) c (s.fate c) (if v.reason = 0 then 1 else v.reason) := by
  have hw := h.weighed hL
  obtain ⟨hstep, hattempt, -, -, -⟩ := x.weighed_keeps (u.ftRead hubPs)
  rw [State.homeWeigh_eq h.stp ((State.isHome_congr hobj c).trans hhome) hopen, hv]
  exact hw.decideFail hL hc ((u.weighed_beside c x).1.trans hobj) ⟨hstep.trans hsame.1, hattempt.trans hsame.2⟩ hreason

/-- The home weighs the OK votes of every module. -/
theorem State.StepTo.homeWeigh_ok (hv : (x.current.filter (·.fail)).head? = none) (hheld : x.voteHeld = true)
    (hall : 1 + (x.current.map (·.count)).sum = s.blockSize c) :
    State.StepTo L s (u.homeWeigh c) c { x.weighed (u.ftRead hubPs) with decided := true } ∧ s.Decides (u.homeWeigh c) c 0 0 := by
  have hw := h.weighed hL
  obtain ⟨hstep, hattempt, -, -, -⟩ := x.weighed_keeps (u.ftRead hubPs)
  have hsize : (u.weighed c x).blockSize c = s.blockSize c := State.blockSize_congr ((u.weighed_beside c x).1.trans hobj) c
  rw [State.homeWeigh_eq h.stp ((State.isHome_congr hobj c).trans hhome) hopen, hv]
  dsimp only
  rw [if_pos ⟨hheld, hall.trans hsize.symm⟩]
  exact hw.conclude hL hc ⟨hstep.trans hsame.1, hattempt.trans hsame.2⟩ (by decide) (by decide)

omit hsame hc hL in
/-- The home waits for more votes. -/
theorem State.homeWeigh_waits (hv : (x.current.filter (·.fail)).head? = none) (hheld : x.voteHeld = false) :
    u.homeWeigh c = u.weighed c x := by
  rw [State.homeWeigh_eq h.stp ((State.isHome_congr hobj c).trans hhome) hopen, hv]
  exact if_neg (by simp [hheld])

end

/-! A vote goes on along the line (R255). -/

section
variable {s u : State} {c d : Nat} {x : StepCtx}

theorem State.voteCombine_sends (hx : u.stp c = x) (hnext : u.lineNext c = some d) (hheld : x.voteHeld = true)
    (hall : (u.linePrev c).all (fun p => x.current.any (fun v => v.src == p)) = true) :
    ∃ n, u.voteCombine c = (u.setStp c { x with voteHeld := false }).lineSend c d (commitBody 0x60 0 c x.step x.attempt 0 n) := by
  rw [State.voteCombine, hnext, hx]
  exact ⟨_, if_pos ⟨hheld, hall⟩⟩

theorem State.voteCombine_home (hnext : u.lineNext c = none) : u.voteCombine c = u.homeWeigh c := by
  rw [State.voteCombine, hnext]

theorem State.StepTo.voteCombine_sends {L : List Part} (hL : within [.router, .steps] L = true) (h : State.StepTo L s u c x)
    (hnext : u.lineNext c = some d) (hheld : x.voteHeld = true)
    (hall : (u.linePrev c).all (fun p => x.current.any (fun v => v.src == p)) = true) :
    State.StepTo L s (u.voteCombine c) c { x with voteHeld := false } ∧ (u.voteCombine c).Sent 0 d 0x60 ∧
      (u.voteCombine c).router.delivered = u.router.delivered := by
  obtain ⟨n, heq⟩ := State.voteCombine_sends h.stp hnext hheld hall
  obtain ⟨v, hv⟩ : ∃ v, v = u.setStp c { x with voteHeld := false } := ⟨_, rfl⟩
  have hto : State.StepTo L s v c { x with voteHeld := false } := hv ▸ h.set (within_trans (b := [.router, .steps]) rfl hL) _
  have hrouter : v.router = u.router := hv ▸ rfl
  rw [heq, ← hv]
  have hdelivered : (v.lineSend c d (commitBody 0x60 0 c x.step x.attempt 0 n)).router.delivered = v.router.delivered := rfl
  refine ⟨hto.beside (State.lineSend_runs ..) (within_trans (b := [.router, .steps]) rfl hL) rfl, ?_,
    hdelivered.trans (congrArg Router.delivered hrouter)⟩
  exact ⟨_, .inl ⟨hubSelf, State.mem_inject ..⟩, rfl, rfl, commitBody_fop ..⟩

end

/-! A vote arrives (R255 to R257). -/

section
variable {s : State} {p : Packet} {c : Nat} {x : StepCtx}

/-- The vote that a packet carries. -/
def State.voteIn (s : State) (p : Packet) : VoteRec :=
  ⟨p.src, if p.field 64 16 = 0 then 32768 else p.field 64 16, p.field 16 32, p.field 48 8, p.field 8 2 == 1, p.field 56 8,
    s.ftRead hubPs⟩

variable (hc : p.field 12 4 = c) (hx : s.stp c = x) (hin : s.inBlock c p.src = true)
include hc hx hin

theorem State.vote_onward (hhome : s.isHome c = false) (hok : p.field 8 2 = 0) :
    s.vote p = ((s.taken p).setStp c (x.keep (s.voteIn p))).voteCombine c := by
  subst hc hx
  have htaken : ¬((s.taken p).inBlock (p.field 12 4) p.src = false ∨ 1 < p.field 8 2) :=
    fun h => h.elim (fun h => Bool.noConfusion (hin.symm.trans h)) (by omega)
  have hfail : ¬(p.field 8 2 == 1) = true := by rw [hok]; decide
  rw [State.vote]
  exact (if_neg htaken).trans ((if_pos hhome).trans (if_neg hfail))

variable (hkind : p.field 8 2 < 2) (hhome : s.isHome c = true) (hopen : x.open_)
include hkind hhome hopen

theorem State.vote_home : s.vote p = if x.past (s.voteIn p) then s.taken p
    else if p.field 16 32 ≠ x.step then (s.taken p).decideFail c 4
    else ((s.taken p).setStp c (x.keep (s.voteIn p))).homeWeigh c := by
  obtain ⟨hdec, hst⟩ := hopen
  subst hc hx
  have htaken : ¬((s.taken p).inBlock (p.field 12 4) p.src = false ∨ 1 < p.field 8 2) :=
    fun h => h.elim (fun h => Bool.noConfusion (hin.symm.trans h)) (by omega)
  have hrun : ¬((s.stp (p.field 12 4)).st ≠ .running ∧ (s.stp (p.field 12 4)).st ≠ .voted) := by
    rcases hst with hst | hst <;> simp [hst]
  have hnot : ¬(s.stp (p.field 12 4)).decided = true := by simp [hdec]
  have hh : ¬s.isHome (p.field 12 4) = false := by simp [hhome]
  rw [State.vote]
  refine (if_neg htaken).trans ((if_neg hh).trans ((if_neg hrun).trans ?_))
  exact congrArg (fun t => if (s.stp (p.field 12 4)).past (s.voteIn p) = true then s.taken p else t) (if_neg hnot)

end

/-! The votes of an attempt. -/

section
variable {x : StepCtx} {v : VoteRec}

theorem StepCtx.mem_current_keep (hstep : v.step = x.step) (hattempt : v.attempt = x.attempt) : v ∈ (x.keep v).current := by
  refine List.mem_filter.mpr ⟨List.mem_append_right _ (List.mem_singleton.mpr rfl), ?_⟩
  rw [StepCtx.keep, hstep, hattempt, beq_self_eq_true, beq_self_eq_true]
  rfl

theorem StepCtx.current_keep_first (hnone : x.votes = []) (hstep : v.step = x.step) (hattempt : v.attempt = x.attempt) :
    (x.keep v).current = [v] := by
  rw [StepCtx.current, StepCtx.keep, hnone, List.filter_nil, List.nil_append, List.filter_singleton, hstep, hattempt,
    beq_self_eq_true, beq_self_eq_true]
  rfl

theorem StepCtx.past_of_same (hdec : x.decided = false) (hstep : v.step = x.step) (hattempt : v.attempt = x.attempt) :
    x.past v = false := by
  simp [StepCtx.past, hdec, hstep, hattempt]

theorem StepCtx.past_of_other (hstep : v.step ≠ x.step) :
    x.past v = decide ((v.step + 2 ^ 32 - x.begun) % 2 ^ 32 < (x.step + 2 ^ 32 - x.begun) % 2 ^ 32) := by
  rw [StepCtx.past, beq_eq_false_iff_ne.mpr hstep, Bool.false_and, Bool.false_or]

end

/-! The commands. -/

section
variable {s : State} {p : Packet} {c : Nat} (hw : s.wf = true) (hrails : s.power.rails = true) (hp : p.wf = true)
  (hc : p.field 12 4 = c) (hin : s.inBlock c p.src = true)
include hw hrails hp hc hin

theorem exec_vote_onward {d : Nat} (hok : p.field 8 2 = 0) (hhome : s.isHome c = false) (hnext : s.lineNext c = some d)
    (hprev : s.linePrev c = [p.src]) (hheld : (s.stp c).voteHeld = true) (hstep : p.field 16 32 = (s.stp c).step)
    (hattempt : p.field 48 8 = (s.stp c).attempt) :
    ∃ t, exec (.vote p) s = .next t ∧ t.Sent 0 d 0x60 ∧ (t.stp c).voteHeld = false ∧ (t.stp c).st = (s.stp c).st ∧
      t.router.delivered = dropFirst (· == p) s.router.delivered ∧ Frame [.router, .steps] s t := by
  have hexec : exec (.vote p) s = .next (((s.taken p).setStp c ((s.stp c).keep (s.voteIn p))).voteCombine c) :=
    (need_of hp _).trans ((powered_of hrails _).trans (congrArg _ (State.vote_onward hc rfl hin hhome hok)))
  have hto : State.StepTo [.router, .steps] s ((s.taken p).setStp c ((s.stp c).keep (s.voteIn p))) c ((s.stp c).keep (s.voteIn p)) :=
    (((State.StepTo.refl (State.twf_steps hw) c).mono rfl).beside (s.taken_runs p) rfl rfl).set rfl _
  have hmem := StepCtx.mem_current_keep (x := s.stp c) (v := s.voteIn p) hstep hattempt
  have hall : [p.src].all (fun q => ((s.stp c).keep (s.voteIn p)).current.any (fun v => v.src == q)) = true := by
    rw [List.all_cons, List.all_nil, Bool.and_true]
    exact List.any_eq_true.mpr ⟨_, hmem, beq_self_eq_true _⟩
  have hobj : ((s.taken p).setStp c ((s.stp c).keep (s.voteIn p))).obj = s.obj := rfl
  have hdel : ((s.taken p).setStp c ((s.stp c).keep (s.voteIn p))).router.delivered = dropFirst (· == p) s.router.delivered := rfl
  have hkept : ((s.stp c).keep (s.voteIn p)).voteHeld = true ∧ ((s.stp c).keep (s.voteIn p)).st = (s.stp c).st := ⟨hheld, rfl⟩
  obtain ⟨hto', hsent, hdel'⟩ := hto.voteCombine_sends rfl ((State.lineNext_congr hobj c).trans hnext) hkept.1
    (((State.linePrev_congr hobj c).trans hprev).symm ▸ hall)
  refine ⟨_, hexec, hsent, ?_, ?_, hdel'.trans hdel, hto'.frame⟩
  · rw [hto'.stp]
  · rw [hto'.stp]
    exact hkept.2

variable (hhome : s.isHome c = true) (hopen : (s.stp c).open_) (hc16 : c < 16)
include hhome hopen hc16

theorem exec_vote_home (hnone : (s.stp c).votes = []) (hstep : p.field 16 32 = (s.stp c).step)
    (hattempt : p.field 48 8 = (s.stp c).attempt) :
    (p.field 8 2 = 1 →
        ∃ t, exec (.vote p) s = .next t ∧
          s.Decides t c (s.fate c) (if p.field 56 8 = 0 then 1 else p.field 56 8) ∧ (t.stp c).st = (s.stp c).st ∧
          Frame [.router, .steps] s t) ∧
      (p.field 8 2 = 0 → (s.stp c).voteHeld = true → p.field 64 16 ≠ 0 → 1 + p.field 64 16 = s.blockSize c →
        ∃ t, exec (.vote p) s = .next t ∧ s.Decides t c 0 0 ∧ Frame [.router, .steps] s t) ∧
      (p.field 8 2 = 0 → (s.stp c).voteHeld = false →
        ∃ t, exec (.vote p) s = .next t ∧ (t.stp c).decided = false ∧
          (t.stp c).firstVote = some ((s.stp c).firstVote.getD (s.ftRead hubPs)) ∧
          t.router = (s.taken p).router ∧ Frame [.router, .steps] s t) := by
  have hexec (hkind : p.field 8 2 < 2) :
      exec (.vote p) s = .next (((s.taken p).setStp c ((s.stp c).keep (s.voteIn p))).homeWeigh c) := by
    have hvote := State.vote_home hc rfl hin hkind hhome hopen
    rw [StepCtx.past_of_same (v := s.voteIn p) hopen.1 hstep hattempt, if_neg Bool.false_ne_true,
      if_neg (fun h => h hstep)] at hvote
    exact (need_of hp _).trans ((powered_of hrails _).trans (congrArg _ hvote))
  have hto : State.StepTo [.router, .steps] s ((s.taken p).setStp c ((s.stp c).keep (s.voteIn p))) c ((s.stp c).keep (s.voteIn p)) :=
    (((State.StepTo.refl (State.twf_steps hw) c).mono rfl).beside (s.taken_runs p) rfl rfl).set rfl _
  have hcurrent := StepCtx.current_keep_first (v := s.voteIn p) hnone hstep hattempt
  have hkeep : ((s.stp c).keep (s.voteIn p)).sameAttempt (s.stp c) ∧ ((s.stp c).keep (s.voteIn p)).open_ ∧
      ((s.stp c).keep (s.voteIn p)).st = (s.stp c).st ∧ ((s.stp c).keep (s.voteIn p)).voteHeld = (s.stp c).voteHeld ∧
      ((s.stp c).keep (s.voteIn p)).firstVote = (s.stp c).firstVote := ⟨⟨rfl, rfl⟩, hopen, rfl, rfl, rfl⟩
  obtain ⟨hsame, hopen', hst, hheld, hfirst⟩ := hkeep
  have hobj : ((s.taken p).setStp c ((s.stp c).keep (s.voteIn p))).obj = s.obj := rfl
  have hread : ((s.taken p).setStp c ((s.stp c).keep (s.voteIn p))).ftRead hubPs = s.ftRead hubPs := rfl
  have hrouter : ((s.taken p).setStp c ((s.stp c).keep (s.voteIn p))).router = (s.taken p).router := rfl
  have hvote : (s.voteIn p).fail = (p.field 8 2 == 1) ∧ (s.voteIn p).reason = p.field 56 8 ∧ (s.voteIn p).at_ = s.ftRead hubPs ∧
      (s.voteIn p).count = if p.field 64 16 = 0 then 32768 else p.field 64 16 := ⟨rfl, rfl, rfl, rfl⟩
  obtain ⟨hvf, hvr, hva, hvc⟩ := hvote
  generalize (s.taken p).setStp c ((s.stp c).keep (s.voteIn p)) = u at *
  generalize (s.stp c).keep (s.voteIn p) = y at *
  generalize s.voteIn p = v at *
  refine ⟨fun hf => ?_, fun hok hh hn hall => ?_, fun hok hh => ?_⟩
  · have hhead : (y.current.filter (·.fail)).head? = some v := by
      rw [hcurrent, List.filter_singleton, hvf, hf]
      rfl
    have hreason : (if v.reason = 0 then 1 else v.reason) < 256 := by
      have hlt : p.field 56 8 < 256 := bits_lt ..
      rw [hvr]
      split <;> omega
    obtain ⟨hto', hdec⟩ := hto.homeWeigh_fail rfl hobj hhome hopen' hsame hc16 hhead hreason
    rw [hvr] at hdec
    refine ⟨_, hexec (by omega), hdec, ?_, hto'.frame⟩
    rw [hto'.stp]
    exact (y.weighed_keeps _).2.2.1.trans hst
  · have hhead : (y.current.filter (·.fail)).head? = none := by
      rw [hcurrent, List.filter_singleton, hvf, hok]
      rfl
    have hsum : 1 + (y.current.map (·.count)).sum = s.blockSize c := by
      rw [hcurrent, List.map_singleton, List.sum_singleton, hvc, if_neg hn, hall]
    obtain ⟨hto', hdec⟩ := hto.homeWeigh_ok rfl hobj hhome hopen' hsame hc16 hhead (hheld.trans hh) hsum
    exact ⟨_, hexec (by omega), hdec, hto'.frame⟩
  · have hhead : (y.current.filter (·.fail)).head? = none := by
      rw [hcurrent, List.filter_singleton, hvf, hok]
      rfl
    have hto' := hto.weighed rfl
    rw [hread] at hto'
    have hyw : y.weighed (s.ftRead hubPs) = { y with firstVote := some ((s.stp c).firstVote.getD (s.ftRead hubPs)) } := by
      rw [StepCtx.weighed, if_neg (fun h => List.cons_ne_nil _ _ (hcurrent.symm.trans h.1)), hcurrent, hfirst]
      simp [hva]
    refine ⟨_, (hexec (by omega)).trans (congrArg _ (State.homeWeigh_waits hto hobj hhome hopen' hhead (hheld.trans hh))), ?_, ?_,
      (u.weighed_beside c y).2.trans hrouter, hto'.frame⟩
    · rw [hto'.stp, hyw]
      exact hopen'.1
    · rw [hto'.stp, hyw]

theorem exec_vote_otherStep (hkind : p.field 8 2 < 2) (hstep : p.field 16 32 ≠ (s.stp c).step) :
    ((p.field 16 32 + 2 ^ 32 - (s.stp c).begun) % 2 ^ 32 < ((s.stp c).step + 2 ^ 32 - (s.stp c).begun) % 2 ^ 32 →
        exec (.vote p) s = .next (s.taken p)) ∧
      (((s.stp c).step + 2 ^ 32 - (s.stp c).begun) % 2 ^ 32 ≤ (p.field 16 32 + 2 ^ 32 - (s.stp c).begun) % 2 ^ 32 →
        ∃ t, exec (.vote p) s = .next t ∧ s.Decides t c (s.fate c) 4 ∧ (t.stp c).st = (s.stp c).st ∧
          Frame [.router, .steps] s t) := by
  have hvote := State.vote_home hc rfl hin hkind hhome hopen
  rw [StepCtx.past_of_other (v := s.voteIn p) hstep, if_pos hstep] at hvote
  have hexec : exec (.vote p) s = .next (s.vote p) := (need_of hp _).trans (powered_of hrails _)
  rw [hexec, hvote]
  refine ⟨fun h => congrArg _ (if_pos (decide_eq_true h)), fun h => ?_⟩
  have hto : State.StepTo [.router, .steps] s (s.taken p) c (s.stp c) :=
    ((State.StepTo.refl (State.twf_steps hw) c).mono rfl).beside (s.taken_runs p) rfl rfl
  obtain ⟨hto', hdec⟩ := hto.decideFail rfl hc16 rfl ⟨rfl, rfl⟩ (by decide : 4 < 256)
  refine ⟨_, congrArg _ (if_neg (fun h' => absurd (of_decide_eq_true h') (Nat.not_lt.mpr h))), hdec, ?_, hto'.frame⟩
  rw [hto'.stp]

end

/-! STEP_VOTE (R254). -/

/-- The record of a step that votes OK. -/
def StepCtx.votesOk (x : StepCtx) (now : Nat) : StepCtx := { x with st := .voted, voteHeld := true, votedAt := now }

section
variable {L : List Part} (hL : within [.router, .steps] L = true) {s u : State} {c : Nat} {x : StepCtx}
  (h : State.StepTo L s u c x)
include hL h

/-- Whatever the home makes of its votes, the step stays where it is. -/
theorem State.StepTo.homeWeigh_keeps : ∃ y, State.StepTo L s (u.homeWeigh c) c y ∧ y.st = x.st ∧ y.votedAt = x.votedAt := by
  by_cases hrun : u.isHome c = true ∧ x.open_
  · obtain ⟨-, -, hst, -, hat⟩ := x.weighed_keeps (u.ftRead hubPs)
    have hw := h.weighed hL
    rw [State.homeWeigh_eq h.stp hrun.1 hrun.2]
    split
    · exact ⟨_, hw.concluded hL _ _, hst, hat⟩
    · split
      · exact ⟨_, hw.concluded hL _ _, hst, hat⟩
      · exact ⟨_, hw, hst, hat⟩
  · have hnot : u.isHome c = false ∨ x.decided = true ∨ (x.st ≠ .running ∧ x.st ≠ .voted) := by
      by_contra hno
      simp only [not_or, not_and_or, not_not, Bool.not_eq_true, Bool.not_eq_false] at hno
      exact hrun ⟨hno.1, hno.2.1, hno.2.2⟩
    have heq : u.homeWeigh c = u := by
      rw [State.homeWeigh, h.stp]
      exact if_pos hnot
    rw [heq]
    exact ⟨x, h, rfl, rfl⟩

theorem State.StepTo.voted (hobj : u.obj = s.obj) (hsame : x.sameAttempt (s.stp c)) (hc : c < 16) (now : Nat) :
    ∃ y, State.StepTo L s ((u.setStp c (x.votesOk now)).voteCombine c) c y ∧ y.st = .voted ∧ y.votedAt = now ∧
      (∀ d, s.lineNext c = some d → s.linePrev c = [] →
        ((u.setStp c (x.votesOk now)).voteCombine c).Sent 0 d 0x60 ∧ y.voteHeld = false) ∧
      (s.isHome c = true → s.blockSize c = 1 → x.votes = [] → x.decided = false →
        s.Decides ((u.setStp c (x.votesOk now)).voteCombine c) c 0 0) := by
  have hv : State.StepTo L s (u.setStp c (x.votesOk now)) c (x.votesOk now) :=
    h.set (within_trans (b := [.router, .steps]) rfl hL) _
  have hvobj : (u.setStp c (x.votesOk now)).obj = s.obj := hobj
  generalize u.setStp c (x.votesOk now) = v at *
  have hnext := State.lineNext_congr hvobj c
  have hprev := State.linePrev_congr hvobj c
  cases hline : s.lineNext c with
  | none =>
    rw [State.voteCombine_home (hnext.trans hline)]
    obtain ⟨y, hy, hst, hat⟩ := hv.homeWeigh_keeps hL
    refine ⟨y, hy, hst, hat, fun d hd => (nomatch hd), fun hhome hsize hnone hdec => ?_⟩
    have hcurrent : (x.votesOk now).current = [] := by
      rw [StepCtx.current, StepCtx.votesOk, hnone]
      rfl
    exact (hv.homeWeigh_ok hL hvobj hhome ⟨hdec, .inr rfl⟩ hsame hc (by rw [hcurrent]; rfl) rfl (by rw [hcurrent, hsize]; rfl)).2
  | some d =>
    have hnot (hhome : s.isHome c = true) : False := nomatch hline.symm.trans (State.lineNext_of_isHome hhome)
    by_cases hall : (v.linePrev c).all (fun p => (x.votesOk now).current.any (fun v => v.src == p)) = true
    · obtain ⟨hy, hsent, -⟩ := hv.voteCombine_sends hL (hnext.trans hline) rfl hall
      exact ⟨_, hy, rfl, rfl, fun e he _ => ⟨Option.some.inj he ▸ hsent, rfl⟩, fun hhome => (hnot hhome).elim⟩
    · have heq : v.voteCombine c = v := by
        rw [State.voteCombine, hnext.trans hline, hv.stp]
        exact if_neg (fun h' => hall h'.2)
      rw [heq]
      exact ⟨_, hv, rfl, rfl, fun e _ he => (hall (by rw [hprev, he]; rfl)).elim, fun hhome => (hnot hhome).elim⟩

end

section
variable {s : State} {c : Nat}

/-- The state in which the count of DONE_COUNT has been taken. -/
def State.doneTake (s : State) (c i k : Nat) : State :=
  (s.setCtr i (s.ctr i - k)).setStp c { s.stp c with doneTaken := true }

variable {i k : Nat} (hok : CtrOk s) (hs : StepsOk s) (hsmall : s.ctr i < 2 ^ 16)
include hok hs hsmall

theorem State.stepTo_doneTake :
    State.StepTo [.sync, .router, .steps] s (s.doneTake c i k) c { s.stp c with doneTaken := true } ∧
      (s.doneTake c i k).ctr i = s.ctr i - k ∧ ∀ j, j ≠ i → (s.doneTake c i k).ctr j = s.ctr j := by
  have hruns : Runs [.sync] s (s.setCtr i (s.ctr i - k)) := State.setCtr_runs _ _ _ fun _ => by omega
  have hctr (j : Nat) : (s.doneTake c i k).ctr j = if j = i then s.ctr i - k else s.ctr j := State.ctr_setCtr hok i j _
  exact ⟨(((State.StepTo.refl hs c).mono rfl).beside hruns rfl rfl).set rfl _, (hctr i).trans (if_pos rfl),
    fun j hj => (hctr j).trans (if_neg hj)⟩

end

section
variable {s : State} {c : Nat}

/-- Something of a context is left on some cores or in the exchange engine (R254). -/
def State.busyOn (s : State) (ns : List Nat) (c : Nat) : Bool :=
  ns.any (fun n => ((s.core n).tiles ++ (s.core n).suspended).any (fun t => t.ctx == c)) ||
    s.txe.opens.any (fun o => o.ctx == c) || s.txe.busy.any (fun o => o.ctx == c)

theorem State.busyOn_setStp (s : State) (ns : List Nat) (c i v : Nat) (x : StepCtx) :
    ((s.setCtr i v).setStp c x).busyOn ns c = s.busyOn ns c := rfl

theorem State.busyOn_eq_false (hcores : ∀ n, n < 256 → ∀ y ∈ (s.core n).tiles ++ (s.core n).suspended, y.ctx ≠ c)
    (hopens : ∀ y ∈ s.txe.opens, y.ctx ≠ c) (hbusy : ∀ y ∈ s.txe.busy, y.ctx ≠ c) : s.busyOn allCores c = false := by
  rw [State.busyOn, Bool.or_eq_false_iff, Bool.or_eq_false_iff]
  refine ⟨⟨List.any_eq_false.mpr fun n hn => ?_, List.any_eq_false.mpr fun y hy => ?_⟩, List.any_eq_false.mpr fun y hy => ?_⟩
  · rw [Bool.not_eq_true]
    exact List.any_eq_false.mpr fun y hy => by simpa using hcores n (List.mem_range.mp hn) y hy
  · simpa using hopens y hy
  · simpa using hbusy y hy

theorem State.stepVote_takes (hon : s.stepsOn c = true) (hrun : (s.stp c).st = .running) (hdone : (s.stp c).doneTaken = false)
    (hlatch : (s.stp c).latch = none) (hfail : (s.stp c).failSent = false)
    {e : SyncEntry} (he : e = s.syncEntry c (bits (s.stepCfg c) 0 16)) {k : Nat} (hk : k = bits (s.stepCfg c) 16 14)
    (hkind : e.kind = 1) (hwait : e.waitOk = true) (hlocal : e.local_ = true) (hle : k ≤ s.ctr e.phys)
    (hcores : ∀ n, n < 256 → ∀ y ∈ (s.core n).tiles ++ (s.core n).suspended, y.ctx ≠ c) (hopens : ∀ y ∈ s.txe.opens, y.ctx ≠ c)
    (hbusy : ∀ y ∈ s.txe.busy, y.ctx ≠ c) (hred : s.redPending c = 0) (hs : StepsOk s) : s.stepVote c =
    if bits (s.stepCfg c) 64 32 ≠ 0 ∧ bits (s.stepCfg c) 64 32 ≠ (s.stp c).updates then (s.doneTake c e.phys k).failVote c 3
    else ((s.doneTake c e.phys k).setStp c (((s.doneTake c e.phys k).stp c).votesOk (s.ftRead hubPs))).voteCombine c := by
  have hx : (s.doneTake c e.phys k).stp c = { s.stp c with doneTaken := true } := (State.stp_setStp hs ..).trans (if_pos rfl)
  have hidle := (s.busyOn_setStp allCores c e.phys (s.ctr e.phys - k) { s.stp c with doneTaken := true }).trans
    (State.busyOn_eq_false hcores hopens hbusy)
  have hrun' : ¬(s.stepsOn c = false ∨ (s.stp c).st ≠ .running) := by simp [hon, hrun]
  have htake : (!(s.stp c).doneTaken && e.kind == 1 && e.waitOk && e.local_ && decide (k ≤ s.ctr e.phys)) = true := by
    simp [hdone, hkind, hwait, hlocal, hle]
  subst he hk
  rw [State.stepVote]
  refine (if_neg hrun').trans ?_
  simp only [htake, if_true]
  have hx' : ((s.setCtr (s.syncEntry c (bits (s.stepCfg c) 0 16)).phys (s.ctr (s.syncEntry c (bits (s.stepCfg c) 0 16)).phys -
      bits (s.stepCfg c) 16 14)).setStp c { s.stp c with doneTaken := true }).stp c = { s.stp c with doneTaken := true } := hx
  refine (if_neg ?_).trans ?_
  · rw [hx']
    rintro (h | h | h | h | h)
    · exact Bool.noConfusion h
    · rw [State.busyOn] at hidle
      exact Bool.noConfusion (hidle.symm.trans h)
    · exact h hred
    · exact h hlatch
    · exact Bool.noConfusion (hfail.symm.trans h)
  · have hread : ((s.setCtr (s.syncEntry c (bits (s.stepCfg c) 0 16)).phys (s.ctr (s.syncEntry c (bits (s.stepCfg c) 0 16)).phys -
        bits (s.stepCfg c) 16 14)).setStp c { s.stp c with doneTaken := true }).ftRead hubPs = s.ftRead hubPs := rfl
    rw [hread]
    refine if_congr ?_ rfl rfl
    rw [hx']

theorem State.failVote_sends {L : List Part} (hL : within [.router, .steps] L = true) {s u : State} {x : StepCtx}
    (h : State.StepTo L s u c x) (hobj : u.obj = s.obj) (hfail : x.failSent = false) (reason : Nat) :
    State.StepTo L s (u.failVote c reason) c { x with failSent := true } ∧ (u.failVote c reason).Sent 0 (s.home c) 0x60 := by
  obtain ⟨v, hv⟩ : ∃ v, v = u.send hubSelf 0 c (u.home c) (commitBody 0x60 1 c x.step x.attempt reason 0) := ⟨_, rfl⟩
  have hsteps : v.steps = u.steps := hv ▸ rfl
  have heq : u.failVote c reason = v.modStp c ({ · with failSent := true }) := by
    rw [State.failVote, h.stp]
    rw [hfail, if_neg Bool.false_ne_true, hv]
  have hto : State.StepTo L s v c x :=
    h.beside (hv ▸ State.send_runs ..) (within_trans (b := [.router, .steps]) rfl hL) hsteps
  have hsent : v.Sent 0 (s.home c) 0x60 := by
    rw [hv, ← State.home_congr hobj c]
    exact ⟨_, .inl ⟨hubSelf, State.mem_inject ..⟩, rfl, rfl, commitBody_fop ..⟩
  rw [heq]
  exact ⟨hto.mod (within_trans (b := [.router, .steps]) rfl hL) ({ · with failSent := true }), hsent⟩

theorem State.commitExpiry_decides {a : Nat} (hfirst : (s.stp c).firstVote = some a) (hhome : s.isHome c = true)
    (hopen : (s.stp c).open_) (hlate : a + s.commitDeadline c ≤ s.ftRead hubPs) : s.commitExpiry c = s.decideFail c 5 := by
  rw [State.commitExpiry, hfirst]
  exact if_pos ⟨hhome, hopen.1, hopen.2, hlate⟩

end

/-- Settles O46: a step votes once its conditions hold, and the home decides. -/
theorem stepsVoteAndAreDecided : Obligations.StepsVoteAndAreDecided := by
  intro s c hw hc x cfg e k fate
  have hs : StepsOk s := State.twf_steps hw
  have hok : CtrOk s := State.twf_ctr hw
  have hctx : ctxOk c = true := decide_eq_true hc
  refine ⟨fun hon hrun hdone hlatch hfail hkind hwait hlocal hle hcores hopens hbusy hred => ?_,
    fun p hp hoff => (need_of hp _).trans (by rw [powered, hoff]; rfl),
    fun p d hrails hp hpc hin hok' hhome hnext hprev hheld hstep hattempt =>
      exec_vote_onward hw hrails hp hpc hin hok' hhome hnext hprev hheld hstep hattempt,
    fun p hrails hp hpc hin hhome hst hdec hstep hattempt hnone =>
      exec_vote_home hw hrails hp hpc hin hhome ⟨hdec, hst⟩ hc hnone hstep hattempt,
    fun p hrails hp hpc hin hhome hst hdec hstep hkind => exec_vote_otherStep hw hrails hp hpc hin hhome ⟨hdec, hst⟩ hc hkind hstep,
    fun a hfirst hhome hdec hst hlate => ?_⟩
  · have hvote := State.stepVote_takes hon hrun hdone hlatch hfail rfl rfl hkind hwait hlocal hle hcores hopens hbusy hred hs
    have hexec : exec (.stepVote c) s = .next (s.stepVote c) := need_of hctx _
    obtain ⟨hto, htaken, hothers⟩ := State.stepTo_doneTake (c := c) (i := e.phys) (k := k) hok hs (State.ctr_lt (State.wf_sync hw) _)
    have hobj : (s.doneTake c e.phys k).obj = s.obj := rfl
    have hx : (s.doneTake c e.phys k).stp c = { x with doneTaken := true } := hto.stp
    rw [hexec, hvote, hx]
    generalize s.doneTake c e.phys k = u at hto htaken hothers hobj ⊢
    refine ⟨fun hcount => ?_, fun hcfg hcount => ?_⟩
    · rw [if_neg (fun h => hcount.elim h.1 h.2)]
      obtain ⟨y, hy, hst, hat, hsent, hdecides⟩ := hto.voted rfl hobj ⟨rfl, rfl⟩ hc (s.ftRead hubPs)
      have hctr (j : Nat) : ((u.setStp c (StepCtx.votesOk { x with doneTaken := true } (s.ftRead hubPs))).voteCombine c).ctr j = u.ctr j := by
        rw [State.ctr, (State.voteCombine_runs ..).same .sync rfl]
        rfl
      refine ⟨_, rfl, ?_⟩
      rw [hy.stp]
      exact ⟨hst, hat, (hctr _).trans htaken, fun i hi => (hctr i).trans (hothers i hi), hy.others, hsent, hdecides, hy.frame⟩
    · rw [if_pos ⟨hcfg, hcount⟩]
      obtain ⟨hy, hsent⟩ := State.failVote_sends rfl hto hobj hfail 3
      refine ⟨_, rfl, ?_⟩
      rw [hy.stp]
      exact ⟨hrun, rfl, hsent, hy.frame⟩
  · have hto : State.StepTo [.router, .steps] s s c (s.stp c) := (State.StepTo.refl hs c).mono rfl
    obtain ⟨hto', hdec'⟩ := hto.decideFail rfl hc rfl ⟨rfl, rfl⟩ (by decide : 5 < 256)
    refine ⟨_, (need_of hctx _).trans (congrArg _ (State.commitExpiry_decides hfirst hhome ⟨hdec, hst⟩ hlate)), hdec', ?_, hto'.frame⟩
    rw [hto'.stp]

end Sys2Proof.Machine
end

