-- ==== Sys2Proof/Proofs/FabricTimers.lean ====
section
/-!
PROOF. Requests that enter the router at the rate of a hot destination, and the timers of the fabric (R350, R352, R355).
-/

namespace Sys2Proof.Machine

/-! A field of a request header (R340). -/

theorem ReqHdr.field_fop (h : ReqHdr) : bytesField h.body 0 8 = h.fop % 2 ^ 8 :=
  bytesField_mkBody [] _ h.fop rfl (by decide)

/-! A request enters the router, or waits for the rate of its destination (R355). -/

section
variable (s : State) (port : Nat) (p : Packet)

/-- The fabric but for the hot list and the requests that wait for it. -/
def Fab.beside (f : Fab) : Fab := { f with hot := [], capped := [] }

/-- The hot list but for the requests counted. -/
def Fab.rates (f : Fab) : List (Nat × Nat × Bool) := f.hot.map fun x => (x.dest, x.rate, x.marked)

theorem State.beside_capInject : (s.capInject port p).fab.beside = s.fab.beside := by
  unfold State.capInject
  split <;> rfl

theorem State.rates_capInject : (s.capInject port p).fab.rates = s.fab.rates := by
  unfold State.capInject
  split
  · rfl
  · refine (List.map_map ..).trans (List.map_congr_left fun x _ => ?_)
    by_cases h : x.dest = p.dest ∧ p.vc = 2 <;> simp [h]

theorem State.waiting_capInject : (s.capInject port p).Waiting p := by
  unfold State.capInject
  split
  · exact .inr (List.mem_map_of_mem (List.mem_append_right _ (List.mem_singleton.mpr rfl)))
  · exact .inl ⟨port, State.mem_inject _ port p⟩

theorem State.sent_capInject : (s.capInject port p).Sent p.vc p.dest (p.field 0 8) :=
  ⟨p, s.waiting_capInject port p, rfl, rfl, rfl⟩

variable {s p}

theorem State.not_isCapped (hnone : s.fab.capped = []) (hroom : ∀ x ∈ s.fab.hot, x.dest = p.dest → x.sent < x.rate) :
    s.isCapped p = false := by
  have hfull : s.fab.hot.any (fun x => x.dest == p.dest && decide (x.rate ≤ x.sent)) = false := by
    refine List.any_eq_false.mpr fun x hx => ?_
    simpa using fun hd => hroom x hx hd
  rw [State.isCapped, hfull, hnone, List.any_nil, Bool.or_false, Bool.and_false]

theorem State.capInject_of_free (h : s.isCapped p = false) :
    (s.capInject port p).fab.capped = s.fab.capped ∧ p ∈ tget [] (s.capInject port p).router.inj port := by
  rw [State.capInject, h]
  exact ⟨rfl, State.mem_inject _ port p⟩

end

theorem State.rates_capFlow (s : State) : s.capFlow.fab.rates = s.fab.rates :=
  foldl_keeps (g := fun s : State => s.fab.rates) (f := fun (s : State) (q : Nat × Packet) => s.capInject q.1 q.2)
    (fun s q => s.rates_capInject q.1 q.2) s.fab.capped (s.setFab { s.fab with capped := [] })

/-! The timer of acknowledgements (R350). -/

theorem seqBefore_self (a : Nat) : seqBefore a a = false := by
  have hmod : a % 2 ^ 32 ≤ a := Nat.mod_le ..
  have hz : (a + 2 ^ 32 - a % 2 ^ 32) % 2 ^ 32 = 0 := by
    have h : a + 2 ^ 32 - a % 2 ^ 32 = 2 ^ 32 * (a / 2 ^ 32 + 1) := by omega
    rw [h, Nat.mul_mod_right]
  simp only [seqBefore, hz, Nat.lt_irrefl, decide_false, Bool.false_and]

/-- The acknowledgement that the timer sends. -/
def State.ackPacket (s : State) (d : Nat) : Packet :=
  s.packet 2 0 d (({ fop := 0x15, pgen := s.ov protGenId % 256, ackSeq := s.ackSeq d } : ReqHdr).body)

/-- The acknowledgement is noted as sent. -/
def State.ackNoted (s : State) (d : Nat) : State :=
  s.setFab { s.fab with lastAck := tset (0, 0) s.fab.lastAck d (s.ackSeq d, s.clk) }

theorem State.ackNoted_runs (s : State) (d : Nat) : Runs [.fab] s (s.ackNoted d) :=
  State.setFab_runs ..

theorem atomicAckTimer_sends {s : State} {d : Nat} (hadv : seqBefore (tget (0, 0) s.fab.lastAck d).1 (s.ackSeq d) = true)
    (hold : (tget (0, 0) s.fab.lastAck d).2 + 10000 ≤ s.clk) :
    ∃ t, exec (.atomicAckTimer d) s = .next t ∧ t.Sent 2 d 0x15 ∧ tget (0, 0) t.fab.lastAck d = (s.ackSeq d, s.clk) ∧
      Frame [.fab, .router] s t := by
  have heq : s.atomAckTimer d = (s.ackNoted d).capInject hubFabric (s.ackPacket d) := if_pos ⟨hadv, hold⟩
  have hfop : (s.ackPacket d).field 0 8 = 0x15 := ReqHdr.field_fop _
  have hsent := (s.ackNoted d).sent_capInject hubFabric (s.ackPacket d)
  rw [hfop] at hsent
  have hnew : (s.ackSeq d, s.clk) ≠ ((0, 0) : Nat × Nat) := fun h => by
    have hclk : s.clk = 0 := congrArg Prod.snd h
    omega
  refine ⟨_, congrArg Host.Outcome.next heq, hsent, ?_, ?_⟩
  · have hack := congrArg Fab.lastAck ((s.ackNoted d).beside_capInject hubFabric (s.ackPacket d))
    exact (congrArg (fun x => tget (0, 0) x d) hack).trans (tget_tset_self_of_ne _ _ _ hnew)
  · exact (Runs.comp (State.capInject_runs ..) rfl ((s.ackNoted_runs d).mono rfl)).frame

/-! The expiry of response entries (R352). -/

/-- The watermark passes an entry, the only one of the cache. -/
def State.expired (s : State) (e : RespEntry) : State :=
  (s.setResp []).setFab { s.fab with resp := [], wm := tset 0 s.fab.wm e.src ((e.seq + 1) % 2 ^ 32 + 1) }

theorem State.wmOf_congr {s t : State} (h : t.fab = s.fab) (src : Nat) : t.wmOf src = s.wmOf src := by
  rw [State.wmOf, State.wmOf, h]

theorem State.wmOf_expired (s : State) (e : RespEntry) : (s.expired e).wmOf e.src = some ((e.seq + 1) % 2 ^ 32) := by
  have hwm : tget 0 (s.expired e).fab.wm e.src = (e.seq + 1) % 2 ^ 32 + 1 := tget_tset_self_of_ne _ _ _ (Nat.succ_ne_zero _)
  rw [State.wmOf, hwm]

theorem State.atomExpiry_one {s : State} {e : RespEntry} (hone : s.fab.resp = [e]) (hold : e.at_ + 100000000 ≤ s.clk) :
    s.atomExpiry = (s.expired e).fabFlag 4 e.src := by
  have hself : (e.src == e.src && e.seq == e.seq) = true := by simp
  have hfirst : [e].any (fun x => x.src == e.src && seqBefore x.seq e.seq) = false := by
    simp [seqBefore_self]
  unfold State.atomExpiry
  rw [hone, List.foldl_cons, List.foldl_nil, if_pos hold]
  dsimp only
  rw [hone, hfirst, List.filter_cons_of_neg (by simp), List.filter_nil]
  rfl

theorem atomicEntryExpiry_frees {s : State} {e : RespEntry} (hs : ValsOk s) (hone : s.fab.resp = [e])
    (hold : e.at_ + 100000000 ≤ s.clk) :
    ∃ t, exec .atomicEntryExpiry s = .next t ∧ t.fab.resp = [] ∧ t.wmOf e.src = some ((e.seq + 1) % 2 ^ 32) ∧
      bit (t.ov fabStatusId) 4 = true ∧ Frame [.fab, .obj] s t := by
  have hflag := (s.expired e).fabFlag_runs 4 e.src
  have hfab : ((s.expired e).fabFlag 4 e.src).fab = (s.expired e).fab := hflag.frame.1 .fab rfl
  refine ⟨_, congrArg Host.Outcome.next (State.atomExpiry_one hone hold), ?_, ?_, ?_, ?_⟩
  · rw [hfab]
    rfl
  · rw [State.wmOf_congr hfab, State.wmOf_expired]
  · rw [State.fabFlag, State.ov_modOv (s := s.expired e) hs, if_pos rfl, bit_or_pow]
  · have hrun : Runs [.fab] s (s.expired e) :=
      (State.setResp_runs s []).trans (State.setFab_runs ..)
    exact (Runs.comp hflag rfl (hrun.mono rfl)).frame

theorem State.atomExpiry_of_young {s : State} (h : ∀ e ∈ s.fab.resp, s.clk < e.at_ + 100000000) : s.atomExpiry = s := by
  unfold State.atomExpiry
  generalize s.fab.resp = es at h
  induction es with
  | nil => rfl
  | cons e es ih =>
    rw [List.foldl_cons, if_neg (Nat.not_le.mpr (h e (List.mem_cons_self ..)))]
    exact ih fun x hx => h x (List.mem_cons_of_mem _ hx)

/-! A microsecond of the hot list ends (R355). -/

/-- A destination as the next microsecond begins. -/
def HotDest.next (x : HotDest) : HotDest :=
  if x.marked then { x with marked := false, sent := 0 } else { x with rate := x.rate + 16, sent := 0 }

/-- The hot list as the next microsecond begins. -/
def State.hotNext (s : State) : State :=
  s.setFab { s.fab with hot := (s.fab.hot.map HotDest.next).filter fun x => decide (x.rate < 1024) }

theorem State.hotTick_eq (s : State) : s.hotTick = s.hotNext.capFlow := rfl

theorem HotDest.next_shown (x : HotDest) :
    (x.next.dest, x.next.rate, x.next.marked) = (x.dest, if x.marked then x.rate else x.rate + 16, false) := by
  unfold HotDest.next
  split <;> simp_all

theorem State.rates_hotNext (s : State) : s.hotNext.fab.rates =
    (s.fab.hot.map (fun y => (y.dest, if y.marked then y.rate else y.rate + 16, false))).filter
      (fun x => decide (x.2.1 < 1024)) := by
  have hshow : (s.fab.hot.map HotDest.next).map (fun x => (x.dest, x.rate, x.marked)) =
      s.fab.hot.map (fun y => (y.dest, if y.marked then y.rate else y.rate + 16, false)) :=
    (List.map_map ..).trans (List.map_congr_left fun x _ => x.next_shown)
  rw [← hshow, List.filter_map]
  rfl

/-- No destination has been sent anything in the microsecond that begins, and none has a lower rate. -/
theorem State.sent_hotNext {s : State} {d : Nat} (h : ∀ y ∈ s.fab.hot, y.dest = d → 0 < y.rate) :
    ∀ x ∈ s.hotNext.fab.hot, x.dest = d → x.sent < x.rate := by
  intro x hx hd
  obtain ⟨y, hy, rfl⟩ := List.mem_map.mp (List.mem_of_mem_filter hx)
  unfold HotDest.next at hd ⊢
  split
  case isTrue hm =>
    rw [if_pos hm] at hd
    exact h y hy hd
  case isFalse => exact Nat.succ_pos _

theorem State.capFlow_one {s : State} {q : Nat × Packet} (hone : s.fab.capped = [q])
    (hroom : ∀ x ∈ s.fab.hot, x.dest = q.2.dest → x.sent < x.rate) :
    s.capFlow.fab.capped = [] ∧ q.2 ∈ tget [] s.capFlow.router.inj q.1 := by
  have heq : s.capFlow = (s.setFab { s.fab with capped := [] }).capInject q.1 q.2 := by
    rw [State.capFlow, hone, List.foldl_cons, List.foldl_nil]
  rw [heq]
  exact State.capInject_of_free q.1 (State.not_isCapped rfl hroom)

theorem hotRateTick_raises (s : State) : ∃ t, exec .hotRateTick s = .next t ∧
    t.fab.hot.map (fun x => (x.dest, x.rate, x.marked)) =
      (s.fab.hot.map (fun y => (y.dest, if y.marked then y.rate else y.rate + 16, false))).filter
        (fun x => decide (x.2.1 < 1024)) ∧
    (∀ q, s.fab.capped = [q] → (∀ y ∈ s.fab.hot, y.dest = q.2.dest → 0 < y.rate) →
      t.fab.capped = [] ∧ q.2 ∈ tget [] t.router.inj q.1) ∧
    Frame [.fab, .router] s t := by
  refine ⟨_, congrArg Host.Outcome.next s.hotTick_eq, s.hotNext.rates_capFlow.trans s.rates_hotNext, ?_, ?_⟩
  · exact fun q hone hrate => State.capFlow_one (s := s.hotNext) hone (State.sent_hotNext hrate)
  · have hrun : Runs [.fab] s s.hotNext := State.setFab_runs ..
    exact (Runs.comp (State.capFlow_runs _) rfl (hrun.mono rfl)).frame

/-- Settles O58. -/
theorem fabricTimersAct : Obligations.FabricTimersAct := by
  unfold Obligations.FabricTimersAct
  intro s hs
  exact ⟨fun d => atomicAckTimer_sends,
    fun e hone hold => atomicEntryExpiry_frees (State.keysFrom_vals hs) hone hold,
    fun h => congrArg Host.Outcome.next (State.atomExpiry_of_young h), hotRateTick_raises s⟩

end Sys2Proof.Machine
end

