-- ==== Sys2Proof/Proofs/Invalidations.lean ====
section
/-!
PROOF. An invalidation reaches every reader group and is acknowledged (R346, R347).
-/

namespace Sys2Proof.Machine

/-! What the trees of an invalidation read of the state stands in the objects alone. -/

section
variable {s t : State} (h : t.obj = s.obj)
include h

theorem State.me_of_obj : t.me = s.me := by
  have hread : t.me = State.me { s with obj := t.obj } := rfl
  rw [hread, h]

theorem State.invLinks_congr (c root groups : Nat) : t.invLinks c root groups = s.invLinks c root groups := by
  have hread : t.invLinks c root groups = State.invLinks { s with obj := t.obj } c root groups := rfl
  rw [hread, h]

theorem State.treeParent_congr (c root : Nat) : t.treeParent c root = s.treeParent c root := by
  have hread : t.treeParent c root = State.treeParent { s with obj := t.obj } c root := rfl
  rw [hread, h]

end

/-! A packet that waits goes on waiting. -/

theorem State.Sent.of_eq {t u : State} {vc dest fop : Nat} (h : t.Sent vc dest fop) (hinj : u.router.inj = t.router.inj)
    (hfab : u.fab.capped = t.fab.capped) : u.Sent vc dest fop := by
  obtain ⟨p, hp, hfields⟩ := h
  refine ⟨p, ?_, hfields⟩
  unfold State.Waiting at hp ⊢
  rwa [hinj, hfab]

theorem State.Sent.taken {t : State} {vc dest fop : Nat} (h : t.Sent vc dest fop) (p : Packet) : (t.taken p).Sent vc dest fop :=
  h.of_eq rfl rfl

theorem State.sent_of_inject (s : State) (port : Nat) {p : Packet} {vc dest fop : Nat} (hvc : p.vc = vc) (hdest : p.dest = dest)
    (hfop : p.field 0 8 = fop) : (s.inject port p).Sent vc dest fop := by
  rw [← hvc, ← hdest, ← hfop]
  exact s.sent_inject port p

theorem State.sent_send (s : State) (port vc ctx dst : Nat) {body : List Byte} {fop : Nat} (h : bytesField body 0 8 = fop) :
    (s.send port vc ctx dst body).Sent vc dst fop := s.sent_of_inject port rfl rfl h

theorem invBody_fop (fop id count a n : Nat) : bytesField (invBody fop id count a n) 0 8 = fop % 2 ^ 8 :=
  bytesField_mkBody [] _ fop rfl (by decide)

theorem State.sent_invDoneTo (s : State) (c holder tag : Nat) : (s.invDoneTo c holder tag).Sent 3 holder 0x1B :=
  State.sent_send _ _ _ _ _ (bytesField_mkBody [] _ 0x1B rfl (by decide))

theorem State.sent_invAckUp (s : State) (c root id count a n : Nat) :
    (s.invAckUp c root id count a n).Sent 4 (s.treeParent c root) 0x21 :=
  State.sent_send _ _ _ _ _ (invBody_fop ..)

/-! The lines of the module's own group (R347). -/

/-- The module drops the range where its group is set. -/
def State.dropOwn (s : State) (root groups a n : Nat) : State :=
  if bit groups (groupOf s.me) then s.dropLines root a n else s

section
variable (s : State) (root groups a n : Nat)

theorem State.dropOwn_runs : Runs [.fab] s (s.dropOwn root groups a n) :=
  .ite (fun _ => State.dropLines_runs ..) fun _ => .refl s

theorem State.invs_dropOwn : (s.dropOwn root groups a n).fab.invs = s.fab.invs := by
  unfold State.dropOwn
  split <;> rfl

theorem State.nextInv_dropOwn : (s.dropOwn root groups a n).fab.nextInv = s.fab.nextInv := by
  unfold State.dropOwn
  split <;> rfl

theorem State.dir_dropOwn : (s.dropOwn root groups a n).fab.dir = s.fab.dir := by
  unfold State.dropOwn
  split <;> rfl

theorem State.lines_dropOwn (h : bit groups (groupOf s.me) = true) :
    ∀ l ∈ (s.dropOwn root groups a n).fab.lines, ¬(l.dest = root ∧ a ≤ l.addr ∧ l.addr < a + n) := by
  rw [State.dropOwn, if_pos h]
  intro l hl
  have hkept := (List.mem_filter.mp hl).2
  rintro ⟨hdest, hlo, hhi⟩
  simp [hdest, hlo, hhi] at hkept

end

/-! The root of a tree (R346, R347). -/

section
variable (s : State) (p : Packet)

/-- The directory entry is cleared where the request says so. -/
def State.dirCleared : State :=
  if p.field 15 1 = 1 then s.setFab { s.fab with dir := tset 0 s.fab.dir (p.field 48 12) 0 } else s

theorem State.dirCleared_runs : Runs [.fab] s (s.dirCleared p) := .ite (fun _ => State.setFab_runs ..) fun _ => .refl s

theorem State.invs_dirCleared : (s.dirCleared p).fab.invs = s.fab.invs := by
  unfold State.dirCleared
  split <;> rfl

theorem State.nextInv_dirCleared : (s.dirCleared p).fab.nextInv = s.fab.nextInv := by
  unfold State.dirCleared
  split <;> rfl

theorem State.lines_dirCleared : (s.dirCleared p).fab.lines = s.fab.lines := by
  unfold State.dirCleared
  split <;> rfl

theorem State.dir_dirCleared {s : State} {p : Packet} (h : twf 0 s.fab.dir = true) (hclear : p.field 15 1 = 1) :
    tget 0 (s.dirCleared p).fab.dir (p.field 48 12) = 0 := by
  rw [State.dirCleared, if_pos hclear]
  exact tget_tset_self 0 h (p.field 48 12) 0

/-- A tree begins under a number, and its INV goes down. -/
def State.treeBegun (id : Nat) (y : InvTree) : State :=
  let u := s.noteArrived p
  let v := u.setFab { u.fab with nextInv := (id + 1) % 65536, invs := u.fab.invs ++ [y] }
  v.inject hubFabric { v.packet 4 p.ctx v.me (invBody 0x20 id 0 (pAddr p) (p.field 128 64)) with dir := 0 }

theorem State.obj_noteArrived : (s.noteArrived p).obj = s.obj := (State.noteArrived_runs ..).same .obj rfl

theorem State.fab_noteArrived : (s.noteArrived p).fab = s.fab := (State.noteArrived_runs ..).same .fab rfl

section
variable (id : Nat) (y : InvTree)

theorem State.treeBegun_runs : Runs [.fab, .router] s (s.treeBegun p id y) :=
  Runs.comp (State.inject_runs ..) rfl (Runs.comp (State.setFab_runs ..) rfl ((State.noteArrived_runs ..).mono rfl))

theorem State.sent_treeBegun : (s.treeBegun p id y).Sent 4 s.me 0x20 :=
  State.sent_of_inject _ _ rfl (State.me_of_obj (s.obj_noteArrived p)) (invBody_fop ..)

theorem State.invs_treeBegun : (s.treeBegun p id y).fab.invs = s.fab.invs ++ [y] :=
  congrArg (fun f : Fab => f.invs ++ [y]) (s.fab_noteArrived p)

theorem State.lines_treeBegun : (s.treeBegun p id y).fab.lines = s.fab.lines := by
  show (s.noteArrived p).fab.lines = s.fab.lines
  rw [s.fab_noteArrived p]

theorem State.dir_treeBegun : (s.treeBegun p id y).fab.dir = s.fab.dir := by
  show (s.noteArrived p).fab.dir = s.fab.dir
  rw [s.fab_noteArrived p]

end

/-- The groups that the directory names for a request. -/
def State.readers : Nat := tget 0 s.fab.dir (p.field 48 12)

/-- The modules of the block whose groups read the range. -/
def State.expected : Nat := ((s.blockDevs p.ctx).filter (fun x => bit (s.readers p) (groupOf x))).length

/-- The root's state once its own lines are dropped. -/
def State.rootDropped : State := (s.dirCleared p).dropOwn (s.dirCleared p).me (s.readers p) (pAddr p) (p.field 128 64)

theorem State.obj_dirCleared : (s.dirCleared p).obj = s.obj := (s.dirCleared_runs p).same .obj rfl

theorem State.rootDropped_runs : Runs [.fab] s (s.rootDropped p) := (s.dirCleared_runs p).trans (State.dropOwn_runs ..)

theorem State.obj_rootDropped : (s.rootDropped p).obj = s.obj := (s.rootDropped_runs p).same .obj rfl

theorem State.invs_rootDropped : (s.rootDropped p).fab.invs = s.fab.invs :=
  (State.invs_dropOwn ..).trans (s.invs_dirCleared p)

theorem State.nextInv_rootDropped : (s.rootDropped p).fab.nextInv = s.fab.nextInv :=
  (State.nextInv_dropOwn ..).trans (s.nextInv_dirCleared p)

variable {s p}

theorem State.expected_eq_zero : s.expected p = 0 ↔ (s.blockDevs p.ctx).any (fun d => bit (s.readers p) (groupOf d)) = false := by
  rw [State.expected, List.length_eq_zero_iff, List.filter_eq_nil_iff, List.any_eq_false]

theorem State.blockDevs_dirCleared : (s.dirCleared p).blockDevs p.ctx = s.blockDevs p.ctx := by
  unfold State.dirCleared
  split <;> rfl

theorem State.targetInvalidate_of_unread (h : s.readers p = 0 ∨ s.expected p = 0) :
    s.targetInvalidate p = ((s.dirCleared p).invDoneTo p.ctx p.src (pTag p)).taken p := by
  have hnone : s.readers p = 0 ∨
      (((s.dirCleared p).blockDevs p.ctx).filter (fun x => bit (s.readers p) (groupOf x))).length = 0 := by
    rwa [State.blockDevs_dirCleared]
  exact congrArg (State.taken · p) (if_pos hnone)

/-- The tree of a request at its root. -/
def State.treeOf (s : State) (p : Packet) : InvTree :=
  ⟨s.fab.nextInv, s.me, p.ctx, pAddr p, p.field 128 64, s.readers p, (s.invLinks p.ctx s.me (s.readers p)).length,
    ofBool (bit (s.readers p) (groupOf s.me)), s.expected p, p.src, pTag p⟩

theorem State.targetInvalidate_of_read (hgroups : s.readers p ≠ 0) (hexpect : s.expected p ≠ 0) :
    s.targetInvalidate p = (if s.invLinks p.ctx s.me (s.readers p) = [] then (s.rootDropped p).invDoneTo p.ctx p.src (pTag p)
      else (s.rootDropped p).treeBegun p s.fab.nextInv (s.treeOf p)).taken p := by
  have hsome : ¬(s.readers p = 0 ∨
      (((s.dirCleared p).blockDevs p.ctx).filter (fun x => bit (s.readers p) (groupOf x))).length = 0) := by
    rw [State.blockDevs_dirCleared]
    exact not_or.mpr ⟨hgroups, hexpect⟩
  have hme := State.me_of_obj (s.obj_dirCleared p)
  have hmer := State.me_of_obj (s.obj_rootDropped p)
  have hmen := State.me_of_obj (((s.rootDropped p).obj_noteArrived p).trans (s.obj_rootDropped p))
  have hlinks := State.invLinks_congr (s.obj_rootDropped p) p.ctx s.me (s.readers p)
  have heq : s.targetInvalidate p = (if (s.rootDropped p).invLinks p.ctx (s.rootDropped p).me (s.readers p) = [] then
      (s.rootDropped p).invDoneTo p.ctx p.src (pTag p)
    else (s.rootDropped p).treeBegun p (s.rootDropped p).fab.nextInv
      ⟨(s.rootDropped p).fab.nextInv, ((s.rootDropped p).noteArrived p).me, p.ctx, pAddr p, p.field 128 64, s.readers p,
        ((s.rootDropped p).invLinks p.ctx (s.rootDropped p).me (s.readers p)).length,
        ofBool (bit (s.readers p) (groupOf (s.dirCleared p).me)),
        (((s.dirCleared p).blockDevs p.ctx).filter (fun x => bit (s.readers p) (groupOf x))).length, p.src, pTag p⟩).taken p :=
    congrArg (State.taken · p) (if_neg hsome)
  rw [heq, hmer, hmen, hme, hlinks, s.nextInv_rootDropped p, State.blockDevs_dirCleared]
  rfl

end

/-! The commands of an invalidation (R347). -/

theorem powered_off {s : State} (h : s.power.rails = false) (t : State) : powered s t = .next s :=
  congrArg _ (if_neg (by simp [h]))

section
variable {s u : State} {p : Packet}

/-- A holder answered. -/
theorem State.invDoneTo_answers {L : List Part} (h : Runs L s u) (hL : within L [.fab, .router] = true) (c holder tag : Nat) (p : Packet) :
    ((u.invDoneTo c holder tag).taken p).Sent 3 holder 0x1B ∧ ((u.invDoneTo c holder tag).taken p).fab = u.fab ∧
      Frame [.fab, .router] s ((u.invDoneTo c holder tag).taken p) :=
  ⟨(u.sent_invDoneTo c holder tag).taken p, (u.invDoneTo_runs c holder tag).same .fab rfl,
    (Runs.comp (State.taken_runs ..) rfl (Runs.comp (State.invDoneTo_runs ..) rfl (h.mono hL))).frame⟩

/-- An acknowledgement sent up. -/
theorem State.invAckUp_sends {L : List Part} (h : Runs L s u) (hL : within L [.fab, .router] = true) (hobj : u.obj = s.obj)
    (c root id count a n : Nat) (p : Packet) :
    ((u.invAckUp c root id count a n).taken p).Sent 4 (s.treeParent c root) 0x21 ∧
      ((u.invAckUp c root id count a n).taken p).fab = u.fab ∧
      Frame [.fab, .router] s ((u.invAckUp c root id count a n).taken p) := by
  refine ⟨?_, (u.invAckUp_runs c root id count a n).same .fab rfl,
    (Runs.comp (State.taken_runs ..) rfl (Runs.comp (State.invAckUp_runs ..) rfl (h.mono hL))).frame⟩
  rw [← State.treeParent_congr hobj]
  exact (u.sent_invAckUp c root id count a n).taken p

variable (hp : p.wf = true) (hrails : s.power.rails = true)
include hp

theorem invalidation_off (hrails : s.power.rails = false) :
    ∀ c ∈ [Instr.targetInvalidate p, .inv p, .invAck p], exec c s = .next s := by
  simp only [List.forall_mem_cons, List.not_mem_nil, false_imp_iff, implies_true, and_true]
  exact ⟨(need_of hp _).trans (powered_off hrails _), (need_of hp _).trans (powered_off hrails _),
    (need_of hp _).trans (powered_off hrails _)⟩

include hrails

theorem exec_targetInvalidate : exec (.targetInvalidate p) s = .next (s.targetInvalidate p) :=
  (need_of hp _).trans (powered_of hrails _)

theorem targetInvalidate_answers (h : s.readers p = 0 ∨
      (s.blockDevs p.ctx).any (fun d => bit (s.readers p) (groupOf d)) = false ∨ s.invLinks p.ctx s.me (s.readers p) = []) :
    ∃ t, exec (.targetInvalidate p) s = .next t ∧ t.Sent 3 p.src 0x1B ∧ t.fab.invs = s.fab.invs ∧
      (s.readers p = 0 → t.fab.lines = s.fab.lines) ∧ Frame [.fab, .router] s t := by
  rw [← State.expected_eq_zero] at h
  by_cases hread : s.readers p = 0 ∨ s.expected p = 0
  case pos =>
    obtain ⟨hsent, hfab, hframe⟩ := State.invDoneTo_answers (s.dirCleared_runs p) rfl p.ctx p.src (pTag p) p
    refine ⟨_, (exec_targetInvalidate hp hrails).trans (congrArg _ (State.targetInvalidate_of_unread hread)), hsent, ?_,
      fun _ => ?_, hframe⟩
    · rw [hfab, s.invs_dirCleared p]
    · rw [hfab, s.lines_dirCleared p]
  case neg =>
    obtain ⟨hgroups, hexpect⟩ := not_or.mp hread
    have hlinks : s.invLinks p.ctx s.me (s.readers p) = [] := (h.resolve_left hgroups).resolve_left hexpect
    have heq := State.targetInvalidate_of_read hgroups hexpect
    rw [if_pos hlinks] at heq
    obtain ⟨hsent, hfab, hframe⟩ := State.invDoneTo_answers (s.rootDropped_runs p) rfl p.ctx p.src (pTag p) p
    refine ⟨_, (exec_targetInvalidate hp hrails).trans (congrArg _ heq), hsent, ?_, fun h0 => absurd h0 hgroups, hframe⟩
    rw [hfab, s.invs_rootDropped p]

theorem targetInvalidate_begins (hgroups : s.readers p ≠ 0)
    (hread : (s.blockDevs p.ctx).any (fun d => bit (s.readers p) (groupOf d)) = true)
    (hlinks : s.invLinks p.ctx s.me (s.readers p) ≠ []) :
    ∃ t y, exec (.targetInvalidate p) s = .next t ∧ t.fab.invs = s.fab.invs ++ [y] ∧ y.id = s.fab.nextInv ∧
      y.root = s.me ∧ y.children = (s.invLinks p.ctx s.me (s.readers p)).length ∧ y.holder = p.src ∧ y.tag = pTag p ∧
      t.Sent 4 s.me 0x20 ∧
      (bit (s.readers p) (groupOf s.me) = true → ∀ l ∈ t.fab.lines,
        ¬(l.dest = s.me ∧ pAddr p ≤ l.addr ∧ l.addr < pAddr p + p.field 128 64)) ∧
      (p.field 15 1 = 1 → twf 0 s.fab.dir = true → tget 0 t.fab.dir (p.field 48 12) = 0) ∧ Frame [.fab, .router] s t := by
  have hexpect : s.expected p ≠ 0 := fun h => by
    rw [State.expected_eq_zero.mp h] at hread
    exact nomatch hread
  have heq := State.targetInvalidate_of_read hgroups hexpect
  rw [if_neg hlinks] at heq
  have hme := State.me_of_obj (s.obj_dirCleared p)
  refine ⟨_, s.treeOf p, (exec_targetInvalidate hp hrails).trans (congrArg _ heq), ?_, rfl, rfl, rfl, rfl, rfl, ?_, fun hown => ?_,
    fun hclear hdir => ?_, ?_⟩
  · rw [State.taken_fab, State.invs_treeBegun, s.invs_rootDropped p]
  · rw [← State.me_of_obj (s.obj_rootDropped p)]
    exact ((s.rootDropped p).sent_treeBegun p _ _).taken p
  · rw [State.taken_fab, State.lines_treeBegun, ← hme]
    exact State.lines_dropOwn _ _ _ _ _ (by rwa [hme])
  · rw [State.taken_fab, State.dir_treeBegun, State.rootDropped, State.dir_dropOwn]
    exact State.dir_dirCleared hdir hclear
  · exact (Runs.comp (State.taken_runs ..) rfl
      (Runs.comp (State.treeBegun_runs ..) rfl ((s.rootDropped_runs p).mono rfl))).frame

theorem inv_acknowledges (hsrc : p.src ≠ s.me) (hleaf : s.treeLinks p.ctx p.src = []) :
    ∃ t, exec (.inv p) s = .next t ∧ t.Sent 4 (s.treeParent p.ctx p.src) 0x21 ∧ t.fab.invs = s.fab.invs ∧
      (bit (Config.invGroups p.src (p.field 16 16)) (groupOf s.me) = true → ∀ l ∈ t.fab.lines,
        ¬(l.dest = p.src ∧ pAddr p ≤ l.addr ∧ l.addr < pAddr p + p.field 128 64)) ∧ Frame [.fab, .router] s t := by
  have hruns := s.dropOwn_runs p.src (Config.invGroups p.src (p.field 16 16)) (pAddr p) (p.field 128 64)
  have hobj := hruns.same .obj rfl
  have hnone : ∀ g, s.invLinks p.ctx p.src g = [] := fun g => by rw [State.invLinks, hleaf, List.filter_nil]
  have heq : s.inv p = ((s.dropOwn p.src (Config.invGroups p.src (p.field 16 16)) (pAddr p) (p.field 128 64)).invAckUp p.ctx p.src
      (p.field 16 16) (ofBool (bit (Config.invGroups p.src (p.field 16 16)) (groupOf s.me))) (pAddr p) (p.field 128 64)).taken p :=
    (if_neg hsrc).trans (congrArg (State.taken · p) (if_pos ((State.invLinks_congr hobj ..).trans (hnone _))))
  obtain ⟨hsent, hfab, hframe⟩ := State.invAckUp_sends hruns rfl hobj p.ctx p.src (p.field 16 16)
    (ofBool (bit (Config.invGroups p.src (p.field 16 16)) (groupOf s.me))) (pAddr p) (p.field 128 64) p
  refine ⟨_, (need_of hp _).trans ((powered_of hrails _).trans (congrArg _ heq)), hsent, ?_, fun hown => ?_, hframe⟩
  · rw [hfab, State.invs_dropOwn]
  · rw [hfab]
    exact State.lines_dropOwn _ _ _ _ _ hown

/-! An acknowledgement from a child (R347). -/

/-- A tree with a child's acknowledgement counted. -/
def InvTree.counted (y : InvTree) (n : Nat) : InvTree := { y with children := y.children - 1, count := y.count + n }

/-- The trees of the module become these. -/
def State.setInvs (s : State) (ys : List InvTree) : State := s.setFab { s.fab with invs := ys }

omit hp hrails in
theorem State.invAck_one {y : InvTree} (hone : s.fab.invs = [y]) (hid : y.id = p.field 16 16) (hctx : y.ctx = p.ctx)
    (haddr : y.addr = pAddr p) (hlen : y.len = p.field 128 64) (hcount : 0 < p.field 32 16) :
    s.invAck p = (if 0 < y.children - 1 then s.setInvs [y.counted (p.field 32 16)]
      else if y.root = s.me then
        if y.count + p.field 32 16 = y.expect then (s.setInvs []).invDoneTo y.ctx y.holder y.tag else s.setInvs []
      else (s.setInvs []).invAckUp y.ctx y.root y.id (y.count + p.field 32 16) y.addr y.len).taken p := by
  have hsame : (y.id == p.field 16 16 && y.ctx == p.ctx && y.addr == pAddr p && y.len == p.field 128 64) = true := by
    simp [hid, hctx, haddr, hlen]
  unfold State.invAck
  rw [hone, if_neg (Nat.ne_of_gt hcount)]
  simp only [List.filter_cons, hsame, if_true, List.filter_nil, List.head?_cons, dropFirst, List.nil_append]
  rfl

theorem invAck_counts {y : InvTree} (hone : s.fab.invs = [y]) (hid : y.id = p.field 16 16) (hctx : y.ctx = p.ctx)
    (haddr : y.addr = pAddr p) (hlen : y.len = p.field 128 64) (hcount : 0 < p.field 32 16) :
    (1 < y.children →
      ∃ t, exec (.invAck p) s = .next t ∧
        t.fab.invs = [{ y with children := y.children - 1, count := y.count + p.field 32 16 }] ∧
        t.router = (s.taken p).router ∧ Frame [.fab, .router] s t) ∧
    (y.children = 1 → y.root = s.me → y.count + p.field 32 16 = y.expect →
      ∃ t, exec (.invAck p) s = .next t ∧ t.fab.invs = [] ∧ t.Sent 3 y.holder 0x1B ∧ Frame [.fab, .router] s t) ∧
    (y.children = 1 → y.root ≠ s.me →
      ∃ t, exec (.invAck p) s = .next t ∧ t.fab.invs = [] ∧ t.Sent 4 (s.treeParent y.ctx y.root) 0x21 ∧
        Frame [.fab, .router] s t) := by
  have hexec : exec (.invAck p) s = .next (s.invAck p) := (need_of hp _).trans (powered_of hrails _)
  rw [State.invAck_one hone hid hctx haddr hlen hcount] at hexec
  have hruns : ∀ ys, Runs [.fab] s (s.setInvs ys) := fun ys => State.setFab_runs ..
  refine ⟨fun hmore => ?_, fun hlast hroot hexpect => ?_, fun hlast hroot => ?_⟩
  · rw [if_pos (by omega)] at hexec
    exact ⟨_, hexec, rfl, rfl, (Runs.comp (State.taken_runs ..) rfl ((hruns _).mono rfl)).frame⟩
  · rw [if_neg (by omega), if_pos hroot, if_pos hexpect] at hexec
    obtain ⟨hsent, hfab, hframe⟩ := State.invDoneTo_answers (hruns []) rfl y.ctx y.holder y.tag p
    exact ⟨_, hexec, congrArg Fab.invs hfab, hsent, hframe⟩
  · rw [if_neg (by omega), if_neg hroot] at hexec
    obtain ⟨hsent, hfab, hframe⟩ := State.invAckUp_sends (hruns []) rfl rfl y.ctx y.root y.id (y.count + p.field 32 16) y.addr
      y.len p
    exact ⟨_, hexec, congrArg Fab.invs hfab, hsent, hframe⟩

end

/-- Settles O56. -/
theorem invalidationsReachEveryReader : Obligations.InvalidationsReachEveryReader := by
  unfold Obligations.InvalidationsReachEveryReader
  intro s p _ hp
  exact ⟨invalidation_off hp, fun hrails => ⟨targetInvalidate_answers hp hrails, targetInvalidate_begins hp hrails,
    inv_acknowledges hp hrails, fun y => invAck_counts hp hrails⟩⟩

end Sys2Proof.Machine
end

