-- ==== Sys2Proof/Proofs/Signals.lean ====
section
/-!
PROOF. What a signal can do (R187 to R194), and what its counters rest on.
-/

namespace Sys2Proof.Machine

/-- A relation of states that holds of each thing that a signal does: a counter written, a flag of SYNC_STATUS, a step failed,
a packet sent. -/
structure SignalClosed (R : State → State → Prop) : Prop where
  refl : ∀ s, R s s
  trans : ∀ {s t u}, R s t → R t u → R s u
  setCtr : ∀ s i v, R s (s.setCtr i v)
  syncFlag : ∀ s b p, R s (s.syncFlag b p)
  latch : ∀ s c r, R s (s.latch c r)
  inject : ∀ s port p, R s (s.inject port p)
  capInject : ∀ s port p, R s (s.capInject port p)

namespace SignalClosed

variable {R : State → State → Prop} (h : SignalClosed R)
include h

theorem misuse (s : State) (p : Nat) : R s (s.misuse p) := h.trans (h.setCtr ..) (h.syncFlag ..)

theorem ctrAdd (s : State) (p k : Nat) : R s (s.ctrAdd p k) := by
  unfold State.ctrAdd
  dsimp only
  split
  · exact h.trans (h.setCtr ..) (h.syncFlag ..)
  · exact h.setCtr ..

theorem mapFault (s : State) (c p : Nat) : R s (s.mapFault c p) := h.trans (h.syncFlag ..) (h.latch ..)

theorem syncSend (s : State) (c : Nat) (e : SyncEntry) (arrive : Bool) (k : Nat) : R s (s.syncSend c e arrive k) := by
  unfold State.syncSend
  split
  case isFalse => exact h.capInject ..
  case isTrue =>
    split
    · exact h.inject ..
    · exact h.mapFault ..

section
variable {issue : Nat → State → State} (hissue : ∀ n t, R t (issue n t))
include hissue

theorem completeRounds (p fuel : Nat) (s : State) : R s (completeRounds issue p fuel s) := by
  induction fuel generalizing s with
  | zero => exact h.refl s
  | succ n ih =>
    unfold Machine.completeRounds
    dsimp only
    split
    case isTrue => exact h.trans (h.setCtr ..) (h.trans (h.setCtr ..) (h.trans (hissue ..) (ih _)))
    case isFalse => exact h.refl s

theorem arriveAt (fuel p r : Nat) (s : State) : R s (arriveAt issue fuel p r s).1 := by
  unfold Machine.arriveAt
  dsimp only
  split
  · exact h.misuse ..
  · split
    · exact h.trans (h.setCtr ..) (h.completeRounds hissue ..)
    · split
      · exact h.setCtr ..
      · exact h.misuse ..

end

theorem syncSignal (fuel c id k : Nat) (s : State) : R s (syncSignal fuel c id k s) := by
  induction fuel generalizing c id k s with
  | zero => exact h.refl s
  | succ n ih =>
    unfold Machine.syncSignal
    dsimp only
    split
    · exact h.mapFault ..
    · split
      · split
        · exact h.ctrAdd ..
        · exact h.syncSend ..
      · split
        · refine h.arriveAt (fun m t => ?_) ..
          split
          · exact h.refl t
          · exact ih ..
        · exact h.syncSend ..

theorem signal (s : State) (c id k : Nat) : R s (s.signal c id k) := h.syncSignal ..

theorem signalWord (s : State) (c w : Nat) : R s (s.signalWord c w) := by
  unfold State.signalWord
  split
  · exact h.refl s
  · exact h.signal ..

end SignalClosed

/-! A signal and the fabric: only the requests to a hot destination can wait there (R190, R355). -/

theorem signalClosed_beside : SignalClosed fun s t => t.fab.beside = s.fab.beside where
  refl _ := rfl
  trans h k := k.trans h
  setCtr _ _ _ := rfl
  syncFlag _ _ _ := rfl
  latch s c r := congrArg Fab.beside ((s.latch_runs c r).same .fab rfl)
  inject _ _ _ := rfl
  capInject := State.beside_capInject

/-! A signal and the steps: it can fail one, and no more (R187). -/

/-- A step but for what records its failure. -/
def StepCtx.lasting (x : StepCtx) : StepCtx := { x with latch := none, latchNext := none, failSent := false }

/-- From `s` to `t` every step stands as it was, but for what records its failure, and its context has its steps enabled still. -/
def StepsStand (s t : State) : Prop :=
  ValsOk s → StepsOk s →
    ValsOk t ∧ StepsOk t ∧ ∀ c, (s.stepsOn c = true → t.stepsOn c = true) ∧ (t.stp c).lasting = (s.stp c).lasting

theorem StepsStand.refl (s : State) : StepsStand s s := fun hv hs => ⟨hv, hs, fun _ => ⟨id, rfl⟩⟩

theorem StepsStand.trans {s t u : State} (h : StepsStand s t) (k : StepsStand t u) : StepsStand s u := fun hv hs => by
  obtain ⟨hv', hs', hst⟩ := h hv hs
  obtain ⟨hv'', hs'', htu⟩ := k hv' hs'
  exact ⟨hv'', hs'', fun c => ⟨fun hon => (htu c).1 ((hst c).1 hon), (htu c).2.trans (hst c).2⟩⟩

/-- What leaves the objects and the steps alone. -/
theorem StepsStand.of_same {s t : State} (hobj : t.obj = s.obj) (hsteps : t.steps = s.steps) : StepsStand s t := by
  intro hv hs
  refine ⟨by rwa [ValsOk, hobj], by rwa [StepsOk, hsteps], fun c => ⟨fun hon => ?_, congrArg _ (State.stp_congr hsteps c)⟩⟩
  rwa [State.stepsOn, State.ov_congr hobj]

/-- What writes one object so that the bit which enables a step stays. -/
theorem StepsStand.setOv (s : State) (id v : Nat) (h : bit (s.ov id) 30 = true → bit v 30 = true) :
    StepsStand s (s.setOv id v) := by
  intro hv hs
  refine ⟨keysFrom_tset _ _ _ hv, hs, fun c => ⟨fun hon => ?_, rfl⟩⟩
  rw [State.stepsOn, State.ov_setOv hv]
  split
  case isTrue hid =>
    rw [State.stepsOn, hid] at hon
    exact h hon
  case isFalse => exact hon

theorem StepsStand.of_kept {s t : State} (hobj : t.obj = s.obj) (h : StpKept StepCtx.lasting s t) : StepsStand s t := by
  intro hv hs
  refine ⟨by rwa [ValsOk, hobj], h.canonical hs, fun c => ⟨fun hon => ?_, h.same hs c⟩⟩
  rwa [State.stepsOn, State.ov_congr hobj]

theorem State.failVote_lasts (s : State) (c r : Nat) : StpKept StepCtx.lasting s (s.failVote c r) := by
  unfold State.failVote
  dsimp only
  split
  case isTrue => exact .refl s
  case isFalse => exact .comp (.modStp fun _ => rfl) (.of_steps rfl)

theorem State.latch_lasts (s : State) (c r : Nat) : StpKept StepCtx.lasting s (s.latch c r) := by
  unfold State.latch
  dsimp only
  split
  case isFalse => exact .refl s
  case isTrue =>
    split
    · exact .comp (State.failVote_lasts ..) (.modStp fun _ => rfl)
    · exact .comp (State.failVote_lasts ..) (.modStp fun _ => rfl)
    · exact .modStp fun _ => rfl
    · exact .refl s

theorem StepsStand.latch (s : State) (c r : Nat) : StepsStand s (s.latch c r) :=
  .of_kept ((s.latch_runs c r).same .obj rfl) (s.latch_lasts c r)

theorem bit_or_of_left {v : Nat} (w i : Nat) (h : bit v i = true) : bit (v ||| w) i = true := by
  rw [bit_eq_testBit] at h ⊢
  rw [Nat.testBit_or, h, Bool.true_or]

theorem StepsStand.syncFlag (s : State) (b p : Nat) : StepsStand s (s.syncFlag b p) := by
  refine .setOv _ _ _ fun h => bit_or_of_left _ _ ?_
  split
  · rwa [bit_setBits_of_outside _ _ (by omega)]
  · exact h

theorem signalClosed_stands : SignalClosed StepsStand where
  refl := .refl
  trans := .trans
  setCtr _ _ _ := .of_same rfl rfl
  syncFlag := .syncFlag
  latch := .latch
  inject _ _ _ := .of_same rfl rfl
  capInject s port p := .of_same ((s.capInject_runs port p).same .obj rfl) ((s.capInject_runs port p).same .steps rfl)

/-! The counters after a signal rest on the counters and the sync map alone. -/

/-- Two states with the same counters and the same sync map. -/
def SyncSame (s t : State) : Prop := t.sync = s.sync ∧ t.obj.syncMap = s.obj.syncMap

namespace SyncSame

variable {s t : State} (h : SyncSame s t)

theorem of_same {s' t' : State} (hs : s'.sync = s.sync) (hso : s'.obj.syncMap = s.obj.syncMap) (ht : t'.sync = t.sync)
    (hto : t'.obj.syncMap = t.obj.syncMap) (h : SyncSame s t) : SyncSame s' t' :=
  ⟨(ht.trans h.1).trans hs.symm, (hto.trans h.2).trans hso.symm⟩

include h

theorem ctr (i : Nat) : t.ctr i = s.ctr i := by rw [State.ctr, h.1, State.ctr]

theorem syncEntry (c id : Nat) : t.syncEntry c id = s.syncEntry c id := by rw [State.syncEntry, h.2, State.syncEntry]

theorem barExpected (p : Nat) : t.barExpected p = s.barExpected p := by rw [State.barExpected, h.ctr, State.barExpected]

theorem barRound (p : Nat) : t.barRound p = s.barRound p := by rw [State.barRound, h.ctr, State.barRound]

theorem barCur (p : Nat) : t.barCur p = s.barCur p := by rw [State.barCur, h.ctr, State.barCur]

theorem barDist (p r : Nat) : t.barDist p r = s.barDist p r := by rw [State.barDist, h.barRound, State.barDist]

theorem setCtr (i v : Nat) : SyncSame (s.setCtr i v) (t.setCtr i v) := by
  refine ⟨?_, h.2⟩
  rw [State.setCtr_sync, State.setCtr_sync, h.ctr, h.1]

theorem misuse (p : Nat) : SyncSame (s.misuse p) (t.misuse p) := by
  have hset := h.setCtr p (s.ctr p ||| 2 ^ 15)
  rw [State.misuse, State.misuse, h.ctr]
  exact ⟨hset.1, hset.2⟩

theorem ctrAdd (p k : Nat) : SyncSame (s.ctrAdd p k) (t.ctrAdd p k) := by
  unfold State.ctrAdd
  rw [h.ctr]
  dsimp only
  split
  · have hset := h.setCtr p 0xFFFF
    exact ⟨hset.1, hset.2⟩
  · exact h.setCtr ..

end SyncSame

theorem State.syncMap_latch (s : State) (c r : Nat) : (s.latch c r).obj.syncMap = s.obj.syncMap :=
  congrArg Objects.syncMap ((s.latch_runs c r).same .obj rfl)

theorem State.syncMap_mapFault (s : State) (c p : Nat) : (s.mapFault c p).obj.syncMap = s.obj.syncMap :=
  State.syncMap_latch ..

theorem State.sync_mapFault (s : State) (c p : Nat) : (s.mapFault c p).sync = s.sync := (s.mapFault_runs c p).same .sync rfl

theorem State.syncMap_syncSend (s : State) (c : Nat) (e : SyncEntry) (arrive : Bool) (k : Nat) :
    (s.syncSend c e arrive k).obj.syncMap = s.obj.syncMap := by
  unfold State.syncSend
  split
  case isFalse => exact congrArg Objects.syncMap ((State.capInject_runs ..).same .obj rfl)
  case isTrue =>
    split
    · rfl
    · exact State.syncMap_mapFault ..

namespace SyncSame

variable {s t : State} (h : SyncSame s t)
include h

theorem mapFault (c p : Nat) : SyncSame (s.mapFault c p) (t.mapFault c p) :=
  h.of_same (s.sync_mapFault c p) (s.syncMap_mapFault c p) (t.sync_mapFault c p) (t.syncMap_mapFault c p)

theorem syncSend (c : Nat) (e : SyncEntry) (arrive : Bool) (k : Nat) :
    SyncSame (s.syncSend c e arrive k) (t.syncSend c e arrive k) :=
  h.of_same ((s.syncSend_runs c e arrive k).same .sync rfl) (s.syncMap_syncSend c e arrive k)
    ((t.syncSend_runs c e arrive k).same .sync rfl) (t.syncMap_syncSend c e arrive k)

section
variable {issue issue' : Nat → State → State} (hissue : ∀ n s t, SyncSame s t → SyncSame (issue n s) (issue' n t))
include hissue

theorem completeRounds (p fuel : Nat) : SyncSame (completeRounds issue p fuel s) (completeRounds issue' p fuel t) := by
  induction fuel generalizing s t with
  | zero => exact h
  | succ n ih =>
    unfold Machine.completeRounds
    dsimp only
    rw [h.barRound, h.barCur, h.barExpected, h.ctr]
    split
    · exact ih (hissue _ _ _ ((h.setCtr _ _).setCtr _ _))
    · exact h

theorem arriveAt (fuel p r : Nat) : SyncSame (arriveAt issue fuel p r s).1 (arriveAt issue' fuel p r t).1 := by
  unfold Machine.arriveAt
  dsimp only
  rw [h.barDist, h.barRound, h.barCur, h.barExpected, h.ctr, h.ctr]
  split
  · exact h.misuse p
  · split
    · exact (h.setCtr _ _).completeRounds hissue p fuel
    · split
      · exact h.setCtr _ _
      · exact h.misuse p

end

omit h in
theorem syncSignal {s t : State} (h : SyncSame s t) (fuel c id k : Nat) :
    SyncSame (syncSignal fuel c id k s) (syncSignal fuel c id k t) := by
  induction fuel generalizing c id k s t with
  | zero => exact h
  | succ n ih =>
    unfold Machine.syncSignal
    rw [h.syncEntry]
    dsimp only
    split
    · exact h.mapFault ..
    · split
      · split
        · exact h.ctrAdd ..
        · exact h.syncSend ..
      · split
        · refine h.arriveAt (fun m u v huv => ?_) ..
          split
          · exact huv
          · rw [huv.syncEntry]
            exact ih huv ..
        · exact h.syncSend ..

theorem signal (c id k : Nat) : SyncSame (s.signal c id k) (t.signal c id k) := h.syncSignal ..

theorem signalWord (c w : Nat) : SyncSame (s.signalWord c w) (t.signalWord c w) := by
  unfold State.signalWord
  split
  · exact h
  · exact h.signal ..

end SyncSame

end Sys2Proof.Machine
end

