-- ==== Sys2Proof/Proofs/Completions.lean ====
section
/-!
PROOF. A fabric command ends: its ring slot, DONE_COUNT, and the step that a failure fails (R338).
-/

namespace Sys2Proof.Machine

/-! Bytes beside a store. -/

theorem State.memByte_putBytes_apart (bs : List Byte) {s : State} {a i : Nat} (h : i < a ∨ a + bs.length ≤ i) :
    (s.putBytes a bs).memByte i = s.memByte i := by
  induction bs generalizing s a with
  | nil => rfl
  | cons b bs ih =>
    rw [List.length_cons] at h
    have hput : (s.putByte a b).memByte i = s.memByte i := by
      unfold State.putByte
      split
      · exact tget_tset_of_ne _ _ _ (by omega)
      · rfl
    rw [State.putBytes, ih (by omega), hput]

theorem State.memByte_storeDev_apart {s : State} {a i : Nat} {bs : List Byte} (h : i < a ∨ a + bs.length ≤ i) :
    (s.storeDev a bs).memByte i = s.memByte i := by
  rw [State.memByte, State.bytes_storeDev_eq_putBytes, ← State.memByte, State.memByte_putBytes_apart bs h]

theorem State.anyUnmapped_congr {s t : State} (h : t.mem.gddr = s.mem.gddr) (a n : Nat) : t.anyUnmapped a n = s.anyUnmapped a n := by
  unfold State.anyUnmapped
  simp only [State.mapped_congr h]

theorem State.anyUnmapped_of_le {s : State} {a m n : Nat} (hmn : m ≤ n) (h : s.anyUnmapped a n = false) :
    s.anyUnmapped a m = false := by
  rw [State.anyUnmapped, List.any_eq_false] at h ⊢
  intro i hi
  exact h i (List.mem_range.mpr (Nat.lt_of_lt_of_le (List.mem_range.mp hi) hmn))

/-! Objects beside the flags of a signal and of the fabric. -/

theorem signalClosed_ov {id : Nat} (h : id ≠ syncStatusId) : SignalClosed fun s t => t.ov id = s.ov id where
  refl _ := rfl
  trans h k := k.trans h
  setCtr _ _ _ := rfl
  syncFlag s _ _ := State.ov_setOv_of_ne s _ h.symm
  latch s c r := State.ov_congr ((s.latch_runs c r).same .obj rfl) id
  inject _ _ _ := rfl
  capInject s port p := State.ov_congr ((s.capInject_runs port p).same .obj rfl) id

theorem State.bit_fabFlag {s : State} (h : ValsOk s) (b dev : Nat) : bit ((s.fabFlag b dev).ov fabStatusId) b = true := by
  rw [State.fabFlag, State.ov_modOv h, if_pos rfl, bit_or_pow]

/-- An object below those that enable the steps is written. -/
theorem StepsStand.setOv_of_lt (s : State) {id : Nat} (v : Nat) (h : id < stepCfgId) : StepsStand s (s.setOv id v) := by
  intro hv hs
  refine ⟨keysFrom_tset _ _ _ hv, hs, fun c => ⟨fun hon => ?_, rfl⟩⟩
  rwa [State.stepsOn, State.ov_setOv_of_ne s _ (by omega : id ≠ stepCfgId + c)]

theorem StepsStand.fabFlag (s : State) (b dev : Nat) : StepsStand s (s.fabFlag b dev) := .setOv_of_lt s _ (by decide)

theorem StepsStand.urnFlag (s : State) (b h : Nat) : StepsStand s (s.urnFlag b h) := .setOv_of_lt s _ (by decide)

/-! A command ends (R338). -/

/-- What a completion rests on: from `s` to `u` the steps stand, the counters, the sync map and the map of memory are as they were. -/
structure BeforeEnd (s u : State) : Prop where
  wf : u.wf = true
  same : SyncSame s u
  stands : StepsStand s u
  gddr : u.mem.gddr = s.mem.gddr

theorem BeforeEnd.of_runs {L : List Part} {s u : State} (hw : s.wf = true) (h : Runs L s u)
    (hL : [Part.sync, .obj, .steps, .mem].all (fun p => !L.contains p) = true) : BeforeEnd s u where
  wf := h.wf hw
  same := ⟨h.same .sync (by simp_all), congrArg Objects.syncMap (h.same .obj (by simp_all))⟩
  stands := .of_same (h.same .obj (by simp_all)) (h.same .steps (by simp_all))
  gddr := congrArg Mem.gddr (h.same .mem (by simp_all))

/-- RESULT and STATUS stand in a ring slot. -/
def State.endStored (s : State) (slot status result : Nat) : State :=
  s.storeDev (slot + 0x30) (toLE 8 result ++ toLE 8 status)

/-- DONE_COUNT has gone to DONE_ID. -/
def State.endSignalled (s : State) (c slot v status result : Nat) : State :=
  if fcDoneCount v = 0 then s.endStored slot status result
  else (s.endStored slot status result).signal c (fcDoneId v) (fcDoneCount v)

theorem State.fabEnd_eq (s : State) (c slot v status result : Nat) : s.fabEnd c slot v status result =
    if status = 0 then s.endSignalled c slot v status result else (s.endSignalled c slot v status result).latch c 1 := rfl

/-- The command has left those in flight. -/
def State.cmdGone (s : State) (k : FabCmd) : State :=
  s.setFab { s.fab with cmds := s.fab.cmds.filter (fun x => x.tag != k.tag) }

theorem State.cmdGone_runs (s : State) (k : FabCmd) : Runs [.fab] s (s.cmdGone k) := State.setFab_runs ..

theorem signalClosed_mem : SignalClosed fun s t => t.mem = s.mem where
  refl _ := rfl
  trans h k := k.trans h
  setCtr _ _ _ := rfl
  syncFlag _ _ _ := rfl
  latch s c r := (s.latch_runs c r).same .mem rfl
  inject _ _ _ := rfl
  capInject s port p := (s.capInject_runs port p).same .mem rfl

section
variable (s : State) (c slot v status result : Nat)

theorem State.endStored_runs : Runs [.mem] s (s.endStored slot status result) := State.storeDev_runs ..

theorem SignalClosed.endSignalled {R : State → State → Prop} (h : SignalClosed R) :
    R (s.endStored slot status result) (s.endSignalled c slot v status result) := by
  unfold State.endSignalled
  split
  · exact h.refl _
  · exact h.signal ..

theorem SignalClosed.fabEnd {R : State → State → Prop} (h : SignalClosed R) :
    R (s.endStored slot status result) (s.fabEnd c slot v status result) := by
  rw [State.fabEnd_eq]
  split
  · exact h.endSignalled ..
  · exact h.trans (h.endSignalled ..) (h.latch ..)

theorem State.beside_fabEnd : (s.fabEnd c slot v status result).fab.beside = s.fab.beside :=
  (signalClosed_beside.fabEnd s c slot v status result).trans
    (congrArg Fab.beside ((s.endStored_runs slot status result).same .fab rfl))

theorem State.ov_fabEnd {id : Nat} (h : id ≠ syncStatusId) : (s.fabEnd c slot v status result).ov id = s.ov id :=
  ((signalClosed_ov h).fabEnd s c slot v status result).trans
    (State.ov_congr ((s.endStored_runs slot status result).same .obj rfl) id)

theorem State.mem_fabEnd : (s.fabEnd c slot v status result).mem = (s.endStored slot status result).mem :=
  signalClosed_mem.fabEnd ..

theorem State.memByte_fabEnd_apart {i : Nat} (h : i < slot + 0x30 ∨ slot + 0x40 ≤ i) :
    (s.fabEnd c slot v status result).memByte i = s.memByte i := by
  rw [State.memByte, State.mem_fabEnd, ← State.memByte, State.endStored, State.memByte_storeDev_apart]
  rw [List.length_append, length_toLE, length_toLE]
  omega

theorem State.sync_fabEnd : (s.fabEnd c slot v status result).sync = (s.endSignalled c slot v status result).sync := by
  rw [State.fabEnd_eq]
  split
  · rfl
  · exact (State.latch_runs ..).same .sync rfl

end

theorem State.memByte_fabComplete_apart (s : State) (k : FabCmd) (status result : Nat) {i : Nat}
    (h : i < k.slot + 0x30 ∨ k.slot + 0x40 ≤ i) : (s.fabComplete k status result).memByte i = s.memByte i :=
  (s.cmdGone k).memByte_fabEnd_apart _ _ _ _ _ h

/-- A failed step has its latch set (R254). -/
theorem Failed.latch {s u : State} (h : StepsStand s u) (hv : ValsOk s) (hst : StepsOk s) (c r : Nat) : s.Failed (u.latch c r) c := by
  intro hon hrun
  obtain ⟨-, hok, hc⟩ := h hv hst
  have hrun' : (u.stp c).st = .running := (congrArg StepCtx.st (hc c).2).trans hrun
  obtain ⟨⟨b, hb⟩, -⟩ := State.stp_latch hok ((hc c).1 hon) hrun' r
  exact ⟨_, congrArg StepCtx.latch hb⟩

section
variable {s u : State} {status result : Nat} (h : BeforeEnd s u) (hw : s.wf = true)
include h

theorem BeforeEnd.cmdGone (k : FabCmd) : BeforeEnd s (u.cmdGone k) where
  wf := (u.cmdGone_runs k).wf h.wf
  same := h.same
  stands := h.stands.trans (.of_same rfl rfl)
  gddr := h.gddr

theorem BeforeEnd.memByte_fabEnd (c : Nat) {slot : Nat} (v : Nat) (hmap : s.anyUnmapped (slot + 0x30) 16 = false) {i : Nat} {b : Byte}
    (hb : (toLE 8 result ++ toLE 8 status)[i]? = some b) : (u.fabEnd c slot v status result).memByte (slot + 0x30 + i) = b := by
  rw [State.memByte, State.mem_fabEnd, ← State.memByte, State.endStored]
  refine State.memByte_storeDev_inside h.wf ?_ hb
  rw [State.anyUnmapped_congr h.gddr, List.length_append, length_toLE, length_toLE]
  exact hmap

theorem BeforeEnd.sync_fabEnd (c slot v : Nat) : (u.fabEnd c slot v status result).sync =
    (if fcDoneCount v = 0 then s else s.signal c (fcDoneId v) (fcDoneCount v)).sync := by
  have hsync : (u.endStored slot status result).sync = u.sync := (u.endStored_runs slot status result).same .sync rfl
  have hobj : (u.endStored slot status result).obj = u.obj := (u.endStored_runs slot status result).same .obj rfl
  have hstored : SyncSame s (u.endStored slot status result) :=
    ⟨hsync.trans h.same.1, (congrArg Objects.syncMap hobj).trans h.same.2⟩
  rw [State.sync_fabEnd]
  unfold State.endSignalled
  split
  · exact hstored.1
  · exact (hstored.signal ..).1

include hw

theorem BeforeEnd.failed_fabEnd (c slot v : Nat) (hbad : status ≠ 0) : s.Failed (u.fabEnd c slot v status result) c := by
  rw [State.fabEnd_eq, if_neg hbad]
  refine Failed.latch ?_ (State.keysFrom_vals hw) (State.twf_steps hw) _ _
  refine (h.stands.trans (.of_same ?_ ?_)).trans (signalClosed_stands.endSignalled u c slot v status result)
  · exact (u.endStored_runs slot status result).same .obj rfl
  · exact (u.endStored_runs slot status result).same .steps rfl

theorem BeforeEnd.completes (k : FabCmd) (status result : Nat) :
    s.Completes (u.fabComplete k status result) k status result := by
  refine ⟨fun x hx => ?_, fun hmap i b hb => (h.cmdGone k).memByte_fabEnd _ _ hmap hb, (h.cmdGone k).sync_fabEnd ..,
    (h.cmdGone k).failed_fabEnd hw _ _ _⟩
  have hcmds : (u.fabComplete k status result).fab.cmds = u.fab.cmds.filter (fun x => x.tag != k.tag) :=
    congrArg Fab.cmds ((u.cmdGone k).beside_fabEnd k.ctx k.slot k.word status result)
  rw [hcmds] at hx
  exact bne_iff_ne.mp (List.mem_filter.mp hx).2

end

section
variable {s : State} {k : FabCmd} {status result : Nat}

/-- What runs after a completion leaves it so, where it brings no new command, and no counter, byte or step changes. -/
theorem State.Completes.after {t t' : State} (h : s.Completes t k status result)
    (hcmds : t'.fab.cmds.map (·.tag) = t.fab.cmds.map (·.tag)) (hmem : t'.mem = t.mem) (hsync : t'.sync = t.sync)
    (hsteps : t'.steps = t.steps) : s.Completes t' k status result := by
  obtain ⟨hgone, hslot, hdone, hfail⟩ := h
  refine ⟨fun x hx => ?_, fun hmap i b hb => ?_, hsync.trans hdone, fun hbad hon hrun => ?_⟩
  · have htag : x.tag ∈ t.fab.cmds.map (·.tag) := hcmds ▸ List.mem_map_of_mem hx
    obtain ⟨y, hy, hxy⟩ := List.mem_map.mp htag
    rw [← hxy]
    exact hgone y hy
  · rw [State.memByte, hmem]
    exact hslot hmap i b hb
  · rw [State.stp_congr hsteps]
    exact hfail hbad hon hrun

end

/-! Held requests leave, and no command comes or goes (R342). -/

/-- The TAGs of the commands in flight. -/
def State.tags (s : State) : List Nat := s.fab.cmds.map (·.tag)

theorem State.tags_fabSent (s : State) (tag : Nat) : (s.fabSent tag).tags = s.tags := by
  refine (List.map_map ..).trans (List.map_congr_left fun x _ => ?_)
  by_cases h : x.tag = tag <;> simp [h]

theorem State.cmds_capInject (s : State) (port : Nat) (p : Packet) : (s.capInject port p).fab.cmds = s.fab.cmds := by
  have h := congrArg Fab.cmds (s.beside_capInject port p)
  exact h

theorem State.tags_congr {s t : State} (h : t.fab.cmds = s.fab.cmds) : t.tags = s.tags := by
  rw [State.tags, h, State.tags]

theorem State.cmds_atomSend (s : State) (c : FabCmd) : (s.atomSend c).fab.cmds = s.fab.cmds :=
  (State.cmds_capInject ..).trans rfl

theorem State.tags_fabGo (s : State) (c : FabCmd) : (s.fabGo c).tags = s.tags := by
  unfold State.fabGo
  split
  · exact (State.tags_fabSent ..).trans (State.tags_congr (s.cmds_atomSend c))
  · split
    · exact (State.tags_congr (State.cmds_capInject ..)).trans (s.tags_fabSent c.tag)
    · rfl

theorem State.tags_fabFlow (s : State) : s.fabFlow.tags = s.tags := by
  unfold State.fabFlow
  refine foldl_keeps (g := State.tags) (fun t c => ?_) _ _
  split
  · rfl
  · exact t.tags_fabGo c

section
variable {s t : State} {k : FabCmd} {status result : Nat}

theorem State.Completes.fabFlow (h : s.Completes t k status result) : s.Completes t.fabFlow k status result :=
  h.after t.tags_fabFlow (t.fabFlow_runs.same .mem rfl) (t.fabFlow_runs.same .sync rfl) (t.fabFlow_runs.same .steps rfl)

theorem State.Completes.taken (h : s.Completes t k status result) (p : Packet) : s.Completes (t.taken p) k status result :=
  h.after rfl rfl rfl rfl

end

end Sys2Proof.Machine
end

