-- ==== Sys2Proof/Proofs/Responses.lean ====
section
/-!
PROOF. Responses and timeouts end their commands (R338, R339, R341, R350, R352).
-/

namespace Sys2Proof.Machine

theorem State.fabFind_congr {s t : State} (h : t.fab.cmds = s.fab.cmds) (dest tag : Nat) (ops : List Nat) :
    t.fabFind dest tag ops = s.fabFind dest tag ops := by
  rw [State.fabFind, h, State.fabFind]

theorem State.tileFind_congr {s t : State} (h : t.fab.tileReqs = s.fab.tileReqs) (dest tag : Nat) (write : Bool) :
    t.tileFind dest tag write = s.tileFind dest tag write := by
  rw [State.tileFind, h, State.tileFind]

/-! A response with HOT (R355). -/

theorem State.beside_capFlow (s : State) : s.capFlow.fab.beside = s.fab.beside :=
  foldl_keeps (g := fun s : State => s.fab.beside) (f := fun (s : State) (q : Nat × Packet) => s.capInject q.1 q.2)
    (fun s q => s.beside_capInject q.1 q.2) s.fab.capped (s.setFab { s.fab with capped := [] })

theorem State.beside_hotResp (s : State) (p : Packet) : (s.hotResp p).fab.beside = s.fab.beside := by
  unfold State.hotResp
  split
  · exact (State.beside_capFlow _).trans rfl
  · rfl

theorem BeforeEnd.refl {s : State} (hw : s.wf = true) : BeforeEnd s s := ⟨hw, ⟨rfl, rfl⟩, .refl s, rfl⟩

theorem BeforeEnd.trans {s t u : State} (h : BeforeEnd s t) (k : BeforeEnd t u) : BeforeEnd s u where
  wf := k.wf
  same := ⟨k.same.1.trans h.same.1, k.same.2.trans h.same.2⟩
  stands := h.stands.trans k.stands
  gddr := k.gddr.trans h.gddr

theorem BeforeEnd.fabFlag {s : State} (hw : s.wf = true) (b dev : Nat) : BeforeEnd s (s.fabFlag b dev) where
  wf := (s.fabFlag_runs b dev).wf hw
  same := ⟨rfl, rfl⟩
  stands := .fabFlag s b dev
  gddr := rfl

theorem BeforeEnd.hotResp {s : State} (hw : s.wf = true) (p : Packet) : BeforeEnd s (s.hotResp p) := by
  unfold State.hotResp
  split
  · have hflow := BeforeEnd.of_runs hw ((Runs.comp (State.capFlow_runs _) rfl ((State.setFab_runs s
      { s.fab with hot := hotEnter p.src s.fab.hot }).mono rfl)) : Runs [.fab, .router] s _) rfl
    exact hflow.trans (.fabFlag hflow.wf ..)
  · exact .refl hw

theorem BeforeEnd.permAck {s : State} (hw : s.wf = true) (tag : Nat) : BeforeEnd s (s.permAck tag) :=
  .of_runs hw (s.permAck_runs tag) rfl

/-! READ_DATA of a command (R338, R345). -/

section
variable (s : State) (p : Packet) (k : FabCmd)

/-- The bytes of a response that a READ asked for. -/
def landing : List Byte := ((p.body.drop 16).drop (if k.cached then gOff (fcGaddr k.word) % 128 else 0)).take (fcBytes k.word)

/-- The data of a READ has landed, and the lines of a cached one are installed. -/
def State.readLanded : State :=
  if k.cached = true ∧ respStatus (p.field 8 4) = 0 then
    (s.fcLand k.word (landing p k)).l2Install k.tag 0 p.src (gOff (fcGaddr k.word)) (fcBytes k.word) (p.body.drop 16)
  else s.fcLand k.word (landing p k)

theorem State.readLanded_runs : Runs [.mem, .urn, .fab] s (s.readLanded p k) :=
  .ite (fun _ => Runs.comp (State.l2Install_runs ..) rfl ((State.fcLand_runs ..).mono rfl))
    fun _ => (State.fcLand_runs ..).mono rfl

theorem State.mem_readLanded : (s.readLanded p k).mem = (s.fcLand k.word (landing p k)).mem := by
  unfold State.readLanded
  split
  · exact (State.l2Install_runs ..).same .mem rfl
  · rfl

theorem State.gddr_fcLand (v : Nat) (bs : List Byte) : (s.fcLand v bs).mem.gddr = s.mem.gddr := by
  unfold State.fcLand
  split
  · rfl
  · exact s.gddr_storeDev ..

variable {s p k}

theorem BeforeEnd.readLanded (hw : s.wf = true) : BeforeEnd s (s.readLanded p k) where
  wf := (s.readLanded_runs p k).wf hw
  same := ⟨(s.readLanded_runs p k).same .sync rfl, congrArg Objects.syncMap ((s.readLanded_runs p k).same .obj rfl)⟩
  stands := .of_same ((s.readLanded_runs p k).same .obj rfl) ((s.readLanded_runs p k).same .steps rfl)
  gddr := (congrArg Mem.gddr (s.mem_readLanded p k)).trans (s.gddr_fcLand ..)

theorem State.memByte_readLanded (hw : s.wf = true) (hlexch : fcLexch k.word = false)
    (hmap : s.anyUnmapped (fcLaddr k.word) (fcBytes k.word) = false) {i : Nat} {b : Byte} (hb : (landing p k)[i]? = some b) :
    (s.readLanded p k).memByte (fcLaddr k.word + i) = b := by
  have hland : s.fcLand k.word (landing p k) = s.storeDev (fcLaddr k.word) (landing p k) := if_neg (by simp [hlexch])
  rw [State.memByte, State.mem_readLanded, hland, ← State.memByte]
  exact State.memByte_storeDev_inside hw (State.anyUnmapped_of_le (List.length_take_le ..) hmap) hb

theorem State.readData_command (h : s.fabFind p.src (p.field 32 32) [1] = some k) :
    s.readData p = ((s.readLanded p k).fabComplete k (respStatus (p.field 8 4)) 0).taken p := by
  unfold State.readData State.readLanded landing
  rw [h]
  dsimp only
  cases hc : k.cached
  case false => rfl
  case true =>
    by_cases hst : respStatus (p.field 8 4) = 0
    · simp [hst]
    · simp [hst]

variable (hw : s.wf = true) (hrails : s.power.rails = true) (hp : p.wf = true)
include hw hrails hp

theorem readData_completes (h : s.fabFind p.src (p.field 32 32) [1] = some k) :
    ∃ t, exec (.readData p) s = .next t ∧ s.Completes t k (respStatus (p.field 8 4)) 0 ∧
      (fcLexch k.word = false → s.anyUnmapped (fcLaddr k.word) (fcBytes k.word) = false →
        (fcLaddr k.word + fcBytes k.word ≤ k.slot + 0x30 ∨ k.slot + 0x40 ≤ fcLaddr k.word) →
        ∀ i b, (landing p k)[i]? = some b → t.memByte (fcLaddr k.word + i) = b) ∧
      Frame [.sync, .mem, .urn, .fab, .router, .steps, .obj] s t := by
  refine ⟨_, (need_of hp _).trans ((powered_of hrails _).trans (congrArg _ (State.readData_command h))),
    ((BeforeEnd.readLanded hw).completes hw k _ 0).taken p, fun hlexch hmap hapart i b hb => ?_, ?_⟩
  · have hi : i < fcBytes k.word :=
      Nat.lt_of_lt_of_le (List.getElem?_eq_some_iff.mp hb).1 (List.length_take_le ..)
    refine (State.memByte_fabComplete_apart _ _ _ _ (by omega)).trans ?_
    exact State.memByte_readLanded hw hlexch hmap hb
  · exact (Runs.comp (State.taken_runs ..) rfl
      (Runs.comp (State.fabComplete_runs ..) rfl ((s.readLanded_runs p k).mono rfl))).frame

/-! WRITE_ACK, INV_DONE and ATOMIC_RESP of a command (R338). -/

omit hw hrails hp in
/-- A command completes, and the requests that waited for it follow. -/
theorem BeforeEnd.ends {L : List Part} {u : State} (h : BeforeEnd s u) (hruns : Runs L s u)
    (hL : within [.sync, .mem, .fab, .router, .steps, .obj] L = true) (hw : s.wf = true) (k : FabCmd) (status result : Nat) :
    s.Completes (u.fabComplete k status result).fabFlow k status result ∧
      (u.fabComplete k status result).fabFlow.ov fabStatusId = u.ov fabStatusId ∧
      Runs L s (u.fabComplete k status result).fabFlow :=
  ⟨(h.completes hw k status result).fabFlow, (State.ov_congr ((State.fabFlow_runs _).same .obj rfl) _).trans
      ((State.ov_fabEnd _ _ _ _ _ _ (by decide)).trans (State.ov_congr ((u.cmdGone_runs k).same .obj rfl) _)),
    Runs.comp (State.fabFlow_runs _) (within_trans rfl hL) (Runs.comp (State.fabComplete_runs ..) hL hruns)⟩

theorem writeAck_completes (h : s.fabFind p.src (p.field 32 32) [2, 3] = some k) :
    ∃ t, exec (.writeAck p) s = .next t ∧
      s.Completes t k (if respStatus (p.field 8 4) = 0 then k.local_ else respStatus (p.field 8 4)) 0 ∧
      Frame [.sync, .mem, .fab, .router, .steps, .red, .obj] s t := by
  obtain ⟨u, hu⟩ : ∃ u, u = (s.hotResp p).permAck (p.field 32 32) := ⟨_, rfl⟩
  have hbefore : BeforeEnd s u := hu ▸ (BeforeEnd.hotResp hw p).trans (.permAck (BeforeEnd.hotResp hw p).wf _)
  have hruns : Runs [.sync, .mem, .fab, .router, .steps, .red, .obj] s u :=
    hu ▸ Runs.comp (State.permAck_runs ..) rfl ((State.hotResp_runs ..).mono rfl)
  have hcmds : u.fab.cmds = s.fab.cmds := by
    have hbeside := congrArg Fab.cmds (s.beside_hotResp p)
    rw [hu]
    exact hbeside
  have heq : s.writeAck p = ((u.fabComplete k (if respStatus (p.field 8 4) = 0 then k.local_ else respStatus (p.field 8 4)) 0
      ).fabFlow).taken p := by
    unfold State.writeAck
    dsimp only
    rw [← hu, State.fabFind_congr hcmds, h]
  obtain ⟨hdone, -, hrun⟩ := hbefore.ends hruns rfl hw k (if respStatus (p.field 8 4) = 0 then k.local_ else respStatus (p.field 8 4)) 0
  exact ⟨_, (need_of hp _).trans ((powered_of hrails _).trans (congrArg _ heq)), hdone.taken p,
    (Runs.comp (State.taken_runs ..) rfl hrun).frame⟩

theorem invDone_completes (h : s.fabFind p.src (p.field 32 32) [5] = some k) :
    ∃ t, exec (.invDone p) s = .next t ∧ s.Completes t k 0 0 ∧ Frame [.sync, .mem, .fab, .router, .steps, .obj] s t := by
  have heq : s.invDone p = ((s.fabComplete k 0 0).fabFlow).taken p := by
    unfold State.invDone
    rw [h]
  obtain ⟨hdone, -, hrun⟩ := (BeforeEnd.refl hw).ends (L := [.sync, .mem, .fab, .router, .steps, .obj]) (Runs.refl s) rfl hw k 0 0
  exact ⟨_, (need_of hp _).trans ((powered_of hrails _).trans (congrArg _ heq)), hdone.taken p,
    (Runs.comp (State.taken_runs ..) rfl hrun).frame⟩

omit hrails hp in
/-- An atomic ends with its command. -/
theorem BeforeEnd.atomEnd {u : State} (h : BeforeEnd s u) (hruns : Runs [.sync, .mem, .fab, .router, .steps, .obj] s u)
    {a : AtomOut} (hfind : u.fabFind a.dest a.tag [4] = some k) (status result : Nat) :
    s.Completes (u.atomEnd a status result) k status result ∧
      (u.atomEnd a status result).ov fabStatusId = u.ov fabStatusId ∧
      Runs [.sync, .mem, .fab, .router, .steps, .obj] s (u.atomEnd a status result) := by
  obtain ⟨v, hv⟩ : ∃ v, v = u.setFab { u.fab with
    atoms := u.fab.atoms.filter (fun x => !(x.dest == a.dest && x.seq == a.seq)) } := ⟨_, rfl⟩
  have hvruns : Runs [.fab] u v := hv ▸ State.setFab_runs ..
  have hcmds : v.fab.cmds = u.fab.cmds := hv ▸ rfl
  have heq : u.atomEnd a status result = (v.fabComplete k status result).fabFlow := by
    unfold State.atomEnd
    dsimp only
    rw [← hv, State.fabFind_congr hcmds, hfind]
  rw [heq]
  obtain ⟨hdone, hflag, hrun⟩ := (h.trans (.of_runs h.wf hvruns rfl)).ends (Runs.comp hvruns rfl hruns) rfl hw k status result
  exact ⟨hdone, hflag.trans (State.ov_congr (hvruns.same .obj rfl) _), hrun⟩

theorem atomicResp_completes {a : AtomOut} (ha : s.atomFind p.src (p.field 32 32) = some a) (hbusy : p.field 8 4 ≠ 2)
    (h : s.fabFind a.dest a.tag [4] = some k) :
    ∃ t, exec (.atomicResp p) s = .next t ∧ s.Completes t k (respStatus (p.field 8 4)) (p.field 64 64) ∧
      Frame [.sync, .mem, .fab, .router, .steps, .obj] s t := by
  have hbeside := s.beside_hotResp p
  have hcmds : (s.hotResp p).fab.cmds = s.fab.cmds := by
    have hc := congrArg Fab.cmds hbeside
    exact hc
  have hatoms : (s.hotResp p).fab.atoms = s.fab.atoms := by
    have hc := congrArg Fab.atoms hbeside
    exact hc
  have heq : s.atomicResp p = ((s.hotResp p).atomEnd a (respStatus (p.field 8 4)) (p.field 64 64)).taken p := by
    unfold State.atomicResp
    dsimp only
    rw [hatoms, show (s.fab.atoms.filter (fun a => a.dest == p.src && a.seq == p.field 32 32)).head? = some a from ha]
    dsimp only
    rw [if_neg hbusy]
  obtain ⟨hdone, -, hrun⟩ := (BeforeEnd.hotResp hw p).atomEnd hw ((s.hotResp_runs p).mono rfl)
    ((State.fabFind_congr hcmds ..).trans h) (respStatus (p.field 8 4)) (p.field 64 64)
  exact ⟨_, (need_of hp _).trans ((powered_of hrails _).trans (congrArg _ heq)), hdone.taken p,
    (Runs.comp (State.taken_runs ..) rfl hrun).frame⟩

end

theorem responses_off {s : State} {p : Packet} (hp : p.wf = true) (hrails : s.power.rails = false) :
    ∀ c ∈ [Instr.readData p, .writeAck p, .invDone p, .atomicResp p], exec c s = .next s := by
  simp only [List.forall_mem_cons, List.not_mem_nil, false_imp_iff, implies_true, and_true]
  exact ⟨(need_of hp _).trans (powered_off hrails _), (need_of hp _).trans (powered_off hrails _),
    (need_of hp _).trans (powered_off hrails _), (need_of hp _).trans (powered_off hrails _)⟩

/-! A tile's request is answered (R335). -/

/-- The record of a tile's request has its answer. -/
def State.reqAnswered (s : State) (r : TileReq) (bytes : List Byte) (cause : Nat) : State :=
  s.setFab { s.fab with
    tileReqs := s.fab.tileReqs.map (fun x => if x.tag = r.tag then { x with got := some bytes, cause := cause } else x) }

theorem State.tileReqs_reqAnswered {s : State} {r : TileReq} (h : s.fab.tileReqs = [r]) (bytes : List Byte) (cause : Nat) :
    (s.reqAnswered r bytes cause).fab.tileReqs = [{ r with got := some bytes, cause := cause }] := by
  have heq : (s.reqAnswered r bytes cause).fab.tileReqs =
      s.fab.tileReqs.map (fun x => if x.tag = r.tag then { x with got := some bytes, cause := cause } else x) := rfl
  rw [heq, h, List.map_cons, List.map_nil, if_pos rfl]

/-- No tile waits for the acknowledgements of its writes. -/
theorem State.tileAnswer_unawaited {s : State} {r : TileReq} (htiles : ∀ x ∈ (s.core r.core).tiles, x.stage ≠ .acking)
    (htxe : ∀ x ∈ s.txe.busy, x.acking = false) (bytes : List Byte) (cause : Nat) :
    s.tileAnswer r bytes cause = s.reqAnswered r bytes cause := by
  have hnone : ((s.core r.core).tiles.filter (fun x => x.ctx == r.ctx && x.seq == r.seq && x.stage == .acking)).head? = none := by
    rw [List.head?_eq_none_iff, List.filter_eq_nil_iff]
    intro x hx
    simp [htiles x hx]
  have hbusy : (s.txe.busy.filter (fun x => x.acking && x.ctx == r.ctx && x.seq == r.seq)).head? = none := by
    rw [List.head?_eq_none_iff, List.filter_eq_nil_iff]
    intro x hx
    simp [htxe x hx]
  have hack : (s.reqAnswered r bytes cause).ackX r.ctx r.seq = s.reqAnswered r bytes cause := by
    unfold State.ackX
    rw [show (s.reqAnswered r bytes cause).txe = s.txe from rfl]
    dsimp only
    rw [hbusy]
  unfold State.tileAnswer
  rw [← State.reqAnswered]
  dsimp only
  rw [show (s.reqAnswered r bytes cause).core r.core = s.core r.core from rfl, hnone]
  dsimp only
  rw [hack, ite_self]

theorem State.tileReqs_l2Install (s : State) (tag die dev a n : Nat) (data : List Byte) :
    (s.l2Install tag die dev a n data).fab.tileReqs = s.fab.tileReqs := by
  unfold State.l2Install
  refine foldl_keeps (g := fun s : State => s.fab.tileReqs) (fun t i => ?_) _ _
  split <;> rfl

section
variable {s : State} {p : Packet} {r : TileReq} (hone : s.fab.tileReqs = [r])
  (htiles : ∀ x ∈ (s.core r.core).tiles, x.stage ≠ .acking) (htxe : ∀ x ∈ s.txe.busy, x.acking = false)
include hone htiles htxe

theorem readData_answers (hrails : s.power.rails = true) (hp : p.wf = true) (hnone : s.fabFind p.src (p.field 32 32) [1] = none)
    (hfind : s.tileFind p.src (p.field 32 32) false = some r) :
    ∃ t, exec (.readData p) s = .next t ∧
      t.fab.tileReqs = [{ r with got := some ((p.body.drop 16).take r.len), cause := respStatus (p.field 8 4) }] ∧
      t.cores = s.cores ∧ Frame [.fab, .router] s t := by
  obtain ⟨u, hu⟩ : ∃ u, u = if r.cached = true ∧ respStatus (p.field 8 4) = 0 then
    s.l2Install r.tag (l2Die r.core) p.src r.addr r.len (p.body.drop 16) else s := ⟨_, rfl⟩
  have hruns : Runs [.fab] s u := hu ▸ .ite (fun _ => State.l2Install_runs ..) fun _ => .refl s
  have hreqs : u.fab.tileReqs = [r] := by
    rw [hu, ← hone]
    split
    · exact State.tileReqs_l2Install ..
    · rfl
  have hcore : u.core r.core = s.core r.core := State.core_congr (hruns.same .cores rfl) _
  have heq : s.readData p = (u.reqAnswered r ((p.body.drop 16).take r.len) (respStatus (p.field 8 4))).taken p := by
    rw [← State.tileAnswer_unawaited (hcore ▸ htiles) ((hruns.same .txe rfl : u.txe = s.txe) ▸ htxe)]
    unfold State.readData
    rw [hnone, hfind]
    dsimp only
    rw [hu]
  have hanswered : Runs [.fab] u (u.reqAnswered r ((p.body.drop 16).take r.len) (respStatus (p.field 8 4))) := State.setFab_runs ..
  exact ⟨_, (need_of hp _).trans ((powered_of hrails _).trans (congrArg _ heq)), State.tileReqs_reqAnswered hreqs _ _,
    (hruns.trans hanswered).same .cores rfl, (Runs.comp (State.taken_runs ..) rfl ((hruns.trans hanswered).mono rfl)).frame⟩

theorem fabTimeout_answers (hs : ValsOk s) {tag : Nat} (hcmds : s.fab.cmds.filter (fun x => x.tag == tag) = [])
    (htag : r.tag = tag) (hgot : r.got = none) (hlate : r.at_ + 8000 * s.ov atomicRetryId ≤ s.clk) :
    ∃ (t : State) (bs : List Byte), exec (.fabTimeout tag) s = .next t ∧
      t.fab.tileReqs = [{ r with got := some bs, cause := 7 }] ∧ bit (t.ov fabStatusId) 5 = true ∧ Frame [.fab, .obj] s t := by
  obtain ⟨bs, hbs⟩ : ∃ bs, bs = if r.write then [] else
    (List.range r.len).map (fun i => Config.peerByte r.tag r.dest (r.addr + i)) := ⟨_, rfl⟩
  have hfilter : (s.fab.tileReqs.filter (fun r => r.tag == tag && r.got.isNone)).head? = some r := by
    rw [hone, List.filter_cons_of_pos (by simp [htag, hgot])]
    rfl
  have heq : s.fabTimeout tag = (s.fabFlag 5 r.dest).reqAnswered r bs 7 := by
    have hunawaited := State.tileAnswer_unawaited (s := s.fabFlag 5 r.dest) (r := r) htiles htxe bs 7
    rw [← hunawaited]
    unfold State.fabTimeout
    rw [hcmds, hfilter]
    dsimp only
    rw [List.head?_nil]
    dsimp only
    rw [if_pos (decide_eq_true hlate), hbs]
  exact ⟨_, bs, congrArg Host.Outcome.next heq, State.tileReqs_reqAnswered (s := s.fabFlag 5 r.dest) hone _ _,
    State.bit_fabFlag hs 5 r.dest, (Runs.comp (State.setFab_runs ..) rfl ((State.fabFlag_runs ..).mono rfl)).frame⟩

end

/-! Atomics sent again (R350, R352). -/

section
variable {s : State} {a : AtomOut} (hone : s.fab.atoms = [a])
include hone

theorem State.atomFind_one : s.atomFind a.dest a.seq = some a := by
  rw [State.atomFind, hone, List.filter_cons_of_pos (by simp)]
  rfl

theorem State.ackSeq_one : s.ackSeq a.dest = a.seq := by
  rw [State.ackSeq, hone, List.filter_cons_of_pos (by simp)]

theorem State.atomAgain_one {b : AtomOut} (hdest : b.dest = a.dest) (hseq : b.seq = a.seq) (hpkt : b.pkt = a.pkt) :
    (s.atomAgain b).fab.atoms = [{ b with sentAt := s.clk, pkt := againPkt a.pkt a.seq }] ∧
      (s.atomAgain b).Waiting (againPkt a.pkt a.seq) := by
  have hack : s.ackSeq b.dest = a.seq := by rw [hdest, s.ackSeq_one hone]
  unfold State.atomAgain
  dsimp only
  rw [hack, hpkt]
  refine ⟨?_, State.waiting_capInject ..⟩
  have hatoms := congrArg Fab.atoms (State.beside_capInject (s.setFab { s.fab with
    atoms := s.fab.atoms.map (fun x => if x.dest = b.dest ∧ x.seq = b.seq then
      { b with sentAt := s.clk, pkt := againPkt a.pkt a.seq } else x)
    lastAck := tset (0, 0) s.fab.lastAck b.dest (a.seq, s.clk) }) hubFabric (againPkt a.pkt a.seq))
  refine hatoms.trans ?_
  show s.fab.atoms.map _ = _
  rw [hone, List.map_cons, List.map_nil, if_pos ⟨hdest.symm, hseq.symm⟩]

theorem atomicRetryTimeout_sends (hwaits : a.waits = false) (hfew : a.timeouts < 7)
    (hlate : a.sentAt + 1000 * s.ov atomicRetryId ≤ s.clk) :
    ∃ t, exec (.atomicRetryTimeout a.dest a.seq) s = .next t ∧
      t.fab.atoms = [{ a with timeouts := a.timeouts + 1, sentAt := s.clk, pkt := againPkt a.pkt a.seq }] ∧
      t.Waiting (againPkt a.pkt a.seq) ∧ Frame [.fab, .router] s t := by
  have heq : s.atomTimeout a.dest a.seq = s.atomAgain { a with timeouts := a.timeouts + 1 } := by
    unfold State.atomTimeout
    rw [State.atomFind_one hone]
    dsimp only
    rw [if_neg (not_or.mpr ⟨by simp [hwaits], Nat.not_lt.mpr hlate⟩), if_neg (by omega)]
  obtain ⟨hatoms, hwaiting⟩ := State.atomAgain_one hone (b := { a with timeouts := a.timeouts + 1 }) rfl rfl rfl
  exact ⟨_, congrArg Host.Outcome.next heq, hatoms, hwaiting, (State.atomAgain_runs ..).frame⟩

theorem atomicBusyRetry_sends (hwaits : a.waits = true) (hlate : a.sentAt + a.busy ≤ s.clk) :
    ∃ t, exec (.atomicBusyRetry a.dest a.seq) s = .next t ∧
      t.fab.atoms = [{ a with waits := false, sentAt := s.clk, pkt := againPkt a.pkt a.seq }] ∧
      t.Waiting (againPkt a.pkt a.seq) ∧ Frame [.fab, .router] s t := by
  have heq : s.atomBusyRetry a.dest a.seq = s.atomAgain { a with waits := false } := by
    unfold State.atomBusyRetry
    rw [State.atomFind_one hone]
    dsimp only
    rw [if_pos ⟨hwaits, hlate⟩]
  obtain ⟨hatoms, hwaiting⟩ := State.atomAgain_one hone (b := { a with waits := false }) rfl rfl rfl
  exact ⟨_, congrArg Host.Outcome.next heq, hatoms, hwaiting, (State.atomAgain_runs ..).frame⟩

theorem atomicRetryTimeout_abandons (hw : s.wf = true) {k : FabCmd} (hwaits : a.waits = false) (hmany : 7 ≤ a.timeouts)
    (hlate : a.sentAt + 1000 * s.ov atomicRetryId ≤ s.clk) (h : s.fabFind a.dest a.tag [4] = some k) :
    ∃ t, exec (.atomicRetryTimeout a.dest a.seq) s = .next t ∧ s.Completes t k 6 0 ∧ bit (t.ov fabStatusId) 2 = true ∧
      Frame [.sync, .mem, .fab, .router, .steps, .obj] s t := by
  have heq : s.atomTimeout a.dest a.seq = (s.fabFlag 2 a.dest).atomEnd a 6 0 := by
    unfold State.atomTimeout
    rw [State.atomFind_one hone]
    dsimp only
    rw [if_neg (not_or.mpr ⟨by simp [hwaits], Nat.not_lt.mpr hlate⟩), if_pos hmany]
  obtain ⟨hdone, hflag, hrun⟩ := (BeforeEnd.fabFlag hw 2 a.dest).atomEnd hw ((State.fabFlag_runs ..).mono rfl) h 6 0
  refine ⟨_, congrArg Host.Outcome.next heq, hdone, ?_, hrun.frame⟩
  rw [hflag]
  exact State.bit_fabFlag (State.keysFrom_vals hw) 2 a.dest

/-- A BUSY response (R352). -/
theorem atomicResp_busy (hw : s.wf = true) {p : Packet} (hrails : s.power.rails = true) (hp : p.wf = true)
    (hdest : a.dest = p.src) (hseq : a.seq = p.field 32 32) (hbusy : p.field 8 4 = 2) :
    ∃ t, exec (.atomicResp p) s = .next t ∧
      t.fab.atoms = [⟨a.dest, a.seq, a.tag, a.pkt, s.clk, a.timeouts,
        if a.busy = 0 then 1000 else min 64000 (2 * a.busy), true⟩] ∧
      t.fab.cmds = s.fab.cmds ∧ bit (t.ov fabStatusId) 1 = true ∧ Frame [.fab, .router, .obj] s t := by
  obtain ⟨u, hu⟩ : ∃ u, u = s.hotResp p := ⟨_, rfl⟩
  have hbeside : u.fab.beside = s.fab.beside := hu ▸ s.beside_hotResp p
  have hatoms : u.fab.atoms = [a] := (congrArg Fab.atoms hbeside).trans hone
  have hcmds : u.fab.cmds = s.fab.cmds := by
    have h := congrArg Fab.cmds hbeside
    exact h
  have hruns : Runs [.fab, .router, .obj] s u := hu ▸ s.hotResp_runs p
  have hclk : u.clk = s.clk := hruns.same .clk rfl
  obtain ⟨v, hv⟩ : ∃ v, v = u.setFab { u.fab with atoms := [⟨a.dest, a.seq, a.tag, a.pkt, s.clk, a.timeouts,
    if a.busy = 0 then 1000 else min 64000 (2 * a.busy), true⟩] } := ⟨_, rfl⟩
  have heq : s.atomicResp p = (v.fabFlag 1 p.src).taken p := by
    unfold State.atomicResp
    dsimp only
    rw [← hu, hatoms, List.filter_cons_of_pos (by simp [hdest, hseq]), List.head?_cons]
    dsimp only
    rw [if_pos hbusy, List.map_cons, if_pos ⟨rfl, rfl⟩, List.map_nil, hclk, hv]
  have hvruns : Runs [.fab, .router, .obj] s v := Runs.comp (hv ▸ State.setFab_runs ..) rfl hruns
  refine ⟨_, (need_of hp _).trans ((powered_of hrails _).trans (congrArg _ heq)), ?_, ?_,
    State.bit_fabFlag (State.keysFrom_vals (hvruns.wf hw)) 1 p.src,
    (Runs.comp (State.taken_runs ..) rfl (Runs.comp (State.fabFlag_runs ..) rfl hvruns)).frame⟩
  · rw [hv]
    rfl
  · rw [hv]
    exact hcmds

end

/-- A command without a response times out (R339). -/
theorem fabTimeout_completes {s : State} (hw : s.wf = true) {tag : Nat} {k : FabCmd}
    (hfind : (s.fab.cmds.filter (fun x => x.tag == tag)).head? = some k) (hop : fcOp k.word ≠ 4) (hheld : k.held = none)
    (hlate : k.at_ + 8000 * s.ov atomicRetryId ≤ s.clk) :
    ∃ t, exec (.fabTimeout tag) s = .next t ∧ s.Completes t k 5 0 ∧ bit (t.ov fabStatusId) 5 = true ∧
      Frame [.sync, .mem, .fab, .router, .steps, .obj] s t := by
  have heq : s.fabTimeout tag = ((s.fabFlag 5 k.dest).fabComplete k 5 0).fabFlow := by
    unfold State.fabTimeout
    rw [hfind]
    dsimp only
    rw [if_pos ⟨hop, hheld, decide_eq_true hlate⟩]
  obtain ⟨hdone, hflag, hrun⟩ := (BeforeEnd.fabFlag hw 5 k.dest).ends
    (L := [.sync, .mem, .fab, .router, .steps, .obj]) ((State.fabFlag_runs ..).mono rfl) rfl hw k 5 0
  refine ⟨_, congrArg Host.Outcome.next heq, hdone, ?_, hrun.frame⟩
  rw [hflag]
  exact State.bit_fabFlag (State.keysFrom_vals hw) 5 k.dest

/-! The last WRITE of a tile is acknowledged (R108). -/

/-- A tile without a cause to name leaves its core with nothing but its signals (R105, R108). -/
theorem State.tileEnd_plain {s : State} {core : Nat} {x : Tile} (hstatus : x.status = 0) (hcauses : x.causes = [])
    (hfrees : x.frees = []) (hflags : x.flags = 0) (hcpl : dCplAlways x.desc = false) :
    ∃ u, u = (((s.dropTileReqs core x.ctx x.seq).release core x).signalWord x.ctx (dSignal x.desc 0)).signalWord x.ctx
        (dSignal x.desc 1) ∧
      s.tileEnd core x = if dType x.desc = 4 then u.modStp x.ctx (fun p => { p with updates := p.updates + 1 }) else u := by
  refine ⟨_, rfl, ?_⟩
  have hresult : x.result = (stOk, 0) := by
    rw [Tile.result, hstatus, if_neg (by decide), if_pos hcauses]
    rfl
  have hsame : ({ x with causes := x.causes ++ [] } : Tile) = x := by rw [List.append_nil]
  have hfinish (w : State) : w.finish (x.cpl core) =
      (w.signalWord x.ctx (dSignal x.desc 0)).signalWord x.ctx (dSignal x.desc 1) := by
    have hst : (x.cpl core).status = stOk := congrArg Prod.fst hresult
    unfold State.finish
    dsimp only
    rw [hst, if_neg (show ¬(stOk ≠ stOk ∨ dCplAlways (x.cpl core).desc = true) by simp [Tile.cpl, hcpl]),
      if_pos (show (x.cpl core).flags = 0 from hflags), if_neg (show ¬failing stOk = true by decide)]
    rfl
  have hfree : freeAll x.ctx x.frees s = (s, []) := by
    rw [hfrees]
    rfl
  have heq : s.tileEnd core x = (s.dropTileReqs core x.ctx x.seq).complete core x := by
    unfold State.tileEnd
    rw [hfree]
    dsimp only
    rw [hsame]
  rw [heq, State.complete, hresult, hfinish]
  simp only [and_true]

/-- A core's only tile leaves it. -/
theorem State.core_release {s : State} (hcores : twf .init s.cores = true) {core : Nat} {x : Tile}
    (hone : (s.core core).tiles = [x]) (m : Nat) :
    (m = core → ((s.release core x).core m).tiles = []) ∧ (m ≠ core → (s.release core x).core m = s.core m) := by
  have hleft : [x].filter (fun y => !(y.seq == x.seq && y.ctx == x.ctx)) = [] := by simp
  have heq : ∃ c : Core, s.release core x = (s.setCore core { c with tiles := [], idleFrom := s.clk }).assign core := by
    unfold State.release
    cases x.slot with
    | none =>
      refine ⟨s.core core, ?_⟩
      dsimp only
      rw [hone, hleft]
      rfl
    | some i =>
      have htiles : ((s.core core).setSlot i (((s.core core).slot i).drained x.desc)).tiles = [x] := hone
      refine ⟨(s.core core).setSlot i (((s.core core).slot i).drained x.desc), ?_⟩
      dsimp only
      rw [htiles, hleft]
      rfl
  obtain ⟨c, hc⟩ := heq
  have hset (m : Nat) := State.core_setCore hcores core m { c with tiles := [], idleFrom := s.clk }
  have hok : twf .init (s.setCore core { c with tiles := [], idleFrom := s.clk }).cores = true := twf_tset _ _ _ hcores
  rw [hc, State.assign, State.modCore, State.core_setCore hok, hset core, if_pos rfl]
  refine ⟨fun hm => ?_, fun hm => ?_⟩
  · rw [if_pos hm]
    rfl
  · rw [if_neg hm, hset, if_neg hm]

theorem writeAck_ends {s : State} (hw : s.wf = true) {p : Packet} {r : TileReq} {x : Tile} (hrails : s.power.rails = true)
    (hp : p.wf = true) (hreqs : s.fab.tileReqs = [r]) (hnone : s.fabFind p.src (p.field 32 32) [2, 3] = none)
    (hfind : s.tileFind p.src (p.field 32 32) true = some r) (hone : (s.core r.core).tiles = [x]) (hstage : x.stage = .acking)
    (hctx : x.ctx = r.ctx) (hseq : x.seq = r.seq) (hstatus : x.status = 0) (hcauses : x.causes = []) (hfrees : x.frees = [])
    (hflags : x.flags = 0) (hcpl : dCplAlways x.desc = false) (hst : respStatus (p.field 8 4) = 0) :
    ∃ t, exec (.writeAck p) s = .next t ∧ (t.core r.core).tiles = [] ∧ t.fab.tileReqs = [] ∧
      t.sync = ((s.signalWord x.ctx (dSignal x.desc 0)).signalWord x.ctx (dSignal x.desc 1)).sync ∧
      OtherCores r.core s t ∧ Frame [.cores, .sync, .fab, .router, .steps, .red, .obj] s t := by
  obtain ⟨u, hu⟩ : ∃ u, u = (s.hotResp p).permAck (p.field 32 32) := ⟨_, rfl⟩
  have hbefore : BeforeEnd s u := hu ▸ (BeforeEnd.hotResp hw p).trans (.permAck (BeforeEnd.hotResp hw p).wf _)
  have hruns : Runs [.fab, .router, .red, .obj] s u :=
    hu ▸ Runs.comp (State.permAck_runs ..) rfl ((State.hotResp_runs ..).mono rfl)
  have hbeside : u.fab.beside = s.fab.beside := hu ▸ s.beside_hotResp p
  have hcmds : u.fab.cmds = s.fab.cmds := by
    have h := congrArg Fab.cmds hbeside
    exact h
  have hureqs : u.fab.tileReqs = [r] := (congrArg Fab.tileReqs hbeside).trans hreqs
  obtain ⟨v, hv⟩ : ∃ v, v = u.reqAnswered r [] 0 := ⟨_, rfl⟩
  have hvreqs : v.fab.tileReqs = [{ r with got := some [], cause := 0 }] := hv ▸ State.tileReqs_reqAnswered hureqs [] 0
  have huv : Runs [.fab] u v := by
    rw [hv]
    exact State.setFab_runs ..
  have hvruns : Runs [.fab, .router, .red, .obj] s v := Runs.comp huv rfl hruns
  have hvcore (m : Nat) : v.core m = s.core m := State.core_congr (hvruns.same .cores rfl) m
  have hanswer : u.tileAnswer r [] 0 = v.tileEnd r.core x := by
    have hopen : v.acksOpen r.core x = false := by
      rw [State.acksOpen, State.writesOpen, hvreqs]
      simp
    have hbrought : v.ackCauses r.core x = [] := by
      rw [State.ackCauses, State.writeCauses, hvreqs]
      simp
    unfold State.tileAnswer
    rw [← State.reqAnswered, ← hv]
    dsimp only
    rw [hvcore, hone, List.filter_cons_of_pos (by simp [hstage, hctx, hseq]), List.head?_cons]
    dsimp only
    rw [hopen, hbrought, List.append_nil]
    rfl
  have heq : s.writeAck p = (v.tileEnd r.core x).taken p := by
    unfold State.writeAck
    dsimp only
    rw [← hu, State.fabFind_congr hcmds, hnone, State.tileFind_congr (hureqs.trans hreqs.symm), hfind, hst]
    dsimp only
    rw [hanswer]
  obtain ⟨w, hww, hend⟩ := State.tileEnd_plain (s := v) (core := r.core) hstatus hcauses hfrees hflags hcpl
  obtain ⟨z, hz⟩ : ∃ z, z = (v.dropTileReqs r.core x.ctx x.seq).release r.core x := ⟨_, rfl⟩
  have hdropped : Runs [.fab] v (v.dropTileReqs r.core x.ctx x.seq) := State.setFab_runs ..
  have huz : Runs [.cores, .fab] u z := Runs.comp (hz ▸ State.release_runs ..) rfl (Runs.comp hdropped rfl (huv.mono rfl))
  have hzruns : Runs [.cores, .fab, .router, .red, .obj] s z := Runs.comp huz rfl (hruns.mono rfl)
  have hzcore := State.core_release (s := v.dropTileReqs r.core x.ctx x.seq) (core := r.core) (x := x)
    (State.twf_cores (hvruns.wf hw)) ((congrArg Core.tiles (hvcore r.core)).trans hone)
  have hzreqs : z.fab.tileReqs = [] := by
    have hfab : z.fab = (v.dropTileReqs r.core x.ctx x.seq).fab := hz ▸ (State.release_runs ..).same .fab rfl
    rw [hfab]
    show v.fab.tileReqs.filter _ = []
    rw [hvreqs]
    simp [hctx, hseq]
  rw [← hz] at hww hzcore
  have hwruns : Runs [.sync, .fab, .router, .steps, .obj] z w :=
    hww ▸ Runs.comp (State.signalWord_runs ..) rfl (State.signalWord_runs ..)
  obtain ⟨t, ht⟩ : ∃ t, t = if dType x.desc = 4 then w.modStp x.ctx (fun p => { p with updates := p.updates + 1 }) else w :=
    ⟨_, rfl⟩
  have htruns : Runs [.steps] w t := ht ▸ .ite (fun _ => State.modStp_runs ..) fun _ => .refl w
  have hztruns : Runs [.sync, .fab, .router, .steps, .obj] z t := Runs.comp htruns rfl hwruns
  have htcores : t.cores = z.cores := hztruns.same .cores rfl
  have htfab : t.fab.beside = z.fab.beside := by
    have hw' : w.fab.beside = z.fab.beside := by
      rw [hww]
      exact (signalClosed_beside.signalWord ..).trans (signalClosed_beside.signalWord ..)
    rw [← hw']
    exact congrArg Fab.beside (htruns.same .fab rfl)
  have hsame : SyncSame s z := by
    obtain ⟨hsync, hmap⟩ := hbefore.same
    have hobj : z.obj = u.obj := huz.same .obj rfl
    have hzsync : z.sync = u.sync := huz.same .sync rfl
    exact ⟨hzsync.trans hsync, (congrArg Objects.syncMap hobj).trans hmap⟩
  have hsync : t.sync = w.sync := htruns.same .sync rfl
  refine ⟨_, (need_of hp _).trans ((powered_of hrails _).trans (congrArg _ (heq.trans (congrArg (State.taken · p)
    (hend.trans ht.symm))))), ?_, (congrArg Fab.tileReqs htfab).trans hzreqs, ?_, fun m hm => ?_, ?_⟩
  · exact (congrArg Core.tiles (State.core_congr htcores r.core)).trans ((hzcore r.core).1 rfl)
  · rw [State.taken_sync, hsync, hww]
    exact ((hsame.signalWord ..).signalWord ..).1
  · exact (State.core_congr htcores m).trans (((hzcore m).2 hm).trans (hvcore m))
  · exact (Runs.comp (State.taken_runs ..) rfl (Runs.comp htruns rfl (Runs.comp hwruns rfl (hzruns.mono rfl)))).frame

/-- Settles O57. -/
theorem responsesEndTheirCommands : Obligations.ResponsesEndTheirCommands := by
  unfold Obligations.ResponsesEndTheirCommands
  intro s hw
  refine ⟨fun p hp hrails => responses_off hp hrails, fun p k hrails hp => ?_, fun p r hrails hp hreqs => ?_,
    fun p a hrails hp hone hdest hseq hbusy => atomicResp_busy hone hw hrails hp hdest hseq hbusy, fun a hone => ?_,
    fun tag k => fabTimeout_completes hw, fun tag r hcmds hreqs htag hgot hlate htiles htxe =>
      fabTimeout_answers hreqs htiles htxe (State.keysFrom_vals hw) hcmds htag hgot hlate⟩
  · exact ⟨readData_completes hw hrails hp, writeAck_completes hw hrails hp, invDone_completes hw hrails hp,
      fun a => atomicResp_completes hw hrails hp⟩
  · exact ⟨fun hnone hfind htiles htxe => readData_answers hreqs htiles htxe hrails hp hnone hfind,
      fun x hnone hfind _ hone hstage hctx hseq hstatus hcauses hfrees hflags hcpl hst =>
        writeAck_ends hw hrails hp hreqs hnone hfind hone hstage hctx hseq hstatus hcauses hfrees hflags hcpl hst⟩
  · exact ⟨atomicRetryTimeout_sends hone, fun k hwaits hmany hlate => atomicRetryTimeout_abandons hone hw hwaits hmany hlate,
      atomicBusyRetry_sends hone⟩

end Sys2Proof.Machine
end

