-- ==== Sys2Proof/Proofs/FabricCommands.lean ====
section
/-!
PROOF. Fabric commands are checked and issued (R337 to R345, R350).
-/

namespace Sys2Proof.Machine

/-! A field at the front of bytes that others follow. -/

theorem bytesField_append_left {a : List Byte} (b : List Byte) {lo w : Nat} (h : lo + w ≤ 8 * a.length) :
    bytesField (a ++ b) lo w = bytesField a lo w := by
  obtain ⟨r, hr⟩ := Nat.exists_eq_add_of_le h
  have hsplit : 2 ^ (8 * a.length) * leNat b = 2 ^ lo * (2 ^ w * (2 ^ r * leNat b)) := by
    rw [hr, pow_add, pow_add]
    ring
  rw [bytesField_eq, bytesField_eq, leNat_append, hsplit, Nat.add_mul_div_left _ _ (Nat.two_pow_pos lo), Nat.add_mul_mod_self_left]

theorem length_mkBody (n : Nat) (fs : List (Nat × Nat × Nat)) : (mkBody n fs).length = n := length_toLE ..

theorem ReqHdr.field_fop_append (h : ReqHdr) (bs : List Byte) : bytesField (h.body ++ bs) 0 8 = h.fop % 2 ^ 8 := by
  have hlen : h.body.length = 32 := length_mkBody ..
  rw [bytesField_append_left _ (by omega), h.field_fop]

theorem State.length_loadDev (s : State) (a n : Nat) : (s.loadDev a n).length = n := by
  induction n generalizing a with
  | zero => rfl
  | succ n ih => exact congrArg Nat.succ (ih (a + 1))

/-- The operation of a command whose last bytes are replaced. -/
theorem fcOp_take_append (cmd bs : List Byte) (h : cmd.length = 64) : fcOp (leNat (cmd.take 0x38 ++ bs)) = fcOp (leNat cmd) := by
  have hlen : (cmd.take 0x38).length = 0x38 := by
    rw [List.length_take, h]
    rfl
  have hop (xs : List Byte) : fcOp (leNat xs) = bytesField xs 0 8 := (bytesField_eq xs 0 8).symm
  rw [hop, hop, bytesField_append_left _ (by omega), ← bytesField_append_left (cmd.drop 0x38) (by omega : 0 + 8 ≤ _),
    List.take_append_drop]

/-! A request that waits goes on waiting as others enter (R355). -/

theorem State.Waiting.of_eq {t u : State} {p : Packet} (h : t.Waiting p) (hinj : u.router.inj = t.router.inj)
    (hcapped : u.fab.capped = t.fab.capped) : u.Waiting p := by
  unfold State.Waiting at h ⊢
  rwa [hinj, hcapped]

theorem State.Waiting.inject {t : State} {p : Packet} (h : t.Waiting p) (port : Nat) (q : Packet) : (t.inject port q).Waiting p := by
  rcases h with ⟨o, ho⟩ | hcapped
  · refine .inl ⟨o, ?_⟩
    by_cases hp : port = o
    · subst hp
      have hself : tget [] (t.inject port q).router.inj port = tget [] t.router.inj port ++ [q] :=
        tget_tset_self_of_ne [] _ _ (List.append_ne_nil_of_right_ne_nil _ (List.cons_ne_nil _ _))
      rw [hself]
      exact List.mem_append_left _ ho
    · have hother : tget [] (t.inject port q).router.inj o = tget [] t.router.inj o := tget_tset_of_ne _ _ _ hp
      rwa [hother]
  · exact .inr hcapped

theorem State.Waiting.capInject {t : State} {p : Packet} (h : t.Waiting p) (port : Nat) (q : Packet) :
    (t.capInject port q).Waiting p := by
  unfold State.capInject
  split
  · rcases h with hport | hcapped
    · exact .inl hport
    · refine .inr ?_
      have hlist : (t.setFab { t.fab with capped := t.fab.capped ++ [(port, q)] }).fab.capped = t.fab.capped ++ [(port, q)] := rfl
      rw [hlist, List.map_append]
      exact List.mem_append_left _ hcapped
  · exact State.Waiting.inject (h.of_eq rfl rfl) port q

/-- ACK_SEQ that a new ATOMIC carries (R350). -/
def State.atomAck (s : State) (c : FabCmd) : Nat :=
  if s.fab.atoms.any (fun a => a.dest == c.dest) then s.ackSeq c.dest else tget 0 s.fab.nextSeq c.dest % 2 ^ 32

/-- The header of a command's ATOMIC (R350, R353). -/
def State.atomHdr (s : State) (c : FabCmd) : ReqHdr :=
  { fop := 0x13, pgen := s.ov protGenId % 256, first := tget 0 s.fab.nextSeq c.dest == 0, atop := fcAtop c.word,
    aw := fcWide c.word, fetch := fcFetch c.word, addr := gOff (fcGaddr c.word),
    seq := tget 0 s.fab.nextSeq c.dest % 2 ^ 32, ackSeq := s.atomAck c, tag := c.tag }

/-- The ATOMIC of a command. -/
def State.atomReq (s : State) (c : FabCmd) : Packet :=
  s.packet 2 c.ctx c.dest ((s.atomHdr c).body ++
    toLE 8 (if fcWide c.word then fcOperand c.word else fcOperand c.word % 2 ^ 32) ++ toLE 8 (fcCompare c.word))

/-- The ATOMIC of a command is outstanding. -/
def State.atomNoted (s : State) (c : FabCmd) : State :=
  s.setFab { s.fab with
    atoms := s.fab.atoms ++ [⟨c.dest, tget 0 s.fab.nextSeq c.dest % 2 ^ 32, c.tag, s.atomReq c, s.clk, 0, 0, false⟩]
    nextSeq := tset 0 s.fab.nextSeq c.dest (tget 0 s.fab.nextSeq c.dest % 2 ^ 32 + 1)
    lastAck := tset (0, 0) s.fab.lastAck c.dest (s.atomAck c, s.clk) }

theorem State.atomSend_eq (s : State) (c : FabCmd) : s.atomSend c = (s.atomNoted c).capInject hubFabric (s.atomReq c) := rfl

theorem State.sent_atomSend (s : State) (c : FabCmd) : (s.atomSend c).Sent 2 c.dest 0x13 := by
  have hfop : (s.atomReq c).field 0 8 = 0x13 := by
    show bytesField ((s.atomHdr c).body ++ _ ++ _) 0 8 = 0x13
    rw [List.append_assoc, ReqHdr.field_fop_append]
    rfl
  have hsent := (s.atomNoted c).sent_capInject hubFabric (s.atomReq c)
  rwa [hfop] at hsent

theorem State.length_atoms_atomSend (s : State) (c : FabCmd) : (s.atomSend c).fab.atoms.length = s.fab.atoms.length + 1 := by
  have hbeside := congrArg Fab.atoms ((s.atomNoted c).beside_capInject hubFabric (s.atomReq c))
  exact (congrArg List.length hbeside).trans (List.length_append ..)

theorem State.Waiting.atomSend {t : State} {p : Packet} (h : t.Waiting p) (c : FabCmd) : (t.atomSend c).Waiting p :=
  State.Waiting.capInject (t := t.atomNoted c) (h.of_eq rfl rfl) _ _

theorem State.Waiting.fabGo {t : State} {p : Packet} (h : t.Waiting p) (c : FabCmd) : (t.fabGo c).Waiting p := by
  unfold State.fabGo
  split
  · exact (h.atomSend c).of_eq rfl rfl
  · split
    · exact State.Waiting.capInject (t := t.fabSent c.tag) (h.of_eq rfl rfl) _ _
    · exact h

/-! What a command rests on when it is held back (R342, R343, R348). -/

/-- A command with the request that it holds. -/
def FabCmd.hold (k : FabCmd) (p : Option Packet) : FabCmd := { k with held := p }

theorem earlierOf_append_self {k y : FabCmd} (h : y.tag = k.tag) (xs : List FabCmd) :
    earlierOf k (xs ++ [y]) = earlierOf k xs := by
  induction xs with
  | nil => simp [earlierOf, h]
  | cons x xs ih => simp only [List.cons_append, earlierOf, ih]

theorem earlierOf_hold (k : FabCmd) (p : Option Packet) (xs : List FabCmd) : earlierOf (k.hold p) xs = earlierOf k xs := by
  induction xs with
  | nil => rfl
  | cons x xs ih =>
    simp only [earlierOf, ih]
    rfl

theorem heldBack_hold (k : FabCmd) (p : Option Packet) (xs : List FabCmd) :
    heldBack (k.hold p) (xs ++ [k.hold p]) = heldBack k (xs ++ [k]) := by
  rw [heldBack, heldBack, earlierOf_append_self rfl, earlierOf_append_self rfl, earlierOf_hold]
  rfl

/-! The held FLAGGED_WRITE of a ring leaves (R343). -/

/-- The request of every command with a TAG has left. -/
def State.Left (s : State) (tag : Nat) : Prop := ∀ x ∈ s.fab.cmds, x.tag = tag → x.held = none

theorem State.left_fabSent (s : State) (tag : Nat) : (s.fabSent tag).Left tag := by
  intro x hx htag
  obtain ⟨y, -, rfl⟩ := List.mem_map.mp hx
  split at htag
  case isTrue h => rw [if_pos h]
  case isFalse h => exact absurd htag h

theorem State.Left.fabSent {s : State} {tag : Nat} (h : s.Left tag) (other : Nat) : (s.fabSent other).Left tag := by
  intro x hx htag
  obtain ⟨y, hy, rfl⟩ := List.mem_map.mp hx
  split at htag
  case isTrue hy' => rw [if_pos hy']
  case isFalse hy' =>
    rw [if_neg hy']
    exact h y hy htag

theorem State.Left.of_cmds {s t : State} {tag : Nat} (h : s.Left tag) (hcmds : t.fab.cmds = s.fab.cmds) : t.Left tag := by
  unfold State.Left
  rwa [hcmds]

theorem State.Left.fabGo {s : State} {tag : Nat} (h : s.Left tag) (c : FabCmd) : (s.fabGo c).Left tag := by
  unfold State.fabGo
  split
  · exact (h.of_cmds (s.cmds_atomSend c)).fabSent _
  · split
    · exact (h.fabSent c.tag).of_cmds (State.cmds_capInject ..)
    · exact h

/-- What every held request that leaves keeps, the flow keeps. -/
theorem State.fabFlow_keeps {P : State → Prop} (hgo : ∀ s c, P s → P (s.fabGo c)) {s : State} (h : P s) : P s.fabFlow := by
  unfold State.fabFlow
  generalize s.fab.cmds.filter _ = cs
  induction cs generalizing s with
  | nil => exact h
  | cons c cs ih =>
    refine ih ?_
    dsimp only
    split
    · exact h
    · exact hgo s c h

theorem flaggedWriteSend_sends {s : State} {c : Nat} (hc : ctxOk c = true) {k : FabCmd} {p : Packet}
    (h : s.flaggedReady c = some (k, p)) :
    ∃ t, exec (.flaggedWriteSend c) s = .next t ∧ t.Waiting p ∧ (∀ x ∈ t.fab.cmds, x.tag = k.tag → x.held = none) ∧
      t.fab.cmds.length = s.fab.cmds.length ∧ Frame [.fab, .router] s t := by
  obtain ⟨u, hu⟩ : ∃ u, u = (s.fabSent k.tag).capInject hubFabric p := ⟨_, rfl⟩
  have hwaiting : u.Waiting p := hu ▸ State.waiting_capInject ..
  have hleft : u.Left k.tag := hu ▸ (s.left_fabSent k.tag).of_cmds (State.cmds_capInject ..)
  have htags : u.tags = s.tags := hu ▸ (State.tags_congr (State.cmds_capInject ..)).trans (s.tags_fabSent k.tag)
  have hruns : Runs [.fab, .router] s u := by
    rw [hu]
    exact Runs.comp (State.capInject_runs ..) rfl ((State.fabSent_runs ..).mono rfl)
  refine ⟨u.fabFlow, (need_of hc _).trans ?_, State.fabFlow_keeps (P := fun s => s.Waiting p) (fun _ c h => h.fabGo c) hwaiting,
    State.fabFlow_keeps (P := fun s => s.Left k.tag) (fun _ c h => h.fabGo c) hleft, ?_,
    (Runs.comp (State.fabFlow_runs _) rfl hruns).frame⟩
  · rw [h, hu]
  · have hlen := congrArg List.length (u.tags_fabFlow.trans htags)
    rwa [State.tags, State.tags, List.length_map, List.length_map] at hlen

/-! A command is taken from its ring (R337). -/

section
variable (s : State) (c v : Nat)

/-- The command that a ring's next slot holds. -/
def State.nextCmd : List Byte := s.loadDev (s.fabSlot c) 64

/-- The doorbell of a ring. -/
def State.bell : Nat := (s.syncEntry c (bits (s.ov (fabQueueId + c)) 80 16)).phys

/-- A command is taken: the doorbell's count and the turn, and the decision on it noted. -/
def State.cmdTaken : State :=
  let u := (s.bellTake c).setFab { (s.bellTake c).fab with turn := c }
  if u.fcArgsBad c v then u else u.lookNote c (fcLen v) (gDev (fcGaddr v)) (gOff (fcGaddr v)) (fcRight v)

/-- The fabric but for what taking a command writes. -/
def Fab.inFlight (f : Fab) : Fab := { f with slot := [], turn := 0, look := [] }

theorem State.inFlight_lookNote (n dev o : Nat) (r : Right) : (s.lookNote c n dev o r).fab.inFlight = s.fab.inFlight := by
  unfold State.lookNote
  dsimp only
  split <;> rfl

theorem State.inFlight_cmdTaken : (s.cmdTaken c v).fab.inFlight = s.fab.inFlight := by
  unfold State.cmdTaken
  dsimp only
  split
  · rfl
  · exact (State.inFlight_lookNote ..).trans rfl

theorem State.turn_cmdTaken : (s.cmdTaken c v).fab.turn = c := by
  unfold State.cmdTaken State.lookNote
  dsimp only
  split
  · rfl
  · split <;> rfl

theorem State.cmdTaken_runs : Runs [.sync, .fab] s (s.cmdTaken c v) := by
  have htake : Runs [.sync, .fab] s ((s.bellTake c).setFab { (s.bellTake c).fab with turn := c }) :=
    Runs.comp (State.setFab_runs ..) rfl (s.bellTake_runs c)
  exact .ite (fun _ => htake) fun _ => Runs.comp (State.lookNote_runs ..) rfl htake

theorem State.sync_cmdTaken : (s.cmdTaken c v).sync = (s.setCtr (s.bell c) (s.ctr (s.bell c) - 1)).sync := by
  unfold State.cmdTaken
  dsimp only
  split
  · rfl
  · exact (State.lookNote_runs ..).same .sync rfl

variable {s c v}

theorem State.ctr_cmdTaken (hs : CtrOk s) (i : Nat) :
    (s.cmdTaken c v).ctr i = if i = s.bell c then s.ctr (s.bell c) - 1 else s.ctr i := by
  rw [State.ctr, State.sync_cmdTaken, ← State.ctr, State.ctr_setCtr hs]

/-- The engine has taken the command of a context whose turn it is. -/
theorem State.fabIssue_eq {op : Nat} (hnext : s.fabNext c op = true) : s.fabIssue c op =
    match (s.cmdTaken c (leNat (s.nextCmd c))).fcStatus c (leNat (s.nextCmd c)) with
    | 0 => (s.cmdTaken c (leNat (s.nextCmd c))).fabSend c (s.fabSlot c) (leNat (s.nextCmd c)) (s.nextCmd c)
    | st =>
      (if st = 1 then (s.cmdTaken c (leNat (s.nextCmd c))).fabFlag 0 (gDev (fcGaddr (leNat (s.nextCmd c))))
        else if st = 7 then (s.cmdTaken c (leNat (s.nextCmd c))).fcHandleFlag c (leNat (s.nextCmd c))
        else s.cmdTaken c (leNat (s.nextCmd c))).fabEnd c (s.fabSlot c) (leNat (s.nextCmd c)) st 0 :=
  if_pos hnext

end

/-! What a command is checked against stands in the objects, in the urn and in memory. -/

section
variable {s t : State}

theorem State.fcStatus_congr (hobj : t.obj = s.obj) (hurn : t.urn = s.urn) (hmem : t.mem = s.mem) (c v : Nat) :
    t.fcStatus c v = s.fcStatus c v := by
  have hread : t.fcStatus c v = State.fcStatus { s with obj := t.obj, urn := t.urn, mem := t.mem } c v := rfl
  rw [hread, hobj, hurn, hmem]

theorem State.fcCached_congr (hobj : t.obj = s.obj) (c v : Nat) : t.fcCached c v = s.fcCached c v := by
  have hread : t.fcCached c v = State.fcCached { s with obj := t.obj } c v := rfl
  rw [hread, hobj]

theorem State.cachedBytes_congr (hlines : t.fab.lines = s.fab.lines) (hclk : t.clk = s.clk) (die dev a n : Nat) :
    t.cachedBytes die dev a n = s.cachedBytes die dev a n := by
  have hline : t.cachedLine die dev = s.cachedLine die dev := by
    funext line
    rw [State.cachedLine, State.cachedLine, hlines, hclk]
  rw [State.cachedBytes, hline, State.cachedBytes]

end

/-- The data of a cached READ that the L2 of die 0 holds (R345). -/
def State.cacheHit (s : State) (c v : Nat) : Option (List Byte) :=
  if (s.fcCached c v).isSome then s.cachedBytes 0 (gDev (fcGaddr v)) (gOff (fcGaddr v)) (fcBytes v) else none

section
variable (s : State) (c v : Nat)

theorem State.obj_cmdTaken : (s.cmdTaken c v).obj = s.obj := (s.cmdTaken_runs c v).same .obj rfl

theorem State.fcStatus_cmdTaken : (s.cmdTaken c v).fcStatus c v = s.fcStatus c v :=
  State.fcStatus_congr (s.obj_cmdTaken c v) ((s.cmdTaken_runs c v).same .urn rfl) ((s.cmdTaken_runs c v).same .mem rfl) c v

theorem State.cmds_cmdTaken : (s.cmdTaken c v).fab.cmds = s.fab.cmds := by
  have h := congrArg Fab.cmds (s.inFlight_cmdTaken c v)
  exact h

theorem State.atoms_cmdTaken : (s.cmdTaken c v).fab.atoms = s.fab.atoms := by
  have h := congrArg Fab.atoms (s.inFlight_cmdTaken c v)
  exact h

theorem State.nextTag_cmdTaken : (s.cmdTaken c v).fab.nextTag = s.fab.nextTag := by
  have h := congrArg Fab.nextTag (s.inFlight_cmdTaken c v)
  exact h

theorem State.cacheHit_cmdTaken : (s.cmdTaken c v).cacheHit c v = s.cacheHit c v := by
  have hlines := congrArg Fab.lines (s.inFlight_cmdTaken c v)
  rw [State.cacheHit, State.fcCached_congr (s.obj_cmdTaken c v),
    State.cachedBytes_congr hlines ((s.cmdTaken_runs c v).same .clk rfl), State.cacheHit]

end

section
variable {s : State} {c op : Nat}

theorem State.fabIssue_passed (hnext : s.fabNext c op = true) (hst : s.fcStatus c (leNat (s.nextCmd c)) = 0) :
    s.fabIssue c op =
      (s.cmdTaken c (leNat (s.nextCmd c))).fabSend c (s.fabSlot c) (leNat (s.nextCmd c)) (s.nextCmd c) := by
  rw [State.fabIssue_eq hnext, State.fcStatus_cmdTaken]
  split
  case h_1 => rfl
  case h_2 h => exact absurd hst h

/-- The flag of a refusal (R328, R358). -/
def State.refusalFlagged (s : State) (c v : Nat) : State :=
  if s.fcStatus c v = 1 then s.fabFlag 0 (gDev (fcGaddr v)) else if s.fcStatus c v = 7 then s.fcHandleFlag c v else s

theorem State.fabIssue_refused (hnext : s.fabNext c op = true) (hst : s.fcStatus c (leNat (s.nextCmd c)) ≠ 0) :
    s.fabIssue c op = ((s.cmdTaken c (leNat (s.nextCmd c))).refusalFlagged c (leNat (s.nextCmd c))).fabEnd c (s.fabSlot c)
      (leNat (s.nextCmd c)) (s.fcStatus c (leNat (s.nextCmd c))) 0 := by
  rw [State.fabIssue_eq hnext, State.refusalFlagged, State.fcStatus_cmdTaken]
  split
  case h_1 h0 => exact absurd h0 hst
  case h_2 => rfl

theorem State.fabNext_of (hturn : s.fabTurn = some c)
    (hop : fcOp (leNat (s.nextCmd c)) = op ∨ fcOp (leNat (s.nextCmd c)) = 0 ∨ 5 < fcOp (leNat (s.nextCmd c))) :
    s.fabNext c op = true := by
  have hturn' : (s.fabTurn == some c) = true := by simp [hturn]
  have hops : (fcOp (leNat (s.nextCmd c)) == op || fcOp (leNat (s.nextCmd c)) == 0 || decide (5 < fcOp (leNat (s.nextCmd c)))) = true := by
    simpa [or_assoc] using hop
  exact Bool.and_eq_true_iff.mpr ⟨hturn', hops⟩

theorem State.fabIssue_of_not_turn (h : s.fabTurn ≠ some c) : s.fabIssue c op = s := by
  refine if_neg ?_
  rw [State.fabNext]
  simp [h]

end

/-- A command of a context's ring, by the instruction that issues its OP. -/
theorem exec_fabIssue {s : State} {c : Nat} (hc : ctxOk c = true) :
    ∀ p ∈ [(Instr.fabRead c, 1), (.fabWrite c, 2), (.fabFlaggedWrite c, 3), (.fabAtomic c, 4), (.fabInvalidate c, 5)],
      exec p.1 s = .next (s.fabIssue c p.2) := by
  simp only [List.forall_mem_cons, List.not_mem_nil, false_imp_iff, implies_true, and_true]
  exact ⟨need_of hc _, need_of hc _, need_of hc _, need_of hc _, need_of hc _⟩

/-! A refused command ends at issue (R338, R339). -/

theorem BeforeEnd.refusalFlagged {s : State} (hw : s.wf = true) (c v : Nat) : BeforeEnd s (s.refusalFlagged c v) := by
  unfold State.refusalFlagged
  split
  · exact .fabFlag hw ..
  · split
    · exact ⟨(s.fcHandleFlag_runs c v).wf hw, ⟨rfl, rfl⟩, .urnFlag s _ _, rfl⟩
    · exact .refl hw

theorem State.refusalFlagged_runs (s : State) (c v : Nat) : Runs [.obj] s (s.refusalFlagged c v) :=
  .ite (fun _ => State.fabFlag_runs ..) fun _ => .ite (fun _ => State.fcHandleFlag_runs ..) fun _ => .refl s

theorem Failed.of_same {s u t : State} {c : Nat} (hobj : u.obj = s.obj) (hsteps : u.steps = s.steps) (h : u.Failed t c) :
    s.Failed t c := by
  intro hon hrun
  refine h ?_ ?_
  · rwa [State.stepsOn, State.ov_congr hobj]
  · rwa [State.stp_congr hsteps]

/-- The low byte of a STATUS is the ninth of RESULT and STATUS. -/
theorem status_byte (result status : Nat) : (toLE 8 result ++ toLE 8 status)[8]? = some (BitVec.ofNat 8 status) := by
  rw [List.getElem?_append_right (by rw [length_toLE]), length_toLE]
  rfl

section
variable {s : State} {c op : Nat} (hw : s.wf = true)
include hw

theorem fabIssue_fails (hnext : s.fabNext c op = true) (hst : s.fcStatus c (leNat (s.nextCmd c)) ≠ 0) :
    (s.fabIssue c op).fab.cmds = s.fab.cmds ∧ (s.fabIssue c op).fab.turn = c ∧ s.Failed (s.fabIssue c op) c ∧
      (s.anyUnmapped (s.fabSlot c + 0x30) 16 = false →
        (s.fabIssue c op).memByte (s.fabSlot c + 0x38) = BitVec.ofNat 8 (s.fcStatus c (leNat (s.nextCmd c)))) ∧
      (fcDoneCount (leNat (s.nextCmd c)) = 0 → (s.fabIssue c op).ctr (s.bell c) = s.ctr (s.bell c) - 1) ∧
      Frame [.sync, .mem, .fab, .router, .steps, .obj] s (s.fabIssue c op) := by
  obtain ⟨v, hv⟩ : ∃ v, v = leNat (s.nextCmd c) := ⟨_, rfl⟩
  rw [State.fabIssue_refused hnext hst, ← hv]
  have hruns := s.cmdTaken_runs c v
  have huw : (s.cmdTaken c v).wf = true := hruns.wf hw
  have hbefore := BeforeEnd.refusalFlagged huw c v
  have hflag := (s.cmdTaken c v).refusalFlagged_runs c v
  have hfab : ((s.cmdTaken c v).refusalFlagged c v).fab = (s.cmdTaken c v).fab := hflag.same .fab rfl
  have hmem : (s.cmdTaken c v).mem = s.mem := hruns.same .mem rfl
  have hbeside := ((s.cmdTaken c v).refusalFlagged c v).beside_fabEnd c (s.fabSlot c) v (s.fcStatus c v) 0
  rw [hfab] at hbeside
  refine ⟨(congrArg Fab.cmds hbeside).trans (s.cmds_cmdTaken c v), (congrArg Fab.turn hbeside).trans (s.turn_cmdTaken c v),
    Failed.of_same (s.obj_cmdTaken c v) (hruns.same .steps rfl) (hbefore.failed_fabEnd huw _ _ _ (hv ▸ hst)),
    fun hmap => ?_, fun hdone => ?_, ?_⟩
  · refine hbefore.memByte_fabEnd (i := 8) _ _ ?_ (status_byte ..)
    rw [State.anyUnmapped_congr (congrArg Mem.gddr hmem)]
    exact hmap
  · have hsync := hbefore.sync_fabEnd (status := s.fcStatus c v) (result := 0) c (s.fabSlot c) v
    rw [if_pos hdone] at hsync
    rw [State.ctr, hsync, ← State.ctr, State.ctr_cmdTaken (State.twf_ctr hw), if_pos rfl]
  · exact (Runs.comp (State.fabEnd_runs ..) rfl (Runs.comp hflag rfl (hruns.mono rfl))).frame

/-! A cached READ that the L2 answers (R345). -/

omit hw in
theorem State.fabSend_hit {u : State} {slot v : Nat} {cmd b : List Byte} (hop : fcOp v = 1) (hhit : u.cacheHit c v = some b) :
    u.fabSend c slot v cmd = (u.fcLand v b).fabEnd c slot v 0 0 := by
  have hlook : (if (fcOp v == 1 && (u.fcCached c v).isSome) = true then
      u.cachedBytes 0 (gDev (fcGaddr v)) (gOff (fcGaddr v)) (fcBytes v) else none) = some b := by
    rw [← hhit, State.cacheHit, hop]
    simp
  unfold State.fabSend
  dsimp only
  rw [hlook]

omit hw in
theorem State.urn_fcLand_congr {t : State} (hurn : t.urn = s.urn) (hobj : t.obj = s.obj) (v : Nat) (bs : List Byte)
    (hlexch : fcLexch v = true) : (t.fcLand v bs).urn = (s.fcLand v bs).urn := by
  rw [State.fcLand, State.fcLand, if_pos hlexch, if_pos hlexch]
  have hread (key off : Nat) : (t.urnStore key off bs).urn = (State.urnStore { s with urn := t.urn, obj := t.obj } key off bs).urn := rfl
  rw [hread, hurn, hobj]

theorem fabIssue_hits (hturn : s.fabNext c 1 = true) (hst : s.fcStatus c (leNat (s.nextCmd c)) = 0)
    (hop : fcOp (leNat (s.nextCmd c)) = 1) {b : List Byte} (hhit : s.cacheHit c (leNat (s.nextCmd c)) = some b) :
    (s.fabIssue c 1).fab.cmds = s.fab.cmds ∧
      (s.anyUnmapped (s.fabSlot c + 0x30) 16 = false → (s.fabIssue c 1).memByte (s.fabSlot c + 0x38) = 0) ∧
      (fcLexch (leNat (s.nextCmd c)) = true → (s.fabIssue c 1).urn = (s.fcLand (leNat (s.nextCmd c)) b).urn) ∧
      (fcLexch (leNat (s.nextCmd c)) = false → s.anyUnmapped (fcLaddr (leNat (s.nextCmd c))) b.length = false →
        (fcLaddr (leNat (s.nextCmd c)) + b.length ≤ s.fabSlot c + 0x30 ∨ s.fabSlot c + 0x40 ≤ fcLaddr (leNat (s.nextCmd c))) →
        ∀ i y, b[i]? = some y → (s.fabIssue c 1).memByte (fcLaddr (leNat (s.nextCmd c)) + i) = y) ∧
      Frame [.sync, .mem, .urn, .fab, .router, .steps, .obj] s (s.fabIssue c 1) := by
  rw [State.fabIssue_passed hturn hst, State.fabSend_hit hop ((s.cacheHit_cmdTaken ..).trans hhit)]
  generalize leNat (s.nextCmd c) = v at *
  have hruns := s.cmdTaken_runs c v
  have hland := (s.cmdTaken c v).fcLand_runs v b
  have hmem : (s.cmdTaken c v).mem = s.mem := hruns.same .mem rfl
  have hbeside := ((s.cmdTaken c v).fcLand v b).beside_fabEnd c (s.fabSlot c) v 0 0
  have hbefore : BeforeEnd (s.cmdTaken c v) ((s.cmdTaken c v).fcLand v b) :=
    ⟨hland.wf (hruns.wf hw), ⟨hland.same .sync rfl, congrArg Objects.syncMap (hland.same .obj rfl)⟩,
      .of_same (hland.same .obj rfl) (hland.same .steps rfl), State.gddr_fcLand ..⟩
  have hurn : (((s.cmdTaken c v).fcLand v b).fabEnd c (s.fabSlot c) v 0 0).urn = ((s.cmdTaken c v).fcLand v b).urn :=
    (State.fabEnd_runs ..).same .urn rfl
  refine ⟨?_, fun hmap => ?_, fun hlexch => ?_, fun hlexch hmap hapart i y hy => ?_, ?_⟩
  · have hfab : ((s.cmdTaken c v).fcLand v b).fab = (s.cmdTaken c v).fab := hland.same .fab rfl
    rw [hfab] at hbeside
    exact (congrArg Fab.cmds hbeside).trans (s.cmds_cmdTaken c v)
  · refine hbefore.memByte_fabEnd (i := 8) _ _ ?_ (status_byte ..)
    rw [State.anyUnmapped_congr (congrArg Mem.gddr hmem)]
    exact hmap
  · rw [hurn]
    exact State.urn_fcLand_congr (hruns.same .urn rfl) (hruns.same .obj rfl) v b hlexch
  · have hi : i < b.length := (List.getElem?_eq_some_iff.mp hy).1
    have hstore : (s.cmdTaken c v).fcLand v b = (s.cmdTaken c v).storeDev (fcLaddr v) b := if_neg (by simp [hlexch])
    rw [State.memByte_fabEnd_apart _ _ _ _ _ _ (by omega), hstore]
    refine State.memByte_storeDev_inside (hruns.wf hw) ?_ hy
    rw [State.anyUnmapped_congr (congrArg Mem.gddr hmem)]
    exact hmap
  · exact (Runs.comp (State.fabEnd_runs ..) rfl (Runs.comp hland rfl (hruns.mono rfl))).frame

end

/-! A command that passed its checks goes into flight (R342, R350). -/

section
variable (u : State) (c slot v : Nat) (cmd : List Byte)

/-- A command as it goes into flight, its request not held. -/
def State.newCmd : FabCmd :=
  { tag := u.fab.nextTag
    ctx := c
    slot := slot
    cmd := cmd.take 0x38 ++
      toLE 8 (if (fcOp v = 2 ∨ fcOp v = 3) ∧ fcLexch v = false ∧ u.anyPoison (fcLaddr v) (fcBytes v) then 4 else 0)
    dest := gDev (fcGaddr v)
    at_ := u.clk
    held := none
    vc := if fcOrdered v then 1 else 2
    cached := fcOp v == 1 && (u.fcCached c v).isSome }

/-- A command is in flight, its TAG used up. -/
def State.cmdAdded (k : FabCmd) : State := u.tagNext.setFab { u.tagNext.fab with cmds := u.tagNext.fab.cmds ++ [k] }

theorem State.cmdAdded_runs (k : FabCmd) : Runs [.fab] u (u.cmdAdded k) :=
  Runs.comp (State.setFab_runs ..) rfl (State.setFab_runs ..)

theorem State.cmds_cmdAdded (k : FabCmd) : (u.cmdAdded k).fab.cmds = u.fab.cmds ++ [k] := rfl

variable {u c slot v cmd}

theorem State.fabSend_none (h : fcOp v = 1 → u.cacheHit c v = none) : u.fabSend c slot v cmd =
    if fcOp v = 4 then
      if (heldBack (u.newCmd c slot v cmd) (u.fab.cmds ++ [u.newCmd c slot v cmd]) ||
        u.atomWaits (u.newCmd c slot v cmd) u.fab.cmds) = true then
        u.cmdAdded ((u.newCmd c slot v cmd).hold (some (u.tagNext.packet 2 c (gDev (fcGaddr v)) [])))
      else (u.cmdAdded (u.newCmd c slot v cmd)).atomSend (u.newCmd c slot v cmd)
    else if heldBack (u.newCmd c slot v cmd) (u.fab.cmds ++ [u.newCmd c slot v cmd]) = true then
      u.cmdAdded ((u.newCmd c slot v cmd).hold (some (u.tagNext.fcPacket c v u.fab.nextTag)))
    else (u.cmdAdded (u.newCmd c slot v cmd)).capInject hubFabric (u.tagNext.fcPacket c v u.fab.nextTag) := by
  have hlook : (if (fcOp v == 1 && (u.fcCached c v).isSome) = true then
      u.cachedBytes 0 (gDev (fcGaddr v)) (gOff (fcGaddr v)) (fcBytes v) else none) = none := by
    by_cases hop : fcOp v = 1
    · refine Eq.trans ?_ (h hop)
      rw [State.cacheHit, hop, beq_self_eq_true, Bool.true_and]
    · simp [hop]
  unfold State.fabSend
  dsimp only
  rw [hlook]
  rfl

/-- The operation, the channel and the destination of a command's request. -/
theorem State.fcPacket_shown (c tag : Nat) {q : Nat × Nat × Nat}
    (hq : q ∈ [(1, 2, 0x10), (2, if fcOrdered v then 1 else 2, 0x11), (3, if fcOrdered v then 1 else 2, 0x12), (5, 2, 0x16)])
    (hop : fcOp v = q.1) : (u.fcPacket c v tag).vc = q.2.1 ∧ (u.fcPacket c v tag).dest = gDev (fcGaddr v) ∧
      (u.fcPacket c v tag).field 0 8 = q.2.2 := by
  simp only [List.mem_cons, List.not_mem_nil, or_false] at hq
  unfold State.fcPacket
  rcases hq with rfl | rfl | rfl | rfl
  · rw [hop]
    cases u.fcCached c v with
    | none => exact ⟨rfl, rfl, ReqHdr.field_fop _⟩
    | some r => exact ⟨rfl, rfl, ReqHdr.field_fop _⟩
  · rw [hop]
    exact ⟨rfl, rfl, ReqHdr.field_fop_append _ _⟩
  · rw [hop]
    exact ⟨rfl, rfl, ReqHdr.field_fop_append _ _⟩
  · rw [hop]
    exact ⟨rfl, rfl, ReqHdr.field_fop _⟩

end

/-- A command taken into flight (R337, R340). -/
def State.TakesCmd (s t : State) (c v : Nat) (k : FabCmd) : Prop :=
  t.fab.cmds = s.fab.cmds ++ [k] ∧ k.tag = s.fab.nextTag ∧ k.ctx = c ∧ k.slot = s.fabSlot c ∧ k.dest = gDev (fcGaddr v) ∧
    fcOp k.word = fcOp v ∧ t.fab.nextTag = (s.fab.nextTag + 1) % 2 ^ 32 ∧ t.fab.turn = c ∧
    t.ctr (s.bell c) = s.ctr (s.bell c) - 1 ∧ ∀ i, i ≠ s.bell c → t.ctr i = s.ctr i

section
variable {s : State} {c : Nat}

theorem State.takes_cmdAdded {t : State} {k : FabCmd} (hs : CtrOk s) (p : Option Packet) (v : Nat)
    (hv : v = leNat (s.nextCmd c)) (hk : k = ((s.cmdTaken c v).newCmd c (s.fabSlot c) v (s.nextCmd c)).hold p)
    (hcmds : t.fab.cmds = ((s.cmdTaken c v).cmdAdded k).fab.cmds)
    (htag : t.fab.nextTag = ((s.cmdTaken c v).cmdAdded k).fab.nextTag)
    (hturn : t.fab.turn = ((s.cmdTaken c v).cmdAdded k).fab.turn) (hsync : t.sync = (s.cmdTaken c v).sync) : s.TakesCmd t c v k := by
  have hop : fcOp k.word = fcOp v := by
    rw [hk, hv]
    exact fcOp_take_append _ _ (s.length_loadDev ..)
  have hctr (i : Nat) : t.ctr i = (s.cmdTaken c v).ctr i := by rw [State.ctr, hsync, State.ctr]
  refine ⟨hcmds.trans ?_, ?_, ?_, ?_, ?_, hop, htag.trans ?_, hturn.trans (s.turn_cmdTaken c v), ?_, fun i hi => ?_⟩
  · rw [State.cmds_cmdAdded, State.cmds_cmdTaken]
  · rw [hk]
    exact s.nextTag_cmdTaken c v
  · rw [hk]
    rfl
  · rw [hk]
    rfl
  · rw [hk]
    rfl
  · exact congrArg (fun n => (n + 1) % 2 ^ 32) (s.nextTag_cmdTaken c v)
  · rw [hctr, State.ctr_cmdTaken hs, if_pos rfl]
  · rw [hctr, State.ctr_cmdTaken hs, if_neg hi]

/-- A command whose request is held back. -/
theorem State.cmdTaken_holds (hs : CtrOk s) (p : Packet) (v : Nat) (hv : v = leNat (s.nextCmd c)) :
    let k := ((s.cmdTaken c v).newCmd c (s.fabSlot c) v (s.nextCmd c)).hold (some p)
    s.TakesCmd ((s.cmdTaken c v).cmdAdded k) c v k ∧ ((s.cmdTaken c v).cmdAdded k).fab.atoms = s.fab.atoms ∧
      ((s.cmdTaken c v).cmdAdded k).router = s.router ∧ Frame [.sync, .fab, .router] s ((s.cmdTaken c v).cmdAdded k) := by
  intro k
  have hruns : Runs [.sync, .fab] s ((s.cmdTaken c v).cmdAdded k) :=
    Runs.comp (State.cmdAdded_runs ..) rfl (s.cmdTaken_runs c v)
  exact ⟨State.takes_cmdAdded hs (some p) v hv rfl rfl rfl rfl ((State.cmdAdded_runs ..).same .sync rfl),
    s.atoms_cmdTaken c v, hruns.same .router rfl, (hruns.mono rfl).frame⟩

variable (hw : s.wf = true)
include hw

theorem fabIssue_sends {q : Nat × Nat × Nat} (hnext : s.fabNext c q.1 = true) (hst : s.fcStatus c (leNat (s.nextCmd c)) = 0)
    (hq : q ∈ [(1, 2, 0x10), (2, if fcOrdered (leNat (s.nextCmd c)) then 1 else 2, 0x11),
      (3, if fcOrdered (leNat (s.nextCmd c)) then 1 else 2, 0x12), (5, 2, 0x16)])
    (hop : fcOp (leNat (s.nextCmd c)) = q.1) (hhit : q.1 = 1 → s.cacheHit c (leNat (s.nextCmd c)) = none) :
    ∃ k, s.TakesCmd (s.fabIssue c q.1) c (leNat (s.nextCmd c)) k ∧
      (heldBack k (s.fabIssue c q.1).fab.cmds = false → k.held = none ∧
        (s.fabIssue c q.1).Sent q.2.1 (gDev (fcGaddr (leNat (s.nextCmd c)))) q.2.2) ∧
      (heldBack k (s.fabIssue c q.1).fab.cmds = true → k.held ≠ none ∧ (s.fabIssue c q.1).router = s.router) ∧
      Frame [.sync, .fab, .router] s (s.fabIssue c q.1) := by
  have hne : fcOp (leNat (s.nextCmd c)) ≠ 4 := by
    rw [hop]
    simp only [List.mem_cons, List.not_mem_nil, or_false] at hq
    rcases hq with rfl | rfl | rfl | rfl <;> simp
  obtain ⟨v, hv⟩ : ∃ v, v = leNat (s.nextCmd c) := ⟨_, rfl⟩
  rw [State.fabIssue_passed hnext hst]
  rw [← hv] at hq hop hhit hne ⊢
  rw [State.fabSend_none fun h => (s.cacheHit_cmdTaken c v).trans (hhit (hop ▸ h)), if_neg hne]
  obtain ⟨k, hk⟩ : ∃ k, k = (s.cmdTaken c v).newCmd c (s.fabSlot c) v (s.nextCmd c) := ⟨_, rfl⟩
  obtain ⟨p, hp⟩ : ∃ p, p = (s.cmdTaken c v).tagNext.fcPacket c v (s.cmdTaken c v).fab.nextTag := ⟨_, rfl⟩
  obtain ⟨hvc, hdest, hfop⟩ := State.fcPacket_shown (u := (s.cmdTaken c v).tagNext) c (s.cmdTaken c v).fab.nextTag hq hop
  rw [← hp] at hvc hdest hfop
  rw [← hk, ← hp]
  split
  case isTrue hheld =>
    obtain ⟨htakes, -, hrouter, hframe⟩ := State.cmdTaken_holds (c := c) (State.twf_ctr hw) p v hv
    rw [← hk] at htakes hrouter hframe
    have hback : heldBack (k.hold (some p)) ((s.cmdTaken c v).cmdAdded (k.hold (some p))).fab.cmds = true := by
      rw [State.cmds_cmdAdded, heldBack_hold]
      exact hheld
    refine ⟨_, htakes, fun h => ?_, fun _ => ⟨Option.some_ne_none p, hrouter⟩, hframe⟩
    rw [hback] at h
    exact nomatch h
  case isFalse hfree =>
    have hnone : k = k.hold none := by rw [hk]; rfl
    have hbeside := ((s.cmdTaken c v).cmdAdded k).beside_capInject hubFabric p
    have hcmds := congrArg Fab.cmds hbeside
    have htag := congrArg Fab.nextTag hbeside
    have hturn := congrArg Fab.turn hbeside
    have hruns : Runs [.fab, .router] (s.cmdTaken c v) (((s.cmdTaken c v).cmdAdded k).capInject hubFabric p) :=
      Runs.comp (State.capInject_runs ..) rfl ((State.cmdAdded_runs ..).mono rfl)
    have hback : heldBack k (((s.cmdTaken c v).cmdAdded k).capInject hubFabric p).fab.cmds = false :=
      (congrArg (heldBack k) hcmds).trans (Bool.eq_false_iff.mpr hfree)
    refine ⟨k, State.takes_cmdAdded (State.twf_ctr hw) none v hv (hnone.trans (by rw [hk])) hcmds htag hturn
      (hruns.same .sync rfl), fun _ => ⟨?_, ?_⟩, fun h => ?_, ?_⟩
    · rw [hnone]
      rfl
    · have hsent := ((s.cmdTaken c v).cmdAdded k).sent_capInject hubFabric p
      rwa [hvc, hdest, hfop] at hsent
    · rw [hback] at h
      exact nomatch h
    · exact (Runs.comp hruns rfl ((s.cmdTaken_runs c v).mono rfl)).frame

omit hw in
theorem State.atomWaits_congr {u : State} (hatoms : u.fab.atoms = s.fab.atoms) (k : FabCmd) (xs : List FabCmd) :
    u.atomWaits k xs = s.atomWaits k xs := by
  rw [State.atomWaits, State.atomRoom, hatoms, State.atomWaits, State.atomRoom]

theorem fabIssue_atomic (hnext : s.fabNext c 4 = true) (hst : s.fcStatus c (leNat (s.nextCmd c)) = 0)
    (hop : fcOp (leNat (s.nextCmd c)) = 4) :
    ∃ k, s.TakesCmd (s.fabIssue c 4) c (leNat (s.nextCmd c)) k ∧
      (heldBack k (s.fabIssue c 4).fab.cmds = false → s.atomWaits k s.fab.cmds = false →
        (s.fabIssue c 4).Sent 2 (gDev (fcGaddr (leNat (s.nextCmd c)))) 0x13 ∧
        (s.fabIssue c 4).fab.atoms.length = s.fab.atoms.length + 1 ∧ k.held = none) ∧
      ((heldBack k (s.fabIssue c 4).fab.cmds = true ∨ s.atomWaits k s.fab.cmds = true) →
        k.held ≠ none ∧ (s.fabIssue c 4).fab.atoms = s.fab.atoms ∧ (s.fabIssue c 4).router = s.router) ∧
      Frame [.sync, .fab, .router] s (s.fabIssue c 4) := by
  obtain ⟨v, hv⟩ : ∃ v, v = leNat (s.nextCmd c) := ⟨_, rfl⟩
  rw [State.fabIssue_passed hnext hst]
  rw [← hv] at hop ⊢
  rw [State.fabSend_none (by rw [hop]; exact fun h => absurd h (by decide)), if_pos hop,
    State.atomWaits_congr (s.atoms_cmdTaken c v), s.cmds_cmdTaken c v]
  obtain ⟨k, hk⟩ : ∃ k, k = (s.cmdTaken c v).newCmd c (s.fabSlot c) v (s.nextCmd c) := ⟨_, rfl⟩
  have hadded (p : Option Packet) : heldBack (k.hold p) ((s.cmdTaken c v).cmdAdded (k.hold p)).fab.cmds =
      heldBack k (s.fab.cmds ++ [k]) := by
    rw [State.cmds_cmdAdded, heldBack_hold, s.cmds_cmdTaken c v]
  rw [← hk]
  split
  case isTrue hwait =>
    obtain ⟨htakes, hatoms, hrouter, hframe⟩ := State.cmdTaken_holds (c := c) (State.twf_ctr hw)
      ((s.cmdTaken c v).tagNext.packet 2 c (gDev (fcGaddr v)) []) v hv
    rw [← hk] at htakes hatoms hrouter hframe
    refine ⟨_, htakes, fun hback hroom => ?_, fun _ => ⟨Option.some_ne_none _, hatoms, hrouter⟩, hframe⟩
    rw [hadded] at hback
    have hroom' : s.atomWaits k s.fab.cmds = false := hroom
    rw [hback, hroom'] at hwait
    exact nomatch hwait
  case isFalse hfree =>
    obtain ⟨hback, hroom⟩ := Bool.or_eq_false_iff.mp (Bool.eq_false_iff.mpr hfree)
    have hnone : k = k.hold none := by rw [hk]; rfl
    have hcmds := ((s.cmdTaken c v).cmdAdded k).cmds_atomSend k
    have hbeside := (((s.cmdTaken c v).cmdAdded k).atomNoted k).beside_capInject hubFabric (((s.cmdTaken c v).cmdAdded k).atomReq k)
    rw [← State.atomSend_eq] at hbeside
    have htag := congrArg Fab.nextTag hbeside
    have hturn := congrArg Fab.turn hbeside
    have hruns : Runs [.fab, .router] (s.cmdTaken c v) (((s.cmdTaken c v).cmdAdded k).atomSend k) :=
      Runs.comp (State.atomSend_runs ..) rfl ((State.cmdAdded_runs ..).mono rfl)
    have hback' : heldBack k (((s.cmdTaken c v).cmdAdded k).atomSend k).fab.cmds = false := by
      have h := hadded none
      rw [← hnone] at h
      rw [hcmds, ← hback, h]
    refine ⟨k, State.takes_cmdAdded (State.twf_ctr hw) none v hv (hnone.trans (by rw [hk])) hcmds htag hturn
      (hruns.same .sync rfl), fun _ _ => ⟨?_, ?_, ?_⟩, fun h => ?_, ?_⟩
    · have hdest : k.dest = gDev (fcGaddr v) := by rw [hk]; rfl
      have hsent := ((s.cmdTaken c v).cmdAdded k).sent_atomSend k
      rwa [hdest] at hsent
    · rw [State.length_atoms_atomSend]
      exact congrArg (fun xs => List.length xs + 1) (s.atoms_cmdTaken c v)
    · rw [hnone]
      rfl
    · rw [hback', hroom] at h
      simp at h
    · exact (Runs.comp hruns rfl ((s.cmdTaken_runs c v).mono rfl)).frame

end

/-- Settles O54. -/
theorem fabricCommandsAreIssued : Obligations.FabricCommandsAreIssued := by
  unfold Obligations.FabricCommandsAreIssued
  intro s c hw hc
  have hok : ctxOk c = true := decide_eq_true hc
  have hexec := exec_fabIssue (s := s) hok
  refine ⟨fun hturn p hp => (hexec p hp).trans (congrArg _ (State.fabIssue_of_not_turn hturn)), fun hturn => ⟨fun hst p hp hop => ?_,
    fun hst => ⟨fun b hop hhit => ?_, fun q hq hop hhit => ?_, fun hop => ?_⟩⟩, fun k p => flaggedWriteSend_sends hok⟩
  · exact ⟨_, hexec p hp, fabIssue_fails hw (State.fabNext_of hturn hop) hst⟩
  · exact ⟨_, hexec (.fabRead c, 1) (by simp), fabIssue_hits hw (State.fabNext_of hturn (.inl hop)) hst hop hhit⟩
  · have hrow : (q.1, q.2.1) ∈ [(Instr.fabRead c, 1), (.fabWrite c, 2), (.fabFlaggedWrite c, 3), (.fabInvalidate c, 5)] :=
      List.mem_map_of_mem (f := fun q : Instr × Nat × Nat × Nat => (q.1, q.2.1)) hq
    have hrows : (q.1, q.2.1) ∈ [(Instr.fabRead c, 1), (.fabWrite c, 2), (.fabFlaggedWrite c, 3), (.fabAtomic c, 4),
        (.fabInvalidate c, 5)] := by
      simp only [List.mem_cons, List.not_mem_nil, or_false] at hrow ⊢
      tauto
    obtain ⟨k, h⟩ := fabIssue_sends hw (State.fabNext_of hturn (.inl hop)) hst (List.mem_map_of_mem (f := Prod.snd) hq) hop hhit
    exact ⟨_, k, hexec _ hrows, h⟩
  · obtain ⟨k, h⟩ := fabIssue_atomic hw (State.fabNext_of hturn (.inl hop)) hst hop
    exact ⟨_, k, hexec (.fabAtomic c, 4) (by simp), h⟩

end Sys2Proof.Machine
end

