-- ==== Sys2Proof/Proofs/FabricRequests.lean ====
section
/-!
PROOF. Fabric requests are served at the target, atomics exactly once (R341 to R346, R350 to R355).
-/

namespace Sys2Proof.Machine

/-! The responses of the target (R341). -/

/-- A response waits at the fabric engine's port, with its fields and its data. -/
def State.Responds (t : State) (dest fop status tag result : Nat) (data : List Byte) : Prop :=
  ∃ q ∈ tget [] t.router.inj hubFabric, q.vc = 3 ∧ q.dest = dest ∧ q.field 0 8 = fop ∧ q.field 8 4 = status ∧
    q.field 32 32 = tag ∧ q.field 64 64 = result ∧ q.body.drop 16 = data

theorem State.Responds.of_inj {t u : State} {dest fop status tag result : Nat} {data : List Byte}
    (h : t.Responds dest fop status tag result data) (hinj : u.router.inj = t.router.inj) :
    u.Responds dest fop status tag result data := by
  unfold State.Responds
  rwa [hinj]

theorem State.responds_respond (s : State) (p : Packet) {fop status tag result : Nat} (hot : Bool) (data : List Byte)
    (hfop : fop < 2 ^ 8) (hst : status < 2 ^ 4) (htag : tag < 2 ^ 32) (hres : result < 2 ^ 64) :
    (s.respond p fop status hot tag result data).Responds p.src fop status tag result data := by
  have hlen : (mkBody 16 [(0, 8, fop), (8, 4, status), (12, 1, ofBool hot), (32, 32, tag), (64, 64, result)]).length = 16 :=
    length_mkBody ..
  have hin (k : Nat) (hk : k ≤ 128) :
      k ≤ 8 * (mkBody 16 [(0, 8, fop), (8, 4, status), (12, 1, ofBool hot), (32, 32, tag), (64, 64, result)]).length := by
    rw [hlen]
    exact hk
  refine ⟨_, State.mem_inject .., rfl, rfl, ?_, ?_, ?_, ?_, ?_⟩
  · refine (bytesField_append_left _ (hin _ (by decide))).trans ?_
    exact (bytesField_mkBody [] _ fop rfl (by decide)).trans (Nat.mod_eq_of_lt hfop)
  · refine (bytesField_append_left _ (hin _ (by decide))).trans ?_
    exact (bytesField_mkBody [(0, 8, fop)] _ status rfl (by decide)).trans (Nat.mod_eq_of_lt hst)
  · refine (bytesField_append_left _ (hin _ (by decide))).trans ?_
    exact (bytesField_mkBody [(0, 8, fop), (8, 4, status), (12, 1, ofBool hot)] _ tag rfl (by decide)).trans (Nat.mod_eq_of_lt htag)
  · refine (bytesField_append_left _ (hin _ (by decide))).trans ?_
    exact (bytesField_mkBody [(0, 8, fop), (8, 4, status), (12, 1, ofBool hot), (32, 32, tag)] _ result rfl (by decide)).trans
      (Nat.mod_eq_of_lt hres)
  · exact List.drop_left' hlen

theorem field_lt (p : Packet) (lo w : Nat) : p.field lo w < 2 ^ w := Nat.mod_lt _ (Nat.two_pow_pos w)

/-! Updates queued at the lines (R354, R355). -/

/-- The fabric but for the lines' queues and marks. -/
def Fab.quiet (f : Fab) : Fab := { f with lineBusy := [], hotMarks := [] }

section
variable (s : State)

theorem State.quiet_hotLine (line : Nat) (srcs : List Nat) : (s.hotLine line srcs).1.fab.quiet = s.fab.quiet := by
  unfold State.hotLine
  dsimp only
  split
  · refine (foldl_keeps (g := fun q : State × List Nat => q.1.fab.quiet) ?_ srcs _).trans rfl
    exact fun q src => rfl
  · rfl

theorem State.quiet_hotUpdate (a n : Nat) (srcs : List Nat) : (s.hotUpdate a n srcs).1.fab.quiet = s.fab.quiet := by
  refine foldl_keeps (g := fun q : State × List Nat => q.1.fab.quiet) ?_ _ _
  exact fun q i => q.1.quiet_hotLine (a / 64 + i) srcs

end

/-! A READ (R288, R301, R346). -/

theorem l2Zeroed_nil (a : Nat) (bs : List Byte) : l2Zeroed a [] bs = bs := by
  unfold l2Zeroed
  simp only [List.any_nil]
  exact List.zipIdx_map_fst ..

section
variable {s : State} {p : Packet}

/-- The directory notes the reader's group for a cached READ. -/
def State.readNoted (s : State) (p : Packet) : State :=
  if p.field 14 1 = 1 then
    s.setFab { s.fab with
      dir := tset 0 s.fab.dir (p.field 48 12) (tget 0 s.fab.dir (p.field 48 12) ||| 2 ^ groupOf p.src) }
  else s

theorem State.readNoted_runs (s : State) (p : Packet) : Runs [.fab] s (s.readNoted p) :=
  .ite (fun _ => State.setFab_runs ..) fun _ => .refl s

theorem State.dir_readNoted (h : p.field 14 1 = 1) :
    bit (tget 0 (s.readNoted p).fab.dir (p.field 48 12)) (groupOf p.src) = true := by
  have hne : tget 0 s.fab.dir (p.field 48 12) ||| 2 ^ groupOf p.src ≠ 0 := fun h0 => by
    have hbit := bit_or_pow (tget 0 s.fab.dir (p.field 48 12)) (groupOf p.src)
    rw [h0, bit_eq_testBit, Nat.zero_testBit] at hbit
    exact nomatch hbit
  have hdir : tget 0 (s.readNoted p).fab.dir (p.field 48 12) = tget 0 s.fab.dir (p.field 48 12) ||| 2 ^ groupOf p.src := by
    rw [State.readNoted, if_pos h]
    exact tget_tset_self_of_ne 0 s.fab.dir (p.field 48 12) hne
  rw [hdir, bit_or_pow]

/-- What a READ finds at the target. -/
def State.readStatus (s : State) (a n : Nat) : Nat := if s.anyUnmapped a n then 1 else if s.anyPoison a n then 3 else 0

theorem State.loadDev_congr {s t : State} (h : t.mem = s.mem) (a n : Nat) : t.loadDev a n = s.loadDev a n := by
  induction n generalizing a with
  | zero => rfl
  | succ n ih =>
    have hmap : t.mapped a = s.mapped a := State.mapped_congr (congrArg Mem.gddr h) a
    rw [State.loadDev, State.loadDev, ih, hmap, State.poisoned, State.poisoned, State.memByte, State.memByte, h]

theorem State.anyPoison_congr {s t : State} (h : t.mem = s.mem) (a n : Nat) : t.anyPoison a n = s.anyPoison a n := by
  unfold State.anyPoison State.poisoned
  simp only [State.mapped_congr (congrArg Mem.gddr h), h]

theorem State.targetRead_eq : s.targetRead p [] =
    ((s.readNoted p).respond p 0x18 (s.readStatus (pAddr p) (pBytes p)) false (pTag p) 0 (s.loadDev (pAddr p) (pBytes p))).taken p := by
  have hmem : (s.readNoted p).mem = s.mem := (s.readNoted_runs p).same .mem rfl
  have heq : s.targetRead p [] = ((s.readNoted p).respond p 0x18
      (if (s.readNoted p).anyUnmapped (pAddr p) (pBytes p) then 1
        else if ((s.readNoted p).anyPoison (pAddr p) (pBytes p) || false) = true then 3 else 0) false (pTag p) 0
      (l2Zeroed (pAddr p) [] ((s.readNoted p).loadDev (pAddr p) (pBytes p)))).taken p := rfl
  rw [heq, l2Zeroed_nil, Bool.or_false, State.loadDev_congr hmem, State.anyPoison_congr hmem,
    State.anyUnmapped_congr (congrArg Mem.gddr hmem), State.readStatus]

theorem targetRead_responds (hrails : s.power.rails = true) (hp : p.wf = true) :
    ∃ t, exec (.targetRead p []) s = .next t ∧
      t.Responds p.src 0x18 (s.readStatus (pAddr p) (pBytes p)) (pTag p) 0 (s.loadDev (pAddr p) (pBytes p)) ∧
      (p.field 14 1 = 1 → bit (tget 0 t.fab.dir (p.field 48 12)) (groupOf p.src) = true) ∧ Frame [.fab, .router] s t := by
  have hst : s.readStatus (pAddr p) (pBytes p) < 2 ^ 4 := by
    unfold State.readStatus
    split
    · decide
    · split <;> decide
  refine ⟨_, (need_of hp _).trans ((powered_of hrails _).trans (congrArg _ State.targetRead_eq)),
    (State.responds_respond _ p _ _ (by decide) hst (field_lt p 224 32) (by decide)).of_inj rfl, fun hcached => ?_, ?_⟩
  · exact State.dir_readNoted hcached
  · exact (Runs.comp (State.taken_runs ..) rfl (Runs.comp (State.respond_runs ..) rfl ((s.readNoted_runs p).mono rfl))).frame

/-! A WRITE or FLAGGED_WRITE (R288, R342, R343). -/

theorem targetFlaggedWrite_waits (hrails : s.power.rails = true) (hp : p.wf = true) (hwait : s.flagWaits p = true) :
    ∃ t, exec (.targetFlaggedWrite ⟨p, []⟩) s = .next t ∧ p ∈ t.router.delivered ∧ t.router.inj = s.router.inj ∧
      Frame [.router] s t := by
  have heq : s.targetStore p [] = s.keepWaiting p := if_pos hwait
  have hruns : Runs [.router] s (s.keepWaiting p) := State.keepWaiting_runs ..
  refine ⟨_, (need_of hp _).trans ((powered_of hrails _).trans (congrArg _ heq)), ?_, ?_, hruns.frame⟩
  · unfold State.keepWaiting
    split
    case isTrue h => exact List.contains_iff_mem.mp h
    case isFalse =>
      have hin : p ∈ (s.setRouter { s.router with delivered := s.router.delivered ++ [p] }).router.delivered :=
        List.mem_append_right _ (List.mem_singleton.mpr rfl)
      unfold State.noteArrived
      split
      · exact hin
      · exact hin
  · unfold State.keepWaiting State.noteArrived
    split
    · rfl
    · split <;> rfl

/-- The updates of a write are queued at its lines. -/
def State.writeQueued (s : State) (p : Packet) : State := (s.hotUpdate (pAddr p) (pBytes p) [p.src]).1

/-- The signal of a FLAGGED_WRITE has been applied. -/
def State.flagApplied (s : State) (p : Packet) : State :=
  if pFop p = 0x12 ∧ p.field 206 14 ≠ 0 then s.ctrAdd (p.field 192 14) (p.field 206 14) else s

theorem State.flagApplied_runs (s : State) (p : Packet) : Runs [.sync, .obj] s (s.flagApplied p) :=
  .ite (fun _ => State.ctrAdd_runs ..) fun _ => .refl s

theorem State.ctr_flagApplied (hs : CtrOk s) (i : Nat) : (s.flagApplied p).ctr i =
    if pFop p = 0x12 ∧ i = p.field 192 14 ∧ p.field 206 14 ≠ 0 then min (s.ctr i + p.field 206 14) 0xFFFF else s.ctr i := by
  unfold State.flagApplied
  by_cases hsig : pFop p = 0x12 ∧ p.field 206 14 ≠ 0
  · rw [if_pos hsig, State.ctr_ctrAdd hs]
    by_cases hi : i = p.field 192 14
    · rw [if_pos hi, if_pos ⟨hsig.1, hi, hsig.2⟩, hi]
    · rw [if_neg hi, if_neg fun h => hi h.2.1]
  · rw [if_neg hsig, if_neg fun h => hsig ⟨h.1, h.2.2⟩]

theorem State.targetStore_eq (h : s.flagWaits p = false) : s.targetStore p [] =
    ((((s.writeQueued p).storeDev (pAddr p) (pData p)).flagApplied p).respond p 0x19
      (if (s.writeQueued p).anyUnmapped (pAddr p) (pBytes p) then 1 else 0)
      ((s.hotUpdate (pAddr p) (pBytes p) [p.src]).2.contains p.src) (pTag p) 0 []).applied343 p :=
  if_neg (by simp [h])

theorem targetStore_writes (hw : s.wf = true) (h : s.flagWaits p = false)
    (hmap : s.anyUnmapped (pAddr p) (max (pBytes p) (pData p).length) = false) :
    (∀ i b, (pData p)[i]? = some b → (s.targetStore p []).memByte (pAddr p + i) = b) ∧
      (∀ i, i < pAddr p ∨ pAddr p + (pData p).length ≤ i → (s.targetStore p []).memByte i = s.memByte i) ∧
      (s.targetStore p []).Sent 3 p.src 0x19 ∧
      (∀ i, (s.targetStore p []).ctr i = if pFop p = 0x12 ∧ i = p.field 192 14 ∧ p.field 206 14 ≠ 0
        then min (s.ctr i + p.field 206 14) 0xFFFF else s.ctr i) ∧
      Frame [.sync, .mem, .fab, .router, .obj] s (s.targetStore p []) := by
  have hqueued : Runs [.fab] s (s.writeQueued p) := State.hotUpdate_runs ..
  have hqmem : (s.writeQueued p).mem = s.mem := hqueued.same .mem rfl
  have hqw : (s.writeQueued p).wf = true := hqueued.wf hw
  have hmapq (n : Nat) (hn : n ≤ max (pBytes p) (pData p).length) : (s.writeQueued p).anyUnmapped (pAddr p) n = false := by
    rw [State.anyUnmapped_congr (congrArg Mem.gddr hqmem)]
    exact State.anyUnmapped_of_le hn hmap
  obtain ⟨u, hu⟩ : ∃ u, u = (s.writeQueued p).storeDev (pAddr p) (pData p) := ⟨_, rfl⟩
  have hstore : Runs [.mem] (s.writeQueued p) u := hu ▸ State.storeDev_runs ..
  have huruns : Runs [.mem, .fab] s u := Runs.comp hstore rfl (hqueued.mono rfl)
  have hctrs : ∀ i, u.ctr i = s.ctr i := fun i => by
    have hsync : u.sync = s.sync := huruns.same .sync rfl
    rw [State.ctr, hsync, State.ctr]
  have heq := State.targetStore_eq h
  rw [hmapq _ (Nat.le_max_left ..), if_neg Bool.false_ne_true, ← hu] at heq
  obtain ⟨v, hv⟩ : ∃ v, v = (u.flagApplied p).respond p 0x19 0 ((s.hotUpdate (pAddr p) (pBytes p) [p.src]).2.contains p.src)
    (pTag p) 0 [] := ⟨_, rfl⟩
  have hvruns : Runs [.sync, .obj, .router] u v := by
    rw [hv]
    exact Runs.comp (State.respond_runs ..) rfl ((u.flagApplied_runs p).mono rfl)
  have hbyte (i : Nat) : (v.applied343 p).memByte i = u.memByte i := by
    have hmem : v.mem = u.mem := hvruns.same .mem rfl
    rw [State.memByte, State.memByte, ← hmem]
    rfl
  rw [heq, ← hv]
  refine ⟨fun i b hb => ?_, fun i hi => ?_, ?_, fun i => ?_, ?_⟩
  · rw [hbyte, hu]
    exact State.memByte_storeDev_inside hqw (hmapq _ (Nat.le_max_right ..)) hb
  · rw [hbyte, hu, State.memByte_storeDev_apart hi, State.memByte, hqmem, State.memByte]
  · have hsent : v.Sent 3 p.src 0x19 := by
      rw [hv]
      refine State.sent_send _ _ _ _ _ ((bytesField_append_left _ ?_).trans (bytesField_mkBody [] _ 0x19 rfl (by decide)))
      rw [length_mkBody]
      decide
    exact hsent.of_eq rfl rfl
  · have hsync : (v.applied343 p).ctr i = (u.flagApplied p).ctr i := by
      have hs : v.sync = (u.flagApplied p).sync := hv ▸ (State.respond_runs ..).same .sync rfl
      rw [State.ctr, State.ctr, ← hs]
      rfl
    rw [hsync, State.ctr_flagApplied (State.twf_ctr (huruns.wf hw)), hctrs]
  · exact (Runs.comp (State.applied343_runs ..) rfl (Runs.comp hvruns rfl (huruns.mono rfl))).frame

theorem targetWrite_stores (hw : s.wf = true) (hrails : s.power.rails = true) (hp : p.wf = true) :
    ∀ q ∈ [(Instr.targetWrite p [], 0x11), (.targetFlaggedWrite ⟨p, []⟩, 0x12)], pFop p = q.2 → s.flagWaits p = false →
      s.anyUnmapped (pAddr p) (max (pBytes p) (pData p).length) = false →
      ∃ t, exec q.1 s = .next t ∧ (∀ i b, (pData p)[i]? = some b → t.memByte (pAddr p + i) = b) ∧
        (∀ i, i < pAddr p ∨ pAddr p + (pData p).length ≤ i → t.memByte i = s.memByte i) ∧
        (t.Sent 3 p.src 0x19) ∧
        (∀ i, t.ctr i = (if q.2 = 0x12 ∧ i = p.field 192 14 ∧ p.field 206 14 ≠ 0
          then min (s.ctr i + p.field 206 14) 0xFFFF else s.ctr i)) ∧
        Frame [.sync, .mem, .fab, .router, .obj] s t := by
  have hexec : ∀ q ∈ [(Instr.targetWrite p [], 0x11), (.targetFlaggedWrite ⟨p, []⟩, 0x12)],
      exec q.1 s = .next (s.targetStore p []) := by
    simp only [List.forall_mem_cons, List.not_mem_nil, false_imp_iff, implies_true, and_true]
    exact ⟨(need_of hp _).trans (powered_of hrails _), (need_of hp _).trans (powered_of hrails _)⟩
  intro q hq hfop hwait hmap
  rw [← hfop]
  exact ⟨_, hexec q hq, targetStore_writes hw hwait hmap⟩

end

/-! ACK_SEQ arrives (R350, R351). -/

/-- The watermark of a source once an ACK_SEQ has arrived. -/
def State.ackedTo (s : State) (src ack : Nat) : Nat :=
  match s.wmOf src with
  | some w => if seqBefore w ack then ack else w
  | none => ack

section
variable (s : State) (src ack : Nat)

theorem State.wmOf_ackArrive : (s.ackArrive src ack).wmOf src = some (s.ackedTo src ack) := by
  have hwm : tget 0 (s.ackArrive src ack).fab.wm src = s.ackedTo src ack + 1 :=
    tget_tset_self_of_ne 0 s.fab.wm src (Nat.succ_ne_zero (s.ackedTo src ack))
  rw [State.wmOf, hwm]

theorem State.resp_ackArrive : (s.ackArrive src ack).fab.resp =
    s.fab.resp.filter (fun e => !(e.src == src && seqBefore e.seq (s.ackedTo src ack))) := rfl

theorem State.inj_ackArrive : (s.ackArrive src ack).router.inj = s.router.inj := rfl

theorem State.delivered_ackArrive : (s.ackArrive src ack).router.delivered = s.router.delivered := rfl

theorem State.mem_resp_ackArrive (e : RespEntry) : e ∈ (s.ackArrive src ack).fab.resp ↔
    e ∈ s.fab.resp ∧ ¬(e.src = src ∧ seqBefore e.seq (s.ackedTo src ack) = true) := by
  rw [State.resp_ackArrive, List.mem_filter]
  simp only [Bool.not_eq_true', Bool.and_eq_false_iff, beq_eq_false_iff_ne, not_and_or, Bool.not_eq_true]

end

theorem atomicAck_frees {s : State} {p : Packet} (hrails : s.power.rails = true) (hp : p.wf = true) :
    ∃ t, exec (.atomicAck p) s = .next t ∧ t.wmOf p.src = some (s.ackedTo p.src (p.field 160 32)) ∧
      (∀ e, e ∈ t.fab.resp ↔ e ∈ s.fab.resp ∧ ¬(e.src = p.src ∧ seqBefore e.seq (s.ackedTo p.src (p.field 160 32)) = true)) ∧
      t.router.inj = s.router.inj ∧ t.router.delivered = (s.taken p).router.delivered ∧ Frame [.fab, .router] s t :=
  ⟨_, (need_of hp _).trans (powered_of hrails _), (State.wmOf_congr rfl _).trans (s.wmOf_ackArrive ..), s.mem_resp_ackArrive _ _,
    rfl, rfl, (Runs.comp (State.taken_runs ..) rfl ((State.ackArrive_runs ..).mono rfl)).frame⟩

/-! One atomic at the target, by the rows of R351. -/

section
variable (t : State) (src ctx seq atop : Nat) (wide fetch : Bool) (a y cmp : Nat)

/-- The operand of an atomic. -/
def State.operand : Nat := leNat (t.loadDev a (atomBytes wide))

/-- What an atomic leaves in its operand (R336). -/
def State.operandNew : Nat :=
  atomNew atop wide (t.operand wide a) (y % 2 ^ (8 * atomBytes wide)) (cmp % 2 ^ (8 * atomBytes wide))

/-- An atomic is answered and its answer kept (R351). -/
def State.answered351 (status result : Nat) : State :=
  (t.setResp (t.fab.resp ++ [⟨src, seq, ctx, status, result, t.clk⟩])).atomsGone src (· == seq)

theorem State.answered351_runs (status result : Nat) : Runs [.fab, .router] t (t.answered351 src ctx seq status result) :=
  Runs.comp (State.atomsGone_runs ..) rfl ((State.setResp_runs ..).mono rfl)

/-- The atomic's SEQ is before the watermark of its source. -/
def State.isOld : Bool :=
  match t.wmOf src with
  | some w => seqBefore seq w
  | none => false

variable {t src seq}

theorem State.atomApply_old (h : t.isOld src seq = true) :
    t.atomApply src ctx seq atop wide fetch a y cmp [] = (t.bump atomicDupId, none) := if_pos h

theorem State.atomApply_known (hnew : t.isOld src seq = false) {e : RespEntry} {es : List RespEntry}
    (h : t.fab.resp.filter (fun e => e.src == src && e.seq == seq) = e :: es) :
    t.atomApply src ctx seq atop wide fetch a y cmp [] = (t, some (e.status, e.result)) := by
  refine (if_neg (show ¬t.isOld src seq = true by simp [hnew])).trans ?_
  rw [h]

/-- What an atomic leaves at its operand. -/
def State.operandDone (t : State) : State :=
  if t.readStatus a (atomBytes wide) = 0 then t.storeDev a (toLE (atomBytes wide) (t.operandNew atop wide a y cmp)) else t

/-- The result that an atomic answers (R336). -/
def State.fetched (t : State) : Nat := if fetch = true ∧ t.readStatus a (atomBytes wide) = 0 then t.operand wide a else 0

theorem State.atomApply_fresh (hnew : t.isOld src seq = false)
    (hnone : t.fab.resp.filter (fun e => e.src == src && e.seq == seq) = []) :
    t.atomApply src ctx seq atop wide fetch a y cmp [] =
      if 16384 ≤ t.fab.resp.length then (t, some (2, 0))
      else ((operandDone atop wide a y cmp t).answered351 src ctx seq (t.readStatus a (atomBytes wide)) (fetched wide fetch a t),
        some (t.readStatus a (atomBytes wide), fetched wide fetch a t)) := by
  refine (if_neg (show ¬t.isOld src seq = true by simp [hnew])).trans ?_
  rw [hnone]
  dsimp only
  have hst : (if t.anyUnmapped a (atomBytes wide) = true then 1
      else if (t.anyPoison a (atomBytes wide) || l2LostIn a (atomBytes wide) []) = true then 3 else 0) =
      t.readStatus a (atomBytes wide) := by
    have hlost : l2LostIn a (atomBytes wide) [] = false := rfl
    rw [hlost, Bool.or_false, State.readStatus]
  have herrs (n : Nat) : t.memErrs a n [] = t := rfl
  simp only [herrs, hst]
  rfl

theorem State.atomApply_new (hnew : t.isOld src seq = false)
    (hnone : t.fab.resp.filter (fun e => e.src == src && e.seq == seq) = []) (hlen : t.fab.resp.length < 16384)
    (hmap : t.anyUnmapped a (atomBytes wide) = false) (hpoison : t.anyPoison a (atomBytes wide) = false) :
    t.atomApply src ctx seq atop wide fetch a y cmp [] =
      ((t.storeDev a (toLE (atomBytes wide) (t.operandNew atop wide a y cmp))).answered351 src ctx seq 0
          (if fetch = true then t.operand wide a else 0), some (0, if fetch = true then t.operand wide a else 0)) := by
  have hst : t.readStatus a (atomBytes wide) = 0 := by
    rw [State.readStatus, hmap, hpoison]
    rfl
  rw [State.atomApply_fresh ctx atop wide fetch a y cmp hnew hnone, if_neg (Nat.not_le.mpr hlen), State.operandDone, State.fetched,
    hst]
  simp only [if_true, and_true]

/-- Whatever row of R351 an atomic meets, it keeps at most an entry of its own. -/
theorem State.atomApply_keeps (t : State) (src seq : Nat) :
    (∀ e ∈ (t.atomApply src ctx seq atop wide fetch a y cmp []).1.fab.resp, e ∈ t.fab.resp ∨ (e.src = src ∧ e.seq = seq)) ∧
      Runs [.mem, .fab, .router, .obj] t (t.atomApply src ctx seq atop wide fetch a y cmp []).1 := by
  cases hold : t.isOld src seq with
  | true =>
    rw [State.atomApply_old _ _ _ _ _ _ _ hold]
    exact ⟨fun e he => .inl he, (State.bump_runs ..).mono rfl⟩
  | false =>
    cases hfind : t.fab.resp.filter (fun e => e.src == src && e.seq == seq) with
    | cons e es =>
      rw [State.atomApply_known _ _ _ _ _ _ _ hold hfind]
      exact ⟨fun e he => .inl he, .refl t⟩
    | nil =>
      rw [State.atomApply_fresh _ _ _ _ _ _ _ hold hfind]
      split
      · exact ⟨fun e he => .inl he, .refl t⟩
      · have hdone : Runs [.mem] t (operandDone atop wide a y cmp t) :=
          .ite (fun _ => State.storeDev_runs ..) fun _ => .refl t
        have hfab : (operandDone atop wide a y cmp t).fab = t.fab := hdone.same .fab rfl
        refine ⟨fun e he => ?_, Runs.comp (State.answered351_runs ..) rfl (hdone.mono rfl)⟩
        rcases List.mem_append.mp he with h | h
        · exact .inl (hfab ▸ h)
        · rw [List.mem_singleton.mp h]
          exact .inr ⟨rfl, rfl⟩

end

/-! TARGET_ATOMIC (R350, R351, R353). -/

section
variable (z : State) (p : Packet)

/-- The state in which an ATOMIC meets its row of R351. -/
def State.atomQueued : State := ((z.ackArrive p.src (p.field 160 32)).hotUpdate (pAddr p) 1 [p.src]).1

/-- An ATOMIC at its row of R351. -/
def State.atomAt (t : State) (p : Packet) : State × Option (Nat × Nat) :=
  t.atomApply p.src p.ctx (p.field 128 32) (p.field 8 4) (p.field 12 1 == 1) (p.field 13 1 == 1) (pAddr p) (p.field 256 64)
    (p.field 320 64) []

theorem State.atomQueued_runs : Runs [.fab, .router] z (z.atomQueued p) :=
  Runs.comp (State.hotUpdate_runs ..) rfl (State.ackArrive_runs ..)

theorem State.quiet_atomQueued : (z.atomQueued p).fab.quiet = (z.ackArrive p.src (p.field 160 32)).fab.quiet :=
  State.quiet_hotUpdate ..

theorem State.resp_atomQueued : (z.atomQueued p).fab.resp = (z.ackArrive p.src (p.field 160 32)).fab.resp := by
  have h := congrArg Fab.resp (z.quiet_atomQueued p)
  exact h

theorem State.router_atomQueued : (z.atomQueued p).router = (z.ackArrive p.src (p.field 160 32)).router :=
  (State.hotUpdate_runs ..).same .router rfl

theorem State.isOld_atomQueued : (z.atomQueued p).isOld p.src (p.field 128 32) =
    (z.ackArrive p.src (p.field 160 32)).isOld p.src (p.field 128 32) := by
  have h := congrArg Fab.wm (z.quiet_atomQueued p)
  have hwm : (z.atomQueued p).fab.wm = (z.ackArrive p.src (p.field 160 32)).fab.wm := h
  have hof : (z.atomQueued p).wmOf p.src = (z.ackArrive p.src (p.field 160 32)).wmOf p.src := by
    rw [State.wmOf, hwm, State.wmOf]
  rw [State.isOld, hof]
  rfl

variable {z p}

theorem State.isOld_eq_false {t : State} {src seq : Nat} (h : ∀ m, t.wmOf src = some m → seqBefore seq m = false) :
    t.isOld src seq = false := by
  unfold State.isOld
  split
  case h_1 m hm => exact h m hm
  case h_2 => rfl

theorem State.isOld_eq_true {t : State} {src seq m : Nat} (hm : t.wmOf src = some m) (h : seqBefore seq m = true) :
    t.isOld src seq = true := by
  unfold State.isOld
  rw [hm]
  exact h

/-- A source's FIRST is taken. -/
def State.firstTaken (s : State) (p : Packet) : State := if p.field 24 1 = 1 then s.atomFirst p.src else s

theorem State.targetAtomic_answered {s w : State} {st res : Nat} (h : ((s.firstTaken p).atomQueued p).atomAt p = (w, some (st, res))) :
    ∃ hot, s.targetAtomic p [] = (w.respond p 0x1A st hot (p.field 128 32) res []).atomDone p (some (st, res)) := by
  refine ⟨((((s.firstTaken p).ackArrive p.src (p.field 160 32)).hotUpdate (pAddr p) 1 [p.src]).2.contains p.src), ?_⟩
  unfold State.targetAtomic
  dsimp only
  rw [← State.firstTaken, ← State.atomQueued, ← State.atomAt, h]

theorem State.targetAtomic_unanswered {s w : State} (h : ((s.firstTaken p).atomQueued p).atomAt p = (w, none)) :
    s.targetAtomic p [] = w.atomDone p none := by
  unfold State.targetAtomic
  dsimp only
  rw [← State.firstTaken, ← State.atomQueued, ← State.atomAt, h]

end

section
variable {s z : State} {p : Packet}

theorem State.inj_atomDone (u : State) (p : Packet) (r : Option (Nat × Nat)) : (u.atomDone p r).router.inj = u.router.inj := by
  unfold State.atomDone State.noteArrived
  split
  · split <;> rfl
  · rfl

/-- An atomic is answered. -/
theorem State.respond_done (g : State) {st res : Nat} (hst : st < 2 ^ 4) (hres : res < 2 ^ 64) (hot : Bool) (r : Option (Nat × Nat)) :
    ((g.respond p 0x1A st hot (p.field 128 32) res []).atomDone p r).Responds p.src 0x1A st (p.field 128 32) res [] ∧
      Runs [.router] g ((g.respond p 0x1A st hot (p.field 128 32) res []).atomDone p r) :=
  ⟨(g.responds_respond p hot [] (by decide) hst (field_lt p 128 32) hres).of_inj (State.inj_atomDone ..),
    Runs.comp (State.atomDone_runs ..) rfl (State.respond_runs ..)⟩

theorem exec_targetAtomic (hrails : s.power.rails = true) (hp : p.wf = true) :
    exec (.targetAtomic ⟨p, []⟩) s = .next (s.targetAtomic p []) := (need_of hp _).trans (powered_of hrails _)

/-- Where a FIRST shows no reset of its peer with atomics outstanding, it only clears what is kept of the source (R353). -/
def State.firstCleared (s : State) (p : Packet) : State :=
  if p.field 24 1 = 1 then
    (s.setFab { s.fab with wm := tset 0 s.fab.wm p.src 1 }).setResp (s.fab.resp.filter (fun y => y.src != p.src))
  else s

theorem State.firstTaken_eq (h : p.field 24 1 = 1 → ¬((s.wmOf p.src).isSome = true ∧ s.atomCtxs (· == p.src) ≠ [])) :
    s.firstTaken p = s.firstCleared p := by
  unfold State.firstTaken State.firstCleared
  split
  case isFalse => rfl
  case isTrue hfirst =>
    have hreset : s.peerReset p.src = s := if_neg (h hfirst)
    rw [State.atomFirst, hreset]

theorem State.firstCleared_runs (s : State) (p : Packet) : Runs [.fab] s (s.firstCleared p) :=
  .ite (fun _ => Runs.comp (State.setResp_runs ..) rfl (State.setFab_runs ..)) fun _ => .refl s

/-- The state in which an ATOMIC's row of R351 is read: its FIRST and its ACK_SEQ have come. -/
def State.atomHeard (s : State) (p : Packet) : State := (s.firstCleared p).ackArrive p.src (p.field 160 32)

/-- The state that the row of R351 finds, the updates queued at the line. -/
def State.atomMet (s : State) (p : Packet) : State := (s.firstCleared p).atomQueued p

theorem State.atomMet_runs (s : State) (p : Packet) : Runs [.fab, .router] s (s.atomMet p) :=
  Runs.comp (State.atomQueued_runs ..) rfl ((s.firstCleared_runs p).mono rfl)

theorem State.resp_atomMet : (s.atomMet p).fab.resp = (s.atomHeard p).fab.resp := State.resp_atomQueued ..

theorem State.isOld_atomMet : (s.atomMet p).isOld p.src (p.field 128 32) = (s.atomHeard p).isOld p.src (p.field 128 32) :=
  State.isOld_atomQueued ..

theorem State.inj_atomMet : (s.atomMet p).router.inj = s.router.inj := by
  rw [State.atomMet, State.router_atomQueued, State.inj_ackArrive, show (s.firstCleared p).router = s.router from
    (s.firstCleared_runs p).same .router rfl]

theorem State.delivered_atomMet : (s.atomMet p).router.delivered = s.router.delivered := by
  rw [State.atomMet, State.router_atomQueued, State.delivered_ackArrive, show (s.firstCleared p).router = s.router from
    (s.firstCleared_runs p).same .router rfl]

theorem State.operandNew_congr {s t : State} (h : t.mem = s.mem) (atop : Nat) (wide : Bool) (a y cmp : Nat) :
    t.operandNew atop wide a y cmp = s.operandNew atop wide a y cmp := by
  rw [State.operandNew, State.operand, State.loadDev_congr h, State.operandNew, State.operand]

theorem State.operand_lt (s : State) (wide : Bool) (a : Nat) : s.operand wide a < 2 ^ 64 := by
  refine Nat.lt_of_lt_of_le (leNat_lt _) (Nat.pow_le_pow_right (by decide) ?_)
  rw [State.length_loadDev]
  cases wide <;> decide

/-- An atomic updates its operand, is answered, and its answer is kept. -/
theorem State.updates_facts {g t : State} {src ctx seq a res : Nat} {bs : List Byte} (hw : g.wf = true)
    (hmap : g.anyUnmapped a bs.length = false) (ht : Runs [.router] ((g.storeDev a bs).answered351 src ctx seq 0 res) t) :
    (∀ i b, bs[i]? = some b → t.memByte (a + i) = b) ∧ (∀ i, i < a ∨ a + bs.length ≤ i → t.memByte i = g.memByte i) ∧
      t.fab.resp.getLast? = some ⟨src, seq, ctx, 0, res, g.clk⟩ ∧ Runs [.mem, .fab, .router] g t := by
  have hstore := g.storeDev_runs a bs
  have hafter : Runs [.fab, .router] (g.storeDev a bs) t := Runs.comp ht rfl (State.answered351_runs ..)
  have hmem : t.mem = (g.storeDev a bs).mem := hafter.same .mem rfl
  have hclk : (g.storeDev a bs).clk = g.clk := hstore.same .clk rfl
  refine ⟨fun i b hb => ?_, fun i hi => ?_, ?_, Runs.comp hafter rfl (hstore.mono rfl)⟩
  · rw [State.memByte, hmem]
    exact State.memByte_storeDev_inside hw hmap hb
  · rw [State.memByte, hmem]
    exact State.memByte_storeDev_apart hi
  · have hresp : t.fab.resp = (g.storeDev a bs).fab.resp ++ [⟨src, seq, ctx, 0, res, (g.storeDev a bs).clk⟩] :=
      congrArg Fab.resp (ht.same .fab rfl)
    rw [hresp, List.getLast?_concat, hclk]

section
variable (hw : s.wf = true) (hrails : s.power.rails = true) (hp : p.wf = true)
  (hfirst : p.field 24 1 = 1 → ¬((s.wmOf p.src).isSome = true ∧ s.atomCtxs (· == p.src) ≠ []))
include hrails hp hfirst

theorem targetAtomic_repeats {e : RespEntry}
    (hnew : ∀ m, (s.atomHeard p).wmOf p.src = some m → seqBefore (p.field 128 32) m = false)
    (he : e ∈ (s.atomHeard p).fab.resp) (hsrc : e.src = p.src) (hseq : e.seq = p.field 128 32)
    (hone : ∀ y ∈ (s.atomHeard p).fab.resp, y.src = p.src → y.seq = p.field 128 32 → y = e) (hst : e.status < 16)
    (hres : e.result < 2 ^ 64) :
    ∃ t, exec (.targetAtomic ⟨p, []⟩) s = .next t ∧ t.Responds p.src 0x1A e.status (p.field 128 32) e.result [] ∧
      t.fab.resp = (s.atomHeard p).fab.resp ∧ Frame [.fab, .router] s t := by
  have hold : (s.atomMet p).isOld p.src (p.field 128 32) = false := State.isOld_atomMet.trans (State.isOld_eq_false hnew)
  rw [← State.resp_atomMet] at he hone
  obtain ⟨y, ys, hys⟩ : ∃ y ys, (s.atomMet p).fab.resp.filter (fun e => e.src == p.src && e.seq == p.field 128 32) = y :: ys := by
    refine List.exists_cons_of_ne_nil (List.ne_nil_of_mem (List.mem_filter.mpr ⟨he, ?_⟩))
    simp [hsrc, hseq]
  have hy : y = e := by
    obtain ⟨hin, hmatch⟩ := List.mem_filter.mp (hys ▸ List.mem_cons_self .. :
      y ∈ (s.atomMet p).fab.resp.filter (fun e => e.src == p.src && e.seq == p.field 128 32))
    rw [Bool.and_eq_true, beq_iff_eq, beq_iff_eq] at hmatch
    exact hone y hin hmatch.1 hmatch.2
  have hat : (s.atomMet p).atomAt p = (s.atomMet p, some (e.status, e.result)) := by
    rw [State.atomAt, State.atomApply_known _ _ _ _ _ _ _ hold hys, hy]
  obtain ⟨hot, heq⟩ := State.targetAtomic_answered ((congrArg (·.atomQueued p |>.atomAt p) (State.firstTaken_eq hfirst)).trans hat)
  obtain ⟨hresponds, hruns⟩ := State.respond_done (p := p) (s.atomMet p) hst hres hot (some (e.status, e.result))
  rw [← heq] at hresponds hruns
  exact ⟨_, exec_targetAtomic hrails hp, hresponds, (congrArg Fab.resp (hruns.same .fab rfl)).trans State.resp_atomMet,
    (Runs.comp hruns rfl ((s.atomMet_runs p).mono rfl)).frame⟩

include hw

theorem targetAtomic_ignores {m : Nat} (hm : (s.atomHeard p).wmOf p.src = some m) (hbefore : seqBefore (p.field 128 32) m = true) :
    ∃ t, exec (.targetAtomic ⟨p, []⟩) s = .next t ∧ t.router.inj = s.router.inj ∧
      t.router.delivered = (s.taken p).router.delivered ∧ t.ov atomicDupId = min (s.ov atomicDupId + 1) (2 ^ 32 - 1) ∧
      Frame [.fab, .router, .obj] s t := by
  have hold : (s.atomMet p).isOld p.src (p.field 128 32) = true := State.isOld_atomMet.trans (State.isOld_eq_true hm hbefore)
  have hat : (s.atomMet p).atomAt p = ((s.atomMet p).bump atomicDupId, none) := by
    rw [State.atomAt, State.atomApply_old _ _ _ _ _ _ _ hold]
  have heq : s.targetAtomic p [] = ((s.atomMet p).bump atomicDupId).applied343 p :=
    State.targetAtomic_unanswered ((congrArg (·.atomQueued p |>.atomAt p) (State.firstTaken_eq hfirst)).trans hat)
  have hruns := s.atomMet_runs p
  have hinj := State.inj_atomMet (s := s) (p := p)
  have hdel := State.delivered_atomMet (s := s) (p := p)
  generalize s.atomMet p = g at *
  refine ⟨_, (exec_targetAtomic hrails hp).trans (congrArg _ heq), hinj, congrArg (dropFirst (· == p)) hdel, ?_,
    (Runs.comp (State.applied343_runs ..) rfl (Runs.comp (State.bump_runs ..) rfl (hruns.mono rfl))).frame⟩
  have hov : ((g.bump atomicDupId).applied343 p).ov atomicDupId = (g.bump atomicDupId).ov atomicDupId := rfl
  rw [hov, State.ov_bump (State.keysFrom_vals (hruns.wf hw)), if_pos rfl, State.ov_congr (hruns.same .obj rfl), satAdd, Nat.add_comm]

theorem targetAtomic_updates (hnew : ∀ m, (s.atomHeard p).wmOf p.src = some m → seqBefore (p.field 128 32) m = false)
    (hnone : ∀ e ∈ (s.atomHeard p).fab.resp, ¬(e.src = p.src ∧ e.seq = p.field 128 32))
    (hlen : (s.atomHeard p).fab.resp.length < 16384)
    (hmap : s.anyUnmapped (pAddr p) (atomBytes (p.field 12 1 == 1)) = false)
    (hpoison : s.anyPoison (pAddr p) (atomBytes (p.field 12 1 == 1)) = false) :
    ∃ t, exec (.targetAtomic ⟨p, []⟩) s = .next t ∧
      (∀ i b, (toLE (atomBytes (p.field 12 1 == 1)) (s.operandNew (p.field 8 4) (p.field 12 1 == 1) (pAddr p) (p.field 256 64)
        (p.field 320 64)))[i]? = some b → t.memByte (pAddr p + i) = b) ∧
      (∀ i, i < pAddr p ∨ pAddr p + atomBytes (p.field 12 1 == 1) ≤ i → t.memByte i = s.memByte i) ∧
      t.Responds p.src 0x1A 0 (p.field 128 32)
        (if p.field 13 1 = 1 then s.operand (p.field 12 1 == 1) (pAddr p) else 0) [] ∧
      t.fab.resp.getLast? = some ⟨p.src, p.field 128 32, p.ctx, 0,
        if p.field 13 1 = 1 then s.operand (p.field 12 1 == 1) (pAddr p) else 0, s.clk⟩ ∧
      Frame [.mem, .fab, .router] s t := by
  have hruns := s.atomMet_runs p
  have hmem : (s.atomMet p).mem = s.mem := hruns.same .mem rfl
  have hclk : (s.atomMet p).clk = s.clk := hruns.same .clk rfl
  have hold : (s.atomMet p).isOld p.src (p.field 128 32) = false := State.isOld_atomMet.trans (State.isOld_eq_false hnew)
  have hfind : (s.atomMet p).fab.resp.filter (fun e => e.src == p.src && e.seq == p.field 128 32) = [] := by
    rw [List.filter_eq_nil_iff, State.resp_atomMet]
    intro e he
    simpa using hnone e he
  have hgmap : (s.atomMet p).anyUnmapped (pAddr p) (atomBytes (p.field 12 1 == 1)) = false :=
    (State.anyUnmapped_congr (congrArg Mem.gddr hmem) ..).trans hmap
  have hat := State.atomApply_new (t := s.atomMet p) p.ctx (p.field 8 4) (p.field 12 1 == 1) (p.field 13 1 == 1) (pAddr p)
    (p.field 256 64) (p.field 320 64) hold hfind (by rwa [State.resp_atomMet]) hgmap ((State.anyPoison_congr hmem ..).trans hpoison)
  rw [State.operandNew_congr hmem, State.operand, State.loadDev_congr hmem, ← State.operand] at hat
  simp only [beq_iff_eq] at hat
  obtain ⟨hot, heq⟩ := State.targetAtomic_answered ((congrArg (·.atomQueued p |>.atomAt p) (State.firstTaken_eq hfirst)).trans hat)
  have hres : (if p.field 13 1 = 1 then s.operand (p.field 12 1 == 1) (pAddr p) else 0) < 2 ^ 64 := by
    split
    · exact s.operand_lt ..
    · decide
  obtain ⟨hresponds, hrest⟩ := State.respond_done (p := p) _ (by decide : 0 < 2 ^ 4) hres hot (some (0, _))
  rw [← heq] at hresponds hrest
  obtain ⟨hinside, hapart, hkept, hdone⟩ := State.updates_facts (hruns.wf hw) (by rwa [length_toLE]) hrest
  rw [hclk] at hkept
  refine ⟨_, exec_targetAtomic hrails hp, hinside, fun i hi => ?_, hresponds, hkept, (Runs.comp hdone rfl (hruns.mono rfl)).frame⟩
  rw [hapart i (by rwa [length_toLE]), State.memByte, hmem, State.memByte]

end

end

/-! FIRST with atomics outstanding: the peer was reset (R353, R387). -/

theorem State.latch_failVote {s : State} (hs : StepsOk s) (d r c : Nat) : ((s.failVote d r).stp c).latch = (s.stp c).latch := by
  obtain ⟨⟨b, hb⟩, hothers⟩ := State.stp_failVote hs d r
  by_cases hc : c = d
  · rw [hc, hb]
  · rw [hothers c hc]

theorem State.stepsOk_latch {s : State} (hs : StepsOk s) (d r : Nat) : StepsOk (s.latch d r) := (s.latch_lasts d r).canonical hs

/-- A failure once latched stays so. -/
theorem State.latched_latch {s : State} (hs : StepsOk s) {c : Nat} (h : (s.stp c).latch.isSome = true) (d r : Nat) :
    ((s.latch d r).stp c).latch.isSome = true := by
  have hmod (f : StepCtx → StepCtx) (hf : ∀ x, x.latch.isSome = true → (f x).latch.isSome = true) :
      ((s.modStp d f).stp c).latch.isSome = true := by
    rw [State.modStp, State.stp_setStp hs]
    split
    case isTrue hc => exact hf _ (hc ▸ h)
    case isFalse => exact h
  have hok (f : StepCtx → StepCtx) : StepsOk (s.modStp d f) := twf_tset _ _ _ hs
  unfold State.latch
  dsimp only
  split
  case isFalse => exact h
  case isTrue =>
    split
    · rw [State.latch_failVote (hok _)]
      exact hmod _ fun _ _ => rfl
    · rw [State.latch_failVote (hok _)]
      exact hmod _ fun _ hx => hx
    · exact hmod _ fun _ _ => rfl
    · exact h

theorem State.latched_foldl {s : State} (hs : StepsOk s) {c : Nat} (h : (s.stp c).latch.isSome = true) (r : Nat) (cs : List Nat) :
    ((cs.foldl (fun s d => s.latch d r) s).stp c).latch.isSome = true := by
  induction cs generalizing s with
  | nil => exact h
  | cons d ds ih => exact ih (State.stepsOk_latch hs d r) (State.latched_latch hs h d r)

theorem State.failed_foldl {s : State} (hv : ValsOk s) (hs : StepsOk s) {c : Nat} (r : Nat) {cs : List Nat} (hc : c ∈ cs) :
    s.Failed (cs.foldl (fun s d => s.latch d r) s) c := by
  intro hon hrun
  induction cs generalizing s with
  | nil => exact absurd hc (List.not_mem_nil)
  | cons d ds ih =>
    obtain ⟨hv', hs', hstands⟩ := StepsStand.latch s d r hv hs
    by_cases hd : c = d
    · subst hd
      obtain ⟨x, hx⟩ := Failed.latch (.refl s) hv hs c r hon hrun
      exact Option.isSome_iff_exists.mp (State.latched_foldl hs' (by rw [hx]; rfl) r ds)
    · refine ih hv' hs' ((List.mem_cons.mp hc).resolve_left hd) ((hstands c).1 hon) ?_
      exact (congrArg StepCtx.st (hstands c).2).trans hrun

theorem State.failed_uncovered {s : State} (hw : s.wf = true) {c : Nat} (hc16 : c < 16) (code unit : Nat) {cs : List Nat}
    (hc : c ∈ cs) : s.Failed (s.uncovered code unit cs) c := by
  obtain ⟨u, hu⟩ : ∃ u, u = (s.faultRec (s.ftRead mgmtPs) code unit 0xFFFFFFFF).modOv faultStatusId
      (fun v => setBits (v ||| 2) 16 16 (satAdd 16 (bits v 16 16) 1)) := ⟨_, rfl⟩
  have heq : s.uncovered code unit cs = cs.foldl (fun s c => s.latch c 2) u := by rw [hu]; rfl
  have hruns : Runs [.obj, .flash] s u := by
    rw [hu]
    exact Runs.comp (State.modOv_runs ..) rfl ((State.faultRec_runs ..).mono rfl)
  have hobj : (s.faultRec (s.ftRead mgmtPs) code unit 0xFFFFFFFF).obj = s.obj := (State.faultRec_runs ..).same .obj rfl
  have hsteps : u.steps = s.steps := hruns.same .steps rfl
  intro hon hrun
  rw [heq]
  refine State.failed_foldl (State.keysFrom_vals (hruns.wf hw)) (State.twf_steps (hruns.wf hw)) 2 hc ?_ ?_
  · have hid : stepCfgId + c ≠ faultStatusId := by
      have h1 : stepCfgId = 0x600C0 := rfl
      have h2 : faultStatusId = 0xA0011 := rfl
      omega
    rw [State.stepsOn, hu, State.ov_modOv_of_obj (State.keysFrom_vals hw) hobj, if_neg hid]
    exact hon
  · rw [State.stp_congr hsteps]
    exact hrun

/-- What an ATOMIC does once its FIRST is taken: it keeps no entry but its own beside those there. -/
theorem State.targetAtomic_after (s : State) (p : Packet) :
    (∀ e ∈ (s.targetAtomic p []).fab.resp, e ∈ ((s.firstTaken p).atomQueued p).fab.resp ∨ (e.src = p.src ∧ e.seq = p.field 128 32)) ∧
      Runs [.mem, .fab, .router, .obj] (s.firstTaken p) (s.targetAtomic p []) := by
  have hqueued := (s.firstTaken p).atomQueued_runs p
  obtain ⟨hkept, hrow⟩ := State.atomApply_keeps p.ctx (p.field 8 4) (p.field 12 1 == 1) (p.field 13 1 == 1) (pAddr p)
    (p.field 256 64) (p.field 320 64) ((s.firstTaken p).atomQueued p) p.src (p.field 128 32)
  rw [← State.atomAt] at hkept hrow
  rcases hat : ((s.firstTaken p).atomQueued p).atomAt p with ⟨w, _ | ⟨st, res⟩⟩
  · rw [hat] at hkept hrow
    have hdone : Runs [.router] w (w.atomDone p none) := State.atomDone_runs ..
    rw [State.targetAtomic_unanswered hat]
    refine ⟨fun e he => hkept e ?_, Runs.comp hdone rfl (Runs.comp hrow rfl (hqueued.mono rfl))⟩
    rwa [show (w.atomDone p none).fab = w.fab from hdone.same .fab rfl] at he
  · rw [hat] at hkept hrow
    obtain ⟨hot, heq⟩ := State.targetAtomic_answered hat
    have hdone : Runs [.router] w ((w.respond p 0x1A st hot (p.field 128 32) res []).atomDone p (some (st, res))) :=
      Runs.comp (State.atomDone_runs ..) rfl (State.respond_runs ..)
    rw [heq]
    refine ⟨fun e he => hkept e ?_, Runs.comp hdone rfl (Runs.comp hrow rfl (hqueued.mono rfl))⟩
    rwa [show ((w.respond p 0x1A st hot (p.field 128 32) res []).atomDone p (some (st, res))).fab = w.fab from
      hdone.same .fab rfl] at he

theorem targetAtomic_resets {s : State} {p : Packet} (hw : s.wf = true) (hrails : s.power.rails = true) (hp : p.wf = true)
    (hfirst : p.field 24 1 = 1) (hknown : (s.wmOf p.src).isSome = true ∧ s.atomCtxs (· == p.src) ≠ []) :
    ∃ t, exec (.targetAtomic ⟨p, []⟩) s = .next t ∧ (∀ c ∈ s.atomCtxs (· == p.src), s.Failed t c) ∧
      (∀ e ∈ t.fab.resp, e.src = p.src → e.seq = p.field 128 32) ∧ Frame [.mem, .fab, .router, .steps, .obj, .flash] s t := by
  have hreset : s.peerReset p.src = s.uncovered 0x16 0 (s.atomCtxs (· == p.src)) := if_pos hknown
  have htaken : s.firstTaken p = s.atomFirst p.src := if_pos hfirst
  obtain ⟨hkept, hafter⟩ := s.targetAtomic_after p
  have hcleared : ∀ e ∈ ((s.firstTaken p).atomQueued p).fab.resp, e.src ≠ p.src := by
    rw [State.resp_atomQueued, State.resp_ackArrive]
    intro e he
    have hin := (List.mem_filter.mp he).1
    rw [htaken] at hin
    simpa using (List.mem_filter.mp hin).2
  have hsteps : (s.targetAtomic p []).steps = (s.uncovered 0x16 0 (s.atomCtxs (· == p.src))).steps := by
    have h : (s.targetAtomic p []).steps = (s.firstTaken p).steps := hafter.same .steps rfl
    rw [h, htaken, ← hreset]
    rfl
  refine ⟨_, exec_targetAtomic hrails hp, fun c hc hon hrun => ?_, fun e he hsrc => ?_, ?_⟩
  · rw [State.stp_congr hsteps]
    have hc16 : c < 16 := List.mem_range.mp (List.mem_filter.mp hc).1
    exact State.failed_uncovered hw hc16 0x16 0 hc hon hrun
  · exact ((hkept e he).resolve_left fun h => hcleared e h hsrc).2
  · rw [htaken] at hafter
    exact (Runs.comp hafter rfl ((s.atomFirst_runs p.src).mono rfl)).frame

/-! ATOMIC_COMBINED (R354). -/

theorem State.wmOf_of_tget {t : State} {src n : Nat} (h : tget 0 t.fab.wm src = n + 1) : t.wmOf src = some n := by
  rw [State.wmOf, h]

section
variable {s g : State} {p : Packet} {m : Nat}

/-- The state in which the member of a combined packet meets its row of R351. -/
def State.memberMet (s : State) (p : Packet) (m : Nat) : State := ((s.hotUpdate (pAddr p) 1 [mSrc m]).1).memberFirst p m

/-- The operand of a member. -/
def memberAddr (p : Packet) (m : Nat) : Nat := pAddr p / 64 * 64 + bits m 16 6

theorem State.atomicCombined_one (hone : pMembers p = [m]) {w : State} {st res : Nat}
    (h : (s.memberMet p m).atomApply (mSrc m) p.ctx (mSeq m) (p.field 8 4) (p.field 12 1 == 1) false (memberAddr p m)
      (bits m 64 64) 0 [] = (w, some (st, res))) :
    ∃ hot, s.atomicCombined p [] = (w.respond (withSrc p (mSrc m)) 0x1A st hot (mSeq m) res []).applied343 p := by
  refine ⟨(s.hotUpdate (pAddr p) 1 [mSrc m]).2.contains (mSrc m), ?_⟩
  have hsrcs : (pMembers p).map mSrc = [mSrc m] := by
    rw [hone]
    rfl
  unfold State.atomicCombined
  rw [hsrcs, hone]
  dsimp only [List.foldl_cons, List.foldl_nil, List.filter_nil]
  have herrs : (s.hotUpdate (pAddr p) 1 [mSrc m]).1.memErrs (pAddr p) 64 [] = (s.hotUpdate (pAddr p) 1 [mSrc m]).1 := rfl
  rw [herrs, ← State.memberMet, ← memberAddr, h]

variable (hfirst : (p.field 24 1 = 1 ∧ mSeq m = 0) → ¬((s.wmOf (mSrc m)).isSome = true ∧ s.atomCtxs (· == mSrc m) ≠ []))
  (hnew : ¬(p.field 24 1 = 1 ∧ mSeq m = 0) → ∀ k, s.wmOf (mSrc m) = some k → seqBefore (mSeq m) k = false)
include hfirst

/-- A member's source is heard: its watermark is there, and nothing kept is new. -/
theorem State.memberMet_facts :
    (∀ e ∈ (s.memberMet p m).fab.resp, e ∈ s.fab.resp) ∧ (s.memberMet p m).fab.resp.length ≤ s.fab.resp.length ∧
      Runs [.fab] s (s.memberMet p m) ∧ ((p.field 24 1 = 1 ∧ mSeq m = 0) → (s.memberMet p m).wmOf (mSrc m) = some 0) ∧
      (¬(p.field 24 1 = 1 ∧ mSeq m = 0) → (s.memberMet p m).wmOf (mSrc m) = some ((s.wmOf (mSrc m)).getD (mSeq m))) := by
  obtain ⟨h, hh⟩ : ∃ h, h = (s.hotUpdate (pAddr p) 1 [mSrc m]).1 := ⟨_, rfl⟩
  have hruns : Runs [.fab] s h := hh ▸ State.hotUpdate_runs ..
  have hquiet : h.fab.quiet = s.fab.quiet := hh ▸ State.quiet_hotUpdate ..
  have hwm : h.fab.wm = s.fab.wm := by
    have := congrArg Fab.wm hquiet
    exact this
  have hresp : h.fab.resp = s.fab.resp := by
    have := congrArg Fab.resp hquiet
    exact this
  have hatoms : h.fab.atoms = s.fab.atoms := by
    have := congrArg Fab.atoms hquiet
    exact this
  have hof : h.wmOf (mSrc m) = s.wmOf (mSrc m) := by rw [State.wmOf, hwm, State.wmOf]
  have hctxs : h.atomCtxs (· == mSrc m) = s.atomCtxs (· == mSrc m) := by rw [State.atomCtxs, hatoms, hresp, State.atomCtxs]
  rw [State.memberMet, ← hh]
  by_cases hf : p.field 24 1 = 1 ∧ mSeq m = 0
  · have hreset : h.peerReset (mSrc m) = h := by
      refine if_neg ?_
      rw [hof, hctxs]
      exact hfirst hf
    have heq : h.memberFirst p m = (h.setFab { h.fab with wm := tset 0 h.fab.wm (mSrc m) 1 }).setResp
        (h.fab.resp.filter (fun e => e.src != mSrc m)) := by
      rw [State.memberFirst, if_pos hf, State.atomFirst, hreset]
    rw [heq]
    refine ⟨fun e he => hresp ▸ (List.mem_filter.mp he).1, ?_, Runs.comp (State.setResp_runs ..) rfl
      (Runs.comp (State.setFab_runs ..) rfl hruns), fun _ => ?_, fun hn => absurd hf hn⟩
    · rw [← hresp]
      exact List.length_filter_le ..
    · exact State.wmOf_of_tget (tget_tset_self_of_ne 0 h.fab.wm (mSrc m) (by decide : (1 : Nat) ≠ 0))
  · rw [State.memberFirst, if_neg hf]
    unfold State.wmFirst
    rw [hof]
    cases hk : s.wmOf (mSrc m) with
    | some k =>
      exact ⟨fun e he => hresp ▸ he, Nat.le_of_eq (congrArg List.length hresp), hruns, fun hx => absurd hx hf,
        fun _ => hof.trans hk⟩
    | none =>
      exact ⟨fun e he => hresp ▸ he, Nat.le_of_eq (congrArg List.length hresp), Runs.comp (State.setFab_runs ..) rfl hruns,
        fun hx => absurd hx hf, fun _ => State.wmOf_of_tget (tget_tset_self_of_ne 0 h.fab.wm (mSrc m) (Nat.succ_ne_zero _))⟩

include hnew

theorem State.isOld_memberMet : (s.memberMet p m).isOld (mSrc m) (mSeq m) = false := by
  obtain ⟨-, -, -, hzero, hwm⟩ := State.memberMet_facts hfirst
  refine State.isOld_eq_false fun k hk => ?_
  by_cases hf : p.field 24 1 = 1 ∧ mSeq m = 0
  · rw [hzero hf] at hk
    rw [← Option.some.inj hk, hf.2, seqBefore_self]
  · rw [hwm hf] at hk
    rw [← Option.some.inj hk]
    cases hs : s.wmOf (mSrc m) with
    | none => exact seqBefore_self _
    | some n => exact hnew hf n hs

theorem atomicCombined_updates (hw : s.wf = true) (hrails : s.power.rails = true) (hp : p.wf = true) (hone : pMembers p = [m])
    (hnone : ∀ e ∈ s.fab.resp, ¬(e.src = mSrc m ∧ e.seq = mSeq m)) (hlen : s.fab.resp.length < 16384)
    (hmap : s.anyUnmapped (memberAddr p m) (atomBytes (p.field 12 1 == 1)) = false)
    (hpoison : s.anyPoison (memberAddr p m) (atomBytes (p.field 12 1 == 1)) = false) :
    ∃ t, exec (.atomicCombined ⟨p, []⟩) s = .next t ∧
      (∀ i y, (toLE (atomBytes (p.field 12 1 == 1)) (s.operandNew (p.field 8 4) (p.field 12 1 == 1) (memberAddr p m) (bits m 64 64)
        0))[i]? = some y → t.memByte (memberAddr p m + i) = y) ∧
      (∀ i, i < memberAddr p m ∨ memberAddr p m + atomBytes (p.field 12 1 == 1) ≤ i → t.memByte i = s.memByte i) ∧
      t.Responds (mSrc m) 0x1A 0 (mSeq m) 0 [] ∧
      ((p.field 24 1 = 1 ∧ mSeq m = 0) → t.wmOf (mSrc m) = some 0) ∧
      (¬(p.field 24 1 = 1 ∧ mSeq m = 0) → s.wmOf (mSrc m) = none → t.wmOf (mSrc m) = some (mSeq m)) ∧
      Frame [.mem, .fab, .router] s t := by
  obtain ⟨hresp, hlength, hruns, hzero, hwm⟩ := State.memberMet_facts hfirst
  have hold := State.isOld_memberMet hfirst hnew
  obtain ⟨g, hg⟩ : ∃ g, g = s.memberMet p m := ⟨_, rfl⟩
  rw [← hg] at hresp hlength hruns hzero hwm hold
  have hmem : g.mem = s.mem := hruns.same .mem rfl
  have hfind : g.fab.resp.filter (fun e => e.src == mSrc m && e.seq == mSeq m) = [] := by
    rw [List.filter_eq_nil_iff]
    intro e he
    simpa using hnone e (hresp e he)
  have hgmap : g.anyUnmapped (memberAddr p m) (atomBytes (p.field 12 1 == 1)) = false :=
    (State.anyUnmapped_congr (congrArg Mem.gddr hmem) ..).trans hmap
  have hat := State.atomApply_new (t := g) p.ctx (p.field 8 4) (p.field 12 1 == 1) false (memberAddr p m) (bits m 64 64) 0 hold hfind
    (Nat.lt_of_le_of_lt hlength hlen) hgmap ((State.anyPoison_congr hmem ..).trans hpoison)
  rw [State.operandNew_congr hmem, if_neg Bool.false_ne_true] at hat
  obtain ⟨hot, heq⟩ := State.atomicCombined_one hone (hg ▸ hat)
  obtain ⟨w, hww⟩ : ∃ w, w = (g.storeDev (memberAddr p m) (toLE (atomBytes (p.field 12 1 == 1)) (s.operandNew (p.field 8 4)
    (p.field 12 1 == 1) (memberAddr p m) (bits m 64 64) 0))).answered351 (mSrc m) p.ctx (mSeq m) 0 0 := ⟨_, rfl⟩
  obtain ⟨u, hu⟩ : ∃ u, u = w.respond (withSrc p (mSrc m)) 0x1A 0 hot (mSeq m) 0 [] := ⟨_, rfl⟩
  rw [← hg, ← hww, ← hu] at heq
  have hwu : Runs [.router] w u := hu ▸ State.respond_runs ..
  have hut : Runs [.router] w (u.applied343 p) := Runs.comp (State.applied343_runs ..) rfl hwu
  have hresponds : u.Responds (mSrc m) 0x1A 0 (mSeq m) 0 [] := by
    rw [hu]
    exact w.responds_respond (withSrc p (mSrc m)) hot [] (by decide) (by decide) (Nat.mod_lt _ (Nat.two_pow_pos 32)) (by decide)
  obtain ⟨hinside, hapart, -, hdone⟩ := State.updates_facts (hruns.wf hw) (by rwa [length_toLE]) (hww ▸ hut)
  have htwm : (u.applied343 p).wmOf (mSrc m) = g.wmOf (mSrc m) := by
    have hstored : (g.storeDev (memberAddr p m) (toLE (atomBytes (p.field 12 1 == 1)) (s.operandNew (p.field 8 4)
      (p.field 12 1 == 1) (memberAddr p m) (bits m 64 64) 0))).fab = g.fab := (State.storeDev_runs ..).same .fab rfl
    have hfab : (u.applied343 p).fab.wm = g.fab.wm := by
      have h : (u.applied343 p).fab = w.fab := hut.same .fab rfl
      rw [h, hww, ← hstored]
      rfl
    rw [State.wmOf, hfab, State.wmOf]
  refine ⟨_, (need_of hp _).trans ((powered_of hrails _).trans (congrArg _ heq)), hinside, fun i hi => ?_, hresponds.of_inj rfl,
    fun hf => htwm.trans (hzero hf), fun hf hn => htwm.trans ?_, (Runs.comp hdone rfl (hruns.mono rfl)).frame⟩
  · rw [hapart i (by rwa [length_toLE]), State.memByte, hmem, State.memByte]
  · rw [hwm hf, hn]
    rfl

end

theorem fabricRequests_off {s : State} {p : Packet} (hp : p.wf = true) (hrails : s.power.rails = false) :
    ∀ c ∈ [Instr.targetRead p [], .targetWrite p [], .targetFlaggedWrite ⟨p, []⟩, .targetAtomic ⟨p, []⟩,
      .atomicCombined ⟨p, []⟩, .atomicAck p], exec c s = .next s := by
  simp only [List.forall_mem_cons, List.not_mem_nil, false_imp_iff, implies_true, and_true]
  exact ⟨(need_of hp _).trans (powered_off hrails _), (need_of hp _).trans (powered_off hrails _),
    (need_of hp _).trans (powered_off hrails _), (need_of hp _).trans (powered_off hrails _),
    (need_of hp _).trans (powered_off hrails _), (need_of hp _).trans (powered_off hrails _)⟩

/-- Settles O55. -/
theorem fabricRequestsAreServed : Obligations.FabricRequestsAreServed := by
  unfold Obligations.FabricRequestsAreServed
  intro s p hw hp
  refine ⟨fabricRequests_off hp, fun hrails => ⟨targetRead_responds hrails hp, targetWrite_stores hw hrails hp,
    targetFlaggedWrite_waits hrails hp, ⟨fun hfirst => ⟨targetAtomic_updates hw hrails hp hfirst,
      fun e => targetAtomic_repeats hrails hp hfirst, fun m => targetAtomic_ignores hw hrails hp hfirst⟩,
      targetAtomic_resets hw hrails hp⟩, fun m hone => ?_, atomicAck_frees hrails hp⟩⟩
  intro wide w b x first hfirst hnew hnone hlen hmap hpoison
  have hzero : (0 : Nat) % 2 ^ (8 * w) = 0 := Nat.zero_mod _
  rw [← hzero]
  exact atomicCombined_updates hfirst hnew hw hrails hp hone hnone hlen hmap hpoison

end Sys2Proof.Machine
end


-- ==== Sys2Proof/Proofs/UrnLinks.lean ====
section
/-!
PROOF. Why a FREE does not always leave the link that R315 asks for: `State.wf` says nothing about the table of changed links, and
one that lists a buffer twice keeps its second entry when FREE drops the first.
-/

namespace Sys2Proof.Machine

namespace TwiceLinked

open Tests

/-- The urn of the tests with a changed link listed twice for the held buffer 2 of class 0, whose list's head is buffer 3. -/
def module : State := urned.setUrn { urned.urn with links := [(urnKey 0 2, 6), (urnKey 0 2, 6)] }

/-- FREE of that buffer. -/
def word : Word64 := uw 1 0 0 (handleOf 0 2 127)

/-- The link of buffer 2 of class 0 after a command. -/
def linkAfter : Result → Option Nat
  | .next t => some (t.urnLink 0 2)
  | _ => none

/-- FREE drops the first entry, and the second is left to be read. -/
theorem linkAfter_free : linkAfter (exec (.free (.page 3) word) module) = some 5 := by decide +kernel

end TwiceLinked

/-- Refutes O52 at the link that FREE leaves: where the table of changed links lists the buffer twice, the freed buffer's link
reads 5 and not 3, the head that the list had before. -/
theorem not_urnCommandsAllocateAndFree : ¬ Obligations.UrnCommandsAllocateAndFree := by
  unfold Obligations.UrnCommandsAllocateAndFree
  intro h
  have hfree : ∃ t, exec (.free (.page 3) TwiceLinked.word) TwiceLinked.module = .next t ∧ t.urnLink 0 2 = 3 := by
    obtain ⟨-, hacts⟩ := h TwiceLinked.module 3 TwiceLinked.word (by decide +kernel) (by decide) (by decide +kernel) (by decide +kernel)
    obtain ⟨-, hfree, -⟩ := hacts (by decide +kernel) (by decide +kernel) (by decide +kernel) (by decide +kernel)
    obtain ⟨hchecked, -⟩ := hfree (by decide +kernel)
    obtain ⟨t, hexec, -, -, -, hlink, -⟩ := hchecked (by decide +kernel)
    have hclass : hClass (bits TwiceLinked.word.toNat 32 32) = 0 := by decide +kernel
    have hindex : hIndex (bits TwiceLinked.word.toNat 32 32) = 2 := by decide +kernel
    rw [hclass, hindex] at hlink
    exact ⟨t, hexec, hlink 3 [] (by decide +kernel)⟩
  obtain ⟨t, hexec, hlink⟩ := hfree
  have hread := TwiceLinked.linkAfter_free
  rw [hexec, TwiceLinked.linkAfter, hlink] at hread
  exact absurd hread (by decide)

end Sys2Proof.Machine
end


-- ==== Sys2Proof/Proofs/UrnSends.lean ====
section
/-!
PROOF. Pipeline sends: credit requests and their grants, the data that arrives under a grant, and the repair of a free list (R317,
R323 to R326).
-/

namespace Sys2Proof.Machine

/-! Allocation rests on the lists alone. -/

/-- A state with other queues: the router's, the requests of pipeline sends, and the ALLOC commands that wait. -/
def State.withQueues (s : State) (r : Router) (qs : Tbl (List UrnReq)) (ws : List (Nat × Nat)) : State :=
  { s with router := r, urn := { s.urn with reqs := qs, waiting := ws } }

section
variable {s : State} {r : Router} {qs : Tbl (List UrnReq)} {ws : List (Nat × Nat)} {c k n : Nat} {persist : Bool}

theorem State.urnShared_withQueues (cs : List Nat) : (s.withQueues r qs ws).urnShared c n cs = s.urnShared c n cs := by
  induction cs with
  | nil => rfl
  | cons i cs ih =>
    unfold State.urnShared
    rw [ih]
    rfl

theorem State.urnPick_withQueues : (s.withQueues r qs ws).urnPick c k n = s.urnPick c k n := by
  unfold State.urnPick
  rw [State.urnShared_withQueues]
  rfl

theorem State.urnStall_withQueues : (s.withQueues r qs ws).urnStall c k n = s.urnStall c k n := by
  unfold State.urnStall
  rw [State.urnPick_withQueues]
  rfl

theorem State.urnTake_withQueues (i : Nat) (reserve : Bool) : (s.withQueues r qs ws).urnTake i c k persist reserve =
    (s.urnTake i c k persist reserve).map (fun q => (q.1, q.2.withQueues r qs ws)) := by
  have hhead : (s.withQueues r qs ws).urnHead i = s.urnHead i := rfl
  rw [State.urnTake, State.urnPop, hhead, State.urnTake, State.urnPop]
  cases s.urnHead i <;> rfl

theorem State.urnAlloc_withQueues : (s.withQueues r qs ws).urnAlloc c k n persist =
    (s.urnAlloc c k n persist).map (fun q => (q.1, q.2.withQueues r qs ws)) := by
  rw [State.urnAlloc, State.urnPick_withQueues, State.urnAlloc]
  cases s.urnPick c k n with
  | none => rfl
  | some q => exact State.urnTake_withQueues ..

theorem State.urnAlloc_of_withQueues {h : Nat} {u : State} (halloc : s.urnAlloc c k n persist = some (h, u)) :
    (s.withQueues r qs ws).urnAlloc c k n persist = some (h, u.withQueues r qs ws) := by
  rw [State.urnAlloc_withQueues, halloc]
  rfl

/-- An allocation changes buffers, lists, links and bytes, and nothing else of the urn. -/
theorem State.urn_of_urnAlloc {h : Nat} {u : State} (halloc : s.urnAlloc c k n persist = some (h, u)) :
    ∃ bufs lists links bytes, u =
      s.setUrn { s.urn with bufs := bufs, lists := lists, links := links, bytes := bytes } := by
  rw [State.urnAlloc] at halloc
  split at halloc
  case h_2 => cases halloc
  case h_1 i reserve hpick =>
    rw [State.urnTake, State.urnPop] at halloc
    cases hhead : s.urnHead i with
    | none =>
      rw [hhead] at halloc
      cases halloc
    | some j =>
      rw [hhead] at halloc
      injection halloc with halloc
      injection halloc with _ hu
      exact ⟨_, _, _, _, hu.symm⟩

end

/-! A request of a pipeline send. -/

/-- A request, kept as a grant whose inbox slot is taken. -/
def State.granting (u : State) (c : Nat) (r : UrnReq) (h : Nat) : State :=
  u.setUrn { u.urn with
    reqs := tset [] u.urn.reqs c []
    grants := u.urn.grants ++ [⟨c, r.src, r.reqId, h, r.bytes, r.bytes, r.tag⟩]
    inboxTaken := tset 0 u.urn.inboxTaken c (tget 0 u.urn.inboxTaken c + 1) }

section
variable {s : State} {c : Nat} {r : UrnReq}

theorem State.tget_reqs (h : s.urn.reqs = [(c, [r])]) : tget [] s.urn.reqs c = [r] := by
  rw [h]
  exact if_pos rfl

theorem State.urnServe_nothing (f : Nat) (h : tget [] s.urn.reqs c = []) : State.urnServe c f s = s := by
  cases f with
  | zero => rfl
  | succ f => rw [State.urnServe, h]

theorem State.urnServe_full (f : Nat) (hreqs : s.urn.reqs = [(c, [r])]) (hroom : s.inboxRoom c = false) :
    State.urnServe c (f + 1) s = s := by
  rw [State.urnServe, State.tget_reqs hreqs]
  exact if_pos hroom

theorem State.urnServe_stalls (f : Nat) {k : Nat} (hreqs : s.urn.reqs = [(c, [r])]) (hroom : s.inboxRoom c = true)
    (hstall : s.urnStall c 2 r.bytes = some k) : State.urnServe c (f + 1) s = s.urnStop k := by
  rw [State.urnServe, State.tget_reqs hreqs]
  dsimp only
  rw [if_neg (by simp [hroom]), hstall]

theorem State.urnServe_grants (f : Nat) {h : Nat} {u : State} (hreqs : s.urn.reqs = [(c, [r])]) (hroom : s.inboxRoom c = true)
    (hstall : s.urnStall c 2 r.bytes = none) (halloc : s.urnAlloc c 2 r.bytes false = some (h, u)) :
    State.urnServe c (f + 1) s = (u.granting c r h).send hubUrn 0 c r.src (urnBody 0x81 r.reqId 0 h 0) := by
  have hkept : u.urn.reqs = [(c, [r])] := by
    obtain ⟨_, _, _, _, rfl⟩ := State.urn_of_urnAlloc halloc
    exact hreqs
  have hempty : tget [] ((u.granting c r h).send hubUrn 0 c r.src (urnBody 0x81 r.reqId 0 h 0)).urn.reqs c = [] := by
    change tget [] (tset [] u.urn.reqs c []) c = []
    rw [hkept]
    simp [tset, terase]
  rw [State.urnServe, State.tget_reqs hreqs]
  dsimp only
  rw [if_neg (by simp [hroom]), hstall, halloc]
  exact State.urnServe_nothing f hempty

theorem State.mem_repairing_urnStop (s : State) (k : Nat) : k ∈ (s.urnStop k).urn.repairing := by
  unfold State.urnStop
  split
  case isTrue h => exact List.contains_iff_mem.mp h
  case isFalse => exact List.mem_append_right _ (List.mem_singleton.mpr rfl)

theorem State.urn_urnStop (s : State) (k : Nat) : ∃ rs, s.urnStop k = s.setUrn { s.urn with repairing := rs } := by
  unfold State.urnStop
  split
  · exact ⟨_, rfl⟩
  · exact ⟨_, rfl⟩

end

/-- What a request that is granted leaves. -/
structure State.Granted (s t : State) (c : Nat) (r : UrnReq) (h : Nat) (bufs : Tbl UrnBuf) : Prop where
  sent : t.Sent 0 r.src 0x81
  reqs : t.urn.reqs = []
  bufs : t.urn.bufs = bufs
  grants : t.urn.grants = s.urn.grants ++ [⟨c, r.src, r.reqId, h, r.bytes, r.bytes, r.tag⟩]

theorem urnBody_fop (fop id n h tag : Nat) : bytesField (urnBody fop id n h tag) 0 8 = fop % 2 ^ 8 :=
  bytesField_mkBody [] _ fop rfl (by decide)

theorem State.granted_of_alloc {s u : State} {c h : Nat} {r : UrnReq} (hreqs : s.urn.reqs = [(c, [r])])
    (halloc : s.urnAlloc c 2 r.bytes false = some (h, u)) :
    s.Granted ((u.granting c r h).send hubUrn 0 c r.src (urnBody 0x81 r.reqId 0 h 0)) c r h u.urn.bufs := by
  obtain ⟨_, _, _, _, rfl⟩ := State.urn_of_urnAlloc halloc
  refine ⟨State.sent_send _ _ _ _ _ (urnBody_fop ..), ?_, rfl, rfl⟩
  change tset [] s.urn.reqs c [] = []
  rw [hreqs]
  simp [tset, terase]

/-! CREDIT_REQ and URN_REQUEST_SERVE. -/

section
variable {s : State} {p : Packet}

/-- The request of a CREDIT_REQ. -/
def urnReqOf (p : Packet) : UrnReq := ⟨p.src, p.field 16 16, p.field 32 32, p.field 96 32⟩

theorem State.creditReq_queued (h : s.urn.reqs = []) : s.creditReq p =
    (s.withQueues (s.taken p).router [(p.ctx, [urnReqOf p])] s.urn.waiting).urnRequestServe p.ctx := by
  have hlist : tget [] s.urn.reqs p.ctx = [] := by rw [h]; rfl
  rw [State.creditReq, hlist]
  dsimp only
  rw [if_neg (by decide), h]
  rfl

theorem exec_creditReq (hrails : s.power.rails = true) (hp : p.wf = true) : exec (.creditReq p) s = .next (s.creditReq p) :=
  (need_of hp _).trans (powered_of hrails _)

end

theorem exec_urnRequestServe {s : State} {c : Nat} (hc : c < 16) :
    exec (.urnRequestServe c) s = .next (s.urnRequestServe c) := need_of (decide_eq_true hc) _

section
variable {s : State} {p : Packet} (hempty : s.urn.reqs = [])
include hempty

theorem State.creditReq_waits (hroom : s.inboxRoom p.ctx = false) :
    (s.creditReq p).urn.reqs = [(p.ctx, [urnReqOf p])] ∧ (s.creditReq p).urn.grants = s.urn.grants ∧
      (s.creditReq p).router = (s.taken p).router := by
  have hroom' : (s.withQueues (s.taken p).router [(p.ctx, [urnReqOf p])] s.urn.waiting).inboxRoom p.ctx = false := hroom
  rw [State.creditReq_queued hempty, State.urnRequestServe, State.urnServe_full 255 rfl hroom']
  exact ⟨rfl, rfl, rfl⟩

theorem State.creditReq_stalls {k : Nat} (hroom : s.inboxRoom p.ctx = true)
    (hstall : s.urnStall p.ctx 2 (urnReqOf p).bytes = some k) :
    (s.creditReq p).urn.reqs = [(p.ctx, [urnReqOf p])] ∧ k ∈ (s.creditReq p).urn.repairing ∧
      (s.creditReq p).urn.grants = s.urn.grants ∧ (s.creditReq p).router = (s.taken p).router := by
  have hroom' : (s.withQueues (s.taken p).router [(p.ctx, [urnReqOf p])] s.urn.waiting).inboxRoom p.ctx = true := hroom
  rw [State.creditReq_queued hempty, State.urnRequestServe,
    State.urnServe_stalls 255 rfl hroom' (State.urnStall_withQueues.trans hstall)]
  refine ⟨?_, State.mem_repairing_urnStop .., ?_⟩
  all_goals obtain ⟨rs, hstop⟩ := State.urn_urnStop (s.withQueues (s.taken p).router [(p.ctx, [urnReqOf p])] s.urn.waiting) k
  all_goals rw [hstop]
  · rfl
  · exact ⟨rfl, rfl⟩

theorem State.creditReq_grants {h : Nat} {u : State} (hroom : s.inboxRoom p.ctx = true)
    (hstall : s.urnStall p.ctx 2 (urnReqOf p).bytes = none)
    (halloc : s.urnAlloc p.ctx 2 (urnReqOf p).bytes false = some (h, u)) :
    s.Granted (s.creditReq p) p.ctx (urnReqOf p) h u.urn.bufs := by
  have hroom' : (s.withQueues (s.taken p).router [(p.ctx, [urnReqOf p])] s.urn.waiting).inboxRoom p.ctx = true := hroom
  rw [State.creditReq_queued hempty, State.urnRequestServe,
    State.urnServe_grants 255 rfl hroom' (State.urnStall_withQueues.trans hstall) (State.urnAlloc_of_withQueues halloc)]
  obtain ⟨hsent, hreqs, hbufs, hgrants⟩ := State.granted_of_alloc
    (s := s.withQueues (s.taken p).router [(p.ctx, [urnReqOf p])] s.urn.waiting) rfl (State.urnAlloc_of_withQueues halloc)
  exact ⟨hsent, hreqs, hbufs, hgrants⟩

end

theorem State.urnRequestServe_grants {s u : State} {c h : Nat} {r : UrnReq} (hreqs : s.urn.reqs = [(c, [r])])
    (hroom : s.inboxRoom c = true) (hstall : s.urnStall c 2 r.bytes = none)
    (halloc : s.urnAlloc c 2 r.bytes false = some (h, u)) : s.Granted (s.urnRequestServe c) c r h u.urn.bufs := by
  rw [State.urnRequestServe, State.urnServe_grants 255 hreqs hroom hstall halloc]
  exact State.granted_of_alloc hreqs halloc

/-! URN_GRANT. -/

/-- The request of a SEND tile after a GRANT. -/
def SendRec.granted (p : Packet) (r : SendRec) : SendRec :=
  if r.ctx = p.ctx ∧ r.reqId = p.field 16 16 ∧ r.dest = p.src then { r with handle := some (p.field 64 32) } else r

theorem State.sends_urnGranted (s : State) (p : Packet) : (s.urnGranted p).urn.sends = s.urn.sends.map (SendRec.granted p) := rfl

/-! URN_DATA. -/

section
variable {s : State} {p : Packet} {g : UrnGrantRec}

/-- The bytes of a DATA packet, stored in the buffer of its handle. -/
def State.dataStored (s : State) (p : Packet) : State :=
  (s.taken p).urnStore (hKey (p.field 64 32)) (p.field 32 32) (p.body.drop 16)

/-- Address of the next record of a context's inbox ring (R325). -/
def State.inboxAt (s : State) (c : Nat) : Nat := bits (s.ov (urnInboxId + c)) 0 64 + 16 * tget 0 s.urn.inboxTail c

/-- The record that the last byte of a transfer writes (R325). -/
def inboxRecord (g : UrnGrantRec) : List Byte :=
  mkBody 16 [(0, 32, g.handle), (32, 32, g.bytes), (64, 16, g.src), (96, 32, g.tag)]

/-- The inbox record is written. -/
def State.inboxed (s : State) (p : Packet) (g : UrnGrantRec) : State :=
  (s.dataStored p).storeDev (s.inboxAt p.ctx) (inboxRecord g)

/-- The tail has moved, and the grant is gone. -/
def State.inboxMoved (s : State) (p : Packet) (g : UrnGrantRec) : State :=
  (s.inboxed p g).setUrn { (s.inboxed p g).urn with
    grants := []
    inboxTail := tset 0 (s.inboxed p g).urn.inboxTail p.ctx
      ((tget 0 s.urn.inboxTail p.ctx + 1) % (s.inboxed p g).inboxSize p.ctx)
    inboxTaken := tset 0 (s.inboxed p g).urn.inboxTaken p.ctx (tget 0 (s.inboxed p g).urn.inboxTaken p.ctx - 1) }

/-- The one grant outstanding is a DATA packet's. -/
def UrnGrantRec.Meets (g : UrnGrantRec) (p : Packet) : Prop :=
  g.ctx = p.ctx ∧ g.src = p.src ∧ g.reqId = p.field 16 16 ∧ g.handle = p.field 64 32

theorem UrnGrantRec.Meets.test (h : g.Meets p) :
    (g.ctx == p.ctx && g.src == p.src && g.reqId == p.field 16 16 && g.handle == p.field 64 32) = true := by
  obtain ⟨hctx, hsrc, hid, hhandle⟩ := h
  simp [hctx, hsrc, hid, hhandle]

theorem State.urn_inboxed (s : State) (p : Packet) (g : UrnGrantRec) : (s.inboxed p g).urn = (s.dataStored p).urn :=
  (State.storeDev_runs ..).same .urn rfl

theorem State.urnDataIn_more (hgrants : s.urn.grants = [g]) (h : g.Meets p) (hmore : (p.body.drop 16).length < g.left) :
    s.urnDataIn p = (s.dataStored p).setUrn { (s.dataStored p).urn with
      grants := [{ g with left := g.left - (p.body.drop 16).length }] } := by
  have hkept : (s.dataStored p).urn.grants = [g] := hgrants
  have htaken : (s.taken p).urn.grants = [g] := hgrants
  unfold State.urnDataIn
  dsimp only
  simp only [htaken, List.filter_cons, List.filter_nil, h.test, if_true, List.head?_cons]
  rw [if_pos hmore]
  change State.setUrn (s.dataStored p) { (s.dataStored p).urn with grants := List.map _ (s.dataStored p).urn.grants } = _
  rw [hkept, List.map_cons, if_pos h.test]
  rfl

theorem State.urnDataIn_last (hgrants : s.urn.grants = [g]) (h : g.Meets p) (hlast : g.left ≤ (p.body.drop 16).length) :
    s.urnDataIn p = (s.inboxMoved p g).signalWord p.ctx (bits (s.ov (urnInboxId + p.ctx)) 80 32) := by
  have hkept : (s.inboxed p g).urn.grants = [g] := (congrArg Urn.grants (State.urn_inboxed s p g)).trans hgrants
  have htaken : (s.taken p).urn.grants = [g] := hgrants
  unfold State.urnDataIn
  dsimp only
  simp only [htaken, List.filter_cons, List.filter_nil, h.test, if_true, List.head?_cons]
  have hrecord : mkBody 16 [(0, 32, p.field 64 32), (32, 32, g.bytes), (64, 16, g.src), (96, 32, g.tag)] = inboxRecord g := by
    rw [inboxRecord, h.2.2.2]
  rw [if_neg (Nat.not_lt.mpr hlast), hrecord]
  change State.signalWord (State.setUrn (s.inboxed p g) { (s.inboxed p g).urn with
    grants := List.filter _ (s.inboxed p g).urn.grants
    inboxTail := _
    inboxTaken := _ }) _ _ = _
  rw [hkept, List.filter_cons_of_neg (by rw [h.test]; decide)]
  rfl

/-- What the last DATA packet of a transfer leaves. -/
theorem State.urnDataIn_lands (hw : s.wf = true) (hgrants : s.urn.grants = [g]) (h : g.Meets p)
    (hlast : g.left ≤ (p.body.drop 16).length) :
    (s.urnDataIn p).urn.bytes = (s.dataStored p).urn.bytes ∧ (s.urnDataIn p).urn.grants = [] ∧
      (s.anyUnmapped (s.inboxAt p.ctx) 16 = false → ∀ i b, (inboxRecord g)[i]? = some b →
        (s.urnDataIn p).memByte (s.inboxAt p.ctx + i) = b) ∧
      (tget 0 s.urn.inboxTail p.ctx + 1 < s.inboxSize p.ctx →
        tget 0 (s.urnDataIn p).urn.inboxTail p.ctx = tget 0 s.urn.inboxTail p.ctx + 1) ∧
      (s.urnDataIn p).sync = (s.signalWord p.ctx (bits (s.ov (urnInboxId + p.ctx)) 80 32)).sync := by
  obtain ⟨w, hword⟩ : ∃ w, w = bits (s.ov (urnInboxId + p.ctx)) 80 32 := ⟨_, rfl⟩
  have hstored : Runs [.mem] (s.dataStored p) (s.inboxed p g) := State.storeDev_runs ..
  have hsignal := (s.inboxMoved p g).signalWord_runs p.ctx w
  have hurn : ((s.inboxMoved p g).signalWord p.ctx w).urn = (s.inboxMoved p g).urn := hsignal.same .urn rfl
  have hmem : ((s.inboxMoved p g).signalWord p.ctx w).mem = (s.inboxed p g).mem := hsignal.same .mem rfl
  have hobj : (s.inboxed p g).obj = s.obj := hstored.same .obj rfl
  have hsync : (s.inboxed p g).sync = s.sync := hstored.same .sync rfl
  rw [State.urnDataIn_last hgrants h hlast, ← hword]
  refine ⟨?_, ?_, fun hmapped i b hb => ?_, fun hlt => ?_, ?_⟩
  · rw [hurn]
    change (s.inboxed p g).urn.bytes = _
    rw [State.urn_inboxed]
  · rw [hurn]
    rfl
  · have hbyte : ((s.inboxMoved p g).signalWord p.ctx w).memByte (s.inboxAt p.ctx + i) =
        (s.inboxed p g).memByte (s.inboxAt p.ctx + i) := by
      rw [State.memByte, hmem, State.memByte]
    have hlen : (inboxRecord g).length = 16 := length_mkBody ..
    have hwf : (s.dataStored p).wf = true := (Runs.comp (L := [.urn, .router]) ((s.taken p).urnStore_runs ..) rfl ((State.taken_runs s p).mono rfl)).wf hw
    rw [hbyte]
    exact State.memByte_storeDev_inside hwf (by rw [hlen]; exact hmapped) hb
  · have hsize : (s.inboxed p g).inboxSize p.ctx = s.inboxSize p.ctx := by
      rw [State.inboxSize, State.ov_congr hobj, State.inboxSize]
    rw [hurn]
    change tget 0 (tset 0 _ p.ctx (_ % (s.inboxed p g).inboxSize p.ctx)) p.ctx = _
    rw [hsize, Nat.mod_eq_of_lt hlt, tget_tset_self_of_ne _ _ _ (Nat.succ_ne_zero _)]
  · have hsame : SyncSame s (s.inboxMoved p g) := ⟨hsync, congrArg Objects.syncMap hobj⟩
    exact (hsame.signalWord p.ctx w).1

end

/-! The repair of a free list (R317). -/

theorem PagesOk.pageResume_nothing {s : State} (h : PagesOk s) (hlater : ∀ j, (s.page j).later = []) (c : Nat) :
    PagesOk (s.pageResume c) ∧ (∀ j, (s.pageResume c).page j = s.page j) ∧ Runs [.host] s (s.pageResume c) := by
  have heq : s.pageResume c = s.modPage c ({ · with later := [] }) := by
    rw [State.pageResume, hlater c]
    rfl
  have hsame : ({ s.page c with later := [] } : Page) = s.page c := by rw [← hlater c]
  rw [heq]
  refine ⟨h.setPage c _, fun j => ?_, State.modPage_runs ..⟩
  rw [State.page_modPage h]
  split
  case isTrue hj => rw [hj]; exact hsame
  case isFalse => rfl

theorem PagesOk.foldl_pageResume_nothing (cs : List Nat) {s : State} (h : PagesOk s) (hlater : ∀ j, (s.page j).later = []) :
    (∀ j, (cs.foldl (fun s c => s.pageResume c) s).page j = s.page j) ∧
      Runs [.host] s (cs.foldl (fun s c => s.pageResume c) s) := by
  induction cs generalizing s with
  | nil => exact ⟨fun _ => rfl, Runs.refl s⟩
  | cons c cs ih =>
    obtain ⟨hok, hpage, hruns⟩ := h.pageResume_nothing hlater c
    obtain ⟨hrest, hruns'⟩ := ih hok (fun j => by rw [hpage, hlater])
    exact ⟨fun j => (hrest j).trans (hpage j), hruns.trans hruns'⟩

theorem State.foldl_serve_nothing (cs : List Nat) {s : State} (h : s.urn.reqs = []) :
    cs.foldl (fun s c => s.urnRequestServe c) s = s := by
  induction cs with
  | nil => rfl
  | cons c cs ih =>
    have hserve : s.urnRequestServe c = s := State.urnServe_nothing 256 (by rw [h]; rfl)
    rw [List.foldl_cons, hserve, ih]

section
variable {s : State} {k : Nat}

/-- The list of a class rebuilt, with its flag set. -/
def State.repaired (s : State) (k : Nat) : State := (s.urnRebuild k).urnFlag 3 0

theorem State.repaired_runs (s : State) (k : Nat) : Runs [.urn, .obj] s (s.repaired k) :=
  Runs.comp (State.urnFlag_runs ..) rfl ((State.urnRebuild_runs s k).mono rfl)

theorem State.urn_repaired (s : State) (k : Nat) : (s.repaired k).urn = (s.urnRebuild k).urn :=
  (State.urnFlag_runs ..).same .urn rfl

/-- A repair with no request queued and no write of a page waiting: the ALLOC commands of pages that waited are what follows it. -/
theorem State.urnRepair_of_quiet {u : State} (hw : s.wf = true) (hk : k ∈ s.urn.repairing) (hreqs : s.urn.reqs = [])
    (hdefer : s.caddy.deferred = []) (hlater : ∀ j, (u.page j).later = [])
    (hfold : s.urn.waiting.foldl (fun s x => s.urnReply x.1 x.2)
      ((s.repaired k).setUrn { (s.repaired k).urn with waiting := [] }) = u) (hureqs : u.urn.reqs = s.urn.reqs)
    (hu : Runs [.urn, .host, .obj] s u) :
    (∀ j, (s.urnRepair k).page j = u.page j) ∧ Runs [.host] u (s.urnRepair k) := by
  have hwaits : (s.repaired k).urn.waiting = s.urn.waiting := (congrArg Urn.waiting (s.urn_repaired k)).trans rfl
  have hrepaired : (s.urnRebuild k).urnFlag 3 0 = s.repaired k := rfl
  have hpages : PagesOk u := State.twf_pages (hu.wf hw)
  obtain ⟨hpage, hruns⟩ := hpages.foldl_pageResume_nothing allCtx hlater
  have hcaddy : (allCtx.foldl (fun s c => s.pageResume c) u).caddy = u.caddy := hruns.same .caddy rfl
  have hucaddy : u.caddy = s.caddy := hu.same .caddy rfl
  have hurn : (allCtx.foldl (fun s c => s.pageResume c) u).urn = u.urn := hruns.same .urn rfl
  have hresumes : (allCtx.foldl (fun s c => s.pageResume c) u).allocResumes = allCtx.foldl (fun s c => s.pageResume c) u := by
    rw [State.allocResumes, hcaddy, hucaddy, hdefer]
  have heq : s.urnRepair k = allCtx.foldl (fun s c => s.pageResume c) u := by
    unfold State.urnRepair
    rw [if_neg (by simpa using hk)]
    dsimp only
    rw [hrepaired, hwaits, hfold, hresumes]
    exact State.foldl_serve_nothing allCtx (by rw [hurn, hureqs, hreqs])
  rw [heq]
  exact ⟨hpage, hruns⟩

end

/-- The fields of a word that asks for an allocation. -/
def AllocWord (w : Nat) : Prop :=
  bits w 0 4 = 0 ∧ bits w 4 2 ≠ 3 ∧ bit w 7 = false ∧ bit w 31 = false ∧ 0 < bits w 8 23 ∧ bits w 8 23 ≤ 4194304

section
variable {s u : State} {c w h : Nat} (hword : AllocWord w)
include hword

theorem State.urnWaits_alloc : s.urnWaits c w = s.urnStall c (bits w 4 2) (bits w 8 23) := by
  obtain ⟨hop, hclass, h7, h31, hpos, hle⟩ := hword
  rw [State.urnWaits]
  exact if_neg (by simp [h7, h31, hop, hclass]; omega)

theorem urnCmd_alloc (halloc : s.urnAlloc c (bits w 4 2) (bits w 8 23) (bit w 6) = some (h, u)) :
    urnCmd s c w = (u, h * 2 ^ 32) := by
  obtain ⟨hop, hclass, h7, h31, hpos, hle⟩ := hword
  rw [urnCmd]
  dsimp only
  rw [if_neg (by simp [h7, h31, hop, hclass]; omega), if_pos hop, halloc]

/-- An ALLOC of a page that is answered. -/
theorem State.urnReply_alloc (hwaits : s.urnWaits c w = none)
    (halloc : s.urnAlloc c (bits w 4 2) (bits w 8 23) (bit w 6) = some (h, u)) :
    s.urnReply c w = u.modPage c (fun p => { p with urnReply := h * 2 ^ 32 }) := by
  rw [State.urnReply, hwaits, urnCmd_alloc hword halloc]

end

section
variable {s : State} {k : Nat} (hw : s.wf = true) (hk : k ∈ s.urn.repairing) (hreqs : s.urn.reqs = [])
  (hdefer : s.caddy.deferred = []) (hlater : ∀ j, (s.page j).later = [])

theorem State.bit_repaired (hw : s.wf = true) : bit ((s.repaired k).ov urnStatusId) 3 = true := by
  have hvals : keysFrom none (s.urnRebuild k).obj.vals = true :=
    State.keysFrom_vals ((State.urnRebuild_runs s k).wf hw)
  have hread := State.ov_modOv hvals urnStatusId urnStatusId
    (fun v => (if bits v 0 4 = 0 then setBits v 32 32 0 else v) ||| 2 ^ 3)
  rw [if_pos rfl] at hread
  exact (congrArg (bit · 3) hread).trans (bit_or_pow _ 3)

include hw hk hreqs hdefer hlater

theorem exec_urnListRepairDone_quiet (hk8 : k < 8) (hwaiting : s.urn.waiting = []) :
    ∃ t, exec (.urnListRepairDone k) s = .next t ∧
      (t.urnClass k).freed = (List.range (s.urnClass k).fresh).filter (fun i => !(s.urnBuf (urnKey k i)).held) ∧
      (t.urnClass k).fresh = (s.urnClass k).fresh ∧ t.urn.bufs = s.urn.bufs ∧ k ∉ t.urn.repairing ∧
      bit (t.ov urnStatusId) 3 = true ∧ (∀ j, t.page j = s.page j) ∧ Frame [.urn, .host, .obj] s t := by
  obtain ⟨u, hu⟩ : ∃ u, u = (s.repaired k).setUrn { (s.repaired k).urn with waiting := [] } := ⟨_, rfl⟩
  have huRuns : Runs [.urn, .host, .obj] s u := by
    rw [hu]
    exact Runs.comp (State.setUrn_runs _ _ (fun h => h)) rfl ((s.repaired_runs k).mono rfl)
  have hupage (j : Nat) : u.page j = s.page j := by
    rw [hu]
    exact State.page_congr ((s.repaired_runs k).same .host rfl) j
  have huurn : u.urn = { (s.urnRebuild k).urn with waiting := [] } := by
    rw [hu]
    exact congrArg (fun x : Urn => ({ x with waiting := [] } : Urn)) (s.urn_repaired k)
  have huobj : u.obj = (s.repaired k).obj := by rw [hu]; rfl
  obtain ⟨hpage, hruns⟩ := State.urnRepair_of_quiet (u := u) hw hk hreqs hdefer (fun j => by rw [hupage, hlater])
    (by rw [hwaiting, hu]; rfl) (by rw [huurn]; rfl) huRuns
  have hturn : (s.urnRepair k).urn = u.urn := hruns.same .urn rfl
  have htobj : (s.urnRepair k).obj = u.obj := hruns.same .obj rfl
  rw [huurn] at hturn
  rw [huobj] at htobj
  have hclass : (s.urnRepair k).urnClass k = { s.urnClass k with
      freed := (List.range (s.urnClass k).fresh).filter (fun i => !(s.urnBuf (urnKey k i)).held) } := by
    rw [State.urnClass, hturn]
    exact tget_tset_self _ (State.twf_urnLists hw) _ _
  refine ⟨_, need_of (decide_eq_true hk8) _, ?_, ?_, ?_, ?_, ?_, fun j => (hpage j).trans (hupage j),
    (Runs.comp hruns rfl huRuns).frame⟩
  · rw [hclass]
  · rw [hclass]
  · rw [hturn]
    rfl
  · rw [hturn]
    change k ∉ s.urn.repairing.filter (· != k)
    simp
  · rw [State.ov_congr htobj]
    exact State.bit_repaired hw

theorem exec_urnListRepairDone_answers {c w h : Nat} {u : State} (hk8 : k < 8) (hwaiting : s.urn.waiting = [(c, w)])
    (hword : AllocWord w) (hwaits : (s.repaired k).urnWaits c w = none)
    (halloc : (s.repaired k).urnAlloc c (bits w 4 2) (bits w 8 23) (bit w 6) = some (h, u)) :
    ∃ t, exec (.urnListRepairDone k) s = .next t ∧ t.urn.waiting = [] ∧ t.urn.bufs = u.urn.bufs ∧
      (t.page c).urnReply = h * 2 ^ 32 ∧ Frame [.urn, .host, .obj] s t := by
  obtain ⟨q, hq⟩ : ∃ q, q = (s.repaired k).withQueues (s.repaired k).router (s.repaired k).urn.reqs [] := ⟨_, rfl⟩
  have hqalloc : q.urnAlloc c (bits w 4 2) (bits w 8 23) (bit w 6) =
      some (h, u.withQueues (s.repaired k).router (s.repaired k).urn.reqs []) := by
    rw [hq]
    exact State.urnAlloc_of_withQueues halloc
  have hqwaits : q.urnWaits c w = none := by
    rw [State.urnWaits_alloc hword] at hwaits ⊢
    rw [hq]
    exact State.urnStall_withQueues.trans hwaits
  have hqruns : Runs [.urn, .host, .obj] s q := by
    rw [hq]
    exact Runs.comp (State.setUrn_runs (s.repaired k) { (s.repaired k).urn with waiting := [] } (fun h => h)) rfl
      ((s.repaired_runs k).mono rfl)
  have hqpage (j : Nat) : q.page j = s.page j := by
    rw [hq]
    exact State.page_congr ((s.repaired_runs k).same .host rfl) j
  have hqreqs : q.urn.reqs = s.urn.reqs := by
    rw [hq]
    exact (congrArg Urn.reqs (s.urn_repaired k)).trans rfl
  have hreply := State.urnReply_alloc hword hqwaits hqalloc
  have hruns : Runs [.urn, .host, .obj] s (q.urnReply c w) := Runs.comp (State.urnReply_runs ..) rfl hqruns
  obtain ⟨v, hv⟩ : ∃ v, v = u.withQueues (s.repaired k).router (s.repaired k).urn.reqs [] := ⟨_, rfl⟩
  rw [← hv] at hqalloc hreply
  have hvhost : v.host = q.host := (State.urnAlloc_runs hqalloc).same .host rfl
  have hvpages : PagesOk v := by
    rw [PagesOk, hvhost]
    exact State.twf_pages (hqruns.wf hw)
  have hpage (j : Nat) : ((q.urnReply c w).page j).later = [] ∧ ((q.urnReply c w).page c).urnReply = h * 2 ^ 32 := by
    have hvpage : (v.page j).later = [] := by rw [State.page_congr hvhost, hqpage, hlater]
    rw [hreply]
    refine ⟨?_, by rw [State.page_modPage hvpages, if_pos rfl]⟩
    rw [State.page_modPage hvpages]
    split
    case isTrue hj => rw [← hj]; exact hvpage
    case isFalse => exact hvpage
  have hureqs : (q.urnReply c w).urn.reqs = s.urn.reqs := by
    rw [hreply, hv]
    exact (congrArg Urn.reqs (s.urn_repaired k)).trans rfl
  obtain ⟨htpage, htruns⟩ := State.urnRepair_of_quiet hw hk hreqs hdefer (fun j => (hpage j).1)
    (by rw [hwaiting, hq]; rfl) hureqs hruns
  have hturn : (s.urnRepair k).urn = (q.urnReply c w).urn := htruns.same .urn rfl
  have hurn : (q.urnReply c w).urn = v.urn := by rw [hreply]; rfl
  refine ⟨_, need_of (decide_eq_true hk8) _, ?_, ?_, ?_, (Runs.comp htruns rfl hruns).frame⟩
  · rw [hturn, hurn, hv]
    rfl
  · rw [hturn, hurn, hv]
    rfl
  · rw [htpage]
    exact (hpage c).2

end

/-- Settles O53: a request is served once, since no other is queued behind it. -/
theorem sendsAreGrantedAndArrive : Obligations.SendsAreGrantedAndArrive := by
  unfold Obligations.SendsAreGrantedAndArrive
  intro s hw
  refine ⟨fun p hp hoff i hi => ?_, fun p hrails hp hempty => ⟨fun k hroom hstall => ?_, fun h u hroom hstall halloc => ?_,
      fun hroom => ?_⟩, fun p hrails hp hfull => ?_, fun c r h u hc hreqs hroom hstall halloc => ?_, fun p hrails hp => ?_,
      fun p g hrails hp hgrants hctx hsrc hid hhandle => ?_, fun k hk8 hk => ?_, fun k hk8 hk hreqs hdefer hlater =>
      ⟨exec_urnListRepairDone_quiet hw hk hreqs hdefer hlater hk8, fun c w h u hwaiting hop hclass h7 h31 hpos hle hwaits halloc =>
        exec_urnListRepairDone_answers hw hk hreqs hdefer hlater hk8 hwaiting ⟨hop, hclass, h7, h31, hpos, hle⟩ hwaits halloc⟩⟩
  · simp only [List.mem_cons, List.not_mem_nil, or_false] at hi
    obtain rfl | rfl | rfl := hi
    all_goals exact (need_of hp _).trans (powered_off hoff _)
  · obtain ⟨hreqs, hrepairing, hgrants, hrouter⟩ := State.creditReq_stalls hempty hroom hstall
    exact ⟨_, exec_creditReq hrails hp, hreqs, hrepairing, hgrants, hrouter, (State.creditReq_runs p s).frame⟩
  · obtain ⟨hsent, hreqs, hbufs, hgrants⟩ := State.creditReq_grants hempty hroom hstall halloc
    exact ⟨_, exec_creditReq hrails hp, hsent, hreqs, hbufs, hgrants, (State.creditReq_runs p s).frame⟩
  · obtain ⟨hreqs, hgrants, hrouter⟩ := State.creditReq_waits hempty hroom
    exact ⟨_, exec_creditReq hrails hp, hreqs, hgrants, hrouter, (State.creditReq_runs p s).frame⟩
  · exact (exec_creditReq hrails hp).trans (congrArg _ (if_pos hfull))
  · obtain ⟨hsent, hreqs', hbufs, hgrants⟩ := State.urnRequestServe_grants hreqs hroom hstall halloc
    exact ⟨_, exec_urnRequestServe hc, hsent, hreqs', hbufs, hgrants, (State.urnRequestServe_runs c s).frame⟩
  · refine ⟨_, (need_of hp _).trans (powered_of hrails _), fun r hr h1 h2 h3 => ?_, fun r hr hother => ?_, ?_,
      (State.urnGranted_runs p s).frame⟩
    all_goals rw [State.sends_urnGranted]
    · exact List.mem_map.mpr ⟨r, hr, if_pos ⟨h1, h2, h3⟩⟩
    · exact List.mem_map.mpr ⟨r, hr, if_neg hother⟩
    · exact List.length_map _
  · have hmeets : g.Meets p := ⟨hctx, hsrc, hid, hhandle⟩
    have hstored : (s.dataStored p).urn.bytes = (s.urnStore (hKey g.handle) (p.field 32 32) (p.body.drop 16)).urn.bytes := by
      rw [hhandle]
      rfl
    have hexec : exec (.urnData p) s = .next (s.urnDataIn p) := (need_of hp _).trans (powered_of hrails _)
    refine ⟨fun hmore => ⟨_, hexec, ?_⟩, fun hlast => ?_⟩
    · have hruns : Runs [.urn, .router] s (s.urnDataIn p) := by
        rw [State.urnDataIn_more hgrants hmeets hmore]
        exact Runs.comp (State.setUrn_runs _ _ (fun h => h)) rfl
          (Runs.comp ((s.taken p).urnStore_runs ..) rfl ((State.taken_runs s p).mono rfl))
      refine ⟨?_, ?_, hruns.frame⟩
      all_goals rw [State.urnDataIn_more hgrants hmeets hmore]
      · exact hstored
      · rfl
    · obtain ⟨hbytes, hgone, hrecord, htail, hsync⟩ := State.urnDataIn_lands hw hgrants hmeets hlast
      exact ⟨_, hexec, hbytes.trans hstored, hgone, hrecord, htail, hsync, (State.urnDataIn_runs p s).frame⟩
  · refine (need_of (decide_eq_true hk8) _).trans (congrArg _ (if_pos ?_))
    simpa using hk

end Sys2Proof.Machine
end


-- ==== Sys2Proof/Proofs/Reductions.lean ====
section
/-!
PROOF. What the reduction units can do with a chunk, a drain or a held packet (R268 to R278): the relations that each of their
operations keeps.
-/

namespace Sys2Proof.Machine

/-- What a tile is: its context, its number in the lists and its descriptor. -/
def Tile.work (x : Tile) : Nat × Nat × WorkDesc := (x.ctx, x.seq, x.desc)

/-- A relation of states that holds of each thing that a reduction unit does with a chunk, beside a signal's: its keys and its
counts, memory and the urn change, a failure is logged, a format flag is raised, tiles are marked. -/
structure ChunkClosed (R : State → State → Prop) : Prop extends SignalClosed R where
  quiet : ∀ {s t}, Runs [.mem, .urn] s t → R s t
  keys : ∀ s ks, R s (s.setRed { s.red with keys := ks })
  errLog : ∀ s v, R s (s.setRed { s.red with errLog := v })
  redc : ∀ s c f, R s (s.modRedc c f)
  raise : ∀ s c f, R s (s.raise c f)
  mark : ∀ s n (f : Tile → Tile), (∀ x, (f x).work = x.work) →
    R s (s.modCore n (fun c => { c with tiles := c.tiles.map f }))

namespace ChunkClosed

variable {R : State → State → Prop} (h : ChunkClosed R)
include h

theorem redErr (s : State) (c cause g dev tag epoch : Nat) : R s (s.redErr c cause g dev tag epoch) := by
  unfold State.redErr
  dsimp only
  refine h.trans ?_ (h.latch ..)
  split
  · exact h.refl s
  · exact h.errLog ..

theorem putKey (s : State) (k : RedKey) : R s (s.putKey k) := by
  unfold State.putKey
  split <;> exact h.keys ..

theorem closeKey (s : State) (k : RedKey) : R s (s.closeKey k) :=
  h.trans (h.quiet ((State.giveBufs_runs s k k.buffers).mono rfl)) (h.trans (h.keys ..) (h.redc ..))

theorem emitMeets (s : State) (k : RedKey) (cs : List (Nat × Nat)) : R s (s.emitMeets k cs) := by
  unfold State.emitMeets
  dsimp only
  split
  · exact h.refl s
  · split
    · refine h.mark s _ _ fun x => ?_
      split <;> rfl
    · exact h.latch ..

theorem deliverTo (s : State) (k : RedKey) (t : Tens) : R s (s.deliverTo k t) := by
  unfold State.deliverTo
  dsimp only
  split
  · exact h.emitMeets ..
  · exact h.trans (h.quiet ((State.storeSums_runs ..).mono rfl)) (h.emitMeets ..)

theorem redDeliver (s : State) (k : RedKey) (n : Nat) : R s (s.redDeliver k n) := by
  unfold State.redDeliver
  split
  case h_1 => exact h.refl s
  case h_2 d rec sig _ =>
    dsimp only
    refine h.trans ?_ (h.signalWord ..)
    split
    case' isFalse => refine h.trans ?_ (h.redErr ..)
    all_goals refine h.trans ?_ (h.quiet ((State.storeDev_runs ..).mono rfl))
    all_goals refine h.trans ?_ (h.emitMeets ..)
    all_goals split
    all_goals first
      | exact h.refl s
      | split
        · exact h.refl s
        · exact h.deliverTo ..

theorem redFinish (s : State) (k : RedKey) (r : Ring) : R s (s.redFinish k r) := by
  unfold State.redFinish
  split
  · exact h.putKey ..
  · dsimp only
    refine h.trans (h.closeKey s k) ?_
    split
    · exact h.redDeliver ..
    · exact h.redc ..

theorem redJoin (s : State) (k : RedKey) (r : Ring) (n : Nat) (i : Option (List Byte)) (l : Wire) (held : List Nat) :
    R s (s.redJoin k r n i l held) := by
  unfold State.redJoin
  dsimp only
  refine h.trans (h.quiet ((State.giveBufs_runs s k held).mono rfl)) ?_
  split
  · exact h.trans (h.raise ..) (h.redFinish ..)
  · exact h.trans (h.raise ..) (h.trans (h.inject ..) (h.redFinish ..))

theorem redTry (c g tag n : Nat) (s : State) : R s (s.redTry c g tag n) := by
  unfold State.redTry
  split
  · exact h.refl s
  · split
    · split
      · exact h.refl s
      · exact h.redJoin ..
    · exact h.refl s

theorem tileFlags (s : State) (n seq : Nat) (f : Flags) : R s (s.tileFlags n seq f) := by
  unfold State.tileFlags
  split
  · exact h.refl s
  · refine h.mark s n _ fun x => ?_
    split <;> rfl

theorem handOver {s t : State} {core seq n : Nat} {a : Option (List Byte)} (ht : s.handOver core seq n a = some t) : R s t := by
  have hflags (c : Nat) (f : Flags) : R s ((s.raise c f).tileFlags core seq f) := h.trans (h.raise ..) (h.tileFlags ..)
  unfold State.handOver at ht
  dsimp only at ht
  split at ht
  · cases ht
    exact h.refl s
  · split at ht
    · split at ht
      · cases ht
        exact h.refl s
      · split at ht
        · cases ht
          exact h.trans (hflags ..) (h.redJoin ..)
        · split at ht
          · cases ht
            exact h.trans (hflags ..) (h.redJoin ..)
          · split at ht
            · cases ht
              exact h.trans (hflags ..) (h.redJoin ..)
            · split at ht
              · cases ht
                exact h.refl s
              · obtain ⟨q, hq, ht⟩ := Option.map_eq_some_iff.mp ht
                rw [← ht]
                exact h.trans (hflags ..) (h.trans (h.quiet ((State.redTake_runs hq).mono rfl)) (h.putKey ..))
    · cases ht
      exact h.refl s

theorem foldl {α : Type} {f : State → α → State} (hf : ∀ s x, R s (f s x)) (xs : List α) (s : State) : R s (xs.foldl f s) := by
  induction xs generalizing s with
  | nil => exact h.refl s
  | cons x xs ih => exact h.trans (hf s x) (ih _)

end ChunkClosed

/-- Such a relation that holds too of each change of the drains and of the held packets, and of the count of stale packets. -/
structure RedClosed (R : State → State → Prop) : Prop extends ChunkClosed R where
  red : ∀ s x, x.ctx = s.red.ctx → x.perm = s.red.perm → R s (s.setRed x)
  bump : ∀ s, R s (s.bump redStaleId)

namespace RedClosed

variable {R : State → State → Prop} (h : RedClosed R)
include h

theorem drainEnd (s : State) (n seq : Nat) : R s (s.drainEnd n seq) := by
  unfold State.drainEnd
  dsimp only
  refine h.trans ?_ (h.mark _ n _ fun x => ?_)
  · exact h.red s _ rfl rfl
  · split <;> rfl

theorem drainFrom (core seq fuel n : Nat) (s : State) : R s (State.drainFrom core seq fuel n s) := by
  induction fuel generalizing n s with
  | zero => exact h.drainEnd ..
  | succ f ih =>
    unfold State.drainFrom
    split
    case h_1 hover => exact h.trans (h.handOver hover) (ih _ _)
    case h_2 => exact h.red s _ rfl rfl

theorem redProcess {s t : State} {p : Packet} (ht : s.redProcess p = some t) : R s t := by
  unfold State.redProcess at ht
  dsimp only at ht
  split at ht
  · cases ht
    exact h.bump s
  · split at ht
    · rw [← Option.some.inj ht]
      exact h.trans (h.putKey ..) (h.foldl (fun _ _ => h.redTry ..) _ _)
    · split at ht
      · cases ht
        exact h.redJoin ..
      · split at ht
        · obtain ⟨u, hu, ht⟩ := Option.map_eq_some_iff.mp ht
          rw [← ht]
          exact h.trans (h.handOver hu) (h.drainFrom ..)
        · obtain ⟨q, hq, ht⟩ := Option.map_eq_some_iff.mp ht
          rw [← ht]
          exact h.trans (h.quiet ((State.redTake_runs hq).mono rfl)) (h.putKey ..)

theorem redHold (s : State) (p : Packet) (n : Nat) : R s (s.redHold p n) := by
  unfold State.redHold
  split
  case h_1 hu =>
    exact h.trans (h.quiet ((State.redTakeShared_runs hu).mono rfl)) (h.red _ _ rfl rfl)
  case h_2 => exact h.bump s

theorem redTreat {s t : State} {p : Packet} (ht : s.redTreat p = some t) : R s t := by
  unfold State.redTreat at ht
  dsimp only at ht
  split at ht
  · cases ht
    exact h.redErr ..
  · split at ht
    · cases ht
      exact h.redHold ..
    · split at ht
      · cases ht
        exact h.redErr ..
      · split at ht
        · cases ht
          exact h.redHold ..
        · split at ht
          · cases ht
            exact h.redHold ..
          · split at ht
            · cases ht
              exact h.bump s
            · exact h.redProcess ht

theorem redResume (s : State) (c n : Nat) : R s (s.redResume c n) := by
  unfold State.redResume
  dsimp only
  refine h.trans ?_ (h.foldl (fun t x => ?_) _ _)
  · exact h.red s _ rfl rfl
  refine h.trans (h.quiet ((State.redGive_runs t c (rGroup x.pkt.body) x.shared).mono rfl)) ?_
  generalize t.redGive c (rGroup x.pkt.body) x.shared = u
  cases hu : u.redTreat x.pkt with
  | none => exact h.bump u
  | some v => exact h.redTreat hu

end RedClosed

end Sys2Proof.Machine
end


-- ==== Sys2Proof/Proofs/Halts.lean ====
section
/-!
PROOF. Why a HALT does not always assert ALERT#: the pin is driven from the standby domain (R486), and `State.wf` does not ask that
the standby domain be powered.
-/

namespace Sys2Proof.Machine

/-- Without standby power a HALT leaves ALERT# released. -/
theorem State.alertPin_halt_of_off {s : State} (h : s.power.standby = false) (c r : Nat) : (s.halt c r).out.alertPin = false := by
  obtain ⟨f, hf⟩ : ∃ f : StepCtx → StepCtx, f = fun x => { x.attemptBegins with
    st := .halted, replays := satAdd 32 x.replays 1, reason := r, votes := [] } := ⟨_, rfl⟩
  obtain ⟨u, hu⟩ : ∃ u, u = (((s.abandon c).redDiscardHeld c 2).modStp c f).redFresh c := ⟨_, rfl⟩
  have hhalt : s.halt c r = if c < 15 then u.alert.interrupt c 4 else u.alert := by rw [hu, hf]; rfl
  have hruns : Runs [.cores, .sched, .txe, .sync, .urn, .fab, .steps, .red] s u := by
    rw [hu]
    exact Runs.comp (State.redFresh_runs ..) rfl (Runs.comp (State.modStp_runs ..) rfl (Runs.comp (State.redDiscardHeld_runs ..) rfl
      ((State.abandon_runs s c).mono rfl)))
  have hpower : u.power = s.power := hruns.same .power rfl
  have hpin : u.alert.out.alertPin = false := by
    rw [State.alertPin_alert, State.alertWanted, hpower, h, Bool.false_and]
  rw [hhalt]
  split
  · exact (congrArg Prod.snd (State.pins_interrupt ..)).trans hpin
  · exact hpin

theorem exec_decisionTimeout_late {s : State} {c : Nat} (hc : c < 16) (hvoted : (s.stp c).st = .voted)
    (hlate : (s.stp c).votedAt + s.commitDeadline c + 10000000 ≤ s.ftRead hubPs) :
    exec (.decisionTimeout c) s = .next (s.halt c 5) :=
  (need_of (decide_eq_true hc) _).trans (congrArg _ (if_pos ⟨hvoted, hlate⟩))

namespace NoStandby

open Tests

/-- A module without standby power that has voted at 0. -/
def voted : State := hasVoted.setPower { hasVoted.power with standby := false }

/-- The same, beyond the deadline of the decision. -/
def module : State := late voted

end NoStandby

/-- Refutes O48 at the DECISION_TIMEOUT: on a module without standby power the context halts and ALERT# stays released. -/
theorem not_replayAndHaltAbandonTheAttempt : ¬ Obligations.ReplayAndHaltAbandonTheAttempt := by
  unfold Obligations.ReplayAndHaltAbandonTheAttempt
  intro h
  have hvoted : (NoStandby.module.stp 3).st = .voted := by decide +kernel
  have hlate : (NoStandby.module.stp 3).votedAt + NoStandby.module.commitDeadline 3 + 10000000 ≤ NoStandby.module.ftRead hubPs :=
    Tests.late_reads NoStandby.voted hubPs _ (by decide +kernel)
  obtain ⟨-, -, htimeout⟩ := h NoStandby.module (by decide +kernel)
  obtain ⟨t, hexec, -, -, -, -, -, -, -, hpin, -⟩ := htimeout 3 (by decide) hvoted hlate
  have hhalts := exec_decisionTimeout_late (by decide) hvoted hlate
  have hreleased := State.alertPin_halt_of_off (s := NoStandby.module) (by decide +kernel) 3 5
  rw [← Host.Outcome.next.inj (hexec.symm.trans hhalts), hpin] at hreleased
  exact absurd hreleased (by decide)

end Sys2Proof.Machine
end


-- ==== Sys2Proof/Proofs/Commits.lean ====
section
/-!
PROOF. COMMIT (R258, R262): the step advances, its counters are recorded and the levels decided; what follows in the same command can
fail the attempt that begins, and no more.
-/

namespace Sys2Proof.Machine

/-- A step but for what records its failure, and for what its home keeps of the votes. -/
def StepCtx.course (x : StepCtx) : StepCtx := { x.lasting with firstVote := none, decided := false }

theorem StpKept.course {s t : State} (h : StpKept StepCtx.lasting s t) : StpKept StepCtx.course s t :=
  ⟨h.canonical, fun hs c => congrArg (fun x : StepCtx => { x with firstVote := none, decided := false }) (h.same hs c)⟩

/-- From `s` to `t` the course of every step, the levels and the recorded counters stand. -/
structure Resumes (s t : State) : Prop where
  steps : StpKept StepCtx.course s t
  gf : t.obj.gf = s.obj.gf
  shadow : t.sync.shadow = s.sync.shadow
  recorded : t.sync.recorded = s.sync.recorded

namespace Resumes

theorem refl (s : State) : Resumes s s := ⟨.refl s, rfl, rfl, rfl⟩

theorem trans {s t u : State} (h : Resumes s t) (k : Resumes t u) : Resumes s u :=
  ⟨.comp k.steps h.steps, k.gf.trans h.gf, k.shadow.trans h.shadow, k.recorded.trans h.recorded⟩

/-- What leaves the steps, the levels and the counters alone. -/
theorem of_same {s t : State} (hsteps : t.steps = s.steps) (hgf : t.obj.gf = s.obj.gf) (hsync : t.sync = s.sync) : Resumes s t :=
  ⟨.of_steps hsteps, hgf, congrArg _ hsync, congrArg _ hsync⟩

theorem of_runs {L : List Part} {s t : State} (h : Runs L s t) (hsteps : L.contains .steps = false)
    (hobj : L.contains .obj = false) (hsync : L.contains .sync = false) : Resumes s t :=
  .of_same (h.same .steps hsteps) (congrArg Objects.gf (h.same .obj hobj)) (h.same .sync hsync)

theorem latch (s : State) (c r : Nat) : Resumes s (s.latch c r) :=
  ⟨(s.latch_lasts c r).course, congrArg Objects.gf ((s.latch_runs c r).same .obj rfl),
    congrArg Sync.shadow ((s.latch_runs c r).same .sync rfl), congrArg Sync.recorded ((s.latch_runs c r).same .sync rfl)⟩

theorem setOv (s : State) (id v : Nat) : Resumes s (s.setOv id v) := .of_same rfl rfl rfl

theorem raise (s : State) (c : Nat) (f : Flags) : Resumes s (s.raise c f) := by
  unfold State.raise
  split
  · exact .refl s
  · exact .setOv ..

theorem setCtr (s : State) (i v : Nat) : Resumes s (s.setCtr i v) := by
  refine ⟨.of_steps rfl, rfl, ?_, ?_⟩
  all_goals
    unfold State.setCtr
    dsimp only
    split <;> rfl

theorem closed : RedClosed Resumes where
  refl := refl
  trans := trans
  setCtr := setCtr
  syncFlag _ _ _ := .setOv ..
  latch := latch
  inject _ _ _ := .of_same rfl rfl rfl
  capInject s port p := .of_runs (s.capInject_runs port p) rfl rfl rfl
  quiet h := .of_runs h rfl rfl rfl
  keys _ _ := .of_same rfl rfl rfl
  errLog _ _ := .of_same rfl rfl rfl
  redc _ _ _ := .of_same rfl rfl rfl
  raise := raise
  mark s n _ _ := .of_runs (s.modCore_runs n _) rfl rfl rfl
  red _ _ _ _ := .of_same rfl rfl rfl
  bump _ := .setOv ..

theorem signalOpt (s : State) (c id : Nat) : Resumes s (s.signalOpt c id) := by
  unfold State.signalOpt
  split
  · exact .refl s
  · exact closed.signal ..

theorem uncovered (s : State) (code unit : Nat) (cs : List Nat) : Resumes s (s.uncovered code unit cs) := by
  unfold State.uncovered
  dsimp only
  refine trans (trans ?_ (.setOv ..)) (closed.foldl (fun t c => latch t c 2) cs _)
  exact .of_same ((State.faultRec_runs ..).same .steps rfl) (congrArg Objects.gf ((State.faultRec_runs ..).same .obj rfl))
    ((State.faultRec_runs ..).same .sync rfl)

theorem attemptFaults (s : State) (c : Nat) : Resumes s (s.attemptFaults c) := by
  unfold State.attemptFaults
  dsimp only
  split
  case' isTrue => refine trans ?_ (.uncovered ..)
  all_goals
    refine closed.foldl (fun t l => ?_) _ _
    split
    · exact .uncovered ..
    · exact .refl t

theorem setStp {s : State} {c : Nat} {x : StepCtx} (h : x.course = (s.stp c).course) : Resumes s (s.setStp c x) :=
  ⟨.setStp h, rfl, rfl, rfl⟩

theorem conclude (s : State) (c kind reason : Nat) : Resumes s (s.conclude c kind reason) :=
  trans (t := s.setStp c { s.stp c with decided := true }) (.setStp rfl) (.of_runs (State.treeSend_runs ..) rfl rfl rfl)

theorem decideFail (s : State) (c reason : Nat) : Resumes s (s.decideFail c reason) := .conclude ..

theorem weighed (s : State) (c : Nat) : Resumes s (s.weighed c (s.stp c)) := by
  unfold State.weighed
  split
  · exact .refl s
  · exact .setStp rfl

theorem homeWeigh (s : State) (c : Nat) : Resumes s (s.homeWeigh c) := by
  by_cases hrun : s.isHome c = true ∧ (s.stp c).open_
  · rw [State.homeWeigh_eq rfl hrun.1 hrun.2]
    refine trans (.weighed s c) ?_
    split
    · exact .decideFail ..
    · split
      · exact .conclude ..
      · exact .refl _
  · have hnot : s.isHome c = false ∨ (s.stp c).decided = true ∨ ((s.stp c).st ≠ .running ∧ (s.stp c).st ≠ .voted) := by
      by_contra hno
      simp only [not_or, not_and_or, not_not, Bool.not_eq_true, Bool.not_eq_false] at hno
      exact hrun ⟨hno.1, hno.2.1, hno.2.2⟩
    rw [show s.homeWeigh c = s from if_pos hnot]
    exact .refl s

end Resumes

/-! What the command itself writes. -/

theorem tget_foldl_tset {f : Nat → Nat} (is : List Nat) {t : Tbl Nat} (ht : keysFrom none t = true) {i : Nat} (hi : i ∈ is) :
    tget 0 (is.foldl (fun t p => tset 0 t p (f p)) t) i = f i := by
  induction is using List.reverseRecOn with
  | nil => cases hi
  | append_singleton is j ih =>
    have hkeys : keysFrom none (is.foldl (fun t p => tset 0 t p (f p)) t) = true := by
      clear ih hi
      induction is generalizing t with
      | nil => exact ht
      | cons k is ih => exact ih (keysFrom_tset _ _ _ ht)
    rw [List.foldl_append, List.foldl_cons, List.foldl_nil, tget_tset hkeys]
    split
    case isTrue hij => rw [hij]
    case isFalse hij => exact ih ((List.mem_append.mp hi).resolve_right (by simpa using hij))

theorem State.shadow_recordSync {s : State} (hw : s.wf = true) {c i : Nat} (hi : i ∈ s.restoreSet c) :
    tget 0 (s.recordSync c).sync.shadow i = s.ctr i ∧ (c, i) ∈ (s.recordSync c).sync.recorded := by
  have hsync := State.wf_sync hw
  rw [Sync.wf, Bool.and_eq_true, Bool.and_eq_true] at hsync
  exact ⟨tget_foldl_tset _ (twf_keys hsync.1.2) hi, List.mem_append_right _ (List.mem_map_of_mem hi)⟩

/-- The table of levels is canonical. -/
def LevelsOk (s : State) : Prop := twf .init s.obj.gf = true

/-- What a commit decides of a layer (R237). -/
def State.levelDecided (s : State) (c : Nat) (x : StepCtx) (l : Nat) : GfState :=
  (s.gf l).commit (s.ov (gfCfgId + l)) c x.step (tget? x.stats l)

theorem Recordwise.levelDecided (c : Nat) (x : StepCtx) :
    Recordwise LevelsOk State.gf (fun s l => s.setGf l (s.levelDecided c x l)) (fun s l => s.levelDecided c x l) where
  keeps _ h := twf_tset _ _ _ h
  self l h := (State.gf_setGf h l l _).trans (if_pos rfl)
  other h hne := (State.gf_setGf h _ _ _).trans (if_neg hne)
  stable {s d e} h hne := by
    rw [State.levelDecided, (State.gf_setGf h _ _ _).trans (if_neg hne)]
    rfl

theorem mem_keys_of_tget? {α : Type} {t : Tbl α} {i : Nat} {x : α} (h : tget? t i = some x) : i ∈ t.map (·.1) := by
  induction t with
  | nil => cases h
  | cons p t ih =>
    rw [tget?] at h
    split at h
    case isTrue hk => exact List.mem_cons.mpr (.inl hk.symm)
    case isFalse => exact List.mem_cons_of_mem _ (ih h)

theorem State.gf_decideLevels {s : State} (hw : s.wf = true) {c l : Nat} {g : GradStat} (h : tget? (s.stp c).stats l = some g) :
    (s.decideLevels c).gf l = (s.gf l).commit (s.ov (gfCfgId + l)) c (s.stp c).step (some g) := by
  have hmem : l ∈ (((s.stp c).stats.map (·.1)) ++ (s.obj.gf.filter (fun p => p.2.pending != [])).map (·.1)).dedup :=
    List.mem_dedup.mpr (List.mem_append_left _ (mem_keys_of_tget? h))
  have hread := (Recordwise.levelDecided c (s.stp c)).get_foldl _ (State.twf_gf hw : LevelsOk s) (List.nodup_dedup _) hmem
  rw [State.levelDecided, h] at hread
  exact hread

theorem State.vals_decideLevels (s : State) (c : Nat) : (s.decideLevels c).obj.vals = s.obj.vals :=
  foldl_keeps (g := fun s : State => s.obj.vals) (f := fun t l => t.setGf l (t.levelDecided c (s.stp c) l)) (fun _ _ => rfl) _ s

/-! COMMIT. -/

/-- The counters recorded and the levels decided. -/
def State.committing (s : State) (p : Packet) (c : Nat) : State := ((s.taken p).recordSync c).decideLevels c

/-- The step that a commit begins, but for what the norm summer keeps. -/
def StepCtx.advanced (x : StepCtx) (seed : Nat) (summing nondet : Bool) (summed : Tbl (Nat × GradStat)) : StepCtx :=
  { x.attemptBegins with
    step := (x.step + 1) % 2 ^ 32
    attempt := 0
    committed := x.step
    nondet := nondet
    seed := seed
    votes := x.votes.filter (fun v => v.step == (x.step + 1) % 2 ^ 32 && v.attempt == 0)
    summing := summing
    sumStep := x.step
    summed := summed }

/-- What follows the new step in the same command. -/
def State.commitTail (u : State) (c : Nat) (late : Option Nat) : State :=
  let s := (u.redFresh c).redDiscardHeld c 2
  let s := s.signalOpt c (bits (s.stepCfg c) 32 16)
  let s := s.redResume c 1
  let s := match late with
    | some r => s.latch c r
    | none => s
  (s.attemptFaults c).homeWeigh c

theorem Resumes.commitTail (u : State) (c : Nat) (late : Option Nat) : Resumes u (u.commitTail c late) := by
  unfold State.commitTail
  dsimp only
  refine .trans ?_ (.homeWeigh ..)
  refine .trans ?_ (.attemptFaults ..)
  have hstart : Resumes u ((u.redFresh c).redDiscardHeld c 2) :=
    .of_runs (L := [.urn, .red]) (Runs.comp (State.redDiscardHeld_runs ..) rfl ((State.redFresh_runs ..).mono rfl)) rfl rfl rfl
  generalize (u.redFresh c).redDiscardHeld c 2 = v at hstart ⊢
  have hresume : Resumes u ((v.signalOpt c (bits (v.stepCfg c) 32 16)).redResume c 1) :=
    (hstart.trans (.signalOpt ..)).trans (Resumes.closed.redResume ..)
  generalize (v.signalOpt c (bits (v.stepCfg c) 32 16)).redResume c 1 = w at hresume ⊢
  cases late with
  | none => exact hresume
  | some r => exact hresume.trans (.latch ..)

section
variable {s : State} {p : Packet} {c : Nat} (hc : p.field 12 4 = c)
include hc

theorem State.commit_advances (hok : s.decideOk p 0 = true) (hsum : (s.stp c).summing = false) :
    ∃ seed nondet summed, seed = s.ov (roundSeedId + c) ∧ s.commit p =
      ((s.committing p c).setStp c
        ((s.stp c).advanced seed (decide (bits (s.ov (normCfgId + c)) 0 64 ≠ 0)) nondet summed)).commitTail c (s.stp c).latchNext := by
  subst hc
  have hvals : (s.committing p (p.field 12 4)).obj.vals = s.obj.vals := State.vals_decideLevels _ _
  have hov (i : Nat) : (s.committing p (p.field 12 4)).ov i = s.ov i := by rw [State.ov, hvals, State.ov]
  refine ⟨_, bit ((s.committing p (p.field 12 4)).stepCfg (p.field 12 4)) 31,
    if decide (bits (s.ov (normCfgId + p.field 12 4)) 0 64 ≠ 0) then
      (s.stp (p.field 12 4)).stats.map (fun q => (q.1, (s.taken p).levelOf (p.field 12 4) q.1, q.2)) else [], rfl, ?_⟩
  rw [← hov (normCfgId + p.field 12 4), ← hov (roundSeedId + p.field 12 4)]
  unfold State.commit
  dsimp only
  rw [if_neg (by simp [hok]), if_neg (by simp [hsum])]
  rfl

end

theorem StepsOk.setStp {s : State} (h : StepsOk s) (c : Nat) (x : StepCtx) : StepsOk (s.setStp c x) := twf_tset _ _ _ h

/-- Settles O47: what follows the new step in the command keeps its course. -/
theorem commitAdvancesTheStep : Obligations.CommitAdvancesTheStep := by
  unfold Obligations.CommitAdvancesTheStep
  intro s p hw hp c x
  have hexec (hrails : s.power.rails = true) : exec (.commit p) s = .next (s.commit p) := (need_of hp _).trans (powered_of hrails _)
  refine ⟨fun hoff => (need_of hp _).trans (powered_off hoff _), fun hrails hok hsum => ?_, fun hrails hok hsum => ?_,
    fun hrails hno => ?_⟩
  · obtain ⟨seed, nondet, summed, hseed, hcommit⟩ := State.commit_advances rfl hok hsum
    obtain ⟨u, hu⟩ : ∃ u, u = (s.committing p c).setStp c
        (x.advanced seed (decide (bits (s.ov (normCfgId + c)) 0 64 ≠ 0)) nondet summed) := ⟨_, rfl⟩
    have htail := Resumes.commitTail u c x.latchNext
    obtain ⟨t, ht⟩ : ∃ t, t = s.commit p := ⟨_, rfl⟩
    have hframe : Frame [.cores, .sync, .mem, .urn, .fab, .router, .steps, .red, .obj, .flash] s t := by
      rw [ht]
      exact (State.commit_runs p s).frame
    have htu : t = u.commitTail c x.latchNext := by rw [ht, hu]; exact hcommit
    rw [← htu] at htail
    have hrecorded : Runs [.router, .sync] s ((s.taken p).recordSync c) :=
      Runs.comp (State.recordSync_runs ..) rfl ((State.taken_runs s p).mono rfl)
    have hsteps : (s.committing p c).steps = s.steps :=
      (State.decideLevels_runs ((s.taken p).recordSync c) c).same .steps rfl
    have hsync : u.sync = ((s.taken p).recordSync c).sync := by
      rw [hu]
      exact (State.decideLevels_runs ((s.taken p).recordSync c) c).same .sync rfl
    have hstepsOk : StepsOk (s.committing p c) := by
      rw [StepsOk, hsteps]
      exact State.twf_steps hw
    have hustepsOk : StepsOk u := by
      rw [hu]
      exact hstepsOk.setStp ..
    have hself : u.stp c = x.advanced seed (decide (bits (s.ov (normCfgId + c)) 0 64 ≠ 0)) nondet summed := by
      rw [hu, State.stp_setStp hstepsOk, if_pos rfl]
    have hother (d : Nat) (hd : d ≠ c) : u.stp d = s.stp d := by
      rw [hu, State.stp_setStp hstepsOk, if_neg hd, State.stp_congr hsteps]
    have hcourse (d : Nat) : (t.stp d).course = (u.stp d).course := htail.steps.same hustepsOk d
    have hread {α : Type} (f : StepCtx → α) (hf : ∀ y : StepCtx, f y = f y.course) (d : Nat) : f (t.stp d) = f (u.stp d) := by
      rw [hf, hcourse, ← hf]
    refine ⟨t, ht ▸ hexec hrails, ?_, ?_, ?_, ?_, ?_, ?_, ?_, ?_, ?_, fun i hi => ?_, fun l g hg => ?_, fun d hd => ?_, hframe⟩
    · rw [hread StepCtx.st fun _ => rfl, hself]
      rfl
    · rw [hread StepCtx.step fun _ => rfl, hself]
      rfl
    · rw [hread StepCtx.attempt fun _ => rfl, hself]
      rfl
    · rw [hread StepCtx.committed fun _ => rfl, hself]
      rfl
    · rw [hread StepCtx.doneTaken fun _ => rfl, hself]
      rfl
    · rw [hread StepCtx.updates fun _ => rfl, hself]
      rfl
    · rw [hread StepCtx.replays fun _ => rfl, hself]
      rfl
    · rw [hread StepCtx.seed fun _ => rfl, hself]
      exact hseed
    · rw [hread StepCtx.summing fun _ => rfl, hself]
      exact decide_eq_true_iff
    · rw [htail.shadow, htail.recorded, hsync]
      exact State.shadow_recordSync (s := s.taken p) ((State.taken_runs s p).wf hw) hi
    · have hgf : t.obj.gf = (s.committing p c).obj.gf := by
        rw [htail.gf, hu]
        rfl
      have hlevel := State.gf_decideLevels (s := (s.taken p).recordSync c) (hrecorded.wf hw) hg
      rw [State.gf, hgf]
      exact hlevel
    · rw [hread StepCtx.step fun _ => rfl, hother d hd]
  · exact (hexec hrails).trans (congrArg _ ((if_neg (by simp [hok])).trans (if_pos hsum)))
  · exact (hexec hrails).trans (congrArg _ (if_pos hno))

end Sys2Proof.Machine
end


-- ==== Sys2Proof/Proofs/CoreTiles.lean ====
section
/-!
PROOF. What the assignment of a core's engines leaves of its tiles and of its slots (R75, R76, R89).
-/

namespace Sys2Proof.Machine

/-! The tiles. -/

/-- A tile that the assignment of engines leaves as it is: of another type than MATMUL, of empty shape, or past its computing. -/
def Tile.Fixed (x : Tile) : Prop :=
  dType x.desc = 0 → x.status = stOk → x.stage ≠ .waiting ∧ x.stage ≠ .computing ∧ x.stage ≠ .stopped

/-- A tile before and after the assignment of engines. -/
structure Tile.Assigned (x y : Tile) : Prop where
  rest : ({ y with stage := x.stage, sparse := x.sparse } : Tile) = x
  fixed : x.Fixed → y = x

namespace Tile.Assigned

theorem refl (x : Tile) : x.Assigned x := ⟨rfl, fun _ => rfl⟩

theorem trans {x y z : Tile} (h : x.Assigned y) (k : y.Assigned z) : x.Assigned z := by
  refine ⟨?_, fun hx => ?_⟩
  · have hy : ({ z with stage := x.stage, sparse := x.sparse } : Tile) = { y with stage := x.stage, sparse := x.sparse } :=
      congrArg (fun t : Tile => { t with stage := x.stage, sparse := x.sparse }) k.rest
    exact hy.trans h.rest
  · have hy := h.fixed hx
    subst hy
    exact k.fixed hx

/-- Another stage or engine of a tile that is not fixed. -/
theorem moved (x : Tile) (st : Stage) (sp : Bool) (h : ¬x.Fixed) : x.Assigned { x with stage := st, sparse := sp } :=
  ⟨rfl, fun hx => absurd hx h⟩

variable {x y : Tile} (h : x.Assigned y)
include h

theorem desc : y.desc = x.desc := (congrArg Tile.desc h.rest :)
theorem ctx : y.ctx = x.ctx := (congrArg Tile.ctx h.rest :)
theorem seq : y.seq = x.seq := (congrArg Tile.seq h.rest :)
theorem slot : y.slot = x.slot := (congrArg Tile.slot h.rest :)

end Tile.Assigned

theorem Tile.not_fixed {x : Tile} (hm : (dType x.desc == 0 && x.status == stOk) = true)
    (h : x.stage = .waiting ∨ x.stage = .computing ∨ x.stage = .stopped) : ¬x.Fixed := by
  rw [Bool.and_eq_true, beq_iff_eq, beq_iff_eq] at hm
  intro hx
  obtain ⟨h1, h2, h3⟩ := hx hm.1 hm.2
  tauto

theorem forall₂_assigned_trans {xs ys zs : List Tile} (h : List.Forall₂ Tile.Assigned xs ys)
    (k : List.Forall₂ Tile.Assigned ys zs) : List.Forall₂ Tile.Assigned xs zs := by
  induction h generalizing zs with
  | nil => exact k
  | cons hxy _ ih =>
    cases k with
    | cons hyz k => exact .cons (hxy.trans hyz) (ih k)

/-- A pass over some tiles that adds each, assigned, to those before it. -/
theorem forall₂_assigned_foldl {α : Type} {out : α → List Tile} {f : α → Tile → α}
    (hf : ∀ a t, ∃ u, out (f a t) = out a ++ [u] ∧ t.Assigned u) (ts : List Tile) (a : α) :
    ∃ us, out (ts.foldl f a) = out a ++ us ∧ List.Forall₂ Tile.Assigned ts us := by
  induction ts generalizing a with
  | nil => exact ⟨[], (List.append_nil _).symm, .nil⟩
  | cons t ts ih =>
    obtain ⟨u, hu, htu⟩ := hf a t
    obtain ⟨us, hus, hall⟩ := ih (f a t)
    refine ⟨u :: us, ?_, .cons htu hall⟩
    rw [List.foldl_cons, hus, hu, List.append_assoc]
    rfl

/-- Which engine a tile is for, by the die's engine-enable state (R75, R76). -/
def Tile.engined (eng : Eng) (t : Tile) : Tile :=
  if dType t.desc == 0 && t.status == stOk then
    match eng with
    | .denseOnly =>
      if t.sparse ∧ t.stage = .computing then { t with sparse := false, stage := .stopped }
      else if t.stage = .waiting ∨ t.stage = .stopped then { t with sparse := false } else t
    | _ => if t.stage = .waiting ∨ t.stage = .stopped then { t with sparse := t.own } else t
  else t

theorem Tile.assigned_engined (eng : Eng) (t : Tile) : t.Assigned (t.engined eng) := by
  unfold Tile.engined
  split
  case isFalse => exact .refl t
  case isTrue hm =>
    have hsparse (b : Bool) : t.Assigned (if t.stage = .waiting ∨ t.stage = .stopped then { t with sparse := b } else t) := by
      split
      case isTrue h => exact .moved t t.stage b (Tile.not_fixed hm (by tauto))
      case isFalse => exact .refl t
    split
    · split
      case isTrue h => exact .moved t .stopped false (Tile.not_fixed hm (.inr (.inl h.2)))
      case isFalse => exact hsparse false
    · exact hsparse t.own

theorem forall₂_assigned_map (eng : Eng) (ts : List Tile) : List.Forall₂ Tile.Assigned ts (ts.map (Tile.engined eng)) := by
  induction ts with
  | nil => exact .nil
  | cons t ts ih => exact .cons (t.assigned_engined eng) ih

/-- A MATMUL tile that is not of empty shape. -/
def Tile.isMatmul (t : Tile) : Bool := dType t.desc == 0 && t.status == stOk

/-- Surplus tiles stop. -/
def stopPass (eng : Eng) (acc : List Tile) (t : Tile) : List Tile :=
  if t.isMatmul ∧ t.stage = .computing ∧ eng ≠ .dual ∧ acc.any (fun u => u.isMatmul && u.stage == .computing) then
    acc ++ [{ t with stage := .stopped }] else acc ++ [t]

/-- Waiting and stopped tiles start in acceptance order. -/
def startPass (eng : Eng) (acc : List Tile × List Tile) (t : Tile) : List Tile × List Tile :=
  if t.isMatmul ∧ (t.stage = .waiting ∨ t.stage = .stopped) ∧
      (acc.1 ++ t :: acc.2).any (fun u => u.isMatmul && u.stage == .computing && (u.sparse == t.sparse || eng != .dual)) = false then
    (acc.1 ++ [{ t with stage := .computing }], acc.2.drop 1)
  else (acc.1 ++ [t], acc.2.drop 1)

theorem assignTiles_eq (eng : Eng) (ts : List Tile) : assignTiles eng ts =
    ((((ts.map (Tile.engined eng)).foldl (stopPass eng) []).foldl (startPass eng)
      ([], ((ts.map (Tile.engined eng)).foldl (stopPass eng) []).drop 1)).1) := rfl

theorem forall₂_stopPass (eng : Eng) (ts : List Tile) : List.Forall₂ Tile.Assigned ts (ts.foldl (stopPass eng) []) := by
  obtain ⟨us, hus, hall⟩ := forall₂_assigned_foldl (out := id) (f := stopPass eng) (fun a t => by
    unfold stopPass
    split
    case isTrue h => exact ⟨_, rfl, .moved t .stopped t.sparse (Tile.not_fixed h.1 (.inr (.inl h.2.1)))⟩
    case isFalse => exact ⟨t, rfl, .refl t⟩) ts []
  rw [show ts.foldl (stopPass eng) [] = us from hus]
  exact hall

theorem forall₂_startPass (eng : Eng) (ts rest : List Tile) :
    List.Forall₂ Tile.Assigned ts (ts.foldl (startPass eng) ([], rest)).1 := by
  obtain ⟨us, hus, hall⟩ := forall₂_assigned_foldl (out := Prod.fst) (f := startPass eng) (fun a t => by
    unfold startPass
    split
    case isTrue h => exact ⟨_, rfl, .moved t .computing t.sparse (Tile.not_fixed h.1 (h.2.1.imp_right .inr))⟩
    case isFalse => exact ⟨t, rfl, .refl t⟩) ts ([], rest)
  rw [hus]
  exact hall

theorem forall₂_assignTiles (eng : Eng) (ts : List Tile) : List.Forall₂ Tile.Assigned ts (assignTiles eng ts) := by
  rw [assignTiles_eq]
  exact forall₂_assigned_trans (forall₂_assigned_map eng ts)
    (forall₂_assigned_trans (forall₂_stopPass ..) (forall₂_startPass ..))

theorem getElem?_assignTiles (eng : Eng) {ts : List Tile} {i : Nat} {x : Tile} (h : ts[i]? = some x) (hx : x.Fixed) :
    (assignTiles eng ts)[i]? = some x := by
  have hall := forall₂_assignTiles eng ts
  generalize assignTiles eng ts = us at hall ⊢
  induction hall generalizing i with
  | nil => exact h
  | @cons y z _ _ hyz _ ih =>
    cases i with
    | zero =>
      obtain rfl : y = x := Option.some.inj h
      exact congrArg some (hyz.fixed hx)
    | succ i => exact ih h

/-- Each assigned tile is one of those before. -/
theorem exists_of_mem_assignTiles {eng : Eng} {ts : List Tile} {y : Tile} (h : y ∈ assignTiles eng ts) :
    ∃ x ∈ ts, x.Assigned y := by
  have hall := forall₂_assignTiles eng ts
  generalize assignTiles eng ts = us at hall h
  induction hall with
  | nil => cases h
  | @cons x z _ _ hxz _ ih =>
    cases h with
    | head => exact ⟨x, List.mem_cons_self, hxz⟩
    | tail _ h =>
      obtain ⟨w, hw, hwy⟩ := ih h
      exact ⟨w, List.mem_cons_of_mem _ hw, hwy⟩

/-! The slots. -/

theorem Slot.ne_free {x : Slot} (h : x.st ≠ .free) : x ≠ .free := fun hx => h (congrArg Slot.st hx)

theorem Core.slot_setSlot_self (c : Core) (i : Nat) {x : Slot} (h : x ≠ .free) : (c.setSlot i x).slot i = x :=
  tget_tset_self_of_ne _ _ _ h

theorem Core.slot_setSlot_of_twf {c : Core} (h : twf .free c.slots = true) (i : Nat) (x : Slot) : (c.setSlot i x).slot i = x :=
  tget_tset_self _ h _ _

theorem Core.slot_setSlot_of_ne (c : Core) {i j : Nat} (x : Slot) (h : i ≠ j) : (c.setSlot i x).slot j = c.slot j :=
  tget_tset_of_ne _ _ _ h

/-- A slot before and after tiles begin. -/
def Slot.Began (x y : Slot) : Prop := y = x ∨ x.st = .init ∧ y = { x with st := .accumulating }

theorem Slot.Began.of_ne {x y : Slot} (h : x.Began y) (hx : x.st ≠ .init) : y = x := h.resolve_right fun k => hx k.1

theorem Core.began_begin (c : Core) (x : Tile) (i : Nat) : (c.slot i).Began ((c.begin x).slot i) := by
  unfold Core.begin
  split
  case h_2 => exact .inl rfl
  case h_1 j _ =>
    split
    case isFalse => exact .inl rfl
    case isTrue h =>
      by_cases hj : j = i
      · subst hj
        exact .inr ⟨h.2, Core.slot_setSlot_self _ _ (Slot.ne_free (show SlotSt.accumulating ≠ .free by decide))⟩
      · exact .inl (Core.slot_setSlot_of_ne _ _ hj)

theorem Core.began_foldl (ts : List Tile) (c : Core) (i : Nat) : (c.slot i).Began ((ts.foldl Core.begin c).slot i) := by
  induction ts generalizing c with
  | nil => exact .inl rfl
  | cons t ts ih =>
    rw [List.foldl_cons]
    obtain h | ⟨hinit, h⟩ := c.began_begin t i
    · rw [← h]
      exact ih _
    · refine .inr ⟨hinit, ?_⟩
      have hrest := ih (c.begin t)
      rw [h] at hrest
      exact hrest.of_ne (show SlotSt.accumulating ≠ .init by decide)

/-- The slot of a tile that computes has left INIT. -/
theorem Core.st_foldl_begin {ts : List Tile} {x : Tile} (hx : x ∈ ts) (hst : x.stage = .computing) {i : Nat} (hslot : x.slot = some i)
    (c : Core) : ((ts.foldl Core.begin c).slot i).st ≠ .init := by
  induction ts generalizing c with
  | nil => cases hx
  | cons t ts ih =>
    rw [List.foldl_cons]
    cases hx with
    | tail _ hx => exact ih hx _
    | head =>
      have hbegun : ((c.begin x).slot i).st ≠ .init := by
        unfold Core.begin
        rw [hslot]
        dsimp only
        split
        case isTrue =>
          rw [Core.slot_setSlot_self _ _ (Slot.ne_free (show SlotSt.accumulating ≠ .free by decide))]
          exact (show SlotSt.accumulating ≠ .init by decide)
        case isFalse h => exact fun hinit => h ⟨hst, hinit⟩
      obtain h | ⟨hinit, -⟩ := (Core.began_foldl ts (c.begin x) i)
      · rwa [h]
      · exact absurd hinit hbegun

/-! A core after its engines are assigned anew. -/

section
variable {s : State} (h : CoresOk s) (n : Nat)
include h

theorem State.core_assign (m : Nat) :
    (s.assign n).core m = if m = n then (s.core n).assigned (s.die (dieOf n)).eng else s.core m :=
  State.core_setCore h n m _

theorem State.core_assign_other : OtherCores n s (s.assign n) := fun m hm => (State.core_assign h n m).trans (if_neg hm)

theorem State.tiles_assign : ((s.assign n).core n).tiles = assignTiles (s.die (dieOf n)).eng (s.core n).tiles := by
  rw [State.core_assign h, if_pos rfl, Core.tiles_assigned]

theorem State.began_assign (i : Nat) : ((s.core n).slot i).Began (((s.assign n).core n).slot i) := by
  rw [State.core_assign h, if_pos rfl]
  exact Core.began_foldl _ { s.core n with tiles := assignTiles (s.die (dieOf n)).eng (s.core n).tiles } i

end

end Sys2Proof.Machine
end


-- ==== Sys2Proof/Proofs/TileStages.lean ====
section
/-!
PROOF. The stages of an accepted tile: its computing, its epilogue, its stores and its end (R96, R100, R108).
-/

namespace Sys2Proof.Machine

/-! One core written. -/

section
variable {s u : State} (h : CoresOk s) (hu : u.cores = s.cores) (n : Nat) (c : Core)
include h hu

theorem State.coresOk_of_cores : CoresOk u := by
  rw [CoresOk, hu]
  exact h

theorem State.core_setCore_self : (u.setCore n c).core n = c :=
  (State.core_setCore (State.coresOk_of_cores h hu) n n c).trans (if_pos rfl)

theorem State.otherCores_setCore : OtherCores n s (u.setCore n c) := fun m hm =>
  ((State.core_setCore (State.coresOk_of_cores h hu) n m c).trans (if_neg hm)).trans (State.core_congr hu m)

end

theorem OtherCores.trans {n : Nat} {s t u : State} (h : OtherCores n s t) (k : OtherCores n t u) : OtherCores n s u :=
  fun m hm => (k m hm).trans (h m hm)

theorem OtherCores.of_cores {n : Nat} {s t : State} (h : t.cores = s.cores) : OtherCores n s t := fun m _ => State.core_congr h m

theorem Core.getElem?_setTile {c : Core} {i : Nat} {x y : Tile} (h : c.tiles[i]? = some x) : (c.setTile i y).tiles[i]? = some y := by
  have hi : i < c.tiles.length := (List.getElem?_eq_some_iff.mp h).1
  exact List.getElem?_set_self hi

theorem State.tiles_matched (s : State) (n : Nat) (x : Tile) (upto : Nat) (c : Core) :
    (s.matched n x upto c).tiles = c.tiles ∧ (s.matched n x upto c).slots = c.slots := by
  unfold State.matched
  dsimp only
  split <;> exact ⟨rfl, rfl⟩

theorem Tile.with_no_causes (x : Tile) (cs : List (Nat × Nat)) (h : cs = []) : ({ x with causes := x.causes ++ cs } : Tile) = x := by
  rw [h, List.append_nil]

theorem Tile.fixed_of_stage {x : Tile} (h : x.stage ≠ .waiting ∧ x.stage ≠ .computing ∧ x.stage ≠ .stopped) : x.Fixed :=
  fun _ _ => h

/-! A tile asks for what it misses, and stays. -/

section
variable {s : State} {n idx : Nat} {x : Tile} (h : CoresOk s) (hx : (s.core n).tiles[idx]? = some x)
include h hx

theorem State.asks_and_stays (cs : List (Nat × Nat)) :
    let t := (s.setCore n ((s.core n).setTile idx x)).askPeer n x.ctx x.seq cs
    (t.core n).tiles[idx]? = some x ∧ OtherCores n s t ∧ Frame [.cores, .fab, .router] s t := by
  intro t
  have hcores : t.cores = (s.setCore n ((s.core n).setTile idx x)).cores := (State.askPeer_runs ..).same .cores rfl
  have hcore : t.core n = (s.core n).setTile idx x := (State.core_congr hcores n).trans (State.core_setCore_self h rfl n _)
  refine ⟨?_, (State.otherCores_setCore h rfl n _).trans (.of_cores hcores),
    (Runs.comp (State.askPeer_runs ..) rfl ((State.setCore_runs ..).mono rfl)).frame⟩
  rw [hcore]
  exact Core.getElem?_setTile hx

end

/-! Computing (R96). -/

section
variable {s : State} {n idx : Nat} {x : Tile}

theorem State.computeDone_eq (hx : (s.core n).tiles[idx]? = some x) (hst : x.stage = .computing) (hq : (s.core n).idleQ = false) :
    s.computeDone n idx [] = s.compute n idx none (s.core n) x := by
  unfold State.computeDone
  rw [hx]
  dsimp only
  rw [if_neg (by simp [hst, hq]), Tile.with_no_causes x (sramCauses []) rfl]
  rfl

theorem exec_tileComputeDone (hn : n < 256) (hidx : idx < 4) (err : List SramErr) :
    exec (.tileComputeDone n idx err) s = .next (s.computeDone n idx err) :=
  need_of (Bool.and_eq_true_iff.mpr ⟨decide_eq_true hn, decide_eq_true hidx⟩) _

/-- A MATMUL tile that has its operands: its groups are rounded into its slot, which drains. -/
def State.matmulDone (s : State) (n idx : Nat) (x : Tile) (i : Nat) : State :=
  let r := s.mmRun n x ((s.core n).slot i) x.kEff
  (r.1.setCore n (s.matched n x x.kEff (((s.core n).setSlot i { r.2.2 with st := .draining }).setTile idx r.2.1.computed))).assign n

theorem State.compute_matmul {i : Nat} (hty : dType x.desc = 0) (hslot : x.slot = some i) :
    s.compute n idx none (s.core n) x =
      if (s.mmRun n x ((s.core n).slot i) x.kEff).2.1.misses then
        (s.setCore n ((s.core n).setTile idx x)).askPeer n x.ctx x.seq (s.mmRun n x ((s.core n).slot i) x.kEff).2.1.causes
      else s.matmulDone n idx x i := by
  unfold State.compute
  rw [hty, hslot]
  rfl

theorem State.matmulDone_leaves (h : CoresOk s) (hx : (s.core n).tiles[idx]? = some x) (hty : dType x.desc = 0) (i : Nat) :
    let r := s.mmRun n x ((s.core n).slot i) x.kEff
    ((s.matmulDone n idx x i).core n).tiles[idx]? = some r.2.1.computed ∧ r.2.1.computed.stage = .epilogue ∧
      ((s.matmulDone n idx x i).core n).slot i = { r.2.2 with st := .draining } ∧ OtherCores n s (s.matmulDone n idx x i) ∧
      Frame [.cores, .fab, .obj] s (s.matmulDone n idx x i) := by
  intro r
  have hstage : r.2.1.computed.stage = .epilogue := if_pos hty
  obtain ⟨y, hy⟩ : ∃ y, y = r.2.1.computed := ⟨_, rfl⟩
  obtain ⟨k, hk⟩ : ∃ k, k = s.matched n x x.kEff (((s.core n).setSlot i { r.2.2 with st := .draining }).setTile idx y) := ⟨_, rfl⟩
  have hruns : Runs [.fab, .obj] s r.1 := State.mmRun_runs ..
  have hcores : r.1.cores = s.cores := hruns.same .cores rfl
  obtain ⟨v, hv⟩ : ∃ v, v = r.1.setCore n k := ⟨_, rfl⟩
  have hvruns : Runs [.cores, .fab, .obj] s v := by
    rw [hv]
    exact Runs.comp (State.setCore_runs ..) rfl (hruns.mono rfl)
  have hok : CoresOk v := by
    rw [hv]
    exact (State.coresOk_of_cores h hcores).setCore n k
  have hcore : v.core n = k := by rw [hv, State.core_setCore_self h hcores]
  have hother : OtherCores n s v := by
    rw [hv]
    exact State.otherCores_setCore h hcores n k
  have hdone : s.matmulDone n idx x i = v.assign n := by rw [hv, hk, hy]; rfl
  obtain ⟨htiles, hslots⟩ := s.tiles_matched n x x.kEff (((s.core n).setSlot i { r.2.2 with st := .draining }).setTile idx y)
  rw [← hk] at htiles hslots
  have hyfixed : y.Fixed := by
    refine Tile.fixed_of_stage ?_
    rw [hy, hstage]
    decide
  have hkslot : k.slot i = { r.2.2 with st := .draining } := by
    rw [Core.slot, hslots]
    exact Core.slot_setSlot_self (x := { r.2.2 with st := .draining }) _ _ (Slot.ne_free (show SlotSt.draining ≠ .free by decide))
  rw [hdone, ← hy]
  refine ⟨?_, hy ▸ hstage, ?_, hother.trans (State.core_assign_other hok n), (Runs.comp (State.assign_runs ..) rfl hvruns).frame⟩
  · rw [State.tiles_assign hok, hcore, htiles]
    exact getElem?_assignTiles _ (Core.getElem?_setTile (c := (s.core n).setSlot i { r.2.2 with st := .draining }) hx) hyfixed
  · have hbegan := State.began_assign hok n i
    rw [hcore, hkslot] at hbegan
    exact hbegan.of_ne (show SlotSt.draining ≠ .init by decide)

/-- A tile of another type that forms what it stores. -/
theorem State.compute_forms {p : State × Tile} (h : CoresOk s) (hx : (s.core n).tiles[idx]? = some x)
    (hruns : Runs [.fab, .obj] s p.1) (hty : dType p.2.desc ≠ 0)
    (heq : s.compute n idx none (s.core n) x =
      if p.2.computed.misses then (s.setCore n ((s.core n).setTile idx x)).askPeer n x.ctx x.seq p.2.computed.causes
      else p.1.setCore n ((s.core n).setTile idx p.2.computed)) :
    (p.2.misses = false → ∃ y, ((s.compute n idx none (s.core n) x).core n).tiles[idx]? = some y ∧ y = p.2.computed ∧ y.stage = .storing ∧
        OtherCores n s (s.compute n idx none (s.core n) x) ∧ Frame [.cores, .fab, .obj] s (s.compute n idx none (s.core n) x)) ∧
      (p.2.misses = true → ((s.compute n idx none (s.core n) x).core n).tiles[idx]? = some x ∧
        OtherCores n s (s.compute n idx none (s.core n) x) ∧ Frame [.cores, .fab, .router] s (s.compute n idx none (s.core n) x)) := by
  rw [heq]
  have hcores : p.1.cores = s.cores := hruns.same .cores rfl
  refine ⟨fun hm => ?_, fun hm => ?_⟩
  · have hmiss : ¬p.2.computed.misses = true := by
      rw [show p.2.computed.misses = p.2.misses from rfl, hm]
      decide
    rw [if_neg hmiss]
    refine ⟨_, ?_, rfl, if_neg hty, State.otherCores_setCore h hcores n _,
      (Runs.comp (State.setCore_runs ..) rfl (hruns.mono rfl)).frame⟩
    rw [State.core_setCore_self h hcores]
    exact Core.getElem?_setTile hx
  · rw [if_pos (show p.2.computed.misses = true from hm)]
    exact State.asks_and_stays h hx _

theorem State.desc_runRoutine (rows : List (List Fv)) : (s.runRoutine n x rows).2.desc = x.desc := by
  unfold State.runRoutine
  dsimp only
  split
  · rfl
  · split <;> rfl

theorem State.desc_vecRun : (s.vecRun n x).2.desc = x.desc := State.desc_runRoutine ..

theorem State.desc_copyRun : (s.copyRun n x).2.desc = x.desc := by
  unfold State.copyRun
  dsimp only
  split <;> rfl

theorem State.desc_updRun : (s.updRun n x).2.desc = x.desc := by
  unfold State.updRun
  dsimp only
  split <;> rfl

/-- What a computing tile of type VECTOR, COPY or UPDATE comes to. -/
theorem State.compute_of_forms (h : CoresOk s) (hx : (s.core n).tiles[idx]? = some x) {p : Nat × State × Tile}
    (hp : p ∈ [(1, s.vecRun n x), (2, s.copyRun n x), (4, s.updRun n x)]) (hty : dType x.desc = p.1) :
    (p.2.2.misses = false → ∃ y, ((s.compute n idx none (s.core n) x).core n).tiles[idx]? = some y ∧ y = p.2.2.computed ∧
        y.stage = .storing ∧ OtherCores n s (s.compute n idx none (s.core n) x) ∧
        Frame [.cores, .fab, .obj] s (s.compute n idx none (s.core n) x)) ∧
      (p.2.2.misses = true → ((s.compute n idx none (s.core n) x).core n).tiles[idx]? = some x ∧
        OtherCores n s (s.compute n idx none (s.core n) x) ∧ Frame [.cores, .fab, .router] s (s.compute n idx none (s.core n) x)) := by
  simp only [List.mem_cons, List.not_mem_nil, or_false] at hp
  obtain rfl | rfl | rfl := hp
  · refine State.compute_forms h hx (State.vecRun_runs ..) ?_ ?_
    · rw [State.desc_vecRun, hty]
      exact (show 1 ≠ 0 by decide)
    · unfold State.compute
      rw [hty]
      rfl
  · refine State.compute_forms h hx (State.copyRun_runs ..) ?_ ?_
    · rw [State.desc_copyRun, hty]
      exact (show 2 ≠ 0 by decide)
    · unfold State.compute
      rw [hty]
      rfl
  · refine State.compute_forms h hx (State.updRun_runs ..) ?_ ?_
    · rw [State.desc_updRun, hty]
      exact (show 4 ≠ 0 by decide)
    · unfold State.compute
      rw [hty]
      rfl

/-! The epilogue (R100). -/

theorem exec_tileEpilogueDone (hn : n < 256) (hidx : idx < 4) (err : List SramErr) :
    exec (.tileEpilogueDone n idx err) s = .next (s.epilogueDone n idx err) :=
  need_of (Bool.and_eq_true_iff.mpr ⟨decide_eq_true hn, decide_eq_true hidx⟩) _

theorem State.epilogueDone_eq (hx : (s.core n).tiles[idx]? = some x) (hst : x.stage = .epilogue) (hq : (s.core n).idleQ = false)
    (hfirst : ((s.core n).tiles.take idx).any (fun y => y.stage == .epilogue) = false) :
    s.epilogueDone n idx [] = s.epilogue n idx none (s.core n) x := by
  unfold State.epilogueDone
  rw [hx]
  dsimp only
  rw [if_neg (by simp only [hst, hq, hfirst]; decide), Tile.with_no_causes x (sramCauses []) rfl]
  rfl

theorem State.epilogue_forms (h : CoresOk s) (hx : (s.core n).tiles[idx]? = some x) {i : Nat} (hslot : x.slot = some i) :
    let r := s.epiRun n x ((s.core n).slot i)
    let t := s.epilogue n idx none (s.core n) x
    (r.2.misses = false → twf Slot.free (s.core n).slots = true →
        (t.core n).tiles[idx]? = some { r.2 with stage := .storing, slot := none } ∧
        (t.core n).slot i = ((s.core n).slot i).drained x.desc ∧ OtherCores n s t ∧ Frame [.cores, .fab, .obj] s t) ∧
      (r.2.misses = true → (t.core n).tiles[idx]? = some x ∧ OtherCores n s t ∧ Frame [.cores, .fab, .router] s t) := by
  intro r t
  have hruns : Runs [.fab, .obj] s r.1 := State.epiRun_runs ..
  have hcores : r.1.cores = s.cores := hruns.same .cores rfl
  have ht : t = if r.2.misses then (s.setCore n ((s.core n).setTile idx x)).askPeer n x.ctx x.seq r.2.causes
      else r.1.setCore n (((s.core n).setSlot i (((s.core n).slot i).drained x.desc)).setTile idx
        { r.2 with stage := .storing, slot := none, stores := r.2.stores }) := by
    simp only [t, State.epilogue, hslot]
    rfl
  rw [ht]
  refine ⟨fun hm htwf => ?_, fun hm => ?_⟩
  · rw [if_neg (Bool.eq_false_iff.mp hm), State.core_setCore_self h hcores]
    exact ⟨Core.getElem?_setTile (c := (s.core n).setSlot i (((s.core n).slot i).drained x.desc)) hx,
      Core.slot_setSlot_of_twf htwf i _, State.otherCores_setCore h hcores n _,
      (Runs.comp (State.setCore_runs ..) rfl (hruns.mono rfl)).frame⟩
  · rw [if_pos hm]
    exact State.asks_and_stays h hx _

end

end Sys2Proof.Machine
end


-- ==== Sys2Proof/Proofs/TileStores.lean ====
section
/-!
PROOF. The stores of an accepted tile and its end (R108, R247, R254).
-/

namespace Sys2Proof.Machine

/-! What the stores of a tile leave of the cores: only the local store of their own is written. -/

/-- From `s` to `t` of all cores only the local store of core `n` is written. -/
def CoresStored (n : Nat) (s t : State) : Prop :=
  CoresOk s → CoresOk t ∧ OtherCores n s t ∧ { t.core n with store := (s.core n).store } = s.core n

namespace CoresStored

variable {n : Nat} {s t u : State}

theorem of_cores (h : t.cores = s.cores) : CoresStored n s t := fun hs =>
  ⟨State.coresOk_of_cores hs h, .of_cores h, by rw [State.core_congr h]⟩

theorem refl (n : Nat) (s : State) : CoresStored n s s := .of_cores rfl

theorem trans (h : CoresStored n s t) (k : CoresStored n t u) : CoresStored n s u := fun hs => by
  obtain ⟨ht, hother, hcore⟩ := h hs
  obtain ⟨hu, hother', hcore'⟩ := k ht
  refine ⟨hu, hother.trans hother', ?_⟩
  rw [← hcore, ← hcore']

theorem setStore (n : Nat) (s : State) (st : List (Nat × Byte)) : CoresStored n s (s.setCore n { s.core n with store := st }) := fun hs =>
  ⟨hs.setCore n _, State.otherCores_setCore hs rfl n _, by rw [State.core_setCore_self hs rfl]⟩

variable (h : CoresStored n s t) (hs : CoresOk s)
include h hs

theorem tiles : (t.core n).tiles = (s.core n).tiles := (congrArg Core.tiles (h hs).2.2 :)

theorem slots : (t.core n).slots = (s.core n).slots := (congrArg Core.slots (h hs).2.2 :)

end CoresStored

theorem State.applyStore_cores (s : State) (n ctx seq : Nat) (x : Store) : CoresStored n s (s.applyStore n ctx seq x).1 := by
  obtain ⟨cls, key, a, bs, op⟩ := x
  unfold State.applyStore
  dsimp only
  split
  case h_1 =>
    split
    · exact .refl n s
    · exact .of_cores ((State.storeDev_runs ..).same .cores rfl)
  case h_2 => exact .setStore n s _
  case h_3 => exact .of_cores ((State.urnStore_runs ..).same .cores rfl)
  case h_4 => exact .of_cores ((State.globalStores_runs ..).same .cores rfl)

theorem State.applyStores_cores (n ctx seq : Nat) (xs : List Store) (s : State) :
    CoresStored n s (State.applyStores n ctx seq xs s).1 := by
  induction xs generalizing s with
  | nil => exact .refl n s
  | cons x xs ih => exact (s.applyStore_cores n ctx seq x).trans (ih _)

/-- One DEVICE store that meets nothing. -/
theorem State.applyStores_device {s : State} {n ctx seq a op : Nat} {bs : List Byte}
    (h : (State.applyStores n ctx seq [(0, 0, a, bs, op)] s).2 = []) :
    (State.applyStores n ctx seq [(0, 0, a, bs, op)] s).1 = s.storeDev a bs := by
  have hforbid : s.evalForbids ctx a bs.length = false := by
    rw [← Bool.not_eq_true]
    intro hf
    simp only [State.applyStores, State.applyStore, hf, if_true] at h
    cases h
  simp only [State.applyStores, State.applyStore, hforbid]
  rfl

/-! A tile leaves its core. -/

section
variable {s : State} {n : Nat} {x : Tile}

/-- The core of a tile that leaves, before its engines are assigned anew. -/
def State.left (s : State) (n : Nat) (x : Tile) : Core :=
  let c := s.core n
  let c := match x.slot with
    | none => c
    | some i => c.setSlot i ((c.slot i).drained x.desc)
  let ts := c.tiles.filter (fun y => !(y.seq == x.seq && y.ctx == x.ctx))
  { c with tiles := ts, idleFrom := if ts.isEmpty then s.clk else c.idleFrom }

theorem State.release_eq : s.release n x = (s.setCore n (s.left n x)).assign n := rfl

theorem State.tiles_left : (s.left n x).tiles = (s.core n).tiles.filter (fun y => !(y.seq == x.seq && y.ctx == x.ctx)) := by
  unfold State.left
  cases x.slot <;> rfl

theorem State.slot_left {i : Nat} (hslot : x.slot = some i) (htwf : twf Slot.free (s.core n).slots = true) :
    (s.left n x).slot i = ((s.core n).slot i).drained x.desc := by
  unfold State.left
  rw [hslot]
  exact Core.slot_setSlot_of_twf htwf i _

theorem Slot.st_drained (sl : Slot) (d : WorkDesc) : (sl.drained d).st ≠ .init := by
  unfold Slot.drained
  split
  · exact (show SlotSt.held ≠ .init by decide)
  · exact (show SlotSt.free ≠ .init by decide)

theorem State.release_leaves (h : CoresOk s) :
    (∀ y ∈ ((s.release n x).core n).tiles, ¬(y.seq = x.seq ∧ y.ctx = x.ctx)) ∧
      (∀ i, x.slot = some i → twf Slot.free (s.core n).slots = true →
        ((s.release n x).core n).slot i = ((s.core n).slot i).drained x.desc) ∧
      OtherCores n s (s.release n x) := by
  have hok : CoresOk (s.setCore n (s.left n x)) := h.setCore n _
  have hcore : (s.setCore n (s.left n x)).core n = s.left n x := State.core_setCore_self h rfl n _
  rw [State.release_eq]
  refine ⟨fun y hy => ?_, fun i hslot htwf => ?_, (State.otherCores_setCore h rfl n _).trans (State.core_assign_other hok n)⟩
  · rw [State.tiles_assign hok, hcore, State.tiles_left] at hy
    obtain ⟨z, hz, hzy⟩ := exists_of_mem_assignTiles hy
    rw [hzy.seq, hzy.ctx]
    rintro ⟨hseq, hctx⟩
    have hkept := (List.mem_filter.mp hz).2
    rw [hseq, hctx, beq_self_eq_true, beq_self_eq_true] at hkept
    exact absurd hkept (by decide)
  · have hbegan := State.began_assign hok n i
    rw [hcore, State.slot_left hslot htwf] at hbegan
    exact hbegan.of_ne (Slot.st_drained _ _)

end

/-! The end of a tile that met nothing. -/

/-- A tile that ends OK and asks for no record writes none: its two signals are all. -/
theorem State.finish_plain {s : State} {c : Cpl} (hst : c.status = stOk) (hcpl : dCplAlways c.desc = false) (hfl : c.flags = 0) :
    s.finish c = (s.signalWord c.ctx (dSignal c.desc 0)).signalWord c.ctx (dSignal c.desc 1) := by
  unfold State.finish
  rw [if_neg (by rw [hcpl, hst]; decide)]
  dsimp only
  rw [if_pos hfl, hst]
  rfl

theorem Tile.result_plain {x : Tile} (hst : x.status = stOk) (hc : x.causes = []) : x.result = (stOk, 0) := by
  unfold Tile.result
  rw [hst, if_neg (by decide), if_pos hc]

/-- The signals of a tile that ends. -/
def State.signalled (s : State) (x : Tile) : State :=
  (s.signalWord x.ctx (dSignal x.desc 0)).signalWord x.ctx (dSignal x.desc 1)

theorem SignalClosed.signalled {R : State → State → Prop} (h : SignalClosed R) (s : State) (x : Tile) : R s (s.signalled x) :=
  h.trans (h.signalWord ..) (h.signalWord ..)

theorem SyncSame.signalled {s t : State} (h : SyncSame s t) (x : Tile) : SyncSame (s.signalled x) (t.signalled x) :=
  (h.signalWord ..).signalWord ..

theorem signalClosed_lasts : SignalClosed (StpKept StepCtx.lasting) where
  refl := .refl
  trans h k := .comp k h
  setCtr _ _ _ := .of_steps rfl
  syncFlag _ _ _ := .of_steps rfl
  latch := State.latch_lasts
  inject _ _ _ := .of_steps rfl
  capInject s port p := .of_steps ((s.capInject_runs port p).same .steps rfl)

theorem State.tileEnd_ends {s : State} {n : Nat} {x : Tile} (hst : x.status = stOk) (hc : x.causes = []) (hfrees : x.frees = [])
    (hcpl : dCplAlways x.desc = false) (hfl : x.flags = 0) :
    s.tileEnd n x =
      let t := ((s.dropTileReqs n x.ctx x.seq).release n x).signalled x
      if dType x.desc = 4 then t.modStp x.ctx (fun p => { p with updates := p.updates + 1 }) else t := by
  have hfreed : freeAll x.ctx x.frees s = (s, []) := by rw [hfrees]; rfl
  have hres := Tile.result_plain hst hc
  unfold State.tileEnd
  rw [hfreed]
  dsimp only
  rw [Tile.with_no_causes x _ rfl]
  unfold State.complete
  dsimp only
  rw [State.finish_plain (c := x.cpl n) (congrArg Prod.fst hres) hcpl hfl, hres]
  simp only [and_true]
  rfl

/-! The stores of a tile are applied. -/

/-- A state in which no error waits to be met. -/
theorem State.foundDone_of_none {s : State} (h : s.mem.found = []) : s.foundDone = s := by
  have hmem : ({ s.mem with found := [] } : Mem) = s.mem := by rw [← h]
  unfold State.foundDone
  rw [h, hmem]
  rfl

theorem State.noteNorm_updates (s : State) (x : Tile) : StpKept StepCtx.updates s (s.noteNorm x) := by
  unfold State.noteNorm
  split
  case isTrue => exact .modStp fun _ => rfl
  case isFalse => exact .refl s

theorem State.forbidden_congr {s t : State} (h : t.obj = s.obj) (x : Tile) : t.forbidden x = s.forbidden x := by
  have hforbids (c a n : Nat) : t.evalForbids c a n = s.evalForbids c a n := by
    unfold State.evalForbids State.evalOn State.evalCtx
    rw [State.ov_congr h, State.ov_congr h]
  unfold State.forbidden
  simp only [hforbids]

section
variable {s : State} {n idx : Nat} {x : Tile}

theorem exec_tileStoresDone (hn : n < 256) (hidx : idx < 4) : exec (.tileStoresDone n idx) s = .next (s.storesDone n idx) :=
  need_of (Bool.and_eq_true_iff.mpr ⟨decide_eq_true hn, decide_eq_true hidx⟩) _

theorem State.storesDone_eq (hx : (s.core n).tiles[idx]? = some x) (hst : x.stage = .storing) (hbad : s.forbidden x = [])
    (hfound : s.mem.found = []) :
    s.storesDone n idx =
      let r := State.applyStores n x.ctx x.seq x.stores (s.noteNorm x)
      let y : Tile := { x with causes := x.causes ++ r.2, stores := [] }
      if r.1.acksOpen n x then r.1.modCore n (fun c => c.setTile idx { y with stage := .acking }) else r.1.tileEnd n y := by
  obtain ⟨u, hu⟩ : ∃ u, u = s.noteNorm x := ⟨_, rfl⟩
  have hruns : Runs [.steps] s u := hu ▸ s.noteNorm_runs x
  have hfound' : u.mem.found = [] := by rw [show u.mem = s.mem from hruns.same .mem rfl, hfound]
  have hbad' : u.forbidden x = [] := by rw [State.forbidden_congr (hruns.same .obj rfl), hbad]
  unfold State.storesDone
  rw [hx]
  dsimp only
  rw [if_neg (not_not.mpr hst), ← hu, State.foundDone_of_none hfound', hfound', hbad']
  have hall : x.stores.filter (fun y => !(([] : List Nat).contains y.2.2.2.2)) = x.stores := by simp
  rw [hall]
  have hcauses (cs : List (Nat × Nat)) :
      x.causes ++ sramCauses [] ++ List.map (fun op : Nat => ((0x0A, op) : Nat × Nat)) [] ++ cs = x.causes ++ cs := by
    simp [sramCauses]
  rw [hcauses]
  rfl

theorem State.stored_runs (s : State) (n : Nat) (x : Tile) :
    Runs [.cores, .mem, .urn, .fab, .router, .steps, .obj] s (State.applyStores n x.ctx x.seq x.stores (s.noteNorm x)).1 :=
  Runs.comp (State.applyStores_runs ..) rfl ((s.noteNorm_runs x).mono rfl)

theorem State.stored_cores (s : State) (n : Nat) (x : Tile) :
    CoresStored n s (State.applyStores n x.ctx x.seq x.stores (s.noteNorm x)).1 :=
  .trans (.of_cores ((s.noteNorm_runs x).same .cores rfl)) (State.applyStores_cores _ _ _ _ _)

/-- A tile with WRITEs at peers open waits for their acknowledgements. -/
theorem State.storesDone_awaits (h : CoresOk s) (hx : (s.core n).tiles[idx]? = some x) {u : State} (y : Tile)
    (hu : CoresStored n s u) (hruns : Runs [.cores, .mem, .urn, .fab, .router, .steps, .obj] s u) :
    let t := u.modCore n (fun c => c.setTile idx y)
    (t.core n).tiles[idx]? = some y ∧ t.sync = s.sync ∧ t.mem = u.mem ∧ OtherCores n s t ∧
      Frame [.cores, .mem, .urn, .fab, .router, .steps, .obj] s t := by
  intro t
  obtain ⟨hok, hother, -⟩ := hu h
  have hsync : u.sync = s.sync := hruns.same .sync rfl
  refine ⟨?_, hsync, rfl, hother.trans (State.otherCores_setCore hok rfl n _),
    (Runs.comp (State.setCore_runs ..) rfl hruns).frame⟩
  rw [show t.core n = (u.core n).setTile idx y from State.core_setCore_self hok rfl n _]
  exact Core.getElem?_setTile (by rw [hu.tiles h]; exact hx)

/-- A tile whose stores `u` has and which met nothing leaves its core, signals and, an UPDATE tile, counts. -/
def State.ended (u : State) (n : Nat) (x : Tile) : State :=
  let t := ((u.dropTileReqs n x.ctx x.seq).release n x).signalled x
  if dType x.desc = 4 then t.modStp x.ctx (fun p => { p with updates := p.updates + 1 }) else t

theorem State.ended_counts {u : State} (n : Nat) (x : Tile) :
    Runs [.steps] (((u.dropTileReqs n x.ctx x.seq).release n x).signalled x) (u.ended n x) := by
  unfold State.ended
  dsimp only
  split
  · exact State.modStp_runs ..
  · exact .refl _

theorem State.signalled_runs (s : State) (x : Tile) : Runs [.sync, .fab, .router, .steps, .obj] s (s.signalled x) :=
  Runs.comp (State.signalWord_runs ..) rfl ((State.signalWord_runs ..).mono rfl)

theorem State.ended_runs (u : State) (n : Nat) (x : Tile) : Runs [.cores, .sync, .fab, .router, .steps, .obj] u (u.ended n x) := by
  refine Runs.trans ?_ ((State.ended_counts n x).mono rfl)
  refine Runs.trans ?_ ((State.signalled_runs _ x).mono rfl)
  exact Runs.comp (State.release_runs ..) rfl ((State.setFab_runs ..).mono rfl)

/-- What the end of a tile leaves of its core, of the memory and of the counters. -/
theorem State.ended_leaves (h : CoresOk s) {u : State} (hu : CoresStored n s u) :
    (u.ended n x).mem = u.mem ∧ (u.ended n x).sync = (u.signalled x).sync ∧
      (∀ y ∈ ((u.ended n x).core n).tiles, ¬(y.seq = x.seq ∧ y.ctx = x.ctx)) ∧
      (∀ i, x.slot = some i → twf Slot.free (s.core n).slots = true →
        ((u.ended n x).core n).slot i = ((s.core n).slot i).drained x.desc) ∧
      OtherCores n s (u.ended n x) := by
  obtain ⟨hok, hother, -⟩ := hu h
  obtain ⟨w, hw⟩ : ∃ w, w = u.dropTileReqs n x.ctx x.seq := ⟨_, rfl⟩
  have hdrop : Runs [.fab] u w := hw ▸ State.dropTileReqs_runs ..
  have hwcores : w.cores = u.cores := hdrop.same .cores rfl
  obtain ⟨hgone, hslot, hothers⟩ := State.release_leaves (s := w) (n := n) (x := x) (State.coresOk_of_cores hok hwcores)
  have hrel : Runs [.cores, .fab] u (w.release n x) := Runs.comp (State.release_runs ..) rfl (hdrop.mono rfl)
  have hsync : SyncSame u (w.release n x) := by
    have hs : (w.release n x).sync = u.sync := hrel.same .sync rfl
    have ho : (w.release n x).obj = u.obj := hrel.same .obj rfl
    exact ⟨hs, congrArg _ ho⟩
  have hcounts : Runs [.steps] ((w.release n x).signalled x) (u.ended n x) := hw ▸ State.ended_counts n x
  have hcores : (u.ended n x).cores = (w.release n x).cores := by
    have hsig : ((w.release n x).signalled x).cores = (w.release n x).cores := (State.signalled_runs _ x).same .cores rfl
    have hcnt : (u.ended n x).cores = ((w.release n x).signalled x).cores := hcounts.same .cores rfl
    exact hcnt.trans hsig
  have hcore (m : Nat) : (u.ended n x).core m = (w.release n x).core m := State.core_congr hcores m
  refine ⟨(State.ended_runs u n x).same .mem rfl, ?_, ?_, fun i hi htwf => ?_, ?_⟩
  · have hcnt : (u.ended n x).sync = ((w.release n x).signalled x).sync := hcounts.same .sync rfl
    exact hcnt.trans (hsync.signalled x).1
  · rw [hcore]
    exact hgone
  · have hwn : w.core n = u.core n := State.core_congr hwcores n
    have hslots : (w.core n).slots = (s.core n).slots := by rw [hwn, hu.slots h]
    rw [hcore, hslot i hi (by rwa [hslots]), Core.slot, hslots]
    rfl
  · exact (hother.trans (.of_cores hwcores)).trans (hothers.trans (.of_cores hcores))

/-- An UPDATE tile that ends counts. -/
theorem State.ended_updates {u : State} (hst : StepsOk s) (h : StpKept StepCtx.updates s u) :
    ((u.ended n x).stp x.ctx).updates = (s.stp x.ctx).updates + (if dType x.desc = 4 then 1 else 0) := by
  obtain ⟨v, hv⟩ : ∃ v, v = ((u.dropTileReqs n x.ctx x.seq).release n x).signalled x := ⟨_, rfl⟩
  have hrel : ((u.dropTileReqs n x.ctx x.seq).release n x).steps = u.steps :=
    (Runs.comp (State.release_runs ..) rfl ((State.dropTileReqs_runs u n x.ctx x.seq).mono rfl) : Runs [.cores, .fab] u _).same .steps rfl
  have hlast : StpKept StepCtx.lasting ((u.dropTileReqs n x.ctx x.seq).release n x) v := hv ▸ signalClosed_lasts.signalled _ x
  have hkept : StpKept StepCtx.updates s v :=
    .comp ⟨hlast.canonical, fun hw c => (congrArg StepCtx.updates (hlast.same hw c) :)⟩ (.comp (.of_steps hrel) h)
  have heq := hkept.same hst x.ctx
  unfold State.ended
  rw [← hv]
  dsimp only
  split
  case isTrue =>
    rw [State.modStp, State.stp_setStp_self (hkept.canonical hst), ← heq]
  case isFalse => exact heq

end

/-! O42. -/

/-- Settles O42: computing and epilogue by what the tile forms, the stores by what each leaves of the cores, the end by the
release of the core and two signals. -/
theorem tilesProgressToTheirEnd : Obligations.TilesProgressToTheirEnd := by
  intro s n idx x hw hn hidx hx
  have hok : CoresOk s := State.twf_cores hw
  refine ⟨fun hst hq => ⟨fun i hty hslot => ?_, fun p hp hty => ?_⟩, fun i hst hq hslot hfirst => ?_, ?_⟩
  · have hexec := (exec_tileComputeDone (s := s) hn hidx []).trans (congrArg Host.Outcome.next (State.computeDone_eq hx hst hq))
    rw [State.compute_matmul hty hslot] at hexec
    intro r
    refine ⟨fun hm => ?_, fun hm => ?_⟩
    · rw [if_neg (Bool.eq_false_iff.mp hm)] at hexec
      obtain ⟨htile, hstage, hsl, hother, hframe⟩ := State.matmulDone_leaves hok hx hty i
      exact ⟨_, _, hexec, htile, rfl, hstage, rfl, hsl, hother, hframe⟩
    · rw [if_pos hm] at hexec
      exact ⟨_, hexec, State.asks_and_stays hok hx _⟩
  · have hexec := (exec_tileComputeDone (s := s) hn hidx []).trans (congrArg Host.Outcome.next (State.computeDone_eq hx hst hq))
    obtain ⟨hforms, hmisses⟩ := State.compute_of_forms hok hx hp hty
    refine ⟨fun hm => ?_, fun hm => ⟨_, hexec, hmisses hm⟩⟩
    obtain ⟨y, hy⟩ := hforms hm
    exact ⟨_, y, hexec, hy⟩
  · have hexec := (exec_tileEpilogueDone (s := s) hn hidx []).trans
      (congrArg Host.Outcome.next (State.epilogueDone_eq hx hst hq hfirst))
    obtain ⟨hforms, hmisses⟩ := State.epilogue_forms hok hx hslot
    exact ⟨fun hm htwf => ⟨_, hexec, hforms hm htwf⟩, fun hm => ⟨_, hexec, hmisses hm⟩⟩
  · intro r hst hbad hfound
    have hexec := (exec_tileStoresDone (s := s) hn hidx).trans
      (congrArg Host.Outcome.next (State.storesDone_eq hx hst hbad hfound))
    dsimp only at hexec
    obtain ⟨u, hu⟩ : ∃ u, u = r.1 := ⟨_, rfl⟩
    have hruns : Runs [.cores, .mem, .urn, .fab, .router, .steps, .obj] s u := hu ▸ State.stored_runs s n x
    have hstored : CoresStored n s u := hu ▸ State.stored_cores s n x
    refine ⟨fun hopen => ?_, fun hopen hstatus hcauses hfrees hmet hcpl hfl htwf => ?_⟩
    · rw [if_pos hopen] at hexec
      obtain ⟨htile, hsync, hmem, hother, hframe⟩ := State.storesDone_awaits hok hx
        { x with causes := x.causes ++ r.2, stores := [], stage := .acking } hstored hruns
      rw [hu] at htile hsync hmem hother hframe
      exact ⟨_, _, hexec, htile, rfl, hsync, hmem, hother, hframe⟩
    · rw [if_neg (Bool.eq_false_iff.mp hopen), show (State.applyStores n x.ctx x.seq x.stores (s.noteNorm x)).2 = [] from hmet,
        List.append_nil] at hexec
      have hends : u.tileEnd n { x with stores := [] } = u.ended n x :=
        State.tileEnd_ends (x := { x with stores := [] }) hstatus hcauses hfrees hcpl hfl
      rw [show (State.applyStores n x.ctx x.seq x.stores (s.noteNorm x)).1 = u from hu.symm, hends] at hexec
      obtain ⟨hmemt, hsync, hgone, hslots, hother⟩ := State.ended_leaves (x := x) hok hstored
      have hsteps : StpKept StepCtx.updates s u := by
        have happ : u.steps = (s.noteNorm x).steps := by
          rw [hu]
          exact (State.applyStores_runs ..).same .steps rfl
        exact .comp (.of_steps happ) (s.noteNorm_updates x)
      refine ⟨_, hexec, hmemt.trans (congrArg State.mem hu), hgone, fun i hi => hslots i hi htwf, ?_,
        State.ended_updates (State.twf_steps hw) hsteps, fun a b op hone hmap => ?_, hother,
        (Runs.trans (hruns.mono rfl) ((State.ended_runs u n x).mono rfl)).frame⟩
      · rw [hsync, hu]
        rfl
      · have hnote : (s.noteNorm x).mem = s.mem := (s.noteNorm_runs x).same .mem rfl
        have hustore : u = (s.noteNorm x).storeDev a b := by
          have hmet' := hmet
          simp only [r] at hmet' hu
          rw [hone] at hmet' hu
          rw [hu, State.applyStores_device hmet']
        have hbyte (j : Nat) : (u.ended n x).memByte j = ((s.noteNorm x).storeDev a b).memByte j := by
          rw [State.memByte, hmemt, hustore, State.memByte]
        have hmap' : (s.noteNorm x).anyUnmapped a b.length = false := by
          rw [State.anyUnmapped_congr (congrArg Mem.gddr hnote)]
          exact hmap
        have hwn : (s.noteNorm x).wf = true := (s.noteNorm_runs x).wf hw
        refine ⟨fun j c hc => (hbyte _).trans (State.memByte_storeDev_inside hwn hmap' hc), fun j hj => ?_⟩
        rw [hbyte, State.memByte_storeDev_outside hmap' hj, State.memByte, hnote, State.memByte]

end Sys2Proof.Machine
end


-- ==== Sys2Proof/Proofs/Permutes.lean ====
section
/-!
PROOF. The permute collective: its messages, the combination of replies along the block's lines, and the home's decision
(R282 to R285).
-/

namespace Sys2Proof.Machine

/-! The messages (R284). -/

section
variable (kind ctx round epoch count pend sent recv reason : Nat)

theorem permBody_fop : bytesField (permBody kind ctx round epoch count pend sent recv reason) 0 8 = 0x64 :=
  bytesField_mkBody [] _ 0x64 rfl (by decide)

theorem permBody_kind : bytesField (permBody kind ctx round epoch count pend sent recv reason) 8 4 = kind % 2 ^ 4 :=
  bytesField_mkBody [(0, 8, 0x64)] _ kind rfl (by decide)

theorem permBody_ctx : bytesField (permBody kind ctx round epoch count pend sent recv reason) 12 4 = ctx % 2 ^ 4 :=
  bytesField_mkBody [(0, 8, 0x64), (8, 4, kind)] _ ctx rfl (by decide)

theorem permBody_round : bytesField (permBody kind ctx round epoch count pend sent recv reason) 16 16 = round % 2 ^ 16 :=
  bytesField_mkBody [(0, 8, 0x64), (8, 4, kind), (12, 4, ctx)] _ round rfl (by decide)

theorem permBody_epoch : bytesField (permBody kind ctx round epoch count pend sent recv reason) 32 16 = epoch % 2 ^ 16 :=
  bytesField_mkBody [(0, 8, 0x64), (8, 4, kind), (12, 4, ctx), (16, 16, round)] _ epoch rfl (by decide)

theorem permBody_reason : bytesField (permBody kind ctx round epoch count pend sent recv reason) 256 8 = reason % 2 ^ 8 :=
  bytesField_mkBody [(0, 8, 0x64), (8, 4, kind), (12, 4, ctx), (16, 16, round), (32, 16, epoch), (48, 16, count % 32768),
    (64, 64, pend), (128, 64, sent), (192, 64, recv)] _ reason rfl (by decide)

end

theorem Perm.epoch_lt (x : Perm) : x.epoch < 2 ^ 16 := Nat.mod_lt _ (by decide)

/-- A permute message that enters the router at the hub. -/
theorem State.permutes_inject {u : State} {c kind round count pend sent recv reason : Nat} {p : Packet} (hc : c < 16)
    (hkind : kind < 16) (hround : round < 65536) (hreason : reason < 256) (hvc : p.vc = 0) (hctx : p.ctx = c)
    (hbody : p.body = permBody kind c round (u.perm c).epoch count pend sent recv reason) :
    (u.inject hubSelf p).Permutes c kind round reason := by
  have hfield (lo w : Nat) : p.field lo w = bytesField p.body lo w := rfl
  refine ⟨p, u.mem_inject hubSelf p, hvc, hctx, ?_, ?_, ?_, ?_, ?_, ?_⟩
  · rw [hfield, hbody, permBody_fop]
  · rw [hfield, hbody, permBody_kind]
    exact Nat.mod_eq_of_lt hkind
  · rw [hfield, hbody, permBody_ctx]
    exact Nat.mod_eq_of_lt hc
  · rw [hfield, hbody, permBody_round]
    exact Nat.mod_eq_of_lt hround
  · rw [hfield, hbody, permBody_epoch, Nat.mod_eq_of_lt (Perm.epoch_lt _)]
    rfl
  · rw [hfield, hbody, permBody_reason]
    exact Nat.mod_eq_of_lt hreason

/-! A context's permute is written. -/

/-- From `s` to `t` the permute of context `c` has become `x`, and nothing beyond the parts `L` has changed. -/
structure State.PermTo (L : List Part) (s t : State) (c : Nat) (x : Perm) : Prop where
  perm : t.perm c = x
  ok : twf .init t.red.perm = true
  obj : t.obj = s.obj
  runs : Runs L s t

section
variable {L : List Part} {s u : State} {c : Nat} {x : Perm}

theorem State.PermTo.start (hw : s.wf = true) (h : Runs L s u) (hred : u.red.perm = s.red.perm) (hobj : u.obj = s.obj) (c : Nat) :
    State.PermTo L s u c (s.perm c) where
  perm := by rw [State.perm, hred, State.perm]
  ok := by
    rw [hred]
    exact State.twf_perm hw
  obj := hobj
  runs := h

section
variable (h : State.PermTo L s u c x)
include h

theorem State.PermTo.set (hL : within [.red] L = true) (y : Perm) : State.PermTo L s (u.setPerm c y) c y where
  perm := (State.perm_setPerm h.ok ..).trans (if_pos rfl)
  ok := twf_tset _ _ _ h.ok
  obj := h.obj
  runs := h.runs.trans ((State.setPerm_runs ..).mono hL)

theorem State.PermTo.mod (hL : within [.red] L = true) (f : Perm → Perm) : State.PermTo L s (u.modPerm c f) c (f x) :=
  h.perm ▸ h.set hL (f (u.perm c))

theorem State.PermTo.inject (hL : within [.router] L = true) (port : Nat) (p : Packet) : State.PermTo L s (u.inject port p) c x where
  perm := h.perm
  ok := h.ok
  obj := h.obj
  runs := h.runs.trans ((State.inject_runs ..).mono hL)

/-- A message of the home goes down the block's tree. -/
theorem State.PermTo.down (hc : c < 16) (hL : within [.router] L = true) {kind round reason : Nat} (hkind : kind < 16)
    (hround : round < 65536) (hreason : reason < 256) :
    State.PermTo L s (u.permDown c kind round reason) c x ∧ (u.permDown c kind round reason).Permutes c kind round reason :=
  ⟨h.inject hL _ _, State.permutes_inject hc hkind hround hreason rfl rfl rfl⟩

/-- A combined reply goes to the next module of the line. -/
theorem State.PermTo.line (hc : c < 16) (hL : within [.router] L = true) (d : Nat) {kind round : Nat} (hkind : kind < 16)
    (hround : round < 65536) (count pend sent recv : Nat) :
    let t := u.lineSend c d (permBody kind c round x.epoch count pend sent recv 0)
    State.PermTo L s t c x ∧ t.Permutes c kind round 0 ∧ t.Sent 0 d 0x64 := by
  intro t
  refine ⟨h.inject hL _ _, State.permutes_inject (count := count) (pend := pend) (sent := sent) (recv := recv) hc hkind hround
    (by decide) rfl rfl ?_, State.sent_of_inject _ _ rfl rfl (permBody_fop ..)⟩
  rw [h.perm]
  rfl

end

/-! The combination (R284). -/

/-- ROUND of the replies that a stage awaits. -/
def Perm.awaitsRound (x : Perm) : Nat := if x.st = 1 then x.round else 0

/-- The replies to the stage in progress. -/
def Perm.current (x : Perm) : List PermReply := x.replies.filter (fun r => r.kind == x.awaits && r.round == x.awaitsRound)

/-- Those of this module and of the modules beyond. -/
def State.counted (s : State) (c : Nat) (x : Perm) : List PermReply :=
  x.current.filter (fun r => (s.me :: s.linePrev c).contains r.src)

/-- This module has completed its stage, and the replies from beyond are here, not yet told. -/
structure State.Complete (s : State) (c : Nat) (x : Perm) : Prop where
  told : x.told = false
  own : x.own = true
  here : (s.me :: s.linePrev c).all (x.current.map (·.src)).contains = true

theorem State.me_congr {s t : State} (h : t.obj = s.obj) : t.me = s.me := by
  have hread : t.me = State.me { s with obj := t.obj } := rfl
  rw [hread, h]

theorem State.Complete.congr {t : State} (h : s.Complete c x) (hobj : t.obj = s.obj) : t.Complete c x where
  told := h.told
  own := h.own
  here := by
    rw [State.me_congr hobj, State.linePrev_congr hobj]
    exact h.here

theorem State.counted_congr {t : State} (hobj : t.obj = s.obj) (c : Nat) (x : Perm) : t.counted c x = s.counted c x := by
  rw [State.counted, State.me_congr hobj, State.linePrev_congr hobj, State.counted]

/-- The sum of a count over the replies that a module combines. -/
def State.permSum (s : State) (c : Nat) (x : Perm) (f : PermReply → Nat) : Nat := ((s.counted c x).map f).sum

theorem State.permSum_congr {t : State} (hobj : t.obj = s.obj) (c : Nat) (x : Perm) (f : PermReply → Nat) :
    t.permSum c x f = s.permSum c x f := by rw [State.permSum, State.counted_congr hobj, State.permSum]

/-- A module that combines replies sends them onward, or decides at the home. -/
def State.combined (u : State) (c : Nat) (x : Perm) : State :=
  let v := u.setPerm c { x with told := true }
  match v.lineNext c with
  | none => v.permDecide c (u.permSum c x (·.count)) (u.permSum c x (·.pend)) (u.permSum c x (·.sent)) (u.permSum c x (·.recv))
  | some d => v.lineSend c d (permBody x.awaits c x.awaitsRound x.epoch (u.permSum c x (·.count)) (u.permSum c x (·.pend))
      (u.permSum c x (·.sent)) (u.permSum c x (·.recv)) 0)

theorem State.permCombine_split (u : State) (hx : u.perm c = x) :
    u.permCombine c = if x.told || !(x.own && (u.me :: u.linePrev c).all (x.current.map (·.src)).contains) then u
      else u.combined c x := by
  subst hx
  rfl

theorem State.permCombine_eq (u : State) (hx : u.perm c = x) (h : u.Complete c x) : u.permCombine c = u.combined c x := by
  rw [State.permCombine_split u hx, h.told, h.own, h.here]
  rfl

section
variable (hc : c < 16) (hL : within [.router, .red] L = true) (h : State.PermTo L s u c x) (hall : s.Complete c x)
  (hawaits : x.awaits < 16) (hround : x.awaitsRound < 65536)
include hc hL h hall

include hawaits hround in
/-- The combined reply goes onward. -/
theorem State.PermTo.combine_sends {d : Nat} (hnext : s.lineNext c = some d) :
    State.PermTo L s (u.permCombine c) c { x with told := true } ∧
      (u.permCombine c).Permutes c x.awaits x.awaitsRound 0 ∧ (u.permCombine c).Sent 0 d 0x64 := by
  obtain ⟨v, hv⟩ : ∃ v, v = u.setPerm c { x with told := true } := ⟨_, rfl⟩
  have hset : State.PermTo L s v c { x with told := true } := hv ▸ h.set (within_trans (b := [.router, .red]) rfl hL) _
  have hn : v.lineNext c = some d := (State.lineNext_congr hset.obj c).trans hnext
  rw [State.permCombine_eq u h.perm (hall.congr h.obj), State.combined, ← hv]
  rw [hn]
  exact hset.line (x := { x with told := true }) hc (within_trans (b := [.router, .red]) rfl hL) d hawaits hround _ _ _ _

omit hc in
/-- The home decides. -/
theorem State.PermTo.combine_decides (hnext : s.lineNext c = none) :
    ∃ v, State.PermTo L s v c { x with told := true } ∧ u.permCombine c =
      v.permDecide c (s.permSum c x (·.count)) (s.permSum c x (·.pend)) (s.permSum c x (·.sent)) (s.permSum c x (·.recv)) := by
  obtain ⟨v, hv⟩ : ∃ v, v = u.setPerm c { x with told := true } := ⟨_, rfl⟩
  have hset : State.PermTo L s v c { x with told := true } := hv ▸ h.set (within_trans (b := [.router, .red]) rfl hL) _
  have hn : v.lineNext c = none := (State.lineNext_congr hset.obj c).trans hnext
  refine ⟨v, hset, ?_⟩
  rw [State.permCombine_eq u h.perm (hall.congr h.obj), State.combined, ← hv]
  simp only [hn, State.permSum_congr h.obj]

end

/-- Complete replies of a stage take the block on: the home's next message goes out. -/
theorem State.PermTo.decide (hc : c < 16) (hL : within [.router, .red] L = true) (h : State.PermTo L s u c x) (hst : x.st ∈ [1, 2, 3])
    (hfailed : x.failed = false) {count pend sent recv : Nat} (hcount : count = s.blockSize c)
    (hdrained : x.st = 1 → pend = 0 ∧ sent = recv ∧ x.lastSums = some (sent, recv)) :
    State.PermTo L s (u.permDecide c count pend sent recv) c { x with stageAt := u.ftRead hubPs } ∧
      (u.permDecide c count pend sent recv).Permutes c (2 * x.st) 0 0 := by
  have hred : within [.red] L = true := within_trans (b := [.router, .red]) rfl hL
  have hrouter : within [.router] L = true := within_trans (b := [.router, .red]) rfl hL
  obtain ⟨v, hv⟩ : ∃ v, v = u.setPerm c { x with stageAt := u.ftRead hubPs } := ⟨_, rfl⟩
  have hset : State.PermTo L s v c { x with stageAt := u.ftRead hubPs } := hv ▸ h.set hred _
  have hgo : ¬(count ≠ u.blockSize c ∨ x.failed) := by
    rw [hcount, State.blockSize_congr h.obj, hfailed]
    simp
  have heq : u.permDecide c count pend sent recv = v.permDown c (2 * x.st) 0 0 := by
    unfold State.permDecide
    dsimp only
    rw [h.perm, if_neg hgo, ← hv]
    simp only [List.mem_cons, List.not_mem_nil, or_false] at hst
    obtain hst | hst | hst := hst
    · obtain ⟨hpend, hbal, hlast⟩ := hdrained hst
      rw [if_pos hst, if_neg (by rw [hpend, hbal]; simp), if_pos hlast, hst]
    · rw [if_neg (by rw [hst]; decide), if_pos hst, hst]
    · rw [if_neg (by rw [hst]; decide), if_neg (by rw [hst]; decide), hst]
  rw [heq]
  refine hset.down hc hrouter ?_ (by decide) (by decide)
  simp only [List.mem_cons, List.not_mem_nil, or_false] at hst
  omega

/-! This module's own reply (R284). -/

/-- This module's reply to the stage in progress. -/
def State.ownReply (s : State) (c : Nat) (x : Perm) : PermReply :=
  if x.st = 1 then ⟨s.me, 1, x.round, 1, s.redPending c, (s.redc c).sent, (s.redc c).received⟩ else ⟨s.me, x.awaits, 0, 1, 0, 0, 0⟩

theorem State.permOwn_eq (u : State) (hx : u.perm c = x) :
    u.permOwn c = (u.setPerm c ({ x with own := true }.reply (u.ownReply c x))).permCombine c := by
  subst hx
  rfl

theorem State.ownReply_fields (u : State) (c : Nat) (x : Perm) :
    (u.ownReply c x).src = u.me ∧ (u.ownReply c x).kind = x.awaits ∧ (u.ownReply c x).round = x.awaitsRound := by
  unfold State.ownReply Perm.awaitsRound Perm.awaits
  split
  case isTrue h => exact ⟨rfl, by rw [h], rfl⟩
  case isFalse => exact ⟨rfl, rfl, rfl⟩

/-- The permute with a module's own reply. -/
def State.owned (u : State) (c : Nat) (x : Perm) : Perm := { x with own := true }.reply (u.ownReply c x)

theorem State.complete_owned {c : Nat} {x : Perm} (u : State) (htold : x.told = false) (hprev : u.linePrev c = []) :
    u.Complete c (u.owned c x) where
  told := htold
  own := rfl
  here := by
    obtain ⟨hsrc, hkind, hround⟩ := u.ownReply_fields c x
    have hmem : u.ownReply c x ∈ (u.owned c x).current := by
      refine List.mem_filter.mpr ⟨List.mem_append_right _ (List.mem_singleton.mpr rfl), ?_⟩
      rw [hkind, hround]
      exact Bool.and_eq_true_iff.mpr ⟨beq_self_eq_true _, beq_self_eq_true _⟩
    rw [hprev]
    simp only [List.all_cons, List.all_nil, Bool.and_true, List.contains_iff_mem, List.mem_map]
    exact ⟨_, hmem, hsrc⟩

/-- What `permCombine` leaves of a permute whatever its replies. -/
theorem State.PermTo.combine (hL : within [.router, .red] L = true) (h : State.PermTo L s u c x) :
    ∃ y, State.PermTo L s (u.permCombine c) c y ∧ y.own = x.own ∧ y.st = x.st := by
  have hred : within [.red] L = true := within_trans (b := [.router, .red]) rfl hL
  have hrouter : within [.router] L = true := within_trans (b := [.router, .red]) rfl hL
  rw [State.permCombine_split u h.perm]
  split
  case isTrue => exact ⟨x, h, rfl, rfl⟩
  case isFalse =>
    have hset := h.set hred { x with told := true }
    unfold State.combined
    dsimp only
    split
    case h_2 => exact ⟨_, hset.inject hrouter _ _, rfl, rfl⟩
    case h_1 =>
      unfold State.permDecide
      dsimp only
      rw [hset.perm]
      split
      · exact ⟨_, hset, rfl, rfl⟩
      · split
        · split
          · exact ⟨_, hset.set hred _, rfl, rfl⟩
          · split
            · exact ⟨_, (hset.set hred _).inject hrouter _ _, rfl, rfl⟩
            · exact ⟨_, hset.set hred _, rfl, rfl⟩
        · exact ⟨_, (hset.set hred _).inject hrouter _ _, rfl, rfl⟩

theorem State.PermTo.own (hL : within [.router, .red] L = true) (h : State.PermTo L s u c x) :
    ∃ y, State.PermTo L s (u.permOwn c) c y ∧ y.own = true ∧ y.st = x.st := by
  rw [State.permOwn_eq u h.perm]
  exact (h.set (within_trans (b := [.router, .red]) rfl hL) _).combine hL

/-- The combination leaves a context's counts and epoch alone. -/
theorem State.permCombine_redc (u : State) (c : Nat) : (u.permCombine c).red.ctx = u.red.ctx := by
  rw [State.permCombine_split u rfl]
  split
  case isTrue => rfl
  case isFalse =>
    unfold State.combined
    dsimp only
    split
    case h_2 => rfl
    case h_1 =>
      unfold State.permDecide
      dsimp only
      split
      · rfl
      · split
        · split
          · rfl
          · split <;> rfl
        · rfl

theorem State.permOwn_redc (u : State) (c : Nat) : (u.permOwn c).red.ctx = u.red.ctx := by
  rw [State.permOwn_eq u rfl, State.permCombine_redc]
  rfl

/-- A module with none beyond it sends its own reply onward. -/
theorem State.PermTo.own_sends (hc : c < 16) (hL : within [.router, .red] L = true) (h : State.PermTo L s u c x) (htold : x.told = false)
    (hprev : s.linePrev c = []) (hawaits : x.awaits < 16) (hround : x.awaitsRound < 65536) {d : Nat} (hnext : s.lineNext c = some d) :
    (u.permOwn c).Permutes c x.awaits x.awaitsRound 0 ∧ (u.permOwn c).Sent 0 d 0x64 := by
  have hset : State.PermTo L s (u.setPerm c (u.owned c x)) c (u.owned c x) :=
    h.set (within_trans (b := [.router, .red]) rfl hL) _
  have hcomplete : u.Complete c (u.owned c x) := u.complete_owned htold ((State.linePrev_congr h.obj c).trans hprev)
  rw [State.permOwn_eq u h.perm]
  exact (hset.combine_sends hc hL (hcomplete.congr h.obj.symm) hawaits hround hnext).2

end

end Sys2Proof.Machine
end


-- ==== Sys2Proof/Proofs/PermutePhases.lean ====
section
/-!
PROOF. The stages of a permute: its drain, its two phases and its ends (R282 to R285).
-/

namespace Sys2Proof.Machine

/-! The message commands (R284). -/

section
variable {s : State} {p : Packet}

theorem State.permMsg_of (act : Packet → State → State) {kind : Nat} (h : p.field 8 4 = kind) (s : State) :
    State.permMsg kind act p s = act p s := if_pos h

theorem State.permMsg_reserved (act : Packet → State → State) {kind : Nat} (hk : kind < 9) (h : 9 ≤ p.field 8 4) (s : State) :
    State.permMsg kind act p s = s.taken p := (if_neg (by omega)).trans (if_pos h)

theorem State.permMsg_other (act : Packet → State → State) {kind : Nat} (hk : p.field 8 4 < 9) (h : p.field 8 4 ≠ kind) (s : State) :
    State.permMsg kind act p s = s := (if_neg h).trans (if_neg (Nat.not_le.mpr hk))

/-- What each KIND's command does with its packet. -/
def State.permActs (p : Packet) : List ((Instr × Nat) × (Packet → State → State)) :=
  [((.countReq p, 0), State.countReq), ((.permuteCount p, 1), fun p => State.permReplied p 1), ((.phase1Go p, 2), State.phase1Go),
    ((.phase1Done p, 3), fun p => State.permReplied p 3), ((.phase2Go p, 4), State.phase2Go),
    ((.phase2Done p, 5), fun p => State.permReplied p 5), ((.permuteDone p, 6), State.permDone),
    ((.permuteFailed p, 7), State.permFailed), ((.entryInvalid p, 8), State.entryInvalid)]

theorem exec_permMsg (hp : p.wf = true) {q : (Instr × Nat) × (Packet → State → State)} (hq : q ∈ State.permActs p) :
    exec q.1.1 s = powered s (State.permMsg q.1.2 q.2 p s) ∧ q.1.2 < 9 := by
  simp only [State.permActs, List.mem_cons, List.not_mem_nil, or_false] at hq
  obtain rfl | rfl | rfl | rfl | rfl | rfl | rfl | rfl | rfl := hq <;> exact ⟨need_of hp _, by dsimp only; decide⟩

/-- The command of a KIND acts on its packet with the main rails on. -/
theorem exec_permMsg_acts (hp : p.wf = true) (hrails : s.power.rails = true) {q : (Instr × Nat) × (Packet → State → State)}
    (hq : q ∈ State.permActs p) (hk : p.field 8 4 = q.1.2) : exec q.1.1 s = .next (q.2 p s) := by
  rw [(exec_permMsg hp hq).1, powered_of hrails, State.permMsg_of q.2 hk]

theorem exec_permMsg_idle (hp : p.wf = true) {q : (Instr × Nat) × (Packet → State → State)} (hq : q ∈ State.permActs p) :
    (s.power.rails = false → exec q.1.1 s = .next s) ∧
      (s.power.rails = true → 9 ≤ p.field 8 4 → exec q.1.1 s = .next (s.taken p)) ∧
      (p.field 8 4 < 9 → p.field 8 4 ≠ q.1.2 → exec q.1.1 s = .next s) := by
  obtain ⟨hexec, hk⟩ := exec_permMsg (s := s) hp hq
  rw [hexec]
  refine ⟨fun h => powered_off h _, fun h h9 => ?_, fun h9 hne => ?_⟩
  · rw [powered_of h, State.permMsg_reserved q.2 hk h9]
  · rw [State.permMsg_other q.2 h9 hne]
    exact congrArg _ (ite_self s)

end

/-! A packet taken leaves the permutes as they were. -/

section
variable {s : State} {p : Packet} {c : Nat} (hw : s.wf = true)
include hw

theorem State.PermTo.taken (p : Packet) (c : Nat) : State.PermTo [.router, .red] s (s.taken p) c (s.perm c) :=
  .start hw ((State.taken_runs ..).mono rfl) rfl rfl c

end

theorem State.permOk_src {s : State} {p : Packet} {st : List Nat} (h : s.permOk p st = true) :
    s.inBlock (pCtx p) p.src = true ∧ (s.perm (pCtx p)).st ∈ st := by
  unfold State.permOk at h
  simp only [Bool.and_eq_true, List.contains_iff_mem] at h
  exact h.1

theorem Perm.busy_of_mem {x : Perm} (h : x.st ∈ [1, 2, 3]) : x.busy = true := by
  simp only [List.mem_cons, List.not_mem_nil, or_false] at h
  unfold Perm.busy
  rw [Bool.and_eq_true, decide_eq_true_iff, decide_eq_true_iff]
  omega

/-! The drain (R283, R284). -/

section
variable {s : State} {c : Nat} (hw : s.wf = true) (hc : c < 16)
include hw hc

theorem State.permRound_asks (hst : (s.perm c).st = 1) (hnext : s.lineNext c = none) (hin : s.inBlock c s.me = true)
    (hdue : ∀ a, (s.perm c).askedAt = some a → a + 10000 ≤ s.clk) :
    let t := s.permRound c
    t.Permutes c 0 (((s.perm c).round + 1) % 65536) 0 ∧ (t.perm c).round = ((s.perm c).round + 1) % 65536 ∧
      (t.perm c).askedAt = some s.clk ∧ Frame [.router, .red] s t := by
  have hstart : State.PermTo [.router, .red] s s c (s.perm c) := .start hw (.refl s) rfl rfl c
  obtain ⟨y, hy⟩ : ∃ y : Perm, y = { s.perm c with
      askedAt := some s.clk
      stageAt := if (s.perm c).askedAt = none then s.ftRead hubPs else (s.perm c).stageAt
      round := ((s.perm c).round + 1) % 65536
      own := false
      lastSums := if (s.perm c).told then (s.perm c).lastSums else none
      told := false } := ⟨_, rfl⟩
  have heq : s.permRound c = (s.setPerm c y).permDown c 0 (((s.perm c).round + 1) % 65536) 0 := by
    unfold State.permRound
    dsimp only
    rw [hy]
    refine if_pos ⟨hst, hnext, hin, ?_⟩
    split
    case h_1 => rfl
    case h_2 a ha => exact decide_eq_true (hdue a ha)
  obtain ⟨hto, hsends⟩ := (hstart.set rfl y).down (kind := 0) (reason := 0) hc rfl (by decide) (Nat.mod_lt _ (by decide)) (by decide)
  intro t
  rw [show t = (s.setPerm c y).permDown c 0 (((s.perm c).round + 1) % 65536) 0 from heq]
  refine ⟨hsends, ?_, ?_, hto.runs.frame⟩
  · rw [hto.perm, hy]
  · rw [hto.perm, hy]

omit hc in
/-- COUNT_REQ before the module has joined is held. -/
theorem State.countReq_holds {p : Packet} (hpc : pCtx p = c) (hin : s.inBlock c p.src = true) (hbusy : (s.perm c).busy = false) :
    (s.countReq p).perm c = { s.perm c with heldReq := some p } ∧ (s.countReq p).router = (s.taken p).router ∧
      Frame [.router, .red] s (s.countReq p) := by
  obtain ⟨v, hv⟩ : ∃ v, v = s.taken p := ⟨_, rfl⟩
  have hto : State.PermTo [.router, .red] s v c (s.perm c) := hv ▸ .taken hw p c
  have heq : s.countReq p = v.modPerm c ({ · with heldReq := some p }) := by
    have hin' : v.inBlock c p.src = true := (State.inBlock_congr hto.obj c _).trans hin
    unfold State.countReq
    dsimp only
    rw [← hv, hpc, if_neg (Bool.not_eq_false _ ▸ hin'), if_neg (Bool.eq_false_iff.mp (hto.perm.symm ▸ hbusy))]
  have hmod := hto.mod rfl ({ · with heldReq := some p })
  rw [heq]
  exact ⟨hmod.perm, by rw [hv]; rfl, hmod.runs.frame⟩

/-- COUNT_REQ at a module that has joined and has none beyond it. -/
theorem State.countReq_answers {p : Packet} {d : Nat} (hpc : pCtx p = c) (hok : s.permOk p [1] = true) (hlast : s.linePrev c = [])
    (hnext : s.lineNext c = some d) :
    (s.countReq p).Permutes c 1 (p.field 16 16) 0 ∧ (s.countReq p).Sent 0 d 0x64 ∧ Frame [.router, .red] s (s.countReq p) := by
  obtain ⟨hin, hst⟩ := State.permOk_src hok
  rw [hpc] at hin hst
  have hst1 : (s.perm c).st = 1 := List.mem_singleton.mp hst
  obtain ⟨v, hv⟩ : ∃ v, v = s.taken p := ⟨_, rfl⟩
  have hto : State.PermTo [.router, .red] s v c (s.perm c) := hv ▸ .taken hw p c
  obtain ⟨y, hy⟩ : ∃ y : Perm, y = { s.perm c with round := p.field 16 16, told := false, own := false } := ⟨_, rfl⟩
  have heq : s.countReq p = (v.modPerm c (fun x => { x with round := p.field 16 16, told := false, own := false })).permOwn c := by
    have hin' : v.inBlock c p.src = true := (State.inBlock_congr hto.obj c _).trans hin
    have hok' : v.permOk p [1] = true := by
      rw [← hok, hv]
      rfl
    have hbusy : (v.perm c).busy = true := by
      rw [hto.perm]
      exact Perm.busy_of_mem (by rw [hst1]; decide)
    unfold State.countReq
    dsimp only
    rw [← hv, hpc, if_neg (Bool.not_eq_false _ ▸ hin'), if_pos hbusy, if_pos hok']
    rfl
  have hmod : State.PermTo [.router, .red] s (v.modPerm c (fun x => { x with round := p.field 16 16, told := false, own := false })) c y :=
    hy ▸ hto.mod rfl _
  have hysts : y.st = 1 := by rw [hy]; exact hst1
  have hround : y.awaitsRound = p.field 16 16 := by
    rw [Perm.awaitsRound, if_pos hysts, hy]
  have hawaits : y.awaits = 1 := by rw [Perm.awaits, hysts]
  obtain ⟨hperm, hsent⟩ := hmod.own_sends hc rfl (by rw [hy]) hlast (by rw [hawaits]; decide)
    (by rw [hround]; exact Nat.mod_lt _ (by decide)) hnext
  obtain ⟨z, hz, -, -⟩ := hmod.own rfl
  rw [hawaits, hround] at hperm
  rw [heq]
  exact ⟨hperm, hsent, hz.runs.frame⟩

end

/-! Replies from beyond (R284). -/

/-- The combined reply that a packet carries. -/
def permReplyOf (p : Packet) (kind : Nat) : PermReply :=
  ⟨p.src, kind, p.field 16 16, if p.field 48 16 = 0 then 32768 else p.field 48 16, p.field 64 64, p.field 128 64, p.field 192 64⟩

theorem State.permOk_mono {s : State} {p : Packet} {xs ys : List Nat} (h : s.permOk p xs = true) (hsub : ∀ i ∈ xs, i ∈ ys) :
    s.permOk p ys = true := by
  unfold State.permOk at h ⊢
  simp only [Bool.and_eq_true, List.contains_iff_mem] at h ⊢
  exact ⟨⟨h.1.1, hsub _ h.1.2⟩, h.2⟩

section
variable {s : State} {c : Nat} {p : Packet}

theorem State.permReplied_eq (kind : Nat) (hpc : pCtx p = c) (hok : s.permOk p [1, 2, 3] = true) :
    s.permReplied p kind = ((s.taken p).modPerm c (·.reply (permReplyOf p kind))).permCombine c := by
  have hok' : ¬(s.taken p).permOk p [1, 2, 3] = false := by
    rw [show (s.taken p).permOk p [1, 2, 3] = s.permOk p [1, 2, 3] from rfl, hok]
    decide
  unfold State.permReplied
  dsimp only
  rw [if_neg hok', hpc]
  rfl

/-- What makes a reply from the one module beyond the last that a stage awaits. -/
structure State.LastReply (s : State) (c : Nat) (x : Perm) (r0 r : PermReply) : Prop where
  own : x.own = true
  told : x.told = false
  replies : x.replies = [r0]
  mine : r0.src = s.me
  kind : r0.kind = x.awaits ∧ r.kind = x.awaits
  round : r0.round = x.awaitsRound ∧ r.round = x.awaitsRound
  src : r.src ≠ s.me
  prev : s.linePrev c = [r.src]

namespace State.LastReply

variable {x : Perm} {r0 r : PermReply} (h : s.LastReply c x r0 r)
include h

theorem current : (x.reply r).current = [r0, r] := by
  have hkeep : (r0.src != r.src) = true := bne_iff_ne.mpr fun he => h.src (he.symm.trans h.mine)
  have hreplies : (x.reply r).replies = [r0, r] := by
    rw [Perm.reply, h.replies, List.filter_cons, if_pos hkeep]
    rfl
  have hawaits : (x.reply r).awaits = x.awaits := rfl
  have hround : (x.reply r).awaitsRound = x.awaitsRound := rfl
  rw [Perm.current, hreplies, hawaits, hround, List.filter_eq_self]
  intro q hq
  simp only [List.mem_cons, List.not_mem_nil, or_false] at hq
  obtain rfl | rfl := hq
  · rw [h.kind.1, h.round.1, beq_self_eq_true, beq_self_eq_true]
    rfl
  · rw [h.kind.2, h.round.2, beq_self_eq_true, beq_self_eq_true]
    rfl

theorem complete : s.Complete c (x.reply r) where
  told := h.told
  own := h.own
  here := by
    rw [h.current, h.prev, ← h.mine]
    simp

theorem permSum (f : PermReply → Nat) : s.permSum c (x.reply r) f = f r0 + f r := by
  have hall : s.counted c (x.reply r) = [r0, r] := by
    rw [State.counted, h.current, List.filter_eq_self, h.prev, ← h.mine]
    intro q hq
    simp only [List.mem_cons, List.not_mem_nil, or_false] at hq
    obtain rfl | rfl := hq <;> simp
  rw [State.permSum, hall]
  rfl

end State.LastReply

/-- The last reply that a stage awaits goes onward with this module's. -/
theorem State.permReplied_sends (hw : s.wf = true) (hc : c < 16) {kind d : Nat} {r0 : PermReply} (hpc : pCtx p = c)
    (hok : s.permOk p [1, 2, 3] = true) (h : s.LastReply c (s.perm c) r0 (permReplyOf p kind))
    (hround : (s.perm c).awaitsRound < 65536) (hnext : s.lineNext c = some d) :
    let t := s.permReplied p kind
    t.Permutes c (s.perm c).awaits (s.perm c).awaitsRound 0 ∧ t.Sent 0 d 0x64 ∧ (t.perm c).told = true ∧ Frame [.router, .red] s t := by
  intro t
  have ht : t = ((s.taken p).modPerm c (·.reply (permReplyOf p kind))).permCombine c := State.permReplied_eq kind hpc hok
  have hst := (State.permOk_src hok).2
  rw [hpc] at hst
  have hto := (State.PermTo.taken hw p c).mod rfl (·.reply (permReplyOf p kind))
  have hawaits : (s.perm c).awaits < 16 := by
    simp only [List.mem_cons, List.not_mem_nil, or_false] at hst
    rw [Perm.awaits]
    omega
  obtain ⟨hperm, hpermutes, hsent⟩ := hto.combine_sends hc rfl h.complete hawaits hround hnext
  rw [ht]
  exact ⟨hpermutes, hsent, congrArg Perm.told hperm.perm, hperm.runs.frame⟩

/-- The last reply that the home awaits takes the block on. -/
theorem State.permReplied_decides (hw : s.wf = true) (hc : c < 16) {kind : Nat} {r0 : PermReply} (hpc : pCtx p = c)
    (hok : s.permOk p [1, 2, 3] = true) (h : s.LastReply c (s.perm c) r0 (permReplyOf p kind)) (hnext : s.lineNext c = none)
    (hcount : r0.count + (permReplyOf p kind).count = s.blockSize c) (hfailed : (s.perm c).failed = false)
    (hdrained : (s.perm c).st = 1 → r0.pend + p.field 64 64 = 0 ∧ r0.sent + p.field 128 64 = r0.recv + p.field 192 64 ∧
      (s.perm c).lastSums = some (r0.sent + p.field 128 64, r0.recv + p.field 192 64)) :
    let t := s.permReplied p kind
    t.Permutes c (2 * (s.perm c).st) 0 0 ∧ (t.perm c).told = true ∧ Frame [.router, .red] s t := by
  intro t
  have ht : t = ((s.taken p).modPerm c (·.reply (permReplyOf p kind))).permCombine c := State.permReplied_eq kind hpc hok
  have hst := (State.permOk_src hok).2
  rw [hpc] at hst
  have hto := (State.PermTo.taken hw p c).mod rfl (·.reply (permReplyOf p kind))
  obtain ⟨v, hv, heq⟩ := hto.combine_decides rfl h.complete hnext
  obtain ⟨hperm, hpermutes⟩ := hv.decide (count := s.permSum c ((s.perm c).reply (permReplyOf p kind)) (·.count))
    (pend := s.permSum c ((s.perm c).reply (permReplyOf p kind)) (·.pend))
    (sent := s.permSum c ((s.perm c).reply (permReplyOf p kind)) (·.sent))
    (recv := s.permSum c ((s.perm c).reply (permReplyOf p kind)) (·.recv)) hc rfl hst hfailed
    ((h.permSum _).trans hcount) (by
      intro h1
      rw [h.permSum, h.permSum, h.permSum]
      exact hdrained h1)
  rw [ht, heq]
  exact ⟨hpermutes, congrArg Perm.told hperm.perm, hperm.runs.frame⟩

end

end Sys2Proof.Machine
end


-- ==== Sys2Proof/Proofs/PermuteEnds.lean ====
section
/-!
PROOF. The phases of a permute, its stores and its ends (R283, R285, R335).
-/

namespace Sys2Proof.Machine

/-! The move list (R282). -/

theorem State.moves_congr {s t : State} {x y : Perm} (hmem : t.mem = s.mem) (hctrl : y.ctrl = x.ctrl) : t.moves y = s.moves x := by
  have hentry (i : Nat) : t.moveEntry y i = s.moveEntry x i := by
    rw [State.moveEntry, State.loadDev_congr hmem, Perm.table, hctrl]
    rfl
  rw [State.moves, Perm.entries, hctrl]
  exact congrArg (List.map · _) (funext hentry)

/-- What a valid entry keeps to. -/
theorem State.moveEntry_valid {s : State} {x : Perm} {i src dst n : Nat} (h : s.moveEntry x i = (src, dst, n, true)) :
    dst % 16 = 0 ∧ n % 16 = 0 ∧ 16 ≤ n := by
  obtain ⟨v, hv⟩ : ∃ v, v = leNat (s.loadDev (x.table + 32 * i) 32) := ⟨_, rfl⟩
  unfold State.moveEntry at h
  rw [← hv] at h
  simp only [Prod.mk.injEq, Bool.and_eq_true, beq_iff_eq, decide_eq_true_iff] at h
  obtain ⟨-, hdst, hn, ⟨⟨⟨⟨-, hd⟩, hn16⟩, hpos⟩, hd57⟩, -⟩ := h
  refine ⟨?_, hn ▸ hn16, hn ▸ hpos⟩
  have heq : bits (bits v 64 64) 0 57 = bits v 64 64 := by
    rw [bits, Nat.pow_zero, Nat.div_one]
    exact Nat.mod_eq_of_lt hd57
  rw [← hdst, heq]
  exact hd

theorem State.moveEntry_of_moves {s : State} {x : Perm} {m : Nat × Nat × Nat × Bool} (h : s.moves x = [m]) : ∃ i, s.moveEntry x i = m := by
  have hm : m ∈ s.moves x := by
    rw [h]
    exact List.mem_singleton.mpr rfl
  obtain ⟨i, -, hi⟩ := List.mem_map.mp hm
  exact ⟨i, hi⟩

theorem gOff_mod {a : Nat} (h : a % 16 = 0) : gOff a % 16 = 0 := by
  rw [gOff, bits, Nat.pow_zero, Nat.div_one]
  omega

/-- An aligned range within a block of 4 KiB is one WRITE (R335). -/
theorem writePieces_whole {o n : Nat} {bs : List Byte} (hlen : bs.length = n) (hpos : 16 ≤ n) (hn : n % 16 = 0) (ho : o % 16 = 0)
    (hblock : o % 4096 + n ≤ 4096) : writePieces n o bs = [(o, bs)] := by
  obtain ⟨m, rfl⟩ : ∃ m, n = m + 2 := ⟨n - 2, by omega⟩
  have hne : bs ≠ [] := List.ne_nil_of_length_pos (by omega)
  have hk : min (4096 - o % 4096) ((m + 2) / 16 * 16) = bs.length := by omega
  have hpieces : writePieces (m + 2) o bs = (o, bs.take bs.length) :: writePieces (m + 1) (o + bs.length) (bs.drop bs.length) := by
    rw [writePieces, if_neg hne, hlen]
    dsimp only
    rw [if_pos ⟨ho, hpos⟩, hk, hlen]
  rw [hpieces, List.take_length, List.drop_length, writePieces, if_pos rfl]

/-! The stores of phase 2 (R283, R329, R333). -/

section
variable {s u : State} {c dev n o : Nat} {k : Right} {L : List Part} {x : Perm}

theorem State.permitted_congr {t : State} (h : t.obj = s.obj) : t.permitted c n dev o k = s.permitted c n dev o k := by
  have hread : t.permitted c n dev o k = State.permitted { s with obj := t.obj } c n dev o k := rfl
  rw [hread, h]

theorem State.nextTag_lookNote : (s.lookNote c n dev o k).fab.nextTag = s.fab.nextTag := by
  unfold State.lookNote
  dsimp only
  split <;> rfl

/-- An operation that touches neither the permutes nor the objects. -/
theorem State.PermTo.beside {t : State} {K : List Part} (h : State.PermTo L s u c x) (hr : Runs K u t) (hK : within K L = true)
    (hred : t.red = u.red) (hobj : t.obj = u.obj) : State.PermTo L s t c x where
  perm := by rw [State.perm, hred, ← h.perm, State.perm]
  ok := hred ▸ h.ok
  obj := hobj.trans h.obj
  runs := h.runs.trans (hr.mono hK)

/-- A WRITE that the region table permits goes out, and is awaited. -/
theorem State.PermTo.write (hL : within [.fab, .router, .red] L = true) (h : State.PermTo L s u c x) (bs : List Byte)
    (hok : s.permitted c bs.length dev o .write = true) :
    State.PermTo L s (u.permWrite c dev (o, bs)) c { x with acks := x.acks ++ [u.fab.nextTag] } ∧
      (u.permWrite c dev (o, bs)).Sent 2 dev 0x11 := by
  obtain ⟨v, hv⟩ : ∃ v, v = u.lookNote c bs.length dev o .write := ⟨_, rfl⟩
  have hlook : Runs [.fab] u v := hv ▸ State.lookNote_runs ..
  have hto : State.PermTo L s v c x :=
    h.beside hlook (within_trans (b := [.fab, .router, .red]) rfl hL) (hlook.same .red rfl) (hlook.same .obj rfl)
  have hmod := hto.mod (within_trans (b := [.fab, .router, .red]) rfl hL) (fun x => { x with acks := x.acks ++ [u.fab.nextTag] })
  obtain ⟨w, hw⟩ : ∃ w, w = v.modPerm c (fun x => { x with acks := x.acks ++ [u.fab.nextTag] }) := ⟨_, rfl⟩
  have heq : u.permWrite c dev (o, bs) = w.peerWrite hubFabric c dev o bs := by
    have hperm : v.permitted c bs.length dev o .write = true := (State.permitted_congr hto.obj).trans hok
    have htag : v.fab.nextTag = u.fab.nextTag := by rw [hv, State.nextTag_lookNote]
    unfold State.permWrite
    dsimp only
    rw [← hv, if_pos hperm, htag, ← hw]
  have hpeer : Runs [.fab, .router] w (w.peerWrite hubFabric c dev o bs) := State.peerWrite_runs ..
  rw [heq]
  refine ⟨State.PermTo.beside (hw ▸ hmod) hpeer (within_trans (b := [.fab, .router, .red]) rfl hL) (hpeer.same .red rfl)
    (hpeer.same .obj rfl), ?_⟩
  obtain ⟨q, hq⟩ : ∃ q, q = w.packet 2 c dev
    (({ fop := 0x11, pgen := w.ov protGenId % 256, bytes := bs.length, addr := o, tag := w.fab.nextTag } : ReqHdr).body ++ bs) := ⟨_, rfl⟩
  have hfop : q.field 0 8 = 0x11 := by
    rw [hq]
    exact ReqHdr.field_fop_append _ _
  have hvc : q.vc = 2 := by rw [hq]; rfl
  have hdest : q.dest = dev := by rw [hq]; rfl
  have hsent := w.tagNext.sent_capInject hubFabric q
  rw [hfop, hvc, hdest, hq] at hsent
  exact hsent

/-- A WRITE that the region table refuses writes nothing, and is noted. -/
theorem State.permWrite_refused (hvals : ValsOk u) (bs : List Byte) (hno : u.permitted c bs.length dev o .write = false) :
    bit ((u.permWrite c dev (o, bs)).ov fabStatusId) 0 = true ∧ (u.permWrite c dev (o, bs)).red = u.red ∧
      (u.permWrite c dev (o, bs)).router = u.router ∧ Runs [.fab, .obj] u (u.permWrite c dev (o, bs)) := by
  obtain ⟨v, hv⟩ : ∃ v, v = u.lookNote c bs.length dev o .write := ⟨_, rfl⟩
  have hlook : Runs [.fab] u v := hv ▸ State.lookNote_runs ..
  have hobj : v.obj = u.obj := hlook.same .obj rfl
  have heq : u.permWrite c dev (o, bs) = v.fabFlag 0 dev := by
    have hperm : ¬v.permitted c bs.length dev o .write = true := by
      rw [State.permitted_congr hobj, hno]
      decide
    unfold State.permWrite
    dsimp only
    rw [← hv, if_neg hperm]
  have hruns : Runs [.fab, .obj] u (v.fabFlag 0 dev) := Runs.comp (State.fabFlag_runs ..) rfl (hlook.mono rfl)
  rw [heq]
  refine ⟨State.bit_fabFlag (by rw [ValsOk, hobj]; exact hvals) 0 dev, hruns.same .red rfl, hruns.same .router rfl, hruns⟩

end

/-! The phases (R283). -/

section
variable {s : State} {c : Nat} {p : Packet} (hw : s.wf = true) (hpc : pCtx p = c)
include hw hpc

/-- A permute at the beginning of a stage. -/
def Perm.staged (x : Perm) (st : Nat) : Perm :=
  { x with st := st, own := false, told := false, replies := x.replies.filter (fun r => r.kind == 2 * st - 1) }

omit hpc in
theorem State.PermTo.stage (st : Nat) :
    State.PermTo [.router, .red] s ((s.taken p).permStage c st) c ((s.perm c).staged st) :=
  (State.PermTo.taken hw p c).mod rfl _

theorem State.phase1Go_begins (hok : s.permOk p [1] = true) :
    ((s.phase1Go p).perm c).st = 2 ∧ ((s.phase1Go p).perm c).own = false ∧ (s.phase1Go p).router = (s.taken p).router ∧
      Frame [.router, .red] s (s.phase1Go p) := by
  have heq : s.phase1Go p = (s.taken p).permStage c 2 := by
    unfold State.phase1Go
    dsimp only
    rw [if_pos hok, hpc]
  have hto := State.PermTo.stage hw (c := c) (p := p) 2
  rw [heq, hto.perm]
  exact ⟨rfl, rfl, rfl, hto.runs.frame⟩

/-- PHASE2_GO with one range within a block of 4 KiB. -/
theorem State.phase2Go_eq (hok : s.permOk p [2] = true) {src dst n : Nat} (hmoves : s.moves (s.perm c) = [(src, dst, n, true)])
    (hblock : gOff dst % 4096 + n ≤ 4096) :
    ∃ bs, bs.length = n ∧ s.phase2Go p = ((s.taken p).permStage c 3).permWrite c (gDev dst) (gOff dst, bs) := by
  have hto := State.PermTo.stage hw (c := c) (p := p) 3
  obtain ⟨t, ht⟩ : ∃ t, t = (s.taken p).permStage c 3 := ⟨_, rfl⟩
  rw [← ht] at hto
  have hmem : t.mem = s.mem := by rw [ht]; rfl
  obtain ⟨i, hi⟩ := State.moveEntry_of_moves hmoves
  obtain ⟨hdst, hn, hpos⟩ := State.moveEntry_valid hi
  have hmoves' : t.moves (t.perm c) = [(src, dst, n, true)] := by
    rw [hto.perm, State.moves_congr hmem (show ((s.perm c).staged 3).ctrl = (s.perm c).ctrl from rfl), hmoves]
  refine ⟨t.loadDev (t.perm c).stage n, State.length_loadDev .., ?_⟩
  unfold State.phase2Go
  dsimp only
  rw [if_pos hok, hpc, ← ht, hmoves', List.foldl_cons, List.foldl_nil]
  dsimp only
  rw [State.permStore, writePieces_whole (State.length_loadDev ..) hpos hn (gOff_mod hdst) hblock]
  rfl

theorem State.phase2Go_stores (hok : s.permOk p [2] = true) {src dst n : Nat} (hmoves : s.moves (s.perm c) = [(src, dst, n, true)])
    (hblock : gOff dst % 4096 + n ≤ 4096) (hacks : (s.perm c).acks = []) :
    (s.permitted c n (gDev dst) (gOff dst) .write = true →
        ((s.phase2Go p).perm c).st = 3 ∧ ((s.phase2Go p).perm c).own = false ∧ ((s.phase2Go p).perm c).acks = [s.fab.nextTag] ∧
        (s.phase2Go p).Sent 2 (gDev dst) 0x11 ∧ Frame [.fab, .router, .red] s (s.phase2Go p)) ∧
      (s.permitted c n (gDev dst) (gOff dst) .write = false →
        ((s.phase2Go p).perm c).st = 3 ∧ ((s.phase2Go p).perm c).own = false ∧ ((s.phase2Go p).perm c).acks = [] ∧
        bit ((s.phase2Go p).ov fabStatusId) 0 = true ∧ (s.phase2Go p).router = (s.taken p).router ∧
        Frame [.fab, .router, .red, .obj] s (s.phase2Go p)) := by
  obtain ⟨bs, hlen, heq⟩ := State.phase2Go_eq hw hpc hok hmoves hblock
  have hto := State.PermTo.stage hw (c := c) (p := p) 3
  obtain ⟨t, ht⟩ : ∃ t, t = (s.taken p).permStage c 3 := ⟨_, rfl⟩
  rw [← ht] at hto heq
  rw [heq, ← hlen]
  refine ⟨fun hyes => ?_, fun hno => ?_⟩
  · have hto' : State.PermTo [.fab, .router, .red] s t c ((s.perm c).staged 3) := ⟨hto.perm, hto.ok, hto.obj, hto.runs.mono rfl⟩
    obtain ⟨hwrite, hsent⟩ := hto'.write rfl bs hyes
    rw [hwrite.perm]
    refine ⟨rfl, rfl, ?_, hsent, hwrite.runs.frame⟩
    rw [show t.fab.nextTag = s.fab.nextTag by rw [ht]; rfl]
    exact congrArg (· ++ [s.fab.nextTag]) hacks
  · obtain ⟨hbit, hred, hrouter, hruns⟩ := State.permWrite_refused (u := t) (c := c) (dev := gDev dst) (o := gOff dst)
      (by rw [ValsOk, hto.obj]; exact State.keysFrom_vals hw) bs ((State.permitted_congr hto.obj).trans hno)
    have hperm : (t.permWrite c (gDev dst) (gOff dst, bs)).perm c = (s.perm c).staged 3 := by
      rw [State.perm, hred, ← hto.perm, State.perm]
    rw [hperm]
    refine ⟨rfl, rfl, hacks, hbit, ?_, (Runs.trans (hto.runs.mono rfl) (hruns.mono rfl) : Runs [.fab, .router, .red, .obj] s _).frame⟩
    rw [hrouter, ht]
    rfl

end

/-! The ends (R280, R283, R285). -/

section
variable {s u : State} {c : Nat}

/-- The end of a permute: GO is clear, and DONE_SIGNAL is applied. -/
theorem State.permEnd_ends (hok : twf .init u.red.perm = true) (st : Nat) :
    ((u.permEnd c st).perm c).st = st ∧ bits ((u.permEnd c st).perm c).ctrl 176 1 = 0 ∧ (u.permEnd c st).red.ctx = u.red.ctx ∧
      (u.permEnd c st).sync = (u.signalWord c (u.perm c).signal).sync ∧
      (∀ id, id ≠ syncStatusId → (u.permEnd c st).ov id = u.ov id) := by
  obtain ⟨v, hv⟩ : ∃ v, v = u.setPerm c { Perm.init with st := st, ctrl := setBits (u.perm c).ctrl 176 1 0 } := ⟨_, rfl⟩
  have heq : u.permEnd c st = v.signalWord c (u.perm c).signal := by rw [hv]; rfl
  have hred : (v.signalWord c (u.perm c).signal).red = v.red := (State.signalWord_runs ..).same .red rfl
  have hperm : (v.signalWord c (u.perm c).signal).perm c = { Perm.init with st := st, ctrl := setBits (u.perm c).ctrl 176 1 0 } := by
    rw [State.perm, hred, ← State.perm, hv]
    exact (State.perm_setPerm hok ..).trans (if_pos rfl)
  have hsync : SyncSame u v := by
    rw [hv]
    exact ⟨rfl, rfl⟩
  rw [heq, hperm]
  refine ⟨rfl, ?_, ?_, (hsync.signalWord c (u.perm c).signal).1, fun id hid => ?_⟩
  · exact bits_setBits_self ..
  · rw [hred, hv]
    rfl
  · rw [(signalClosed_ov hid).signalWord v c (u.perm c).signal, hv]
    rfl

/-- A new epoch takes effect. -/
theorem State.newEpoch_begins (hvals : ValsOk u) (hred : twf .init u.red.ctx = true) (e : Nat) :
    ((u.newEpoch c e).redc c).epoch = e ∧ ((u.newEpoch c e).redc c).sent = 0 ∧ ((u.newEpoch c e).redc c).received = 0 ∧
      (u.newEpoch c e).ov (layoutEpochId + c) = e ∧ (u.newEpoch c e).red.perm = u.red.perm ∧ SyncSame u (u.newEpoch c e) := by
  have hredc : (u.newEpoch c e).redc c = { u.redc c with epoch := e, sent := 0, received := 0, closed := [] } :=
    (State.redc_setRedc hred ..).trans (if_pos rfl)
  rw [hredc]
  refine ⟨rfl, rfl, rfl, ?_, rfl, rfl, rfl⟩
  exact (State.ov_setOv (s := u.modRedc c ({ · with epoch := e, sent := 0, received := 0, closed := [] })) hvals ..).trans (if_pos rfl)

end

section
variable {s : State} {c : Nat} {p : Packet} (hw : s.wf = true) (hc : c < 16)
include hw

section
variable (hpc : pCtx p = c)
include hpc

include hc in
/-- DONE (R283). -/
theorem State.permDone_ends (hok : s.permOk p [3] = true) :
    let t := s.permDone p
    (t.perm c).st = 4 ∧ bits (t.perm c).ctrl 176 1 = 0 ∧ (t.redc c).epoch = (s.perm c).epoch ∧ (t.redc c).sent = 0 ∧
      (t.redc c).received = 0 ∧ t.ov (layoutEpochId + c) = (s.perm c).epoch ∧ t.sync = (s.signalWord c (s.perm c).signal).sync ∧
      Frame [.sync, .fab, .router, .steps, .red, .obj] s t := by
  intro t
  obtain ⟨v, hv⟩ : ∃ v, v = s.taken p := ⟨_, rfl⟩
  have hto : State.PermTo [.router, .red] s v c (s.perm c) := hv ▸ .taken hw p c
  obtain ⟨w, hwv⟩ : ∃ w, w = v.newEpoch c (s.perm c).epoch := ⟨_, rfl⟩
  have heq : t = w.permEnd c 4 := by
    unfold t State.permDone
    dsimp only
    rw [if_pos hok, hpc, ← hv, hto.perm, hwv]
  obtain ⟨hepoch, hsent, hrecv, hov, hperms, hsame⟩ := State.newEpoch_begins (u := v) (c := c)
    (by rw [hv]; exact State.keysFrom_vals hw) (by rw [hv]; exact State.twf_redc hw) (s.perm c).epoch
  rw [← hwv] at hepoch hsent hrecv hov hperms hsame
  have hperm : w.perm c = s.perm c := by rw [State.perm, hperms, ← State.perm, hto.perm]
  obtain ⟨hst, hgo, hctx, hsync, hobj⟩ := State.permEnd_ends (u := w) (c := c) (by rw [hperms]; exact hto.ok) 4
  have hredc : (w.permEnd c 4).redc c = w.redc c := by rw [State.redc, hctx, State.redc]
  have hbegun : SyncSame s w := SyncSame.of_same rfl rfl rfl rfl ⟨by rw [hsame.1, hv]; rfl, by rw [hsame.2, hv]; rfl⟩
  rw [heq, hredc]
  refine ⟨hst, hgo, hepoch, hsent, hrecv, ?_, ?_, ?_⟩
  · have hne : layoutEpochId + c ≠ syncStatusId := by
      simp only [layoutEpochId, syncStatusId]
      omega
    rw [hobj _ hne, hov]
  · rw [hsync, hperm]
    exact (hbegun.signalWord c (s.perm c).signal).1
  · have hepochs : Runs [.red, .obj] v w := hwv ▸ State.newEpoch_runs ..
    exact (Runs.comp (State.permEnd_runs ..) rfl (Runs.trans (hto.runs.mono rfl) (hepochs.mono rfl))).frame

/-- FAILED (R285). -/
theorem State.permFailed_ends (hok : s.permOk p [1, 2, 3] = true) :
    let t := s.permFailed p
    (t.perm c).st = 5 ∧ (t.redc c).epoch = (if (s.perm c).st = 3 then (s.perm c).epoch else (s.redc c).epoch) ∧
      t.sync = (s.signalWord c (s.perm c).signal).sync ∧ Frame [.sync, .fab, .router, .steps, .red, .obj] s t := by
  intro t
  obtain ⟨v, hv⟩ : ∃ v, v = s.taken p := ⟨_, rfl⟩
  have hto : State.PermTo [.router, .red] s v c (s.perm c) := hv ▸ .taken hw p c
  obtain ⟨w, hwv⟩ : ∃ w, w = if (s.perm c).st = 3 then v.newEpoch c (s.perm c).epoch else v := ⟨_, rfl⟩
  have heq : t = w.permEnd c 5 := by
    unfold t State.permFailed
    dsimp only
    rw [if_pos hok, hpc, ← hv, hto.perm, hwv]
  have hw' : w.red.perm = v.red.perm ∧ SyncSame v w ∧ Runs [.red, .obj] v w ∧
      (w.redc c).epoch = (if (s.perm c).st = 3 then (s.perm c).epoch else (s.redc c).epoch) := by
    rw [hwv]
    split
    case isTrue =>
      obtain ⟨hepoch, -, -, -, hperms, hsame⟩ := State.newEpoch_begins (u := v) (c := c)
        (by rw [hv]; exact State.keysFrom_vals hw) (by rw [hv]; exact State.twf_redc hw) (s.perm c).epoch
      exact ⟨hperms, hsame, State.newEpoch_runs .., hepoch⟩
    case isFalse => exact ⟨rfl, ⟨rfl, rfl⟩, .refl v, by rw [hv]; rfl⟩
  obtain ⟨hperms, hsame, hruns, hepoch⟩ := hw'
  have hperm : w.perm c = s.perm c := by rw [State.perm, hperms, ← State.perm, hto.perm]
  obtain ⟨hst, -, hctx, hsync, -⟩ := State.permEnd_ends (u := w) (c := c) (by rw [hperms]; exact hto.ok) 5
  have hredc : (w.permEnd c 5).redc c = w.redc c := by rw [State.redc, hctx, State.redc]
  have hbegun : SyncSame s w := ⟨by rw [hsame.1, hv]; rfl, by rw [hsame.2, hv]; rfl⟩
  rw [heq, hredc]
  refine ⟨hst, hepoch, ?_, (Runs.comp (State.permEnd_runs ..) rfl (Runs.trans (hto.runs.mono rfl) (hruns.mono rfl))).frame⟩
  rw [hsync, hperm]
  exact (hbegun.signalWord c (s.perm c).signal).1

end

include hc

omit hw in
/-- The home decides FAILED. -/
theorem State.PermTo.fail {L : List Part} (hL : within [.router, .red] L = true) {u : State} {x : Perm} (h : State.PermTo L s u c x)
    (hfailed : x.failed = false) {reason : Nat} (hreason : reason < 256) :
    (u.permFail c reason).Permutes c 7 0 reason ∧ ((u.permFail c reason).perm c).failed = true ∧ Frame L s (u.permFail c reason) := by
  have heq : u.permFail c reason = (u.modPerm c ({ · with failed := true })).permDown c 7 0 reason := by
    unfold State.permFail
    rw [h.perm, if_neg (Bool.eq_false_iff.mp hfailed)]
  obtain ⟨hto, hpermutes⟩ := (h.mod (within_trans (b := [.router, .red]) rfl hL) ({ · with failed := true })).down (kind := 7)
    (round := 0) hc (within_trans (b := [.router, .red]) rfl hL) (by decide) (by decide) hreason
  rw [heq]
  exact ⟨hpermutes, congrArg Perm.failed hto.perm, hto.runs.frame⟩

theorem State.entryInvalid_fails (hpc : pCtx p = c) (hok : s.permOk p [1, 2, 3] = true) (hnext : s.lineNext c = none)
    (hfailed : (s.perm c).failed = false) :
    (s.entryInvalid p).Permutes c 7 0 (p.field 256 8) ∧ ((s.entryInvalid p).perm c).failed = true ∧
      Frame [.router, .red] s (s.entryInvalid p) := by
  have heq : s.entryInvalid p = (s.taken p).permFail c (p.field 256 8) := by
    unfold State.entryInvalid
    dsimp only
    rw [hpc, if_pos ⟨hok, hnext⟩]
  rw [heq]
  exact (State.PermTo.taken hw p c).fail hc rfl hfailed (Nat.mod_lt _ (by decide))

theorem State.permDeadline_fails (hbusy : (s.perm c).busy = true) (hnext : s.lineNext c = none) (hfailed : (s.perm c).failed = false)
    (hasked : (s.perm c).st = 1 → (s.perm c).askedAt ≠ none) (hdue : (s.perm c).stageAt + s.ov reduceDeadlineId * 1000 ≤ s.ftRead hubPs) :
    (s.permDeadline c).Permutes c 7 0 2 ∧ ((s.permDeadline c).perm c).failed = true ∧ Frame [.router, .red] s (s.permDeadline c) := by
  have hstart : State.PermTo [.router, .red] s s c (s.perm c) := .start hw (.refl s) rfl rfl c
  have heq : s.permDeadline c = s.permFail c 2 := by
    unfold State.permDeadline
    dsimp only
    refine if_pos ⟨hbusy, hnext, ?_, hdue⟩
    by_cases h1 : (s.perm c).st = 1
    · exact .inr (hasked h1)
    · exact .inl h1
  rw [heq]
  exact hstart.fail hc rfl hfailed (by decide)

/-- An invalid entry is reported straight to the home. -/
theorem State.phase1Copy_refuses (hst : (s.perm c).st = 2) (hown : (s.perm c).own = false)
    (hbad : (s.moves (s.perm c)).any (fun m => !m.2.2.2) = true) :
    (s.phase1Copy c).Permutes c 8 0 1 ∧ (s.phase1Copy c).Sent 0 (s.home c) 0x64 ∧ Frame [.router, .red] s (s.phase1Copy c) := by
  have hstart : State.PermTo [.router, .red] s s c (s.perm c) := .start hw (.refl s) rfl rfl c
  have hto := hstart.set rfl { s.perm c with own := true, told := true }
  have hinvalid : ¬(s.moves (s.perm c)).all (fun m => m.2.2.2) = true := by
    obtain ⟨m, hm, hbad⟩ := List.any_eq_true.mp hbad
    intro hall
    rw [List.all_eq_true.mp hall m hm] at hbad
    cases hbad
  have heq : s.phase1Copy c = (s.setPerm c { s.perm c with own := true, told := true }).send hubSelf 0 c (s.home c)
      (permBody 8 c 0 (s.perm c).epoch 0 0 0 0 1) := by
    unfold State.phase1Copy
    dsimp only
    rw [if_neg (by rw [hst, hown]; decide), if_neg hinvalid]
  rw [heq]
  refine ⟨State.permutes_inject (count := 0) (pend := 0) (sent := 0) (recv := 0) hc (by decide) (by decide) (by decide) rfl rfl ?_,
    State.sent_send _ _ _ _ _ (permBody_fop ..), (hto.inject rfl hubSelf _).runs.frame⟩
  rw [hto.perm]
  rfl

/-- The copies of phase 1, one range. -/
theorem State.phase1Copy_copies (hst : (s.perm c).st = 2) (hown : (s.perm c).own = false) {src dst n : Nat}
    (hmoves : s.moves (s.perm c) = [(src, dst, n, true)]) :
    let t := s.phase1Copy c
    (t.perm c).own = true ∧
      (s.anyUnmapped (s.perm c).stage n = false → ∀ i b, (s.loadDev src n)[i]? = some b → t.memByte ((s.perm c).stage + i) = b) ∧
      (∀ d, s.linePrev c = [] → s.lineNext c = some d → (s.perm c).told = false → t.Permutes c 3 0 0 ∧ t.Sent 0 d 0x64) ∧
      Frame [.mem, .router, .red] s t := by
  intro t
  obtain ⟨v, hv⟩ : ∃ v, v = s.storeDev (s.perm c).stage (s.loadDev src n) := ⟨_, rfl⟩
  have hstore : Runs [.mem] s v := hv ▸ State.storeDev_runs ..
  have hred : v.red = s.red := hstore.same .red rfl
  have hto : State.PermTo [.mem, .router, .red] s v c (s.perm c) :=
    .start hw (hstore.mono rfl) (congrArg Red.perm hred) (hstore.same .obj rfl) c
  have heq : t = v.permOwn c := by
    unfold t State.phase1Copy
    dsimp only
    rw [if_neg (by rw [hst, hown]; decide), hmoves, if_pos (show [(src, dst, n, true)].all (fun m => m.2.2.2) = true from rfl), hv]
    rfl
  obtain ⟨y, hy, hyown, -⟩ := hto.own rfl
  rw [heq]
  refine ⟨(congrArg Perm.own hy.perm).trans hyown, fun hmap i b hb => ?_, fun d hprev hnext htold => ?_, hy.runs.frame⟩
  · have hmem : (v.permOwn c).mem = v.mem := (State.permOwn_runs ..).same .mem rfl
    rw [State.memByte, hmem, ← State.memByte, hv]
    refine State.memByte_storeDev_inside hw ?_ hb
    rwa [State.length_loadDev]
  · have hawaits : (s.perm c).awaits = 3 := by rw [Perm.awaits, hst]
    have hround : (s.perm c).awaitsRound = 0 := by rw [Perm.awaitsRound, hst]; rfl
    have hsends := hto.own_sends hc rfl htold hprev (by rw [hawaits]; decide) (by rw [hround]; decide) hnext
    rwa [hawaits, hround] at hsends

/-- The stores of phase 2 are acknowledged. -/
theorem State.phase2Acked_reports (hst : (s.perm c).st = 3) (hown : (s.perm c).own = false) (hacks : (s.perm c).acks = []) :
    let t := s.phase2Acked c
    (t.redc c).epoch = (s.perm c).epoch ∧ (t.perm c).own = true ∧
      (∀ d, s.linePrev c = [] → s.lineNext c = some d → (s.perm c).told = false → t.Permutes c 5 0 0 ∧ t.Sent 0 d 0x64) ∧
      Frame [.router, .red] s t := by
  intro t
  obtain ⟨v, hv⟩ : ∃ v, v = s.modRedc c ({ · with epoch := (s.perm c).epoch }) := ⟨_, rfl⟩
  have hto : State.PermTo [.router, .red] s v c (s.perm c) := by
    rw [hv]
    exact .start hw ((State.modRedc_runs ..).mono rfl) rfl rfl c
  have heq : t = v.permOwn c := by
    unfold t State.phase2Acked
    dsimp only
    rw [if_neg (by rw [hst, hown, hacks]; decide), hv]
  obtain ⟨y, hy, hyown, -⟩ := hto.own rfl
  rw [heq]
  refine ⟨?_, (congrArg Perm.own hy.perm).trans hyown, fun d hprev hnext htold => ?_, hy.runs.frame⟩
  · have hredc : v.redc c = { s.redc c with epoch := (s.perm c).epoch } := by
      rw [hv]
      exact (State.redc_setRedc (State.twf_redc hw) ..).trans (if_pos rfl)
    rw [State.redc, State.permOwn_redc, ← State.redc, hredc]
  · have hawaits : (s.perm c).awaits = 5 := by rw [Perm.awaits, hst]
    have hround : (s.perm c).awaitsRound = 0 := by rw [Perm.awaitsRound, hst]; rfl
    have hsends := hto.own_sends hc rfl htold hprev (by rw [hawaits]; decide) (by rw [hround]; decide) hnext
    rwa [hawaits, hround] at hsends

end

/-! O51. -/

section
variable {s : State} {c : Nat} {p : Packet} (hw : s.wf = true) (hc : c < 16) (hrails : s.power.rails = true) (hp : p.wf = true)
  (hpc : pCtx p = c)
include hw hc hrails hp hpc

/-- The replies of a stage, from the one module beyond. -/
theorem exec_replies_combine {q : Instr × Nat} (hq : q ∈ [(Instr.permuteCount p, 1), (.phase1Done p, 2), (.phase2Done p, 3)])
    {r0 : PermReply} (hkind : p.field 8 4 + 1 = 2 * q.2) (hok : s.permOk p [q.2] = true) (hown : (s.perm c).own = true)
    (htold : (s.perm c).told = false) (hreplies : (s.perm c).replies = [r0]) (hmine : r0.src = s.me)
    (hawaits : r0.kind = (s.perm c).awaits) (hr0 : r0.round = p.field 16 16)
    (hround : p.field 16 16 = (if q.2 = 1 then (s.perm c).round else 0)) (hsrc : p.src ≠ s.me) (hprev : s.linePrev c = [p.src])
    (hcount : 0 < p.field 48 16) :
    (∀ d, s.lineNext c = some d →
        ∃ t, exec q.1 s = .next t ∧ t.Permutes c (s.perm c).awaits (p.field 16 16) 0 ∧ t.Sent 0 d 0x64 ∧ (t.perm c).told = true ∧
          Frame [.router, .red] s t) ∧
      (s.lineNext c = none → r0.count + p.field 48 16 = s.blockSize c → (s.perm c).failed = false →
        (q.2 = 1 → r0.pend + p.field 64 64 = 0 ∧ r0.sent + p.field 128 64 = r0.recv + p.field 192 64 ∧
          (s.perm c).lastSums = some (r0.sent + p.field 128 64, r0.recv + p.field 192 64)) →
        ∃ t, exec q.1 s = .next t ∧ t.Permutes c (2 * q.2) 0 0 ∧ (t.perm c).told = true ∧ Frame [.router, .red] s t) := by
  have hst : (s.perm c).st = q.2 := by
    have hmem := (State.permOk_src hok).2
    rw [hpc] at hmem
    exact List.mem_singleton.mp hmem
  have hrange : q.2 ∈ [1, 2, 3] := by
    simp only [List.mem_cons, List.not_mem_nil, or_false] at hq
    obtain rfl | rfl | rfl := hq <;> simp
  have hexec : exec q.1 s = .next (s.permReplied p (p.field 8 4)) := by
    simp only [List.mem_cons, List.not_mem_nil, or_false] at hq
    obtain rfl | rfl | rfl := hq
    · have hk : p.field 8 4 = 1 := by omega
      rw [hk]
      exact exec_permMsg_acts (q := ((.permuteCount p, 1), fun p => State.permReplied p 1)) hp hrails (by simp [State.permActs]) hk
    · have hk : p.field 8 4 = 3 := by omega
      rw [hk]
      exact exec_permMsg_acts (q := ((.phase1Done p, 3), fun p => State.permReplied p 3)) hp hrails (by simp [State.permActs]) hk
    · have hk : p.field 8 4 = 5 := by omega
      rw [hk]
      exact exec_permMsg_acts (q := ((.phase2Done p, 5), fun p => State.permReplied p 5)) hp hrails (by simp [State.permActs]) hk
  have haround : (s.perm c).awaitsRound = p.field 16 16 := by rw [Perm.awaitsRound, hst, hround]
  have hlast : s.LastReply c (s.perm c) r0 (permReplyOf p (p.field 8 4)) := {
    own := hown
    told := htold
    replies := hreplies
    mine := hmine
    kind := ⟨hawaits, by rw [Perm.awaits, hst]; exact (by omega : p.field 8 4 = 2 * q.2 - 1)⟩
    round := ⟨hr0.trans haround.symm, haround.symm⟩
    src := hsrc
    prev := hprev }
  have hoks := State.permOk_mono hok (ys := [1, 2, 3]) fun i hi => (List.mem_singleton.mp hi) ▸ hrange
  refine ⟨fun d hnext => ⟨_, hexec, ?_⟩, fun hnext hsize hfailed hdrained => ⟨_, hexec, ?_⟩⟩
  · rw [← haround]
    exact State.permReplied_sends hw hc hpc hoks hlast (by rw [haround]; exact Nat.mod_lt _ (by decide)) hnext
  · rw [← hst] at hdrained ⊢
    exact State.permReplied_decides hw hc hpc hoks hlast hnext
      ((congrArg (r0.count + ·) (if_neg (Nat.pos_iff_ne_zero.mp hcount))).trans hsize) hfailed hdrained

end

/-- Settles O51: each message and each timer acts on the context's permute, and every message it sends enters the router at the
hub. -/
theorem permutesRunInTwoPhases : Obligations.PermutesRunInTwoPhases := by
  intro s c hw hc x last
  have hctx : ctxOk c = true := decide_eq_true hc
  refine ⟨fun hst hnext hin hdue => ⟨_, need_of hctx _, State.permRound_asks hw hc hst hnext hin hdue⟩, fun p hp q hq => ?_,
    fun p hrails hp hpc => ⟨fun d hk hok hlast hnext => ?_, fun hk hin hbusy => ?_, ?_, fun hk hok => ?_, ?_, fun hk hok => ?_,
      fun hk hok => ?_, fun hk hok hnext hfailed => ?_⟩,
    fun src dst n hst hown hmoves => ⟨_, need_of hctx _, State.phase1Copy_copies hw hc hst hown hmoves⟩,
    fun hst hown hbad => ⟨_, need_of hctx _, State.phase1Copy_refuses hw hc hst hown hbad⟩,
    fun hst hown hacks => ⟨_, need_of hctx _, State.phase2Acked_reports hw hc hst hown hacks⟩,
    fun hbusy hnext hfailed hasked hdue => ⟨_, need_of hctx _, State.permDeadline_fails hw hc hbusy hnext hfailed hasked hdue⟩⟩
  · have hacts : ∃ r ∈ State.permActs p, r.1 = q := List.mem_map.mp (show q ∈ (State.permActs p).map (·.1) from hq)
    obtain ⟨r, hr, rfl⟩ := hacts
    exact exec_permMsg_idle hp hr
  · exact ⟨_, exec_permMsg_acts (q := ((.countReq p, 0), State.countReq)) hp hrails (by simp [State.permActs]) hk,
      State.countReq_answers hw hc hpc hok hlast hnext⟩
  · exact ⟨_, exec_permMsg_acts (q := ((.countReq p, 0), State.countReq)) hp hrails (by simp [State.permActs]) hk,
      State.countReq_holds hw hpc (hpc ▸ hin) hbusy⟩
  · intro q hq r0 hkind hok hown htold hreplies hmine hawaits hr0 hround hsrc hprev hcount
    exact exec_replies_combine hw hc hrails hp hpc hq hkind hok hown htold hreplies hmine hawaits hr0 hround hsrc hprev hcount
  · exact ⟨_, exec_permMsg_acts (q := ((.phase1Go p, 2), State.phase1Go)) hp hrails (by simp [State.permActs]) hk,
      State.phase1Go_begins hw hpc hok⟩
  · intro src dst n hk hok hmoves hblock hacks
    have hexec := exec_permMsg_acts (s := s) (q := ((.phase2Go p, 4), State.phase2Go)) hp hrails (by simp [State.permActs]) hk
    obtain ⟨hyes, hno⟩ := State.phase2Go_stores hw hpc hok hmoves hblock hacks
    exact ⟨fun h => ⟨_, hexec, hyes h⟩, fun h => ⟨_, hexec, hno h⟩⟩
  · exact ⟨_, exec_permMsg_acts (q := ((.permuteDone p, 6), State.permDone)) hp hrails (by simp [State.permActs]) hk,
      State.permDone_ends hw hc hpc hok⟩
  · exact ⟨_, exec_permMsg_acts (q := ((.permuteFailed p, 7), State.permFailed)) hp hrails (by simp [State.permActs]) hk,
      State.permFailed_ends hw hpc hok⟩
  · exact ⟨_, exec_permMsg_acts (q := ((.entryInvalid p, 8), State.entryInvalid)) hp hrails (by simp [State.permActs]) hk,
      State.entryInvalid_fails hw hc hpc hok hnext hfailed⟩

end Sys2Proof.Machine
end


-- ==== Sys2Proof/Proofs/Refusals.lean ====
section
/-!
PROOF. A tile that ends with a failing status: its record, and the failure of its step (R108, R121, R124, R254).
-/

namespace Sys2Proof.Machine

/-! A step that has failed stays failed whatever is signalled. -/

/-- From `s` to `t` a step that has failed stays failed. -/
def FailKept (s t : State) : Prop :=
  StepsOk s → StepsOk t ∧ ∀ c r, (s.stp c).latch = some r → ∃ r', (t.stp c).latch = some r'

theorem FailKept.refl (s : State) : FailKept s s := fun h => ⟨h, fun _ r hr => ⟨r, hr⟩⟩

theorem FailKept.trans {s t u : State} (h : FailKept s t) (k : FailKept t u) : FailKept s u := fun hs => by
  obtain ⟨ht, hst⟩ := h hs
  obtain ⟨hu, htu⟩ := k ht
  exact ⟨hu, fun c r hr => (hst c r hr).elim fun r' hr' => htu c r' hr'⟩

theorem FailKept.of_steps {s t : State} (h : t.steps = s.steps) : FailKept s t := fun hs =>
  ⟨by rwa [StepsOk, h], fun c r hr => ⟨r, by rwa [State.stp_congr h]⟩⟩

theorem FailKept.modStp (s : State) (c : Nat) {f : StepCtx → StepCtx} (h : ∀ x r, x.latch = some r → ∃ r', (f x).latch = some r') :
    FailKept s (s.modStp c f) := fun hs => by
  refine ⟨twf_tset _ _ _ hs, fun d r hr => ?_⟩
  rw [State.modStp, State.stp_setStp hs]
  split
  case isTrue hd =>
    subst hd
    exact h _ r hr
  case isFalse => exact ⟨r, hr⟩

theorem FailKept.failVote (s : State) (c r : Nat) : FailKept s (s.failVote c r) := by
  unfold State.failVote
  dsimp only
  split
  · exact .refl s
  · refine FailKept.trans (t := s.send hubSelf 0 c (s.home c) (commitBody 0x60 1 c (s.stp c).step (s.stp c).attempt r 0))
      (.of_steps rfl) (FailKept.modStp _ _ ?_)
    exact fun _ r hr => ⟨r, hr⟩

theorem FailKept.latch (s : State) (c r : Nat) : FailKept s (s.latch c r) := by
  unfold State.latch
  dsimp only
  split
  case isFalse => exact .refl s
  case isTrue =>
    split
    · refine FailKept.trans (FailKept.modStp _ _ ?_) (FailKept.failVote _ _ _)
      exact fun _ _ _ => ⟨_, rfl⟩
    · refine FailKept.trans (FailKept.modStp _ _ ?_) (FailKept.failVote _ _ _)
      exact fun _ r hr => ⟨r, hr⟩
    · refine FailKept.modStp _ _ ?_
      exact fun _ _ _ => ⟨_, rfl⟩
    · exact .refl s

theorem signalClosed_failKept : SignalClosed FailKept where
  refl := .refl
  trans := .trans
  setCtr _ _ _ := .of_steps rfl
  syncFlag _ _ _ := .of_steps rfl
  latch := .latch
  inject _ _ _ := .of_steps rfl
  capInject s port p := .of_steps ((s.capInject_runs port p).same .steps rfl)

/-- A step that is latched where it stands as it stood. -/
theorem Failed.latch_of {s u : State} {c : Nat} (hok : StepsOk u) (hst : u.steps = s.steps) (hon : s.stepsOn c = true → u.stepsOn c = true)
    (r : Nat) : s.Failed (u.latch c r) c := by
  intro honc hrun
  obtain ⟨⟨b, hb⟩, -⟩ := State.stp_latch hok (hon honc) ((congrArg StepCtx.st (State.stp_congr hst c)).trans hrun) r
  exact ⟨_, congrArg StepCtx.latch hb⟩

/-! The record (R121). -/

theorem getElem?_toLE_zero (n v : Nat) : (toLE (n + 1) v)[0]? = some (BitVec.ofNat 8 v) := rfl

theorem Cpl.getElem?_bytes_status (c : Cpl) (now : Nat) : (c.bytes now)[4]? = some (BitVec.ofNat 8 c.status) := by
  obtain ⟨v, hv, hmod⟩ : ∃ v, v = c.status + c.core * 2 ^ 8 + c.ctx * 2 ^ 16 + ofBool c.sparse * 2 ^ 20 + ofBool c.substituted * 2 ^ 21 +
      ofBool c.longChain * 2 ^ 22 + ofBool c.reissued * 2 ^ 23 + c.flags.toNat * 2 ^ 24 ∧ v % 2 ^ 8 = c.status % 2 ^ 8 :=
    ⟨_, rfl, by omega⟩
  have hbyte : BitVec.ofNat 8 v = BitVec.ofNat 8 c.status := BitVec.eq_of_toNat_eq (by simpa using hmod)
  unfold Cpl.bytes
  rw [← hv]
  simp only [List.append_assoc]
  rw [List.getElem?_append_right (by rw [length_toLE]), length_toLE,
    List.getElem?_append_left (by rw [length_toLE]; decide), ← hbyte]
  exact getElem?_toLE_zero 3 v

theorem Cpl.length_bytes (c : Cpl) (now : Nat) : (c.bytes now).length = 32 := by
  unfold Cpl.bytes
  simp only [List.length_append, length_toLE]

section
variable {s : State} {ctx : Nat} {bs : List Byte}

/-- A record for which its ring has room: it is written at the tail, which moves. -/
theorem State.cplWrite_room (hpages : PagesOk s)
    (hroom : ((s.page ctx).cplTail + 1) % s.ov (cplRingEntriesId + ctx) ≠ (s.page ctx).cplHead) :
    ((s.cplWrite ctx bs).page ctx).cplTail = ((s.page ctx).cplTail + 1) % s.ov (cplRingEntriesId + ctx) ∧
      (s.cplWrite ctx bs).mem = (s.storeDev (s.ov (cplRingBaseId + ctx) + 32 * (s.page ctx).cplTail) bs).mem := by
  obtain ⟨u, hu⟩ : ∃ u, u = s.storeDev (s.ov (cplRingBaseId + ctx) + 32 * (s.page ctx).cplTail) bs := ⟨_, rfl⟩
  have hhost : u.host = s.host := by
    rw [hu]
    exact (State.storeDev_runs ..).same .host rfl
  obtain ⟨v, hv⟩ : ∃ v, v = u.modPage ctx (fun q => { q with cplTail := ((s.page ctx).cplTail + 1) % s.ov (cplRingEntriesId + ctx) }) :=
    ⟨_, rfl⟩
  have heq : s.cplWrite ctx bs = if ctx < 15 then v.interrupt ctx 1 else v := by
    unfold State.cplWrite
    dsimp only
    rw [if_neg hroom, ← hu, ← hv]
  have huok : PagesOk u := by
    rw [PagesOk, hhost]
    exact hpages
  have hvok : PagesOk v := hv ▸ huok.setPage _ _
  have htail : (v.page ctx).cplTail = ((s.page ctx).cplTail + 1) % s.ov (cplRingEntriesId + ctx) := by
    rw [hv, State.page_modPage huok, if_pos rfl]
  rw [heq, ← hu]
  split
  · refine ⟨?_, ?_⟩
    · rw [State.page_interrupt hvok, if_pos rfl]
      exact htail
    · have hmem : (v.interrupt ctx 1).mem = v.mem := (State.interrupt_runs ..).same .mem rfl
      rw [hmem, hv]
      rfl
  · exact ⟨htail, by rw [hv]; rfl⟩

/-- Objects but the count of lost records of the context. -/
theorem State.ov_cplWrite {id : Nat} (h : cplStatusId + ctx ≠ id) : (s.cplWrite ctx bs).ov id = s.ov id := by
  unfold State.cplWrite
  dsimp only
  split
  · exact State.ov_setOv_of_ne s _ h
  · have hobj (u : State) : (if ctx < 15 then u.interrupt ctx 1 else u).obj = u.obj := by
      split
      · exact (State.interrupt_runs ..).same .obj rfl
      · rfl
    refine (State.ov_congr (hobj _) id).trans (State.ov_congr ?_ id)
    exact (State.storeDev_runs s _ bs).same .obj rfl

end

/-! A tile that ends with a failing status. -/

theorem failing_of_le {st : Nat} (h : 0x10 ≤ st) : failing st = true := by
  unfold failing
  rw [Bool.and_eq_true, bne_iff_ne, bne_iff_ne]
  simp only [stOk, stEmpty]
  omega

section
variable {s : State} {c : Cpl} (hst : 0x10 ≤ c.status) (hfl : c.flags = 0)
include hst hfl

/-- Its record is written or counted as lost, its step fails, and it signals. -/
theorem State.finish_failing : s.finish c =
    ((((s.cplWrite c.ctx (c.bytes (s.ftRead hubPs))).latch c.ctx 1).signalWord c.ctx (dSignal c.desc 0)).signalWord c.ctx
      (dSignal c.desc 1)) := by
  have hne : c.status ≠ stOk ∨ dCplAlways c.desc = true := .inl (by simp only [stOk]; omega)
  unfold State.finish
  rw [if_pos hne]
  dsimp only
  rw [if_pos hfl, if_pos (failing_of_le hst)]

theorem State.finish_fails (hok : StepsOk s) : s.Failed (s.finish c) c.ctx := by
  obtain ⟨w, hw⟩ : ∃ w, w = s.cplWrite c.ctx (c.bytes (s.ftRead hubPs)) := ⟨_, rfl⟩
  have hsteps : w.steps = s.steps := by
    rw [hw]
    exact (State.cplWrite_runs ..).same .steps rfl
  have hwok : StepsOk w := by rwa [StepsOk, hsteps]
  have hon : w.stepsOn c.ctx = s.stepsOn c.ctx := by
    rw [State.stepsOn, hw, State.ov_cplWrite (by simp only [cplStatusId, stepCfgId]; omega)]
    rfl
  intro honc hrun
  obtain ⟨r, hr⟩ := Failed.latch_of hwok hsteps (fun h => hon.trans h) 1 honc hrun
  rw [State.finish_failing hst hfl, ← hw]
  have hkept := (signalClosed_failKept.signalWord (w.latch c.ctx 1) c.ctx (dSignal c.desc 0)).trans
    (signalClosed_failKept.signalWord _ c.ctx (dSignal c.desc 1))
  exact (hkept ((FailKept.latch w c.ctx 1) hwok).1).2 _ r hr

theorem State.finish_records (hw : s.wf = true)
    (hroom : ((s.page c.ctx).cplTail + 1) % s.ov (cplRingEntriesId + c.ctx) ≠ (s.page c.ctx).cplHead) :
    ((s.finish c).page c.ctx).cplTail = ((s.page c.ctx).cplTail + 1) % s.ov (cplRingEntriesId + c.ctx) ∧
      (s.anyUnmapped (s.ov (cplRingBaseId + c.ctx) + 32 * (s.page c.ctx).cplTail) 32 = false →
        (s.finish c).memByte (s.ov (cplRingBaseId + c.ctx) + 32 * (s.page c.ctx).cplTail + 4) = BitVec.ofNat 8 c.status) := by
  obtain ⟨w, hwe⟩ : ∃ w, w = s.cplWrite c.ctx (c.bytes (s.ftRead hubPs)) := ⟨_, rfl⟩
  obtain ⟨htail, hmem⟩ := State.cplWrite_room (bs := c.bytes (s.ftRead hubPs)) (State.twf_pages hw) hroom
  rw [← hwe] at htail hmem
  have hruns : Runs [.sync, .fab, .router, .steps, .obj] w (s.finish c) := by
    rw [State.finish_failing hst hfl, ← hwe]
    exact Runs.comp (State.signalWord_runs ..) rfl (Runs.comp (State.signalWord_runs ..) rfl ((State.latch_runs ..).mono rfl))
  have hhost : (s.finish c).host = w.host := hruns.same .host rfl
  have hmemw : (s.finish c).mem = w.mem := hruns.same .mem rfl
  refine ⟨?_, fun hmap => ?_⟩
  · rw [State.page_congr hhost]
    exact htail
  · rw [State.memByte, hmemw, hmem, ← State.memByte]
    refine State.memByte_storeDev_inside hw ?_ (Cpl.getElem?_bytes_status c _)
    rwa [Cpl.length_bytes]

end

/-! The statuses of a refusal (R494). -/

theorem State.tensCheck_status (s : State) (core ctx : Nat) (d : WorkDesc) (a : Nat) (role : Role) :
    s.tensCheck core ctx d a role = 0 ∨ 0x10 ≤ s.tensCheck core ctx d a role := by
  unfold State.tensCheck
  dsimp only
  split
  · exact .inr (by decide)
  · split
    · exact .inr (by decide)
    · split
      · exact .inr (by decide)
      · split
        · exact .inr (by decide)
        · split
          · exact .inr (by decide)
          · exact .inl rfl

theorem State.tensChecks_status (s : State) (core ctx : Nat) (d : WorkDesc) (xs : List (Nat × Role)) :
    s.tensChecks core ctx d xs = 0 ∨ 0x10 ≤ s.tensChecks core ctx d xs := by
  induction xs with
  | nil => exact .inl rfl
  | cons x xs ih =>
    obtain ⟨i, role⟩ := x
    have hone : ∀ r, (r = 0 ∨ 0x10 ≤ r) →
        (if r ≠ 0 then r else s.tensChecks core ctx d xs) = 0 ∨ 0x10 ≤ (if r ≠ 0 then r else s.tensChecks core ctx d xs) := by
      intro r hr
      split
      · exact hr
      · exact ih
    refine hone _ ?_
    split
    · exact .inl rfl
    · exact s.tensCheck_status core ctx d _ role

theorem State.refusal17_status (s : State) (core : Nat) (e : Entry) : s.refusal17 core e = 0 ∨ 0x10 ≤ s.refusal17 core e := by
  have hchecks := s.tensChecks_status core e.ctx e.desc (s.tensWords e.ctx e.desc)
  unfold State.refusal17
  dsimp only
  split
  · exact .inr (by decide)
  · split
    · exact .inr (by decide)
    · split
      · exact .inr (by decide)
      · split
        · exact .inr (by decide)
        · split
          · exact .inr (by decide)
          · split
            · exact hchecks
            · split
              · split
                · exact .inr (by decide)
                · split
                  · exact .inr (by decide)
                  · exact .inl rfl
              · exact .inl rfl

end Sys2Proof.Machine
end


-- ==== Sys2Proof/Proofs/ListMoves.lean ====
section
/-!
PROOF. The entries of the lists: posting, the overflow list, and the chain tiles that no core can take (R101, R109 to R111).
-/

namespace Sys2Proof.Machine

/-! Entries of the die lists. -/

section
variable {s : State} (h : twf [] s.sched.lists = true)
include h

theorem State.dieList_unlist (e : Entry) (d : Nat) :
    (s.unlist e).dieList d = if d = e.die then (s.dieList e.die).filter (fun x => x.seq != e.seq) else s.dieList d :=
  State.dieList_setDieList h _ _ _

theorem State.seq_unlist {e y : Entry} (hy : y ∈ (s.unlist e).dieList e.die) : y.seq ≠ e.seq := by
  rw [State.dieList_unlist h, if_pos rfl] at hy
  exact bne_iff_ne.mp (List.mem_filter.mp hy).2

end

/-! The overflow list (R111). -/

theorem State.overflowMove_moves {s : State} (h : twf [] s.sched.lists = true) {d : Nat} {e : Entry}
    (he : (s.sched.overflow.filter (fun y => y.die == d)).head? = some e) (hroom : (s.dieList d).length < 4096) :
    let t := s.overflowMove d
    t.dieList d = insertEntry e (s.dieList d) ∧ t.sched.overflow = s.sched.overflow.filter (fun y => y.seq != e.seq) ∧
      (∀ k, k ≠ d → t.dieList k = s.dieList k) ∧ Frame [.sched] s t := by
  intro t
  obtain ⟨u, hu⟩ : ∃ u, u = s.setSched { s.sched with overflow := s.sched.overflow.filter (fun x => x.seq != e.seq) } := ⟨_, rfl⟩
  have heq : t = u.enlist e := by
    unfold t State.overflowMove
    rw [he]
    dsimp only
    rw [if_pos hroom, hu]
    rfl
  have hdie : e.die = d := beq_iff_eq.mp (List.mem_filter.mp (List.mem_of_mem_head? he)).2
  have huok : twf [] u.sched.lists = true := by rw [hu]; exact h
  have hlist (k : Nat) : u.dieList k = s.dieList k := by rw [hu]; rfl
  have hruns : Runs [.sched] s t := State.overflowMove_runs ..
  refine ⟨?_, ?_, fun k hk => ?_, hruns.frame⟩
  · rw [heq, State.dieList_enlist huok, hdie, if_pos rfl, hlist]
  · rw [heq, hu]
    rfl
  · rw [heq, State.dieList_enlist huok, hdie, if_neg hk, hlist]

/-! A chain tile whose chain no core holds (R101). -/

theorem State.chainMissing_ends {s : State} (hw : s.wf = true) {d : Nat} {e : Entry} (he : s.missing d = some e) (hdie : e.die = d) :
    let v := (s.unlist e).takeWaits e
    let st := if v.refusal17 (64 * d) e = 0 then stMissing else v.refusal17 (64 * d) e
    let q := s.page e.ctx
    let a := s.ov (cplRingBaseId + e.ctx) + 32 * q.cplTail
    let p := (q.cplTail + 1) % s.ov (cplRingEntriesId + e.ctx)
    let t := s.chainMissing d
    (∀ y ∈ t.dieList d, y.seq ≠ e.seq) ∧ (∀ k, k ≠ d → t.dieList k = s.dieList k) ∧ s.Failed t e.ctx ∧
      (p ≠ q.cplHead → (t.page e.ctx).cplTail = p ∧ (s.anyUnmapped a 32 = false → t.memByte (a + 4) = BitVec.ofNat 8 st)) ∧
      Frame [.sched, .sync, .mem, .fab, .router, .host, .steps, .obj, .out] s t := by
  intro v st q a p t
  have hst : 0x10 ≤ st := by
    obtain h0 | h10 := v.refusal17_status (64 * d) e
    · have hmiss : st = stMissing := if_pos h0
      rw [hmiss]
      decide
    · have hsame : st = v.refusal17 (64 * d) e := if_neg (by omega)
      rw [hsame]
      exact h10
  have heq : t = v.finish (cplOf e 0 st 0 (v.ftRead hubPs)) := by
    unfold t State.chainMissing
    rw [he]
  have htaken : Runs [.sched, .sync] s v :=
    Runs.comp (State.takeWaits_runs ..) rfl ((State.unlist_runs s e).mono rfl)
  have hfin : Runs [.sync, .mem, .fab, .router, .host, .steps, .obj, .out] v t := heq ▸ State.finish_runs ..
  have hlists (k : Nat) : t.dieList k = (s.unlist e).dieList k := by
    have h1 : t.sched = v.sched := hfin.same .sched rfl
    have h2 : v.sched = (s.unlist e).sched := (State.takeWaits_runs ..).same .sched rfl
    exact State.dieList_congr (h1.trans h2) k
  have hsteps : v.steps = s.steps := htaken.same .steps rfl
  have hhost : v.host = s.host := htaken.same .host rfl
  have hobj : v.obj = s.obj := htaken.same .obj rfl
  have hmem : v.mem = s.mem := htaken.same .mem rfl
  refine ⟨fun y hy => ?_, fun k hk => ?_, ?_, fun hp => ?_, (State.chainMissing_runs d s).frame⟩
  · rw [hlists, ← hdie] at hy
    exact State.seq_unlist (State.twf_lists hw) hy
  · rw [hlists, State.dieList_unlist (State.twf_lists hw), if_neg (by rw [hdie]; exact hk)]
  · have hfails := State.finish_fails (s := v) (c := cplOf e 0 st 0 (v.ftRead hubPs)) hst rfl
      (by rw [StepsOk, hsteps]; exact State.twf_steps hw)
    rw [← heq] at hfails
    intro hon hrun
    refine hfails ?_ ?_
    · rw [State.stepsOn, State.ov_congr hobj]
      exact hon
    · rw [State.stp_congr hsteps]
      exact hrun
  · have hrec := State.finish_records (s := v) (c := cplOf e 0 st 0 (v.ftRead hubPs)) hst rfl (htaken.wf hw)
    rw [← heq] at hrec
    have hq : v.page e.ctx = q := State.page_congr hhost e.ctx
    have hc : (cplOf e 0 st 0 (v.ftRead hubPs)).ctx = e.ctx := rfl
    rw [hc, hq, State.ov_congr hobj, State.ov_congr hobj, State.anyUnmapped_congr (congrArg Mem.gddr hmem)] at hrec
    exact hrec hp

/-! A POST tile that waits for room (R111). -/

section
variable {s : State} {n : Nat} {x : Tile}

/-- What the next row of a POST tile posts. -/
def State.nextRow (s : State) (x : Tile) : WorkDesc :=
  let w := s.tensAt (dWord x.desc 2)
  descOf (lostBytes s.lostNow (s.source 0 x.ctx x.seq x.evalC false w (w.base + (dRow0 x.desc + x.row) * w.stride1) 128).1)

theorem postRows_full (k : Nat) (hrow : x.row < x.mEff) (hfull : s.post x.ctx (postTarget x) (s.nextRow x) = none) :
    postRows (k + 1) s x = (s, { x with stage := .posting }) := by
  unfold postRows
  rw [if_neg (Nat.not_le.mpr hrow)]
  dsimp only
  rw [show s.post x.ctx (postTarget x) (descOf (lostBytes s.lostNow (s.source 0 x.ctx x.seq x.evalC false
    (s.tensAt (dWord x.desc 2)) ((s.tensAt (dWord x.desc 2)).base + (dRow0 x.desc + x.row) * (s.tensAt (dWord x.desc 2)).stride1)
    128).1)) = none from hfull]

theorem postRows_last (k : Nat) {u : State} (hrow : x.row + 1 = x.mEff) (hpost : s.post x.ctx (postTarget x) (s.nextRow x) = some u) :
    ∃ y, postRows (k + 2) s x = (u, y) ∧ y.row = x.mEff ∧ y.stage = .storing ∧ y.desc = x.desc := by
  obtain ⟨cs, hcs⟩ : ∃ cs, cs = x.causes ++ (s.source 0 x.ctx x.seq x.evalC false (s.tensAt (dWord x.desc 2))
    ((s.tensAt (dWord x.desc 2)).base + (dRow0 x.desc + x.row) * (s.tensAt (dWord x.desc 2)).stride1) 128).2.map (fun c => (c, 2)) :=
    ⟨_, rfl⟩
  refine ⟨{ x with row := x.row + 1, causes := cs, stage := .storing }, ?_, hrow, rfl, rfl⟩
  rw [postRows, if_neg (by omega)]
  dsimp only
  rw [show s.post x.ctx (postTarget x) (descOf (lostBytes s.lostNow (s.source 0 x.ctx x.seq x.evalC false
    (s.tensAt (dWord x.desc 2)) ((s.tensAt (dWord x.desc 2)).base + (dRow0 x.desc + x.row) * (s.tensAt (dWord x.desc 2)).stride1)
    128).1)) = some u from hpost]
  dsimp only
  rw [postRows, if_pos (by dsimp only; omega), hcs]

theorem State.postRetry_one (htiles : (s.core n).tiles = [x]) (hst : x.stage = .posting) (hq : (s.core n).idleQ = false) :
    s.postRetry n = (postRows 129 s x).1.modCore n (fun c => c.setTile 0 (postRows 129 s x).2) := by
  unfold State.postRetry
  rw [if_neg (Bool.eq_false_iff.mp hq), htiles]
  simp only [List.length_singleton, List.range_one, List.foldl_cons, List.foldl_nil]
  rw [htiles, List.getElem?_cons_zero]
  dsimp only
  rw [if_neg (not_not.mpr hst)]

theorem State.postRetry_waits (h : CoresOk s) (htiles : (s.core n).tiles = [x]) (hst : x.stage = .posting) (hrow : x.row < x.mEff)
    (hq : (s.core n).idleQ = false) (hfull : s.post x.ctx (postTarget x) (s.nextRow x) = none) :
    ((s.postRetry n).core n).tiles = [x] ∧ OtherCores n s (s.postRetry n) ∧ Frame [.cores] s (s.postRetry n) := by
  have hx : ({ x with stage := .posting } : Tile) = x := by rw [← hst]
  rw [State.postRetry_one htiles hst hq, postRows_full 128 hrow hfull, hx]
  refine ⟨?_, State.otherCores_setCore h rfl n _, (State.setCore_runs ..).frame⟩
  rw [State.modCore, State.core_setCore_self h rfl, Core.setTile, htiles]
  rfl

theorem State.postRetry_posts (h : CoresOk s) (htiles : (s.core n).tiles = [x]) (hst : x.stage = .posting) {u : State}
    (hq : (s.core n).idleQ = false) (hpost : s.post x.ctx (postTarget x) (s.nextRow x) = some u) (hrow : x.row + 1 = x.mEff) :
    ∃ y, ((s.postRetry n).core n).tiles = [y] ∧ y.row = x.mEff ∧ y.stage = .storing ∧ y.desc = x.desc ∧
      (s.postRetry n).sched = u.sched ∧ OtherCores n s (s.postRetry n) ∧ Frame [.cores, .sched] s (s.postRetry n) := by
  obtain ⟨y, hy, hyrow, hyst, hyd⟩ := postRows_last 127 hrow hpost
  have hposts : Runs [.sched] s u := State.post_runs hpost
  have hcores : u.cores = s.cores := hposts.same .cores rfl
  rw [State.postRetry_one htiles hst hq, hy]
  refine ⟨y, ?_, hyrow, hyst, hyd, rfl, State.otherCores_setCore h hcores n _,
    (Runs.comp (State.setCore_runs ..) rfl (hposts.mono rfl)).frame⟩
  rw [State.modCore, State.core_setCore_self h hcores, Core.setTile, State.core_congr hcores, htiles]
  rfl

end

end Sys2Proof.Machine
end


-- ==== Sys2Proof/Proofs/ContextSwitches.lean ====
section
/-!
PROOF. A core's context switches: the expiry of a slice, what becomes of a tile, and the incoming context (R67 to R70, R119, R120).
-/

namespace Sys2Proof.Machine

/-! Where the context can change (R119). -/

section
variable {s : State} {n : Nat}

/-- The core's controller wakes and looks for a context that is ready. -/
def State.slicing (s : State) (n : Nat) : State := (s.modCore n ({ · with wake := true })).notice

/-- The contexts that are ready, in the order of R119. -/
def State.nextCtxs (s : State) (n : Nat) : List Nat := (ctxFrom (s.core n).ctx).filter ((s.slicing n).ctxReady n)

theorem State.slicing_runs (s : State) (n : Nat) : Runs [.cores, .sched, .urn, .router] s (s.slicing n) :=
  Runs.comp (State.notice_runs ..) rfl ((State.modCore_runs ..).mono rfl)

theorem State.cores_slicing (s : State) (n : Nat) : (s.slicing n).cores = (s.modCore n ({ · with wake := true })).cores :=
  (State.notice_runs ..).same .cores rfl

/-- The fabric time of a core's die, in what the controller leaves as it is. -/
theorem State.ftRead_slicing (s : State) (n d : Nat) : (s.slicing n).ftRead ((s.slicing n).diePs d) = s.ftRead (s.diePs d) := by
  have hruns := s.slicing_runs n
  have hdie : (s.slicing n).die d = s.die d := State.die_congr (hruns.same .kettle rfl) d
  rw [State.diePs, hdie, ← State.diePs]
  exact State.ftRead_congr (hruns.same .clk rfl) (hruns.same .ft rfl) _

variable (h : CoresOk s)
include h

theorem State.core_slicing : (s.slicing n).core n = { s.core n with wake := true } := by
  rw [State.core_congr (s.cores_slicing n)]
  exact State.core_setCore_self h rfl n _

theorem State.coresOk_slicing : CoresOk (s.slicing n) :=
  State.coresOk_of_cores (h.setCore n _) (s.cores_slicing n)

theorem State.otherCores_slicing : OtherCores n s (s.slicing n) :=
  (State.otherCores_setCore h rfl n _).trans (.of_cores (s.cores_slicing n))

omit h in
/-- No other context is ready: the slice restarts. -/
theorem State.sliceExpiry_restarts (stops : List Nat) (hto : (s.core n).switchTo = none)
    (hdue : (s.core n).sliceAt + s.ov ctxSliceId * 1000 ≤ s.ftRead (s.diePs (dieOf n))) (hnext : s.nextCtxs n = []) :
    s.sliceExpiry n stops =
      (s.slicing n).modCore n (fun c => { c with sliceAt := (s.slicing n).ftRead ((s.slicing n).diePs (dieOf n)) }) := by
  unfold State.sliceExpiry
  dsimp only
  rw [if_neg (by rw [hto]; simp; omega), show (ctxFrom (s.core n).ctx).filter
    (((s.modCore n (fun c => { c with wake := true })).notice).ctxReady n) = [] from hnext]
  rfl

/-- The core stops accepting, for a context to come. -/
def State.leaving (s : State) (n m : Nat) : State := (s.slicing n).modCore n ({ · with switchTo := some m })

omit h in
/-- The first context that is ready comes next: the tiles of the outgoing one leave. -/
theorem State.sliceExpiry_switches (stops : List Nat) (hto : (s.core n).switchTo = none)
    (hdue : (s.core n).sliceAt + s.ov ctxSliceId * 1000 ≤ s.ftRead (s.diePs (dieOf n))) {m : Nat}
    (hnext : (s.nextCtxs n).head? = some m) :
    s.sliceExpiry n stops = (((s.leaving n m).core n).tiles.zipIdx.map (fun x => (x.1, stops.getD x.2 0))).foldl
      (fun s p => s.switchOut n p) (s.leaving n m) := by
  obtain ⟨ms, hms⟩ := List.head?_eq_some_iff.mp hnext
  unfold State.sliceExpiry
  dsimp only
  rw [if_neg (by rw [hto]; simp; omega), show (ctxFrom (s.core n).ctx).filter
    (((s.modCore n (fun c => { c with wake := true })).notice).ctxReady n) = m :: ms from hms]
  rfl

theorem State.core_leaving (m : Nat) : (s.leaving n m).core n = { s.core n with wake := true, switchTo := some m } := by
  rw [State.leaving, State.modCore, State.core_setCore_self (State.coresOk_slicing h) rfl, State.core_slicing h]

theorem State.coresOk_leaving (m : Nat) : CoresOk (s.leaving n m) := (State.coresOk_slicing h).setCore n _

theorem State.otherCores_leaving (m : Nat) : OtherCores n s (s.leaving n m) :=
  (State.otherCores_slicing h).trans (State.otherCores_setCore (State.coresOk_slicing h) rfl n _)

omit h in
theorem State.leaving_runs (s : State) (n m : Nat) : Runs [.cores, .sched, .urn, .router] s (s.leaving n m) :=
  Runs.comp (State.modCore_runs ..) rfl (s.slicing_runs n)

end

/-! What becomes of a tile (R120). -/

/-- The tile is no longer among the core's. -/
def Core.without (c : Core) (x : Tile) : Core := { c with tiles := c.tiles.filter (fun y => !(y.seq == x.seq && y.ctx == x.ctx)) }

theorem Core.without_only {c : Core} {x : Tile} (h : c.tiles = [x]) : c.without x = { c with tiles := [] } := by
  unfold Core.without
  rw [h]
  simp

section
variable {w : State} {n : Nat} {x : Tile}

/-- A tile that has begun nothing returns to its list. -/
theorem State.switchOut_returns (hbegun : x.begun = false) (hst : x.stage = .computing) (hslot : x.slot = none) :
    w.switchOut n (x, 0) = ((w.setCore n ((w.core n).without x)).dropTileReqs n x.ctx x.seq).repost (x.entry false) := by
  have hclaim : (w.core n).unclaim x = w.core n := by
    unfold Core.unclaim
    rw [hslot]
  unfold State.switchOut
  dsimp only
  rw [if_pos (by simp [hbegun, hst]), hclaim]
  rfl

/-- A MATMUL tile that computes, or that has been stopped beyond a boundary, stops there and stands suspended. -/
theorem State.switchOut_suspends {k i : Nat} (hty : dType x.desc = 0) (hst : x.stage = .computing ∨ x.stage = .stopped)
    (hbegun : x.begun = true ∨ k ≠ 0) (hslot : x.slot = some i) :
    let r := w.mmRun n x ((w.core n).slot i) (max x.kDone (boundary (w.mmGroup x) x.kEff k))
    r.2.1.misses = false →
      w.switchOut n (x, k) =
        let c := w.matched n x r.2.1.kDone (((w.core n).setSlot i r.2.2).without x)
        r.1.setCore n { c with suspended := c.suspended ++ [{ r.2.1 with stage := .stopped }] } := by
  intro r hm
  have hengine : x.stage = .waiting ∨ x.stage = .computing ∨ x.stage = .stopped := .inr hst
  have hgone : ¬((x.begun = true ∨ k ≠ 0 ∧ (x.stage = .computing ∨ x.stage = .stopped)) = (false = true) ∧
      (x.stage = .waiting ∨ x.stage = .computing ∨ x.stage = .stopped)) := by
    rintro ⟨hno, -⟩
    have hyes : x.begun = true ∨ k ≠ 0 ∧ (x.stage = .computing ∨ x.stage = .stopped) := hbegun.imp_right fun hk => ⟨hk, hst⟩
    rw [hno] at hyes
    cases hyes
  unfold State.switchOut
  dsimp only
  rw [if_neg hgone, if_pos ⟨hty, hengine⟩, hslot]
  dsimp only [Option.getD_some]
  rw [if_neg (Bool.eq_false_iff.mp hm)]
  rfl

end

/-! The expiry of a slice (R119, R120). -/

/-- What the match table's load leaves of a core. -/
theorem State.matched_leaves (s : State) (n : Nat) (x : Tile) (upto : Nat) (c : Core) :
    ({ s.matched n x upto c with matchTab := c.matchTab } : Core) = c := by
  unfold State.matched
  dsimp only
  split <;> rfl

section
variable {s : State} {n m : Nat} {x : Tile} {stops : List Nat} (hw : s.wf = true) (hto : (s.core n).switchTo = none)
  (hdue : (s.core n).sliceAt + s.ov ctxSliceId * 1000 ≤ s.ftRead (s.diePs (dieOf n)))
include hw hto hdue

theorem State.sliceExpiry_none (hnext : s.nextCtxs n = []) :
    let t := s.sliceExpiry n stops
    t.core n = { s.core n with wake := true, sliceAt := s.ftRead (s.diePs (dieOf n)) } ∧ OtherCores n s t ∧
      Frame [.cores, .sched, .urn, .router] s t := by
  intro t
  have hok : CoresOk s := State.twf_cores hw
  have heq : t = (s.slicing n).modCore n (fun c => { c with sliceAt := s.ftRead (s.diePs (dieOf n)) }) := by
    rw [← s.ftRead_slicing n (dieOf n)]
    exact State.sliceExpiry_restarts stops hto hdue hnext
  rw [heq]
  refine ⟨?_, (State.otherCores_slicing hok).trans (State.otherCores_setCore (State.coresOk_slicing hok) rfl n _),
    (Runs.comp (State.modCore_runs ..) rfl (s.slicing_runs n)).frame⟩
  rw [State.modCore, State.core_setCore_self (State.coresOk_slicing hok) rfl, State.core_slicing hok]

variable (hnext : (s.nextCtxs n).head? = some m)
include hnext

theorem State.sliceExpiry_empty (htiles : (s.core n).tiles = []) :
    let t := s.sliceExpiry n stops
    t.core n = { s.core n with wake := true, switchTo := some m } ∧ OtherCores n s t ∧ Frame [.cores, .sched, .urn, .router] s t := by
  intro t
  have hok : CoresOk s := State.twf_cores hw
  have hnone : ((s.leaving n m).core n).tiles = [] := by rw [State.core_leaving hok, htiles]
  have heq : t = s.leaving n m := by
    unfold t
    rw [State.sliceExpiry_switches stops hto hdue hnext, hnone]
    rfl
  rw [heq]
  exact ⟨State.core_leaving hok m, State.otherCores_leaving hok m, (s.leaving_runs n m).frame⟩

omit hw in
/-- One accepted tile is dealt with as it stands. -/
theorem State.sliceExpiry_one (h : CoresOk s) (htiles : (s.core n).tiles = [x]) :
    s.sliceExpiry n stops = (s.leaving n m).switchOut n (x, stops.getD 0 0) := by
  have hone : ((s.leaving n m).core n).tiles = [x] := by rw [State.core_leaving h, htiles]
  rw [State.sliceExpiry_switches stops hto hdue hnext, hone]
  rfl

theorem State.sliceExpiry_returns (htiles : (s.core n).tiles = [x]) (hbegun : x.begun = false) (hst : x.stage = .computing)
    (hslot : x.slot = none) (hstops : stops = []) :
    let t := s.sliceExpiry n stops
    ∃ e, t.core n = { s.core n with wake := true, switchTo := some m, tiles := [] } ∧ e ∈ t.dieList x.die ∧ e.desc = x.desc ∧
      e.ctx = x.ctx ∧ e.seq = x.seq ∧ e.taken = true ∧ OtherCores n s t ∧ Frame [.cores, .sched, .urn, .fab, .router] s t := by
  intro t
  have hok : CoresOk s := State.twf_cores hw
  obtain ⟨w, hwl⟩ : ∃ w, w = s.leaving n m := ⟨_, rfl⟩
  have hwruns : Runs [.cores, .sched, .urn, .router] s w := hwl ▸ s.leaving_runs n m
  have hwcore : w.core n = { s.core n with wake := true, switchTo := some m } := hwl ▸ State.core_leaving hok m
  have hwok : CoresOk w := hwl ▸ State.coresOk_leaving hok m
  obtain ⟨v, hv⟩ : ∃ v, v = (w.setCore n ((w.core n).without x)).dropTileReqs n x.ctx x.seq := ⟨_, rfl⟩
  have heq : t = v.enlist (x.entry false) := by
    unfold t
    rw [State.sliceExpiry_one hto hdue hnext hok htiles, hstops, ← hwl,
      show ([] : List Nat).getD 0 0 = 0 from rfl, State.switchOut_returns hbegun hst hslot, ← hv]
    rfl
  have hvruns : Runs [.cores, .fab] w v := hv ▸ Runs.comp (State.dropTileReqs_runs ..) rfl ((State.setCore_runs ..).mono rfl)
  have hlists : twf [] v.sched.lists = true := State.twf_lists (hvruns.wf (hwruns.wf hw))
  have hrel : Runs [.sched] v t := heq ▸ State.repost_runs ..
  have hcores : t.cores = (w.setCore n ((w.core n).without x)).cores := by
    have h1 : t.cores = v.cores := hrel.same .cores rfl
    have h2 : v.cores = (w.setCore n ((w.core n).without x)).cores := by rw [hv]; exact (State.dropTileReqs_runs ..).same .cores rfl
    exact h1.trans h2
  have hgone : (w.core n).without x = { s.core n with wake := true, switchTo := some m, tiles := [] } := by
    rw [Core.without_only (by rw [hwcore]; exact htiles), hwcore]
  refine ⟨x.entry false, ?_, ?_, rfl, rfl, rfl, rfl, ?_, ?_⟩
  · rw [State.core_congr hcores, State.core_setCore_self hwok rfl, hgone]
  · rw [heq, State.dieList_enlist hlists, if_pos (show x.die = (x.entry false).die from rfl)]
    exact mem_insertEntry.mpr (.inl rfl)
  · have hleft : OtherCores n s w := hwl ▸ State.otherCores_leaving hok m
    exact hleft.trans ((State.otherCores_setCore hwok rfl n _).trans (.of_cores hcores))
  · exact (Runs.trans (hwruns.mono rfl) (Runs.trans (hvruns.mono rfl) (hrel.mono rfl))).frame

/-- A MATMUL tile that stops at a group boundary stands suspended with its slot. -/
theorem State.sliceExpiry_suspends {i : Nat} (htiles : (s.core n).tiles = [x]) (hty : dType x.desc = 0)
    (hst : x.stage = .computing ∨ x.stage = .stopped) (hbegun : x.begun = true ∨ stops.getD 0 0 ≠ 0) (hslot : x.slot = some i)
    (hacc : ((s.core n).slot i).st = .accumulating) :
    let w := s.leaving n m
    let r := w.mmRun n x ((s.core n).slot i) (max x.kDone (boundary (w.mmGroup x) x.kEff (stops.getD 0 0)))
    r.2.1.misses = false →
      let t := s.sliceExpiry n stops
      (t.core n).tiles = [] ∧ (t.core n).suspended = (s.core n).suspended ++ [{ r.2.1 with stage := .stopped }] ∧
        (t.core n).slot i = r.2.2 ∧ (t.core n).switchTo = some m ∧ OtherCores n s t ∧
        Frame [.cores, .sched, .urn, .fab, .router, .obj] s t := by
  intro w r hm t
  have hok : CoresOk s := State.twf_cores hw
  have hwruns : Runs [.cores, .sched, .urn, .router] s w := s.leaving_runs n m
  have hwcore : w.core n = { s.core n with wake := true, switchTo := some m } := State.core_leaving hok m
  have hwok : CoresOk w := State.coresOk_leaving hok m
  have hwslot : (w.core n).slot i = (s.core n).slot i := by rw [hwcore]; rfl
  have hsusp := State.switchOut_suspends (w := w) (n := n) (k := stops.getD 0 0) hty hst hbegun hslot
  rw [hwslot] at hsusp
  obtain ⟨k, hk⟩ : ∃ k, k = w.matched n x r.2.1.kDone (((w.core n).setSlot i r.2.2).without x) := ⟨_, rfl⟩
  have heq : t = r.1.setCore n { k with suspended := k.suspended ++ [{ r.2.1 with stage := .stopped }] } := by
    rw [hk, ← hsusp hm]
    exact State.sliceExpiry_one hto hdue hnext hok htiles
  have hleaves := w.matched_leaves n x r.2.1.kDone (((w.core n).setSlot i r.2.2).without x)
  rw [← hk, Core.without_only (c := (w.core n).setSlot i r.2.2) (by rw [Core.setSlot, hwcore]; exact htiles)] at hleaves
  have hrun : Runs [.fab, .obj] w r.1 := State.mmRun_runs ..
  have hcores : r.1.cores = w.cores := hrun.same .cores rfl
  have hcore : t.core n = { k with suspended := k.suspended ++ [{ r.2.1 with stage := .stopped }] } := by
    rw [heq]
    exact State.core_setCore_self hwok hcores n _
  have hrst : r.2.2.st = .accumulating := hacc
  have htilesk : k.tiles = [] := (congrArg Core.tiles hleaves :)
  have hsuspk : k.suspended = (w.core n).suspended := (congrArg Core.suspended hleaves :)
  have hslotsk : k.slots = ((w.core n).setSlot i r.2.2).slots := (congrArg Core.slots hleaves :)
  have htok : k.switchTo = (w.core n).switchTo := (congrArg Core.switchTo hleaves :)
  rw [hcore]
  refine ⟨htilesk, ?_, ?_, ?_, ?_, ?_⟩
  · exact congrArg (· ++ [{ r.2.1 with stage := .stopped }]) (hsuspk.trans (by rw [hwcore]))
  · have hread : tget .free k.slots i = r.2.2 := by
      rw [hslotsk]
      exact Core.slot_setSlot_self _ _ (Slot.ne_free (by rw [hrst]; decide))
    exact hread
  · exact htok.trans (by rw [hwcore])
  · rw [heq]
    exact (State.otherCores_leaving hok m).trans (State.otherCores_setCore hwok hcores n _)
  · rw [heq]
    exact (Runs.comp (State.setCore_runs ..) rfl (Runs.trans (hwruns.mono rfl) (hrun.mono rfl))).frame

end

/-! The incoming context (R67 to R70, R120). -/

theorem State.loadDev_eq {s : State} {bs : List Byte} {a : Nat}
    (h : ∀ i b, bs[i]? = some b → s.mapped (a + i) = true ∧ s.poisoned (a + i) = false ∧ s.memByte (a + i) = b) :
    s.loadDev a bs.length = bs := by
  induction bs generalizing a with
  | nil => rfl
  | cons b bs ih =>
    obtain ⟨hmap, hpoison, hbyte⟩ := h 0 b rfl
    rw [Nat.add_zero] at hmap hpoison hbyte
    rw [List.length_cons, State.loadDev, hmap, hpoison, hbyte, ih]
    · rfl
    · intro i c hc
      rw [show a + 1 + i = a + (i + 1) by omega]
      exact h (i + 1) c hc

/-- Whole granules that are stored read back as they were stored (R301). -/
theorem State.loadDev_storeDev {s : State} (hw : s.wf = true) {a : Nat} {bs : List Byte} (ha : a % 64 = 0) (hn : bs.length % 64 = 0)
    (hmap : s.anyUnmapped a bs.length = false) : (s.storeDev a bs).loadDev a bs.length = bs := by
  have hgddr : (s.storeDev a bs).mem.gddr = s.mem.gddr := State.gddr_storeDev ..
  refine State.loadDev_eq fun i b hb => ⟨?_, ?_, State.memByte_storeDev_inside hw hmap hb⟩
  · rw [State.mapped_congr hgddr]
    exact State.mapped_of_not_anyUnmapped hmap (List.getElem?_eq_some_iff.mp hb).1
  · have hi : i < bs.length := (List.getElem?_eq_some_iff.mp hb).1
    have hg : (s.storeDev a bs).poisoned (a + i) = (s.storeDev a bs).poisoned (64 * ((a + i) / 64)) := by
      rw [State.poisoned, State.poisoned, Nat.mul_div_cancel_left _ (by decide)]
    rw [hg, State.poisoned_storeDev (State.twf_poison hw) hmap, decide_eq_true (by omega), Bool.not_true, Bool.and_false]

theorem length_saveHeader (c : Core) (n : Nat) : (saveHeader c n []).length = 256 := by
  simp [saveHeader, length_toLE]

section
variable {s : State} {n m : Nat}

/-- A core without slots saves none. -/
theorem State.saveSlots_none (hslots : (s.core n).slots = []) :
    s.saveSlots n = (s.storeDev (s.saveArea (s.core n).ctx n) (saveHeader (s.core n) n [])).setCore n { s.core n with
      slots := []
      savedChains := (s.core n).savedChains.filter (fun x => x.1 != (s.core n).ctx)
      savedHeld := (s.core n).savedHeld.filter (· != (s.core n).ctx) } := by
  have hvalid : (List.range 16).filter (fun i => ((s.core n).slot i).st == .accumulating || ((s.core n).slot i).st == .held) = [] := by
    refine List.filter_eq_nil_iff.mpr fun i _ => ?_
    have hfree : (s.core n).slot i = .free := by
      rw [Core.slot, hslots]
      rfl
    rw [hfree]
    decide
  unfold State.saveSlots
  dsimp only
  rw [hvalid]
  simp

theorem State.switchDone_restores (hw : s.wf = true) (hto : (s.core n).switchTo = some m) (htiles : (s.core n).tiles = [])
    (hslots : (s.core n).slots = []) (hsaved : (s.core n).savedHeld.contains m = false) :
    let c := s.core n
    let a := s.saveArea c.ctx n
    let t := s.switchDone n
    (t.core n).ctx = m ∧ (t.core n).switchTo = none ∧ (t.core n).sliceAt = s.ftRead (s.diePs (dieOf n)) ∧
      (t.core n).tiles = c.suspended.filter (fun x => x.ctx == m) ∧ (t.core n).suspended = c.suspended.filter (fun x => x.ctx != m) ∧
      (t.core n).slots = [] ∧ (s.anyUnmapped a 256 = false → a % 64 = 0 → t.loadDev a 256 = saveHeader c n []) ∧ OtherCores n s t ∧
      Frame [.cores, .mem] s t := by
  intro c a t
  have hok : CoresOk s := State.twf_cores hw
  obtain ⟨u, hu⟩ : ∃ u, u = s.storeDev a (saveHeader c n []) := ⟨_, rfl⟩
  have hstore : Runs [.mem] s u := hu ▸ State.storeDev_runs ..
  have hcores : u.cores = s.cores := hstore.same .cores rfl
  obtain ⟨k, hk⟩ : ∃ k : Core, k = { c with
      slots := []
      savedChains := c.savedChains.filter (fun x => x.1 != c.ctx)
      savedHeld := c.savedHeld.filter (· != c.ctx) } := ⟨_, rfl⟩
  obtain ⟨v, hv⟩ : ∃ v, v = u.setCore n k := ⟨_, rfl⟩
  have hsave : s.saveSlots n = v := by rw [hv, hk, hu, State.saveSlots_none hslots]
  have hvcore : v.core n = k := by rw [hv, State.core_setCore_self hok hcores]
  have hheld : k.savedHeld.contains m = false := by
    rw [hk, ← Bool.not_eq_true, List.contains_iff_mem]
    intro hm
    rw [← Bool.not_eq_true, List.contains_iff_mem] at hsaved
    exact hsaved (List.mem_filter.mp hm).1
  have hclock : v.ftRead (v.diePs (dieOf n)) = s.ftRead (s.diePs (dieOf n)) := by
    have hruns : Runs [.cores, .mem] s v := hv ▸ Runs.comp (State.setCore_runs ..) rfl (hstore.mono rfl)
    have hdie : v.die (dieOf n) = s.die (dieOf n) := State.die_congr (hruns.same .kettle rfl) _
    rw [State.diePs, hdie, ← State.diePs]
    exact State.ftRead_congr (hruns.same .clk rfl) (hruns.same .ft rfl) _
  obtain ⟨z, hz⟩ : ∃ z : Core, z = { k with
      ctx := m
      sliceAt := s.ftRead (s.diePs (dieOf n))
      switchTo := none
      suspended := k.suspended.filter (fun x => x.ctx != m)
      savedChains := k.savedChains.filter (fun x => x.1 != m)
      tiles := k.suspended.filter (fun x => x.ctx == m) } := ⟨_, rfl⟩
  have heq : t = v.setCore n z := by
    unfold t State.switchDone
    rw [hto]
    dsimp only
    rw [if_pos htiles, hsave]
    unfold State.restoreSlots
    dsimp only
    rw [hvcore, if_pos hheld, hclock, hz]
  have hvok : CoresOk v := hv ▸ (State.coresOk_of_cores hok hcores).setCore n k
  have hcore : t.core n = z := by rw [heq, State.core_setCore_self hvok rfl]
  have hmem : t.mem = u.mem := by rw [heq, hv]; rfl
  rw [hcore, hz, hk]
  refine ⟨rfl, rfl, rfl, rfl, rfl, rfl, fun hmap ha => ?_, ?_, ?_⟩
  · rw [State.loadDev_congr hmem, hu]
    have hlen := length_saveHeader c n
    have hback := State.loadDev_storeDev hw (bs := saveHeader c n []) ha (by rw [hlen]) (by rw [hlen]; exact hmap)
    rwa [hlen] at hback
  · rw [heq, hv]
    refine (State.otherCores_setCore hok hcores n k).trans (State.otherCores_setCore ?_ rfl n z)
    exact (State.coresOk_of_cores hok hcores).setCore n k
  · rw [heq, hv]
    exact (Runs.comp (State.setCore_runs ..) rfl (Runs.comp (State.setCore_runs ..) rfl (hstore.mono rfl))).frame

end

/-! O43. -/

/-- Settles O43: a list's entry by what is posted, moved or ended, a switch by what each tile of the core comes to. -/
theorem listsAndContextsMove : Obligations.ListsAndContextsMove := by
  refine ⟨fun s hw => ⟨?_, fun d e hd he hroom => ?_, ?_⟩, fun s n hw hn => ⟨?_, ?_⟩⟩
  · intro n x hn htiles hst hrow w a d
    refine ⟨fun hq => ?_, fun hq hfull => ?_, fun u hq hpost hlast => ?_⟩
    · exact (need_of (decide_eq_true hn) _).trans (congrArg Host.Outcome.next (if_pos hq))
    · exact ⟨_, need_of (decide_eq_true hn) _, State.postRetry_waits (State.twf_cores hw) htiles hst hrow hq hfull⟩
    · obtain ⟨y, hy⟩ := State.postRetry_posts (State.twf_cores hw) htiles hst hq hpost hlast
      exact ⟨_, y, need_of (decide_eq_true hn) _, hy⟩
  · exact ⟨_, need_of (decide_eq_true hd) _, State.overflowMove_moves (State.twf_lists hw) he hroom⟩
  · intro d e hd he hdie v st q a p
    exact ⟨_, need_of (decide_eq_true hd) _, State.chainMissing_ends hw he hdie⟩
  · intro stops hrails hto hdue v next
    have hexec : exec (.ctxSliceExpiry n stops) s = .next (s.sliceExpiry n stops) :=
      (need_of (decide_eq_true hn) _).trans (powered_of hrails _)
    refine ⟨fun hnext => ⟨_, hexec, State.sliceExpiry_none hw hto hdue hnext⟩,
      fun m hnext htiles => ⟨_, hexec, State.sliceExpiry_empty hw hto hdue hnext htiles⟩,
      fun m x hnext htiles hbegun hst hslot hstops => ?_, ?_, ?_⟩
    · obtain ⟨e, he⟩ := State.sliceExpiry_returns hw hto hdue hnext htiles hbegun hst hslot hstops
      exact ⟨_, e, hexec, he⟩
    · intro m x i hnext htiles hty hbegun hst hslot hacc w r hm
      exact ⟨_, hexec, State.sliceExpiry_suspends hw hto hdue hnext htiles hty (.inl hst) (.inl hbegun) hslot hacc hm⟩
    · intro m x i hnext htiles hty _ hst hslot hacc hpos w r hm
      obtain ⟨htl, hsusp, hsl, -, hother, -⟩ := State.sliceExpiry_suspends hw hto hdue hnext htiles hty (.inr hst)
        (.inr (Nat.pos_iff_ne_zero.mp hpos)) hslot hacc hm
      exact ⟨_, hexec, htl, hsusp, hsl, hother⟩
  · intro m c a hto htiles hslots _ hsaved
    exact ⟨_, need_of (decide_eq_true hn) _, State.switchDone_restores hw hto htiles hslots hsaved⟩

end Sys2Proof.Machine
end


-- ==== Sys2Proof/Proofs/TileAcceptance.lean ====
section
/-!
PROOF. The claim of a tile by a core (R107, R114, R187, R494), and what its acceptance leaves of the core (R89, R96).
-/

namespace Sys2Proof.Machine

/-! The tiles of a core that takes one more. -/

theorem exists_getLast_of_forall₂ {R : Tile → Tile → Prop} {xs ys : List Tile} {x : Tile} (h : List.Forall₂ R (xs ++ [x]) ys) :
    ∃ y, ys.getLast? = some y ∧ R x y ∧ y ∈ ys := by
  induction xs generalizing ys with
  | nil =>
    cases h with
    | cons hxy hnil =>
      cases hnil
      exact ⟨_, rfl, hxy, List.mem_singleton.mpr rfl⟩
  | cons z zs ih =>
    cases h with
    | @cons _ w _ ws _ hrest =>
      obtain ⟨y, hlast, hxy, hmem⟩ := ih hrest
      refine ⟨y, ?_, hxy, List.mem_cons_of_mem _ hmem⟩
      rw [List.getLast?_cons, hlast]
      rfl

/-- Context and post sequence number of a tile. -/
def Tile.key (x : Tile) : Nat × Nat := (x.ctx, x.seq)

theorem map_key_of_forall₂ {xs ys : List Tile} (h : List.Forall₂ Tile.Assigned xs ys) : ys.map Tile.key = xs.map Tile.key := by
  induction h with
  | nil => rfl
  | @cons x y _ _ hxy _ ih => rw [List.map_cons, List.map_cons, ih, Tile.key, hxy.ctx, hxy.seq, Tile.key]

/-- A core after it has taken `x`: from the tiles it had, its tiles; from the slots it had, its slots. -/
structure Core.Took (c d : Core) (x y : Tile) : Prop where
  last : d.tiles.getLast? = some y
  assigned : x.Assigned y
  keys : d.tiles.map Tile.key = c.tiles.map Tile.key ++ [x.key]
  slots : ∀ i, (c.slot i).Began (d.slot i)
  begun : ∀ i, y.stage = .computing → y.slot = some i → (d.slot i).st ≠ .init

section
variable {u : State} (h : CoresOk u) (n : Nat)
include h

theorem State.addTile_takes (x : Tile) :
    (∃ y, ((u.core n)).Took ((u.addTile n x).core n) x.plain y) ∧ OtherCores n u (u.addTile n x) ∧ (u.addTile n x).sched = u.sched := by
  obtain ⟨v, hv⟩ : ∃ v, v = (u.hdrNote x).evalNote x.evalC := ⟨_, rfl⟩
  have hvruns : Runs [.fab, .obj, .tele] u v := hv ▸ Runs.comp (State.evalNote_runs ..) rfl ((State.hdrNote_runs ..).mono rfl)
  have hcores : v.cores = u.cores := hvruns.same .cores rfl
  obtain ⟨w, hw⟩ : ∃ w, w = v.setCore n { u.core n with tiles := (u.core n).tiles ++ [x.plain] } := ⟨_, rfl⟩
  have heq : u.addTile n x = w.assign n := by
    rw [hw, ← State.core_congr hcores n, hv]
    rfl
  have hwok : CoresOk w := hw ▸ (State.coresOk_of_cores h hcores).setCore n _
  have hwcore : w.core n = { u.core n with tiles := (u.core n).tiles ++ [x.plain] } := by
    rw [hw, State.core_setCore_self h hcores]
  have htiles := State.tiles_assign hwok n
  have hall := forall₂_assignTiles (w.die (dieOf n)).eng (w.core n).tiles
  rw [← htiles, hwcore] at hall
  obtain ⟨y, hlast, hassigned, hmem⟩ := exists_getLast_of_forall₂ hall
  rw [heq]
  refine ⟨⟨y, hlast, hassigned, ?_, fun i => ?_, fun i hst hslot => ?_⟩, ?_, ?_⟩
  · rw [map_key_of_forall₂ hall, List.map_append]
    rfl
  · have hbegan := State.began_assign hwok n i
    rw [hwcore] at hbegan
    exact hbegan
  · rw [State.core_assign hwok, if_pos rfl]
    rw [htiles] at hmem
    exact Core.st_foldl_begin hmem hst hslot _
  · refine OtherCores.trans ?_ (State.core_assign_other hwok n)
    rw [hw]
    exact State.otherCores_setCore h hcores n _
  · have hassign : (w.assign n).sched = w.sched := (State.assign_runs ..).same .sched rfl
    have hset : w.sched = v.sched := by rw [hw]; rfl
    have hnoted : v.sched = u.sched := hvruns.same .sched rfl
    exact hassign.trans (hset.trans hnoted)

end

/-! The claim (R114). -/

/-- The chosen entry has left its list, and its TAKE counts are taken. -/
def State.tileTaken (s : State) (e : Entry) : State := (s.notice.unlist e).takeWaits e

theorem State.tileTaken_runs (s : State) (e : Entry) : Runs [.sched, .sync, .urn, .router] s (s.tileTaken e) :=
  Runs.comp (State.takeWaits_runs ..) rfl (Runs.comp (State.unlist_runs ..) rfl ((State.notice_runs s).mono rfl))

theorem State.seq_tileTaken {s : State} (hw : s.wf = true) {e y : Entry} (hy : y ∈ (s.tileTaken e).dieList e.die) : y.seq ≠ e.seq := by
  have hsched : (s.tileTaken e).sched = (s.notice.unlist e).sched := (State.takeWaits_runs ..).same .sched rfl
  rw [State.dieList_congr hsched] at hy
  exact State.seq_unlist (State.twf_lists ((State.notice_runs s).wf hw)) hy

/-- The entry that a claim of a TYPE goes on with: no wait has failed, the scheduler chooses it, and its headers are here. -/
structure State.Claims (s : State) (n ty : Nat) (e : Entry) : Prop where
  waits : s.notice.badWait n ty = none
  chosen : s.notice.choose n = some e
  type : dType e.desc = ty ∨ 8 ≤ dType e.desc
  here : (s.notice.hdrCauses n e).any (fun c => isMiss c.1) = false

section
variable {s : State} {n ty : Nat} {e : Entry} (accept : Nat → Entry → State → State)

theorem State.claim_withdraws {c : Nat} (hbad : s.notice.badWait n ty = some (e, c)) :
    s.claim n ty accept = s.notice.withdraw e n c := by
  unfold State.claim
  dsimp only
  rw [hbad]

/-- A tile whose header at a peer has not come stays listed. -/
theorem State.claim_asks (hbad : s.notice.badWait n ty = none) (hchosen : s.notice.choose n = some e)
    (hty : dType e.desc = ty ∨ 8 ≤ dType e.desc) (hmiss : (s.notice.hdrCauses n e).any (fun c => isMiss c.1) = true) :
    s.claim n ty accept = s.notice.askPeer n e.ctx e.seq (s.notice.hdrCauses n e) := by
  unfold State.claim
  dsimp only
  rw [hbad, hchosen]
  dsimp only
  rw [if_neg (by omega), if_pos hmiss]

variable (h : s.Claims n ty e)
include h

theorem State.claim_accepts (hok : (s.tileTaken e).refusal n e = 0) :
    s.claim n ty accept =
      ((accept n e (s.tileTaken e)).urnTileFlags e.desc ((s.tileTaken e).urnCauses e.ctx e.desc)).foundDone := by
  have hty := h.type
  unfold State.claim
  dsimp only
  rw [h.waits, h.chosen]
  dsimp only
  rw [if_neg (by omega), if_neg (Bool.eq_false_iff.mp h.here),
    show ((s.notice.unlist e).takeWaits e).refusal n e = 0 from hok]
  rfl

theorem State.claim_refuses (hno : (s.tileTaken e).refusal n e ≠ 0) :
    s.claim n ty accept = ((s.tileTaken e).dropTileReqs n e.ctx e.seq).finish
      (cplOf e n ((s.tileTaken e).refusal n e) 0 ((s.tileTaken e).ftRead hubPs)) := by
  have hty := h.type
  unfold State.claim
  dsimp only
  rw [h.waits, h.chosen]
  dsimp only
  rw [if_neg (by omega), if_neg (Bool.eq_false_iff.mp h.here)]
  split
  case h_1 h0 => exact absurd h0 hno
  case h_2 => rfl

end

end Sys2Proof.Machine
end


-- ==== Sys2Proof/Proofs/Acceptances.lean ====
section
/-!
PROOF. The acceptance of a tile by its TYPE, and its refusals (R89, R96, R109, R241, R494).
-/

namespace Sys2Proof.Machine

/-! What a claim leaves (R114). -/

section
variable {s : State} {n ty : Nat} {e : Entry} (accept : Nat → Entry → State → State) (hfound : s.mem.found = [])
include hfound

/-- A tile is accepted, no error of a memory waiting. -/
theorem State.claim_takes (h : s.Claims n ty e) (hok : (s.tileTaken e).refusal n e = 0)
    (hruns : Runs [.cores, .sched, .fab, .obj, .tele] (s.tileTaken e) (accept n e (s.tileTaken e))) :
    let t := s.claim n ty accept
    t.cores = (accept n e (s.tileTaken e)).cores ∧ t.sched = (accept n e (s.tileTaken e)).sched ∧ t.sync = (s.tileTaken e).sync ∧
      Frame [.cores, .sched, .sync, .urn, .fab, .router, .obj, .tele] s t := by
  intro t
  obtain ⟨v, hv⟩ : ∃ v, v = s.tileTaken e := ⟨_, rfl⟩
  obtain ⟨a, ha⟩ : ∃ a, a = accept n e v := ⟨_, rfl⟩
  rw [← hv, ← ha] at hruns
  have htaken : Runs [.sched, .sync, .urn, .router] s v := hv ▸ s.tileTaken_runs e
  obtain ⟨b, hb⟩ : ∃ b, b = a.urnTileFlags e.desc (v.urnCauses e.ctx e.desc) := ⟨_, rfl⟩
  have hflags : Runs [.obj] a b := hb ▸ State.urnTileFlags_runs ..
  have hmem : b.mem = s.mem := by
    have h1 : b.mem = a.mem := hflags.same .mem rfl
    have h2 : a.mem = v.mem := hruns.same .mem rfl
    have h3 : v.mem = s.mem := htaken.same .mem rfl
    exact h1.trans (h2.trans h3)
  have heq : t = b := by
    rw [show t = (((accept n e (s.tileTaken e)).urnTileFlags e.desc ((s.tileTaken e).urnCauses e.ctx e.desc)).foundDone) from
      State.claim_accepts accept h hok, ← hv, ← ha, ← hb, State.foundDone_of_none (by rw [hmem]; exact hfound)]
  rw [heq, ← hv, ← ha]
  refine ⟨hflags.same .cores rfl, hflags.same .sched rfl, ?_, ?_⟩
  · have h1 : b.sync = a.sync := hflags.same .sync rfl
    have h2 : a.sync = v.sync := hruns.same .sync rfl
    exact h1.trans h2
  · exact (Runs.trans (htaken.mono rfl) (Runs.trans (hruns.mono rfl) (hflags.mono rfl)) :
      Runs [.cores, .sched, .sync, .urn, .fab, .router, .obj, .tele] s b).frame

end

section
variable {s : State} {n : Nat} {e : Entry} (hw : s.wf = true)
include hw

omit hw in
theorem State.cores_tileTaken (s : State) (e : Entry) : (s.tileTaken e).cores = s.cores := (s.tileTaken_runs e).same .cores rfl

/-- The core that has taken a tile, as the statements put it. -/
theorem State.takes_of {t u : State} {x y : Tile} (hok : CoresOk u) (hcores : OtherCores n s u)
    (htiles : (u.core n).tiles = (s.core n).tiles) (hsched : u.sched = (s.tileTaken e).sched) (hctx : x.ctx = e.ctx)
    (hseq : x.seq = e.seq) (hc : t.cores = (u.addTile n x).cores) (hsc : t.sched = (u.addTile n x).sched)
    (htook : (u.core n).Took ((u.addTile n x).core n) x.plain y) : s.Takes t n e y := by
  obtain ⟨-, hother, hsame⟩ := State.addTile_takes hok n x
  refine ⟨?_, ?_, fun m hm => ?_, fun z hz => ?_⟩
  · rw [State.core_congr hc]
    exact htook.last
  · rw [State.core_congr hc]
    have hkeys := htook.keys
    rw [show x.plain.key = (e.ctx, e.seq) from by rw [Tile.key, ← hctx, ← hseq]; rfl, htiles] at hkeys
    exact hkeys
  · rw [State.core_congr hc, hother m hm, hcores m hm]
  · rw [State.dieList_congr (hsc.trans (hsame.trans hsched))] at hz
    exact State.seq_tileTaken hw hz

end

/-! The types without a slot (R96, R241). -/

/-- A tile that is added as it stands: no MATMUL tile. -/
theorem Core.Took.of_fixed {c d : Core} {x y : Tile} (h : c.Took d x y) (hty : dType x.desc ≠ 0) : y = x :=
  h.assigned.fixed fun h0 => absurd h0 hty

section
variable {s : State} {n : Nat} {e : Entry} (hw : s.wf = true) (hfound : s.mem.found = [])
include hw hfound

theorem State.claim_takes_plain {ty : Nat} (h : s.Claims n ty e) (hok : (s.tileTaken e).refusal n e = 0) (hty : dType e.desc ≠ 0) :
    let t := s.claim n ty State.acceptPlain
    s.Takes t n e ((s.tileTaken e).newTile n e none).plain ∧ t.sync = (s.tileTaken e).sync ∧
      Frame [.cores, .sched, .sync, .urn, .fab, .router, .obj, .tele] s t := by
  intro t
  obtain ⟨v, hv⟩ : ∃ v, v = s.tileTaken e := ⟨_, rfl⟩
  obtain ⟨x, hx⟩ : ∃ x, x = v.newTile n e none := ⟨_, rfl⟩
  have hcores : v.cores = s.cores := hv ▸ s.cores_tileTaken e
  have hacc : State.acceptPlain n e (s.tileTaken e) = v.addTile n x := by rw [← hv, hx]; rfl
  obtain ⟨hc, hsc, hsync, hframe⟩ := State.claim_takes State.acceptPlain hfound h hok ((State.acceptPlain_runs ..).mono rfl)
  rw [hacc] at hc hsc
  have hvok : CoresOk v := State.coresOk_of_cores (State.twf_cores hw) hcores
  obtain ⟨⟨y, htook⟩, -, -⟩ := State.addTile_takes hvok n x
  have hy : y = x.plain := htook.of_fixed (by rw [hx]; exact hty)
  rw [hy] at htook
  rw [← hv, ← hx]
  exact ⟨State.takes_of hw hvok (.of_cores hcores) (congrArg Core.tiles (State.core_congr hcores n)) (congrArg State.sched hv)
    (by rw [hx]; rfl) (by rw [hx]; rfl) hc hsc htook, hv ▸ hsync, hframe⟩

omit hw in
theorem State.lostNow_of_none : s.lostNow = none := by
  unfold State.lostNow
  rw [hfound]
  rfl

/-- An UPDATE tile has its hyperparameters latched. -/
theorem State.claim_takes_update (h : s.Claims n 4 e) (hok : (s.tileTaken e).refusal n e = 0) (hty : dType e.desc = 4) :
    let t := s.claim n 4 State.acceptUpdate
    ∃ x, s.Takes t n e x ∧ x.latched = s.loadDev (dWord e.desc 3) 64 ∧ x.desc = e.desc ∧ t.sync = (s.tileTaken e).sync ∧
      Frame [.cores, .sched, .sync, .urn, .fab, .router, .obj, .tele] s t := by
  intro t
  obtain ⟨v, hv⟩ : ∃ v, v = s.tileTaken e := ⟨_, rfl⟩
  have hmem : v.mem = s.mem := hv ▸ (s.tileTaken_runs e).same .mem rfl
  obtain ⟨x, hx⟩ : ∃ x, x = { v.newTile n e none with latched := s.loadDev (dWord e.desc 3) 64 } := ⟨_, rfl⟩
  have hcores : v.cores = s.cores := hv ▸ s.cores_tileTaken e
  have hacc : State.acceptUpdate n e (s.tileTaken e) = v.addTile n x := by
    have hlost : v.lostNow = none := State.lostNow_of_none (by rw [hmem]; exact hfound)
    unfold State.acceptUpdate
    rw [← hv, hlost, State.loadDev_congr hmem, hx]
    rfl
  obtain ⟨hc, hsc, hsync, hframe⟩ := State.claim_takes State.acceptUpdate hfound h hok ((State.acceptUpdate_runs ..).mono rfl)
  rw [hacc] at hc hsc
  have hvok : CoresOk v := State.coresOk_of_cores (State.twf_cores hw) hcores
  obtain ⟨⟨y, htook⟩, -, -⟩ := State.addTile_takes hvok n x
  have hdesc : x.desc = e.desc := by rw [hx]; rfl
  have hy : y = x.plain := htook.of_fixed (by rw [show x.plain.desc = e.desc from hdesc, hty]; decide)
  rw [hy] at htook
  refine ⟨x.plain, State.takes_of hw hvok (.of_cores hcores) (congrArg Core.tiles (State.core_congr hcores n)) (congrArg State.sched hv)
    (by rw [hx]; rfl) (by rw [hx]; rfl) hc hsc htook, ?_, hdesc,
    hsync, hframe⟩
  rw [hx]
  rfl

/-! MATMUL tiles (R89, R101). -/

/-- The slot in which a MATMUL tile begins. -/
def State.newSlot (s : State) (n : Nat) (e : Entry) : Slot :=
  { st := .init, ctx := e.ctx, chain := dChain e.desc, tile := dTileId e.desc, intView := s.intTile n e, terms := 0, entries := [] }

/-- A MATMUL tile takes slot `i`, which has become `z`. -/
theorem State.claim_takes_matmul {i : Nat} {z : Slot} (h : s.Claims n 0 e) (hok : (s.tileTaken e).refusal n e = 0)
    (hacc : State.acceptMatmul n e (s.tileTaken e) =
      ((s.tileTaken e).setCore n ((s.core n).setSlot i z)).addTile n ((s.tileTaken e).newTile n e (some i)))
    (hz : z ≠ .free) :
    let t := s.claim n 0 State.acceptMatmul
    ∃ x, s.Takes t n e x ∧ x.desc = e.desc ∧ x.slot = some i ∧ z.Began ((t.core n).slot i) ∧
      (x.stage = .computing → ((t.core n).slot i).st ≠ .init) ∧ t.sync = (s.tileTaken e).sync ∧
      Frame [.cores, .sched, .sync, .urn, .fab, .router, .obj, .tele] s t := by
  intro t
  obtain ⟨v, hv⟩ : ∃ v, v = s.tileTaken e := ⟨_, rfl⟩
  obtain ⟨x, hx⟩ : ∃ x, x = v.newTile n e (some i) := ⟨_, rfl⟩
  obtain ⟨u, hu⟩ : ∃ u, u = v.setCore n ((s.core n).setSlot i z) := ⟨_, rfl⟩
  have hcores : v.cores = s.cores := hv ▸ s.cores_tileTaken e
  have hsok : CoresOk s := State.twf_cores hw
  have huok : CoresOk u := hu ▸ (State.coresOk_of_cores hsok hcores).setCore n _
  have hucore : u.core n = (s.core n).setSlot i z := by rw [hu, State.core_setCore_self hsok hcores]
  obtain ⟨hc, hsc, hsync, hframe⟩ := State.claim_takes State.acceptMatmul hfound h hok ((State.acceptMatmul_runs ..).mono rfl)
  rw [hacc, ← hv, ← hx, ← hu] at hc hsc
  obtain ⟨⟨y, htook⟩, -, -⟩ := State.addTile_takes huok n x
  have hslot : y.slot = some i := by
    rw [htook.assigned.slot, hx]
    rfl
  have hdesc : y.desc = e.desc := by
    rw [htook.assigned.desc, hx]
    rfl
  have hcore : t.core n = (u.addTile n x).core n := State.core_congr hc n
  have huother : OtherCores n s u := hu ▸ State.otherCores_setCore hsok hcores n _
  have husched : u.sched = (s.tileTaken e).sched := by rw [hu, hv]; rfl
  refine ⟨y, State.takes_of hw huok huother (by rw [hucore]; rfl) husched (by rw [hx]; rfl) (by rw [hx]; rfl) hc hsc htook,
    hdesc, hslot, ?_, fun hst => ?_, hsync, hframe⟩
  · have hbegan := htook.slots i
    rw [hucore, Core.slot_setSlot_self _ _ hz, ← hcore] at hbegan
    exact hbegan
  · rw [hcore]
    exact htook.begun i hst hslot

theorem State.claim_takes_fresh (h : s.Claims n 0 e) (hok : (s.tileTaken e).refusal n e = 0) {i : Nat} (hmode : dAccMode e.desc ≠ 2)
    (hfree : (s.core n).freeSlot = some i) :
    let t := s.claim n 0 State.acceptMatmul
    ∃ x, s.Takes t n e x ∧ x.desc = e.desc ∧ x.slot = some i ∧ ((t.core n).slot i).st ∈ [SlotSt.init, .accumulating] ∧
      (x.stage = .computing → ((t.core n).slot i).st = .accumulating) ∧ ((t.core n).slot i).entries = [] ∧
      ((t.core n).slot i).terms = 0 ∧ ((t.core n).slot i).ctx = e.ctx ∧ ((t.core n).slot i).chain = dChain e.desc ∧
      t.sync = (s.tileTaken e).sync ∧ Frame [.cores, .sched, .sync, .urn, .fab, .router, .obj, .tele] s t := by
  intro t
  obtain ⟨z, hz⟩ : ∃ z, z = (s.tileTaken e).newSlot n e := ⟨_, rfl⟩
  have hzst : z.st = .init := by rw [hz]; rfl
  have hacc : State.acceptMatmul n e (s.tileTaken e) =
      ((s.tileTaken e).setCore n ((s.core n).setSlot i z)).addTile n ((s.tileTaken e).newTile n e (some i)) := by
    unfold State.acceptMatmul
    dsimp only
    rw [if_neg hmode, if_neg hmode, State.core_congr (s.cores_tileTaken e), hfree, hz]
    rfl
  obtain ⟨x, htakes, hdesc, hslot, hbegan, hst, hsync, hframe⟩ := State.claim_takes_matmul hw hfound h hok hacc
    (Slot.ne_free (by rw [hzst]; decide))
  refine ⟨x, htakes, hdesc, hslot, ?_⟩
  have hfields : ((t.core n).slot i).entries = z.entries ∧ ((t.core n).slot i).terms = z.terms ∧ ((t.core n).slot i).ctx = z.ctx ∧
      ((t.core n).slot i).chain = z.chain := by
    obtain heq | ⟨-, heq⟩ := hbegan
    · rw [heq]
      exact ⟨rfl, rfl, rfl, rfl⟩
    · rw [heq]
      exact ⟨rfl, rfl, rfl, rfl⟩
  have hsts : ((t.core n).slot i).st = .init ∨ ((t.core n).slot i).st = .accumulating := by
    obtain heq | ⟨-, heq⟩ := hbegan
    · exact .inl (by rw [heq, hzst])
    · exact .inr (by rw [heq])
  obtain ⟨hentries, hterms, hctx, hchain⟩ := hfields
  rw [hz] at hentries hterms hctx hchain
  refine ⟨?_, fun hcomp => hsts.resolve_left (hst hcomp), hentries, hterms, hctx, hchain, hsync, hframe⟩
  obtain hi | ha := hsts
  · rw [hi]
    decide
  · rw [ha]
    decide

theorem State.claim_takes_chain (h : s.Claims n 0 e) (hok : (s.tileTaken e).refusal n e = 0) {i : Nat} (hmode : dAccMode e.desc = 2)
    (hchain : (s.core n).chainSlot e.ctx (dChain e.desc) = some i) :
    let t := s.claim n 0 State.acceptMatmul
    ∃ x, s.Takes t n e x ∧ x.desc = e.desc ∧ x.slot = some i ∧
      (t.core n).slot i = { (s.core n).slot i with st := .accumulating, tile := dTileId e.desc } ∧ t.sync = (s.tileTaken e).sync ∧
      Frame [.cores, .sched, .sync, .urn, .fab, .router, .obj, .tele] s t := by
  intro t
  obtain ⟨z, hz⟩ : ∃ z : Slot, z = { (s.core n).slot i with st := .accumulating, tile := dTileId e.desc } := ⟨_, rfl⟩
  have hzst : z.st = .accumulating := by rw [hz]
  have hacc : State.acceptMatmul n e (s.tileTaken e) =
      ((s.tileTaken e).setCore n ((s.core n).setSlot i z)).addTile n ((s.tileTaken e).newTile n e (some i)) := by
    unfold State.acceptMatmul
    dsimp only
    rw [if_pos hmode, if_pos hmode, State.core_congr (s.cores_tileTaken e), hchain, hz]
    rfl
  obtain ⟨x, htakes, hdesc, hslot, hbegan, -, hsync, hframe⟩ := State.claim_takes_matmul hw hfound h hok hacc
    (Slot.ne_free (by rw [hzst]; decide))
  have hsame : (t.core n).slot i = z := hbegan.of_ne (by rw [hzst]; decide)
  exact ⟨x, htakes, hdesc, hslot, hsame.trans hz, hsync, hframe⟩

end

end Sys2Proof.Machine
end


-- ==== Sys2Proof/Proofs/TileClaims.lean ====
section
/-!
PROOF. POST tiles, refusals and failed waits at a claim (R107, R109, R111, R187, R494).
-/

namespace Sys2Proof.Machine

/-! Posting (R109 to R111). -/

section
variable {s u : State} {c target : Nat} {d : WorkDesc}

/-- A descriptor posted: of the state, the lists alone have changed, and the next post sequence number. -/
theorem State.post_eq (h : s.post c target d = some u) :
    ∃ q, u = s.setSched q ∧ q.nextSeq = (s.sched.nextSeq + 1) % 2 ^ 48 := by
  unfold State.post at h
  dsimp only at h
  generalize (if target = 4 then s.anyDie else target) = die at h
  split at h
  · obtain rfl := Option.some.inj h
    exact ⟨_, rfl, rfl⟩
  · split at h
    · obtain rfl := Option.some.inj h
      exact ⟨_, rfl, rfl⟩
    · cases h

/-- Whether there is room for a descriptor depends on the lists alone. -/
theorem State.post_none_congr (h : u.sched = s.sched) (hfull : s.post c target d = none) : u.post c target d = none := by
  have hdie : (if target = 4 then u.anyDie else target) = (if target = 4 then s.anyDie else target) := by
    have hread : u.anyDie = State.anyDie (s.setSched u.sched) := rfl
    rw [hread, h]
    rfl
  have hroom : u.overRoom c = s.overRoom c := by
    have hread : u.overRoom c = State.overRoom (s.setSched u.sched) c := rfl
    rw [hread, h]
    rfl
  unfold State.post at hfull ⊢
  dsimp only at hfull ⊢
  rw [hdie, hroom, State.dieList_congr h]
  generalize (if target = 4 then s.anyDie else target) = die at hfull ⊢
  split at hfull
  · cases hfull
  · split at hfull
    · cases hfull
    case isFalse hlist hover => rw [if_neg hlist, if_neg hover]

end

/-! What a tile reads does not depend on the lists. -/

section
variable (s : State) (q : Sched)

theorem State.loadDev_sched (a n : Nat) : (s.setSched q).loadDev a n = s.loadDev a n :=
  State.loadDev_congr (s := s) (t := s.setSched q) rfl a n

theorem State.redirect_sched (c : Option Nat) (t : Tens) : (s.setSched q).redirect c t = s.redirect c t := by
  unfold State.redirect
  dsimp only
  rw [s.loadDev_sched q]
  rfl

theorem State.source_sched (core ctx seq : Nat) (evalC : Option Nat) (bad : Bool) (t : Tens) (a n : Nat) :
    (s.setSched q).source core ctx seq evalC bad t a n = s.source core ctx seq evalC bad t a n := by
  have hmapped : (s.setSched q).anyUnmapped = s.anyUnmapped := funext fun a => funext fun n => State.anyUnmapped_congr (s := s) (t := s.setSched q) rfl a n
  have hpoison : (s.setSched q).anyPoison = s.anyPoison := funext fun a => funext fun n => State.anyPoison_congr (s := s) (t := s.setSched q) rfl a n
  unfold State.source
  dsimp only
  rw [s.redirect_sched q, hmapped, hpoison]
  simp only [s.loadDev_sched q]
  rfl

theorem State.nextRow_sched (x : Tile) : (s.setSched q).nextRow x = s.nextRow x := by
  unfold State.nextRow State.tensAt
  dsimp only
  rw [s.loadDev_sched q, s.source_sched q]
  rfl
end

/-- What posting rows has come to: the tile at a row `y.row`, the lists at `q`. -/
structure Posted (s : State) (x : Tile) (q : Sched) (y : Tile) : Prop where
  same : ({ y with row := x.row, causes := x.causes, stage := x.stage } : Tile) = x
  row : x.row ≤ y.row ∧ y.row ≤ x.mEff
  seq : q.nextSeq = s.sched.nextSeq + (y.row - x.row)
  done : y.row = x.mEff → y.stage = .storing
  waits : y.row < x.mEff → y.stage = .posting ∧
    (s.setSched q).post x.ctx (postTarget x) (s.nextRow y) = none

theorem postRows_posted (k : Nat) (s : State) (x : Tile) (hrow : x.row ≤ x.mEff) (hk : x.mEff < x.row + k)
    (hseq : s.sched.nextSeq + (x.mEff - x.row) < 2 ^ 48) :
    ∃ q y, postRows k s x = (s.setSched q, y) ∧ Posted s x q y := by
  induction k generalizing s x with
  | zero => omega
  | succ k ih =>
    unfold postRows
    by_cases hend : x.mEff ≤ x.row
    · rw [if_pos hend]
      exact ⟨s.sched, { x with stage := .storing }, rfl, rfl, ⟨Nat.le_refl _, hrow⟩, by simp, fun _ => rfl,
        fun h => absurd hend (Nat.not_le.mpr h)⟩
    · rw [if_neg hend]
      dsimp only
      split
      case h_2 hfull =>
        exact ⟨s.sched, { x with stage := .posting }, rfl, rfl, ⟨Nat.le_refl _, hrow⟩, by simp, fun h => absurd h (by dsimp only; omega),
          fun _ => ⟨rfl, hfull⟩⟩
      case h_1 u hpost =>
        obtain ⟨q, rfl, hq⟩ := State.post_eq hpost
        obtain ⟨x', hx'⟩ : ∃ x' : Tile, x' = { x with
            row := x.row + 1
            causes := x.causes ++ (s.source 0 x.ctx x.seq x.evalC false (s.tensAt (dWord x.desc 2))
              ((s.tensAt (dWord x.desc 2)).base + (dRow0 x.desc + x.row) * (s.tensAt (dWord x.desc 2)).stride1) 128).2.map
              (fun c => (c, 2)) } := ⟨_, rfl⟩
        rw [← hx']
        have hrow' : x'.row = x.row + 1 := by rw [hx']
        have hm' : x'.mEff = x.mEff := by rw [hx']
        have hqs : q.nextSeq = s.sched.nextSeq + 1 := by omega
        have hlimit : (s.setSched q).sched.nextSeq + (x'.mEff - x'.row) < 2 ^ 48 := by
          rw [show (s.setSched q).sched.nextSeq = q.nextSeq from rfl]
          omega
        obtain ⟨q', y, heq, hy⟩ := ih (s.setSched q) x' (by omega) (by omega) hlimit
        have hctx : x'.ctx = x.ctx := by rw [hx']
        have htarget : postTarget x' = postTarget x := by rw [hx']; rfl
        obtain ⟨hle, hle'⟩ := hy.row
        have hyseq : q'.nextSeq = q.nextSeq + (y.row - x'.row) := hy.seq
        refine ⟨q', y, heq, ?_, ⟨by omega, by omega⟩, by omega, fun h => hy.done (h.trans hm'.symm), fun h => ?_⟩
        · have hsame := congrArg (fun z : Tile => { z with row := x.row, causes := x.causes, stage := x.stage }) hy.same
          rw [hx'] at hsame
          exact hsame
        · obtain ⟨hst, hfull⟩ := hy.waits (by omega)
          rw [hctx, htarget, s.nextRow_sched q] at hfull
          exact ⟨hst, hfull⟩

/-! The acceptance of a POST tile (R109). -/

/-- A tile that no check refuses has at most 128 rows. -/
theorem State.rows_of_accepted {v : State} {n : Nat} {e : Entry} (h : v.refusal n e = 0) : dM e.desc ≤ 128 := by
  have h17 : v.refusal17 n e = 0 := by
    by_contra hne
    unfold State.refusal at h
    dsimp only at h
    rw [if_pos hne] at h
    exact hne h
  have hitem : v.itemReserved e.ctx e.desc = false := by
    by_contra hne
    rw [Bool.not_eq_false] at hne
    unfold State.refusal17 at h17
    dsimp only at h17
    split at h17
    · exact absurd h17 (by decide)
    · split at h17
      · exact absurd h17 (by decide)
      · exact absurd h17 (by decide)
  have hcommon : commonReserved e.desc = false := (Bool.or_eq_false_iff.mp hitem).1
  unfold commonReserved at hcommon
  simp only [Bool.or_eq_false_iff, decide_eq_false_iff_not] at hcommon
  omega

theorem State.shaped_le (v : State) (d : WorkDesc) (lo stat origin : Nat) : v.shaped d lo stat origin ≤ stat := by
  unfold State.shaped
  dsimp only
  split
  · exact Nat.min_le_left _ _
  · exact Nat.le_refl _

section
variable {s : State} {n : Nat} {e : Entry} (hw : s.wf = true) (hfound : s.mem.found = [])
include hw hfound

omit hw hfound in
theorem State.nextSeq_tileTaken (s : State) (e : Entry) : (s.tileTaken e).sched.nextSeq = s.sched.nextSeq := by
  have hwaits : (s.tileTaken e).sched = (s.notice.unlist e).sched := (State.takeWaits_runs ..).same .sched rfl
  have hasks (xs : List Entry) (t : State) : (xs.foldl (fun s e => s.askCredit e) t).sched = t.sched := by
    have hruns : Runs [.urn, .router] t (xs.foldl (fun s e => s.askCredit e) t) :=
      .foldl (fun _ _ => State.askCredit_runs ..) _ (.refl t)
    exact hruns.same .sched rfl
  have hnotice : s.notice.sched = s.markReady.sched := hasks _ s.markReady
  rw [hwaits]
  have hunlist : (s.notice.unlist e).sched.nextSeq = s.notice.sched.nextSeq := rfl
  rw [hunlist, hnotice]
  rfl

theorem State.claim_takes_post (h : s.Claims n 7 e) (hok : (s.tileTaken e).refusal n e = 0) (hty : dType e.desc = 7)
    (hst : ((s.tileTaken e).newTile n e none).status = 0) (hseq : s.sched.nextSeq < 2 ^ 47) :
    let t := s.claim n 7 State.acceptPost
    ∃ x, (t.core n).tiles.getLast? = some x ∧ x.desc = e.desc ∧ x.row ≤ x.mEff ∧ t.sched.nextSeq = s.sched.nextSeq + x.row ∧
      (x.row = x.mEff → x.stage = .storing) ∧
      (x.row < x.mEff → x.stage = .posting ∧ t.post e.ctx (postTarget x)
        (descOf ((s.tileTaken e).source 0 e.ctx e.seq x.evalC false (s.tensAt (dWord e.desc 2))
          ((s.tensAt (dWord e.desc 2)).base + (dRow0 e.desc + x.row) * (s.tensAt (dWord e.desc 2)).stride1) 128).1) = none) ∧
      OtherCores n s t ∧ Frame [.cores, .sched, .sync, .urn, .fab, .router, .obj, .tele] s t := by
  intro t
  have hvseq := s.nextSeq_tileTaken e
  obtain ⟨v, hv⟩ : ∃ v, v = s.tileTaken e := ⟨_, rfl⟩
  rw [← hv] at hst hvseq hok
  have hmem : v.mem = s.mem := hv ▸ (s.tileTaken_runs e).same .mem rfl
  have hcores : v.cores = s.cores := hv ▸ s.cores_tileTaken e
  obtain ⟨x, hx⟩ : ∃ x, x = v.newTile n e none := ⟨_, rfl⟩
  have hxrow : x.row = 0 := by rw [hx]; rfl
  have hxm : x.mEff ≤ 128 := by
    rw [hx]
    exact (v.shaped_le ..).trans (State.rows_of_accepted hok)
  obtain ⟨q, y, hrows, hy⟩ := postRows_posted 129 v x (by omega) (by omega) (by omega)
  have hacc : State.acceptPost n e (s.tileTaken e) = (v.setSched q).addTile n y := by
    unfold State.acceptPost
    rw [← hv, ← hx]
    dsimp only
    rw [if_neg (by rw [hx, hst]; decide), hrows]
  obtain ⟨hc, hsc, -, hframe⟩ := State.claim_takes State.acceptPost hfound h (hv ▸ hok) ((State.acceptPost_runs ..).mono rfl)
  rw [hacc] at hc hsc
  have huok : CoresOk (v.setSched q) := State.coresOk_of_cores (State.twf_cores hw) hcores
  obtain ⟨⟨z, htook⟩, hother, hsame⟩ := State.addTile_takes huok n y
  have hyx : y.desc = x.desc ∧ y.ctx = x.ctx ∧ y.seq = x.seq ∧ y.die = x.die ∧ y.mEff = x.mEff :=
    ⟨(congrArg Tile.desc hy.same :), (congrArg Tile.ctx hy.same :), (congrArg Tile.seq hy.same :), (congrArg Tile.die hy.same :),
      (congrArg Tile.mEff hy.same :)⟩
  obtain ⟨hydesc, hyctx, hyseqx, hydie, hm⟩ := hyx
  have hdesc : y.desc = e.desc := hydesc.trans (by rw [hx]; rfl)
  have hzy : z = y.plain := htook.of_fixed (by rw [show y.plain.desc = e.desc from hdesc, hty]; decide)
  have hctx : y.ctx = e.ctx := hyctx.trans (by rw [hx]; rfl)
  have hyseq : y.seq = e.seq := hyseqx.trans (by rw [hx]; rfl)
  have hxctx : x.ctx = e.ctx := by rw [hx]; rfl
  have htarget : postTarget y = postTarget x := by
    rw [postTarget, postTarget, hydesc, hydie]
  have hsched : t.sched = q := hsc.trans hsame
  refine ⟨y.plain, ?_, hdesc, ?_, ?_, fun hend => hy.done (hend.trans hm), fun hless => ?_, ?_, hframe⟩
  · rw [State.core_congr hc, ← hzy]
    exact htook.last
  · exact (hy.row.2.trans_eq hm.symm : y.row ≤ y.mEff)
  · rw [hsched, hy.seq, hvseq, hxrow]
    rfl
  · obtain ⟨hpost, hfull⟩ := hy.waits (lt_of_lt_of_eq hless hm)
    refine ⟨hpost, ?_⟩
    have htens : s.tensAt (dWord e.desc 2) = v.tensAt (dWord e.desc 2) := by
      rw [State.tensAt, State.tensAt, State.loadDev_congr hmem]
    have hrow : v.nextRow y = descOf (v.source 0 e.ctx e.seq y.evalC false (v.tensAt (dWord e.desc 2))
        ((v.tensAt (dWord e.desc 2)).base + (dRow0 e.desc + y.row) * (v.tensAt (dWord e.desc 2)).stride1) 128).1 := by
      rw [State.nextRow, State.lostNow_of_none (by rw [hmem]; exact hfound), hdesc, hctx, hyseq]
      rfl
    rw [htens, ← hv]
    rw [hrow, hxctx, ← htarget] at hfull
    exact State.post_none_congr (s := v.setSched q) hsched hfull
  · intro m hmn
    rw [State.core_congr hc, hother m hmn]
    exact State.core_congr hcores m

/-! Refusals and failed waits (R187, R494). -/

omit hw hfound in
theorem State.refusal_status (v : State) (n : Nat) (e : Entry) : v.refusal n e = 0 ∨ 0x10 ≤ v.refusal n e := by
  have h17 := v.refusal17_status n e
  unfold State.refusal
  dsimp only
  split
  · exact h17
  · split
    · exact .inr (by decide)
    · split
      · split
        · split
          · exact .inr (by decide)
          · exact .inl rfl
        · exact .inl rfl
      · exact .inl rfl

omit hfound in
/-- An entry that has left its list ends with a failing status. -/
theorem State.finish_unlisted {u : State} {c : Cpl} (hruns : Runs [.sched, .sync, .urn, .fab, .router] s u)
    (hst : 0x10 ≤ c.status) (hfl : c.flags = 0) (hctx : c.ctx = e.ctx) (hgone : ∀ y ∈ u.dieList e.die, y.seq ≠ e.seq) :
    let t := u.finish c
    let q := s.page e.ctx
    let a := s.ov (cplRingBaseId + e.ctx) + 32 * q.cplTail
    t.cores = s.cores ∧ (∀ y ∈ t.dieList e.die, y.seq ≠ e.seq) ∧ s.Failed t e.ctx ∧
      ((q.cplTail + 1) % s.ov (cplRingEntriesId + e.ctx) ≠ q.cplHead → s.anyUnmapped a 32 = false →
        t.memByte (a + 4) = BitVec.ofNat 8 c.status) ∧
      Frame [.sched, .sync, .mem, .urn, .fab, .router, .host, .steps, .obj, .out] s t := by
  intro t q a
  have hfin : Runs [.sync, .mem, .fab, .router, .host, .steps, .obj, .out] u t := State.finish_runs ..
  have hsteps : u.steps = s.steps := hruns.same .steps rfl
  have hobj : u.obj = s.obj := hruns.same .obj rfl
  have hmem : u.mem = s.mem := hruns.same .mem rfl
  have hq : u.page e.ctx = q := State.page_congr (hruns.same .host rfl) e.ctx
  refine ⟨?_, fun y hy => ?_, ?_, fun hroom hmap => ?_, (Runs.trans (hruns.mono rfl) (hfin.mono rfl)).frame⟩
  · have h1 : t.cores = u.cores := hfin.same .cores rfl
    have h2 : u.cores = s.cores := hruns.same .cores rfl
    exact h1.trans h2
  · rw [State.dieList_congr (hfin.same .sched rfl)] at hy
    exact hgone y hy
  · have hfails : u.Failed t c.ctx := State.finish_fails hst hfl (by rw [StepsOk, hsteps]; exact State.twf_steps hw)
    rw [hctx] at hfails
    intro hon hrun
    refine hfails ?_ ?_
    · rw [State.stepsOn, State.ov_congr hobj]
      exact hon
    · rw [State.stp_congr hsteps]
      exact hrun
  · have hrec := State.finish_records (s := u) (c := c) hst hfl (hruns.wf hw)
    rw [hctx, hq, State.ov_congr hobj, State.ov_congr hobj, State.anyUnmapped_congr (congrArg Mem.gddr hmem)] at hrec
    exact (hrec hroom).2 hmap

end

/-! O41. -/

/-- The commands that claim a tile, their TYPE, and how each accepts it. -/
def claimRows (n : Nat) : List ((Instr × Nat) × (Nat → Entry → State → State)) :=
  [((.matmul n, 0), State.acceptMatmul), ((.vector n, 1), State.acceptPlain), ((.copy n, 2), State.acceptPlain),
    ((.emit n, 3), State.acceptEmit), ((.update n, 4), State.acceptUpdate), ((.send n, 5), State.acceptPlain),
    ((.post n, 7), State.acceptPost)]

theorem exec_claim {s : State} {n : Nat} (hn : n < 256) {p : Instr × Nat} (hp : p ∈ (claimRows n).map (·.1)) :
    ∃ accept, exec p.1 s = .next (s.claim n p.2 accept) := by
  obtain ⟨r, hr, rfl⟩ := List.mem_map.mp hp
  refine ⟨r.2, ?_⟩
  simp only [claimRows, List.mem_cons, List.not_mem_nil, or_false] at hr
  obtain rfl | rfl | rfl | rfl | rfl | rfl | rfl := hr <;> exact need_of (decide_eq_true hn) _

/-- Settles O41: one claim, by what becomes of the tile chosen: accepted by its TYPE, refused, withdrawn, or left to ask for its
header. -/
theorem tilesAreAccepted : Obligations.TilesAreAccepted := by
  intro s n e hw hn hfound types v d parts
  have hclaims {p : Instr × Nat} (hty : dType d = p.2 ∨ 8 ≤ dType d) (hwaits : s.notice.badWait n p.2 = none)
      (hchosen : s.notice.choose n = some e) (hhere : (s.notice.hdrCauses n e).any (fun c => isMiss c.1) = false) :
      s.Claims n p.2 e := ⟨hwaits, hchosen, hty, hhere⟩
  refine ⟨fun hchosen hhere hok => ⟨fun p hp hty hwaits => ?_, fun hty hwaits => ?_, fun hty hwaits hst hseq => ?_,
      fun hty hwaits => ⟨fun i hmode hfree => ?_, fun i hmode hchain => ?_⟩⟩, fun hchosen hhere hno p hp hty hwaits => ?_,
    fun p hp c hbad => ?_, fun hchosen hmiss p hp hty hwaits => ?_⟩
  · have hne : dType d ≠ 0 := by
      simp only [List.mem_cons, List.not_mem_nil, or_false] at hp
      obtain rfl | rfl | rfl := hp <;> rw [hty] <;> exact Nat.succ_ne_zero _
    have hexec : exec p.1 s = .next (s.claim n p.2 State.acceptPlain) := by
      simp only [List.mem_cons, List.not_mem_nil, or_false] at hp
      obtain rfl | rfl | rfl := hp <;> exact need_of (decide_eq_true hn) _
    obtain ⟨htakes, hsync, hframe⟩ := State.claim_takes_plain hw hfound (hclaims (.inl hty) hwaits hchosen hhere) hok hne
    exact ⟨_, _, hexec, htakes, rfl, hsync, hframe⟩
  · obtain ⟨x, hx⟩ := State.claim_takes_update hw hfound ⟨hwaits, hchosen, .inl hty, hhere⟩ hok hty
    exact ⟨_, x, need_of (decide_eq_true hn) _, hx⟩
  · obtain ⟨x, hx⟩ := State.claim_takes_post hw hfound ⟨hwaits, hchosen, .inl hty, hhere⟩ hok hty hst hseq
    exact ⟨_, x, need_of (decide_eq_true hn) _, hx⟩
  · obtain ⟨x, hx⟩ := State.claim_takes_fresh hw hfound ⟨hwaits, hchosen, .inl hty, hhere⟩ hok hmode hfree
    exact ⟨_, x, need_of (decide_eq_true hn) _, hx⟩
  · obtain ⟨x, hx⟩ := State.claim_takes_chain hw hfound ⟨hwaits, hchosen, .inl hty, hhere⟩ hok hmode hchain
    exact ⟨_, x, need_of (decide_eq_true hn) _, hx⟩
  · obtain ⟨accept, hexec⟩ := exec_claim (s := s) hn hp
    rw [State.claim_refuses accept (hclaims hty hwaits hchosen hhere) hno] at hexec
    have hdrop : Runs [.sched, .sync, .urn, .fab, .router] s ((s.tileTaken e).dropTileReqs n e.ctx e.seq) :=
      Runs.comp (State.dropTileReqs_runs ..) rfl ((s.tileTaken_runs e).mono rfl)
    exact ⟨_, hexec, State.finish_unlisted hw hdrop ((v.refusal_status n e).resolve_left hno) rfl rfl
      fun y hy => State.seq_tileTaken hw hy⟩
  · obtain ⟨accept, hexec⟩ := exec_claim (s := s) hn hp
    rw [State.claim_withdraws accept hbad] at hexec
    have hunlist : Runs [.sched, .sync, .urn, .fab, .router] s (s.notice.unlist e) :=
      Runs.comp (State.unlist_runs ..) rfl ((State.notice_runs s).mono rfl)
    have hstatus : 0x10 ≤ (cplOf e n stDefective (c + 9 * 256) (s.notice.ftRead hubPs)).status := Nat.le_refl 0x10
    have hlists := State.twf_lists ((State.notice_runs s).wf hw)
    obtain ⟨hcores, hgone, hfailed, -, hframe⟩ := State.finish_unlisted hw hunlist hstatus rfl rfl
      fun y hy => State.seq_unlist hlists hy
    exact ⟨_, hexec, hcores, hgone, hfailed, hframe⟩
  · obtain ⟨accept, hexec⟩ := exec_claim (s := s) hn hp
    rw [State.claim_asks accept hwaits hchosen hty hmiss] at hexec
    have hasks : Runs [.fab, .router] s.notice (s.notice.askPeer n e.ctx e.seq (s.notice.hdrCauses n e)) := State.askPeer_runs ..
    exact ⟨_, hexec, hasks.same .sched rfl, (Runs.trans ((State.notice_runs s).mono rfl) (hasks.mono rfl) :
      Runs [.sched, .urn, .fab, .router] s _).frame⟩

end Sys2Proof.Machine
end


-- ==== Sys2Proof/Proofs/RedKeys.lean ====
section
/-!
PROOF. The keys of the reduction units (R276), and what of the state a ring is read from (R263 to R266).
-/

namespace Sys2Proof.Machine

/-! Keys. -/

theorem RedKey.is_iff {k : RedKey} {c g tag : Nat} : k.is c g tag = true ↔ k.ctx = c ∧ k.group = g ∧ k.tag = tag := by
  simp only [RedKey.is, Bool.and_eq_true, beq_iff_eq, and_assoc]

theorem RedKey.is_self (k : RedKey) : k.is k.ctx k.group k.tag = true := RedKey.is_iff.mpr ⟨rfl, rfl, rfl⟩

theorem State.redKey_congr {s t : State} (h : t.red.keys = s.red.keys) (c g tag : Nat) : t.redKey c g tag = s.redKey c g tag := by
  rw [State.redKey, h, State.redKey]

theorem State.keyClosed_congr {s t : State} {c : Nat} (h : t.redc c = s.redc c) (g tag : Nat) :
    t.keyClosed c g tag = s.keyClosed c g tag := by rw [State.keyClosed, h, State.keyClosed]

theorem State.redc_congr {s t : State} (h : t.red.ctx = s.red.ctx) (c : Nat) : t.redc c = s.redc c := by
  rw [State.redc, h, State.redc]

theorem State.is_of_redKey {s : State} {c g tag : Nat} {k : RedKey} (h : s.redKey c g tag = some k) : k.is c g tag = true :=
  (List.mem_filter.mp (List.mem_of_mem_head? h)).2

theorem head?_filter_map_replace {p : RedKey → Bool} {k : RedKey} (hk : p k = true) {xs : List RedKey} (hany : xs.any p = true) :
    ((xs.map (fun x => if p x then k else x)).filter p).head? = some k := by
  induction xs with
  | nil => cases hany
  | cons x xs ih =>
    rw [List.map_cons]
    by_cases hx : p x = true
    · rw [if_pos hx, List.filter_cons_of_pos hk, List.head?_cons]
    · rw [if_neg hx, List.filter_cons_of_neg hx]
      rw [List.any_cons, Bool.or_eq_true] at hany
      exact ih (hany.resolve_left hx)

theorem State.redKey_putKey (s : State) {k : RedKey} {c g tag : Nat} (hk : k.is c g tag = true) :
    (s.putKey k).redKey c g tag = some k := by
  obtain ⟨hc, hg, htag⟩ := RedKey.is_iff.mp hk
  subst hc hg htag
  unfold State.putKey
  split
  case isTrue hany => exact head?_filter_map_replace (p := (·.is k.ctx k.group k.tag)) k.is_self hany
  case isFalse hany =>
    have hnone : s.red.keys.filter (·.is k.ctx k.group k.tag) = [] :=
      List.filter_eq_nil_iff.mpr fun x hx hxk => hany (List.any_eq_true.mpr ⟨x, hx, hxk⟩)
    rw [State.redKey, show (s.setRed { s.red with keys := s.red.keys ++ [k] }).red.keys = s.red.keys ++ [k] from rfl,
      List.filter_append, hnone, List.nil_append, List.filter_cons_of_pos (p := fun x : RedKey => x.is k.ctx k.group k.tag) k.is_self, List.head?_cons]

theorem State.redKey_dropKey (s : State) (k : RedKey) : (s.dropKey k).redKey k.ctx k.group k.tag = none := by
  rw [State.redKey, show (s.dropKey k).red.keys = s.red.keys.filter (fun x => !(x.is k.ctx k.group k.tag)) from rfl,
    List.filter_filter, List.head?_eq_none_iff, List.filter_eq_nil_iff]
  intro x _ hx
  cases hk : x.is k.ctx k.group k.tag <;> simp [hk] at hx

theorem State.ctx_putKey (s : State) (k : RedKey) : (s.putKey k).red.ctx = s.red.ctx := by
  unfold State.putKey
  split <;> rfl

section
variable {s : State} (hw : s.wf = true) (k : RedKey)
include hw

/-- A key that ends is closed: later packets of it are stale. -/
theorem State.closeKey_ends :
    (s.closeKey k).redKey k.ctx k.group k.tag = none ∧ (s.closeKey k).keyClosed k.ctx k.group k.tag = true ∧
      ((s.closeKey k).redc k.ctx).sent = (s.redc k.ctx).sent ∧ (s.closeKey k).red.errLog = s.red.errLog := by
  obtain ⟨u, hu⟩ : ∃ u, u = s.giveBufs k k.buffers := ⟨_, rfl⟩
  have huruns : Runs [.urn] s u := hu ▸ s.giveBufs_runs k _
  have hred : u.red = s.red := huruns.same .red rfl
  have heq : s.closeKey k = (u.dropKey k).modRedc k.ctx (fun c => { c with closed := (k.group, k.tag) :: c.closed }) := by
    rw [hu]
    rfl
  have hredc : ((s.closeKey k).redc k.ctx) = { s.redc k.ctx with closed := (k.group, k.tag) :: (s.redc k.ctx).closed } := by
    have hsame : (u.dropKey k).redc k.ctx = s.redc k.ctx := State.redc_congr (congrArg Red.ctx hred) _
    rw [heq, State.modRedc, State.redc_setRedc (State.twf_redc ((Runs.comp (u.dropKey_runs k) rfl (huruns.mono rfl) :
      Runs [.urn, .red] s (u.dropKey k)).wf hw)), if_pos rfl, hsame]
  refine ⟨?_, ?_, by rw [hredc], ?_⟩
  · rw [heq]
    exact u.redKey_dropKey k
  · rw [State.keyClosed, hredc]
    exact List.contains_iff_mem.mpr List.mem_cons_self
  · rw [heq]
    have hlog : u.red.errLog = s.red.errLog := congrArg Red.errLog hred
    exact hlog

end

/-! Rings. -/

/-- What the geometry of a context's block is read from is the same. -/
structure SameBlock (c : Nat) (s t : State) : Prop where
  torus : t.ov torusDimId = s.ov torusDimId
  coord : t.ov myCoordId = s.ov myCoordId
  block : t.ov (jobBlockId + c) = s.ov (jobBlockId + c)

namespace SameBlock

variable {c : Nat} {s t u : State}

theorem refl (c : Nat) (s : State) : SameBlock c s s := ⟨rfl, rfl, rfl⟩

theorem trans (h : SameBlock c s t) (k : SameBlock c t u) : SameBlock c s u :=
  ⟨k.torus.trans h.torus, k.coord.trans h.coord, k.block.trans h.block⟩

theorem of_obj (h : t.obj = s.obj) : SameBlock c s t := ⟨State.ov_congr h _, State.ov_congr h _, State.ov_congr h _⟩

/-- Another object of the context, or of none, is written. -/
theorem setOv (s : State) {id : Nat} (v : Nat) (hid : id ≠ torusDimId ∧ id ≠ myCoordId ∧ id ≠ jobBlockId + c) :
    SameBlock c s (s.setOv id v) := by
  obtain ⟨ht, hm, hb⟩ := hid
  exact ⟨State.ov_setOv_of_ne s v ht, State.ov_setOv_of_ne s v hm, State.ov_setOv_of_ne s v hb⟩

theorem raise (s : State) (c : Nat) (f : Flags) : SameBlock c s (s.raise c f) := by
  unfold State.raise
  split
  · exact .refl c s
  · exact setOv s _ (by simp only [formatFlagsId, torusDimId, myCoordId, jobBlockId]; omega)

theorem sparseErr (s : State) (c tile op cause p0 p1 : Nat) : SameBlock c s (s.sparseErr c tile op cause p0 p1) := by
  unfold State.sparseErr
  dsimp only
  refine trans ?_ (setOv _ _ (by simp only [sparseStatusId, torusDimId, myCoordId, jobBlockId]; omega))
  split
  · exact setOv s _ (by simp only [sparseErrLogId, torusDimId, myCoordId, jobBlockId]; omega)
  · exact .refl c s

end SameBlock

theorem State.emRing_congr {s t : State} {c : Nat} (h : SameBlock c s t) (hr : t.redc c = s.redc c) (d : WorkDesc) :
    t.emRing c d = s.emRing c d := by
  have hdim (a : Nat) : t.dim a = s.dim a := by rw [State.dim, h.torus, State.dim]
  have hme : t.me = s.me := by rw [State.me, h.coord, State.me]
  have hblock : t.block c = s.block c := h.block
  have hring (g l : Nat) : t.ring c g l = s.ring c g l := by
    unfold State.ring State.blockOk State.ext State.off State.devAt State.org
    simp only [hr, hme, hblock, hdim]
  unfold State.emRing State.ringFor
  rw [hring]

end Sys2Proof.Machine
end


-- ==== Sys2Proof/Proofs/RedChunks.lean ====
section
/-!
PROOF. Arriving chunks: which are stale, held, refused, stored or added (R273, R275, R276, R326), and the deadline (R277).
-/

namespace Sys2Proof.Machine

/-! The chunk leaves the place where it waited (R159, R275, R280). -/

/-- After a chunk `p` has been treated: the first of a partial is counted, its PACE goes to the kettle, and it leaves the place
where it waited. -/
def State.received (t : State) (p : Packet) : State :=
  ((if rChunk p.body = 0 then t.modRedc p.ctx (fun c => { c with received := satAdd 32 c.received 1 }) else t).paceIn
    (rPace p.body)).redTaken p

theorem State.redReceive_of {s t : State} {p : Packet} (hlen : 24 ≤ p.body.length) (hop : p.field 0 8 = 0x70)
    (ht : s.redTreat p = some t) : s.redReceive p = t.received p := by
  have hfop : bytesField p.body 0 8 = 0x70 := hop
  unfold State.redReceive
  rw [if_neg (not_or.mpr ⟨Nat.not_lt.mpr hlen, not_not.mpr hfop⟩), ht]
  rfl

theorem State.received_runs (t : State) (p : Packet) : Runs [.kettle, .links, .router, .red] t (t.received p) := by
  refine Runs.comp (State.redTaken_runs ..) rfl (Runs.comp (State.paceIn_runs ..) rfl ?_)
  split
  · exact (State.modRedc_runs ..).mono rfl
  · exact .refl _

theorem State.received_red (t : State) (p : Packet) : { (t.received p).red with ctx := t.red.ctx } = t.red := by
  have htaken (u : State) : (u.redTaken p).red = u.red := (u.redTaken_runs p).same .red rfl
  have hpace (u : State) : (u.paceIn (rPace p.body)).red = u.red := (u.paceIn_runs _).same .red rfl
  unfold State.received
  rw [htaken, hpace]
  split <;> rfl

theorem State.red_received (t : State) (p : Packet) :
    (t.received p).red.keys = t.red.keys ∧ (t.received p).red.held = t.red.held ∧ (t.received p).red.errLog = t.red.errLog :=
  ⟨(congrArg Red.keys (t.received_red p) :), (congrArg Red.held (t.received_red p) :), (congrArg Red.errLog (t.received_red p) :)⟩

theorem dropFirst_of_notMem {p : Packet} {xs : List Packet} (h : p ∉ xs) : dropFirst (· == p) xs = xs := by
  induction xs with
  | nil => rfl
  | cons x xs ih =>
    rw [List.mem_cons, not_or] at h
    rw [dropFirst, if_neg (by rw [beq_iff_eq]; exact fun hx => h.1 hx.symm), ih h.2]

theorem State.router_redTaken (s : State) (p : Packet) : (s.redTaken p).router = (s.taken p).router := by
  unfold State.redTaken
  split
  case isTrue => rfl
  case isFalse hnot =>
    have hsame : (s.taken p).router = s.router := by
      rw [List.contains_iff_mem] at hnot
      rw [State.taken, dropFirst_of_notMem hnot]
    rw [hsame]
    split <;> rfl

theorem State.router_received (t : State) (p : Packet) : (t.received p).router = (t.taken p).router := by
  have hrouter (u : State) : (u.paceIn (rPace p.body)).router = u.router := (u.paceIn_runs _).same .router rfl
  have hcount : (if rChunk p.body = 0 then t.modRedc p.ctx (fun c => { c with received := satAdd 32 c.received 1 }) else t).router =
      t.router := by split <;> rfl
  unfold State.received
  rw [State.router_redTaken]
  simp only [State.taken, hrouter, hcount]

theorem State.redKey_received (t : State) (p : Packet) (c g tag : Nat) : (t.received p).redKey c g tag = t.redKey c g tag :=
  State.redKey_congr (t.red_received p).1 c g tag

theorem State.Sent.received {t : State} {vc dest fop : Nat} (h : t.Sent vc dest fop) (p : Packet) :
    (t.received p).Sent vc dest fop := by
  refine h.of_eq ?_ ?_
  · rw [State.router_received]
    rfl
  · exact congrArg Fab.capped ((t.received_runs p).same .fab rfl)

/-! The treatment of R276. -/

theorem State.redTreat_bad {s : State} {p : Packet} (h : rBad p.body = true) :
    s.redTreat p = some (s.redErr p.ctx 5 (rGroup p.body) p.src (rTag p.body) (rEpoch p.body)) := by
  unfold State.redTreat
  dsimp only
  rw [if_pos h]

theorem State.redNext_of_plain {s : State} {p : Packet} (h : (s.redc p.ctx).staged = false) : s.redNext p = false := by
  unfold State.redNext
  dsimp only
  rw [h]
  rfl

section
variable {s : State} {p : Packet} (hgood : rBad p.body = false) (hplain : (s.redc p.ctx).staged = false)
include hgood hplain

theorem State.redTreat_epoch (h : rEpoch p.body ≠ (s.redc p.ctx).epoch) :
    s.redTreat p = some (s.redErr p.ctx 2 (rGroup p.body) p.src (rTag p.body) (rEpoch p.body)) := by
  unfold State.redTreat
  dsimp only
  rw [if_neg (Bool.eq_false_iff.mp hgood), if_neg (Bool.eq_false_iff.mp (State.redNext_of_plain hplain)), if_pos h]

theorem State.redTreat_next (hepoch : rEpoch p.body = (s.redc p.ctx).epoch) (hstep : rStep p.body = s.stepNo p.ctx)
    (hatt : rAttempt p.body = (s.attemptNo p.ctx + 1) % 256) : s.redTreat p = some (s.redHold p 2) := by
  unfold State.redTreat
  dsimp only
  rw [if_neg (Bool.eq_false_iff.mp hgood), if_neg (Bool.eq_false_iff.mp (State.redNext_of_plain hplain)),
    if_neg (not_not.mpr hepoch), if_neg, if_pos ⟨hstep, hatt⟩]
  intro h
  have hnext := h.1
  omega

end

theorem State.redTreat_current {s : State} {p : Packet} (h : s.chunkCurrent p) :
    s.redTreat p = if s.keyClosed p.ctx (rGroup p.body) (rTag p.body) then some (s.bump redStaleId) else s.redProcess p := by
  obtain ⟨-, -, hgood, hplain, hepoch, hstep, hatt⟩ := h
  unfold State.redTreat
  dsimp only
  rw [if_neg (Bool.eq_false_iff.mp hgood), if_neg (Bool.eq_false_iff.mp (State.redNext_of_plain hplain)),
    if_neg (not_not.mpr hepoch), if_neg (fun hnext => by have := hnext.1; omega), if_neg (fun hnext => by have := hnext.2; omega)]
  simp only [hstep, hatt, ne_eq, not_true_eq_false, false_or]

/-! Failures (R276, R277, R279). -/

/-- The value is logged unless one stands in the log. -/
def State.redLogged (s : State) (v : Nat) : State := if s.red.errLog ≠ 0 then s else s.setRed { s.red with errLog := v }

theorem State.redLogged_of (s : State) (v : Nat) :
    (v ≠ 0 → (s.redLogged v).red.errLog ≠ 0) ∧ (s.redLogged v).red.keys = s.red.keys ∧ (s.redLogged v).steps = s.steps ∧
      (s.redLogged v).obj = s.obj := by
  unfold State.redLogged
  split
  case isTrue hlog => exact ⟨fun _ => hlog, rfl, rfl, rfl⟩
  case isFalse => exact ⟨fun hv => hv, rfl, rfl, rfl⟩

theorem State.redErr_eq (s : State) (c cause g dev tag epoch : Nat) :
    ∃ v, (cause ≠ 0 → v ≠ 0) ∧ s.redErr c cause g dev tag epoch = (s.redLogged v).latch c 1 := by
  refine ⟨cause + c * 2 ^ 8 + g * 2 ^ 12 + dev * 2 ^ 16 + tag * 2 ^ 32 + epoch * 2 ^ 64, fun hcause h0 => hcause ?_, rfl⟩
  simp only [Nat.add_eq_zero_iff] at h0
  obtain ⟨⟨⟨⟨⟨hzero, -⟩, -⟩, -⟩, -⟩, -⟩ := h0
  exact hzero

/-- A failure is logged, and the step fails; the keys stand. -/
theorem State.redErr_fails {s : State} (hw : s.wf = true) (c g dev tag epoch : Nat) {cause : Nat} (h : cause ≠ 0) :
    (s.redErr c cause g dev tag epoch).red.errLog ≠ 0 ∧ (s.redErr c cause g dev tag epoch).red.keys = s.red.keys ∧
      s.Failed (s.redErr c cause g dev tag epoch) c := by
  obtain ⟨v, hv, heq⟩ := s.redErr_eq c cause g dev tag epoch
  obtain ⟨hlog, hkeys, hsteps, hobj⟩ := s.redLogged_of v
  have hred : ((s.redLogged v).latch c 1).red = (s.redLogged v).red := (State.latch_runs ..).same .red rfl
  have hok : StepsOk (s.redLogged v) := by
    rw [StepsOk, hsteps]
    exact State.twf_steps hw
  have hon : (s.redLogged v).stepsOn c = s.stepsOn c := by rw [State.stepsOn, State.ov_congr hobj, State.stepsOn]
  rw [heq, hred]
  exact ⟨hlog (hv h), hkeys, Failed.latch_of hok hsteps (fun h => hon.trans h) 1⟩

/-! Chunks that are added (R269, R270). -/

/-- A key to which chunk `n` has been added, of `c` contributions, with the buffers that its inputs held returned. -/
def RedKey.added (k : RedKey) (n c : Nat) (held : List Nat) : RedKey :=
  { k with
    loc := terase k.loc n
    inc := if k.incEmpty then k.inc else terase k.inc n
    shared := k.shared.filter (fun b => !(held.contains b))
    contribs := c
    done := n :: k.done }

/-- A key with the sum of a chunk at the owner. -/
def RedKey.summed (k : RedKey) (n : Nat) (rows : Option (List (List Fv))) : RedKey :=
  match rows with
  | none => k
  | some rows => { k with sums := tins k.sums n (rows.flatMap (fun row => row.flatMap (fun v => toLE 4 (f32Code v)))) }

section
variable (s : State) {k : RedKey} {r : Ring} (n : Nat) {b : List Byte} (l : Wire) (held : List Nat) (hdata : rEmpty b = false)
  (hmore : k.done.length < 15)

theorem State.redFinish_more {k : RedKey} (h : k.done.length < 16) (r : Ring) : s.redFinish k r = s.putKey k := by
  unfold State.redFinish
  rw [if_pos h]

theorem State.sent_redSend (k : RedKey) (r : Ring) (w : Wire) (c pace : Nat) :
    (s.redSend k r n w c pace).Sent (5 + k.group) r.next 0x70 := by
  unfold State.redSend
  dsimp only
  refine State.sent_send _ _ _ _ _ ?_
  rw [bytesField_append_left _ (by rw [length_mkBody]; decide)]
  exact bytesField_mkBody [] _ 0x70 rfl (by decide)

include hdata hmore

theorem State.redJoin_owner (hown : r.isOwner k.owner = true) :
    s.redJoin k r n (some b) l held =
      ((s.giveBufs k held).raise k.ctx (wireSum (rWire b) l).2).putKey
        ((k.added n (rContribs b + 1) held).summed n (wireSum (rWire b) l).1) := by
  have hwire : (rWire b).isNone = false := by rw [rWire, hdata]; rfl
  unfold State.redJoin
  dsimp only
  rw [if_pos hown, hwire]
  have hlen (rows : Option (List (List Fv))) : ((k.added n (rContribs b + 1) held).summed n rows).done.length < 16 := by
    cases rows <;> exact Nat.succ_lt_succ hmore
  cases hsum : (wireSum (rWire b) l).1 with
  | none => exact State.redFinish_more _ (hlen none) r
  | some rows => exact State.redFinish_more _ (hlen (some rows)) r

theorem State.redJoin_passes (hpass : r.isOwner k.owner = false) :
    s.redJoin k r n (some b) l held =
      (((s.giveBufs k held).raise k.ctx (wireJoin (rWire b) l).2).redSend (k.added n (rContribs b + 1) held) r n
        (wireJoin (rWire b) l).1 (rContribs b + 1) (min (rPace b) (s.giveBufs k held).ownPace)).putKey
          (k.added n (rContribs b + 1) held) := by
  have hwire : (rWire b).isNone = false := by rw [rWire, hdata]; rfl
  unfold State.redJoin
  dsimp only
  rw [if_neg (Bool.eq_false_iff.mp hpass), hwire]
  have hlen : (k.added n (rContribs b + 1) held).done.length < 16 := Nat.succ_lt_succ hmore
  exact State.redFinish_more _ hlen r

end

end Sys2Proof.Machine
end


-- ==== Sys2Proof/Proofs/RedArrivals.lean ====
section
/-!
PROOF. What becomes of an arriving chunk, and of a key whose deadline has passed (R276, R277, R326).
-/

namespace Sys2Proof.Machine

theorem exec_redChunk {s t : State} {p : Packet} (hrails : s.power.rails = true) (hp : p.wf = true) (hlen : 24 ≤ p.body.length)
    (hop : p.field 0 8 = 0x70) (ht : s.redTreat p = some t) : exec (.redChunkReceive p) s = .next (t.received p) :=
  (need_of hp _).trans ((powered_of hrails _).trans (congrArg Host.Outcome.next (State.redReceive_of hlen hop ht)))

section
variable {s : State} {p : Packet} (hrails : s.power.rails = true) (hp : p.wf = true)
include hrails hp

/-! Chunks of the step, attempt and epoch in progress. -/

section
variable (hcur : s.chunkCurrent p)
include hcur

theorem redChunk_stale (hw : s.wf = true) (hclosed : s.keyClosed p.ctx (rGroup p.body) (rTag p.body) = true) :
    ∃ t, exec (.redChunkReceive p) s = .next t ∧ t.ov redStaleId = min (s.ov redStaleId + 1) (2 ^ 32 - 1) ∧
      t.red.keys = s.red.keys ∧ t.router = (s.taken p).router ∧ Frame [.kettle, .links, .router, .red, .obj] s t := by
  have htreat := State.redTreat_current hcur
  rw [if_pos hclosed] at htreat
  obtain ⟨hlen, hop, -⟩ := hcur
  obtain ⟨u, hu⟩ : ∃ u, u = s.bump redStaleId := ⟨_, rfl⟩
  rw [← hu] at htreat
  have huruns : Runs [.obj] s u := hu ▸ s.bump_runs redStaleId 1
  have hruns := u.received_runs p
  refine ⟨_, exec_redChunk hrails hp hlen hop htreat, ?_, ?_, ?_,
    (Runs.comp hruns rfl (huruns.mono rfl) : Runs [.kettle, .links, .router, .red, .obj] s _).frame⟩
  · rw [State.ov_congr (hruns.same .obj rfl), hu, State.ov_bump (State.keysFrom_vals hw), if_pos rfl, satAdd, Nat.add_comm]
  · rw [(u.red_received p).1, hu]
    rfl
  · rw [State.router_received, hu]
    rfl

variable (hopen : s.keyClosed p.ctx (rGroup p.body) (rTag p.body) = false) (hdata : rEmpty p.body = false)
include hopen

omit hrails hp in
theorem redTreat_open : s.redTreat p = s.redProcess p := by
  rw [State.redTreat_current hcur, if_neg (Bool.eq_false_iff.mp hopen)]

include hdata

omit hrails hp in
/-- A chunk of a key of which nothing is here finds no partner. -/
theorem redTreat_alone (hkey : s.redKey p.ctx (rGroup p.body) (rTag p.body) = none) (hdrains : s.red.drains = []) :
    s.redTreat p = (s.redTake p.ctx (rGroup p.body)).map (fun q =>
      q.2.putKey { s.newKey p.ctx (rGroup p.body) (rTag p.body) (rList p.body) (rOwner p.body) with
        inc := [(rChunk p.body, p.body)]
        shared := if q.1 then [16 + rChunk p.body] else [] }) := by
  rw [redTreat_open hcur hopen]
  obtain ⟨k, hk⟩ : ∃ k, k = s.newKey p.ctx (rGroup p.body) (rTag p.body) (rList p.body) (rOwner p.body) := ⟨_, rfl⟩
  have hlocal : k.local? (rChunk p.body) = none := by rw [hk]; rfl
  have hdrain : s.drainAt k (rChunk p.body) = none := by rw [State.drainAt, hdrains]; rfl
  have hgroup : k.group = rGroup p.body := by rw [hk]; rfl
  unfold State.redProcess
  dsimp only
  rw [hkey, Option.getD_none, ← hk, if_neg (by rw [hk]; simp [State.newKey, tget?]), if_neg (Bool.eq_false_iff.mp hdata), hlocal, hdrain,
    hgroup, hk]
  rfl

theorem redChunk_waits (hkey : s.redKey p.ctx (rGroup p.body) (rTag p.body) = none) (hdrains : s.red.drains = [])
    (htake : s.redTake p.ctx (rGroup p.body) = none) : exec (.redChunkReceive p) s = .next s := by
  have htreat := redTreat_alone hcur hopen hdata hkey hdrains
  rw [htake, Option.map_none] at htreat
  refine (need_of hp _).trans ((powered_of hrails _).trans (congrArg Host.Outcome.next ?_))
  unfold State.redReceive
  rw [htreat]
  exact ite_self s

theorem redChunk_stored (hkey : s.redKey p.ctx (rGroup p.body) (rTag p.body) = none) (hdrains : s.red.drains = [])
    {q : Bool × State} (htake : s.redTake p.ctx (rGroup p.body) = some q) :
    ∃ t k, exec (.redChunkReceive p) s = .next t ∧ t.redKey p.ctx (rGroup p.body) (rTag p.body) = some k ∧
      tget? k.inc (rChunk p.body) = some p.body ∧ k.local_ = false ∧ k.firstAt = s.ftRead hubPs ∧ t.urn = q.2.urn ∧
      t.router = (s.taken p).router ∧ Frame [.kettle, .urn, .links, .router, .red] s t := by
  have htreat := redTreat_alone hcur hopen hdata hkey hdrains
  rw [htake, Option.map_some] at htreat
  obtain ⟨hlen, hop, -⟩ := hcur
  obtain ⟨k, hk⟩ : ∃ k, k = { s.newKey p.ctx (rGroup p.body) (rTag p.body) (rList p.body) (rOwner p.body) with
    inc := [(rChunk p.body, p.body)], shared := if q.1 then [16 + rChunk p.body] else [] } := ⟨_, rfl⟩
  rw [← hk] at htreat
  have hqruns : Runs [.urn] s q.2 := State.redTake_runs htake
  have hput := q.2.putKey_runs k
  have hruns := (q.2.putKey k).received_runs p
  refine ⟨_, k, exec_redChunk hrails hp hlen hop htreat, ?_, ?_, ?_, ?_, ?_, ?_,
    (Runs.comp hruns rfl (Runs.comp hput rfl (hqruns.mono rfl)) : Runs [.kettle, .urn, .links, .router, .red] s _).frame⟩
  · rw [State.redKey_received]
    exact State.redKey_putKey _ (RedKey.is_iff.mpr (by rw [hk]; exact ⟨rfl, rfl, rfl⟩))
  · rw [hk]
    exact if_pos rfl
  · rw [hk]
    rfl
  · rw [hk]
    rfl
  · exact (hput.same .urn rfl).trans (hruns.same .urn rfl)
  · have hrouter : (q.2.putKey k).router = s.router := (hqruns.same .router rfl).trans (hput.same .router rfl)
    rw [State.router_received, State.taken, State.taken, hrouter]

variable {k : RedKey} {r : Ring} {l : Wire} (hkey : s.redKey p.ctx (rGroup p.body) (rTag p.body) = some k)
  (hinc : k.incEmpty = false) (hnew : tget? k.inc (rChunk p.body) = none) (hdone : rChunk p.body ∉ k.done)
  (hlocal : k.local? (rChunk p.body) = some l) (hring : s.ringFor p.ctx (rGroup p.body) k.list k.owner = some r)
include hkey hinc hnew hdone hlocal hring

omit hrails hp in
/-- A chunk that finds its partner is added. -/
theorem redTreat_partner :
    s.redTreat p = some (s.redJoin k r (rChunk p.body) (some p.body) l (if k.locEmpty then [] else [rChunk p.body])) := by
  obtain ⟨-, hgroup, -⟩ := RedKey.is_iff.mp (State.is_of_redKey hkey)
  rw [redTreat_open hcur hopen]
  unfold State.redProcess
  dsimp only
  rw [hkey, Option.getD_some, if_neg (by simp [hinc, hnew, hdone]), if_neg (Bool.eq_false_iff.mp hdata), hlocal, hgroup, hring]

theorem redChunk_added (hmore : k.done.length < 15) :
    ∃ t k', exec (.redChunkReceive p) s = .next t ∧ t.redKey p.ctx (rGroup p.body) (rTag p.body) = some k' ∧
      k'.done = rChunk p.body :: k.done ∧ k'.contribs = rContribs p.body + 1 ∧
      (r.isOwner k.owner = false → t.Sent (5 + rGroup p.body) r.next 0x70) ∧
      (r.isOwner k.owner = true → ∀ rows, (wireSum (rWire p.body) l).1 = some rows →
        tget? k'.sums (rChunk p.body) = some (rows.flatMap (fun row => row.flatMap (fun v => toLE 4 (f32Code v))))) ∧
      Frame [.kettle, .urn, .links, .router, .red, .obj] s t := by
  have htreat := redTreat_partner hcur hopen hdata hkey hinc hnew hdone hlocal hring
  have hkis := State.is_of_redKey hkey
  obtain ⟨-, hgroup, -⟩ := RedKey.is_iff.mp hkis
  obtain ⟨hlen, hop, -⟩ := hcur
  obtain ⟨held, hheld⟩ : ∃ held, held = if k.locEmpty then [] else [rChunk p.body] := ⟨_, rfl⟩
  rw [← hheld] at htreat
  have hgive : Runs [.urn] s (s.giveBufs k held) := s.giveBufs_runs k held
  obtain ⟨x, hx⟩ : ∃ x, x = k.added (rChunk p.body) (rContribs p.body + 1) held := ⟨_, rfl⟩
  have hxis : x.is p.ctx (rGroup p.body) (rTag p.body) = true := by rw [hx]; exact hkis
  have hadded : x.done = rChunk p.body :: k.done ∧ x.contribs = rContribs p.body + 1 := by rw [hx]; exact ⟨rfl, rfl⟩
  obtain ⟨hxdone, hxcontribs⟩ := hadded
  cases hown : r.isOwner k.owner with
  | false =>
    rw [State.redJoin_passes s _ l held hdata hmore hown, ← hx] at htreat
    obtain ⟨w, hwire⟩ : ∃ w, w = wireJoin (rWire p.body) l := ⟨_, rfl⟩
    rw [← hwire] at htreat
    obtain ⟨u, hu⟩ : ∃ u, u = (s.giveBufs k held).raise k.ctx w.2 := ⟨_, rfl⟩
    have huruns : Runs [.urn, .obj] s u := hu ▸ Runs.comp (State.raise_runs ..) rfl (hgive.mono rfl)
    obtain ⟨pace, hpace⟩ : ∃ pace, pace = min (rPace p.body) (s.giveBufs k held).ownPace := ⟨_, rfl⟩
    rw [← hu, ← hpace] at htreat
    have hsent := u.sent_redSend (rChunk p.body) x r w.1 (rContribs p.body + 1) pace
    have hsruns := u.redSend_runs x r (rChunk p.body) w.1 (rContribs p.body + 1) pace
    obtain ⟨v, hv⟩ : ∃ v, v = u.redSend x r (rChunk p.body) w.1 (rContribs p.body + 1) pace := ⟨_, rfl⟩
    rw [← hv] at htreat hsent hsruns
    have hput := v.putKey_runs x
    have hxgroup : x.group = rGroup p.body := (RedKey.is_iff.mp hxis).2.1
    refine ⟨_, x, exec_redChunk hrails hp hlen hop htreat, ?_, hxdone, hxcontribs, fun _ => ?_, fun h => (Bool.noConfusion h),
      (Runs.comp (State.received_runs ..) rfl (Runs.comp hput rfl (Runs.comp hsruns rfl (huruns.mono rfl))) :
        Runs [.kettle, .urn, .links, .router, .red, .obj] s _).frame⟩
    · rw [State.redKey_received]
      exact State.redKey_putKey _ hxis
    · refine State.Sent.received ?_ p
      rw [hxgroup] at hsent
      exact hsent.of_eq (congrArg Router.inj (hput.same .router rfl)) (congrArg Fab.capped (hput.same .fab rfl))
  | true =>
    rw [State.redJoin_owner s _ l held hdata hmore hown, ← hx] at htreat
    obtain ⟨w, hwire⟩ : ∃ w, w = wireSum (rWire p.body) l := ⟨_, rfl⟩
    rw [← hwire] at htreat
    obtain ⟨u, hu⟩ : ∃ u, u = (s.giveBufs k held).raise k.ctx w.2 := ⟨_, rfl⟩
    have huruns : Runs [.urn, .obj] s u := hu ▸ Runs.comp (State.raise_runs ..) rfl (hgive.mono rfl)
    rw [← hu] at htreat
    obtain ⟨y, hy⟩ : ∃ y, y = x.summed (rChunk p.body) w.1 := ⟨_, rfl⟩
    have hysame : y.is p.ctx (rGroup p.body) (rTag p.body) = true ∧ y.done = x.done ∧ y.contribs = x.contribs := by
      rw [hy]
      cases w.1 <;> exact ⟨hxis, rfl, rfl⟩
    obtain ⟨hyis, hydone, hycontribs⟩ := hysame
    rw [← hy] at htreat
    have hput := u.putKey_runs y
    refine ⟨_, y, exec_redChunk hrails hp hlen hop htreat, ?_, hydone.trans hxdone, hycontribs.trans hxcontribs,
      fun h => (Bool.noConfusion h), fun _ rows hrows => ?_,
      (Runs.comp (State.received_runs ..) rfl (Runs.comp hput rfl (huruns.mono rfl)) :
        Runs [.kettle, .urn, .links, .router, .red, .obj] s _).frame⟩
    · rw [State.redKey_received]
      exact State.redKey_putKey _ hyis
    · rw [hy, hwire, hrows]
      exact tget?_tins_self ..

end

/-! Chunks of the next attempt, of another epoch, and badly formed ones. -/

theorem redChunk_held {u : State} (hlen : 24 ≤ p.body.length) (hop : p.field 0 8 = 0x70)
    (htreat : s.redTreat p = some (s.redHold p 2)) (htake : s.redTakeShared p.ctx = some u) :
    ∃ t, exec (.redChunkReceive p) s = .next t ∧ t.red.held = s.red.held ++ [⟨2, p, true⟩] ∧ t.urn = u.urn ∧
      t.red.keys = s.red.keys ∧ Frame [.kettle, .urn, .links, .router, .red] s t := by
  obtain ⟨v, hv⟩ : ∃ v, v = u.setRed { u.red with held := u.red.held ++ [⟨2, p, true⟩] } := ⟨_, rfl⟩
  have hhold : s.redHold p 2 = v := by
    unfold State.redHold
    rw [htake, hv]
  rw [hhold] at htreat
  have huruns : Runs [.urn] s u := State.redTakeShared_runs htake
  have hvruns : Runs [.red] u v := hv ▸ State.setRed_runs _ _ (fun h => h)
  have hred : u.red = s.red := huruns.same .red rfl
  have hruns := v.received_runs p
  refine ⟨_, exec_redChunk hrails hp hlen hop htreat, ?_, ?_, ?_,
    (Runs.comp hruns rfl (Runs.comp hvruns rfl (huruns.mono rfl)) : Runs [.kettle, .urn, .links, .router, .red] s _).frame⟩
  · rw [(v.red_received p).2.1, hv, ← hred]
    rfl
  · exact (hvruns.same .urn rfl).trans (hruns.same .urn rfl)
  · rw [(v.red_received p).1, hv, ← hred]
    rfl

theorem redChunk_fails (hw : s.wf = true) (hlen : 24 ≤ p.body.length) (hop : p.field 0 8 = 0x70) {cause g dev tag epoch : Nat}
    (hcause : cause ≠ 0) (htreat : s.redTreat p = some (s.redErr p.ctx cause g dev tag epoch)) :
    ∃ t, exec (.redChunkReceive p) s = .next t ∧ t.red.errLog ≠ 0 ∧ s.Failed t p.ctx ∧ t.red.keys = s.red.keys ∧
      Frame [.kettle, .links, .router, .steps, .red] s t := by
  obtain ⟨hlog, hkeys, hfailed⟩ := State.redErr_fails hw p.ctx g dev tag epoch hcause
  have huruns := s.redErr_runs p.ctx cause g dev tag epoch
  obtain ⟨u, hu⟩ : ∃ u, u = s.redErr p.ctx cause g dev tag epoch := ⟨_, rfl⟩
  rw [← hu] at hlog hkeys hfailed huruns htreat
  have hruns := u.received_runs p
  refine ⟨_, exec_redChunk hrails hp hlen hop htreat, ?_, fun hon hrun => ?_, ?_,
    (Runs.comp hruns rfl (huruns.mono rfl) : Runs [.kettle, .links, .router, .steps, .red] s _).frame⟩
  · rw [(u.red_received p).2.2]
    exact hlog
  · rw [State.stp_congr (hruns.same .steps rfl)]
    exact hfailed hon hrun
  · exact (u.red_received p).1.trans hkeys

end

/-! The deadline (R277). -/

theorem State.red_drainEnds (ds : List RedDrain) (s : State) :
    { (ds.foldl (fun u d => u.drainEnd d.core d.seq) s).red with drains := s.red.drains } = s.red := by
  induction ds generalizing s with
  | nil => rfl
  | cons d ds ih => exact congrArg (fun x : Red => { x with drains := s.red.drains }) (ih (s.drainEnd d.core d.seq))

theorem State.drainEnds_runs (ds : List RedDrain) (s : State) :
    Runs [.cores, .red] s (ds.foldl (fun u d => u.drainEnd d.core d.seq) s) := by
  induction ds generalizing s with
  | nil => exact .refl s
  | cons d ds ih => exact Runs.trans (s.drainEnd_runs d.core d.seq) (ih _)

theorem reduceDeadline_passed {s : State} (hw : s.wf = true) {c g tag : Nat} {k : RedKey} (hc : c < 16)
    (hkey : s.redKey c g tag = some k) (hpast : k.firstAt + s.ov reduceDeadlineId * 1000 ≤ s.ftRead hubPs) :
    ∃ t, exec (.reduceDeadlineExpiry c g tag) s = .next t ∧ t.redKey c g tag = none ∧ t.keyClosed c g tag = true ∧
      t.red.errLog ≠ 0 ∧ s.Failed t c ∧ Frame [.cores, .sync, .urn, .fab, .router, .steps, .red, .obj] s t := by
  obtain ⟨hkc, hkg, hkt⟩ := RedKey.is_iff.mp (State.is_of_redKey hkey)
  obtain ⟨u, hu⟩ : ∃ u, u = s.redErr c 1 g 0 tag 0 := ⟨_, rfl⟩
  have huruns : Runs [.router, .steps, .red] s u := hu ▸ s.redErr_runs c 1 g 0 tag 0
  obtain ⟨hlog, -, hfailed⟩ := State.redErr_fails hw c g 0 tag 0 one_ne_zero
  rw [← hu] at hlog hfailed
  have huwf : u.wf = true := huruns.wf hw
  obtain ⟨hgone, hclosed, -, hlogged⟩ := State.closeKey_ends huwf k
  rw [hkc, hkg, hkt] at hgone hclosed
  have hvruns := u.closeKey_runs k
  obtain ⟨v, hv⟩ : ∃ v, v = u.closeKey k := ⟨_, rfl⟩
  rw [← hv] at hgone hclosed hlogged hvruns
  obtain ⟨ds, hds⟩ : ∃ ds, ds = s.red.drains.filter (fun d => match s.emitTile d.core d.seq with
    | some x => k.is x.ctx (emGroup x.desc) (emTag x.desc)
    | none => false) := ⟨_, rfl⟩
  have hwruns := State.drainEnds_runs ds v
  have hwred := State.red_drainEnds ds v
  obtain ⟨w, hwe⟩ : ∃ w, w = ds.foldl (fun u d => u.drainEnd d.core d.seq) v := ⟨_, rfl⟩
  rw [← hwe] at hwruns hwred
  obtain ⟨t, ht⟩ : ∃ t, t = s.redDeadline c g tag := ⟨_, rfl⟩
  have heq : t = match k.deliv with
      | some (_, _, sig) => w.signalWord c sig
      | none => w := by
    rw [ht]
    unfold State.redDeadline
    rw [hkey]
    dsimp only
    rw [if_neg (Nat.not_lt.mpr hpast), hwe, hv, hu, hds] <;> rfl
  have htail : Runs [.sync, .fab, .router, .steps, .obj] w t ∧ FailKept w t := by
    rw [heq]
    split
    · exact ⟨State.signalWord_runs .., signalClosed_failKept.signalWord w c _⟩
    · exact ⟨.refl w, .refl w⟩
  obtain ⟨htruns, hkept⟩ := htail
  have hred : t.red = w.red := htruns.same .red rfl
  have hkeys : t.red.keys = v.red.keys := (congrArg Red.keys hred).trans (congrArg Red.keys hwred :)
  have hctx : t.red.ctx = v.red.ctx := (congrArg Red.ctx hred).trans (congrArg Red.ctx hwred :)
  have herr : t.red.errLog = u.red.errLog := (congrArg Red.errLog hred).trans ((congrArg Red.errLog hwred :).trans hlogged)
  refine ⟨t, (need_of (decide_eq_true hc) _).trans (congrArg Host.Outcome.next ht.symm), ?_, ?_, ?_, fun hon hrun => ?_, ?_⟩
  · rw [State.redKey_congr hkeys]
    exact hgone
  · rw [State.keyClosed_congr (State.redc_congr hctx c)]
    exact hclosed
  · rw [herr]
    exact hlog
  · obtain ⟨x, hx⟩ := hfailed hon hrun
    have hsteps : w.steps = u.steps := (hvruns.same .steps rfl).trans (hwruns.same .steps rfl)
    rw [← State.stp_congr hsteps] at hx
    have hwok : StepsOk w := by
      rw [StepsOk, hsteps]
      exact State.twf_steps huwf
    exact (hkept hwok).2 c x hx
  · rw [ht]
    exact (State.redDeadline_runs ..).frame

end Sys2Proof.Machine
end


-- ==== Sys2Proof/Proofs/EmitDrains.lean ====
section
/-!
PROOF. The drain of an EMIT tile: its chunks are handed over, and the tile goes on to its completion (R268).
-/

namespace Sys2Proof.Machine

/-! What handing a chunk over leaves of the drains and of the tiles. -/

/-- The drains are as they were, and each core holds the tiles that it held. -/
def DrainsKept (s t : State) : Prop :=
  t.red.drains = s.red.drains ∧
    (CoresOk s → CoresOk t ∧ ∀ m, (t.core m).tiles.map Tile.work = (s.core m).tiles.map Tile.work)

theorem DrainsKept.of_same {s t : State} (hd : t.red.drains = s.red.drains) (hc : t.cores = s.cores) : DrainsKept s t :=
  ⟨hd, fun hs => ⟨State.coresOk_of_cores hs hc, fun m => by rw [State.core_congr hc]⟩⟩

theorem DrainsKept.of_runs {s t : State} {ps : List Part} (h : Runs ps s t) (hr : ps.contains .red = false)
    (hc : ps.contains .cores = false) : DrainsKept s t :=
  .of_same (congrArg Red.drains (h.same .red hr)) (h.same .cores hc)

theorem DrainsKept.trans {s t u : State} (h : DrainsKept s t) (k : DrainsKept t u) : DrainsKept s u := by
  refine ⟨k.1.trans h.1, fun hs => ?_⟩
  obtain ⟨ht, hst⟩ := h.2 hs
  obtain ⟨hu, htu⟩ := k.2 ht
  exact ⟨hu, fun m => (htu m).trans (hst m)⟩

theorem DrainsKept.mark (s : State) (n : Nat) {f : Tile → Tile} (hf : ∀ x, (f x).work = x.work) :
    DrainsKept s (s.modCore n (fun c => { c with tiles := c.tiles.map f })) := by
  refine ⟨rfl, fun hs => ⟨hs.setCore n _, fun m => ?_⟩⟩
  rw [State.modCore, State.core_setCore hs]
  split
  case isTrue hm =>
    subst hm
    rw [List.map_map]
    exact List.map_congr_left fun x _ => hf x
  case isFalse => rfl

theorem DrainsKept.closed : ChunkClosed DrainsKept where
  refl _ := .of_same rfl rfl
  trans := .trans
  setCtr s i v := by
    unfold State.setCtr
    dsimp only
    split <;> exact .of_same rfl rfl
  syncFlag _ _ _ := .of_same rfl rfl
  latch s c r := .of_runs (s.latch_runs c r) rfl rfl
  inject _ _ _ := .of_same rfl rfl
  capInject s port p := .of_runs (s.capInject_runs port p) rfl rfl
  quiet h := .of_runs h rfl rfl
  keys _ _ := .of_same rfl rfl
  errLog _ _ := .of_same rfl rfl
  redc _ _ _ := .of_same rfl rfl
  raise s c f := .of_runs (s.raise_runs c f) rfl rfl
  mark s n _ hf := .mark s n hf

theorem State.emitTile_work (s : State) (n seq : Nat) :
    (s.emitTile n seq).map Tile.work =
      (((s.core n).tiles.map Tile.work).filter (fun w => dType w.2.2 == 3 && w.2.1 == seq)).head? := by
  rw [List.filter_map, List.head?_map]
  rfl

/-! A tile whose chunks are all taken. -/

/-- An EMIT tile of which all chunks are taken. -/
def Tile.drained (seq : Nat) (x : Tile) : Tile := if dType x.desc = 3 ∧ x.seq = seq then { x with stage := .storing } else x

theorem State.core_drainEnd {s : State} (h : CoresOk s) (n seq m : Nat) :
    (s.drainEnd n seq).core m =
      if m = n then { s.core n with tiles := (s.core n).tiles.map (Tile.drained seq) } else s.core m :=
  State.core_setCore h n m _

theorem State.emitTile_drainEnd {s : State} (h : CoresOk s) {n seq : Nat} {x : Tile} (hx : s.emitTile n seq = some x) :
    (s.drainEnd n seq).emitTile n seq = some { x with stage := .storing } := by
  have hp := (List.mem_filter.mp (List.mem_of_mem_head? hx)).2
  rw [Bool.and_eq_true, beq_iff_eq, beq_iff_eq] at hp
  have hsame : ((fun y : Tile => dType y.desc == 3 && y.seq == seq) ∘ Tile.drained seq) = fun y => dType y.desc == 3 && y.seq == seq := by
    funext y
    rw [Function.comp_apply, Tile.drained]
    split <;> rfl
  rw [State.emitTile, State.core_drainEnd h, if_pos rfl, List.filter_map, List.head?_map, hsame]
  rw [State.emitTile] at hx
  rw [hx, Option.map_some, Tile.drained, if_pos hp]

/-! EMIT_CHUNK_HANDOFF of the last chunk (R268, R326). -/

theorem handoff_ends {s u : State} (hw : s.wf = true) {d : RedDrain} {x : Tile} (hd : s.red.drains = [d]) (hnext : d.next = 15)
    (hx : s.emitTile d.core d.seq = some x) (hover : s.handOver d.core d.seq 15 none = some u) :
    ∃ t y, exec .emitChunkHandoff s = .next t ∧ t.red.drains = [] ∧ t.emitTile d.core d.seq = some y ∧ y.stage = .storing ∧
      y.desc = x.desc ∧ t.red.keys = u.red.keys ∧ t.router = u.router ∧
      Frame [.cores, .sync, .mem, .urn, .fab, .router, .steps, .red, .obj] s t := by
  obtain ⟨hdrains, hcores⟩ := DrainsKept.closed.handOver hover
  obtain ⟨huok, hwork⟩ := hcores (State.twf_cores hw)
  have hlist : s.red.drains.filter (fun d => (s.handOver d.core d.seq d.next none).isSome) = [d] := by
    rw [hd, List.filter_cons_of_pos (by rw [hnext, hover]; rfl), List.filter_nil]
  have heq : s.handoff = u.drainEnd d.core d.seq := by
    unfold State.handoff
    rw [hlist, List.head?_cons]
    dsimp only
    rw [hnext, State.drainFrom, hover]
    rfl
  have htile : (u.emitTile d.core d.seq).map Tile.work = some x.work := by
    rw [State.emitTile_work, hwork, ← State.emitTile_work, hx, Option.map_some]
  obtain ⟨z, hz, hzwork⟩ := Option.map_eq_some_iff.mp htile
  have hdesc : z.desc = x.desc := congrArg (fun w => w.2.2) hzwork
  refine ⟨_, { z with stage := .storing }, congrArg Host.Outcome.next heq, ?_, State.emitTile_drainEnd huok hz, rfl, hdesc, rfl, rfl, ?_⟩
  · have hdrop : (u.drainEnd d.core d.seq).red.drains = u.red.drains.filter (fun y => !(y.core == d.core && y.seq == d.seq)) := rfl
    rw [hdrop, hdrains, hd, List.filter_cons_of_neg (by simp), List.filter_nil]
  · rw [← heq]
    exact s.handoff_runs.frame

/-! The drain of the first member of a chain of modules (R268, R269). -/

/-- A tile with other flags. -/
def Tile.flagged (f : Tile → Flags) (x : Tile) : Tile := { x with flags := f x }

/-- From `s` to `t` of all tiles only flags of tiles of core `n` are raised. -/
def CoresFlagged (n : Nat) (s t : State) : Prop :=
  CoresOk s → CoresOk t ∧ OtherCores n s t ∧
    ∃ f, t.core n = { s.core n with tiles := (s.core n).tiles.map (Tile.flagged f) }

theorem CoresFlagged.of_cores {n : Nat} {s t : State} (h : t.cores = s.cores) : CoresFlagged n s t := fun hs => by
  refine ⟨State.coresOk_of_cores hs h, .of_cores h, Tile.flags, ?_⟩
  rw [State.core_congr h]
  have hid : (s.core n).tiles.map (Tile.flagged Tile.flags) = (s.core n).tiles := List.map_id _
  rw [hid]

theorem CoresFlagged.trans {n : Nat} {s t u : State} (h : CoresFlagged n s t) (k : CoresFlagged n t u) : CoresFlagged n s u := fun hs => by
  obtain ⟨ht, hother, f, hf⟩ := h hs
  obtain ⟨hu, hother', g, hg⟩ := k ht
  refine ⟨hu, hother.trans hother', fun x => g { x with flags := f x }, ?_⟩
  rw [hg, hf, List.map_map]
  rfl

theorem CoresFlagged.tileFlags (s : State) (n seq : Nat) (f : Flags) : CoresFlagged n s (s.tileFlags n seq f) := by
  unfold State.tileFlags
  split
  case isTrue => exact .of_cores rfl
  case isFalse =>
    intro hs
    refine ⟨hs.setCore n _, State.otherCores_setCore hs rfl n _,
      fun x => if dType x.desc = 3 ∧ x.seq = seq then x.flags ||| f else x.flags, ?_⟩
    rw [State.modCore, State.core_setCore_self hs rfl]
    congr 1
    refine List.map_congr_left fun x _ => ?_
    by_cases h : dType x.desc = 3 ∧ x.seq = seq
    · simp only [Tile.flagged, if_pos h]
    · simp only [Tile.flagged, if_neg h]

/-- What each step of a first member's drain leaves: of the cores only flags change, the geometry of the block stands, and no
other part than these changes. -/
structure Drains (n c : Nat) (s t : State) : Prop where
  flagged : CoresFlagged n s t
  block : SameBlock c s t
  runs : Runs [.cores, .urn, .router, .red, .obj] s t

namespace Drains

variable {n c : Nat} {s t u : State}

theorem trans (h : Drains n c s t) (k : Drains n c t u) : Drains n c s u :=
  ⟨h.flagged.trans k.flagged, h.block.trans k.block, h.runs.trans k.runs⟩

theorem of_runs {ps : List Part} (h : Runs ps s t) (hp : within ps [.urn, .router, .red] = true) : Drains n c s t := by
  have hsub : Runs [.urn, .router, .red] s t := h.mono hp
  exact ⟨.of_cores (hsub.same .cores rfl), .of_obj (hsub.same .obj rfl), hsub.mono rfl⟩

theorem refl (n c : Nat) (s : State) : Drains n c s s := of_runs (ps := []) (.refl s) rfl

end Drains

/-- The key of a first member of whose chunks the first `i` have been sent on. -/
def RedKey.upTo (k : RedKey) (i : Nat) : RedKey := { k with contribs := min i 1, done := (List.range i).reverse }

/-- A drain of a first member that began in `s`: the first `i` chunks are sent on. -/
structure FirstOpen (n : Nat) (k : RedKey) (s u : State) (i : Nat) : Prop where
  drains : Drains n k.ctx s u
  key : u.redKey k.ctx k.group k.tag = some (k.upTo i)
  redc : u.redc k.ctx = s.redc k.ctx
  more : i < 16

/-- A drain of a first member that began in `s` has sent all chunks on to the next member. -/
structure FirstClosed (n : Nat) (k : RedKey) (r : Ring) (s u : State) : Prop where
  drains : Drains n k.ctx s u
  gone : u.redKey k.ctx k.group k.tag = none
  closed : u.keyClosed k.ctx k.group k.tag = true
  sent : (u.redc k.ctx).sent = satAdd 32 (s.redc k.ctx).sent 1
  out : u.Sent (5 + k.group) r.next 0x70

theorem State.emitTile_flagged {s u : State} {n seq : Nat} {x : Tile} (h : CoresFlagged n s u) (hs : CoresOk s)
    (hx : s.emitTile n seq = some x) : ∃ f : Flags, u.emitTile n seq = some { x with flags := f } := by
  obtain ⟨-, -, f, hf⟩ := h hs
  rw [State.emitTile] at hx
  refine ⟨f x, ?_⟩
  rw [State.emitTile, hf, List.filter_map, List.head?_map]
  exact congrArg (Option.map (Tile.flagged f)) hx

section
variable {s u : State} {n seq : Nat} {k : RedKey} {r : Ring} {x : Tile} (hw : s.wf = true)
  (hloc : k.loc = []) (hinc : k.inc = []) (hempty : k.incEmpty = false) (hshared : k.shared = [])
  (hfirst : r.isFirst k.owner = true) (hpass : r.isOwner k.owner = false)

include hloc hinc hempty hshared hpass in
/-- What a first member does with its chunk `i`. -/
theorem State.redJoin_first (i : Nat) (w : Wire) :
    u.redJoin (k.upTo i) r i none w [] =
      (u.redSend { k with contribs := 1, done := if w.isNone then List.range 16 else i :: (List.range i).reverse } r
        (if w.isNone then 0 else i) w 1 u.ownPace).redFinish
          { k with contribs := 1, done := if w.isNone then List.range 16 else i :: (List.range i).reverse } r := by
  have hkey : ({ k.upTo i with
      loc := terase (k.upTo i).loc i
      inc := if (k.upTo i).incEmpty then (k.upTo i).inc else terase (k.upTo i).inc i
      shared := (k.upTo i).shared.filter (fun b => !(([] : List Nat).contains b))
      contribs := 1
      done := if w.isNone then List.range 16 else i :: (List.range i).reverse } : RedKey) =
      { k with contribs := 1, done := if w.isNone then List.range 16 else i :: (List.range i).reverse } := by
    obtain ⟨ctx, group, tag, list, owner, firstAt, local_, locLevel, locEmpty, loc, incEmpty, inc, contribs, shared, done, sums, deliv⟩ := k
    dsimp only at hloc hinc hempty hshared
    subst hloc hinc hempty hshared
    rfl
  have hown : r.isOwner (k.upTo i).owner = false := hpass
  rw [← hkey]
  unfold State.redJoin
  dsimp only
  rw [if_neg (Bool.eq_false_iff.mp hown)]
  rfl

end

end Sys2Proof.Machine
end


-- ==== Sys2Proof/Proofs/FirstDrains.lean ====
section
/-!
PROOF. The drain of a first member from chunk to chunk (R268, R269, R280).
-/

namespace Sys2Proof.Machine

section
variable {s u : State} {n seq : Nat} {k : RedKey} {r : Ring} {x : Tile} (hw : s.wf = true)

theorem Drains.raised (u : State) (n c seq : Nat) (f : Flags) : Drains n c u ((u.raise c f).tileFlags n seq f) :=
  Drains.trans
    ⟨.of_cores ((u.raise_runs c f).same .cores rfl), .raise u c f, (u.raise_runs c f).mono rfl⟩
    ⟨.tileFlags _ n seq f, .of_obj ((State.tileFlags_runs ..).same .obj rfl), (State.tileFlags_runs ..).mono rfl⟩

include hw

theorem FirstClosed.of_finish {v : State} (hd : Drains n k.ctx s v) (hredc : v.redc k.ctx = s.redc k.ctx) {y : RedKey}
    (hy : y.ctx = k.ctx ∧ y.group = k.group ∧ y.tag = k.tag ∧ y.owner = k.owner) (hpass : r.isOwner k.owner = false)
    (hdone : ¬y.done.length < 16) (hsent : v.Sent (5 + k.group) r.next 0x70) : FirstClosed n k r s (v.redFinish y r) := by
  obtain ⟨hyc, hyg, hyt, hyo⟩ := hy
  obtain ⟨z, hz⟩ : ∃ z, z = v.closeKey y := ⟨_, rfl⟩
  have heq : v.redFinish y r = z.modRedc k.ctx (fun c => { c with sent := satAdd 32 c.sent 1 }) := by
    unfold State.redFinish
    rw [if_neg hdone]
    dsimp only
    rw [hyo, if_neg (Bool.eq_false_iff.mp hpass), hyc, hz]
  have hvwf : v.wf = true := hd.runs.wf hw
  have hzruns : Runs [.urn, .red] v z := hz ▸ v.closeKey_runs y
  obtain ⟨hgone, hclosed, hsame, -⟩ := State.closeKey_ends hvwf y
  rw [← hz, hyc] at hgone hclosed hsame
  rw [hyg, hyt] at hgone hclosed
  have hcount : (z.modRedc k.ctx (fun c => { c with sent := satAdd 32 c.sent 1 })).redc k.ctx =
      { z.redc k.ctx with sent := satAdd 32 (z.redc k.ctx).sent 1 } := by
    rw [State.modRedc, State.redc_setRedc (State.twf_redc (hzruns.wf hvwf)), if_pos rfl]
  rw [heq]
  refine ⟨hd.trans (.of_runs (Runs.comp (State.modRedc_runs ..) rfl hzruns : Runs [.urn, .red] v _) rfl), hgone, ?_, ?_,
    hsent.of_eq (congrArg Router.inj (hzruns.same .router rfl)) (congrArg Fab.capped (hzruns.same .fab rfl))⟩
  · rw [State.keyClosed, hcount]
    exact hclosed
  · rw [hcount, hsame, hredc]

variable (hloc : k.loc = []) (hinc : k.inc = []) (hempty : k.incEmpty = false) (hshared : k.shared = [])
  (hfirst : r.isFirst k.owner = true) (hpass : r.isOwner k.owner = false) (hx : s.emitTile n seq = some x) (hctx : x.ctx = k.ctx)
  (hgroup : emGroup x.desc = k.group) (htag : emTag x.desc = k.tag) (hring : s.emRing k.ctx x.desc = some r)

include hloc hinc hempty hshared hpass in
/-- Chunk `i` is sent on; all the chunks are where it is the last one, or the tile's slot is EMPTY. -/
theorem FirstOpen.joined {v : State} {i : Nat} (hd : Drains n k.ctx s v) (hredc : v.redc k.ctx = s.redc k.ctx) (w : Wire) :
    FirstClosed n k r s (v.redJoin (k.upTo i) r i none w []) ∨ FirstOpen n k s (v.redJoin (k.upTo i) r i none w []) (i + 1) := by
  rw [State.redJoin_first hloc hinc hempty hshared hpass]
  obtain ⟨y, hy⟩ : ∃ y : RedKey, y = { k with contribs := 1, done := if w.isNone then List.range 16 else i :: (List.range i).reverse } :=
    ⟨_, rfl⟩
  rw [← hy]
  have hsame : y.ctx = k.ctx ∧ y.group = k.group ∧ y.tag = k.tag ∧ y.owner = k.owner := by rw [hy]; exact ⟨rfl, rfl, rfl, rfl⟩
  have hydone : y.done = if w.isNone then List.range 16 else i :: (List.range i).reverse := by rw [hy]
  have ⟨hyc, hyg, hyt, _⟩ := hsame
  have hruns := v.redSend_runs y r (if w.isNone then 0 else i) w 1 v.ownPace
  have hsent := v.sent_redSend (if w.isNone then 0 else i) y r w 1 v.ownPace
  obtain ⟨z, hz⟩ : ∃ z, z = v.redSend y r (if w.isNone then 0 else i) w 1 v.ownPace := ⟨_, rfl⟩
  rw [← hz] at hruns hsent ⊢
  rw [hyg] at hsent
  have hzd : Drains n k.ctx s z := hd.trans (.of_runs hruns rfl)
  have hzredc : z.redc k.ctx = s.redc k.ctx := (State.redc_congr (congrArg Red.ctx (hruns.same .red rfl)) _).trans hredc
  by_cases hdone : y.done.length < 16
  · refine .inr ?_
    have hdata : w.isNone = false := by
      cases hnone : w.isNone with
      | false => rfl
      | true =>
        rw [hydone, hnone, if_pos rfl, List.length_range] at hdone
        exact absurd hdone (lt_irrefl 16)
    rw [hdata, if_neg Bool.false_ne_true] at hydone
    have hrange : (List.range (i + 1)).reverse = i :: (List.range i).reverse := by
      rw [List.range_succ, List.reverse_append]
      rfl
    have hnext : y = k.upTo (i + 1) := by
      rw [hy, hdata, RedKey.upTo, hrange, Nat.min_eq_right (Nat.succ_le_succ (Nat.zero_le i))]
      rfl
    have hlen : i + 1 < 16 := by
      rw [hydone, List.length_cons, List.length_reverse, List.length_range] at hdone
      exact hdone
    have hput := z.putKey_runs y
    rw [State.redFinish_more z hdone]
    refine ⟨hzd.trans (.of_runs hput rfl), ?_, ?_, hlen⟩
    · rw [State.redKey_putKey z (RedKey.is_iff.mpr ⟨hyc, hyg, hyt⟩), hnext]
    · rw [State.redc_congr (z.ctx_putKey y), hzredc]
  · exact .inl (.of_finish hw hzd hzredc hsame hpass hdone hsent)

include hx hctx hgroup htag

/-- Once all chunks are sent on nothing is left to hand over. -/
theorem FirstClosed.handOver (h : FirstClosed n k r s u) (i : Nat) : u.handOver n seq i none = some u := by
  obtain ⟨f, hf⟩ := State.emitTile_flagged h.drains.flagged (State.twf_cores hw) hx
  unfold State.handOver
  rw [hf]
  dsimp only
  rw [hctx, hgroup, htag, h.gone]

include hloc hinc hempty hshared hfirst hpass hring

theorem FirstOpen.handOver {i : Nat} (h : FirstOpen n k s u i) :
    ∃ v, u.handOver n seq i none = some v ∧ (FirstClosed n k r s v ∨ FirstOpen n k s v (i + 1)) := by
  obtain ⟨f, hf⟩ := State.emitTile_flagged h.drains.flagged (State.twf_cores hw) hx
  have hring' : u.emRing k.ctx x.desc = some r := (State.emRing_congr h.drains.block h.redc _).trans hring
  have hnot : ((k.upTo i).done.contains i) = false := by
    rw [Bool.eq_false_iff, ne_eq, List.contains_iff_mem, RedKey.upTo, List.mem_reverse, List.mem_range]
    exact lt_irrefl i
  obtain ⟨z, hz⟩ : ∃ z : Tile, z = { x with flags := f } := ⟨_, rfl⟩
  rw [← hz] at hf
  have hzctx : z.ctx = k.ctx := by rw [hz]; exact hctx
  have hzdesc : z.desc = x.desc := by rw [hz]
  obtain ⟨e, he⟩ : ∃ e, e = if (k.upTo i).locEmpty then ([], flagNone)
    else wireEnc (k.upTo i).locLevel (chunkRows z ((u.core n).slot (z.slot.getD 0)) i) := ⟨_, rfl⟩
  obtain ⟨v, hv⟩ : ∃ v, v = (u.raise k.ctx e.2).tileFlags n seq e.2 := ⟨_, rfl⟩
  obtain ⟨w, hwire⟩ : ∃ w : Wire, w = if (k.upTo i).locEmpty then none else some ((k.upTo i).locLevel, e.1) := ⟨_, rfl⟩
  have hover : u.handOver n seq i none = some (v.redJoin (k.upTo i) r i none w []) := by
    unfold State.handOver
    rw [hf]
    dsimp only
    rw [hzctx, hzdesc, hgroup, htag, h.key, hring']
    dsimp only
    rw [if_neg (Bool.eq_false_iff.mp hnot), if_pos (show r.isFirst (k.upTo i).owner = true from hfirst), ← he, ← hv, ← hwire]
  have hvd : Drains n k.ctx u v := hv ▸ .raised u n k.ctx seq e.2
  have hvredc : v.redc k.ctx = u.redc k.ctx := by
    have h1 : v.red = ((u.raise k.ctx e.2)).red := by rw [hv]; exact (State.tileFlags_runs ..).same .red rfl
    have h2 : (u.raise k.ctx e.2).red = u.red := (u.raise_runs k.ctx e.2).same .red rfl
    exact State.redc_congr (congrArg Red.ctx (h1.trans h2)) _
  exact ⟨_, hover, FirstOpen.joined hw hloc hinc hempty hshared hpass (h.drains.trans hvd) (hvredc.trans h.redc) w⟩

theorem FirstClosed.of_drainFrom {f i : Nat} (hfi : i + f = 16) (h : FirstClosed n k r s u ∨ FirstOpen n k s u i) :
    ∃ v, State.drainFrom n seq f i u = v.drainEnd n seq ∧ FirstClosed n k r s v := by
  induction f generalizing i u with
  | zero =>
    obtain hclosed | hopen := h
    · exact ⟨u, rfl, hclosed⟩
    · exact absurd hopen.more (by omega)
  | succ f ih =>
    have hstep : ∃ v, u.handOver n seq i none = some v ∧ (FirstClosed n k r s v ∨ FirstOpen n k s v (i + 1)) := by
      obtain hclosed | hopen := h
      · exact ⟨u, hclosed.handOver hw hx hctx hgroup htag i, .inl hclosed⟩
      · exact hopen.handOver hw hloc hinc hempty hshared hfirst hpass hx hctx hgroup htag hring
    obtain ⟨v, hover, hv⟩ := hstep
    obtain ⟨w, hdrain, hclosed⟩ := ih (by omega) hv
    refine ⟨w, ?_, hclosed⟩
    rw [State.drainFrom, hover]
    exact hdrain

end

end Sys2Proof.Machine
end


-- ==== Sys2Proof/Proofs/EmitClaims.lean ====
section
/-!
PROOF. An EMIT tile of a first member is accepted and drained (R232, R266 to R268); what settles the family of the reduction units.
-/

namespace Sys2Proof.Machine

/-! An EMIT tile reads no header: none of its causes is noted at its acceptance (R148, R332). -/

theorem State.hdrNote_of_plain {s : State} {x : Tile} (h : ∀ c ∈ x.causes, c.1 ≤ 9) : s.hdrNote x = s := by
  unfold State.hdrNote
  generalize x.causes = cs at h
  induction cs with
  | nil => rfl
  | cons c cs ih =>
    obtain ⟨hc, hcs⟩ := List.forall_mem_cons.mp h
    have hrefused : isRefused c.1 = false := decide_eq_false (by omega)
    rw [List.foldl_cons, if_neg (by omega), State.noteRefused, if_neg (Bool.eq_false_iff.mp hrefused)]
    exact ih hcs

theorem State.urnTensCheck_le (s : State) (c : Nat) (t : Tens) (o : Bool) : s.urnTensCheck c t o ≤ 9 := by
  unfold State.urnTensCheck
  dsimp only
  split
  · decide
  · split
    · decide
    · split <;> split <;> decide
    · decide

theorem State.causes_newTile_emit {s : State} {n : Nat} {e : Entry} (hty : dType e.desc = 3) (hfound : s.mem.found = [])
    (i : Option Nat) : ∀ c ∈ (s.newTile n e i).causes, c.1 ≤ 9 := by
  have hhdr : s.hdrCauses n e = [] := by
    have hwords : inputWords e.desc = [] := by
      rw [inputWords, hty]
      rfl
    rw [State.hdrCauses, hwords, List.flatMap_nil]
  have hcauses : (s.newTile n e i).causes = s.shapeCauses e.desc ++ s.descCauses e.ctx e.desc ++ s.urnCauses e.ctx e.desc := by
    have hall : (s.newTile n e i).causes = s.shapeCauses e.desc ++ s.descCauses e.ctx e.desc ++ s.urnCauses e.ctx e.desc ++
      s.hdrCauses n e ++ sramCauses s.mem.found := rfl
    rw [hall, hhdr, hfound, List.append_nil]
    exact List.append_nil _
  have htwo (a b : Bool) (i : Nat) : ∀ c ∈ (if a then [(0x03, i)] else []) ++ (if b then [(0x04, i)] else []), c.1 ≤ 9 := by
    have hone (a : Bool) (v : Nat) (hv : v ≤ 9) : ∀ c ∈ (if a then [(v, i)] else []), c.1 ≤ 9 := by
      intro c hc
      cases a with
      | false => cases hc
      | true =>
        rw [List.mem_singleton.mp hc]
        exact hv
    intro c hc
    obtain ha | hb := List.mem_append.mp hc
    · exact hone a 3 (by decide) c ha
    · exact hone b 4 (by decide) c hb
  intro c hc
  rw [hcauses, List.mem_append, List.mem_append] at hc
  obtain (hshape | hdesc) | hurn := hc
  · unfold State.shapeCauses at hshape
    split at hshape
    case isTrue =>
      obtain ⟨lo, -, hlo⟩ := List.mem_flatMap.mp hshape
      dsimp only at hlo
      split at hlo
      · cases hlo
      · exact htwo _ _ _ c hlo
    case isFalse => cases hshape
  · obtain ⟨w, -, hwc⟩ := List.mem_flatMap.mp hdesc
    split at hwc
    · cases hwc
    · exact htwo _ _ _ c hwc
  · obtain ⟨w, -, hwc⟩ := List.mem_filterMap.mp hurn
    dsimp only at hwc
    split at hwc
    · cases hwc
    · split at hwc
      · cases hwc
      · rw [← Option.some.inj hwc]
        exact State.urnTensCheck_le ..

/-- The objects stand where a tile without such causes is added. -/
theorem State.obj_addTile {s : State} {n : Nat} {x : Tile} (h : ∀ c ∈ x.causes, c.1 ≤ 9) : (s.addTile n x).obj = s.obj := by
  unfold State.addTile
  rw [State.hdrNote_of_plain h]
  have hruns : Runs [.cores, .tele] s (((s.evalNote x.evalC).modCore n (fun c => { c with tiles := c.tiles ++ [x.plain] })).assign n) :=
    Runs.comp (State.assign_runs ..) rfl (Runs.comp (State.modCore_runs ..) rfl ((State.evalNote_runs ..).mono rfl))
  exact hruns.same .obj rfl

/-! The EMIT tile of a core. -/

/-- Of the tiles of a core the one that it has taken last is the EMIT tile of its number. -/
theorem State.emitTile_of_last {s : State} {n : Nat} {y : Tile} {keys : List (Nat × Nat)} (hlast : (s.core n).tiles.getLast? = some y)
    (hkeys : (s.core n).tiles.map Tile.key = keys ++ [y.key]) (hty : dType y.desc = 3) (hnew : ∀ q ∈ keys, q.2 ≠ y.seq) :
    s.emitTile n y.seq = some y := by
  have hsplit : (s.core n).tiles = (s.core n).tiles.dropLast ++ [y] := (List.dropLast_append_getLast? y hlast).symm
  generalize (s.core n).tiles.dropLast = xs at hsplit
  rw [hsplit, List.map_append] at hkeys
  have hxs : xs.map Tile.key = keys := List.append_inj_left' hkeys rfl
  have hothers : xs.filter (fun x => dType x.desc == 3 && x.seq == y.seq) = [] := by
    refine List.filter_eq_nil_iff.mpr fun x hx hp => ?_
    rw [Bool.and_eq_true, beq_iff_eq, beq_iff_eq] at hp
    exact hnew x.key (hxs ▸ List.mem_map_of_mem hx) hp.2
  rw [State.emitTile, hsplit, List.filter_append, hothers, List.nil_append,
    List.filter_cons_of_pos (by rw [hty]; simp), List.head?_cons]

/-! Its acceptance at a first member. -/

/-- The slot of an EMIT tile that drains. -/
def Slot.draining (x : Slot) (d : WorkDesc) : Slot := { x with st := .draining, tile := dTileId d }

/-- The statistics of a layer's gradient are combined with those of an EMIT tile (R235). -/
def StepCtx.emitted (p : StepCtx) (d : WorkDesc) (g : GradStat) : StepCtx :=
  { p with stats := tins p.stats (emLayer d) ((tget .zero p.stats (emLayer d)).join g) }

/-- A state whose core has taken an EMIT tile with its slot `i`, before the drain. -/
def State.emitAdded (v : State) (n : Nat) (e : Entry) (i : Nat) (g : GradStat) : State :=
  ((v.setCore n ((v.core n).setSlot i (((v.core n).slot i).draining e.desc))).modStp e.ctx (fun p => p.emitted e.desc g)).addTile n
    { v.newTile n e (some i) with begun := true }

/-- A key at the beginning of a drain of a first member. -/
structure RedKey.Fresh (k : RedKey) (e : Entry) : Prop where
  ctx : k.ctx = e.ctx
  group : k.group = emGroup e.desc
  tag : k.tag = emTag e.desc
  owner : k.owner = emOwner e.desc
  loc : k.loc = []
  inc : k.inc = []
  incEmpty : k.incEmpty = false
  shared : k.shared = []
  none : k.upTo 0 = k

section
variable {v : State} {n i : Nat} {e : Entry} {r : Ring} (hchain : (v.core n).chainSlot e.ctx (dChain e.desc) = some i)
  (hfound : v.mem.found = []) (hstatus : (v.newTile n e (some i)).status = 0) (hring : v.emRing e.ctx e.desc = some r)
  (hopen : v.keyClosed e.ctx (emGroup e.desc) (emTag e.desc) = false)
  (hkey : v.redKey e.ctx (emGroup e.desc) (emTag e.desc) = none) (hpass : r.isOwner (emOwner e.desc) = false)

theorem State.red_emitAdded (v : State) (n i : Nat) (e : Entry) (g : GradStat) : (v.emitAdded n e i g).red = v.red :=
  (State.addTile_runs ..).same .red rfl

include hchain hfound hstatus hring hopen hkey hpass

theorem State.acceptEmit_first :
    ∃ g k, k.Fresh e ∧ State.acceptEmit n e v = ((v.emitAdded n e i g).putKey k).drainFrom n e.seq 16 0 := by
  have hlost : v.lostNow = none := State.lostNow_of_none hfound
  have hlive : (v.newTile n e (some i)).status ≠ stEmpty := by
    rw [hstatus]
    decide
  have huring : (v.setCore n ((v.core n).setSlot i (((v.core n).slot i).draining e.desc))).emRing e.ctx e.desc = some r :=
    (State.emRing_congr (s := v) (.of_obj rfl) rfl _).trans hring
  obtain ⟨w, hwe⟩ : ∃ w, w = v.emitAdded n e i (gradStats { v.newTile n e (some i) with begun := true } ((v.core n).slot i)) := ⟨_, rfl⟩
  have hwred : w.red = v.red := hwe ▸ v.red_emitAdded n i e _
  have hwopen : w.keyClosed e.ctx (emGroup e.desc) (emTag e.desc) = false :=
    (State.keyClosed_congr (State.redc_congr (congrArg Red.ctx hwred) _) _ _).trans hopen
  have hwkey : w.redKey e.ctx (emGroup e.desc) (emTag e.desc) = none :=
    (State.redKey_congr (congrArg Red.keys hwred) _ _ _).trans hkey
  refine ⟨gradStats { v.newTile n e (some i) with begun := true } ((v.core n).slot i), { w.newKey e.ctx (emGroup e.desc) (emTag e.desc) 0 0 with
    list := emList e.desc
    owner := emOwner e.desc
    local_ := true
    locLevel := w.levelOf e.ctx (emLayer e.desc)
    locEmpty := ((v.core n).slot i).terms == 0
    deliv := none }, ⟨rfl, rfl, rfl, rfl, rfl, rfl, rfl, rfl, rfl⟩, ?_⟩
  unfold State.acceptEmit
  dsimp only
  rw [hchain, Option.getD_some, hlost, if_neg hlive]
  simp only [lostSlot]
  rw [show (v.setCore n ((v.core n).setSlot i { (v.core n).slot i with st := .draining, tile := dTileId e.desc })).emRing e.ctx e.desc =
    some r from huring]
  dsimp only
  rw [hwe] at hwkey hwopen ⊢
  simp only [State.emitAdded, StepCtx.emitted, Slot.draining] at hwkey hwopen ⊢
  refine (if_neg (Bool.eq_false_iff.mp hwopen)).trans ?_
  rw [hwkey, hpass]
  rfl

end

/-- A tile that has been drained: flags may have been raised, and its stage is the one of its completion. -/
theorem Tile.key_drained (f : Tile → Flags) (seq : Nat) (x : Tile) : ((x.flagged f).drained seq).key = x.key := by
  unfold Tile.drained
  split <;> rfl

/-- The core of an EMIT tile of a first member once it has been drained. -/
theorem FirstClosed.core_drainEnd {n : Nat} {k : RedKey} {r : Ring} {s u : State} (h : FirstClosed n k r s u) (hs : CoresOk s) (seq : Nat) :
    CoresOk (u.drainEnd n seq) ∧ OtherCores n s (u.drainEnd n seq) ∧
      ∃ f, (u.drainEnd n seq).core n =
        { s.core n with tiles := (s.core n).tiles.map (fun x => (x.flagged f).drained seq) } := by
  obtain ⟨huok, hother, f, hf⟩ := h.drains.flagged hs
  have hcore := State.core_drainEnd huok n seq
  refine ⟨huok.setCore n _, fun m hm => ?_, f, ?_⟩
  · rw [hcore m, if_neg hm, hother m hm]
  · rw [hcore n, if_pos rfl, hf, List.map_map]
    rfl

section
variable {s : State} {n i : Nat} {e : Entry} {r : Ring} (hw : s.wf = true) (hn : n < 256) (hfound : s.mem.found = [])
  (h : s.Claims n 3 e) (hty : dType e.desc = 3) (hok : (s.tileTaken e).refusal n e = 0)
  (hchain : (s.core n).chainSlot e.ctx (dChain e.desc) = some i) (hstatus : ((s.tileTaken e).newTile n e (some i)).status = 0)
  (hnew : ∀ y ∈ (s.core n).tiles, y.seq ≠ e.seq) (hring : s.emRing e.ctx e.desc = some r)
  (hopen : s.keyClosed e.ctx (emGroup e.desc) (emTag e.desc) = false)
  (hkey : s.redKey e.ctx (emGroup e.desc) (emTag e.desc) = none) (hfirst : r.isFirst (emOwner e.desc) = true)
  (hpass : r.isOwner (emOwner e.desc) = false)
include hw hfound hty hchain hstatus hnew hring hopen hkey hfirst hpass

/-- What an EMIT tile that a first member accepts leaves. -/
theorem State.acceptEmit_drains :
    let v := s.tileTaken e
    let a := State.acceptEmit n e v
    ∃ x, s.Takes a n e x ∧ x.desc = e.desc ∧ x.slot = some i ∧ x.stage = .storing ∧ ((a.core n).slot i).st = .draining ∧
      a.Sent (5 + emGroup e.desc) r.next 0x70 ∧ a.redKey e.ctx (emGroup e.desc) (emTag e.desc) = none ∧
      a.keyClosed e.ctx (emGroup e.desc) (emTag e.desc) = true ∧ (a.redc e.ctx).sent = satAdd 32 (s.redc e.ctx).sent 1 ∧
      Runs [.cores, .urn, .fab, .router, .steps, .red, .obj, .tele] v a := by
  intro v a
  have hvruns : Runs [.sched, .sync, .urn, .router] s v := s.tileTaken_runs e
  have hvcores : v.cores = s.cores := s.cores_tileTaken e
  have hvred : v.red = s.red := hvruns.same .red rfl
  have hvobj : v.obj = s.obj := hvruns.same .obj rfl
  have hvmem : v.mem = s.mem := hvruns.same .mem rfl
  have hvok : CoresOk v := State.coresOk_of_cores (State.twf_cores hw) hvcores
  have hvchain : (v.core n).chainSlot e.ctx (dChain e.desc) = some i := by rw [State.core_congr hvcores]; exact hchain
  have hvring : v.emRing e.ctx e.desc = some r :=
    (State.emRing_congr (.of_obj hvobj) (State.redc_congr (congrArg Red.ctx hvred) _) _).trans hring
  have hvopen : v.keyClosed e.ctx (emGroup e.desc) (emTag e.desc) = false :=
    (State.keyClosed_congr (State.redc_congr (congrArg Red.ctx hvred) _) _ _).trans hopen
  have hvkey : v.redKey e.ctx (emGroup e.desc) (emTag e.desc) = none :=
    (State.redKey_congr (congrArg Red.keys hvred) _ _ _).trans hkey
  obtain ⟨g, k, hk, heq⟩ := State.acceptEmit_first hvchain (by rw [hvmem]; exact hfound) hstatus hvring hvopen hvkey hpass
  obtain ⟨x, hx⟩ : ∃ x : Tile, x = { v.newTile n e (some i) with begun := true } := ⟨_, rfl⟩
  obtain ⟨u, hu⟩ : ∃ u, u = (v.setCore n ((v.core n).setSlot i (((v.core n).slot i).draining e.desc))).modStp e.ctx
    (fun p => p.emitted e.desc g) := ⟨_, rfl⟩
  obtain ⟨w, hwe⟩ : ∃ w, w = v.emitAdded n e i g := ⟨_, rfl⟩
  have hadded : w = u.addTile n x := by rw [hwe, hu, hx]; rfl
  obtain ⟨q, hq⟩ : ∃ q, q = w.putKey k := ⟨_, rfl⟩
  have huruns : Runs [.cores, .steps] v u := hu ▸ Runs.comp (State.modStp_runs ..) rfl ((State.setCore_runs ..).mono rfl)
  have hwruns : Runs [.cores, .fab, .obj, .tele] u w := hadded ▸ State.addTile_runs ..
  have hqruns : Runs [.red] w q := hq ▸ w.putKey_runs k
  have huok : CoresOk u := hu ▸ hvok.setCore n _
  have hucore : u.core n = (v.core n).setSlot i (((v.core n).slot i).draining e.desc) := by
    rw [hu]
    exact State.core_setCore_self hvok rfl n _
  have hxplain : x.plain.desc = e.desc ∧ x.plain.ctx = e.ctx ∧ x.plain.seq = e.seq ∧ x.plain.slot = some i := by
    rw [hx]
    exact ⟨rfl, rfl, rfl, rfl⟩
  obtain ⟨hxdesc, hxctx, hxseq, hxslot⟩ := hxplain
  have huother : OtherCores n s u := by
    rw [hu]
    exact OtherCores.trans (.of_cores hvcores) (State.otherCores_setCore hvok rfl n _)
  obtain ⟨⟨y, htook⟩, hwother, -⟩ := State.addTile_takes huok n x
  have hy : y = x.plain := htook.of_fixed (by rw [hxdesc, hty]; decide)
  rw [hy, ← hadded] at htook
  rw [← hadded] at hwother
  have hutiles : (u.core n).tiles = (s.core n).tiles := by rw [hucore, State.core_congr hvcores]; rfl
  have hkeys := htook.keys
  rw [hutiles] at hkeys
  have hwtile : w.emitTile n e.seq = some x.plain := by
    rw [← hxseq]
    refine State.emitTile_of_last htook.last hkeys (by rw [hxdesc]; exact hty) fun z hz => ?_
    obtain ⟨b, hb, rfl⟩ := List.mem_map.mp hz
    rw [hxseq]
    exact hnew b hb
  have hqcores : q.cores = w.cores := hqruns.same .cores rfl
  have hqtile : q.emitTile n e.seq = some x.plain := by
    rw [State.emitTile, State.core_congr hqcores]
    exact hwtile
  have hqobj : q.obj = s.obj := by
    have h1 : q.obj = w.obj := hqruns.same .obj rfl
    have h2 : w.obj = u.obj := by
      rw [hadded]
      refine State.obj_addTile ?_
      rw [hx]
      exact State.causes_newTile_emit hty (by rw [hvmem]; exact hfound) (some i)
    have h3 : u.obj = v.obj := huruns.same .obj rfl
    exact h1.trans (h2.trans (h3.trans hvobj))
  have hwred : w.red = s.red := by rw [hwe, State.red_emitAdded, hvred]
  have hqredc (c : Nat) : q.redc c = s.redc c := by
    refine State.redc_congr ?_ c
    rw [hq, State.ctx_putKey, hwred]
  have hqring : q.emRing k.ctx x.plain.desc = some r := by
    rw [hxdesc, hk.ctx, State.emRing_congr (.of_obj hqobj) (hqredc _), hring]
  have hqwf : q.wf = true := hqruns.wf (hwruns.wf (huruns.wf (hvruns.wf hw)))
  have hqopen : FirstOpen n k q q 0 := ⟨.refl n k.ctx q, by rw [hk.none, hq]; exact w.redKey_putKey k.is_self, rfl, by decide⟩
  obtain ⟨z, hdrain, hclosed⟩ := FirstClosed.of_drainFrom hqwf hk.loc hk.inc hk.incEmpty hk.shared (by rw [hk.owner]; exact hfirst)
    (by rw [hk.owner]; exact hpass) hqtile (hxctx.trans hk.ctx.symm) (by rw [hxdesc, hk.group]) (by rw [hxdesc, hk.tag]) hqring
    (f := 16) (i := 0) rfl (.inr hqopen)
  have ha : a = z.drainEnd n e.seq := by
    rw [show a = ((v.emitAdded n e i g).putKey k).drainFrom n e.seq 16 0 from heq, ← hwe, ← hq, hdrain]
  have hqok : CoresOk q := State.twf_cores hqwf
  obtain ⟨-, hother, f, hcore⟩ := hclosed.core_drainEnd hqok e.seq
  rw [← ha] at hother hcore
  rw [State.core_congr hqcores] at hcore
  have haruns : Runs [.cores, .urn, .fab, .router, .steps, .red, .obj, .tele] v a := by
    rw [ha]
    exact Runs.trans (huruns.mono rfl) (Runs.trans (hwruns.mono rfl) (Runs.trans (hqruns.mono rfl)
      (Runs.trans (hclosed.drains.runs.mono rfl) ((z.drainEnd_runs n e.seq).mono rfl))))
  have hsched : a.sched = v.sched := haruns.same .sched rfl
  obtain ⟨x', hx'⟩ : ∃ x', x' = (x.plain.flagged f).drained e.seq := ⟨_, rfl⟩
  have hstage : x' = { x.plain.flagged f with stage := .storing } := by
    rw [hx', Tile.drained]
    exact if_pos ⟨by rw [show (x.plain.flagged f).desc = x.plain.desc from rfl, hxdesc]; exact hty, hxseq⟩
  have hgone := hclosed.gone
  have hshut := hclosed.closed
  have hsent := hclosed.sent
  have hout := hclosed.out
  rw [hk.ctx, hk.group, hk.tag] at hgone hshut
  rw [hk.ctx, hqredc] at hsent
  rw [hk.group] at hout
  refine ⟨x', ⟨?_, ?_, fun m hm => ?_, fun b hb => ?_⟩, ?_, ?_, ?_, ?_, ?_, ?_, ?_, ?_, haruns⟩
  · rw [hcore, List.getLast?_map, htook.last, hx']
    rfl
  · rw [hcore, List.map_map]
    have hsame : (fun b : Tile => (b.ctx, b.seq)) ∘ (fun b : Tile => (b.flagged f).drained e.seq) = Tile.key := by
      funext b
      exact Tile.key_drained f e.seq b
    rw [hsame, hkeys, Tile.key, hxctx, hxseq]
    rfl
  · rw [hother m hm, State.core_congr hqcores, hwother m hm, huother m hm]
  · rw [State.dieList_congr hsched] at hb
    exact State.seq_tileTaken hw hb
  · rw [hstage]
    exact hxdesc
  · rw [hstage]
    exact hxslot
  · rw [hstage]
  · have hslot : (a.core n).slot i = (w.core n).slot i := by rw [hcore]; rfl
    have hbegan := htook.slots i
    rw [hucore, Core.slot_setSlot_self _ _ (Slot.ne_free (show SlotSt.draining ≠ .free by decide))] at hbegan
    rw [hslot, hbegan.of_ne (show SlotSt.draining ≠ .init by decide)]
    rfl
  · rw [ha]
    exact hout.of_eq rfl rfl
  · rw [ha]
    exact hgone
  · rw [ha]
    exact hshut
  · rw [ha]
    exact hsent

include hn h hok in
theorem emit_drains :
    ∃ t x, exec (.emit n) s = .next t ∧ s.Takes t n e x ∧ x.desc = e.desc ∧ x.slot = some i ∧ x.stage = .storing ∧
      ((t.core n).slot i).st = .draining ∧ t.Sent (5 + emGroup e.desc) r.next 0x70 ∧
      t.redKey e.ctx (emGroup e.desc) (emTag e.desc) = none ∧ t.keyClosed e.ctx (emGroup e.desc) (emTag e.desc) = true ∧
      (t.redc e.ctx).sent = min ((s.redc e.ctx).sent + 1) (2 ^ 32 - 1) ∧ t.sync = (s.tileTaken e).sync ∧
      Frame [.cores, .sched, .sync, .urn, .fab, .router, .steps, .red, .obj, .tele] s t := by
  obtain ⟨v, hv⟩ : ∃ v, v = s.tileTaken e := ⟨_, rfl⟩
  obtain ⟨a, ha⟩ : ∃ a, a = State.acceptEmit n e v := ⟨_, rfl⟩
  obtain ⟨x, htakes, hdesc, hslot, hstage, hst, hsent, hgone, hshut, hcount, hruns⟩ :=
    State.acceptEmit_drains hw hfound hty hchain hstatus hnew hring hopen hkey hfirst hpass
  rw [← hv, ← ha] at hruns hshut hgone hsent hst htakes hcount
  obtain ⟨t, ht⟩ : ∃ t, t = a.urnTileFlags e.desc (v.urnCauses e.ctx e.desc) := ⟨_, rfl⟩
  have htruns : Runs [.obj] a t := ht ▸ State.urnTileFlags_runs ..
  have htaken : Runs [.sched, .sync, .urn, .router] s v := hv ▸ s.tileTaken_runs e
  have hall : Runs [.cores, .sched, .sync, .urn, .fab, .router, .steps, .red, .obj, .tele] s t :=
    Runs.trans (htaken.mono rfl) (Runs.trans (hruns.mono rfl) (htruns.mono rfl))
  have hmem : t.mem = s.mem := hall.same .mem rfl
  have heq : s.claim n 3 State.acceptEmit = t := by
    rw [State.claim_accepts State.acceptEmit h hok, ← hv, ← ha, ← ht, State.foundDone_of_none (by rw [hmem]; exact hfound)]
  have hcores : t.cores = a.cores := htruns.same .cores rfl
  have hsched : t.sched = a.sched := htruns.same .sched rfl
  have hred : t.red = a.red := htruns.same .red rfl
  have hredc : t.redc e.ctx = a.redc e.ctx := State.redc_congr (congrArg Red.ctx hred) _
  have hsync : t.sync = v.sync := by
    have h1 : t.sync = a.sync := htruns.same .sync rfl
    have h2 : a.sync = v.sync := hruns.same .sync rfl
    exact h1.trans h2
  obtain ⟨hlast, hkeys, hother, hlist⟩ := htakes
  refine ⟨t, x, (need_of (decide_eq_true hn) _).trans (congrArg Host.Outcome.next heq), ⟨?_, ?_, fun m hm => ?_, fun b hb => ?_⟩,
    hdesc, hslot, hstage, ?_, hsent.of_eq (congrArg Router.inj (htruns.same .router rfl)) (congrArg Fab.capped (htruns.same .fab rfl)),
    ?_, ?_, ?_, hsync.trans (congrArg State.sync hv), hall.frame⟩
  · rw [State.core_congr hcores]
    exact hlast
  · rw [State.core_congr hcores]
    exact hkeys
  · rw [State.core_congr hcores]
    exact hother m hm
  · rw [State.dieList_congr hsched] at hb
    exact hlist b hb
  · rw [State.core_congr hcores]
    exact hst
  · rw [State.redKey_congr (congrArg Red.keys hred)]
    exact hgone
  · rw [State.keyClosed_congr hredc]
    exact hshut
  · rw [hredc, hcount]
    rfl

end

/-- Settles O50: the first member's drain, the last chunk of a waiting drain, an arriving chunk by what the units hold of its key,
and the deadline. -/
theorem chunksAreReduced : Obligations.ChunksAreReduced := by
  unfold Obligations.ChunksAreReduced
  intro s hw
  refine ⟨?_, fun d x u hd _ hnext hx hover => handoff_ends hw hd hnext hx hover, ?_, ?_, ?_, ?_, ?_⟩
  · intro n e i r hn hfound hwaits hchosen hty hhere v d hok hchain hstatus hnew hring hopen hkey hfirst hpass
    exact emit_drains hw hn hfound ⟨hwaits, hchosen, .inl hty, hhere⟩ hty hok hchain hstatus hnew hring hopen hkey hfirst hpass
  · intro p hp hoff
    exact (need_of hp _).trans (powered_off hoff _)
  · intro p hrails hp hcur b g tag n
    refine ⟨redChunk_stale hrails hp hcur hw, ?_, ?_, ?_⟩
    · intro hopen hkey hdrains hdata htake
      exact redChunk_waits hrails hp hcur hopen hdata hkey hdrains htake
    · intro q hopen hkey hdrains hdata htake
      exact redChunk_stored hrails hp hcur hopen hdata hkey hdrains htake
    · intro k r l hopen hkey hinc hnew hdone hdata hlocal hring hmore
      exact redChunk_added hrails hp hcur hopen hdata hkey hinc hnew hdone hlocal hring hmore
  · intro p u hrails hp hlen hop hgood hplain hepoch hstep hatt htake
    exact redChunk_held hrails hp hlen hop (State.redTreat_next hgood hplain hepoch hstep hatt) htake
  · intro p hrails hp hlen hop hbad
    by_cases h : rBad p.body = true
    · exact redChunk_fails hrails hp hw hlen hop (by decide) (State.redTreat_bad h)
    · obtain ⟨hplain, hepoch⟩ := hbad.resolve_left h
      exact redChunk_fails hrails hp hw hlen hop (by decide) (State.redTreat_epoch (Bool.eq_false_iff.mpr h) hplain hepoch)
  · intro c g tag k hc hkey hpast
    exact reduceDeadline_passed hw hc hkey hpast

end Sys2Proof.Machine
end


-- ==== Sys2Proof/Proofs/ExchRecords.lean ====
section
/-!
PROOF. The records of the open exchanges, and what the writes, the errors and the end of an EXCHANGE tile can change (R209, R217 to
R229).
-/

namespace Sys2Proof.Machine

/-! Open exchanges. -/

theorem Exch.same_iff {x y : Exch} : x.same y = true ↔ x.ctx = y.ctx ∧ x.id = y.id ∧ x.bwd = y.bwd := by
  simp only [Exch.same, Bool.and_eq_true, beq_iff_eq, and_assoc]

theorem State.exch_congr {s t : State} (h : t.txe.opens = s.txe.opens) (c id : Nat) (b : Bool) : t.exch c id b = s.exch c id b := by
  rw [State.exch, h, State.exch]

theorem State.of_exch {s : State} {c id : Nat} {b : Bool} {x : Exch} (h : s.exch c id b = some x) : x.ctx = c ∧ x.id = id ∧ x.bwd = b := by
  have hp := (List.mem_filter.mp (List.mem_of_mem_head? h)).2
  rw [Bool.and_eq_true, Bool.and_eq_true, beq_iff_eq, beq_iff_eq, beq_iff_eq] at hp
  exact ⟨hp.1.1, hp.1.2, hp.2⟩

theorem State.eq_of_exch_putExch {s : State} {x z : Exch} (h : (s.putExch x).exch x.ctx x.id x.bwd = some z) : z = x := by
  obtain ⟨hc, hi, hb⟩ := State.of_exch h
  have hmem : z ∈ s.txe.opens.map (fun y => if x.same y then x else y) := (List.mem_filter.mp (List.mem_of_mem_head? h)).1
  obtain ⟨y, -, hy⟩ := List.mem_map.mp hmem
  split at hy
  case isTrue => exact hy.symm
  case isFalse hne =>
    rw [← hy] at hc hi hb
    exact absurd (Exch.same_iff.mpr ⟨hc.symm, hi.symm, hb.symm⟩) hne

theorem State.exch_dropExch (s : State) (x : Exch) : (s.dropExch x).exch x.ctx x.id x.bwd = none := by
  rw [State.exch, show (s.dropExch x).txe.opens = s.txe.opens.filter (fun y => !(x.same y)) from rfl, List.filter_filter,
    List.head?_eq_none_iff, List.filter_eq_nil_iff]
  intro y _ hy
  rw [Bool.and_eq_true, Bool.and_eq_true, Bool.and_eq_true, beq_iff_eq, beq_iff_eq, beq_iff_eq] at hy
  obtain ⟨⟨⟨hc, hi⟩, hb⟩, hne⟩ := hy
  rw [Exch.same_iff.mpr ⟨hc.symm, hi.symm, hb.symm⟩] at hne
  cases hne

/-! EXCH_ERR_LOG (R229). -/

/-- The value is logged unless one stands in the log. -/
def State.exchLogged (s : State) (v : Nat) : State := if s.txe.errLog ≠ 0 then s else s.setTxe { s.txe with errLog := v }

theorem ne_zero_of_field {v k : Nat} (a b c d : Nat) (hk : k ≠ 0) (hv : v ≠ 0) : a + v * k + b + c + d ≠ 0 := by
  have hpos : 0 < v * k := Nat.pos_of_ne_zero (Nat.mul_ne_zero hv hk)
  omega

theorem State.exchLog_eq (s : State) (tile cause dev e slot : Nat) :
    ∃ v, (cause ≠ 0 → v ≠ 0) ∧ s.exchLog tile cause dev e slot = s.exchLogged v := by
  exact ⟨tile + cause * 2 ^ 32 + dev * 2 ^ 40 + e * 2 ^ 56 + slot * 2 ^ 68,
    ne_zero_of_field tile (dev * 2 ^ 40) (e * 2 ^ 56) (slot * 2 ^ 68) (pow_ne_zero 32 two_ne_zero), rfl⟩

theorem State.errLog_exchLog (s : State) (tile dev e slot : Nat) {cause : Nat} (h : cause ≠ 0) :
    (s.exchLog tile cause dev e slot).txe.errLog ≠ 0 := by
  obtain ⟨v, hv, heq⟩ := s.exchLog_eq tile cause dev e slot
  rw [heq, State.exchLogged]
  split
  case isTrue hlog => exact hlog
  case isFalse => exact hv h

/-! What holds of each thing that the token exchange engine does with an operand or a message. -/

/-- A relation of states that holds of each thing that the engine does beside a signal's: memory, a buffer and its own records
change, a request of a tile is noted and sent, a refused access is noted. -/
structure ExchClosed (R : State → State → Prop) : Prop extends SignalClosed R where
  quiet : ∀ {s t}, Runs [.cores, .txe, .mem, .urn] s t → R s t
  fab : ∀ s (f : Fab), f.capped = s.fab.capped → R s (s.setFab f)
  refused : ∀ s dev, R s (s.fabFlag 0 dev)

namespace ExchClosed

variable {R : State → State → Prop} (h : ExchClosed R)
include h

theorem foldl {α : Type} {f : State → α → State} (hf : ∀ s x, R s (f s x)) (xs : List α) (s : State) : R s (xs.foldl f s) := by
  induction xs generalizing s with
  | nil => exact h.refl s
  | cons x xs ih => exact h.trans (hf s x) (ih _)

/-- A pass over a state and an exchange. -/
theorem pass {α : Type} {f : State × Exch → α → State × Exch} (hf : ∀ q x, R q.1 (f q x).1) (xs : List α) (q : State × Exch) :
    R q.1 (xs.foldl f q).1 := by
  induction xs generalizing q with
  | nil => exact h.refl q.1
  | cons x xs ih => exact h.trans (hf q x) (ih _)

theorem lookNote (s : State) (c n dev o : Nat) (k : Right) : R s (s.lookNote c n dev o k) := by
  unfold State.lookNote
  dsimp only
  split
  · exact h.refl s
  · exact h.fab s _ rfl

theorem noteRefused (s : State) (c v : Nat) : R s (s.noteRefused c v) := by
  unfold State.noteRefused
  split
  · exact h.trans (h.lookNote ..) (h.refused ..)
  · exact h.refl s

theorem metX (s : State) (c : Nat) (cs : List (Nat × Nat)) : R s (s.metX c cs).1 := h.foldl (fun _ _ => h.noteRefused ..) cs s

theorem meetX (s : State) (x : Exch) (cs : List (Nat × Nat)) : R s (s.meetX x cs).1 := by
  unfold State.meetX
  dsimp only
  split
  · exact h.refl s
  · split
    · exact h.trans (h.metX ..) (h.latch ..)
    · exact h.metX ..

theorem tileWrite (s : State) (n c seq op dev o : Nat) (bs : List Byte) : R s (s.tileWrite n c seq op dev o bs) := by
  have hsend (r : TileReq) : R s ((s.tileReq r).peerWrite (reqPort n) c dev o bs) := by
    have hreq : R s (s.tileReq r) := h.fab s _ rfl
    have htag : R (s.tileReq r) (s.tileReq r).tagNext := h.fab (s.tileReq r) _ rfl
    exact h.trans hreq (h.trans htag (h.capInject ..))
  exact hsend _

theorem globalStore (s : State) (n c seq op dev cls : Nat) (p : Nat × List Byte) : R s (s.globalStore n c seq op dev cls p).1 := by
  unfold State.globalStore
  dsimp only
  split
  · exact h.trans (h.lookNote ..) (h.refused ..)
  · split
    · exact h.lookNote ..
    · exact h.trans (h.lookNote s c p.2.length dev p.1 .write) (h.tileWrite ..)

theorem globalStores (n c seq op dev cls : Nat) (ps : List (Nat × List Byte)) (s : State) :
    R s (State.globalStores n c seq op dev cls ps s).1 := by
  induction ps generalizing s with
  | nil => exact h.refl s
  | cons p ps ih => exact h.trans (h.globalStore ..) (ih _)

theorem applyStore (s : State) (n c seq : Nat) (x : Store) : R s (s.applyStore n c seq x).1 := by
  obtain ⟨cls, key, a, bs, op⟩ := x
  unfold State.applyStore
  dsimp only
  split
  case h_1 =>
    split
    · exact h.refl s
    · exact h.quiet ((State.storeDev_runs ..).mono rfl)
  case h_2 => exact h.quiet ((State.setCore_runs ..).mono rfl)
  case h_3 => exact h.quiet ((State.urnStore_runs ..).mono rfl)
  case h_4 => exact h.globalStores ..

theorem xPut (s : State) (x : TxeTile) (o : XOp) (off : Nat) (bs : List Byte) : R s (s.xPut x o off bs).1 := by
  unfold State.xPut
  split
  · exact h.refl s
  · split
    · exact h.refl s
    · exact h.applyStore ..

theorem exchPut (q : State × Exch) (o : XOp) (off : Nat) (bs : List Byte) : R q.1 (State.exchPut q o off bs).1 :=
  h.trans (h.xPut ..) (h.meetX ..)

theorem reports (q : State × Exch) (srcs : List Nat) : R q.1 (State.reports q srcs).1 := by
  unfold State.reports
  dsimp only
  refine h.pass (fun q x => ?_) _ q
  split
  · exact h.refl q.1
  · exact h.exchPut ..

theorem writeShapes (q : State × Exch) (counts : Nat → Nat) : R q.1 (State.writeShapes q counts).1 := by
  unfold State.writeShapes
  dsimp only
  refine h.pass (fun q x => ?_) _ q
  split
  · exact h.exchPut ..
  · exact h.trans (h.exchPut ..) (h.exchPut ..)

theorem putExch (s : State) (x : Exch) : R s (s.putExch x) := h.quiet ((State.putExch_runs ..).mono rfl)

theorem xSend (s : State) (x : Exch) (vc fop round dst w2 size : Nat) (es : List Nat) : R s (s.xSend x vc fop round dst w2 size es) := by
  unfold State.xSend
  exact h.foldl (fun _ _ => h.inject ..) _ s

theorem exchErr (s : State) (x : Exch) (log cause dev e slot : Nat) : R s (s.exchErr x log cause dev e slot) := by
  unfold State.exchErr
  exact h.trans (h.quiet ((State.exchLog_runs ..).mono rfl)) (h.trans (h.meetX ..) (h.putExch ..))

end ExchClosed

/-- Such a relation that holds of a tile's end too: its record is written, its buffers are freed, flags are raised. -/
structure ExchEnds (R : State → State → Prop) : Prop extends ExchClosed R where
  ends : ∀ {s t}, Runs [.mem, .urn, .host, .obj, .out] s t → R s t

namespace ExchEnds

variable {R : State → State → Prop} (h : ExchEnds R)
include h

theorem finish (s : State) (c : Cpl) : R s (s.finish c) := by
  have hrec : R s (if c.status ≠ stOk ∨ dCplAlways c.desc = true then s.cplWrite c.ctx (c.bytes (s.ftRead hubPs)) else s) := by
    split
    · exact h.ends ((State.cplWrite_runs ..).mono rfl)
    · exact h.refl s
  have hflags (u : State) : R u (if c.flags = 0 then u else u.orOv (formatFlagsId + c.ctx) c.flags.toNat) := by
    split
    · exact h.refl u
    · exact h.ends ((State.setOv_runs ..).mono rfl)
  have hfail (u : State) : R u (if failing c.status then u.latch c.ctx 1 else u) := by
    split
    · exact h.latch ..
    · exact h.refl u
  exact h.trans hrec (h.trans (hflags _) (h.trans (hfail _) (h.trans (h.signalWord ..) (h.signalWord ..))))

theorem dropTileReqs (s : State) (n c seq : Nat) : R s (s.dropTileReqs n c seq) := h.fab s _ rfl

theorem endX (s : State) (x : TxeTile) : R s (s.endX x) :=
  h.trans (h.ends ((freeAll_runs x.ctx x.frees s).mono rfl)) (h.trans (h.dropTileReqs ..) (h.finish ..))

theorem finishX (s : State) (x : TxeTile) : R s (s.finishX x) := by
  unfold State.finishX
  dsimp only
  refine h.trans (h.metX s x.ctx x.causes) ?_
  split
  · exact h.quiet ((State.setTxe_runs ..).mono rfl)
  · exact h.endX ..

end ExchEnds

/-! The signals of an exchange (R208, R209). -/

/-- The arrival signal of an exchange is due. -/
def State.arrives (s : State) (x : Exch) : Bool :=
  !x.arriveDone && x.allotFinal && wholeRows x.rowBytes (rowLen (s.tensAt (dWord x.tile.desc 5))) == (x.allot.map (·.2)).sum

/-- The return signal of an exchange is due. -/
def State.returns (s : State) (x : Exch) : Bool :=
  !x.returnDone && (match x.expect with
    | some n => wholeRows x.retBytes (rowLen (s.tensAt (dWord x.tile.desc 6))) == n
    | none => false)

/-- An exchange with the signals that are due counted as applied. -/
def State.signalledX (s : State) (x : Exch) : Exch :=
  { x with arriveDone := x.arriveDone || s.arrives x, returnDone := x.returnDone || s.returns x }

/-- Both signals of an exchange are applied. -/
def Exch.over (x : Exch) : Bool := x.arriveDone && x.returnDone

/-- An exchange is closed once both its signals are applied, and replaced before. -/
def State.settleX (s : State) (x : Exch) : State := if x.over then s.dropExch x else s.putExch x

/-- A signal is applied if it is due. -/
def State.signalIf (s : State) (due : Bool) (c w : Nat) : State := if due then s.signalWord c w else s

theorem State.exchGo_eq {s : State} {c id : Nat} {b : Bool} {x : Exch} (h : s.exch c id b = some x) :
    s.exchGo c id b =
      let u := ((s.settleX (s.signalledX x)).signalIf (s.arrives x) c (xArrive x.tile.desc)).signalIf (s.returns x) c
        (xReturn x.tile.desc)
      if (s.signalledX x).over && !x.tileDone then u.finishX x.tile else u := by
  unfold State.exchGo
  rw [h]
  rfl

theorem SignalClosed.signalIf {R : State → State → Prop} (h : SignalClosed R) (s : State) (due : Bool) (c w : Nat) :
    R s (s.signalIf due c w) := by
  unfold State.signalIf
  split
  · exact h.signalWord ..
  · exact h.refl s

theorem State.signalIf_runs (s : State) (due : Bool) (c w : Nat) : Runs [.sync, .fab, .router, .steps, .obj] s (s.signalIf due c w) := by
  unfold State.signalIf
  split
  · exact State.signalWord_runs ..
  · exact .refl s

theorem ExchEnds.exchGo {R : State → State → Prop} (h : ExchEnds R) (s : State) (c id : Nat) (b : Bool) : R s (s.exchGo c id b) := by
  cases hx : s.exch c id b with
  | none =>
    unfold State.exchGo
    rw [hx]
    exact h.refl s
  | some x =>
    rw [State.exchGo_eq hx]
    have hsettle : R s (s.settleX (s.signalledX x)) := by
      unfold State.settleX
      split
      · exact h.quiet ((State.dropExch_runs ..).mono rfl)
      · exact h.putExch ..
    have hsignals := h.trans hsettle (h.trans (h.signalIf (s.settleX (s.signalledX x)) (s.arrives x) c (xArrive x.tile.desc))
      (h.signalIf _ (s.returns x) c (xReturn x.tile.desc)))
    dsimp only
    split
    · exact h.trans hsignals (h.finishX ..)
    · exact hsignals

end Sys2Proof.Machine
end


-- ==== Sys2Proof/Proofs/ExchWrites.lean ====
section
/-!
PROOF. The writes of an EXCHANGE tile and the signals of its exchange (R208, R209, R219, R288): what they store, and what they leave
of the exchange.
-/

namespace Sys2Proof.Machine

/-! Relations that all this keeps. -/

theorem exchClosed_ov {id : Nat} (h : id ≠ syncStatusId) (hf : id ≠ fabStatusId) : ExchClosed fun s t => t.ov id = s.ov id where
  toSignalClosed := signalClosed_ov h
  quiet h := State.ov_congr (h.same .obj rfl) id
  fab _ _ _ := rfl
  refused s _ := State.ov_setOv_of_ne s _ hf.symm

theorem exchClosed_stands : ExchClosed StepsStand where
  toSignalClosed := signalClosed_stands
  quiet h := .of_same (h.same .obj rfl) (h.same .steps rfl)
  fab _ _ _ := .of_same rfl rfl
  refused s dev := .fabFlag s 0 dev

theorem exchEnds_failKept : ExchEnds FailKept where
  toSignalClosed := signalClosed_failKept
  quiet h := .of_steps (h.same .steps rfl)
  fab _ _ _ := .of_steps rfl
  refused _ _ := .of_steps rfl
  ends h := .of_steps (h.same .steps rfl)

/-- Each packet that waits to enter the router goes on waiting. -/
def SentKept (s t : State) : Prop := ∀ p, s.Waiting p → t.Waiting p

theorem SentKept.of_same {s t : State} (hr : t.router.inj = s.router.inj) (hf : t.fab.capped = s.fab.capped) : SentKept s t := fun p hp => by
  unfold State.Waiting at hp ⊢
  rwa [hr, hf]

theorem SentKept.of_runs {s t : State} {ps : List Part} (h : Runs ps s t) (hr : ps.contains .router = false) (hf : ps.contains .fab = false) :
    SentKept s t :=
  .of_same (congrArg Router.inj (h.same .router hr)) (congrArg Fab.capped (h.same .fab hf))

theorem SentKept.inject (s : State) (port : Nat) (p : Packet) : SentKept s (s.inject port p) := by
  rintro q (⟨i, hi⟩ | hcap)
  · refine .inl ⟨i, ?_⟩
    rw [show (s.inject port p).router.inj = tset [] s.router.inj port (tget [] s.router.inj port ++ [p]) from rfl]
    by_cases h : port = i
    · rw [h, tget_tset_self_of_ne _ _ _ (List.append_ne_nil_of_right_ne_nil _ (List.cons_ne_nil p []))]
      exact List.mem_append_left _ hi
    · rw [tget_tset_of_ne _ _ _ h]
      exact hi
  · exact .inr hcap

theorem SentKept.trans {s t u : State} (h : SentKept s t) (k : SentKept t u) : SentKept s u := fun p hp => k p (h p hp)

theorem SentKept.capInject (s : State) (port : Nat) (p : Packet) : SentKept s (s.capInject port p) := by
  unfold State.capInject
  split
  · rintro q (hq | hcap)
    · exact .inl hq
    · refine .inr ?_
      rw [show (s.setFab { s.fab with capped := s.fab.capped ++ [(port, p)] }).fab.capped = s.fab.capped ++ [(port, p)] from rfl,
        List.map_append]
      exact List.mem_append_left _ hcap
  · obtain ⟨u, hu⟩ : ∃ u, u = s.setFab { s.fab with
      hot := s.fab.hot.map (fun x => if x.dest = p.dest ∧ p.vc = 2 then { x with sent := x.sent + 1 } else x) } := ⟨_, rfl⟩
    rw [← hu]
    exact SentKept.trans (t := u) (.of_same (by rw [hu]; rfl) (by rw [hu]; rfl)) (SentKept.inject u port p)

theorem SentKept.failVote (s : State) (c r : Nat) : SentKept s (s.failVote c r) := by
  unfold State.failVote
  dsimp only
  split
  · exact fun _ => id
  · refine SentKept.trans (t := s.send hubSelf 0 c (s.home c) (commitBody 0x60 1 c (s.stp c).step (s.stp c).attempt r 0)) ?_
      (.of_same rfl rfl)
    exact SentKept.inject s hubSelf _

theorem SentKept.latch (s : State) (c r : Nat) : SentKept s (s.latch c r) := by
  unfold State.latch
  dsimp only
  split
  case isFalse => exact fun _ => id
  case isTrue =>
    split
    · refine SentKept.trans ?_ (SentKept.failVote _ c _)
      exact .of_same rfl rfl
    · refine SentKept.trans ?_ (SentKept.failVote _ c _)
      exact .of_same rfl rfl
    · exact .of_same rfl rfl
    · exact fun _ => id

theorem exchEnds_sent : ExchEnds SentKept where
  refl _ _ := id
  trans := .trans
  setCtr s i v := by
    unfold State.setCtr
    dsimp only
    split <;> exact .of_same rfl rfl
  syncFlag _ _ _ := .of_same rfl rfl
  latch := .latch
  inject := .inject
  capInject := .capInject
  quiet h := .of_runs h rfl rfl
  fab _ _ hf := .of_same rfl hf
  refused _ _ := .of_same rfl rfl
  ends h := .of_runs h rfl rfl

theorem State.Sent.kept {s t : State} {vc dest fop : Nat} (h : s.Sent vc dest fop) (k : SentKept s t) : t.Sent vc dest fop := by
  obtain ⟨p, hp, hfields⟩ := h
  exact ⟨p, k p hp, hfields⟩

/-! The records that a tile's end leaves. -/

theorem State.txe_finishX (s : State) (x : TxeTile) :
    (s.finishX x).txe.opens = s.txe.opens ∧ (s.finishX x).txe.errLog = s.txe.errLog := by
  have hmet : (s.metX x.ctx x.causes).1.txe = s.txe := (State.metX_runs ..).same .txe rfl
  unfold State.finishX
  dsimp only
  split
  · have hopens : (s.metX x.ctx x.causes).1.txe.opens = s.txe.opens := congrArg Txe.opens hmet
    have hlog : (s.metX x.ctx x.causes).1.txe.errLog = s.txe.errLog := congrArg Txe.errLog hmet
    exact ⟨hopens, hlog⟩
  · have hend (u : State) (y : TxeTile) : (u.endX y).txe = u.txe := (u.endX_runs y).same .txe rfl
    rw [hend, hmet]
    exact ⟨rfl, rfl⟩

/-! Writes through a word of a tile (R288, R474). -/

theorem State.putBytes_mem {s t : State} (h : t.mem = s.mem) (a : Nat) (bs : List Byte) : (t.putBytes a bs).mem = (s.putBytes a bs).mem := by
  induction bs generalizing s t a with
  | nil => exact h
  | cons b bs ih =>
    refine ih ?_ (a + 1)
    unfold State.putByte
    rw [State.mapped_congr (congrArg Mem.gddr h), h]
    split
    · rfl
    · exact h

theorem State.storeDev_mem {s t : State} (h : t.mem = s.mem) (a : Nat) (bs : List Byte) : (t.storeDev a bs).mem = (s.storeDev a bs).mem := by
  have hbytes := State.putBytes_mem h a bs
  unfold State.storeDev
  dsimp only
  generalize t.putBytes a bs = u at hbytes ⊢
  generalize s.putBytes a bs = v at hbytes ⊢
  generalize List.range (bs.length / 64 + 1) = is
  induction is generalizing u v with
  | nil => exact hbytes
  | cons i is ih =>
    rw [List.foldl_cons, List.foldl_cons]
    refine ih _ _ ?_
    rw [State.mapped_congr (congrArg Mem.gddr hbytes)]
    split
    · rw [State.unpoison, State.unpoison, hbytes]
      rfl
    · exact hbytes

/-- Two states in which a tile's store has one effect on memory and on the buffers. -/
structure SameStores (s t : State) : Prop where
  mem : t.mem = s.mem
  urn : t.urn = s.urn
  evalMem : t.ov evalMemId = s.ov evalMemId
  evalCfg : t.ov evalCfgId = s.ov evalCfgId
  partition : t.ov urnPartitionId = s.ov urnPartitionId

namespace SameStores

variable {s t u : State}

theorem of_same (hm : t.mem = s.mem) (hu : t.urn = s.urn) (ho : t.obj = s.obj) : SameStores s t :=
  ⟨hm, hu, State.ov_congr ho _, State.ov_congr ho _, State.ov_congr ho _⟩

/-- After effects that reach no object but flags. -/
theorem of_ov {s' t' : State} (h : SameStores s' t') (hs : ∀ id, id ≠ syncStatusId → id ≠ fabStatusId → s.ov id = s'.ov id)
    (ht : ∀ id, id ≠ syncStatusId → id ≠ fabStatusId → t.ov id = t'.ov id) (hm : t.mem = s.mem) (hu : t.urn = s.urn) :
    SameStores s t := by
  refine ⟨hm, hu, ?_, ?_, ?_⟩
  · rw [hs _ (by decide) (by decide), ht _ (by decide) (by decide), h.evalMem]
  · rw [hs _ (by decide) (by decide), ht _ (by decide) (by decide), h.evalCfg]
  · rw [hs _ (by decide) (by decide), ht _ (by decide) (by decide), h.partition]

variable (h : SameStores s t)
include h

theorem evalForbids (c a n : Nat) : t.evalForbids c a n = s.evalForbids c a n := by
  unfold State.evalForbids State.evalOn State.evalCtx
  rw [h.evalMem, h.evalCfg]

theorem urnBuf (k : Nat) : t.urnBuf k = s.urnBuf k := by rw [State.urnBuf, h.urn, State.urnBuf]

theorem urnLink (c i : Nat) : t.urnLink c i = s.urnLink c i := by
  have hcount : t.urnCount c = s.urnCount c := by rw [State.urnCount, h.partition, State.urnCount]
  have hclass : t.urnClass c = s.urnClass c := by rw [State.urnClass, h.urn, State.urnClass]
  unfold State.urnLink State.urnAfter
  rw [h.urn, hcount, hclass]

theorem urnStore (k off : Nat) (bs : List Byte) : (t.urnStore k off bs).urn = (s.urnStore k off bs).urn := by
  unfold State.urnStore
  dsimp only
  rw [h.urnBuf, h.urnLink, h.urn]
  rfl

theorem urnLoad (k off n : Nat) : t.urnLoad k off n = s.urnLoad k off n := by
  unfold State.urnLoad
  rw [h.urnBuf, h.urnLink, h.urn]

end SameStores

theorem State.globalStores_still (n c seq op dev cls : Nat) (ps : List (Nat × List Byte)) (s : State) :
    (State.globalStores n c seq op dev cls ps s).1.mem = s.mem ∧ (State.globalStores n c seq op dev cls ps s).1.urn = s.urn :=
  ⟨(State.globalStores_runs ..).same .mem rfl, (State.globalStores_runs ..).same .urn rfl⟩

theorem State.applyStore_stores {s t : State} (h : SameStores s t) (n c seq seq' : Nat) (x : Store) :
    (t.applyStore n c seq x).1.mem = (s.applyStore n c seq' x).1.mem ∧ (t.applyStore n c seq x).1.urn = (s.applyStore n c seq' x).1.urn := by
  obtain ⟨cls, key, a, bs, op⟩ := x
  have hbyte (i : Nat) : t.memByte i = s.memByte i := by rw [State.memByte, h.mem, State.memByte]
  unfold State.applyStore
  dsimp only
  split
  case h_1 =>
    rw [h.evalForbids]
    simp only [hbyte]
    split
    · exact ⟨h.mem, h.urn⟩
    · refine ⟨State.storeDev_mem h.mem _ _, ?_⟩
      have hsame (u : State) (bs : List Byte) : (u.storeDev a bs).urn = u.urn := (State.storeDev_runs ..).same .urn rfl
      rw [hsame, hsame, h.urn]
  case h_2 => exact ⟨h.mem, h.urn⟩
  case h_3 =>
    simp only [h.urnLoad]
    exact ⟨h.mem, h.urnStore ..⟩
  case h_4 =>
    obtain ⟨htm, htu⟩ := State.globalStores_still n c seq op (bits a 41 16) cls (writePieces bs.length (bits a 0 41) bs) t
    obtain ⟨hsm, hsu⟩ := State.globalStores_still n c seq' op (bits a 41 16) cls (writePieces bs.length (bits a 0 41) bs) s
    exact ⟨htm.trans (h.mem.trans hsm.symm), htu.trans (h.urn.trans hsu.symm)⟩

/-- Two words of tiles through which the same is written. -/
structure XOp.Alike (o q : XOp) : Prop where
  t : q.t = o.t
  op : q.op = o.op
  len : q.len = o.len

theorem State.xPut_stores {s t : State} (h : SameStores s t) {x y : TxeTile} (hctx : y.ctx = x.ctx) {o q : XOp} (hq : o.Alike q)
    (hbad : y.bad o.op = x.bad o.op) (off : Nat) (bs : List Byte) :
    (t.xPut y q off bs).1.mem = (s.xPut x o off bs).1.mem ∧ (t.xPut y q off bs).1.urn = (s.xPut x o off bs).1.urn := by
  unfold State.xPut
  rw [hq.op, hq.t, hq.len, hbad, hctx, h.evalForbids]
  split
  · exact ⟨h.mem, h.urn⟩
  · split
    · exact ⟨h.mem, h.urn⟩
    · exact State.applyStore_stores h ..

/-- A cause that a write of a tile can meet: none of those of an urn's check. -/
def StoreCause (c : Nat × Nat) : Prop := c.1 = 0x03 ∨ c.1 = 0x05 ∨ c.1 = 0x06 ∨ c.1 = 0x0A

theorem State.globalStores_causes (n c seq op dev cls : Nat) (ps : List (Nat × List Byte)) (s : State) :
    ∀ q ∈ (State.globalStores n c seq op dev cls ps s).2, StoreCause q := by
  induction ps generalizing s with
  | nil => exact fun _ hq => (by cases hq)
  | cons p ps ih =>
    intro q hq
    obtain hq | hq := List.mem_append.mp hq
    · unfold State.globalStore at hq
      dsimp only at hq
      split at hq
      · rw [List.mem_singleton.mp hq]
        exact .inr (.inl rfl)
      · split at hq
        · rw [List.mem_singleton.mp hq]
          exact .inr (.inr (.inl rfl))
        · cases hq
    · exact ih _ q hq

theorem State.xPut_causes (s : State) (x : TxeTile) (o : XOp) (off : Nat) (bs : List Byte) : ∀ q ∈ (s.xPut x o off bs).2, StoreCause q := by
  unfold State.xPut
  intro q hq
  split at hq
  · cases hq
  · split at hq
    · rw [List.mem_singleton.mp hq]
      exact .inr (.inr (.inr rfl))
    · unfold State.applyStore at hq
      dsimp only at hq
      split at hq
      · split at hq
        · rw [List.mem_singleton.mp hq]
          exact .inr (.inr (.inr rfl))
        · dsimp only at hq
          split at hq
          · rw [List.mem_singleton.mp hq]
            exact .inl rfl
          · cases hq
      · cases hq
      · cases hq
      · exact State.globalStores_causes _ _ _ _ _ _ _ _ q hq

/-! An exchange whose tile has met causes of writes. -/

/-- From `x` to `y` of an exchange only causes of writes have been added to its tile. -/
structure Exch.Met (x y : Exch) : Prop where
  rest : ({ y with tile := { y.tile with causes := x.tile.causes } } : Exch) = x
  more : ∃ cs, y.tile.causes = x.tile.causes ++ cs ∧ ∀ c ∈ cs, StoreCause c

namespace Exch.Met

theorem refl (x : Exch) : x.Met x := ⟨rfl, [], (List.append_nil _).symm, fun _ h => (by cases h)⟩

theorem trans {x y z : Exch} (h : x.Met y) (k : y.Met z) : x.Met z := by
  obtain ⟨cs, hcs, hc⟩ := h.more
  obtain ⟨ds, hds, hd⟩ := k.more
  refine ⟨?_, cs ++ ds, by rw [hds, hcs, List.append_assoc], fun c hm => ?_⟩
  · have hy : ({ z with tile := { z.tile with causes := x.tile.causes } } : Exch) = { y with tile := { y.tile with causes := x.tile.causes } } :=
      congrArg (fun w : Exch => { w with tile := { w.tile with causes := x.tile.causes } }) k.rest
    exact hy.trans h.rest
  · obtain hm | hm := List.mem_append.mp hm
    · exact hc c hm
    · exact hd c hm

section
variable {x y : Exch} (h : x.Met y)
include h

theorem ctx : y.ctx = x.ctx := (congrArg Exch.ctx h.rest :)
theorem id : y.id = x.id := (congrArg Exch.id h.rest :)
theorem bwd : y.bwd = x.bwd := (congrArg Exch.bwd h.rest :)
theorem layer : y.layer = x.layer := (congrArg Exch.layer h.rest :)
theorem tileDone : y.tileDone = x.tileDone := (congrArg Exch.tileDone h.rest :)
theorem tileCtx : y.tile.ctx = x.tile.ctx := (congrArg (fun w : Exch => w.tile.ctx) h.rest :)
theorem tileSeq : y.tile.seq = x.tile.seq := (congrArg (fun w : Exch => w.tile.seq) h.rest :)

theorem bad (i : Nat) : y.tile.bad i = x.tile.bad i := by
  obtain ⟨cs, hcs, hc⟩ := h.more
  have hnone : cs.any (fun c => (c.1 == 8 || c.1 == 9) && c.2 == i) = false := by
    rw [List.any_eq_false]
    intro c hm hbad
    rw [Bool.and_eq_true, Bool.or_eq_true, beq_iff_eq, beq_iff_eq] at hbad
    have hcause := hc c hm
    unfold StoreCause at hcause
    omega
  rw [TxeTile.bad, hcs, List.any_append, hnone, Bool.or_false, TxeTile.bad]

end

end Exch.Met

theorem StoreCause.plain {c : Nat × Nat} (h : StoreCause c) : plainCause c.1 = c.1 := by
  have hle : c.1 ≤ 10 := by
    unfold StoreCause at h
    omega
  have hrefused : isRefused c.1 = false := decide_eq_false (by omega)
  rw [plainCause, hrefused]
  rfl

theorem State.meetX_met (s : State) (x : Exch) {cs : List (Nat × Nat)} (h : ∀ c ∈ cs, StoreCause c) : x.Met (s.meetX x cs).2 := by
  unfold State.meetX
  dsimp only
  split
  · exact .refl x
  · split
    · exact .refl x
    · refine ⟨rfl, cs, ?_, h⟩
      have hplain : cs.map (fun c => (plainCause c.1, c.2)) = cs := by
        conv_rhs => rw [← List.map_id cs]
        exact List.map_congr_left fun c hc => by rw [(h c hc).plain]; rfl
      exact congrArg (x.tile.causes ++ ·) hplain

theorem State.exchPut_met (q : State × Exch) (o : XOp) (off : Nat) (bs : List Byte) : q.2.Met (State.exchPut q o off bs).2 :=
  State.meetX_met _ _ fun c hc => State.xPut_causes _ _ _ _ _ c hc

theorem Exch.Met.pass {α : Type} {f : State × Exch → α → State × Exch} (hf : ∀ (q : State × Exch) x, q.2.Met (f q x).2) (xs : List α) (q : State × Exch) :
    q.2.Met (xs.foldl f q).2 := by
  induction xs generalizing q with
  | nil => exact .refl q.2
  | cons x xs ih => exact (hf q x).trans (ih _)

theorem State.reports_met (q : State × Exch) (srcs : List Nat) : q.2.Met (State.reports q srcs).2 := by
  unfold State.reports
  dsimp only
  refine .pass (fun q x => ?_) _ q
  split
  · exact .refl q.2
  · exact State.exchPut_met ..

theorem State.writeShapes_met (q : State × Exch) (counts : Nat → Nat) : q.2.Met (State.writeShapes q counts).2 := by
  unfold State.writeShapes
  dsimp only
  refine .pass (fun q x => ?_) _ q
  split
  · exact State.exchPut_met ..
  · exact (State.exchPut_met ..).trans (State.exchPut_met ..)

/-- What a write of an exchange stores, from a state with the same memory and buffers. -/
theorem State.exchPut_stores {s t : State} (h : SameStores s t) {x : TxeTile} {y : Exch} (hctx : y.tile.ctx = x.ctx) {o q : XOp}
    (hq : o.Alike q) (hbad : y.tile.bad o.op = x.bad o.op) (off : Nat) (bs : List Byte) :
    (State.exchPut (t, y) q off bs).1.mem = (s.xPut x o off bs).1.mem ∧ (State.exchPut (t, y) q off bs).1.urn = (s.xPut x o off bs).1.urn := by
  obtain ⟨hm, hu⟩ := State.xPut_stores h hctx hq hbad off bs
  have hmeet := (t.xPut y.tile q off bs).1.meetX_runs y (t.xPut y.tile q off bs).2
  have hmem : (State.exchPut (t, y) q off bs).1.mem = (t.xPut y.tile q off bs).1.mem := hmeet.same .mem rfl
  have hurn : (State.exchPut (t, y) q off bs).1.urn = (t.xPut y.tile q off bs).1.urn := hmeet.same .urn rfl
  exact ⟨hmem.trans hm, hurn.trans hu⟩

/-! The signals of an exchange that stays open. -/

theorem State.exchGo_open {s : State} {c id : Nat} {b : Bool} {x z : Exch} (hx : x.ctx = c ∧ x.id = id ∧ x.bwd = b)
    (h : ∀ y, s.exch c id b = some y → y = x) (hz : (s.exchGo c id b).exch c id b = some z) :
    (∃ a r, z = { x with arriveDone := a, returnDone := r }) ∧ (s.exchGo c id b).mem = s.mem ∧ (s.exchGo c id b).urn = s.urn := by
  obtain ⟨hc, hi, hb⟩ := hx
  cases hy : s.exch c id b with
  | none =>
    have hsame : s.exchGo c id b = s := by
      unfold State.exchGo
      rw [hy]
    rw [hsame, hy] at hz
    cases hz
  | some y =>
    have heq := h y hy
    subst heq
    rw [State.exchGo_eq hy] at hz ⊢
    obtain ⟨w, hw⟩ : ∃ w, w = s.settleX (s.signalledX y) := ⟨_, rfl⟩
    obtain ⟨u, hu⟩ : ∃ u, u = (w.signalIf (s.arrives y) c (xArrive y.tile.desc)).signalIf (s.returns y) c (xReturn y.tile.desc) := ⟨_, rfl⟩
    have huruns : Runs [.sync, .fab, .router, .steps, .obj] w u :=
      hu ▸ Runs.trans (State.signalIf_runs ..) (State.signalIf_runs ..)
    have huopens : u.txe.opens = w.txe.opens := congrArg Txe.opens (huruns.same .txe rfl)
    rw [← hw, ← hu] at hz ⊢
    dsimp only at hz ⊢
    by_cases hover : (s.signalledX y).over = true
    · have hwnone : w.exch c id b = none := by
        rw [hw, State.settleX, if_pos hover, ← hc, ← hi, ← hb]
        exact s.exch_dropExch (s.signalledX y)
      have hnone : (if (s.signalledX y).over && !y.tileDone then u.finishX y.tile else u).exch c id b = none := by
        split
        · rw [State.exch_congr ((u.txe_finishX y.tile).1.trans huopens), hwnone]
        · rw [State.exch_congr huopens, hwnone]
      rw [hnone] at hz
      cases hz
    · rw [Bool.not_eq_true] at hover
      rw [hover, Bool.false_and, if_neg Bool.false_ne_true] at hz ⊢
      have hput : w = s.putExch (s.signalledX y) := by rw [hw, State.settleX, if_neg (Bool.eq_false_iff.mp hover)]
      rw [State.exch_congr huopens, hput, ← hc, ← hi, ← hb] at hz
      have hzy : z = s.signalledX y := State.eq_of_exch_putExch hz
      refine ⟨⟨_, _, hzy⟩, ?_, ?_⟩
      · have h1 : u.mem = w.mem := huruns.same .mem rfl
        rw [h1, hput]
        rfl
      · have h1 : u.urn = w.urn := huruns.same .urn rfl
        rw [h1, hput]
        rfl

end Sys2Proof.Machine
end


-- ==== Sys2Proof/Proofs/ExchAdmission.lean ====
section
/-!
PROOF. The messages of admission: COUNT at a home, GRANT at a source, ALLOT at a replica (R210 to R213, R217, R219).
-/

namespace Sys2Proof.Machine

/-! Messages that leave. -/

theorem sent_foldl {α : Type} {f : State → α → State} (hf : ∀ s x, SentKept s (f s x)) {vc dest fop : Nat} {xs : List α} {x : α}
    (hx : x ∈ xs) (h : ∀ s : State, (f s x).Sent vc dest fop) (s : State) : (xs.foldl f s).Sent vc dest fop := by
  have hkept (ys : List α) (t : State) : SentKept t (ys.foldl f t) := by
    induction ys generalizing t with
    | nil => exact fun _ => id
    | cons y ys ih => exact SentKept.trans (hf t y) (ih _)
  induction xs generalizing s with
  | nil => cases hx
  | cons y ys ih =>
    obtain rfl | hmem := List.mem_cons.mp hx
    · exact (h s).kept (hkept ys _)
    · exact ih hmem _

theorem State.fop_xBody (s : State) (c fop id layer : Nat) (b : Bool) (round : Nat) (more : Bool) (n w2 w3 : Nat) (data : List Byte) :
    bytesField (s.xBody c fop id layer b round more n w2 w3 data) 0 8 = fop % 2 ^ 8 := by
  unfold State.xBody
  rw [bytesField_append_left _ (by rw [length_mkBody]; decide)]
  exact bytesField_mkBody [] _ fop rfl (by decide)

theorem State.sent_xSend (s : State) (x : Exch) {vc fop : Nat} (hfop : fop < 2 ^ 8) (round dst w2 size : Nat) (es : List Nat) :
    (s.xSend x vc fop round dst w2 size es).Sent vc dst fop := by
  unfold State.xSend
  refine sent_foldl (x := 0) (fun s i => SentKept.inject s _ _) ?_ (fun s => ?_) s
  · rw [List.mem_range]
    exact Nat.lt_of_lt_of_le Nat.one_pos (Nat.le_max_left ..)
  · exact s.sent_send _ _ _ _ (by rw [State.fop_xBody, Nat.mod_eq_of_lt hfop])

theorem SentKept.xSend (s : State) (x : Exch) (vc fop round dst w2 size : Nat) (es : List Nat) :
    SentKept s (s.xSend x vc fop round dst w2 size es) := exchEnds_sent.toExchClosed.xSend s x vc fop round dst w2 size es

theorem State.sent_sendGrants (s : State) (x : Exch) {srcs : List Nat} (round : Nat) {i : Nat} (hi : i ∈ srcs) :
    (s.sendGrants x srcs round).Sent 10 i 0x51 := by
  unfold State.sendGrants
  dsimp only
  refine State.Sent.kept ?_ (exchEnds_sent.toExchClosed.foldl (fun t d => ?_) _ _)
  · refine sent_foldl (fun t d => ?_) hi (fun t => t.sent_xSend x (by decide) ..) s
    exact SentKept.xSend t x 10 0x51 round d 0 16 _
  · exact SentKept.xSend t x 9 0x52 round d 0 8 _

theorem State.sent_sendCounts (s : State) (x : Exch) (round : Nat) {h : Nat} (hh : h ∈ s.homes (s.layerCfg x.layer)) :
    (s.sendCounts x round).Sent 9 h 0x50 := by
  unfold State.sendCounts
  refine sent_foldl (fun t d => ?_) hh (fun t => t.sent_xSend x (by decide) ..) s
  exact SentKept.xSend t x 9 0x50 round d _ 8 _

/-! What arrives is kept (R217). -/

theorem Exch.keep_rest (x : Exch) (kind src round w2 : Nat) (more : Bool) (es : List Nat) :
    { x.keep kind src round w2 more es with msgs := x.msgs } = x := by
  unfold Exch.keep
  dsimp only
  split <;> rfl

section
variable (x : Exch) (kind src round w2 : Nat) (more : Bool) (es : List Nat)

theorem Exch.names_keep :
    (x.keep kind src round w2 more es).ctx = x.ctx ∧ (x.keep kind src round w2 more es).id = x.id ∧
      (x.keep kind src round w2 more es).bwd = x.bwd ∧ (x.keep kind src round w2 more es).layer = x.layer :=
  ⟨(congrArg Exch.ctx (x.keep_rest kind src round w2 more es) :), (congrArg Exch.id (x.keep_rest kind src round w2 more es) :),
    (congrArg Exch.bwd (x.keep_rest kind src round w2 more es) :), (congrArg Exch.layer (x.keep_rest kind src round w2 more es) :)⟩

theorem Exch.tile_keep :
    (x.keep kind src round w2 more es).tile = x.tile ∧ (x.keep kind src round w2 more es).tileDone = x.tileDone :=
  ⟨(congrArg Exch.tile (x.keep_rest kind src round w2 more es) :), (congrArg Exch.tileDone (x.keep_rest kind src round w2 more es) :)⟩

theorem Exch.rounds_keep :
    (x.keep kind src round w2 more es).granted = x.granted ∧ (x.keep kind src round w2 more es).round = x.round ∧
      (x.keep kind src round w2 more es).allot = x.allot :=
  ⟨(congrArg Exch.granted (x.keep_rest kind src round w2 more es) :), (congrArg Exch.round (x.keep_rest kind src round w2 more es) :),
    (congrArg Exch.allot (x.keep_rest kind src round w2 more es) :)⟩

end

/-! The messages of an exchange that is open, and of none (R227). -/

section
variable {s : State} {p : Packet} (hp : p.wf = true) (hrails : s.power.rails = true)
include hp hrails

theorem exec_exchCount : exec (.exchCount p) s = .next (s.exchCount p) := (need_of hp _).trans (powered_of hrails _)
theorem exec_exchGrant : exec (.exchGrant p) s = .next (s.exchGrant p) := (need_of hp _).trans (powered_of hrails _)
theorem exec_exchAllot : exec (.exchAllot p) s = .next (s.exchAllot p) := (need_of hp _).trans (powered_of hrails _)
theorem exec_exchRow : exec (.exchRow p) s = .next (s.exchRow p) := (need_of hp _).trans (powered_of hrails _)
theorem exec_exchReturnRow : exec (.exchReturnRow p) s = .next (s.exchReturnRow p) := (need_of hp _).trans (powered_of hrails _)

theorem exch_stale (hw : s.wf = true) (hnone : s.exchOf p = none) {c : Instr}
    (hc : c ∈ [Instr.exchCount p, .exchGrant p, .exchAllot p, .exchRow p, .exchReturnRow p]) :
    ∃ t, exec c s = .next t ∧ t.ov exchStaleId = min (s.ov exchStaleId + 1) (2 ^ 32 - 1) ∧ t.router = (s.taken p).router ∧
      Frame [.router, .obj] s t := by
  have hnone' : (s.taken p).exchOf p = none := hnone
  have hexec : exec c s = .next (s.taken p).exchStale := by
    simp only [List.mem_cons, List.not_mem_nil, or_false] at hc
    obtain rfl | rfl | rfl | rfl | rfl := hc
    · rw [exec_exchCount hp hrails, State.exchCount, hnone']
    · rw [exec_exchGrant hp hrails, State.exchGrant, hnone']
    · rw [exec_exchAllot hp hrails, State.exchAllot, hnone']
    · rw [exec_exchRow hp hrails, State.exchRow, hnone']
    · rw [exec_exchReturnRow hp hrails, State.exchReturnRow, hnone']
  have hruns : Runs [.router, .obj] s (s.taken p).exchStale := Runs.comp (State.bump_runs ..) rfl ((State.taken_runs s p).mono rfl)
  refine ⟨_, hexec, ?_, rfl, hruns.frame⟩
  have hvals : keysFrom none (s.taken p).obj.vals = true := State.keysFrom_vals hw
  rw [State.exchStale, State.ov_bump hvals, if_pos rfl, satAdd, Nat.add_comm]
  rfl

end

theorem State.names_exchOf {s : State} {p : Packet} {x : Exch} (h : s.exchOf p = some x) :
    x.ctx = p.ctx ∧ x.id = p.field 16 12 ∧ x.bwd = (p.field 8 1 == 1) := by
  unfold State.exchOf at h
  split at h
  · exact State.of_exch h
  · cases h

/-- The exchange of a packet. -/
def State.exchAt (t : State) (p : Packet) : Option Exch := t.exch p.ctx (p.field 16 12) (p.field 8 1 == 1)

section
variable {s : State} {p : Packet} {x : Exch} (hx : s.exchOf p = some x)
include hx

/-- An exchange that stays open after its signals is the one that has been put in place. -/
theorem State.exchGo_put {u : State} {y z : Exch} (hy : y.ctx = x.ctx ∧ y.id = x.id ∧ y.bwd = x.bwd)
    (hz : ((u.putExch y).exchGo x.ctx x.id x.bwd).exchAt p = some z) :
    (∃ a r, z = { y with arriveDone := a, returnDone := r }) ∧ ((u.putExch y).exchGo x.ctx x.id x.bwd).mem = u.mem ∧
      ((u.putExch y).exchGo x.ctx x.id x.bwd).urn = u.urn := by
  obtain ⟨hc, hi, hb⟩ := State.names_exchOf hx
  unfold State.exchAt at hz
  rw [← hc, ← hi, ← hb] at hz
  refine State.exchGo_open (s := u.putExch y) hy (fun w hw => ?_) hz
  obtain ⟨hyc, hyi, hyb⟩ := hy
  rw [← hyc, ← hyi, ← hyb] at hw
  exact State.eq_of_exch_putExch hw

end

end Sys2Proof.Machine
end


-- ==== Sys2Proof/Proofs/ExchGrants.lean ====
section
/-!
PROOF. What COUNT, GRANT and ALLOT messages bring about (R210 to R213, R219).
-/

namespace Sys2Proof.Machine

theorem Exch.Met.granted {x y : Exch} (h : x.Met y) : y.granted = x.granted := (congrArg Exch.granted h.rest :)
theorem Exch.Met.round {x y : Exch} (h : x.Met y) : y.round = x.round := (congrArg Exch.round h.rest :)
theorem Exch.Met.allot {x y : Exch} (h : x.Met y) : y.allot = x.allot := (congrArg Exch.allot h.rest :)
theorem Exch.Met.expect {x y : Exch} (h : x.Met y) : y.expect = x.expect := (congrArg Exch.expect h.rest :)

/-! The home (R210, R211). -/

section
variable {s : State} {y : Exch} {cfg : Nat} {srcs : List Nat} (hcfg : s.layerCfg y.layer = cfg) (hsrcs : (s.exchGroup y.ctx cfg).getD [] = srcs)
include hcfg hsrcs

/-- The first round is granted: the home has every COUNT of it. -/
theorem State.homeGo_grants (h0 : y.granted = 0) (hcheck : y.msgs.any (fun m => m.kind == 0 && m.word2 != s.cfgCheck cfg) = false)
    (hall : srcs.all (fun i => (y.msg 0 i 0).isSome) = true) :
    ∃ (v : State) (z : Exch), s.homeGo y = v.putExch z ∧ (∀ i ∈ srcs, v.Sent 10 i 0x51) ∧
      ({ y with granted := if lyPolicy cfg = 1 then 1 else 2 } : Exch).Met z := by
  by_cases hpol : lyPolicy cfg = 1
  · obtain ⟨x, hx⟩ : ∃ x, x = { y with granted := 1 } := ⟨_, rfl⟩
    refine ⟨s.sendGrants x srcs 0, x, ?_, fun i hi => s.sent_sendGrants x 0 hi, ?_⟩
    · unfold State.homeGo
      dsimp only
      rw [hcfg, hsrcs, h0, if_neg (by decide), if_neg (Bool.eq_false_iff.mp hcheck), if_pos hall]
      simp only [hpol, hx]
      rfl
    · rw [if_pos hpol, hx]
      exact .refl _
  · obtain ⟨x, hx⟩ : ∃ x, x = { y with granted := 2 } := ⟨_, rfl⟩
    refine ⟨(State.reports (s.sendGrants x srcs 0, x) srcs).1, (State.reports (s.sendGrants x srcs 0, x) srcs).2, ?_, fun i hi => ?_, ?_⟩
    · unfold State.homeGo
      dsimp only
      rw [hcfg, hsrcs, h0, if_neg (by decide), if_neg (Bool.eq_false_iff.mp hcheck), if_pos hall]
      simp only [if_pos (show 0 = 1 ∨ lyPolicy cfg ≠ 1 from .inr hpol), hx]
    · exact (s.sent_sendGrants x 0 hi).kept (exchEnds_sent.toExchClosed.reports (s.sendGrants x srcs 0, x) srcs)
    · rw [if_neg hpol, ← hx]
      exact State.reports_met (s.sendGrants x srcs 0, x) srcs

/-- A mismatch ends the home's part with no grants. -/
theorem State.homeGo_mismatch (hlt : y.granted < 2) (hcheck : y.msgs.any (fun m => m.kind == 0 && m.word2 != s.cfgCheck cfg) = true) :
    s.homeGo y = srcs.foldl (fun u src => u.xSend { y with granted := 2 } 10 0x51 0 src 1 16 []) (s.putExch { y with granted := 2 }) := by
  unfold State.homeGo
  dsimp only
  rw [hcfg, hsrcs, if_neg (Nat.not_le.mpr hlt), if_pos hcheck]

end

theorem State.xSends_runs (x : Exch) (vc fop round w2 size : Nat) (es : List Nat) (ds : List Nat) (s : State) :
    Runs [.router] s (ds.foldl (fun u d => u.xSend x vc fop round d w2 size es) s) := by
  induction ds generalizing s with
  | nil => exact .refl s
  | cons d ds ih => exact Runs.trans (State.xSend_runs ..) (ih _)

section
variable {s : State} {p : Packet} {x : Exch} (hp : p.wf = true) (hrails : s.power.rails = true) (hx : s.exchOf p = some x)
include hp hrails hx

theorem exchCount_grants {y : Exch} (hy : y = x.keep 0 p.src (p.field 9 1) (p.field 64 32) (p.field 12 1 == 1) (xEntries p 8))
    {srcs : List Nat} (hsrcs : (s.exchGroup x.ctx (s.layerCfg x.layer)).getD [] = srcs) (h0 : x.granted = 0)
    (hcheck : y.msgs.any (fun m => m.kind == 0 && m.word2 != s.cfgCheck (s.layerCfg x.layer)) = false)
    (hall : srcs.all (fun i => (y.msg 0 i 0).isSome) = true) :
    ∃ t, exec (.exchCount p) s = .next t ∧ (∀ i ∈ srcs, t.Sent 10 i 0x51) ∧
      (∀ z, t.exchAt p = some z → z.granted = if lyPolicy (s.layerCfg x.layer) = 1 then 1 else 2) ∧
      Frame [.cores, .txe, .sync, .mem, .urn, .fab, .router, .host, .steps, .obj, .out] s t := by
  have hnames : y.ctx = x.ctx ∧ y.id = x.id ∧ y.bwd = x.bwd ∧ y.layer = x.layer := hy ▸ x.names_keep 0 p.src (p.field 9 1) ..
  obtain ⟨hyc, hyi, hyb, hyl⟩ := hnames
  have hy0 : y.granted = 0 := by rw [hy, (x.rounds_keep ..).1, h0]
  obtain ⟨v, z, hhome, hsent, hmet⟩ := State.homeGo_grants (s := s.taken p) (y := y) (cfg := s.layerCfg x.layer) (by rw [hyl]; rfl)
    (by rw [hyc]; exact hsrcs) hy0 hcheck hall
  have heq : s.exchCount p = (v.putExch z).exchGo x.ctx x.id x.bwd := by
    unfold State.exchCount
    dsimp only
    rw [show (s.taken p).exchOf p = some x from hx]
    dsimp only
    rw [← hy, hhome, hyc, hyi, hyb]
  refine ⟨_, exec_exchCount hp hrails, fun i hi => ?_, fun w hw => ?_, (State.exchCount_runs p s).frame⟩
  · rw [heq]
    exact (hsent i hi).kept (SentKept.trans (exchEnds_sent.toExchClosed.putExch v z) (exchEnds_sent.exchGo _ x.ctx x.id x.bwd))
  · rw [heq] at hw
    obtain ⟨⟨a, r, hw'⟩, -, -⟩ := State.exchGo_put hx ⟨hmet.ctx.trans hyc, hmet.id.trans hyi, hmet.bwd.trans hyb⟩ hw
    rw [hw']
    exact hmet.granted

theorem exchCount_mismatch {y : Exch} (hy : y = x.keep 0 p.src (p.field 9 1) (p.field 64 32) (p.field 12 1 == 1) (xEntries p 8))
    {srcs : List Nat} (hsrcs : (s.exchGroup x.ctx (s.layerCfg x.layer)).getD [] = srcs) (hlt : x.granted < 2)
    (hcheck : y.msgs.any (fun m => m.kind == 0 && m.word2 != s.cfgCheck (s.layerCfg x.layer)) = true) :
    ∃ t, exec (.exchCount p) s = .next t ∧ (∀ i ∈ srcs, t.Sent 10 i 0x51) ∧ (∀ z, t.exchAt p = some z → z.granted = 2) ∧
      Frame [.txe, .sync, .mem, .urn, .fab, .router, .host, .steps, .obj, .out] s t := by
  have hnames : y.ctx = x.ctx ∧ y.id = x.id ∧ y.bwd = x.bwd ∧ y.layer = x.layer := hy ▸ x.names_keep 0 p.src (p.field 9 1) ..
  obtain ⟨hyc, hyi, hyb, hyl⟩ := hnames
  have hylt : y.granted < 2 := by rw [hy, (x.rounds_keep ..).1]; exact hlt
  have hhome := State.homeGo_mismatch (s := s.taken p) (y := y) (cfg := s.layerCfg x.layer) (srcs := srcs) (by rw [hyl]; rfl)
    (by rw [hyc]; exact hsrcs) hylt hcheck
  obtain ⟨z, hz⟩ : ∃ z, z = { y with granted := 2 } := ⟨_, rfl⟩
  rw [← hz] at hhome
  obtain ⟨u, hu⟩ : ∃ u, u = srcs.foldl (fun u src => u.xSend z 10 0x51 0 src 1 16 []) ((s.taken p).putExch z) := ⟨_, rfl⟩
  have heq : s.exchCount p = u.exchGo x.ctx x.id x.bwd := by
    unfold State.exchCount
    dsimp only
    rw [show (s.taken p).exchOf p = some x from hx]
    dsimp only
    rw [← hy, hhome, hyc, hyi, hyb, hu]
  have hsends : Runs [.router] ((s.taken p).putExch z) u := hu ▸ State.xSends_runs ..
  have hzname : z.ctx = x.ctx ∧ z.id = x.id ∧ z.bwd = x.bwd := by rw [hz]; exact ⟨hyc, hyi, hyb⟩
  have hruns : Runs [.txe, .sync, .mem, .urn, .fab, .router, .host, .steps, .obj, .out] s (s.exchCount p) := by
    rw [heq]
    exact Runs.comp (State.exchGo_runs ..) rfl (Runs.comp hsends rfl (Runs.comp (State.putExch_runs ..) rfl ((State.taken_runs s p).mono rfl)))
  refine ⟨_, exec_exchCount hp hrails, fun i hi => ?_, fun w hw => ?_, hruns.frame⟩
  · rw [heq]
    refine State.Sent.kept ?_ (exchEnds_sent.exchGo _ x.ctx x.id x.bwd)
    rw [hu]
    refine sent_foldl (fun t d => ?_) hi (fun t => t.sent_xSend z (by decide) ..) _
    exact SentKept.xSend t z 10 0x51 0 d 1 16 []
  · rw [heq, State.exchAt] at hw
    obtain ⟨hc, hi, hb⟩ := State.names_exchOf hx
    rw [← hc, ← hi, ← hb] at hw
    have hopens : u.txe.opens = ((s.taken p).putExch z).txe.opens := congrArg Txe.opens (hsends.same .txe rfl)
    obtain ⟨⟨a, r, hw'⟩, -, -⟩ := State.exchGo_open hzname (fun q hq => by
      rw [State.exch_congr hopens] at hq
      obtain ⟨hzc, hzi, hzb⟩ := hzname
      rw [← hzc, ← hzi, ← hzb] at hq
      exact State.eq_of_exch_putExch hq) hw
    rw [hw', hz]

/-! The replica (R212, R219). -/

theorem exchAllot_allots {e i : Nat} (he : xEntries p 8 = [e])
    (hi : findIdx (fun (q : Nat × Nat) => q.1 == bits e 0 12) (s.sections (s.layerCfg x.layer)) = some i) (hne : bits e 16 16 ≠ 0) :
    ∃ t, exec (.exchAllot p) s = .next t ∧ (∀ z, t.exchAt p = some z → tget 0 z.allot i = bits e 16 16) ∧
      Frame [.cores, .txe, .sync, .mem, .urn, .fab, .router, .host, .steps, .obj, .out] s t := by
  obtain ⟨y, hy⟩ : ∃ y, y = x.keep 2 p.src (p.field 9 1) 0 (p.field 12 1 == 1) (xEntries p 8) := ⟨_, rfl⟩
  have hnames : y.ctx = x.ctx ∧ y.id = x.id ∧ y.bwd = x.bwd ∧ y.layer = x.layer := hy ▸ x.names_keep 2 p.src (p.field 9 1) ..
  obtain ⟨hyc, hyi, hyb, -⟩ := hnames
  have hshape : ∃ (q : State × Exch) (f : Bool), ({ y with allot := tset 0 y.allot i (bits e 16 16), allotFinal := f } : Exch).Met q.2 ∧
      s.exchAllot p = (q.1.putExch q.2).exchGo q.2.ctx q.2.id q.2.bwd := by
    obtain ⟨secs, hsecs⟩ : ∃ secs, secs = s.sections (s.layerCfg x.layer) := ⟨_, rfl⟩
    obtain ⟨fin, hfin⟩ : ∃ fin, fin = (!y.allotFinal && secs.all (fun q =>
      (y.msg 2 (s.expertHome (s.layerCfg x.layer) q.1) (if lyPolicy (s.layerCfg x.layer) = 1 then 1 else 0)).isSome)) := ⟨_, rfl⟩
    obtain ⟨y', hy'⟩ : ∃ y', y' = ({ y with allot := tset 0 y.allot i (bits e 16 16), allotFinal := y.allotFinal || fin } : Exch) := ⟨_, rfl⟩
    obtain ⟨q, hq⟩ : ∃ q, q = if fin then State.writeShapes (s.taken p, y') (tget 0 y'.allot) else (s.taken p, y') := ⟨_, rfl⟩
    have hmet : y'.Met q.2 := by
      rw [hq]
      split
      · exact State.writeShapes_met (s.taken p, y') _
      · exact .refl y'
    refine ⟨q, y.allotFinal || fin, hy' ▸ hmet, ?_⟩
    have hallot : (xEntries p 8).foldl (fun t v => match findIdx (fun (q : Nat × Nat) => q.1 == bits v 0 12) secs with
        | some i => tset 0 t i (bits v 16 16)
        | none => t) y.allot = tset 0 y.allot i (bits e 16 16) := by
      rw [he, List.foldl_cons, List.foldl_nil, hsecs, hi]
    rw [hmet.ctx, hmet.id, hmet.bwd, hq, hy', hfin, ← hallot, hsecs]
    unfold State.exchAllot
    dsimp only
    rw [show (s.taken p).exchOf p = some x from hx]
    dsimp only
    rw [← hy]
    rfl
  obtain ⟨q, f, hmet, heq⟩ := hshape
  have hq : q.2.ctx = x.ctx ∧ q.2.id = x.id ∧ q.2.bwd = x.bwd := ⟨hmet.ctx.trans hyc, hmet.id.trans hyi, hmet.bwd.trans hyb⟩
  refine ⟨_, exec_exchAllot hp hrails, fun w hw => ?_, (State.exchAllot_runs p s).frame⟩
  obtain ⟨hqc, hqi, hqb⟩ := hq
  rw [heq, hqc, hqi, hqb] at hw
  obtain ⟨⟨a, r, hw'⟩, -, -⟩ := State.exchGo_put hx ⟨hqc, hqi, hqb⟩ hw
  rw [hw']
  have hallot : q.2.allot = tset 0 y.allot i (bits e 16 16) := hmet.allot
  rw [show ({ q.2 with arriveDone := a, returnDone := r } : Exch).allot = q.2.allot from rfl, hallot,
    tget_tset_self_of_ne _ _ _ hne]

end

end Sys2Proof.Machine
end


-- ==== Sys2Proof/Proofs/ExchSources.lean ====
section
/-!
PROOF. What GRANT messages bring about at a source: the tags of its tokens and its expected returns, or the second round (R211 to
R214).
-/

namespace Sys2Proof.Machine

theorem State.sameStores_exchLog (s : State) (tile cause dev e slot : Nat) : SameStores s (s.exchLog tile cause dev e slot) := by
  have hruns := s.exchLog_runs tile cause dev e slot
  exact .of_same (hruns.same .mem rfl) (hruns.same .urn rfl) (hruns.same .obj rfl)

theorem State.xOp_exchLog (s : State) (x : TxeTile) (i tile cause dev e slot : Nat) :
    (s.xOp x i).Alike ((s.exchLog tile cause dev e slot).xOp x i) := by
  obtain ⟨v, -, heq⟩ := s.exchLog_eq tile cause dev e slot
  rw [heq, State.exchLogged]
  split <;> exact ⟨rfl, rfl, rfl⟩

theorem TxeTile.bad_far (x : TxeTile) (b : Bool) (fl : Flags) (i : Nat) :
    ({ x with causes := x.causes ++ (if b then [(0x10, 0)] else []), flags := fl } : TxeTile).bad i = x.bad i := by
  have hnone : (if b then [(0x10, 0)] else ([] : List (Nat × Nat))).any (fun c => (c.1 == 8 || c.1 == 9) && c.2 == i) = false := by
    cases b <;> rfl
  rw [TxeTile.bad, List.any_append, hnone, Bool.or_false, TxeTile.bad]

/-- Once the tags are final the tag table is written and the expected returns are known (R212, R214). -/
theorem State.admitDone_tags {s : State} {x : Exch} {rs : List (List Byte × Nat × Flags)}
    (hrs : rs = x.toks.zipIdx.map (fun q => s.tokenTags x q.1 q.2)) :
    ∃ (u : State) (y : Exch), s.admitDone x = (u.putExch y).exchGo x.ctx x.id x.bwd ∧ (y.ctx = x.ctx ∧ y.id = x.id ∧ y.bwd = x.bwd) ∧
      y.round = 2 ∧ y.tileDone = x.tileDone ∧ y.expect = some (rs.map (·.2.1)).sum ∧
      u.mem = (s.xPut x.tile (s.xOp x.tile 4) 0 (rs.flatMap (·.1))).1.mem := by
  obtain ⟨far, hfar⟩ : ∃ far, far = (x.toks.zipIdx.filter (fun p => s.tries x p.1 p.2 &&
    decide (lyExperts (s.layerCfg x.layer) ≤ gExp p.1.gate (fbRank (s.layerCfg x.layer))))).head? := ⟨_, rfl⟩
  obtain ⟨v, hv⟩ : ∃ v, v = (match far with
    | some p => s.exchLog (dTileId x.tile.desc) 1 0 (gExp p.1.gate (fbRank (s.layerCfg x.layer))) p.2
    | none => s) := ⟨_, rfl⟩
  obtain ⟨tile, htile⟩ : ∃ tile, tile = ({ x.tile with
    causes := x.tile.causes ++ (if far.isSome then [(0x10, 0)] else [])
    flags := rs.foldl (fun f q => f ||| q.2.2) x.tile.flags } : TxeTile) := ⟨_, rfl⟩
  obtain ⟨z, hz⟩ : ∃ z, z = ({ x with tile := tile, round := 2, expect := some (rs.map (·.2.1)).sum } : Exch) := ⟨_, rfl⟩
  have hmet : z.Met (State.exchPut (v, z) (v.xOp tile 4) 0 (rs.flatMap (·.1))).2 := State.exchPut_met (v, z) ..
  have hstores : SameStores s v := by
    rw [hv]
    split
    · exact s.sameStores_exchLog ..
    · exact .of_same rfl rfl rfl
  have halike : (s.xOp x.tile 4).Alike (v.xOp tile 4) := by
    have hword : (s.xOp x.tile 4).Alike (v.xOp x.tile 4) := by
      rw [hv]
      split
      · exact s.xOp_exchLog ..
      · exact ⟨rfl, rfl, rfl⟩
    rw [htile]
    exact ⟨hword.t, hword.op, hword.len⟩
  have hbad : z.tile.bad (s.xOp x.tile 4).op = x.tile.bad (s.xOp x.tile 4).op := by
    rw [hz, htile]
    exact x.tile.bad_far ..
  have hctx : z.tile.ctx = x.tile.ctx := by rw [hz, htile]
  refine ⟨_, _, ?_, ⟨hmet.ctx.trans ?_, hmet.id.trans ?_, hmet.bwd.trans ?_⟩, hmet.round.trans ?_, hmet.tileDone.trans ?_, hmet.expect.trans ?_,
    (State.exchPut_stores (t := v) (y := z) hstores hctx halike hbad 0 _).1⟩
  · rw [hz, htile, hv, hfar, hrs]
    rfl
  all_goals rw [hz]

section
variable {s : State} {p : Packet} {x : Exch} (hp : p.wf = true) (hrails : s.power.rails = true) (hx : s.exchOf p = some x)
include hp hrails hx

omit hp hrails in
/-- With every home's GRANT of the round there. -/
theorem exchGrant_goes {y : Exch} (hy : y = x.keep 1 p.src (p.field 9 1) 0 (p.field 12 1 == 1) (xEntries p 16)) (h0 : x.round = 0)
    (hmatch : p.field 64 32 ≠ 1) (hall : (s.homes (s.layerCfg x.layer)).all (fun h => (y.msg 1 h 0).isSome) = true) :
    s.exchGrant p = if lyPolicy (s.layerCfg x.layer) = 1 ∧ s.homes (s.layerCfg x.layer) ≠ [] then
      (((s.taken p).putExch { y with round := 1 }).sendCounts { y with round := 1 } 1) else ((s.taken p).putExch y).admitDone y := by
  have hround : y.round = 0 := by rw [hy, (x.rounds_keep ..).2.1, h0]
  have hlayer : y.layer = x.layer := hy ▸ (x.names_keep 1 p.src (p.field 9 1) ..).2.2.2
  have hgot : ((s.taken p).homes ((s.taken p).layerCfg y.layer)).any (fun h => (y.msg 1 h y.round).isNone) = false := by
    rw [hlayer, hround, List.any_eq_false]
    intro h hh
    rw [Bool.not_eq_true, Option.isNone_eq_false_iff]
    exact List.all_eq_true.mp hall h hh
  have hgo : s.exchGrant p = (s.taken p).sourceGo y := by
    unfold State.exchGrant
    dsimp only
    rw [show (s.taken p).exchOf p = some x from hx]
    dsimp only
    rw [if_neg (by rw [h0]; decide), if_neg hmatch, ← hy]
  rw [hgo]
  unfold State.sourceGo
  dsimp only
  rw [hgot, if_neg (by rw [hround]; decide), hround, hlayer]
  simp only [true_and]
  rfl

theorem exchGrant_tags {y : Exch} (hy : y = x.keep 1 p.src (p.field 9 1) 0 (p.field 12 1 == 1) (xEntries p 16))
    {rs : List (List Byte × Nat × Flags)} (hrs : rs = y.toks.zipIdx.map (fun q => s.tokenTags y q.1 q.2)) (h0 : x.round = 0)
    (hmatch : p.field 64 32 ≠ 1) (hall : (s.homes (s.layerCfg x.layer)).all (fun h => (y.msg 1 h 0).isSome) = true)
    (hpol : lyPolicy (s.layerCfg x.layer) ≠ 1) :
    ∃ t, exec (.exchGrant p) s = .next t ∧
      (∀ z, t.exchAt p = some z → z.round = 2 ∧ z.tileDone = x.tileDone ∧ z.expect = some (rs.map (·.2.1)).sum ∧
        t.mem = (s.xPut x.tile (s.xOp x.tile 4) 0 (rs.flatMap (·.1))).1.mem) ∧
      Frame [.cores, .txe, .sync, .mem, .urn, .fab, .router, .host, .steps, .obj, .out] s t := by
  have hgo := exchGrant_goes hx hy h0 hmatch hall
  rw [if_neg (fun h => hpol h.1)] at hgo
  obtain ⟨hyc, hyi, hyb, -⟩ : y.ctx = x.ctx ∧ y.id = x.id ∧ y.bwd = x.bwd ∧ y.layer = x.layer := hy ▸ x.names_keep 1 p.src (p.field 9 1) ..
  obtain ⟨hytile, hydone⟩ : y.tile = x.tile ∧ y.tileDone = x.tileDone := hy ▸ x.tile_keep 1 p.src (p.field 9 1) ..
  have hrs' : rs = y.toks.zipIdx.map (fun q => ((s.taken p).putExch y).tokenTags y q.1 q.2) := hrs
  obtain ⟨u, z, hdone, ⟨hzc, hzi, hzb⟩, hround, htile, hexpect, hmem⟩ := State.admitDone_tags hrs'
  have hput := (State.xPut_stores (s := s) (t := (s.taken p).putExch y) (.of_same rfl rfl rfl) (x := x.tile) (y := x.tile) rfl
    (o := s.xOp x.tile 4) (q := ((s.taken p).putExch y).xOp x.tile 4) ⟨rfl, rfl, rfl⟩ rfl 0 (rs.flatMap (·.1))).1
  rw [hdone, hyc, hyi, hyb] at hgo
  refine ⟨_, exec_exchGrant hp hrails, fun w hw => ?_, (State.exchGrant_runs p s).frame⟩
  rw [hgo] at hw ⊢
  obtain ⟨⟨a, r, hw'⟩, hwmem, -⟩ := State.exchGo_put hx ⟨hzc.trans hyc, hzi.trans hyi, hzb.trans hyb⟩ hw
  rw [hw', hwmem, hmem, hytile, hput]
  exact ⟨hround, htile.trans hydone, hexpect, rfl⟩

theorem exchGrant_round1 {y : Exch} (hy : y = x.keep 1 p.src (p.field 9 1) 0 (p.field 12 1 == 1) (xEntries p 16)) (h0 : x.round = 0)
    (hmatch : p.field 64 32 ≠ 1) (hall : (s.homes (s.layerCfg x.layer)).all (fun h => (y.msg 1 h 0).isSome) = true)
    (hpol : lyPolicy (s.layerCfg x.layer) = 1) (hhomes : s.homes (s.layerCfg x.layer) ≠ []) :
    ∃ t, exec (.exchGrant p) s = .next t ∧ (∀ z, t.exchAt p = some z → z.round = 1) ∧
      (∀ h ∈ s.homes (s.layerCfg x.layer), t.Sent 9 h 0x50) ∧ Frame [.txe, .router] s t := by
  have hgo := exchGrant_goes hx hy h0 hmatch hall
  rw [if_pos ⟨hpol, hhomes⟩] at hgo
  obtain ⟨hyc, hyi, hyb, hyl⟩ : y.ctx = x.ctx ∧ y.id = x.id ∧ y.bwd = x.bwd ∧ y.layer = x.layer := hy ▸ x.names_keep 1 p.src (p.field 9 1) ..
  obtain ⟨u, hu⟩ : ∃ u, u = (s.taken p).putExch { y with round := 1 } := ⟨_, rfl⟩
  rw [← hu] at hgo
  have hsends : Runs [.router] u (u.sendCounts { y with round := 1 } 1) := State.sendCounts_runs ..
  have hputs : Runs [.txe, .router] s u := hu ▸ Runs.comp (State.putExch_runs ..) rfl ((State.taken_runs s p).mono rfl)
  refine ⟨_, exec_exchGrant hp hrails, fun z hz => ?_, fun h hh => ?_, ?_⟩
  · rw [hgo, State.exchAt, State.exch_congr (congrArg Txe.opens (hsends.same .txe rfl))] at hz
    obtain ⟨hc, hi, hb⟩ := State.names_exchOf hx
    rw [← hc, ← hi, ← hb, ← hyc, ← hyi, ← hyb, hu] at hz
    have hzy : z = { y with round := 1 } := State.eq_of_exch_putExch hz
    rw [hzy]
  · rw [hgo]
    refine State.sent_sendCounts u _ 1 ?_
    rw [show (({ y with round := 1 } : Exch).layer) = x.layer from hyl, hu]
    exact hh
  · rw [hgo]
    exact (Runs.comp hsends rfl hputs).frame

end

end Sys2Proof.Machine
end


-- ==== Sys2Proof/Proofs/ExchFailures.lean ====
section
/-!
PROOF. An EXCHANGE tile that ends with a cause, and the errors of an open exchange: the step fails (R124, R210, R228, R254).
-/

namespace Sys2Proof.Machine

theorem Failed.of_stands {s u t : State} {c : Nat} (h : StepsStand s u) (hv : ValsOk s) (hs : StepsOk s) (k : u.Failed t c) : s.Failed t c := by
  obtain ⟨-, -, hc⟩ := h hv hs
  intro hon hrun
  exact k ((hc c).1 hon) ((congrArg StepCtx.st (hc c).2).trans hrun)

theorem Failed.kept {s t u : State} {c : Nat} (k : FailKept t u) (ht : StepsOk t) (h : s.Failed t c) : s.Failed u c := fun hon hrun => by
  obtain ⟨r, hr⟩ := h hon hrun
  exact (k ht).2 _ r hr

/-- A tile that ends with a failing status fails its step, whatever flags it raises. -/
theorem State.finish_fails_flags {s : State} {c : Cpl} (hst : 0x10 ≤ c.status) (hok : StepsOk s) : s.Failed (s.finish c) c.ctx := by
  obtain ⟨w, hw⟩ : ∃ w, w = s.cplWrite c.ctx (c.bytes (s.ftRead hubPs)) := ⟨_, rfl⟩
  obtain ⟨v, hv⟩ : ∃ v, v = if c.flags = 0 then w else w.orOv (formatFlagsId + c.ctx) c.flags.toNat := ⟨_, rfl⟩
  have hwsteps : w.steps = s.steps := hw ▸ (State.cplWrite_runs ..).same .steps rfl
  have hvsteps : v.steps = s.steps := by
    rw [hv]
    split
    · exact hwsteps
    · exact hwsteps
  have hvok : StepsOk v := by rwa [StepsOk, hvsteps]
  have hwon : w.ov (stepCfgId + c.ctx) = s.ov (stepCfgId + c.ctx) := by
    rw [hw, State.ov_cplWrite (by simp only [cplStatusId, stepCfgId]; omega)]
  have hvon : v.ov (stepCfgId + c.ctx) = w.ov (stepCfgId + c.ctx) := by
    rw [hv]
    split
    · rfl
    · exact State.ov_setOv_of_ne w _ (by simp only [formatFlagsId, stepCfgId]; omega)
  have heq : s.finish c = ((v.latch c.ctx 1).signalWord c.ctx (dSignal c.desc 0)).signalWord c.ctx (dSignal c.desc 1) := by
    have hne : c.status ≠ stOk ∨ dCplAlways c.desc = true := .inl (by simp only [stOk]; omega)
    unfold State.finish
    rw [if_pos hne]
    dsimp only
    rw [if_pos (failing_of_le hst), hv, hw]
  have hfails : s.Failed (v.latch c.ctx 1) c.ctx := Failed.latch_of hvok hvsteps (fun h => by
    rw [State.stepsOn, hvon, hwon]
    exact h) 1
  have hlok : StepsOk (v.latch c.ctx 1) := ((FailKept.latch v c.ctx 1) hvok).1
  rw [heq]
  exact Failed.kept (t := v.latch c.ctx 1) ((signalClosed_failKept.signalWord (v.latch c.ctx 1) c.ctx (dSignal c.desc 0)).trans
    (signalClosed_failKept.signalWord _ c.ctx (dSignal c.desc 1))) hlok hfails

theorem freeAll_stands (c : Nat) (hs : List (Nat × Nat)) (s : State) : StepsStand s (freeAll c hs s).1 := by
  induction hs generalizing s with
  | nil => exact .refl s
  | cons h hs ih =>
    refine StepsStand.trans ?_ (ih _)
    unfold State.urnFreeHandle
    split
    · exact .of_same rfl rfl
    · exact StepsStand.urnFlag s 1 h.1
    · exact StepsStand.urnFlag s 2 h.1

theorem State.endX_fails {s : State} {x : TxeTile} (hv : ValsOk s) (hs : StepsOk s) (hc : x.causes ≠ []) : s.Failed (s.endX x) x.ctx := by
  obtain ⟨u, hu⟩ : ∃ u, u = (freeAll x.ctx x.frees s).1.dropTileReqs txeCore x.ctx x.seq := ⟨_, rfl⟩
  have hstands : StepsStand s u := hu ▸ (freeAll_stands x.ctx x.frees s).trans (.of_same rfl rfl)
  obtain ⟨cs, hcs⟩ : ∃ cs, cs = x.causes ++ s.writeCauses txeCore x.ctx x.seq ++ (freeAll x.ctx x.frees s).2 := ⟨_, rfl⟩
  have hne : cs ≠ [] := by
    rw [hcs, List.append_assoc]
    exact List.append_ne_nil_of_left_ne_nil hc _
  have heq : s.endX x = u.finish (x.cpl cs) := by rw [hu, hcs]; rfl
  have hst : 0x10 ≤ (x.cpl cs).status := by
    rw [show (x.cpl cs).status = if cs = [] then (if x.mEff = 0 ∨ x.nEff = 0 then stEmpty else stOk) else stDefective from rfl, if_neg hne]
    decide
  rw [heq]
  exact Failed.of_stands hstands hv hs (State.finish_fails_flags hst (hstands hv hs).2.1)

theorem State.tileReqs_noteRefused (s : State) (c v : Nat) : (s.noteRefused c v).fab.tileReqs = s.fab.tileReqs := by
  unfold State.noteRefused
  split
  · unfold State.lookNote
    dsimp only
    split <;> rfl
  · rfl

theorem State.tileReqs_metX (s : State) (c : Nat) (cs : List (Nat × Nat)) : (s.metX c cs).1.fab.tileReqs = s.fab.tileReqs := by
  unfold State.metX
  dsimp only
  induction cs generalizing s with
  | nil => rfl
  | cons x xs ih => exact (ih _).trans (s.tileReqs_noteRefused c x.1)

/-- A tile that ends with a cause and waits for no acknowledgement fails its step. -/
theorem State.finishX_fails {s : State} {x : TxeTile} (hv : ValsOk s) (hs : StepsOk s) (hc : x.causes ≠ [])
    (hopen : s.writesOpen txeCore x.ctx x.seq = false) : s.Failed (s.finishX x) x.ctx := by
  have hstands := exchClosed_stands.metX s x.ctx x.causes
  have hopen' : (s.metX x.ctx x.causes).1.writesOpen txeCore x.ctx x.seq = false := by
    rw [State.writesOpen, State.tileReqs_metX]
    exact hopen
  obtain ⟨hv', hs', -⟩ := hstands hv hs
  have hmet : (s.metX x.ctx x.causes).2 ≠ [] := by
    rw [show (s.metX x.ctx x.causes).2 = x.causes.map (fun c => (plainCause c.1, c.2)) from rfl]
    exact fun h => hc (List.map_eq_nil_iff.mp h)
  unfold State.finishX
  dsimp only
  rw [if_neg (by rw [hopen']; decide)]
  exact Failed.of_stands hstands hv hs (State.endX_fails (x := { x with causes := (s.metX x.ctx x.causes).2 }) hv' hs' hmet)

section
variable {s : State} {p : Packet} {x : Exch} (hp : p.wf = true) (hrails : s.power.rails = true) (hx : s.exchOf p = some x)
include hp hrails hx

/-- GRANT with MISMATCH: the tile ends at once (R210). -/
theorem exchGrant_mismatch (hw : s.wf = true) (hround : x.round ≠ 2) (hmatch : p.field 64 32 = 1) :
    ∃ t, exec (.exchGrant p) s = .next t ∧ (∀ z, t.exchAt p = some z → z.round = 2 ∧ z.tileDone = true) ∧
      t.txe.errLog ≠ 0 ∧ (s.writesOpen txeCore x.tile.ctx x.tile.seq = false → s.Failed t x.tile.ctx) ∧
      Frame [.txe, .sync, .mem, .urn, .fab, .router, .host, .steps, .obj, .out] s t := by
  obtain ⟨tile, htile⟩ : ∃ tile, tile = ({ x.tile with causes := x.tile.causes ++ [(0x31, 0x0A)] } : TxeTile) := ⟨_, rfl⟩
  obtain ⟨z, hz⟩ : ∃ z, z = ({ x with tile := tile, tileDone := true, round := 2 } : Exch) := ⟨_, rfl⟩
  obtain ⟨l, hl⟩ : ∃ l, l = (s.taken p).exchLog (dTileId tile.desc) 3 p.src 0 0 := ⟨_, rfl⟩
  have heq : s.exchGrant p = (l.putExch z).finishX tile := by
    unfold State.exchGrant
    dsimp only
    rw [show (s.taken p).exchOf p = some x from hx]
    dsimp only
    rw [if_neg hround, if_pos hmatch, hl, hz, htile]
  have hlruns : Runs [.txe, .router] s l := hl ▸ Runs.comp (State.exchLog_runs ..) rfl ((State.taken_runs s p).mono rfl)
  have hput : Runs [.txe, .router] s (l.putExch z) := Runs.comp (State.putExch_runs ..) rfl hlruns
  obtain ⟨hopens, hlog⟩ := (l.putExch z).txe_finishX tile
  refine ⟨_, exec_exchGrant hp hrails, fun w hw' => ?_, ?_, fun hopen => ?_, ?_⟩
  · obtain ⟨hc, hi, hb⟩ := State.names_exchOf hx
    rw [heq, State.exchAt, State.exch_congr hopens, ← hc, ← hi, ← hb] at hw'
    have hwz : w = z := State.eq_of_exch_putExch (x := z) (by rw [hz] at hw' ⊢; exact hw')
    rw [hwz, hz]
    exact ⟨rfl, rfl⟩
  · rw [heq, hlog, show (l.putExch z).txe.errLog = l.txe.errLog from rfl, hl]
    exact State.errLog_exchLog _ _ _ _ _ (by decide)
  · have hsteps : (l.putExch z).steps = s.steps := hput.same .steps rfl
    have hobj : (l.putExch z).obj = s.obj := hput.same .obj rfl
    have hfab : (l.putExch z).fab = s.fab := hput.same .fab rfl
    have hvals : ValsOk (l.putExch z) := by
      rw [ValsOk, hobj]
      exact State.keysFrom_vals hw
    have hstep : StepsOk (l.putExch z) := by
      rw [StepsOk, hsteps]
      exact State.twf_steps hw
    have hopen' : (l.putExch z).writesOpen txeCore tile.ctx tile.seq = false := by
      rw [State.writesOpen, hfab, htile]
      exact hopen
    rw [heq]
    have hfails := State.finishX_fails (x := tile) hvals hstep (by rw [htile]; exact List.append_ne_nil_of_right_ne_nil _ (List.cons_ne_nil _ _)) hopen'
    rw [htile] at hfails ⊢
    exact Failed.of_same hobj hsteps hfails
  · rw [heq]
    exact (Runs.comp (State.finishX_runs ..) rfl (hput.mono rfl)).frame

end

/-- An error of an open exchange is logged; its tile meets the cause, or the step fails (R124, R220, R228, R229). -/
theorem State.exchErr_flaws {s : State} {x : Exch} (hv : ValsOk s) (hs : StepsOk s) {log cause : Nat} (hlog : log ≠ 0)
    (hcause : plainCause cause = cause) (dev e slot : Nat) :
    (s.exchErr x log cause dev e slot).txe.errLog ≠ 0 ∧
      (x.tileDone = false → ∀ z, (s.exchErr x log cause dev e slot).exch x.ctx x.id x.bwd = some z → (cause, 0x0A) ∈ z.tile.causes) ∧
      (x.tileDone = true → s.Failed (s.exchErr x log cause dev e slot) x.ctx) := by
  obtain ⟨l, hl⟩ : ∃ l, l = s.exchLog (dTileId x.tile.desc) log dev e slot := ⟨_, rfl⟩
  obtain ⟨r, hr⟩ : ∃ r, r = l.meetX x [(cause, 0x0A)] := ⟨_, rfl⟩
  have heq : s.exchErr x log cause dev e slot = r.1.putExch r.2 := by rw [hr, hl]; rfl
  have hlruns : Runs [.txe] s l := hl ▸ State.exchLog_runs ..
  have hmet : r = if x.tileDone then ((l.metX x.ctx [(cause, 0x0A)]).1.latch x.ctx 1, x)
      else ((l.metX x.ctx [(cause, 0x0A)]).1, { x with tile := { x.tile with causes := x.tile.causes ++ [(cause, 0x0A)] } }) := by
    have hplain : (l.metX x.ctx [(cause, 0x0A)]).2 = [(cause, 0x0A)] := by
      rw [State.metX, List.map_cons, List.map_nil, hcause]
    rw [hr, State.meetX]
    dsimp only
    rw [if_neg (List.cons_ne_nil _ _), hplain]
  have hmeet : Runs [.fab, .router, .steps, .obj] l r.1 := hr ▸ (State.meetX_runs ..).mono rfl
  have htxe : r.1.txe = l.txe := hmeet.same .txe rfl
  rw [heq]
  refine ⟨?_, fun hdone z hz => ?_, fun hdone => ?_⟩
  · rw [show (r.1.putExch r.2).txe.errLog = r.1.txe.errLog from rfl, htxe, hl]
    exact State.errLog_exchLog _ _ _ _ _ hlog
  · rw [hmet, if_neg (by rw [hdone]; decide)] at hz
    have hzeq := State.eq_of_exch_putExch (x := { x with tile := { x.tile with causes := x.tile.causes ++ [(cause, 0x0A)] } }) hz
    rw [hzeq]
    exact List.mem_append_right _ (List.mem_singleton.mpr rfl)
  · rw [hmet, if_pos hdone]
    have hstands : StepsStand s (l.metX x.ctx [(cause, 0x0A)]).1 :=
      StepsStand.trans (.of_same (hlruns.same .obj rfl) (hlruns.same .steps rfl)) (exchClosed_stands.metX l x.ctx [(cause, 0x0A)])
    exact Failed.latch hstands hv hs x.ctx 1

end Sys2Proof.Machine
end


-- ==== Sys2Proof/Proofs/ExchRows.lean ====
section
/-!
PROOF. What the rows of an exchange bring about at a replica and at the source (R219 to R221, R228).
-/

namespace Sys2Proof.Machine

/-- What an error of an open exchange, that a message brings, comes to. -/
def State.Flawed (s : State) (p : Packet) (x : Exch) (cmd : Instr) (cause : Nat) : Prop :=
  ∃ t, exec cmd s = .next t ∧ t.txe.errLog ≠ 0 ∧ (x.tileDone = false → ∀ z, t.exchAt p = some z → (cause, 0x0A) ∈ z.tile.causes) ∧
    (x.tileDone = true → s.Failed t p.ctx) ∧ Frame [.txe, .fab, .router, .steps, .obj] s t

/-- What a write of a tile stores, the tile of an exchange that is written through the same word stores too. -/
theorem State.exchPut_twice {s t : State} {x : Exch} (hst : SameStores s t) {o q : XOp} (hq : o.Alike q) (off off' : Nat) (bs bs' : List Byte) :
    let w := ((s.xPut x.tile o off bs).1.xPut x.tile o off' bs').1
    let r := State.exchPut (State.exchPut (t, x) q off bs) q off' bs'
    r.1.mem = w.mem ∧ r.1.urn = w.urn := by
  intro w r
  obtain ⟨hm, hu⟩ := State.exchPut_stores (t := t) (y := x) hst (x := x.tile) rfl hq rfl off bs
  have hmet : x.Met (State.exchPut (t, x) q off bs).2 := State.exchPut_met (t, x) q off bs
  have hs (id : Nat) (h : id ≠ syncStatusId) (hf : id ≠ fabStatusId) : (s.xPut x.tile o off bs).1.ov id = s.ov id :=
    (exchClosed_ov h hf).xPut s x.tile o off bs
  have ht (id : Nat) (h : id ≠ syncStatusId) (hf : id ≠ fabStatusId) : (State.exchPut (t, x) q off bs).1.ov id = t.ov id :=
    (exchClosed_ov h hf).exchPut (t, x) q off bs
  exact State.exchPut_stores (hst.of_ov hs ht hm hu) hmet.tileCtx hq (hmet.bad _) off' bs'

section
variable {s : State} {p : Packet} {x : Exch} (hw : s.wf = true) (hx : s.exchOf p = some x)
include hw hx

theorem State.flawed_of {cmd : Instr} {log cause : Nat} {dev e slot : Nat} (hlog : log ≠ 0) (hcause : plainCause cause = cause)
    (hexec : exec cmd s = .next ((s.taken p).exchErr x log cause dev e slot)) : s.Flawed p x cmd cause := by
  obtain ⟨hc, hi, hb⟩ := State.names_exchOf hx
  obtain ⟨herr, hmeets, hfails⟩ := State.exchErr_flaws (s := s.taken p) (x := x) (State.keysFrom_vals hw) (State.twf_steps hw) hlog hcause dev e slot
  refine ⟨_, hexec, herr, fun hdone z hz => hmeets hdone z ?_, fun hdone => ?_, ?_⟩
  · rwa [hc, hi, hb]
  · rw [← hc]
    exact Failed.of_same (u := s.taken p) rfl rfl (hfails hdone)
  · exact (Runs.comp (State.exchErr_runs ..) rfl ((State.taken_runs s p).mono rfl)).frame

end

section
variable {s : State} {p : Packet} {x : Exch} (hp : p.wf = true) (hrails : s.power.rails = true) (hx : s.exchOf p = some x)
include hp hrails hx

/-! Rows at a replica (R219, R220). -/

section
variable {e slot : Nat} (he : e = bits (leNat ((p.body.drop 16).take 16)) 64 12) (hslot : slot = bits (leNat ((p.body.drop 16).take 16)) 96 16)
include he hslot

theorem exchRow_stores {i : Nat} (hi : findIdx (fun (q : Nat × Nat) => q.1 == e) (s.sections (s.layerCfg x.layer)) = some i)
    (hfit : slot < lyCapacity (s.layerCfg x.layer)) (hlen : p.field 64 32 = rowLen (s.xOp x.tile 5).t) (hdata : p.body.drop 32 ≠ []) :
    let w := ((s.xPut x.tile (s.xOp x.tile 5) (rowsAt (s.sections (s.layerCfg x.layer)).length (lyCapacity (s.layerCfg x.layer)) +
      (i * lyCapacity (s.layerCfg x.layer) + slot) * (s.xOp x.tile 5).t.stride1 + p.field 96 32) (p.body.drop 32)).1.xPut
        x.tile (s.xOp x.tile 5) (0x900 + (i * lyCapacity (s.layerCfg x.layer) + slot) * 16) ((p.body.drop 16).take 16)).1
    ∃ t, exec (.exchRow p) s = .next t ∧
      (∀ z, t.exchAt p = some z → t.mem = w.mem ∧ t.urn = w.urn ∧
        tget 0 z.rowBytes (i * 65536 + slot) = tget 0 x.rowBytes (i * 65536 + slot) + (p.body.drop 32).length) ∧
      Frame [.cores, .txe, .sync, .mem, .urn, .fab, .router, .host, .steps, .obj, .out] s t := by
  intro w
  obtain ⟨q, hq⟩ : ∃ q, q = State.exchPut (State.exchPut (s.taken p, x) ((s.taken p).xOp x.tile 5)
    (rowsAt (s.sections (s.layerCfg x.layer)).length (lyCapacity (s.layerCfg x.layer)) +
      (i * lyCapacity (s.layerCfg x.layer) + slot) * (s.xOp x.tile 5).t.stride1 + p.field 96 32) (p.body.drop 32))
    ((s.taken p).xOp x.tile 5) (0x900 + (i * lyCapacity (s.layerCfg x.layer) + slot) * 16) ((p.body.drop 16).take 16) := ⟨_, rfl⟩
  have hstores := State.exchPut_twice (s := s) (t := s.taken p) (x := x) (.of_same rfl rfl rfl) (o := s.xOp x.tile 5)
    (q := (s.taken p).xOp x.tile 5) ⟨rfl, rfl, rfl⟩
    (rowsAt (s.sections (s.layerCfg x.layer)).length (lyCapacity (s.layerCfg x.layer)) +
      (i * lyCapacity (s.layerCfg x.layer) + slot) * (s.xOp x.tile 5).t.stride1 + p.field 96 32)
    (0x900 + (i * lyCapacity (s.layerCfg x.layer) + slot) * 16) (p.body.drop 32) ((p.body.drop 16).take 16)
  obtain ⟨hm, hu⟩ := hstores
  have hmet : x.Met q.2 := hq ▸ (State.exchPut_met (s.taken p, x) ..).trans (State.exchPut_met ..)
  obtain ⟨z, hz⟩ : ∃ z, z = ({ q.2 with
    rowBytes := tset 0 x.rowBytes (i * 65536 + slot) (tget 0 x.rowBytes (i * 65536 + slot) + (p.body.drop 32).length) } : Exch) := ⟨_, rfl⟩
  have heq : s.exchRow p = (q.1.putExch z).exchGo x.ctx x.id x.bwd := by
    unfold State.exchRow
    dsimp only
    rw [show (s.taken p).exchOf p = some x from hx]
    dsimp only
    rw [← he, ← hslot, show findIdx (fun (q : Nat × Nat) => q.1 == e) ((s.taken p).sections ((s.taken p).layerCfg x.layer)) = some i from hi]
    dsimp only
    refine (if_neg (Nat.not_le.mpr hfit)).trans ((if_neg (not_not_intro hlen)).trans ?_)
    rw [hz, hq]
    rfl
  refine ⟨_, exec_exchRow hp hrails, fun v hv => ?_, (State.exchRow_runs p s).frame⟩
  rw [heq] at hv ⊢
  have hzname : z.ctx = x.ctx ∧ z.id = x.id ∧ z.bwd = x.bwd := by rw [hz]; exact ⟨hmet.ctx, hmet.id, hmet.bwd⟩
  obtain ⟨⟨a, r, hv'⟩, hvm, hvu⟩ := State.exchGo_put hx hzname hv
  refine ⟨hvm.trans ?_, hvu.trans ?_, ?_⟩
  · rw [hq]
    exact hm
  · rw [hq]
    exact hu
  · rw [hv', hz]
    exact tget_tset_self_of_ne _ _ _ fun h => hdata (List.length_eq_zero_iff.mp (Nat.add_eq_zero_iff.mp h).2)

theorem exchRow_beyond (hw : s.wf = true) (hout : ∀ i, findIdx (fun (q : Nat × Nat) => q.1 == e) (s.sections (s.layerCfg x.layer)) = some i →
    lyCapacity (s.layerCfg x.layer) ≤ slot) : s.Flawed p x (.exchRow p) 0x10 := by
  refine State.flawed_of hw hx (log := 1) (dev := p.src) (e := e) (slot := slot) (by decide) rfl ((exec_exchRow hp hrails).trans (congrArg _ ?_))
  unfold State.exchRow
  dsimp only
  rw [show (s.taken p).exchOf p = some x from hx]
  dsimp only
  rw [← he, ← hslot]
  split
  case h_1 => rfl
  case h_2 i hi => exact if_pos (hout i hi)

theorem exchRow_length (hw : s.wf = true) {i : Nat} (hi : findIdx (fun (q : Nat × Nat) => q.1 == e) (s.sections (s.layerCfg x.layer)) = some i)
    (hfit : slot < lyCapacity (s.layerCfg x.layer)) (hlen : p.field 64 32 ≠ rowLen (s.xOp x.tile 5).t) : s.Flawed p x (.exchRow p) 0x32 := by
  refine State.flawed_of hw hx (log := 5) (dev := p.src) (e := e) (slot := slot) (by decide) rfl ((exec_exchRow hp hrails).trans (congrArg _ ?_))
  unfold State.exchRow
  dsimp only
  rw [show (s.taken p).exchOf p = some x from hx]
  dsimp only
  rw [← he, ← hslot, show findIdx (fun (q : Nat × Nat) => q.1 == e) ((s.taken p).sections ((s.taken p).layerCfg x.layer)) = some i from hi]
  exact (if_neg (Nat.not_le.mpr hfit)).trans (if_pos hlen)

end

/-! Returned rows at the source (R221). -/

section
variable {slot rank : Nat} (hslot : slot = bits (leNat ((p.body.drop 16).take 16)) 16 16)
  (hrank : rank = bits (leNat ((p.body.drop 16).take 16)) 76 2)
include hslot hrank

theorem exchReturnRow_stores (hfit : slot < x.tokens) (hr : rank ≠ 3) (hlen : p.field 64 32 = rowLen (s.xOp x.tile 6).t)
    (hdata : p.body.drop 32 ≠ []) :
    let w := (s.xPut x.tile (s.xOp x.tile 6) ((slot * 3 + rank) * (s.xOp x.tile 6).t.stride1 + p.field 96 32) (p.body.drop 32)).1
    ∃ t, exec (.exchReturnRow p) s = .next t ∧
      (∀ z, t.exchAt p = some z → t.mem = w.mem ∧ t.urn = w.urn ∧
        tget 0 z.retBytes (slot * 4 + rank) = tget 0 x.retBytes (slot * 4 + rank) + (p.body.drop 32).length) ∧
      Frame [.cores, .txe, .sync, .mem, .urn, .fab, .router, .host, .steps, .obj, .out] s t := by
  intro w
  obtain ⟨q, hq⟩ : ∃ q, q = State.exchPut (s.taken p, x) ((s.taken p).xOp x.tile 6)
    ((slot * 3 + rank) * (s.xOp x.tile 6).t.stride1 + p.field 96 32) (p.body.drop 32) := ⟨_, rfl⟩
  obtain ⟨hm, hu⟩ := State.exchPut_stores (s := s) (t := s.taken p) (.of_same rfl rfl rfl) (x := x.tile) (y := x) rfl (o := s.xOp x.tile 6)
    (q := (s.taken p).xOp x.tile 6) ⟨rfl, rfl, rfl⟩ rfl ((slot * 3 + rank) * (s.xOp x.tile 6).t.stride1 + p.field 96 32) (p.body.drop 32)
  have hmet : x.Met q.2 := hq ▸ State.exchPut_met (s.taken p, x) ..
  obtain ⟨z, hz⟩ : ∃ z, z = ({ q.2 with
    retBytes := tset 0 x.retBytes (slot * 4 + rank) (tget 0 x.retBytes (slot * 4 + rank) + (p.body.drop 32).length) } : Exch) := ⟨_, rfl⟩
  have heq : s.exchReturnRow p = (q.1.putExch z).exchGo x.ctx x.id x.bwd := by
    unfold State.exchReturnRow
    dsimp only
    rw [show (s.taken p).exchOf p = some x from hx]
    dsimp only
    rw [← hslot, ← hrank, if_neg (not_or.mpr ⟨Nat.not_le.mpr hfit, hr⟩)]
    refine (if_neg (not_not_intro hlen)).trans ?_
    rw [hz, hq]
    rfl
  refine ⟨_, exec_exchReturnRow hp hrails, fun v hv => ?_, (State.exchReturnRow_runs p s).frame⟩
  rw [heq] at hv ⊢
  have hzname : z.ctx = x.ctx ∧ z.id = x.id ∧ z.bwd = x.bwd := by rw [hz]; exact ⟨hmet.ctx, hmet.id, hmet.bwd⟩
  obtain ⟨⟨a, r, hv'⟩, hvm, hvu⟩ := State.exchGo_put hx hzname hv
  refine ⟨hvm.trans ?_, hvu.trans ?_, ?_⟩
  · rw [hq]
    exact hm
  · rw [hq]
    exact hu
  · rw [hv', hz]
    exact tget_tset_self_of_ne _ _ _ fun h => hdata (List.length_eq_zero_iff.mp (Nat.add_eq_zero_iff.mp h).2)

theorem exchReturnRow_beyond (hw : s.wf = true) (hout : x.tokens ≤ slot ∨ rank = 3) : s.Flawed p x (.exchReturnRow p) 0x10 := by
  refine State.flawed_of hw hx (log := 1) (dev := p.src) (e := bits (leNat ((p.body.drop 16).take 16)) 64 12) (slot := slot) (by decide) rfl
    ((exec_exchReturnRow hp hrails).trans (congrArg _ ?_))
  unfold State.exchReturnRow
  dsimp only
  rw [show (s.taken p).exchOf p = some x from hx]
  dsimp only
  rw [← hslot, ← hrank, if_pos hout]

theorem exchReturnRow_length (hw : s.wf = true) (hfit : slot < x.tokens) (hr : rank ≠ 3) (hlen : p.field 64 32 ≠ rowLen (s.xOp x.tile 6).t) :
    s.Flawed p x (.exchReturnRow p) 0x32 := by
  refine State.flawed_of hw hx (log := 5) (dev := p.src) (e := bits (leNat ((p.body.drop 16).take 16)) 64 12) (slot := slot) (by decide) rfl
    ((exec_exchReturnRow hp hrails).trans (congrArg _ ?_))
  unfold State.exchReturnRow
  dsimp only
  rw [show (s.taken p).exchOf p = some x from hx]
  dsimp only
  rw [← hslot, ← hrank, if_neg (not_or.mpr ⟨Nat.not_le.mpr hfit, hr⟩)]
  exact if_pos hlen

end

end

end Sys2Proof.Machine
end


-- ==== Sys2Proof/Proofs/ExchDeadlines.lean ====
section
/-!
PROOF. The deadline of an exchange (R226), and what its messages bring about (R210 to R214, R219 to R221, R227 to R229).
-/

namespace Sys2Proof.Machine

/-! What a write through a word that is not of another module's memory leaves of the requests of tiles. -/

theorem State.tileReqs_latch (s : State) (c r : Nat) : (s.latch c r).fab.tileReqs = s.fab.tileReqs :=
  congrArg Fab.tileReqs ((s.latch_runs c r).same .fab rfl)

theorem State.tileReqs_meetX (s : State) (x : Exch) (cs : List (Nat × Nat)) : (s.meetX x cs).1.fab.tileReqs = s.fab.tileReqs := by
  unfold State.meetX
  dsimp only
  split
  · rfl
  · split
    · exact (State.tileReqs_latch ..).trans (s.tileReqs_metX x.ctx cs)
    · exact s.tileReqs_metX x.ctx cs

theorem State.tileReqs_applyStore (s : State) (n c seq : Nat) (x : Store) (h : x.1 < 3) :
    (s.applyStore n c seq x).1.fab.tileReqs = s.fab.tileReqs := by
  obtain ⟨cls, key, a, bs, op⟩ := x
  unfold State.applyStore
  dsimp only
  split
  case h_1 =>
    split
    · rfl
    · exact congrArg Fab.tileReqs ((s.storeDev_runs a _).same .fab rfl)
  case h_2 => rfl
  case h_3 => exact congrArg Fab.tileReqs ((s.urnStore_runs key a _).same .fab rfl)
  case h_4 h0 h1 h2 =>
    have hcls : cls < 3 := h
    interval_cases cls
    · exact absurd rfl h0
    · exact absurd rfl h1
    · exact absurd rfl h2

theorem State.tileReqs_exchPut (q : State × Exch) {o : XOp} (h : o.t.cls < 3) (off : Nat) (bs : List Byte) :
    (State.exchPut q o off bs).1.fab.tileReqs = q.1.fab.tileReqs := by
  refine (State.tileReqs_meetX ..).trans ?_
  unfold State.xPut
  split
  · rfl
  · split
    · rfl
    · exact State.tileReqs_applyStore _ _ _ _ _ h

theorem State.tileReqs_writeShapes (q : State × Exch) (counts : Nat → Nat) (h : (q.1.tensAt (dWord q.2.tile.desc 5)).cls < 3) :
    (State.writeShapes q counts).1.fab.tileReqs = q.1.fab.tileReqs := by
  unfold State.writeShapes
  dsimp only
  have ho : (q.1.xOp q.2.tile 5).t.cls < 3 := h
  generalize q.1.xOp q.2.tile 5 = o at ho ⊢
  generalize (q.1.sections (q.1.layerCfg q.2.layer)).zipIdx = xs
  clear h
  induction xs generalizing q with
  | nil => rfl
  | cons p ps ih =>
    rw [List.foldl_cons]
    refine (ih _).trans ?_
    split
    · exact State.tileReqs_exchPut _ ho ..
    · exact (State.tileReqs_exchPut _ ho ..).trans (State.tileReqs_exchPut _ ho ..)

/-! The outstanding tiles of an exchange whose deadline has passed (R226). -/

/-- A tile of an exchange whose deadline has passed. -/
def TxeTile.late (y : TxeTile) : TxeTile := { y with causes := y.causes ++ [(0x33, 0x0A)] }

theorem State.txe_lateTiles (ys : List TxeTile) (s : State) :
    (ys.foldl (fun u y => u.finishX y.late) s).txe.opens = s.txe.opens ∧
      (ys.foldl (fun u y => u.finishX y.late) s).txe.errLog = s.txe.errLog := by
  induction ys generalizing s with
  | nil => exact ⟨rfl, rfl⟩
  | cons y ys ih =>
    obtain ⟨ho, hl⟩ := ih (s.finishX y.late)
    obtain ⟨ho', hl'⟩ := s.txe_finishX y.late
    exact ⟨ho.trans ho', hl.trans hl'⟩

/-- The state without the tiles that wait for bytes of peers. -/
def State.dropHeld (s : State) (x : Exch) : State :=
  s.setTxe { s.txe with busy := s.txe.busy.filter (fun y => !((s.heldOf x).contains y)) }

/-- The tile that opened the exchange ends, or the step fails where it has ended. -/
def State.lateOpener (s : State) (x : Exch) : State := if x.tileDone then s.latch x.ctx 1 else s.finishX x.tile.late

theorem State.timeoutX_eq (s : State) (x : Exch) :
    s.timeoutX x = (s.heldOf x).foldl (fun u y => u.finishX y.late) ((s.dropHeld x).lateOpener x) := rfl

theorem ExchEnds.lateTiles {R : State → State → Prop} (h : ExchEnds R) (ys : List TxeTile) (s : State) :
    R s (ys.foldl (fun u y => u.finishX y.late) s) := h.toExchClosed.foldl (fun u y => h.finishX u y.late) ys s

theorem ExchEnds.lateOpener {R : State → State → Prop} (h : ExchEnds R) (s : State) (x : Exch) : R s (s.lateOpener x) := by
  unfold State.lateOpener
  split
  · exact h.latch ..
  · exact h.finishX ..

theorem ExchEnds.timeoutX {R : State → State → Prop} (h : ExchEnds R) (s : State) (x : Exch) : R s (s.timeoutX x) := by
  have hdrop : R s (s.dropHeld x) := h.quiet ((State.setTxe_runs ..).mono rfl)
  rw [State.timeoutX_eq]
  exact h.trans hdrop (h.trans (h.lateOpener (s.dropHeld x) x) (h.lateTiles ..))

theorem State.txe_timeoutX (s : State) (x : Exch) :
    (s.timeoutX x).txe.opens = s.txe.opens ∧ (s.timeoutX x).txe.errLog = s.txe.errLog := by
  obtain ⟨ho, hl⟩ := State.txe_lateTiles (s.heldOf x) ((s.dropHeld x).lateOpener x)
  rw [State.timeoutX_eq]
  refine ⟨ho.trans ?_, hl.trans ?_⟩ <;> unfold State.lateOpener <;> split
  · exact (congrArg Txe.opens (((s.dropHeld x).latch_runs x.ctx 1).same .txe rfl) :)
  · exact ((s.dropHeld x).txe_finishX x.tile.late).1
  · exact (congrArg Txe.errLog (((s.dropHeld x).latch_runs x.ctx 1).same .txe rfl) :)
  · exact ((s.dropHeld x).txe_finishX x.tile.late).2

theorem State.timeoutX_fails {s : State} {x : Exch} (hv : ValsOk s) (hs : StepsOk s) (hctx : x.tile.ctx = x.ctx)
    (h : x.tileDone = true ∨ s.writesOpen txeCore x.ctx x.tile.seq = false) : s.Failed (s.timeoutX x) x.ctx := by
  have hstands : StepsStand s (s.dropHeld x) := .of_same rfl rfl
  obtain ⟨hv', hs', -⟩ := hstands hv hs
  have hopener : s.Failed ((s.dropHeld x).lateOpener x) x.ctx := by
    unfold State.lateOpener
    split
    case isTrue => exact Failed.latch hstands hv hs x.ctx 1
    case isFalse hdone =>
      have hopen : (s.dropHeld x).writesOpen txeCore x.tile.late.ctx x.tile.late.seq = false := by
        rw [show x.tile.late.ctx = x.ctx from hctx]
        exact h.resolve_left hdone
      have hfails := State.finishX_fails (x := x.tile.late) hv' hs' (List.append_ne_nil_of_right_ne_nil _ (List.cons_ne_nil _ _)) hopen
      rw [show x.tile.late.ctx = x.ctx from hctx] at hfails
      exact Failed.of_stands hstands hv hs hfails
  have hok : StepsOk ((s.dropHeld x).lateOpener x) := (exchEnds_failKept.lateOpener (s.dropHeld x) x hs').1
  rw [State.timeoutX_eq]
  exact Failed.kept (t := (s.dropHeld x).lateOpener x) (exchEnds_failKept.lateTiles (s.heldOf x) _) hok hopener

theorem exchDeadline_closes {s : State} (hw : s.wf = true) {c id dir : Nat} {x : Exch} (hc : c < 16) (hx : s.exch c id (dir == 1) = some x)
    (hctx : x.tile.ctx = c) (hdue : x.openedAt + s.ov exchDeadlineId * 1000 ≤ s.ftRead hubPs) :
    ∃ t, exec (.exchDeadlineExpiry c id dir) s = .next t ∧ t.exch c id (dir == 1) = none ∧ t.txe.errLog ≠ 0 ∧
      (x.tileDone = true ∨ (s.writesOpen txeCore c x.tile.seq = false ∧ (s.tensAt (dWord x.tile.desc 5)).cls < 3) → s.Failed t c) ∧
      Frame [.cores, .txe, .sync, .mem, .urn, .fab, .router, .host, .steps, .obj, .out] s t := by
  obtain ⟨hxc, hxi, hxb⟩ := State.of_exch hx
  obtain ⟨r, hr⟩ : ∃ r, r = State.writeShapes (s, x) (fun i => wholeRows (x.rowBytes.filter (fun p => p.1 / 65536 == i))
    (rowLen (s.tensAt (dWord x.tile.desc 5)))) := ⟨_, rfl⟩
  obtain ⟨l, hl⟩ : ∃ l, l = r.1.exchLog (dTileId x.tile.desc) 2 0 0 0 := ⟨_, rfl⟩
  obtain ⟨v, hv⟩ : ∃ v, v = (l.dropExch x).timeoutX r.2 := ⟨_, rfl⟩
  have heq : s.exchDeadline c id dir = (v.signalIf (!x.arriveDone) c (xArrive x.tile.desc)).signalIf (!x.returnDone) c (xReturn x.tile.desc) := by
    unfold State.exchDeadline
    rw [hx]
    dsimp only
    rw [if_neg (Nat.not_lt.mpr hdue), hv, hl, hr, State.signalIf, State.signalIf]
    cases x.arriveDone <;> cases x.returnDone <;> rfl
  have hmet : x.Met r.2 := hr ▸ State.writeShapes_met (s, x) _
  have hsignals : Runs [.sync, .fab, .router, .steps, .obj] v (s.exchDeadline c id dir) :=
    heq ▸ Runs.trans (State.signalIf_runs ..) (State.signalIf_runs ..)
  have htxe : (s.exchDeadline c id dir).txe = v.txe := hsignals.same .txe rfl
  obtain ⟨hopens, hlog⟩ := (l.dropExch x).txe_timeoutX r.2
  refine ⟨s.exchDeadline c id dir, need_of (decide_eq_true hc) _, ?_, ?_, fun hfail => ?_, (State.exchDeadline_runs c id dir s).frame⟩
  · have hnone := l.exch_dropExch x
    rw [hxc, hxi, hxb] at hnone
    rw [State.exch_congr ((congrArg Txe.opens htxe).trans ((congrArg (fun u : State => u.txe.opens) hv).trans hopens)), hnone]
  · rw [htxe, hv, hlog, show (l.dropExch x).txe.errLog = l.txe.errLog from rfl, hl]
    exact State.errLog_exchLog _ _ _ _ _ (by decide)
  · have hshapes : StepsStand s r.1 := hr ▸ exchClosed_stands.writeShapes (s, x) _
    have hlruns : Runs [.txe] r.1 l := hl ▸ State.exchLog_runs ..
    have hstands : StepsStand s (l.dropExch x) := hshapes.trans (.of_same (hlruns.same .obj rfl) (hlruns.same .steps rfl))
    have hvals : ValsOk s := State.keysFrom_vals hw
    have hsteps : StepsOk s := State.twf_steps hw
    obtain ⟨hvals', hsteps', -⟩ := hstands hvals hsteps
    have hcase : r.2.tileDone = true ∨ (l.dropExch x).writesOpen txeCore r.2.ctx r.2.tile.seq = false := by
      rw [hmet.tileDone, hmet.ctx, hxc, hmet.tileSeq]
      refine hfail.imp_right fun ⟨hopen, hcls⟩ => ?_
      have hreqs : l.fab.tileReqs = s.fab.tileReqs := by
        rw [show l.fab = r.1.fab from hlruns.same .fab rfl, hr]
        exact State.tileReqs_writeShapes (s, x) _ hcls
      rw [State.writesOpen, show (l.dropExch x).fab.tileReqs = l.fab.tileReqs from rfl, hreqs]
      exact hopen
    have hfails := State.timeoutX_fails hvals' hsteps' (hmet.tileCtx.trans (hctx.trans (hxc.symm.trans hmet.ctx.symm))) hcase
    rw [← hv, hmet.ctx, hxc] at hfails
    have hvok : StepsOk v := hv ▸ (exchEnds_failKept.timeoutX (l.dropExch x) r.2 hsteps').1
    rw [heq]
    exact Failed.kept (t := v) ((signalClosed_failKept.signalIf v (!x.arriveDone) c (xArrive x.tile.desc)).trans
      (signalClosed_failKept.signalIf _ (!x.returnDone) c (xReturn x.tile.desc))) hvok
      (Failed.of_stands hstands hvals hsteps hfails)

/-- Settles O45: the messages one by one, then the deadline. -/
theorem exchangeMessagesAdmitAndMoveRows : Obligations.ExchangeMessagesAdmitAndMoveRows := by
  unfold Obligations.ExchangeMessagesAdmitAndMoveRows
  intro s p hw hp cmds
  refine ⟨fun hoff c hc => ?_, fun hrails hnone c hc => exch_stale hp hrails hw hnone hc, fun x hrails hx => ?_, fun c id dir x hc hx hctx hdue =>
    exchDeadline_closes hw hc hx hctx hdue⟩
  · simp only [cmds, List.mem_cons, List.not_mem_nil, or_false] at hc
    obtain rfl | rfl | rfl | rfl | rfl := hc <;> exact (need_of hp _).trans (powered_off hoff _)
  · intro cfg secs c data tag now flawed
    refine ⟨fun h0 hcheck hall => ?_, fun hlt hcheck => ?_, fun hround hmatch => exchGrant_mismatch hp hrails hx hw hround hmatch, ?_,
      fun e i he hi hne => exchAllot_allots hp hrails hx he hi hne, ?_, ?_⟩
    · exact exchCount_grants hp hrails hx rfl rfl h0 hcheck hall
    · exact exchCount_mismatch hp hrails hx rfl rfl hlt hcheck
    · intro y rs w h0 hmatch hall
      exact ⟨fun hpol => exchGrant_tags hp hrails hx rfl rfl h0 hmatch hall hpol,
        fun hpol hhomes => exchGrant_round1 hp hrails hx rfl h0 hmatch hall hpol hhomes⟩
    · intro e slot o
      exact ⟨fun i hi hfit hlen hdata => exchRow_stores hp hrails hx rfl rfl hi hfit hlen hdata,
        fun hout => exchRow_beyond hp hrails hx rfl rfl hw hout, fun i hi hfit hlen => exchRow_length hp hrails hx rfl rfl hw hi hfit hlen⟩
    · intro n slot rank o
      exact ⟨fun hfit hr hlen hdata => exchReturnRow_stores hp hrails hx rfl rfl hfit hr hlen hdata,
        fun hout => exchReturnRow_beyond hp hrails hx rfl rfl hw hout,
        fun hfit hr hlen => exchReturnRow_length hp hrails hx rfl rfl hw hfit hr hlen⟩

end Sys2Proof.Machine
end


-- ==== Sys2Proof/Proofs/CombineRecord.lean ====
section
/-!
PROOF. Why a COMBINE tile that meets no cause in its work does not always leave its rows in memory: `State.wf` allows the record of
an answered WRITE with a cause under the tile's own SEQ, so that the tile ends DEFECTIVE and writes its completion record, over its
row where the completion ring lies there (R108, R121, R222).
-/

namespace Sys2Proof.Machine

namespace CombineRecord

open Tests

/-- A WRITE of the tile, answered, that met cause 3. -/
def answered : TileReq :=
  { tag := 0, core := txeCore, ctx := 0, seq := 7, op := 4, dest := 9, addr := 0, len := 4, write := true, cached := false, at_ := 0,
    got := some [], cause := 3 }

/-- Where the memory of the first stack that a tile may name ends. -/
def top : Nat := memSize 0 - reservedTop

/-- The COMBINE tile of the tests, its rows written at the end of that memory. -/
def tile : WorkDesc := atPeer dCombine 4

/-- That tile as listed, with that WRITE, and the completion ring where its row ends: of a record the memory holds the first 16
bytes, and not those of its times, which rest on free values. -/
def module : State :=
  let s := (xListed tile).storeDev 0xC0 (toLE 64 (top - 512 + 128 * 2 ^ 96 + 128 * 2 ^ 128 + 512 * 2 ^ 160))
  (s.setFab { s.fab with tileReqs := [answered] }).setOv cplRingBaseId (top - 16)

/-- The tile as its list entry. -/
def listEntry : Entry := xEntry tile

/-- The byte of the row in which a record holds its status, after a command. -/
def byteAfter : Result → Option Byte
  | .next t => some (t.memByte ((module.tensAt (dWord listEntry.desc 4)).base + 500))
  | _ => none

/-- The record's status, DEFECTIVE, stands there, and not the row's 0. -/
theorem byteAfter_combine : byteAfter (exec .combine module) = some 0x10#8 := by decide +kernel

/-- The state in which the engine has taken the tile up, the tile as accepted, and the state that it works on. -/
def taken : State := (module.notice.unlist listEntry).takeWaits listEntry
def accepted : TxeTile := taken.newTxe listEntry
def working : State := (taken.urnTileFlags listEntry.desc (taken.urnCauses listEntry.ctx listEntry.desc)).evalNote accepted.evalC

theorem claimed : pickBy xBefore (((List.range 4).flatMap module.notice.dieList).filter module.notice.txeReady) = some listEntry := by
  decide +kernel

theorem unbarred : module.wf = true ∧ module.notice.badWaitX (xKind listEntry.desc) = none ∧ module.mem.found = [] ∧
    module.writesOpen txeCore listEntry.ctx listEntry.seq = false ∧ module.notice.heldX (xKind listEntry.desc) = none ∧
    module.notice.unreadX (xKind listEntry.desc) = none := by
  decide +kernel

theorem allowed : taken.refusal17 0 listEntry = 0 ∧ ¬(accepted.mEff = 0 ∨ accepted.nEff = 0) ∧
    (module.exchGroup listEntry.ctx (module.layerCfg (xLayer listEntry.desc))).isSome = true ∧ xKind listEntry.desc = 3 := by
  decide +kernel

theorem misses_none : (State.combineRun accepted working).causes.any (fun q => isMiss q.1) = false := by decide +kernel

theorem causes_none : taken.urnCauses listEntry.ctx listEntry.desc = [] ∧ working.xTokens accepted = 1 ∧ accepted.causes = [] ∧
    accepted.frees = [] ∧ (working.combineRow accepted 0).2.1 = [] := by
  decide +kernel

theorem plain : dCplAlways listEntry.desc = false ∧ (module.tensAt (dWord listEntry.desc 4)).cls = 0 ∧ module.evalOn = false := by
  decide +kernel

/-- The row that the tile forms. -/
def row : List Byte := (rowBytesOf (module.tensAt (dWord listEntry.desc 4)) (working.combineRow accepted 0).1).1

theorem row_byte : row[500]? = some 0#8 := by decide +kernel

theorem row_mapped : module.anyUnmapped (module.tensAt (dWord listEntry.desc 4)).base row.length = false := by decide +kernel

end CombineRecord

/-- What the statement says of a COMBINE tile that the engine claims, and that meets no cause in its work. -/
theorem combine_stores (h : Obligations.ExchangeTilesRun) {s v u : State} {e : Entry} {x : TxeTile} (hw : s.wf = true)
    (hpick : pickBy xBefore (((List.range 4).flatMap s.notice.dieList).filter s.notice.txeReady) = some e)
    (hbar : s.notice.badWaitX (xKind e.desc) = none ∧ s.mem.found = [] ∧ s.writesOpen txeCore e.ctx e.seq = false ∧
      s.notice.heldX (xKind e.desc) = none ∧ s.notice.unreadX (xKind e.desc) = none)
    (hv : v = (s.notice.unlist e).takeWaits e) (hx : x = v.newTxe e)
    (hu : u = (v.urnTileFlags e.desc (v.urnCauses e.ctx e.desc)).evalNote x.evalC)
    (hallow : v.refusal17 0 e = 0 ∧ ¬(x.mEff = 0 ∨ x.nEff = 0) ∧ (s.exchGroup e.ctx (s.layerCfg (xLayer e.desc))).isSome = true ∧
      xKind e.desc = 3)
    (hmiss : (State.combineRun x u).causes.any (fun q => isMiss q.1) = false)
    (hnone : v.urnCauses e.ctx e.desc = [] ∧ u.xTokens x = 1 ∧ x.causes = [] ∧ x.frees = [] ∧ (u.combineRow x 0).2.1 = [])
    (hplain : dCplAlways e.desc = false ∧ (s.tensAt (dWord e.desc 4)).cls = 0 ∧ s.evalOn = false) {bs : List Byte}
    (hbs : bs = (rowBytesOf (s.tensAt (dWord e.desc 4)) (u.combineRow x 0).1).1)
    (hmap : s.anyUnmapped (s.tensAt (dWord e.desc 4)).base bs.length = false) {i : Nat} {b : Byte} (hb : bs[i]? = some b) :
    ∃ t, exec .combine s = .next t ∧ t.memByte ((s.tensAt (dWord e.desc 4)).base + i) = b := by
  subst hbs hu hx hv
  obtain ⟨hwait, hfound, hopen, hheld, hunread⟩ := hbar
  obtain ⟨hrefusal, hfull, hgroup, hkind⟩ := hallow
  obtain ⟨hurn, htokens, hcauses, hfrees, hread⟩ := hnone
  obtain ⟨halways, hcls, heval⟩ := hplain
  obtain ⟨-, hclaims⟩ := h s e hw hpick hwait hfound hopen
  obtain ⟨-, hworks, -⟩ := hclaims hheld hunread
  obtain ⟨-, -, -, hcombine, -⟩ := hworks hrefusal hfull hgroup
  obtain ⟨hdone, -⟩ := hcombine hkind
  obtain ⟨t, hexec, -, -, -, hbytes, -⟩ := hdone hmiss
  exact ⟨t, hexec, hbytes hurn htokens hcauses hfrees hread halways hcls heval i b hb hmap⟩

/-- Refutes O44 at the byte of memory that a COMBINE tile's row gives: the tile ends with a cause that an acknowledgement brought, and
its completion record takes the place of its row. -/
theorem not_exchangeTilesRun : ¬ Obligations.ExchangeTilesRun := fun h => by
  obtain ⟨hwf, hbar⟩ := CombineRecord.unbarred
  obtain ⟨t, hexec, hbyte⟩ := combine_stores h hwf CombineRecord.claimed hbar (v := CombineRecord.taken) rfl (x := CombineRecord.accepted) rfl
    (u := CombineRecord.working) rfl CombineRecord.allowed CombineRecord.misses_none CombineRecord.causes_none CombineRecord.plain
    (bs := CombineRecord.row) rfl CombineRecord.row_mapped CombineRecord.row_byte
  have hread := CombineRecord.byteAfter_combine
  rw [hexec, CombineRecord.byteAfter, hbyte] at hread
  exact absurd hread (by decide)

end Sys2Proof.Machine
end
